-- ==== Sys2Proof/Word.lean ====
section
/-! DEFINITION. The word types of the ZH8 (00 R5, 01 R9), the bit-range notation of the pseudocode (01 R29), and
keyed tables: lists of key and value pairs with rising keys, in which an absent key reads as a default. -/

namespace Sys2Proof

abbrev Byte := BitVec 8
/-- A general, predicate or special register (01 Table 1.1). -/
abbrev Word := BitVec 64
/-- A vector register (01 Table 1.1). -/
abbrev VWord := BitVec 512
/-- A 5-bit register field (04 Table 4.3). -/
abbrev Reg := BitVec 5
/-- A 3-bit predicate register field (04 Table 4.3). -/
abbrev PReg := BitVec 3

/-- x[hi:lo] of 01 R29: the unsigned integer formed from bits hi down to lo. -/
def bitsOf (x hi lo : Nat) : Nat := x / 2 ^ lo % 2 ^ (hi + 1 - lo)

/-- Bit i of x. -/
def bitOf (x i : Nat) : Bool := x / 2 ^ i % 2 == 1

/-- The field [hi:lo] of a word as an unsigned integer. -/
def fld (w : Word) (hi lo : Nat) : Nat := bitsOf w.toNat hi lo

/-- Bit i of a word. -/
def flag (w : Word) (i : Nat) : Bool := bitOf w.toNat i

def b2n (b : Bool) : Nat := if b then 1 else 0

/-- The word of an unsigned integer, modulo 2^64. -/
abbrev W (n : Nat) : Word := BitVec.ofNat 64 n

/-- The low n bits of x as a two's-complement integer. -/
def toSigned (n x : Nat) : Int :=
  let y := x % 2 ^ n
  if n ≠ 0 ∧ 2 ^ (n - 1) ≤ y then (y : Int) - 2 ^ n else y

/-- sext(x, n) of 01 R29. -/
def sext64 (n x : Nat) : Word := BitVec.ofInt 64 (toSigned n x)

/-- The integer z modulo 2^n. -/
def wrapTo (n : Nat) (z : Int) : Nat := (z % (2 ^ n : Nat)).toNat

def b2w (b : Bool) : Word := if b then 1 else 0

/-- The n bytes of x, least significant first (00 R5). -/
def bytesOf : Nat → Nat → List Byte
  | 0, _ => []
  | n + 1, x => BitVec.ofNat 8 x :: bytesOf n (x / 256)

/-- The unsigned integer of bytes, least significant first (00 R5). -/
def natOf : List Byte → Nat
  | [] => 0
  | b :: bs => b.toNat + 256 * natOf bs

/-- Cuts a list into pieces of n elements, at most k pieces. -/
def chunks {α : Type} (n : Nat) : Nat → List α → List (List α)
  | 0, _ => []
  | k + 1, l => if l.isEmpty then [] else l.take n :: chunks n k (l.drop n)

/-- A table keyed by natural numbers, keys rising. -/
abbrev Tab (α : Type) := List (Nat × α)

/-- The value at key k, or d where the table has none. -/
def Tab.get {α : Type} (d : α) : Tab α → Nat → α
  | [], _ => d
  | (j, a) :: t, k => if j = k then a else Tab.get d t k

def Tab.look {α : Type} : Tab α → Nat → Option α
  | [], _ => none
  | (j, a) :: t, k => if j = k then some a else Tab.look t k

/-- The table with value a at key k. -/
def Tab.set {α : Type} : Tab α → Nat → α → Tab α
  | [], k, a => [(k, a)]
  | (j, b) :: t, k, a =>
    if j = k then (k, a) :: t
    else if k < j then (k, a) :: (j, b) :: t
    else (j, b) :: Tab.set t k a

/-- The table without key k. -/
def Tab.del {α : Type} (t : Tab α) (k : Nat) : Tab α := t.filter (fun e => e.1 != k)

/-- The first element at index i, and the list without it. -/
def takeAt {α : Type} : List α → Nat → Option (α × List α)
  | [], _ => none
  | a :: l, 0 => some (a, l)
  | a :: l, i + 1 => (takeAt l i).map (fun r => (r.1, a :: r.2))

/-- The list with element i replaced by f of it. -/
def updAt {α : Type} (f : α → α) : List α → Nat → List α
  | [], _ => []
  | a :: l, 0 => f a :: l
  | a :: l, i + 1 => a :: updAt f l i

end Sys2Proof
end

