-- ==== Sys2Proof/Syntax.lean ====
section
/-! DEFINITION. The instructions of the ZH8: one constructor for each row of spec/opcode_table.json.

Rows with an encoding carry `s`, the S bit (04 R89), and the operand fields of their form. Rows without an encoding
are the part's own steps (spec/95_what_each_step_holds.md); they carry the data that says where the step acts: a
core (`core`, a physical id), a context (`cx`, 4 for SH), a position `i` in the list of the state that the step takes
its subject from, or the value that the outside world supplies. -/

namespace Sys2Proof

/-- `COND` of Bc and CMPI (04 R97). -/
inductive Cond where
  | eq | ne | lt | ge | ltu | geu
deriving DecidableEq, Repr

/-- `COND` of Bz (04 R97). -/
inductive BzCond where
  | eq | ne | lt | ge | le | gt
deriving DecidableEq, Repr

/-- `HINT` (04 R98). -/
inductive Hint where
  | none | taken | notTaken
deriving DecidableEq, Repr

/-- Scope codes (04 R100). -/
inductive Scope where
  | core | die | dev | sys
deriving DecidableEq, Repr

/-- Order codes 0 to 4 (04 R100). -/
inductive Order where
  | relaxed | acq | rel | ar | sc
deriving DecidableEq, Repr

/-- `SZ` (04 R99). -/
inductive Size where
  | b | h | w | d
deriving DecidableEq, Repr

/-- The access size in bytes (04 R99). -/
def Size.bytes : Size → Nat
  | .b => 1
  | .h => 2
  | .w => 4
  | .d => 8

inductive Instr where
  /-- R110: Writes Ga + Gb to Gd, wrapping modulo 2^64. -/
  | add (s : Bool) (d a b : Reg)
  /-- R110: Writes Ga − Gb to Gd. -/
  | sub (s : Bool) (d a b : Reg)
  /-- R110: Writes the low 64 bits of Ga × Gb to Gd. -/
  | mul (s : Bool) (d a b : Reg)
  /-- R110: Writes the high 64 bits of the signed 128-bit product. -/
  | mulh (s : Bool) (d a b : Reg)
  /-- R110: Writes the high 64 bits of the unsigned 128-bit product. -/
  | mulhu (s : Bool) (d a b : Reg)
  /-- R111: Signed division truncated toward zero; DIVZ on a zero divisor. -/
  | div (s : Bool) (d a b : Reg)
  /-- R111: Unsigned division; DIVZ on a zero divisor. -/
  | divu (s : Bool) (d a b : Reg)
  /-- R111: Signed remainder with the sign of Ga; DIVZ on a zero divisor. -/
  | rem (s : Bool) (d a b : Reg)
  /-- R111: Unsigned remainder; DIVZ on a zero divisor. -/
  | remu (s : Bool) (d a b : Reg)
  /-- R110: Bitwise and of Ga and Gb. -/
  | and (s : Bool) (d a b : Reg)
  /-- R110: Bitwise or of Ga and Gb. -/
  | or (s : Bool) (d a b : Reg)
  /-- R110: Bitwise exclusive or of Ga and Gb. -/
  | xor (s : Bool) (d a b : Reg)
  /-- R110: Ga and not Gb. -/
  | andn (s : Bool) (d a b : Reg)
  /-- R110: Ga or not Gb. -/
  | orn (s : Bool) (d a b : Reg)
  /-- R110: Shifts Ga left by Gb[5:0]. -/
  | shl (s : Bool) (d a b : Reg)
  /-- R110: Shifts Ga right logically by Gb[5:0]. -/
  | shr (s : Bool) (d a b : Reg)
  /-- R110: Shifts Ga right arithmetically by Gb[5:0]. -/
  | sar (s : Bool) (d a b : Reg)
  /-- R110: Rotates Ga left by Gb[5:0]. -/
  | rol (s : Bool) (d a b : Reg)
  /-- R110: Rotates Ga right by Gb[5:0]. -/
  | ror (s : Bool) (d a b : Reg)
  /-- R110: Signed minimum of Ga and Gb. -/
  | min (s : Bool) (d a b : Reg)
  /-- R110: Signed maximum of Ga and Gb. -/
  | max (s : Bool) (d a b : Reg)
  /-- R110: Unsigned minimum of Ga and Gb. -/
  | minu (s : Bool) (d a b : Reg)
  /-- R110: Unsigned maximum of Ga and Gb. -/
  | maxu (s : Bool) (d a b : Reg)
  /-- R110: Writes Ga if Gd is non-zero, else Gb. -/
  | sel (s : Bool) (d a b : Reg)
  /-- R110: Writes 1 if Ga = Gb, else 0. -/
  | cmpeq (s : Bool) (d a b : Reg)
  /-- R110: Writes 1 if Ga ≠ Gb, else 0. -/
  | cmpne (s : Bool) (d a b : Reg)
  /-- R110: Writes 1 if Ga < Gb signed. -/
  | cmplt (s : Bool) (d a b : Reg)
  /-- R110: Writes 1 if Ga ≥ Gb signed. -/
  | cmpge (s : Bool) (d a b : Reg)
  /-- R110: Writes 1 if Ga < Gb unsigned. -/
  | cmpltu (s : Bool) (d a b : Reg)
  /-- R110: Writes 1 if Ga ≥ Gb unsigned. -/
  | cmpgeu (s : Bool) (d a b : Reg)
  /-- R112: Counts leading zero bits of Ga. -/
  | clz (s : Bool) (d a : Reg)
  /-- R112: Counts trailing zero bits of Ga. -/
  | ctz (s : Bool) (d a : Reg)
  /-- R112: Counts one bits of Ga. -/
  | popc (s : Bool) (d a : Reg)
  /-- R112: Reverses the bytes of Ga. -/
  | bswap (s : Bool) (d a : Reg)
  /-- R112: Sign-extends Ga[7:0]. -/
  | sextb (s : Bool) (d a : Reg)
  /-- R112: Sign-extends Ga[15:0]. -/
  | sexth (s : Bool) (d a : Reg)
  /-- R112: Sign-extends Ga[31:0]. -/
  | sextw (s : Bool) (d a : Reg)
  /-- R112: Zero-extends Ga[7:0]. -/
  | zextb (s : Bool) (d a : Reg)
  /-- R112: Zero-extends Ga[15:0]. -/
  | zexth (s : Bool) (d a : Reg)
  /-- R112: Zero-extends Ga[31:0]. -/
  | zextw (s : Bool) (d a : Reg)
  /-- R113: Adds a sign-extended 14-bit immediate to Ga. -/
  | addi (s : Bool) (d a : Reg) (i : BitVec 14)
  /-- R113: Ands Ga with a sign-extended 14-bit immediate. -/
  | andi (s : Bool) (d a : Reg) (i : BitVec 14)
  /-- R113: Ors Ga with a sign-extended 14-bit immediate. -/
  | ori (s : Bool) (d a : Reg) (i : BitVec 14)
  /-- R113: Exclusive-ors Ga with a sign-extended 14-bit immediate. -/
  | xori (s : Bool) (d a : Reg) (i : BitVec 14)
  /-- R114: Shifts Ga left by an immediate count. -/
  | shli (s : Bool) (d a : Reg) (n : BitVec 6)
  /-- R114: Shifts Ga right logically by an immediate count. -/
  | shri (s : Bool) (d a : Reg) (n : BitVec 6)
  /-- R114: Shifts Ga right arithmetically by an immediate count. -/
  | sari (s : Bool) (d a : Reg) (n : BitVec 6)
  /-- R114: Rotates Ga right by an immediate count. -/
  | rori (s : Bool) (d a : Reg) (n : BitVec 6)
  /-- R115: Writes 1 if Ga meets the condition against a sign-extended 11-bit immediate. -/
  | cmpi (s : Bool) (c : Cond) (d a : Reg) (i : BitVec 11)
  /-- R116: Loads a sign-extended 19-bit immediate into Gd. -/
  | li (s : Bool) (d : Reg) (i : BitVec 19)
  /-- R116: Loads a sign-extended 19-bit immediate times 2^14 into Gd. -/
  | lih (s : Bool) (d : Reg) (i : BitVec 19)
  /-- R116: Writes the instruction's address plus twice a signed halfword offset. -/
  | addpc (s : Bool) (d : Reg) (i : BitVec 19)
  /-- R117: Computes Ga plus a scaled displacement without any access or check. -/
  | lea (s : Bool) (z : Size) (d a : Reg) (i : BitVec 11)
  /-- R118: Loads 1, 2, 4 or 8 bytes from Ga plus a scaled displacement, sign- or zero-extended. -/
  | ld (s : Bool) (z : Size) (x : Bool) (d a : Reg) (i : BitVec 11)
  /-- R118: Stores the low bytes of Gd to Ga plus a scaled displacement. -/
  | st (s : Bool) (z : Size) (d a : Reg) (i : BitVec 11)
  /-- R119: Loads from Ga + Gb. -/
  | ldx (s : Bool) (z : Size) (x : Bool) (d a b : Reg)
  /-- R119: Stores Gd to Ga + Gb. -/
  | stx (s : Bool) (z : Size) (d a b : Reg)
  /-- R123: Reads a special register into Gd after the number and privilege checks. -/
  | mfs (s : Bool) (d : Reg) (i : BitVec 14)
  /-- R123: Writes Ga to a special register after the number, access and privilege checks. -/
  | mts (s : Bool) (a : Reg) (i : BitVec 14)
  /-- R124: Branches when Ga meets the condition against Gb. -/
  | bc (s : Bool) (h : Hint) (c : Cond) (b a : Reg) (o : BitVec 9)
  /-- R124: Branches when Ga meets the condition against zero. -/
  | bz (s : Bool) (h : Hint) (c : BzCond) (a : Reg) (o : BitVec 14)
  /-- R125: Branches unconditionally by a 24-bit halfword offset. -/
  | br (s : Bool) (o : BitVec 24)
  /-- R125: Performs the call procedure of R25, spilling if needed, then branches. -/
  | call (s : Bool) (o : BitVec 24)
  /-- R126: Branches to a general or mailbox register's value. -/
  | jr (s m : Bool) (a : Reg)
  /-- R126: Calls through a general or mailbox register. -/
  | callr (s m : Bool) (a : Reg)
  /-- R25: Returns through the return-address stack or refills from the link slot. -/
  | ret (s : Bool)
  /-- R130: Ends the activation. -/
  | done (s : Bool)
  /-- R133: Reads a doubleword with acquire and parks until it differs from Gb. -/
  | waita (s : Bool) (d a b : Reg)
  /-- R131: Ends the activation and reports a failure with the argument Ga. -/
  | halt (s : Bool) (a : Reg)
  /-- R132: Parks the context for Ga[31:0] core cycles or until an arrival. -/
  | idle (s : Bool) (a : Reg)
  /-- R130: Does nothing. -/
  | nop (s : Bool)
  /-- R134: Reserves a mailbox value for Gd, served in reservation order. -/
  | mtake (s : Bool) (d a : Reg)
  /-- R134: Writes the first mailbox value present without taking it. -/
  | mpeek (s : Bool) (d a : Reg)
  /-- R135: Parks until the mailbox's presence bit is set. -/
  | waitm (s : Bool) (a : Reg)
  /-- R127: Decrements Ga and branches while it is non-zero. -/
  | loop (s : Bool) (h : Hint) (a : Reg) (o : BitVec 14)
  /-- R141: Opens a bit-buffer ring. -/
  | bsinit (s : Bool) (a b : Reg)
  /-- R142: Reads and consumes an n-bit field from the stream. -/
  | bsget (s : Bool) (d a : Reg)
  /-- R142: Reads an n-bit field without advancing. -/
  | bspeek (s : Bool) (d a : Reg)
  /-- R142: Advances the stream by n bits. -/
  | bsskip (s : Bool) (a : Reg)
  /-- R143: Reads one exponential-Golomb code of order k. -/
  | bseg (s : Bool) (d a : Reg)
  /-- R144: Appends n bits to the stream, storing completed bytes. -/
  | bsput (s : Bool) (a b : Reg)
  /-- R144: Stores the partial byte in write mode or empties the buffer in read mode. -/
  | bsflush (s : Bool)
  /-- R145: Writes BBPOS to Gd. -/
  | bspos (s : Bool) (d : Reg)
  /-- R92: Compact form of NOP. -/
  | nopCompact (s : Bool)
  /-- R92: Compact form of DONE. -/
  | doneCompact (s : Bool)
  /-- R92: Compact form of RET. -/
  | retCompact (s : Bool)
  /-- R92: Compact ADD Gd, Gd, Ga. -/
  | addCompact (s : Bool) (d a : Reg)
  /-- R92: Compact SUB Gd, Gd, Ga. -/
  | subCompact (s : Bool) (d a : Reg)
  /-- R92: Compact AND Gd, Gd, Ga. -/
  | andCompact (s : Bool) (d a : Reg)
  /-- R92: Compact register move OR Gd, Ga, G0. -/
  | orCompact (s : Bool) (d a : Reg)
  /-- R92: Compact XOR Gd, Gd, Ga. -/
  | xorCompact (s : Bool) (d a : Reg)
  /-- R92: Compact ADDI with a 5-bit signed immediate. -/
  | addiCompact (s : Bool) (d : Reg) (i : BitVec 5)
  /-- R92: Compact LI with a 5-bit signed immediate. -/
  | liCompact (s : Bool) (d : Reg) (i : BitVec 5)
  /-- R92: Compact SHLI with a 5-bit count. -/
  | shliCompact (s : Bool) (d : Reg) (n : BitVec 5)
  /-- R92: Compact SHRI with a 5-bit count. -/
  | shriCompact (s : Bool) (d : Reg) (n : BitVec 5)
  /-- R92: Compact stack-class doubleword load from G31 + 8×uimm5. -/
  | ldStackCompact (s : Bool) (d : Reg) (i : BitVec 5)
  /-- R92: Compact stack-class doubleword store to G31 + 8×uimm5. -/
  | stStackCompact (s : Bool) (d : Reg) (i : BitVec 5)
  /-- R92: Compact doubleword load from [Ga]. -/
  | ldCompact (s : Bool) (d a : Reg)
  /-- R92: Compact doubleword store to [Ga]. -/
  | stCompact (s : Bool) (d a : Reg)
  /-- R92: Compact MUL Gd, Gd, Ga. -/
  | mulCompact (s : Bool) (d a : Reg)
  /-- R92: Compact JR through a general register. -/
  | jrCompact (s : Bool) (a : Reg)
  /-- R157: Pushes a handler frame and resets its record header. -/
  | handle (s : Bool) (a b c : Reg)
  /-- R158: Pops the top handler frame and kills its tokens. -/
  | unhandle (s : Bool) (a : Reg)
  /-- R159: Raises an effect, searching the chain and capturing the continuation. -/
  | perform (s : Bool) (e : BitVec 12) (a : Reg)
  /-- R160: Raises an effect for the lanes of a predicate mask. -/
  | performv (s : Bool) (e : BitVec 12) (a : Reg) (p : PReg)
  /-- R161: Continues a continuation once and spends its token. -/
  | resume (s : Bool) (a b : Reg) (c : PReg)
  /-- R161: Continues a fresh copy of a MULTI continuation. -/
  | resumem (s : Bool) (a b : Reg) (c : PReg)
  /-- R162: Abandons a continuation and returns its frame's SSP. -/
  | discard (s : Bool) (d a : Reg)
  /-- R163: Reports the status of a token without raising an effect. -/
  | tkstat (s : Bool) (d a : Reg)
  /-- R164: Sets the core's system handler address. -/
  | shandle (s : Bool) (a : Reg)
  /-- R229: Sends a message with inline or landed payload to a logical id. -/
  | send (s : Bool) (a b c : Reg)
  /-- R234: Writes a value into a mailbox of a target core. -/
  | sendr (s : Bool) (a b : Reg)
  /-- R233: Sends a message to every subscriber of a tag on the die. -/
  | mcast (s : Bool) (a b c : Reg)
  /-- R232: Edits the NI match table and updates router bitmaps. -/
  | subtag (s : Bool) (a b : Reg)
  /-- R203: Opens a masked window for the context. -/
  | hmask (s : Bool)
  /-- R236: Closes the context's masked window. -/
  | hunmask (s : Bool)
  /-- R237: Writes a handler-table slot and advances its generation. -/
  | hcfg (s : Bool) (d a b c : Reg)
  /-- R238: Places a task record in the Paddock, pending area or deque. -/
  | spawn (s : Bool) (d a : Reg)
  /-- R241: Pushes a second arm to a deque and increments its join counter. -/
  | fork (s : Bool) (d a b c : Reg)
  /-- R242: Parks until a join counter reads zero. -/
  | joinw (s : Bool) (a : Reg)
  /-- R240: Sets a join counter by a swap at its home. -/
  | cntinit (s : Bool) (a b : Reg)
  /-- R239: Sends one decrement to a pending task record. -/
  | cntdec (s : Bool) (a : Reg)
  /-- R243: Submits a launch record to the die's launch queue. -/
  | launch (s : Bool) (d a : Reg)
  /-- R245: Adds a member to a barrier and returns its phase. -/
  | gjoin (s : Bool) (d a : Reg)
  /-- R245: Removes a member from a barrier. -/
  | gleave (s : Bool) (a : Reg)
  /-- R246: Initialises a barrier slot. -/
  | bari (s : Bool) (a b : Reg)
  /-- R247: Adds one arrival to a barrier. -/
  | bara (s : Bool) (a : Reg)
  /-- R248: Waits for the phase of a given parity to end. -/
  | barw (s : Bool) (a b : Reg)
  /-- R248: Arrives and waits for the phase of a given parity to end. -/
  | baraw (s : Bool) (a b : Reg)
  /-- R308: Atomically adds Gb to a doubleword at its home. -/
  | amoAdd (s : Bool) (k : Scope) (r : Order) (d a b : Reg)
  /-- R308: Atomic bitwise and. -/
  | amoAnd (s : Bool) (k : Scope) (r : Order) (d a b : Reg)
  /-- R308: Atomic bitwise or. -/
  | amoOr (s : Bool) (k : Scope) (r : Order) (d a b : Reg)
  /-- R308: Atomic exclusive or. -/
  | amoXor (s : Bool) (k : Scope) (r : Order) (d a b : Reg)
  /-- R308: Atomic signed minimum. -/
  | amoMin (s : Bool) (k : Scope) (r : Order) (d a b : Reg)
  /-- R308: Atomic signed maximum. -/
  | amoMax (s : Bool) (k : Scope) (r : Order) (d a b : Reg)
  /-- R308: Atomic unsigned minimum. -/
  | amoMinu (s : Bool) (k : Scope) (r : Order) (d a b : Reg)
  /-- R308: Atomic unsigned maximum. -/
  | amoMaxu (s : Bool) (k : Scope) (r : Order) (d a b : Reg)
  /-- R308: Atomic swap. -/
  | amoSwap (s : Bool) (k : Scope) (r : Order) (d a b : Reg)
  /-- R308: Atomic FP32 add on a word, rounded under VT.RM. -/
  | amoFadd32 (s : Bool) (k : Scope) (r : Order) (d a b : Reg)
  /-- R308: Atomic FP64 add on a doubleword, rounded under VT.RM. -/
  | amoFadd64 (s : Bool) (k : Scope) (r : Order) (d a b : Reg)
  /-- R310: Compares a doubleword with Gd and swaps in Gb on equality. -/
  | cas (s : Bool) (k : Scope) (r : Order) (d a b : Reg)
  /-- R312: Loads with acquire or sequentially consistent order. -/
  | lda (s : Bool) (k : Scope) (r : Order) (z : Size) (d a : Reg)
  /-- R312: Stores with release or sequentially consistent order. -/
  | stl (s : Bool) (k : Scope) (r : Order) (z : Size) (d a : Reg)
  /-- R300: Orders the context's accesses toward the agents of its scope. -/
  | fence (s : Bool) (k : Scope) (r : Order)
  /-- R316: Loads a tile record from a 32-byte image. -/
  | tdef (s : Bool) (d a : Reg)
  /-- R317: Makes a tile READY. -/
  | tset (s : Bool) (d : Reg)
  /-- R318: Waits while a tile is FILLING or DRAINING and returns its state. -/
  | twait (s : Bool) (d a : Reg)
  /-- R319: Makes a tile EMPTY. -/
  | trel (s : Bool) (d : Reg)
  /-- R323: Opens a snapshot at stable and places the transaction log. -/
  | snap (s : Bool) (d a : Reg)
  /-- R325: Reads a versioned location under the snapshot, log first. -/
  | ldv (s : Bool) (z : Size) (x : Bool) (d a : Reg)
  /-- R325: Waits until a line's current version reaches a timestamp and stable covers it. -/
  | ldvw (s : Bool) (d a b : Reg)
  /-- R325: Writes bytes into the transaction log. -/
  | stv (s : Bool) (z : Size) (d a : Reg)
  /-- R327: Commits the log's transaction or performs CONFLICT. -/
  | commit (s : Bool) (d : Reg)
  /-- R328: Empties the log and keeps the snapshot. -/
  | abort (s : Bool)
  /-- R328: Empties the log and releases the snapshot. -/
  | vretire (s : Bool)
  /-- R406: With Gb = 0, saves the issuing low context to a context image and frees it. -/
  | ctxsave (s : Bool) (d a b : Reg)
  /-- R407: With Gb = 1, saves the core's shared state to a core image and resets it. -/
  | ctxsaveCore (s : Bool) (d a b : Reg)
  /-- R408: With Gb = 0, loads a context image into context CTXN. -/
  | ctxload (s : Bool) (d a b : Reg)
  /-- R408: With Gb = 1, loads a core image into the issuing core. -/
  | ctxloadCore (s : Bool) (d a b : Reg)
  /-- R414: Invalidates translations of a page, an ASID or all, on the die or package. -/
  | tlbi (s : Bool) (a b : Reg)
  /-- R413: Changes or parks one entry of a launch's logical-id map on every die. -/
  | maplid (s : Bool) (d a b : Reg)
  /-- R415: Reads a supervisor or core register of any core over VN3. -/
  | sysrd (s : Bool) (d a : Reg)
  /-- R415: Writes a supervisor register of any core over VN3. -/
  | syswr (s : Bool) (a b : Reg)
  /-- R416: Prefetches a line, a translation or an instruction line. -/
  | prefetch (s : Bool) (a b : Reg)
  /-- R176: Element-wise integer add. -/
  | vadd (s t : Bool) (p : PReg) (d a b : Reg)
  /-- R176: Element-wise integer subtract. -/
  | vsub (s t : Bool) (p : PReg) (d a b : Reg)
  /-- R176: Element-wise integer multiply, low bits or saturated. -/
  | vmul (s t : Bool) (p : PReg) (d a b : Reg)
  /-- R176: Element-wise high half of the integer product. -/
  | vmulh (s : Bool) (p : PReg) (d a b : Reg)
  /-- R176: Element-wise integer minimum. -/
  | vmin (s : Bool) (p : PReg) (d a b : Reg)
  /-- R176: Element-wise integer maximum. -/
  | vmax (s : Bool) (p : PReg) (d a b : Reg)
  /-- R176: Element-wise bitwise and. -/
  | vand (s : Bool) (p : PReg) (d a b : Reg)
  /-- R176: Element-wise bitwise or. -/
  | vor (s : Bool) (p : PReg) (d a b : Reg)
  /-- R176: Element-wise exclusive or. -/
  | vxor (s : Bool) (p : PReg) (d a b : Reg)
  /-- R176: Element-wise shift left. -/
  | vshl (s : Bool) (p : PReg) (d a b : Reg)
  /-- R176: Element-wise logical shift right. -/
  | vshr (s : Bool) (p : PReg) (d a b : Reg)
  /-- R176: Element-wise arithmetic shift right. -/
  | vsar (s : Bool) (p : PReg) (d a b : Reg)
  /-- R176: Element-wise absolute value. -/
  | vabs (s t : Bool) (p : PReg) (d a : Reg)
  /-- R177: Integer compare writing a predicate. -/
  | vcmp (s : Bool) (m : BitVec 3) (d p : PReg) (a b : Reg)
  /-- R178: Element-wise floating-point add. -/
  | vfadd (s t : Bool) (p : PReg) (d a b : Reg)
  /-- R178: Element-wise floating-point subtract. -/
  | vfsub (s t : Bool) (p : PReg) (d a b : Reg)
  /-- R178: Element-wise floating-point multiply. -/
  | vfmul (s t : Bool) (p : PReg) (d a b : Reg)
  /-- R178: Fused a × b + d. -/
  | vfma (s t : Bool) (p : PReg) (d a b : Reg)
  /-- R178: Fused a × b − d. -/
  | vfms (s t : Bool) (p : PReg) (d a b : Reg)
  /-- R178: Fused −(a × b) + d. -/
  | vfnma (s t : Bool) (p : PReg) (d a b : Reg)
  /-- R178: Element-wise correctly rounded divide. -/
  | vfdiv (s t : Bool) (p : PReg) (d a b : Reg)
  /-- R178: Element-wise square root. -/
  | vfsqrt (s t : Bool) (p : PReg) (d a : Reg)
  /-- R178: Element-wise floating-point minimum. -/
  | vfmin (s : Bool) (p : PReg) (d a b : Reg)
  /-- R178: Element-wise floating-point maximum. -/
  | vfmax (s : Bool) (p : PReg) (d a b : Reg)
  /-- R177: Floating-point compare writing a predicate. -/
  | vfcmp (s : Bool) (m : BitVec 3) (d p : PReg) (a b : Reg)
  /-- R179: Classifies each element into a one-hot class. -/
  | vfclass (s : Bool) (p : PReg) (d a : Reg)
  /-- R178: Element-wise reciprocal. -/
  | vfrcp (s t : Bool) (p : PReg) (d a : Reg)
  /-- R178: Element-wise reciprocal square root. -/
  | vfrsq (s t : Bool) (p : PReg) (d a : Reg)
  /-- R181: Converts part p of elements from EF to CF. -/
  | vcvt (s t : Bool) (p : PReg) (d a : Reg) (n : BitVec 5)
  /-- R182: Multiplies each element by 2^k exactly and rounds. -/
  | vscale (s t : Bool) (p : PReg) (d a b : Reg)
  /-- R183: Narrows two integer vectors into one. -/
  | vpack (s t : Bool) (p : PReg) (d a b : Reg)
  /-- R183: Widens half of an integer vector. -/
  | vunpack (s : Bool) (p : PReg) (d a : Reg) (n : BitVec 5)
  /-- R184: Checks and writes VT and returns the lane count. -/
  | vcfg (s : Bool) (d a : Reg)
  /-- R185: Copies active elements of Va to Vd. -/
  | vmov (s : Bool) (p : PReg) (d a : Reg)
  /-- R185: Copies a predicate to a general register. -/
  | vmovPredToGpr (s : Bool) (d : Reg) (a : PReg)
  /-- R185: Copies a general register to a predicate. -/
  | vmovGprToPred (s : Bool) (d : PReg) (a : Reg)
  /-- R185: Broadcasts a general register into active elements. -/
  | vbcast (s : Bool) (p : PReg) (d a : Reg)
  /-- R185: Extracts one element into a general register. -/
  | vext (s : Bool) (d a b : Reg)
  /-- R185: Inserts a general register into one element. -/
  | vins (s : Bool) (d a b : Reg)
  /-- R185: Shuffles elements of Va by indices in Vb. -/
  | vshuf (s : Bool) (p : PReg) (d a b : Reg)
  /-- R185: Permutes two vectors by indices in the old Vd. -/
  | vperm (s : Bool) (p : PReg) (d a b : Reg)
  /-- R185: Slides elements by a signed amount. -/
  | vslide (s : Bool) (p : PReg) (d a b : Reg)
  /-- R185: Selects each element from Va or Vb by a predicate. -/
  | vsel (s : Bool) (p : PReg) (d a b : Reg)
  /-- R185: Packs selected elements to the low end. -/
  | vcompress (s : Bool) (p : PReg) (d a : Reg)
  /-- R185: Spreads low elements to selected positions. -/
  | vexpand (s : Bool) (p : PReg) (d a : Reg)
  /-- R186: Tree-reduces selected elements by addition. -/
  | vredadd (s t : Bool) (p : PReg) (d a : Reg)
  /-- R186: Tree-reduces selected elements by maximum. -/
  | vredmax (s : Bool) (p : PReg) (d a : Reg)
  /-- R186: Tree-reduces selected elements by minimum. -/
  | vredmin (s : Bool) (p : PReg) (d a : Reg)
  /-- R187: Adds exact group dot products into 32-bit elements. -/
  | vdot (s t : Bool) (p : PReg) (d a b : Reg)
  /-- R188: Predicate and. -/
  | pand (s : Bool) (d a b : PReg)
  /-- R188: Predicate or. -/
  | por (s : Bool) (d a b : PReg)
  /-- R188: Predicate exclusive or. -/
  | pxor (s : Bool) (d a b : PReg)
  /-- R188: Predicate not. -/
  | pnot (s : Bool) (d a : PReg)
  /-- R188: Counts set predicate bits. -/
  | pcnt (s : Bool) (d a : PReg)
  /-- R188: Keeps the lowest set predicate bit. -/
  | pfirst (s : Bool) (d a : PReg)
  /-- R188: Sets a prefix of k predicate bits. -/
  | pset (s : Bool) (d a : PReg)
  /-- R189: Loads a contiguous vector from Ga + Gb. -/
  | vld (s : Bool) (p : PReg) (d a b : Reg)
  /-- R189: Stores a contiguous vector to Ga + Gb. -/
  | vst (s : Bool) (p : PReg) (d a b : Reg)
  /-- R189: Loads a strided vector. -/
  | vlds (s : Bool) (p : PReg) (d a b : Reg)
  /-- R189: Stores a strided vector. -/
  | vsts (s : Bool) (p : PReg) (d a b : Reg)
  /-- R190: Gathers elements by an index vector with the GLIM limit. -/
  | vgather (s t : Bool) (p : PReg) (d a b : Reg)
  /-- R193: Scatters elements by an index vector. -/
  | vscatter (s t : Bool) (p : PReg) (d a b : Reg)
  /-- R194: Adds elements into memory at their homes by an index vector. -/
  | vscatadd (s t : Bool) (p : PReg) (d a b : Reg)
  /-- R342: Issues a copy on a channel and pushes it to Q2. -/
  | cpy (s : Bool) (d a b c : Reg)
  /-- R348: Issues a copy to up to twelve cluster cores or a subscription. -/
  | cpym (s : Bool) (d a b c : Reg)
  /-- R342: Issues a copy bound to a barrier and sends its credit. -/
  | cpyb (s : Bool) (d a b c : Reg)
  /-- R350: Waits until a channel's watermark passes an address or the copy ends. -/
  | wmwait (s : Bool) (d a b : Reg)
  /-- R351: Copies scratchpad bytes into the sparsity side memory. -/
  | spld (s : Bool) (a b c : Reg)
  /-- R352: Adds vector lanes into a row through its bank adder. -/
  | bankop (s : Bool) (a b c : Reg)
  /-- R363: Pushes a matrix multiply-accumulate command to Q0. -/
  | mma (s t z n : Bool) (d a b c : Reg)
  /-- R370: Pushes a matrix command that also forwards its blocks to WEST and NORTH. -/
  | mmar (s t z n : Bool) (d a b c : Reg)
  /-- R368: Pushes a matrix command with 2:4 compressed A. -/
  | mmasp (s t z n : Bool) (d a b c : Reg)
  /-- R371: Pushes a command converting an accumulator tile into another tile. -/
  | accrd (s : Bool) (d a b : Reg)
  /-- R372: Pushes a command zeroing an accumulator tile. -/
  | accz (s : Bool) (d : Reg)
  /-- R373: Pushes a command scaling an accumulator tile by a factor. -/
  | mscl (s : Bool) (d a b : Reg)
  /-- R379: Pushes a command ordering a tile's channels into a permutation. -/
  | rsort (s : Bool) (d a : Reg)
  /-- R380: Pushes a command sending a permutation prefix as a rank stream. -/
  | remit (s : Bool) (d a b c : Reg)
  /-- R384: Loads a sequence table into a sequence slot. -/
  | rkseq (s : Bool) (a b : Reg)
  /-- R386: Arms a receive stream with a weight tile and control word. -/
  | rkarm (s : Bool) (d a b c : Reg)
  /-- R390: Sets a receive stream IDLE. -/
  | rkdisarm (s : Bool) (d : Reg)
  /-- R390: Forces a result and re-arms a receive stream. -/
  | rkres (s : Bool) (d a : Reg)
  /-- R390: Writes a stream's sums into a tile. -/
  | rkacc (s : Bool) (d a : Reg)
  /-- R393: Pushes a command turning a permutation into dense weights. -/
  | rkdense (s : Bool) (d a c : Reg)
  /-- R393: Pushes a command computing the rank surrogate gradients. -/
  | rkgrad (s : Bool) (d a b c : Reg)
  /-- R336: A load of Qq in the local engine block pops the oldest element. -/
  | queuePop (core i : Nat)
  /-- R336: A store to Q12–Q15 in the local engine block pushes an element. -/
  | queuePush (core cx : Nat) (q : BitVec 4) (v : Word)
  /-- R404: A write to PREQ sets PREEMPT request bits and the reason code. -/
  | preqWrite (core : Nat) (v : Word)
  /-- R423: A write to MIGR by the migrating context requests the move to the reserved target. -/
  | migrWrite (core cx : Nat) (v : Word)
  /-- R441: A host write of LQTAIL releases new launch records to the queue. -/
  | lqtailWrite (n : BitVec 5) (v : Word)
  /-- R442: A write of LQCTL enables or configures a launch queue, subject to its ignore rules. -/
  | lqctlWrite (n : BitVec 5) (v : Word)
  /-- R439: A one written to TRST.RSY requests a Trace resynchronisation. -/
  | trstRsyWrite (port : BitVec 4) (v : Word)
  /-- R6: A write to a register with no behaviour of its own, honouring RO, W1C and reserved fields. -/
  | registerWrite (off size : Nat) (v : Word)
  /-- R454: Mailbox command 0x01 returns every sensor reading. -/
  | readSensors (len : Nat)
  /-- R454: Mailbox command 0x02 returns log entries. -/
  | readLog (len : Nat) (seq : Word)
  /-- R426: Mailbox command 0x03 delivers a cap message. -/
  | cap (len seq watts : Nat)
  /-- R451: Mailbox command 0x04 stages firmware data into the inactive bank. -/
  | stageFirmwareChunk (len off : Nat) (data : List Byte)
  /-- R451: Mailbox command 0x05 verifies the staged image and marks its bank active. -/
  | verifyAndActivate (len : Nat)
  /-- R452: Mailbox command 0x06 returns a signed attestation report. -/
  | attestationReport (len : Nat) (nonce : List Byte)
  /-- R454: A mailbox command with an unknown OP completes with result 1. -/
  | mailboxUnknownOp (op len : Nat)
  /-- R454: The Farrier writes the reply, sets DONE and sends MSI-X vector 254. -/
  | mailboxCompletion
  /-- R453: An I3C PLDM monitoring request reads sensors or the log. -/
  | pldmMonitoring (log : Bool) (seq : Word)
  /-- R453: An I3C PLDM firmware update request stages or activates an image. -/
  | pldmFirmwareUpdate (off : Nat) (data : List Byte)
  /-- R452: An SPDM request over MCTP returns an attestation report. -/
  | spdmAttestation (nonce : List Byte)
  /-- R426: An OEM PLDM cap message sets the cap if newer, else counts as heartbeat. -/
  | oemCapMessage (seq watts : Nat)
  /-- R426: Within 1 ms of a cap change the Farrier writes BUD to every cluster. -/
  | budgetUpdate
  /-- R426: After 500 ms without a message the cap falls to the fallback. -/
  | capFallback
  /-- R418: Every 10 µs a cluster computes its power estimate and opens or closes. -/
  | clusterEstimate (die cluster : Nat)
  /-- R421: A MIGRATE undelivered for 2 ms is withdrawn and PREEMPT requested. -/
  | migrateWithdrawal (core cx : Nat)
  /-- R250: A pending MIGRATE is performed before a group boundary instruction. -/
  | migrate (core cx : Nat)
  /-- R423: After drains complete, the context and its areas move to the target core. -/
  | migrationMove (core cx : Nat)
  /-- R447: Every 10 µs the Farrier samples cluster sensors and trips at 110 °C. -/
  | clusterSensorSample (die cluster reading : Nat)
  /-- R447: Every 1 ms the Farrier samples stack sensors and trips at 105 °C. -/
  | stackSensorSample (die stack reading : Nat)
  /-- R447: Every 1 ms the Farrier samples coolant, voltage and current. -/
  | moduleSensorSample (sensor reading : Nat)
  /-- R447: Input outside 46–56 V for 1 ms trips the package. -/
  | inputVoltageTrip (reading : Nat)
  /-- R448: The Farrier takes a failing stack, cluster or port out of service. -/
  | outOfService (kind unit : Nat)
  /-- R449: Every 1 s corrected-error counts are logged. -/
  | correctedCountLog
  /-- R412: A scrub finding is logged by the Farrier without raising an effect. -/
  | scrubFinding (addr : Nat)
  /-- R450: The boot ROM verifies a firmware bank and starts the Farrier. -/
  | powerGood
  /-- R445: Reset returns the package to its reset state and clears READY bits. -/
  | reset
  /-- R445: A function that passes self-test sets its READY bit. -/
  | selfTestPass (unit : Nat)
  /-- R431: After the 500 ms wait the Farrier chooses the lead die. -/
  | leadDieChoice
  /-- R438: A Trace port sends a flit under the model that fits the most beats. -/
  | traceFlitSend (port : BitVec 4) (resend : Bool)
  /-- R437: A Trace port receives a flit, checks CRC and sequence, and decodes it. -/
  | traceFlitReceive (port : BitVec 4) (crcOk : Bool) (seq vn kind model hash : Nat) (stream : List Byte)
  /-- R438: Every 16 accepted data flits both ends rebuild their prefix codes. -/
  | codeTableRebuild (port : BitVec 4)
  /-- R439: A resynchronisation flit resets both ends' code tables. -/
  | resynchronisation (port : BitVec 4)
  /-- R439: A Trace link retrains and then resynchronises. -/
  | portRetrain (port : BitVec 4)
  /-- R436: A port that fails to retrain for 10 ms goes down and fails its accesses. -/
  | portDown (port : BitVec 4)
  /-- R433: A host access over PCIe acts at its physical address as a plain access. -/
  | hostAccess (write : Bool) (bar addr size : Nat) (v : Word)
  /-- R433: A peer access over a Trace port acts at its physical address. -/
  | peerAccess (port : BitVec 4) (write : Bool) (addr size : Nat) (v : Word)
  /-- R436: A negative peer response lands for a read, RMW or store. -/
  | peerNegativeResponse (i : Nat)
  /-- R436: PERM is performed at the next boundary for a refused peer store. -/
  | peerStorePerm (core cx : Nat)
  /-- R443: The launch unit takes one record from an enabled queue in round robin. -/
  | launchQueueService
  /-- R210: The launch unit checks a record and rejects it or starts it. -/
  | launchCheck (i : Nat)
  /-- R212: A started core writes its image, invalidates its cache and starts the start activation. -/
  | launchCoreStart (launch core : Nat)
  /-- R211: When nothing of a launch remains, its slots are invalidated and its completion record written. -/
  | launchEnd (launch : Nat)
  /-- R198: A message reaching the target NI is accepted, landed or dropped by generation. -/
  | messageArrival (i : Nat)
  /-- R199: An accepted message's words are pushed to its bound queue when unmasked and with room. -/
  | boundQueuePush (core i : Nat)
  /-- R200: The selection logic chooses a pending message and starts an activation. -/
  | messageSelection (core : Nat)
  /-- R201: A priority-1 message is taken into SH at the next boundary. -/
  | priority1Entry (core : Nat)
  /-- R231: A negative response for a dropped message lands at the sender. -/
  | deadmsgResponse (i : Nat)
  /-- R231: The sender performs DEADMSG at its next instruction boundary. -/
  | deadmsg (core cx : Nat)
  /-- R234: A SENDR write reaches the target NI and lands or waits in the mailbox store. -/
  | mailboxWriteArrival (i : Nat)
  /-- R234: A waiting mailbox write lands in the cycle after presence clears. -/
  | mailboxStoreLanding (core : Nat) (m : Reg)
  /-- R134: An unserved MTAKE reservation is served by an arrival in reservation order. -/
  | mtakeService (core i : Nat)
  /-- R232: A join or leave packet updates router bitmaps and is acknowledged. -/
  | subscriptionUpdate (i : Nat)
  /-- R11: A long-latency result lands in its register and sets its presence bit. -/
  | registerResultArrival (i : Nat)
  /-- R13: A parked context becomes runnable when its condition clears. -/
  | contextWake (core cx : Nat)
  /-- R251: A write to a watched line makes every watching context runnable to re-read. -/
  | watchWake (line : Nat)
  /-- R205: After 64 cycles without issue a runnable context takes the core. -/
  | fairnessBoundary (core cx : Nat)
  /-- R132: An IDLE park ends when its cycle count expires. -/
  | idleExpiry (core cx : Nat)
  /-- R203: A masked window closes 256 cycles after it opened. -/
  | hmaskTimeout (core cx : Nat)
  /-- R204: A free low context is filled from the first source with work. -/
  | contextFill (core : Nat)
  /-- R225: When all four low contexts wait with deque work, the longest waiter is spilled. -/
  | contextSpill (core : Nat)
  /-- R225: A spilled context whose wait cleared is restored into a free context. -/
  | spillRestore (core slot : Nat)
  /-- R219: After its accesses complete, an ended task decrements its join counter. -/
  | taskJoinDecrement (i : Nat)
  /-- R239: A CNTDEC reaches the home core and decrements or is counted dead. -/
  | decrementArrival (i : Nat)
  /-- R215: A released pending record moves to the deque when it has room. -/
  | pendingRecordRelease (core slot : Nat)
  /-- R218: The Paddock dispatches a task or steals for a free context. -/
  | paddockDispatch (die : Nat)
  /-- R217: A record waiting over 1 ms moves to the next higher queue. -/
  | paddockAging (die : Nat) (q : BitVec 2)
  /-- R218: A task 10 µs at the head may go to any class. -/
  | classWaitExpiry (die : Nat) (q : BitVec 2)
  /-- R220: Held join landings are applied once earlier siblings end. -/
  | deterministicHoldRelease (i : Nat)
  /-- R222: The home NI applies a barrier update or copy credit and may complete the phase. -/
  | barrierUpdate (i : Nat)
  /-- R458: The copy engine accepts a command from Q2 and sends its request. -/
  | copyEngineAccept (core cx : Nat)
  /-- R340: A streamer reads a segment's source bytes and sends them with CRC. -/
  | copySegmentRead (i item seg : Nat)
  /-- R339: A destination checks a segment's CRC and writes it whole or fails it. -/
  | copySegmentDelivery (i item seg : Nat) (crcOk : Bool)
  /-- R344: When an item ends its entry is pushed to Q3 and the channel closes. -/
  | copyItemCompletion (i item : Nat)
  /-- R346: A failed copy item with FX performs COPYFAIL at the next boundary. -/
  | copyfail (core cx : Nat)
  /-- R346: A faulted copy item with FX performs COPYFAULT at the next boundary. -/
  | copyfault (core cx : Nat)
  /-- R348: A CPYM header reaches a receiver, reads its landing base and credits its barrier. -/
  | cpymHeaderArrival (i : Nat)
  /-- R263: Deliveries held on a DRAINING tile proceed once DCNT reaches 0. -/
  | drainHoldRelease (core : Nat) (t : Reg)
  /-- R254: A remote load, store or RMW is performed at its home. -/
  | remoteAccess (i : Nat)
  /-- R273: A walker reads the four table levels and fills the TLBs or reports a fault. -/
  | pageWalk (core cx : Nat) (va : Word)
  /-- R279: The lead die sequences a replicated write and applies it. -/
  | replicatedWrite (i : Nat)
  /-- R279: A replica applies sequenced writes in order. -/
  | replicaApply (die : Nat)
  /-- R323: The lead die answers a SNAP with the value of stable. -/
  | snapshotRequest (i : Nat)
  /-- R283: A home die locks and checks a prepared line. -/
  | commitPrepare (i : Nat)
  /-- R283: The lead die gives a fully locked commit the value of next. -/
  | commitTimestamp (i : Nat)
  /-- R283: A home installs the new version and releases the lock, advancing stable. -/
  | commitInstall (i line : Nat)
  /-- R281: The sequencer revokes snapshots and renumbers when next would overflow. -/
  | timestampRenumbering
  /-- R285: The Groom reclaims an old version that no snapshot can select. -/
  | groomReclaim (line ts : Nat)
  /-- R286: After a held install of 100 µs the oldest live snapshot is revoked. -/
  | snapshotRevocation
  /-- R364: The matrix unit executes the next pushed command. -/
  | matrixUnitExecute (core : Nat)
  /-- R366: A matrix status entry is pushed to Q1 when room exists. -/
  | matrixStatusPush (core : Nat)
  /-- R369: An MMAR forward lands in a rotation slot and sets it FULL. -/
  | rotationForwardLanding (i : Nat)
  /-- R370: A held forward leaves when its target slot empties. -/
  | forwardHoldRelease (core i : Nat)
  /-- R394: The rank unit executes the next pushed command and pushes to Q9. -/
  | rankUnitExecute (core : Nat)
  /-- R387: A rank stream flit reaches a receive stream and is queued, buffered or dropped. -/
  | rankFlitArrival (i : Nat)
  /-- R387: A stream processes an entry or round into its sums and decides on a result. -/
  | rankEntryProcessing (core : Nat) (k : BitVec 2)
  /-- R389: A stream pushes its two-word result when its queue has room. -/
  | rankResultPush (core : Nat) (k : BitVec 2)
  /-- R81: An enabled flag from a completed asynchronous operation performs NUMERIC at a boundary. -/
  | numericDeferred (core cx : Nat)
  /-- R367: An engine's uncorrectable error performs MEMERR at the next boundary. -/
  | memerrDeferred (core cx : Nat)
  /-- R202: An SH activation past 10,000 cycles performs WATCHDOG. -/
  | watchdog (core : Nat)
  /-- R224: A pending PREEMPT lands at the next switch point. -/
  | preempt (core cx : Nat)
  /-- R224: A PREEMPT lands at a boundary 2,000 cycles after it was raised. -/
  | preemptForced (core cx : Nat)
  /-- R155: A held asynchronous system effect is delivered after the system BUSY bit clears. -/
  | heldSystemEffect (core cx : Nat)
  /-- R415: A SYSWR applies at the target context's next boundary. -/
  | syswrApply (i : Nat)
  /-- R107: A fetched halfword pattern that no instruction is assigned to, including reserved majors, unassigned function codes, non-zero reserved fields and the excluded compact patterns such as 0x0000, raises ILLEGAL with its own address as the continuation PC. -/
  | unassignedEncoding (w : BitVec 32)
  /-- R17: A fetch whose halfwords fail translation, permission or ECC, or that comes from the local window or core space, raises PAGE, PERM or MEMERR before any encoding is decoded. -/
  | fetchFault (e : BitVec 12) (arg addr : Word)
  /-- R413: The lead die sequences a logical-id map change, applies it on every die, and the waiting MAPLID then completes and writes the old entry. -/
  | mapChange (i : Nat)
  /-- R270: An error arises of itself in HBM data, a cache line, a scratchpad row or the version store, which ECC then either corrects or reports as uncorrectable. -/
  | softError (space addr : Nat) (correctable : Bool)
  /-- R451: The supply is lost, so that a log entry in flight is written whole or not at all and a firmware stage in progress leaves the active bank untouched. -/
  | powerLoss
deriving DecidableEq, Repr

end Sys2Proof
end

