-- ==== Sys2Proof/WellFormed.lean ====
section
/-! DEFINITION. Well-formed instructions: the combinations of fields that the encodings admit (04 R99, R101) and the ranges
of the data that steps without an encoding carry. -/

namespace Sys2Proof

/-- X = 1 with SZ = 3 is reserved (04 R99). -/
def sizeOk (z : Size) (x : Bool) : Bool := !(x && z == .d)

def coreOk (core : Nat) : Bool := core < 2048
def cxOk (cx : Nat) : Bool := cx < 5
def lowOk (cx : Nat) : Bool := cx < 4
def dieOk (die : Nat) : Bool := die < 8

/-- Whether the fields of an instruction are ones that its encoding, or its step, admits. -/
def Instr.wf : Instr → Bool
  | .ld _ z x _ _ _ => sizeOk z x
  | .ldx _ z x _ _ _ => sizeOk z x
  | .ldv _ z x _ _ => sizeOk z x
  | .lda _ _ r _ _ _ => r == .acq || r == .sc
  | .stl _ _ r _ _ _ => r == .rel || r == .sc
  | .fence _ _ r => r != .relaxed
  | .queuePop core _ => coreOk core
  | .queuePush core cx q _ => coreOk core && cxOk cx && 12 ≤ q.toNat
  | .preqWrite core _ => coreOk core
  | .migrWrite core cx _ => coreOk core && lowOk cx
  | .migrateWithdrawal core cx => coreOk core && lowOk cx
  | .migrate core cx => coreOk core && lowOk cx
  | .migrationMove core cx => coreOk core && lowOk cx
  | .clusterEstimate die cluster => dieOk die && cluster < 16
  | .clusterSensorSample die cluster _ => dieOk die && cluster < 16
  | .peerStorePerm core cx => coreOk core && cxOk cx
  | .launchCoreStart _ core => coreOk core
  | .boundQueuePush core _ => coreOk core
  | .messageSelection core => coreOk core
  | .priority1Entry core => coreOk core
  | .deadmsg core cx => coreOk core && cxOk cx
  | .mailboxStoreLanding core _ => coreOk core
  | .mtakeService core _ => coreOk core
  | .contextWake core cx => coreOk core && cxOk cx
  | .fairnessBoundary core cx => coreOk core && lowOk cx
  | .idleExpiry core cx => coreOk core && lowOk cx
  | .hmaskTimeout core cx => coreOk core && lowOk cx
  | .contextFill core => coreOk core
  | .contextSpill core => coreOk core
  | .spillRestore core _ => coreOk core
  | .pendingRecordRelease core slot => coreOk core && slot < 256
  | .paddockDispatch die => dieOk die
  | .paddockAging die _ => dieOk die
  | .classWaitExpiry die _ => dieOk die
  | .copyEngineAccept core cx => coreOk core && cxOk cx
  | .copyfail core cx => coreOk core && cxOk cx
  | .copyfault core cx => coreOk core && cxOk cx
  | .drainHoldRelease core _ => coreOk core
  | .pageWalk core cx _ => coreOk core && cxOk cx
  | .replicaApply die => dieOk die
  | .matrixUnitExecute core => coreOk core
  | .matrixStatusPush core => coreOk core
  | .forwardHoldRelease core _ => coreOk core
  | .rankUnitExecute core => coreOk core
  | .rankEntryProcessing core _ => coreOk core
  | .rankResultPush core _ => coreOk core
  | .numericDeferred core cx => coreOk core && cxOk cx
  | .memerrDeferred core cx => coreOk core && cxOk cx
  | .watchdog core => coreOk core
  | .preempt core cx => coreOk core && lowOk cx
  | .preemptForced core cx => coreOk core && lowOk cx
  | .heldSystemEffect core cx => coreOk core && cxOk cx
  | _ => true

end Sys2Proof
end

