-- ==== Sys2Proof/Decode.lean ====
section
/-! DEFINITION. From bytes to instructions (04 R89 to R107) and back. Every pattern that the spec assigns to no instruction
is refused: decoding answers none (04 R107). -/

namespace Sys2Proof

/- Lean's compiler gives no code to constructors of an inductive past the 245th, so what builds such an instruction is
marked noncomputable; Lean's kernel evaluates all of it. -/
noncomputable section

/-- The parts of a 32-bit instruction that every format shares (04 Table 4.3): S, the major, bits [12:8], bits [17:13] and
bits [31:18]. -/
structure Fields where
  s   : Bool
  maj : Nat
  d   : Nat
  a   : Nat
  hi  : Nat
deriving DecidableEq, Repr

def Fields.of (w : Nat) : Fields := ⟨bitOf w 0, bitsOf w 7 2, bitsOf w 12 8, bitsOf w 17 13, bitsOf w 31 18⟩

/-- The word of the parts, with W = 1 (04 R93). -/
def Fields.word (f : Fields) : Nat := b2n f.s + 2 + 4 * f.maj + 2 ^ 8 * f.d + 2 ^ 13 * f.a + 2 ^ 18 * f.hi

abbrev r5 (n : Nat) : Reg := BitVec.ofNat 5 n
abbrev r3 (n : Nat) : PReg := BitVec.ofNat 3 n

/-! Code fields (04 R97 to R101). -/

def condOf : Nat → Option Cond
  | 0 => some .eq
  | 1 => some .ne
  | 2 => some .lt
  | 3 => some .ge
  | 4 => some .ltu
  | 5 => some .geu
  | _ => none

def Cond.code : Cond → Nat
  | .eq => 0
  | .ne => 1
  | .lt => 2
  | .ge => 3
  | .ltu => 4
  | .geu => 5

def bzCondOf : Nat → Option BzCond
  | 0 => some .eq
  | 1 => some .ne
  | 2 => some .lt
  | 3 => some .ge
  | 4 => some .le
  | 5 => some .gt
  | _ => none

def BzCond.code : BzCond → Nat
  | .eq => 0
  | .ne => 1
  | .lt => 2
  | .ge => 3
  | .le => 4
  | .gt => 5

def hintOf : Nat → Option Hint
  | 0 => some .none
  | 1 => some .taken
  | 2 => some .notTaken
  | _ => none

def Hint.code : Hint → Nat
  | .none => 0
  | .taken => 1
  | .notTaken => 2

def scopeOf (n : Nat) : Scope := if n = 0 then .core else if n = 1 then .die else if n = 2 then .dev else .sys

def Scope.code : Scope → Nat
  | .core => 0
  | .die => 1
  | .dev => 2
  | .sys => 3

def orderOf : Nat → Option Order
  | 0 => some .relaxed
  | 1 => some .acq
  | 2 => some .rel
  | 3 => some .ar
  | 4 => some .sc
  | _ => none

def Order.code : Order → Nat
  | .relaxed => 0
  | .acq => 1
  | .rel => 2
  | .ar => 3
  | .sc => 4

def sizeOf (n : Nat) : Size := if n = 0 then .b else if n = 1 then .h else if n = 2 then .w else .d

def Size.code : Size → Nat
  | .b => 0
  | .h => 1
  | .w => 2
  | .d => 3

/-- The instruction i when b holds. -/
def okIf (b : Bool) (i : Instr) : Option Instr := if b then some i else none

/-- INTR (05 Table 5.1): three registers. -/
def decIntr (s : Bool) (d a b : Reg) : Nat → Option Instr
  | 0 => some (.add s d a b)
  | 1 => some (.sub s d a b)
  | 2 => some (.mul s d a b)
  | 3 => some (.mulh s d a b)
  | 4 => some (.mulhu s d a b)
  | 5 => some (.div s d a b)
  | 6 => some (.divu s d a b)
  | 7 => some (.rem s d a b)
  | 8 => some (.remu s d a b)
  | 9 => some (.and s d a b)
  | 10 => some (.or s d a b)
  | 11 => some (.xor s d a b)
  | 12 => some (.andn s d a b)
  | 13 => some (.orn s d a b)
  | 14 => some (.shl s d a b)
  | 15 => some (.shr s d a b)
  | 16 => some (.sar s d a b)
  | 17 => some (.rol s d a b)
  | 18 => some (.ror s d a b)
  | 19 => some (.min s d a b)
  | 20 => some (.max s d a b)
  | 21 => some (.minu s d a b)
  | 22 => some (.maxu s d a b)
  | 23 => some (.sel s d a b)
  | 24 => some (.cmpeq s d a b)
  | 25 => some (.cmpne s d a b)
  | 26 => some (.cmplt s d a b)
  | 27 => some (.cmpge s d a b)
  | 28 => some (.cmpltu s d a b)
  | 29 => some (.cmpgeu s d a b)
  | _ => none

/-- INTU (05 Table 5.2): two registers. -/
def decIntu (s : Bool) (d a : Reg) : Nat → Option Instr
  | 0 => some (.clz s d a)
  | 1 => some (.ctz s d a)
  | 2 => some (.popc s d a)
  | 3 => some (.bswap s d a)
  | 4 => some (.sextb s d a)
  | 5 => some (.sexth s d a)
  | 6 => some (.sextw s d a)
  | 7 => some (.zextb s d a)
  | 8 => some (.zexth s d a)
  | 9 => some (.zextw s d a)
  | _ => none

/-- SHIFTI (04 R95). -/
def decShift (s : Bool) (d a : Reg) (n : BitVec 6) : Nat → Option Instr
  | 0 => some (.shli s d a n)
  | 1 => some (.shri s d a n)
  | 2 => some (.sari s d a n)
  | 3 => some (.rori s d a n)
  | _ => none

/-- JR, CALLR, RET (04 R103). -/
def decJump (s : Bool) (d : Nat) (a : Reg) (b f : Nat) : Option Instr :=
  if f = 0 then okIf (d == 0 && b < 2) (.jr s (b == 1) a)
  else if f = 1 then okIf (d == 0 && b < 2) (.callr s (b == 1) a)
  else if f = 2 then okIf (d == 0 && a == 0 && b == 0) (.ret s)
  else none

/-- CTRL (05 Table 5.5). -/
def decCtrl (s : Bool) (d a b : Nat) : Nat → Option Instr
  | 0 => okIf (d == 0 && a == 0 && b == 0) (.done s)
  | 1 => some (.waita s (r5 d) (r5 a) (r5 b))
  | 2 => okIf (d == 0 && b == 0) (.halt s (r5 a))
  | 3 => okIf (d == 0 && b == 0) (.idle s (r5 a))
  | 4 => okIf (d == 0 && a == 0 && b == 0) (.nop s)
  | 5 => okIf (b == 0) (.mtake s (r5 d) (r5 a))
  | 6 => okIf (b == 0) (.mpeek s (r5 d) (r5 a))
  | 7 => okIf (d == 0 && b == 0) (.waitm s (r5 a))
  | _ => none

/-- Bit stream (05 R141 to R145). -/
def decBits (s : Bool) (d a b : Nat) : Nat → Option Instr
  | 0 => okIf (d == 0) (.bsinit s (r5 a) (r5 b))
  | 1 => okIf (b == 0) (.bsget s (r5 d) (r5 a))
  | 2 => okIf (b == 0) (.bspeek s (r5 d) (r5 a))
  | 3 => okIf (d == 0 && b == 0) (.bsskip s (r5 a))
  | 4 => okIf (b == 0) (.bseg s (r5 d) (r5 a))
  | 5 => okIf (d == 0) (.bsput s (r5 a) (r5 b))
  | 6 => okIf (d == 0 && a == 0 && b == 0) (.bsflush s)
  | 7 => okIf (a == 0 && b == 0) (.bspos s (r5 d))
  | _ => none

/-- EFF (06 Table 6.8): fields D, A, B, C; an unused field is zero. -/
def decEff (s : Bool) (d a b c : Nat) : Nat → Option Instr
  | 0 => okIf (d == 0) (.handle s (r5 a) (r5 b) (r5 c))
  | 1 => okIf (d == 0 && b == 0 && c == 0) (.unhandle s (r5 a))
  | 2 => okIf (d < 4) (.perform s (BitVec.ofNat 12 (b + 32 * c + 1024 * d)) (r5 a))
  | 3 => some (.performv s (BitVec.ofNat 12 (b + 32 * c + 1024 * (d % 4))) (r5 a) (r3 (d / 4)))
  | 4 => okIf (d == 0 && c < 8) (.resume s (r5 a) (r5 b) (r3 c))
  | 5 => okIf (d == 0 && c < 8) (.resumem s (r5 a) (r5 b) (r3 c))
  | 6 => okIf (b == 0 && c == 0) (.discard s (r5 d) (r5 a))
  | 7 => okIf (b == 0 && c == 0) (.tkstat s (r5 d) (r5 a))
  | 8 => okIf (d == 0 && b == 0 && c == 0) (.shandle s (r5 a))
  | _ => none

/-- MSG (09 Table 9.1): fields D, A, B, C; an unused field is zero. -/
def decMsg (s : Bool) (d a b c : Nat) : Nat → Option Instr
  | 0 => okIf (d == 0) (.send s (r5 a) (r5 b) (r5 c))
  | 1 => okIf (d == 0 && c == 0) (.sendr s (r5 a) (r5 b))
  | 2 => okIf (d == 0) (.mcast s (r5 a) (r5 b) (r5 c))
  | 3 => okIf (d == 0 && c == 0) (.subtag s (r5 a) (r5 b))
  | 4 => okIf (d == 0 && a == 0 && b == 0 && c == 0) (.hmask s)
  | 5 => okIf (d == 0 && a == 0 && b == 0 && c == 0) (.hunmask s)
  | 6 => some (.hcfg s (r5 d) (r5 a) (r5 b) (r5 c))
  | _ => none

/-- TASK (09 Table 9.1): fields D, A, B, C; an unused field is zero. -/
def decTask (s : Bool) (d a b c : Nat) : Nat → Option Instr
  | 0 => okIf (b == 0 && c == 0) (.spawn s (r5 d) (r5 a))
  | 1 => some (.fork s (r5 d) (r5 a) (r5 b) (r5 c))
  | 2 => okIf (d == 0 && b == 0 && c == 0) (.joinw s (r5 a))
  | 3 => okIf (d == 0 && c == 0) (.cntinit s (r5 a) (r5 b))
  | 4 => okIf (d == 0 && b == 0 && c == 0) (.cntdec s (r5 a))
  | 5 => okIf (b == 0 && c == 0) (.launch s (r5 d) (r5 a))
  | _ => none

/-- GRP (09 Table 9.1): fields D, A, B, C; an unused field is zero. -/
def decGrp (s : Bool) (d a b c : Nat) : Nat → Option Instr
  | 0 => okIf (b == 0 && c == 0) (.gjoin s (r5 d) (r5 a))
  | 1 => okIf (d == 0 && b == 0 && c == 0) (.gleave s (r5 a))
  | 2 => okIf (d == 0 && c == 0) (.bari s (r5 a) (r5 b))
  | 3 => okIf (d == 0 && b == 0 && c == 0) (.bara s (r5 a))
  | 4 => okIf (d == 0 && c == 0) (.barw s (r5 a) (r5 b))
  | 5 => okIf (d == 0 && c == 0) (.baraw s (r5 a) (r5 b))
  | _ => none

/-- TILE (12 Table 12.3): fields D, A, B, C; an unused field is zero. -/
def decTile (s : Bool) (d a b c : Nat) : Nat → Option Instr
  | 0 => okIf (b == 0 && c == 0) (.tdef s (r5 d) (r5 a))
  | 1 => okIf (a == 0 && b == 0 && c == 0) (.tset s (r5 d))
  | 2 => okIf (b == 0 && c == 0) (.twait s (r5 d) (r5 a))
  | 3 => okIf (a == 0 && b == 0 && c == 0) (.trel s (r5 d))
  | _ => none

/-- VER (12 Table 12.5): fields D, A, B, C; an unused field is zero. -/
def decVer (s : Bool) (d a b c : Nat) : Nat → Option Instr
  | 0 => okIf (b == 0 && c == 0) (.snap s (r5 d) (r5 a))
  | 1 => okIf (b == 0 && c < 8 && c != 7) (.ldv s (sizeOf (c % 4)) (c / 4 == 1) (r5 d) (r5 a))
  | 2 => okIf (c == 0) (.ldvw s (r5 d) (r5 a) (r5 b))
  | 3 => okIf (b == 0 && c < 4) (.stv s (sizeOf c) (r5 d) (r5 a))
  | 4 => okIf (a == 0 && b == 0 && c == 0) (.commit s (r5 d))
  | 5 => okIf (d == 0 && a == 0 && b == 0 && c == 0) (.abort s)
  | 6 => okIf (d == 0 && a == 0 && b == 0 && c == 0) (.vretire s)
  | _ => none

/-- SYS (21 Table 21.6): fields D, A, B, C; an unused field is zero. -/
def decSys (s : Bool) (d a b c : Nat) : Nat → Option Instr
  | 0 => okIf (c == 0) (.ctxsave s (r5 d) (r5 a) (r5 b))
  | 1 => okIf (c == 0) (.ctxload s (r5 d) (r5 a) (r5 b))
  | 2 => okIf (d == 0 && c == 0) (.tlbi s (r5 a) (r5 b))
  | 3 => okIf (c == 0) (.maplid s (r5 d) (r5 a) (r5 b))
  | 4 => okIf (b == 0 && c == 0) (.sysrd s (r5 d) (r5 a))
  | 5 => okIf (d == 0 && c == 0) (.syswr s (r5 a) (r5 b))
  | 6 => okIf (d == 0 && c == 0) (.prefetch s (r5 a) (r5 b))
  | _ => none

/-- Copy group (15 Table 15.4): fields D, A, B, C; an unused field is zero. -/
def decCopy (s : Bool) (d a b c : Nat) : Nat → Option Instr
  | 0 => some (.cpy s (r5 d) (r5 a) (r5 b) (r5 c))
  | 1 => some (.cpym s (r5 d) (r5 a) (r5 b) (r5 c))
  | 2 => some (.cpyb s (r5 d) (r5 a) (r5 b) (r5 c))
  | 3 => okIf (c == 0) (.wmwait s (r5 d) (r5 a) (r5 b))
  | 4 => okIf (d == 0) (.spld s (r5 a) (r5 b) (r5 c))
  | 5 => okIf (d == 0) (.bankop s (r5 a) (r5 b) (r5 c))
  | _ => none

/-- Matrix group (16 R371 to R373): fields D, A, B, C; an unused field is zero. -/
def decMat (s : Bool) (d a b c : Nat) : Nat → Option Instr
  | 0 => okIf (c == 0) (.accrd s (r5 d) (r5 a) (r5 b))
  | 1 => okIf (a == 0 && b == 0 && c == 0) (.accz s (r5 d))
  | 2 => okIf (c == 0) (.mscl s (r5 d) (r5 a) (r5 b))
  | _ => none

/-- Rank group (17): fields D, A, B, C; an unused field is zero. -/
def decRank (s : Bool) (d a b c : Nat) : Nat → Option Instr
  | 0 => okIf (b == 0 && c == 0) (.rsort s (r5 d) (r5 a))
  | 1 => some (.remit s (r5 d) (r5 a) (r5 b) (r5 c))
  | 2 => okIf (d == 0 && c == 0) (.rkseq s (r5 a) (r5 b))
  | 3 => some (.rkarm s (r5 d) (r5 a) (r5 b) (r5 c))
  | 4 => okIf (a == 0 && b == 0 && c == 0) (.rkdisarm s (r5 d))
  | 5 => okIf (b == 0 && c == 0) (.rkres s (r5 d) (r5 a))
  | 6 => okIf (b == 0 && c == 0) (.rkacc s (r5 d) (r5 a))
  | 7 => okIf (b == 0) (.rkdense s (r5 d) (r5 a) (r5 c))
  | 8 => some (.rkgrad s (r5 d) (r5 a) (r5 b) (r5 c))
  | _ => none

/-- AMO (04 R101, 12 R308). -/
def decAmo (s : Bool) (k : Scope) (r : Order) (d a b : Reg) : Nat → Option Instr
  | 0 => some (.amoAdd s k r d a b)
  | 1 => some (.amoAnd s k r d a b)
  | 2 => some (.amoOr s k r d a b)
  | 3 => some (.amoXor s k r d a b)
  | 4 => some (.amoMin s k r d a b)
  | 5 => some (.amoMax s k r d a b)
  | 6 => some (.amoMinu s k r d a b)
  | 7 => some (.amoMaxu s k r d a b)
  | 8 => some (.amoSwap s k r d a b)
  | 9 => some (.amoFadd32 s k r d a b)
  | 10 => some (.amoFadd64 s k r d a b)
  | _ => none

/-- LDA, STL, FENCE (04 R101): z is F[3:2]. -/
def decOrd (s : Bool) (k : Scope) (r : Order) (z d a b : Nat) : Nat → Option Instr
  | 0 => okIf (b == 0 && (r == .acq || r == .sc)) (.lda s k r (sizeOf z) (r5 d) (r5 a))
  | 1 => okIf (b == 0 && (r == .rel || r == .sc)) (.stl s k r (sizeOf z) (r5 d) (r5 a))
  | 2 => okIf (b == 0 && z == 0 && d == 0 && a == 0 && r != .relaxed) (.fence s k r)
  | _ => none

/-- VINT (07 Table 7.3): fields Vd, Va, Vb, P and SAT; an unused field is zero. -/
def decVint (s : Bool) (t : Bool) (p d a b : Nat) : Nat → Option Instr
  | 0 => some (.vadd s t (r3 p) (r5 d) (r5 a) (r5 b))
  | 1 => some (.vsub s t (r3 p) (r5 d) (r5 a) (r5 b))
  | 2 => some (.vmul s t (r3 p) (r5 d) (r5 a) (r5 b))
  | 3 => okIf (!t) (.vmulh s (r3 p) (r5 d) (r5 a) (r5 b))
  | 4 => okIf (!t) (.vmin s (r3 p) (r5 d) (r5 a) (r5 b))
  | 5 => okIf (!t) (.vmax s (r3 p) (r5 d) (r5 a) (r5 b))
  | 6 => okIf (!t) (.vand s (r3 p) (r5 d) (r5 a) (r5 b))
  | 7 => okIf (!t) (.vor s (r3 p) (r5 d) (r5 a) (r5 b))
  | 8 => okIf (!t) (.vxor s (r3 p) (r5 d) (r5 a) (r5 b))
  | 9 => okIf (!t) (.vshl s (r3 p) (r5 d) (r5 a) (r5 b))
  | 10 => okIf (!t) (.vshr s (r3 p) (r5 d) (r5 a) (r5 b))
  | 11 => okIf (!t) (.vsar s (r3 p) (r5 d) (r5 a) (r5 b))
  | 12 => okIf (b == 0) (.vabs s t (r3 p) (r5 d) (r5 a))
  | 13 => some (.vcmp s (BitVec.ofNat 3 (b2n t + 2 * (d / 8))) (r3 d) (r3 p) (r5 a) (r5 b))
  | _ => none

/-- VFP (07 Table 7.5): fields Vd, Va, Vb, P and SAT; an unused field is zero. -/
def decVfp (s : Bool) (t : Bool) (p d a b : Nat) : Nat → Option Instr
  | 0 => some (.vfadd s t (r3 p) (r5 d) (r5 a) (r5 b))
  | 1 => some (.vfsub s t (r3 p) (r5 d) (r5 a) (r5 b))
  | 2 => some (.vfmul s t (r3 p) (r5 d) (r5 a) (r5 b))
  | 3 => some (.vfma s t (r3 p) (r5 d) (r5 a) (r5 b))
  | 4 => some (.vfms s t (r3 p) (r5 d) (r5 a) (r5 b))
  | 5 => some (.vfnma s t (r3 p) (r5 d) (r5 a) (r5 b))
  | 6 => some (.vfdiv s t (r3 p) (r5 d) (r5 a) (r5 b))
  | 7 => okIf (b == 0) (.vfsqrt s t (r3 p) (r5 d) (r5 a))
  | 8 => okIf (!t) (.vfmin s (r3 p) (r5 d) (r5 a) (r5 b))
  | 9 => okIf (!t) (.vfmax s (r3 p) (r5 d) (r5 a) (r5 b))
  | 10 => some (.vfcmp s (BitVec.ofNat 3 (b2n t + 2 * (d / 8))) (r3 d) (r3 p) (r5 a) (r5 b))
  | 11 => okIf (!t && b == 0) (.vfclass s (r3 p) (r5 d) (r5 a))
  | 12 => okIf (b == 0) (.vfrcp s t (r3 p) (r5 d) (r5 a))
  | 13 => okIf (b == 0) (.vfrsq s t (r3 p) (r5 d) (r5 a))
  | _ => none

/-- Conversions (07 Table 7.7): fields Vd, Va, Vb, P and SAT; an unused field is zero. -/
def decVcvt (s : Bool) (t : Bool) (p d a b : Nat) : Nat → Option Instr
  | 0 => some (.vcvt s t (r3 p) (r5 d) (r5 a) (BitVec.ofNat 5 b))
  | 1 => some (.vscale s t (r3 p) (r5 d) (r5 a) (r5 b))
  | 2 => some (.vpack s t (r3 p) (r5 d) (r5 a) (r5 b))
  | 3 => okIf (!t) (.vunpack s (r3 p) (r5 d) (r5 a) (BitVec.ofNat 5 b))
  | 4 => okIf (!t && p == 0 && b == 0) (.vcfg s (r5 d) (r5 a))
  | _ => none

/-- Moves (07 Table 7.8): fields Vd, Va, Vb, P and SAT; an unused field is zero. -/
def decVmov (s : Bool) (t : Bool) (p d a b : Nat) : Nat → Option Instr
  | 0 =>
    if b = 0 then okIf (!t) (.vmov s (r3 p) (r5 d) (r5 a))
    else if b = 1 then okIf (!t && p == 0 && a < 8) (.vmovPredToGpr s (r5 d) (r3 a))
    else if b = 2 then okIf (!t && p == 0 && d < 8) (.vmovGprToPred s (r3 d) (r5 a))
    else none
  | 1 => okIf (!t && b == 0) (.vbcast s (r3 p) (r5 d) (r5 a))
  | 2 => okIf (!t && p == 0) (.vext s (r5 d) (r5 a) (r5 b))
  | 3 => okIf (!t && p == 0) (.vins s (r5 d) (r5 a) (r5 b))
  | 4 => okIf (!t) (.vshuf s (r3 p) (r5 d) (r5 a) (r5 b))
  | 5 => okIf (!t) (.vperm s (r3 p) (r5 d) (r5 a) (r5 b))
  | 6 => okIf (!t) (.vslide s (r3 p) (r5 d) (r5 a) (r5 b))
  | 7 => okIf (!t) (.vsel s (r3 p) (r5 d) (r5 a) (r5 b))
  | 8 => okIf (!t && b == 0) (.vcompress s (r3 p) (r5 d) (r5 a))
  | 9 => okIf (!t && b == 0) (.vexpand s (r3 p) (r5 d) (r5 a))
  | _ => none

/-- Reductions (07 R186, R187): fields Vd, Va, Vb, P and SAT; an unused field is zero. -/
def decVred (s : Bool) (t : Bool) (p d a b : Nat) : Nat → Option Instr
  | 0 => okIf (b == 0) (.vredadd s t (r3 p) (r5 d) (r5 a))
  | 1 => okIf (!t && b == 0) (.vredmax s (r3 p) (r5 d) (r5 a))
  | 2 => okIf (!t && b == 0) (.vredmin s (r3 p) (r5 d) (r5 a))
  | 3 => some (.vdot s t (r3 p) (r5 d) (r5 a) (r5 b))
  | _ => none

/-- Predicates (07 Table 7.9): fields Vd, Va, Vb, P and SAT; an unused field is zero. -/
def decPred (s : Bool) (t : Bool) (p d a b : Nat) : Nat → Option Instr
  | 0 => okIf (!t && p == 0 && d < 8 && a < 8 && b < 8) (.pand s (r3 d) (r3 a) (r3 b))
  | 1 => okIf (!t && p == 0 && d < 8 && a < 8 && b < 8) (.por s (r3 d) (r3 a) (r3 b))
  | 2 => okIf (!t && p == 0 && d < 8 && a < 8 && b < 8) (.pxor s (r3 d) (r3 a) (r3 b))
  | 3 => okIf (!t && p == 0 && d < 8 && a < 8 && b == 0) (.pnot s (r3 d) (r3 a))
  | 4 => okIf (!t && p == 0 && d < 8 && a < 8 && b == 0) (.pcnt s (r3 d) (r3 a))
  | 5 => okIf (!t && p == 0 && d < 8 && a < 8 && b == 0) (.pfirst s (r3 d) (r3 a))
  | 6 => okIf (!t && p == 0 && d < 8 && a < 8 && b == 0) (.pset s (r3 d) (r3 a))
  | _ => none

/-- Vector memory (07 Table 7.10): fields Vd, Va, Vb, P and SAT; an unused field is zero. -/
def decVmem (s : Bool) (t : Bool) (p d a b : Nat) : Nat → Option Instr
  | 0 => okIf (!t) (.vld s (r3 p) (r5 d) (r5 a) (r5 b))
  | 1 => okIf (!t) (.vst s (r3 p) (r5 d) (r5 a) (r5 b))
  | 2 => okIf (!t) (.vlds s (r3 p) (r5 d) (r5 a) (r5 b))
  | 3 => okIf (!t) (.vsts s (r3 p) (r5 d) (r5 a) (r5 b))
  | 4 => some (.vgather s t (r3 p) (r5 d) (r5 a) (r5 b))
  | 5 => some (.vscatter s t (r3 p) (r5 d) (r5 a) (r5 b))
  | 6 => some (.vscatadd s t (r3 p) (r5 d) (r5 a) (r5 b))
  | _ => none

/-- MMA, MMAR, MMASP (04 R105): flags NEG, AZ and SAT in bits [30:28]. -/
def decMma (i : Bool → Bool → Bool → Instr) (f4 : Nat) : Option Instr :=
  okIf (f4 < 8) (i (bitOf f4 2) (bitOf f4 1) (bitOf f4 0))

/-- A 32-bit instruction by its parts (04 Table 4.7). -/
def decFields (x : Fields) : Option Instr :=
  let s := x.s
  let d := x.d
  let a := x.a
  let hi := x.hi
  let b := hi % 32
  let c := hi / 32 % 32
  let f := hi / 32
  let f4 := hi / 1024
  let f5 := hi / 512
  let p := hi / 32 % 8
  let t := hi / 256 % 2 == 1
  match x.maj with
  | 0x00 => decIntr s (r5 d) (r5 a) (r5 b) f
  | 0x01 => if b = 0 then decIntu s (r5 d) (r5 a) f else none
  | 0x02 => some (.addi s (r5 d) (r5 a) (BitVec.ofNat 14 hi))
  | 0x03 => some (.andi s (r5 d) (r5 a) (BitVec.ofNat 14 hi))
  | 0x04 => some (.ori s (r5 d) (r5 a) (BitVec.ofNat 14 hi))
  | 0x05 => some (.xori s (r5 d) (r5 a) (BitVec.ofNat 14 hi))
  | 0x06 => decShift s (r5 d) (r5 a) (BitVec.ofNat 6 hi) (hi / 64)
  | 0x07 => (condOf (hi % 8)).map (fun k => .cmpi s k (r5 d) (r5 a) (BitVec.ofNat 11 (hi / 8)))
  | 0x08 => some (.li s (r5 d) (BitVec.ofNat 19 (a + 32 * hi)))
  | 0x09 => some (.lih s (r5 d) (BitVec.ofNat 19 (a + 32 * hi)))
  | 0x0A => some (.addpc s (r5 d) (BitVec.ofNat 19 (a + 32 * hi)))
  | 0x0B => okIf (hi / 4 % 2 == 0) (.lea s (sizeOf (hi % 4)) (r5 d) (r5 a) (BitVec.ofNat 11 (hi / 8)))
  | 0x0C => okIf (hi % 8 != 7) (.ld s (sizeOf (hi % 4)) (hi / 4 % 2 == 1) (r5 d) (r5 a) (BitVec.ofNat 11 (hi / 8)))
  | 0x0D => okIf (hi / 4 % 2 == 0) (.st s (sizeOf (hi % 4)) (r5 d) (r5 a) (BitVec.ofNat 11 (hi / 8)))
  | 0x0E => okIf (hi % 8 != 7 && hi / 8 < 32) (.ldx s (sizeOf (hi % 4)) (hi / 4 % 2 == 1) (r5 d) (r5 a) (r5 (hi / 8)))
  | 0x0F => okIf (hi / 4 % 2 == 0 && hi / 8 < 32) (.stx s (sizeOf (hi % 4)) (r5 d) (r5 a) (r5 (hi / 8)))
  | 0x10 => okIf (a == 0) (.mfs s (r5 d) (BitVec.ofNat 14 hi))
  | 0x11 => okIf (d == 0) (.mts s (r5 a) (BitVec.ofNat 14 hi))
  | 0x12 => (condOf (hi % 8)).bind (fun k => (hintOf (hi / 8 % 4)).map (fun h => .bc s h k (r5 a) (r5 d) (BitVec.ofNat 9 (hi / 32))))
  | 0x13 => (bzCondOf (a % 8)).bind (fun k => (hintOf (a / 8)).map (fun h => .bz s h k (r5 d) (BitVec.ofNat 14 hi)))
  | 0x14 => some (.br s (BitVec.ofNat 24 (d + 32 * a + 1024 * hi)))
  | 0x15 => some (.call s (BitVec.ofNat 24 (d + 32 * a + 1024 * hi)))
  | 0x16 => decJump s d (r5 a) b f
  | 0x17 => decCtrl s d a b f
  | 0x18 => if a % 8 = 0 then (hintOf (a / 8)).map (fun h => .loop s h (r5 d) (BitVec.ofNat 14 hi)) else none
  | 0x19 => decBits s d a b f
  | 0x1A => decEff s d a b c f4
  | 0x1B => decMsg s d a b c f4
  | 0x1C => decTask s d a b c f4
  | 0x1D => decGrp s d a b c f4
  | 0x1E => (orderOf (hi / 512 % 8)).bind (fun r => decAmo s (scopeOf (hi / 4096)) r (r5 d) (r5 a) (r5 b) (f % 16))
  | 0x1F => if f % 16 = 0 then (orderOf (hi / 512 % 8)).map (fun r => .cas s (scopeOf (hi / 4096)) r (r5 d) (r5 a) (r5 b)) else none
  | 0x20 => (orderOf (hi / 512 % 8)).bind (fun r => decOrd s (scopeOf (hi / 4096)) r (f / 4 % 4) d a b (f % 4))
  | 0x21 => decTile s d a b c f4
  | 0x22 => decVer s d a b c f4
  | 0x23 => decSys s d a b c f4
  | 0x24 => decVint s t p d a b f5
  | 0x25 => decVfp s t p d a b f5
  | 0x26 => decVcvt s t p d a b f5
  | 0x27 => decVmov s t p d a b f5
  | 0x28 => decVred s t p d a b f5
  | 0x29 => decPred s t p d a b f5
  | 0x2A => decVmem s t p d a b f5
  | 0x2B => decCopy s d a b c f4
  | 0x2C => decMma (fun t z n => .mma s t z n (r5 d) (r5 a) (r5 b) (r5 c)) f4
  | 0x2D => decMma (fun t z n => .mmar s t z n (r5 d) (r5 a) (r5 b) (r5 c)) f4
  | 0x2E => decMma (fun t z n => .mmasp s t z n (r5 d) (r5 a) (r5 b) (r5 c)) f4
  | 0x2F => decMat s d a b c f4
  | 0x30 => decRank s d a b c f4
  | _ => none

/-- A compact instruction (04 Tables 4.1 and 4.2). -/
def decHalf (h : Nat) : Option Instr :=
  let s := bitOf h 0
  let rd := bitsOf h 10 6
  let ra := bitsOf h 15 11
  match bitsOf h 5 2 with
  | 0x0 =>
    if ra ≠ 0 then none
    else if rd = 1 then some (.nopCompact s)
    else if rd = 2 then some (.doneCompact s)
    else if rd = 3 then some (.retCompact s)
    else none
  | 0x1 => some (.addCompact s (r5 rd) (r5 ra))
  | 0x2 => some (.subCompact s (r5 rd) (r5 ra))
  | 0x3 => some (.andCompact s (r5 rd) (r5 ra))
  | 0x4 => some (.orCompact s (r5 rd) (r5 ra))
  | 0x5 => some (.xorCompact s (r5 rd) (r5 ra))
  | 0x6 => some (.addiCompact s (r5 rd) (r5 ra))
  | 0x7 => some (.liCompact s (r5 rd) (r5 ra))
  | 0x8 => some (.shliCompact s (r5 rd) (r5 ra))
  | 0x9 => some (.shriCompact s (r5 rd) (r5 ra))
  | 0xA => some (.ldStackCompact s (r5 rd) (r5 ra))
  | 0xB => some (.stStackCompact s (r5 rd) (r5 ra))
  | 0xC => some (.ldCompact s (r5 rd) (r5 ra))
  | 0xD => some (.stCompact s (r5 rd) (r5 ra))
  | 0xE => some (.mulCompact s (r5 rd) (r5 ra))
  | 0xF => okIf (rd == 0) (.jrCompact s (r5 ra))
  | _ => none

/-- The length that the first halfword gives (04 R89). -/
def lengthOf (h : Nat) : Nat := if bitOf h 1 then 4 else 2

/-- The instruction at the head of a run of bytes, and its length (04 R89). -/
def decode : List Byte → Option (Instr × Nat)
  | b0 :: b1 :: rest =>
    let h := b0.toNat + 256 * b1.toNat
    if bitOf h 1 then
      match rest with
      | b2 :: b3 :: _ => (decFields (Fields.of (h + 2 ^ 16 * (b2.toNat + 256 * b3.toNat)))).map (fun i => (i, 4))
      | _ => none
    else (decHalf h).map (fun i => (i, 2))
  | _ => none

/-- The instruction that the decoder reads from words numbered as spec/opcode_table.json numbers them. -/
def decodeTableWord (nbits w : Nat) : Option Instr := (decode (bytesOf 4 (w % 2 ^ nbits))).map (·.1)

/-! ## The encoder -/

/-- The word of a compact instruction (04 Table 4.1). -/
def half (s : Bool) (maj rd ra : Nat) : Nat := b2n s + 4 * maj + 2 ^ 6 * rd + 2 ^ 11 * ra

/-- The parts of a 32-bit instruction; none for a compact form or a step without an encoding. -/
def fieldsOf : Instr → Option Fields
  | .add s d a b => some ⟨s, 0x00, d.toNat, a.toNat, b.toNat⟩
  | .sub s d a b => some ⟨s, 0x00, d.toNat, a.toNat, b.toNat + 32⟩
  | .mul s d a b => some ⟨s, 0x00, d.toNat, a.toNat, b.toNat + 64⟩
  | .mulh s d a b => some ⟨s, 0x00, d.toNat, a.toNat, b.toNat + 96⟩
  | .mulhu s d a b => some ⟨s, 0x00, d.toNat, a.toNat, b.toNat + 128⟩
  | .div s d a b => some ⟨s, 0x00, d.toNat, a.toNat, b.toNat + 160⟩
  | .divu s d a b => some ⟨s, 0x00, d.toNat, a.toNat, b.toNat + 192⟩
  | .rem s d a b => some ⟨s, 0x00, d.toNat, a.toNat, b.toNat + 224⟩
  | .remu s d a b => some ⟨s, 0x00, d.toNat, a.toNat, b.toNat + 256⟩
  | .and s d a b => some ⟨s, 0x00, d.toNat, a.toNat, b.toNat + 288⟩
  | .or s d a b => some ⟨s, 0x00, d.toNat, a.toNat, b.toNat + 320⟩
  | .xor s d a b => some ⟨s, 0x00, d.toNat, a.toNat, b.toNat + 352⟩
  | .andn s d a b => some ⟨s, 0x00, d.toNat, a.toNat, b.toNat + 384⟩
  | .orn s d a b => some ⟨s, 0x00, d.toNat, a.toNat, b.toNat + 416⟩
  | .shl s d a b => some ⟨s, 0x00, d.toNat, a.toNat, b.toNat + 448⟩
  | .shr s d a b => some ⟨s, 0x00, d.toNat, a.toNat, b.toNat + 480⟩
  | .sar s d a b => some ⟨s, 0x00, d.toNat, a.toNat, b.toNat + 512⟩
  | .rol s d a b => some ⟨s, 0x00, d.toNat, a.toNat, b.toNat + 544⟩
  | .ror s d a b => some ⟨s, 0x00, d.toNat, a.toNat, b.toNat + 576⟩
  | .min s d a b => some ⟨s, 0x00, d.toNat, a.toNat, b.toNat + 608⟩
  | .max s d a b => some ⟨s, 0x00, d.toNat, a.toNat, b.toNat + 640⟩
  | .minu s d a b => some ⟨s, 0x00, d.toNat, a.toNat, b.toNat + 672⟩
  | .maxu s d a b => some ⟨s, 0x00, d.toNat, a.toNat, b.toNat + 704⟩
  | .sel s d a b => some ⟨s, 0x00, d.toNat, a.toNat, b.toNat + 736⟩
  | .cmpeq s d a b => some ⟨s, 0x00, d.toNat, a.toNat, b.toNat + 768⟩
  | .cmpne s d a b => some ⟨s, 0x00, d.toNat, a.toNat, b.toNat + 800⟩
  | .cmplt s d a b => some ⟨s, 0x00, d.toNat, a.toNat, b.toNat + 832⟩
  | .cmpge s d a b => some ⟨s, 0x00, d.toNat, a.toNat, b.toNat + 864⟩
  | .cmpltu s d a b => some ⟨s, 0x00, d.toNat, a.toNat, b.toNat + 896⟩
  | .cmpgeu s d a b => some ⟨s, 0x00, d.toNat, a.toNat, b.toNat + 928⟩
  | .clz s d a => some ⟨s, 0x01, d.toNat, a.toNat, 0⟩
  | .ctz s d a => some ⟨s, 0x01, d.toNat, a.toNat, 32⟩
  | .popc s d a => some ⟨s, 0x01, d.toNat, a.toNat, 64⟩
  | .bswap s d a => some ⟨s, 0x01, d.toNat, a.toNat, 96⟩
  | .sextb s d a => some ⟨s, 0x01, d.toNat, a.toNat, 128⟩
  | .sexth s d a => some ⟨s, 0x01, d.toNat, a.toNat, 160⟩
  | .sextw s d a => some ⟨s, 0x01, d.toNat, a.toNat, 192⟩
  | .zextb s d a => some ⟨s, 0x01, d.toNat, a.toNat, 224⟩
  | .zexth s d a => some ⟨s, 0x01, d.toNat, a.toNat, 256⟩
  | .zextw s d a => some ⟨s, 0x01, d.toNat, a.toNat, 288⟩
  | .addi s d a i => some ⟨s, 0x02, d.toNat, a.toNat, i.toNat⟩
  | .andi s d a i => some ⟨s, 0x03, d.toNat, a.toNat, i.toNat⟩
  | .ori s d a i => some ⟨s, 0x04, d.toNat, a.toNat, i.toNat⟩
  | .xori s d a i => some ⟨s, 0x05, d.toNat, a.toNat, i.toNat⟩
  | .shli s d a n => some ⟨s, 0x06, d.toNat, a.toNat, n.toNat⟩
  | .shri s d a n => some ⟨s, 0x06, d.toNat, a.toNat, n.toNat + 64⟩
  | .sari s d a n => some ⟨s, 0x06, d.toNat, a.toNat, n.toNat + 128⟩
  | .rori s d a n => some ⟨s, 0x06, d.toNat, a.toNat, n.toNat + 192⟩
  | .cmpi s c d a i => some ⟨s, 0x07, d.toNat, a.toNat, c.code + 8 * i.toNat⟩
  | .li s d i => some ⟨s, 0x08, d.toNat, i.toNat % 32, i.toNat / 32⟩
  | .lih s d i => some ⟨s, 0x09, d.toNat, i.toNat % 32, i.toNat / 32⟩
  | .addpc s d i => some ⟨s, 0x0A, d.toNat, i.toNat % 32, i.toNat / 32⟩
  | .lea s z d a i => some ⟨s, 0x0B, d.toNat, a.toNat, z.code + 8 * i.toNat⟩
  | .ld s z x d a i => some ⟨s, 0x0C, d.toNat, a.toNat, z.code + 4 * b2n x + 8 * i.toNat⟩
  | .st s z d a i => some ⟨s, 0x0D, d.toNat, a.toNat, z.code + 8 * i.toNat⟩
  | .ldx s z x d a b => some ⟨s, 0x0E, d.toNat, a.toNat, z.code + 4 * b2n x + 8 * b.toNat⟩
  | .stx s z d a b => some ⟨s, 0x0F, d.toNat, a.toNat, z.code + 8 * b.toNat⟩
  | .mfs s d i => some ⟨s, 0x10, d.toNat, 0, i.toNat⟩
  | .mts s a i => some ⟨s, 0x11, 0, a.toNat, i.toNat⟩
  | .bc s h c b a o => some ⟨s, 0x12, a.toNat, b.toNat, c.code + 8 * h.code + 32 * o.toNat⟩
  | .bz s h c a o => some ⟨s, 0x13, a.toNat, c.code + 8 * h.code, o.toNat⟩
  | .br s o => some ⟨s, 0x14, o.toNat % 32, o.toNat / 32 % 32, o.toNat / 1024⟩
  | .call s o => some ⟨s, 0x15, o.toNat % 32, o.toNat / 32 % 32, o.toNat / 1024⟩
  | .jr s m a => some ⟨s, 0x16, 0, a.toNat, b2n m⟩
  | .callr s m a => some ⟨s, 0x16, 0, a.toNat, b2n m + 32⟩
  | .ret s => some ⟨s, 0x16, 0, 0, 64⟩
  | .loop s h a o => some ⟨s, 0x18, a.toNat, 8 * h.code, o.toNat⟩
  | .done s => some ⟨s, 0x17, 0, 0, 0⟩
  | .waita s d a b => some ⟨s, 0x17, d.toNat, a.toNat, b.toNat + 32⟩
  | .halt s a => some ⟨s, 0x17, 0, a.toNat, 64⟩
  | .idle s a => some ⟨s, 0x17, 0, a.toNat, 96⟩
  | .nop s => some ⟨s, 0x17, 0, 0, 128⟩
  | .mtake s d a => some ⟨s, 0x17, d.toNat, a.toNat, 160⟩
  | .mpeek s d a => some ⟨s, 0x17, d.toNat, a.toNat, 192⟩
  | .waitm s a => some ⟨s, 0x17, 0, a.toNat, 224⟩
  | .bsinit s a b => some ⟨s, 0x19, 0, a.toNat, b.toNat⟩
  | .bsget s d a => some ⟨s, 0x19, d.toNat, a.toNat, 32⟩
  | .bspeek s d a => some ⟨s, 0x19, d.toNat, a.toNat, 64⟩
  | .bsskip s a => some ⟨s, 0x19, 0, a.toNat, 96⟩
  | .bseg s d a => some ⟨s, 0x19, d.toNat, a.toNat, 128⟩
  | .bsput s a b => some ⟨s, 0x19, 0, a.toNat, b.toNat + 160⟩
  | .bsflush s => some ⟨s, 0x19, 0, 0, 192⟩
  | .bspos s d => some ⟨s, 0x19, d.toNat, 0, 224⟩
  | .handle s a b c => some ⟨s, 0x1A, 0, a.toNat, b.toNat + 32 * c.toNat⟩
  | .unhandle s a => some ⟨s, 0x1A, 0, a.toNat, 1024⟩
  | .perform s e a => some ⟨s, 0x1A, e.toNat / 1024, a.toNat, e.toNat % 1024 + 2048⟩
  | .performv s e a p => some ⟨s, 0x1A, e.toNat / 1024 + 4 * p.toNat, a.toNat, e.toNat % 1024 + 3072⟩
  | .resume s a b c => some ⟨s, 0x1A, 0, a.toNat, b.toNat + 32 * c.toNat + 4096⟩
  | .resumem s a b c => some ⟨s, 0x1A, 0, a.toNat, b.toNat + 32 * c.toNat + 5120⟩
  | .discard s d a => some ⟨s, 0x1A, d.toNat, a.toNat, 6144⟩
  | .tkstat s d a => some ⟨s, 0x1A, d.toNat, a.toNat, 7168⟩
  | .shandle s a => some ⟨s, 0x1A, 0, a.toNat, 8192⟩
  | .send s a b c => some ⟨s, 0x1B, 0, a.toNat, b.toNat + 32 * c.toNat⟩
  | .sendr s a b => some ⟨s, 0x1B, 0, a.toNat, b.toNat + 1024⟩
  | .mcast s a b c => some ⟨s, 0x1B, 0, a.toNat, b.toNat + 32 * c.toNat + 2048⟩
  | .subtag s a b => some ⟨s, 0x1B, 0, a.toNat, b.toNat + 3072⟩
  | .hmask s => some ⟨s, 0x1B, 0, 0, 4096⟩
  | .hunmask s => some ⟨s, 0x1B, 0, 0, 5120⟩
  | .hcfg s d a b c => some ⟨s, 0x1B, d.toNat, a.toNat, b.toNat + 32 * c.toNat + 6144⟩
  | .spawn s d a => some ⟨s, 0x1C, d.toNat, a.toNat, 0⟩
  | .fork s d a b c => some ⟨s, 0x1C, d.toNat, a.toNat, b.toNat + 32 * c.toNat + 1024⟩
  | .joinw s a => some ⟨s, 0x1C, 0, a.toNat, 2048⟩
  | .cntinit s a b => some ⟨s, 0x1C, 0, a.toNat, b.toNat + 3072⟩
  | .cntdec s a => some ⟨s, 0x1C, 0, a.toNat, 4096⟩
  | .launch s d a => some ⟨s, 0x1C, d.toNat, a.toNat, 5120⟩
  | .gjoin s d a => some ⟨s, 0x1D, d.toNat, a.toNat, 0⟩
  | .gleave s a => some ⟨s, 0x1D, 0, a.toNat, 1024⟩
  | .bari s a b => some ⟨s, 0x1D, 0, a.toNat, b.toNat + 2048⟩
  | .bara s a => some ⟨s, 0x1D, 0, a.toNat, 3072⟩
  | .barw s a b => some ⟨s, 0x1D, 0, a.toNat, b.toNat + 4096⟩
  | .baraw s a b => some ⟨s, 0x1D, 0, a.toNat, b.toNat + 5120⟩
  | .tdef s d a => some ⟨s, 0x21, d.toNat, a.toNat, 0⟩
  | .tset s d => some ⟨s, 0x21, d.toNat, 0, 1024⟩
  | .twait s d a => some ⟨s, 0x21, d.toNat, a.toNat, 2048⟩
  | .trel s d => some ⟨s, 0x21, d.toNat, 0, 3072⟩
  | .snap s d a => some ⟨s, 0x22, d.toNat, a.toNat, 0⟩
  | .ldv s z x d a => some ⟨s, 0x22, d.toNat, a.toNat, 32 * (z.code + 4 * b2n x) + 1024⟩
  | .ldvw s d a b => some ⟨s, 0x22, d.toNat, a.toNat, b.toNat + 2048⟩
  | .stv s z d a => some ⟨s, 0x22, d.toNat, a.toNat, 32 * z.code + 3072⟩
  | .commit s d => some ⟨s, 0x22, d.toNat, 0, 4096⟩
  | .abort s => some ⟨s, 0x22, 0, 0, 5120⟩
  | .vretire s => some ⟨s, 0x22, 0, 0, 6144⟩
  | .ctxsave s d a b => some ⟨s, 0x23, d.toNat, a.toNat, b.toNat⟩
  | .ctxload s d a b => some ⟨s, 0x23, d.toNat, a.toNat, b.toNat + 1024⟩
  | .tlbi s a b => some ⟨s, 0x23, 0, a.toNat, b.toNat + 2048⟩
  | .maplid s d a b => some ⟨s, 0x23, d.toNat, a.toNat, b.toNat + 3072⟩
  | .sysrd s d a => some ⟨s, 0x23, d.toNat, a.toNat, 4096⟩
  | .syswr s a b => some ⟨s, 0x23, 0, a.toNat, b.toNat + 5120⟩
  | .prefetch s a b => some ⟨s, 0x23, 0, a.toNat, b.toNat + 6144⟩
  | .cpy s d a b c => some ⟨s, 0x2B, d.toNat, a.toNat, b.toNat + 32 * c.toNat⟩
  | .cpym s d a b c => some ⟨s, 0x2B, d.toNat, a.toNat, b.toNat + 32 * c.toNat + 1024⟩
  | .cpyb s d a b c => some ⟨s, 0x2B, d.toNat, a.toNat, b.toNat + 32 * c.toNat + 2048⟩
  | .wmwait s d a b => some ⟨s, 0x2B, d.toNat, a.toNat, b.toNat + 3072⟩
  | .spld s a b c => some ⟨s, 0x2B, 0, a.toNat, b.toNat + 32 * c.toNat + 4096⟩
  | .bankop s a b c => some ⟨s, 0x2B, 0, a.toNat, b.toNat + 32 * c.toNat + 5120⟩
  | .accrd s d a b => some ⟨s, 0x2F, d.toNat, a.toNat, b.toNat⟩
  | .accz s d => some ⟨s, 0x2F, d.toNat, 0, 1024⟩
  | .mscl s d a b => some ⟨s, 0x2F, d.toNat, a.toNat, b.toNat + 2048⟩
  | .rsort s d a => some ⟨s, 0x30, d.toNat, a.toNat, 0⟩
  | .remit s d a b c => some ⟨s, 0x30, d.toNat, a.toNat, b.toNat + 32 * c.toNat + 1024⟩
  | .rkseq s a b => some ⟨s, 0x30, 0, a.toNat, b.toNat + 2048⟩
  | .rkarm s d a b c => some ⟨s, 0x30, d.toNat, a.toNat, b.toNat + 32 * c.toNat + 3072⟩
  | .rkdisarm s d => some ⟨s, 0x30, d.toNat, 0, 4096⟩
  | .rkres s d a => some ⟨s, 0x30, d.toNat, a.toNat, 5120⟩
  | .rkacc s d a => some ⟨s, 0x30, d.toNat, a.toNat, 6144⟩
  | .rkdense s d a c => some ⟨s, 0x30, d.toNat, a.toNat, 32 * c.toNat + 7168⟩
  | .rkgrad s d a b c => some ⟨s, 0x30, d.toNat, a.toNat, b.toNat + 32 * c.toNat + 8192⟩
  | .amoAdd s k r d a b => some ⟨s, 0x1E, d.toNat, a.toNat, b.toNat + 512 * r.code + 4096 * k.code⟩
  | .amoAnd s k r d a b => some ⟨s, 0x1E, d.toNat, a.toNat, b.toNat + 32 + 512 * r.code + 4096 * k.code⟩
  | .amoOr s k r d a b => some ⟨s, 0x1E, d.toNat, a.toNat, b.toNat + 64 + 512 * r.code + 4096 * k.code⟩
  | .amoXor s k r d a b => some ⟨s, 0x1E, d.toNat, a.toNat, b.toNat + 96 + 512 * r.code + 4096 * k.code⟩
  | .amoMin s k r d a b => some ⟨s, 0x1E, d.toNat, a.toNat, b.toNat + 128 + 512 * r.code + 4096 * k.code⟩
  | .amoMax s k r d a b => some ⟨s, 0x1E, d.toNat, a.toNat, b.toNat + 160 + 512 * r.code + 4096 * k.code⟩
  | .amoMinu s k r d a b => some ⟨s, 0x1E, d.toNat, a.toNat, b.toNat + 192 + 512 * r.code + 4096 * k.code⟩
  | .amoMaxu s k r d a b => some ⟨s, 0x1E, d.toNat, a.toNat, b.toNat + 224 + 512 * r.code + 4096 * k.code⟩
  | .amoSwap s k r d a b => some ⟨s, 0x1E, d.toNat, a.toNat, b.toNat + 256 + 512 * r.code + 4096 * k.code⟩
  | .amoFadd32 s k r d a b => some ⟨s, 0x1E, d.toNat, a.toNat, b.toNat + 288 + 512 * r.code + 4096 * k.code⟩
  | .amoFadd64 s k r d a b => some ⟨s, 0x1E, d.toNat, a.toNat, b.toNat + 320 + 512 * r.code + 4096 * k.code⟩
  | .cas s k r d a b => some ⟨s, 0x1F, d.toNat, a.toNat, b.toNat + 512 * r.code + 4096 * k.code⟩
  | .lda s k r z d a => some ⟨s, 0x20, d.toNat, a.toNat, 128 * z.code + 512 * r.code + 4096 * k.code⟩
  | .stl s k r z d a => some ⟨s, 0x20, d.toNat, a.toNat, 32 + 128 * z.code + 512 * r.code + 4096 * k.code⟩
  | .fence s k r => some ⟨s, 0x20, 0, 0, 64 + 512 * r.code + 4096 * k.code⟩
  | .vadd s t p d a b => some ⟨s, 0x24, d.toNat, a.toNat, b.toNat + 32 * p.toNat + 256 * b2n t⟩
  | .vsub s t p d a b => some ⟨s, 0x24, d.toNat, a.toNat, b.toNat + 32 * p.toNat + 256 * b2n t + 512⟩
  | .vmul s t p d a b => some ⟨s, 0x24, d.toNat, a.toNat, b.toNat + 32 * p.toNat + 256 * b2n t + 1024⟩
  | .vmulh s p d a b => some ⟨s, 0x24, d.toNat, a.toNat, b.toNat + 32 * p.toNat + 1536⟩
  | .vmin s p d a b => some ⟨s, 0x24, d.toNat, a.toNat, b.toNat + 32 * p.toNat + 2048⟩
  | .vmax s p d a b => some ⟨s, 0x24, d.toNat, a.toNat, b.toNat + 32 * p.toNat + 2560⟩
  | .vand s p d a b => some ⟨s, 0x24, d.toNat, a.toNat, b.toNat + 32 * p.toNat + 3072⟩
  | .vor s p d a b => some ⟨s, 0x24, d.toNat, a.toNat, b.toNat + 32 * p.toNat + 3584⟩
  | .vxor s p d a b => some ⟨s, 0x24, d.toNat, a.toNat, b.toNat + 32 * p.toNat + 4096⟩
  | .vshl s p d a b => some ⟨s, 0x24, d.toNat, a.toNat, b.toNat + 32 * p.toNat + 4608⟩
  | .vshr s p d a b => some ⟨s, 0x24, d.toNat, a.toNat, b.toNat + 32 * p.toNat + 5120⟩
  | .vsar s p d a b => some ⟨s, 0x24, d.toNat, a.toNat, b.toNat + 32 * p.toNat + 5632⟩
  | .vabs s t p d a => some ⟨s, 0x24, d.toNat, a.toNat, 32 * p.toNat + 256 * b2n t + 6144⟩
  | .vcmp s m d p a b => some ⟨s, 0x24, d.toNat + 8 * (m.toNat / 2), a.toNat, b.toNat + 32 * p.toNat + 256 * (m.toNat % 2) + 6656⟩
  | .vfadd s t p d a b => some ⟨s, 0x25, d.toNat, a.toNat, b.toNat + 32 * p.toNat + 256 * b2n t⟩
  | .vfsub s t p d a b => some ⟨s, 0x25, d.toNat, a.toNat, b.toNat + 32 * p.toNat + 256 * b2n t + 512⟩
  | .vfmul s t p d a b => some ⟨s, 0x25, d.toNat, a.toNat, b.toNat + 32 * p.toNat + 256 * b2n t + 1024⟩
  | .vfma s t p d a b => some ⟨s, 0x25, d.toNat, a.toNat, b.toNat + 32 * p.toNat + 256 * b2n t + 1536⟩
  | .vfms s t p d a b => some ⟨s, 0x25, d.toNat, a.toNat, b.toNat + 32 * p.toNat + 256 * b2n t + 2048⟩
  | .vfnma s t p d a b => some ⟨s, 0x25, d.toNat, a.toNat, b.toNat + 32 * p.toNat + 256 * b2n t + 2560⟩
  | .vfdiv s t p d a b => some ⟨s, 0x25, d.toNat, a.toNat, b.toNat + 32 * p.toNat + 256 * b2n t + 3072⟩
  | .vfsqrt s t p d a => some ⟨s, 0x25, d.toNat, a.toNat, 32 * p.toNat + 256 * b2n t + 3584⟩
  | .vfmin s p d a b => some ⟨s, 0x25, d.toNat, a.toNat, b.toNat + 32 * p.toNat + 4096⟩
  | .vfmax s p d a b => some ⟨s, 0x25, d.toNat, a.toNat, b.toNat + 32 * p.toNat + 4608⟩
  | .vfcmp s m d p a b => some ⟨s, 0x25, d.toNat + 8 * (m.toNat / 2), a.toNat, b.toNat + 32 * p.toNat + 256 * (m.toNat % 2) + 5120⟩
  | .vfclass s p d a => some ⟨s, 0x25, d.toNat, a.toNat, 32 * p.toNat + 5632⟩
  | .vfrcp s t p d a => some ⟨s, 0x25, d.toNat, a.toNat, 32 * p.toNat + 256 * b2n t + 6144⟩
  | .vfrsq s t p d a => some ⟨s, 0x25, d.toNat, a.toNat, 32 * p.toNat + 256 * b2n t + 6656⟩
  | .vcvt s t p d a n => some ⟨s, 0x26, d.toNat, a.toNat, n.toNat + 32 * p.toNat + 256 * b2n t⟩
  | .vscale s t p d a b => some ⟨s, 0x26, d.toNat, a.toNat, b.toNat + 32 * p.toNat + 256 * b2n t + 512⟩
  | .vpack s t p d a b => some ⟨s, 0x26, d.toNat, a.toNat, b.toNat + 32 * p.toNat + 256 * b2n t + 1024⟩
  | .vunpack s p d a n => some ⟨s, 0x26, d.toNat, a.toNat, n.toNat + 32 * p.toNat + 1536⟩
  | .vcfg s d a => some ⟨s, 0x26, d.toNat, a.toNat, 2048⟩
  | .vmov s p d a => some ⟨s, 0x27, d.toNat, a.toNat, 32 * p.toNat⟩
  | .vmovPredToGpr s d a => some ⟨s, 0x27, d.toNat, a.toNat, 1⟩
  | .vmovGprToPred s d a => some ⟨s, 0x27, d.toNat, a.toNat, 2⟩
  | .vbcast s p d a => some ⟨s, 0x27, d.toNat, a.toNat, 32 * p.toNat + 512⟩
  | .vext s d a b => some ⟨s, 0x27, d.toNat, a.toNat, b.toNat + 1024⟩
  | .vins s d a b => some ⟨s, 0x27, d.toNat, a.toNat, b.toNat + 1536⟩
  | .vshuf s p d a b => some ⟨s, 0x27, d.toNat, a.toNat, b.toNat + 32 * p.toNat + 2048⟩
  | .vperm s p d a b => some ⟨s, 0x27, d.toNat, a.toNat, b.toNat + 32 * p.toNat + 2560⟩
  | .vslide s p d a b => some ⟨s, 0x27, d.toNat, a.toNat, b.toNat + 32 * p.toNat + 3072⟩
  | .vsel s p d a b => some ⟨s, 0x27, d.toNat, a.toNat, b.toNat + 32 * p.toNat + 3584⟩
  | .vcompress s p d a => some ⟨s, 0x27, d.toNat, a.toNat, 32 * p.toNat + 4096⟩
  | .vexpand s p d a => some ⟨s, 0x27, d.toNat, a.toNat, 32 * p.toNat + 4608⟩
  | .vredadd s t p d a => some ⟨s, 0x28, d.toNat, a.toNat, 32 * p.toNat + 256 * b2n t⟩
  | .vredmax s p d a => some ⟨s, 0x28, d.toNat, a.toNat, 32 * p.toNat + 512⟩
  | .vredmin s p d a => some ⟨s, 0x28, d.toNat, a.toNat, 32 * p.toNat + 1024⟩
  | .vdot s t p d a b => some ⟨s, 0x28, d.toNat, a.toNat, b.toNat + 32 * p.toNat + 256 * b2n t + 1536⟩
  | .pand s d a b => some ⟨s, 0x29, d.toNat, a.toNat, b.toNat⟩
  | .por s d a b => some ⟨s, 0x29, d.toNat, a.toNat, b.toNat + 512⟩
  | .pxor s d a b => some ⟨s, 0x29, d.toNat, a.toNat, b.toNat + 1024⟩
  | .pnot s d a => some ⟨s, 0x29, d.toNat, a.toNat, 1536⟩
  | .pcnt s d a => some ⟨s, 0x29, d.toNat, a.toNat, 2048⟩
  | .pfirst s d a => some ⟨s, 0x29, d.toNat, a.toNat, 2560⟩
  | .pset s d a => some ⟨s, 0x29, d.toNat, a.toNat, 3072⟩
  | .vld s p d a b => some ⟨s, 0x2A, d.toNat, a.toNat, b.toNat + 32 * p.toNat⟩
  | .vst s p d a b => some ⟨s, 0x2A, d.toNat, a.toNat, b.toNat + 32 * p.toNat + 512⟩
  | .vlds s p d a b => some ⟨s, 0x2A, d.toNat, a.toNat, b.toNat + 32 * p.toNat + 1024⟩
  | .vsts s p d a b => some ⟨s, 0x2A, d.toNat, a.toNat, b.toNat + 32 * p.toNat + 1536⟩
  | .vgather s t p d a b => some ⟨s, 0x2A, d.toNat, a.toNat, b.toNat + 32 * p.toNat + 256 * b2n t + 2048⟩
  | .vscatter s t p d a b => some ⟨s, 0x2A, d.toNat, a.toNat, b.toNat + 32 * p.toNat + 256 * b2n t + 2560⟩
  | .vscatadd s t p d a b => some ⟨s, 0x2A, d.toNat, a.toNat, b.toNat + 32 * p.toNat + 256 * b2n t + 3072⟩
  | .mma s t z n d a b c => some ⟨s, 0x2C, d.toNat, a.toNat, b.toNat + 32 * c.toNat + 1024 * b2n n + 2048 * b2n z + 4096 * b2n t⟩
  | .mmar s t z n d a b c => some ⟨s, 0x2D, d.toNat, a.toNat, b.toNat + 32 * c.toNat + 1024 * b2n n + 2048 * b2n z + 4096 * b2n t⟩
  | .mmasp s t z n d a b c => some ⟨s, 0x2E, d.toNat, a.toNat, b.toNat + 32 * c.toNat + 1024 * b2n n + 2048 * b2n z + 4096 * b2n t⟩
  | .ctxsaveCore s d a b => some ⟨s, 0x23, d.toNat, a.toNat, b.toNat⟩
  | .ctxloadCore s d a b => some ⟨s, 0x23, d.toNat, a.toNat, b.toNat + 1024⟩
  | _ => none

/-- The halfword of a compact instruction. -/
def halfOf : Instr → Option Nat
  | .nopCompact s => some (half s 0x0 1 0)
  | .doneCompact s => some (half s 0x0 2 0)
  | .retCompact s => some (half s 0x0 3 0)
  | .addCompact s d a => some (half s 0x1 d.toNat a.toNat)
  | .subCompact s d a => some (half s 0x2 d.toNat a.toNat)
  | .andCompact s d a => some (half s 0x3 d.toNat a.toNat)
  | .orCompact s d a => some (half s 0x4 d.toNat a.toNat)
  | .xorCompact s d a => some (half s 0x5 d.toNat a.toNat)
  | .addiCompact s d i => some (half s 0x6 d.toNat i.toNat)
  | .liCompact s d i => some (half s 0x7 d.toNat i.toNat)
  | .shliCompact s d n => some (half s 0x8 d.toNat n.toNat)
  | .shriCompact s d n => some (half s 0x9 d.toNat n.toNat)
  | .ldStackCompact s d i => some (half s 0xA d.toNat i.toNat)
  | .stStackCompact s d i => some (half s 0xB d.toNat i.toNat)
  | .ldCompact s d a => some (half s 0xC d.toNat a.toNat)
  | .stCompact s d a => some (half s 0xD d.toNat a.toNat)
  | .mulCompact s d a => some (half s 0xE d.toNat a.toNat)
  | .jrCompact s a => some (half s 0xF 0 a.toNat)
  | _ => none

/-- The bytes of an instruction (04 R89, R93): two for a compact form, four for a 32-bit one, none for a step without an
encoding. -/
def encode (i : Instr) : List Byte :=
  match halfOf i with
  | some h => bytesOf 2 h
  | none =>
    match fieldsOf i with
    | some f => bytesOf 4 f.word
    | none => []

end

end Sys2Proof
end

