-- ==== Sys2Proof/Config.lean ====
section
/-! DEFINITION. The constants of the machine, and the values the spec leaves open (opaque: no proof can see them). -/

namespace Sys2Proof.Config

/-- Bytes of one scratchpad, 1.5 MiB (01 R9). -/
def spadBytes : Nat := 0x180000
/-- Bytes of a core's window in core space (01 Table 1.4). -/
def coreWindow : Nat := 0x200000
/-- Bytes of one die's device memory (10 R268). -/
def dieBytes : Nat := 0x1800000000
/-- Bytes of the package's device memory (10 R268). -/
def devBytes : Nat := 0xC000000000
/-- Ticks of one cycle of core `pid`, when time counts 1/12 ns: 2.4, 2.0 and 1.5 GHz columns (00 R3 Table 0.3). -/
def coreTicks (pid : Nat) : Nat := if pid % 16 < 4 then 5 else if pid % 16 < 12 then 6 else 8
/-- Ticks of a microsecond and of a millisecond. -/
def tickUs : Nat := 12000
def tickMs : Nat := 12000000

/-- DESIGN CHOICE (log 4). The time that step number n takes, in ticks. -/
opaque stepTicks : Nat → Nat
/-- DESIGN CHOICE (log 3). Which of the moves that stand open step number n makes when the agenda names none. -/
opaque choice : Nat → Nat
/-- UNVERIFIED (log 8). Byte `off` of the device-layout areas of the core image saved with serial number `serial` (21 R407 Table 21.4). -/
opaque deviceLayout (serial off : Nat) : Byte
/-- UNVERIFIED (log 9). The fused energy weight of an activity class of a cluster, in nanojoules; and, for the leakage table of a cluster at
an operating point, the gap below breakpoint i in sixteenths of a degree, less one, and the leakage there in milliwatts (22 R418). -/
opaque energyWeight (cluster cls : Nat) : Nat
opaque leakGap (cluster point i : Nat) : Nat
opaque leakPower (cluster point i : Nat) : Nat
/-- UNVERIFIED (log 9). What step number n adds to an activity counter other than the two of issues: matrix-unit cycles, bank row accesses,
NI flits, rank entries and copy beats, whose number for an operation the spec does not give (22 R418). -/
opaque activity (n cls : Nat) : Nat
/-- UNVERIFIED (log 10). Length in bits of the prefix code of exponent code `e` under occurrence counts `counts` (24 R438). -/
opaque codeLength (counts : List Nat) (e : Nat) : Nat
/-- UNVERIFIED (log 10). The prefix code words themselves (24 R438). -/
opaque codeWord (counts : List Nat) (e : Nat) : Nat
/-- UNVERIFIED (log 10). The table hash of a link's tables, and the bytes that a transfer to a peer puts on the link (24 R437, R438). -/
opaque tableHash (tables : List (Nat × List Nat)) : Nat
opaque traceBytes (n : Nat) : List Byte
/-- UNVERIFIED (log 11). SHAKE256 of the bytes, `n` bytes long (25 R450). -/
opaque shake256 (n : Nat) (bytes : List Byte) : List Byte
/-- UNVERIFIED (log 11). Whether `sig` is an Ed448 signature of `msg` under `key` (25 R450). -/
opaque ed448Verify (key msg sig : List Byte) : Bool
/-- UNVERIFIED (log 11). The Ed448 signature of `msg` by the device key (25 R452). -/
opaque ed448Sign (msg : List Byte) : List Byte
/-- UNVERIFIED (log 11). The public key fused into the package (25 R450). -/
opaque publicKey : List Byte
/-- UNVERIFIED (log 11). A part of a firmware image whose layout the spec leaves open: 0 version, 1 security version, 2 digest,
3 signature, 4 body (25 R450). -/
opaque imagePart (part : Nat) (image : List Byte) : List Byte
/-- UNVERIFIED (log 11). The header bytes that a signature covers (25 R450). -/
opaque headerBytes (version secver : Nat) (digest : List Byte) : List Byte
/-- UNVERIFIED (log 11). The bytes of an attestation report before its signature (25 R452). -/
opaque reportBytes (nonce header0 header1 : List Byte) (active rollback : Nat) : List Byte
/-- UNVERIFIED (log 29). The reply that lists every sensor reading (25 R454 Table 25.4). -/
opaque readingsBytes (readings : List Nat) : List Byte
/-- UNVERIFIED (log 29). Event code and event data of a log entry of a kind (25 R449 Table 25.2). -/
opaque logCode (kind : Nat) : Nat
opaque logData (kind x y : Nat) : List Byte
/-- UNVERIFIED (log 29). Severity of a scrub finding or an uncorrectable error (25 R449). -/
opaque logSev (kind : Nat) : Nat
/-- UNVERIFIED (log 13). What a read of register-space offset `off` that the spec does not list returns at step `n`. -/
opaque regOpen (off n : Nat) : Word
/-- DESIGN CHOICE (log 19). A value the spec states no result for, by the place that asks and its operands. -/
opaque openValue (place : Nat) (x y : Nat) : Nat

end Sys2Proof.Config
end

