-- ==== Sys2Proof/Machine/State.lean ====
section
/-! DEFINITION. The state of the whole package as plain data (INVENTORY.md, State), its reset value, and the two reason
types. Sparse parts are tables (Word.lean, Tab): a missing entry reads as that part's reset value. -/

namespace Sys2Proof.Machine

/-- No step of this machine stops with a fault: every fault of the spec is an effect and takes a next state (06 R146).
The one constructor is raised by nobody; it keeps the type inhabited, and is safe. -/
inductive Fault where
  /-- Raised by nobody. Safe. -/
  | unreachable
deriving DecidableEq, Repr

/-- Why a step has no meaning. -/
inductive Refusal where
  /-- Raised by an arm of exec whose instruction is not modelled. Safe: no claim can be proved of it. -/
  | notModelled (mnemonic : String)
deriving DecidableEq, Repr

/-! ## A context -/

/-- Why a context waits (01 R13, 08 R223). -/
inductive Wait where
  /-- A presence bit is clear (01 R12). -/
  | presence
  /-- A pop of an empty queue is not an issue wait; a push to a full queue is (15 R336). -/
  | qFull (q : Nat)
  /-- Mailbox `m` holds no value, for JR, CALLR (04 R103, 05 R126). -/
  | mboxRead (m : Nat)
  /-- WAITM on mailbox `m` (05 R135). -/
  | mbox (m : Nat)
  /-- The presence bit that a WAITM waited for has been set: it completes, whoever takes the value (05 R135, 09 R251). -/
  | seen
  /-- WAITA or JOINW watches the line with this memory key (05 R133, 09 R242). -/
  | watch (line : Nat)
  /-- LDVW waits for a version (12 R325). -/
  | version (line goal : Nat)
  /-- BARW or BARAW is registered at a barrier (09 R248). -/
  | barrier
  /-- IDLE until this time (05 R132). -/
  | idle (deadline : Nat)
  /-- IDLE for 0 cycles, from this time: until another low context has issued (05 R132). -/
  | idleTurn (start : Nat)
  /-- Another agent owes an answer to the instruction at the PC (09 R245, 12 R323, 21 R413). -/
  | reply
  /-- Earlier accesses of the context are not yet performed (11 R298, R300). -/
  | drain
  /-- A byte above a copy watermark (10 R267). -/
  | mark (off : Nat)
  /-- A tile is FILLING or DRAINING (10 R265). -/
  | tile (n : Nat)
  /-- A destination has no room (09 R238, R243; 15 R342). -/
  | room
  /-- A copy channel's watermark, for WMWAIT (15 R350). -/
  | wmark (ch copy : Nat) (goal : Nat) (d : Reg)
  /-- The copy that a WMWAIT waited on has ended, and this is its result (15 R350). -/
  | wmEnd (d : Reg) (v : Word)
  /-- The image with this key still reads PEND = 1 (21 R408). -/
  | pend (key : Nat)
  /-- A TLBI waits for the accesses and commits issued before it: those below these numbers (21 R414). -/
  | tlbi (reqs commits kind asid va : Nat) (pkg : Bool)
deriving DecidableEq, Repr

/-- Whether a context issues (01 R13, 08 R205). `parked` leaves the core to others; `stalled` does not. -/
inductive Run where
  | free
  | runnable
  | stalled (w : Wait)
  | parked (w : Wait)
deriving DecidableEq, Repr

/-- An effect about to be delivered: id, EFFARG, EFFADDR, EFFLANES (06 R146, 21 R403). -/
structure Raise where
  eff   : Nat
  arg   : Word := 0
  addr  : Word := 0
  lanes : Word := 1
  /-- Raised by a stack-class access (01 R24). -/
  stk   : Bool := false
deriving DecidableEq, Repr

/-- General, vector and predicate registers with their presence bits (01 R9, R11). -/
structure Regs where
  g  : Vector Word 32
  v  : Vector VWord 32
  p  : Vector Word 8
  gp : BitVec 32
  vp : BitVec 32
  pp : BitVec 8
deriving DecidableEq, Repr

def Regs.reset : Regs :=
  ⟨Vector.replicate 32 0, Vector.replicate 32 0, Vector.replicate 8 0, BitVec.allOnes 32, BitVec.allOnes 32, BitVec.allOnes 8⟩

/-- The bit buffer and its four registers (05 R137). -/
structure BitBuf where
  bits : BitVec 128
  bbn  : Word
  pos  : Word
  lim  : Word
  lo   : Word
  hi   : Word
deriving DecidableEq, Repr

def BitBuf.reset : BitBuf := ⟨0, 0, 0, 0, 0, 0⟩

/-- EFFID, EFFARG, EFFADDR, EFFLANES (01 Table 1.2). -/
structure EffRegs where
  id    : Word
  arg   : Word
  addr  : Word
  lanes : Word
deriving DecidableEq, Repr

/-- Numeric registers (03 R72, R79; 07 R171). -/
structure NumRegs where
  flags   : Word
  flagen  : Word
  vt      : Word
  seed    : Word
  /-- The stochastic-rounding counter. -/
  srCount : Word
deriving DecidableEq, Repr

/-- Identity registers (01 Table 1.2, 08 R207). -/
structure Ident where
  lid    : Word
  task   : Word
  launch : Word
  org    : Vector Word 4
  ext    : Vector Word 4
  west   : Word
  east   : Word
  north  : Word
  south  : Word
  rectw  : Word
  recth  : Word
deriving DecidableEq, Repr

def Ident.reset : Ident := ⟨0, 0, 0, Vector.replicate 4 0, Vector.replicate 4 0, 0, 0, 0, 0, 0, 0⟩

/-- The stored fields of TSTAT (01 R16); RASC and MASK are derived. -/
structure Stat where
  emrg : Bool
  dscd : Bool
  sup  : Bool
deriving DecidableEq, Repr

/-- Snapshot and transaction (12 R320, R323). -/
structure Tx where
  ts    : Word
  opened : Bool
  cfl   : Bool
  rvk   : Bool
  logn  : Nat
  lcap  : Nat
  lbase : Nat
  /-- Position in the order in which snapshots were opened (10 R286). -/
  seq   : Nat
deriving DecidableEq, Repr

def Tx.reset : Tx := ⟨0, false, false, false, 0, 0, 0, 0⟩

/-- Stack carve-out registers and PTROOT (01 R22, 10 R272). -/
structure Space where
  sklo   : Word
  skhi   : Word
  ovf    : Word
  ptroot : Word
deriving DecidableEq, Repr

/-- A continuation record, Tables 6.3 and 6.4, without its segment (06 R152). -/
structure CRec where
  gen    : Nat
  state  : Nat
  multi  : Bool
  vlane  : Bool
  pred   : PReg
  sup    : Bool
  emrg   : Bool
  effid  : Nat
  frame  : Nat
  pc     : Word
  flags  : Word
  hf     : Word
  hframe : Word
  g31    : Word
  epoch  : BitVec 16
  ctx    : Nat
  rdep   : Nat
  seglen : Nat
  g      : Vector Word 32
  p      : Vector Word 8
  bb     : BitBuf
  ras    : List (Word × Word)
deriving DecidableEq, Repr

def CRec.reset : CRec :=
  ⟨0, 0, false, false, 0, false, false, 0, 0, 0, 0, 0, 0, 0, 0, 0, 0, 0, Vector.replicate 32 0, Vector.replicate 8 0, BitBuf.reset, []⟩

/-- How an activation was started (08 R207). -/
inductive Started where
  | none
  /-- By a message; the slot's launch ends with it (08 R211). -/
  | message (launch : Nat)
  | launch (id : Nat)
  /-- A task or FORK arm, with its JOIN address, its queue fields and the path it began with (08 R214, R220, 09 R241). -/
  | task (launch : Nat) (join : Word) (qpri cls path : Nat)
deriving DecidableEq, Repr

/-- A child of a join counter in a deterministic launch (08 R220). -/
structure Sib where
  launch : Nat
  join   : Word
  path   : Nat
deriving DecidableEq, Repr

/-- An effect that waits for an instruction boundary (03 R81, 09 R231, 15 R346, 16 R367, 24 R436, 21 R408).
`wait` numbers the order in which effects became pending. -/
structure Pend where
  kind  : Nat
  raise : Raise
deriving DecidableEq, Repr

/-- A destination register of a long-latency result (01 R11). -/
inductive Dest where
  | none
  | g (r : Reg)
  | v (r : Reg)
  | p (r : PReg)
deriving DecidableEq, Repr

/-- An error that waits at a destination for its consumer (05 R121, 24 R436). -/
structure Poison where
  dest  : Dest
  raise : Raise
deriving DecidableEq, Repr

/-- One register context (01 R9 Table 1.1). -/
structure Ctx where
  run     : Run
  /-- When the context began to wait (08 R225). -/
  since   : Nat
  regs    : Regs
  pc      : Word
  /-- Return-address stack, oldest entry first (01 R25). -/
  ras     : List (Word × Word)
  rdep    : Nat
  bb      : BitBuf
  hf      : Word
  /-- The handling frame: 0 none, 1 the system handler (06 R152). -/
  hframe  : Word
  eff     : EffRegs
  num     : NumRegs
  ident   : Ident
  stat    : Stat
  tx      : Tx
  space   : Space
  epoch   : BitVec 16
  /-- The count of activation starts, from which EPOCH is taken (06 R154). -/
  starts  : BitVec 16
  sysRec  : CRec
  sysGen  : BitVec 16
  sysBusy : Bool
  /-- The time at which the open HMASK window closes (08 R203). -/
  hmask   : Option Nat
  /-- Q0-Q4, Q9-Q11 (01 Table 1.1). -/
  qs      : Tab (List Word)
  pend    : List Pend
  /-- Held asynchronous system effects, in the order they became pending (06 R155). -/
  held    : List Raise
  poison  : List Poison
  started : Started
  path    : Nat
  /-- SPAWNs of this activation (08 R220). -/
  spawns  : Nat
  /-- The activation's number; results of an ended activation match no context (01 R28). -/
  act     : Nat
  /-- When the PREEMPT now pending was raised (08 R224). -/
  preemptAt : Option Nat
  /-- A pending MIGRATE: when it was requested, and its target core (22 R421). -/
  migp    : Option (Nat × Nat)
  /-- The target that stays reserved for the activation's move (22 R422, R424). -/
  reserve : Option Nat
  /-- The move that a write of MIGR requested (22 R423). -/
  migr    : Option Word
  /-- The instruction at the PC is a BARAW whose arrival has been made: it resumes as BARW (09 R248). -/
  asBarw  : Bool
  /-- A RESUMED that the restore left to be sought (21 R408). -/
  resumed : Option Raise
  /-- When the activation started or was last moved (22 R421); when its SH cycle allowance began, and, while the system handler
  runs, the time that it had used (08 R202). -/
  startAt : Nat
  shFrom  : Nat
  /-- Flags and lanes of late operations of one boundary that had no enabled flag, and that boundary's stamp (03 R81). -/
  loose   : Word × Word × Nat
  /-- Flags that R81 has delivered since each live capture: by record address, 1 for the system record (06 R161). -/
  late    : Tab Word
  /-- The core that each live capture was made on: by record address, 1 for the system record (22 R424). -/
  origin  : Tab Nat
  /-- asBarw of each live capture: by record address, 1 for the system record. -/
  barw    : Tab Bool
  /-- Barrier slots (home core, slot) the activation has joined (22 R421). -/
  groups  : List (Nat × Nat)
deriving DecidableEq, Repr

def Ctx.reset : Ctx where
  run := .free
  since := 0
  regs := Regs.reset
  pc := 0
  ras := []
  rdep := 0
  bb := BitBuf.reset
  hf := 0
  hframe := 0
  eff := ⟨0, 0, 0, 0⟩
  num := ⟨0, 0, 0, 0, 0⟩
  ident := Ident.reset
  stat := ⟨false, false, false⟩
  tx := Tx.reset
  space := ⟨0, 0, 0, 0⟩
  epoch := 0
  starts := 0
  sysRec := CRec.reset
  sysGen := 0
  sysBusy := false
  hmask := none
  qs := []
  pend := []
  held := []
  poison := []
  started := .none
  path := 0
  spawns := 0
  act := 0
  preemptAt := none
  migp := none
  reserve := none
  migr := none
  asBarw := false
  resumed := none
  startAt := 0
  shFrom := 0
  loose := (0, 0, 0)
  late := []
  origin := []
  barw := []
  groups := []

/-! ## Packets, requests and results in flight -/

/-- A message on VN0 (09 R228, R229). -/
structure Msg where
  /-- Sender: core, context, activation and address of its SEND (09 R231). -/
  src    : Nat
  scx    : Nat
  sact   : Nat
  saddr  : Word
  desc   : Word
  chan   : Nat
  gen    : Nat
  /-- The logical id the sender named, with the sender's launch; none for an MCAST copy (08 R207). -/
  lid    : Option Nat
  launch : Nat
  /-- A landing: transform, local address, bytes (09 R229). -/
  land   : Option (Nat × Nat × List Byte)
  payload : List Word
  /-- The child of a deterministic join that sent it (08 R220). -/
  sib    : Option Sib
  /-- An MCAST copy that takes its channel from the receiver's match table when it arrives (09 R233). -/
  cast   : Bool
deriving DecidableEq, Repr

def Msg.tag (m : Msg) : Nat := fld m.desc 63 48
def Msg.dlr (m : Msg) : Bool := flag m.desc 33
def Msg.act (m : Msg) : Bool := flag m.desc 19

/-- A barrier update (09 R244 to R248, 15 R347). -/
inductive BarOp where
  | join (d : Reg)
  | leave
  | init (n : Nat)
  | arrive
  /-- BARW: register a waiter of a parity; BARAW arrives first. -/
  | wait (parity : Bool) (arrive : Bool)
  | credit (n : Nat)
  | debit (n : Nat)
  /-- A failed bound copy: address, bytes, item, COPYFAULT rather than COPYFAIL (09 R249). -/
  | mark (addr n item : Nat) (fault : Bool)
deriving DecidableEq, Repr

/-- A flit of a rank stream (17 R382): the producer slot and the message's number, and N for a header or the entries of an
entry flit, the last of its message or not. -/
inductive RankFlit where
  | head (sgnm : Bool) (pslot n mid : Nat)
  | body (pslot mid : Nat) (last : Bool) (entries : List Nat)
deriving DecidableEq, Repr

/-- What a VN0 packet carries. -/
inductive Body where
  | msg (m : Msg)
  | mailbox (m : Nat) (v : Word)
  | bar (slot : Nat) (op : BarOp)
  | dec (slot gen : Nat)
  | rank (stream : Nat) (f : RankFlit)
  /-- Keeps the place of the stream that rank command `cmd` has still to send (17 R382). -/
  | hold (cmd : Nat)
  /-- The header of item `item` of copy `copy` (15 R348). -/
  | cpym (copy item : Nat)
  /-- A rotation block: buffer (0 A, 1 B), slot and bytes (16 R370). -/
  | fwd (buf slot : Nat) (data : List Byte)
deriving DecidableEq, Repr

/-- A VN0 packet with its sending context and its target core (09 R230), or a rotation block on VN1 (16 R370). -/
structure Pkt where
  /-- Requests of the sender below this number are performed before it arrives (09 R230). -/
  after : Nat
  src  : Nat
  scx  : Nat
  sact : Nat
  dst  : Nat
  body : Body
  /-- It has reached the target and waits there for room; other packets to the core wait behind it (08 R198). -/
  waits : Bool
  /-- The launch and logical id that its target was resolved from (08 R213). -/
  to_  : Option (Nat × Nat)
deriving DecidableEq, Repr

/-- A packet held because its logical id is parked (21 R413). -/
structure HeldPkt where
  launch : Nat
  lid    : Nat
  pkt    : Pkt
deriving DecidableEq, Repr

/-- Where an access is served (01 R19, 10 R271). `dev` carries the leaf's VER and REPL bits and DMASK. -/
inductive Home where
  | spad (pid off : Nat)
  | dev (pa : Nat) (ver repl : Bool) (dmask : Nat)
  | host (pa : Nat)
  | peer (device pa : Nat)
  | regs (off : Nat)
deriving DecidableEq, Repr

/-- One part of an access: where it is served, and its length in bytes. -/
structure Piece where
  home : Home
  len  : Nat
deriving DecidableEq, Repr

/-- The operation a request carries out at its home (10 R254, 12 R308, 07 R189). -/
inductive MemOp where
  /-- Scalar load into a general register; `sx` sign-extends. -/
  | load (sx : Bool) (d : Reg)
  | store (data : List Byte)
  /-- AMO: operation code, operand, rounding code, FLAGEN at issue. -/
  | amo (op : Nat) (b : Word) (rm flagen : Nat) (d : Reg)
  | cas (e b : Word) (d : Reg)
  /-- Vector load: element size, lane and address of each piece, the lanes gathered so far, and the errors of lanes. -/
  | vload (esz : Nat) (lanes : List (Nat × Word)) (d : Reg) (acc : VWord) (bad : List (Nat × Raise))
  /-- Vector store: for each piece its bytes, and its lane and address; the lines that the instruction covers whole; the errors of
  lanes. -/
  | vstore (data : List (List Byte)) (lanes : List (Nat × Word)) (whole : List Nat) (bad : List (Nat × Raise))
  /-- VSCATADD lanes: format, rounding code, FLAGEN at issue, lane, address and operand of each piece (07 R194); the flags so far with
  their lanes (03 R81), and the errors of lanes. -/
  | adds (fmt rm flagen : Nat) (data : List (Nat × Word × Nat)) (fl mask : Nat) (bad : List (Nat × Raise))
  /-- BANKOP on one row: operation, rounding code, SAT, FETCH, FLAGEN at issue, lane mask, lanes (15 R352). -/
  | bank (op rm : Nat) (sat fetch : Bool) (flagen mask : Nat) (row : VWord)
deriving DecidableEq, Repr

/-- A memory request in flight (10 R254, 11 R302). -/
structure Req where
  no    : Nat
  pid   : Nat
  cx    : Nat
  act   : Nat
  pieces : List Piece
  op    : MemOp
  /-- It waits for the context's earlier requests (11 R298). -/
  rel   : Bool
  /-- Later accesses of the context wait for it (11 R302). -/
  acq   : Bool
  /-- It is never served from a read buffer of a port (24 R434). -/
  fresh : Bool
  /-- Address of the instruction and effective address (05 R121). -/
  iaddr : Word
  ea    : Word
  /-- The child of a deterministic join that issued it (08 R220). -/
  sib   : Option Sib
deriving DecidableEq, Repr

/-- The value of a result on its way to a register (01 R11, R12), or the error it brings (05 R121). -/
inductive Val where
  | g (v : Word)
  | v (v : VWord)
  | err (r : Raise) (v : VWord)
deriving DecidableEq, Repr

structure Result where
  pid  : Nat
  cx   : Nat
  act  : Nat
  dest : Dest
  val  : Val
deriving DecidableEq, Repr

/-- A pop of a queue register that has issued (15 R336). -/
structure Pop where
  q    : Nat
  cx   : Nat
  act  : Nat
  d    : Reg
deriving DecidableEq, Repr

/-- An MTAKE or MPEEK reservation (05 R134). -/
structure Take where
  m    : Nat
  cx   : Nat
  act  : Nat
  d    : Reg
  peek : Bool
deriving DecidableEq, Repr

/-! ## Core records -/

/-- A handler-table slot (08 R197). -/
structure HSlot where
  rpc   : Word
  gen   : Nat
  lnch  : Nat
  qb    : Nat
  privl : Bool
  msk   : Bool
  prio  : Bool
  valid : Bool
deriving DecidableEq, Repr

def HSlot.reset : HSlot := ⟨0, 0, 0, 0, false, false, false, false⟩

/-- A tile record (10 R259). -/
structure Tile where
  cols : Nat
  rows : Nat
  base : Nat
  /-- 0 EMPTY, 1 FILLING, 2 READY, 3 DRAINING. -/
  state : Nat
  scen : Bool
  scale : Nat
  zf   : Bool
  rnd  : Nat
  fmt  : Nat
  eoff : Nat
  estride : Nat
  rstride : Nat
  dcnt : Nat
  fch  : Nat
  /-- A copy in that was filling the tile has failed (10 Table 10.2). -/
  failed : Bool
deriving DecidableEq, Repr

def Tile.reset : Tile := ⟨0, 0, 0, 0, false, 0, false, 0, 0, 0, 0, 0, 0, 0, false⟩

/-- A waiter at a barrier (09 R248). -/
structure Waiter where
  pid : Nat
  cx  : Nat
  act : Nat
  parity : Bool
deriving DecidableEq, Repr

/-- A barrier slot (08 R221) with its waiters and failure mark (09 R248, R249). -/
structure Bar where
  pend : Nat
  memb : Nat
  arrv : Nat
  ph   : Bool
  waiters : List Waiter
  failed : Option (Nat × Nat × Nat × Bool)
deriving DecidableEq, Repr

def Bar.reset : Bar := ⟨0, 0, 0, false, [], none⟩

/-- A copy channel (10 R266): its open copy, its destination range, and WM. -/
structure Chan where
  copy : Option Nat
  ranged : Bool
  lo   : Nat
  hi   : Nat
  mark : Nat
deriving DecidableEq, Repr

def Chan.reset : Chan := ⟨none, false, 0, 0, 0⟩

/-- A task record (08 R214). -/
structure Task where
  pc   : Word
  arg0 : Word
  arg1 : Word
  join : Word
  path : Nat
  home : Nat
  deps : Bool
  fmt  : Nat
  splitk : Bool
  cls  : Nat
  qpri : Nat
  cnt  : Nat
  launch : Nat
  id   : Nat
  /-- When it entered its Paddock queue, and when it reached the head (08 R217, R218). -/
  since : Nat
  headAt : Option Nat
deriving DecidableEq, Repr

/-- A pending-task slot (08 R215, 09 Table 9.4). -/
structure PSlot where
  gen  : Nat
  task : Option Task
deriving DecidableEq, Repr

/-- A start activation that waits for a context (08 R212). -/
structure Start where
  launch : Nat
  lid    : Nat
  addr   : Word
deriving DecidableEq, Repr

/-- A TLB entry: ASID, page base, page bytes, leaf (10 R275). -/
structure Tlb where
  asid : Nat
  base : Nat
  size : Nat
  leaf : Nat
deriving DecidableEq, Repr

/-- A subscription of the NI match table (09 R232). -/
structure Sub where
  tag  : Nat
  chan : Nat
  gen  : Nat
deriving DecidableEq, Repr

/-- One command of the matrix unit, with what its push recorded (16 R362, R363, R371 to R373). -/
structure MCmd where
  /-- 0 MMA, 1 MMAR, 2 MMASP, 3 ACCRD, 4 ACCZ, 5 MSCL. -/
  kind : Nat
  cx   : Nat
  act  : Nat
  iaddr : Word
  /-- The tiles that it names (12 R315). -/
  names : List Nat
  /-- Tile number of the accumulator (ACCRD: of Ta). -/
  tile : Nat
  ta   : Tile
  tb   : Tile
  tc   : Tile
  scaleA : Option Tile
  scaleB : Option Tile
  /-- Gk; ACCRD and MSCL: Gb. -/
  gk   : Word
  /-- The factor of MSCL. -/
  factor : Word
  sat  : Bool
  az   : Bool
  neg  : Bool
  flagen : Nat
  seed : Nat
  srn  : Nat
  /-- The issuing core's logical neighbours WEST and NORTH, and its launch (16 R370). -/
  west : Nat
  north : Nat
  launch : Nat
  /-- Requests of the context below this number are performed before the command runs (15 R356). -/
  after : Nat
deriving DecidableEq, Repr

/-- The accumulator block that a run holds in the unit: by output 32 × i + j, the element code and whether memory is still to
be written with it (16 R365). -/
structure MRun where
  tc   : Tile
  tile : Nat
  ib   : Nat
  jb   : Nat
  vals : List (Option (Nat × Bool))
deriving DecidableEq, Repr

/-- A forwarded block that waits in its sender or is on its way (16 R370). -/
structure MFwd where
  launch : Nat
  lid  : Nat
  buf  : Nat
  slot : Nat
  data : List Byte
deriving DecidableEq, Repr

/-- A status entry that waits for its queue (16 R366). -/
structure MStat where
  act  : Nat
  word : Word
deriving DecidableEq, Repr

/-- The matrix unit (16). -/
structure MUnit where
  cmds : List MCmd
  run  : Option MRun
  /-- Full rotation slots by number: A slots 0 and 1, B slots 2 and 3. -/
  slots : Tab (List Byte)
  /-- Outgoing block of the A and of the B buffer. -/
  out  : Tab MFwd
  stat : List MStat
deriving DecidableEq, Repr

/-- One command of the rank unit (17 R379, R380, R393). -/
structure RCmd where
  id   : Nat
  /-- 0 RSORT, 1 REMIT, 2 RKDENSE, 3 RKGRAD. -/
  kind : Nat
  cx   : Nat
  act  : Nat
  iaddr : Word
  /-- The tiles that it names (12 R315). -/
  names : List Nat
  tile : Nat
  /-- RSORT: Td, Ta. REMIT: Tp, Ts. RKDENSE: Td, Tp. RKGRAD: Td, Tp, Tg, DQT. -/
  t0   : Tile
  t1   : Tile
  t2   : Tile
  t3   : Tile
  desc : Word
  targets : List Nat
  launch : Nat
  flagen : Nat
  seed : Nat
  srn  : Nat
  /-- Requests of the context below this number are performed before its stream arrives (09 R230). -/
  after : Nat
deriving DecidableEq, Repr

/-- A sequence slot (17 R383). -/
structure Seqn where
  cut : Bool
  q   : List Nat
deriving DecidableEq, Repr

/-- A receive stream (17 R385 to R389). -/
structure Strm where
  /-- 0 IDLE, 1 ARMED, 2 DONE, 3 HELD. -/
  state : Nat
  /-- The state that a HELD stream was saved in. -/
  saved : Nat
  owner : Nat
  tw    : Tile
  rect  : Option Tile
  ovb   : Nat
  stop  : Nat
  free  : Bool
  seq   : Nat
  np    : Nat
  margin : Int
  wmax  : Nat
  det   : Bool
  sums  : List Int
  pos   : Nat
  disc  : Nat
  ovl   : Bool
  /-- Producer slots seen, with their N. -/
  seen  : List (Nat × Nat)
  /-- Entries that have arrived and are not processed, in arrival order: producer slot, entry. -/
  queue : List (Nat × Nat)
  /-- Entries processed of each producer slot. -/
  did   : Tab Nat
  /-- Rounds processed. -/
  round : Nat
  /-- The messages whose headers were taken since the last arm: number, producer slot. -/
  froms : List (Nat × Nat)
  /-- Messages that are dropped whole and have flits still to come. -/
  drops : List Nat
  /-- Flits in the overflow buffer, in arrival order: producer slot, offset in its area, message (17 R392). -/
  held  : List (Nat × Nat × Nat)
  /-- Entries of the flits in the overflow buffer. -/
  heldEntries : Nat
  /-- Results that wait for their queue; a second word not yet there is made at the push (17 R389). -/
  results : List (Word × Option Word)
deriving DecidableEq, Repr

def Strm.reset : Strm where
  state := 0
  saved := 0
  owner := 0
  tw := Tile.reset
  rect := none
  ovb := 0
  stop := 0
  free := false
  seq := 0
  np := 1
  margin := 0
  wmax := 0
  det := false
  sums := []
  pos := 0
  disc := 0
  ovl := false
  seen := []
  queue := []
  did := []
  round := 0
  froms := []
  drops := []
  held := []
  heldEntries := 0
  results := []

/-- The rank unit (17). -/
structure RUnit where
  cmds : List RCmd
  seqs : Tab Seqn
  strms : Tab Strm
deriving DecidableEq, Repr

/-- The engines of a core. -/
structure CoreUnits where
  mat  : MUnit
  rank : RUnit
deriving DecidableEq, Repr

def CoreUnits.reset : CoreUnits := ⟨⟨[], none, [], [], []⟩, ⟨[], [], []⟩⟩


/-- One core (01 R9). -/
structure Core where
  m    : Vector Word 32
  mp   : BitVec 32
  mbStore : List (Nat × Word)
  takes : List Take
  qs   : Tab (List Word)
  pops : List Pop
  tiles : Tab Tile
  bars : Tab Bar
  chans : Tab Chan
  ht   : Tab HSlot
  subs : List Sub
  /-- The NI's pending buffer, oldest first (08 R198). -/
  pending : List Msg
  /-- The channels last chosen, low priority and priority 1 (08 R200). -/
  last0 : Nat
  last1 : Nat
  shandler : Word
  rsn  : Nat
  rq   : BitVec 4
  dlcnt : Word
  deccnt : Word
  /-- The deque with its spill area, bottom first (08 R216). -/
  deque : List Task
  ptasks : Tab PSlot
  tlb  : List Tlb
  /-- The low context that issues (08 R205). -/
  cur  : Nat
  /-- When each context last issued (08 R206). -/
  issued : Tab Nat
  /-- Context numbers, with launches and the step of the load, marked by a core load (21 R408). -/
  dscd : List (Nat × Nat × Nat)
  starts : List Start
  /-- Launches that started this core. -/
  launches : List Nat
  /-- The step of the last save of the core, and the launches for which it has been loaded since (21 R409). -/
  savedAt : Option Nat
  back : List Nat
  unit : CoreUnits
deriving DecidableEq, Repr

def Core.reset : Core where
  m := Vector.replicate 32 0
  mp := 0
  mbStore := []
  takes := []
  qs := []
  pops := []
  tiles := []
  bars := []
  chans := []
  ht := []
  subs := []
  pending := []
  last0 := 63
  last1 := 63
  shandler := 0
  rsn := 0
  rq := 0
  dlcnt := 0
  deccnt := 0
  deque := []
  ptasks := []
  tlb := []
  cur := 0
  issued := []
  dscd := []
  starts := []
  launches := []
  savedAt := none
  back := []
  unit := CoreUnits.reset

/-! ## Copies -/

/-- Where an item of a copy is delivered (15 R343, R348). -/
inductive CopyDst where
  /-- The issuing core's local window. -/
  | local (off : Nat)
  /-- An effective address. -/
  | ea (a : Word)
  /-- A local offset in the core that `lid` names at delivery. -/
  | lid (lid off : Nat)
  /-- A CPYM receiver: its core, the tile it lands in, the offset, and the landing base once the header has arrived. -/
  | recv (core tile off : Nat) (base : Option Nat)
deriving DecidableEq, Repr

/-- A segment of an item: number, bytes and CRC result once read, retries, and its fate. -/
structure Seg where
  no    : Nat
  data  : Option (List Byte)
  resent : Bool
  /-- 0 outstanding, 1 delivered, 2 failed, 3 faulted, 4 never started. -/
  fate  : Nat
  /-- Lines of it written so far, where its last ones wait for room (10 R284, R286). -/
  put   : Nat
deriving DecidableEq, Repr

structure Item where
  pos  : Nat
  dst  : CopyDst
  segs : List Seg
  /-- No further segment starts (15 R345). -/
  stopped : Bool
  closed : Bool
deriving DecidableEq, Repr

/-- A copy in flight (15 R339). -/
structure Copy where
  id   : Nat
  pid  : Nat
  cx   : Nat
  act  : Nat
  ch   : Nat
  src  : Word
  len  : Nat
  fx   : Bool
  /-- Its barrier: launch and LID of the home core, slot; for CPYM the receiver's own slot (15 R342, R348). -/
  bar  : Option (Nat × Nat × Nat)
  cpym : Bool
  /-- Subscription multicast, and its tag: one entry for all receivers (15 R349). -/
  sub  : Bool
  tag  : Nat
  sup  : Bool
  launch : Nat
  ptroot : Word
  accepted : Bool
  after : Nat
  /-- Deliveries into a DRAINING tile are held while it lasts (10 R263). -/
  drains : List Nat
  /-- Tiles that this copy reads and holds DRAINING (10 Table 10.2). -/
  outs : List Nat
  items : List Item
  /-- Items that have ended and not been reported, in the order they ended (15 R344). -/
  ends : List Nat
  /-- The fate of the first failure (15 R349). -/
  first : Nat
deriving DecidableEq, Repr

/-! ## Versions and commits -/

/-- A versioned line: current timestamp, old versions newest first, and the commit that locks it (10 R280). -/
structure VLine where
  ts   : Nat
  olds : List (Nat × List Byte)
  lock : Option Nat
deriving DecidableEq, Repr

def VLine.reset : VLine := ⟨0, [], none⟩

/-- A live snapshot (10 R281). -/
structure Snap where
  act : Nat
  ts  : Nat
  seq : Nat
deriving DecidableEq, Repr

/-- One line of a commit: addresses, mask, bytes (12 R324). -/
structure CLine where
  va   : Nat
  pa   : Nat
  mask : Nat
  data : List Byte
  installed : Bool
deriving DecidableEq, Repr

/-- A COMMIT in progress (10 R283): its lines in locking order, and how many of them are locked. -/
structure Commit where
  id   : Nat
  pid  : Nat
  cx   : Nat
  act  : Nat
  d    : Reg
  ts   : Nat
  lines : List CLine
  locked : Nat
  stamp : Option Nat
deriving DecidableEq, Repr

/-- A request at the lead die or the routers (09 R232, 12 R323, 21 R413). -/
inductive Ask where
  | snap (d : Reg) (lcap lbase : Nat)
  | mapLid (d : Reg) (launch lid entry : Nat)
  | subTag (on : Bool) (tag : Nat)
  /-- SYSWR of a register of a context or core (21 R415). -/
  | sysWr (core cx reg : Nat) (v : Word)
deriving DecidableEq, Repr

structure Asked where
  pid : Nat
  cx  : Nat
  act : Nat
  ask : Ask
deriving DecidableEq, Repr

/-- Whose write a replicated write is: an access of a context, by core, context, activation and request number, a delivery of a
copy, or another agent's. -/
inductive Writer where
  | access (pid cx act no : Nat)
  | copy (act id : Nat)
  | other
deriving DecidableEq, Repr

/-- A replicated write the lead die has sequenced: number, address within a die, bytes, and the dies that are still to apply it
(10 R279). -/
structure RepW where
  seq  : Nat
  off  : Nat
  data : List Byte
  todo : List Nat
  by_  : Writer
deriving DecidableEq, Repr

/-! ## Launches -/

/-- Where a launch record came from (08 R210, 24 R444). -/
structure LSource where
  queue : Option Nat
  /-- The die whose device launch queue took it. -/
  die   : Nat
  user  : Bool
  ptroot : Word
deriving DecidableEq, Repr

/-- A launch (08 R208, R211, R213): its record as read, the map from LID to core with PARK, and its failures. -/
structure Launch where
  id    : Nat
  addr  : Word
  words : List Word
  src   : LSource
  /-- 0 waiting to be checked, 1 running, 2 ended. -/
  phase : Nat
  map   : Tab (Nat × Bool)
  /-- Cores still to be started. -/
  todo  : List Nat
  /-- LIDs that were started. -/
  begun : List Nat
  nfail : Nat
  eff   : Nat
  argw  : Word
  addrw : Word
  flid  : Nat
  /-- Start activations not yet ended. -/
  live  : Nat
deriving DecidableEq, Repr

/-- An ended task whose join counter is to be decremented (08 R219). -/
structure JoinDec where
  pid    : Nat
  cx     : Nat
  act    : Nat
  launch : Nat
  join   : Word
  path   : Nat
  sup    : Bool
  ptroot : Word
deriving DecidableEq, Repr

/-- A negative response to a message (09 R231). -/
structure Nack where
  pid : Nat
  cx  : Nat
  act : Nat
  raise : Raise
deriving DecidableEq, Repr

/-- A landing held in a deterministic launch until earlier siblings end (08 R220). -/
structure HeldLand where
  core : Nat
  pkt  : Pkt
  sib  : Sib
deriving DecidableEq, Repr

/-- A context that lives in an image: at `home` in device memory, or in a spill slot of its core (08 R225, 21 R406). `hid` holds
what the image does not: its effects still to come, its wait, and the other hidden state. -/
structure Saved where
  home : Nat
  pid : Nat
  cx  : Nat
  slot : Option Nat
  hid : Ctx
  /-- The step in which the image was taken (21 R408, R409). -/
  taken : Nat
deriving DecidableEq, Repr

/-- A saved core: what its image holds in device layouts, and what of its lists lies in scratchpad areas (21 R407; log 8). -/
structure CoreImg where
  serial : Nat
  pid  : Nat
  launch : Nat
  core : Core
  /-- It has been loaded, so that what it held is no longer in the image alone (08 R211). -/
  loaded : Bool
deriving DecidableEq, Repr

/-- One die's own parts (08 R214, R217; 09 R243; 10 R275). -/
structure Die where
  paddock : Tab (List Task)
  nextTask : Nat
  tlb     : List Tlb
  /-- Cores whose bit is set in the routers for a tag: (tag, core) (09 R232). -/
  routers : List (Nat × Nat)
  dlcnt   : Nat
deriving DecidableEq, Repr

def Die.reset : Die := ⟨[], 1, [], [], 0⟩

/-- A launch queue (24 R442 Table 24.6). -/
structure LQueue where
  base : Word
  ctl  : Word
  root : Word
  head : Nat
  tail : Nat
  err  : Bool
deriving DecidableEq, Repr

def LQueue.reset : LQueue := ⟨0, 0, 0, 0, 0, false⟩

/-- A Trace flit as sent (24 R437): number, virtual network, model, whether it is a data flit, and the payload bytes it stands for. -/
structure Flit where
  seq  : Nat
  vn   : Nat
  kind : Nat
  model : Nat
  data : List Byte
deriving DecidableEq, Repr

/-- A Trace port (24 R437 to R439). -/
structure Port where
  raw  : Nat
  cod  : Nat
  rty  : Nat
  rsy  : Nat
  peer : Nat
  up   : Bool
  /-- When the link went down, and whether it has been down for 10 ms. -/
  downAt : Option Nat
  dead : Bool
  /-- A resynchronisation is asked for. -/
  ask  : Bool
  txSeq : Nat
  rxSeq : Nat
  /-- Byte streams waiting to be sent and received, by virtual network. -/
  out  : Tab (List Byte)
  inn  : Tab (List Byte)
  /-- Flits sent and not acknowledged. -/
  unacked : List Flit
  /-- Credits used and not returned, by virtual network. -/
  credits : Tab Nat
  /-- Data flits accepted since the last rebuild, sent and received. -/
  txCount : Nat
  rxCount : Nat
  /-- Exponent counts, and the counts the code tables in use were built from, by direction, network and model. -/
  counts : Tab (List Nat)
  tables : Tab (List Nat)
  /-- Read buffer: line, time of its fetch (24 R434). -/
  lines : List (Nat × Nat × List Byte)
deriving DecidableEq, Repr

def Port.reset : Port :=
  ⟨0, 0, 0, 0, 0, false, none, true, false, 0, 0, [], [], [], [], 0, 0, [], [], []⟩

/-- A log entry (25 R449 Table 25.2). -/
structure LogEntry where
  time : Nat
  seq  : Nat
  sev  : Nat
  src  : Nat
  code : Nat
  data : List Byte
deriving DecidableEq, Repr

/-- A firmware bank (25 R450). -/
structure Bank where
  version : Nat
  secver : Nat
  digest : List Byte
  sig    : List Byte
  body   : List Byte
deriving DecidableEq, Repr

/-- A mailbox command that is running: its reply and result (25 R454). -/
structure FmRun where
  reply : List Byte
  res   : Nat
deriving DecidableEq, Repr

/-- Power cap (22 R426). -/
structure Cap where
  last  : Nat
  cap   : Nat
  fall  : Nat
  /-- Time of the last message that counts as heartbeat. -/
  beat  : Nat
  fallen : Bool
  /-- When the cap in force changed and BUD is still to be written. -/
  todo  : Option Nat
deriving DecidableEq, Repr

/-- A cluster's own state (22 R418 to R420). -/
structure Cluster where
  opened : Bool
  hot  : Bool
  temp : Nat
  pest : Nat
  bud  : Nat
  /-- When its sensor began to read invalid (25 R448). -/
  bad  : Option Nat
  /-- Its activity counters since the last estimate: 0 scalar issues, 1 vector issues, 2 bank row accesses, 3 NI flits, 4 rank entries,
  5 copy beats, 6 + f matrix-unit cycles of format f (22 R418). -/
  acts : Tab Nat
deriving DecidableEq, Repr

def Cluster.reset : Cluster := ⟨true, false, 0, 0, 20000, none, []⟩

/-- The parts of the package outside its dies: lead die and host registers (24), Farrier (25), caps (22). -/
structure Sys where
  /-- PKST (24 R431). -/
  lead : Nat
  lval : Bool
  devn : Nat
  /-- Bytes of each die's version store (10 R268). -/
  vstore : Nat
  ready0 : Word
  ready1 : Word
  ready2 : Word
  /-- Stacks taken out of service (25 R446). -/
  failed : Nat
  lqs  : Tab LQueue
  /-- The queue last served. -/
  lqLast : Nat
  ports : Tab Port
  /-- Read buffer of the PCIe port. -/
  pcie : List (Nat × Nat × List Byte)
  /-- MSI-X: mask bits, pending bits, messages sent, newest last (24 R444). -/
  msiMask : BitVec 256
  msiPend : BitVec 256
  msiSent : List Nat
  clusters : Tab Cluster
  stackTemps : Tab Nat
  /-- Inlet and outlet temperature, input voltage and current (25 R447). -/
  module : List Nat
  vbad : Option Nat
  tripped : Bool
  corrected : Tab Nat
  uncorrected : Tab Nat
  log  : List LogEntry
  logSeq : Nat
  banks : List Bank
  active : Nat
  /-- The image being staged: its bytes so far. -/
  stage : Option (List Byte)
  rollback : Nat
  fmcmd : Word
  fmdone : Bool
  fmovr : Bool
  fmres : Nat
  fmrlen : Nat
  fmrun : Option FmRun
  i3c  : List (List Byte)
  cap  : Cap
  /-- When power was last good. -/
  powerAt : Nat
  /-- Completion of the last host read: none for Unsupported Request (24 R433). -/
  hostRead : Option Word
  peerRead : Option Word
deriving DecidableEq, Repr

def Sys.reset : Sys where
  lead := 0
  lval := false
  devn := 0
  vstore := 0x300000000
  ready0 := 0
  ready1 := 0
  ready2 := 0
  failed := 0
  lqs := []
  lqLast := 31
  ports := []
  pcie := []
  msiMask := BitVec.allOnes 256
  msiPend := 0
  msiSent := []
  clusters := []
  stackTemps := []
  module := [0, 0, 0, 0]
  vbad := none
  tripped := false
  corrected := []
  uncorrected := []
  log := []
  logSeq := 0
  banks := [⟨0, 0, [], [], []⟩, ⟨0, 0, [], [], []⟩]
  active := 0
  stage := none
  rollback := 0
  fmcmd := 0
  fmdone := false
  fmovr := false
  fmres := 0
  fmrlen := 0
  fmrun := none
  i3c := []
  cap := ⟨0, 3400, 2040, 0, false, none⟩
  powerAt := 0
  hostRead := none
  peerRead := none


/-- Which agent moves next (log 3). -/
inductive Move where
  | issue (core cx : Nat)
  | event (i : Instr)
deriving DecidableEq, Repr

/-- Packets and accesses in flight. -/
structure Net where
  pkts  : List Pkt
  held  : List HeldPkt
  reqs  : List Req
  results : List Result
  nacks : List Nack
  asks  : List Asked
  joins : List JoinDec
  lands : List HeldLand
  /-- Watched lines that have been written (09 R251). -/
  dirty : List Nat
  nextReq : Nat
deriving DecidableEq, Repr

/-- A single-line commit that is held: whose write it is, its line, which it keeps locked, and its timestamp (10 R284, R286). -/
structure Single where
  by_   : Writer
  line  : Nat
  stamp : Nat
deriving DecidableEq, Repr

/-- Versions, commits and replication (10 R279 to R286). -/
structure Vers where
  lines : Tab VLine
  next  : Nat
  stable : Nat
  snaps : List Snap
  snapSeq : Nat
  commits : List Commit
  nextCommit : Nat
  /-- Since when an install on a line has been held (10 R286). -/
  heldAt : Tab Nat
  /-- Held single-line commits, in timestamp order. -/
  singles : List Single
  /-- Up to which timestamp an activation's LDVW acquires, where stable has not reached it (11 R307). -/
  acquires : List (Nat × Nat)
  repSeq : Nat
  reps  : List RepW
deriving DecidableEq, Repr

/-- The machine. -/
structure State where
  /-- The model's own: who moves next, which context issues, time, and the counter of free values (logs 3, 4). -/
  agenda : List Move
  pid    : Nat
  cx     : Nat
  time   : Nat
  stepNo : Nat
  ctxs   : Tab Ctx
  cores  : Tab Core
  dies   : Tab Die
  /-- All bytes of all memories, keyed as Ops.lean gives (10 R254, R268). -/
  mem    : List Host.Cell
  /-- Lines marked uncorrectable (10 R270). -/
  ue     : List Nat
  net    : Net
  vers   : Vers
  copies : List Copy
  nextCopy : Nat
  launches : List Launch
  nextLaunch : Nat
  nextAct : Nat
  /-- Saved context images, and the registry of saved device layouts (21 R406, R407; log 8). -/
  saved  : List Saved
  images : List CoreImg
  /-- The .spad images by routine address, as the runtime hands them over (08 R212; log 14). -/
  spads  : List (Word × List (Nat × List Byte))
  sys    : Sys
deriving DecidableEq, Repr

/-- The machine right after reset (25 R445; INVENTORY.md, State). -/
def State.reset : State where
  agenda := []
  pid := 0
  cx := 0
  time := 0
  stepNo := 0
  ctxs := []
  cores := []
  dies := []
  mem := []
  ue := []
  net := ⟨[], [], [], [], [], [], [], [], [], 0⟩
  vers := ⟨[], 1, 0, [], 0, [], 0, [], [], [], 0, []⟩
  copies := []
  nextCopy := 0
  launches := []
  nextLaunch := 1
  nextAct := 1
  saved := []
  images := []
  spads := []
  sys := Sys.reset

end Sys2Proof.Machine
end

