-- ==== Sys2Proof/Machine/Memory.lean ====
section
/-! DEFINITION. Bytes of memory: one canonical list of cells for every memory of the package, and the keys of each. A byte
that nothing has written reads as zero: DESIGN CHOICE (log 1). -/

namespace Sys2Proof.Machine

/-- What an unlisted address reads as. DESIGN CHOICE (log 1). -/
def Memory.blank : Byte := 0

/-- The canonical form: addresses strictly rising, no listed byte equal to an unlisted one. -/
def Memory.wf : List Host.Cell → Bool
  | [] => true
  | [(_, b)] => b != Memory.blank
  | (k, b) :: (j, c) :: m => k < j && b != Memory.blank && Memory.wf ((j, c) :: m)

def Memory.rd : List Host.Cell → Nat → Byte
  | [], _ => Memory.blank
  | (j, b) :: m, k => if k < j then Memory.blank else if j = k then b else Memory.rd m k

/-- The memory with byte v at k, in canonical form. -/
def Memory.wr : List Host.Cell → Nat → Byte → List Host.Cell
  | [], k, v => if v = Memory.blank then [] else [(k, v)]
  | (j, b) :: m, k, v =>
    if k < j then if v = Memory.blank then (j, b) :: m else (k, v) :: (j, b) :: m
    else if j = k then if v = Memory.blank then m else (k, v) :: m
    else (j, b) :: Memory.wr m k v

/-- The n bytes from k up. -/
def Memory.rds (m : List Host.Cell) : Nat → Nat → List Byte
  | _, 0 => []
  | k, n + 1 => Memory.rd m k :: Memory.rds m (k + 1) n

def Memory.wrs : List Host.Cell → Nat → List Byte → List Host.Cell
  | m, _, [] => m
  | m, k, b :: bs => Memory.wrs (Memory.wr m k b) (k + 1) bs

/-! Keys: device memory keeps its physical addresses (10 R268); the other memories follow above 2^48. -/

def spadKey (pid off : Nat) : Nat := 2 ^ 48 + pid * 2 ^ 21 + off
/-- The 32 KiB sparsity side memory (15 R351). -/
def sideKey (pid off : Nat) : Nat := 2 ^ 49 + pid * 2 ^ 15 + off
def hostKey (pa : Nat) : Nat := 2 ^ 50 + pa
def peerKey (device pa : Nat) : Nat := 2 ^ 52 + device * 2 ^ 48 + pa

/-- The memory key of a home; register windows hold no bytes. -/
def Home.key : Home → Nat
  | .spad pid off => spadKey pid off
  | .dev pa _ _ _ => pa
  | .host pa => hostKey pa
  | .peer d pa => peerKey d pa
  | .regs off => 2 ^ 53 + off

/-- Whether a home is the scratchpad of core pid. -/
def Home.own (pid : Nat) : Home → Bool
  | .spad p _ => p == pid
  | _ => false

/-- The 64-byte line of a key. -/
def lineOf (k : Nat) : Nat := k / 64 * 64

/-! ## Contexts, cores and dies by number -/

def ctxKey (pid cx : Nat) : Nat := pid * 8 + cx

namespace State

def ctxAt (s : State) (pid cx : Nat) : Ctx := Tab.get Ctx.reset s.ctxs (ctxKey pid cx)
def setCtxAt (s : State) (pid cx : Nat) (c : Ctx) : State := { s with ctxs := Tab.set s.ctxs (ctxKey pid cx) c }
def modCtxAt (s : State) (pid cx : Nat) (f : Ctx → Ctx) : State := s.setCtxAt pid cx (f (s.ctxAt pid cx))
/-- The executing context. -/
def ctx (s : State) : Ctx := s.ctxAt s.pid s.cx
def setCtx (s : State) (c : Ctx) : State := s.setCtxAt s.pid s.cx c
def modCtx (s : State) (f : Ctx → Ctx) : State := s.modCtxAt s.pid s.cx f
def coreAt (s : State) (pid : Nat) : Core := Tab.get Core.reset s.cores pid
def setCoreAt (s : State) (pid : Nat) (k : Core) : State := { s with cores := Tab.set s.cores pid k }
def modCoreAt (s : State) (pid : Nat) (f : Core → Core) : State := s.setCoreAt pid (f (s.coreAt pid))
def core (s : State) : Core := s.coreAt s.pid
def modCore (s : State) (f : Core → Core) : State := s.modCoreAt s.pid f
def dieAt (s : State) (d : Nat) : Die := Tab.get Die.reset s.dies d
def modDieAt (s : State) (d : Nat) (f : Die → Die) : State := { s with dies := Tab.set s.dies d (f (s.dieAt d)) }
def modNet (s : State) (f : Net → Net) : State := { s with net := f s.net }
def modVers (s : State) (f : Vers → Vers) : State := { s with vers := f s.vers }

/-- Whether some context is parked on a watch of this line (09 R251). -/
def watched (s : State) (line : Nat) : Bool :=
  s.ctxs.any (fun e => match e.2.run with
    | .parked (.watch l) => l == line
    | .parked (.version l _) => l == line
    | _ => false)
  || s.saved.any (fun v => match v.hid.run with
    | .parked (.watch l) => l == line
    | .parked (.version l _) => l == line
    | _ => false)

def rd (s : State) (k n : Nat) : List Byte := Memory.rds s.mem k n
def rdN (s : State) (k n : Nat) : Nat := natOf (s.rd k n)

/-- The lines that n bytes from k lie in. -/
def linesOf (k n : Nat) : List Nat :=
  if n = 0 then [] else (List.range ((lineOf (k + n - 1) - lineOf k) / 64 + 1)).map (fun i => lineOf k + 64 * i)

/-- Writes bytes from k up; a write of whole lines clears their uncorrectable marks (10 R270), and a write of a watched
line is noticed (09 R251). -/
def wr (s : State) (k : Nat) (bs : List Byte) : State :=
  let ls := linesOf k bs.length
  { s with
    mem := Memory.wrs s.mem k bs
    ue := if s.ue.isEmpty then [] else s.ue.filter (fun l => !(k ≤ l && l + 64 ≤ k + bs.length))
    net := { s.net with dirty := s.net.dirty ++ ls.filter (fun l => s.watched l && !s.net.dirty.contains l) } }

/-- The HBM stack of a device-memory address (10 R268). -/
def stackOf (pa : Nat) : Nat := pa / Config.dieBytes * 2 + pa % Config.dieBytes / 64 % 768 / 384

/-- Whether a key lies in device memory, on a stack out of service (25 R446, R448). -/
def lostStack (s : State) (k : Nat) : Bool := s.sys.failed != 0 && decide (k < Config.devBytes) && bitOf s.sys.failed (stackOf k)

/-- Whether accesses to a device-memory address are held, its stack not being ready (25 R446). -/
def stackHeld (s : State) (pa : Nat) : Bool := !flag s.sys.ready0 (10 + stackOf pa) && !bitOf s.sys.failed (stackOf pa)

/-- The key under which an old version is marked uncorrectable (10 R270). -/
def versionKey (line ts : Nat) : Nat := 2 ^ 100 * (line + 1) + ts * 64

/-- Whether any of n bytes from k lies in an uncorrectable line (10 R270), or on a stack out of service (25 R446). -/
def bad (s : State) (k n : Nat) : Bool :=
  (!s.ue.isEmpty && (linesOf k n).any (fun l => s.ue.contains l)) || s.lostStack k || s.lostStack (k + n - 1)

/-- Whether n bytes written from k leave part of an uncorrectable line as it is: such a line cannot be merged (10 R270). -/
def badPart (s : State) (k n : Nat) : Bool :=
  (!s.ue.isEmpty && (linesOf k n).any (fun l => s.ue.contains l && !(k ≤ l && l + 64 ≤ k + n))) || s.lostStack k || s.lostStack (k + n - 1)

/-- sp(off, n) of core pid as an unsigned integer (01 R30). -/
def sp (s : State) (pid off n : Nat) : Nat := s.rdN (spadKey pid off) n
def setSp (s : State) (pid off n v : Nat) : State := s.wr (spadKey pid off) (bytesOf n v)

end State

end Sys2Proof.Machine
end

