-- ==== Sys2Proof/Machine/Log.lean ====
section
/-! DEFINITION. What the package reports outside its programs: MSI-X messages (24 R444, 25 R454) and the persistent log
(25 R449). -/

namespace Sys2Proof.Machine

/-- MSI-X vector v is signalled: a masked vector becomes pending (24 R440, R444). -/
def State.msix (s : State) (v : Nat) : State :=
  if s.sys.msiMask.getLsbD v then { s with sys := { s.sys with msiPend := s.sys.msiPend ||| BitVec.ofNat 256 (2 ^ v) } }
  else { s with sys := { s.sys with msiSent := s.sys.msiSent ++ [v] } }

/-- The kinds of log entries. The spec gives their codes and most of their data no values: they are free (log 29). -/
inductive LogKind where
  | scrub | corrected | trip | outOfService | ready | cap | firmware | completion | uncorrectable
deriving DecidableEq, Repr

def LogKind.code : LogKind → Nat
  | .scrub => 0
  | .corrected => 1
  | .trip => 2
  | .outOfService => 3
  | .ready => 4
  | .cap => 5
  | .firmware => 6
  | .completion => 7
  | .uncorrectable => 8

/-- Severity (25 Table 25.2): stated for trips, out-of-service events and completions, by the meaning of the codes for the
others, and free for scrub findings and uncorrectable errors (log 29). -/
def LogKind.sev : LogKind → Nat
  | .scrub => Config.logSev 0 % 4
  | .corrected => 1
  | .trip => 3
  | .outOfService => 2
  | .ready => 0
  | .cap => 0
  | .firmware => 0
  | .completion => 2
  | .uncorrectable => Config.logSev 8 % 4

/-- One entry written whole; the oldest of 65,536 goes; MSI-X 255 for severity 2 and 3 (25 R449, R454). -/
def State.logWith (s : State) (k : LogKind) (src : Nat) (data : List Byte) : State :=
  let e : LogEntry := { time := (s.time - s.sys.powerAt) / Config.tickUs, seq := s.sys.logSeq % 2 ^ 32, sev := k.sev, src := src
                        code := Config.logCode k.code % 2 ^ 16, data := (data ++ List.replicate 16 0).take 16 }
  let all := s.sys.log ++ [e]
  let t := { s with sys := { s.sys with log := if 65536 < all.length then all.drop 1 else all, logSeq := s.sys.logSeq + 1 } }
  if 2 ≤ k.sev then t.msix 255 else t

/-- An entry whose data is free (log 29). -/
def State.logEvent (s : State) (k : LogKind) (src x y : Nat) : State := s.logWith k src (Config.logData k.code x y)

/-- The bytes of a log entry (25 Table 25.2). -/
def LogEntry.bytes (e : LogEntry) : List Byte :=
  bytesOf 8 e.time ++ bytesOf 8 (e.seq * 2 ^ 32 + e.sev % 4 * 2 ^ 24 + e.src % 256 * 2 ^ 16 + e.code) ++ e.data

/-- The log's source number for a memory key: its stack, or the die of the scratchpad (25 Table 25.2). -/
def logSrc (k : Nat) : Nat :=
  if k < Config.devBytes then 10 + State.stackOf k else 2 + (k - 2 ^ 48) / 2 ^ 29 % 8

/-- An uncorrectable error met at a memory key, logged (05 R121, 10 R270). -/
def State.errorAt (s : State) (k : Nat) : State := s.logEvent .uncorrectable (logSrc k) k 0

end Sys2Proof.Machine
end

