-- ==== Sys2Proof/Machine/Translate.lean ====
section
/-! DEFINITION. Effect ids (06 Table 6.1), the geometry of dies and cores, and the way from an effective address to the
place that serves it: address classes (01 R19), page tables and TLBs (10 R272 to R278), memory types (10 R271). -/

namespace Sys2Proof.Machine

/-! ## Effect ids (06 Table 6.1) -/

namespace Eff
def illegal : Nat := 0x001
def priv : Nat := 0x002
def align : Nat := 0x003
def page : Nat := 0x004
def perm : Nat := 0x005
def memerr : Nat := 0x006
def badtoken : Nat := 0x007
def stackovf : Nat := 0x008
def divz : Nat := 0x009
def numeric : Nat := 0x00A
def watchdog : Nat := 0x00B
def deadmsg : Nat := 0x00C
def preempt : Nat := 0x010
def resumed : Nat := 0x011
def migrate : Nat := 0x012
def copyfail : Nat := 0x020
def copyfault : Nat := 0x021
def decode : Nat := 0x022
def conflict : Nat := 0x030
def snaplost : Nat := 0x031
def detrefuse : Nat := 0x032
/-- Ids below 0x100 that Table 6.1 lists. -/
def listed (e : Nat) : Bool :=
  (1 ≤ e && e ≤ 0xC) || (0x10 ≤ e && e ≤ 0x12) || (0x20 ≤ e && e ≤ 0x22) || (0x30 ≤ e && e ≤ 0x32)
/-- The system class (06 R147). -/
def system (e : Nat) : Bool := (1 ≤ e && e ≤ 0x10) || e == 0x12 || e == 0x32
end Eff

def illegal (arg : Word) : Raise := { eff := Eff.illegal, arg := arg }
def privFault : Raise := { eff := Eff.priv }
def alignFault (addr : Word) : Raise := { eff := Eff.align, addr := addr }
def permFault (addr : Word) : Raise := { eff := Eff.perm, addr := addr }
def pageFault (addr : Word) (arg : Nat) : Raise := { eff := Eff.page, arg := W arg, addr := addr }
def memErr (at_ ea : Word) : Raise := { eff := Eff.memerr, arg := at_, addr := ea }

/-! ## Address of a core in the package -/

def dieOf (pid : Nat) : Nat := pid / 256 % 8
/-- Row and column of a core on its die (08 R208). -/
def rowOf (pid : Nat) : Nat := pid % 256 / 16
def colOf (pid : Nat) : Nat := pid % 16
/-- The core at a point of the package grid (08 R208). -/
def gridCore (col row : Nat) : Nat := (row / 16 * 4 + col / 16) * 256 + row % 16 * 16 + col % 16
/-- Cluster of a core: 4 by 4 cores, 16 to a die, and the position within it (15 R348). -/
def clusterOf (pid : Nat) : Nat := rowOf pid / 4 * 4 + colOf pid / 4
def posInCluster (pid : Nat) : Nat := rowOf pid % 4 * 4 + colOf pid % 4

namespace State

def rdW (s : State) (k : Nat) : Word := W (s.rdN k 8)
def wrW (s : State) (k : Nat) (w : Word) : State := s.wr k (bytesOf 8 w.toNat)

end State

/-! ## Address classes (01 R19) -/

/-- What an access does with the bytes (10 R274). -/
inductive Acc where
  | read | write | rmw | fetch
deriving DecidableEq, Repr

/-- The classes of Table 1.4. -/
inductive Cls where
  | spad (off : Nat)
  | core (pid off : Nat)
  | hole
  | trans
deriving DecidableEq, Repr

def classOf (ea : Nat) : Cls :=
  if ea < 0x180000 then .spad ea
  else if ea < 0x1000000000 then .hole
  else if ea < 0x1800000000 then
    let d := (ea - 0x1000000000) / 0x100000000
    let o := (ea - 0x1000000000) % 0x100000000
    if 0x20000000 ≤ o ∨ 0x180000 ≤ o % 0x200000 then .hole else .core (d * 256 + o / 0x200000) (o % 0x200000)
  else if ea < 0x10000000000 then .hole
  else .trans

/-! ## Page tables (10 R273, R274) -/

/-- The virtual-address index and the shift of a level (Table 10.6). -/
def levelIndex (lv va : Nat) : Nat :=
  if lv = 1 then bitsOf va 51 40 else if lv = 2 then bitsOf va 39 30 else if lv = 3 then bitsOf va 29 21 else bitsOf va 20 16
def levelShift (lv : Nat) : Nat := if lv = 2 then 30 else if lv = 3 then 21 else 16

/-- The bytes of the register space (24 R431, 25 R445). -/
def regSpace : Nat := 2 ^ 24

/-- The first address past the physical space of a memory type (10 R268, Table 10.4). -/
def spaceEnd (mt : Nat) : Nat := if mt = 0 ∨ mt = 2 then Config.devBytes else if mt = 1 then 2 ^ 48 else regSpace

/-- Whether an entry found at a level is malformed (10 R274). -/
def entryMalformed (lead lv e : Nat) : Bool :=
  let mt := bitsOf e 9 8
  let ver := bitOf e 6
  let repl := bitOf e 7
  let pa := bitsOf e 63 32 * 2 ^ 16
  let size := 2 ^ levelShift lv
  if !bitOf e 1 then lv == 4 || bitsOf e 31 2 != 0
  else
    lv == 1 || bitsOf e 27 25 != 0 || bitsOf e 15 10 != 0 || bitOf e 2 || pa % size != 0 || (bitOf e 24 && lv != 3)
    || (ver && repl) || ((ver || repl) && mt != 0) || (repl && !bitOf e (16 + lead)) || (!repl && bitsOf e 23 16 != 0)
    || pa + size > spaceEnd mt

/-- A page found by a walk: the leaf and its level. -/
structure Leaf where
  entry : Nat
  level : Nat
deriving DecidableEq, Repr

def Leaf.mt (l : Leaf) : Nat := bitsOf l.entry 9 8
def Leaf.pa (l : Leaf) (va : Nat) : Nat := bitsOf l.entry 63 32 * 2 ^ 16 + va % 2 ^ levelShift l.level

/-- The walk from a level down, `n` levels at most. -/
def State.walkFrom (s : State) (va : Nat) : Nat → Nat → Nat → Except Raise Leaf
  | 0, lv, _ => .error (pageFault (W va) lv)
  | n + 1, lv, table =>
    let e := s.rdN ((table + 8 * levelIndex lv va) % 2 ^ 48) 8
    if !bitOf e 0 then .error (pageFault (W va) lv)
    else if entryMalformed s.sys.lead lv e then .error (pageFault (W va) (lv + 16))
    else if bitOf e 1 then .ok ⟨e, lv⟩
    else s.walkFrom va n (lv + 1) (bitsOf e 63 32 * 2 ^ 16)

/-- The four-level walk of R273 under a PTROOT. -/
def State.walk (s : State) (ptroot : Word) (va : Nat) : Except Raise Leaf :=
  s.walkFrom va 4 1 (fld ptroot 47 16 * 2 ^ 16)

/-- Permission of a leaf at a level (10 R274). -/
def Leaf.allows (l : Leaf) (sup : Bool) (acc : Acc) : Bool :=
  (sup || bitOf l.entry 5) &&
  (match acc with
    | .read => true
    | .write => bitOf l.entry 3
    | .rmw => bitOf l.entry 3
    | .fetch => bitOf l.entry 4)

/-- Whether a device address lies in a version store (10 R268). -/
def State.inStore (s : State) (pa : Nat) : Bool := s.sys.vstore != 0 && Config.dieBytes - s.sys.vstore ≤ pa % Config.dieBytes

/-- The home of an address under a leaf, for an access of n bytes, with the rules of the memory type (10 R271, R268). -/
def State.homeOf (s : State) (l : Leaf) (acc : Acc) (va n : Nat) (scalar : Bool) : Except Raise Home :=
  let pa := l.pa va
  if l.mt = 0 then
    if s.inStore pa then .error (permFault (W va))
    else .ok (.dev pa (bitOf l.entry 6) (bitOf l.entry 7) (bitsOf l.entry 23 16))
  else if l.mt = 1 then if acc = .rmw then .error (permFault (W va)) else .ok (.host pa)
  else if l.mt = 2 then .ok (.peer (bitsOf l.entry 31 28) pa)
  else if acc = .rmw ∨ !scalar ∨ (n ≠ 4 ∧ n ≠ 8) then .error (permFault (W va)) else .ok (.regs pa)

/-! ## TLBs (10 R275, R277) -/

def Tlb.hit (t : Tlb) (asid va : Nat) : Bool := t.asid == asid && t.base ≤ va && va < t.base + t.size

/-- A leaf with another page address, in units of 64 KiB. -/
def Leaf.withPa (l : Leaf) (p : Nat) : Leaf := { l with entry := l.entry % 2 ^ 32 + p % 2 ^ 32 * 2 ^ 32 }

/-- The leaf of the first page of a group, as the leaf of its page `i` gives it (10 R276). -/
def Leaf.groupBase (l : Leaf) (i : Nat) : Leaf := l.withPa (bitsOf l.entry 63 32 + 2 ^ 32 - 32 * i)

/-- The leaf through which an entry translates an address: an entry of a group of 32 pages of 2 MiB holds the leaf of its first page
(10 R276). -/
def Tlb.leafOf (t : Tlb) (va : Nat) : Leaf :=
  let l : Leaf := ⟨t.leaf, if t.size = 2 ^ 30 then 2 else if t.size = 2 ^ 16 then 4 else 3⟩
  if t.size = 2 ^ 26 then l.withPa (bitsOf t.leaf 63 32 + 32 * (va / 2 ^ 21 % 32)) else l

/-- The entry that a leaf used for an address makes: a leaf with RUN makes one of its whole group (10 R275, R276; log 61). -/
def Leaf.tlb (l : Leaf) (asid va : Nat) : Tlb :=
  if l.level = 3 ∧ bitOf l.entry 24 then ⟨asid, va / 2 ^ 26 * 2 ^ 26, 2 ^ 26, (l.groupBase (va / 2 ^ 21 % 32)).entry⟩
  else
    let size := 2 ^ levelShift l.level
    ⟨asid, va / size * size, size, l.entry⟩

/-- An entry added to a TLB of a capacity; the oldest leaves a full one. DESIGN CHOICE (log 12). -/
def tlbAdd (cap : Nat) (t : Tlb) (l : List Tlb) : List Tlb :=
  if l.any (fun u => u.asid == t.asid && u.base == t.base && u.size == t.size) then l
  else if l.length < cap then l ++ [t] else l.drop 1 ++ [t]

/-- The leaf that translates an address for a core: the micro-TLB, the die's TLB, else a walk. -/
def State.leafFor (s : State) (pid : Nat) (ptroot : Word) (va : Nat) : Except Raise Leaf :=
  let asid := fld ptroot 15 0
  match (s.coreAt pid).tlb.find? (fun t => t.hit asid va) with
  | some t => .ok (t.leafOf va)
  | none =>
    match (s.dieAt (dieOf pid)).tlb.find? (fun t => t.hit asid va) with
    | some t => .ok (t.leafOf va)
    | none => s.walk ptroot va

/-- The TLBs after a leaf has been used for an address (10 R275). -/
def State.fillTlb (s : State) (pid : Nat) (ptroot : Word) (va : Nat) (l : Leaf) : State :=
  let t := l.tlb (fld ptroot 15 0) va
  let s1 := s.modCoreAt pid (fun k => { k with tlb := tlbAdd 64 t k.tlb })
  s1.modDieAt (dieOf pid) (fun d => { d with tlb := tlbAdd 6144 t d.tlb })

/-- Where an access of n bytes at ea is served: ALIGN, class, translation, permission and memory type, in the order of
R19, without a stack redirection. `natural` asks for a multiple of n. -/
def State.locate (s : State) (pid : Nat) (ptroot : Word) (sup : Bool) (acc : Acc) (ea : Word) (n : Nat) (natural scalar : Bool) :
    Except Raise (Home × Option Leaf) :=
  let a := ea.toNat
  if natural && n != 0 && a % n != 0 then .error (alignFault ea)
  else if 2 ^ 52 ≤ a then .error (alignFault ea)
  else match classOf a with
    | .spad off => if acc = .fetch then .error (permFault ea) else .ok (.spad pid off, none)
    | .core p off => if acc = .fetch then .error (permFault ea) else .ok (.spad p off, none)
    | .hole => .error (pageFault ea 0)
    | .trans =>
      match s.leafFor pid ptroot a with
      | .error r => .error r
      | .ok l =>
        if !l.allows sup acc then .error (permFault ea)
        else match s.homeOf l acc a n scalar with
          | .error r => .error r
          | .ok h => .ok (h, some l)

/-- Whether an address lies in the local scratchpad window (01 Table 1.4). -/
def inLocal (ea : Nat) : Bool := ea < 0x180000

end Sys2Proof.Machine
end

