-- ==== Sys2Proof/Machine/Ops.lean ====
section
/-! DEFINITION. The shared operations: the issue of an instruction, register operands with their presence bits (01 R10 to
R13), the end of an activation (01 R28), taking an effect and returning from one (06), with the records and tokens. -/

namespace Sys2Proof.Machine

abbrev Out := Host.Outcome State Fault Refusal

/-! ## Issue of an instruction -/

/-- Why an instruction did not complete: it raised an effect before it changed anything (01 R30), it waits (01 R13), or it
ended in a state of its own (a control transfer, an end, a delivery). -/
inductive Halt where
  | raise (r : Raise)
  /-- An error that waited at a destination meets its consumer (05 R121). -/
  | poison (d : Dest) (r : Raise)
  | wait (w : Wait)
  /-- A wait that is a switch point whatever the S bit (05 R133, R135, 09 R242, R248). -/
  | park (w : Wait)
  | stop (s : State)

/-- A description under execution: it sees and changes the state; a halt discards what it changed. -/
abbrev Act (α : Type) := StateT State (Except Halt) α

def Act.raise {α : Type} (r : Raise) : Act α := fun _ => .error (.raise r)
def Act.wait {α : Type} (w : Wait) : Act α := fun _ => .error (.wait w)
def Act.park {α : Type} (w : Wait) : Act α := fun _ => .error (.park w)
def Act.stop {α : Type} (s : State) : Act α := fun _ => .error (.stop s)
/-- Raises when b holds. -/
def Act.check (b : Bool) (r : Raise) : Act Unit := if b then Act.raise r else pure ()
def Act.waitIf (b : Bool) (w : Wait) : Act Unit := if b then Act.wait w else pure ()
def Act.upd (f : State → State) : Act Unit := fun s => .ok ((), f s)
def Act.ctx : Act Ctx := fun s => .ok (s.ctx, s)
def Act.core : Act Core := fun s => .ok (s.core, s)
def Act.updCtx (f : Ctx → Ctx) : Act Unit   := Act.upd (fun s => s.modCtx f)
def Act.updCore (f : Core → Core) : Act Unit   := Act.upd (fun s => s.modCore f)


/-! ## Registers -/

def Regs.getG (r : Regs) (i : Reg) : Word := if i = 0 then 0 else r.g[i.toNat]
def Regs.setG (r : Regs) (i : Reg) (x : Word) : Regs := if i = 0 then r else { r with g := r.g.set i.toNat x }
def Regs.getP (r : Regs) (i : PReg) : Word := if i = 0 then BitVec.allOnes 64 else r.p[i.toNat]
def Regs.setP (r : Regs) (i : PReg) (x : Word) : Regs := if i = 0 then r else { r with p := r.p.set i.toNat x }
def Regs.getV (r : Regs) (i : Reg) : VWord := r.v[i.toNat]
def Regs.setV (r : Regs) (i : Reg) (x : VWord) : Regs := { r with v := r.v.set i.toNat x }

def setBit {n : Nat} (b : BitVec n) (i : Nat) (on : Bool) : BitVec n :=
  if on then b ||| BitVec.ofNat n (2 ^ i) else b &&& ~~~ BitVec.ofNat n (2 ^ i)

/-- Presence of a destination register (01 R11). -/
def Regs.present (r : Regs) : Dest → Bool
  | .none => true
  | .g i => r.gp.getLsbD i.toNat
  | .v i => r.vp.getLsbD i.toNat
  | .p i => r.pp.getLsbD i.toNat

def Regs.setPresent (r : Regs) (on : Bool) : Dest → Regs
  | .none => r
  | .g i => { r with gp := setBit r.gp i.toNat on }
  | .v i => { r with vp := setBit r.vp i.toNat on }
  | .p i => { r with pp := setBit r.pp i.toNat on }

/-- Whether every presence bit is set (01 R13). -/
def Regs.allPresent (r : Regs) : Bool := r.gp == BitVec.allOnes 32 && r.vp == BitVec.allOnes 32 && r.pp == BitVec.allOnes 8

def Ctx.g (c : Ctx) (i : Reg) : Word := c.regs.getG i
def Ctx.setG (c : Ctx) (i : Reg) (x : Word) : Ctx := { c with regs := c.regs.setG i x }
def Ctx.setP (c : Ctx) (i : PReg) (x : Word) : Ctx := { c with regs := c.regs.setP i x }
def Ctx.setV (c : Ctx) (i : Reg) (x : VWord) : Ctx := { c with regs := c.regs.setV i x }

/-- Interlock on one register: wait for presence (01 R12), then meet an error left there (05 R121). -/
def Act.interlock (d : Dest) : Act Unit := fun s =>
  if !s.ctx.regs.present d then .error (.wait .presence)
  else match s.ctx.poison.find? (fun p => p.dest == d) with
    | some p => .error (.poison d p.raise)
    | none => .ok ((), s)

/-- Reads a general register (01 R12). -/
def Act.rdG (r : Reg) : Act Word := do
  Act.interlock (.g r)
  return (← Act.ctx).g r
def Act.rdP (r : PReg) : Act Word := do
  Act.interlock (.p r)
  return (← Act.ctx).regs.getP r
def Act.rdV (r : Reg) : Act VWord := do
  Act.interlock (.v r)
  return (← Act.ctx).regs.getV r
/-- Writes a general register once its bit is set (01 R10, R12). -/
def Act.wrG (r : Reg) (x : Word) : Act Unit := do
  Act.interlock (.g r)
  Act.updCtx (fun c => c.setG r x)
def Act.wrP (r : PReg) (x : Word) : Act Unit := do
  Act.interlock (.p r)
  Act.updCtx (fun c => c.setP r x)
def Act.wrV (r : Reg) (x : VWord) : Act Unit := do
  Act.interlock (.v r)
  Act.updCtx (fun c => c.setV r x)
/-- Makes a register a long-latency destination (01 R11). -/
def Act.pendDest (d : Dest) : Act Unit := do
  Act.interlock d
  Act.updCtx (fun c => { c with regs := c.regs.setPresent false d })

def Act.sup : Act Bool := do return (← Act.ctx).stat.sup
/-- Raises PRIV at user level (01 R18). -/
def Act.needSup : Act Unit := do
  Act.check (!(← Act.sup)) privFault
/-- Whether the executing context is SH. -/
def Act.inSH : Act Bool := fun s => .ok (s.cx == 4, s)

/-! ## TSTAT -/

/-- Whether a context's HMASK window is open at a time (08 R203). -/
def Ctx.masked (c : Ctx) (now : Nat) : Bool := match c.hmask with
  | some t => now < t
  | none => false

/-- TSTAT at a time (01 R16). -/
def Ctx.tstat (c : Ctx) (now : Nat) : Word :=
  W (c.ras.length * 2 ^ 32 + c.rdep * 2 ^ 16 + b2n c.stat.emrg * 8 + b2n (c.masked now) * 4 + b2n c.stat.dscd * 2 + b2n c.stat.sup)

/-- TXSTAT (12 R320). -/
def Ctx.txstat (c : Ctx) : Word :=
  W (c.tx.lcap * 2 ^ 32 + c.tx.logn * 2 ^ 15 + b2n c.tx.rvk * 8 + b2n c.tx.cfl * 4 + b2n c.tx.opened)

/-! ## Continuation records and handler frames (06) -/

def CRec.header (r : CRec) : Word :=
  W (r.gen % 2 ^ 16 * 2 ^ 48 + r.state % 4 * 2 ^ 46 + b2n r.multi * 2 ^ 45 + b2n r.vlane * 2 ^ 44 + r.pred.toNat * 2 ^ 41
    + b2n r.sup * 2 ^ 40 + b2n r.emrg * 2 ^ 39 + r.effid % 2 ^ 12 * 2 ^ 27 + r.frame % 2 ^ 21)

def padTo {α : Type} (n : Nat) (a : α) (l : List α) : List α := (l ++ List.replicate n a).take n

/-- The 96 words of a continuation record (Table 6.3). -/
def CRec.words (r : CRec) : List Word :=
  [r.header, r.pc, r.flags, r.hf, r.hframe, r.g31,
    W (r.epoch.toNat * 2 ^ 48 + r.ctx * 2 ^ 40 + r.ras.length * 2 ^ 32 + r.rdep * 2 ^ 16), W r.seglen]
  ++ (r.g.toList.drop 1).take 30 ++ r.p.toList.drop 1
  ++ [r.bb.bbn, W r.bb.bits.toNat, W (r.bb.bits.toNat / 2 ^ 64), r.bb.pos, r.bb.lim, r.bb.lo, r.bb.hi]
  ++ List.replicate 4 0 ++ padTo 32 0 (r.ras.flatMap (fun e => [e.1, e.2])) ++ List.replicate 8 0

def pairUp {α : Type} : List α → List (α × α)
  | a :: b :: l => (a, b) :: pairUp l
  | _ => []

def vecOf {α : Type} (n : Nat) (d : α) (l : List α) : Vector α n := Vector.ofFn (fun i => l.getD i.val d)

/-- A record read from its words (Table 6.3). -/
def CRec.ofWords (w : List Word) : CRec :=
  let at_ := fun i => w.getD i 0
  let h := at_ 0
  let m := at_ 6
  { gen := fld h 63 48, state := fld h 47 46, multi := flag h 45, vlane := flag h 44, pred := BitVec.ofNat 3 (fld h 43 41)
    sup := flag h 40, emrg := flag h 39, effid := fld h 38 27, frame := fld h 20 0
    pc := at_ 1, flags := at_ 2, hf := at_ 3, hframe := at_ 4, g31 := at_ 5
    epoch := BitVec.ofNat 16 (fld m 63 48), ctx := fld m 42 40, rdep := fld m 31 16, seglen := (at_ 7).toNat
    g := vecOf 32 0 ([0] ++ (w.drop 8).take 30 ++ [at_ 5])
    p := vecOf 8 0 (BitVec.allOnes 64 :: (w.drop 38).take 7)
    bb := ⟨BitVec.ofNat 128 ((at_ 46).toNat + 2 ^ 64 * (at_ 47).toNat), at_ 45, at_ 48, at_ 49, at_ 50, at_ 51⟩
    ras := pairUp ((w.drop 56).take (2 * min 16 (fld m 36 32))) }

def wordsBytes (l : List Word) : List Byte := l.flatMap (fun w => bytesOf 8 w.toNat)
def bytesWords (n : Nat) (l : List Byte) : List Word := (chunks 8 n l).map (fun b => W (natOf b))

namespace State

/-- n words from key k up. -/
def rdWs (s : State) (k n : Nat) : List Word := (List.range n).map (fun i => s.rdW (k + 8 * i))
def recAt (s : State) (pid off : Nat) : CRec := CRec.ofWords (s.rdWs (spadKey pid off) 96)
def setRec (s : State) (pid off : Nat) (r : CRec) : State := s.wr (spadKey pid off) (wordsBytes r.words)
/-- Adds one to GEN of the header at `off` (06 R158). -/
def bumpGen (s : State) (pid off : Nat) : State :=
  let h := s.rdW (spadKey pid off)
  s.wrW (spadKey pid off) (W ((fld h 63 48 + 1) % 2 ^ 16 * 2 ^ 48 + fld h 47 0))

end State

/-- A handler frame as the device reads it (06 Table 6.2). -/
structure Frame where
  addr : Nat
  hpc : Word
  ssp : Word
  cap : Nat
  link : Nat
  hi : Nat
  lo : Nat
  capsz : Nat
  sys : Bool
  busy : Bool
  multi : Bool

def State.frameAt (s : State) (pid off : Nat) : Frame :=
  let k := spadKey pid off
  let a := s.rdW (k + 16)
  let b := s.rdW (k + 24)
  { addr := off, hpc := s.rdW k, ssp := s.rdW (k + 8), cap := fld a 41 21, link := fld a 20 0, hi := fld b 63 52, lo := fld b 51 40
    capsz := fld b 39 32, sys := flag b 26, busy := flag b 25, multi := flag b 24 }

/-- A frame that R150 calls malformed. -/
def Frame.malformed (f : Frame) : Bool :=
  f.link % 32 != 0 || f.link ≥ Config.spadBytes || f.lo > f.hi || f.capsz < 12 || flag f.hpc 0
  || f.cap + f.capsz * 64 > Config.spadBytes

/-- Writes BUSY of the frame at `off`. -/
def State.setBusy (s : State) (pid off : Nat) (on : Bool) : State :=
  let k := spadKey pid off + 24
  let b := s.rdW k
  s.wrW k (if on then b ||| W (2 ^ 25) else b &&& ~~~ W (2 ^ 25))

/-- What a walk of the chain finds (06 R150, R151); `error` is a frame on an uncorrectable row (05 R121). -/
inductive Found where
  | frame (f : Frame)
  | none
  | malformed (addr : Nat)
  | error (addr : Nat)

/-- Whether n bytes from `off` of a core's scratchpad are in error. -/
def State.badLocal (s : State) (pid off n : Nat) : Bool := s.bad (spadKey pid off) n

/-- The search of R151, at most `n` more frames. -/
def State.search (s : State) (pid : Nat) (sup : Bool) (e : Nat) : Nat → Nat → Found
  | 0, off => if off = 0 then .none else .malformed off
  | n + 1, off =>
    if off = 0 then .none
    else if off % 32 ≠ 0 ∨ Config.spadBytes ≤ off then .malformed off
    else if s.badLocal pid off 32 then .error off
    else
      let f := s.frameAt pid off
      if f.malformed then .malformed off
      else if !f.busy && f.sys == sup && f.lo ≤ e && e ≤ f.hi then .frame f
      else s.search pid sup e n f.link

/-- The frames from `off` outward, stopping before `stop_`, at most `n` of them. -/
def State.framesTo (s : State) (pid stop_ : Nat) : Nat → Nat → List Frame
  | 0, _ => []
  | n + 1, off =>
    if off = 0 ∨ off = stop_ ∨ Config.spadBytes ≤ off then []
    else
      let f := s.frameAt pid off
      f :: s.framesTo pid stop_ n f.link

/-! ## The end of an activation (01 R28) -/

/-- The launch record with its failure fields after one more failure (08 R459). -/
def Launch.fail (l : Launch) (eff : Nat) (arg addr : Word) (lid : Nat) : Launch :=
  if l.nfail = 0 then { l with nfail := 1, eff := eff, argw := arg, addrw := addr, flid := lid } else { l with nfail := l.nfail + 1 }

def State.modLaunch (s : State) (id : Nat) (f : Launch → Launch) : State :=
  { s with launches := s.launches.map (fun l => if l.id = id then f l else l) }

def State.launch? (s : State) (id : Nat) : Option Launch := s.launches.find? (fun l => l.id == id)

/-- The child of a join that an activation of a deterministic launch is (08 R220). -/
def State.sibOf (s : State) (c : Ctx) : Option Sib :=
  match c.started with
  | .task id join _ _ path =>
    match s.launch? id with
    | some l => if flag (l.words.getD 3 0) 36 && join != 0 then some ⟨id, join, path⟩ else none
    | none => none
  | _ => none

/-- Releases a snapshot to the Groom, as VRETIRE does (12 R328). -/
def State.dropSnap (s : State) (act : Nat) : State :=
  s.modVers (fun v => { v with snaps := v.snaps.filter (fun n => n.act != act) })

/-- Ends the activation of a context: its frames, tokens, snapshot, window, queues, return-address stack and bit buffer go
(01 R28); an ended task owes its join decrement, through its launch's root (08 R219, R457). -/
def State.endAct (s : State) (pid cx : Nat) : State :=
  let c := s.ctxAt pid cx
  let s1 := s.dropSnap c.act
  let s2 := match c.started with
    | .launch id => s1.modLaunch id (fun l => { l with live := l.live - 1 })
    | .task id join _ _ path =>
      let root := ((s.launch? id).map (fun (l : Launch) => l.src.ptroot)).getD c.space.ptroot
      let j : JoinDec := ⟨pid, cx, c.act, id, join, path, c.stat.sup, root &&& 0xFFFFFFFFFFFF⟩
      s1.modNet (fun n => { n with joins := n.joins ++ [j] })
    | _ => s1
  let s3 := s2.setCtxAt pid cx
    { c with run := .free, hf := 0, hframe := 0, tx := Tx.reset, hmask := none, qs := [], ras := [], rdep := 0
             bb := BitBuf.reset, pend := [], held := [], poison := [], preemptAt := none, migp := none, reserve := none, migr := none
             resumed := none, asBarw := false, groups := [], started := .none, act := 0 }
  s3.modCoreAt pid (fun k => { k with rq := setBit k.rq cx false })

/-- Ends an activation that failed, and reports it in its launch's completion record (01 R28, 08 R459). -/
def State.endFail (s : State) (pid cx : Nat) (eff : Nat) (arg addr : Word) : State :=
  let c := s.ctxAt pid cx
  (s.modLaunch c.ident.launch.toNat (fun l => l.fail eff arg addr c.ident.lid.toNat)).endAct pid cx

/-! ## Taking an effect (06 R147, R151, R152, R155) -/

/-- The continuation of a context, with the PC it continues at (06 R152 Table 6.3). -/
def Ctx.capture (c : Ctx) (cx : Nat) (r : Raise) (pc : Word) (vl : Option PReg) : CRec where
  gen := 0
  state := 1
  multi := false
  vlane := vl.isSome
  pred := vl.getD 0
  sup := c.stat.sup
  emrg := c.stat.emrg
  effid := r.eff
  frame := 0
  pc := pc
  flags := c.num.flags
  hf := c.hf
  hframe := c.hframe
  g31 := c.g 31
  epoch := c.epoch
  ctx := cx
  rdep := c.rdep
  seglen := 0
  g := c.regs.g
  p := c.regs.p
  bb := c.bb
  ras := c.ras

/-- The registers of Table 6.5, and the entry's side effects on the context: an open HMASK window closes. -/
def Ctx.enter (c : Ctx) (r : Raise) (token g4 pc : Word) (sup : Bool) : Ctx :=
  let c1 := { c with
    pc := pc, hmask := none, run := .runnable
    eff := ⟨W r.eff, r.arg, g4, r.lanes⟩
    stat := { c.stat with sup := sup } }
  ((((c1.setG 1 token).setG 2 (W r.eff)).setG 3 r.arg).setG 4 g4).setP 7 r.lanes

/-- A token (06 R153). -/
def token (gen addr kind : Nat) : Word := W (gen % 2 ^ 16 * 2 ^ 48 + addr / 64 % 2 ^ 42 * 64 + kind * 16)

/-- Delivery to the system frame (06 R155). `async` marks an effect that a busy system frame holds. `vl` is the mask
predicate of a PERFORMV. -/
def State.toSystem (s : State) (pid cx : Nat) (r : Raise) (pc : Word) (async : Bool) (vl : Option PReg) : State :=
  let c := s.ctxAt pid cx
  let h := (s.coreAt pid).shandler
  if h = 0 then s.endFail pid cx r.eff r.arg r.addr
  else if c.sysBusy then
    if async then s.setCtxAt pid cx { c with held := c.held ++ [r] } else s.endFail pid cx r.eff r.arg r.addr
  else
    let gen := c.sysGen + 1
    let rec_ := { c.capture cx r pc vl with gen := gen.toNat }
    let c1 := { c with sysRec := rec_, sysGen := gen, sysBusy := true, hframe := 1, shFrom := if r.eff = Eff.watchdog then 0 else s.time - c.shFrom,
                        late := Tab.set c.late 1 0, origin := Tab.set c.origin 1 pid,
                        barw := Tab.set c.barw 1 c.asBarw, asBarw := false }
    let c2 := if r.stk then { c1.setG 31 c.space.skhi with stat := { c1.stat with emrg := true } } else c1
    s.setCtxAt pid cx (c2.enter r (token gen.toNat 0 2) r.addr h true)

/-- Delivery to a selected frame (06 R152): the record, the segment of a MULTI frame, BUSY, and entry. -/
def State.toFrame (s : State) (pid cx : Nat) (f : Frame) (r : Raise) (pc : Word) (g4 : Word) (vl : Option PReg)
    (segment : List Byte) : State :=
  let c := s.ctxAt pid cx
  let gen := fld (s.rdW (spadKey pid f.cap)) 63 48 + 1
  let rec_ := { c.capture cx r pc vl with gen := gen % 2 ^ 16, multi := f.multi, frame := f.addr, seglen := segment.length }
  let s1 := (s.setRec pid f.cap rec_).wr (spadKey pid (f.cap + 0x300)) segment
  let s2 := s1.setBusy pid f.addr true
  let c2 := { c with
    hf := W f.addr, hframe := W f.addr, late := Tab.set c.late f.cap 0, origin := Tab.set c.origin f.cap pid
    barw := Tab.set c.barw f.cap c.asBarw, asBarw := false }
  s2.setCtxAt pid cx (c2.enter r (token gen f.cap (b2n f.multi)) g4 f.hpc f.sys)

/-- The memory that a load through a home reads: on a replicated page the die's own replica, else the lead die's (10 R279). -/
def Home.readKey (lead pid : Nat) (h : Home) : Nat :=
  match h with
  | .dev pa _ true dm => (if bitOf dm (dieOf pid) then dieOf pid else lead) * Config.dieBytes + pa % Config.dieBytes
  | h => h.key

/-- The first byte of n bytes from `off` of a core's scratchpad that a copy channel holds above its mark (10 R267). -/
def State.marked (s : State) (pid off n : Nat) : Bool :=
  (s.coreAt pid).chans.any (fun e => e.2.ranged && off < e.2.hi && e.2.mark < off + n)

/-- Whether a piece of an access touches a line. -/
def Piece.touches (p : Piece) (line : Nat) : Bool := p.home.key / 64 * 64 ≤ line && line < p.home.key + (max p.len 1)

/-- Whether a request touches a line. -/
def Req.touches (r : Req) (line : Nat) : Bool := r.pieces.any (fun p => p.touches line)

/-- Whether an activation has a request in flight to the lines of n bytes at key k (11 R291). -/
def State.aliasOf (s : State) (act k n : Nat) : Bool :=
  s.net.reqs.any (fun r => r.act == act && (State.linesOf k n).any (fun l => r.touches l))

/-- Whether a replicated write to one of n bytes at an address of a die is still to be applied by some replica (10 R279). -/
def State.repAt (s : State) (pa n : Nat) : Bool :=
  s.vers.reps.any (fun r => pa % Config.dieBytes < r.off + r.data.length && r.off < pa % Config.dieBytes + n)

/-- Whether a replicated write to one of n bytes at a home has still to be applied by some replica: until then no agent reads it
(10 R279, 11 R290; log 62). -/
def State.repOpen (s : State) (h : Home) (n : Nat) : Bool :=
  match h with
  | .dev pa _ true _ => s.repAt pa n
  | _ => false

/-- Whether an access to a key is held at its home cache (25 R446). -/
def State.keyHeld (s : State) (k : Nat) : Bool := decide (k < Config.devBytes) && s.stackHeld k

/-- A Trace port; the Farrier is taken to give port p the peer p: DESIGN CHOICE (log 2). -/
def State.portAt (s : State) (p : Nat) : Port := Tab.get { Port.reset with peer := p % 16 } s.sys.ports p
def State.modPort (s : State) (p : Nat) (f : Port → Port) : State :=
  { s with sys := { s.sys with ports := Tab.set s.sys.ports p (f (s.portAt p)) } }

/-- The port through which a peer device is reached (24 R435). -/
def State.portOf (s : State) (device : Nat) : Option Nat := (List.range 16).find? (fun p => (s.portAt p).peer == device)

/-- Whether the port of a home is down, so that every access through it fails (24 R436, 25 R446). -/
def State.homeDown (s : State) (h : Home) : Bool :=
  match h with
  | .peer d _ => match s.portOf d with
    | some p => (s.portAt p).dead || !flag s.sys.ready0 (26 + p)
    | none => true
  | _ => false

/-- Whether the port of a home is retraining, so that an access waits. -/
def State.homeLost (s : State) (h : Home) : Bool :=
  match h with
  | .peer d _ => match s.portOf d with
    | some p => !(s.portAt p).up
    | none => false
  | _ => false

/-- Whether a write of n bytes at a home meets an uncorrectable line; on a replicated page it is the lead die's (10 R270, R279). -/
def State.homeBad (s : State) (h : Home) (n : Nat) : Bool :=
  match h with
  | .dev pa _ true _ => s.bad (s.sys.lead * Config.dieBytes + pa % Config.dieBytes) n
  | h => s.bad h.key n

/-- Whether a read of n bytes that an activation makes at issue must wait: for a mark, a request of its own, replicas, a stack that is
not ready, or a port that retrains (10 R267, R279; 11 R291; 24 R436; 25 R446). -/
def State.readHeld (s : State) (pid act : Nat) (h : Home) (n : Nat) : Bool :=
  (match h with
    | .spad q off => s.marked q off n
    | _ => false)
  || s.aliasOf act h.key n || s.repOpen h n || s.keyHeld (h.readKey s.sys.lead pid) || (!s.homeDown h && s.homeLost h)

/-- The memory key that a write, or an operation on the old value, reaches: on a replicated page the lead die's (10 R279). -/
def Home.writeKey (lead : Nat) (h : Home) : Nat :=
  match h with
  | .dev pa _ true _ => lead * Config.dieBytes + pa % Config.dieBytes
  | h => h.key

/-- The home of byte ea of a context, as a stack-class access reaches it, and the redirected address (01 R23); an access below
SKHI - 512 in the emergency area is a fault that ends the context (01 R24). -/
def State.stackByte (s : State) (pid : Nat) (c : Ctx) (acc : Acc) (ea : Nat) : Except Raise (Home × Word) :=
  let low := ea < c.space.sklo.toNat
  if (c.stat.emrg && ea < c.space.skhi.toNat - 512) || (low && c.space.ovf == 0) then .error { eff := Eff.stackovf, arg := W ea, stk := true }
  else
    let a := if low then c.space.ovf + (W ea - c.space.sklo) else W ea
    match s.locate pid c.space.ptroot c.stat.sup acc a 1 false false with
    | .error r => .error { r with stk := true }
    | .ok (h, _) => .ok (h, a)

/-- The bytes of a stack segment of n bytes from ea (06 R152 step 2). -/
def State.readSeg (s : State) (pid : Nat) (c : Ctx) (pc : Word) : Nat → Nat → Except Raise (List Byte)
  | _, 0 => .ok []
  | ea, n + 1 =>
    match s.stackByte pid c .read ea with
    | .error r => .error r
    | .ok (h, a) =>
      let k := h.readKey s.sys.lead pid
      if s.homeDown h || s.bad k 1 then .error { memErr pc a with stk := true }
      else match s.readSeg pid c pc (ea + 1) n with
        | .error r => .error r
        | .ok l => .ok (Memory.rd s.mem k :: l)

/-- Whether a byte of a stack segment must be waited for. -/
def State.segHeld (s : State) (pid : Nat) (c : Ctx) (acc : Acc) : Nat → Nat → Bool
  | _, 0 => false
  | ea, n + 1 =>
    (match s.stackByte pid c acc ea with
      | .ok (h, _) => s.readHeld pid c.act h 1
      | .error _ => false)
    || s.segHeld pid c acc (ea + 1) n

/-- The homes of the bytes of a stack segment that is to be written, with their addresses (06 R161). -/
def State.segHomes (s : State) (pid : Nat) (c : Ctx) (pc : Word) : Nat → Nat → Except Raise (List (Home × Word))
  | _, 0 => .ok []
  | ea, n + 1 =>
    match s.stackByte pid c .write ea with
    | .error r => .error r
    | .ok (h, a) =>
      if s.homeDown h || s.homeBad h 1 then .error { memErr pc a with stk := true }
      else match s.segHomes pid c pc (ea + 1) n with
        | .error r => .error r
        | .ok l => .ok ((h, a) :: l)

/-- Whether the context has a request of its own, or a mark, over bytes of its own scratchpad (10 R267, 11 R291). -/
def State.localHeld (s : State) (pid act : Nat) (l : List (Nat × Nat)) : Bool :=
  l.any (fun e => s.marked pid e.1 e.2 || s.aliasOf act (spadKey pid e.1) e.2)

/-- The frames that the search for an effect reads, from `off` on, at most `n` of them (06 R151). -/
def State.searchPath (s : State) (pid : Nat) (sup : Bool) (e : Nat) : Nat → Nat → List Nat
  | 0, _ => []
  | n + 1, off =>
    if off = 0 ∨ off % 32 ≠ 0 ∨ Config.spadBytes ≤ off then []
    else
      let f := s.frameAt pid off
      if f.malformed || (!f.busy && f.sys == sup && f.lo ≤ e && e ≤ f.hi) then [off]
      else off :: s.searchPath pid sup e n f.link

/-- Whether the delivery of an effect must wait before it reads its frames and segment and writes its record: they are accesses of the
context in program order (06 R166, 10 R267). -/
def State.deliveryHeld (s : State) (pid cx : Nat) (r : Raise) : Bool :=
  if Eff.system r.eff then false
  else
    let c := s.ctxAt pid cx
    s.localHeld pid c.act ((s.searchPath pid c.stat.sup r.eff 4096 c.hf.toNat).map (fun a => (a, 32)))
    || (match s.search pid c.stat.sup r.eff 4096 c.hf.toNat with
      | .frame f =>
        let n := f.ssp.toNat - (c.g 31).toNat
        s.localHeld pid c.act [(f.cap, 768)]
        || (f.multi && 0 < n && n ≤ f.capsz * 64 - 768
          && (s.segHeld pid c .read (c.g 31).toNat n || s.localHeld pid c.act [(f.cap + 0x300, n)]))
      | _ => false)

/-- A fault of the delivery or of a stack-class access: a second stack fault in the emergency area ends the context
(01 R24). -/
def State.sysFault (s : State) (pid cx : Nat) (r : Raise) (pc : Word) : State :=
  if r.stk && (s.ctxAt pid cx).stat.emrg then s.endFail pid cx Eff.stackovf r.arg r.addr else s.toSystem pid cx r pc false none

/-- Taking an effect: THE shared operation (06 R147, R151, R152, R155). `here` is the instruction that a fault of the
delivery itself is precise at, `pc` the continuation's PC; `async` marks an effect that a busy system frame holds; a
performed effect enters with G4 = 0. An uncorrectable row under a frame or a capture area raises MEMERR instead: DEDUCED (log 76). -/
def State.deliver (s : State) (pid cx : Nat) (r : Raise) (here pc : Word) (async performed : Bool) (vl : Option PReg) : State :=
  if Eff.system r.eff then s.toSystem pid cx r pc async vl
  else
    let c := s.ctxAt pid cx
    match s.search pid c.stat.sup r.eff 4096 c.hf.toNat with
    | .none => if r.eff = Eff.resumed then s else s.endFail pid cx r.eff r.arg r.addr
    | .malformed a => s.toSystem pid cx { eff := Eff.illegal, arg := W r.eff, addr := W a } here false none
    | .error a => (s.errorAt (spadKey pid a)).toSystem pid cx (memErr here (W a)) here false none
    | .frame f =>
      let g4 := if performed then 0 else r.addr
      let n := f.ssp.toNat - (c.g 31).toNat
      if s.badLocal pid f.cap 8 then (s.errorAt (spadKey pid f.cap)).toSystem pid cx (memErr here (W f.cap)) here false none
      else if !f.multi || n = 0 then s.toFrame pid cx f r pc g4 vl []
      else if n > f.capsz * 64 - 768 then
        s.toSystem pid cx { eff := Eff.stackovf, arg := W n, addr := W f.addr } here false none
      else if s.badPart (spadKey pid (f.cap + 0x300)) n then
        (s.errorAt (spadKey pid (f.cap + 0x300))).toSystem pid cx (memErr here (W (f.cap + 0x300))) here false none
      else match s.readSeg pid c here (c.g 31).toNat n with
        | .error e => s.sysFault pid cx e here
        | .ok seg => s.toFrame pid cx f r pc g4 vl seg

/-- A fault raised by the instruction at the PC of a context (01 R30): delivered with that instruction as continuation. A
second stack fault in the emergency area ends the context (01 R24); the completion record then holds the fault's own argument and
address under id STACKOVF: DESIGN CHOICE (log 64). -/
def State.fault (s : State) (pid cx : Nat) (r : Raise) : State :=
  let c := s.ctxAt pid cx
  if r.stk && c.stat.emrg then s.endFail pid cx Eff.stackovf r.arg r.addr
  else s.deliver pid cx r c.pc c.pc false false none

/-! ## Tokens and the return from an effect (06 R154, R161, R162) -/

/-- The live record that a token names: whether it is the system record, the record, and its address (06 R154). -/
def State.tokenRec (s : State) (pid cx : Nat) (c : Ctx) (t : Word) : Option (Bool × CRec × Nat) :=
  let kind := fld t 5 4
  let addr := fld t 47 6 * 64
  if kind = 3 ∨ fld t 3 0 ≠ 0 then none
  else if kind = 2 then
    if addr = 0 ∧ c.sysRec.state = 1 ∧ c.sysRec.gen = fld t 63 48 then some (true, c.sysRec, 0) else none
  else if addr < Config.spadBytes then
    let r := s.recAt pid addr
    if r.state = 1 ∧ r.gen = fld t 63 48 ∧ b2n r.multi = kind ∧ r.epoch = c.epoch ∧ r.ctx = cx then some (false, r, addr) else none
  else none

/-- STATE := dead in the record at `cap`. -/
def State.killRec (s : State) (pid cap : Nat) : State :=
  let h := s.rdW (spadKey pid cap)
  s.wrW (spadKey pid cap) (h &&& ~~~ W (3 * 2 ^ 46))

/-- Drops the continuation of the handling frame (06 Table 6.7). -/
def State.dropHandling (s : State) (pid cx : Nat) (h : Word) : State :=
  if h = 1 then s.modCtxAt pid cx (fun c => { c with sysBusy := false, sysRec := { c.sysRec with state := 0 } })
  else
    let f := s.frameAt pid h.toNat
    (s.killRec pid f.cap).setBusy pid h.toNat false

/-- The inner frames that held suspended continuations at capture: the chain of handling frames (06 R161). -/
def State.busyInner (s : State) (pid : Nat) (inner : List Frame) : Nat → Word → List Nat
  | 0, _ => []
  | n + 1, h =>
    match inner.find? (fun f => f.addr == h.toNat) with
    | none => []
    | some f => f.addr :: s.busyInner pid (inner.filter (fun g => g.addr != f.addr)) n (s.rdW (spadKey pid (f.cap + 0x20)))

/-- Where the frames pushed while a handler runs end: its own frame, or the chain the system effect found. With no
handler running the walk ends at the record's frame: DEDUCED (log 20). -/
def Ctx.handlerBase (c : Ctx) (f : Nat) : Nat :=
  if c.hframe = 1 then c.sysRec.hf.toNat else if c.hframe = 0 then f else c.hframe.toNat

/-- The shared return of RESUME and RESUMEM (06 R161), after the token's checks and the segment copy. A continuation
captured on another core seeks RESUMED at its next boundary (22 R424); a MIGRATE resumed ends its reservation, and restarts the
residence time where the activation has not moved. -/
def State.resumeWith (s : State) (pid cx : Nat) (sysTok : Bool) (r : CRec) (cap : Nat) (value pc_ : Word) (many : Bool) : State :=
  let c := s.ctxAt pid cx
  let f := if sysTok then 1 else r.frame
  let s1 := (s.framesTo pid (c.handlerBase f) 4096 c.hf.toNat).foldl (fun s g => s.bumpGen pid g.cap) s
  let s2 := if c.hframe = 0 ∨ c.hframe = W f then s1 else s1.dropHandling pid cx c.hframe
  let inner := s2.framesTo pid (if sysTok then 0 else f) 4096 r.hf.toNat
  let busy := s2.busyInner pid inner 4096 r.hframe
  let s3 := inner.foldl (fun s g => s.setBusy pid g.addr (busy.contains g.addr)) s2
  let s4 := if sysTok then s3 else
    let t := s3.setBusy pid f false
    if many then t else t.killRec pid cap
  let d := s4.ctxAt pid cx
  let from_ := Tab.get pid d.origin (if sysTok then 1 else cap)
  let mask := fun (q : Vector Word 8) => if r.vlane && r.pred != 0 then q.set r.pred.toNat (q[r.pred.toNat] &&& pc_) else q
  let regs := { d.regs with g := r.g.set 31 r.g31, p := mask r.p }
  let d1 := { d with
    regs := regs.setG 1 value
    bb := r.bb, ras := r.ras, rdep := r.rdep, pc := r.pc
    stat := { d.stat with sup := r.sup, emrg := r.emrg }
    num := { d.num with flags := r.flags ||| Tab.get 0 d.late (if sysTok then 1 else cap) }
    hf := r.hf, hframe := r.hframe
    asBarw := Tab.get false d.barw (if sysTok then 1 else cap)
    sysBusy := if sysTok then false else d.sysBusy
    sysRec := if sysTok then { d.sysRec with state := 0 } else d.sysRec
    reserve := if sysTok ∧ r.effid = Eff.migrate then none else d.reserve
    startAt := if sysTok ∧ r.effid = Eff.migrate ∧ from_ = pid then s4.time else d.startAt
    shFrom := if sysTok then s4.time - d.shFrom else d.shFrom
    resumed := if from_ = pid then d.resumed else some { eff := Eff.resumed, arg := W from_ } }
  s4.setCtxAt pid cx d1

/-- The shared abandonment of DISCARD (06 R162): the state, and the value of Gd. -/
def State.discardWith (s : State) (pid cx : Nat) (sysTok : Bool) (r : CRec) (cap : Nat) : State × Word :=
  if sysTok then
    let s1 := (s.framesTo pid 0 4096 r.hf.toNat).foldl (fun s g => s.bumpGen pid g.cap) s
    (s1.modCtxAt pid cx (fun c => { c with
      sysBusy := false, sysRec := { c.sysRec with state := 0 }, hf := 0
      hframe := if c.hframe = 1 then r.hframe else c.hframe
      reserve := if r.effid = Eff.migrate then none else c.reserve
      startAt := if r.effid = Eff.migrate ∧ Tab.get pid c.origin 1 = pid then s.time else c.startAt
      shFrom := s.time - c.shFrom
      stat := { c.stat with emrg := false } }), 0)
  else
    let f := s.frameAt pid r.frame
    let s1 := if !f.busy then s else
      let t := (s.framesTo pid r.frame 4096 r.hf.toNat).foldl (fun s g => s.bumpGen pid g.cap) s
      (t.setBusy pid r.frame false).modCtxAt pid cx (fun c => if c.hframe = W r.frame then { c with hframe := r.hframe } else c)
    (s1.killRec pid cap, f.ssp)

/-! ## The end of an instruction -/

/-- The context waits at its PC: parked when the instruction is a switch point or S = 1, else stalled; SH never parks
(01 R13, 08 R202). -/
def State.block (s : State) (w : Wait) (switch : Bool) : State :=
  s.modCtx (fun c => { c with
    run := if switch && s.cx != 4 then .parked w else .stalled w
    since := match c.run with
      | .parked _ => c.since
      | .stalled _ => c.since
      | _ => s.time })

/-- The core goes on to the next runnable low context after `cx`, counting upward modulo 4 (08 R205). -/
def State.nextRunnable (s : State) (pid cx : Nat) : Nat :=
  let ok := fun n => (s.ctxAt pid ((cx + n) % 4)).run == .runnable
  if ok 1 then (cx + 1) % 4 else if ok 2 then (cx + 2) % 4 else if ok 3 then (cx + 3) % 4 else cx % 4

/-- After an instruction with S = 1 the core moves to the next runnable context, if there is another (08 R205). -/
def State.switch (s : State) (sp : Bool) : State :=
  if sp && s.cx != 4 then
    let n := s.nextRunnable s.pid s.cx
    s.modCore (fun k => { k with cur := n })
  else s

/-- WAITA, WAITM, JOINW and LDVW are switch points whatever the S bit: one that completes without parking gives way as an
instruction with S = 1 does (05 R133, R135; 09 R242; 12 R325). -/
def Act.giveWay : Act Unit := Act.upd (fun t => t.switch true)

/-- An uncorrectable error met by an instruction is logged by the Farrier (05 R121). -/
def State.noteError (s : State) (eff : Nat) (addr : Word) : State :=
  if eff = Eff.memerr then s.logEvent .uncorrectable (2 + dieOf s.pid) addr.toNat 0 else s

/-- What becomes of a description executed at state s: it completes, raises, waits, or ends in a state of its own. -/
def State.settle (s : State) (sp : Bool) (r : Except Halt (Unit × State)) : State :=
  match r with
  | .ok (_, t) => t.switch sp
  | .error (.raise e) =>
    if !s.ctx.regs.allPresent then s.block .presence sp
    else if s.deliveryHeld s.pid s.cx e then s.block .drain sp
    else (s.noteError e.eff e.addr).fault s.pid s.cx e
  | .error (.poison d e) =>
    if s.ctx.regs.allPresent then
      (s.modCtx (fun c => { c with poison := c.poison.filter (fun p => p.dest != d) })).fault s.pid s.cx e
    else s.block .presence sp
  | .error (.wait w) => (s.block w sp).switch sp
  | .error (.park w) => (s.block w true).switch true
  | .error (.stop t) => t

/-- Issues an instruction of `len` bytes: it runs with the PC at the next instruction, which a transfer overwrites. -/
def issue (s : State) (sp : Bool) (len : Nat) (m : Act Unit) : Out :=
  .next (s.settle sp (m (s.modCtx (fun c => { c with pc := c.pc + W len, run := .runnable }))))

end Sys2Proof.Machine
end

