-- ==== Sys2Proof/Machine/Operands.lean ====
section
/-! DEFINITION. Operand forms: displacements and targets (04 R94), the conditions (04 R97), and the accesses of a context:
scalar loads and stores (05 R118 to R122), requests to other homes (10 R254), queue registers (15 R334 to R337). -/

namespace Sys2Proof.Machine

/-! ## Immediates and conditions -/

/-- Ga + sext(DISP11) × size (05 R118). -/
def disp (a : Word) (i : BitVec 11) (z : Size) : Word := a + BitVec.ofInt 64 (i.toInt * z.bytes)
/-- The address of a branch target: the branch's own address + 2 × sext(OFF) (04 R94). -/
def target {n : Nat} (pc : Word) (o : BitVec n) : Word := pc + BitVec.ofInt 64 (2 * o.toInt)

/-- Bc and CMPI conditions (04 Table 4.4). -/
def condHolds (c : Cond) (a b : Word) : Bool :=
  match c with
  | .eq => a == b
  | .ne => a != b
  | .lt => a.slt b
  | .ge => !a.slt b
  | .ltu => a.ult b
  | .geu => !a.ult b

/-- Bz conditions (04 Table 4.4). -/
def bzHolds (c : BzCond) (a : Word) : Bool :=
  match c with
  | .eq => a == 0
  | .ne => a != 0
  | .lt => a.slt 0
  | .ge => !a.slt 0
  | .le => a.slt 0 || a == 0
  | .gt => !(a.slt 0 || a == 0)

/-- Rounding codes and orders as the descriptions name them (11 R298). -/
def ordRel (r : Order) : Bool := r == .rel || r == .ar || r == .sc
def ordAcq (r : Order) : Bool := r == .acq || r == .ar || r == .sc

/-- Extends the low 8n bits of a loaded value (05 R118). -/
def extend (n : Nat) (sx : Bool) (v : Nat) : Word := if sx then sext64 (8 * n) v else W v

/-! ## Queues (15 R334 to R337) -/

/-- Whether a queue belongs to the core (15 Table 15.1). -/
def coreQueue (q : Nat) : Bool := (5 ≤ q && q ≤ 8) || (12 ≤ q && q ≤ 15)

def State.queue (s : State) (pid cx q : Nat) : List Word :=
  if coreQueue q then Tab.get [] (s.coreAt pid).qs q else Tab.get [] (s.ctxAt pid cx).qs q

def State.setQueue (s : State) (pid cx q : Nat) (l : List Word) : State :=
  if coreQueue q then s.modCoreAt pid (fun k => { k with qs := Tab.set k.qs q l })
  else s.modCtxAt pid cx (fun c => { c with qs := Tab.set c.qs q l })

/-- Ends the IDLE parks of a core: a message, a mailbox or rank arrival, or a push to Q12-Q15 came (05 R132). -/
def State.wakeIdle (s : State) (pid : Nat) : State :=
  [0, 1, 2, 3].foldl (fun s cx =>
    match (s.ctxAt pid cx).run with
    | .parked (.idle _) => s.modCtxAt pid cx (fun c => { c with run := .parked (.idle s.time) })
    | .parked (.idleTurn _) => s.modCtxAt pid cx (fun c => { c with run := .parked (.idle s.time) })
    | _ => s) s

/-- push(q, w) into a queue that has room (01 R30). -/
def State.push (s : State) (pid cx q : Nat) (ws : List Word) : State :=
  let t := s.setQueue pid cx q (s.queue pid cx q ++ ws)
  if 12 ≤ q then t.wakeIdle pid else t

/-- Where an engine's push for an activation goes: the context that runs it, the image that holds it, or nowhere
(01 R28, 21 R406). -/
inductive Owner where
  | ctx (pid cx : Nat)
  | image (home : Nat)
  | gone
deriving DecidableEq, Repr

def State.ownerOf (s : State) (act : Nat) : Owner :=
  match s.ctxs.find? (fun e => e.2.act == act && e.2.run != .free) with
  | some e => .ctx (e.1 / 8) (e.1 % 8)
  | none =>
    match s.saved.find? (fun v => v.hid.act == act) with
    | some v => .image v.home
    | none => .gone

/-- Changes the hidden state of the context in the image at `home`. -/
def State.modSaved (s : State) (home : Nat) (f : Ctx → Ctx) : State :=
  { s with saved := s.saved.map (fun v => if v.home = home then { v with hid := f v.hid } else v) }

/-- Index of a context queue in a context image (21 Table 21.3). -/
def imageQueue (q : Nat) : Nat := if q < 5 then q else q - 4

/-- The entries that a context image holds for a queue. -/
def State.imageCount (s : State) (home q : Nat) : Nat := s.rdN (home + 0xF8 + imageQueue q) 1

/-- Entries now in an activation's own queue. -/
def State.ownQueueLen (s : State) (act q : Nat) : Nat :=
  match s.ownerOf act with
  | .ctx p c => (s.queue p c q).length
  | .image h => s.imageCount h q
  | .gone => 0

/-- Pushes words to an activation's own queue wherever it is now; dropped when the activation has ended. -/
def State.pushOwn (s : State) (act q : Nat) (ws : List Word) : State :=
  match s.ownerOf act with
  | .ctx p c => s.push p c q ws
  | .image h =>
    let n := s.imageCount h q
    (s.wr (h + 0xC00 + 128 * imageQueue q + 8 * n) (wordsBytes ws)).wr (h + 0xF8 + imageQueue q) (bytesOf 1 (n + ws.length))
  | .gone => s

/-- Removes the oldest entry of an activation's own queue (15 R458). -/
def State.popOwn (s : State) (act q : Nat) : State :=
  match s.ownerOf act with
  | .ctx p c => s.setQueue p c q ((s.queue p c q).drop 1)
  | .image h =>
    let n := s.imageCount h q
    (s.wr (h + 0xC00 + 128 * imageQueue q) ((s.rd (h + 0xC00 + 128 * imageQueue q + 8) 120) ++ List.replicate 8 0)).wr
      (h + 0xF8 + imageQueue q) (bytesOf 1 (n - 1))
  | .gone => s

/-- Makes an effect pending for an activation's next boundary, wherever the activation is (03 R81, 15 R346, 21 R406). -/
def State.addPend (s : State) (act : Nat) (p : Pend) : State :=
  match s.ownerOf act with
  | .ctx q c => s.modCtxAt q c (fun x => { x with pend := x.pend ++ [p] })
  | .image h => s.modSaved h (fun x => { x with pend := x.pend ++ [p] })
  | .gone => s

/-- One NUMERIC more among the pending effects: those of one boundary become one (03 R81). -/
def addNumeric (r : Raise) : List Pend → List Pend
  | [] => [⟨Eff.numeric, r⟩]
  | p :: l =>
    if p.kind = Eff.numeric then
      { p with raise := { p.raise with arg := p.raise.arg ||| r.arg, lanes := p.raise.lanes ||| r.lanes } } :: l
    else p :: addNumeric r l

/-- The NUMERIC of an operation that completed with flags `fl`, of which `en` were enabled at its issue (03 R81). -/
def lateNumeric (fl : Nat) (lanes issuer : Word) : Raise := { eff := Eff.numeric, arg := W fl, addr := issuer, lanes := lanes }

/-- Flags that an asynchronous operation brings to a context: into FLAGS, into every live capture, and, with an enabled flag, as a
NUMERIC at the next boundary (03 R81, 06 R161, R169). Operations that complete before one boundary share it: `stamp` tells one
boundary from the next, and `loose` keeps the flags of those before it that had none enabled. -/
def Ctx.lateFlags (c : Ctx) (fl en : Nat) (lanes issuer : Word) (stamp : Nat) : Ctx :=
  let c1 : Ctx := { c with num := { c.num with flags := c.num.flags ||| W fl }, late := c.late.map (fun e => (e.1, e.2 ||| W fl)) }
  let (f0, l0) := if c.loose.2.2 = stamp then (c.loose.1, c.loose.2.1) else ((0 : Word), (0 : Word))
  if c1.pend.any (fun p => p.kind == Eff.numeric) then { c1 with pend := addNumeric (lateNumeric fl lanes issuer) c1.pend }
  else if fl &&& en = 0 then { c1 with loose := (f0 ||| W fl, l0 ||| lanes, stamp) }
  else { c1 with pend := addNumeric { lateNumeric fl (l0 ||| lanes) issuer with arg := f0 ||| W fl } c1.pend }

/-- What tells one boundary of a context from the next: when it last issued (03 R81). -/
def State.boundaryStamp (s : State) (pid cx : Nat) : Nat := Tab.get 0 (s.coreAt pid).issued cx + 1

def State.addFlags (s : State) (act fl en : Nat) (lanes issuer : Word) : State :=
  if fl = 0 then s else
  match s.ownerOf act with
  | .ctx q c => s.modCtxAt q c (fun x => x.lateFlags fl en lanes issuer (s.boundaryStamp q c))
  | .image h => (s.wrW (h + 0x10) (s.rdW (h + 0x10) ||| W fl)).modSaved h (fun x => x.lateFlags fl en lanes issuer 0)
  | .gone => s

/-! ## Accesses of a context -/

/-- The address of the instruction that a state is about to issue. -/
def State.here (s : State) : Word := s.ctx.pc

def Home.isRegs : Home → Bool
  | .regs _ => true
  | _ => false

def Home.isReplica : Home → Bool
  | .dev _ _ repl _ => repl
  | _ => false

/-- Whether a piece must come before another of the same context: same line, or both in the register space (10 R271, 11 R291). -/
def Piece.before (p q : Piece) : Bool :=
  (p.home.isRegs && q.home.isRegs) || (State.linesOf q.home.key (max q.len 1)).any (fun l => p.touches l)

/-- Whether the executing context has a request of its own in flight to the lines of n bytes at key k (11 R291). -/
def State.ownAlias (s : State) (k n : Nat) : Bool := s.aliasOf s.ctx.act k n

/-- Whether a replicated write is one of an activation's requests below a number (10 R279). -/
def RepW.ofAct (r : RepW) (act below : Nat) : Bool :=
  match r.by_ with
  | .access _ _ a no => a == act && no < below
  | _ => false

/-- Whether one of an activation's requests below a number has not been performed toward every agent (10 R279; 11 R290, R298). -/
def State.inFlight (s : State) (act below : Nat) : Bool :=
  s.net.reqs.any (fun r => r.act == act && r.no < below) || s.vers.reps.any (fun r => r.ofAct act below)

def State.ownReqs (s : State) (act : Nat) : Bool := s.inFlight act s.net.nextReq

/-- Whether an acquire of an activation is outstanding: an acquiring request, a mailbox reservation, a pop, or an LDVW's (11 R296,
R302, R307; 15 R337). -/
def State.acquiring (s : State) (pid act : Nat) : Bool :=
  s.net.reqs.any (fun r => r.act == act && r.acq) || (s.coreAt pid).takes.any (fun t => t.act == act)
  || (s.coreAt pid).pops.any (fun p => p.act == act) || s.vers.acquires.any (fun e => e.1 == act && s.vers.stable < e.2)

/-- A later access waits for an acquire of its context (11 R302). -/
def Act.gate : Act Unit := fun s =>
  if s.acquiring s.pid s.ctx.act then .error (.wait .drain) else .ok ((), s)

/-- Waits until the context's earlier accesses have been performed (11 R298, R300). -/
def Act.drain : Act Unit := fun s =>
  if s.ownReqs s.ctx.act then .error (.wait .drain) else .ok ((), s)

/-- A read that is made at issue waits for what it must see (10 R267, R279; 11 R291). -/
def Act.reach (h : Home) (n : Nat) : Act Unit := fun s =>
  match h with
  | .spad q off => if s.marked q off n then .error (.wait (.mark off)) else if s.readHeld s.pid s.ctx.act h n then .error (.wait .drain) else .ok ((), s)
  | h => if s.readHeld s.pid s.ctx.act h n then .error (.wait .drain) else .ok ((), s)

/-- Register accesses of a context reach their registers in program order (10 R271). -/
def Act.regsInOrder : Act Unit := fun s =>
  if s.net.reqs.any (fun r => r.act == s.ctx.act && r.pieces.any (fun p => p.home.isRegs)) then .error (.wait .drain) else .ok ((), s)

/-- The place of an access: the stack rule (01 R23, R24), then R19, translation and permission. The effective address
comes back as redirected. Below SKLO with OVF = 0, STACKOVF comes before ALIGN: DESIGN CHOICE (log 65). -/
def Act.place (acc : Acc) (stk : Bool) (ea : Word) (n : Nat) (natural scalar : Bool) : Act (Home × Word) := fun s =>
  let c := s.ctx
  if stk && c.stat.emrg && ea.toNat < c.space.skhi.toNat - 512 then
    .error (.stop (s.endFail s.pid s.cx Eff.stackovf ea 0))
  else
    let low := stk && ea.toNat < c.space.sklo.toNat
    if low && c.space.ovf == 0 then .error (.raise { eff := Eff.stackovf, arg := ea, stk := true })
    else
      let a := if low then c.space.ovf + (ea - c.space.sklo) else ea
      match s.locate s.pid c.space.ptroot c.stat.sup acc a n natural scalar with
      | .error r => .error (.raise { r with stk := stk })
      | .ok (h, none) => .ok ((h, a), s)
      | .ok (h, some l) => .ok ((h, a), s.fillTlb s.pid c.space.ptroot a.toNat l)

/-- The state with one more request of the executing context in flight to its homes (10 R254). -/
def State.post (s : State) (pieces : List Piece) (op : MemOp) (rel acq : Bool) (here ea : Word) : State :=
  s.modNet (fun n => { n with
    nextReq := n.nextReq + 1
    reqs := n.reqs ++ [{ no := n.nextReq, pid := s.pid, cx := s.cx, act := s.ctx.act, pieces := pieces, op := op
                         rel := rel, acq := acq, fresh := acq, iaddr := here, ea := ea, sib := s.sibOf s.ctx }] })

/-- Posts a request to its homes (10 R254). -/
def Act.post (pieces : List Piece) (op : MemOp) (rel acq : Bool) (here ea : Word) : Act Unit :=
  Act.upd (fun s => s.post pieces op rel acq here ea)

/-- The state with a result of the executing context on its way to a register (01 R11). -/
def State.sendResult (s : State) (d : Dest) (v : Val) : State :=
  s.modNet (fun n => { n with results := n.results ++ [⟨s.pid, s.cx, s.ctx.act, d, v⟩] })

/-- A result on its way to a register of the executing context (01 R11). -/
def Act.result (d : Dest) (v : Val) : Act Unit := Act.upd (fun s => s.sendResult d v)

/-- Waits for the marks and the context's own requests over n bytes of its own scratchpad (10 R267, 11 R291). -/
def Act.ownBytes (off n : Nat) : Act Unit := fun s =>
  if s.marked s.pid off n then .error (.wait (.mark off))
  else if s.ownAlias (spadKey s.pid off) n then .error (.wait .drain)
  else .ok ((), s)

/-- QCNTLO and QCNTHI (15 Table 15.3). -/
def State.qcnt (s : State) (hi : Bool) : Word :=
  W ((List.range 8).foldl (fun n i => n + (s.queue s.pid s.cx (i + if hi then 8 else 0)).length * 2 ^ (8 * i)) 0)

/-- A load from the local engine block (15 R335, R336). -/
def Act.engineLoad (off n : Nat) (ea : Word) (d : Reg) : Act Unit := do
  let q := off / 8
  Act.regsInOrder
  Act.check (n != 8 || off % 8 != 0 || off > 0x88 || q == 0 || q == 2 || q == 4) (permFault ea)
  Act.pendDest (.g d)
  if off = 0x80 then Act.result (.g d) (.g ((← get).qcnt false))
  else if off = 0x88 then Act.result (.g d) (.g ((← get).qcnt true))
  else Act.upd (fun s => s.modCore (fun k => { k with pops := k.pops ++ [⟨q, s.cx, s.ctx.act, d⟩] }))

/-- A store to the local engine block: a push to Q12-Q15 (15 R336), which releases the context's earlier accesses (15 R337). -/
def Act.engineStore (off n : Nat) (ea v : Word) : Act Unit := do
  Act.check (n != 8 || off % 8 != 0 || off < 0x60 || 0x80 ≤ off) (permFault ea)
  Act.drain
  Act.waitIf ((← get).queue (← get).pid (← get).cx (off / 8) |>.length |> (16 ≤ ·)) (.qFull (off / 8))
  Act.upd (fun s => s.push s.pid s.cx (off / 8) [v])

/-- A scalar load (05 R118 to R121): local bytes at once, every other byte as a long-latency result. -/
def Act.load (here ea : Word) (n : Nat) (sx : Bool) (d : Reg) (stk acq : Bool) : Act Unit := do
  Act.gate
  let (h, a) ← Act.place .read stk ea n true true
  match h with
  | .spad p off =>
    if p = (← get).pid then do
      Act.ownBytes off n
      let bad := (← get).bad h.key n
      let v := extend n sx ((← get).rdN h.key n)
      if inLocal a.toNat then do
        Act.interlock (.g d)
        Act.check bad { memErr here a with stk := stk }
        Act.wrG d v
      else do
        Act.pendDest (.g d)
        Act.upd (fun s => if bad then s.errorAt h.key else s)
        Act.result (.g d) (if bad then .err (memErr here a) 0 else .g v)
    else do
      Act.pendDest (.g d)
      Act.post [⟨h, n⟩] (.load sx d) false acq here a
  | .regs off =>
    if off < 0x10000 then Act.engineLoad off n a d
    else do
      Act.pendDest (.g d)
      Act.post [⟨h, n⟩] (.load sx d) false acq here a
  | _ => do
    Act.pendDest (.g d)
    Act.post [⟨h, n⟩] (.load sx d) false acq here a

/-- A scalar store of the low n bytes of v (05 R118); a release store first waits for earlier accesses (11 R298, R302). -/
def Act.store (here ea : Word) (n : Nat) (v : Word) (stk rel : Bool) : Act Unit := do
  Act.gate
  let (h, a) ← Act.place .write stk ea n true true
  let data := bytesOf n v.toNat
  match h with
  | .spad p off =>
    if p = (← get).pid then do
      if rel then Act.drain
      Act.ownBytes off n
      Act.check ((← get).bad h.key n) { memErr here a with stk := stk }
      Act.upd (fun s => s.wr h.key data)
    else do
      Act.check ((← get).bad h.key n) { memErr here a with stk := stk }
      Act.post [⟨h, n⟩] (.store data) rel false here a
  | .regs off =>
    if off < 0x10000 then Act.engineStore off n a v
    else Act.post [⟨h, n⟩] (.store data) rel false here a
  | _ => do
    Act.check ((← get).homeBad h n) { memErr here a with stk := stk }
    Act.post [⟨h, n⟩] (.store data) rel false here a

/-- n bytes of the executing core's scratchpad, as one read by the context (09 R229, 12 R316). -/
def Act.readSpad (here : Word) (off n : Nat) : Act (List Byte) := do
  Act.gate
  Act.ownBytes off n
  Act.check ((← get).bad (spadKey (← get).pid off) n) (memErr here (W off))
  return (← get).rd (spadKey (← get).pid off) n

/-- Writes bytes of the executing core's scratchpad, as one store by the context (06 R166, 15 R352). -/
def Act.writeSpad (here : Word) (off : Nat) (bs : List Byte) : Act Unit := do
  Act.gate
  Act.ownBytes off bs.length
  Act.check ((← get).badPart (spadKey (← get).pid off) bs.length) (memErr here (W off))
  Act.upd (fun s => s.wr (spadKey s.pid off) bs)

/-- The accesses of an instruction to frames, records and other parts of the own scratchpad: the waits, and the errors of their rows
(06 R166, 05 R121). -/
def Act.spans (here : Word) : List (Nat × Nat) → Act Unit
  | [] => pure ()
  | e :: l => do
    Act.ownBytes e.1 e.2
    Act.check ((← get).badLocal (← get).pid e.1 e.2) (memErr here (W e.1))
    Act.spans here l

/-- Sets the PC of the executing context; a target with bit 0 set raises ALIGN (01 R17). -/
def Act.jump (t : Word) : Act Unit := do
  Act.check (flag t 0) (alignFault t)
  Act.updCtx (fun c => { c with pc := t })

end Sys2Proof.Machine
end

