-- ==== Sys2Proof/Machine/Fetch.lean ====
section
/-! DEFINITION. Instruction fetch (01 R17, 04 R89): the bytes at a PC, read from memory as they stand (log 16). -/

namespace Sys2Proof.Machine

/-- What a fetch brings: the bytes of an instruction, a fault, or nothing yet. -/
inductive Fetched where
  | bytes (l : List Byte)
  | fault (r : Raise)
  | waits

/-- The two bytes of the halfword at an address, for a context whose PC is `pc` (01 R17). -/
def State.fetchHalf (s : State) (pid : Nat) (c : Ctx) (a : Word) : Fetched :=
  match s.locate pid c.space.ptroot c.stat.sup .fetch a 2 true false with
  | .error r => .fault r
  | .ok (h, _) =>
    let k := h.readKey s.sys.lead pid
    if s.keyHeld k || s.repOpen h 2 || (s.homeLost h && !s.homeDown h) then .waits
    else if s.homeDown h || s.bad k 2 then .fault (memErr c.pc a)
    else .bytes (s.rd k 2)

/-- The bytes of the instruction at the PC of a context: two, or four when W is one (04 R89). -/
def State.fetch (s : State) (pid cx : Nat) : Fetched :=
  let c := s.ctxAt pid cx
  match s.fetchHalf pid c c.pc with
  | .bytes l =>
    if bitOf (natOf l) 1 then
      match s.fetchHalf pid c (c.pc + 2) with
      | .bytes m => .bytes (l ++ m)
      | r => r
    else .bytes l
  | r => r

/-- The TLBs after the fetch at the PC (10 R275). -/
def State.fillFetch (s : State) (pid cx : Nat) : State :=
  let c := s.ctxAt pid cx
  match s.locate pid c.space.ptroot c.stat.sup .fetch c.pc 2 true false with
  | .ok (_, some l) => s.fillTlb pid c.space.ptroot c.pc.toNat l
  | _ => s

/-- Whether a word is a switch point: S = 1, or WAITA, WAITM, JOINW, BARW, BARAW or LDVW whatever the S bit (01 R17; 05 R133,
R135; 09 R242, R248; 12 R325). -/
def switchPoint (w : Nat) : Bool :=
  let maj := bitsOf w 7 2
  let f := bitsOf w 31 23
  let f4 := bitsOf w 31 28
  bitOf w 0 || (bitOf w 1 && ((maj == 0x17 && (f == 1 || f == 7)) || (maj == 0x1C && f4 == 2) || (maj == 0x1D && (f4 == 4 || f4 == 5))
    || (maj == 0x22 && f4 == 2)))

/-- Whether a word is CTXSAVE or CTXLOAD (21 R406). -/
def saveWord (w : Nat) : Bool := bitOf w 1 && bitsOf w 7 2 == 0x23 && decide (bitsOf w 31 28 ≤ 1)

/-- Whether a word is a group boundary: GJOIN, GLEAVE, BARA, BARW, BARAW (09 R250). -/
def groupBoundary (w : Nat) : Bool :=
  let f4 := bitsOf w 31 28
  bitOf w 1 && bitsOf w 7 2 == 0x1D && (f4 == 0 || f4 == 1 || f4 == 3 || f4 == 4 || f4 == 5)

/-- The word at the PC of a context, if it can be fetched. -/
def State.nextWord (s : State) (pid cx : Nat) : Option Nat :=
  match s.fetch pid cx with
  | .bytes l => some (natOf l)
  | _ => none

end Sys2Proof.Machine
end

