-- ==== Sys2Proof/Machine/Special.lean ====
section
/-! DEFINITION. Special registers (01 R14 to R16, 05 R123) and supervisor registers (10 R272, 21 R404, 22 R419). -/

namespace Sys2Proof.Machine

/-- The key of a cluster's record. -/
def clusterKey (die cluster : Nat) : Nat := die * 16 + cluster
def State.clusterAt (s : State) (die cluster : Nat) : Cluster := Tab.get Cluster.reset s.sys.clusters (clusterKey die cluster)
/-- The cluster of a core. -/
def State.clusterOfCore (s : State) (pid : Nat) : Cluster := s.clusterAt (dieOf pid) (clusterOf pid)
def State.setClusterAt (s : State) (die cluster : Nat) (k : Cluster) : State :=
  { s with sys := { s.sys with clusters := Tab.set s.sys.clusters (clusterKey die cluster) k } }

/-- CLST (22 Table 22.1). -/
def State.clst (s : State) (pid : Nat) : Word :=
  let k := s.clusterOfCore pid
  let migp := [0, 1, 2, 3].any (fun cx => (s.ctxAt pid cx).migp.isSome)
  W (k.temp % 2 ^ 12 * 2 ^ 40 + k.pest % 2 ^ 24 * 2 ^ 16 + b2n migp * 4 + b2n k.hot * 2 + b2n k.opened)

/-- PREQ (21 Table 21.2). -/
def Core.preq (k : Core) : Word := W (k.rsn % 256 * 256 + k.rq.toNat)

/-- Core cycles since reset (01 Table 1.2). -/
def State.cyc (s : State) (pid : Nat) : Word := W (s.time / Config.coreTicks pid)

/-- WMn (10 Table 10.3) and RKPOSn (17 Table 17.7). -/
def State.wm (s : State) (pid n : Nat) : Word := W (Tab.get Chan.reset (s.coreAt pid).chans n).mark
def State.rkpos (s : State) (pid n : Nat) : Word := W (Tab.get Strm.reset (s.coreAt pid).unit.rank.strms n).pos

/-- The core registers that SYSRD reaches below 0x100 (21 R415), and the core's supervisor registers. -/
def State.coreReg (s : State) (pid n : Nat) : Option Word :=
  if n = 0 then some (W pid)
  else if n = 2 then some (W (dieOf pid))
  else if n = 0x24 then some (s.cyc pid)
  else if 0x50 ≤ n ∧ n < 0x58 then some (s.wm pid (n - 0x50))
  else if 0x70 ≤ n ∧ n < 0x74 then some (s.rkpos pid (n - 0x70))
  else if n = 0x101 then some (s.coreAt pid).preq
  else if n = 0x102 then some (s.coreAt pid).dlcnt
  else if n = 0x103 then some (s.coreAt pid).deccnt
  else if n = 0x104 then some (s.clst pid)
  else if n = 0x105 then some (W (s.clusterOfCore pid).bud)
  else none

/-- The context registers of Table 1.2 and the supervisor registers of a context, as they read at a time; MIGR reads zero. -/
def Ctx.reg (c : Ctx) (cx now n : Nat) : Option Word :=
  let i := c.ident
  match n with
  | 1 => some i.lid
  | 3 => some (W cx)
  | 4 => some i.task
  | 5 => some i.launch
  | 0x10 => some i.west
  | 0x11 => some i.east
  | 0x12 => some i.north
  | 0x13 => some i.south
  | 0x14 => some i.rectw
  | 0x15 => some i.recth
  | 0x20 => some c.num.flags
  | 0x21 => some c.num.flagen
  | 0x22 => some c.num.vt
  | 0x23 => some c.num.seed
  | 0x25 => some (c.tstat now)
  | 0x30 => some c.hf
  | 0x31 => some c.eff.id
  | 0x32 => some c.eff.arg
  | 0x33 => some c.eff.addr
  | 0x34 => some c.eff.lanes
  | 0x40 => some c.bb.pos
  | 0x41 => some c.bb.lim
  | 0x42 => some c.bb.lo
  | 0x43 => some c.bb.hi
  | 0x60 => some c.tx.ts
  | 0x61 => some c.txstat
  | 0x80 => some c.space.sklo
  | 0x81 => some c.space.skhi
  | 0x82 => some c.space.ovf
  | 0x100 => some c.space.ptroot
  | 0x106 => some 0
  | _ => if 8 ≤ n ∧ n < 12 then some (i.org.toList.getD (n - 8) 0) else if 12 ≤ n ∧ n < 16 then some (i.ext.toList.getD (n - 12) 0) else none

/-- The value of a special register; none for a number that names none (01 R14, R15). -/
def State.special (s : State) (pid cx n : Nat) : Option Word :=
  match s.coreReg pid n with
  | some v => some v
  | none => (s.ctxAt pid cx).reg cx s.time n

/-- Registers that MTS may write at user level, at supervisor level, and the supervisor registers (01 Table 1.2). -/
def writable (n : Nat) : Bool := (0x20 ≤ n && n ≤ 0x23) || n == 0x25 || (0x40 ≤ n && n ≤ 0x43)
def supWritable (n : Nat) : Bool := n == 0x30 || (0x80 ≤ n && n ≤ 0x82)
def sysWritable (n : Nat) : Bool := n == 0x100 || n == 0x101 || n == 0x106

/-- Whether a carve-out keeps the constraints of 01 R22. -/
def carveOk (lo hi ovf : Word) : Bool :=
  lo.toNat % 64 == 0 && hi.toNat % 64 == 0 && lo.toNat + 1024 ≤ hi.toNat && hi.toNat ≤ Config.spadBytes
  && (ovf == 0 || (ovf.toNat % 64 == 0 && 0x10000000000 ≤ ovf.toNat && ovf.toNat < 2 ^ 52))

def Space.with (p : Space) (n : Nat) (v : Word) : Space :=
  if n = 0x80 then { p with sklo := v } else if n = 0x81 then { p with skhi := v } else { p with ovf := v }

/-- The RW fields of BBLO and BBHI (05 Table 5.6). -/
def bbloMask : Word := 0x1FFFC1
def bbhiMask : Word := 0x1FFFC0

/-- A bit-buffer register after MTS: buffered bits go (05 R137). -/
def BitBuf.write (b : BitBuf) (n : Nat) (v : Word) : BitBuf :=
  let e := { b with bits := 0, bbn := 0 }
  if n = 0x40 then { e with pos := v } else if n = 0x41 then { e with lim := v } else if n = 0x42 then { e with lo := v &&& bbloMask }
  else { e with hi := v &&& bbhiMask }

/-- The RW fields of VT (07 Table 7.1). -/
def vtFields (v : Word) : Word := v &&& 0xFFFFFFFF0F7F

/-- A context after a write of one of its own registers (01 R15, 05 R123, 10 R272). -/
def Ctx.write (c : Ctx) (n : Nat) (v : Word) : Ctx :=
  match n with
  | 0x20 => { c with num := { c.num with flags := v &&& 0x7F } }
  | 0x21 => { c with num := { c.num with flagen := v &&& 0x7F } }
  | 0x22 => { c with num := { c.num with vt := vtFields v } }
  | 0x23 => { c with num := { c.num with seed := v, srCount := 0 } }
  | 0x25 => if flag v 1 then { c with stat := { c.stat with dscd := false } } else c
  | 0x30 => { c with hf := v }
  | 0x100 => { c with space := { c.space with ptroot := v &&& 0xFFFFFFFFFFFF } }
  | _ =>
    if 0x40 ≤ n ∧ n ≤ 0x43 then { c with bb := c.bb.write n v }
    else if 0x80 ≤ n ∧ n ≤ 0x82 then { c with space := c.space.with n v }
    else c

/-- A write of PREQ: RSN, and a request for each low context whose bit is one; a free context's bit clears at once (21 R404). -/
def State.writePreq (s : State) (pid : Nat) (v : Word) : State :=
  let s1 := s.modCoreAt pid (fun k => { k with rsn := fld v 15 8 })
  [0, 1, 2, 3].foldl (fun s cx =>
    if flag v cx && (s.ctxAt pid cx).run != .free then
      (s.modCoreAt pid (fun k => { k with rq := setBit k.rq cx true })).modCtxAt pid cx
        (fun c => { c with preemptAt := some (c.preemptAt.getD s.time) })
    else s) s1

/-- Whether a write of MIGR is refused: outside the handling of a MIGRATE, or naming another core than the reserved one
(22 R423). -/
def Ctx.migrRefused (c : Ctx) (v : Word) : Bool :=
  !(c.sysBusy && c.sysRec.state == 1 && c.sysRec.effid == Eff.migrate) || c.reserve != some (fld v 10 0)

/-- The move that a write of MIGR requests: the context issues nothing further here (22 R423). -/
def Ctx.requestMove (c : Ctx) (v : Word) : Ctx := { c with migr := some v, run := .parked .reply }

/-- The number and privilege checks of MFS and MTS (01 R15, 05 R123). -/
def Act.sregNumber (n : Nat) : Act Unit := do
  let s ← get
  Act.check (0x100 ≤ n && !s.ctx.stat.sup) privFault
  Act.check (s.special s.pid s.cx n).isNone (illegal 0)

def execMfs (sp : Bool) (d : Reg) (i : BitVec 14) (s : State) : Out :=
  issue s sp 4 (do
    Act.sregNumber i.toNat
    let t ← get
    let v := ((t.special t.pid t.cx i.toNat).getD 0)
    Act.wrG d v)

def execMts (sp : Bool) (a : Reg) (i : BitVec 14) (s : State) : Out :=
  issue s sp 4 (do
    let n := i.toNat
    Act.sregNumber n
    Act.check (!writable n && !supWritable n && !sysWritable n) (illegal 0)
    Act.check (supWritable n && !(← Act.sup)) privFault
    let v ← Act.rdG a
    let c ← Act.ctx
    let p := c.space.with n v
    Act.check (0x80 ≤ n && n ≤ 0x82 && !carveOk p.sklo p.skhi p.ovf) (illegal v)
    if n = 0x101 then Act.upd (fun s => s.writePreq s.pid v)
    else if n = 0x106 then do
      Act.check (c.migrRefused v) (illegal v)
      Act.updCtx (fun c => c.requestMove v)
    else Act.updCtx (fun c => c.write n v))

/-- PREQ_WRITE: a write to a core's PREQ (21 R404). -/
def execPreqWrite (core : Nat) (v : Word) (s : State) : Out := .next (s.writePreq core v)

/-- MIGR_WRITE: a write to MIGR by a migrating context requests the move to the reserved target (22 R423). -/
def execMigrWrite (core cx : Nat) (v : Word) (s : State) : Out :=
  .next (if (s.ctxAt core cx).migrRefused v then s.fault core cx (illegal v) else s.modCtxAt core cx (fun c => c.requestMove v))

end Sys2Proof.Machine
end

