-- ==== Sys2Proof/Machine/Homes.lean ====
section
/-! DEFINITION. What happens at the home of a byte: versioned lines with their installs and reclaims (10 R280 to R286),
replicated pages (10 R279), and the plain reads and writes that go through them. -/

namespace Sys2Proof.Machine

/-- Whether a held single-line commit is the writer's own. -/
def Single.ofWriter (x : Single) (by_ : Writer) : Bool := by_ != .other && x.by_ == by_

namespace State

def vline (s : State) (line : Nat) : VLine := Tab.get VLine.reset s.vers.lines line
def setVline (s : State) (line : Nat) (v : VLine) : State := s.modVers (fun r => { r with lines := Tab.set r.lines line v })

/-- The held single-line commit that keeps a line locked (10 R286). -/
def single (s : State) (line : Nat) : Option Single := s.vers.singles.find? (fun x => x.line == line)

/-- Whether a versioned line is locked against a writer: by a commit, or by another writer's held single-line commit (10 R283, R284,
R286). -/
def lockedLine (s : State) (line : Nat) (by_ : Writer) : Bool :=
  (s.vline line).lock.isSome || (match s.single line with
    | some x => !x.ofWriter by_
    | none => false)

/-- The timestamp of a writer's single-line commit on a line: that of its held one, or the value of next (10 R284). -/
def singleStamp (s : State) (line : Nat) : Nat := match s.single line with
  | some x => x.stamp
  | none => s.vers.next

/-- Whether an old version must be kept: a live snapshot selects it, or one opened later could (10 R286). `newer` is the
timestamp of the next newer version. -/
def needed (s : State) (ts newer : Nat) : Bool :=
  s.vers.stable < newer || s.vers.snaps.any (fun n => ts ≤ n.ts && n.ts < newer)

/-- The old versions of a line with the timestamp of the next newer version of each, newest first. -/
def oldsOf (v : VLine) : List (Nat × Nat) :=
  (v.olds.map (fun o => o.1)).zip (v.ts :: v.olds.map (fun o => o.1))

/-- The oldest old version of a line that is not needed, by its place in the list. -/
def oldestFree (s : State) (v : VLine) : Option Nat :=
  ((List.range v.olds.length).reverse).find? (fun i => match (oldsOf v)[i]? with
    | some (ts, newer) => !s.needed ts newer
    | none => false)

/-- Bytes of the version store of a die in use, 80 to a version (10 R280). -/
def storeUsed (s : State) (die : Nat) : Nat :=
  80 * s.vers.lines.foldl (fun n e => if e.1 / Config.dieBytes = die then n + e.2.olds.length else n) 0

/-- Whether a line can take a new version now, with the reserve of its die's version store or without (10 R286). -/
def roomOn (s : State) (line : Nat) (reserve : Bool) : Bool :=
  let v := s.vline line
  let freed := 15 ≤ v.olds.length && (s.oldestFree v).isSome
  let used := s.storeUsed (line / Config.dieBytes) - (if freed then 80 else 0)
  let room := if reserve then s.sys.vstore else s.sys.vstore - s.sys.vstore / 64
  (v.olds.length < 15 || freed) && used + 80 ≤ room

/-- Whether a new version of a line with timestamp `ts` can be installed now (10 R286). -/
def installable (s : State) (line ts : Nat) : Bool := s.roomOn line (ts == s.vers.stable + 1)

/-- The timestamps given and not yet installed (10 R281). -/
def openStamps (s : State) : List Nat := s.vers.commits.filterMap (fun c => c.stamp) ++ s.vers.singles.map (fun x => x.stamp)

/-- Whether a writer's new version of a line can be installed now: it may use the reserve when no one else's timestamp comes before. -/
def installableBy (s : State) (line : Nat) (by_ : Writer) : Bool :=
  let ts := s.singleStamp line
  let others := s.vers.commits.filterMap (fun c => c.stamp) ++ (s.vers.singles.filter (fun x => !x.ofWriter by_)).map (fun x => x.stamp)
  s.roomOn line (others.all (fun n => ts < n))

/-- A held single-line commit of a writer on a line is over: installed, or its write is not made after all. -/
def endSingle (s : State) (line : Nat) (by_ : Writer) : State :=
  s.modVers (fun v => { v with singles := v.singles.filter (fun x => !(x.line == line && x.ofWriter by_)) })
/-- Old version i of a line goes, with its uncorrectable mark (10 R270, R285). -/
def reclaim (s : State) (line i : Nat) : State :=
  let v := s.vline line
  let t := s.setVline line { v with olds := v.olds.eraseIdx i }
  match v.olds[i]? with
  | some o => { t with ue := t.ue.filter (fun k => k != versionKey line o.1) }
  | none => t

/-- A new version of a line is held from now, if it is not yet (10 R286). -/
def holdLine (s : State) (line : Nat) : State := s.modVers (fun v => { v with heldAt := Tab.set v.heldAt line (Tab.get s.time v.heldAt line) })

/-- Installs a new current version of a line: the old one joins the old versions with its mark, `data` becomes current (10 R270,
R283). -/
def install (s : State) (line ts : Nat) (data : List Byte) : State :=
  let s1 := if 15 ≤ (s.vline line).olds.length then
      match s.oldestFree (s.vline line) with
      | some i => s.reclaim line i
      | none => s
    else s
  let v := s1.vline line
  let s2 := if s1.ue.contains line then { s1 with ue := versionKey line v.ts :: s1.ue } else s1
  ((s2.setVline line { v with ts := ts, olds := (v.ts, s.rd line 64) :: v.olds }).modVers (fun v => { v with
    heldAt := Tab.del v.heldAt line })).wr line data

/-- stable: the highest timestamp such that every commit up to it has installed all its versions (10 R281). -/
def advanceStable (s : State) : State :=
  let n := max s.vers.stable (s.openStamps.foldl min s.vers.next - 1)
  s.modVers (fun v => { v with stable := n, acquires := v.acquires.filter (fun e => n < e.2) })

/-- The bytes of a line with n bytes from `off` replaced. -/
def overlay (line : List Byte) (off : Nat) (data : List Byte) : List Byte :=
  line.take off ++ data ++ line.drop (off + data.length)

/-- A single-line commit: takes a timestamp, if it has none from being held, installs, and stable follows (10 R284). -/
def singleCommit (s : State) (line : Nat) (data : List Byte) (by_ : Writer) : State :=
  let t := s.install line (s.singleStamp line) data
  (match s.single line with
    | some _ => t.endSingle line by_
    | none => t.modVers (fun v => { v with next := v.next + 1 })).advanceStable

/-- Whether timestamps are left (10 R281). -/
def stampsLeft (s : State) : Bool := s.vers.next ≤ 0xFFFFFFFFFFFF

end State

/-- Whether a write of n bytes at a home can be made now: no lock, a timestamp and room for the new versions, and a lead die for its
duties (10 R284, R286; 24 R431). -/
def State.canPut (s : State) (h : Home) (n : Nat) (by_ : Writer) : Bool :=
  match h with
  | .dev pa true _ _ => (State.linesOf pa n).all (fun l => !s.lockedLine l by_ && s.installableBy l by_ && ((s.single l).isSome || s.stampsLeft)) && s.sys.lval
  | .dev _ false true _ => s.sys.lval
  | _ => true

/-- The first line of a write that has a lock and no room is held: from now, and, where the writer is an access or a copy, with its
lock and its timestamp: DEDUCED (10 R286; log 56). -/
def State.heldInstall (s : State) (h : Home) (n : Nat) (by_ : Writer) : State :=
  match h with
  | .dev pa true _ _ =>
    match (State.linesOf pa n).find? (fun l => !s.lockedLine l by_ && !s.installableBy l by_) with
    | none => s
    | some l =>
      let t := s.holdLine l
      if by_ = .other ∨ (s.single l).isSome ∨ s.stampsLeft = false ∨ s.sys.lval = false then t
      else t.modVers (fun v => { v with next := v.next + 1, singles := v.singles ++ [⟨by_, l, v.next⟩] })
  | _ => s

/-- Writes bytes that lie in one line, or whole lines, of a versioned page: one single-line commit per line (10 R284). -/
def State.putVersioned (s : State) (pa : Nat) (bs : List Byte) (by_ : Writer) : State :=
  (State.linesOf pa bs.length).foldl (fun s l =>
    let lo := max pa l
    let hi := min (pa + bs.length) (l + 64)
    s.singleCommit l (State.overlay (s.rd l 64) (lo - l) ((bs.drop (lo - pa)).take (hi - lo))) by_) s

/-- A write that a held single-line commit was for is not made: the line is free again, and stable no longer waits for it. -/
def State.cancelHeld (s : State) (h : Home) (n : Nat) (by_ : Writer) : State :=
  match h with
  | .dev pa true _ _ =>
    let ls := (State.linesOf pa n).filter (fun l => match s.single l with
      | some x => x.ofWriter by_
      | none => false)
    if ls.isEmpty then s
    else (ls.foldl (fun s l => (s.endSingle l by_).modVers (fun v => { v with heldAt := Tab.del v.heldAt l })) s).advanceStable
  | _ => s

/-- Gives a replicated write its number and applies it to the lead die's replica; the others are still to apply it
(10 R279). -/
def State.putReplicated (s : State) (pa dmask : Nat) (bs : List Byte) (by_ : Writer) : State :=
  let off := pa % Config.dieBytes
  let dies := (List.range 8).filter (fun d => bitOf dmask d && d != s.sys.lead)
  let t := s.wr (s.sys.lead * Config.dieBytes + off) bs
  t.modVers (fun v => { v with
    repSeq := v.repSeq + 1
    reps := if dies.isEmpty then v.reps else v.reps ++ [⟨v.repSeq, off, bs, dies, by_⟩] })

/-- A plain write at a home, which can be made now (10 R254, R279, R284). Register windows hold no bytes. -/
def State.put (s : State) (h : Home) (bs : List Byte) (by_ : Writer) : State :=
  match h with
  | .dev pa true _ _ => s.putVersioned pa bs by_
  | .dev pa false true dm => s.putReplicated pa dm bs by_
  | .regs _ => s
  | h => s.wr h.key bs

/-- The bytes that an RMW finds at its home: on a replicated page the lead die's (10 R279). -/
def State.homeBytes (s : State) (h : Home) (n : Nat) : List Byte :=
  match h with
  | .dev pa _ true _ => s.rd (s.sys.lead * Config.dieBytes + pa % Config.dieBytes) n
  | h => s.rd h.key n

/-- Whether the version of bytes that a snapshot reads is uncorrectable (10 R270). -/
def State.versionBad (s : State) (pa n ts : Nat) : Bool :=
  let v := s.vline (lineOf pa)
  if v.ts ≤ ts then s.bad pa n
  else match v.olds.find? (fun o => o.1 ≤ ts) with
    | some o => s.ue.contains (State.versionKey (lineOf pa) o.1)
    | none => s.bad pa n

/-- The newest version of a line whose timestamp is `ts` or less (10 R282). -/
def State.versionAt (s : State) (line ts : Nat) : List Byte :=
  let v := s.vline line
  if v.ts ≤ ts then s.rd line 64 else ((v.olds.find? (fun o => o.1 ≤ ts)).map (fun o => o.2)).getD (s.rd line 64)

end Sys2Proof.Machine
end

