-- ==== Sys2Proof/Machine/Image.lean ====
section
/-! DEFINITION. Context images (21 R405 Table 21.3): what a save writes, what a load reads, the operations that may still
report to an image (21 R406), and the streams of a saved context (17 R392). -/

namespace Sys2Proof.Machine

/-- The queues of a context, in the order of the image. -/
def ownQueues : List Nat := [0, 1, 2, 3, 4, 9, 10, 11]

/-- The 25 register slots from 0x030. -/
def Ctx.imageRegs (c : Ctx) : List Word :=
  let i := c.ident
  [i.lid, i.task] ++ i.org.toList ++ i.ext.toList ++ [i.west, i.east, i.north, i.south, i.rectw, i.recth]
  ++ [c.num.flagen, c.num.vt, c.num.seed, c.tx.ts, c.txstat, c.space.sklo, c.space.skhi, c.space.ovf, c.space.ptroot]

/-- The 4,096 bytes of a context image, as it stands at a time. -/
def Ctx.image (c : Ctx) (pid cx now : Nat) (r : CRec) (flags : Word) (pend : Bool) : List Byte :=
  let head : List Word :=
    [W (0xC7A1 * 2 ^ 48 + 2 ^ 40 + cx % 8 * 2 ^ 32 + c.epoch.toNat * 2 ^ 16 + b2n pend),
     W (fld c.ident.launch 31 0 * 2 ^ 32 + pid % 2 ^ 11), flags, c.num.srCount, c.tstat now,
     W (c.tx.lbase % 2 ^ 21 * 2 ^ 32 + c.sysGen.toNat)]
  let counts := ownQueues.flatMap (fun q => bytesOf 1 (Tab.get [] c.qs q).length)
  let vs := c.regs.v.toList.flatMap (fun v => bytesOf 64 v.toNat)
  let qs := ownQueues.flatMap (fun q => wordsBytes (padTo 16 0 (Tab.get [] c.qs q)))
  wordsBytes (head ++ c.imageRegs) ++ counts ++ wordsBytes r.words ++ vs ++ qs

/-- TXSTAT and the other parts of a transaction from their words. -/
def Tx.ofWords (ts st lb : Word) (seq : Nat) (revoked : Bool) : Tx where
  ts := ts
  opened := flag st 0
  cfl := flag st 2
  rvk := flag st 3 || revoked
  logn := fld st 23 15
  lcap := fld st 40 32
  lbase := fld lb 52 32
  seq := seq

/-- The context that an image restores, over the state that the image does not hold (21 R408). -/
def Ctx.ofImage (hid : Ctx) (w : List Word) : Ctx :=
  let at_ := fun i => w.getD i 0
  let r := CRec.ofWords ((w.drop 32).take 96)
  let vec := fun i => BitVec.ofNat 512 (natOf (wordsBytes ((w.drop (128 + 8 * i)).take 8)))
  let counts := bytesOf 8 (at_ 31).toNat
  let queue := fun i => ((w.drop (384 + 16 * i)).take 16).take (min 16 ((counts.getD i 0).toNat))
  { hid with
    run := .runnable
    regs := { g := r.g.set 31 r.g31, p := r.p, v := Vector.ofFn (fun i => vec i.val)
              gp := BitVec.allOnes 32, vp := BitVec.allOnes 32, pp := BitVec.allOnes 8 }
    pc := r.pc, ras := r.ras, rdep := r.rdep, bb := r.bb, hf := r.hf, hframe := r.hframe
    num := { flags := at_ 2 &&& 0x7F, flagen := at_ 22 &&& 0x7F, vt := vtWord (at_ 23), seed := at_ 24, srCount := at_ 3 }
    stat := { emrg := r.emrg, dscd := flag (at_ 4) 1, sup := r.sup }
    ident := { lid := at_ 6, task := at_ 7, launch := W (fld (at_ 1) 63 32), org := vecOf 4 0 ((w.drop 8).take 4)
               ext := vecOf 4 0 ((w.drop 12).take 4), west := at_ 16, east := at_ 17, north := at_ 18, south := at_ 19
               rectw := at_ 20, recth := at_ 21 }
    tx := Tx.ofWords (at_ 25) (at_ 26) (at_ 5) hid.tx.seq (hid.tx.rvk && hid.tx.opened)
    space := { sklo := at_ 27, skhi := at_ 28, ovf := at_ 29, ptroot := at_ 30 &&& 0xFFFFFFFFFFFF }
    epoch := BitVec.ofNat 16 (fld (at_ 0) 31 16), sysGen := BitVec.ofNat 16 (fld (at_ 5) 15 0)
    qs := (List.range 8).foldl (fun t i => if (queue i).isEmpty then t else Tab.set t (ownQueues.getD i 0) (queue i)) [] }
where
  vtWord (v : Word) : Word := v &&& 0xFFFFFFFF0F7F

/-- A context that is free: nothing of its activation is left but the counts that outlive it (06 R154, R155). -/
def Ctx.freed (c : Ctx) : Ctx := { Ctx.reset with starts := c.starts, sysGen := c.sysGen }

/-- The later of two counts of one context number, from which its next generation is taken (06 R154, R158). -/
def laterCount (a b : BitVec 16) : BitVec 16 := if a.toNat < b.toNat then b else a

/-- The activation whose write a replicated write is; 0 for another agent's. -/
def RepW.actOf (r : RepW) : Nat :=
  match r.by_ with
  | .access _ _ a _ => a
  | .copy a _ => a
  | .other => 0

/-- Whether an operation that an activation issued is still outstanding: not carried out, or not toward every replica (21 R406, 10
R279). -/
def State.outstanding (s : State) (act : Nat) : Bool :=
  s.net.reqs.any (fun r => r.act == act) || s.copies.any (fun c => c.act == act) || s.vers.reps.any (fun r => r.actOf == act)
  || s.cores.any (fun k => k.2.unit.mat.cmds.any (fun c => c.act == act) || k.2.unit.mat.stat.any (fun e => e.act == act)
      || k.2.unit.rank.cmds.any (fun c => c.act == act))

/-- Whether what an activation issued is still to be carried out though the activation has ended: no context runs it and no image holds
it (01 R28). -/
def State.left (s : State) (act : Nat) : Bool := s.ownerOf act == .gone

/-- Whether a context is free for a new activation: nothing that an ended activation issued in it is still to be carried out (01
R28). -/
def State.vacant (s : State) (pid cx : Nat) : Bool :=
  let u := (s.coreAt pid).unit
  (s.ctxAt pid cx).run == .free
  && !s.net.reqs.any (fun r => r.pid == pid && r.cx == cx && s.left r.act)
  && !s.vers.reps.any (fun r => match r.by_ with
    | .access p c a _ => p == pid && c == cx && s.left a
    | _ => false)
  && !s.copies.any (fun c => c.pid == pid && c.cx == cx && s.left c.act)
  && !u.mat.cmds.any (fun c => c.cx == cx && s.left c.act) && !u.rank.cmds.any (fun c => c.cx == cx && s.left c.act)

/-- PEND of the images of an activation returns to 0 once nothing of it is outstanding (21 R406, 15 R458). -/
def State.refreshPend (s : State) (act : Nat) : State :=
  if s.outstanding act then s
  else (s.saved.filter (fun v => v.hid.act == act)).foldl (fun s v => s.wrW v.home (s.rdW v.home &&& ~~~ 1)) s

def State.stream (s : State) (pid n : Nat) : Strm := Tab.get Strm.reset (s.coreAt pid).unit.rank.strms n
def State.setStream (s : State) (pid n : Nat) (t : Strm) : State :=
  s.modCoreAt pid (fun k => { k with unit := { k.unit with rank := { k.unit.rank with strms := Tab.set k.unit.rank.strms n t } } })

/-- The armed and finished streams that an activation owns become HELD (17 R392). -/
def State.holdStreams (s : State) (pid act : Nat) : State :=
  [0, 1, 2, 3].foldl (fun s n =>
    let t := s.stream pid n
    if t.owner == act && (t.state == 1 || t.state == 2) then s.setStream pid n { t with saved := t.state, state := 3 } else s) s

end Sys2Proof.Machine
end

