-- ==== Sys2Proof/Machine/Number.lean ====
section
/-! DEFINITION. Number formats, the one rounding function and its flags (03 R63 to R81), the window sum of the matrix unit
(R83) and the reduction tree (R88), over exact values. -/

namespace Sys2Proof.Machine

/-! ## Flags (03 Table 3.6) -/

namespace Fl
def nx : Nat := 1
def uf : Nat := 2
def of : Nat := 4
def dz : Nat := 8
def nv : Nat := 16
def sat : Nat := 32
def nan8 : Nat := 64
end Fl

/-! ## Format codes (03 Table 3.1) -/

/-- Width in bits of a format code. -/
def fmtWidth (f : Nat) : Nat :=
  if f < 2 then 8 else if f < 4 then 16 else if f < 6 then 32 else if f = 6 then 64
  else if f < 12 then 8 else if f < 14 then 16 else if f = 14 then 32 else 64

def fmtFloat (f : Nat) : Bool := 8 ≤ f
/-- INT8, INT16, INT32, INT64. -/
def fmtSigned (f : Nat) : Bool := f == 0 || f == 2 || f == 4 || f == 6
/-- UINT8, UINT16, UINT32 and the signed integers. -/
def fmtInt (f : Nat) : Bool := f < 7
/-- E4M3, E4M3Z, E5M2Z: the formats whose NaN raises NAN8 (R77). -/
def fmtNan8 (f : Nat) : Bool := f == 8 || f == 10 || f == 11
/-- E4M3Z and E5M2Z, whose only zero is 0x00 and only NaN 0x80. -/
def fmtZ (f : Nat) : Bool := f == 10 || f == 11
/-- Formats that have infinities. -/
def fmtInf (f : Nat) : Bool := f == 9 || 12 ≤ f

/-- Mantissa bits and bias (03 Table 3.2). -/
def fmtM (f : Nat) : Nat :=
  if f = 8 ∨ f = 10 then 3 else if f = 9 ∨ f = 11 then 2 else if f = 12 then 10 else if f = 13 then 7 else if f = 14 then 23 else 52
def fmtBias (f : Nat) : Nat :=
  if f = 8 then 7 else if f = 9 then 15 else if f = 10 then 8 else if f = 11 then 16 else if f = 12 then 15
  else if f = 13 ∨ f = 14 then 127 else 1023

/-- The magnitude code of the largest finite value, of infinity, and the canonical NaN (03 Table 3.2). -/
def fmtMax (f : Nat) : Nat :=
  let all := 2 ^ (fmtWidth f - 1) - 1
  if f = 8 then 0x7E else if fmtZ f then 0x7F else all - 2 ^ fmtM f
def fmtInfCode (f : Nat) : Nat := 2 ^ (fmtWidth f - 1) - 2 ^ fmtM f
def fmtNaN (f : Nat) : Nat :=
  if f = 8 then 0x7F else if fmtZ f then 0x80 else fmtInfCode f + 2 ^ (fmtM f - 1)

/-- The exponent of the last place of the subnormals. -/
def fmtQmin (f : Nat) : Int := 1 - (fmtBias f : Int) - fmtM f

/-! ## Exact values -/

/-- An exact real (−1)^neg × mag × 2^exp. With `st` set its magnitude lies above mag × 2^exp and below (mag + 1) × 2^exp.
`fmag` is the magnitude from which the stochastic fraction is taken (R72, R83). -/
structure Exact where
  neg  : Bool
  mag  : Nat
  exp  : Int
  st   : Bool
  fmag : Nat
deriving DecidableEq, Repr

def Exact.of (neg : Bool) (mag : Nat) (exp : Int) : Exact := ⟨neg, mag, exp, false, mag⟩
def Exact.ofInt (z : Int) : Exact := Exact.of (decide (z < 0)) z.natAbs 0
def Exact.zero : Exact := Exact.of false 0 0

/-- What a code of a format stands for. -/
inductive Num where
  | nan (signalling : Bool)
  | inf (neg : Bool)
  | fin (x : Exact)
deriving DecidableEq, Repr

/-- The value D of a DP8 byte, 64 times the value v (R65). -/
def dp8 (x : Nat) : Int :=
  let term := fun t : Nat => let c := t % 8; if c = 7 then (0 : Int) else (if t / 8 % 2 = 1 then -1 else 1) * 2 ^ (6 - c)
  term (x / 16 % 16) + term (x % 16)

/-- The integer value of a code of an integer format (R64). -/
def intOf (f x : Nat) : Int := if fmtSigned f then toSigned (fmtWidth f) x else (x % 2 ^ fmtWidth f : Nat)

/-- The value of a code (R64 to R67). -/
def numOf (f x : Nat) : Num :=
  if f = 7 then
    let d := dp8 x
    .fin (Exact.of (decide (d < 0)) d.natAbs (-6))
  else if fmtInt f then .fin (Exact.ofInt (intOf f x))
  else
    let w := fmtWidth f
    let m := fmtM f
    let neg := bitOf x (w - 1)
    let c := x % 2 ^ (w - 1)
    if fmtZ f && x % 2 ^ w == 0x80 then .nan false
    else if f = 8 ∧ c = 0x7F then .nan false
    else if fmtInf f ∧ c = fmtInfCode f then .inf neg
    else if fmtInf f ∧ fmtInfCode f < c then .nan (!bitOf c (m - 1))
    else
      let e := c / 2 ^ m
      if e = 0 then .fin (Exact.of neg c (fmtQmin f)) else .fin (Exact.of neg (2 ^ m + c % 2 ^ m) (fmtQmin f + e - 1))

/-- NAN8 for a NaN code read from an operand (R77). -/
def readFlags (f x : Nat) : Nat :=
  match numOf f x with
  | .nan s => (if fmtNan8 f then Fl.nan8 else 0) ||| (if s then Fl.nv else 0)
  | _ => 0

/-! ## Rounding (R71 to R76) -/

/-- floor(log2 n) for n > 0. -/
def log2 (n : Nat) : Nat := n.log2

/-- A rounding step: the multiple `a` of the quantum at or below, whether the value is not on the grid, and whether the
value farther from zero is chosen. -/
structure Grid where
  a : Nat
  inexact : Bool
  up : Bool

/-- Rounds |x| to a multiple of 2^q (R71, R72). -/
def Exact.grid (x : Exact) (q : Int) (mode rho : Nat) : Grid :=
  let r := (q - x.exp).toNat
  let l := (x.exp - q).toNat
  let unit := 2 ^ r
  let m := x.mag * 2 ^ l
  let a := m / unit
  let rem := m % unit
  let inexact := rem != 0 || x.st
  let half := compare (2 * rem) unit
  let up :=
    if !inexact then false
    else match mode with
      | 0 => half == .gt || (half == .eq && (x.st || a % 2 == 1))
      | 1 => false
      | 2 => x.neg
      | 3 => !x.neg
      | 4 => half != .lt
      | _ => decide (rho < 2 ^ 32 * (x.fmag * 2 ^ l - a * unit) / unit)
  ⟨a, inexact, up⟩

/-- A result: code and flags. -/
structure Res where
  code : Nat
  fl : Nat
deriving DecidableEq, Repr

def signBit (f : Nat) (neg : Bool) : Nat := if neg then 2 ^ (fmtWidth f - 1) else 0

/-- A zero of a floating-point format (R67, R78). -/
def zeroCode (f : Nat) (neg : Bool) : Nat := if fmtZ f then 0 else signBit f neg

/-- The canonical NaN, with NAN8 where the format raises it (R67, R74 step 5). -/
def nanRes (f fl : Nat) : Res := ⟨fmtNaN f, fl ||| if fmtNan8 f then Fl.nan8 else 0⟩

/-- An infinite value in a floating-point format (R74 step 2). -/
def infRes (f : Nat) (sat neg : Bool) : Res :=
  if fmtInf f then ⟨signBit f neg + fmtInfCode f, 0⟩
  else if sat then ⟨signBit f neg + fmtMax f, Fl.sat⟩
  else nanRes f 0

/-- An overflow (03 Table 3.4). -/
def overflowRes (f mode : Nat) (sat neg : Bool) : Res :=
  let away := mode == 0 || mode == 4 || mode == 5 || (mode == 3 && !neg) || (mode == 2 && neg)
  if sat then ⟨signBit f neg + fmtMax f, Fl.of + Fl.nx + Fl.sat⟩
  else if !away then ⟨signBit f neg + fmtMax f, Fl.of + Fl.nx⟩
  else if fmtInf f then ⟨signBit f neg + fmtInfCode f, Fl.of + Fl.nx⟩
  else nanRes f (Fl.of + Fl.nx)

/-- A value W + ε whose W is zero: positive and smaller than every rounding boundary (R83). -/
def Exact.solid (x : Exact) : Exact := if x.mag = 0 ∧ x.st then ⟨false, 1, -5000, true, 0⟩ else x

/-- round() of a finite value into a floating-point format (R74 steps 3 to 5, R75). -/
def roundFloat (f mode : Nat) (sat : Bool) (rho : Nat) (x0 : Exact) : Res :=
  let x := x0.solid
  if x.mag = 0 then ⟨zeroCode f x.neg, 0⟩
  else
    let top := x.exp + log2 x.mag
    let q := max (top - fmtM f) (fmtQmin f)
    let g := x.grid q mode rho
    let y := if g.up then g.a + 1 else g.a
    let code := if q = fmtQmin f then y else (q - fmtQmin f).toNat * 2 ^ fmtM f + y
    let low := if q = fmtQmin f then g.a else (q - fmtQmin f).toNat * 2 ^ fmtM f + g.a
    let past := fmtMax f < code || (mode == 5 && (fmtMax f < low || (low == fmtMax f && g.inexact)))
    if past then overflowRes f mode sat x.neg
    else
      let h := x.grid (top - fmtM f) mode rho
      let free := if h.up then h.a + 1 else h.a
      let least : Int := fmtQmin f + fmtM f
      let tiny := decide (top < least) && !(top + 1 == least && free == 2 ^ (fmtM f + 1))
      ⟨if code = 0 then zeroCode f x.neg else signBit f x.neg + code, (if g.inexact then Fl.nx else 0) + if g.inexact && tiny then Fl.uf else 0⟩

/-- The range of an integer format. -/
def intMin (f : Nat) : Int := if fmtSigned f then -(2 ^ (fmtWidth f - 1) : Nat) else 0
def intMax (f : Nat) : Int := if fmtSigned f then (2 ^ (fmtWidth f - 1) : Nat) - 1 else (2 ^ fmtWidth f : Nat) - 1

/-- The code of an integer in an integer format. -/
def intCode (f : Nat) (z : Int) : Nat := wrapTo (fmtWidth f) z

/-- An out-of-range conversion (R76). -/
def intOut (f : Nat) (sat neg : Bool) : Res :=
  if sat then ⟨intCode f (if neg then intMin f else intMax f), Fl.sat + Fl.nx⟩ else ⟨intCode f (intMin f), Fl.nv⟩

/-- Conversion of a value into an integer format (R76). Exponents far above every range are out of range. -/
def roundInt (f mode : Nat) (sat : Bool) (rho : Nat) (x0 : Exact) : Res :=
  let x := x0.solid
  if x.mag = 0 then ⟨0, 0⟩
  else if 64 < x.exp + log2 x.mag then intOut f sat x.neg
  else
    let g := x.grid 0 mode rho
    let y := if g.up then g.a + 1 else g.a
    let z : Int := if x.neg then -(y : Int) else y
    if z < intMin f ∨ intMax f < z then intOut f sat x.neg
    else ⟨intCode f z, if g.inexact then Fl.nx else 0⟩

/-- round(x, fmt, mode, sat) (R74, R76). A signalling NaN raises NV besides (R77). -/
def roundNum (f mode : Nat) (sat : Bool) (rho : Nat) (x : Num) : Res :=
  match x with
  | .nan s =>
    if fmtInt f then ⟨0, Fl.nv⟩ else nanRes f (if s then Fl.nv else 0)
  | .inf neg => if fmtInt f then intOut f sat neg else infRes f sat neg
  | .fin x => if fmtInt f then roundInt f mode sat rho x else roundFloat f mode sat rho x

/-- The integer rule of R76 for an exact integer result. -/
def intRule (f : Nat) (sat : Bool) (z : Int) : Res :=
  if intMin f ≤ z ∧ z ≤ intMax f then ⟨intCode f z, 0⟩
  else if sat then ⟨intCode f (if z < intMin f then intMin f else intMax f), Fl.sat⟩
  else ⟨intCode f z, 0⟩

/-- The draw ρ of R72. -/
def srDraw (seed ctx n lane : Nat) : Nat :=
  let m := 2 ^ 64
  let z0 := (seed + ctx * 0x9E3779B97F4A7C15 + n * 0xBF58476D1CE4E5B9 + lane * 0x94D049BB133111EB) % m
  let z1 := (z0 ^^^ (z0 / 2 ^ 30)) * 0xBF58476D1CE4E5B9 % m
  let z2 := (z1 ^^^ (z1 / 2 ^ 27)) * 0x94D049BB133111EB % m
  let z3 := z2 ^^^ (z2 / 2 ^ 31)
  z3 / 2 ^ 32

/-! ## Exact arithmetic -/

def Exact.negate (x : Exact) : Exact := { x with neg := !x.neg }

/-- The integer x stands for in units of 2^e, for e at most its exponent. -/
def Exact.units (x : Exact) (e : Int) : Int :=
  let m : Int := x.mag * 2 ^ (x.exp - e).toNat
  if x.neg then -m else m

/-- The least exponent among exact values. -/
def minExp (l : List Exact) : Int := l.foldl (fun e x => if x.mag = 0 then e else min e x.exp) (match l.find? (fun x => x.mag != 0) with
  | some x => x.exp
  | none => 0)

/-- The sign of an exact zero sum (R78). -/
def zeroSumNeg (mode : Nat) (l : List Exact) : Bool := l.all (fun x => x.mag == 0 && x.neg) || mode == 2

/-- The exact sum of exact values, none sticky (R78, R87). -/
def sumExact (mode : Nat) (l : List Exact) : Exact :=
  let e := minExp l
  let z := l.foldl (fun z x => z + if x.mag = 0 then 0 else x.units e) (0 : Int)
  if z = 0 then Exact.of (zeroSumNeg mode l) 0 0 else Exact.of (decide (z < 0)) z.natAbs e

def mulExact (a b : Exact) : Exact := Exact.of (a.neg != b.neg) (a.mag * b.mag) (a.exp + b.exp)

/-- x × 2^k. -/
def Exact.scale (x : Exact) (k : Int) : Exact := { x with exp := x.exp + k }

/-- a / b for non-zero b, to far more places than any format keeps, sticky below (R178). -/
def divExact (a b : Exact) : Exact :=
  let k := 200 + log2 b.mag
  let n := a.mag * 2 ^ k
  let q := n / b.mag
  ⟨a.neg != b.neg, q, a.exp - b.exp - k, n % b.mag != 0, q⟩

/-- The integer square root of n, found bit by bit from bit k - 1 down. -/
def isqrt (n : Nat) : Nat → Nat → Nat
  | 0, r => r
  | k + 1, r => if (r + 2 ^ k) * (r + 2 ^ k) ≤ n then isqrt n k (r + 2 ^ k) else isqrt n k r

/-- The square root of num / den × 2^e, to far more places than any format keeps. -/
def rootExact (num den : Nat) (e : Int) : Exact :=
  let odd := e % 2 != 0
  let num := if odd then 2 * num else num
  let e := if odd then e - 1 else e
  let k := 160 + log2 den
  let n := num * 2 ^ (2 * k)
  let r := isqrt (n / den) (log2 (n / den) / 2 + 1) 0
  ⟨false, r, e / 2 - k, r * r * den != n, r⟩

/-! ## Operations of R77 and R178 -/

/-- NaN among operands: the result, and NV for a signalling one. -/
def anyNan (l : List Num) : Bool := l.any (fun x => match x with
  | .nan _ => true
  | _ => false)
def anySig (l : List Num) : Bool := l.any (fun x => match x with
  | .nan s => s
  | _ => false)

def Num.negate : Num → Num
  | .nan s => .nan s
  | .inf n => .inf (!n)
  | .fin x => .fin x.negate

def Num.isZero : Num → Bool
  | .fin x => x.mag == 0
  | _ => false
def Num.isInf : Num → Bool
  | .inf _ => true
  | _ => false
def Num.neg? : Num → Bool
  | .nan _ => false
  | .inf n => n
  | .fin x => x.neg

/-- A product of values, neither NaN and not 0 × ∞. -/
def prodNum (a b : Num) : Num :=
  match a, b with
  | .fin x, .fin y => .fin (mulExact x y)
  | _, _ => .inf (a.neg? != b.neg?)

/-- A sum of values that are not NaN: NV for infinities of both signs. -/
def sumNums (f mode : Nat) (sat : Bool) (rho : Nat) (l : List Num) : Res :=
  let infs := l.filter Num.isInf
  match infs with
  | i :: _ =>
    if infs.any Num.neg? && infs.any (fun x => !x.neg?) then nanRes f Fl.nv else roundNum f mode sat rho i
  | [] => roundNum f mode sat rho (.fin (sumExact mode (l.filterMap (fun x => match x with
      | .fin y => some y
      | _ => none))))

/-- Whether a × b is 0 × ∞. -/
def badProd (a b : Num) : Bool := (a.isZero && b.isInf) || (a.isInf && b.isZero)

/-- The rounding environment of an operation: mode, SAT, and the draw of a lane. -/
structure Rnd where
  mode : Nat
  sat : Bool
  rho : Nat → Nat

def fAdd (f : Nat) (r : Rnd) (lane : Nat) (a b : Num) : Res :=
  if anyNan [a, b] then nanRes f (if anySig [a, b] then Fl.nv else 0) else sumNums f r.mode r.sat (r.rho lane) [a, b]

def fMul (f : Nat) (r : Rnd) (lane : Nat) (a b : Num) : Res :=
  if anyNan [a, b] then nanRes f (if anySig [a, b] then Fl.nv else 0)
  else if badProd a b then nanRes f Fl.nv
  else roundNum f r.mode r.sat (r.rho lane) (prodNum a b)

/-- a × b + c, rounded once (R87). 0 × ∞ raises NV whatever c is (R77). -/
def fMa (f : Nat) (r : Rnd) (lane : Nat) (a b c : Num) : Res :=
  if anyNan [a, b] then nanRes f (if anySig [a, b, c] then Fl.nv else 0)
  else if badProd a b then nanRes f Fl.nv
  else if anyNan [c] then nanRes f (if anySig [c] then Fl.nv else 0)
  else sumNums f r.mode r.sat (r.rho lane) [prodNum a b, c]

/-- An infinity that DZ gives (R77). -/
def dzRes (f : Nat) (neg : Bool) : Res :=
  if fmtInf f then ⟨signBit f neg + fmtInfCode f, Fl.dz⟩ else nanRes f Fl.dz

def fDiv (f : Nat) (r : Rnd) (lane : Nat) (a b : Num) : Res :=
  match a, b with
  | .fin x, .fin y =>
    if y.mag = 0 then if x.mag = 0 then nanRes f Fl.nv else dzRes f (x.neg != y.neg)
    else if x.mag = 0 then ⟨zeroCode f (x.neg != y.neg), 0⟩
    else roundFloat f r.mode r.sat (r.rho lane) (divExact x y)
  | .fin x, .inf n => ⟨zeroCode f (x.neg != n), 0⟩
  | .inf n, .fin y => infRes f r.sat (n != y.neg)
  | .inf _, .inf _ => nanRes f Fl.nv
  | _, _ => nanRes f (if anySig [a, b] then Fl.nv else 0)

def fSqrt (f : Nat) (r : Rnd) (lane : Nat) (a : Num) : Res :=
  match a with
  | .nan s => nanRes f (if s then Fl.nv else 0)
  | .inf n => if n then nanRes f Fl.nv else infRes f r.sat false
  | .fin x =>
    if x.mag = 0 then ⟨zeroCode f x.neg, 0⟩
    else if x.neg then nanRes f Fl.nv
    else roundFloat f r.mode r.sat (r.rho lane) (rootExact x.mag 1 x.exp)

def fRcp (f : Nat) (r : Rnd) (lane : Nat) (a : Num) : Res := fDiv f r lane (.fin (Exact.of false 1 0)) a

def fRsq (f : Nat) (r : Rnd) (lane : Nat) (a : Num) : Res :=
  match a with
  | .nan s => nanRes f (if s then Fl.nv else 0)
  | .inf n => if n then nanRes f Fl.nv else ⟨zeroCode f false, 0⟩
  | .fin x =>
    if x.mag = 0 then dzRes f x.neg
    else if x.neg then nanRes f Fl.nv
    else roundFloat f r.mode r.sat (r.rho lane) (rootExact 1 x.mag (-x.exp))

/-- The special operands of a sum of products (R85): the result that replaces the sum, if there is one. -/
def specials (f : Nat) (sat : Bool) (c : Num) (ps : List (Num × Num)) (scaleNan : Bool) : Option Res :=
  let all := c :: ps.flatMap (fun p => [p.1, p.2])
  let zi := ps.any (fun p => badProd p.1 p.2)
  let infs := (if c.isInf then [c.neg?] else []) ++ ps.filterMap (fun p =>
    if (p.1.isInf || p.2.isInf) && !anyNan [p.1, p.2] && !badProd p.1 p.2 then some (p.1.neg? != p.2.neg?) else none)
  let both := infs.contains true && infs.contains false
  let fl := if anySig all || zi || both then Fl.nv else 0
  if anyNan all || scaleNan || zi || both then some (nanRes f fl)
  else match infs with
    | n :: _ => some (infRes f sat n)
    | [] => none

/-- The finite part of a value. -/
def Num.exact : Num → Exact
  | .fin x => x
  | _ => Exact.zero

/-- The order of two values that are not NaN. -/
def ordNum (a b : Num) : Ordering :=
  match a, b with
  | .inf n, .inf m => if n = m then .eq else if n then .lt else .gt
  | .inf n, _ => if n then .lt else .gt
  | _, .inf m => if m then .gt else .lt
  | .fin x, .fin y =>
    let e := minExp [x, y]
    compare (if x.mag = 0 then 0 else x.units e) (if y.mag = 0 then 0 else y.units e)
  | _, _ => .eq

/-- Minimum and maximum by R77: −0 below +0, a quiet NaN ignored, a signalling NaN gives NaN and NV. The operands are codes. -/
def fPick (f : Nat) (wantMax : Bool) (a b : Nat) : Res :=
  let x := numOf f a
  let y := numOf f b
  let nan8 := (readFlags f a ||| readFlags f b) &&& Fl.nan8
  if anySig [x, y] then nanRes f Fl.nv
  else if anyNan [x] && anyNan [y] then nanRes f nan8
  else if anyNan [x] then ⟨b, nan8⟩
  else if anyNan [y] then ⟨a, nan8⟩
  else
    let lt := match ordNum x y with
      | .lt => true
      | .gt => false
      | .eq => x.neg? && !y.neg?
    ⟨if lt != wantMax then a else b, 0⟩

/-- VFCMP conditions (07 Table 7.4): whether the condition holds, and its flags. -/
def fCompare (cond : Nat) (a b : Num) : Bool × Nat :=
  let un := anyNan [a, b]
  let sig := anySig [a, b]
  let o := ordNum a b
  let holds := match cond with
    | 0 => !un && o == .eq
    | 1 => un || o != .eq
    | 2 => !un && o == .lt
    | 3 => !un && o != .lt
    | 4 => !un && o != .gt
    | 5 => !un && o == .gt
    | 6 => un
    | _ => !un
  (holds, if sig || (un && 2 ≤ cond && cond ≤ 5) then Fl.nv else 0)

/-- VFCLASS (07 Table 7.6). -/
def fClass (f x : Nat) : Nat :=
  match numOf f x with
  | .nan s => if s then 2 ^ 8 else 2 ^ 9
  | .inf n => if n then 1 else 2 ^ 7
  | .fin v =>
    let sub := decide (x % 2 ^ (fmtWidth f - 1) < 2 ^ fmtM f)
    if v.mag = 0 then if v.neg then 2 ^ 3 else 2 ^ 4
    else if v.neg then if sub then 2 ^ 2 else 2 else if sub then 2 ^ 5 else 2 ^ 6

/-! ## The window sum (R83) -/

/-- A window value: units of 2^exp, with its sticky bit; a zero keeps its sign. -/
structure Win where
  units : Int
  exp : Int
  neg : Bool
  st : Bool
deriving DecidableEq, Repr

def Win.exact (w : Win) : Exact :=
  if w.units = 0 then ⟨w.neg, 0, 0, w.st, 0⟩
  else if !w.st then Exact.of (decide (w.units < 0)) w.units.natAbs w.exp
  else
    let m := w.units.natAbs * 2 ^ 64
    if w.units < 0 then ⟨true, m - 1, w.exp - 64, true, m⟩ else ⟨false, m, w.exp - 64, true, m⟩

def winTerm (x : Exact) : Win := ⟨if x.neg then -(x.mag : Int) else x.mag, x.exp, x.neg, false⟩

/-- W(x_1 … x_m) with `low` bits kept below the top term: 103, or 151 with FP64 operands (R83). -/
def window (low mode : Nat) (l : List Win) : Win :=
  let st := l.any (fun t => t.st)
  let live := l.filter (fun t => t.units != 0)
  match live with
  | [] => ⟨0, 0, l.all (fun t => t.neg) || mode == 2, st⟩
  | t :: ts =>
    let top := fun (t : Win) => t.exp + (log2 t.units.natAbs : Int)
    let e := ts.foldl (fun e u => max e (top u)) (top t)
    let u := e - low
    let cut := fun (t : Win) => if u ≤ t.exp then t.units * 2 ^ (t.exp - u).toNat else t.units / 2 ^ (u - t.exp).toNat
    let lost := fun (t : Win) => decide (t.exp < u) && t.units % 2 ^ (u - t.exp).toNat != 0
    let z := live.foldl (fun z t => z + cut t) 0
    ⟨z, u, mode == 2, st || live.any lost⟩

/-! ## Lanes -/

/-- The elements of width w of n bits of x, element 0 first. -/
def lanesOf (w n x : Nat) : List Nat := (List.range (n / w)).map (fun i => x / 2 ^ (w * i) % 2 ^ w)

/-- A register from its elements of width w. -/
def ofLanes (w : Nat) : List Nat → Nat
  | [] => 0
  | x :: l => x % 2 ^ w + 2 ^ w * ofLanes w l

/-! ## The reduction tree (R88) -/

/-- A node of the tree: its lowest participating lane and value. -/
abbrev Node := Option (Nat × Nat)

/-- One level of the tree; `f` takes the node's lane and its two children. -/
def treeLevel (f : Nat → Nat → Nat → Res) : List Node → List Node × List (Nat × Nat)
  | a :: b :: l =>
    let r := treeLevel f l
    match a, b with
    | some (i, x), some (_, y) => let z := f i x y; (some (i, z.code) :: r.1, (i, z.fl) :: r.2)
    | some x, none => (some x :: r.1, r.2)
    | none, y => (y :: r.1, r.2)
  | l => (l, [])

/-- The root of the tree over 2^k lanes, with the flags of each node's lane. -/
def tree (f : Nat → Nat → Nat → Res) : Nat → List Node → Node × List (Nat × Nat)
  | 0, l => (l.head?.join, [])
  | k + 1, l =>
    let a := treeLevel f l
    let b := tree f k a.1
    (b.1, a.2 ++ b.2)

end Sys2Proof.Machine
end

