-- ==== Sys2Proof/Machine/Records.lean ====
section
/-! DEFINITION. The records that have a layout in memory: tile records (10 Table 10.1), barrier slots (08 Table 8.6),
handler-table slots (08 Table 8.1), task records (08 Table 8.5), and launch records (08 Table 8.3). -/

namespace Sys2Proof.Machine

/-! ## Tiles (10 R259 to R264) -/

def Tile.words (t : Tile) : List Word :=
  [W (t.cols * 2 ^ 48 + t.rows * 2 ^ 32 + t.base),
   W (t.state * 2 ^ 54 + b2n t.scen * 2 ^ 53 + t.scale * 2 ^ 48 + b2n t.zf * 2 ^ 47 + t.rnd * 2 ^ 44 + t.fmt * 2 ^ 40
      + t.eoff * 2 ^ 32 + t.estride * 2 ^ 24 + t.rstride),
   W (t.dcnt * 2 ^ 8 + t.fch), 0]

def Tile.ofWords (w : List Word) : Tile :=
  let a := w.getD 0 0
  let b := w.getD 1 0
  let c := w.getD 2 0
  { cols := fld a 63 48, rows := fld a 47 32, base := fld a 20 0, state := fld b 55 54, scen := flag b 53, scale := fld b 52 48
    zf := flag b 47, rnd := fld b 46 44, fmt := fld b 43 40, eoff := fld b 39 32, estride := fld b 31 24, rstride := fld b 16 0
    dcnt := fld c 15 8, fch := fld c 7 0, failed := false }

/-- The first address past the footprint (10 R260). -/
def Tile.stop (t : Tile) : Nat := t.base + t.rows * t.rstride

/-- The elements of a tile, row by row. -/
def Tile.cells (t : Tile) : List (Nat × Nat) := (List.range (t.rows * t.cols)).map (fun n => (n / t.cols, n % t.cols))

/-- Whether an image is a valid record (10 R260). -/
def tileOk (w : List Word) : Bool :=
  let t := Tile.ofWords w
  let a := w.getD 0 0
  let b := w.getD 1 0
  fld a 31 21 == 0 && fld b 63 56 == 0 && fld b 23 17 == 0
  && 1 ≤ t.cols && t.cols ≤ 4096 && 1 ≤ t.rows && t.rows ≤ 4096 && t.base % 64 == 0
  && 1 ≤ t.estride && t.rstride % 64 == 0 && 64 ≤ t.rstride && t.rstride ≤ 65536
  && (t.eoff + (t.cols - 1) * t.estride + 1) * fmtWidth t.fmt ≤ t.rstride * 8 && t.stop ≤ Config.spadBytes

def Core.tile (k : Core) (n : Nat) : Tile := Tab.get Tile.reset k.tiles n
def Core.setTile (k : Core) (n : Nat) (t : Tile) : Core := { k with tiles := Tab.set k.tiles n t }

/-- Whether two ranges [a, b) and [c, d) overlap. -/
def overlaps (a b c d : Nat) : Bool := a < d && c < b

/-- The local address of element (i, j); none outside the tile (10 R261). -/
def Tile.addr (t : Tile) (i j : Nat) : Option Nat :=
  if i < t.rows ∧ j < t.cols then some (t.base + i * t.rstride + (t.eoff + j * t.estride) * fmtWidth t.fmt / 8) else none

/-- The code of zero in a format: of the codes of DP8 whose value is 0, the one with both terms absent (03 R65, 10 R261). -/
def tileZero (fmt : Nat) : Nat := if fmt = 7 then 0x77 else 0

/-- The code of element (i, j) as an engine of core pid reads it; outside the tile, zero (10 R261). -/
def State.elem (s : State) (pid : Nat) (t : Tile) (i j : Nat) : Nat :=
  match t.addr i j with
  | some a => s.sp pid a (fmtWidth t.fmt / 8)
  | none => tileZero t.fmt

/-- A write to element (i, j); dropped outside the tile (10 R261). -/
def State.setElem (s : State) (pid : Nat) (t : Tile) (i j v : Nat) : State :=
  match t.addr i j with
  | some a => s.setSp pid a (fmtWidth t.fmt / 8) v
  | none => s

/-- What a copy in does to a tile whose footprint its range meets: FILLING on the channel (10 Table 10.2). -/
def Tile.copyIn (t : Tile) (ch : Nat) : Tile :=
  if t.state = 3 then t
  else { t with state := 1, fch := if bitOf t.fch ch then t.fch else t.fch + 2 ^ ch, failed := t.state == 1 && t.failed }

/-- What a copy out does (10 Table 10.2). -/
def Tile.copyOut (t : Tile) : Tile := if 2 ≤ t.state then { t with state := 3, dcnt := t.dcnt + 1 } else t

/-- The end of a channel's part in filling a tile, or its failure (10 Table 10.2). -/
def Tile.filled (t : Tile) (ch : Nat) (ok : Bool) : Tile :=
  if bitOf t.fch ch then
    let f := t.fch - 2 ^ ch
    let bad := t.failed || !ok
    { t with fch := f, failed := bad && f != 0, state := if f ≠ 0 ∨ t.state ≠ 1 then t.state else if bad then 0 else 2 }
  else t

/-- A copy out has read all its source bytes (10 Table 10.2). -/
def Tile.drained (t : Tile) : Tile :=
  if t.state = 3 then { t with dcnt := t.dcnt - 1, state := if t.dcnt ≤ 1 then 2 else 3 } else t

/-! ## Barrier slots (08 Table 8.6) -/

def Bar.words (b : Bar) : List Word := [W (b.pend % 2 ^ 56), W (b.memb * 2 ^ 32 + b.arrv * 2 ^ 16 + b2n b.ph)]

def Bar.ofWords (b : Bar) (w : List Word) : Bar :=
  let a := w.getD 0 0
  let c := w.getD 1 0
  { b with pend := fld a 55 0, memb := fld c 47 32, arrv := fld c 31 16, ph := flag c 0 }

def Core.bar (k : Core) (n : Nat) : Bar := Tab.get Bar.reset k.bars n
def Core.setBar (k : Core) (n : Nat) (b : Bar) : Core := { k with bars := Tab.set k.bars n b }

/-! ## Handler-table slots (08 Table 8.1) -/

def HSlot.words (h : HSlot) : List Word :=
  [h.rpc, W (h.gen % 256 * 2 ^ 56 + h.lnch % 2 ^ 32 * 2 ^ 16 + h.qb * 2 ^ 8 + b2n h.privl * 8 + b2n h.msk * 4 + b2n h.prio * 2 + b2n h.valid)]

def HSlot.ofWords (w : List Word) : HSlot :=
  let c := w.getD 1 0
  { rpc := w.getD 0 0, gen := fld c 63 56, lnch := fld c 47 16, qb := fld c 11 8, privl := flag c 3, msk := flag c 2, prio := flag c 1
    valid := flag c 0 }

def Core.slot (k : Core) (n : Nat) : HSlot := Tab.get HSlot.reset k.ht n
def Core.setSlot (k : Core) (n : Nat) (h : HSlot) : Core := { k with ht := Tab.set k.ht n h }

/-! ## Task records (08 Table 8.5) -/

def Task.words (t : Task) : List Word :=
  [t.pc, t.arg0, t.arg1, t.join, W t.path,
   W (t.home * 2 ^ 32 + b2n t.deps * 2 ^ 12 + t.fmt * 2 ^ 8 + b2n t.splitk * 16 + t.cls * 4 + t.qpri), W t.cnt, 0]

def Task.ofWords (w : List Word) (launch id time : Nat) : Task :=
  let c := w.getD 5 0
  { pc := w.getD 0 0, arg0 := w.getD 1 0, arg1 := w.getD 2 0, join := w.getD 3 0, path := fld (w.getD 4 0) 47 0
    home := fld c 63 32, deps := flag c 12, fmt := fld c 11 8, splitk := flag c 4, cls := fld c 3 2, qpri := fld c 1 0
    cnt := fld (w.getD 6 0) 31 0, launch := launch, id := id, since := time, headAt := none }

/-- Whether a task record has a non-zero reserved field, or an odd PC (09 R238). PATH is written by the device. -/
def taskBad (w : List Word) : Bool :=
  fld (w.getD 4 0) 63 48 != 0 || fld (w.getD 5 0) 31 13 != 0 || fld (w.getD 5 0) 7 5 != 0 || fld (w.getD 6 0) 63 32 != 0
  || w.getD 7 0 != 0 || flag (w.getD 0 0) 0

/-! ## Launch records (08 Table 8.3) -/

namespace Launch

def word (l : Launch) (i : Nat) : Word := l.words.getD i 0
def entry (l : Launch) : Word := l.word 0
def arg (l : Launch) : Word := l.word 1
def cpl (l : Launch) : Word := l.word 2
def privl (l : Launch) : Bool := flag (l.word 3) 38
def waitrdy (l : Launch) : Bool := flag (l.word 3) 37
def det (l : Launch) : Bool := flag (l.word 3) 36
def prio (l : Launch) : Nat := fld (l.word 3) 33 32
def recth (l : Launch) : Nat := fld (l.word 3) 29 24
def rectw (l : Launch) : Nat := fld (l.word 3) 22 16
def y0 (l : Launch) : Nat := fld (l.word 3) 12 8
def x0 (l : Launch) : Nat := fld (l.word 3) 5 0
def dim (l : Launch) (k : Nat) : Nat := if k % 2 = 0 then fld (l.word (4 + k / 2)) 31 0 else fld (l.word (4 + k / 2)) 63 32
def blk (l : Launch) (k : Nat) : Nat := if k % 2 = 0 then fld (l.word (6 + k / 2)) 31 0 else fld (l.word (6 + k / 2)) 63 32
def stack (l : Launch) : Nat := fld (l.word 8) 31 0
def dqsp (l : Launch) : Nat := if fld (l.word 8) 47 32 = 0 then 64 else fld (l.word 8) 47 32
def cspl (l : Launch) : Nat := if fld (l.word 8) 63 48 = 0 then 4 else fld (l.word 8) 63 48
def ovf (l : Launch) : Word := l.word 9
def flagen (l : Launch) : Word := l.word 10
def vt (l : Launch) : Word := l.word 11
def seed (l : Launch) : Word := l.word 12
def dhi (l : Launch) : Nat := fld (l.word 13) 52 32
def dlo (l : Launch) : Nat := fld (l.word 13) 20 0
def mhi (l : Launch) : Nat := fld (l.word 14) 52 32
def mlo (l : Launch) : Nat := fld (l.word 14) 20 0
/-- Logical ids of the rectangle. -/
def size (l : Launch) : Nat := l.rectw * l.recth
/-- The lowest address of the areas of R209. -/
def areas (l : Launch) : Nat := Config.spadBytes - (5 * l.stack + 4096 * l.cspl + 64 * l.dqsp + 16384)
/-- Address of context spill slot k (08 R209). -/
def spillSlot (l : Launch) (k : Nat) : Nat := Config.spadBytes - 5 * l.stack - (k + 1) * 4096
/-- Addresses of entry k of the deque spill area, counted from the oldest, and of pending-task record k (08 R209); the places within
the areas: DESIGN CHOICE (log 41). -/
def dequeSlot (l : Launch) (k : Nat) : Nat := l.areas + 16384 + 64 * k
def taskSlot (l : Launch) (k : Nat) : Nat := l.areas + 64 * k
/-- The carve-out of context k (08 R209). -/
def sklo (l : Launch) (k : Nat) : Word := W (Config.spadBytes - (k + 1) * l.stack)
def skhi (l : Launch) (k : Nat) : Word := W (Config.spadBytes - k * l.stack)
/-- ORG and EXT of a logical id (08 R212). -/
def org (l : Launch) (lid k : Nat) : Nat :=
  if k = 0 then lid % l.rectw * l.blk 0 else if k = 1 then lid / l.rectw * l.blk 1 else 0
def ext (l : Launch) (lid k : Nat) : Nat :=
  if k ≤ 1 then min (l.blk k) (l.dim k - l.org lid k) else l.dim k
/-- Whether the core of a logical id is started (08 R212). -/
def starts (l : Launch) (lid : Nat) : Bool := (List.range 4).all (fun k => l.ext lid k != 0)
/-- Identity registers of a logical id (08 R212, R207). -/
def ident (l : Launch) (lid : Nat) (task : Word) : Ident :=
  let w := l.rectw
  let cx := lid % w
  let cy := lid / w
  { lid := W lid, task := task, launch := W l.id
    org := Vector.ofFn (fun i => W (l.org lid i.val)), ext := Vector.ofFn (fun i => W (l.ext lid i.val))
    west := W (cy * w + (cx + w - 1) % w), east := W (cy * w + (cx + 1) % w)
    north := W ((cy + l.recth - 1) % l.recth * w + cx), south := W ((cy + 1) % l.recth * w + cx)
    rectw := W w, recth := W l.recth }
/-- The core that a logical id stands for before any map change (08 R208). -/
def place (l : Launch) (lid : Nat) : Nat := gridCore (l.x0 + lid % l.rectw) (l.y0 + lid / l.rectw)
/-- The core that holds a logical id now (08 R213). -/
def coreOf (l : Launch) (lid : Nat) : Nat := (Tab.get (0, false) l.map lid).1
def parked (l : Launch) (lid : Nat) : Bool := (Tab.get (0, false) l.map lid).2
/-- The lowest logical id mapped to a core (08 R207). -/
def lowestLid (l : Launch) (pid : Nat) : Nat := ((l.map.find? (fun e => e.2.1 == pid)).map (fun e => e.1)).getD 0

end Launch

/-- Writes spilled deque entries, the oldest first, to the deque spill areas of their launches (08 R209, R216). -/
def State.spillTasks (s : State) (pid : Nat) : Nat → List Task → State
  | _, [] => s
  | k, t :: l =>
    let u := match s.launch? t.launch with
      | some x => s.wr (spadKey pid (x.dequeSlot k)) (wordsBytes t.words)
      | none => s
    u.spillTasks pid (k + 1) l

/-- The deque of a core becomes `l`, bottom first; what the hardware's 64 entries do not hold lies in the spill area (08 R216). -/
def State.setDeque (s : State) (pid : Nat) (l : List Task) : State :=
  (s.modCoreAt pid (fun k => { k with deque := l })).spillTasks pid 0 (l.drop 64).reverse

/-- A pending-task slot of a core, with its record in the pending-task area (08 R209, R215). -/
def State.setPending (s : State) (pid slot : Nat) (p : PSlot) : State :=
  let t := s.modCoreAt pid (fun k => { k with ptasks := Tab.set k.ptasks slot p })
  match p.task with
  | some r => match s.launch? r.launch with
    | some x => t.wr (spadKey pid (x.taskSlot slot)) (wordsBytes r.words)
    | none => t
  | none => t

/-- The launch that a context belongs to, if it runs (08 R208). -/
def State.launchOf (s : State) (pid cx : Nat) : Option Launch := s.launch? (s.ctxAt pid cx).ident.launch.toNat

/-- Whether a logical id fails the check of 09 R227 for the executing context: RECTW × RECTH or more. -/
def State.lidBad (s : State) (lid : Nat) : Bool :=
  let i := s.ctx.ident
  i.rectw.toNat * i.recth.toNat ≤ lid

/-- The core that a logical id of the executing context's launch names now, and whether the id is parked (08 R213). -/
def State.resolve (s : State) (launch lid : Nat) : Nat × Bool :=
  match s.launch? launch with
  | some l => Tab.get (0, false) l.map lid
  | none => (0, false)

end Sys2Proof.Machine
end

