-- ==== Sys2Proof/Machine/Farrier.lean ====
section
/-! DEFINITION. The Farrier (25): readiness, sensors and trips, the firmware banks, caps (22 R426), the mailbox and I3C, reset
and power. -/

namespace Sys2Proof.Machine

def State.modSys (s : State) (f : Sys → Sys) : State := { s with sys := f s.sys }

/-! ## READY and the lead die (25 R445, R446; 24 R431) -/

/-- The READY bit numbered as in Table 25.1: 64 bits to each of the three registers. -/
def State.isReady (s : State) (n : Nat) : Bool :=
  flag (if n < 64 then s.sys.ready0 else if n < 128 then s.sys.ready1 else s.sys.ready2) (n % 64)

def readyDie (d : Nat) : Nat := 2 + d
def readyStack (n : Nat) : Nat := 10 + n
def readyPort (n : Nat) : Nat := 26 + n
def readyCluster (die cluster : Nat) : Nat := 64 + 16 * die + cluster

/-- A READY bit that names a function. -/
def readyUnit (n : Nat) : Bool := n < 42 || (64 ≤ n && n < 192)

/-- Changes a READY bit; a change is logged and signalled on vector 255 (25 R449, R454). -/
def State.setReady (s : State) (n : Nat) (on : Bool) : State :=
  if s.isReady n = on then s
  else
    let put := fun (w : Word) => setBit w (n % 64) on
    let t := s.modSys (fun y =>
      if n < 64 then { y with ready0 := put y.ready0 }
      else if n < 128 then { y with ready1 := put y.ready1 } else { y with ready2 := put y.ready2 })
    (t.logEvent .ready 0 n (b2n on)).msix 255

/-- The choice of the lead die, once the wait is over and a die is ready (24 R431). -/
def State.chooseLead (s : State) : State :=
  if s.sys.lval || s.time < s.sys.powerAt + 500 * Config.tickMs || !s.isReady 0 then s
  else match (List.range 8).find? (fun d => s.isReady (readyDie d)) with
    | some d => s.modSys (fun y => { y with lead := d, lval := true })
    | none => s

/-- LEAD_DIE_CHOICE (24 R431). -/
def execLeadDieChoice (s : State) : Out := .next s.chooseLead

/-- SELF_TEST_PASS: a function other than the Farrier sets its bit, while the Farrier runs (25 R445, R450). -/
def execSelfTestPass (unit : Nat) (s : State) : Out :=
  .next (if readyUnit unit && unit != 0 && s.isReady 0 && !s.sys.tripped then ((s.chooseLead).setReady unit true).chooseLead else s)

/-! ## Loss of power and trips (25 R447) -/

/-- The memories that lie outside the package: host and peers. -/
def outsideKey (k : Nat) : Bool := 2 ^ 50 ≤ k && k < 2 ^ 53

/-- What power removed from dies and stacks leaves: the Farrier, the host and the peers. -/
def State.lostWork (s : State) : State :=
  { State.reset with
    agenda := s.agenda, time := s.time, stepNo := s.stepNo, spads := s.spads, sys := s.sys
    nextAct := s.nextAct, nextCopy := s.nextCopy, nextLaunch := s.nextLaunch
    mem := s.mem.filter (fun e => outsideKey e.1) }

/-- A trip: power goes, READY clears but for FAR, and an entry of severity 3 is logged (25 R447). -/
def State.trip (s : State) (src reading : Nat) : State :=
  if s.sys.tripped then s
  else
    let t := s.lostWork.modSys (fun y => { y with ready0 := y.ready0 &&& 1, ready1 := 0, ready2 := 0, tripped := true })
    (t.logEvent .trip src reading 0).msix 255

/-- CLUSTER_SENSOR_SAMPLE: a reading in 1/16 °C; one that does not fit TEMP is invalid: DESIGN CHOICE (log 29). -/
def execClusterSensorSample (die cluster reading : Nat) (s : State) : Out :=
  .next (if 4096 ≤ reading then
      s.setClusterAt die cluster { s.clusterAt die cluster with bad := some ((s.clusterAt die cluster).bad.getD s.time) }
    else
      let t := s.setClusterAt die cluster { s.clusterAt die cluster with temp := reading, bad := none }
      if 110 * 16 ≤ reading then t.trip (2 + die) reading else t)

/-- STACK_SENSOR_SAMPLE. -/
def execStackSensorSample (die stack reading : Nat) (s : State) : Out :=
  let n := die * 2 + stack
  let t := s.modSys (fun y => { y with stackTemps := Tab.set y.stackTemps n reading })
  .next (if 105 * 16 ≤ reading then t.trip (10 + n) reading else t)

/-- Whether an input voltage in mV is outside 46 to 56 V (25 R447). -/
def badVoltage (mv : Nat) : Bool := mv < 46000 || 56000 < mv

/-- MODULE_SENSOR_SAMPLE: 0 inlet, 1 outlet, 2 input voltage, 3 input current. -/
def execModuleSensorSample (sensor reading : Nat) (s : State) : Out :=
  .next (s.modSys (fun y =>
    let z := { y with module := updAt (fun _ => reading) y.module sensor }
    if sensor = 2 then { z with vbad := if badVoltage reading then some (y.vbad.getD s.time) else none } else z))

/-- INPUT_VOLTAGE_TRIP: the input has been out of range for 1 ms. -/
def execInputVoltageTrip (reading : Nat) (s : State) : Out :=
  .next (match s.sys.vbad with
    | some t => if badVoltage reading && t + Config.tickMs ≤ s.time then s.trip 42 reading else s
    | none => s)

/-- OUT_OF_SERVICE: 0 a stack, 1 a cluster (die × 16 + cluster), 2 a port (25 R448). A stack so taken is failed (R446). -/
def execOutOfService (kind unit : Nat) (s : State) : Out :=
  let gone := fun n src => if s.isReady n then (s.setReady n false).logEvent .outOfService src n 0 else s
  .next (if kind = 0 then
      if 1024 < Tab.get 0 s.sys.uncorrected unit && unit < 16 then
        (gone (readyStack unit) (10 + unit)).modSys (fun y => { y with failed := if bitOf y.failed unit then y.failed else y.failed + 2 ^ unit })
      else s
    else if kind = 1 then
      match (s.clusterAt (unit / 16) (unit % 16)).bad with
      | some t => if unit < 128 ∧ t + 100 * Config.tickMs ≤ s.time then gone (readyCluster (unit / 16) (unit % 16)) (2 + unit / 16) else s
      | none => s
    else if kind = 2 then
      match (Tab.get Port.reset s.sys.ports unit).downAt with
      | some t => if unit < 16 ∧ t + 10000 * Config.tickMs ≤ s.time then gone (readyPort unit) (26 + unit) else s
      | none => s
    else s)

/-! ## Errors (10 R270, 25 R449) -/

/-- CORRECTED_COUNT_LOG: one entry for each stack or die that has counted errors. -/
def execCorrectedCountLog (s : State) : Out :=
  .next (s.sys.corrected.foldl (fun s e => s.logEvent .corrected e.1 e.2 0) s)

/-- SCRUB_FINDING (21 R412). -/
def execScrubFinding (addr : Nat) (s : State) : Out := .next (s.logEvent .scrub (logSrc addr) addr 0)

/-- SOFT_ERROR: in device memory (0) or the memory-side cache (1) at a physical address, in a scratchpad row at a core's byte
(2: core × 2^21 + offset), or in the version store (3: the line's address plus the place of the old version). A corrected one is
counted; an uncorrectable one marks its line (10 R270). -/
def execSoftError (space addr : Nat) (correctable : Bool) (s : State) : Out :=
  let key := if space = 2 then 2 ^ 48 + addr else addr
  let src := logSrc key
  .next (if correctable then s.modSys (fun y => { y with corrected := Tab.set y.corrected src (Tab.get 0 y.corrected src + 1) })
    else
      let line := if space = 3 then
          match (Tab.get VLine.reset s.vers.lines (lineOf addr)).olds[addr % 64]? with
          | some o => some (State.versionKey (lineOf addr) o.1)
          | none => none
        else if (space < 2 ∧ addr < Config.devBytes) ∨ (space = 2 ∧ addr / 2 ^ 21 < 2048 ∧ addr % 2 ^ 21 < Config.spadBytes) then some (lineOf key)
        else none
      match line with
      | none => s
      | some l =>
        let t := { s with ue := if s.ue.contains l then s.ue else s.ue ++ [l] }
        if space = 2 then t
        else t.modSys (fun y => { y with uncorrected := Tab.set y.uncorrected (State.stackOf addr) (Tab.get 0 y.uncorrected (State.stackOf addr) + 1) }))

/-! ## Firmware (25 R450 to R452) -/

/-- A bank read from the bytes of an image (log 11). -/
def bankOf (image : List Byte) : Bank where
  version := natOf (Config.imagePart 0 image)
  secver := natOf (Config.imagePart 1 image)
  digest := Config.imagePart 2 image
  sig := Config.imagePart 3 image
  body := Config.imagePart 4 image

def Bank.header (b : Bank) : List Byte := Config.headerBytes b.version b.secver b.digest

/-- The boot ROM's checks (25 R450). -/
def Bank.good (b : Bank) (rollback : Nat) : Bool :=
  Config.ed448Verify Config.publicKey b.header b.sig && b.digest == Config.shake256 b.digest.length b.body && rollback ≤ b.secver

def Sys.bank (y : Sys) (n : Nat) : Bank := y.banks.getD n ⟨0, 0, [], [], []⟩

/-- The bank that the boot ROM starts: the active one, else the other. -/
def Sys.bootBank (y : Sys) : Option Nat :=
  if (y.bank y.active).good y.rollback then some y.active
  else if (y.bank (1 - y.active)).good y.rollback then some (1 - y.active) else none

/-- POWER_GOOD (25 R450, R451): the first boot of an image raises the rollback counter. -/
def execPowerGood (s : State) : Out :=
  .next (if s.isReady 0 || s.sys.tripped then s
    else
      let t := s.modSys (fun y => { y with powerAt := s.time, cap := { y.cap with beat := s.time } })
      match t.sys.bootBank with
      | none => t.logEvent .firmware 0 0 0
      | some n => ((t.modSys (fun y => { y with rollback := max y.rollback (y.bank n).secver })).logEvent .firmware 0 1 n).setReady 0 true)

/-- What was staged lies in the inactive bank; the active one is untouched (25 R451). -/
def Sys.endStage (y : Sys) : Sys :=
  match y.stage with
  | none => y
  | some image => { y with stage := none, banks := updAt (fun _ => bankOf image) y.banks (1 - y.active) }

/-- The package after reset or loss of power: what the flash, the fuses, the host and the peers hold stays (25 R445, R449 to
R451). -/
def State.restart (s : State) : State :=
  let y := s.sys.endStage
  { State.reset with
    agenda := s.agenda, stepNo := s.stepNo, spads := s.spads, mem := s.mem.filter (fun e => outsideKey e.1)
    sys := { Sys.reset with log := y.log, logSeq := y.logSeq, banks := y.banks, active := y.active, rollback := y.rollback
                            vstore := y.vstore, devn := y.devn } }

/-- RESET (25 R445). -/
def execReset (s : State) : Out := .next s.restart
/-- POWER_LOSS (25 R449, R451). -/
def execPowerLoss (s : State) : Out := .next s.restart

/-- One chunk of an image. A chunk at offset 0 begins a stage, which is refused with result 2 while one is in progress; a stage
ends with its verification, a reset or a loss of power: DESIGN CHOICE (log 30). -/
def State.stageChunk (s : State) (off : Nat) (data : List Byte) : State × Nat :=
  match s.sys.stage with
  | some image =>
    if off = 0 then (s, 2)
    else
      let padded := image ++ List.replicate (off - image.length) 0
      (s.modSys (fun y => { y with stage := some (padded.take off ++ data ++ padded.drop (off + data.length)) }), 0)
  | none => (s.modSys (fun y => { y with stage := some (List.replicate off 0 ++ data) }), 0)

/-- Verifies the staged image and marks its bank active (25 R451); with nothing staged it fails: DESIGN CHOICE (log 30). -/
def State.activate (s : State) : State × Nat :=
  match s.sys.stage with
  | none => (s, 3)
  | some _ =>
    let t := s.modSys Sys.endStage
    let n := 1 - t.sys.active
    if (t.sys.bank n).good t.sys.rollback then ((t.modSys (fun y => { y with active := n })).logEvent .firmware 0 2 n, 0) else (t, 3)

/-- A signed attestation report (25 R452). -/
def State.report (s : State) (nonce : List Byte) : List Byte :=
  let r := Config.reportBytes nonce (s.sys.bank 0).header (s.sys.bank 1).header s.sys.active s.sys.rollback
  r ++ Config.ed448Sign r

/-! ## Caps (22 R426) -/

def Cap.force (c : Cap) : Nat := if c.fallen then min c.cap c.fall else c.cap

/-- A change of the cap in force, if it is one, is logged and owes a budget update (22 R426, 25 R449). -/
def State.putCap (s : State) (c : Cap) : State :=
  if c.force = s.sys.cap.force then s.modSys (fun y => { y with cap := c })
  else (s.modSys (fun y => { y with cap := { c with todo := some (c.todo.getD s.time) } })).logEvent .cap 0 c.force 0

/-- A cap message, and whether it was newer (22 R426). -/
def State.capMessage (s : State) (seq watts : Nat) : State × Bool :=
  let c := s.sys.cap
  let d := (seq + 2 ^ 32 - c.last) % 2 ^ 32
  if d = 0 then (s.putCap { c with beat := s.time }, false)
  else if d < 2 ^ 31 then
    (s.putCap { c with last := seq % 2 ^ 32, cap := max 680 (min 3400 watts), beat := s.time, fallen := false }, true)
  else (s, false)

/-- CAP_FALLBACK (22 R426). -/
def execCapFallback (s : State) : Out :=
  .next (if !s.sys.cap.fallen && s.sys.cap.beat + 500 * Config.tickMs ≤ s.time then s.putCap { s.sys.cap with fallen := true } else s)

/-- BUDGET_UPDATE (22 R426). -/
def execBudgetUpdate (s : State) : Out :=
  .next (match s.sys.cap.todo with
    | none => s
    | some _ =>
      let bud := 20000 * s.sys.cap.force / 3400
      let t := s.modSys (fun y => { y with cap := { y.cap with todo := none } })
      (List.range 128).foldl (fun s n => s.setClusterAt (n / 16) (n % 16) { s.clusterAt (n / 16) (n % 16) with bud := bud }) t)

/-- OEM_CAP_MESSAGE (25 R450, R453). -/
def execOemCapMessage (seq watts : Nat) (s : State) : Out := .next (if s.isReady 0 then (s.capMessage seq watts).1 else s)

/-! ## The mailbox (25 R454) -/

/-- The bytes of the register space that hold no register: the mailbox buffer and the MSI-X table. -/
def regKey (off : Nat) : Nat := 2 ^ 53 + off
def mailboxBuffer : Nat := 0x51000

/-- Every reading of R447: clusters, stacks, module (log 29). -/
def State.readings (s : State) : List Nat :=
  (List.range 128).map (fun n => (s.clusterAt (n / 16) (n % 16)).temp)
  ++ (List.range 16).map (fun n => Tab.get 0 s.sys.stackTemps n) ++ s.sys.module

/-- The entries with numbers from `first` up, `count` of them, that the ring holds. -/
def State.entries (s : State) (first count : Nat) : List Byte :=
  (s.sys.log.filter (fun e => (e.seq + 2 ^ 32 - first % 2 ^ 32) % 2 ^ 32 < count)).flatMap LogEntry.bytes

/-- A command's effect, and its reply and result (25 Table 25.4); `req` are the LEN bytes of its request. A log request for
more than 127 entries has a bad length: DESIGN CHOICE (log 30). -/
def State.command (s : State) (op len : Nat) (req : List Byte) : State × FmRun :=
  let word := fun i => natOf ((req.drop (4 * i)).take 4)
  let bad : State × FmRun := (s, ⟨[], 1⟩)
  if op = 1 then if len = 0 then (s, ⟨Config.readingsBytes s.readings, 0⟩) else bad
  else if op = 2 then if len = 8 ∧ word 1 ≤ 127 then (s, ⟨s.entries (word 0) (word 1), 0⟩) else bad
  else if op = 3 then
    if len = 8 then
      let (t, newer) := s.capMessage (word 0) (word 1)
      (t, ⟨[], if newer then 0 else 4⟩)
    else bad
  else if op = 4 then
    if 4 ≤ len ∧ len ≤ 4096 then
      let (t, r) := s.stageChunk (word 0) (req.drop 4)
      (t, ⟨[], r⟩)
    else bad
  else if op = 5 then
    if len = 0 then
      let (t, r) := s.activate
      (t, ⟨[], r⟩)
    else bad
  else if op = 6 then if len = 32 then (s, ⟨s.report req, 0⟩) else bad
  else bad

/-- A write of FMCMD: it starts a command, or is ignored and sets OVR while one runs (25 R454). Without the Farrier's firmware it
is ignored: DESIGN CHOICE (25 R450; log 30). -/
def State.writeFmcmd (s : State) (v : Word) : State :=
  match s.sys.fmrun with
  | some _ => s.modSys (fun y => { y with fmovr := true })
  | none => if !s.isReady 0 then s else
    let len := fld v 31 16
    let (t, run) := s.command (fld v 7 0) len (s.rd (regKey mailboxBuffer) (min len 4096))
    t.modSys (fun y => { y with fmcmd := W (len * 2 ^ 16 + fld v 7 0), fmrun := some run })

/-- The host puts a request into the buffer and writes FMCMD. -/
def State.mailbox (s : State) (op len : Nat) (req : List Byte) : State :=
  let t := if s.sys.fmrun.isSome then s else s.wr (regKey mailboxBuffer) (req.take 4096)
  t.writeFmcmd (W (len % 2 ^ 16 * 2 ^ 16 + op % 256))

def execReadSensors (len : Nat) (s : State) : Out := .next (s.mailbox 1 len [])
def execReadLog (len : Nat) (seq : Word) (s : State) : Out := .next (s.mailbox 2 len (bytesOf 8 seq.toNat))
def execCap (len seq watts : Nat) (s : State) : Out := .next (s.mailbox 3 len (bytesOf 4 seq ++ bytesOf 4 watts))
def execStageFirmwareChunk (len off : Nat) (data : List Byte) (s : State) : Out := .next (s.mailbox 4 len (bytesOf 4 off ++ data))
def execVerifyAndActivate (len : Nat) (s : State) : Out := .next (s.mailbox 5 len [])
def execAttestationReport (len : Nat) (nonce : List Byte) (s : State) : Out := .next (s.mailbox 6 len nonce)
/-- A command with an OP that Table 25.4 does not list; a listed one is not this step's. -/
def execMailboxUnknownOp (op len : Nat) (s : State) : Out := .next (if 1 ≤ op % 256 ∧ op % 256 ≤ 6 then s else s.mailbox op len [])

/-- MAILBOX_COMPLETION (25 R454). -/
def execMailboxCompletion (s : State) : Out :=
  .next (match s.sys.fmrun with
    | none => s
    | some r =>
      if !s.isReady 0 then s
      else
        let reply := r.reply.take 4096
        let t := (s.wr (regKey mailboxBuffer) reply).modSys (fun y => { y with fmrun := none, fmdone := true, fmres := r.res, fmrlen := reply.length })
        t.msix 254)

/-! ## I3C (25 R450, R453) -/

def State.i3cReply (s : State) (b : List Byte) : State := s.modSys (fun y => { y with i3c := y.i3c ++ [b] })

/-- PLDM_MONITORING: every sensor, or the log from a first number, `seq` as READ_LOG's request. -/
def execPldmMonitoring (log : Bool) (seq : Word) (s : State) : Out :=
  .next (if !s.isReady 0 then s
    else s.i3cReply (if log then s.entries (fld seq 31 0) (fld seq 63 32) else Config.readingsBytes s.readings))

/-- PLDM_FIRMWARE_UPDATE: a stage, which is accepted without firmware too; with no data, verification and activation. -/
def execPldmFirmwareUpdate (off : Nat) (data : List Byte) (s : State) : Out :=
  .next (if data.isEmpty then
      if s.isReady 0 then
        let (t, r) := s.activate
        t.i3cReply [BitVec.ofNat 8 r]
      else s
    else
      let (t, r) := s.stageChunk off data
      t.i3cReply [BitVec.ofNat 8 r])

/-- SPDM_ATTESTATION (25 R452). -/
def execSpdmAttestation (nonce : List Byte) (s : State) : Out := .next (if s.isReady 0 then s.i3cReply (s.report nonce) else s)

end Sys2Proof.Machine
end

