-- ==== Sys2Proof/Machine/Ports.lean ====
section
/-! DEFINITION. Trace ports: flits with their coding, retraining and resynchronisation (24 R437 to R439). A port's bytes are free
(log 10); what crosses it is performed on the peer's memory. -/

namespace Sys2Proof.Machine

/-! ## Coding (24 R438) -/

/-- Width of an element, and of its exponent field, under model 1 FP16, 2 BF16, 3 E4M3, 4 E5M2. -/
def modelWidth (m : Nat) : Nat := if m ≤ 2 then 16 else 8
def modelExp (m : Nat) : Nat := if m = 1 then 5 else if m = 2 then 8 else if m = 3 then 4 else 5
def modelMant (m : Nat) : Nat := if m = 1 then 10 else if m = 2 then 7 else if m = 3 then 3 else 2

/-- The key of a direction (0 sent, 1 received), virtual network and model. -/
def codeKey (dir vn m : Nat) : Nat := dir * 64 + vn * 8 + m

/-- The counts from which the tables of R439 start: every count is 1. -/
def firstCounts (m : Nat) : List Nat := List.replicate (2 ^ modelExp m) 1

/-- The exponent fields of bytes read as elements of a model. -/
def exponents (m : Nat) (data : List Byte) : List Nat :=
  (chunks (modelWidth m / 8) data.length data).map (fun b => natOf b / 2 ^ modelMant m % 2 ^ modelExp m)

/-- Bits of one coded beat. -/
def beatBits (m : Nat) (code : List Nat) (beat : List Byte) : Nat :=
  let es := exponents m beat
  es.foldl (fun n e => n + Config.codeLength code e) (es.length * (modelWidth m - modelExp m))

/-- The most beats, of `n` at the front of a stream, that fit into `room` bits. -/
def beatsFit (m : Nat) (code : List Nat) : Nat → Nat → List Byte → Nat
  | 0, _, _ => 0
  | n + 1, room, bytes =>
    let b := beatBits m code (bytes.take 64)
    if bytes.length < 64 ∨ room < b then 0 else 1 + beatsFit m code n (room - b) (bytes.drop 64)

/-- The model and beats of the next flit: the largest count that fits, the lower model on a tie, raw below four. -/
def chooseModel (p : Port) (vn : Nat) (stream : List Byte) : Nat × Nat :=
  [1, 2, 3, 4].foldl (fun best m =>
    let n := beatsFit m (Tab.get (firstCounts m) p.tables (codeKey 0 vn m)) 15 1904 stream
    if 4 ≤ n ∧ best.2 < n then (m, n) else best) (0, 0)

/-- Counts with those of a flit's exponents added. -/
def Port.count (p : Port) (dir vn m : Nat) (data : List Byte) : Port :=
  if m = 0 then p
  else
    let k := codeKey dir vn m
    let old := Tab.get (firstCounts m) p.counts k
    { p with counts := Tab.set p.counts k ((exponents m data).foldl (fun l e => updAt (fun n => n + 1) l e) old) }

/-! ## Flits (24 R437) -/

/-- One data flit: the first virtual network with bytes to send. -/
def Port.sendData (p : Port) (vn : Nat) (stream : List Byte) : Port :=
  let (m, beats) := chooseModel p vn stream
  let n := if m = 0 then min 240 stream.length else 64 * beats
  let data := stream.take n
  let q := p.count 0 vn m data
  { q with
    raw := (p.raw + n) % 2 ^ 64, cod := (p.cod + 240) % 2 ^ 64, txSeq := (p.txSeq + 1) % 4096, txCount := p.txCount + 1
    out := Tab.set p.out vn (stream.drop n), credits := Tab.set p.credits vn (Tab.get 0 p.credits vn + 1)
    unacked := p.unacked ++ [⟨p.txSeq, vn, 0, m, data⟩] }

/-- TRACE_FLIT_SEND: the next data flit, or, on a resend, every flit not acknowledged once more. A port with sixteen flits since its
last rebuild rebuilds first (24 R438). -/
def execTraceFlitSend (port : BitVec 4) (resend : Bool) (s : State) : Out :=
  let p := s.portAt port.toNat
  .next (if !p.up then s
    else if resend then s.modPort port.toNat (fun p => { p with rty := p.rty + p.unacked.length })
    else match (List.range 4).find? (fun v => !(Tab.get [] p.out v).isEmpty) with
      | none => s
      | some vn => if 16 ≤ p.txCount then s else s.modPort port.toNat (fun p => p.sendData vn (Tab.get [] p.out vn)))

/-- Both ends' tables as R439 resets them. -/
def Port.resync (p : Port) : Port := { p with counts := [], tables := [], txCount := 0, rxCount := 0, ask := false }

/-- TRACE_FLIT_RECEIVE: `seq` numbers the flit; of a credit flit (kind 1) it is the number up to which the other end has accepted:
DESIGN CHOICE (log 10). `hash` is its THASH, 0 for none. -/
def execTraceFlitReceive (port : BitVec 4) (crcOk : Bool) (seq vn kind model hash : Nat) (stream : List Byte) (s : State) : Out :=
  let p := s.portAt port.toNat
  .next (if !p.up || !crcOk then s
    else if kind = 1 then
      s.modPort port.toNat (fun p =>
        let done := p.unacked.takeWhile (fun f => f.seq != seq % 4096)
        { p with unacked := p.unacked.drop done.length
                 credits := done.foldl (fun t f => Tab.set t f.vn (Tab.get 0 t f.vn - 1)) p.credits })
    else if kind = 2 then s.modPort port.toNat (fun p => { p.resync with rsy := p.rsy + 1 })
    else if kind = 0 ∧ seq % 4096 = p.rxSeq ∧ p.rxCount < 16 then
      s.modPort port.toNat (fun p =>
        let q := p.count 1 (vn % 4) (model % 5) stream
        { q with rxSeq := (p.rxSeq + 1) % 4096, rxCount := p.rxCount + 1
                 inn := Tab.set p.inn (vn % 4) (Tab.get [] p.inn (vn % 4) ++ stream)
                 ask := p.ask || (hash != 0 && hash != Config.tableHash p.tables) })
    else s)

/-- CODE_TABLE_REBUILD (24 R438). -/
def execCodeTableRebuild (port : BitVec 4) (s : State) : Out :=
  .next (s.modPort port.toNat (fun p =>
    let dir := fun (d : Nat) (on : Bool) (t : Tab (List Nat)) =>
      if on then (p.counts.filter (fun e => e.1 / 64 == d)).foldl (fun t e => Tab.set t e.1 e.2) t else t
    { p with
      tables := dir 1 (16 ≤ p.rxCount) (dir 0 (16 ≤ p.txCount) p.tables)
      txCount := if 16 ≤ p.txCount then p.txCount - 16 else p.txCount
      rxCount := if 16 ≤ p.rxCount then p.rxCount - 16 else p.rxCount }))

/-- RESYNCHRONISATION: the flit that was asked for (24 R439). -/
def execResynchronisation (port : BitVec 4) (s : State) : Out :=
  .next (if (s.portAt port.toNat).up && (s.portAt port.toNat).ask then
      s.modPort port.toNat (fun p => { p.resync with rsy := p.rsy + 1 })
    else s)

/-- An access routed to a dead port has not failed yet: the port comes up after it, and serves only later ones (24 R436). -/
def State.portOwes (s : State) (port : Nat) : Bool :=
  (s.portAt port).dead && s.net.reqs.any (fun r => r.pieces.any (fun p =>
    match p.home with
    | .peer d _ => s.portOf d == some port
    | _ => false))

/-- PORT_RETRAIN: the link is trained and then resynchronised (24 R439). -/
def execPortRetrain (port : BitVec 4) (s : State) : Out :=
  .next (if s.sys.tripped || s.portOwes port.toNat then s
    else s.modPort port.toNat (fun p => { p.resync with up := true, downAt := none, dead := false, rsy := p.rsy + 1 }))

/-- PORT_DOWN: a link that is up is lost; one that has failed to retrain for 10 ms is down (24 R436). -/
def execPortDown (port : BitVec 4) (s : State) : Out :=
  .next (s.modPort port.toNat (fun p =>
    if p.up then { p with up := false, downAt := some s.time }
    else match p.downAt with
      | some t => if t + 10 * Config.tickMs ≤ s.time then { p with dead := true } else p
      | none => p))

/-- TRST_RSY_WRITE: a one requests a resynchronisation (24 R439). -/
def State.writeTrst (s : State) (port : Nat) (v : Word) : State :=
  if flag v 8 then s.modPort port (fun p => { p with ask := true }) else s
def execTrstRsyWrite (port : BitVec 4) (v : Word) (s : State) : Out := .next (s.writeTrst port.toNat v)

/-! ## Read buffers (24 R434) -/

/-- The buffered copy of a line, if it was fetched no more than 2 µs ago. -/
def fromBuffer (l : List (Nat × Nat × List Byte)) (line time : Nat) : Option (List Byte) :=
  (l.find? (fun e => e.1 == line && decide (time ≤ e.2.1 + 2 * Config.tickUs))).map (fun e => e.2.2)

/-- The buffer after a line has been fetched, or written: that replaces a copy that it holds, which stays as old as its fetch. Of
64 lines the oldest goes: DESIGN CHOICE (log 12). -/
def toBuffer (l : List (Nat × Nat × List Byte)) (line time : Nat) (data : List Byte) (write : Bool) : List (Nat × Nat × List Byte) :=
  if write then l.map (fun e => if e.1 = line then (line, e.2.1, data) else e)
  else
    let r := l.filter (fun e => e.1 != line) ++ [(line, time, data)]
    if 64 < r.length then r.drop 1 else r

/-- The read buffer that serves a home, and its change. -/
def State.buffer (s : State) (h : Home) : List (Nat × Nat × List Byte) :=
  match h with
  | .peer d _ => match s.portOf d with
    | some p => (s.portAt p).lines
    | none => []
  | _ => s.sys.pcie

def State.setBuffer (s : State) (h : Home) (l : List (Nat × Nat × List Byte)) : State :=
  match h with
  | .peer d _ => match s.portOf d with
    | some p => s.modPort p (fun q => { q with lines := l })
    | none => s
  | _ => s.modSys (fun y => { y with pcie := l })

def Home.outside : Home → Bool
  | .host _ => true
  | .peer _ _ => true
  | _ => false

/-- The n bytes that a read of an outside home returns, and what it leaves in the buffer. Which of the two the port serves a read
from is free (log 19). -/
def State.readOutside (s : State) (h : Home) (n : Nat) (fresh : Bool) : State × List Byte :=
  let line := lineOf h.key
  match if fresh then none else fromBuffer (s.buffer h) line s.time with
  | some data =>
    if Config.openValue 30 s.stepNo h.key % 2 = 0 then (s, (data.drop (h.key - line)).take n)
    else (s.setBuffer h (toBuffer (s.buffer h) line s.time (s.rd line 64) false), s.rd h.key n)
  | none => (s.setBuffer h (toBuffer (s.buffer h) line s.time (s.rd line 64) false), s.rd h.key n)

/-- The bytes that a transfer puts on a peer's link (log 10). -/
def State.onLink (s : State) (h : Home) : State :=
  match h with
  | .peer d _ => match s.portOf d with
    | some p => s.modPort p (fun q => { q with out := Tab.set q.out 1 (Tab.get [] q.out 1 ++ Config.traceBytes s.stepNo) })
    | none => s
  | _ => s

/-- A write through a port replaces the buffered copies of its lines. -/
def State.wroteOutside (s : State) (h : Home) (n : Nat) : State :=
  if h.outside then
    (State.linesOf h.key n).foldl (fun s l => s.setBuffer h (toBuffer (s.buffer h) l s.time (s.rd l 64) true)) s
  else s

end Sys2Proof.Machine
end

