-- ==== Sys2Proof/Machine/Registers.lean ====
section
/-! DEFINITION. The package registers of the register space (00 R6; 24 R431, R439, R442, R444; 25 R445, R454), and the accesses of
the host and of peers (24 R433). -/

namespace Sys2Proof.Machine

/-! ## Launch queues (24 R442) -/

def State.lq (s : State) (q : Nat) : LQueue := Tab.get LQueue.reset s.sys.lqs q
def State.setLq (s : State) (q : Nat) (l : LQueue) : State := s.modSys (fun y => { y with lqs := Tab.set y.lqs q l })

def LQueue.logn (l : LQueue) : Nat := fld l.ctl 3 0
def LQueue.en (l : LQueue) : Bool := flag l.ctl 8
def LQueue.ser (l : LQueue) : Bool := flag l.ctl 9
def LQueue.irq (l : LQueue) : Bool := flag l.ctl 10
def LQueue.vec (l : LQueue) : Nat := fld l.ctl 23 16
/-- The RW fields of LQCTL and LQBASE. -/
def lqctlMask : Word := 0xFF070F
def lqbaseMask : Word := 0xFFFFFFFFF000

/-- A write of LQCTL. -/
def State.writeLqctl (s : State) (q : Nat) (v : Word) : State :=
  let l := s.lq q
  let w := v &&& lqctlMask
  let ctl := if l.en then (w &&& ~~~0xF) ||| (l.ctl &&& 0xF) else w
  let pa := l.base.toNat
  if !l.en && flag w 8 && (fld w 3 0 = 0 || 12 < fld w 3 0 || Config.devBytes ≤ pa || s.inStore pa) then s
  else s.setLq q { l with ctl := ctl }

def State.writeTail (s : State) (q : Nat) (v : Word) : State := s.setLq q { s.lq q with tail := fld v 15 0 }

/-- LQTAIL_WRITE (24 R441): the writes of the host before it have been performed. -/
def execLqtailWrite (n : BitVec 5) (v : Word) (s : State) : Out := .next (s.writeTail n.toNat v)
/-- LQCTL_WRITE (24 R442). -/
def execLqctlWrite (n : BitVec 5) (v : Word) (s : State) : Out := .next (s.writeLqctl n.toNat v)

/-- Whether a launch of a queue runs. -/
def State.lqBusy (s : State) (q : Nat) : Bool := s.launches.any (fun l => l.src.queue == some q && l.phase != 2)

/-! ## Reading and writing registers -/

/-- The doubleword at an 8-byte aligned offset. A read of an offset that the spec does not list is free (log 13). -/
def State.regWord (s : State) (off : Nat) : Word :=
  let y := s.sys
  if off = 0x10000 then W (y.devn % 16 * 256 + b2n y.lval * 8 + (if y.lval then y.lead else 0))
  else if off = 0x10008 then y.ready0
  else if off = 0x10010 then y.ready1
  else if off = 0x10018 then y.ready2
  else if 0x20000 ≤ off ∧ off < 0x20800 ∧ off % 64 < 0x30 then
    let q := (off - 0x20000) / 64
    let l := s.lq q
    match off % 64 / 8 with
    | 0 => l.base
    | 1 => l.ctl
    | 2 => l.root
    | 3 => W l.head
    | 4 => W l.tail
    | _ => W (b2n l.err * 2 + b2n (s.lqBusy q))
  else if 0x40000 ≤ off ∧ off < 0x40400 ∧ off % 64 < 0x28 then
    let p := s.portAt ((off - 0x40000) / 64)
    match off % 64 / 8 with
    | 0 => W p.raw
    | 1 => W p.cod
    | 2 => W p.rty
    | 3 => W p.rsy
    | _ => W (p.peer % 16 * 16 + b2n p.up)
  else if 0x30000 ≤ off ∧ off < 0x31000 then
    if off % 16 = 8 then W (s.rdN (regKey off) 4 + b2n (y.msiMask.getLsbD ((off - 0x30000) / 16)) * 2 ^ 32)
    else s.rdW (regKey off)
  else if 0x31000 ≤ off ∧ off < 0x31020 then W (y.msiPend.toNat / 2 ^ (8 * (off - 0x31000)))
  else if off = 0x50000 then y.fmcmd
  else if off = 0x50008 then
    W (y.fmrlen * 2 ^ 16 + y.fmres % 256 * 2 ^ 8 + b2n y.fmovr * 4 + b2n y.fmdone * 2 + b2n y.fmrun.isSome)
  else if 0x51000 ≤ off ∧ off < 0x52000 then s.rdW (regKey off)
  else Config.regOpen off s.stepNo

/-- An aligned read of 4 or 8 bytes. -/
def State.regRead (s : State) (off n : Nat) : Nat := (s.regWord (off / 8 * 8)).toNat / 2 ^ (8 * (off % 8)) % 2 ^ (8 * n)

/-- Vector control of an MSI-X entry: an unmasked pending vector is sent (24 R440, R444). -/
def State.setVectorMask (s : State) (v : Nat) (on : Bool) : State :=
  let t := s.modSys (fun y => { y with msiMask := setBit y.msiMask v on })
  if !on && t.sys.msiPend.getLsbD v then
    t.modSys (fun y => { y with msiPend := setBit y.msiPend v false, msiSent := y.msiSent ++ [v] })
  else t

/-- A write of n bytes at an aligned offset. `rw` is the value of the whole doubleword, with the old bytes where the write has
none; `one` has zeros there: RO and reserved fields are ignored (00 R6). -/
def State.regWrite (s : State) (off n v : Nat) : State :=
  let base := off / 8 * 8
  let sh := 2 ^ (8 * (off % 8))
  let x := v % 2 ^ (8 * n)
  let old := (s.regWord base).toNat
  let one := W (x * sh)
  let rw := W (old - old / sh % 2 ^ (8 * n) * sh + x * sh)
  if 0x20000 ≤ base ∧ base < 0x20800 then
    let q := (base - 0x20000) / 64
    let l := s.lq q
    match base % 64 / 8 with
    | 0 => if l.en then s else s.setLq q { l with base := rw &&& lqbaseMask }
    | 1 => s.writeLqctl q rw
    | 2 => if l.en then s else s.setLq q { l with root := rw &&& 0xFFFFFFFFFFFF }
    | 4 => s.writeTail q rw
    | 5 => s.setLq q { l with err := l.err && !flag one 1 }
    | _ => s
  else if 0x40000 ≤ base ∧ base < 0x40400 then
    if base % 64 = 0x20 then s.writeTrst ((base - 0x40000) / 64) one else s
  else if 0x30000 ≤ base ∧ base < 0x31000 then
    if base % 16 = 8 then (s.wr (regKey base) (bytesOf 4 rw.toNat)).setVectorMask ((base - 0x30000) / 16) (flag rw 32)
    else s.wr (regKey base) (bytesOf 8 rw.toNat)
  else if base = 0x50000 then if off % 8 = 0 then s.writeFmcmd rw else s
  else if base = 0x50008 then s.modSys (fun y => { y with fmovr := y.fmovr && !flag one 2, fmdone := y.fmdone && !flag one 1 })
  else if 0x51000 ≤ base ∧ base < 0x52000 then s.wr (regKey off) (bytesOf n x)
  else s

/-- Whether an access of the register space has a legal size and alignment (10 R271). -/
def regAccess (off n : Nat) : Bool := (n == 4 || n == 8) && off % n == 0 && off < regSpace && 0x10000 ≤ off

/-- REGISTER_WRITE (00 R6). -/
def execRegisterWrite (off size : Nat) (v : Word) (s : State) : Out := .next (if regAccess off size then s.regWrite off size v.toNat else s)

/-! ## Accesses from outside (24 R433) -/

/-- Whether a line is one of a versioned page, as far as the device has met it: it has a version, or a TLB entry covers it. DEDUCED
(log 31). -/
def State.versionedLine (s : State) (line : Nat) : Bool :=
  (Tab.look s.vers.lines line).isSome
  || (let covers := fun (t : Tlb) => bitOf t.leaf 6 && bitsOf t.leaf 63 32 * 2 ^ 16 ≤ line && line < bitsOf t.leaf 63 32 * 2 ^ 16 + t.size
      s.cores.any (fun k => k.2.tlb.any covers) || s.dies.any (fun d => d.2.tlb.any covers))

/-- A write by an outside agent; none while it must wait. A replica changes alone (24 R433). -/
def State.outsideWrite (s : State) (pa : Nat) (bs : List Byte) : State :=
  let h := Home.dev pa (s.versionedLine (lineOf pa)) false 0
  if s.keyHeld pa then s else if s.canPut h bs.length .other then s.put h bs .other else s.heldInstall h bs.length .other

/-- An address that an outside access is refused at. -/
def State.refused (s : State) (pa n : Nat) : Bool := Config.devBytes < pa + n || s.inStore pa

/-- What an outside agent reads of device memory. An uncorrectable line is logged and gives a value that is free: DESIGN CHOICE
(log 31). -/
def State.outsideRead (s : State) (pa n : Nat) : State × Word :=
  if s.bad pa n then (s.errorAt pa, W (Config.openValue 31 s.stepNo pa % 2 ^ (8 * n))) else (s, W (s.rdN pa n))

/-- HOST_ACCESS: through BAR0, BAR2, or, with any other number, a write of the host to its own memory, which the device does not see
happen (log 31). -/
def execHostAccess (write : Bool) (bar addr size : Nat) (v : Word) (s : State) : Out :=
  let data := bytesOf size v.toNat
  .next (if bar = 0 then
      if !regAccess addr size then if write then s else s.modSys (fun y => { y with hostRead := none })
      else if write then s.regWrite addr size v.toNat
      else s.modSys (fun y => { y with hostRead := some (W (s.regRead addr size)) })
    else if bar = 2 then
      let die := addr / Config.dieBytes
      if s.refused addr size || !s.isReady (readyDie die) then
        if write then if die < 8 then s.modDieAt die (fun d => { d with dlcnt := d.dlcnt + 1 }) else s
        else s.modSys (fun y => { y with hostRead := none })
      else if write then s.outsideWrite addr data
      else if s.keyHeld addr || s.repAt addr size then s
      else (s.outsideRead addr size).1.modSys (fun y => { y with hostRead := some (s.outsideRead addr size).2 })
    else if write then s.wr (hostKey addr) data else s)

/-- PEER_ACCESS: at a physical address of this device, or, from 2^48 up, a write of the peer to its own memory (log 31). -/
def execPeerAccess (port : BitVec 4) (write : Bool) (addr size : Nat) (v : Word) (s : State) : Out :=
  let data := bytesOf size v.toNat
  let p := s.portAt port.toNat
  .next (if 2 ^ 48 ≤ addr then if write then s.wr (peerKey p.peer (addr - 2 ^ 48)) data else s
    else if !p.up then s
    else if s.refused addr size then s.modSys (fun y => { y with peerRead := none })
    else if write then s.outsideWrite addr data
    else if s.keyHeld addr || s.repAt addr size then s
    else (s.outsideRead addr size).1.modSys (fun y => { y with peerRead := some (s.outsideRead addr size).2 }))

end Sys2Proof.Machine
end

