-- ==== Sys2Proof/Machine/Access.lean ====
section
/-! DEFINITION. The accesses of contexts as their homes carry them out (10 R254, R255, R279; 12 R308 to R311; 07 R191, R194;
15 R352; 24 R436), and the results that land in registers (01 R11), page walks (10 R273), and queue operations (15 R336). -/

namespace Sys2Proof.Machine

/-! ## Deterministic joins (08 R220) -/

/-- The child that a task record stands for. -/
def State.taskSib (s : State) (t : Task) : List Sib :=
  match s.launch? t.launch with
  | some l => if l.det && t.join != 0 then [⟨t.launch, t.join, t.path⟩] else []
  | none => []

def State.joinSib (s : State) (j : JoinDec) : List Sib :=
  match s.launch? j.launch with
  | some l => if l.det && j.join != 0 then [⟨j.launch, j.join, j.path⟩] else []
  | none => []

def Body.sib : Body → Option Sib
  | .msg m => m.sib
  | _ => none

/-- Every child of a deterministic join that has not ended, or whose work has not all been applied. -/
def State.children (s : State) : List Sib :=
  s.ctxs.flatMap (fun e => if e.2.run == .free then [] else (s.sibOf e.2).toList)
  ++ s.saved.flatMap (fun v => (s.sibOf v.hid).toList)
  ++ s.cores.flatMap (fun k => k.2.deque.flatMap s.taskSib ++ k.2.ptasks.flatMap (fun p => p.2.task.toList.flatMap s.taskSib)
      ++ k.2.pending.flatMap (fun m => m.sib.toList))
  ++ s.net.joins.flatMap s.joinSib
  ++ s.net.reqs.flatMap (fun r => r.sib.toList)
  ++ s.net.pkts.flatMap (fun p => p.body.sib.toList) ++ s.net.held.flatMap (fun h => h.pkt.body.sib.toList)
  ++ s.net.lands.map (fun h => h.sib)

/-- Whether an earlier sibling has still to end (08 R220). -/
def State.sibHeld (s : State) (x : Sib) : Bool :=
  s.children.any (fun y => y.launch == x.launch && y.join == x.join && decide (y.path < x.path))

/-! ## Which access may be performed -/

/-- Request k and its piece j, at place i of all pieces in flight. -/
def pieceAt : List Req → Nat → Nat → Option (Nat × Nat)
  | [], _, _ => none
  | r :: l, k, i => if i < r.pieces.length then some (k, i) else pieceAt l (k + 1) (i - r.pieces.length)

def MemOp.writes : MemOp → Bool
  | .load _ _ => false
  | .vload _ _ _ _ _ => false
  | _ => true

/-- Whether an operation only writes: it needs no value from its home. -/
def MemOp.blind : MemOp → Bool
  | .store _ => true
  | .vstore _ _ _ _ => true
  | _ => false

def MemOp.isAdd : MemOp → Bool
  | .adds _ _ _ _ _ _ _ => true
  | .bank _ _ _ _ _ _ _ => true
  | _ => false

/-- Whose writes a request makes. -/
def Req.writer (r : Req) : Writer := .access r.pid r.cx r.act r.no

/-- Whether the home can carry out the operation now: watermarks (10 R267), commit locks and version room (10 R284, R286), a ready
stack (25 R446), a trained port (24 R436), earlier siblings (08 R220), and, for what reads its location, every replica up to date (10
R279, 11 R290; log 62). -/
def State.homeReady (s : State) (r : Req) (p : Piece) : Bool :=
  (match p.home with
    | .spad q off => !s.marked q off p.len && !(r.op.isAdd && (match r.sib with
        | some x => s.sibHeld x
        | none => false))
    | .dev pa _ _ _ =>
      !s.keyHeld (if r.op.writes then p.home.writeKey s.sys.lead else p.home.readKey s.sys.lead r.pid)
      && (!r.op.writes || (match r.op with
          | .cas e _ _ => !s.lockedLine (lineOf pa) r.writer && (natOf (s.homeBytes p.home 8) != e.toNat || s.canPut p.home p.len r.writer)
          | _ => s.canPut p.home p.len r.writer))
    | h => s.homeDown h || !s.homeLost h)
  && (r.op.blind || !s.repOpen p.home p.len)

/-- Whether piece j of request k is next in the order of its context. A release waits until every earlier write of its context is
performed, on every replica (11 R298). -/
def State.inTurn (s : State) (k j : Nat) (r : Req) (p : Piece) : Bool :=
  let mine := (s.net.reqs.take k).filter (fun q => q.act == r.act && q.pid == r.pid)
  !(mine.any (fun q => q.acq || q.pieces.any (fun x => x.before p))) && !(r.rel && s.inFlight r.act r.no)
  && !(r.pieces.take j).any (fun x => x.before p)

/-- Whether piece j of request k may be performed: the order of the context, then its home. -/
def State.mayPerform (s : State) (k j : Nat) (r : Req) (p : Piece) : Bool := s.inTurn k j r p && s.homeReady r p

/-- Whether a write of a request finds no room for its version: a CAS only where it writes (10 R284, R286). -/
def State.wantsRoom (s : State) (r : Req) (p : Piece) : Bool :=
  r.op.writes && !s.keyHeld (p.home.writeKey s.sys.lead) && (match r.op with
    | .cas e _ _ => natOf (s.homeBytes p.home 8) == e.toNat
    | _ => true)

/-! ## Operations at a home -/

/-- f(old, b) of Table 12.1, and its flags. -/
def amoResult (op rm : Nat) (old b : Word) : Word × Nat :=
  match op with
  | 0 => (old + b, 0)
  | 1 => (old &&& b, 0)
  | 2 => (old ||| b, 0)
  | 3 => (old ^^^ b, 0)
  | 4 => (if old.slt b then old else b, 0)
  | 5 => (if old.slt b then b else old, 0)
  | 6 => (if old.ult b then old else b, 0)
  | 7 => (if old.ult b then b else old, 0)
  | 8 => (b, 0)
  | 9 =>
    let r := fAdd 14 ⟨rm, false, fun _ => 0⟩ 0 (numOf 14 (old.toNat % 2 ^ 32)) (numOf 14 (b.toNat % 2 ^ 32))
    (W r.code, r.fl)
  | _ =>
    let r := fAdd 15 ⟨rm, false, fun _ => 0⟩ 0 (numOf 15 old.toNat) (numOf 15 b.toNat)
    (W r.code, r.fl)

/-- One element added to memory (07 R194): integers wrap, floating-point sums round once with SAT = 0. -/
def addElem (fmt rm : Nat) (old x : Nat) : Res :=
  if fmtFloat fmt then fAdd fmt ⟨rm, false, fun _ => 0⟩ 0 (numOf fmt old) (numOf fmt x) else ⟨(old + x) % 2 ^ fmtWidth fmt, 0⟩

/-- A row with lanes added through its bank adder (10 R255, 15 R352), the flags of all lanes, and the lanes that raised any flag, which
are the lanes that NUMERIC names: DESIGN CHOICE (log 66). -/
def bankRow (op rm : Nat) (sat : Bool) (mask : Nat) (old row : Nat) : Nat × Nat × Nat :=
  let fmt := if op = 0 then 4 else if op = 1 then 14 else 15
  let w := fmtWidth fmt
  let rs := (List.range (512 / w)).map (fun i =>
    let a := old / 2 ^ (w * i) % 2 ^ w
    let b := row / 2 ^ (w * i) % 2 ^ w
    if !bitOf mask i then (⟨a, 0⟩ : Res)
    else if op = 0 then ⟨(a + b) % 2 ^ w, 0⟩
    else fAdd fmt ⟨rm, sat, fun _ => 0⟩ i (numOf fmt a) (numOf fmt b))
  (ofLanes w (rs.map (fun r => r.code)), rs.foldl (fun f r => f ||| r.fl) 0,
    ((List.range rs.length).filter (fun i => match rs[i]? with
      | some r => r.fl != 0
      | none => false)).foldl (fun m i => m + 2 ^ i) 0)

/-! ## Performing a piece -/

/-- The request without its piece j, with the data that belongs to the piece. -/
def Req.without (r : Req) (j : Nat) : Req :=
  { r with
    pieces := r.pieces.eraseIdx j
    op := match r.op with
      | .vload n lanes d acc bad => .vload n (lanes.eraseIdx j) d acc bad
      | .vstore data lanes whole bad => .vstore (data.eraseIdx j) (lanes.eraseIdx j) whole bad
      | .adds f rm en data fl mask bad => .adds f rm en (data.eraseIdx j) fl mask bad
      | op => op }

/-- A result on its way to its register. -/
def State.land (s : State) (r : Req) (d : Dest) (v : Val) : State :=
  s.modNet (fun n => { n with results := n.results ++ [⟨r.pid, r.cx, r.act, d, v⟩] })

/-- The bytes of a read of n bytes at a home, for a core, and whether they are in error; an uncorrectable error is logged (05 R121). -/
def State.readHome (s : State) (pid : Nat) (h : Home) (n : Nat) (fresh : Bool) : State × List Byte × Bool :=
  match h with
  | .regs off => (s, bytesOf n (s.regRead off n), false)
  | h =>
    if h.outside then
      if s.homeDown h then (s, List.replicate n 0, true)
      else
        let (t, b) := s.readOutside h n fresh
        (t.onLink h, b, false)
    else
      let k := h.readKey s.sys.lead pid
      if s.bad k n then (s.errorAt k, List.replicate n 0, true) else (s, s.rd k n, false)

/-- The bytes of a read at a home, and whether they are in error. -/
def State.readPiece (s : State) (r : Req) (p : Piece) : State × List Byte × Bool := s.readHome r.pid p.home p.len r.fresh

/-- A write at a home. -/
def State.writeHome (s : State) (h : Home) (bs : List Byte) (by_ : Writer) : State :=
  match h with
  | .regs off => s.regWrite off bs.length (natOf bs)
  | h =>
    let t := s.put h bs by_
    if h.outside then (t.wroteOutside h bs.length).onLink h else t

/-- A write of a request at a home. -/
def State.writePiece (s : State) (r : Req) (h : Home) (bs : List Byte) : State := s.writeHome h bs r.writer

/-- Whether an operation that must read or merge its piece cannot: its port is down (24 R436), or its line is uncorrectable (10 R270). -/
def State.lostPiece (s : State) (p : Piece) (whole : Bool) : Bool :=
  s.homeDown p.home || (!whole && !p.home.isRegs && !p.home.outside && s.homeBad p.home p.len)

/-- An uncorrectable error that such an operation meets is logged. -/
def State.noteLost (s : State) (p : Piece) : State := if s.homeDown p.home then s else s.errorAt (p.home.writeKey s.sys.lead)

/-- The access error that a store reports at a boundary: its port is down (24 R436), or its line has become uncorrectable since it
issued: DEDUCED (log 63). -/
def State.storeLost (s : State) (r : Req) (e : Raise) : State := s.addPend r.act ⟨e.eff, e⟩

/-- Lanes with their errors, in ascending order. -/
def insertLane (l : List (Nat × Raise)) (e : Nat × Raise) : List (Nat × Raise) :=
  l.filter (fun x => x.1 < e.1) ++ [e] ++ l.filter (fun x => e.1 < x.1)
def sortLanes (l : List (Nat × Raise)) : List (Nat × Raise) := l.foldl insertLane []

/-- The fault of a vector access: the lowest lane's, with every faulting lane (07 R190, R191). -/
def laneFault (l : List (Nat × Raise)) : Option Raise :=
  l.head?.map (fun e => { e.2 with lanes := W ((l.map (fun x => x.1)).foldl (fun m i => m + 2 ^ i) 0) })

/-- What a vector load brings to its register. -/
def errVal (v : VWord) (bad : List (Nat × Raise)) : Val :=
  match laneFault (sortLanes bad) with
  | some e => .err e v
  | none => .v v

/-- A vector store or scatter-add whose last piece is done: one report of its flags (03 R81) and one of its errors. -/
def State.closeLanes (s : State) (r : Req) (fl en mask : Nat) (bad : List (Nat × Raise)) : State :=
  let t := s.addFlags r.act fl en (W mask) r.iaddr
  match laneFault (sortLanes bad) with
  | some e => t.storeLost r e
  | none => t

/-- The vector with n bytes of lane i replaced. -/
def withLane (v : VWord) (n i x : Nat) : VWord :=
  BitVec.ofNat 512 (v.toNat - v.toNat / 2 ^ (8 * n * i) % 2 ^ (8 * n) * 2 ^ (8 * n * i) + x * 2 ^ (8 * n * i))

/-- An AMO or CAS, with the new value and flags for the old one, if it writes. -/
def State.rmwPiece (s : State) (r : Req) (p : Piece) (d : Reg) (en : Nat) (f : Word → Option Word × Nat) : State :=
  if s.lostPiece p false then (s.noteLost p).land r (.g d) (.err (memErr r.iaddr r.ea) 0)
  else
    let old := W (natOf (s.homeBytes p.home p.len))
    let (new, fl) := f old
    let t := match new with
      | some x => s.writePiece r p.home (bytesOf p.len x.toNat)
      | none => s
    (t.addFlags r.act fl en 1 r.iaddr).land r (.g d) (.g old)

/-- Piece j of request k is performed at its home. -/
def State.performPiece (s : State) (r : Req) (j : Nat) (p : Piece) : State × Req :=
  let rest := r.without j
  let last := rest.pieces.isEmpty
  match r.op with
  | .load sx d =>
    let (t, b, bad) := s.readPiece r p
    (t.land r (.g d) (if bad then .err (memErr r.iaddr r.ea) 0 else .g (extend p.len sx (natOf b))), rest)
  | .store data =>
    (if s.lostPiece p false then (s.noteLost p).storeLost r (memErr r.iaddr r.ea) else s.writePiece r p.home data, rest)
  | .amo op b rm en d => (s.rmwPiece r p d en (fun old => (some (amoResult op rm old b).1, (amoResult op rm old b).2)), rest)
  | .cas e b d => (s.rmwPiece r p d 0 (fun old => (if old = e then some b else none, 0)), rest)
  | .vload n lanes d acc bad =>
    match lanes[j]? with
    | none => (s, rest)
    | some (i, ea) =>
      let (t, b, err) := s.readPiece r p
      let acc2 := withLane acc n i (natOf b)
      let bad2 := if err then bad ++ [(i, memErr r.iaddr ea)] else bad
      (if last then t.land r (.v d) (errVal acc2 bad2) else t, { rest with op := .vload n (lanes.eraseIdx j) d acc2 bad2 })
  | .vstore data lanes whole bad =>
    let line := lineOf (p.home.writeKey s.sys.lead)
    let lost := s.lostPiece p (whole.contains (lineOf p.home.key))
    let bad2 := if lost then bad ++ [((lanes.getD j (0, 0)).1, memErr r.iaddr (lanes.getD j (0, 0)).2)] else bad
    let t := if lost then s.noteLost p else s.writePiece r p.home (data.getD j [])
    let u := if whole.contains (lineOf p.home.key) && !rest.pieces.any (fun q => lineOf (q.home.writeKey s.sys.lead) == line) then
        { t with ue := t.ue.filter (fun l => l != line) } else t
    (if last then u.closeLanes r 0 0 0 bad2 else u, { rest with op := .vstore (data.eraseIdx j) (lanes.eraseIdx j) whole bad2 })
  | .adds fmt rm en data fl mask bad =>
    match data[j]? with
    | none => (s, rest)
    | some (lane, ea, x) =>
      let lost := s.lostPiece p false
      let res := addElem fmt rm (natOf (s.homeBytes p.home p.len)) x
      let t := if lost then s.noteLost p else s.writePiece r p.home (bytesOf p.len res.code)
      let fl2 := if lost then fl else fl ||| res.fl
      let mask2 := if lost || res.fl == 0 then mask else mask ||| 2 ^ lane
      let bad2 := if lost then bad ++ [(lane, memErr r.iaddr ea)] else bad
      (if last then t.closeLanes r fl2 en mask2 bad2 else t, { rest with op := .adds fmt rm en (data.eraseIdx j) fl2 mask2 bad2 })
  | .bank op rm sat fetch en mask row =>
    let old := natOf (s.homeBytes p.home 64)
    if s.homeBad p.home 64 then ((s.errorAt p.home.key).storeLost r (memErr r.iaddr r.ea), rest)
    else
      let (new, fl, lanes) := bankRow op rm sat mask old row.toNat
      let t := (s.writePiece r p.home (bytesOf 64 new)).addFlags r.act fl en (W lanes) r.iaddr
      (if fetch then t.pushOwn r.act 10 (bytesWords 8 (bytesOf 64 old)) else t, rest)

/-- The request put back, or gone when nothing of it is left. -/
def State.putReq (s : State) (k : Nat) (r : Req) : State :=
  if r.pieces.isEmpty then (s.modNet (fun n => { n with reqs := n.reqs.eraseIdx k })).refreshPend r.act
  else s.modNet (fun n => { n with reqs := updAt (fun _ => r) n.reqs k })

/-- The access at place i, if it may be performed: `repl` those that the lead die sequences. -/
def State.performAccess (s : State) (i : Nat) (repl : Bool) : State :=
  match pieceAt s.net.reqs 0 i with
  | none => s
  | some (k, j) =>
    match s.net.reqs[k]? with
    | none => s
    | some r => match r.pieces[j]? with
      | none => s
      | some p =>
        if (r.op.writes && p.home.isReplica) != repl then s
        else if s.mayPerform k j r p then
          let (t, rest) := s.performPiece r j p
          (t.cancelHeld p.home p.len r.writer).putReq k rest
        else if s.inTurn k j r p && s.wantsRoom r p then s.heldInstall p.home p.len r.writer else s

/-- REMOTE_ACCESS: the access at place i is performed at its home (10 R254). -/
def execRemoteAccess (i : Nat) (s : State) : Out := .next (s.performAccess i false)

/-- REPLICATED_WRITE: the lead die numbers the write at place i and applies it (10 R279). -/
def execReplicatedWrite (i : Nat) (s : State) : Out := .next (s.performAccess i true)

/-- REPLICA_APPLY: the replica on a die applies its next write in sequence order (10 R279). -/
def execReplicaApply (die : Nat) (s : State) : Out :=
  .next (match s.vers.reps.find? (fun r => r.todo.contains die) with
    | none => s
    | some r =>
      let t := s.wr (die * Config.dieBytes + r.off) r.data
      (t.modVers (fun v => { v with
        reps := (v.reps.map (fun q => if q.seq = r.seq then { q with todo := q.todo.filter (fun d => d != die) } else q)).filter (fun q => !q.todo.isEmpty)
      })).refreshPend r.actOf)

/-- PEER_NEGATIVE_RESPONSE: the peer refuses the access at place i (24 R436). -/
def execPeerNegativeResponse (i : Nat) (s : State) : Out :=
  .next (match pieceAt s.net.reqs 0 i with
    | none => s
    | some (k, j) => match s.net.reqs[k]? with
      | none => s
      | some r => match r.pieces[j]?, r.op with
        | some ⟨.peer d pa, n⟩, op =>
          if !s.mayPerform k j r ⟨.peer d pa, n⟩ then s
          else
            let refuse := fun (d : Dest) => (s.land r d (.err (permFault r.ea) 0)).putReq k (r.without j)
            let rest := r.without j
            match op with
            | .load _ d => refuse (.g d)
            | .amo _ _ _ _ d => refuse (.g d)
            | .cas _ _ d => refuse (.g d)
            | .vload n lanes d acc bad =>
              let bad2 := bad ++ [((lanes.getD j (0, 0)).1, permFault (lanes.getD j (0, 0)).2)]
              let t := if rest.pieces.isEmpty then s.land r (.v d) (errVal acc bad2) else s
              t.putReq k { rest with op := .vload n (lanes.eraseIdx j) d acc bad2 }
            | .vstore data lanes whole bad =>
              let bad2 := bad ++ [((lanes.getD j (0, 0)).1, permFault (lanes.getD j (0, 0)).2)]
              let t := if rest.pieces.isEmpty then s.closeLanes r 0 0 0 bad2 else s
              t.putReq k { rest with op := .vstore (data.eraseIdx j) (lanes.eraseIdx j) whole bad2 }
            | .adds f rm en data fl mask bad =>
              let e := data.getD j (0, 0, 0)
              let bad2 := bad ++ [(e.1, permFault e.2.1)]
              let t := if rest.pieces.isEmpty then s.closeLanes r fl en mask bad2 else s
              t.putReq k { rest with op := .adds f rm en (data.eraseIdx j) fl mask bad2 }
            | _ => (s.storeLost r (permFault r.ea)).putReq k rest
        | _, _ => s)

/-! ## Accesses carried out at issue -/

/-- A write that the executing context makes at issue: it takes a request number, which later releases cover (11 R298). -/
def State.writeOwn (s : State) (h : Home) (bs : List Byte) : State :=
  (s.writeHome h bs (.access s.pid s.cx s.ctx.act s.net.nextReq)).modNet (fun n => { n with nextReq := n.nextReq + 1 })

/-- The pieces of request `no` that lie in its core's own scratchpad are performed, lowest first, as far as they may be: an access to
the local window takes its place in program order (11 R294). -/
def State.performLocal (s : State) (pid no : Nat) : Nat → State
  | 0 => s
  | n + 1 =>
    match s.net.reqs.findIdx? (fun r => r.no == no) with
    | none => s
    | some k => match s.net.reqs[k]? with
      | none => s
      | some r =>
        match r.pieces.findIdx? (fun p => p.home.own pid) with
        | none => s
        | some j => match r.pieces[j]? with
          | none => s
          | some p =>
            if s.mayPerform k j r p then
              let (t, rest) := s.performPiece r j p
              (t.putReq k rest).performLocal pid no n
            else s

/-- Posts a request, and performs at once what lies in the own scratchpad; an add that earlier siblings hold waits there (08 R220). -/
def Act.postNow (pieces : List Piece) (op : MemOp) (rel acq : Bool) (here ea : Word) : Act Unit :=
  Act.upd (fun s => (s.post pieces op rel acq here ea).performLocal s.pid s.net.nextReq pieces.length)

/-- Waits for the marks over the pieces that lie in the own scratchpad (10 R267). -/
def Act.unmarked : List Piece → Act Unit
  | [] => pure ()
  | p :: l => do
    let s ← get
    match p.home with
    | .spad q off => Act.waitIf (q == s.pid && s.marked q off p.len) (.mark off)
    | _ => pure ()
    Act.unmarked l

/-- A read-modify-write of the executing context (12 R308, 09 R240): in the own scratchpad it is performed at issue. -/
def Act.rmw (h : Home) (n : Nat) (op : MemOp) (rel acq : Bool) (here ea : Word) : Act Unit := do
  if h.own (← get).pid then do
    if rel then Act.drain else pure ()
    Act.unmarked [⟨h, n⟩]
    Act.postNow [⟨h, n⟩] op rel acq here ea
  else Act.post [⟨h, n⟩] op rel acq here ea

/-- A read of the local engine block that an instruction makes at issue (15 R335, R336). -/
def Act.engineTake (off n : Nat) (ea : Word) : Act Word := do
  let q := off / 8
  Act.check (n != 8 || off % 8 != 0 || off > 0x88 || q == 0 || q == 2 || q == 4) (permFault ea)
  let s ← get
  if off = 0x80 then return s.qcnt false
  else if off = 0x88 then return s.qcnt true
  else
    match s.queue s.pid s.cx q with
    | [] => Act.wait .drain
    | w :: l => do
      Act.waitIf ((s.core.pops).any (fun p => p.q == q && (coreQueue q || p.cx == s.cx))) .drain
      Act.upd (fun s => s.setQueue s.pid s.cx q l)
      return w

/-- A read of n bytes that an instruction makes at issue, after every access that it must follow: the value, and whether it is in
error. -/
def Act.readNow (h : Home) (n : Nat) (ea : Word) (fresh : Bool) : Act (Nat × Bool) := do
  match h with
  | .regs off => do
    Act.regsInOrder
    if off < 0x10000 then do
      let v ← Act.engineTake off n ea
      return (v.toNat, false)
    else return ((← get).regRead off n, false)
  | h => do
    Act.reach h n
    let s ← get
    let (t, b, bad) := s.readHome s.pid h n fresh
    set t
    return (natOf b, bad)

/-! ## Results (01 R11, R12; 05 R121) -/

/-- A result written to its register, with presence; an error waits there for its consumer. -/
def Ctx.take (c : Ctx) (r : Result) : Ctx :=
  let regs := c.regs.setPresent true r.dest
  match r.dest, r.val with
  | .g i, .g v => { c with regs := regs.setG i v }
  | .v i, .v v => { c with regs := regs.setV i v }
  | .g i, .err e _ => { c with regs := regs.setG i 0, poison := if i = 0 then c.poison else c.poison ++ [⟨.g i, e⟩] }
  | .v i, .err e v => { c with regs := regs.setV i v, poison := c.poison ++ [⟨.v i, e⟩] }
  | _, _ => { c with regs := regs }

/-- REGISTER_RESULT_ARRIVAL: result i lands; one of an ended activation is discarded (01 R11, R28). -/
def execRegisterResultArrival (i : Nat) (s : State) : Out :=
  .next (match takeAt s.net.results i with
    | none => s
    | some (r, rest) =>
      let t := s.modNet (fun n => { n with results := rest })
      let c := t.ctxAt r.pid r.cx
      if c.act = r.act ∧ c.run ≠ .free then t.setCtxAt r.pid r.cx (c.take r) else t)

/-! ## Mailboxes (05 R134) -/

/-- A served reservation's value lands in its register, if its activation is still there (01 R28). -/
def State.serve (s : State) (pid : Nat) (t : Take) (v : Word) : State :=
  let c := s.ctxAt pid t.cx
  if c.act = t.act ∧ c.run ≠ .free then s.setCtxAt pid t.cx (c.take ⟨pid, t.cx, t.act, .g t.d, .g v⟩) else s

/-- A mailbox's value is taken: its presence goes, and the MPEEKs that wait get the value that was present. -/
def State.emptyMailbox (s : State) (pid m : Nat) : State :=
  let k := s.coreAt pid
  let peeks := k.takes.filter (fun x => x.m == m && x.peek)
  let left := k.takes.filter (fun x => !(x.m == m && x.peek))
  peeks.foldl (fun s x => s.serve pid x (k.m[m]?.getD 0)) (s.modCoreAt pid (fun k => { k with takes := left, mp := setBit k.mp m false }))

/-! ## Page walks (10 R273, R278) -/

/-- PAGE_WALK: a walk for a context's address space; its fault is reported by the access that needs it, and no failed walk enters a
TLB (10 R275). -/
def execPageWalk (core cx : Nat) (va : Word) (s : State) : Out :=
  let root := (s.ctxAt core cx).space.ptroot
  .next (match classOf va.toNat with
    | .trans =>
      if 2 ^ 52 ≤ va.toNat then s
      else match s.walk root va.toNat with
        | .ok l => s.fillTlb core root va.toNat l
        | .error _ => s
    | _ => s)

/-! ## Queue registers (15 R336) -/

/-- QUEUE_POP: pop i of a core is served when an element is present; pops of one queue keep their order. -/
def execQueuePop (core i : Nat) (s : State) : Out :=
  .next (match takeAt (s.coreAt core).pops i with
    | none => s
    | some (p, rest) =>
      let same := fun (q : Pop) => q.q == p.q && (coreQueue p.q || q.cx == p.cx)
      if ((s.coreAt core).pops.take i).any same then s
      else
        let c := s.ctxAt core p.cx
        let drop := s.modCoreAt core (fun k => { k with pops := rest })
        let alive := decide (c.act = p.act) && c.run != .free
        if !coreQueue p.q && !alive then drop
        else match s.queue core p.cx p.q with
          | [] => s
          | w :: l =>
            let t := drop.setQueue core p.cx p.q l
            if alive then t.modCtxAt core p.cx (fun c => c.take ⟨core, p.cx, p.act, .g p.d, .g w⟩) else t)

/-- QUEUE_PUSH: the value of a store to Q12 to Q15 enters its queue, when it has room. -/
def execQueuePush (core cx : Nat) (q : BitVec 4) (v : Word) (s : State) : Out :=
  .next (if q.toNat < 12 || 16 ≤ (s.queue core cx q.toNat).length || (s.ctxAt core cx).run == .free then s else s.push core cx q.toNat [v])

end Sys2Proof.Machine
end

