-- ==== Sys2Proof/Machine/Control.lean ====
section
/-! DEFINITION. Control transfer, calls and returns (01 R25, R26; 05 R124 to R127), and the end, wait and mailbox
instructions (05 R130 to R136). -/

namespace Sys2Proof.Machine

/-! ## Branches -/

def execBc (sp : Bool) (_h : Hint) (c : Cond) (b a : Reg) (o : BitVec 9) (s : State) : Out :=
  issue s sp 4 (do
    let x ← Act.rdG a
    let y ← Act.rdG b
    if condHolds c x y then Act.jump (target s.here o) else pure ())

def execBz (sp : Bool) (_h : Hint) (c : BzCond) (a : Reg) (o : BitVec 14) (s : State) : Out :=
  issue s sp 4 (do
    let x ← Act.rdG a
    if bzHolds c x then Act.jump (target s.here o) else pure ())

def execBr (sp : Bool) (o : BitVec 24) (s : State) : Out := issue s sp 4 (Act.jump (target s.here o))

def execLoop (sp : Bool) (_h : Hint) (a : Reg) (o : BitVec 14) (s : State) : Out :=
  issue s sp 4 (do
    Act.check (a == 0) (illegal 0)
    let x ← Act.rdG a
    Act.wrG a (x - 1)
    if x - 1 ≠ 0 then Act.jump (target s.here o) else pure ())

/-! ## Calls (01 R25) -/

/-- A register target: a general register, or a mailbox that is read without being taken (05 R126). -/
def Act.jumpReg (mailbox : Bool) (a : Reg) : Act Word :=
  if mailbox then do
    let k ← Act.core
    Act.waitIf (!k.mp.getLsbD a.toNat) (.mboxRead a.toNat)
    return k.m[a.toNat]
  else Act.rdG a

/-- A spill: mem(s, 8) := a as a stack-class access whose faults are precise at the call (01 R26). Through a peer's port it waits
while the link retrains, and a port that is down is MEMERR (24 R436). -/
def Act.spillSlot (here slot ret : Word) : Act Unit := do
  let (h, a) ← Act.place .write true slot 8 true true
  Act.waitIf (!(← get).homeDown h && (← get).homeLost h) .drain
  Act.check ((← get).homeDown h) { memErr here a with stk := true }
  Act.store here slot 8 ret true false

/-- The call procedure (01 R25), then the branch; the target is checked first (05 R126). -/
def Act.call (here t : Word) : Act Unit := do
  Act.check (flag t 0) (alignFault t)
  let g31 ← Act.rdG 31
  Act.check (g31.toNat % 8 != 0) (alignFault g31)
  let c ← Act.ctx
  match c.ras with
  | (ret, slot) :: rest =>
    if c.ras.length ≥ 16 then do
      Act.check (c.rdep ≥ 65535) { eff := Eff.stackovf, arg := slot, stk := true }
      Act.spillSlot here slot ret
      Act.updCtx (fun c => { c with ras := rest ++ [(here + 4, g31)], rdep := c.rdep + 1, pc := t })
    else Act.updCtx (fun c => { c with ras := c.ras ++ [(here + 4, g31)], pc := t })
  | [] => Act.updCtx (fun c => { c with ras := [(here + 4, g31)], pc := t })
def execCall (sp : Bool) (o : BitVec 24) (s : State) : Out := issue s sp 4 (Act.call s.here (target s.here o))

def execJr (sp : Bool) (m : Bool) (a : Reg) (s : State) : Out :=
  issue s sp 4 (do
    let t ← Act.jumpReg m a
    Act.jump t)

def execJrCompact (sp : Bool) (a : Reg) (s : State) : Out :=
  issue s sp 2 (do
    let t ← Act.jumpReg false a
    Act.jump t)

def execCallr (sp : Bool) (m : Bool) (a : Reg) (s : State) : Out :=
  issue s sp 4 (do
    let t ← Act.jumpReg m a
    Act.call s.here t)

/-- RET (01 R25): the newest entry, else a refill from the link slot, read at once as a stack-class access, else ILLEGAL. -/
def retOp (sp : Bool) (len : Nat) (s : State) : Out :=
  issue s sp len (do
    let c ← Act.ctx
    match c.ras.getLast? with
    | some (t, _) => do
      Act.check (flag t 0) (alignFault t)
      Act.updCtx (fun c => { c with ras := c.ras.dropLast, pc := t })
    | none => do
      Act.check (c.rdep == 0) (illegal 0)
      let g31 ← Act.rdG 31
      Act.gate
      let (h, a) ← Act.place .read true g31 8 true true
      let (v, bad) ← Act.readNow h 8 a false
      Act.check bad { memErr s.here a with stk := true }
      Act.check (flag (W v) 0) (alignFault (W v))
      Act.updCtx (fun c => { c with rdep := c.rdep - 1, pc := W v }))

def execRet (sp : Bool) (s : State) : Out := retOp sp 4 s
def execRetCompact (sp : Bool) (s : State) : Out := retOp sp 2 s

/-! ## Ending, waiting, idling (05 R130 to R133) -/

def execNop (sp : Bool) (s : State) : Out := issue s sp 4 (pure ())
def execNopCompact (sp : Bool) (s : State) : Out := issue s sp 2 (pure ())

/-- DONE ends the activation (01 R28). -/
def doneOp (s : State) : Out := issue s false 4 (fun t => .error (.stop (t.endAct t.pid t.cx)))
def execDone (_sp : Bool) (s : State) : Out := doneOp s
def execDoneCompact (_sp : Bool) (s : State) : Out := doneOp s

/-- HALT also reports a failure with effect id 0 and argument Ga (05 R131). -/
def execHalt (sp : Bool) (a : Reg) (s : State) : Out :=
  issue s sp 4 (do
    let x ← Act.rdG a
    let t ← get
    Act.stop (t.endFail t.pid t.cx 0 x 0))

/-- IDLE parks for Ga[31:0] cycles; with 0, until another low context has issued (05 R132). It completes as it parks. -/
def execIdle (sp : Bool) (a : Reg) (s : State) : Out :=
  issue s sp 4 (do
    Act.check (← Act.inSH) (illegal 0)
    let x ← Act.rdG a
    let n := x.toNat % 2 ^ 32
    let t ← get
    let deadline := t.time + n * Config.coreTicks t.pid
    let w := if n = 0 then Wait.idleTurn t.time else .idle deadline
    let idle := t.modCtx (fun c => { c with run := .parked w, since := t.time })
    Act.stop (idle.switch true))

/-- The read of WAITA and JOINW: the value, whether it is in error, and the line to watch, which is the one that was read
(05 R133, 09 R242). -/
def Act.watchRead (ea : Word) : Act (Word × Bool × Nat) := do
  Act.gate
  let (h, a) ← Act.place .read false ea 8 true true
  let (v, bad) ← Act.readNow h 8 a true
  let s ← get
  return (W v, bad, lineOf (h.readKey s.sys.lead s.pid))

/-- WAITA (05 R133). An error beyond the local window waits at Gd for its consumer, as for LD (05 R121). -/
def execWaita (sp : Bool) (d a b : Reg) (s : State) : Out :=
  issue s sp 4 (do
    Act.check (← Act.inSH) (illegal 0)
    let ea ← Act.rdG a
    let y ← Act.rdG b
    Act.interlock (.g d)
    let (v, bad, line) ← Act.watchRead ea
    Act.check (bad && inLocal ea.toNat) (memErr s.here ea)
    if bad then do
      Act.updCtx (fun c => c.take ⟨s.pid, s.cx, c.act, .g d, .err (memErr s.here ea) 0⟩)
      Act.giveWay
    else if v = y then Act.park (.watch line)
    else do
      Act.wrG d v
      Act.giveWay)

/-! ## Mailboxes (05 R134 to R136) -/

/-- MTAKE and MPEEK issue without waiting (05 R134): a value that is present, and that no earlier MTAKE awaits, is taken at once, also
for the MPEEKs that wait for it; else a reservation is left. -/
def takeOp (sp : Bool) (d a : Reg) (peek : Bool) (s : State) : Out :=
  issue s sp 4 (do
    Act.pendDest (.g d)
    let k ← Act.core
    let m := a.toNat
    if !k.mp.getLsbD m || (!peek && k.takes.any (fun t => t.m == m && !t.peek)) then
      Act.updCore (fun k => { k with takes := k.takes ++ [⟨m, s.cx, s.ctx.act, d, peek⟩] })
    else do
      Act.result (.g d) (.g (k.m[m]?.getD 0))
      if peek then pure () else Act.upd (fun t => t.emptyMailbox t.pid m))

def execMtake (sp : Bool) (d a : Reg) (s : State) : Out := takeOp sp d a false s
def execMpeek (sp : Bool) (d a : Reg) (s : State) : Out := takeOp sp d a true s

/-- WAITM (05 R135). -/
def execWaitm (sp : Bool) (a : Reg) (s : State) : Out :=
  issue s sp 4 (do
    Act.check (← Act.inSH) (illegal 0)
    let k ← Act.core
    if k.mp.getLsbD a.toNat then Act.giveWay else Act.park (.mbox a.toNat))

end Sys2Proof.Machine
end

