-- ==== Sys2Proof/Machine/Message.lean ====
section
/-! DEFINITION. The message, task and group instructions (09), and the operations of VN0 that they share: resolving a logical
id, sending a packet, holding it for a parked id, and waiting for an answer. -/

namespace Sys2Proof.Machine

/-! ## Sending -/

/-- Waits, with the PC at the instruction, for an answer that another agent owes (01 R13). -/
def Act.await (here : Word) (sp : Bool) (w : Wait) : Act Unit := fun s =>
  let t := s.modCtx (fun c => { c with pc := here })
  .error (.stop ((t.block w sp).switch sp))

/-- A packet of the executing context to a core, with the launch and logical id that the core was resolved from. -/
def State.packet (s : State) (dst : Nat) (b : Body) (to_ : Option (Nat × Nat)) : Pkt :=
  ⟨s.net.nextReq, s.pid, s.cx, s.ctx.act, dst, b, false, to_⟩

/-- Sends a packet to a logical id of the context's launch: it enters VN0, or the sending NI holds it while the id is
parked, up to 32 of them (09 R230, 21 R413). -/
def Act.send (lid : Nat) (b : Body) : Act Unit := do
  let s ← get
  let launch := s.ctx.ident.launch.toNat
  let (core, parked) := s.resolve launch lid
  if parked then do
    Act.waitIf (32 ≤ (s.net.held.filter (fun h => h.pkt.src == s.pid)).length) .room
    Act.upd (fun s => s.modNet (fun n => { n with held := n.held ++ [⟨launch, lid, s.packet core b (some (launch, lid))⟩] }))
  else Act.upd (fun s => s.modNet (fun n => { n with pkts := n.pkts ++ [s.packet core b (some (launch, lid))] }))

/-- Posts a request to the lead die, the routers or another core. -/
def Act.ask (a : Ask) : Act Unit :=
  Act.upd (fun s => s.modNet (fun n => { n with asks := n.asks ++ [⟨s.pid, s.cx, s.ctx.act, a⟩] }))

/-! ## Messages (09 R228 to R237) -/

/-- The checks of R229 on a descriptor, payload and landing address; `cast` those of R233. -/
def Act.checkMessage (x y z : Word) (cast : Bool) : Act Unit := do
  let bad := illegal x
  let land := flag x 32
  let len := fld x 11 0
  Act.check (fld x 18 16 != 0 || fld x 15 12 == 3 || 6 ≤ fld x 15 12) bad
  if cast then Act.check (fld x 47 40 != 0 || fld x 39 34 != 0 || flag x 33) bad
  else Act.check ((← get).lidBad (fld x 31 20)) bad
  Act.check (!land && (fld x 15 12 != 0 || flag x 19 || len % 8 != 0 || 64 < len)) bad
  Act.check (land && (len % 64 != 0 || len < 64 || 4032 < len)) bad
  Act.check (y.toNat % (if land then 64 else 8) != 0) (alignFault y)
  Act.check (Config.spadBytes < y.toNat + len) bad
  Act.check (land && z.toNat % 64 != 0) (alignFault z)

/-- The message that a SEND or MCAST puts into the network. -/
def State.message (s : State) (here x z : Word) (data : List Byte) (cast : Bool) : Msg :=
  let land := flag x 32
  { src := s.pid, scx := s.cx, sact := s.ctx.act, saddr := here, desc := x, chan := fld x 39 34, gen := fld x 47 40
    lid := if cast then none else some (fld x 31 20), launch := s.ctx.ident.launch.toNat
    land := if land then some (fld x 15 12, z.toNat, data) else none
    payload := if land then [] else bytesWords 8 data
    sib := s.sibOf s.ctx, cast := cast }

def execSend (sp : Bool) (a b c : Reg) (s : State) : Out :=
  issue s sp 4 (do
    let x ← Act.rdG a
    let y ← Act.rdG b
    let z ← Act.rdG c
    Act.checkMessage x y z false
    let data ← Act.readSpad s.here y.toNat (fld x 11 0)
    Act.send (fld x 31 20) (.msg ((← get).message s.here x z data false)))

/-- The cores of a die whose bit is set in the routers for a tag (09 R233). -/
def State.subscribers (s : State) (die tag : Nat) : List Nat :=
  ((s.dieAt die).routers.filter (fun e => e.1 == tag)).map (fun e => e.2)

def execMcast (sp : Bool) (a b c : Reg) (s : State) : Out :=
  issue s sp 4 (do
    let x ← Act.rdG a
    let y ← Act.rdG b
    let z ← Act.rdG c
    Act.checkMessage x y z true
    let data ← Act.readSpad s.here y.toNat (fld x 11 0)
    let t ← get
    let m := t.message s.here x z data true
    let copies := (t.subscribers (dieOf t.pid) (fld x 31 20)).map (fun k => t.packet k (.msg m) none)
    Act.upd (fun t => t.modNet (fun n => { n with pkts := n.pkts ++ copies })))

def execSendr (sp : Bool) (a b : Reg) (s : State) : Out :=
  issue s sp 4 (do
    let x ← Act.rdG a
    let y ← Act.rdG b
    Act.check (fld x 63 32 != 0 || fld x 19 5 != 0 || (← get).lidBad (fld x 31 20)) (illegal x)
    Act.send (fld x 31 20) (.mailbox (fld x 4 0) y))

/-- The MCAST copies that are on their way to a core under a tag keep the entry that the core has for it now (09 R233). -/
def State.bindCopies (s : State) (pid tag : Nat) : State :=
  match (s.coreAt pid).subs.find? (fun e => e.tag == tag) with
  | none => s
  | some e => s.modNet (fun n => { n with pkts := n.pkts.map (fun p => match p.body with
      | .msg m => if p.dst = pid ∧ m.cast = true ∧ fld m.desc 31 20 = tag then { p with body := .msg { m with chan := e.chan, gen := e.gen, cast := false } }
        else p
      | _ => p) })

/-- SUBTAG (09 R232): the match table at once, then the join or leave packet, whose acknowledgement the context waits for. -/
def execSubtag (sp : Bool) (a b : Reg) (s : State) : Out :=
  issue s sp 4 (do
    Act.needSup
    let x ← Act.rdG a
    let y ← Act.rdG b
    Act.check (fld x 63 12 != 0) (illegal x)
    Act.check (fld y 63 9 != 0 || fld y 7 6 != 0) (illegal y)
    let k ← Act.core
    let tag := x.toNat
    let ch := fld y 5 0
    let rest := k.subs.filter (fun e => e.tag != tag)
    Act.check (flag y 8 && 16 ≤ rest.length) (illegal x)
    Act.upd (fun t => t.bindCopies t.pid tag)
    Act.updCore (fun k => { k with subs := if flag y 8 then rest ++ [⟨tag, ch, (k.slot ch).gen⟩] else rest })
    Act.ask (.subTag (flag y 8) tag)
    Act.await s.here sp .reply)

def execHmask (sp : Bool) (s : State) : Out :=
  issue s sp 4 (do
    Act.check (← Act.inSH) (illegal 0)
    Act.upd (fun t => t.modCtx (fun c => { c with hmask := if c.masked t.time then c.hmask else some (t.time + 256 * Config.coreTicks t.pid) })))

def execHunmask (sp : Bool) (s : State) : Out :=
  issue s sp 4 (do
    Act.check (← Act.inSH) (illegal 0)
    Act.updCtx (fun c => { c with hmask := none }))

/-- The slot after an HCFG (08 R197). -/
def HSlot.configure (h : HSlot) (rpc c : Word) (launch : Nat) : HSlot :=
  let privl := flag c 3
  let prio := flag c 1
  let valid := flag c 0
  let moves := h.rpc != rpc || h.prio != prio || h.privl != privl || (h.valid && !valid)
  { rpc := rpc, gen := if moves then (h.gen + 1) % 256 else h.gen, lnch := launch, qb := fld c 11 8, privl := privl, msk := flag c 2
    prio := prio, valid := valid }

def execHcfg (sp : Bool) (d a b c : Reg) (s : State) : Out :=
  issue s sp 4 (do
    let x ← Act.rdG a
    let y ← Act.rdG b
    let z ← Act.rdG c
    Act.check (fld x 63 6 != 0) (illegal x)
    Act.check (flag y 0) (illegal y)
    Act.check (fld z 55 48 != 0 || fld z 15 12 != 0 || fld z 7 4 != 0 || (1 ≤ fld z 11 8 && fld z 11 8 ≤ 11)) (illegal z)
    Act.check (flag z 3 && !(← Act.sup)) privFault
    let launch := fld (← Act.ctx).ident.launch 31 0
    let h := ((← Act.core).slot x.toNat).configure y z launch
    Act.updCore (fun k => k.setSlot x.toNat h)
    Act.wrG d (W h.gen))

/-! ## Tasks (08 R214 to R220, 09 R238 to R243) -/

/-- A full deque: 64 entries in hardware and DQSP of the launch in the spill area (08 R216). -/
def State.dequeFull (s : State) (pid : Nat) (l : Launch) : Bool := 64 + l.dqsp ≤ (s.coreAt pid).deque.length

/-- The core on which a deterministic launch places a path: its logical id (08 R220). -/
def Launch.placed (l : Launch) (path : Nat) : Nat :=
  let h := bitsOf (path * 0x9E3779B97F4A7C15 % 2 ^ 64) 63 48 % l.size
  ((List.range l.size).map (fun i => (h + i) % l.size)).find? (fun i => l.starts i) |>.getD h

/-- The queue fields that a FORK arm inherits (09 R241). -/
def Ctx.queueOf (c : Ctx) (l : Option Launch) : Nat × Nat :=
  match c.started with
  | .task _ _ q k _ => (q, k)
  | _ => ((l.map (fun x => x.prio)).getD 0, 0)

/-- The task id that a die gives next (08 R214). -/
def State.taskId (s : State) (die : Nat) (det : Bool) (path : Nat) : Nat :=
  if det then path else die * 2 ^ 40 + (s.dieAt die).nextTask

def State.nextTaskId (s : State) (die : Nat) (det : Bool) : State :=
  if det then s else s.modDieAt die (fun d => { d with nextTask := d.nextTask + 1 })

def Ctx.byMessage (c : Ctx) : Bool := match c.started with
  | .message _ => true
  | _ => false

/-- The checks of SPAWN that concern its path (08 R220, 09 R238). R220 gives EFFARG = p, the issuing activation's path: DEDUCED
(log 23). -/
def Act.spawnPath (det : Bool) : Act Nat := do
  let c ← Act.ctx
  let i := c.spawns + 1
  let path := 256 * c.path + i
  Act.check (det && c.byMessage) (illegal 0)
  Act.check (det && (255 < i || 2 ^ 48 ≤ path)) (illegal (W c.path))
  return path % 2 ^ 48

/-- Where a SPAWN's record goes: a pending slot, a deque, or the Paddock (08 R214, R215, R220). -/
def Act.placeTask (l : Launch) (t : Task) (lid : Nat) : Act Word := do
  let s ← get
  let core := l.coreOf lid
  let die := dieOf core
  Act.waitIf (l.parked lid) .room
  if t.deps && t.cnt != 0 then
    match (List.range 256).find? (fun k => (Tab.get ⟨0, none⟩ (s.coreAt core).ptasks k : PSlot).task.isNone) with
    | none => Act.wait .room
    | some k => do
      let gen := ((Tab.get ⟨0, none⟩ (s.coreAt core).ptasks k : PSlot).gen + 1) % 2 ^ 16
      Act.upd (fun s => s.setPending core k ⟨gen, some t⟩)
      return W (lid * 2 ^ 32 + gen * 2 ^ 16 + k)
  else do
    let id := s.taskId die l.det t.path
    let u := { t with id := id, since := s.time }
    if t.deps || l.det then do
      Act.waitIf (s.dequeFull core l) .room
      Act.upd (fun s => (s.nextTaskId die l.det).setDeque core (u :: (s.coreAt core).deque))
    else do
      let p := (s.dieAt die).paddock
      Act.waitIf (65536 ≤ p.foldl (fun n e => n + e.2.length) 0) .room
      Act.upd (fun s => (s.nextTaskId die false).modDieAt die (fun d => { d with paddock := Tab.set d.paddock t.qpri (Tab.get [] d.paddock t.qpri ++ [u]) }))
    return W id

/-- The launch of the executing context; an activation always has one that runs (08 R211). -/
def Act.launch : Act Launch := fun s =>
  match s.launchOf s.pid s.cx with
  | some l => .ok (l, s)
  | none => .ok (blank s.ctx.ident.launch.toNat, s)
where
  blank (id : Nat) : Launch := ⟨id, 0, [], ⟨none, 0, false, 0⟩, 2, [], [], [], 0, 0, 0, 0, 0, 0⟩

def execSpawn (sp : Bool) (d a : Reg) (s : State) : Out :=
  issue s sp 4 (do
    let x ← Act.rdG a
    Act.interlock (.g d)
    let bad := illegal x
    Act.check (x.toNat % 64 != 0 || Config.spadBytes < x.toNat + 64) bad
    let w := bytesWords 8 (← Act.readSpad s.here x.toNat 64)
    let l ← Act.launch
    let t := Task.ofWords w l.id 0 s.time
    Act.check (taskBad w || (← get).lidBad t.home) bad
    let path ← Act.spawnPath l.det
    Act.check (t.join.toNat % 8 != 0) (alignFault t.join)
    Act.check (l.det && t.splitk && 8 ≤ t.fmt) { eff := Eff.detrefuse, arg := x }
    Act.drain
    let lid := if l.det then l.placed path else t.home
    let v ← Act.placeTask l { t with path := path, cls := if l.det then 0 else t.cls } lid
    Act.updCtx (fun c => { c with spawns := c.spawns + 1 })
    Act.wrG d v)

/-- An increment of a join counter at its home, as part of a FORK (09 R241). -/
def Act.increment (here j : Word) : Act Unit := do
  Act.gate
  let (h, ea) ← Act.place .rmw false j 8 true true
  Act.reach h 8
  Act.check ((← get).homeDown h || (← get).homeBad h 8) (memErr here ea)
  Act.drain
  Act.waitIf (!(← get).canPut h 8 .other) .drain
  Act.upd (fun s => s.writeOwn h (bytesOf 8 (natOf (s.homeBytes h 8) + 1)))

def execFork (sp : Bool) (d a b c : Reg) (s : State) : Out :=
  issue s sp 4 (do
    let j ← Act.rdG d
    let pc ← Act.rdG a
    let x ← Act.rdG b
    let y ← Act.rdG c
    Act.check (flag pc 0) (illegal pc)
    Act.check (j.toNat % 8 != 0) (alignFault j)
    let l ← Act.launch
    let cx ← Act.ctx
    let path := 2 * cx.path + 1
    let core := if l.det then l.coreOf (l.placed path) else s.pid
    if (← get).dequeFull core l || (l.det && (2 ^ 48 ≤ path || cx.byMessage)) then Act.wrG d 0
    else do
      Act.waitIf (l.det && l.parked (l.placed path)) .room
      if j = 0 then Act.drain else Act.increment s.here j
      let (q, k) := cx.queueOf (some l)
      let die := dieOf core
      let t ← get
      let arm : Task := { pc := pc, arg0 := x, arg1 := y, join := j, path := path % 2 ^ 48, home := 0, deps := false, fmt := 0
                          splitk := false, cls := k, qpri := q, cnt := 0, launch := l.id
                          id := t.taskId die l.det (path % 2 ^ 48), since := t.time, headAt := none }
      Act.upd (fun t => (t.nextTaskId die l.det).setDeque core (arm :: (t.coreAt core).deque))
      Act.updCtx (fun c => { c with path := 2 * c.path % 2 ^ 48
                                    ident := if l.det then { c.ident with task := W (2 * c.path) } else c.ident })
      Act.wrG d 1)

/-- JOINW (09 R242). -/
def execJoinw (sp : Bool) (a : Reg) (s : State) : Out :=
  issue s sp 4 (do
    Act.check (← Act.inSH) (illegal 0)
    let ea ← Act.rdG a
    let (v, bad, line) ← Act.watchRead ea
    Act.check bad (memErr s.here ea)
    if v = 0 then Act.giveWay else Act.park (.watch line))

/-- CNTINIT (09 R240): a swap at the home whose old value is discarded. -/
def execCntinit (sp : Bool) (a b : Reg) (s : State) : Out :=
  issue s sp 4 (do
    let ea ← Act.rdG a
    let y ← Act.rdG b
    Act.gate
    let (h, x) ← Act.place .rmw false ea 8 true true
    Act.check ((← get).homeDown h || (← get).homeBad h 8) (memErr s.here x)
    Act.rmw h 8 (.store (bytesOf 8 y.toNat)) true false s.here x)

def execCntdec (sp : Bool) (a : Reg) (s : State) : Out :=
  issue s sp 4 (do
    let x ← Act.rdG a
    Act.check (fld x 63 44 != 0 || fld x 15 8 != 0 || (← get).lidBad (fld x 43 32)) (illegal x)
    Act.send (fld x 43 32) (.dec (fld x 7 0) (fld x 31 16)))

/-- n words of a record read through mem() at issue (09 R243). -/
def Act.readMem (here : Word) : Nat → Word → Act (List Word)
  | 0, _ => return []
  | n + 1, ea => do
    let (h, x) ← Act.place .read false ea 8 true true
    let (v, bad) ← Act.readNow h 8 x false
    Act.check bad (memErr here x)
    let rest ← Act.readMem here n (ea + 8)
    return W v :: rest

/-- Whether a die's device launch queue is full (09 R243). -/
def State.launchQueueFull (s : State) (die : Nat) : Bool :=
  16 ≤ (s.launches.filter (fun l => l.phase == 0 && l.src.queue.isNone && l.src.die == die)).length

/-- A launch as it is submitted (08 R208). -/
def State.submit (s : State) (addr : Word) (words : List Word) (src : LSource) : State :=
  let l : Launch := { id := s.nextLaunch, addr := addr, words := words, src := src, phase := 0, map := [], todo := [], begun := []
                      nfail := 0, eff := 0, argw := 0, addrw := 0, flid := 0, live := 0 }
  { s with launches := s.launches ++ [l], nextLaunch := s.nextLaunch + 1 }

def execLaunch (sp : Bool) (d a : Reg) (s : State) : Out :=
  issue s sp 4 (do
    let x ← Act.rdG a
    Act.interlock (.g d)
    Act.check (x.toNat % 64 != 0) (alignFault x)
    Act.gate
    Act.drain
    let w ← Act.readMem s.here 16 x
    let t ← get
    Act.waitIf (t.launchQueueFull (dieOf t.pid)) .room
    Act.upd (fun t => t.submit x w ⟨none, dieOf t.pid, !t.ctx.stat.sup, t.ctx.space.ptroot⟩)
    Act.wrG d (W t.nextLaunch))

/-! ## Groups and barriers (09 R244 to R250) -/

/-- The checked handle of a barrier: LID and slot (09 R244). -/
def Act.handle (a : Reg) : Act (Nat × Nat) := do
  let x ← Act.rdG a
  Act.check (fld x 63 44 != 0 || fld x 31 5 != 0 || (← get).lidBad (fld x 43 32)) (illegal x)
  return (fld x 43 32, fld x 4 0)

def execGjoin (sp : Bool) (d a : Reg) (s : State) : Out :=
  issue s sp 4 (do
    let (lid, slot) ← Act.handle a
    Act.interlock (.g d)
    Act.send lid (.bar slot (.join d))
    Act.await s.here sp .reply)

def execGleave (sp : Bool) (a : Reg) (s : State) : Out :=
  issue s sp 4 (do
    let (lid, slot) ← Act.handle a
    Act.send lid (.bar slot .leave)
    let t ← get
    let home := (t.resolve t.ctx.ident.launch.toNat lid).1
    Act.updCtx (fun c => { c with groups := c.groups.erase (home, slot) }))

def execBari (sp : Bool) (a b : Reg) (s : State) : Out :=
  issue s sp 4 (do
    let (lid, slot) ← Act.handle a
    let y ← Act.rdG b
    Act.check (fld y 63 16 != 0) (illegal y)
    Act.send lid (.bar slot (.init y.toNat)))

def execBara (sp : Bool) (a : Reg) (s : State) : Out :=
  issue s sp 4 (do
    let (lid, slot) ← Act.handle a
    Act.send lid (.bar slot .arrive))

/-- BARW and BARAW (09 R248): one update, then the wait. -/
def barrierWait (sp : Bool) (a b : Reg) (arrives : Bool) (s : State) : Out :=
  issue s sp 4 (do
    Act.check (← Act.inSH) (illegal 0)
    let (lid, slot) ← Act.handle a
    let y ← Act.rdG b
    let again := (← Act.ctx).asBarw
    Act.updCtx (fun c => { c with asBarw := false })
    Act.send lid (.bar slot (.wait (flag y 0) (arrives && !again)))
    Act.await s.here true .barrier)

def execBarw (sp : Bool) (a b : Reg) (s : State) : Out := barrierWait sp a b false s
def execBaraw (sp : Bool) (a b : Reg) (s : State) : Out := barrierWait sp a b true s

end Sys2Proof.Machine
end

