-- ==== Sys2Proof/Machine/Network.lean ====
section
/-! DEFINITION. Arrivals on VN0: which packet may reach its target, the replies that contexts wait for, and the updates of
barrier slots with the release of their waiters (08 R221, R222; 09 R244 to R249). -/

namespace Sys2Proof.Machine

/-- A rotation block travels on VN1, apart from the other packets (16 R370). -/
def Pkt.onVn1 (p : Pkt) : Bool := match p.body with
  | .fwd _ _ _ => true
  | _ => false

/-- The packet at a place of the network, taken out, if it may reach its target now: packets of one context to one core keep
their order, the sender's earlier accesses have been performed (09 R230), no other packet waits at the core (08 R198), and the core's
mailbox store has room (09 R234). -/
def State.arriving (s : State) (i : Nat) : Option (Pkt × State) :=
  match takeAt s.net.pkts i with
  | none => none
  | some (p, rest) =>
    if (s.net.pkts.take i).any (fun q => q.src == p.src && q.scx == p.scx && q.dst == p.dst)
        || s.inFlight p.sact p.after
        || (!p.onVn1 && (rest.any (fun q => q.waits && q.dst == p.dst) || decide (8 ≤ (s.coreAt p.dst).mbStore.length))) then none
    else some (p, s.modNet (fun n => { n with pkts := rest }))

/-- The packet at place i has reached its core and waits there for room (08 R198, 09 R234). -/
def State.holdArrival (s : State) (i : Nat) : State :=
  s.modNet (fun n => { n with pkts := updAt (fun p => { p with waits := true }) n.pkts i })

/-- An engine of a core as the source of its packets: they keep no order with those of the contexts. -/
def engineCx : Nat := 9
/-- The matrix unit as a source: its forwards travel on VN1 (16 R370). -/
def matrixCx : Nat := 10

/-- A packet of an engine to a logical id: held while the id is parked (21 R413). -/
def State.engineSend (s : State) (src act launch lid : Nat) (b : Body) : State :=
  let (core, parked) := s.resolve launch lid
  let p : Pkt := ⟨0, src, engineCx, act, core, b, false, some (launch, lid)⟩
  if parked then s.modNet (fun n => { n with held := n.held ++ [⟨launch, lid, p⟩] })
  else s.modNet (fun n => { n with pkts := n.pkts ++ [p] })

/-- Whether a context waits for an answer. -/
def Ctx.awaits (c : Ctx) (act : Nat) : Bool :=
  c.act == act && (match c.run with
    | .parked .reply => true
    | .stalled .reply => true
    | _ => false)

/-- The answer that a context waits for comes: its instruction completes (01 R13). -/
def State.answer (s : State) (pid cx act : Nat) (f : Ctx → Ctx) : State :=
  if (s.ctxAt pid cx).awaits act then s.modCtxAt pid cx (fun c => { f c with pc := c.pc + 4, run := .runnable }) else s

/-- One dead letter more at a core (08 R198). -/
def Core.dead (k : Core) : Core := { k with dlcnt := k.dlcnt + 1 }

/-! ## Barrier slots -/

/-- A waiter's instruction completes: the context goes on after it, in place or in its spill image (09 R248, 08 R225). -/
def State.releaseWaiter (s : State) (w : Waiter) : State :=
  match s.ownerOf w.act with
  | .ctx p c => s.modCtxAt p c (fun x => { x with pc := x.pc + 4, run := .runnable })
  | .image h => (s.wrW (h + 0x108) (s.rdW (h + 0x108) + 4)).modSaved h (fun x => { x with run := .runnable })
  | .gone => s

/-- The effect of a failed bound copy at a waiter's instruction (09 R249): lane ITEM (21 Table 21.1). -/
def barFailure (m : Nat × Nat × Nat × Bool) : Raise :=
  { eff := if m.2.2.2 then Eff.copyfault else Eff.copyfail, arg := W m.2.1, addr := W m.1, lanes := W (2 ^ m.2.2.1) }

/-- A waiter performs COPYFAIL or COPYFAULT; a BARAW resumes as BARW (09 R249). -/
def State.failWaiter (s : State) (w : Waiter) (r : Raise) : State :=
  match s.ownerOf w.act with
  | .ctx p c =>
    if (s.ctxAt p c).regs.allPresent && !s.deliveryHeld p c r then (s.modCtxAt p c (fun x => { x with run := .runnable, asBarw := true })).fault p c r
    else s.modCtxAt p c (fun x => { x with run := .runnable, asBarw := true, pend := x.pend ++ [⟨r.eff, r⟩] })
  | .image h => s.modSaved h (fun x => { x with run := .runnable, asBarw := true, pend := x.pend ++ [⟨r.eff, r⟩] })
  | .gone => s

/-- A phase completes when all members have arrived and no byte is pending (08 R222). -/
def State.settleBar (s : State) (core slot : Nat) : State :=
  let b := (s.coreAt core).bar slot
  if 0 < b.memb ∧ b.memb ≤ b.arrv ∧ b.pend = 0 then
    let gone := b.waiters.filter (fun w => w.parity == b.ph)
    let rest := b.waiters.filter (fun w => w.parity != b.ph)
    gone.foldl State.releaseWaiter
      (s.modCoreAt core (fun k => k.setBar slot { b with arrv := 0, ph := !b.ph, waiters := rest }))
  else s

/-- An arrival; one past 65,535 is a dead letter (09 R247). -/
def State.arriveBar (s : State) (core slot : Nat) : State :=
  let b := (s.coreAt core).bar slot
  if 65535 ≤ b.arrv then s.modCoreAt core Core.dead
  else (s.modCoreAt core (fun k => k.setBar slot { b with arrv := b.arrv + 1 })).settleBar core slot

/-- The registration of a waiter (09 R248, R249). -/
def State.registerBar (s : State) (core slot : Nat) (w : Waiter) : State :=
  let b := (s.coreAt core).bar slot
  match b.failed with
  | some m => s.failWaiter w (barFailure m)
  | none =>
    if b.ph != w.parity then s.releaseWaiter w
    else s.modCoreAt core (fun k => k.setBar slot { b with waiters := b.waiters ++ [w] })

/-- One update applied at its home (08 R222, 09 R245 to R249). -/
def State.applyBar (s : State) (core slot : Nat) (p : Pkt) (op : BarOp) : State :=
  let b := (s.coreAt core).bar slot
  let put := fun (c : Bar) => s.modCoreAt core (fun k => k.setBar slot c)
  match op with
  | .join d =>
    if 65535 ≤ b.memb then (s.modCoreAt core Core.dead).answer p.src p.scx p.sact (fun c => c.setG d (b2w b.ph))
    else
      let t := (put { b with memb := b.memb + 1 }).settleBar core slot
      t.answer p.src p.scx p.sact (fun c => { c.setG d (b2w ((t.coreAt core).bar slot).ph) with groups := c.groups ++ [(core, slot)] })
  | .leave => if b.memb = 0 then s.modCoreAt core Core.dead else (put { b with memb := b.memb - 1 }).settleBar core slot
  | .init n =>
    (b.waiters.filter (fun w => w.parity)).foldl State.releaseWaiter
      (put { pend := 0, memb := n, arrv := 0, ph := false, waiters := b.waiters.filter (fun w => !w.parity), failed := none })
  | .arrive => s.arriveBar core slot
  | .wait parity arrives =>
    (if arrives then s.arriveBar core slot else s).registerBar core slot ⟨p.src, p.scx, p.sact, parity⟩
  | .credit n => (put { b with pend := (b.pend + n) % 2 ^ 56 }).settleBar core slot
  | .debit n => (put { b with pend := (b.pend + 2 ^ 56 - n % 2 ^ 56) % 2 ^ 56 }).settleBar core slot
  | .mark a n item f =>
    let m := b.failed.getD (a, n, item, f)
    b.waiters.foldl (fun s w => s.failWaiter w (barFailure m)) (put { b with failed := some m, waiters := [] })

/-- BARRIER_UPDATE: the update in packet i reaches its home (08 R222). -/
def execBarrierUpdate (i : Nat) (s : State) : Out :=
  .next (match s.arriving i with
    | some (p, t) => (match p.body with
      | .bar slot op => t.applyBar p.dst slot p op
      | _ => s)
    | none => s)

end Sys2Proof.Machine
end

