-- ==== Sys2Proof/Machine/RankStream.lean ====
section
/-! DEFINITION. The receive streams of the rank unit (17 R383, R385, R387 to R389, R392): arrivals of flits, processing,
results, and the overflow buffer of a held stream. -/

namespace Sys2Proof.Machine

/-! ## Arrivals -/

/-- Present entries of a flit (17 R378). -/
def present (e : Nat) : Bool := bitsOf e 14 12 == 0

/-- The header word of a stream (17 Table 17.4). -/
def headerWord (src : Nat) (sgnm : Bool) (pslot strm n : Nat) : Word :=
  W (src % 2 ^ 16 * 2 ^ 32 + b2n sgnm * 2 ^ 28 + pslot % 16 * 2 ^ 24 + strm % 4 * 2 ^ 22 + n % 2 ^ 13)

/-- A message that the stream discards as a whole: DISC grows by its N, and its entry flits are ignored (17 R387). -/
def Strm.refuse (t : Strm) (n mid : Nat) : Strm :=
  { t with disc := t.disc + n, drops := if n = 0 then t.drops else mid :: t.drops }

/-- A flit taken by an ARMED stream (17 R387). Entries whose header came before the last arm are discarded: DESIGN CHOICE
(log 26). -/
def Strm.take (t : Strm) (f : RankFlit) : Strm :=
  match f with
  | .head _ p n mid =>
    if t.np ≤ p ∨ t.seen.any (fun e => e.1 == p) then t.refuse n mid
    else { t with seen := t.seen ++ [(p, n)], froms := (mid, p) :: t.froms }
  | .body p mid last es =>
    if t.froms.any (fun e => e.1 == mid) then { t with queue := t.queue ++ es.map (fun e => (p, e)) }
    else if t.drops.contains mid then { t with drops := if last then t.drops.filter (fun m => m != mid) else t.drops }
    else { t with disc := t.disc + es.length }

/-- A flit that reaches a DONE stream is discarded (17 R385). -/
def Strm.spill (t : Strm) (f : RankFlit) : Strm :=
  match f with
  | .head _ _ _ _ => t
  | .body _ mid last es =>
    if t.drops.contains mid then { t with drops := if last then t.drops.filter (fun m => m != mid) else t.drops }
    else { t with disc := t.disc + es.length }

/-- Whether the slot of a header has been seen, its header lying in the overflow buffer or taken before (17 R387, R392). -/
def Strm.seenSlot (t : Strm) (p : Nat) : Bool :=
  t.seen.any (fun e => e.1 == p) || t.held.any (fun e => e.1 == p && e.2.1 == 0)

/-- The place of the next entry flit of a message in its area. -/
def Strm.nextPlace (t : Strm) (p : Nat) : Nat :=
  let done := (Tab.get 0 t.did p + (t.queue.filter (fun e => e.1 == p)).length + 31) / 32
  64 + 64 * (done + (t.held.filter (fun e => e.1 == p && e.2.1 != 0)).length)

/-- A flit that reaches a HELD stream: into the overflow buffer, or dropped without one (17 R392). -/
def State.holdFlit (s : State) (pid n src : Nat) (f : RankFlit) : State :=
  let t := s.stream pid n
  let put := fun (p off mid cnt : Nat) (bs : List Byte) =>
    (s.wr (spadKey pid (t.ovb + 8256 * p + off)) bs).setStream pid n
      { t with held := t.held ++ [(p, off, mid)], heldEntries := t.heldEntries + cnt }
  match f with
  | .head sg p n' mid =>
    if t.np ≤ p || t.seenSlot p then s.setStream pid n (t.refuse n' mid)
    else if t.ovb = 0 then s.setStream pid n { t with ovl := true }
    else put p 0 mid 0 (bytesOf 8 (headerWord src sg p n n').toNat ++ List.replicate 56 0)
  | .body p mid last es =>
    if t.drops.contains mid then s.setStream pid n { t with drops := if last then t.drops.filter (fun m => m != mid) else t.drops }
    else if !(t.froms.any (fun e => e.1 == mid) || t.held.any (fun e => e.2.2 == mid)) then
      s.setStream pid n { t with disc := t.disc + es.length }
    else if t.ovb = 0 then s.setStream pid n { t with disc := t.disc + es.length, ovl := true }
    else put p (t.nextPlace p) mid es.length ((padTo 32 0xFFFF es).flatMap (fun e => bytesOf 2 e))

/-- A flit reaches stream n of a core (17 R385, R387, R392). -/
def State.rankArrive (s : State) (pid n src : Nat) (f : RankFlit) : State :=
  let t := s.stream pid n
  let mid := match f with
    | .head _ _ _ m => m
    | .body _ m _ _ => m
  if t.state = 1 then s.setStream pid n (t.take f)
  else if t.state = 2 then s.setStream pid n (t.spill f)
  else if t.state = 3 then s.holdFlit pid n src f
  else if t.drops.contains mid then s.setStream pid n (t.spill f)
  else (s.setStream pid n { t with drops := mid :: t.drops }).modCoreAt pid (fun k => { k with dlcnt := k.dlcnt + 1 })

/-- The flit that lies in the overflow buffer (17 R392). -/
def State.heldFlit (s : State) (pid : Nat) (t : Strm) (e : Nat × Nat × Nat) : RankFlit :=
  let k := spadKey pid (t.ovb + 8256 * e.1 + e.2.1)
  if e.2.1 = 0 then
    let h := s.rdW k
    .head (flag h 28) (fld h 27 24) (fld h 12 0) e.2.2
  else
    let es := (List.range 32).map (fun i => s.rdN (k + 2 * i) 2)
    .body e.1 e.2.2 false (es.filter present)

/-- A held stream goes on: its buffered flits come before any later arrival (17 R392). -/
def State.unhold (s : State) (pid n : Nat) : State :=
  let t := s.stream pid n
  let flits := t.held.map (s.heldFlit pid t)
  let u := { t with state := t.saved, held := [], heldEntries := 0 }
  s.setStream pid n (flits.foldl (fun t f => if t.state = 1 then t.take f else t.spill f) u)

/-! ## Processing -/

def State.rankUnit (s : State) (pid : Nat) : RUnit := (s.coreAt pid).unit.rank
def State.modRank (s : State) (pid : Nat) (f : RUnit → RUnit) : State :=
  s.modCoreAt pid (fun k => { k with unit := { k.unit with rank := f k.unit.rank } })

/-- The weight of a rank index (17 R383). -/
def Seqn.weight (q : Seqn) (g : Nat) : Nat := if g < q.q.length then q.q.getD g 0 else if q.cut then 0 else q.q.getLastD 0

def RUnit.seqOf (u : RUnit) (n : Nat) : Seqn := Tab.get ⟨false, []⟩ u.seqs n

/-- W(j, c): an INT8 code, or the D of a DP8 code; 0 outside the tile (17 R386). -/
def State.rankWeight (s : State) (pid : Nat) (t : Tile) (j c : Nat) : Int :=
  match t.addr j c with
  | some a => if t.fmt = 7 then dp8 (s.sp pid a 1) else toSigned 8 (s.sp pid a 1)
  | none => 0

/-- Entry i of a permutation tile, element c of a dense tile (17 R378). -/
def State.chan (s : State) (pid : Nat) (t : Tile) (c : Nat) : Nat := s.elem pid t (c / t.cols) (c % t.cols)
def State.setChan (s : State) (pid : Nat) (t : Tile) (c v : Nat) : State := s.setElem pid t (c / t.cols) (c % t.cols) v

namespace Strm

/-- Whether entries wait for their round (17 R387). -/
def rounds (t : Strm) : Bool := !t.free || (t.det && t.stop != 0)
def nOf (t : Strm) (p : Nat) : Nat := ((t.seen.find? (fun e => e.1 == p)).map (fun e => e.2)).getD 0
def allSeen (t : Strm) : Bool := t.np ≤ t.seen.length
/-- Announced entries, those processed, and whether every announced one is. -/
def announced (t : Strm) : Nat := t.seen.foldl (fun n e => n + e.2) 0
def doneCount (t : Strm) : Nat := t.did.foldl (fun n e => n + e.2) 0
def complete (t : Strm) : Bool := t.allSeen && t.seen.all (fun e => e.2 ≤ Tab.get 0 t.did e.1)
/-- The rank index of entry k of a slot. -/
def index (t : Strm) (p k : Nat) : Nat := if t.free then k else k * t.np + p

end Strm

/-- One entry processed into the sums, and recorded (17 R387). -/
def State.applyEntry (s : State) (pid n p e : Nat) : State :=
  let t := s.stream pid n
  let k := Tab.get 0 t.did p
  let g := t.index p k
  let q : Int := ((s.rankUnit pid).seqOf t.seq).weight g
  let sign : Int := if bitOf e 15 then -1 else 1
  let sums := ((List.range t.sums.length).zip t.sums).map (fun x => x.2 + sign * s.rankWeight pid t.tw x.1 (bitsOf e 11 0) * q)
  let u := s.setStream pid n { t with sums := sums, did := Tab.set t.did p (k + 1) }
  match t.rect with
  | some r => u.setChan pid r g e
  | none => u

/-- The first entry of a slot that waits, taken out of the queue. -/
def takeSlot (p : Nat) : List (Nat × Nat) → Option (Nat × List (Nat × Nat))
  | [] => none
  | e :: l => if e.1 = p then some (e.2, l) else (takeSlot p l).map (fun r => (r.1, e :: r.2))

/-- Round k is complete, and some slot has an entry in it (17 R387). -/
def Strm.roundReady (t : Strm) : Bool :=
  let has := fun p => t.queue.any (fun e => e.1 == p)
  t.allSeen && (List.range t.np).all (fun p => t.nOf p ≤ t.round || has p) && (List.range t.np).any (fun p => t.round < t.nOf p)

/-- One round processed by ascending slot; under REC the positions of slots that have ended are written 0xFFFF. -/
def State.runRound (s : State) (pid n : Nat) : State :=
  let t0 := s.stream pid n
  let k := t0.round
  let u := (List.range t0.np).foldl (fun s p =>
    let t := s.stream pid n
    if t.nOf p ≤ k then
      match t.rect with
      | some r => if t.free then s else s.setChan pid r (k * t.np + p) 0xFFFF
      | none => s
    else match takeSlot p t.queue with
      | some (e, rest) => (s.setStream pid n { t with queue := rest }).applyEntry pid n p e
      | none => s) s
  let t := u.stream pid n
  let live := ((List.range t.np).filter (fun p => decide (k < t.nOf p))).length
  u.setStream pid n { t with round := k + 1, pos := if t.free then t.pos + live else (k + 1) * t.np }

/-- The leader and the gap L − U (17 R388). -/
def leader (sums : List Int) : Nat × Int :=
  let best := (List.range sums.length).foldl (fun b j => if sums.getD b 0 < sums.getD j 0 then j else b) 0
  let l := sums.getD best 0
  let others := (List.range sums.length).filterMap (fun j => if j = best then none else some (sums.getD j 0))
  let u := match others with
    | [] => l
    | x :: xs => xs.foldl max x
  (best, l - u)

/-- R: the weights of every announced entry not yet processed (17 R388). -/
def Strm.rest (t : Strm) (q : Seqn) : Nat :=
  t.seen.foldl (fun r e =>
    let a := Tab.get 0 t.did e.1
    (List.range (e.2 - a)).foldl (fun r i => r + q.weight (t.index e.1 (a + i))) r) 0

/-- Word 0 and word 1 of a result (17 Table 17.8). -/
def Strm.word0 (t : Strm) (st : Nat) : Word :=
  let (l, gap) := leader t.sums
  W (l % 64 * 2 ^ 58 + st * 2 ^ 55 + wrapTo 48 gap)
def Strm.word1 (t : Strm) : Word := W (t.disc % 2 ^ 17 * 2 ^ 32 + b2n t.ovl * 2 ^ 31 + t.pos % 2 ^ 17)

/-- A result: the stream is DONE, what has arrived and is not processed is discarded, the words wait for their queue
(17 R389). -/
def Strm.finish (t : Strm) (st : Nat) : Strm :=
  { t with state := 2, disc := t.disc + t.queue.length, queue := [], results := t.results ++ [(t.word0 st, none)] }

/-- The decision after a step (17 R388). -/
def Strm.decide_ (t : Strm) (q : Seqn) : Strm :=
  let gap := (leader t.sums).2
  if t.complete then t.finish 2
  else if t.stop = 1 ∧ t.allSeen ∧ 2 * (t.wmax : Int) * t.rest q < gap then t.finish 0
  else if t.stop = 2 ∧ t.margin ≤ gap then t.finish 1
  else t

/-- Whether a weight that an entry's step reads lies above a watermark (10 R267, 17 R386). -/
def State.weightMarked (s : State) (pid : Nat) (t : Strm) (e : Nat) : Bool :=
  (List.range t.sums.length).any (fun j => match t.tw.addr j (bitsOf e 11 0) with
    | some a => s.marked pid a 1
    | none => false)

/-- The entries that the next step of a stream processes: a round's, or the oldest. -/
def Strm.nextEntries (t : Strm) : List Nat :=
  if t.rounds then
    if t.roundReady then (List.range t.np).filterMap (fun p => if t.nOf p ≤ t.round then none else (takeSlot p t.queue).map (fun r => r.1)) else []
  else (t.queue.take 1).map (fun e => e.2)

/-- One processing step of an ARMED stream, if there is one (17 R387). -/
def State.rankStep (s : State) (pid n : Nat) : State :=
  let t := s.stream pid n
  let decide := fun (u : State) => u.setStream pid n ((u.stream pid n).decide_ ((u.rankUnit pid).seqOf t.seq))
  if t.state ≠ 1 then s
  else if t.complete then s.setStream pid n (t.finish 2)
  else if t.nextEntries.any (s.weightMarked pid t) then s
  else if t.rounds then if t.roundReady then decide (s.runRound pid n) else s
  else match t.queue with
    | [] => s
    | e :: rest =>
      let u := (s.setStream pid n { t with queue := rest }).applyEntry pid n e.1 e.2
      decide (u.setStream pid n { u.stream pid n with pos := t.pos + 1 })

end Sys2Proof.Machine
end

