-- ==== Sys2Proof/Machine/Sys.lean ====
section
/-! DEFINITION. The SYS group (21 R405 to R416): saving and loading a context or a core, map changes, TLB invalidation, remote
registers and prefetch. -/

namespace Sys2Proof.Machine

/-! ## The range of an image (21 R410) -/

/-- The home of one byte of an image, or the status that its page gives. An address that R19 refuses fails translation:
DEDUCED (log 24). -/
def State.imageHome (s : State) (ea : Word) (acc : Acc) : Except Nat Home :=
  let c := s.ctx
  match s.locate s.pid c.space.ptroot c.stat.sup acc ea 1 false false with
  | .ok (.dev pa v r m, _) => .ok (.dev pa v r m)
  | .ok _ => .error 3
  | .error r => if r.eff = Eff.perm then .error 3 else .error 2

/-- The homes of `n` 64 KiB pages from ea, or the lowest status among them. -/
def State.imagePages (s : State) (acc : Acc) : Nat → Word → Except Nat (List Home)
  | 0, _ => .ok []
  | n + 1, ea =>
    match s.imageHome ea acc, s.imagePages acc n (ea + 0x10000) with
    | .ok h, .ok l => .ok (h :: l)
    | .error a, .error b => .error (min a b)
    | .error a, .ok _ => .error a
    | .ok _, .error b => .error b

/-- Statuses 1 to 3 of R410. -/
def State.imageRange (s : State) (ea : Word) (align pages : Nat) (acc : Acc) : Except Nat (List Home) :=
  if ea.toNat % align ≠ 0 then .error 1 else s.imagePages acc pages ea

/-- Writes a long run of bytes, one 64 KiB page at each home. -/
def State.putPages (s : State) : List Home → List Byte → State
  | h :: hs, bs => (s.put h (bs.take 0x10000) .other).putPages hs (bs.drop 0x10000)
  | [], _ => s

/-- Whether n bytes of each page of an image can be read now (10 R279, 25 R446). -/
def State.pagesHeld (s : State) (hs : List Home) (n : Nat) : Bool :=
  hs.any (fun h => s.keyHeld (h.readKey s.sys.lead s.pid) || s.repOpen h n)

/-- Reads n bytes from the pages of an image at an offset of one of its pages. -/
def State.imageRd (s : State) (hs : List Home) (off n : Nat) : List Byte :=
  match hs[off / 0x10000]? with
  | some h => s.rd (h.readKey s.sys.lead s.pid + off % 0x10000) n
  | none => []

def State.imageBad (s : State) (hs : List Home) (off n : Nat) : Bool :=
  match hs[off / 0x10000]? with
  | some h => s.bad (h.readKey s.sys.lead s.pid + off % 0x10000) n
  | none => false

/-- The control operand of CTXSAVE and CTXLOAD (21 R410): 0 a context, 1 the core. -/
def Act.imageOperands (a b d : Reg) : Act (Word × Bool) := do
  Act.needSup
  let x ← Act.rdG a
  let y ← Act.rdG b
  Act.check (fld y 63 1 != 0) (illegal y)
  Act.interlock (.g d)
  return (x, y == 1)

/-! ## A context (21 R406, R408) -/

/-- Whether the context may be saved: a low context whose system record is live (21 R406). -/
def Ctx.savable (c : Ctx) (cx : Nat) : Bool := cx != 4 && c.sysBusy && c.sysRec.state == 1

/-- The context freed by its save; what the image does not hold is kept beside it (21 R406 step 4). -/
def State.saveCtx (s : State) (home : Nat) (slot : Option Nat) : State :=
  let c := s.ctx
  let hid := { c with sysBusy := false, sysRec := { c.sysRec with state := 0 }, hmask := none, preemptAt := none
                      migp := none, reserve := none, migr := none, late := Tab.del c.late 1, origin := Tab.del c.origin 1,
                      asBarw := Tab.get false c.barw 1, barw := Tab.del c.barw 1 }
  let t := (s.holdStreams s.pid c.act).setCtx c.freed
  let image : Saved := ⟨home, s.pid, s.cx, slot, hid, s.stepNo⟩
  let u := { t with saved := (t.saved.filter (fun (v : Saved) => v.home != home)) ++ [image] }
  (u.modCore (fun k => { k with rq := setBit k.rq s.cx false, cur := u.nextRunnable s.pid s.cx }))

/-- CTXSAVE with Gb = 0, once the operands are read. -/
def Act.saveContext (d : Reg) (x : Word) : Act Unit := do
  let s ← get
  match s.imageRange x 4096 1 .write with
  | .error e => Act.wrG d (W e)
  | .ok hs =>
    if !s.ctx.savable s.cx then Act.wrG d 4
    else do
      Act.waitIf (!s.ctx.regs.allPresent) .presence
      Act.waitIf (hs.any (fun h => s.keyHeld (h.writeKey s.sys.lead))) .drain
      let c := s.ctx
      let flags := c.sysRec.flags ||| Tab.get 0 c.late 1
      let img := c.image s.pid s.cx s.time c.sysRec flags (s.outstanding c.act)
      let h := hs.headD (.dev 0 false false 0)
      Act.waitIf (!s.canPut h 4096 .other) .drain
      Act.stop ((s.put h img .other).saveCtx h.key none)

/-- The words of a context image that have reserved bits, with those bits (21 Table 21.3, 01 Table 1.3, 06 Tables 6.3 and 6.4). -/
def imageReserved : List (Nat × Word) :=
  [(0, 0x000000F80000FFFE), (1, 0xFFFFF800), (2, ~~~ 0x7F), (4, 0xFFFFFFE00000FFF0), (5, 0xFFE00000FFFF0000), (22, ~~~ 0x7F),
   (23, ~~~ 0xFFFFFFFF0F7F), (26, 0xFFFFFE00FF007FF2), (30, 0xFFFF000000000000), (32, 0x07E00000), (38, 0x0000F8E00000FFFF),
   (82, ~~~ bbloMask), (83, ~~~ bbhiMask)]
  ++ ((List.range 4).map (fun i => (84 + i, BitVec.allOnes 64))) ++ ((List.range 8).map (fun i => (120 + i, BitVec.allOnes 64)))

/-- Whether one of n queue counts, a byte each, is above 16. -/
def badCounts (w : Word) (n : Nat) : Bool := (List.range n).any (fun i => 16 < fld w (8 * i + 7) (8 * i))

/-- A context image fails R410 status 5: its kind, its version, a set reserved bit, or a queue count. -/
def badHeader (w : List Word) : Bool :=
  let a := w.getD 0 0
  fld a 63 48 != 0xC7A1 || fld a 47 40 != 1 || imageReserved.any (fun e => w.getD e.1 0 &&& e.2 != 0) || badCounts (w.getD 31 0) 8

/-- The discardable region of a launch (08 Table 8.3). -/
def State.discardable (s : State) (launch : Nat) : Nat × Nat :=
  match s.launch? launch with
  | some l => (l.dlo, l.dhi)
  | none => (0, 0)

/-- Whether a saved context is the one that an image restores as context n of core pid (21 R408; log 22). -/
def Saved.isOf (v : Saved) (pid n : Nat) (w : List Word) : Bool :=
  v.pid == pid && v.cx == n && v.hid.epoch.toNat == fld (w.getD 0 0) 31 16 && v.hid.ident.launch.toNat == fld (w.getD 1 0) 63 32

/-- What the image does not hold of the context. -/
def State.hiddenOf (s : State) (n : Nat) (w : List Word) : Ctx :=
  match s.saved.find? (fun v => v.isOf s.pid n w) with
  | some v => v.hid
  | none => { Ctx.reset with act := s.nextAct }

/-- When the image that a core restores as context n was taken; one that the machine did not write there counts as the oldest. -/
def State.imageTaken (s : State) (n : Nat) (w : List Word) : Nat :=
  ((s.saved.find? (fun v => v.isOf s.pid n w)).map (fun v => v.taken)).getD 0

/-- Whether an image may not be loaded yet: the core has been saved since it was taken, and no image of the core for its launch has
been loaded after that save (21 R409). -/
def State.imageAway (s : State) (n : Nat) (w : List Word) : Bool :=
  match s.core.savedAt with
  | none => false
  | some t => s.imageTaken n w ≤ t && !s.core.back.contains (fld (w.getD 1 0) 63 32)

/-- The effects recorded in an image, in order, and last a NUMERIC for an enabled flag of the restored flag word: one that no operation
brought has EFFARG the flags and EFFADDR 0, DEDUCED (21 R408; log 71). -/
def Ctx.restoredPend (c : Ctx) : List Pend :=
  let late := c.pend.filter (fun p => p.kind == Eff.numeric)
  let fresh := if late.isEmpty && c.num.flags &&& c.num.flagen != 0 then [⟨Eff.numeric, { eff := Eff.numeric, arg := c.num.flags }⟩] else []
  c.pend.filter (fun p => p.kind != Eff.numeric) ++ late ++ fresh

/-- The context that an image at `ea` restores over what it does not hold: the marks of a core load, and the RESUMED that is to be
sought (21 R408). -/
def State.restored (s : State) (hid : Ctx) (n : Nat) (ea : Word) (w : List Word) : Ctx :=
  let launch := fld (w.getD 1 0) 63 32
  let marked := s.core.dscd.any (fun e => e.1 == n && e.2.1 == launch && s.imageTaken n w ≤ e.2.2)
  let c0 := hid.ofImage w
  let (lo, hi) := s.discardable launch
  let lost := marked && c0.tx.opened && overlaps c0.tx.lbase (c0.tx.lbase + 128 * c0.tx.logn) lo hi
  { c0 with
    starts := (s.ctxAt s.pid n).starts
    stat := { c0.stat with dscd := c0.stat.dscd || marked }
    tx := { c0.tx with rvk := c0.tx.rvk || lost }
    pend := c0.restoredPend
    resumed := some { eff := Eff.resumed, arg := W (fld (w.getD 1 0) 10 0), addr := ea } }

/-- A stream that the activation owns and that is HELD goes on (17 R392). -/
def State.unholdOf (pid act : Nat) (s : State) (i : Nat) : State :=
  let m := s.stream pid i
  if m.state == 3 && m.owner == act then s.unhold pid i else s

/-- Puts the context of an image into context n of the core, with its streams (21 R408). -/
def State.loadCtx (s : State) (n : Nat) (ea : Word) (w : List Word) : State :=
  let launch := fld (w.getD 1 0) 63 32
  let c := s.restored (s.hiddenOf n w) n ea w
  let t := { s with saved := s.saved.filter (fun v => !v.isOf s.pid n w), nextAct := s.nextAct + 1 }
  let u := (t.setCtxAt s.pid n c).modCoreAt s.pid (fun k => { k with dscd := k.dscd.filter (fun e => !(e.1 == n && e.2.1 == launch)) })
  [0, 1, 2, 3].foldl (State.unholdOf s.pid c.act) u

/-- CTXLOAD with Gb = 0, once the operands are read. -/
def Act.loadContext (d : Reg) (x : Word) : Act Unit := do
  let s ← get
  match s.imageRange x 4096 1 .read with
  | .error e => Act.wrG d (W e)
  | .ok hs => do
    Act.waitIf (s.pagesHeld hs 4096) .drain
    let w := bytesWords 512 (s.imageRd hs 0 4096)
    let n := fld (w.getD 0 0) 34 32
    let own := n == s.cx && s.cx != 4
    if 4 ≤ n || (!own && !s.vacant s.pid n) || fld (w.getD 1 0) 10 0 != s.pid
        || s.imageAway n w then Act.wrG d 4
    else if badHeader w then Act.wrG d 5
    else if s.imageBad hs 0 4096 then Act.wrG d 6
    else do
      Act.waitIf (flag (w.getD 0 0) 0) (.pend ((hs.headD (.dev 0 false false 0)).readKey s.sys.lead s.pid))
      Act.waitIf (own && s.outstanding s.ctx.act) .drain
      if own then Act.stop (((s.endAct s.pid s.cx).loadCtx n x w).modCore (fun k => { k with cur := n }))
      else do
        set (s.loadCtx n x w)
        Act.wrG d 0

/-! ## The core (21 R407, R408) -/

/-- Whether every logical id that a running launch maps to the core is parked (21 R407). -/
def State.idsParked (s : State) (pid : Nat) : Bool :=
  s.launches.all (fun l => l.phase != 1 || l.map.all (fun e => e.2.1 != pid || e.2.2))

def State.lowFree (s : State) (pid : Nat) : Bool := [0, 1, 2, 3].all (fun cx => s.vacant pid cx)

/-- Whether an item of a copy targets or reads the core's scratchpad. -/
def Copy.touchesCore (c : Copy) (pid : Nat) (byLid : Nat → Nat) : Bool :=
  let at_ := fun (ea : Nat) => match classOf ea with
    | .spad _ => c.pid == pid
    | .core p _ => p == pid
    | _ => false
  at_ c.src.toNat || c.items.any (fun i => match i.dst with
    | .local _ => c.pid == pid
    | .ea a => at_ a.toNat
    | .lid n _ => byLid n == pid
    | .recv p _ _ _ => p == pid)

/-- What a core save waits for (21 R407). -/
def State.coreQuiet (s : State) (pid : Nat) : Bool :=
  let k := s.coreAt pid
  k.chans.all (fun e => e.2.copy.isNone)
  && !s.copies.any (fun c => c.touchesCore pid (fun n => (s.resolve c.launch n).1))
  && !s.net.reqs.any (fun r => r.pieces.any (fun p => match p.home with
      | .spad q _ => q == pid
      | _ => false))
  && k.unit.mat.cmds.isEmpty && k.unit.mat.stat.isEmpty && k.unit.mat.out.isEmpty && k.unit.rank.cmds.isEmpty && !s.net.pkts.any (fun p => p.dst == pid)

/-- Bytes with the range [lo, hi) zeroed, the first of them standing for address `at_`. -/
def zeroRange (bs : List Byte) (lo hi : Nat) : List Byte := bs.take lo ++ List.replicate (min hi bs.length - lo) 0 ++ bs.drop (max lo hi)

/-- The areas of a core image that have a device layout (21 Table 21.4): offset and bytes. -/
def deviceAreas : List (Nat × Nat) := [(0x140, 0x80), (0xD00, 0x100), (0x1200, 0x1000), (0x2200, 0x900), (0x3000, 0x1000)]

/-- The core queues in the order of the image. -/
def coreQueues : List Nat := [5, 6, 7, 8, 12, 13, 14, 15]

/-- The first 64 KiB of a core image (21 Table 21.4), saved as number `serial`. -/
def Core.imageHead (k : Core) (pid launch serial : Nat) (disc : Bool) (side : List Byte) : List Byte :=
  let dev := fun off n => (List.range n).map (fun i => Config.deviceLayout serial (off + i))
  let words0 : List Word := [W (0xC7A2 * 2 ^ 48 + 2 ^ 40 + pid % 2 ^ 11), W (launch % 2 ^ 32 * 2 ^ 32 + b2n disc), k.dlcnt, k.deccnt, W k.mp.toNat]
  let counts := coreQueues.flatMap (fun q => bytesOf 1 (Tab.get [] k.qs q).length)
  let sizes := W (min 64 k.deque.length + k.mbStore.length * 2 ^ 8 + k.pending.length * 2 ^ 16)
  wordsBytes words0 ++ counts ++ wordsBytes [sizes, 0] ++ wordsBytes k.m.toList ++ dev 0x140 0x80 ++ List.replicate 0x40 0
  ++ coreQueues.flatMap (fun q => wordsBytes (padTo 16 0 (Tab.get [] k.qs q)))
  ++ (List.range 32).flatMap (fun n => wordsBytes (k.tile n).words) ++ (List.range 32).flatMap (fun n => wordsBytes (k.bar n).words)
  ++ wordsBytes ((List.range 8).map (fun n => W (Tab.get Chan.reset k.chans n).mark)) ++ List.replicate 0xC0 0
  ++ dev 0xD00 0x100 ++ (List.range 64).flatMap (fun n => wordsBytes (k.slot n).words)
  ++ dev 0x1200 0x1000 ++ dev 0x2200 0x900 ++ List.replicate 0x500 0 ++ dev 0x3000 0x1000
  ++ wordsBytes (padTo 512 0 ((k.deque.take 64).flatMap (fun t => t.words))) ++ List.replicate 0x3000 0 ++ side

/-- The core after its save (21 R407): shared state as at reset. The system handler, the TLB, marks and starts, which belong to no
image, stay: DEDUCED (log 25). -/
def Core.cleared (k : Core) (step : Nat) : Core :=
  { Core.reset with shandler := k.shandler, tlb := k.tlb, cur := k.cur, issued := k.issued, dscd := k.dscd
                    starts := k.starts, launches := k.launches, savedAt := some step, back := [] }

/-- The scratchpad outside the segment [lo, hi), and the side memory, as at reset, without marks of uncorrectable rows (21 R407). -/
def State.clearSpad (s : State) (pid lo hi : Nat) : State :=
  let t := (s.wr (spadKey pid 0) (List.replicate lo 0)).wr (spadKey pid hi) (List.replicate (Config.spadBytes - hi) 0)
  let u := t.wr (sideKey pid 0) (List.replicate 0x8000 0)
  { u with ue := u.ue.filter (fun k => !(spadKey pid 0 ≤ k && k < spadKey pid Config.spadBytes && !(spadKey pid lo ≤ k && k < spadKey pid hi))) }

/-- The state after a core save into the pages hs: the image with the discardable region and the kernel segment zeroed, its bad
rows marked, what an image does not hold kept beside it, and the core cleared; the carve-out of the SH that saves stays, as a load
leaves it: DEDUCED (21 R407; log 25). -/
def State.savedCore (s : State) (hs : List Home) : State :=
  let c := s.ctx
  let k := s.core
  let launch := c.ident.launch.toNat
  let (lo, hi) := s.discardable launch
  let spad := zeroRange (zeroRange (s.rd (spadKey s.pid 0) Config.spadBytes) lo hi) c.space.sklo.toNat c.space.skhi.toNat
  let img := k.imageHead s.pid launch s.stepNo (lo < hi) (s.rd (sideKey s.pid 0) 0x8000) ++ spad
  let t := s.putPages hs img
  let badRows := (List.range 24576).filter (fun i => s.bad (spadKey s.pid (64 * i)) 64)
  let marks := badRows.filterMap (fun i => (hs[(0x10000 + 64 * i) / 0x10000]?).map (fun h => lineOf (h.key + (64 * i) % 0x10000)))
  ({ t with ue := t.ue ++ marks, images := ⟨s.stepNo, s.pid, launch, k, false⟩ :: t.images }.modCoreAt s.pid (fun k => k.cleared s.stepNo)).clearSpad
    s.pid c.space.sklo.toNat c.space.skhi.toNat

/-- CTXSAVE with Gb = 1, once the operands are read. -/
def Act.saveCore (d : Reg) (x : Word) : Act Unit := do
  let s ← get
  match s.imageRange x 0x10000 25 .write with
  | .error e => Act.wrG d (W e)
  | .ok hs =>
    if s.cx != 4 || !s.lowFree s.pid || !s.idsParked s.pid then Act.wrG d 4
    else do
      Act.waitIf (!s.coreQuiet s.pid) .drain
      Act.waitIf (hs.any (fun h => s.keyHeld (h.writeKey s.sys.lead))) .drain
      Act.waitIf (hs.any (fun h => !s.canPut h 0x10000 .other)) .drain
      set (s.savedCore hs)
      Act.wrG d 0

/-- The core that an image restores (21 R408): listed areas from the image, device layouts from the save that they name,
streams HELD. -/
def Core.ofImage (k saved : Core) (w : Nat → Word) (launch : Nat) : Core :=
  let words := fun at_ n => (List.range n).map (fun i => w (at_ + 8 * i))
  let counts := bytesOf 8 (w 0x28).toNat
  let sizes := w 0x30
  let qs := (List.range 8).foldl (fun t i =>
    let n := min 16 (counts.getD i 0).toNat
    if n = 0 then t else Tab.set t (coreQueues.getD i 0) (words (0x200 + 128 * i) n)) []
  let tasks := (List.range (min 64 (fld sizes 6 0))).map (fun i =>
    let old := saved.deque.getD i ⟨0, 0, 0, 0, 0, 0, false, 0, false, 0, 0, 0, launch, 0, 0, none⟩
    { Task.ofWords (words (0x4000 + 64 * i) 8) old.launch old.id old.since with headAt := old.headAt })
  let hold := fun (e : Nat × Strm) => if e.2.state == 1 || e.2.state == 2 then (e.1, { e.2 with saved := e.2.state, state := 3 }) else e
  { k with
    m := Vector.ofFn (fun i => w (0x40 + 8 * i.val)), mp := BitVec.ofNat 32 (w 0x20).toNat, mbStore := saved.mbStore, qs := qs
    tiles := (List.range 32).map (fun n => (n, Tile.ofWords (words (0x600 + 32 * n) 4)))
    bars := (List.range 32).map (fun n => (n, (saved.bar n).ofWords (words (0xA00 + 16 * n) 2)))
    chans := (List.range 8).map (fun n => (n, { Chan.reset with mark := fld (w (0xC00 + 8 * n)) 20 0 }))
    ht := (List.range 64).map (fun n => (n, HSlot.ofWords (words (0xE00 + 16 * n) 2)))
    subs := saved.subs, pending := saved.pending, dlcnt := w 0x10, deccnt := w 0x18
    deque := tasks ++ saved.deque.drop 64, ptasks := saved.ptasks, last0 := 63, last1 := 63
    back := launch :: k.back
    unit := { CoreUnits.reset with rank := { saved.unit.rank with strms := saved.unit.rank.strms.map hold } } }

/-- The discardable region after a core load (10 R257, 21 R408, 17 R392): zero bytes, EMPTY tiles, marks, lost buffers. -/
def State.discard (s : State) (pid launch : Nat) : State :=
  let (lo, hi) := s.discardable launch
  let t := s.wr (spadKey pid lo) (List.replicate (hi - lo) 0)
  t.modCoreAt pid (fun k => { k with
    tiles := k.tiles.map (fun e => if lo ≤ e.2.base ∧ e.2.base < hi then (e.1, { e.2 with state := 0, fch := 0, dcnt := 0, failed := false }) else e)
    dscd := [0, 1, 2, 3].map (fun n => (n, launch, s.stepNo)) ++ k.dscd.filter (fun e => e.2.1 != launch)
    unit := { k.unit with rank := { k.unit.rank with strms := k.unit.rank.strms.map (fun e =>
      if !e.2.held.isEmpty && overlaps e.2.ovb (e.2.ovb + e.2.np * 8256) lo hi then
        (e.1, { e.2 with disc := e.2.disc + e.2.heldEntries, ovl := true, held := [], heldEntries := 0 })
      else e) } } })

/-- A core image fails R410 status 5, but for its device layouts: its kind, its version, a set reserved bit, or a count. -/
def badCoreHeader (w : Nat → Word) : Bool :=
  let two := fun at_ => [w at_, w (at_ + 8)]
  let four := fun at_ => [w at_, w (at_ + 8), w (at_ + 16), w (at_ + 24)]
  fld (w 0) 63 48 != 0xC7A2 || fld (w 0) 47 40 != 1 || fld (w 0) 39 11 != 0 || fld (w 8) 31 1 != 0 || fld (w 0x20) 63 32 != 0
  || badCounts (w 0x28) 8 || fld (w 0x30) 63 22 != 0 || fld (w 0x30) 15 12 != 0 || flag (w 0x30) 7 || 64 < fld (w 0x30) 6 0
  || (List.range 32).any (fun n => (Tile.ofWords (four (0x600 + 32 * n))).words != four (0x600 + 32 * n))
  || (List.range 32).any (fun n => (Bar.reset.ofWords (two (0xA00 + 16 * n))).words != two (0xA00 + 16 * n))
  || (List.range 8).any (fun n => fld (w (0xC00 + 8 * n)) 63 21 != 0) || (List.range 24).any (fun n => w (0xC40 + 8 * n) != 0)
  || (List.range 64).any (fun n => (HSlot.ofWords (two (0xE00 + 16 * n))).words != two (0xE00 + 16 * n))

/-- Whether the device-layout areas of an image hold what the save with number `serial` wrote there (21 R410; log 8). -/
def State.layoutsOf (s : State) (hs : List Home) (serial : Nat) : Bool :=
  deviceAreas.all (fun e => s.imageRd hs e.1 e.2 == (List.range e.2).map (fun i => Config.deviceLayout serial (e.1 + i)))

/-- The state after a core load from the pages hs, `e` being the save that the image names: the scratchpad outside the kernel
segment, the side table and the marks of bad rows, the shared state, and the discardable region discarded (21 R408). -/
def State.loadedCore (s : State) (hs : List Home) (e : CoreImg) (w : Nat → Word) (launch : Nat) : State :=
  let c := s.ctx
  let (lo, hi) := (c.space.sklo.toNat, c.space.skhi.toNat)
  let data := (List.range 24).flatMap (fun i => s.imageRd hs (0x10000 * (i + 1)) 0x10000)
  let t := (s.wr (spadKey s.pid 0) (data.take lo)).wr (spadKey s.pid hi) (data.drop hi)
  let u := t.wr (sideKey s.pid 0) (s.imageRd hs 0x8000 0x8000)
  let badRows := (List.range 24576).filter (fun i => s.imageBad hs (0x10000 + 64 * i) 64 && !(lo ≤ 64 * i && 64 * i < hi))
  let v := { u with ue := u.ue ++ badRows.map (fun i => spadKey s.pid (64 * i)) }
  let x := { v with images := v.images.map (fun (i : CoreImg) => if i.serial = e.serial then { i with loaded := true } else i) }
  let z := x.modCoreAt s.pid (fun k => k.ofImage e.core w launch)
  if flag (w 8) 0 then z.discard s.pid launch else z

/-- CTXLOAD with Gb = 1, once the operands are read. -/
def Act.loadCore (d : Reg) (x : Word) : Act Unit := do
  let s ← get
  match s.imageRange x 0x10000 25 .read with
  | .error e => Act.wrG d (W e)
  | .ok hs => do
    Act.waitIf (s.pagesHeld hs 0x10000) .drain
    let w := fun off => W (natOf (s.imageRd hs off 8))
    let launch := fld (w 8) 63 32
    let from_ := s.images.find? (fun e => e.pid == s.pid && e.launch == launch && s.layoutsOf hs e.serial)
    if s.cx != 4 || !s.lowFree s.pid || fld (w 0) 10 0 != s.pid then Act.wrG d 4
    else if badCoreHeader w then Act.wrG d 5
    else match from_ with
    | none => Act.wrG d 5
    | some e =>
      if s.imageBad hs 0 0x10000 then Act.wrG d 6
      else do
        set (s.loadedCore hs e w launch)
        Act.wrG d 0

def ctxSaveOp (sp : Bool) (d a b : Reg) (s : State) : Out :=
  issue s sp 4 (do
    let (x, core) ← Act.imageOperands a b d
    if core then Act.saveCore d x else Act.saveContext d x)

def ctxLoadOp (sp : Bool) (d a b : Reg) (s : State) : Out :=
  issue s sp 4 (do
    let (x, core) ← Act.imageOperands a b d
    if core then Act.loadCore d x else Act.loadContext d x)

/-- CTXSAVE and its core form share one encoding; Gb decides (21 R406, R407). -/
def execCtxsave (sp : Bool) (d a b : Reg) (s : State) : Out := ctxSaveOp sp d a b s
def execCtxsaveCore (sp : Bool) (d a b : Reg) (s : State) : Out := ctxSaveOp sp d a b s
def execCtxload (sp : Bool) (d a b : Reg) (s : State) : Out := ctxLoadOp sp d a b s
def execCtxloadCore (sp : Bool) (d a b : Reg) (s : State) : Out := ctxLoadOp sp d a b s

/-! ## TLBI, MAPLID, SYSRD, SYSWR, PREFETCH -/

/-- Whether a TLB entry is one that a TLBI invalidates (21 R414); an entry of a group matches anywhere in it. -/
def Tlb.matches (t : Tlb) (kind asid va : Nat) : Bool :=
  kind == 2 || (t.asid == asid && (kind == 1 || (t.base ≤ va && va < t.base + t.size)
    || (bitOf t.leaf 24 && va / 2 ^ 26 == t.base / 2 ^ 26)))

def State.invalidate (s : State) (kind asid va : Nat) (die : Option Nat) : State :=
  let inScope := fun d => match die with
    | none => true
    | some e => d == e
  { s with
    cores := s.cores.map (fun e => if inScope (dieOf e.1) then (e.1, { e.2 with tlb := e.2.tlb.filter (fun t => !t.matches kind asid va) }) else e)
    dies := s.dies.map (fun e => if inScope e.1 then (e.1, { e.2 with tlb := e.2.tlb.filter (fun t => !t.matches kind asid va) }) else e) }

/-- Whether an access through a translation, or a commit of translated lines, below given numbers is still to be performed; so no
entry that it used is in use any longer (21 R414). -/
def State.translatedOpen (s : State) (reqs commits : Nat) : Bool :=
  s.net.reqs.any (fun r => r.no < reqs && r.pieces.any (fun p => match p.home with
    | .spad _ _ => false
    | _ => true))
  || s.vers.commits.any (fun c => c.id < commits)
  || s.vers.reps.any (fun r => match r.by_ with
    | .access _ _ _ no => no < reqs
    | _ => false)

/-- The invalidation of a TLBI issued by a core. -/
def State.tlbInvalid (s : State) (pid kind asid va : Nat) (pkg : Bool) : State := s.invalidate kind asid va (if pkg then none else some (dieOf pid))

/-- TLBI (21 R414): after the context's own stores it waits for the accesses and commits that were issued before it. -/
def execTlbi (sp : Bool) (a b : Reg) (s : State) : Out :=
  issue s sp 4 (do
    Act.needSup
    let x ← Act.rdG a
    let y ← Act.rdG b
    Act.check (fld y 63 32 != 0 || fld y 15 3 != 0 || fld y 1 0 == 3) (illegal y)
    Act.drain
    let (reqs, commits) := match s.ctx.run with
      | .stalled (.tlbi n m _ _ _ _) => (n, m)
      | _ => (s.net.nextReq, s.vers.nextCommit)
    Act.waitIf (s.translatedOpen reqs commits) (.tlbi reqs commits (fld y 1 0) (fld y 31 16) x.toNat (flag y 2))
    Act.upd (fun t => t.tlbInvalid t.pid (fld y 1 0) (fld y 31 16) x.toNat (flag y 2)))

def execMaplid (sp : Bool) (d a b : Reg) (s : State) : Out :=
  issue s sp 4 (do
    Act.needSup
    let x ← Act.rdG a
    let y ← Act.rdG b
    Act.interlock (.g d)
    Act.check (fld x 31 12 != 0) (illegal x)
    Act.check (fld y 62 11 != 0) (illegal y)
    let id := fld x 63 32
    let ok := match (← get).launch? id with
      | some l => l.phase == 1 && decide (fld x 11 0 < l.size)
      | none => false
    Act.check (!ok) (illegal x)
    Act.ask (.mapLid d id (fld x 11 0) y.toNat)
    Act.await s.here sp .reply)

/-- The selector checks of SYSRD and SYSWR (21 R415). -/
def badSelector (x : Word) (write : Bool) : Bool :=
  let n := fld x 13 0
  let low := n == 0 || n == 2 || n == 0x24 || (0x50 ≤ n && n < 0x58) || (0x70 ≤ n && n < 0x74)
  let high := 0x100 ≤ n && n ≤ 0x106
  flag x 31 || fld x 63 32 != 0 || fld x 15 14 != 0 || flag x 27 || 5 ≤ fld x 30 28
  || (if write then !high || n == 0x106 else !high && !low)

def execSysrd (sp : Bool) (d a : Reg) (s : State) : Out :=
  issue s sp 4 (do
    Act.needSup
    let x ← Act.rdG a
    Act.check (badSelector x false) (illegal x)
    Act.pendDest (.g d)
    let t ← get
    Act.result (.g d) (.g ((t.special (fld x 26 16) (fld x 30 28) (fld x 13 0)).getD 0)))

def execSyswr (sp : Bool) (a b : Reg) (s : State) : Out :=
  issue s sp 4 (do
    Act.needSup
    let x ← Act.rdG a
    let y ← Act.rdG b
    Act.check (badSelector x true) (illegal x)
    Act.ask (.sysWr (fld x 26 16) (fld x 30 28) (fld x 13 0) y))

/-- PREFETCH changes no architectural state (21 R416). -/
def execPrefetch (sp : Bool) (a b : Reg) (s : State) : Out :=
  issue s sp 4 (do
    let _ ← Act.rdG a
    let y ← Act.rdG b
    Act.check (fld y 63 2 != 0 || fld y 1 0 == 3) (illegal y))

end Sys2Proof.Machine
end

