-- ==== Sys2Proof/Machine/Start.lean ====
section
/-! DEFINITION. How activations begin (01 R27; 08 R204, R207, R212): messages, launches, tasks; the spill rule (08 R223, R225), the
Paddock (08 R217, R218), and the waits that clear (01 R13, 09 R251). -/

namespace Sys2Proof.Machine

/-! ## Beginning an activation (01 R27, 08 R207) -/

/-- What an activation starts from. Only a launch or a slot marked privileged starts at supervisor level (01 R18): a task starts at
user level, DEDUCED (log 32). -/
structure Begin where
  launch : Launch
  lid : Nat
  pc : Word
  g1 : Word
  g2 : Word
  g3 : Word
  g4 : Word
  task : Word
  sup : Bool
  payload : List Word
  started : Started
  path : Nat

/-- A context as R27 begins it; EPOCH advances at every start (06 R154). -/
def Ctx.begin (old : Ctx) (b : Begin) (cx act time : Nat) : Ctx :=
  let c : Ctx := { Ctx.reset with
    run := .runnable, since := time, pc := b.pc
    num := { flags := 0, flagen := b.launch.flagen &&& 0x7F, vt := b.launch.vt &&& 0xFFFFFFFF0F7F, seed := b.launch.seed, srCount := 0 }
    ident := b.launch.ident b.lid b.task
    stat := ⟨false, false, b.sup⟩
    space := ⟨b.launch.sklo cx, b.launch.skhi cx, b.launch.ovf, b.launch.src.ptroot &&& 0xFFFFFFFFFFFF⟩
    starts := old.starts + 1, epoch := old.starts + 1, sysGen := old.sysGen
    qs := if b.payload.isEmpty then [] else [(11, b.payload)]
    started := b.started, path := b.path, act := act, startAt := time, shFrom := time }
  ((((c.setG 1 b.g1).setG 2 b.g2).setG 3 b.g3).setG 4 b.g4).setG 31 (c.space.skhi - 576)

/-- Begins an activation in context cx of a core. -/
def State.start (s : State) (pid cx : Nat) (b : Begin) : State :=
  let t := s.setCtxAt pid cx ((s.ctxAt pid cx).begin b cx s.nextAct s.time)
  { t with nextAct := s.nextAct + 1 }

/-- The lowest-numbered free low context (08 R204); what an ended activation issued there has been carried out (01 R28). -/
def State.freeLow (s : State) (pid : Nat) : Option Nat := [0, 1, 2, 3].find? (fun cx => s.vacant pid cx)

/-- A launch for values where none is left. -/
def State.launchOr (s : State) (id : Nat) : Launch := (s.launch? id).getD (Act.launch.blank id)

/-- The start of a message's activation (08 R207). -/
def State.beginMessage (s : State) (pid : Nat) (m : Msg) : Begin :=
  let h := (s.coreAt pid).slot m.chan
  let l := s.launchOr h.lnch
  { launch := l
    lid := match m.lid with
      | some n => if m.launch = h.lnch then n else l.lowestLid pid
      | none => l.lowestLid pid
    pc := h.rpc, g1 := W m.src, g2 := W m.chan, g3 := W m.payload.length, g4 := W m.tag, task := 0, sup := h.privl
    payload := m.payload, started := .message h.lnch, path := 0 }

/-- The start activation of a launch on a core (08 R212, R220). An odd ENTRY, which R210 does not reject, is its PC as it stands, and its
first fetch raises ALIGN: DESIGN CHOICE (log 73). -/
def State.beginLaunch (s : State) (x : Start) : Begin :=
  let l := s.launchOr x.launch
  { launch := l, lid := x.lid, pc := l.entry, g1 := W l.id, g2 := W x.lid, g3 := x.addr, g4 := l.arg, task := 0, sup := l.privl
    payload := [], started := .launch l.id, path := x.lid + 1 }

/-- The activation of a task or an arm (08 R207). -/
def State.beginTask (s : State) (pid : Nat) (t : Task) : Begin :=
  let l := s.launchOr t.launch
  { launch := l, lid := l.lowestLid pid, pc := t.pc, g1 := W t.id, g2 := t.arg0, g3 := t.arg1, g4 := W t.path, task := W t.id
    sup := false, payload := [], started := .task l.id t.join t.qpri t.cls t.path, path := t.path }

/-! ## Selection of messages (08 R199, R200) -/

/-- A message that is dropped when it is considered: its slot has moved on (09 R231). -/
def Core.stale (k : Core) (m : Msg) : Bool := (k.slot m.chan).gen != m.gen || !(k.slot m.chan).valid

/-- A drop: the dead-letter count, and the negative response for a sender that asked (09 R231). -/
def State.deadLetter (s : State) (pid : Nat) (m : Msg) : State :=
  let t := s.modCoreAt pid Core.dead
  if m.dlr then
    t.modNet (fun n => { n with nacks := n.nacks ++ [⟨m.src, m.scx, m.sact, { eff := Eff.deadmsg, arg := m.desc, addr := m.saddr }⟩] })
  else t

/-- Drops the stale messages of a core (09 R231, R237). -/
def State.dropStale (s : State) (pid : Nat) : State :=
  let k := s.coreAt pid
  let gone := k.pending.filter (fun m => k.stale m)
  if gone.isEmpty then s
  else gone.foldl (fun s m => s.deadLetter pid m) (s.modCoreAt pid (fun k => { k with pending := k.pending.filter (fun m => !k.stale m) }))

/-- A selectable message of a priority (08 R200). -/
def Core.selectable (k : Core) (prio : Bool) (m : Msg) : Bool :=
  let h := k.slot m.chan
  !k.stale m && !h.msk && h.qb == 0 && h.prio == prio

/-- The message chosen at a priority: the first channel, from the one after the last chosen, then the oldest (08 R200). -/
def Core.choose (k : Core) (prio : Bool) : Option Nat :=
  let last := if prio then k.last1 else k.last0
  let order := (List.range 64).map (fun i => (last + 1 + i) % 64)
  let at_ := fun c => k.pending.findIdx? (fun m => m.chan == c && k.selectable prio m)
  (order.find? (fun c => (at_ c).isSome)).bind at_

/-- Whether SH takes a priority-1 message (08 R201). -/
def State.shOpen (s : State) (pid : Nat) : Bool :=
  s.vacant pid 4 && [0, 1, 2, 3].all (fun cx => !(s.ctxAt pid cx).masked s.time)

/-- Starts pending message i in context cx. -/
def State.startMessage (s : State) (pid cx i : Nat) (prio : Bool) : State :=
  match takeAt (s.coreAt pid).pending i with
  | none => s
  | some (m, rest) =>
    let t := s.modCoreAt pid (fun k =>
      if prio then { k with pending := rest, last1 := m.chan } else { k with pending := rest, last0 := m.chan })
    t.start pid cx (s.beginMessage pid m)

/-- The entry of SH by the priority-1 message chosen (08 R201). -/
def State.enterSh (s : State) (pid : Nat) : State :=
  let t := s.dropStale pid
  if t.shOpen pid then
    match (t.coreAt pid).choose true with
    | some i => t.startMessage pid 4 i true
    | none => t
  else t

/-- PRIORITY1_ENTRY (08 R201). -/
def execPriority1Entry (core : Nat) (s : State) : Out := .next (s.enterSh core)

/-! ## Waits that clear (01 R13, 08 R205) -/

/-- Whether a line key names a line of the register space, whose registers change without a write to a line (10 R271). -/
def registerLine (line : Nat) : Bool := decide (2 ^ 53 ≤ line ∧ line < 2 ^ 53 + 2 ^ 24)

/-- Whether the blocking condition of a wait has cleared, as far as it can be told without its instruction; where it cannot, the context
may look again (01 R13). -/
def State.waitOver (s : State) (pid cx : Nat) (w : Wait) : Bool :=
  let k := s.coreAt pid
  match w with
  | .presence => true
  | .qFull q => (s.queue pid cx q).length < 16
  | .mboxRead m => k.mp.getLsbD m
  | .mbox m => k.mp.getLsbD m
  | .seen => true
  | .watch l => registerLine l
  | .version line goal => let v := Tab.get VLine.reset s.vers.lines line
    goal ≤ v.ts && v.ts ≤ s.vers.stable
  | .barrier => false
  | .idle _ => false
  | .idleTurn _ => false
  | .reply => false
  | .drain => true
  | .mark _ => true
  | .tile n => (k.tile n).state % 2 = 0
  | .room => true
  | .wmark ch copy goal _ => (Tab.get Chan.reset k.chans ch).copy != some copy || goal ≤ (Tab.get Chan.reset k.chans ch).mark
  | .wmEnd _ _ => true
  | .pend key => !flag (s.rdW key) 0
  | .tlbi reqs commits _ _ _ _ => !s.translatedOpen reqs commits

/-- Whether a wait is one of those that R13 does not speak of: it asks for no presence bit (05 R135; 09 R251; 15 R350). -/
def Wait.bare : Wait → Bool
  | .seen => true
  | .mbox _ => true
  | .watch _ => true
  | .wmEnd _ _ => true
  | _ => false

/-- Whether a parked context may go on: its blocking condition has cleared and every presence bit is set (01 R13). -/
def State.cleared (s : State) (pid cx : Nat) (w : Wait) : Bool :=
  s.waitOver pid cx w && (w.bare || (s.ctxAt pid cx).regs.allPresent)

/-- A context that waits goes on: WAITM and TLBI complete, WMWAIT with the result that it is owed (05 R135; 15 R350; 21 R414), every
other instruction issues again. -/
def Ctx.wake (c : Ctx) (w : Wait) : Ctx :=
  match w with
  | .wmEnd d v => { c.setG d v with pc := c.pc + 4, run := .runnable }
  | .seen => { c with pc := c.pc + 4, run := .runnable }
  | .tlbi _ _ _ _ _ _ => { c with pc := c.pc + 4, run := .runnable }
  | _ => { c with run := .runnable }

/-- What a wait owes the machine when it ends: the invalidation of a TLBI (21 R414). -/
def State.pay (s : State) (pid : Nat) (w : Wait) : State :=
  match w with
  | .tlbi _ _ kind asid va pkg => s.tlbInvalid pid kind asid va pkg
  | _ => s

/-- CONTEXT_WAKE (01 R13). -/
def execContextWake (core cx : Nat) (s : State) : Out :=
  .next (match (s.ctxAt core cx).run with
    | .parked w => if s.cleared core cx w then (s.pay core w).modCtxAt core cx (fun c => c.wake w) else s
    | _ => s)

/-- WATCH_WAKE: every context that watches a written line looks again (09 R251). -/
def execWatchWake (line : Nat) (s : State) : Out :=
  let wake := fun (c : Ctx) => match c.run with
    | .parked (.watch l) => if l = line then { c with run := .runnable } else c
    | .parked (.version l _) => if l = line then { c with run := .runnable } else c
    | _ => c
  .next (if s.net.dirty.contains line then
      { s with
        ctxs := s.ctxs.map (fun e => (e.1, wake e.2)), saved := s.saved.map (fun v => { v with hid := wake v.hid })
        net := { s.net with dirty := s.net.dirty.filter (fun l => l != line) } }
    else s)

/-- Whether a low context is runnable and has not issued for 64 core cycles while the issuing context does not stall (08 R205, R206). -/
def State.starved (s : State) (pid cx : Nat) : Bool :=
  let k := s.coreAt pid
  let stalls := match (s.ctxAt pid k.cur).run with
    | .stalled _ => true
    | _ => false
  cx < 4 && cx != k.cur && (s.ctxAt pid cx).run == .runnable && !stalls
  && decide (max (Tab.get 0 k.issued cx) (s.ctxAt pid cx).since + 64 * Config.coreTicks pid ≤ s.time)

/-- The starved context that the core moves to at the next instruction boundary, counting upward from the issuing one (08 R205). -/
def State.starving (s : State) (pid : Nat) : Option Nat :=
  ((List.range 3).map (fun i => ((s.coreAt pid).cur + 1 + i) % 4)).find? (fun cx => s.starved pid cx)

/-- FAIRNESS_BOUNDARY (08 R205): the core moves to a runnable context that has not issued for 64 cycles, unless the issuing context
stalls. -/
def execFairnessBoundary (core cx : Nat) (s : State) : Out :=
  .next (if s.starved core cx then s.modCoreAt core (fun k => { k with cur := cx }) else s)

/-- Whether a low context other than cx is runnable. -/
def State.othersRun (s : State) (pid cx : Nat) : Bool := [0, 1, 2, 3].any (fun n => n != cx && (s.ctxAt pid n).run == .runnable)

/-- Waiting in the sense of R223. -/
def Wait.waiting : Wait → Bool
  | .watch _ => true
  | .mbox _ => true
  | .seen => true
  | .barrier => true
  | .version _ _ => true
  | _ => false

/-- Whether the instruction that a context last tried to issue has issued: the context does not wait for it. -/
def Run.passed : Run → Bool
  | .stalled .reply => true
  | .stalled _ => false
  | .parked w => (match w with
    | .idle _ => true
    | .idleTurn _ => true
    | .reply => true
    | w => w.waiting)
  | _ => true

/-- Whether a core cycle in which another low context than cx issued, after time t, has ended. -/
def State.othersIssued (s : State) (pid cx t : Nat) : Bool :=
  [0, 1, 2, 3].any (fun n => n != cx && (s.ctxAt pid n).run.passed
    && decide (t < Tab.get 0 (s.coreAt pid).issued n ∧ Tab.get 0 (s.coreAt pid).issued n + Config.coreTicks pid ≤ s.time))

/-- IDLE_EXPIRY: the time of an IDLE has passed; for one of 0 cycles, another low context has issued, or a cycle has passed and no other
is runnable (05 R132). -/
def execIdleExpiry (core cx : Nat) (s : State) : Out :=
  .next (match (s.ctxAt core cx).run with
    | .parked (.idle t) => if t ≤ s.time then s.modCtxAt core cx (fun c => { c with run := .runnable }) else s
    | .parked (.idleTurn t) =>
      if s.othersIssued core cx t || (decide (t + Config.coreTicks core ≤ s.time) && !s.othersRun core cx) then s.modCtxAt core cx (fun c => { c with run := .runnable }) else s
    | _ => s)

/-- HMASK_TIMEOUT (08 R203). -/
def execHmaskTimeout (core cx : Nat) (s : State) : Out :=
  .next (match (s.ctxAt core cx).hmask with
    | some t => if t ≤ s.time then s.modCtxAt core cx (fun c => { c with hmask := none }) else s
    | none => s)

/-! ## Spilling and restoring (08 R223, R225) -/

def Ctx.waiting (c : Ctx) : Bool := match c.run with
  | .parked w => w.waiting
  | _ => false

/-- The record that a spill image holds: the context as it stands. -/
def Ctx.spillRecord (c : Ctx) (cx : Nat) : CRec := c.capture cx { eff := 0 } c.pc none

/-- The lowest-numbered free spill slot of a launch on a core. -/
def State.spillFree (s : State) (pid : Nat) (l : Launch) : Option Nat :=
  (List.range l.cspl).find? (fun n => !s.saved.any (fun v => v.pid == pid && v.slot.isSome && v.home == spadKey pid (l.spillSlot n)))

/-- A context goes to the spill slot at `home`: its image is written there, as CTXSAVE writes it, its PREEMPT request clears, and it is
free (08 R225; 21 R404, R406). -/
def State.spillOut (s : State) (pid cx slot home : Nat) : State :=
  let x := s.ctxAt pid cx
  let t := s.wr home (x.image pid cx s.time (x.spillRecord cx) x.num.flags (s.outstanding x.act))
  let u := (t.setCtxAt pid cx x.freed).modCoreAt pid (fun k => { k with rq := setBit k.rq cx false })
  { u with saved := u.saved ++ [⟨home, pid, cx, some slot, { x with preemptAt := none }, s.stepNo⟩] }

/-- CONTEXT_SPILL: the longest waiter goes to a spill slot (08 R225), once its outstanding results have landed and its accesses are
performed, as for CTXSAVE: DEDUCED (11 R304, 21 R406; log 33). -/
def execContextSpill (core : Nat) (s : State) : Out :=
  let c := fun cx => s.ctxAt core cx
  .next (if [0, 1, 2, 3].all (fun cx => (c cx).waiting) && !(s.coreAt core).deque.isEmpty then
      let cx := [1, 2, 3].foldl (fun b n => if (c n).since < (c b).since then n else b) 0
      let l := s.launchOr (c cx).ident.launch.toNat
      match s.spillFree core l with
      | none => s
      | some n =>
        if !(c cx).regs.allPresent || s.ownReqs (c cx).act then s else s.spillOut core cx n (spadKey core (l.spillSlot n))
    else s)

/-- A spilled context whose wait has cleared, and whose image reads PEND = 0 (08 R225; 21 R408). -/
def State.restorable (s : State) (pid : Nat) (v : Saved) : Bool :=
  v.pid == pid && v.slot.isSome && !s.outstanding v.hid.act && (match v.hid.run with
    | .runnable => true
    | .parked w => s.waitOver pid v.cx w
    | _ => false)

/-- A spilled context back in a free context (08 R225): it issues its instruction again, or, after a WAITM whose
bit was set, the next one. -/
def State.restoreSpill (s : State) (pid cx : Nat) (v : Saved) : State :=
  let w := s.rdWs v.home 512
  let c0 := v.hid.ofImage w
  let c := match v.hid.run with
    | .parked p => c0.wake p
    | _ => c0
  let t := { s with saved := s.saved.filter (fun (x : Saved) => x.home != v.home) }
  t.setCtxAt pid cx { c with starts := laterCount (s.ctxAt pid cx).starts c.epoch }

/-- SPILL_RESTORE: the context in a slot's image (08 R204, R225). -/
def execSpillRestore (core slot : Nat) (s : State) : Out :=
  .next (match s.freeLow core, s.saved.find? (fun v => v.slot == some slot && s.restorable core v) with
    | some cx, some v => s.restoreSpill core cx v
    | _, _ => s)

/-! ## Filling free contexts (08 R204) -/

/-- The first source that has work for a free low context: a restored spill, a launch start, a message, the deque's bottom. -/
def State.fillFrom (s : State) (pid cx : Nat) : Option State :=
  let k := s.coreAt pid
  match s.saved.find? (fun v => s.restorable pid v) with
  | some v => some (s.restoreSpill pid cx v)
  | none => match k.starts with
    | x :: rest => some ((s.modCoreAt pid (fun k => { k with starts := rest })).start pid cx (s.beginLaunch x))
    | [] => match k.choose false with
      | some i => some (s.startMessage pid cx i false)
      | none => match k.deque with
        | t :: rest => some ((s.setDeque pid rest).start pid cx (s.beginTask pid t))
        | [] => none

/-- Whether a core has a free low context that nothing of its own fills (08 R204). -/
def State.idleCore (s : State) (pid : Nat) : Option Nat :=
  match s.freeLow pid with
  | none => none
  | some cx => if (s.fillFrom pid cx).isSome then none else some cx

/-- CONTEXT_FILL (08 R204). -/
def execContextFill (core : Nat) (s : State) : Out :=
  let t := s.dropStale core
  .next (match t.freeLow core with
    | none => t
    | some cx => (t.fillFrom core cx).getD t)

/-- MESSAGE_SELECTION: SH before the low contexts; a low message only when no earlier source has work (08 R200, R204). -/
def execMessageSelection (core : Nat) (s : State) : Out :=
  let t := s.dropStale core
  .next (if t.shOpen core && ((t.coreAt core).choose true).isSome then t.enterSh core
    else match t.freeLow core, (t.coreAt core).choose false with
      | some cx, some i =>
        if (t.coreAt core).starts.isEmpty && !t.saved.any (fun v => t.restorable core v) then t.startMessage core cx i false else t
      | _, _ => t)

/-! ## The Paddock (08 R217, R218; 22 R420) -/

/-- Whether the Paddock may dispatch to a core: its cluster open and ready (22 R420, 25 R446). -/
def State.dispatchable (s : State) (pid : Nat) : Bool :=
  (Tab.get Cluster.reset s.sys.clusters (dieOf pid * 16 + clusterOf pid)).opened
  && flag (if dieOf pid < 4 then s.sys.ready1 else s.sys.ready2) (dieOf pid % 4 * 16 + clusterOf pid)

/-- Column class of a core: 1 gallop, 2 trot, 3 walk (00 Table 0.3). -/
def colClass (pid : Nat) : Nat := if colOf pid < 4 then 1 else if colOf pid < 12 then 2 else 3

/-- Load of R218. -/
def State.load (s : State) (pid : Nat) : Nat :=
  ([0, 1, 2, 3].filter (fun cx => !s.vacant pid cx)).length + min 64 (s.coreAt pid).deque.length

/-- The started cores of a launch on a die, in order of their numbers. -/
def State.coresOf (_s : State) (l : Launch) (die : Nat) : List Nat :=
  let pids := (l.begun.map (fun n => l.coreOf n)).filter (fun p => dieOf p == die)
  (List.range 256).filterMap (fun n => if pids.contains (die * 256 + n) then some (die * 256 + n) else none)

/-- Whether the Paddock can place a task on a core now. -/
def State.placeable (s : State) (p : Nat) : Bool := s.dispatchable p && (s.idleCore p).isSome

/-- The least-loaded core of a list that can take a task. -/
def State.leastLoaded (s : State) (l : List Nat) : Option Nat :=
  (l.filter s.placeable).foldl (fun b p =>
    match b with
    | none => some p
    | some q => if s.load p < s.load q then some p else b) none

/-- Where the head of a queue can be placed: a core of its class, or, after 10 µs at the head, of any (08 R218). -/
def State.placeHead (s : State) (die : Nat) (t : Task) : Option Nat :=
  match s.launch? t.launch with
  | none => none
  | some l =>
    let all := s.coresOf l die
    match s.leastLoaded (all.filter (fun p => t.cls == 0 || colClass p == t.cls)) with
    | some p => some p
    | none => if t.headAt.getD t.since + 10 * Config.tickUs ≤ s.time then s.leastLoaded all else none

/-- A queue without its head; the next record reaches the head now. -/
def popHead (time : Nat) : List Task → List Task
  | _ :: t :: l => { t with headAt := some time } :: l
  | _ => []

def State.setPaddock (s : State) (die q : Nat) (l : List Task) : State := s.modDieAt die (fun d => { d with paddock := Tab.set d.paddock q l })
def State.paddock (s : State) (die q : Nat) : List Task := Tab.get [] (s.dieAt die).paddock q

/-- Dispatches the head of queue q, if it can be placed. -/
def State.dispatchHead (s : State) (die q : Nat) : Option State :=
  match s.paddock die q with
  | [] => none
  | t :: l => match s.placeHead die t with
    | none => none
    | some p => match s.idleCore p with
      | none => none
      | some cx => some ((s.setPaddock die q (popHead s.time (t :: l))).start p cx (s.beginTask p t))

/-- Whether a thief may take a task: it is of a launch that the thief's core runs, and not of a deterministic one (08 R218, R220). -/
def State.stealable (s : State) (die thief : Nat) (t : Task) : Bool :=
  match s.launch? t.launch with
  | some l => !l.det && (s.coresOf l die).contains thief
  | none => false

/-- Whether core p has an oldest entry that a thief may take; an owner that has a free context takes its last entry itself (08 R216). -/
def State.victimOk (s : State) (die thief p : Nat) : Bool :=
  match (s.coreAt p).deque.getLast? with
  | none => false
  | some t => s.stealable die thief t && p != thief && !((s.coreAt p).deque.length == 1 && (s.freeLow p).isSome)

/-- The core whose deque has the most entries, the lowest number among equals (08 R218). -/
def State.fullest (s : State) (l : List Nat) : Option Nat :=
  l.foldl (fun b p => match b with
    | none => some p
    | some q => if (s.coreAt q).deque.length < (s.coreAt p).deque.length then some p else b) none

/-- The core on a die that a thief steals from. -/
def State.victim (s : State) (die thief : Nat) : Option Nat :=
  s.fullest (((List.range 256).map (fun n => die * 256 + n)).filter (fun p => s.victimOk die thief p))

/-- A thief starts the oldest entry of its victim in its context cx. -/
def State.stealFor (s : State) (die thief cx : Nat) : Option State :=
  (s.victim die thief).bind (fun v => ((s.coreAt v).deque.getLast?).map (fun t =>
    (s.setDeque v (s.coreAt v).deque.dropLast).start thief cx (s.beginTask thief t)))

/-- The steal for a free context: the oldest entry of the fullest deque on the die with work of a launch that the core runs
(08 R218). -/
def State.steal (s : State) (die : Nat) : Option State :=
  ((List.range 256).map (fun n => die * 256 + n)).findSome? (fun p =>
    if s.dispatchable p then (s.idleCore p).bind (fun cx => s.stealFor die p cx) else none)

/-- PADDOCK_DISPATCH: the highest queue whose head can be placed, else a steal (08 R218). -/
def execPaddockDispatch (die : Nat) (s : State) : Out :=
  .next (match [3, 2, 1, 0].findSome? (fun q => s.dispatchHead die q) with
    | some t => t
    | none => (s.steal die).getD s)

/-- CLASS_WAIT_EXPIRY: the head of queue q, after its 10 µs, unless a higher queue's head can be placed (08 R218). -/
def execClassWaitExpiry (die : Nat) (q : BitVec 2) (s : State) : Out :=
  .next (match (s.paddock die q.toNat).head? with
    | none => s
    | some t =>
      if t.headAt.getD t.since + 10 * Config.tickUs ≤ s.time
          && !([3, 2, 1].filter (fun n => q.toNat < n)).any (fun n => (s.dispatchHead die n).isSome) then
        (s.dispatchHead die q.toNat).getD s
      else s)

/-- PADDOCK_AGING: the oldest record of queue q that has waited more than 1 ms goes to the tail of the next higher queue
(08 R217). -/
def execPaddockAging (die : Nat) (q : BitVec 2) (s : State) : Out :=
  let l := s.paddock die q.toNat
  .next (if q.toNat = 3 then s
    else match l.findIdx? (fun t => t.since + Config.tickMs < s.time) with
      | none => s
      | some i => match takeAt l i with
        | none => s
        | some (t, rest) =>
          let left := if i = 0 then popHead s.time l else rest
          let u := s.setPaddock die q.toNat left
          let up := u.paddock die (q.toNat + 1)
          u.setPaddock die (q.toNat + 1) (up ++ [{ t with since := s.time, headAt := if up.isEmpty then some s.time else none }]))

/-! ## Pending records (08 R215) -/

/-- DECREMENT_ARRIVAL: one less in the record named, or a dead letter (09 R239). -/
def State.decrement (s : State) (pid slot gen : Nat) : State :=
  let p : PSlot := Tab.get ⟨0, none⟩ (s.coreAt pid).ptasks slot
  match p.task with
  | some t =>
    if p.gen % 2 ^ 16 = gen ∧ t.cnt ≠ 0 then
      s.setPending pid slot { p with task := some { t with cnt := t.cnt - 1 } }
    else s.modCoreAt pid Core.dead
  | none => s.modCoreAt pid Core.dead

/-- PENDING_RECORD_RELEASE: a record at zero moves to the bottom of the deque when it has room (08 R215). -/
def execPendingRecordRelease (core slot : Nat) (s : State) : Out :=
  let p : PSlot := Tab.get ⟨0, none⟩ (s.coreAt core).ptasks slot
  .next (match p.task with
    | none => s
    | some t =>
      let l := s.launchOr t.launch
      if t.cnt ≠ 0 ∨ s.dequeFull core l then s
      else
        let u := { t with id := s.taskId (dieOf core) l.det t.path, since := s.time }
        ((s.nextTaskId (dieOf core) l.det).setPending core slot { p with task := none }).setDeque core (u :: (s.coreAt core).deque))

end Sys2Proof.Machine
end

