-- ==== Sys2Proof/Machine/Boundary.lean ====
section
/-! DEFINITION. What lands at the boundary between two instructions of a context: effects that have become pending (03 R81; 06
R155; 09 R231; 15 R346; 16 R367; 24 R436), WATCHDOG (08 R202), PREEMPT (08 R224, 21 R404), MIGRATE (22 R421), and writes from
other cores (21 R415). Then the faults of a fetch, and map changes (21 R413). -/

namespace Sys2Proof.Machine

/-! ## Boundaries -/

/-- Whether the context stands between two instructions: it is occupied, owes no answer to the instruction at its PC, and, for a
low context, SH does not hold the core (08 R201). -/
def State.between (s : State) (pid cx : Nat) : Bool :=
  (match (s.ctxAt pid cx).run with
    | .free => false
    | .stalled .reply => false
    | .parked .reply => false
    | .parked (.wmEnd _ _) => false
    | .stalled (.wmEnd _ _) => false
    | .parked .seen => false
    | _ => true)
  && (cx == 4 || (s.ctxAt pid 4).run == .free)

/-- Whether the delivery of an effect can take the state of a context: every presence bit is set, and what the delivery reads and writes
is free (06 R152, R166). -/
def State.captures (s : State) (pid cx : Nat) (r : Raise) : Bool := (s.ctxAt pid cx).regs.allPresent && !s.deliveryHeld pid cx r

/-- A packet of an activation after its barrier wait is given up: the arrival stays, the registration goes (09 R248). -/
def cancelWait (act : Nat) (p : Pkt) : Option Pkt :=
  if p.sact = act then
    match p.body with
    | .bar slot (.wait _ true) => some { p with body := .bar slot .arrive }
    | .bar _ (.wait _ false) => none
    | _ => some p
  else some p

/-- The context leaves the wait it is in, since an effect lands on it: a barrier registration is cancelled, its arrival is not
(09 R248). -/
def State.unpark (s : State) (pid cx : Nat) : State :=
  let c := s.ctxAt pid cx
  match c.run with
  | .parked .barrier =>
    let t := { s with
      cores := s.cores.map (fun (e : Nat × Core) => (e.1, { e.2 with bars := e.2.bars.map (fun (b : Nat × Bar) =>
        (b.1, { b.2 with waiters := b.2.waiters.filter (fun w => w.act != c.act) })) }))
      net := { s.net with
        pkts := s.net.pkts.filterMap (cancelWait c.act)
        held := s.net.held.filterMap (fun (h : HeldPkt) => (cancelWait c.act h.pkt).map (fun p => { h with pkt := p })) } }
    t.modCtxAt pid cx (fun c => { c with asBarw := true })
  | _ => s

/-- Whether an asynchronous effect is held: the context is in its system handler (06 R155). -/
def State.holdsEffect (s : State) (pid cx : Nat) (r : Raise) : Bool :=
  Eff.system r.eff && (s.ctxAt pid cx).sysBusy && (s.coreAt pid).shandler != 0

/-- An asynchronous effect lands: its continuation is the instruction that would have issued next. One that is held leaves the context
in the wait it is in. -/
def State.landEffect (s : State) (pid cx : Nat) (r : Raise) : State :=
  let t := if s.holdsEffect pid cx r then s else s.unpark pid cx
  let pc := (t.ctxAt pid cx).pc
  t.deliver pid cx r pc pc true false none

/-- The effect that lands first at the next boundary of a context: a RESUMED still to be sought, a held system effect, the oldest
pending one (06 R155, 21 R408). -/
inductive Due where
  | resumed (r : Raise)
  | held (r : Raise)
  | pend (p : Pend)
  | nothing

def Ctx.due (c : Ctx) : Due :=
  match c.resumed with
  | some r => .resumed r
  | none => match c.sysBusy, c.held with
    | false, r :: _ => .held r
    | _, _ => match c.pend with
      | p :: _ => .pend p
      | [] => .nothing

/-- The effect that is due. -/
def Ctx.dueRaise (c : Ctx) : Raise :=
  match c.due with
  | .resumed r => r
  | .held r => r
  | .pend p => p.raise
  | .nothing => { eff := 0 }

def Ctx.settled (c : Ctx) : Bool := match c.due with
  | .nothing => true
  | _ => false

/-- The first due effect lands; one lands at each boundary. -/
def State.landDue (s : State) (pid cx : Nat) : State :=
  match (s.ctxAt pid cx).due with
  | .resumed r => (s.modCtxAt pid cx (fun c => { c with resumed := none })).landEffect pid cx r
  | .held r => (s.modCtxAt pid cx (fun c => { c with held := c.held.drop 1 })).landEffect pid cx r
  | .pend p => (s.modCtxAt pid cx (fun c => { c with pend := c.pend.drop 1 })).landEffect pid cx p.raise
  | .nothing => s

/-- The pending effect of a kind lands, if it is the one that is due. -/
def State.landKind (s : State) (pid cx kind : Nat) : State :=
  match (s.ctxAt pid cx).due with
  | .pend p => if p.kind = kind ∧ s.between pid cx = true ∧ s.captures pid cx p.raise = true then s.landDue pid cx else s
  | _ => s

/-- NUMERIC_DEFERRED (03 R81). -/
def execNumericDeferred (core cx : Nat) (s : State) : Out := .next (s.landKind core cx Eff.numeric)
/-- MEMERR_DEFERRED (16 R367, 17 R393, 24 R436). -/
def execMemerrDeferred (core cx : Nat) (s : State) : Out := .next (s.landKind core cx Eff.memerr)
/-- DEADMSG (09 R231). -/
def execDeadmsg (core cx : Nat) (s : State) : Out := .next (s.landKind core cx Eff.deadmsg)
/-- COPYFAIL (15 R346). -/
def execCopyfail (core cx : Nat) (s : State) : Out := .next (s.landKind core cx Eff.copyfail)
/-- COPYFAULT (15 R346). -/
def execCopyfault (core cx : Nat) (s : State) : Out := .next (s.landKind core cx Eff.copyfault)
/-- PEER_STORE_PERM (24 R436). -/
def execPeerStorePerm (core cx : Nat) (s : State) : Out := .next (s.landKind core cx Eff.perm)

/-- HELD_SYSTEM_EFFECT: the oldest held effect, once the system BUSY bit is clear (06 R155). -/
def execHeldSystemEffect (core cx : Nat) (s : State) : Out :=
  .next (match (s.ctxAt core cx).due with
    | .held r => if s.between core cx && s.captures core cx r then s.landDue core cx else s
    | _ => s)

/-! ## WATCHDOG (08 R202) -/

/-- When SH last issued, if the instruction that it waits at is CTXSAVE or CTXLOAD (21 R407). -/
def State.inSave (s : State) (pid : Nat) : Option Nat :=
  match (s.ctxAt pid 4).run with
  | .stalled _ => if ((s.nextWord pid 4).map saveWord).getD false then some (Tab.get 0 (s.coreAt pid).issued 4) else none
  | _ => none

/-- The time that SH has spent in the CTXSAVE or CTXLOAD that it waits at since it last tried to issue it (21 R407). -/
def State.saveTime (s : State) (pid : Nat) : Nat :=
  match s.inSave pid with
  | some t => if (s.ctxAt pid 4).sysBusy then 0 else s.time - t
  | none => 0

/-- Core cycles that the activation in SH has run outside the system handler and outside CTXSAVE and CTXLOAD (08 R202, 21 R407). -/
def State.shCycles (s : State) (pid : Nat) : Nat := (s.time - (s.ctxAt pid 4).shFrom - s.saveTime pid) / Config.coreTicks pid

/-- Whether WATCHDOG is due at the boundary where SH stands (08 R202). -/
def State.watchdogDue (s : State) (pid : Nat) : Bool :=
  let c := s.ctxAt pid 4
  s.between pid 4 && !c.sysBusy && c.settled && decide (10000 < s.shCycles pid)

def State.landWatchdog (s : State) (pid : Nat) : State := s.landEffect pid 4 { eff := Eff.watchdog, arg := W (s.shCycles pid) }

def execWatchdog (core : Nat) (s : State) : Out := .next (if s.watchdogDue core && (s.ctxAt core 4).regs.allPresent then s.landWatchdog core else s)

/-! ## PREEMPT (08 R224, 21 R404) -/

/-- Whether the PREEMPT requested for a low context may be delivered at all. -/
def State.preemptOpen (s : State) (pid cx : Nat) : Bool :=
  let c := s.ctxAt pid cx
  cx < 4 && (s.coreAt pid).rq.getLsbD cx && s.between pid cx && c.settled && !c.sysBusy && !c.masked s.time

/-- Whether every result of a context has landed, so that an effect can take its state (06 R152). -/
def State.landed (s : State) (pid cx : Nat) : Bool := (s.ctxAt pid cx).regs.allPresent

/-- Whether it stands at a point where PREEMPT lands: a switch point, parked there or about to issue it. -/
def State.preemptPoint (s : State) (pid cx : Nat) : Bool :=
  match (s.ctxAt pid cx).run with
  | .parked _ => true
  | _ => ((s.nextWord pid cx).map switchPoint).getD false

/-- Whether 2,000 core cycles have passed since it was raised. -/
def State.preemptLate (s : State) (pid cx : Nat) : Bool :=
  match (s.ctxAt pid cx).preemptAt with
  | some t => decide (t + 2000 * Config.coreTicks pid ≤ s.time)
  | none => false

def State.landPreempt (s : State) (pid cx : Nat) : State :=
  let t := (s.modCoreAt pid (fun k => { k with rq := setBit k.rq cx false })).modCtxAt pid cx (fun c => { c with preemptAt := none })
  t.landEffect pid cx { eff := Eff.preempt, arg := W (s.coreAt pid).rsn }

/-- PREEMPT at a switch point. -/
def execPreempt (core cx : Nat) (s : State) : Out :=
  .next (if s.preemptOpen core cx && s.landed core cx && s.preemptPoint core cx then s.landPreempt core cx else s)

/-- PREEMPT_FORCED: at any boundary, 2,000 core cycles after it was raised. -/
def execPreemptForced (core cx : Nat) (s : State) : Out :=
  .next (if s.preemptOpen core cx && s.landed core cx && s.preemptLate core cx then s.landPreempt core cx else s)

/-! ## MIGRATE (09 R250, 22 R421) -/

/-- Whether a pending MIGRATE is performed before the next instruction. -/
def State.migrateDue (s : State) (pid cx : Nat) : Bool :=
  let c := s.ctxAt pid cx
  c.migp.isSome && (match c.run with
    | .parked _ => false
    | _ => true) && s.between pid cx && c.settled && !c.sysBusy && !(s.clusterOfCore pid).opened
  && ((s.nextWord pid cx).map groupBoundary).getD false

/-- The target stays reserved while the MIGRATE is handled (22 R422, R424). -/
def State.landMigrate (s : State) (pid cx : Nat) : State :=
  match (s.ctxAt pid cx).migp with
  | none => s
  | some (_, target) =>
    let r : Raise := { eff := Eff.migrate, arg := W ((s.clusterOfCore pid).temp % 2 ^ 12 * 2 ^ 16 + target % 2 ^ 11) }
    (s.modCtxAt pid cx (fun c => { c with migp := none, reserve := some target })).landEffect pid cx r

def execMigrate (core cx : Nat) (s : State) : Out := .next (if s.migrateDue core cx && s.landed core cx then s.landMigrate core cx else s)

/-! ## Everything that must land before an instruction issues -/

/-- A context waits at a boundary for what the capture of an effect needs, as an instruction that reads every register would: it parks
where the instruction at its PC has S = 1 (06 R152, 01 R13). -/
def State.waitCapture (s : State) (pid cx : Nat) : State :=
  let c := s.ctxAt pid cx
  let w : Wait := if c.regs.allPresent then .drain else .presence
  let parks := cx != 4 && ((s.nextWord pid cx).map (fun n => bitOf n 0)).getD false
  match c.run with
  | .runnable =>
    let t := s.modCtxAt pid cx (fun c => { c with run := if parks then .parked w else .stalled w, since := s.time })
    if parks then t.modCoreAt pid (fun k => { k with cur := t.nextRunnable pid cx }) else t
  | _ => s

/-- Whether SH takes a priority-1 message now (08 R201). -/
def State.shDue (s : State) (pid : Nat) : Bool := s.shOpen pid && ((s.coreAt pid).choose true).isSome

/-- What comes at a boundary before the next instruction issues, if anything does: SH takes a priority-1 message; due effects, WATCHDOG,
PREEMPT and MIGRATE land, or are waited for; the core moves to a context that has not issued for 64 cycles (08 R201, R205). -/
def State.boundary (s : State) (pid cx : Nat) : Option State :=
  let c := s.ctxAt pid cx
  let land := fun (ok : Bool) (t : State) => some (if ok then t else s.waitCapture pid cx)
  if cx < 4 && s.shDue pid then some (s.enterSh pid)
  else if !c.settled then land (s.captures pid cx c.dueRaise) (s.landDue pid cx)
  else if cx = 4 ∧ s.watchdogDue pid = true then land (s.landed pid 4) (s.landWatchdog pid)
  else if s.preemptOpen pid cx && (s.preemptPoint pid cx || s.preemptLate pid cx) then land (s.landed pid cx) (s.landPreempt pid cx)
  else if s.migrateDue pid cx then land (s.landed pid cx) (s.landMigrate pid cx)
  else if cx < 4 then (s.starving pid).map (fun n => s.modCoreAt pid (fun k => { k with cur := n }))
  else none

/-! ## Writes from other cores (21 R415) -/

/-- SYSWR_APPLY: ask i is applied at the target context's boundary, after the earlier ones of its context to that core; a write to a
free context is discarded. -/
def execSyswrApply (i : Nat) (s : State) : Out :=
  .next (match takeAt s.net.asks i with
    | none => s
    | some (a, rest) => match a.ask with
      | .sysWr core cx reg v =>
        let earlier := (s.net.asks.take i).any (fun b => b.pid == a.pid && b.cx == a.cx && (match b.ask with
          | .sysWr c _ _ _ => c == core
          | _ => false))
        let done := s.modNet (fun n => { n with asks := rest })
        if earlier then s
        else if reg = 0x101 then done.writePreq core v
        else if reg ≠ 0x100 then done
        else if (s.ctxAt core cx).run == .free then done
        else if s.between core cx then done.modCtxAt core cx (fun c => c.write reg v)
        else s
      | _ => s)

/-! ## Map changes (21 R413) -/

/-- Packets held for a logical id leave in order to the core that it names now. -/
def State.releaseHeld (s : State) (launch lid core : Nat) : State :=
  let mine := s.net.held.filter (fun h => h.launch == launch && h.lid == lid)
  s.modNet (fun n => { n with
    held := n.held.filter (fun h => !(h.launch == launch && h.lid == lid))
    pkts := n.pkts ++ mine.map (fun h => { h.pkt with dst := core }) })

/-- Whether an activation of a launch is being moved away from a core (22 R423). -/
def State.moving (s : State) (pid launch : Nat) : Bool :=
  [0, 1, 2, 3].any (fun cx => (s.ctxAt pid cx).reserve.isSome && (s.ctxAt pid cx).ident.launch.toNat == launch)

/-- Packets to a logical id that its map change overtakes: they are delivered once, at the core that it names when it is mapped again.
They come before those that the change holds; packets to an id that is parked where it stands, with no move going on, still arrive:
DEDUCED (08 R213, 21 R407, 22 R425; log 75). -/
def State.overtake (s : State) (launch lid old core : Nat) (on : Bool) : State :=
  let mine := fun (p : Pkt) => p.to_ == some (launch, lid) && p.dst == old
  let again := fun (p : Pkt) => { p with dst := core, waits := false }
  if on then
    if old = core ∧ s.moving old launch = false then s
    else s.modNet (fun n => { n with
      pkts := n.pkts.filter (fun p => !mine p), held := (n.pkts.filter mine).map (fun p => ⟨launch, lid, again p⟩) ++ n.held })
  else if old = core then s
  else s.modNet (fun n => { n with pkts := n.pkts.map (fun p => if mine p then again p else p) })

/-- MAP_CHANGE: the lead die applies the map change of ask i on every die; held traffic leaves when the id is mapped again, and a
reservation for a move ends (22 R424). -/
def execMapChange (i : Nat) (s : State) : Out :=
  .next (match takeAt s.net.asks i with
    | none => s
    | some (a, rest) => match a.ask with
      | .mapLid d launch lid entry =>
        if !s.sys.lval then s
        else
          let (core, parked) := s.resolve launch lid
          let on := bitOf entry 63
          let target := entry % 2 ^ 11
          let t := (s.modNet (fun n => { n with asks := rest })).modLaunch launch (fun l => { l with map := Tab.set l.map lid (target, on) })
          let v := t.overtake launch lid core target on
          let u := if on then v else v.releaseHeld launch lid target
          u.answer a.pid a.cx a.act (fun c => { c.setG d (W (core % 2 ^ 11 + b2n parked * 2 ^ 63)) with
            reserve := if !on && c.reserve == some target then none else c.reserve })
      | _ => s)

/-! ## Instructions that cannot be fetched or decoded -/

/-- UNASSIGNED_ENCODING: ILLEGAL at the instruction (04 R107). -/
def execUnassignedEncoding (w : BitVec 32) (s : State) : Out := issue s (w.getLsbD 0) 4 (Act.raise (illegal 0))

/-- FETCH_FAULT: PAGE, PERM or MEMERR at the instruction (01 R17). -/
def execFetchFault (e : BitVec 12) (arg addr : Word) (s : State) : Out :=
  issue s false 4 (Act.raise { eff := e.toNat, arg := arg, addr := addr })

end Sys2Proof.Machine
end

