-- ==== Sys2Proof/Machine/Arrival.lean ====
section
/-! DEFINITION. Arrivals at a core's NI: messages with their landing transforms (15 R353 to R355), mailbox writes (09 R234),
decrements, negative responses, subscriptions (09 R232), reservations (05 R134), and the join decrements of ended tasks
(08 R219, R457). -/

namespace Sys2Proof.Machine

/-! ## Landing transforms (15 R353 to R355) -/

/-- DEQUANT (15 R354): none for a header that breaks its limits. -/
def dequant (data : List Byte) : Option (List Byte) :=
  let b := fun i => (data.getD i 0).toNat
  let fmt := b 0
  let g := b 1
  let mode := b 2 % 8
  if fmt < 8 ∨ 11 < fmt ∨ g = 0xFF ∨ 16 ≤ b 2 ∨ 4 < mode ∨ (data.take 64).drop 3 ≠ List.replicate 61 0 then none
  else
    let scaled := fun (e : Nat) => match numOf fmt e with
      | .fin x => roundNum 12 mode (bitOf (b 2) 3) 0 (.fin (x.scale ((g : Int) - 127)))
      | x => roundNum 12 mode (bitOf (b 2) 3) 0 x
    some ((data.drop 64).flatMap (fun e => bytesOf 2 (scaled e.toNat).code))

/-- DPEXP (15 Table 15.10). -/
def dpexp (data : List Byte) : List Byte := data.flatMap (fun e => bytesOf 2 (wrapTo 16 (dp8 e.toNat)))

/-- One EXPDEC group: its 64 bytes and its length; none for a malformed one (15 R355). An element lands as the bits that R355 assembles,
also where they are a NaN other than the canonical one: DESIGN CHOICE (log 74). -/
def expGroup (data : List Byte) : Option (List Byte × Nat) :=
  let h := natOf (data.take 2)
  let bf := bitOf h 15
  let k := bitsOf h 11 8
  let e0 := bitsOf h 7 0
  let m := if bf then 8 else 11
  let n := 4 * (m + k)
  let bits := natOf ((data.drop 2).take n)
  let es := (List.range 32).map (fun i =>
    (bits / 2 ^ (m * i) % 2 ^ m, e0 + bits / 2 ^ (32 * m + k * i) % 2 ^ k))
  if bitsOf h 14 12 ≠ 0 ∨ 8 < k ∨ data.length < 2 + n ∨ es.any (fun e => decide ((if bf then 255 else 31) < e.2)) then none
  else some (es.flatMap (fun e => bytesOf 2 (e.1 / 2 ^ (m - 1) * 2 ^ 15 + e.2 * 2 ^ (m - 1) + e.1 % 2 ^ (m - 1))), 2 + n)

/-- EXPDEC over at most n groups: the bytes, and whether it stopped on an error (15 R355). -/
def expdec : Nat → List Byte → List Byte × Bool
  | 0, _ => ([], false)
  | n + 1, data =>
    if data.length < 2 ∨ natOf (data.take 2) = 0xFFFF then ([], false)
    else match expGroup data with
      | none => ([], true)
      | some (out, len) =>
        let (rest, bad) := expdec n (data.drop len)
        (out ++ rest, bad)

/-- A transformed payload, and whether decoding stopped on an error (15 Table 15.10). -/
def transform (xf : Nat) (data : List Byte) : List Byte × Bool :=
  if xf = 1 then match dequant data with
    | some b => (b, false)
    | none => ([], true)
  else if xf = 2 then (dpexp data, false)
  else if xf = 4 then expdec data.length data
  else (data, false)

/-- ADDF32: rows added through the bank adders, in ascending order; a row in error is left (15 Table 15.10). -/
def State.addRows (s : State) (pid : Nat) : Nat → List (List Byte) → State
  | _, [] => s
  | a, row :: l =>
    let k := spadKey pid a
    let t := if s.bad k 64 then s.errorAt k
      else s.wr k (bytesOf 64 (bankRow 1 0 false (2 ^ 16 - 1) (s.rdN k 64) (natOf row)).1)
    t.addRows pid (a + 64) l

/-! ## Messages (08 R198, 09 R229) -/

/-- A message as its receiver takes it: an MCAST copy has the channel and generation of the receiver's match table (09 R233). -/
def Core.received (k : Core) (m : Msg) : Option Msg :=
  match m.cast with
  | false => some m
  | true => (k.subs.find? (fun e => e.tag == fld m.desc 31 20)).map (fun e => { m with chan := e.chan, gen := e.gen, cast := false })

/-- The landing of an accepted message, then its place on its channel (09 R229, 15 R353). A landing past the scratchpad is a dead
letter (09 R231). -/
def State.landMessage (s : State) (pid : Nat) (m : Msg) (xf addr : Nat) (data : List Byte) : State :=
  let (out, bad) := transform xf data
  if Config.spadBytes < addr + out.length then s.deadLetter pid m
  else
    let t := if xf = 5 then s.addRows pid addr (chunks 64 (out.length / 64) out) else s.wr (spadKey pid addr) out
    if m.act then
      let count := W (out.length + if bad then 2 ^ 63 else 0)
      (t.modCoreAt pid (fun k => { k with pending := k.pending ++ [{ m with payload := [W addr, count] }] })).wakeIdle pid
    else (if bad then t.modCoreAt pid (fun k => { k with deccnt := k.deccnt + 1 }) else t).wakeIdle pid

/-- Whether a landing must wait for a copy's watermark (10 R267). -/
def State.landingMarked (s : State) (pid xf addr : Nat) (data : List Byte) : Bool :=
  s.marked pid addr (transform xf data).1.length

/-- MESSAGE_ARRIVAL: a message is accepted, landed, held for earlier siblings, or dropped (08 R198, R220; 09 R229, R231). -/
def execMessageArrival (i : Nat) (s : State) : Out :=
  .next (match s.arriving i with
    | none => s
    | some (p, t) => match p.body with
      | .msg m0 =>
        if 32 ≤ (t.coreAt p.dst).pending.length then s.holdArrival i
        else match (t.coreAt p.dst).received m0 with
          | none => t
          | some m =>
            if (t.coreAt p.dst).stale m then t.deadLetter p.dst m
            else match m.land with
              | none => (t.modCoreAt p.dst (fun k => { k with pending := k.pending ++ [m] })).wakeIdle p.dst
              | some (xf, addr, data) =>
                if t.landingMarked p.dst xf addr data then s.holdArrival i
                else match m.sib with
                  | some x =>
                    if xf = 5 && t.sibHeld x then
                      t.modNet (fun n => { n with lands := n.lands ++ [⟨p.dst, { p with body := .msg m }, x⟩] })
                    else t.landMessage p.dst m xf addr data
                  | none => t.landMessage p.dst m xf addr data
      | _ => s)

/-- DETERMINISTIC_HOLD_RELEASE: held landing i is applied once no earlier sibling is left (08 R220). -/
def execDeterministicHoldRelease (i : Nat) (s : State) : Out :=
  .next (match takeAt s.net.lands i with
    | none => s
    | some (h, rest) => match h.pkt.body with
      | .msg m => match m.land with
        | some (xf, addr, data) =>
          if s.sibHeld h.sib || (m.act && 32 ≤ (s.coreAt h.core).pending.length) || s.landingMarked h.core xf addr data then s
          else (s.modNet (fun n => { n with lands := rest })).landMessage h.core m xf addr data
        | none => s
      | _ => s)

/-- BOUND_QUEUE_PUSH: pending message i of a core goes to its bound queue, in its channel's order (08 R199). -/
def execBoundQueuePush (core i : Nat) (s : State) : Out :=
  let k := s.coreAt core
  .next (match takeAt k.pending i with
    | none => s
    | some (m, rest) =>
      let h := k.slot m.chan
      if k.stale m then (s.modCoreAt core (fun k => { k with pending := rest })).deadLetter core m
      else if h.msk || h.qb < 12 || (k.pending.take i).any (fun x => x.chan == m.chan)
          || 16 < (Tab.get [] k.qs h.qb).length + m.payload.length then s
      else (s.modCoreAt core (fun k => { k with pending := rest })).push core 0 h.qb m.payload)

/-- DEADMSG_RESPONSE: the sender's DEADMSG becomes pending; a sender that has ended gets none (09 R231). -/
def execDeadmsgResponse (i : Nat) (s : State) : Out :=
  .next (match takeAt s.net.nacks i with
    | none => s
    | some (n, rest) => (s.modNet (fun net => { net with nacks := rest })).addPend n.act ⟨Eff.deadmsg, n.raise⟩)

/-! ## Mailboxes (09 R234, 05 R134) -/

/-- A WAITM on a mailbox has seen its presence bit set: it completes, whoever takes the value (05 R135, 09 R251). -/
def Ctx.seeMailbox (c : Ctx) (m : Nat) : Ctx :=
  match c.run with
  | .parked (.mbox n) => if n = m then { c with run := .parked .seen } else c
  | _ => c

/-- A write lands in its mailbox; every WAITM on it, in place or spilled, has seen it (09 R251, R252). -/
def State.landMailbox (s : State) (pid m : Nat) (v : Word) : State :=
  let t := s.modCoreAt pid (fun k => { k with m := k.m.set! m v, mp := setBit k.mp m true })
  let u := [0, 1, 2, 3].foldl (fun s cx => match (s.ctxAt pid cx).run with
    | .parked (.mbox _) => s.modCtxAt pid cx (fun c => c.seeMailbox m)
    | _ => s) t
  { u with saved := u.saved.map (fun (v : Saved) => if v.pid = pid ∧ v.slot.isSome then { v with hid := v.hid.seeMailbox m } else v) }.wakeIdle pid

/-- MAILBOX_WRITE_ARRIVAL: the write lands, or waits in the store. One that waits has not arrived at its mailbox: it ends no IDLE park
until it lands: DESIGN CHOICE (log 67). -/
def execMailboxWriteArrival (i : Nat) (s : State) : Out :=
  .next (match s.arriving i with
    | none => s
    | some (p, t) => match p.body with
      | .mailbox m v =>
        let k := t.coreAt p.dst
        if !k.mp.getLsbD m && !k.mbStore.any (fun e => e.1 == m) then t.landMailbox p.dst m v
        else t.modCoreAt p.dst (fun k => { k with mbStore := k.mbStore ++ [(m, v)] })
      | _ => s)

/-- MAILBOX_STORE_LANDING: the oldest waiting write of a mailbox whose presence is clear. -/
def execMailboxStoreLanding (core : Nat) (m : Reg) (s : State) : Out :=
  let k := s.coreAt core
  .next (if k.mp.getLsbD m.toNat then s
    else match k.mbStore.findIdx? (fun e => e.1 == m.toNat) with
      | none => s
      | some j => match takeAt k.mbStore j with
        | none => s
        | some (e, rest) => (s.modCoreAt core (fun k => { k with mbStore := rest })).landMailbox core e.1 e.2)

/-- MTAKE_SERVICE: reservation i of a core is served: an MTAKE in its turn, with every MPEEK of the mailbox, which takes the first
value present (05 R134). -/
def execMtakeService (core i : Nat) (s : State) : Out :=
  let k := s.coreAt core
  .next (match takeAt k.takes i with
    | none => s
    | some (t, rest) =>
      if !k.mp.getLsbD t.m then s
      else
        let v := k.m[t.m]?.getD 0
        if t.peek then (s.modCoreAt core (fun k => { k with takes := rest })).serve core t v
        else if (k.takes.take i).any (fun x => x.m == t.m && !x.peek) then s
        else ((s.modCoreAt core (fun k => { k with takes := rest })).serve core t v).emptyMailbox core t.m)

/-! ## Subscriptions and decrements -/

/-- SUBSCRIPTION_UPDATE: the routers of the die take the join or leave of ask i, and the SUBTAG completes (09 R232). -/
def execSubscriptionUpdate (i : Nat) (s : State) : Out :=
  .next (match takeAt s.net.asks i with
    | none => s
    | some (a, rest) => match a.ask with
      | .subTag on tag =>
        let t := s.modNet (fun n => { n with asks := rest })
        (t.modDieAt (dieOf a.pid) (fun d => { d with
          routers := d.routers.filter (fun e => e != (tag, a.pid)) ++ if on then [(tag, a.pid)] else [] })).answer a.pid a.cx a.act id
      | _ => s)

/-- DECREMENT_ARRIVAL (09 R239). -/
def execDecrementArrival (i : Nat) (s : State) : Out :=
  .next (match s.arriving i with
    | none => s
    | some (p, t) => match p.body with
      | .dec slot gen => t.decrement p.dst slot gen
      | _ => s)

/-! ## The join decrement of an ended task (08 R219, R457) -/

/-- A failed decrement is reported as a failure of the ended task (08 R457). -/
def State.joinFailed (s : State) (j : JoinDec) (eff : Nat) : State :=
  let lid := ((s.launch? j.launch).map (fun l => l.lowestLid j.pid)).getD 0
  let t := s.modLaunch j.launch (fun l => l.fail eff 0 j.join lid)
  if eff = Eff.memerr then t.logEvent .uncorrectable (2 + dieOf j.pid) j.join.toNat 0 else t

/-- Whether a join counter cannot be reached now: above a watermark, in a stack that is not ready, behind a port that is down, or not yet
the same in every replica. -/
def State.counterHeld (s : State) (h : Home) : Bool :=
  match h with
  | .spad p off => s.marked p off 8
  | h => s.repOpen h 8 || s.keyHeld h.key || (s.homeLost h && !s.homeDown h)

/-- TASK_JOIN_DECREMENT: ended task i, once what it issued has been carried out. -/
def execTaskJoinDecrement (i : Nat) (s : State) : Out :=
  .next (match takeAt s.net.joins i with
    | none => s
    | some (j, rest) =>
      let done := s.modNet (fun n => { n with joins := rest })
      if s.outstanding j.act then s
      else if j.join = 0 then done
      else match s.locate j.pid j.ptroot j.sup .rmw j.join 8 true true with
        | .error r => done.joinFailed j r.eff
        | .ok (h, _) =>
          if s.counterHeld h then s
          else if s.homeDown h || s.homeBad h 8 then done.joinFailed j Eff.memerr
          else if !s.canPut h 8 .other then s.heldInstall h 8 .other
          else done.put h (bytesOf 8 (natOf (s.homeBytes h 8) + 2 ^ 64 - 1)) .other)

end Sys2Proof.Machine
end

