-- ==== Sys2Proof/Machine/Atomic.lean ====
section
/-! DEFINITION. Atomics, ordered accesses and fences (12 R308 to R313), tile instructions (R314 to R319) and version
instructions (R320 to R328). -/

namespace Sys2Proof.Machine

/-! ## Atomics and orders -/

/-- AMO (12 R308, R309): checked at issue, carried out at its home. Every scope is given as the widest, which 11 R297 allows. -/
def amoOp (s : State) (sp : Bool) (r : Order) (d a b : Reg) (op : Nat) : Out :=
  issue s sp 4 (do
    Act.gate
    let ea ← Act.rdG a
    let y ← Act.rdG b
    Act.interlock (.g d)
    let c ← Act.ctx
    let rm := fld c.num.vt 6 4
    Act.check (9 ≤ op && 5 ≤ rm) (illegal c.num.vt)
    let n := if op = 9 then 4 else 8
    let (h, x) ← Act.place .rmw false ea n true true
    Act.pendDest (.g d)
    Act.rmw h n (.amo op y rm (fld c.num.flagen 6 0) d) (ordRel r) (ordAcq r) s.here x)

def execAmoAdd (sp : Bool) (_k : Scope) (r : Order) (d a b : Reg) (s : State) : Out := amoOp s sp r d a b 0
def execAmoAnd (sp : Bool) (_k : Scope) (r : Order) (d a b : Reg) (s : State) : Out := amoOp s sp r d a b 1
def execAmoOr (sp : Bool) (_k : Scope) (r : Order) (d a b : Reg) (s : State) : Out := amoOp s sp r d a b 2
def execAmoXor (sp : Bool) (_k : Scope) (r : Order) (d a b : Reg) (s : State) : Out := amoOp s sp r d a b 3
def execAmoMin (sp : Bool) (_k : Scope) (r : Order) (d a b : Reg) (s : State) : Out := amoOp s sp r d a b 4
def execAmoMax (sp : Bool) (_k : Scope) (r : Order) (d a b : Reg) (s : State) : Out := amoOp s sp r d a b 5
def execAmoMinu (sp : Bool) (_k : Scope) (r : Order) (d a b : Reg) (s : State) : Out := amoOp s sp r d a b 6
def execAmoMaxu (sp : Bool) (_k : Scope) (r : Order) (d a b : Reg) (s : State) : Out := amoOp s sp r d a b 7
def execAmoSwap (sp : Bool) (_k : Scope) (r : Order) (d a b : Reg) (s : State) : Out := amoOp s sp r d a b 8
def execAmoFadd32 (sp : Bool) (_k : Scope) (r : Order) (d a b : Reg) (s : State) : Out := amoOp s sp r d a b 9
def execAmoFadd64 (sp : Bool) (_k : Scope) (r : Order) (d a b : Reg) (s : State) : Out := amoOp s sp r d a b 10

/-- CAS (12 R310). -/
def execCas (sp : Bool) (_k : Scope) (r : Order) (d a b : Reg) (s : State) : Out :=
  issue s sp 4 (do
    Act.gate
    let e ← Act.rdG d
    let ea ← Act.rdG a
    let y ← Act.rdG b
    let (h, x) ← Act.place .rmw false ea 8 true true
    Act.pendDest (.g d)
    Act.rmw h 8 (.cas e y d) (ordRel r) (ordAcq r) s.here x)

/-- LDA (12 R312); a sequentially consistent load follows every earlier access of the context (11 R301). -/
def execLda (sp : Bool) (k : Scope) (r : Order) (z : Size) (d a : Reg) (s : State) : Out :=
  issue s sp 4 (do
    let ea ← Act.rdG a
    if r = .sc then Act.drain else pure ()
    let n := (← get).net.reqs.length
    Act.load s.here ea z.bytes false d (a == 31) true
    Act.upd (fun t => t.modNet (fun m => { m with reqs := updAt (fun q => { q with fresh := k == .sys }) m.reqs n })))

def execStl (sp : Bool) (_k : Scope) (_r : Order) (z : Size) (d a : Reg) (s : State) : Out :=
  issue s sp 4 (do
    let ea ← Act.rdG a
    let v ← Act.rdG d
    Act.store s.here ea z.bytes v (a == 31) true)

/-- FENCE (11 R300): the context waits until its earlier accesses are performed, the strongest of the orders. -/
def execFence (sp : Bool) (_k : Scope) (_r : Order) (s : State) : Out := issue s sp 4 Act.drain

/-! ## Tiles -/

/-- Whether an engine command that names a tile has still to finish (12 R315). -/
def Core.tileNamed (k : Core) (n : Nat) : Bool :=
  k.unit.mat.cmds.any (fun c => c.names.contains n) || k.unit.rank.cmds.any (fun c => c.names.contains n)

/-- A change of a tile record waits for earlier instructions that name it (12 R315). -/
def Act.tileFree (n : Nat) : Act Tile := do
  let k ← Act.core
  Act.waitIf (k.tileNamed n) (.tile n)
  return k.tile n

def Tile.settled (t : Tile) : Bool := t.fch == 0 && t.dcnt == 0

def execTdef (sp : Bool) (d a : Reg) (s : State) : Out :=
  issue s sp 4 (do
    let x ← Act.rdG a
    Act.check (x.toNat % 32 != 0) (alignFault x)
    Act.check (Config.spadBytes < x.toNat + 32) (illegal x)
    let w := bytesWords 4 (← Act.readSpad s.here x.toNat 32)
    let t := Tile.ofWords w
    Act.check (!tileOk w || t.state % 2 == 1) (illegal x)
    let old ← Act.tileFree d.toNat
    Act.waitIf (!old.settled) (.tile d.toNat)
    Act.updCore (fun k => k.setTile d.toNat { t with fch := 0, dcnt := 0 }))

def execTset (sp : Bool) (d : Reg) (s : State) : Out :=
  issue s sp 4 (do
    let t ← Act.tileFree d.toNat
    Act.waitIf (t.state % 2 == 1 && !t.settled) (.tile d.toNat)
    Act.updCore (fun k => k.setTile d.toNat { t with state := 2, failed := false }))

def execTwait (sp : Bool) (d a : Reg) (s : State) : Out :=
  issue s sp 4 (do
    let t := (← Act.core).tile a.toNat
    Act.waitIf (t.state % 2 == 1) (.tile a.toNat)
    Act.wrG d (W t.state))

def execTrel (sp : Bool) (d : Reg) (s : State) : Out :=
  issue s sp 4 (do
    let t ← Act.tileFree d.toNat
    Act.waitIf (!t.settled) (.tile d.toNat)
    Act.updCore (fun k => k.setTile d.toNat { t with state := 0, failed := false }))

/-! ## Versions -/

/-- SNAPLOST (12 R326): the log is emptied and the snapshot closed, RVK stays, and the effect is performed at the
instruction. -/
def Act.snapLost (here ea : Word) : Act Unit := do
  Act.waitIf (!(← Act.ctx).regs.allPresent) .presence
  let s ← get
  let ts := s.ctx.tx.ts
  let t := (s.dropSnap s.ctx.act).modCtx (fun c => { c with
    pc := here, tx := { c.tx with ts := 0, opened := false, logn := 0, lcap := 0 } })
  let r : Raise := { eff := Eff.snaplost, arg := ts, addr := ea }
  Act.waitIf (t.deliveryHeld t.pid t.cx r) .drain
  Act.stop (t.fault t.pid t.cx r)

/-- The checks of R322: the home of ea, a versioned line. -/
def Act.versioned (here ea : Word) (n : Nat) (acc : Acc) (open_ : Bool) : Act Nat := do
  Act.check (ea.toNat % n != 0 || 2 ^ 52 ≤ ea.toNat) (alignFault ea)
  let c ← Act.ctx
  Act.check (open_ && !c.tx.opened) (illegal c.txstat)
  if c.tx.opened && c.tx.rvk then Act.snapLost here ea else pure ()
  let (h, _) ← Act.place acc false ea n true true
  match h with
  | .dev pa true _ _ => return pa
  | .spad _ _ => Act.raise (pageFault ea 0)
  | _ => Act.raise (permFault ea)

/-- Entry i of the log: its line, mask and bytes (12 Table 12.7). -/
def Act.logEntry (here : Word) (i : Nat) : Act (Nat × Nat × List Byte) := do
  let a := (← Act.ctx).tx.lbase + 128 * i
  let b ← Act.readSpad here a 128
  return (natOf (b.take 8) / 64, natOf ((b.drop 8).take 8), b.drop 64)

/-- The first entry of the log, from i on, for a line. -/
def Act.logFind (here : Word) (line : Nat) : Nat → Nat → Act (Option (Nat × Nat × List Byte))
  | 0, _ => return none
  | n + 1, i => do
    let (l, m, data) ← Act.logEntry here i
    if l = line then return some (i, m, data) else Act.logFind here line n (i + 1)

/-- Bytes with those of the mask replaced (12 R325). -/
def maskOver (base data : List Byte) (m : Nat) : List Byte :=
  ((List.range base.length).zip (base.zip data)).map (fun e => if bitOf m e.1 then e.2.2 else e.2.1)

/-- LDV (12 R325): what it reads under the snapshot cannot change, so it is read at issue. An uncorrectable version is an error where a
byte of it is returned. -/
def execLdv (sp : Bool) (z : Size) (x : Bool) (d a : Reg) (s : State) : Out :=
  issue s sp 4 (do
    Act.gate
    let ea ← Act.rdG a
    let pa ← Act.versioned s.here ea z.bytes .read true
    let tx := (← Act.ctx).tx
    Act.reach (.dev pa true false 0) z.bytes
    let base := (← get).versionAt (lineOf pa) tx.ts.toNat
    let bad := (← get).versionBad pa z.bytes tx.ts.toNat
    let e ← Act.logFind s.here (ea.toNat / 64) tx.logn 0
    let line := match e with
      | some (_, m, data) => maskOver base data m
      | none => base
    let logged := match e with
      | some (_, m, _) => (List.range z.bytes).all (fun i => bitOf m (ea.toNat % 64 + i))
      | none => false
    let err := bad && !logged
    Act.pendDest (.g d)
    Act.upd (fun t => if err then t.errorAt pa else t)
    let v := extend z.bytes (!x) (natOf ((line.drop (ea.toNat % 64)).take z.bytes))
    Act.result (.g d) (if err then .err (memErr s.here ea) 0 else .g v))

/-- STV (12 R325). -/
def execStv (sp : Bool) (z : Size) (d a : Reg) (s : State) : Out :=
  issue s sp 4 (do
    let v ← Act.rdG d
    let ea ← Act.rdG a
    let _ ← Act.versioned s.here ea z.bytes .write true
    let tx := (← Act.ctx).tx
    let e ← Act.logFind s.here (ea.toNat / 64) tx.logn 0
    let off := ea.toNat % 64
    match e with
    | some (i, m, _) => do
      Act.writeSpad s.here (tx.lbase + 128 * i + 8) (bytesOf 8 (m ||| ((2 ^ z.bytes - 1) * 2 ^ off)))
      Act.writeSpad s.here (tx.lbase + 128 * i + 64 + off) (bytesOf z.bytes v.toNat)
    | none => do
      Act.check (tx.lcap ≤ tx.logn) (illegal ea)
      let fresh := bytesOf 8 (ea.toNat / 64 * 64) ++ bytesOf 8 ((2 ^ z.bytes - 1) * 2 ^ off) ++ List.replicate 48 0
        ++ State.overlay (List.replicate 64 0) off (bytesOf z.bytes v.toNat)
      Act.writeSpad s.here (tx.lbase + 128 * tx.logn) fresh
      Act.updCtx (fun c => { c with tx := { c.tx with logn := c.tx.logn + 1 } }))

/-- SNAP (12 R323). -/
def execSnap (sp : Bool) (d a : Reg) (s : State) : Out :=
  issue s sp 4 (do
    Act.gate
    let x ← Act.rdG a
    Act.interlock (.g d)
    let cap := fld x 40 32
    let base := fld x 20 0
    Act.check (fld x 63 41 != 0 || fld x 31 21 != 0 || base % 128 != 0 || cap == 0 || 256 < cap || Config.spadBytes < base + cap * 128)
      (illegal x)
    let c ← Act.ctx
    Act.check (c.tx.opened && c.tx.logn != 0) (illegal x)
    if c.tx.opened then Act.upd (fun t => (t.dropSnap t.ctx.act).modCtx (fun c => { c with tx := Tx.reset })) else pure ()
    Act.ask (.snap d cap base)
    Act.await s.here sp .reply)

/-- LDVW (12 R325), after the context's own writes to the line. With Gb = 0 it returns at once; while stable is below the timestamp
that it returns, the context's later accesses wait (11 R307). -/
def execLdvw (sp : Bool) (d a b : Reg) (s : State) : Out :=
  issue s sp 4 (do
    Act.check (← Act.inSH) (illegal 0)
    Act.gate
    let ea ← Act.rdG a
    let y ← Act.rdG b
    Act.interlock (.g d)
    let pa ← Act.versioned s.here ea 8 .read false
    Act.reach (.dev pa true false 0) 8
    let t ← get
    let v := (t.vline (lineOf pa)).ts
    if y = 0 ∨ (y.toNat ≤ v ∧ v ≤ t.vers.stable) then do
      Act.wrG d (W v)
      Act.upd (fun t => if v ≤ t.vers.stable then t else t.modVers (fun m => { m with acquires := m.acquires ++ [(t.ctx.act, v)] }))
      Act.giveWay
    else Act.park (.version (lineOf pa) y.toNat))

/-- The logged lines, translated with write permission required (12 R327). -/
def Act.logLines (here : Word) : Nat → Nat → Act (List CLine)
  | 0, _ => return []
  | n + 1, i => do
    let (l, m, data) ← Act.logEntry here i
    let ea := W (l * 64)
    let (h, _) ← Act.place .write false ea 8 true true
    let pa ← match h with
      | .dev pa true _ _ => pure pa
      | .spad _ _ => Act.raise (pageFault ea 0)
      | _ => Act.raise (permFault ea)
    let rest ← Act.logLines here n (i + 1)
    return ⟨l * 64, lineOf pa, m, data, false⟩ :: rest

/-- A line into its place in the locking order: by ascending physical address, hence by die (10 R283). -/
def lockOrder (x : CLine) : List CLine → List CLine
  | [] => [x]
  | y :: l => if x.pa ≤ y.pa then x :: y :: l else y :: lockOrder x l

/-- COMMIT (12 R327). -/
def execCommit (sp : Bool) (d : Reg) (s : State) : Out :=
  issue s sp 4 (do
    Act.interlock (.g d)
    let c ← Act.ctx
    Act.check (!c.tx.opened) (illegal c.txstat)
    if c.tx.rvk then Act.snapLost s.here 0 else pure ()
    if c.tx.logn = 0 then do
      Act.drain
      Act.wrG d 0
      Act.updCtx (fun c => { c with tx := { c.tx with cfl := false } })
    else do
      let lines ← Act.logLines s.here c.tx.logn 0
      Act.drain
      let order := lines.foldl (fun l x => lockOrder x l) []
      Act.upd (fun t => t.modVers (fun v => { v with
        nextCommit := v.nextCommit + 1
        commits := v.commits ++ [⟨v.nextCommit, t.pid, t.cx, t.ctx.act, d, c.tx.ts.toNat, order, 0, none⟩] }))
      Act.await s.here sp .reply)

def execAbort (sp : Bool) (s : State) : Out :=
  issue s sp 4 (Act.updCtx (fun c => { c with tx := { c.tx with logn := 0 } }))

def execVretire (sp : Bool) (s : State) : Out :=
  issue s sp 4 (Act.upd (fun t =>
    if t.ctx.tx.opened then (t.dropSnap t.ctx.act).modCtx (fun c => { c with tx := Tx.reset })
    else t.modCtx (fun c => { c with tx := { c.tx with rvk := false } })))

end Sys2Proof.Machine
end

