-- ==== Sys2Proof/Machine/BitStream.lean ====
section
/-! DEFINITION. The bit buffer and its instructions (05 R137 to R145). -/

namespace Sys2Proof.Machine

/-! ## The ring and the buffer -/

def ringBase (b : BitBuf) : Nat := fld b.lo 20 6
def ringLimit (b : BitBuf) : Nat := fld b.hi 20 6
/-- Ring bytes (05 R138). -/
def ringSize (b : BitBuf) : Nat := (ringLimit b - ringBase b) * 64
def writeMode (b : BitBuf) : Bool := flag b.lo 0
def ringValid (b : BitBuf) : Bool := ringBase b < ringLimit b && ringLimit b * 64 ≤ Config.spadBytes
/-- The local address of the byte that holds stream bit j (05 R138). -/
def bitByte (b : BitBuf) (j : Nat) : Nat := ringBase b * 64 + j / 8 % ringSize b

/-- Raises ILLEGAL while the ring is invalid or in the wrong mode (05 R138). -/
def Act.ring (write : Option Bool) : Act BitBuf := do
  let b := (← Act.ctx).bb
  Act.check (!ringValid b || (write.map (fun m => m != writeMode b)).getD false) (illegal 0)
  return b

/-- Stream bits [j, j + n) as the scratchpad holds them, an unsigned integer (05 R138). -/
def State.streamBits (s : State) (pid : Nat) (b : BitBuf) : Nat → Nat → Nat
  | _, 0 => 0
  | j, n + 1 =>
    b2n (bitOf (Memory.rd s.mem (spadKey pid (bitByte b j))).toNat (j % 8)) + 2 * s.streamBits pid b (j + 1) n

/-- The waits and errors of a read of stream bits [j, j + n) (05 R139), byte by byte. -/
def Act.readable (here : Word) (b : BitBuf) : Nat → Nat → Act Unit
  | _, 0 => pure ()
  | j, n + 1 => do
    let a := bitByte b j
    Act.ownBytes a 1
    Act.check ((← get).bad (spadKey (← get).pid a) 1) (memErr here (W a))
    Act.readable here b (j + 8) n

/-- The buffer after the refill that an instruction needing bits below POS + n makes, if it makes one (05 R139). -/
def Act.refill (here : Word) (n : Nat) : Act BitBuf := do
  let b ← Act.ring (some false)
  let pos := b.pos.toNat
  let lim := b.lim.toNat
  let from_ := pos + b.bbn.toNat
  let stop_ := min (pos + 128) lim
  if min (pos + n) lim ≤ from_ ∨ stop_ ≤ from_ then return b
  else do
    Act.gate
    Act.readable here b from_ ((stop_ - 1) / 8 - from_ / 8 + 1)
    let s ← get
    let fresh := s.streamBits s.pid b from_ (stop_ - from_)
    return { b with
      bits := BitVec.ofNat 128 (b.bits.toNat % 2 ^ b.bbn.toNat + 2 ^ b.bbn.toNat * fresh)
      bbn := W (stop_ - pos) }

/-- The n bits from POS + k on, bits at or past END reading as 0 (05 R139). -/
def BitBuf.bitsAt (b : BitBuf) (k n : Nat) : Nat :=
  let have_ := min b.bbn.toNat (b.lim.toNat - b.pos.toNat)
  b.bits.toNat % 2 ^ have_ / 2 ^ k % 2 ^ n

/-- Consumes n bits (05 R139). -/
def BitBuf.advance (b : BitBuf) (n : Nat) : BitBuf :=
  let m := min n b.bbn.toNat
  { b with pos := b.pos + W n, bbn := b.bbn - W m, bits := b.bits >>> m }

def Act.setBb (b : BitBuf) : Act Unit := Act.updCtx (fun c => { c with bb := b })
def decodeFault (n : Word) : Raise := { eff := Eff.decode, arg := n }

/-! ## Instructions -/

def execBsinit (sp : Bool) (a b : Reg) (s : State) : Out :=
  issue s sp 4 (do
    let x ← Act.rdG a
    let y ← Act.rdG b
    let base := fld x 20 6
    Act.check (fld x 63 21 != 0 || fld x 5 1 != 0 || y.toNat % 64 != 0 || !(base < y.toNat / 64) || y.toNat > Config.spadBytes) (illegal x)
    Act.setBb ⟨0, 0, 0, W (8 * (y.toNat - base * 64)), x, y⟩)

/-- BSGET and BSPEEK (05 R142). -/
def bsRead (sp : Bool) (d a : Reg) (take : Bool) (s : State) : Out :=
  issue s sp 4 (do
    let x ← Act.rdG a
    let n := x.toNat
    let b ← Act.ring (some false)
    Act.check (64 < n) (illegal x)
    Act.check (take && b.pos.toNat + n > b.lim.toNat) (decodeFault x)
    let c ← Act.refill s.here n
    Act.wrG d (W (c.bitsAt 0 n))
    Act.setBb (if take then c.advance n else c))

def execBsget (sp : Bool) (d a : Reg) (s : State) : Out := bsRead sp d a true s
def execBspeek (sp : Bool) (d a : Reg) (s : State) : Out := bsRead sp d a false s

def execBsskip (sp : Bool) (a : Reg) (s : State) : Out :=
  issue s sp 4 (do
    let x ← Act.rdG a
    let b ← Act.ring (some false)
    Act.check (b.pos.toNat + x.toNat > b.lim.toNat) (decodeFault x)
    Act.setBb (b.advance x.toNat))

/-- The number of leading zero bits of a code, at most 32, or none where the code ends early (05 R143). -/
def egPrefix (b : BitBuf) : Nat → Nat → Option Nat
  | 0, _ => none
  | n + 1, z =>
    if b.bitsAt z 1 = 1 then some z
    else if b.pos.toNat + z ≥ b.lim.toNat ∨ z = 32 then none
    else egPrefix b n (z + 1)

/-- The bits from POS on that reading a code of order k needs, as far as the buffer shows: all of a code whose terminating 1 is
buffered, else the first bit past the buffer (05 R139, R143). -/
def egNeeds (b : BitBuf) (k : Nat) : Nat :=
  match (List.range (min b.bbn.toNat 33)).find? (fun z => b.bitsAt z 1 = 1) with
  | some z => if b.pos.toNat + 2 * z + 1 + k > b.lim.toNat then z + 1 else 2 * z + 1 + k
  | none => min (b.bbn.toNat + 1) 33

def execBseg (sp : Bool) (d a : Reg) (s : State) : Out :=
  issue s sp 4 (do
    let x ← Act.rdG a
    let k := x.toNat
    let old ← Act.ring (some false)
    Act.check (31 < k) (illegal x)
    let b ← Act.refill s.here (egNeeds old k)
    match egPrefix b 34 0 with
    | none => Act.raise (decodeFault x)
    | some z => do
      Act.check (b.pos.toNat + 2 * z + 1 + k > b.lim.toNat) (decodeFault x)
      Act.wrG d (W ((2 ^ z - 1) * 2 ^ k + b.bitsAt (z + 1) (z + k)))
      Act.setBb (b.advance (2 * z + 1 + k)))

/-- The partial byte of write mode: its bits are taken from the scratchpad when the buffer is empty and POS lies inside a
byte (05 R144). So an MTS to BBEND, BBLO or BBHI in write mode, which empties the buffer, has them taken again too: DESIGN CHOICE
(log 68). -/
def Act.partial_ (here : Word) (b : BitBuf) : Act Nat := do
  let m := b.pos.toNat % 8
  if m = 0 then return 0
  else if b.bbn != 0 then return b.bits.toNat % 2 ^ m
  else do
    let a := bitByte b b.pos.toNat
    let l ← Act.readSpad here a 1
    return natOf l % 2 ^ m

/-- Stores bytes to the ring from the byte that holds stream bit j on (05 R144). -/
def Act.ringStore (here : Word) (b : BitBuf) : Nat → List Byte → Act Unit
  | _, [] => pure ()
  | j, x :: l => do
    let a := bitByte b j
    Act.gate
    Act.ownBytes a 1
    Act.check ((← get).bad (spadKey (← get).pid a) 1) (memErr here (W a))
    Act.upd (fun s => s.wr (spadKey s.pid a) [x])
    Act.ringStore here b (j + 8) l

def execBsput (sp : Bool) (a b : Reg) (s : State) : Out :=
  issue s sp 4 (do
    let x ← Act.rdG a
    let y ← Act.rdG b
    let n := y.toNat
    let r ← Act.ring (some true)
    Act.check (64 < n) (illegal y)
    Act.check (r.pos.toNat + n > r.lim.toNat) (decodeFault y)
    let old ← Act.partial_ s.here r
    let m := r.pos.toNat % 8
    let all := old + 2 ^ m * (x.toNat % 2 ^ n)
    let full := (m + n) / 8
    Act.ringStore s.here r (r.pos.toNat - m) (bytesOf full all)
    Act.setBb { r with pos := r.pos + y, bits := BitVec.ofNat 128 (all / 2 ^ (8 * full)), bbn := W ((m + n) % 8) })

def execBsflush (sp : Bool) (s : State) : Out :=
  issue s sp 4 (do
    let r ← Act.ring none
    if writeMode r then do
      let m := r.pos.toNat % 8
      if m = 0 then Act.setBb { r with bbn := 0, bits := 0 }
      else do
        let old ← Act.partial_ s.here r
        Act.ringStore s.here r (r.pos.toNat - m) [BitVec.ofNat 8 old]
        Act.setBb { r with pos := r.pos + W (8 - m), bbn := 0, bits := 0 }
    else Act.setBb { r with bbn := 0, bits := 0 })

def execBspos (sp : Bool) (d : Reg) (s : State) : Out :=
  issue s sp 4 (do
    let b := (← Act.ctx).bb
    Act.wrG d b.pos)

end Sys2Proof.Machine
end

