-- ==== Sys2Proof/Machine/Copy.lean ====
section
/-! DEFINITION. The copy group (15 R341 to R352), the copies in flight with their segments (R339, R340, R343 to R347), and what
they do to channels and tiles (10 R263 to R267). -/

namespace Sys2Proof.Machine

/-! ## Issue -/

/-- A channel number of 8 or more raises ILLEGAL (15 R341). -/
def Act.channel (n : Reg) : Act Nat := do
  Act.check (8 ≤ n.toNat) (illegal (W n.toNat))
  return n.toNat

/-- LEN breaks its limits (15 R342). -/
def badLen (n : Nat) : Bool := n % 64 != 0 || n < 64 || 16777152 < n

/-- The checks of R342 step 3 on the range of n bytes from x. -/
def Act.copyRange (x : Word) (n : Nat) : Act Unit := do
  let a := x.toNat
  Act.check (2 ^ 52 ≤ a) (alignFault x)
  match classOf a with
  | .hole => Act.raise (pageFault x 0)
  | .spad off => Act.check (Config.spadBytes < off + n) (illegal x)
  | .core _ off => Act.check (Config.spadBytes < off + n) (illegal x)
  | .trans => Act.check (2 ^ 52 < a + n) (illegal x)

/-- The segments of n bytes (15 R339). -/
def segments (n : Nat) : List Seg := (List.range ((n + 4095) / 4096)).map (fun i => ⟨i, none, false, 0, 0⟩)

/-- Bytes of segment k of a copy. -/
def Copy.segLen (c : Copy) (k : Nat) : Nat := min 4096 (c.len - 4096 * k)

/-- The tiles of a core whose footprint meets [lo, hi), of those numbered 0 to 31. -/
def Core.tilesIn (k : Core) (lo hi : Nat) : List Nat :=
  (List.range 32).filter (fun n => overlaps (k.tile n).base (k.tile n).stop lo hi)

/-- Zero into the footprint of a tile, but for [lo, hi) (10 R264). -/
def State.zeroTile (s : State) (pid : Nat) (t : Tile) (lo hi : Nat) : State :=
  let low := List.replicate (min lo t.stop - t.base) (0 : Byte)
  let high := List.replicate (t.stop - max hi t.base) (0 : Byte)
  (s.wr (spadKey pid t.base) low).wr (spadKey pid (max hi t.base)) high

/-- A copy in meets a tile (10 Table 10.2); ZF applies when it moves the tile into FILLING (10 R264). -/
def State.tileCopyIn (s : State) (pid n ch lo hi : Nat) : State :=
  let t := (s.coreAt pid).tile n
  let u := s.modCoreAt pid (fun k => k.setTile n (t.copyIn ch))
  if t.zf ∧ (t.state = 0 ∨ t.state = 2) then u.zeroTile pid t lo hi else u

/-- A copy whose channel and Q2 entry are free starts: its entry, channel, watermark and tiles (15 R342). `dst` is its
destination range in the local window, if it has one. -/
def Act.startCopy (c : Copy) (local_ : Option Nat) : Act Unit := do
  let s ← get
  Act.waitIf (Tab.get Chan.reset s.core.chans c.ch).copy.isSome .room
  Act.waitIf (16 ≤ (s.queue s.pid s.cx 2).length) .room
  let pid := s.pid
  Act.upd (fun s => s.push pid s.cx 2 [W (fld (s.ctx.pc - 4) 47 0)])
  let ch : Chan := match local_ with
    | some lo => ⟨some c.id, true, lo, lo + c.len, lo⟩
    | none => ⟨some c.id, false, 0, 0, 0⟩
  Act.updCore (fun k => { k with chans := Tab.set k.chans c.ch ch })
  let into := match local_ with
    | some lo => s.core.tilesIn lo (lo + c.len)
    | none => []
  let from_ := match classOf c.src.toNat with
    | .spad off => s.core.tilesIn off (off + c.len)
    | _ => []
  let lo := local_.getD 0
  Act.upd (fun s => into.foldl (fun s n => s.tileCopyIn pid n c.ch lo (lo + c.len)) s)
  let k ← Act.core
  let outs := from_.filter (fun n => 2 ≤ (k.tile n).state)
  Act.updCore (fun k => outs.foldl (fun k n => k.setTile n (k.tile n).copyOut) k)
  let held := into.filter (fun n => (s.core.tile n).state == 3)
  Act.upd (fun s => { s with
    copies := s.copies ++ [{ c with outs := outs, drains := held }]
    nextCopy := s.nextCopy + 1 })

/-- A copy of the executing context as its instruction issues it. -/
def State.newCopy (s : State) (ch : Nat) (src : Word) (len : Nat) (fx : Bool) : Copy where
  id := s.nextCopy
  pid := s.pid
  cx := s.cx
  act := s.ctx.act
  ch := ch
  src := src
  len := len
  fx := fx
  bar := none
  cpym := false
  sub := false
  tag := 0
  sup := s.ctx.stat.sup
  launch := s.ctx.ident.launch.toNat
  ptroot := s.ctx.space.ptroot
  accepted := false
  after := s.net.nextReq
  drains := []
  outs := []
  items := []
  ends := []
  first := 0

def Item.start (pos : Nat) (dst : CopyDst) (len : Nat) : Item := ⟨pos, dst, segments len, false, false⟩

/-- CPY and CPYB (15 R342). -/
def copyOp (s : State) (sp : Bool) (d a b c : Reg) (bound : Bool) : Out :=
  issue s sp 4 (do
    let n ← Act.channel d
    let src ← Act.rdG a
    let dst ← Act.rdG b
    let z ← Act.rdG c
    let len := fld z 23 0
    let dlog := flag z 25
    let bad := illegal z
    let t ← get
    Act.check (fld z 63 55 != 0 || badLen len || (!bound && fld z 54 38 != 0) || (!dlog && fld z 37 26 != 0)
      || (dlog && t.lidBad (fld z 37 26)) || (bound && t.lidBad (fld z 54 43))) bad
    Act.check (src.toNat % 64 != 0) (alignFault src)
    Act.check (dst.toNat % 64 != 0) (alignFault dst)
    Act.copyRange src len
    if dlog then Act.check (Config.spadBytes < dst.toNat + len) (illegal dst) else Act.copyRange dst len
    let local_ := if dlog then none else match classOf dst.toNat with
      | .spad off => some off
      | _ => none
    let place := if dlog then CopyDst.lid (fld z 37 26) dst.toNat else match local_ with
      | some off => CopyDst.local off
      | none => CopyDst.ea dst
    let q := t.newCopy n src len (flag z 24)
    Act.startCopy { q with
      bar := if bound then some (q.launch, fld z 54 43, fld z 42 38) else none
      items := [Item.start 0 place len] } local_
    if bound then Act.send (fld z 54 43) (.bar (fld z 42 38) (.credit len)) else pure ())

def execCpy (sp : Bool) (d a b c : Reg) (s : State) : Out := copyOp s sp d a b c false
def execCpyb (sp : Bool) (d a b c : Reg) (s : State) : Out := copyOp s sp d a b c true

/-- The core at a position of a cluster (15 R348). -/
def clusterCore (pid pos : Nat) : Nat :=
  dieOf pid * 256 + (clusterOf pid / 4 * 4 + pos / 4) * 16 + clusterOf pid % 4 * 4 + pos % 4

/-- CPYM (15 R348, R349). -/
def execCpym (sp : Bool) (d a b c : Reg) (s : State) : Out :=
  issue s sp 4 (do
    let n ← Act.channel d
    let src ← Act.rdG a
    let off ← Act.rdG b
    let z ← Act.rdG c
    let len := fld z 23 0
    let sub := flag z 25
    let t ← get
    Act.check (sub && !t.ctx.stat.sup) privFault
    let mask := fld z 52 37
    let list := (List.range 16).filter (bitOf mask)
    let badMask := if sub then fld z 52 49 != 0 else mask == 0 || 12 < list.length || bitOf mask (posInCluster t.pid)
    Act.check (fld z 63 53 != 0 || badLen len || badMask) (illegal z)
    Act.check (src.toNat % 64 != 0) (alignFault src)
    Act.check (off.toNat % 64 != 0) (alignFault off)
    Act.copyRange src len
    let cores := if sub then (t.subscribers (dieOf t.pid) (fld z 48 37)).map (fun k => (0, k))
      else list.map (fun p => (p, clusterCore t.pid p))
    let q := t.newCopy n src len (flag z 24)
    Act.startCopy { q with
      cpym := true, sub := sub, tag := fld z 48 37
      bar := if flag z 26 then some (0, 0, fld z 31 27) else none
      items := cores.map (fun e => Item.start e.1 (.recv e.2 (fld z 36 32) off.toNat none) len) } none
    let heads := ((List.range cores.length).zip cores).map (fun e => t.packet e.2.2 (.cpym q.id e.1) none)
    Act.upd (fun s => s.modNet (fun n => { n with pkts := n.pkts ++ heads })))

/-- The wait of a WMWAIT on channel n (15 R350). -/
def Act.markOf (d a : Reg) (n : Nat) : Act Unit := do
  let x ← Act.rdG a
  Act.interlock (.g d)
  let ch := Tab.get Chan.reset (← Act.core).chans n
  match ch.copy with
  | some id =>
    if !ch.ranged then Act.wrG d 2
    else if x.toNat ≤ ch.mark then Act.wrG d 0
    else Act.wait (.wmark n id x.toNat d)
  | none => Act.wrG d 2

/-- WMWAIT (15 R350). A context whose copy has ended meanwhile reports on that copy. -/
def execWmwait (sp : Bool) (d a b : Reg) (s : State) : Out :=
  issue s sp 4 (do
    let n ← Act.channel b
    Act.check (← Act.inSH) (illegal 0)
    match s.ctx.run with
    | .stalled (.wmEnd _ v) => Act.wrG d v
    | _ => Act.markOf d a n)

/-- SPLD (15 R351); its issue releases the context's earlier accesses (15 R356). -/
def execSpld (sp : Bool) (a b c : Reg) (s : State) : Out :=
  issue s sp 4 (do
    let x ← Act.rdG a
    let y ← Act.rdG b
    let z ← Act.rdG c
    let n := z.toNat
    Act.check (x.toNat % 64 != 0) (alignFault x)
    Act.check (y.toNat % 64 != 0) (alignFault y)
    Act.check (n % 64 != 0 || n < 64 || 32768 < n || 32768 < y.toNat + n || Config.spadBytes < x.toNat + n) (illegal z)
    Act.drain
    let data ← Act.readSpad s.here x.toNat n
    let reads := (← Act.core).unit.mat.cmds.any (fun m => m.kind == 2
      && overlaps (512 * fld m.gk 53 48) (512 * fld m.gk 53 48 + 512) y.toNat (y.toNat + n))
    Act.waitIf reads .drain
    Act.upd (fun s => s.wr (sideKey s.pid y.toNat) data))

/-- Doublewords that the BANKOPs of an activation with FETCH still owe to Q10 (15 R352). -/
def State.fetching (s : State) (act : Nat) : Nat :=
  8 * (s.net.reqs.filter (fun r => r.act == act && (match r.op with
    | .bank _ _ _ fetch _ _ _ => fetch
    | _ => false))).length

/-- BANKOP (15 R352); its issue releases the context's earlier accesses (15 R356). -/
def execBankop (sp : Bool) (a b c : Reg) (s : State) : Out :=
  issue s sp 4 (do
    Act.gate
    let x ← Act.rdG a
    let v ← Act.rdV b
    let z ← Act.rdG c
    let op := fld z 2 0
    let rm := fld z 8 6
    let mask := fld z 31 16
    let fetch := flag z 4
    Act.check (2 ^ 52 ≤ x.toNat || x.toNat % 64 != 0) (alignFault x)
    let home := match classOf x.toNat with
      | .spad off => some (s.pid, off)
      | .core p off => some (p, off)
      | _ => none
    Act.check (fld z 63 32 != 0 || fld z 15 9 != 0 || flag z 3 || 3 ≤ op || 5 ≤ rm || (op == 0 && (rm != 0 || flag z 5))
      || (op == 2 && 256 ≤ mask) || home.isNone) (illegal z)
    let (p, off) := home.getD (0, 0)
    Act.unmarked [⟨.spad p off, 64⟩]
    let t ← get
    Act.check (t.bad (spadKey p off) 64) (memErr s.here x)
    Act.waitIf (fetch && 8 < (t.queue t.pid t.cx 10).length + t.fetching t.ctx.act) (.qFull 10)
    Act.rmw (.spad p off) 64 (.bank op rm (flag z 5) fetch (fld t.ctx.num.flagen 6 0) mask v) true false s.here x)

/-! ## Copies in flight -/

def State.modCopy (s : State) (i : Nat) (f : Copy → Copy) : State := { s with copies := updAt f s.copies i }
def Copy.modItem (c : Copy) (j : Nat) (f : Item → Item) : Copy := { c with items := updAt f c.items j }

/-- A segment of an item takes a fate; after a failure the item starts no further segment, and those never read are never
started (15 R345). An item all of whose segments are settled has ended. -/
def Item.settle (t : Item) (k fate : Nat) : Item :=
  let segs := updAt (fun g => { g with fate := fate }) t.segs k
  if fate = 1 then { t with segs := segs }
  else { t with stopped := true, segs := segs.map (fun g => if g.data.isNone ∧ g.fate = 0 then { g with fate := 4 } else g) }

def Item.ended (t : Item) : Bool := t.segs.all (fun g => g.fate != 0)

/-- The copy after segment k of item j has taken a fate. -/
def Copy.settle (c : Copy) (j k fate : Nat) : Copy :=
  let d := c.modItem j (fun t => t.settle k fate)
  let past := match c.items[j]?, d.items[j]? with
    | some x, some y => !x.ended && y.ended
    | _, _ => false
  { d with ends := if past then d.ends ++ [j] else d.ends
           first := if d.first = 0 ∧ 2 ≤ fate then fate else d.first }

/-- COPY_ENGINE_ACCEPT: the engine accepts the oldest command that waits in a context's Q2 (15 R458). -/
def execCopyEngineAccept (core cx : Nat) (s : State) : Out :=
  .next (match s.copies.findIdx? (fun c => c.pid == core && c.cx == cx && !c.accepted) with
    | some i =>
      match s.copies[i]? with
      | some c => ((s.modCopy i (fun c => { c with accepted := true })).popOwn c.act 2).refreshPend c.act
      | none => s
    | none => s)

/-- A copy out that will read no further byte of its source releases the tiles that it holds DRAINING (10 Table 10.2). -/
def State.sourceRead (s : State) (i : Nat) : State :=
  match s.copies[i]? with
  | some c =>
    let more := c.items.any (fun t => t.segs.any (fun g => g.fate == 0 && g.data.isNone))
    if more ∨ c.outs = [] then s
    else (s.modCopy i (fun c => { c with outs := [] })).modCoreAt c.pid
      (fun k => c.outs.foldl (fun k n => k.setTile n (k.tile n).drained) k)
  | none => s

/-- The homes of the lines of n/64 lines from ea, for a copy (15 R342, R343); none at a fault. -/
def State.copyLines (s : State) (c : Copy) (acc : Acc) : Nat → Word → Option (List Home)
  | 0, _ => some []
  | n + 1, ea =>
    match s.locate c.pid c.ptroot c.sup acc ea 64 false false with
    | .error _ => none
    | .ok (h, _) => (s.copyLines c acc n (ea + 64)).map (fun l => h :: l)

/-- Whether an access of an engine to a home must wait: for a watermark (10 R267), for a replica (10 R279), or while the home cache
holds it (25 R446). -/
def State.homeMarked (s : State) (pid : Nat) (h : Home) (n : Nat) : Bool :=
  match h with
  | .spad p off => s.marked p off n
  | .dev _ _ _ _ => s.keyHeld (h.readKey s.sys.lead pid) || s.repOpen h n
  | h => s.homeLost h && !s.homeDown h

/-- The state as a copy reads its source: its own destination range does not hold it up (15 R340). -/
def State.seenBy (s : State) (c : Copy) : State :=
  s.modCoreAt c.pid (fun k => { k with chans := k.chans.map (fun e => if e.2.copy = some c.id then (e.1, { e.2 with ranged := false }) else e) })

/-- What a read of segment k at the source gives: its bytes, or a fate; none while it must wait. -/
def State.readSegment (s : State) (c : Copy) (k : Nat) : Option (Except Nat (List Byte)) :=
  match s.copyLines c .read (c.segLen k / 64) (c.src + W (4096 * k)) with
  | none => some (.error 3)
  | some hs =>
    if hs.any (fun h => (s.seenBy c).homeMarked c.pid h 64) then none
    else if hs.any (fun h => s.homeDown h) then some (.error 2)
    else if hs.any (fun h => s.bad (h.readKey s.sys.lead c.pid) 64) then some (.error 2)
    else some (.ok (hs.flatMap (fun h => s.rd (h.readKey s.sys.lead c.pid) 64)))

/-- COPY_SEGMENT_READ: the streamer reads segment `seg` once, for every item that still wants it (15 R340, R345). -/
def execCopySegmentRead (i item seg : Nat) (s : State) : Out :=
  .next (match s.copies[i]? with
    | none => s
    | some c =>
      let wants := fun (t : Item) => match t.segs[seg]? with
        | some g => g.fate == 0 && g.data.isNone
        | none => false
      let asked := match c.items[item]? with
        | some t => wants t
        | none => false
      if !c.accepted || !asked || s.inFlight c.act c.after then s
      else match s.readSegment c seg with
        | none => s
        | some (.ok data) =>
          (s.modCopy i (fun c => { c with items := c.items.map (fun t =>
            if wants t then { t with segs := updAt (fun g => { g with data := some data }) t.segs seg } else t) })).sourceRead i
        | some (.error fate) =>
          let hit := (List.range c.items.length).filter (fun j => match c.items[j]? with
            | some t => wants t
            | none => false)
          (s.modCopy i (fun c => hit.foldl (fun c j => c.settle j seg fate) c)).sourceRead i)

/-- Where segment k of an item goes: the homes of its lines; none at a fault. -/
def State.segmentHomes (s : State) (c : Copy) (dst : CopyDst) (k : Nat) : Option (List Home) :=
  let n := c.segLen k / 64
  let spad := fun (p off : Nat) => some ((List.range n).map (fun i => Home.spad p (off + 4096 * k + 64 * i)))
  match dst with
  | .local off => spad c.pid off
  | .ea a => s.copyLines c .write n (a + W (4096 * k))
  | .lid n off => spad (s.resolve c.launch n).1 off
  | .recv p _ _ base => spad p (base.getD 0)

/-- Whether a delivery is held: a parked logical id, a DRAINING tile, or a header that has not arrived (15 R343, R348;
10 Table 10.2). -/
def State.segmentHeld (s : State) (c : Copy) (dst : CopyDst) (lo hi : Nat) : Bool :=
  match dst with
  | .local off => c.drains.any (fun n => overlaps (((s.coreAt c.pid).tile n).base) (((s.coreAt c.pid).tile n).stop) (off + lo) (off + hi))
  | .lid n _ => (s.resolve c.launch n).2
  | .recv _ _ _ base => base.isNone
  | _ => false

/-- The run of delivered bytes from the start of an item (10 R266). -/
def Item.runLen (t : Item) (len : Nat) : Nat := min len (4096 * (t.segs.takeWhile (fun g => g.fate == 1)).length)

/-- The tiles of a channel whose footprint the watermark has passed (10 Table 10.2). -/
def Core.passTiles (k : Core) (ch mark : Nat) : Core :=
  (List.range 32).foldl (fun k n =>
    let t := k.tile n
    if bitOf t.fch ch && t.stop ≤ mark then k.setTile n (t.filled ch true) else k) k

/-- The contexts that wait in WMWAIT on a copy learn how it ended (15 R350). -/
def State.endMarks (s : State) (pid ch id mark : Nat) : State :=
  let turn := fun (w : Wait) => match w with
    | .wmark c i goal d => if c = ch ∧ i = id then .wmEnd d (if goal ≤ mark then 0 else 1) else w
    | w => w
  [0, 1, 2, 3].foldl (fun s cx =>
    match (s.ctxAt pid cx).run with
    | .parked w => s.modCtxAt pid cx (fun c => { c with run := .parked (turn w) })
    | .stalled w => s.modCtxAt pid cx (fun c => { c with run := .stalled (turn w) })
    | _ => s) s

/-- The contexts that wait in WMWAIT on a copy for a byte that its mark has passed have their answer (15 R350). -/
def State.passMarks (s : State) (pid ch id mark : Nat) : State :=
  let turn := fun (w : Wait) => match w with
    | .wmark c i goal d => if c = ch ∧ i = id ∧ goal ≤ mark then .wmEnd d 0 else w
    | w => w
  [0, 1, 2, 3].foldl (fun s cx =>
    match (s.ctxAt pid cx).run with
    | .parked w => s.modCtxAt pid cx (fun c => { c with run := .parked (turn w) })
    | .stalled w => s.modCtxAt pid cx (fun c => { c with run := .stalled (turn w) })
    | _ => s) s

/-- A copy's channel on a core closes: its range and its tiles are released (10 R267, Table 10.2). -/
def State.freeChan (s : State) (pid : Nat) (c : Copy) (ok : Bool) : State :=
  let ch := Tab.get Chan.reset (s.coreAt pid).chans c.ch
  if ch.copy ≠ some c.id then s
  else
    let u := s.modCoreAt pid (fun k =>
      let k1 := { k with chans := Tab.set k.chans c.ch ⟨none, false, 0, 0, ch.mark⟩ }
      (List.range 32).foldl (fun k n => if bitOf (k.tile n).fch c.ch then k.setTile n ((k.tile n).filled c.ch ok) else k) k1)
    u.endMarks pid c.ch c.id ch.mark

/-- The other cores that hold a copy's channel open: those to which its context has moved (23 R427). -/
def State.copyHosts (s : State) (c : Copy) : List Nat :=
  (s.cores.filter (fun e => e.1 != c.pid && (Tab.get Chan.reset e.2.chans c.ch).copy == some c.id)).map (fun e => e.1)

/-- The source's channel of a copy whose context has moved is freed when its last delivery there has landed (23 R427). -/
def State.freeMoved (s : State) (i : Nat) : State :=
  match s.copies[i]? with
  | none => s
  | some c =>
    let here := c.items.any (fun t => match t.dst with
      | .local _ => !t.ended
      | _ => false)
    if here ∨ s.copyHosts c = [] then s else s.freeChan c.pid c (c.first == 0)

/-- A segment has been settled: its source's tiles and its channel follow (10 Table 10.2, 23 R427). -/
def State.segmentDone (s : State) (i : Nat) : State := (s.sourceRead i).freeMoved i

/-- WM moves over delivered bytes (10 R266). -/
def State.advanceMark (s : State) (i : Nat) : State :=
  match s.copies[i]? with
  | some c => match c.items[0]? with
    | some t => match t.dst with
      | .local off =>
        let m := off + t.runLen c.len
        (s.modCoreAt c.pid (fun k =>
          ({ k with chans := Tab.set k.chans c.ch { Tab.get Chan.reset k.chans c.ch with mark := m } }).passTiles c.ch m)).passMarks c.pid c.ch c.id m
      | _ => s
    | none => s
  | none => s

/-- An update of the barrier that a copy is bound to, for item j (15 R347, R348). -/
def State.barOf (s : State) (c : Copy) (t : Item) (op : BarOp) : State :=
  match c.bar with
  | none => s
  | some (launch, lid, slot) =>
    match t.dst with
    | .recv p _ _ _ => s.modNet (fun n => { n with pkts := n.pkts ++ [⟨0, c.pid, engineCx, c.act, p, .bar slot op, false, none⟩] })
    | _ => s.engineSend c.pid c.act launch lid (.bar slot op)

/-- Writes a segment's lines at their homes, up to the first that finds a lock or no room, and tells how many are left. -/
def State.putLines (s : State) (by_ : Writer) : List Home → List Byte → State × Nat
  | h :: hs, bs => if s.canPut h 64 by_ then (s.put h (bs.take 64) by_).putLines by_ hs (bs.drop 64) else (s.heldInstall h 64 by_, hs.length + 1)
  | [], _ => (s, 0)

/-- Whose write a copy's delivery is. -/
def Copy.writer (c : Copy) : Writer := .copy c.act c.id

/-- Whether a copy has written bytes that some replica has still to apply (10 R279). -/
def State.copyOpen (s : State) (c : Copy) : Bool := s.vers.reps.any (fun r => r.by_ == c.writer)

/-- Whether a delivery has begun: its CRC has been checked. -/
def State.segmentBegun (s : State) (c : Copy) (g : Seg) : Bool := g.put != 0 || s.vers.singles.any (fun x => x.by_ == c.writer)

/-- A segment that cannot be delivered after all: what it holds is free again (10 R286). -/
def State.segmentFails (s : State) (i item seg fate : Nat) (c : Copy) : State :=
  let t := if s.vers.singles.any (fun x => x.by_ == c.writer) then
      (s.modVers (fun v => { v with singles := v.singles.filter (fun x => x.by_ != c.writer) })).advanceStable else s
  (t.modCopy i (fun c => c.settle item seg fate)).segmentDone i

/-- COPY_SEGMENT_DELIVERY: the destination checks the CRC of a segment and writes it; a segment that fails is resent once (15 R339,
R343, R345, R347). It counts as delivered when every replica has its bytes, and its debit follows that (15 R356). -/
def execCopySegmentDelivery (i item seg : Nat) (crcOk : Bool) (s : State) : Out :=
  .next (match s.copies[i]? with
    | none => s
    | some c => match c.items[item]? with
      | none => s
      | some t => match t.segs[seg]? with
        | none => s
        | some g => match g.data with
          | none => s
          | some data =>
            let n := c.segLen seg
            if g.fate ≠ 0 ∨ s.segmentHeld c t.dst (4096 * seg) (4096 * seg + n) then s
            else if !crcOk && !s.segmentBegun c g then
              if g.resent then s.segmentFails i item seg 2 c
              else s.modCopy i (fun c => c.modItem item (fun t => { t with segs := updAt (fun g => { g with resent := true }) t.segs seg }))
            else match s.segmentHomes c t.dst seg with
              | none => s.segmentFails i item seg 3 c
              | some all =>
                let hs := all.drop g.put
                if hs.any (fun h => s.keyHeld (h.writeKey s.sys.lead) || (s.homeLost h && !s.homeDown h)) then s
                else if hs.any (fun h => s.homeDown h) then s.segmentFails i item seg 2 c
                else
                  let r := s.putLines c.writer hs (data.drop (64 * g.put))
                  if r.2 ≠ 0 ∨ r.1.copyOpen c then
                    r.1.modCopy i (fun c => c.modItem item (fun t => { t with segs := updAt (fun g => { g with put := all.length - r.2 }) t.segs seg }))
                  else
                    let u := r.1.modCopy i (fun c => c.settle item seg 1)
                    ((u.advanceMark i).barOf c t (.debit n)).freeMoved i)

/-! ## The end of an item -/

/-- Offset of the lowest byte not delivered, and the bytes not delivered (15 Table 15.6). -/
def Copy.lost (c : Copy) (t : Item) : Nat × Nat :=
  let miss := t.segs.filter (fun g => g.fate != 1)
  match miss with
  | [] => (c.len, 0)
  | g :: _ => (4096 * g.no, miss.foldl (fun n g => n + c.segLen g.no) 0)

/-- ST of an item (15 R345). -/
def Item.status (t : Item) : Nat :=
  if t.segs.any (fun g => g.fate == 3) then 2 else if t.segs.any (fun g => g.fate != 1) then 1 else 0

/-- The address of byte `off` of an item's destination (15 R346). -/
def CopyDst.addr (d : CopyDst) (off : Nat) : Nat :=
  match d with
  | .local o => o + off
  | .ea a => (a + W off).toNat
  | .lid _ o => o + off
  | .recv _ _ _ base => base.getD 0 + off

/-- A completion entry (15 Table 15.6). -/
def copyEntry (st ch item off notd : Nat) : Word :=
  W (st * 2 ^ 62 + ch % 8 * 2 ^ 59 + item % 16 * 2 ^ 55 + off % 2 ^ 24 * 2 ^ 24 + notd % 2 ^ 24)

/-- The copy ends with its last entry: its channel closes on every core that holds it open, and its source's tiles are released
(10 R267, Table 10.2; 23 R427). -/
def State.closeCopy (s : State) (i : Nat) (ok : Bool) : State :=
  match s.copies[i]? with
  | none => s
  | some c =>
    let t := { s with copies := s.copies.eraseIdx i }
    let u := t.modCoreAt c.pid (fun k => c.outs.foldl (fun k n => k.setTile n (k.tile n).drained) k)
    ((s.copyHosts c).foldl (fun s p => s.freeChan p c ok) (u.freeChan c.pid c ok)).refreshPend c.act

/-- One entry of a copy: Q3, the effect that FX asks for, and the barrier's failure mark (15 R344, R346, R347). -/
def State.reportCopy (s : State) (c : Copy) (pos st off notd addr : Nat) : State :=
  let t := s.pushOwn c.act 3 [copyEntry st c.ch pos off notd]
  if st = 0 ∨ !c.fx then t
  else
    let e := if st = 2 then Eff.copyfault else Eff.copyfail
    t.addPend c.act ⟨e, { eff := e, arg := W notd, addr := W addr, lanes := W (2 ^ pos) }⟩

/-- COPY_ITEM_COMPLETION: the oldest ended item of a copy is reported once Q3 has room; the last one closes the channel
(15 R344, R349). -/
def execCopyItemCompletion (i item : Nat) (s : State) : Out :=
  .next (match s.copies[i]? with
    | none => s
    | some c =>
      if !c.accepted || 16 ≤ s.ownQueueLen c.act 3 then s
      else if c.sub then
        let heard := c.items.all (fun t => match t.dst with
          | .recv _ _ _ base => base.isSome
          | _ => true)
        if !c.items.all Item.ended || !heard || item != 0 then s
        else
          let bad := c.items.filter (fun t => t.status != 0)
          let marked := bad.foldl (fun s t => s.barOf c t (.mark (t.dst.addr (c.lost t).1) (c.lost t).2 t.pos (t.status == 2))) s
          let worst := bad.foldl (fun (m : Option Item) t => match m with
            | some u => if (c.lost t).1 < (c.lost u).1 then some t else m
            | none => some t) none
          match worst with
          | none => (marked.reportCopy c 0 0 c.len 0 0).closeCopy i true
          | some t =>
            let off := (c.lost t).1
            let st := if c.first = 3 then 2 else 1
            (marked.reportCopy c 0 st off (bad.foldl (fun n t => n + (c.lost t).2) 0) (t.dst.addr off)).closeCopy i false
      else match c.items[item]? with
        | none => s
        | some t =>
          let ready := match t.dst with
            | .recv _ _ _ base => base.isSome
            | _ => true
          if c.ends.head? ≠ some item ∨ !ready then s
          else
            let (off, notd) := c.lost t
            let st := t.status
            let addr := t.dst.addr off
            let s1 := if st = 0 then s else s.barOf c t (.mark addr notd t.pos (st == 2))
            let s2 := s1.reportCopy c t.pos st off notd addr
            let s3 := s2.modCopy i (fun c => { (c.modItem item (fun t => { t with closed := true })) with ends := c.ends.drop 1 })
            let last := (List.range c.items.length).all (fun j => j == item || (match c.items[j]? with
              | some u => u.closed
              | none => true))
            if last then s3.closeCopy i (st == 0) else s3)

/-! ## CPYM headers and held deliveries -/

/-- CPYM_HEADER_ARRIVAL: a receiver reads its landing base and credits its barrier; a landing past the scratchpad fails the
item as a fault (15 R348). A core that has left the tag since takes the copy that was under way (09 R233). -/
def execCpymHeaderArrival (i : Nat) (s : State) : Out :=
  .next (match s.arriving i with
    | none => s
    | some (p, t) => match p.body with
      | .cpym id item =>
        (match t.copies.findIdx? (fun c => c.id == id) with
        | none => t
        | some j => match t.copies[j]? with
          | none => t
          | some c => match c.items[item]? with
            | none => t
            | some it => match it.dst with
              | .recv core tile off _ =>
                let k := t.coreAt core
                let base := (k.tile tile).base + off
                let u := t.modCopy j (fun c => c.modItem item (fun x => { x with dst := .recv core tile off (some base) }))
                let v := match c.bar with
                  | some (_, _, slot) => t.applyBar core slot p (.credit c.len)
                  | none => t
                let w := { v with copies := u.copies }
                if Config.spadBytes < base + c.len then
                  (w.modCopy j (fun c => (List.range it.segs.length).foldl (fun c n => c.settle item n 3) c)).segmentDone j
                else w
              | _ => t)
      | _ => s)

/-- DRAIN_HOLD_RELEASE: once DCNT is 0, held deliveries go on as from READY (10 Table 10.2). -/
def execDrainHoldRelease (core : Nat) (t : Reg) (s : State) : Out :=
  let n := t.toNat
  .next (if ((s.coreAt core).tile n).dcnt ≠ 0 then s
    else
      let held := s.copies.filter (fun c => c.pid == core && c.drains.contains n)
      let u := { s with copies := s.copies.map (fun c => if c.pid = core then { c with drains := c.drains.filter (fun m => m != n) } else c) }
      held.foldl (fun s c => match c.items.head? with
        | some it => (match it.dst with
          | .local off =>
            let x := (s.coreAt core).tile n
            if overlaps x.base x.stop off (off + c.len) then s.tileCopyIn core n c.ch off (off + c.len) else s
          | _ => s)
        | none => s) u)

end Sys2Proof.Machine
end

