-- ==== Sys2Proof/Machine/Effects.lean ====
section
/-! DEFINITION. The instructions of handler frames, effects and tokens (06 R157 to R164). -/

namespace Sys2Proof.Machine

/-- Whether a HANDLE descriptor is refused (06 R157). -/
def badDescriptor (c : Word) : Bool :=
  fld c 31 25 != 0 || fld c 23 21 != 0 || fld c 63 52 < fld c 51 40 || fld c 39 32 < 12 || fld c 20 0 % 64 != 0
  || fld c 20 0 + fld c 39 32 * 64 > Config.spadBytes

/-- The four words of a frame (06 Table 6.2). -/
def frameWords (hpc ssp desc : Word) (hf : Word) (sup : Bool) : List Word :=
  [hpc, ssp, W (fld desc 20 0 * 2 ^ 21 + fld hf 20 0), W (fld desc 63 32 * 2 ^ 32 + b2n sup * 2 ^ 26 + fld desc 24 24 * 2 ^ 24)]

def execHandle (sp : Bool) (a b c : Reg) (s : State) : Out :=
  issue s sp 4 (do
    let x ← Act.rdG a
    let y ← Act.rdG b
    let z ← Act.rdG c
    Act.check (x.toNat % 32 != 0 || x.toNat + 32 > Config.spadBytes) (illegal x)
    Act.check (flag y 0) (illegal y)
    Act.check (badDescriptor z) (illegal z)
    let g31 ← Act.rdG 31
    let cx ← Act.ctx
    Act.writeSpad s.here x.toNat (wordsBytes (frameWords y g31 z cx.hf cx.stat.sup))
    let cap := fld z 20 0
    let h ← Act.readSpad s.here cap 8
    Act.writeSpad s.here cap (bytesOf 8 ((bitsOf (natOf h) 63 48 + 1) % 2 ^ 16 * 2 ^ 48 + x.toNat))
    Act.updCtx (fun c => { c with hf := x }))

def execUnhandle (sp : Bool) (a : Reg) (s : State) : Out :=
  issue s sp 4 (do
    let x ← Act.rdG a
    let c ← Act.ctx
    Act.check (c.hf == 0 || x != c.hf) (illegal x)
    let bad : Raise := { eff := Eff.illegal, addr := c.hf }
    Act.check (c.hf.toNat % 32 != 0 || c.hf.toNat ≥ Config.spadBytes) bad
    let _ ← Act.readSpad s.here c.hf.toNat 32
    let f := (← get).frameAt (← get).pid c.hf.toNat
    Act.check f.malformed bad
    Act.check f.busy (illegal x)
    Act.check (f.sys && !c.stat.sup) privFault
    Act.spans s.here [(f.cap, 8)]
    Act.upd (fun t => t.bumpGen t.pid f.cap)
    Act.updCtx (fun c => { c with hf := W f.link }))

/-- The id checks of R146 and R148. -/
def Act.effectId (e : Nat) : Act Unit := do
  Act.check (e == 0 || (e < 0x100 && !Eff.listed e)) (illegal 0)
  Act.check (e < 0x100 && !(← Act.sup)) privFault

/-- PERFORM and PERFORMV after their checks: the wait for results, then delivery with the next instruction as continuation
(06 R152, R159). -/
def Act.perform (here : Word) (sp : Bool) (e : Nat) (arg lanes : Word) (vl : Option PReg) : Act Unit := do
  Act.waitIf (!(← Act.ctx).regs.allPresent) .presence
  let t ← get
  let r : Raise := { eff := e, arg := arg, lanes := lanes }
  Act.waitIf (t.deliveryHeld t.pid t.cx r) .drain
  Act.stop ((t.deliver t.pid t.cx r here t.ctx.pc false true vl).switch sp)

def execPerform (sp : Bool) (e : BitVec 12) (a : Reg) (s : State) : Out :=
  issue s sp 4 (do
    Act.effectId e.toNat
    let x ← Act.rdG a
    Act.perform s.here sp e.toNat x 1 none)

def execPerformv (sp : Bool) (e : BitVec 12) (a : Reg) (p : PReg) (s : State) : Out :=
  issue s sp 4 (do
    Act.effectId e.toNat
    let x ← Act.rdG a
    let m ← Act.rdP p
    if m = 0 then pure () else Act.perform s.here sp e.toNat x m (some p))

/-- The start of the record that a token names, read as part of the context's own scratchpad (06 R154, R166). -/
def Act.tokenSpan (here t : Word) : Act Unit :=
  if fld t 5 4 < 2 ∧ fld t 3 0 = 0 ∧ fld t 47 6 * 64 < Config.spadBytes then Act.spans here [(fld t 47 6 * 64, 64)] else pure ()

/-- The checks of R154: a dead token raises BADTOKEN, a supervisor's token at user level PRIV. -/
def Act.liveToken (here t : Word) : Act (Bool × CRec × Nat) := do
  Act.tokenSpan here t
  let s ← get
  match s.tokenRec s.pid s.cx s.ctx t with
  | none => Act.raise { eff := Eff.badtoken, arg := t }
  | some r => do
    Act.check ((r.1 || r.2.1.sup) && !s.ctx.stat.sup) privFault
    return r

/-- Copies a captured segment back, in parts of at most 8 bytes that each take one place (11 R289): parts in the core's own scratchpad
at once, others as store requests (06 R161). -/
def Act.putSegment (here : Word) : Nat → List (Home × Word) → List Byte → Act Unit
  | n + 1, (h, a) :: hs, bs => do
    let m := min (8 - a.toNat % 8) (hs.length + 1)
    if h.own (← get).pid then Act.upd (fun s => s.wr h.key (bs.take m)) else Act.post [⟨h, m⟩] (.store (bs.take m)) false false here a
    Act.putSegment here n (hs.drop (m - 1)) (bs.drop m)
  | _, _, _ => pure ()

/-- The frames of a list with the headers of their records. -/
def frameSpans (l : List Frame) : List (Nat × Nat) := l.flatMap (fun f => [(f.addr, 32), (f.cap, 64)])

/-- The frames and records that a return reads or changes (06 R161, R166). -/
def State.returnSpans (s : State) (pid cx : Nat) (sysTok : Bool) (r : CRec) (cap : Nat) : List (Nat × Nat) :=
  let c := s.ctxAt pid cx
  let f := if sysTok then 1 else r.frame
  (if sysTok then [] else [(cap, 768), (f, 32)])
  ++ frameSpans (s.framesTo pid (c.handlerBase f) 4096 c.hf.toNat)
  ++ (if c.hframe = 0 ∨ c.hframe = W f ∨ c.hframe = 1 then [] else frameSpans [s.frameAt pid c.hframe.toNat])
  ++ frameSpans (s.framesTo pid (if sysTok then 0 else f) 4096 r.hf.toNat)

/-- The frames and records that an abandonment reads or changes (06 R162, R166). -/
def State.discardSpans (s : State) (pid : Nat) (sysTok : Bool) (r : CRec) : List (Nat × Nat) :=
  (if sysTok then [] else [(r.frame, 32)]) ++ frameSpans (s.framesTo pid (if sysTok then 0 else r.frame) 4096 r.hf.toNat)

/-- The restore of R161 writes every general and predicate register: it waits for each, and meets an error left at one
(01 R12, 05 R121). -/
def Act.restorable : Act Unit := fun s =>
  let r := s.ctx.regs
  if r.gp != BitVec.allOnes 32 || r.pp != BitVec.allOnes 8 then .error (.wait .presence)
  else match s.ctx.poison.find? (fun p => match p.dest with
    | .v _ => false
    | _ => true) with
    | some p => .error (.poison p.dest p.raise)
    | none => .ok ((), s)

/-- RESUME and RESUMEM (06 R161). -/
def resumeOp (sp : Bool) (a b : Reg) (p : PReg) (many : Bool) (s : State) : Out :=
  issue s sp 4 (do
    let t ← Act.rdG a
    let v ← Act.rdG b
    let m ← Act.rdP p
    let (sysTok, r, cap) ← Act.liveToken s.here t
    Act.check (many && (sysTok || !r.multi)) (illegal t)
    Act.restorable
    Act.spans s.here ((← get).returnSpans s.pid s.cx sysTok r cap)
    if many then do
      Act.spans s.here (if r.seglen = 0 then [] else [(cap + 0x300, r.seglen)])
      let st ← get
      Act.waitIf (st.segHeld st.pid st.ctx .write r.g31.toNat r.seglen) .drain
      match st.segHomes st.pid st.ctx s.here r.g31.toNat r.seglen with
      | .error e => Act.raise e
      | .ok hs => do
        let seg := st.rd (spadKey st.pid (cap + 0x300)) r.seglen
        Act.putSegment s.here r.seglen hs seg
    else pure ()
    let st ← get
    Act.stop ((st.resumeWith st.pid st.cx sysTok r cap v m many).switch sp))

def execResume (sp : Bool) (a b : Reg) (c : PReg) (s : State) : Out := resumeOp sp a b c false s
def execResumem (sp : Bool) (a b : Reg) (c : PReg) (s : State) : Out := resumeOp sp a b c true s

def execDiscard (sp : Bool) (d a : Reg) (s : State) : Out :=
  issue s sp 4 (do
    let t ← Act.rdG a
    Act.interlock (.g d)
    let (sysTok, r, cap) ← Act.liveToken s.here t
    Act.spans s.here ((← get).discardSpans s.pid sysTok r)
    let st ← get
    let (u, v) := st.discardWith st.pid st.cx sysTok r cap
    set u
    Act.wrG d v)

/-- TKSTAT (06 Table 6.10). -/
def State.tkstat (s : State) (pid cx : Nat) (t : Word) : Word :=
  let c := s.ctxAt pid cx
  match s.tokenRec pid cx c t with
  | none => 0
  | some (sysTok, r, _) =>
    let busy := if sysTok then c.sysBusy else (s.frameAt pid r.frame).busy
    W (r.effid * 2 ^ 16 + b2n r.vlane * 16 + b2n busy * 8 + b2n sysTok * 4 + b2n (!sysTok && r.multi) * 2 + 1)

def execTkstat (sp : Bool) (d a : Reg) (s : State) : Out :=
  issue s sp 4 (do
    let t ← Act.rdG a
    Act.tokenSpan s.here t
    match s.tokenRec s.pid s.cx s.ctx t with
    | some (false, r, _) => Act.spans s.here [(r.frame, 32)]
    | _ => pure ()
    let st ← get
    Act.wrG d (st.tkstat st.pid st.cx t))

def execShandle (sp : Bool) (a : Reg) (s : State) : Out :=
  issue s sp 4 (do
    Act.needSup
    let x ← Act.rdG a
    Act.check (flag x 0) (alignFault x)
    Act.updCore (fun k => { k with shandler := x }))

end Sys2Proof.Machine
end

