-- ==== Sys2Proof/Machine/LaunchUnit.lean ====
section
/-! DEFINITION. The launch unit (08 R210 to R213, R459; 24 R443, R444): the service of the launch queues, the check of a record,
the start of a core, and the end of a launch with its completion record. -/

namespace Sys2Proof.Machine

/-! ## Launch queues (24 R443) -/

/-- Whether a queue has something to serve. -/
def State.lqServes (s : State) (q : Nat) : Bool :=
  let l := s.lq q
  l.en && !l.err && l.head != l.tail && !(l.ser && s.lqBusy q)

/-- One turn of the launch unit at queue q. -/
def State.serveQueue (s : State) (q : Nat) : State :=
  let l := s.lq q
  let t := s.modSys (fun y => { y with lqLast := q })
  if 2 ^ l.logn < (l.tail + 2 ^ 16 - l.head) % 2 ^ 16 then
    let u := t.setLq q { l with err := true }
    if l.irq then u.msix l.vec else u
  else
    let pa := l.base.toNat + 128 * (l.head % 2 ^ l.logn)
    if s.keyHeld pa || s.keyHeld (pa + 64) then s
    else (t.submit (W pa) (s.rdWs pa 16) ⟨some q, s.sys.lead, false, l.root⟩).setLq q { l with head := (l.head + 1) % 2 ^ 16 }

/-- LAUNCH_QUEUE_SERVICE: the next queue in round robin gives one record. -/
def execLaunchQueueService (s : State) : Out :=
  let order := (List.range 32).map (fun i => (s.sys.lqLast + 1 + i) % 32)
  .next (if !s.sys.lval || s.sys.tripped then s
    else match order.find? (fun q => s.lqServes q) with
      | some q => s.serveQueue q
      | none => s)

/-! ## The check of a record (08 R210) -/

/-- Reserved bits of the record (08 Table 8.3). -/
def Launch.reserved (l : Launch) : Bool :=
  let c := l.word 3
  fld c 63 39 != 0 || fld c 35 34 != 0 || fld c 31 30 != 0 || flag c 23 || fld c 15 13 != 0 || fld c 7 6 != 0
  || fld (l.word 13) 63 53 != 0 || fld (l.word 13) 31 21 != 0 || fld (l.word 14) 63 53 != 0 || fld (l.word 14) 31 21 != 0
  || l.word 15 != 0

/-- Whether STACK and OVF keep 01 R22. -/
def Launch.carveOk (l : Launch) : Bool :=
  l.stack % 64 == 0 && 1024 ≤ l.stack
  && (l.ovf == 0 || (l.ovf.toNat % 64 == 0 && 0x10000000000 ≤ l.ovf.toNat && l.ovf.toNat < 2 ^ 52))

/-- The bytes that the areas of R209 take. -/
def Launch.areaBytes (l : Launch) : Nat := 5 * l.stack + 4096 * l.cspl + 64 * l.dqsp + 16384

/-- Whether a region is out of order or meets the areas. -/
def Launch.regionBad (l : Launch) (lo hi : Nat) : Bool := decide (hi < lo) || (lo != hi && overlaps lo hi l.areas Config.spadBytes)

/-- Whether a die and every cluster of it that the rectangle meets is ready (25 R446). -/
def State.coversReady (s : State) (l : Launch) : Bool :=
  (List.range l.size).all (fun n =>
    let p := l.place n
    flag s.sys.ready0 (2 + dieOf p) && flag (if dieOf p < 4 then s.sys.ready1 else s.sys.ready2) (dieOf p % 4 * 16 + clusterOf p))

/-- The first condition of R210 that rejects a record; 0 for none. -/
def State.launchCause (s : State) (l : Launch) : Nat :=
  if l.reserved then 1
  else if l.rectw = 0 ∨ l.recth = 0 ∨ 64 < l.x0 + l.rectw ∨ 32 < l.y0 + l.recth then 2
  else if l.blk 0 = 0 ∨ l.blk 1 = 0 then 3
  else if !l.carveOk then 4
  else if 60 < fld (l.word 8) 63 48 then 5
  else if Config.spadBytes < l.areaBytes + 0x10000 then 6
  else if l.regionBad l.dlo l.dhi ∨ l.regionBad l.mlo l.mhi then 7
  else if l.privl ∧ l.src.user then 8
  else if !l.waitrdy ∧ !s.coversReady l then 9
  else 0

/-! ## The completion record (08 R211, R459) -/

/-- The 32 bytes of a completion record (08 Table 8.4). -/
def Launch.completion (l : Launch) (st : Nat) (argw : Word) : List Byte :=
  wordsBytes [W (l.nfail % 2 ^ 32 * 2 ^ 32 + l.eff % 2 ^ 12 * 2 ^ 16 + st), argw, l.addrw, W (l.flid % 2 ^ 32 * 2 ^ 32 + l.id % 2 ^ 32)]

/-- Where the completion record goes; none where it cannot be written (08 R459). The launch unit has no local window. -/
def State.completionHome (s : State) (l : Launch) : Option Home :=
  let a := l.cpl.toNat
  if a % 32 ≠ 0 ∨ 2 ^ 52 ≤ a then none
  else match classOf a with
    | .core p off => some (.spad p off)
    | .trans => match s.walk l.src.ptroot a with
      | .error _ => none
      | .ok f =>
        if !f.allows true .write then none
        else match s.homeOf f .write a 32 false with
          | .error _ => none
          | .ok h => some h
    | _ => none

/-- What becomes of the completion write: none while it has to wait. -/
def State.complete (s : State) (l : Launch) (st : Nat) (argw : Word) : Option State :=
  let failed := s.logWith .completion 0 (bytesOf 8 l.id ++ bytesOf 8 l.cpl.toNat)
  if l.cpl = 0 then some s
  else match s.completionHome l with
    | none => some failed
    | some h =>
      if s.homeDown h || s.homeBad h 32 then some failed
      else if s.keyHeld h.key || s.homeLost h || !s.canPut h 32 .other || s.repOpen h 32 || (match h with
          | .spad p off => s.marked p off 32
          | _ => false) then none
      else some (s.put h (l.completion st argw) .other)

/-- The interrupt that a queue asks for when a launch of it ends (24 R444). -/
def State.signal (s : State) (l : Launch) : State :=
  match l.src.queue with
  | some q => if (s.lq q).irq then s.msix (s.lq q).vec else s
  | none => s

/-- LAUNCH_CHECK: record i of the launches is rejected, waits, or starts; the records of one queue in their order (08 R210, 24 R443).
The interrupt of a rejected record is sent as for an end: DEDUCED (log 34). -/
def execLaunchCheck (i : Nat) (s : State) : Out :=
  .next (match s.launches[i]? with
    | none => s
    | some l =>
      let behind := (s.launches.take i).any (fun m => m.phase == 0 && m.src.queue == l.src.queue && l.src.queue.isSome)
      let cause := s.launchCause l
      if l.phase ≠ 0 ∨ behind ∨ !s.sys.lval ∨ s.sys.tripped then s
      else if cause ≠ 0 then
        match s.complete l 3 (W cause) with
        | none => s
        | some t => (t.modLaunch l.id (fun x => { x with phase := 2 })).signal l
      else if !s.coversReady l then s
      else
        let lids := List.range l.size
        s.modLaunch l.id (fun x => { x with
          phase := 1, map := lids.map (fun n => (n, (l.place n, false))), todo := (lids.filter (fun n => l.starts n)).map (fun n => l.place n) }))

/-! ## Starting a core (08 R212, R369) -/

/-- Writes the .spad image of a routine (02 R47; log 14). -/
def State.writeImage (s : State) (pid : Nat) (entry : Word) : State :=
  match s.spads.find? (fun e => e.1 == entry) with
  | some e => e.2.foldl (fun s p => s.wr (spadKey pid p.1) p.2) s
  | none => s

/-- LAUNCH_CORE_START: a core of a launch writes its image, empties its rotation slots, and starts the start activation, or keeps it
until a context is free. -/
def execLaunchCoreStart (launch core : Nat) (s : State) : Out :=
  .next (match s.launch? launch with
    | none => s
    | some l =>
      if l.phase ≠ 1 ∨ !l.todo.contains core then s
      else
        let lid := ((List.range l.size).find? (fun n => l.place n == core)).getD 0
        let x : Start := ⟨l.id, lid, l.addr⟩
        let t := (s.writeImage core l.entry).modCoreAt core (fun k => { k with
          launches := k.launches ++ [l.id], unit := { k.unit with mat := { k.unit.mat with slots := [] } } })
        let u := t.modLaunch l.id (fun y => { y with
          todo := y.todo.filter (fun p => p != core), begun := y.begun ++ [lid], live := y.live + 1 })
        match u.freeLow core with
        | some cx => u.start core cx (u.beginLaunch x)
        | none => u.modCoreAt core (fun k => { k with starts := k.starts ++ [x] }))

/-! ## The end of a launch (08 R211, R197) -/

/-- Whether an activation belongs to a launch by the way it was started. -/
def Started.ofLaunch (x : Started) (id : Nat) : Bool :=
  match x with
  | .none => false
  | .message n => n == id
  | .launch n => n == id
  | .task n _ _ _ _ => n == id

/-- Whether a deque or a pending-task area holds a task of a launch (08 R211). -/
def Core.hasTask (k : Core) (id : Nat) : Bool :=
  k.deque.any (fun t => t.launch == id) || k.ptasks.any (fun p => match p.2.task with
    | some t => t.launch == id
    | none => false)

/-- Whether anything of a launch remains, in place or in an image of a core that has not been loaded (08 R211, 21 R407). -/
def State.launchLives (s : State) (l : Launch) : Bool :=
  l.live != 0 || !l.todo.isEmpty
  || s.ctxs.any (fun e => e.2.run != .free && e.2.started.ofLaunch l.id) || s.saved.any (fun v => v.hid.started.ofLaunch l.id)
  || s.net.joins.any (fun j => j.launch == l.id)
  || s.cores.any (fun e => e.2.hasTask l.id || e.2.starts.any (fun x => x.launch == l.id))
  || s.images.any (fun e => !e.loaded && e.core.hasTask l.id)
  || s.dies.any (fun d => d.2.paddock.any (fun q => q.2.any (fun t => t.launch == l.id)))

/-- The handler-table slots of an ended launch (08 R197). -/
def HSlot.ended (h : HSlot) (id : Nat) : HSlot := if h.lnch = id then { h with valid := false, gen := (h.gen + 1) % 256 } else h

/-- Accesses of a launch's cores that its completion record must not pass: it is a release at SYS scope (08 R211). -/
def State.launchBusy (s : State) (l : Launch) : Bool :=
  let mine := fun (pid : Nat) => l.map.any (fun e => e.2.1 == pid)
  s.net.reqs.any (fun r => mine r.pid) || s.vers.reps.any (fun r => match r.by_ with
    | .access p _ _ _ => mine p
    | .copy _ id => s.copies.any (fun c => c.id == id && mine c.pid)
    | .other => false)

/-- LAUNCH_END: slots are invalidated, the completion record is written, and the queue's interrupt is sent (08 R211, R459; 24 R444). -/
def execLaunchEnd (launch : Nat) (s : State) : Out :=
  .next (match s.launch? launch with
    | none => s
    | some l =>
      if l.phase ≠ 1 ∨ s.launchLives l ∨ s.launchBusy l then s
      else match s.complete l (if l.nfail = 0 then 1 else 2) l.argw with
        | none => s
        | some t =>
          let u := { t with cores := t.cores.map (fun (e : Nat × Core) => (e.1, { e.2 with
            ht := e.2.ht.map (fun (h : Nat × HSlot) => (h.1, h.2.ended l.id)), launches := e.2.launches.filter (fun n => n != l.id) })) }
          (u.modLaunch l.id (fun x => { x with phase := 2 })).signal l)

end Sys2Proof.Machine
end

