-- ==== Sys2Proof/Machine/Flags.lean ====
section
/-! DEFINITION. The flags of an instruction and the NUMERIC effect (03 R79, R80), and its rounding environment (03 R72, R73). -/

namespace Sys2Proof.Machine

/-- The lanes of a list as a mask. -/
def maskOf (l : List Nat) : Nat := l.foldl (fun m i => if bitOf m i then m else m + 2 ^ i) 0

/-- Raises the flags of an instruction's lanes: an enabled flag performs NUMERIC, else all join FLAGS (03 R79, R80). -/
def Act.flags (l : List (Nat × Nat)) : Act Unit := do
  let c ← Act.ctx
  let en := fld c.num.flagen 6 0
  let all := l.foldl (fun t e => t ||| e.2) 0
  let hot := l.filter (fun e => e.2 &&& en != 0)
  Act.check (!hot.isEmpty) { eff := Eff.numeric, arg := W all, lanes := W (maskOf (hot.map (fun e => e.1 % 64))) }
  if all = 0 then pure ()
  else Act.updCtx (fun c => { c with num := { c.num with flags := c.num.flags ||| W all } })

/-- The rounding environment of an instruction of the executing context; a code of 6 or 7 raises ILLEGAL (03 R72, R73). -/
def Act.rounding (mode : Nat) (sat : Bool) (operand : Word) : Act Rnd := do
  Act.check (6 ≤ mode) (illegal operand)
  let s ← get
  let c := s.ctx
  return ⟨mode, sat, fun lane => if mode = 5 then srDraw c.num.seed.toNat s.cx c.num.srCount.toNat lane else 0⟩

/-- An instruction that rounds under `sr` advances the counter (03 R72). -/
def Act.tick (mode : Nat) : Act Unit :=
  if mode = 5 then Act.updCtx (fun c => { c with num := { c.num with srCount := c.num.srCount + 1 } }) else pure ()

end Sys2Proof.Machine
end

