-- ==== Sys2Proof/Machine/Matrix.lean ====
section
/-! DEFINITION. The instructions of the matrix unit (16 R358, R359, R361, R362, R371 to R373): their checks and the commands that
they push to Q0. -/

namespace Sys2Proof.Machine

/-! ## Tiles that an instruction names -/

/-- A tile that an instruction names is READY: the instruction waits for FILLING and DRAINING, EMPTY raises ILLEGAL
(10 R265). -/
def Act.useTile (n : Nat) : Act Tile := do
  let t := (← Act.core).tile n
  Act.waitIf (t.state % 2 == 1) (.tile n)
  Act.check (t.state == 0) (illegal (W n))
  return t

/-- A scale tile, where a record names one (10 R262). -/
def Act.scaleTile (t : Tile) : Act (Option Tile) := do
  if t.scen then return some (← Act.useTile t.scale) else return none

def Tile.meets (t u : Tile) : Bool := overlaps t.base t.stop u.base u.stop

/-- ILLEGAL with a tile number as EFFARG. -/
def Act.tileFault (b : Bool) (n : Nat) : Act Unit := Act.check b (illegal (W n))

/-! ## Formats (16 Table 16.1) -/

/-- Formats of Ta; `sparse` those of MMASP (16 R368). -/
def mmaA (sparse : Bool) (f : Nat) : Bool := f < 2 || (8 ≤ f && f ≤ (if sparse then 11 else 15))
/-- Whether some row accepts Tb beside Ta. -/
def mmaB (sparse : Bool) (fa fb : Nat) : Bool :=
  if fa < 2 then fb < 2 || (fb == 7 && !sparse)
  else if fa < 12 then 8 ≤ fb && fb < 12
  else if fa < 14 then fb == 12 || fb == 13
  else fb == fa
/-- The accumulator format that a row gives. -/
def mmaC (fa : Nat) : Nat := if fa < 2 then 4 else if fa = 15 then 15 else 14
/-- A record that names a scale outside formats 8 to 13 (03 R69). -/
def badScale (t : Tile) : Bool := t.scen && !(8 ≤ t.fmt && t.fmt ≤ 13)
/-- A rounding code 6 or 7 (03 R73). -/
def badRnd (t : Tile) : Bool := 6 ≤ t.rnd
/-- An accumulator format. -/
def accFmt (f : Nat) : Bool := f == 4 || f == 14 || f == 15

/-- Gk breaks Table 16.2. -/
def badBlock (sparse : Bool) (g : Word) : Bool :=
  fld g 63 56 != 0 || flag g 43 || flag g 35 || fld g 27 12 != 0 || fld g 47 46 == 1 || fld g 45 44 == 1
  || (if sparse then fld g 47 44 != 0 else fld g 53 48 != 0)

/-! ## The push of a command -/

/-- A command of the executing context with its issue-time inputs (16 R362; 03 R72, R81). -/
def State.matCmd (s : State) (kind : Nat) (here : Word) (names : List Nat) (tile : Nat) : MCmd :=
  let c := s.ctx
  { kind := kind, cx := s.cx, act := c.act, iaddr := here, names := names, tile := tile
    ta := Tile.reset, tb := Tile.reset, tc := Tile.reset, scaleA := none, scaleB := none, gk := 0, factor := 0
    sat := false, az := false, neg := false, flagen := fld c.num.flagen 6 0, seed := c.num.seed.toNat, srn := c.num.srCount.toNat
    west := c.ident.west.toNat, north := c.ident.north.toNat, launch := c.ident.launch.toNat, after := s.net.nextReq }

/-- Waits for room in Q0 and pushes the command (16 R361 step 5, R362; 15 R458). -/
def Act.pushMatrix (m : MCmd) (mode : Nat) : Act Unit := do
  let s ← get
  Act.waitIf (16 ≤ (s.queue s.pid s.cx 0).length) .room
  Act.upd (fun s => s.push s.pid s.cx 0 [W (fld m.iaddr 47 0)])
  Act.updCore (fun k => { k with unit := { k.unit with mat := { k.unit.mat with cmds := k.unit.mat.cmds ++ [m] } } })
  Act.tick mode

/-- MMA, MMAR and MMASP (16 R361). A scale tile that Tc's record names is checked as the others are, and has no effect on the sum. -/
def matOp (s : State) (sp sat az neg : Bool) (kind : Nat) (d a b c : Reg) : Out :=
  issue s sp 4 (do
    let g ← Act.rdG c
    let sparse := kind == 2
    Act.check (badBlock sparse g) (illegal g)
    let ta ← Act.useTile a.toNat
    let tb ← Act.useTile b.toNat
    let tc ← Act.useTile d.toNat
    let sa ← Act.scaleTile ta
    let sb ← Act.scaleTile tb
    let sc ← Act.scaleTile tc
    Act.tileFault (!mmaA sparse ta.fmt || badScale ta) a.toNat
    Act.tileFault (!mmaB sparse ta.fmt tb.fmt || badScale tb) b.toNat
    Act.tileFault (tc.fmt != mmaC ta.fmt || (tc.fmt != 4 && badRnd tc)) d.toNat
    Act.tileFault (sa.any (fun t => t.fmt != 1)) ta.scale
    Act.tileFault (sb.any (fun t => t.fmt != 1)) tb.scale
    Act.tileFault (sc.any (fun t => t.fmt != 1)) tc.scale
    Act.tileFault (tc.meets ta || tc.meets tb || sa.any tc.meets || sb.any tc.meets || sc.any tc.meets) d.toNat
    let names := [a.toNat, b.toNat, d.toNat] ++ ([ta, tb, tc].filter (fun t => t.scen)).map (fun t => t.scale)
    let m := (← get).matCmd kind s.here names d.toNat
    Act.pushMatrix { m with ta := ta, tb := tb, tc := tc, scaleA := sa, scaleB := sb, gk := g, sat := sat, az := az, neg := neg }
      (if tc.fmt = 4 then 0 else tc.rnd))

def execMma (sp sat az neg : Bool) (d a b c : Reg) (s : State) : Out := matOp s sp sat az neg 0 d a b c
def execMmar (sp sat az neg : Bool) (d a b c : Reg) (s : State) : Out := matOp s sp sat az neg 1 d a b c
def execMmasp (sp sat az neg : Bool) (d a b c : Reg) (s : State) : Out := matOp s sp sat az neg 2 d a b c

/-- ACCRD (16 R371). A scale named in Ta's record is neither checked nor refused, here and in ACCZ, MSCL and the rank instructions,
whose check lists do not name it: DESIGN CHOICE (03 R69; log 72). -/
def execAccrd (sp : Bool) (d a b : Reg) (s : State) : Out :=
  issue s sp 4 (do
    let g ← Act.rdG b
    Act.check (fld g 63 2 != 0) (illegal g)
    let ta ← Act.useTile a.toNat
    let td ← Act.useTile d.toNat
    Act.tileFault (!accFmt ta.fmt) a.toNat
    Act.tileFault (td.fmt == 7 || badRnd td) d.toNat
    Act.tileFault (ta.meets td) d.toNat
    let m := (← get).matCmd 3 s.here [a.toNat, d.toNat] a.toNat
    Act.pushMatrix { m with ta := ta, tc := td, gk := g, sat := flag g 0, az := flag g 1 } td.rnd)

/-- ACCZ (16 R372). -/
def execAccz (sp : Bool) (d : Reg) (s : State) : Out :=
  issue s sp 4 (do
    let td ← Act.useTile d.toNat
    Act.tileFault (!accFmt td.fmt) d.toNat
    let m := (← get).matCmd 4 s.here [d.toNat] d.toNat
    Act.pushMatrix { m with tc := td } 0)

/-- MSCL (16 R373). -/
def execMscl (sp : Bool) (d a b : Reg) (s : State) : Out :=
  issue s sp 4 (do
    let x ← Act.rdG a
    let g ← Act.rdG b
    Act.check (fld g 63 1 != 0) (illegal g)
    let td ← Act.useTile d.toNat
    Act.tileFault (!accFmt td.fmt || (td.fmt != 4 && badRnd td)) d.toNat
    let m := (← get).matCmd 5 s.here [d.toNat] d.toNat
    Act.pushMatrix { m with tc := td, gk := g, factor := x, sat := flag g 0 } (if td.fmt = 4 then 0 else td.rnd))

end Sys2Proof.Machine
end

