-- ==== Sys2Proof/Machine/MatrixUnit.lean ====
section
/-! DEFINITION. What the matrix unit computes (16 R360, R363, R368, R371 to R373; 03 R82 to R86), in which order and with which
runs (R364, R365), its completion entries, flags and errors (R366, R367), and the rotation (R369, R370). -/

namespace Sys2Proof.Machine

/-! ## Operands (16 R360) -/

namespace MCmd

/-- Row length L: 64 bytes of A elements (16 Table 16.1). -/
def rowLen (m : MCmd) : Nat := 512 / fmtWidth m.ta.fmt
def ib (m : MCmd) : Nat := fld m.gk 34 28
def jb (m : MCmd) : Nat := fld m.gk 42 36
def kb (m : MCmd) : Nat := fld m.gk 11 0
def asel (m : MCmd) : Nat := fld m.gk 45 44
def bsel (m : MCmd) : Nat := fld m.gk 47 46
def mslot (m : MCmd) : Nat := fld m.gk 53 48
def keep (m : MCmd) : Bool := flag m.gk 54
def stat (m : MCmd) : Bool := flag m.gk 55
def sparse (m : MCmd) : Bool := m.kind == 2
/-- A command of the block arithmetic: MMA, MMAR or MMASP. -/
def block (m : MCmd) : Bool := m.kind < 3
def row (m : MCmd) (i : Nat) : Nat := 32 * m.ib + i
def col (m : MCmd) (j : Nat) : Nat := 32 * m.jb + j
/-- Rotation slot keys of the sources, where a slot is selected. -/
def slotA (m : MCmd) : Option Nat := if m.asel < 2 then none else some (m.asel - 2)
def slotB (m : MCmd) : Option Nat := if m.bsel < 2 then none else some (m.bsel - 2 + 2)

end MCmd

/-- Element number n of width w bits of a slot's bytes. -/
def slotElem (data : List Byte) (w n : Nat) : Nat := natOf ((data.drop (n * w / 8)).take (w / 8))

def State.matUnit (s : State) (pid : Nat) : MUnit := (s.coreAt pid).unit.mat
def State.modMat (s : State) (pid : Nat) (f : MUnit → MUnit) : State :=
  s.modCoreAt pid (fun k => { k with unit := { k.unit with mat := f k.unit.mat } })

/-- a(row i, position kk) as the command reads it. -/
def State.matA (s : State) (pid : Nat) (m : MCmd) (i kk : Nat) : Nat :=
  match m.slotA with
  | some n => slotElem (Tab.get [] (s.matUnit pid).slots n) (fmtWidth m.ta.fmt) (i * m.rowLen + kk)
  | none => s.elem pid m.ta (m.row i) (m.rowLen * m.kb + kk)

/-- b(logical k, column j). -/
def State.matB (s : State) (pid : Nat) (m : MCmd) (k j : Nat) : Nat :=
  match m.slotB with
  | some n => slotElem (Tab.get [] (s.matUnit pid).slots n) (fmtWidth m.tb.fmt) ((k - m.rowLen * m.kb) * 32 + j)
  | none => s.elem pid m.tb k (m.col j)

/-- The position p_t of a kept element of group q of block row i (16 R368). -/
def State.keptPos (s : State) (pid : Nat) (m : MCmd) (i q t : Nat) : Nat :=
  let byte := s.rdN (sideKey pid (512 * m.mslot + 16 * i + q / 2)) 1
  byte / 2 ^ (4 * (q % 2) + 2 * t) % 4

/-- The products of output (i, j): logical k, code of a, code of b (16 R360, R368). -/
def State.matTerms (s : State) (pid : Nat) (m : MCmd) (i j : Nat) : List (Nat × Nat × Nat) :=
  if m.sparse then
    (List.range 64).map (fun n =>
      let k := 128 * m.kb + 4 * (n / 2) + s.keptPos pid m i (n / 2) (n % 2)
      (k, s.elem pid m.ta (m.row i) (64 * m.kb + n), s.elem pid m.tb k (m.col j)))
  else (List.range m.rowLen).map (fun kk =>
    (m.rowLen * m.kb + kk, s.matA pid m i kk, s.matB pid m (m.rowLen * m.kb + kk) j))

/-- The scale blocks that a row of the command spans. -/
def MCmd.scaleBlocks (m : MCmd) : List Nat :=
  let n := if m.sparse then 128 else m.rowLen
  let lo := n * m.kb / 48
  (List.range ((n * m.kb + n - 1) / 48 + 1 - lo)).map (fun i => lo + i)

/-- Scale code of A for row i, or of B for column j, in scale block q; 127 stands for no scale (10 R262). -/
def State.codeA (s : State) (pid : Nat) (m : MCmd) (i q : Nat) : Nat :=
  match m.scaleA with
  | some t => s.elem pid t (m.row i) q
  | none => 127
def State.codeB (s : State) (pid : Nat) (m : MCmd) (j q : Nat) : Nat :=
  match m.scaleB with
  | some t => s.elem pid t q (m.col j)
  | none => 127

/-! ## One output (03 R84 to R86) -/

/-- The segments of a row: its scale blocks where a scale is named, else one (03 R82). -/
def MCmd.segs (m : MCmd) (l : List (Nat × Nat × Nat)) : List (Nat × List (Nat × Nat × Nat)) :=
  if m.scaleA.isNone && m.scaleB.isNone then [(0, l)]
  else m.scaleBlocks.map (fun q => (q, l.filter (fun t => t.1 / 48 == q)))

/-- Values of a code under NEG. -/
def negIf (b : Bool) (x : Num) : Num := if b then x.negate else x

/-- A floating-point output of the old accumulator code c (03 R84, R85). -/
def State.floatOut (s : State) (pid : Nat) (m : MCmd) (i j c : Nat) : Res :=
  let fc := m.tc.fmt
  let terms := s.matTerms pid m i j
  let prod := fun (t : Nat × Nat × Nat) => (negIf m.neg (numOf m.ta.fmt t.2.1), numOf m.tb.fmt t.2.2)
  let scaleNan := (!m.scaleA.isNone || !m.scaleB.isNone)
    && m.scaleBlocks.any (fun q => s.codeA pid m i q == 0xFF || s.codeB pid m j q == 0xFF)
  let acc := numOf fc c
  let read := terms.foldl (fun f t => f ||| readFlags m.ta.fmt t.2.1 ||| readFlags m.tb.fmt t.2.2) (if scaleNan then Fl.nan8 else 0)
  match specials fc m.sat acc (terms.map prod) scaleNan with
  | some r => { r with fl := r.fl ||| read }
  | none =>
    let low := if fc = 15 then 151 else 103
    let part := fun (g : Nat × List (Nat × Nat × Nat)) =>
      let sc : Int := (s.codeA pid m i g.1 : Int) + s.codeB pid m j g.1 - 254
      g.2.map (fun t => winTerm ((mulExact (prod t).1.exact (prod t).2.exact).scale sc))
    let sum := match m.segs terms with
      | [] => winTerm acc.exact
      | g :: gs => gs.foldl (fun t h => window low m.tc.rnd [t, window low m.tc.rnd (part h)])
          (window low m.tc.rnd (winTerm acc.exact :: part g))
    let rho := if m.tc.rnd = 5 then srDraw m.seed m.cx m.srn (32 * i + j) else 0
    roundFloat fc m.tc.rnd m.sat rho sum.exact

/-- An integer output (03 R86); DP8 counts in units of 2^-6. -/
def State.intOut (s : State) (pid : Nat) (m : MCmd) (i j c : Nat) : Res :=
  let value := fun f x => if f = 7 then dp8 x else intOf f x
  let sum := (s.matTerms pid m i j).foldl (fun (z : Int) t => z + value m.ta.fmt t.2.1 * value m.tb.fmt t.2.2) 0
  intRule 4 m.sat (intOf 4 c + (if m.neg then -sum else sum))

/-! ## Errors (16 R367) -/

/-- The 64-byte row of an element when it is marked uncorrectable. -/
def State.badElem (s : State) (pid : Nat) (t : Tile) (i j : Nat) : List Nat :=
  match t.addr i j with
  | some a => if s.bad (spadKey pid a) (fmtWidth t.fmt / 8) then [lineOf a] else []
  | none => []

def State.badScaleOf (s : State) (pid : Nat) (t : Option Tile) (at_ : List (Nat × Nat)) : List Nat :=
  match t with
  | some t => at_.flatMap (fun e => s.badElem pid t e.1 e.2)
  | none => []

/-- Erroneous rows among what block row i reads of A and its scales. -/
def State.badA (s : State) (pid : Nat) (m : MCmd) (i : Nat) : List Nat :=
  (if m.slotA.isSome then [] else (List.range m.rowLen).flatMap (fun kk => s.badElem pid m.ta (m.row i) (m.rowLen * m.kb + kk)))
  ++ s.badScaleOf pid m.scaleA (m.scaleBlocks.map (fun q => (m.row i, q)))

/-- Erroneous rows among what the block reads of B. -/
def State.badB (s : State) (pid : Nat) (m : MCmd) : List Nat :=
  if m.slotB.isSome then []
  else
    let n := if m.sparse then 128 else m.rowLen
    (List.range n).flatMap (fun kk => (List.range 32).flatMap (fun j => s.badElem pid m.tb (n * m.kb + kk) (m.col j)))

def State.badColumn (s : State) (pid : Nat) (m : MCmd) (j : Nat) : List Nat :=
  s.badScaleOf pid m.scaleB (m.scaleBlocks.map (fun q => (q, m.col j)))

/-- What became of an output: not an element of Tc, left unchanged with the rows in error, or a value with flags. -/
inductive MOut where
  | none
  | left (rows : List Nat)
  | val (code fl : Nat)

/-- Output (i, j) of a command; `old` is the run's value, where it holds one (16 R363, R365, R367). -/
def State.matOut (s : State) (pid : Nat) (m : MCmd) (badB : List Nat) (i j : Nat) (old : Option (Nat × Bool)) : MOut :=
  match m.tc.addr (m.row i) (m.col j) with
  | Option.none => .none
  | some _ =>
    let acc := if m.az || old.isSome then [] else s.badElem pid m.tc (m.row i) (m.col j)
    let bad := badB ++ s.badA pid m i ++ s.badColumn pid m j ++ acc
    if !bad.isEmpty then .left bad
    else
      let c := if m.az then 0 else (old.map (fun e => e.1)).getD (s.elem pid m.tc (m.row i) (m.col j))
      let r := if m.tc.fmt = 4 then s.intOut pid m i j c else s.floatOut pid m i j c
      .val r.code r.fl

/-! ## Runs (16 R365) -/

/-- Rows that a tile's elements at given places cover whole have been written: they are no longer uncorrectable (10 R270, 16 R365). -/
def State.rowsWritten (s : State) (pid : Nat) (t : Tile) (l : List (Nat × Nat)) : State :=
  if s.ue.isEmpty then s
  else
    let lines := l.filterMap (fun e => (t.addr e.1 e.2).map (fun a => lineOf (spadKey pid a)))
    { s with ue := s.ue.filter (fun k => (lines.filter (fun x => x == k)).length * (fmtWidth t.fmt / 8) < 64) }

/-- Writes the block of the run, a 64-byte row at a time, and keeps its values. -/
def State.flushRun (s : State) (pid : Nat) : State :=
  match (s.matUnit pid).run with
  | none => s
  | some r =>
    let t := ((List.range 1024).zip r.vals).foldl (fun s e => match e.2 with
      | some (v, true) => s.setElem pid r.tc (32 * r.ib + e.1 / 32) (32 * r.jb + e.1 % 32) v
      | _ => s) s
    let done := ((List.range 1024).zip r.vals).filterMap (fun e => match e.2 with
      | some (_, true) => some (32 * r.ib + e.1 / 32, 32 * r.jb + e.1 % 32)
      | _ => none)
    (t.rowsWritten pid r.tc done).modMat pid (fun u => { u with run := some { r with vals := r.vals.map (fun v => v.map (fun e => (e.1, false))) } })

/-- The end of a run. -/
def State.endRun (s : State) (pid : Nat) : State := (s.flushRun pid).modMat pid (fun u => { u with run := none })

/-- Whether a command belongs to a run. -/
def MCmd.inRun (m : MCmd) (r : MRun) : Bool := m.block && m.tile == r.tile && m.ib == r.ib && m.jb == r.jb && m.tc == r.tc

/-! ## The commands -/

/-- What a command leaves to report: flags, lanes with an enabled flag, rows in error, lanes left unchanged. -/
structure MReport where
  fl : Nat := 0
  lanes : Nat := 0
  bad : List Nat := []
  left : Nat := 0

def setLane (m i : Nat) : Nat := if bitOf m i then m else m + 2 ^ i

/-- MMA, MMAR, MMASP: the state and the report. -/
def State.runBlock (s : State) (pid : Nat) (m : MCmd) : State × MReport :=
  let old := match (s.matUnit pid).run with
    | some r => r.vals
    | none => List.replicate 1024 none
  let badB := s.badB pid m
  let outs := (List.range 1024).map (fun n => s.matOut pid m badB (n / 32) (n % 32) (old.getD n none))
  let vals := (outs.zip old).map (fun e => match e.1 with
    | .val c _ => some (c, true)
    | _ => e.2)
  let report := ((List.range 1024).zip outs).foldl (fun (r : MReport) e => match e.2 with
    | .none => r
    | .left rows => { r with bad := r.bad ++ rows, left := setLane r.left (e.1 / 32) }
    | .val _ fl => { r with fl := r.fl ||| fl, lanes := if fl &&& m.flagen = 0 then r.lanes else setLane r.lanes (e.1 / 32) }) {}
  (s.modMat pid (fun u => { u with run := some ⟨m.tc, m.tile, m.ib, m.jb, vals⟩ }), report)

/-- A rounding draw of a command for a lane (03 R72). -/
def MCmd.draw (m : MCmd) (mode lane : Nat) : Nat := if mode = 5 then srDraw m.seed m.cx m.srn lane else 0

/-- One element of ACCRD or MSCL is computed: its new state and the report (16 R367, R371, R373). -/
def MReport.note (r : MReport) (m : MCmd) (row fl : Nat) : MReport :=
  { r with fl := r.fl ||| fl, lanes := if fl &&& m.flagen = 0 then r.lanes else setLane r.lanes (row % 64) }

def State.runRead (s : State) (pid : Nat) (m : MCmd) : State × MReport :=
  let whole := m.ta.cells.filter (fun c => (s.badElem pid m.ta c.1 c.2).isEmpty)
  let out := m.ta.cells.foldl (fun (e : State × MReport) (c : Nat × Nat) =>
    let bad := e.1.badElem pid m.ta c.1 c.2
    if !bad.isEmpty then (e.1, { e.2 with bad := e.2.bad ++ bad, left := setLane e.2.left (c.1 % 64) })
    else
      let x := numOf m.ta.fmt (e.1.elem pid m.ta c.1 c.2)
      let r := roundNum m.tc.fmt m.tc.rnd m.sat (m.draw m.tc.rnd (c.1 * m.ta.cols + c.2)) x
      let t := e.1.setElem pid m.tc c.1 c.2 r.code
      (if m.az then t.setElem pid m.ta c.1 c.2 0 else t, e.2.note m c.1 r.fl)) (s, {})
  (out.1.rowsWritten pid m.tc whole, out.2)

def State.runZero (s : State) (pid : Nat) (m : MCmd) : State × MReport :=
  ((m.tc.cells.foldl (fun s c => s.setElem pid m.tc c.1 c.2 0) s).rowsWritten pid m.tc m.tc.cells, {})

def State.runScale (s : State) (pid : Nat) (m : MCmd) : State × MReport :=
  let f := m.tc.fmt
  let k := m.factor.toNat % 2 ^ fmtWidth f
  m.tc.cells.foldl (fun (e : State × MReport) (c : Nat × Nat) =>
    let bad := e.1.badElem pid m.tc c.1 c.2
    if !bad.isEmpty then (e.1, { e.2 with bad := e.2.bad ++ bad, left := setLane e.2.left (c.1 % 64) })
    else
      let x := e.1.elem pid m.tc c.1 c.2
      let r := if f = 4 then intRule 4 m.sat (intOf 4 x * intOf 4 k)
        else fMul f ⟨m.tc.rnd, m.sat, m.draw m.tc.rnd⟩ (c.1 * m.tc.cols + c.2) (numOf f x) (numOf f k)
      (e.1.setElem pid m.tc c.1 c.2 r.code, e.2.note m c.1 r.fl)) (s, {})

/-! ## Rotation (16 R369, R370) -/

/-- The bytes of the A block and of the B block that a command read. -/
def State.blockA (s : State) (pid : Nat) (m : MCmd) : List Byte :=
  (List.range 32).flatMap (fun i => (List.range m.rowLen).flatMap (fun kk => bytesOf (fmtWidth m.ta.fmt / 8) (s.matA pid m i kk)))
def State.blockB (s : State) (pid : Nat) (m : MCmd) : List Byte :=
  (List.range m.rowLen).flatMap (fun kk => (List.range 32).flatMap (fun j =>
    bytesOf (fmtWidth m.tb.fmt / 8) (s.matB pid m (m.rowLen * m.kb + kk) j)))

/-- The outgoing blocks of an MMAR: buffer 0 to WEST, buffer 1 to NORTH; the target slot is 0 from a tile and 1 − s from slot s. -/
def State.forwards (s : State) (pid : Nat) (m : MCmd) : Tab MFwd :=
  let slot := fun sel => if sel < 2 then 0 else 1 - (sel - 2)
  [(0, ⟨m.launch, m.west, 0, slot m.asel, s.blockA pid m⟩), (1, ⟨m.launch, m.north, 1, slot m.bsel, s.blockB pid m⟩)]

/-- The slots that a command's reads set EMPTY. -/
def MCmd.spent (m : MCmd) : List Nat := if m.keep || !m.block then [] else m.slotA.toList ++ m.slotB.toList

/-- Whether a command can run now: its sources are FULL, its outgoing buffers free, its context's earlier accesses performed, and
no byte that it reads lies above a watermark (16 R369, R370; 15 R356; 10 R267). -/
def State.matReady (s : State) (pid : Nat) (m : MCmd) : Bool :=
  let u := s.matUnit pid
  let full := fun n => (Tab.look u.slots n).isSome
  let clear := fun (t : Tile) (at_ : List (Nat × Nat)) => at_.all (fun e => match t.addr e.1 e.2 with
    | some a => !s.marked pid a (fmtWidth t.fmt / 8)
    | none => true)
  let pairs := fun (l k : List Nat) => l.flatMap (fun i => k.map (fun j => (i, j)))
  let rows := (List.range 32).map m.row
  let cols := (List.range 32).map m.col
  let n := if m.sparse then 128 else m.rowLen
  let read := if m.block then
      m.slotA.all full && m.slotB.all full
      && (m.slotA.isSome || clear m.ta (pairs rows ((List.range m.rowLen).map (fun kk => m.rowLen * m.kb + kk))))
      && (m.slotB.isSome || clear m.tb (pairs ((List.range n).map (fun kk => n * m.kb + kk)) cols))
      && m.scaleA.all (fun t => clear t (pairs rows m.scaleBlocks)) && m.scaleB.all (fun t => clear t (pairs m.scaleBlocks cols))
      && (m.az || clear m.tc (pairs rows cols))
    else if m.kind = 3 then clear m.ta m.ta.cells
    else m.kind = 4 || clear m.tc m.tc.cells
  read && !s.inFlight m.act m.after && (m.kind != 1 || u.out.isEmpty)

/-! ## Order and completion -/

/-- An entry that can be pushed: its context's Q1 has room, or its context has ended (16 R366). -/
def State.statReady (s : State) (e : MStat) : Bool := s.ownQueueLen e.act 1 < 16

/-- The next command: the first of a context that has no entry held by a full Q1; an entry with room is pushed before any command
(16 R364, R366). -/
def State.nextMatrix (s : State) (pid : Nat) : Option Nat :=
  let u := s.matUnit pid
  if u.stat.any (fun e => s.statReady e) then none else u.cmds.findIdx? (fun m => !u.stat.any (fun e => e.act == m.act))

/-- A status entry (16 Table 16.3). -/
def statWord (kind tile : Nat) (err : Bool) (fl : Nat) (iaddr : Word) : Word :=
  W (kind * 2 ^ 62 + tile % 32 * 2 ^ 57 + b2n err * 2 ^ 56 + fl % 128 * 2 ^ 49 + fld iaddr 47 0)

/-- Reports of an engine's command: flags by R81, and MEMERR for an uncorrectable error (16 R367, 17 R393). -/
def State.engineReport (s : State) (act : Nat) (r : MReport) (en : Nat) (iaddr : Word) : State :=
  let t := s.addFlags act r.fl en (W r.lanes) iaddr
  match r.bad with
  | [] => t
  | a :: l => t.addPend act ⟨Eff.memerr, { eff := Eff.memerr, arg := W (fld iaddr 47 0), addr := W (l.foldl min a), lanes := W r.left }⟩

/-- The command taken out of its queue, and its entry of Q0 (15 R458). -/
def State.acceptMatrix (s : State) (pid n : Nat) (m : MCmd) : State :=
  (s.modMat pid (fun u => { u with cmds := u.cmds.eraseIdx n })).popOwn m.act 0

/-- One command executed: a command outside the run ends it first; its own run ends unless the next queued command goes on
with it, and is written before a status entry (16 R364 to R367). -/
def State.runMatrix (s : State) (pid n : Nat) (m : MCmd) : State :=
  let s0 := match (s.matUnit pid).run with
    | some r => if m.inRun r then s else s.endRun pid
    | none => s
  let fwd := if m.kind = 1 then s0.forwards pid m else []
  let (s1, r) := if m.block then s0.runBlock pid m else if m.kind = 3 then s0.runRead pid m
    else if m.kind = 4 then s0.runZero pid m else s0.runScale pid m
  let s2 := (s1.acceptMatrix pid n m).modMat pid (fun u => { u with
    slots := m.spent.foldl (fun t k => Tab.del t k) u.slots
    out := fwd ++ u.out })
  let u := s2.matUnit pid
  let goesOn := match u.run, u.cmds.head? with
    | some r, some c => c.inRun r
    | _, _ => false
  let s3 := if goesOn then (if m.stat then s2.flushRun pid else s2) else s2.endRun pid
  let s4 := s3.engineReport m.act r m.flagen m.iaddr
  let kind := if m.block then 0 else m.kind
  let entry := kind = 3 ∨ kind = 5 ∨ (m.block ∧ m.stat)
  let code := if kind = 3 then 1 else if kind = 5 then 2 else 0
  let s5 := if entry then s4.modMat pid (fun u => { u with stat := u.stat ++ [⟨m.act, statWord code m.tile (!r.bad.isEmpty) r.fl m.iaddr⟩] }) else s4
  s5.refreshPend m.act

/-- MATRIX_UNIT_EXECUTE (16 R364). -/
def execMatrixUnitExecute (core : Nat) (s : State) : Out :=
  .next (match s.nextMatrix core with
    | none => s
    | some n => match (s.matUnit core).cmds[n]? with
      | none => s
      | some m => if s.matReady core m then s.runMatrix core n m else s)

/-- MATRIX_STATUS_PUSH: the oldest entry whose queue has room (16 R366). -/
def execMatrixStatusPush (core : Nat) (s : State) : Out :=
  let u := s.matUnit core
  .next (match u.stat.findIdx? (fun e => s.statReady e) with
    | none => s
    | some n => match u.stat[n]? with
      | none => s
      | some e => ((s.modMat core (fun u => { u with stat := u.stat.eraseIdx n })).pushOwn e.act 1 [e.word]).refreshPend e.act)

/-- FORWARD_HOLD_RELEASE: the outgoing block of buffer i leaves once its target slot is EMPTY and none is on its way there
(16 R370). -/
def execForwardHoldRelease (core i : Nat) (s : State) : Out :=
  .next (match Tab.look (s.matUnit core).out i with
    | none => s
    | some f =>
      let (dst, parked) := s.resolve f.launch f.lid
      let busy := (Tab.look (s.matUnit dst).slots (2 * f.buf + f.slot)).isSome
        || s.net.pkts.any (fun p => p.dst == dst && (match p.body with
          | .fwd b k _ => b == f.buf && k == f.slot
          | _ => false))
      if parked || busy then s
      else (s.modMat core (fun u => { u with out := Tab.del u.out i })).modNet (fun n => { n with
        pkts := n.pkts ++ [⟨0, core, matrixCx + i, 0, dst, .fwd f.buf f.slot f.data, false, none⟩] }))

/-- ROTATION_FORWARD_LANDING: all 2 KiB have landed, the slot is FULL (16 R369). -/
def execRotationForwardLanding (i : Nat) (s : State) : Out :=
  .next (match s.arriving i with
    | some (p, t) => (match p.body with
      | .fwd b k data => t.modMat p.dst (fun u => { u with slots := Tab.set u.slots (2 * b + k) data })
      | _ => s)
    | none => s)

end Sys2Proof.Machine
end

