-- ==== Sys2Proof/Machine/Power.lean ====
section
/-! DEFINITION. Power as the Paddock sees it (22): activity counters, estimates and the state of a cluster, the choice of a target for a migration, and
the move itself. -/

namespace Sys2Proof.Machine

/-! ## The cluster state (22 R418, R420) -/

/-- The cluster after an estimate of `p` milliwatts: TEMP counts sixteenths of a degree (22 R420). -/
def Cluster.estimate (k : Cluster) (p : Nat) : Cluster :=
  let hot := decide (1520 < k.temp)
  if k.opened then
    if hot || decide (k.bud < p) then { k with pest := p, opened := false, hot := hot } else { k with pest := p }
  else if k.temp < 1440 ∧ 16 * p ≤ 15 * k.bud then { k with pest := p, opened := true, hot := false }
  else { k with pest := p }

/-- The cores of a cluster, in order of their numbers. -/
def clusterCores (die cluster : Nat) : List Nat := ((List.range 256).map (fun n => die * 256 + n)).filter (fun p => clusterOf p == cluster)

/-- Adds n to activity counter `cls` of the cluster of a core (22 R418). -/
def State.count (s : State) (pid cls n : Nat) : State :=
  let k := s.clusterOfCore pid
  s.setClusterAt (dieOf pid) (clusterOf pid) { k with acts := Tab.set k.acts cls (Tab.get 0 k.acts cls + n) }

/-- The value at t of a line through breakpoints in rising order: the first below them, the last above them (22 R418). Rounding down is
the model's: DESIGN CHOICE (log 9). -/
def interpolate : List (Nat × Nat) → Nat → Nat
  | [], _ => 0
  | [p], _ => p.2
  | p :: q :: l, t =>
    if t < p.1 then p.2
    else if t < q.1 then (p.2 * (q.1 - t) + q.2 * (t - p.1)) / (q.1 - p.1)
    else interpolate (q :: l) t

/-- The nine breakpoints of the leakage table of a cluster at an operating point, in rising order of temperature (22 R418). -/
def leakTable (cluster point : Nat) : List (Nat × Nat) :=
  (List.range 9).map (fun i => ((List.range (i + 1)).foldl (fun t j => t + Config.leakGap cluster point j + 1) 0, Config.leakPower cluster point i))

/-- The operating points that the columns of a cluster span (00 Table 0.3). -/
def clusterPoints (die cluster : Nat) : List Nat := [1, 2, 3].filter (fun c => (clusterCores die cluster).any (fun p => colClass p == c))

/-- The estimate P of a cluster, in milliwatts: the weighted activity over 10 µs, a nanojoule per microsecond being a milliwatt, and
the leakage at its temperature, one table for each operating point that it spans (22 R418). -/
def State.clusterPower (s : State) (die cluster : Nat) : Nat :=
  let k := s.clusterAt die cluster
  let n := clusterKey die cluster
  k.acts.foldl (fun e x => e + x.2 * Config.energyWeight n x.1) 0 / 10
    + (clusterPoints die cluster).foldl (fun e c => e + interpolate (leakTable n c) k.temp) 0

/-! ## Targets (22 R421, R422) -/

/-- Whether a context holds a core reserved for its migration. -/
def Ctx.reserves (c : Ctx) (pid : Nat) : Bool := c.reserve == some pid || (match c.migp with
  | some (_, t) => t == pid
  | none => false)

/-- Whether a core is reserved for a migration, of a context in place or in an image. -/
def State.reserved (s : State) (pid : Nat) : Bool := s.ctxs.any (fun e => e.2.reserves pid) || s.saved.any (fun v => v.hid.reserves pid)

/-- Whether a stream is IDLE and holds nothing. -/
def Strm.idle (t : Strm) : Bool := t.state == 0 && t.queue.isEmpty && t.held.isEmpty && t.results.isEmpty

def State.seqAt (s : State) (pid n : Nat) : Seqn := Tab.get ⟨false, []⟩ (s.coreAt pid).unit.rank.seqs n

/-- The numbers of the streams that an activation owns on a core. -/
def State.ownStreams (s : State) (pid act : Nat) : List Nat :=
  [0, 1, 2, 3].filter (fun n => (s.stream pid n).owner == act && (s.stream pid n).state != 0)

/-- Whether the channel number of an open copy of an activation is in use on a core (23 R427). -/
def State.chanTaken (s : State) (act pid : Nat) : Bool :=
  s.copies.any (fun c => c.act == act && (Tab.get Chan.reset (s.coreAt pid).chans c.ch).copy.isSome)

/-- Whether a core can be the target of an activation on core `src` (22 R422, 23 R427). -/
def State.canReceive (s : State) (src act pid : Nat) : Bool :=
  let own := s.ownStreams src act
  dieOf pid == dieOf src && s.dispatchable pid
  && decide ((s.clusterOfCore pid).temp + 128 ≤ (s.clusterOfCore src).temp)
  && s.launches.all (fun l => l.phase != 1 || l.map.all (fun e => e.2.1 != pid))
  && [0, 1, 2, 3, 4].all (fun cx => s.vacant pid cx) && (s.coreAt pid).deque.isEmpty && !s.chanTaken act pid
  && own.all (fun n => (s.stream pid n).idle && (s.seqAt pid (s.stream src n).seq).q.isEmpty) && !s.reserved pid

/-- Hops along one dimension of the mesh of a die, which wraps around after 16 (00 R2 Table 0.2). -/
def ringHops (a b : Nat) : Nat := min (max a b - min a b) (16 - (max a b - min a b))

/-- Mesh hops between two cores of a die: a folded torus (00 R2 Table 0.2). -/
def hops (p q : Nat) : Nat := ringHops (rowOf p) (rowOf q) + ringHops (colOf p) (colOf q)

/-- Whether target p comes before target q: the coolest cluster, the lowest cluster number, the nearest core, the lowest core number
(22 R422). -/
def State.before (s : State) (src p q : Nat) : Bool :=
  let a := (s.clusterOfCore p).temp
  let b := (s.clusterOfCore q).temp
  if a ≠ b then a < b
  else if clusterOf p ≠ clusterOf q then clusterOf p < clusterOf q
  else if hops src p ≠ hops src q then hops src p < hops src q
  else p < q

def State.target (s : State) (src act : Nat) : Option Nat :=
  (((List.range 256).map (fun n => dieOf src * 256 + n)).filter (fun p => s.canReceive src act p)).foldl (fun b p =>
    match b with
    | none => some p
    | some q => if s.before src p q then some p else b) none

/-- Whether a context holds a persistent activation that has been resident for 2 ms, is alone on its core, and is not already being
moved (22 R421). -/
def State.movable (s : State) (pid cx : Nat) : Bool :=
  let c := s.ctxAt pid cx
  (match c.started with
    | .launch _ => true
    | _ => false)
  && c.run != .free && !c.groups.isEmpty && decide (c.startAt + 2 * Config.tickMs ≤ s.time) && c.migp.isNone && c.reserve.isNone
  && c.migr.isNone && [0, 1, 2, 3].all (fun n => n == cx || s.vacant pid n)

/-- Asks a context of a closed cluster to move, if it may and a target exists. -/
def State.askMove (s : State) (pid cx : Nat) : State :=
  if s.movable pid cx then
    match s.target pid (s.ctxAt pid cx).act with
    | some t => s.modCtxAt pid cx (fun c => { c with migp := some (s.time, t) })
    | none => s
  else s

/-- The contexts of a core, in place and in images, hold no pending MIGRATE any more (22 R421). -/
def State.withdrawMoves (s : State) (pid : Nat) : State :=
  let off := fun (c : Ctx) => { c with migp := none }
  let t := [0, 1, 2, 3].foldl (fun s cx => if (s.ctxAt pid cx).migp.isSome then s.modCtxAt pid cx off else s) s
  { t with saved := t.saved.map (fun (v : Saved) => if v.pid = pid ∧ v.hid.migp.isSome = true then { v with hid := off v.hid } else v) }

/-- CLUSTER_ESTIMATE: the estimate from the activity since the last one; pending MIGRATEs go when the cluster reopens, and are sought
while it is closed (22 R418, R420, R421). -/
def execClusterEstimate (die cluster : Nat) (s : State) : Out :=
  let k := { (s.clusterAt die cluster).estimate (s.clusterPower die cluster) with acts := [] }
  let t := s.setClusterAt die cluster k
  .next (if k.opened then (clusterCores die cluster).foldl State.withdrawMoves t
    else (clusterCores die cluster).foldl (fun s p => [0, 1, 2, 3].foldl (fun s cx => s.askMove p cx) s) t)

/-- MIGRATE_WITHDRAWAL: undelivered for 2 ms, it is withdrawn, and PREEMPT is requested (22 R421). -/
def execMigrateWithdrawal (core cx : Nat) (s : State) : Out :=
  .next (match (s.ctxAt core cx).migp with
    | none => s
    | some (since, _) =>
      if since + 2 * Config.tickMs ≤ s.time then
        (s.modCtxAt core cx (fun c => { c with migp := none })).writePreq core (W (0x12 * 256 + 2 ^ cx))
      else s)

/-! ## The move (22 R423, 10 R258) -/

/-- Where the frames linked inside the frame of each running handler begin (06 R152). -/
def State.innerTops (s : State) (pid : Nat) : Nat → Word → List Nat
  | 0, _ => []
  | n + 1, h =>
    if h = 0 ∨ h = 1 then []
    else
      let r := s.recAt pid (s.frameAt pid h.toNat).cap
      r.hf.toNat :: s.innerTops pid n r.hframe

/-- The effect-frame area of a context: its linked frames and their capture areas (10 R256). -/
def State.frameArea (s : State) (pid : Nat) (c : Ctx) : List (Nat × Nat) :=
  let tops := c.hf.toNat :: s.innerTops pid 4096 (if c.hframe = 1 then c.sysRec.hframe else c.hframe)
  (tops.flatMap (fun h => s.framesTo pid 0 4096 h)).flatMap (fun f => [(f.addr, f.addr + 32), (f.cap, f.cap + f.capsz * 64)])

/-- The areas that a migration moves: carve-out, effect-frame area, migratable region. -/
def State.moveAreas (s : State) (pid : Nat) (c : Ctx) : List (Nat × Nat) :=
  let l := s.launchOr c.ident.launch.toNat
  [(c.space.sklo.toNat, c.space.skhi.toNat), (l.mlo, l.mhi)] ++ s.frameArea pid c

/-- Whether n bytes from a local address meet an area. -/
def inAreas (areas : List (Nat × Nat)) (off n : Nat) : Bool := areas.any (fun a => overlaps off (off + n) a.1 a.2)

/-- Whether a packet to the core still brings something into the areas, or to the streams that move. -/
def Pkt.brings (p : Pkt) (areas : List (Nat × Nat)) (streams : List Nat) : Bool :=
  match p.body with
  | .msg m => (match m.land with
    | some (_, addr, data) => inAreas areas addr (2 * data.length)
    | none => false)
  | .rank n _ => streams.contains n
  | .hold _ => !streams.isEmpty
  | _ => false

/-- What the move waits for (22 R423). -/
def State.moveReady (s : State) (pid : Nat) (c : Ctx) : Bool :=
  let areas := s.moveAreas pid c
  let k := s.coreAt pid
  let unitIdle := k.unit.mat.cmds.all (fun m => m.act != c.act) && k.unit.mat.stat.all (fun e => e.act != c.act)
    && k.unit.rank.cmds.all (fun m => m.act != c.act)
  let reads := fun (x : Copy) => x.pid == pid && x.src.toNat < Config.spadBytes && inAreas areas x.src.toNat x.len
  let writes := fun (x : Copy) => x.items.any (fun i => match i.dst with
    | .local off => x.pid == pid && inAreas areas off x.len
    | .ea a => (match classOf a.toNat with
      | .spad off => x.pid == pid && inAreas areas off x.len
      | .core p off => p == pid && inAreas areas off x.len
      | _ => false)
    | .lid _ _ => false
    | .recv p _ _ base => p == pid && (match base with
      | some b => inAreas areas b x.len
      | none => true))
  c.regs.allPresent && !s.ownReqs c.act && unitIdle
  && k.chans.all (fun e => e.2.copy.isNone || !(e.2.ranged && inAreas areas e.2.lo (e.2.hi - e.2.lo)))
  && !s.copies.any (fun x => reads x || writes x)
  && !s.net.reqs.any (fun r => r.pieces.any (fun p => match p.home with
      | .spad q off => q == pid && inAreas areas off p.len
      | _ => false))
  && !s.net.lands.any (fun h => h.core == pid && h.pkt.brings areas [])
  && !s.net.pkts.any (fun p => p.dst == pid && p.brings areas (s.ownStreams pid c.act))

/-- Copies one area of a scratchpad to another core, with the marks of its uncorrectable rows. -/
def State.moveArea (s : State) (src dst : Nat) (a : Nat × Nat) : State :=
  let n := a.2 - a.1
  let t := s.wr (spadKey dst a.1) (s.rd (spadKey src a.1) n)
  let marks := s.ue.filter (fun l => spadKey src (a.1 / 64 * 64) ≤ l && l < spadKey src a.2)
  { t with ue := t.ue ++ marks.map (fun l => l - spadKey src 0 + spadKey dst 0) }

/-- Moves the tile records based in the migratable region; the source's are left EMPTY. -/
def State.moveTiles (s : State) (src dst : Nat) (l : Launch) : State :=
  let k := s.coreAt src
  let mine := (List.range 32).filter (fun n => decide (l.mlo ≤ (k.tile n).base) && decide ((k.tile n).base < l.mhi))
  let t := s.modCoreAt dst (fun d => mine.foldl (fun d n => d.setTile n (k.tile n)) d)
  t.modCoreAt src (fun d => mine.foldl (fun d n => d.setTile n { k.tile n with state := 0 }) d)

/-- The sequence slot n of a core becomes v. -/
def State.setSeq (s : State) (pid n : Nat) (v : Seqn) : State :=
  s.modCoreAt pid (fun k => { k with unit := { k.unit with rank := { k.unit.rank with seqs := Tab.set k.unit.rank.seqs n v } } })

/-- Moves a stream with its buffered flits, and gives the target the sequence slot that it names (17 R392). -/
def State.moveStream (s : State) (src dst n : Nat) : State :=
  let m := s.stream src n
  ((s.setStream dst n m).setStream src n Strm.reset).setSeq dst m.seq (s.seqAt src m.seq)

/-- Moves streams; the sequence slots that they name are empty on the source once all have moved (17 R392). -/
def State.moveStreams (s : State) (src dst : Nat) (l : List Nat) : State :=
  (l.map (fun n => (s.stream src n).seq)).foldl (fun t q => t.setSeq src q ⟨false, []⟩) (l.foldl (fun t n => t.moveStream src dst n) s)

/-- An open copy of a context that moves keeps its channel number on the target, with WM = 0 and no range; the channel that it leaves is
freed when the last delivery there has landed (23 R427). -/
def State.moveChan (s : State) (src dst i : Nat) : State :=
  match s.copies[i]? with
  | none => s
  | some c =>
    let t := if (Tab.get Chan.reset (s.coreAt dst).chans c.ch).copy = some c.id then s
      else s.modCoreAt dst (fun k => { k with chans := Tab.set k.chans c.ch ⟨some c.id, false, 0, 0, 0⟩ })
    if src = c.pid then t.freeMoved i else t.freeChan src c (c.first == 0)

/-- The channels of an activation's open copies move with it. -/
def State.moveChans (s : State) (src dst act : Nat) : State :=
  (List.range s.copies.length).foldl (fun t i => if (s.copies[i]?.map (fun c => c.act)) = some act then t.moveChan src dst i else t) s

/-- The context on its target: the residence time starts again (22 R421). -/
def State.moveCtx (s : State) (src dst cx : Nat) : State :=
  let c := s.ctxAt src cx
  let t := s.setCtxAt dst cx { c with
    run := .runnable, migr := none, preemptAt := none, startAt := s.time
    starts := laterCount (s.ctxAt dst cx).starts c.epoch, sysGen := laterCount (s.ctxAt dst cx).sysGen c.sysGen }
  let u := (t.setCtxAt src cx c.freed).modCoreAt src (fun k => { k with rq := setBit k.rq cx false })
  u.modCoreAt dst (fun k => { k with launches := k.launches ++ [c.ident.launch.toNat], cur := cx })

/-- MIGRATION_MOVE: the move that a write of MIGR requested (22 R423). -/
def execMigrationMove (core cx : Nat) (s : State) : Out :=
  let c := s.ctxAt core cx
  .next (match c.migr with
    | none => s
    | some v =>
      let dst := fld v 10 0
      if s.moveReady core c then
        let t := (s.moveAreas core c).foldl (fun t a => t.moveArea core dst a) s
        let u := t.moveTiles core dst (s.launchOr c.ident.launch.toNat)
        ((u.moveStreams core dst (s.ownStreams core c.act)).moveChans core dst c.act).moveCtx core dst cx
      else s)

end Sys2Proof.Machine
end

