-- ==== Sys2Proof/Machine/Rank.lean ====
section
/-! DEFINITION. The rank instructions (17 R379, R380, R384, R386, R390, R393). -/

namespace Sys2Proof.Machine

/-! ## Commands of the rank unit -/

/-- A command of the executing context with its issue-time inputs. -/
def State.rankCmd (s : State) (kind : Nat) (here : Word) (names : List Nat) (tile : Nat) : RCmd :=
  let c := s.ctx
  { id := s.net.nextReq, kind := kind, cx := s.cx, act := c.act, iaddr := here, names := names, tile := tile
    t0 := Tile.reset, t1 := Tile.reset, t2 := Tile.reset, t3 := Tile.reset, desc := 0, targets := []
    launch := c.ident.launch.toNat, flagen := fld c.num.flagen 6 0, seed := c.num.seed.toNat, srn := c.num.srCount.toNat
    after := s.net.nextReq }

/-- Waits for room in Q4 and pushes the command (17 R379, 15 R458). -/
def Act.pushRank (m : RCmd) (mode : Nat) : Act Unit := do
  let s ← get
  Act.waitIf (16 ≤ (s.queue s.pid s.cx 4).length) .room
  Act.upd (fun s => (s.push s.pid s.cx 4 [W (fld m.iaddr 47 0)]).modNet (fun n => { n with nextReq := n.nextReq + 1 }))
  Act.upd (fun s => s.modRank s.pid (fun u => { u with cmds := u.cmds ++ [m] }))
  Act.tick mode

/-- Channels of a tile (17 R378). -/
def Tile.count (t : Tile) : Nat := t.rows * t.cols

/-- RSORT (17 R379). -/
def execRsort (sp : Bool) (d a : Reg) (s : State) : Out :=
  issue s sp 4 (do
    let ta ← Act.useTile a.toNat
    let td ← Act.useTile d.toNat
    Act.tileFault (ta.fmt == 7 || 4096 < ta.count) a.toNat
    Act.tileFault (td.fmt != 3 || td.count < ta.count) d.toNat
    Act.tileFault (ta.meets td) d.toNat
    let m := (← get).rankCmd 0 s.here [a.toNat, d.toNat] d.toNat
    Act.pushRank { m with t0 := td, t1 := ta } 0)

/-- The targets of REMIT (17 R380 steps 2 and 3). -/
def Act.remitTargets (here : Word) (list : Bool) (z : Word) : Act (List Nat) := do
  let bad := illegal z
  if list then do
    Act.check (z.toNat % 32 != 0) (alignFault z)
    Act.check (Config.spadBytes < z.toNat + 32) bad
    let h := (chunks 2 16 (← Act.readSpad here z.toNat 32)).map natOf
    let m := h.headD 0
    Act.check (m == 0 || 12 < m || (h.drop (m + 1)).any (fun x => x != 0)) bad
    let l := (h.drop 1).take m
    Act.check (l.any (← get).lidBad) bad
    return l
  else do
    Act.check (fld z 63 12 != 0 || (← get).lidBad (fld z 11 0)) bad
    return [fld z 11 0]

/-- REMIT (17 R380). The place of its stream among the context's packets is taken at issue (17 R382). -/
def execRemit (sp : Bool) (d a b c : Reg) (s : State) : Out :=
  issue s sp 4 (do
    let y ← Act.rdG b
    let z ← Act.rdG c
    let thr := flag y 43
    Act.check (fld y 41 32 != 0 || 4096 < fld y 63 51 || (thr && (flag y 31 || fld y 30 23 == 255)) || (!thr && fld y 31 0 != 0))
      (illegal y)
    let targets ← Act.remitTargets s.here (flag y 42) z
    let tp ← Act.useTile d.toNat
    let ts ← if thr then Act.useTile a.toNat else pure Tile.reset
    Act.tileFault (tp.fmt != 3) d.toNat
    Act.tileFault (thr && ts.fmt == 7) a.toNat
    let t ← get
    let m := t.rankCmd 1 s.here (d.toNat :: (if thr then [a.toNat] else [])) d.toNat
    let places := targets.map (fun n => (n, t.resolve m.launch n))
    let heldHere := (t.net.held.filter (fun h => h.pkt.src == t.pid)).length
    let parked := places.filter (fun e => e.2.2)
    Act.waitIf (!parked.isEmpty && 32 < heldHere + parked.length) .room
    Act.pushRank { m with t0 := tp, t1 := ts, desc := y, targets := targets } 0
    Act.upd (fun t => t.modNet (fun n => { n with
      pkts := n.pkts ++ (places.filter (fun e => !e.2.2)).map (fun e => t.packet e.2.1 (.hold m.id) (some (m.launch, e.1)))
      held := n.held ++ parked.map (fun e => ⟨m.launch, e.1, t.packet e.2.1 (.hold m.id) (some (m.launch, e.1))⟩) })))

/-- RKSEQ (17 R384). -/
def execRkseq (sp : Bool) (a b : Reg) (s : State) : Out :=
  issue s sp 4 (do
    let x ← Act.rdG a
    let y ← Act.rdG b
    let n := y.toNat
    let t ← get
    let named := [0, 1, 2, 3].any (fun i => (t.stream t.pid i).state != 0 && (t.stream t.pid i).seq == n)
    Act.check (4 ≤ n || named) (illegal y)
    Act.check (x.toNat % 64 != 0) (alignFault x)
    Act.check (Config.spadBytes < x.toNat + 64) (illegal x)
    let h := (chunks 2 32 (← Act.readSpad s.here x.toNat 64)).map natOf
    let cnt := h.headD 0
    Act.check (cnt == 0 || 256 < cnt || 2 ≤ h.getD 1 0 || (h.drop 2).any (fun e => e != 0) || Config.spadBytes < x.toNat + 64 + 2 * cnt)
      (illegal x)
    let q := (chunks 2 cnt (← Act.readSpad s.here (x.toNat + 64) (2 * cnt))).map natOf
    Act.check ((q.zip (q.drop 1)).any (fun e => e.1 < e.2)) (illegal x)
    Act.waitIf ((t.rankUnit t.pid).cmds.any (fun m => 2 ≤ m.kind && fld m.desc 18 17 == n)) .drain
    Act.upd (fun t => t.modRank t.pid (fun u => { u with seqs := Tab.set u.seqs n ⟨h.getD 1 0 == 1, q⟩ })))

/-- A stream number (17 R390). -/
def Act.streamNumber (n : Reg) : Act Nat := do
  Act.check (4 ≤ n.toNat) (illegal (W n.toNat))
  return n.toNat

/-- The largest weight magnitude inside a tile (17 R386). -/
def State.weightMax (s : State) (pid : Nat) (t : Tile) : Nat :=
  (List.range t.rows).foldl (fun m j => (List.range t.cols).foldl (fun m c => max m (s.rankWeight pid t j c).natAbs) m) 0

/-- Whether an element of a tile lies above a watermark (10 R267). -/
def State.tileMarked (s : State) (pid : Nat) (t : Tile) : Bool :=
  t.cells.any (fun c => match t.addr c.1 c.2 with
    | some a => s.marked pid a (fmtWidth t.fmt / 8)
    | none => false)

/-- RKARM (17 R386). -/
def execRkarm (sp : Bool) (d a b c : Reg) (s : State) : Out :=
  issue s sp 4 (do
    let y ← Act.rdG b
    let z ← Act.rdG c
    let n ← Act.streamNumber d
    let t ← get
    let old := t.stream t.pid n
    Act.check (old.state != 0) (illegal (W n))
    let rec_ := flag y 9
    let free := flag y 6
    let np := fld y 3 0 + 1
    let slot := fld y 5 4
    let margin := fld y 8 7 == 2
    Act.check (fld y 63 53 != 0 || fld y 31 15 != 0 || fld y 8 7 == 3 || ((t.rankUnit t.pid).seqOf slot).q.isEmpty
      || (!rec_ && fld y 14 10 != 0) || (rec_ && free && 1 < np) || Config.spadBytes < fld y 52 32 + np * 8256) (illegal y)
    Act.check (margin && fld z 63 47 != 0) (illegal z)
    let tw ← Act.useTile a.toNat
    let tr ← if rec_ then (do return some (← Act.useTile (fld y 14 10))) else pure none
    Act.tileFault ((tw.fmt != 0 && tw.fmt != 7) || tw.rows == 0 || 64 < tw.rows) a.toNat
    Act.tileFault (tr.any (fun r => r.fmt != 3)) (fld y 14 10)
    Act.waitIf (t.tileMarked t.pid tw) (.mark tw.base)
    let l ← Act.launch
    Act.upd (fun t => t.setStream t.pid n { Strm.reset with
      state := 1, owner := t.ctx.act, tw := tw, rect := tr, ovb := fld y 52 32, stop := fld y 8 7, free := free, seq := slot
      np := np, margin := fld z 46 0, wmax := t.weightMax t.pid tw, det := l.det
      sums := List.replicate tw.rows 0, drops := old.drops, results := old.results }))

/-- ILLEGAL for a HELD stream, and with `idle` for an IDLE one (17 R390). -/
def Act.liveStream (n : Nat) (idle : Bool) : Act Strm := do
  let s ← get
  let t := s.stream s.pid n
  Act.check (t.state == 3 || (idle && t.state == 0)) (illegal (W n))
  return t

/-- A second word still to come is fixed. -/
def Strm.freeze (t : Strm) : Strm := { t with results := t.results.map (fun r => (r.1, some (r.2.getD t.word1))) }

/-- RKDISARM (17 R390). -/
def execRkdisarm (sp : Bool) (d : Reg) (s : State) : Out :=
  issue s sp 4 (do
    let n ← Act.streamNumber d
    let t ← Act.liveStream n false
    if t.state = 0 then pure ()
    else Act.upd (fun s => s.setStream s.pid n { t.freeze with state := 0, queue := [] }))

/-- RKRES (17 R390). The senders that the stream knows stay known: an entry of theirs that arrives later belongs to the new vector. -/
def execRkres (sp : Bool) (d a : Reg) (s : State) : Out :=
  issue s sp 4 (do
    let n ← Act.streamNumber a
    let t ← Act.liveStream n true
    Act.interlock (.g d)
    let u := { t with disc := t.disc + t.queue.length, queue := [] }
    let k ← Act.core
    if !t.results.isEmpty || 14 < (Tab.get [] k.qs (5 + n)).length then do
      Act.upd (fun s => s.setStream s.pid n { u with state := 2 })
      Act.await s.here sp .room
    else do
      Act.upd (fun s => s.push s.pid s.cx (5 + n) [u.word0 3, u.word1])
      Act.upd (fun s => s.setStream s.pid n { u with
        state := 1, owner := s.ctx.act, sums := u.sums.map (fun _ => 0), pos := 0, disc := 0, ovl := false, seen := []
        did := [], round := 0 })
      Act.wrG d (W u.disc))

/-- RKACC (17 R390). -/
def execRkacc (sp : Bool) (d a : Reg) (s : State) : Out :=
  issue s sp 4 (do
    let n ← Act.streamNumber a
    let t ← Act.liveStream n true
    let td ← Act.useTile d.toNat
    Act.tileFault (td.fmt != 6 && td.fmt != 14 && td.fmt != 15) d.toNat
    let r ← Act.rounding (if td.fmt = 6 then 0 else td.rnd) false (W d.toNat)
    let unit : Int := if t.tw.fmt = 7 then -21 else -15
    let outs := ((List.range t.sums.length).zip t.sums).map (fun e =>
      if td.fmt = 6 then (⟨intCode 6 e.2, 0⟩ : Res)
      else roundNum td.fmt r.mode false (r.rho e.1) (.fin ((Exact.ofInt e.2).scale unit)))
    Act.flags ((List.range outs.length).zip (outs.map (fun o => o.fl)))
    Act.upd (fun s => ((List.range outs.length).zip outs).foldl (fun s e => s.setChan s.pid td e.1 e.2.code) s)
    if td.fmt = 6 then pure () else Act.tick td.rnd)

/-- The checks that RKDENSE and RKGRAD share (17 R393). -/
def Act.backward (z : Word) (grad : Bool) : Act Unit := do
  let s ← get
  Act.check (fld z 63 26 != 0 || 65536 < fld z 16 0 || ((s.rankUnit s.pid).seqOf (fld z 18 17)).q.isEmpty
    || (!grad && fld z 25 19 != 0)) (illegal z)

/-- The first tile of a list that meets a later one; ILLEGAL names it: DEDUCED (log 27). -/
def firstMeet : List (Nat × Tile) → Option Nat
  | [] => none
  | (n, t) :: l => if l.any (fun e => t.meets e.2) then some n else firstMeet l

/-- Formats, rounding codes and footprints of the tiles of a backward command (17 R393, 03 R73). -/
def Act.backwardTiles (dst : List (Nat × Tile)) (p : Nat × Tile) (src : List (Nat × Tile)) : Act Unit := do
  let all := dst.take 1 ++ [p] ++ src ++ dst.drop 1
  match all.find? (fun e => e.2.fmt != (if e.1 = p.1 then 3 else 14) || (dst.any (fun f => f.1 == e.1) && badRnd e.2)) with
  | some e => Act.raise (illegal (W e.1))
  | none => pure ()
  match firstMeet all with
  | some n => Act.raise (illegal (W n))
  | none => pure ()

/-- RKDENSE (17 R393). -/
def execRkdense (sp : Bool) (d a c : Reg) (s : State) : Out :=
  issue s sp 4 (do
    let z ← Act.rdG c
    Act.backward z false
    let td ← Act.useTile d.toNat
    let tp ← Act.useTile a.toNat
    Act.backwardTiles [(d.toNat, td)] (a.toNat, tp) []
    let m := (← get).rankCmd 2 s.here [d.toNat, a.toNat] d.toNat
    Act.pushRank { m with t0 := td, t1 := tp, desc := z } td.rnd)

/-- RKGRAD (17 R393). -/
def execRkgrad (sp : Bool) (d a b c : Reg) (s : State) : Out :=
  issue s sp 4 (do
    let z ← Act.rdG c
    Act.backward z true
    let dq := flag z 25
    let q := fld z 24 20
    let td ← Act.useTile d.toNat
    let tp ← Act.useTile a.toNat
    let tg ← Act.useTile b.toNat
    let tq ← if dq then Act.useTile q else pure Tile.reset
    Act.backwardTiles ((d.toNat, td) :: (if dq then [(q, tq)] else [])) (a.toNat, tp) [(b.toNat, tg)]
    let m := (← get).rankCmd 3 s.here ([d.toNat, a.toNat, b.toNat] ++ (if dq then [q] else [])) d.toNat
    Act.pushRank { m with t0 := td, t1 := tp, t2 := tg, t3 := tq, desc := z } (if dq && tq.rnd == 5 then 5 else td.rnd))

end Sys2Proof.Machine
end

