-- ==== Sys2Proof/Machine/RankUnit.lean ====
section
/-! DEFINITION. What the rank unit computes (17 R379 to R382, R393, R394), and the events of its streams. -/

namespace Sys2Proof.Machine

/-! ## Reading -/

/-- Channels that a command reads, tile by tile, up to where it stops. -/
abbrev Reads := List (Tile × Nat)

/-- Erroneous rows among the channels read (17 R393). -/
def State.badReads (s : State) (pid : Nat) (l : Reads) : List Nat := l.flatMap (fun e => s.badElem pid e.1 (e.2 / e.1.cols) (e.2 % e.1.cols))

/-- Whether a channel lies above a watermark (10 R267). -/
def State.markedReads (s : State) (pid : Nat) (l : Reads) : Bool :=
  l.any (fun e => match e.1.addr (e.2 / e.1.cols) (e.2 % e.1.cols) with
    | some a => s.marked pid a (fmtWidth e.1.fmt / 8)
    | none => false)

/-- |a| against |b|, for values that are not NaN. -/
def magOrd (a b : Num) : Ordering :=
  let abs := fun (x : Num) => match x with
    | .inf _ => Num.inf false
    | .fin e => .fin { e with neg := false }
    | n => n
  ordNum (abs a) (abs b)

/-- A channel into its place: falling magnitude, equal magnitudes by channel (17 R379). -/
def insertChan (v : Nat → Num) (c : Nat) : List Nat → List Nat
  | [] => [c]
  | x :: l => if magOrd (v c) (v x) == .gt then c :: x :: l else x :: insertChan v c l

/-- The order of the channels that are not NaN. -/
def sortChans (v : Nat → Num) (n : Nat) : List Nat :=
  (List.range n).foldl (fun l c => if anyNan [v c] then l else insertChan v c l) []

/-- Whether a value is below zero. -/
def Num.below (x : Num) : Bool :=
  match x with
  | .inf n => n
  | .fin e => e.neg && e.mag != 0
  | .nan _ => false

/-- A Q9 entry (17 Table 17.3). -/
def rankEntry (kind tile : Nat) (err : Bool) (fl ntgt nanc cnt : Nat) : Word :=
  W (kind * 2 ^ 62 + tile % 32 * 2 ^ 57 + b2n err * 2 ^ 56 + fl % 128 * 2 ^ 49 + ntgt * 2 ^ 45 + nanc % 2 ^ 13 * 2 ^ 16 + cnt % 2 ^ 13)

/-- What a command does when nothing that it reads is in error: the state, its flags, and NTGT, NANC, CNT. -/
structure RDone where
  s : State
  fl : Nat
  ntgt : Nat
  nanc : Nat
  cnt : Nat

/-! ## RSORT and REMIT -/

def State.runSort (s : State) (pid : Nat) (m : RCmd) : RDone :=
  let n := m.t1.count
  let v := fun c => numOf m.t1.fmt (s.chan pid m.t1 c)
  let order := sortChans v n
  let t := ((List.range order.length).zip order).foldl (fun s e =>
    s.setChan pid m.t0 e.1 (b2n (v e.2).below * 2 ^ 15 + e.2)) s
  let u := ((List.range n).drop order.length).foldl (fun s i => s.setChan pid m.t0 i 0xFFFF) t
  ⟨u, if order.length < n ∧ fmtNan8 m.t1.fmt then Fl.nan8 else 0, 0, n - order.length, order.length⟩

/-- The prefix that REMIT sends, with the flag that ends it (17 R380). -/
def State.prefix_ (s : State) (pid : Nat) (m : RCmd) : Nat → Nat → List Nat × Nat
  | 0, _ => ([], 0)
  | k + 1, i =>
    let e := s.chan pid m.t0 i
    if m.t0.count ≤ i || !present e then ([], 0)
    else
      let x := numOf m.t1.fmt (s.chan pid m.t1 (bitsOf e 11 0))
      let thr := flag m.desc 43
      if thr && anyNan [x] then ([], if fmtNan8 m.t1.fmt then Fl.nan8 else 0)
      else if thr && magOrd x (numOf 14 (fld m.desc 31 0)) == .lt then ([], 0)
      else
        let (l, fl) := s.prefix_ pid m k (i + 1)
        (e :: l, fl)

/-- What REMIT reads: the entries up to the one that ends it, and their channels under a threshold. -/
def State.prefixReads (s : State) (pid : Nat) (m : RCmd) : Reads :=
  let k := fld m.desc 63 51
  let n := min (min k m.t0.count) ((s.prefix_ pid m k 0).1.length + 1)
  (List.range n).flatMap (fun i =>
    (m.t0, i) :: (if flag m.desc 43 && present (s.chan pid m.t0 i) then [(m.t1, bitsOf (s.chan pid m.t0 i) 11 0)] else []))

/-- The flits of one target (17 R382). -/
def RCmd.flits (m : RCmd) (mid : Nat) (es : List Nat) : List RankFlit :=
  let p := fld m.desc 48 45
  let groups := chunks 32 es.length es
  .head (flag m.desc 44) p es.length mid
    :: ((List.range groups.length).zip groups).map (fun g => .body p mid (g.1 + 1 == groups.length) g.2)

/-- The kept place of a stream gives way to its flits (17 R382). -/
def fillHold (m : RCmd) (es : List Nat) (n : Nat) (p : Pkt) : List Pkt :=
  match p.body with
  | .hold c => if c = m.id then (m.flits (16 * m.id + n) es).map (fun f => { p with body := .rank (fld m.desc 50 49) f }) else [p]
  | _ => [p]

def State.runEmit (s : State) (pid : Nat) (m : RCmd) : RDone :=
  let (l, fl) := s.prefix_ pid m (fld m.desc 63 51) 0
  let es := if flag m.desc 44 then l else l.map (fun e => e % 2 ^ 15)
  let pk := (List.range s.net.pkts.length).zip s.net.pkts
  let hd := (List.range s.net.held.length).zip s.net.held
  let rankOf := fun (before : List Pkt) => (before.filter (fun p => p.body == .hold m.id)).length
  let t := s.modNet (fun n => { n with
    pkts := pk.flatMap (fun e => fillHold m es (rankOf (s.net.pkts.take e.1)) e.2)
    held := hd.flatMap (fun e => (fillHold m es (8 + rankOf ((s.net.held.take e.1).map (fun h => h.pkt))) e.2.pkt).map (fun p => { e.2 with pkt := p })) })
  ⟨t, fl, m.targets.length, 0, l.length⟩

/-- Kept places of a command that sends nothing are given up. -/
def State.dropHolds (s : State) (m : RCmd) : State :=
  s.modNet (fun n => { n with pkts := n.pkts.filter (fun p => p.body != .hold m.id), held := n.held.filter (fun h => h.pkt.body != .hold m.id) })

/-! ## RKDENSE and RKGRAD (17 R393) -/

def RCmd.kcnt (m : RCmd) : Nat := fld m.desc 16 0

/-- The untruncated positions: rank index, sign, channel. -/
def State.positions (s : State) (pid : Nat) (m : RCmd) : List (Nat × Bool × Nat) :=
  let q := (s.rankUnit pid).seqOf (fld m.desc 18 17)
  (List.range (min m.kcnt m.t1.count)).filterMap (fun i =>
    let e := s.chan pid m.t1 i
    if !present e || (q.cut && q.q.length ≤ i) then none else some (i, bitOf e 15, bitsOf e 11 0))

/-- The sum of terms, rounded once into FP32; no term gives +0. -/
def sumTerms (mode rho : Nat) (l : List (Num × Bool)) : Res :=
  if l.isEmpty then ⟨0, 0⟩
  else
    let xs := l.map (fun e => e.1)
    let nv := anySig xs || l.any (fun e => e.2)
    if anyNan xs || l.any (fun e => e.2) then nanRes 14 (if nv then Fl.nv else 0) else sumNums 14 mode false rho xs

/-- h × q, with whether it is 0 × ∞ or a signalling NaN enters. -/
def gradTerm (h q : Num) : Num × Bool := if anyNan [h] then (h, false) else (prodNum h q, badProd h q)

/-- Elements of a destination tile from the terms of each (03 R72 for the lane). -/
def State.fillTile (s : State) (pid : Nat) (m : RCmd) (t : Tile) (n : Nat) (terms : Nat → List (Num × Bool)) : State × Nat :=
  let outs := (List.range n).map (fun c => sumTerms t.rnd (if t.rnd = 5 then srDraw m.seed m.cx m.srn c else 0) (terms c))
  (((List.range n).zip outs).foldl (fun s e => s.setChan pid t e.1 e.2.code) s, outs.foldl (fun f o => f ||| o.fl) 0)

def State.weightNum (s : State) (pid : Nat) (m : RCmd) (i : Nat) : Num :=
  .fin (Exact.of false (((s.rankUnit pid).seqOf (fld m.desc 18 17)).weight i) (-15))

def State.runDense (s : State) (pid : Nat) (m : RCmd) : RDone :=
  let ps := s.positions pid m
  let terms := fun c => (ps.filter (fun p => p.2.2 == c)).map (fun p => (negIf p.2.1 (s.weightNum pid m p.1), false))
  let (t, fl) := s.fillTile pid m m.t0 m.t0.count terms
  ⟨t, fl, 0, 0, m.kcnt⟩

def State.runGrad (s : State) (pid : Nat) (m : RCmd) : RDone :=
  let ps := s.positions pid m
  let scaled := flag m.desc 19
  let h := fun c => numOf 14 (s.chan pid m.t2 c)
  let terms := fun c => (ps.filter (fun p => p.2.2 == c)).map (fun p =>
    if scaled then gradTerm (h c) (s.weightNum pid m p.1) else (h c, false))
  let (t, fl) := s.fillTile pid m m.t0 m.t0.count terms
  let ns := ((s.rankUnit pid).seqOf (fld m.desc 18 17)).q.length
  let qterms := fun i => (ps.filter (fun p => min p.1 (ns - 1) == i)).map (fun p => (negIf p.2.1 (h p.2.2), false))
  let (u, fl2) := if flag m.desc 25 then t.fillTile pid m m.t3 ns qterms else (t, 0)
  ⟨u, fl ||| fl2, 0, 0, m.kcnt⟩

/-- What a command reads. -/
def State.rankReads (s : State) (pid : Nat) (m : RCmd) : Reads :=
  let all := fun (t : Tile) n => (List.range n).map (fun c => (t, c))
  if m.kind = 0 then all m.t1 m.t1.count
  else if m.kind = 1 then s.prefixReads pid m
  else
    let ps := all m.t1 (min m.kcnt m.t1.count)
    if m.kind = 2 then ps else ps ++ (s.positions pid m).map (fun p => (m.t2, p.2.2))

/-! ## Order and events -/

/-- RANK_UNIT_EXECUTE: the oldest command, once Q9 has room for its entry and all that it reads may be read (17 R381, R394). -/
def execRankUnitExecute (core : Nat) (s : State) : Out :=
  .next (match (s.rankUnit core).cmds with
    | [] => s
    | m :: rest =>
      let reads := s.rankReads core m
      if 16 ≤ s.ownQueueLen m.act 9 || s.markedReads core reads
          || s.inFlight m.act m.after then s
      else
        let bad := s.badReads core reads
        let r := if !bad.isEmpty then ⟨if m.kind = 1 then s.dropHolds m else s, 0, if m.kind = 1 then m.targets.length else 0, 0, 0⟩
          else if m.kind = 0 then s.runSort core m
          else if m.kind = 1 then s.runEmit core m
          else if m.kind = 2 then s.runDense core m else s.runGrad core m
        let cnt := if r.cnt < 2 ^ 13 then r.cnt else Config.openValue 17 m.act r.cnt
        let t := (r.s.modRank core (fun u => { u with cmds := rest })).popOwn m.act 4
        let u := t.engineReport m.act { fl := r.fl, lanes := 1, bad := bad, left := 1 } m.flagen m.iaddr
        (u.pushOwn m.act 9 [rankEntry m.kind m.tile (!bad.isEmpty) r.fl r.ntgt r.nanc cnt]).refreshPend m.act)

/-- RANK_FLIT_ARRIVAL: a flit reaches a receive stream (17 R385, R387, R392; 05 R132). -/
def execRankFlitArrival (i : Nat) (s : State) : Out :=
  .next (match s.arriving i with
    | some (p, t) => (match p.body with
      | .rank n f => (t.rankArrive p.dst n p.src f).wakeIdle p.dst
      | _ => s)
    | none => s)

/-- RANK_ENTRY_PROCESSING: one processing step of a stream (17 R387, R388). -/
def execRankEntryProcessing (core : Nat) (k : BitVec 2) (s : State) : Out := .next (s.rankStep core k.toNat)

/-- RANK_RESULT_PUSH: both words at once, when the queue has room (17 R389). -/
def execRankResultPush (core : Nat) (k : BitVec 2) (s : State) : Out :=
  let n := k.toNat
  let t := s.stream core n
  .next (match t.results with
    | [] => s
    | (a, b) :: rest =>
      if 14 < (Tab.get [] (s.coreAt core).qs (5 + n)).length then s
      else (s.push core 0 (5 + n) [a, b.getD t.word1]).setStream core n { t with results := rest })

end Sys2Proof.Machine
end

