-- ==== Sys2Proof/Machine/Scalar.lean ====
section
/-! DEFINITION. Register and immediate arithmetic, loads and stores of one register (05 R109 to R122), and their compact
forms (04 R92). -/

namespace Sys2Proof.Machine

/-! ## Shared operations -/

/-- Gd := f(Ga, Gb) (05 R110). -/
def binOp (s : State) (sp : Bool) (len : Nat) (d a b : Reg) (f : Word → Word → Word) : Out :=
  issue s sp len (do
    let x ← Act.rdG a
    let y ← Act.rdG b
    Act.wrG d (f x y))

/-- Gd := f(Ga) (05 R112 to R114). -/
def unOp (s : State) (sp : Bool) (len : Nat) (d a : Reg) (f : Word → Word) : Out :=
  issue s sp len (do
    let x ← Act.rdG a
    Act.wrG d (f x))

/-- Gd := a value that needs no register (05 R116). -/
def constOp (s : State) (sp : Bool) (len : Nat) (d : Reg) (x : Word) : Out := issue s sp len (Act.wrG d x)

/-- The division group (05 R111): DIVZ with EFFARG = Ga on a zero divisor. -/
def divOp (s : State) (sp : Bool) (d a b : Reg) (f : Word → Word → Word) : Out :=
  issue s sp 4 (do
    let x ← Act.rdG a
    let y ← Act.rdG b
    Act.check (y == 0) { eff := Eff.divz, arg := x }
    Act.wrG d (f x y))

/-- Shift count Gb[5:0] (05 R110). -/
def count (y : Word) : Nat := y.toNat % 64

def mulh (x y : Word) : Word := BitVec.ofInt 64 (x.toInt * y.toInt / 2 ^ 64)
def mulhu (x y : Word) : Word := W (x.toNat * y.toNat / 2 ^ 64)
/-- Signed quotient, truncated toward zero; −2^63 by −1 gives −2^63 (05 R111). -/
def quot (x y : Word) : Word := BitVec.ofInt 64 (x.toInt.tdiv y.toInt)
def remS (x y : Word) : Word := BitVec.ofInt 64 (x.toInt.tmod y.toInt)
def quotU (x y : Word) : Word := W (x.toNat / y.toNat)
def remU (x y : Word) : Word := W (x.toNat % y.toNat)
def smin (x y : Word) : Word := if x.slt y then x else y
def smax (x y : Word) : Word := if x.slt y then y else x
def umin (x y : Word) : Word := if x.ult y then x else y
def umax (x y : Word) : Word := if x.ult y then y else x

/-- Number of leading zero bits among the low n bits (05 R112). -/
def lead0 : Nat → Nat → Nat
  | 0, _ => 0
  | n + 1, x => if bitOf x n then 0 else 1 + lead0 n x
/-- Number of trailing zero bits, at most n (05 R112). -/
def trail0 : Nat → Nat → Nat
  | 0, _ => 0
  | n + 1, x => if x % 2 = 1 then 0 else 1 + trail0 n (x / 2)
/-- Number of one bits among the low n (05 R112). -/
def ones : Nat → Nat → Nat
  | 0, _ => 0
  | n + 1, x => x % 2 + ones n (x / 2)
def bswap (x : Word) : Word := W (natOf (bytesOf 8 x.toNat).reverse)

/-- LD and LDX after the effective address (05 R118, R119). -/
def loadOp (s : State) (sp : Bool) (len : Nat) (z : Size) (x : Bool) (d a : Reg) (ea : Word → Act Word) : Out :=
  issue s sp len (do
    let base ← Act.rdG a
    Act.load s.here (← ea base) z.bytes (!x) d (a == 31) false)

/-- ST and STX after the effective address: D names the data register, read at issue (05 R109, R118). -/
def storeOp (s : State) (sp : Bool) (len : Nat) (z : Size) (d a : Reg) (ea : Word → Act Word) : Out :=
  issue s sp len (do
    let base ← Act.rdG a
    let addr ← ea base
    let v ← Act.rdG d
    Act.store s.here addr z.bytes v (a == 31) false)

/-! ## Register and register (05 R110, R111) -/

def execAdd (sp : Bool) (d a b : Reg) (s : State) : Out := binOp s sp 4 d a b (fun x y => x + y)
def execSub (sp : Bool) (d a b : Reg) (s : State) : Out := binOp s sp 4 d a b (fun x y => x - y)
def execMul (sp : Bool) (d a b : Reg) (s : State) : Out := binOp s sp 4 d a b (fun x y => x * y)
def execMulh (sp : Bool) (d a b : Reg) (s : State) : Out := binOp s sp 4 d a b (fun x y => mulh x y)
def execMulhu (sp : Bool) (d a b : Reg) (s : State) : Out := binOp s sp 4 d a b (fun x y => mulhu x y)
def execDiv (sp : Bool) (d a b : Reg) (s : State) : Out := divOp s sp d a b quot
def execDivu (sp : Bool) (d a b : Reg) (s : State) : Out := divOp s sp d a b quotU
def execRem (sp : Bool) (d a b : Reg) (s : State) : Out := divOp s sp d a b remS
def execRemu (sp : Bool) (d a b : Reg) (s : State) : Out := divOp s sp d a b remU
def execAnd (sp : Bool) (d a b : Reg) (s : State) : Out := binOp s sp 4 d a b (fun x y => x &&& y)
def execOr (sp : Bool) (d a b : Reg) (s : State) : Out := binOp s sp 4 d a b (fun x y => x ||| y)
def execXor (sp : Bool) (d a b : Reg) (s : State) : Out := binOp s sp 4 d a b (fun x y => x ^^^ y)
def execAndn (sp : Bool) (d a b : Reg) (s : State) : Out := binOp s sp 4 d a b (fun x y => x &&& ~~~y)
def execOrn (sp : Bool) (d a b : Reg) (s : State) : Out := binOp s sp 4 d a b (fun x y => x ||| ~~~y)
def execShl (sp : Bool) (d a b : Reg) (s : State) : Out := binOp s sp 4 d a b (fun x y => x <<< count y)
def execShr (sp : Bool) (d a b : Reg) (s : State) : Out := binOp s sp 4 d a b (fun x y => x >>> count y)
def execSar (sp : Bool) (d a b : Reg) (s : State) : Out := binOp s sp 4 d a b (fun x y => x.sshiftRight (count y))
def execRol (sp : Bool) (d a b : Reg) (s : State) : Out := binOp s sp 4 d a b (fun x y => x.rotateLeft (count y))
def execRor (sp : Bool) (d a b : Reg) (s : State) : Out := binOp s sp 4 d a b (fun x y => x.rotateRight (count y))
def execMin (sp : Bool) (d a b : Reg) (s : State) : Out := binOp s sp 4 d a b (fun x y => smin x y)
def execMax (sp : Bool) (d a b : Reg) (s : State) : Out := binOp s sp 4 d a b (fun x y => smax x y)
def execMinu (sp : Bool) (d a b : Reg) (s : State) : Out := binOp s sp 4 d a b (fun x y => umin x y)
def execMaxu (sp : Bool) (d a b : Reg) (s : State) : Out := binOp s sp 4 d a b (fun x y => umax x y)
/-- Gd is read as the condition (05 R109, R110). -/
def execSel (sp : Bool) (d a b : Reg) (s : State) : Out :=
  issue s sp 4 (do
    let c ← Act.rdG d
    let x ← Act.rdG a
    let y ← Act.rdG b
    Act.wrG d (if c = 0 then y else x))
def execCmpeq (sp : Bool) (d a b : Reg) (s : State) : Out := binOp s sp 4 d a b (fun x y => b2w (x == y))
def execCmpne (sp : Bool) (d a b : Reg) (s : State) : Out := binOp s sp 4 d a b (fun x y => b2w (x != y))
def execCmplt (sp : Bool) (d a b : Reg) (s : State) : Out := binOp s sp 4 d a b (fun x y => b2w (x.slt y))
def execCmpge (sp : Bool) (d a b : Reg) (s : State) : Out := binOp s sp 4 d a b (fun x y => b2w (!x.slt y))
def execCmpltu (sp : Bool) (d a b : Reg) (s : State) : Out := binOp s sp 4 d a b (fun x y => b2w (x.ult y))
def execCmpgeu (sp : Bool) (d a b : Reg) (s : State) : Out := binOp s sp 4 d a b (fun x y => b2w (!x.ult y))

/-! ## One register (05 R112) -/

def execClz (sp : Bool) (d a : Reg) (s : State) : Out := unOp s sp 4 d a (fun x => W (lead0 64 x.toNat))
def execCtz (sp : Bool) (d a : Reg) (s : State) : Out := unOp s sp 4 d a (fun x => W (trail0 64 x.toNat))
def execPopc (sp : Bool) (d a : Reg) (s : State) : Out := unOp s sp 4 d a (fun x => W (ones 64 x.toNat))
def execBswap (sp : Bool) (d a : Reg) (s : State) : Out := unOp s sp 4 d a (fun x => bswap x)
def execSextb (sp : Bool) (d a : Reg) (s : State) : Out := unOp s sp 4 d a (fun x => sext64 8 x.toNat)
def execSexth (sp : Bool) (d a : Reg) (s : State) : Out := unOp s sp 4 d a (fun x => sext64 16 x.toNat)
def execSextw (sp : Bool) (d a : Reg) (s : State) : Out := unOp s sp 4 d a (fun x => sext64 32 x.toNat)
def execZextb (sp : Bool) (d a : Reg) (s : State) : Out := unOp s sp 4 d a (fun x => x &&& 0xFF)
def execZexth (sp : Bool) (d a : Reg) (s : State) : Out := unOp s sp 4 d a (fun x => x &&& 0xFFFF)
def execZextw (sp : Bool) (d a : Reg) (s : State) : Out := unOp s sp 4 d a (fun x => x &&& 0xFFFFFFFF)

/-! ## Immediates (05 R113 to R117) -/

def execAddi (sp : Bool) (d a : Reg) (i : BitVec 14) (s : State) : Out := unOp s sp 4 d a (fun x => x + i.signExtend 64)
def execAndi (sp : Bool) (d a : Reg) (i : BitVec 14) (s : State) : Out := unOp s sp 4 d a (fun x => x &&& i.signExtend 64)
def execOri (sp : Bool) (d a : Reg) (i : BitVec 14) (s : State) : Out := unOp s sp 4 d a (fun x => x ||| i.signExtend 64)
def execXori (sp : Bool) (d a : Reg) (i : BitVec 14) (s : State) : Out := unOp s sp 4 d a (fun x => x ^^^ i.signExtend 64)
def execShli (sp : Bool) (d a : Reg) (n : BitVec 6) (s : State) : Out := unOp s sp 4 d a (fun x => x <<< n.toNat)
def execShri (sp : Bool) (d a : Reg) (n : BitVec 6) (s : State) : Out := unOp s sp 4 d a (fun x => x >>> n.toNat)
def execSari (sp : Bool) (d a : Reg) (n : BitVec 6) (s : State) : Out := unOp s sp 4 d a (fun x => x.sshiftRight n.toNat)
def execRori (sp : Bool) (d a : Reg) (n : BitVec 6) (s : State) : Out := unOp s sp 4 d a (fun x => x.rotateRight n.toNat)
def execCmpi (sp : Bool) (c : Cond) (d a : Reg) (i : BitVec 11) (s : State) : Out :=
  unOp s sp 4 d a (fun x => b2w (condHolds c x (i.signExtend 64)))
def execLi (sp : Bool) (d : Reg) (i : BitVec 19) (s : State) : Out := constOp s sp 4 d (i.signExtend 64)
def execLih (sp : Bool) (d : Reg) (i : BitVec 19) (s : State) : Out := constOp s sp 4 d (i.signExtend 64 <<< 14)
def execAddpc (sp : Bool) (d : Reg) (i : BitVec 19) (s : State) : Out := constOp s sp 4 d (target s.here i)
def execLea (sp : Bool) (z : Size) (d a : Reg) (i : BitVec 11) (s : State) : Out := unOp s sp 4 d a (fun x => disp x i z)

/-! ## Loads and stores (05 R118, R119) -/

def execLd (sp : Bool) (z : Size) (x : Bool) (d a : Reg) (i : BitVec 11) (s : State) : Out :=
  loadOp s sp 4 z x d a (fun base => pure (disp base i z))
def execSt (sp : Bool) (z : Size) (d a : Reg) (i : BitVec 11) (s : State) : Out :=
  storeOp s sp 4 z d a (fun base => pure (disp base i z))
def execLdx (sp : Bool) (z : Size) (x : Bool) (d a b : Reg) (s : State) : Out :=
  loadOp s sp 4 z x d a (fun base => do return base + (← Act.rdG b))
def execStx (sp : Bool) (z : Size) (d a b : Reg) (s : State) : Out :=
  storeOp s sp 4 z d a (fun base => do return base + (← Act.rdG b))

/-! ## Compact forms (04 R92) -/

def execAddCompact (sp : Bool) (d a : Reg) (s : State) : Out := binOp s sp 2 d d a (fun x y => x + y)
def execSubCompact (sp : Bool) (d a : Reg) (s : State) : Out := binOp s sp 2 d d a (fun x y => x - y)
def execAndCompact (sp : Bool) (d a : Reg) (s : State) : Out := binOp s sp 2 d d a (fun x y => x &&& y)
/-- OR Gd, Ga, G0: a register move. -/
def execOrCompact (sp : Bool) (d a : Reg) (s : State) : Out := binOp s sp 2 d a 0 (fun x y => x ||| y)
def execXorCompact (sp : Bool) (d a : Reg) (s : State) : Out := binOp s sp 2 d d a (fun x y => x ^^^ y)
def execMulCompact (sp : Bool) (d a : Reg) (s : State) : Out := binOp s sp 2 d d a (fun x y => x * y)
def execAddiCompact (sp : Bool) (d : Reg) (i : BitVec 5) (s : State) : Out := unOp s sp 2 d d (fun x => x + i.signExtend 64)
def execLiCompact (sp : Bool) (d : Reg) (i : BitVec 5) (s : State) : Out := constOp s sp 2 d (i.signExtend 64)
def execShliCompact (sp : Bool) (d : Reg) (n : BitVec 5) (s : State) : Out := unOp s sp 2 d d (fun x => x <<< n.toNat)
def execShriCompact (sp : Bool) (d : Reg) (n : BitVec 5) (s : State) : Out := unOp s sp 2 d d (fun x => x >>> n.toNat)
/-- The stack forms are stack-class accesses at G31 + 8 × uimm5. -/
def execLdStackCompact (sp : Bool) (d : Reg) (i : BitVec 5) (s : State) : Out :=
  loadOp s sp 2 .d false d 31 (fun base => pure (base + W (8 * i.toNat)))
def execStStackCompact (sp : Bool) (d : Reg) (i : BitVec 5) (s : State) : Out :=
  storeOp s sp 2 .d d 31 (fun base => pure (base + W (8 * i.toNat)))
def execLdCompact (sp : Bool) (d a : Reg) (s : State) : Out := loadOp s sp 2 .d false d a (fun base => pure base)
def execStCompact (sp : Bool) (d a : Reg) (s : State) : Out := storeOp s sp 2 .d d a (fun base => pure base)

end Sys2Proof.Machine
end

