-- ==== Sys2Proof/Machine/Vector.lean ====
section
/-! DEFINITION. Vector and predicate instructions (07 R170 to R188). -/

namespace Sys2Proof.Machine

/-! ## VT and lanes (07 R170, R171) -/

def Ctx.ef (c : Ctx) : Nat := fld c.num.vt 3 0
def Ctx.rm (c : Ctx) : Nat := fld c.num.vt 6 4
def Ctx.cf (c : Ctx) : Nat := fld c.num.vt 11 8
def Ctx.glim (c : Ctx) : Nat := fld c.num.vt 47 16

/-- The elements of a register at width w. -/
def elems (w : Nat) (v : VWord) : List Nat := lanesOf w 512 v.toNat
/-- The register of elements of width w. -/
def ofElems (w : Nat) (l : List Nat) : VWord := BitVec.ofNat 512 (ofLanes w l)

/-- Raises ILLEGAL with EFFARG = VT unless the format is accepted (07 R172). -/
def Act.accepts (ok : Nat → Bool) (f : Nat) : Act Unit := do
  Act.check (!ok f) (illegal (← Act.ctx).num.vt)

/-- The results of the active elements, old elements elsewhere (07 R173). -/
def merged (mask : Nat) (old : List Nat) (f : Nat → Res) : List Res :=
  (List.range old.length).map (fun i => if bitOf mask i then f i else ⟨old.getD i 0, 0⟩)

/-- Writes a register from results, after their flags. -/
def Act.deliverV (w : Nat) (d : Reg) (l : List Res) : Act Unit := do
  Act.flags ((List.range l.length).zip (l.map Res.fl))
  Act.wrV d (ofElems w (l.map Res.code))

/-- An element-wise instruction of the element format: `ok` accepts EF, `rounds` says that it rounds under VT.RM, and `f`
gives the element from format, environment, lane, and the elements of Va, Vb and the old Vd (07 R175). -/
def lanewise (s : State) (sp : Bool) (ok : Nat → Bool) (rounds sat : Bool) (p : PReg) (d a b : Reg)
    (f : Nat → Rnd → Nat → Nat → Nat → Nat → Res) : Out :=
  issue s sp 4 (do
    let c ← Act.ctx
    Act.accepts ok c.ef
    let r ← Act.rounding (if rounds then c.rm else 0) sat c.num.vt
    let w := fmtWidth c.ef
    let x := elems w (← Act.rdV a)
    let y := elems w (← Act.rdV b)
    let old := elems w (← Act.rdV d)
    let m ← Act.rdP p
    Act.deliverV w d (merged m.toNat old (fun i => f c.ef r i (x.getD i 0) (y.getD i 0) (old.getD i 0)))
    if rounds then Act.tick c.rm else pure ())

/-! ## Integer operations (07 R176) -/

/-- An element of integers under the integer rule of R76. -/
def intLane (s : State) (sp sat : Bool) (p : PReg) (d a b : Reg) (f : Int → Int → Int) : Out :=
  lanewise s sp fmtInt false sat p d a b (fun ef r _ x y _ => intRule ef r.sat (f (intOf ef x) (intOf ef y)))

/-- An element of bits. -/
def bitLane (s : State) (sp : Bool) (p : PReg) (d a b : Reg) (f : Nat → Nat → Nat → Nat) : Out :=
  lanewise s sp fmtInt false false p d a b (fun ef _ _ x y _ => ⟨f (fmtWidth ef) x y % 2 ^ fmtWidth ef, 0⟩)

def execVadd (sp sat : Bool) (p : PReg) (d a b : Reg) (s : State) : Out := intLane s sp sat p d a b (fun x y => x + y)
def execVsub (sp sat : Bool) (p : PReg) (d a b : Reg) (s : State) : Out := intLane s sp sat p d a b (fun x y => x - y)
def execVmul (sp sat : Bool) (p : PReg) (d a b : Reg) (s : State) : Out := intLane s sp sat p d a b (fun x y => x * y)
/-- Bits [2w−1:w] of the exact product. -/
def execVmulh (sp : Bool) (p : PReg) (d a b : Reg) (s : State) : Out :=
  lanewise s sp fmtInt false false p d a b (fun ef _ _ x y _ => ⟨intCode ef (intOf ef x * intOf ef y / 2 ^ fmtWidth ef), 0⟩)
def execVmin (sp : Bool) (p : PReg) (d a b : Reg) (s : State) : Out := intLane s sp false p d a b (fun x y => min x y)
def execVmax (sp : Bool) (p : PReg) (d a b : Reg) (s : State) : Out := intLane s sp false p d a b (fun x y => max x y)
def execVand (sp : Bool) (p : PReg) (d a b : Reg) (s : State) : Out := bitLane s sp p d a b (fun _ x y => x &&& y)
def execVor (sp : Bool) (p : PReg) (d a b : Reg) (s : State) : Out := bitLane s sp p d a b (fun _ x y => x ||| y)
def execVxor (sp : Bool) (p : PReg) (d a b : Reg) (s : State) : Out := bitLane s sp p d a b (fun _ x y => x ^^^ y)
def execVshl (sp : Bool) (p : PReg) (d a b : Reg) (s : State) : Out :=
  bitLane s sp p d a b (fun w x y => if w ≤ y then 0 else x * 2 ^ y)
def execVshr (sp : Bool) (p : PReg) (d a b : Reg) (s : State) : Out :=
  bitLane s sp p d a b (fun w x y => if w ≤ y then 0 else x / 2 ^ y)
def execVsar (sp : Bool) (p : PReg) (d a b : Reg) (s : State) : Out :=
  bitLane s sp p d a b (fun w x y => wrapTo w (toSigned w x / 2 ^ min y (w - 1)))
def execVabs (sp sat : Bool) (p : PReg) (d a : Reg) (s : State) : Out := intLane s sp sat p d a a (fun x _ => x.natAbs)

/-! ## Compares (07 R177) -/

/-- A compare: bit i of Pd for each active element, every other bit 0. A reserved condition is an own check of the instruction, so it
comes after format acceptance: DEDUCED from R175 (log 70). -/
def compareOp (s : State) (sp : Bool) (ok : Nat → Bool) (bad : Bool) (d p : PReg) (a b : Reg) (f : Nat → Nat → Nat → Bool × Nat) : Out :=
  issue s sp 4 (do
    let c ← Act.ctx
    Act.accepts ok c.ef
    Act.check bad (illegal 0)
    let w := fmtWidth c.ef
    let x := elems w (← Act.rdV a)
    let y := elems w (← Act.rdV b)
    let m ← Act.rdP p
    let l := ((List.range x.length).filter (fun i => bitOf m.toNat i)).map (fun i => (i, f c.ef (x.getD i 0) (y.getD i 0)))
    Act.flags (l.map (fun e => (e.1, e.2.2)))
    Act.wrP d (W (maskOf ((l.filter (fun e => e.2.1)).map (fun e => e.1)))))

def intCompare (cond : Nat) (x y : Int) : Bool :=
  match cond with
  | 0 => x == y
  | 1 => x != y
  | 2 => x < y
  | 3 => y ≤ x
  | 4 => x ≤ y
  | _ => y < x

def execVcmp (sp : Bool) (m : BitVec 3) (d p : PReg) (a b : Reg) (s : State) : Out :=
  compareOp s sp fmtInt (6 ≤ m.toNat) d p a b (fun ef x y => (intCompare m.toNat (intOf ef x) (intOf ef y), 0))
def execVfcmp (sp : Bool) (m : BitVec 3) (d p : PReg) (a b : Reg) (s : State) : Out :=
  compareOp s sp (12 ≤ ·) false d p a b (fun ef x y => fCompare m.toNat (numOf ef x) (numOf ef y))

/-! ## Floating-point operations (07 R178, R179) -/

def floatLane (s : State) (sp sat : Bool) (p : PReg) (d a b : Reg) (f : Nat → Rnd → Nat → Num → Num → Num → Res) : Out :=
  lanewise s sp (12 ≤ ·) true sat p d a b (fun ef r i x y z => f ef r i (numOf ef x) (numOf ef y) (numOf ef z))

def execVfadd (sp sat : Bool) (p : PReg) (d a b : Reg) (s : State) : Out :=
  floatLane s sp sat p d a b (fun ef r i x y _ => fAdd ef r i x y)
def execVfsub (sp sat : Bool) (p : PReg) (d a b : Reg) (s : State) : Out :=
  floatLane s sp sat p d a b (fun ef r i x y _ => fAdd ef r i x y.negate)
def execVfmul (sp sat : Bool) (p : PReg) (d a b : Reg) (s : State) : Out :=
  floatLane s sp sat p d a b (fun ef r i x y _ => fMul ef r i x y)
def execVfma (sp sat : Bool) (p : PReg) (d a b : Reg) (s : State) : Out :=
  floatLane s sp sat p d a b (fun ef r i x y z => fMa ef r i x y z)
def execVfms (sp sat : Bool) (p : PReg) (d a b : Reg) (s : State) : Out :=
  floatLane s sp sat p d a b (fun ef r i x y z => fMa ef r i x y z.negate)
def execVfnma (sp sat : Bool) (p : PReg) (d a b : Reg) (s : State) : Out :=
  floatLane s sp sat p d a b (fun ef r i x y z => fMa ef r i x.negate y z)
def execVfdiv (sp sat : Bool) (p : PReg) (d a b : Reg) (s : State) : Out :=
  floatLane s sp sat p d a b (fun ef r i x y _ => fDiv ef r i x y)
def execVfsqrt (sp sat : Bool) (p : PReg) (d a : Reg) (s : State) : Out :=
  floatLane s sp sat p d a a (fun ef r i x _ _ => fSqrt ef r i x)
def execVfmin (sp : Bool) (p : PReg) (d a b : Reg) (s : State) : Out :=
  lanewise s sp (12 ≤ ·) false false p d a b (fun ef _ _ x y _ => fPick ef false x y)
def execVfmax (sp : Bool) (p : PReg) (d a b : Reg) (s : State) : Out :=
  lanewise s sp (12 ≤ ·) false false p d a b (fun ef _ _ x y _ => fPick ef true x y)
def execVfclass (sp : Bool) (p : PReg) (d a : Reg) (s : State) : Out :=
  lanewise s sp (12 ≤ ·) false false p d a a (fun ef _ _ x _ _ => ⟨fClass ef x, 0⟩)
def execVfrcp (sp sat : Bool) (p : PReg) (d a : Reg) (s : State) : Out :=
  floatLane s sp sat p d a a (fun ef r i x _ _ => fRcp ef r i x)
def execVfrsq (sp sat : Bool) (p : PReg) (d a : Reg) (s : State) : Out :=
  floatLane s sp sat p d a a (fun ef r i x _ _ => fRsq ef r i x)

/-! ## Conversion, scaling and packing (07 R181 to R184) -/

/-- A conversion of one element (07 R181). -/
def convert (ef cf : Nat) (r : Rnd) (lane x : Nat) : Res :=
  let y := roundNum cf r.mode r.sat (r.rho lane) (numOf ef x)
  ⟨y.code, y.fl ||| readFlags ef x⟩

def execVcvt (sp sat : Bool) (p : PReg) (d a : Reg) (n : BitVec 5) (s : State) : Out :=
  issue s sp 4 (do
    let c ← Act.ctx
    Act.accepts (fun f => f != 7) c.cf
    let ws := fmtWidth c.ef
    let wd := fmtWidth c.cf
    let cnt := 512 / max ws wd
    let part := n.toNat
    Act.check (max ws wd / min ws wd ≤ part) (illegal (W part))
    let r ← Act.rounding c.rm sat c.num.vt
    let x := elems ws (← Act.rdV a)
    let old := elems wd (← Act.rdV d)
    let m ← Act.rdP p
    let res := (List.range old.length).map (fun j =>
      let src := if wd ≤ ws then j - part * cnt else part * cnt + j
      let live := if wd ≤ ws then part * cnt ≤ j && j < part * cnt + cnt else j < cnt
      if live && bitOf m.toNat j then convert c.ef c.cf r j (x.getD src 0) else ⟨old.getD j 0, 0⟩)
    Act.deliverV wd d res
    Act.tick c.rm)

/-- a × 2^k. A k beyond ±10000 stands for the same result as ±10000, past every format's range (07 R182). -/
def execVscale (sp sat : Bool) (p : PReg) (d a b : Reg) (s : State) : Out :=
  lanewise s sp (12 ≤ ·) true sat p d a b (fun ef r i x y _ =>
    let k := toSigned (fmtWidth ef) y
    let k := max (-10000) (min 10000 k)
    match numOf ef x with
    | .fin v => roundNum ef r.mode r.sat (r.rho i) (.fin (v.scale k))
    | v => roundNum ef r.mode r.sat (r.rho i) v)

/-- The format that VPACK narrows a format to (07 R183). -/
def narrower (f : Nat) : Nat := if f = 6 then 4 else f - 2

def execVpack (sp sat : Bool) (p : PReg) (d a b : Reg) (s : State) : Out :=
  issue s sp 4 (do
    let c ← Act.ctx
    Act.accepts (fun f => 2 ≤ f && f ≤ 6) c.ef
    let w := fmtWidth c.ef
    let g := narrower c.ef
    let x := elems w (← Act.rdV a) ++ elems w (← Act.rdV b)
    let old := elems (fmtWidth g) (← Act.rdV d)
    let m ← Act.rdP p
    Act.deliverV (fmtWidth g) d (merged m.toNat old (fun i => intRule g sat (intOf c.ef (x.getD i 0)))))

/-- The format that VUNPACK widens a format to (07 R183). -/
def wider (f : Nat) : Nat := if f = 4 ∨ f = 5 then 6 else f + 2

def execVunpack (sp : Bool) (p : PReg) (d a : Reg) (n : BitVec 5) (s : State) : Out :=
  issue s sp 4 (do
    let c ← Act.ctx
    Act.accepts (fun f => f ≤ 5) c.ef
    Act.check (2 ≤ n.toNat) (illegal (W n.toNat))
    let w := fmtWidth c.ef
    let x := elems w (← Act.rdV a)
    let ww := fmtWidth (wider c.ef)
    let old := elems ww (← Act.rdV d)
    let m ← Act.rdP p
    Act.deliverV ww d (merged m.toNat old (fun i => ⟨wrapTo ww (intOf c.ef (x.getD (n.toNat * old.length + i) 0)), 0⟩)))

def execVcfg (sp : Bool) (d a : Reg) (s : State) : Out :=
  issue s sp 4 (do
    let x ← Act.rdG a
    Act.check (fld x 63 48 != 0 || fld x 15 12 != 0 || flag x 7 || 6 ≤ fld x 6 4) (illegal x)
    Act.wrG d (W (512 / fmtWidth (fld x 3 0)))
    Act.updCtx (fun c => { c with num := { c.num with vt := x } }))

/-! ## Moves and permutations (07 R185) -/

/-- A move: active elements from Va, Vb and the old Vd; every format is accepted. -/
def moveOp (s : State) (sp : Bool) (p : PReg) (d a b : Reg) (f : Nat → List Nat → List Nat → List Nat → Nat) : Out :=
  issue s sp 4 (do
    let w := fmtWidth (← Act.ctx).ef
    let x := elems w (← Act.rdV a)
    let y := elems w (← Act.rdV b)
    let old := elems w (← Act.rdV d)
    let m ← Act.rdP p
    Act.wrV d (ofElems w ((merged m.toNat old (fun i => ⟨f i x y old, 0⟩)).map Res.code)))

def execVmov (sp : Bool) (p : PReg) (d a : Reg) (s : State) : Out := moveOp s sp p d a a (fun i x _ _ => x.getD i 0)
def execVmovPredToGpr (sp : Bool) (d : Reg) (a : PReg) (s : State) : Out :=
  issue s sp 4 (do
    let x ← Act.rdP a
    Act.wrG d x)
def execVmovGprToPred (sp : Bool) (d : PReg) (a : Reg) (s : State) : Out :=
  issue s sp 4 (do
    let x ← Act.rdG a
    Act.wrP d x)

def execVbcast (sp : Bool) (p : PReg) (d a : Reg) (s : State) : Out :=
  issue s sp 4 (do
    let w := fmtWidth (← Act.ctx).ef
    let x ← Act.rdG a
    let old := elems w (← Act.rdV d)
    let m ← Act.rdP p
    Act.wrV d (ofElems w ((merged m.toNat old (fun _ => ⟨x.toNat % 2 ^ w, 0⟩)).map Res.code)))

def execVext (sp : Bool) (d a b : Reg) (s : State) : Out :=
  issue s sp 4 (do
    let ef := (← Act.ctx).ef
    let w := fmtWidth ef
    let x := elems w (← Act.rdV a)
    let y ← Act.rdG b
    Act.check (x.length ≤ y.toNat) (illegal y)
    let e := x.getD y.toNat 0
    Act.wrG d (if fmtSigned ef then sext64 w e else W e))

def execVins (sp : Bool) (d a b : Reg) (s : State) : Out :=
  issue s sp 4 (do
    let w := fmtWidth (← Act.ctx).ef
    let x ← Act.rdG a
    let y ← Act.rdG b
    let old := elems w (← Act.rdV d)
    Act.check (old.length ≤ y.toNat) (illegal y)
    Act.wrV d (ofElems w (old.set y.toNat (x.toNat % 2 ^ w))))

def execVshuf (sp : Bool) (p : PReg) (d a b : Reg) (s : State) : Out :=
  moveOp s sp p d a b (fun i x y _ => x.getD (y.getD i 0 % x.length) 0)
def execVperm (sp : Bool) (p : PReg) (d a b : Reg) (s : State) : Out :=
  moveOp s sp p d a b (fun i x y old =>
    let j := old.getD i 0 % (2 * x.length)
    if j < x.length then x.getD j 0 else y.getD (j - x.length) 0)

def execVslide (sp : Bool) (p : PReg) (d a b : Reg) (s : State) : Out :=
  issue s sp 4 (do
    let w := fmtWidth (← Act.ctx).ef
    let x := elems w (← Act.rdV a)
    let y ← Act.rdG b
    let old := elems w (← Act.rdV d)
    let m ← Act.rdP p
    Act.wrV d (ofElems w ((merged m.toNat old (fun i =>
      let j : Int := i + y.toInt
      ⟨if 0 ≤ j ∧ j < x.length then x.getD j.toNat 0 else 0, 0⟩)).map Res.code)))

/-- Every element is chosen; the destination is not merged. -/
def execVsel (sp : Bool) (p : PReg) (d a b : Reg) (s : State) : Out :=
  issue s sp 4 (do
    let w := fmtWidth (← Act.ctx).ef
    let x := elems w (← Act.rdV a)
    let y := elems w (← Act.rdV b)
    let m ← Act.rdP p
    Act.wrV d (ofElems w ((List.range x.length).map (fun i => if bitOf m.toNat i then x.getD i 0 else y.getD i 0))))

/-- The elements that a mask selects, in ascending order. -/
def selected (m : Nat) (l : List Nat) : List Nat := ((List.range l.length).filter (fun i => bitOf m i)).map (fun i => l.getD i 0)

def execVcompress (sp : Bool) (p : PReg) (d a : Reg) (s : State) : Out :=
  issue s sp 4 (do
    let w := fmtWidth (← Act.ctx).ef
    let x := elems w (← Act.rdV a)
    let m ← Act.rdP p
    Act.wrV d (ofElems w (selected m.toNat x)))

def execVexpand (sp : Bool) (p : PReg) (d a : Reg) (s : State) : Out :=
  issue s sp 4 (do
    let w := fmtWidth (← Act.ctx).ef
    let x := elems w (← Act.rdV a)
    let old := elems w (← Act.rdV d)
    let m ← Act.rdP p
    Act.wrV d (ofElems w ((merged m.toNat old (fun i => ⟨x.getD (((List.range i).filter (fun j => bitOf m.toNat j)).length) 0, 0⟩)).map Res.code)))

/-! ## Reductions and dot products (07 R186, R187) -/

/-- The number of levels of the tree over 512/w lanes. -/
def levels (w : Nat) : Nat := log2 (512 / w)

def nodes (m : Nat) (l : List Nat) : List Node := (List.range l.length).map (fun i => if bitOf m i then some (i, l.getD i 0) else none)

/-- A reduction: the result goes to element 0, every other element is 0. `whole` reduces the selected integers at once. -/
def reduceOp (s : State) (sp : Bool) (ok : Nat → Bool) (rounds sat : Bool) (p : PReg) (d a : Reg)
    (whole : Nat → Bool → List Int → Res) (node : Nat → Rnd → Nat → Nat → Nat → Res) (empty : Nat → Nat) : Out :=
  issue s sp 4 (do
    let c ← Act.ctx
    Act.accepts ok c.ef
    let fp := fmtFloat c.ef
    let r ← Act.rounding (if rounds && fp then c.rm else 0) sat c.num.vt
    let w := fmtWidth c.ef
    let x := elems w (← Act.rdV a)
    let m ← Act.rdP p
    if fp then do
      let t := tree (node c.ef r) (levels w) (nodes m.toNat x)
      Act.flags t.2
      Act.wrV d (ofElems w [(t.1.map (fun n => n.2)).getD (empty c.ef)])
      if rounds then Act.tick c.rm else pure ()
    else do
      let t := whole c.ef sat ((selected m.toNat x).map (intOf c.ef))
      Act.flags [(0, t.fl)]
      Act.wrV d (ofElems w [t.code]))

def execVredadd (sp sat : Bool) (p : PReg) (d a : Reg) (s : State) : Out :=
  reduceOp s sp (fun f => f ≤ 6 || 12 ≤ f) true sat p d a (fun f sat l => intRule f sat l.sum)
    (fun f r i x y => fAdd f r i (numOf f x) (numOf f y)) (fun _ => 0)
def execVredmax (sp : Bool) (p : PReg) (d a : Reg) (s : State) : Out :=
  reduceOp s sp (fun f => f ≤ 6 || 12 ≤ f) false false p d a (fun f _ l => ⟨intCode f (l.foldl max (intMin f)), 0⟩)
    (fun f _ _ x y => fPick f true x y) fmtNaN
def execVredmin (sp : Bool) (p : PReg) (d a : Reg) (s : State) : Out :=
  reduceOp s sp (fun f => f ≤ 6 || 12 ≤ f) false false p d a (fun f _ l => ⟨intCode f (l.foldl min (intMax f)), 0⟩)
    (fun f _ _ x y => fPick f false x y) fmtNaN

/-- One element of VDOT: c + Σ a × b, exact and rounded once (07 R187). -/
def dotLane (ef : Nat) (r : Rnd) (lane : Nat) (c : Nat) (ps : List (Nat × Nat)) : Res :=
  if fmtInt ef then
    let f := if fmtSigned ef then 4 else 5
    intRule f r.sat (ps.foldl (fun z q => z + intOf ef q.1 * intOf ef q.2) (intOf f c))
  else
    let ns := ps.map (fun q => (numOf ef q.1, numOf ef q.2))
    let cn := numOf 14 c
    match specials 14 r.sat cn ns false with
    | some x => x
    | none =>
      roundNum 14 r.mode r.sat (r.rho lane) (.fin (sumExact r.mode (cn.exact :: ns.map (fun q => mulExact q.1.exact q.2.exact))))

def execVdot (sp sat : Bool) (p : PReg) (d a b : Reg) (s : State) : Out :=
  issue s sp 4 (do
    let c ← Act.ctx
    Act.accepts (fun f => f ≤ 3 || f == 12 || f == 13) c.ef
    let fp := fmtFloat c.ef
    let r ← Act.rounding (if fp then c.rm else 0) sat c.num.vt
    let w := fmtWidth c.ef
    let g := 32 / w
    let x := elems w (← Act.rdV a)
    let y := elems w (← Act.rdV b)
    let old := elems 32 (← Act.rdV d)
    let m ← Act.rdP p
    Act.deliverV 32 d (merged m.toNat old (fun i =>
      dotLane c.ef r i (old.getD i 0) ((List.range g).map (fun j => (x.getD (g * i + j) 0, y.getD (g * i + j) 0)))))
    if fp then Act.tick c.rm else pure ())

/-! ## Predicate instructions (07 R188) -/

def predOp (s : State) (sp : Bool) (d a b : PReg) (f : Word → Word → Word) : Out :=
  issue s sp 4 (do
    let x ← Act.rdP a
    let y ← Act.rdP b
    Act.wrP d (f x y))

/-- Bits [k−1:0] set. -/
def prefixMask (k : Nat) : Word := W (2 ^ min k 64 - 1)

def execPand (sp : Bool) (d a b : PReg) (s : State) : Out := predOp s sp d a b (fun x y => x &&& y)
def execPor (sp : Bool) (d a b : PReg) (s : State) : Out := predOp s sp d a b (fun x y => x ||| y)
def execPxor (sp : Bool) (d a b : PReg) (s : State) : Out := predOp s sp d a b (fun x y => x ^^^ y)
def execPnot (sp : Bool) (d a : PReg) (s : State) : Out := predOp s sp d a a (fun x _ => ~~~x)
def execPcnt (sp : Bool) (d a : PReg) (s : State) : Out :=
  predOp s sp d a a (fun x _ => W ((List.range 64).filter (fun i => flag x i)).length)
def execPfirst (sp : Bool) (d a : PReg) (s : State) : Out := predOp s sp d a a (fun x _ => x &&& (0 - x))
def execPset (sp : Bool) (d a : PReg) (s : State) : Out := predOp s sp d a a (fun x _ => prefixMask x.toNat)

end Sys2Proof.Machine
end

