-- ==== Sys2Proof/Machine/VMem.lean ====
section
/-! DEFINITION. Vector loads, stores, gathers, scatters and scatter-adds (07 R189 to R195). -/

namespace Sys2Proof.Machine

/-- How the elements of a vector access are addressed (07 Table 7.10). -/
inductive VAddr where
  | contiguous
  | strided
  | indexed (strict : Bool)
deriving DecidableEq, Repr

def VAddr.loose : VAddr → Bool
  | .indexed strict => !strict
  | _ => false

/-- The elements of a vector access after the first two passes of R190: bytes of an element, active elements in range, and
elements out of range. -/
structure VPlan where
  esz  : Nat
  live : List (Nat × Word)
  out  : List Nat

/-- An element address after the stack redirection; none for an element that raises STACKOVF (01 R23). -/
def Ctx.redirect (c : Ctx) (stk : Bool) (ea : Word) : Option Word :=
  if stk && ea.toNat < c.space.sklo.toNat then if c.space.ovf == 0 then none else some (c.space.ovf + (ea - c.space.sklo)) else some ea

/-- The addresses and indices of the elements (07 Table 7.10, R189). -/
def Act.addresses (a b : Reg) (k : VAddr) (esz n : Nat) : Act (List (Word × Nat)) := do
  let base ← Act.rdG a
  match k with
  | .contiguous => do
    let off ← Act.rdG b
    return (List.range n).map (fun i => (base + off + W (i * esz), 0))
  | .strided => do
    let step ← Act.rdG b
    return (List.range n).map (fun i => (base + W i * step, 0))
  | .indexed _ => do
    let idx := elems (8 * esz) (← Act.rdV b)
    return idx.map (fun j => (base + W (j * esz), j))

/-- The active elements: lane, address and index. -/
def activeLanes (m : Nat) (l : List (Word × Nat)) : List (Nat × Word × Nat) := ((List.range l.length).zip l).filter (fun e => bitOf m e.1)

/-- The elements whose final address fails R19. An element below SKLO with OVF = 0 has no final address: it raises STACKOVF in the
third pass, ahead of the PAGE and PERM of other elements: DESIGN CHOICE (log 69). -/
def misaligned (c : Ctx) (stk : Bool) (esz : Nat) (l : List (Nat × Word × Nat)) : List (Nat × Word) :=
  (l.filterMap (fun e => (c.redirect stk e.2.1).map (fun x => (e.1, x)))).filter (fun e => e.2.toNat % esz != 0 || 2 ^ 52 ≤ e.2.toNat)

/-- The elements at or past GLIM. -/
def pastLimit (c : Ctx) (k : VAddr) (l : List (Nat × Word × Nat)) : List (Nat × Word × Nat) :=
  match k with
  | .indexed _ => l.filter (fun e => c.glim != 0 && c.glim ≤ e.2.2)
  | _ => []

/-- The alignment and limit passes of R190. The PERM of an out-of-range element of a stack-class access carries the redirected
address, as its ALIGN does: DEDUCED from 01 R23 (log 69). -/
def Act.plan (p : PReg) (a b : Reg) (k : VAddr) : Act VPlan := do
  let c ← Act.ctx
  let esz := fmtWidth c.ef / 8
  let l ← Act.addresses a b k esz (64 / esz)
  let m ← Act.rdP p
  let act := activeLanes m.toNat l
  let past := pastLimit c k act
  match misaligned c (a == 31) esz act, past, k with
  | e :: bad, _, _ => Act.raise { alignFault e.2 with lanes := W (maskOf ((e :: bad).map (fun x => x.1))), stk := a == 31 }
  | [], e :: more, .indexed true =>
    Act.raise { permFault ((c.redirect (a == 31) e.2.1).getD e.2.1) with
      arg := W e.1, lanes := W (maskOf ((e :: more).map (fun x => x.1))), stk := a == 31 }
  | _, _, _ =>
    return { esz := esz
             live := (act.filter (fun e => !past.any (fun q => q.1 == e.1))).map (fun e => (e.1, e.2.1))
             out := past.map (fun e => e.1) }

/-- The place of one element; PAGE and PERM are answers, every other effect is raised at once (07 R191). -/
def Act.tryPlace (acc : Acc) (stk : Bool) (ea : Word) (n : Nat) : Act (Except Raise (Home × Word)) := fun s =>
  match Act.place acc stk ea n true false s with
  | .ok (r, t) => .ok (.ok r, t)
  | .error (.raise r) => if r.eff = Eff.page ∨ r.eff = Eff.perm then .ok (.error r, s) else .error (.raise r)
  | .error h => .error h

/-- An element that has a place. -/
structure Lane where
  i : Nat
  home : Home
  ea : Word

/-- The places of the elements, and the faults of those that have none, in ascending order. -/
def Act.places (acc : Acc) (stk : Bool) (n : Nat) : List (Nat × Word) → Act (List Lane × List (Nat × Raise))
  | [] => return ([], [])
  | e :: l => do
    let r ← Act.tryPlace acc stk e.2 n
    let (ok, bad) ← Act.places acc stk n l
    match r with
    | .ok (h, ea) => return (⟨e.1, h, ea⟩ :: ok, bad)
    | .error x => return (ok, (e.1, x) :: bad)

def Home.off : Home → Nat
  | .spad _ off => off
  | _ => 0

/-- Waits for marks and own requests over the elements in the core's own scratchpad (10 R267, 11 R291). -/
def Act.ownLanes (n : Nat) : List Lane → Act Unit
  | [] => pure ()
  | x :: l => do
    if x.home.own (← get).pid then Act.ownBytes x.home.off n else pure ()
    Act.ownLanes n l

/-- The register with elements of n bytes replaced. -/
def putLanes (n : Nat) (v : VWord) (l : List (Nat × Nat)) : VWord :=
  ofElems (8 * n) (l.foldl (fun acc e => acc.set e.1 e.2) (elems (8 * n) v))

/-- The errors of lanes on uncorrectable lines (05 R121). -/
def lanesErr (here : Word) (stk : Bool) (l : List Lane) : List (Nat × Raise) := l.map (fun x => (x.i, { memErr here x.ea with stk := stk }))

/-- MEMERR at issue for lanes on uncorrectable lines. -/
def Act.checkLanes (here : Word) (stk : Bool) (l : List Lane) : Act Unit :=
  match laneFault (lanesErr here stk l) with
  | some e => Act.raise e
  | none => pure ()

/-- P7 takes the out-of-range lanes of a gather or scatter that is not strict (07 R190). -/
def Act.pastLanes (k : VAddr) (out : List Nat) : Act Unit :=
  if k.loose then Act.wrP 7 (W (maskOf out)) else pure ()

/-- Waits for what the elements, read at issue, must see (10 R267, R279; 11 R291). -/
def Act.reachAll (n : Nat) : List Lane → Act Unit
  | [] => pure ()
  | x :: l => do
    Act.reach x.home n
    Act.reachAll n l

/-- Elements of n bytes read at issue: their values, 0 for an uncorrectable one, and their errors (07 R191). -/
def State.readLanes (s : State) (pid : Nat) (here : Word) (n : Nat) : List Lane → State × List (Nat × Nat) × List (Nat × Raise)
  | [] => (s, [], [])
  | x :: l =>
    let (t, b, bad) := s.readHome pid x.home n false
    let (u, got, errs) := t.readLanes pid here n l
    (u, (x.i, natOf b) :: got, if bad then (x.i, memErr here x.ea) :: errs else errs)

/-- VLD, VLDS and VGATHER (07 R189 to R192). -/
def vecLoad (s : State) (sp : Bool) (p : PReg) (d a b : Reg) (k : VAddr) : Out :=
  issue s sp 4 (do
    Act.gate
    let plan ← Act.plan p a b k
    let n := plan.esz
    let old ← Act.rdV d
    let (lanes, faults) ← Act.places .read (a == 31) n plan.live
    Act.ownLanes n lanes
    let zeroed := putLanes n old (plan.out.map (fun i => (i, 0)))
    match laneFault faults with
    | some r => do
      Act.drain
      Act.reachAll n lanes
      Act.waitIf (!(← get).ctx.regs.allPresent) .presence
      let t ← get
      let (u, got, bad) := t.readLanes t.pid s.here n lanes
      let w := u.modCtx (fun c => { (c.setV d (putLanes n zeroed got)) with
        pc := s.here
        poison := match laneFault bad with
          | some e => c.poison ++ [⟨.v d, e⟩]
          | none => c.poison })
      Act.stop (w.fault w.pid w.cx r)
    | none => do
      let t ← get
      let near := lanes.filter (fun x => x.home.own t.pid)
      let far := lanes.filter (fun x => !x.home.own t.pid)
      if lanes.all (fun x => inLocal x.ea.toNat) then do
        Act.checkLanes s.here (a == 31) (lanes.filter (fun x => t.bad x.home.key n))
        Act.wrV d (putLanes n zeroed (near.map (fun x => (x.i, t.rdN x.home.key n))))
        Act.pastLanes k plan.out
      else do
        Act.pastLanes k plan.out
        Act.pendDest (.v d)
        let u ← get
        let (w, got, bad) := u.readLanes u.pid s.here n near
        set w
        let v := putLanes n zeroed got
        if far.isEmpty then Act.result (.v d) (errVal v bad)
        else Act.post (far.map (fun x => ⟨x.home, n⟩)) (.vload n (far.map (fun x => (x.i, x.ea))) d v bad) false false s.here 0)

/-- Lines that elements of n bytes cover whole. -/
def wholeLines (n : Nat) (l : List Lane) : List Nat :=
  let lines := (l.map (fun x => lineOf x.home.key)).eraseDups
  lines.filter (fun ln => (l.filter (fun x => lineOf x.home.key == ln)).length * n ≥ 64)

/-- The lanes that are stored: of lanes at equal addresses only the highest (07 R193). -/
def lastLanes : List Lane → List Lane
  | [] => []
  | x :: l => if l.any (fun y => y.home.key == x.home.key) then lastLanes l else x :: lastLanes l

/-- The lanes that a store writes. -/
def VAddr.stored : VAddr → List Lane → List Lane
  | .contiguous, l => l
  | _, l => lastLanes l

/-- Stores the elements in the core's own scratchpad, in ascending order (07 R193, R195). -/
def State.storeLanes (s : State) (n : Nat) (data : List Nat) (l : List Lane) : State :=
  l.foldl (fun s x => s.wr x.home.key (bytesOf n (data.getD x.i 0))) s

/-- VST, VSTS and VSCATTER (07 R189 to R193). -/
def vecStore (s : State) (sp : Bool) (p : PReg) (d a b : Reg) (k : VAddr) : Out :=
  issue s sp 4 (do
    Act.gate
    let plan ← Act.plan p a b k
    let n := plan.esz
    let data := elems (8 * n) (← Act.rdV d)
    let (all, faults) ← Act.places .write (a == 31) n plan.live
    match laneFault faults with
    | some r => Act.raise r
    | none => do
      let lanes := k.stored all
      Act.ownLanes n lanes
      let t ← get
      let whole := wholeLines n lanes
      Act.checkLanes s.here (a == 31) (lanes.filter (fun x => t.homeBad x.home n && !whole.contains (lineOf x.home.key)))
      let near := lanes.filter (fun x => x.home.own t.pid)
      let far := lanes.filter (fun x => !x.home.own t.pid)
      Act.pastLanes k plan.out
      Act.upd (fun t => { (t.storeLanes n data near) with ue := t.ue.filter (fun l => !(near.any (fun x => lineOf x.home.key == l) && whole.contains l)) })
      if far.isEmpty then pure ()
      else Act.post (far.map (fun x => ⟨x.home, n⟩)) (.vstore (far.map (fun x => bytesOf n (data.getD x.i 0))) (far.map (fun x => (x.i, x.ea))) whole []) false false s.here 0)

/-- VSCATADD: every add is carried out at its home, in ascending order for one address, at issue in the own scratchpad (07 R194, 11
R294); its flags reach the context once, at completion (03 R81). -/
def scatterAdd (s : State) (sp : Bool) (p : PReg) (d a b : Reg) (k : VAddr) : Out :=
  issue s sp 4 (do
    Act.gate
    let c ← Act.ctx
    Act.accepts (fun f => f == 4 || f == 5 || f == 14 || f == 15) c.ef
    Act.check (fmtFloat c.ef && 5 ≤ c.rm) (illegal c.num.vt)
    let plan ← Act.plan p a b k
    let n := plan.esz
    let data := elems (8 * n) (← Act.rdV d)
    let (lanes, faults) ← Act.places .rmw (a == 31) n plan.live
    match laneFault faults with
    | some r => Act.raise r
    | none => do
      let t ← get
      let pieces := lanes.map (fun x => (⟨x.home, n⟩ : Piece))
      Act.unmarked pieces
      Act.checkLanes s.here (a == 31) (lanes.filter (fun x => t.homeBad x.home n))
      Act.pastLanes k plan.out
      let op := MemOp.adds c.ef c.rm (fld c.num.flagen 6 0) (lanes.map (fun x => (x.i, x.ea, data.getD x.i 0))) 0 0 []
      if lanes.isEmpty then pure () else Act.postNow pieces op false false s.here 0)

def execVld (sp : Bool) (p : PReg) (d a b : Reg) (s : State) : Out := vecLoad s sp p d a b .contiguous
def execVst (sp : Bool) (p : PReg) (d a b : Reg) (s : State) : Out := vecStore s sp p d a b .contiguous
def execVlds (sp : Bool) (p : PReg) (d a b : Reg) (s : State) : Out := vecLoad s sp p d a b .strided
def execVsts (sp : Bool) (p : PReg) (d a b : Reg) (s : State) : Out := vecStore s sp p d a b .strided
def execVgather (sp strict : Bool) (p : PReg) (d a b : Reg) (s : State) : Out := vecLoad s sp p d a b (.indexed strict)
def execVscatter (sp strict : Bool) (p : PReg) (d a b : Reg) (s : State) : Out := vecStore s sp p d a b (.indexed strict)
def execVscatadd (sp strict : Bool) (p : PReg) (d a b : Reg) (s : State) : Out := scatterAdd s sp p d a b (.indexed strict)

end Sys2Proof.Machine
end

