-- ==== Sys2Proof/Machine/Versions.lean ====
section
/-! DEFINITION. The commit sequencer of the lead die and the homes of versioned lines (10 R280 to R286, 12 R323 to R327):
snapshots, the steps of a COMMIT, renumbering, the Groom, and revocation. -/

namespace Sys2Proof.Machine

/-! ## Snapshots -/

/-- The transaction that SNAP opens (12 R323). -/
def Tx.open (ts lcap lbase seq : Nat) : Tx where
  ts := W ts
  opened := true
  cfl := false
  rvk := false
  logn := 0
  lcap := lcap
  lbase := lbase
  seq := seq

/-- SNAPSHOT_REQUEST: the lead die answers ask i with stable (10 R281). -/
def execSnapshotRequest (i : Nat) (s : State) : Out :=
  .next (match takeAt s.net.asks i with
    | none => s
    | some (a, rest) => match a.ask with
      | .snap d lcap lbase =>
        if !s.sys.lval then s else
        let n := s.vers.stable
        let t := (s.modNet (fun net => { net with asks := rest })).modVers (fun v => { v with
          snaps := v.snaps ++ [⟨a.act, n, v.snapSeq⟩], snapSeq := v.snapSeq + 1 })
        t.answer a.pid a.cx a.act (fun c => { c.setG d (W n) with tx := Tx.open n lcap lbase s.vers.snapSeq })
      | _ => s)

/-- The holder of a snapshot learns of its loss, in its context or with its restore (12 R326). -/
def State.tellLoss (s : State) (act : Nat) : State :=
  let lose := fun (c : Ctx) => { c with tx := { c.tx with rvk := true } }
  match s.ownerOf act with
  | .ctx p c => s.modCtxAt p c lose
  | .image h => s.modSaved h lose
  | .gone => s

/-- Revokes a live snapshot: it selects nothing from now on (10 R286). -/
def State.revoke (s : State) (n : Snap) : State :=
  (s.modVers (fun v => { v with snaps := v.snaps.filter (fun m => m != n) })).tellLoss n.act

/-! ## The steps of a COMMIT (10 R283) -/

/-- Releases every lock that a commit holds. -/
def State.unlock (s : State) (id : Nat) : State :=
  s.modVers (fun v => { v with lines := v.lines.map (fun e => (e.1, if e.2.lock = some id then { e.2 with lock := none } else e.2)) })

/-- Takes a commit out of the sequencer, with its locks. -/
def State.endCommit (s : State) (id : Nat) : State := (s.unlock id).modVers (fun v => { v with commits := v.commits.filter (fun c => c.id != id) })

/-- The refusal of a commit at a line: its log is emptied, and CONFLICT is performed with the next instruction as continuation
(12 R327). -/
def State.conflict (s : State) (c : Commit) (va : Nat) : State :=
  let t := s.endCommit c.id
  if (t.ctxAt c.pid c.cx).awaits c.act then
    let u := t.answer c.pid c.cx c.act (fun x => { x with tx := { x.tx with logn := 0, cfl := true } })
    let r : Raise := { eff := Eff.conflict, arg := W c.ts, addr := W va }
    if (u.ctxAt c.pid c.cx).regs.allPresent then u.deliver c.pid c.cx r ((u.ctxAt c.pid c.cx).pc - 4) (u.ctxAt c.pid c.cx).pc false false none
    else u.addPend c.act ⟨Eff.conflict, r⟩
  else t

/-- What a prepare of a line meets: it locks, waits for another commit, or is refused (10 R283 steps 1 and 2). A held single-line
commit has its timestamp. -/
inductive Prepared where
  | locked
  | waits
  | refused
deriving DecidableEq, Repr

def State.prepare (s : State) (c : Commit) (line : Nat) : Prepared :=
  let v := s.vline line
  match v.lock with
  | none => if (s.single line).isSome then .refused else if c.ts < v.ts then .refused else .locked
  | some id =>
    if id = c.id then .locked
    else if s.vers.commits.any (fun d => d.id == id && d.stamp.isSome) then .refused else .waits

/-- COMMIT_PREPARE: commit i locks and checks its next line in the locking order. -/
def execCommitPrepare (i : Nat) (s : State) : Out :=
  .next (match s.vers.commits[i]? with
    | none => s
    | some c => match c.lines[c.locked]? with
      | none => s
      | some x =>
        if s.keyHeld x.pa then s
        else match s.prepare c x.pa with
          | .waits => s
          | .refused => s.conflict c x.va
          | .locked =>
            (s.setVline x.pa { s.vline x.pa with lock := some c.id }).modVers (fun v => { v with
              commits := updAt (fun c => { c with locked := c.locked + 1 }) v.commits i }))

/-- COMMIT_TIMESTAMP: commit i, fully locked, takes the value of next (10 R283 step 3). -/
def execCommitTimestamp (i : Nat) (s : State) : Out :=
  .next (match s.vers.commits[i]? with
    | none => s
    | some c =>
      if c.stamp.isSome ∨ c.locked < c.lines.length ∨ s.stampsLeft = false ∨ s.sys.lval = false then s
      else s.modVers (fun v => { v with next := v.next + 1, commits := updAt (fun c => { c with stamp := some v.next }) v.commits i }))

/-- The logged bytes laid over a line (12 R327). -/
def laidOver (old data : List Byte) (mask : Nat) : List Byte :=
  (List.range 64).map (fun i => if bitOf mask i then data.getD i 0 else old.getD i 0)

/-- Installs one logged line; a line of which not every byte is logged keeps its uncorrectable mark (10 R270). A line logged
twice has one version. -/
def State.installLine (s : State) (ts : Nat) (x : CLine) : State :=
  let data := laidOver (s.rd x.pa 64) x.data x.mask
  let stays := s.ue.contains x.pa && x.mask != 2 ^ 64 - 1
  let t := if (s.vline x.pa).ts = ts then s.wr x.pa data else s.install x.pa ts data
  if stays then { t with ue := x.pa :: t.ue } else t

/-- The success of a commit: its context goes on with the timestamp, and stable follows (10 R281, 12 R327). -/
def State.committed (s : State) (c : Commit) (ts : Nat) : State :=
  ((s.endCommit c.id).answer c.pid c.cx c.act (fun x => { x.setG c.d (W ts) with tx := { x.tx with logn := 0, cfl := false } })).advanceStable

/-- COMMIT_INSTALL: the home of a line of commit i installs the new version and releases the lock, or the install is held
(10 R283 step 4, R286). -/
def execCommitInstall (i line : Nat) (s : State) : Out :=
  .next (match s.vers.commits[i]? with
    | none => s
    | some c => match c.stamp with
      | none => s
      | some ts =>
        let mine := c.lines.filter (fun x => x.pa == line && !x.installed)
        if mine.isEmpty || s.keyHeld line then s
        else if !s.installable line ts then s.holdLine line
        else
          let t := mine.foldl (fun s x => s.installLine ts x) s
          let u := t.setVline line { t.vline line with lock := none }
          let d := { c with lines := c.lines.map (fun x => if x.pa = line then { x with installed := true } else x) }
          if d.lines.all (fun x => x.installed) then u.committed d ts
          else u.modVers (fun v => { v with commits := updAt (fun _ => d) v.commits i }))

/-! ## Renumbering (10 R281) -/

/-- A commit without a timestamp is given up: its COMMIT issues again, and meets the loss (12 R326). -/
def State.giveUp (s : State) (c : Commit) : State :=
  let t := s.endCommit c.id
  if (t.ctxAt c.pid c.cx).awaits c.act then t.modCtxAt c.pid c.cx (fun x => { x with run := .runnable }) else t

/-- TIMESTAMP_RENUMBERING: when next would pass the last timestamp: steps 1 and 2, and, once no commit is left, steps 4 to 6. -/
def execTimestampRenumbering (s : State) : Out :=
  .next (if s.stampsLeft then s
    else
      let t := (s.vers.commits.filter (fun c => c.stamp.isNone)).foldl State.giveUp s
      let u := t.vers.snaps.foldl State.revoke t
      if u.vers.commits.isEmpty && u.vers.singles.isEmpty then
        { u with ue := u.ue.filter (fun k => k < 2 ^ 100) }.modVers (fun v => { v with lines := [], next := 1, stable := 0, heldAt := [], acquires := [] })
      else u)

/-! ## Old versions (10 R285, R286) -/

/-- GROOM_RECLAIM: the old version of a line with timestamp `ts`, if no snapshot selects it or can select it. -/
def execGroomReclaim (line ts : Nat) (s : State) : Out :=
  let v := s.vline line
  .next (match v.olds.findIdx? (fun o => o.1 == ts) with
    | none => s
    | some i => match (State.oldsOf v)[i]? with
      | none => s
      | some (_, newer) => if s.needed ts newer then s else s.reclaim line i)

/-- The live snapshot that is revoked first: the lowest timestamp, then the one opened first. -/
def oldestSnap (l : List Snap) : Option Snap :=
  l.foldl (fun b n => match b with
    | none => some n
    | some m => if n.ts < m.ts ∨ (n.ts = m.ts ∧ n.seq < m.seq) then some n else b) none

/-- The timestamp that a held install on a line has or is to have. -/
def State.heldStamp (s : State) (line : Nat) : Nat := match s.single line with
  | some x => x.stamp
  | none =>
    ((s.vers.commits.find? (fun c => c.stamp.isSome && c.lines.any (fun x => x.pa == line && !x.installed))).bind (fun c => c.stamp)).getD s.vers.next

/-- SNAPSHOT_REVOCATION: an install has been held for 100 µs; the next revocation is 100 µs away (10 R286). -/
def execSnapshotRevocation (s : State) : Out :=
  let late := s.vers.heldAt.filter (fun e => e.2 + 100 * Config.tickUs ≤ s.time && !s.installable e.1 (s.heldStamp e.1))
  .next (if late.isEmpty then s
    else match oldestSnap s.vers.snaps with
      | none => s
      | some n => (s.revoke n).modVers (fun v => { v with heldAt := v.heldAt.map (fun e => (e.1, s.time)) }))

end Sys2Proof.Machine
end

