-- ==== Sys2Proof/Machine/Dispatch.lean ====
section
/-! DEFINITION. The meaning of every instruction: one arm per constructor of Instr, each one call. -/

namespace Sys2Proof.Machine

def exec (i : Instr) (s : State) : Host.Outcome State Fault Refusal :=
  match i with
  | .add s0 d a b => Sys2Proof.Machine.execAdd s0 d a b s
  | .sub s0 d a b => Sys2Proof.Machine.execSub s0 d a b s
  | .mul s0 d a b => Sys2Proof.Machine.execMul s0 d a b s
  | .mulh s0 d a b => Sys2Proof.Machine.execMulh s0 d a b s
  | .mulhu s0 d a b => Sys2Proof.Machine.execMulhu s0 d a b s
  | .div s0 d a b => Sys2Proof.Machine.execDiv s0 d a b s
  | .divu s0 d a b => Sys2Proof.Machine.execDivu s0 d a b s
  | .rem s0 d a b => Sys2Proof.Machine.execRem s0 d a b s
  | .remu s0 d a b => Sys2Proof.Machine.execRemu s0 d a b s
  | .and s0 d a b => Sys2Proof.Machine.execAnd s0 d a b s
  | .or s0 d a b => Sys2Proof.Machine.execOr s0 d a b s
  | .xor s0 d a b => Sys2Proof.Machine.execXor s0 d a b s
  | .andn s0 d a b => Sys2Proof.Machine.execAndn s0 d a b s
  | .orn s0 d a b => Sys2Proof.Machine.execOrn s0 d a b s
  | .shl s0 d a b => Sys2Proof.Machine.execShl s0 d a b s
  | .shr s0 d a b => Sys2Proof.Machine.execShr s0 d a b s
  | .sar s0 d a b => Sys2Proof.Machine.execSar s0 d a b s
  | .rol s0 d a b => Sys2Proof.Machine.execRol s0 d a b s
  | .ror s0 d a b => Sys2Proof.Machine.execRor s0 d a b s
  | .min s0 d a b => Sys2Proof.Machine.execMin s0 d a b s
  | .max s0 d a b => Sys2Proof.Machine.execMax s0 d a b s
  | .minu s0 d a b => Sys2Proof.Machine.execMinu s0 d a b s
  | .maxu s0 d a b => Sys2Proof.Machine.execMaxu s0 d a b s
  | .sel s0 d a b => Sys2Proof.Machine.execSel s0 d a b s
  | .cmpeq s0 d a b => Sys2Proof.Machine.execCmpeq s0 d a b s
  | .cmpne s0 d a b => Sys2Proof.Machine.execCmpne s0 d a b s
  | .cmplt s0 d a b => Sys2Proof.Machine.execCmplt s0 d a b s
  | .cmpge s0 d a b => Sys2Proof.Machine.execCmpge s0 d a b s
  | .cmpltu s0 d a b => Sys2Proof.Machine.execCmpltu s0 d a b s
  | .cmpgeu s0 d a b => Sys2Proof.Machine.execCmpgeu s0 d a b s
  | .clz s0 d a => Sys2Proof.Machine.execClz s0 d a s
  | .ctz s0 d a => Sys2Proof.Machine.execCtz s0 d a s
  | .popc s0 d a => Sys2Proof.Machine.execPopc s0 d a s
  | .bswap s0 d a => Sys2Proof.Machine.execBswap s0 d a s
  | .sextb s0 d a => Sys2Proof.Machine.execSextb s0 d a s
  | .sexth s0 d a => Sys2Proof.Machine.execSexth s0 d a s
  | .sextw s0 d a => Sys2Proof.Machine.execSextw s0 d a s
  | .zextb s0 d a => Sys2Proof.Machine.execZextb s0 d a s
  | .zexth s0 d a => Sys2Proof.Machine.execZexth s0 d a s
  | .zextw s0 d a => Sys2Proof.Machine.execZextw s0 d a s
  | .addi s0 d a i0 => Sys2Proof.Machine.execAddi s0 d a i0 s
  | .andi s0 d a i0 => Sys2Proof.Machine.execAndi s0 d a i0 s
  | .ori s0 d a i0 => Sys2Proof.Machine.execOri s0 d a i0 s
  | .xori s0 d a i0 => Sys2Proof.Machine.execXori s0 d a i0 s
  | .shli s0 d a n => Sys2Proof.Machine.execShli s0 d a n s
  | .shri s0 d a n => Sys2Proof.Machine.execShri s0 d a n s
  | .sari s0 d a n => Sys2Proof.Machine.execSari s0 d a n s
  | .rori s0 d a n => Sys2Proof.Machine.execRori s0 d a n s
  | .cmpi s0 c d a i0 => Sys2Proof.Machine.execCmpi s0 c d a i0 s
  | .li s0 d i0 => Sys2Proof.Machine.execLi s0 d i0 s
  | .lih s0 d i0 => Sys2Proof.Machine.execLih s0 d i0 s
  | .addpc s0 d i0 => Sys2Proof.Machine.execAddpc s0 d i0 s
  | .lea s0 z d a i0 => Sys2Proof.Machine.execLea s0 z d a i0 s
  | .ld s0 z x d a i0 => Sys2Proof.Machine.execLd s0 z x d a i0 s
  | .st s0 z d a i0 => Sys2Proof.Machine.execSt s0 z d a i0 s
  | .ldx s0 z x d a b => Sys2Proof.Machine.execLdx s0 z x d a b s
  | .stx s0 z d a b => Sys2Proof.Machine.execStx s0 z d a b s
  | .mfs s0 d i0 => Sys2Proof.Machine.execMfs s0 d i0 s
  | .mts s0 a i0 => Sys2Proof.Machine.execMts s0 a i0 s
  | .bc s0 h c b a o => Sys2Proof.Machine.execBc s0 h c b a o s
  | .bz s0 h c a o => Sys2Proof.Machine.execBz s0 h c a o s
  | .br s0 o => Sys2Proof.Machine.execBr s0 o s
  | .call s0 o => Sys2Proof.Machine.execCall s0 o s
  | .jr s0 m a => Sys2Proof.Machine.execJr s0 m a s
  | .callr s0 m a => Sys2Proof.Machine.execCallr s0 m a s
  | .ret s0 => Sys2Proof.Machine.execRet s0 s
  | .done s0 => Sys2Proof.Machine.execDone s0 s
  | .waita s0 d a b => Sys2Proof.Machine.execWaita s0 d a b s
  | .halt s0 a => Sys2Proof.Machine.execHalt s0 a s
  | .idle s0 a => Sys2Proof.Machine.execIdle s0 a s
  | .nop s0 => Sys2Proof.Machine.execNop s0 s
  | .mtake s0 d a => Sys2Proof.Machine.execMtake s0 d a s
  | .mpeek s0 d a => Sys2Proof.Machine.execMpeek s0 d a s
  | .waitm s0 a => Sys2Proof.Machine.execWaitm s0 a s
  | .loop s0 h a o => Sys2Proof.Machine.execLoop s0 h a o s
  | .bsinit s0 a b => Sys2Proof.Machine.execBsinit s0 a b s
  | .bsget s0 d a => Sys2Proof.Machine.execBsget s0 d a s
  | .bspeek s0 d a => Sys2Proof.Machine.execBspeek s0 d a s
  | .bsskip s0 a => Sys2Proof.Machine.execBsskip s0 a s
  | .bseg s0 d a => Sys2Proof.Machine.execBseg s0 d a s
  | .bsput s0 a b => Sys2Proof.Machine.execBsput s0 a b s
  | .bsflush s0 => Sys2Proof.Machine.execBsflush s0 s
  | .bspos s0 d => Sys2Proof.Machine.execBspos s0 d s
  | .nopCompact s0 => Sys2Proof.Machine.execNopCompact s0 s
  | .doneCompact s0 => Sys2Proof.Machine.execDoneCompact s0 s
  | .retCompact s0 => Sys2Proof.Machine.execRetCompact s0 s
  | .addCompact s0 d a => Sys2Proof.Machine.execAddCompact s0 d a s
  | .subCompact s0 d a => Sys2Proof.Machine.execSubCompact s0 d a s
  | .andCompact s0 d a => Sys2Proof.Machine.execAndCompact s0 d a s
  | .orCompact s0 d a => Sys2Proof.Machine.execOrCompact s0 d a s
  | .xorCompact s0 d a => Sys2Proof.Machine.execXorCompact s0 d a s
  | .addiCompact s0 d i0 => Sys2Proof.Machine.execAddiCompact s0 d i0 s
  | .liCompact s0 d i0 => Sys2Proof.Machine.execLiCompact s0 d i0 s
  | .shliCompact s0 d n => Sys2Proof.Machine.execShliCompact s0 d n s
  | .shriCompact s0 d n => Sys2Proof.Machine.execShriCompact s0 d n s
  | .ldStackCompact s0 d i0 => Sys2Proof.Machine.execLdStackCompact s0 d i0 s
  | .stStackCompact s0 d i0 => Sys2Proof.Machine.execStStackCompact s0 d i0 s
  | .ldCompact s0 d a => Sys2Proof.Machine.execLdCompact s0 d a s
  | .stCompact s0 d a => Sys2Proof.Machine.execStCompact s0 d a s
  | .mulCompact s0 d a => Sys2Proof.Machine.execMulCompact s0 d a s
  | .jrCompact s0 a => Sys2Proof.Machine.execJrCompact s0 a s
  | .handle s0 a b c => Sys2Proof.Machine.execHandle s0 a b c s
  | .unhandle s0 a => Sys2Proof.Machine.execUnhandle s0 a s
  | .perform s0 e a => Sys2Proof.Machine.execPerform s0 e a s
  | .performv s0 e a p => Sys2Proof.Machine.execPerformv s0 e a p s
  | .resume s0 a b c => Sys2Proof.Machine.execResume s0 a b c s
  | .resumem s0 a b c => Sys2Proof.Machine.execResumem s0 a b c s
  | .discard s0 d a => Sys2Proof.Machine.execDiscard s0 d a s
  | .tkstat s0 d a => Sys2Proof.Machine.execTkstat s0 d a s
  | .shandle s0 a => Sys2Proof.Machine.execShandle s0 a s
  | .send s0 a b c => Sys2Proof.Machine.execSend s0 a b c s
  | .sendr s0 a b => Sys2Proof.Machine.execSendr s0 a b s
  | .mcast s0 a b c => Sys2Proof.Machine.execMcast s0 a b c s
  | .subtag s0 a b => Sys2Proof.Machine.execSubtag s0 a b s
  | .hmask s0 => Sys2Proof.Machine.execHmask s0 s
  | .hunmask s0 => Sys2Proof.Machine.execHunmask s0 s
  | .hcfg s0 d a b c => Sys2Proof.Machine.execHcfg s0 d a b c s
  | .spawn s0 d a => Sys2Proof.Machine.execSpawn s0 d a s
  | .fork s0 d a b c => Sys2Proof.Machine.execFork s0 d a b c s
  | .joinw s0 a => Sys2Proof.Machine.execJoinw s0 a s
  | .cntinit s0 a b => Sys2Proof.Machine.execCntinit s0 a b s
  | .cntdec s0 a => Sys2Proof.Machine.execCntdec s0 a s
  | .launch s0 d a => Sys2Proof.Machine.execLaunch s0 d a s
  | .gjoin s0 d a => Sys2Proof.Machine.execGjoin s0 d a s
  | .gleave s0 a => Sys2Proof.Machine.execGleave s0 a s
  | .bari s0 a b => Sys2Proof.Machine.execBari s0 a b s
  | .bara s0 a => Sys2Proof.Machine.execBara s0 a s
  | .barw s0 a b => Sys2Proof.Machine.execBarw s0 a b s
  | .baraw s0 a b => Sys2Proof.Machine.execBaraw s0 a b s
  | .amoAdd s0 k r d a b => Sys2Proof.Machine.execAmoAdd s0 k r d a b s
  | .amoAnd s0 k r d a b => Sys2Proof.Machine.execAmoAnd s0 k r d a b s
  | .amoOr s0 k r d a b => Sys2Proof.Machine.execAmoOr s0 k r d a b s
  | .amoXor s0 k r d a b => Sys2Proof.Machine.execAmoXor s0 k r d a b s
  | .amoMin s0 k r d a b => Sys2Proof.Machine.execAmoMin s0 k r d a b s
  | .amoMax s0 k r d a b => Sys2Proof.Machine.execAmoMax s0 k r d a b s
  | .amoMinu s0 k r d a b => Sys2Proof.Machine.execAmoMinu s0 k r d a b s
  | .amoMaxu s0 k r d a b => Sys2Proof.Machine.execAmoMaxu s0 k r d a b s
  | .amoSwap s0 k r d a b => Sys2Proof.Machine.execAmoSwap s0 k r d a b s
  | .amoFadd32 s0 k r d a b => Sys2Proof.Machine.execAmoFadd32 s0 k r d a b s
  | .amoFadd64 s0 k r d a b => Sys2Proof.Machine.execAmoFadd64 s0 k r d a b s
  | .cas s0 k r d a b => Sys2Proof.Machine.execCas s0 k r d a b s
  | .lda s0 k r z d a => Sys2Proof.Machine.execLda s0 k r z d a s
  | .stl s0 k r z d a => Sys2Proof.Machine.execStl s0 k r z d a s
  | .fence s0 k r => Sys2Proof.Machine.execFence s0 k r s
  | .tdef s0 d a => Sys2Proof.Machine.execTdef s0 d a s
  | .tset s0 d => Sys2Proof.Machine.execTset s0 d s
  | .twait s0 d a => Sys2Proof.Machine.execTwait s0 d a s
  | .trel s0 d => Sys2Proof.Machine.execTrel s0 d s
  | .snap s0 d a => Sys2Proof.Machine.execSnap s0 d a s
  | .ldv s0 z x d a => Sys2Proof.Machine.execLdv s0 z x d a s
  | .ldvw s0 d a b => Sys2Proof.Machine.execLdvw s0 d a b s
  | .stv s0 z d a => Sys2Proof.Machine.execStv s0 z d a s
  | .commit s0 d => Sys2Proof.Machine.execCommit s0 d s
  | .abort s0 => Sys2Proof.Machine.execAbort s0 s
  | .vretire s0 => Sys2Proof.Machine.execVretire s0 s
  | .ctxsave s0 d a b => Sys2Proof.Machine.execCtxsave s0 d a b s
  | .ctxsaveCore s0 d a b => Sys2Proof.Machine.execCtxsaveCore s0 d a b s
  | .ctxload s0 d a b => Sys2Proof.Machine.execCtxload s0 d a b s
  | .ctxloadCore s0 d a b => Sys2Proof.Machine.execCtxloadCore s0 d a b s
  | .tlbi s0 a b => Sys2Proof.Machine.execTlbi s0 a b s
  | .maplid s0 d a b => Sys2Proof.Machine.execMaplid s0 d a b s
  | .sysrd s0 d a => Sys2Proof.Machine.execSysrd s0 d a s
  | .syswr s0 a b => Sys2Proof.Machine.execSyswr s0 a b s
  | .prefetch s0 a b => Sys2Proof.Machine.execPrefetch s0 a b s
  | .vadd s0 t p d a b => Sys2Proof.Machine.execVadd s0 t p d a b s
  | .vsub s0 t p d a b => Sys2Proof.Machine.execVsub s0 t p d a b s
  | .vmul s0 t p d a b => Sys2Proof.Machine.execVmul s0 t p d a b s
  | .vmulh s0 p d a b => Sys2Proof.Machine.execVmulh s0 p d a b s
  | .vmin s0 p d a b => Sys2Proof.Machine.execVmin s0 p d a b s
  | .vmax s0 p d a b => Sys2Proof.Machine.execVmax s0 p d a b s
  | .vand s0 p d a b => Sys2Proof.Machine.execVand s0 p d a b s
  | .vor s0 p d a b => Sys2Proof.Machine.execVor s0 p d a b s
  | .vxor s0 p d a b => Sys2Proof.Machine.execVxor s0 p d a b s
  | .vshl s0 p d a b => Sys2Proof.Machine.execVshl s0 p d a b s
  | .vshr s0 p d a b => Sys2Proof.Machine.execVshr s0 p d a b s
  | .vsar s0 p d a b => Sys2Proof.Machine.execVsar s0 p d a b s
  | .vabs s0 t p d a => Sys2Proof.Machine.execVabs s0 t p d a s
  | .vcmp s0 m d p a b => Sys2Proof.Machine.execVcmp s0 m d p a b s
  | .vfadd s0 t p d a b => Sys2Proof.Machine.execVfadd s0 t p d a b s
  | .vfsub s0 t p d a b => Sys2Proof.Machine.execVfsub s0 t p d a b s
  | .vfmul s0 t p d a b => Sys2Proof.Machine.execVfmul s0 t p d a b s
  | .vfma s0 t p d a b => Sys2Proof.Machine.execVfma s0 t p d a b s
  | .vfms s0 t p d a b => Sys2Proof.Machine.execVfms s0 t p d a b s
  | .vfnma s0 t p d a b => Sys2Proof.Machine.execVfnma s0 t p d a b s
  | .vfdiv s0 t p d a b => Sys2Proof.Machine.execVfdiv s0 t p d a b s
  | .vfsqrt s0 t p d a => Sys2Proof.Machine.execVfsqrt s0 t p d a s
  | .vfmin s0 p d a b => Sys2Proof.Machine.execVfmin s0 p d a b s
  | .vfmax s0 p d a b => Sys2Proof.Machine.execVfmax s0 p d a b s
  | .vfcmp s0 m d p a b => Sys2Proof.Machine.execVfcmp s0 m d p a b s
  | .vfclass s0 p d a => Sys2Proof.Machine.execVfclass s0 p d a s
  | .vfrcp s0 t p d a => Sys2Proof.Machine.execVfrcp s0 t p d a s
  | .vfrsq s0 t p d a => Sys2Proof.Machine.execVfrsq s0 t p d a s
  | .vcvt s0 t p d a n => Sys2Proof.Machine.execVcvt s0 t p d a n s
  | .vscale s0 t p d a b => Sys2Proof.Machine.execVscale s0 t p d a b s
  | .vpack s0 t p d a b => Sys2Proof.Machine.execVpack s0 t p d a b s
  | .vunpack s0 p d a n => Sys2Proof.Machine.execVunpack s0 p d a n s
  | .vcfg s0 d a => Sys2Proof.Machine.execVcfg s0 d a s
  | .vmov s0 p d a => Sys2Proof.Machine.execVmov s0 p d a s
  | .vmovPredToGpr s0 d a => Sys2Proof.Machine.execVmovPredToGpr s0 d a s
  | .vmovGprToPred s0 d a => Sys2Proof.Machine.execVmovGprToPred s0 d a s
  | .vbcast s0 p d a => Sys2Proof.Machine.execVbcast s0 p d a s
  | .vext s0 d a b => Sys2Proof.Machine.execVext s0 d a b s
  | .vins s0 d a b => Sys2Proof.Machine.execVins s0 d a b s
  | .vshuf s0 p d a b => Sys2Proof.Machine.execVshuf s0 p d a b s
  | .vperm s0 p d a b => Sys2Proof.Machine.execVperm s0 p d a b s
  | .vslide s0 p d a b => Sys2Proof.Machine.execVslide s0 p d a b s
  | .vsel s0 p d a b => Sys2Proof.Machine.execVsel s0 p d a b s
  | .vcompress s0 p d a => Sys2Proof.Machine.execVcompress s0 p d a s
  | .vexpand s0 p d a => Sys2Proof.Machine.execVexpand s0 p d a s
  | .vredadd s0 t p d a => Sys2Proof.Machine.execVredadd s0 t p d a s
  | .vredmax s0 p d a => Sys2Proof.Machine.execVredmax s0 p d a s
  | .vredmin s0 p d a => Sys2Proof.Machine.execVredmin s0 p d a s
  | .vdot s0 t p d a b => Sys2Proof.Machine.execVdot s0 t p d a b s
  | .pand s0 d a b => Sys2Proof.Machine.execPand s0 d a b s
  | .por s0 d a b => Sys2Proof.Machine.execPor s0 d a b s
  | .pxor s0 d a b => Sys2Proof.Machine.execPxor s0 d a b s
  | .pnot s0 d a => Sys2Proof.Machine.execPnot s0 d a s
  | .pcnt s0 d a => Sys2Proof.Machine.execPcnt s0 d a s
  | .pfirst s0 d a => Sys2Proof.Machine.execPfirst s0 d a s
  | .pset s0 d a => Sys2Proof.Machine.execPset s0 d a s
  | .vld s0 p d a b => Sys2Proof.Machine.execVld s0 p d a b s
  | .vst s0 p d a b => Sys2Proof.Machine.execVst s0 p d a b s
  | .vlds s0 p d a b => Sys2Proof.Machine.execVlds s0 p d a b s
  | .vsts s0 p d a b => Sys2Proof.Machine.execVsts s0 p d a b s
  | .vgather s0 t p d a b => Sys2Proof.Machine.execVgather s0 t p d a b s
  | .vscatter s0 t p d a b => Sys2Proof.Machine.execVscatter s0 t p d a b s
  | .vscatadd s0 t p d a b => Sys2Proof.Machine.execVscatadd s0 t p d a b s
  | .cpy s0 d a b c => Sys2Proof.Machine.execCpy s0 d a b c s
  | .cpym s0 d a b c => Sys2Proof.Machine.execCpym s0 d a b c s
  | .cpyb s0 d a b c => Sys2Proof.Machine.execCpyb s0 d a b c s
  | .wmwait s0 d a b => Sys2Proof.Machine.execWmwait s0 d a b s
  | .spld s0 a b c => Sys2Proof.Machine.execSpld s0 a b c s
  | .bankop s0 a b c => Sys2Proof.Machine.execBankop s0 a b c s
  | .mma s0 t z n d a b c => Sys2Proof.Machine.execMma s0 t z n d a b c s
  | .mmar s0 t z n d a b c => Sys2Proof.Machine.execMmar s0 t z n d a b c s
  | .mmasp s0 t z n d a b c => Sys2Proof.Machine.execMmasp s0 t z n d a b c s
  | .accrd s0 d a b => Sys2Proof.Machine.execAccrd s0 d a b s
  | .accz s0 d => Sys2Proof.Machine.execAccz s0 d s
  | .mscl s0 d a b => Sys2Proof.Machine.execMscl s0 d a b s
  | .rsort s0 d a => Sys2Proof.Machine.execRsort s0 d a s
  | .remit s0 d a b c => Sys2Proof.Machine.execRemit s0 d a b c s
  | .rkseq s0 a b => Sys2Proof.Machine.execRkseq s0 a b s
  | .rkarm s0 d a b c => Sys2Proof.Machine.execRkarm s0 d a b c s
  | .rkdisarm s0 d => Sys2Proof.Machine.execRkdisarm s0 d s
  | .rkres s0 d a => Sys2Proof.Machine.execRkres s0 d a s
  | .rkacc s0 d a => Sys2Proof.Machine.execRkacc s0 d a s
  | .rkdense s0 d a c => Sys2Proof.Machine.execRkdense s0 d a c s
  | .rkgrad s0 d a b c => Sys2Proof.Machine.execRkgrad s0 d a b c s
  | .queuePop core i0 => Sys2Proof.Machine.execQueuePop core i0 s
  | .queuePush core cx q v => Sys2Proof.Machine.execQueuePush core cx q v s
  | .preqWrite core v => Sys2Proof.Machine.execPreqWrite core v s
  | .migrWrite core cx v => Sys2Proof.Machine.execMigrWrite core cx v s
  | .lqtailWrite n v => Sys2Proof.Machine.execLqtailWrite n v s
  | .lqctlWrite n v => Sys2Proof.Machine.execLqctlWrite n v s
  | .trstRsyWrite port v => Sys2Proof.Machine.execTrstRsyWrite port v s
  | .registerWrite off size v => Sys2Proof.Machine.execRegisterWrite off size v s
  | .readSensors len => Sys2Proof.Machine.execReadSensors len s
  | .readLog len seq => Sys2Proof.Machine.execReadLog len seq s
  | .cap len seq watts => Sys2Proof.Machine.execCap len seq watts s
  | .stageFirmwareChunk len off data => Sys2Proof.Machine.execStageFirmwareChunk len off data s
  | .verifyAndActivate len => Sys2Proof.Machine.execVerifyAndActivate len s
  | .attestationReport len nonce => Sys2Proof.Machine.execAttestationReport len nonce s
  | .mailboxUnknownOp op len => Sys2Proof.Machine.execMailboxUnknownOp op len s
  | .mailboxCompletion => Sys2Proof.Machine.execMailboxCompletion s
  | .pldmMonitoring log seq => Sys2Proof.Machine.execPldmMonitoring log seq s
  | .pldmFirmwareUpdate off data => Sys2Proof.Machine.execPldmFirmwareUpdate off data s
  | .spdmAttestation nonce => Sys2Proof.Machine.execSpdmAttestation nonce s
  | .oemCapMessage seq watts => Sys2Proof.Machine.execOemCapMessage seq watts s
  | .budgetUpdate => Sys2Proof.Machine.execBudgetUpdate s
  | .capFallback => Sys2Proof.Machine.execCapFallback s
  | .clusterEstimate die cluster => Sys2Proof.Machine.execClusterEstimate die cluster s
  | .migrateWithdrawal core cx => Sys2Proof.Machine.execMigrateWithdrawal core cx s
  | .migrate core cx => Sys2Proof.Machine.execMigrate core cx s
  | .migrationMove core cx => Sys2Proof.Machine.execMigrationMove core cx s
  | .clusterSensorSample die cluster reading => Sys2Proof.Machine.execClusterSensorSample die cluster reading s
  | .stackSensorSample die stack reading => Sys2Proof.Machine.execStackSensorSample die stack reading s
  | .moduleSensorSample sensor reading => Sys2Proof.Machine.execModuleSensorSample sensor reading s
  | .inputVoltageTrip reading => Sys2Proof.Machine.execInputVoltageTrip reading s
  | .outOfService kind unit => Sys2Proof.Machine.execOutOfService kind unit s
  | .correctedCountLog => Sys2Proof.Machine.execCorrectedCountLog s
  | .scrubFinding addr => Sys2Proof.Machine.execScrubFinding addr s
  | .powerGood => Sys2Proof.Machine.execPowerGood s
  | .reset => Sys2Proof.Machine.execReset s
  | .selfTestPass unit => Sys2Proof.Machine.execSelfTestPass unit s
  | .leadDieChoice => Sys2Proof.Machine.execLeadDieChoice s
  | .traceFlitSend port resend => Sys2Proof.Machine.execTraceFlitSend port resend s
  | .traceFlitReceive port crcOk seq vn kind model hash stream => Sys2Proof.Machine.execTraceFlitReceive port crcOk seq vn kind model hash stream s
  | .codeTableRebuild port => Sys2Proof.Machine.execCodeTableRebuild port s
  | .resynchronisation port => Sys2Proof.Machine.execResynchronisation port s
  | .portRetrain port => Sys2Proof.Machine.execPortRetrain port s
  | .portDown port => Sys2Proof.Machine.execPortDown port s
  | .hostAccess write bar addr size v => Sys2Proof.Machine.execHostAccess write bar addr size v s
  | .peerAccess port write addr size v => Sys2Proof.Machine.execPeerAccess port write addr size v s
  | .peerNegativeResponse i0 => Sys2Proof.Machine.execPeerNegativeResponse i0 s
  | .peerStorePerm core cx => Sys2Proof.Machine.execPeerStorePerm core cx s
  | .launchQueueService => Sys2Proof.Machine.execLaunchQueueService s
  | .launchCheck i0 => Sys2Proof.Machine.execLaunchCheck i0 s
  | .launchCoreStart launch core => Sys2Proof.Machine.execLaunchCoreStart launch core s
  | .launchEnd launch => Sys2Proof.Machine.execLaunchEnd launch s
  | .messageArrival i0 => Sys2Proof.Machine.execMessageArrival i0 s
  | .boundQueuePush core i0 => Sys2Proof.Machine.execBoundQueuePush core i0 s
  | .messageSelection core => Sys2Proof.Machine.execMessageSelection core s
  | .priority1Entry core => Sys2Proof.Machine.execPriority1Entry core s
  | .deadmsgResponse i0 => Sys2Proof.Machine.execDeadmsgResponse i0 s
  | .deadmsg core cx => Sys2Proof.Machine.execDeadmsg core cx s
  | .mailboxWriteArrival i0 => Sys2Proof.Machine.execMailboxWriteArrival i0 s
  | .mailboxStoreLanding core m => Sys2Proof.Machine.execMailboxStoreLanding core m s
  | .mtakeService core i0 => Sys2Proof.Machine.execMtakeService core i0 s
  | .subscriptionUpdate i0 => Sys2Proof.Machine.execSubscriptionUpdate i0 s
  | .registerResultArrival i0 => Sys2Proof.Machine.execRegisterResultArrival i0 s
  | .contextWake core cx => Sys2Proof.Machine.execContextWake core cx s
  | .watchWake line => Sys2Proof.Machine.execWatchWake line s
  | .fairnessBoundary core cx => Sys2Proof.Machine.execFairnessBoundary core cx s
  | .idleExpiry core cx => Sys2Proof.Machine.execIdleExpiry core cx s
  | .hmaskTimeout core cx => Sys2Proof.Machine.execHmaskTimeout core cx s
  | .contextFill core => Sys2Proof.Machine.execContextFill core s
  | .contextSpill core => Sys2Proof.Machine.execContextSpill core s
  | .spillRestore core slot => Sys2Proof.Machine.execSpillRestore core slot s
  | .taskJoinDecrement i0 => Sys2Proof.Machine.execTaskJoinDecrement i0 s
  | .decrementArrival i0 => Sys2Proof.Machine.execDecrementArrival i0 s
  | .pendingRecordRelease core slot => Sys2Proof.Machine.execPendingRecordRelease core slot s
  | .paddockDispatch die => Sys2Proof.Machine.execPaddockDispatch die s
  | .paddockAging die q => Sys2Proof.Machine.execPaddockAging die q s
  | .classWaitExpiry die q => Sys2Proof.Machine.execClassWaitExpiry die q s
  | .deterministicHoldRelease i0 => Sys2Proof.Machine.execDeterministicHoldRelease i0 s
  | .barrierUpdate i0 => Sys2Proof.Machine.execBarrierUpdate i0 s
  | .copyEngineAccept core cx => Sys2Proof.Machine.execCopyEngineAccept core cx s
  | .copySegmentRead i0 item seg => Sys2Proof.Machine.execCopySegmentRead i0 item seg s
  | .copySegmentDelivery i0 item seg crcOk => Sys2Proof.Machine.execCopySegmentDelivery i0 item seg crcOk s
  | .copyItemCompletion i0 item => Sys2Proof.Machine.execCopyItemCompletion i0 item s
  | .copyfail core cx => Sys2Proof.Machine.execCopyfail core cx s
  | .copyfault core cx => Sys2Proof.Machine.execCopyfault core cx s
  | .cpymHeaderArrival i0 => Sys2Proof.Machine.execCpymHeaderArrival i0 s
  | .drainHoldRelease core t => Sys2Proof.Machine.execDrainHoldRelease core t s
  | .remoteAccess i0 => Sys2Proof.Machine.execRemoteAccess i0 s
  | .pageWalk core cx va => Sys2Proof.Machine.execPageWalk core cx va s
  | .replicatedWrite i0 => Sys2Proof.Machine.execReplicatedWrite i0 s
  | .replicaApply die => Sys2Proof.Machine.execReplicaApply die s
  | .snapshotRequest i0 => Sys2Proof.Machine.execSnapshotRequest i0 s
  | .commitPrepare i0 => Sys2Proof.Machine.execCommitPrepare i0 s
  | .commitTimestamp i0 => Sys2Proof.Machine.execCommitTimestamp i0 s
  | .commitInstall i0 line => Sys2Proof.Machine.execCommitInstall i0 line s
  | .timestampRenumbering => Sys2Proof.Machine.execTimestampRenumbering s
  | .groomReclaim line ts => Sys2Proof.Machine.execGroomReclaim line ts s
  | .snapshotRevocation => Sys2Proof.Machine.execSnapshotRevocation s
  | .matrixUnitExecute core => Sys2Proof.Machine.execMatrixUnitExecute core s
  | .matrixStatusPush core => Sys2Proof.Machine.execMatrixStatusPush core s
  | .rotationForwardLanding i0 => Sys2Proof.Machine.execRotationForwardLanding i0 s
  | .forwardHoldRelease core i0 => Sys2Proof.Machine.execForwardHoldRelease core i0 s
  | .rankUnitExecute core => Sys2Proof.Machine.execRankUnitExecute core s
  | .rankFlitArrival i0 => Sys2Proof.Machine.execRankFlitArrival i0 s
  | .rankEntryProcessing core k => Sys2Proof.Machine.execRankEntryProcessing core k s
  | .rankResultPush core k => Sys2Proof.Machine.execRankResultPush core k s
  | .numericDeferred core cx => Sys2Proof.Machine.execNumericDeferred core cx s
  | .memerrDeferred core cx => Sys2Proof.Machine.execMemerrDeferred core cx s
  | .watchdog core => Sys2Proof.Machine.execWatchdog core s
  | .preempt core cx => Sys2Proof.Machine.execPreempt core cx s
  | .preemptForced core cx => Sys2Proof.Machine.execPreemptForced core cx s
  | .heldSystemEffect core cx => Sys2Proof.Machine.execHeldSystemEffect core cx s
  | .syswrApply i0 => Sys2Proof.Machine.execSyswrApply i0 s
  | .unassignedEncoding w => Sys2Proof.Machine.execUnassignedEncoding w s
  | .fetchFault e arg addr => Sys2Proof.Machine.execFetchFault e arg addr s
  | .mapChange i0 => Sys2Proof.Machine.execMapChange i0 s
  | .softError space addr correctable => Sys2Proof.Machine.execSoftError space addr correctable s
  | .powerLoss => Sys2Proof.Machine.execPowerLoss s

end Sys2Proof.Machine
end

