-- ==== Sys2Proof/Machine/Schedule.lean ====
section
/-! DEFINITION. Who moves next (log 3): the issue of one instruction of one context (08 R201, R205; 01 R17), and the moves that
stand open when the agenda names none. -/

namespace Sys2Proof.Machine

noncomputable section

/-! ## The issue of an instruction -/

/-- Whether an occupied context may try to issue: it does not park, and no answer is owed to the instruction at its PC. -/
def Ctx.tries (c : Ctx) : Bool :=
  match c.run with
  | .runnable => true
  | .stalled .reply => false
  | .stalled _ => true
  | _ => false

/-- Whether a context may issue now: SH when it is occupied; else the core's issuing context, or, where that one parks or is free,
the next runnable one (08 R201, R205). -/
def State.mayIssue (s : State) (pid cx : Nat) : Bool :=
  let k := s.coreAt pid
  if cx = 4 then (s.ctxAt pid 4).tries
  else
    (s.ctxAt pid 4).run == .free && cx < 4 && (s.ctxAt pid cx).tries
    && (cx == k.cur || (!(match (s.ctxAt pid k.cur).run with
        | .runnable => true
        | .stalled _ => true
        | _ => false) && cx == s.nextRunnable pid k.cur))

/-- The state in which an instruction of a context issues: the context is the one that executes, its core issues from it, the time
of the issue is kept (08 R206), and the cycles of an SH activation count from its first instruction, without those in CTXSAVE and CTXLOAD (08 R202,
21 R407). -/
def State.ready (s : State) (pid cx : Nat) : State :=
  let first := cx = 4 ∧ Tab.get 0 (s.coreAt pid).issued 4 ≤ (s.ctxAt pid 4).startAt ∧ (s.ctxAt pid 4).sysBusy = false
  let lost := if cx = 4 then s.saveTime pid else 0
  let t := if first then s.modCtxAt pid 4 (fun c => { c with shFrom := s.time })
    else if lost = 0 then s else s.modCtxAt pid 4 (fun c => { c with shFrom := c.shFrom + lost })
  { t.modCoreAt pid (fun k => { k with cur := if cx < 4 then cx else k.cur, issued := Tab.set k.issued cx s.time }) with pid := pid, cx := cx }

/-- One context's turn: what is due at the boundary lands; else the instruction at the PC is fetched, decoded and executed. -/
def State.turn (s : State) (pid cx : Nat) : Out :=
  if s.mayIssue pid cx then
    match s.boundary pid cx with
    | some t => .next t
    | none =>
      let r := s.ready pid cx
      match s.fetch pid cx with
      | .waits => .next s
      | .fault e => exec (.fetchFault (BitVec.ofNat 12 e.eff) e.arg e.addr) r
      | .bytes l =>
        match decode l with
        | some (i, _) => exec i (r.fillFetch pid cx)
        | none => exec (.unassignedEncoding (BitVec.ofNat 32 (natOf l))) r
  else .next s

/-- Whether a step of the table is an event of its own: it has no encoding, and it is no failed fetch. -/
def isEvent (i : Instr) : Bool :=
  (encode i).isEmpty && (match i with
    | .unassignedEncoding _ => false
    | .fetchFault _ _ _ => false
    | _ => true)

/-- One move; an agenda entry that is no event changes nothing. -/
def State.perform (s : State) : Move → Out
  | .issue pid cx => s.turn pid cx
  | .event i => if isEvent i then exec i s else .next s

/-! ## A given instruction at the next fetch (log 7) -/

/-- Four levels of tables that map the page at 2^40 to physical 0x50000, readable, writable and executable at both levels
(10 R273, R274), and the code there. -/
def codeCells (w : Nat) : List (Nat × List Byte) :=
  [(0x10008, bytesOf 8 (2 * 2 ^ 32 + 1)), (0x20000, bytesOf 8 (3 * 2 ^ 32 + 1)), (0x30000, bytesOf 8 (4 * 2 ^ 32 + 1)),
   (0x40000, bytesOf 8 (5 * 2 ^ 32 + 59)), (0x50000, bytesOf 4 w)]

/-- The context that fetches it: runnable, under those tables, with nothing due before the instruction. -/
def Ctx.atCode (c : Ctx) : Ctx :=
  { c with run := .runnable, pc := W (2 ^ 40), space := { c.space with ptroot := 0x10000 }, pend := [], held := [], resumed := none
           preemptAt := none, migp := none }

/-- A context that would be due to issue waits once more, and goes on by itself. -/
def Ctx.setBack (c : Ctx) : Ctx := if c.run == .runnable then { c with run := .parked .drain } else c

/-- The state in which the next step fetches the word w in context 0 of core 0: neither SH nor another low context is due there. -/
def State.placeCode (s : State) (w : Nat) : State :=
  let t := (codeCells w).foldl (fun s e => s.wr e.1 e.2) s
  let a := [1, 2, 3].foldl (fun s cx => if (s.ctxAt 0 cx).run == .runnable then s.modCtxAt 0 cx Ctx.setBack else s) t
  let u := (a.modCtxAt 0 0 Ctx.atCode).modCtxAt 0 4 (fun c => { c with run := .free })
  let v := (u.modCoreAt 0 (fun k => { k with cur := 0, rq := setBit k.rq 0 false, tlb := [], pending := k.pending.filter (fun m => !k.selectable true m) })).modDieAt 0 (fun d => { d with tlb := [] })
  { v with
    agenda := .issue 0 0 :: s.agenda, ue := v.ue.filter (fun l => 0x60000 ≤ l)
    sys := { v.sys with ready0 := v.sys.ready0 ||| 0xC00, failed := v.sys.failed / 4 * 4 } }

/-! ## The moves that stand open -/

/-- The event that a packet brings about at its target. -/
def Pkt.moves (p : Pkt) (i : Nat) : List Instr :=
  match p.body with
  | .msg _ => [.messageArrival i]
  | .mailbox _ _ => [.mailboxWriteArrival i]
  | .bar _ _ => [.barrierUpdate i]
  | .dec _ _ => [.decrementArrival i]
  | .rank _ _ => [.rankFlitArrival i]
  | .hold _ => []
  | .cpym _ _ => [.cpymHeaderArrival i]
  | .fwd _ _ _ => [.rotationForwardLanding i]

def Asked.moves (a : Asked) (i : Nat) : List Instr :=
  match a.ask with
  | .snap _ _ _ => [.snapshotRequest i]
  | .mapLid _ _ _ _ => [.mapChange i]
  | .subTag _ _ => [.subscriptionUpdate i]
  | .sysWr _ _ _ _ => [.syswrApply i]

/-- A list of events for each place of a list. -/
def byPlace {α : Type} (l : List α) (f : α → Nat → List Instr) : List Instr := l.zipIdx.flatMap (fun e => f e.1 e.2)

/-- Packets, accesses, results and requests in flight. -/
def Net.moves (n : Net) : List Instr :=
  let pieces := n.reqs.flatMap (fun r => r.pieces)
  byPlace n.results (fun _ i => [.registerResultArrival i]) ++ byPlace pieces (fun _ i => [.remoteAccess i, .replicatedWrite i])
  ++ byPlace n.pkts (fun p i => p.moves i) ++ byPlace n.asks (fun a i => a.moves i) ++ byPlace n.nacks (fun _ i => [.deadmsgResponse i])
  ++ byPlace n.joins (fun _ i => [.taskJoinDecrement i]) ++ byPlace n.lands (fun _ i => [.deterministicHoldRelease i])
  ++ n.dirty.map (fun l => .watchWake l)

def Commit.moves (c : Commit) (i : Nat) : List Instr :=
  [.commitPrepare i, .commitTimestamp i] ++ c.lines.map (fun x => .commitInstall i x.pa)

/-- The sequencer, the Groom and the replicas. -/
def Vers.moves (v : Vers) : List Instr :=
  byPlace v.commits (fun c i => c.moves i) ++ v.lines.flatMap (fun e => e.2.olds.map (fun o => .groomReclaim e.1 o.1))
  ++ (v.reps.flatMap (fun r => r.todo)).map (fun d => .replicaApply d)
  ++ (if v.heldAt.isEmpty then [] else [.snapshotRevocation]) ++ (if v.next ≤ 0xFFFFFFFFFFFF then [] else [.timestampRenumbering])

def Copy.moves (c : Copy) (i : Nat) : List Instr :=
  byPlace c.items (fun item j => .copyItemCompletion i j :: byPlace item.segs (fun _ k => [.copySegmentRead i j k, .copySegmentDelivery i j k true]))
  ++ c.drains.map (fun n => .drainHoldRelease c.pid (BitVec.ofNat 5 n))

def Launch.moves (l : Launch) (i : Nat) : List Instr :=
  if l.phase = 0 then [.launchCheck i]
  else if l.phase = 1 then .launchEnd l.id :: l.todo.map (fun p => .launchCoreStart l.id p)
  else []

/-- One core's engines, NI and scheduling. -/
def Core.moves (k : Core) (pid : Nat) : List Instr :=
  byPlace k.pops (fun _ i => [.queuePop pid i]) ++ byPlace k.takes (fun _ i => [.mtakeService pid i])
  ++ byPlace k.pending (fun _ i => [.boundQueuePush pid i]) ++ k.mbStore.map (fun e => .mailboxStoreLanding pid (BitVec.ofNat 5 e.1))
  ++ k.ptasks.map (fun e => .pendingRecordRelease pid e.1) ++ byPlace k.unit.mat.out (fun e _ => [.forwardHoldRelease pid e.1])
  ++ k.unit.rank.strms.flatMap (fun e => [.rankEntryProcessing pid (BitVec.ofNat 2 e.1), .rankResultPush pid (BitVec.ofNat 2 e.1)])
  ++ [.priority1Entry pid, .messageSelection pid, .contextFill pid, .contextSpill pid, .matrixUnitExecute pid, .matrixStatusPush pid,
      .rankUnitExecute pid, .watchdog pid]

/-- One context: waits, deferred effects, PREEMPT, MIGRATE, its copy commands. -/
def Ctx.moves (c : Ctx) (pid cx : Nat) : List Instr :=
  match c.run with
  | .free => []
  | _ => [.contextWake pid cx, .idleExpiry pid cx, .fairnessBoundary pid cx, .hmaskTimeout pid cx, .copyEngineAccept pid cx, .preempt pid cx,
      .preemptForced pid cx, .heldSystemEffect pid cx, .numericDeferred pid cx, .memerrDeferred pid cx, .deadmsg pid cx, .copyfail pid cx,
      .copyfault pid cx, .peerStorePerm pid cx, .migrateWithdrawal pid cx, .migrate pid cx, .migrationMove pid cx]

def Die.moves (d : Die) (die : Nat) : List Instr :=
  .paddockDispatch die :: d.paddock.flatMap (fun q => [.paddockAging die (BitVec.ofNat 2 q.1), .classWaitExpiry die (BitVec.ofNat 2 q.1)])

/-- The Farrier's and the clusters' own steps. -/
def Sys.moves (y : Sys) : List Instr :=
  [.leadDieChoice, .budgetUpdate, .capFallback, .launchQueueService] ++ (if y.fmrun.isSome then [.mailboxCompletion] else [])
  ++ y.clusters.map (fun e => .clusterEstimate (e.1 / 16) (e.1 % 16))

/-- Every event that the state itself may bring about. What comes from outside the package stands in the agenda. -/
def State.events (s : State) : List Instr :=
  s.net.moves ++ s.vers.moves ++ byPlace s.copies (fun c i => c.moves i) ++ byPlace s.launches (fun l i => l.moves i)
  ++ s.cores.flatMap (fun e => e.2.moves e.1) ++ s.ctxs.flatMap (fun e => e.2.moves (e.1 / 8) (e.1 % 8))
  ++ s.dies.flatMap (fun e => e.2.moves e.1) ++ s.sys.moves
  ++ s.saved.flatMap (fun v => match v.slot with
    | some n => [.spillRestore v.pid n]
    | none => [])

/-- The contexts that may issue. -/
def State.issues (s : State) : List Move :=
  s.ctxs.flatMap (fun e => if s.mayIssue (e.1 / 8) (e.1 % 8) then [.issue (e.1 / 8) (e.1 % 8)] else [])

/-- The move of a step whose agenda is empty: one of those that stand open, by a free choice. -/
def State.open_ (s : State) : List Move := s.issues ++ s.events.map Move.event

def State.chosen (s : State) : Option Move :=
  let l := s.open_
  l[Config.choice s.stepNo % l.length]?

/-- The move of the next step: the agenda's first, or the chosen one. -/
def State.nextMove (s : State) : Option Move :=
  match s.agenda with
  | m :: _ => some m
  | [] => s.chosen

/-! ## Activity (22 R418) -/

/-- Whether a word is one of the vector majors 0x24 to 0x2A (04 Table 4.7). -/
def vectorWord (w : Nat) : Bool := bitOf w 1 && decide (0x24 ≤ bitsOf w 7 2 ∧ bitsOf w 7 2 ≤ 0x2A)

/-- The core whose matrix unit, rank unit, NI, banks or copy engine an event sets to work. -/
def State.worker (s : State) (i : Instr) : Option Nat :=
  match i with
  | .matrixUnitExecute p => some p
  | .rankUnitExecute p => some p
  | .rankEntryProcessing p _ => some p
  | .rankResultPush p _ => some p
  | .matrixStatusPush p => some p
  | .forwardHoldRelease p _ => some p
  | .messageArrival j => s.net.pkts[j]?.map (fun p => p.dst)
  | .mailboxWriteArrival j => s.net.pkts[j]?.map (fun p => p.dst)
  | .barrierUpdate j => s.net.pkts[j]?.map (fun p => p.dst)
  | .decrementArrival j => s.net.pkts[j]?.map (fun p => p.dst)
  | .rankFlitArrival j => s.net.pkts[j]?.map (fun p => p.dst)
  | .cpymHeaderArrival j => s.net.pkts[j]?.map (fun p => p.dst)
  | .rotationForwardLanding j => s.net.pkts[j]?.map (fun p => p.dst)
  | .remoteAccess j => ((s.net.reqs.flatMap (fun r => r.pieces))[j]?).bind (fun p => match p.home with
    | .spad q _ => some q
    | _ => none)
  | .copySegmentRead j _ _ => s.copies[j]?.map (fun c => c.pid)
  | .copySegmentDelivery j _ _ _ => s.copies[j]?.map (fun c => c.pid)
  | _ => none

/-- The counters other than those of issues grow by what a step makes the units of a core do: free amounts (log 9). -/
def State.work (s : State) (pid : Nat) : State :=
  (List.range 20).foldl (fun t i => t.count pid (i + 2) (Config.activity s.stepNo (i + 2))) s

/-- The activity counters after a move: an issue counts when its instruction is first tried. -/
def State.counted (s : State) (m : Move) : State :=
  match m with
  | .issue pid cx =>
    if s.mayIssue pid cx && (s.ctxAt pid cx).run == .runnable && (s.boundary pid cx).isNone then
      match s.nextWord pid cx with
      | some w => (s.count pid (if vectorWord w then 1 else 0) 1).work pid
      | none => s
    else s
  | .event i => match s.worker i with
    | some pid => s.work pid
    | none => s

/-- Time passes (log 4), and the clusters count the activity of the move that is made. -/
def State.tick (s : State) : State :=
  let t := { s with time := s.time + Config.stepTicks s.stepNo, stepNo := s.stepNo + 1 }
  match s.nextMove with
  | some m => t.counted m
  | none => t

end

end Sys2Proof.Machine
end

