-- ==== Sys2Proof/Machine/Step.lean ====
section
/-! DEFINITION. One step of the machine: the agenda's first move, or, with an empty agenda, one of the moves that stand open
(log 3). Then the state in which the next step fetches a given instruction (log 7). -/

namespace Sys2Proof.Machine

noncomputable section

/-- One step. Time passes with every step (log 4). -/
def step (s : State) : Host.Outcome State Fault Refusal :=
  match s.agenda with
  | m :: rest => { s.tick with agenda := rest }.perform m
  | [] =>
    match s.chosen with
    | some m => s.tick.perform m
    | none => .next s.tick

/-- The state s, with an instruction where the next step fetches one (log 7): a page of code at virtual address 2^40, mapped by
tables in device memory, the stacks that hold them ready, context 0 of core 0 runnable with its PC there, and
its issue first in the agenda. Nothing else that the fetch does not need is changed. -/
def State.withFetchWord (s : State) (nbits w : Nat) : State := s.placeCode (w % 2 ^ nbits)

end

end Sys2Proof.Machine
end

