-- ==== Sys2Proof/Safety.lean ====
section
/-! DEFINITION. The words that claims are stated in: the state in which an instruction's own effect starts, the state after an
instruction that completes, what a step leaves alone, and the invariant of memory. -/

namespace Sys2Proof.Machine

/-- The memory keeps its canonical form. -/
def State.memOk (s : State) : Prop := Memory.wf s.mem = true

/-- Every register of the executing context is present, and no error waits at one (01 R12, R13; 05 R121). -/
def State.Clean (s : State) : Prop := s.ctx.regs.allPresent = true ∧ s.ctx.poison = []

/-- The state in which the effect of an instruction of `len` bytes starts: the PC is at the next instruction (05 R108). -/
def State.issued (s : State) (len : Nat) : State := s.modCtx (fun c => { c with pc := c.pc + W len, run := .runnable })

/-- The state after an instruction of `len` bytes that does `f` to its context and nothing else; with S = 1 the core then moves on
(08 R205). -/
def State.after (s : State) (sp : Bool) (len : Nat) (f : Ctx → Ctx) : State := ((s.issued len).modCtx f).switch sp

/-- The context takes the effect r, raised by the instruction at its PC, which changed nothing else (01 R30). -/
def State.raised (s : State) (r : Raise) : State := (s.noteError r.eff r.addr).fault s.pid s.cx r

/-- The context takes the effect r, raised by the instruction at its PC; while the frames and the record of its delivery must wait for
accesses of the context, it waits at the instruction (06 R166, 11 R291). A system effect never waits. -/
def State.takes (s : State) (sp : Bool) (r : Raise) : State := if s.deliveryHeld s.pid s.cx r then s.block .drain sp else s.raised r

/-- Everything of a state that an instruction without a request, a message or a store leaves alone: every byte of memory, every other
context, the cores' registers but the choice of the issuing context, and everything in flight. -/
structure SameElsewhere (s t : State) : Prop where
  mem : ∀ a, Memory.rd t.mem a = Memory.rd s.mem a
  others : ∀ q y, ctxKey q y ≠ ctxKey s.pid s.cx → t.ctxAt q y = s.ctxAt q y
  cores : ∀ q, { t.coreAt q with cur := 0 } = { s.coreAt q with cur := 0 }
  net : t.net = s.net
  vers : t.vers = s.vers
  dies : t.dies = s.dies
  sys : t.sys = s.sys
  launches : t.launches = s.launches
  copies : t.copies = s.copies

/-- What an instruction leaves alone in its own context whose one result goes to general register d: every other register, the flags,
every special register, the return-address stack, the bit buffer and the saved registers of effects. -/
structure OnlyG (c e : Ctx) (d : Reg) : Prop where
  g : ∀ r, r ≠ d → e.g r = c.g r
  rest : { e with regs := c.regs, pc := c.pc, run := c.run } = c
  v : e.regs.v = c.regs.v
  p : e.regs.p = c.regs.p
  present : e.regs.allPresent = c.regs.allPresent

/-- The state after an instruction that writes x to Gd and does nothing else. -/
def State.afterG (s : State) (sp : Bool) (len : Nat) (d : Reg) (x : Word) : State := s.after sp len (fun c => c.setG d x)

/-- No acquire of the executing context is outstanding: no acquiring request, no MTAKE or MPEEK reservation, no pop, and no LDVW whose
version has not become stable (11 R296, R302, R307; 15 R337). -/
abbrev State.noAcquire (s : State) : Prop := s.acquiring s.pid s.ctx.act = false

/-- n bytes from ea are ones that the executing context can access at once in its own scratchpad: aligned, in the local window
(01 Table 1.4), below every watermark (10 R267), with no request of its own in flight to them (11 R291), without an uncorrectable
error (10 R270), with no acquire outstanding (11 R302); as a stack access (`stk`) neither redirected nor in the wrong part of an
emergency area (01 R23, R24). -/
structure State.Local (s : State) (stk : Bool) (ea : Word) (n : Nat) : Prop where
  aligned : ea.toNat % n = 0
  inside : ea.toNat < 0x180000
  below : s.marked s.pid ea.toNat n = false
  alone : s.ownAlias (spadKey s.pid ea.toNat) n = false
  good : s.bad (spadKey s.pid ea.toNat) n = false
  gate : s.noAcquire
  stack : stk = true → s.ctx.space.sklo.toNat ≤ ea.toNat ∧ (s.ctx.stat.emrg = true → s.ctx.space.skhi.toNat - 512 ≤ ea.toNat)

/-- n bytes from ea, which no stack rule moves, lie at a home h that the context reaches by requests only: not its own scratchpad and not
its engine block; `l` is the leaf that translated them (01 R19, 10 R271). -/
structure State.Far (s : State) (acc : Acc) (stk : Bool) (ea : Word) (n : Nat) (h : Home) (l : Option Leaf) : Prop where
  at_ : s.locate s.pid s.ctx.space.ptroot s.ctx.stat.sup acc ea n true true = .ok (h, l)
  other : (∀ off, h ≠ .spad s.pid off) ∧ (∀ off, off < 0x10000 → h ≠ .regs off)
  gate : s.noAcquire
  stack : stk = true → s.ctx.space.sklo.toNat ≤ ea.toNat ∧ (s.ctx.stat.emrg = true → s.ctx.space.skhi.toNat - 512 ≤ ea.toNat)

/-- The state once a leaf has been used: the TLBs hold it (10 R275). -/
def State.translated (s : State) (ea : Word) (l : Option Leaf) : State :=
  match l with
  | none => s
  | some l => s.fillTlb s.pid s.ctx.space.ptroot ea.toNat l

/-- The state after a load of n bytes into Gd whose bytes another home serves: Gd awaits them, and the request is on its way. -/
def State.afterAsk (s : State) (sp : Bool) (len : Nat) (d : Reg) (ea : Word) (n : Nat) (sx acq : Bool) (h : Home) (l : Option Leaf) : State :=
  ((((s.issued len).translated ea l).modCtx (fun c => { c with regs := c.regs.setPresent false (.g d) })).post
    [⟨h, n⟩] (.load sx d) false acq s.ctx.pc ea).switch sp

/-- The state after a store of bytes that another home takes: the request is on its way. -/
def State.afterSend (s : State) (sp : Bool) (len : Nat) (ea : Word) (bytes : List Byte) (rel : Bool) (h : Home) (l : Option Leaf) : State :=
  (((s.issued len).translated ea l).post [⟨h, bytes.length⟩] (.store bytes) rel false s.ctx.pc ea).switch sp

/-- The state after a store of bytes at scratchpad offset `off` of the executing core. -/
def State.afterStore (s : State) (sp : Bool) (len off : Nat) (bytes : List Byte) : State :=
  ((s.issued len).wr (spadKey s.pid off) bytes).switch sp

/-- n bytes at scratchpad offset `off` of the executing core that it reads or writes at once: below every watermark, with no request of its
own in flight to them, without an uncorrectable error, and with no acquire outstanding (10 R267, R270; 11 R291, R302). -/
def State.spanFree (s : State) (off n : Nat) : Prop :=
  s.marked s.pid off n = false ∧ s.ownAlias (spadKey s.pid off) n = false ∧ s.bad (spadKey s.pid off) n = false ∧ s.noAcquire

/-- An access of the executing context to n bytes at ea, without a stack rule, finds them at home h through leaf l (01 R19, 10 R271). -/
def State.Placed (s : State) (acc : Acc) (ea : Word) (n : Nat) (h : Home) (l : Option Leaf) : Prop :=
  s.locate s.pid s.ctx.space.ptroot s.ctx.stat.sup acc ea n true true = .ok (h, l)

/-- The doubleword at ea, which a context can read at once to wait on it: at home h in a memory, with nothing that the read must wait for
(a watermark, a request of its own, a replica, a stack that is not ready) and without an uncorrectable error (05 R133). -/
structure State.Watchable (s : State) (ea : Word) (h : Home) (l : Option Leaf) : Prop where
  at_ : s.Placed .read ea 8 h l
  gate : s.noAcquire
  memory : h.outside = false ∧ h.isRegs = false
  free : s.readHeld s.pid s.ctx.act h 8 = false
  good : s.bad (h.readKey s.sys.lead s.pid) 8 = false

/-- The doubleword that a load through a home finds. -/
def State.wordAt (s : State) (h : Home) : Word := s.rdW (h.readKey s.sys.lead s.pid)

/-- The executing context parks on w: it waits at the instruction, and the core goes on to another context (01 R13, 08 R205). -/
def State.parks (s : State) (w : Wait) : State := (s.block w true).switch true

/-- The context waits, with the PC at its instruction, for an answer that another agent owes; `t` holds what the instruction did first
(01 R13). -/
def State.awaiting (s t : State) (sp : Bool) (w : Wait) : State :=
  ((t.modCtx (fun c => { c with pc := s.ctx.pc })).block w sp).switch sp

/-- A request to the lead die, the routers or another core is on its way. -/
def State.asked (s : State) (a : Ask) : State := s.modNet (fun n => { n with asks := n.asks ++ [⟨s.pid, s.cx, s.ctx.act, a⟩] })

/-- A packet of the executing context is on its way to the core that its logical id names now (09 R229, 08 R213). -/
def State.sent (s : State) (lid : Nat) (b : Body) : State :=
  s.modNet (fun n => { n with pkts := n.pkts ++ [⟨s.net.nextReq, s.pid, s.cx, s.ctx.act, (s.resolve s.ctx.ident.launch.toNat lid).1, b, false,
    some (s.ctx.ident.launch.toNat, lid)⟩] })

/-- The sending NI holds the packet, its logical id being parked (21 R413). -/
def State.kept (s : State) (lid : Nat) (b : Body) : State :=
  s.modNet (fun n => { n with held := n.held ++ [⟨s.ctx.ident.launch.toNat, lid,
    ⟨s.net.nextReq, s.pid, s.cx, s.ctx.act, (s.resolve s.ctx.ident.launch.toNat lid).1, b, false,
      some (s.ctx.ident.launch.toNat, lid)⟩⟩] })

/-- exec answers, for a form that sends body b to a logical id and then does `f`: the packet enters VN0, or, while the id is parked, the
sending NI holds it if it has fewer than 32, else the context waits (09 R229, 21 R413). -/
def State.Sends (s : State) (i : Instr) (sp : Bool) (lid : Nat) (b : Body) (f : State → State) : Prop :=
  ((s.resolve s.ctx.ident.launch.toNat lid).2 = false → exec i s = .next (f ((s.issued 4).sent lid b)))
  ∧ ((s.resolve s.ctx.ident.launch.toNat lid).2 = true →
      ((s.net.held.filter (fun h => h.pkt.src == s.pid)).length < 32 → exec i s = .next (f ((s.issued 4).kept lid b)))
      ∧ (32 ≤ (s.net.held.filter (fun h => h.pkt.src == s.pid)).length → exec i s = .next ((s.block .room sp).switch sp)))

/-- A condition of Bc and CMPI, over the integers (04 Table 4.4). -/
def Cond.meets : Cond → Word → Word → Prop
  | .eq, x, y => x = y
  | .ne, x, y => x ≠ y
  | .lt, x, y => x.toInt < y.toInt
  | .ge, x, y => y.toInt ≤ x.toInt
  | .ltu, x, y => x.toNat < y.toNat
  | .geu, x, y => y.toNat ≤ x.toNat

/-- A condition of Bz (04 Table 4.4). -/
def BzCond.meets : BzCond → Word → Prop
  | .eq, x => x = 0
  | .ne, x => x ≠ 0
  | .lt, x => x.toInt < 0
  | .ge, x => 0 ≤ x.toInt
  | .le, x => x.toInt ≤ 0
  | .gt, x => 0 < x.toInt

/-- What an entry leaves alone in its context: the other registers, the flags and numeric registers, the return-address stack, the bit
buffer, queues, identity, snapshot, stack and translation registers (06 R152, R155). -/
structure KeptByEntry (c e : Ctx) : Prop where
  g : ∀ i, i ≠ 0 → i ≠ 1 → i ≠ 2 → i ≠ 3 → i ≠ 4 → i ≠ 31 → e.g i = c.g i
  p : ∀ i, i ≠ 7 → e.regs.getP i = c.regs.getP i
  v : e.regs.v = c.regs.v
  num : e.num = c.num
  calls : e.ras = c.ras ∧ e.rdep = c.rdep
  bits : e.bb = c.bb
  queues : e.qs = c.qs
  ident : e.ident = c.ident ∧ e.epoch = c.epoch ∧ e.act = c.act
  tx : e.tx = c.tx
  space : e.space = c.space

/-- The registers at the entry to a handler (06 Table 6.5). -/
structure EntryRegisters (e : Ctx) (r : Raise) (token g4 pc : Word) (sup : Bool) : Prop where
  pc : e.pc = pc
  level : e.stat.sup = sup
  first : e.g 1 = token
  second : e.g 2 = W r.eff
  third : e.g 3 = r.arg
  fourth : e.g 4 = g4
  p7 : e.regs.getP 7 = r.lanes
  eff : e.eff = ⟨W r.eff, r.arg, g4, r.lanes⟩
  window : e.hmask = none
  run : e.run = .runnable

/-- A continuation record holds what a context held, to go on at pc (06 Table 6.3, 6.4). -/
structure Captures (k : CRec) (c : Ctx) (cx : Nat) (eff : Nat) (pc : Word) : Prop where
  live : k.state = 1
  pc : k.pc = pc
  regs : k.g = c.regs.g ∧ k.p = c.regs.p ∧ k.g31 = c.g 31
  flags : k.flags = c.num.flags
  frames : k.hf = c.hf ∧ k.hframe = c.hframe
  level : k.sup = c.stat.sup ∧ k.emrg = c.stat.emrg
  calls : k.ras = c.ras ∧ k.rdep = c.rdep
  bits : k.bb = c.bb
  who : k.ctx = cx ∧ k.epoch = c.epoch ∧ k.effid = eff

/-- The executing context of s has entered the core's system handler in t (06 R155): its system record holds the continuation, which is
to go on at pc; its token says kind 2; an effect of a stack access switches G31 to the emergency area (01 R24). -/
structure EnteredSystem (s t : State) (r : Raise) (pc : Word) : Prop where
  regs : EntryRegisters t.ctx r (W (t.ctx.sysRec.gen * 2 ^ 48 + 2 * 16)) r.addr s.core.shandler true
  record : Captures t.ctx.sysRec s.ctx s.cx r.eff pc
  generation : t.ctx.sysGen = s.ctx.sysGen + 1 ∧ t.ctx.sysRec.gen = t.ctx.sysGen.toNat
  busy : t.ctx.sysBusy = true ∧ t.ctx.hframe = 1 ∧ t.ctx.hf = s.ctx.hf
  stack : (r.stk = true → t.ctx.g 31 = s.ctx.space.skhi ∧ t.ctx.stat.emrg = true)
    ∧ (r.stk = false → t.ctx.g 31 = s.ctx.g 31 ∧ t.ctx.stat.emrg = s.ctx.stat.emrg)
  kept : KeptByEntry s.ctx t.ctx
  others : ∀ q y, ctxKey q y ≠ ctxKey s.pid s.cx → t.ctxAt q y = s.ctxAt q y
  mem : t.mem = s.mem
  rest : t.cores = s.cores ∧ t.net = s.net ∧ t.vers = s.vers ∧ t.launches = s.launches ∧ t.copies = s.copies

/-- The system handler can take an effect of the executing context (06 R155). -/
def State.SystemReady (s : State) : Prop := s.core.shandler ≠ 0 ∧ s.ctx.sysBusy = false

end Sys2Proof.Machine
end

