-- ==== Sys2Proof/Safety/Scalar.lean ====
section
/-! DEFINITION. The words of the claims about scalar instructions: tables of the rows of one shape (04, 05), the forms of loads and stores, branches, calls, waits, special registers and the bit buffer. -/

namespace Sys2Proof.Machine

/-- The rows of two general operands, with the value that each gives Gd (05 R110). -/
def binaryRows : List ((Bool → Reg → Reg → Reg → Instr) × (Word → Word → Word)) :=
  [(.add, fun x y => W (x.toNat + y.toNat)),
   (.sub, fun x y => BitVec.ofInt 64 (x.toInt - y.toInt)),
   (.mul, fun x y => W (x.toNat * y.toNat)),
   (.mulh, fun x y => BitVec.extractLsb' 64 64 (x.signExtend 128 * y.signExtend 128)),
   (.mulhu, fun x y => BitVec.extractLsb' 64 64 (x.setWidth 128 * y.setWidth 128)),
   (.and, fun x y => x &&& y),
   (.or, fun x y => x ||| y),
   (.xor, fun x y => x ^^^ y),
   (.andn, fun x y => x &&& ~~~y),
   (.orn, fun x y => x ||| ~~~y),
   (.shl, fun x y => x <<< fld y 5 0),
   (.shr, fun x y => x >>> fld y 5 0),
   (.sar, fun x y => x.sshiftRight (fld y 5 0)),
   (.rol, fun x y => x.rotateLeft (fld y 5 0)),
   (.ror, fun x y => x.rotateRight (fld y 5 0))] ++
  [(.min, fun x y => if x.toInt ≤ y.toInt then x else y),
   (.max, fun x y => if x.toInt ≤ y.toInt then y else x),
   (.minu, fun x y => if x.toNat ≤ y.toNat then x else y),
   (.maxu, fun x y => if x.toNat ≤ y.toNat then y else x),
   (.cmpeq, fun x y => if x = y then 1 else 0),
   (.cmpne, fun x y => if x = y then 0 else 1),
   (.cmplt, fun x y => if x.toInt < y.toInt then 1 else 0),
   (.cmpge, fun x y => if x.toInt < y.toInt then 0 else 1),
   (.cmpltu, fun x y => if x.toNat < y.toNat then 1 else 0),
   (.cmpgeu, fun x y => if x.toNat < y.toNat then 0 else 1)]

/-- The compact rows of two general operands: Gd and Ga, or a move (04 R92). -/
def compactRows : List ((Bool → Reg → Reg → Instr) × (Word → Word → Word)) :=
  [(.addCompact, fun x y => W (x.toNat + y.toNat)),
   (.subCompact, fun x y => BitVec.ofInt 64 (x.toInt - y.toInt)),
   (.andCompact, fun x y => x &&& y),
   (.orCompact, fun _ y => y),
   (.xorCompact, fun x y => x ^^^ y),
   (.mulCompact, fun x y => W (x.toNat * y.toNat))]

/-- The division rows, with the value each gives Gd on a divisor that is not zero (05 R111). -/
def divisionRows : List ((Bool → Reg → Reg → Reg → Instr) × (Word → Word → Word)) :=
  [(.div, fun x y => BitVec.ofInt 64 (x.toInt.tdiv y.toInt)),
   (.divu, fun x y => W (x.toNat / y.toNat)),
   (.rem, fun x y => BitVec.ofInt 64 (x.toInt - y.toInt * x.toInt.tdiv y.toInt)),
   (.remu, fun x y => W (x.toNat % y.toNat))]

/-- The rows of one general operand, with the value that each gives Gd (05 R112). -/
def unaryRows : List ((Bool → Reg → Reg → Instr) × (Word → Word)) :=
  [(.clz, fun x => W ((List.range 64).takeWhile (fun i => !flag x (63 - i))).length),
   (.ctz, fun x => W ((List.range 64).takeWhile (fun i => !flag x i)).length),
   (.popc, fun x => W ((List.range 64).filter (fun i => flag x i)).length),
   (.bswap, fun x => W (natOf (bytesOf 8 x.toNat).reverse)),
   (.sextb, fun x => (x.setWidth 8).signExtend 64),
   (.sexth, fun x => (x.setWidth 16).signExtend 64),
   (.sextw, fun x => (x.setWidth 32).signExtend 64),
   (.zextb, fun x => (x.setWidth 8).setWidth 64),
   (.zexth, fun x => (x.setWidth 16).setWidth 64),
   (.zextw, fun x => (x.setWidth 32).setWidth 64)]

/-- The rows of a general operand and a 14-bit immediate (05 R113). -/
def immediateRows : List ((Bool → Reg → Reg → BitVec 14 → Instr) × (Word → Word → Word)) :=
  [(.addi, fun x i => W (x.toNat + i.toNat)), (.andi, fun x i => x &&& i), (.ori, fun x i => x ||| i), (.xori, fun x i => x ^^^ i)]

/-- The rows of a general operand and an immediate count (05 R114). -/
def shiftRows : List ((Bool → Reg → Reg → BitVec 6 → Instr) × (Word → Nat → Word)) :=
  [(.shli, fun x n => x <<< n), (.shri, fun x n => x >>> n), (.sari, fun x n => x.sshiftRight n), (.rori, fun x n => x.rotateRight n)]

/-- The scalar loads with what each does: its effective address, the bytes, whether it sign-extends, and its length (05 R118, R119;
04 R92). -/
structure LoadForm where
  instr : Instr
  len : Nat
  dest : Reg
  base : Reg
  ea : Word
  size : Nat
  signed : Bool

def loadForms (s : State) (sp : Bool) (z : Size) (x : Bool) (d a b : Reg) (i : BitVec 11) (u : BitVec 5) : List LoadForm :=
  [⟨.ld sp z x d a i, 4, d, a, s.ctx.g a + BitVec.ofInt 64 (i.toInt * z.bytes), z.bytes, !x⟩,
   ⟨.ldx sp z x d a b, 4, d, a, s.ctx.g a + s.ctx.g b, z.bytes, !x⟩,
   ⟨.ldCompact sp d a, 2, d, a, s.ctx.g a, 8, true⟩,
   ⟨.ldStackCompact sp d u, 2, d, 31, s.ctx.g 31 + W (8 * u.toNat), 8, true⟩]

/-- The scalar stores, with the register stored. -/
def storeForms (s : State) (sp : Bool) (z : Size) (d a b : Reg) (i : BitVec 11) (u : BitVec 5) : List LoadForm :=
  [⟨.st sp z d a i, 4, d, a, s.ctx.g a + BitVec.ofInt 64 (i.toInt * z.bytes), z.bytes, false⟩,
   ⟨.stx sp z d a b, 4, d, a, s.ctx.g a + s.ctx.g b, z.bytes, false⟩,
   ⟨.stCompact sp d a, 2, d, a, s.ctx.g a, 8, false⟩,
   ⟨.stStackCompact sp d u, 2, d, 31, s.ctx.g 31 + W (8 * u.toNat), 8, false⟩]

/-- The target of a branch with a signed halfword offset (04 R94). -/
def State.relative (s : State) {n : Nat} (o : BitVec n) : Word := s.ctx.pc + BitVec.ofInt 64 (2 * o.toInt)

/-- What a transfer to t makes of the context. -/
def Ctx.goto (c : Ctx) (t : Word) : Ctx := { c with pc := t }

/-- The calls: with an offset, through a general register, and through a mailbox that holds a value; each with its target (05 R125, R126). -/
def State.callForms (s : State) (sp : Bool) (a : Reg) (o : BitVec 24) : List (Instr × Word) :=
  [(.call sp o, s.ctx.pc + BitVec.ofInt 64 (2 * o.toInt)), (.callr sp false a, s.ctx.g a)]
  ++ (if s.core.mp.getLsbD a.toNat then [(.callr sp true a, s.core.m[a.toNat])] else [])

/-- The two encodings of RET, with their lengths. -/
def returnForms (sp : Bool) : List (Instr × Nat) := [(.ret sp, 4), (.retCompact sp, 2)]

/-- What the end of an activation of context (pid, cx) leaves of the context, and of everything else (01 R28): its registers keep what they
hold, the rest of it is as after reset; what other contexts and memory hold stays. -/
structure Ended (s t : State) (pid cx : Nat) : Prop where
  free : (t.ctxAt pid cx).run = .free
  frames : (t.ctxAt pid cx).hf = 0 ∧ (t.ctxAt pid cx).hframe = 0
  window : (t.ctxAt pid cx).hmask = none
  stack : (t.ctxAt pid cx).ras = [] ∧ (t.ctxAt pid cx).rdep = 0
  queues : (t.ctxAt pid cx).qs = [] ∧ (t.ctxAt pid cx).bb = BitBuf.reset
  snapshot : (t.ctxAt pid cx).tx = Tx.reset ∧ ∀ n ∈ t.vers.snaps, n.act ≠ (s.ctxAt pid cx).act
  regs : (t.ctxAt pid cx).regs = (s.ctxAt pid cx).regs
  others : ∀ q y, ctxKey q y ≠ ctxKey pid cx → t.ctxAt q y = s.ctxAt q y
  mem : ∀ a, Memory.rd t.mem a = Memory.rd s.mem a
  join : ∀ id j q k p, (s.ctxAt pid cx).started = .task id j q k p → ∃ root : Word,
    (∀ l, s.launch? id = some l → root = l.src.ptroot &&& 0xFFFFFFFFFFFF)
    ∧ t.net.joins = s.net.joins ++ [⟨pid, cx, (s.ctxAt pid cx).act, id, j, p, (s.ctxAt pid cx).stat.sup, root⟩]

/-- The special registers that MFS reads at any level, by number, with what each holds (01 Table 1.2). -/
def State.userRegisters (s : State) : List (Nat × Word) :=
  let c := s.ctx
  [(0x00, W s.pid), (0x01, c.ident.lid), (0x02, W (dieOf s.pid)), (0x03, W s.cx), (0x04, c.ident.task), (0x05, c.ident.launch),
   (0x08, c.ident.org[0]), (0x09, c.ident.org[1]), (0x0A, c.ident.org[2]), (0x0B, c.ident.org[3]),
   (0x0C, c.ident.ext[0]), (0x0D, c.ident.ext[1]), (0x0E, c.ident.ext[2]), (0x0F, c.ident.ext[3])]
  ++ [(0x10, c.ident.west), (0x11, c.ident.east), (0x12, c.ident.north), (0x13, c.ident.south), (0x14, c.ident.rectw), (0x15, c.ident.recth),
   (0x20, c.num.flags), (0x21, c.num.flagen), (0x22, c.num.vt), (0x23, c.num.seed), (0x24, W (s.time / Config.coreTicks s.pid)),
   (0x25, W (c.ras.length * 2 ^ 32 + c.rdep * 2 ^ 16 + b2n c.stat.emrg * 8 + b2n (c.masked s.time) * 4 + b2n c.stat.dscd * 2 + b2n c.stat.sup))]
  ++ [(0x30, c.hf), (0x31, c.eff.id), (0x32, c.eff.arg), (0x33, c.eff.addr), (0x34, c.eff.lanes),
   (0x40, c.bb.pos), (0x41, c.bb.lim), (0x42, c.bb.lo), (0x43, c.bb.hi), (0x60, c.tx.ts), (0x80, c.space.sklo), (0x81, c.space.skhi),
   (0x82, c.space.ovf)]

/-- The supervisor registers of Table 10.5, 21.2 and 22.1 (10 R272, 21 R404, 22 R419). -/
def State.supRegisters (s : State) : List (Nat × Word) :=
  [(0x100, s.ctx.space.ptroot), (0x101, W (s.core.rsn % 256 * 256 + s.core.rq.toNat)), (0x102, s.core.dlcnt), (0x103, s.core.deccnt),
   (0x106, 0)]

/-- The registers that MTS writes at any level, with what a value v makes of the context (01 Table 1.2, 05 R123, R137); reserved bits read 0 (00 R6). -/
def writeRows (v : Word) : List (Nat × (Ctx → Ctx)) :=
  [(0x20, fun c => { c with num := { c.num with flags := v &&& 0x7F } }),
   (0x21, fun c => { c with num := { c.num with flagen := v &&& 0x7F } }),
   (0x22, fun c => { c with num := { c.num with vt := v &&& 0xFFFFFFFF0F7F } }),
   (0x23, fun c => { c with num := { c.num with seed := v, srCount := 0 } }),
   (0x25, fun c => if flag v 1 then { c with stat := { c.stat with dscd := false } } else c),
   (0x40, fun c => { c with bb := { c.bb with bits := 0, bbn := 0, pos := v } }),
   (0x41, fun c => { c with bb := { c.bb with bits := 0, bbn := 0, lim := v } }),
   (0x42, fun c => { c with bb := { c.bb with bits := 0, bbn := 0, lo := v &&& 0x1FFFC1 } }),
   (0x43, fun c => { c with bb := { c.bb with bits := 0, bbn := 0, hi := v &&& 0x1FFFC0 } })]

/-- The carve-out registers, with the space that a value v gives (01 R22). -/
def spaceRows (p : Space) (v : Word) : List (Nat × Space) :=
  [(0x80, { p with sklo := v }), (0x81, { p with skhi := v }), (0x82, { p with ovf := v })]

/-- The constraints of the carve-out registers (01 R22). -/
def Space.valid (p : Space) : Prop :=
  p.sklo.toNat % 64 = 0 ∧ p.skhi.toNat % 64 = 0 ∧ p.sklo.toNat + 1024 ≤ p.skhi.toNat ∧ p.skhi.toNat ≤ 0x180000
  ∧ (p.ovf = 0 ∨ (p.ovf.toNat % 64 = 0 ∧ 0x10000000000 ≤ p.ovf.toNat ∧ p.ovf.toNat < 2 ^ 52))

/-- One byte of the executing core's scratchpad is accessible to the context at once (10 R267, 11 R291, R302, 10 R270). -/
def State.byteFree (s : State) (off : Nat) : Prop := s.spanFree off 1

/-- The ring is valid (05 R138). -/
def BitBuf.ringOk (b : BitBuf) : Prop := fld b.lo 20 6 < fld b.hi 20 6 ∧ fld b.hi 20 6 * 64 ≤ 0x180000

/-- The address of the byte that holds stream bit j (05 R138). -/
def BitBuf.byteOf (b : BitBuf) (j : Nat) : Nat := fld b.lo 20 6 * 64 + j / 8 % ((fld b.hi 20 6 - fld b.lo 20 6) * 64)

/-- Stream bit j of the executing core's ring in memory (05 R138). -/
def State.ringBit (s : State) (b : BitBuf) (j : Nat) : Bool := (Memory.rd s.mem (spadKey s.pid (b.byteOf j))).getLsbD (j % 8)

/-- Stream bit j as a context sees it: from the buffer while it is there, else from the ring; a bit at END or past it reads 0 (05 R139). -/
def State.streamBit (s : State) (b : BitBuf) (j : Nat) : Bool :=
  decide (j < b.lim.toNat) && (if j < b.pos.toNat + b.bbn.toNat then b.bits.getLsbD (j - b.pos.toNat) else s.ringBit b j)

/-- The unsigned integer of n stream bits from j on, the first the least significant (05 R139). -/
def State.field (s : State) (b : BitBuf) : Nat → Nat → Nat
  | _, 0 => 0
  | j, n + 1 => (if s.streamBit b j then 1 else 0) + 2 * s.field b (j + 1) n

/-- Everything that a read of up to n bits from POS could touch is accessible: ring valid, in read mode, its bytes up to 128 bits on free,
and the buffer within the stream (05 R138, R139). -/
structure State.Readable (s : State) (b : BitBuf) : Prop where
  ring : b.ringOk
  mode : flag b.lo 0 = false
  bytes : ∀ j, b.pos.toNat ≤ j → j < b.pos.toNat + 128 → s.byteFree (b.byteOf j)
  small : b.bbn.toNat ≤ 128

/-- The ring with bytes written from the byte that holds stream bit j on (05 R144). -/
def State.ringStored (s : State) (b : BitBuf) : Nat → List Byte → State
  | _, [] => s
  | j, x :: l => (s.wr (spadKey s.pid (b.byteOf j)) [x]).ringStored b (j + 8) l

/-- The bits of the byte that POS lies in, in write mode: those of the buffer, or, when it is empty, those that the ring holds (05 R144). -/
def State.partialByte (s : State) (b : BitBuf) : Nat :=
  if b.bbn = 0 then (Memory.rd s.mem (spadKey s.pid (b.byteOf b.pos.toNat))).toNat % 2 ^ (b.pos.toNat % 8)
  else b.bits.toNat % 2 ^ (b.pos.toNat % 8)

end Sys2Proof.Machine
end

