-- ==== Sys2Proof/Safety/Effects.lean ====
section
/-! DEFINITION. The words of the claims about effects: what may be performed, the frame that HANDLE pushes, what entering a handler saves, what RESUME restores (06). -/

namespace Sys2Proof.Machine

/-- Parts of its own scratchpad, as (offset, bytes), that the executing context can read and write in place at once: below every
watermark, with no request of its own in flight to them, and without an uncorrectable error (06 R166, 05 R121). -/
def State.partsFree (s : State) (l : List (Nat × Nat)) : Prop :=
  ∀ e ∈ l, s.marked s.pid e.1 e.2 = false ∧ s.ownAlias (spadKey s.pid e.1) e.2 = false ∧ s.bad (spadKey s.pid e.1) e.2 = false

/-- The start of the record that a token names, where there can be one (06 R154). -/
def tokenParts (t : Word) : List (Nat × Nat) :=
  if fld t 5 4 < 2 ∧ fld t 3 0 = 0 ∧ fld t 47 6 * 64 < 0x180000 then [(fld t 47 6 * 64, 64)] else []

/-- The executing context of s has entered the handler of frame f in t (06 R152): HF and the handling frame are f, the record in its capture
area holds the continuation, to go on at pc, and the frame is BUSY. -/
structure EnteredFrame (s t : State) (f : Frame) (r : Raise) (g4 pc : Word) : Prop where
  regs : EntryRegisters t.ctx r (W (((s.recAt s.pid f.cap).gen + 1) % 2 ^ 16 * 2 ^ 48 + f.cap / 64 * 64 + b2n f.multi * 16)) g4 f.hpc f.sys
  frame : t.ctx.hf = W f.addr ∧ t.ctx.hframe = W f.addr
  record : ∃ k, Captures k s.ctx s.cx r.eff pc ∧ k.gen = ((s.recAt s.pid f.cap).gen + 1) % 2 ^ 16 ∧ k.frame = f.addr ∧ k.multi = f.multi
    ∧ t.mem = ((s.setRec s.pid f.cap k).setBusy s.pid f.addr true).mem
  stack : t.ctx.g 31 = s.ctx.g 31 ∧ t.ctx.stat.emrg = s.ctx.stat.emrg
  system : t.ctx.sysBusy = s.ctx.sysBusy ∧ t.ctx.sysRec = s.ctx.sysRec
  kept : KeptByEntry s.ctx t.ctx
  others : ∀ q y, ctxKey q y ≠ ctxKey s.pid s.cx → t.ctxAt q y = s.ctxAt q y
  rest : t.cores = s.cores ∧ t.vers = s.vers ∧ t.launches = s.launches ∧ t.copies = s.copies

/-- An effect id that PERFORM may raise at the level of the context (06 R146, R148). -/
def State.raisable (s : State) (e : Nat) : Prop := 0x100 ≤ e ∨ (Eff.listed e = true ∧ s.ctx.stat.sup = true)

/-- A HANDLE descriptor that is not refused (06 R157, Table 6.8). -/
def goodDescriptor (z : Word) : Prop :=
  fld z 31 25 = 0 ∧ fld z 23 21 = 0 ∧ fld z 51 40 ≤ fld z 63 52 ∧ 12 ≤ fld z 39 32 ∧ fld z 20 0 % 64 = 0
  ∧ fld z 20 0 + fld z 39 32 * 64 ≤ 0x180000

/-- The state once a frame of address x has been written from HPC y, descriptor z and the context's G31, HF and level, and the record header
in its capture area reset with the next generation (06 R157, Table 6.2). -/
def State.framePushed (s : State) (x y z : Word) : State :=
  let t := s.wr (spadKey s.pid x.toNat) ([y, s.ctx.g 31, W (fld z 20 0 * 2 ^ 21 + fld s.ctx.hf 20 0),
    W (fld z 63 32 * 2 ^ 32 + b2n s.ctx.stat.sup * 2 ^ 26 + fld z 24 24 * 2 ^ 24)].flatMap (fun w => bytesOf 8 w.toNat))
  t.wr (spadKey s.pid (fld z 20 0)) (bytesOf 8
    ((bitsOf (natOf (Memory.rds t.mem (spadKey s.pid (fld z 20 0)) 8)) 63 48 + 1) % 2 ^ 16 * 2 ^ 48 + x.toNat))

/-- The executing context of t goes on with the continuation of record k, with value v in G1 (06 R161): `late` are the flags that reached the
context since the capture, `mask` what RESUME's predicate operand leaves of the lanes of a PERFORMV. -/
structure Continues (s t : State) (k : CRec) (v mask late : Word) : Prop where
  pc : t.ctx.pc = k.pc
  g1 : t.ctx.g 1 = v
  g31 : t.ctx.g 31 = k.g31
  g : ∀ i, i ≠ 0 → i ≠ 1 → i ≠ 31 → t.ctx.g i = k.g[i.toNat]
  p : k.vlane = false → t.ctx.regs.p = k.p
  lanes : k.vlane = true → k.pred ≠ 0 → t.ctx.regs.p = k.p.set k.pred.toNat (k.p[k.pred.toNat] &&& mask)
  v : t.ctx.regs.v = s.ctx.regs.v
  flags : t.ctx.num.flags = k.flags ||| late
  frames : t.ctx.hf = k.hf ∧ t.ctx.hframe = k.hframe
  level : t.ctx.stat.sup = k.sup ∧ t.ctx.stat.emrg = k.emrg
  calls : t.ctx.ras = k.ras ∧ t.ctx.rdep = k.rdep
  bits : t.ctx.bb = k.bb
  kept : t.ctx.qs = s.ctx.qs ∧ t.ctx.tx = s.ctx.tx ∧ t.ctx.space = s.ctx.space ∧ t.ctx.ident = s.ctx.ident
  others : ∀ q y, ctxKey q y ≠ ctxKey s.pid s.cx → t.ctxAt q y = s.ctxAt q y
  rest : t.vers = s.vers ∧ t.launches = s.launches ∧ t.copies = s.copies

end Sys2Proof.Machine
end

