-- ==== Sys2Proof/Safety/Messages.lean ====
section
/-! DEFINITION. The words of the claims about messages: legal descriptors and payloads, handler-table slots, tasks, barrier handles, and what a read of watched memory finds (08, 09). -/

namespace Sys2Proof.Machine

/-- The lengths and landing fields that R229 allows in a descriptor x. -/
def payloadOk (x : Word) : Prop :=
  if flag x 32 then fld x 11 0 % 64 = 0 ∧ 64 ≤ fld x 11 0 ∧ fld x 11 0 ≤ 4032
  else fld x 15 12 = 0 ∧ flag x 19 = false ∧ fld x 11 0 % 8 = 0 ∧ fld x 11 0 ≤ 64

/-- What R229 asks of the descriptor x, the payload address y and the landing address z of a SEND or MCAST. -/
structure MessageOk (s : State) (x y z : Word) (cast : Bool) : Prop where
  fields : fld x 18 16 = 0 ∧ fld x 15 12 ≠ 3 ∧ fld x 15 12 < 6
  target : if cast then fld x 47 40 = 0 ∧ fld x 39 34 = 0 ∧ flag x 33 = false else s.lidBad (fld x 31 20) = false
  payload : payloadOk x
  source : y.toNat % (if flag x 32 then 64 else 8) = 0
  inside : y.toNat + fld x 11 0 ≤ 0x180000
  landing : flag x 32 = true → z.toNat % 64 = 0

/-- The message of descriptor x and landing address z with its payload bytes (09 R229). -/
def State.messageOf (s : State) (x z : Word) (data : List Byte) (lid : Option Nat) : Msg where
  src := s.pid
  scx := s.cx
  sact := s.ctx.act
  saddr := s.ctx.pc
  desc := x
  chan := fld x 39 34
  gen := fld x 47 40
  lid := lid
  launch := s.ctx.ident.launch.toNat
  land := if flag x 32 then some (fld x 15 12, z.toNat, data) else none
  payload := if flag x 32 then [] else bytesWords 8 data
  sib := s.sibOf s.ctx
  cast := lid.isNone

/-- What R237 asks of the channel x, the routine y and slot word z of an HCFG. -/
def slotWordOk (z : Word) : Prop := fld z 55 48 = 0 ∧ fld z 15 12 = 0 ∧ fld z 7 4 = 0 ∧ (fld z 11 8 = 0 ∨ 12 ≤ fld z 11 8)

/-- Whether an HCFG of routine y and slot word z advances the generation of slot h (08 R197). -/
def HSlot.advances (h : HSlot) (y z : Word) : Prop :=
  h.rpc ≠ y ∨ h.prio ≠ flag z 1 ∨ h.privl ≠ flag z 3 ∨ (h.valid = true ∧ flag z 0 = false)

/-- The words of a task record that SPAWN takes, beyond its operand checks (09 R238). -/
def taskOk (w : List Word) : Prop :=
  fld (w.getD 4 0) 63 48 = 0 ∧ fld (w.getD 5 0) 31 13 = 0 ∧ fld (w.getD 5 0) 7 5 = 0 ∧ fld (w.getD 6 0) 63 32 = 0 ∧ w.getD 7 0 = 0
  ∧ flag (w.getD 0 0) 0 = false

/-- The task of record w with its path and id, entering a queue now (08 Table 8.5). -/
def State.taskOf (s : State) (w : List Word) (launch id path : Nat) (det : Bool) : Task where
  pc := w.getD 0 0
  arg0 := w.getD 1 0
  arg1 := w.getD 2 0
  join := w.getD 3 0
  path := path
  home := fld (w.getD 5 0) 63 32
  deps := flag (w.getD 5 0) 12
  fmt := fld (w.getD 5 0) 11 8
  splitk := flag (w.getD 5 0) 4
  cls := if det then 0 else fld (w.getD 5 0) 3 2
  qpri := fld (w.getD 5 0) 1 0
  cnt := fld (w.getD 6 0) 31 0
  launch := launch
  id := id
  since := s.time
  headAt := none

/-- A SPAWN or FORK arm at the bottom of a deque, whose spill area holds the tasks past the first 64 (08 R209, R216). -/
def State.pushed (s : State) (core : Nat) (t : Task) : State := s.setDeque core (t :: (s.coreAt core).deque)

/-- The die has given one task id more. -/
def State.numbered (s : State) (die : Nat) : State := s.modDieAt die (fun d => { d with nextTask := d.nextTask + 1 })

/-- The state after a SPAWN whose record is placed in t: the activation counts one more SPAWN, and Gd holds v. -/
def State.spawned (t : State) (sp : Bool) (d : Reg) (v : Word) : State :=
  ((t.modCtx (fun c => { c with spawns := c.spawns + 1 })).modCtx (fun c => c.setG d v)).switch sp

/-- A SPAWN of the record at x, with words w, of a context of launch l, passes its checks and waits for no access (09 R238). -/
structure SpawnOk (s : State) (x : Word) (w : List Word) (l : Launch) : Prop where
  aligned : x.toNat % 64 = 0
  inside : x.toNat + 64 ≤ 0x180000
  free : s.spanFree x.toNat 64
  words : w = bytesWords 8 (s.rd (spadKey s.pid x.toNat) 64)
  good : taskOk w
  home : s.lidBad (fld (w.getD 5 0) 63 32) = false
  join : (w.getD 3 0).toNat % 8 = 0
  launch : s.launchOf s.pid s.cx = some l
  drained : s.ownReqs s.ctx.act = false

/-- A doubleword that the executing context changes at issue at its home h: placed for an atomic access, with no acquire outstanding and
nothing to wait for, its port up, without an uncorrectable error, and free to be written now (09 R241). -/
structure State.Changes (s : State) (ea : Word) (h : Home) (l : Option Leaf) : Prop where
  at_ : s.Placed .rmw ea 8 h l
  gate : s.noAcquire
  free : s.readHeld s.pid s.ctx.act h 8 = false
  port : s.homeDown h = false
  good : s.homeBad h 8 = false
  room : s.canPut h 8 .other = true

/-- The doubleword at home h has gone up by one, by a write of the executing context (09 R241). -/
def State.joinCounted (s : State) (ea : Word) (h : Home) (l : Option Leaf) : State :=
  ((s.issued 4).translated ea l).writeOwn h (bytesOf 8 (natOf (s.homeBytes h 8) + 1))

/-- An operation on n bytes at home h, with release order or without, waits for nothing at issue: where the bytes lie in the own
scratchpad it is performed then, once a release finds the context's earlier accesses performed, and below every watermark (11 R294). -/
def State.rmwFree (s : State) (h : Home) (n : Nat) (rel : Bool) : Prop :=
  h.own s.pid = true → (rel = true → s.ownReqs s.ctx.act = false) ∧ ∀ off, h = .spad s.pid off → s.marked s.pid off n = false

/-- The state once the executing context of t has sent an operation to its home: in the own scratchpad it is performed at once, in program
order (11 R294), elsewhere it is on its way (10 R254). -/
def State.rmwSent (t : State) (h : Home) (n : Nat) (op : MemOp) (rel acq : Bool) (here ea : Word) : State :=
  let u := t.post [⟨h, n⟩] op rel acq here ea
  if h.own t.pid then u.performLocal t.pid t.net.nextReq 1 else u

/-- The arm that a FORK pushes (09 R241). -/
def State.armOf (s : State) (pc x y j : Word) (l : Launch) (core : Nat) : Task where
  pc := pc
  arg0 := x
  arg1 := y
  join := j
  path := (2 * s.ctx.path + 1) % 2 ^ 48
  home := 0
  deps := false
  fmt := 0
  splitk := false
  cls := (s.ctx.queueOf (some l)).2
  qpri := (s.ctx.queueOf (some l)).1
  cnt := 0
  launch := l.id
  id := if l.det then (2 * s.ctx.path + 1) % 2 ^ 48 else dieOf core * 2 ^ 40 + (s.dieAt (dieOf core)).nextTask
  since := s.time
  headAt := none

/-- The state after a FORK whose arm goes to a core's deque, its join counter counted in t (09 R241). -/
def State.forked (t : State) (sp : Bool) (d : Reg) (l : Launch) (core : Nat) (arm : Task) : State :=
  let u := if l.det then t else t.modDieAt (dieOf core) (fun k => { k with nextTask := k.nextTask + 1 })
  (((u.setDeque core (arm :: (u.coreAt core).deque)).modCtx (fun c => { c with
    path := 2 * c.path % 2 ^ 48, ident := if l.det then { c.ident with task := W (2 * c.path) } else c.ident })).modCtx
      (fun c => c.setG d 1)).switch sp

/-- The core whose deque takes the arm of a FORK (08 R220). -/
def State.forkCore (s : State) (l : Launch) : Nat := if l.det then l.coreOf (l.placed (2 * s.ctx.path + 1)) else s.pid

/-- A FORK is refused: the deque and its spill area are full, or R220 gives the arm no path. -/
def State.forkRefused (s : State) (l : Launch) : Prop :=
  64 + l.dqsp ≤ (s.coreAt (s.forkCore l)).deque.length ∨ (l.det = true ∧ (2 ^ 48 ≤ 2 * s.ctx.path + 1 ∨ s.ctx.byMessage = true))

/-- A context that reads doublewords from ea up, one after the other, finds them at homes hs in memories, and is in t after the last; no
read has anything to wait for, and none lies in an uncorrectable line. -/
def State.Reads : State → Word → List (Home × Option Leaf) → State → Prop
  | s, _, [], t => t = s
  | s, ea, (h, l) :: r, t =>
    s.Placed .read ea 8 h l ∧ (h.outside = false ∧ h.isRegs = false) ∧ s.readHeld s.pid s.ctx.act h 8 = false
    ∧ s.bad (h.readKey s.sys.lead s.pid) 8 = false ∧ (s.translated ea l).Reads (ea + 8) r t

/-- A barrier handle without a reserved bit, whose LID the launch has (09 R244). -/
def State.handleOk (s : State) (x : Word) : Prop := fld x 63 44 = 0 ∧ fld x 31 5 = 0 ∧ s.lidBad (fld x 43 32) = false

end Sys2Proof.Machine
end

