-- ==== Sys2Proof/Safety/Memory.lean ====
section
/-! DEFINITION. The words of the claims about atomics, ordered accesses, tiles, versions and transactions (10, 11, 12). -/

namespace Sys2Proof.Machine

/-- The AMO instructions, with the operation of Table 12.1 that each asks of the home and the bytes it works on. -/
def amoRows (sp : Bool) (k : Scope) (r : Order) (d a b : Reg) : List (Instr × Nat × Nat) :=
  [(.amoAdd sp k r d a b, 0, 8), (.amoAnd sp k r d a b, 1, 8), (.amoOr sp k r d a b, 2, 8), (.amoXor sp k r d a b, 3, 8),
   (.amoMin sp k r d a b, 4, 8), (.amoMax sp k r d a b, 5, 8), (.amoMinu sp k r d a b, 6, 8), (.amoMaxu sp k r d a b, 7, 8),
   (.amoSwap sp k r d a b, 8, 8), (.amoFadd32 sp k r d a b, 9, 4), (.amoFadd64 sp k r d a b, 10, 8)]

/-- Whether an order releases, or acquires (12 Table 12.3). -/
def orderReleases (r : Order) : Bool := r == .rel || r == .ar || r == .sc
def orderAcquires (r : Order) : Bool := r == .acq || r == .ar || r == .sc

/-- The state after an operation with a long-latency result in Gd has been sent to its home (10 R254, 11 R298, R302). -/
def State.afterRmw (s : State) (sp : Bool) (d : Reg) (ea : Word) (n : Nat) (op : MemOp) (r : Order) (h : Home) (l : Option Leaf) : State :=
  ((((s.issued 4).translated ea l).modCtx (fun c => { c with regs := c.regs.setPresent false (.g d) })).rmwSent
    h n op (orderReleases r) (orderAcquires r) s.ctx.pc ea).switch sp

/-- The state after an LDA whose bytes another home serves: Gd awaits them, and later accesses of the context wait for it; only at SYS scope
does it pass over a read buffer (24 R434). -/
def State.afterLda (s : State) (sp : Bool) (d : Reg) (ea : Word) (n : Nat) (k : Scope) (h : Home) (l : Option Leaf) : State :=
  ((((s.issued 4).translated ea l).modCtx (fun c => { c with regs := c.regs.setPresent false (.g d) })).modNet (fun m => { m with
    nextReq := m.nextReq + 1
    reqs := m.reqs ++ [{ no := m.nextReq, pid := s.pid, cx := s.cx, act := s.ctx.act, pieces := [⟨h, n⟩], op := .load false d, rel := false
                         acq := true, fresh := k == .sys, iaddr := s.ctx.pc, ea := ea, sib := s.sibOf s.ctx }] })).switch sp

/-- A tile image that is valid (10 R259, R260) and holds EMPTY or READY (12 R316). -/
structure TileImage (w : List Word) : Prop where
  reserved : fld (w.getD 0 0) 31 21 = 0 ∧ fld (w.getD 1 0) 63 56 = 0 ∧ fld (w.getD 1 0) 23 17 = 0
  cols : 1 ≤ fld (w.getD 0 0) 63 48 ∧ fld (w.getD 0 0) 63 48 ≤ 4096
  rows : 1 ≤ fld (w.getD 0 0) 47 32 ∧ fld (w.getD 0 0) 47 32 ≤ 4096
  base : fld (w.getD 0 0) 20 0 % 64 = 0
  estride : 1 ≤ fld (w.getD 1 0) 31 24
  rstride : fld (w.getD 1 0) 16 0 % 64 = 0 ∧ 64 ≤ fld (w.getD 1 0) 16 0 ∧ fld (w.getD 1 0) 16 0 ≤ 65536
  row : (fld (w.getD 1 0) 39 32 + (fld (w.getD 0 0) 63 48 - 1) * fld (w.getD 1 0) 31 24 + 1) * fmtWidth (fld (w.getD 1 0) 43 40) ≤ fld (w.getD 1 0) 16 0 * 8
  inside : fld (w.getD 0 0) 20 0 + fld (w.getD 0 0) 47 32 * fld (w.getD 1 0) 16 0 ≤ 0x180000
  state : fld (w.getD 1 0) 55 54 = 0 ∨ fld (w.getD 1 0) 55 54 = 2

/-- The record that TDEF makes of an image (12 R316). -/
def tileOf (w : List Word) : Tile where
  cols := fld (w.getD 0 0) 63 48
  rows := fld (w.getD 0 0) 47 32
  base := fld (w.getD 0 0) 20 0
  state := fld (w.getD 1 0) 55 54
  scen := flag (w.getD 1 0) 53
  scale := fld (w.getD 1 0) 52 48
  zf := flag (w.getD 1 0) 47
  rnd := fld (w.getD 1 0) 46 44
  fmt := fld (w.getD 1 0) 43 40
  eoff := fld (w.getD 1 0) 39 32
  estride := fld (w.getD 1 0) 31 24
  rstride := fld (w.getD 1 0) 16 0
  dcnt := 0
  fch := 0
  failed := false

/-- An access of n bytes at ea finds a versioned line: at physical address pa, through leaf l (12 R322). -/
def State.Versioned (s : State) (acc : Acc) (ea : Word) (n pa : Nat) (l : Option Leaf) : Prop :=
  ea.toNat % n = 0 ∧ ea.toNat < 2 ^ 52 ∧ ∃ repl dm, s.Placed acc ea n (.dev pa true repl dm) l

/-- Entry i of the transaction log: its line, mask and bytes (12 Table 12.7). -/
def State.logEntry (s : State) (i : Nat) : Nat × Nat × List Byte :=
  let b := s.rd (spadKey s.pid (s.ctx.tx.lbase + 128 * i)) 128
  (natOf (b.take 8) / 64, natOf ((b.drop 8).take 8), b.drop 64)

/-- The first entry of the log for a line: its number, mask and bytes. -/
def State.logOf (s : State) (line : Nat) : Option (Nat × Nat × List Byte) :=
  ((List.range s.ctx.tx.logn).find? (fun i => (s.logEntry i).1 == line)).map (fun i => (i, (s.logEntry i).2))

/-- The log can be read at once. -/
def State.logFree (s : State) : Prop := ∀ i, i < s.ctx.tx.logn → s.spanFree (s.ctx.tx.lbase + 128 * i) 128

/-- The 64 bytes of a line as the open snapshot sees them: the bytes that the transaction has logged, the others of the version that the
snapshot selects (10 R282, 11 R305, 12 R325). -/
def State.seen (s : State) (line pa : Nat) : List Byte :=
  match s.logOf line with
  | some (_, m, data) => maskOver (s.versionAt (lineOf pa) s.ctx.tx.ts.toNat) data m
  | none => s.versionAt (lineOf pa) s.ctx.tx.ts.toNat

/-- Whether the transaction has logged all n bytes from off on of a line (12 R325). -/
def State.allLogged (s : State) (line off n : Nat) : Bool :=
  match s.logOf line with
  | some (_, m, _) => (List.range n).all (fun i => bitOf m (off + i))
  | none => false

/-- A snapshot is open and not lost. -/
def State.snapped (s : State) : Prop := s.ctx.tx.opened = true ∧ s.ctx.tx.rvk = false

/-- The state in which SNAPLOST is performed: the log emptied, the snapshot closed, the PC at the instruction that met the loss (12 R326). -/
def State.snapClosed (s : State) : State :=
  ((s.issued 4).modVers (fun v => { v with snaps := v.snaps.filter (fun n => n.act != s.ctx.act) })).modCtx (fun c => { c with
    pc := s.ctx.pc, tx := { c.tx with ts := 0, opened := false, logn := 0, lcap := 0 } })

/-- The SNAP descriptor x is legal (12 R323). -/
def snapOk (x : Word) : Prop :=
  fld x 63 41 = 0 ∧ fld x 31 21 = 0 ∧ fld x 20 0 % 128 = 0 ∧ 1 ≤ fld x 40 32 ∧ fld x 40 32 ≤ 256 ∧ fld x 20 0 + fld x 40 32 * 128 ≤ 0x180000

/-- The context's snapshot is released to the Groom, and its transaction is as after reset (12 R328). -/
def State.retired (s : State) : State :=
  (s.modVers (fun v => { v with snaps := v.snaps.filter (fun n => n.act != s.ctx.act) })).modCtx (fun c => { c with tx := Tx.reset })

/-- The log entries from i on can be read, and the lines they name are writable versioned lines at the physical addresses given, through the
leaves given; t is the state once all are translated (12 R327). -/
def State.LogPlaced : State → Nat → List (Nat × Option Leaf) → State → Prop
  | s, _, [], t => t = s
  | s, i, (pa, l) :: r, t =>
    s.spanFree (s.ctx.tx.lbase + 128 * i) 128 ∧ (∃ repl dm, s.Placed .write (W ((s.logEntry i).1 * 64)) 8 (.dev pa true repl dm) l)
    ∧ (s.translated (W ((s.logEntry i).1 * 64)) l).LogPlaced (i + 1) r t

/-- The lines that a COMMIT sends: virtual and physical address, mask and bytes of each log entry. -/
def State.logged (s : State) : Nat → List (Nat × Option Leaf) → List CLine
  | _, [] => []
  | i, (pa, _) :: r => ⟨(s.logEntry i).1 * 64, lineOf pa, (s.logEntry i).2.1, (s.logEntry i).2.2, false⟩ :: s.logged (i + 1) r

end Sys2Proof.Machine
end

