-- ==== Sys2Proof/Safety/Vector.lean ====
section
/-! DEFINITION. The words of the claims about vector instructions: element-wise operations over exact integers and numbers, conversions, moves, reduction trees, and the places that a vector access reaches (03, 07). -/

namespace Sys2Proof.Machine

/-- Element i, of width w, of a vector register (07 R170). -/
def velem (w : Nat) (v : VWord) (i : Nat) : Nat := v.toNat / 2 ^ (w * i) % 2 ^ w

/-- The rounding environment of the executing context (03 R72): the draw of a lane under `sr` is that of R72. -/
def State.env (s : State) (mode : Nat) (sat : Bool) : Rnd :=
  ⟨mode, sat, fun lane => if mode = 5 then srDraw s.ctx.num.seed.toNat s.cx s.ctx.num.srCount.toNat lane else 0⟩

/-- exec answers, for an instruction whose lanes raise the flags `fl` and whose register effect is f: with no flag enabled, the flags
join FLAGS and f is done, `tick` advancing the stochastic counter; with one, NUMERIC is performed and nothing is written (03 R79, R80). -/
def State.Delivers (s : State) (i : Instr) (sp tick : Bool) (fl : List (Nat × Nat)) (f : Ctx → Ctx) : Prop :=
  ∀ all, (∀ b, bitOf all b = true ↔ ∃ e ∈ fl, bitOf e.2 b = true) →
    ((∀ e ∈ fl, e.2 &&& fld s.ctx.num.flagen 6 0 = 0) → exec i s = .next (s.after sp 4 (fun c =>
      { f c with num := { c.num with flags := c.num.flags ||| W all, srCount := if tick then c.num.srCount + 1 else c.num.srCount } })))
    ∧ (∀ m, (∀ j, bitOf m j = true ↔ ∃ e ∈ fl, e.1 = j ∧ e.2 &&& fld s.ctx.num.flagen 6 0 ≠ 0) →
        (∃ e ∈ fl, e.2 &&& fld s.ctx.num.flagen 6 0 ≠ 0) →
        exec i s = .next (s.raised { eff := 0x00A, arg := W all, lanes := W m }))

/-- An element-wise instruction (07 R175): its form, the formats it accepts, whether it rounds under VT.RM, whether it has SAT, and the
result of a lane from the format, the rounding environment, the lane number, and the elements of Va, Vb and the old Vd. -/
structure LaneOp where
  form : Bool → Bool → PReg → Reg → Reg → Reg → Instr
  ok : Nat → Prop
  rounds : Bool
  sats : Bool
  elem : Nat → Rnd → Nat → Nat → Nat → Nat → Res

/-- The rows of 07 Table 7.3, over the exact integers (07 R176). -/
def intLanes : List LaneOp :=
  [ ⟨fun s t p d a b => .vadd s t p d a b, (· ≤ 6), false, true, fun f r _ x y _ => intRule f r.sat (intOf f x + intOf f y)⟩,
    ⟨fun s t p d a b => .vsub s t p d a b, (· ≤ 6), false, true, fun f r _ x y _ => intRule f r.sat (intOf f x - intOf f y)⟩,
    ⟨fun s t p d a b => .vmul s t p d a b, (· ≤ 6), false, true, fun f r _ x y _ => intRule f r.sat (intOf f x * intOf f y)⟩,
    ⟨fun s _ p d a b => .vmulh s p d a b, (· ≤ 6), false, false, fun f _ _ x y _ => ⟨intCode f (intOf f x * intOf f y / 2 ^ fmtWidth f), 0⟩⟩,
    ⟨fun s _ p d a b => .vmin s p d a b, (· ≤ 6), false, false, fun f r _ x y _ => intRule f r.sat (min (intOf f x) (intOf f y))⟩,
    ⟨fun s _ p d a b => .vmax s p d a b, (· ≤ 6), false, false, fun f r _ x y _ => intRule f r.sat (max (intOf f x) (intOf f y))⟩,
    ⟨fun s _ p d a b => .vand s p d a b, (· ≤ 6), false, false, fun _ _ _ x y _ => ⟨x &&& y, 0⟩⟩,
    ⟨fun s _ p d a b => .vor s p d a b, (· ≤ 6), false, false, fun _ _ _ x y _ => ⟨x ||| y, 0⟩⟩,
    ⟨fun s _ p d a b => .vxor s p d a b, (· ≤ 6), false, false, fun _ _ _ x y _ => ⟨x ^^^ y, 0⟩⟩,
    ⟨fun s _ p d a b => .vshl s p d a b, (· ≤ 6), false, false, fun f _ _ x y _ => ⟨if fmtWidth f ≤ y then 0 else x * 2 ^ y, 0⟩⟩,
    ⟨fun s _ p d a b => .vshr s p d a b, (· ≤ 6), false, false, fun f _ _ x y _ => ⟨if fmtWidth f ≤ y then 0 else x / 2 ^ y, 0⟩⟩,
    ⟨fun s _ p d a b => .vsar s p d a b, (· ≤ 6), false, false,
      fun f _ _ x y _ => ⟨wrapTo (fmtWidth f) (toSigned (fmtWidth f) x / 2 ^ min y (fmtWidth f - 1)), 0⟩⟩,
    ⟨fun s t p d a _ => .vabs s t p d a, (· ≤ 6), false, true, fun f r _ x _ _ => intRule f r.sat (intOf f x).natAbs⟩ ]

/-- The rows of 07 Table 7.5 that give an element, and VSCALE (07 R178 to R180, R182). -/
def floatLanes : List LaneOp :=
  [ ⟨fun s t p d a b => .vfadd s t p d a b, (12 ≤ ·), true, true, fun f r i x y _ => fAdd f r i (numOf f x) (numOf f y)⟩,
    ⟨fun s t p d a b => .vfsub s t p d a b, (12 ≤ ·), true, true, fun f r i x y _ => fAdd f r i (numOf f x) (numOf f y).negate⟩,
    ⟨fun s t p d a b => .vfmul s t p d a b, (12 ≤ ·), true, true, fun f r i x y _ => fMul f r i (numOf f x) (numOf f y)⟩,
    ⟨fun s t p d a b => .vfma s t p d a b, (12 ≤ ·), true, true, fun f r i x y z => fMa f r i (numOf f x) (numOf f y) (numOf f z)⟩,
    ⟨fun s t p d a b => .vfms s t p d a b, (12 ≤ ·), true, true, fun f r i x y z => fMa f r i (numOf f x) (numOf f y) (numOf f z).negate⟩,
    ⟨fun s t p d a b => .vfnma s t p d a b, (12 ≤ ·), true, true, fun f r i x y z => fMa f r i (numOf f x).negate (numOf f y) (numOf f z)⟩,
    ⟨fun s t p d a b => .vfdiv s t p d a b, (12 ≤ ·), true, true, fun f r i x y _ => fDiv f r i (numOf f x) (numOf f y)⟩,
    ⟨fun s t p d a _ => .vfsqrt s t p d a, (12 ≤ ·), true, true, fun f r i x _ _ => fSqrt f r i (numOf f x)⟩,
    ⟨fun s t p d a _ => .vfrcp s t p d a, (12 ≤ ·), true, true, fun f r i x _ _ => fDiv f r i (.fin (Exact.of false 1 0)) (numOf f x)⟩,
    ⟨fun s t p d a _ => .vfrsq s t p d a, (12 ≤ ·), true, true, fun f r i x _ _ => fRsq f r i (numOf f x)⟩,
    ⟨fun s _ p d a b => .vfmin s p d a b, (12 ≤ ·), false, false, fun f _ _ x y _ => fPick f false x y⟩,
    ⟨fun s _ p d a b => .vfmax s p d a b, (12 ≤ ·), false, false, fun f _ _ x y _ => fPick f true x y⟩,
    ⟨fun s _ p d a _ => .vfclass s p d a, (12 ≤ ·), false, false, fun f _ _ x _ _ => ⟨fClass f x, 0⟩⟩,
    ⟨fun s t p d a b => .vscale s t p d a b, (12 ≤ ·), true, true, fun f r i x y _ =>
      match numOf f x with
      | .fin v => roundNum f r.mode r.sat (r.rho i) (.fin (v.scale (max (-10000) (min 10000 (toSigned (fmtWidth f) y)))))
      | v => roundNum f r.mode r.sat (r.rho i) v⟩ ]

/-- The conditions of VCMP over the integers (07 Table 7.4). -/
def intHolds (cond : Nat) (x y : Int) : Prop :=
  (cond = 0 → x = y) ∧ (cond = 1 → x ≠ y) ∧ (cond = 2 → x < y) ∧ (cond = 3 → y ≤ x) ∧ (cond = 4 → x ≤ y) ∧ (cond = 5 → y < x)

/-- The conditions of VFCMP (07 Table 7.4): a NaN operand makes it unordered. -/
def numHolds (cond : Nat) (x y : Num) : Prop :=
  (cond = 0 → anyNan [x, y] = false ∧ ordNum x y = .eq) ∧ (cond = 1 → anyNan [x, y] = true ∨ ordNum x y ≠ .eq)
  ∧ (cond = 2 → anyNan [x, y] = false ∧ ordNum x y = .lt) ∧ (cond = 3 → anyNan [x, y] = false ∧ ordNum x y ≠ .lt)
  ∧ (cond = 4 → anyNan [x, y] = false ∧ ordNum x y ≠ .gt) ∧ (cond = 5 → anyNan [x, y] = false ∧ ordNum x y = .gt)
  ∧ (cond = 6 → anyNan [x, y] = true) ∧ (cond = 7 → anyNan [x, y] = false)

/-- The flag of a lane of VFCMP (07 R177): NV for a signalling NaN, and for any NaN under an ordering condition. -/
def compareFlag (cond : Nat) (x y : Num) : Nat :=
  if anySig [x, y] = true ∨ (anyNan [x, y] = true ∧ 2 ≤ cond ∧ cond ≤ 5) then 16 else 0

/-- The predicate instructions (07 R188): the form, and what bit j of the result tells about the operands. -/
def predRows : List ((Bool → PReg → PReg → PReg → Instr) × (Word → Word → Word → Prop)) :=
  [ (fun s d a b => .pand s d a b, fun x y r => ∀ j, flag r j = (flag x j && flag y j)),
    (fun s d a b => .por s d a b, fun x y r => ∀ j, flag r j = (flag x j || flag y j)),
    (fun s d a b => .pxor s d a b, fun x y r => ∀ j, flag r j = (flag x j != flag y j)),
    (fun s d a _ => .pnot s d a, fun x _ r => ∀ j < 64, flag r j = !flag x j),
    (fun s d a _ => .pcnt s d a, fun x _ r => r.toNat = ((List.range 64).filter (fun j => flag x j)).length),
    (fun s d a _ => .pfirst s d a, fun x _ r => ∀ j < 64, flag r j = true ↔ flag x j = true ∧ ∀ k < j, flag x k = false),
    (fun s d a _ => .pset s d a, fun x _ r => ∀ j < 64, flag r j = true ↔ j < x.toNat) ]

/-- The lanes of a result register: element j, of width w, is the code of rs j, and the flags of the lanes are delivered (07 R175). -/
def State.Lanes (s : State) (i : Instr) (sp tick : Bool) (w : Nat) (d : Reg) (rs : Nat → Res) : Prop :=
  ∃ v, (∀ j < 512 / w, velem w v j = (rs j).code % 2 ^ w)
    ∧ s.Delivers i sp tick ((List.range (512 / w)).map (fun j => (j, (rs j).fl))) (fun c => c.setV d v)

/-- The moves whose active elements are `elem j` and whose other elements stay (07 Table 7.8): the form, and element j from w, Ga, Gb and
the elements of Va, Vb, the old Vd, and the predicate. -/
def moveRows (n : Nat) : List ((Bool → PReg → Reg → Reg → Reg → Instr) ×
    (Nat → Word → Word → (Nat → Nat) → (Nat → Nat) → (Nat → Nat) → (Nat → Bool) → Nat → Nat)) :=
  [ (fun s p d a _ => .vmov s p d a, fun _ _ _ x _ _ _ j => x j),
    (fun s p d a _ => .vbcast s p d a, fun w ga _ _ _ _ _ _ => ga.toNat % 2 ^ w),
    (fun s p d a b => .vshuf s p d a b, fun _ _ _ x y _ _ j => x (y j % n)),
    (fun s p d a b => .vperm s p d a b, fun _ _ _ x y old _ j => if old j % (2 * n) < n then x (old j % (2 * n)) else y (old j % (2 * n) - n)),
    (fun s p d a b => .vslide s p d a b, fun _ _ gb x _ _ _ j => if 0 ≤ (j : Int) + gb.toInt ∧ (j : Int) + gb.toInt < n then x ((j : Int) + gb.toInt).toNat else 0),
    (fun s p d a _ => .vexpand s p d a, fun _ _ _ x _ _ act j => x ((List.range j).filter act).length) ]

/-- Node i of level k of the reduction tree (03 R88): its lowest participating lane and its value, none if no lane below it takes part. -/
def redNode (f : Nat → Nat → Nat → Res) (x : Nat → Nat) (act : Nat → Bool) : Nat → Nat → Option (Nat × Nat)
  | 0, i => if act i then some (i, x i) else none
  | k + 1, i =>
    match redNode f x act k (2 * i), redNode f x act k (2 * i + 1) with
    | some (m, u), some (_, v) => some (m, (f m u v).code)
    | some u, none => some u
    | none, v => v

/-- The flags of node i of level k + 1, in the lane that it rounds in. -/
def redFlag (f : Nat → Nat → Nat → Res) (x : Nat → Nat) (act : Nat → Bool) (k i : Nat) : Option (Nat × Nat) :=
  match redNode f x act k (2 * i), redNode f x act k (2 * i + 1) with
  | some (m, u), some (_, v) => some (m, (f m u v).fl)
  | _, _ => none

/-- The flags of a tree over 2^K lanes. -/
def redFlags (f : Nat → Nat → Nat → Res) (x : Nat → Nat) (act : Nat → Bool) (K : Nat) : List (Nat × Nat) :=
  (List.range K).flatMap (fun k => (List.range (2 ^ (K - 1 - k))).filterMap (redFlag f x act k))

/-- The reductions of floating-point formats (07 R186, 03 R88): the form, whether it rounds, the node operation, and an empty root. -/
def floatReductions : List ((Bool → Bool → PReg → Reg → Reg → Instr) × Bool × (Nat → Rnd → Nat → Nat → Nat → Res) × (Nat → Nat)) :=
  [ (fun s t p d a => .vredadd s t p d a, true, fun f r i x y => fAdd f r i (numOf f x) (numOf f y), fun _ => 0),
    (fun s _ p d a => .vredmax s p d a, false, fun f _ _ x y => fPick f true x y, fmtNaN),
    (fun s _ p d a => .vredmin s p d a, false, fun f _ _ x y => fPick f false x y, fmtNaN) ]

/-- The reductions of integer formats: the form, the rule for the result, and which integer z it is of: the total, the greatest or the least of the values of the lanes that take part, started from the format's bound (03 R88). -/
def intReductions : List ((Bool → Bool → PReg → Reg → Reg → Instr) × (Nat → Bool → Int → Res) × (Nat → (Nat → Int) → List Nat → Int → Prop)) :=
  [ (fun s t p d a => .vredadd s t p d a, intRule, fun _ v l z => z = (l.map v).sum),
    (fun s _ p d a => .vredmax s p d a, fun f _ z => ⟨intCode f z, 0⟩, fun f v l z => (intMin f ≤ z ∧ ∀ j ∈ l, v j ≤ z) ∧ (z = intMin f ∨ ∃ j ∈ l, z = v j)),
    (fun s _ p d a => .vredmin s p d a, fun f _ z => ⟨intCode f z, 0⟩, fun f v l z => (z ≤ intMax f ∧ ∀ j ∈ l, z ≤ v j) ∧ (z = intMax f ∨ ∃ j ∈ l, z = v j)) ]

/-- The width of an element under VT.EF. -/
def State.ew (s : State) : Nat := fmtWidth (fld s.ctx.num.vt 3 0)

/-- The address of element i of a vector access (07 Table 7.10). -/
def State.elemAddr (s : State) (k : VAddr) (a b : Reg) (i : Nat) : Word :=
  match k with
  | .contiguous => s.ctx.g a + s.ctx.g b + W (i * (s.ew / 8))
  | .strided => s.ctx.g a + W i * s.ctx.g b
  | .indexed _ => s.ctx.g a + W (velem s.ew (s.ctx.regs.getV b) i * (s.ew / 8))

/-- Element i lies at or past GLIM (07 R190). -/
def State.past (s : State) (k : VAddr) (b : Reg) (i : Nat) : Bool :=
  match k with
  | .indexed _ => fld s.ctx.num.vt 47 16 != 0 && decide (fld s.ctx.num.vt 47 16 ≤ velem s.ew (s.ctx.regs.getV b) i)
  | _ => false

/-- The active elements, and those of them that are accessed (07 R190). -/
def State.active (s : State) (p : PReg) : List Nat := (List.range (512 / s.ew)).filter (fun i => flag (s.ctx.regs.getP p) i)

def State.taking (s : State) (k : VAddr) (p : PReg) (b : Reg) : List Nat := (s.active p).filter (fun i => !s.past k b i)

/-- Each element finds its home, through the leaf named with it, after the translations of the elements before it; t is the state then
(07 R190 pass 3). -/
def State.AllPlaced (acc : Acc) (n : Nat) : State → List (Lane × Option Leaf) → State → Prop
  | s, [], t => t = s
  | s, (x, l) :: r, t => s.locate s.pid s.ctx.space.ptroot s.ctx.stat.sup acc x.ea n true false = .ok (x.home, l)
      ∧ State.AllPlaced acc n (s.translated x.ea l) r t

/-- The elements of a vector access pass the checks of R190, no stack rule moves one, and L holds the places of those accessed; t is the
state once they are translated. -/
structure State.VAccess (s : State) (acc : Acc) (k : VAddr) (p : PReg) (a b : Reg) (L : List (Lane × Option Leaf)) (t : State) : Prop where
  gate : s.noAcquire
  aligned : ∀ i ∈ s.active p, (s.elemAddr k a b i).toNat % (s.ew / 8) = 0 ∧ (s.elemAddr k a b i).toNat < 2 ^ 52
  stack : a = 31 → ∀ i ∈ s.active p, s.ctx.space.sklo.toNat ≤ (s.elemAddr k a b i).toNat
    ∧ (s.ctx.stat.emrg = true → s.ctx.space.skhi.toNat - 512 ≤ (s.elemAddr k a b i).toNat)
  limit : k = .indexed true → ∀ i ∈ s.active p, s.past k b i = false
  lanes : L.map (fun e => (e.1.i, e.1.ea)) = (s.taking k p b).map (fun i => (i, s.elemAddr k a b i))
  placed : State.AllPlaced acc (s.ew / 8) (s.issued 4) L t

/-- The bytes of an element in the core's own scratchpad can be accessed at once (10 R267, 11 R291). -/
def State.nearFree (s : State) (n : Nat) (x : Lane) : Prop :=
  ∀ off, x.home = .spad s.pid off → s.marked s.pid off n = false ∧ s.ownAlias (spadKey s.pid off) n = false

/-- P7 takes the elements past GLIM of a form that is not strict (07 R190). -/
def State.putPast (s : State) (k : VAddr) (p : PReg) (b : Reg) (t : State) : State :=
  if k.loose then t.modCtx (fun c => c.setP 7 (W (maskOf ((s.active p).filter (fun i => s.past k b i))))) else t

def vectorLoads (sp strict : Bool) (p : PReg) (d a b : Reg) : List (Instr × VAddr) :=
  [(.vld sp p d a b, .contiguous), (.vlds sp p d a b, .strided), (.vgather sp strict p d a b, .indexed strict)]

def vectorStores (sp strict : Bool) (p : PReg) (d a b : Reg) : List (Instr × VAddr) :=
  [(.vst sp p d a b, .contiguous), (.vsts sp p d a b, .strided), (.vscatter sp strict p d a b, .indexed strict)]

/-- The elements in the core's own scratchpad are written in ascending element order (07 R193, R195). -/
def State.nearStored (s : State) (n : Nat) (data : Nat → Nat) (l : List Lane) : State := l.foldl (fun u x => u.wr x.home.key (bytesOf n (data x.i))) s

/-- A byte of the element that a lane stores. -/
def Lane.covers (x : Lane) (n j : Nat) : Prop := x.home.key ≤ j ∧ j < x.home.key + n

end Sys2Proof.Machine
end

