-- ==== Sys2Proof/Safety/System.lean ====
section
/-! DEFINITION. The words of the claims about system and copy instructions: selectors, images of contexts and cores, the checks of a copy and what starting one leaves (15, 21). -/

namespace Sys2Proof.Machine

/-- What a TLBI waits for: the requests and the commits with numbers below these, those that were there when it first issued (21 R414). -/
def State.tlbiSince (s : State) : Nat × Nat :=
  match s.ctx.run with
  | .stalled (.tlbi n m _ _ _ _) => (n, m)
  | _ => (s.net.nextReq, s.vers.nextCommit)

/-- What R415 asks of the selector of SYSRD and SYSWR: no reserved bit, a context number up to 4, and a register that the form reaches. -/
def selectorOk (x : Word) (write : Bool) : Prop :=
  flag x 31 = false ∧ fld x 63 32 = 0 ∧ fld x 15 14 = 0 ∧ flag x 27 = false ∧ fld x 30 28 ≤ 4
  ∧ (write = true → 0x100 ≤ fld x 13 0 ∧ fld x 13 0 ≤ 0x105)
  ∧ (write = false → (0x100 ≤ fld x 13 0 ∧ fld x 13 0 ≤ 0x106) ∨ fld x 13 0 ∈ [0, 2, 0x24] ∨ (0x50 ≤ fld x 13 0 ∧ fld x 13 0 < 0x58) ∨ (0x70 ≤ fld x 13 0 ∧ fld x 13 0 < 0x74))

/-- The two rows of the opcode table that share the encoding of CTXSAVE, and of CTXLOAD: Gb decides (21 R406, R407, R408). -/
def saveForms (sp : Bool) (d a b : Reg) : List Instr := [.ctxsave sp d a b, .ctxsaveCore sp d a b]

def loadImageForms (sp : Bool) (d a b : Reg) : List Instr := [.ctxload sp d a b, .ctxloadCore sp d a b]

/-- A page of an image that a save can write at once: not held at its cache, with room for its version (10 R286, 25 R446). -/
def State.pageReady (s : State) (n : Nat) (h : Home) : Prop := s.keyHeld (h.writeKey s.sys.lead) = false ∧ s.canPut h n .other = true

/-- Status 4 of a CTXSAVE of a context (21 R410): SH, or no live system record. -/
def Ctx.live (c : Ctx) (cx : Nat) : Prop := cx ≠ 4 ∧ c.sysBusy = true ∧ c.sysRec.state = 1

/-- The words of a context image at its home (21 Table 21.3). -/
def State.imageWords (s : State) (h : Home) : List Word := bytesWords 512 (s.imageRd [h] 0 4096)

/-- A word of the first page of a core image (21 Table 21.4). -/
def State.coreWord (s : State) (hs : List Home) (off : Nat) : Word := W (natOf (s.imageRd hs off 8))

/-- No queue count of a word of eight is above 16. -/
def countsOk (w : Word) : Prop := ∀ i, i < 8 → fld w (8 * i + 7) (8 * i) ≤ 16

/-- A context image that 21 R410 does not answer with status 5: its kind and version, no reserved bit set, queue counts in range. -/
def goodHeader (w : List Word) : Prop :=
  fld (w.getD 0 0) 63 48 = 0xC7A1 ∧ fld (w.getD 0 0) 47 40 = 1 ∧ (∀ e ∈ imageReserved, w.getD e.1 0 &&& e.2 = 0) ∧ countsOk (w.getD 31 0)

/-- Records of a core image that hold no reserved bit: tiles, barriers, marks and handler-table slots (21 Table 21.4). -/
def recordsOk (w : Nat → Word) : Prop :=
  (∀ n, n < 32 → (Tile.ofWords [w (0x600 + 32 * n), w (0x600 + 32 * n + 8), w (0x600 + 32 * n + 16), w (0x600 + 32 * n + 24)]).words
    = [w (0x600 + 32 * n), w (0x600 + 32 * n + 8), w (0x600 + 32 * n + 16), w (0x600 + 32 * n + 24)])
  ∧ (∀ n, n < 32 → (Bar.reset.ofWords [w (0xA00 + 16 * n), w (0xA00 + 16 * n + 8)]).words = [w (0xA00 + 16 * n), w (0xA00 + 16 * n + 8)])
  ∧ (∀ n, n < 8 → fld (w (0xC00 + 8 * n)) 63 21 = 0) ∧ (∀ n, n < 24 → w (0xC40 + 8 * n) = 0)
  ∧ (∀ n, n < 64 → (HSlot.ofWords [w (0xE00 + 16 * n), w (0xE00 + 16 * n + 8)]).words = [w (0xE00 + 16 * n), w (0xE00 + 16 * n + 8)])

/-- A core image, apart from its device layouts, that 21 R410 does not answer with status 5. -/
def goodCoreHeader (w : Nat → Word) : Prop :=
  (fld (w 0) 63 48 = 0xC7A2 ∧ fld (w 0) 47 40 = 1 ∧ fld (w 0) 39 11 = 0 ∧ fld (w 8) 31 1 = 0 ∧ fld (w 0x20) 63 32 = 0)
  ∧ countsOk (w 0x28) ∧ (fld (w 0x30) 63 22 = 0 ∧ fld (w 0x30) 15 12 = 0 ∧ flag (w 0x30) 7 = false ∧ fld (w 0x30) 6 0 ≤ 64) ∧ recordsOk w

/-- What a context holds after it was restored from an image read at `ea` (21 Table 21.3, R408). -/
structure FromImage (c : Ctx) (w : List Word) (ea : Word) : Prop where
  run : c.run = .runnable
  pc : c.pc = w.getD 33 0
  g : ∀ i : Reg, 1 ≤ i.toNat → i.toNat ≤ 30 → c.g i = w.getD (39 + i.toNat) 0
  present : c.regs.allPresent = true
  flags : c.num.flags = w.getD 2 0 &&& 0x7F
  flagen : c.num.flagen = w.getD 22 0 &&& 0x7F
  seed : c.num.seed = w.getD 24 0
  srCount : c.num.srCount = w.getD 3 0
  sup : c.stat.sup = flag (w.getD 32 0) 40
  emrg : c.stat.emrg = flag (w.getD 32 0) 39
  lid : c.ident.lid = w.getD 6 0
  task : c.ident.task = w.getD 7 0
  launch : c.ident.launch = W (fld (w.getD 1 0) 63 32)
  ts : c.tx.ts = w.getD 25 0
  opened : c.tx.opened = flag (w.getD 26 0) 0
  sklo : c.space.sklo = w.getD 27 0
  skhi : c.space.skhi = w.getD 28 0
  ovf : c.space.ovf = w.getD 29 0
  ptroot : c.space.ptroot = w.getD 30 0 &&& 0xFFFFFFFFFFFF
  hf : c.hf = w.getD 35 0
  hframe : c.hframe = w.getD 36 0
  resumed : c.resumed = some { eff := 0x011, arg := W (fld (w.getD 1 0) 10 0), addr := ea }

/-- The first check of a list that fails decides the effect (15 R342). -/
def firstFault (l : List (Bool × Raise)) : Option Raise := (l.find? (fun e => e.1)).map (fun e => e.2)

/-- Where the class of an address ends for a range of n bytes from it (15 R342). -/
def leavesClass (x : Word) (n : Nat) : Bool :=
  match classOf x.toNat with
  | .spad off => decide (0x180000 < off + n)
  | .core _ off => decide (0x180000 < off + n)
  | .trans => decide (2 ^ 52 < x.toNat + n)
  | .hole => false

/-- The checks of a range of a copy (15 R342 step 3). -/
def rangeChecks (x : Word) (n : Nat) : List (Bool × Raise) :=
  [(decide (2 ^ 52 ≤ x.toNat), { eff := 0x003, addr := x }), (decide (classOf x.toNat = .hole), pageFault x 0),
   (leavesClass x n, { eff := 0x001, arg := x })]

/-- LEN is a multiple of 64 from 64 to 16,777,152 (15 Table 15.5). -/
def lenOk (n : Nat) : Bool := decide (n % 64 = 0 ∧ 64 ≤ n ∧ n ≤ 16777152)

/-- The checks of CPY and CPYB, in their order (15 R341, R342). -/
def copyChecks (s : State) (bound : Bool) (ch : Reg) (x y z : Word) : List (Bool × Raise) :=
  [(decide (8 ≤ ch.toNat), { eff := 0x001, arg := W ch.toNat }),
   (decide (fld z 63 55 ≠ 0) || !lenOk (fld z 23 0) || (!bound && decide (fld z 54 38 ≠ 0)) || (!flag z 25 && decide (fld z 37 26 ≠ 0))
      || (flag z 25 && s.lidBad (fld z 37 26)) || (bound && s.lidBad (fld z 54 43)), { eff := 0x001, arg := z }),
   (decide (x.toNat % 64 ≠ 0), { eff := 0x003, addr := x }), (decide (y.toNat % 64 ≠ 0), { eff := 0x003, addr := y })]
  ++ rangeChecks x (fld z 23 0)
  ++ (if flag z 25 then [(decide (0x180000 < y.toNat + fld z 23 0), { eff := 0x001, arg := y })] else rangeChecks y (fld z 23 0))

/-- Where a copy puts its bytes (15 R343): core DLID at a local offset, this core's scratchpad, or an address. -/
def copyPlace (y z : Word) : CopyDst :=
  if flag z 25 then .lid (fld z 37 26) y.toNat else match classOf y.toNat with
    | .spad off => .local off
    | _ => .ea y

/-- The scratchpad range of a copy whose destination is local. -/
def copyLocal (y z : Word) : Option Nat := match copyPlace y z with
  | .local off => some off
  | _ => none

/-- The channel is free and Q2 has room (15 R342). -/
def State.copyRoom (s : State) (ch : Nat) : Prop :=
  (Tab.get Chan.reset s.core.chans ch).copy = none ∧ (s.queue s.pid s.cx 2).length < 16

/-- The copy that an instruction at the PC of the state starts (15 R339, R342). -/
structure CopyStarted (s : State) (c : Copy) (ch : Nat) (src : Word) (len : Nat) (fx : Bool) : Prop where
  id : c.id = s.nextCopy
  owner : c.pid = s.pid ∧ c.cx = s.cx ∧ c.act = s.ctx.act
  ch : c.ch = ch
  src : c.src = src
  len : c.len = len
  fx : c.fx = fx
  level : c.sup = s.ctx.stat.sup ∧ c.ptroot = s.ctx.space.ptroot
  waiting : c.accepted = false ∧ c.ends = [] ∧ c.first = 0

/-- What starting a copy leaves (15 R342): the command in Q2, the channel open, one more copy, and registers, other contexts and
other channels as they were. -/
structure CopyIssued (s t : State) (c : Copy) (loc : Option Nat) : Prop where
  copies : t.copies = s.copies ++ [c]
  next : t.nextCopy = s.nextCopy + 1
  q2 : t.queue s.pid s.cx 2 = s.queue s.pid s.cx 2 ++ [W (fld s.ctx.pc 47 0)]
  chan : Tab.get Chan.reset t.core.chans c.ch = match loc with
    | some lo => ⟨some c.id, true, lo, lo + c.len, lo⟩
    | none => ⟨some c.id, false, 0, 0, 0⟩
  others : ∀ m, m ≠ c.ch → Tab.get Chan.reset t.core.chans m = Tab.get Chan.reset s.core.chans m
  regs : t.ctx.regs = s.ctx.regs
  pc : t.ctx.pc = s.ctx.pc + 4
  ctxs : ∀ q x, ctxKey q x ≠ ctxKey s.pid s.cx → t.ctxAt q x = s.ctxAt q x

/-- The receivers of a CPYM, by cluster position, or every subscriber as one item (15 R348, R349). -/
def State.cpymCores (s : State) (z : Word) : List (Nat × Nat) :=
  if flag z 25 then (s.subscribers (dieOf s.pid) (fld z 48 37)).map (fun k => (0, k))
  else ((List.range 16).filter (bitOf (fld z 52 37))).map (fun p => (p, clusterCore s.pid p))

/-- The checks of CPYM, in the order of the model (15 R341, R348, R349; PRIV before the rest, log 38). -/
def cpymChecks (s : State) (ch : Reg) (x y z : Word) : List (Bool × Raise) :=
  [(decide (8 ≤ ch.toNat), { eff := 0x001, arg := W ch.toNat }), (flag z 25 && !s.ctx.stat.sup, { eff := 0x002 }),
   (decide (fld z 63 53 ≠ 0) || !lenOk (fld z 23 0) || (if flag z 25 then decide (fld z 52 49 ≠ 0) else decide (fld z 52 37 = 0)
      || decide (12 < ((List.range 16).filter (bitOf (fld z 52 37))).length) || bitOf (fld z 52 37) (posInCluster s.pid)), { eff := 0x001, arg := z }),
   (decide (x.toNat % 64 ≠ 0), { eff := 0x003, addr := x }), (decide (y.toNat % 64 ≠ 0), { eff := 0x003, addr := y })] ++ rangeChecks x (fld z 23 0)

/-- The control word of a BANKOP that raises nothing (15 Table 15.9, R352). -/
def bankWordOk (z : Word) : Prop :=
  fld z 63 32 = 0 ∧ fld z 15 9 = 0 ∧ flag z 3 = false ∧ fld z 2 0 < 3 ∧ fld z 8 6 < 5 ∧ (fld z 2 0 = 0 → fld z 8 6 = 0 ∧ flag z 5 = false) ∧ (fld z 2 0 = 2 → fld z 31 16 < 256)

/-- The core and offset of a scratchpad row (10 R261): the local window, or core space. -/
def State.rowOf (s : State) (x : Word) : Option (Nat × Nat) :=
  match classOf x.toNat with
  | .spad off => some (s.pid, off)
  | .core p off => some (p, off)
  | _ => none

end Sys2Proof.Machine
end

