-- ==== Sys2Proof/Safety/Engines.lean ====
section
/-! DEFINITION. The words of the claims about matrix and rank commands: the hurdles of an instruction in their order, and the command that its push leaves (16, 17). -/

namespace Sys2Proof.Machine

/-- What stands in the way of an instruction: a wait (01 R13) or an effect that it raises (01 R30). -/
inductive Hurdle where
  | wait (w : Wait)
  | raise (r : Raise)

/-- The first of a list of hurdles that is met decides. -/
def firstHurdle (l : List (Bool × Hurdle)) : Option Hurdle := (l.find? (fun e => e.1)).map (fun e => e.2)

/-- What an instruction that meets a hurdle comes to. -/
def State.stopsAt (s : State) (sp : Bool) : Hurdle → Host.Outcome State Fault Refusal
  | .wait w => .next ((s.block w sp).switch sp)
  | .raise r => .next (s.raised r)

/-- A tile that an instruction names: FILLING (1) and DRAINING (3) are waited for, EMPTY raises ILLEGAL with the tile number (10 R265). -/
def tileHurdles (k : Core) (n : Nat) : List (Bool × Hurdle) :=
  [((k.tile n).state % 2 == 1, .wait (.tile n)), ((k.tile n).state == 0, .raise { eff := 0x001, arg := W n })]

/-- ILLEGAL with a tile number as EFFARG. -/
def tileFaultAt (b : Bool) (n : Nat) : Bool × Hurdle := (b, .raise { eff := 0x001, arg := W n })

/-- The tiles that an MMA, MMAR or MMASP reads beside Ta, Tb and Tc: their scales (10 R262). -/
def scaleHurdles (k : Core) (t : Tile) : List (Bool × Hurdle) := if t.scen then tileHurdles k t.scale else []

def scaleOf (k : Core) (t : Tile) : Option Tile := if t.scen then some (k.tile t.scale) else none

/-- The hurdles of MMA, MMAR and MMASP, in the order of 16 R361. -/
def matHurdles (k : Core) (sparse : Bool) (d a b : Nat) (g : Word) : List (Bool × Hurdle) :=
  let ta := k.tile a
  let tb := k.tile b
  let tc := k.tile d
  let sa := scaleOf k ta
  let sb := scaleOf k tb
  let sc := scaleOf k tc
  [(badBlock sparse g, .raise { eff := 0x001, arg := g })] ++ tileHurdles k a ++ tileHurdles k b ++ tileHurdles k d ++ scaleHurdles k ta ++ scaleHurdles k tb
  ++ scaleHurdles k tc
  ++ [tileFaultAt (!mmaA sparse ta.fmt || badScale ta) a] ++ [tileFaultAt (!mmaB sparse ta.fmt tb.fmt || badScale tb) b]
  ++ [tileFaultAt (tc.fmt != mmaC ta.fmt || (tc.fmt != 4 && badRnd tc)) d] ++ [tileFaultAt (sa.any (fun t => t.fmt != 1)) ta.scale]
  ++ [tileFaultAt (sb.any (fun t => t.fmt != 1)) tb.scale] ++ [tileFaultAt (sc.any (fun t => t.fmt != 1)) tc.scale]
  ++ [tileFaultAt (tc.meets ta || tc.meets tb || sa.any tc.meets || sb.any tc.meets || sc.any tc.meets) d]

/-- The hurdles of ACCRD, ACCZ and MSCL (16 R371 to R373). -/
def accrdHurdles (k : Core) (d a : Nat) (g : Word) : List (Bool × Hurdle) :=
  [(fld g 63 2 != 0, .raise { eff := 0x001, arg := g })] ++ tileHurdles k a ++ tileHurdles k d ++ [tileFaultAt (!accFmt (k.tile a).fmt) a]
  ++ [tileFaultAt ((k.tile d).fmt == 7 || badRnd (k.tile d)) d] ++ [tileFaultAt ((k.tile a).meets (k.tile d)) d]

def acczHurdles (k : Core) (d : Nat) : List (Bool × Hurdle) := tileHurdles k d ++ [tileFaultAt (!accFmt (k.tile d).fmt) d]

def msclHurdles (k : Core) (d : Nat) (g : Word) : List (Bool × Hurdle) :=
  [(fld g 63 1 != 0, .raise { eff := 0x001, arg := g })] ++ tileHurdles k d ++ [tileFaultAt (!accFmt (k.tile d).fmt || ((k.tile d).fmt != 4 && badRnd (k.tile d))) d]

/-- The state after an instruction that pushed command m of the matrix unit: the command in Q0 and in the unit, and SRN advanced when
the command rounds under sr (16 R361 step 5, R362; 03 R72). -/
def State.pushedMat (s : State) (m : MCmd) (sr : Bool) : State :=
  let t := ((s.issued 4).push s.pid s.cx 0 [W (fld s.ctx.pc 47 0)]).modCoreAt s.pid
    (fun k => { k with unit := { k.unit with mat := { k.unit.mat with cmds := k.unit.mat.cmds ++ [m] } } })
  if sr then t.modCtx (fun c => { c with num := { c.num with srCount := c.num.srCount + 1 } }) else t

/-- What an instruction that pushes command m does: the first hurdle, or the wait for room in Q0, or the push. -/
def State.PushesMat (s : State) (i : Instr) (sp : Bool) (hs : List (Bool × Hurdle)) (m : MCmd) (sr : Bool) : Prop :=
  (∀ h, firstHurdle hs = some h → exec i s = s.stopsAt sp h)
  ∧ (firstHurdle hs = none → 16 ≤ (s.queue s.pid s.cx 0).length → exec i s = .next ((s.block .room sp).switch sp))
  ∧ (firstHurdle hs = none → (s.queue s.pid s.cx 0).length < 16 → exec i s = .next ((s.pushedMat m sr).switch sp))

/-- The three products of the opcode table, each with its kind of command. -/
def products (sp sat az neg : Bool) (d a b c : Reg) : List (Instr × Nat) :=
  [(.mma sp sat az neg d a b c, 0), (.mmar sp sat az neg d a b c, 1), (.mmasp sp sat az neg d a b c, 2)]

/-- The state after an instruction that pushed command m of the rank unit: the command in Q4 and in the unit (17 R379, 15 R458), and SRN
advanced when the command rounds under sr (03 R72). -/
def State.pushedRank (s : State) (m : RCmd) (sr : Bool) : State :=
  let t := (((s.issued 4).push s.pid s.cx 4 [W (fld s.ctx.pc 47 0)]).modNet (fun n => { n with nextReq := n.nextReq + 1 })).modRank s.pid
    (fun u => { u with cmds := u.cmds ++ [m] })
  if sr then t.modCtx (fun c => { c with num := { c.num with srCount := c.num.srCount + 1 } }) else t

/-- What an instruction that pushes command m of the rank unit does. -/
def State.PushesRank (s : State) (i : Instr) (sp : Bool) (hs : List (Bool × Hurdle)) (m : RCmd) (sr : Bool) : Prop :=
  (∀ h, firstHurdle hs = some h → exec i s = s.stopsAt sp h)
  ∧ (firstHurdle hs = none → 16 ≤ (s.queue s.pid s.cx 4).length → exec i s = .next ((s.block .room sp).switch sp))
  ∧ (firstHurdle hs = none → (s.queue s.pid s.cx 4).length < 16 → exec i s = .next ((s.pushedRank m sr).switch sp))

def ill (b : Bool) (x : Word) : Bool × Hurdle := (b, .raise { eff := 0x001, arg := x })

/-- RSORT (17 R379): Ta of a format that can be ranked with 4,096 channels at most, Td UINT16 with room for them, apart. -/
def rsortHurdles (k : Core) (d a : Nat) : List (Bool × Hurdle) :=
  tileHurdles k a ++ tileHurdles k d ++ [tileFaultAt ((k.tile a).fmt == 7 || decide (4096 < (k.tile a).count)) a]
  ++ [tileFaultAt ((k.tile d).fmt != 3 || decide ((k.tile d).count < (k.tile a).count)) d] ++ [tileFaultAt ((k.tile a).meets (k.tile d)) d]

/-- The control word of RKDENSE and RKGRAD (17 R393). -/
def backwardWord (s : State) (grad : Bool) (z : Word) : Bool :=
  fld z 63 26 != 0 || decide (65536 < fld z 16 0) || ((s.rankUnit s.pid).seqOf (fld z 18 17)).q.isEmpty || (!grad && fld z 25 19 != 0)

/-- The tiles of a backward command in the order of R393; Tp is UINT16, every other FP32; a destination's rounding code is not 6 or
7; no two footprints meet. -/
def backwardHurdles (dst : List (Nat × Tile)) (p : Nat × Tile) (src : List (Nat × Tile)) : List (Bool × Hurdle) :=
  let all := dst.take 1 ++ [p] ++ src ++ dst.drop 1
  all.map (fun e => tileFaultAt (e.2.fmt != (if e.1 = p.1 then 3 else 14) || (dst.any (fun f => f.1 == e.1) && badRnd e.2)) e.1)
  ++ [tileFaultAt (firstMeet all).isSome ((firstMeet all).getD 0)]

/-- What a read of n bytes of the core's own scratchpad waits for or raises (10 R267, R270, 11 R291, R302). -/
def State.readHurdles (s : State) (off n : Nat) : List (Bool × Hurdle) :=
  [(s.acquiring s.pid s.ctx.act, .wait .drain), (s.marked s.pid off n, .wait (.mark off)), (s.ownAlias (spadKey s.pid off) n, .wait .drain), (s.bad (spadKey s.pid off) n, .raise (memErr s.ctx.pc (W off)))]

/-- Consecutive fields of n bytes of the core's own scratchpad. -/
def State.fields (s : State) (off n k : Nat) : List Nat := (chunks n k (s.rd (spadKey s.pid off) (n * k))).map natOf

/-- The targets of a REMIT: one logical id, or a list of up to twelve in the scratchpad (17 R380 steps 2 and 3). -/
def State.emitTargets (s : State) (y z : Word) : List Nat :=
  if flag y 42 then ((s.fields z.toNat 2 16).drop 1).take ((s.fields z.toNat 2 16).headD 0) else [fld z 11 0]

def State.emitHurdles (s : State) (y z : Word) : List (Bool × Hurdle) :=
  let h := s.fields z.toNat 2 16
  let m := h.headD 0
  if flag y 42 then
    [(z.toNat % 32 != 0, .raise { eff := 0x003, addr := z })] ++ [ill (decide (0x180000 < z.toNat + 32)) z] ++ s.readHurdles z.toNat 32
    ++ [ill (m == 0 || decide (12 < m) || (h.drop (m + 1)).any (fun x => x != 0)) z] ++ [ill (((h.drop 1).take m).any s.lidBad) z]
  else [ill (fld z 63 12 != 0 || s.lidBad (fld z 11 0)) z]

/-- REMIT (17 R380 to R382): its hurdles, its command, and the places that it takes among its packets. -/
def State.remitHurdles (s : State) (d a : Nat) (y z : Word) : List (Bool × Hurdle) :=
  let thr := flag y 43
  let parked := ((s.emitTargets y z).map (fun n => (n, s.resolve s.ctx.ident.launch.toNat n))).filter (fun e => e.2.2)
  [ill (fld y 41 32 != 0 || decide (4096 < fld y 63 51) || (thr && (flag y 31 || fld y 30 23 == 255)) || (!thr && fld y 31 0 != 0)) y] ++ s.emitHurdles y z
  ++ tileHurdles s.core d ++ (if thr then tileHurdles s.core a else []) ++ [tileFaultAt ((s.core.tile d).fmt != 3) d]
  ++ [tileFaultAt (thr && (if thr then s.core.tile a else Tile.reset).fmt == 7) a]
  ++ [(!parked.isEmpty && decide (32 < (s.net.held.filter (fun h => h.pkt.src == s.pid)).length + parked.length), .wait .room)]

/-- RKSEQ (17 R384). -/
def State.seqHurdles (s : State) (x y : Word) : List (Bool × Hurdle) :=
  let h := s.fields x.toNat 2 32
  let cnt := h.headD 0
  let q := s.fields (x.toNat + 64) 2 cnt
  [ill (decide (4 ≤ y.toNat) || [0, 1, 2, 3].any (fun i => (s.stream s.pid i).state != 0 && (s.stream s.pid i).seq == y.toNat)) y]
  ++ [(x.toNat % 64 != 0, .raise { eff := 0x003, addr := x })] ++ [ill (decide (0x180000 < x.toNat + 64)) x] ++ s.readHurdles x.toNat 64
  ++ [ill (cnt == 0 || decide (256 < cnt) || decide (2 ≤ h.getD 1 0) || (h.drop 2).any (fun e => e != 0) || decide (0x180000 < x.toNat + 64 + 2 * cnt)) x]
  ++ s.readHurdles (x.toNat + 64) (2 * cnt) ++ [ill ((q.zip (q.drop 1)).any (fun e => e.1 < e.2)) x]
  ++ [((s.rankUnit s.pid).cmds.any (fun m => decide (2 ≤ m.kind) && fld m.desc 18 17 == y.toNat), .wait .drain)]

/-- RKARM (17 R386). -/
def State.armHurdles (s : State) (d a : Nat) (y z : Word) : List (Bool × Hurdle) :=
  [ill (decide (4 ≤ d)) (W d)] ++ [ill ((s.stream s.pid d).state != 0) (W d)]
  ++ [ill (fld y 63 53 != 0 || fld y 31 15 != 0 || fld y 8 7 == 3 || ((s.rankUnit s.pid).seqOf (fld y 5 4)).q.isEmpty
      || (!flag y 9 && fld y 14 10 != 0) || (flag y 9 && flag y 6 && decide (1 < fld y 3 0 + 1)) || decide (0x180000 < fld y 52 32 + (fld y 3 0 + 1) * 8256)) y]
  ++ [ill (fld y 8 7 == 2 && fld z 63 47 != 0) z] ++ tileHurdles s.core a ++ (if flag y 9 then tileHurdles s.core (fld y 14 10) else [])
  ++ [tileFaultAt (((s.core.tile a).fmt != 0 && (s.core.tile a).fmt != 7) || (s.core.tile a).rows == 0 || decide (64 < (s.core.tile a).rows)) a]
  ++ [tileFaultAt ((if flag y 9 then some (s.core.tile (fld y 14 10)) else none).any (fun r => r.fmt != 3)) (fld y 14 10)]
  ++ [(s.tileMarked s.pid (s.core.tile a), .wait (.mark (s.core.tile a).base))]

/-- A stream that a rank instruction names: ILLEGAL while it is HELD, and where `idle` while it is IDLE (17 R390). -/
def State.streamHurdles (s : State) (n : Nat) (idle : Bool) : List (Bool × Hurdle) :=
  [ill (decide (4 ≤ n)) (W n)] ++ [ill ((s.stream s.pid n).state == 3 || (idle && (s.stream s.pid n).state == 0)) (W n)]

/-- What RKACC writes into channel i for the sum v of output i (17 R390). -/
def State.accOut (s : State) (t : Strm) (td : Tile) (e : Nat × Int) : Res :=
  if td.fmt = 6 then ⟨intCode 6 e.2, 0⟩
  else roundNum td.fmt td.rnd false ((s.env td.rnd false).rho e.1) (.fin ((Exact.ofInt e.2).scale (if t.tw.fmt = 7 then -21 else -15)))

/-- The state after RKACC wrote its outputs: FLAGS joined, each channel of the tile written, SRN advanced under sr (17 R390, 03 R72, R79). -/
def State.accumulated (s : State) (td : Tile) (outs : List Res) : State :=
  let t := (s.issued 4).modCtx (fun c => { c with num := { c.num with flags := c.num.flags ||| W (outs.foldl (fun n o => n ||| o.fl) 0) } })
  let u := ((List.range outs.length).zip outs).foldl (fun s e => s.setChan s.pid td e.1 e.2.code) t
  if td.fmt ≠ 6 ∧ td.rnd = 5 then u.modCtx (fun c => { c with num := { c.num with srCount := c.num.srCount + 1 } }) else u

end Sys2Proof.Machine
end

