-- ==== Sys2Proof/Safety/Arrivals.lean ====
section
/-! DEFINITION. The words of the claims about arrivals: packets, results, barriers, joins, the start of an activation, waits and spills (08, 09, 15). -/

namespace Sys2Proof.Machine

/-- The packet at place i of the network may reach its target now: no earlier packet of its sender's context to that core is before it, the
sender's earlier requests are performed, on every replica (09 R230, 10 R279), and, unless it travels on VN1, no other packet waits at the core (08 R198) and
the core's mailbox store has room (09 R234). -/
structure State.Arrives (s : State) (i : Nat) (p : Pkt) : Prop where
  here : s.net.pkts[i]? = some p
  first : ∀ q ∈ s.net.pkts.take i, ¬ (q.src = p.src ∧ q.scx = p.scx ∧ q.dst = p.dst)
  done : ∀ r ∈ s.net.reqs, r.act = p.sact → p.after ≤ r.no
  applied : ∀ r ∈ s.vers.reps, r.ofAct p.sact p.after = false
  clear : p.onVn1 = false → (∀ q ∈ s.net.pkts.eraseIdx i, q.waits = true → q.dst ≠ p.dst) ∧ (s.coreAt p.dst).mbStore.length < 8

/-- The state without the packet at place i. -/
def State.taken (s : State) (i : Nat) : State := s.modNet (fun n => { n with pkts := n.pkts.eraseIdx i })

/-- A message arrives as `m` at core k: room in the pending buffer, the channel and generation of an MCAST copy taken from the match table
(09 R233), and a valid slot of its generation (08 R198). -/
structure State.Accepts (s : State) (k : Nat) (m0 m : Msg) : Prop where
  room : (s.coreAt k).pending.length < 32
  as_ : (s.coreAt k).received m0 = some m
  gen : ((s.coreAt k).slot m.chan).gen = m.gen
  valid : ((s.coreAt k).slot m.chan).valid = true

/-- A message is dropped at core k: one dead letter more, and the sender's DEADMSG on its way if the sender asked for it (09 R231). -/
def State.dropped (s : State) (k : Nat) (m : Msg) : State :=
  let t := s.modCoreAt k (fun c => { c with dlcnt := c.dlcnt + 1 })
  if flag m.desc 33 then t.modNet (fun n => { n with nacks := n.nacks ++ [⟨m.src, m.scx, m.sact, ⟨Eff.deadmsg, m.desc, m.saddr, 1, false⟩⟩] })
  else t

/-- A landing as the NI performs it (09 R229, 15 R353): the transformed bytes written from `addr` up, or added row by row for XF = 5; a queued
message gets the address and the byte count, bit 63 set after a decoding error; without a queued message the error is counted. -/
def State.landingMade (s : State) (k : Nat) (m : Msg) (xf addr : Nat) (data : List Byte) : State :=
  let out := (transform xf data).1
  let bad := (transform xf data).2
  let t := if xf = 5 then s.addRows k addr (chunks 64 (out.length / 64) out) else s.wr (spadKey k addr) out
  (if flag m.desc 19 then t.modCoreAt k (fun c => { c with pending := c.pending ++ [{ m with payload := [W addr, W (out.length + if bad then 2 ^ 63 else 0)] }] })
    else if bad then t.modCoreAt k (fun c => { c with deccnt := c.deccnt + 1 }) else t).wakeIdle k

/-- Whether activation `act` runs in a context. -/
def State.runs (s : State) (pid cx act : Nat) : Prop := (s.ctxAt pid cx).act = act ∧ (s.ctxAt pid cx).run ≠ .free

/-- The state without result i. -/
def State.noResult (s : State) (i : Nat) : State := s.modNet (fun n => { n with results := n.results.eraseIdx i })

/-- The state without pop i of a core. -/
def State.noPop (s : State) (core i : Nat) : State := s.modCoreAt core (fun k => { k with pops := k.pops.eraseIdx i })

/-- A value lands in a general register of a context: the register holds it and is present (01 R11). -/
def State.intoG (s : State) (pid cx : Nat) (d : Reg) (v : Word) : State :=
  s.modCtxAt pid cx (fun c => { c with regs := (c.regs.setPresent true (.g d)).setG d v })

def State.intoV (s : State) (pid cx : Nat) (d : Reg) (v : VWord) : State :=
  s.modCtxAt pid cx (fun c => { c with regs := (c.regs.setPresent true (.v d)).setV d v })

/-- A context that waits in WAITM on mailbox m has seen its presence bit set, whoever takes the value (05 R135, 09 R251). -/
def Ctx.sees (c : Ctx) (m : Nat) : Ctx :=
  match c.run with
  | .parked (.mbox n) => if n = m then { c with run := .parked .seen } else c
  | _ => c

/-- A value is in mailbox m of a core, with its presence; every WAITM on it has seen it, also in a spill image; IDLE ends there (09 R234,
R251, R252; 05 R132). -/
def State.inMailbox (s : State) (core m : Nat) (v : Word) : State :=
  let t := s.modCoreAt core (fun k => { k with m := k.m.set! m v, mp := setBit k.mp m true })
  let u := [0, 1, 2, 3].foldl (fun s cx => match (s.ctxAt core cx).run with
    | .parked (.mbox _) => s.modCtxAt core cx (fun c => c.sees m)
    | _ => s) t
  { u with saved := u.saved.map (fun (v : Saved) => if v.pid = core ∧ v.slot.isSome then { v with hid := v.hid.sees m } else v) }.wakeIdle core

/-- A value that a reservation was waiting for lands in its register, if its activation still runs (01 R28). -/
def State.served (s : State) (core : Nat) (t : Take) (v : Word) : State :=
  if (s.ctxAt core t.cx).act = t.act ∧ (s.ctxAt core t.cx).run ≠ .free then s.intoG core t.cx t.d v else s

/-- The owner of a negative response gets its DEADMSG as a pending effect: in the context that runs the activation or in the image that
holds it; an ended activation gets none (09 R231). -/
def State.noticed (s : State) (act : Nat) (p : Pend) : State :=
  match s.ownerOf act with
  | .ctx q c => s.modCtxAt q c (fun x => { x with pend := x.pend ++ [p] })
  | .image h => s.modSaved h (fun x => { x with pend := x.pend ++ [p] })
  | .gone => s

/-- A record of the pending-task area with a task in it. -/
def State.pendingRec (s : State) (core slot gen : Nat) (t : Task) : Prop := Tab.get ⟨0, none⟩ (s.coreAt core).ptasks slot = ⟨gen, some t⟩

/-- The barrier slot as it stands at its home, and the state with a new content of it once the update at place i has been taken. -/
def State.slotBar (s : State) (core slot : Nat) : Bar := Tab.get Bar.reset (s.coreAt core).bars slot

def State.putBar (s : State) (core slot : Nat) (b : Bar) : State := s.modCoreAt core (fun k => { k with bars := Tab.set k.bars slot b })

/-- The waiters of a list, released one after another (09 R248). -/
def State.releaseAll (s : State) (l : List Waiter) : State := l.foldl State.releaseWaiter s

/-- The slot holds b. If all members have arrived and no byte is pending the phase ends: no arrival, the other phase, and the waiters of the
old phase go on (08 R222). -/
def State.phased (s : State) (core slot : Nat) (b : Bar) : State :=
  if 0 < b.memb ∧ b.memb ≤ b.arrv ∧ b.pend = 0 then
    (s.putBar core slot { b with arrv := 0, ph := !b.ph, waiters := b.waiters.filter (fun w => w.parity != b.ph) }).releaseAll
      (b.waiters.filter (fun w => w.parity == b.ph))
  else s.putBar core slot b

/-- One arrival (09 R247). -/
def State.arrived (s : State) (core slot : Nat) : State :=
  let b := s.slotBar core slot
  if b.arrv < 65535 then s.phased core slot { b with arrv := b.arrv + 1 } else s.modCoreAt core (fun k => { k with dlcnt := k.dlcnt + 1 })

/-- A registration of w: after a failed copy its effect, in the other phase its release, else it waits (09 R248, R249). -/
def State.registered (s : State) (core slot : Nat) (w : Waiter) : State :=
  let b := s.slotBar core slot
  match b.failed with
  | some m => s.failWaiter w ⟨if m.2.2.2 then 0x021 else 0x020, W m.2.1, W m.1, W (2 ^ m.2.2.1), false⟩
  | none => if b.ph = w.parity then s.putBar core slot { b with waiters := b.waiters ++ [w] } else s.releaseWaiter w

/-- A GJOIN that waits for its reply completes: Gd is the phase (09 R245). -/
def State.joined (s : State) (p : Pkt) (d : Reg) (ph : Bool) (g : List (Nat × Nat)) : State :=
  s.modCtxAt p.src p.scx (fun c => { c.setG d (if ph then 1 else 0) with groups := c.groups ++ g, pc := c.pc + 4, run := .runnable })

/-- A failure of an ended task, in its launch's record: one failure more; the first one is described (08 R457). -/
def State.taskFailed (s : State) (j : JoinDec) (eff : Nat) : State :=
  let lid := ((s.launch? j.launch).map (fun l => l.lowestLid j.pid)).getD 0
  s.modLaunch j.launch (fun l => if l.nfail = 0 then { l with nfail := 1, eff := eff, argw := 0, addrw := j.join, flid := lid } else { l with nfail := l.nfail + 1 })

/-- The context c has just begun an activation of launch l in context number cx, where `old` was before. -/
structure Begins (c old : Ctx) (l : Launch) (cx lid : Nat) (pc g1 g2 g3 g4 task : Word) (sup : Bool) (payload : List Word) : Prop where
  run : c.run = .runnable
  pc_ : c.pc = pc
  g1_ : c.g 1 = g1
  g2_ : c.g 2 = g2
  g3_ : c.g 3 = g3
  g4_ : c.g 4 = g4
  zero : ∀ r : Reg, 5 ≤ r.toNat → r.toNat ≤ 30 → c.g r = 0
  g31 : c.g 31 = l.skhi cx - 576
  v : ∀ r : Reg, c.regs.getV r = 0
  p : ∀ r : PReg, r ≠ 0 → c.regs.getP r = 0
  present : c.regs.allPresent = true
  ras : c.ras = [] ∧ c.rdep = 0
  bb : c.bb = BitBuf.reset
  frames : c.hf = 0 ∧ c.hframe = 0
  queues : c.qs = if payload.isEmpty then [] else [(11, payload)]
  flags : c.num.flags = 0 ∧ c.num.srCount = 0
  numbers : c.num.flagen = l.flagen &&& 0x7F ∧ c.num.vt = l.vt &&& 0xFFFFFFFF0F7F ∧ c.num.seed = l.seed
  ident : c.ident = l.ident lid task
  stat : c.stat = ⟨false, false, sup⟩
  tx : c.tx = Tx.reset
  space : c.space = ⟨l.sklo cx, l.skhi cx, l.ovf, l.src.ptroot &&& 0xFFFFFFFFFFFF⟩
  effects : c.eff = ⟨0, 0, 0, 0⟩ ∧ c.pend = [] ∧ c.held = [] ∧ c.poison = [] ∧ c.hmask = none
  epoch : c.epoch = old.starts + 1

/-- A pending message is selectable at a priority: its slot is valid, of the message's generation, not masked, not bound (08 R200, 09 R231). -/
def Core.selects (k : Core) (prio : Bool) (m : Msg) : Prop :=
  let h := k.slot m.chan
  h.gen = m.gen ∧ h.valid = true ∧ h.msk = false ∧ h.qb = 0 ∧ h.prio = prio

/-- How many channels after the last one chosen a channel comes in turn. -/
def Core.turn (k : Core) (prio : Bool) (c : Nat) : Nat := (c + 64 - ((if prio then k.last1 else k.last0) + 1) % 64) % 64

/-- Pending message i is the one that the selection takes at a priority: of a channel whose turn comes first among those with a selectable
message, and the oldest selectable one of that channel (08 R200). -/
structure Core.Chosen (k : Core) (prio : Bool) (i : Nat) (m : Msg) : Prop where
  here : k.pending[i]? = some m
  chan : m.chan < 64
  ok : k.selects prio m
  turn : ∀ x ∈ k.pending, x.chan < 64 → k.selects prio x → k.turn prio m.chan ≤ k.turn prio x.chan
  oldest : ∀ j x, j < i → k.pending[j]? = some x → x.chan = m.chan → ¬ k.selects prio x

/-- No stale message is pending at a core. -/
def State.noStale (s : State) (core : Nat) : Prop := ∀ m ∈ (s.coreAt core).pending, (s.coreAt core).stale m = false

/-- Context cx of a core begins the activation of a message, which leaves the pending buffer; its channel is the last chosen one. -/
def State.tookMessage (s t : State) (core cx i : Nat) (prio : Bool) (m : Msg) : Prop :=
  let h := (s.coreAt core).slot m.chan
  let l := s.launchOr h.lnch
  Begins (t.ctxAt core cx) (s.ctxAt core cx) l cx (match m.lid with
      | some n => if m.launch = h.lnch then n else l.lowestLid core
      | none => l.lowestLid core) h.rpc (W m.src) (W m.chan) (W m.payload.length) (W m.tag) 0 h.privl m.payload
  ∧ t.coreAt core = (if prio then { s.coreAt core with pending := (s.coreAt core).pending.eraseIdx i, last1 := m.chan }
      else { s.coreAt core with pending := (s.coreAt core).pending.eraseIdx i, last0 := m.chan })
  ∧ ∀ q c, ctxKey q c ≠ ctxKey core cx → t.ctxAt q c = s.ctxAt q c

/-- The lowest low context of a core that is free for a new activation (01 R28). -/
def State.lowestFree (s : State) (core cx : Nat) : Prop := cx < 4 ∧ s.vacant core cx = true ∧ ∀ y < cx, s.vacant core y = false

/-- The condition that a waiting context of a core waits for has come about (01 R13); `bare` where it asks for no presence bit: WAITM, a
watched line, an answered WMWAIT (05 R135; 09 R251; 15 R350). -/
inductive State.waitEnds (s : State) (core cx : Nat) : (bare : Bool) → Wait → Prop
  | presence : s.waitEnds core cx false .presence
  | qFull (q : Nat) : (s.queue core cx q).length < 16 → s.waitEnds core cx false (.qFull q)
  | mboxRead (m : Nat) : (s.coreAt core).mp.getLsbD m = true → s.waitEnds core cx false (.mboxRead m)
  | mbox (m : Nat) : (s.coreAt core).mp.getLsbD m = true → s.waitEnds core cx true (.mbox m)
  | seen : s.waitEnds core cx true .seen
  /-- Registers change without a write to a line. -/
  | register (line : Nat) : 2 ^ 53 ≤ line → line < 2 ^ 53 + 2 ^ 24 → s.waitEnds core cx true (.watch line)
  | version (line goal : Nat) : goal ≤ (Tab.get VLine.reset s.vers.lines line).ts → (Tab.get VLine.reset s.vers.lines line).ts ≤ s.vers.stable →
      s.waitEnds core cx false (.version line goal)
  | tile (n : Nat) : ((s.coreAt core).tile n).state ≠ 1 → ((s.coreAt core).tile n).state ≠ 3 → ((s.coreAt core).tile n).state < 4 → s.waitEnds core cx false (.tile n)
  | markGone (ch copy goal : Nat) (d : Reg) : (Tab.get Chan.reset (s.coreAt core).chans ch).copy ≠ some copy → s.waitEnds core cx false (.wmark ch copy goal d)
  | mark (ch copy goal : Nat) (d : Reg) : goal ≤ (Tab.get Chan.reset (s.coreAt core).chans ch).mark → s.waitEnds core cx false (.wmark ch copy goal d)
  | answered (d : Reg) (v : Word) : s.waitEnds core cx true (.wmEnd d v)
  | image (key : Nat) : flag (s.rdW key) 0 = false → s.waitEnds core cx false (.pend key)
  | translations (reqs commits kind asid va : Nat) (pkg : Bool) : s.translatedOpen reqs commits = false →
      s.waitEnds core cx false (.tlbi reqs commits kind asid va pkg)
  /-- Waits that the context looks at again of itself: a watermark over memory, earlier accesses, room at a destination. -/
  | again (w : Wait) : (∃ off, w = .mark off) ∨ w = .drain ∨ w = .room → s.waitEnds core cx false w

/-- A parked context may go on: what it waits for has come about, and, but for a bare wait, every presence bit is set (01 R13). -/
def State.mayGoOn (s : State) (core cx : Nat) (w : Wait) : Prop :=
  ∃ bare, s.waitEnds core cx bare w ∧ (bare = true ∨ (s.ctxAt core cx).regs.allPresent = true)

/-- A context that watches a line that was written looks again (09 R251). -/
def Ctx.looksAgain (c : Ctx) (line : Nat) : Ctx :=
  match c.run with
  | .parked (.watch l) => if l = line then { c with run := .runnable } else c
  | .parked (.version l _) => if l = line then { c with run := .runnable } else c
  | _ => c

/-- A context that waits in the sense of 08 R223. -/
def Ctx.waits (c : Ctx) : Prop :=
  (∃ l, c.run = .parked (.watch l)) ∨ (∃ m, c.run = .parked (.mbox m)) ∨ c.run = .parked .seen ∨ c.run = .parked .barrier ∨ ∃ l g, c.run = .parked (.version l g)

end Sys2Proof.Machine
end

