-- ==== Sys2Proof/Safety/Launches.lean ====
section
/-! DEFINITION. The words of the claims about launches and boundaries: the Paddock, launch queues, the nine conditions of a record, completion, deferred effects, PREEMPT and moves (08, 21, 22, 24). -/

namespace Sys2Proof.Machine

/-- A core can take a task from its die: it is placeable, and context cx, its lowest free low context, has no work of the core's own. -/
def State.freeFor (s : State) (p cx : Nat) : Prop := s.dispatchable p = true ∧ s.lowestFree p cx ∧ s.fillFrom p cx = none

/-- p is the least-loaded placeable core of a list, the first among equals. -/
def State.Least (s : State) (l : List Nat) (p : Nat) : Prop :=
  ∃ a b, l = a ++ p :: b ∧ s.placeable p = true ∧ (∀ q ∈ a, s.placeable q = true → s.load p < s.load q) ∧ (∀ q ∈ b, s.placeable q = true → s.load p ≤ s.load q)

/-- The cores of a launch on a die that a task's class admits; class 0 admits all (00 Table 0.3, 08 R218). -/
def State.classCores (s : State) (l : Launch) (die cls : Nat) : List Nat := (s.coresOf l die).filter (fun p => cls == 0 || colClass p == cls)

/-- The head of a queue goes to core p: the least-loaded core of its class, or, where none of the class can take it and it has been at the head
for 10 µs, of any class (08 R218). -/
def State.Places (s : State) (die : Nat) (t : Task) (p : Nat) : Prop :=
  ∃ l, s.launch? t.launch = some l ∧ (s.Least (s.classCores l die t.cls) p
    ∨ ((∀ q ∈ s.classCores l die t.cls, s.placeable q = false) ∧ t.headAt.getD t.since + 10 * Config.tickUs ≤ s.time ∧ s.Least (s.coresOf l die) p))

/-- The queue without its head: the next record reaches the head now. -/
def nextHead (time : Nat) : List Task → List Task
  | [] => []
  | t :: l => { t with headAt := some time } :: l

/-- The task t, which was the head of queue q, runs in context cx of core p. -/
def State.dispatched (s t : State) (die q : Nat) (k : Task) (l : List Task) (p cx : Nat) : Prop :=
  Begins (t.ctxAt p cx) (s.ctxAt p cx) (s.launchOr k.launch) cx ((s.launchOr k.launch).lowestLid p) k.pc (W k.id) k.arg0 k.arg1 (W k.path) (W k.id) false []
  ∧ t.dieAt die = { s.dieAt die with paddock := Tab.set (s.dieAt die).paddock q (nextHead s.time l) }
  ∧ (∀ x y, ctxKey x y ≠ ctxKey p cx → t.ctxAt x y = s.ctxAt x y) ∧ t.cores = s.cores ∧ t.mem = s.mem

/-- Queue q has a record to give: enabled, without error, not empty, and, with SER, none of its launches is still to end. -/
def State.lqReady (s : State) (q : Nat) : Prop :=
  flag (s.lq q).ctl 8 = true ∧ (s.lq q).err = false ∧ (s.lq q).head ≠ (s.lq q).tail
  ∧ (flag (s.lq q).ctl 9 = true → ∀ l ∈ s.launches, l.src.queue = some q → l.phase = 2)

/-- How many queues after the last one served queue q comes in turn. -/
def State.lqTurn (s : State) (q : Nat) : Nat := (q + 32 - (s.sys.lqLast + 1) % 32) % 32

/-- Queue q is the one that is served: the first in round robin of those with a record to give. -/
def State.lqNext (s : State) (q : Nat) : Prop := q < 32 ∧ s.lqReady q ∧ ∀ p < 32, s.lqReady p → s.lqTurn q ≤ s.lqTurn p

/-- The state with queue q last served, and its registers. -/
def State.lqServed (s : State) (q : Nat) (l : LQueue) : State := { s with sys := { s.sys with lqLast := q, lqs := Tab.set s.sys.lqs q l } }

/-- The nine conditions of 08 R210, in the order of the rule. -/
def State.rejections (s : State) (l : Launch) : List Bool :=
  [l.reserved,
   l.rectw == 0 || l.recth == 0 || decide (64 < l.x0 + l.rectw) || decide (32 < l.y0 + l.recth),
   l.blk 0 == 0 || l.blk 1 == 0,
   !(l.stack % 64 == 0 && decide (1024 ≤ l.stack)
      && (l.ovf == 0 || (l.ovf.toNat % 64 == 0 && decide (0x10000000000 ≤ l.ovf.toNat) && decide (l.ovf.toNat < 2 ^ 52)))),
   decide (60 < fld (l.word 8) 63 48),
   decide (0x180000 < 5 * l.stack + 4096 * l.cspl + 64 * l.dqsp + 16384 + 0x10000),
   l.regionBad l.dlo l.dhi || l.regionBad l.mlo l.mhi,
   l.privl && l.src.user,
   !l.waitrdy && !s.coversReady l]

/-- Record l completes with status st and ARGW argw as t: nothing for CPL = 0; the 32 bytes of 08 Table 8.4 written through the launch's
translation; or, where they cannot be written, a log entry (08 R459). -/
inductive State.Completes (s : State) (l : Launch) (st : Nat) (argw : Word) : State → Prop
  | noRecord : l.cpl = 0 → s.Completes l st argw s
  | written (h : Home) : l.cpl ≠ 0 → s.completionHome l = some h → s.homeDown h = false → s.homeBad h 32 = false → s.keyHeld h.key = false →
      s.homeLost h = false → s.canPut h 32 .other = true → s.repOpen h 32 = false → (∀ p off, h = .spad p off → s.marked p off 32 = false) →
      s.Completes l st argw (s.put h (wordsBytes [W (l.nfail % 2 ^ 32 * 2 ^ 32 + l.eff % 2 ^ 12 * 2 ^ 16 + st), argw, l.addrw,
        W (l.flid % 2 ^ 32 * 2 ^ 32 + l.id % 2 ^ 32)]) .other)
  | lost : l.cpl ≠ 0 → (s.completionHome l = none ∨ ∃ h, s.completionHome l = some h ∧ (s.homeDown h = true ∨ s.homeBad h 32 = true)) →
      s.Completes l st argw (s.logWith .completion 0 (bytesOf 8 l.id ++ bytesOf 8 l.cpl.toNat))

/-- The launch has ended: its record says so, and its queue's vector is signalled if the queue asks for it (24 R444). -/
def State.ended (s : State) (l : Launch) : State :=
  let t := { s with launches := s.launches.map (fun x => if x.id = l.id then { x with phase := 2 } else x) }
  match l.src.queue with
  | some q => if flag (t.lq q).ctl 10 then t.msix (fld (t.lq q).ctl 23 16) else t
  | none => t

/-- The state with context cx of a core as the executing one. -/
def State.asOf (s : State) (core cx : Nat) : State := { s with pid := core, cx := cx }

/-- The context stands between two instructions: it is occupied, awaits no answer to its instruction, every register is present, and SH is
free or is the context itself (06 R152, 08 R201). -/
structure State.Standing (s : State) (core cx : Nat) : Prop where
  run : (s.ctxAt core cx).run ≠ .free
  answered : (s.ctxAt core cx).run ≠ .parked .reply ∧ (s.ctxAt core cx).run ≠ .stalled .reply
  ended : ∀ d v, (s.ctxAt core cx).run ≠ .parked (.wmEnd d v) ∧ (s.ctxAt core cx).run ≠ .stalled (.wmEnd d v)
  seen : (s.ctxAt core cx).run ≠ .parked .seen
  sh : cx = 4 ∨ (s.ctxAt core 4).run = .free
  present : (s.ctxAt core cx).regs.allPresent = true

/-- No effect of an earlier kind comes first: no RESUMED to seek, and no held effect that can be delivered. -/
def Ctx.nothingBefore (c : Ctx) : Prop := c.resumed = none ∧ (c.sysBusy = true ∨ c.held = [])

/-- The system effect r is taken by context cx of a core as t, from u, where it has left the queue it waited in: the system handler is entered
with the next instruction as continuation; while that handler runs the effect is held; without a handler the context ends (06 R155). -/
def State.TakesSystem (u t : State) (core cx : Nat) (r : Raise) : Prop :=
  ((u.coreAt core).shandler ≠ 0 → (u.ctxAt core cx).sysBusy = false →
    EnteredSystem ((u.unpark core cx).asOf core cx) (t.asOf core cx) r (u.ctxAt core cx).pc)
  ∧ ((u.coreAt core).shandler ≠ 0 → (u.ctxAt core cx).sysBusy = true → t = u.modCtxAt core cx (fun c => { c with held := c.held ++ [r] }))
  ∧ ((u.coreAt core).shandler = 0 → t = (u.unpark core cx).endFail core cx r.eff r.arg r.addr)

/-- The events that deliver a pending effect of the system class, with its id (03 R81; 09 R231; 16 R367; 17 R393; 24 R436). -/
noncomputable def boundaryForms (core cx : Nat) : List (Instr × Nat) :=
  [(.numericDeferred core cx, 0x00A), (.memerrDeferred core cx, 0x006), (.deadmsg core cx, 0x00C), (.peerStorePerm core cx, 0x005)]

/-- The effect r, sought on the chain of context cx of a core, is taken as t: by the frame f that the search finds, or, where it finds none, the
context ends (06 R147, R151, R152). -/
def State.TakesFrame (u t : State) (core cx : Nat) (r : Raise) : Prop :=
  (∀ f, u.search core (u.ctxAt core cx).stat.sup r.eff 4096 (u.ctxAt core cx).hf.toNat = .frame f → f.multi = false → f.cap < 0x180000 → u.badLocal core f.cap 8 = false →
    EnteredFrame (u.asOf core cx) (t.asOf core cx) f r r.addr (u.ctxAt core cx).pc)
  ∧ (u.search core (u.ctxAt core cx).stat.sup r.eff 4096 (u.ctxAt core cx).hf.toNat = .none → t = u.endFail core cx r.eff r.arg r.addr)

/-- Nothing else is due at the context's next boundary, and its system handler does not run. -/
structure Ctx.Quiet (c : Ctx) : Prop where
  resumed : c.resumed = none
  held : c.held = []
  pend : c.pend = []
  busy : c.sysBusy = false

/-- A PREEMPT requested for low context cx of a core may land: no HMASK window is open (06 R167, 21 R404). -/
structure State.Preemptible (s : State) (core cx : Nat) : Prop where
  low : cx < 4
  asked : (s.coreAt core).rq.getLsbD cx = true
  open_ : (s.ctxAt core cx).masked s.time = false
  stands : s.Standing core cx
  quiet : (s.ctxAt core cx).Quiet

/-- The context is parked, or the instruction at its PC is a switch point (08 R224). -/
def State.AtSwitchPoint (s : State) (core cx : Nat) : Prop :=
  (∃ w, (s.ctxAt core cx).run = .parked w) ∨ ∃ w, s.nextWord core cx = some w ∧ switchPoint w = true

/-- The state with the PREEMPT request of a low context taken back. -/
def State.granted (s : State) (core cx : Nat) : State :=
  (s.modCoreAt core (fun k => { k with rq := setBit k.rq cx false })).modCtxAt core cx (fun c => { c with preemptAt := none })

/-- The state t after a write of v to a core's PREQ: RSN is v[15:8]; RQ bit cx is set where v[cx] is one and the low context is occupied, and
stays as it was otherwise (21 R404). -/
structure State.PreqWritten (s t : State) (core : Nat) (v : Word) : Prop where
  rsn : (t.coreAt core).rsn = fld v 15 8
  rq : ∀ cx < 4, (t.coreAt core).rq.getLsbD cx = ((s.coreAt core).rq.getLsbD cx || (flag v cx && (s.ctxAt core cx).run != .free))
  raised : ∀ cx < 4, flag v cx = true → (s.ctxAt core cx).run ≠ .free →
    t.ctxAt core cx = { s.ctxAt core cx with preemptAt := some ((s.ctxAt core cx).preemptAt.getD s.time) }
  kept : ∀ q y, y < 8 → ¬ (q = core ∧ y < 4 ∧ flag v y = true ∧ (s.ctxAt core y).run ≠ .free) → t.ctxAt q y = s.ctxAt q y
  cores : ∀ q, q ≠ core → t.coreAt q = s.coreAt q
  rest : t.mem = s.mem ∧ t.net = s.net ∧ t.vers = s.vers ∧ t.launches = s.launches ∧ t.sys = s.sys ∧ t.dies = s.dies ∧ t.copies = s.copies

/-- A write of MIGR by the context is turned away: the context does not handle a MIGRATE, or the word names another core than the reserved
one (22 R423). -/
def Ctx.RefusesMove (c : Ctx) (v : Word) : Prop :=
  c.sysBusy = false ∨ c.sysRec.state ≠ 1 ∨ c.sysRec.effid ≠ 0x012 ∨ c.reserve ≠ some (fld v 10 0)

/-- Ask i is a register write on its way to context cx of a core, and no earlier one of its sender to that core is still on its way (21 R415). -/
structure State.WriteComes (s : State) (i : Nat) (a : Asked) (rest : List Asked) (core cx reg : Nat) (v : Word) : Prop where
  here : s.net.asks[i]? = some a
  rest : rest = s.net.asks.eraseIdx i
  ask : a.ask = .sysWr core cx reg v
  first : ∀ b ∈ s.net.asks.take i, b.pid = a.pid → b.cx = a.cx → ∀ x r w, b.ask ≠ .sysWr core x r w

/-- A wait in WMWAIT has got its answer. -/
def Run.MarkEnded (a b : Run) : Prop :=
  ∃ ch id goal d v, (a = .parked (.wmark ch id goal d) ∧ b = .parked (.wmEnd d v)) ∨ (a = .stalled (.wmark ch id goal d) ∧ b = .stalled (.wmEnd d v))

/-- Context y of core q is as before, but that a wait in WMWAIT on a core whose channel is freed may have got its answer (15 R350). -/
def State.SameButMark (s t : State) (core q y : Nat) : Prop :=
  ∃ r, t.ctxAt q y = { s.ctxAt q y with run := r } ∧ (r = (s.ctxAt q y).run ∨ (q = core ∧ (s.ctxAt q y).run.MarkEnded r))

/-- The state t after context cx of a core has moved to a target core: the context goes on there under the same number; on the source it is free;
the target's scratchpad holds the source's areas; the channels of the context's open copies are open on the target (22 R423, 23 R427). The counts
of starts and of system effects go on from the later one (06 R154, R158). -/
structure State.Moved (s t : State) (core cx target : Nat) : Prop where
  there : t.ctxAt target cx = { s.ctxAt core cx with
    run := .runnable, migr := none, preemptAt := none, startAt := s.time
    starts := laterCount (s.ctxAt target cx).starts (s.ctxAt core cx).epoch, sysGen := laterCount (s.ctxAt target cx).sysGen (s.ctxAt core cx).sysGen }
  here : t.ctxAt core cx = (s.ctxAt core cx).freed
  others : ∀ q y, y < 8 → ¬ (q = core ∧ y = cx) → ¬ (q = target ∧ y = cx) → s.SameButMark t core q y
  channels : ∀ x ∈ s.copies, x.act = (s.ctxAt core cx).act → (∀ y ∈ s.copies, y.act = (s.ctxAt core cx).act → y.ch = x.ch → y.id = x.id) →
    (Tab.get Chan.reset (t.coreAt target).chans x.ch).copy = some x.id
  memory : t.mem = ((s.moveAreas core (s.ctxAt core cx)).foldl (fun u a => u.moveArea core target a) s).mem
  request : (t.coreAt core).rq.getLsbD cx = false
  launch : (s.ctxAt core cx).ident.launch.toNat ∈ (t.coreAt target).launches
  rest : t.vers = s.vers ∧ t.launches = s.launches ∧ t.sys = s.sys ∧ t.dies = s.dies ∧ t.copies = s.copies

/-- The packets of a state that a map change of logical id lid, from core `old` to core `target`, overtakes: those sent to the id that are on
their way to `old`. They are delivered once, at the core that the id names when it is mapped again (08 R213, 22 R425). While an id is parked in
place and nothing moves, they still arrive (21 R407). -/
def State.overtaken (s : State) (launch lid old target : Nat) (park : Bool) (p : Pkt) : Bool :=
  p.to_ == some (launch, lid) && p.dst == old && (old != target || (park && s.moving old launch))

/-- The state in which logical id lid of a launch names a target core, parked or not. Packets that the change overtakes are held while the id
is parked, before those held already; where it is not parked, they and the packets that were held for it go to that core, in order (21 R413). -/
def State.remapped (s : State) (launch lid target : Nat) (park : Bool) : State :=
  let old := (s.resolve launch lid).1
  let mine := fun (p : Pkt) => s.overtaken launch lid old target park p
  let again := fun (p : Pkt) => { p with dst := target, waits := false }
  let t := { s with launches := s.launches.map (fun (l : Launch) => if l.id = launch then { l with map := Tab.set l.map lid (target, park) } else l) }
  if park then t.modNet (fun n => { n with
    pkts := n.pkts.filter (fun p => !mine p), held := (n.pkts.filter mine).map (fun p => ⟨launch, lid, again p⟩) ++ n.held })
  else t.modNet (fun n => { n with
    held := n.held.filter (fun h => !(h.launch == launch && h.lid == lid))
    pkts := n.pkts.map (fun p => if mine p then again p else p)
      ++ (n.held.filter (fun h => h.launch == launch && h.lid == lid)).map (fun h => { h.pkt with dst := target }) })

end Sys2Proof.Machine
end

