-- ==== Sys2Proof/Safety/Homes.lean ====
section
/-! DEFINITION. The words of the claims about accesses at their homes, replicated and versioned writes, register writes and accesses from outside (10, 12, 24). -/

namespace Sys2Proof.Machine

/-- The access at place i of those in flight is piece j of request k, and may be performed: nothing of its context that must come before it
is still in flight, for a release no earlier access at all, on any replica, and its home is ready for it (01 R13; 10 R254, R279; 11 R298,
R302). -/
structure State.Performs (s : State) (i k j : Nat) (r : Req) (p : Piece) : Prop where
  place : pieceAt s.net.reqs 0 i = some (k, j)
  req : s.net.reqs[k]? = some r
  piece : r.pieces[j]? = some p
  earlier : ∀ q ∈ s.net.reqs.take k, q.act = r.act → q.pid = r.pid → q.acq = false ∧ ∀ x ∈ q.pieces, x.before p = false
  released : r.rel = true → s.inFlight r.act r.no = false
  own : ∀ x ∈ r.pieces.take j, x.before p = false
  ready : s.homeReady r p = true

/-- The home is plain memory: a scratchpad, or device memory of no versioned and no replicated page (10 R254). -/
def Home.Plain (h : Home) : Prop := (∃ q off, h = .spad q off) ∨ ∃ pa dm, h = .dev pa false false dm

/-- The state with value v of request r on its way to register d. -/
def State.brings (s : State) (r : Req) (d : Dest) (v : Val) : State := s.modNet (fun n => { n with results := n.results ++ [⟨r.pid, r.cx, r.act, d, v⟩] })

/-- The state with an access error at key k logged, and with a MEMERR that activation act meets at its next boundary (10 R270). -/
def State.erred (s : State) (k : Nat) : State := s.logEvent .uncorrectable (logSrc k) k 0

def State.memErrPends (s : State) (r : Req) (ea : Word) : State := s.addPend r.act ⟨0x006, { eff := 0x006, arg := r.iaddr, addr := ea }⟩

/-- f(old, b) of the integer operations of Table 12.1. -/
def amoValues (old b : Word) : List (Nat × Word) :=
  [(0, old + b), (1, old &&& b), (2, old ||| b), (3, old ^^^ b), (4, if old.slt b then old else b), (5, if old.slt b then b else old),
   (6, if old.ult b then old else b), (7, if old.ult b then b else old), (8, b)]

/-- The single-line commit of data to a line by a request that its line admits, where the line has room for one more version: it takes the next
timestamp, or, where it was held, the one that it has; the line's old bytes become its newest old version, and stable is the highest timestamp
below every one that still installs (10 R281, R283, R284, R286). -/
def State.lineCommitted (s : State) (line : Nat) (data : List Byte) (r : Req) : State :=
  let v := s.vline line
  let held := s.vers.singles.find? (fun x => x.line == line)
  let stamp := (held.map (fun x => x.stamp)).getD s.vers.next
  let next := if held.isSome then s.vers.next else s.vers.next + 1
  let singles := s.vers.singles.filter (fun x => !(x.line == line && x.by_ == .access r.pid r.cx r.act r.no))
  let stable := max s.vers.stable ((s.vers.commits.filterMap (fun c => c.stamp) ++ singles.map (fun x => x.stamp)).foldl min next - 1)
  let t := { s with vers := { s.vers with
    lines := Tab.set s.vers.lines line { v with ts := stamp, olds := (v.ts, s.rd line 64) :: v.olds }
    heldAt := Tab.del s.vers.heldAt line } }
  let u := t.wr line data
  { u with vers := { u.vers with
    next := next, singles := singles, stable := stable, acquires := s.vers.acquires.filter (fun e => stable < e.2) } }

/-- The write of data at offset pa of a replicated page, numbered, applied to the lead die's replica, and still to be applied by the other dies
of the mask (10 R279). -/
def State.writeNumbered (s : State) (pa dmask : Nat) (data : List Byte) (r : Req) : State :=
  let dies := (List.range 8).filter (fun d => bitOf dmask d && d != s.sys.lead)
  let t := s.wr (s.sys.lead * Config.dieBytes + pa % Config.dieBytes) data
  { t with vers := { t.vers with
    repSeq := s.vers.repSeq + 1
    reps := s.vers.reps ++ (if dies = [] then [] else [⟨s.vers.repSeq, pa % Config.dieBytes, data, dies, .access r.pid r.cx r.act r.no⟩]) } }

/-- Launch queue q holds l. -/
def State.withLq (s : State) (q : Nat) (l : LQueue) : State := { s with sys := { s.sys with lqs := Tab.set s.sys.lqs q l } }

/-- An enabling write of LQCTL is turned away: LOGN is none of 1 to 12, or the ring does not begin in device memory that launches may use. -/
def State.RefusesEnable (s : State) (q : Nat) (w : Word) : Prop :=
  fld w 3 0 = 0 ∨ 12 < fld w 3 0 ∨ Config.devBytes ≤ (s.lq q).base.toNat ∨ s.inStore (s.lq q).base.toNat = true

/-- An access of n bytes from outside at physical address pa goes through: it lies in device memory outside the version stores, and nothing holds
its line (24 R433, R434). -/
structure State.Reaches (s : State) (pa n : Nat) : Prop where
  inside : pa + n ≤ Config.devBytes
  store : s.inStore pa = false
  free : s.keyHeld pa = false

/-- The key of a soft error's place: the address itself, or, for a scratchpad (space 2), the key of its byte. -/
def errorKey (space addr : Nat) : Nat := if space = 2 then 2 ^ 48 + addr else addr

end Sys2Proof.Machine
end

