-- ==== Sys2Proof/Safety/EngineEvents.lean ====
section
/-! DEFINITION. The words of the claims about the copy engines, the sequencer and the Groom, the matrix unit and the rank unit (10, 12, 15, 16, 17). -/

namespace Sys2Proof.Machine

/-- Copy i of those in flight is c. -/
def State.hasCopy (s : State) (i : Nat) (c : Copy) : Prop := s.copies[i]? = some c

/-- The item still waits for segment k to be read. -/
def Item.wants (t : Item) (k : Nat) : Bool := match t.segs[k]? with
  | some g => g.fate == 0 && g.data.isNone
  | none => false

/-- Segment `seg` of item j of the accepted copy i may be read: every request that its activation made before the copy has been performed, on
every replica (15 R340, R356). -/
structure State.ReadsNow (s : State) (i j seg : Nat) (c : Copy) : Prop where
  here : s.hasCopy i c
  accepted : c.accepted = true
  wanted : ∃ t, c.items[j]? = some t ∧ t.wants seg = true
  first : s.inFlight c.act c.after = false

/-- The items of copy i that wait for segment `seg` have its bytes. -/
def State.segmentRead (s : State) (i seg : Nat) (data : List Byte) : State :=
  s.modCopy i (fun c => { c with items := c.items.map (fun t => if t.wants seg then { t with segs := updAt (fun g => { g with data := some data }) t.segs seg } else t) })

/-- The items of copy i that wait for segment `seg` take a fate. -/
def State.segmentFated (s : State) (i seg fate : Nat) : State :=
  s.modCopy i (fun c => ((List.range c.items.length).filter (fun j => match c.items[j]? with
    | some t => t.wants seg
    | none => false)).foldl (fun c j => c.settle j seg fate) c)

/-- A segment of item j of copy i that has been read, is not settled, and is not held at its destination. -/
structure State.CarriesSegment (s : State) (i j k : Nat) (c : Copy) (t : Item) (g : Seg) (data : List Byte) : Prop where
  here : s.hasCopy i c
  item : c.items[j]? = some t
  seg : t.segs[k]? = some g
  data : g.data = some data
  open_ : g.fate = 0
  free : s.segmentHeld c t.dst (4096 * k) (4096 * k + c.segLen k) = false

/-- Item `item` of copy i is to be reported: the oldest that has ended; Q3 has room; a receiver's header has arrived. -/
structure State.Reports (s : State) (i item : Nat) (c : Copy) (t : Item) : Prop where
  here : s.hasCopy i c
  accepted : c.accepted = true
  room : s.ownQueueLen c.act 3 < 16
  single : c.sub = false
  it : c.items[item]? = some t
  ended : c.ends.head? = some item
  landed : ∀ p n off, t.dst ≠ .recv p n off none

/-- The Q3 entry of a copy's item (15 Table 15.6). -/
def entryWord (st ch pos off notd : Nat) : Word := W (st * 2 ^ 62 + ch % 8 * 2 ^ 59 + pos % 16 * 2 ^ 55 + off % 2 ^ 24 * 2 ^ 24 + notd % 2 ^ 24)

/-- Every other item of the copy has been reported. -/
def Copy.LastItem (c : Copy) (item : Nat) : Prop := ∀ j u, j ≠ item → c.items[j]? = some u → u.closed = true

/-- The state in which a line has a new current version with timestamp ts and bytes data; the old bytes are its newest old version; the lock is
released (10 R283). -/
def State.lineInstalled (s : State) (line ts : Nat) (data : List Byte) : State :=
  let v := s.vline line
  let t := { s with vers := { s.vers with
    lines := Tab.set s.vers.lines line { v with ts := ts, olds := (v.ts, s.rd line 64) :: v.olds }
    heldAt := Tab.del s.vers.heldAt line } }
  let u := t.wr line data
  { u with vers := { u.vers with lines := Tab.set u.vers.lines line { ts := ts, olds := (v.ts, s.rd line 64) :: v.olds, lock := none } } }

/-- The bytes of a line with the logged ones laid over it (12 R327). -/
def lineWith (old data : List Byte) (mask : Nat) : List Byte := (List.range 64).map (fun i => if bitOf mask i then data.getD i 0 else old.getD i 0)

/-- A context waits for the answer to the instruction at its PC. -/
def State.waitsFor (s : State) (p x act : Nat) : Prop := (s.ctxAt p x).act = act ∧ ((s.ctxAt p x).run = .parked .reply ∨ (s.ctxAt p x).run = .stalled .reply)

/-- Commit c is the one at place i. -/
def State.hasCommit (s : State) (i : Nat) (c : Commit) : Prop := s.vers.commits[i]? = some c

/-- The state in which a commit is refused: it holds no lock, and is gone; its context's log is empty, CFL is set, and its COMMIT has completed
(10 R283, 12 R327). -/
def State.refusedCommit (s : State) (c : Commit) : State :=
  (s.endCommit c.id).modCtxAt c.pid c.cx (fun x => { x with tx := { x.tx with logn := 0, cfl := true }, pc := x.pc + 4, run := .runnable })

/-- A snapshot n is revoked: it is live no more, and its holder knows (10 R286). -/
def State.snapGone (s : State) (n : Snap) : State := ({ s with vers := { s.vers with snaps := s.vers.snaps.filter (fun m => m != n) } }).tellLoss n.act

/-- The live snapshot n is the one that is revoked first: the lowest timestamp, then the one opened first. -/
def State.FirstSnap (s : State) (n : Snap) : Prop :=
  n ∈ s.vers.snaps ∧ ∀ m ∈ s.vers.snaps, m ≠ n → n.ts < m.ts ∨ (n.ts = m.ts ∧ n.seq < m.seq)

/-- No image of a saved context belongs to the activation: it runs, or it has ended. -/
def State.NotSaved (s : State) (act : Nat) : Prop := ∀ v ∈ s.saved, v.hid.act ≠ act

/-- No byte of memory is in error (10 R270). -/
def State.Sound (s : State) : Prop := ∀ k n, s.bad k n = false

/-- Output n = 32 × i + j of a command of the block arithmetic, where it is an element of Tc: the exact integer sum by 03 R86, or the
floating-point sum by 03 R84 and R85; the old value of the accumulator is 0 under AZ (16 R360, R363). -/
def State.outcome (s : State) (core : Nat) (m : MCmd) (n : Nat) : Option Res :=
  match m.tc.addr (m.row (n / 32)) (m.col (n % 32)) with
  | none => none
  | some _ =>
    let c := if m.az then 0 else s.elem core m.tc (m.row (n / 32)) (m.col (n % 32))
    some (if m.tc.fmt = 4 then
        intRule 4 m.sat (intOf 4 c + (if m.neg then -1 else 1) * (s.matTerms core m (n / 32) (n % 32)).foldl (fun (z : Int) t =>
          z + (if m.ta.fmt = 7 then dp8 t.2.1 else intOf m.ta.fmt t.2.1) * (if m.tb.fmt = 7 then dp8 t.2.2 else intOf m.tb.fmt t.2.2)) 0)
      else s.floatOut core m (n / 32) (n % 32) c)

/-- The block of an MMA, MMAR or MMASP written (16 R363). -/
def State.blockWritten (s : State) (core : Nat) (m : MCmd) : State :=
  (List.range 1024).foldl (fun t n => match s.outcome core m n with
    | some r => t.setElem core m.tc (m.row (n / 32)) (m.col (n % 32)) r.code
    | none => t) s

/-- The memory after the command m: the block of an MMA, MMAR or MMASP; the elements of ACCRD, ACCZ and MSCL (16 R363, R371 to R373). -/
def State.matrixResult (s : State) (core : Nat) (m : MCmd) : State :=
  if m.kind < 3 then s.blockWritten core m
  else if m.kind = 3 then m.ta.cells.foldl (fun t c =>
    let r := roundNum m.tc.fmt m.tc.rnd m.sat (m.draw m.tc.rnd (c.1 * m.ta.cols + c.2)) (numOf m.ta.fmt (t.elem core m.ta c.1 c.2))
    let u := t.setElem core m.tc c.1 c.2 r.code
    if m.az then u.setElem core m.ta c.1 c.2 0 else u) s
  else if m.kind = 4 then m.tc.cells.foldl (fun t c => t.setElem core m.tc c.1 c.2 0) s
  else m.tc.cells.foldl (fun t c =>
    let k := m.factor.toNat % 2 ^ fmtWidth m.tc.fmt
    let x := t.elem core m.tc c.1 c.2
    let r := if m.tc.fmt = 4 then intRule 4 m.sat (intOf 4 x * intOf 4 k)
      else fMul m.tc.fmt ⟨m.tc.rnd, m.sat, m.draw m.tc.rnd⟩ (c.1 * m.tc.cols + c.2) (numOf m.tc.fmt x) (numOf m.tc.fmt k)
    t.setElem core m.tc c.1 c.2 r.code) s

/-- Command m, at place n of those that wait in the unit, is the one that runs: every status entry left is held by a full Q1, its context has
none, the context of an earlier command has one, and all that it reads can be read (16 R364, R366; 15 R356). -/
structure State.MatrixNext (s : State) (core n : Nat) (m : MCmd) : Prop where
  here : (s.matUnit core).cmds[n]? = some m
  full : ∀ e ∈ (s.matUnit core).stat, 16 ≤ s.ownQueueLen e.act 1
  pushed : ∀ e ∈ (s.matUnit core).stat, e.act ≠ m.act
  first : ∀ j c, j < n → (s.matUnit core).cmds[j]? = some c → ∃ e ∈ (s.matUnit core).stat, e.act = c.act
  ready : s.matReady core m = true

/-- What the command m of the rank unit does, by kind: RSORT, REMIT, RKDENSE, RKGRAD. -/
def State.rankWork (s : State) (core : Nat) (m : RCmd) : RDone :=
  if m.kind = 0 then s.runSort core m else if m.kind = 1 then s.runEmit core m else if m.kind = 2 then s.runDense core m else s.runGrad core m

/-- A Q9 entry (17 Table 17.3). -/
def rankWord (kind tile fl ntgt nanc cnt : Nat) : Word :=
  W (kind * 2 ^ 62 + tile % 32 * 2 ^ 57 + fl % 128 * 2 ^ 49 + ntgt * 2 ^ 45 + nanc % 2 ^ 13 * 2 ^ 16 + cnt % 2 ^ 13)

/-- Stream n of a core after an entry e of slot p has entered the sums (17 R387). -/
def State.summed (s : State) (core : Nat) (t : Strm) (p e : Nat) : Strm :=
  let k := Tab.get 0 t.did p
  let g := if t.free then k else k * t.np + p
  { t with
    sums := ((List.range t.sums.length).zip t.sums).map (fun x => x.2 + (if bitOf e 15 then -1 else 1) * s.rankWeight core t.tw x.1 (bitsOf e 11 0)
      * (((s.rankUnit core).seqOf t.seq).weight g : Int))
    did := Tab.set t.did p (k + 1) }

end Sys2Proof.Machine
end

