-- ==== Sys2Proof/Safety/Farrier.lean ====
section
/-! DEFINITION. The words of the claims about the Farrier, the power caps and the Trace ports (22, 24, 25). -/

namespace Sys2Proof.Machine

/-- The mailbox after the host has written the request `req` of a command and FMCMD, while none ran: the command runs, with its
reply and result to come. -/
def State.begins (s t : State) (op len : Nat) (req reply : List Byte) (res : Nat) : State :=
  { t with
    mem := Memory.wrs s.mem (2 ^ 53 + 0x51000) req
    ue := (s.wr (2 ^ 53 + 0x51000) req).ue, net := (s.wr (2 ^ 53 + 0x51000) req).net
    sys := { t.sys with fmcmd := W (len * 2 ^ 16 + op), fmrun := some ⟨reply, res⟩ } }

/-- What a step leaves that writes FMCMD while a command runs. -/
def State.overrun (s : State) : State := { s with sys := { s.sys with fmovr := true } }

/-- The log after an entry of severity v from source n is written: the newest one, the oldest of 65,536 gone (25 R449). -/
def State.LoggedBy (s t : State) (v n : Nat) : Prop :=
  ∃ e : LogEntry, e.sev = v ∧ e.src = n ∧ e.seq = s.sys.logSeq % 2 ^ 32 ∧ e.time = (s.time - s.sys.powerAt) / Config.tickUs
    ∧ t.sys.log = (if 65536 ≤ s.sys.log.length then (s.sys.log ++ [e]).drop 1 else s.sys.log ++ [e]) ∧ t.sys.logSeq = s.sys.logSeq + 1

/-- MSI-X vectors sent between s and t, where none of them is masked. -/
def State.Signals (s t : State) (l : List Nat) : Prop :=
  (∀ v ∈ l, s.sys.msiMask.getLsbD v = false) → t.sys.msiSent = s.sys.msiSent ++ l

/-- What the package leaves outside the Farrier between s and t: everything. -/
def State.OnlySys (s t : State) : Prop := t = { s with sys := t.sys }

/-- Nothing of what the dies and stacks held: no context, launch, packet or copy, and memory only outside the package (25 R447). -/
def State.WithoutPower (s t : State) : Prop :=
  t.ctxs = State.reset.ctxs ∧ t.cores = State.reset.cores ∧ t.launches = [] ∧ t.copies = [] ∧ t.net = State.reset.net ∧ t.vers = State.reset.vers
  ∧ (∀ k, 2 ^ 50 ≤ k → k < 2 ^ 53 → Memory.rd t.mem k = Memory.rd s.mem k) ∧ (∀ k, ¬ (2 ^ 50 ≤ k ∧ k < 2 ^ 53) → Memory.rd t.mem k = 0)

/-- A trip with a reading of source n: power goes, READY clears but for FAR, and severity 3 is logged (25 R447). -/
def State.Trips (s t : State) (n : Nat) : Prop :=
  s.WithoutPower t ∧ t.isReady 0 = s.isReady 0 ∧ (∀ i, 0 < i → i < 192 → t.isReady i = false) ∧ t.sys.tripped = true
  ∧ s.LoggedBy t 3 n ∧ s.Signals t [255, 255]

/-- READY bits between s and t: bit n is `on`, every other bit is unchanged (25 R445). -/
def State.ReadyIs (s t : State) (n : Nat) (on : Bool) : Prop := ∀ i < 192, t.isReady i = if i = n then on else s.isReady i

/-- What a READY change leaves: the bit, an entry of the Farrier, vector 255 (25 R445, R449, R454). -/
def State.ReadyChange (s t : State) (n : Nat) (on : Bool) : Prop :=
  s.OnlySys t ∧ s.ReadyIs t n on ∧ s.LoggedBy t 0 0 ∧ s.Signals t [255] ∧ t.sys.lead = s.sys.lead ∧ t.sys.lval = s.sys.lval
  ∧ t.sys.failed = s.sys.failed ∧ t.sys.msiMask = s.sys.msiMask ∧ t.sys.powerAt = s.sys.powerAt

/-- Taking READY bit n away, and then the degraded entry of source `src` (25 R448). -/
def State.TakenOut (s t : State) (n src : Nat) : Prop :=
  s.OnlySys t ∧ s.ReadyIs t n false ∧ s.Signals t [255, 255] ∧ ∃ u, s.LoggedBy u 0 0 ∧ u.LoggedBy t 2 src

/-- The checks of the boot ROM on a firmware bank (25 R450). -/
def Bank.Passes (b : Bank) (rollback : Nat) : Prop :=
  Config.ed448Verify Config.publicKey (Config.headerBytes b.version b.secver b.digest) b.sig = true ∧ b.digest = Config.shake256 b.digest.length b.body
  ∧ rollback ≤ b.secver

def State.bankAt (s : State) (n : Nat) : Bank := s.sys.banks.getD n ⟨0, 0, [], [], []⟩

/-- What reset and loss of power leave: the log, the rollback counter and the active bank with its image; a stage is over; nothing of dies and stacks; memory only outside the package
(25 R445, R449, R451). -/
def State.Restarted (s t : State) : Prop :=
  s.WithoutPower t ∧ (∀ n < 192, t.isReady n = false) ∧ t.sys.log = s.sys.log ∧ t.sys.logSeq = s.sys.logSeq ∧ t.sys.rollback = s.sys.rollback
  ∧ t.sys.active = s.sys.active ∧ (s.sys.active < 2 → t.bankAt s.sys.active = s.bankAt s.sys.active) ∧ (s.sys.stage = none → t.sys.banks = s.sys.banks)
  ∧ t.sys.stage = none ∧ t.sys.tripped = false ∧ t.sys.lval = false ∧ t.sys.fmrun = none ∧ t.agenda = s.agenda

/-- The cap in force (22 R426). -/
def Cap.inForce (c : Cap) : Nat := if c.fallen then min c.cap c.fall else c.cap

/-- The caps after a change of the record to c: a change of the cap in force is logged, and the budgets are to follow (22 R426, 25 R449). -/
def State.CapIs (s t : State) (c : Cap) : Prop :=
  s.OnlySys t ∧ t.sys.cap = { c with todo := t.sys.cap.todo } ∧ (c.inForce = s.sys.cap.inForce → t.sys.log = s.sys.log ∧ t.sys.cap.todo = s.sys.cap.todo)
  ∧ (c.inForce ≠ s.sys.cap.inForce → s.LoggedBy t 0 0 ∧ t.sys.cap.todo = some (s.sys.cap.todo.getD s.time))

/-- The beats that model m codes into one flit, of a stream (24 R438). -/
def Port.fit (p : Port) (vn m : Nat) (stream : List Byte) : Nat :=
  beatsFit m (Tab.get (firstCounts m) p.tables (codeKey 0 vn m)) 15 1904 stream

/-- The model m and beats b of the next flit: the largest count that fits, the lower model on a tie; raw where none fits four (24 R438). -/
def Port.Codes (p : Port) (vn m b : Nat) (stream : List Byte) : Prop :=
  (m = 0 ∧ ∀ k, 1 ≤ k → k ≤ 4 → p.fit vn k stream < 4)
  ∨ (1 ≤ m ∧ m ≤ 4 ∧ b = p.fit vn m stream ∧ 4 ≤ b ∧ (∀ k, 1 ≤ k → k ≤ 4 → p.fit vn k stream ≤ b) ∧ (∀ k, 1 ≤ k → k < m → p.fit vn k stream < b))

/-- Core q as a target for context cx of core p, but for reservations (22 R422). -/
def State.Suits (s : State) (p q : Nat) : Prop :=
  dieOf q = dieOf p ∧ (s.clusterOfCore q).opened = true ∧ (s.clusterOfCore q).temp + 8 * 16 ≤ (s.clusterOfCore p).temp
  ∧ (∀ cx < 5, s.vacant q cx = true) ∧ (s.coreAt q).deque = []

/-- A persistent activation that may be asked to move: in a context of a core of the cluster, alone there, resident for 2 ms (22 R421). -/
def State.MayMove (s : State) (d c p cx : Nat) : Prop :=
  dieOf p = d ∧ clusterOf p = c ∧ p < 2048 ∧ cx < 4 ∧ (∃ l, (s.ctxAt p cx).started = .launch l) ∧ (s.ctxAt p cx).run ≠ .free ∧ (s.ctxAt p cx).groups ≠ []
  ∧ (s.ctxAt p cx).startAt + 2 * Config.tickMs ≤ s.time ∧ (s.ctxAt p cx).migp = none ∧ (s.ctxAt p cx).reserve = none ∧ (s.ctxAt p cx).migr = none
  ∧ (∀ n < 4, n ≠ cx → s.vacant p n = true)

/-- The power p that a leakage table gives at temperature t: below its first breakpoint the first power, from its last the last, and between
two neighbours on the line through them, rounded down (22 R418; log 9). -/
def Leaks (l : List (Nat × Nat)) (t p : Nat) : Prop :=
  (∃ a, l.head? = some a ∧ t < a.1 ∧ p = a.2) ∨ (∃ z, l.getLast? = some z ∧ z.1 ≤ t ∧ p = z.2)
  ∨ ∃ a b pre post, l = pre ++ a :: b :: post ∧ a.1 ≤ t ∧ t < b.1 ∧ p = (a.2 * (b.1 - t) + b.2 * (t - a.1)) / (b.1 - a.1)

/-- The estimate P of a cluster: the counts of its activity since the last one, each times the energy of its class, over 10 µs, and the leakage at
its temperature, one table for each operating point (22 R418). -/
def State.Estimated (s : State) (d c p : Nat) : Prop :=
  ∃ leak : Nat → Nat, (∀ n ∈ clusterPoints d c, Leaks (leakTable (clusterKey d c) n) (s.clusterAt d c).temp (leak n))
    ∧ p = ((s.clusterAt d c).acts.map (fun x => x.2 * Config.energyWeight (clusterKey d c) x.1)).sum / 10 + ((clusterPoints d c).map leak).sum

/-- An image without what may change when a cluster reopens: the pending MIGRATE of its context. -/
def Saved.still (v : Saved) : Saved := { v with hid := { v.hid with migp := none } }

end Sys2Proof.Machine
end

