-- ==== Sys2Proof/Safety/Frames.lean ====
section
/-! DEFINITION. The words of the claims about what an instruction leaves alone. -/

namespace Sys2Proof.Machine

/-- Between s and t one general register of the executing context, its PC and the turn of its core have changed, and nothing else. -/
def State.OneRegister (s t : State) (d : Reg) : Prop := SameElsewhere s t ∧ OnlyG s.ctx t.ctx d

end Sys2Proof.Machine
end

