-- ==== Sys2Proof/Certificates/Slice0/Obligations.lean ====
section
/-! DEFINITION. The statements for the provers. Each docstring says what the statement says and where a clause rests on a choice of
the model's (the assumption log's number). -/

open Sys2Proof Sys2Proof.Machine

/-- Scalar arithmetic, logic, shifts, comparisons, constants and divisions complete with the value their rules give Gd. For every
state in which each register of the executing context is present and no error waits at one: the 25 rows of two operands, the six
compact rows, SEL, the ten rows of one operand, ADDI, ANDI, ORI, XORI, the four immediate shifts, CMPI under each condition, LI,
LIH, ADDPC, LEA and the compact ADDI, LI, SHLI and SHRI each answer the next state in which Gd holds the value of the rule, the PC
has advanced by the instruction's length and nothing else has changed (with S = 1 the core then moves on). DIV, DIVU, REM and REMU
do so for a divisor that is not zero; for a divisor of zero they answer the state in which the context takes DIVZ with EFFARG the
dividend. A write of G0 changes no register. (R10, R92, R109, R110, R111, R112, R113, R114, R115, R116, R117) -/
def Obligations.ScalarResults : Prop :=
  (∀ (s : State) (sp : Bool) (d a b : Reg), s.Clean →
    (∀ r ∈ binaryRows, exec (r.1 sp d a b) s = .next (s.after sp 4 (fun c => c.setG d (r.2 (s.ctx.g a) (s.ctx.g b)))))
    ∧ (∀ r ∈ compactRows, exec (r.1 sp d a) s = .next (s.after sp 2 (fun c => c.setG d (r.2 (s.ctx.g d) (s.ctx.g a)))))
    ∧ exec (.sel sp d a b) s = .next (s.after sp 4 (fun c => c.setG d (if s.ctx.g d = 0 then s.ctx.g b else s.ctx.g a))))
  ∧ (∀ (s : State) (sp : Bool) (d a b : Reg), s.Clean → ∀ r ∈ divisionRows,
    (s.ctx.g b ≠ 0 → exec (r.1 sp d a b) s = .next (s.after sp 4 (fun c => c.setG d (r.2 (s.ctx.g a) (s.ctx.g b)))))
    ∧ (s.ctx.g b = 0 → exec (r.1 sp d a b) s = .next (s.raised { eff := 0x009, arg := s.ctx.g a })))
  ∧ (∀ (s : State) (sp : Bool) (d a : Reg), s.Clean →
    (∀ r ∈ unaryRows, exec (r.1 sp d a) s = .next (s.afterG sp 4 d (r.2 (s.ctx.g a))))
    ∧ (∀ r ∈ immediateRows, ∀ i, exec (r.1 sp d a i) s = .next (s.afterG sp 4 d (r.2 (s.ctx.g a) (i.signExtend 64))))
    ∧ (∀ r ∈ shiftRows, ∀ n, exec (r.1 sp d a n) s = .next (s.afterG sp 4 d (r.2 (s.ctx.g a) n.toNat)))
    ∧ (∀ c i, (Cond.meets c (s.ctx.g a) (i.signExtend 64) → exec (.cmpi sp c d a i) s = .next (s.afterG sp 4 d 1))
      ∧ (¬ Cond.meets c (s.ctx.g a) (i.signExtend 64) → exec (.cmpi sp c d a i) s = .next (s.afterG sp 4 d 0)))
    ∧ (∀ i, exec (.li sp d i) s = .next (s.afterG sp 4 d (BitVec.ofInt 64 i.toInt)))
    ∧ (∀ i, exec (.lih sp d i) s = .next (s.afterG sp 4 d (BitVec.ofInt 64 (i.toInt * 2 ^ 14))))
    ∧ (∀ i, exec (.addpc sp d i) s = .next (s.afterG sp 4 d (s.ctx.pc + BitVec.ofInt 64 (2 * i.toInt))))
    ∧ (∀ z i, exec (.lea sp z d a i) s = .next (s.afterG sp 4 d (s.ctx.g a + BitVec.ofInt 64 (z.bytes * i.toInt))))
    ∧ (∀ i, exec (.addiCompact sp d i) s = .next (s.afterG sp 2 d (s.ctx.g d + BitVec.ofInt 64 i.toInt)))
    ∧ (∀ i, exec (.liCompact sp d i) s = .next (s.afterG sp 2 d (BitVec.ofInt 64 i.toInt)))
    ∧ (∀ n, exec (.shliCompact sp d n) s = .next (s.afterG sp 2 d (s.ctx.g d <<< n.toNat)))
    ∧ (∀ n, exec (.shriCompact sp d n) s = .next (s.afterG sp 2 d (s.ctx.g d >>> n.toNat))))

/-- Scalar loads and stores complete: at once in the own scratchpad, by one request elsewhere. For every state in which each
register of the executing context is present and no error waits at one: each form of LD, LDX and the compact loads, on bytes of
the own scratchpad that the context can access at once, answers the next state in which Gd holds these bytes, extended as SZ and X
say; each form of ST, STX and the compact stores answers the state in which exactly the low bytes of the data register lie at the
effective address, least significant first, and every other byte reads as before (memory in canonical form). On bytes that lie at
another home, a load answers the state in which Gd awaits them and one request is on its way, and a store, if its bytes hold no
error known, the state in which one request with the bytes is on its way; both leave the translation in the TLBs. (R99, R118,
R119, R120, R121, R23, R92, R94) -/
def Obligations.ScalarMemory : Prop :=
  (∀ (s : State) (sp : Bool) (z : Size) (x : Bool) (d a b : Reg) (i : BitVec 11) (u : BitVec 5), s.Clean →
    ∀ f ∈ loadForms s sp z x d a b i u,
      (s.Local (f.base == 31) f.ea f.size →
        exec f.instr s = .next (s.afterG sp f.len f.dest
          (extend f.size f.signed (natOf (Memory.rds s.mem (2 ^ 48 + s.pid * 2 ^ 21 + f.ea.toNat) f.size)))))
      ∧ (∀ h l, s.Far .read (f.base == 31) f.ea f.size h l →
        exec f.instr s = .next (s.afterAsk sp f.len f.dest f.ea f.size f.signed false h l)))
  ∧ (∀ (s : State) (sp : Bool) (z : Size) (d a b : Reg) (i : BitVec 11) (u : BitVec 5), s.Clean →
    ∀ f ∈ storeForms s sp z d a b i u,
      (s.Local (f.base == 31) f.ea f.size →
        exec f.instr s = .next (s.afterStore sp f.len f.ea.toNat (bytesOf f.size (s.ctx.g f.dest).toNat))
        ∧ (s.memOk → ∀ j, Memory.rd (s.afterStore sp f.len f.ea.toNat (bytesOf f.size (s.ctx.g f.dest).toNat)).mem j
            = if spadKey s.pid f.ea.toNat ≤ j ∧ j < spadKey s.pid f.ea.toNat + f.size
              then BitVec.ofNat 8 ((s.ctx.g f.dest).toNat / 256 ^ (j - spadKey s.pid f.ea.toNat)) else Memory.rd s.mem j))
      ∧ (∀ h l, s.Far .write (f.base == 31) f.ea f.size h l → s.homeBad h f.size = false →
        exec f.instr s = .next (s.afterSend sp f.len f.ea (bytesOf f.size (s.ctx.g f.dest).toNat) false h l)))

/-- Branches, LOOP, JR, calls and returns: targets, the return-address stack, its spill and refill, and ALIGN for odd targets. For
every state in which each register of the executing context is present and no error waits at one: BC, BZ, BR, LOOP and JR transfer
to their targets exactly when their conditions hold, an odd target of a taken transfer answers ALIGN with EFFADDR the target, a
transfer not taken goes on; LOOP on G0 is ILLEGAL; JR through a mailbox that holds nothing waits. CALL and CALLR push the return
address and the slot G31; with G31 unaligned they answer ALIGN; with 16 entries held they first store the oldest at its slot and
count it in RDEP, or at RDEP 65535 answer STACKOVF. RET pops the newest entry, with none reads the return address at G31 if RDEP
is above 0, and is ILLEGAL if RDEP is 0. The hint changes nothing. (R94, R97, R98, R124, R125, R126, R127, R128, R129, R25) -/
def Obligations.ControlTransfers : Prop :=
  (∀ (s : State) (sp : Bool) (h : Hint) (a b : Reg), s.Clean → 
    (∀ c (o : BitVec 9),
      (Cond.meets c (s.ctx.g a) (s.ctx.g b) → flag (s.relative o) 0 = false →
        exec (.bc sp h c b a o) s = .next (s.after sp 4 (·.goto (s.relative o))))
      ∧ (Cond.meets c (s.ctx.g a) (s.ctx.g b) → flag (s.relative o) 0 = true →
        exec (.bc sp h c b a o) s = .next (s.raised { eff := 0x003, addr := s.relative o }))
      ∧ (¬ Cond.meets c (s.ctx.g a) (s.ctx.g b) → exec (.bc sp h c b a o) s = .next (s.after sp 4 id)))
    ∧ (∀ c (o : BitVec 14),
      (BzCond.meets c (s.ctx.g a) → flag (s.relative o) 0 = false →
        exec (.bz sp h c a o) s = .next (s.after sp 4 (·.goto (s.relative o))))
      ∧ (BzCond.meets c (s.ctx.g a) → flag (s.relative o) 0 = true →
        exec (.bz sp h c a o) s = .next (s.raised { eff := 0x003, addr := s.relative o }))
      ∧ (¬ BzCond.meets c (s.ctx.g a) → exec (.bz sp h c a o) s = .next (s.after sp 4 id)))
    ∧ (∀ o : BitVec 24,
      (flag (s.relative o) 0 = false → exec (.br sp o) s = .next (s.after sp 4 (·.goto (s.relative o))))
      ∧ (flag (s.relative o) 0 = true → exec (.br sp o) s = .next (s.raised { eff := 0x003, addr := s.relative o })))
    ∧ (∀ o : BitVec 14,
      (a = 0 → exec (.loop sp h a o) s = .next (s.raised { eff := 0x001 }))
      ∧ (a ≠ 0 → s.ctx.g a = 1 → exec (.loop sp h a o) s = .next (s.after sp 4 (·.setG a 0)))
      ∧ (a ≠ 0 → s.ctx.g a ≠ 1 → flag (s.relative o) 0 = false →
        exec (.loop sp h a o) s = .next (s.after sp 4 (fun c => (c.setG a (s.ctx.g a - 1)).goto (s.relative o))))
      ∧ (a ≠ 0 → s.ctx.g a ≠ 1 → flag (s.relative o) 0 = true →
        exec (.loop sp h a o) s = .next (s.raised { eff := 0x003, addr := s.relative o })))
    ∧ (flag (s.ctx.g a) 0 = false →
      exec (.jr sp false a) s = .next (s.after sp 4 (·.goto (s.ctx.g a)))
      ∧ exec (.jrCompact sp a) s = .next (s.after sp 2 (·.goto (s.ctx.g a))))
    ∧ (flag (s.ctx.g a) 0 = true →
      exec (.jr sp false a) s = .next (s.raised { eff := 0x003, addr := s.ctx.g a })
      ∧ exec (.jrCompact sp a) s = .next (s.raised { eff := 0x003, addr := s.ctx.g a }))
    ∧ (s.core.mp.getLsbD a.toNat = true →
      (flag s.core.m[a.toNat] 0 = false → exec (.jr sp true a) s = .next (s.after sp 4 (·.goto s.core.m[a.toNat])))
      ∧ (flag s.core.m[a.toNat] 0 = true → exec (.jr sp true a) s = .next (s.raised { eff := 0x003, addr := s.core.m[a.toNat] })))
    ∧ (s.core.mp.getLsbD a.toNat = false → exec (.jr sp true a) s = .next ((s.block (.mboxRead a.toNat) sp).switch sp)))
  ∧ (∀ (s : State) (sp : Bool) (a : Reg) (o : BitVec 24), s.Clean → ∀ f ∈ s.callForms sp a o,
    (flag f.2 0 = true → exec f.1 s = .next (s.raised { eff := 0x003, addr := f.2 }))
    ∧ (flag f.2 0 = false → (s.ctx.g 31).toNat % 8 ≠ 0 → exec f.1 s = .next (s.raised { eff := 0x003, addr := s.ctx.g 31 }))
    ∧ (flag f.2 0 = false → (s.ctx.g 31).toNat % 8 = 0 → s.ctx.ras.length < 16 →
      exec f.1 s = .next (s.after sp 4 (fun c => { c with ras := c.ras ++ [(s.ctx.pc + 4, s.ctx.g 31)], pc := f.2 })))
    ∧ (∀ t slot rest, flag f.2 0 = false → (s.ctx.g 31).toNat % 8 = 0 → s.ctx.ras = (t, slot) :: rest → 16 ≤ s.ctx.ras.length →
      (s.ctx.rdep < 65535 → s.Local true slot 8 →
        exec f.1 s = .next ((((s.issued 4).wr (spadKey s.pid slot.toNat) (bytesOf 8 t.toNat)).modCtx
          (fun c => { c with ras := rest ++ [(s.ctx.pc + 4, s.ctx.g 31)], rdep := s.ctx.rdep + 1, pc := f.2 })).switch sp))
      ∧ (65535 ≤ s.ctx.rdep → exec f.1 s = .next (s.raised { eff := 0x008, arg := slot, stk := true }))))
  ∧ (∀ (s : State) (sp : Bool), s.Clean → ∀ f ∈ returnForms sp,
    (∀ older t slot, s.ctx.ras = older ++ [(t, slot)] → flag t 0 = false →
      exec f.1 s = .next (s.after sp f.2 (fun c => { c with ras := older, pc := t })))
    ∧ (∀ older t slot, s.ctx.ras = older ++ [(t, slot)] → flag t 0 = true →
      exec f.1 s = .next (s.raised { eff := 0x003, addr := t }))
    ∧ (s.ctx.ras = [] → s.ctx.rdep = 0 → exec f.1 s = .next (s.raised { eff := 0x001 }))
    ∧ (s.ctx.ras = [] → 0 < s.ctx.rdep → s.Local true (s.ctx.g 31) 8 →
      flag (s.rdW (spadKey s.pid (s.ctx.g 31).toNat)) 0 = false →
      exec f.1 s = .next (s.after sp f.2 (fun c => { c with rdep := s.ctx.rdep - 1, pc := s.rdW (spadKey s.pid (s.ctx.g 31).toNat) }))))

/-- DONE and HALT end the activation; NOP, IDLE, WAITA, WAITM, MTAKE and MPEEK complete or wait as their rules say. DONE, its
compact form and HALT answer a state in which the activation has ended: the context is free, what the end clears is clear, its
registers and every other context and byte of memory are as before, its join decrement is on its way; HALT also counts a failure
and, as its launch's first, records its word and logical id. In a state whose registers are present: NOP goes on; in a low context
IDLE parks for the given core cycles, or for a count of 0 until its turn comes again, WAITA writes the doubleword that differs
from Gb to Gd or parks on its line, WAITM goes on or parks; in context 4 these are ILLEGAL; MTAKE and MPEEK leave Gd absent; the
value of a mailbox that holds one not reserved before is on its way to Gd at once, the mailbox emptied by MTAKE, else the take is
queued. That WAITA and WAITM, completing at once, also give way to another context is the model's reading (log 35). (R28, R130,
R131, R132, R133, R134, R135, R136, R205, R10) -/
def Obligations.EndsAndWaits : Prop :=
  (∀ (s : State) (sp : Bool),
    (∃ t, exec (.done sp) s = .next t ∧ Ended s t s.pid s.cx ∧ t.launches.map (·.nfail) = s.launches.map (·.nfail))
    ∧ (∃ t, exec (.doneCompact sp) s = .next t ∧ Ended s t s.pid s.cx ∧ t.launches.map (·.nfail) = s.launches.map (·.nfail))
    ∧ (∀ a, s.Clean → ∃ t, exec (.halt sp a) s = .next t ∧ Ended s t s.pid s.cx
        ∧ ∀ l ∈ s.launches, l.id = s.ctx.ident.launch.toNat → l.nfail = 0 →
          ∃ k ∈ t.launches, k.id = l.id ∧ k.nfail = 1 ∧ k.eff = 0 ∧ k.argw = s.ctx.g a ∧ k.flid = s.ctx.ident.lid.toNat))
  ∧ (∀ (s : State) (sp : Bool) (d a b : Reg), s.Clean →
    exec (.nop sp) s = .next ((s.issued 4).switch sp)
    ∧ exec (.nopCompact sp) s = .next ((s.issued 2).switch sp)
    ∧ (s.cx ≠ 4 →
      exec (.idle sp a) s = .next (((s.issued 4).modCtx (fun c => { c with
        run := .parked (if fld (s.ctx.g a) 31 0 = 0 then .idleTurn s.time else .idle (s.time + fld (s.ctx.g a) 31 0 * Config.coreTicks s.pid))
        since := s.time })).switch true)
      ∧ (∀ h l, s.Watchable (s.ctx.g a) h l →
        (s.wordAt h ≠ s.ctx.g b → exec (.waita sp d a b) s =
          .next ((((s.issued 4).translated (s.ctx.g a) l).modCtx (fun c => c.setG d (s.wordAt h))).switch true))
        ∧ (s.wordAt h = s.ctx.g b → exec (.waita sp d a b) s = .next (s.parks (.watch (lineOf (h.readKey s.sys.lead s.pid))))))
      ∧ (s.core.mp.getLsbD a.toNat = true → exec (.waitm sp a) s = .next ((s.issued 4).switch true))
      ∧ (s.core.mp.getLsbD a.toNat = false → exec (.waitm sp a) s = .next (s.parks (.mbox a.toNat))))
    ∧ (s.cx = 4 → ∀ i ∈ [Instr.idle sp a, .waita sp d a b, .waitm sp a], exec i s = .next (s.raised { eff := 0x001 }))
    ∧ (∀ u, u = (s.issued 4).modCtx (fun c => { c with regs := c.regs.setPresent false (.g d) }) →
      (∀ f ∈ [(Instr.mtake sp d a, false), (.mpeek sp d a, true)],
        (s.core.mp.getLsbD a.toNat = false ∨ (f.2 = false ∧ ∃ t ∈ s.core.takes, t.m = a.toNat ∧ t.peek = false)) →
        exec f.1 s = .next ((u.modCore (fun k => { k with takes := k.takes ++ [⟨a.toNat, s.cx, s.ctx.act, d, f.2⟩] })).switch sp))
      ∧ (s.core.mp.getLsbD a.toNat = true →
        exec (.mpeek sp d a) s = .next ((u.sendResult (.g d) (.g s.core.m[a.toNat])).switch sp)
        ∧ ((∀ t ∈ s.core.takes, t.m = a.toNat → t.peek = true) →
          exec (.mtake sp d a) s = .next (((u.sendResult (.g d) (.g s.core.m[a.toNat])).emptyMailbox s.pid a.toNat).switch sp)))))

/-- MFS and MTS: every special register, with the privilege and access checks first. For every state in which each register of the
executing context is present and no error waits at one: MFS reads each special register that the tables name, at its level, into
Gd; MTS writes each writable one, changing the bits the tables give and nothing else; SKLO, SKHI and OVF are written only if the
carve-out stays valid, else ILLEGAL with the value; at user level a number from 0x100 on and a supervisor-only write answer PRIV;
a write of a read-only register and a read of the listed unassigned numbers answer ILLEGAL. A write of PTROOT keeps bits 47:0.
(R14, R15, R16, R22, R123, R137, R272, R404, R419) -/
def Obligations.SpecialRegisterAccess : Prop :=
  (∀ (s : State) (sp : Bool) (d : Reg), s.Clean →
    (∀ e ∈ s.userRegisters, exec (.mfs sp d (BitVec.ofNat 14 e.1)) s = .next (s.afterG sp 4 d e.2))
    ∧ (s.ctx.stat.sup = true → ∀ e ∈ s.supRegisters, exec (.mfs sp d (BitVec.ofNat 14 e.1)) s = .next (s.afterG sp 4 d e.2))
    ∧ (s.ctx.stat.sup = false → ∀ i : BitVec 14, 0x100 ≤ i.toNat → exec (.mfs sp d i) s = .next (s.raised { eff := 0x002 }))
    ∧ (∀ i : BitVec 14, i.toNat ∈ [0x06, 0x07, 0x16, 0x26, 0x35, 0x44, 0x58, 0x62, 0x74, 0x83, 0xFF] →
        exec (.mfs sp d i) s = .next (s.raised { eff := 0x001 })))
  ∧ (∀ (s : State) (sp : Bool) (a : Reg), s.Clean →
    (∀ e ∈ writeRows (s.ctx.g a), exec (.mts sp a (BitVec.ofNat 14 e.1)) s = .next (s.after sp 4 e.2))
    ∧ (s.ctx.stat.sup = true →
      exec (.mts sp a 0x30) s = .next (s.after sp 4 (fun c => { c with hf := s.ctx.g a }))
      ∧ exec (.mts sp a 0x100) s = .next (s.after sp 4 (fun c => { c with space := { c.space with ptroot := s.ctx.g a &&& 0xFFFFFFFFFFFF } }))
      ∧ ∀ e ∈ spaceRows s.ctx.space (s.ctx.g a),
        (e.2.valid → exec (.mts sp a (BitVec.ofNat 14 e.1)) s = .next (s.after sp 4 (fun c => { c with space := e.2 })))
        ∧ (¬ e.2.valid → exec (.mts sp a (BitVec.ofNat 14 e.1)) s = .next (s.raised { eff := 0x001, arg := s.ctx.g a })))
    ∧ (s.ctx.stat.sup = false → ∀ n ∈ [0x30, 0x80, 0x81, 0x82, 0x100, 0x101, 0x106],
        exec (.mts sp a (BitVec.ofNat 14 n)) s = .next (s.raised { eff := 0x002 }))
    ∧ (∀ n ∈ [0x00, 0x01, 0x02, 0x03, 0x04, 0x05, 0x08, 0x0F, 0x10, 0x15, 0x24, 0x31, 0x34, 0x50, 0x60, 0x61, 0x70],
        exec (.mts sp a (BitVec.ofNat 14 n)) s = .next (s.raised { eff := 0x001 })))

/-- The bit-stream instructions read and write fields of the ring and move BBPOS, or answer DECODE past END. For every state in
which each register of the executing context is present and no error waits at one: BSPOS, BSINIT, BSGET, BSPEEK, BSSKIP and BSEG,
on a valid ring in read mode whose bytes are accessible at once, give the field of the stream bits at BBPOS (the first bit the
least significant, bits at END or past it 0) and advance BBPOS as their rules say; a read past END answers DECODE with EFFARG the
count and changes nothing (or first waits for own accesses to the frames of the delivery); BSEG gives the exponential-Golomb value
of a code that lies before END. BSPUT and BSFLUSH, in write mode, store the whole bytes and keep the partial byte in the buffer.
BSINIT with an operand out of range answers ILLEGAL with EFFARG Ga. (R137, R138, R139, R140, R141, R142, R143, R144, R145) -/
def Obligations.BitBuffer : Prop :=
  (∀ (s : State) (sp : Bool) (d a b : Reg), s.Clean →
    exec (.bspos sp d) s = .next (s.afterG sp 4 d s.ctx.bb.pos)
    ∧ (∀ x y, x = s.ctx.g a → y = s.ctx.g b →
      (fld x 63 21 = 0 ∧ fld x 5 1 = 0 ∧ y.toNat % 64 = 0 ∧ fld x 20 6 * 64 < y.toNat ∧ y.toNat ≤ 0x180000 →
        exec (.bsinit sp a b) s = .next (s.after sp 4 (fun c => { c with bb := ⟨0, 0, 0, W (8 * (y.toNat - fld x 20 6 * 64)), x, y⟩ })))
      ∧ (¬ (fld x 63 21 = 0 ∧ fld x 5 1 = 0 ∧ y.toNat % 64 = 0 ∧ fld x 20 6 * 64 < y.toNat ∧ y.toNat ≤ 0x180000) →
        exec (.bsinit sp a b) s = .next (s.raised { eff := 0x001, arg := x })))
    ∧ (s.Readable s.ctx.bb → (s.ctx.g a).toNat ≤ 64 →
      (s.ctx.bb.pos.toNat + (s.ctx.g a).toNat ≤ s.ctx.bb.lim.toNat →
        ∃ t e, exec (.bsget sp d a) s = .next ((t : State).switch sp)
          ∧ t = (s.issued 4).modCtx (fun c => { c.setG d (W (s.field s.ctx.bb s.ctx.bb.pos.toNat (s.ctx.g a).toNat)) with bb := e })
          ∧ e.pos = s.ctx.bb.pos + s.ctx.g a ∧ e.lim = s.ctx.bb.lim ∧ e.lo = s.ctx.bb.lo ∧ e.hi = s.ctx.bb.hi)
      ∧ (s.ctx.bb.lim.toNat < s.ctx.bb.pos.toNat + (s.ctx.g a).toNat →
        exec (.bsget sp d a) s = .next (s.takes sp { eff := 0x022, arg := s.ctx.g a }))
      ∧ (∃ t e, exec (.bspeek sp d a) s = .next ((t : State).switch sp)
          ∧ t = (s.issued 4).modCtx (fun c => { c.setG d (W (s.field s.ctx.bb s.ctx.bb.pos.toNat (s.ctx.g a).toNat)) with bb := e })
          ∧ e.pos = s.ctx.bb.pos ∧ e.lim = s.ctx.bb.lim ∧ e.lo = s.ctx.bb.lo ∧ e.hi = s.ctx.bb.hi))
    ∧ (s.ctx.bb.ringOk → flag s.ctx.bb.lo 0 = false →
      (s.ctx.bb.pos.toNat + (s.ctx.g a).toNat ≤ s.ctx.bb.lim.toNat →
        ∃ e, exec (.bsskip sp a) s = .next (s.after sp 4 (fun c => { c with bb := e })) ∧ e.pos = s.ctx.bb.pos + s.ctx.g a
          ∧ ∀ j, j < s.ctx.bb.bbn.toNat - (s.ctx.g a).toNat → e.bits.getLsbD j = s.ctx.bb.bits.getLsbD (j + (s.ctx.g a).toNat))
      ∧ (s.ctx.bb.lim.toNat < s.ctx.bb.pos.toNat + (s.ctx.g a).toNat →
        exec (.bsskip sp a) s = .next (s.takes sp { eff := 0x022, arg := s.ctx.g a }))))
  ∧ (∀ (s : State) (sp : Bool) (d a b : Reg), s.Clean →
    (s.Readable s.ctx.bb → (s.ctx.g a).toNat ≤ 31 → ∀ z, z ≤ 32 →
      (∀ i, i < z → s.streamBit s.ctx.bb (s.ctx.bb.pos.toNat + i) = false) → s.streamBit s.ctx.bb (s.ctx.bb.pos.toNat + z) = true →
      s.ctx.bb.pos.toNat + 2 * z + 1 + (s.ctx.g a).toNat ≤ s.ctx.bb.lim.toNat →
      ∃ e, exec (.bseg sp d a) s = .next (s.after sp 4 (fun c => { c.setG d
          (W ((2 ^ z - 1) * 2 ^ (s.ctx.g a).toNat + s.field s.ctx.bb (s.ctx.bb.pos.toNat + z + 1) (z + (s.ctx.g a).toNat))) with bb := e }))
        ∧ e.pos = s.ctx.bb.pos + W (2 * z + 1 + (s.ctx.g a).toNat))
    ∧ (s.ctx.bb.ringOk → flag s.ctx.bb.lo 0 = true →
      (∀ j, s.ctx.bb.pos.toNat - s.ctx.bb.pos.toNat % 8 ≤ j → j < s.ctx.bb.pos.toNat + 72 → s.byteFree (s.ctx.bb.byteOf j)) →
      ((s.ctx.g b).toNat ≤ 64 → s.ctx.bb.pos.toNat + (s.ctx.g b).toNat ≤ s.ctx.bb.lim.toNat →
        ∀ m all, m = s.ctx.bb.pos.toNat % 8 → all = s.partialByte s.ctx.bb + 2 ^ m * ((s.ctx.g a).toNat % 2 ^ (s.ctx.g b).toNat) →
        exec (.bsput sp a b) s = .next ((((s.issued 4).ringStored s.ctx.bb (s.ctx.bb.pos.toNat - m) (bytesOf ((m + (s.ctx.g b).toNat) / 8) all)).modCtx
          (fun c => { c with bb := { s.ctx.bb with
            pos := s.ctx.bb.pos + s.ctx.g b, bits := BitVec.ofNat 128 (all / 2 ^ (8 * ((m + (s.ctx.g b).toNat) / 8)))
            bbn := W ((m + (s.ctx.g b).toNat) % 8) } })).switch sp))
      ∧ (s.ctx.bb.pos.toNat % 8 ≠ 0 →
        exec (.bsflush sp) s = .next ((((s.issued 4).ringStored s.ctx.bb (s.ctx.bb.pos.toNat - s.ctx.bb.pos.toNat % 8)
            [BitVec.ofNat 8 (s.partialByte s.ctx.bb)]).modCtx
          (fun c => { c with bb := { s.ctx.bb with pos := s.ctx.bb.pos + W (8 - s.ctx.bb.pos.toNat % 8), bbn := 0, bits := 0 } })).switch sp)))
    ∧ (s.ctx.bb.ringOk → flag s.ctx.bb.lo 0 = false ∨ s.ctx.bb.pos.toNat % 8 = 0 →
        exec (.bsflush sp) s = .next (s.after sp 4 (fun c => { c with bb := { s.ctx.bb with bbn := 0, bits := 0 } }))))

/-- Taking an effect: a system effect enters the system handler; PERFORM and PERFORMV enter the selected frame. For every state in
which each register of the executing context is present and no error waits at one: with a system handler set and not busy, a
system effect other than MEMERR makes the state in which the hidden record holds the continuation at the faulting PC and the
context stands at the handler at supervisor level with the registers of the entry, G31 at SKHI and EMRG set exactly for a stack
access (not while EMRG is set); memory and everything else stay. An unassigned encoding answers ILLEGAL, a fetch fault its effect
(a frame-class one may first wait as below). PERFORM of an id the level may raise, whose search selects a single-shot frame inside
the scratchpad, enters that frame with the record in its capture area, once the accesses of the delivery need wait for nothing
(until then it waits at the instruction); PERFORMV likewise with its lanes, and with no lane goes on; an unlisted id below 0x100
answers ILLEGAL, a listed one at user level PRIV. (R30, R24, R107, R146, R147, R148, R151, R152, R155, R159, R160) -/
def Obligations.PerformAndSystemEntry : Prop :=
  (∀ (s : State), s.Clean → s.SystemReady →
    (∀ r : Raise, Eff.system r.eff = true → r.eff ≠ 0x006 → (r.stk = true → s.ctx.stat.emrg = false) → EnteredSystem s (s.raised r) r s.ctx.pc)
    ∧ (∀ w, exec (.unassignedEncoding w) s = .next (s.raised { eff := 0x001 }))
    ∧ (∀ (e : BitVec 12) arg addr, exec (.fetchFault e arg addr) s = .next (s.takes false { eff := e.toNat, arg := arg, addr := addr })))
  ∧ (∀ (s : State) (sp : Bool) (e : BitVec 12) (a : Reg) (p : PReg), s.Clean →
    (∀ f, s.raisable e.toNat → Eff.system e.toNat = false → f.multi = false → f.cap < 0x180000 →
        s.search s.pid s.ctx.stat.sup e.toNat 4096 s.ctx.hf.toNat = .frame f →
        s.deliveryHeld s.pid s.cx { eff := e.toNat } = false → s.bad (spadKey s.pid f.cap) 8 = false →
      (∃ t : State, exec (.perform sp e a) s = .next (t.switch sp)
        ∧ EnteredFrame (s.issued 4) t f { eff := e.toNat, arg := s.ctx.g a } 0 (s.ctx.pc + 4))
      ∧ (s.ctx.regs.getP p ≠ 0 → ∃ t : State, exec (.performv sp e a p) s = .next (t.switch sp)
        ∧ EnteredFrame (s.issued 4) t f { eff := e.toNat, arg := s.ctx.g a, lanes := s.ctx.regs.getP p } 0 (s.ctx.pc + 4)))
    ∧ (s.raisable e.toNat → s.deliveryHeld s.pid s.cx { eff := e.toNat } = true →
        exec (.perform sp e a) s = .next ((s.block .drain sp).switch sp)
        ∧ (s.ctx.regs.getP p ≠ 0 → exec (.performv sp e a p) s = .next ((s.block .drain sp).switch sp)))
    ∧ (s.raisable e.toNat → s.ctx.regs.getP p = 0 → exec (.performv sp e a p) s = .next ((s.issued 4).switch sp))
    ∧ (e.toNat < 0x100 → Eff.listed e.toNat = false → ∀ i ∈ [Instr.perform sp e a, .performv sp e a p], exec i s = .next (s.raised { eff := 0x001 }))
    ∧ (e.toNat < 0x100 → Eff.listed e.toNat = true → s.ctx.stat.sup = false →
        ∀ i ∈ [Instr.perform sp e a, .performv sp e a p], exec i s = .next (s.raised { eff := 0x002 })))

/-- HANDLE, UNHANDLE, RESUME, RESUMEM, DISCARD, TKSTAT and SHANDLE; dead and privileged tokens are refused first. For every state
in which each register of the executing context is present and no error waits at one: HANDLE writes the frame and the record
header and sets HF, or answers ILLEGAL with the operand at fault; UNHANDLE pops the top frame and advances its generation; a
system frame at user level answers PRIV. With a live token of a level the context has, RESUME (and RESUMEM
of a multi-shot record without a segment) goes on with the continuation: its PC, registers, predicates, flags, frames, level,
calls and bits, with Gb in G1, seeking RESUMED with the source core where it was captured on another core; RESUMEM of another kind is ILLEGAL; DISCARD kills the record and gives Gd the saved stack pointer,
or 0 for a system record. A token that names no live record answers BADTOKEN, one of a higher level PRIV, before anything changes.
SHANDLE and TKSTAT as their rules say. (R149, R153, R154, R155, R157, R158, R161, R162, R163, R164) -/
def Obligations.HandlersAndContinuations : Prop :=
  (∀ (s : State) (sp : Bool) (a b c d : Reg), s.Clean →
    (∀ x y z, x = s.ctx.g a → y = s.ctx.g b → z = s.ctx.g c →
      (x.toNat % 32 = 0 → x.toNat + 32 ≤ 0x180000 → flag y 0 = false → goodDescriptor z → s.spanFree x.toNat 32 → s.spanFree (fld z 20 0) 8 →
        exec (.handle sp a b c) s = .next ((((s.issued 4).framePushed x y z).modCtx (fun k => { k with hf := x })).switch sp))
      ∧ (x.toNat % 32 ≠ 0 ∨ 0x180000 < x.toNat + 32 → exec (.handle sp a b c) s = .next (s.raised { eff := 0x001, arg := x }))
      ∧ (x.toNat % 32 = 0 → x.toNat + 32 ≤ 0x180000 → flag y 0 = true → exec (.handle sp a b c) s = .next (s.raised { eff := 0x001, arg := y }))
      ∧ (x.toNat % 32 = 0 → x.toNat + 32 ≤ 0x180000 → flag y 0 = false → ¬ goodDescriptor z →
          exec (.handle sp a b c) s = .next (s.raised { eff := 0x001, arg := z })))
    ∧ (∀ f, f = s.frameAt s.pid s.ctx.hf.toNat → s.ctx.hf ≠ 0 → s.ctx.g a = s.ctx.hf → s.ctx.hf.toNat % 32 = 0 → s.ctx.hf.toNat < 0x180000 →
      s.spanFree s.ctx.hf.toNat 32 → f.malformed = false → f.busy = false → ((f.sys = true → s.ctx.stat.sup = true) → s.partsFree [(f.cap, 8)]) →
      ((f.sys = true → s.ctx.stat.sup = true) → exec (.unhandle sp a) s = .next ((((s.issued 4).wr (spadKey s.pid f.cap) (bytesOf 8
          (W ((fld (s.rdW (spadKey s.pid f.cap)) 63 48 + 1) % 2 ^ 16 * 2 ^ 48 + fld (s.rdW (spadKey s.pid f.cap)) 47 0)).toNat)).modCtx
            (fun k => { k with hf := W f.link })).switch sp))
      ∧ (f.sys = true → s.ctx.stat.sup = false → exec (.unhandle sp a) s = .next (s.raised { eff := 0x002 })))
    ∧ (s.ctx.hf = 0 ∨ s.ctx.g a ≠ s.ctx.hf → exec (.unhandle sp a) s = .next (s.raised { eff := 0x001, arg := s.ctx.g a }))
    ∧ (s.partsFree (tokenParts (s.ctx.g a)) → s.tokenRec s.pid s.cx s.ctx (s.ctx.g a) = none → exec (.tkstat sp d a) s = .next (s.afterG sp 4 d 0))
    ∧ (∀ sys r cap, s.partsFree (tokenParts (s.ctx.g a)) → s.tokenRec s.pid s.cx s.ctx (s.ctx.g a) = some (sys, r, cap) →
        (sys = false → s.partsFree [(r.frame, 32)]) → exec (.tkstat sp d a) s = .next (s.afterG sp 4 d (W (1 + 2 * b2n (!sys && r.multi) + 4 * b2n sys
          + 8 * b2n (if sys then s.ctx.sysBusy else (s.frameAt s.pid r.frame).busy) + 16 * b2n r.vlane + 2 ^ 16 * r.effid))))
    ∧ (s.ctx.stat.sup = true → flag (s.ctx.g a) 0 = false →
        exec (.shandle sp a) s = .next (((s.issued 4).modCore (fun k => { k with shandler := s.ctx.g a })).switch sp))
    ∧ (s.ctx.stat.sup = true → flag (s.ctx.g a) 0 = true → exec (.shandle sp a) s = .next (s.raised { eff := 0x003, addr := s.ctx.g a }))
    ∧ (s.ctx.stat.sup = false → exec (.shandle sp a) s = .next (s.raised { eff := 0x002 })))
  ∧ (∀ (s : State) (sp : Bool) (a b d : Reg) (p : PReg), s.Clean → ∀ sys k cap,
    s.partsFree (tokenParts (s.ctx.g a)) → s.tokenRec s.pid s.cx s.ctx (s.ctx.g a) = some (sys, k, cap) →
    ((sys = true ∨ k.sup = true) → s.ctx.stat.sup = true) →
    (∀ org, org = Tab.get s.pid s.ctx.origin (if sys then 1 else cap) → s.partsFree (s.returnSpans s.pid s.cx sys k cap) →
      (∃ t : State, exec (.resume sp a b p) s = .next (t.switch sp)
        ∧ Continues s t k (s.ctx.g b) (s.ctx.regs.getP p) (Tab.get 0 s.ctx.late (if sys then 1 else cap))
        ∧ t.ctx.resumed = (if org = s.pid then s.ctx.resumed else some { eff := 0x011, arg := W org })
        ∧ (sys = true → t.ctx.sysBusy = false ∧ t.ctx.sysRec.state = 0))
      ∧ (sys = false → k.multi = true → k.seglen = 0 → ∃ t : State, exec (.resumem sp a b p) s = .next (t.switch sp)
        ∧ Continues s t k (s.ctx.g b) (s.ctx.regs.getP p) (Tab.get 0 s.ctx.late cap)
        ∧ t.ctx.resumed = (if org = s.pid then s.ctx.resumed else some { eff := 0x011, arg := W org })))
    ∧ (sys = true ∨ k.multi = false → exec (.resumem sp a b p) s = .next (s.raised { eff := 0x001, arg := s.ctx.g a }))
    ∧ (sys = true → s.partsFree (s.discardSpans s.pid sys k) → ∃ t : State, exec (.discard sp d a) s = .next (t.switch sp) ∧ (∀ i, t.ctx.g i = if i = d then 0 else s.ctx.g i)
        ∧ t.ctx.pc = s.ctx.pc + 4 ∧ t.ctx.hf = 0 ∧ t.ctx.sysBusy = false ∧ t.ctx.sysRec.state = 0 ∧ t.ctx.stat.emrg = false
        ∧ t.ctx.num = s.ctx.num ∧ t.ctx.regs.p = s.ctx.regs.p ∧ t.ctx.ras = s.ctx.ras)
    ∧ (sys = false → (s.frameAt s.pid k.frame).busy = false → s.partsFree (s.discardSpans s.pid sys k) →
        exec (.discard sp d a) s = .next ((((s.issued 4).killRec s.pid cap).modCtx (fun c => c.setG d (s.frameAt s.pid k.frame).ssp)).switch sp)))
  ∧ (∀ (s : State) (sp : Bool) (a b d : Reg) (p : PReg), s.Clean → ∀ i ∈ [Instr.resume sp a b p, .resumem sp a b p, .discard sp d a],
    s.partsFree (tokenParts (s.ctx.g a)) →
    (s.tokenRec s.pid s.cx s.ctx (s.ctx.g a) = none → exec i s = .next (s.raised { eff := 0x007, arg := s.ctx.g a }))
    ∧ (∀ sys k cap, s.tokenRec s.pid s.cx s.ctx (s.ctx.g a) = some (sys, k, cap) → (sys = true ∨ k.sup = true) → s.ctx.stat.sup = false →
      exec i s = .next (s.raised { eff := 0x002 })))

/-- SEND, MCAST, SENDR and CNTDEC put packets on VN0; HMASK, HUNMASK, HCFG and SUBTAG change the NI. For every state in which each
register of the executing context is present and no error waits at one: with a legal descriptor and payload that is accessible at
once, SEND, SENDR and CNTDEC put one packet with the named bytes on its way to the core of the logical id (while the id is parked,
the sending NI holds it if it has fewer than 32, else the context waits), and MCAST one to each subscriber of the tag on the die.
A reserved bit, a reserved transform or an id out of the launch answers ILLEGAL with the descriptor. HMASK opens a window of 256
core cycles unless one is open (an expired window is closed), HUNMASK closes it, in low contexts only; HCFG writes its slot and gives the generation, advanced
exactly when the rule says; SUBTAG edits the 16-entry match table at supervisor level, the copies already on their way keeping the entry
they were sent under, and waits for the routers. (R197, R203,
R227, R228, R229, R232, R233, R234, R236, R237, R239, R413) -/
def Obligations.MessagesAndTheInterface : Prop :=
  (∀ (s : State) (sp : Bool) (a b c : Reg), s.Clean →
    (MessageOk s (s.ctx.g a) (s.ctx.g b) (s.ctx.g c) false → s.spanFree (s.ctx.g b).toNat (fld (s.ctx.g a) 11 0) →
      s.Sends (.send sp a b c) sp (fld (s.ctx.g a) 31 20) (.msg (s.messageOf (s.ctx.g a) (s.ctx.g c)
        (s.rd (spadKey s.pid (s.ctx.g b).toNat) (fld (s.ctx.g a) 11 0)) (some (fld (s.ctx.g a) 31 20)))) (fun t => t.switch sp))
    ∧ (MessageOk s (s.ctx.g a) (s.ctx.g b) (s.ctx.g c) true → s.spanFree (s.ctx.g b).toNat (fld (s.ctx.g a) 11 0) →
      exec (.mcast sp a b c) s = .next (((s.issued 4).modNet (fun n => { n with pkts := n.pkts ++
        ((((s.dieAt (dieOf s.pid)).routers.filter (fun e => e.1 == fld (s.ctx.g a) 31 20)).map (fun e => e.2)).map (fun k =>
          ⟨s.net.nextReq, s.pid, s.cx, s.ctx.act, k, .msg (s.messageOf (s.ctx.g a) (s.ctx.g c)
            (s.rd (spadKey s.pid (s.ctx.g b).toNat) (fld (s.ctx.g a) 11 0)) none), false, none⟩)) })).switch sp))
    ∧ (fld (s.ctx.g a) 63 32 = 0 → fld (s.ctx.g a) 19 5 = 0 → s.lidBad (fld (s.ctx.g a) 31 20) = false →
      s.Sends (.sendr sp a b) sp (fld (s.ctx.g a) 31 20) (.mailbox (fld (s.ctx.g a) 4 0) (s.ctx.g b)) (fun t => t.switch sp))
    ∧ (fld (s.ctx.g a) 63 44 = 0 → fld (s.ctx.g a) 15 8 = 0 → s.lidBad (fld (s.ctx.g a) 43 32) = false →
      s.Sends (.cntdec sp a) sp (fld (s.ctx.g a) 43 32) (.dec (fld (s.ctx.g a) 7 0) (fld (s.ctx.g a) 31 16)) (fun t => t.switch sp))
    ∧ (fld (s.ctx.g a) 18 16 ≠ 0 ∨ fld (s.ctx.g a) 15 12 = 3 ∨ 6 ≤ fld (s.ctx.g a) 15 12 →
      ∀ i ∈ [Instr.send sp a b c, .mcast sp a b c], exec i s = .next (s.raised { eff := 0x001, arg := s.ctx.g a }))
    ∧ (∀ lid, lid = fld (s.ctx.g a) 31 20 → s.lidBad lid = true →
      ∀ i ∈ [Instr.send sp a b c, .sendr sp a b], exec i s = .next (s.raised { eff := 0x001, arg := s.ctx.g a })))
  ∧ (∀ (s : State) (sp : Bool) (d a b c : Reg), s.Clean →
    (s.cx ≠ 4 →
      (s.ctx.masked s.time = false → exec (.hmask sp) s =
        .next (s.after sp 4 (fun k => { k with hmask := some (s.time + 256 * Config.coreTicks s.pid) })))
      ∧ (s.ctx.masked s.time = true → exec (.hmask sp) s = .next ((s.issued 4).switch sp))
      ∧ exec (.hunmask sp) s = .next (s.after sp 4 (fun k => { k with hmask := none })))
    ∧ (s.cx = 4 → ∀ i ∈ [Instr.hmask sp, .hunmask sp], exec i s = .next (s.raised { eff := 0x001 }))
    ∧ (∀ x y z h, x = s.ctx.g a → y = s.ctx.g b → z = s.ctx.g c → h = s.core.slot x.toNat →
      (x.toNat < 64 → flag y 0 = false → slotWordOk z → (flag z 3 = true → s.ctx.stat.sup = true) → ∃ g,
        (h.advances y z → g = (h.gen + 1) % 256) ∧ (¬ h.advances y z → g = h.gen)
        ∧ exec (.hcfg sp d a b c) s = .next ((((s.issued 4).modCore (fun k => k.setSlot x.toNat
          ⟨y, g, fld s.ctx.ident.launch 31 0, fld z 11 8, flag z 3, flag z 2, flag z 1, flag z 0⟩)).modCtx (fun k => k.setG d (W g))).switch sp))
      ∧ (64 ≤ x.toNat → exec (.hcfg sp d a b c) s = .next (s.raised { eff := 0x001, arg := x }))
      ∧ (x.toNat < 64 → flag y 0 = true → exec (.hcfg sp d a b c) s = .next (s.raised { eff := 0x001, arg := y }))
      ∧ (x.toNat < 64 → flag y 0 = false → ¬ slotWordOk z → exec (.hcfg sp d a b c) s = .next (s.raised { eff := 0x001, arg := z }))
      ∧ (x.toNat < 64 → flag y 0 = false → slotWordOk z → flag z 3 = true → s.ctx.stat.sup = false →
          exec (.hcfg sp d a b c) s = .next (s.raised { eff := 0x002 })))
    ∧ (∀ x y others, x = s.ctx.g a → y = s.ctx.g b → others = s.core.subs.filter (fun e => e.tag != x.toNat) → s.ctx.stat.sup = true →
      x.toNat < 4096 → y.toNat < 512 → fld y 7 6 = 0 →
      (flag y 8 = true → others.length < 16 → exec (.subtag sp a b) s = .next (s.awaiting
        ((((s.issued 4).bindCopies s.pid x.toNat).modCore (fun k => { k with subs := others ++ [⟨x.toNat, fld y 5 0, (s.core.slot (fld y 5 0)).gen⟩] })).asked
          (.subTag true x.toNat)) sp .reply))
      ∧ (flag y 8 = true → 16 ≤ others.length → exec (.subtag sp a b) s = .next (s.raised { eff := 0x001, arg := x }))
      ∧ (flag y 8 = false → exec (.subtag sp a b) s = .next (s.awaiting
        ((((s.issued 4).bindCopies s.pid x.toNat).modCore (fun k => { k with subs := others })).asked (.subTag false x.toNat)) sp .reply)))
    ∧ (s.ctx.stat.sup = false → exec (.subtag sp a b) s = .next (s.raised { eff := 0x002 })))

/-- SPAWN places a task record at its home core or in the Paddock; FORK pushes an arm or is refused. For every state in which each
register of the executing context is present and no error waits at one: a SPAWN whose record passes its checks places the task in
a pending slot (DEPS with a counter), in the home core's deque (DEPS without) or in the Paddock queue of its QPRI, numbers it, and
gives Gd the handle or id; in a launch with DET = 1 it goes to the deque of the core that its path gives, with its path as its id.
FORK gives Gd 0 when the deque is full or R220 gives the arm no path; else, once the context has no request open, it adds one to
the join counter, if Gd names one, pushes the arm and gives Gd 1, path and task id halving as R220 says. An odd arm PC is ILLEGAL,
an unaligned counter ALIGN. That a SPAWN takes the lowest free pending slot is the model's choice (log 41). (R214, R215, R216,
R217, R220, R238, R241) -/
def Obligations.TasksAndArms : Prop :=
  (∀ (s : State) (sp : Bool) (d a : Reg) (w : List Word) (l : Launch), s.Clean → SpawnOk s (s.ctx.g a) w l →
    (l.det = false → ∀ path core die lid, path = (256 * s.ctx.path + (s.ctx.spawns + 1)) % 2 ^ 48 → lid = fld (w.getD 5 0) 63 32 → core = l.coreOf lid →
      die = dieOf core → l.parked lid = false →
      (flag (w.getD 5 0) 12 = true → fld (w.getD 6 0) 31 0 ≠ 0 → ∀ k, k < 256 → (Tab.get ⟨0, none⟩ (s.coreAt core).ptasks k : PSlot).task = none →
        (∀ j, j < k → (Tab.get ⟨0, none⟩ (s.coreAt core).ptasks j : PSlot).task ≠ none) → ∀ gen, gen = ((Tab.get ⟨0, none⟩ (s.coreAt core).ptasks k : PSlot).gen + 1) % 2 ^ 16 →
        exec (.spawn sp d a) s = .next (((s.issued 4).setPending core k ⟨gen, some (s.taskOf w l.id 0 path false)⟩).spawned sp d
          (W (lid * 2 ^ 32 + gen * 2 ^ 16 + k))))
      ∧ (flag (w.getD 5 0) 12 = true → fld (w.getD 6 0) 31 0 = 0 → (s.coreAt core).deque.length < 64 + l.dqsp → ∀ id, id = die * 2 ^ 40 + (s.dieAt die).nextTask →
        exec (.spawn sp d a) s = .next ((((s.issued 4).numbered die).pushed core (s.taskOf w l.id id path false)).spawned sp d (W id)))
      ∧ (flag (w.getD 5 0) 12 = false → (s.dieAt die).paddock.foldl (fun n e => n + e.2.length) 0 < 65536 → ∀ id, id = die * 2 ^ 40 + (s.dieAt die).nextTask →
        exec (.spawn sp d a) s = .next ((((s.issued 4).numbered die).modDieAt die (fun r =>
          { r with paddock := Tab.set r.paddock (fld (w.getD 5 0) 1 0) (Tab.get [] r.paddock (fld (w.getD 5 0) 1 0) ++ [s.taskOf w l.id id path false]) })).spawned sp d (W id))))
    ∧ (l.det = true → s.ctx.byMessage = false → s.ctx.spawns < 255 → 256 * s.ctx.path + s.ctx.spawns + 1 < 2 ^ 48 →
      (flag (w.getD 5 0) 4 = true → fld (w.getD 5 0) 11 8 < 8) → (flag (w.getD 5 0) 12 = true → fld (w.getD 6 0) 31 0 = 0) →
      ∀ path lid, path = 256 * s.ctx.path + (s.ctx.spawns + 1) → lid = l.placed path → l.parked lid = false → (s.coreAt (l.coreOf lid)).deque.length < 64 + l.dqsp →
      exec (.spawn sp d a) s = .next (((s.issued 4).pushed (l.coreOf lid) (s.taskOf w l.id path path true)).spawned sp d (W path))))
  ∧ (∀ (s : State) (sp : Bool) (d a b c : Reg) (l : Launch), s.Clean → s.launchOf s.pid s.cx = some l →
    (flag (s.ctx.g a) 0 = false → (s.ctx.g d).toNat % 8 = 0 →
      (s.forkRefused l → exec (.fork sp d a b c) s = .next (s.afterG sp 4 d 0))
      ∧ (¬ s.forkRefused l → (l.det = true → l.parked (l.placed (2 * s.ctx.path + 1)) = false) → s.ownReqs s.ctx.act = false →
        (s.ctx.g d = 0 → exec (.fork sp d a b c) s = .next ((s.issued 4).forked sp d l (s.forkCore l)
          (s.armOf (s.ctx.g a) (s.ctx.g b) (s.ctx.g c) 0 l (s.forkCore l))))
        ∧ (∀ h k, s.ctx.g d ≠ 0 → s.Changes (s.ctx.g d) h k → exec (.fork sp d a b c) s = .next ((s.joinCounted (s.ctx.g d) h k).forked sp d l (s.forkCore l)
          (s.armOf (s.ctx.g a) (s.ctx.g b) (s.ctx.g c) (s.ctx.g d) l (s.forkCore l))))))
    ∧ (flag (s.ctx.g a) 0 = true → exec (.fork sp d a b c) s = .next (s.raised { eff := 0x001, arg := s.ctx.g a }))
    ∧ (flag (s.ctx.g a) 0 = false → (s.ctx.g d).toNat % 8 ≠ 0 → exec (.fork sp d a b c) s = .next (s.raised { eff := 0x003, addr := s.ctx.g d })))

/-- JOINW, CNTINIT, LAUNCH and the barrier instructions complete, wait or send as their rules say. For every state in which each
register of the executing context is present and no error waits at one: JOINW in a low context goes on when the counter reads 0
and else parks on its line; CNTINIT sends one releasing store of Gb to the counter; LAUNCH, once the requests of the context are
done and all 128 bytes of an aligned record are read, submits it and gives Gd the launch id. With a legal handle GJOIN, GLEAVE,
BARI, BARA, BARW and BARAW send their request to the barrier's home, and GJOIN, BARW and BARAW then wait; an illegal handle or a
member count above 16 bits answers ILLEGAL. Waits are ILLEGAL in context 4. That CNTINIT goes as a releasing store is the model's
reading (log 39), that JOINW completing at once gives way to another context too (log 35). (R240, R242, R243, R244, R245, R246,
R247, R248) -/
def Obligations.CountersLaunchAndBarriers : Prop :=
  (∀ (s : State) (sp : Bool) (d a b : Reg), s.Clean →
    (s.cx ≠ 4 → ∀ h l, s.Watchable (s.ctx.g a) h l →
      (s.wordAt h = 0 → exec (.joinw sp a) s = .next (((s.issued 4).translated (s.ctx.g a) l).switch true))
      ∧ (s.wordAt h ≠ 0 → exec (.joinw sp a) s = .next (s.parks (.watch (lineOf (h.readKey s.sys.lead s.pid))))))
    ∧ (s.cx = 4 → exec (.joinw sp a) s = .next (s.raised { eff := 0x001 }))
    ∧ (∀ h l, s.noAcquire → s.Placed .rmw (s.ctx.g a) 8 h l → s.homeDown h = false → s.homeBad h 8 = false → s.rmwFree h 8 true →
        exec (.cntinit sp a b) s = .next
          ((((s.issued 4).translated (s.ctx.g a) l).rmwSent h 8 (.store (bytesOf 8 (s.ctx.g b).toNat)) true false s.ctx.pc (s.ctx.g a)).switch sp))
    ∧ (∀ hs t, (s.ctx.g a).toNat % 64 = 0 → s.noAcquire → s.ownReqs s.ctx.act = false → hs.length = 16 → (s.issued 4).Reads (s.ctx.g a) hs t →
      (s.launches.filter (fun l => l.phase == 0 && l.src.queue.isNone && l.src.die == dieOf s.pid)).length < 16 →
      exec (.launch sp d a) s = .next (((t.submit (s.ctx.g a) (hs.map (fun h => s.wordAt h.1)) ⟨none, dieOf s.pid, !s.ctx.stat.sup, s.ctx.space.ptroot⟩).modCtx
        (fun c => c.setG d (W s.nextLaunch))).switch sp))
    ∧ ((s.ctx.g a).toNat % 64 ≠ 0 → exec (.launch sp d a) s = .next (s.raised { eff := 0x003, addr := s.ctx.g a })))
  ∧ (∀ (s : State) (sp : Bool) (d a b : Reg), s.Clean →
    (s.handleOk (s.ctx.g a) → ∀ lid slot, lid = fld (s.ctx.g a) 43 32 → slot = fld (s.ctx.g a) 4 0 →
      s.Sends (.gjoin sp d a) sp lid (.bar slot (.join d)) (fun t => s.awaiting t sp .reply)
      ∧ s.Sends (.gleave sp a) sp lid (.bar slot .leave) (fun t =>
          (t.modCtx (fun c => { c with groups := c.groups.erase ((s.resolve s.ctx.ident.launch.toNat lid).1, slot) })).switch sp)
      ∧ ((s.ctx.g b).toNat < 65536 → s.Sends (.bari sp a b) sp lid (.bar slot (.init (s.ctx.g b).toNat)) (fun t => t.switch sp))
      ∧ s.Sends (.bara sp a) sp lid (.bar slot .arrive) (fun t => t.switch sp)
      ∧ (s.cx ≠ 4 →
        s.Sends (.barw sp a b) sp lid (.bar slot (.wait (flag (s.ctx.g b) 0) false)) (fun t => s.awaiting (t.modCtx (fun c => { c with asBarw := false })) true .barrier)
        ∧ s.Sends (.baraw sp a b) sp lid (.bar slot (.wait (flag (s.ctx.g b) 0) (!s.ctx.asBarw)))
            (fun t => s.awaiting (t.modCtx (fun c => { c with asBarw := false })) true .barrier)))
    ∧ (¬ s.handleOk (s.ctx.g a) → ∀ i ∈ [Instr.gjoin sp d a, .gleave sp a, .bari sp a b, .bara sp a], exec i s = .next (s.raised { eff := 0x001, arg := s.ctx.g a }))
    ∧ (s.handleOk (s.ctx.g a) → 65536 ≤ (s.ctx.g b).toNat → exec (.bari sp a b) s = .next (s.raised { eff := 0x001, arg := s.ctx.g b }))
    ∧ (s.cx = 4 → ∀ i ∈ [Instr.barw sp a b, .baraw sp a b], exec i s = .next (s.raised { eff := 0x001 })))

/-- AMO, CAS, LDA, STL and FENCE: one request to the home, acquire and release, and the fence waits for it. For every state in
which each register of the executing context is present and no error waits at one: with no acquire outstanding, each AMO row and
CAS sends one request with its operation and operands to the home of its bytes, Gd absent, marked as release and acquire by its
order, which the own scratchpad performs at once; FADD under a reserved rounding mode answers ILLEGAL with VT; a refused address answers its fault. LDA and STL act at once
on the own scratchpad and by one acquiring or releasing request elsewhere; a sequentially consistent LDA and a local STL first
wait for the context's requests. FENCE goes on when the context has no request outstanding and else waits. (That every fence waits
for all of the context's requests is the model's choice, log 5.) (R298, R301, R302, R303, R304, R307, R308, R309, R310, R312,
R313, R434) -/
def Obligations.AtomicsAndOrderedAccesses : Prop :=
  (∀ (s : State) (sp : Bool) (k : Scope) (r : Order) (d a b : Reg), s.Clean → s.noAcquire →
    (∀ e ∈ amoRows sp k r d a b, ∀ h l, s.Placed .rmw (s.ctx.g a) e.2.2 h l → s.rmwFree h e.2.2 (orderReleases r) → (9 ≤ e.2.1 → fld s.ctx.num.vt 6 4 ≤ 4) →
      exec e.1 s = .next (s.afterRmw sp d (s.ctx.g a) e.2.2 (.amo e.2.1 (s.ctx.g b) (fld s.ctx.num.vt 6 4) (fld s.ctx.num.flagen 6 0) d) r h l))
    ∧ (∀ h l, s.Placed .rmw (s.ctx.g a) 8 h l → s.rmwFree h 8 (orderReleases r) →
      exec (.cas sp k r d a b) s = .next (s.afterRmw sp d (s.ctx.g a) 8 (.cas (s.ctx.g d) (s.ctx.g b) d) r h l))
    ∧ (5 ≤ fld s.ctx.num.vt 6 4 → ∀ i ∈ [Instr.amoFadd32 sp k r d a b, .amoFadd64 sp k r d a b],
      exec i s = .next (s.raised { eff := 0x001, arg := s.ctx.num.vt }))
    ∧ (∀ e ∈ amoRows sp k r d a b, ∀ x, (9 ≤ e.2.1 → fld s.ctx.num.vt 6 4 ≤ 4) →
      s.locate s.pid s.ctx.space.ptroot s.ctx.stat.sup .rmw (s.ctx.g a) e.2.2 true true = .error x → exec e.1 s = .next (s.raised x)))
  ∧ (∀ (s : State) (sp : Bool) (k : Scope) (r : Order) (z : Size) (d a : Reg), s.Clean →
    ((r = .sc → s.ownReqs s.ctx.act = false) →
      (s.Local (a == 31) (s.ctx.g a) z.bytes →
        exec (.lda sp k r z d a) s = .next (s.afterG sp 4 d (W (s.rdN (spadKey s.pid (s.ctx.g a).toNat) z.bytes))))
      ∧ (∀ h l, s.Far .read (a == 31) (s.ctx.g a) z.bytes h l → exec (.lda sp k r z d a) s = .next (s.afterLda sp d (s.ctx.g a) z.bytes k h l)))
    ∧ (s.Local (a == 31) (s.ctx.g a) z.bytes → s.ownReqs s.ctx.act = false →
        exec (.stl sp k r z d a) s = .next (s.afterStore sp 4 (s.ctx.g a).toNat (bytesOf z.bytes (s.ctx.g d).toNat)))
    ∧ (∀ h l, s.Far .write (a == 31) (s.ctx.g a) z.bytes h l → s.homeBad h z.bytes = false →
        exec (.stl sp k r z d a) s = .next (s.afterSend sp 4 (s.ctx.g a) (bytesOf z.bytes (s.ctx.g d).toNat) true h l))
    ∧ (s.ownReqs s.ctx.act = false → exec (.fence sp k r) s = .next ((s.issued 4).switch sp))
    ∧ (s.ownReqs s.ctx.act = true → exec (.fence sp k r) s = .next ((s.block .drain sp).switch sp)))

/-- TDEF, TSET, TWAIT, TREL; LDV, LDVW, STV; SNAP, COMMIT, ABORT, VRETIRE. For every state in which each register of the executing
context is present and no error waits at one: TDEF loads a valid image into its record, or is ILLEGAL with the address, or waits
while the tile is named by a command, has open fetches or drains; TSET, TREL and TWAIT set or read the state or wait. LDV under an
open snapshot gives the bytes that the snapshot sees, its own logged bytes first; STV logs the bytes in the line's entry, or a new
one, or is ILLEGAL when the log is full; without a snapshot ILLEGAL, with a revoked one SNAPLOST with the snapshot closed, or a wait for what its
delivery must read. LDVW gives the line's timestamp when it is new enough and stable, else parks; with Gb = 0 and stable still below it,
the context's later accesses wait for stable. An uncorrectable version is an error for LDV, logged, where a byte of it is returned. SNAP asks the lead die, COMMIT of an empty log gives 0, clears
CFL and of a log hands its lines in address order to the sequencer, ABORT empties the log, VRETIRE releases the snapshot. EFFARG of
STV without a snapshot and LDVW's returning at once for Gb = 0 are the model's readings (logs 17, 42). (R282, R315, R316, R317,
R318, R319, R322, R323, R324, R325, R327, R328) -/
def Obligations.TilesVersionsAndTransactions : Prop :=
  (∀ (s : State) (sp : Bool) (d a : Reg), s.Clean →
    ((s.ctx.g a).toNat % 32 = 0 → (s.ctx.g a).toNat + 32 ≤ 0x180000 → s.spanFree (s.ctx.g a).toNat 32 →
      ∀ w, w = bytesWords 4 (s.rd (spadKey s.pid (s.ctx.g a).toNat) 32) →
        (TileImage w → s.core.tileNamed d.toNat = false → (s.core.tile d.toNat).fch = 0 → (s.core.tile d.toNat).dcnt = 0 →
          exec (.tdef sp d a) s = .next (((s.issued 4).modCore (fun k => k.setTile d.toNat (tileOf w))).switch sp))
        ∧ (¬ TileImage w → exec (.tdef sp d a) s = .next (s.raised { eff := 0x001, arg := s.ctx.g a }))
        ∧ (TileImage w → s.core.tileNamed d.toNat = true ∨ (s.core.tile d.toNat).fch ≠ 0 ∨ (s.core.tile d.toNat).dcnt ≠ 0 →
          exec (.tdef sp d a) s = .next ((s.block (.tile d.toNat) sp).switch sp)))
    ∧ ((s.ctx.g a).toNat % 32 ≠ 0 → exec (.tdef sp d a) s = .next (s.raised { eff := 0x003, addr := s.ctx.g a }))
    ∧ ((s.ctx.g a).toNat % 32 = 0 → 0x180000 < (s.ctx.g a).toNat + 32 → exec (.tdef sp d a) s = .next (s.raised { eff := 0x001, arg := s.ctx.g a }))
    ∧ (∀ t, t = s.core.tile d.toNat →
      (s.core.tileNamed d.toNat = false → (t.state = 0 ∨ t.state = 2 ∨ (t.fch = 0 ∧ t.dcnt = 0)) →
        exec (.tset sp d) s = .next (((s.issued 4).modCore (fun k => k.setTile d.toNat { t with state := 2, failed := false })).switch sp))
      ∧ (s.core.tileNamed d.toNat = false → t.fch = 0 → t.dcnt = 0 →
        exec (.trel sp d) s = .next (((s.issued 4).modCore (fun k => k.setTile d.toNat { t with state := 0, failed := false })).switch sp))
      ∧ (s.core.tileNamed d.toNat = true ∨ t.fch ≠ 0 ∨ t.dcnt ≠ 0 → exec (.trel sp d) s = .next ((s.block (.tile d.toNat) sp).switch sp))
      ∧ (s.core.tileNamed d.toNat = true ∨ (t.state = 1 ∨ t.state = 3) ∧ (t.fch ≠ 0 ∨ t.dcnt ≠ 0) →
        exec (.tset sp d) s = .next ((s.block (.tile d.toNat) sp).switch sp)))
    ∧ (∀ t, t = s.core.tile a.toNat →
      (t.state = 0 ∨ t.state = 2 → exec (.twait sp d a) s = .next (s.afterG sp 4 d (W t.state)))
      ∧ (t.state = 1 ∨ t.state = 3 → exec (.twait sp d a) s = .next ((s.block (.tile a.toNat) sp).switch sp))))
  ∧ (∀ (s : State) (sp : Bool) (z : Size) (x : Bool) (d a b : Reg), s.Clean →
    (∀ pa l, s.noAcquire → s.snapped → s.logFree → s.Versioned .read (s.ctx.g a) z.bytes pa l →
      s.readHeld s.pid s.ctx.act (.dev pa true false 0) z.bytes = false →
      ∀ t e v, t = ((s.issued 4).translated (s.ctx.g a) l).modCtx (fun c => { c with regs := c.regs.setPresent false (.g d) }) →
      e = (s.versionBad pa z.bytes s.ctx.tx.ts.toNat && !s.allLogged ((s.ctx.g a).toNat / 64) ((s.ctx.g a).toNat % 64) z.bytes) →
      v = extend z.bytes (!x) (natOf (((s.seen ((s.ctx.g a).toNat / 64) pa).drop ((s.ctx.g a).toNat % 64)).take z.bytes)) →
      exec (.ldv sp z x d a) s = .next (((if e then t.errorAt pa else t).sendResult (.g d)
        (if e then .err { eff := 0x006, arg := s.ctx.pc, addr := s.ctx.g a } 0 else .g v)).switch sp))
    ∧ (∀ pa l, s.snapped → s.logFree → s.Versioned .write (s.ctx.g a) z.bytes pa l → ∀ off line, off = (s.ctx.g a).toNat % 64 → line = (s.ctx.g a).toNat / 64 →
      (∀ i m data, s.logOf line = some (i, m, data) → s.spanFree (s.ctx.tx.lbase + 128 * i + 8) 8 → s.spanFree (s.ctx.tx.lbase + 128 * i + 64 + off) z.bytes →
        exec (.stv sp z d a) s = .next (((((s.issued 4).translated (s.ctx.g a) l).wr (spadKey s.pid (s.ctx.tx.lbase + 128 * i + 8))
          (bytesOf 8 (m ||| ((2 ^ z.bytes - 1) * 2 ^ off)))).wr (spadKey s.pid (s.ctx.tx.lbase + 128 * i + 64 + off)) (bytesOf z.bytes (s.ctx.g d).toNat)).switch sp))
      ∧ (s.logOf line = none → s.ctx.tx.logn < s.ctx.tx.lcap → s.spanFree (s.ctx.tx.lbase + 128 * s.ctx.tx.logn) 128 →
        exec (.stv sp z d a) s = .next (((((s.issued 4).translated (s.ctx.g a) l).wr (spadKey s.pid (s.ctx.tx.lbase + 128 * s.ctx.tx.logn))
          (bytesOf 8 (line * 64) ++ bytesOf 8 ((2 ^ z.bytes - 1) * 2 ^ off) ++ List.replicate 48 0
            ++ (List.replicate off 0 ++ bytesOf z.bytes (s.ctx.g d).toNat ++ List.replicate (64 - (off + z.bytes)) 0))).modCtx (fun c =>
              { c with tx := { c.tx with logn := c.tx.logn + 1 } })).switch sp))
      ∧ (s.logOf line = none → s.ctx.tx.lcap ≤ s.ctx.tx.logn → exec (.stv sp z d a) s = .next (s.raised { eff := 0x001, arg := s.ctx.g a })))
    ∧ (∀ pa l, s.cx ≠ 4 → s.noAcquire → ¬ (s.ctx.tx.opened = true ∧ s.ctx.tx.rvk = true) → s.Versioned .read (s.ctx.g a) 8 pa l →
      s.readHeld s.pid s.ctx.act (.dev pa true false 0) 8 = false → ∀ v, v = (s.vline (lineOf pa)).ts →
      (s.ctx.g b = 0 ∨ ((s.ctx.g b).toNat ≤ v ∧ v ≤ s.vers.stable) → exec (.ldvw sp d a b) s =
        .next (((((s.issued 4).translated (s.ctx.g a) l).modCtx (fun c => c.setG d (W v))).modVers (fun m =>
          if v ≤ s.vers.stable then m else { m with acquires := m.acquires ++ [(s.ctx.act, v)] })).switch true))
      ∧ (¬ (s.ctx.g b = 0 ∨ ((s.ctx.g b).toNat ≤ v ∧ v ≤ s.vers.stable)) → exec (.ldvw sp d a b) s = .next (s.parks (.version (lineOf pa) (s.ctx.g b).toNat))))
    ∧ ((s.ctx.g a).toNat % z.bytes = 0 → (s.ctx.g a).toNat < 2 ^ 52 →
      (s.ctx.tx.opened = false → exec (.stv sp z d a) s = .next (s.raised { eff := 0x001, arg := s.ctx.txstat }))
      ∧ (s.ctx.tx.opened = true → s.ctx.tx.rvk = true → ∀ r : Raise, r = { eff := Eff.snaplost, arg := s.ctx.tx.ts, addr := s.ctx.g a } →
          exec (.stv sp z d a) s = .next (if s.snapClosed.deliveryHeld s.pid s.cx r then (s.block .drain sp).switch sp else s.snapClosed.fault s.pid s.cx r))))
  ∧ (∀ (s : State) (sp : Bool) (d a : Reg), s.Clean →
    (snapOk (s.ctx.g a) → s.noAcquire →
      (s.ctx.tx.opened = false → exec (.snap sp d a) s =
        .next (s.awaiting ((s.issued 4).asked (.snap d (fld (s.ctx.g a) 40 32) (fld (s.ctx.g a) 20 0))) sp .reply))
      ∧ (s.ctx.tx.opened = true → s.ctx.tx.logn = 0 → exec (.snap sp d a) s =
        .next (s.awaiting ((s.issued 4).retired.asked (.snap d (fld (s.ctx.g a) 40 32) (fld (s.ctx.g a) 20 0))) sp .reply))
      ∧ (s.ctx.tx.opened = true → s.ctx.tx.logn ≠ 0 → exec (.snap sp d a) s = .next (s.raised { eff := 0x001, arg := s.ctx.g a })))
    ∧ (¬ snapOk (s.ctx.g a) → s.noAcquire → exec (.snap sp d a) s = .next (s.raised { eff := 0x001, arg := s.ctx.g a }))
    ∧ (s.ctx.tx.opened = true → s.ctx.tx.rvk = false → s.ownReqs s.ctx.act = false →
      (s.ctx.tx.logn = 0 → exec (.commit sp d) s = .next (s.after sp 4 (fun c => { c.setG d 0 with tx := { c.tx with cfl := false } })))
      ∧ (∀ pas t, s.ctx.tx.logn ≠ 0 → pas.length = s.ctx.tx.logn → (s.issued 4).LogPlaced 0 pas t → ∃ order : List CLine,
        order.Perm (s.logged 0 pas) ∧ order.Pairwise (fun x y => x.pa ≤ y.pa)
        ∧ exec (.commit sp d) s = .next (s.awaiting (t.modVers (fun v => { v with
            nextCommit := v.nextCommit + 1
            commits := v.commits ++ [⟨v.nextCommit, s.pid, s.cx, s.ctx.act, d, s.ctx.tx.ts.toNat, order, 0, none⟩] })) sp .reply)))
    ∧ exec (.abort sp) s = .next (s.after sp 4 (fun c => { c with tx := { c.tx with logn := 0 } }))
    ∧ (s.ctx.tx.opened = true → exec (.vretire sp) s = .next ((s.issued 4).retired.switch sp))
    ∧ (s.ctx.tx.opened = false → exec (.vretire sp) s = .next (s.after sp 4 (fun c => { c with tx := { c.tx with rvk := false } }))))

/-- Element-wise vector instructions, VCVT, VPACK, VUNPACK and VCFG: each active element holds the rule's result, flags join or
NUMERIC is taken. For every state in which each register of the executing context is present and no error waits at one: each row
of the element-wise integer and floating-point tables, and VSCALE, gives a register in which every active element is the result of
its rule on the operands' elements (rounded under VT.RM, saturated under SAT) and every other element is kept; VCVT, VPACK and
VUNPACK likewise with the element widths of their formats; with no flag enabled among those raised, the flags join FLAGS and the
result is written (under sr the draw count advances), with one enabled NUMERIC is taken with EFFARG the flags and EFFLANES the
lanes that raised an enabled flag, and nothing is written. A format the group does not accept, a reserved RM or an operand number
out of range answers ILLEGAL. VCFG sets VT and Gd. (R72, R79, R80, R170, R172, R173, R174, R175, R176, R178, R181, R183) -/
def Obligations.VectorArithmetic : Prop :=
  (∀ op ∈ intLanes ++ floatLanes, ∀ (s : State) (sp sat : Bool) (p : PReg) (d a b : Reg), s.Clean →
    ∀ f w, f = fld s.ctx.num.vt 3 0 → w = fmtWidth f →
      (op.ok f → (op.rounds = true → fld s.ctx.num.vt 6 4 ≤ 5) →
        ∀ rs : Nat → Res,
          (∀ j, rs j = if flag (s.ctx.regs.getP p) j then
              op.elem f (s.env (if op.rounds then fld s.ctx.num.vt 6 4 else 0) (op.sats && sat)) j
                (velem w (s.ctx.regs.getV a) j) (velem w (s.ctx.regs.getV b) j) (velem w (s.ctx.regs.getV d) j)
            else ⟨velem w (s.ctx.regs.getV d) j, 0⟩) →
          ∃ v, (∀ j < 512 / w, velem w v j = (rs j).code % 2 ^ w)
            ∧ s.Delivers (op.form sp sat p d a b) sp (op.rounds && fld s.ctx.num.vt 6 4 == 5) ((List.range (512 / w)).map (fun j => (j, (rs j).fl)))
                (fun c => c.setV d v))
      ∧ (¬ op.ok f → exec (op.form sp sat p d a b) s = .next (s.raised { eff := 0x001, arg := s.ctx.num.vt }))
      ∧ (op.ok f → op.rounds = true → 6 ≤ fld s.ctx.num.vt 6 4 →
          exec (op.form sp sat p d a b) s = .next (s.raised { eff := 0x001, arg := s.ctx.num.vt })))
  ∧ (∀ (s : State) (sp sat : Bool) (p : PReg) (d a b : Reg) (n : BitVec 5), s.Clean →
    ∀ (vt : Word) (f g rm : Nat) (va vb : Nat → Nat → Nat) (old : Nat → Nat → Nat) (act : Nat → Bool), vt = s.ctx.num.vt → f = fld vt 3 0 → g = fld vt 11 8 → rm = fld vt 6 4 →
      va = (fun w j => velem w (s.ctx.regs.getV a) j) → vb = (fun w j => velem w (s.ctx.regs.getV b) j) → old = (fun w j => velem w (s.ctx.regs.getV d) j) →
      act = (fun j => flag (s.ctx.regs.getP p) j) →
      -- VCVT
      (g ≠ 7 → rm ≤ 5 → n.toNat < max (fmtWidth f) (fmtWidth g) / min (fmtWidth f) (fmtWidth g) →
        ∀ cnt rs, cnt = 512 / max (fmtWidth f) (fmtWidth g) →
          (∀ j, rs j = if fmtWidth g ≤ fmtWidth f then
              (if n.toNat * cnt ≤ j ∧ j < n.toNat * cnt + cnt ∧ act j = true then convert f g (s.env rm sat) j (va (fmtWidth f) (j - n.toNat * cnt))
                else ⟨old (fmtWidth g) j, 0⟩)
            else (if j < cnt ∧ act j = true then convert f g (s.env rm sat) j (va (fmtWidth f) (n.toNat * cnt + j)) else ⟨old (fmtWidth g) j, 0⟩)) →
          s.Lanes (.vcvt sp sat p d a n) sp (rm == 5) (fmtWidth g) d rs)
      ∧ (g = 7 ∨ g ≠ 7 ∧ n.toNat < max (fmtWidth f) (fmtWidth g) / min (fmtWidth f) (fmtWidth g) ∧ 6 ≤ rm →
          exec (.vcvt sp sat p d a n) s = .next (s.raised { eff := 0x001, arg := vt }))
      ∧ (g ≠ 7 → max (fmtWidth f) (fmtWidth g) / min (fmtWidth f) (fmtWidth g) ≤ n.toNat →
          exec (.vcvt sp sat p d a n) s = .next (s.raised { eff := 0x001, arg := W n.toNat }))
      -- VPACK
      ∧ (2 ≤ f → f ≤ 6 → ∀ h rs, h = (if f = 6 then 4 else f - 2) →
          (∀ j, rs j = if act j then intRule h sat (intOf f (if j < 512 / fmtWidth f then va (fmtWidth f) j else vb (fmtWidth f) (j - 512 / fmtWidth f)))
            else ⟨old (fmtWidth h) j, 0⟩) →
          s.Lanes (.vpack sp sat p d a b) sp false (fmtWidth h) d rs)
      ∧ (f < 2 ∨ 6 < f → exec (.vpack sp sat p d a b) s = .next (s.raised { eff := 0x001, arg := vt }))
      -- VUNPACK
      ∧ (f ≤ 5 → n.toNat < 2 → ∀ w rs, w = 2 * fmtWidth f →
          (∀ j, rs j = if act j then ⟨wrapTo w (intOf f (va (fmtWidth f) (n.toNat * (512 / w) + j))), 0⟩ else ⟨old w j, 0⟩) →
          s.Lanes (.vunpack sp p d a n) sp false w d rs)
      ∧ (5 < f → exec (.vunpack sp p d a n) s = .next (s.raised { eff := 0x001, arg := vt }))
      ∧ (f ≤ 5 → 2 ≤ n.toNat → exec (.vunpack sp p d a n) s = .next (s.raised { eff := 0x001, arg := W n.toNat }))
      -- VCFG
      ∧ (∀ x, x = s.ctx.g a →
          (fld x 63 48 = 0 ∧ fld x 15 12 = 0 ∧ flag x 7 = false ∧ fld x 6 4 ≤ 5 →
            exec (.vcfg sp d a) s = .next (s.after sp 4 (fun c => { c.setG d (W (512 / fmtWidth (fld x 3 0))) with num := { c.num with vt := x } })))
          ∧ (¬ (fld x 63 48 = 0 ∧ fld x 15 12 = 0 ∧ flag x 7 = false ∧ fld x 6 4 ≤ 5) →
            exec (.vcfg sp d a) s = .next (s.raised { eff := 0x001, arg := x }))))

/-- VCMP and VFCMP write the predicate of their condition; the predicate instructions and moves compute lane by lane. For every
state in which each register of the executing context is present and no error waits at one: VCMP gives a predicate whose bit j is
set exactly when element j is active and the integers stand in the condition; VFCMP the same over the numbers, a NaN unordered,
with its flags (NV for a signalling NaN, or any NaN under an ordering condition) joined or NUMERIC taken; a format outside the
group or a condition above its last answers ILLEGAL. PAND, POR, PXOR, PNOT, PCNT, PFIRST and PSET give a register whose bits are
as the table says; the two moves between a general and a predicate register copy all 64 bits. (R79, R80, R172, R173, R177, R188)
-/
def Obligations.ComparesAndPredicates : Prop :=
  (∀ (s : State) (sp : Bool) (m : BitVec 3) (d p : PReg) (a b : Reg), s.Clean →
    ∀ f w x y, f = fld s.ctx.num.vt 3 0 → w = fmtWidth f → x = (fun j => velem w (s.ctx.regs.getV a) j) → y = (fun j => velem w (s.ctx.regs.getV b) j) →
      (f ≤ 6 → m.toNat ≤ 5 → ∀ r, (∀ j, bitOf r j = true ↔ j < 512 / w ∧ flag (s.ctx.regs.getP p) j = true ∧ intHolds m.toNat (intOf f (x j)) (intOf f (y j))) →
        exec (.vcmp sp m d p a b) s = .next (s.after sp 4 (fun c => c.setP d (W r))))
      ∧ (12 ≤ f → ∀ r, (∀ j, bitOf r j = true ↔ j < 512 / w ∧ flag (s.ctx.regs.getP p) j = true ∧ numHolds m.toNat (numOf f (x j)) (numOf f (y j))) →
        s.Delivers (.vfcmp sp m d p a b) sp false
          (((List.range (512 / w)).filter (fun j => flag (s.ctx.regs.getP p) j)).map (fun j => (j, compareFlag m.toNat (numOf f (x j)) (numOf f (y j)))))
          (fun c => c.setP d (W r)))
      ∧ (f ≤ 6 → 6 ≤ m.toNat → exec (.vcmp sp m d p a b) s = .next (s.raised { eff := 0x001 }))
      ∧ (7 ≤ f → exec (.vcmp sp m d p a b) s = .next (s.raised { eff := 0x001, arg := s.ctx.num.vt }))
      ∧ (f < 12 → exec (.vfcmp sp m d p a b) s = .next (s.raised { eff := 0x001, arg := s.ctx.num.vt })))
  ∧ (∀ (s : State) (sp : Bool), s.Clean →
    (∀ row ∈ predRows, ∀ (d a b : PReg), ∃ r, row.2 (s.ctx.regs.getP a) (s.ctx.regs.getP b) r
      ∧ exec (row.1 sp d a b) s = .next (s.after sp 4 (fun c => c.setP d r)))
    ∧ (∀ (d : Reg) (a : PReg), exec (.vmovPredToGpr sp d a) s = .next (s.afterG sp 4 d (s.ctx.regs.getP a)))
    ∧ (∀ (d : PReg) (a : Reg), exec (.vmovGprToPred sp d a) s = .next (s.after sp 4 (fun c => c.setP d (s.ctx.g a)))))

/-- Vector moves and permutations, reductions in the tree of R88, and VDOT. For every state in which each register of the
executing context is present and no error waits at one: VMOV, VBCAST, VSHUF, VPERM, VSLIDE, VEXPAND and VSEL give each active
element as Table 7.8 says and keep the others; VCOMPRESS packs the active elements from element 0 and clears the rest; VEXT gives
Gd the element (sign-extended for a signed format) and VINS replaces it, an index out of range answering ILLEGAL with the index.
VREDADD, VREDMAX and VREDMIN give element 0 the root of the tree of R88 (floating) or the total, greatest or least of the
participating integers, every other element 0, with the flags of the tree's nodes delivered; VDOT adds the products of each group
of 32/w elements to the 32-bit lane. A format the group does not accept, or a reserved RM, answers ILLEGAL. (R79, R80, R88, R172,
R173, R185, R186, R187) -/
def Obligations.MovesAndReductions : Prop :=
  (∀ (s : State) (sp : Bool) (p : PReg) (d a b : Reg), s.Clean →
    ∀ (f w n : Nat) (ga gb : Word) (x y old : Nat → Nat) (act : Nat → Bool), f = fld s.ctx.num.vt 3 0 → w = fmtWidth f → n = 512 / w →
      ga = s.ctx.g a → gb = s.ctx.g b →
      x = (fun j => velem w (s.ctx.regs.getV a) j) → y = (fun j => velem w (s.ctx.regs.getV b) j) → old = (fun j => velem w (s.ctx.regs.getV d) j) →
      act = (fun j => flag (s.ctx.regs.getP p) j) →
      (∀ row ∈ moveRows n, ∃ v, (∀ j < n, velem w v j = if act j then row.2 w ga gb x y old act j else old j)
        ∧ exec (row.1 sp p d a b) s = .next (s.after sp 4 (fun c => c.setV d v)))
      ∧ (∃ v, (∀ j < n, velem w v j = if act j then x j else y j) ∧ exec (.vsel sp p d a b) s = .next (s.after sp 4 (fun c => c.setV d v)))
      ∧ (∃ v, (∀ j < n, velem w v j = (((List.range n).filter act).map x).getD j 0) ∧ exec (.vcompress sp p d a) s = .next (s.after sp 4 (fun c => c.setV d v)))
      ∧ (gb.toNat < n → exec (.vext sp d a b) s = .next (s.afterG sp 4 d (if f ∈ [0, 2, 4, 6] then sext64 w (x gb.toNat) else W (x gb.toNat))))
      ∧ (n ≤ gb.toNat → exec (.vext sp d a b) s = .next (s.raised { eff := 0x001, arg := gb }))
      ∧ (gb.toNat < n → ∃ v, (∀ j < n, velem w v j = if j = gb.toNat then ga.toNat % 2 ^ w else old j)
          ∧ exec (.vins sp d a b) s = .next (s.after sp 4 (fun c => c.setV d v)))
      ∧ (n ≤ gb.toNat → exec (.vins sp d a b) s = .next (s.raised { eff := 0x001, arg := gb })))
  ∧ (∀ (s : State) (sp sat : Bool) (p : PReg) (d a b : Reg), s.Clean →
    ∀ (f w n rm : Nat) (x y : Nat → Nat) (act : Nat → Bool), f = fld s.ctx.num.vt 3 0 → w = fmtWidth f → n = 512 / w → rm = fld s.ctx.num.vt 6 4 →
      x = (fun j => velem w (s.ctx.regs.getV a) j) → y = (fun j => velem w (s.ctx.regs.getV b) j) → act = (fun j => flag (s.ctx.regs.getP p) j) →
      (12 ≤ f → ∀ row ∈ floatReductions, (row.2.1 = true → rm ≤ 5) → ∀ K, n = 2 ^ K → ∃ v,
        velem w v 0 = (((redNode (row.2.2.1 f (s.env (if row.2.1 then rm else 0) (row.2.1 && sat))) x act K 0).map (fun e => e.2)).getD (row.2.2.2 f)) % 2 ^ w
        ∧ (∀ j, 0 < j → j < n → velem w v j = 0)
        ∧ s.Delivers (row.1 sp sat p d a) sp (row.2.1 && rm == 5)
            (redFlags (row.2.2.1 f (s.env (if row.2.1 then rm else 0) (row.2.1 && sat))) x act K) (fun c => c.setV d v))
      ∧ (f ≤ 6 → ∀ row ∈ intReductions, ∃ z v, row.2.2 f (fun j => intOf f (x j)) ((List.range n).filter act) z
        ∧ velem w v 0 = (row.2.1 f sat z).code % 2 ^ w ∧ (∀ j, 0 < j → j < n → velem w v j = 0)
        ∧ s.Delivers (row.1 sp sat p d a) sp false [(0, (row.2.1 f sat z).fl)] (fun c => c.setV d v))
      ∧ (f ≤ 3 ∨ f = 12 ∨ f = 13 → (12 ≤ f → rm ≤ 5) → ∀ rs : Nat → Res,
          (∀ j, rs j = if act j then (if f ≤ 3 then intRule (if f = 0 ∨ f = 2 then 4 else 5) sat (intOf (if f = 0 ∨ f = 2 then 4 else 5) (velem 32 (s.ctx.regs.getV d) j)
                + ((List.range (32 / w)).map (fun k => intOf f (x (32 / w * j + k)) * intOf f (y (32 / w * j + k)))).sum)
              else dotLane f (s.env rm sat) j (velem 32 (s.ctx.regs.getV d) j) ((List.range (32 / w)).map (fun k => (x (32 / w * j + k), y (32 / w * j + k)))))
            else ⟨velem 32 (s.ctx.regs.getV d) j, 0⟩) →
          s.Lanes (.vdot sp sat p d a b) sp (decide (12 ≤ f) && rm == 5) 32 d rs)
      ∧ (¬ (f ≤ 6 ∨ 12 ≤ f) ∨ 12 ≤ f ∧ 6 ≤ rm → exec (.vredadd sp sat p d a) s = .next (s.raised { eff := 0x001, arg := s.ctx.num.vt }))
      ∧ (¬ (f ≤ 6 ∨ 12 ≤ f) → ∀ i ∈ [Instr.vredmax sp p d a, .vredmin sp p d a], exec i s = .next (s.raised { eff := 0x001, arg := s.ctx.num.vt }))
      ∧ (¬ (f ≤ 3 ∨ f = 12 ∨ f = 13) ∨ (f = 12 ∨ f = 13) ∧ 6 ≤ rm → exec (.vdot sp sat p d a b) s = .next (s.raised { eff := 0x001, arg := s.ctx.num.vt })))

/-- Vector loads fill active elements, and the checks of R190 stop every vector memory form before any access. For every state in
which each register of the executing context is present and no error waits at one: VLD, VLDS and VGATHER whose active elements
pass the checks and are found at their homes answer a state in which Vd holds the elements read in the own scratchpad, 0 for
elements at or past GLIM, and the old elements elsewhere; with every accessed element in the local window at once, otherwise Vd is
absent and, if an element lies at another home, one request brings the rest. For any of the six forms whose elements no stack rule moves, the
first active element that is unaligned or has an address out of range makes the instruction answer ALIGN with that address and
EFFLANES the elements at fault, and under STRICT the first element at or past GLIM PERM with its number; nothing is accessed.
(R19, R189, R190, R191, R192, R193, R195) -/
def Obligations.VectorLoadsAndChecks : Prop :=
  (∀ (s : State) (sp strict : Bool) (p : PReg) (d a b : Reg), s.Clean → ∀ f ∈ vectorLoads sp strict p d a b, ∀ L t,
    s.VAccess .read f.2 p a b L t → (∀ e ∈ L, s.nearFree (s.ew / 8) e.1) → (∀ e ∈ L, e.1.home.own s.pid = true → s.bad e.1.home.key (s.ew / 8) = false) →
    ∀ v : VWord, (∀ i < 512 / s.ew,
        (i ∉ s.active p → velem s.ew v i = velem s.ew (s.ctx.regs.getV d) i)
        ∧ (i ∈ s.active p → s.past f.2 b i = true → velem s.ew v i = 0)
        ∧ (∀ e ∈ L, e.1.i = i → velem s.ew v i = if e.1.home.own s.pid then natOf (Memory.rds s.mem e.1.home.key (s.ew / 8)) else velem s.ew (s.ctx.regs.getV d) i)) →
    ((∀ e ∈ L, e.1.ea.toNat < 0x180000) → exec f.1 s = .next ((s.putPast f.2 p b (t.modCtx (fun c => c.setV d v))).switch sp))
    ∧ (¬ (∀ e ∈ L, e.1.ea.toNat < 0x180000) → ∀ far, far = (L.map (fun e => e.1)).filter (fun x => !x.home.own s.pid) →
      ∀ u : State, u = (s.putPast f.2 p b t).modCtx (fun c => { c with regs := c.regs.setPresent false (.v d) }) →
        (far = [] → exec f.1 s = .next ((u.sendResult (.v d) (.v v)).switch sp))
        ∧ (far ≠ [] → exec f.1 s = .next ((u.post (far.map (fun x => ⟨x.home, s.ew / 8⟩)) (.vload (s.ew / 8) (far.map (fun x => (x.i, x.ea))) d v [])
            false false s.ctx.pc 0).switch sp))))
  ∧ (∀ (s : State) (sp strict : Bool) (p : PReg) (d a b : Reg), s.Clean → s.noAcquire →
    ∀ f ∈ vectorLoads sp strict p d a b ++ vectorStores sp strict p d a b,
      (a = 31 → ∀ i ∈ s.active p, s.ctx.space.sklo.toNat ≤ (s.elemAddr f.2 a b i).toNat) →
      (∀ i r, s.active p = i ++ r → (∀ j ∈ i, (s.elemAddr f.2 a b j).toNat % (s.ew / 8) = 0 ∧ (s.elemAddr f.2 a b j).toNat < 2 ^ 52) → ∀ j q, r = j :: q →
        ¬ ((s.elemAddr f.2 a b j).toNat % (s.ew / 8) = 0 ∧ (s.elemAddr f.2 a b j).toNat < 2 ^ 52) →
        ∃ m, (∀ n, bitOf m n = true ↔ n ∈ s.active p ∧ ¬ ((s.elemAddr f.2 a b n).toNat % (s.ew / 8) = 0 ∧ (s.elemAddr f.2 a b n).toNat < 2 ^ 52))
          ∧ exec f.1 s = .next (s.raised { eff := 0x003, addr := s.elemAddr f.2 a b j, lanes := W m, stk := a == 31 }))
      ∧ ((∀ j ∈ s.active p, (s.elemAddr f.2 a b j).toNat % (s.ew / 8) = 0 ∧ (s.elemAddr f.2 a b j).toNat < 2 ^ 52) → f.2 = .indexed true →
        ∀ i j q, s.active p = i ++ j :: q → (∀ n ∈ i, s.past f.2 b n = false) → s.past f.2 b j = true →
        ∃ m, (∀ n, bitOf m n = true ↔ n ∈ s.active p ∧ s.past f.2 b n = true)
          ∧ exec f.1 s = .next (s.raised { eff := 0x005, arg := W j, addr := s.elemAddr f.2 a b j, lanes := W m, stk := a == 31 })))

/-- Vector stores write active elements, the last of equal places winning; VSCATADD sends its additions to the homes. For every
state in which each register of the executing context is present and no error waits at one: VST, VSTS and VSCATTER whose active
elements pass the checks and meet no error write the elements whose home is the own scratchpad, in ascending order, and send one
request with the others; a byte of the scratchpad that no element covers reads as before, and a byte that an element covers and no
later one does holds that element's byte (memory in canonical form); elements at or past GLIM are not stored and set their bits of
P7. VSCATADD under INT32, UINT32, FP32 or FP64 (with RM below 5) sends one request with the active elements to add at their homes, and the
adds in the own scratchpad, below every watermark, are performed at once; another format or RM answers ILLEGAL. (R189, R190, R193, R194, R195) -/
def Obligations.VectorStoresAndAdds : Prop :=
  (∀ (s : State) (sp strict : Bool) (p : PReg) (d a b : Reg), s.Clean → ∀ f ∈ vectorStores sp strict p d a b, ∀ L t,
    s.VAccess .write f.2 p a b L t → (∀ e ∈ L, s.nearFree (s.ew / 8) e.1) → (∀ e ∈ L, s.homeBad e.1.home (s.ew / 8) = false) →
    ∀ kept near far u data, kept = (if f.2 = .contiguous then L.map (fun e => e.1) else lastLanes (L.map (fun e => e.1))) →
      near = kept.filter (fun x => x.home.own s.pid) → far = kept.filter (fun x => !x.home.own s.pid) →
      data = (fun i => velem s.ew (s.ctx.regs.getV d) i) → u = (s.putPast f.2 p b t).nearStored (s.ew / 8) data near →
      (far = [] → exec f.1 s = .next (u.switch sp))
      ∧ (far ≠ [] → exec f.1 s = .next ((u.post (far.map (fun x => ⟨x.home, s.ew / 8⟩))
          (.vstore (far.map (fun x => bytesOf (s.ew / 8) (data x.i))) (far.map (fun x => (x.i, x.ea))) (wholeLines (s.ew / 8) kept) []) false false s.ctx.pc 0).switch sp))
      ∧ (s.memOk → (∀ j, (∀ x ∈ near, ¬ x.covers (s.ew / 8) j) → Memory.rd u.mem j = Memory.rd s.mem j)
          ∧ (∀ pre x rest, near = pre ++ x :: rest → ∀ q < s.ew / 8, (∀ y ∈ rest, ¬ y.covers (s.ew / 8) (x.home.key + q)) →
              Memory.rd u.mem (x.home.key + q) = BitVec.ofNat 8 (data x.i / 256 ^ q))))
  ∧ (∀ (s : State) (sp strict : Bool) (p : PReg) (d a b : Reg), s.Clean →
    (∀ L t, s.VAccess .rmw (.indexed strict) p a b L t → (∀ e ∈ L, s.homeBad e.1.home (s.ew / 8) = false) →
      (∀ e ∈ L, ∀ off, e.1.home = .spad s.pid off → s.marked s.pid off (s.ew / 8) = false) →
      ∀ f rm, f = fld s.ctx.num.vt 3 0 → rm = fld s.ctx.num.vt 6 4 → (f = 4 ∨ f = 5 ∨ (f = 14 ∨ f = 15) ∧ rm < 5) →
      (L = [] → exec (.vscatadd sp strict p d a b) s = .next ((s.putPast (.indexed strict) p b t).switch sp))
      ∧ (L ≠ [] → exec (.vscatadd sp strict p d a b) s = .next ((((s.putPast (.indexed strict) p b t).post (L.map (fun e => ⟨e.1.home, s.ew / 8⟩))
          (.adds f rm (fld s.ctx.num.flagen 6 0) (L.map (fun e => (e.1.i, e.1.ea, velem s.ew (s.ctx.regs.getV d) e.1.i))) 0 0 [])
          false false s.ctx.pc 0).performLocal s.pid s.net.nextReq L.length).switch sp)))
    ∧ (s.noAcquire → ∀ f rm, f = fld s.ctx.num.vt 3 0 → rm = fld s.ctx.num.vt 6 4 → ¬ (f = 4 ∨ f = 5 ∨ (f = 14 ∨ f = 15) ∧ rm < 5) →
        exec (.vscatadd sp strict p d a b) s = .next (s.raised { eff := 0x001, arg := s.ctx.num.vt })))

/-- TLBI, MAPLID, SYSRD, SYSWR and PREFETCH; CTXSAVE and CTXLOAD: privilege, statuses in order, what is saved and loaded. For
every state in which each register of the executing context is present and no error waits at one: PREFETCH with legal fields goes
on and changes nothing else; TLBI, MAPLID, SYSRD and SYSWR answer PRIV at user level; at supervisor level TLBI with legal fields
removes exactly the matching entries of the TLBs of its scope, once no request of the context is open and no translated access or
commit that was there when it first issued, and else waits; MAPLID of a running launch's id asks the lead die and waits; SYSRD brings the named register to Gd, SYSWR
sends the write; fields out of range answer ILLEGAL with the operand. Both encodings of CTXSAVE and CTXLOAD answer PRIV at user
level and ILLEGAL for Gb above 1; they give Gd status 1 for an unaligned address, then the status of the page checks, then 4 for a
state in which the operation is not legal (for loads 5 for a wrong header or layout, 6 for uncorrectable data). CTXSAVE of a live
context writes its image, records its hidden state, marks its rank streams SAVED and frees the context without ending it; of a
quiet core it gives status 0 and leaves the core as at reset but for what R407 keeps. CTXLOAD of a good context image makes the
named context hold what the image holds, and of a good core image restores counters, mailbox registers and channel marks. Where
the layout of the image is the device's (log 8), or the order of the checks is inferred (logs 22, 24, 25), the statement rests on
the model's choice. (R392, R404, R406, R407, R408, R409, R410, R413, R414, R415, R416, R417) -/
def Obligations.SystemInstructionsAndImages : Prop :=
  (∀ (s : State) (sp : Bool) (d a b : Reg), s.Clean → ∀ x y, x = s.ctx.g a → y = s.ctx.g b →
    -- PREFETCH
    (fld y 63 2 = 0 → fld y 1 0 ≠ 3 → exec (.prefetch sp a b) s = .next ((s.issued 4).switch sp))
    ∧ (¬ (fld y 63 2 = 0 ∧ fld y 1 0 ≠ 3) → exec (.prefetch sp a b) s = .next (s.raised { eff := 0x001, arg := y }))
    -- the other four at user level
    ∧ (s.ctx.stat.sup = false → ∀ i ∈ [Instr.tlbi sp a b, .maplid sp d a b, .sysrd sp d a, .syswr sp a b], exec i s = .next (s.raised { eff := 0x002 }))
    ∧ (s.ctx.stat.sup = true →
      -- TLBI
      (fld y 63 32 = 0 ∧ fld y 15 3 = 0 ∧ fld y 1 0 ≠ 3 →
        ∀ n m, (n, m) = s.tlbiSince →
        (s.ownReqs s.ctx.act = false → s.translatedOpen n m = false → ∀ scope : Nat → Prop, (∀ e, scope e ↔ (flag y 2 = true ∨ e = dieOf s.pid)) →
          ∃ t : State, exec (.tlbi sp a b) s = .next (t.switch sp)
            ∧ (∀ q, scope (dieOf q) → t.coreAt q = { s.coreAt q with tlb := (s.coreAt q).tlb.filter (fun e => !e.matches (fld y 1 0) (fld y 31 16) x.toNat) })
            ∧ (∀ q, ¬ scope (dieOf q) → t.coreAt q = s.coreAt q)
            ∧ (∀ e, scope e → t.dieAt e = { s.dieAt e with tlb := (s.dieAt e).tlb.filter (fun e => !e.matches (fld y 1 0) (fld y 31 16) x.toNat) })
            ∧ (∀ e, ¬ scope e → t.dieAt e = s.dieAt e)
            ∧ { t with cores := s.cores, dies := s.dies } = s.issued 4)
        ∧ (s.ownReqs s.ctx.act = true → exec (.tlbi sp a b) s = .next ((s.block .drain sp).switch sp))
        ∧ (s.ownReqs s.ctx.act = false → s.translatedOpen n m = true → exec (.tlbi sp a b) s =
            .next ((s.block (.tlbi n m (fld y 1 0) (fld y 31 16) x.toNat (flag y 2)) sp).switch sp)))
      ∧ (¬ (fld y 63 32 = 0 ∧ fld y 15 3 = 0 ∧ fld y 1 0 ≠ 3) → exec (.tlbi sp a b) s = .next (s.raised { eff := 0x001, arg := y }))
      -- MAPLID
      ∧ (fld x 31 12 = 0 → fld y 62 11 = 0 → ∀ l, s.launch? (fld x 63 32) = some l → l.phase = 1 → fld x 11 0 < l.size →
          exec (.maplid sp d a b) s = .next (s.awaiting ((s.issued 4).asked (.mapLid d (fld x 63 32) (fld x 11 0) y.toNat)) sp .reply))
      ∧ (fld x 31 12 ≠ 0 ∨ (fld x 31 12 = 0 ∧ fld y 62 11 = 0 ∧ ∀ l, s.launch? (fld x 63 32) = some l → ¬ (l.phase = 1 ∧ fld x 11 0 < l.size)) →
          exec (.maplid sp d a b) s = .next (s.raised { eff := 0x001, arg := x }))
      ∧ (fld x 31 12 = 0 → fld y 62 11 ≠ 0 → exec (.maplid sp d a b) s = .next (s.raised { eff := 0x001, arg := y }))
      -- SYSRD and SYSWR
      ∧ (selectorOk x false → ∀ u, u = (s.issued 4).modCtx (fun c => { c with regs := c.regs.setPresent false (.g d) }) →
          exec (.sysrd sp d a) s = .next ((u.sendResult (.g d) (.g ((u.special (fld x 26 16) (fld x 30 28) (fld x 13 0)).getD 0))).switch sp))
      ∧ (selectorOk x true → exec (.syswr sp a b) s = .next (((s.issued 4).asked (.sysWr (fld x 26 16) (fld x 30 28) (fld x 13 0) y)).switch sp))
      ∧ (¬ selectorOk x false → exec (.sysrd sp d a) s = .next (s.raised { eff := 0x001, arg := x }))
      ∧ (¬ selectorOk x true → exec (.syswr sp a b) s = .next (s.raised { eff := 0x001, arg := x }))))
  ∧ (∀ (s : State) (sp : Bool) (d a b : Reg), s.Clean → ∀ x y, x = s.ctx.g a → y = s.ctx.g b → ∀ i ∈ saveForms sp d a b,
    (s.ctx.stat.sup = false → exec i s = .next (s.raised { eff := 0x002 }))
    ∧ (s.ctx.stat.sup = true → 2 ≤ y.toNat → exec i s = .next (s.raised { eff := 0x001, arg := y }))
    ∧ (s.ctx.stat.sup = true →
      -- statuses 1 to 4
      (y = 0 → x.toNat % 4096 ≠ 0 → exec i s = .next (s.afterG sp 4 d 1))
      ∧ (y = 1 → x.toNat % 65536 ≠ 0 → exec i s = .next (s.afterG sp 4 d 1))
      ∧ (y = 0 → ∀ e, s.imageRange x 4096 1 .write = .error e → exec i s = .next (s.afterG sp 4 d (W e)))
      ∧ (y = 1 → ∀ e, s.imageRange x 65536 25 .write = .error e → exec i s = .next (s.afterG sp 4 d (W e)))
      ∧ (y = 0 → ∀ h, s.imageRange x 4096 1 .write = .ok [h] → ¬ s.ctx.live s.cx → exec i s = .next (s.afterG sp 4 d 4))
      ∧ (y = 1 → ∀ hs, s.imageRange x 65536 25 .write = .ok hs → ¬ (s.cx = 4 ∧ (s.issued 4).lowFree s.pid = true ∧ s.idsParked s.pid = true) → exec i s = .next (s.afterG sp 4 d 4))
      -- a context: its image is written, and it becomes free without ending
      ∧ (y = 0 → ∀ h, s.imageRange x 4096 1 .write = .ok [h] → s.ctx.live s.cx → s.pageReady 4096 h →
        ∀ u, u = (s.issued 4).put h ((s.issued 4).ctx.image s.pid s.cx s.time s.ctx.sysRec (s.ctx.sysRec.flags ||| Tab.get 0 s.ctx.late 1) (s.outstanding s.ctx.act)) .other →
        ∃ t : State, exec i s = .next t ∧ t.mem = u.mem ∧ t.ctxAt s.pid s.cx = { Ctx.reset with starts := s.ctx.starts, sysGen := s.ctx.sysGen }
          ∧ (∀ q c, ctxKey q c ≠ ctxKey s.pid s.cx → t.ctxAt q c = s.ctxAt q c)
          ∧ (∃ v ∈ t.saved, v.home = h.key ∧ v.pid = s.pid ∧ v.cx = s.cx ∧ v.hid.epoch = s.ctx.epoch ∧ v.hid.tx = s.ctx.tx ∧ v.hid.act = s.ctx.act ∧ v.hid.sysGen = s.ctx.sysGen)
          ∧ (∀ n ∈ [0, 1, 2, 3], (s.stream s.pid n).owner = s.ctx.act → (s.stream s.pid n).state = 1 ∨ (s.stream s.pid n).state = 2 →
              (t.stream s.pid n).state = 3 ∧ (t.stream s.pid n).saved = (s.stream s.pid n).state))
      -- the core: its shared state is as at reset
      ∧ (y = 1 → ∀ hs, s.imageRange x 65536 25 .write = .ok hs → s.cx = 4 → (s.issued 4).lowFree s.pid = true → s.idsParked s.pid = true → s.coreQuiet s.pid = true →
        (∀ h ∈ hs, s.pageReady 65536 h) →
        ∃ t : State, exec i s = .next (t.switch sp) ∧ t.core = s.core.cleared s.stepNo ∧ t.ctx = (s.issued 4).ctx.setG d 0
          ∧ (∃ e ∈ t.images, e.serial = s.stepNo ∧ e.pid = s.pid ∧ e.launch = s.ctx.ident.launch.toNat ∧ e.core = s.core)
          ∧ (∀ q c, ctxKey q c ≠ ctxKey s.pid s.cx → t.ctxAt q c = s.ctxAt q c))))
  ∧ (∀ (s : State) (sp : Bool) (d a b : Reg), s.Clean → ∀ x y, x = s.ctx.g a → y = s.ctx.g b → ∀ i ∈ loadImageForms sp d a b,
    (s.ctx.stat.sup = false → exec i s = .next (s.raised { eff := 0x002 }))
    ∧ (s.ctx.stat.sup = true → 2 ≤ y.toNat → exec i s = .next (s.raised { eff := 0x001, arg := y }))
    ∧ (s.ctx.stat.sup = true →
      (y = 0 → x.toNat % 4096 ≠ 0 → exec i s = .next (s.afterG sp 4 d 1))
      ∧ (y = 1 → x.toNat % 65536 ≠ 0 → exec i s = .next (s.afterG sp 4 d 1))
      ∧ (y = 0 → ∀ e, s.imageRange x 4096 1 .read = .error e → exec i s = .next (s.afterG sp 4 d (W e)))
      ∧ (y = 1 → ∀ e, s.imageRange x 65536 25 .read = .error e → exec i s = .next (s.afterG sp 4 d (W e)))
      -- a context image
      ∧ (y = 0 → ∀ h, s.imageRange x 4096 1 .read = .ok [h] → s.pagesHeld [h] 4096 = false →
        ∀ w n, w = s.imageWords h → n = fld (w.getD 0 0) 34 32 →
        (4 ≤ n ∨ ((s.issued 4).vacant s.pid n = false ∧ n ≠ s.cx) ∨ fld (w.getD 1 0) 10 0 ≠ s.pid ∨ s.imageAway n w = true → exec i s = .next (s.afterG sp 4 d 4))
        ∧ (n < 4 → (s.issued 4).vacant s.pid n = true ∨ n = s.cx → fld (w.getD 1 0) 10 0 = s.pid → s.imageAway n w = false →
          (¬ goodHeader w → exec i s = .next (s.afterG sp 4 d 5))
          ∧ (goodHeader w → s.imageBad [h] 0 4096 = true → exec i s = .next (s.afterG sp 4 d 6))
          ∧ (goodHeader w → s.imageBad [h] 0 4096 = false → flag (w.getD 0 0) 0 = false →
            (n ≠ s.cx → ∃ t : State, exec i s = .next (t.switch sp) ∧ FromImage (t.ctxAt s.pid n) w x ∧ t.ctx = (s.issued 4).ctx.setG d 0
              ∧ (∀ q c, ctxKey q c ≠ ctxKey s.pid n → ctxKey q c ≠ ctxKey s.pid s.cx → t.ctxAt q c = s.ctxAt q c))
            ∧ (n = s.cx → s.outstanding s.ctx.act = false → ∃ t : State, exec i s = .next t ∧ FromImage t.ctx w x ∧ (∀ q c, ctxKey q c ≠ ctxKey s.pid s.cx → t.ctxAt q c = s.ctxAt q c)))))
      -- a core image
      ∧ (y = 1 → ∀ hs, s.imageRange x 65536 25 .read = .ok hs → s.pagesHeld hs 65536 = false → ∀ w from_, w = s.coreWord hs →
        from_ = s.images.find? (fun e => e.pid == s.pid && e.launch == fld (w 8) 63 32 && s.layoutsOf hs e.serial) →
        (¬ (s.cx = 4 ∧ (s.issued 4).lowFree s.pid = true ∧ fld (w 0) 10 0 = s.pid) → exec i s = .next (s.afterG sp 4 d 4))
        ∧ (s.cx = 4 → (s.issued 4).lowFree s.pid = true → fld (w 0) 10 0 = s.pid →
          (¬ goodCoreHeader w → exec i s = .next (s.afterG sp 4 d 5))
          ∧ (goodCoreHeader w →
            (from_ = none → exec i s = .next (s.afterG sp 4 d 5))
            ∧ (∀ e, from_ = some e → s.imageBad hs 0 65536 = true → exec i s = .next (s.afterG sp 4 d 6))
            ∧ (∀ e, from_ = some e → s.imageBad hs 0 65536 = false →
              ∃ t : State, exec i s = .next (t.switch sp) ∧ t.ctx = (s.issued 4).ctx.setG d 0 ∧ (∀ q c, ctxKey q c ≠ ctxKey s.pid s.cx → t.ctxAt q c = s.ctxAt q c)
                ∧ t.core.dlcnt = w 0x10 ∧ t.core.deccnt = w 0x18 ∧ (∀ j : Fin 16, t.core.m[j] = w (0x40 + 8 * j.val))
                ∧ (∀ n < 8, (Tab.get Chan.reset t.core.chans n).mark = fld (w (0xC00 + 8 * n)) 20 0)))))))

/-- CPY, CPYB, CPYM, WMWAIT, SPLD and BANKOP: first failing check, waiting for room, and the copy that starts. For every state in
which each register of the executing context is present and no error waits at one: CPY, CPYB and CPYM answer the effect of their
first failing check (the order of CPYM's checks is DEDUCED, log 38); with Q2 full or the channel busy they wait; else one copy
starts with its items, its channel, its tile holds and one Q2 entry, CPYB with the credit to its barrier, CPYM with one item and
header packet per receiver. WMWAIT gives 0 once the mark has passed, 2 when no ranged copy is open, and else waits, and a wait
that has ended gives the value it ended with; SPLD, once the context's earlier accesses are performed, copies bytes to the side
memory; BANKOP sends one releasing request with its row operation to the row's home, in the own scratchpad performed at once, or
waits for room in Q10; an uncorrectable row answers MEMERR, operands out of range ALIGN or ILLEGAL as their rules say. (R255,
R336, R339, R341, R342, R344, R347, R348, R349, R350, R351, R352) -/
def Obligations.CopyInstructions : Prop :=
  (∀ (s : State) (sp : Bool) (d a b c : Reg), s.Clean → ∀ x y z, x = s.ctx.g a → y = s.ctx.g b → z = s.ctx.g c →
    (∀ r, firstFault (copyChecks s false d x y z) = some r → exec (.cpy sp d a b c) s = .next (s.raised r))
    ∧ (∀ r, firstFault (copyChecks s true d x y z) = some r → exec (.cpyb sp d a b c) s = .next (s.raised r))
    ∧ (firstFault (copyChecks s false d x y z) = none → ¬ s.copyRoom d.toNat → exec (.cpy sp d a b c) s = .next ((s.block .room sp).switch sp))
    ∧ (firstFault (copyChecks s true d x y z) = none → ¬ s.copyRoom d.toNat → exec (.cpyb sp d a b c) s = .next ((s.block .room sp).switch sp))
    ∧ (firstFault (copyChecks s false d x y z) = none → s.copyRoom d.toNat → ∃ t e, exec (.cpy sp d a b c) s = .next (t.switch sp)
        ∧ CopyIssued s t e (copyLocal y z) ∧ CopyStarted s e d.toNat x (fld z 23 0) (flag z 24) ∧ e.bar = none ∧ e.items = [Item.start 0 (copyPlace y z) (fld z 23 0)] ∧ t.net.pkts = s.net.pkts)
    -- CPYB also sends the credit of its barrier (15 R347)
    ∧ (firstFault (copyChecks s true d x y z) = none → s.copyRoom d.toNat → (s.resolve s.ctx.ident.launch.toNat (fld z 54 43)).2 = false →
        ∃ t e, exec (.cpyb sp d a b c) s = .next (t.switch sp)
        ∧ CopyIssued s t e (copyLocal y z) ∧ CopyStarted s e d.toNat x (fld z 23 0) (flag z 24)
        ∧ e.bar = some (s.ctx.ident.launch.toNat, fld z 54 43, fld z 42 38) ∧ e.items = [Item.start 0 (copyPlace y z) (fld z 23 0)]
        ∧ t.net.pkts = s.net.pkts ++ [s.packet (s.resolve s.ctx.ident.launch.toNat (fld z 54 43)).1 (.bar (fld z 42 38) (.credit (fld z 23 0)))
            (some (s.ctx.ident.launch.toNat, fld z 54 43))]))
  ∧ (∀ (s : State) (sp : Bool) (d a b c : Reg), s.Clean → ∀ x y z, x = s.ctx.g a → y = s.ctx.g b → z = s.ctx.g c →
    (∀ r, firstFault (cpymChecks s d x y z) = some r → exec (.cpym sp d a b c) s = .next (s.raised r))
    ∧ (firstFault (cpymChecks s d x y z) = none → ¬ s.copyRoom d.toNat → exec (.cpym sp d a b c) s = .next ((s.block .room sp).switch sp))
    -- each receiver is one item, and its header goes to the receiver at once; no range is held
    ∧ (firstFault (cpymChecks s d x y z) = none → s.copyRoom d.toNat → ∃ t e, exec (.cpym sp d a b c) s = .next (t.switch sp)
        ∧ CopyIssued s t e none ∧ CopyStarted s e d.toNat x (fld z 23 0) (flag z 24) ∧ e.cpym = true ∧ e.sub = flag z 25
        ∧ e.items = (s.cpymCores z).map (fun p => Item.start p.1 (.recv p.2 (fld z 36 32) y.toNat none) (fld z 23 0))
        ∧ e.bar = (if flag z 26 then some (0, 0, fld z 31 27) else none)
        ∧ t.net.pkts = s.net.pkts ++ ((List.range (s.cpymCores z).length).zip (s.cpymCores z)).map (fun p => s.packet p.2.2 (.cpym s.nextCopy p.1) none)))
  ∧ (∀ (s : State) (sp : Bool) (d a b c : Reg), s.Clean → ∀ x y z, x = s.ctx.g a → y = s.ctx.g b → z = s.ctx.g c →
    -- WMWAIT on channel b
    (8 ≤ b.toNat → exec (.wmwait sp d a b) s = .next (s.raised { eff := 0x001, arg := W b.toNat }))
    ∧ (b.toNat < 8 → s.cx = 4 → exec (.wmwait sp d a b) s = .next (s.raised { eff := 0x001 }))
    ∧ (b.toNat < 8 → s.cx ≠ 4 → (∀ e v, s.ctx.run = .stalled (.wmEnd e v) → exec (.wmwait sp d a b) s = .next (s.afterG sp 4 d v))
      ∧ ((∀ e v, s.ctx.run ≠ .stalled (.wmEnd e v)) → ∀ ch, ch = Tab.get Chan.reset s.core.chans b.toNat →
        (ch.copy = none ∨ ch.ranged = false → exec (.wmwait sp d a b) s = .next (s.afterG sp 4 d 2))
        ∧ (ch.copy ≠ none → ch.ranged = true → x.toNat ≤ ch.mark → exec (.wmwait sp d a b) s = .next (s.afterG sp 4 d 0))
        ∧ (∀ n, ch.copy = some n → ch.ranged = true → ch.mark < x.toNat → exec (.wmwait sp d a b) s = .next ((s.block (.wmark b.toNat n x.toNat d) sp).switch sp))))
    -- SPLD
    ∧ (x.toNat % 64 ≠ 0 → exec (.spld sp a b c) s = .next (s.raised { eff := 0x003, addr := x }))
    ∧ (x.toNat % 64 = 0 → y.toNat % 64 ≠ 0 → exec (.spld sp a b c) s = .next (s.raised { eff := 0x003, addr := y }))
    ∧ (x.toNat % 64 = 0 → y.toNat % 64 = 0 →
      (¬ (z.toNat % 64 = 0 ∧ 64 ≤ z.toNat ∧ y.toNat + z.toNat ≤ 32768 ∧ x.toNat + z.toNat ≤ 0x180000) → exec (.spld sp a b c) s = .next (s.raised { eff := 0x001, arg := z }))
      ∧ (z.toNat % 64 = 0 → 64 ≤ z.toNat → y.toNat + z.toNat ≤ 32768 → x.toNat + z.toNat ≤ 0x180000 → s.marked s.pid x.toNat z.toNat = false →
          s.ownAlias (spadKey s.pid x.toNat) z.toNat = false → s.bad (spadKey s.pid x.toNat) z.toNat = false → s.noAcquire → s.ownReqs s.ctx.act = false → s.core.unit.mat.cmds = [] →
          exec (.spld sp a b c) s = .next (((s.issued 4).wr (sideKey s.pid y.toNat) (s.rd (spadKey s.pid x.toNat) z.toNat)).switch sp)))
    -- BANKOP
    ∧ (s.noAcquire → ∀ v : VWord, v = s.ctx.regs.getV b →
      (2 ^ 52 ≤ x.toNat ∨ x.toNat % 64 ≠ 0 → exec (.bankop sp a b c) s = .next (s.raised { eff := 0x003, addr := x }))
      ∧ (x.toNat < 2 ^ 52 → x.toNat % 64 = 0 → ¬ (bankWordOk z ∧ s.rowOf x ≠ none) → exec (.bankop sp a b c) s = .next (s.raised { eff := 0x001, arg := z }))
      ∧ (x.toNat < 2 ^ 52 → x.toNat % 64 = 0 → bankWordOk z → ∀ p off, s.rowOf x = some (p, off) → (p = s.pid → s.marked s.pid off 64 = false) → (s.bad (spadKey p off) 64 = true → exec (.bankop sp a b c) s = .next (s.raised (memErr s.ctx.pc x))) ∧ (s.bad (spadKey p off) 64 = false →
          (flag z 4 = true → 8 < (s.queue s.pid s.cx 10).length + s.fetching s.ctx.act → exec (.bankop sp a b c) s = .next ((s.block (.qFull 10) sp).switch sp))
          ∧ (flag z 4 = false ∨ (s.queue s.pid s.cx 10).length + s.fetching s.ctx.act ≤ 8 → s.rmwFree (.spad p off) 64 true → exec (.bankop sp a b c) s = .next (((s.issued 4).rmwSent (.spad p off) 64 (.bank (fld z 2 0) (fld z 8 6) (flag z 5) (flag z 4) (fld s.ctx.num.flagen 6 0) (fld z 31 16) v) true false s.ctx.pc x).switch sp))))))

/-- Matrix and rank instructions: the first failing check, else one command pushed, or the sequence or stream changed. For every
state in which each register of the executing context is present and no error waits at one: each instruction answers the first of
its checks that fails. MMA, MMAR, MMASP, ACCRD, ACCZ and MSCL wait while Q0 has no room, and else push one command that holds
copies of the records it names, its scales, Gk and its flags, with its entry in Q0; a form under stochastic rounding takes a draw
number. RSORT, RKDENSE, RKGRAD and REMIT push one command with copies of the records named and one Q4 entry, or wait while Q4 is
full, REMIT also sending one holding packet to each receiver; RKSEQ loads its slot; RKARM makes the stream ARMED with the fields
of its words; RKDISARM empties the stream; RKRES reads the stream's result out into its queue and arms it again, or, with no room,
first waits; RKACC writes the sums to the tile, with the flags delivered. EFFARG when backward tiles overlap is the model's
reading (log 27). (R315, R361, R362, R371, R372, R373, R379, R380, R384, R386, R390, R458) -/
def Obligations.MatrixAndRankInstructions : Prop :=
  (∀ (s : State) (sp sat az neg : Bool) (d a b c : Reg), s.Clean →
    (∀ e ∈ products sp sat az neg d a b c, ∀ ta tb tc, ta = s.core.tile a.toNat → tb = s.core.tile b.toNat → tc = s.core.tile d.toNat →
      s.PushesMat e.1 sp (matHurdles s.core (e.2 == 2) d.toNat a.toNat b.toNat (s.ctx.g c))
        { s.matCmd e.2 s.ctx.pc ([a.toNat, b.toNat, d.toNat] ++ ([ta, tb, tc].filter (fun t => t.scen)).map (fun t => t.scale)) d.toNat with
          ta := ta, tb := tb, tc := tc, scaleA := scaleOf s.core ta, scaleB := scaleOf s.core tb, gk := s.ctx.g c, sat := sat, az := az, neg := neg }
        (decide (tc.fmt ≠ 4 ∧ tc.rnd = 5)))
    ∧ s.PushesMat (.accrd sp d a b) sp (accrdHurdles s.core d.toNat a.toNat (s.ctx.g b))
        { s.matCmd 3 s.ctx.pc [a.toNat, d.toNat] a.toNat with
          ta := s.core.tile a.toNat, tc := s.core.tile d.toNat, gk := s.ctx.g b, sat := flag (s.ctx.g b) 0, az := flag (s.ctx.g b) 1 } (decide ((s.core.tile d.toNat).rnd = 5))
    ∧ s.PushesMat (.accz sp d) sp (acczHurdles s.core d.toNat) { s.matCmd 4 s.ctx.pc [d.toNat] d.toNat with tc := s.core.tile d.toNat } false
    ∧ s.PushesMat (.mscl sp d a b) sp (msclHurdles s.core d.toNat (s.ctx.g b))
        { s.matCmd 5 s.ctx.pc [d.toNat] d.toNat with tc := s.core.tile d.toNat, gk := s.ctx.g b, factor := s.ctx.g a, sat := flag (s.ctx.g b) 0 }
        (decide ((s.core.tile d.toNat).fmt ≠ 4 ∧ (s.core.tile d.toNat).rnd = 5)))
  ∧ (∀ (s : State) (sp : Bool) (d a b c : Reg), s.Clean → ∀ k z, k = s.core → z = s.ctx.g c →
    s.PushesRank (.rsort sp d a) sp (rsortHurdles k d.toNat a.toNat) { s.rankCmd 0 s.ctx.pc [a.toNat, d.toNat] d.toNat with t0 := k.tile d.toNat, t1 := k.tile a.toNat } false
    ∧ s.PushesRank (.rkdense sp d a c) sp
        ([ill (backwardWord s false z) z] ++ tileHurdles k d.toNat ++ tileHurdles k a.toNat ++ backwardHurdles [(d.toNat, k.tile d.toNat)] (a.toNat, k.tile a.toNat) [])
        { s.rankCmd 2 s.ctx.pc [d.toNat, a.toNat] d.toNat with t0 := k.tile d.toNat, t1 := k.tile a.toNat, desc := z } (decide ((k.tile d.toNat).rnd = 5))
    ∧ (∀ q dq, q = fld z 24 20 → dq = flag z 25 →
      s.PushesRank (.rkgrad sp d a b c) sp
        ([ill (backwardWord s true z) z] ++ tileHurdles k d.toNat ++ tileHurdles k a.toNat ++ tileHurdles k b.toNat ++ (if dq then tileHurdles k q else [])
          ++ backwardHurdles ((d.toNat, k.tile d.toNat) :: (if dq then [(q, k.tile q)] else [])) (a.toNat, k.tile a.toNat) [(b.toNat, k.tile b.toNat)])
        { s.rankCmd 3 s.ctx.pc ([d.toNat, a.toNat, b.toNat] ++ (if dq then [q] else [])) d.toNat with
          t0 := k.tile d.toNat, t1 := k.tile a.toNat, t2 := k.tile b.toNat, t3 := if dq then k.tile q else Tile.reset, desc := z }
        (decide ((if dq && (k.tile q).rnd == 5 then 5 else (k.tile d.toNat).rnd) = 5))))
  ∧ (∀ (s : State) (sp : Bool) (d a b c : Reg), s.Clean → ∀ x y z, x = s.ctx.g a → y = s.ctx.g b → z = s.ctx.g c →
    -- REMIT
    (∀ m, m = { s.rankCmd 1 s.ctx.pc (d.toNat :: (if flag y 43 then [a.toNat] else [])) d.toNat with
          t0 := s.core.tile d.toNat, t1 := if flag y 43 then s.core.tile a.toNat else Tile.reset, desc := y, targets := s.emitTargets y z } →
      ∀ places, places = (s.emitTargets y z).map (fun n => (n, s.resolve s.ctx.ident.launch.toNat n)) →
      (∀ h, firstHurdle (s.remitHurdles d.toNat a.toNat y z) = some h → exec (.remit sp d a b c) s = s.stopsAt sp h)
      ∧ (firstHurdle (s.remitHurdles d.toNat a.toNat y z) = none → 16 ≤ (s.queue s.pid s.cx 4).length → exec (.remit sp d a b c) s = .next ((s.block .room sp).switch sp))
      ∧ (firstHurdle (s.remitHurdles d.toNat a.toNat y z) = none → (s.queue s.pid s.cx 4).length < 16 →
          exec (.remit sp d a b c) s = .next (((s.pushedRank m false).modNet (fun n => { n with
            pkts := n.pkts ++ (places.filter (fun e => !e.2.2)).map (fun e => { s.packet e.2.1 (.hold m.id) (some (m.launch, e.1)) with after := s.net.nextReq + 1 })
            held := n.held ++ (places.filter (fun e => e.2.2)).map (fun e => ⟨m.launch, e.1, { s.packet e.2.1 (.hold m.id) (some (m.launch, e.1)) with after := s.net.nextReq + 1 }⟩) })).switch sp)))
    -- RKSEQ
    ∧ (∀ h, firstHurdle (s.seqHurdles x y) = some h → exec (.rkseq sp a b) s = s.stopsAt sp h)
    ∧ (firstHurdle (s.seqHurdles x y) = none → exec (.rkseq sp a b) s = .next (((s.issued 4).modRank s.pid (fun u => { u with
        seqs := Tab.set u.seqs y.toNat ⟨(s.fields x.toNat 2 32).getD 1 0 == 1, s.fields (x.toNat + 64) 2 ((s.fields x.toNat 2 32).headD 0)⟩ })).switch sp))
    -- RKARM
    ∧ (∀ h, firstHurdle (s.armHurdles d.toNat a.toNat y z) = some h → exec (.rkarm sp d a b c) s = s.stopsAt sp h)
    ∧ (firstHurdle (s.armHurdles d.toNat a.toNat y z) = none → ∀ l, s.launchOf s.pid s.cx = some l → ∀ tw, tw = s.core.tile a.toNat →
        exec (.rkarm sp d a b c) s = .next (((s.issued 4).setStream s.pid d.toNat { Strm.reset with
          state := 1, owner := s.ctx.act, tw := tw, rect := if flag y 9 then some (s.core.tile (fld y 14 10)) else none, ovb := fld y 52 32, stop := fld y 8 7
          free := flag y 6, seq := fld y 5 4, np := fld y 3 0 + 1, margin := fld z 46 0, wmax := s.weightMax s.pid tw, det := l.det
          sums := List.replicate tw.rows 0, drops := (s.stream s.pid d.toNat).drops, results := (s.stream s.pid d.toNat).results }).switch sp))
    -- RKDISARM
    ∧ (∀ h, firstHurdle (s.streamHurdles d.toNat false) = some h → exec (.rkdisarm sp d) s = s.stopsAt sp h)
    ∧ (firstHurdle (s.streamHurdles d.toNat false) = none → ∀ t, t = s.stream s.pid d.toNat →
        (t.state = 0 → exec (.rkdisarm sp d) s = .next ((s.issued 4).switch sp))
        ∧ (t.state ≠ 0 → exec (.rkdisarm sp d) s = .next (((s.issued 4).setStream s.pid d.toNat { t.freeze with state := 0, queue := [] }).switch sp)))
    -- RKRES
    ∧ (∀ h, firstHurdle (s.streamHurdles a.toNat true) = some h → exec (.rkres sp d a) s = s.stopsAt sp h)
    ∧ (firstHurdle (s.streamHurdles a.toNat true) = none → ∀ t u, t = s.stream s.pid a.toNat → u = { t with disc := t.disc + t.queue.length, queue := [] } →
        (t.results ≠ [] ∨ 14 < (s.queue s.pid s.cx (5 + a.toNat)).length →
          exec (.rkres sp d a) s = .next (s.awaiting ((s.issued 4).setStream s.pid a.toNat { u with state := 2 }) sp .room))
        ∧ (t.results = [] → (s.queue s.pid s.cx (5 + a.toNat)).length ≤ 14 →
          ∃ v : State, exec (.rkres sp d a) s = .next (v.switch sp) ∧ v.stream s.pid a.toNat = { u with
            state := 1, owner := s.ctx.act, sums := u.sums.map (fun _ => 0), pos := 0, disc := 0, ovl := false, seen := [], did := [], round := 0 }
          ∧ v.queue s.pid s.cx (5 + a.toNat) = s.queue s.pid s.cx (5 + a.toNat) ++ [u.word0 3, u.word1] ∧ (d ≠ 0 → v.ctx.g d = W u.disc)))
    -- RKACC
    ∧ (∀ t td hs outs, t = s.stream s.pid a.toNat → td = s.core.tile d.toNat →
        hs = s.streamHurdles a.toNat true ++ tileHurdles s.core d.toNat ++ [tileFaultAt (td.fmt != 6 && td.fmt != 14 && td.fmt != 15) d.toNat]
          ++ [ill (decide (6 ≤ (if td.fmt = 6 then 0 else td.rnd))) (W d.toNat)] →
        outs = ((List.range t.sums.length).zip t.sums).map (s.accOut t td) →
        (∀ h, firstHurdle hs = some h → exec (.rkacc sp d a) s = s.stopsAt sp h)
        ∧ (firstHurdle hs = none → (∀ o ∈ outs, o.fl &&& fld s.ctx.num.flagen 6 0 = 0) →
          exec (.rkacc sp d a) s = .next ((s.accumulated td outs).switch sp))))

/-- What becomes of a message at its target NI: pending, held, landed, dropped or answered. A VN0 message that arrives at a core
whose pending buffer is full is held in the network; one whose slot is invalid or of another generation is dropped with its
notice; an accepted message waits in the pending buffer or lands its transformed bytes, unless a byte is below a watermark (held)
or past the scratchpad (dropped), an ADDF32 landing of a child of a deterministic launch being held until its siblings' have
landed. A held landing lands once released; a message bound to a queue is pushed when it fits; a dropped one raises DEADMSG at its
sender by its notice; a decrement counts down its live pending record or is counted lost; a record at zero goes to the deque; a
subscription changes the routers and lets its context go on. That a full pending buffer blocks every message is the model's choice
(log 43), what of R220 holds is log 28. (R198, R199, R215, R220, R229, R231, R232, R233, R239, R353) -/
def Obligations.MessageArrival : Prop :=
  (∀ (s : State) (i : Nat) (p : Pkt) (m0 : Msg), s.Arrives i p → p.body = .msg m0 →
  (32 ≤ (s.coreAt p.dst).pending.length → exec (.messageArrival i) s = .next (s.holdArrival i))
  ∧ ((s.coreAt p.dst).pending.length < 32 → (s.coreAt p.dst).received m0 = none → exec (.messageArrival i) s = .next (s.taken i))
  ∧ (∀ m, (s.coreAt p.dst).pending.length < 32 → (s.coreAt p.dst).received m0 = some m →
      ((s.coreAt p.dst).slot m.chan).gen ≠ m.gen ∨ ((s.coreAt p.dst).slot m.chan).valid = false →
      exec (.messageArrival i) s = .next ((s.taken i).dropped p.dst m))
  ∧ ∀ m, s.Accepts p.dst m0 m →
    (m.land = none → exec (.messageArrival i) s = .next (((s.taken i).modCoreAt p.dst (fun k => { k with pending := k.pending ++ [m] })).wakeIdle p.dst))
    ∧ ∀ xf addr data, m.land = some (xf, addr, data) →
      (s.marked p.dst addr (transform xf data).1.length = true → exec (.messageArrival i) s = .next (s.holdArrival i))
      ∧ (s.marked p.dst addr (transform xf data).1.length = false →
        (∀ x, m.sib = some x → xf = 5 → (s.taken i).sibHeld x = true → exec (.messageArrival i) s =
          .next ((s.taken i).modNet (fun n => { n with lands := n.lands ++ [⟨p.dst, { p with body := .msg m }, x⟩] })))
        ∧ ((∀ x, m.sib = some x → xf = 5 → (s.taken i).sibHeld x = false) →
          (0x180000 < addr + (transform xf data).1.length → exec (.messageArrival i) s = .next ((s.taken i).dropped p.dst m))
          ∧ (addr + (transform xf data).1.length ≤ 0x180000 → exec (.messageArrival i) s = .next ((s.taken i).landingMade p.dst m xf addr data)))))
  ∧ ((∀ (s : State) (i : Nat) (h : HeldLand) (m : Msg) (xf addr : Nat) (data : List Byte), s.net.lands[i]? = some h → h.pkt.body = .msg m →
    m.land = some (xf, addr, data) → s.sibHeld h.sib = false → (flag m.desc 19 = true → (s.coreAt h.core).pending.length < 32) →
    s.marked h.core addr (transform xf data).1.length = false →
    exec (.deterministicHoldRelease i) s = .next (
      let u := s.modNet (fun n => { n with lands := n.lands.eraseIdx i })
      if 0x180000 < addr + (transform xf data).1.length then u.dropped h.core m else u.landingMade h.core m xf addr data))
  ∧ (∀ (s : State) (core i : Nat) (m : Msg), (s.coreAt core).pending[i]? = some m →
      ((s.coreAt core).slot m.chan).gen = m.gen → ((s.coreAt core).slot m.chan).valid = true → ((s.coreAt core).slot m.chan).msk = false →
      12 ≤ ((s.coreAt core).slot m.chan).qb → (∀ x ∈ (s.coreAt core).pending.take i, x.chan ≠ m.chan) →
      (Tab.get [] (s.coreAt core).qs ((s.coreAt core).slot m.chan).qb).length + m.payload.length ≤ 16 →
      exec (.boundQueuePush core i) s =
        .next ((s.modCoreAt core (fun k => { k with pending := k.pending.eraseIdx i })).push core 0 ((s.coreAt core).slot m.chan).qb m.payload))
  ∧ (∀ (s : State) (core i : Nat) (m : Msg), (s.coreAt core).pending[i]? = some m → (s.coreAt core).stale m = true →
      exec (.boundQueuePush core i) s = .next ((s.modCoreAt core (fun k => { k with pending := k.pending.eraseIdx i })).dropped core m))
  ∧ (∀ (s : State) (i : Nat) (n : Nack), s.net.nacks[i]? = some n →
      exec (.deadmsgResponse i) s = .next ((s.modNet (fun net => { net with nacks := net.nacks.eraseIdx i })).noticed n.act ⟨Eff.deadmsg, n.raise⟩))
  ∧ (∀ (s : State) (i slot gen : Nat) (p : Pkt), s.Arrives i p → p.body = .dec slot gen →
      (∀ g t, s.pendingRec p.dst slot g t → g % 2 ^ 16 = gen → t.cnt ≠ 0 →
        exec (.decrementArrival i) s = .next ((s.taken i).setPending p.dst slot ⟨g, some { t with cnt := t.cnt - 1 }⟩))
      ∧ ((∀ g t, s.pendingRec p.dst slot g t → g % 2 ^ 16 = gen → t.cnt = 0) →
        exec (.decrementArrival i) s = .next ((s.taken i).modCoreAt p.dst (fun k => { k with dlcnt := k.dlcnt + 1 }))))
  ∧ (∀ (s : State) (core slot gen : Nat) (t : Task), s.pendingRec core slot gen t → t.cnt = 0 →
      let l := s.launchOr t.launch
      (s.coreAt core).deque.length < 64 + l.dqsp →
      exec (.pendingRecordRelease core slot) s = .next (((if l.det then s else s.modDieAt (dieOf core) (fun d => { d with nextTask := d.nextTask + 1 })).setPending core slot
        ⟨gen, none⟩).setDeque core ({ t with id := if l.det then t.path else dieOf core * 2 ^ 40 + (s.dieAt (dieOf core)).nextTask, since := s.time } :: (s.coreAt core).deque)))
  ∧ (∀ (s : State) (i : Nat) (a : Asked) (on : Bool) (tag : Nat), s.net.asks[i]? = some a → a.ask = .subTag on tag →
      (s.ctxAt a.pid a.cx).act = a.act → ((s.ctxAt a.pid a.cx).run = .parked .reply ∨ (s.ctxAt a.pid a.cx).run = .stalled .reply) →
      exec (.subscriptionUpdate i) s = .next (((s.modNet (fun n => { n with asks := n.asks.eraseIdx i })).modDieAt (dieOf a.pid) (fun d =>
          { d with routers := d.routers.filter (fun e => e != (tag, a.pid)) ++ if on then [(tag, a.pid)] else [] })).modCtxAt a.pid a.cx
        (fun c => { c with pc := c.pc + 4, run := .runnable }))))

/-- A register result, a popped or pushed queue entry, a mailbox write and a served take. A result that arrives for the activation
that asked makes its register present with the value, or 0 (or the old bytes of a vector) with MEMERR waiting at the register; for
an ended activation it is discarded. A pop takes the oldest entry of its queue into its register. A push adds an entry to a queue
with room. A mailbox write enters the empty register or the mailbox store behind earlier values of that register; a stored value
enters the register when it is empty; a take gives the value to its context and empties the register, a peek leaves it, and the
peeks waiting are served with the take. (R11, R28, R121, R134, R136, R234, R334, R336) -/
def Obligations.ResultsAndMailboxes : Prop :=
  ((∀ (s : State) (i : Nat) (r : Result), s.net.results[i]? = some r →
    (¬ s.runs r.pid r.cx r.act → exec (.registerResultArrival i) s = .next (s.noResult i))
    ∧ (s.runs r.pid r.cx r.act →
      (∀ d v, r.dest = .g d → r.val = .g v → exec (.registerResultArrival i) s = .next ((s.noResult i).intoG r.pid r.cx d v))
      ∧ (∀ d v, r.dest = .v d → r.val = .v v → exec (.registerResultArrival i) s = .next ((s.noResult i).intoV r.pid r.cx d v))
      ∧ (∀ d e x, r.dest = .g d → r.val = .err e x → exec (.registerResultArrival i) s =
          .next (((s.noResult i).intoG r.pid r.cx d 0).modCtxAt r.pid r.cx (fun c =>
            { c with poison := if d = 0 then c.poison else c.poison ++ [⟨.g d, e⟩] })))
      ∧ (∀ d e x, r.dest = .v d → r.val = .err e x → exec (.registerResultArrival i) s =
          .next (((s.noResult i).intoV r.pid r.cx d x).modCtxAt r.pid r.cx (fun c => { c with poison := c.poison ++ [⟨.v d, e⟩] })))))
  ∧ (∀ (s : State) (core i : Nat) (p : Pop) (w : Word) (l : List Word), (s.coreAt core).pops[i]? = some p →
      (∀ q ∈ (s.coreAt core).pops.take i, q.q = p.q → coreQueue p.q = false ∧ q.cx ≠ p.cx) → s.queue core p.cx p.q = w :: l →
      (s.runs core p.cx p.act → exec (.queuePop core i) s = .next (((s.noPop core i).setQueue core p.cx p.q l).intoG core p.cx p.d w))
      ∧ (¬ s.runs core p.cx p.act → exec (.queuePop core i) s =
          .next (if coreQueue p.q then (s.noPop core i).setQueue core p.cx p.q l else s.noPop core i)))
  ∧ (∀ (s : State) (core cx : Nat) (q : BitVec 4) (v : Word), 12 ≤ q.toNat → (s.queue core cx q.toNat).length < 16 →
      (s.ctxAt core cx).run ≠ .free →
      exec (.queuePush core cx q v) s = .next ((s.setQueue core cx q.toNat (s.queue core cx q.toNat ++ [v])).wakeIdle core)))
  ∧ ((∀ (s : State) (i m : Nat) (p : Pkt) (v : Word), s.Arrives i p → p.body = .mailbox m v →
    exec (.mailboxWriteArrival i) s = .next (if (s.coreAt p.dst).mp.getLsbD m = false ∧ (∀ e ∈ (s.coreAt p.dst).mbStore, e.1 ≠ m)
      then (s.taken i).inMailbox p.dst m v
      else (s.taken i).modCoreAt p.dst (fun k => { k with mbStore := k.mbStore ++ [(m, v)] })))
  ∧ (∀ (s : State) (core : Nat) (m : Reg) (a b : List (Nat × Word)) (v : Word), (s.coreAt core).mp.getLsbD m.toNat = false →
      (s.coreAt core).mbStore = a ++ (m.toNat, v) :: b → (∀ e ∈ a, e.1 ≠ m.toNat) →
      exec (.mailboxStoreLanding core m) s = .next ((s.modCoreAt core (fun k => { k with mbStore := a ++ b })).inMailbox core m.toNat v))
  ∧ (∀ (s : State) (core i : Nat) (t : Take), (s.coreAt core).takes[i]? = some t → (s.coreAt core).mp.getLsbD t.m = true →
      (t.peek = true → exec (.mtakeService core i) s =
        .next ((s.modCoreAt core (fun k => { k with takes := k.takes.eraseIdx i })).served core t ((s.coreAt core).m[t.m]?.getD 0)))
      ∧ (t.peek = false → (∀ x ∈ (s.coreAt core).takes.take i, x.m = t.m → x.peek = true) →
        exec (.mtakeService core i) s = .next (
          (((s.coreAt core).takes.eraseIdx i).filter (fun x => x.m == t.m && x.peek)).foldl
            (fun u x => u.served core x ((s.coreAt core).m[t.m]?.getD 0))
            (((s.modCoreAt core (fun k => { k with takes := k.takes.eraseIdx i })).served core t ((s.coreAt core).m[t.m]?.getD 0)).modCoreAt core (fun k => { k with
              takes := k.takes.filter (fun x => !(x.m == t.m && x.peek)), mp := setBit k.mp t.m false }))))))

/-- What each barrier request does at its home, and the decrement of a join counter. A barrier request that arrives changes its
slot as its rule says: GJOIN counts a member, which may end the phase, and gives the phase that holds then, a full count refuses it; GLEAVE counts down and may end the
phase; BARI sets the slot and releases the waiters of phase 1; an arrival and a wait register, and the phase ends when arrivals
and pending bytes allow; credits and debits count modulo 2^56; a failure mark keeps the first failure and gives every waiter its
effect. A task's join decrement, once the task's requests have ended, subtracts one at its home, does nothing for JOIN 0, and
reports a fault of the address in the launch's record. (R219, R221, R222, R245, R246, R247, R248, R249, R347, R457) -/
def Obligations.BarrierUpdates : Prop :=
  (∀ (s : State) (i slot : Nat) (p : Pkt) (op : BarOp), s.Arrives i p → p.body = .bar slot op →
  let t := s.taken i
  let b := s.slotBar p.dst slot
  let lost := t.modCoreAt p.dst (fun k => { k with dlcnt := k.dlcnt + 1 })
  (∀ d u, op = .join d → u = (if b.memb < 65535 then t.phased p.dst slot { b with memb := b.memb + 1 } else lost) → (u.ctxAt p.src p.scx).act = p.sact →
    ((u.ctxAt p.src p.scx).run = .parked .reply ∨ (u.ctxAt p.src p.scx).run = .stalled .reply) →
    exec (.barrierUpdate i) s = .next (u.joined p d (u.slotBar p.dst slot).ph (if b.memb < 65535 then [(p.dst, slot)] else [])))
  ∧ (op = .leave → exec (.barrierUpdate i) s = .next (if b.memb = 0 then lost else t.phased p.dst slot { b with memb := b.memb - 1 }))
  ∧ (∀ n, op = .init n → exec (.barrierUpdate i) s = .next
      ((t.putBar p.dst slot ⟨0, n, 0, false, b.waiters.filter (fun w => !w.parity), none⟩).releaseAll (b.waiters.filter (fun w => w.parity))))
  ∧ (op = .arrive → exec (.barrierUpdate i) s = .next (t.arrived p.dst slot))
  ∧ (∀ ph, op = .wait ph false → exec (.barrierUpdate i) s = .next (t.registered p.dst slot ⟨p.src, p.scx, p.sact, ph⟩))
  ∧ (∀ ph, op = .wait ph true → exec (.barrierUpdate i) s = .next ((t.arrived p.dst slot).registered p.dst slot ⟨p.src, p.scx, p.sact, ph⟩))
  ∧ (∀ n, op = .credit n → exec (.barrierUpdate i) s = .next (t.phased p.dst slot { b with pend := (b.pend + n) % 2 ^ 56 }))
  ∧ (∀ n, op = .debit n → exec (.barrierUpdate i) s = .next (t.phased p.dst slot { b with pend := (b.pend + 2 ^ 56 - n % 2 ^ 56) % 2 ^ 56 }))
  ∧ (∀ a n item f, op = .mark a n item f →
      let m := b.failed.getD (a, n, item, f)
      exec (.barrierUpdate i) s = .next (b.waiters.foldl (fun u w => u.failWaiter w ⟨if m.2.2.2 then Eff.copyfault else Eff.copyfail, W m.2.1, W m.1, W (2 ^ m.2.2.1), false⟩)
        (t.putBar p.dst slot { b with failed := some m, waiters := [] }))))
  ∧ (∀ (s : State) (i : Nat) (j : JoinDec), s.net.joins[i]? = some j → s.outstanding j.act = false →
  let t := s.modNet (fun n => { n with joins := n.joins.eraseIdx i })
  (j.join = 0 → exec (.taskJoinDecrement i) s = .next t)
  ∧ (j.join ≠ 0 →
    (∀ r, s.locate j.pid j.ptroot j.sup .rmw j.join 8 true true = .error r → r.eff ≠ Eff.memerr → exec (.taskJoinDecrement i) s = .next (t.taskFailed j r.eff))
    ∧ ∀ h l, s.locate j.pid j.ptroot j.sup .rmw j.join 8 true true = .ok (h, l) →
      (∀ p off, h = .spad p off → s.marked p off 8 = false) → ((∀ p off, h ≠ .spad p off) → s.repOpen h 8 = false ∧ s.keyHeld h.key = false ∧ (s.homeLost h = true → s.homeDown h = true)) →
      (s.homeDown h = true ∨ s.homeBad h 8 = true → exec (.taskJoinDecrement i) s =
        .next ((t.taskFailed j Eff.memerr).logEvent .uncorrectable (2 + dieOf j.pid) j.join.toNat 0))
      ∧ (s.homeDown h = false → s.homeBad h 8 = false → s.canPut h 8 .other = true → exec (.taskJoinDecrement i) s = .next (t.put h (bytesOf 8 (natOf (s.homeBytes h 8) + 2 ^ 64 - 1)) .other))))

/-- How free contexts are filled, parked ones woken, windows closed, and waiting ones spilled and restored. SH takes the chosen
priority-1 message when it is free and no window is open; a free low context is filled by the first source that has work: a saved
context whose wait has ended, a start activation, a pending message, the deque; each starts in the state R27 gives. A parked
context whose wait has ended, and whose registers are present where that is asked for, wakes, a WAITM that has seen its mailbox
full, a TLBI and a WMWAIT that has ended completing; a store to a watched line makes its watchers look again; a runnable context
that has not issued for 64 cycles becomes the issuing one; an expired IDLE or HMASK window ends, an IDLE of 0 cycles once another
context has issued or a cycle has passed with no other runnable. With all four low contexts waiting and work in the deque, the
longest waiter is written to the lowest free spill slot and freed, and one whose wait has ended comes back from its image. That
the spill waits until the context's registers are present and its accesses performed is the model's reading (log 33); that tasks
start at user level log 32. (R27, R132, R200, R201, R203, R204, R206, R207, R225, R251, R252) -/
def Obligations.FillWakeAndSpill : Prop :=
  (∀ (s : State) (core : Nat), s.noStale core →
  -- SH, by a priority-1 message
  (∀ i m, s.vacant core 4 = true → (∀ y < 4, (s.ctxAt core y).masked s.time = false) → (s.coreAt core).Chosen true i m →
    ∃ t, exec (.priority1Entry core) s = .next t ∧ exec (.messageSelection core) s = .next t ∧ s.tookMessage t core 4 i true m)
  -- a low context, in the order of its sources
  ∧ ∀ cx, s.lowestFree core cx →
    (∀ v, s.saved.find? (fun v => s.restorable core v) = some v →
      ∀ c, c = (match v.hid.run with
        | .parked p => (v.hid.ofImage (s.rdWs v.home 512)).wake p
        | _ => v.hid.ofImage (s.rdWs v.home 512)) →
      exec (.contextFill core) s = .next ({ s with saved := s.saved.filter (fun x => x.home != v.home) }.setCtxAt core cx
        { c with starts := laterCount (s.ctxAt core cx).starts c.epoch }))
    ∧ ((∀ v ∈ s.saved, s.restorable core v = false) →
      (∀ x l, (s.coreAt core).starts = x :: l → ∃ t, exec (.contextFill core) s = .next t
        ∧ Begins (t.ctxAt core cx) (s.ctxAt core cx) (s.launchOr x.launch) cx x.lid (s.launchOr x.launch).entry (W (s.launchOr x.launch).id) (W x.lid) x.addr
            (s.launchOr x.launch).arg 0 (s.launchOr x.launch).privl []
        ∧ t.coreAt core = { s.coreAt core with starts := l } ∧ ∀ q c, ctxKey q c ≠ ctxKey core cx → t.ctxAt q c = s.ctxAt q c)
      ∧ ((s.coreAt core).starts = [] →
        (∀ i m, (s.coreAt core).Chosen false i m → ∃ t, exec (.contextFill core) s = .next t ∧ s.tookMessage t core cx i false m)
        ∧ (∀ i m, (s.coreAt core).Chosen false i m → (∀ x ∈ (s.coreAt core).pending, ¬ (s.coreAt core).selects true x) →
            ∃ t, exec (.messageSelection core) s = .next t ∧ s.tookMessage t core cx i false m)
        ∧ ((∀ x ∈ (s.coreAt core).pending, ¬ (s.coreAt core).selects false x) →
          (∀ k l, (s.coreAt core).deque = k :: l → ∃ t, exec (.contextFill core) s = .next t
            ∧ Begins (t.ctxAt core cx) (s.ctxAt core cx) (s.launchOr k.launch) cx ((s.launchOr k.launch).lowestLid core) k.pc (W k.id) k.arg0 k.arg1 (W k.path) (W k.id) false []
            ∧ t.coreAt core = { s.coreAt core with deque := l } ∧ ∀ q c, ctxKey q c ≠ ctxKey core cx → t.ctxAt q c = s.ctxAt q c)
          ∧ ((s.coreAt core).deque = [] → exec (.contextFill core) s = .next s)))))
  ∧ ((∀ (s : State) (core cx : Nat) (w : Wait), (s.ctxAt core cx).run = .parked w → s.mayGoOn core cx w →
    (w ≠ .seen → (∀ d v, w ≠ .wmEnd d v) → (∀ n m k a va g, w ≠ .tlbi n m k a va g) →
      exec (.contextWake core cx) s = .next (s.modCtxAt core cx (fun c => { c with run := .runnable })))
    -- WAITM and TLBI complete, the latter with its invalidation (09 R251, 21 R414)
    ∧ (w = .seen → exec (.contextWake core cx) s = .next (s.modCtxAt core cx (fun c => { c with pc := c.pc + 4, run := .runnable })))
    ∧ (∀ n m k a va g, w = .tlbi n m k a va g →
      exec (.contextWake core cx) s = .next ((s.tlbInvalid core k a va g).modCtxAt core cx (fun c => { c with pc := c.pc + 4, run := .runnable }))))
  ∧ (∀ (s : State) (core cx : Nat) (d : Reg) (v : Word), (s.ctxAt core cx).run = .parked (.wmEnd d v) →
    exec (.contextWake core cx) s = .next (s.modCtxAt core cx (fun c => { c.setG d v with pc := c.pc + 4, run := .runnable })))
  ∧ (∀ (s : State) (line : Nat), line ∈ s.net.dirty → ∃ t, exec (.watchWake line) s = .next t
    ∧ (∀ p x, t.ctxAt p x = (s.ctxAt p x).looksAgain line) ∧ t.saved = s.saved.map (fun v => { v with hid := v.hid.looksAgain line })
    ∧ line ∉ t.net.dirty ∧ (∀ l, l ≠ line → (l ∈ t.net.dirty ↔ l ∈ s.net.dirty)) ∧ t.cores = s.cores ∧ t.mem = s.mem ∧ t.sys = s.sys
    ∧ t.net.pkts = s.net.pkts ∧ t.net.reqs = s.net.reqs)
  ∧ (∀ (s : State) (core cx : Nat), cx < 4 → cx ≠ (s.coreAt core).cur → (s.ctxAt core cx).run = .runnable → (∀ w, (s.ctxAt core (s.coreAt core).cur).run ≠ .stalled w) →
    Tab.get 0 (s.coreAt core).issued cx + 64 * Config.coreTicks core ≤ s.time → (s.ctxAt core cx).since + 64 * Config.coreTicks core ≤ s.time →
    exec (.fairnessBoundary core cx) s = .next (s.modCoreAt core (fun k => { k with cur := cx })))
  ∧ (∀ (s : State) (core cx t : Nat), (s.ctxAt core cx).run = .parked (.idle t) →
    (t ≤ s.time → exec (.idleExpiry core cx) s = .next (s.modCtxAt core cx (fun c => { c with run := .runnable })))
    ∧ (s.time < t → exec (.idleExpiry core cx) s = .next s)
    ∧ (cx < 4 → ((s.wakeIdle core).ctxAt core cx).run = .parked (.idle s.time)))
  -- an IDLE of 0 cycles (05 R132)
  ∧ (∀ (s : State) (core cx t : Nat), (s.ctxAt core cx).run = .parked (.idleTurn t) →
    ((∃ n < 4, n ≠ cx ∧ (s.ctxAt core n).run.passed = true ∧ t < Tab.get 0 (s.coreAt core).issued n
        ∧ Tab.get 0 (s.coreAt core).issued n + Config.coreTicks core ≤ s.time)
      ∨ (t + Config.coreTicks core ≤ s.time ∧ ∀ n < 4, n ≠ cx → (s.ctxAt core n).run ≠ .runnable) →
      exec (.idleExpiry core cx) s = .next (s.modCtxAt core cx (fun c => { c with run := .runnable })))
    ∧ (s.time < t + Config.coreTicks core → (∀ n < 4, n ≠ cx → s.time < Tab.get 0 (s.coreAt core).issued n + Config.coreTicks core) →
      exec (.idleExpiry core cx) s = .next s)
    ∧ (cx < 4 → ((s.wakeIdle core).ctxAt core cx).run = .parked (.idle s.time)))
  ∧ (∀ (s : State) (core cx t : Nat), (s.ctxAt core cx).hmask = some t → t ≤ s.time →
    exec (.hmaskTimeout core cx) s = .next (s.modCtxAt core cx (fun c => { c with hmask := none }))))
  ∧ ((∀ (s : State) (core cx n : Nat), cx < 4 → (∀ y < 4, (s.ctxAt core y).waits) → (s.coreAt core).deque ≠ [] →
    (∀ y < cx, (s.ctxAt core cx).since < (s.ctxAt core y).since) → (∀ y < 4, (s.ctxAt core cx).since ≤ (s.ctxAt core y).since) →
    (s.ctxAt core cx).regs.allPresent = true → s.ownReqs (s.ctxAt core cx).act = false →
    let x := s.ctxAt core cx
    let l := s.launchOr x.ident.launch.toNat
    n < l.cspl → (∀ v ∈ s.saved, v.pid = core → v.slot ≠ none → v.home ≠ spadKey core (l.spillSlot n)) →
    (∀ k < n, ∃ v ∈ s.saved, v.pid = core ∧ v.slot ≠ none ∧ v.home = spadKey core (l.spillSlot k)) →
    ∃ t, exec (.contextSpill core) s = .next t ∧ t.saved = s.saved ++ [⟨spadKey core (l.spillSlot n), core, cx, some n, { x with preemptAt := none }, s.stepNo⟩]
      ∧ t.ctxAt core cx = x.freed ∧ (t.ctxAt core cx).run = .free ∧ (∀ q y, ctxKey q y ≠ ctxKey core cx → t.ctxAt q y = s.ctxAt q y)
      ∧ t.mem = (s.wr (spadKey core (l.spillSlot n)) (x.image core cx s.time (x.spillRecord cx) x.num.flags (s.outstanding x.act))).mem
      ∧ t.coreAt core = { s.coreAt core with rq := setBit (s.coreAt core).rq cx false } ∧ ∀ q, q ≠ core → t.coreAt q = s.coreAt q)
  ∧ (∀ (s : State) (core cx n : Nat) (v : Saved), s.lowestFree core cx → v ∈ s.saved → v.slot = some n → v.pid = core →
    (∀ u ∈ s.saved, u.slot = some n → u.pid = core → u = v) →
    (v.hid.run = .runnable ∨ ∃ w bare, v.hid.run = .parked w ∧ w.waiting = true ∧ s.waitEnds core v.cx bare w) → s.outstanding v.hid.act = false →
    ∃ t, exec (.spillRestore core n) s = .next t ∧ t.saved = s.saved.filter (fun x => x.home != v.home)
      ∧ (t.ctxAt core cx).starts = laterCount (s.ctxAt core cx).starts (t.ctxAt core cx).epoch
      ∧ (t.ctxAt core cx).run = .runnable ∧ (t.ctxAt core cx).pc = s.rdW (v.home + 0x108) + (if v.hid.run = .parked .seen then 4 else 0)
      ∧ (∀ i : Reg, 1 ≤ i.toNat → i.toNat ≤ 30 → (t.ctxAt core cx).g i = s.rdW (v.home + 8 * (39 + i.toNat)))
      ∧ (∀ q y, ctxKey q y ≠ ctxKey core cx → t.ctxAt q y = s.ctxAt q y) ∧ t.mem = s.mem ∧ t.cores = s.cores))

/-- Dispatch, class wait, aging and stealing in the Paddock; the service of a launch queue. The Paddock dispatches the head of the
highest queue that has a core for it, begins it there in the lowest free context, after ten microseconds at the head without
regard to class; a record that has waited more than one millisecond moves to the next queue; with no head to dispatch, the first
core with a free context takes the oldest entry of its victim's deque. The launch unit serves the next enabled queue: one that
holds more records than its ring stops with ERR and signals, else one record is submitted. That a thief leaves an owner with a
free context its last entry is the model's reading (log 36). (R216, R217, R218, R442, R443) -/
def Obligations.PaddockAndLaunchQueues : Prop :=
  ((∀ (s : State) (die q : Nat) (k : Task) (l : List Task) (p cx : Nat), q < 4 → s.paddock die q = k :: l → s.Places die k p → s.freeFor p cx →
    (∀ x, q < x → x < 4 → s.dispatchHead die x = none) → ∃ t, exec (.paddockDispatch die) s = .next t ∧ s.dispatched t die q k l p cx)
  ∧ (∀ (s : State) (die : Nat) (q : BitVec 2) (k : Task) (l : List Task) (p cx : Nat), s.paddock die q.toNat = k :: l → s.Places die k p → s.freeFor p cx →
    k.headAt.getD k.since + 10 * Config.tickUs ≤ s.time → (∀ x, q.toNat < x → x < 4 → s.dispatchHead die x = none) →
    ∃ t, exec (.classWaitExpiry die q) s = .next t ∧ s.dispatched t die q.toNat k l p cx)
  ∧ (∀ (s : State) (die : Nat) (q : BitVec 2) (a b : List Task) (k : Task), q.toNat < 3 → s.paddock die q.toNat = a ++ k :: b →
    (∀ x ∈ a, s.time ≤ x.since + Config.tickMs) → k.since + Config.tickMs < s.time →
    ∃ t, exec (.paddockAging die q) s = .next t
      ∧ t.paddock die q.toNat = (if a = [] then nextHead s.time b else a ++ b)
      ∧ t.paddock die (q.toNat + 1) = s.paddock die (q.toNat + 1) ++ [{ k with since := s.time, headAt := if s.paddock die (q.toNat + 1) = [] then some s.time else none }]
      ∧ (∀ x, x ≠ q.toNat → x ≠ q.toNat + 1 → t.paddock die x = s.paddock die x) ∧ t.ctxs = s.ctxs ∧ t.cores = s.cores ∧ t.mem = s.mem)
  ∧ (∀ (s : State) (die : Nat), s.paddock die 3 = [] → exec (.paddockAging die 3) s = .next s)
  ∧ (∀ (s : State) (die n cx v : Nat) (k : Task), n < 256 → (∀ q < 4, s.dispatchHead die q = none) → s.freeFor (die * 256 + n) cx →
    (∀ m < n, ∀ c, s.freeFor (die * 256 + m) c → s.victim die (die * 256 + m) = none) → s.victim die (die * 256 + n) = some v → (s.coreAt v).deque.getLast? = some k →
    ∃ t, exec (.paddockDispatch die) s = .next t
      ∧ Begins (t.ctxAt (die * 256 + n) cx) (s.ctxAt (die * 256 + n) cx) (s.launchOr k.launch) cx ((s.launchOr k.launch).lowestLid (die * 256 + n)) k.pc
          (W k.id) k.arg0 k.arg1 (W k.path) (W k.id) false []
      ∧ t.coreAt v = { s.coreAt v with deque := (s.coreAt v).deque.dropLast }
      ∧ (∀ x y, ctxKey x y ≠ ctxKey (die * 256 + n) cx → t.ctxAt x y = s.ctxAt x y) ∧ (∀ q, q ≠ v → t.coreAt q = s.coreAt q)))
  ∧ (∀ (s : State) (q : Nat), s.sys.lval = true → s.sys.tripped = false → s.lqNext q →
  let l := s.lq q
  (2 ^ fld l.ctl 3 0 < (l.tail + 2 ^ 16 - l.head) % 2 ^ 16 → exec .launchQueueService s = .next (
      let t := s.lqServed q { l with err := true }
      if flag l.ctl 10 then t.msix (fld l.ctl 23 16) else t))
  ∧ ((l.tail + 2 ^ 16 - l.head) % 2 ^ 16 ≤ 2 ^ fld l.ctl 3 0 →
      ∀ pa, pa = l.base.toNat + 128 * (l.head % 2 ^ fld l.ctl 3 0) → s.keyHeld pa = false → s.keyHeld (pa + 64) = false →
      exec .launchQueueService s = .next { s.lqServed q { l with head := (l.head + 1) % 2 ^ 16 } with
        launches := s.launches ++ [{ id := s.nextLaunch, addr := W pa, words := s.rdWs pa 16, src := ⟨some q, s.sys.lead, false, l.root⟩, phase := 0
                                     map := [], todo := [], begun := [], nfail := 0, eff := 0, argw := 0, addrw := 0, flid := 0, live := 0 }]
        nextLaunch := s.nextLaunch + 1 }))

/-- A launch is checked, started core by core, and completed. A submitted launch that fails a condition gets a completion record
with status 3 and the number of the first failed condition, and ends; one that passes waits for its covered functions to be ready
and then runs, its map and cores filled from its rectangle. A core of it starts: its image is written, its rotation slots are
emptied, and the start activation begins in the lowest free low context, or waits for one. A launch of which nothing is left, and
none of whose cores has a request or a write to a replicated page open, gets its record with status 1 or 2 and ends: its slots are
invalid and of a new generation. That a user launch starts its activations by PRIVL only, and what its cores' requests hold open,
are the model's readings (logs 32, 44). (R197, R207, R208, R210, R211, R212, R369, R446, R459) -/
def Obligations.Launches : Prop :=
  (∀ (s : State) (i : Nat) (l : Launch), s.launches[i]? = some l → l.phase = 0 →
  (∀ q, l.src.queue = some q → ∀ m ∈ s.launches.take i, m.src.queue = some q → m.phase ≠ 0) → s.sys.lval = true → s.sys.tripped = false →
  (∀ k t, (s.rejections l).findIdx? id = some k → s.Completes l 3 (W (k + 1)) t → exec (.launchCheck i) s = .next (t.ended l))
  ∧ ((s.rejections l).findIdx? id = none →
    (s.coversReady l = false → exec (.launchCheck i) s = .next s)
    ∧ (s.coversReady l = true → exec (.launchCheck i) s = .next { s with launches := s.launches.map (fun x => if x.id = l.id then { x with
        phase := 1
        map := (List.range l.size).map (fun n => (n, (l.place n, false)))
        todo := ((List.range l.size).filter (fun n => l.starts n)).map (fun n => l.place n) } else x) })))
  ∧ (∀ (s : State) (launch core : Nat) (l : Launch), s.launch? launch = some l → l.phase = 1 → core ∈ l.todo →
  let lid := ((List.range l.size).find? (fun n => l.place n == core)).getD 0
  let w := s.writeImage core l.entry
  ∃ t, exec (.launchCoreStart launch core) s = .next t ∧ t.mem = w.mem
    ∧ t.launches = s.launches.map (fun x => if x.id = l.id then { x with todo := x.todo.filter (fun p => p != core), begun := x.begun ++ [lid], live := x.live + 1 } else x)
    ∧ (∀ cx, w.lowestFree core cx →
        Begins (t.ctxAt core cx) (w.ctxAt core cx) (t.launchOr l.id) cx lid (t.launchOr l.id).entry (W (t.launchOr l.id).id) (W lid) l.addr (t.launchOr l.id).arg 0 (t.launchOr l.id).privl []
        ∧ (∀ q c, ctxKey q c ≠ ctxKey core cx → t.ctxAt q c = w.ctxAt q c)
        ∧ t.coreAt core = { w.coreAt core with launches := (w.coreAt core).launches ++ [l.id], unit := { (w.coreAt core).unit with mat := { (w.coreAt core).unit.mat with slots := [] } } })
    ∧ ((∀ cx < 4, w.vacant core cx = false) → t.ctxs = w.ctxs
        ∧ t.coreAt core = { w.coreAt core with launches := (w.coreAt core).launches ++ [l.id], unit := { (w.coreAt core).unit with mat := { (w.coreAt core).unit.mat with slots := [] } }, starts := (w.coreAt core).starts ++ [⟨l.id, lid, l.addr⟩] }))
  ∧ (∀ (s t : State) (launch : Nat) (l : Launch), s.launch? launch = some l → l.phase = 1 → s.launchLives l = false →
  (∀ r ∈ s.net.reqs, ∀ e ∈ l.map, e.2.1 ≠ r.pid) →
  (∀ r ∈ s.vers.reps, (∀ p c a n, r.by_ = .access p c a n → ∀ e ∈ l.map, e.2.1 ≠ p)
    ∧ (∀ a n, r.by_ = .copy a n → ∀ c ∈ s.copies, c.id = n → ∀ e ∈ l.map, e.2.1 ≠ c.pid)) → s.Completes l (if l.nfail = 0 then 1 else 2) l.argw t →
  exec (.launchEnd launch) s = .next ({ t with cores := t.cores.map (fun (e : Nat × Core) => (e.1, { e.2 with
      ht := e.2.ht.map (fun (h : Nat × HSlot) => (h.1, if h.2.lnch = l.id then { h.2 with valid := false, gen := (h.2.gen + 1) % 256 } else h.2))
      launches := e.2.launches.filter (fun n => n != l.id) })) }.ended l))

/-- Effects due at an instruction boundary: system ones enter the system handler, COPYFAIL and COPYFAULT the handler chain. In a
standing context with no earlier effect due, NUMERIC and MEMERR that are due, and a system effect held while the handler was busy,
are delivered: the state is the one in which the context has taken that system effect, the item removed. COPYFAIL and COPYFAULT
due in such a context, parked or not, enter the frame that their search selects, once the accesses of the delivery need wait for
nothing. The order of effects due at one boundary is the model's choice (log 40). (R81, R121, R147, R151, R152, R155, R346, R403)
-/
def Obligations.DeferredEffects : Prop :=
  ((∀ (s : State) (core cx : Nat), s.Standing core cx → (s.ctxAt core cx).nothingBefore → ∀ e ∈ boundaryForms core cx, ∀ r l,
    (s.ctxAt core cx).pend = ⟨e.2, r⟩ :: l → Eff.system r.eff = true →
    ∃ t, exec e.1 s = .next t ∧ (s.modCtxAt core cx (fun c => { c with pend := l })).TakesSystem t core cx r)
  ∧ (∀ (s : State) (core cx : Nat) (r : Raise) (l : List Raise), s.Standing core cx → (s.ctxAt core cx).resumed = none →
    (s.ctxAt core cx).sysBusy = false → (s.ctxAt core cx).held = r :: l → Eff.system r.eff = true →
    ∃ t, exec (.heldSystemEffect core cx) s = .next t ∧ (s.modCtxAt core cx (fun c => { c with held := l })).TakesSystem t core cx r))
  ∧ (∀ (s : State) (core cx : Nat), s.Standing core cx → (s.ctxAt core cx).nothingBefore →
  ∀ e ∈ ([(.copyfail core cx, 0x020), (.copyfault core cx, 0x021)] : List (Instr × Nat)), ∀ r l, (s.ctxAt core cx).pend = ⟨e.2, r⟩ :: l → r.eff = e.2 →
    s.deliveryHeld core cx r = false →
    ∃ t, exec e.1 s = .next t ∧ ((s.modCtxAt core cx (fun c => { c with pend := l })).unpark core cx).TakesFrame t core cx r)

/-- WATCHDOG, PREEMPT and MIGRATE land where their rules say; PREQ, MIGR and SYSWR writes. The watchdog of SH raises WATCHDOG with
the cycles passed after more than 10,000 core cycles, those in CTXSAVE and CTXLOAD not counted, and else nothing happens; a
requested PREEMPT lands at a switch point, or forced after 2,000 cycles, with EFFARG the reason; it does not land in SH, without a
request, in an open window or while the system record is busy; MIGRATE lands at a group boundary of a closed cluster with the
target and temperature. A write of PREQ records the request of each low context and its reason; a write of MIGR parks the context
to be moved or answers ILLEGAL; a write that SYSWR brings acts on the core it names. That PREEMPT waits for a busy system record
is R404; that it is not delivered during a reply is log 22. (R202, R224, R403, R404, R415, R423) -/
def Obligations.PreemptionAndRequests : Prop :=
  ((∀ (s : State) (core : Nat), s.Standing core 4 → (s.ctxAt core 4).Quiet →
    ∀ n, n = (s.time - (s.ctxAt core 4).shFrom - s.saveTime core) / Config.coreTicks core →
    (10000 < n → ∃ t, exec (.watchdog core) s = .next t ∧ s.TakesSystem t core 4 { eff := 0x00B, arg := W n })
    ∧ (n ≤ 10000 → exec (.watchdog core) s = .next s)
    -- only CTXSAVE and CTXLOAD have time that does not count (21 R407)
    ∧ ((∀ w, (s.ctxAt core 4).run ≠ .stalled w) → s.saveTime core = 0))
  ∧ (∀ (s : State) (core cx : Nat), s.Preemptible core cx →
      (s.AtSwitchPoint core cx → ∃ t, exec (.preempt core cx) s = .next t ∧ (s.granted core cx).TakesSystem t core cx { eff := 0x010, arg := W (s.coreAt core).rsn })
      ∧ (∀ at_, (s.ctxAt core cx).preemptAt = some at_ → at_ + 2000 * Config.coreTicks core ≤ s.time →
        ∃ t, exec (.preemptForced core cx) s = .next t ∧ (s.granted core cx).TakesSystem t core cx { eff := 0x010, arg := W (s.coreAt core).rsn }))
  ∧ (∀ (s : State) (core cx : Nat), 4 ≤ cx ∨ (s.coreAt core).rq.getLsbD cx = false ∨ (s.ctxAt core cx).masked s.time = true ∨ (s.ctxAt core cx).sysBusy = true →
      ∀ e ∈ [Instr.preempt core cx, .preemptForced core cx], exec e s = .next s)
  ∧ (∀ (s : State) (core cx since target w : Nat), s.Standing core cx → (s.ctxAt core cx).run = .runnable → (s.ctxAt core cx).Quiet →
      (s.ctxAt core cx).migp = some (since, target) → (s.clusterOfCore core).opened = false → s.nextWord core cx = some w → groupBoundary w = true →
      ∃ t, exec (.migrate core cx) s = .next t
        ∧ (s.modCtxAt core cx (fun c => { c with migp := none, reserve := some target })).TakesSystem t core cx
            { eff := 0x012, arg := W ((s.clusterOfCore core).temp % 2 ^ 12 * 2 ^ 16 + target % 2 ^ 11) }))
  ∧ ((∀ (s : State) (core : Nat) (v : Word), ∃ t, exec (.preqWrite core v) s = .next t ∧ s.PreqWritten t core v)
  ∧ (∀ (s : State) (sp : Bool) (a : Reg), s.Clean → s.ctx.stat.sup = true →
      (∃ t : State, exec (.mts sp a 0x101) s = .next (t.switch sp) ∧ (s.issued 4).PreqWritten t s.pid (s.ctx.g a))
      ∧ (¬ s.ctx.RefusesMove (s.ctx.g a) → exec (.mts sp a 0x106) s = .next (s.after sp 4 (fun c => { c with migr := some (s.ctx.g a), run := .parked .reply })))
      ∧ (s.ctx.RefusesMove (s.ctx.g a) → exec (.mts sp a 0x106) s = .next (s.raised { eff := 0x001, arg := s.ctx.g a })))
  ∧ (∀ (s : State) (core cx : Nat) (v : Word), ¬ (s.ctxAt core cx).RefusesMove v →
      exec (.migrWrite core cx v) s = .next (s.modCtxAt core cx (fun c => { c with migr := some v, run := .parked .reply })))
  ∧ (∀ (s : State) (core cx : Nat) (v : Word), (s.ctxAt core cx).RefusesMove v → exec (.migrWrite core cx v) s = .next (s.fault core cx { eff := 0x001, arg := v }))
  ∧ (∀ (s : State) (i : Nat) (a : Asked) (rest : List Asked) (core cx reg : Nat) (v : Word), s.WriteComes i a rest core cx reg v →
      (reg = 0x101 → ∃ t, exec (.syswrApply i) s = .next t ∧ (s.modNet (fun n => { n with asks := rest })).PreqWritten t core v)
      ∧ (reg = 0x100 → (s.ctxAt core cx).run = .free → exec (.syswrApply i) s = .next (s.modNet (fun n => { n with asks := rest })))
      ∧ (reg = 0x100 → s.Standing core cx → exec (.syswrApply i) s = .next ((s.modNet (fun n => { n with asks := rest })).modCtxAt core cx
          (fun c => { c with space := { c.space with ptroot := v &&& 0xFFFFFFFFFFFF } })))))

/-- A move is withdrawn or made, a map entry changes, and a cluster's estimate closes or opens it. A migration asked for and not
begun in two milliseconds is withdrawn and PREQ says so; a context whose move is ready stands on the target core with what R258
moves, and before that waits; MAPLID's change gives the old entry to Gd and installs the new one. Each estimate closes a cluster
above 95 °C or above its budget, opens it below 90 °C and 15/16 of the budget, and gives a persistent activation of a closed
cluster a target that suits it, or none if none can receive it, and an opening withdraws the moves asked for in the contexts and
images of its cores; nothing else changes. The estimate is the weighted counts of the cluster's activities, over 10 us, plus the
two leakage tables at its temperature; the weights, the tables and what the counters of the other units stand at are fused or free
values (log 9). (R258, R413, R418, R420, R421, R422, R423, R425) -/
def Obligations.MigrationAndEstimates : Prop :=
  ((∀ (s : State) (core cx since target : Nat), (s.ctxAt core cx).migp = some (since, target) → cx < 4 →
    (since + 2 * Config.tickMs ≤ s.time → ∃ t, exec (.migrateWithdrawal core cx) s = .next t
      ∧ (s.modCtxAt core cx (fun c => { c with migp := none })).PreqWritten t core (W (0x12 * 256 + 2 ^ cx)))
    ∧ (s.time < since + 2 * Config.tickMs → exec (.migrateWithdrawal core cx) s = .next s))
  ∧ (∀ (s : State) (core cx : Nat) (v : Word), (s.ctxAt core cx).migr = some v → cx < 4 → fld v 10 0 ≠ core →
    (s.moveReady core (s.ctxAt core cx) = true → ∃ t, exec (.migrationMove core cx) s = .next t ∧ s.Moved t core cx (fld v 10 0))
    ∧ (s.moveReady core (s.ctxAt core cx) = false → exec (.migrationMove core cx) s = .next s))
  ∧ (∀ (s : State) (i : Nat) (a : Asked) (d : Reg) (launch lid entry : Nat), s.net.asks[i]? = some a → a.ask = .mapLid d launch lid entry →
    (s.ctxAt a.pid a.cx).act = a.act → ((s.ctxAt a.pid a.cx).run = .parked .reply ∨ (s.ctxAt a.pid a.cx).run = .stalled .reply) →
    (s.sys.lval = false → exec (.mapChange i) s = .next s)
    ∧ (s.sys.lval = true → exec (.mapChange i) s = .next (((s.modNet (fun n => { n with asks := n.asks.eraseIdx i })).remapped launch lid (entry % 2 ^ 11) (bitOf entry 63)).modCtxAt
        a.pid a.cx (fun c => { c.setG d (W ((s.resolve launch lid).1 % 2 ^ 11 + b2n (s.resolve launch lid).2 * 2 ^ 63)) with
          reserve := if bitOf entry 63 = false ∧ c.reserve = some (entry % 2 ^ 11) then none else c.reserve
          pc := c.pc + 4, run := .runnable })))))
  ∧ (∀ (s : State) (d c : Nat), d < 8 → c < 16 → ∀ k, k = s.clusterAt d c → ∃ t P, exec (.clusterEstimate d c) s = .next t ∧ s.Estimated d c P ∧ (t.clusterAt d c).acts = []
    ∧ (t.clusterAt d c).pest = P ∧ (t.clusterAt d c).temp = k.temp ∧ (t.clusterAt d c).bud = k.bud
    ∧ (k.opened = true → (95 * 16 < k.temp ∨ k.bud < P) → (t.clusterAt d c).opened = false ∧ ((t.clusterAt d c).hot = true ↔ 95 * 16 < k.temp))
    ∧ (k.opened = true → ¬ (95 * 16 < k.temp ∨ k.bud < P) → (t.clusterAt d c).opened = true)
    ∧ (k.opened = false → ((t.clusterAt d c).opened = true ↔ k.temp < 90 * 16 ∧ 16 * P ≤ 15 * k.bud))
    ∧ (∀ e f, f < 16 → (e ≠ d ∨ f ≠ c) → t.clusterAt e f = s.clusterAt e f)
    ∧ t = { s with sys := t.sys, ctxs := t.ctxs, saved := t.saved } ∧ (∀ p x, t.ctxAt p x = { s.ctxAt p x with migp := (t.ctxAt p x).migp })
    ∧ t.saved.map Saved.still = s.saved.map Saved.still ∧ ((t.clusterAt d c).opened = false → t.saved = s.saved)
    ∧ ((t.clusterAt d c).opened = true → ∀ p, p < 2048 → dieOf p = d → clusterOf p = c → (∀ x, x < 4 → (t.ctxAt p x).migp = none) ∧ ∀ v ∈ t.saved, v.pid = p → v.hid.migp = none)
    ∧ ((t.clusterAt d c).opened = false → ∀ p x, x < 8 → (t.ctxAt p x).migp = (s.ctxAt p x).migp
        ∨ (s.MayMove d c p x ∧ ∃ q, (t.ctxAt p x).migp = some (s.time, q) ∧ t.Suits p q))
    ∧ ((t.clusterAt d c).opened = false → ∀ p x, s.MayMove d c p x → (t.ctxAt p x).migp = none → ∀ q < 256, t.canReceive p (s.ctxAt p x).act (d * 256 + q) = false))

/-- What each access does at its home: plain, uncorrectable, register, versioned and replicated. A piece of a request performed at
a plain home without error: a load brings its bytes, a store writes them, each AMO and CAS replaces the bytes by its result and
brings the old value, a vector load, store or addition and a bank operation act on their element or row; an AMO and a bank
operation bring their flags to the context at once, a vector of additions the OR of its flags with its last element. On an
uncorrectable line a load, AMO or CAS brings MEMERR and a store pends it. A register window reads and writes registers; a store to
a versioned line commits a version with a new timestamp (or the one it holds since it had to wait); a store to a replicated page
is numbered by the lead die and applied to each replica in order. (R254, R255, R269, R270, R279, R284, R290, R308, R310, R311,
R194, R352) -/
def Obligations.MemoryAtItsHome : Prop :=
  (∀ (s : State) (i k j : Nat) (r : Req) (p : Piece), s.Performs i k j r p → p.home.Plain → s.bad p.home.key p.len = false →
  ∀ old, old = natOf (s.rd p.home.key p.len) →
  (∀ sx d, r.op = .load sx d → exec (.remoteAccess i) s = .next ((s.brings r (.g d) (.g (extend p.len sx old))).putReq k (r.without j)))
  ∧ (∀ data, r.op = .store data → exec (.remoteAccess i) s = .next ((s.wr p.home.key data).putReq k (r.without j)))
  ∧ (∀ op b rm en d, r.op = .amo op b rm en d → ∀ v, (op, v) ∈ amoValues (W old) b →
      exec (.remoteAccess i) s = .next (((s.wr p.home.key (bytesOf p.len v.toNat)).brings r (.g d) (.g (W old))).putReq k (r.without j)))
  ∧ (∀ op b rm en d, r.op = .amo op b rm en d → ∀ f, (op, f) ∈ [(9, 14), (10, 15)] → ∀ e v, e = (if f = 14 then 2 ^ 32 else 2 ^ 64) →
      v = fAdd f ⟨rm, false, fun _ => 0⟩ 0 (numOf f ((W old).toNat % e)) (numOf f (b.toNat % e)) →
      exec (.remoteAccess i) s = .next ((((s.wr p.home.key (bytesOf p.len (W v.code).toNat)).addFlags r.act v.fl en 1 r.iaddr).brings r (.g d) (.g (W old))).putReq k (r.without j)))
  ∧ (∀ e b d, r.op = .cas e b d → exec (.remoteAccess i) s =
      .next (((if W old = e then s.wr p.home.key (bytesOf p.len b.toNat) else s).brings r (.g d) (.g (W old))).putReq k (r.without j)))
  ∧ (∀ n lanes d acc lane ea, r.op = .vload n lanes d acc [] → lanes[j]? = some (lane, ea) → exec (.remoteAccess i) s =
      .next ((if (r.without j).pieces = [] then s.brings r (.v d) (.v (withLane acc n lane old)) else s).putReq k
        { r.without j with op := .vload n (lanes.eraseIdx j) d (withLane acc n lane old) [] }))
  ∧ (∀ data lanes whole bytes, r.op = .vstore data lanes whole [] → data[j]? = some bytes → 0 < p.len → exec (.remoteAccess i) s = .next ((s.wr p.home.key bytes).putReq k (r.without j)))
  ∧ (∀ f rm en data fl mask lane ea x, r.op = .adds f rm en data fl mask [] → data[j]? = some (lane, ea, x) → ∀ v m,
      v = (if fmtFloat f then fAdd f ⟨rm, false, fun _ => 0⟩ 0 (numOf f old) (numOf f x) else ⟨(old + x) % 2 ^ fmtWidth f, 0⟩) →
      m = (if v.fl = 0 then mask else mask ||| 2 ^ lane) → ∀ u, u = s.wr p.home.key (bytesOf p.len v.code) → exec (.remoteAccess i) s =
        .next ((if (r.without j).pieces = [] then u.addFlags r.act (fl ||| v.fl) en (W m) r.iaddr else u).putReq k
          { r.without j with op := .adds f rm en (data.eraseIdx j) (fl ||| v.fl) m [] }))
  ∧ (∀ op rm sat en mask row, r.op = .bank op rm sat false en mask row → p.len = 64 → ∀ v, v = bankRow op rm sat mask old row.toNat →
      exec (.remoteAccess i) s = .next (((s.wr p.home.key (bytesOf 64 v.1)).addFlags r.act v.2.1 en (W v.2.2) r.iaddr).putReq k (r.without j))))
  ∧ ((∀ (s : State) (i k j : Nat) (r : Req) (p : Piece), s.Performs i k j r p → p.home.Plain → s.bad p.home.key p.len = true →
    (∀ sx d, r.op = .load sx d → exec (.remoteAccess i) s =
      .next (((s.erred p.home.key).brings r (.g d) (.err { eff := 0x006, arg := r.iaddr, addr := r.ea } 0)).putReq k (r.without j)))
    ∧ (∀ data, r.op = .store data → exec (.remoteAccess i) s = .next (((s.erred p.home.key).memErrPends r r.ea).putReq k (r.without j)))
    ∧ (∀ op b rm en d e, r.op = .amo op b rm en d ∨ r.op = .cas e b d → exec (.remoteAccess i) s =
      .next (((s.erred p.home.key).brings r (.g d) (.err { eff := 0x006, arg := r.iaddr, addr := r.ea } 0)).putReq k (r.without j))))
  ∧ (∀ (s : State) (i k j off : Nat) (r : Req) (p : Piece), s.Performs i k j r p → p.home = .regs off →
    (∀ sx d, r.op = .load sx d → exec (.remoteAccess i) s = .next ((s.brings r (.g d) (.g (extend p.len sx (natOf (bytesOf p.len (s.regRead off p.len)))))).putReq k (r.without j)))
    ∧ (∀ data, r.op = .store data → exec (.remoteAccess i) s = .next ((s.regWrite off data.length (natOf data)).putReq k (r.without j))))
  ∧ (∀ (s : State) (i k j pa dm : Nat) (r : Req) (p : Piece), s.Performs i k j r p → p.home = .dev pa true false dm → s.bad pa p.len = false →
    (s.vline (pa / 64 * 64)).olds.length < 15 → s.bad (pa / 64 * 64) 64 = false → ∀ data, r.op = .store data → data ≠ [] → data.length = p.len → pa % 64 + data.length ≤ 64 →
      exec (.remoteAccess i) s = .next ((s.lineCommitted (pa / 64 * 64) ((s.rd (pa / 64 * 64) 64).take (pa % 64) ++ data
        ++ (s.rd (pa / 64 * 64) 64).drop (pa % 64 + data.length)) r).putReq k (r.without j)))
  ∧ (∀ (s : State) (i k j pa dm : Nat) (r : Req) (p : Piece), s.Performs i k j r p → p.home = .dev pa false true dm →
    s.bad (s.sys.lead * Config.dieBytes + pa % Config.dieBytes) p.len = false → ∀ data, r.op = .store data →
      exec (.replicatedWrite i) s = .next ((s.writeNumbered pa dm data r).putReq k (r.without j)))
  ∧ (∀ (s : State) (die : Nat) (r : RepW), s.vers.reps.find? (fun q => q.todo.contains die) = some r →
      exec (.replicaApply die) s = .next (((s.wr (die * Config.dieBytes + r.off) r.data).modVers (fun v => { v with
        reps := (v.reps.map (fun q => if q.seq = r.seq then { q with todo := q.todo.filter (fun d => d != die) } else q)).filter (fun q => !q.todo.isEmpty) })).refreshPend r.actOf)))

/-- Package registers, host and peer accesses, page walks and soft errors. A write of a launch queue's registers, of a Trace
port's resynchronisation bit, of the mailbox status, its buffer and the MSI-X table acts as the register says, a read-only or
unlisted register and a wrong size change nothing. A host access reaches registers through BAR 0 and device memory through BAR 2,
a peer access device memory through an up port, reads of bytes that replicas still await waiting and of uncorrectable lines set aside (log 31); one outside is counted at its
die or reads nothing. A peer's negative response brings PERM. A page walk fills both TLBs, with one entry for a group of RUN pages
(log 61), or changes nothing; a correctable error is counted, an uncorrectable one marks its line and is counted at its stack. The
offsets and widths the spec does not list are the model's choice (log 13), the write-as-met of host and peer accesses log 31.
(R270, R273, R274, R275, R433, R435, R436, R439, R440, R442, R454) -/
def Obligations.RegistersAndOutside : Prop :=
  ((∀ (s : State) (n : BitVec 5) (v w : Word), w = v &&& 0xFF070F → ∀ q, q = n.toNat →
    (flag (s.lq q).ctl 8 = true → exec (.lqctlWrite n v) s = .next (s.withLq q { s.lq q with ctl := (w &&& ~~~0xF) ||| ((s.lq q).ctl &&& 0xF) }))
    ∧ (flag (s.lq q).ctl 8 = false → (flag w 8 = true → ¬ s.RefusesEnable q w) → exec (.lqctlWrite n v) s = .next (s.withLq q { s.lq q with ctl := w }))
    ∧ (flag (s.lq q).ctl 8 = false → flag w 8 = true → s.RefusesEnable q w → exec (.lqctlWrite n v) s = .next s)
    ∧ exec (.lqtailWrite n v) s = .next (s.withLq q { s.lq q with tail := fld v 15 0 })
    ∧ exec (.registerWrite (0x20000 + 64 * q) 8 v) s = .next (if flag (s.lq q).ctl 8 = true then s else s.withLq q { s.lq q with base := v &&& 0xFFFFFFFFF000 })
    ∧ exec (.registerWrite (0x20008 + 64 * q) 8 v) s = exec (.lqctlWrite n v) s
    ∧ exec (.registerWrite (0x20010 + 64 * q) 8 v) s = .next (if flag (s.lq q).ctl 8 = true then s else s.withLq q { s.lq q with root := v &&& 0xFFFFFFFFFFFF })
    ∧ exec (.registerWrite (0x20018 + 64 * q) 8 v) s = .next s
    ∧ exec (.registerWrite (0x20020 + 64 * q) 8 v) s = exec (.lqtailWrite n v) s
    ∧ exec (.registerWrite (0x20028 + 64 * q) 8 v) s = .next (s.withLq q { s.lq q with err := (s.lq q).err && !flag v 1 }))
  ∧ (∀ (s : State) (port : BitVec 4) (v : Word),
    exec (.trstRsyWrite port v) s = .next (if flag v 8 = true then s.modPort port.toNat (fun p => { p with ask := true }) else s)
    ∧ exec (.registerWrite (0x40020 + 64 * port.toNat) 8 v) s = exec (.trstRsyWrite port v) s)
  ∧ (∀ (s : State) (v : Word),
    (∀ off ∈ [0x10000, 0x10008, 0x10010, 0x10018, 0x31000, 0x40000, 0x40008, 0x40010, 0x40018, 0x60000], exec (.registerWrite off 8 v) s = .next s)
    ∧ exec (.registerWrite 0x50008 8 v) s = .next { s with sys := { s.sys with fmovr := s.sys.fmovr && !flag v 2, fmdone := s.sys.fmdone && !flag v 1 } }
    ∧ (∀ k, k < 512 → exec (.registerWrite (0x51000 + 8 * k) 8 v) s = .next (s.wr (regKey (0x51000 + 8 * k)) (bytesOf 8 v.toNat)))
    ∧ (∀ k, k < 256 → exec (.registerWrite (0x30000 + 16 * k) 8 v) s = .next (s.wr (regKey (0x30000 + 16 * k)) (bytesOf 8 v.toNat)))
    ∧ (∀ off n, ((n ≠ 4 ∧ n ≠ 8) ∨ off % n ≠ 0 ∨ off < 0x10000 ∨ regSpace ≤ off) → exec (.registerWrite off n v) s = .next s)))
  ∧ ((∀ (s : State) (addr n : Nat) (v : Word), exec (.hostAccess true 0 addr n v) s = exec (.registerWrite addr n v) s
    ∧ (regAccess addr n = true → exec (.hostAccess false 0 addr n v) s = .next { s with sys := { s.sys with hostRead := some (W (s.regRead addr n)) } }))
  ∧ (∀ (s : State) (addr n : Nat) (v : Word), s.Reaches addr n → s.isReady (readyDie (addr / Config.dieBytes)) = true →
    (s.versionedLine (addr / 64 * 64) = false → exec (.hostAccess true 2 addr n v) s = .next (s.wr addr (bytesOf n v.toNat)))
    ∧ (s.repAt addr n = false → s.bad addr n = false → exec (.hostAccess false 2 addr n v) s = .next { s with sys := { s.sys with hostRead := some (W (natOf (s.rd addr n))) } }))
  ∧ (∀ (s : State) (addr n : Nat) (v : Word), Config.devBytes < addr + n ∨ s.inStore addr = true →
    (addr / Config.dieBytes < 8 → exec (.hostAccess true 2 addr n v) s = .next (s.modDieAt (addr / Config.dieBytes) (fun d => { d with dlcnt := d.dlcnt + 1 })))
    ∧ exec (.hostAccess false 2 addr n v) s = .next { s with sys := { s.sys with hostRead := none } }
    ∧ (∀ (port : BitVec 4) (w : Bool), (s.portAt port.toNat).up = true → addr < 2 ^ 48 → exec (.peerAccess port w addr n v) s = .next { s with sys := { s.sys with peerRead := none } }))
  ∧ (∀ (s : State) (port : BitVec 4) (addr n : Nat) (v : Word), s.Reaches addr n → (s.portAt port.toNat).up = true →
    (s.versionedLine (addr / 64 * 64) = false → exec (.peerAccess port true addr n v) s = .next (s.wr addr (bytesOf n v.toNat)))
    ∧ (s.repAt addr n = false → s.bad addr n = false → exec (.peerAccess port false addr n v) s = .next { s with sys := { s.sys with peerRead := some (W (natOf (s.rd addr n))) } }))
  ∧ (∀ (s : State) (port : BitVec 4) (w : Bool) (addr n : Nat) (v : Word), (s.portAt port.toNat).up = false → addr < 2 ^ 48 → exec (.peerAccess port w addr n v) s = .next s)
  ∧ (∀ (s : State) (i k j d pa n : Nat) (r : Req), s.Performs i k j r ⟨.peer d pa, n⟩ →
    (∀ sx g, r.op = .load sx g → exec (.peerNegativeResponse i) s = .next ((s.brings r (.g g) (.err { eff := 0x005, addr := r.ea } 0)).putReq k (r.without j)))
    ∧ (∀ op b rm en g e, r.op = .amo op b rm en g ∨ r.op = .cas e b g → exec (.peerNegativeResponse i) s =
      .next ((s.brings r (.g g) (.err { eff := 0x005, addr := r.ea } 0)).putReq k (r.without j)))
    ∧ (∀ data, r.op = .store data → exec (.peerNegativeResponse i) s = .next ((s.addPend r.act ⟨0x005, { eff := 0x005, addr := r.ea }⟩).putReq k (r.without j)))))
  ∧ ((∀ (s : State) (core cx : Nat) (va : Word) (l : Leaf), classOf va.toNat = .trans → va.toNat < 2 ^ 52 → s.walk (s.ctxAt core cx).space.ptroot va.toNat = .ok l →
    ∀ run size t, (run = true ↔ l.level = 3 ∧ bitOf l.entry 24 = true) → size = (if run = true then 2 ^ 26 else 2 ^ levelShift l.level) →
      t = Tlb.mk (fld (s.ctxAt core cx).space.ptroot 15 0) (va.toNat / size * size) size (if run = true then (l.groupBase (va.toNat / 2 ^ 21 % 32)).entry else l.entry) →
      exec (.pageWalk core cx va) s = .next ((s.modCoreAt core (fun k => { k with tlb := tlbAdd 64 t k.tlb })).modDieAt (dieOf core) (fun d => { d with tlb := tlbAdd 6144 t d.tlb })))
  ∧ (∀ (s : State) (core cx : Nat) (va : Word) (e : Raise), s.walk (s.ctxAt core cx).space.ptroot va.toNat = .error e → exec (.pageWalk core cx va) s = .next s)
  ∧ (∀ (s : State) (space addr : Nat), ∀ src, src = logSrc (errorKey space addr) →
    exec (.softError space addr true) s = .next { s with sys := { s.sys with corrected := Tab.set s.sys.corrected src (Tab.get 0 s.sys.corrected src + 1) } })
  ∧ (∀ (s : State) (space addr : Nat), space < 2 → addr < Config.devBytes → ∀ t, t = { s with ue := if s.ue.contains (addr / 64 * 64) then s.ue else s.ue ++ [addr / 64 * 64] } →
    exec (.softError space addr false) s = .next { t with sys := { t.sys with uncorrected := Tab.set s.sys.uncorrected (State.stackOf addr) (Tab.get 0 s.sys.uncorrected (State.stackOf addr) + 1) } })
  ∧ (∀ (s : State) (core off : Nat), core < 2048 → off < Config.spadBytes → ∀ l, l = 2 ^ 48 + core * 2 ^ 21 + off / 64 * 64 →
    exec (.softError 2 (core * 2 ^ 21 + off) false) s = .next { s with ue := if s.ue.contains l then s.ue else s.ue ++ [l] })
  ∧ (∀ (s : State) (line place : Nat) (o : Nat × List Byte), line % 64 = 0 → place < 64 → (s.vline line).olds[place]? = some o → ∀ l t, l = State.versionKey line o.1 →
    t = { s with ue := if s.ue.contains l then s.ue else s.ue ++ [l] } →
    exec (.softError 3 (line + place) false) s = .next { t with sys := { t.sys with
      uncorrected := Tab.set s.sys.uncorrected (State.stackOf (line + place)) (Tab.get 0 s.sys.uncorrected (State.stackOf (line + place)) + 1) } }))

/-- Segments are read, delivered or fail; an item ends with its Q3 entry and effect; CPYM headers and drain holds. An accepted
copy leaves Q2; a segment's read takes its bytes, or fails with fault 3 where a line does not translate or 2 where one is lost; a
delivery that fails is sent again once and then fails, one that succeeds writes its lines, in steps where a line must wait, and
once all are written and applied moves the mark and debits the barrier. An item whose segments have all ended pushes its entry
with status, place and length, and with FX raises COPYFAIL or COPYFAULT with the first lost byte; the last item closes the copy. A
CPYM header fixes its receiver's address and credits the barrier slot at the receiver where the copy names one, or fails all its
segments past the scratchpad; a tile's drain hold ends when its drains do. (R263, R266, R339, R340, R343, R344, R345, R346, R347,
R348) -/
def Obligations.CopyEngineEvents : Prop :=
  ((∀ (s : State) (core cx i : Nat) (c : Copy), s.copies.findIdx? (fun c => c.pid == core && c.cx == cx && !c.accepted) = some i → s.hasCopy i c →
    exec (.copyEngineAccept core cx) s = .next (((s.modCopy i (fun c => { c with accepted := true })).popOwn c.act 2).refreshPend c.act))
  ∧ (∀ (s : State) (i j seg : Nat) (c : Copy), s.ReadsNow i j seg c →
    (s.copyLines c .read (c.segLen seg / 64) (c.src + W (4096 * seg)) = none → exec (.copySegmentRead i j seg) s = .next ((s.segmentFated i seg 3).sourceRead i))
    ∧ (∀ hs, s.copyLines c .read (c.segLen seg / 64) (c.src + W (4096 * seg)) = some hs → (∀ h ∈ hs, (s.seenBy c).homeMarked c.pid h 64 = false) →
      ((∀ h ∈ hs, s.homeDown h = false ∧ s.bad (h.readKey s.sys.lead c.pid) 64 = false) →
        exec (.copySegmentRead i j seg) s = .next ((s.segmentRead i seg (hs.flatMap (fun h => s.rd (h.readKey s.sys.lead c.pid) 64))).sourceRead i))
      ∧ ((∃ h ∈ hs, s.homeDown h = true ∨ s.bad (h.readKey s.sys.lead c.pid) 64 = true) →
        exec (.copySegmentRead i j seg) s = .next ((s.segmentFated i seg 2).sourceRead i))))
  ∧ (∀ (s : State) (i j k : Nat) (c : Copy) (t : Item) (g : Seg) (data : List Byte), s.CarriesSegment i j k c t g data →
    (g.resent = false → s.segmentBegun c g = false →
      exec (.copySegmentDelivery i j k false) s = .next (s.modCopy i (fun c => c.modItem j (fun t => { t with segs := updAt (fun g => { g with resent := true }) t.segs k }))))
    ∧ (g.resent = true → s.segmentBegun c g = false → exec (.copySegmentDelivery i j k false) s = .next ((s.modCopy i (fun c => c.settle j k 2)).segmentDone i))
    ∧ (∀ crc, crc = true ∨ s.segmentBegun c g = true →
      (s.segmentHomes c t.dst k = none → exec (.copySegmentDelivery i j k crc) s = .next (s.segmentFails i j k 3 c))
      ∧ (∀ all, s.segmentHomes c t.dst k = some all →
        (∀ h ∈ all.drop g.put, s.keyHeld (h.writeKey s.sys.lead) = false ∧ s.homeLost h = false ∧ s.homeDown h = false) →
        ∀ u left, (u, left) = s.putLines c.writer (all.drop g.put) (data.drop (64 * g.put)) →
        (left = 0 → u.copyOpen c = false → exec (.copySegmentDelivery i j k crc) s =
          .next ((((u.modCopy i (fun c => c.settle j k 1)).advanceMark i).barOf c t (.debit (c.segLen k))).freeMoved i))
        ∧ (left ≠ 0 ∨ u.copyOpen c = true → exec (.copySegmentDelivery i j k crc) s =
          .next (u.modCopy i (fun c => c.modItem j (fun t => { t with segs := updAt (fun g => { g with put := all.length - left }) t.segs k }))))))))
  ∧ ((∀ (s : State) (i item : Nat) (c : Copy) (t : Item), s.Reports i item c t →
    (t.status = 0 → ∀ u, u = (s.pushOwn c.act 3 [entryWord 0 c.ch t.pos c.len 0]).modCopy i (fun c => { (c.modItem item (fun t => { t with closed := true })) with ends := c.ends.drop 1 }) →
      (t.segs.all (fun g => g.fate == 1) = true) →
      (c.LastItem item → exec (.copyItemCompletion i item) s = .next (u.closeCopy i true))
      ∧ (¬ c.LastItem item → exec (.copyItemCompletion i item) s = .next u))
    ∧ (t.status ≠ 0 → c.bar = none → ∀ off notd, (off, notd) = c.lost t → ∀ v, v = s.pushOwn c.act 3 [entryWord t.status c.ch t.pos off notd] →
      ∀ e, e = (if t.status = 2 then 0x021 else 0x020) →
      ∀ u, u = (if c.fx then v.addPend c.act ⟨e, { eff := e, arg := W notd, addr := W (t.dst.addr off), lanes := W (2 ^ t.pos) }⟩ else v).modCopy i
        (fun c => { (c.modItem item (fun t => { t with closed := true })) with ends := c.ends.drop 1 }) →
      (c.LastItem item → exec (.copyItemCompletion i item) s = .next (u.closeCopy i false))
      ∧ (¬ c.LastItem item → exec (.copyItemCompletion i item) s = .next u)))
  ∧ (∀ (s : State) (i j core tile off : Nat) (p : Pkt) (id item : Nat) (c : Copy) (t : Item) (b : Option Nat), s.Arrives i p → p.body = .cpym id item →
    s.copies.findIdx? (fun c => c.id == id) = some j → s.hasCopy j c → c.items[item]? = some t → t.dst = .recv core tile off b →
    ∀ base, base = ((s.coreAt core).tile tile).base + off → ∀ v, v = (match c.bar with
      | some (_, _, slot) => (s.taken i).applyBar core slot p (.credit c.len)
      | none => s.taken i) →
    ∀ u, u = { v with copies := ((s.taken i).modCopy j (fun c => c.modItem item (fun x => { x with dst := .recv core tile off (some base) }))).copies } →
    (base + c.len ≤ Config.spadBytes → exec (.cpymHeaderArrival i) s = .next u)
    ∧ (Config.spadBytes < base + c.len → exec (.cpymHeaderArrival i) s =
        .next ((u.modCopy j (fun c => (List.range t.segs.length).foldl (fun c n => c.settle item n 3) c)).segmentDone j)))
  ∧ (∀ (s : State) (core : Nat) (t : Reg),
    (((s.coreAt core).tile t.toNat).dcnt ≠ 0 → exec (.drainHoldRelease core t) s = .next s)
    ∧ (((s.coreAt core).tile t.toNat).dcnt = 0 → ∀ c it off, s.copies.filter (fun c => c.pid == core && c.drains.contains t.toNat) = [c] → c.items.head? = some it → it.dst = .local off →
      ∀ u, u = { s with copies := s.copies.map (fun c => if c.pid = core then { c with drains := c.drains.filter (fun m => m != t.toNat) } else c) } →
      exec (.drainHoldRelease core t) s = .next (if overlaps ((s.coreAt core).tile t.toNat).base ((s.coreAt core).tile t.toNat).stop off (off + c.len)
        then u.tileCopyIn core t.toNat c.ch off (off + c.len) else u))))

/-- Snapshots, the steps of a commit, reclaiming old versions, revocation and renumbering. A snapshot request gets the stable
timestamp and lets its context go on; a commit locks its lines in order, is refused with CONFLICT at a line newer than its
snapshot or held by a stamped commit, waits at one held by an unstamped one, takes the next timestamp when all are locked, and
installs line by line, held while an install would drop a version a snapshot needs; the commit of a single line that holds one so
stands in the way like a stamped commit; its last install gives Gd the timestamp. The Groom removes an old version exactly when no
snapshot can select it; after 100 microseconds of holding, the oldest snapshot is revoked; the timestamps start again when they
are used up and no commit, of lines or of a single line, is open. (R280, R281, R282, R283, R284, R285, R286) -/
def Obligations.SequencerAndGroom : Prop :=
  ((∀ (s : State) (i : Nat) (a : Asked) (d : Reg) (lcap lbase : Nat), s.net.asks[i]? = some a → a.ask = .snap d lcap lbase → s.sys.lval = true → s.waitsFor a.pid a.cx a.act →
    exec (.snapshotRequest i) s = .next (({ s with
      net := { s.net with asks := s.net.asks.eraseIdx i }
      vers := { s.vers with snaps := s.vers.snaps ++ [⟨a.act, s.vers.stable, s.vers.snapSeq⟩], snapSeq := s.vers.snapSeq + 1 } } : State).modCtxAt a.pid a.cx (fun c => { c.setG d (W s.vers.stable) with
        tx := ⟨W s.vers.stable, true, false, false, 0, lcap, lbase, s.vers.snapSeq⟩, pc := c.pc + 4, run := .runnable })))
  ∧ (∀ (s : State) (i : Nat) (c : Commit) (x : CLine), s.hasCommit i c → c.lines[c.locked]? = some x → s.keyHeld x.pa = false →
    ((s.vline x.pa).lock = none → s.single x.pa = none → (s.vline x.pa).ts ≤ c.ts → exec (.commitPrepare i) s = .next { s with vers := { s.vers with
        lines := Tab.set s.vers.lines x.pa { s.vline x.pa with lock := some c.id }
        commits := updAt (fun c => { c with locked := c.locked + 1 }) s.vers.commits i } })
    ∧ (∀ k, (s.vline x.pa).lock = some k → k ≠ c.id → (∀ e ∈ s.vers.commits, e.id = k → e.stamp = none) → exec (.commitPrepare i) s = .next s)
    ∧ (((s.vline x.pa).lock = none ∧ (s.single x.pa ≠ none ∨ c.ts < (s.vline x.pa).ts) ∨ ∃ k e, (s.vline x.pa).lock = some k ∧ k ≠ c.id ∧ e ∈ s.vers.commits ∧ e.id = k ∧ e.stamp ≠ none) →
      s.waitsFor c.pid c.cx c.act → (s.ctxAt c.pid c.cx).regs.allPresent = true →
      ∃ t, exec (.commitPrepare i) s = .next t ∧ (s.refusedCommit c).TakesFrame t c.pid c.cx { eff := 0x030, arg := W c.ts, addr := W x.va }))
  ∧ (∀ (s : State) (i : Nat) (c : Commit), s.hasCommit i c → c.stamp = none → c.lines.length ≤ c.locked → s.vers.next ≤ 0xFFFFFFFFFFFF → s.sys.lval = true →
    exec (.commitTimestamp i) s = .next { s with vers := { s.vers with next := s.vers.next + 1, commits := updAt (fun c => { c with stamp := some s.vers.next }) s.vers.commits i } })
  ∧ (∀ (s : State) (i line ts : Nat) (c : Commit) (x : CLine), s.hasCommit i c → c.stamp = some ts → c.lines.filter (fun x => x.pa == line && !x.installed) = [x] →
    s.keyHeld line = false → (s.installable line ts = false → exec (.commitInstall i line) s = .next (s.holdLine line))
    ∧ (s.installable line ts = true → (s.vline line).olds.length < 15 → s.ue.contains line = false → (s.vline line).ts ≠ ts →
      ∀ d, d = { c with lines := c.lines.map (fun x => if x.pa = line then { x with installed := true } else x) } → ∀ u, u = s.lineInstalled line ts (lineWith (s.rd line 64) x.data x.mask) →
      ((∀ y ∈ d.lines, y.installed = true) → s.waitsFor c.pid c.cx c.act → exec (.commitInstall i line) s = .next (((u.endCommit c.id).modCtxAt c.pid c.cx (fun x =>
          { x.setG c.d (W ts) with tx := { x.tx with logn := 0, cfl := false }, pc := x.pc + 4, run := .runnable })).advanceStable))
      ∧ ((∃ y ∈ d.lines, y.installed = false) → exec (.commitInstall i line) s = .next { u with vers := { u.vers with commits := updAt (fun _ => d) u.vers.commits i } }))))
  ∧ ((∀ (s : State) (line ts i newer : Nat), (s.vline line).olds.findIdx? (fun o => o.1 == ts) = some i → (State.oldsOf (s.vline line))[i]? = some (ts, newer) →
    ((newer ≤ s.vers.stable ∧ ∀ n ∈ s.vers.snaps, ¬ (ts ≤ n.ts ∧ n.ts < newer)) → exec (.groomReclaim line ts) s = .next (s.reclaim line i))
    ∧ ((s.vers.stable < newer ∨ ∃ n ∈ s.vers.snaps, ts ≤ n.ts ∧ n.ts < newer) → exec (.groomReclaim line ts) s = .next s))
  ∧ (∀ (s : State) (e : Nat × Nat) (n : Snap), e ∈ s.vers.heldAt → e.2 + 100 * Config.tickUs ≤ s.time → s.installable e.1 (s.heldStamp e.1) = false → s.FirstSnap n →
    exec .snapshotRevocation s = .next ((s.snapGone n).modVers (fun v => { v with heldAt := v.heldAt.map (fun e => (e.1, s.time)) })))
  ∧ (∀ (s : State), (∀ e ∈ s.vers.heldAt, s.time < e.2 + 100 * Config.tickUs) → exec .snapshotRevocation s = .next s)
  ∧ (∀ (s : State), s.vers.next ≤ 0xFFFFFFFFFFFF → exec .timestampRenumbering s = .next s)
  ∧ (∀ (s : State), 0xFFFFFFFFFFFF < s.vers.next → s.vers.commits = [] → s.vers.singles = [] → ∃ t, exec .timestampRenumbering s = .next t
      ∧ t.vers.lines = [] ∧ t.vers.next = 1 ∧ t.vers.stable = 0 ∧ t.vers.heldAt = [] ∧ t.vers.acquires = [] ∧ t.vers.snaps = [] ∧ t.mem = s.mem))

/-- The units execute commands, push status entries, forward tiles, and process rank flits and streams. With no uncorrectable
error in memory, the next matrix command, of the first context in order whose earlier status entries no room keeps waiting, that
starts no run leaves the bytes of memory its rule gives and its status entry if it has one, and leaves the queue; a status entry
goes to the first queue with room; a forward leaves when its receiver's slot is free and lands there. The next rank command writes
its result, pushes its Q9 entry and its flags; a header flit admits a parcel to an ARMED stream, a body flit its entries, flits at
other states are counted; a stream processes its next entry and is DONE when complete, pushing its result; a result enters its
queue when two entries fit. (R363, R364, R365, R366, R369, R370, R381, R382, R387, R388, R389, R394) -/
def Obligations.MatrixAndRankUnits : Prop :=
  ((∀ (s : State) (core n : Nat) (m : MCmd), s.MatrixNext core n m → s.Sound → s.NotSaved m.act → (s.matUnit core).run = none → m.kind < 6 →
    (∀ c, ((s.matUnit core).cmds.eraseIdx n).head? = some c → ¬ (c.kind < 3 ∧ c.tile = m.tile ∧ c.ib = m.ib ∧ c.jb = m.jb ∧ c.tc = m.tc)) →
    ∃ t, exec (.matrixUnitExecute core) s = .next t ∧ t.mem = (s.matrixResult core m).mem ∧ (t.matUnit core).run = none
      ∧ (t.matUnit core).cmds = (s.matUnit core).cmds.eraseIdx n
      ∧ ((m.kind = 4 ∨ m.kind < 3 ∧ flag m.gk 55 = false) → (t.matUnit core).stat = (s.matUnit core).stat)
      ∧ ((m.kind = 3 ∨ m.kind = 5 ∨ m.kind < 3 ∧ flag m.gk 55 = true) → ∃ fl, (t.matUnit core).stat = (s.matUnit core).stat
          ++ [⟨m.act, statWord (if m.kind < 3 then 0 else if m.kind = 3 then 1 else 2) m.tile false fl m.iaddr⟩]))
  ∧ (∀ (s : State) (core n : Nat) (e : MStat), (s.matUnit core).stat[n]? = some e → s.ownQueueLen e.act 1 < 16 →
    (∀ j c, j < n → (s.matUnit core).stat[j]? = some c → 16 ≤ s.ownQueueLen c.act 1) →
    exec (.matrixStatusPush core) s = .next (((s.modMat core (fun u => { u with stat := u.stat.eraseIdx n })).pushOwn e.act 1 [e.word]).refreshPend e.act))
  ∧ (∀ (s : State) (core i : Nat) (f : MFwd), Tab.look (s.matUnit core).out i = some f → (s.resolve f.launch f.lid).2 = false → ∀ dst, dst = (s.resolve f.launch f.lid).1 →
    (Tab.look (s.matUnit dst).slots (2 * f.buf + f.slot) = none ∧ (∀ p ∈ s.net.pkts, p.dst = dst → ∀ d, p.body ≠ .fwd f.buf f.slot d) →
      exec (.forwardHoldRelease core i) s = .next ((s.modMat core (fun u => { u with out := Tab.del u.out i })).modNet (fun n => { n with
        pkts := n.pkts ++ [⟨0, core, matrixCx + i, 0, dst, .fwd f.buf f.slot f.data, false, none⟩] })))
    ∧ ((Tab.look (s.matUnit dst).slots (2 * f.buf + f.slot) ≠ none) → exec (.forwardHoldRelease core i) s = .next s))
  ∧ (∀ (s : State) (i b k : Nat) (p : Pkt) (data : List Byte), s.Arrives i p → p.body = .fwd b k data →
    exec (.rotationForwardLanding i) s = .next ((s.taken i).modMat p.dst (fun u => { u with slots := Tab.set u.slots (2 * b + k) data }))))
  ∧ ((∀ (s : State) (core : Nat) (m : RCmd) (rest : List RCmd), (s.rankUnit core).cmds = m :: rest → s.Sound → s.ownQueueLen m.act 9 < 16 →
    (∀ e ∈ s.rankReads core m, ∀ a, e.1.addr (e.2 / e.1.cols) (e.2 % e.1.cols) = some a → s.marked core a (fmtWidth e.1.fmt / 8) = false) →
    s.inFlight m.act m.after = false → ∀ r, r = s.rankWork core m → r.cnt < 2 ^ 13 →
      exec (.rankUnitExecute core) s = .next (((((r.s.modRank core (fun u => { u with cmds := rest })).popOwn m.act 4).addFlags m.act r.fl m.flagen 1 m.iaddr).pushOwn m.act 9
        [rankWord m.kind m.tile r.fl r.ntgt r.nanc r.cnt]).refreshPend m.act))
  ∧ (∀ (s : State) (i n : Nat) (p : Pkt) (f : RankFlit), s.Arrives i p → p.body = .rank n f → ∀ t, t = s.stream p.dst n →
    (∀ sg q c mid, f = .head sg q c mid → t.state = 1 → q < t.np → (∀ e ∈ t.seen, e.1 ≠ q) →
      exec (.rankFlitArrival i) s = .next (((s.taken i).setStream p.dst n { t with seen := t.seen ++ [(q, c)], froms := (mid, q) :: t.froms }).wakeIdle p.dst))
    ∧ (∀ q mid last es, f = .body q mid last es → t.state = 1 → (∃ e ∈ t.froms, e.1 = mid) →
      exec (.rankFlitArrival i) s = .next (((s.taken i).setStream p.dst n { t with queue := t.queue ++ es.map (fun e => (q, e)) }).wakeIdle p.dst))
    ∧ (∀ q mid last es, f = .body q mid last es → t.state = 2 → t.drops = [] →
      exec (.rankFlitArrival i) s = .next (((s.taken i).setStream p.dst n { t with disc := t.disc + es.length }).wakeIdle p.dst))
    ∧ (∀ sg q c mid, f = .head sg q c mid → t.state = 0 → t.drops = [] → exec (.rankFlitArrival i) s =
      .next ((((s.taken i).setStream p.dst n { t with drops := [mid] }).modCoreAt p.dst (fun k => { k with dlcnt := k.dlcnt + 1 })).wakeIdle p.dst)))
  ∧ (∀ (s : State) (core : Nat) (k : BitVec 2), ∀ t, t = s.stream core k.toNat → t.state = 1 →
    (t.complete = true → exec (.rankEntryProcessing core k) s = .next (s.setStream core k.toNat { t with
        state := 2, disc := t.disc + t.queue.length, queue := [], results := t.results ++ [(t.word0 2, none)] }))
    ∧ (∀ p e rest, t.complete = false → t.free = true → (t.det = false ∨ t.stop = 0) → t.queue = (p, e) :: rest → t.rect = none → (∀ j a, j < t.sums.length → t.tw.addr j (bitsOf e 11 0) = some a → s.marked core a 1 = false) → ∀ u,
      u = { s.summed core { t with queue := rest } p e with pos := t.pos + 1 } → ∃ v, exec (.rankEntryProcessing core k) s = .next v ∧ v.mem = s.mem
        ∧ (u.complete = false → t.stop = 0 → v.stream core k.toNat = u)
        ∧ (u.complete = true → v.stream core k.toNat = { u with state := 2, disc := u.disc + u.queue.length, queue := [], results := u.results ++ [(u.word0 2, none)] })))
  ∧ (∀ (s : State) (core : Nat) (k : BitVec 2) (a : Word) (b : Option Word) (rest : List (Word × Option Word)), ∀ t, t = s.stream core k.toNat → t.results = (a, b) :: rest →
    ((Tab.get [] (s.coreAt core).qs (5 + k.toNat)).length ≤ 14 → exec (.rankResultPush core k) s = .next ((s.modCoreAt core (fun c => { c with
        qs := Tab.set c.qs (5 + k.toNat) (Tab.get [] c.qs (5 + k.toNat) ++ [a, b.getD t.word1]) })).setStream core k.toNat { t with results := rest }))
    ∧ (14 < (Tab.get [] (s.coreAt core).qs (5 + k.toNat)).length → exec (.rankResultPush core k) s = .next s)))

/-- Sensor samples and trips; READY bits, the lead die, and functions taken out of service. A cluster or stack sample below its
limit is recorded, one at or above it trips the package: power goes, READY clears but for the Farrier and an entry is logged; an
invalid cluster reading (above 4,095, log 29) keeps the time it began; a module reading is recorded and the input voltage's fault
times out into a trip. A self-test that passes sets its READY bit with a log entry and, after the boot wait, may choose the lead
die; the lead die is chosen as the lowest ready one after 500 ms; a stack with more than 1,024 uncorrectable errors, a cluster
invalid for 100 ms and a port down for ten seconds are taken out of service. (R431, R445, R446, R447, R448) -/
def Obligations.SensorsAndReadiness : Prop :=
  ((∀ (s : State) (d c r : Nat), Memory.wf s.mem = true → s.sys.tripped = false → d < 8 → c < 16 →
    (4096 ≤ r → ∃ t, exec (.clusterSensorSample d c r) s = .next t ∧ s.OnlySys t ∧ (t.clusterAt d c).bad ≠ none
      ∧ ((s.clusterAt d c).bad = none → (t.clusterAt d c).bad = some s.time))
    ∧ (r < 110 * 16 → ∃ t, exec (.clusterSensorSample d c r) s = .next t ∧ s.OnlySys t ∧ (t.clusterAt d c).temp = r ∧ (t.clusterAt d c).bad = none
      ∧ (t.clusterAt d c).opened = (s.clusterAt d c).opened)
    ∧ (110 * 16 ≤ r → r < 4096 → ∃ t, exec (.clusterSensorSample d c r) s = .next t ∧ s.Trips t (2 + d)))
  ∧ (∀ (s : State) (d k r : Nat), Memory.wf s.mem = true → s.sys.tripped = false → d < 8 → k < 2 →
    (r < 105 * 16 → ∃ t, exec (.stackSensorSample d k r) s = .next t ∧ s.OnlySys t ∧ Tab.get 0 t.sys.stackTemps (2 * d + k) = r)
    ∧ (105 * 16 ≤ r → ∃ t, exec (.stackSensorSample d k r) s = .next t ∧ s.Trips t (10 + 2 * d + k)))
  ∧ (∀ (s : State) (n r : Nat), s.sys.module.length = 4 → n < 4 → ∃ t, exec (.moduleSensorSample n r) s = .next t ∧ s.OnlySys t
    ∧ t.sys.module[n]? = some r ∧ (n = 2 → 46000 ≤ r → r ≤ 56000 → t.sys.vbad = none)
    ∧ (n = 2 → (r < 46000 ∨ 56000 < r) → s.sys.vbad = none → t.sys.vbad = some s.time))
  ∧ (∀ (s : State) (r since : Nat), Memory.wf s.mem = true → s.sys.tripped = false → s.sys.vbad = some since → (r < 46000 ∨ 56000 < r) → since + Config.tickMs ≤ s.time →
    ∃ t, exec (.inputVoltageTrip r) s = .next t ∧ s.Trips t 42))
  ∧ ((∀ (s : State) (n : Nat), s.isReady 0 = true → s.sys.tripped = false → 0 < n → (n < 42 ∨ (64 ≤ n ∧ n < 192)) →
    (s.isReady n = true → s.sys.lval = true → exec (.selfTestPass n) s = .next s)
    ∧ (s.isReady n = false → s.sys.lval = true → ∃ t, exec (.selfTestPass n) s = .next t ∧ s.ReadyChange t n true)
    ∧ (s.isReady n = false → s.sys.lval = false → (∀ d < 8, s.isReady (2 + d) = false) → s.sys.powerAt + 500 * Config.tickMs ≤ s.time →
      ∃ t, exec (.selfTestPass n) s = .next t ∧ s.ReadyIs t n true ∧ (t.sys.lval = true ↔ 2 ≤ n ∧ n < 10) ∧ (2 ≤ n → n < 10 → t.sys.lead = n - 2)))
  ∧ (∀ (s : State), s.sys.lval = false → s.isReady 0 = true → s.sys.powerAt + 500 * Config.tickMs ≤ s.time →
    (∀ d < 8, s.isReady (2 + d) = true → (∀ c < d, s.isReady (2 + c) = false) →
      exec .leadDieChoice s = .next { s with sys := { s.sys with lead := d, lval := true } })
    ∧ ((∀ d < 8, s.isReady (2 + d) = false) → exec .leadDieChoice s = .next s))
  ∧ (∀ (s : State), (s.sys.lval = true ∨ s.time < s.sys.powerAt + 500 * Config.tickMs) → exec .leadDieChoice s = .next s)
  ∧ (∀ (s : State) (u : Nat), u < 16 → s.isReady (10 + u) = true → 1024 < Tab.get 0 s.sys.uncorrected u →
    ∃ t, exec (.outOfService 0 u) s = .next t ∧ s.TakenOut t (10 + u) (10 + u) ∧ bitOf t.sys.failed u = true)
  ∧ (∀ (s : State) (u since : Nat), u < 128 → s.isReady (64 + u) = true → (s.clusterAt (u / 16) (u % 16)).bad = some since →
    since + 100 * Config.tickMs ≤ s.time → ∃ t, exec (.outOfService 1 u) s = .next t ∧ s.TakenOut t (64 + u) (2 + u / 16))
  ∧ (∀ (s : State) (u since : Nat), u < 16 → s.isReady (26 + u) = true → (s.portAt u).downAt = some since →
    since + 10000 * Config.tickMs ≤ s.time → ∃ t, exec (.outOfService 2 u) s = .next t ∧ s.TakenOut t (26 + u) (26 + u)))

/-- Power-good, restart, staged images and activation; the host mailbox. At power-good the Farrier runs the active bank's image if
it passes, else the other bank's, raises the rollback floor and sets its READY bit; with neither it stays down. RESET and loss of
power leave what the flash, the host and the peers hold. A chunk stages bytes at offset 0 or at the end of what is staged, a
second stage is refused with result 2; activation moves the stage to the inactive bank and switches to it if it passes (result 0),
else answers 3. A mailbox command while one runs sets OVR; while the Farrier is ready each command begins with its result, an unknown one with 1; completion
writes the reply, sets DONE, the result and length, and signals. Sizes and layouts the spec leaves open are the model's (logs 11,
29, 30). (R445, R449, R450, R451, R452, R454) -/
def Obligations.FirmwareAndMailbox : Prop :=
  ((∀ (s : State), s.isReady 0 = false → s.sys.tripped = false →
    (∀ n, (n = s.sys.active ∧ (s.bankAt n).Passes s.sys.rollback) ∨ (n = 1 - s.sys.active ∧ ¬ (s.bankAt s.sys.active).Passes s.sys.rollback ∧ (s.bankAt n).Passes s.sys.rollback) →
      ∃ t, exec .powerGood s = .next t ∧ s.OnlySys t ∧ s.ReadyIs t 0 true ∧ t.sys.rollback = max s.sys.rollback (s.bankAt n).secver ∧ t.sys.powerAt = s.time)
    ∧ (¬ (s.bankAt s.sys.active).Passes s.sys.rollback → ¬ (s.bankAt (1 - s.sys.active)).Passes s.sys.rollback →
      ∃ t, exec .powerGood s = .next t ∧ s.OnlySys t ∧ t.isReady 0 = false ∧ t.sys.rollback = s.sys.rollback))
  ∧ (∀ (s : State), Memory.wf s.mem = true → (∃ t, exec .reset s = .next t ∧ s.Restarted t) ∧ (∃ t, exec .powerLoss s = .next t ∧ s.Restarted t))
  ∧ (∀ (s : State) (off : Nat) (d : List Byte), d ≠ [] →
    (s.sys.stage = none → ∃ t, exec (.pldmFirmwareUpdate off d) s = .next t ∧ s.OnlySys t ∧ t.sys.stage = some (List.replicate off 0 ++ d) ∧ t.sys.banks = s.sys.banks
      ∧ t.sys.active = s.sys.active ∧ t.sys.i3c = s.sys.i3c ++ [[0]])
    ∧ (∀ x, s.sys.stage = some x → off = 0 → ∃ t, exec (.pldmFirmwareUpdate off d) s = .next t ∧ s.OnlySys t ∧ t.sys.stage = some x ∧ t.sys.i3c = s.sys.i3c ++ [[2]])
    ∧ (∀ x, s.sys.stage = some x → off = x.length → 0 < off → ∃ t, exec (.pldmFirmwareUpdate off d) s = .next t ∧ s.OnlySys t ∧ t.sys.stage = some (x ++ d)
      ∧ t.sys.i3c = s.sys.i3c ++ [[0]]))
  ∧ (∀ (s : State) (off : Nat) (x : List Byte), s.isReady 0 = true → s.sys.stage = some x → s.sys.banks.length = 2 → s.sys.active < 2 → ∃ t, exec (.pldmFirmwareUpdate off []) s = .next t
    ∧ s.OnlySys t ∧ t.sys.stage = none ∧ t.sys.rollback = s.sys.rollback ∧ t.bankAt (1 - s.sys.active) = bankOf x ∧ t.bankAt s.sys.active = s.bankAt s.sys.active
    ∧ ((bankOf x).Passes s.sys.rollback → t.sys.active = 1 - s.sys.active ∧ t.sys.i3c = s.sys.i3c ++ [[0]])
    ∧ (¬ (bankOf x).Passes s.sys.rollback → t.sys.active = s.sys.active ∧ t.sys.i3c = s.sys.i3c ++ [[3]])))
  ∧ ((∀ (s : State) (r : FmRun), s.sys.fmrun = some r →
    (∀ len, exec (.readSensors len) s = .next s.overrun) ∧ (∀ len q, exec (.readLog len q) s = .next s.overrun)
    ∧ (∀ len q w, exec (.cap len q w) s = .next s.overrun) ∧ (∀ len off d, exec (.stageFirmwareChunk len off d) s = .next s.overrun)
    ∧ (∀ len, exec (.verifyAndActivate len) s = .next s.overrun) ∧ (∀ len x, exec (.attestationReport len x) s = .next s.overrun)
    ∧ (∀ op len, 6 < op → op < 256 → exec (.mailboxUnknownOp op len) s = .next s.overrun)
    ∧ (s.isReady 0 = true → ∀ m, m = Memory.wrs s.mem (2 ^ 53 + 0x51000) (r.reply.take 4096) → ∃ t, exec (.mailboxCompletion) s = .next t ∧ t.mem = m
      ∧ t.sys.fmrun = none ∧ t.sys.fmdone = true ∧ t.sys.fmres = r.res ∧ t.sys.fmrlen = (r.reply.take 4096).length
      ∧ (s.sys.msiMask.getLsbD 254 = false → t.sys.msiSent = s.sys.msiSent ++ [254])))
  ∧ (∀ (s : State), s.sys.fmrun = none → s.isReady 0 = true → Memory.wf s.mem = true →
    (exec (.readSensors 0) s = .next (s.begins s 1 0 [] (Config.readingsBytes s.readings) 0))
    ∧ (∀ len, 0 < len → len ≤ 4096 → exec (.readSensors len) s = .next (s.begins s 1 len [] [] 1))
    ∧ (∀ first n, first < 2 ^ 32 → n ≤ 127 → exec (.readLog 8 (W (n * 2 ^ 32 + first))) s
        = .next (s.begins s 2 8 (bytesOf 4 first ++ bytesOf 4 n) (s.entries first n) 0))
    ∧ (∀ q w, q < 2 ^ 32 → w < 2 ^ 32 → exec (.cap 8 q w) s
        = .next (s.begins (s.capMessage q w).1 3 8 (bytesOf 4 q ++ bytesOf 4 w) [] (if (s.capMessage q w).2 then 0 else 4)))
    ∧ (∀ off d, off < 2 ^ 32 → d.length ≤ 4092 → exec (.stageFirmwareChunk (4 + d.length) off d) s
        = .next (s.begins (s.stageChunk off d).1 4 (4 + d.length) (bytesOf 4 off ++ d) [] (s.stageChunk off d).2))
    ∧ (exec (.verifyAndActivate 0) s = .next (s.begins s.activate.1 5 0 [] [] s.activate.2))
    ∧ (∀ x, x.length = 32 → exec (.attestationReport 32 x) s = .next (s.begins s 6 32 x (s.report x) 0))
    ∧ (∀ op len, 6 < op → op < 256 → len ≤ 4096 → exec (.mailboxUnknownOp op len) s = .next (s.begins s op len [] [] 1))))

/-- Power caps and budgets; logged counts and management replies; Trace flits, tables, resynchronisation and port loss. A cap
message that reaches a ready Farrier with a newer sequence number sets the cap within 680 to 3,400 W, one repeated only renews the heartbeat, an older one
changes nothing; 500 ms without one falls back; the next budget update gives every cluster its share. The hourly entries log each
corrected count, a scrub finding is logged at its stack; the management interface answers log ranges, readings and attestation
reports while the Farrier is ready, and nothing otherwise. A Trace port that is up sends the next flit of its lowest virtual
network with bytes waiting, coded under the model that fits the most beats (the lower on a tie, raw where none fits four), counts
it and keeps it until acknowledged; a repeat counts the unacknowledged; an in-order data flit is taken, one out of order is not, a
table word that differs asks for resynchronisation; an acknowledgement releases earlier flits; a resynchronisation or retraining
resets tables and counts, a dead port's once no access is in flight; a lost port is recorded and after ten milliseconds is dead. The bytes of readings and reports are free
values (logs 11, 29); the acknowledgement's place in a flit is the model's choice (log 10). (R419, R426, R436, R437, R438, R439,
R449, R452, R453) -/
def Obligations.CapsReportsAndPorts : Prop :=
  ((∀ (s : State) (q w d : Nat), d = (q + 2 ^ 32 - s.sys.cap.last) % 2 ^ 32 → q < 2 ^ 32 →
    (s.isReady 0 = true → 1 ≤ d → d ≤ 2 ^ 31 - 1 → ∃ t, exec (.oemCapMessage q w) s = .next t
      ∧ s.CapIs t { s.sys.cap with last := q, cap := max 680 (min 3400 w), beat := s.time, fallen := false })
    ∧ (s.isReady 0 = true → d = 0 → ∃ t, exec (.oemCapMessage q w) s = .next t ∧ s.CapIs t { s.sys.cap with beat := s.time })
    ∧ (2 ^ 31 ≤ d ∨ s.isReady 0 = false → exec (.oemCapMessage q w) s = .next s))
  ∧ (∀ (s : State), s.sys.cap.fallen = false →
    (s.sys.cap.beat + 500 * Config.tickMs ≤ s.time → ∃ t, exec .capFallback s = .next t ∧ s.CapIs t { s.sys.cap with fallen := true })
    ∧ (s.time < s.sys.cap.beat + 500 * Config.tickMs → exec .capFallback s = .next s))
  ∧ (∀ (s : State) (since : Nat), s.sys.cap.todo = some since → ∃ t, exec .budgetUpdate s = .next t ∧ s.OnlySys t ∧ t.sys.cap = { s.sys.cap with todo := none }
    ∧ (∀ d c, d < 8 → c < 16 → t.clusterAt d c = { s.clusterAt d c with bud := 20000 * s.sys.cap.inForce / 3400 })))
  ∧ ((∀ (s : State), s.sys.log.length + s.sys.corrected.length ≤ 65536 → ∃ t l, exec .correctedCountLog s = .next t ∧ s.OnlySys t ∧ t.sys.log = s.sys.log ++ l
    ∧ l.map (fun e => (e.sev, e.src)) = s.sys.corrected.map (fun c => (1, c.1)) ∧ t.sys.corrected = s.sys.corrected)
  ∧ (∀ (s : State) (a : Nat), a < Config.devBytes → ∃ t v, exec (.scrubFinding a) s = .next t ∧ s.OnlySys t ∧ s.LoggedBy t v (10 + State.stackOf a))
  ∧ (∀ (s : State), s.isReady 0 = true → (∀ x n, x < 2 ^ 32 → n < 2 ^ 32 →
      exec (.pldmMonitoring true (W (n * 2 ^ 32 + x))) s = .next { s with sys := { s.sys with i3c := s.sys.i3c ++ [s.entries x n] } })
    ∧ (∀ w, exec (.pldmMonitoring false w) s = .next { s with sys := { s.sys with i3c := s.sys.i3c ++ [Config.readingsBytes s.readings] } })
    ∧ (∀ x, exec (.spdmAttestation x) s = .next { s with sys := { s.sys with i3c := s.sys.i3c ++ [s.report x] } }))
  ∧ (∀ (s : State), s.isReady 0 = false → (∀ b w, exec (.pldmMonitoring b w) s = .next s) ∧ (∀ x, exec (.spdmAttestation x) s = .next s)))
  ∧ ((∀ (s : State) (n : BitVec 4), ∀ p, p = s.portAt n.toNat →
    (p.up = true → exec (.traceFlitSend n true) s = .next (s.modPort n.toNat (fun p => { p with rty := p.rty + p.unacked.length })))
    ∧ (p.up = false → ∀ b, exec (.traceFlitSend n b) s = .next s)
    ∧ (∀ vn x, p.up = true → vn < 4 → (∀ v < vn, Tab.get [] p.out v = []) → Tab.get [] p.out vn = x → x ≠ [] → p.txCount < 16 → ∃ m b,
      p.Codes vn m b x ∧ ∀ k, k = (if m = 0 then min 240 x.length else 64 * b) → ∃ t, exec (.traceFlitSend n false) s = .next (s.modPort n.toNat (fun _ => t))
        ∧ t.raw = (p.raw + k) % 2 ^ 64 ∧ t.cod = (p.cod + 240) % 2 ^ 64 ∧ t.txSeq = (p.txSeq + 1) % 4096 ∧ t.txCount = p.txCount + 1 ∧ Tab.get [] t.out vn = x.drop k
        ∧ Tab.get 0 t.credits vn = Tab.get 0 p.credits vn + 1 ∧ t.unacked = p.unacked ++ [⟨p.txSeq, vn, 0, m, x.take k⟩] ∧ t.tables = p.tables))
  ∧ (∀ (s : State) (n : BitVec 4), ∀ p, p = s.portAt n.toNat →
    (∀ c q v k m h d, (p.up = false ∨ c = false) → exec (.traceFlitReceive n c q v k m h d) s = .next s)
    ∧ (∀ q v m h d, p.up = true → p.rxCount < 16 → q < 4096 → v < 4 → m < 5 →
      (q ≠ p.rxSeq → exec (.traceFlitReceive n true q v 0 m h d) s = .next s)
      ∧ (q = p.rxSeq → ∃ t, exec (.traceFlitReceive n true q v 0 m h d) s = .next (s.modPort n.toNat (fun _ => t)) ∧ t.rxSeq = (q + 1) % 4096 ∧ t.rxCount = p.rxCount + 1
        ∧ Tab.get [] t.inn v = Tab.get [] p.inn v ++ d ∧ (∀ w ≠ v, Tab.get [] t.inn w = Tab.get [] p.inn w) ∧ (h ≠ 0 → h ≠ Config.tableHash p.tables → t.ask = true)
        ∧ (h = 0 ∨ h = Config.tableHash p.tables → t.ask = p.ask)))
    ∧ (∀ q v m h d pre f post, p.up = true → p.unacked = pre ++ f :: post → f.seq = q % 4096 → (∀ g ∈ pre, g.seq ≠ q % 4096) →
      ∃ t, exec (.traceFlitReceive n true q v 1 m h d) s = .next (s.modPort n.toNat (fun _ => t)) ∧ t.unacked = f :: post)
    ∧ (∀ q v m h d, p.up = true → exec (.traceFlitReceive n true q v 2 m h d) s = .next (s.modPort n.toNat (fun p =>
      { p with counts := [], tables := [], txCount := 0, rxCount := 0, ask := false, rsy := p.rsy + 1 }))))
  ∧ (∀ (s : State) (n : BitVec 4), ∀ p, p = s.portAt n.toNat →
    (p.txCount < 16 → p.rxCount < 16 → exec (.codeTableRebuild n) s = .next (s.modPort n.toNat (fun p => p)))
    ∧ (16 ≤ p.txCount → p.rxCount < 16 → exec (.codeTableRebuild n) s = .next (s.modPort n.toNat (fun p => { p with
        tables := (p.counts.filter (fun e => e.1 / 64 == 0)).foldl (fun t e => Tab.set t e.1 e.2) p.tables, txCount := p.txCount - 16 })))
    ∧ (p.up = true → p.ask = true → exec (.resynchronisation n) s = .next (s.modPort n.toNat (fun p =>
      { p with counts := [], tables := [], txCount := 0, rxCount := 0, ask := false, rsy := p.rsy + 1 })))
    ∧ (p.up = false ∨ p.ask = false → exec (.resynchronisation n) s = .next s)
    ∧ (s.sys.tripped = false → (p.dead = true → s.net.reqs = []) → exec (.portRetrain n) s = .next (s.modPort n.toNat (fun p =>
      { p with counts := [], tables := [], txCount := 0, rxCount := 0, ask := false, rsy := p.rsy + 1, up := true, downAt := none, dead := false })))
    ∧ (p.up = true → exec (.portDown n) s = .next (s.modPort n.toNat (fun p => { p with up := false, downAt := some s.time })))
    ∧ (∀ since, p.up = false → p.downAt = some since → since + 10 * Config.tickMs ≤ s.time →
      exec (.portDown n) s = .next (s.modPort n.toNat (fun p => { p with dead := true })))))

/-- Frames: one-register instructions change only Gd and the PC, scalar stores only the stored bytes. For every state in which
each register of the executing context is present and no error waits at one: whenever an instruction of the one-register tables
(SEL, the divisions with a divisor that is not zero, CMPI, LI, LIH, ADDPC, LEA, the compact forms, BSPOS, and loads from the own
scratchpad) answers a next state, every general register but Gd, every vector, predicate, flag, special, mailbox and exception
register, every accumulator and every byte of memory is as before. A store form answers a state in which every byte outside the
bytes from its effective address on reads as before, and every register, other context, request and package register stays. (05
Scalar instructions, R10, R21, R109, R110, R118, R119) -/
def Obligations.ScalarFrames : Prop :=
  (∀ (s t : State) (sp : Bool) (d a b : Reg), s.Clean →
    (∀ r ∈ binaryRows, exec (r.1 sp d a b) s = .next t → s.OneRegister t d)
    ∧ (∀ r ∈ compactRows, exec (r.1 sp d a) s = .next t → s.OneRegister t d)
    ∧ (exec (.sel sp d a b) s = .next t → s.OneRegister t d)
    ∧ (s.ctx.g b ≠ 0 → ∀ r ∈ divisionRows, exec (r.1 sp d a b) s = .next t → s.OneRegister t d)
    ∧ (∀ r ∈ unaryRows, exec (r.1 sp d a) s = .next t → s.OneRegister t d)
    ∧ (∀ r ∈ immediateRows, ∀ i, exec (r.1 sp d a i) s = .next t → s.OneRegister t d)
    ∧ (∀ r ∈ shiftRows, ∀ n, exec (r.1 sp d a n) s = .next t → s.OneRegister t d)
    ∧ (∀ c i, exec (.cmpi sp c d a i) s = .next t → s.OneRegister t d)
    ∧ (∀ i, exec (.li sp d i) s = .next t ∨ exec (.lih sp d i) s = .next t ∨ exec (.addpc sp d i) s = .next t → s.OneRegister t d)
    ∧ (∀ z i, exec (.lea sp z d a i) s = .next t → s.OneRegister t d)
    ∧ (∀ i, exec (.addiCompact sp d i) s = .next t ∨ exec (.liCompact sp d i) s = .next t ∨ exec (.shliCompact sp d i) s = .next t
        ∨ exec (.shriCompact sp d i) s = .next t → s.OneRegister t d)
    ∧ (exec (.bspos sp d) s = .next t → s.OneRegister t d)
    ∧ (∀ z x i u, ∀ f ∈ loadForms s sp z x d a b i u, s.Local (f.base == 31) f.ea f.size → exec f.instr s = .next t → s.OneRegister t f.dest))
  ∧ (∀ (s t : State) (sp : Bool) (z : Size) (d a b : Reg) (i : BitVec 11) (u : BitVec 5), s.Clean → s.memOk →
    ∀ f ∈ storeForms s sp z d a b i u, s.Local (f.base == 31) f.ea f.size → exec f.instr s = .next t →
      (∀ j, ¬ (spadKey s.pid f.ea.toNat ≤ j ∧ j < spadKey s.pid f.ea.toNat + f.size) → Memory.rd t.mem j = Memory.rd s.mem j)
      ∧ t.ctx = { s.ctx with pc := s.ctx.pc + W f.len, run := .runnable }
      ∧ (∀ q y, ctxKey q y ≠ ctxKey s.pid s.cx → t.ctxAt q y = s.ctxAt q y)
      ∧ (∀ q, { t.coreAt q with cur := 0 } = { s.coreAt q with cur := 0 })
      ∧ t.net.reqs = s.net.reqs ∧ t.net.pkts = s.net.pkts ∧ t.net.results = s.net.results ∧ t.dies = s.dies ∧ t.sys = s.sys ∧ t.launches = s.launches
      ∧ t.copies = s.copies)

/-- State.reset holds the values that the spec gives for reset. At reset every context is free, at user level, with no frame, no
flags, an empty bit buffer and no migration asked for; every core has no system handler, no requests, zero counters, both
arbitration pointers at 63, empty handler slots, barriers, tiles, channels, streams and sequences; the timestamp is 1; clusters
are open with their full budget; READY and LVAL are 0; the caps are 3,400 and 2,040; ports and launch queues hold zeros. (R14,
R155, R197, R200, R221, R281, R384, R385, R404, R420, R426, R445) -/
def Obligations.ResetValues : Prop :=
  (∀ pid cx, (State.reset.ctxAt pid cx).run = .free ∧ (State.reset.ctxAt pid cx).stat.sup = false ∧ (State.reset.ctxAt pid cx).hf = 0
    ∧ (State.reset.ctxAt pid cx).num.flags = 0 ∧ (State.reset.ctxAt pid cx).bb = ⟨0, 0, 0, 0, 0, 0⟩ ∧ (State.reset.ctxAt pid cx).migr = none)
  ∧ (∀ pid n, (State.reset.coreAt pid).shandler = 0 ∧ (State.reset.coreAt pid).rq = 0 ∧ (State.reset.coreAt pid).rsn = 0
    ∧ (State.reset.coreAt pid).dlcnt = 0 ∧ (State.reset.coreAt pid).deccnt = 0 ∧ (State.reset.coreAt pid).last0 = 63 ∧ (State.reset.coreAt pid).last1 = 63
    ∧ Tab.get HSlot.reset (State.reset.coreAt pid).ht n = HSlot.reset ∧ Tab.get Bar.reset (State.reset.coreAt pid).bars n = ⟨0, 0, 0, false, [], none⟩
    ∧ (Tab.get Tile.reset (State.reset.coreAt pid).tiles n).state = 0 ∧ (Tab.get Chan.reset (State.reset.coreAt pid).chans n).mark = 0
    ∧ (Tab.get Strm.reset (State.reset.coreAt pid).unit.rank.strms n).state = 0 ∧ (State.reset.coreAt pid).unit.rank.seqs = [])
  ∧ State.reset.vers.next = 1
  ∧ (∀ d c, (State.reset.clusterAt d c).opened = true ∧ (State.reset.clusterAt d c).bud = 20000)
  ∧ State.reset.sys.ready0 = 0 ∧ State.reset.sys.ready1 = 0 ∧ State.reset.sys.ready2 = 0 ∧ State.reset.sys.lval = false
  ∧ State.reset.sys.cap.cap = 3400 ∧ State.reset.sys.cap.fall = 2040
  ∧ (∀ p, (State.reset.portAt p).raw = 0 ∧ (State.reset.portAt p).cod = 0 ∧ (State.reset.portAt p).rty = 0 ∧ (State.reset.portAt p).rsy = 0)
  ∧ (∀ q, Tab.get LQueue.reset State.reset.sys.lqs q = ⟨0, 0, 0, 0, 0, false⟩)

/-- A step is exec of the instruction that the bytes at the PC decode to, or of the event the agenda names. When the agenda's next
move is the issue of a context that may issue, with nothing due first at its boundary (an effect, an entry of SH, a move of the
core for fairness), and the halfwords at its PC are found, step is exec of the decoded instruction at the state with that context
executing and its fetch in the TLBs, or, where the bytes decode to none, of the unassigned encoding (ILLEGAL). When it is an
event, step is exec of it; with an empty agenda the step performs some open move (which one is the model's free choice, log 3).
The bytes are one halfword, or two when bit 1 of the first is 1. Time advances by a free number of ticks (log 4). (R5, R17, R89,
R90, R107, R108) -/
def Obligations.StepRunsDecodedInstruction : Prop :=
  (∀ (s t : State) (pid cx n : Nat) (i : Instr) (l : List Byte) (rest : List Move), s.agenda = .issue pid cx :: rest →
    t = { s.tick with agenda := rest } → t.mayIssue pid cx = true → t.boundary pid cx = none → t.fetch pid cx = .bytes l →
    (decode l = some (i, n) → step s = exec i ((t.ready pid cx).fillFetch pid cx))
    ∧ (decode l = none → step s = exec (.unassignedEncoding (BitVec.ofNat 32 (natOf l))) (t.ready pid cx)))
  ∧ (∀ (s t : State) (i : Instr) (rest : List Move), s.agenda = .event i :: rest → t = { s.tick with agenda := rest } → isEvent i = true →
    step s = exec i t)
  ∧ (∀ s : State, s.agenda = [] → ∃ m ∈ s.open_, step s = s.tick.perform m)
  ∧ (∀ (s : State) (pid cx : Nat) (c : Ctx) (h h' : Home) (l l' : Option Leaf) (k k' : Nat), c = s.ctxAt pid cx →
    s.locate pid c.space.ptroot c.stat.sup .fetch c.pc 2 true false = .ok (h, l) → k = h.readKey s.sys.lead pid → s.keyHeld k = false →
    s.repOpen h 2 = false → s.homeLost h = false → s.homeDown h = false → s.bad k 2 = false →
    (bitOf (natOf (s.rd k 2)) 1 = false → s.fetch pid cx = .bytes (s.rd k 2))
    ∧ (bitOf (natOf (s.rd k 2)) 1 = true →
      s.locate pid c.space.ptroot c.stat.sup .fetch (c.pc + 2) 2 true false = .ok (h', l') → k' = h'.readKey s.sys.lead pid → s.keyHeld k' = false →
      s.repOpen h' 2 = false → s.homeLost h' = false → s.homeDown h' = false → s.bad k' 2 = false → s.fetch pid cx = .bytes (s.rd k 2 ++ s.rd k' 2)))

/-- Five words written from the encoding tables decode to their instructions. The words of ADD G1, G2, G3; ADDI G4, G5, -1; LD.d
G1, [G2 + 8]; MTS 0x106, G5; and VADD V1, V2, V3 under P4 decode to these instructions with length 4. (R93, R94, R95, R99, R102,
R106) -/
def Obligations.WordsDecodeAsWritten : Prop :=
  decode (bytesOf 4 0x000C4102) = some (.add false 1 2 3, 4)
  ∧ decode (bytesOf 4 0xFFFCA40A) = some (.addi false 4 5 (-1), 4)
  ∧ decode (bytesOf 4 0x002C4132) = some (.ld false .d false 1 2 1, 4)
  ∧ decode (bytesOf 4 0x0418A046) = some (.mts false 5 0x106, 4)
  ∧ decode (bytesOf 4 0x060C4192) = some (.vadd false true 4 1 2 3, 4)

/-- No instruction and no event stops the machine. For every state there is a next state: the machine never faults and never
refuses. (01 The sequential machine, R30, R107, R108) -/
def Obligations.EveryStepGoesOn : Prop :=
  ∀ s : State, ∃ t, step s = .next t

/-- Decoding the encoding of any well-formed instruction gives it back. For every well-formed instruction that has an encoding, at
every value of every operand, decode of encode of it is that instruction with the length of its words. (CTXSAVE and CTXLOAD of the
core share the words of those of a context, log 15; the steps that have no encoding are not encoded.) (04 Encodings and opcode
map, R89, R92, R93, R99, R101, R102, R104, R105) -/
def Obligations.DecodingInvertsEncoding : Prop :=
  ∀ i : Instr, i.wf = true → encode i ≠ [] → (∀ s d a b, i ≠ .ctxsaveCore s d a b ∧ i ≠ .ctxloadCore s d a b) →
    decode (encode i) = some (i, (encode i).length)

/-- Every step keeps the canonical form of memory. For every state whose memory lists addresses strictly rising and no byte equal
to what an unlisted address reads as, if step answers a next state, that state's memory has the same form. The form is the model's
own representation (log 1). (10 The memory hierarchy, R5, R268) -/
def Obligations.MemoryFormIsKept : Prop :=
  ∀ s t : State, s.memOk → step s = .next t → t.memOk

/-- Memory at reset has the canonical form. State.reset's memory has the canonical form that MemoryFormIsKept keeps (log 1). (10
The memory hierarchy, R268) -/
def Obligations.MemoryFormAtReset : Prop :=
  State.reset.memOk

/-- ADDI, ANDI, ORI, XORI, SHLI, SHRI, SARI, RORI and CMPI compute with their immediates. For every state in which each register
of the executing context is present and no error waits at one: the four immediate operations give Gd the value of Ga op the
immediate sign-extended from 14 bits, between -8,192 and 8,191, ANDI with -1 copying Ga; the four shifts give what SHL, SHR, SAR
and ROR give with the count, RORI by (64 - n) mod 64 rotating left by n; CMPI gives 1 exactly when the condition holds between Ga
and the immediate sign-extended from 11 bits, CMPI.ltu with -1 giving 1 unless Ga is all ones; and the decoder reads each from its
major and fields. (R113, R114, R115) -/
def Obligations.ImmediateArithmetic : Prop :=
  ∀ (s : State) (sp : Bool) (d a : Reg), s.Clean →
    (∀ i : BitVec 14, (-8192 ≤ i.toInt ∧ i.toInt ≤ 8191) ∧ i.signExtend 64 = BitVec.ofInt 64 i.toInt
      ∧ exec (.addi sp d a i) s = .next (s.afterG sp 4 d (s.ctx.g a + i.signExtend 64))
      ∧ exec (.andi sp d a i) s = .next (s.afterG sp 4 d (s.ctx.g a &&& i.signExtend 64))
      ∧ exec (.ori sp d a i) s = .next (s.afterG sp 4 d (s.ctx.g a ||| i.signExtend 64))
      ∧ exec (.xori sp d a i) s = .next (s.afterG sp 4 d (s.ctx.g a ^^^ i.signExtend 64))
      ∧ decFields ⟨sp, 0x02, d.toNat, a.toNat, i.toNat⟩ = some (.addi sp d a i)
      ∧ decFields ⟨sp, 0x03, d.toNat, a.toNat, i.toNat⟩ = some (.andi sp d a i)
      ∧ decFields ⟨sp, 0x04, d.toNat, a.toNat, i.toNat⟩ = some (.ori sp d a i)
      ∧ decFields ⟨sp, 0x05, d.toNat, a.toNat, i.toNat⟩ = some (.xori sp d a i))
    ∧ exec (.andi sp d a (-1)) s = .next (s.afterG sp 4 d (s.ctx.g a))
    ∧ (∀ (n : BitVec 6), n.toNat ≤ 63
      ∧ exec (.shli sp d a n) s = .next (s.afterG sp 4 d (s.ctx.g a <<< n.toNat))
      ∧ exec (.shri sp d a n) s = .next (s.afterG sp 4 d (s.ctx.g a >>> n.toNat))
      ∧ exec (.sari sp d a n) s = .next (s.afterG sp 4 d ((s.ctx.g a).sshiftRight n.toNat))
      ∧ exec (.rori sp d a n) s = .next (s.afterG sp 4 d ((s.ctx.g a).rotateRight n.toNat))
      ∧ exec (.rori sp d a (BitVec.ofNat 6 ((64 - n.toNat) % 64))) s = .next (s.afterG sp 4 d ((s.ctx.g a).rotateLeft n.toNat))
      ∧ (∀ b, n.toNat = fld (s.ctx.g b) 5 0 → exec (.shli sp d a n) s = exec (.shl sp d a b) s ∧ exec (.shri sp d a n) s = exec (.shr sp d a b) s
        ∧ exec (.sari sp d a n) s = exec (.sar sp d a b) s ∧ exec (.rori sp d a n) s = exec (.ror sp d a b) s)
      ∧ decFields ⟨sp, 0x06, d.toNat, a.toNat, n.toNat⟩ = some (.shli sp d a n)
      ∧ decFields ⟨sp, 0x06, d.toNat, a.toNat, n.toNat + 64⟩ = some (.shri sp d a n)
      ∧ decFields ⟨sp, 0x06, d.toNat, a.toNat, n.toNat + 128⟩ = some (.sari sp d a n)
      ∧ decFields ⟨sp, 0x06, d.toNat, a.toNat, n.toNat + 192⟩ = some (.rori sp d a n))
    ∧ (∀ (c : Cond) (i : BitVec 11), (-1024 ≤ i.toInt ∧ i.toInt ≤ 1023)
      ∧ (Cond.meets c (s.ctx.g a) (i.signExtend 64) → exec (.cmpi sp c d a i) s = .next (s.afterG sp 4 d 1))
      ∧ (¬ Cond.meets c (s.ctx.g a) (i.signExtend 64) → exec (.cmpi sp c d a i) s = .next (s.afterG sp 4 d 0))
      ∧ decFields ⟨sp, 0x07, d.toNat, a.toNat, c.code + 8 * i.toNat⟩ = some (.cmpi sp c d a i))
    ∧ (s.ctx.g a ≠ 0xFFFFFFFFFFFFFFFF → exec (.cmpi sp .ltu d a (-1)) s = .next (s.afterG sp 4 d 1))
    ∧ (s.ctx.g a = 0xFFFFFFFFFFFFFFFF → exec (.cmpi sp .ltu d a (-1)) s = .next (s.afterG sp 4 d 0))

/-- LEA gives Ga plus its displacement times the size, without an access. For every state in which each register of the executing
context is present and no error waits at one: LEA writes Ga plus the displacement sign-extended from 11 bits times the size that
SZ gives to Gd and changes nothing else but the PC, at every value of its operands; the decoder reads it from major 0x0B and
refuses X = 1. (R117) -/
def Obligations.EffectiveAddressIsGiven : Prop :=
  (∀ (s : State) (sp : Bool) (z : Size) (d a : Reg) (i : BitVec 11), s.Clean →
    exec (.lea sp z d a i) s = .next (s.afterG sp 4 d (s.ctx.g a + BitVec.ofInt 64 (i.toInt * z.bytes))))
  ∧ ∀ w : Nat, w < 2 ^ 32 → bitOf w 1 = true → bitsOf w 7 2 = 0x0B → decode (bytesOf 4 w) = if bitOf w 20 then none else
    some (.lea (bitOf w 0) (Sys2Proof.sizeOf (bitsOf w 19 18)) (r5 (bitsOf w 12 8)) (r5 (bitsOf w 17 13)) (BitVec.ofNat 11 (bitsOf w 31 21)), 4)

/-- The ten INTU instructions give the value of Table 5.2 and are read from F in its order. For every state in which each register
of the executing context is present and no error waits at one: the instruction of function code F of major 0x01 (CLZ, CTZ, POPC,
BSWAP, SEXTB, SEXTH, SEXTW, ZEXTB, ZEXTH, ZEXTW in this order) gives Gd the value of its row and changes nothing else but the PC;
the decoder reads it from major 0x01, F, D and A, and refuses a B that is not 0. (R112) -/
def Obligations.UnaryGroupComputes : Prop :=
  ∀ (k : Nat) (row : (Bool → Reg → Reg → Instr) × (Word → Word)), unaryRows[k]? = some row →
    (∀ (s : State) (sp : Bool) (d a : Reg), s.Clean → exec (row.1 sp d a) s = .next (s.afterG sp 4 d (row.2 (s.ctx.g a))))
    ∧ ∀ w : Nat, w < 2 ^ 32 → bitOf w 1 = true → bitsOf w 7 2 = 0x01 → bitsOf w 31 23 = k →
      decode (bytesOf 4 w) = if bitsOf w 22 18 = 0 then some (row.1 (bitOf w 0) (r5 (bitsOf w 12 8)) (r5 (bitsOf w 17 13)), 4) else none

/-- LOOP decrements its register and branches while it is not zero. For every state in which each register of the executing
context is present and no error waits at one: at an even PC, LOOP on G0 answers ILLEGAL with EFFARG 0; on another register it
writes Ga - 1 and goes to its address plus twice the signed offset when that is not zero, else to the next instruction; a start
value above 0 goes down by one, a start value of 0 wraps to 2^64 - 1 and branches; the decoder reads it from major 0x18 with COND
0 and refuses another COND. (R127) -/
def Obligations.LoopCountsDown : Prop :=
  ∀ (s : State) (sp : Bool) (h : Hint) (a : Reg) (o : BitVec 14), s.Clean → flag s.ctx.pc 0 = false →
    (a = 0 → exec (.loop sp h a o) s = .next (s.raised { eff := 0x001, arg := 0 }))
    ∧ (∀ x, a ≠ 0 → x = s.ctx.g a →
      (x - 1 ≠ 0 → exec (.loop sp h a o) s = .next (s.after sp 4 (fun c => { c.setG a (x - 1) with pc := s.ctx.pc + BitVec.ofInt 64 (2 * o.toInt) })))
      ∧ (x - 1 = 0 → exec (.loop sp h a o) s = .next (s.after sp 4 (fun c => c.setG a (x - 1))))
      ∧ (0 < x.toNat → (x - 1).toNat = x.toNat - 1) ∧ (x = 0 → (x - 1).toNat = 2 ^ 64 - 1))
    ∧ decFields ⟨sp, 0x18, a.toNat, 8 * h.code, o.toNat⟩ = some (.loop sp h a o)
    ∧ (∀ c, c % 8 ≠ 0 → decFields ⟨sp, 0x18, a.toNat, c, o.toNat⟩ = none)

/-- BSINIT opens a ring or answers ILLEGAL. For every state in which each register of the executing context is present and no
error waits at one: BSINIT whose operands meet the stated conditions sets BBLO to Ga, BBHI to Gb, BBPOS and the buffered count to
0 and BBEND to eight times the ring's bytes, and goes on; otherwise it answers ILLEGAL with EFFARG Ga and changes nothing. (R141)
-/
def Obligations.RingIsOpened : Prop :=
  ∀ (s : State) (sp : Bool) (a b : Reg), s.Clean → ∀ x y, x = s.ctx.g a → y = s.ctx.g b →
    (fld x 63 21 = 0 ∧ fld x 5 1 = 0 ∧ y.toNat % 64 = 0 ∧ fld x 20 6 < y.toNat / 64 ∧ y.toNat / 64 ≤ 0x180000 / 64 →
      exec (.bsinit sp a b) s = .next (s.after sp 4 (fun c => { c with bb :=
        { bits := 0, bbn := 0, pos := 0, lim := BitVec.ofNat 64 (8 * (y.toNat - fld x 20 6 * 64)), lo := x, hi := y } })))
    ∧ (¬ (fld x 63 21 = 0 ∧ fld x 5 1 = 0 ∧ y.toNat % 64 = 0 ∧ fld x 20 6 < y.toNat / 64 ∧ y.toNat / 64 ≤ 0x180000 / 64) →
      exec (.bsinit sp a b) s = .next (s.raised { eff := 0x001, arg := x }))

/-- TKSTAT gives the status word of its token, 0 for a dead one. For every state in which each register of the executing context
is present, no error waits at one, and the parts of the scratchpad that hold the record the token can name and its frame can be read at
once (no request of the context to them in flight, above no watermark, without an uncorrectable error): TKSTAT answers a next state at any level (never BADTOKEN, never PRIV): with 0 in Gd for a
token that names no live record, else with a word whose bits are LIVE, MULTI, SYSTEM, BUSY, VLANE and EFFID as the table gives,
and zeros elsewhere. (R163) -/
def Obligations.TokenStatusIsRead : Prop :=
  ∀ (s : State) (sp : Bool) (d a : Reg), s.Clean →
    s.partsFree (tokenParts (s.ctx.g a)) →
    (s.tokenRec s.pid s.cx s.ctx (s.ctx.g a) = none → exec (.tkstat sp d a) s = .next (s.afterG sp 4 d 0))
    ∧ (∀ sys r cap, s.tokenRec s.pid s.cx s.ctx (s.ctx.g a) = some (sys, r, cap) → (sys = false → s.partsFree [(r.frame, 32)]) → ∃ w : Word, exec (.tkstat sp d a) s = .next (s.afterG sp 4 d w)
      ∧ flag w 0 = true ∧ flag w 1 = (!sys && r.multi) ∧ flag w 2 = sys
      ∧ flag w 3 = (if sys then s.ctx.sysBusy else (s.frameAt s.pid r.frame).busy) ∧ flag w 4 = r.vlane ∧ fld w 15 5 = 0 ∧ fld w 27 16 = r.effid % 4096 ∧
      (r.effid < 4096 → fld w 63 28 = 0))

/-- SHANDLE sets the system handler address, which applies to every later effect of every context of the core. For every state in
which each register of the executing context is present and no error waits at one: SHANDLE answers PRIV at user level, ALIGN for
an odd address, and else the state in which the core's handler address is Ga and nothing else has changed but the PC; after it,
with Ga 0 no context of the core can enter the system handler, and with another value each context of the core whose record is not
busy takes a system effect (other than MEMERR) at that address. (R164) -/
def Obligations.SystemHandlerIsSet : Prop :=
  ∀ (s : State) (sp : Bool) (a : Reg), s.Clean →
    (s.ctx.stat.sup = false → exec (.shandle sp a) s = .next (s.raised { eff := 0x002 }))
    ∧ (s.ctx.stat.sup = true → flag (s.ctx.g a) 0 = true → exec (.shandle sp a) s = .next (s.raised { eff := 0x003, addr := s.ctx.g a }))
    ∧ (s.ctx.stat.sup = true → flag (s.ctx.g a) 0 = false →
      ∃ t, exec (.shandle sp a) s = .next t ∧ (t.coreAt s.pid).shandler = s.ctx.g a
        ∧ t.ctx = { s.ctx with pc := s.ctx.pc + 4, run := .runnable } ∧ (∀ q, q ≠ s.pid → t.coreAt q = s.coreAt q) ∧ t.mem = s.mem ∧ t.net = s.net
        ∧ (s.ctx.g a = 0 → ∀ u cx, u = { t with cx := cx } → ¬ u.SystemReady)
        ∧ (s.ctx.g a ≠ 0 → ∀ u cx, u = { t with cx := cx } → u.ctx.sysBusy = false → ∀ r : Raise, Eff.system r.eff = true → r.eff ≠ 0x006 →
          (r.stk = true → u.ctx.stat.emrg = false) → EnteredSystem u (u.raised r) r u.ctx.pc ∧ (u.raised r).ctx.pc = s.ctx.g a))

/-- VCFG checks and sets VT and gives the element count. For every state in which each register of the executing context is
present and no error waits at one: VCFG with a reserved bit set or an RM of 6 or 7 answers ILLEGAL with EFFARG Ga and writes
nothing; otherwise it sets VT to Ga and Gd to 512 divided by the width of the new EF, and nothing else changes but the PC; the
decoder refuses a P field that is not 0. (R184) -/
def Obligations.VectorFormatIsConfigured : Prop :=
  ∀ (s : State) (sp : Bool) (d a : Reg), s.Clean →
    (∀ x, x = s.ctx.g a →
      (fld x 63 48 = 0 ∧ fld x 15 12 = 0 ∧ flag x 7 = false ∧ fld x 6 4 ≤ 5 →
        exec (.vcfg sp d a) s = .next (s.after sp 4 (fun c => { c.setG d (W (512 / fmtWidth (fld x 3 0))) with num := { c.num with vt := x } })))
      ∧ (¬ (fld x 63 48 = 0 ∧ fld x 15 12 = 0 ∧ flag x 7 = false ∧ fld x 6 4 ≤ 5) →
        exec (.vcfg sp d a) s = .next (s.raised { eff := 0x001, arg := x })))
    ∧ (∀ p, p % 8 ≠ 0 → decVcvt sp false (p % 8) d.toNat a.toNat 0 4 = none)
    ∧ decVcvt sp false 0 d.toNat a.toNat 0 4 = some (.vcfg sp d a)

/-- Register numbers, shift counts and compare immediates are read as R95 says. A word of major 0x10 or 0x11 decodes to MFS or MTS
with the special-register number zero-extended from 14 bits, and to nothing if the unused register field is not 0; a word of major
0x06 to the shift of its type with its count of six bits, and to nothing if the upper six bits are not 0; a word of major 0x07 to
CMPI with its 11-bit immediate, which CMPI sign-extends before comparing under every condition. (R95) -/
def Obligations.ImmediateExceptionsDecode : Prop :=
  ∀ w : Nat, w < 2 ^ 32 → bitOf w 1 = true →
    (bitsOf w 7 2 = 0x10 → decode (bytesOf 4 w) = if bitsOf w 17 13 = 0 then some (.mfs (bitOf w 0) (r5 (bitsOf w 12 8)) (BitVec.ofNat 14 (bitsOf w 31 18)), 4) else none)
    ∧ (bitsOf w 7 2 = 0x11 → decode (bytesOf 4 w) = if bitsOf w 12 8 = 0 then some (.mts (bitOf w 0) (r5 (bitsOf w 17 13)) (BitVec.ofNat 14 (bitsOf w 31 18)), 4) else none)
    ∧ (bitsOf w 7 2 = 0x06 → ∀ (s : Bool) (d a : Reg) (n : BitVec 6), s = bitOf w 0 → d = r5 (bitsOf w 12 8) → a = r5 (bitsOf w 17 13) → n = BitVec.ofNat 6 (bitsOf w 23 18) →
      (bitsOf w 31 26 ≠ 0 → decode (bytesOf 4 w) = none)
      ∧ (bitsOf w 31 26 = 0 → (bitsOf w 25 24 = 0 → decode (bytesOf 4 w) = some (.shli s d a n, 4)) ∧ (bitsOf w 25 24 = 1 → decode (bytesOf 4 w) = some (.shri s d a n, 4))
        ∧ (bitsOf w 25 24 = 2 → decode (bytesOf 4 w) = some (.sari s d a n, 4)) ∧ (bitsOf w 25 24 = 3 → decode (bytesOf 4 w) = some (.rori s d a n, 4))))
    ∧ (bitsOf w 7 2 = 0x07 → ∀ c : Cond, c.code = bitsOf w 20 18 →
      decode (bytesOf 4 w) = some (.cmpi (bitOf w 0) c (r5 (bitsOf w 12 8)) (r5 (bitsOf w 17 13)) (BitVec.ofNat 11 (bitsOf w 31 21)), 4))
    ∧ (∀ (s : State) (sp : Bool) (c : Cond) (d a : Reg) (i : BitVec 11), s.Clean → 
      (Cond.meets c (s.ctx.g a) (i.signExtend 64) → exec (.cmpi sp c d a i) s = .next (s.afterG sp 4 d 1))
      ∧ (¬ Cond.meets c (s.ctx.g a) (i.signExtend 64) → exec (.cmpi sp c d a i) s = .next (s.afterG sp 4 d 0)))

/-- PERFORM and PERFORMV carry their effect id split across the E fields. A word of major 0x1A with F4 = 2 or 3 decodes to PERFORM
or PERFORMV with effect id bits 9:0 from bits 27:18 and bits 11:10 from bits 9:8, the argument register from A, the predicate of
PERFORMV from bits 12:10, which PERFORM requires to be 0; the other functions decode from D, A, B and C. (R104) -/
def Obligations.EffectIdsDecode : Prop :=
  ∀ w : Nat, w < 2 ^ 32 → bitOf w 1 = true → bitsOf w 7 2 = 0x1A →
    (bitsOf w 31 28 = 2 → decode (bytesOf 4 w) = if bitsOf w 12 10 = 0
      then some (.perform (bitOf w 0) (BitVec.ofNat 12 (bitsOf w 27 18 + 1024 * bitsOf w 9 8)) (r5 (bitsOf w 17 13)), 4) else none)
    ∧ (bitsOf w 31 28 = 3 → decode (bytesOf 4 w)
      = some (.performv (bitOf w 0) (BitVec.ofNat 12 (bitsOf w 27 18 + 1024 * bitsOf w 9 8)) (r5 (bitsOf w 17 13)) (r3 (bitsOf w 12 10)), 4))
    ∧ (bitsOf w 31 28 ≠ 2 → bitsOf w 31 28 ≠ 3 → decode (bytesOf 4 w) = (decEff (bitOf w 0) (bitsOf w 12 8) (bitsOf w 17 13) (bitsOf w 22 18) (bitsOf w 27 23)
      (bitsOf w 31 28)).map (fun i => (i, 4)))

/-- In majors 0x2C to 0x2E bits 28 to 30 are NEG, AZ and SAT, and bit 31 is reserved. A word of majors 0x2C, 0x2D and 0x2E decodes
to MMA, MMAR and MMASP with NEG, AZ and SAT from bits 28, 29 and 30, Tc, Ta and Tb from D, A and B and Gk from C, and to nothing
if bit 31 is 1. (R105) -/
def Obligations.MatrixFlagsDecode : Prop :=
  ∀ w : Nat, w < 2 ^ 32 → bitOf w 1 = true →
    (bitsOf w 7 2 = 0x2C → decode (bytesOf 4 w) = if bitOf w 31 then none else
      some (.mma (bitOf w 0) (bitOf w 30) (bitOf w 29) (bitOf w 28) (r5 (bitsOf w 12 8)) (r5 (bitsOf w 17 13)) (r5 (bitsOf w 22 18)) (r5 (bitsOf w 27 23)), 4))
    ∧ (bitsOf w 7 2 = 0x2D → decode (bytesOf 4 w) = if bitOf w 31 then none else
      some (.mmar (bitOf w 0) (bitOf w 30) (bitOf w 29) (bitOf w 28) (r5 (bitsOf w 12 8)) (r5 (bitsOf w 17 13)) (r5 (bitsOf w 22 18)) (r5 (bitsOf w 27 23)), 4))
    ∧ (bitsOf w 7 2 = 0x2E → decode (bytesOf 4 w) = if bitOf w 31 then none else
      some (.mmasp (bitOf w 0) (bitOf w 30) (bitOf w 29) (bitOf w 28) (r5 (bitsOf w 12 8)) (r5 (bitsOf w 17 13)) (r5 (bitsOf w 22 18)) (r5 (bitsOf w 27 23)), 4))
end

