-- ==== Sys2Proof/Laws/Tab.lean ====
section
/-! SUPPORT. Laws of keyed tables and of positions in lists. -/

set_option Elab.async false

namespace Sys2Proof

variable {α : Type}

@[simp] theorem Tab.get_set_same (d a : α) (t : Tab α) (k : Nat) : Tab.get d (Tab.set t k a) k = a := by
  induction t with
  | nil => simp [Tab.set, Tab.get]
  | cons e t ih =>
    obtain ⟨j, b⟩ := e
    simp only [Tab.set]
    split
    · simp [Tab.get]
    · split
      · simp [Tab.get]
      · rename_i h _
        simp [Tab.get, h, ih]

theorem Tab.get_set_ne (d a : α) (t : Tab α) {k j : Nat} (h : j ≠ k) : Tab.get d (Tab.set t k a) j = Tab.get d t j := by
  induction t with
  | nil => simp [Tab.set, Tab.get, Ne.symm h]
  | cons e t ih =>
    obtain ⟨i, b⟩ := e
    simp only [Tab.set]
    split
    · rename_i hi
      subst hi
      simp [Tab.get, Ne.symm h]
    · split
      · simp [Tab.get, Ne.symm h]
      · simp only [Tab.get]
        split
        · rfl
        · exact ih

theorem Tab.get_set (d a : α) (t : Tab α) (k j : Nat) : Tab.get d (Tab.set t k a) j = if j = k then a else Tab.get d t j := by
  split
  · subst_vars; simp
  · rename_i h; exact Tab.get_set_ne d a t h

@[simp] theorem Tab.set_set (t : Tab α) (k : Nat) (a b : α) : Tab.set (Tab.set t k a) k b = Tab.set t k b := by
  induction t with
  | nil => simp [Tab.set]
  | cons e t ih =>
    obtain ⟨j, c⟩ := e
    simp only [Tab.set]
    split
    · simp [Tab.set]
    · split
      · simp [Tab.set]
      · rename_i h h'
        simp [Tab.set, h, h', ih]

theorem takeAt_getElem? (l : List α) (i : Nat) : takeAt l i = (l[i]?).map (fun a => (a, l.eraseIdx i)) := by
  induction l generalizing i with
  | nil => cases i <;> rfl
  | cons a l ih =>
    cases i with
    | zero => rfl
    | succ i => simp [takeAt, ih, Option.map_map, Function.comp_def]

theorem updAt_length (f : α → α) (l : List α) (i : Nat) : (updAt f l i).length = l.length := by
  induction l generalizing i with
  | nil => rfl
  | cons a l ih => cases i <;> simp [updAt, ih]

theorem updAt_end (f : α → α) (l : List α) : updAt f l l.length = l := by
  induction l with
  | nil => rfl
  | cons a l ih => simp [updAt, ih]
theorem updAt_append (f : α → α) (l : List α) (a : α) : updAt f (l ++ [a]) l.length = l ++ [f a] := by
  induction l with
  | nil => rfl
  | cons b l ih => simp [updAt, ih]

end Sys2Proof
end

