-- ==== Sys2Proof/Laws/State.lean ====
section
/-! SUPPORT. What each update of the state leaves as it was, one lemma for each field; and what is read back after an update. -/

set_option Elab.async false

namespace Sys2Proof.Machine.State

/-! ### setCtxAt -/

@[simp] theorem setCtxAt_agenda (s : State) (p x : Nat) (c : Ctx) : (s.setCtxAt p x c).agenda = s.agenda := rfl
@[simp] theorem setCtxAt_pid (s : State) (p x : Nat) (c : Ctx) : (s.setCtxAt p x c).pid = s.pid := rfl
@[simp] theorem setCtxAt_cx (s : State) (p x : Nat) (c : Ctx) : (s.setCtxAt p x c).cx = s.cx := rfl
@[simp] theorem setCtxAt_time (s : State) (p x : Nat) (c : Ctx) : (s.setCtxAt p x c).time = s.time := rfl
@[simp] theorem setCtxAt_stepNo (s : State) (p x : Nat) (c : Ctx) : (s.setCtxAt p x c).stepNo = s.stepNo := rfl
@[simp] theorem setCtxAt_cores (s : State) (p x : Nat) (c : Ctx) : (s.setCtxAt p x c).cores = s.cores := rfl
@[simp] theorem setCtxAt_dies (s : State) (p x : Nat) (c : Ctx) : (s.setCtxAt p x c).dies = s.dies := rfl
@[simp] theorem setCtxAt_mem (s : State) (p x : Nat) (c : Ctx) : (s.setCtxAt p x c).mem = s.mem := rfl
@[simp] theorem setCtxAt_ue (s : State) (p x : Nat) (c : Ctx) : (s.setCtxAt p x c).ue = s.ue := rfl
@[simp] theorem setCtxAt_net (s : State) (p x : Nat) (c : Ctx) : (s.setCtxAt p x c).net = s.net := rfl
@[simp] theorem setCtxAt_vers (s : State) (p x : Nat) (c : Ctx) : (s.setCtxAt p x c).vers = s.vers := rfl
@[simp] theorem setCtxAt_copies (s : State) (p x : Nat) (c : Ctx) : (s.setCtxAt p x c).copies = s.copies := rfl
@[simp] theorem setCtxAt_nextCopy (s : State) (p x : Nat) (c : Ctx) : (s.setCtxAt p x c).nextCopy = s.nextCopy := rfl
@[simp] theorem setCtxAt_launches (s : State) (p x : Nat) (c : Ctx) : (s.setCtxAt p x c).launches = s.launches := rfl
@[simp] theorem setCtxAt_nextLaunch (s : State) (p x : Nat) (c : Ctx) : (s.setCtxAt p x c).nextLaunch = s.nextLaunch := rfl
@[simp] theorem setCtxAt_nextAct (s : State) (p x : Nat) (c : Ctx) : (s.setCtxAt p x c).nextAct = s.nextAct := rfl
@[simp] theorem setCtxAt_saved (s : State) (p x : Nat) (c : Ctx) : (s.setCtxAt p x c).saved = s.saved := rfl
@[simp] theorem setCtxAt_images (s : State) (p x : Nat) (c : Ctx) : (s.setCtxAt p x c).images = s.images := rfl
@[simp] theorem setCtxAt_spads (s : State) (p x : Nat) (c : Ctx) : (s.setCtxAt p x c).spads = s.spads := rfl
@[simp] theorem setCtxAt_sys (s : State) (p x : Nat) (c : Ctx) : (s.setCtxAt p x c).sys = s.sys := rfl

/-! ### modCtxAt -/

@[simp] theorem modCtxAt_agenda (s : State) (p x : Nat) (f : Ctx → Ctx) : (s.modCtxAt p x f).agenda = s.agenda := rfl
@[simp] theorem modCtxAt_pid (s : State) (p x : Nat) (f : Ctx → Ctx) : (s.modCtxAt p x f).pid = s.pid := rfl
@[simp] theorem modCtxAt_cx (s : State) (p x : Nat) (f : Ctx → Ctx) : (s.modCtxAt p x f).cx = s.cx := rfl
@[simp] theorem modCtxAt_time (s : State) (p x : Nat) (f : Ctx → Ctx) : (s.modCtxAt p x f).time = s.time := rfl
@[simp] theorem modCtxAt_stepNo (s : State) (p x : Nat) (f : Ctx → Ctx) : (s.modCtxAt p x f).stepNo = s.stepNo := rfl
@[simp] theorem modCtxAt_cores (s : State) (p x : Nat) (f : Ctx → Ctx) : (s.modCtxAt p x f).cores = s.cores := rfl
@[simp] theorem modCtxAt_dies (s : State) (p x : Nat) (f : Ctx → Ctx) : (s.modCtxAt p x f).dies = s.dies := rfl
@[simp] theorem modCtxAt_mem (s : State) (p x : Nat) (f : Ctx → Ctx) : (s.modCtxAt p x f).mem = s.mem := rfl
@[simp] theorem modCtxAt_ue (s : State) (p x : Nat) (f : Ctx → Ctx) : (s.modCtxAt p x f).ue = s.ue := rfl
@[simp] theorem modCtxAt_net (s : State) (p x : Nat) (f : Ctx → Ctx) : (s.modCtxAt p x f).net = s.net := rfl
@[simp] theorem modCtxAt_vers (s : State) (p x : Nat) (f : Ctx → Ctx) : (s.modCtxAt p x f).vers = s.vers := rfl
@[simp] theorem modCtxAt_copies (s : State) (p x : Nat) (f : Ctx → Ctx) : (s.modCtxAt p x f).copies = s.copies := rfl
@[simp] theorem modCtxAt_nextCopy (s : State) (p x : Nat) (f : Ctx → Ctx) : (s.modCtxAt p x f).nextCopy = s.nextCopy := rfl
@[simp] theorem modCtxAt_launches (s : State) (p x : Nat) (f : Ctx → Ctx) : (s.modCtxAt p x f).launches = s.launches := rfl
@[simp] theorem modCtxAt_nextLaunch (s : State) (p x : Nat) (f : Ctx → Ctx) : (s.modCtxAt p x f).nextLaunch = s.nextLaunch := rfl
@[simp] theorem modCtxAt_nextAct (s : State) (p x : Nat) (f : Ctx → Ctx) : (s.modCtxAt p x f).nextAct = s.nextAct := rfl
@[simp] theorem modCtxAt_saved (s : State) (p x : Nat) (f : Ctx → Ctx) : (s.modCtxAt p x f).saved = s.saved := rfl
@[simp] theorem modCtxAt_images (s : State) (p x : Nat) (f : Ctx → Ctx) : (s.modCtxAt p x f).images = s.images := rfl
@[simp] theorem modCtxAt_spads (s : State) (p x : Nat) (f : Ctx → Ctx) : (s.modCtxAt p x f).spads = s.spads := rfl
@[simp] theorem modCtxAt_sys (s : State) (p x : Nat) (f : Ctx → Ctx) : (s.modCtxAt p x f).sys = s.sys := rfl

/-! ### setCtx -/

@[simp] theorem setCtx_agenda (s : State) (c : Ctx) : (s.setCtx c).agenda = s.agenda := rfl
@[simp] theorem setCtx_pid (s : State) (c : Ctx) : (s.setCtx c).pid = s.pid := rfl
@[simp] theorem setCtx_cx (s : State) (c : Ctx) : (s.setCtx c).cx = s.cx := rfl
@[simp] theorem setCtx_time (s : State) (c : Ctx) : (s.setCtx c).time = s.time := rfl
@[simp] theorem setCtx_stepNo (s : State) (c : Ctx) : (s.setCtx c).stepNo = s.stepNo := rfl
@[simp] theorem setCtx_cores (s : State) (c : Ctx) : (s.setCtx c).cores = s.cores := rfl
@[simp] theorem setCtx_dies (s : State) (c : Ctx) : (s.setCtx c).dies = s.dies := rfl
@[simp] theorem setCtx_mem (s : State) (c : Ctx) : (s.setCtx c).mem = s.mem := rfl
@[simp] theorem setCtx_ue (s : State) (c : Ctx) : (s.setCtx c).ue = s.ue := rfl
@[simp] theorem setCtx_net (s : State) (c : Ctx) : (s.setCtx c).net = s.net := rfl
@[simp] theorem setCtx_vers (s : State) (c : Ctx) : (s.setCtx c).vers = s.vers := rfl
@[simp] theorem setCtx_copies (s : State) (c : Ctx) : (s.setCtx c).copies = s.copies := rfl
@[simp] theorem setCtx_nextCopy (s : State) (c : Ctx) : (s.setCtx c).nextCopy = s.nextCopy := rfl
@[simp] theorem setCtx_launches (s : State) (c : Ctx) : (s.setCtx c).launches = s.launches := rfl
@[simp] theorem setCtx_nextLaunch (s : State) (c : Ctx) : (s.setCtx c).nextLaunch = s.nextLaunch := rfl
@[simp] theorem setCtx_nextAct (s : State) (c : Ctx) : (s.setCtx c).nextAct = s.nextAct := rfl
@[simp] theorem setCtx_saved (s : State) (c : Ctx) : (s.setCtx c).saved = s.saved := rfl
@[simp] theorem setCtx_images (s : State) (c : Ctx) : (s.setCtx c).images = s.images := rfl
@[simp] theorem setCtx_spads (s : State) (c : Ctx) : (s.setCtx c).spads = s.spads := rfl
@[simp] theorem setCtx_sys (s : State) (c : Ctx) : (s.setCtx c).sys = s.sys := rfl

/-! ### modCtx -/

@[simp] theorem modCtx_agenda (s : State) (f : Ctx → Ctx) : (s.modCtx f).agenda = s.agenda := rfl
@[simp] theorem modCtx_pid (s : State) (f : Ctx → Ctx) : (s.modCtx f).pid = s.pid := rfl
@[simp] theorem modCtx_cx (s : State) (f : Ctx → Ctx) : (s.modCtx f).cx = s.cx := rfl
@[simp] theorem modCtx_time (s : State) (f : Ctx → Ctx) : (s.modCtx f).time = s.time := rfl
@[simp] theorem modCtx_stepNo (s : State) (f : Ctx → Ctx) : (s.modCtx f).stepNo = s.stepNo := rfl
@[simp] theorem modCtx_cores (s : State) (f : Ctx → Ctx) : (s.modCtx f).cores = s.cores := rfl
@[simp] theorem modCtx_dies (s : State) (f : Ctx → Ctx) : (s.modCtx f).dies = s.dies := rfl
@[simp] theorem modCtx_mem (s : State) (f : Ctx → Ctx) : (s.modCtx f).mem = s.mem := rfl
@[simp] theorem modCtx_ue (s : State) (f : Ctx → Ctx) : (s.modCtx f).ue = s.ue := rfl
@[simp] theorem modCtx_net (s : State) (f : Ctx → Ctx) : (s.modCtx f).net = s.net := rfl
@[simp] theorem modCtx_vers (s : State) (f : Ctx → Ctx) : (s.modCtx f).vers = s.vers := rfl
@[simp] theorem modCtx_copies (s : State) (f : Ctx → Ctx) : (s.modCtx f).copies = s.copies := rfl
@[simp] theorem modCtx_nextCopy (s : State) (f : Ctx → Ctx) : (s.modCtx f).nextCopy = s.nextCopy := rfl
@[simp] theorem modCtx_launches (s : State) (f : Ctx → Ctx) : (s.modCtx f).launches = s.launches := rfl
@[simp] theorem modCtx_nextLaunch (s : State) (f : Ctx → Ctx) : (s.modCtx f).nextLaunch = s.nextLaunch := rfl
@[simp] theorem modCtx_nextAct (s : State) (f : Ctx → Ctx) : (s.modCtx f).nextAct = s.nextAct := rfl
@[simp] theorem modCtx_saved (s : State) (f : Ctx → Ctx) : (s.modCtx f).saved = s.saved := rfl
@[simp] theorem modCtx_images (s : State) (f : Ctx → Ctx) : (s.modCtx f).images = s.images := rfl
@[simp] theorem modCtx_spads (s : State) (f : Ctx → Ctx) : (s.modCtx f).spads = s.spads := rfl
@[simp] theorem modCtx_sys (s : State) (f : Ctx → Ctx) : (s.modCtx f).sys = s.sys := rfl

/-! ### setCoreAt -/

@[simp] theorem setCoreAt_agenda (s : State) (p : Nat) (k : Core) : (s.setCoreAt p k).agenda = s.agenda := rfl
@[simp] theorem setCoreAt_pid (s : State) (p : Nat) (k : Core) : (s.setCoreAt p k).pid = s.pid := rfl
@[simp] theorem setCoreAt_cx (s : State) (p : Nat) (k : Core) : (s.setCoreAt p k).cx = s.cx := rfl
@[simp] theorem setCoreAt_time (s : State) (p : Nat) (k : Core) : (s.setCoreAt p k).time = s.time := rfl
@[simp] theorem setCoreAt_stepNo (s : State) (p : Nat) (k : Core) : (s.setCoreAt p k).stepNo = s.stepNo := rfl
@[simp] theorem setCoreAt_ctxs (s : State) (p : Nat) (k : Core) : (s.setCoreAt p k).ctxs = s.ctxs := rfl
@[simp] theorem setCoreAt_dies (s : State) (p : Nat) (k : Core) : (s.setCoreAt p k).dies = s.dies := rfl
@[simp] theorem setCoreAt_mem (s : State) (p : Nat) (k : Core) : (s.setCoreAt p k).mem = s.mem := rfl
@[simp] theorem setCoreAt_ue (s : State) (p : Nat) (k : Core) : (s.setCoreAt p k).ue = s.ue := rfl
@[simp] theorem setCoreAt_net (s : State) (p : Nat) (k : Core) : (s.setCoreAt p k).net = s.net := rfl
@[simp] theorem setCoreAt_vers (s : State) (p : Nat) (k : Core) : (s.setCoreAt p k).vers = s.vers := rfl
@[simp] theorem setCoreAt_copies (s : State) (p : Nat) (k : Core) : (s.setCoreAt p k).copies = s.copies := rfl
@[simp] theorem setCoreAt_nextCopy (s : State) (p : Nat) (k : Core) : (s.setCoreAt p k).nextCopy = s.nextCopy := rfl
@[simp] theorem setCoreAt_launches (s : State) (p : Nat) (k : Core) : (s.setCoreAt p k).launches = s.launches := rfl
@[simp] theorem setCoreAt_nextLaunch (s : State) (p : Nat) (k : Core) : (s.setCoreAt p k).nextLaunch = s.nextLaunch := rfl
@[simp] theorem setCoreAt_nextAct (s : State) (p : Nat) (k : Core) : (s.setCoreAt p k).nextAct = s.nextAct := rfl
@[simp] theorem setCoreAt_saved (s : State) (p : Nat) (k : Core) : (s.setCoreAt p k).saved = s.saved := rfl
@[simp] theorem setCoreAt_images (s : State) (p : Nat) (k : Core) : (s.setCoreAt p k).images = s.images := rfl
@[simp] theorem setCoreAt_spads (s : State) (p : Nat) (k : Core) : (s.setCoreAt p k).spads = s.spads := rfl
@[simp] theorem setCoreAt_sys (s : State) (p : Nat) (k : Core) : (s.setCoreAt p k).sys = s.sys := rfl

/-! ### modCoreAt -/

@[simp] theorem modCoreAt_agenda (s : State) (p : Nat) (f : Core → Core) : (s.modCoreAt p f).agenda = s.agenda := rfl
@[simp] theorem modCoreAt_pid (s : State) (p : Nat) (f : Core → Core) : (s.modCoreAt p f).pid = s.pid := rfl
@[simp] theorem modCoreAt_cx (s : State) (p : Nat) (f : Core → Core) : (s.modCoreAt p f).cx = s.cx := rfl
@[simp] theorem modCoreAt_time (s : State) (p : Nat) (f : Core → Core) : (s.modCoreAt p f).time = s.time := rfl
@[simp] theorem modCoreAt_stepNo (s : State) (p : Nat) (f : Core → Core) : (s.modCoreAt p f).stepNo = s.stepNo := rfl
@[simp] theorem modCoreAt_ctxs (s : State) (p : Nat) (f : Core → Core) : (s.modCoreAt p f).ctxs = s.ctxs := rfl
@[simp] theorem modCoreAt_dies (s : State) (p : Nat) (f : Core → Core) : (s.modCoreAt p f).dies = s.dies := rfl
@[simp] theorem modCoreAt_mem (s : State) (p : Nat) (f : Core → Core) : (s.modCoreAt p f).mem = s.mem := rfl
@[simp] theorem modCoreAt_ue (s : State) (p : Nat) (f : Core → Core) : (s.modCoreAt p f).ue = s.ue := rfl
@[simp] theorem modCoreAt_net (s : State) (p : Nat) (f : Core → Core) : (s.modCoreAt p f).net = s.net := rfl
@[simp] theorem modCoreAt_vers (s : State) (p : Nat) (f : Core → Core) : (s.modCoreAt p f).vers = s.vers := rfl
@[simp] theorem modCoreAt_copies (s : State) (p : Nat) (f : Core → Core) : (s.modCoreAt p f).copies = s.copies := rfl
@[simp] theorem modCoreAt_nextCopy (s : State) (p : Nat) (f : Core → Core) : (s.modCoreAt p f).nextCopy = s.nextCopy := rfl
@[simp] theorem modCoreAt_launches (s : State) (p : Nat) (f : Core → Core) : (s.modCoreAt p f).launches = s.launches := rfl
@[simp] theorem modCoreAt_nextLaunch (s : State) (p : Nat) (f : Core → Core) : (s.modCoreAt p f).nextLaunch = s.nextLaunch := rfl
@[simp] theorem modCoreAt_nextAct (s : State) (p : Nat) (f : Core → Core) : (s.modCoreAt p f).nextAct = s.nextAct := rfl
@[simp] theorem modCoreAt_saved (s : State) (p : Nat) (f : Core → Core) : (s.modCoreAt p f).saved = s.saved := rfl
@[simp] theorem modCoreAt_images (s : State) (p : Nat) (f : Core → Core) : (s.modCoreAt p f).images = s.images := rfl
@[simp] theorem modCoreAt_spads (s : State) (p : Nat) (f : Core → Core) : (s.modCoreAt p f).spads = s.spads := rfl
@[simp] theorem modCoreAt_sys (s : State) (p : Nat) (f : Core → Core) : (s.modCoreAt p f).sys = s.sys := rfl

/-! ### modCore -/

@[simp] theorem modCore_agenda (s : State) (f : Core → Core) : (s.modCore f).agenda = s.agenda := rfl
@[simp] theorem modCore_pid (s : State) (f : Core → Core) : (s.modCore f).pid = s.pid := rfl
@[simp] theorem modCore_cx (s : State) (f : Core → Core) : (s.modCore f).cx = s.cx := rfl
@[simp] theorem modCore_time (s : State) (f : Core → Core) : (s.modCore f).time = s.time := rfl
@[simp] theorem modCore_stepNo (s : State) (f : Core → Core) : (s.modCore f).stepNo = s.stepNo := rfl
@[simp] theorem modCore_ctxs (s : State) (f : Core → Core) : (s.modCore f).ctxs = s.ctxs := rfl
@[simp] theorem modCore_dies (s : State) (f : Core → Core) : (s.modCore f).dies = s.dies := rfl
@[simp] theorem modCore_mem (s : State) (f : Core → Core) : (s.modCore f).mem = s.mem := rfl
@[simp] theorem modCore_ue (s : State) (f : Core → Core) : (s.modCore f).ue = s.ue := rfl
@[simp] theorem modCore_net (s : State) (f : Core → Core) : (s.modCore f).net = s.net := rfl
@[simp] theorem modCore_vers (s : State) (f : Core → Core) : (s.modCore f).vers = s.vers := rfl
@[simp] theorem modCore_copies (s : State) (f : Core → Core) : (s.modCore f).copies = s.copies := rfl
@[simp] theorem modCore_nextCopy (s : State) (f : Core → Core) : (s.modCore f).nextCopy = s.nextCopy := rfl
@[simp] theorem modCore_launches (s : State) (f : Core → Core) : (s.modCore f).launches = s.launches := rfl
@[simp] theorem modCore_nextLaunch (s : State) (f : Core → Core) : (s.modCore f).nextLaunch = s.nextLaunch := rfl
@[simp] theorem modCore_nextAct (s : State) (f : Core → Core) : (s.modCore f).nextAct = s.nextAct := rfl
@[simp] theorem modCore_saved (s : State) (f : Core → Core) : (s.modCore f).saved = s.saved := rfl
@[simp] theorem modCore_images (s : State) (f : Core → Core) : (s.modCore f).images = s.images := rfl
@[simp] theorem modCore_spads (s : State) (f : Core → Core) : (s.modCore f).spads = s.spads := rfl
@[simp] theorem modCore_sys (s : State) (f : Core → Core) : (s.modCore f).sys = s.sys := rfl

/-! ### modDieAt -/

@[simp] theorem modDieAt_agenda (s : State) (d : Nat) (f : Die → Die) : (s.modDieAt d f).agenda = s.agenda := rfl
@[simp] theorem modDieAt_pid (s : State) (d : Nat) (f : Die → Die) : (s.modDieAt d f).pid = s.pid := rfl
@[simp] theorem modDieAt_cx (s : State) (d : Nat) (f : Die → Die) : (s.modDieAt d f).cx = s.cx := rfl
@[simp] theorem modDieAt_time (s : State) (d : Nat) (f : Die → Die) : (s.modDieAt d f).time = s.time := rfl
@[simp] theorem modDieAt_stepNo (s : State) (d : Nat) (f : Die → Die) : (s.modDieAt d f).stepNo = s.stepNo := rfl
@[simp] theorem modDieAt_ctxs (s : State) (d : Nat) (f : Die → Die) : (s.modDieAt d f).ctxs = s.ctxs := rfl
@[simp] theorem modDieAt_cores (s : State) (d : Nat) (f : Die → Die) : (s.modDieAt d f).cores = s.cores := rfl
@[simp] theorem modDieAt_mem (s : State) (d : Nat) (f : Die → Die) : (s.modDieAt d f).mem = s.mem := rfl
@[simp] theorem modDieAt_ue (s : State) (d : Nat) (f : Die → Die) : (s.modDieAt d f).ue = s.ue := rfl
@[simp] theorem modDieAt_net (s : State) (d : Nat) (f : Die → Die) : (s.modDieAt d f).net = s.net := rfl
@[simp] theorem modDieAt_vers (s : State) (d : Nat) (f : Die → Die) : (s.modDieAt d f).vers = s.vers := rfl
@[simp] theorem modDieAt_copies (s : State) (d : Nat) (f : Die → Die) : (s.modDieAt d f).copies = s.copies := rfl
@[simp] theorem modDieAt_nextCopy (s : State) (d : Nat) (f : Die → Die) : (s.modDieAt d f).nextCopy = s.nextCopy := rfl
@[simp] theorem modDieAt_launches (s : State) (d : Nat) (f : Die → Die) : (s.modDieAt d f).launches = s.launches := rfl
@[simp] theorem modDieAt_nextLaunch (s : State) (d : Nat) (f : Die → Die) : (s.modDieAt d f).nextLaunch = s.nextLaunch := rfl
@[simp] theorem modDieAt_nextAct (s : State) (d : Nat) (f : Die → Die) : (s.modDieAt d f).nextAct = s.nextAct := rfl
@[simp] theorem modDieAt_saved (s : State) (d : Nat) (f : Die → Die) : (s.modDieAt d f).saved = s.saved := rfl
@[simp] theorem modDieAt_images (s : State) (d : Nat) (f : Die → Die) : (s.modDieAt d f).images = s.images := rfl
@[simp] theorem modDieAt_spads (s : State) (d : Nat) (f : Die → Die) : (s.modDieAt d f).spads = s.spads := rfl
@[simp] theorem modDieAt_sys (s : State) (d : Nat) (f : Die → Die) : (s.modDieAt d f).sys = s.sys := rfl

/-! ### modNet -/

@[simp] theorem modNet_agenda (s : State) (f : Net → Net) : (s.modNet f).agenda = s.agenda := rfl
@[simp] theorem modNet_pid (s : State) (f : Net → Net) : (s.modNet f).pid = s.pid := rfl
@[simp] theorem modNet_cx (s : State) (f : Net → Net) : (s.modNet f).cx = s.cx := rfl
@[simp] theorem modNet_time (s : State) (f : Net → Net) : (s.modNet f).time = s.time := rfl
@[simp] theorem modNet_stepNo (s : State) (f : Net → Net) : (s.modNet f).stepNo = s.stepNo := rfl
@[simp] theorem modNet_ctxs (s : State) (f : Net → Net) : (s.modNet f).ctxs = s.ctxs := rfl
@[simp] theorem modNet_cores (s : State) (f : Net → Net) : (s.modNet f).cores = s.cores := rfl
@[simp] theorem modNet_dies (s : State) (f : Net → Net) : (s.modNet f).dies = s.dies := rfl
@[simp] theorem modNet_mem (s : State) (f : Net → Net) : (s.modNet f).mem = s.mem := rfl
@[simp] theorem modNet_ue (s : State) (f : Net → Net) : (s.modNet f).ue = s.ue := rfl
@[simp] theorem modNet_vers (s : State) (f : Net → Net) : (s.modNet f).vers = s.vers := rfl
@[simp] theorem modNet_copies (s : State) (f : Net → Net) : (s.modNet f).copies = s.copies := rfl
@[simp] theorem modNet_nextCopy (s : State) (f : Net → Net) : (s.modNet f).nextCopy = s.nextCopy := rfl
@[simp] theorem modNet_launches (s : State) (f : Net → Net) : (s.modNet f).launches = s.launches := rfl
@[simp] theorem modNet_nextLaunch (s : State) (f : Net → Net) : (s.modNet f).nextLaunch = s.nextLaunch := rfl
@[simp] theorem modNet_nextAct (s : State) (f : Net → Net) : (s.modNet f).nextAct = s.nextAct := rfl
@[simp] theorem modNet_saved (s : State) (f : Net → Net) : (s.modNet f).saved = s.saved := rfl
@[simp] theorem modNet_images (s : State) (f : Net → Net) : (s.modNet f).images = s.images := rfl
@[simp] theorem modNet_spads (s : State) (f : Net → Net) : (s.modNet f).spads = s.spads := rfl
@[simp] theorem modNet_sys (s : State) (f : Net → Net) : (s.modNet f).sys = s.sys := rfl
@[simp] theorem modNet_net (s : State) (f : Net → Net) : (s.modNet f).net = f s.net := rfl

/-! ### modVers -/

@[simp] theorem modVers_agenda (s : State) (f : Vers → Vers) : (s.modVers f).agenda = s.agenda := rfl
@[simp] theorem modVers_pid (s : State) (f : Vers → Vers) : (s.modVers f).pid = s.pid := rfl
@[simp] theorem modVers_cx (s : State) (f : Vers → Vers) : (s.modVers f).cx = s.cx := rfl
@[simp] theorem modVers_time (s : State) (f : Vers → Vers) : (s.modVers f).time = s.time := rfl
@[simp] theorem modVers_stepNo (s : State) (f : Vers → Vers) : (s.modVers f).stepNo = s.stepNo := rfl
@[simp] theorem modVers_ctxs (s : State) (f : Vers → Vers) : (s.modVers f).ctxs = s.ctxs := rfl
@[simp] theorem modVers_cores (s : State) (f : Vers → Vers) : (s.modVers f).cores = s.cores := rfl
@[simp] theorem modVers_dies (s : State) (f : Vers → Vers) : (s.modVers f).dies = s.dies := rfl
@[simp] theorem modVers_mem (s : State) (f : Vers → Vers) : (s.modVers f).mem = s.mem := rfl
@[simp] theorem modVers_ue (s : State) (f : Vers → Vers) : (s.modVers f).ue = s.ue := rfl
@[simp] theorem modVers_net (s : State) (f : Vers → Vers) : (s.modVers f).net = s.net := rfl
@[simp] theorem modVers_copies (s : State) (f : Vers → Vers) : (s.modVers f).copies = s.copies := rfl
@[simp] theorem modVers_nextCopy (s : State) (f : Vers → Vers) : (s.modVers f).nextCopy = s.nextCopy := rfl
@[simp] theorem modVers_launches (s : State) (f : Vers → Vers) : (s.modVers f).launches = s.launches := rfl
@[simp] theorem modVers_nextLaunch (s : State) (f : Vers → Vers) : (s.modVers f).nextLaunch = s.nextLaunch := rfl
@[simp] theorem modVers_nextAct (s : State) (f : Vers → Vers) : (s.modVers f).nextAct = s.nextAct := rfl
@[simp] theorem modVers_saved (s : State) (f : Vers → Vers) : (s.modVers f).saved = s.saved := rfl
@[simp] theorem modVers_images (s : State) (f : Vers → Vers) : (s.modVers f).images = s.images := rfl
@[simp] theorem modVers_spads (s : State) (f : Vers → Vers) : (s.modVers f).spads = s.spads := rfl
@[simp] theorem modVers_sys (s : State) (f : Vers → Vers) : (s.modVers f).sys = s.sys := rfl
@[simp] theorem modVers_vers (s : State) (f : Vers → Vers) : (s.modVers f).vers = f s.vers := rfl

/-! ### modSys -/

@[simp] theorem modSys_agenda (s : State) (f : Sys → Sys) : (s.modSys f).agenda = s.agenda := rfl
@[simp] theorem modSys_pid (s : State) (f : Sys → Sys) : (s.modSys f).pid = s.pid := rfl
@[simp] theorem modSys_cx (s : State) (f : Sys → Sys) : (s.modSys f).cx = s.cx := rfl
@[simp] theorem modSys_time (s : State) (f : Sys → Sys) : (s.modSys f).time = s.time := rfl
@[simp] theorem modSys_stepNo (s : State) (f : Sys → Sys) : (s.modSys f).stepNo = s.stepNo := rfl
@[simp] theorem modSys_ctxs (s : State) (f : Sys → Sys) : (s.modSys f).ctxs = s.ctxs := rfl
@[simp] theorem modSys_cores (s : State) (f : Sys → Sys) : (s.modSys f).cores = s.cores := rfl
@[simp] theorem modSys_dies (s : State) (f : Sys → Sys) : (s.modSys f).dies = s.dies := rfl
@[simp] theorem modSys_mem (s : State) (f : Sys → Sys) : (s.modSys f).mem = s.mem := rfl
@[simp] theorem modSys_ue (s : State) (f : Sys → Sys) : (s.modSys f).ue = s.ue := rfl
@[simp] theorem modSys_net (s : State) (f : Sys → Sys) : (s.modSys f).net = s.net := rfl
@[simp] theorem modSys_vers (s : State) (f : Sys → Sys) : (s.modSys f).vers = s.vers := rfl
@[simp] theorem modSys_copies (s : State) (f : Sys → Sys) : (s.modSys f).copies = s.copies := rfl
@[simp] theorem modSys_nextCopy (s : State) (f : Sys → Sys) : (s.modSys f).nextCopy = s.nextCopy := rfl
@[simp] theorem modSys_launches (s : State) (f : Sys → Sys) : (s.modSys f).launches = s.launches := rfl
@[simp] theorem modSys_nextLaunch (s : State) (f : Sys → Sys) : (s.modSys f).nextLaunch = s.nextLaunch := rfl
@[simp] theorem modSys_nextAct (s : State) (f : Sys → Sys) : (s.modSys f).nextAct = s.nextAct := rfl
@[simp] theorem modSys_saved (s : State) (f : Sys → Sys) : (s.modSys f).saved = s.saved := rfl
@[simp] theorem modSys_images (s : State) (f : Sys → Sys) : (s.modSys f).images = s.images := rfl
@[simp] theorem modSys_spads (s : State) (f : Sys → Sys) : (s.modSys f).spads = s.spads := rfl
@[simp] theorem modSys_sys (s : State) (f : Sys → Sys) : (s.modSys f).sys = f s.sys := rfl

/-! ### modLaunch -/

@[simp] theorem modLaunch_agenda (s : State) (n : Nat) (f : Launch → Launch) : (s.modLaunch n f).agenda = s.agenda := rfl
@[simp] theorem modLaunch_pid (s : State) (n : Nat) (f : Launch → Launch) : (s.modLaunch n f).pid = s.pid := rfl
@[simp] theorem modLaunch_cx (s : State) (n : Nat) (f : Launch → Launch) : (s.modLaunch n f).cx = s.cx := rfl
@[simp] theorem modLaunch_time (s : State) (n : Nat) (f : Launch → Launch) : (s.modLaunch n f).time = s.time := rfl
@[simp] theorem modLaunch_stepNo (s : State) (n : Nat) (f : Launch → Launch) : (s.modLaunch n f).stepNo = s.stepNo := rfl
@[simp] theorem modLaunch_ctxs (s : State) (n : Nat) (f : Launch → Launch) : (s.modLaunch n f).ctxs = s.ctxs := rfl
@[simp] theorem modLaunch_cores (s : State) (n : Nat) (f : Launch → Launch) : (s.modLaunch n f).cores = s.cores := rfl
@[simp] theorem modLaunch_dies (s : State) (n : Nat) (f : Launch → Launch) : (s.modLaunch n f).dies = s.dies := rfl
@[simp] theorem modLaunch_mem (s : State) (n : Nat) (f : Launch → Launch) : (s.modLaunch n f).mem = s.mem := rfl
@[simp] theorem modLaunch_ue (s : State) (n : Nat) (f : Launch → Launch) : (s.modLaunch n f).ue = s.ue := rfl
@[simp] theorem modLaunch_net (s : State) (n : Nat) (f : Launch → Launch) : (s.modLaunch n f).net = s.net := rfl
@[simp] theorem modLaunch_vers (s : State) (n : Nat) (f : Launch → Launch) : (s.modLaunch n f).vers = s.vers := rfl
@[simp] theorem modLaunch_copies (s : State) (n : Nat) (f : Launch → Launch) : (s.modLaunch n f).copies = s.copies := rfl
@[simp] theorem modLaunch_nextCopy (s : State) (n : Nat) (f : Launch → Launch) : (s.modLaunch n f).nextCopy = s.nextCopy := rfl
@[simp] theorem modLaunch_nextLaunch (s : State) (n : Nat) (f : Launch → Launch) : (s.modLaunch n f).nextLaunch = s.nextLaunch := rfl
@[simp] theorem modLaunch_nextAct (s : State) (n : Nat) (f : Launch → Launch) : (s.modLaunch n f).nextAct = s.nextAct := rfl
@[simp] theorem modLaunch_saved (s : State) (n : Nat) (f : Launch → Launch) : (s.modLaunch n f).saved = s.saved := rfl
@[simp] theorem modLaunch_images (s : State) (n : Nat) (f : Launch → Launch) : (s.modLaunch n f).images = s.images := rfl
@[simp] theorem modLaunch_spads (s : State) (n : Nat) (f : Launch → Launch) : (s.modLaunch n f).spads = s.spads := rfl
@[simp] theorem modLaunch_sys (s : State) (n : Nat) (f : Launch → Launch) : (s.modLaunch n f).sys = s.sys := rfl

/-! ### modPort -/

@[simp] theorem modPort_agenda (s : State) (n : Nat) (f : Port → Port) : (s.modPort n f).agenda = s.agenda := rfl
@[simp] theorem modPort_pid (s : State) (n : Nat) (f : Port → Port) : (s.modPort n f).pid = s.pid := rfl
@[simp] theorem modPort_cx (s : State) (n : Nat) (f : Port → Port) : (s.modPort n f).cx = s.cx := rfl
@[simp] theorem modPort_time (s : State) (n : Nat) (f : Port → Port) : (s.modPort n f).time = s.time := rfl
@[simp] theorem modPort_stepNo (s : State) (n : Nat) (f : Port → Port) : (s.modPort n f).stepNo = s.stepNo := rfl
@[simp] theorem modPort_ctxs (s : State) (n : Nat) (f : Port → Port) : (s.modPort n f).ctxs = s.ctxs := rfl
@[simp] theorem modPort_cores (s : State) (n : Nat) (f : Port → Port) : (s.modPort n f).cores = s.cores := rfl
@[simp] theorem modPort_dies (s : State) (n : Nat) (f : Port → Port) : (s.modPort n f).dies = s.dies := rfl
@[simp] theorem modPort_mem (s : State) (n : Nat) (f : Port → Port) : (s.modPort n f).mem = s.mem := rfl
@[simp] theorem modPort_ue (s : State) (n : Nat) (f : Port → Port) : (s.modPort n f).ue = s.ue := rfl
@[simp] theorem modPort_net (s : State) (n : Nat) (f : Port → Port) : (s.modPort n f).net = s.net := rfl
@[simp] theorem modPort_vers (s : State) (n : Nat) (f : Port → Port) : (s.modPort n f).vers = s.vers := rfl
@[simp] theorem modPort_copies (s : State) (n : Nat) (f : Port → Port) : (s.modPort n f).copies = s.copies := rfl
@[simp] theorem modPort_nextCopy (s : State) (n : Nat) (f : Port → Port) : (s.modPort n f).nextCopy = s.nextCopy := rfl
@[simp] theorem modPort_launches (s : State) (n : Nat) (f : Port → Port) : (s.modPort n f).launches = s.launches := rfl
@[simp] theorem modPort_nextLaunch (s : State) (n : Nat) (f : Port → Port) : (s.modPort n f).nextLaunch = s.nextLaunch := rfl
@[simp] theorem modPort_nextAct (s : State) (n : Nat) (f : Port → Port) : (s.modPort n f).nextAct = s.nextAct := rfl
@[simp] theorem modPort_saved (s : State) (n : Nat) (f : Port → Port) : (s.modPort n f).saved = s.saved := rfl
@[simp] theorem modPort_images (s : State) (n : Nat) (f : Port → Port) : (s.modPort n f).images = s.images := rfl
@[simp] theorem modPort_spads (s : State) (n : Nat) (f : Port → Port) : (s.modPort n f).spads = s.spads := rfl

/-! ### modSaved -/

@[simp] theorem modSaved_agenda (s : State) (n : Nat) (f : Ctx → Ctx) : (s.modSaved n f).agenda = s.agenda := rfl
@[simp] theorem modSaved_pid (s : State) (n : Nat) (f : Ctx → Ctx) : (s.modSaved n f).pid = s.pid := rfl
@[simp] theorem modSaved_cx (s : State) (n : Nat) (f : Ctx → Ctx) : (s.modSaved n f).cx = s.cx := rfl
@[simp] theorem modSaved_time (s : State) (n : Nat) (f : Ctx → Ctx) : (s.modSaved n f).time = s.time := rfl
@[simp] theorem modSaved_stepNo (s : State) (n : Nat) (f : Ctx → Ctx) : (s.modSaved n f).stepNo = s.stepNo := rfl
@[simp] theorem modSaved_ctxs (s : State) (n : Nat) (f : Ctx → Ctx) : (s.modSaved n f).ctxs = s.ctxs := rfl
@[simp] theorem modSaved_cores (s : State) (n : Nat) (f : Ctx → Ctx) : (s.modSaved n f).cores = s.cores := rfl
@[simp] theorem modSaved_dies (s : State) (n : Nat) (f : Ctx → Ctx) : (s.modSaved n f).dies = s.dies := rfl
@[simp] theorem modSaved_mem (s : State) (n : Nat) (f : Ctx → Ctx) : (s.modSaved n f).mem = s.mem := rfl
@[simp] theorem modSaved_ue (s : State) (n : Nat) (f : Ctx → Ctx) : (s.modSaved n f).ue = s.ue := rfl
@[simp] theorem modSaved_net (s : State) (n : Nat) (f : Ctx → Ctx) : (s.modSaved n f).net = s.net := rfl
@[simp] theorem modSaved_vers (s : State) (n : Nat) (f : Ctx → Ctx) : (s.modSaved n f).vers = s.vers := rfl
@[simp] theorem modSaved_copies (s : State) (n : Nat) (f : Ctx → Ctx) : (s.modSaved n f).copies = s.copies := rfl
@[simp] theorem modSaved_nextCopy (s : State) (n : Nat) (f : Ctx → Ctx) : (s.modSaved n f).nextCopy = s.nextCopy := rfl
@[simp] theorem modSaved_launches (s : State) (n : Nat) (f : Ctx → Ctx) : (s.modSaved n f).launches = s.launches := rfl
@[simp] theorem modSaved_nextLaunch (s : State) (n : Nat) (f : Ctx → Ctx) : (s.modSaved n f).nextLaunch = s.nextLaunch := rfl
@[simp] theorem modSaved_nextAct (s : State) (n : Nat) (f : Ctx → Ctx) : (s.modSaved n f).nextAct = s.nextAct := rfl
@[simp] theorem modSaved_images (s : State) (n : Nat) (f : Ctx → Ctx) : (s.modSaved n f).images = s.images := rfl
@[simp] theorem modSaved_spads (s : State) (n : Nat) (f : Ctx → Ctx) : (s.modSaved n f).spads = s.spads := rfl
@[simp] theorem modSaved_sys (s : State) (n : Nat) (f : Ctx → Ctx) : (s.modSaved n f).sys = s.sys := rfl

/-! ### wr -/

@[simp] theorem wr_agenda (s : State) (k : Nat) (b : List Byte) : (s.wr k b).agenda = s.agenda := rfl
@[simp] theorem wr_pid (s : State) (k : Nat) (b : List Byte) : (s.wr k b).pid = s.pid := rfl
@[simp] theorem wr_cx (s : State) (k : Nat) (b : List Byte) : (s.wr k b).cx = s.cx := rfl
@[simp] theorem wr_time (s : State) (k : Nat) (b : List Byte) : (s.wr k b).time = s.time := rfl
@[simp] theorem wr_stepNo (s : State) (k : Nat) (b : List Byte) : (s.wr k b).stepNo = s.stepNo := rfl
@[simp] theorem wr_ctxs (s : State) (k : Nat) (b : List Byte) : (s.wr k b).ctxs = s.ctxs := rfl
@[simp] theorem wr_cores (s : State) (k : Nat) (b : List Byte) : (s.wr k b).cores = s.cores := rfl
@[simp] theorem wr_dies (s : State) (k : Nat) (b : List Byte) : (s.wr k b).dies = s.dies := rfl
@[simp] theorem wr_vers (s : State) (k : Nat) (b : List Byte) : (s.wr k b).vers = s.vers := rfl
@[simp] theorem wr_copies (s : State) (k : Nat) (b : List Byte) : (s.wr k b).copies = s.copies := rfl
@[simp] theorem wr_nextCopy (s : State) (k : Nat) (b : List Byte) : (s.wr k b).nextCopy = s.nextCopy := rfl
@[simp] theorem wr_launches (s : State) (k : Nat) (b : List Byte) : (s.wr k b).launches = s.launches := rfl
@[simp] theorem wr_nextLaunch (s : State) (k : Nat) (b : List Byte) : (s.wr k b).nextLaunch = s.nextLaunch := rfl
@[simp] theorem wr_nextAct (s : State) (k : Nat) (b : List Byte) : (s.wr k b).nextAct = s.nextAct := rfl
@[simp] theorem wr_saved (s : State) (k : Nat) (b : List Byte) : (s.wr k b).saved = s.saved := rfl
@[simp] theorem wr_images (s : State) (k : Nat) (b : List Byte) : (s.wr k b).images = s.images := rfl
@[simp] theorem wr_spads (s : State) (k : Nat) (b : List Byte) : (s.wr k b).spads = s.spads := rfl
@[simp] theorem wr_sys (s : State) (k : Nat) (b : List Byte) : (s.wr k b).sys = s.sys := rfl
@[simp] theorem ctxAt_wr (s : State) (k : Nat) (b : List Byte) (q y : Nat) : (s.wr k b).ctxAt q y = s.ctxAt q y := rfl
@[simp] theorem coreAt_wr (s : State) (k : Nat) (b : List Byte) (q : Nat) : (s.wr k b).coreAt q = s.coreAt q := rfl
@[simp] theorem wr_mem (s : State) (k : Nat) (b : List Byte) : (s.wr k b).mem = Memory.wrs s.mem k b := rfl

/-! ### wrW -/

@[simp] theorem wrW_agenda (s : State) (k : Nat) (w : Word) : (s.wrW k w).agenda = s.agenda := rfl
@[simp] theorem wrW_pid (s : State) (k : Nat) (w : Word) : (s.wrW k w).pid = s.pid := rfl
@[simp] theorem wrW_cx (s : State) (k : Nat) (w : Word) : (s.wrW k w).cx = s.cx := rfl
@[simp] theorem wrW_time (s : State) (k : Nat) (w : Word) : (s.wrW k w).time = s.time := rfl
@[simp] theorem wrW_stepNo (s : State) (k : Nat) (w : Word) : (s.wrW k w).stepNo = s.stepNo := rfl
@[simp] theorem wrW_ctxs (s : State) (k : Nat) (w : Word) : (s.wrW k w).ctxs = s.ctxs := rfl
@[simp] theorem wrW_cores (s : State) (k : Nat) (w : Word) : (s.wrW k w).cores = s.cores := rfl
@[simp] theorem wrW_dies (s : State) (k : Nat) (w : Word) : (s.wrW k w).dies = s.dies := rfl
@[simp] theorem wrW_vers (s : State) (k : Nat) (w : Word) : (s.wrW k w).vers = s.vers := rfl
@[simp] theorem wrW_copies (s : State) (k : Nat) (w : Word) : (s.wrW k w).copies = s.copies := rfl
@[simp] theorem wrW_nextCopy (s : State) (k : Nat) (w : Word) : (s.wrW k w).nextCopy = s.nextCopy := rfl
@[simp] theorem wrW_launches (s : State) (k : Nat) (w : Word) : (s.wrW k w).launches = s.launches := rfl
@[simp] theorem wrW_nextLaunch (s : State) (k : Nat) (w : Word) : (s.wrW k w).nextLaunch = s.nextLaunch := rfl
@[simp] theorem wrW_nextAct (s : State) (k : Nat) (w : Word) : (s.wrW k w).nextAct = s.nextAct := rfl
@[simp] theorem wrW_saved (s : State) (k : Nat) (w : Word) : (s.wrW k w).saved = s.saved := rfl
@[simp] theorem wrW_images (s : State) (k : Nat) (w : Word) : (s.wrW k w).images = s.images := rfl
@[simp] theorem wrW_spads (s : State) (k : Nat) (w : Word) : (s.wrW k w).spads = s.spads := rfl
@[simp] theorem wrW_sys (s : State) (k : Nat) (w : Word) : (s.wrW k w).sys = s.sys := rfl
@[simp] theorem ctxAt_wrW (s : State) (k : Nat) (w : Word) (q y : Nat) : (s.wrW k w).ctxAt q y = s.ctxAt q y := rfl
@[simp] theorem coreAt_wrW (s : State) (k : Nat) (w : Word) (q : Nat) : (s.wrW k w).coreAt q = s.coreAt q := rfl
@[simp] theorem ctx_wrW (s : State) (k : Nat) (w : Word) : (s.wrW k w).ctx = s.ctx := rfl

/-! ### setRec -/

@[simp] theorem setRec_agenda (s : State) (p o : Nat) (r : CRec) : (s.setRec p o r).agenda = s.agenda := rfl
@[simp] theorem setRec_pid (s : State) (p o : Nat) (r : CRec) : (s.setRec p o r).pid = s.pid := rfl
@[simp] theorem setRec_cx (s : State) (p o : Nat) (r : CRec) : (s.setRec p o r).cx = s.cx := rfl
@[simp] theorem setRec_time (s : State) (p o : Nat) (r : CRec) : (s.setRec p o r).time = s.time := rfl
@[simp] theorem setRec_stepNo (s : State) (p o : Nat) (r : CRec) : (s.setRec p o r).stepNo = s.stepNo := rfl
@[simp] theorem setRec_ctxs (s : State) (p o : Nat) (r : CRec) : (s.setRec p o r).ctxs = s.ctxs := rfl
@[simp] theorem setRec_cores (s : State) (p o : Nat) (r : CRec) : (s.setRec p o r).cores = s.cores := rfl
@[simp] theorem setRec_dies (s : State) (p o : Nat) (r : CRec) : (s.setRec p o r).dies = s.dies := rfl
@[simp] theorem setRec_vers (s : State) (p o : Nat) (r : CRec) : (s.setRec p o r).vers = s.vers := rfl
@[simp] theorem setRec_copies (s : State) (p o : Nat) (r : CRec) : (s.setRec p o r).copies = s.copies := rfl
@[simp] theorem setRec_nextCopy (s : State) (p o : Nat) (r : CRec) : (s.setRec p o r).nextCopy = s.nextCopy := rfl
@[simp] theorem setRec_launches (s : State) (p o : Nat) (r : CRec) : (s.setRec p o r).launches = s.launches := rfl
@[simp] theorem setRec_nextLaunch (s : State) (p o : Nat) (r : CRec) : (s.setRec p o r).nextLaunch = s.nextLaunch := rfl
@[simp] theorem setRec_nextAct (s : State) (p o : Nat) (r : CRec) : (s.setRec p o r).nextAct = s.nextAct := rfl
@[simp] theorem setRec_saved (s : State) (p o : Nat) (r : CRec) : (s.setRec p o r).saved = s.saved := rfl
@[simp] theorem setRec_images (s : State) (p o : Nat) (r : CRec) : (s.setRec p o r).images = s.images := rfl
@[simp] theorem setRec_spads (s : State) (p o : Nat) (r : CRec) : (s.setRec p o r).spads = s.spads := rfl
@[simp] theorem setRec_sys (s : State) (p o : Nat) (r : CRec) : (s.setRec p o r).sys = s.sys := rfl
@[simp] theorem ctxAt_setRec (s : State) (p o : Nat) (r : CRec) (q y : Nat) : (s.setRec p o r).ctxAt q y = s.ctxAt q y := rfl
@[simp] theorem coreAt_setRec (s : State) (p o : Nat) (r : CRec) (q : Nat) : (s.setRec p o r).coreAt q = s.coreAt q := rfl
@[simp] theorem ctx_setRec (s : State) (p o : Nat) (r : CRec) : (s.setRec p o r).ctx = s.ctx := rfl

/-! ### bumpGen -/

@[simp] theorem bumpGen_agenda (s : State) (p o : Nat) : (s.bumpGen p o).agenda = s.agenda := rfl
@[simp] theorem bumpGen_pid (s : State) (p o : Nat) : (s.bumpGen p o).pid = s.pid := rfl
@[simp] theorem bumpGen_cx (s : State) (p o : Nat) : (s.bumpGen p o).cx = s.cx := rfl
@[simp] theorem bumpGen_time (s : State) (p o : Nat) : (s.bumpGen p o).time = s.time := rfl
@[simp] theorem bumpGen_stepNo (s : State) (p o : Nat) : (s.bumpGen p o).stepNo = s.stepNo := rfl
@[simp] theorem bumpGen_ctxs (s : State) (p o : Nat) : (s.bumpGen p o).ctxs = s.ctxs := rfl
@[simp] theorem bumpGen_cores (s : State) (p o : Nat) : (s.bumpGen p o).cores = s.cores := rfl
@[simp] theorem bumpGen_dies (s : State) (p o : Nat) : (s.bumpGen p o).dies = s.dies := rfl
@[simp] theorem bumpGen_vers (s : State) (p o : Nat) : (s.bumpGen p o).vers = s.vers := rfl
@[simp] theorem bumpGen_copies (s : State) (p o : Nat) : (s.bumpGen p o).copies = s.copies := rfl
@[simp] theorem bumpGen_nextCopy (s : State) (p o : Nat) : (s.bumpGen p o).nextCopy = s.nextCopy := rfl
@[simp] theorem bumpGen_launches (s : State) (p o : Nat) : (s.bumpGen p o).launches = s.launches := rfl
@[simp] theorem bumpGen_nextLaunch (s : State) (p o : Nat) : (s.bumpGen p o).nextLaunch = s.nextLaunch := rfl
@[simp] theorem bumpGen_nextAct (s : State) (p o : Nat) : (s.bumpGen p o).nextAct = s.nextAct := rfl
@[simp] theorem bumpGen_saved (s : State) (p o : Nat) : (s.bumpGen p o).saved = s.saved := rfl
@[simp] theorem bumpGen_images (s : State) (p o : Nat) : (s.bumpGen p o).images = s.images := rfl
@[simp] theorem bumpGen_spads (s : State) (p o : Nat) : (s.bumpGen p o).spads = s.spads := rfl
@[simp] theorem bumpGen_sys (s : State) (p o : Nat) : (s.bumpGen p o).sys = s.sys := rfl
@[simp] theorem ctxAt_bumpGen (s : State) (p o : Nat) (q y : Nat) : (s.bumpGen p o).ctxAt q y = s.ctxAt q y := rfl
@[simp] theorem coreAt_bumpGen (s : State) (p o : Nat) (q : Nat) : (s.bumpGen p o).coreAt q = s.coreAt q := rfl
@[simp] theorem ctx_bumpGen (s : State) (p o : Nat) : (s.bumpGen p o).ctx = s.ctx := rfl

/-! ### setBusy -/

@[simp] theorem setBusy_agenda (s : State) (p o : Nat) (b : Bool) : (s.setBusy p o b).agenda = s.agenda := rfl
@[simp] theorem setBusy_pid (s : State) (p o : Nat) (b : Bool) : (s.setBusy p o b).pid = s.pid := rfl
@[simp] theorem setBusy_cx (s : State) (p o : Nat) (b : Bool) : (s.setBusy p o b).cx = s.cx := rfl
@[simp] theorem setBusy_time (s : State) (p o : Nat) (b : Bool) : (s.setBusy p o b).time = s.time := rfl
@[simp] theorem setBusy_stepNo (s : State) (p o : Nat) (b : Bool) : (s.setBusy p o b).stepNo = s.stepNo := rfl
@[simp] theorem setBusy_ctxs (s : State) (p o : Nat) (b : Bool) : (s.setBusy p o b).ctxs = s.ctxs := rfl
@[simp] theorem setBusy_cores (s : State) (p o : Nat) (b : Bool) : (s.setBusy p o b).cores = s.cores := rfl
@[simp] theorem setBusy_dies (s : State) (p o : Nat) (b : Bool) : (s.setBusy p o b).dies = s.dies := rfl
@[simp] theorem setBusy_vers (s : State) (p o : Nat) (b : Bool) : (s.setBusy p o b).vers = s.vers := rfl
@[simp] theorem setBusy_copies (s : State) (p o : Nat) (b : Bool) : (s.setBusy p o b).copies = s.copies := rfl
@[simp] theorem setBusy_nextCopy (s : State) (p o : Nat) (b : Bool) : (s.setBusy p o b).nextCopy = s.nextCopy := rfl
@[simp] theorem setBusy_launches (s : State) (p o : Nat) (b : Bool) : (s.setBusy p o b).launches = s.launches := rfl
@[simp] theorem setBusy_nextLaunch (s : State) (p o : Nat) (b : Bool) : (s.setBusy p o b).nextLaunch = s.nextLaunch := rfl
@[simp] theorem setBusy_nextAct (s : State) (p o : Nat) (b : Bool) : (s.setBusy p o b).nextAct = s.nextAct := rfl
@[simp] theorem setBusy_saved (s : State) (p o : Nat) (b : Bool) : (s.setBusy p o b).saved = s.saved := rfl
@[simp] theorem setBusy_images (s : State) (p o : Nat) (b : Bool) : (s.setBusy p o b).images = s.images := rfl
@[simp] theorem setBusy_spads (s : State) (p o : Nat) (b : Bool) : (s.setBusy p o b).spads = s.spads := rfl
@[simp] theorem setBusy_sys (s : State) (p o : Nat) (b : Bool) : (s.setBusy p o b).sys = s.sys := rfl
@[simp] theorem ctxAt_setBusy (s : State) (p o : Nat) (b : Bool) (q y : Nat) : (s.setBusy p o b).ctxAt q y = s.ctxAt q y := rfl
@[simp] theorem coreAt_setBusy (s : State) (p o : Nat) (b : Bool) (q : Nat) : (s.setBusy p o b).coreAt q = s.coreAt q := rfl
@[simp] theorem ctx_setBusy (s : State) (p o : Nat) (b : Bool) : (s.setBusy p o b).ctx = s.ctx := rfl

/-! ### killRec -/

@[simp] theorem killRec_agenda (s : State) (p o : Nat) : (s.killRec p o).agenda = s.agenda := rfl
@[simp] theorem killRec_pid (s : State) (p o : Nat) : (s.killRec p o).pid = s.pid := rfl
@[simp] theorem killRec_cx (s : State) (p o : Nat) : (s.killRec p o).cx = s.cx := rfl
@[simp] theorem killRec_time (s : State) (p o : Nat) : (s.killRec p o).time = s.time := rfl
@[simp] theorem killRec_stepNo (s : State) (p o : Nat) : (s.killRec p o).stepNo = s.stepNo := rfl
@[simp] theorem killRec_ctxs (s : State) (p o : Nat) : (s.killRec p o).ctxs = s.ctxs := rfl
@[simp] theorem killRec_cores (s : State) (p o : Nat) : (s.killRec p o).cores = s.cores := rfl
@[simp] theorem killRec_dies (s : State) (p o : Nat) : (s.killRec p o).dies = s.dies := rfl
@[simp] theorem killRec_vers (s : State) (p o : Nat) : (s.killRec p o).vers = s.vers := rfl
@[simp] theorem killRec_copies (s : State) (p o : Nat) : (s.killRec p o).copies = s.copies := rfl
@[simp] theorem killRec_nextCopy (s : State) (p o : Nat) : (s.killRec p o).nextCopy = s.nextCopy := rfl
@[simp] theorem killRec_launches (s : State) (p o : Nat) : (s.killRec p o).launches = s.launches := rfl
@[simp] theorem killRec_nextLaunch (s : State) (p o : Nat) : (s.killRec p o).nextLaunch = s.nextLaunch := rfl
@[simp] theorem killRec_nextAct (s : State) (p o : Nat) : (s.killRec p o).nextAct = s.nextAct := rfl
@[simp] theorem killRec_saved (s : State) (p o : Nat) : (s.killRec p o).saved = s.saved := rfl
@[simp] theorem killRec_images (s : State) (p o : Nat) : (s.killRec p o).images = s.images := rfl
@[simp] theorem killRec_spads (s : State) (p o : Nat) : (s.killRec p o).spads = s.spads := rfl
@[simp] theorem killRec_sys (s : State) (p o : Nat) : (s.killRec p o).sys = s.sys := rfl
@[simp] theorem ctxAt_killRec (s : State) (p o : Nat) (q y : Nat) : (s.killRec p o).ctxAt q y = s.ctxAt q y := rfl
@[simp] theorem coreAt_killRec (s : State) (p o : Nat) (q : Nat) : (s.killRec p o).coreAt q = s.coreAt q := rfl
@[simp] theorem ctx_killRec (s : State) (p o : Nat) : (s.killRec p o).ctx = s.ctx := rfl

/-! ### setSp -/

@[simp] theorem setSp_agenda (s : State) (p o n v : Nat) : (s.setSp p o n v).agenda = s.agenda := rfl
@[simp] theorem setSp_pid (s : State) (p o n v : Nat) : (s.setSp p o n v).pid = s.pid := rfl
@[simp] theorem setSp_cx (s : State) (p o n v : Nat) : (s.setSp p o n v).cx = s.cx := rfl
@[simp] theorem setSp_time (s : State) (p o n v : Nat) : (s.setSp p o n v).time = s.time := rfl
@[simp] theorem setSp_stepNo (s : State) (p o n v : Nat) : (s.setSp p o n v).stepNo = s.stepNo := rfl
@[simp] theorem setSp_ctxs (s : State) (p o n v : Nat) : (s.setSp p o n v).ctxs = s.ctxs := rfl
@[simp] theorem setSp_cores (s : State) (p o n v : Nat) : (s.setSp p o n v).cores = s.cores := rfl
@[simp] theorem setSp_dies (s : State) (p o n v : Nat) : (s.setSp p o n v).dies = s.dies := rfl
@[simp] theorem setSp_vers (s : State) (p o n v : Nat) : (s.setSp p o n v).vers = s.vers := rfl
@[simp] theorem setSp_copies (s : State) (p o n v : Nat) : (s.setSp p o n v).copies = s.copies := rfl
@[simp] theorem setSp_nextCopy (s : State) (p o n v : Nat) : (s.setSp p o n v).nextCopy = s.nextCopy := rfl
@[simp] theorem setSp_launches (s : State) (p o n v : Nat) : (s.setSp p o n v).launches = s.launches := rfl
@[simp] theorem setSp_nextLaunch (s : State) (p o n v : Nat) : (s.setSp p o n v).nextLaunch = s.nextLaunch := rfl
@[simp] theorem setSp_nextAct (s : State) (p o n v : Nat) : (s.setSp p o n v).nextAct = s.nextAct := rfl
@[simp] theorem setSp_saved (s : State) (p o n v : Nat) : (s.setSp p o n v).saved = s.saved := rfl
@[simp] theorem setSp_images (s : State) (p o n v : Nat) : (s.setSp p o n v).images = s.images := rfl
@[simp] theorem setSp_spads (s : State) (p o n v : Nat) : (s.setSp p o n v).spads = s.spads := rfl
@[simp] theorem setSp_sys (s : State) (p o n v : Nat) : (s.setSp p o n v).sys = s.sys := rfl
@[simp] theorem ctxAt_setSp (s : State) (p o n v : Nat) (q y : Nat) : (s.setSp p o n v).ctxAt q y = s.ctxAt q y := rfl
@[simp] theorem coreAt_setSp (s : State) (p o n v : Nat) (q : Nat) : (s.setSp p o n v).coreAt q = s.coreAt q := rfl
@[simp] theorem ctx_setSp (s : State) (p o n v : Nat) : (s.setSp p o n v).ctx = s.ctx := rfl

/-! ### Reading back -/

theorem ctxKey_inj {p q x y : Nat} (hx : x < 8) (hy : y < 8) (h : ctxKey p x = ctxKey q y) : p = q ∧ x = y := by
  unfold ctxKey at h; omega

@[simp] theorem ctxAt_setCtxAt (s : State) (p x : Nat) (c : Ctx) : (s.setCtxAt p x c).ctxAt p x = c := by
  simp [ctxAt, setCtxAt]
@[simp] theorem ctxAt_modCtxAt (s : State) (p x : Nat) (f : Ctx → Ctx) : (s.modCtxAt p x f).ctxAt p x = f (s.ctxAt p x) := by
  simp [modCtxAt]
@[simp] theorem ctx_setCtx (s : State) (c : Ctx) : (s.setCtx c).ctx = c := by simp [ctx, setCtx]
@[simp] theorem ctx_modCtx (s : State) (f : Ctx → Ctx) : (s.modCtx f).ctx = f s.ctx := by simp [ctx, modCtx]
theorem ctxAt_setCtxAt_ne (s : State) {p x q y : Nat} (c : Ctx) (h : ctxKey q y ≠ ctxKey p x) :
    (s.setCtxAt p x c).ctxAt q y = s.ctxAt q y := by
  simp [ctxAt, setCtxAt, Tab.get_set_ne _ _ _ h]
theorem ctxAt_modCtxAt_ne (s : State) {p x q y : Nat} (f : Ctx → Ctx) (h : ctxKey q y ≠ ctxKey p x) :
    (s.modCtxAt p x f).ctxAt q y = s.ctxAt q y := ctxAt_setCtxAt_ne s _ h
theorem setCtxAt_setCtxAt (s : State) (p x : Nat) (c d : Ctx) : (s.setCtxAt p x c).setCtxAt p x d = s.setCtxAt p x d := by
  simp [setCtxAt]
@[simp] theorem modCtxAt_modCtxAt (s : State) (p x : Nat) (f g : Ctx → Ctx) :
    (s.modCtxAt p x f).modCtxAt p x g = s.modCtxAt p x (fun c => g (f c)) := by
  simp [modCtxAt, setCtxAt_setCtxAt]
@[simp] theorem modCtx_modCtx (s : State) (f g : Ctx → Ctx) : (s.modCtx f).modCtx g = s.modCtx (fun c => g (f c)) := by
  show ((s.modCtxAt s.pid s.cx f).modCtxAt s.pid s.cx g) = _
  rw [modCtxAt_modCtxAt]; rfl
@[simp] theorem ctx_modCore (s : State) (f : Core → Core) : (s.modCore f).ctx = s.ctx := rfl
@[simp] theorem ctx_modNet (s : State) (f : Net → Net) : (s.modNet f).ctx = s.ctx := rfl
@[simp] theorem ctx_wr (s : State) (k : Nat) (b : List Byte) : (s.wr k b).ctx = s.ctx := rfl
@[simp] theorem core_modCtx (s : State) (f : Ctx → Ctx) : (s.modCtx f).core = s.core := rfl
@[simp] theorem coreAt_setCoreAt (s : State) (p : Nat) (k : Core) : (s.setCoreAt p k).coreAt p = k := by simp [coreAt, setCoreAt]
@[simp] theorem coreAt_modCoreAt (s : State) (p : Nat) (f : Core → Core) : (s.modCoreAt p f).coreAt p = f (s.coreAt p) := by
  simp [modCoreAt]
@[simp] theorem core_modCore (s : State) (f : Core → Core) : (s.modCore f).core = f s.core := by simp [core, modCore]
theorem coreAt_setCoreAt_ne (s : State) {p q : Nat} (k : Core) (h : q ≠ p) : (s.setCoreAt p k).coreAt q = s.coreAt q := by
  simp [coreAt, setCoreAt, Tab.get_set_ne _ _ _ h]
@[simp] theorem ctxAt_setCoreAt (s : State) (p q x : Nat) (k : Core) : (s.setCoreAt p k).ctxAt q x = s.ctxAt q x := rfl
@[simp] theorem ctxAt_modCoreAt (s : State) (p q x : Nat) (f : Core → Core) : (s.modCoreAt p f).ctxAt q x = s.ctxAt q x := rfl
@[simp] theorem coreAt_setCtxAt (s : State) (p q x : Nat) (c : Ctx) : (s.setCtxAt p x c).coreAt q = s.coreAt q := rfl
@[simp] theorem coreAt_modCtxAt (s : State) (p q x : Nat) (f : Ctx → Ctx) : (s.modCtxAt p x f).coreAt q = s.coreAt q := rfl
@[simp] theorem coreAt_modCtx (s : State) (q : Nat) (f : Ctx → Ctx) : (s.modCtx f).coreAt q = s.coreAt q := rfl
@[simp] theorem rd_modCtx (s : State) (k n : Nat) (f : Ctx → Ctx) : (s.modCtx f).rd k n = s.rd k n := rfl

/-- An update of the executing context depends only on what it makes of that context. -/
theorem modCtx_congr {s : State} {f g : Ctx → Ctx} (h : f s.ctx = g s.ctx) : s.modCtx f = s.modCtx g := by
  show s.setCtxAt s.pid s.cx (f s.ctx) = s.setCtxAt s.pid s.cx (g s.ctx)
  rw [h]

/-- Writing no byte changes nothing. -/
@[simp] theorem wr_nil (s : State) (k : Nat) : s.wr k [] = s := by
  have h1 : (if s.ue.isEmpty then [] else s.ue.filter (fun l => !(decide (k ≤ l) && decide (l + 64 ≤ k + ([] : List Byte).length)))) = s.ue := by
    split
    · rename_i h; exact (List.isEmpty_iff.1 h).symm
    · rw [List.filter_eq_self]
      intro l _
      simp; omega
  have h2 : State.linesOf k ([] : List Byte).length = [] := rfl
  unfold State.wr
  simp only [h1, h2, List.filter_nil, List.append_nil, Memory.wrs]

end Sys2Proof.Machine.State
end

