-- ==== Sys2Proof/Laws/Act.lean ====
section
/-! SUPPORT. Laws of descriptions under execution: sequencing, register operands in a context without pending registers, and what the
end of an instruction makes of each outcome. -/

set_option Elab.async false

namespace Sys2Proof.Machine

namespace Act

variable {α β : Type}

theorem bind_apply (m : Act α) (f : α → Act β) (s : State) :
    (m >>= f) s = match m s with
      | .ok (a, t) => f a t
      | .error e => .error e := by
  show StateT.bind m f s = _
  simp only [StateT.bind, bind, Except.bind]
  cases m s <;> rfl
theorem bind_ok {m : Act α} {f : α → Act β} {s t : State} {a : α} (h : m s = .ok (a, t)) : (m >>= f) s = f a t := by
  simp [bind_apply, h]
theorem bind_error {m : Act α} {f : α → Act β} {s : State} {e : Halt} (h : m s = .error e) : (m >>= f) s = .error e := by
  simp [bind_apply, h]
@[simp] theorem pure_apply (a : α) (s : State) : (pure a : Act α) s = .ok (a, s) := rfl
theorem map_apply (m : Act α) (f : α → β) (s : State) :
    (f <$> m) s = match m s with
      | .ok (a, t) => .ok (f a, t)
      | .error e => .error e := by
  show StateT.map f m s = _
  simp only [StateT.map, bind, Except.bind]
  cases m s <;> rfl
@[simp] theorem get_apply (s : State) : (get : Act State) s = .ok (s, s) := rfl
@[simp] theorem ctx_apply (s : State) : Act.ctx s = .ok (s.ctx, s) := rfl
@[simp] theorem core_apply (s : State) : Act.core s = .ok (s.core, s) := rfl
@[simp] theorem upd_apply (f : State → State) (s : State) : Act.upd f s = .ok ((), f s) := rfl
@[simp] theorem updCtx_apply (f : Ctx → Ctx) (s : State) : Act.updCtx f s = .ok ((), s.modCtx f) := rfl
@[simp] theorem updCore_apply (f : Core → Core) (s : State) : Act.updCore f s = .ok ((), s.modCore f) := rfl
@[simp] theorem inSH_apply (s : State) : Act.inSH s = .ok (s.cx == 4, s) := rfl
@[simp] theorem sup_apply (s : State) : Act.sup s = .ok (s.ctx.stat.sup, s) := rfl
@[simp] theorem raise_apply (r : Raise) (s : State) : (Act.raise r : Act α) s = .error (.raise r) := rfl
@[simp] theorem park_apply (w : Wait) (s : State) : (Act.park w : Act α) s = .error (.park w) := rfl
@[simp] theorem wait_apply (w : Wait) (s : State) : (Act.wait w : Act α) s = .error (.wait w) := rfl
@[simp] theorem stop_apply (t s : State) : (Act.stop t : Act α) s = .error (.stop t) := rfl
theorem check_apply (b : Bool) (r : Raise) (s : State) :
    Act.check b r s = if b then .error (.raise r) else .ok ((), s) := by
  cases b <;> rfl
@[simp] theorem check_false (r : Raise) (s : State) : Act.check false r s = .ok ((), s) := rfl
@[simp] theorem check_true (r : Raise) (s : State) : Act.check true r s = .error (.raise r) := rfl
theorem waitIf_apply (b : Bool) (w : Wait) (s : State) :
    Act.waitIf b w s = if b then .error (.wait w) else .ok ((), s) := by
  cases b <;> rfl
@[simp] theorem waitIf_false (w : Wait) (s : State) : Act.waitIf false w s = .ok ((), s) := rfl

end Act

/-! ### Registers -/

theorem Regs.present_of_all {r_ : Regs} (h : r_.allPresent = true) (d : Dest) : r_.present d = true := by
  simp only [Regs.allPresent, Bool.and_eq_true, beq_iff_eq] at h
  obtain ⟨⟨h1, h2⟩, h3⟩ := h
  cases d with
  | none => rfl
  | g r =>
    show r_.gp.getLsbD r.toNat = true
    rw [h1, BitVec.getLsbD_allOnes]; simp [r.isLt]
  | v r =>
    show r_.vp.getLsbD r.toNat = true
    rw [h2, BitVec.getLsbD_allOnes]; simp [r.isLt]
  | p r =>
    show r_.pp.getLsbD r.toNat = true
    rw [h3, BitVec.getLsbD_allOnes]; simp [r.isLt]

@[simp] theorem Regs.allPresent_setG (r : Regs) (i : Reg) (x : Word) : (r.setG i x).allPresent = r.allPresent := by
  unfold Regs.setG; split <;> rfl
@[simp] theorem Regs.allPresent_setP (r : Regs) (i : PReg) (x : Word) : (r.setP i x).allPresent = r.allPresent := by
  unfold Regs.setP; split <;> rfl
@[simp] theorem Regs.allPresent_setV (r : Regs) (i : Reg) (x : VWord) : (r.setV i x).allPresent = r.allPresent := rfl

/-- What a register reads after a write: register 0 keeps reading zero (01 R9). -/
theorem Regs.getG_setG (r : Regs) (i j : Reg) (x : Word) :
    (r.setG i x).getG j = if j = i ∧ j ≠ 0 then x else r.getG j := by
  by_cases hi : i = 0
  · subst hi
    by_cases hj : j = 0 <;> simp [Regs.setG, hj]
  · by_cases hj : j = 0
    · subst hj
      simp [Regs.getG]
    · simp only [Regs.setG, Regs.getG, hi, hj, if_false, ne_eq, not_false_eq_true, and_true]
      by_cases h : j = i
      · subst h; simp
      · have hne : i.toNat ≠ j.toNat := fun e => h (BitVec.eq_of_toNat_eq e.symm)
        simp [h, Vector.getElem_set_ne, hne]

@[simp] theorem Regs.getG_zero (r : Regs) : r.getG 0 = 0 := rfl

theorem Ctx.g_setG (c : Ctx) (i j : Reg) (x : Word) : (c.setG i x).g j = if j = i ∧ j ≠ 0 then x else c.g j :=
  Regs.getG_setG c.regs i j x

/-! ### A clean context -/

theorem State.Clean.present {s : State} (h : s.Clean) (d : Dest) : s.ctx.regs.present d = true := Regs.present_of_all h.1 d

theorem State.Clean.modCtx {s : State} (h : s.Clean) {f : Ctx → Ctx} (hr : (f s.ctx).regs.allPresent = s.ctx.regs.allPresent)
    (hp : (f s.ctx).poison = s.ctx.poison) : (s.modCtx f).Clean := by
  simp [State.Clean, hr, hp, h.1, h.2]

theorem State.Clean.issued {s : State} (h : s.Clean) (len : Nat) : (s.issued len).Clean := h.modCtx rfl rfl

theorem State.ctx_issued (s : State) (len : Nat) :
    (s.issued len).ctx = { s.ctx with pc := s.ctx.pc + W len, run := .runnable } := State.ctx_modCtx s _
@[simp] theorem State.issued_since (s : State) (len : Nat) : (s.issued len).ctx.since = s.ctx.since := by rw [State.ctx_issued]
@[simp] theorem State.issued_regs (s : State) (len : Nat) : (s.issued len).ctx.regs = s.ctx.regs := by rw [State.ctx_issued]
@[simp] theorem State.issued_ras (s : State) (len : Nat) : (s.issued len).ctx.ras = s.ctx.ras := by rw [State.ctx_issued]
@[simp] theorem State.issued_rdep (s : State) (len : Nat) : (s.issued len).ctx.rdep = s.ctx.rdep := by rw [State.ctx_issued]
@[simp] theorem State.issued_bb (s : State) (len : Nat) : (s.issued len).ctx.bb = s.ctx.bb := by rw [State.ctx_issued]
@[simp] theorem State.issued_hf (s : State) (len : Nat) : (s.issued len).ctx.hf = s.ctx.hf := by rw [State.ctx_issued]
@[simp] theorem State.issued_hframe (s : State) (len : Nat) : (s.issued len).ctx.hframe = s.ctx.hframe := by rw [State.ctx_issued]
@[simp] theorem State.issued_eff (s : State) (len : Nat) : (s.issued len).ctx.eff = s.ctx.eff := by rw [State.ctx_issued]
@[simp] theorem State.issued_num (s : State) (len : Nat) : (s.issued len).ctx.num = s.ctx.num := by rw [State.ctx_issued]
@[simp] theorem State.issued_ident (s : State) (len : Nat) : (s.issued len).ctx.ident = s.ctx.ident := by rw [State.ctx_issued]
@[simp] theorem State.issued_stat (s : State) (len : Nat) : (s.issued len).ctx.stat = s.ctx.stat := by rw [State.ctx_issued]
@[simp] theorem State.issued_tx (s : State) (len : Nat) : (s.issued len).ctx.tx = s.ctx.tx := by rw [State.ctx_issued]
@[simp] theorem State.issued_space (s : State) (len : Nat) : (s.issued len).ctx.space = s.ctx.space := by rw [State.ctx_issued]
@[simp] theorem State.issued_epoch (s : State) (len : Nat) : (s.issued len).ctx.epoch = s.ctx.epoch := by rw [State.ctx_issued]
@[simp] theorem State.issued_starts (s : State) (len : Nat) : (s.issued len).ctx.starts = s.ctx.starts := by rw [State.ctx_issued]
@[simp] theorem State.issued_sysRec (s : State) (len : Nat) : (s.issued len).ctx.sysRec = s.ctx.sysRec := by rw [State.ctx_issued]
@[simp] theorem State.issued_sysGen (s : State) (len : Nat) : (s.issued len).ctx.sysGen = s.ctx.sysGen := by rw [State.ctx_issued]
@[simp] theorem State.issued_sysBusy (s : State) (len : Nat) : (s.issued len).ctx.sysBusy = s.ctx.sysBusy := by rw [State.ctx_issued]
@[simp] theorem State.issued_hmask (s : State) (len : Nat) : (s.issued len).ctx.hmask = s.ctx.hmask := by rw [State.ctx_issued]
@[simp] theorem State.issued_qs (s : State) (len : Nat) : (s.issued len).ctx.qs = s.ctx.qs := by rw [State.ctx_issued]
@[simp] theorem State.issued_pend (s : State) (len : Nat) : (s.issued len).ctx.pend = s.ctx.pend := by rw [State.ctx_issued]
@[simp] theorem State.issued_held (s : State) (len : Nat) : (s.issued len).ctx.held = s.ctx.held := by rw [State.ctx_issued]
@[simp] theorem State.issued_poison (s : State) (len : Nat) : (s.issued len).ctx.poison = s.ctx.poison := by rw [State.ctx_issued]
@[simp] theorem State.issued_started (s : State) (len : Nat) : (s.issued len).ctx.started = s.ctx.started := by rw [State.ctx_issued]
@[simp] theorem State.issued_path (s : State) (len : Nat) : (s.issued len).ctx.path = s.ctx.path := by rw [State.ctx_issued]
@[simp] theorem State.issued_spawns (s : State) (len : Nat) : (s.issued len).ctx.spawns = s.ctx.spawns := by rw [State.ctx_issued]
@[simp] theorem State.issued_act (s : State) (len : Nat) : (s.issued len).ctx.act = s.ctx.act := by rw [State.ctx_issued]
@[simp] theorem State.issued_preemptAt (s : State) (len : Nat) : (s.issued len).ctx.preemptAt = s.ctx.preemptAt := by rw [State.ctx_issued]
@[simp] theorem State.issued_migp (s : State) (len : Nat) : (s.issued len).ctx.migp = s.ctx.migp := by rw [State.ctx_issued]
@[simp] theorem State.issued_reserve (s : State) (len : Nat) : (s.issued len).ctx.reserve = s.ctx.reserve := by rw [State.ctx_issued]
@[simp] theorem State.issued_migr (s : State) (len : Nat) : (s.issued len).ctx.migr = s.ctx.migr := by rw [State.ctx_issued]
@[simp] theorem State.issued_asBarw (s : State) (len : Nat) : (s.issued len).ctx.asBarw = s.ctx.asBarw := by rw [State.ctx_issued]
@[simp] theorem State.issued_resumed (s : State) (len : Nat) : (s.issued len).ctx.resumed = s.ctx.resumed := by rw [State.ctx_issued]
@[simp] theorem State.issued_startAt (s : State) (len : Nat) : (s.issued len).ctx.startAt = s.ctx.startAt := by rw [State.ctx_issued]
@[simp] theorem State.issued_shFrom (s : State) (len : Nat) : (s.issued len).ctx.shFrom = s.ctx.shFrom := by rw [State.ctx_issued]
@[simp] theorem State.issued_loose (s : State) (len : Nat) : (s.issued len).ctx.loose = s.ctx.loose := by rw [State.ctx_issued]
@[simp] theorem State.issued_late (s : State) (len : Nat) : (s.issued len).ctx.late = s.ctx.late := by rw [State.ctx_issued]
@[simp] theorem State.issued_origin (s : State) (len : Nat) : (s.issued len).ctx.origin = s.ctx.origin := by rw [State.ctx_issued]
@[simp] theorem State.issued_barw (s : State) (len : Nat) : (s.issued len).ctx.barw = s.ctx.barw := by rw [State.ctx_issued]
@[simp] theorem State.issued_masked (s : State) (len t : Nat) : (s.issued len).ctx.masked t = s.ctx.masked t := by rw [State.ctx_issued]; rfl
@[simp] theorem State.issued_groups (s : State) (len : Nat) : (s.issued len).ctx.groups = s.ctx.groups := by rw [State.ctx_issued]
@[simp] theorem State.core_issued (s : State) (len : Nat) : (s.issued len).core = s.core := rfl
@[simp] theorem State.coreAt_issued (s : State) (len q : Nat) : (s.issued len).coreAt q = s.coreAt q := rfl
@[simp] theorem State.issued_pc (s : State) (len : Nat) : (s.issued len).ctx.pc = s.ctx.pc + W len := by rw [State.ctx_issued]
@[simp] theorem State.issued_run (s : State) (len : Nat) : (s.issued len).ctx.run = .runnable := by rw [State.ctx_issued]
@[simp] theorem State.issued_g (s : State) (len : Nat) (r : Reg) : (s.issued len).ctx.g r = s.ctx.g r := by rw [State.ctx_issued]; rfl
@[simp] theorem State.issuedAt_agenda (s : State) (len : Nat) : (s.issued len).agenda = s.agenda := rfl
@[simp] theorem State.issuedAt_pid (s : State) (len : Nat) : (s.issued len).pid = s.pid := rfl
@[simp] theorem State.issuedAt_cx (s : State) (len : Nat) : (s.issued len).cx = s.cx := rfl
@[simp] theorem State.issuedAt_time (s : State) (len : Nat) : (s.issued len).time = s.time := rfl
@[simp] theorem State.issuedAt_stepNo (s : State) (len : Nat) : (s.issued len).stepNo = s.stepNo := rfl
@[simp] theorem State.issuedAt_cores (s : State) (len : Nat) : (s.issued len).cores = s.cores := rfl
@[simp] theorem State.issuedAt_dies (s : State) (len : Nat) : (s.issued len).dies = s.dies := rfl
@[simp] theorem State.issuedAt_mem (s : State) (len : Nat) : (s.issued len).mem = s.mem := rfl
@[simp] theorem State.issuedAt_ue (s : State) (len : Nat) : (s.issued len).ue = s.ue := rfl
@[simp] theorem State.issuedAt_net (s : State) (len : Nat) : (s.issued len).net = s.net := rfl
@[simp] theorem State.issuedAt_vers (s : State) (len : Nat) : (s.issued len).vers = s.vers := rfl
@[simp] theorem State.issuedAt_copies (s : State) (len : Nat) : (s.issued len).copies = s.copies := rfl
@[simp] theorem State.issuedAt_nextCopy (s : State) (len : Nat) : (s.issued len).nextCopy = s.nextCopy := rfl
@[simp] theorem State.issuedAt_launches (s : State) (len : Nat) : (s.issued len).launches = s.launches := rfl
@[simp] theorem State.issuedAt_nextLaunch (s : State) (len : Nat) : (s.issued len).nextLaunch = s.nextLaunch := rfl
@[simp] theorem State.issuedAt_nextAct (s : State) (len : Nat) : (s.issued len).nextAct = s.nextAct := rfl
@[simp] theorem State.issuedAt_saved (s : State) (len : Nat) : (s.issued len).saved = s.saved := rfl
@[simp] theorem State.issuedAt_images (s : State) (len : Nat) : (s.issued len).images = s.images := rfl
@[simp] theorem State.issuedAt_spads (s : State) (len : Nat) : (s.issued len).spads = s.spads := rfl
@[simp] theorem State.issuedAt_sys (s : State) (len : Nat) : (s.issued len).sys = s.sys := rfl

theorem Act.interlock_clean {s : State} (h : s.Clean) (d : Dest) : Act.interlock d s = .ok ((), s) := by
  simp [Act.interlock, h.present d, h.2]
theorem Act.rdG_clean {s : State} (h : s.Clean) (r : Reg) : Act.rdG r s = .ok (s.ctx.g r, s) := by
  simp [Act.rdG, Act.bind_apply, Act.map_apply, Act.interlock_clean h]
theorem Act.rdP_clean {s : State} (h : s.Clean) (r : PReg) : Act.rdP r s = .ok (s.ctx.regs.getP r, s) := by
  simp [Act.rdP, Act.bind_apply, Act.map_apply, Act.interlock_clean h]
theorem Act.rdV_clean {s : State} (h : s.Clean) (r : Reg) : Act.rdV r s = .ok (s.ctx.regs.getV r, s) := by
  simp [Act.rdV, Act.bind_apply, Act.map_apply, Act.interlock_clean h]
theorem Act.wrG_clean {s : State} (h : s.Clean) (r : Reg) (x : Word) : Act.wrG r x s = .ok ((), s.modCtx (fun c => c.setG r x)) := by
  simp [Act.wrG, Act.bind_apply, Act.interlock_clean h]
theorem Act.wrP_clean {s : State} (h : s.Clean) (r : PReg) (x : Word) : Act.wrP r x s = .ok ((), s.modCtx (fun c => c.setP r x)) := by
  simp [Act.wrP, Act.bind_apply, Act.interlock_clean h]
theorem Act.wrV_clean {s : State} (h : s.Clean) (r : Reg) (x : VWord) : Act.wrV r x s = .ok ((), s.modCtx (fun c => c.setV r x)) := by
  simp [Act.wrV, Act.bind_apply, Act.interlock_clean h]
theorem Act.pendDest_clean {s : State} (h : s.Clean) (d : Dest) :
    Act.pendDest d s = .ok ((), s.modCtx (fun c => { c with regs := c.regs.setPresent false d })) := by
  simp [Act.pendDest, Act.bind_apply, Act.interlock_clean h]
theorem Act.needSup_sup {s : State} (h : s.ctx.stat.sup = true) : Act.needSup s = .ok ((), s) := by
  simp [Act.needSup, Act.bind_apply, h]
theorem Act.needSup_user {s : State} (h : s.ctx.stat.sup = false) : Act.needSup s = .error (.raise privFault) := by
  simp [Act.needSup, Act.bind_apply, h]

/-! ### The end of an instruction -/

theorem issue_ok {s t : State} {sp : Bool} {len : Nat} {m : Act Unit} (h : m (s.issued len) = .ok ((), t)) :
    issue s sp len m = .next (t.switch sp) := by
  unfold State.issued at h
  unfold issue
  rw [h]; rfl

theorem issue_after {s : State} {sp : Bool} {len : Nat} {m : Act Unit} {f : Ctx → Ctx}
    (h : m (s.issued len) = .ok ((), (s.issued len).modCtx f)) : issue s sp len m = .next (s.after sp len f) := issue_ok h

theorem issue_stop {s t : State} {sp : Bool} {len : Nat} {m : Act Unit} (h : m (s.issued len) = .error (.stop t)) :
    issue s sp len m = .next t := by
  unfold State.issued at h
  unfold issue
  rw [h]; rfl

/-- A system effect is delivered without a wait (06 R155). -/
theorem State.deliveryHeld_system {r : Raise} (h : Eff.system r.eff = true) (s : State) (pid cx : Nat) : s.deliveryHeld pid cx r = false := by
  unfold State.deliveryHeld; rw [if_pos h]

theorem State.takes_system {r : Raise} (h : Eff.system r.eff = true) (s : State) (sp : Bool) : s.takes sp r = s.raised r := by
  unfold State.takes; rw [State.deliveryHeld_system h]; rfl

theorem issue_takes {s : State} {sp : Bool} {len : Nat} {m : Act Unit} {r : Raise} (hs : s.Clean)
    (h : m (s.issued len) = .error (.raise r)) : issue s sp len m = .next (s.takes sp r) := by
  unfold State.issued at h
  unfold issue
  rw [h]
  simp only [State.settle, hs.1, State.takes, State.raised, Bool.not_true, Bool.false_eq_true, if_false]

theorem issue_raise {s : State} {sp : Bool} {len : Nat} {m : Act Unit} {r : Raise} (hs : s.Clean)
    (h : m (s.issued len) = .error (.raise r)) (hd : Eff.system r.eff = true := by rfl) : issue s sp len m = .next (s.raised r) := by
  rw [issue_takes hs h, State.takes_system hd]

theorem issue_wait {s : State} {sp : Bool} {len : Nat} {m : Act Unit} {w : Wait} (h : m (s.issued len) = .error (.wait w)) :
    issue s sp len m = .next ((s.block w sp).switch sp) := by
  unfold State.issued at h
  unfold issue
  rw [h]; rfl

theorem issue_park {s : State} {sp : Bool} {len : Nat} {m : Act Unit} {w : Wait} (h : m (s.issued len) = .error (.park w)) :
    issue s sp len m = .next ((s.block w true).switch true) := by
  unfold State.issued at h
  unfold issue
  rw [h]; rfl

theorem State.after_congr {s : State} {sp : Bool} {len : Nat} {f g : Ctx → Ctx} (h : f (s.issued len).ctx = g (s.issued len).ctx) :
    s.after sp len f = s.after sp len g := by
  unfold State.after; rw [State.modCtx_congr h]

theorem State.after_id (s : State) (sp : Bool) (len : Nat) : s.after sp len id = (s.issued len).switch sp := by
  unfold State.after State.issued
  rw [State.modCtx_modCtx]; rfl

theorem State.switch_cx (s : State) (sp : Bool) : (s.switch sp).cx = s.cx := by
  unfold State.switch; split <;> rfl
theorem State.switch_pid (s : State) (sp : Bool) : (s.switch sp).pid = s.pid := by
  unfold State.switch; split <;> rfl
/-- Giving way twice is giving way once. -/
theorem State.switch_switch (s : State) (sp : Bool) : (s.switch true).switch sp = s.switch true := by
  unfold State.switch
  cases sp
  · simp
  · by_cases h : s.cx = 4
    · simp [h]
    · simp only [Bool.true_and, bne_iff_ne, ne_eq, h, not_false_eq_true, if_true, State.modCore_cx, State.modCore_pid]
      have : (s.modCore (fun k => { k with cur := s.nextRunnable s.pid s.cx })).nextRunnable s.pid s.cx = s.nextRunnable s.pid s.cx := rfl
      rw [this]
      simp [State.modCore, State.modCoreAt, State.setCoreAt, State.coreAt]

theorem Act.giveWay_apply (s : State) : Act.giveWay s = .ok ((), s.switch true) := rfl

theorem Act.jump_even {t : Word} (h : flag t 0 = false) (s : State) : Act.jump t s = .ok ((), s.modCtx (fun c => { c with pc := t })) := by
  simp [Act.jump, h, Act.bind_apply]
theorem Act.jump_odd {t : Word} (h : flag t 0 = true) (s : State) : Act.jump t s = .error (.raise (alignFault t)) := by
  simp [Act.jump, h, Act.bind_apply]

/-- An instruction that gives way whatever its S bit. -/
theorem issue_gives {s t : State} {sp : Bool} {len : Nat} {m : Act Unit} (h : m (s.issued len) = .ok ((), t.switch true)) :
    issue s sp len m = .next (t.switch true) := by
  rw [issue_ok h, State.switch_switch]

end Sys2Proof.Machine
end

