-- ==== Sys2Proof/Laws/Memory.lean ====
section
/-! SUPPORT. Laws of the bytes of memory: every write keeps the canonical form, and a read after a write. -/

set_option Elab.async false

namespace Sys2Proof.Machine

/-- Every listed address is at least k. -/
def Memory.above (k : Nat) : List Host.Cell → Prop
  | [] => True
  | (j, _) :: _ => k < j

theorem Memory.wf_cons (j : Nat) (b : Byte) (m : List Host.Cell) :
    Memory.wf ((j, b) :: m) = true ↔ b ≠ Memory.blank ∧ Memory.above j m ∧ Memory.wf m = true := by
  cases m with
  | nil => simp [Memory.wf, Memory.above]
  | cons e m =>
    obtain ⟨i, c⟩ := e
    simp only [Memory.wf, Memory.above, Bool.and_eq_true, decide_eq_true_eq, bne_iff_ne]
    constructor
    · rintro ⟨⟨h1, h2⟩, h3⟩; exact ⟨h2, h1, h3⟩
    · rintro ⟨h1, h2, h3⟩; exact ⟨⟨h2, h1⟩, h3⟩

theorem Memory.above_wr {j k : Nat} {v : Byte} (m : List Host.Cell) (h : Memory.above j m) (hk : j < k) (hw : Memory.wf m = true) :
    Memory.above j (Memory.wr m k v) := by
  cases m with
  | nil => simp only [Memory.wr]; split <;> simp [Memory.above, hk]
  | cons e m =>
    obtain ⟨i, c⟩ := e
    simp only [Memory.above] at h
    simp only [Memory.wr]
    split
    · split
      · exact h
      · exact hk
    · split
      · split
        · have := (Memory.wf_cons i c m).1 hw
          cases m with
          | nil => trivial
          | cons e m => obtain ⟨x, y⟩ := e; simp only [Memory.above] at this ⊢; omega
        · exact hk
      · exact h

/-- A write of one byte keeps the canonical form. -/
theorem Memory.wf_wr (m : List Host.Cell) (k : Nat) (v : Byte) (h : Memory.wf m = true) : Memory.wf (Memory.wr m k v) = true := by
  induction m with
  | nil =>
    simp only [Memory.wr]
    split
    · rfl
    · rename_i hv; simp [Memory.wf, hv]
  | cons e m ih =>
    obtain ⟨j, b⟩ := e
    obtain ⟨hb, ha, hm⟩ := (Memory.wf_cons j b m).1 h
    simp only [Memory.wr]
    split
    · split
      · exact h
      · rename_i hk hv; exact (Memory.wf_cons k v _).2 ⟨hv, hk, h⟩
    · split
      · split
        · exact hm
        · rename_i hj hv; subst hj; exact (Memory.wf_cons _ v m).2 ⟨hv, ha, hm⟩
      · rename_i h1 h2
        exact (Memory.wf_cons j b _).2 ⟨hb, Memory.above_wr m ha (by omega) hm, ih hm⟩

theorem Memory.wf_wrs (m : List Host.Cell) (k : Nat) (bs : List Byte) (h : Memory.wf m = true) : Memory.wf (Memory.wrs m k bs) = true := by
  induction bs generalizing m k with
  | nil => exact h
  | cons b bs ih => exact ih _ _ (Memory.wf_wr m k b h)

theorem Memory.rd_above {k j : Nat} {m : List Host.Cell} (h : Memory.above j m) (hk : k ≤ j) : Memory.rd m k = Memory.blank := by
  cases m with
  | nil => rfl
  | cons e m => obtain ⟨i, c⟩ := e; simp only [Memory.above] at h; simp [Memory.rd, show k < i by omega]

/-- What a byte reads after a write of one byte. -/
theorem Memory.rd_wr (m : List Host.Cell) (k j : Nat) (v : Byte) (h : Memory.wf m = true) :
    Memory.rd (Memory.wr m k v) j = if j = k then v else Memory.rd m j := by
  induction m with
  | nil =>
    simp only [Memory.wr]
    split
    · rename_i hv; subst hv; split <;> rfl
    · simp only [Memory.rd]
      split
      · rename_i h1; simp [show j ≠ k by omega]
      · by_cases hj : k = j
        · simp [hj]
        · simp [hj, Ne.symm hj]
  | cons e m ih =>
    obtain ⟨i, b⟩ := e
    obtain ⟨hb, ha, hm⟩ := (Memory.wf_cons i b m).1 h
    simp only [Memory.wr]
    split
    · rename_i hki
      split
      · rename_i hv; subst hv
        by_cases hj : j = k
        · subst hj; simp [Memory.rd, hki]
        · simp [hj]
      · by_cases hj : j = k
        · subst hj; simp [Memory.rd]
        · simp only [hj, if_false]
          conv => lhs; unfold Memory.rd
          by_cases h1 : j < k
          · simp [h1, Memory.rd, show j < i by omega]
          · simp [h1, Ne.symm hj]
    · split
      · rename_i hik; subst hik
        split
        · rename_i hv; subst hv
          by_cases hj : j = i
          · subst hj; simp [Memory.rd_above ha (Nat.le_refl _)]
          · simp only [hj, if_false, Memory.rd, Ne.symm hj]
            split
            · rename_i h1; exact Memory.rd_above ha (by omega)
            · rfl
        · by_cases hj : j = i
          · subst hj; simp [Memory.rd]
          · simp [hj, Memory.rd, Ne.symm hj]
      · rename_i h1 h2
        simp only [Memory.rd]
        by_cases hj : j < i
        · simp [hj, show j ≠ k by omega]
        · simp only [hj, if_false]
          by_cases hji : i = j
          · subst hji; simp [h2]
          · simp [hji, ih hm]

/-- What a byte reads after a write of several bytes. -/
theorem Memory.rd_wrs (m : List Host.Cell) (k j : Nat) (bs : List Byte) (h : Memory.wf m = true) :
    Memory.rd (Memory.wrs m k bs) j = if k ≤ j ∧ j < k + bs.length then bs.getD (j - k) 0 else Memory.rd m j := by
  induction bs generalizing m k with
  | nil => simp only [Memory.wrs, List.length_nil]; rw [if_neg (by omega)]
  | cons b bs ih =>
    rw [Memory.wrs, ih _ _ (Memory.wf_wr m k b h), Memory.rd_wr m k j b h]
    by_cases hj : j = k
    · subst hj
      simp only [Nat.le_refl, List.length_cons, true_and, Nat.sub_self, List.getD_cons_zero, if_true]
      rw [if_neg (by omega), if_pos (by omega)]
    · by_cases h2 : k + 1 ≤ j ∧ j < k + 1 + bs.length
      · obtain ⟨n, rfl⟩ : ∃ n, j = k + 1 + n := ⟨j - (k + 1), by omega⟩
        rw [if_pos h2, if_pos (by simp only [List.length_cons]; omega)]
        have e1 : k + 1 + n - (k + 1) = n := by omega
        have e2 : k + 1 + n - k = n + 1 := by omega
        rw [e1, e2]; rfl
      · rw [if_neg h2, if_neg hj, if_neg (by simp only [List.length_cons]; omega)]

theorem Memory.rds_length (m : List Host.Cell) (k n : Nat) : (Memory.rds m k n).length = n := by
  induction n generalizing k with
  | zero => rfl
  | succ n ih => simp [Memory.rds, ih]

/-- A write outside of what is read changes nothing of it. -/
theorem Memory.rds_wrs_disjoint (m : List Host.Cell) (k j n : Nat) (bs : List Byte) (h : Memory.wf m = true)
    (hd : j + n ≤ k ∨ k + bs.length ≤ j) : Memory.rds (Memory.wrs m k bs) j n = Memory.rds m j n := by
  induction n generalizing j with
  | zero => rfl
  | succ n ih =>
    rw [Memory.rds, Memory.rds, ih (j + 1) (by omega), Memory.rd_wrs m k j bs h, if_neg (by omega)]

/-- Cells left out of a memory in canonical form leave one in canonical form. -/
theorem Memory.wf_filter (m : List Host.Cell) (p : Host.Cell → Bool) (h : Memory.wf m = true) :
    Memory.wf (m.filter p) = true ∧ ∀ k, Memory.above k m → Memory.above k (m.filter p) := by
  induction m with
  | nil => exact ⟨rfl, fun _ h => h⟩
  | cons e m ih =>
    obtain ⟨j, b⟩ := e
    obtain ⟨hb, ha, hm⟩ := (Memory.wf_cons j b m).1 h
    obtain ⟨h1, h2⟩ := ih hm
    rw [List.filter_cons]
    split
    · exact ⟨(Memory.wf_cons j b _).2 ⟨hb, h2 j ha, h1⟩, fun _ hk => hk⟩
    · refine ⟨h1, fun k hk => h2 k ?_⟩
      simp only [Memory.above] at hk
      cases m with
      | nil => trivial
      | cons e m => obtain ⟨i, c⟩ := e; simp only [Memory.above] at ha ⊢; omega

end Sys2Proof.Machine
end

