-- ==== Sys2Proof/Laws/Operands.lean ====
section
/-! SUPPORT. Laws of the accesses of a context: what a load and a store of one register do in the context's own scratchpad. -/

set_option Elab.async false

namespace Sys2Proof.Machine

theorem classOf_local {a : Nat} (h : a < 0x180000) : classOf a = .spad a := by simp [classOf, h]

theorem State.locate_local (s : State) (pid : Nat) (ptroot : Word) (sup : Bool) {acc : Acc} {ea : Word} {n : Nat} (natural scalar : Bool)
    (ha : ea.toNat % n = 0) (hi : ea.toNat < 0x180000) (hf : acc ≠ .fetch) :
    s.locate pid ptroot sup acc ea n natural scalar = .ok (.spad pid ea.toNat, none) := by
  have h2 : ¬ 2 ^ 52 ≤ ea.toNat := by omega
  simp only [State.locate, ha, h2, classOf_local hi, hf, bne_self_eq_false, decide_false, Bool.or_self, Bool.and_false, if_false, Bool.false_eq_true, beq_iff_eq, ne_eq, not_true_eq_false, and_false]

/-- The context's place for a local access. -/
theorem Act.place_local {s : State} {stk : Bool} {ea : Word} {n : Nat} {acc : Acc} (natural scalar : Bool)
    (ha : ea.toNat % n = 0) (hi : ea.toNat < 0x180000) (hf : acc ≠ .fetch)
    (hs : stk = true → s.ctx.space.sklo.toNat ≤ ea.toNat ∧ (s.ctx.stat.emrg = true → s.ctx.space.skhi.toNat - 512 ≤ ea.toNat)) :
    Act.place acc stk ea n natural scalar s = .ok ((.spad s.pid ea.toNat, ea), s) := by
  have h1 : (stk && s.ctx.stat.emrg && decide (ea.toNat < s.ctx.space.skhi.toNat - 512)) = false := by
    cases stk with
    | false => rfl
    | true =>
      cases he : s.ctx.stat.emrg with
      | false => rfl
      | true => have := (hs rfl).2 he; simp; omega
  have h2 : (stk && decide (ea.toNat < s.ctx.space.sklo.toNat)) = false := by
    cases stk with
    | false => rfl
    | true => have := (hs rfl).1; simp; omega
  simp only [Act.place, h1, h2, Bool.false_and, Bool.false_eq_true, if_false, State.locate_local s _ _ _ natural scalar ha hi hf]

theorem Act.gate_open {s : State} (h : s.noAcquire) : Act.gate s = .ok ((), s) := by
  unfold Act.gate; rw [show s.acquiring s.pid s.ctx.act = false from h]; rfl
theorem State.acquiring_issued (s : State) (len pid act : Nat) : (s.issued len).acquiring pid act = s.acquiring pid act := by
  unfold State.acquiring
  rw [State.coreAt_issued, State.issuedAt_net, State.issuedAt_vers]
theorem State.noAcquire_issued {s : State} (h : s.noAcquire) (len : Nat) : (s.issued len).noAcquire := by
  unfold State.noAcquire; rw [State.issued_act, State.issuedAt_pid, State.acquiring_issued]; exact h

theorem Act.ownBytes_free {s : State} {off n : Nat} (h1 : s.marked s.pid off n = false) (h2 : s.ownAlias (spadKey s.pid off) n = false) :
    Act.ownBytes off n s = .ok ((), s) := by
  simp [Act.ownBytes, h1, h2]

@[simp] theorem State.aliasOf_issued (s : State) (len act k n : Nat) : (s.issued len).aliasOf act k n = s.aliasOf act k n := rfl
theorem State.ownAlias_issued (s : State) (len k n : Nat) : (s.issued len).ownAlias k n = s.ownAlias k n := by
  unfold State.ownAlias; rw [State.issued_act, State.aliasOf_issued]
@[simp] theorem State.keyHeld_issued (s : State) (len k : Nat) : (s.issued len).keyHeld k = s.keyHeld k := rfl
@[simp] theorem State.bad_issued (s : State) (len k n : Nat) : (s.issued len).bad k n = s.bad k n := rfl
/-- No scratchpad access is held by a stack that is not ready. -/
@[simp] theorem State.keyHeld_spad (s : State) (p off : Nat) : s.keyHeld (spadKey p off) = false := by
  have h : ¬ spadKey p off < Config.devBytes := by simp only [spadKey, Config.devBytes]; omega
  simp only [State.keyHeld, h, decide_false, Bool.false_and]

@[simp] theorem State.rdW_issued (s : State) (len k : Nat) : (s.issued len).rdW k = s.rdW k := rfl

theorem State.Local.issued {s : State} {stk : Bool} {ea : Word} {n : Nat} (h : s.Local stk ea n) (len : Nat) :
    (s.issued len).Local stk ea n where
  aligned := h.aligned
  inside := h.inside
  below := h.below
  alone := by rw [State.ownAlias_issued]; exact h.alone
  good := h.good
  gate := State.noAcquire_issued h.gate len
  stack := by simpa using h.stack

@[simp] theorem Home.readKey_spad (lead q p off : Nat) : (Home.spad p off).readKey lead q = spadKey p off := rfl
@[simp] theorem Home.key_spad (p off : Nat) : (Home.spad p off).key = spadKey p off := rfl

/-- A load of one register from the context's own scratchpad, whatever its order (05 R118, R120). -/
theorem Act.load_local_ord {s : State} {stk : Bool} {ea : Word} {n : Nat} (hc : s.Clean) (h : s.Local stk ea n) (here : Word) (sx : Bool) (d : Reg)
    (acq : Bool) : Act.load here ea n sx d stk acq s
      = .ok ((), s.modCtx (fun c => c.setG d (extend n sx (s.rdN (spadKey s.pid ea.toNat) n)))) := by
  have hl : inLocal ea.toNat = true := by simpa [inLocal] using h.inside
  simp [Act.load, Act.bind_apply, Act.gate_open h.gate, Act.place_local (acc := .read) true true h.aligned h.inside (by decide) h.stack,
    Act.ownBytes_free h.below h.alone, hl, Act.interlock_clean hc, Act.wrG_clean hc, Home.key_spad, h.good]
theorem Act.load_local {s : State} {stk : Bool} {ea : Word} {n : Nat} (hc : s.Clean) (h : s.Local stk ea n) (here : Word) (sx : Bool) (d : Reg) :
    Act.load here ea n sx d stk false s
      = .ok ((), s.modCtx (fun c => c.setG d (extend n sx (s.rdN (spadKey s.pid ea.toNat) n)))) := Act.load_local_ord hc h here sx d false

/-- A store of one register to the context's own scratchpad (05 R118). -/
theorem Act.store_local {s : State} {stk : Bool} {ea : Word} {n : Nat} (h : s.Local stk ea n) (here v : Word) :
    Act.store here ea n v stk false s = .ok ((), s.wr (spadKey s.pid ea.toNat) (bytesOf n v.toNat)) := by
  simp [Act.store, Act.bind_apply, Act.gate_open h.gate, Act.place_local (acc := .write) true true h.aligned h.inside (by decide) h.stack,
    Act.ownBytes_free h.below h.alone, Home.key_spad, h.good]

/-- A release store with no access of the context outstanding (11 R298). -/
theorem Act.store_local_rel {s : State} {stk : Bool} {ea : Word} {n : Nat} (h : s.Local stk ea n) (hd : s.ownReqs s.ctx.act = false)
    (here v : Word) : Act.store here ea n v stk true s = .ok ((), s.wr (spadKey s.pid ea.toNat) (bytesOf n v.toNat)) := by
  simp [Act.store, Act.bind_apply, Act.gate_open h.gate, Act.place_local (acc := .write) true true h.aligned h.inside (by decide) h.stack,
    Act.ownBytes_free h.below h.alone, Home.key_spad, h.good, Act.drain, hd]

theorem Act.place_far {s : State} {acc : Acc} {stk : Bool} {ea : Word} {n : Nat} {h : Home} {l : Option Leaf} (hf : s.Far acc stk ea n h l) :
    Act.place acc stk ea n true true s = .ok ((h, ea), s.translated ea l) := by
  have hs := hf.stack
  have h1 : (stk && s.ctx.stat.emrg && decide (ea.toNat < s.ctx.space.skhi.toNat - 512)) = false := by
    cases stk with
    | false => rfl
    | true =>
      cases he : s.ctx.stat.emrg with
      | false => rfl
      | true => have := (hs rfl).2 he; simp; omega
  have h2 : (stk && decide (ea.toNat < s.ctx.space.sklo.toNat)) = false := by
    cases stk with
    | false => rfl
    | true => have := (hs rfl).1; simp; omega
  simp only [Act.place, h1, h2, Bool.false_and, Bool.false_eq_true, if_false, hf.at_]
  cases l <;> rfl

theorem State.translated_ctx (s : State) (ea : Word) (l : Option Leaf) : (s.translated ea l).ctx = s.ctx := by cases l <;> rfl
theorem State.translated_pid (s : State) (ea : Word) (l : Option Leaf) : (s.translated ea l).pid = s.pid := by cases l <;> rfl
theorem State.Clean.translated {s : State} (h : s.Clean) (ea : Word) (l : Option Leaf) : (s.translated ea l).Clean := by
  unfold State.Clean; rw [State.translated_ctx]; exact h
theorem State.bad_translated (s : State) (ea : Word) (l : Option Leaf) (k n : Nat) : (s.translated ea l).bad k n = s.bad k n := by cases l <;> rfl

theorem State.homeBad_issued (s : State) (len : Nat) (h : Home) (n : Nat) : (s.issued len).homeBad h n = s.homeBad h n := by
  cases h <;> rfl
theorem State.homeBad_translated (s : State) (ea : Word) (l : Option Leaf) (h : Home) (n : Nat) :
    (s.translated ea l).homeBad h n = s.homeBad h n := by
  cases l <;> rfl

theorem Act.load_far {s : State} {stk : Bool} {ea : Word} {n : Nat} {h : Home} {l : Option Leaf} (hc : s.Clean) (hf : s.Far .read stk ea n h l)
    (here : Word) (sx : Bool) (d : Reg) (acq : Bool) :
    Act.load here ea n sx d stk acq s = .ok ((), ((s.translated ea l).modCtx (fun c => { c with regs := c.regs.setPresent false (.g d) })).post
      [⟨h, n⟩] (.load sx d) false acq here ea) := by
  have hp := Act.place_far hf
  have ht := hc.translated ea l
  have hd := Act.pendDest_clean ht (.g d)
  have hpid := s.translated_pid ea l
  obtain ⟨ho1, ho2⟩ := hf.other
  unfold Act.load
  rw [Act.bind_ok (Act.gate_open hf.gate), Act.bind_ok hp]
  cases h with
  | spad p off =>
    have : p ≠ s.pid := fun e => ho1 off (by rw [e])
    simp only [Act.bind_apply, Act.get_apply, hpid, this, if_false, hd, Act.post, Act.upd_apply]
  | regs off =>
    have : ¬ off < 0x10000 := fun e => ho2 off e rfl
    simp only [this, if_false, Act.bind_apply, hd, Act.post, Act.upd_apply]
  | dev pa ver repl dm => simp only [Act.bind_apply, hd, Act.post, Act.upd_apply]
  | host pa => simp only [Act.bind_apply, hd, Act.post, Act.upd_apply]
  | peer dev pa => simp only [Act.bind_apply, hd, Act.post, Act.upd_apply]

theorem length_bytesOf (n x : Nat) : (bytesOf n x).length = n := by
  induction n generalizing x with
  | zero => rfl
  | succ n ih => simp [bytesOf, ih]

theorem Act.store_far {s : State} {stk : Bool} {ea : Word} {n : Nat} {h : Home} {l : Option Leaf} (hf : s.Far .write stk ea n h l)
    (hb : s.homeBad h n = false) (here v : Word) (rel : Bool) :
    Act.store here ea n v stk rel s = .ok ((), (s.translated ea l).post
      [⟨h, n⟩] (.store (bytesOf n v.toNat)) rel false here ea) := by
  have hp := Act.place_far hf
  have hpid := s.translated_pid ea l
  obtain ⟨ho1, ho2⟩ := hf.other
  rw [← s.homeBad_translated ea l] at hb
  unfold Act.store
  rw [Act.bind_ok (Act.gate_open hf.gate), Act.bind_ok hp]
  cases h with
  | spad p off =>
    have : p ≠ s.pid := fun e => ho1 off (by rw [e])
    rw [show (s.translated ea l).homeBad (.spad p off) n = (s.translated ea l).bad (Home.spad p off).key n from rfl] at hb
    simp only [Act.bind_apply, Act.get_apply, hpid, this, if_false, hb, Act.check_false, Act.post, Act.upd_apply]
  | regs off =>
    have : ¬ off < 0x10000 := fun e => ho2 off e rfl
    simp only [this, if_false, Act.post, Act.upd_apply]
  | dev pa ver repl dm => simp only [Act.bind_apply, Act.get_apply, hb, Act.check_false, Act.post, Act.upd_apply]
  | host pa => simp only [Act.bind_apply, Act.get_apply, hb, Act.check_false, Act.post, Act.upd_apply]
  | peer dev pa => simp only [Act.bind_apply, Act.get_apply, hb, Act.check_false, Act.post, Act.upd_apply]

theorem State.Far.issued {s : State} {acc : Acc} {stk : Bool} {ea : Word} {n : Nat} {h : Home} {l : Option Leaf} (hf : s.Far acc stk ea n h l)
    (len : Nat) : (s.issued len).Far acc stk ea n h l where
  at_ := by rw [← hf.at_]; simp only [State.issuedAt_pid, State.issued_space, State.issued_stat]; rfl
  other := hf.other
  gate := State.noAcquire_issued hf.gate len
  stack := by simpa using hf.stack

@[simp] theorem State.switch_mem (s : State) (sp : Bool) : (s.switch sp).mem = s.mem := by
  unfold State.switch; split <;> rfl

theorem bytesOf_getD (n x i : Nat) (h : i < n) : (bytesOf n x).getD i 0 = BitVec.ofNat 8 (x / 256 ^ i) := by
  induction n generalizing x i with
  | zero => omega
  | succ n ih =>
    cases i with
    | zero => simp [bytesOf]
    | succ i =>
      rw [bytesOf, List.getD_cons_succ, ih _ _ (by omega), Nat.div_div_eq_div_mul, Nat.pow_succ, Nat.mul_comm]

/-! ### Bytes of the core's own scratchpad -/

theorem State.spanFree_issued {s : State} {off n : Nat} (h : s.spanFree off n) (len : Nat) : (s.issued len).spanFree off n :=
  ⟨h.1, by rw [State.ownAlias_issued]; exact h.2.1, h.2.2.1, State.noAcquire_issued h.2.2.2 len⟩
theorem State.bad_wr {s : State} {k n k' : Nat} {bs : List Byte} (h : s.bad k n = false) : (s.wr k' bs).bad k n = false := by
  unfold State.bad at *
  have hl : ∀ j, (s.wr k' bs).lostStack j = s.lostStack j := fun _ => rfl
  rw [hl, hl]
  simp only [Bool.or_eq_false_iff] at h ⊢
  refine ⟨⟨?_, h.1.2⟩, h.2⟩
  have h1 := h.1.1
  by_cases he : s.ue.isEmpty = true
  · have : (s.wr k' bs).ue = [] := by simp [State.wr, he]
    simp [this]
  · simp only [he, Bool.not_false, Bool.true_and] at h1
    have hsub : ∀ l, (s.wr k' bs).ue.contains l = true → s.ue.contains l = true := by
      intro l hl
      simp only [State.wr, he, Bool.false_eq_true, if_false, List.contains_iff_mem, List.mem_filter] at hl ⊢
      exact hl.1
    rw [Bool.and_eq_false_iff]; right
    rw [List.any_eq_false] at h1 ⊢
    intro x hx hxx
    exact h1 x hx (hsub x hxx)
theorem State.badPart_bad {s : State} {k n : Nat} (h : s.bad k n = false) : s.badPart k n = false := by
  unfold State.bad at h
  unfold State.badPart
  simp only [Bool.or_eq_false_iff, Bool.and_eq_false_iff, List.any_eq_false] at h ⊢
  refine ⟨⟨h.1.1.imp_right ?_, h.1.2⟩, h.2⟩
  intro hn x hx hxx
  rw [Bool.and_eq_true] at hxx
  exact hn x hx hxx.1
theorem State.spanFree_wr {s : State} {off n k : Nat} {bs : List Byte} (h : s.spanFree off n) : (s.wr k bs).spanFree off n :=
  ⟨h.1, h.2.1, State.bad_wr h.2.2.1, h.2.2.2⟩
theorem Act.readSpad_free {s : State} {off n : Nat} (h : s.spanFree off n) (here : Word) :
    Act.readSpad here off n s = .ok (s.rd (spadKey s.pid off) n, s) := by
  unfold Act.readSpad
  rw [Act.bind_ok (Act.gate_open h.2.2.2), Act.bind_ok (Act.ownBytes_free h.1 h.2.1), Act.bind_ok (Act.get_apply s), Act.bind_ok (Act.get_apply s), h.2.2.1,
    Act.bind_ok (Act.check_false _ _), Act.bind_ok (Act.get_apply s)]
  rfl
theorem Act.writeSpad_free {s : State} {off : Nat} {bs : List Byte} (h : s.spanFree off bs.length) (here : Word) :
    Act.writeSpad here off bs s = .ok ((), s.wr (spadKey s.pid off) bs) := by
  unfold Act.writeSpad
  rw [Act.bind_ok (Act.gate_open h.2.2.2), Act.bind_ok (Act.ownBytes_free h.1 h.2.1), Act.bind_ok (Act.get_apply s), Act.bind_ok (Act.get_apply s),
    State.badPart_bad h.2.2.1, Act.bind_ok (Act.check_false _ _)]
  rfl

/-! ### Places -/

theorem State.Placed.issued {s : State} {acc : Acc} {ea : Word} {n : Nat} {h : Home} {l : Option Leaf} (hp : s.Placed acc ea n h l) (len : Nat) :
    (s.issued len).Placed acc ea n h l := by
  unfold State.Placed; rw [State.issued_space, State.issued_stat]; exact hp
theorem Act.place_at {s : State} {acc : Acc} {ea : Word} {n : Nat} {h : Home} {l : Option Leaf} (hp : s.Placed acc ea n h l) :
    Act.place acc false ea n true true s = .ok ((h, ea), s.translated ea l) := by
  unfold Act.place
  simp only [Bool.false_and, Bool.false_eq_true, if_false]
  rw [show s.locate s.pid s.ctx.space.ptroot s.ctx.stat.sup acc ea n true true = .ok (h, l) from hp]
  cases l <;> rfl
theorem State.ownAlias_translated (s : State) (ea : Word) (l : Option Leaf) (k n : Nat) : (s.translated ea l).ownAlias k n = s.ownAlias k n := by
  cases l <;> rfl
theorem State.keyHeld_translated (s : State) (ea : Word) (l : Option Leaf) (k : Nat) : (s.translated ea l).keyHeld k = s.keyHeld k := by
  cases l <;> rfl
theorem State.rdW_translated (s : State) (ea : Word) (l : Option Leaf) (k : Nat) : (s.translated ea l).rdW k = s.rdW k := by
  cases l <;> rfl
theorem State.translated_sys (s : State) (ea : Word) (l : Option Leaf) : (s.translated ea l).sys = s.sys := by cases l <;> rfl
theorem State.translated_net (s : State) (ea : Word) (l : Option Leaf) : (s.translated ea l).net = s.net := by cases l <;> rfl
theorem State.coreAt_translated (s : State) (ea : Word) (l : Option Leaf) (p : Nat) :
    ∃ tlb, (s.translated ea l).coreAt p = { s.coreAt p with tlb := tlb } := by
  cases l with
  | none => exact ⟨_, rfl⟩
  | some l =>
    unfold State.translated State.fillTlb
    have : ∀ (t : State) (d : Nat) (f : Die → Die), (t.modDieAt d f).coreAt p = t.coreAt p := fun _ _ _ => rfl
    rw [this]
    by_cases h : p = s.pid
    · subst h; exact ⟨_, State.coreAt_modCoreAt _ _ _⟩
    · unfold State.modCoreAt; rw [State.coreAt_setCoreAt_ne _ _ h]; exact ⟨_, rfl⟩
theorem State.acquiring_translated (s : State) (ea : Word) (l : Option Leaf) (p act : Nat) :
    (s.translated ea l).acquiring p act = s.acquiring p act := by
  obtain ⟨t, ht⟩ := s.coreAt_translated ea l p
  unfold State.acquiring
  rw [ht]
  cases l <;> rfl
theorem State.marked_translated (s : State) (ea : Word) (l : Option Leaf) (p off n : Nat) : (s.translated ea l).marked p off n = s.marked p off n := by
  obtain ⟨t, ht⟩ := s.coreAt_translated ea l p
  unfold State.marked
  rw [ht]

theorem State.readHeld_issued (s : State) (len pid act : Nat) (h : Home) (n : Nat) :
    (s.issued len).readHeld pid act h n = s.readHeld pid act h n := by
  cases h <;> rfl
theorem State.noAcquire_translated {s : State} (h : s.noAcquire) (ea : Word) (l : Option Leaf) : (s.translated ea l).noAcquire := by
  unfold State.noAcquire; rw [State.translated_ctx, State.translated_pid, State.acquiring_translated]; exact h
theorem State.readHeld_translated (s : State) (ea : Word) (l : Option Leaf) (pid act : Nat) (h : Home) (n : Nat) :
    (s.translated ea l).readHeld pid act h n = s.readHeld pid act h n := by
  cases h with
  | spad p off => simp only [State.readHeld, State.marked_translated]; cases l <;> rfl
  | _ => cases l <;> rfl

theorem State.Watchable.issued {s : State} {ea : Word} {h : Home} {l : Option Leaf} (hw : s.Watchable ea h l) (len : Nat) :
    (s.issued len).Watchable ea h l where
  at_ := hw.at_.issued len
  gate := State.noAcquire_issued hw.gate len
  memory := hw.memory
  free := by rw [State.readHeld_issued, State.issued_act]; exact hw.free
  good := hw.good

theorem Act.reach_free {s : State} {h : Home} {n : Nat} (hr : s.readHeld s.pid s.ctx.act h n = false) : Act.reach h n s = .ok ((), s) := by
  unfold Act.reach
  cases h with
  | spad q off =>
    have hm : s.marked q off n = false := by
      simp only [State.readHeld, Bool.or_eq_false_iff] at hr; exact hr.1.1.1.1
    simp [hm, hr]
  | _ => simp [hr]

/-- A read at issue of bytes of a memory, with nothing to wait for and no error (05 R133). -/
theorem Act.readNow_memory {s : State} {h : Home} {n : Nat} (hm : h.outside = false ∧ h.isRegs = false)
    (hr : s.readHeld s.pid s.ctx.act h n = false) (hb : s.bad (h.readKey s.sys.lead s.pid) n = false) (ea : Word) (fresh : Bool) :
    Act.readNow h n ea fresh s = .ok ((s.rdN (h.readKey s.sys.lead s.pid) n, false), s) := by
  unfold Act.readNow
  have h1 : s.readHome s.pid h n fresh = (s, s.rd (h.readKey s.sys.lead s.pid) n, false) := by
    unfold State.readHome
    cases h with
    | regs off => simp [Home.isRegs] at hm
    | _ => simp only [hm.1, hb, Bool.false_eq_true, if_false]
  cases h with
  | regs off => simp [Home.isRegs] at hm
  | _ =>
    simp only []
    rw [Act.bind_ok (Act.reach_free hr), Act.bind_ok (Act.get_apply s), h1]
    rfl

/-- A read at issue of bytes of the own scratchpad that nothing keeps from it. -/
theorem Act.readNow_own {s : State} {off n : Nat} (h1 : s.marked s.pid off n = false) (h2 : s.ownAlias (spadKey s.pid off) n = false)
    (h3 : s.bad (spadKey s.pid off) n = false) (ea : Word) (fresh : Bool) :
    Act.readNow (.spad s.pid off) n ea fresh s = .ok ((s.rdN (spadKey s.pid off) n, false), s) :=
  Act.readNow_memory (h := .spad s.pid off) ⟨rfl, rfl⟩ (by
    have h4 : s.aliasOf s.ctx.act (spadKey s.pid off) n = false := h2
    simp [State.readHeld, h1, h4, State.repOpen, State.homeDown, State.homeLost, Home.readKey, Home.key_spad]) h3 ea fresh

/-- The read of WAITA and JOINW (05 R133). -/
theorem Act.watchRead_at {s : State} {ea : Word} {h : Home} {l : Option Leaf} (hw : s.Watchable ea h l) :
    Act.watchRead ea s = .ok ((s.wordAt h, false, lineOf (h.readKey s.sys.lead s.pid)), s.translated ea l) := by
  have hn := Act.readNow_memory (s := s.translated ea l) hw.memory
    (by rw [State.readHeld_translated, State.translated_pid, State.translated_ctx]; exact hw.free)
    (by rw [State.bad_translated, State.translated_pid, State.translated_sys]; exact hw.good) ea true
  unfold Act.watchRead
  rw [Act.bind_ok (Act.gate_open hw.gate), Act.bind_ok (Act.place_at hw.at_)]
  simp only []
  rw [Act.bind_ok hn, State.translated_sys, State.translated_pid]
  simp only []
  rw [Act.bind_ok (Act.get_apply _), State.translated_sys, State.translated_pid]
  unfold State.wordAt
  rw [← State.rdW_translated s ea l]
  rfl

/-! ### Answers and packets -/

theorem Act.await_apply {s t : State} {sp : Bool} {w : Wait} : Act.await s.here sp w t = .error (.stop (s.awaiting t sp w)) := rfl
theorem State.resolve_issued (s : State) (len : Nat) :
    (s.issued len).resolve (s.issued len).ctx.ident.launch.toNat = s.resolve s.ctx.ident.launch.toNat := by
  rw [State.issued_ident]; rfl
theorem State.lidBad_issued (s : State) (len lid : Nat) : (s.issued len).lidBad lid = s.lidBad lid := by
  unfold State.lidBad; rw [State.issued_ident]

theorem Act.send_apply (s : State) (lid : Nat) (b : Body) :
    Act.send lid b (s.issued 4) = if (s.resolve s.ctx.ident.launch.toNat lid).2 then
      (if 32 ≤ (s.net.held.filter (fun h => h.pkt.src == s.pid)).length then .error (.wait .room) else .ok ((), (s.issued 4).kept lid b))
      else .ok ((), (s.issued 4).sent lid b) := by
  unfold Act.send State.kept State.sent
  rw [Act.bind_ok (Act.get_apply _)]
  rw [State.resolve_issued]
  by_cases h : (s.resolve s.ctx.ident.launch.toNat lid).2 = true
  · simp only [h, if_true]
    rw [Act.bind_apply, Act.waitIf_apply]
    by_cases h2 : 32 ≤ (s.net.held.filter (fun h => h.pkt.src == s.pid)).length
    · simp [h2]
    · simp [h2, State.packet]
  · simp only [h, Bool.false_eq_true, if_false]
    simp [State.packet]

theorem State.sends_of {s : State} {i : Instr} {sp : Bool} {lid : Nat} {b : Body} {m : Act Unit}
    (hi : exec i s = issue s sp 4 m) (hm : m (s.issued 4) = Act.send lid b (s.issued 4)) : s.Sends i sp lid b (fun t => t.switch sp) := by
  rw [Act.send_apply] at hm
  refine ⟨fun h => ?_, fun h => ⟨fun h2 => ?_, fun h2 => ?_⟩⟩
  · rw [hi]; apply issue_ok; rw [hm, h]; rfl
  · rw [hi]; apply issue_ok; rw [hm, h, if_pos rfl, if_neg (by omega)]
  · rw [hi]; apply issue_wait; rw [hm, h, if_pos rfl, if_pos h2]

/-- A send that other operations follow. -/
theorem State.sends_then {s : State} {i : Instr} {sp : Bool} {lid : Nat} {b : Body} {m k : Act Unit} {f : State → State}
    (hi : exec i s = issue s sp 4 m) (hm : m (s.issued 4) = (Act.send lid b >>= fun _ => k) (s.issued 4))
    (hk : ∀ t, t = (s.issued 4).sent lid b ∨ t = (s.issued 4).kept lid b → s.settle sp (k t) = f t) : s.Sends i sp lid b f := by
  have hb : ∀ r, r = (s.issued 4).sent lid b ∨ r = (s.issued 4).kept lid b → Act.send lid b (s.issued 4) = .ok ((), r) → exec i s = .next (f r) := by
    intro r h0 hr
    rw [hi, ← hk r h0]; unfold issue
    rw [← hm.trans (Act.bind_ok hr)]; rfl
  have he : Act.send lid b (s.issued 4) = .error (.wait .room) → exec i s = .next ((s.block .room sp).switch sp) := by
    intro hr
    rw [hi]; apply issue_wait; rw [hm, Act.bind_error hr]
  refine ⟨fun h => ?_, fun h => ⟨fun h2 => ?_, fun h2 => ?_⟩⟩
  · apply hb _ (.inl rfl); rw [Act.send_apply, h]; rfl
  · apply hb _ (.inr rfl); rw [Act.send_apply, h, if_pos rfl, if_neg (by omega)]
  · apply he; rw [Act.send_apply, h, if_pos rfl, if_pos h2]

/-! ### Fields of a word -/

theorem fld_hi {x : Word} {n : Nat} (h : x.toNat < 2 ^ n) : fld x 63 n = 0 := by
  simp only [fld, bitsOf]
  rw [Nat.div_eq_of_lt h]; simp
theorem fld_hi_ne {x : Word} {n : Nat} (h : 2 ^ n ≤ x.toNat) (hn : n ≤ 63) : fld x 63 n ≠ 0 := by
  have h2 := x.isLt
  simp only [fld, bitsOf]
  have h1 : 1 ≤ x.toNat / 2 ^ n := (Nat.le_div_iff_mul_le (Nat.two_pow_pos n)).2 (by omega)
  have h3 : x.toNat / 2 ^ n < 2 ^ (63 + 1 - n) := by
    rw [Nat.div_lt_iff_lt_mul (Nat.two_pow_pos n), ← Nat.pow_add]
    have : 63 + 1 - n + n = 64 := by omega
    rw [this]; exact h2
  rw [Nat.mod_eq_of_lt h3]; omega
theorem eq_true_of_not {b : Bool} (h : ¬ b = false) : b = true := by cases b <;> simp_all

/-! ### Frames and records in place (06 R166) -/

theorem State.partsFree_issued {s : State} {l : List (Nat × Nat)} (h : s.partsFree l) (len : Nat) : (s.issued len).partsFree l :=
  fun e he => ⟨(h e he).1, by rw [State.ownAlias_issued]; exact (h e he).2.1, (h e he).2.2⟩

theorem Act.spans_free {s : State} {l : List (Nat × Nat)} (h : s.partsFree l) (here : Word) : Act.spans here l s = .ok ((), s) := by
  induction l with
  | nil => rfl
  | cons e l ih =>
    obtain ⟨h1, h2, h3⟩ := h e (by simp)
    unfold Act.spans
    rw [Act.bind_ok (Act.ownBytes_free h1 h2), Act.bind_ok (Act.get_apply s), Act.bind_ok (Act.get_apply s), State.badLocal, h3,
      Act.bind_ok (Act.check_false _ _)]
    exact ih (fun x hx => h x (by simp [hx]))

theorem Act.tokenSpan_free {s : State} {t : Word} (h : s.partsFree (tokenParts t)) (here : Word) : Act.tokenSpan here t s = .ok ((), s) := by
  unfold Act.tokenSpan
  unfold tokenParts at h
  split
  · rename_i hc
    rw [if_pos (show fld t 5 4 < 2 ∧ fld t 3 0 = 0 ∧ fld t 47 6 * 64 < 0x180000 from hc)] at h
    exact Act.spans_free h here
  · rfl

@[simp] theorem State.frameAt_issued (s : State) (len pid off : Nat) : (s.issued len).frameAt pid off = s.frameAt pid off := rfl

theorem State.framesTo_issued (s : State) (len pid stop_ : Nat) : ∀ n off, (s.issued len).framesTo pid stop_ n off = s.framesTo pid stop_ n off := by
  intro n
  induction n with
  | zero => intro off; rfl
  | succ n ih => intro off; rw [State.framesTo, State.framesTo]; simp only [ih, State.frameAt_issued]

theorem State.search_issued (s : State) (len pid : Nat) (sup : Bool) (e : Nat) : ∀ n off, (s.issued len).search pid sup e n off = s.search pid sup e n off := by
  intro n
  induction n with
  | zero => intro off; rfl
  | succ n ih =>
    intro off
    rw [State.search, State.search]
    simp only [ih, State.frameAt_issued, State.badLocal, State.bad_issued]; rfl

theorem State.searchPath_issued (s : State) (len pid : Nat) (sup : Bool) (e : Nat) : ∀ n off,
    (s.issued len).searchPath pid sup e n off = s.searchPath pid sup e n off := by
  intro n
  induction n with
  | zero => intro off; rfl
  | succ n ih =>
    intro off
    rw [State.searchPath, State.searchPath]
    simp only [ih, State.frameAt_issued]; rfl

theorem State.segHeld_issued (s : State) (len pid : Nat) (acc : Acc) : ∀ n ea,
    (s.issued len).segHeld pid (s.issued len).ctx acc ea n = s.segHeld pid s.ctx acc ea n := by
  intro n
  induction n with
  | zero => intro ea; rfl
  | succ n ih =>
    intro ea
    have : (s.issued len).stackByte pid (s.issued len).ctx acc ea = s.stackByte pid s.ctx acc ea := by
      unfold State.stackByte
      rw [State.issued_stat, State.issued_space]; rfl
    rw [State.segHeld, State.segHeld, ih, this]
    simp only [State.readHeld_issued, State.issued_act]

theorem State.deliveryHeld_issued (s : State) (len : Nat) (r : Raise) :
    (s.issued len).deliveryHeld s.pid s.cx r = s.deliveryHeld s.pid s.cx r := by
  have h : (s.issued len).ctxAt s.pid s.cx = (s.issued len).ctx := rfl
  have h' : s.ctxAt s.pid s.cx = s.ctx := rfl
  have hl : ∀ act l, (s.issued len).localHeld s.pid act l = s.localHeld s.pid act l := fun _ _ => rfl
  unfold State.deliveryHeld
  rw [h, h']
  simp only [hl, State.searchPath_issued, State.search_issued, State.segHeld_issued, State.issued_act, State.issued_stat, State.issued_hf,
    State.issued_g]

end Sys2Proof.Machine
end

