-- ==== Sys2Proof/Laws/Entry.lean ====
section
/-! SUPPORT. Laws of taking an effect: what the entry to a handler writes and what it leaves alone. -/

set_option Elab.async false

namespace Sys2Proof.Machine

theorem getP_setP (r : Regs) (i j : PReg) (x : Word) : (r.setP i x).getP j = if j = i ∧ j ≠ 0 then x else r.getP j := by
  by_cases hi : i = 0
  · subst hi
    by_cases hj : j = 0 <;> simp [Regs.setP, hj]
  · by_cases hj : j = 0
    · subst hj
      simp [Regs.getP]
    · simp only [Regs.setP, Regs.getP, hi, hj, if_false, ne_eq, not_false_eq_true, and_true]
      by_cases h : j = i
      · subst h; simp
      · have hne : i.toNat ≠ j.toNat := fun e => h (BitVec.eq_of_toNat_eq e.symm)
        simp [h, Vector.getElem_set_ne, hne]

theorem getG_setP (r : Regs) (i : PReg) (j : Reg) (x : Word) : (r.setP i x).getG j = r.getG j := by
  unfold Regs.setP; split <;> rfl
theorem getP_setG (r : Regs) (i : Reg) (j : PReg) (x : Word) : (r.setG i x).getP j = r.getP j := by
  unfold Regs.setG; split <;> rfl
theorem v_setP (r : Regs) (i : PReg) (x : Word) : (r.setP i x).v = r.v := by unfold Regs.setP; split <;> rfl
theorem v_setG (r : Regs) (i : Reg) (x : Word) : (r.setG i x).v = r.v := by unfold Regs.setG; split <;> rfl

theorem enter_regs (c : Ctx) (r : Raise) (tk g4 pc : Word) (sup : Bool) : EntryRegisters (c.enter r tk g4 pc sup) r tk g4 pc sup := by
  refine ⟨rfl, rfl, ?_, ?_, ?_, ?_, ?_, rfl, rfl, rfl⟩ <;>
    simp [Ctx.enter, Ctx.setG, Ctx.setP, Ctx.g, getG_setP, Regs.getG_setG, getP_setP]

theorem enter_kept (c : Ctx) (r : Raise) (tk g4 pc : Word) (sup : Bool) : KeptByEntry c (c.enter r tk g4 pc sup) := by
  refine ⟨fun i h0 h1 h2 h3 h4 _ => ?_, fun i h => ?_, ?_, rfl, ⟨rfl, rfl⟩, rfl, rfl, ⟨rfl, rfl, rfl⟩, rfl, rfl⟩
  · have h1 : ¬ i = 1#5 := h1
    have h2 : ¬ i = 2#5 := h2
    have h3 : ¬ i = 3#5 := h3
    have h4 : ¬ i = 4#5 := h4
    simp [Ctx.enter, Ctx.setG, Ctx.setP, Ctx.g, getG_setP, Regs.getG_setG, h1, h2, h3, h4]
  · have h : ¬ i = 7#3 := h
    simp [Ctx.enter, Ctx.setG, Ctx.setP, getP_setG, getP_setP, h]
  · simp [Ctx.enter, Ctx.setG, Ctx.setP, v_setG, v_setP]

theorem enter_g31 (c : Ctx) (r : Raise) (tk g4 pc : Word) (sup : Bool) : (c.enter r tk g4 pc sup).g 31 = c.g 31 := by
  simp [Ctx.enter, Ctx.setG, Ctx.setP, Ctx.g, getG_setP, Regs.getG_setG]

theorem token_sys (gen : Nat) (h : gen < 2 ^ 16) : token gen 0 2 = W (gen * 2 ^ 48 + 2 * 16) := by
  unfold token; rw [Nat.mod_eq_of_lt h, Nat.zero_div, Nat.zero_mod, Nat.zero_mul, Nat.add_zero]

theorem toSystem_entered {s : State} (hr : s.SystemReady) (r : Raise) (pc : Word) (async : Bool) :
    EnteredSystem s (s.toSystem s.pid s.cx r pc async none) r pc := by
  obtain ⟨h1, h2⟩ := hr
  have h2' : ¬ (s.ctxAt s.pid s.cx).sysBusy = true := by
    have : (s.ctxAt s.pid s.cx).sysBusy = false := h2
    rw [this]; decide
  have h1' : ¬ (s.coreAt s.pid).shandler = 0 := h1
  unfold State.toSystem
  rw [if_neg h1', if_neg h2']
  cases hstk : r.stk
  · simp only [Bool.false_eq_true, if_false]
    have hx : ∀ c, (s.setCtxAt s.pid s.cx c).ctx = c := fun c => State.ctx_setCtx s c
    refine ⟨?_, ?_, ?_, ?_, ?_, ?_, ?_, rfl, ⟨rfl, rfl, rfl, rfl, rfl⟩⟩
    · rw [hx]
      have := token_sys ((s.ctxAt s.pid s.cx).sysGen + 1).toNat (BitVec.isLt _)
      have h := enter_regs { s.ctxAt s.pid s.cx with
        sysRec := { (s.ctxAt s.pid s.cx).capture s.cx r pc none with gen := ((s.ctxAt s.pid s.cx).sysGen + 1).toNat }, sysGen := (s.ctxAt s.pid s.cx).sysGen + 1, sysBusy := true, hframe := 1,
        shFrom := if r.eff = Eff.watchdog then 0 else s.time - (s.ctxAt s.pid s.cx).shFrom,
                        late := Tab.set (s.ctxAt s.pid s.cx).late 1 0, origin := Tab.set (s.ctxAt s.pid s.cx).origin 1 s.pid,
                        barw := Tab.set (s.ctxAt s.pid s.cx).barw 1 (s.ctxAt s.pid s.cx).asBarw, asBarw := false } r (token ((s.ctxAt s.pid s.cx).sysGen + 1).toNat 0 2) r.addr (s.coreAt s.pid).shandler true
      rw [this] at h
      rw [this]
      exact h
    · rw [hx]; exact ⟨rfl, rfl, ⟨rfl, rfl, rfl⟩, rfl, ⟨rfl, rfl⟩, ⟨rfl, rfl⟩, ⟨rfl, rfl⟩, rfl, ⟨rfl, rfl, rfl⟩⟩
    · rw [hx]; exact ⟨rfl, rfl⟩
    · rw [hx]; exact ⟨rfl, rfl, rfl⟩
    · rw [hx]; refine ⟨fun h => Bool.noConfusion (hstk.symm.trans h), fun _ => ⟨by rw [enter_g31]; rfl, rfl⟩⟩
    · rw [hx]
      have := enter_kept { s.ctxAt s.pid s.cx with
        sysRec := { (s.ctxAt s.pid s.cx).capture s.cx r pc none with gen := ((s.ctxAt s.pid s.cx).sysGen + 1).toNat }, sysGen := (s.ctxAt s.pid s.cx).sysGen + 1, sysBusy := true, hframe := 1,
        shFrom := if r.eff = Eff.watchdog then 0 else s.time - (s.ctxAt s.pid s.cx).shFrom,
                        late := Tab.set (s.ctxAt s.pid s.cx).late 1 0, origin := Tab.set (s.ctxAt s.pid s.cx).origin 1 s.pid,
                        barw := Tab.set (s.ctxAt s.pid s.cx).barw 1 (s.ctxAt s.pid s.cx).asBarw, asBarw := false } r (token ((s.ctxAt s.pid s.cx).sysGen + 1).toNat 0 2) r.addr (s.coreAt s.pid).shandler true
      exact ⟨this.g, this.p, this.v, this.num, this.calls, this.bits, this.queues, this.ident, this.tx, this.space⟩
    · exact fun q y hq => State.ctxAt_setCtxAt_ne _ _ hq
  · simp only [if_true]
    have hx : ∀ c, (s.setCtxAt s.pid s.cx c).ctx = c := fun c => State.ctx_setCtx s c
    let c1 : Ctx := { s.ctxAt s.pid s.cx with
        sysRec := { (s.ctxAt s.pid s.cx).capture s.cx r pc none with gen := ((s.ctxAt s.pid s.cx).sysGen + 1).toNat }, sysGen := (s.ctxAt s.pid s.cx).sysGen + 1, sysBusy := true, hframe := 1,
        shFrom := if r.eff = Eff.watchdog then 0 else s.time - (s.ctxAt s.pid s.cx).shFrom,
                        late := Tab.set (s.ctxAt s.pid s.cx).late 1 0, origin := Tab.set (s.ctxAt s.pid s.cx).origin 1 s.pid,
                        barw := Tab.set (s.ctxAt s.pid s.cx).barw 1 (s.ctxAt s.pid s.cx).asBarw, asBarw := false }
    let c2 : Ctx := { c1.setG 31 (s.ctxAt s.pid s.cx).space.skhi with stat := { c1.stat with emrg := true } }
    refine ⟨?_, ?_, ?_, ?_, ?_, ?_, ?_, rfl, ⟨rfl, rfl, rfl, rfl, rfl⟩⟩
    · rw [hx]
      have := token_sys ((s.ctxAt s.pid s.cx).sysGen + 1).toNat (BitVec.isLt _)
      have h := enter_regs c2 r (token ((s.ctxAt s.pid s.cx).sysGen + 1).toNat 0 2) r.addr (s.coreAt s.pid).shandler true
      rw [this] at h
      rw [this]
      exact h
    · rw [hx]; exact ⟨rfl, rfl, ⟨rfl, rfl, rfl⟩, rfl, ⟨rfl, rfl⟩, ⟨rfl, rfl⟩, ⟨rfl, rfl⟩, rfl, ⟨rfl, rfl, rfl⟩⟩
    · rw [hx]; exact ⟨rfl, rfl⟩
    · rw [hx]; exact ⟨rfl, rfl, rfl⟩
    · rw [hx]; refine ⟨fun _ => ⟨?_, rfl⟩, fun h => Bool.noConfusion (hstk.symm.trans h)⟩
      rw [enter_g31]
      show (c1.setG 31 _).g 31 = _
      rw [Ctx.g_setG]; simp; rfl
    · rw [hx]
      have := enter_kept c2 r (token ((s.ctxAt s.pid s.cx).sysGen + 1).toNat 0 2) r.addr (s.coreAt s.pid).shandler true
      refine ⟨fun i h0 h1 h2 h3 h4 h5 => ?_, fun i h => ?_, ?_, this.num, this.calls, this.bits, this.queues, this.ident, this.tx, this.space⟩
      · rw [this.g i h0 h1 h2 h3 h4 h5]
        show (c1.setG 31 _).g i = _
        have h5 : ¬ i = 31#5 := h5
        rw [Ctx.g_setG]; simp [h5]; rfl
      · rw [this.p i h]
        show (c1.regs.setG 31 _).getP i = _
        rw [getP_setG]; rfl
      · rw [this.v]
        show (c1.regs.setG 31 _).v = _
        rw [v_setG]; rfl
    · exact fun q y hq => State.ctxAt_setCtxAt_ne _ _ hq

end Sys2Proof.Machine
end

