-- ==== Sys2Proof/Laws/ScalarResults.lean ====
section
/-! SUPPORT. What instructions of one general-register result answer. -/

set_option Elab.async false

namespace Sys2Proof.Machine

theorem binOp_clean {s : State} (h : s.Clean) (sp : Bool) (len : Nat) (d a b : Reg) (f : Word → Word → Word) :
    binOp s sp len d a b f = .next (s.after sp len (fun c => c.setG d (f (s.ctx.g a) (s.ctx.g b)))) := by
  have h1 := h.issued len
  apply issue_after
  simp [Act.bind_apply, Act.rdG_clean h1, Act.wrG_clean h1]

theorem after_congr {s : State} {sp : Bool} {len : Nat} {f g : Ctx → Ctx} (h : f (s.issued len).ctx = g (s.issued len).ctx) :
    s.after sp len f = s.after sp len g := by
  unfold State.after State.modCtx State.modCtxAt
  have : (s.issued len).ctxAt (s.issued len).pid (s.issued len).cx = (s.issued len).ctx := rfl
  rw [this, h]

theorem mulh_eq (x y : Word) : mulh x y = BitVec.extractLsb' 64 64 (x.signExtend 128 * y.signExtend 128) := by
  unfold mulh
  apply BitVec.eq_of_toNat_eq
  rw [BitVec.extractLsb'_toNat, BitVec.toNat_ofInt]
  have e : (x.signExtend 128 * y.signExtend 128).toNat = ((x.toInt * y.toInt) % 2^128).toNat := by
    have hx : (x.signExtend 128).toInt = x.toInt := by
      rw [BitVec.toInt_signExtend_of_le (by omega)]
    have hy : (y.signExtend 128).toInt = y.toInt := by
      rw [BitVec.toInt_signExtend_of_le (by omega)]
    rw [BitVec.toNat_mul]
    have h1 := BitVec.toInt_eq_toNat_bmod (x.signExtend 128)
    have h2 := BitVec.toInt_eq_toNat_bmod (y.signExtend 128)
    rw [hx] at h1; rw [hy] at h2
    have : ((x.toInt * y.toInt) % 2^128) = (((x.signExtend 128).toNat * (y.signExtend 128).toNat : Nat) : Int) % 2^128 := by
      rw [h1, h2, Int.mul_emod]
      have k : ∀ z : Int, Int.bmod z (2^128) % 2^128 = z % 2^128 := fun z => by
        have := Int.bmod_emod (x := z) (m := 2^128); simpa using this
      rw [k, k, ← Int.mul_emod]
      simp
    rw [this]; rfl
  rw [e, Nat.shiftRight_eq_div_pow]
  generalize x.toInt * y.toInt = z
  have : (0:Int) ≤ z % 2^128 := Int.emod_nonneg _ (by decide)
  omega

theorem mulhu_eq (x y : Word) : mulhu x y = BitVec.extractLsb' 64 64 (x.setWidth 128 * y.setWidth 128) := by
  unfold mulhu
  apply BitVec.eq_of_toNat_eq
  have hx := x.isLt
  have hy := y.isLt
  have : x.toNat * y.toNat < 2^128 := by
    calc x.toNat * y.toNat < 2^64 * 2^64 := Nat.mul_lt_mul'' hx hy
      _ = 2^128 := by decide
  simp only [BitVec.extractLsb'_toNat, BitVec.toNat_setWidth, BitVec.toNat_mul, BitVec.toNat_ofNat, Nat.shiftRight_eq_div_pow]
  rw [Nat.mod_eq_of_lt (a := x.toNat) (by omega), Nat.mod_eq_of_lt (a := y.toNat) (by omega), Nat.mod_eq_of_lt (a := x.toNat * y.toNat) this]

theorem count_eq (y : Word) : count y = fld y 5 0 := by simp [count, fld, bitsOf]

theorem smin_eq (x y : Word) : smin x y = if x.toInt ≤ y.toInt then x else y := by
  simp only [smin, BitVec.slt_iff_toInt_lt]
  by_cases h : x.toInt < y.toInt
  · rw [if_pos h, if_pos (by omega)]
  · rw [if_neg h]; split
    · apply BitVec.eq_of_toInt_eq; omega
    · rfl

theorem smax_eq (x y : Word) : smax x y = if x.toInt ≤ y.toInt then y else x := by
  simp only [smax, BitVec.slt_iff_toInt_lt]
  by_cases h : x.toInt < y.toInt
  · rw [if_pos h, if_pos (by omega)]
  · rw [if_neg h]; split
    · apply BitVec.eq_of_toInt_eq; omega
    · rfl

theorem umin_eq (x y : Word) : umin x y = if x.toNat ≤ y.toNat then x else y := by
  simp only [umin, BitVec.ult_iff_toNat_lt]
  by_cases h : x.toNat < y.toNat
  · rw [if_pos h, if_pos (by omega)]
  · rw [if_neg h]; split
    · apply BitVec.eq_of_toNat_eq; omega
    · rfl

theorem umax_eq (x y : Word) : umax x y = if x.toNat ≤ y.toNat then y else x := by
  simp only [umax, BitVec.ult_iff_toNat_lt]
  by_cases h : x.toNat < y.toNat
  · rw [if_pos h, if_pos (by omega)]
  · rw [if_neg h]; split
    · apply BitVec.eq_of_toNat_eq; omega
    · rfl

theorem binaryResults_rules :
    ∀ (s : State) (sp : Bool) (d a b : Reg), s.Clean →
    (∀ r ∈ binaryRows, exec (r.1 sp d a b) s = .next (s.after sp 4 (fun c => c.setG d (r.2 (s.ctx.g a) (s.ctx.g b)))))
    ∧ (∀ r ∈ compactRows, exec (r.1 sp d a) s = .next (s.after sp 2 (fun c => c.setG d (r.2 (s.ctx.g d) (s.ctx.g a)))))
    ∧ exec (.sel sp d a b) s = .next (s.after sp 4 (fun c => c.setG d (if s.ctx.g d = 0 then s.ctx.g b else s.ctx.g a))) := by
  intro s sp d a b h
  refine ⟨?_, ?_, ?_⟩
  · simp only [binaryRows, List.cons_append, List.nil_append, List.forall_mem_cons]
    refine ⟨?_, ?_, ?_, ?_, ?_, ?_, ?_, ?_, ?_, ?_, ?_, ?_, ?_, ?_, ?_, ?_, ?_, ?_, ?_, ?_, ?_, ?_, ?_, ?_, ?_, fun _ h => nomatch h⟩ <;>
      refine (binOp_clean h sp 4 d a b _).trans (congrArg _ (congrArg (fun x => s.after sp _ (fun c => c.setG d x)) ?_))
    all_goals try dsimp only
    all_goals generalize s.ctx.g a = x
    all_goals generalize s.ctx.g b = y
    · apply BitVec.eq_of_toNat_eq; simp
    · apply BitVec.eq_of_toInt_eq; simp
    · apply BitVec.eq_of_toNat_eq; simp
    · exact mulh_eq x y
    · exact mulhu_eq x y
    · rw [count_eq]
    · rw [count_eq]
    · rw [count_eq]
    · rw [count_eq]
    · rw [count_eq]
    · exact smin_eq x y
    · exact smax_eq x y
    · exact umin_eq x y
    · exact umax_eq x y
    · by_cases e : x = y <;> simp [b2w, e]
    · by_cases e : x = y <;> simp [b2w, e]
    · simp [b2w, BitVec.slt_iff_toInt_lt]
    · by_cases e : x.toInt < y.toInt <;> simp [b2w, BitVec.slt_iff_toInt_lt, e]
    · simp [b2w, BitVec.ult_iff_toNat_lt]
    · by_cases e : x.toNat < y.toNat <;> simp [b2w, BitVec.ult_iff_toNat_lt, e]
  · simp only [compactRows, List.forall_mem_cons]
    refine ⟨?_, ?_, ?_, ?_, ?_, ?_, fun _ h => nomatch h⟩
    · refine (binOp_clean h sp 2 d d a _).trans (congrArg _ (congrArg (fun x => s.after sp _ (fun c => c.setG d x)) ?_))
      apply BitVec.eq_of_toNat_eq; simp
    · refine (binOp_clean h sp 2 d d a _).trans (congrArg _ (congrArg (fun x => s.after sp _ (fun c => c.setG d x)) ?_))
      apply BitVec.eq_of_toInt_eq; simp
    · exact binOp_clean h sp 2 d d a _
    · refine (binOp_clean h sp 2 d a 0 _).trans (congrArg _ (congrArg (fun x => s.after sp _ (fun c => c.setG d x)) ?_))
      simp [Ctx.g, Regs.getG]
    · exact binOp_clean h sp 2 d d a _
    · refine (binOp_clean h sp 2 d d a _).trans (congrArg _ (congrArg (fun x => s.after sp _ (fun c => c.setG d x)) ?_))
      apply BitVec.eq_of_toNat_eq; simp
  · have h1 := h.issued 4
    show issue _ _ _ _ = _
    apply issue_after
    simp [Act.bind_apply, Act.rdG_clean h1, Act.wrG_clean h1]

end Sys2Proof.Machine
end

