-- ==== Sys2Proof/Laws/ScalarConstants.lean ====
section
/-! SUPPORT. Immediates, constants, comparisons and division corners. -/

set_option Elab.async false

namespace Sys2Proof.Machine

theorem divOp_clean {s : State} (h : s.Clean) (sp : Bool) (d a b : Reg) (f : Word → Word → Word) :
    divOp s sp d a b f = .next (if s.ctx.g b = 0 then s.raised { eff := Eff.divz, arg := s.ctx.g a }
      else s.after sp 4 (fun c => c.setG d (f (s.ctx.g a) (s.ctx.g b)))) := by
  have h1 := h.issued 4
  by_cases hb : s.ctx.g b = 0
  · rw [if_pos hb]
    apply issue_raise h
    simp [Act.bind_apply, Act.rdG_clean h1, Act.check_apply, hb]
  · rw [if_neg hb]
    apply issue_after
    have hc : ¬ s.ctx.g b = 0#64 := hb
    simp [Act.bind_apply, Act.rdG_clean h1, hc, Act.check_apply, Act.wrG_clean h1]

theorem divisionResults_rules :
    ∀ (s : State) (sp : Bool) (d a b : Reg), s.Clean → ∀ r ∈ divisionRows,
    (s.ctx.g b ≠ 0 → exec (r.1 sp d a b) s = .next (s.after sp 4 (fun c => c.setG d (r.2 (s.ctx.g a) (s.ctx.g b)))))
    ∧ (s.ctx.g b = 0 → exec (r.1 sp d a b) s = .next (s.raised { eff := 0x009, arg := s.ctx.g a })) := by
  intro s sp d a b h
  simp only [divisionRows, List.forall_mem_cons]
  refine ⟨?_, ?_, ?_, ?_, fun _ h => nomatch h⟩ <;> constructor <;> intro hb <;>
    refine (divOp_clean h sp d a b _).trans ?_ <;> simp only [hb, if_true, if_false]
  · rfl
  · rfl
  · rfl
  · rfl
  · simp [remS, Int.tmod_def]
  · rfl
  · rfl
  · rfl

theorem unOp_clean {s : State} (h : s.Clean) (sp : Bool) (len : Nat) (d a : Reg) (f : Word → Word) :
    unOp s sp len d a f = .next (s.after sp len (fun c => c.setG d (f (s.ctx.g a)))) := by
  have h1 := h.issued len
  apply issue_after
  simp [Act.bind_apply, Act.rdG_clean h1, Act.wrG_clean h1]

theorem constOp_clean {s : State} (h : s.Clean) (sp : Bool) (len : Nat) (d : Reg) (x : Word) :
    constOp s sp len d x = .next (s.after sp len (fun c => c.setG d x)) :=
  issue_after (Act.wrG_clean (h.issued len) d x)

theorem cond_meets (c : Cond) (x y : Word) : condHolds c x y = true ↔ Cond.meets c x y := by
  cases c <;> simp [condHolds, Cond.meets, BitVec.slt_iff_toInt_lt, BitVec.ult_iff_toNat_lt]
  · rw [← Bool.not_eq_true, BitVec.slt_iff_toInt_lt]; omega
  · rw [← Bool.not_eq_true, BitVec.ult_iff_toNat_lt]; omega

theorem lead0_eq (n x : Nat) : lead0 n x = ((List.range n).takeWhile (fun i => !bitOf x (n - 1 - i))).length := by
  induction n with
  | zero => rfl
  | succ n ih =>
    rw [lead0, List.range_succ_eq_map, List.takeWhile_cons]
    simp only [Nat.add_sub_cancel, Nat.sub_zero]
    by_cases h : bitOf x n
    · simp [h]
    · simp only [h, Bool.false_eq_true, if_false, Bool.not_false, if_true, List.length_cons]
      rw [ih, List.takeWhile_map, List.length_map]
      have : (fun i => !bitOf x (n - 1 - i)) = ((fun i => !bitOf x (n - i)) ∘ Nat.succ) := by
        funext i; simp only [Function.comp]; rw [show n - 1 - i = n - i.succ by omega]
      rw [this]; omega

theorem trail0_eq (n x : Nat) : trail0 n x = ((List.range n).takeWhile (fun i => !bitOf x i)).length := by
  induction n generalizing x with
  | zero => rfl
  | succ n ih =>
    rw [trail0, List.range_succ_eq_map, List.takeWhile_cons]
    by_cases h : x % 2 = 1
    · simp [h, bitOf]
    · have hb : bitOf x 0 = false := by simp [bitOf]; omega
      rw [if_neg h, hb]
      simp only [Bool.not_false, if_true, List.length_cons]
      rw [ih, List.takeWhile_map, List.length_map]
      have : (fun i => !bitOf (x/2) i) = ((fun i => !bitOf x i) ∘ Nat.succ) := by
        funext i; simp only [Function.comp, bitOf]; rw [Nat.div_div_eq_div_mul, Nat.pow_succ, Nat.mul_comm]
      rw [this]; omega

theorem ones_eq (n x : Nat) : ones n x = ((List.range n).filter (fun i => bitOf x i)).length := by
  induction n generalizing x with
  | zero => rfl
  | succ n ih =>
    rw [ones, List.range_succ_eq_map, List.filter_cons]
    have this : (fun i => bitOf (x/2) i) = ((fun i => bitOf x i) ∘ Nat.succ) := by
      funext i; simp only [Function.comp, bitOf]; rw [Nat.div_div_eq_div_mul, Nat.pow_succ, Nat.mul_comm]
    rw [ih, this, List.filter_map]
    by_cases h : x % 2 = 1
    · have hb : bitOf x 0 = true := by simp [bitOf]; omega
      rw [hb]; simp only [if_true, List.length_cons, List.length_map]
      rw [h]; omega
    · have hb : bitOf x 0 = false := by simp [bitOf]; omega
      rw [hb]; simp only [Bool.false_eq_true, if_false, List.length_map]
      omega

theorem sext64_eq (n : Nat) (x : Word) (h : 0 < n) (hn : n ≤ 64) : sext64 n x.toNat = (x.setWidth n).signExtend 64 := by
  apply BitVec.eq_of_toInt_eq
  rw [BitVec.toInt_signExtend_of_le hn]
  have : toSigned n x.toNat = (x.setWidth n).toInt := by
    unfold toSigned
    rw [BitVec.toInt_eq_toNat_cond, BitVec.toNat_setWidth]
    have h2 : 2 ^ n = 2 * 2 ^ (n-1) := by rw [← Nat.pow_succ']; congr 1; omega
    simp only [ne_eq, show n ≠ 0 by omega, not_false_eq_true, true_and]
    split <;> split <;> first | omega | simp
  rw [sext64, this, BitVec.toInt_ofInt]
  have h1 := BitVec.le_toInt (x.setWidth n)
  have h2 := @BitVec.toInt_lt n (x.setWidth n)
  have h3 : (2:Int) ^ (n-1) ≤ 2^63 := by exact_mod_cast Nat.pow_le_pow_right (by decide) (by omega)
  have h4 : (-2^63 : Int) ≤ (x.setWidth n).toInt := by omega
  have h5 : (x.setWidth n).toInt < (2^63 : Int) := by omega
  generalize (x.setWidth n).toInt = z at *
  apply Int.bmod_eq_of_le <;> omega

theorem constantResults_rules :
    ∀ (s : State) (sp : Bool) (d a : Reg), s.Clean →
    (∀ r ∈ unaryRows, exec (r.1 sp d a) s = .next (s.afterG sp 4 d (r.2 (s.ctx.g a))))
    ∧ (∀ r ∈ immediateRows, ∀ i, exec (r.1 sp d a i) s = .next (s.afterG sp 4 d (r.2 (s.ctx.g a) (i.signExtend 64))))
    ∧ (∀ r ∈ shiftRows, ∀ n, exec (r.1 sp d a n) s = .next (s.afterG sp 4 d (r.2 (s.ctx.g a) n.toNat)))
    ∧ (∀ c i, (Cond.meets c (s.ctx.g a) (i.signExtend 64) → exec (.cmpi sp c d a i) s = .next (s.afterG sp 4 d 1))
      ∧ (¬ Cond.meets c (s.ctx.g a) (i.signExtend 64) → exec (.cmpi sp c d a i) s = .next (s.afterG sp 4 d 0)))
    ∧ (∀ i, exec (.li sp d i) s = .next (s.afterG sp 4 d (BitVec.ofInt 64 i.toInt)))
    ∧ (∀ i, exec (.lih sp d i) s = .next (s.afterG sp 4 d (BitVec.ofInt 64 (i.toInt * 2 ^ 14))))
    ∧ (∀ i, exec (.addpc sp d i) s = .next (s.afterG sp 4 d (s.ctx.pc + BitVec.ofInt 64 (2 * i.toInt))))
    ∧ (∀ z i, exec (.lea sp z d a i) s = .next (s.afterG sp 4 d (s.ctx.g a + BitVec.ofInt 64 (z.bytes * i.toInt))))
    ∧ (∀ i, exec (.addiCompact sp d i) s = .next (s.afterG sp 2 d (s.ctx.g d + BitVec.ofInt 64 i.toInt)))
    ∧ (∀ i, exec (.liCompact sp d i) s = .next (s.afterG sp 2 d (BitVec.ofInt 64 i.toInt)))
    ∧ (∀ n, exec (.shliCompact sp d n) s = .next (s.afterG sp 2 d (s.ctx.g d <<< n.toNat)))
    ∧ (∀ n, exec (.shriCompact sp d n) s = .next (s.afterG sp 2 d (s.ctx.g d >>> n.toNat))) := by
  intro s sp d a h
  refine ⟨?_, ?_, ?_, ?_, ?_, ?_, ?_, ?_, ?_, ?_, ?_, ?_⟩
  · simp only [unaryRows, List.forall_mem_cons]
    refine ⟨?_, ?_, ?_, ?_, ?_, ?_, ?_, ?_, ?_, ?_, fun _ h => nomatch h⟩ <;>
      refine (unOp_clean h sp 4 d a _).trans (congrArg (fun x => Host.Outcome.next (s.afterG sp 4 d x)) ?_)
    all_goals try dsimp only
    all_goals generalize s.ctx.g a = x
    · rw [lead0_eq]; rfl
    · rw [trail0_eq]; rfl
    · rw [ones_eq]; rfl
    · rfl
    · exact sext64_eq 8 x (by decide) (by decide)
    · exact sext64_eq 16 x (by decide) (by decide)
    · exact sext64_eq 32 x (by decide) (by decide)
    · apply BitVec.eq_of_toNat_eq; simp; refine (Nat.and_two_pow_sub_one_eq_mod _ 8).trans ?_; omega
    · apply BitVec.eq_of_toNat_eq; simp; refine (Nat.and_two_pow_sub_one_eq_mod _ 16).trans ?_; omega
    · apply BitVec.eq_of_toNat_eq; simp; refine (Nat.and_two_pow_sub_one_eq_mod _ 32).trans ?_; omega
  · simp only [immediateRows, List.forall_mem_cons]
    refine ⟨?_, ?_, ?_, ?_, fun _ h => nomatch h⟩ <;> intro i <;>
      refine (unOp_clean h sp 4 d a _).trans (congrArg (fun x => Host.Outcome.next (s.afterG sp 4 d x)) ?_)
    · apply BitVec.eq_of_toNat_eq; simp
    · rfl
    · rfl
    · rfl
  · simp only [shiftRows, List.forall_mem_cons]
    refine ⟨?_, ?_, ?_, ?_, fun _ h => nomatch h⟩ <;> intro i <;> exact unOp_clean h sp 4 d a _
  · intro c i
    constructor <;> intro hc <;> refine (unOp_clean h sp 4 d a _).trans ?_
    · rw [(cond_meets c _ _).2 hc]; rfl
    · rw [Bool.eq_false_iff.2 (fun e => hc ((cond_meets c _ _).1 e))]; rfl
  · exact fun i => constOp_clean h sp 4 d _
  · intro i
    refine (constOp_clean h sp 4 d _).trans (congrArg (fun x => Host.Outcome.next (s.afterG sp 4 d x)) ?_)
    rw [BitVec.shiftLeft_eq_mul_twoPow, BitVec.ofInt_mul]; rfl
  · exact fun i => constOp_clean h sp 4 d _
  · intro z i
    refine (unOp_clean h sp 4 d a _).trans (congrArg (fun x => Host.Outcome.next (s.afterG sp 4 d x)) ?_)
    unfold disp; rw [Int.mul_comm]
  · exact fun i => unOp_clean h sp 2 d d _
  · exact fun i => constOp_clean h sp 2 d _
  · exact fun i => unOp_clean h sp 2 d d _
  · exact fun i => unOp_clean h sp 2 d d _

end Sys2Proof.Machine
end

