-- ==== Sys2Proof/Laws/ScalarMemory.lean ====
section
/-! SUPPORT. Scalar loads and stores: what each form reads, writes and sends. -/

set_option Elab.async false

namespace Sys2Proof.Machine

theorem loadOp_spec {s : State} (hc : s.Clean) (sp : Bool) (len : Nat) (z : Size) (x : Bool) (d a : Reg) {ea : Word → Act Word} {e : Word}
    (he : ea (s.ctx.g a) (s.issued len) = .ok (e, s.issued len)) :
    (s.Local (a == 31) e z.bytes → loadOp s sp len z x d a ea = .next (s.afterG sp len d
          (extend z.bytes (!x) (natOf (Memory.rds s.mem (2 ^ 48 + s.pid * 2 ^ 21 + e.toNat) z.bytes)))))
    ∧ (∀ h l, s.Far .read (a == 31) e z.bytes h l → loadOp s sp len z x d a ea = .next (s.afterAsk sp len d e z.bytes (!x) false h l)) := by
  have h1 := hc.issued len
  constructor
  · intro hl
    apply issue_after
    rw [Act.bind_ok (Act.rdG_clean h1 a), State.issued_g, Act.bind_ok he, Act.load_local h1 (hl.issued len)]
    rfl
  · intro h l hf
    apply issue_ok
    rw [Act.bind_ok (Act.rdG_clean h1 a), State.issued_g, Act.bind_ok he, Act.load_far h1 (hf.issued len)]
    rfl

theorem loads_rules :
    ∀ (s : State) (sp : Bool) (z : Size) (x : Bool) (d a b : Reg) (i : BitVec 11) (u : BitVec 5), s.Clean →
    ∀ f ∈ loadForms s sp z x d a b i u,
      (s.Local (f.base == 31) f.ea f.size →
        exec f.instr s = .next (s.afterG sp f.len f.dest
          (extend f.size f.signed (natOf (Memory.rds s.mem (2 ^ 48 + s.pid * 2 ^ 21 + f.ea.toNat) f.size)))))
      ∧ (∀ h l, s.Far .read (f.base == 31) f.ea f.size h l →
        exec f.instr s = .next (s.afterAsk sp f.len f.dest f.ea f.size f.signed false h l)) := by
  intro s sp z x d a b i u hc
  simp only [loadForms, List.forall_mem_cons]
  refine ⟨?_, ?_, ?_, ?_, fun _ h => nomatch h⟩
  · exact loadOp_spec hc sp 4 z x d a rfl
  · exact loadOp_spec hc sp 4 z x d a (by simp [Act.map_apply, Act.rdG_clean (hc.issued 4)])
  · exact loadOp_spec hc sp 2 .d false d a rfl
  · exact loadOp_spec hc sp 2 .d false d 31 rfl

theorem storeOp_spec {s : State} (hc : s.Clean) (sp : Bool) (len : Nat) (z : Size) (d a : Reg) {ea : Word → Act Word} {e : Word}
    (he : ea (s.ctx.g a) (s.issued len) = .ok (e, s.issued len)) :
    (s.Local (a == 31) e z.bytes → storeOp s sp len z d a ea = .next (s.afterStore sp len e.toNat (bytesOf z.bytes (s.ctx.g d).toNat)))
    ∧ (∀ h l, s.Far .write (a == 31) e z.bytes h l → s.homeBad h z.bytes = false →
       storeOp s sp len z d a ea = .next (s.afterSend sp len e (bytesOf z.bytes (s.ctx.g d).toNat) false h l)) := by
  have h1 := hc.issued len
  constructor
  · intro hl
    apply issue_ok
    rw [Act.bind_ok (Act.rdG_clean h1 a), State.issued_g, Act.bind_ok he, Act.bind_ok (Act.rdG_clean h1 d), Act.store_local (hl.issued len),
      State.issued_g]
    rfl
  · intro h l hf hb
    apply issue_ok
    rw [Act.bind_ok (Act.rdG_clean h1 a), State.issued_g, Act.bind_ok he, Act.bind_ok (Act.rdG_clean h1 d), Act.store_far (hf.issued len) ((State.homeBad_issued s len h z.bytes).trans hb),
      State.issued_g]
    unfold State.translated
    rw [length_bytesOf]; rfl

theorem stores_rules :
    ∀ (s : State) (sp : Bool) (z : Size) (d a b : Reg) (i : BitVec 11) (u : BitVec 5), s.Clean →
    ∀ f ∈ storeForms s sp z d a b i u,
      (s.Local (f.base == 31) f.ea f.size →
        exec f.instr s = .next (s.afterStore sp f.len f.ea.toNat (bytesOf f.size (s.ctx.g f.dest).toNat))
        ∧ (s.memOk → ∀ j, Memory.rd (s.afterStore sp f.len f.ea.toNat (bytesOf f.size (s.ctx.g f.dest).toNat)).mem j
            = if spadKey s.pid f.ea.toNat ≤ j ∧ j < spadKey s.pid f.ea.toNat + f.size
              then BitVec.ofNat 8 ((s.ctx.g f.dest).toNat / 256 ^ (j - spadKey s.pid f.ea.toNat)) else Memory.rd s.mem j))
      ∧ (∀ h l, s.Far .write (f.base == 31) f.ea f.size h l → s.homeBad h f.size = false →
        exec f.instr s = .next (s.afterSend sp f.len f.ea (bytesOf f.size (s.ctx.g f.dest).toNat) false h l)) := by
  intro s sp z d a b i u hc
  have hfr : ∀ (len off n x : Nat), s.memOk → ∀ j, Memory.rd (s.afterStore sp len off (bytesOf n x)).mem j
      = if spadKey s.pid off ≤ j ∧ j < spadKey s.pid off + n then BitVec.ofNat 8 (x / 256 ^ (j - spadKey s.pid off)) else Memory.rd s.mem j := by
    intro len off n x hm j
    rw [State.afterStore, State.switch_mem, State.wr_mem, Memory.rd_wrs _ _ _ _ (show Memory.wf (s.issued len).mem = true from hm), length_bytesOf]
    split
    · rename_i h; exact bytesOf_getD _ _ _ (by omega)
    · rfl
  simp only [storeForms, List.forall_mem_cons]
  refine ⟨?_, ?_, ?_, ?_, fun _ h => nomatch h⟩
  · have := storeOp_spec hc sp 4 z d a (ea := fun base => pure (disp base i z)) rfl
    exact ⟨fun hl => ⟨this.1 hl, fun hm => hfr _ _ _ _ hm⟩, this.2⟩
  · have := storeOp_spec hc sp 4 z d a (ea := fun base => do return base + (← Act.rdG b)) (e := s.ctx.g a + s.ctx.g b) (by simp [Act.map_apply, Act.rdG_clean (hc.issued 4)])
    exact ⟨fun hl => ⟨this.1 hl, fun hm => hfr _ _ _ _ hm⟩, this.2⟩
  · have := storeOp_spec hc sp 2 .d d a (ea := fun base => pure base) rfl
    exact ⟨fun hl => ⟨this.1 hl, fun hm => hfr _ _ _ _ hm⟩, this.2⟩
  · have := storeOp_spec hc sp 2 .d d 31 (ea := fun base => pure (base + W (8 * u.toNat))) rfl
    exact ⟨fun hl => ⟨this.1 hl, fun hm => hfr _ _ _ _ hm⟩, this.2⟩

end Sys2Proof.Machine
end

