-- ==== Sys2Proof/Laws/Branches.lean ====
section
/-! SUPPORT. Branches: which way each goes, and where. -/

set_option Elab.async false

namespace Sys2Proof.Machine

theorem target_eq (s : State) {n : Nat} (o : BitVec n) : target s.here o = s.relative o := rfl

theorem bzCond_meets (c : BzCond) (x : Word) : bzHolds c x = true ↔ BzCond.meets c x := by
  have h0 : x.slt 0 = true ↔ x.toInt < 0 := by rw [BitVec.slt_iff_toInt_lt]; rfl
  have h0' : x.slt 0 = false ↔ 0 ≤ x.toInt := by rw [← Bool.not_eq_true, h0]; omega
  have h1 : x = 0 ↔ x.toInt = 0 := ⟨fun e => by rw [e]; rfl, fun e => BitVec.eq_of_toInt_eq e⟩
  cases c <;> simp only [bzHolds, BzCond.meets, Bool.or_eq_true, beq_iff_eq, bne_iff_ne, Bool.not_eq_true', h0, h0', Bool.or_eq_false_iff, beq_eq_false_iff_ne]
  · rw [h1]; omega
  · rw [Ne, h1]; omega

theorem branch_rules :
    ∀ (s : State) (sp : Bool) (h : Hint) (a b : Reg), s.Clean → 
    (∀ c (o : BitVec 9),
      (Cond.meets c (s.ctx.g a) (s.ctx.g b) → flag (s.relative o) 0 = false →
        exec (.bc sp h c b a o) s = .next (s.after sp 4 (·.goto (s.relative o))))
      ∧ (Cond.meets c (s.ctx.g a) (s.ctx.g b) → flag (s.relative o) 0 = true →
        exec (.bc sp h c b a o) s = .next (s.raised { eff := 0x003, addr := s.relative o }))
      ∧ (¬ Cond.meets c (s.ctx.g a) (s.ctx.g b) → exec (.bc sp h c b a o) s = .next (s.after sp 4 id)))
    ∧ (∀ c (o : BitVec 14),
      (BzCond.meets c (s.ctx.g a) → flag (s.relative o) 0 = false →
        exec (.bz sp h c a o) s = .next (s.after sp 4 (·.goto (s.relative o))))
      ∧ (BzCond.meets c (s.ctx.g a) → flag (s.relative o) 0 = true →
        exec (.bz sp h c a o) s = .next (s.raised { eff := 0x003, addr := s.relative o }))
      ∧ (¬ BzCond.meets c (s.ctx.g a) → exec (.bz sp h c a o) s = .next (s.after sp 4 id)))
    ∧ (∀ o : BitVec 24,
      (flag (s.relative o) 0 = false → exec (.br sp o) s = .next (s.after sp 4 (·.goto (s.relative o))))
      ∧ (flag (s.relative o) 0 = true → exec (.br sp o) s = .next (s.raised { eff := 0x003, addr := s.relative o })))
    ∧ (∀ o : BitVec 14,
      (a = 0 → exec (.loop sp h a o) s = .next (s.raised { eff := 0x001 }))
      ∧ (a ≠ 0 → s.ctx.g a = 1 → exec (.loop sp h a o) s = .next (s.after sp 4 (·.setG a 0)))
      ∧ (a ≠ 0 → s.ctx.g a ≠ 1 → flag (s.relative o) 0 = false →
        exec (.loop sp h a o) s = .next (s.after sp 4 (fun c => (c.setG a (s.ctx.g a - 1)).goto (s.relative o))))
      ∧ (a ≠ 0 → s.ctx.g a ≠ 1 → flag (s.relative o) 0 = true →
        exec (.loop sp h a o) s = .next (s.raised { eff := 0x003, addr := s.relative o })))
    ∧ (flag (s.ctx.g a) 0 = false →
      exec (.jr sp false a) s = .next (s.after sp 4 (·.goto (s.ctx.g a)))
      ∧ exec (.jrCompact sp a) s = .next (s.after sp 2 (·.goto (s.ctx.g a))))
    ∧ (flag (s.ctx.g a) 0 = true →
      exec (.jr sp false a) s = .next (s.raised { eff := 0x003, addr := s.ctx.g a })
      ∧ exec (.jrCompact sp a) s = .next (s.raised { eff := 0x003, addr := s.ctx.g a }))
    ∧ (s.core.mp.getLsbD a.toNat = true →
      (flag s.core.m[a.toNat] 0 = false → exec (.jr sp true a) s = .next (s.after sp 4 (·.goto s.core.m[a.toNat])))
      ∧ (flag s.core.m[a.toNat] 0 = true → exec (.jr sp true a) s = .next (s.raised { eff := 0x003, addr := s.core.m[a.toNat] })))
    ∧ (s.core.mp.getLsbD a.toNat = false → exec (.jr sp true a) s = .next ((s.block (.mboxRead a.toNat) sp).switch sp)) := by
  intro s sp h a b hc
  have h4 := hc.issued 4
  have h2 := hc.issued 2
  refine ⟨fun c o => ⟨fun hm ht => ?_, fun hm ht => ?_, fun hm => ?_⟩, fun c o => ⟨fun hm ht => ?_, fun hm ht => ?_, fun hm => ?_⟩, fun o => ⟨fun ht => ?_, fun ht => ?_⟩, fun o => ⟨fun h0 => ?_, fun h0 h1 => ?_, fun h0 h1 ht => ?_, fun h0 h1 ht => ?_⟩, fun ht => ⟨?_, ?_⟩, fun ht => ⟨?_, ?_⟩, fun hp => ⟨fun ht => ?_, fun ht => ?_⟩, fun hp => ?_⟩
  · apply issue_after
    rw [Act.bind_ok (Act.rdG_clean h4 a), Act.bind_ok (Act.rdG_clean h4 b)]
    simp only [State.issued_g]
    rw [if_pos ((cond_meets c _ _).2 hm)]
    exact Act.jump_even ht _
  · apply issue_raise hc
    rw [Act.bind_ok (Act.rdG_clean h4 a), Act.bind_ok (Act.rdG_clean h4 b)]
    simp only [State.issued_g]
    rw [if_pos ((cond_meets c _ _).2 hm)]
    exact Act.jump_odd ht _
  · rw [State.after_id]
    apply issue_ok
    rw [Act.bind_ok (Act.rdG_clean h4 a), Act.bind_ok (Act.rdG_clean h4 b)]
    simp only [State.issued_g]
    rw [if_neg (fun e => hm ((cond_meets c _ _).1 e))]; rfl
  · apply issue_after
    rw [Act.bind_ok (Act.rdG_clean h4 a)]
    simp only [State.issued_g]
    rw [if_pos ((bzCond_meets c _).2 hm)]
    exact Act.jump_even ht _
  · apply issue_raise hc
    rw [Act.bind_ok (Act.rdG_clean h4 a)]
    simp only [State.issued_g]
    rw [if_pos ((bzCond_meets c _).2 hm)]
    exact Act.jump_odd ht _
  · rw [State.after_id]
    apply issue_ok
    rw [Act.bind_ok (Act.rdG_clean h4 a)]
    simp only [State.issued_g]
    rw [if_neg (fun e => hm ((bzCond_meets c _).1 e))]; rfl
  · exact issue_after (Act.jump_even ht _)
  · exact issue_raise hc (Act.jump_odd ht _)
  · exact issue_raise hc (Act.bind_error (by subst h0; rfl))
  · apply issue_after
    have : (a == 0) = false := by simpa using h0
    rw [this, Act.bind_ok (Act.check_false _ _), Act.bind_ok (Act.rdG_clean h4 a), Act.bind_ok (Act.wrG_clean h4 a _)]
    simp [h1]
  · have : (a == 0) = false := by simpa using h0
    have h1' : s.ctx.g a - 1 ≠ 0 := fun e => h1 (by rw [BitVec.sub_eq_iff_eq_add] at e; simpa using e)
    apply issue_after
    rw [this, Act.bind_ok (Act.check_false _ _), Act.bind_ok (Act.rdG_clean h4 a), Act.bind_ok (Act.wrG_clean h4 a _)]
    simp only [State.issued_g]
    rw [if_pos h1', target_eq, Act.jump_even ht, State.modCtx_modCtx]; rfl
  · have : (a == 0) = false := by simpa using h0
    have h1' : s.ctx.g a - 1 ≠ 0 := fun e => h1 (by rw [BitVec.sub_eq_iff_eq_add] at e; simpa using e)
    apply issue_raise hc
    rw [this, Act.bind_ok (Act.check_false _ _), Act.bind_ok (Act.rdG_clean h4 a), Act.bind_ok (Act.wrG_clean h4 a _)]
    simp only [State.issued_g]
    rw [if_pos h1', target_eq, Act.jump_odd ht]; rfl
  · apply issue_after
    simp only [Act.jumpReg, Bool.false_eq_true, if_false]
    rw [Act.bind_ok (Act.rdG_clean h4 a), State.issued_g]; exact Act.jump_even ht _
  · apply issue_after
    simp only [Act.jumpReg, Bool.false_eq_true, if_false]
    rw [Act.bind_ok (Act.rdG_clean h2 a), State.issued_g]; exact Act.jump_even ht _
  · apply issue_raise hc
    simp only [Act.jumpReg, Bool.false_eq_true, if_false]
    rw [Act.bind_ok (Act.rdG_clean h4 a), State.issued_g]; exact Act.jump_odd ht _
  · apply issue_raise hc
    simp only [Act.jumpReg, Bool.false_eq_true, if_false]
    rw [Act.bind_ok (Act.rdG_clean h2 a), State.issued_g]; exact Act.jump_odd ht _
  · apply issue_after
    have : Act.jumpReg true a (s.issued 4) = .ok (s.core.m[a.toNat], s.issued 4) := by
      simp [Act.jumpReg, Act.bind_apply, Act.map_apply, State.core_issued, hp]
    rw [Act.bind_ok this]; exact Act.jump_even ht _
  · apply issue_raise hc
    have : Act.jumpReg true a (s.issued 4) = .ok (s.core.m[a.toNat], s.issued 4) := by
      simp [Act.jumpReg, Act.bind_apply, Act.map_apply, State.core_issued, hp]
    rw [Act.bind_ok this]; exact Act.jump_odd ht _
  · apply issue_wait
    apply Act.bind_error
    simp [Act.jumpReg, Act.bind_apply, Act.map_apply, State.core_issued, hp, Act.waitIf_apply]

end Sys2Proof.Machine
end

