-- ==== Sys2Proof/Laws/Calls.lean ====
section
/-! SUPPORT. Calls and returns over the return-address stack and its memory part. -/

set_option Elab.async false

namespace Sys2Proof.Machine

theorem Act.call_spec {s : State} {sp : Bool} (hc : s.Clean) (t : Word) {m : Act Word} (hm : m (s.issued 4) = .ok (t, s.issued 4)) :
    (flag t 0 = true → issue s sp 4 (do let t ← m; Act.call s.here t) = .next (s.raised { eff := 0x003, addr := t }))
    ∧ (flag t 0 = false → (s.ctx.g 31).toNat % 8 ≠ 0 → issue s sp 4 (do let t ← m; Act.call s.here t) = .next (s.raised { eff := 0x003, addr := s.ctx.g 31 }))
    ∧ (flag t 0 = false → (s.ctx.g 31).toNat % 8 = 0 → s.ctx.ras.length < 16 →
      issue s sp 4 (do let t ← m; Act.call s.here t) = .next (s.after sp 4 (fun c => { c with ras := c.ras ++ [(s.ctx.pc + 4, s.ctx.g 31)], pc := t })))
    ∧ (∀ u slot rest, flag t 0 = false → (s.ctx.g 31).toNat % 8 = 0 → s.ctx.ras = (u, slot) :: rest → 16 ≤ s.ctx.ras.length →
      (s.ctx.rdep < 65535 → s.Local true slot 8 →
        issue s sp 4 (do let t ← m; Act.call s.here t) = .next ((((s.issued 4).wr (spadKey s.pid slot.toNat) (bytesOf 8 u.toNat)).modCtx
          (fun c => { c with ras := rest ++ [(s.ctx.pc + 4, s.ctx.g 31)], rdep := s.ctx.rdep + 1, pc := t })).switch sp))
      ∧ (65535 ≤ s.ctx.rdep → issue s sp 4 (do let t ← m; Act.call s.here t) = .next (s.raised { eff := 0x008, arg := slot, stk := true }))) := by
  have h4 := hc.issued 4
  refine ⟨fun ht => ?_, fun ht hg => ?_, fun ht hg hl => ?_, fun u slot rest ht hg hr hl => ⟨fun hd hloc => ?_, fun hd => ?_⟩⟩
  · apply issue_raise hc
    rw [Act.bind_ok hm]; unfold Act.call; rw [ht, Act.bind_error (Act.check_true _ _)]; rfl
  · apply issue_raise hc
    rw [Act.bind_ok hm]; unfold Act.call; rw [ht, Act.bind_ok (Act.check_false _ _), Act.bind_ok (Act.rdG_clean h4 31)]
    have : ((s.ctx.g 31).toNat % 8 != 0) = true := by simpa using hg
    rw [State.issued_g, this]; rfl
  · apply issue_after
    rw [Act.bind_ok hm]; unfold Act.call; rw [ht, Act.bind_ok (Act.check_false _ _), Act.bind_ok (Act.rdG_clean h4 31)]
    have : ((s.ctx.g 31).toNat % 8 != 0) = false := by simpa using hg
    rw [State.issued_g, this, Act.bind_ok (Act.check_false _ _), Act.bind_ok (Act.ctx_apply _)]
    rw [State.issued_ras]
    cases hr : s.ctx.ras with
    | nil =>
      simp only [Act.updCtx_apply]
      refine congrArg (fun x => Except.ok ((), x)) (State.modCtx_congr ?_)
      simp [hr, State.here]
    | cons e rest =>
      obtain ⟨u, slot⟩ := e
      simp only [Act.updCtx_apply]
      rw [hr] at hl
      rw [if_neg (by omega)]; rfl
  · apply issue_ok
    rw [Act.bind_ok hm]; unfold Act.call; rw [ht, Act.bind_ok (Act.check_false _ _), Act.bind_ok (Act.rdG_clean h4 31)]
    have : ((s.ctx.g 31).toNat % 8 != 0) = false := by simpa using hg
    rw [State.issued_g, this, Act.bind_ok (Act.check_false _ _), Act.bind_ok (Act.ctx_apply _)]
    rw [State.issued_ras, hr]
    simp only
    rw [← hr, if_pos (by omega)]
    have h0 : decide ((s.issued 4).ctx.rdep ≥ 65535) = false := by simp; omega
    rw [h0, Act.bind_ok (Act.check_false _ _)]
    have h1 : Act.spillSlot s.here slot u (s.issued 4) = .ok ((), (s.issued 4).wr (spadKey s.pid slot.toNat) (bytesOf 8 u.toNat)) := by
      have hl1 := hloc.issued 4
      unfold Act.spillSlot
      rw [Act.bind_ok (Act.place_local (acc := .write) true true hl1.aligned hl1.inside (by decide) hl1.stack)]
      show (Act.waitIf false .drain >>= fun _ => Act.check false { memErr s.here slot with stk := true } >>= fun _ => Act.store s.here slot 8 u true false) (s.issued 4) = _
      rw [Act.bind_ok (Act.waitIf_false _ _), Act.bind_ok (Act.check_false _ _), Act.store_local hl1]; rfl
    rw [Act.bind_ok h1]
    simp only [Act.updCtx_apply]
    refine congrArg (fun x => Except.ok ((), x)) (State.modCtx_congr ?_)
    rw [State.ctx_wr, State.issued_rdep]; rfl
  · apply issue_raise hc
    rw [Act.bind_ok hm]; unfold Act.call; rw [ht, Act.bind_ok (Act.check_false _ _), Act.bind_ok (Act.rdG_clean h4 31)]
    have : ((s.ctx.g 31).toNat % 8 != 0) = false := by simpa using hg
    rw [State.issued_g, this, Act.bind_ok (Act.check_false _ _), Act.bind_ok (Act.ctx_apply _)]
    rw [State.issued_ras, hr]
    simp only
    rw [← hr, if_pos (by omega)]
    have h0 : decide ((s.issued 4).ctx.rdep ≥ 65535) = true := by simp; omega
    rw [h0, Act.bind_error (Act.check_true _ _)]; rfl

theorem call_rules :
    ∀ (s : State) (sp : Bool) (a : Reg) (o : BitVec 24), s.Clean → ∀ f ∈ s.callForms sp a o,
    (flag f.2 0 = true → exec f.1 s = .next (s.raised { eff := 0x003, addr := f.2 }))
    ∧ (flag f.2 0 = false → (s.ctx.g 31).toNat % 8 ≠ 0 → exec f.1 s = .next (s.raised { eff := 0x003, addr := s.ctx.g 31 }))
    ∧ (flag f.2 0 = false → (s.ctx.g 31).toNat % 8 = 0 → s.ctx.ras.length < 16 →
      exec f.1 s = .next (s.after sp 4 (fun c => { c with ras := c.ras ++ [(s.ctx.pc + 4, s.ctx.g 31)], pc := f.2 })))
    ∧ (∀ t slot rest, flag f.2 0 = false → (s.ctx.g 31).toNat % 8 = 0 → s.ctx.ras = (t, slot) :: rest → 16 ≤ s.ctx.ras.length →
      (s.ctx.rdep < 65535 → s.Local true slot 8 →
        exec f.1 s = .next ((((s.issued 4).wr (spadKey s.pid slot.toNat) (bytesOf 8 t.toNat)).modCtx
          (fun c => { c with ras := rest ++ [(s.ctx.pc + 4, s.ctx.g 31)], rdep := s.ctx.rdep + 1, pc := f.2 })).switch sp))
      ∧ (65535 ≤ s.ctx.rdep → exec f.1 s = .next (s.raised { eff := 0x008, arg := slot, stk := true }))) := by
  intro s sp a o hc f hf
  have h4 := hc.issued 4
  unfold State.callForms at hf
  simp only [List.mem_append, List.mem_cons, List.not_mem_nil, or_false] at hf
  rcases hf with (rfl | rfl) | hf
  · have := Act.call_spec (sp := sp) hc (target s.here o) (m := pure (target s.here o)) rfl
    exact this
  · have := Act.call_spec (sp := sp) hc (s.ctx.g a) (m := Act.jumpReg false a) (by simp [Act.jumpReg, Act.rdG_clean h4])
    exact this
  · split at hf
    · rename_i hp
      simp only [List.mem_singleton] at hf
      subst hf
      have := Act.call_spec (sp := sp) hc s.core.m[a.toNat] (m := Act.jumpReg true a) (by simp [Act.jumpReg, Act.bind_apply, Act.map_apply, State.core_issued, hp])
      exact this
    · exact nomatch hf

theorem retOp_spec {s : State} {sp : Bool} {len : Nat} (hc : s.Clean) : 
    (∀ older t slot, s.ctx.ras = older ++ [(t, slot)] → flag t 0 = false →
      retOp sp len s = .next (s.after sp len (fun c => { c with ras := older, pc := t })))
    ∧ (∀ older t slot, s.ctx.ras = older ++ [(t, slot)] → flag t 0 = true →
      retOp sp len s = .next (s.raised { eff := 0x003, addr := t }))
    ∧ (s.ctx.ras = [] → s.ctx.rdep = 0 → retOp sp len s = .next (s.raised { eff := 0x001 }))
    ∧ (s.ctx.ras = [] → 0 < s.ctx.rdep → s.Local true (s.ctx.g 31) 8 →
      flag (s.rdW (spadKey s.pid (s.ctx.g 31).toNat)) 0 = false →
      retOp sp len s = .next (s.after sp len (fun c => { c with rdep := s.ctx.rdep - 1, pc := s.rdW (spadKey s.pid (s.ctx.g 31).toNat) }))) := by
  have h1 := hc.issued len
  refine ⟨fun older t slot hr ht => ?_, fun older t slot hr ht => ?_, fun hr hd => ?_, fun hr hd hl ht => ?_⟩
  · apply issue_after
    rw [Act.bind_ok (Act.ctx_apply _), State.issued_ras, hr]
    simp only [List.getLast?_concat]
    rw [ht, Act.bind_ok (Act.check_false _ _)]
    simp only [Act.updCtx_apply]
    refine congrArg (fun x => Except.ok ((), x)) (State.modCtx_congr ?_)
    simp [hr]
  · apply issue_raise hc
    rw [Act.bind_ok (Act.ctx_apply _), State.issued_ras, hr]
    simp only [List.getLast?_concat]
    rw [ht, Act.bind_error (Act.check_true _ _)]; rfl
  · apply issue_raise hc
    rw [Act.bind_ok (Act.ctx_apply _), State.issued_ras, hr]
    simp only [List.getLast?_nil]
    rw [State.issued_rdep, hd]; rfl
  · apply issue_after
    rw [Act.bind_ok (Act.ctx_apply _), State.issued_ras, hr]
    simp only [List.getLast?_nil]
    have h0 : (s.ctx.rdep == 0) = false := by simp; omega
    have hl1 := hl.issued len
    have hread := Act.readNow_own (s := s.issued len) (off := (s.ctx.g 31).toNat) (n := 8) hl1.below hl1.alone hl1.good (s.ctx.g 31) false
    rw [State.issued_rdep, h0, Act.bind_ok (Act.check_false _ _), Act.bind_ok (Act.rdG_clean h1 31), State.issued_g,
      Act.bind_ok (Act.gate_open hl1.gate), Act.bind_ok (Act.place_local (acc := .read) true true hl1.aligned hl1.inside (by decide) hl1.stack)]
    simp only []
    rw [Act.bind_ok hread]
    have hw : W ((s.issued len).rdN (spadKey (s.issued len).pid (s.ctx.g 31).toNat) 8) = s.rdW (spadKey s.pid (s.ctx.g 31).toNat) := rfl
    simp only []
    rw [Act.bind_ok (Act.check_false _ _), hw, ht, Act.bind_ok (Act.check_false _ _), Act.updCtx_apply]
    refine congrArg (fun x => Except.ok ((), x)) (State.modCtx_congr ?_)
    simp

theorem return_rules :
    ∀ (s : State) (sp : Bool), s.Clean → ∀ f ∈ returnForms sp,
    (∀ older t slot, s.ctx.ras = older ++ [(t, slot)] → flag t 0 = false →
      exec f.1 s = .next (s.after sp f.2 (fun c => { c with ras := older, pc := t })))
    ∧ (∀ older t slot, s.ctx.ras = older ++ [(t, slot)] → flag t 0 = true →
      exec f.1 s = .next (s.raised { eff := 0x003, addr := t }))
    ∧ (s.ctx.ras = [] → s.ctx.rdep = 0 → exec f.1 s = .next (s.raised { eff := 0x001 }))
    ∧ (s.ctx.ras = [] → 0 < s.ctx.rdep → s.Local true (s.ctx.g 31) 8 →
      flag (s.rdW (spadKey s.pid (s.ctx.g 31).toNat)) 0 = false →
      exec f.1 s = .next (s.after sp f.2 (fun c => { c with rdep := s.ctx.rdep - 1, pc := s.rdW (spadKey s.pid (s.ctx.g 31).toNat) }))) := by
  intro s sp hc f hf
  simp only [returnForms, List.mem_cons, List.not_mem_nil, or_false] at hf
  rcases hf with rfl | rfl
  · exact retOp_spec hc
  · exact retOp_spec hc

end Sys2Proof.Machine
end

