-- ==== Sys2Proof/Laws/EndWait.lean ====
section
/-! SUPPORT. Ends of activations, and the instructions that wait. -/

set_option Elab.async false

namespace Sys2Proof.Machine

theorem State.endAct_ended (s : State) (pid cx : Nat) : Ended s (s.endAct pid cx) pid cx := by
  have hk : ∀ (u : State) (c : Ctx), (((u.setCtxAt pid cx c).modCoreAt pid (fun k => { k with rq := setBit k.rq cx false })).ctxAt pid cx) = c := by
    intro u c; simp
  have ho : ∀ (u : State) (c : Ctx) (q y : Nat), u.ctxs = s.ctxs → ctxKey q y ≠ ctxKey pid cx →
      (((u.setCtxAt pid cx c).modCoreAt pid (fun k => { k with rq := setBit k.rq cx false })).ctxAt q y) = s.ctxAt q y := by
    intro u c q y hu h
    rw [State.ctxAt_modCoreAt, State.ctxAt_setCtxAt_ne _ _ h]; simp [State.ctxAt, hu]
  unfold State.endAct
  cases h : (s.ctxAt pid cx).started <;>
  · refine ⟨by simp [h], by simp [h], by simp [h], by simp [h], by simp [h], ⟨by simp [h], ?_⟩, by simp [h], ?_, ?_, ?_⟩
    · simp [h, State.dropSnap, State.modVers, State.modLaunch, State.modNet, State.setCtxAt, State.modCoreAt, State.setCoreAt]
    · intro q y hq; simp only [h]; exact ho _ _ q y rfl hq
    · intro a; simp only [h]; rfl
    · intro id j q k p hh
      rw [h] at hh
      first
        | (exfalso; revert hh; simp; done)
        | (injection hh with e1 e2 e3 e4 e5
           subst e1; subst e2; subst e5
           rename_i id' _ _ _ _
           refine ⟨((s.launch? id').map (fun (l : Launch) => l.src.ptroot)).getD (s.ctxAt pid cx).space.ptroot &&& 0xFFFFFFFFFFFF, fun l hl => ?_, ?_⟩
           · rw [hl]; rfl
           · simp only [h]; rfl)

/-- A failure in a launch's record leaves where the launch came from. -/
theorem State.launch?_fail (s : State) (n id : Nat) (e : Nat) (a d : Word) (lid : Nat) :
    ((s.modLaunch n (fun l => l.fail e a d lid)).launch? id).map (fun l => l.src) = (s.launch? id).map (fun l => l.src) := by
  unfold State.launch? State.modLaunch
  simp only []
  induction s.launches with
  | nil => rfl
  | cons l r ih =>
    have h1 : ∀ x : Launch, (if x.id = n then x.fail e a d lid else x).id = x.id ∧ (if x.id = n then x.fail e a d lid else x).src = x.src := by
      intro x; split
      · unfold Launch.fail; split <;> exact ⟨rfl, rfl⟩
      · exact ⟨rfl, rfl⟩
    rw [List.map_cons, List.find?_cons, List.find?_cons, (h1 l).1]
    cases h : (l.id == id)
    · exact ih
    · simp [(h1 l).2]

theorem map_nfail (l : List Launch) (id : Nat) (f : Launch → Launch) (hf : ∀ x, (f x).nfail = x.nfail) :
    (l.map (fun x => if x.id = id then f x else x)).map (·.nfail) = l.map (·.nfail) := by
  rw [List.map_map]; apply List.map_congr_left; intro x _; simp only [Function.comp]; split <;> simp [hf]

theorem endAct_nfail (s : State) (pid cx : Nat) : (s.endAct pid cx).launches.map (·.nfail) = s.launches.map (·.nfail) := by
  unfold State.endAct
  cases h : (s.ctxAt pid cx).started <;> simp only [h, State.modCoreAt_launches, State.setCtxAt_launches]
  · rfl
  · rfl
  · show (List.map (fun x => if x.id = _ then _ else x) s.launches).map _ = _
    exact map_nfail _ _ _ (fun _ => rfl)
  · rfl

theorem Ended.trans_issued {s t : State} {len : Nat} (h : Ended (s.issued len) t s.pid s.cx) : Ended s t s.pid s.cx := by
  have hc : (s.issued len).ctxAt s.pid s.cx = (s.issued len).ctx := rfl
  refine ⟨h.free, h.frames, h.window, h.stack, h.queues, ⟨h.snapshot.1, ?_⟩, ?_, ?_, h.mem, ?_⟩
  · have := h.snapshot.2; rw [hc, State.issued_act] at this; exact this
  · rw [h.regs, hc, State.issued_regs]; rfl
  · intro q y hq
    rw [h.others q y hq]; exact State.ctxAt_modCtxAt_ne _ _ hq
  · have := h.join; rw [hc] at this; simp only [State.issued_started, State.issued_act, State.issued_stat, State.issued_space] at this; exact this

theorem end_rules :
    ∀ (s : State) (sp : Bool),
    (∃ t, exec (.done sp) s = .next t ∧ Ended s t s.pid s.cx ∧ t.launches.map (·.nfail) = s.launches.map (·.nfail))
    ∧ (∃ t, exec (.doneCompact sp) s = .next t ∧ Ended s t s.pid s.cx ∧ t.launches.map (·.nfail) = s.launches.map (·.nfail))
    ∧ (∀ a, s.Clean → ∃ t, exec (.halt sp a) s = .next t ∧ Ended s t s.pid s.cx
        ∧ ∀ l ∈ s.launches, l.id = s.ctx.ident.launch.toNat → l.nfail = 0 →
          ∃ k ∈ t.launches, k.id = l.id ∧ k.nfail = 1 ∧ k.eff = 0 ∧ k.argw = s.ctx.g a ∧ k.flid = s.ctx.ident.lid.toNat) := by
  intro s sp
  refine ⟨⟨_, rfl, ?_, ?_⟩, ⟨_, rfl, ?_, ?_⟩, fun a hc => ?_⟩
  · exact Ended.trans_issued ((s.issued 4).endAct_ended s.pid s.cx)
  · exact endAct_nfail (s.issued 4) s.pid s.cx
  · exact Ended.trans_issued ((s.issued 4).endAct_ended s.pid s.cx)
  · exact endAct_nfail (s.issued 4) s.pid s.cx
  · refine ⟨(s.issued 4).endFail s.pid s.cx 0 (s.ctx.g a) 0, ?_, ?_, ?_⟩
    · apply issue_stop
      rw [Act.bind_ok (Act.rdG_clean (hc.issued 4) a), Act.bind_ok (Act.get_apply _), State.issued_g]; rfl
    · exact Ended.trans_issued (len := 4) (by
        have := State.endAct_ended ((s.issued 4).modLaunch ((s.issued 4).ctxAt s.pid s.cx).ident.launch.toNat (fun l => l.fail 0 (s.ctx.g a) 0 ((s.issued 4).ctxAt s.pid s.cx).ident.lid.toNat)) s.pid s.cx
        refine ⟨this.free, this.frames, this.window, this.stack, this.queues, this.snapshot, this.regs, this.others, this.mem, ?_⟩
        intro id j q k p hh
        obtain ⟨root, h1, h2⟩ := this.join id j q k p hh
        refine ⟨root, fun l hl => ?_, h2⟩
        have h3 := State.launch?_fail (s.issued 4) ((s.issued 4).ctxAt s.pid s.cx).ident.launch.toNat id 0 (s.ctx.g a) 0
          ((s.issued 4).ctxAt s.pid s.cx).ident.lid.toNat
        rw [hl] at h3
        cases h4 : ((s.issued 4).modLaunch ((s.issued 4).ctxAt s.pid s.cx).ident.launch.toNat (fun l => l.fail 0 (s.ctx.g a) 0
            ((s.issued 4).ctxAt s.pid s.cx).ident.lid.toNat)).launch? id with
        | none => rw [h4] at h3; exact nomatch h3
        | some m =>
          rw [h4] at h3
          have h5 : m.src = l.src := by simpa using h3
          rw [h1 m h4, h5])
    · intro l hl hid hn
      let S := (s.issued 4).modLaunch s.ctx.ident.launch.toNat (fun l => l.fail 0 (s.ctx.g a) 0 s.ctx.ident.lid.toNat)
      have hS : (s.issued 4).endFail s.pid s.cx 0 (s.ctx.g a) 0 = S.endAct s.pid s.cx := by
        unfold State.endFail
        have : (s.issued 4).ctxAt s.pid s.cx = (s.issued 4).ctx := rfl
        rw [this]; simp only [State.issued_ident]; rfl
      rw [hS]
      have hm : l.fail 0 (s.ctx.g a) 0 s.ctx.ident.lid.toNat ∈ S.launches := by
        show _ ∈ s.launches.map _
        rw [List.mem_map]; exact ⟨l, hl, by rw [if_pos hid]⟩
      have hf : l.fail 0 (s.ctx.g a) 0 s.ctx.ident.lid.toNat = { l with nfail := 1, eff := 0, argw := s.ctx.g a, addrw := 0, flid := s.ctx.ident.lid.toNat } := by
        unfold Launch.fail; rw [if_pos hn]
      have key : ∀ x ∈ S.launches, ∃ k ∈ (S.endAct s.pid s.cx).launches, k.id = x.id ∧ k.nfail = x.nfail ∧ k.eff = x.eff ∧ k.argw = x.argw ∧ k.flid = x.flid := by
        intro x hx
        unfold State.endAct
        cases h : (S.ctxAt s.pid s.cx).started <;> simp only [h, State.modCoreAt_launches, State.setCtxAt_launches]
        · exact ⟨x, hx, rfl, rfl, rfl, rfl, rfl⟩
        · exact ⟨x, hx, rfl, rfl, rfl, rfl, rfl⟩
        · rename_i id
          refine ⟨if x.id = id then { x with live := x.live - 1 } else x, ?_, ?_⟩
          · exact List.mem_map.2 ⟨x, hx, rfl⟩
          · split <;> exact ⟨rfl, rfl, rfl, rfl, rfl⟩
        · exact ⟨x, hx, rfl, rfl, rfl, rfl, rfl⟩
      obtain ⟨k, hk1, h1, h2, h3, h4, h5⟩ := key _ hm
      rw [hf] at h1 h2 h3 h4 h5
      exact ⟨k, hk1, h1, h2, h3, h4, h5⟩

theorem wait_rules :
    ∀ (s : State) (sp : Bool) (d a b : Reg), s.Clean →
    exec (.nop sp) s = .next ((s.issued 4).switch sp)
    ∧ exec (.nopCompact sp) s = .next ((s.issued 2).switch sp)
    ∧ (s.cx ≠ 4 →
      exec (.idle sp a) s = .next (((s.issued 4).modCtx (fun c => { c with
        run := .parked (if fld (s.ctx.g a) 31 0 = 0 then .idleTurn s.time else .idle (s.time + fld (s.ctx.g a) 31 0 * Config.coreTicks s.pid))
        since := s.time })).switch true)
      ∧ (∀ h l, s.Watchable (s.ctx.g a) h l →
        (s.wordAt h ≠ s.ctx.g b → exec (.waita sp d a b) s =
          .next ((((s.issued 4).translated (s.ctx.g a) l).modCtx (fun c => c.setG d (s.wordAt h))).switch true))
        ∧ (s.wordAt h = s.ctx.g b → exec (.waita sp d a b) s = .next (s.parks (.watch (lineOf (h.readKey s.sys.lead s.pid))))))
      ∧ (s.core.mp.getLsbD a.toNat = true → exec (.waitm sp a) s = .next ((s.issued 4).switch true))
      ∧ (s.core.mp.getLsbD a.toNat = false → exec (.waitm sp a) s = .next (s.parks (.mbox a.toNat))))
    ∧ (s.cx = 4 → ∀ i ∈ [Instr.idle sp a, .waita sp d a b, .waitm sp a], exec i s = .next (s.raised { eff := 0x001 }))
    ∧ (∀ u, u = (s.issued 4).modCtx (fun c => { c with regs := c.regs.setPresent false (.g d) }) →
      (∀ f ∈ [(Instr.mtake sp d a, false), (.mpeek sp d a, true)],
        (s.core.mp.getLsbD a.toNat = false ∨ (f.2 = false ∧ ∃ t ∈ s.core.takes, t.m = a.toNat ∧ t.peek = false)) →
        exec f.1 s = .next ((u.modCore (fun k => { k with takes := k.takes ++ [⟨a.toNat, s.cx, s.ctx.act, d, f.2⟩] })).switch sp))
      ∧ (s.core.mp.getLsbD a.toNat = true →
        exec (.mpeek sp d a) s = .next ((u.sendResult (.g d) (.g s.core.m[a.toNat])).switch sp)
        ∧ ((∀ t ∈ s.core.takes, t.m = a.toNat → t.peek = true) →
          exec (.mtake sp d a) s = .next (((u.sendResult (.g d) (.g s.core.m[a.toNat])).emptyMailbox s.pid a.toNat).switch sp)))) := by
  intro s sp d a b hc
  have h4 := hc.issued 4
  refine ⟨rfl, rfl, fun hx => ⟨?_, fun h l hl => ⟨fun hv => ?_, fun hv => ?_⟩, fun hp => ?_, fun hp => ?_⟩, fun hx => ?_, ?_⟩
  · have hx' : ((s.issued 4).cx == 4) = false := by simpa using hx
    apply issue_stop
    rw [Act.bind_ok (Act.inSH_apply _), hx', Act.bind_ok (Act.check_false _ _), Act.bind_ok (Act.rdG_clean h4 a), Act.bind_ok (Act.get_apply _)]
    rw [State.issued_g]
    have : (s.ctx.g a).toNat % 2 ^ 32 = fld (s.ctx.g a) 31 0 := by simp [fld, bitsOf]
    rw [this]
    by_cases h0 : fld (s.ctx.g a) 31 0 = 0
    · simp only [h0, if_true]; rfl
    · simp only [h0, if_false]; rfl
  · have hx' : ((s.issued 4).cx == 4) = false := by simpa using hx
    have : issue s sp 4 _ = .next (State.switch _ sp) := issue_ok (s := s) (sp := sp) (len := 4) (t := (((s.issued 4).translated (s.ctx.g a) l).modCtx (fun c => c.setG d (s.wordAt h))).switch true) (m := do
        Act.check (← Act.inSH) (illegal 0)
        let ea ← Act.rdG a
        let y ← Act.rdG b
        Act.interlock (.g d)
        let (v, bad, line) ← Act.watchRead ea
        Act.check (bad && inLocal ea.toNat) (memErr s.here ea)
        if bad then do
          Act.updCtx (fun c => c.take ⟨s.pid, s.cx, c.act, .g d, .err (memErr s.here ea) 0⟩)
          Act.giveWay
        else if v = y then Act.park (.watch line) else do
          Act.wrG d v
          Act.giveWay) (by
      rw [Act.bind_ok (Act.inSH_apply _), hx', Act.bind_ok (Act.check_false _ _), Act.bind_ok (Act.rdG_clean h4 a), Act.bind_ok (Act.rdG_clean h4 b),
        Act.bind_ok (Act.interlock_clean h4 _), State.issued_g, State.issued_g, Act.bind_ok (Act.watchRead_at (hl.issued 4))]
      have hv' : ¬ (s.issued 4).wordAt h = s.ctx.g b := hv
      simp only [Bool.false_and]
      rw [Act.bind_ok (Act.check_false _ _), if_neg (by decide), if_neg hv', Act.bind_ok (Act.wrG_clean (h4.translated _ _) _ _)]
      rfl)
    rw [State.switch_switch] at this; exact this
  · have hx' : ((s.issued 4).cx == 4) = false := by simpa using hx
    apply issue_park
    rw [Act.bind_ok (Act.inSH_apply _), hx', Act.bind_ok (Act.check_false _ _), Act.bind_ok (Act.rdG_clean h4 a), Act.bind_ok (Act.rdG_clean h4 b),
        Act.bind_ok (Act.interlock_clean h4 _), State.issued_g, State.issued_g, Act.bind_ok (Act.watchRead_at (hl.issued 4))]
    have hv' : (s.issued 4).wordAt h = s.ctx.g b := hv
    simp only [Bool.false_and]
    rw [Act.bind_ok (Act.check_false _ _), if_neg (by decide), if_pos hv']; rfl
  · have hx' : ((s.issued 4).cx == 4) = false := by simpa using hx
    have : issue s sp 4 _ = .next (State.switch _ sp) := issue_ok (s := s) (sp := sp) (len := 4) (t := (s.issued 4).switch true) (m := do
        Act.check (← Act.inSH) (illegal 0)
        let k ← Act.core
        if k.mp.getLsbD a.toNat then Act.giveWay else Act.park (.mbox a.toNat)) (by
      rw [Act.bind_ok (Act.inSH_apply _), hx', Act.bind_ok (Act.check_false _ _), Act.bind_ok (Act.core_apply _), State.core_issued, if_pos hp]; rfl)
    rw [State.switch_switch] at this; exact this
  · have hx' : ((s.issued 4).cx == 4) = false := by simpa using hx
    apply issue_park
    rw [Act.bind_ok (Act.inSH_apply _), hx', Act.bind_ok (Act.check_false _ _), Act.bind_ok (Act.core_apply _), State.core_issued, if_neg (by simp [hp])]; rfl
  · have hx' : ((s.issued 4).cx == 4) = true := by simpa using hx
    intro i hi
    simp only [List.mem_cons, List.not_mem_nil, or_false] at hi
    rcases hi with rfl | rfl | rfl <;>
    · apply issue_raise hc
      rw [Act.bind_ok (Act.inSH_apply _), hx', Act.bind_error (Act.check_true _ _)]; rfl
  · intro u hu
    have hk : u.core = s.core := by subst hu; rfl
    have hm : s.core.m[a.toNat]?.getD 0 = s.core.m[a.toNat] := by
      have : a.toNat < 32 := a.isLt
      simp [this]
    have start : ∀ (peek : Bool) (r : Except Halt (Unit × State)) (k : Core → Act Unit), (do
        Act.pendDest (.g d)
        let k' ← Act.core
        k k' : Act Unit) (s.issued 4) = r ↔ k s.core u = r := by
      intro peek r k
      rw [Act.bind_ok (Act.pendDest_clean h4 _), ← hu, Act.bind_ok (Act.core_apply _), hk]
    refine ⟨?_, fun hp => ⟨?_, fun ht => ?_⟩⟩
    · have go : ∀ peek : Bool, (s.core.mp.getLsbD a.toNat = false ∨ (peek = false ∧ ∃ t ∈ s.core.takes, t.m = a.toNat ∧ t.peek = false)) →
          takeOp sp d a peek s = .next ((u.modCore (fun k => { k with takes := k.takes ++ [⟨a.toNat, s.cx, s.ctx.act, d, peek⟩] })).switch sp) := by
        intro peek hq
        apply issue_ok
        rw [Act.bind_ok (Act.pendDest_clean h4 _), ← hu, Act.bind_ok (Act.core_apply _), hk]
        have : (!s.core.mp.getLsbD a.toNat || (!peek && s.core.takes.any (fun t => t.m == a.toNat && !t.peek))) = true := by
          rcases hq with h | ⟨rfl, t, ht, h1, h2⟩
          · rw [h]; rfl
          · have : s.core.takes.any (fun t => t.m == a.toNat && !t.peek) = true := List.any_eq_true.2 ⟨t, ht, by simp [h1, h2]⟩
            simp [this]
        simp only [this, if_true]
        rfl
      intro f hf
      simp only [List.mem_cons, List.not_mem_nil, or_false] at hf
      rcases hf with rfl | rfl
      · exact go false
      · exact go true
    · show takeOp sp d a true s = _
      apply issue_ok
      rw [Act.bind_ok (Act.pendDest_clean h4 _), ← hu, Act.bind_ok (Act.core_apply _), hk]
      have : (!s.core.mp.getLsbD a.toNat || (!true && s.core.takes.any (fun t => t.m == a.toNat && !t.peek))) = false := by rw [hp]; rfl
      simp only [this, Bool.false_eq_true, if_false, hm]
      rfl
    · show takeOp sp d a false s = _
      apply issue_ok
      rw [Act.bind_ok (Act.pendDest_clean h4 _), ← hu, Act.bind_ok (Act.core_apply _), hk]
      have h2 : s.core.takes.any (fun t => t.m == a.toNat && !t.peek) = false := by
        rw [List.any_eq_false]; intro t h3 h4
        simp only [Bool.and_eq_true, beq_iff_eq, Bool.not_eq_true'] at h4
        rw [ht t h3 h4.1] at h4; exact absurd h4.2 (by decide)
      have : (!s.core.mp.getLsbD a.toNat || (!false && s.core.takes.any (fun t => t.m == a.toNat && !t.peek))) = false := by rw [hp, h2]; rfl
      simp only [this, Bool.false_eq_true, if_false, hm]
      subst hu
      rfl

end Sys2Proof.Machine
end

