-- ==== Sys2Proof/Laws/SpecialRegisters.lean ====
section
/-! SUPPORT. MFS and MTS, register by register. -/

set_option Elab.async false

namespace Sys2Proof.Machine

theorem sregNumber_ok {s : State} {n : Nat} {v : Word} (h1 : n < 0x100 ∨ s.ctx.stat.sup = true) (h2 : s.special s.pid s.cx n = some v) :
    Act.sregNumber n s = .ok ((), s) := by
  unfold Act.sregNumber
  have : (decide (0x100 ≤ n) && !s.ctx.stat.sup) = false := by
    rcases h1 with h | h
    · simp; omega
    · simp [h]
  rw [Act.bind_ok (Act.get_apply s), this, Act.bind_ok (Act.check_false _ _), h2]; rfl

theorem sregNumber_none {s : State} {n : Nat} (h1 : n < 0x100 ∨ s.ctx.stat.sup = true) (h2 : s.special s.pid s.cx n = none) :
    Act.sregNumber n s = .error (.raise (illegal 0)) := by
  unfold Act.sregNumber
  have : (decide (0x100 ≤ n) && !s.ctx.stat.sup) = false := by
    rcases h1 with h | h
    · simp; omega
    · simp [h]
  rw [Act.bind_ok (Act.get_apply s), this, Act.bind_ok (Act.check_false _ _), h2]; rfl

theorem sregNumber_priv {s : State} {n : Nat} (h1 : 0x100 ≤ n) (h2 : s.ctx.stat.sup = false) :
    Act.sregNumber n s = .error (.raise privFault) := by
  unfold Act.sregNumber
  have : (decide (0x100 ≤ n) && !s.ctx.stat.sup) = true := by simp [h1, h2]
  rw [Act.bind_ok (Act.get_apply s), this, Act.bind_error (Act.check_true _ _)]

theorem mfs_ok {s : State} {sp : Bool} {d : Reg} {i : BitVec 14} {v : Word} (hc : s.Clean)  (h1 : i.toNat < 0x100 ∨ s.ctx.stat.sup = true)
    (h2 : (s.issued 4).special s.pid s.cx i.toNat = some v) : exec (.mfs sp d i) s = .next (s.afterG sp 4 d v) := by
  apply issue_after
  rw [Act.bind_ok (sregNumber_ok (s := s.issued 4) (by simpa using h1) h2), Act.bind_ok (Act.get_apply _)]
  have h2' : (s.issued 4).special (s.issued 4).pid (s.issued 4).cx i.toNat = some v := h2
  rw [h2', Act.wrG_clean (hc.issued 4)]; rfl

theorem special_user (s : State) : ∀ e ∈ s.userRegisters, (s.issued 4).special s.pid s.cx e.1 = some e.2 := by
  have h : (s.issued 4).ctxAt s.pid s.cx = (s.issued 4).ctx := rfl
  unfold State.userRegisters
  simp only [List.cons_append, List.nil_append, List.forall_mem_cons]
  refine ⟨?_, ?_, ?_, ?_, ?_, ?_, ?_, ?_, ?_, ?_, ?_, ?_, ?_, ?_, ?_, ?_, ?_, ?_, ?_, ?_, ?_, ?_, ?_, ?_, ?_, ?_, ?_, ?_, ?_, ?_, ?_, ?_, ?_, ?_, ?_, ?_, ?_, ?_, ?_, fun _ h => nomatch h⟩ <;>
   simp [State.special, State.coreReg, Ctx.reg, h, State.cyc, Ctx.tstat]

theorem special_sup (s : State) : ∀ e ∈ s.supRegisters, (s.issued 4).special s.pid s.cx e.1 = some e.2 := by
  have h : (s.issued 4).ctxAt s.pid s.cx = (s.issued 4).ctx := rfl
  unfold State.supRegisters
  simp only [List.forall_mem_cons]
  refine ⟨?_, ?_, ?_, ?_, ?_, fun _ h => nomatch h⟩ <;>
   simp [State.special, State.coreReg, Ctx.reg, h, Core.preq, State.core]

theorem mfs_rules :
    ∀ (s : State) (sp : Bool) (d : Reg), s.Clean →
    (∀ e ∈ s.userRegisters, exec (.mfs sp d (BitVec.ofNat 14 e.1)) s = .next (s.afterG sp 4 d e.2))
    ∧ (s.ctx.stat.sup = true → ∀ e ∈ s.supRegisters, exec (.mfs sp d (BitVec.ofNat 14 e.1)) s = .next (s.afterG sp 4 d e.2))
    ∧ (s.ctx.stat.sup = false → ∀ i : BitVec 14, 0x100 ≤ i.toNat → exec (.mfs sp d i) s = .next (s.raised { eff := 0x002 }))
    ∧ (∀ i : BitVec 14, i.toNat ∈ [0x06, 0x07, 0x16, 0x26, 0x35, 0x44, 0x58, 0x62, 0x74, 0x83, 0xFF] →
        exec (.mfs sp d i) s = .next (s.raised { eff := 0x001 })) := by
  intro s sp d hc
  refine ⟨fun e he => ?_, fun hs e he => ?_, fun hs i hi => ?_, fun i hi => ?_⟩
  · have hn : e.1 < 0x100 := by
      have : ∀ e ∈ s.userRegisters, e.1 < 0x100 := by
        unfold State.userRegisters
        simp only [List.cons_append, List.nil_append, List.forall_mem_cons]
        decide
      exact this e he
    have hn2 : (BitVec.ofNat 14 e.1).toNat = e.1 := by rw [BitVec.toNat_ofNat]; exact Nat.mod_eq_of_lt (by omega)
    exact mfs_ok hc (by rw [hn2]; exact .inl hn) (by rw [hn2]; exact special_user s e he)
  · have hn : e.1 < 0x200 := by
      have : ∀ e ∈ s.supRegisters, e.1 < 0x200 := by
        unfold State.supRegisters
        simp only [List.forall_mem_cons]
        decide
      exact this e he
    have hn2 : (BitVec.ofNat 14 e.1).toNat = e.1 := by rw [BitVec.toNat_ofNat]; exact Nat.mod_eq_of_lt (by omega)
    exact mfs_ok hc (.inr hs) (by rw [hn2]; exact special_sup s e he)
  · apply issue_raise hc
    exact Act.bind_error (sregNumber_priv hi (by simpa using hs))
  · have hlt : i.toNat < 0x100 := by
      simp only [List.mem_cons, List.not_mem_nil, or_false] at hi; omega
    have hnone : (s.issued 4).special s.pid s.cx i.toNat = none := by
      simp only [List.mem_cons, List.not_mem_nil, or_false] at hi
      rcases hi with h | h | h | h | h | h | h | h | h | h | h <;> simp [State.special, State.coreReg, Ctx.reg, h]
    apply issue_raise hc
    exact Act.bind_error (sregNumber_none (.inl hlt) hnone)

theorem special_some (s : State) (n : Nat) (h : n ∈ [0x20, 0x21, 0x22, 0x23, 0x25, 0x40, 0x41, 0x42, 0x43, 0x30, 0x80, 0x81, 0x82, 0x100, 0x101, 0x106, 0x00, 0x01, 0x02, 0x03, 0x04, 0x05, 0x08, 0x0F, 0x10, 0x15, 0x24, 0x31, 0x34, 0x50, 0x60, 0x61, 0x70]) :
    ∃ v, s.special s.pid s.cx n = some v := by
  simp only [List.mem_cons, List.not_mem_nil, or_false] at h
  rcases h with h | h | h | h | h | h | h | h | h | h | h | h | h | h | h | h | h | h | h | h | h | h | h | h | h | h | h | h | h | h | h | h | h <;> subst h <;>
    simp [State.special, State.coreReg, Ctx.reg]

theorem mts_ok {s : State} {sp : Bool} {a : Reg} {n : Nat} (hc : s.Clean) (hn : n ∈ [0x20, 0x21, 0x22, 0x23, 0x25, 0x40, 0x41, 0x42, 0x43, 0x30, 0x80, 0x81, 0x82, 0x100])
    (h1 : writable n = true ∨ s.ctx.stat.sup = true) (h3 : 0x80 ≤ n → n ≤ 0x82 → carveOk (s.ctx.space.with n (s.ctx.g a)).sklo (s.ctx.space.with n (s.ctx.g a)).skhi (s.ctx.space.with n (s.ctx.g a)).ovf = true) :
    exec (.mts sp a (BitVec.ofNat 14 n)) s = .next (s.after sp 4 (fun c => c.write n (s.ctx.g a))) := by
  have hm : n ∈ [0x20, 0x21, 0x22, 0x23, 0x25, 0x40, 0x41, 0x42, 0x43, 0x30, 0x80, 0x81, 0x82, 0x100, 0x101, 0x106, 0x00, 0x01, 0x02, 0x03, 0x04, 0x05, 0x08, 0x0F, 0x10, 0x15, 0x24, 0x31, 0x34, 0x50, 0x60, 0x61, 0x70] := by
    simp only [List.mem_cons, List.not_mem_nil, or_false] at hn ⊢; omega
  obtain ⟨v, hv⟩ := special_some (s.issued 4) n hm
  have hlt : n < 0x200 := by simp only [List.mem_cons, List.not_mem_nil, or_false] at hn; omega
  have hn2 : (BitVec.ofNat 14 n).toNat = n := by rw [BitVec.toNat_ofNat]; exact Nat.mod_eq_of_lt (by omega)
  have hw : (!writable n && !supWritable n && !sysWritable n) = false := by
    simp only [List.mem_cons, List.not_mem_nil, or_false] at hn
    rcases hn with h | h | h | h | h | h | h | h | h | h | h | h | h | h <;> subst h <;> rfl
  have hwsup : writable n = true → supWritable n = false ∧ n < 0x100 := by
    simp only [List.mem_cons, List.not_mem_nil, or_false] at hn
    rcases hn with h | h | h | h | h | h | h | h | h | h | h | h | h | h <;> subst h <;> decide
  apply issue_after
  have hnum := sregNumber_ok (s := s.issued 4) (n := n) (by rcases h1 with h | h; exact .inl (hwsup h).2; exact .inr (by simpa using h)) hv
  show (do
    Act.sregNumber (BitVec.ofNat 14 n).toNat
    Act.check (!writable (BitVec.ofNat 14 n).toNat && !supWritable (BitVec.ofNat 14 n).toNat && !sysWritable (BitVec.ofNat 14 n).toNat) (illegal 0)
    Act.check (supWritable (BitVec.ofNat 14 n).toNat && !(← Act.sup)) privFault
    let v ← Act.rdG a
    let c ← Act.ctx
    let p := c.space.with (BitVec.ofNat 14 n).toNat v
    Act.check (0x80 ≤ (BitVec.ofNat 14 n).toNat && (BitVec.ofNat 14 n).toNat ≤ 0x82 && !carveOk p.sklo p.skhi p.ovf) (illegal v)
    if (BitVec.ofNat 14 n).toNat = 0x101 then Act.upd (fun s => s.writePreq s.pid v)
    else if (BitVec.ofNat 14 n).toNat = 0x106 then do
      Act.check (c.migrRefused v) (illegal v)
      Act.updCtx (fun c => c.requestMove v)
    else Act.updCtx (fun c => c.write (BitVec.ofNat 14 n).toNat v)) (s.issued 4) = _
  rw [hn2]
  have hp : (supWritable n && !s.ctx.stat.sup) = false := by
    rcases h1 with h | h
    · rw [(hwsup h).1]; rfl
    · simp [h]
  have hcv : (decide (0x80 ≤ n) && decide (n ≤ 0x82) && !carveOk (s.ctx.space.with n (s.ctx.g a)).sklo (s.ctx.space.with n (s.ctx.g a)).skhi (s.ctx.space.with n (s.ctx.g a)).ovf) = false := by
    by_cases ha : 0x80 ≤ n
    · by_cases hb : n ≤ 0x82
      · rw [h3 ha hb]; simp
      · simp [hb]
    · simp [ha]
  rw [Act.bind_ok hnum, hw, Act.bind_ok (Act.check_false _ _), Act.bind_ok (Act.sup_apply _), State.issued_stat, hp, Act.bind_ok (Act.check_false _ _),
    Act.bind_ok (Act.rdG_clean (hc.issued 4) a), Act.bind_ok (Act.ctx_apply _), State.issued_g, State.issued_space]
  rw [hcv, Act.bind_ok (Act.check_false _ _), if_neg, if_neg]; rfl
  · simp only [List.mem_cons, List.not_mem_nil, or_false] at hn; omega
  · simp only [List.mem_cons, List.not_mem_nil, or_false] at hn; omega

theorem carve_valid (p : Space) : carveOk p.sklo p.skhi p.ovf = true ↔ p.valid := by
  simp only [carveOk, Space.valid, Bool.and_eq_true, beq_iff_eq, decide_eq_true_eq, Bool.or_eq_true, Config.spadBytes, and_assoc]
  simp
  intros; exact decide_eq_true_iff

def mtsRest (a : Reg) (n : Nat) : Act Unit := do
    let v ← Act.rdG a
    let c ← Act.ctx
    let p := c.space.with n v
    Act.check (0x80 ≤ n && n ≤ 0x82 && !carveOk p.sklo p.skhi p.ovf) (illegal v)
    if n = 0x101 then Act.upd (fun s => s.writePreq s.pid v)
    else if n = 0x106 then do
      Act.check (c.migrRefused v) (illegal v)
      Act.updCtx (fun c => c.requestMove v)
    else Act.updCtx (fun c => c.write n v)

theorem mts_bad {s : State} {sp : Bool} {a : Reg} {n : Nat} (hc : s.Clean) (hn : n ∈ [0x80, 0x81, 0x82])
    (hs : s.ctx.stat.sup = true) (h3 : ¬ carveOk (s.ctx.space.with n (s.ctx.g a)).sklo (s.ctx.space.with n (s.ctx.g a)).skhi (s.ctx.space.with n (s.ctx.g a)).ovf = true) :
    exec (.mts sp a (BitVec.ofNat 14 n)) s = .next (s.raised { eff := 0x001, arg := s.ctx.g a }) := by
  apply issue_raise hc
  show (do
      Act.sregNumber (BitVec.ofNat 14 n).toNat
      Act.check (!writable (BitVec.ofNat 14 n).toNat && !supWritable (BitVec.ofNat 14 n).toNat && !sysWritable (BitVec.ofNat 14 n).toNat) (illegal 0)
      Act.check (supWritable (BitVec.ofNat 14 n).toNat && !(← Act.sup)) privFault
      mtsRest a (BitVec.ofNat 14 n).toNat) (s.issued 4) = _
  have hn2 : (BitVec.ofNat 14 n).toNat = n := by
      rw [BitVec.toNat_ofNat]; apply Nat.mod_eq_of_lt; simp only [List.mem_cons, List.not_mem_nil, or_false] at hn; omega
  rw [hn2]
  have hr : 0x80 ≤ n ∧ n ≤ 0x82 := by simp only [List.mem_cons, List.not_mem_nil, or_false] at hn; omega
  obtain ⟨v, hv⟩ := special_some (s.issued 4) n (by simp only [List.mem_cons, List.not_mem_nil, or_false] at hn ⊢; omega)
  have hw : (!writable n && !supWritable n && !sysWritable n) = false := by
        simp only [List.mem_cons, List.not_mem_nil, or_false] at hn
        rcases hn with h | h | h <;> subst h <;> decide
  have hcv : (decide (0x80 ≤ n) && decide (n ≤ 0x82) && !carveOk (s.ctx.space.with n (s.ctx.g a)).sklo (s.ctx.space.with n (s.ctx.g a)).skhi (s.ctx.space.with n (s.ctx.g a)).ovf) = true := by
    simp [hr.1, hr.2, h3]
  rw [Act.bind_ok (sregNumber_ok (s := s.issued 4) (.inl (by omega)) hv), hw, Act.bind_ok (Act.check_false _ _), Act.bind_ok (Act.sup_apply _), State.issued_stat, hs,
    Bool.not_true, Bool.and_false, Act.bind_ok (Act.check_false _ _)]
  unfold mtsRest
  rw [Act.bind_ok (Act.rdG_clean (hc.issued 4) a), Act.bind_ok (Act.ctx_apply _), State.issued_g, State.issued_space]
  rw [hcv]
  exact Act.bind_error (Act.check_true _ _)

theorem mts_rules :
    ∀ (s : State) (sp : Bool) (a : Reg), s.Clean →
    (∀ e ∈ writeRows (s.ctx.g a), exec (.mts sp a (BitVec.ofNat 14 e.1)) s = .next (s.after sp 4 e.2))
    ∧ (s.ctx.stat.sup = true →
      exec (.mts sp a 0x30) s = .next (s.after sp 4 (fun c => { c with hf := s.ctx.g a }))
      ∧ exec (.mts sp a 0x100) s = .next (s.after sp 4 (fun c => { c with space := { c.space with ptroot := s.ctx.g a &&& 0xFFFFFFFFFFFF } }))
      ∧ ∀ e ∈ spaceRows s.ctx.space (s.ctx.g a),
        (e.2.valid → exec (.mts sp a (BitVec.ofNat 14 e.1)) s = .next (s.after sp 4 (fun c => { c with space := e.2 })))
        ∧ (¬ e.2.valid → exec (.mts sp a (BitVec.ofNat 14 e.1)) s = .next (s.raised { eff := 0x001, arg := s.ctx.g a })))
    ∧ (s.ctx.stat.sup = false → ∀ n ∈ [0x30, 0x80, 0x81, 0x82, 0x100, 0x101, 0x106],
        exec (.mts sp a (BitVec.ofNat 14 n)) s = .next (s.raised { eff := 0x002 }))
    ∧ (∀ n ∈ [0x00, 0x01, 0x02, 0x03, 0x04, 0x05, 0x08, 0x0F, 0x10, 0x15, 0x24, 0x31, 0x34, 0x50, 0x60, 0x61, 0x70],
        exec (.mts sp a (BitVec.ofNat 14 n)) s = .next (s.raised { eff := 0x001 })) := by
  intro s sp a hc
  refine ⟨?_, fun hs => ⟨?_, ?_, ?_⟩, fun hs n hn => ?_, fun n hn => ?_⟩
  · simp only [writeRows, List.forall_mem_cons]
    refine ⟨?_, ?_, ?_, ?_, ?_, ?_, ?_, ?_, ?_, fun _ h => nomatch h⟩ <;> exact mts_ok hc (by simp) (.inl rfl) (by intro h h2; omega)
  · exact mts_ok (n := 0x30) hc (by simp) (.inr hs) (by intro h h2; omega)
  · exact mts_ok (n := 0x100) hc (by simp) (.inr hs) (by intro h h2; omega)
  · simp only [spaceRows, List.forall_mem_cons]
    refine ⟨?_, ?_, ?_, fun _ h => nomatch h⟩ <;> refine ⟨fun h => ?_, fun h => ?_⟩
    · rw [mts_ok (n := 0x80) hc (by simp) (.inr hs) (fun _ _ => (carve_valid _).2 h)]; exact congrArg _ (State.after_congr (by simp [Ctx.write, Space.with]))
    · exact mts_bad (n := 0x80) hc (by simp) hs (fun e => h ((carve_valid _).1 e))
    · rw [mts_ok (n := 0x81) hc (by simp) (.inr hs) (fun _ _ => (carve_valid _).2 h)]; exact congrArg _ (State.after_congr (by simp [Ctx.write, Space.with]))
    · exact mts_bad (n := 0x81) hc (by simp) hs (fun e => h ((carve_valid _).1 e))
    · rw [mts_ok (n := 0x82) hc (by simp) (.inr hs) (fun _ _ => (carve_valid _).2 h)]; exact congrArg _ (State.after_congr (by simp [Ctx.write, Space.with]))
    · exact mts_bad (n := 0x82) hc (by simp) hs (fun e => h ((carve_valid _).1 e))
  · apply issue_raise hc
    show (do
      Act.sregNumber (BitVec.ofNat 14 n).toNat
      Act.check (!writable (BitVec.ofNat 14 n).toNat && !supWritable (BitVec.ofNat 14 n).toNat && !sysWritable (BitVec.ofNat 14 n).toNat) (illegal 0)
      Act.check (supWritable (BitVec.ofNat 14 n).toNat && !(← Act.sup)) privFault
      mtsRest a (BitVec.ofNat 14 n).toNat) (s.issued 4) = _
    have hn2 : (BitVec.ofNat 14 n).toNat = n := by
      rw [BitVec.toNat_ofNat]; apply Nat.mod_eq_of_lt; simp only [List.mem_cons, List.not_mem_nil, or_false] at hn; omega
    rw [hn2]
    by_cases h1 : n < 0x100
    · obtain ⟨v, hv⟩ := special_some (s.issued 4) n (by simp only [List.mem_cons, List.not_mem_nil, or_false] at hn ⊢; omega)
      have hw : (!writable n && !supWritable n && !sysWritable n) = false ∧ supWritable n = true := by
        simp only [List.mem_cons, List.not_mem_nil, or_false] at hn
        rcases hn with h | h | h | h | h | h | h <;> subst h <;> first | decide | omega
      rw [Act.bind_ok (sregNumber_ok (s := s.issued 4) (.inl h1) hv), hw.1, Act.bind_ok (Act.check_false _ _), Act.bind_ok (Act.sup_apply _), State.issued_stat, hs, hw.2]
      exact Act.bind_error (Act.check_true _ _)
    · exact Act.bind_error (sregNumber_priv (by omega) (by simpa using hs))
  · apply issue_raise hc
    show (do
      Act.sregNumber (BitVec.ofNat 14 n).toNat
      Act.check (!writable (BitVec.ofNat 14 n).toNat && !supWritable (BitVec.ofNat 14 n).toNat && !sysWritable (BitVec.ofNat 14 n).toNat) (illegal 0)
      Act.check (supWritable (BitVec.ofNat 14 n).toNat && !(← Act.sup)) privFault
      mtsRest a (BitVec.ofNat 14 n).toNat) (s.issued 4) = _
    have hn2 : (BitVec.ofNat 14 n).toNat = n := by
      rw [BitVec.toNat_ofNat]; apply Nat.mod_eq_of_lt; simp only [List.mem_cons, List.not_mem_nil, or_false] at hn; omega
    rw [hn2]
    obtain ⟨v, hv⟩ := special_some (s.issued 4) n (by simp only [List.mem_cons, List.not_mem_nil, or_false] at hn ⊢; omega)
    have hw : (!writable n && !supWritable n && !sysWritable n) = true := by
        simp only [List.mem_cons, List.not_mem_nil, or_false] at hn
        rcases hn with h | h | h | h | h | h | h | h | h | h | h | h | h | h | h | h | h <;> subst h <;> decide
    rw [Act.bind_ok (sregNumber_ok (s := s.issued 4) (.inl (by simp only [List.mem_cons, List.not_mem_nil, or_false] at hn; omega)) hv), hw]
    exact Act.bind_error (Act.check_true _ _)

end Sys2Proof.Machine
end

