-- ==== Sys2Proof/Laws/BitBuffer.lean ====
section
/-! SUPPORT. The bit-buffer instructions: what is read of the ring, and when the buffer fills. -/

set_option Elab.async false

namespace Sys2Proof.Machine

theorem ring_ok {s : State} {m : Option Bool} (h : s.ctx.bb.ringOk) (hm : m = none ∨ m = some (flag s.ctx.bb.lo 0)) :
    Act.ring m s = .ok (s.ctx.bb, s) := by
  have : ringValid s.ctx.bb = true := by
    simp only [ringValid, ringBase, ringLimit, Bool.and_eq_true]; exact ⟨decide_eq_true h.1, decide_eq_true h.2⟩
  unfold Act.ring
  rw [Act.bind_ok (Act.ctx_apply s), this]
  rcases hm with rfl | rfl
  · rfl
  · have : (!true || (Option.map (fun m => m != writeMode s.ctx.bb) (some (flag s.ctx.bb.lo 0))).getD false) = false := by
      simp [writeMode]
    rw [this]; rfl

theorem streamBits_testBit (s : State) (b : BitBuf) (hb : True) : ∀ n j i, (s.streamBits s.pid b j n).testBit i = (decide (i < n) && s.ringBit b (j + i)) := by
  intro n
  induction n with
  | zero => intro j i; simp [State.streamBits]
  | succ n ih =>
    intro j i
    have hbit : bitOf (Memory.rd s.mem (spadKey s.pid (bitByte b j))).toNat (j % 8) = s.ringBit b j := by
      unfold State.ringBit bitOf
      have : bitByte b j = b.byteOf j := rfl
      rw [this, BitVec.getLsbD, Nat.testBit_eq_decide_div_mod_eq]
      exact Bool.beq_eq_decide_eq _ _
    rw [State.streamBits, hbit]
    cases i with
    | zero =>
      cases s.ringBit b j <;> simp [b2n, Nat.testBit_zero] 
    | succ i =>
      have : (b2n (s.ringBit b j) + 2 * s.streamBits s.pid b (j + 1) n) / 2 = s.streamBits s.pid b (j + 1) n := by
        cases s.ringBit b j <;> simp [b2n] <;> omega
      rw [Nat.testBit_succ, this, ih]
      rw [show j + 1 + i = j + (i + 1) by omega]
      simp

theorem field_testBit (s : State) (b : BitBuf) : ∀ n j i, (s.field b j n).testBit i = (decide (i < n) && s.streamBit b (j + i)) := by
  intro n
  induction n with
  | zero => intro j i; simp [State.field]
  | succ n ih =>
    intro j i
    rw [State.field]
    cases i with
    | zero => cases s.streamBit b j <;> simp [Nat.testBit_zero]
    | succ i =>
      have : ((if s.streamBit b j = true then 1 else 0) + 2 * s.field b (j + 1) n) / 2 = s.field b (j + 1) n := by
        cases s.streamBit b j <;> simp <;> omega
      rw [Nat.testBit_succ, this, ih, show j + 1 + i = j + (i + 1) by omega]
      simp

theorem readable_ok {s : State} {here : Word} {b : BitBuf} : ∀ n j, (∀ i, i < n → s.byteFree (b.byteOf (j + 8 * i))) →
    Act.readable here b j n s = .ok ((), s) := by
  intro n
  induction n with
  | zero => intro j _; rfl
  | succ n ih =>
    intro j h
    obtain ⟨h1, h2, h3, -⟩ := h 0 (by omega)
    have e : bitByte b j = b.byteOf (j + 8 * 0) := rfl
    unfold Act.readable
    simp only [e]
    rw [Act.bind_ok (Act.ownBytes_free h1 h2), Act.bind_ok (Act.get_apply s), Act.bind_ok (Act.get_apply s), h3, Act.bind_ok (Act.check_false _ _)]
    refine ih (j + 8) (fun i hi => ?_)
    have := h (i + 1) (by omega)
    rw [show j + 8 * (i + 1) = j + 8 + 8 * i by omega] at this; exact this

theorem byteOf_congr (b : BitBuf) {i j : Nat} (h : i / 8 = j / 8) : b.byteOf i = b.byteOf j := by unfold BitBuf.byteOf; rw [h]

/-- What the refill answers: a buffer with the same registers whose low bits are the stream's: n of them where they were all
buffered, else 128. -/
theorem refill_full {s : State} {here : Word} {n : Nat} (h : s.Readable s.ctx.bb) (hn : n ≤ 128) :
    ∃ c, Act.refill here n s = .ok (c, s) ∧ c.pos = s.ctx.bb.pos ∧ c.lim = s.ctx.bb.lim ∧ c.lo = s.ctx.bb.lo ∧ c.hi = s.ctx.bb.hi
      ∧ ∀ k m, k + m ≤ (if min (s.ctx.bb.pos.toNat + n) s.ctx.bb.lim.toNat ≤ s.ctx.bb.pos.toNat + s.ctx.bb.bbn.toNat then n else 128) →
        c.bitsAt k m = s.field s.ctx.bb (s.ctx.bb.pos.toNat + k) m := by
  have hpos := s.ctx.bb.pos.isLt
  unfold Act.refill
  rw [Act.bind_ok (ring_ok h.ring (.inr (by rw [h.mode])))]
  simp only []
  split
  · rename_i hc
    refine ⟨s.ctx.bb, rfl, rfl, rfl, rfl, rfl, fun k m hkm => ?_⟩
    rw [if_pos (by omega)] at hkm
    apply Nat.eq_of_testBit_eq; intro i
    rw [field_testBit]
    unfold BitBuf.bitsAt State.streamBit
    rw [Nat.testBit_mod_two_pow, Nat.testBit_div_two_pow, Nat.testBit_mod_two_pow]
    by_cases hi : i < m
    · simp only [hi, decide_true, Bool.true_and]
      rw [show i + k = k + i by omega]
      by_cases hl : s.ctx.bb.pos.toNat + k + i < s.ctx.bb.lim.toNat
      · have h2 : s.ctx.bb.pos.toNat + k + i < s.ctx.bb.pos.toNat + s.ctx.bb.bbn.toNat := by omega
        rw [if_pos h2]
        simp only [hl, decide_true, Bool.true_and, BitVec.getLsbD]
        rw [show s.ctx.bb.pos.toNat + k + i - s.ctx.bb.pos.toNat = k + i by omega]
        have : k + i < min s.ctx.bb.bbn.toNat (s.ctx.bb.lim.toNat - s.ctx.bb.pos.toNat) := by omega
        simp [this]
      · have : ¬ k + i < min s.ctx.bb.bbn.toNat (s.ctx.bb.lim.toNat - s.ctx.bb.pos.toNat) := by omega
        simp [hl, this]
    · simp [hi]
  · rename_i hc
    have hr : Act.readable here s.ctx.bb (s.ctx.bb.pos.toNat + s.ctx.bb.bbn.toNat)
        ((min (s.ctx.bb.pos.toNat + 128) s.ctx.bb.lim.toNat - 1) / 8 - (s.ctx.bb.pos.toNat + s.ctx.bb.bbn.toNat) / 8 + 1) s = .ok ((), s) := by
      apply readable_ok
      intro i hi
      by_cases hlt : s.ctx.bb.pos.toNat + s.ctx.bb.bbn.toNat + 8 * i < s.ctx.bb.pos.toNat + 128
      · exact h.bytes _ (by omega) hlt
      · have := h.bytes (min (s.ctx.bb.pos.toNat + 128) s.ctx.bb.lim.toNat - 1) (by omega) (by omega)
        rw [byteOf_congr (j := min (s.ctx.bb.pos.toNat + 128) s.ctx.bb.lim.toNat - 1)]
        · exact this
        · omega
    have hg := (h.bytes s.ctx.bb.pos.toNat (by omega) (by omega)).2.2.2
    rw [Act.bind_ok (Act.gate_open hg), Act.bind_ok hr, Act.bind_ok (Act.get_apply s)]
    refine ⟨_, rfl, rfl, rfl, rfl, rfl, fun k m hkm => ?_⟩
    rw [if_neg (by omega)] at hkm
    apply Nat.eq_of_testBit_eq; intro i
    rw [field_testBit]
    unfold BitBuf.bitsAt State.streamBit
    simp only []
    rw [Nat.testBit_mod_two_pow, Nat.testBit_div_two_pow, Nat.testBit_mod_two_pow]
    have hst : (W (min (s.ctx.bb.pos.toNat + 128) s.ctx.bb.lim.toNat - s.ctx.bb.pos.toNat)).toNat = min (s.ctx.bb.pos.toNat + 128) s.ctx.bb.lim.toNat - s.ctx.bb.pos.toNat := by
      rw [BitVec.toNat_ofNat]; apply Nat.mod_eq_of_lt; omega
    rw [hst]
    by_cases hi : i < m
    · simp only [hi, decide_true, Bool.true_and]
      rw [show i + k = k + i by omega]
      by_cases hl : s.ctx.bb.pos.toNat + k + i < s.ctx.bb.lim.toNat
      · have : k + i < min (min (s.ctx.bb.pos.toNat + 128) s.ctx.bb.lim.toNat - s.ctx.bb.pos.toNat) (s.ctx.bb.lim.toNat - s.ctx.bb.pos.toNat) := by omega
        simp only [this, hl, decide_true, Bool.true_and]
        have hfits : s.ctx.bb.bits.toNat % 2 ^ s.ctx.bb.bbn.toNat + 2 ^ s.ctx.bb.bbn.toNat * s.streamBits s.pid s.ctx.bb (s.ctx.bb.pos.toNat + s.ctx.bb.bbn.toNat)
            (min (s.ctx.bb.pos.toNat + 128) s.ctx.bb.lim.toNat - (s.ctx.bb.pos.toNat + s.ctx.bb.bbn.toNat)) = 
            2 ^ s.ctx.bb.bbn.toNat * s.streamBits s.pid s.ctx.bb (s.ctx.bb.pos.toNat + s.ctx.bb.bbn.toNat)
            (min (s.ctx.bb.pos.toNat + 128) s.ctx.bb.lim.toNat - (s.ctx.bb.pos.toNat + s.ctx.bb.bbn.toNat)) + s.ctx.bb.bits.toNat % 2 ^ s.ctx.bb.bbn.toNat := by omega
        rw [BitVec.toNat_ofNat, Nat.testBit_mod_two_pow, hfits, Nat.testBit_two_pow_mul_add _ (Nat.mod_lt _ (Nat.two_pow_pos _))]
        have h128 : k + i < 128 := by omega
        simp only [h128, decide_true, Bool.true_and]
        by_cases h2 : k + i < s.ctx.bb.bbn.toNat
        · rw [if_pos h2, if_pos (by omega), Nat.testBit_mod_two_pow, BitVec.getLsbD, show s.ctx.bb.pos.toNat + k + i - s.ctx.bb.pos.toNat = k + i by omega]
          simp [h2]
        · rw [if_neg h2, if_neg (by omega), streamBits_testBit _ _ trivial]
          have : k + i - s.ctx.bb.bbn.toNat < min (s.ctx.bb.pos.toNat + 128) s.ctx.bb.lim.toNat - (s.ctx.bb.pos.toNat + s.ctx.bb.bbn.toNat) := by omega
          simp only [this, decide_true, Bool.true_and]
          congr 1; omega
      · have : ¬ k + i < min (min (s.ctx.bb.pos.toNat + 128) s.ctx.bb.lim.toNat - s.ctx.bb.pos.toNat) (s.ctx.bb.lim.toNat - s.ctx.bb.pos.toNat) := by omega
        simp [hl, this]
    · simp [hi]

theorem Readable.issued {s : State} {b : BitBuf} (h : s.Readable b) (len : Nat) : (s.issued len).Readable b where
  ring := h.ring
  mode := h.mode
  small := h.small
  bytes := fun j h1 h2 => State.spanFree_issued (h.bytes j h1 h2) len

/-- What the refill answers: a buffer with the same registers whose low n bits are the stream's. -/
theorem refill_ok {s : State} {here : Word} {n : Nat} (h : s.Readable s.ctx.bb) (hn : n ≤ 128) :
    ∃ c, Act.refill here n s = .ok (c, s) ∧ c.pos = s.ctx.bb.pos ∧ c.lim = s.ctx.bb.lim ∧ c.lo = s.ctx.bb.lo ∧ c.hi = s.ctx.bb.hi
      ∧ ∀ k m, k + m ≤ n → c.bitsAt k m = s.field s.ctx.bb (s.ctx.bb.pos.toNat + k) m := by
  obtain ⟨c, h1, h2, h3, h4, h5, h6⟩ := refill_full (here := here) h hn
  exact ⟨c, h1, h2, h3, h4, h5, fun k m hkm => h6 k m (by split <;> omega)⟩

/-- A buffered bit is the stream's. -/
theorem bitsAt_buffered {s : State} {i : Nat} (hi : i < s.ctx.bb.bbn.toNat) :
    s.ctx.bb.bitsAt i 1 = if s.streamBit s.ctx.bb (s.ctx.bb.pos.toNat + i) then 1 else 0 := by
  have : s.ctx.bb.bitsAt i 1 = s.field s.ctx.bb (s.ctx.bb.pos.toNat + i) 1 := by
    apply Nat.eq_of_testBit_eq; intro j
    rw [field_testBit]
    unfold BitBuf.bitsAt State.streamBit
    rw [Nat.testBit_mod_two_pow, Nat.testBit_div_two_pow, Nat.testBit_mod_two_pow]
    by_cases hj : j < 1
    · have hj0 : j = 0 := by omega
      subst hj0
      simp only [Nat.zero_add, Nat.add_zero, hj, decide_true, Bool.true_and]
      by_cases hl : s.ctx.bb.pos.toNat + i < s.ctx.bb.lim.toNat
      · rw [if_pos (by omega)]
        simp only [hl, decide_true, Bool.true_and, BitVec.getLsbD]
        rw [show s.ctx.bb.pos.toNat + i - s.ctx.bb.pos.toNat = i by omega]
        have : i < min s.ctx.bb.bbn.toNat (s.ctx.bb.lim.toNat - s.ctx.bb.pos.toNat) := by omega
        simp [this]
      · have : ¬ i < min s.ctx.bb.bbn.toNat (s.ctx.bb.lim.toNat - s.ctx.bb.pos.toNat) := by omega
        simp [hl, this]
    · simp [hj]
  rw [this]; simp [State.field]

/-- What the first look of a code asks of the refill: all of the code, or a bit that is not buffered, which brings in 128. -/
theorem egNeeds_enough {s : State} {k z : Nat} (hz : z ≤ 32)
    (h0 : ∀ i, i < z → s.streamBit s.ctx.bb (s.ctx.bb.pos.toNat + i) = false) (h1 : s.streamBit s.ctx.bb (s.ctx.bb.pos.toNat + z) = true)
    (hl : s.ctx.bb.pos.toNat + 2 * z + 1 + k ≤ s.ctx.bb.lim.toNat) (hk : k ≤ 31) :
    egNeeds s.ctx.bb k ≤ 128 ∧ 2 * z + 1 + k ≤ (if min (s.ctx.bb.pos.toNat + egNeeds s.ctx.bb k) s.ctx.bb.lim.toNat ≤
      s.ctx.bb.pos.toNat + s.ctx.bb.bbn.toNat then egNeeds s.ctx.bb k else 128) := by
  have key : egNeeds s.ctx.bb k = if z < s.ctx.bb.bbn.toNat then 2 * z + 1 + k else min (s.ctx.bb.bbn.toNat + 1) 33 := by
    unfold egNeeds
    by_cases hb : z < s.ctx.bb.bbn.toNat
    · have : (List.range (min s.ctx.bb.bbn.toNat 33)).find? (fun z => decide (s.ctx.bb.bitsAt z 1 = 1)) = some z := by
        rw [List.find?_range_eq_some]
        refine ⟨?_, ?_, ?_⟩
        · rw [bitsAt_buffered hb, h1]; rfl
        · simp; omega
        · intro j hj
          rw [bitsAt_buffered (by omega), h0 j hj]; rfl
      rw [this, if_pos hb]
      simp only []
      rw [if_neg (by omega)]
    · have : (List.range (min s.ctx.bb.bbn.toNat 33)).find? (fun z => decide (s.ctx.bb.bitsAt z 1 = 1)) = none := by
        rw [List.find?_eq_none]
        intro j hj
        simp only [List.mem_range] at hj
        rw [bitsAt_buffered (by omega), h0 j (by omega)]; simp
      rw [this, if_neg hb]
  rw [key]
  split
  · exact ⟨by omega, by split <;> omega⟩
  · exact ⟨by omega, by rw [if_neg (by omega)]; omega⟩

theorem field_issued (s : State) (len : Nat) (b : BitBuf) (n j : Nat) : (s.issued len).field b j n = s.field b j n := by
  induction n generalizing j with
  | zero => rfl
  | succ n ih => rw [State.field, State.field, ih]; rfl

theorem bits_rules :
    ∀ (s : State) (sp : Bool) (d a b : Reg), s.Clean →
    exec (.bspos sp d) s = .next (s.afterG sp 4 d s.ctx.bb.pos)
    ∧ (∀ x y, x = s.ctx.g a → y = s.ctx.g b →
      (fld x 63 21 = 0 ∧ fld x 5 1 = 0 ∧ y.toNat % 64 = 0 ∧ fld x 20 6 * 64 < y.toNat ∧ y.toNat ≤ 0x180000 →
        exec (.bsinit sp a b) s = .next (s.after sp 4 (fun c => { c with bb := ⟨0, 0, 0, W (8 * (y.toNat - fld x 20 6 * 64)), x, y⟩ })))
      ∧ (¬ (fld x 63 21 = 0 ∧ fld x 5 1 = 0 ∧ y.toNat % 64 = 0 ∧ fld x 20 6 * 64 < y.toNat ∧ y.toNat ≤ 0x180000) →
        exec (.bsinit sp a b) s = .next (s.raised { eff := 0x001, arg := x })))
    ∧ (s.Readable s.ctx.bb → (s.ctx.g a).toNat ≤ 64 →
      (s.ctx.bb.pos.toNat + (s.ctx.g a).toNat ≤ s.ctx.bb.lim.toNat →
        ∃ t e, exec (.bsget sp d a) s = .next ((t : State).switch sp)
          ∧ t = (s.issued 4).modCtx (fun c => { c.setG d (W (s.field s.ctx.bb s.ctx.bb.pos.toNat (s.ctx.g a).toNat)) with bb := e })
          ∧ e.pos = s.ctx.bb.pos + s.ctx.g a ∧ e.lim = s.ctx.bb.lim ∧ e.lo = s.ctx.bb.lo ∧ e.hi = s.ctx.bb.hi)
      ∧ (s.ctx.bb.lim.toNat < s.ctx.bb.pos.toNat + (s.ctx.g a).toNat →
        exec (.bsget sp d a) s = .next (s.takes sp { eff := 0x022, arg := s.ctx.g a }))
      ∧ (∃ t e, exec (.bspeek sp d a) s = .next ((t : State).switch sp)
          ∧ t = (s.issued 4).modCtx (fun c => { c.setG d (W (s.field s.ctx.bb s.ctx.bb.pos.toNat (s.ctx.g a).toNat)) with bb := e })
          ∧ e.pos = s.ctx.bb.pos ∧ e.lim = s.ctx.bb.lim ∧ e.lo = s.ctx.bb.lo ∧ e.hi = s.ctx.bb.hi))
    ∧ (s.ctx.bb.ringOk → flag s.ctx.bb.lo 0 = false →
      (s.ctx.bb.pos.toNat + (s.ctx.g a).toNat ≤ s.ctx.bb.lim.toNat →
        ∃ e, exec (.bsskip sp a) s = .next (s.after sp 4 (fun c => { c with bb := e })) ∧ e.pos = s.ctx.bb.pos + s.ctx.g a
          ∧ ∀ j, j < s.ctx.bb.bbn.toNat - (s.ctx.g a).toNat → e.bits.getLsbD j = s.ctx.bb.bits.getLsbD (j + (s.ctx.g a).toNat))
      ∧ (s.ctx.bb.lim.toNat < s.ctx.bb.pos.toNat + (s.ctx.g a).toNat →
        exec (.bsskip sp a) s = .next (s.takes sp { eff := 0x022, arg := s.ctx.g a }))) := by
  intro s sp d a b hc
  have h4 := hc.issued 4
  refine ⟨?_, fun x y hx hy => ⟨fun h => ?_, fun h => ?_⟩, fun hr hn => ⟨fun hl => ?_, fun hl => ?_, ?_⟩, fun hro hmode => ⟨fun hl => ?_, fun hl => ?_⟩⟩
  · apply issue_after
    rw [Act.bind_ok (Act.ctx_apply _), State.issued_bb, Act.wrG_clean h4]
  · obtain ⟨e1, e2, e3, e4, e5⟩ := h
    apply issue_after
    rw [Act.bind_ok (Act.rdG_clean h4 a), Act.bind_ok (Act.rdG_clean h4 b)]
    simp only [State.issued_g, ← hx, ← hy]
    have e6 : (fld x 63 21 != 0 || fld x 5 1 != 0 || y.toNat % 64 != 0 || !decide (fld x 20 6 < y.toNat / 64) || decide (y.toNat > Config.spadBytes)) = false := by
      have : fld x 20 6 < y.toNat / 64 := by omega
      have e5' : ¬ y.toNat > Config.spadBytes := by simp only [Config.spadBytes]; omega
      simp [e1, e2, e3, this, e5']
    rw [e6, Act.bind_ok (Act.check_false _ _)]; rfl
  · apply issue_raise hc
    rw [Act.bind_ok (Act.rdG_clean h4 a), Act.bind_ok (Act.rdG_clean h4 b)]
    simp only [State.issued_g, ← hx, ← hy]
    have e6 : (fld x 63 21 != 0 || fld x 5 1 != 0 || y.toNat % 64 != 0 || !decide (fld x 20 6 < y.toNat / 64) || decide (y.toNat > Config.spadBytes)) = true := by
      rw [← Bool.not_eq_false]
      intro e
      simp only [Bool.or_eq_false_iff, bne_eq_false_iff_eq, Bool.not_eq_false', decide_eq_true_eq] at e
      obtain ⟨⟨⟨⟨e1, e2⟩, e3⟩, e4⟩, e5⟩ := e
      have e5' := of_decide_eq_false e5
      simp only [Config.spadBytes] at e5'
      exact h ⟨e1, e2, e3, by omega, by omega⟩
    rw [e6, Act.bind_error (Act.check_true _ _)]; rfl
  · have hr4 := Readable.issued hr 4
    have hbb : (s.issued 4).ctx.bb = s.ctx.bb := State.issued_bb _ _
    rw [← hbb] at hr4
    obtain ⟨c, hc1, hp, hlm, hlo, hhi, hbits⟩ := refill_ok (here := s.here) (n := (s.ctx.g a).toNat) hr4 (by omega)
    refine ⟨_, c.advance (s.ctx.g a).toNat, ?_, rfl, ?_, ?_, ?_, ?_⟩
    · apply issue_ok
      rw [Act.bind_ok (Act.rdG_clean h4 a), State.issued_g, Act.bind_ok (ring_ok (by rw [hbb]; exact hr.ring) (.inr (by rw [hbb, hr.mode])))]
      rw [show decide (64 < (s.ctx.g a).toNat) = false by simp; omega, Act.bind_ok (Act.check_false _ _), hbb,
        show (true && decide (s.ctx.bb.pos.toNat + (s.ctx.g a).toNat > s.ctx.bb.lim.toNat)) = false by simp; omega, Act.bind_ok (Act.check_false _ _), Act.bind_ok hc1,
        Act.bind_ok (Act.wrG_clean h4 _ _)]
      have hv := hbits 0 (s.ctx.g a).toNat (by omega)
      rw [hv, field_issued, hbb]
      simp only [Act.setBb, Act.updCtx_apply, State.modCtx_modCtx, Nat.add_zero, if_true]
    · simp [BitBuf.advance, hp, hbb]
    · simp [BitBuf.advance, hlm, hbb]
    · simp [BitBuf.advance, hlo, hbb]
    · simp [BitBuf.advance, hhi, hbb]
  · have hbb : (s.issued 4).ctx.bb = s.ctx.bb := State.issued_bb _ _
    apply issue_takes hc
    rw [Act.bind_ok (Act.rdG_clean h4 a), State.issued_g, Act.bind_ok (ring_ok (by rw [hbb]; exact hr.ring) (.inr (by rw [hbb, hr.mode])))]
    rw [show decide (64 < (s.ctx.g a).toNat) = false by simp; omega, Act.bind_ok (Act.check_false _ _), hbb,
        show (true && decide (s.ctx.bb.pos.toNat + (s.ctx.g a).toNat > s.ctx.bb.lim.toNat)) = true by simp; omega, Act.bind_error (Act.check_true _ _)]; rfl
  · have hr4 := Readable.issued hr 4
    have hbb : (s.issued 4).ctx.bb = s.ctx.bb := State.issued_bb _ _
    rw [← hbb] at hr4
    obtain ⟨c, hc1, hp, hlm, hlo, hhi, hbits⟩ := refill_ok (here := s.here) (n := (s.ctx.g a).toNat) hr4 (by omega)
    refine ⟨_, c, ?_, rfl, ?_, ?_, ?_, ?_⟩
    · apply issue_ok
      rw [Act.bind_ok (Act.rdG_clean h4 a), State.issued_g, Act.bind_ok (ring_ok (by rw [hbb]; exact hr.ring) (.inr (by rw [hbb, hr.mode])))]
      rw [show decide (64 < (s.ctx.g a).toNat) = false by simp; omega, Act.bind_ok (Act.check_false _ _), hbb,
        Bool.false_and, Act.bind_ok (Act.check_false _ _), Act.bind_ok hc1,
        Act.bind_ok (Act.wrG_clean h4 _ _)]
      have hv := hbits 0 (s.ctx.g a).toNat (by omega)
      rw [hv, field_issued, hbb]
      simp only [Act.setBb, Act.updCtx_apply, State.modCtx_modCtx, Nat.add_zero, Bool.false_eq_true, if_false]
    · rw [hp, hbb]
    · rw [hlm, hbb]
    · rw [hlo, hbb]
    · rw [hhi, hbb]
  · have hbb : (s.issued 4).ctx.bb = s.ctx.bb := State.issued_bb _ _
    refine ⟨s.ctx.bb.advance (s.ctx.g a).toNat, ?_, ?_, ?_⟩
    · apply issue_after
      rw [Act.bind_ok (Act.rdG_clean h4 a), State.issued_g, Act.bind_ok (ring_ok (by rw [hbb]; exact hro) (.inr (by rw [hbb, hmode])))]
      rw [hbb, show decide (s.ctx.bb.pos.toNat + (s.ctx.g a).toNat > s.ctx.bb.lim.toNat) = false by simp; omega, Act.bind_ok (Act.check_false _ _)]
      rfl
    · simp [BitBuf.advance]
    · intro j hj
      simp only [BitBuf.advance, BitVec.getLsbD_ushiftRight]
      congr 1
      omega
  · have hbb : (s.issued 4).ctx.bb = s.ctx.bb := State.issued_bb _ _
    apply issue_takes hc
    rw [Act.bind_ok (Act.rdG_clean h4 a), State.issued_g, Act.bind_ok (ring_ok (by rw [hbb]; exact hro) (.inr (by rw [hbb, hmode])))]
    rw [hbb, show decide (s.ctx.bb.pos.toNat + (s.ctx.g a).toNat > s.ctx.bb.lim.toNat) = true by simp; omega, Act.bind_error (Act.check_true _ _)]
    rfl

theorem egPrefix_some {c : BitBuf} {z : Nat} (hz : z ≤ 32) (h0 : ∀ i, i < z → c.bitsAt i 1 ≠ 1 ∧ c.pos.toNat + i < c.lim.toNat) (h1 : c.bitsAt z 1 = 1) :
    ∀ n i, i ≤ z → z - i < n → egPrefix c n i = some z := by
  intro n
  induction n with
  | zero => intro i _ h; omega
  | succ n ih =>
    intro i hi hn
    rw [egPrefix]
    by_cases he : i = z
    · subst he; rw [if_pos h1]
    · have := h0 i (by omega)
      rw [if_neg this.1, if_neg (by omega)]
      exact ih (i + 1) (by omega) (by omega)

theorem ringStore_ok {here : Word} {b : BitBuf} : ∀ (l : List Byte) (s : State) (j : Nat), (∀ i, i < l.length → s.byteFree (b.byteOf (j + 8 * i))) →
    Act.ringStore here b j l s = .ok ((), s.ringStored b j l) := by
  intro l
  induction l with
  | nil => intro s j _; rfl
  | cons x l ih =>
    intro s j h
    obtain ⟨h1, h2, h3, h4⟩ := h 0 (by simp)
    have e : bitByte b j = b.byteOf (j + 8 * 0) := rfl
    unfold Act.ringStore
    simp only [e]
    rw [Act.bind_ok (Act.gate_open h4), Act.bind_ok (Act.ownBytes_free h1 h2), Act.bind_ok (Act.get_apply s), Act.bind_ok (Act.get_apply s), h3, Act.bind_ok (Act.check_false _ _), Act.bind_ok (Act.upd_apply _ _)]
    refine ih _ (j + 8) (fun i hi => ?_)
    have := h (i + 1) (by simp; omega)
    rw [show j + 8 * (i + 1) = j + 8 + 8 * i by omega] at this
    exact State.spanFree_wr this

theorem partial_ok {s : State} {here : Word} {b : BitBuf} (h : b.pos.toNat % 8 = 0 ∨ s.byteFree (b.byteOf b.pos.toNat)) :
    ∃ v, Act.partial_ here b s = .ok (v, s) ∧ v = if b.pos.toNat % 8 = 0 then 0 else s.partialByte b := by
  unfold Act.partial_
  by_cases hm : b.pos.toNat % 8 = 0
  · simp only [hm, if_true]; exact ⟨_, rfl, rfl⟩
  · simp only [hm, if_false]
    unfold State.partialByte
    by_cases hb : b.bbn = 0
    · have h1 : (b.bbn != 0) = false := by simpa using hb
      have e : bitByte b b.pos.toNat = b.byteOf b.pos.toNat := rfl
      have hr := Act.readSpad_free (h.resolve_left hm) here
      rw [if_neg (show ¬ (b.bbn != 0) = true by rw [h1]; decide), if_pos hb]
      simp only [e]
      rw [Act.bind_ok hr]
      exact ⟨_, rfl, by simp [State.rd, Memory.rds, natOf]⟩
    · have h1 : (b.bbn != 0) = true := by simpa using hb
      rw [if_pos h1, if_neg hb]
      exact ⟨_, rfl, rfl⟩

theorem partialByte_aligned {s : State} {b : BitBuf} (h : b.pos.toNat % 8 = 0) : s.partialByte b = 0 := by
  unfold State.partialByte; rw [h]; simp [Nat.mod_one]

theorem ringStored_ctx (s : State) (b : BitBuf) : ∀ l j, (s.ringStored b j l).ctx = s.ctx := by
  intro l
  induction l generalizing s with
  | nil => intro j; rfl
  | cons x l ih => intro j; rw [State.ringStored, ih]; rfl

theorem bb_ctx {s : State} {f : BitBuf} {g : Ctx → BitBuf} (h : g s.ctx = f) : s.modCtx (fun c => { c with bb := f }) = s.modCtx (fun c => { c with bb := g c }) :=
  State.modCtx_congr (by simp [h])

theorem bitWrite_rules :
    ∀ (s : State) (sp : Bool) (d a b : Reg), s.Clean →
    (s.Readable s.ctx.bb → (s.ctx.g a).toNat ≤ 31 → ∀ z, z ≤ 32 →
      (∀ i, i < z → s.streamBit s.ctx.bb (s.ctx.bb.pos.toNat + i) = false) → s.streamBit s.ctx.bb (s.ctx.bb.pos.toNat + z) = true →
      s.ctx.bb.pos.toNat + 2 * z + 1 + (s.ctx.g a).toNat ≤ s.ctx.bb.lim.toNat →
      ∃ e, exec (.bseg sp d a) s = .next (s.after sp 4 (fun c => { c.setG d
          (W ((2 ^ z - 1) * 2 ^ (s.ctx.g a).toNat + s.field s.ctx.bb (s.ctx.bb.pos.toNat + z + 1) (z + (s.ctx.g a).toNat))) with bb := e }))
        ∧ e.pos = s.ctx.bb.pos + W (2 * z + 1 + (s.ctx.g a).toNat))
    ∧ (s.ctx.bb.ringOk → flag s.ctx.bb.lo 0 = true →
      (∀ j, s.ctx.bb.pos.toNat - s.ctx.bb.pos.toNat % 8 ≤ j → j < s.ctx.bb.pos.toNat + 72 → s.byteFree (s.ctx.bb.byteOf j)) →
      ((s.ctx.g b).toNat ≤ 64 → s.ctx.bb.pos.toNat + (s.ctx.g b).toNat ≤ s.ctx.bb.lim.toNat →
        ∀ m all, m = s.ctx.bb.pos.toNat % 8 → all = s.partialByte s.ctx.bb + 2 ^ m * ((s.ctx.g a).toNat % 2 ^ (s.ctx.g b).toNat) →
        exec (.bsput sp a b) s = .next ((((s.issued 4).ringStored s.ctx.bb (s.ctx.bb.pos.toNat - m) (bytesOf ((m + (s.ctx.g b).toNat) / 8) all)).modCtx
          (fun c => { c with bb := { s.ctx.bb with
            pos := s.ctx.bb.pos + s.ctx.g b, bits := BitVec.ofNat 128 (all / 2 ^ (8 * ((m + (s.ctx.g b).toNat) / 8)))
            bbn := W ((m + (s.ctx.g b).toNat) % 8) } })).switch sp))
      ∧ (s.ctx.bb.pos.toNat % 8 ≠ 0 →
        exec (.bsflush sp) s = .next ((((s.issued 4).ringStored s.ctx.bb (s.ctx.bb.pos.toNat - s.ctx.bb.pos.toNat % 8)
            [BitVec.ofNat 8 (s.partialByte s.ctx.bb)]).modCtx
          (fun c => { c with bb := { s.ctx.bb with pos := s.ctx.bb.pos + W (8 - s.ctx.bb.pos.toNat % 8), bbn := 0, bits := 0 } })).switch sp)))
    ∧ (s.ctx.bb.ringOk → flag s.ctx.bb.lo 0 = false ∨ s.ctx.bb.pos.toNat % 8 = 0 →
        exec (.bsflush sp) s = .next (s.after sp 4 (fun c => { c with bb := { s.ctx.bb with bbn := 0, bits := 0 } }))) := by
  intro s sp d a b hc
  have h4 := hc.issued 4
  have hbb : (s.issued 4).ctx.bb = s.ctx.bb := State.issued_bb _ _
  refine ⟨fun hr hk z hz hz0 hz1 hl => ?_, fun hro hmode hfree => ⟨fun hn hl m all hm hall => ?_, fun hm => ?_⟩, fun hro hmode => ?_⟩
  · have hr4 := Readable.issued hr 4
    rw [← hbb] at hr4
    have hsb : ∀ j, (s.issued 4).streamBit (s.issued 4).ctx.bb j = s.streamBit s.ctx.bb j := by intro j; rw [hbb]; rfl
    obtain ⟨hn1, hn2⟩ := egNeeds_enough (s := s.issued 4) (k := (s.ctx.g a).toNat) hz (fun i hi => by rw [hsb, hbb]; exact hz0 i hi)
      (by rw [hsb, hbb]; exact hz1) (by rw [hbb]; exact hl) hk
    obtain ⟨c, hc1, hp, hlm, hlo, hhi, hbits⟩ := refill_full (here := s.here) hr4 hn1
    replace hbits := fun k m (h : k + m ≤ 2 * z + 1 + (s.ctx.g a).toNat) => hbits k m (Nat.le_trans h hn2)
    rw [hbb] at hp hlm hbits hc1
    have hbit : ∀ i, i ≤ z → c.bitsAt i 1 = if s.streamBit s.ctx.bb (s.ctx.bb.pos.toNat + i) then 1 else 0 := by
      intro i hi
      rw [hbits i 1 (by omega), field_issued]; simp [State.field]
    have hlim : s.ctx.bb.pos.toNat + z < s.ctx.bb.lim.toNat := by omega
    have heg : egPrefix c 34 0 = some z := by
      refine egPrefix_some hz (fun i hi => ⟨?_, ?_⟩) ?_ 34 0 (by omega) (by omega)
      · rw [hbit i (by omega), hz0 i hi]; simp
      · rw [hp, hlm]; omega
      · rw [hbit z (by omega), hz1]; rfl
    refine ⟨c.advance (2 * z + 1 + (s.ctx.g a).toNat), ?_, ?_⟩
    · apply issue_after
      rw [Act.bind_ok (Act.rdG_clean h4 a), State.issued_g, Act.bind_ok (ring_ok (by rw [hbb]; exact hr.ring) (.inr (by rw [hbb, hr.mode])))]
      rw [show decide (31 < (s.ctx.g a).toNat) = false by simp; omega, Act.bind_ok (Act.check_false _ _), hbb, Act.bind_ok hc1]
      simp only [heg]
      rw [hp, hlm, show decide (s.ctx.bb.pos.toNat + 2 * z + 1 + (s.ctx.g a).toNat > s.ctx.bb.lim.toNat) = false by simp; omega, Act.bind_ok (Act.check_false _ _),
        Act.bind_ok (Act.wrG_clean h4 _ _), hbits (z + 1) (z + (s.ctx.g a).toNat) (by omega), field_issued]
      simp only [Act.setBb, Act.updCtx_apply, State.modCtx_modCtx, Nat.add_assoc]
    · simp [BitBuf.advance, hp]
  · have hfree4 : ∀ j, s.ctx.bb.pos.toNat - s.ctx.bb.pos.toNat % 8 ≤ j → j < s.ctx.bb.pos.toNat + 72 → (s.issued 4).byteFree (s.ctx.bb.byteOf j) := fun j h1 h2 => State.spanFree_issued (hfree j h1 h2) 4
    obtain ⟨v, hv, hv2⟩ := partial_ok (s := s.issued 4) (here := s.here) (b := s.ctx.bb) (.inr (hfree4 _ (by omega) (by omega)))
    have hv3 : v = s.partialByte s.ctx.bb := by
      rw [hv2]; split
      · rename_i h0; exact (partialByte_aligned h0).symm
      · rfl
    apply issue_ok
    rw [Act.bind_ok (Act.rdG_clean h4 a), Act.bind_ok (Act.rdG_clean h4 b), State.issued_g, State.issued_g, Act.bind_ok (ring_ok (by rw [hbb]; exact hro) (.inr (by rw [hbb, hmode]))), hbb]
    rw [show decide (64 < (s.ctx.g b).toNat) = false by simp; omega, Act.bind_ok (Act.check_false _ _),
      show decide (s.ctx.bb.pos.toNat + (s.ctx.g b).toNat > s.ctx.bb.lim.toNat) = false by simp; omega, Act.bind_ok (Act.check_false _ _), Act.bind_ok hv]
    simp only []
    rw [hv3, ← hm, ← hall, Act.bind_ok (ringStore_ok _ _ _ (fun i hi => by
      rw [length_bytesOf] at hi
      have : 8 * ((m + (s.ctx.g b).toNat) / 8) ≤ m + (s.ctx.g b).toNat := Nat.mul_div_le _ _
      exact hfree4 _ (by omega) (by omega)))]
    rfl
  · have hfree4 : ∀ j, s.ctx.bb.pos.toNat - s.ctx.bb.pos.toNat % 8 ≤ j → j < s.ctx.bb.pos.toNat + 72 → (s.issued 4).byteFree (s.ctx.bb.byteOf j) := fun j h1 h2 => State.spanFree_issued (hfree j h1 h2) 4
    obtain ⟨v, hv, hv2⟩ := partial_ok (s := s.issued 4) (here := s.here) (b := s.ctx.bb) (.inr (hfree4 _ (by omega) (by omega)))
    have hv3 : v = s.partialByte s.ctx.bb := by
      rw [hv2, if_neg hm]; rfl
    apply issue_ok
    rw [Act.bind_ok (ring_ok (by rw [hbb]; exact hro) (.inl rfl)), hbb, if_pos (show writeMode s.ctx.bb = true from hmode)]
    simp only []
    rw [if_neg hm, Act.bind_ok hv, hv3, Act.bind_ok (ringStore_ok _ _ _ (fun i hi => by
      simp at hi; subst hi
      exact hfree4 _ (by omega) (by omega)))]
    rfl
  · apply issue_after
    rw [Act.bind_ok (ring_ok (by rw [hbb]; exact hro) (.inl rfl)), hbb]
    rcases hmode with h | h
    · rw [if_neg (show ¬ writeMode s.ctx.bb = true by simp [writeMode, h])]; rfl
    · by_cases hw : writeMode s.ctx.bb = true
      · rw [if_pos hw]; simp only []; rw [if_pos h]; rfl
      · rw [if_neg hw]; rfl

end Sys2Proof.Machine
end

