-- ==== Sys2Proof/Laws/SystemEntry.lean ====
section
/-! SUPPORT. Entering the system handler: what it saves and where it goes. -/

set_option Elab.async false

namespace Sys2Proof.Machine

theorem raised_system {s : State} {r : Raise} (h1 : Eff.system r.eff = true) (h2 : r.eff ≠ 6) (h3 : r.stk = true → s.ctx.stat.emrg = false) :
    s.raised r = s.toSystem s.pid s.cx r s.ctx.pc false none := by
  have hn : s.noteError r.eff r.addr = s := by unfold State.noteError Eff.memerr; rw [if_neg h2]
  unfold State.raised
  rw [hn]
  unfold State.fault
  have : (r.stk && (s.ctxAt s.pid s.cx).stat.emrg) = false := by
    cases h : r.stk
    · rfl
    · simp only [Bool.true_and]; exact h3 h
  simp only [this, Bool.false_eq_true, if_false]
  unfold State.deliver
  rw [if_pos h1]; rfl

/-- A system effect of an instruction, on an address that the Farrier logs only for MEMERR (06 R147, R155; 01 R30). -/
theorem systemEntry_rules :
    ∀ (s : State), s.Clean → s.SystemReady →
    (∀ r : Raise, Eff.system r.eff = true → r.eff ≠ 0x006 → (r.stk = true → s.ctx.stat.emrg = false) → EnteredSystem s (s.raised r) r s.ctx.pc)
    ∧ (∀ w, exec (.unassignedEncoding w) s = .next (s.raised { eff := 0x001 }))
    ∧ (∀ (e : BitVec 12) arg addr, exec (.fetchFault e arg addr) s = .next (s.takes false { eff := e.toNat, arg := arg, addr := addr })) := by
  intro s hc hr
  refine ⟨fun r h1 h2 h3 => ?_, fun w => ?_, fun e arg addr => ?_⟩
  · rw [raised_system h1 h2 h3]; exact toSystem_entered hr r _ _
  · exact issue_raise hc rfl
  · exact issue_takes hc rfl

end Sys2Proof.Machine
end

