-- ==== Sys2Proof/Laws/Perform.lean ====
section
/-! SUPPORT. PERFORM and PERFORMV: the search of the chain and the entry to a frame. -/

set_option Elab.async false

namespace Sys2Proof.Machine

theorem ctx_setCtxAt_of {u s : State} (h1 : u.pid = s.pid) (h2 : u.cx = s.cx) (c : Ctx) : (u.setCtxAt s.pid s.cx c).ctx = c := by
  rw [← h1, ← h2]; exact State.ctx_setCtx u c

theorem toFrame_entered {s : State} {f : Frame} (r : Raise) (pc g4 : Word) (vl : Option PReg) (hcap : f.cap < 0x180000) :
    EnteredFrame s (s.toFrame s.pid s.cx f r pc g4 vl []) f r g4 pc := by
  have hgen : (s.recAt s.pid f.cap).gen = fld (s.rdW (spadKey s.pid f.cap)) 63 48 := by
    simp only [State.recAt, CRec.ofWords, State.rdWs]
    rfl
  have htok : token (fld (s.rdW (spadKey s.pid f.cap)) 63 48 + 1) f.cap (b2n f.multi)
      = W (((s.recAt s.pid f.cap).gen + 1) % 2 ^ 16 * 2 ^ 48 + f.cap / 64 * 64 + b2n f.multi * 16) := by
    rw [hgen]; unfold token
    rw [Nat.mod_eq_of_lt (a := f.cap / 64) (by omega)]
  unfold State.toFrame
  dsimp only
  refine ⟨?_, ?_, ⟨{ s.ctx.capture s.cx r pc vl with gen := ((s.recAt s.pid f.cap).gen + 1) % 2 ^ 16, multi := f.multi, frame := f.addr, seglen := 0 }, ?_, ?_, ?_, ?_, ?_⟩, ?_, ?_, ?_, ?_, ?_⟩
  · rw [← htok, ctx_setCtxAt_of (s := s)]; exact enter_regs _ _ _ _ _ _
    · simp
    · simp
  · rw [ctx_setCtxAt_of (s := s)]; exact ⟨rfl, rfl⟩
    · simp
    · simp
  · exact ⟨rfl, rfl, ⟨rfl, rfl, rfl⟩, rfl, ⟨rfl, rfl⟩, ⟨rfl, rfl⟩, ⟨rfl, rfl⟩, rfl, ⟨rfl, rfl, rfl⟩⟩
  · rfl
  · rfl
  · rfl
  · rw [hgen, State.wr_nil]; simp only [State.setCtxAt_mem]; rfl
  · rw [ctx_setCtxAt_of (s := s)]; exact ⟨enter_g31 _ _ _ _ _ _, rfl⟩
    · simp
    · simp
  · rw [ctx_setCtxAt_of (s := s)]; exact ⟨rfl, rfl⟩
    · simp
    · simp
  · rw [ctx_setCtxAt_of (s := s)]
    have := enter_kept { s.ctxAt s.pid s.cx with
        hf := W f.addr, hframe := W f.addr, late := Tab.set (s.ctxAt s.pid s.cx).late f.cap 0, origin := Tab.set (s.ctxAt s.pid s.cx).origin f.cap s.pid
        barw := Tab.set (s.ctxAt s.pid s.cx).barw f.cap (s.ctxAt s.pid s.cx).asBarw, asBarw := false } r (token (fld (s.rdW (spadKey s.pid f.cap)) 63 48 + 1) f.cap (b2n f.multi)) g4 f.hpc f.sys
    exact ⟨this.g, this.p, this.v, this.num, this.calls, this.bits, this.queues, this.ident, this.tx, this.space⟩
    · simp
    · simp
  · intro q y hq; rw [State.ctxAt_setCtxAt_ne _ _ hq]; simp
  · exact ⟨by simp, by simp, by simp, by simp⟩

theorem effectId_ok {s : State} {e : Nat} (h : s.raisable e) : Act.effectId e s = .ok ((), s) := by
  unfold Act.effectId
  rcases h with h | ⟨h1, h2⟩
  · have h1 : (e == 0 || (decide (e < 0x100) && !Eff.listed e)) = false := by
      have : e ≠ 0 := by omega
      have h' : ¬ e < 256 := by omega
      simp [this, h']
    have h2 : (decide (e < 0x100) && !s.ctx.stat.sup) = false := by
      have h' : ¬ e < 256 := by omega
      simp [h']
    rw [h1, Act.bind_ok (Act.check_false _ _), Act.bind_ok (Act.sup_apply _), h2]; rfl
  · have h3 : (e == 0 || (decide (e < 0x100) && !Eff.listed e)) = false := by
      have : e ≠ 0 := by rintro rfl; exact absurd h1 (by decide)
      simp [this, h1]
    rw [h3, Act.bind_ok (Act.check_false _ _), Act.bind_ok (Act.sup_apply _), h2]; simp

theorem perform_found {s : State} {here : Word} {sp : Bool} {e : Nat} {arg lanes : Word} {vl : Option PReg} {f : Frame} (hc : s.Clean)
    (hh : s.deliveryHeld s.pid s.cx { eff := e } = false) (hb : s.bad (spadKey s.pid f.cap) 8 = false)
    (he : Eff.system e = false) (hm : f.multi = false) (hs : s.search s.pid s.ctx.stat.sup e 4096 s.ctx.hf.toNat = .frame f) :
    Act.perform here sp e arg lanes vl s = .error (.stop ((s.toFrame s.pid s.cx f { eff := e, arg := arg, lanes := lanes } s.ctx.pc 0 vl []).switch sp)) := by
  unfold Act.perform
  rw [Act.bind_ok (Act.ctx_apply _), hc.1, Bool.not_true, Act.bind_ok (Act.waitIf_false _ _), Act.bind_ok (Act.get_apply _)]
  have hh' : s.deliveryHeld s.pid s.cx { eff := e, arg := arg, lanes := lanes } = false := hh
  simp only [hh']
  rw [Act.bind_ok (Act.waitIf_false _ _)]
  simp only [Act.stop_apply]
  have hs' : s.search s.pid (s.ctxAt s.pid s.cx).stat.sup e 4096 (s.ctxAt s.pid s.cx).hf.toNat = .frame f := hs
  unfold State.deliver
  rw [if_neg (by rw [he]; decide)]
  simp only [hs', hm, State.badLocal, hb, Bool.false_eq_true, if_false, Bool.not_false, Bool.true_or, if_true]

theorem perform_held {s : State} {here : Word} {sp : Bool} {e : Nat} {arg lanes : Word} {vl : Option PReg} (hc : s.Clean)
    (hh : s.deliveryHeld s.pid s.cx { eff := e } = true) : Act.perform here sp e arg lanes vl s = .error (.wait .drain) := by
  unfold Act.perform
  rw [Act.bind_ok (Act.ctx_apply _), hc.1, Bool.not_true, Act.bind_ok (Act.waitIf_false _ _), Act.bind_ok (Act.get_apply _)]
  have hh' : s.deliveryHeld s.pid s.cx { eff := e, arg := arg, lanes := lanes } = true := hh
  simp only [hh']
  rfl

theorem perform_rules :
    ∀ (s : State) (sp : Bool) (e : BitVec 12) (a : Reg) (p : PReg), s.Clean →
    (∀ f, s.raisable e.toNat → Eff.system e.toNat = false → f.multi = false → f.cap < 0x180000 →
        s.search s.pid s.ctx.stat.sup e.toNat 4096 s.ctx.hf.toNat = .frame f →
        s.deliveryHeld s.pid s.cx { eff := e.toNat } = false → s.bad (spadKey s.pid f.cap) 8 = false →
      (∃ t : State, exec (.perform sp e a) s = .next (t.switch sp)
        ∧ EnteredFrame (s.issued 4) t f { eff := e.toNat, arg := s.ctx.g a } 0 (s.ctx.pc + 4))
      ∧ (s.ctx.regs.getP p ≠ 0 → ∃ t : State, exec (.performv sp e a p) s = .next (t.switch sp)
        ∧ EnteredFrame (s.issued 4) t f { eff := e.toNat, arg := s.ctx.g a, lanes := s.ctx.regs.getP p } 0 (s.ctx.pc + 4)))
    ∧ (s.raisable e.toNat → s.deliveryHeld s.pid s.cx { eff := e.toNat } = true →
        exec (.perform sp e a) s = .next ((s.block .drain sp).switch sp)
        ∧ (s.ctx.regs.getP p ≠ 0 → exec (.performv sp e a p) s = .next ((s.block .drain sp).switch sp)))
    ∧ (s.raisable e.toNat → s.ctx.regs.getP p = 0 → exec (.performv sp e a p) s = .next ((s.issued 4).switch sp))
    ∧ (e.toNat < 0x100 → Eff.listed e.toNat = false → ∀ i ∈ [Instr.perform sp e a, .performv sp e a p], exec i s = .next (s.raised { eff := 0x001 }))
    ∧ (e.toNat < 0x100 → Eff.listed e.toNat = true → s.ctx.stat.sup = false →
        ∀ i ∈ [Instr.perform sp e a, .performv sp e a p], exec i s = .next (s.raised { eff := 0x002 })) := by
  intro s sp e a p hc
  have h4 := hc.issued 4
  refine ⟨fun f hmay hsys hm hcap hs hh hb => ⟨⟨(s.issued 4).toFrame s.pid s.cx f { eff := e.toNat, arg := s.ctx.g a } (s.issued 4).ctx.pc 0 none [], ?_, ?_⟩, fun hp => ⟨(s.issued 4).toFrame s.pid s.cx f { eff := e.toNat, arg := s.ctx.g a, lanes := s.ctx.regs.getP p } (s.issued 4).ctx.pc 0 (some p) [], ?_, ?_⟩⟩, fun hmay hh => ⟨?_, fun hp => ?_⟩, fun hmay hp => ?_, fun h1 h2 => ?_, fun h1 h2 h3 => ?_⟩
  · apply issue_stop
    rw [Act.bind_ok (effectId_ok (s := s.issued 4) (by unfold State.raisable; rw [State.issued_stat]; exact hmay)), Act.bind_ok (Act.rdG_clean h4 a), State.issued_g]
    exact perform_found h4 (by exact (State.deliveryHeld_issued s 4 _).trans hh) hb hsys hm (by rw [State.search_issued]; simpa using hs)
  · have := toFrame_entered (s := s.issued 4) { eff := e.toNat, arg := s.ctx.g a } (s.issued 4).ctx.pc 0 none hcap
    rw [State.issued_pc] at this ⊢; exact this
  · apply issue_stop
    rw [Act.bind_ok (effectId_ok (s := s.issued 4) (by unfold State.raisable; rw [State.issued_stat]; exact hmay)), Act.bind_ok (Act.rdG_clean h4 a), Act.bind_ok (Act.rdP_clean h4 p), State.issued_g,
      State.issued_regs, if_neg hp]
    exact perform_found h4 (by exact (State.deliveryHeld_issued s 4 _).trans hh) hb hsys hm (by rw [State.search_issued]; simpa using hs)
  · have := toFrame_entered (s := s.issued 4) { eff := e.toNat, arg := s.ctx.g a, lanes := s.ctx.regs.getP p } (s.issued 4).ctx.pc 0 (some p) hcap
    rw [State.issued_pc] at this ⊢; exact this
  · apply issue_wait
    rw [Act.bind_ok (effectId_ok (s := s.issued 4) (by unfold State.raisable; rw [State.issued_stat]; exact hmay)), Act.bind_ok (Act.rdG_clean h4 a)]
    exact perform_held h4 ((State.deliveryHeld_issued s 4 _).trans hh)
  · apply issue_wait
    rw [Act.bind_ok (effectId_ok (s := s.issued 4) (by unfold State.raisable; rw [State.issued_stat]; exact hmay)), Act.bind_ok (Act.rdG_clean h4 a),
      Act.bind_ok (Act.rdP_clean h4 p), State.issued_regs, if_neg hp]
    exact perform_held h4 ((State.deliveryHeld_issued s 4 _).trans hh)
  · apply issue_ok
    rw [Act.bind_ok (effectId_ok (s := s.issued 4) (by unfold State.raisable; rw [State.issued_stat]; exact hmay)), Act.bind_ok (Act.rdG_clean h4 a), Act.bind_ok (Act.rdP_clean h4 p),
      State.issued_regs, if_pos hp]; rfl
  · intro i hi
    have hid : Act.effectId e.toNat (s.issued 4) = .error (.raise (illegal 0)) := by
      unfold Act.effectId
      rw [show (e.toNat == 0 || (decide (e.toNat < 0x100) && !Eff.listed e.toNat)) = true by simp [h1, h2]]; rfl
    simp only [List.mem_cons, List.not_mem_nil, or_false] at hi
    rcases hi with rfl | rfl <;> exact issue_raise hc (Act.bind_error hid)
  · intro i hi
    have hid : Act.effectId e.toNat (s.issued 4) = .error (.raise privFault) := by
      unfold Act.effectId
      have : e.toNat ≠ 0 := by intro h0; rw [h0] at h2; exact absurd h2 (by decide)
      rw [show (e.toNat == 0 || (decide (e.toNat < 0x100) && !Eff.listed e.toNat)) = false by simp [h2, this], Act.bind_ok (Act.check_false _ _), Act.bind_ok (Act.sup_apply _),
        State.issued_stat, h3, show (decide (e.toNat < 0x100) && !false) = true by simp [h1]]; rfl
    simp only [List.mem_cons, List.not_mem_nil, or_false] at hi
    rcases hi with rfl | rfl <;> exact issue_raise hc (Act.bind_error hid)

end Sys2Proof.Machine
end

