-- ==== Sys2Proof/Laws/Handlers.lean ====
section
/-! SUPPORT. HANDLE, UNHANDLE and the frames they push and pop. -/

set_option Elab.async false

namespace Sys2Proof.Machine

theorem badDescriptor_iff (z : Word) : badDescriptor z = false ↔ goodDescriptor z := by
  simp only [badDescriptor, goodDescriptor, Bool.or_eq_false_iff, bne_eq_false_iff_eq, Config.spadBytes, and_assoc]
  simp

theorem handle_rules :
    ∀ (s : State) (sp : Bool) (a b c d : Reg), s.Clean →
    (∀ x y z, x = s.ctx.g a → y = s.ctx.g b → z = s.ctx.g c →
      (x.toNat % 32 = 0 → x.toNat + 32 ≤ 0x180000 → flag y 0 = false → goodDescriptor z → s.spanFree x.toNat 32 → s.spanFree (fld z 20 0) 8 →
        exec (.handle sp a b c) s = .next ((((s.issued 4).framePushed x y z).modCtx (fun k => { k with hf := x })).switch sp))
      ∧ (x.toNat % 32 ≠ 0 ∨ 0x180000 < x.toNat + 32 → exec (.handle sp a b c) s = .next (s.raised { eff := 0x001, arg := x }))
      ∧ (x.toNat % 32 = 0 → x.toNat + 32 ≤ 0x180000 → flag y 0 = true → exec (.handle sp a b c) s = .next (s.raised { eff := 0x001, arg := y }))
      ∧ (x.toNat % 32 = 0 → x.toNat + 32 ≤ 0x180000 → flag y 0 = false → ¬ goodDescriptor z →
          exec (.handle sp a b c) s = .next (s.raised { eff := 0x001, arg := z })))
    ∧ (∀ f, f = s.frameAt s.pid s.ctx.hf.toNat → s.ctx.hf ≠ 0 → s.ctx.g a = s.ctx.hf → s.ctx.hf.toNat % 32 = 0 → s.ctx.hf.toNat < 0x180000 →
      s.spanFree s.ctx.hf.toNat 32 → f.malformed = false → f.busy = false → ((f.sys = true → s.ctx.stat.sup = true) → s.partsFree [(f.cap, 8)]) →
      ((f.sys = true → s.ctx.stat.sup = true) → exec (.unhandle sp a) s = .next ((((s.issued 4).wr (spadKey s.pid f.cap) (bytesOf 8
          (W ((fld (s.rdW (spadKey s.pid f.cap)) 63 48 + 1) % 2 ^ 16 * 2 ^ 48 + fld (s.rdW (spadKey s.pid f.cap)) 47 0)).toNat)).modCtx
            (fun k => { k with hf := W f.link })).switch sp))
      ∧ (f.sys = true → s.ctx.stat.sup = false → exec (.unhandle sp a) s = .next (s.raised { eff := 0x002 })))
    ∧ (s.ctx.hf = 0 ∨ s.ctx.g a ≠ s.ctx.hf → exec (.unhandle sp a) s = .next (s.raised { eff := 0x001, arg := s.ctx.g a }))
    ∧ (s.partsFree (tokenParts (s.ctx.g a)) → s.tokenRec s.pid s.cx s.ctx (s.ctx.g a) = none → exec (.tkstat sp d a) s = .next (s.afterG sp 4 d 0))
    ∧ (∀ sys r cap, s.partsFree (tokenParts (s.ctx.g a)) → s.tokenRec s.pid s.cx s.ctx (s.ctx.g a) = some (sys, r, cap) →
        (sys = false → s.partsFree [(r.frame, 32)]) → exec (.tkstat sp d a) s = .next (s.afterG sp 4 d (W (1 + 2 * b2n (!sys && r.multi) + 4 * b2n sys
          + 8 * b2n (if sys then s.ctx.sysBusy else (s.frameAt s.pid r.frame).busy) + 16 * b2n r.vlane + 2 ^ 16 * r.effid))))
    ∧ (s.ctx.stat.sup = true → flag (s.ctx.g a) 0 = false →
        exec (.shandle sp a) s = .next (((s.issued 4).modCore (fun k => { k with shandler := s.ctx.g a })).switch sp))
    ∧ (s.ctx.stat.sup = true → flag (s.ctx.g a) 0 = true → exec (.shandle sp a) s = .next (s.raised { eff := 0x003, addr := s.ctx.g a }))
    ∧ (s.ctx.stat.sup = false → exec (.shandle sp a) s = .next (s.raised { eff := 0x002 })) := by
  intro s sp a b c d hc
  have h4 := hc.issued 4
  refine ⟨fun x y z hx hy hz => ⟨fun h1 h2 h3 h5 h6 h7 => ?_, fun h => ?_, fun h1 h2 h3 => ?_, fun h1 h2 h3 h5 => ?_⟩, fun f hf h0 ha hm hl hs hmal hb hcap => ⟨fun hsup => ?_, fun hsys hsup => ?_⟩, fun h => ?_, fun hf h => ?_, fun sys r cap hf h hr => ?_, fun h1 h2 => ?_, fun h1 h2 => ?_, fun h => ?_⟩
  · apply issue_ok
    rw [Act.bind_ok (Act.rdG_clean h4 a), Act.bind_ok (Act.rdG_clean h4 b), Act.bind_ok (Act.rdG_clean h4 c)]
    simp only [State.issued_g, ← hx, ← hy, ← hz]
    rw [show (x.toNat % 32 != 0 || decide (x.toNat + 32 > Config.spadBytes)) = false by
        have h2' : ¬ x.toNat + 32 > Config.spadBytes := by simp only [Config.spadBytes]; omega
        simp [h1, h2'], Act.bind_ok (Act.check_false _ _), h3, Act.bind_ok (Act.check_false _ _), (badDescriptor_iff z).2 h5, Act.bind_ok (Act.check_false _ _),
      Act.bind_ok (Act.rdG_clean h4 31), Act.bind_ok (Act.ctx_apply _)]
    have hw : (wordsBytes (frameWords y ((s.issued 4).ctx.g 31) z (s.issued 4).ctx.hf (s.issued 4).ctx.stat.sup)).length = 32 := by
      simp [wordsBytes, frameWords, length_bytesOf]
    have h6' := State.spanFree_issued h6 4
    rw [← hw] at h6'
    rw [Act.bind_ok (Act.writeSpad_free h6' _)]
    have h7' := State.spanFree_wr (k := spadKey (s.issued 4).pid x.toNat) (bs := wordsBytes (frameWords y ((s.issued 4).ctx.g 31) z (s.issued 4).ctx.hf (s.issued 4).ctx.stat.sup)) (State.spanFree_issued h7 4)
    rw [Act.bind_ok (Act.readSpad_free h7' _), Act.bind_ok (Act.writeSpad_free (by rw [length_bytesOf]; exact h7') _)]
    rfl
  · apply issue_raise hc
    rw [Act.bind_ok (Act.rdG_clean h4 a), Act.bind_ok (Act.rdG_clean h4 b), Act.bind_ok (Act.rdG_clean h4 c)]
    simp only [State.issued_g, ← hx, ← hy, ← hz]
    rw [show (x.toNat % 32 != 0 || decide (x.toNat + 32 > Config.spadBytes)) = true by
        rcases h with h | h
        · simp [h]
        · have h2' : x.toNat + 32 > Config.spadBytes := by simp only [Config.spadBytes]; omega
          simp [h2'], Act.bind_error (Act.check_true _ _)]; rfl
  · apply issue_raise hc
    rw [Act.bind_ok (Act.rdG_clean h4 a), Act.bind_ok (Act.rdG_clean h4 b), Act.bind_ok (Act.rdG_clean h4 c)]
    simp only [State.issued_g, ← hx, ← hy, ← hz]
    rw [show (x.toNat % 32 != 0 || decide (x.toNat + 32 > Config.spadBytes)) = false by
        have h2' : ¬ x.toNat + 32 > Config.spadBytes := by simp only [Config.spadBytes]; omega
        simp [h1, h2'], Act.bind_ok (Act.check_false _ _), h3, Act.bind_error (Act.check_true _ _)]; rfl
  · apply issue_raise hc
    rw [Act.bind_ok (Act.rdG_clean h4 a), Act.bind_ok (Act.rdG_clean h4 b), Act.bind_ok (Act.rdG_clean h4 c)]
    simp only [State.issued_g, ← hx, ← hy, ← hz]
    rw [show (x.toNat % 32 != 0 || decide (x.toNat + 32 > Config.spadBytes)) = false by
        have h2' : ¬ x.toNat + 32 > Config.spadBytes := by simp only [Config.spadBytes]; omega
        simp [h1, h2'], Act.bind_ok (Act.check_false _ _), h3, Act.bind_ok (Act.check_false _ _),
        show badDescriptor z = true by rw [← Bool.not_eq_false]; exact fun e => h5 ((badDescriptor_iff z).1 e), Act.bind_error (Act.check_true _ _)]; rfl
  · apply issue_ok
    rw [Act.bind_ok (Act.rdG_clean h4 a), Act.bind_ok (Act.ctx_apply _), State.issued_g, State.issued_hf, ha]
    rw [show (s.ctx.hf == 0 || s.ctx.hf != s.ctx.hf) = false by have h0' : ¬ s.ctx.hf = 0#64 := h0; simp [h0'], Act.bind_ok (Act.check_false _ _)]
    have hl' : ¬ s.ctx.hf.toNat ≥ Config.spadBytes := by simp only [Config.spadBytes]; omega
    simp only []
    rw [show (s.ctx.hf.toNat % 32 != 0 || decide (s.ctx.hf.toNat ≥ Config.spadBytes)) = false by simp [hm, hl'], Act.bind_ok (Act.check_false _ _),
      Act.bind_ok (Act.readSpad_free (State.spanFree_issued hs 4) _), Act.bind_ok (Act.get_apply _), Act.bind_ok (Act.get_apply _)]
    have hf' : (s.issued 4).frameAt (s.issued 4).pid s.ctx.hf.toNat = f := hf.symm
    simp only [hf']
    rw [hmal, Act.bind_ok (Act.check_false _ _), hb, Act.bind_ok (Act.check_false _ _), State.issued_stat,
      show (f.sys && !s.ctx.stat.sup) = false by cases hsy : f.sys <;> simp [hsup, hsy], Act.bind_ok (Act.check_false _ _),
      Act.bind_ok (Act.spans_free (State.partsFree_issued (hcap hsup) 4) _), Act.bind_ok (Act.upd_apply _ _)]
    rfl
  · apply issue_raise hc
    rw [Act.bind_ok (Act.rdG_clean h4 a), Act.bind_ok (Act.ctx_apply _), State.issued_g, State.issued_hf, ha]
    rw [show (s.ctx.hf == 0 || s.ctx.hf != s.ctx.hf) = false by have h0' : ¬ s.ctx.hf = 0#64 := h0; simp [h0'], Act.bind_ok (Act.check_false _ _)]
    have hl' : ¬ s.ctx.hf.toNat ≥ Config.spadBytes := by simp only [Config.spadBytes]; omega
    simp only []
    rw [show (s.ctx.hf.toNat % 32 != 0 || decide (s.ctx.hf.toNat ≥ Config.spadBytes)) = false by simp [hm, hl'], Act.bind_ok (Act.check_false _ _),
      Act.bind_ok (Act.readSpad_free (State.spanFree_issued hs 4) _), Act.bind_ok (Act.get_apply _), Act.bind_ok (Act.get_apply _)]
    have hf' : (s.issued 4).frameAt (s.issued 4).pid s.ctx.hf.toNat = f := hf.symm
    simp only [hf']
    rw [hmal, Act.bind_ok (Act.check_false _ _), hb, Act.bind_ok (Act.check_false _ _), State.issued_stat,
      show (f.sys && !s.ctx.stat.sup) = true by simp [hsys, hsup], Act.bind_error (Act.check_true _ _)]
    rfl
  · apply issue_raise hc
    rw [Act.bind_ok (Act.rdG_clean h4 a), Act.bind_ok (Act.ctx_apply _), State.issued_g, State.issued_hf]
    rw [show (s.ctx.hf == 0 || s.ctx.g a != s.ctx.hf) = true by
      rcases h with h | h
      · simp [h]
      · simp [h], Act.bind_error (Act.check_true _ _)]; rfl
  · apply issue_after
    rw [Act.bind_ok (Act.rdG_clean h4 a), State.issued_g, Act.bind_ok (Act.tokenSpan_free (State.partsFree_issued hf 4) _)]
    simp only [h]
    rw [Act.bind_ok (Act.get_apply _)]
    have : (s.issued 4).tkstat (s.issued 4).pid (s.issued 4).cx (s.ctx.g a) = 0 := by
      have h' : (s.issued 4).tokenRec (s.issued 4).pid (s.issued 4).cx ((s.issued 4).ctxAt (s.issued 4).pid (s.issued 4).cx) (s.ctx.g a) = none := by
        rw [← h]
        have : (s.issued 4).ctxAt (s.issued 4).pid (s.issued 4).cx = (s.issued 4).ctx := rfl
        rw [this]; unfold State.tokenRec
        simp only [State.issued_sysRec, State.issued_epoch]; rfl
      unfold State.tkstat; simp only [h']
    rw [this, Act.wrG_clean h4]
  · apply issue_after
    rw [Act.bind_ok (Act.rdG_clean h4 a), State.issued_g, Act.bind_ok (Act.tokenSpan_free (State.partsFree_issued hf 4) _)]
    simp only [h]
    have hsp : ∀ m : Act Unit, (match some (sys, r, cap) with
        | some (false, r, _) => Act.spans s.here [(r.frame, 32)] >>= fun _ => m
        | _ => m) (s.issued 4) = m (s.issued 4) := by
      intro m
      cases sys
      · exact Act.bind_ok (Act.spans_free (State.partsFree_issued (hr rfl) 4) _)
      · rfl
    refine Eq.trans (hsp _) ?_
    rw [Act.bind_ok (Act.get_apply _)]
    have hcx : (s.issued 4).ctxAt (s.issued 4).pid (s.issued 4).cx = (s.issued 4).ctx := rfl
    have h' : (s.issued 4).tokenRec (s.issued 4).pid (s.issued 4).cx ((s.issued 4).ctxAt (s.issued 4).pid (s.issued 4).cx) (s.ctx.g a) = some (sys, r, cap) := by
        rw [← h]
        rw [hcx]; unfold State.tokenRec
        simp only [State.issued_sysRec, State.issued_epoch]; rfl
    rw [Act.wrG_clean h4]
    refine congrArg (fun v => Except.ok ((), (s.issued 4).modCtx (fun c => c.setG d v))) ?_
    unfold State.tkstat; simp only [h']
    rw [hcx, State.issued_sysBusy]
    refine congrArg W ?_
    have : ((s.issued 4).frameAt (s.issued 4).pid r.frame).busy = (s.frameAt s.pid r.frame).busy := rfl
    rw [this]; omega
  · apply issue_ok
    rw [Act.bind_ok (Act.needSup_sup (by simpa using h1)), Act.bind_ok (Act.rdG_clean h4 a), State.issued_g, h2, Act.bind_ok (Act.check_false _ _)]; rfl
  · apply issue_raise hc
    rw [Act.bind_ok (Act.needSup_sup (by simpa using h1)), Act.bind_ok (Act.rdG_clean h4 a), State.issued_g, h2, Act.bind_error (Act.check_true _ _)]; rfl
  · apply issue_raise hc
    rw [Act.bind_error (Act.needSup_user (by simpa using h))]; rfl

end Sys2Proof.Machine
end

