-- ==== Sys2Proof/Laws/Continuations.lean ====
section
/-! SUPPORT. Continuation tokens: RESUME, DROP and the record that a token names. -/

set_option Elab.async false

namespace Sys2Proof.Machine

theorem tokenRec_issued (s : State) (len : Nat) (t : Word) : (s.issued len).tokenRec (s.issued len).pid (s.issued len).cx (s.issued len).ctx t = s.tokenRec s.pid s.cx s.ctx t := by
  unfold State.tokenRec
  simp only [State.issued_sysRec, State.issued_epoch]; rfl

theorem liveToken_ok {s : State} {here t : Word} (hf : s.partsFree (tokenParts t)) {sys : Bool} {k : CRec} {cap : Nat} (h : s.tokenRec s.pid s.cx s.ctx t = some (sys, k, cap))
    (hl : (sys = true ∨ k.sup = true) → s.ctx.stat.sup = true) : Act.liveToken here t s = .ok ((sys, k, cap), s) := by
  unfold Act.liveToken
  rw [Act.bind_ok (Act.tokenSpan_free hf here), Act.bind_ok (Act.get_apply s)]
  simp only [h]
  rw [show ((sys || k.sup) && !s.ctx.stat.sup) = false by
    cases h1 : sys <;> cases h2 : k.sup <;> simp_all, Act.bind_ok (Act.check_false _ _)]
  rfl

theorem liveToken_none {s : State} {here t : Word} (hf : s.partsFree (tokenParts t)) (h : s.tokenRec s.pid s.cx s.ctx t = none) : Act.liveToken here t s = .error (.raise { eff := Eff.badtoken, arg := t }) := by
  unfold Act.liveToken
  rw [Act.bind_ok (Act.tokenSpan_free hf here), Act.bind_ok (Act.get_apply s)]
  simp only [h]
  rfl

theorem liveToken_priv {s : State} {here t : Word} (hf : s.partsFree (tokenParts t)) {sys : Bool} {k : CRec} {cap : Nat} (h : s.tokenRec s.pid s.cx s.ctx t = some (sys, k, cap))
    (hl : sys = true ∨ k.sup = true) (hs : s.ctx.stat.sup = false) : Act.liveToken here t s = .error (.raise privFault) := by
  unfold Act.liveToken
  rw [Act.bind_ok (Act.tokenSpan_free hf here), Act.bind_ok (Act.get_apply s)]
  simp only [h]
  rw [show ((sys || k.sup) && !s.ctx.stat.sup) = true by rw [hs]; rcases hl with h | h <;> simp [h], Act.bind_error (Act.check_true _ _)]

/-- Two states that differ in bytes of memory only. -/
structure SameButMem (s t : State) : Prop where
  ctxs : t.ctxs = s.ctxs
  cores : t.cores = s.cores
  pid : t.pid = s.pid
  cx : t.cx = s.cx
  time : t.time = s.time
  vers : t.vers = s.vers
  launches : t.launches = s.launches
  copies : t.copies = s.copies

theorem SameButMem.refl (s : State) : SameButMem s s := ⟨rfl, rfl, rfl, rfl, rfl, rfl, rfl, rfl⟩

theorem SameButMem.trans {s t u : State} (h : SameButMem s t) (k : SameButMem t u) : SameButMem s u :=
  ⟨k.ctxs.trans h.ctxs, k.cores.trans h.cores, k.pid.trans h.pid, k.cx.trans h.cx, k.time.trans h.time, k.vers.trans h.vers, k.launches.trans h.launches, k.copies.trans h.copies⟩

theorem SameButMem.wr (s : State) (k : Nat) (b : List Byte) : SameButMem s (s.wr k b) := ⟨rfl, rfl, rfl, rfl, rfl, rfl, rfl, rfl⟩

theorem SameButMem.bumpGen (s : State) (p o : Nat) : SameButMem s (s.bumpGen p o) := ⟨by simp, by simp, by simp, by simp, by simp, by simp, by simp, by simp⟩

theorem SameButMem.setBusy (s : State) (p o : Nat) (b : Bool) : SameButMem s (s.setBusy p o b) := ⟨by simp, by simp, by simp, by simp, by simp, by simp, by simp, by simp⟩

theorem SameButMem.killRec (s : State) (p o : Nat) : SameButMem s (s.killRec p o) := ⟨by simp, by simp, by simp, by simp, by simp, by simp, by simp, by simp⟩

theorem SameButMem.foldl {α : Type} {f : State → α → State} (hf : ∀ s a, SameButMem s (f s a)) (l : List α) (s : State) : SameButMem s (l.foldl f s) := by
  induction l generalizing s with
  | nil => exact .refl s
  | cons a l ih => exact (hf s a).trans (ih _)

/-- What dropping the handling frame leaves of the executing context. -/
theorem dropHandling_spec (s : State) (h : Word) : ∃ u, SameButMem s u ∧ (s.dropHandling s.pid s.cx h = u ∨
    s.dropHandling s.pid s.cx h = u.modCtxAt s.pid s.cx (fun c => { c with sysBusy := false, sysRec := { c.sysRec with state := 0 } })) := by
  unfold State.dropHandling
  split
  · exact ⟨s, .refl s, .inr rfl⟩
  · exact ⟨_, (SameButMem.killRec _ _ _).trans (SameButMem.setBusy _ _ _ _), .inl rfl⟩

theorem resumeWith_spec (s : State) (sys : Bool) (k : CRec) (cap : Nat) (v m : Word) (many : Bool) :
    Continues s (s.resumeWith s.pid s.cx sys k cap v m many) k v m (Tab.get 0 s.ctx.late (if sys then 1 else cap))
    ∧ (s.resumeWith s.pid s.cx sys k cap v m many).ctx.resumed = (if Tab.get s.pid s.ctx.origin (if sys then 1 else cap) = s.pid then s.ctx.resumed
      else some { eff := Eff.resumed, arg := W (Tab.get s.pid s.ctx.origin (if sys then 1 else cap)) })
    ∧ (sys = true → (s.resumeWith s.pid s.cx sys k cap v m many).ctx.sysBusy = false ∧ (s.resumeWith s.pid s.cx sys k cap v m many).ctx.sysRec.state = 0) := by
  -- the intermediate states
  have key : ∀ (u4 : State), u4.pid = s.pid → u4.cx = s.cx → u4.vers = s.vers → u4.launches = s.launches → u4.copies = s.copies →
      (∀ q y, ctxKey q y ≠ ctxKey s.pid s.cx → u4.ctxAt q y = s.ctxAt q y) → 
      (u4.ctxAt s.pid s.cx = s.ctx ∨ u4.ctxAt s.pid s.cx = { s.ctx with sysBusy := false, sysRec := { s.ctx.sysRec with state := 0 } }) →
      ∀ asb rsv sta shf sb sr rsm,
      let d := u4.ctxAt s.pid s.cx
      let mask := fun (q : Vector Word 8) => if k.vlane && k.pred != 0 then q.set k.pred.toNat (q[k.pred.toNat] &&& m) else q
      let regs := { d.regs with g := k.g.set 31 k.g31, p := mask k.p }
      let d1 : Ctx := { d with
        regs := regs.setG 1 v
        bb := k.bb, ras := k.ras, rdep := k.rdep, pc := k.pc
        stat := { d.stat with sup := k.sup, emrg := k.emrg }
        num := { d.num with flags := k.flags ||| Tab.get 0 d.late (if sys then 1 else cap) }
        hf := k.hf, hframe := k.hframe
        asBarw := asb, sysBusy := sb, sysRec := sr, reserve := rsv, startAt := sta, shFrom := shf, resumed := rsm }
      Continues s (u4.setCtxAt s.pid s.cx d1) k v m (Tab.get 0 s.ctx.late (if sys then 1 else cap)) ∧ (u4.setCtxAt s.pid s.cx d1).ctx = d1 := by
    intro u4 e1 e2 e3 e4 e5 eo ec asb rsv sta shf sb sr rsm
    have hd : (u4.ctxAt s.pid s.cx).regs = s.ctx.regs ∧ (u4.ctxAt s.pid s.cx).late = s.ctx.late ∧ (u4.ctxAt s.pid s.cx).qs = s.ctx.qs ∧ (u4.ctxAt s.pid s.cx).tx = s.ctx.tx
      ∧ (u4.ctxAt s.pid s.cx).space = s.ctx.space ∧ (u4.ctxAt s.pid s.cx).ident = s.ctx.ident := by
      rcases ec with h | h <;> rw [h] <;> exact ⟨rfl, rfl, rfl, rfl, rfl, rfl⟩
    obtain ⟨h1, h2, h3, h5, h6, h7⟩ := hd
    have hctx : ∀ c, (u4.setCtxAt s.pid s.cx c).ctx = c := by
      intro c; rw [← e1, ← e2]; exact State.ctx_setCtx u4 c
    refine ⟨⟨?_, ?_, ?_, ?_, ?_, ?_, ?_, ?_, ?_, ?_, ?_, ?_, ?_, ?_, ?_⟩, hctx _⟩
    · rw [hctx]
    · rw [hctx]; simp [Ctx.g, Regs.getG_setG]
    · rw [hctx]; simp only [Ctx.g, Regs.getG_setG]; simp [Regs.getG]
    · intro i hi0 hi1 hi31
      rw [hctx]
      have hi1' : ¬ i = 1#5 := hi1
      have hi0' : ¬ i = 0#5 := hi0
      have : i.toNat ≠ 31 := fun e => hi31 (BitVec.eq_of_toNat_eq e)
      simp only [Ctx.g, Regs.getG_setG]
      simp only [Regs.getG]
      simp [hi1', hi0', Vector.getElem_set, Ne.symm this]
    · intro hv
      rw [hctx]; simp only [hv, Bool.false_and, Bool.false_eq_true, if_false]
      unfold Regs.setG; rfl
    · intro hv hp
      rw [hctx]
      have : (k.vlane && k.pred != 0) = true := by
        have hp' : ¬ k.pred = 0#3 := hp
        simp [hv, hp']
      simp only [this, if_true]
      unfold Regs.setG; rfl
    · rw [hctx, ← h1]; unfold Regs.setG; rfl
    · rw [hctx]; simp only [h2]
    · rw [hctx]; exact ⟨rfl, rfl⟩
    · rw [hctx]; exact ⟨rfl, rfl⟩
    · rw [hctx]; exact ⟨rfl, rfl⟩
    · rw [hctx]
    · rw [hctx]; exact ⟨h3, h5, h6, h7⟩
    · intro q y hq
      rw [State.ctxAt_setCtxAt_ne _ _ hq]; exact eo q y hq
    · exact ⟨e3, e4, e5⟩
  have same_ctxAt : ∀ {x y : State}, SameButMem x y → ∀ q z, y.ctxAt q z = x.ctxAt q z := by
    intro x y h q z; unfold State.ctxAt; rw [h.ctxs]
  let c := s.ctxAt s.pid s.cx
  let f := if sys then 1 else k.frame
  let S1 := (s.framesTo s.pid (c.handlerBase f) 4096 c.hf.toNat).foldl (fun (s_1 : State) (g : Frame) => s_1.bumpGen s.pid g.cap) s
  let S2 := if c.hframe = 0 ∨ c.hframe = W f then S1 else S1.dropHandling s.pid s.cx c.hframe
  let inner := S2.framesTo s.pid (if sys then 0 else f) 4096 k.hf.toNat
  let busy := S2.busyInner s.pid inner 4096 k.hframe
  let S3 := inner.foldl (fun (s_1 : State) (g : Frame) => s_1.setBusy s.pid g.addr (busy.contains g.addr)) S2
  let S4 := if sys then S3 else
    let t := S3.setBusy s.pid f false
    if many then t else t.killRec s.pid cap
  have p1 : SameButMem s S1 := SameButMem.foldl (fun x (g : Frame) => SameButMem.bumpGen x s.pid g.cap) _ _
  have p2 : ∃ u, SameButMem s u ∧ (S2 = u ∨ S2 = u.modCtxAt s.pid s.cx (fun c => { c with sysBusy := false, sysRec := { c.sysRec with state := 0 } })) := by
    show ∃ u, SameButMem s u ∧ ((if c.hframe = 0 ∨ c.hframe = W f then S1 else S1.dropHandling s.pid s.cx c.hframe) = u ∨ (if c.hframe = 0 ∨ c.hframe = W f then S1 else S1.dropHandling s.pid s.cx c.hframe) = _)
    split
    · exact ⟨S1, p1, .inl rfl⟩
    · obtain ⟨u, hu, he⟩ := dropHandling_spec S1 c.hframe
      rw [p1.pid, p1.cx] at he
      exact ⟨u, p1.trans hu, he⟩
  obtain ⟨u, hu, he⟩ := p2
  have p3 : SameButMem S2 S3 := SameButMem.foldl (fun x (g : Frame) => SameButMem.setBusy x s.pid g.addr _) _ _
  have p4 : SameButMem S3 S4 := by
    show SameButMem S3 (if sys then S3 else _)
    split
    · exact .refl _
    · dsimp only
      split
      · exact SameButMem.setBusy _ _ _ _
      · exact (SameButMem.setBusy _ _ _ _).trans (SameButMem.killRec _ _ _)
  have p24 := p3.trans p4
  have q2 : S2.pid = s.pid ∧ S2.cx = s.cx ∧ S2.vers = s.vers ∧ S2.launches = s.launches ∧ S2.copies = s.copies := by
    rcases he with h | h <;> rw [h]
    · exact ⟨hu.pid, hu.cx, hu.vers, hu.launches, hu.copies⟩
    · exact ⟨hu.pid, hu.cx, hu.vers, hu.launches, hu.copies⟩
  have q3 : ∀ q y, ctxKey q y ≠ ctxKey s.pid s.cx → S2.ctxAt q y = s.ctxAt q y := by
    intro q y hq
    rcases he with h | h <;> rw [h]
    · exact same_ctxAt hu q y
    · rw [State.ctxAt_modCtxAt_ne _ _ hq]; exact same_ctxAt hu q y
  have q4 : S2.ctxAt s.pid s.cx = s.ctx ∨ S2.ctxAt s.pid s.cx = { s.ctx with sysBusy := false, sysRec := { s.ctx.sysRec with state := 0 } } := by
    rcases he with h | h <;> rw [h]
    · left; exact same_ctxAt hu _ _
    · right; rw [State.ctxAt_modCtxAt, same_ctxAt hu]; rfl
  have horg : (S4.ctxAt s.pid s.cx).origin = s.ctx.origin ∧ (S4.ctxAt s.pid s.cx).resumed = s.ctx.resumed := by
    rw [same_ctxAt p24]
    rcases q4 with h | h <;> rw [h] <;> exact ⟨rfl, rfl⟩
  obtain ⟨r1, r2⟩ := key S4 (p24.pid.trans q2.1) (p24.cx.trans q2.2.1) (p24.vers.trans q2.2.2.1) (p24.launches.trans q2.2.2.2.1) (p24.copies.trans q2.2.2.2.2)
    (fun q y hq => (same_ctxAt p24 q y).trans (q3 q y hq)) (by rw [same_ctxAt p24]; exact q4)
    (Tab.get false (S4.ctxAt s.pid s.cx).barw (if sys then 1 else cap))
    (if sys ∧ k.effid = Eff.migrate then none else (S4.ctxAt s.pid s.cx).reserve)
    (if sys ∧ k.effid = Eff.migrate ∧ Tab.get s.pid (S4.ctxAt s.pid s.cx).origin (if sys then 1 else cap) = s.pid then S4.time else (S4.ctxAt s.pid s.cx).startAt)
    (if sys then S4.time - (S4.ctxAt s.pid s.cx).shFrom else (S4.ctxAt s.pid s.cx).shFrom)
    (if sys then false else (S4.ctxAt s.pid s.cx).sysBusy)
    (if sys then { (S4.ctxAt s.pid s.cx).sysRec with state := 0 } else (S4.ctxAt s.pid s.cx).sysRec)
    (if Tab.get s.pid (S4.ctxAt s.pid s.cx).origin (if sys then 1 else cap) = s.pid then (S4.ctxAt s.pid s.cx).resumed
      else some { eff := Eff.resumed, arg := W (Tab.get s.pid (S4.ctxAt s.pid s.cx).origin (if sys then 1 else cap)) })
  have r3 : (s.resumeWith s.pid s.cx sys k cap v m many).ctx = _ := r2
  refine ⟨r1, ?_, fun hsys => ?_⟩
  · rw [r3]; simp only [horg.1, horg.2]
  · rw [r3]; simp [hsys]

/-- A token that names no live record, or a record of a higher level, is refused before anything changes (06 R154). -/
theorem tokens_rules :
    ∀ (s : State) (sp : Bool) (a b d : Reg) (p : PReg), s.Clean → ∀ i ∈ [Instr.resume sp a b p, .resumem sp a b p, .discard sp d a],
    s.partsFree (tokenParts (s.ctx.g a)) →
    (s.tokenRec s.pid s.cx s.ctx (s.ctx.g a) = none → exec i s = .next (s.raised { eff := 0x007, arg := s.ctx.g a }))
    ∧ (∀ sys k cap, s.tokenRec s.pid s.cx s.ctx (s.ctx.g a) = some (sys, k, cap) → (sys = true ∨ k.sup = true) → s.ctx.stat.sup = false →
      exec i s = .next (s.raised { eff := 0x002 })) := by
  intro s sp a b d p hc i hi
  have h4 := hc.issued 4
  simp only [List.mem_cons, List.not_mem_nil, or_false] at hi
  intro hf
  have hf4 := State.partsFree_issued hf 4
  refine ⟨fun h => ?_, fun sys k cap h hl hs => ?_⟩
  · have hn := liveToken_none (s := s.issued 4) (here := s.here) (t := s.ctx.g a) hf4 (by rw [tokenRec_issued]; exact h)
    rcases hi with rfl | rfl | rfl
    · exact issue_raise hc (by rw [Act.bind_ok (Act.rdG_clean h4 a), Act.bind_ok (Act.rdG_clean h4 b), Act.bind_ok (Act.rdP_clean h4 p), State.issued_g, Act.bind_error hn]; rfl)
    · exact issue_raise hc (by rw [Act.bind_ok (Act.rdG_clean h4 a), Act.bind_ok (Act.rdG_clean h4 b), Act.bind_ok (Act.rdP_clean h4 p), State.issued_g, Act.bind_error hn]; rfl)
    · exact issue_raise hc (by rw [Act.bind_ok (Act.rdG_clean h4 a), Act.bind_ok (Act.interlock_clean h4 _), State.issued_g, Act.bind_error hn]; rfl)
  · have hn := liveToken_priv (s := s.issued 4) (here := s.here) (t := s.ctx.g a) hf4 (by rw [tokenRec_issued]; exact h) hl (by simpa using hs)
    rcases hi with rfl | rfl | rfl
    · exact issue_raise hc (by rw [Act.bind_ok (Act.rdG_clean h4 a), Act.bind_ok (Act.rdG_clean h4 b), Act.bind_ok (Act.rdP_clean h4 p), State.issued_g, Act.bind_error hn]; rfl)
    · exact issue_raise hc (by rw [Act.bind_ok (Act.rdG_clean h4 a), Act.bind_ok (Act.rdG_clean h4 b), Act.bind_ok (Act.rdP_clean h4 p), State.issued_g, Act.bind_error hn]; rfl)
    · exact issue_raise hc (by rw [Act.bind_ok (Act.rdG_clean h4 a), Act.bind_ok (Act.interlock_clean h4 _), State.issued_g, Act.bind_error hn]; rfl)

theorem restorable_clean {s : State} (h : s.Clean) : Act.restorable s = .ok ((), s) := by
  have h1 := h.1
  simp only [Regs.allPresent, Bool.and_eq_true, beq_iff_eq] at h1
  obtain ⟨⟨h2, h3⟩, h5⟩ := h1
  unfold Act.restorable
  simp [h2, h5, h.2]

theorem Continues.of_issued {s t : State} {k : CRec} {v m l : Word} {len : Nat} (h : Continues (s.issued len) t k v m l) : Continues s t k v m l := by
  refine ⟨h.pc, h.g1, h.g31, h.g, h.p, h.lanes, ?_, h.flags, h.frames, h.level, h.calls, h.bits, ?_, ?_, h.rest⟩
  · have := h.v; rw [State.issued_regs] at this; exact this
  · have := h.kept; simp only [State.issued_qs, State.issued_tx, State.issued_space, State.issued_ident] at this; exact this
  · intro q y hq; rw [h.others q y hq]; exact State.ctxAt_modCtxAt_ne _ _ hq

theorem returnSpans_issued (s : State) (len : Nat) (sys : Bool) (k : CRec) (cap : Nat) :
    (s.issued len).returnSpans s.pid s.cx sys k cap = s.returnSpans s.pid s.cx sys k cap := by
  have h : (s.issued len).ctxAt s.pid s.cx = (s.issued len).ctx := rfl
  have h' : s.ctxAt s.pid s.cx = s.ctx := rfl
  unfold State.returnSpans Ctx.handlerBase
  rw [h, h']
  simp only [State.framesTo_issued, State.issued_hf, State.issued_hframe, State.issued_sysRec, State.frameAt_issued]

theorem discardSpans_issued (s : State) (len : Nat) (sys : Bool) (k : CRec) : (s.issued len).discardSpans s.pid sys k = s.discardSpans s.pid sys k := by
  unfold State.discardSpans; simp only [State.framesTo_issued]

theorem resume_rules :
    ∀ (s : State) (sp : Bool) (a b d : Reg) (p : PReg), s.Clean → ∀ sys k cap,
    s.partsFree (tokenParts (s.ctx.g a)) → s.tokenRec s.pid s.cx s.ctx (s.ctx.g a) = some (sys, k, cap) →
    ((sys = true ∨ k.sup = true) → s.ctx.stat.sup = true) →
    (∀ org, org = Tab.get s.pid s.ctx.origin (if sys then 1 else cap) → s.partsFree (s.returnSpans s.pid s.cx sys k cap) →
      (∃ t : State, exec (.resume sp a b p) s = .next (t.switch sp)
        ∧ Continues s t k (s.ctx.g b) (s.ctx.regs.getP p) (Tab.get 0 s.ctx.late (if sys then 1 else cap))
        ∧ t.ctx.resumed = (if org = s.pid then s.ctx.resumed else some { eff := 0x011, arg := W org })
        ∧ (sys = true → t.ctx.sysBusy = false ∧ t.ctx.sysRec.state = 0))
      ∧ (sys = false → k.multi = true → k.seglen = 0 → ∃ t : State, exec (.resumem sp a b p) s = .next (t.switch sp)
        ∧ Continues s t k (s.ctx.g b) (s.ctx.regs.getP p) (Tab.get 0 s.ctx.late cap)
        ∧ t.ctx.resumed = (if org = s.pid then s.ctx.resumed else some { eff := 0x011, arg := W org })))
    ∧ (sys = true ∨ k.multi = false → exec (.resumem sp a b p) s = .next (s.raised { eff := 0x001, arg := s.ctx.g a }))
    ∧ (sys = true → s.partsFree (s.discardSpans s.pid sys k) → ∃ t : State, exec (.discard sp d a) s = .next (t.switch sp) ∧ (∀ i, t.ctx.g i = if i = d then 0 else s.ctx.g i)
        ∧ t.ctx.pc = s.ctx.pc + 4 ∧ t.ctx.hf = 0 ∧ t.ctx.sysBusy = false ∧ t.ctx.sysRec.state = 0 ∧ t.ctx.stat.emrg = false
        ∧ t.ctx.num = s.ctx.num ∧ t.ctx.regs.p = s.ctx.regs.p ∧ t.ctx.ras = s.ctx.ras)
    ∧ (sys = false → (s.frameAt s.pid k.frame).busy = false → s.partsFree (s.discardSpans s.pid sys k) →
        exec (.discard sp d a) s = .next ((((s.issued 4).killRec s.pid cap).modCtx (fun c => c.setG d (s.frameAt s.pid k.frame).ssp)).switch sp)) := by
  intro s sp a b d p hc sys k cap hf ht hl
  have h4 := hc.issued 4
  have hlive := liveToken_ok (s := s.issued 4) (here := s.here) (t := s.ctx.g a) (State.partsFree_issued hf 4) (by rw [tokenRec_issued]; exact ht) (by simpa using hl)
  refine ⟨fun org ho hp => ⟨⟨(s.issued 4).resumeWith s.pid s.cx sys k cap (s.ctx.g b) (s.ctx.regs.getP p) false, ?_, ?_, ?_, ?_⟩, fun hs hm hz => ⟨(s.issued 4).resumeWith s.pid s.cx sys k cap (s.ctx.g b) (s.ctx.regs.getP p) true, ?_, ?_, ?_⟩⟩, fun h => ?_, fun hs hd => ?_, fun hs hb hd => ?_⟩
  · apply issue_stop
    rw [Act.bind_ok (Act.rdG_clean h4 a), Act.bind_ok (Act.rdG_clean h4 b), Act.bind_ok (Act.rdP_clean h4 p), State.issued_g, State.issued_g, State.issued_regs, Act.bind_ok hlive]
    simp only []
    rw [Bool.false_and, Act.bind_ok (Act.check_false _ _), Act.bind_ok (restorable_clean h4), Act.bind_ok (Act.get_apply _),
      Act.bind_ok (Act.spans_free (s := s.issued 4) (by rw [returnSpans_issued]; exact State.partsFree_issued hp 4) _), if_neg Bool.false_ne_true, Act.bind_ok (Act.get_apply _)]
    rfl
  · have := (resumeWith_spec (s.issued 4) sys k cap (s.ctx.g b) (s.ctx.regs.getP p) false).1
    rw [State.issued_late] at this
    exact this.of_issued
  · have := (resumeWith_spec (s.issued 4) sys k cap (s.ctx.g b) (s.ctx.regs.getP p) false).2.1
    rw [State.issued_origin, State.issued_resumed, ← show org = Tab.get (s.issued 4).pid s.ctx.origin (if sys then 1 else cap) from ho] at this
    exact this
  · exact (resumeWith_spec (s.issued 4) sys k cap (s.ctx.g b) (s.ctx.regs.getP p) false).2.2
  · apply issue_stop
    rw [Act.bind_ok (Act.rdG_clean h4 a), Act.bind_ok (Act.rdG_clean h4 b), Act.bind_ok (Act.rdP_clean h4 p), State.issued_g, State.issued_g, State.issued_regs, Act.bind_ok hlive]
    simp only []
    rw [show (true && (sys || !k.multi)) = false by rw [hs, hm]; rfl, Act.bind_ok (Act.check_false _ _), Act.bind_ok (restorable_clean h4), Act.bind_ok (Act.get_apply _),
      Act.bind_ok (Act.spans_free (s := s.issued 4) (by rw [returnSpans_issued]; exact State.partsFree_issued hp 4) _), if_pos trivial, hz, if_pos rfl,
      Act.bind_ok (show Act.spans s.here [] (s.issued 4) = _ from rfl), Act.bind_ok (Act.get_apply _)]
    have hheld : (s.issued 4).segHeld (s.issued 4).pid (s.issued 4).ctx .write k.g31.toNat 0 = false := rfl
    rw [hheld, Act.bind_ok (Act.waitIf_false _ _)]
    have hput : ∀ l, Act.putSegment s.here 0 [] l (s.issued 4) = .ok ((), s.issued 4) := fun l => rfl
    have hseg : (s.issued 4).segHomes (s.issued 4).pid (s.issued 4).ctx s.here k.g31.toNat 0 = .ok [] := rfl
    simp only [hseg]
    rw [Act.bind_ok (hput _), Act.bind_ok (Act.get_apply _)]
    rfl
  · have := (resumeWith_spec (s.issued 4) sys k cap (s.ctx.g b) (s.ctx.regs.getP p) true).1
    rw [State.issued_late, hs] at this
    rw [hs]
    exact this.of_issued
  · have := (resumeWith_spec (s.issued 4) sys k cap (s.ctx.g b) (s.ctx.regs.getP p) true).2.1
    rw [State.issued_origin, State.issued_resumed, ← show org = Tab.get (s.issued 4).pid s.ctx.origin (if sys then 1 else cap) from ho] at this
    exact this
  · apply issue_raise hc
    rw [Act.bind_ok (Act.rdG_clean h4 a), Act.bind_ok (Act.rdG_clean h4 b), Act.bind_ok (Act.rdP_clean h4 p), State.issued_g, Act.bind_ok hlive]
    simp only []
    rw [show (true && (sys || !k.multi)) = true by rcases h with h | h <;> simp [h], Act.bind_error (Act.check_true _ _)]; rfl
  · subst hs
    let S1 := (((s.issued 4).framesTo s.pid 0 4096 k.hf.toNat).foldl (fun (x : State) (g : Frame) => x.bumpGen s.pid g.cap) (s.issued 4))
    have p1 : SameButMem (s.issued 4) S1 := SameButMem.foldl (fun x (g : Frame) => SameButMem.bumpGen x s.pid g.cap) _ _
    let U := ((s.issued 4).discardWith s.pid s.cx true k cap).1
    have hS1 : S1.ctxAt s.pid s.cx = (s.issued 4).ctx := by
      unfold State.ctxAt; rw [p1.ctxs]; rfl
    let fD : Ctx → Ctx := fun c => { c with
      sysBusy := false, sysRec := { c.sysRec with state := 0 }, hf := 0
      hframe := if c.hframe = 1 then k.hframe else c.hframe
      reserve := if k.effid = Eff.migrate then none else c.reserve
      startAt := if k.effid = Eff.migrate ∧ Tab.get s.pid c.origin 1 = s.pid then (s.issued 4).time else c.startAt
      shFrom := (s.issued 4).time - c.shFrom
      stat := { c.stat with emrg := false } }
    have hU : U = S1.modCtxAt s.pid s.cx fD := rfl
    have hUpid : U.pid = s.pid := p1.pid
    have hUcx : U.cx = s.cx := p1.cx
    have hUctx : U.ctx = fD (s.issued 4).ctx := by
      show U.ctxAt U.pid U.cx = _
      rw [hUpid, hUcx, hU, State.ctxAt_modCtxAt, hS1]
    have hclean : U.Clean := by
      unfold State.Clean; rw [hUctx]; exact h4
    refine ⟨U.modCtx (fun c => c.setG d 0), ?_, ?_, ?_, ?_, ?_, ?_, ?_, ?_, ?_, ?_⟩
    · apply issue_ok
      rw [Act.bind_ok (Act.rdG_clean h4 a), Act.bind_ok (Act.interlock_clean h4 _), State.issued_g, Act.bind_ok hlive]
      simp only []
      rw [Act.bind_ok (Act.get_apply _), Act.bind_ok (Act.spans_free (s := s.issued 4) (by rw [discardSpans_issued]; exact State.partsFree_issued hd 4) _),
        Act.bind_ok (Act.get_apply _)]
      have hset : ∀ (x : State), (set U : Act Unit) x = .ok ((), U) := fun _ => rfl
      show (set U >>= fun _ => Act.wrG d 0) (s.issued 4) = _
      rw [Act.bind_ok (hset _)]
      exact Act.wrG_clean hclean d 0
    all_goals rw [State.ctx_modCtx, hUctx]
    · intro i
      rw [Ctx.g_setG]
      by_cases hi : i = d
      · subst hi
        by_cases h0 : i = 0
        · subst h0; simp [Ctx.g, Regs.getG]
        · simp [h0]
          intro h; exact absurd h h0
      · simp only [hi, false_and, if_false]; exact State.issued_g s 4 i
    · show (s.issued 4).ctx.pc = _
      rw [State.issued_pc]; rfl
    · rfl
    · rfl
    · rfl
    · rfl
    · exact State.issued_num s 4
    · show ((s.issued 4).ctx.regs.setG d 0).p = _
      rw [State.issued_regs]; unfold Regs.setG; split <;> rfl
    · exact State.issued_ras s 4
  · subst hs
    have hf : ((s.issued 4).frameAt s.pid k.frame) = s.frameAt s.pid k.frame := rfl
    have hU : (s.issued 4).discardWith s.pid s.cx false k cap = ((s.issued 4).killRec s.pid cap, (s.frameAt s.pid k.frame).ssp) := by
      unfold State.discardWith
      simp only [Bool.false_eq_true, if_false, hf, hb, Bool.not_false, if_true]
    have hclean : ((s.issued 4).killRec s.pid cap).Clean := by unfold State.Clean; rw [State.ctx_killRec]; exact h4
    apply issue_ok
    rw [Act.bind_ok (Act.rdG_clean h4 a), Act.bind_ok (Act.interlock_clean h4 _), State.issued_g, Act.bind_ok hlive]
    simp only []
    rw [Act.bind_ok (Act.get_apply _), Act.bind_ok (Act.spans_free (s := s.issued 4) (by rw [discardSpans_issued]; exact State.partsFree_issued hd 4) _),
      Act.bind_ok (Act.get_apply _)]
    have hU' : (s.issued 4).discardWith (s.issued 4).pid (s.issued 4).cx false k cap = ((s.issued 4).killRec s.pid cap, (s.frameAt s.pid k.frame).ssp) := hU
    rw [hU']
    have hset : ∀ (x y : State), (set x : Act Unit) y = .ok ((), x) := fun _ _ => rfl
    simp only []
    rw [Act.bind_ok (hset _ _)]
    exact Act.wrG_clean hclean d _

end Sys2Proof.Machine
end

