-- ==== Sys2Proof/Laws/Sends.lean ====
section
/-! SUPPORT. SEND, SENDP, MCAST, MPUT and the packets they leave. -/

set_option Elab.async false

namespace Sys2Proof.Machine

theorem checkMessage_ok {s : State} {x y z : Word} {cast : Bool} (h : MessageOk s x y z cast) : Act.checkMessage x y z cast s = .ok ((), s) := by
  obtain ⟨⟨h1, h2, h3⟩, h4, h5, h6, h7, h8⟩ := h
  have hf : (fld x 18 16 != 0 || fld x 15 12 == 3 || decide (6 ≤ fld x 15 12)) = false := by simp [h1, h2]; omega
  unfold Act.checkMessage
  rw [hf, Act.bind_ok (Act.check_false _ _)]
  have rest : (do
    Act.check (!(flag x 32) && (fld x 15 12 != 0 || flag x 19 || fld x 11 0 % 8 != 0 || decide (64 < fld x 11 0))) (illegal x)
    Act.check (flag x 32 && (fld x 11 0 % 64 != 0 || decide (fld x 11 0 < 64) || decide (4032 < fld x 11 0))) (illegal x)
    Act.check (y.toNat % (if flag x 32 then 64 else 8) != 0) (alignFault y)
    Act.check (decide (Config.spadBytes < y.toNat + fld x 11 0)) (illegal x)
    Act.check (flag x 32 && z.toNat % 64 != 0) (alignFault z) : Act Unit) s = .ok ((), s) := by
    unfold payloadOk at h5
    have hy : (y.toNat % (if flag x 32 then 64 else 8) != 0) = false := by simp [h6]
    have hn : decide (Config.spadBytes < y.toNat + fld x 11 0) = false := decide_eq_false (by unfold Config.spadBytes; omega)
    cases hl : flag x 32 with
    | true =>
      rw [hl] at h5 hy; simp only [if_true] at h5 hy
      have h1 : (fld x 11 0 % 64 != 0 || decide (fld x 11 0 < 64) || decide (4032 < fld x 11 0)) = false := by simp [h5.1]; omega
      have h2 : (z.toNat % 64 != 0) = false := by simp [h8 hl]
      simp only [Bool.not_true, Bool.false_and, Bool.true_and, h1, if_true, hy, hn, h2, Act.check_false, Act.bind_apply]
    | false =>
      rw [hl] at h5 hy; simp only [Bool.false_eq_true, if_false] at h5 hy
      have h1 : (fld x 15 12 != 0 || flag x 19 || fld x 11 0 % 8 != 0 || decide (64 < fld x 11 0)) = false := by simp [h5.1, h5.2.1, h5.2.2.1]; omega
      simp only [Bool.not_false, Bool.false_and, Bool.true_and, h1, Bool.false_eq_true, if_false, hy, hn, Act.check_false, Act.bind_apply]
  cases cast with
  | true =>
    simp only [if_true] at h4 ⊢
    have h9 : (fld x 47 40 != 0 || fld x 39 34 != 0 || flag x 33) = false := by simp [h4]
    rw [h9, Act.bind_ok (Act.check_false _ _)]; exact rest
  | false =>
    simp only [Bool.false_eq_true, if_false] at h4 ⊢
    rw [Act.bind_ok (Act.get_apply _), h4, Act.bind_ok (Act.check_false _ _)]; exact rest

theorem MessageOk.issued {s : State} {x y z : Word} {cast : Bool} (h : MessageOk s x y z cast) : MessageOk (s.issued 4) x y z cast :=
  ⟨h.fields, by have := h.target; rw [State.lidBad_issued]; exact this, h.payload, h.source, h.inside, h.landing⟩

theorem message_issued (s : State) (x z : Word) (data : List Byte) (cast : Bool) :
    (s.issued 4).message s.here x z data cast = s.messageOf x z data (if cast then none else some (fld x 31 20)) := by
  unfold State.message State.messageOf State.here
  simp only [State.issuedAt_pid, State.issuedAt_cx, State.issued_act, State.issued_ident]
  congr 1
  · unfold State.sibOf
    rw [State.issued_started]; rfl
  · cases cast <;> rfl

theorem send_rules :
    ∀ (s : State) (sp : Bool) (a b c : Reg), s.Clean →
    (MessageOk s (s.ctx.g a) (s.ctx.g b) (s.ctx.g c) false → s.spanFree (s.ctx.g b).toNat (fld (s.ctx.g a) 11 0) →
      s.Sends (.send sp a b c) sp (fld (s.ctx.g a) 31 20) (.msg (s.messageOf (s.ctx.g a) (s.ctx.g c)
        (s.rd (spadKey s.pid (s.ctx.g b).toNat) (fld (s.ctx.g a) 11 0)) (some (fld (s.ctx.g a) 31 20)))) (fun t => t.switch sp))
    ∧ (MessageOk s (s.ctx.g a) (s.ctx.g b) (s.ctx.g c) true → s.spanFree (s.ctx.g b).toNat (fld (s.ctx.g a) 11 0) →
      exec (.mcast sp a b c) s = .next (((s.issued 4).modNet (fun n => { n with pkts := n.pkts ++
        ((((s.dieAt (dieOf s.pid)).routers.filter (fun e => e.1 == fld (s.ctx.g a) 31 20)).map (fun e => e.2)).map (fun k =>
          ⟨s.net.nextReq, s.pid, s.cx, s.ctx.act, k, .msg (s.messageOf (s.ctx.g a) (s.ctx.g c)
            (s.rd (spadKey s.pid (s.ctx.g b).toNat) (fld (s.ctx.g a) 11 0)) none), false, none⟩)) })).switch sp))
    ∧ (fld (s.ctx.g a) 63 32 = 0 → fld (s.ctx.g a) 19 5 = 0 → s.lidBad (fld (s.ctx.g a) 31 20) = false →
      s.Sends (.sendr sp a b) sp (fld (s.ctx.g a) 31 20) (.mailbox (fld (s.ctx.g a) 4 0) (s.ctx.g b)) (fun t => t.switch sp))
    ∧ (fld (s.ctx.g a) 63 44 = 0 → fld (s.ctx.g a) 15 8 = 0 → s.lidBad (fld (s.ctx.g a) 43 32) = false →
      s.Sends (.cntdec sp a) sp (fld (s.ctx.g a) 43 32) (.dec (fld (s.ctx.g a) 7 0) (fld (s.ctx.g a) 31 16)) (fun t => t.switch sp))
    ∧ (fld (s.ctx.g a) 18 16 ≠ 0 ∨ fld (s.ctx.g a) 15 12 = 3 ∨ 6 ≤ fld (s.ctx.g a) 15 12 →
      ∀ i ∈ [Instr.send sp a b c, .mcast sp a b c], exec i s = .next (s.raised { eff := 0x001, arg := s.ctx.g a }))
    ∧ (∀ lid, lid = fld (s.ctx.g a) 31 20 → s.lidBad lid = true →
      ∀ i ∈ [Instr.send sp a b c, .sendr sp a b], exec i s = .next (s.raised { eff := 0x001, arg := s.ctx.g a })) := by
  intro s sp a b c hc
  have h4 := hc.issued 4
  have rdab : ∀ (β : Type) (k : Word → Word → Word → Act β), (do
      let x ← Act.rdG a
      let y ← Act.rdG b
      let z ← Act.rdG c
      k x y z) (s.issued 4) = k (s.ctx.g a) (s.ctx.g b) (s.ctx.g c) (s.issued 4) := by
    intro β k
    rw [Act.bind_ok (Act.rdG_clean h4 a), Act.bind_ok (Act.rdG_clean h4 b), Act.bind_ok (Act.rdG_clean h4 c), State.issued_g, State.issued_g, State.issued_g]
  refine ⟨fun hm hs => ?_, fun hm hs => ?_, fun h1 h2 h3 => ?_, fun h1 h2 h3 => ?_, fun h => ?_, fun lid hl h => ?_⟩
  · apply State.sends_of rfl
    rw [rdab, Act.bind_ok (checkMessage_ok hm.issued), Act.bind_ok (Act.readSpad_free (State.spanFree_issued hs 4) _), Act.bind_ok (Act.get_apply _), message_issued]
    rfl
  · apply issue_ok
    rw [rdab, Act.bind_ok (checkMessage_ok hm.issued), Act.bind_ok (Act.readSpad_free (State.spanFree_issued hs 4) _), Act.bind_ok (Act.get_apply _), message_issued, Act.upd_apply]
    unfold State.packet
    simp only [State.issuedAt_pid, State.issuedAt_cx, State.issued_act, State.issuedAt_net]
    rfl
  · apply State.sends_of rfl
    have hb : (fld (s.ctx.g a) 63 32 != 0 || fld (s.ctx.g a) 19 5 != 0 || (s.issued 4).lidBad (fld (s.ctx.g a) 31 20)) = false := by
      rw [State.lidBad_issued]; simp [h1, h2, h3]
    rw [Act.bind_ok (Act.rdG_clean h4 a), Act.bind_ok (Act.rdG_clean h4 b), Act.bind_ok (Act.get_apply _), State.issued_g, State.issued_g, hb,
      Act.bind_ok (Act.check_false _ _)]
  · apply State.sends_of rfl
    have hb : (fld (s.ctx.g a) 63 44 != 0 || fld (s.ctx.g a) 15 8 != 0 || (s.issued 4).lidBad (fld (s.ctx.g a) 43 32)) = false := by
      rw [State.lidBad_issued]; simp [h1, h2, h3]
    rw [Act.bind_ok (Act.rdG_clean h4 a), Act.bind_ok (Act.get_apply _), State.issued_g, hb, Act.bind_ok (Act.check_false _ _)]
  · have hf : (fld (s.ctx.g a) 18 16 != 0 || fld (s.ctx.g a) 15 12 == 3 || decide (6 ≤ fld (s.ctx.g a) 15 12)) = true := by
      rcases h with h | h | h <;> simp [h]
    intro i hi
    simp only [List.mem_cons, List.not_mem_nil, or_false] at hi
    rcases hi with rfl | rfl <;>
    · apply issue_raise hc
      rw [rdab]
      apply Act.bind_error
      unfold Act.checkMessage
      rw [hf, Act.bind_error (Act.check_true _ _)]; rfl
  · subst hl
    intro i hi
    simp only [List.mem_cons, List.not_mem_nil, or_false] at hi
    rcases hi with rfl | rfl
    · apply issue_raise hc
      rw [rdab]
      apply Act.bind_error
      unfold Act.checkMessage
      cases hf : (fld (s.ctx.g a) 18 16 != 0 || fld (s.ctx.g a) 15 12 == 3 || decide (6 ≤ fld (s.ctx.g a) 15 12)) with
      | true => rw [Act.bind_error (Act.check_true _ _)]; rfl
      | false =>
        rw [Act.bind_ok (Act.check_false _ _)]
        simp only [Bool.false_eq_true, if_false]
        rw [Act.bind_ok (Act.get_apply _), State.lidBad_issued, h, Act.bind_error (Act.check_true _ _)]; rfl
    · apply issue_raise hc
      have hb : (fld (s.ctx.g a) 63 32 != 0 || fld (s.ctx.g a) 19 5 != 0 || (s.issued 4).lidBad (fld (s.ctx.g a) 31 20)) = true := by
        rw [State.lidBad_issued]; simp [h]
      rw [Act.bind_ok (Act.rdG_clean h4 a), Act.bind_ok (Act.rdG_clean h4 b), Act.bind_ok (Act.get_apply _), State.issued_g, State.issued_g, hb,
        Act.bind_error (Act.check_true _ _)]; rfl

end Sys2Proof.Machine
end

