-- ==== Sys2Proof/Laws/Interface.lean ====
section
/-! SUPPORT. Handler tables, masks, subscriptions and mailbox reads. -/

set_option Elab.async false

namespace Sys2Proof.Machine

theorem slotWord_iff (z : Word) : (fld z 55 48 != 0 || fld z 15 12 != 0 || fld z 7 4 != 0 || (decide (1 ≤ fld z 11 8) && decide (fld z 11 8 ≤ 11))) = false ↔ slotWordOk z := by
  simp only [slotWordOk, Bool.or_eq_false_iff, bne_eq_false_iff_eq, Bool.and_eq_false_iff, decide_eq_false_iff_not, and_assoc]
  have : (¬ 1 ≤ fld z 11 8 ∨ ¬ fld z 11 8 ≤ 11) ↔ (fld z 11 8 = 0 ∨ 12 ≤ fld z 11 8) := by omega
  rw [this]

theorem HSlot.configure_advances (h : HSlot) (y z : Word) : (h.rpc != y || h.prio != flag z 1 || h.privl != flag z 3 || (h.valid && !flag z 0)) = true ↔ h.advances y z := by
  simp [HSlot.advances, or_assoc]

theorem bindCopies_core (s : State) (pid tag : Nat) : (s.bindCopies pid tag).core = s.core := by
  unfold State.bindCopies; split <;> rfl

theorem State.modCore_congr {s : State} {f g : Core → Core} (h : f s.core = g s.core) : s.modCore f = s.modCore g := by
  unfold State.modCore State.modCoreAt State.core at *; rw [h]

theorem ni_rules :
    ∀ (s : State) (sp : Bool) (d a b c : Reg), s.Clean →
    (s.cx ≠ 4 →
      (s.ctx.masked s.time = false → exec (.hmask sp) s =
        .next (s.after sp 4 (fun k => { k with hmask := some (s.time + 256 * Config.coreTicks s.pid) })))
      ∧ (s.ctx.masked s.time = true → exec (.hmask sp) s = .next ((s.issued 4).switch sp))
      ∧ exec (.hunmask sp) s = .next (s.after sp 4 (fun k => { k with hmask := none })))
    ∧ (s.cx = 4 → ∀ i ∈ [Instr.hmask sp, .hunmask sp], exec i s = .next (s.raised { eff := 0x001 }))
    ∧ (∀ x y z h, x = s.ctx.g a → y = s.ctx.g b → z = s.ctx.g c → h = s.core.slot x.toNat →
      (x.toNat < 64 → flag y 0 = false → slotWordOk z → (flag z 3 = true → s.ctx.stat.sup = true) → ∃ g,
        (h.advances y z → g = (h.gen + 1) % 256) ∧ (¬ h.advances y z → g = h.gen)
        ∧ exec (.hcfg sp d a b c) s = .next ((((s.issued 4).modCore (fun k => k.setSlot x.toNat
          ⟨y, g, fld s.ctx.ident.launch 31 0, fld z 11 8, flag z 3, flag z 2, flag z 1, flag z 0⟩)).modCtx (fun k => k.setG d (W g))).switch sp))
      ∧ (64 ≤ x.toNat → exec (.hcfg sp d a b c) s = .next (s.raised { eff := 0x001, arg := x }))
      ∧ (x.toNat < 64 → flag y 0 = true → exec (.hcfg sp d a b c) s = .next (s.raised { eff := 0x001, arg := y }))
      ∧ (x.toNat < 64 → flag y 0 = false → ¬ slotWordOk z → exec (.hcfg sp d a b c) s = .next (s.raised { eff := 0x001, arg := z }))
      ∧ (x.toNat < 64 → flag y 0 = false → slotWordOk z → flag z 3 = true → s.ctx.stat.sup = false →
          exec (.hcfg sp d a b c) s = .next (s.raised { eff := 0x002 })))
    ∧ (∀ x y others, x = s.ctx.g a → y = s.ctx.g b → others = s.core.subs.filter (fun e => e.tag != x.toNat) → s.ctx.stat.sup = true →
      x.toNat < 4096 → y.toNat < 512 → fld y 7 6 = 0 →
      (flag y 8 = true → others.length < 16 → exec (.subtag sp a b) s = .next (s.awaiting
        ((((s.issued 4).bindCopies s.pid x.toNat).modCore (fun k => { k with subs := others ++ [⟨x.toNat, fld y 5 0, (s.core.slot (fld y 5 0)).gen⟩] })).asked
          (.subTag true x.toNat)) sp .reply))
      ∧ (flag y 8 = true → 16 ≤ others.length → exec (.subtag sp a b) s = .next (s.raised { eff := 0x001, arg := x }))
      ∧ (flag y 8 = false → exec (.subtag sp a b) s = .next (s.awaiting
        ((((s.issued 4).bindCopies s.pid x.toNat).modCore (fun k => { k with subs := others })).asked (.subTag false x.toNat)) sp .reply)))
    ∧ (s.ctx.stat.sup = false → exec (.subtag sp a b) s = .next (s.raised { eff := 0x002 })) := by
  intro s sp d a b c hc
  have h4 := hc.issued 4
  refine ⟨fun hx => ⟨fun hm => ?_, fun hm => ?_, ?_⟩, fun hx => ?_, fun x y z h ex ey ez eh => ?_, fun x y others ex ey eo hs h1 h2 h3 => ?_, fun hs => ?_⟩
  · have hx' : ((s.issued 4).cx == 4) = false := by simpa using hx
    apply issue_after
    rw [Act.bind_ok (Act.inSH_apply _), hx', Act.bind_ok (Act.check_false _ _), Act.upd_apply]
    congr 2; exact State.modCtx_congr (by simp [hm])
  · have hx' : ((s.issued 4).cx == 4) = false := by simpa using hx
    rw [← State.after_id]
    apply issue_after
    rw [Act.bind_ok (Act.inSH_apply _), hx', Act.bind_ok (Act.check_false _ _), Act.upd_apply]
    congr 2; apply State.modCtx_congr
    have h5 : (s.issued 4).ctx.masked (s.issued 4).time = true := by simpa using hm
    rw [h5]; rfl
  · have hx' : ((s.issued 4).cx == 4) = false := by simpa using hx
    apply issue_after
    rw [Act.bind_ok (Act.inSH_apply _), hx', Act.bind_ok (Act.check_false _ _), Act.updCtx_apply]
  · have hx' : ((s.issued 4).cx == 4) = true := by simpa using hx
    intro i hi
    simp only [List.mem_cons, List.not_mem_nil, or_false] at hi
    rcases hi with rfl | rfl <;>
    · apply issue_raise hc
      rw [Act.bind_ok (Act.inSH_apply _), hx', Act.bind_error (Act.check_true _ _)]; rfl
  · subst ex ey ez eh
    have rdab : ∀ (β : Type) (k : Word → Word → Word → Act β), (do
        let x ← Act.rdG a
        let y ← Act.rdG b
        let z ← Act.rdG c
        k x y z) (s.issued 4) = k (s.ctx.g a) (s.ctx.g b) (s.ctx.g c) (s.issued 4) := by
      intro β k
      rw [Act.bind_ok (Act.rdG_clean h4 a), Act.bind_ok (Act.rdG_clean h4 b), Act.bind_ok (Act.rdG_clean h4 c), State.issued_g, State.issued_g, State.issued_g]
    refine ⟨fun hx hy hz hp => ?_, fun hx => ?_, fun hx hy => ?_, fun hx hy hz => ?_, fun hx hy hz hp hs => ?_⟩
    · refine ⟨if (s.core.slot (s.ctx.g a).toNat).rpc != (s.ctx.g b) || (s.core.slot (s.ctx.g a).toNat).prio != flag (s.ctx.g c) 1 || (s.core.slot (s.ctx.g a).toNat).privl != flag (s.ctx.g c) 3 || ((s.core.slot (s.ctx.g a).toNat).valid && !flag (s.ctx.g c) 0)
          then ((s.core.slot (s.ctx.g a).toNat).gen + 1) % 256 else (s.core.slot (s.ctx.g a).toNat).gen, ?_, ?_, ?_⟩
      · intro h; rw [if_pos ((HSlot.configure_advances _ _ _).2 h)]
      · intro h; rw [if_neg (fun e => h ((HSlot.configure_advances _ _ _).1 e))]
      · have hq : (flag (s.ctx.g c) 3 && !(s.issued 4).ctx.stat.sup) = false := by
          cases hf : flag (s.ctx.g c) 3 with
          | false => rfl
          | true => simp [hp hf]
        have h63 : (fld (s.ctx.g a) 63 6 != 0) = false := by rw [fld_hi (by omega)]; rfl
        apply issue_ok
        rw [rdab, h63, Act.bind_ok (Act.check_false _ _), hy, Act.bind_ok (Act.check_false _ _), (slotWord_iff _).2 hz, Act.bind_ok (Act.check_false _ _),
            Act.bind_ok (Act.sup_apply _), hq, Act.bind_ok (Act.check_false _ _), Act.bind_ok (Act.ctx_apply _), Act.bind_ok (Act.core_apply _)]
        rw [Act.bind_ok (Act.updCore_apply _ _), Act.wrG_clean (s := (s.issued 4).modCore _) (by exact h4), State.issued_ident]; rfl
    · have h63 : (fld (s.ctx.g a) 63 6 != 0) = true := by simpa using fld_hi_ne (x := s.ctx.g a) (n := 6) hx (by decide)
      apply issue_raise hc; rw [rdab, h63]; exact Act.bind_error (Act.check_true _ _)
    · have h63 : (fld (s.ctx.g a) 63 6 != 0) = false := by rw [fld_hi (by omega)]; rfl
      apply issue_raise hc; rw [rdab, h63, Act.bind_ok (Act.check_false _ _), hy]; exact Act.bind_error (Act.check_true _ _)
    · have h63 : (fld (s.ctx.g a) 63 6 != 0) = false := by rw [fld_hi (by omega)]; rfl
      have hz' := eq_true_of_not (fun e => hz ((slotWord_iff (s.ctx.g c)).1 e))
      apply issue_raise hc; rw [rdab, h63, Act.bind_ok (Act.check_false _ _), hy, Act.bind_ok (Act.check_false _ _), hz']; exact Act.bind_error (Act.check_true _ _)
    · have h63 : (fld (s.ctx.g a) 63 6 != 0) = false := by rw [fld_hi (by omega)]; rfl
      have hq : (flag (s.ctx.g c) 3 && !(s.issued 4).ctx.stat.sup) = true := by simp [hp, hs]
      apply issue_raise hc; rw [rdab, h63, Act.bind_ok (Act.check_false _ _), hy, Act.bind_ok (Act.check_false _ _), (slotWord_iff _).2 hz, Act.bind_ok (Act.check_false _ _),
            Act.bind_ok (Act.sup_apply _), hq]; exact Act.bind_error (Act.check_true _ _)
  · subst ex ey eo
    have h12 : (fld (s.ctx.g a) 63 12 != 0) = false := by rw [fld_hi (by omega)]; rfl
    have h9 : (fld (s.ctx.g b) 63 9 != 0 || fld (s.ctx.g b) 7 6 != 0) = false := by rw [fld_hi (by omega), h3]; rfl
    have hsup : (s.issued 4).ctx.stat.sup = true := by simpa using hs
    refine ⟨fun hf hl => ?_, fun hf hl => ?_, fun hf => ?_⟩
    · apply issue_stop
      have hl' : (true && decide (16 ≤ (s.core.subs.filter (fun e => e.tag != (s.ctx.g a).toNat)).length)) = false := by simp; omega
      rw [Act.bind_ok (Act.needSup_sup hsup), Act.bind_ok (Act.rdG_clean h4 a), Act.bind_ok (Act.rdG_clean h4 b), State.issued_g, State.issued_g, h12,
        Act.bind_ok (Act.check_false _ _), h9, Act.bind_ok (Act.check_false _ _), Act.bind_ok (Act.core_apply _)]
      rw [hf, State.core_issued, hl', Act.bind_ok (Act.check_false _ _), Act.bind_ok (Act.upd_apply _ _), Act.bind_ok (Act.updCore_apply _ _)]
      rw [State.modCore_congr (g := fun k => { k with subs := s.core.subs.filter (fun e => e.tag != (s.ctx.g a).toNat) ++ [⟨(s.ctx.g a).toNat, fld (s.ctx.g b) 5 0, (s.core.slot (fld (s.ctx.g b) 5 0)).gen⟩] }) (by
        rw [show ((s.issued 4).bindCopies (s.issued 4).pid (s.ctx.g a).toNat).core = s.core from (bindCopies_core _ _ _).trans rfl]; rfl)]
      rfl
    · apply issue_raise hc
      have hl' : (true && decide (16 ≤ (s.core.subs.filter (fun e => e.tag != (s.ctx.g a).toNat)).length)) = true := by simp; omega
      rw [Act.bind_ok (Act.needSup_sup hsup), Act.bind_ok (Act.rdG_clean h4 a), Act.bind_ok (Act.rdG_clean h4 b), State.issued_g, State.issued_g, h12,
        Act.bind_ok (Act.check_false _ _), h9, Act.bind_ok (Act.check_false _ _), Act.bind_ok (Act.core_apply _)]
      rw [hf, State.core_issued, hl', Act.bind_error (Act.check_true _ _)]; rfl
    · apply issue_stop
      rw [Act.bind_ok (Act.needSup_sup hsup), Act.bind_ok (Act.rdG_clean h4 a), Act.bind_ok (Act.rdG_clean h4 b), State.issued_g, State.issued_g, h12,
        Act.bind_ok (Act.check_false _ _), h9, Act.bind_ok (Act.check_false _ _), Act.bind_ok (Act.core_apply _)]
      rw [hf, State.core_issued, Bool.false_and, Act.bind_ok (Act.check_false _ _), Act.bind_ok (Act.upd_apply _ _), Act.bind_ok (Act.updCore_apply _ _)]
      rw [State.modCore_congr (g := fun k => { k with subs := s.core.subs.filter (fun e => e.tag != (s.ctx.g a).toNat) }) (by
        rw [show ((s.issued 4).bindCopies (s.issued 4).pid (s.ctx.g a).toNat).core = s.core from (bindCopies_core _ _ _).trans rfl]; rfl)]
      rfl
  · apply issue_raise hc
    exact Act.bind_error (Act.needSup_user (by simpa using hs))

end Sys2Proof.Machine
end

