-- ==== Sys2Proof/Laws/Requests.lean ====
section
/-! SUPPORT. Reads of watched memory and the requests that an instruction leaves. -/

set_option Elab.async false

namespace Sys2Proof.Machine

structure SameCtxs (s t : State) : Prop where
  ctxs : t.ctxs = s.ctxs
  pid : t.pid = s.pid
  cx : t.cx = s.cx
  time : t.time = s.time
  dies : t.dies = s.dies
  cores : t.cores = s.cores

theorem SameCtxs.trans {s t u : State} (h : SameCtxs s t) (g : SameCtxs t u) : SameCtxs s u :=
  ⟨g.ctxs.trans h.ctxs, g.pid.trans h.pid, g.cx.trans h.cx, g.time.trans h.time, g.dies.trans h.dies, g.cores.trans h.cores⟩

theorem SameCtxs.wr (s : State) (k : Nat) (bs : List Byte) : SameCtxs s (s.wr k bs) := ⟨rfl, rfl, rfl, rfl, rfl, rfl⟩

theorem SameCtxs.modVers (s : State) (f : Vers → Vers) : SameCtxs s (s.modVers f) := ⟨rfl, rfl, rfl, rfl, rfl, rfl⟩

theorem SameCtxs.ue (s : State) (l : List Nat) : SameCtxs s { s with ue := l } := ⟨rfl, rfl, rfl, rfl, rfl, rfl⟩

theorem SameCtxs.refl (s : State) : SameCtxs s s := ⟨rfl, rfl, rfl, rfl, rfl, rfl⟩

theorem SameCtxs.reclaim (s : State) (l i : Nat) : SameCtxs s (s.reclaim l i) := by
  unfold State.reclaim
  dsimp only
  split
  · exact (SameCtxs.modVers s _).trans (SameCtxs.ue _ _)
  · exact SameCtxs.modVers s _

theorem SameCtxs.install (s : State) (l ts : Nat) (bs : List Byte) : SameCtxs s (s.install l ts bs) := by
  have key : ∀ (u : State), SameCtxs s u →
    (let v := u.vline l
    let s2 := if u.ue.contains l then { u with ue := State.versionKey l v.ts :: u.ue } else u
    SameCtxs s (((s2.setVline l { v with ts := ts, olds := (v.ts, s.rd l 64) :: v.olds }).modVers (fun v => { v with heldAt := Tab.del v.heldAt l })).wr l bs)) := by
    intro u hu; dsimp only; split
    · exact (((hu.trans (SameCtxs.ue _ _)).trans (SameCtxs.modVers _ _)).trans (SameCtxs.modVers _ _)).trans (SameCtxs.wr _ _ _)
    · exact ((hu.trans (SameCtxs.modVers _ _)).trans (SameCtxs.modVers _ _)).trans (SameCtxs.wr _ _ _)
  unfold State.install
  dsimp only
  split
  · split
    · exact key _ (SameCtxs.reclaim s _ _)
    · exact key _ (SameCtxs.refl s)
  · exact key _ (SameCtxs.refl s)

theorem SameCtxs.singleCommit (s : State) (l : Nat) (bs : List Byte) (by_ : Writer) : SameCtxs s (s.singleCommit l bs by_) := by
  unfold State.singleCommit State.advanceStable State.endSingle
  dsimp only
  split <;> exact ((SameCtxs.install s _ _ _).trans (SameCtxs.modVers _ _)).trans (SameCtxs.modVers _ _)

theorem SameCtxs.foldl {α : Type} {f : State → α → State} (hf : ∀ s a, SameCtxs s (f s a)) (l : List α) (s : State) : SameCtxs s (l.foldl f s) := by
  induction l generalizing s with
  | nil => exact SameCtxs.refl s
  | cons a l ih => rw [List.foldl_cons]; exact (hf s a).trans (ih _)

theorem SameCtxs.put (s : State) (h : Home) (bs : List Byte) (by_ : Writer) : SameCtxs s (s.put h bs by_) := by
  have hv : ∀ pa, SameCtxs s (s.putVersioned pa bs by_) := by
    intro pa; unfold State.putVersioned
    refine SameCtxs.foldl (fun s l => ?_) _ _
    exact SameCtxs.singleCommit s _ _ _
  cases h with
  | spad p off => exact SameCtxs.wr s _ _
  | host pa => exact SameCtxs.wr s _ _
  | peer d pa => exact SameCtxs.wr s _ _
  | regs off => exact SameCtxs.refl s
  | dev pa ver repl dm =>
    cases ver with
    | true => exact hv pa
    | false =>
      cases repl with
      | true =>
        show SameCtxs s (s.putReplicated pa dm bs by_)
        unfold State.putReplicated
        exact (SameCtxs.wr s (s.sys.lead * Config.dieBytes + pa % Config.dieBytes) bs).trans (SameCtxs.modVers _ _)
      | false => exact SameCtxs.wr s _ _

theorem SameCtxs.ctx {s t : State} (h : SameCtxs s t) : t.ctx = s.ctx := by
  unfold State.ctx State.ctxAt; rw [h.ctxs, h.pid, h.cx]

theorem Act.launch_of {s : State} {l : Launch} (h : s.launchOf s.pid s.cx = some l) : Act.launch s = .ok (l, s) := by
  unfold Act.launch; rw [h]

theorem launchOf_issued (s : State) (len : Nat) : (s.issued len).launchOf (s.issued len).pid (s.issued len).cx = s.launchOf s.pid s.cx := by
  unfold State.launchOf
  have : (s.issued len).ctxAt (s.issued len).pid (s.issued len).cx = (s.issued len).ctx := rfl
  rw [this, State.issued_ident]; rfl

theorem raise_of {s : State} {sp : Bool} {m : Act Unit} {i : Instr} {r : Raise} (hc : s.Clean) (hi : exec i s = issue s sp 4 m)
    (h : m (s.issued 4) = .error (.raise r)) (hd : Eff.system r.eff = true := by rfl) : exec i s = .next (s.raised r) := by
  rw [hi]; exact issue_raise hc h hd

theorem clean_core {s : State} (h : s.Clean) (p : Nat) (f : Core → Core) : (s.modCoreAt p f).Clean := h

theorem clean_die {s : State} (h : s.Clean) (p : Nat) (f : Die → Die) : (s.modDieAt p f).Clean := h

end Sys2Proof.Machine
end

