-- ==== Sys2Proof/Laws/Spawning.lean ====
section
/-! SUPPORT. SPAWN and the places a task may go. -/

set_option Elab.async false

namespace Sys2Proof.Machine

theorem SameCtxs.spillTasks (pid : Nat) : ∀ (l : List Task) (s : State) (k : Nat), SameCtxs s (s.spillTasks pid k l) := by
  intro l
  induction l with
  | nil => intro s k; exact SameCtxs.refl s
  | cons t l ih =>
    intro s k
    rw [State.spillTasks]
    split
    · exact (SameCtxs.wr _ _ _).trans (ih _ _)
    · exact ih _ _

theorem clean_setDeque {s : State} (h : s.Clean) (pid : Nat) (l : List Task) : (s.setDeque pid l).Clean := by
  unfold State.Clean State.setDeque
  rw [(SameCtxs.spillTasks pid _ _ _).ctx]; exact h

theorem clean_setPending {s : State} (h : s.Clean) (pid k : Nat) (p : PSlot) : (s.setPending pid k p).Clean := by
  unfold State.Clean State.setPending
  dsimp only
  split
  · split <;> exact h
  · exact h

theorem tasks_bad (w : List Word) : taskBad w = false ↔ taskOk w := by
  simp only [taskBad, taskOk, Bool.or_eq_false_iff, bne_eq_false_iff_eq, and_assoc]

theorem Act.drain_of {s : State} (h : s.ownReqs s.ctx.act = false) : Act.drain s = .ok ((), s) := by
  unfold Act.drain; rw [h]; rfl

theorem ownReqs_issued (s : State) (len : Nat) : (s.issued len).ownReqs (s.issued len).ctx.act = s.ownReqs s.ctx.act := by
  rw [State.issued_act]; rfl

theorem spawn_of {s : State} {sp : Bool} {d a : Reg} {w : List Word} {l : Launch} (hc : s.Clean) (h : SpawnOk s (s.ctx.g a) w l)
    {path lid : Nat} {v : Word} {t : State} {u : Task} (hp : Act.spawnPath l.det (s.issued 4) = .ok (path, s.issued 4))
    (hdet : l.det = true → flag (w.getD 5 0) 4 = true → fld (w.getD 5 0) 11 8 < 8)
    (hlid : lid = if l.det then l.placed path else fld (w.getD 5 0) 63 32)
    (hu : u = { Task.ofWords w l.id 0 s.time with path := path, cls := if l.det then 0 else (Task.ofWords w l.id 0 s.time).cls })
    (hplace : Act.placeTask l u lid (s.issued 4) = .ok (v, t)) (ht : t.Clean) : exec (.spawn sp d a) s = .next (t.spawned sp d v) := by
  have h4 := hc.issued 4
  have e1 : ((s.ctx.g a).toNat % 64 != 0 || decide (Config.spadBytes < (s.ctx.g a).toNat + 64)) = false := by
    have := h.aligned; have h2 := h.inside
    simp only [this, bne_self_eq_false, Bool.false_or, decide_eq_false_iff_not]; unfold Config.spadBytes; omega
  have hjoin : (w.getD 3 0).toNat % 8 = 0 := h.join
  have e2 : (taskBad w || (s.issued 4).lidBad (fld (w.getD 5 0) 63 32)) = false := by
    rw [State.lidBad_issued, h.home, (tasks_bad w).2 h.good]; rfl
  have e3 : ((w.getD 3 0).toNat % 8 != 0) = false := by rw [h.join]; rfl
  have e4 : (l.det && flag (w.getD 5 0) 4 && decide (8 ≤ fld (w.getD 5 0) 11 8)) = false := by
    cases hd : l.det with
    | false => rfl
    | true =>
      cases hs : flag (w.getD 5 0) 4 with
      | false => rfl
      | true => have := hdet hd hs; rw [Bool.true_and, Bool.true_and]; exact decide_eq_false (by omega)
  apply issue_ok
  rw [Act.bind_ok (Act.rdG_clean h4 a), Act.bind_ok (Act.interlock_clean h4 _), State.issued_g, e1, Act.bind_ok (Act.check_false _ _),
    Act.bind_ok (Act.readSpad_free (State.spanFree_issued h.free 4) _)]
  have hw : bytesWords 8 ((s.issued 4).rd (spadKey (s.issued 4).pid (s.ctx.g a).toNat) 64) = w := h.words.symm
  rw [hw, Act.bind_ok (Act.launch_of ((launchOf_issued s 4).trans h.launch)), Act.bind_ok (Act.get_apply _)]
  have e2' : (taskBad w || (s.issued 4).lidBad (Task.ofWords w l.id 0 s.time).home) = false := e2
  have e3' : ((Task.ofWords w l.id 0 s.time).join.toNat % 8 != 0) = false := e3
  have e4' : (l.det && (Task.ofWords w l.id 0 s.time).splitk && decide (8 ≤ (Task.ofWords w l.id 0 s.time).fmt)) = false := e4
  have hu' : ({ Task.ofWords w l.id 0 s.time with path := path, cls := if l.det then 0 else (Task.ofWords w l.id 0 s.time).cls } : Task) = u := hu.symm
  have hlid' : (if l.det = true then l.placed path else (Task.ofWords w l.id 0 s.time).home) = lid := hlid.symm
  rw [e2', Act.bind_ok (Act.check_false _ _), Act.bind_ok hp, e3', Act.bind_ok (Act.check_false _ _), e4', Act.bind_ok (Act.check_false _ _),
    Act.bind_ok (Act.drain_of ((ownReqs_issued s 4).trans h.drained))]
  rw [hlid', hu', Act.bind_ok hplace, Act.bind_ok (Act.updCtx_apply _ _), Act.wrG_clean (ht.modCtx (by rfl) (by rfl))]

theorem find_first {p : Nat → Bool} {n k : Nat} (hk : k < n) (h : p k = true) (hl : ∀ j, j < k → p j = false) : (List.range n).find? p = some k := by
  rw [List.find?_range_eq_some]
  exact ⟨h, by simpa using hk, fun j hj => by simpa using hl j hj⟩

theorem spawnPath_issued (s : State) (det : Bool) : Act.spawnPath det (s.issued 4) = (do
    let i := s.ctx.spawns + 1
    let path := 256 * s.ctx.path + i
    Act.check (det && s.ctx.byMessage) (illegal 0)
    Act.check (det && (decide (255 < i) || decide (2 ^ 48 ≤ path))) (illegal (W s.ctx.path))
    return path % 2 ^ 48 : Act Nat) (s.issued 4) := by
  unfold Act.spawnPath
  rw [Act.bind_ok (Act.ctx_apply _), State.issued_spawns, State.issued_path]
  have : (s.issued 4).ctx.byMessage = s.ctx.byMessage := by unfold Ctx.byMessage; rw [State.issued_started]
  rw [this]

theorem spawn_rules :
    ∀ (s : State) (sp : Bool) (d a : Reg) (w : List Word) (l : Launch), s.Clean → SpawnOk s (s.ctx.g a) w l →
    (l.det = false → ∀ path core die lid, path = (256 * s.ctx.path + (s.ctx.spawns + 1)) % 2 ^ 48 → lid = fld (w.getD 5 0) 63 32 → core = l.coreOf lid →
      die = dieOf core → l.parked lid = false →
      (flag (w.getD 5 0) 12 = true → fld (w.getD 6 0) 31 0 ≠ 0 → ∀ k, k < 256 → (Tab.get ⟨0, none⟩ (s.coreAt core).ptasks k : PSlot).task = none →
        (∀ j, j < k → (Tab.get ⟨0, none⟩ (s.coreAt core).ptasks j : PSlot).task ≠ none) → ∀ gen, gen = ((Tab.get ⟨0, none⟩ (s.coreAt core).ptasks k : PSlot).gen + 1) % 2 ^ 16 →
        exec (.spawn sp d a) s = .next (((s.issued 4).setPending core k ⟨gen, some (s.taskOf w l.id 0 path false)⟩).spawned sp d
          (W (lid * 2 ^ 32 + gen * 2 ^ 16 + k))))
      ∧ (flag (w.getD 5 0) 12 = true → fld (w.getD 6 0) 31 0 = 0 → (s.coreAt core).deque.length < 64 + l.dqsp → ∀ id, id = die * 2 ^ 40 + (s.dieAt die).nextTask →
        exec (.spawn sp d a) s = .next ((((s.issued 4).numbered die).pushed core (s.taskOf w l.id id path false)).spawned sp d (W id)))
      ∧ (flag (w.getD 5 0) 12 = false → (s.dieAt die).paddock.foldl (fun n e => n + e.2.length) 0 < 65536 → ∀ id, id = die * 2 ^ 40 + (s.dieAt die).nextTask →
        exec (.spawn sp d a) s = .next ((((s.issued 4).numbered die).modDieAt die (fun r =>
          { r with paddock := Tab.set r.paddock (fld (w.getD 5 0) 1 0) (Tab.get [] r.paddock (fld (w.getD 5 0) 1 0) ++ [s.taskOf w l.id id path false]) })).spawned sp d (W id))))
    ∧ (l.det = true → s.ctx.byMessage = false → s.ctx.spawns < 255 → 256 * s.ctx.path + s.ctx.spawns + 1 < 2 ^ 48 →
      (flag (w.getD 5 0) 4 = true → fld (w.getD 5 0) 11 8 < 8) → (flag (w.getD 5 0) 12 = true → fld (w.getD 6 0) 31 0 = 0) →
      ∀ path lid, path = 256 * s.ctx.path + (s.ctx.spawns + 1) → lid = l.placed path → l.parked lid = false → (s.coreAt (l.coreOf lid)).deque.length < 64 + l.dqsp →
      exec (.spawn sp d a) s = .next (((s.issued 4).pushed (l.coreOf lid) (s.taskOf w l.id path path true)).spawned sp d (W path))) := by
  intro s sp d a w l hc h
  have h4 := hc.issued 4
  refine ⟨fun hd path core die lid ep el ec ed hk => ?_, fun hd hm h1 h2 h3 hcnt path lid ep el hk hq => ?_⟩
  · have hp : Act.spawnPath l.det (s.issued 4) = .ok (path, s.issued 4) := by
      rw [spawnPath_issued, hd]
      dsimp only
      rw [Bool.false_and, Act.bind_ok (Act.check_false _ _), Bool.false_and, Act.bind_ok (Act.check_false _ _)]
      rw [ep]; rfl
    have hdet : l.det = true → flag (w.getD 5 0) 4 = true → fld (w.getD 5 0) 11 8 < 8 := by rw [hd]; intro h; cases h
    have hlid : lid = if l.det then l.placed path else fld (w.getD 5 0) 63 32 := by rw [hd]; exact el
    refine ⟨fun f1 f2 k hk1 hk2 hk3 gen hg => ?_, fun f1 f2 hq id hid => ?_, fun f1 hq id hid => ?_⟩
    · have ht : (((s.issued 4).setPending core k ⟨gen, some (s.taskOf w l.id 0 path false)⟩).Clean) := clean_setPending h4 _ _ _
      refine spawn_of (u := s.taskOf w l.id 0 path false) hc h hp hdet hlid (by rw [hd]; rfl) ?_ ht
      unfold Act.placeTask
      rw [Act.bind_ok (Act.get_apply _)]
      rw [← ec, hk, Act.bind_ok (Act.waitIf_false _ _)]
      have hf : (List.range 256).find? (fun k => (Tab.get ⟨0, none⟩ ((s.issued 4).coreAt core).ptasks k : PSlot).task.isNone) = some k := by
        apply find_first hk1
        · rw [State.coreAt_issued, hk2]; rfl
        · intro j hj; have := hk3 j hj; rw [State.coreAt_issued]
          cases hx : (Tab.get ⟨0, none⟩ (s.coreAt core).ptasks j : PSlot).task with
          | none => exact absurd hx this
          | some _ => rfl
      have hif : ((s.taskOf w l.id 0 path false).deps && (s.taskOf w l.id 0 path false).cnt != 0) = true := by
        show (flag (w.getD 5 0) 12 && fld (w.getD 6 0) 31 0 != 0) = true
        rw [f1]; simpa using f2
      rw [if_pos hif, hf]
      dsimp only
      rw [Act.bind_ok (Act.upd_apply _ _), State.coreAt_issued, ← hg]
      simp only [Act.pure_apply]
    · have ht : ((((s.issued 4).numbered die).pushed core (s.taskOf w l.id id path false)).Clean) := clean_setDeque (s := (s.issued 4).numbered die) h4 _ _
      refine spawn_of (u := s.taskOf w l.id 0 path false) hc h hp hdet hlid (by rw [hd]; rfl) ?_ ht
      unfold Act.placeTask
      rw [Act.bind_ok (Act.get_apply _)]
      rw [← ec, hk, Act.bind_ok (Act.waitIf_false _ _), ← ed]
      rw [if_neg (by rw [show (s.taskOf w l.id 0 path false).cnt = 0 from f2]; simp)]
      dsimp only
      rw [if_pos (by rw [show (s.taskOf w l.id 0 path false).deps = true from f1]; rfl)]
      have hfull : (s.issued 4).dequeFull core l = false := by
        unfold State.dequeFull; rw [State.coreAt_issued]; simp; omega
      rw [hfull, Act.bind_ok (Act.waitIf_false _ _), Act.bind_ok (Act.upd_apply _ _)]
      simp only [Act.pure_apply]
      rw [hd]
      unfold State.taskId State.nextTaskId
      simp only [Bool.false_eq_true, if_false]
      have : (s.issued 4).dieAt die = s.dieAt die := rfl
      rw [this, ← hid]; rfl
    · have ht : (((s.issued 4).numbered die).modDieAt die (fun r =>
          { r with paddock := Tab.set r.paddock (fld (w.getD 5 0) 1 0) (Tab.get [] r.paddock (fld (w.getD 5 0) 1 0) ++ [s.taskOf w l.id id path false]) })).Clean := h4
      refine spawn_of (u := s.taskOf w l.id 0 path false) hc h hp hdet hlid (by rw [hd]; rfl) ?_ ht
      unfold Act.placeTask
      rw [Act.bind_ok (Act.get_apply _)]
      rw [← ec, hk, Act.bind_ok (Act.waitIf_false _ _), ← ed]
      rw [if_neg (by rw [show (s.taskOf w l.id 0 path false).deps = false from f1]; simp)]
      dsimp only
      rw [if_neg (by rw [show (s.taskOf w l.id 0 path false).deps = false from f1, hd]; simp)]
      have hd' : (s.issued 4).dieAt die = s.dieAt die := rfl
      have hfull : decide (65536 ≤ ((s.issued 4).dieAt die).paddock.foldl (fun n e => n + e.2.length) 0) = false := by
        rw [hd']; exact decide_eq_false (by omega)
      rw [hfull, Act.bind_ok (Act.waitIf_false _ _), Act.bind_ok (Act.upd_apply _ _)]
      simp only [Act.pure_apply]
      rw [hd]
      unfold State.taskId State.nextTaskId
      simp only [Bool.false_eq_true, if_false]
      rw [hd', ← hid]; rfl
  · have hp : Act.spawnPath l.det (s.issued 4) = .ok (path, s.issued 4) := by
      rw [spawnPath_issued, hd, hm]
      dsimp only
      have : (decide (255 < s.ctx.spawns + 1) || decide (2 ^ 48 ≤ 256 * s.ctx.path + (s.ctx.spawns + 1))) = false := by
        rw [Bool.or_eq_false_iff]; exact ⟨decide_eq_false (by omega), decide_eq_false (by omega)⟩
      rw [Bool.and_false, Act.bind_ok (Act.check_false _ _), this, Bool.and_false, Act.bind_ok (Act.check_false _ _)]
      rw [ep, Nat.mod_eq_of_lt (by omega)]; rfl
    have ht : (((s.issued 4).pushed (l.coreOf lid) (s.taskOf w l.id path path true)).Clean) := clean_setDeque h4 _ _
    refine spawn_of (lid := lid) (u := s.taskOf w l.id 0 path true) hc h hp (fun _ => h3) (by rw [hd]; exact el) (by rw [hd]; rfl) ?_ ht
    unfold Act.placeTask
    rw [Act.bind_ok (Act.get_apply _), hk, Act.bind_ok (Act.waitIf_false _ _)]
    rw [if_neg (by
      intro hx
      rw [Bool.and_eq_true] at hx
      have := hcnt hx.1
      have h2 : (fld (w.getD 6 0) 31 0 != 0) = true := hx.2
      rw [this] at h2; cases h2)]
    dsimp only
    rw [if_pos (by rw [hd]; simp)]
    have hfull : (s.issued 4).dequeFull (l.coreOf lid) l = false := by
      unfold State.dequeFull; rw [State.coreAt_issued]; simp; omega
    rw [hfull, Act.bind_ok (Act.waitIf_false _ _), Act.bind_ok (Act.upd_apply _ _)]
    simp only [Act.pure_apply]
    rw [hd]
    unfold State.taskId State.nextTaskId
    simp only [if_true]; rfl

end Sys2Proof.Machine
end

