-- ==== Sys2Proof/Laws/Forking.lean ====
section
/-! SUPPORT. FORK, JOIN counters and the counter instructions. -/

set_option Elab.async false

namespace Sys2Proof.Machine

theorem nextTask_fillTlb (s : State) (pid : Nat) (pt : Word) (va : Nat) (k : Leaf) (d : Nat) :
    (Tab.get Die.reset (s.fillTlb pid pt va k).dies d).nextTask = (Tab.get Die.reset s.dies d).nextTask := by
  unfold State.fillTlb State.modDieAt State.dieAt
  dsimp only
  by_cases h : d = dieOf pid
  · subst h; rw [Tab.get_set_same]; rfl
  · rw [Tab.get_set_ne _ _ _ h]; rfl

theorem Act.rmw_free {s : State} {h : Home} {n : Nat} {rel : Bool} (hf : s.rmwFree h n rel) (op : MemOp) (acq : Bool) (here ea : Word) :
    Act.rmw h n op rel acq here ea s = .ok ((), s.rmwSent h n op rel acq here ea) := by
  unfold Act.rmw State.rmwSent
  rw [Act.bind_ok (Act.get_apply _)]
  by_cases ho : h.own s.pid = true
  · obtain ⟨h1, h2⟩ := hf ho
    obtain ⟨off, rfl⟩ : ∃ off, h = .spad s.pid off := by
      cases h with
      | spad p off => simp only [Home.own, beq_iff_eq] at ho; exact ⟨off, by rw [ho]⟩
      | _ => simp [Home.own] at ho
    have hm := h2 off rfl
    have hu : Act.unmarked [⟨.spad s.pid off, n⟩] s = .ok ((), s) := by
      unfold Act.unmarked
      rw [Act.bind_ok (Act.get_apply _)]
      simp only [hm, Bool.and_false]
      rw [Act.bind_ok (Act.waitIf_false _ _)]; rfl
    rw [if_pos ho, if_pos ho]
    cases rel with
    | true =>
      simp only [if_true]
      rw [Act.bind_ok (Act.drain_of (h1 rfl)), Act.bind_ok hu]; rfl
    | false =>
      simp only [Bool.false_eq_true, if_false]
      rw [Act.bind_ok hu]; rfl
  · rw [if_neg ho, if_neg ho]; rfl

theorem State.rmwFree_issued {s : State} {h : Home} {n : Nat} {rel : Bool} (hf : s.rmwFree h n rel) (len : Nat) : (s.issued len).rmwFree h n rel := by
  intro ho
  obtain ⟨h1, h2⟩ := hf ho
  exact ⟨fun hr => by rw [State.issued_act]; exact h1 hr, h2⟩

theorem State.rmwFree_translated {s : State} {h : Home} {n : Nat} {rel : Bool} (hf : s.rmwFree h n rel) (ea : Word) (l : Option Leaf) :
    (s.translated ea l).rmwFree h n rel := by
  intro ho
  rw [State.translated_pid] at ho ⊢
  obtain ⟨h1, h2⟩ := hf ho
  refine ⟨fun hr => ?_, fun off e => ?_⟩
  · rw [State.translated_ctx, ← h1 hr]; cases l <;> rfl
  · rw [State.marked_translated]; exact h2 off e

theorem State.rmwFree_modCtx {s : State} {h : Home} {n : Nat} {rel : Bool} (hf : s.rmwFree h n rel) (f : Ctx → Ctx) (ha : (f s.ctx).act = s.ctx.act) :
    (s.modCtx f).rmwFree h n rel := by
  intro ho
  obtain ⟨h1, h2⟩ := hf ho
  exact ⟨fun hr => by rw [State.ctx_modCtx, ha]; exact h1 hr, h2⟩

/-- A read-modify-write never reaches registers (10 R271). -/
theorem State.Placed.memory {s : State} {ea : Word} {n : Nat} {h : Home} {l : Option Leaf} (hp : s.Placed .rmw ea n h l) : h.isRegs = false := by
  unfold State.Placed State.locate at hp
  simp only [] at hp
  split at hp
  · cases hp
  · split at hp
    · cases hp
    · split at hp
      · simp at hp; rw [← hp.1]; rfl
      · simp at hp; rw [← hp.1]; rfl
      · cases hp
      · split at hp
        · cases hp
        · split at hp
          · cases hp
          · split at hp
            · cases hp
            · rename_i hh
              simp only [Except.ok.injEq, Prod.mk.injEq] at hp
              rw [← hp.1]
              unfold State.homeOf at hh
              simp only [] at hh
              split at hh
              · split at hh <;> cases hh; rfl
              · split at hh
                · simp at hh
                · split at hh
                  · cases hh; rfl
                  · simp at hh

theorem SameCtxs.onLink (s : State) (h : Home) : SameCtxs s (s.onLink h) := by
  unfold State.onLink
  split
  · split <;> exact ⟨rfl, rfl, rfl, rfl, rfl, rfl⟩
  · exact SameCtxs.refl s

theorem SameCtxs.setBuffer (s : State) (h : Home) (l : List (Nat × Nat × List Byte)) : SameCtxs s (s.setBuffer h l) := by
  unfold State.setBuffer; repeat' split
  all_goals first | exact ⟨rfl, rfl, rfl, rfl, rfl, rfl⟩

theorem SameCtxs.writeOwn (s : State) {h : Home} (hr : h.isRegs = false) (bs : List Byte) : SameCtxs s (s.writeOwn h bs) := by
  have ho : ∀ (t : State) (h : Home) (n : Nat), SameCtxs t (t.wroteOutside h n) := by
    intro t h n
    unfold State.wroteOutside
    split
    · exact SameCtxs.foldl (fun t l => SameCtxs.setBuffer t _ _) _ _
    · exact SameCtxs.refl _
  have hw : SameCtxs s (s.writeHome h bs (.access s.pid s.cx s.ctx.act s.net.nextReq)) := by
    have hp := SameCtxs.put s h bs (.access s.pid s.cx s.ctx.act s.net.nextReq)
    unfold State.writeHome
    cases h with
    | regs off => simp [Home.isRegs] at hr
    | _ =>
      simp only []
      split
      · exact (hp.trans (ho _ _ _)).trans (SameCtxs.onLink _ _)
      · exact hp
  exact ⟨hw.ctxs, hw.pid, hw.cx, hw.time, hw.dies, hw.cores⟩

theorem increment_at {s : State} {ea : Word} {h : Home} {l : Option Leaf} (hk : s.Changes ea h l) (hd : s.ownReqs s.ctx.act = false) (here : Word) :
    Act.increment here ea (s.issued 4) = .ok ((), s.joinCounted ea h l) := by
  have hr : Act.reach h 8 ((s.issued 4).translated ea l) = .ok ((), (s.issued 4).translated ea l) :=
    Act.reach_free (by rw [State.readHeld_translated, State.translated_pid, State.translated_ctx, State.readHeld_issued, State.issued_act]; exact hk.free)
  have e0 : ((s.issued 4).translated ea l).homeDown h = false := by rw [← hk.port]; cases l <;> rfl
  have e1 : ((s.issued 4).translated ea l).homeBad h 8 = false := by rw [← hk.good]; cases l <;> rfl
  have e2 : ((s.issued 4).translated ea l).canPut h 8 .other = true := by rw [← hk.room]; cases l <;> rfl
  have e3 : ((s.issued 4).translated ea l).ownReqs ((s.issued 4).translated ea l).ctx.act = false := by
    rw [State.translated_ctx, State.issued_act, ← hd]; cases l <;> rfl
  have e4 : ((s.issued 4).translated ea l).homeBytes h 8 = s.homeBytes h 8 := by cases l <;> rfl
  unfold Act.increment
  rw [Act.bind_ok (Act.gate_open (State.noAcquire_issued hk.gate 4)), Act.bind_ok (Act.place_at (hk.at_.issued 4))]
  dsimp only
  rw [Act.bind_ok hr, Act.bind_ok (Act.get_apply _), Act.bind_ok (Act.get_apply _), e0, e1, Bool.false_or, Act.bind_ok (Act.check_false _ _),
    Act.bind_ok (Act.drain_of e3), Act.bind_ok (Act.get_apply _), e2, Bool.not_true, Act.bind_ok (Act.waitIf_false _ _), Act.upd_apply, e4]
  rfl

theorem fork_refused (s : State) (l : Launch) : ((s.issued 4).dequeFull (s.forkCore l) l || (l.det && (decide (2 ^ 48 ≤ 2 * s.ctx.path + 1) || s.ctx.byMessage))) = true ↔ s.forkRefused l := by
  unfold State.dequeFull State.forkRefused
  rw [State.coreAt_issued]
  simp

theorem byMessage_issued (s : State) : (s.issued 4).ctx.byMessage = s.ctx.byMessage := by unfold Ctx.byMessage; rw [State.issued_started]

theorem queueOf_issued (s : State) (l : Option Launch) : (s.issued 4).ctx.queueOf l = s.ctx.queueOf l := by unfold Ctx.queueOf; rw [State.issued_started]

theorem fork_tail {m : Act Unit} {s t : State} {sp : Bool} {d : Reg} {pc x y j : Word} {l : Launch} {core : Nat} (ht : t.Clean) (hd : (t.dieAt (dieOf core)).nextTask = (s.dieAt (dieOf core)).nextTask)
    (htime : t.time = s.time)
    (hm : m (s.issued 4) = (do
      let (q, k) := s.ctx.queueOf (some l)
      let die := dieOf core
      let t ← get
      let arm : Task := { pc := pc, arg0 := x, arg1 := y, join := j, path := (2 * s.ctx.path + 1) % 2 ^ 48, home := 0, deps := false, fmt := 0
                          splitk := false, cls := k, qpri := q, cnt := 0, launch := l.id
                          id := t.taskId die l.det ((2 * s.ctx.path + 1) % 2 ^ 48), since := t.time, headAt := none }
      Act.upd (fun t => (t.nextTaskId die l.det).setDeque core (arm :: (t.coreAt core).deque))
      Act.updCtx (fun c => { c with path := 2 * c.path % 2 ^ 48
                                    ident := if l.det then { c.ident with task := W (2 * c.path) } else c.ident })
      Act.wrG d 1 : Act Unit) t) : issue s sp 4 m = .next (t.forked sp d l core (s.armOf pc x y j l core)) := by
  unfold issue
  show Host.Outcome.next (s.settle sp (m (s.issued 4))) = _
  rw [hm]
  dsimp only
  rw [Act.bind_ok (Act.get_apply _)]
  rw [Act.bind_ok (Act.upd_apply _ _), Act.bind_ok (Act.updCtx_apply _ _), Act.wrG_clean]
  · unfold State.settle State.forked State.armOf State.taskId State.nextTaskId
    dsimp only
    rw [hd, htime]
    cases l.det <;> rfl
  · refine State.Clean.modCtx ?_ rfl rfl
    unfold State.nextTaskId; split <;> exact clean_setDeque (by exact ht) _ _

theorem fork_rules :
    ∀ (s : State) (sp : Bool) (d a b c : Reg) (l : Launch), s.Clean → s.launchOf s.pid s.cx = some l →
    (flag (s.ctx.g a) 0 = false → (s.ctx.g d).toNat % 8 = 0 →
      (s.forkRefused l → exec (.fork sp d a b c) s = .next (s.afterG sp 4 d 0))
      ∧ (¬ s.forkRefused l → (l.det = true → l.parked (l.placed (2 * s.ctx.path + 1)) = false) → s.ownReqs s.ctx.act = false →
        (s.ctx.g d = 0 → exec (.fork sp d a b c) s = .next ((s.issued 4).forked sp d l (s.forkCore l)
          (s.armOf (s.ctx.g a) (s.ctx.g b) (s.ctx.g c) 0 l (s.forkCore l))))
        ∧ (∀ h k, s.ctx.g d ≠ 0 → s.Changes (s.ctx.g d) h k → exec (.fork sp d a b c) s = .next ((s.joinCounted (s.ctx.g d) h k).forked sp d l (s.forkCore l)
          (s.armOf (s.ctx.g a) (s.ctx.g b) (s.ctx.g c) (s.ctx.g d) l (s.forkCore l))))))
    ∧ (flag (s.ctx.g a) 0 = true → exec (.fork sp d a b c) s = .next (s.raised { eff := 0x001, arg := s.ctx.g a }))
    ∧ (flag (s.ctx.g a) 0 = false → (s.ctx.g d).toNat % 8 ≠ 0 → exec (.fork sp d a b c) s = .next (s.raised { eff := 0x003, addr := s.ctx.g d })) := by
  intro s sp d a b c l hc hl
  have h4 := hc.issued 4
  have hlast : s.forkCore l = if l.det = true then l.coreOf (l.placed (2 * s.ctx.path + 1)) else s.pid := rfl
  refine ⟨fun hp hj => ⟨fun hr => ?_, fun hr hpk ho => ⟨fun h0 => ?_, fun h k h0 hk => ?_⟩⟩, fun hp => ?_, fun hp hj => ?_⟩
  · have ej : ((s.ctx.g d).toNat % 8 != 0) = false := by rw [hj]; rfl
    apply issue_after
    rw [Act.bind_ok (Act.rdG_clean h4 d), Act.bind_ok (Act.rdG_clean h4 a), Act.bind_ok (Act.rdG_clean h4 b), Act.bind_ok (Act.rdG_clean h4 c)]
    simp only [State.issued_g]
    rw [hp, Act.bind_ok (Act.check_false _ _), ej, Act.bind_ok (Act.check_false _ _), Act.bind_ok (Act.launch_of ((launchOf_issued s 4).trans hl)), Act.bind_ok (Act.ctx_apply _)]
    rw [State.issued_path, ← hlast, Act.bind_ok (Act.get_apply _), byMessage_issued, if_pos ((fork_refused s l).2 hr), Act.wrG_clean h4]
  · have ej : ((s.ctx.g d).toNat % 8 != 0) = false := by rw [hj]; rfl
    have hr' := fun e => hr ((fork_refused s l).1 e)
    have epk : (l.det && l.parked (l.placed (2 * s.ctx.path + 1))) = false := by
      cases hx : l.det with
      | false => rfl
      | true => rw [hpk hx]; rfl
    show issue s sp 4 _ = _
    refine fork_tail (j := 0) (core := s.forkCore l) (l := l) (t := s.issued 4) h4 (by rfl) (by rfl) ?_
    rw [Act.bind_ok (Act.rdG_clean h4 d), Act.bind_ok (Act.rdG_clean h4 a), Act.bind_ok (Act.rdG_clean h4 b), Act.bind_ok (Act.rdG_clean h4 c)]
    simp only [State.issued_g]
    rw [hp, Act.bind_ok (Act.check_false _ _), ej, Act.bind_ok (Act.check_false _ _), Act.bind_ok (Act.launch_of ((launchOf_issued s 4).trans hl)), Act.bind_ok (Act.ctx_apply _)]
    rw [State.issued_path, ← hlast, Act.bind_ok (Act.get_apply _), byMessage_issued, if_neg hr', epk, Act.bind_ok (Act.waitIf_false _ _)]
    rw [if_pos h0, Act.bind_ok (Act.drain_of ((ownReqs_issued s 4).trans ho)), queueOf_issued, h0]
  · have ej : ((s.ctx.g d).toNat % 8 != 0) = false := by rw [hj]; rfl
    have hr' := fun e => hr ((fork_refused s l).1 e)
    have epk : (l.det && l.parked (l.placed (2 * s.ctx.path + 1))) = false := by
      cases hx : l.det with
      | false => rfl
      | true => rw [hpk hx]; rfl
    have hs := SameCtxs.writeOwn ((s.issued 4).translated (s.ctx.g d) k) (State.Placed.memory hk.at_) (bytesOf 8 (natOf (s.homeBytes h 8) + 1))
    show issue s sp 4 _ = _
    refine fork_tail (core := s.forkCore l) (l := l) (t := s.joinCounted (s.ctx.g d) h k) ?_ ?_ ?_ ?_
    · unfold State.joinCounted State.Clean; rw [hs.ctx]; exact h4.translated _ _
    · unfold State.joinCounted State.dieAt; rw [hs.dies]
      cases k with
      | none => rfl
      | some k => exact nextTask_fillTlb (s.issued 4) _ _ _ _ _
    · unfold State.joinCounted; rw [hs.time]; cases k <;> rfl
    rw [Act.bind_ok (Act.rdG_clean h4 d), Act.bind_ok (Act.rdG_clean h4 a), Act.bind_ok (Act.rdG_clean h4 b), Act.bind_ok (Act.rdG_clean h4 c)]
    simp only [State.issued_g]
    rw [hp, Act.bind_ok (Act.check_false _ _), ej, Act.bind_ok (Act.check_false _ _), Act.bind_ok (Act.launch_of ((launchOf_issued s 4).trans hl)), Act.bind_ok (Act.ctx_apply _)]
    rw [State.issued_path, ← hlast, Act.bind_ok (Act.get_apply _), byMessage_issued, if_neg hr', epk, Act.bind_ok (Act.waitIf_false _ _)]
    rw [if_neg h0, Act.bind_ok (increment_at hk ho _), queueOf_issued]
  · apply issue_raise hc
    rw [Act.bind_ok (Act.rdG_clean h4 d), Act.bind_ok (Act.rdG_clean h4 a), Act.bind_ok (Act.rdG_clean h4 b), Act.bind_ok (Act.rdG_clean h4 c)]
    simp only [State.issued_g]
    rw [hp, Act.bind_error (Act.check_true _ _)]; rfl
  · apply issue_raise hc
    have ej : ((s.ctx.g d).toNat % 8 != 0) = true := by simpa using hj
    rw [Act.bind_ok (Act.rdG_clean h4 d), Act.bind_ok (Act.rdG_clean h4 a), Act.bind_ok (Act.rdG_clean h4 b), Act.bind_ok (Act.rdG_clean h4 c)]
    simp only [State.issued_g]
    rw [hp, Act.bind_ok (Act.check_false _ _), ej, Act.bind_error (Act.check_true _ _)]; rfl

theorem State.Reads.base {s t : State} {ea : Word} {hs : List (Home × Option Leaf)} (h : s.Reads ea hs t) :
    t.mem = s.mem ∧ t.ctxs = s.ctxs ∧ t.pid = s.pid ∧ t.cx = s.cx ∧ t.sys = s.sys ∧ t.net = s.net ∧ t.launches = s.launches ∧ t.nextLaunch = s.nextLaunch ∧ t.ue = s.ue := by
  induction hs generalizing s ea with
  | nil => cases h; exact ⟨rfl, rfl, rfl, rfl, rfl, rfl, rfl, rfl, rfl⟩
  | cons e r ih =>
    obtain ⟨-, -, -, -, h⟩ := h
    obtain ⟨e, l⟩ := e
    have := ih h
    cases l <;> exact this

theorem readMem_at {s t : State} {ea : Word} {hs : List (Home × Option Leaf)} (h : s.Reads ea hs t) (here : Word) :
    Act.readMem here hs.length ea s = .ok (hs.map (fun h => s.wordAt h.1), t) := by
  induction hs generalizing s ea with
  | nil => cases h; rfl
  | cons e r ih =>
    obtain ⟨h, l⟩ := e
    obtain ⟨hp, hb, hk, hg, hr⟩ := h
    have ih := ih hr
    have hw : r.map (fun h => (s.translated ea l).wordAt h.1) = r.map (fun h => s.wordAt h.1) := by
      apply List.map_congr_left; intro x _
      unfold State.wordAt; rw [State.rdW_translated, State.translated_sys, State.translated_pid]
    rw [hw] at ih
    have hn := Act.readNow_memory (s := s.translated ea l) hb
      (by rw [State.readHeld_translated, State.translated_pid, State.translated_ctx]; exact hk)
      (by rw [State.bad_translated, State.translated_pid, State.translated_sys]; exact hg) ea false
    rw [List.length_cons, Act.readMem, Act.bind_ok (Act.place_at hp)]
    dsimp only
    rw [Act.bind_ok hn]
    dsimp only
    rw [Act.bind_ok (Act.check_false _ _), Act.bind_ok ih, State.translated_sys, State.translated_pid]
    have hv : W ((s.translated ea l).rdN (h.readKey s.sys.lead s.pid) 8) = s.wordAt h := by
      unfold State.wordAt; rw [← State.rdW_translated s ea l]; rfl
    rw [hv]; rfl

theorem counters_rules :
    ∀ (s : State) (sp : Bool) (d a b : Reg), s.Clean →
    (s.cx ≠ 4 → ∀ h l, s.Watchable (s.ctx.g a) h l →
      (s.wordAt h = 0 → exec (.joinw sp a) s = .next (((s.issued 4).translated (s.ctx.g a) l).switch true))
      ∧ (s.wordAt h ≠ 0 → exec (.joinw sp a) s = .next (s.parks (.watch (lineOf (h.readKey s.sys.lead s.pid))))))
    ∧ (s.cx = 4 → exec (.joinw sp a) s = .next (s.raised { eff := 0x001 }))
    ∧ (∀ h l, s.noAcquire → s.Placed .rmw (s.ctx.g a) 8 h l → s.homeDown h = false → s.homeBad h 8 = false → s.rmwFree h 8 true →
        exec (.cntinit sp a b) s = .next
          ((((s.issued 4).translated (s.ctx.g a) l).rmwSent h 8 (.store (bytesOf 8 (s.ctx.g b).toNat)) true false s.ctx.pc (s.ctx.g a)).switch sp))
    ∧ (∀ hs t, (s.ctx.g a).toNat % 64 = 0 → s.noAcquire → s.ownReqs s.ctx.act = false → hs.length = 16 → (s.issued 4).Reads (s.ctx.g a) hs t →
      (s.launches.filter (fun l => l.phase == 0 && l.src.queue.isNone && l.src.die == dieOf s.pid)).length < 16 →
      exec (.launch sp d a) s = .next (((t.submit (s.ctx.g a) (hs.map (fun h => s.wordAt h.1)) ⟨none, dieOf s.pid, !s.ctx.stat.sup, s.ctx.space.ptroot⟩).modCtx
        (fun c => c.setG d (W s.nextLaunch))).switch sp))
    ∧ ((s.ctx.g a).toNat % 64 ≠ 0 → exec (.launch sp d a) s = .next (s.raised { eff := 0x003, addr := s.ctx.g a })) := by
  intro s sp d a b hc
  have h4 := hc.issued 4
  refine ⟨fun hx h l hw => ⟨fun h0 => ?_, fun h0 => ?_⟩, fun hx => ?_, fun h l hg hp hdn hb hf => ?_, fun hs t ha hg ho hn hr hq => ?_, fun ha => ?_⟩
  · have hx' : ((s.issued 4).cx == 4) = false := by simpa using hx
    show issue s sp 4 _ = _
    apply issue_gives
    rw [Act.bind_ok (Act.inSH_apply _), hx', Act.bind_ok (Act.check_false _ _), Act.bind_ok (Act.rdG_clean h4 a), State.issued_g, Act.bind_ok (Act.watchRead_at (hw.issued 4))]
    dsimp only
    rw [Act.bind_ok (Act.check_false _ _)]
    rw [show (s.issued 4).wordAt h = 0 from h0, if_pos rfl]; rfl
  · have hx' : ((s.issued 4).cx == 4) = false := by simpa using hx
    apply issue_park
    rw [Act.bind_ok (Act.inSH_apply _), hx', Act.bind_ok (Act.check_false _ _), Act.bind_ok (Act.rdG_clean h4 a), State.issued_g, Act.bind_ok (Act.watchRead_at (hw.issued 4))]
    dsimp only
    rw [Act.bind_ok (Act.check_false _ _)]
    rw [if_neg (show ¬ (s.issued 4).wordAt h = 0 from h0)]; rfl
  · have hx' : ((s.issued 4).cx == 4) = true := by simpa using hx
    apply issue_raise hc
    rw [Act.bind_ok (Act.inSH_apply _), hx', Act.bind_error (Act.check_true _ _)]; rfl
  · apply issue_ok
    rw [Act.bind_ok (Act.rdG_clean h4 a), Act.bind_ok (Act.rdG_clean h4 b), Act.bind_ok (Act.gate_open (State.noAcquire_issued hg 4)), State.issued_g, State.issued_g,
      Act.bind_ok (Act.place_at (hp.issued 4))]
    dsimp only
    rw [Act.bind_ok (Act.get_apply _)]
    have e1 : ((s.issued 4).translated (s.ctx.g a) l).homeBad h 8 = false := by rw [← hb]; cases l <;> rfl
    have e0 : ((s.issued 4).translated (s.ctx.g a) l).homeDown h = false := by rw [← hdn]; cases l <;> rfl
    rw [Act.bind_ok (Act.get_apply _), e0, e1, Bool.false_or, Act.bind_ok (Act.check_false _ _)]
    exact Act.rmw_free (State.rmwFree_translated (State.rmwFree_issued hf 4) _ _) _ _ _ _
  · have e1 : ((s.ctx.g a).toNat % 64 != 0) = false := by rw [ha]; rfl
    obtain ⟨b1, b2, b3, b4, b5, b6, b7, b8, -⟩ := hr.base
    have hctx : t.ctx = (s.issued 4).ctx := by unfold State.ctx State.ctxAt; rw [b2, b3, b4]
    have hfull : t.launchQueueFull (dieOf t.pid) = false := by
      unfold State.launchQueueFull; rw [b7, b3]; exact decide_eq_false (by rw [Nat.not_le]; exact hq)
    apply issue_ok
    rw [Act.bind_ok (Act.rdG_clean h4 a), Act.bind_ok (Act.interlock_clean h4 _), State.issued_g, e1, Act.bind_ok (Act.check_false _ _),
      Act.bind_ok (Act.gate_open (State.noAcquire_issued hg 4)), Act.bind_ok (Act.drain_of ((ownReqs_issued s 4).trans ho))]
    have hm := readMem_at hr s.here
    rw [hn] at hm
    rw [Act.bind_ok hm, Act.bind_ok (Act.get_apply _), hfull, Act.bind_ok (Act.waitIf_false _ _), Act.bind_ok (Act.upd_apply _ _), Act.wrG_clean]
    · rw [b3, b8, hctx, State.issued_stat, State.issued_space]; rfl
    · have : (t.submit (s.ctx.g a) (hs.map (fun h => (s.issued 4).wordAt h.1)) ⟨none, dieOf t.pid, !t.ctx.stat.sup, t.ctx.space.ptroot⟩).ctx = t.ctx := rfl
      unfold State.Clean; rw [this, hctx]; exact h4
  · have e1 : ((s.ctx.g a).toNat % 64 != 0) = true := by simpa using ha
    apply issue_raise hc
    rw [Act.bind_ok (Act.rdG_clean h4 a), Act.bind_ok (Act.interlock_clean h4 _), State.issued_g, e1, Act.bind_error (Act.check_true _ _)]; rfl

end Sys2Proof.Machine
end

