-- ==== Sys2Proof/Laws/Groups.lean ====
section
/-! SUPPORT. Barriers: GJOIN, GLEAVE, BARINIT, BARA, BARW and BARAW. -/

set_option Elab.async false

namespace Sys2Proof.Machine

theorem handle_at {s : State} (hc : s.Clean) {a : Reg} (h : s.handleOk (s.ctx.g a)) :
    Act.handle a (s.issued 4) = .ok ((fld (s.ctx.g a) 43 32, fld (s.ctx.g a) 4 0), s.issued 4) := by
  have e : (fld (s.ctx.g a) 63 44 != 0 || fld (s.ctx.g a) 31 5 != 0 || (s.issued 4).lidBad (fld (s.ctx.g a) 43 32)) = false := by
    rw [State.lidBad_issued, h.1, h.2.1, h.2.2]; rfl
  unfold Act.handle
  rw [Act.bind_ok (Act.rdG_clean (hc.issued 4) a), Act.bind_ok (Act.get_apply _), State.issued_g, e, Act.bind_ok (Act.check_false _ _)]; rfl

theorem handle_bad {s : State} (hc : s.Clean) {a : Reg} (h : ¬ s.handleOk (s.ctx.g a)) :
    Act.handle a (s.issued 4) = .error (.raise (illegal (s.ctx.g a))) := by
  have e : (fld (s.ctx.g a) 63 44 != 0 || fld (s.ctx.g a) 31 5 != 0 || (s.issued 4).lidBad (fld (s.ctx.g a) 43 32)) = true := by
    rw [State.lidBad_issued]
    apply eq_true_of_not
    intro e
    apply h
    simpa [State.handleOk, and_assoc] using e
  unfold Act.handle
  rw [Act.bind_ok (Act.rdG_clean (hc.issued 4) a), Act.bind_ok (Act.get_apply _), State.issued_g, e, Act.bind_error (Act.check_true _ _)]

theorem resolve_sent (s : State) (lid : Nat) (b : Body) (l k : Nat) : ((s.issued 4).sent lid b).resolve l k = s.resolve l k := rfl

theorem barrier_wait {s : State} {sp : Bool} {a b : Reg} {i : Instr} {v : Bool} (hc : s.Clean) (h : s.handleOk (s.ctx.g a)) (hx : s.cx ≠ 4)
    (hi : exec i s = barrierWait sp a b v s) :
    s.Sends i sp (fld (s.ctx.g a) 43 32) (.bar (fld (s.ctx.g a) 4 0) (.wait (flag (s.ctx.g b) 0) (v && !s.ctx.asBarw)))
      (fun t => s.awaiting (t.modCtx (fun c => { c with asBarw := false })) true .barrier) := by
  have h4 := hc.issued 4
  have hx' : ((s.issued 4).cx == 4) = false := by simpa using hx
  refine State.sends_then hi (k := fun t => Act.await s.here true .barrier (t.modCtx (fun c => { c with asBarw := false }))) ?_ (fun t _ => rfl)
  rw [Act.bind_ok (Act.inSH_apply _), hx', Act.bind_ok (Act.check_false _ _), Act.bind_ok (handle_at hc h)]
  dsimp only
  rw [Act.bind_ok (Act.rdG_clean h4 b), Act.bind_ok (Act.ctx_apply _), Act.bind_ok (Act.updCtx_apply _ _), State.issued_asBarw, State.issued_g]
  rw [Act.bind_apply, Act.bind_apply, Act.send_apply]
  have : Act.send (fld (s.ctx.g a) 43 32) (.bar (fld (s.ctx.g a) 4 0) (.wait (flag (s.ctx.g b) 0) (v && !s.ctx.asBarw))) ((s.issued 4).modCtx (fun c => { c with asBarw := false }))
      = if (s.resolve s.ctx.ident.launch.toNat (fld (s.ctx.g a) 43 32)).2 then
      (if 32 ≤ (s.net.held.filter (fun h => h.pkt.src == s.pid)).length then .error (.wait .room)
        else .ok ((), ((s.issued 4).kept (fld (s.ctx.g a) 43 32) (.bar (fld (s.ctx.g a) 4 0) (.wait (flag (s.ctx.g b) 0) (v && !s.ctx.asBarw)))).modCtx (fun c => { c with asBarw := false })))
      else .ok ((), ((s.issued 4).sent (fld (s.ctx.g a) 43 32) (.bar (fld (s.ctx.g a) 4 0) (.wait (flag (s.ctx.g b) 0) (v && !s.ctx.asBarw)))).modCtx (fun c => { c with asBarw := false })) := by
    have hctx : ((s.issued 4).modCtx (fun c => { c with asBarw := false })).ctx = { (s.issued 4).ctx with asBarw := false } := State.ctx_modCtx _ _
    have e1 : ((s.issued 4).modCtx (fun c => { c with asBarw := false })).ctx.ident = s.ctx.ident := by rw [hctx]; simp
    have e2 : ((s.issued 4).modCtx (fun c => { c with asBarw := false })).ctx.act = s.ctx.act := by rw [hctx]; simp
    unfold Act.send State.kept State.sent
    rw [Act.bind_ok (Act.get_apply _), e1]
    have hr : ((s.issued 4).modCtx (fun c => { c with asBarw := false })).resolve s.ctx.ident.launch.toNat (fld (s.ctx.g a) 43 32) = s.resolve s.ctx.ident.launch.toNat (fld (s.ctx.g a) 43 32) := rfl
    rw [hr]
    have hi4 : (s.issued 4).ctx.ident = s.ctx.ident := by simp
    have ha4 : (s.issued 4).ctx.act = s.ctx.act := by simp
    by_cases hp : (s.resolve s.ctx.ident.launch.toNat (fld (s.ctx.g a) 43 32)).2 = true
    · simp only [hp, if_true]
      rw [Act.bind_apply, Act.waitIf_apply]
      by_cases h2 : 32 ≤ (s.net.held.filter (fun h => h.pkt.src == s.pid)).length
      · have h2' : decide (32 ≤ (((s.issued 4).modCtx (fun c => { c with asBarw := false })).net.held.filter (fun h => h.pkt.src == ((s.issued 4).modCtx (fun c => { c with asBarw := false })).pid)).length) = true := decide_eq_true h2
        rw [if_pos h2', if_pos h2]
      · have h2' : ¬ decide (32 ≤ (((s.issued 4).modCtx (fun c => { c with asBarw := false })).net.held.filter (fun h => h.pkt.src == ((s.issued 4).modCtx (fun c => { c with asBarw := false })).pid)).length) = true := fun e => h2 (of_decide_eq_true e)
        rw [if_neg h2', if_neg h2]
        dsimp only
        rw [Act.upd_apply]
        unfold State.packet
        rw [e2, hi4, ha4]; rfl
    · simp only [hp, Bool.false_eq_true, if_false]
      rw [Act.upd_apply]
      unfold State.packet
      rw [e2, hi4, ha4]; rfl
  rw [this]
  by_cases hp : (s.resolve s.ctx.ident.launch.toNat (fld (s.ctx.g a) 43 32)).2 = true
  · simp only [hp, if_true]
    by_cases h2 : 32 ≤ (s.net.held.filter (fun h => h.pkt.src == s.pid)).length
    · rw [if_pos h2, if_pos h2]
    · rw [if_neg h2, if_neg h2]
  · simp only [hp, Bool.false_eq_true, if_false]

theorem bar_refused {s : State} (sp : Bool) (d a b : Reg) (hc : s.Clean) (h : ¬ s.handleOk (s.ctx.g a)) :
    ∀ i ∈ [Instr.gjoin sp d a, .gleave sp a, .bari sp a b, .bara sp a], exec i s = .next (s.raised { eff := 0x001, arg := s.ctx.g a }) := by
  simp only [List.forall_mem_cons]
  refine ⟨?_, ?_, ?_, ?_, fun _ h => nomatch h⟩
  · exact raise_of hc (i := .gjoin sp d a) rfl (Act.bind_error (handle_bad hc h))
  · exact raise_of hc (i := .gleave sp a) rfl (Act.bind_error (handle_bad hc h))
  · exact raise_of hc (i := .bari sp a b) rfl (Act.bind_error (handle_bad hc h))
  · exact raise_of hc (i := .bara sp a) rfl (Act.bind_error (handle_bad hc h))

theorem barriers_rules :
    ∀ (s : State) (sp : Bool) (d a b : Reg), s.Clean →
    (s.handleOk (s.ctx.g a) → ∀ lid slot, lid = fld (s.ctx.g a) 43 32 → slot = fld (s.ctx.g a) 4 0 →
      s.Sends (.gjoin sp d a) sp lid (.bar slot (.join d)) (fun t => s.awaiting t sp .reply)
      ∧ s.Sends (.gleave sp a) sp lid (.bar slot .leave) (fun t =>
          (t.modCtx (fun c => { c with groups := c.groups.erase ((s.resolve s.ctx.ident.launch.toNat lid).1, slot) })).switch sp)
      ∧ ((s.ctx.g b).toNat < 65536 → s.Sends (.bari sp a b) sp lid (.bar slot (.init (s.ctx.g b).toNat)) (fun t => t.switch sp))
      ∧ s.Sends (.bara sp a) sp lid (.bar slot .arrive) (fun t => t.switch sp)
      ∧ (s.cx ≠ 4 →
        s.Sends (.barw sp a b) sp lid (.bar slot (.wait (flag (s.ctx.g b) 0) false)) (fun t => s.awaiting (t.modCtx (fun c => { c with asBarw := false })) true .barrier)
        ∧ s.Sends (.baraw sp a b) sp lid (.bar slot (.wait (flag (s.ctx.g b) 0) (!s.ctx.asBarw)))
            (fun t => s.awaiting (t.modCtx (fun c => { c with asBarw := false })) true .barrier)))
    ∧ (¬ s.handleOk (s.ctx.g a) → ∀ i ∈ [Instr.gjoin sp d a, .gleave sp a, .bari sp a b, .bara sp a], exec i s = .next (s.raised { eff := 0x001, arg := s.ctx.g a }))
    ∧ (s.handleOk (s.ctx.g a) → 65536 ≤ (s.ctx.g b).toNat → exec (.bari sp a b) s = .next (s.raised { eff := 0x001, arg := s.ctx.g b }))
    ∧ (s.cx = 4 → ∀ i ∈ [Instr.barw sp a b, .baraw sp a b], exec i s = .next (s.raised { eff := 0x001 })) := by
  intro s sp d a b hc
  have h4 := hc.issued 4
  refine ⟨fun h lid slot el es => ⟨?_, ?_, fun hb => ?_, ?_, fun hx => ⟨?_, ?_⟩⟩, fun h => ?_, fun h hb => ?_, fun hx => ?_⟩
  · subst el es
    refine State.sends_then rfl (k := Act.await s.here sp .reply) ?_ (fun t _ => rfl)
    rw [Act.bind_ok (handle_at hc h)]
    dsimp only
    rw [Act.bind_ok (Act.interlock_clean h4 _)]
  · subst el es
    refine State.sends_then rfl (k := do
      let t ← get
      let home := (t.resolve t.ctx.ident.launch.toNat (fld (s.ctx.g a) 43 32)).1
      Act.updCtx (fun c => { c with groups := c.groups.erase (home, fld (s.ctx.g a) 4 0) })) ?_ (fun t ht => ?_)
    · rw [Act.bind_ok (handle_at hc h)]
    · have hi4 : (s.issued 4).ctx.ident = s.ctx.ident := by simp
      have e1 : t.ctx.ident = s.ctx.ident := by rcases ht with rfl | rfl <;> exact hi4
      have e2 : ∀ l k, t.resolve l k = s.resolve l k := by intro l k; rcases ht with rfl | rfl <;> rfl
      rw [Act.bind_ok (Act.get_apply _), e1, e2]; rfl
  · subst el es
    apply State.sends_of rfl
    rw [Act.bind_ok (handle_at hc h)]
    dsimp only
    have hb' : (fld (s.ctx.g b) 63 16 != 0) = false := by rw [fld_hi (by omega)]; rfl
    rw [Act.bind_ok (Act.rdG_clean h4 b), State.issued_g, hb', Act.bind_ok (Act.check_false _ _)]
  · subst el es
    apply State.sends_of rfl
    rw [Act.bind_ok (handle_at hc h)]
  · subst el es; exact barrier_wait (v := false) (i := .barw sp a b) hc h hx rfl
  · subst el es; exact barrier_wait (v := true) (i := .baraw sp a b) hc h hx rfl
  · intro i hi
    simp only [List.mem_cons, List.not_mem_nil, or_false] at hi
    rcases hi with rfl | rfl | rfl | rfl <;>
    · apply issue_raise hc
      rw [Act.bind_error (handle_bad hc h)]; rfl
  · apply issue_raise hc
    have hb' : (fld (s.ctx.g b) 63 16 != 0) = true := by simpa using fld_hi_ne (x := s.ctx.g b) (n := 16) hb (by decide)
    rw [Act.bind_ok (handle_at hc h)]
    dsimp only
    rw [Act.bind_ok (Act.rdG_clean h4 b), State.issued_g, hb', Act.bind_error (Act.check_true _ _)]; rfl
  · have hx' : ((s.issued 4).cx == 4) = true := by simpa using hx
    intro i hi
    simp only [List.mem_cons, List.not_mem_nil, or_false] at hi
    rcases hi with rfl | rfl <;>
    · apply issue_raise hc
      rw [Act.bind_ok (Act.inSH_apply _), hx', Act.bind_error (Act.check_true _ _)]; rfl

end Sys2Proof.Machine
end

