-- ==== Sys2Proof/Laws/AtomicResults.lean ====
section
/-! SUPPORT. AMOs, CAS, LDA, STL and FENCE. -/

set_option Elab.async false

namespace Sys2Proof.Machine

theorem amo_ok {s : State} {sp : Bool} {r : Order} {d a b : Reg} {op n : Nat} {h : Home} {l : Option Leaf} (hc : s.Clean) (hg : s.noAcquire)
    (hn : n = if op = 9 then 4 else 8) (hp : s.Placed .rmw (s.ctx.g a) n h l) (hf : s.rmwFree h n (orderReleases r)) (hv : 9 ≤ op → fld s.ctx.num.vt 6 4 ≤ 4) :
    amoOp s sp r d a b op = .next (s.afterRmw sp d (s.ctx.g a) n (.amo op (s.ctx.g b) (fld s.ctx.num.vt 6 4) (fld s.ctx.num.flagen 6 0) d) r h l) := by
  have h4 := hc.issued 4
  have e1 : (decide (9 ≤ op) && decide (5 ≤ fld s.ctx.num.vt 6 4)) = false := by
    by_cases h9 : 9 ≤ op
    · have := hv h9; rw [Bool.and_eq_false_iff]; right; exact decide_eq_false (by omega)
    · rw [Bool.and_eq_false_iff]; left; exact decide_eq_false h9
  apply issue_ok
  rw [Act.bind_ok (Act.gate_open (State.noAcquire_issued hg 4)), Act.bind_ok (Act.rdG_clean h4 a), Act.bind_ok (Act.rdG_clean h4 b), Act.bind_ok (Act.interlock_clean h4 _),
    Act.bind_ok (Act.ctx_apply _), State.issued_num, e1, Act.bind_ok (Act.check_false _ _), State.issued_g, State.issued_g, ← hn, Act.bind_ok (Act.place_at (hp.issued 4))]
  dsimp only
  rw [Act.bind_ok (Act.pendDest_clean (h4.translated _ _) _)]
  exact Act.rmw_free (State.rmwFree_modCtx (State.rmwFree_translated (State.rmwFree_issued hf 4) _ _) _ (by rfl)) _ _ _ _

theorem locate_refused {s : State} {pid : Nat} {pt : Word} {sup : Bool} {acc : Acc} {ea : Word} {n : Nat} {x : Raise}
    (h : s.locate pid pt sup acc ea n true true = .error x) : { x with stk := false } = x ∧ Eff.system x.eff = true := by
  have hw : ∀ (n lv t : Nat) (va : Nat) (y : Raise), s.walkFrom va n lv t = .error y → y.stk = false ∧ Eff.system y.eff = true := by
    intro n
    induction n with
    | zero => intro lv t va y h; cases h; exact ⟨rfl, rfl⟩
    | succ n ih =>
      intro lv t va y h
      unfold State.walkFrom at h
      simp only [] at h
      split at h
      · cases h; exact ⟨rfl, rfl⟩
      · split at h
        · cases h; exact ⟨rfl, rfl⟩
        · split at h
          · cases h
          · exact ih _ _ _ _ h
  have hs : x.stk = false ∧ Eff.system x.eff = true := by
    unfold State.locate at h
    simp only [] at h
    split at h
    · cases h; exact ⟨rfl, rfl⟩
    · split at h
      · cases h; exact ⟨rfl, rfl⟩
      · split at h
        · split at h <;> cases h; exact ⟨rfl, rfl⟩
        · split at h <;> cases h; exact ⟨rfl, rfl⟩
        · cases h; exact ⟨rfl, rfl⟩
        · split at h
          · rename_i r hl
            cases h
            unfold State.leafFor at hl
            simp only [] at hl
            split at hl
            · cases hl
            · split at hl
              · cases hl
              · exact hw _ _ _ _ _ hl
          · split at h
            · cases h; exact ⟨rfl, rfl⟩
            · split at h
              · rename_i r hl
                cases h
                unfold State.homeOf at hl
                simp only [] at hl
                repeat' (first | (split at hl) | (cases hl <;> exact ⟨rfl, rfl⟩))
              · cases h
  refine ⟨?_, hs.2⟩
  have h2 := hs.1
  cases x; simp only at h2; subst h2; rfl

theorem amo_refused {s : State} {sp : Bool} {r : Order} {d a b : Reg} {op n : Nat} {x : Raise} (hc : s.Clean) (hg : s.noAcquire)
    (hn : n = if op = 9 then 4 else 8) (hp : s.locate s.pid s.ctx.space.ptroot s.ctx.stat.sup .rmw (s.ctx.g a) n true true = .error x)
    (hv : 9 ≤ op → fld s.ctx.num.vt 6 4 ≤ 4) : amoOp s sp r d a b op = .next (s.raised x) := by
  obtain ⟨hx, hsys⟩ := locate_refused hp
  have h4 := hc.issued 4
  have e1 : (decide (9 ≤ op) && decide (5 ≤ fld s.ctx.num.vt 6 4)) = false := by
    by_cases h9 : 9 ≤ op
    · have := hv h9; rw [Bool.and_eq_false_iff]; right; exact decide_eq_false (by omega)
    · rw [Bool.and_eq_false_iff]; left; exact decide_eq_false h9
  have hpl : Act.place .rmw false (s.ctx.g a) n true true (s.issued 4) = .error (.raise { x with stk := false }) := by
    unfold Act.place
    simp only [Bool.false_and, Bool.false_eq_true, if_false]
    rw [State.issued_space, State.issued_stat]
    rw [show (s.issued 4).locate (s.issued 4).pid s.ctx.space.ptroot s.ctx.stat.sup .rmw (s.ctx.g a) n true true = .error x from hp]
  refine issue_raise hc ?_ hsys
  rw [Act.bind_ok (Act.gate_open (State.noAcquire_issued hg 4)), Act.bind_ok (Act.rdG_clean h4 a), Act.bind_ok (Act.rdG_clean h4 b), Act.bind_ok (Act.interlock_clean h4 _),
    Act.bind_ok (Act.ctx_apply _), State.issued_num, e1, Act.bind_ok (Act.check_false _ _), State.issued_g, ← hn, Act.bind_error hpl, hx]

theorem amo_mode {s : State} {sp : Bool} {r : Order} {d a b : Reg} {op : Nat} (hc : s.Clean) (hg : s.noAcquire) (ho : 9 ≤ op) (hv : 5 ≤ fld s.ctx.num.vt 6 4) :
    amoOp s sp r d a b op = .next (s.raised { eff := 0x001, arg := s.ctx.num.vt }) := by
  have h4 := hc.issued 4
  have e1 : (decide (9 ≤ op) && decide (5 ≤ fld s.ctx.num.vt 6 4)) = true := by simp [ho, hv]
  apply issue_raise hc
  rw [Act.bind_ok (Act.gate_open (State.noAcquire_issued hg 4)), Act.bind_ok (Act.rdG_clean h4 a), Act.bind_ok (Act.rdG_clean h4 b), Act.bind_ok (Act.interlock_clean h4 _),
    Act.bind_ok (Act.ctx_apply _), State.issued_num, e1, Act.bind_error (Act.check_true _ _)]; rfl

theorem atomics_rules :
    ∀ (s : State) (sp : Bool) (k : Scope) (r : Order) (d a b : Reg), s.Clean → s.noAcquire →
    (∀ e ∈ amoRows sp k r d a b, ∀ h l, s.Placed .rmw (s.ctx.g a) e.2.2 h l → s.rmwFree h e.2.2 (orderReleases r) → (9 ≤ e.2.1 → fld s.ctx.num.vt 6 4 ≤ 4) →
      exec e.1 s = .next (s.afterRmw sp d (s.ctx.g a) e.2.2 (.amo e.2.1 (s.ctx.g b) (fld s.ctx.num.vt 6 4) (fld s.ctx.num.flagen 6 0) d) r h l))
    ∧ (∀ h l, s.Placed .rmw (s.ctx.g a) 8 h l → s.rmwFree h 8 (orderReleases r) →
      exec (.cas sp k r d a b) s = .next (s.afterRmw sp d (s.ctx.g a) 8 (.cas (s.ctx.g d) (s.ctx.g b) d) r h l))
    ∧ (5 ≤ fld s.ctx.num.vt 6 4 → ∀ i ∈ [Instr.amoFadd32 sp k r d a b, .amoFadd64 sp k r d a b],
      exec i s = .next (s.raised { eff := 0x001, arg := s.ctx.num.vt }))
    ∧ (∀ e ∈ amoRows sp k r d a b, ∀ x, (9 ≤ e.2.1 → fld s.ctx.num.vt 6 4 ≤ 4) →
      s.locate s.pid s.ctx.space.ptroot s.ctx.stat.sup .rmw (s.ctx.g a) e.2.2 true true = .error x → exec e.1 s = .next (s.raised x)) := by
  intro s sp k r d a b hc hg
  refine ⟨?_, fun h l hp hf => ?_, fun hv => ?_, ?_⟩
  · simp only [amoRows, List.forall_mem_cons]
    refine ⟨?_, ?_, ?_, ?_, ?_, ?_, ?_, ?_, ?_, ?_, ?_, fun _ h => nomatch h⟩ <;> exact fun h l hp hf hv => amo_ok hc hg rfl hp hf hv
  · have h4 := hc.issued 4
    apply issue_ok
    rw [Act.bind_ok (Act.gate_open (State.noAcquire_issued hg 4)), Act.bind_ok (Act.rdG_clean h4 d), Act.bind_ok (Act.rdG_clean h4 a), Act.bind_ok (Act.rdG_clean h4 b),
      State.issued_g, State.issued_g, State.issued_g, Act.bind_ok (Act.place_at (hp.issued 4))]
    dsimp only
    rw [Act.bind_ok (Act.pendDest_clean (h4.translated _ _) _)]
    exact Act.rmw_free (State.rmwFree_modCtx (State.rmwFree_translated (State.rmwFree_issued hf 4) _ _) _ (by rfl)) _ _ _ _
  · simp only [List.forall_mem_cons]
    exact ⟨amo_mode hc hg (by decide) hv, amo_mode hc hg (by decide) hv, fun _ h => nomatch h⟩
  · simp only [amoRows, List.forall_mem_cons]
    refine ⟨?_, ?_, ?_, ?_, ?_, ?_, ?_, ?_, ?_, ?_, ?_, fun _ h => nomatch h⟩ <;>
      exact fun x hv hp => amo_refused hc hg rfl hp hv

theorem post_relabel (u : State) (pieces : List Piece) (op : MemOp) (here ea : Word) (b : Bool) :
    (u.post pieces op false true here ea).modNet (fun m => { m with reqs := updAt (fun q => { q with fresh := b }) m.reqs u.net.reqs.length })
      = u.modNet (fun m => { m with
          nextReq := m.nextReq + 1
          reqs := m.reqs ++ [{ no := m.nextReq, pid := u.pid, cx := u.cx, act := u.ctx.act, pieces := pieces, op := op, rel := false
                               acq := true, fresh := b, iaddr := here, ea := ea, sib := u.sibOf u.ctx }] }) := by
  unfold State.post State.modNet
  dsimp only
  rw [updAt_append]

theorem ordered_rules :
    ∀ (s : State) (sp : Bool) (k : Scope) (r : Order) (z : Size) (d a : Reg), s.Clean →
    ((r = .sc → s.ownReqs s.ctx.act = false) →
      (s.Local (a == 31) (s.ctx.g a) z.bytes →
        exec (.lda sp k r z d a) s = .next (s.afterG sp 4 d (W (s.rdN (spadKey s.pid (s.ctx.g a).toNat) z.bytes))))
      ∧ (∀ h l, s.Far .read (a == 31) (s.ctx.g a) z.bytes h l → exec (.lda sp k r z d a) s = .next (s.afterLda sp d (s.ctx.g a) z.bytes k h l)))
    ∧ (s.Local (a == 31) (s.ctx.g a) z.bytes → s.ownReqs s.ctx.act = false →
        exec (.stl sp k r z d a) s = .next (s.afterStore sp 4 (s.ctx.g a).toNat (bytesOf z.bytes (s.ctx.g d).toNat)))
    ∧ (∀ h l, s.Far .write (a == 31) (s.ctx.g a) z.bytes h l → s.homeBad h z.bytes = false →
        exec (.stl sp k r z d a) s = .next (s.afterSend sp 4 (s.ctx.g a) (bytesOf z.bytes (s.ctx.g d).toNat) true h l))
    ∧ (s.ownReqs s.ctx.act = false → exec (.fence sp k r) s = .next ((s.issued 4).switch sp))
    ∧ (s.ownReqs s.ctx.act = true → exec (.fence sp k r) s = .next ((s.block .drain sp).switch sp)) := by
  intro s sp k r z d a hc
  have h4 := hc.issued 4
  have hsc : (r = .sc → s.ownReqs s.ctx.act = false) → ∀ (m : Act Unit), ((if r = .sc then do
      let __r ← Act.drain
      m else m : Act Unit) (s.issued 4)) = m (s.issued 4) := by
    intro hd m
    split
    · rename_i h; rw [Act.bind_ok (Act.drain_of ((ownReqs_issued s 4).trans (hd h)))]
    · rfl
  refine ⟨fun hd => ⟨fun hl => ?_, fun h l hl => ?_⟩, fun hl ho => ?_, fun h l hl hb => ?_, fun ho => ?_, fun ho => ?_⟩
  · apply issue_after
    rw [Act.bind_ok (Act.rdG_clean h4 a), hsc hd, Act.bind_ok (Act.get_apply _), State.issued_g, Act.bind_ok (Act.load_local_ord h4 (hl.issued 4) _ _ _ _), Act.upd_apply]
    have : ∀ (u : State), u.net.reqs.length = (s.issued 4).net.reqs.length →
      u.modNet (fun m => { m with reqs := updAt (fun q => { q with fresh := k == .sys }) m.reqs (s.issued 4).net.reqs.length }) = u := by
      intro u hu; rw [← hu]; unfold State.modNet; dsimp only; rw [updAt_end]
    rw [this ((s.issued 4).modCtx _) rfl]
    rfl
  · apply issue_ok
    rw [Act.bind_ok (Act.rdG_clean h4 a), hsc hd, Act.bind_ok (Act.get_apply _), State.issued_g, Act.bind_ok (Act.load_far h4 (hl.issued 4) _ _ _ _), Act.upd_apply]
    have e1 : (s.issued 4).net.reqs.length = (((s.issued 4).translated (s.ctx.g a) l).modCtx (fun c => { c with regs := c.regs.setPresent false (.g d) })).net.reqs.length := by
      rw [State.modCtx_net, State.translated_net]
    have e2 : ((s.issued 4).translated (s.ctx.g a) l).cx = s.cx := by cases l <;> rfl
    have e0 : ∀ (u : State) (c : Ctx), u.launches = s.launches → c.started = s.ctx.started → u.sibOf c = s.sibOf s.ctx := by
      intro u c h1 h2; unfold State.sibOf State.launch?; rw [h1, h2]
    have e3 : (((s.issued 4).translated (s.ctx.g a) l).modCtx (fun c => { c with regs := c.regs.setPresent false (.g d) })).sibOf
      (((s.issued 4).translated (s.ctx.g a) l).modCtx (fun c => { c with regs := c.regs.setPresent false (.g d) })).ctx = s.sibOf s.ctx := by
      apply e0
      · cases l <;> rfl
      · rw [State.ctx_modCtx, State.translated_ctx]; simp
    have e4 : (((s.issued 4).translated (s.ctx.g a) l).modCtx (fun c => { c with regs := c.regs.setPresent false (.g d) })).ctx.act = s.ctx.act := by
      rw [State.ctx_modCtx, State.translated_ctx]; simp
    rw [e1, post_relabel, e3, e4, State.modCtx_pid, State.modCtx_cx, State.translated_pid, e2]
    rfl
  · apply issue_ok
    rw [Act.bind_ok (Act.rdG_clean h4 a), Act.bind_ok (Act.rdG_clean h4 d), State.issued_g, State.issued_g, Act.store_local_rel (hl.issued 4) ((ownReqs_issued s 4).trans ho)]
    rfl
  · apply issue_ok
    rw [Act.bind_ok (Act.rdG_clean h4 a), Act.bind_ok (Act.rdG_clean h4 d), State.issued_g, State.issued_g, Act.store_far (hl.issued 4) hb]
    simp only [length_bytesOf]
    rfl
  · apply issue_ok (t := s.issued 4)
    rw [Act.drain_of ((ownReqs_issued s 4).trans ho)]
  · apply issue_wait
    unfold Act.drain
    rw [ownReqs_issued, ho]; rfl

end Sys2Proof.Machine
end

