-- ==== Sys2Proof/Laws/Tiles.lean ====
section
/-! SUPPORT. TDEF, TSET, TREL and TWAIT. -/

set_option Elab.async false

namespace Sys2Proof.Machine

theorem tileImage_iff (w : List Word) : (!tileOk w || (Tile.ofWords w).state % 2 == 1) = false ↔ TileImage w := by
  have h4 : (Tile.ofWords w).state < 4 := by
    show fld (w.getD 1 0) 55 54 < 4
    simp only [fld, bitsOf]; exact Nat.mod_lt _ (by decide)
  have hs : ((Tile.ofWords w).state % 2 == 1) = false ↔ ((Tile.ofWords w).state = 0 ∨ (Tile.ofWords w).state = 2) := by
    rw [beq_eq_false_iff_ne]; omega
  rw [Bool.or_eq_false_iff, hs, Bool.not_eq_false']
  constructor
  · rintro ⟨h, hst⟩
    simp only [tileOk, Bool.and_eq_true, beq_iff_eq, decide_eq_true_eq, Config.spadBytes] at h
    obtain ⟨⟨⟨⟨⟨⟨⟨⟨⟨⟨⟨⟨⟨h1, h2⟩, h3⟩, h4⟩, h5⟩, h6⟩, h7⟩, h8⟩, h9⟩, h10⟩, h11⟩, h12⟩, h13⟩, h14⟩ := h
    exact ⟨⟨h1, h2, h3⟩, ⟨h4, h5⟩, ⟨h6, h7⟩, h8, h9, ⟨h10, h11, h12⟩, h13, of_decide_eq_true h14, hst⟩
  · rintro ⟨⟨h1, h2, h3⟩, ⟨h4, h5⟩, ⟨h6, h7⟩, h8, h9, ⟨h10, h11, h12⟩, h13, h14, hst⟩
    refine ⟨?_, hst⟩
    simp only [tileOk, Bool.and_eq_true, beq_iff_eq, decide_eq_true_eq, Config.spadBytes]
    exact ⟨⟨⟨⟨⟨⟨⟨⟨⟨⟨⟨⟨⟨h1, h2⟩, h3⟩, h4⟩, h5⟩, h6⟩, h7⟩, h8⟩, h9⟩, h10⟩, h11⟩, h12⟩, h13⟩, decide_eq_true h14⟩

theorem Act.waitIf_true (w : Wait) (s : State) : Act.waitIf true w s = .error (.wait w) := rfl

theorem settled_iff (t : Tile) : t.settled = true ↔ t.fch = 0 ∧ t.dcnt = 0 := by simp [Tile.settled]

theorem Act.tileFree_of {s : State} {n : Nat} (h : s.core.tileNamed n = false) : Act.tileFree n s = .ok (s.core.tile n, s) := by
  unfold Act.tileFree; rw [Act.bind_ok (Act.core_apply _), h, Act.bind_ok (Act.waitIf_false _ _)]; rfl

theorem Act.tileFree_named {s : State} {n : Nat} (h : s.core.tileNamed n = true) : Act.tileFree n s = .error (.wait (.tile n)) := by
  unfold Act.tileFree; rw [Act.bind_ok (Act.core_apply _), h, Act.bind_error (Act.waitIf_true _ _)]

theorem not_settled {t : Tile} (h : t.fch ≠ 0 ∨ t.dcnt ≠ 0) : t.settled = false := by
  rcases h with h | h <;> simp [Tile.settled, h]

theorem tiles_rules :
    ∀ (s : State) (sp : Bool) (d a : Reg), s.Clean →
    ((s.ctx.g a).toNat % 32 = 0 → (s.ctx.g a).toNat + 32 ≤ 0x180000 → s.spanFree (s.ctx.g a).toNat 32 →
      ∀ w, w = bytesWords 4 (s.rd (spadKey s.pid (s.ctx.g a).toNat) 32) →
        (TileImage w → s.core.tileNamed d.toNat = false → (s.core.tile d.toNat).fch = 0 → (s.core.tile d.toNat).dcnt = 0 →
          exec (.tdef sp d a) s = .next (((s.issued 4).modCore (fun k => k.setTile d.toNat (tileOf w))).switch sp))
        ∧ (¬ TileImage w → exec (.tdef sp d a) s = .next (s.raised { eff := 0x001, arg := s.ctx.g a }))
        ∧ (TileImage w → s.core.tileNamed d.toNat = true ∨ (s.core.tile d.toNat).fch ≠ 0 ∨ (s.core.tile d.toNat).dcnt ≠ 0 →
          exec (.tdef sp d a) s = .next ((s.block (.tile d.toNat) sp).switch sp)))
    ∧ ((s.ctx.g a).toNat % 32 ≠ 0 → exec (.tdef sp d a) s = .next (s.raised { eff := 0x003, addr := s.ctx.g a }))
    ∧ ((s.ctx.g a).toNat % 32 = 0 → 0x180000 < (s.ctx.g a).toNat + 32 → exec (.tdef sp d a) s = .next (s.raised { eff := 0x001, arg := s.ctx.g a }))
    ∧ (∀ t, t = s.core.tile d.toNat →
      (s.core.tileNamed d.toNat = false → (t.state = 0 ∨ t.state = 2 ∨ (t.fch = 0 ∧ t.dcnt = 0)) →
        exec (.tset sp d) s = .next (((s.issued 4).modCore (fun k => k.setTile d.toNat { t with state := 2, failed := false })).switch sp))
      ∧ (s.core.tileNamed d.toNat = false → t.fch = 0 → t.dcnt = 0 →
        exec (.trel sp d) s = .next (((s.issued 4).modCore (fun k => k.setTile d.toNat { t with state := 0, failed := false })).switch sp))
      ∧ (s.core.tileNamed d.toNat = true ∨ t.fch ≠ 0 ∨ t.dcnt ≠ 0 → exec (.trel sp d) s = .next ((s.block (.tile d.toNat) sp).switch sp))
      ∧ (s.core.tileNamed d.toNat = true ∨ (t.state = 1 ∨ t.state = 3) ∧ (t.fch ≠ 0 ∨ t.dcnt ≠ 0) →
        exec (.tset sp d) s = .next ((s.block (.tile d.toNat) sp).switch sp)))
    ∧ (∀ t, t = s.core.tile a.toNat →
      (t.state = 0 ∨ t.state = 2 → exec (.twait sp d a) s = .next (s.afterG sp 4 d (W t.state)))
      ∧ (t.state = 1 ∨ t.state = 3 → exec (.twait sp d a) s = .next ((s.block (.tile a.toNat) sp).switch sp))) := by
  intro s sp d a hc
  have h4 := hc.issued 4
  have hcore : (s.issued 4).core = s.core := rfl
  refine ⟨fun ha hi hf w hw => ?_, fun ha => ?_, fun ha hi => ?_, fun t ht => ⟨fun hn hs => ?_, fun hn h1 h2 => ?_, fun hn => ?_, fun hn => ?_⟩, fun t ht => ⟨fun hs => ?_, fun hs => ?_⟩⟩
  · have e1 : ((s.ctx.g a).toNat % 32 != 0) = false := by rw [ha]; rfl
    have e2 : decide (Config.spadBytes < (s.ctx.g a).toNat + 32) = false := decide_eq_false (by unfold Config.spadBytes; omega)
    have hw' : bytesWords 4 ((s.issued 4).rd (spadKey (s.issued 4).pid (s.ctx.g a).toNat) 32) = w := hw.symm
    refine ⟨fun ht hn h1 h2 => ?_, fun ht => ?_, fun ht hn => ?_⟩
    · have hset : (s.core.tile d.toNat).settled = true := (settled_iff _).2 ⟨h1, h2⟩
      apply issue_ok
      rw [Act.bind_ok (Act.rdG_clean h4 a), State.issued_g, e1, Act.bind_ok (Act.check_false _ _), e2, Act.bind_ok (Act.check_false _ _),
        Act.bind_ok (Act.readSpad_free (State.spanFree_issued hf 4) _), hw', (tileImage_iff w).2 ht, Act.bind_ok (Act.check_false _ _),
        Act.bind_ok (Act.tileFree_of (s := s.issued 4) hn), hcore, hset, Bool.not_true, Act.bind_ok (Act.waitIf_false _ _), Act.updCore_apply]
      rfl
    · have hb : (!tileOk w || (Tile.ofWords w).state % 2 == 1) = true := eq_true_of_not (fun e => ht ((tileImage_iff w).1 e))
      apply issue_raise hc
      rw [Act.bind_ok (Act.rdG_clean h4 a), State.issued_g, e1, Act.bind_ok (Act.check_false _ _), e2, Act.bind_ok (Act.check_false _ _),
        Act.bind_ok (Act.readSpad_free (State.spanFree_issued hf 4) _), hw', hb, Act.bind_error (Act.check_true _ _)]; rfl
    · apply issue_wait
      rw [Act.bind_ok (Act.rdG_clean h4 a), State.issued_g, e1, Act.bind_ok (Act.check_false _ _), e2, Act.bind_ok (Act.check_false _ _),
        Act.bind_ok (Act.readSpad_free (State.spanFree_issued hf 4) _), hw', (tileImage_iff w).2 ht, Act.bind_ok (Act.check_false _ _)]
      cases hnn : s.core.tileNamed d.toNat with
      | true => rw [Act.bind_error (Act.tileFree_named (s := s.issued 4) hnn)]
      | false =>
        have hset := not_settled (t := s.core.tile d.toNat) (hn.resolve_left (by rw [hnn]; decide))
        rw [Act.bind_ok (Act.tileFree_of (s := s.issued 4) hnn), hcore, hset, Bool.not_false, Act.bind_error (Act.waitIf_true _ _)]
  · have e1 : ((s.ctx.g a).toNat % 32 != 0) = true := by simpa using ha
    apply issue_raise hc
    rw [Act.bind_ok (Act.rdG_clean h4 a), State.issued_g, e1, Act.bind_error (Act.check_true _ _)]; rfl
  · have e1 : ((s.ctx.g a).toNat % 32 != 0) = false := by rw [ha]; rfl
    have e2 : decide (Config.spadBytes < (s.ctx.g a).toNat + 32) = true := decide_eq_true (by unfold Config.spadBytes; omega)
    apply issue_raise hc
    rw [Act.bind_ok (Act.rdG_clean h4 a), State.issued_g, e1, Act.bind_ok (Act.check_false _ _), e2, Act.bind_error (Act.check_true _ _)]; rfl
  · subst ht
    apply issue_ok
    have e : ((s.core.tile d.toNat).state % 2 == 1 && !(s.core.tile d.toNat).settled) = false := by
      rcases hs with h | h | h
      · rw [h]; rfl
      · rw [h]; rfl
      · rw [(settled_iff _).2 h]; simp
    rw [Act.bind_ok (Act.tileFree_of (s := s.issued 4) hn), hcore, e, Act.bind_ok (Act.waitIf_false _ _), Act.updCore_apply]
  · subst ht
    apply issue_ok
    rw [Act.bind_ok (Act.tileFree_of (s := s.issued 4) hn), hcore, (settled_iff _).2 ⟨h1, h2⟩, Bool.not_true, Act.bind_ok (Act.waitIf_false _ _), Act.updCore_apply]
  · subst ht
    apply issue_wait
    cases hnn : s.core.tileNamed d.toNat with
    | true => rw [Act.bind_error (Act.tileFree_named (s := s.issued 4) hnn)]
    | false =>
      have hset := not_settled (t := s.core.tile d.toNat) (hn.resolve_left (by rw [hnn]; decide))
      rw [Act.bind_ok (Act.tileFree_of (s := s.issued 4) hnn), hcore, hset, Bool.not_false, Act.bind_error (Act.waitIf_true _ _)]
  · subst ht
    apply issue_wait
    cases hnn : s.core.tileNamed d.toNat with
    | true => rw [Act.bind_error (Act.tileFree_named (s := s.issued 4) hnn)]
    | false =>
      obtain ⟨hs, hx⟩ := hn.resolve_left (by rw [hnn]; decide)
      have e : ((s.core.tile d.toNat).state % 2 == 1) = true := by rcases hs with h | h <;> rw [h] <;> rfl
      rw [Act.bind_ok (Act.tileFree_of (s := s.issued 4) hnn), hcore, not_settled hx, e, Bool.not_false, Bool.and_true, Act.bind_error (Act.waitIf_true _ _)]
  · subst ht
    apply issue_after
    have e : ((s.core.tile a.toNat).state % 2 == 1) = false := by rcases hs with h | h <;> rw [h] <;> rfl
    rw [Act.bind_ok (Act.core_apply _), hcore, e, Act.bind_ok (Act.waitIf_false _ _), Act.wrG_clean h4]
  · subst ht
    apply issue_wait
    have e : ((s.core.tile a.toNat).state % 2 == 1) = true := by rcases hs with h | h <;> rw [h] <;> rfl
    rw [Act.bind_ok (Act.core_apply _), hcore, e, Act.bind_error (Act.waitIf_true _ _)]

end Sys2Proof.Machine
end

