-- ==== Sys2Proof/Laws/VersionResults.lean ====
section
/-! SUPPORT. LDV, STV and LDVW. -/

set_option Elab.async false

namespace Sys2Proof.Machine

theorem logEntry_at {s : State} {i : Nat} (h : s.spanFree (s.ctx.tx.lbase + 128 * i) 128) (here : Word) : Act.logEntry here i s = .ok (s.logEntry i, s) := by
  unfold Act.logEntry
  rw [Act.bind_ok (Act.ctx_apply _), Act.bind_ok (Act.readSpad_free h _)]
  rfl

theorem logFind_at {s : State} (here : Word) (line n i : Nat) (h : ∀ j, j < i + n → i ≤ j → s.spanFree (s.ctx.tx.lbase + 128 * j) 128) :
    Act.logFind here line n i s = .ok (((List.range' i n).find? (fun i => (s.logEntry i).1 == line)).map (fun i => (i, (s.logEntry i).2)), s) := by
  induction n generalizing i with
  | zero => rfl
  | succ n ih =>
    rw [Act.logFind, Act.bind_ok (logEntry_at (h i (by omega) (by omega)) _)]
    dsimp only
    by_cases hl : (s.logEntry i).1 = line
    · rw [if_pos hl, List.range'_succ, List.find?_cons]
      have : ((s.logEntry i).1 == line) = true := by simpa using hl
      simp only [this]; rfl
    · rw [if_neg hl, ih (i + 1) (fun j h1 h2 => h j (by omega) (by omega)), List.range'_succ, List.find?_cons]
      have : ((s.logEntry i).1 == line) = false := by simpa using hl
      simp only [this]

theorem translated_log (s : State) (ea : Word) (l : Option Leaf) (i : Nat) : ((s.issued 4).translated ea l).logEntry i = s.logEntry i := by
  unfold State.logEntry
  rw [State.translated_ctx, State.issued_tx, State.translated_pid]
  cases l <;> rfl

theorem spanFree_translated {s : State} {off n : Nat} (h : s.spanFree off n) (ea : Word) (l : Option Leaf) : (s.translated ea l).spanFree off n := by
  refine ⟨?_, ?_, ?_, ?_⟩
  · rw [State.translated_pid, State.marked_translated]; exact h.1
  · rw [State.translated_pid, State.ownAlias_translated]; exact h.2.1
  · rw [State.translated_pid, State.bad_translated]; exact h.2.2.1
  · exact State.noAcquire_translated h.2.2.2 ea l

theorem logOf_at {s : State} (h : s.logFree) (here : Word) (ea : Word) (l : Option Leaf) (line : Nat) :
    Act.logFind here line s.ctx.tx.logn 0 ((s.issued 4).translated ea l) = .ok (s.logOf line, (s.issued 4).translated ea l) := by
  rw [logFind_at]
  · unfold State.logOf
    rw [List.range_eq_range']
    simp only [translated_log]
  · intro j h1 h2
    apply spanFree_translated
    rw [State.translated_ctx, State.issued_tx]
    exact State.spanFree_issued (h j (by omega)) 4

theorem versioned_at {s : State} {acc : Acc} {ea : Word} {n pa : Nat} {l : Option Leaf} {o : Bool} (hv : s.Versioned acc ea n pa l)
    (ho : o = true → s.ctx.tx.opened = true) (hr : ¬ (s.ctx.tx.opened = true ∧ s.ctx.tx.rvk = true)) (here : Word) :
    Act.versioned here ea n acc o (s.issued 4) = .ok (pa, (s.issued 4).translated ea l) := by
  obtain ⟨h1, h2, r, dm, hp⟩ := hv
  have e1 : (ea.toNat % n != 0 || decide (2 ^ 52 ≤ ea.toNat)) = false := by
    rw [Bool.or_eq_false_iff]; exact ⟨by rw [h1]; rfl, decide_eq_false (by omega)⟩
  have e2 : (o && !s.ctx.tx.opened) = false := by
    cases o with
    | false => rfl
    | true => rw [ho rfl]; rfl
  have e3 : (s.ctx.tx.opened && s.ctx.tx.rvk) = false := by
    apply (Bool.eq_false_iff).2; intro e; rw [Bool.and_eq_true] at e; exact hr e
  unfold Act.versioned
  rw [e1, Act.bind_ok (Act.check_false _ _), Act.bind_ok (Act.ctx_apply _), State.issued_tx, e2, Act.bind_ok (Act.check_false _ _), e3]
  simp only [Bool.false_eq_true, if_false]
  rw [Act.bind_ok (Act.place_at (hp.issued 4))]
  rfl

theorem translated_versionAt (s : State) (ea : Word) (l : Option Leaf) (k ts : Nat) : ((s.issued 4).translated ea l).versionAt k ts = s.versionAt k ts := by cases l <;> rfl

theorem translated_versionBad (s : State) (ea : Word) (l : Option Leaf) (k n ts : Nat) : ((s.issued 4).translated ea l).versionBad k n ts = s.versionBad k n ts := by cases l <;> rfl

theorem seen_some {s : State} {line pa i m : Nat} {data : List Byte} (h : s.logOf line = some (i, m, data)) :
    s.seen line pa = maskOver (s.versionAt (lineOf pa) s.ctx.tx.ts.toNat) data m := by unfold State.seen; rw [h]

theorem seen_none {s : State} {line pa : Nat} (h : s.logOf line = none) : s.seen line pa = s.versionAt (lineOf pa) s.ctx.tx.ts.toNat := by
  unfold State.seen; rw [h]

theorem allLogged_some {s : State} {line off n i m : Nat} {data : List Byte} (h : s.logOf line = some (i, m, data)) :
    s.allLogged line off n = (List.range n).all (fun i => bitOf m (off + i)) := by unfold State.allLogged; rw [h]

theorem allLogged_none {s : State} {line off n : Nat} (h : s.logOf line = none) : s.allLogged line off n = false := by
  unfold State.allLogged; rw [h]

theorem reach_version {s : State} {pa n : Nat} (h : s.readHeld s.pid s.ctx.act (.dev pa true false 0) n = false) (ea : Word) (l : Option Leaf) :
    Act.reach (.dev pa true false 0) n ((s.issued 4).translated ea l) = .ok ((), (s.issued 4).translated ea l) := by
  apply Act.reach_free
  rw [State.translated_pid, State.issuedAt_pid, State.translated_ctx, State.issued_act, State.readHeld_translated, State.readHeld_issued]; exact h

theorem ldv_ok {s : State} {sp : Bool} {z : Size} {x : Bool} {d a : Reg} {pa : Nat} {l : Option Leaf} (hc : s.Clean) (hg : s.noAcquire) (hs : s.snapped) (hl : s.logFree)
    (hv : s.Versioned .read (s.ctx.g a) z.bytes pa l) (hk : s.readHeld s.pid s.ctx.act (.dev pa true false 0) z.bytes = false) {t : State} {e : Bool} {v : Word}
    (et : t = ((s.issued 4).translated (s.ctx.g a) l).modCtx (fun c => { c with regs := c.regs.setPresent false (.g d) }))
    (ee : e = (s.versionBad pa z.bytes s.ctx.tx.ts.toNat && !s.allLogged ((s.ctx.g a).toNat / 64) ((s.ctx.g a).toNat % 64) z.bytes))
    (ev : v = extend z.bytes (!x) (natOf (((s.seen ((s.ctx.g a).toNat / 64) pa).drop ((s.ctx.g a).toNat % 64)).take z.bytes))) :
    exec (.ldv sp z x d a) s = .next (((if e then t.errorAt pa else t).sendResult (.g d)
        (if e then .err { eff := 0x006, arg := s.ctx.pc, addr := s.ctx.g a } 0 else .g v)).switch sp) := by
  have h4 := hc.issued 4
  apply issue_ok
  rw [Act.bind_ok (Act.gate_open (State.noAcquire_issued hg 4)), Act.bind_ok (Act.rdG_clean h4 a), State.issued_g,
    Act.bind_ok (versioned_at hv (fun _ => hs.1) (fun e => by rw [hs.2] at e; exact absurd e.2 (by decide)) _), Act.bind_ok (Act.ctx_apply _), State.translated_ctx, State.issued_tx]
  rw [Act.bind_ok (reach_version hk _ _), Act.bind_ok (Act.get_apply _), Act.bind_ok (Act.get_apply _), translated_versionAt, translated_versionBad, Act.bind_ok (logOf_at hl _ _ _ _)]
  dsimp only
  rw [Act.bind_ok (Act.pendDest_clean (h4.translated _ _) _), Act.bind_ok (Act.upd_apply _ _), ← et]
  unfold Act.result
  rw [Act.upd_apply]
  subst ee ev
  cases hm : s.logOf ((s.ctx.g a).toNat / 64) with
  | none => rw [allLogged_none hm, seen_none hm]; rfl
  | some e => obtain ⟨i, m, data⟩ := e; rw [allLogged_some hm, seen_some hm]; rfl

theorem stv_fresh {ea n v : Nat} (h : ea % 64 + n ≤ 64) : State.overlay (List.replicate 64 0) (ea % 64) (bytesOf n v)
    = List.replicate (ea % 64) 0 ++ bytesOf n v ++ List.replicate (64 - (ea % 64 + n)) 0 := by
  unfold State.overlay
  rw [List.take_replicate, List.drop_replicate, length_bytesOf, Nat.min_eq_left (by omega)]

theorem off_fits {x : Nat} {z : Size} (h : x % z.bytes = 0) : x % 64 + z.bytes ≤ 64 := by
  cases z
  · simp only [Size.bytes] at *; omega
  · simp only [Size.bytes] at *; omega
  · simp only [Size.bytes] at *; omega
  · simp only [Size.bytes] at *; omega

theorem versions_rules :
    ∀ (s : State) (sp : Bool) (z : Size) (x : Bool) (d a b : Reg), s.Clean →
    (∀ pa l, s.noAcquire → s.snapped → s.logFree → s.Versioned .read (s.ctx.g a) z.bytes pa l →
      s.readHeld s.pid s.ctx.act (.dev pa true false 0) z.bytes = false →
      ∀ t e v, t = ((s.issued 4).translated (s.ctx.g a) l).modCtx (fun c => { c with regs := c.regs.setPresent false (.g d) }) →
      e = (s.versionBad pa z.bytes s.ctx.tx.ts.toNat && !s.allLogged ((s.ctx.g a).toNat / 64) ((s.ctx.g a).toNat % 64) z.bytes) →
      v = extend z.bytes (!x) (natOf (((s.seen ((s.ctx.g a).toNat / 64) pa).drop ((s.ctx.g a).toNat % 64)).take z.bytes)) →
      exec (.ldv sp z x d a) s = .next (((if e then t.errorAt pa else t).sendResult (.g d)
        (if e then .err { eff := 0x006, arg := s.ctx.pc, addr := s.ctx.g a } 0 else .g v)).switch sp))
    ∧ (∀ pa l, s.snapped → s.logFree → s.Versioned .write (s.ctx.g a) z.bytes pa l → ∀ off line, off = (s.ctx.g a).toNat % 64 → line = (s.ctx.g a).toNat / 64 →
      (∀ i m data, s.logOf line = some (i, m, data) → s.spanFree (s.ctx.tx.lbase + 128 * i + 8) 8 → s.spanFree (s.ctx.tx.lbase + 128 * i + 64 + off) z.bytes →
        exec (.stv sp z d a) s = .next (((((s.issued 4).translated (s.ctx.g a) l).wr (spadKey s.pid (s.ctx.tx.lbase + 128 * i + 8))
          (bytesOf 8 (m ||| ((2 ^ z.bytes - 1) * 2 ^ off)))).wr (spadKey s.pid (s.ctx.tx.lbase + 128 * i + 64 + off)) (bytesOf z.bytes (s.ctx.g d).toNat)).switch sp))
      ∧ (s.logOf line = none → s.ctx.tx.logn < s.ctx.tx.lcap → s.spanFree (s.ctx.tx.lbase + 128 * s.ctx.tx.logn) 128 →
        exec (.stv sp z d a) s = .next (((((s.issued 4).translated (s.ctx.g a) l).wr (spadKey s.pid (s.ctx.tx.lbase + 128 * s.ctx.tx.logn))
          (bytesOf 8 (line * 64) ++ bytesOf 8 ((2 ^ z.bytes - 1) * 2 ^ off) ++ List.replicate 48 0
            ++ (List.replicate off 0 ++ bytesOf z.bytes (s.ctx.g d).toNat ++ List.replicate (64 - (off + z.bytes)) 0))).modCtx (fun c =>
              { c with tx := { c.tx with logn := c.tx.logn + 1 } })).switch sp))
      ∧ (s.logOf line = none → s.ctx.tx.lcap ≤ s.ctx.tx.logn → exec (.stv sp z d a) s = .next (s.raised { eff := 0x001, arg := s.ctx.g a })))
    ∧ (∀ pa l, s.cx ≠ 4 → s.noAcquire → ¬ (s.ctx.tx.opened = true ∧ s.ctx.tx.rvk = true) → s.Versioned .read (s.ctx.g a) 8 pa l →
      s.readHeld s.pid s.ctx.act (.dev pa true false 0) 8 = false → ∀ v, v = (s.vline (lineOf pa)).ts →
      (s.ctx.g b = 0 ∨ ((s.ctx.g b).toNat ≤ v ∧ v ≤ s.vers.stable) → exec (.ldvw sp d a b) s =
        .next (((((s.issued 4).translated (s.ctx.g a) l).modCtx (fun c => c.setG d (W v))).modVers (fun m =>
          if v ≤ s.vers.stable then m else { m with acquires := m.acquires ++ [(s.ctx.act, v)] })).switch true))
      ∧ (¬ (s.ctx.g b = 0 ∨ ((s.ctx.g b).toNat ≤ v ∧ v ≤ s.vers.stable)) → exec (.ldvw sp d a b) s = .next (s.parks (.version (lineOf pa) (s.ctx.g b).toNat))))
    ∧ ((s.ctx.g a).toNat % z.bytes = 0 → (s.ctx.g a).toNat < 2 ^ 52 →
      (s.ctx.tx.opened = false → exec (.stv sp z d a) s = .next (s.raised { eff := 0x001, arg := s.ctx.txstat }))
      ∧ (s.ctx.tx.opened = true → s.ctx.tx.rvk = true → ∀ r : Raise, r = { eff := Eff.snaplost, arg := s.ctx.tx.ts, addr := s.ctx.g a } →
          exec (.stv sp z d a) s = .next (if s.snapClosed.deliveryHeld s.pid s.cx r then (s.block .drain sp).switch sp else s.snapClosed.fault s.pid s.cx r))) := by
  intro s sp z x d a b hc
  have h4 := hc.issued 4
  refine ⟨fun pa l hg hs hl hv hk t e v et ee ev => ?_, fun pa l hs hl hv off line eo el => ⟨fun i m data hm h1 h2 => ?_, fun hm hn h1 => ?_, fun hm hn => ?_⟩,
    fun pa l hx hg hr hv hk v ev => ⟨fun hw => ?_, fun hw => ?_⟩, fun ha hb => ⟨fun ho => ?_, fun ho hr r er => ?_⟩⟩
  · exact ldv_ok hc hg hs hl hv hk et ee ev
  · subst eo el
    apply issue_ok
    rw [Act.bind_ok (Act.rdG_clean h4 d), Act.bind_ok (Act.rdG_clean h4 a), State.issued_g, State.issued_g,
      Act.bind_ok (versioned_at hv (fun _ => hs.1) (fun e => by rw [hs.2] at e; exact absurd e.2 (by decide)) _), Act.bind_ok (Act.ctx_apply _), State.translated_ctx, State.issued_tx,
      Act.bind_ok (logOf_at hl _ _ _ _), hm]
    dsimp only
    rw [Act.bind_ok (Act.writeSpad_free (by rw [length_bytesOf]; exact spanFree_translated (State.spanFree_issued h1 4) _ _) _),
      Act.writeSpad_free (by rw [length_bytesOf]; exact State.spanFree_wr (spanFree_translated (State.spanFree_issued h2 4) _ _))]
    have e : ((s.issued 4).translated (s.ctx.g a) l).pid = s.pid := by cases l <;> rfl
    rw [State.wr_pid, e]
  · subst eo el
    apply issue_ok
    rw [Act.bind_ok (Act.rdG_clean h4 d), Act.bind_ok (Act.rdG_clean h4 a), State.issued_g, State.issued_g,
      Act.bind_ok (versioned_at hv (fun _ => hs.1) (fun e => by rw [hs.2] at e; exact absurd e.2 (by decide)) _), Act.bind_ok (Act.ctx_apply _), State.translated_ctx, State.issued_tx,
      Act.bind_ok (logOf_at hl _ _ _ _), hm]
    dsimp only
    have hf := stv_fresh (v := (s.ctx.g d).toNat) (off_fits hv.1)
    have hlen : (bytesOf 8 ((s.ctx.g a).toNat / 64 * 64) ++ bytesOf 8 ((2 ^ z.bytes - 1) * 2 ^ ((s.ctx.g a).toNat % 64)) ++ List.replicate 48 0
            ++ (List.replicate ((s.ctx.g a).toNat % 64) 0 ++ bytesOf z.bytes (s.ctx.g d).toNat ++ List.replicate (64 - ((s.ctx.g a).toNat % 64 + z.bytes)) (0 : Byte))).length = 128 := by
      simp only [List.length_append, length_bytesOf, List.length_replicate]
      have := off_fits hv.1; omega
    rw [decide_eq_false (by omega), Act.bind_ok (Act.check_false _ _), hf,
      Act.bind_ok (Act.writeSpad_free (by rw [hlen]; exact spanFree_translated (State.spanFree_issued h1 4) _ _) _), Act.updCtx_apply]
    have e : ((s.issued 4).translated (s.ctx.g a) l).pid = s.pid := by cases l <;> rfl
    rw [e]
  · subst eo el
    apply issue_raise hc
    rw [Act.bind_ok (Act.rdG_clean h4 d), Act.bind_ok (Act.rdG_clean h4 a), State.issued_g, State.issued_g,
      Act.bind_ok (versioned_at hv (fun _ => hs.1) (fun e => by rw [hs.2] at e; exact absurd e.2 (by decide)) _), Act.bind_ok (Act.ctx_apply _), State.translated_ctx, State.issued_tx,
      Act.bind_ok (logOf_at hl _ _ _ _), hm]
    dsimp only
    rw [decide_eq_true hn, Act.bind_error (Act.check_true _ _)]; rfl
  · have hx' : ((s.issued 4).cx == 4) = false := by simpa using hx
    have hv' : ((s.issued 4).translated (s.ctx.g a) l).vline (lineOf pa) = s.vline (lineOf pa) := by cases l <;> rfl
    have hv2 : ((s.issued 4).translated (s.ctx.g a) l).vers = s.vers := by cases l <;> rfl
    subst ev
    show issue s sp 4 _ = _
    apply issue_gives
    rw [Act.bind_ok (Act.inSH_apply _), hx', Act.bind_ok (Act.check_false _ _), Act.bind_ok (Act.gate_open (State.noAcquire_issued hg 4)), Act.bind_ok (Act.rdG_clean h4 a), Act.bind_ok (Act.rdG_clean h4 b),
      Act.bind_ok (Act.interlock_clean h4 _), State.issued_g, State.issued_g, Act.bind_ok (versioned_at (o := false) hv (fun h => by cases h) hr _), Act.bind_ok (reach_version hk _ _), Act.bind_ok (Act.get_apply _), hv', hv2, if_pos hw,
      Act.bind_ok (Act.wrG_clean (h4.translated _ _) _ _), Act.bind_ok (Act.upd_apply _ _)]
    have e : (((s.issued 4).translated (s.ctx.g a) l).modCtx (fun c => c.setG d (W (s.vline (lineOf pa)).ts))).vers = s.vers := by rw [← hv2]; rfl
    rw [e]
    by_cases hst : (s.vline (lineOf pa)).ts ≤ s.vers.stable
    · simp only [if_pos hst]; rfl
    · have ea : (((s.issued 4).translated (s.ctx.g a) l).modCtx (fun c => c.setG d (W (s.vline (lineOf pa)).ts))).ctx.act = s.ctx.act := by
        rw [State.ctx_modCtx, State.translated_ctx]; exact State.issued_act _ _
      simp only [if_neg hst, ea]; rfl
  · have hx' : ((s.issued 4).cx == 4) = false := by simpa using hx
    have hv' : ((s.issued 4).translated (s.ctx.g a) l).vline (lineOf pa) = s.vline (lineOf pa) := by cases l <;> rfl
    have hv2 : ((s.issued 4).translated (s.ctx.g a) l).vers = s.vers := by cases l <;> rfl
    subst ev
    apply issue_park
    rw [Act.bind_ok (Act.inSH_apply _), hx', Act.bind_ok (Act.check_false _ _), Act.bind_ok (Act.gate_open (State.noAcquire_issued hg 4)), Act.bind_ok (Act.rdG_clean h4 a), Act.bind_ok (Act.rdG_clean h4 b),
      Act.bind_ok (Act.interlock_clean h4 _), State.issued_g, State.issued_g, Act.bind_ok (versioned_at (o := false) hv (fun h => by cases h) hr _), Act.bind_ok (reach_version hk _ _), Act.bind_ok (Act.get_apply _), hv', hv2, if_neg hw]
    rfl
  · have e1 : ((s.ctx.g a).toNat % z.bytes != 0 || decide (2 ^ 52 ≤ (s.ctx.g a).toNat)) = false := by
      rw [Bool.or_eq_false_iff]; exact ⟨by rw [ha]; rfl, decide_eq_false (by omega)⟩
    apply issue_raise hc
    rw [Act.bind_ok (Act.rdG_clean h4 d), Act.bind_ok (Act.rdG_clean h4 a), State.issued_g]
    apply Act.bind_error
    unfold Act.versioned
    have : (s.issued 4).ctx.txstat = s.ctx.txstat := by unfold Ctx.txstat; rw [State.issued_tx]
    rw [e1, Act.bind_ok (Act.check_false _ _), Act.bind_ok (Act.ctx_apply _), State.issued_tx, ho, Bool.not_false, Bool.and_true, Act.bind_error (Act.check_true _ _), this]; rfl
  · have e1 : ((s.ctx.g a).toNat % z.bytes != 0 || decide (2 ^ 52 ≤ (s.ctx.g a).toNat)) = false := by
      rw [Bool.or_eq_false_iff]; exact ⟨by rw [ha]; rfl, decide_eq_false (by omega)⟩
    have hl : Act.versioned s.here (s.ctx.g a) z.bytes .write true (s.issued 4) =
        .error (if s.snapClosed.deliveryHeld s.pid s.cx r then .wait .drain else .stop (s.snapClosed.fault s.pid s.cx r)) := ?_
    · split
      · rename_i hh
        rw [if_pos hh] at hl
        apply issue_wait
        rw [Act.bind_ok (Act.rdG_clean h4 d), Act.bind_ok (Act.rdG_clean h4 a), State.issued_g, Act.bind_error hl]
      · rename_i hh
        rw [if_neg hh] at hl
        apply issue_stop
        rw [Act.bind_ok (Act.rdG_clean h4 d), Act.bind_ok (Act.rdG_clean h4 a), State.issued_g, Act.bind_error hl]
    unfold Act.versioned
    rw [e1, Act.bind_ok (Act.check_false _ _), Act.bind_ok (Act.ctx_apply _), State.issued_tx, ho, hr, Bool.not_true, Bool.and_false, Act.bind_ok (Act.check_false _ _)]
    simp only [Bool.and_true, if_true]
    apply Act.bind_error
    unfold Act.snapLost
    rw [Act.bind_ok (Act.ctx_apply _), h4.1, Bool.not_true, Act.bind_ok (Act.waitIf_false _ _), Act.bind_ok (Act.get_apply _), State.issued_act, State.issued_tx]
    subst er
    show (Act.waitIf (s.snapClosed.deliveryHeld s.pid s.cx { eff := Eff.snaplost, arg := s.ctx.tx.ts, addr := s.ctx.g a }) .drain >>=
      fun _ => Act.stop (s.snapClosed.fault s.pid s.cx { eff := Eff.snaplost, arg := s.ctx.tx.ts, addr := s.ctx.g a })) (s.issued 4) = _
    cases s.snapClosed.deliveryHeld s.pid s.cx { eff := Eff.snaplost, arg := s.ctx.tx.ts, addr := s.ctx.g a } <;> rfl

end Sys2Proof.Machine
end

