-- ==== Sys2Proof/Laws/Transactions.lean ====
section
/-! SUPPORT. SNAP, COMMIT, ABORT and VRETIRE. -/

set_option Elab.async false

namespace Sys2Proof.Machine

theorem snapOk_iff (x : Word) : (fld x 63 41 != 0 || fld x 31 21 != 0 || fld x 20 0 % 128 != 0 || fld x 40 32 == 0 || decide (256 < fld x 40 32)
    || decide (Config.spadBytes < fld x 20 0 + fld x 40 32 * 128)) = false ↔ snapOk x := by
  simp only [Bool.or_eq_false_iff, bne_eq_false_iff_eq, beq_eq_false_iff_ne, snapOk, and_assoc, decide_eq_false_iff_not]
  constructor
  · rintro ⟨h1, h2, h3, h4, h5, h6⟩; unfold Config.spadBytes at h6; exact ⟨h1, h2, h3, by omega, by omega, by omega⟩
  · rintro ⟨h1, h2, h3, h4, h5, h6⟩; unfold Config.spadBytes; exact ⟨h1, h2, h3, by omega, by omega, by omega⟩

theorem logEntry_same {s t : State} (h1 : t.mem = s.mem) (h2 : t.pid = s.pid) (h3 : t.ctx.tx = s.ctx.tx) (i : Nat) : t.logEntry i = s.logEntry i := by
  unfold State.logEntry State.rd; rw [h1, h2, h3]

theorem translated_mem (s : State) (ea : Word) (l : Option Leaf) : (s.translated ea l).mem = s.mem := by cases l <;> rfl

theorem logged_same {s t : State} (h : ∀ i, t.logEntry i = s.logEntry i) (pas : List (Nat × Option Leaf)) (i : Nat) : t.logged i pas = s.logged i pas := by
  induction pas generalizing i with
  | nil => rfl
  | cons e r ih => unfold State.logged; rw [h, ih]

theorem LogPlaced.base {s t : State} {pas : List (Nat × Option Leaf)} {i : Nat} (h : s.LogPlaced i pas t) :
    t.ctxs = s.ctxs ∧ t.pid = s.pid ∧ t.cx = s.cx ∧ t.net = s.net ∧ t.vers = s.vers := by
  induction pas generalizing s i with
  | nil => cases h; exact ⟨rfl, rfl, rfl, rfl, rfl⟩
  | cons e r ih =>
    obtain ⟨pa, l⟩ := e
    obtain ⟨-, -, h⟩ := h
    have := ih h
    cases l <;> exact this

theorem logLines_at {s t : State} {pas : List (Nat × Option Leaf)} {i : Nat} (h : s.LogPlaced i pas t) (here : Word) :
    Act.logLines here pas.length i s = .ok (s.logged i pas, t) := by
  induction pas generalizing s i with
  | nil => cases h; rfl
  | cons e r ih =>
    obtain ⟨pa, l⟩ := e
    obtain ⟨hf, ⟨repl, dm, hp⟩, h⟩ := h
    have ih := ih h
    rw [logged_same (fun i => logEntry_same (translated_mem s _ l) (State.translated_pid s _ l) (by rw [State.translated_ctx]) i)] at ih
    rw [List.length_cons, Act.logLines, Act.bind_ok (logEntry_at hf _)]
    dsimp only
    rw [Act.bind_ok (Act.place_at hp)]
    dsimp only
    rw [Act.bind_ok (Act.pure_apply _ _), Act.bind_ok ih]
    rfl

theorem lockOrder_perm (x : CLine) (l : List CLine) : (lockOrder x l).Perm (x :: l) := by
  induction l with
  | nil => exact List.Perm.refl _
  | cons y l ih =>
    unfold lockOrder
    split
    · exact List.Perm.refl _
    · exact (List.Perm.cons y ih).trans (List.Perm.swap x y l)

theorem lockOrder_sorted (x : CLine) (l : List CLine) (h : l.Pairwise (fun x y => x.pa ≤ y.pa)) : (lockOrder x l).Pairwise (fun x y => x.pa ≤ y.pa) := by
  induction l with
  | nil => simp [lockOrder]
  | cons y l ih =>
    rw [List.pairwise_cons] at h
    unfold lockOrder
    split
    · rename_i hx
      rw [List.pairwise_cons, List.pairwise_cons]
      refine ⟨?_, h⟩
      intro z hz
      rw [List.mem_cons] at hz
      rcases hz with rfl | hz
      · exact hx
      · exact Nat.le_trans hx (h.1 z hz)
    · rename_i hx
      rw [List.pairwise_cons]
      refine ⟨?_, ih h.2⟩
      intro z hz
      have := (lockOrder_perm x l).mem_iff.1 hz
      rw [List.mem_cons] at this
      rcases this with rfl | hz
      · omega
      · exact h.1 z hz

theorem order_spec (lines acc : List CLine) (h : acc.Pairwise (fun x y => x.pa ≤ y.pa)) :
    (lines.foldl (fun l x => lockOrder x l) acc).Perm (lines ++ acc) ∧ (lines.foldl (fun l x => lockOrder x l) acc).Pairwise (fun x y => x.pa ≤ y.pa) := by
  induction lines generalizing acc with
  | nil => exact ⟨List.Perm.refl _, h⟩
  | cons x l ih =>
    rw [List.foldl_cons]
    obtain ⟨h1, h2⟩ := ih (lockOrder x acc) (lockOrder_sorted x acc h)
    refine ⟨h1.trans ?_, h2⟩
    refine (List.Perm.append_left l (lockOrder_perm x acc)).trans ?_
    rw [List.cons_append]
    exact List.perm_middle

theorem transactions_rules :
    ∀ (s : State) (sp : Bool) (d a : Reg), s.Clean →
    (snapOk (s.ctx.g a) → s.noAcquire →
      (s.ctx.tx.opened = false → exec (.snap sp d a) s =
        .next (s.awaiting ((s.issued 4).asked (.snap d (fld (s.ctx.g a) 40 32) (fld (s.ctx.g a) 20 0))) sp .reply))
      ∧ (s.ctx.tx.opened = true → s.ctx.tx.logn = 0 → exec (.snap sp d a) s =
        .next (s.awaiting ((s.issued 4).retired.asked (.snap d (fld (s.ctx.g a) 40 32) (fld (s.ctx.g a) 20 0))) sp .reply))
      ∧ (s.ctx.tx.opened = true → s.ctx.tx.logn ≠ 0 → exec (.snap sp d a) s = .next (s.raised { eff := 0x001, arg := s.ctx.g a })))
    ∧ (¬ snapOk (s.ctx.g a) → s.noAcquire → exec (.snap sp d a) s = .next (s.raised { eff := 0x001, arg := s.ctx.g a }))
    ∧ (s.ctx.tx.opened = true → s.ctx.tx.rvk = false → s.ownReqs s.ctx.act = false →
      (s.ctx.tx.logn = 0 → exec (.commit sp d) s = .next (s.after sp 4 (fun c => { c.setG d 0 with tx := { c.tx with cfl := false } })))
      ∧ (∀ pas t, s.ctx.tx.logn ≠ 0 → pas.length = s.ctx.tx.logn → (s.issued 4).LogPlaced 0 pas t → ∃ order : List CLine,
        order.Perm (s.logged 0 pas) ∧ order.Pairwise (fun x y => x.pa ≤ y.pa)
        ∧ exec (.commit sp d) s = .next (s.awaiting (t.modVers (fun v => { v with
            nextCommit := v.nextCommit + 1
            commits := v.commits ++ [⟨v.nextCommit, s.pid, s.cx, s.ctx.act, d, s.ctx.tx.ts.toNat, order, 0, none⟩] })) sp .reply)))
    ∧ exec (.abort sp) s = .next (s.after sp 4 (fun c => { c with tx := { c.tx with logn := 0 } }))
    ∧ (s.ctx.tx.opened = true → exec (.vretire sp) s = .next ((s.issued 4).retired.switch sp))
    ∧ (s.ctx.tx.opened = false → exec (.vretire sp) s = .next (s.after sp 4 (fun c => { c with tx := { c.tx with rvk := false } }))) := by
  intro s sp d a hc
  have h4 := hc.issued 4
  refine ⟨fun hx hg => ⟨fun ho => ?_, fun ho hl => ?_, fun ho hl => ?_⟩, fun hx hg => ?_, fun ho hr hd => ⟨fun hl => ?_, fun pas t hl hn hp => ?_⟩, rfl, fun ho => ?_, fun ho => ?_⟩
  · apply issue_stop
    rw [Act.bind_ok (Act.gate_open (State.noAcquire_issued hg 4)), Act.bind_ok (Act.rdG_clean h4 a), Act.bind_ok (Act.interlock_clean h4 _), State.issued_g]
    rw [(snapOk_iff _).2 hx, Act.bind_ok (Act.check_false _ _), Act.bind_ok (Act.ctx_apply _), State.issued_tx, ho, Bool.false_and, Act.bind_ok (Act.check_false _ _)]
    rfl
  · apply issue_stop
    rw [Act.bind_ok (Act.gate_open (State.noAcquire_issued hg 4)), Act.bind_ok (Act.rdG_clean h4 a), Act.bind_ok (Act.interlock_clean h4 _), State.issued_g]
    rw [(snapOk_iff _).2 hx, Act.bind_ok (Act.check_false _ _), Act.bind_ok (Act.ctx_apply _), State.issued_tx, ho, hl]
    rw [show (true && ((0 : Nat) != 0)) = false from rfl, Act.bind_ok (Act.check_false _ _), if_pos rfl]
    rfl
  · apply issue_raise hc
    have hl' : (s.ctx.tx.logn != 0) = true := by simpa using hl
    rw [Act.bind_ok (Act.gate_open (State.noAcquire_issued hg 4)), Act.bind_ok (Act.rdG_clean h4 a), Act.bind_ok (Act.interlock_clean h4 _), State.issued_g]
    rw [(snapOk_iff _).2 hx, Act.bind_ok (Act.check_false _ _), Act.bind_ok (Act.ctx_apply _), State.issued_tx, ho, hl', Bool.and_true, Act.bind_error (Act.check_true _ _)]
    rfl
  · apply issue_raise hc
    rw [Act.bind_ok (Act.gate_open (State.noAcquire_issued hg 4)), Act.bind_ok (Act.rdG_clean h4 a), Act.bind_ok (Act.interlock_clean h4 _), State.issued_g]
    rw [eq_true_of_not (fun e => hx ((snapOk_iff _).1 e)), Act.bind_error (Act.check_true _ _)]
    rfl
  · apply issue_after
    rw [Act.bind_ok (Act.interlock_clean h4 _), Act.bind_ok (Act.ctx_apply _), State.issued_tx, ho, Bool.not_true, Act.bind_ok (Act.check_false _ _), hr]
    simp only [Bool.false_eq_true, if_false]
    rw [if_pos hl, Act.bind_ok (Act.drain_of (by rw [State.issued_act]; exact hd)), Act.bind_ok (Act.wrG_clean h4 _ _), Act.updCtx_apply, State.modCtx_modCtx]; rfl
  · obtain ⟨b1, b2, b3, b4, b5⟩ := LogPlaced.base hp
    have hctx : t.ctx = (s.issued 4).ctx := by unfold State.ctx State.ctxAt; rw [b1, b2, b3]
    have hd' : t.ownReqs t.ctx.act = false := by rw [hctx, State.issued_act, ← hd]; unfold State.ownReqs State.inFlight; rw [b4, b5]; rfl
    have hlog : (s.issued 4).logged 0 pas = s.logged 0 pas := logged_same (s := s) (t := s.issued 4) (fun i => logEntry_same (s := s) (t := s.issued 4) rfl rfl (by rw [State.issued_tx]) i) _ _
    obtain ⟨p1, p2⟩ := order_spec (s.logged 0 pas) [] List.Pairwise.nil
    rw [List.append_nil] at p1
    refine ⟨_, p1, p2, ?_⟩
    apply issue_stop
    rw [Act.bind_ok (Act.interlock_clean h4 _), Act.bind_ok (Act.ctx_apply _), State.issued_tx, ho, Bool.not_true, Act.bind_ok (Act.check_false _ _), hr]
    simp only [Bool.false_eq_true, if_false]
    have hll := logLines_at hp s.here
    rw [hlog, hn] at hll
    rw [if_neg hl, Act.bind_ok hll, Act.bind_ok (Act.drain_of hd'), Act.bind_ok (Act.upd_apply _ _), hctx, State.issued_act, b2, b3]
    rfl
  · apply issue_ok
    rw [Act.upd_apply, State.issued_tx, ho, if_pos rfl]
    rfl
  · apply issue_after
    rw [Act.upd_apply, State.issued_tx, ho, if_neg (by decide)]

end Sys2Proof.Machine
end

