-- ==== Sys2Proof/Laws/Lanes.lean ====
section
/-! SUPPORT. Element-wise vector instructions, lane by lane, and their flags. -/

set_option Elab.async false

namespace Sys2Proof.Machine

theorem bitOf_testBit (x i : Nat) : bitOf x i = x.testBit i := by
  rw [Nat.testBit_eq_decide_div_mod_eq]; unfold bitOf; rw [Bool.eq_iff_iff]; simp

theorem eq_of_bitOf {x y : Nat} (h : ∀ i, bitOf x i = true ↔ bitOf y i = true) : x = y := by
  apply Nat.eq_of_testBit_eq; intro i
  rw [← bitOf_testBit, ← bitOf_testBit, Bool.eq_iff_iff]; exact h i

theorem orAll_bits (l : List (Nat × Nat)) (t b : Nat) :
    bitOf (l.foldl (fun t e => t ||| e.2) t) b = true ↔ bitOf t b = true ∨ ∃ e ∈ l, bitOf e.2 b = true := by
  induction l generalizing t with
  | nil => simp
  | cons e l ih =>
    rw [List.foldl_cons, ih]
    simp only [bitOf_testBit, Nat.testBit_or, Bool.or_eq_true, List.mem_cons, exists_eq_or_imp, or_assoc]

theorem add_pow_or {m i : Nat} (h : m.testBit i = false) : m + 2 ^ i = m ||| 2 ^ i := by
  have hp : 2 ^ (i + 1) = 2 * 2 ^ i := by rw [Nat.pow_succ]; omega
  have hlt : m % 2 ^ (i + 1) < 2 ^ i := by
    rw [Nat.testBit_eq_decide_div_mod_eq] at h
    have h1 := of_decide_eq_false h
    have h2 : m % 2 ^ (i + 1) = m % 2 ^ i + 2 ^ i * (m / 2 ^ i % 2) := by rw [Nat.pow_succ, Nat.mod_mul]
    have h3 : m / 2 ^ i % 2 = 0 := by omega
    rw [h2, h3]; simpa using Nat.mod_lt _ (Nat.two_pow_pos i)
  have e1 : m = 2 ^ (i + 1) * (m / 2 ^ (i + 1)) ||| m % 2 ^ (i + 1) := by
    rw [← Nat.two_pow_add_eq_or_of_lt (by omega), Nat.div_add_mod]
  have e2 : m + 2 ^ i = 2 ^ (i + 1) * (m / 2 ^ (i + 1)) ||| (m % 2 ^ (i + 1) ||| 2 ^ i) := by
    rw [Nat.or_comm (m % _), ← Nat.mul_one (2 ^ i), ← Nat.two_pow_add_eq_or_of_lt hlt, ← Nat.two_pow_add_eq_or_of_lt (by omega)]
    have := Nat.div_add_mod m (2 ^ (i + 1)); omega
  rw [e2, ← Nat.or_assoc, ← e1]

theorem maskOf_step (m i j : Nat) : bitOf (if bitOf m i then m else m + 2 ^ i) j = true ↔ bitOf m j = true ∨ j = i := by
  by_cases h : bitOf m i = true
  · rw [if_pos h]
    constructor
    · exact .inl
    · rintro (h1 | rfl)
      · exact h1
      · exact h
  · rw [if_neg h]
    have h0 : m.testBit i = false := by rw [← bitOf_testBit]; simpa using h
    rw [add_pow_or h0, bitOf_testBit, bitOf_testBit, Nat.testBit_or, Nat.testBit_two_pow, Bool.or_eq_true, decide_eq_true_eq]
    exact or_congr_right eq_comm

theorem maskOf_bits (l : List Nat) (j : Nat) : bitOf (maskOf l) j = true ↔ j ∈ l := by
  have h : ∀ m, bitOf (l.foldl (fun m i => if bitOf m i then m else m + 2 ^ i) m) j = true ↔ bitOf m j = true ∨ j ∈ l := by
    induction l with
    | nil => simp
    | cons e l ih =>
      intro m
      rw [List.foldl_cons, ih, maskOf_step, List.mem_cons, or_assoc]
  unfold maskOf
  rw [h 0]; simp [bitOf]

/-- What the flags of an instruction do (03 R79, R80). -/
theorem Act.flags_spec (l : List (Nat × Nat)) (s : State) :
    Act.flags l (s.issued 4) = if (l.filter (fun e => e.2 &&& fld s.ctx.num.flagen 6 0 != 0)).isEmpty then
        .ok ((), (s.issued 4).modCtx (fun c => { c with num := { c.num with flags := c.num.flags ||| W (l.foldl (fun t e => t ||| e.2) 0) } }))
      else .error (.raise { eff := 0x00A, arg := W (l.foldl (fun t e => t ||| e.2) 0)
                            lanes := W (maskOf ((l.filter (fun e => e.2 &&& fld s.ctx.num.flagen 6 0 != 0)).map (fun e => e.1 % 64))) }) := by
  unfold Act.flags
  rw [Act.bind_ok (Act.ctx_apply _), State.issued_num]
  dsimp only
  generalize hh : (l.filter (fun e => e.2 &&& fld s.ctx.num.flagen 6 0 != 0)) = hot
  generalize ha : (l.foldl (fun t e => t ||| e.2) 0) = all
  cases he : hot.isEmpty with
  | false => rw [Bool.not_false, Act.bind_error (Act.check_true _ _)]; simp; rfl
  | true =>
    rw [Bool.not_true, Act.bind_ok (Act.check_false _ _)]
    by_cases h0 : all = 0
    · subst h0
      simp only [if_true]
      rw [Act.pure_apply]
      have h1 : (s.issued 4) = (s.issued 4).modCtx id := by unfold State.issued; rw [State.modCtx_modCtx]; rfl
      congr 2
      conv => lhs; rw [h1]
      apply State.modCtx_congr
      simp
      exact State.ctx_issued s 4
    · simp [h0]

theorem State.delivers_of {s : State} {i : Instr} {sp tick : Bool} {fl : List (Nat × Nat)} {f : Ctx → Ctx} {m k : Act Unit} (hc : s.Clean)
    (hl : ∀ e ∈ fl, e.1 < 64) (hi : exec i s = issue s sp 4 m) (hm : m (s.issued 4) = (Act.flags fl >>= fun _ => k) (s.issued 4))
    (hk : ∀ x : Word, k ((s.issued 4).modCtx (fun c => { c with num := { c.num with flags := c.num.flags ||| x } })) =
      .ok ((), (s.issued 4).modCtx (fun c =>
        { f c with num := { c.num with flags := c.num.flags ||| x, srCount := if tick then c.num.srCount + 1 else c.num.srCount } }))) :
    s.Delivers i sp tick fl f := by
  intro all hall
  have e : fl.foldl (fun t e => t ||| e.2) 0 = all := by
    apply eq_of_bitOf; intro b
    rw [orAll_bits, hall b]; simp [bitOf]
  refine ⟨fun hn => ?_, fun mk hmk hex => ?_⟩
  · rw [hi]
    apply issue_after
    have h0 : (fl.filter (fun e => e.2 &&& fld s.ctx.num.flagen 6 0 != 0)).isEmpty = true := by
      rw [List.isEmpty_iff, List.filter_eq_nil_iff]
      intro e he; simp [hn e he]
    have h1 := Act.flags_spec fl s
    rw [h0, if_pos rfl, e] at h1
    rw [hm, Act.bind_ok h1]
    exact hk (W all)
  · rw [hi]
    apply issue_raise hc
    have h0 : ¬ (fl.filter (fun e => e.2 &&& fld s.ctx.num.flagen 6 0 != 0)).isEmpty = true := by
      rw [List.isEmpty_iff, List.filter_eq_nil_iff]
      obtain ⟨e, he, h⟩ := hex
      intro hh; exact h (by simpa using hh e he)
    have h1 := Act.flags_spec fl s
    rw [if_neg h0, e] at h1
    have h2 : maskOf ((fl.filter (fun e => e.2 &&& fld s.ctx.num.flagen 6 0 != 0)).map (fun e => e.1 % 64)) = mk := by
      apply eq_of_bitOf; intro j
      rw [maskOf_bits, hmk j, List.mem_map]
      constructor
      · rintro ⟨e, he, rfl⟩
        obtain ⟨he, hb⟩ := List.mem_filter.1 he
        exact ⟨e, he, (Nat.mod_eq_of_lt (hl e he)).symm, by simpa using hb⟩
      · rintro ⟨e, he, rfl, hb⟩
        exact ⟨e, List.mem_filter.2 ⟨he, by simpa using hb⟩, Nat.mod_eq_of_lt (hl e he)⟩
    rw [h2] at h1
    rw [hm, Act.bind_error h1]

theorem fmtWidth_cases (f : Nat) : fmtWidth f = 8 ∨ fmtWidth f = 16 ∨ fmtWidth f = 32 ∨ fmtWidth f = 64 := by
  unfold fmtWidth; repeat' split
  all_goals simp

theorem elems_length (w : Nat) (v : VWord) : (elems w v).length = 512 / w := by simp [elems, lanesOf]

theorem elems_getD {w : Nat} (v : VWord) {i : Nat} (h : i < 512 / w) : (elems w v).getD i 0 = velem w v i := by
  simp [elems, lanesOf, velem, List.getD, h]

theorem ofLanes_lt (w : Nat) (l : List Nat) : ofLanes w l < 2 ^ (w * l.length) := by
  induction l with
  | nil => simp [ofLanes]
  | cons x l ih =>
    have h1 := Nat.mod_lt x (Nat.two_pow_pos w)
    show x % 2 ^ w + 2 ^ w * ofLanes w l < 2 ^ (w * (l.length + 1))
    rw [Nat.mul_succ, Nat.add_comm (w * l.length), Nat.pow_add]
    calc x % 2 ^ w + 2 ^ w * ofLanes w l < 2 ^ w + 2 ^ w * ofLanes w l := by omega
      _ = 2 ^ w * (ofLanes w l + 1) := by rw [Nat.mul_succ]; omega
      _ ≤ _ := Nat.mul_le_mul_left _ ih

theorem ofLanes_get {w : Nat} (l : List Nat) {i : Nat} (h : i < l.length) : ofLanes w l / 2 ^ (w * i) % 2 ^ w = l.getD i 0 % 2 ^ w := by
  induction l generalizing i with
  | nil => exact absurd h (Nat.not_lt_zero _)
  | cons x l ih =>
    cases i with
    | zero => simp [ofLanes]
    | succ i =>
      have e : ofLanes w (x :: l) / 2 ^ (w * (i + 1)) = ofLanes w l / 2 ^ (w * i) := by
        show (x % 2 ^ w + 2 ^ w * ofLanes w l) / _ = _
        rw [Nat.mul_succ, Nat.add_comm (w * i), Nat.pow_add, ← Nat.div_div_eq_div_mul, Nat.add_mul_div_left _ _ (Nat.two_pow_pos w),
          Nat.div_eq_of_lt (Nat.mod_lt _ (Nat.two_pow_pos w)), Nat.zero_add]
      rw [e, ih (by simpa using h)]
      simp

theorem velem_ofElems {w : Nat} (l : List Nat) (hw : w * l.length ≤ 512) {i : Nat} (h : i < l.length) :
    velem w (ofElems w l) i = l.getD i 0 % 2 ^ w := by
  unfold velem ofElems
  rw [BitVec.toNat_ofNat, Nat.mod_eq_of_lt (Nat.lt_of_lt_of_le (ofLanes_lt w l) (Nat.pow_le_pow_right (by decide) hw))]
  exact ofLanes_get l h

theorem merged_eq {w : Nat} (m : Nat) (v : VWord) (f : Nat → Res) (rs : Nat → Res)
    (h : ∀ j < 512 / w, rs j = if bitOf m j then f j else ⟨velem w v j, 0⟩) :
    merged m (elems w v) f = (List.range (512 / w)).map rs := by
  unfold merged
  rw [elems_length]
  apply List.map_congr_left
  intro j hj
  have hj := List.mem_range.1 hj
  rw [h j hj, elems_getD v hj]

/-- Writing the elements of a result list. -/
theorem State.delivers_lanes {s : State} {i : Instr} {sp tick : Bool} {w : Nat} {d : Reg} {rs : Nat → Res} {m k : Act Unit} (hc : s.Clean)
    (hw : w = 8 ∨ w = 16 ∨ w = 32 ∨ w = 64) (hi : exec i s = issue s sp 4 m)
    (hm : m (s.issued 4) = (Act.deliverV w d ((List.range (512 / w)).map rs) >>= fun _ => k) (s.issued 4))
    (hk : ∀ t : State, k t = .ok ((), if tick then t.modCtx (fun c => { c with num := { c.num with srCount := c.num.srCount + 1 } }) else t)) :
    ∃ v, (∀ j < 512 / w, velem w v j = (rs j).code % 2 ^ w)
      ∧ s.Delivers i sp tick ((List.range (512 / w)).map (fun j => (j, (rs j).fl))) (fun c => c.setV d v) := by
  have hn : 512 / w ≤ 64 ∧ w * (512 / w) ≤ 512 := by rcases hw with rfl | rfl | rfl | rfl <;> decide
  refine ⟨ofElems w (((List.range (512 / w)).map rs).map Res.code), fun j hj => ?_, ?_⟩
  · rw [velem_ofElems _ (by simpa using hn.2) (by simpa using hj)]
    simp [List.getD, hj]
  · have e : (List.range ((List.range (512 / w)).map rs).length).zip (((List.range (512 / w)).map rs).map Res.fl)
        = (List.range (512 / w)).map (fun j => (j, (rs j).fl)) := by
      rw [List.length_map, List.length_range, List.map_map]
      apply List.ext_getElem
      · simp
      · intro n h1 h2; simp
    refine State.delivers_of (k := Act.wrV d (ofElems w (((List.range (512 / w)).map rs).map Res.code)) >>= fun _ => k) hc ?_ hi ?_ ?_
    · intro q hq
      obtain ⟨j, hj, rfl⟩ := List.mem_map.1 hq
      have := List.mem_range.1 hj; simp only; omega
    · rw [hm]
      unfold Act.deliverV
      rw [e, bind_assoc]
    · intro x
      have hc2 : ((s.issued 4).modCtx (fun c => { c with num := { c.num with flags := c.num.flags ||| x } })).Clean := (hc.issued 4).modCtx rfl rfl
      rw [Act.bind_ok (Act.wrV_clean hc2 _ _), hk]
      cases tick with
      | false => simp only [Bool.false_eq_true, if_false]; rw [State.modCtx_modCtx]; rfl
      | true => simp only [if_true]; rw [State.modCtx_modCtx, State.modCtx_modCtx]; rfl

theorem Act.accepts_ok {ok : Nat → Bool} {f : Nat} {s : State} (h : ok f = true) : Act.accepts ok f s = .ok ((), s) := by
  unfold Act.accepts; rw [Act.bind_ok (Act.ctx_apply _), h]; rfl

theorem Act.accepts_bad {ok : Nat → Bool} {f : Nat} {s : State} (h : ok f = false) :
    Act.accepts ok f s = .error (.raise { eff := 0x001, arg := s.ctx.num.vt }) := by
  unfold Act.accepts; rw [Act.bind_ok (Act.ctx_apply _), h]; rfl

theorem Act.rounding_ok {s : State} {mode : Nat} (h : mode ≤ 5) (sat : Bool) (x : Word) : Act.rounding mode sat x (s.issued 4) = .ok (s.env mode sat, s.issued 4) := by
  unfold Act.rounding
  rw [decide_eq_false (by omega), Act.bind_ok (Act.check_false _ _), Act.bind_ok (Act.get_apply _)]
  rw [State.issued_num]; rfl

theorem Act.rounding_bad {s : State} {mode : Nat} (h : 6 ≤ mode) (sat : Bool) (x : Word) : Act.rounding mode sat x s = .error (.raise { eff := 0x001, arg := x }) := by
  unfold Act.rounding
  rw [decide_eq_true h, Act.bind_error (Act.check_true _ _)]; rfl

theorem Act.tick_apply (mode : Nat) (s : State) :
    Act.tick mode s = .ok ((), if mode == 5 then s.modCtx (fun c => { c with num := { c.num with srCount := c.num.srCount + 1 } }) else s) := by
  unfold Act.tick; by_cases h : mode = 5 <;> simp [h]

theorem lanewise_spec {s : State} (hc : s.Clean) {i : Instr} {sp rounds sat : Bool} {ok : Nat → Bool} {p : PReg} {d a b : Reg}
    {f : Nat → Rnd → Nat → Nat → Nat → Nat → Res} (hi : exec i s = lanewise s sp ok rounds sat p d a b f) :
    ∀ ef w, ef = fld s.ctx.num.vt 3 0 → w = fmtWidth ef →
      (ok ef = true → (rounds = true → fld s.ctx.num.vt 6 4 ≤ 5) → ∀ rs : Nat → Res,
        (∀ j < 512 / w, rs j = if flag (s.ctx.regs.getP p) j then
            f ef (s.env (if rounds then fld s.ctx.num.vt 6 4 else 0) sat) j (velem w (s.ctx.regs.getV a) j) (velem w (s.ctx.regs.getV b) j)
              (velem w (s.ctx.regs.getV d) j) else ⟨velem w (s.ctx.regs.getV d) j, 0⟩) →
          ∃ v, (∀ j < 512 / w, velem w v j = (rs j).code % 2 ^ w)
            ∧ s.Delivers i sp (rounds && fld s.ctx.num.vt 6 4 == 5) ((List.range (512 / w)).map (fun j => (j, (rs j).fl))) (fun c => c.setV d v))
      ∧ (ok ef = false → exec i s = .next (s.raised { eff := 0x001, arg := s.ctx.num.vt }))
      ∧ (ok ef = true → rounds = true → 6 ≤ fld s.ctx.num.vt 6 4 → exec i s = .next (s.raised { eff := 0x001, arg := s.ctx.num.vt })) := by
  intro ef w he hw
  have h4 := hc.issued 4
  have hef : (s.issued 4).ctx.ef = ef := by unfold Ctx.ef; rw [State.issued_num, he]
  have hrm : (s.issued 4).ctx.rm = fld s.ctx.num.vt 6 4 := by unfold Ctx.rm; rw [State.issued_num]
  unfold lanewise at hi
  refine ⟨fun ho hr rs hrs => ?_, fun ho => ?_, fun ho hr h6 => ?_⟩
  · have hmode : (if rounds then fld s.ctx.num.vt 6 4 else 0) ≤ 5 := by
      cases rounds
      · exact Nat.zero_le _
      · simpa using hr rfl
    have hw' : fmtWidth ef = w := hw.symm
    refine State.delivers_lanes (m := _) (rs := rs) (k := if rounds then Act.tick (fld s.ctx.num.vt 6 4) else pure ()) hc (hw ▸ fmtWidth_cases ef) hi ?_ ?_
    · rw [Act.bind_ok (Act.ctx_apply _), hef, hrm, Act.bind_ok (Act.accepts_ok ho), Act.bind_ok (Act.rounding_ok hmode _ _)]
      rw [Act.bind_ok (Act.rdV_clean h4 a), Act.bind_ok (Act.rdV_clean h4 b), Act.bind_ok (Act.rdV_clean h4 d), Act.bind_ok (Act.rdP_clean h4 p),
        State.issued_regs, hw']
      rw [merged_eq _ _ _ rs (fun j hj => by rw [hrs j hj, elems_getD _ hj, elems_getD _ hj, elems_getD _ hj]; rfl)]
    · intro t
      cases rounds
      · rfl
      · rw [if_pos rfl, Act.tick_apply]; simp
  · rw [hi]; apply issue_raise hc
    rw [Act.bind_ok (Act.ctx_apply _), hef, Act.bind_error (Act.accepts_bad ho), State.issued_num]
  · subst hr
    rw [hi]; apply issue_raise hc
    rw [Act.bind_ok (Act.ctx_apply _), hef, hrm, Act.bind_ok (Act.accepts_ok ho), if_pos rfl, Act.bind_error (Act.rounding_bad h6 _ _), State.issued_num]

/-- A row of the tables is what the model does. -/
theorem lane_row (op : LaneOp) {s : State} (hc : s.Clean) {sp sat : Bool} {ok : Nat → Bool} {p : PReg} {d a b b' : Reg}
    {f : Nat → Rnd → Nat → Nat → Nat → Nat → Res} (hi : exec (op.form sp sat p d a b) s = lanewise s sp ok op.rounds (op.sats && sat) p d a b' f)
    (hok : ∀ n, ok n = true ↔ op.ok n)
    (hf : ∀ ef r i x y y' z, (b = b' → y = y') → (f ef r i x y' z).code % 2 ^ fmtWidth ef = (op.elem ef r i x y z).code % 2 ^ fmtWidth ef ∧ (f ef r i x y' z).fl = (op.elem ef r i x y z).fl) :
    ∀ ef w, ef = fld s.ctx.num.vt 3 0 → w = fmtWidth ef →
      (op.ok ef → (op.rounds = true → fld s.ctx.num.vt 6 4 ≤ 5) →
        ∀ rs : Nat → Res,
          (∀ j, rs j = if flag (s.ctx.regs.getP p) j then
              op.elem ef (s.env (if op.rounds then fld s.ctx.num.vt 6 4 else 0) (op.sats && sat)) j
                (velem w (s.ctx.regs.getV a) j) (velem w (s.ctx.regs.getV b) j) (velem w (s.ctx.regs.getV d) j)
            else ⟨velem w (s.ctx.regs.getV d) j, 0⟩) →
          ∃ v, (∀ j < 512 / w, velem w v j = (rs j).code % 2 ^ w)
            ∧ s.Delivers (op.form sp sat p d a b) sp (op.rounds && fld s.ctx.num.vt 6 4 == 5) ((List.range (512 / w)).map (fun j => (j, (rs j).fl)))
                (fun c => c.setV d v))
      ∧ (¬ op.ok ef → exec (op.form sp sat p d a b) s = .next (s.raised { eff := 0x001, arg := s.ctx.num.vt }))
      ∧ (op.ok ef → op.rounds = true → 6 ≤ fld s.ctx.num.vt 6 4 →
          exec (op.form sp sat p d a b) s = .next (s.raised { eff := 0x001, arg := s.ctx.num.vt })) := by
  intro ef w he hw
  obtain ⟨h1, h2, h3⟩ := lanewise_spec hc hi ef w he hw
  refine ⟨fun ho hr rs hrs => ?_, fun ho => h2 (Bool.eq_false_iff.2 (fun e => ho ((hok _).1 e))), fun ho hr h6 => h3 ((hok _).2 ho) hr h6⟩
  obtain ⟨v, hv, hd⟩ := h1 ((hok _).2 ho) hr (fun j => if flag (s.ctx.regs.getP p) j then
            f ef (s.env (if op.rounds then fld s.ctx.num.vt 6 4 else 0) (op.sats && sat)) j (velem w (s.ctx.regs.getV a) j) (velem w (s.ctx.regs.getV b') j)
              (velem w (s.ctx.regs.getV d) j) else ⟨velem w (s.ctx.regs.getV d) j, 0⟩) (fun j _ => rfl)
  refine ⟨v, fun j hj => ?_, ?_⟩
  · rw [hv j hj, hrs j]
    cases flag (s.ctx.regs.getP p) j with
    | false => rfl
    | true => simp only [if_true]; subst hw; exact (hf ef _ _ _ _ _ _ (fun e => by rw [e])).1
  · refine (congrArg (fun l => s.Delivers (op.form sp sat p d a b) sp (op.rounds && fld s.ctx.num.vt 6 4 == 5) l (fun c => c.setV d v)) ?_).mp hd
    apply List.map_congr_left
    intro j _
    rw [hrs j]
    cases flag (s.ctx.regs.getP p) j with
    | false => rfl
    | true => simp only [if_true]; rw [(hf ef _ _ _ (velem w (s.ctx.regs.getV b) j) _ _ (fun e => by rw [e])).2]

theorem int_ok (n : Nat) : fmtInt n = true ↔ n ≤ 6 := by simp [fmtInt]; omega

theorem mod_mod_self (x w : Nat) : x % 2 ^ w % 2 ^ w = x % 2 ^ w := Nat.mod_mod _ _

theorem fl_ok (n : Nat) : decide (12 ≤ n) = true ↔ 12 ≤ n := by simp

theorem intLanes_rows (op : LaneOp) (hop : op ∈ intLanes) {s : State} (sp sat : Bool) (p : PReg) (d a b : Reg) :
    ∃ ok b' f, exec (op.form sp sat p d a b) s = lanewise s sp ok op.rounds (op.sats && sat) p d a b' f ∧ (∀ n, ok n = true ↔ op.ok n) ∧
      (∀ ef r i x y y' z, (b = b' → y = y') → (f ef r i x y' z).code % 2 ^ fmtWidth ef = (op.elem ef r i x y z).code % 2 ^ fmtWidth ef ∧ (f ef r i x y' z).fl = (op.elem ef r i x y z).fl) := by
  simp only [intLanes, List.mem_cons, List.not_mem_nil, or_false] at hop
  rcases hop with rfl | rfl | rfl | rfl | rfl | rfl | rfl | rfl | rfl | rfl | rfl | rfl | rfl
  · exact ⟨fmtInt, b, (fun ef r _ x y _ => intRule ef r.sat ((fun x y => x + y) (intOf ef x) (intOf ef y))), rfl, int_ok, fun _ _ _ _ _ _ _ h => by rw [h rfl]; exact ⟨rfl, rfl⟩⟩
  · exact ⟨fmtInt, b, (fun ef r _ x y _ => intRule ef r.sat ((fun x y => x - y) (intOf ef x) (intOf ef y))), rfl, int_ok, fun _ _ _ _ _ _ _ h => by rw [h rfl]; exact ⟨rfl, rfl⟩⟩
  · exact ⟨fmtInt, b, (fun ef r _ x y _ => intRule ef r.sat ((fun x y => x * y) (intOf ef x) (intOf ef y))), rfl, int_ok, fun _ _ _ _ _ _ _ h => by rw [h rfl]; exact ⟨rfl, rfl⟩⟩
  · exact ⟨fmtInt, b, (fun ef _ _ x y _ => ⟨intCode ef (intOf ef x * intOf ef y / 2 ^ fmtWidth ef), 0⟩), rfl, int_ok, fun _ _ _ _ _ _ _ h => by rw [h rfl]; exact ⟨rfl, rfl⟩⟩
  · exact ⟨fmtInt, b, (fun ef r _ x y _ => intRule ef r.sat ((fun x y => min x y) (intOf ef x) (intOf ef y))), rfl, int_ok, fun _ _ _ _ _ _ _ h => by rw [h rfl]; exact ⟨rfl, rfl⟩⟩
  · exact ⟨fmtInt, b, (fun ef r _ x y _ => intRule ef r.sat ((fun x y => max x y) (intOf ef x) (intOf ef y))), rfl, int_ok, fun _ _ _ _ _ _ _ h => by rw [h rfl]; exact ⟨rfl, rfl⟩⟩
  · exact ⟨fmtInt, b, (fun ef _ _ x y _ => ⟨(fun _ x y => x &&& y) (fmtWidth ef) x y % 2 ^ fmtWidth ef, 0⟩), rfl, int_ok, fun _ _ _ _ _ _ _ h => by rw [h rfl]; exact ⟨mod_mod_self _ _, rfl⟩⟩
  · exact ⟨fmtInt, b, (fun ef _ _ x y _ => ⟨(fun _ x y => x ||| y) (fmtWidth ef) x y % 2 ^ fmtWidth ef, 0⟩), rfl, int_ok, fun _ _ _ _ _ _ _ h => by rw [h rfl]; exact ⟨mod_mod_self _ _, rfl⟩⟩
  · exact ⟨fmtInt, b, (fun ef _ _ x y _ => ⟨(fun _ x y => x ^^^ y) (fmtWidth ef) x y % 2 ^ fmtWidth ef, 0⟩), rfl, int_ok, fun _ _ _ _ _ _ _ h => by rw [h rfl]; exact ⟨mod_mod_self _ _, rfl⟩⟩
  · exact ⟨fmtInt, b, (fun ef _ _ x y _ => ⟨(fun w x y => if w ≤ y then 0 else x * 2 ^ y) (fmtWidth ef) x y % 2 ^ fmtWidth ef, 0⟩), rfl, int_ok, fun _ _ _ _ _ _ _ h => by rw [h rfl]; exact ⟨mod_mod_self _ _, rfl⟩⟩
  · exact ⟨fmtInt, b, (fun ef _ _ x y _ => ⟨(fun w x y => if w ≤ y then 0 else x / 2 ^ y) (fmtWidth ef) x y % 2 ^ fmtWidth ef, 0⟩), rfl, int_ok, fun _ _ _ _ _ _ _ h => by rw [h rfl]; exact ⟨mod_mod_self _ _, rfl⟩⟩
  · exact ⟨fmtInt, b, (fun ef _ _ x y _ => ⟨(fun w x y => wrapTo w (toSigned w x / 2 ^ min y (w - 1))) (fmtWidth ef) x y % 2 ^ fmtWidth ef, 0⟩), rfl, int_ok, fun _ _ _ _ _ _ _ h => by rw [h rfl]; exact ⟨mod_mod_self _ _, rfl⟩⟩
  · exact ⟨fmtInt, a, (fun ef r _ x y _ => intRule ef r.sat ((intOf ef x).natAbs : Nat)), rfl, int_ok, fun _ _ _ _ _ _ _ _ => ⟨rfl, rfl⟩⟩

theorem floatLanes_rows (op : LaneOp) (hop : op ∈ floatLanes) {s : State} (sp sat : Bool) (p : PReg) (d a b : Reg) :
    ∃ ok b' f, exec (op.form sp sat p d a b) s = lanewise s sp ok op.rounds (op.sats && sat) p d a b' f ∧ (∀ n, ok n = true ↔ op.ok n) ∧
      (∀ ef r i x y y' z, (b = b' → y = y') → (f ef r i x y' z).code % 2 ^ fmtWidth ef = (op.elem ef r i x y z).code % 2 ^ fmtWidth ef ∧ (f ef r i x y' z).fl = (op.elem ef r i x y z).fl) := by
  simp only [floatLanes, List.mem_cons, List.not_mem_nil, or_false] at hop
  rcases hop with rfl | rfl | rfl | rfl | rfl | rfl | rfl | rfl | rfl | rfl | rfl | rfl | rfl | rfl
  · exact ⟨(12 ≤ ·), b, (fun ef r i x y z => (fun (ef : Nat) (r : Rnd) (i : Nat) (x y _ : Num) => fAdd ef r i x y) ef r i (numOf ef x) (numOf ef y) (numOf ef z)), rfl, fl_ok, fun _ _ _ _ _ _ _ h => by rw [h rfl]; exact ⟨rfl, rfl⟩⟩
  · exact ⟨(12 ≤ ·), b, (fun ef r i x y z => (fun (ef : Nat) (r : Rnd) (i : Nat) (x y _ : Num) => fAdd ef r i x y.negate) ef r i (numOf ef x) (numOf ef y) (numOf ef z)), rfl, fl_ok, fun _ _ _ _ _ _ _ h => by rw [h rfl]; exact ⟨rfl, rfl⟩⟩
  · exact ⟨(12 ≤ ·), b, (fun ef r i x y z => (fun (ef : Nat) (r : Rnd) (i : Nat) (x y _ : Num) => fMul ef r i x y) ef r i (numOf ef x) (numOf ef y) (numOf ef z)), rfl, fl_ok, fun _ _ _ _ _ _ _ h => by rw [h rfl]; exact ⟨rfl, rfl⟩⟩
  · exact ⟨(12 ≤ ·), b, (fun ef r i x y z => (fun (ef : Nat) (r : Rnd) (i : Nat) (x y z : Num) => fMa ef r i x y z) ef r i (numOf ef x) (numOf ef y) (numOf ef z)), rfl, fl_ok, fun _ _ _ _ _ _ _ h => by rw [h rfl]; exact ⟨rfl, rfl⟩⟩
  · exact ⟨(12 ≤ ·), b, (fun ef r i x y z => (fun (ef : Nat) (r : Rnd) (i : Nat) (x y z : Num) => fMa ef r i x y z.negate) ef r i (numOf ef x) (numOf ef y) (numOf ef z)), rfl, fl_ok, fun _ _ _ _ _ _ _ h => by rw [h rfl]; exact ⟨rfl, rfl⟩⟩
  · exact ⟨(12 ≤ ·), b, (fun ef r i x y z => (fun (ef : Nat) (r : Rnd) (i : Nat) (x y z : Num) => fMa ef r i x.negate y z) ef r i (numOf ef x) (numOf ef y) (numOf ef z)), rfl, fl_ok, fun _ _ _ _ _ _ _ h => by rw [h rfl]; exact ⟨rfl, rfl⟩⟩
  · exact ⟨(12 ≤ ·), b, (fun ef r i x y z => (fun (ef : Nat) (r : Rnd) (i : Nat) (x y _ : Num) => fDiv ef r i x y) ef r i (numOf ef x) (numOf ef y) (numOf ef z)), rfl, fl_ok, fun _ _ _ _ _ _ _ h => by rw [h rfl]; exact ⟨rfl, rfl⟩⟩
  · exact ⟨(12 ≤ ·), a, (fun ef r i x y z => (fun (ef : Nat) (r : Rnd) (i : Nat) (x _ _ : Num) => fSqrt ef r i x) ef r i (numOf ef x) (numOf ef y) (numOf ef z)), rfl, fl_ok, fun _ _ _ _ _ _ _ _ => ⟨rfl, rfl⟩⟩
  · exact ⟨(12 ≤ ·), a, (fun ef r i x y z => (fun (ef : Nat) (r : Rnd) (i : Nat) (x _ _ : Num) => fRcp ef r i x) ef r i (numOf ef x) (numOf ef y) (numOf ef z)), rfl, fl_ok, fun _ _ _ _ _ _ _ _ => ⟨rfl, rfl⟩⟩
  · exact ⟨(12 ≤ ·), a, (fun ef r i x y z => (fun (ef : Nat) (r : Rnd) (i : Nat) (x _ _ : Num) => fRsq ef r i x) ef r i (numOf ef x) (numOf ef y) (numOf ef z)), rfl, fl_ok, fun _ _ _ _ _ _ _ _ => ⟨rfl, rfl⟩⟩
  · exact ⟨(12 ≤ ·), b, (fun ef _ _ x y _ => fPick ef false x y), rfl, fl_ok, fun _ _ _ _ _ _ _ h => by rw [h rfl]; exact ⟨rfl, rfl⟩⟩
  · exact ⟨(12 ≤ ·), b, (fun ef _ _ x y _ => fPick ef true x y), rfl, fl_ok, fun _ _ _ _ _ _ _ h => by rw [h rfl]; exact ⟨rfl, rfl⟩⟩
  · exact ⟨(12 ≤ ·), a, (fun ef _ _ x _ _ => ⟨fClass ef x, 0⟩), rfl, fl_ok, fun _ _ _ _ _ _ _ _ => ⟨rfl, rfl⟩⟩
  · exact ⟨(12 ≤ ·), b, (fun ef r i x y _ =>
    let k := toSigned (fmtWidth ef) y
    let k := max (-10000) (min 10000 k)
    match numOf ef x with
    | .fin v => roundNum ef r.mode r.sat (r.rho i) (.fin (v.scale k))
    | v => roundNum ef r.mode r.sat (r.rho i) v), rfl, fl_ok, fun _ _ _ _ _ _ _ h => by rw [h rfl]; exact ⟨rfl, rfl⟩⟩

theorem lanes_rules :
    ∀ op ∈ intLanes ++ floatLanes, ∀ (s : State) (sp sat : Bool) (p : PReg) (d a b : Reg), s.Clean →
    ∀ f w, f = fld s.ctx.num.vt 3 0 → w = fmtWidth f →
      (op.ok f → (op.rounds = true → fld s.ctx.num.vt 6 4 ≤ 5) →
        ∀ rs : Nat → Res,
          (∀ j, rs j = if flag (s.ctx.regs.getP p) j then
              op.elem f (s.env (if op.rounds then fld s.ctx.num.vt 6 4 else 0) (op.sats && sat)) j
                (velem w (s.ctx.regs.getV a) j) (velem w (s.ctx.regs.getV b) j) (velem w (s.ctx.regs.getV d) j)
            else ⟨velem w (s.ctx.regs.getV d) j, 0⟩) →
          ∃ v, (∀ j < 512 / w, velem w v j = (rs j).code % 2 ^ w)
            ∧ s.Delivers (op.form sp sat p d a b) sp (op.rounds && fld s.ctx.num.vt 6 4 == 5) ((List.range (512 / w)).map (fun j => (j, (rs j).fl)))
                (fun c => c.setV d v))
      ∧ (¬ op.ok f → exec (op.form sp sat p d a b) s = .next (s.raised { eff := 0x001, arg := s.ctx.num.vt }))
      ∧ (op.ok f → op.rounds = true → 6 ≤ fld s.ctx.num.vt 6 4 →
          exec (op.form sp sat p d a b) s = .next (s.raised { eff := 0x001, arg := s.ctx.num.vt })) := by
  intro op hop s sp sat p d a b hc
  have h : ∃ ok b' f, exec (op.form sp sat p d a b) s = lanewise s sp ok op.rounds (op.sats && sat) p d a b' f ∧ (∀ n, ok n = true ↔ op.ok n) ∧
      (∀ ef r i x y y' z, (b = b' → y = y') → (f ef r i x y' z).code % 2 ^ fmtWidth ef = (op.elem ef r i x y z).code % 2 ^ fmtWidth ef ∧ (f ef r i x y' z).fl = (op.elem ef r i x y z).fl) := by
    rcases List.mem_append.1 hop with h | h
    · exact intLanes_rows op h sp sat p d a b
    · exact floatLanes_rows op h sp sat p d a b
  obtain ⟨ok, b', f, h1, h2, h3⟩ := h
  exact lane_row op hc h1 h2 h3

end Sys2Proof.Machine
end

