-- ==== Sys2Proof/Laws/Comparisons.lean ====
section
/-! SUPPORT. Vector compares and predicate instructions. -/

set_option Elab.async false

namespace Sys2Proof.Machine

theorem flag_getLsbD (x : Word) (j : Nat) : flag x j = x.getLsbD j := bitOf_testBit _ _

theorem predOp_spec {s : State} (hc : s.Clean) {i : Instr} {sp : Bool} {d a b : PReg} {f : Word → Word → Word} (hi : exec i s = predOp s sp d a b f) :
    exec i s = .next (s.after sp 4 (fun c => c.setP d (f (s.ctx.regs.getP a) (s.ctx.regs.getP b)))) := by
  have h4 := hc.issued 4
  rw [hi]; unfold predOp
  apply issue_after
  rw [Act.bind_ok (Act.rdP_clean h4 a), Act.bind_ok (Act.rdP_clean h4 b), Act.wrP_clean h4, State.issued_regs]

theorem predicates_rules :
    ∀ (s : State) (sp : Bool), s.Clean →
    (∀ row ∈ predRows, ∀ (d a b : PReg), ∃ r, row.2 (s.ctx.regs.getP a) (s.ctx.regs.getP b) r
      ∧ exec (row.1 sp d a b) s = .next (s.after sp 4 (fun c => c.setP d r)))
    ∧ (∀ (d : Reg) (a : PReg), exec (.vmovPredToGpr sp d a) s = .next (s.afterG sp 4 d (s.ctx.regs.getP a)))
    ∧ (∀ (d : PReg) (a : Reg), exec (.vmovGprToPred sp d a) s = .next (s.after sp 4 (fun c => c.setP d (s.ctx.g a)))) := by
  intro s sp hc
  have h4 := hc.issued 4
  refine ⟨fun row hr d a b => ?_, fun d a => ?_, fun d a => ?_⟩
  · simp only [predRows, List.mem_cons, List.not_mem_nil, or_false] at hr
    rcases hr with rfl | rfl | rfl | rfl | rfl | rfl | rfl
    · exact ⟨_, fun j => by simp [flag_getLsbD], predOp_spec hc (f := fun x y => x &&& y) rfl⟩
    · exact ⟨_, fun j => by simp [flag_getLsbD], predOp_spec hc (f := fun x y => x ||| y) rfl⟩
    · exact ⟨_, fun j => by simp [flag_getLsbD], predOp_spec hc (f := fun x y => x ^^^ y) rfl⟩
    · exact ⟨_, fun j hj => by simp [flag_getLsbD, hj], predOp_spec hc (b := a) (f := fun x _ => ~~~x) rfl⟩
    · refine ⟨_, ?_, predOp_spec hc (b := a) (f := fun x _ => W ((List.range 64).filter (fun i => flag x i)).length) rfl⟩
      have := List.length_filter_le (fun i => flag (s.ctx.regs.getP a) i) (List.range 64)
      rw [List.length_range] at this
      show (BitVec.ofNat 64 _).toNat = _
      rw [BitVec.toNat_ofNat, Nat.mod_eq_of_lt (by omega)]
    · refine ⟨_, fun j hj => ?_, predOp_spec hc (b := a) (f := fun x _ => x &&& (0 - x)) rfl⟩
      simp only [flag_getLsbD, BitVec.getLsbD_and, Bool.and_eq_true]
      have e : (0 : Word) - s.ctx.regs.getP a = - s.ctx.regs.getP a := BitVec.zero_sub _
      rw [e, BitVec.getLsbD_neg]
      constructor
      · rintro ⟨h1, h2⟩
        refine ⟨h1, fun k hk => ?_⟩
        rw [h1] at h2
        cases hb : (s.ctx.regs.getP a).getLsbD k with
        | false => rfl
        | true =>
          exfalso
          have : decide (∃ k < j, (s.ctx.regs.getP a).getLsbD k = true) = true := decide_eq_true ⟨k, hk, hb⟩
          rw [this] at h2; simp at h2; omega
      · rintro ⟨h1, h2⟩
        refine ⟨h1, ?_⟩
        have : decide (∃ k < j, (s.ctx.regs.getP a).getLsbD k = true) = false := by
          apply decide_eq_false; rintro ⟨k, hk, hb⟩; rw [h2 k hk] at hb; cases hb
        rw [this, h1]; simp [hj]
    · refine ⟨_, fun j hj => ?_, predOp_spec hc (b := a) (f := fun x _ => prefixMask x.toNat) rfl⟩
      unfold prefixMask
      rw [flag_getLsbD]
      simp only [BitVec.getLsbD_ofNat, Nat.testBit_two_pow_sub_one]
      simp [hj] <;> omega
  · apply issue_after
    rw [Act.bind_ok (Act.rdP_clean h4 a), Act.wrG_clean h4, State.issued_regs]
  · apply issue_after
    rw [Act.bind_ok (Act.rdG_clean h4 a), Act.wrP_clean h4, State.issued_g]

theorem compareOp_spec {s : State} (hc : s.Clean) {i : Instr} {sp : Bool} {ok : Nat → Bool} {d p : PReg} {a b : Reg} {g : Nat → Nat → Nat → Bool × Nat}
    (hi : exec i s = compareOp s sp ok false d p a b g) {f w : Nat} (hf : f = fld s.ctx.num.vt 3 0) (hw : w = fmtWidth f) (ho : ok f = true)
    {r : Nat} (hr : ∀ j, bitOf r j = true ↔ j < 512 / w ∧ flag (s.ctx.regs.getP p) j = true ∧
      (g f (velem w (s.ctx.regs.getV a) j) (velem w (s.ctx.regs.getV b) j)).1 = true) :
    s.Delivers i sp false (((List.range (512 / w)).filter (fun j => flag (s.ctx.regs.getP p) j)).map (fun j =>
        (j, (g f (velem w (s.ctx.regs.getV a) j) (velem w (s.ctx.regs.getV b) j)).2))) (fun c => c.setP d (W r)) := by
  have h4 := hc.issued 4
  have hef : (s.issued 4).ctx.ef = f := by unfold Ctx.ef; rw [State.issued_num, hf]
  have hn : 512 / w ≤ 64 := by rcases hw ▸ fmtWidth_cases f with h | h | h | h <;> rw [h] <;> decide
  unfold compareOp at hi
  refine State.delivers_of (m := _) (k := Act.wrP d (W r)) hc ?_ hi ?_ ?_
  · intro q hq
    obtain ⟨j, hj, rfl⟩ := List.mem_map.1 hq
    have := List.mem_range.1 (List.mem_filter.1 hj).1
    simp only; omega
  · rw [Act.bind_ok (Act.ctx_apply _), hef, Act.bind_ok (Act.accepts_ok ho), Act.bind_ok (Act.check_false _ _),
      Act.bind_ok (Act.rdV_clean h4 a), Act.bind_ok (Act.rdV_clean h4 b), Act.bind_ok (Act.rdP_clean h4 p), State.issued_regs, ← hw]
    have e : (List.filter (fun i => bitOf (s.ctx.regs.getP p).toNat i) (List.range (elems w (s.ctx.regs.getV a)).length)).map
        (fun i => (i, g f ((elems w (s.ctx.regs.getV a)).getD i 0) ((elems w (s.ctx.regs.getV b)).getD i 0)))
        = (List.filter (fun j => flag (s.ctx.regs.getP p) j) (List.range (512 / w))).map (fun j => (j, g f (velem w (s.ctx.regs.getV a) j) (velem w (s.ctx.regs.getV b) j))) := by
      rw [elems_length]
      apply List.map_congr_left
      intro j hj
      have hj := List.mem_range.1 (List.mem_filter.1 hj).1
      rw [elems_getD _ hj, elems_getD _ hj]
    rw [e, List.map_map]
    have e2 : maskOf ((((List.filter (fun j => flag (s.ctx.regs.getP p) j) (List.range (512 / w))).map
        (fun j => (j, g f (velem w (s.ctx.regs.getV a) j) (velem w (s.ctx.regs.getV b) j)))).filter (fun e => e.2.1)).map (fun e => e.1)) = r := by
      apply eq_of_bitOf; intro j
      rw [maskOf_bits, hr j]
      simp only [List.mem_map, List.mem_filter, List.mem_range]
      constructor
      · rintro ⟨q, ⟨⟨k, ⟨h1, h2⟩, rfl⟩, h3⟩, rfl⟩; exact ⟨h1, h2, h3⟩
      · rintro ⟨h1, h2, h3⟩; exact ⟨_, ⟨⟨j, ⟨h1, h2⟩, rfl⟩, h3⟩, rfl⟩
    rw [e2]; rfl
  · intro x
    have hc2 : ((s.issued 4).modCtx (fun c => { c with num := { c.num with flags := c.num.flags ||| x } })).Clean := h4.modCtx rfl rfl
    rw [Act.wrP_clean hc2, State.modCtx_modCtx]
    rfl

theorem intCompare_iff {m : Nat} (hm : m ≤ 5) (x y : Int) : intCompare m x y = true ↔ intHolds m x y := by
  have : m = 0 ∨ m = 1 ∨ m = 2 ∨ m = 3 ∨ m = 4 ∨ m = 5 := by omega
  rcases this with rfl | rfl | rfl | rfl | rfl | rfl <;> simp [intCompare, intHolds]

theorem fCompare_iff {m : Nat} (hm : m < 8) (x y : Num) : (fCompare m x y).1 = true ↔ numHolds m x y := by
  have : m = 0 ∨ m = 1 ∨ m = 2 ∨ m = 3 ∨ m = 4 ∨ m = 5 ∨ m = 6 ∨ m = 7 := by omega
  rcases this with rfl | rfl | rfl | rfl | rfl | rfl | rfl | rfl <;> simp [fCompare, numHolds]

theorem fCompare_flag (m : Nat) (x y : Num) : (fCompare m x y).2 = compareFlag m x y := by
  unfold fCompare compareFlag Fl.nv
  simp only [Bool.or_eq_true, Bool.and_eq_true, decide_eq_true_eq, and_assoc]

theorem exec_vcmp (s : State) (sp : Bool) (m : BitVec 3) (d p : PReg) (a b : Reg) : exec (.vcmp sp m d p a b) s =
    compareOp s sp fmtInt (decide (6 ≤ m.toNat)) d p a b (fun ef x y => (intCompare m.toNat (intOf ef x) (intOf ef y), 0)) := rfl

theorem exec_vfcmp (s : State) (sp : Bool) (m : BitVec 3) (d p : PReg) (a b : Reg) : exec (.vfcmp sp m d p a b) s =
    compareOp s sp (12 ≤ ·) false d p a b (fun ef x y => fCompare m.toNat (numOf ef x) (numOf ef y)) := rfl

theorem compares_rules :
    ∀ (s : State) (sp : Bool) (m : BitVec 3) (d p : PReg) (a b : Reg), s.Clean →
    ∀ f w x y, f = fld s.ctx.num.vt 3 0 → w = fmtWidth f → x = (fun j => velem w (s.ctx.regs.getV a) j) → y = (fun j => velem w (s.ctx.regs.getV b) j) →
      (f ≤ 6 → m.toNat ≤ 5 → ∀ r, (∀ j, bitOf r j = true ↔ j < 512 / w ∧ flag (s.ctx.regs.getP p) j = true ∧ intHolds m.toNat (intOf f (x j)) (intOf f (y j))) →
        exec (.vcmp sp m d p a b) s = .next (s.after sp 4 (fun c => c.setP d (W r))))
      ∧ (12 ≤ f → ∀ r, (∀ j, bitOf r j = true ↔ j < 512 / w ∧ flag (s.ctx.regs.getP p) j = true ∧ numHolds m.toNat (numOf f (x j)) (numOf f (y j))) →
        s.Delivers (.vfcmp sp m d p a b) sp false
          (((List.range (512 / w)).filter (fun j => flag (s.ctx.regs.getP p) j)).map (fun j => (j, compareFlag m.toNat (numOf f (x j)) (numOf f (y j)))))
          (fun c => c.setP d (W r)))
      ∧ (f ≤ 6 → 6 ≤ m.toNat → exec (.vcmp sp m d p a b) s = .next (s.raised { eff := 0x001 }))
      ∧ (7 ≤ f → exec (.vcmp sp m d p a b) s = .next (s.raised { eff := 0x001, arg := s.ctx.num.vt }))
      ∧ (f < 12 → exec (.vfcmp sp m d p a b) s = .next (s.raised { eff := 0x001, arg := s.ctx.num.vt })) := by
  intro s sp m d p a b hc f w x y hf hw hx hy
  have h4 := hc.issued 4
  have hef : (s.issued 4).ctx.ef = f := by unfold Ctx.ef; rw [State.issued_num, hf]
  subst hx hy
  refine ⟨fun ho hm r hr => ?_, fun ho r hr => ?_, fun ho hm => ?_, fun ho => ?_, fun ho => ?_⟩
  · have hi : exec (.vcmp sp m d p a b) s = compareOp s sp fmtInt false d p a b (fun ef x y => (intCompare m.toNat (intOf ef x) (intOf ef y), 0)) := by
      have : decide (6 ≤ m.toNat) = false := decide_eq_false (by omega)
      rw [exec_vcmp, this]
    have h := compareOp_spec (r := r) hc hi hf hw ((int_ok f).2 ho) (fun j => by rw [hr j, intCompare_iff hm])
    obtain ⟨h1, _⟩ := h 0 (fun k => by simp [bitOf] <;> intros <;> subst_vars <;> simp)
    rw [h1 (fun e he => by obtain ⟨j, _, rfl⟩ := List.mem_map.1 he; simp)]
    congr 1; apply State.after_congr
    simp [Ctx.setP]
  · have h := compareOp_spec (i := .vfcmp sp m d p a b) (r := r) (ok := (12 ≤ ·)) (g := fun ef x y => fCompare m.toNat (numOf ef x) (numOf ef y)) hc (exec_vfcmp s sp m d p a b) hf hw
      (decide_eq_true ho) (fun j => by rw [hr j, fCompare_iff m.isLt])
    refine (congrArg (fun l => s.Delivers _ sp false l (fun c => c.setP d (W r))) ?_).mp h
    apply List.map_congr_left
    intro j _; rw [fCompare_flag]
  · have : decide (6 ≤ m.toNat) = true := decide_eq_true (by omega)
    rw [exec_vcmp, this]
    apply issue_raise hc
    rw [Act.bind_ok (Act.ctx_apply _), hef, Act.bind_ok (Act.accepts_ok ((int_ok f).2 ho)), Act.bind_error (Act.check_true _ _)]; rfl
  · rw [exec_vcmp]
    apply issue_raise hc
    rw [Act.bind_ok (Act.ctx_apply _), hef,
      Act.bind_error (Act.accepts_bad (Bool.eq_false_iff.2 (fun e => by have := (int_ok f).1 e; omega))), State.issued_num]
  · rw [exec_vfcmp]
    apply issue_raise hc
    rw [Act.bind_ok (Act.ctx_apply _), hef,
      Act.bind_error (Act.accepts_bad (decide_eq_false (by omega))), State.issued_num]

end Sys2Proof.Machine
end

