-- ==== Sys2Proof/Laws/Conversions.lean ====
section
/-! SUPPORT. VCVT, VPACK, VUNPACK and VCFG. -/

set_option Elab.async false

namespace Sys2Proof.Machine

theorem vcfg_rules {s : State} (hc : s.Clean) (sp : Bool) (d a : Reg) (x : Word) (hx : x = s.ctx.g a) :
    (fld x 63 48 = 0 ∧ fld x 15 12 = 0 ∧ flag x 7 = false ∧ fld x 6 4 ≤ 5 →
      exec (.vcfg sp d a) s = .next (s.after sp 4 (fun c => { c.setG d (W (512 / fmtWidth (fld x 3 0))) with num := { c.num with vt := x } })))
    ∧ (¬ (fld x 63 48 = 0 ∧ fld x 15 12 = 0 ∧ flag x 7 = false ∧ fld x 6 4 ≤ 5) → exec (.vcfg sp d a) s = .next (s.raised { eff := 0x001, arg := x })) := by
  have h4 := hc.issued 4
  have hb : (fld x 63 48 != 0 || fld x 15 12 != 0 || flag x 7 || decide (6 ≤ fld x 6 4)) = false ↔ (fld x 63 48 = 0 ∧ fld x 15 12 = 0 ∧ flag x 7 = false ∧ fld x 6 4 ≤ 5) := by
    simp only [Bool.or_eq_false_iff, bne_eq_false_iff_eq, decide_eq_false_iff_not, and_assoc, Nat.not_le]
    have : fld x 6 4 < 6 ↔ fld x 6 4 ≤ 5 := by omega
    rw [this]
  refine ⟨fun h => ?_, fun h => ?_⟩
  · apply issue_after
    rw [Act.bind_ok (Act.rdG_clean h4 a), State.issued_g, ← hx, hb.2 h, Act.bind_ok (Act.check_false _ _), Act.bind_ok (Act.wrG_clean h4 _ _), Act.updCtx_apply,
      State.modCtx_modCtx]
    rfl
  · apply issue_raise hc
    rw [Act.bind_ok (Act.rdG_clean h4 a), State.issued_g, ← hx, eq_true_of_not (fun e => h (hb.1 e)), Act.bind_error (Act.check_true _ _)]; rfl

theorem vcvt_rules {s : State} (hc : s.Clean) (sp sat : Bool) (p : PReg) (d a : Reg) (n : BitVec 5) (f g rm : Nat)
    (hf : f = fld s.ctx.num.vt 3 0) (hg : g = fld s.ctx.num.vt 11 8) (hr : rm = fld s.ctx.num.vt 6 4) (h7 : g ≠ 7) (h5 : rm ≤ 5)
    (hn : n.toNat < max (fmtWidth f) (fmtWidth g) / min (fmtWidth f) (fmtWidth g)) (cnt : Nat) (rs : Nat → Res) (hcnt : cnt = 512 / max (fmtWidth f) (fmtWidth g))
    (hrs : ∀ j, rs j = if fmtWidth g ≤ fmtWidth f then
              (if n.toNat * cnt ≤ j ∧ j < n.toNat * cnt + cnt ∧ flag (s.ctx.regs.getP p) j = true then convert f g (s.env rm sat) j (velem (fmtWidth f) (s.ctx.regs.getV a) (j - n.toNat * cnt))
                else ⟨velem (fmtWidth g) (s.ctx.regs.getV d) j, 0⟩)
            else (if j < cnt ∧ flag (s.ctx.regs.getP p) j = true then convert f g (s.env rm sat) j (velem (fmtWidth f) (s.ctx.regs.getV a) (n.toNat * cnt + j))
                else ⟨velem (fmtWidth g) (s.ctx.regs.getV d) j, 0⟩)) :
    s.Lanes (.vcvt sp sat p d a n) sp (rm == 5) (fmtWidth g) d rs := by
  have h4 := hc.issued 4
  have hef : (s.issued 4).ctx.ef = f := by unfold Ctx.ef; rw [State.issued_num, hf]
  have hcf : (s.issued 4).ctx.cf = g := by unfold Ctx.cf; rw [State.issued_num, hg]
  have hrm : (s.issued 4).ctx.rm = rm := by unfold Ctx.rm; rw [State.issued_num, hr]
  refine State.delivers_lanes (rs := rs) (k := Act.tick rm) hc (fmtWidth_cases g) (rfl : exec (.vcvt sp sat p d a n) s = issue s sp 4 _) ?_ ?_
  · rw [Act.bind_ok (Act.ctx_apply _), hef, hcf, hrm, Act.bind_ok (Act.accepts_ok (by simpa using h7))]
    dsimp only
    rw [decide_eq_false (by omega), Act.bind_ok (Act.check_false _ _), Act.bind_ok (Act.rounding_ok h5 _ _), Act.bind_ok (Act.rdV_clean h4 a),
      Act.bind_ok (Act.rdV_clean h4 d), Act.bind_ok (Act.rdP_clean h4 p), State.issued_regs, ← hcnt]
    have e : (List.range (elems (fmtWidth g) (s.ctx.regs.getV d)).length).map (fun j =>
        if ((if fmtWidth g ≤ fmtWidth f then decide (n.toNat * cnt ≤ j) && decide (j < n.toNat * cnt + cnt) else decide (j < cnt)) && bitOf (s.ctx.regs.getP p).toNat j) = true then
          convert f g (s.env rm sat) j ((elems (fmtWidth f) (s.ctx.regs.getV a)).getD (if fmtWidth g ≤ fmtWidth f then j - n.toNat * cnt else n.toNat * cnt + j) 0)
        else ⟨(elems (fmtWidth g) (s.ctx.regs.getV d)).getD j 0, 0⟩) = (List.range (512 / fmtWidth g)).map rs := by
      rw [elems_length]
      apply List.map_congr_left
      intro j hj
      have hj := List.mem_range.1 hj
      rw [hrs j, elems_getD _ hj]
      by_cases hw : fmtWidth g ≤ fmtWidth f
      · rw [if_pos hw, if_pos hw, if_pos hw]
        by_cases h : n.toNat * cnt ≤ j ∧ j < n.toNat * cnt + cnt ∧ flag (s.ctx.regs.getP p) j = true
        · rw [if_pos h, if_pos (by obtain ⟨h1, h2, h3⟩ := h; unfold flag at h3; simp [h1, h2, h3]), elems_getD _ (by rw [Nat.max_eq_left hw] at hcnt; omega)]
        · rw [if_neg h, if_neg (by unfold flag at h; simpa [and_assoc] using h)]
      · rw [if_neg hw, if_neg hw, if_neg hw]
        by_cases h : j < cnt ∧ flag (s.ctx.regs.getP p) j = true
        · have hlt : n.toNat * cnt + j < 512 / fmtWidth f := by
            have h2 : n.toNat + 1 ≤ fmtWidth g / fmtWidth f := by
              rw [Nat.max_eq_right (by omega), Nat.min_eq_left (by omega)] at hn; omega
            rw [Nat.max_eq_right (by omega)] at hcnt
            have h3 : (n.toNat + 1) * cnt ≤ fmtWidth g / fmtWidth f * cnt := Nat.mul_le_mul_right _ h2
            rw [Nat.add_mul, Nat.one_mul] at h3
            have h5 : fmtWidth g / fmtWidth f * cnt ≤ 512 / fmtWidth f := by
              rw [hcnt]
              rcases fmtWidth_cases f with h | h | h | h <;> rcases fmtWidth_cases g with h' | h' | h' | h' <;> rw [h, h'] <;> decide
            omega
          rw [if_pos h, if_pos (by obtain ⟨h1, h3⟩ := h; unfold flag at h3; simp [h1, h3]), elems_getD _ hlt]
        · rw [if_neg h, if_neg (by unfold flag at h; simpa using h)]
    rw [e]
  · intro t; exact Act.tick_apply rm t

theorem vcvtBad_rules {s : State} (hc : s.Clean) (sp sat : Bool) (p : PReg) (d a : Reg) (n : BitVec 5) (f g rm : Nat)
    (hf : f = fld s.ctx.num.vt 3 0) (hg : g = fld s.ctx.num.vt 11 8) (hr : rm = fld s.ctx.num.vt 6 4) :
    (g = 7 ∨ g ≠ 7 ∧ n.toNat < max (fmtWidth f) (fmtWidth g) / min (fmtWidth f) (fmtWidth g) ∧ 6 ≤ rm →
          exec (.vcvt sp sat p d a n) s = .next (s.raised { eff := 0x001, arg := s.ctx.num.vt }))
      ∧ (g ≠ 7 → max (fmtWidth f) (fmtWidth g) / min (fmtWidth f) (fmtWidth g) ≤ n.toNat →
          exec (.vcvt sp sat p d a n) s = .next (s.raised { eff := 0x001, arg := W n.toNat })) := by
  have hef : (s.issued 4).ctx.ef = f := by unfold Ctx.ef; rw [State.issued_num, hf]
  have hcf : (s.issued 4).ctx.cf = g := by unfold Ctx.cf; rw [State.issued_num, hg]
  have hrm : (s.issued 4).ctx.rm = rm := by unfold Ctx.rm; rw [State.issued_num, hr]
  refine ⟨fun h => ?_, fun h7 hn => ?_⟩
  · apply issue_raise hc
    rcases h with h7 | ⟨h7, hn, h6⟩
    · rw [Act.bind_ok (Act.ctx_apply _), hcf, Act.bind_error (Act.accepts_bad (by simpa using h7)), State.issued_num]
    · rw [Act.bind_ok (Act.ctx_apply _), hef, hcf, hrm, Act.bind_ok (Act.accepts_ok (by simpa using h7))]
      dsimp only
      rw [decide_eq_false (by omega), Act.bind_ok (Act.check_false _ _), Act.bind_error (Act.rounding_bad h6 _ _), State.issued_num]
  · apply issue_raise hc
    rw [Act.bind_ok (Act.ctx_apply _), hef, hcf, hrm, Act.bind_ok (Act.accepts_ok (by simpa using h7))]
    dsimp only
    rw [decide_eq_true hn, Act.bind_error (Act.check_true _ _)]; rfl

theorem narrow_width {f : Nat} (h2 : 2 ≤ f) (h6 : f ≤ 6) : 512 / fmtWidth (narrower f) = 512 / fmtWidth f + 512 / fmtWidth f := by
  have : f = 2 ∨ f = 3 ∨ f = 4 ∨ f = 5 ∨ f = 6 := by omega
  rcases this with rfl | rfl | rfl | rfl | rfl <;> decide

theorem wide_width {f : Nat} (h : f ≤ 5) : fmtWidth (wider f) = 2 * fmtWidth f := by
  have : f = 0 ∨ f = 1 ∨ f = 2 ∨ f = 3 ∨ f = 4 ∨ f = 5 := by omega
  rcases this with rfl | rfl | rfl | rfl | rfl | rfl <;> decide

theorem getD_append_elems (w : Nat) (x y : VWord) {j : Nat} (h : j < 512 / w + 512 / w) :
    (elems w x ++ elems w y).getD j 0 = if j < 512 / w then velem w x j else velem w y (j - 512 / w) := by
  rw [List.getD_eq_getElem?_getD, List.getElem?_append, elems_length]
  by_cases hj : j < 512 / w
  · rw [if_pos hj, if_pos hj, ← List.getD_eq_getElem?_getD, elems_getD _ hj]
  · rw [if_neg hj, if_neg hj, ← List.getD_eq_getElem?_getD, elems_getD _ (by omega)]

theorem vpack_rules {s : State} (hc : s.Clean) (sp sat : Bool) (p : PReg) (d a b : Reg) (f : Nat) (hf : f = fld s.ctx.num.vt 3 0) :
    (2 ≤ f → f ≤ 6 → ∀ h rs, h = (if f = 6 then 4 else f - 2) →
        (∀ j, rs j = if flag (s.ctx.regs.getP p) j then intRule h sat (intOf f (if j < 512 / fmtWidth f then velem (fmtWidth f) (s.ctx.regs.getV a) j
            else velem (fmtWidth f) (s.ctx.regs.getV b) (j - 512 / fmtWidth f))) else ⟨velem (fmtWidth h) (s.ctx.regs.getV d) j, 0⟩) →
        s.Lanes (.vpack sp sat p d a b) sp false (fmtWidth h) d rs)
      ∧ (f < 2 ∨ 6 < f → exec (.vpack sp sat p d a b) s = .next (s.raised { eff := 0x001, arg := s.ctx.num.vt })) := by
  have h4 := hc.issued 4
  have hef : (s.issued 4).ctx.ef = f := by unfold Ctx.ef; rw [State.issued_num, hf]
  refine ⟨fun h2 h6 h rs hh hrs => ?_, fun h => ?_⟩
  · have hh : narrower f = h := hh.symm
    refine State.delivers_lanes (rs := rs) (k := pure ()) hc (fmtWidth_cases h) (rfl : exec (.vpack sp sat p d a b) s = issue s sp 4 _) ?_ (fun _ => rfl)
    rw [Act.bind_ok (Act.ctx_apply _), hef, Act.bind_ok (Act.accepts_ok (by simp [h2, h6]))]
    dsimp only
    rw [Act.bind_ok (Act.rdV_clean h4 a), Act.bind_ok (Act.rdV_clean h4 b),
      Act.bind_ok (Act.rdV_clean h4 d), Act.bind_ok (Act.rdP_clean h4 p), State.issued_regs]
    rw [hh, merged_eq _ _ _ rs (fun j hj => by rw [hrs j, getD_append_elems _ _ _ (by rw [← narrow_width h2 h6, hh]; exact hj)]; rfl), bind_pure_unit]
  · apply issue_raise hc
    rw [Act.bind_ok (Act.ctx_apply _), hef, Act.bind_error (Act.accepts_bad (by simp; omega)), State.issued_num]

theorem vunpack_rules {s : State} (hc : s.Clean) (sp : Bool) (p : PReg) (d a : Reg) (n : BitVec 5) (f : Nat) (hf : f = fld s.ctx.num.vt 3 0) :
    (f ≤ 5 → n.toNat < 2 → ∀ w rs, w = 2 * fmtWidth f →
          (∀ j, rs j = if flag (s.ctx.regs.getP p) j then ⟨wrapTo w (intOf f (velem (fmtWidth f) (s.ctx.regs.getV a) (n.toNat * (512 / w) + j))), 0⟩
            else ⟨velem w (s.ctx.regs.getV d) j, 0⟩) →
          s.Lanes (.vunpack sp p d a n) sp false w d rs)
      ∧ (5 < f → exec (.vunpack sp p d a n) s = .next (s.raised { eff := 0x001, arg := s.ctx.num.vt }))
      ∧ (f ≤ 5 → 2 ≤ n.toNat → exec (.vunpack sp p d a n) s = .next (s.raised { eff := 0x001, arg := W n.toNat })) := by
  have h4 := hc.issued 4
  have hef : (s.issued 4).ctx.ef = f := by unfold Ctx.ef; rw [State.issued_num, hf]
  refine ⟨fun h5 hn w rs hw hrs => ?_, fun h => ?_, fun h5 hn => ?_⟩
  · have hww := wide_width h5
    have hw8 : w = 8 ∨ w = 16 ∨ w = 32 ∨ w = 64 := by rw [hw, ← hww]; exact fmtWidth_cases _
    refine State.delivers_lanes (rs := rs) (k := pure ()) hc hw8 (rfl : exec (.vunpack sp p d a n) s = issue s sp 4 _) ?_ (fun _ => rfl)
    rw [Act.bind_ok (Act.ctx_apply _), hef, Act.bind_ok (Act.accepts_ok (by simpa using h5)), decide_eq_false (by omega), Act.bind_ok (Act.check_false _ _)]
    dsimp only
    rw [Act.bind_ok (Act.rdV_clean h4 a), Act.bind_ok (Act.rdV_clean h4 d), Act.bind_ok (Act.rdP_clean h4 p), State.issued_regs, hww, ← hw, elems_length]
    have h2w : 512 / fmtWidth f = 2 * (512 / w) := by
      rw [hw]; rcases fmtWidth_cases f with h | h | h | h <;> rw [h] <;> decide
    rw [merged_eq _ _ _ rs (fun j hj => by
      rw [hrs j, elems_getD _ (by
        have : n.toNat = 0 ∨ n.toNat = 1 := by omega
        rcases this with h | h <;> rw [h] <;> omega)]; rfl), bind_pure_unit]
  · apply issue_raise hc
    rw [Act.bind_ok (Act.ctx_apply _), hef, Act.bind_error (Act.accepts_bad (by simpa using h)), State.issued_num]
  · apply issue_raise hc
    rw [Act.bind_ok (Act.ctx_apply _), hef, Act.bind_ok (Act.accepts_ok (by simpa using h5)), decide_eq_true (by omega), Act.bind_error (Act.check_true _ _)]; rfl

theorem conversions_rules :
    ∀ (s : State) (sp sat : Bool) (p : PReg) (d a b : Reg) (n : BitVec 5), s.Clean →
    ∀ (vt : Word) (f g rm : Nat) (va vb : Nat → Nat → Nat) (old : Nat → Nat → Nat) (act : Nat → Bool), vt = s.ctx.num.vt → f = fld vt 3 0 → g = fld vt 11 8 → rm = fld vt 6 4 →
      va = (fun w j => velem w (s.ctx.regs.getV a) j) → vb = (fun w j => velem w (s.ctx.regs.getV b) j) → old = (fun w j => velem w (s.ctx.regs.getV d) j) →
      act = (fun j => flag (s.ctx.regs.getP p) j) →
      -- VCVT
      (g ≠ 7 → rm ≤ 5 → n.toNat < max (fmtWidth f) (fmtWidth g) / min (fmtWidth f) (fmtWidth g) →
        ∀ cnt rs, cnt = 512 / max (fmtWidth f) (fmtWidth g) →
          (∀ j, rs j = if fmtWidth g ≤ fmtWidth f then
              (if n.toNat * cnt ≤ j ∧ j < n.toNat * cnt + cnt ∧ act j = true then convert f g (s.env rm sat) j (va (fmtWidth f) (j - n.toNat * cnt))
                else ⟨old (fmtWidth g) j, 0⟩)
            else (if j < cnt ∧ act j = true then convert f g (s.env rm sat) j (va (fmtWidth f) (n.toNat * cnt + j)) else ⟨old (fmtWidth g) j, 0⟩)) →
          s.Lanes (.vcvt sp sat p d a n) sp (rm == 5) (fmtWidth g) d rs)
      ∧ (g = 7 ∨ g ≠ 7 ∧ n.toNat < max (fmtWidth f) (fmtWidth g) / min (fmtWidth f) (fmtWidth g) ∧ 6 ≤ rm →
          exec (.vcvt sp sat p d a n) s = .next (s.raised { eff := 0x001, arg := vt }))
      ∧ (g ≠ 7 → max (fmtWidth f) (fmtWidth g) / min (fmtWidth f) (fmtWidth g) ≤ n.toNat →
          exec (.vcvt sp sat p d a n) s = .next (s.raised { eff := 0x001, arg := W n.toNat }))
      -- VPACK
      ∧ (2 ≤ f → f ≤ 6 → ∀ h rs, h = (if f = 6 then 4 else f - 2) →
          (∀ j, rs j = if act j then intRule h sat (intOf f (if j < 512 / fmtWidth f then va (fmtWidth f) j else vb (fmtWidth f) (j - 512 / fmtWidth f)))
            else ⟨old (fmtWidth h) j, 0⟩) →
          s.Lanes (.vpack sp sat p d a b) sp false (fmtWidth h) d rs)
      ∧ (f < 2 ∨ 6 < f → exec (.vpack sp sat p d a b) s = .next (s.raised { eff := 0x001, arg := vt }))
      -- VUNPACK
      ∧ (f ≤ 5 → n.toNat < 2 → ∀ w rs, w = 2 * fmtWidth f →
          (∀ j, rs j = if act j then ⟨wrapTo w (intOf f (va (fmtWidth f) (n.toNat * (512 / w) + j))), 0⟩ else ⟨old w j, 0⟩) →
          s.Lanes (.vunpack sp p d a n) sp false w d rs)
      ∧ (5 < f → exec (.vunpack sp p d a n) s = .next (s.raised { eff := 0x001, arg := vt }))
      ∧ (f ≤ 5 → 2 ≤ n.toNat → exec (.vunpack sp p d a n) s = .next (s.raised { eff := 0x001, arg := W n.toNat }))
      -- VCFG
      ∧ (∀ x, x = s.ctx.g a →
          (fld x 63 48 = 0 ∧ fld x 15 12 = 0 ∧ flag x 7 = false ∧ fld x 6 4 ≤ 5 →
            exec (.vcfg sp d a) s = .next (s.after sp 4 (fun c => { c.setG d (W (512 / fmtWidth (fld x 3 0))) with num := { c.num with vt := x } })))
          ∧ (¬ (fld x 63 48 = 0 ∧ fld x 15 12 = 0 ∧ flag x 7 = false ∧ fld x 6 4 ≤ 5) →
            exec (.vcfg sp d a) s = .next (s.raised { eff := 0x001, arg := x }))) := by
  intro s sp sat p d a b n hc vt f g rm va vb old act hvt hf hg hr hva hvb ho hact
  subst hvt hva hvb ho hact
  obtain ⟨p1, p2⟩ := vpack_rules hc sp sat p d a b f hf
  obtain ⟨u1, u2, u3⟩ := vunpack_rules hc sp p d a n f hf
  obtain ⟨c1, c2⟩ := vcvtBad_rules hc sp sat p d a n f g rm hf hg hr
  exact ⟨fun h7 h5 hn cnt rs hcnt hrs => vcvt_rules hc sp sat p d a n f g rm hf hg hr h7 h5 hn cnt rs hcnt hrs, c1, c2, p1, p2, u1, u2, u3, fun x hx => vcfg_rules hc sp d a x hx⟩

end Sys2Proof.Machine
end

