-- ==== Sys2Proof/Laws/VectorMoves.lean ====
section
/-! SUPPORT. Moves of vector elements. -/

set_option Elab.async false

namespace Sys2Proof.Machine

theorem velem_lt (w : Nat) (v : VWord) (j : Nat) : velem w v j < 2 ^ w := Nat.mod_lt _ (Nat.two_pow_pos w)

theorem lanes_fit {w : Nat} (hw : w = 8 ∨ w = 16 ∨ w = 32 ∨ w = 64) : 512 / w ≤ 64 ∧ w * (512 / w) = 512 ∧ 0 < 512 / w := by
  rcases hw with rfl | rfl | rfl | rfl <;> decide

theorem velem_ofElems_all {w : Nat} (l : List Nat) (hw : w * l.length ≤ 512) {i : Nat} : velem w (ofElems w l) i = l.getD i 0 % 2 ^ w := by
  by_cases h : i < l.length
  · exact velem_ofElems l hw h
  · unfold velem ofElems
    rw [BitVec.toNat_ofNat, Nat.mod_eq_of_lt (Nat.lt_of_lt_of_le (ofLanes_lt w l) (Nat.pow_le_pow_right (by decide) hw)),
      Nat.div_eq_of_lt (Nat.lt_of_lt_of_le (ofLanes_lt w l) (Nat.pow_le_pow_right (by decide) (Nat.mul_le_mul_left w (by omega))))]
    simp [List.getD, List.getElem?_eq_none (by omega : l.length ≤ i)]

/-- The elements of a register written from a function. -/
theorem velem_range {w : Nat} (hw : w = 8 ∨ w = 16 ∨ w = 32 ∨ w = 64) (e : Nat → Nat) {j : Nat} (hj : j < 512 / w) :
    velem w (ofElems w ((List.range (512 / w)).map e)) j = e j % 2 ^ w := by
  rw [velem_ofElems _ (by simp [(lanes_fit hw).2.1]) (by simpa using hj)]
  simp [List.getD, hj]

theorem merged_codes {w : Nat} (m : Nat) (v : VWord) (e : Nat → Nat) :
    (merged m (elems w v) (fun i => ⟨e i, 0⟩)).map Res.code = (List.range (512 / w)).map (fun j => if bitOf m j then e j else velem w v j) := by
  rw [merged_eq m v _ (fun j => if bitOf m j then ⟨e j, 0⟩ else ⟨velem w v j, 0⟩) (fun _ _ => rfl), List.map_map]
  apply List.map_congr_left
  intro j _; simp only [Function.comp]; split <;> rfl

/-- A move whose elements are known. -/
theorem move_spec {s : State} {i : Instr} {sp : Bool} {d : Reg} {w : Nat} {m : Act Unit} (hc : s.Clean) (hw : w = 8 ∨ w = 16 ∨ w = 32 ∨ w = 64)
    (hi : exec i s = issue s sp 4 m) (p : PReg) (e E : Nat → Nat)
    (hm : m (s.issued 4) = Act.wrV d (ofElems w ((merged (s.ctx.regs.getP p).toNat (elems w (s.ctx.regs.getV d)) (fun i => ⟨e i, 0⟩)).map Res.code)) (s.issued 4))
    (he : ∀ j < 512 / w, e j % 2 ^ w = E j) :
    ∃ v, (∀ j < 512 / w, velem w v j = if flag (s.ctx.regs.getP p) j then E j else velem w (s.ctx.regs.getV d) j)
      ∧ exec i s = .next (s.after sp 4 (fun c => c.setV d v)) := by
  rw [merged_codes, Act.wrV_clean (hc.issued 4)] at hm
  refine ⟨_, fun j hj => ?_, by rw [hi]; exact issue_after hm⟩
  rw [velem_range hw _ hj]
  show (if flag (s.ctx.regs.getP p) j = true then _ else _) % 2 ^ w = _
  split
  · exact he j hj
  · exact Nat.mod_eq_of_lt (velem_lt _ _ _)

theorem exec_moves (s : State) (sp : Bool) (p : PReg) (d a b : Reg) :
    exec (.vmov sp p d a) s = moveOp s sp p d a a (fun i x _ _ => x.getD i 0)
    ∧ exec (.vshuf sp p d a b) s = moveOp s sp p d a b (fun i x y _ => x.getD (y.getD i 0 % x.length) 0)
    ∧ exec (.vperm sp p d a b) s = moveOp s sp p d a b (fun i x y old =>
        let j := old.getD i 0 % (2 * x.length)
        if j < x.length then x.getD j 0 else y.getD (j - x.length) 0) := ⟨rfl, rfl, rfl⟩

theorem moveOp_spec {s : State} {i : Instr} {sp : Bool} {p : PReg} {d a b : Reg} {g : Nat → List Nat → List Nat → List Nat → Nat} {w : Nat} (hc : s.Clean)
    (hi : exec i s = moveOp s sp p d a b g) (hw : w = fmtWidth (fld s.ctx.num.vt 3 0)) (E : Nat → Nat)
    (he : ∀ j < 512 / w, g j (elems w (s.ctx.regs.getV a)) (elems w (s.ctx.regs.getV b)) (elems w (s.ctx.regs.getV d)) % 2 ^ w = E j) :
    ∃ v, (∀ j < 512 / w, velem w v j = if flag (s.ctx.regs.getP p) j then E j else velem w (s.ctx.regs.getV d) j)
      ∧ exec i s = .next (s.after sp 4 (fun c => c.setV d v)) := by
  have h4 := hc.issued 4
  have hef : fmtWidth (s.issued 4).ctx.ef = w := by unfold Ctx.ef; rw [State.issued_num, hw]
  refine move_spec hc (hw ▸ fmtWidth_cases _) hi p _ E ?_ he
  rw [Act.bind_ok (Act.ctx_apply _), hef]
  dsimp only
  rw [Act.bind_ok (Act.rdV_clean h4 a), Act.bind_ok (Act.rdV_clean h4 b), Act.bind_ok (Act.rdV_clean h4 d), Act.bind_ok (Act.rdP_clean h4 p), State.issued_regs]

theorem moves_rules :
    ∀ (s : State) (sp : Bool) (p : PReg) (d a b : Reg), s.Clean →
    ∀ (f w n : Nat) (ga gb : Word) (x y old : Nat → Nat) (act : Nat → Bool), f = fld s.ctx.num.vt 3 0 → w = fmtWidth f → n = 512 / w →
      ga = s.ctx.g a → gb = s.ctx.g b →
      x = (fun j => velem w (s.ctx.regs.getV a) j) → y = (fun j => velem w (s.ctx.regs.getV b) j) → old = (fun j => velem w (s.ctx.regs.getV d) j) →
      act = (fun j => flag (s.ctx.regs.getP p) j) →
      (∀ row ∈ moveRows n, ∃ v, (∀ j < n, velem w v j = if act j then row.2 w ga gb x y old act j else old j)
        ∧ exec (row.1 sp p d a b) s = .next (s.after sp 4 (fun c => c.setV d v)))
      ∧ (∃ v, (∀ j < n, velem w v j = if act j then x j else y j) ∧ exec (.vsel sp p d a b) s = .next (s.after sp 4 (fun c => c.setV d v)))
      ∧ (∃ v, (∀ j < n, velem w v j = (((List.range n).filter act).map x).getD j 0) ∧ exec (.vcompress sp p d a) s = .next (s.after sp 4 (fun c => c.setV d v)))
      ∧ (gb.toNat < n → exec (.vext sp d a b) s = .next (s.afterG sp 4 d (if f ∈ [0, 2, 4, 6] then sext64 w (x gb.toNat) else W (x gb.toNat))))
      ∧ (n ≤ gb.toNat → exec (.vext sp d a b) s = .next (s.raised { eff := 0x001, arg := gb }))
      ∧ (gb.toNat < n → ∃ v, (∀ j < n, velem w v j = if j = gb.toNat then ga.toNat % 2 ^ w else old j)
          ∧ exec (.vins sp d a b) s = .next (s.after sp 4 (fun c => c.setV d v)))
      ∧ (n ≤ gb.toNat → exec (.vins sp d a b) s = .next (s.raised { eff := 0x001, arg := gb })) := by
  intro s sp p d a b hc f w n ga gb x y old act hf hw hn hga hgb hx hy ho hact
  subst hf hga hgb hx hy ho hact hn
  have h4 := hc.issued 4
  have hw8 : w = 8 ∨ w = 16 ∨ w = 32 ∨ w = 64 := hw ▸ fmtWidth_cases _
  have hef : fmtWidth (s.issued 4).ctx.ef = w := by unfold Ctx.ef; rw [State.issued_num, hw]
  obtain ⟨f1, f2, f3⟩ := lanes_fit hw8
  obtain ⟨e1, e2, e3⟩ := exec_moves s sp p d a b
  refine ⟨fun row hr => ?_, ?_, ?_, fun hg => ?_, fun hg => ?_, fun hg => ?_, fun hg => ?_⟩
  · simp only [moveRows, List.mem_cons, List.not_mem_nil, or_false] at hr
    rcases hr with rfl | rfl | rfl | rfl | rfl | rfl
    · exact moveOp_spec hc e1 hw _ (fun j hj => by rw [elems_getD _ hj]; exact Nat.mod_eq_of_lt (velem_lt _ _ _))
    · refine move_spec hc hw8 (rfl : exec (.vbcast sp p d a) s = issue s sp 4 _) p (fun _ => (s.ctx.g a).toNat % 2 ^ w) _ ?_ (fun _ _ => Nat.mod_mod _ _)
      rw [Act.bind_ok (Act.ctx_apply _), hef]
      dsimp only
      rw [Act.bind_ok (Act.rdG_clean h4 a), Act.bind_ok (Act.rdV_clean h4 d), Act.bind_ok (Act.rdP_clean h4 p), State.issued_regs, State.issued_g]
    · exact moveOp_spec hc e2 hw _ (fun j hj => by
        rw [elems_getD _ hj, elems_length, elems_getD _ (Nat.mod_lt _ f3)]; exact Nat.mod_eq_of_lt (velem_lt _ _ _))
    · refine moveOp_spec hc e3 hw _ (fun j hj => ?_)
      dsimp only
      rw [elems_getD _ hj, elems_length]
      have hlt := Nat.mod_lt (velem w (s.ctx.regs.getV d) j) (show 0 < 2 * (512 / w) by omega)
      split
      · rename_i h; rw [elems_getD _ h]; exact Nat.mod_eq_of_lt (velem_lt _ _ _)
      · rw [elems_getD _ (by omega)]; exact Nat.mod_eq_of_lt (velem_lt _ _ _)
    · refine move_spec hc hw8 (rfl : exec (.vslide sp p d a b) s = issue s sp 4 _) p (fun j => if 0 ≤ (j : Int) + (s.ctx.g b).toInt ∧ (j : Int) + (s.ctx.g b).toInt < (elems w (s.ctx.regs.getV a)).length
          then (elems w (s.ctx.regs.getV a)).getD ((j : Int) + (s.ctx.g b).toInt).toNat 0 else 0) _ ?_ (fun j hj => ?_)
      · rw [Act.bind_ok (Act.ctx_apply _), hef]
        dsimp only
        rw [Act.bind_ok (Act.rdV_clean h4 a), Act.bind_ok (Act.rdG_clean h4 b), Act.bind_ok (Act.rdV_clean h4 d), Act.bind_ok (Act.rdP_clean h4 p), State.issued_regs, State.issued_g]
      · rw [elems_length]
        show _ = if 0 ≤ (j : Int) + (s.ctx.g b).toInt ∧ (j : Int) + (s.ctx.g b).toInt < (512 / w : Nat) then velem w (s.ctx.regs.getV a) ((j : Int) + (s.ctx.g b).toInt).toNat else 0
        by_cases h : 0 ≤ (j : Int) + (s.ctx.g b).toInt ∧ (j : Int) + (s.ctx.g b).toInt < (512 / w : Nat)
        · rw [if_pos h, if_pos h, elems_getD _ (by omega)]; exact Nat.mod_eq_of_lt (velem_lt _ _ _)
        · rw [if_neg h, if_neg h]; exact Nat.zero_mod _
    · refine move_spec hc hw8 (rfl : exec (.vexpand sp p d a) s = issue s sp 4 _) p
        (fun j => (elems w (s.ctx.regs.getV a)).getD ((List.range j).filter (fun k => flag (s.ctx.regs.getP p) k)).length 0) _ ?_ (fun j hj => ?_)
      · rw [Act.bind_ok (Act.ctx_apply _), hef]
        dsimp only
        rw [Act.bind_ok (Act.rdV_clean h4 a), Act.bind_ok (Act.rdV_clean h4 d), Act.bind_ok (Act.rdP_clean h4 p), State.issued_regs]
        rfl
      · have := List.length_filter_le (fun k => flag (s.ctx.regs.getP p) k) (List.range j)
        rw [List.length_range] at this
        rw [elems_getD _ (by omega)]; exact Nat.mod_eq_of_lt (velem_lt _ _ _)
  · refine ⟨ofElems w ((List.range (512 / w)).map (fun i => if bitOf (s.ctx.regs.getP p).toNat i then (elems w (s.ctx.regs.getV a)).getD i 0 else (elems w (s.ctx.regs.getV b)).getD i 0)), fun j hj => ?_, ?_⟩
    rotate_left
    · apply issue_after
      rw [Act.bind_ok (Act.ctx_apply _), hef]
      dsimp only
      rw [Act.bind_ok (Act.rdV_clean h4 a), Act.bind_ok (Act.rdV_clean h4 b), Act.bind_ok (Act.rdP_clean h4 p), State.issued_regs, Act.wrV_clean h4, elems_length]
    · rw [velem_range hw8 _ hj, elems_getD _ hj, elems_getD _ hj]
      show (if flag (s.ctx.regs.getP p) j = true then _ else _) % 2 ^ w = _
      split <;> exact Nat.mod_eq_of_lt (velem_lt _ _ _)
  · refine ⟨ofElems w (selected (s.ctx.regs.getP p).toNat (elems w (s.ctx.regs.getV a))), fun j hj => ?_, ?_⟩
    rotate_left
    · apply issue_after
      rw [Act.bind_ok (Act.ctx_apply _), hef]
      dsimp only
      rw [Act.bind_ok (Act.rdV_clean h4 a), Act.bind_ok (Act.rdP_clean h4 p), State.issued_regs, Act.wrV_clean h4]
    · have e : selected (s.ctx.regs.getP p).toNat (elems w (s.ctx.regs.getV a)) = ((List.range (512 / w)).filter (fun k => flag (s.ctx.regs.getP p) k)).map (fun k => velem w (s.ctx.regs.getV a) k) := by
        unfold selected
        rw [elems_length]
        apply List.map_congr_left
        intro k hk
        exact elems_getD _ (List.mem_range.1 (List.mem_filter.1 hk).1)
      have hl := List.length_filter_le (fun k => flag (s.ctx.regs.getP p) k) (List.range (512 / w))
      rw [List.length_range] at hl
      rw [e, velem_ofElems_all _ (by rw [List.length_map]; exact Nat.le_trans (Nat.mul_le_mul_left w hl) (by omega))]
      apply Nat.mod_eq_of_lt
      rw [List.getD_eq_getElem?_getD, List.getElem?_map]
      cases ((List.range (512 / w)).filter (fun k => flag (s.ctx.regs.getP p) k))[j]? with
      | none => exact Nat.two_pow_pos _
      | some k => exact velem_lt _ _ _
  · have hc1 : decide ((elems w (s.ctx.regs.getV a)).length ≤ (s.ctx.g b).toNat) = false := decide_eq_false (by rw [elems_length]; omega)
    apply issue_after
    rw [Act.bind_ok (Act.ctx_apply _)]
    dsimp only
    rw [hef, Act.bind_ok (Act.rdV_clean h4 a), Act.bind_ok (Act.rdG_clean h4 b), State.issued_regs, State.issued_g, hc1, Act.bind_ok (Act.check_false _ _), Act.wrG_clean h4,
      elems_getD _ hg]
    have e : fmtSigned (s.issued 4).ctx.ef = true ↔ fld s.ctx.num.vt 3 0 ∈ [0, 2, 4, 6] := by
      unfold Ctx.ef; rw [State.issued_num]; simp [fmtSigned, or_assoc]
    by_cases hs : fld s.ctx.num.vt 3 0 ∈ [0, 2, 4, 6]
    · rw [if_pos hs, if_pos (e.2 hs)]
    · rw [if_neg hs, if_neg (fun h => hs (e.1 h))]
  · have hc1 : decide ((elems w (s.ctx.regs.getV a)).length ≤ (s.ctx.g b).toNat) = true := decide_eq_true (by rw [elems_length]; omega)
    apply issue_raise hc
    rw [Act.bind_ok (Act.ctx_apply _)]
    dsimp only
    rw [hef, Act.bind_ok (Act.rdV_clean h4 a), Act.bind_ok (Act.rdG_clean h4 b), State.issued_regs, State.issued_g, hc1, Act.bind_error (Act.check_true _ _)]; rfl
  · have hc1 : decide ((elems w (s.ctx.regs.getV d)).length ≤ (s.ctx.g b).toNat) = false := decide_eq_false (by rw [elems_length]; omega)
    refine ⟨ofElems w ((elems w (s.ctx.regs.getV d)).set (s.ctx.g b).toNat ((s.ctx.g a).toNat % 2 ^ w)), fun j hj => ?_, ?_⟩
    rotate_left
    · apply issue_after
      rw [Act.bind_ok (Act.ctx_apply _), hef]
      dsimp only
      rw [Act.bind_ok (Act.rdG_clean h4 a), Act.bind_ok (Act.rdG_clean h4 b), Act.bind_ok (Act.rdV_clean h4 d), State.issued_regs, State.issued_g, State.issued_g, hc1,
        Act.bind_ok (Act.check_false _ _), Act.wrV_clean h4]
    · rw [velem_ofElems _ (by rw [List.length_set, elems_length]; omega) (by rw [List.length_set, elems_length]; exact hj)]
      rw [List.getD_eq_getElem?_getD, List.getElem?_set, elems_length]
      by_cases h : (s.ctx.g b).toNat = j
      · rw [if_pos h, if_pos (by omega), if_pos h.symm]; exact Nat.mod_mod _ _
      · rw [if_neg h, if_neg (fun e => h e.symm), ← List.getD_eq_getElem?_getD, elems_getD _ hj]; exact Nat.mod_eq_of_lt (velem_lt _ _ _)
  · have hc1 : decide ((elems w (s.ctx.regs.getV d)).length ≤ (s.ctx.g b).toNat) = true := decide_eq_true (by rw [elems_length]; omega)
    apply issue_raise hc
    rw [Act.bind_ok (Act.ctx_apply _), hef]
    dsimp only
    rw [Act.bind_ok (Act.rdG_clean h4 a), Act.bind_ok (Act.rdG_clean h4 b), Act.bind_ok (Act.rdV_clean h4 d), State.issued_regs, State.issued_g, State.issued_g, hc1,
        Act.bind_error (Act.check_true _ _)]; rfl

end Sys2Proof.Machine
end

