-- ==== Sys2Proof/Laws/Reductions.lean ====
section
/-! SUPPORT. Reductions and VDOT over the tree of 03 R88. -/

set_option Elab.async false

namespace Sys2Proof.Machine

theorem range_double {α : Type} (n : Nat) (g : Nat → α) : (List.range (2 * (n + 1))).map g = g 0 :: g 1 :: (List.range (2 * n)).map (fun i => g (i + 2)) := by
  rw [show 2 * (n + 1) = 2 * n + 1 + 1 by omega, List.range_succ_eq_map, List.map_cons, List.map_map, List.range_succ_eq_map, List.map_cons, List.map_map]
  rfl

/-- Combines the nodes 2i and 2i + 1. -/
def combine (f : Nat → Nat → Nat → Res) (g : Nat → Node) (i : Nat) : Node :=
  match g (2 * i), g (2 * i + 1) with
  | some (m, u), some (_, v) => some (m, (f m u v).code)
  | some u, none => some u
  | none, v => v

def combineFlag (f : Nat → Nat → Nat → Res) (g : Nat → Node) (i : Nat) : Option (Nat × Nat) :=
  match g (2 * i), g (2 * i + 1) with
  | some (m, u), some (_, v) => some (m, (f m u v).fl)
  | _, _ => none

theorem treeLevel_range (f : Nat → Nat → Nat → Res) (n : Nat) (g : Nat → Node) :
    treeLevel f ((List.range (2 * n)).map g) = ((List.range n).map (combine f g), (List.range n).filterMap (combineFlag f g)) := by
  induction n generalizing g with
  | zero => rfl
  | succ n ih =>
    rw [range_double, List.range_succ_eq_map, List.map_cons, List.map_map, List.filterMap_cons, List.filterMap_map]
    have e1 : (combine f g ∘ Nat.succ) = combine f (fun i => g (i + 2)) := by
      funext i; simp only [Function.comp, combine]; rw [show 2 * i.succ = 2 * i + 2 by omega, show 2 * i + 2 + 1 = 2 * i + 1 + 2 by omega]
    have e2 : (combineFlag f g ∘ Nat.succ) = combineFlag f (fun i => g (i + 2)) := by
      funext i; simp only [Function.comp, combineFlag]; rw [show 2 * i.succ = 2 * i + 2 by omega, show 2 * i + 2 + 1 = 2 * i + 1 + 2 by omega]
    rw [e1, e2]
    have h0 : combine f g 0 = match g 0, g 1 with
      | some (m, u), some (_, v) => some (m, (f m u v).code)
      | some u, none => some u
      | none, v => v := rfl
    have h1 : combineFlag f g 0 = match g 0, g 1 with
      | some (m, u), some (_, v) => some (m, (f m u v).fl)
      | _, _ => none := rfl
    rw [h0, h1]
    simp only [treeLevel]
    rw [ih]
    cases g 0 with
    | none => rfl
    | some u => cases g 1 <;> rfl

theorem tree_range (f : Nat → Nat → Nat → Res) (x : Nat → Nat) (act : Nat → Bool) (K k : Nat) :
    tree f K ((List.range (2 ^ K)).map (redNode f x act k)) =
      (redNode f x act (k + K) 0, (List.range K).flatMap (fun j => (List.range (2 ^ (K - 1 - j))).filterMap (redFlag f x act (k + j)))) := by
  induction K generalizing k with
  | zero => rfl
  | succ K ih =>
    simp only [tree]
    rw [show 2 ^ (K + 1) = 2 * 2 ^ K by rw [Nat.pow_succ]; omega, treeLevel_range]
    have e1 : combine f (redNode f x act k) = redNode f x act (k + 1) := rfl
    have e2 : combineFlag f (redNode f x act k) = redFlag f x act k := rfl
    rw [e1, e2, ih, List.range_succ_eq_map (n := K), List.flatMap_cons, List.flatMap_map]
    refine Prod.ext ?_ ?_
    · show redNode f x act (k + 1 + K) 0 = _; rw [show k + 1 + K = k + (K + 1) by omega]
    · show _ ++ List.flatMap _ _ = _ ++ List.flatMap _ _
      congr 2
      funext j
      rw [show K + 1 - 1 - j.succ = K - 1 - j by omega, show k + 1 + j = k + j.succ by omega]

theorem treeLevel_lanes (f : Nat → Nat → Nat → Res) : ∀ (l : List Node) (_ : ∀ u, some u ∈ l → u.1 < 64),
    (∀ u, some u ∈ (treeLevel f l).1 → u.1 < 64) ∧ ∀ e ∈ (treeLevel f l).2, e.1 < 64
  | [], hl => ⟨hl, by simp [treeLevel]⟩
  | [_], hl => ⟨hl, by simp [treeLevel]⟩
  | a :: b :: l, hl => by
    obtain ⟨h1, h2⟩ := treeLevel_lanes f l (fun u hu => hl u (by simp [hu]))
    have ha : ∀ u, a = some u → u.1 < 64 := fun u hu => hl u (by simp [hu])
    have hb : ∀ u, b = some u → u.1 < 64 := fun u hu => hl u (by simp [hu])
    cases a with
    | none => exact ⟨fun u hu => by
        rcases List.mem_cons.1 hu with h | h
        · exact hb u h.symm
        · exact h1 u h, h2⟩
    | some v =>
      cases b with
      | none => exact ⟨fun u hu => by
          rcases List.mem_cons.1 hu with h | h
          · exact ha u (by rw [h])
          · exact h1 u h, h2⟩
      | some v' => exact ⟨fun u hu => by
          rcases List.mem_cons.1 hu with h | h
          · cases h; exact ha v rfl
          · exact h1 u h, fun e he => by
          rcases List.mem_cons.1 he with h | h
          · rw [h]; exact ha v rfl
          · exact h2 e h⟩

theorem tree_lanes (f : Nat → Nat → Nat → Res) (K : Nat) (l : List Node) (hl : ∀ u, some u ∈ l → u.1 < 64) : ∀ e ∈ (tree f K l).2, e.1 < 64 := by
  induction K generalizing l with
  | zero => simp [tree]
  | succ K ih =>
    obtain ⟨h1, h2⟩ := treeLevel_lanes f l hl
    intro e he
    rcases List.mem_append.1 he with h | h
    · exact h2 e h
    · exact ih _ h1 e h

theorem nodes_eq {w : Nat} (m : Nat) (v : VWord) (f : Nat → Nat → Nat → Res) :
    nodes m (elems w v) = (List.range (512 / w)).map (redNode f (fun j => velem w v j) (fun j => bitOf m j) 0) := by
  unfold nodes
  rw [elems_length]
  apply List.map_congr_left
  intro j hj
  rw [elems_getD _ (List.mem_range.1 hj)]; rfl

theorem levels_eq {w K : Nat} (h : 512 / w = 2 ^ K) : levels w = K := by
  unfold levels log2; rw [h, Nat.log2_two_pow]

theorem reduce_float {s : State} {i : Instr} {sp rounds sat : Bool} {ok : Nat → Bool} {p : PReg} {d a : Reg} {whole : Nat → Bool → List Int → Res}
    {node : Nat → Rnd → Nat → Nat → Nat → Res} {empty : Nat → Nat} (hc : s.Clean) (hi : exec i s = reduceOp s sp ok rounds sat p d a whole node empty)
    {f w rm K : Nat} (hf : f = fld s.ctx.num.vt 3 0) (hw : w = fmtWidth f) (hrm : rm = fld s.ctx.num.vt 6 4) (h12 : 12 ≤ f) (ho : ok f = true) (hr : rounds = true → rm ≤ 5)
    (hK : 512 / w = 2 ^ K) : ∃ v,
      velem w v 0 = (((redNode (node f (s.env (if rounds then rm else 0) sat)) (fun j => velem w (s.ctx.regs.getV a) j) (fun j => flag (s.ctx.regs.getP p) j) K 0).map
        (fun e => e.2)).getD (empty f)) % 2 ^ w
      ∧ (∀ j, 0 < j → j < 512 / w → velem w v j = 0)
      ∧ s.Delivers i sp (rounds && rm == 5)
          (redFlags (node f (s.env (if rounds then rm else 0) sat)) (fun j => velem w (s.ctx.regs.getV a) j) (fun j => flag (s.ctx.regs.getP p) j) K) (fun c => c.setV d v) := by
  have h4 := hc.issued 4
  have hw8 : w = 8 ∨ w = 16 ∨ w = 32 ∨ w = 64 := hw ▸ fmtWidth_cases _
  obtain ⟨f1, f2, f3⟩ := lanes_fit hw8
  have hef : (s.issued 4).ctx.ef = f := by unfold Ctx.ef; rw [State.issued_num, hf]
  have hrm' : (s.issued 4).ctx.rm = rm := by unfold Ctx.rm; rw [State.issued_num, hrm]
  have hfp : fmtFloat f = true := decide_eq_true (by omega)
  have htree := tree_range (node f (s.env (if rounds then rm else 0) sat)) (fun j => velem w (s.ctx.regs.getV a) j) (fun j => flag (s.ctx.regs.getP p) j) K 0
  rw [← hK] at htree
  simp only [Nat.zero_add] at htree
  have hnodes := nodes_eq (w := w) (s.ctx.regs.getP p).toNat (s.ctx.regs.getV a) (node f (s.env (if rounds then rm else 0) sat))
  have hl : ∀ e ∈ (tree (node f (s.env (if rounds then rm else 0) sat)) K (nodes (s.ctx.regs.getP p).toNat (elems w (s.ctx.regs.getV a)))).2, e.1 < 64 := by
    apply tree_lanes
    intro u hu
    obtain ⟨j, hj, he⟩ := List.mem_map.1 (hnodes ▸ hu)
    have hj := List.mem_range.1 hj
    simp only [redNode] at he
    split at he
    · cases he; simp only; omega
    · cases he
  have hmode : (if rounds then rm else 0) ≤ 5 := by cases rounds <;> simp_all
  refine ⟨ofElems w [((redNode (node f (s.env (if rounds then rm else 0) sat)) (fun j => velem w (s.ctx.regs.getV a) j) (fun j => flag (s.ctx.regs.getP p) j) K 0).map
        (fun e => e.2)).getD (empty f)], ?_, fun j h0 hj => ?_, ?_⟩
  · rw [velem_ofElems_all _ (by simp; omega)]; rfl
  · rw [velem_ofElems_all _ (by simp; omega)]
    simp [List.getD, List.getElem?_eq_none (l := [_]) (i := j) (by simp; omega)]
  · rw [hnodes] at hl
    have hq : (tree (node f (s.env (if rounds then rm else 0) sat)) K (nodes (s.ctx.regs.getP p).toNat (elems w (s.ctx.regs.getV a)))) =
        (redNode (node f (s.env (if rounds then rm else 0) sat)) (fun j => velem w (s.ctx.regs.getV a) j) (fun j => flag (s.ctx.regs.getP p) j) K 0,
          redFlags (node f (s.env (if rounds then rm else 0) sat)) (fun j => velem w (s.ctx.regs.getV a) j) (fun j => flag (s.ctx.regs.getP p) j) K) := by
      rw [hnodes]; exact htree
    have hl' : ∀ e ∈ redFlags (node f (s.env (if rounds then rm else 0) sat)) (fun j => velem w (s.ctx.regs.getV a) j) (fun j => flag (s.ctx.regs.getP p) j) K, e.1 < 64 := by
      have := hl; rw [← hnodes, hq] at this; exact this
    unfold reduceOp at hi
    refine State.delivers_of (k := Act.wrV d (ofElems w [((redNode (node f (s.env (if rounds then rm else 0) sat)) (fun j => velem w (s.ctx.regs.getV a) j)
      (fun j => flag (s.ctx.regs.getP p) j) K 0).map (fun e => e.2)).getD (empty f)]) >>= fun _ => if rounds then Act.tick rm else pure ()) hc hl' hi ?_ ?_
    · rw [Act.bind_ok (Act.ctx_apply _), hef, hrm', Act.bind_ok (Act.accepts_ok ho)]
      dsimp only
      rw [hfp, Bool.and_true, Act.bind_ok (Act.rounding_ok hmode _ _), Act.bind_ok (Act.rdV_clean h4 a), Act.bind_ok (Act.rdP_clean h4 p), State.issued_regs, ← hw, if_pos rfl,
        levels_eq hK, hq]
    · intro x
      have hc2 : ((s.issued 4).modCtx (fun c => { c with num := { c.num with flags := c.num.flags ||| x } })).Clean := h4.modCtx rfl rfl
      rw [Act.bind_ok (Act.wrV_clean hc2 _ _)]
      cases rounds with
      | false => simp only [Bool.false_and, Bool.false_eq_true, if_false]; rw [Act.pure_apply, State.modCtx_modCtx]; rfl
      | true =>
        simp only [Bool.true_and, if_true]
        rw [Act.tick_apply]
        cases (rm == 5) with
        | false => simp only [Bool.false_eq_true, if_false]; rw [State.modCtx_modCtx]; rfl
        | true => simp only [if_true]; rw [State.modCtx_modCtx, State.modCtx_modCtx]; rfl

theorem reduce_int {s : State} {i : Instr} {sp rounds sat : Bool} {ok : Nat → Bool} {p : PReg} {d a : Reg} {whole : Nat → Bool → List Int → Res}
    {node : Nat → Rnd → Nat → Nat → Nat → Res} {empty : Nat → Nat} (hc : s.Clean) (hi : exec i s = reduceOp s sp ok rounds sat p d a whole node empty)
    {f w : Nat} (hf : f = fld s.ctx.num.vt 3 0) (hw : w = fmtWidth f) (h6 : f ≤ 6) (ho : ok f = true) (r : Res)
    (hr : r = whole f sat (((List.range (512 / w)).filter (fun j => flag (s.ctx.regs.getP p) j)).map (fun j => intOf f (velem w (s.ctx.regs.getV a) j)))) : ∃ v,
      velem w v 0 = r.code % 2 ^ w ∧ (∀ j, 0 < j → j < 512 / w → velem w v j = 0) ∧ s.Delivers i sp false [(0, r.fl)] (fun c => c.setV d v) := by
  have h4 := hc.issued 4
  have hw8 : w = 8 ∨ w = 16 ∨ w = 32 ∨ w = 64 := hw ▸ fmtWidth_cases _
  obtain ⟨f1, f2, f3⟩ := lanes_fit hw8
  have hef : (s.issued 4).ctx.ef = f := by unfold Ctx.ef; rw [State.issued_num, hf]
  have hfp : fmtFloat f = false := decide_eq_false (by omega)
  refine ⟨ofElems w [r.code], ?_, fun j h0 hj => ?_, ?_⟩
  · rw [velem_ofElems_all _ (by simp; omega)]; rfl
  · rw [velem_ofElems_all _ (by simp; omega)]
    simp [List.getD, List.getElem?_eq_none (l := [_]) (i := j) (by simp; omega)]
  · unfold reduceOp at hi
    refine State.delivers_of (k := Act.wrV d (ofElems w [r.code])) hc (by simp) hi ?_ ?_
    · rw [Act.bind_ok (Act.ctx_apply _), hef, Act.bind_ok (Act.accepts_ok ho)]
      dsimp only
      rw [hfp, Bool.and_false, Act.bind_ok (Act.rounding_ok (by simp) _ _), Act.bind_ok (Act.rdV_clean h4 a), Act.bind_ok (Act.rdP_clean h4 p), State.issued_regs, ← hw]
      have e : (selected (s.ctx.regs.getP p).toNat (elems w (s.ctx.regs.getV a))).map (intOf f) =
          ((List.range (512 / w)).filter (fun j => flag (s.ctx.regs.getP p) j)).map (fun j => intOf f (velem w (s.ctx.regs.getV a) j)) := by
        unfold selected
        rw [elems_length, List.map_map]
        apply List.map_congr_left
        intro k hk
        simp only [Function.comp]
        rw [elems_getD _ (List.mem_range.1 (List.mem_filter.1 hk).1)]
      rw [e, ← hr]; rfl
    · intro x
      have hc2 : ((s.issued 4).modCtx (fun c => { c with num := { c.num with flags := c.num.flags ||| x } })).Clean := h4.modCtx rfl rfl
      rw [Act.wrV_clean hc2, State.modCtx_modCtx]; rfl

theorem foldl_max (v : Nat → Int) (l : List Nat) (m : Int) :
    (m ≤ (l.map v).foldl max m ∧ ∀ j ∈ l, v j ≤ (l.map v).foldl max m) ∧ ((l.map v).foldl max m = m ∨ ∃ j ∈ l, (l.map v).foldl max m = v j) := by
  induction l generalizing m with
  | nil => exact ⟨⟨Int.le_refl _, by simp⟩, .inl rfl⟩
  | cons a l ih =>
    obtain ⟨⟨h1, h2⟩, h3⟩ := ih (max m (v a))
    rw [List.map_cons, List.foldl_cons]
    refine ⟨⟨by omega, fun j hj => ?_⟩, ?_⟩
    · rcases List.mem_cons.1 hj with rfl | hj
      · omega
      · exact h2 j hj
    · rcases h3 with h | ⟨j, hj, h⟩
      · rw [h]
        by_cases hm : v a ≤ m
        · exact .inl (by omega)
        · exact .inr ⟨a, by simp, by omega⟩
      · exact .inr ⟨j, by simp [hj], h⟩

theorem foldl_min (v : Nat → Int) (l : List Nat) (m : Int) :
    ((l.map v).foldl min m ≤ m ∧ ∀ j ∈ l, (l.map v).foldl min m ≤ v j) ∧ ((l.map v).foldl min m = m ∨ ∃ j ∈ l, (l.map v).foldl min m = v j) := by
  induction l generalizing m with
  | nil => exact ⟨⟨Int.le_refl _, by simp⟩, .inl rfl⟩
  | cons a l ih =>
    obtain ⟨⟨h1, h2⟩, h3⟩ := ih (min m (v a))
    rw [List.map_cons, List.foldl_cons]
    refine ⟨⟨by omega, fun j hj => ?_⟩, ?_⟩
    · rcases List.mem_cons.1 hj with rfl | hj
      · omega
      · exact h2 j hj
    · rcases h3 with h | ⟨j, hj, h⟩
      · rw [h]
        by_cases hm : m ≤ v a
        · exact .inl (by omega)
        · exact .inr ⟨a, by simp, by omega⟩
      · exact .inr ⟨j, by simp [hj], h⟩

def redOk (f : Nat) : Bool := decide (f ≤ 6) || decide (12 ≤ f)

theorem redOk_iff (f : Nat) : redOk f = true ↔ f ≤ 6 ∨ 12 ≤ f := by simp [redOk]

theorem exec_vredadd (s : State) (sp sat : Bool) (p : PReg) (d a : Reg) : exec (.vredadd sp sat p d a) s =
    reduceOp s sp redOk true sat p d a (fun f sat l => intRule f sat l.sum) (fun f r i x y => fAdd f r i (numOf f x) (numOf f y)) (fun _ => 0) := rfl

theorem exec_vredmax (s : State) (sp : Bool) (p : PReg) (d a : Reg) : exec (.vredmax sp p d a) s =
    reduceOp s sp redOk false false p d a (fun f _ l => ⟨intCode f (l.foldl max (intMin f)), 0⟩) (fun f _ _ x y => fPick f true x y) fmtNaN := rfl

theorem exec_vredmin (s : State) (sp : Bool) (p : PReg) (d a : Reg) : exec (.vredmin sp p d a) s =
    reduceOp s sp redOk false false p d a (fun f _ l => ⟨intCode f (l.foldl min (intMax f)), 0⟩) (fun f _ _ x y => fPick f false x y) fmtNaN := rfl

theorem reduce_bad {s : State} {i : Instr} {sp rounds sat : Bool} {p : PReg} {d a : Reg} {whole : Nat → Bool → List Int → Res}
    {node : Nat → Rnd → Nat → Nat → Nat → Res} {empty : Nat → Nat} (hc : s.Clean) (hi : exec i s = reduceOp s sp redOk rounds sat p d a whole node empty)
    {f : Nat} (hf : f = fld s.ctx.num.vt 3 0) (h : ¬ (f ≤ 6 ∨ 12 ≤ f) ∨ rounds = true ∧ 12 ≤ f ∧ 6 ≤ fld s.ctx.num.vt 6 4) :
    exec i s = .next (s.raised { eff := 0x001, arg := s.ctx.num.vt }) := by
  have hef : (s.issued 4).ctx.ef = f := by unfold Ctx.ef; rw [State.issued_num, hf]
  have hrm : (s.issued 4).ctx.rm = fld s.ctx.num.vt 6 4 := by unfold Ctx.rm; rw [State.issued_num]
  rw [hi]; unfold reduceOp
  apply issue_raise hc
  rcases h with h | ⟨rfl, h12, h6⟩
  · rw [Act.bind_ok (Act.ctx_apply _), hef, Act.bind_error (Act.accepts_bad (Bool.eq_false_iff.2 (fun e => h ((redOk_iff f).1 e)))), State.issued_num]
  · have hfp : fmtFloat f = true := decide_eq_true (by omega)
    rw [Act.bind_ok (Act.ctx_apply _), hef, hrm, Act.bind_ok (Act.accepts_ok ((redOk_iff f).2 (.inr h12)))]
    dsimp only
    rw [hfp, Bool.and_true, if_pos rfl, Act.bind_error (Act.rounding_bad h6 _ _), State.issued_num]

def dotOk (f : Nat) : Bool := decide (f ≤ 3) || f == 12 || f == 13

theorem dotOk_iff (f : Nat) : dotOk f = true ↔ f ≤ 3 ∨ f = 12 ∨ f = 13 := by simp [dotOk, or_assoc]

theorem foldl_dot {f : Nat} (l : List (Nat × Nat)) (z : Int) :
    l.foldl (fun z q => z + intOf f q.1 * intOf f q.2) z = z + (l.map (fun q => intOf f q.1 * intOf f q.2)).sum := by
  induction l generalizing z with
  | nil => simp
  | cons q l ih => rw [List.foldl_cons, ih, List.map_cons, List.sum_cons]; omega

theorem dot_int {f : Nat} (h : f ≤ 3) (r : Rnd) (lane c : Nat) (ps : List (Nat × Nat)) : dotLane f r lane c ps =
    intRule (if f = 0 ∨ f = 2 then 4 else 5) r.sat (intOf (if f = 0 ∨ f = 2 then 4 else 5) c + (ps.map (fun q => intOf f q.1 * intOf f q.2)).sum) := by
  have h1 : fmtInt f = true := decide_eq_true (by omega)
  have h2 : fmtSigned f = true ↔ f = 0 ∨ f = 2 := by simp [fmtSigned]; omega
  unfold dotLane
  rw [if_pos h1]
  dsimp only
  rw [foldl_dot]
  by_cases h : f = 0 ∨ f = 2
  · rw [if_pos h, if_pos (h2.2 h)]
  · rw [if_neg h, if_neg (fun e => h (h2.1 e))]

theorem vdot_rules {s : State} (hc : s.Clean) (sp sat : Bool) (p : PReg) (d a b : Reg) {f w rm : Nat} (hf : f = fld s.ctx.num.vt 3 0) (hw : w = fmtWidth f)
    (hrm : rm = fld s.ctx.num.vt 6 4) :
    (f ≤ 3 ∨ f = 12 ∨ f = 13 → (12 ≤ f → rm ≤ 5) → ∀ rs : Nat → Res,
        (∀ j < 16, rs j = if flag (s.ctx.regs.getP p) j then
            dotLane f (s.env (if fmtFloat f then rm else 0) sat) j (velem 32 (s.ctx.regs.getV d) j) ((List.range (32 / w)).map (fun k => (velem w (s.ctx.regs.getV a) (32 / w * j + k), velem w (s.ctx.regs.getV b) (32 / w * j + k))))
          else ⟨velem 32 (s.ctx.regs.getV d) j, 0⟩) →
        s.Lanes (.vdot sp sat p d a b) sp (decide (12 ≤ f) && rm == 5) 32 d rs)
    ∧ (¬ (f ≤ 3 ∨ f = 12 ∨ f = 13) ∨ (f = 12 ∨ f = 13) ∧ 6 ≤ rm → exec (.vdot sp sat p d a b) s = .next (s.raised { eff := 0x001, arg := s.ctx.num.vt })) := by
  have h4 := hc.issued 4
  have hef : (s.issued 4).ctx.ef = f := by unfold Ctx.ef; rw [State.issued_num, hf]
  have hrm' : (s.issued 4).ctx.rm = rm := by unfold Ctx.rm; rw [State.issued_num, hrm]
  refine ⟨fun ho hr rs hrs => ?_, fun h => ?_⟩
  · have hfp : fmtFloat f = decide (12 ≤ f) := by
      unfold fmtFloat; rw [Bool.eq_iff_iff]; simp; omega
    have hmode : (if fmtFloat f then rm else 0) ≤ 5 := by
      rw [hfp]; by_cases h : 12 ≤ f
      · rw [if_pos (decide_eq_true h)]; exact hr h
      · rw [if_neg (by simpa using h)]; exact Nat.zero_le _
    have hg : 512 / w = 32 / w * 16 := by
      have : f = 0 ∨ f = 1 ∨ f = 2 ∨ f = 3 ∨ f = 12 ∨ f = 13 := by omega
      rw [hw]; rcases this with rfl | rfl | rfl | rfl | rfl | rfl <;> decide
    refine State.delivers_lanes (rs := rs) (w := 32) (k := if fmtFloat f then Act.tick rm else pure ()) hc (by decide) (rfl : exec (.vdot sp sat p d a b) s = issue s sp 4 _) ?_ ?_
    · rw [Act.bind_ok (Act.ctx_apply _), hef, hrm', Act.bind_ok (Act.accepts_ok (ok := fun f => decide (f ≤ 3) || f == 12 || f == 13) ((dotOk_iff f).2 ho))]
      dsimp only
      rw [Act.bind_ok (Act.rounding_ok hmode _ _), Act.bind_ok (Act.rdV_clean h4 a), Act.bind_ok (Act.rdV_clean h4 b), Act.bind_ok (Act.rdV_clean h4 d), Act.bind_ok (Act.rdP_clean h4 p),
        State.issued_regs, ← hw]
      rw [merged_eq _ _ _ rs (fun j hj => ?_)]
      have hj : j < 16 := hj
      rw [hrs j hj, elems_getD (w := 32) _ hj]
      have e : (List.range (32 / w)).map (fun k => ((elems w (s.ctx.regs.getV a)).getD (32 / w * j + k) 0, (elems w (s.ctx.regs.getV b)).getD (32 / w * j + k) 0)) =
          (List.range (32 / w)).map (fun k => (velem w (s.ctx.regs.getV a) (32 / w * j + k), velem w (s.ctx.regs.getV b) (32 / w * j + k))) := by
        apply List.map_congr_left
        intro k hk
        have hk := List.mem_range.1 hk
        have : 32 / w * j + k < 512 / w := by
          rw [hg]
          have := Nat.mul_le_mul_left (32 / w) (show j + 1 ≤ 16 by omega)
          rw [Nat.mul_add, Nat.mul_one] at this; omega
        rw [elems_getD _ this, elems_getD _ this]
      rw [e]; rfl
    · intro t
      rw [hfp]
      by_cases h : 12 ≤ f
      · rw [decide_eq_true h, if_pos rfl, Act.tick_apply]; simp
      · rw [decide_eq_false h]; rfl
  · apply issue_raise hc
    rcases h with h | ⟨h, h6⟩
    · rw [Act.bind_ok (Act.ctx_apply _), hef, Act.bind_error (Act.accepts_bad (ok := fun f => decide (f ≤ 3) || f == 12 || f == 13) (Bool.eq_false_iff.2 (fun e => h ((dotOk_iff f).1 e)))), State.issued_num]
    · rw [Act.bind_ok (Act.ctx_apply _), hef, hrm', Act.bind_ok (Act.accepts_ok (ok := fun f => decide (f ≤ 3) || f == 12 || f == 13) ((dotOk_iff f).2 (.inr h)))]
      have hfp : fmtFloat f = true := decide_eq_true (by omega)
      dsimp only
      rw [hfp, if_pos rfl, Act.bind_error (Act.rounding_bad h6 _ _), State.issued_num]

theorem reductions_rules :
    ∀ (s : State) (sp sat : Bool) (p : PReg) (d a b : Reg), s.Clean →
    ∀ (f w n rm : Nat) (x y : Nat → Nat) (act : Nat → Bool), f = fld s.ctx.num.vt 3 0 → w = fmtWidth f → n = 512 / w → rm = fld s.ctx.num.vt 6 4 →
      x = (fun j => velem w (s.ctx.regs.getV a) j) → y = (fun j => velem w (s.ctx.regs.getV b) j) → act = (fun j => flag (s.ctx.regs.getP p) j) →
      (12 ≤ f → ∀ row ∈ floatReductions, (row.2.1 = true → rm ≤ 5) → ∀ K, n = 2 ^ K → ∃ v,
        velem w v 0 = (((redNode (row.2.2.1 f (s.env (if row.2.1 then rm else 0) (row.2.1 && sat))) x act K 0).map (fun e => e.2)).getD (row.2.2.2 f)) % 2 ^ w
        ∧ (∀ j, 0 < j → j < n → velem w v j = 0)
        ∧ s.Delivers (row.1 sp sat p d a) sp (row.2.1 && rm == 5)
            (redFlags (row.2.2.1 f (s.env (if row.2.1 then rm else 0) (row.2.1 && sat))) x act K) (fun c => c.setV d v))
      ∧ (f ≤ 6 → ∀ row ∈ intReductions, ∃ z v, row.2.2 f (fun j => intOf f (x j)) ((List.range n).filter act) z
        ∧ velem w v 0 = (row.2.1 f sat z).code % 2 ^ w ∧ (∀ j, 0 < j → j < n → velem w v j = 0)
        ∧ s.Delivers (row.1 sp sat p d a) sp false [(0, (row.2.1 f sat z).fl)] (fun c => c.setV d v))
      ∧ (f ≤ 3 ∨ f = 12 ∨ f = 13 → (12 ≤ f → rm ≤ 5) → ∀ rs : Nat → Res,
          (∀ j, rs j = if act j then (if f ≤ 3 then intRule (if f = 0 ∨ f = 2 then 4 else 5) sat (intOf (if f = 0 ∨ f = 2 then 4 else 5) (velem 32 (s.ctx.regs.getV d) j)
                + ((List.range (32 / w)).map (fun k => intOf f (x (32 / w * j + k)) * intOf f (y (32 / w * j + k)))).sum)
              else dotLane f (s.env rm sat) j (velem 32 (s.ctx.regs.getV d) j) ((List.range (32 / w)).map (fun k => (x (32 / w * j + k), y (32 / w * j + k)))))
            else ⟨velem 32 (s.ctx.regs.getV d) j, 0⟩) →
          s.Lanes (.vdot sp sat p d a b) sp (decide (12 ≤ f) && rm == 5) 32 d rs)
      ∧ (¬ (f ≤ 6 ∨ 12 ≤ f) ∨ 12 ≤ f ∧ 6 ≤ rm → exec (.vredadd sp sat p d a) s = .next (s.raised { eff := 0x001, arg := s.ctx.num.vt }))
      ∧ (¬ (f ≤ 6 ∨ 12 ≤ f) → ∀ i ∈ [Instr.vredmax sp p d a, .vredmin sp p d a], exec i s = .next (s.raised { eff := 0x001, arg := s.ctx.num.vt }))
      ∧ (¬ (f ≤ 3 ∨ f = 12 ∨ f = 13) ∨ (f = 12 ∨ f = 13) ∧ 6 ≤ rm → exec (.vdot sp sat p d a b) s = .next (s.raised { eff := 0x001, arg := s.ctx.num.vt })) := by
  intro s sp sat p d a b hc f w n rm x y act hf hw hn hrm hx hy hact
  subst hx hy hact hn
  obtain ⟨d1, d2⟩ := vdot_rules hc sp sat p d a b hf hw hrm
  refine ⟨fun h12 row hr h5 K hK => ?_, fun h6 row hr => ?_, fun ho h5 rs hrs => d1 ho h5 rs (fun j _ => ?_), fun h => ?_, fun h i hi => ?_, d2⟩
  · have ho := (redOk_iff f).2 (.inr h12)
    simp only [floatReductions, List.mem_cons, List.not_mem_nil, or_false] at hr
    rcases hr with rfl | rfl | rfl
    · exact reduce_float hc (exec_vredadd s sp sat p d a) hf hw hrm h12 ho h5 hK
    · exact reduce_float hc (exec_vredmax s sp p d a) hf hw hrm h12 ho (by simp) hK
    · exact reduce_float hc (exec_vredmin s sp p d a) hf hw hrm h12 ho (by simp) hK
  · have ho := (redOk_iff f).2 (.inl h6)
    simp only [intReductions, List.mem_cons, List.not_mem_nil, or_false] at hr
    rcases hr with rfl | rfl | rfl
    · obtain ⟨v, h⟩ := reduce_int hc (exec_vredadd s sp sat p d a) hf hw h6 ho _ rfl
      exact ⟨_, v, rfl, h⟩
    · obtain ⟨v, h⟩ := reduce_int hc (exec_vredmax s sp p d a) hf hw h6 ho _ rfl
      exact ⟨_, v, foldl_max (fun j => intOf f (velem w (s.ctx.regs.getV a) j)) _ _, h⟩
    · obtain ⟨v, h⟩ := reduce_int hc (exec_vredmin s sp p d a) hf hw h6 ho _ rfl
      exact ⟨_, v, foldl_min (fun j => intOf f (velem w (s.ctx.regs.getV a) j)) _ _, h⟩
  · rw [hrs j]
    dsimp only
    by_cases h3 : f ≤ 3
    · rw [if_pos h3, dot_int h3, List.map_map]; rfl
    · rw [if_neg h3, show fmtFloat f = true from decide_eq_true (by omega), if_pos rfl]
  · exact reduce_bad hc (exec_vredadd s sp sat p d a) hf (h.elim .inl (fun h => .inr ⟨rfl, h.1, hrm ▸ h.2⟩))
  · simp only [List.mem_cons, List.not_mem_nil, or_false] at hi
    rcases hi with rfl | rfl
    · exact reduce_bad hc (exec_vredmax s sp p d a) hf (.inl h)
    · exact reduce_bad hc (exec_vredmin s sp p d a) hf (.inl h)

end Sys2Proof.Machine
end

