-- ==== Sys2Proof/Laws/VectorLoads.lean ====
section
/-! SUPPORT. Vector loads: the passes of 07 R190, and what reaches the register. -/

set_option Elab.async false

namespace Sys2Proof.Machine

def State.elemIdx (s : State) (k : VAddr) (b : Reg) (i : Nat) : Nat :=
  match k with
  | .indexed _ => velem s.ew (s.ctx.regs.getV b) i
  | _ => 0

theorem ew_cases (s : State) : s.ew = 8 ∨ s.ew = 16 ∨ s.ew = 32 ∨ s.ew = 64 := fmtWidth_cases _

theorem ew_div (s : State) : 64 / (s.ew / 8) = 512 / s.ew ∧ 8 * (s.ew / 8) = s.ew ∧ 0 < s.ew / 8 := by
  rcases ew_cases s with h | h | h | h <;> rw [h] <;> decide

theorem addresses_spec {s : State} (hc : s.Clean) (k : VAddr) (a b : Reg) :
    Act.addresses a b k (s.ew / 8) (64 / (s.ew / 8)) (s.issued 4) =
      .ok ((List.range (512 / s.ew)).map (fun i => (s.elemAddr k a b i, s.elemIdx k b i)), s.issued 4) := by
  have h4 := hc.issued 4
  obtain ⟨e1, e2, e3⟩ := ew_div s
  unfold Act.addresses
  rw [Act.bind_ok (Act.rdG_clean h4 a), State.issued_g]
  cases k with
  | contiguous => dsimp only; rw [Act.bind_ok (Act.rdG_clean h4 b), State.issued_g, e1]; rfl
  | strided => dsimp only; rw [Act.bind_ok (Act.rdG_clean h4 b), State.issued_g, e1]; rfl
  | indexed st =>
    dsimp only
    rw [Act.bind_ok (Act.rdV_clean h4 b), State.issued_regs, e2, Act.pure_apply]
    congr 2
    unfold elems lanesOf
    rw [List.map_map]; rfl

theorem activeLanes_spec (m n : Nat) (F : Nat → Word × Nat) :
    activeLanes m ((List.range n).map F) = ((List.range n).filter (fun i => bitOf m i)).map (fun i => (i, F i)) := by
  unfold activeLanes
  have e : (List.range ((List.range n).map F).length).zip ((List.range n).map F) = (List.range n).map (fun i => (i, F i)) := by
    rw [List.length_map, List.length_range]
    apply List.ext_getElem
    · simp
    · intro i h1 h2; simp
  rw [e, List.filter_map]; rfl

theorem misaligned_spec (c : Ctx) (stk : Bool) (n : Nat) (l : List Nat) (A : Nat → Word) (I : Nat → Nat)
    (h : stk = true → ∀ i ∈ l, c.space.sklo.toNat ≤ (A i).toNat) :
    misaligned c stk n (l.map (fun i => (i, A i, I i))) = (l.filter (fun i => (A i).toNat % n != 0 || decide (2 ^ 52 ≤ (A i).toNat))).map (fun i => (i, A i)) := by
  unfold misaligned
  have e : (l.map (fun i => (i, A i, I i))).filterMap (fun e => (c.redirect stk e.2.1).map (fun x => (e.1, x))) = l.map (fun i => (i, A i)) := by
    have hr : ∀ i ∈ l, c.redirect stk (A i) = some (A i) := by
      intro i hi
      unfold Ctx.redirect
      cases stk with
      | false => rfl
      | true => rw [if_neg]; simpa using h rfl i hi
    clear h
    induction l with
    | nil => rfl
    | cons i l ih => rw [List.map_cons, List.filterMap_cons, hr i (by simp), List.map_cons, ← ih (fun j hj => hr j (by simp [hj]))]; rfl
  rw [e, List.filter_map]; rfl

theorem pastLimit_spec {s : State} (k : VAddr) (b : Reg) (l : List Nat) (A : Nat → Word) :
    pastLimit (s.issued 4).ctx k (l.map (fun i => (i, A i, s.elemIdx k b i))) = (l.filter (fun i => s.past k b i)).map (fun i => (i, A i, s.elemIdx k b i)) := by
  unfold pastLimit Ctx.glim
  rw [State.issued_num]
  cases k with
  | indexed st => dsimp only; rw [List.filter_map]; rfl
  | contiguous =>
    have : l.filter (fun i => s.past .contiguous b i) = [] := List.filter_eq_nil_iff.2 (fun _ _ => by simp [State.past])
    rw [this]; rfl
  | strided =>
    have : l.filter (fun i => s.past .strided b i) = [] := List.filter_eq_nil_iff.2 (fun _ _ => by simp [State.past])
    rw [this]; rfl

theorem filter_not_past {s : State} (k : VAddr) (b : Reg) (l : List Nat) (A : Nat → Word) :
    (((l.map (fun i => (i, A i, s.elemIdx k b i))).filter (fun e => !((l.filter (fun i => s.past k b i)).map (fun i => (i, A i, s.elemIdx k b i))).any (fun q => q.1 == e.1))).map
      (fun e => (e.1, e.2.1))) = (l.filter (fun i => !s.past k b i)).map (fun i => (i, A i)) := by
  rw [List.filter_map, List.map_map]
  have e : l.filter ((fun e : Nat × Word × Nat => !((l.filter (fun i => s.past k b i)).map (fun i => (i, A i, s.elemIdx k b i))).any (fun q => q.1 == e.1)) ∘ (fun i => (i, A i, s.elemIdx k b i)))
      = l.filter (fun i => !s.past k b i) := by
    apply List.filter_congr
    intro i hi
    simp only [Function.comp]
    congr 1
    rw [Bool.eq_iff_iff, List.any_eq_true]
    constructor
    · rintro ⟨q, hq, he⟩
      obtain ⟨j, hj, rfl⟩ := List.mem_map.1 hq
      have : j = i := by simpa using he
      subst this; exact (List.mem_filter.1 hj).2
    · intro h
      exact ⟨_, List.mem_map.2 ⟨i, List.mem_filter.2 ⟨hi, h⟩, rfl⟩, by simp⟩
  rw [e]; rfl

/-- The elements whose address R19 refuses. -/
def State.elemBad (s : State) (k : VAddr) (a b : Reg) (i : Nat) : Bool :=
  (s.elemAddr k a b i).toNat % (s.ew / 8) != 0 || decide (2 ^ 52 ≤ (s.elemAddr k a b i).toNat)

/-- The first two passes of R190. -/
theorem plan_spec {s : State} (hc : s.Clean) (k : VAddr) (p : PReg) (a b : Reg) (h : a = 31 → ∀ i ∈ s.active p, s.ctx.space.sklo.toNat ≤ (s.elemAddr k a b i).toNat) :
    Act.plan p a b k (s.issued 4) = (match (s.active p).filter (s.elemBad k a b), (s.active p).filter (fun i => s.past k b i), k with
      | e :: bad, _, _ => (Act.raise { alignFault (s.elemAddr k a b e) with lanes := W (maskOf (e :: bad)), stk := a == 31 } : Act VPlan)
      | [], e :: more, .indexed true => Act.raise { permFault (s.elemAddr k a b e) with arg := W e, lanes := W (maskOf (e :: more)), stk := a == 31 }
      | _, past, _ => pure ⟨s.ew / 8, (s.taking k p b).map (fun i => (i, s.elemAddr k a b i)), past⟩) (s.issued 4) := by
  have h4 := hc.issued 4
  have hef : fmtWidth (s.issued 4).ctx.ef = s.ew := by unfold Ctx.ef; rw [State.issued_num]; rfl
  unfold Act.plan
  rw [Act.bind_ok (Act.ctx_apply _), hef]
  dsimp only
  rw [Act.bind_ok (addresses_spec hc k a b), Act.bind_ok (Act.rdP_clean h4 p), State.issued_regs, activeLanes_spec]
  have hact : (List.range (512 / s.ew)).filter (fun i => bitOf (s.ctx.regs.getP p).toNat i) = s.active p := rfl
  rw [hact, pastLimit_spec]
  rw [misaligned_spec _ _ _ _ _ _ (fun e i hi => by
    rw [State.issued_space]; exact h (by simpa using e) i hi)]
  have hb : (s.active p).filter (fun i => (s.elemAddr k a b i).toNat % (s.ew / 8) != 0 || decide (2 ^ 52 ≤ (s.elemAddr k a b i).toNat)) = (s.active p).filter (s.elemBad k a b) := rfl
  rw [hb, filter_not_past]
  have hred : ∀ i ∈ s.active p, ((s.issued 4).ctx.redirect (a == 31) (s.elemAddr k a b i)).getD (s.elemAddr k a b i) = s.elemAddr k a b i := by
    intro i hi
    unfold Ctx.redirect
    by_cases ha : a = 31
    · have := h ha i hi
      rw [State.issued_space, if_neg (by simpa using fun _ => this)]; rfl
    · rw [if_neg (by simpa using fun e => absurd e ha)]; rfl
  generalize (s.active p).filter (s.elemBad k a b) = bad
  generalize hp : (s.active p).filter (fun i => s.past k b i) = past
  cases bad with
  | cons e bad => simp only [List.map_cons, List.map_map, Function.comp_def, List.map_id']
  | nil =>
    cases past with
    | nil => cases k <;> rfl
    | cons e more =>
      cases k with
      | contiguous => simp only [List.map_nil, List.map_cons, List.map_map, Function.comp_def, List.map_id']; rfl
      | strided => simp only [List.map_nil, List.map_cons, List.map_map, Function.comp_def, List.map_id']; rfl
      | indexed st =>
        cases st with
        | true =>
          have hm : e ∈ s.active p := (List.mem_filter.1 (by rw [hp]; simp : e ∈ (s.active p).filter (fun i => s.past (.indexed true) b i))).1
          simp only [List.map_nil, List.map_cons, List.map_map, Function.comp_def, List.map_id', hred e hm]
        | false => simp only [List.map_nil, List.map_cons, List.map_map, Function.comp_def, List.map_id']; rfl

theorem elemBad_iff {s : State} (k : VAddr) (a b : Reg) (i : Nat) :
    s.elemBad k a b i = false ↔ ((s.elemAddr k a b i).toNat % (s.ew / 8) = 0 ∧ (s.elemAddr k a b i).toNat < 2 ^ 52) := by
  unfold State.elemBad; simp

theorem filter_split {f : Nat → Bool} {l i q : List Nat} {j : Nat} (h : l = i ++ j :: q) (hi : ∀ n ∈ i, f n = false) (hj : f j = true) :
    l.filter f = j :: q.filter f := by
  rw [h, List.filter_append, List.filter_eq_nil_iff.2 (fun n hn => by rw [hi n hn]; decide), List.nil_append, List.filter_cons, if_pos hj]

theorem plan_align {s : State} (hc : s.Clean) (k : VAddr) (p : PReg) (a b : Reg) (ha : a = 31 → ∀ i ∈ s.active p, s.ctx.space.sklo.toNat ≤ (s.elemAddr k a b i).toNat) {i q : List Nat} {j : Nat} (hl : s.active p = i ++ j :: q)
    (hi : ∀ n ∈ i, s.elemBad k a b n = false) (hj : s.elemBad k a b j = true) :
    Act.plan p a b k (s.issued 4) = .error (.raise { alignFault (s.elemAddr k a b j) with lanes := W (maskOf ((s.active p).filter (s.elemBad k a b))), stk := a == 31 }) := by
  have e := filter_split hl hi hj
  rw [plan_spec hc k p a b ha, e]; rfl

theorem plan_strict {s : State} (hc : s.Clean) (p : PReg) (a b : Reg) (ha : a = 31 → ∀ i ∈ s.active p, s.ctx.space.sklo.toNat ≤ (s.elemAddr (.indexed true) a b i).toNat) (hg : ∀ n ∈ s.active p, s.elemBad (.indexed true) a b n = false)
    {i q : List Nat} {j : Nat} (hl : s.active p = i ++ j :: q) (hi : ∀ n ∈ i, s.past (.indexed true) b n = false) (hj : s.past (.indexed true) b j = true) :
    Act.plan p a b (.indexed true) (s.issued 4) = .error (.raise { permFault (s.elemAddr (.indexed true) a b j) with
      arg := W j, lanes := W (maskOf ((s.active p).filter (fun n => s.past (.indexed true) b n))), stk := a == 31 }) := by
  have e := filter_split (f := fun n => s.past (.indexed true) b n) hl hi hj
  have e0 : (s.active p).filter (s.elemBad (.indexed true) a b) = [] := List.filter_eq_nil_iff.2 (fun n hn => by rw [hg n hn]; decide)
  rw [plan_spec hc _ p a b ha, e, e0]; rfl

theorem plan_ok {s : State} (hc : s.Clean) {acc : Acc} {k : VAddr} {p : PReg} {a b : Reg} {L : List (Lane × Option Leaf)} {t : State}
    (h : s.VAccess acc k p a b L t) : Act.plan p a b k (s.issued 4) =
      .ok (⟨s.ew / 8, L.map (fun e => (e.1.i, e.1.ea)), (s.active p).filter (fun i => s.past k b i)⟩, s.issued 4) := by
  have e0 : (s.active p).filter (s.elemBad k a b) = [] := List.filter_eq_nil_iff.2 (fun n hn => by
    rw [(elemBad_iff k a b n).2 (h.aligned n hn)]; decide)
  rw [plan_spec hc _ p a b (fun e i hi => (h.stack e i hi).1), e0, h.lanes]
  generalize hp : (s.active p).filter (fun i => s.past k b i) = past
  cases past with
  | nil => cases k <;> rfl
  | cons e more =>
    cases k with
    | contiguous => rfl
    | strided => rfl
    | indexed st =>
      cases st with
      | false => rfl
      | true =>
        exfalso
        have : e ∈ (s.active p).filter (fun i => s.past (.indexed true) b i) := by rw [hp]; simp
        obtain ⟨h1, h2⟩ := List.mem_filter.1 this
        rw [h.limit rfl e h1] at h2; cases h2

theorem gate_issued {s : State} (h : s.noAcquire) : Act.gate (s.issued 4) = .ok ((), s.issued 4) := Act.gate_open (State.noAcquire_issued h 4)

theorem tryPlace_at {s : State} {acc : Acc} {stk : Bool} {ea : Word} {n : Nat} {h : Home} {l : Option Leaf}
    (hs : stk = true → s.ctx.space.sklo.toNat ≤ ea.toNat ∧ (s.ctx.stat.emrg = true → s.ctx.space.skhi.toNat - 512 ≤ ea.toNat))
    (hp : s.locate s.pid s.ctx.space.ptroot s.ctx.stat.sup acc ea n true false = .ok (h, l)) :
    Act.tryPlace acc stk ea n s = .ok (.ok (h, ea), s.translated ea l) := by
  have h1 : (stk && s.ctx.stat.emrg && decide (ea.toNat < s.ctx.space.skhi.toNat - 512)) = false := by
    cases stk with
    | false => rfl
    | true =>
      cases he : s.ctx.stat.emrg with
      | false => rfl
      | true => have := (hs rfl).2 he; simp; omega
  have h2 : (stk && decide (ea.toNat < s.ctx.space.sklo.toNat)) = false := by
    cases stk with
    | false => rfl
    | true => have := (hs rfl).1; simp; omega
  unfold Act.tryPlace
  have e : Act.place acc stk ea n true false s = .ok ((h, ea), s.translated ea l) := by
    simp only [Act.place, h1, h2, Bool.false_and, Bool.false_eq_true, if_false, hp]
    cases l <;> rfl
  rw [e]

theorem places_spec {acc : Acc} {stk : Bool} {n : Nat} {s t : State} {L : List (Lane × Option Leaf)} (h : State.AllPlaced acc n s L t)
    (hs : stk = true → ∀ e ∈ L, s.ctx.space.sklo.toNat ≤ e.1.ea.toNat ∧ (s.ctx.stat.emrg = true → s.ctx.space.skhi.toNat - 512 ≤ e.1.ea.toNat)) :
    Act.places acc stk n (L.map (fun e => (e.1.i, e.1.ea))) s = .ok ((L.map (fun e => e.1), []), t) := by
  induction L generalizing s with
  | nil => cases h; rfl
  | cons e L ih =>
    obtain ⟨x, l⟩ := e
    obtain ⟨h1, h2⟩ := h
    rw [List.map_cons, Act.places, Act.bind_ok (tryPlace_at (fun e => hs e _ (by simp)) h1),
      Act.bind_ok (ih h2 (fun e q hq => by rw [State.translated_ctx]; exact hs e q (by simp [hq])))]
    rfl

/-- What translations leave alone. -/
structure SameBut (s t : State) : Prop where
  ctxs : t.ctxs = s.ctxs
  who : t.pid = s.pid ∧ t.cx = s.cx
  net : t.net = s.net
  vers : t.vers = s.vers
  mem : t.mem = s.mem ∧ t.ue = s.ue
  marks : ∀ p off n, t.marked p off n = s.marked p off n
  sys : t.sys = s.sys
  bad : ∀ k n, t.bad k n = s.bad k n
  held : ∀ k, t.keyHeld k = s.keyHeld k

theorem AllPlaced.same {acc : Acc} {n : Nat} {s t : State} {L : List (Lane × Option Leaf)} (h : State.AllPlaced acc n s L t) : SameBut s t := by
  induction L generalizing s with
  | nil => cases h; exact ⟨rfl, ⟨rfl, rfl⟩, rfl, rfl, ⟨rfl, rfl⟩, fun _ _ _ => rfl, rfl, fun _ _ => rfl, fun _ => rfl⟩
  | cons e L ih =>
    obtain ⟨x, l⟩ := e
    obtain ⟨a1, a2, a3, a9, a4, a5, a6, a7, a8⟩ := ih h.2
    have hb := fun k n => State.bad_translated s x.ea l k n
    have hk := fun k => State.keyHeld_translated s x.ea l k
    have hm := fun p off n => State.marked_translated s x.ea l p off n
    cases l with
    | none => exact ⟨a1, a2, a3, a9, a4, a5, a6, a7, a8⟩
    | some l => exact ⟨a1, a2, a3, a9, a4, fun p off n => (a5 p off n).trans (hm p off n), a6, fun k n => (a7 k n).trans (hb k n), fun k => (a8 k).trans (hk k)⟩

theorem SameBut.ctx {s t : State} (h : SameBut s t) : t.ctx = s.ctx := by
  unfold State.ctx State.ctxAt; rw [h.ctxs, h.who.1, h.who.2]

theorem SameBut.ownAlias {s t : State} (h : SameBut s t) (k n : Nat) : t.ownAlias k n = s.ownAlias k n := by
  unfold State.ownAlias State.aliasOf; rw [h.ctx, h.net]

theorem SameBut.rdN {s t : State} (h : SameBut s t) (k n : Nat) : t.rdN k n = s.rdN k n := by
  unfold State.rdN State.rd; rw [h.mem.1]

theorem SameBut.clean {s t : State} (h : SameBut s t) (hc : s.Clean) : t.Clean := by
  unfold State.Clean; rw [h.ctx]; exact hc

theorem ownLanes_spec {n : Nat} {l : List Lane} {t : State} (h : ∀ x ∈ l, ∀ off, x.home = .spad t.pid off → t.marked t.pid off n = false ∧ t.ownAlias (spadKey t.pid off) n = false) :
    Act.ownLanes n l t = .ok ((), t) := by
  induction l with
  | nil => rfl
  | cons x l ih =>
    rw [Act.ownLanes, Act.bind_ok (Act.get_apply _)]
    have hx := h x (by simp)
    have hr := ih (fun y hy => h y (by simp [hy]))
    cases hh : x.home with
    | spad p off =>
      by_cases hp : p = t.pid
      · subst hp
        obtain ⟨h1, h2⟩ := hx off hh
        have : (Home.spad t.pid off).own t.pid = true := by simp [Home.own]
        rw [this, if_pos rfl]
        show (Act.ownBytes off n >>= fun _ => Act.ownLanes n l) t = _
        rw [Act.bind_ok (Act.ownBytes_free h1 h2), hr]
      · have : (Home.spad p off).own t.pid = false := by simpa [Home.own] using hp
        rw [this, if_neg (by decide)]; exact hr
    | _ => exact hr

theorem checks_load {s : State} (hc : s.Clean) (hg : s.noAcquire) (sp : Bool) (p : PReg) (d a b : Reg) (k : VAddr) {r : Raise}
    (h : Act.plan p a b k (s.issued 4) = .error (.raise r)) (hr : Eff.system r.eff = true) : vecLoad s sp p d a b k = .next (s.raised r) := by
  apply issue_raise hc (hd := hr)
  rw [Act.bind_ok (gate_issued hg), Act.bind_error h]

theorem checks_store {s : State} (hc : s.Clean) (hg : s.noAcquire) (sp : Bool) (p : PReg) (d a b : Reg) (k : VAddr) {r : Raise}
    (h : Act.plan p a b k (s.issued 4) = .error (.raise r)) (hr : Eff.system r.eff = true) : vecStore s sp p d a b k = .next (s.raised r) := by
  apply issue_raise hc (hd := hr)
  rw [Act.bind_ok (gate_issued hg), Act.bind_error h]

theorem vector_exec (s : State) (sp strict : Bool) (p : PReg) (d a b : Reg) :
    (∀ f ∈ vectorLoads sp strict p d a b, exec f.1 s = vecLoad s sp p d a b f.2) ∧ (∀ f ∈ vectorStores sp strict p d a b, exec f.1 s = vecStore s sp p d a b f.2) := by
  constructor
  · intro f hf
    simp only [vectorLoads, List.mem_cons, List.not_mem_nil, or_false] at hf
    rcases hf with rfl | rfl | rfl <;> rfl
  · intro f hf
    simp only [vectorStores, List.mem_cons, List.not_mem_nil, or_false] at hf
    rcases hf with rfl | rfl | rfl <;> rfl

/-- What stops every form before an access: an element whose address R19 refuses, else under STRICT one at or past GLIM (07 R190). -/
theorem vectorChecks_rules :
    ∀ (s : State) (sp strict : Bool) (p : PReg) (d a b : Reg), s.Clean → s.noAcquire →
    ∀ f ∈ vectorLoads sp strict p d a b ++ vectorStores sp strict p d a b,
      (a = 31 → ∀ i ∈ s.active p, s.ctx.space.sklo.toNat ≤ (s.elemAddr f.2 a b i).toNat) →
      (∀ i r, s.active p = i ++ r → (∀ j ∈ i, (s.elemAddr f.2 a b j).toNat % (s.ew / 8) = 0 ∧ (s.elemAddr f.2 a b j).toNat < 2 ^ 52) → ∀ j q, r = j :: q →
        ¬ ((s.elemAddr f.2 a b j).toNat % (s.ew / 8) = 0 ∧ (s.elemAddr f.2 a b j).toNat < 2 ^ 52) →
        ∃ m, (∀ n, bitOf m n = true ↔ n ∈ s.active p ∧ ¬ ((s.elemAddr f.2 a b n).toNat % (s.ew / 8) = 0 ∧ (s.elemAddr f.2 a b n).toNat < 2 ^ 52))
          ∧ exec f.1 s = .next (s.raised { eff := 0x003, addr := s.elemAddr f.2 a b j, lanes := W m, stk := a == 31 }))
      ∧ ((∀ j ∈ s.active p, (s.elemAddr f.2 a b j).toNat % (s.ew / 8) = 0 ∧ (s.elemAddr f.2 a b j).toNat < 2 ^ 52) → f.2 = .indexed true →
        ∀ i j q, s.active p = i ++ j :: q → (∀ n ∈ i, s.past f.2 b n = false) → s.past f.2 b j = true →
        ∃ m, (∀ n, bitOf m n = true ↔ n ∈ s.active p ∧ s.past f.2 b n = true)
          ∧ exec f.1 s = .next (s.raised { eff := 0x005, arg := W j, addr := s.elemAddr f.2 a b j, lanes := W m, stk := a == 31 })) := by
  intro s sp strict p d a b hc hg f hf ha
  obtain ⟨e1, e2⟩ := vector_exec s sp strict p d a b
  have key : ∀ r, Act.plan p a b f.2 (s.issued 4) = .error (.raise r) → Eff.system r.eff = true → exec f.1 s = .next (s.raised r) := by
    intro r hr hd
    rcases List.mem_append.1 hf with h | h
    · rw [e1 f h]; exact checks_load hc hg sp p d a b f.2 hr hd
    · rw [e2 f h]; exact checks_store hc hg sp p d a b f.2 hr hd
  refine ⟨fun i r hl hi j q hr hj => ?_, fun hal hst i j q hl hi hj => ?_⟩
  · subst hr
    refine ⟨maskOf ((s.active p).filter (s.elemBad f.2 a b)), fun n => ?_, ?_⟩
    · rw [maskOf_bits, List.mem_filter, ← elemBad_iff, Bool.not_eq_false]
    · exact key _ (plan_align hc f.2 p a b ha hl (fun n hn => (elemBad_iff f.2 a b n).2 (hi n hn)) (eq_true_of_not (fun e => hj ((elemBad_iff f.2 a b j).1 e)))) rfl
  · refine ⟨maskOf ((s.active p).filter (fun n => s.past f.2 b n)), fun n => ?_, ?_⟩
    · rw [maskOf_bits, List.mem_filter]
    · rw [hst] at hal hi hj ha ⊢
      exact key _ (by rw [hst]; exact plan_strict hc p a b ha (fun n hn => (elemBad_iff _ a b n).2 (hal n hn)) hl hi hj) rfl

theorem bits_ext {w : Nat} (hw : 0 < w) : ∀ (n x y : Nat), (∀ i < n, x / 2 ^ (w * i) % 2 ^ w = y / 2 ^ (w * i) % 2 ^ w) → x % 2 ^ (w * n) = y % 2 ^ (w * n)
  | 0, x, y, _ => by simp [Nat.mod_one]
  | n + 1, x, y, h => by
    have ih := bits_ext hw n x y (fun i hi => h i (by omega))
    have hn := h n (by omega)
    rw [Nat.mul_succ, Nat.pow_add, Nat.mod_mul, Nat.mod_mul (b := 2 ^ w), ih, hn]

theorem velem_ext {w : Nat} (hw : w = 8 ∨ w = 16 ∨ w = 32 ∨ w = 64) {u v : VWord} (h : ∀ i < 512 / w, velem w u i = velem w v i) : u = v := by
  apply BitVec.eq_of_toNat_eq
  have e := bits_ext (w := w) (by omega) (512 / w) u.toNat v.toNat h
  rw [(lanes_fit hw).2.1] at e
  rwa [Nat.mod_eq_of_lt u.isLt, Nat.mod_eq_of_lt v.isLt] at e

theorem foldl_set_length (l : List (Nat × Nat)) (a : List Nat) : (l.foldl (fun acc e => acc.set e.1 e.2) a).length = a.length := by
  induction l generalizing a with
  | nil => rfl
  | cons e l ih => rw [List.foldl_cons, ih, List.length_set]

theorem foldl_set_out (l : List (Nat × Nat)) (a : List Nat) {i : Nat} (h : ∀ e ∈ l, e.1 ≠ i) : (l.foldl (fun acc e => acc.set e.1 e.2) a).getD i 0 = a.getD i 0 := by
  induction l generalizing a with
  | nil => rfl
  | cons e l ih =>
    rw [List.foldl_cons, ih _ (fun q hq => h q (by simp [hq]))]
    rw [List.getD_eq_getElem?_getD, List.getElem?_set, if_neg (h e (by simp)), ← List.getD_eq_getElem?_getD]

theorem foldl_set_in (l : List (Nat × Nat)) (a : List Nat) {i x : Nat} (hn : (l.map (fun e => e.1)).Nodup) (h : (i, x) ∈ l) (hi : i < a.length) :
    (l.foldl (fun acc e => acc.set e.1 e.2) a).getD i 0 = x := by
  induction l generalizing a with
  | nil => cases h
  | cons e l ih =>
    rw [List.foldl_cons]
    rw [List.map_cons, List.nodup_cons] at hn
    rcases List.mem_cons.1 h with rfl | h
    · rw [foldl_set_out _ _ (fun q hq he => hn.1 (List.mem_map.2 ⟨q, hq, he⟩)), List.getD_eq_getElem?_getD, List.getElem?_set, if_pos rfl, if_pos hi]; rfl
    · exact ih _ hn.2 h (by rw [List.length_set]; exact hi)

theorem putLanes_out {s : State} (v : VWord) (l : List (Nat × Nat)) {i : Nat} (hi : i < 512 / s.ew) (h : ∀ e ∈ l, e.1 ≠ i) :
    velem s.ew (putLanes (s.ew / 8) v l) i = velem s.ew v i := by
  unfold putLanes
  rw [(ew_div s).2.1, velem_ofElems_all _ (by rw [foldl_set_length, elems_length]; exact Nat.le_of_eq (lanes_fit (ew_cases s)).2.1), foldl_set_out _ _ h, elems_getD _ hi]
  exact Nat.mod_eq_of_lt (velem_lt _ _ _)

theorem putLanes_in {s : State} (v : VWord) (l : List (Nat × Nat)) {i x : Nat} (hi : i < 512 / s.ew) (hn : (l.map (fun e => e.1)).Nodup) (h : (i, x) ∈ l) :
    velem s.ew (putLanes (s.ew / 8) v l) i = x % 2 ^ s.ew := by
  unfold putLanes
  rw [(ew_div s).2.1, velem_ofElems_all _ (by rw [foldl_set_length, elems_length]; exact Nat.le_of_eq (lanes_fit (ew_cases s)).2.1),
    foldl_set_in _ _ hn h (by rw [elems_length]; exact hi)]

theorem natOf_lt (l : List Byte) : natOf l < 256 ^ l.length := by
  induction l with
  | nil => simp [natOf]
  | cons b l ih => simp only [natOf, List.length_cons, Nat.pow_succ]; have := b.isLt; omega

theorem active_nodup (s : State) (p : PReg) : (s.active p).Nodup := List.Pairwise.filter _ List.nodup_range

theorem taking_nodup (s : State) (k : VAddr) (p : PReg) (b : Reg) : (s.taking k p b).Nodup := List.Pairwise.filter _ (active_nodup s p)

theorem VAccess.idx {s : State} {acc : Acc} {k : VAddr} {p : PReg} {a b : Reg} {L : List (Lane × Option Leaf)} {t : State} (h : s.VAccess acc k p a b L t) :
    L.map (fun e => e.1.i) = s.taking k p b := by
  have := congrArg (List.map (fun e : Nat × Word => e.1)) h.lanes
  rw [List.map_map, List.map_map] at this
  simpa [Function.comp_def] using this

theorem length_rds (m : List Host.Cell) (k n : Nat) : (Memory.rds m k n).length = n := by
  induction n generalizing k with
  | zero => rfl
  | succ n ih => simp [Memory.rds, ih]

/-- The register that a load makes of its near elements is the one that the statement describes. -/
theorem load_value {s : State} {acc : Acc} {k : VAddr} {p : PReg} {a b d : Reg} {L : List (Lane × Option Leaf)} {t : State} (h : s.VAccess acc k p a b L t)
    (hm : t.mem = s.mem)
    {v : VWord} (hv : ∀ i < 512 / s.ew,
        (i ∉ s.active p → velem s.ew v i = velem s.ew (s.ctx.regs.getV d) i)
        ∧ (i ∈ s.active p → s.past k b i = true → velem s.ew v i = 0)
        ∧ (∀ e ∈ L, e.1.i = i → velem s.ew v i = if e.1.home.own s.pid then natOf (Memory.rds s.mem e.1.home.key (s.ew / 8)) else velem s.ew (s.ctx.regs.getV d) i)) :
    putLanes (s.ew / 8) (putLanes (s.ew / 8) (s.ctx.regs.getV d) (((s.active p).filter (fun i => s.past k b i)).map (fun i => (i, 0))))
      (((L.map (fun e => e.1)).filter (fun x => x.home.own s.pid)).map (fun x => (x.i, t.rdN x.home.key (s.ew / 8)))) = v := by
  apply velem_ext (ew_cases s)
  intro i hi
  obtain ⟨h1, h2, h3⟩ := hv i hi
  have hidx := VAccess.idx h
  have hnd : ((((L.map (fun e => e.1)).filter (fun x => x.home.own s.pid)).map (fun x => (x.i, t.rdN x.home.key (s.ew / 8)))).map
      (fun e => e.1)).Nodup := by
    rw [List.map_map]
    have : (L.map (fun e => e.1)).map (fun x => x.i) = s.taking k p b := by rw [List.map_map]; exact hidx
    refine List.Pairwise.sublist (List.Sublist.map _ List.filter_sublist) ?_
    show ((L.map (fun e => e.1)).map (fun x => x.i)).Nodup
    rw [this]; exact taking_nodup s k p b
  have hout : ∀ (w : VWord), (∀ e ∈ L, e.1.i = i → e.1.home.own s.pid = false) → velem s.ew (putLanes (s.ew / 8) w
      (((L.map (fun e => e.1)).filter (fun x => x.home.own s.pid)).map (fun x => (x.i, t.rdN x.home.key (s.ew / 8))))) i = velem s.ew w i := by
    intro w hw
    apply putLanes_out w _ hi
    intro e he hei
    obtain ⟨x, hx, rfl⟩ := List.mem_map.1 he
    obtain ⟨hx1, hx2⟩ := List.mem_filter.1 hx
    obtain ⟨q, hq, rfl⟩ := List.mem_map.1 hx1
    rw [hw q hq hei] at hx2; cases hx2
  have hz : i ∉ (s.active p).filter (fun i => s.past k b i) → velem s.ew (putLanes (s.ew / 8) (s.ctx.regs.getV d) (((s.active p).filter (fun i => s.past k b i)).map (fun i => (i, 0)))) i
      = velem s.ew (s.ctx.regs.getV d) i := by
    intro hn
    apply putLanes_out _ _ hi
    intro e he hei
    obtain ⟨j, hj, rfl⟩ := List.mem_map.1 he
    have : j = i := hei
    subst this; exact hn hj
  have hmem : ∀ e ∈ L, e.1.i ∈ s.taking k p b := fun e he => by rw [← hidx]; exact List.mem_map.2 ⟨e, he, rfl⟩
  by_cases ha : i ∈ s.active p
  · by_cases hp : s.past k b i = true
    · rw [hout _ (fun e he hei => by
        have := (List.mem_filter.1 (hmem e he)).2
        rw [hei, hp] at this; cases this), h2 ha hp]
      have hin : (i, 0) ∈ ((s.active p).filter (fun i => s.past k b i)).map (fun i => (i, 0)) := List.mem_map.2 ⟨i, List.mem_filter.2 ⟨ha, hp⟩, rfl⟩
      rw [putLanes_in _ _ hi (by
        rw [List.map_map]
        have e : ((fun e : Nat × Nat => e.1) ∘ fun i => (i, 0)) = id := rfl
        rw [e, List.map_id]; exact List.Pairwise.filter _ (active_nodup s p)) hin]
      exact Nat.zero_mod _
    · have htk : i ∈ s.taking k p b := List.mem_filter.2 ⟨ha, by simpa using hp⟩
      rw [← hidx] at htk
      obtain ⟨e, he, hei⟩ := List.mem_map.1 htk
      have hei : e.1.i = i := hei
      rw [h3 e he hei]
      by_cases ho : e.1.home.own s.pid = true
      · rw [if_pos ho]
        have hin : (i, t.rdN e.1.home.key (s.ew / 8)) ∈ ((L.map (fun e => e.1)).filter (fun x => x.home.own s.pid)).map
            (fun x => (x.i, t.rdN x.home.key (s.ew / 8))) := by
          refine List.mem_map.2 ⟨e.1, List.mem_filter.2 ⟨List.mem_map.2 ⟨e, he, rfl⟩, ho⟩, ?_⟩
          rw [hei]
        rw [putLanes_in _ _ hi hnd hin]
        have hr : t.rdN e.1.home.key (s.ew / 8) = natOf (Memory.rds s.mem e.1.home.key (s.ew / 8)) := by
          unfold State.rdN State.rd; rw [hm]
        rw [hr]
        apply Nat.mod_eq_of_lt
        have := natOf_lt (Memory.rds s.mem e.1.home.key (s.ew / 8))
        rw [length_rds] at this
        have e8 : (256 : Nat) ^ (s.ew / 8) = 2 ^ s.ew := by
          rw [show (256 : Nat) = 2 ^ 8 from rfl, ← Nat.pow_mul, (ew_div s).2.1]
        rwa [e8] at this
      · rw [if_neg ho, hout _ (fun q hq hqi => by
          have hqe : q.1.home.own s.pid = e.1.home.own s.pid := by
            -- lanes with one number are one lane
            have hnd2 : (L.map (fun e => e.1.i)).Nodup := by rw [hidx]; exact taking_nodup s k p b
            obtain ⟨m, hm1, hm2⟩ := List.getElem_of_mem hq
            obtain ⟨n, hn1, hn2⟩ := List.getElem_of_mem he
            have hmn : m = n := by
              apply List.getElem_inj hnd2 (h₀ := by simpa using hm1) (h₁ := by simpa using hn1) |>.1
              rw [List.getElem_map, List.getElem_map, hm2, hn2, hqi, hei]
            subst hmn; rw [← hm2, ← hn2]
          rw [hqe]; simpa using ho), hz (fun hh => hp (List.mem_filter.1 hh).2)]
  · rw [hout _ (fun e he hei => absurd (hei ▸ (List.mem_filter.1 (hmem e he)).1) ha), h1 ha]
    exact hz (fun hh => ha (List.mem_filter.1 hh).1)

theorem pastLanes_spec {s t : State} (hc : t.Clean) (k : VAddr) (p : PReg) (b : Reg) :
    Act.pastLanes k ((s.active p).filter (fun i => s.past k b i)) t = .ok ((), s.putPast k p b t) := by
  unfold Act.pastLanes State.putPast
  cases k.loose with
  | true => rw [if_pos rfl, if_pos rfl, Act.wrP_clean hc]
  | false => rfl

theorem putPast_clean {s t : State} (hc : t.Clean) (k : VAddr) (p : PReg) (b : Reg) : (s.putPast k p b t).Clean := by
  unfold State.putPast
  cases k.loose with
  | true => rw [if_pos rfl]; exact hc.modCtx (Regs.allPresent_setP _ _ _) rfl
  | false => exact hc

theorem VAccess.ready {s : State} {acc : Acc} {k : VAddr} {p : PReg} {a b : Reg} {L : List (Lane × Option Leaf)} {t : State} (h : s.VAccess acc k p a b L t) :
    (∀ e ∈ L, ∃ i ∈ s.active p, e.1.ea = s.elemAddr k a b i) := by
  intro e he
  have : (e.1.i, e.1.ea) ∈ L.map (fun e => (e.1.i, e.1.ea)) := List.mem_map.2 ⟨e, he, rfl⟩
  rw [h.lanes] at this
  obtain ⟨i, hi, hh⟩ := List.mem_map.1 this
  exact ⟨i, (List.mem_filter.1 hi).1, (congrArg (fun x : Nat × Word => x.2) hh).symm⟩

theorem VAccess.stk {s : State} {acc : Acc} {k : VAddr} {p : PReg} {a b : Reg} {L : List (Lane × Option Leaf)} {t : State} (h : s.VAccess acc k p a b L t) :
    (a == 31) = true → ∀ e ∈ L, (s.issued 4).ctx.space.sklo.toNat ≤ e.1.ea.toNat ∧ ((s.issued 4).ctx.stat.emrg = true → (s.issued 4).ctx.space.skhi.toNat - 512 ≤ e.1.ea.toNat) := by
  intro ha e he
  obtain ⟨i, hi, hea⟩ := VAccess.ready h e he
  rw [State.issued_space, State.issued_stat, hea]
  exact h.stack (by simpa using ha) i hi

theorem own_spec {s : State} {acc : Acc} {k : VAddr} {p : PReg} {a b : Reg} {L : List (Lane × Option Leaf)} {t : State} (h : s.VAccess acc k p a b L t)
    {l : List Lane} (hl : ∀ x ∈ l, x ∈ L.map (fun e => e.1)) (hn : ∀ e ∈ L, s.nearFree (s.ew / 8) e.1) : Act.ownLanes (s.ew / 8) l t = .ok ((), t) := by
  have hsame := AllPlaced.same h.placed
  refine ownLanes_spec (fun x hx off ho => ?_)
  obtain ⟨e, he, rfl⟩ := List.mem_map.1 (hl x hx)
  rw [hsame.who.1] at ho ⊢
  rw [hsame.marks, hsame.ownAlias]
  obtain ⟨h1, h2⟩ := hn e he off ho
  refine ⟨h1, ?_⟩
  have : (s.issued 4).ownAlias (spadKey s.pid off) (s.ew / 8) = s.ownAlias (spadKey s.pid off) (s.ew / 8) := by
    unfold State.ownAlias; rw [State.issued_act]; rfl
  exact this.trans h2

/-- An element of the local window has its home in the core's own scratchpad. -/
theorem locate_local {s : State} {pid : Nat} {ptroot : Word} {sup : Bool} {acc : Acc} {ea : Word} {n : Nat} {m c : Bool} {h : Home} {l : Option Leaf}
    (hp : s.locate pid ptroot sup acc ea n m c = .ok (h, l)) (hl : ea.toNat < 0x180000) : h.own pid = true := by
  unfold State.locate at hp
  have hc : classOf ea.toNat = .spad ea.toNat := by unfold classOf; rw [if_pos hl]
  dsimp only at hp
  split at hp
  · cases hp
  · split at hp
    · cases hp
    · rw [hc] at hp
      dsimp only at hp
      split at hp
      · cases hp
      · injection hp with hp; injection hp with h1 h2; subst h1; simp [Home.own]

theorem AllPlaced.own {acc : Acc} {n : Nat} {s t : State} {L : List (Lane × Option Leaf)} (h : State.AllPlaced acc n (s.issued 4) L t) :
    ∀ e ∈ L, e.1.ea.toNat < 0x180000 → e.1.home.own s.pid = true := by
  have key : ∀ (L : List (Lane × Option Leaf)) (u : State), State.AllPlaced acc n u L t → ∀ e ∈ L, e.1.ea.toNat < 0x180000 → e.1.home.own u.pid = true := by
    intro L
    induction L with
    | nil => intro u _ e he; cases he
    | cons x L ih =>
      intro u hu e he hl
      obtain ⟨y, l⟩ := x
      obtain ⟨h1, h2⟩ := hu
      rcases List.mem_cons.1 he with rfl | he
      · exact locate_local h1 hl
      · have := ih _ h2 e he hl
        rwa [State.translated_pid] at this
  have := key L _ h
  rwa [State.issuedAt_pid] at this

theorem readLanes_spec {u : State} {pid n : Nat} {l : List Lane} (here : Word) (h : ∀ x ∈ l, x.home.own pid = true ∧ u.bad x.home.key n = false) :
    u.readLanes pid here n l = (u, l.map (fun x => (x.i, u.rdN x.home.key n)), []) := by
  induction l with
  | nil => rfl
  | cons x l ih =>
    obtain ⟨h1, h2⟩ := h x (by simp)
    have hr : u.readHome pid x.home n false = (u, u.rd x.home.key n, false) := by
      cases hx : x.home with
      | spad p off =>
        rw [hx] at h2
        unfold State.readHome
        simp only [Home.outside, Bool.false_eq_true, if_false]
        rw [show Home.readKey u.sys.lead pid (.spad p off) = (Home.spad p off).key from rfl, if_neg (by rw [h2]; decide)]
      | _ => rw [hx] at h1; simp [Home.own] at h1
    rw [State.readLanes, hr]
    dsimp only
    rw [ih (fun y hy => h y (by simp [hy]))]
    rfl

theorem vectorLoads_rules :
    ∀ (s : State) (sp strict : Bool) (p : PReg) (d a b : Reg), s.Clean → ∀ f ∈ vectorLoads sp strict p d a b, ∀ L t,
    s.VAccess .read f.2 p a b L t → (∀ e ∈ L, s.nearFree (s.ew / 8) e.1) → (∀ e ∈ L, e.1.home.own s.pid = true → s.bad e.1.home.key (s.ew / 8) = false) →
    ∀ v : VWord, (∀ i < 512 / s.ew,
        (i ∉ s.active p → velem s.ew v i = velem s.ew (s.ctx.regs.getV d) i)
        ∧ (i ∈ s.active p → s.past f.2 b i = true → velem s.ew v i = 0)
        ∧ (∀ e ∈ L, e.1.i = i → velem s.ew v i = if e.1.home.own s.pid then natOf (Memory.rds s.mem e.1.home.key (s.ew / 8)) else velem s.ew (s.ctx.regs.getV d) i)) →
    ((∀ e ∈ L, e.1.ea.toNat < 0x180000) → exec f.1 s = .next ((s.putPast f.2 p b (t.modCtx (fun c => c.setV d v))).switch sp))
    ∧ (¬ (∀ e ∈ L, e.1.ea.toNat < 0x180000) → ∀ far, far = (L.map (fun e => e.1)).filter (fun x => !x.home.own s.pid) →
      ∀ u : State, u = (s.putPast f.2 p b t).modCtx (fun c => { c with regs := c.regs.setPresent false (.v d) }) →
        (far = [] → exec f.1 s = .next ((u.sendResult (.v d) (.v v)).switch sp))
        ∧ (far ≠ [] → exec f.1 s = .next ((u.post (far.map (fun x => ⟨x.home, s.ew / 8⟩)) (.vload (s.ew / 8) (far.map (fun x => (x.i, x.ea))) d v [])
            false false s.ctx.pc 0).switch sp))) := by
  intro s sp strict p d a b hc f hf L t h hn hg v hv
  obtain ⟨e1, -⟩ := vector_exec s sp strict p d a b
  have hsame := AllPlaced.same h.placed
  have hct : t.Clean := hsame.clean (hc.issued 4)
  have hpid : t.pid = s.pid := hsame.who.1
  have hbad : ∀ e ∈ L, e.1.home.own s.pid = true → t.bad e.1.home.key (s.ew / 8) = false := fun e he ho => by rw [hsame.bad]; exact hg e he ho
  have hval := load_value h hsame.mem.1 hv
  have hread := readLanes_spec (u := (s.putPast f.2 p b t).modCtx (fun c => { c with regs := c.regs.setPresent false (.v d) }))
    (l := (L.map (fun e => e.1)).filter (fun x => x.home.own s.pid)) (n := s.ew / 8) (pid := s.pid) s.here (fun x hx => by
      obtain ⟨hx1, hx2⟩ := List.mem_filter.1 hx
      obtain ⟨e, he, rfl⟩ := List.mem_map.1 hx1
      refine ⟨hx2, ?_⟩
      rw [← hbad e he hx2]; unfold State.putPast; split <;> rfl)
  have hrd : ∀ k n, State.rdN ((s.putPast f.2 p b t).modCtx (fun c => { c with regs := c.regs.setPresent false (.v d) })) k n = t.rdN k n := by
    intro k n; unfold State.putPast; split <;> rfl
  have hup : ((s.putPast f.2 p b t).modCtx (fun c => { c with regs := c.regs.setPresent false (.v d) })).pid = s.pid := by
    rw [← hpid]; unfold State.putPast; split <;> rfl
  simp only [hrd] at hread
  have h4 := hc.issued 4
  have hall : ¬ (∀ e ∈ L, e.1.ea.toNat < 0x180000) → (L.map (fun e => e.1)).all (fun x => inLocal x.ea.toNat) = false := by
    intro hl
    rw [Bool.eq_false_iff]; intro e
    exact hl (fun q hq => of_decide_eq_true (List.all_eq_true.1 e q.1 (List.mem_map.2 ⟨q, hq, rfl⟩)))
  rw [e1 f hf]
  refine ⟨fun hl => ?_, fun hl far hfar u hu => ⟨fun hnil => ?_, fun hne => ?_⟩⟩
  · apply issue_ok
    rw [Act.bind_ok (gate_issued h.gate), Act.bind_ok (plan_ok hc h)]
    dsimp only
    rw [Act.bind_ok (Act.rdV_clean h4 d), State.issued_regs, Act.bind_ok (places_spec h.placed (VAccess.stk h))]
    dsimp only
    rw [Act.bind_ok (own_spec h (fun _ hx => hx) hn)]
    dsimp only [laneFault, List.head?, Option.map]
    rw [Act.bind_ok (Act.get_apply _), hpid]
    have hnear : (L.map (fun e => e.1)).filter (fun x => t.bad x.home.key (s.ew / 8)) = [] := List.filter_eq_nil_iff.2 (fun x hx => by
      obtain ⟨e, he, rfl⟩ := List.mem_map.1 hx
      rw [hbad e he (AllPlaced.own h.placed e he (hl e he))]; decide)
    have hall : (L.map (fun e => e.1)).all (fun x => inLocal x.ea.toNat) = true := by
      rw [List.all_eq_true]; intro x hx
      obtain ⟨e, he, rfl⟩ := List.mem_map.1 hx
      exact decide_eq_true (hl e he)
    rw [hall, if_pos rfl, hnear, Act.bind_ok (show Act.checkLanes s.here (a == 31) [] t = .ok ((), t) from rfl), hval, Act.bind_ok (Act.wrV_clean hct _ _)]
    exact pastLanes_spec (hct.modCtx (Regs.allPresent_setV _ _ _) rfl) _ _ _
  · subst hu
    apply issue_ok
    rw [Act.bind_ok (gate_issued h.gate), Act.bind_ok (plan_ok hc h)]
    dsimp only
    rw [Act.bind_ok (Act.rdV_clean h4 d), State.issued_regs, Act.bind_ok (places_spec h.placed (VAccess.stk h))]
    dsimp only
    rw [Act.bind_ok (own_spec h (fun _ hx => hx) hn)]
    dsimp only [laneFault, List.head?, Option.map]
    rw [Act.bind_ok (Act.get_apply _), hpid, hall hl, if_neg (by decide), Act.bind_ok (pastLanes_spec hct _ _ _),
      Act.bind_ok (Act.pendDest_clean (putPast_clean hct _ _ _) _), Act.bind_ok (Act.get_apply _), hup, hread]
    dsimp only
    rw [Act.bind_ok (show (set _ : Act Unit) _ = .ok ((), _) from rfl), hval, ← hfar, hnil]
    rfl
  · subst hu
    apply issue_ok
    rw [Act.bind_ok (gate_issued h.gate), Act.bind_ok (plan_ok hc h)]
    dsimp only
    rw [Act.bind_ok (Act.rdV_clean h4 d), State.issued_regs, Act.bind_ok (places_spec h.placed (VAccess.stk h))]
    dsimp only
    rw [Act.bind_ok (own_spec h (fun _ hx => hx) hn)]
    dsimp only [laneFault, List.head?, Option.map]
    rw [Act.bind_ok (Act.get_apply _), hpid, hall hl, if_neg (by decide), Act.bind_ok (pastLanes_spec hct _ _ _),
      Act.bind_ok (Act.pendDest_clean (putPast_clean hct _ _ _) _), Act.bind_ok (Act.get_apply _), hup, hread]
    dsimp only
    rw [Act.bind_ok (show (set _ : Act Unit) _ = .ok ((), _) from rfl), hval, ← hfar]
    rw [if_neg (by simpa using hne)]
    rfl

end Sys2Proof.Machine
end

