-- ==== Sys2Proof/Laws/VectorStores.lean ====
section
/-! SUPPORT. Vector stores and VSCATADD: which bytes are written. -/

set_option Elab.async false

namespace Sys2Proof.Machine

theorem wr_small {s : State} {k : Nat} {bs : List Byte} (h : bs.length < 64) : (s.wr k bs).ue = s.ue := by
  unfold State.wr
  dsimp only
  split
  · rename_i h1; exact (List.isEmpty_iff.1 h1).symm
  · rw [List.filter_eq_self]
    intro l _; simp; omega

theorem nearStored_ue {s : State} {n : Nat} (hn : n < 64) (data : Nat → Nat) (l : List Lane) : (s.nearStored n data l).ue = s.ue := by
  unfold State.nearStored
  induction l generalizing s with
  | nil => rfl
  | cons x l ih => rw [List.foldl_cons, ih, wr_small (by rw [length_bytesOf]; exact hn)]

theorem nearStored_rd {n : Nat} (data : Nat → Nat) (l : List Lane) {s : State} (hm : s.memOk) (j : Nat) (h : ∀ x ∈ l, ¬ x.covers n j) :
    Memory.rd (s.nearStored n data l).mem j = Memory.rd s.mem j := by
  unfold State.nearStored
  induction l generalizing s with
  | nil => rfl
  | cons x l ih =>
    rw [List.foldl_cons, ih (show (s.wr _ _).memOk from Memory.wf_wrs _ _ _ hm) (fun y hy => h y (by simp [hy])), State.wr_mem, Memory.rd_wrs _ _ _ _ hm, length_bytesOf]
    exact if_neg (h x (by simp))

theorem nearStored_at {n : Nat} (data : Nat → Nat) (pre post : List Lane) (x : Lane) {s : State} (hm : s.memOk) {q : Nat} (hq : q < n)
    (h : ∀ y ∈ post, ¬ y.covers n (x.home.key + q)) : Memory.rd (s.nearStored n data (pre ++ x :: post)).mem (x.home.key + q) = BitVec.ofNat 8 (data x.i / 256 ^ q) := by
  unfold State.nearStored
  induction pre generalizing s with
  | nil =>
    rw [List.nil_append, List.foldl_cons]
    have := nearStored_rd data post (s := s.wr x.home.key (bytesOf n (data x.i))) (Memory.wf_wrs _ _ _ hm) _ h
    unfold State.nearStored at this
    rw [this, State.wr_mem, Memory.rd_wrs _ _ _ _ hm, length_bytesOf, if_pos ⟨Nat.le_add_right _ _, by omega⟩, Nat.add_sub_cancel_left]
    exact bytesOf_getD _ _ _ hq
  | cons y pre ih => rw [List.cons_append, List.foldl_cons]; exact ih (Memory.wf_wrs _ _ _ hm)

theorem lastLanes_mem {l : List Lane} {x : Lane} (h : x ∈ lastLanes l) : x ∈ l := by
  induction l with
  | nil => cases h
  | cons y l ih =>
    unfold lastLanes at h
    split at h
    · exact List.mem_cons_of_mem _ (ih h)
    · rcases List.mem_cons.1 h with rfl | h
      · simp
      · exact List.mem_cons_of_mem _ (ih h)

theorem putPast_same {s : State} (k : VAddr) (p : PReg) (b : Reg) (t : State) : (s.putPast k p b t).mem = t.mem ∧ (s.putPast k p b t).ue = t.ue := by
  unfold State.putPast; cases k.loose <;> exact ⟨rfl, rfl⟩

theorem SameBut.homeBad {s t : State} (h : SameBut s t) (x : Home) (n : Nat) : t.homeBad x n = s.homeBad x n := by
  cases x <;> simp only [State.homeBad, h.bad, h.sys]

theorem unmarked_free {l : List Piece} {t : State} (h : ∀ p ∈ l, ∀ off, p.home = .spad t.pid off → t.marked t.pid off p.len = false) :
    Act.unmarked l t = .ok ((), t) := by
  induction l with
  | nil => rfl
  | cons p l ih =>
    have hr := ih (fun q hq => h q (by simp [hq]))
    have hp := h p (by simp)
    rw [Act.unmarked, Act.bind_ok (Act.get_apply _)]
    cases hh : p.home with
    | spad q off =>
      have : (q == t.pid && t.marked q off p.len) = false := by
        by_cases hq : q = t.pid
        · subst hq; rw [hp off hh]; simp
        · rw [beq_eq_false_iff_ne.2 hq]; rfl
      dsimp only
      rw [this, Act.bind_ok (Act.waitIf_false _ _), hr]
    | _ => exact hr

theorem bad_line {s : State} {k n : Nat} (hn : 0 < n) (h : s.bad k n = false) : lineOf k ∉ s.ue := by
  intro hm
  unfold State.bad at h
  have h1 : (!s.ue.isEmpty && (State.linesOf k n).any (fun l => s.ue.contains l)) = true := by
    rw [Bool.and_eq_true]
    refine ⟨?_, List.any_eq_true.2 ⟨lineOf k, ?_, by simpa using hm⟩⟩
    · cases hu : s.ue with
      | nil => rw [hu] at hm; cases hm
      | cons a l => rfl
    · unfold State.linesOf
      rw [if_neg (by omega)]
      exact List.mem_map.2 ⟨0, List.mem_range.2 (by omega), by simp⟩
  rw [h1] at h; simp at h

theorem vectorStores_rules :
    ∀ (s : State) (sp strict : Bool) (p : PReg) (d a b : Reg), s.Clean → ∀ f ∈ vectorStores sp strict p d a b, ∀ L t,
    s.VAccess .write f.2 p a b L t → (∀ e ∈ L, s.nearFree (s.ew / 8) e.1) → (∀ e ∈ L, s.homeBad e.1.home (s.ew / 8) = false) →
    ∀ kept near far u data, kept = (if f.2 = .contiguous then L.map (fun e => e.1) else lastLanes (L.map (fun e => e.1))) →
      near = kept.filter (fun x => x.home.own s.pid) → far = kept.filter (fun x => !x.home.own s.pid) →
      data = (fun i => velem s.ew (s.ctx.regs.getV d) i) → u = (s.putPast f.2 p b t).nearStored (s.ew / 8) data near →
      (far = [] → exec f.1 s = .next (u.switch sp))
      ∧ (far ≠ [] → exec f.1 s = .next ((u.post (far.map (fun x => ⟨x.home, s.ew / 8⟩))
          (.vstore (far.map (fun x => bytesOf (s.ew / 8) (data x.i))) (far.map (fun x => (x.i, x.ea))) (wholeLines (s.ew / 8) kept) []) false false s.ctx.pc 0).switch sp))
      ∧ (s.memOk → (∀ j, (∀ x ∈ near, ¬ x.covers (s.ew / 8) j) → Memory.rd u.mem j = Memory.rd s.mem j)
          ∧ (∀ pre x rest, near = pre ++ x :: rest → ∀ q < s.ew / 8, (∀ y ∈ rest, ¬ y.covers (s.ew / 8) (x.home.key + q)) →
              Memory.rd u.mem (x.home.key + q) = BitVec.ofNat 8 (data x.i / 256 ^ q))) := by
  intro s sp strict p d a b hc f hf L t h hn hg kept near far u data hkept hnear hfar hdata hu
  obtain ⟨-, e2⟩ := vector_exec s sp strict p d a b
  have h4 := hc.issued 4
  have hsame := AllPlaced.same h.placed
  have hct : t.Clean := hsame.clean h4
  have hpid : t.pid = s.pid := hsame.who.1
  obtain ⟨w1, w2, w3⟩ := ew_div s
  have hw8 : s.ew / 8 < 64 := by rcases ew_cases s with h | h | h | h <;> rw [h] <;> decide
  have hsub : ∀ x ∈ kept, x ∈ L.map (fun e => e.1) := by
    intro x hx; rw [hkept] at hx
    split at hx
    · exact hx
    · exact lastLanes_mem hx
  have hhome : ∀ x ∈ kept, t.homeBad x.home (s.ew / 8) = false := fun x hx => by
    obtain ⟨e, he, rfl⟩ := List.mem_map.1 (hsub x hx)
    rw [hsame.homeBad]; exact hg e he
  have hbad : ∀ x ∈ near, t.bad x.home.key (s.ew / 8) = false := fun x hx => by
    obtain ⟨hx1, hx2⟩ := List.mem_filter.1 (hnear ▸ hx)
    have := hhome x hx1
    cases hh : x.home with
    | spad p off => rw [hh] at this; exact this
    | _ => rw [hh] at hx2; simp [Home.own] at hx2
  have hk : f.2.stored (L.map (fun e => e.1)) = kept := by
    rw [hkept]
    cases f.2 <;> simp [VAddr.stored]
  have hb : kept.filter (fun x => t.homeBad x.home (s.ew / 8) && !(wholeLines (s.ew / 8) kept).contains (lineOf x.home.key)) = [] :=
    List.filter_eq_nil_iff.2 (fun x hx => by rw [hhome x hx]; simp)
  have hel : ∀ i, (elems s.ew (s.ctx.regs.getV d)).getD i 0 = if i < 512 / s.ew then velem s.ew (s.ctx.regs.getV d) i else 0 := by
    intro i
    by_cases hi : i < 512 / s.ew
    · rw [if_pos hi, elems_getD _ hi]
    · rw [if_neg hi, List.getD_eq_getElem?_getD, List.getElem?_eq_none (by rw [elems_length]; omega)]; rfl
  have hlt : ∀ x ∈ kept, (elems s.ew (s.ctx.regs.getV d)).getD x.i 0 = data x.i := by
    intro x hx
    obtain ⟨e, he, rfl⟩ := List.mem_map.1 (hsub x hx)
    have : e.1.i ∈ s.taking f.2 p b := by rw [← VAccess.idx h]; exact List.mem_map.2 ⟨e, he, rfl⟩
    have := List.mem_range.1 (List.mem_filter.1 (List.mem_filter.1 this).1).1
    rw [hel, if_pos this, hdata]
  have hstore : ∀ r : State, r.storeLanes (s.ew / 8) (elems s.ew (s.ctx.regs.getV d)) near = r.nearStored (s.ew / 8) data near := by
    intro r
    have hsub2 : ∀ x ∈ near, (elems s.ew (s.ctx.regs.getV d)).getD x.i 0 = data x.i := fun x hx => hlt x (by rw [hnear] at hx; exact (List.mem_filter.1 hx).1)
    unfold State.storeLanes State.nearStored
    generalize near = l at hsub2
    induction l generalizing r with
    | nil => rfl
    | cons x l ih => rw [List.foldl_cons, List.foldl_cons, hsub2 x (by simp)]; exact ih _ (fun y hy => hsub2 y (by simp [hy]))
  have hue : ∀ r : State, r.ue = t.ue → r.ue.filter (fun l => !(near.any (fun x => lineOf x.home.key == l) && (wholeLines (s.ew / 8) kept).contains l)) = r.ue := by
    intro r hr
    rw [hr, List.filter_eq_self]
    intro l hl
    have : near.any (fun x => lineOf x.home.key == l) = false := by
      rw [List.any_eq_false]; intro x hx
      have := bad_line w3 (hbad x hx)
      intro e
      rw [beq_iff_eq] at e
      rw [e] at this; exact this hl
    rw [this]; rfl
  have hupd : ∀ r : State, r.ue = t.ue → { (r.storeLanes (s.ew / 8) (elems s.ew (s.ctx.regs.getV d)) near) with
      ue := r.ue.filter (fun l => !(near.any (fun x => lineOf x.home.key == l) && (wholeLines (s.ew / 8) kept).contains l)) } = r.nearStored (s.ew / 8) data near := by
    intro r hr
    rw [hue r hr, hstore r, ← nearStored_ue hw8 data near (s := r)]
  obtain ⟨m1, m2⟩ := putPast_same f.2 p b t (s := s)
  have hm1 : (s.putPast f.2 p b t).mem = s.mem := by rw [m1, hsame.mem.1]; rfl
  have start : ∀ (R : State → Prop), (∀ q : Act Unit, ((if far.isEmpty then pure () else Act.post (far.map (fun x => ⟨x.home, s.ew / 8⟩))
        (.vstore (far.map (fun x => bytesOf (s.ew / 8) ((elems s.ew (s.ctx.regs.getV d)).getD x.i 0))) (far.map (fun x => (x.i, x.ea))) (wholeLines (s.ew / 8) kept) []) false false s.here 0 : Act Unit) = q →
      ∀ v, q u = .ok ((), v) → R (v.switch sp))) → ∃ v, R v ∧ exec f.1 s = .next v := by
    intro R hR
    have hq : ∃ v, (if far.isEmpty then pure () else Act.post (far.map (fun x => ⟨x.home, s.ew / 8⟩))
        (.vstore (far.map (fun x => bytesOf (s.ew / 8) ((elems s.ew (s.ctx.regs.getV d)).getD x.i 0))) (far.map (fun x => (x.i, x.ea))) (wholeLines (s.ew / 8) kept) []) false false s.here 0 : Act Unit) u = .ok ((), v) := by
      cases far.isEmpty <;> exact ⟨_, rfl⟩
    obtain ⟨v, hv⟩ := hq
    refine ⟨v.switch sp, hR _ rfl v hv, ?_⟩
    rw [e2 f hf]
    apply issue_ok
    rw [Act.bind_ok (gate_issued h.gate), Act.bind_ok (plan_ok hc h)]
    dsimp only
    rw [Act.bind_ok (Act.rdV_clean h4 d), State.issued_regs, Act.bind_ok (places_spec h.placed (VAccess.stk h)), w2]
    dsimp only [laneFault, List.head?, Option.map]
    rw [hk, Act.bind_ok (own_spec h hsub hn), Act.bind_ok (Act.get_apply _), hb, Act.bind_ok (show Act.checkLanes s.here (a == 31) [] t = .ok ((), t) from rfl), hpid, ← hnear, ← hfar,
      Act.bind_ok (pastLanes_spec hct _ _ _), Act.bind_ok (Act.upd_apply _ _), hupd _ m2, ← hu, hv]
  refine ⟨fun hnil => ?_, fun hne => ?_, fun hm => ⟨fun j hj => ?_, fun pre x post he q hq hj => ?_⟩⟩
  · obtain ⟨v, rfl, hv⟩ := start (fun v => v = u.switch sp) (fun q hq v hv => by
      rw [hnil] at hq; subst hq; cases hv; rfl)
    exact hv
  · obtain ⟨v, rfl, hv⟩ := start (fun v => v = (u.post (far.map (fun x => ⟨x.home, s.ew / 8⟩))
          (.vstore (far.map (fun x => bytesOf (s.ew / 8) (data x.i))) (far.map (fun x => (x.i, x.ea))) (wholeLines (s.ew / 8) kept) []) false false s.ctx.pc 0).switch sp) (fun q hq v hv => by
      rw [if_neg (by simpa using hne)] at hq; subst hq; cases hv
      have e : far.map (fun x => bytesOf (s.ew / 8) ((elems s.ew (s.ctx.regs.getV d)).getD x.i 0)) = far.map (fun x => bytesOf (s.ew / 8) (data x.i)) := by
        apply List.map_congr_left
        intro x hx
        rw [hlt x (by rw [hfar] at hx; exact (List.mem_filter.1 hx).1)]
      rw [e]; rfl)
    exact hv
  · rw [hu, nearStored_rd data near (show (s.putPast f.2 p b t).memOk from by unfold State.memOk; rw [hm1]; exact hm) j hj, hm1]
  · rw [hu, he]; exact nearStored_at data pre post x (show (s.putPast f.2 p b t).memOk from by unfold State.memOk; rw [hm1]; exact hm) hq hj

theorem exec_vscatadd (s : State) (sp strict : Bool) (p : PReg) (d a b : Reg) : exec (.vscatadd sp strict p d a b) s = scatterAdd s sp p d a b (.indexed strict) := rfl

theorem scatterAdd_rules :
    ∀ (s : State) (sp strict : Bool) (p : PReg) (d a b : Reg), s.Clean →
    (∀ L t, s.VAccess .rmw (.indexed strict) p a b L t → (∀ e ∈ L, s.homeBad e.1.home (s.ew / 8) = false) →
      (∀ e ∈ L, ∀ off, e.1.home = .spad s.pid off → s.marked s.pid off (s.ew / 8) = false) →
      ∀ f rm, f = fld s.ctx.num.vt 3 0 → rm = fld s.ctx.num.vt 6 4 → (f = 4 ∨ f = 5 ∨ (f = 14 ∨ f = 15) ∧ rm < 5) →
      (L = [] → exec (.vscatadd sp strict p d a b) s = .next ((s.putPast (.indexed strict) p b t).switch sp))
      ∧ (L ≠ [] → exec (.vscatadd sp strict p d a b) s = .next ((((s.putPast (.indexed strict) p b t).post (L.map (fun e => ⟨e.1.home, s.ew / 8⟩))
          (.adds f rm (fld s.ctx.num.flagen 6 0) (L.map (fun e => (e.1.i, e.1.ea, velem s.ew (s.ctx.regs.getV d) e.1.i))) 0 0 [])
          false false s.ctx.pc 0).performLocal s.pid s.net.nextReq L.length).switch sp)))
    ∧ (s.noAcquire → ∀ f rm, f = fld s.ctx.num.vt 3 0 → rm = fld s.ctx.num.vt 6 4 → ¬ (f = 4 ∨ f = 5 ∨ (f = 14 ∨ f = 15) ∧ rm < 5) →
        exec (.vscatadd sp strict p d a b) s = .next (s.raised { eff := 0x001, arg := s.ctx.num.vt })) := by
  intro s sp strict p d a b hc
  have h4 := hc.issued 4
  have hef : (s.issued 4).ctx.ef = fld s.ctx.num.vt 3 0 := by unfold Ctx.ef; rw [State.issued_num]
  have hrm : (s.issued 4).ctx.rm = fld s.ctx.num.vt 6 4 := by unfold Ctx.rm; rw [State.issued_num]
  refine ⟨fun L t h hg hk f rm hf hr hfm => ?_, fun hg f rm hf hr hfm => ?_⟩
  · subst hf hr
    have hsame := AllPlaced.same h.placed
    have hct : t.Clean := hsame.clean h4
    obtain ⟨w1, w2, w3⟩ := ew_div s
    have ho : (fun f => f == 4 || f == 5 || f == 14 || f == 15) (fld s.ctx.num.vt 3 0) = true := by simp; omega
    have hb : (fmtFloat (fld s.ctx.num.vt 3 0) && decide (5 ≤ fld s.ctx.num.vt 6 4)) = false := by
      rcases hfm with h | h | ⟨h, h5⟩
      · rw [h]; rfl
      · rw [h]; rfl
      · rw [decide_eq_false (by omega), Bool.and_false]
    have hbd : (L.map (fun e => e.1)).filter (fun x => t.homeBad x.home (s.ew / 8)) = [] :=
      List.filter_eq_nil_iff.2 (fun x hx => by
        obtain ⟨e, he, rfl⟩ := List.mem_map.1 hx
        rw [hsame.homeBad, show (s.issued 4).homeBad e.1.home (s.ew / 8) = s.homeBad e.1.home (s.ew / 8) from rfl, hg e he]; decide)
    have hum : Act.unmarked ((L.map (fun e => e.1)).map (fun x => (⟨x.home, s.ew / 8⟩ : Piece))) t = .ok ((), t) := unmarked_free (fun q hq off ho => by
      obtain ⟨x, hx, rfl⟩ := List.mem_map.1 hq
      obtain ⟨e, he, rfl⟩ := List.mem_map.1 hx
      have hp : t.pid = s.pid := hsame.who.1
      rw [hp] at ho ⊢
      rw [hsame.marks]; exact hk e he off ho)
    have hdat : (L.map (fun e => e.1)).map (fun x => (x.i, x.ea, (elems s.ew (s.ctx.regs.getV d)).getD x.i 0)) = L.map (fun e => (e.1.i, e.1.ea, velem s.ew (s.ctx.regs.getV d) e.1.i)) := by
      rw [List.map_map]
      apply List.map_congr_left
      intro e he
      have : e.1.i ∈ s.taking (.indexed strict) p b := by rw [← VAccess.idx h]; exact List.mem_map.2 ⟨e, he, rfl⟩
      have := List.mem_range.1 (List.mem_filter.1 (List.mem_filter.1 this).1).1
      simp only [Function.comp]
      rw [elems_getD _ this]
    have run : ∀ u, (if (L.map (fun e => e.1)).isEmpty then pure () else Act.postNow ((L.map (fun e => e.1)).map (fun x => ⟨x.home, s.ew / 8⟩))
        (.adds (fld s.ctx.num.vt 3 0) (fld s.ctx.num.vt 6 4) (fld s.ctx.num.flagen 6 0) (L.map (fun e => (e.1.i, e.1.ea, velem s.ew (s.ctx.regs.getV d) e.1.i))) 0 0 []) false false s.here 0 : Act Unit)
          (s.putPast (.indexed strict) p b t) = .ok ((), u) → exec (.vscatadd sp strict p d a b) s = .next (u.switch sp) := by
      intro u hu
      rw [exec_vscatadd]
      apply issue_ok
      rw [Act.bind_ok (gate_issued h.gate), Act.bind_ok (Act.ctx_apply _), hef, hrm, Act.bind_ok (Act.accepts_ok ho), hb, Act.bind_ok (Act.check_false _ _), Act.bind_ok (plan_ok hc h)]
      dsimp only
      rw [Act.bind_ok (Act.rdV_clean h4 d), State.issued_regs, State.issued_num, Act.bind_ok (places_spec h.placed (VAccess.stk h)), w2]
      dsimp only [laneFault, List.head?, Option.map]
      rw [Act.bind_ok (Act.get_apply _), Act.bind_ok hum, hbd, Act.bind_ok (show Act.checkLanes s.here (a == 31) [] t = .ok ((), t) from rfl), Act.bind_ok (pastLanes_spec hct _ _ _), hdat, hu]
    refine ⟨fun hnil => run _ (by rw [hnil]; rfl), fun hne => run _ ?_⟩
    have : (L.map (fun e => e.1)).isEmpty = false := by cases L with
      | nil => exact absurd rfl hne
      | cons e l => rfl
    have hp : (s.putPast (.indexed strict) p b t).pid = s.pid ∧ (s.putPast (.indexed strict) p b t).net = s.net := by
      unfold State.putPast; split <;> exact ⟨hsame.who.1, hsame.net⟩
    rw [this, List.map_map, if_neg (by decide)]
    unfold Act.postNow
    rw [Act.upd_apply, hp.1, hp.2, List.length_map]; rfl
  · subst hf hr
    rw [exec_vscatadd]
    apply issue_raise hc
    rw [Act.bind_ok (gate_issued hg), Act.bind_ok (Act.ctx_apply _), hef, hrm]
    by_cases ho : (fun f => f == 4 || f == 5 || f == 14 || f == 15) (fld s.ctx.num.vt 3 0) = true
    · have hb : (fmtFloat (fld s.ctx.num.vt 3 0) && decide (5 ≤ fld s.ctx.num.vt 6 4)) = true := by
        simp at ho
        rw [Bool.and_eq_true, decide_eq_true_eq]
        unfold fmtFloat
        simp; omega
      rw [Act.bind_ok (Act.accepts_ok ho), hb, Act.bind_error (Act.check_true _ _), State.issued_num]; rfl
    · rw [Act.bind_error (Act.accepts_bad (by simpa using ho)), State.issued_num]

end Sys2Proof.Machine
end

