-- ==== Sys2Proof/Laws/SystemResults.lean ====
section
/-! SUPPORT. PREFETCH, TLBI, MAPLID, SYSRD and SYSWR. -/

set_option Elab.async false

namespace Sys2Proof.Machine

theorem selector_iff (x : Word) (w : Bool) : badSelector x w = false ↔ selectorOk x w := by
  unfold badSelector selectorOk
  cases w with
  | true =>
    simp only [Bool.or_eq_false_iff, bne_eq_false_iff_eq, decide_eq_false_iff_not, if_true, Bool.not_eq_false', Bool.and_eq_true, decide_eq_true_eq, beq_eq_false_iff_ne, and_assoc, Nat.not_le,
      true_implies, reduceCtorEq, false_implies, and_true]
    constructor
    · rintro ⟨h1, h2, h3, h4, h5, h6, h7, h8⟩; exact ⟨h1, h2, h3, h4, by omega, h6, by omega⟩
    · rintro ⟨h1, h2, h3, h4, h5, h6, h7⟩; exact ⟨h1, h2, h3, h4, by omega, h6, by omega, by omega⟩
  | false =>
    simp only [Bool.or_eq_false_iff, bne_eq_false_iff_eq, decide_eq_false_iff_not, Bool.false_eq_true, if_false, Bool.and_eq_false_iff, Bool.not_eq_false', Bool.and_eq_true, Bool.or_eq_true,
      decide_eq_true_eq, beq_iff_eq, and_assoc, Nat.not_le, List.mem_cons, List.not_mem_nil, or_false, or_assoc, false_implies, true_and, true_implies]
    constructor
    · rintro ⟨h1, h2, h3, h4, h5, h6⟩; exact ⟨h1, h2, h3, h4, by omega, h6⟩
    · rintro ⟨h1, h2, h3, h4, h5, h6⟩; exact ⟨h1, h2, h3, h4, by omega, h6⟩

theorem prefetch_rules {s : State} (hc : s.Clean) (sp : Bool) (a b : Reg) :
    (fld (s.ctx.g b) 63 2 = 0 → fld (s.ctx.g b) 1 0 ≠ 3 → exec (.prefetch sp a b) s = .next ((s.issued 4).switch sp))
    ∧ (¬ (fld (s.ctx.g b) 63 2 = 0 ∧ fld (s.ctx.g b) 1 0 ≠ 3) → exec (.prefetch sp a b) s = .next (s.raised { eff := 0x001, arg := s.ctx.g b })) := by
  have h4 := hc.issued 4
  refine ⟨fun h1 h2 => ?_, fun h => ?_⟩
  · have e : (fld (s.ctx.g b) 63 2 != 0 || fld (s.ctx.g b) 1 0 == 3) = false := by simp [h1, h2]
    apply issue_ok
    rw [Act.bind_ok (Act.rdG_clean h4 a), Act.bind_ok (Act.rdG_clean h4 b), State.issued_g, e, Act.check_false]
  · have e : (fld (s.ctx.g b) 63 2 != 0 || fld (s.ctx.g b) 1 0 == 3) = true := by
      rw [Bool.or_eq_true, bne_iff_ne, beq_iff_eq]; omega
    apply issue_raise hc
    rw [Act.bind_ok (Act.rdG_clean h4 a), Act.bind_ok (Act.rdG_clean h4 b), State.issued_g, e, Act.check_true]; rfl

theorem get_map {α : Type} (d : α) (t : Tab α) (f : Nat → α → α) (hd : ∀ k, f k d = d) (k : Nat) :
    Tab.get d (t.map (fun e => (e.1, f e.1 e.2))) k = f k (Tab.get d t k) := by
  induction t with
  | nil => exact (hd k).symm
  | cons e t ih =>
    obtain ⟨j, a⟩ := e
    simp only [List.map_cons, Tab.get]
    by_cases h : j = k
    · rw [if_pos h, if_pos h, h]
    · rw [if_neg h, if_neg h]; exact ih

theorem Act.drain_busy {s : State} (h : s.ownReqs s.ctx.act = true) : Act.drain s = .error (.wait .drain) := by
  unfold Act.drain; rw [h]; rfl

/-- Whether a die is in the scope of an invalidation. -/
def dieIn : Option Nat → Nat → Bool
  | none, _ => true
  | some f, e => e == f

/-- What an invalidation does to the TLBs (21 R414). -/
theorem invalidate_spec (s : State) (kind asid va : Nat) (die : Option Nat) (scope : Nat → Prop)
    (hs : ∀ e, scope e ↔ dieIn die e = true) :
    (∀ q, scope (dieOf q) → (s.invalidate kind asid va die).coreAt q = { s.coreAt q with tlb := (s.coreAt q).tlb.filter (fun e => !e.matches kind asid va) })
    ∧ (∀ q, ¬ scope (dieOf q) → (s.invalidate kind asid va die).coreAt q = s.coreAt q)
    ∧ (∀ e, scope e → (s.invalidate kind asid va die).dieAt e = { s.dieAt e with tlb := (s.dieAt e).tlb.filter (fun e => !e.matches kind asid va) })
    ∧ (∀ e, ¬ scope e → (s.invalidate kind asid va die).dieAt e = s.dieAt e) := by
  have hc : ∀ q, (s.invalidate kind asid va die).coreAt q = if dieIn die (dieOf q) = true then { s.coreAt q with tlb := (s.coreAt q).tlb.filter (fun e => !e.matches kind asid va) } else s.coreAt q := by
    intro q
    unfold State.invalidate State.coreAt
    rw [← get_map Core.reset s.cores (fun k a => if dieIn die (dieOf k) = true then { a with tlb := a.tlb.filter (fun e => !e.matches kind asid va) } else a) (fun k => by split <;> rfl) q]
    dsimp only
    congr 1
    apply List.map_congr_left
    intro e _
    cases die with
    | none => rfl
    | some f => cases hb : (dieOf e.1 == f) <;> simp [dieIn, hb]
  have hd : ∀ q, (s.invalidate kind asid va die).dieAt q = if dieIn die q = true then { s.dieAt q with tlb := (s.dieAt q).tlb.filter (fun e => !e.matches kind asid va) } else s.dieAt q := by
    intro q
    unfold State.invalidate State.dieAt
    rw [← get_map Die.reset s.dies (fun k a => if dieIn die k = true then { a with tlb := a.tlb.filter (fun e => !e.matches kind asid va) } else a) (fun k => by split <;> rfl) q]
    dsimp only
    congr 1
    apply List.map_congr_left
    intro e _
    cases die with
    | none => rfl
    | some f => cases hb : (e.1 == f) <;> simp [dieIn, hb]
  refine ⟨fun q h => ?_, fun q h => ?_, fun q h => ?_, fun q h => ?_⟩
  · rw [hc q]; exact if_pos ((hs _).1 h)
  · rw [hc q]; exact if_neg (fun e => h ((hs _).2 e))
  · rw [hd q]; exact if_pos ((hs _).1 h)
  · rw [hd q]; exact if_neg (fun e => h ((hs _).2 e))

theorem tlbi_rules {s : State} (hc : s.Clean) (sp : Bool) (a b : Reg) (x y : Word) (hx : x = s.ctx.g a) (hy : y = s.ctx.g b) (hs : s.ctx.stat.sup = true) :
    (fld y 63 32 = 0 ∧ fld y 15 3 = 0 ∧ fld y 1 0 ≠ 3 →
        ∀ n m, (n, m) = s.tlbiSince →
        (s.ownReqs s.ctx.act = false → s.translatedOpen n m = false → ∀ scope : Nat → Prop, (∀ e, scope e ↔ (flag y 2 = true ∨ e = dieOf s.pid)) →
          ∃ t : State, exec (.tlbi sp a b) s = .next (t.switch sp)
            ∧ (∀ q, scope (dieOf q) → t.coreAt q = { s.coreAt q with tlb := (s.coreAt q).tlb.filter (fun e => !e.matches (fld y 1 0) (fld y 31 16) x.toNat) })
            ∧ (∀ q, ¬ scope (dieOf q) → t.coreAt q = s.coreAt q)
            ∧ (∀ e, scope e → t.dieAt e = { s.dieAt e with tlb := (s.dieAt e).tlb.filter (fun e => !e.matches (fld y 1 0) (fld y 31 16) x.toNat) })
            ∧ (∀ e, ¬ scope e → t.dieAt e = s.dieAt e)
            ∧ { t with cores := s.cores, dies := s.dies } = s.issued 4)
        ∧ (s.ownReqs s.ctx.act = true → exec (.tlbi sp a b) s = .next ((s.block .drain sp).switch sp))
        ∧ (s.ownReqs s.ctx.act = false → s.translatedOpen n m = true → exec (.tlbi sp a b) s =
            .next ((s.block (.tlbi n m (fld y 1 0) (fld y 31 16) x.toNat (flag y 2)) sp).switch sp)))
      ∧ (¬ (fld y 63 32 = 0 ∧ fld y 15 3 = 0 ∧ fld y 1 0 ≠ 3) → exec (.tlbi sp a b) s = .next (s.raised { eff := 0x001, arg := y })) := by
  have h4 := hc.issued 4
  have hsup : (s.issued 4).ctx.stat.sup = true := by simpa using hs
  subst hx hy
  have hi : (fld (s.ctx.g b) 63 32 != 0 || fld (s.ctx.g b) 15 3 != 0 || fld (s.ctx.g b) 1 0 == 3) = false ↔
      (fld (s.ctx.g b) 63 32 = 0 ∧ fld (s.ctx.g b) 15 3 = 0 ∧ fld (s.ctx.g b) 1 0 ≠ 3) := by simp [and_assoc]
  refine ⟨fun hy n m hnm => ⟨fun hd ht scope hsc => ?_, fun ho => ?_, fun ho ht => ?_⟩, fun hy => ?_⟩
  · obtain ⟨r1, r2, r3, r4⟩ := invalidate_spec (s.issued 4) (fld (s.ctx.g b) 1 0) (fld (s.ctx.g b) 31 16) (s.ctx.g a).toNat
      (if flag (s.ctx.g b) 2 then none else some (dieOf s.pid)) scope (fun e => by
        rw [hsc e]; cases flag (s.ctx.g b) 2 <;> simp [dieIn])
    refine ⟨(s.issued 4).invalidate (fld (s.ctx.g b) 1 0) (fld (s.ctx.g b) 31 16) (s.ctx.g a).toNat (if flag (s.ctx.g b) 2 then none else some (dieOf s.pid)), ?_,
      r1, r2, r3, r4, rfl⟩
    apply issue_ok
    rw [Act.bind_ok (Act.needSup_sup hsup), Act.bind_ok (Act.rdG_clean h4 a), Act.bind_ok (Act.rdG_clean h4 b), State.issued_g, State.issued_g, hi.2 hy,
      Act.bind_ok (Act.check_false _ _), Act.bind_ok (Act.drain_of ((ownReqs_issued s 4).trans hd))]
    show (Act.waitIf (s.translatedOpen s.tlbiSince.1 s.tlbiSince.2) (.tlbi s.tlbiSince.1 s.tlbiSince.2 (fld (s.ctx.g b) 1 0) (fld (s.ctx.g b) 31 16) (s.ctx.g a).toNat
      (flag (s.ctx.g b) 2)) >>= fun _ => Act.upd (fun t => t.tlbInvalid t.pid (fld (s.ctx.g b) 1 0) (fld (s.ctx.g b) 31 16) (s.ctx.g a).toNat (flag (s.ctx.g b) 2)))
        (s.issued 4) = _
    rw [← hnm]
    dsimp only
    rw [ht, Act.bind_ok (Act.waitIf_false _ _)]
    rfl
  · apply issue_wait
    rw [Act.bind_ok (Act.needSup_sup hsup), Act.bind_ok (Act.rdG_clean h4 a), Act.bind_ok (Act.rdG_clean h4 b), State.issued_g, State.issued_g, hi.2 hy,
      Act.bind_ok (Act.check_false _ _)]
    rw [Act.bind_error (Act.drain_busy ((ownReqs_issued s 4).trans ho))]
  · apply issue_wait
    rw [Act.bind_ok (Act.needSup_sup hsup), Act.bind_ok (Act.rdG_clean h4 a), Act.bind_ok (Act.rdG_clean h4 b), State.issued_g, State.issued_g, hi.2 hy,
      Act.bind_ok (Act.check_false _ _), Act.bind_ok (Act.drain_of ((ownReqs_issued s 4).trans ho))]
    show (Act.waitIf (s.translatedOpen s.tlbiSince.1 s.tlbiSince.2) (.tlbi s.tlbiSince.1 s.tlbiSince.2 (fld (s.ctx.g b) 1 0) (fld (s.ctx.g b) 31 16) (s.ctx.g a).toNat
      (flag (s.ctx.g b) 2)) >>= fun _ => Act.upd (fun t => t.tlbInvalid t.pid (fld (s.ctx.g b) 1 0) (fld (s.ctx.g b) 31 16) (s.ctx.g a).toNat (flag (s.ctx.g b) 2)))
        (s.issued 4) = _
    rw [← hnm]
    dsimp only
    rw [ht, Act.bind_error (Act.waitIf_true _ _)]
  · apply issue_raise hc
    rw [Act.bind_ok (Act.needSup_sup hsup), Act.bind_ok (Act.rdG_clean h4 a), Act.bind_ok (Act.rdG_clean h4 b), State.issued_g, State.issued_g,
      eq_true_of_not (fun e => hy (hi.1 e)), Act.bind_error (Act.check_true _ _)]; rfl

theorem maplid_rules {s : State} (hc : s.Clean) (sp : Bool) (d a b : Reg) (x y : Word) (hx : x = s.ctx.g a) (hy : y = s.ctx.g b) (hs : s.ctx.stat.sup = true) :
    (fld x 31 12 = 0 → fld y 62 11 = 0 → ∀ l, s.launch? (fld x 63 32) = some l → l.phase = 1 → fld x 11 0 < l.size →
          exec (.maplid sp d a b) s = .next (s.awaiting ((s.issued 4).asked (.mapLid d (fld x 63 32) (fld x 11 0) y.toNat)) sp .reply))
      ∧ (fld x 31 12 ≠ 0 ∨ (fld x 31 12 = 0 ∧ fld y 62 11 = 0 ∧ ∀ l, s.launch? (fld x 63 32) = some l → ¬ (l.phase = 1 ∧ fld x 11 0 < l.size)) →
          exec (.maplid sp d a b) s = .next (s.raised { eff := 0x001, arg := x }))
      ∧ (fld x 31 12 = 0 → fld y 62 11 ≠ 0 → exec (.maplid sp d a b) s = .next (s.raised { eff := 0x001, arg := y })) := by
  have h4 := hc.issued 4
  have hsup : (s.issued 4).ctx.stat.sup = true := by simpa using hs
  have hl : ∀ n, (s.issued 4).launch? n = s.launch? n := fun _ => rfl
  subst hx hy
  refine ⟨fun h1 h2 l h3 h5 h6 => ?_, fun h => ?_, fun h1 h2 => ?_⟩
  · apply issue_stop
    rw [Act.bind_ok (Act.needSup_sup hsup), Act.bind_ok (Act.rdG_clean h4 a), Act.bind_ok (Act.rdG_clean h4 b), Act.bind_ok (Act.interlock_clean h4 _), State.issued_g, State.issued_g,
      h1, h2, show ((0 : Nat) != 0) = false from rfl, Act.bind_ok (Act.check_false _ _), Act.bind_ok (Act.check_false _ _)]
    dsimp only
    rw [Act.bind_ok (Act.get_apply _), hl, h3]
    dsimp only
    rw [h5, decide_eq_true h6, show (!((1 : Nat) == 1 && true)) = false from rfl, Act.bind_ok (Act.check_false _ _)]
    rfl
  · apply issue_raise hc
    rw [Act.bind_ok (Act.needSup_sup hsup), Act.bind_ok (Act.rdG_clean h4 a), Act.bind_ok (Act.rdG_clean h4 b), Act.bind_ok (Act.interlock_clean h4 _), State.issued_g, State.issued_g]
    rcases h with h | ⟨h1, h2, h3⟩
    · rw [show (fld (s.ctx.g a) 31 12 != 0) = true by simpa using h, Act.bind_error (Act.check_true _ _)]; rfl
    · rw [h1, h2, show ((0 : Nat) != 0) = false from rfl, Act.bind_ok (Act.check_false _ _), Act.bind_ok (Act.check_false _ _)]
      dsimp only
      rw [Act.bind_ok (Act.get_apply _), hl]
      cases hq : s.launch? (fld (s.ctx.g a) 63 32) with
      | none => dsimp only; rw [Bool.not_false, Act.bind_error (Act.check_true _ _)]; rfl
      | some l =>
        have := h3 l hq
        have hb : (!(l.phase == 1 && decide (fld (s.ctx.g a) 11 0 < l.size))) = true := by
          rw [Bool.not_eq_true', Bool.and_eq_false_iff, beq_eq_false_iff_ne, decide_eq_false_iff_not]; omega
        dsimp only
        rw [hb, Act.bind_error (Act.check_true _ _)]; rfl
  · apply issue_raise hc
    rw [Act.bind_ok (Act.needSup_sup hsup), Act.bind_ok (Act.rdG_clean h4 a), Act.bind_ok (Act.rdG_clean h4 b), Act.bind_ok (Act.interlock_clean h4 _), State.issued_g, State.issued_g,
      h1, show ((0 : Nat) != 0) = false from rfl, Act.bind_ok (Act.check_false _ _), show (fld (s.ctx.g b) 62 11 != 0) = true by simpa using h2, Act.bind_error (Act.check_true _ _)]; rfl

theorem system_rules :
    ∀ (s : State) (sp : Bool) (d a b : Reg), s.Clean → ∀ x y, x = s.ctx.g a → y = s.ctx.g b →
    -- PREFETCH
    (fld y 63 2 = 0 → fld y 1 0 ≠ 3 → exec (.prefetch sp a b) s = .next ((s.issued 4).switch sp))
    ∧ (¬ (fld y 63 2 = 0 ∧ fld y 1 0 ≠ 3) → exec (.prefetch sp a b) s = .next (s.raised { eff := 0x001, arg := y }))
    -- the other four at user level
    ∧ (s.ctx.stat.sup = false → ∀ i ∈ [Instr.tlbi sp a b, .maplid sp d a b, .sysrd sp d a, .syswr sp a b], exec i s = .next (s.raised { eff := 0x002 }))
    ∧ (s.ctx.stat.sup = true →
      -- TLBI
      (fld y 63 32 = 0 ∧ fld y 15 3 = 0 ∧ fld y 1 0 ≠ 3 →
        ∀ n m, (n, m) = s.tlbiSince →
        (s.ownReqs s.ctx.act = false → s.translatedOpen n m = false → ∀ scope : Nat → Prop, (∀ e, scope e ↔ (flag y 2 = true ∨ e = dieOf s.pid)) →
          ∃ t : State, exec (.tlbi sp a b) s = .next (t.switch sp)
            ∧ (∀ q, scope (dieOf q) → t.coreAt q = { s.coreAt q with tlb := (s.coreAt q).tlb.filter (fun e => !e.matches (fld y 1 0) (fld y 31 16) x.toNat) })
            ∧ (∀ q, ¬ scope (dieOf q) → t.coreAt q = s.coreAt q)
            ∧ (∀ e, scope e → t.dieAt e = { s.dieAt e with tlb := (s.dieAt e).tlb.filter (fun e => !e.matches (fld y 1 0) (fld y 31 16) x.toNat) })
            ∧ (∀ e, ¬ scope e → t.dieAt e = s.dieAt e)
            ∧ { t with cores := s.cores, dies := s.dies } = s.issued 4)
        ∧ (s.ownReqs s.ctx.act = true → exec (.tlbi sp a b) s = .next ((s.block .drain sp).switch sp))
        ∧ (s.ownReqs s.ctx.act = false → s.translatedOpen n m = true → exec (.tlbi sp a b) s =
            .next ((s.block (.tlbi n m (fld y 1 0) (fld y 31 16) x.toNat (flag y 2)) sp).switch sp)))
      ∧ (¬ (fld y 63 32 = 0 ∧ fld y 15 3 = 0 ∧ fld y 1 0 ≠ 3) → exec (.tlbi sp a b) s = .next (s.raised { eff := 0x001, arg := y }))
      -- MAPLID
      ∧ (fld x 31 12 = 0 → fld y 62 11 = 0 → ∀ l, s.launch? (fld x 63 32) = some l → l.phase = 1 → fld x 11 0 < l.size →
          exec (.maplid sp d a b) s = .next (s.awaiting ((s.issued 4).asked (.mapLid d (fld x 63 32) (fld x 11 0) y.toNat)) sp .reply))
      ∧ (fld x 31 12 ≠ 0 ∨ (fld x 31 12 = 0 ∧ fld y 62 11 = 0 ∧ ∀ l, s.launch? (fld x 63 32) = some l → ¬ (l.phase = 1 ∧ fld x 11 0 < l.size)) →
          exec (.maplid sp d a b) s = .next (s.raised { eff := 0x001, arg := x }))
      ∧ (fld x 31 12 = 0 → fld y 62 11 ≠ 0 → exec (.maplid sp d a b) s = .next (s.raised { eff := 0x001, arg := y }))
      -- SYSRD and SYSWR
      ∧ (selectorOk x false → ∀ u, u = (s.issued 4).modCtx (fun c => { c with regs := c.regs.setPresent false (.g d) }) →
          exec (.sysrd sp d a) s = .next ((u.sendResult (.g d) (.g ((u.special (fld x 26 16) (fld x 30 28) (fld x 13 0)).getD 0))).switch sp))
      ∧ (selectorOk x true → exec (.syswr sp a b) s = .next (((s.issued 4).asked (.sysWr (fld x 26 16) (fld x 30 28) (fld x 13 0) y)).switch sp))
      ∧ (¬ selectorOk x false → exec (.sysrd sp d a) s = .next (s.raised { eff := 0x001, arg := x }))
      ∧ (¬ selectorOk x true → exec (.syswr sp a b) s = .next (s.raised { eff := 0x001, arg := x }))) := by
  intro s sp d a b hc x y hx hy
  have h4 := hc.issued 4
  obtain ⟨p1, p2⟩ := prefetch_rules hc sp a b
  refine ⟨fun h1 h2 => p1 (hy ▸ h1) (hy ▸ h2), fun h => ?_, fun hs i hi => ?_, fun hs => ?_⟩
  · subst hy; exact p2 h
  · have hu : (s.issued 4).ctx.stat.sup = false := by simpa using hs
    simp only [List.mem_cons, List.not_mem_nil, or_false] at hi
    rcases hi with rfl | rfl | rfl | rfl <;>
    · apply issue_raise hc
      exact Act.bind_error (Act.needSup_user hu)
  · have hsup : (s.issued 4).ctx.stat.sup = true := by simpa using hs
    obtain ⟨t1, t2⟩ := tlbi_rules hc sp a b x y hx hy hs
    obtain ⟨m1, m2, m3⟩ := maplid_rules hc sp d a b x y hx hy hs
    subst hx hy
    refine ⟨t1, t2, m1, m2, m3, fun h u hu => ?_, fun h => ?_, fun h => ?_, fun h => ?_⟩
    · subst hu
      apply issue_ok
      rw [Act.bind_ok (Act.needSup_sup hsup), Act.bind_ok (Act.rdG_clean h4 a), State.issued_g, (selector_iff _ _).2 h, Act.bind_ok (Act.check_false _ _),
        Act.bind_ok (Act.pendDest_clean h4 _), Act.bind_ok (Act.get_apply _)]
      rfl
    · apply issue_ok
      rw [Act.bind_ok (Act.needSup_sup hsup), Act.bind_ok (Act.rdG_clean h4 a), Act.bind_ok (Act.rdG_clean h4 b), State.issued_g, State.issued_g, (selector_iff _ _).2 h,
        Act.bind_ok (Act.check_false _ _)]
      rfl
    · apply issue_raise hc
      rw [Act.bind_ok (Act.needSup_sup hsup), Act.bind_ok (Act.rdG_clean h4 a), State.issued_g, eq_true_of_not (fun e => h ((selector_iff _ _).1 e)), Act.bind_error (Act.check_true _ _)]; rfl
    · apply issue_raise hc
      rw [Act.bind_ok (Act.needSup_sup hsup), Act.bind_ok (Act.rdG_clean h4 a), Act.bind_ok (Act.rdG_clean h4 b), State.issued_g, State.issued_g,
        eq_true_of_not (fun e => h ((selector_iff _ _).1 e)), Act.bind_error (Act.check_true _ _)]; rfl

end Sys2Proof.Machine
end

