-- ==== Sys2Proof/Laws/Saving.lean ====
section
/-! SUPPORT. CTXSAVE of a context and of a core. -/

set_option Elab.async false

namespace Sys2Proof.Machine

theorem imageHome_issued (s : State) (len : Nat) (ea : Word) (acc : Acc) : (s.issued len).imageHome ea acc = s.imageHome ea acc := by
  unfold State.imageHome
  dsimp only
  rw [State.issued_space, State.issued_stat]; rfl

theorem imagePages_issued (s : State) (len : Nat) (acc : Acc) (n : Nat) : ∀ ea, (s.issued len).imagePages acc n ea = s.imagePages acc n ea := by
  induction n with
  | zero => intro ea; rfl
  | succ n ih => intro ea; unfold State.imagePages; rw [imageHome_issued, ih]

theorem imageRange_issued (s : State) (len : Nat) (ea : Word) (al n : Nat) (acc : Acc) : (s.issued len).imageRange ea al n acc = s.imageRange ea al n acc := by
  unfold State.imageRange; rw [imagePages_issued]

theorem imageRange_misaligned {s : State} {ea : Word} {al : Nat} (n : Nat) (acc : Acc) (h : ea.toNat % al ≠ 0) : s.imageRange ea al n acc = .error 1 := by
  unfold State.imageRange; exact if_pos h

theorem imageOperands_ok {s : State} (h : s.Clean) (hs : s.ctx.stat.sup = true) (a b d : Reg) (hb : (s.ctx.g b).toNat < 2) :
    Act.imageOperands a b d s = .ok ((s.ctx.g a, s.ctx.g b == 1), s) := by
  have e : (fld (s.ctx.g b) 63 1 != 0) = false := by
    rw [bne_eq_false_iff_eq]; exact fld_hi (by omega)
  unfold Act.imageOperands
  rw [Act.bind_ok (Act.needSup_sup hs), Act.bind_ok (Act.rdG_clean h a), Act.bind_ok (Act.rdG_clean h b), e, Act.bind_ok (Act.check_false _ _),
    Act.bind_ok (Act.interlock_clean h _)]
  rfl

theorem imageOperands_bad {s : State} (h : s.Clean) (hs : s.ctx.stat.sup = true) (a b d : Reg) (hb : 2 ≤ (s.ctx.g b).toNat) :
    Act.imageOperands a b d s = .error (.raise (illegal (s.ctx.g b))) := by
  have e : (fld (s.ctx.g b) 63 1 != 0) = true := by
    rw [bne_iff_ne]; exact fld_hi_ne (by omega) (by decide)
  unfold Act.imageOperands
  rw [Act.bind_ok (Act.needSup_sup hs), Act.bind_ok (Act.rdG_clean h a), Act.bind_ok (Act.rdG_clean h b), e, Act.bind_error (Act.check_true _ _)]

theorem exec_save {i : Instr} {sp : Bool} {d a b : Reg} (h : i ∈ saveForms sp d a b) (s : State) : exec i s = ctxSaveOp sp d a b s := by
  simp only [saveForms, List.mem_cons, List.not_mem_nil, or_false] at h
  rcases h with rfl | rfl <;> rfl

theorem issue_wrG {s : State} {sp : Bool} {d : Reg} {x : Word} {m : Act Unit} (hc : s.Clean) (h : m (s.issued 4) = Act.wrG d x (s.issued 4)) :
    issue s sp 4 m = .next (s.afterG sp 4 d x) := by
  apply issue_after
  rw [h, Act.wrG_clean (hc.issued 4)]

def holdOne (pid act : Nat) (s : State) (n : Nat) : State :=
  let t := s.stream pid n
  if t.owner == act && (t.state == 1 || t.state == 2) then s.setStream pid n { t with saved := t.state, state := 3 } else s

theorem holdStreams_eq (s : State) (pid act : Nat) : s.holdStreams pid act = [0, 1, 2, 3].foldl (holdOne pid act) s := rfl

theorem holdOne_same (pid act : Nat) (s : State) (n : Nat) : { holdOne pid act s n with cores := s.cores } = s := by
  unfold holdOne; dsimp only; split <;> rfl

theorem holdStreams_same (s : State) (pid act : Nat) : { s.holdStreams pid act with cores := s.cores } = s := by
  rw [holdStreams_eq]
  have : ∀ (l : List Nat) (u : State), { u with cores := s.cores } = s → { l.foldl (holdOne pid act) u with cores := s.cores } = s := by
    intro l
    induction l with
    | nil => intro u h; exact h
    | cons n l ih =>
      intro u h
      rw [List.foldl_cons]
      apply ih
      have := holdOne_same pid act u n
      rw [← h]
      calc _ = ({ ({ holdOne pid act u n with cores := u.cores } : State) with cores := s.cores } : State) := rfl
        _ = _ := by rw [this]
  exact this _ s rfl

theorem stream_setStream (s : State) (pid n : Nat) (t : Strm) : (s.setStream pid n t).stream pid n = t := by
  unfold State.setStream State.stream
  simp [State.coreAt_modCoreAt]

theorem stream_setStream_ne (s : State) (pid n m : Nat) (t : Strm) (h : m ≠ n) : (s.setStream pid n t).stream pid m = s.stream pid m := by
  unfold State.setStream State.stream
  simp [State.coreAt_modCoreAt, Tab.get_set, h]

theorem holdOne_ne (pid act : Nat) (s : State) (n m : Nat) (h : m ≠ n) : (holdOne pid act s n).stream pid m = s.stream pid m := by
  unfold holdOne; dsimp only; split
  · exact stream_setStream_ne _ _ _ _ _ h
  · rfl

theorem holdOne_eq (pid act : Nat) (s : State) (n : Nat) (h1 : (s.stream pid n).owner = act) (h2 : (s.stream pid n).state = 1 ∨ (s.stream pid n).state = 2) :
    (holdOne pid act s n).stream pid n = { s.stream pid n with saved := (s.stream pid n).state, state := 3 } := by
  unfold holdOne; dsimp only
  rw [if_pos (by rw [h1]; rcases h2 with h | h <;> simp [h])]
  exact stream_setStream _ _ _ _

theorem holdAll_ne (pid act : Nat) (n : Nat) (l : List Nat) : ∀ s : State, n ∉ l → (l.foldl (holdOne pid act) s).stream pid n = s.stream pid n := by
  induction l with
  | nil => intro s _; rfl
  | cons m l ih =>
    intro s h
    rw [List.mem_cons, not_or] at h
    rw [List.foldl_cons, ih _ h.2, holdOne_ne _ _ _ _ _ h.1]

theorem holdAll_eq (pid act : Nat) (n : Nat) (l : List Nat) : ∀ s : State, l.Nodup → n ∈ l → (s.stream pid n).owner = act → (s.stream pid n).state = 1 ∨ (s.stream pid n).state = 2 →
    (l.foldl (holdOne pid act) s).stream pid n = { s.stream pid n with saved := (s.stream pid n).state, state := 3 } := by
  induction l with
  | nil => intro s _ h; cases h
  | cons m l ih =>
    intro s hl h h1 h2
    rw [List.nodup_cons] at hl
    rw [List.foldl_cons]
    by_cases e : n = m
    · subst e
      rw [holdAll_ne _ _ _ _ _ hl.1, holdOne_eq _ _ _ _ h1 h2]
    · have e2 := holdOne_ne pid act s m n e
      rw [ih _ hl.2 (by rcases List.mem_cons.1 h with h | h; exact absurd h e; exact h) (by rw [e2]; exact h1) (by rw [e2]; exact h2), e2]

theorem holdStreams_stream (s : State) (pid act n : Nat) (hn : n ∈ [0, 1, 2, 3]) (h1 : (s.stream pid n).owner = act) (h2 : (s.stream pid n).state = 1 ∨ (s.stream pid n).state = 2) :
    (s.holdStreams pid act).stream pid n = { s.stream pid n with saved := (s.stream pid n).state, state := 3 } := by
  rw [holdStreams_eq]
  exact holdAll_eq pid act n _ s (by decide) hn h1 h2

theorem SameCtxs.coreAt {s t : State} (h : t.cores = s.cores) (p : Nat) : t.coreAt p = s.coreAt p := by unfold State.coreAt; rw [h]

theorem hold_field {α : Type} (f : State → α) (hf : ∀ (s : State) k, f { s with cores := k } = f s) (s : State) (pid act : Nat) :
    f (s.holdStreams pid act) = f s := by
  rw [← hf (s.holdStreams pid act) s.cores, holdStreams_same]

theorem stream_modCore (v : State) (f : Core → Core) (p n : Nat) (hf : ∀ k, (f k).unit = k.unit) : (v.modCore f).stream p n = v.stream p n := by
  unfold State.stream State.modCore
  by_cases h : p = v.pid
  · rw [h, State.coreAt_modCoreAt, hf]
  · have : (State.modCoreAt v v.pid f).coreAt p = v.coreAt p := by
      unfold State.modCoreAt State.setCoreAt State.coreAt; dsimp only; rw [Tab.get_set_ne _ _ _ h]
    rw [this]

theorem stream_saved (v : State) (l : List Saved) (p n : Nat) : ({ v with saved := l } : State).stream p n = v.stream p n := rfl

theorem stream_setCtx (v : State) (c : Ctx) (p n : Nat) : (v.setCtx c).stream p n = v.stream p n := rfl

theorem saveCtx_stream (u : State) (home n : Nat) : (u.saveCtx home none).stream u.pid n = (u.holdStreams u.pid u.ctx.act).stream u.pid n := by
  unfold State.saveCtx
  dsimp only
  refine Eq.trans (stream_modCore _ _ _ _ ?_) ?_
  · intro k; rfl
  exact (stream_saved _ _ _ _).trans (stream_setCtx _ _ _ _)

/-- What freeing a saved context does. -/
theorem saveCtx_spec (u : State) (home : Nat) :
    (u.saveCtx home none).mem = u.mem ∧ (u.saveCtx home none).ctxAt u.pid u.cx = { Ctx.reset with starts := u.ctx.starts, sysGen := u.ctx.sysGen }
    ∧ (∀ q c, ctxKey q c ≠ ctxKey u.pid u.cx → (u.saveCtx home none).ctxAt q c = u.ctxAt q c)
    ∧ (∃ v ∈ (u.saveCtx home none).saved, v.home = home ∧ v.pid = u.pid ∧ v.cx = u.cx ∧ v.hid.epoch = u.ctx.epoch ∧ v.hid.tx = u.ctx.tx ∧ v.hid.act = u.ctx.act ∧ v.hid.sysGen = u.ctx.sysGen)
    ∧ (∀ n ∈ [0, 1, 2, 3], (u.stream u.pid n).owner = u.ctx.act → (u.stream u.pid n).state = 1 ∨ (u.stream u.pid n).state = 2 →
        ((u.saveCtx home none).stream u.pid n).state = 3 ∧ ((u.saveCtx home none).stream u.pid n).saved = (u.stream u.pid n).state) := by
  have hp : (u.holdStreams u.pid u.ctx.act).pid = u.pid := hold_field State.pid (fun _ _ => rfl) u _ _
  have hx : (u.holdStreams u.pid u.ctx.act).cx = u.cx := hold_field State.cx (fun _ _ => rfl) u _ _
  have hm : (u.holdStreams u.pid u.ctx.act).mem = u.mem := hold_field State.mem (fun _ _ => rfl) u _ _
  have hcs : (u.holdStreams u.pid u.ctx.act).ctxs = u.ctxs := hold_field State.ctxs (fun _ _ => rfl) u _ _
  obtain ⟨w, hw, hw2⟩ : ∃ w : State, w = u.holdStreams u.pid u.ctx.act ∧ (u.saveCtx home none).ctxs = (w.setCtx u.ctx.freed).ctxs := by
    refine ⟨_, rfl, ?_⟩
    unfold State.saveCtx; dsimp only; rw [State.modCore_ctxs]
  have hc1 : ∀ q c, (u.saveCtx home none).ctxAt q c = (w.setCtx u.ctx.freed).ctxAt q c := by intro q c; unfold State.ctxAt; rw [hw2]
  rw [← hw] at hp hx hm hcs
  refine ⟨?_, ?_, ?_, ?_, ?_⟩
  · rw [← hm, hw]; unfold State.saveCtx; dsimp only; rw [State.modCore_mem]; dsimp only; rw [State.setCtx_mem]
  · rw [hc1]
    unfold State.setCtx
    rw [hp, hx, State.ctxAt_setCtxAt]; rfl
  · intro q c hq
    rw [hc1]
    unfold State.setCtx
    rw [hp, hx, State.ctxAt_setCtxAt_ne _ _ hq]
    unfold State.ctxAt; rw [hcs]
  · unfold State.saveCtx
    dsimp only
    rw [State.modCore_saved]
    dsimp only
    exact ⟨_, List.mem_append_right _ (List.mem_singleton.2 rfl), rfl, rfl, rfl, rfl, rfl, rfl, rfl⟩
  · intro n hn h1 h2
    have e := holdStreams_stream u u.pid u.ctx.act n hn h1 h2
    have : (u.saveCtx home none).stream u.pid n = (u.holdStreams u.pid u.ctx.act).stream u.pid n := saveCtx_stream u home n
    rw [this, e]; exact ⟨rfl, rfl⟩

theorem SameCtxs.putPages (hs : List Home) : ∀ (s : State) (bs : List Byte), SameCtxs s (s.putPages hs bs) := by
  induction hs with
  | nil => intro s bs; exact SameCtxs.refl s
  | cons h hs ih => intro s bs; exact (SameCtxs.put s h _ .other).trans (ih _ _)

theorem SameCtxs.core {s t : State} (h : SameCtxs s t) : t.core = s.core := by unfold State.core State.coreAt; rw [h.cores, h.pid]

theorem savable_iff (c : Ctx) (cx : Nat) : c.savable cx = true ↔ c.live cx := by
  unfold Ctx.savable Ctx.live
  simp [and_assoc]

theorem any_keyHeld {s : State} {n : Nat} {hs : List Home} (h : ∀ p ∈ hs, s.pageReady n p) : hs.any (fun p => s.keyHeld (p.writeKey s.sys.lead)) = false := by
  rw [List.any_eq_false]; intro p hp e; exact Bool.noConfusion ((h p hp).1.symm.trans e)

theorem any_canPut {s : State} {n : Nat} {hs : List Home} (h : ∀ p ∈ hs, s.pageReady n p) : hs.any (fun p => !s.canPut p n .other) = false := by
  rw [List.any_eq_false]; intro p hp e; rw [(h p hp).2] at e; exact Bool.noConfusion e

theorem issued_savable (s : State) : (s.issued 4).ctx.savable (s.issued 4).cx = s.ctx.savable s.cx := by
  rw [State.ctx_issued]; rfl

theorem allPresent_issued {s : State} (hc : s.Clean) : (s.issued 4).ctx.regs.allPresent = true := by
  have h := (hc.issued 4).1
  exact h

/-- Statuses 1 to 4 of a context save. -/
theorem saveContext_status {s : State} (d : Reg) (x : Word) :
    (∀ e, s.imageRange x 4096 1 .write = .error e → Act.saveContext d x s = Act.wrG d (W e) s)
    ∧ (∀ hs, s.imageRange x 4096 1 .write = .ok hs → s.ctx.savable s.cx = false → Act.saveContext d x s = Act.wrG d 4 s) := by
  refine ⟨fun e h => ?_, fun hs h h2 => ?_⟩
  · unfold Act.saveContext; rw [Act.bind_ok (Act.get_apply _), h]
  · unfold Act.saveContext; rw [Act.bind_ok (Act.get_apply _), h]; dsimp only; rw [h2]; rfl

theorem saveCore_status {s : State} (d : Reg) (x : Word) :
    (∀ e, s.imageRange x 65536 25 .write = .error e → Act.saveCore d x s = Act.wrG d (W e) s)
    ∧ (∀ hs, s.imageRange x 65536 25 .write = .ok hs → ¬ (s.cx = 4 ∧ s.lowFree s.pid = true ∧ s.idsParked s.pid = true) → Act.saveCore d x s = Act.wrG d 4 s) := by
  refine ⟨fun e h => ?_, fun hs h h2 => ?_⟩
  · unfold Act.saveCore; rw [Act.bind_ok (Act.get_apply _), h]
  · unfold Act.saveCore; rw [Act.bind_ok (Act.get_apply _), h]; dsimp only
    have : (s.cx != 4 || !s.lowFree s.pid || !s.idsParked s.pid) = true := by
      apply eq_true_of_not; intro e; apply h2
      simp only [Bool.or_eq_false_iff, bne_eq_false_iff_eq, Bool.not_eq_false'] at e
      exact ⟨e.1.1, e.1.2, e.2⟩
    rw [this]; rfl

theorem saveContext_done {s : State} (d : Reg) (x : Word) (h : Home) (h1 : s.imageRange x 4096 1 .write = .ok [h]) (h2 : s.ctx.savable s.cx = true)
    (h3 : s.ctx.regs.allPresent = true) (h4 : s.pageReady 4096 h) :
    Act.saveContext d x s = .error (.stop ((s.put h (s.ctx.image s.pid s.cx s.time s.ctx.sysRec (s.ctx.sysRec.flags ||| Tab.get 0 s.ctx.late 1) (s.outstanding s.ctx.act)) .other).saveCtx h.key none)) := by
  unfold Act.saveContext; rw [Act.bind_ok (Act.get_apply _), h1]; dsimp only; rw [h2, h3]
  show (Act.waitIf false .presence >>= _) s = _
  rw [Act.bind_ok (Act.waitIf_false _ _)]
  rw [show ([h].any fun h => s.keyHeld (h.writeKey s.sys.lead)) = false by simp [h4.1], Act.bind_ok (Act.waitIf_false _ _)]
  show (Act.waitIf (!s.canPut h 4096 .other) .drain >>= _) s = _
  rw [h4.2]
  rfl

theorem saveCore_done {s : State} (d : Reg) (x : Word) (hs : List Home) (h1 : s.imageRange x 65536 25 .write = .ok hs) (h2 : s.cx = 4) (h3 : s.lowFree s.pid = true)
    (h4 : s.idsParked s.pid = true) (h5 : s.coreQuiet s.pid = true) (h6 : ∀ h ∈ hs, s.pageReady 65536 h) :
    Act.saveCore d x s = Act.wrG d 0 (s.savedCore hs) := by
  unfold Act.saveCore; rw [Act.bind_ok (Act.get_apply _), h1]; dsimp only
  rw [h2, h3, h4, h5]
  show (Act.waitIf false .drain >>= _) s = _
  rw [Act.bind_ok (Act.waitIf_false _ _), any_keyHeld h6, Act.bind_ok (Act.waitIf_false _ _), any_canPut h6, Act.bind_ok (Act.waitIf_false _ _)]
  rfl

theorem clearSpad_same (s : State) (p lo hi : Nat) : (s.clearSpad p lo hi).ctxs = s.ctxs ∧ (s.clearSpad p lo hi).pid = s.pid ∧ (s.clearSpad p lo hi).cx = s.cx
    ∧ (s.clearSpad p lo hi).cores = s.cores ∧ (s.clearSpad p lo hi).images = s.images := by
  have key : ∀ (u : State) (l : List Nat), SameCtxs s u → u.images = s.images → ({ u with ue := l } : State).ctxs = s.ctxs ∧ ({ u with ue := l } : State).pid = s.pid
      ∧ ({ u with ue := l } : State).cx = s.cx ∧ ({ u with ue := l } : State).cores = s.cores ∧ ({ u with ue := l } : State).images = s.images :=
    fun u l h hi => ⟨h.ctxs, h.pid, h.cx, h.cores, hi⟩
  unfold State.clearSpad
  exact key _ _ (((SameCtxs.wr _ _ _).trans (SameCtxs.wr _ _ _)).trans (SameCtxs.wr _ _ _)) (by rw [State.wr_images, State.wr_images, State.wr_images])

theorem savedCore_spec (s : State) (hs : List Home) :
    (s.savedCore hs).core = s.core.cleared s.stepNo ∧ (s.savedCore hs).ctxs = s.ctxs ∧ (s.savedCore hs).pid = s.pid ∧ (s.savedCore hs).cx = s.cx
    ∧ (∃ e ∈ (s.savedCore hs).images, e.serial = s.stepNo ∧ e.pid = s.pid ∧ e.launch = s.ctx.ident.launch.toNat ∧ e.core = s.core) := by
  obtain ⟨u, v, hk, hq, hv, hi, hx⟩ : ∃ u v : State, s.savedCore hs = (v.modCoreAt s.pid (fun k => k.cleared s.stepNo)).clearSpad s.pid s.ctx.space.sklo.toNat s.ctx.space.skhi.toNat
      ∧ SameCtxs s u ∧ (v.ctxs = u.ctxs ∧ v.pid = u.pid ∧ v.cx = u.cx ∧ v.cores = u.cores) ∧ v.images = ⟨s.stepNo, s.pid, s.ctx.ident.launch.toNat, s.core, false⟩ :: u.images ∧ True := by
    unfold State.savedCore
    dsimp only
    exact ⟨_, _, rfl, SameCtxs.putPages _ _ _, ⟨rfl, rfl, rfl, rfl⟩, rfl, trivial⟩
  obtain ⟨v1, v2, v3, v4⟩ := hv
  rw [hk]
  obtain ⟨c1, c2, c3, c4, c5⟩ := clearSpad_same (v.modCoreAt s.pid (fun k => k.cleared s.stepNo)) s.pid s.ctx.space.sklo.toNat s.ctx.space.skhi.toNat
  refine ⟨?_, c1.trans (v1.trans hq.ctxs), c2.trans (v2.trans hq.pid), c3.trans (v3.trans hq.cx), ?_⟩
  · unfold State.core
    rw [c2, State.modCoreAt_pid, v2, hq.pid, SameCtxs.coreAt c4, State.coreAt_modCoreAt, SameCtxs.coreAt v4, SameCtxs.coreAt hq.cores]
  · rw [c5, State.modCoreAt_images, hi]
    exact ⟨_, List.mem_cons_self .., rfl, rfl, rfl, rfl⟩

theorem save_rules :
    ∀ (s : State) (sp : Bool) (d a b : Reg), s.Clean → ∀ x y, x = s.ctx.g a → y = s.ctx.g b → ∀ i ∈ saveForms sp d a b,
    (s.ctx.stat.sup = false → exec i s = .next (s.raised { eff := 0x002 }))
    ∧ (s.ctx.stat.sup = true → 2 ≤ y.toNat → exec i s = .next (s.raised { eff := 0x001, arg := y }))
    ∧ (s.ctx.stat.sup = true →
      -- statuses 1 to 4
      (y = 0 → x.toNat % 4096 ≠ 0 → exec i s = .next (s.afterG sp 4 d 1))
      ∧ (y = 1 → x.toNat % 65536 ≠ 0 → exec i s = .next (s.afterG sp 4 d 1))
      ∧ (y = 0 → ∀ e, s.imageRange x 4096 1 .write = .error e → exec i s = .next (s.afterG sp 4 d (W e)))
      ∧ (y = 1 → ∀ e, s.imageRange x 65536 25 .write = .error e → exec i s = .next (s.afterG sp 4 d (W e)))
      ∧ (y = 0 → ∀ h, s.imageRange x 4096 1 .write = .ok [h] → ¬ s.ctx.live s.cx → exec i s = .next (s.afterG sp 4 d 4))
      ∧ (y = 1 → ∀ hs, s.imageRange x 65536 25 .write = .ok hs → ¬ (s.cx = 4 ∧ (s.issued 4).lowFree s.pid = true ∧ s.idsParked s.pid = true) → exec i s = .next (s.afterG sp 4 d 4))
      -- a context: its image is written, and it becomes free without ending
      ∧ (y = 0 → ∀ h, s.imageRange x 4096 1 .write = .ok [h] → s.ctx.live s.cx → s.pageReady 4096 h →
        ∀ u, u = (s.issued 4).put h ((s.issued 4).ctx.image s.pid s.cx s.time s.ctx.sysRec (s.ctx.sysRec.flags ||| Tab.get 0 s.ctx.late 1) (s.outstanding s.ctx.act)) .other →
        ∃ t : State, exec i s = .next t ∧ t.mem = u.mem ∧ t.ctxAt s.pid s.cx = { Ctx.reset with starts := s.ctx.starts, sysGen := s.ctx.sysGen }
          ∧ (∀ q c, ctxKey q c ≠ ctxKey s.pid s.cx → t.ctxAt q c = s.ctxAt q c)
          ∧ (∃ v ∈ t.saved, v.home = h.key ∧ v.pid = s.pid ∧ v.cx = s.cx ∧ v.hid.epoch = s.ctx.epoch ∧ v.hid.tx = s.ctx.tx ∧ v.hid.act = s.ctx.act ∧ v.hid.sysGen = s.ctx.sysGen)
          ∧ (∀ n ∈ [0, 1, 2, 3], (s.stream s.pid n).owner = s.ctx.act → (s.stream s.pid n).state = 1 ∨ (s.stream s.pid n).state = 2 →
              (t.stream s.pid n).state = 3 ∧ (t.stream s.pid n).saved = (s.stream s.pid n).state))
      -- the core: its shared state is as at reset
      ∧ (y = 1 → ∀ hs, s.imageRange x 65536 25 .write = .ok hs → s.cx = 4 → (s.issued 4).lowFree s.pid = true → s.idsParked s.pid = true → s.coreQuiet s.pid = true →
        (∀ h ∈ hs, s.pageReady 65536 h) →
        ∃ t : State, exec i s = .next (t.switch sp) ∧ t.core = s.core.cleared s.stepNo ∧ t.ctx = (s.issued 4).ctx.setG d 0
          ∧ (∃ e ∈ t.images, e.serial = s.stepNo ∧ e.pid = s.pid ∧ e.launch = s.ctx.ident.launch.toNat ∧ e.core = s.core)
          ∧ (∀ q c, ctxKey q c ≠ ctxKey s.pid s.cx → t.ctxAt q c = s.ctxAt q c))) := by
  intro s sp d a b hc x y hx hy i hi
  have h4 := hc.issued 4
  have hop := imageOperands_ok h4 (a := a) (b := b) (d := d)
  refine ⟨fun hs => ?_, fun hs hb => ?_, fun hs => ?_⟩
  · rw [exec_save hi]
    exact issue_raise hc (Act.bind_error (Act.bind_error (Act.needSup_user (by simpa using hs))))
  · rw [exec_save hi]
    subst hx hy
    refine issue_raise hc (Act.bind_error ?_)
    rw [imageOperands_bad h4 (by simpa using hs) a b d (by simpa using hb), State.issued_g]; rfl
  · have hsup : (s.issued 4).ctx.stat.sup = true := by simpa using hs
    have ctxForm : y = 0 → exec i s = issue s sp 4 (fun _ => Act.saveContext d x (s.issued 4)) := by
      intro h
      rw [exec_save hi]
      unfold ctxSaveOp issue
      have : (do
          let (x, core) ← Act.imageOperands a b d
          if core then Act.saveCore d x else Act.saveContext d x : Act Unit) (s.issued 4) = Act.saveContext d x (s.issued 4) := by
        rw [Act.bind_ok (hop hsup (by rw [State.issued_g, ← hy, h]; decide)), State.issued_g, State.issued_g, ← hx, ← hy, h]
        rfl
      have e : s.modCtx (fun c => { c with pc := c.pc + W 4, run := .runnable }) = s.issued 4 := rfl
      rw [e, this]
    have coreForm : y = 1 → exec i s = issue s sp 4 (fun _ => Act.saveCore d x (s.issued 4)) := by
      intro h
      rw [exec_save hi]
      unfold ctxSaveOp issue
      have : (do
          let (x, core) ← Act.imageOperands a b d
          if core then Act.saveCore d x else Act.saveContext d x : Act Unit) (s.issued 4) = Act.saveCore d x (s.issued 4) := by
        rw [Act.bind_ok (hop hsup (by rw [State.issued_g, ← hy, h]; decide)), State.issued_g, State.issued_g, ← hx, ← hy, h]
        rfl
      have e : s.modCtx (fun c => { c with pc := c.pc + W 4, run := .runnable }) = s.issued 4 := rfl
      rw [e, this]
    have hri : ∀ al n, (s.issued 4).imageRange x al n .write = s.imageRange x al n .write := fun al n => imageRange_issued s 4 x al n .write
    refine ⟨fun h hm => ?_, fun h hm => ?_, fun h e he => ?_, fun h e he => ?_, fun h p hp hl => ?_, fun h hs' hp hl => ?_, fun h p hp hl hr u hu => ?_,
      fun h hs' hp g1 g2 g3 g4 hr => ?_⟩
    · rw [ctxForm h]; exact issue_wrG hc ((saveContext_status d x).1 1 ((hri _ _).trans (imageRange_misaligned _ _ hm)))
    · rw [coreForm h]; exact issue_wrG hc ((saveCore_status d x).1 1 ((hri _ _).trans (imageRange_misaligned _ _ hm)))
    · rw [ctxForm h]; exact issue_wrG hc ((saveContext_status d x).1 e ((hri _ _).trans he))
    · rw [coreForm h]; exact issue_wrG hc ((saveCore_status d x).1 e ((hri _ _).trans he))
    · rw [ctxForm h]
      refine issue_wrG hc ((saveContext_status d x).2 _ ((hri _ _).trans hp) ?_)
      rw [issued_savable]
      cases hb : s.ctx.savable s.cx with
      | false => rfl
      | true => exact absurd ((savable_iff _ _).1 hb) hl
    · rw [coreForm h]
      exact issue_wrG hc ((saveCore_status d x).2 _ ((hri _ _).trans hp) (fun e => hl e))
    · rw [ctxForm h]
      have hd := saveContext_done d x p ((hri _ _).trans hp) ((issued_savable s).trans ((savable_iff _ _).2 hl)) (allPresent_issued hc) hr
      have hq : SameCtxs (s.issued 4) u := by rw [hu]; exact SameCtxs.put _ _ _ _
      have hu2 : ((s.issued 4).put p ((s.issued 4).ctx.image (s.issued 4).pid (s.issued 4).cx (s.issued 4).time (s.issued 4).ctx.sysRec ((s.issued 4).ctx.sysRec.flags ||| Tab.get 0 (s.issued 4).ctx.late 1) ((s.issued 4).outstanding (s.issued 4).ctx.act)) .other) = u := by
        rw [hu]
        have e1 : (s.issued 4).ctx.sysRec = s.ctx.sysRec := by rw [State.ctx_issued]
        have e2 : (s.issued 4).ctx.late = s.ctx.late := by rw [State.ctx_issued]
        have e3 : ∀ n, (s.issued 4).outstanding n = s.outstanding n := fun _ => rfl
        rw [State.issued_act, e1, e2, e3]; rfl
      rw [hu2] at hd
      obtain ⟨r1, r2, r3, r4, r5⟩ := saveCtx_spec u p.key
      have hcx : u.ctx = (s.issued 4).ctx := hq.ctx
      have hpid : u.pid = s.pid := hq.pid
      have hcxx : u.cx = s.cx := hq.cx
      have hact : u.ctx.act = s.ctx.act := by rw [hcx, State.issued_act]
      have hst : ∀ n, u.stream s.pid n = s.stream s.pid n := by
        intro n; unfold State.stream; rw [SameCtxs.coreAt hq.cores]; rfl
      rw [hpid, hcxx] at r2 r3 r4
      rw [hpid, hact] at r5
      refine ⟨_, issue_stop hd, r1, ?_, ?_, ?_, ?_⟩
      · rw [r2, hcx, State.ctx_issued]
      · intro q c hq2
        rw [r3 q c hq2]
        have : u.ctxAt q c = (s.issued 4).ctxAt q c := by unfold State.ctxAt; rw [hq.ctxs]
        rw [this]; exact State.ctxAt_modCtxAt_ne _ _ hq2
      · obtain ⟨v, v1, v2, v3, v4, v5, v6, v7, v8⟩ := r4
        refine ⟨v, v1, v2, v3, v4, ?_, ?_, ?_, ?_⟩
        · rw [v5, hcx, State.ctx_issued]
        · rw [v6, hcx, State.ctx_issued]
        · rw [v7, hact]
        · rw [v8, hcx, State.ctx_issued]
      · intro n hn k1 k2
        have := r5 n hn (by rw [hst]; exact k1) (by rw [hst]; exact k2)
        rw [hst] at this; exact this
    · rw [coreForm h]
      have hd := saveCore_done d x hs' ((hri _ _).trans hp) g1 g2 g3 g4 hr
      obtain ⟨r1, r2, r3, r4, r5⟩ := savedCore_spec (s.issued 4) hs'
      have hctx : ((s.issued 4).savedCore hs').ctx = (s.issued 4).ctx := by
        unfold State.ctx State.ctxAt; rw [r2, r3, r4]
      have hcl : ((s.issued 4).savedCore hs').Clean := by
        unfold State.Clean; rw [hctx]; exact h4
      rw [Act.wrG_clean hcl] at hd
      refine ⟨_, issue_ok hd, ?_, ?_, ?_, ?_⟩
      · rw [State.core_modCtx, r1]; rfl
      · rw [State.ctx_modCtx, hctx]
      · rw [State.modCtx_images]
        obtain ⟨e, e1, e0, e2, e3, e4⟩ := r5
        exact ⟨e, e1, e0, e2, by rw [e3, State.issued_ident], e4⟩
      · intro q c hq
        refine (State.ctxAt_modCtxAt_ne _ _ (by rw [r3, r4]; exact hq)).trans ?_
        have : ((s.issued 4).savedCore hs').ctxAt q c = (s.issued 4).ctxAt q c := by unfold State.ctxAt; rw [r2]
        rw [this]; exact State.ctxAt_modCtxAt_ne _ _ hq

end Sys2Proof.Machine
end

