-- ==== Sys2Proof/Laws/Loading.lean ====
section
/-! SUPPORT. CTXLOAD of a context and of a core. -/

set_option Elab.async false

namespace Sys2Proof.Machine

theorem getD_take_drop (w : List Word) (m n k : Nat) (h : k < n) : ((w.drop m).take n).getD k 0 = w.getD (m + k) 0 := by
  rw [List.getD_eq_getElem?_getD, List.getD_eq_getElem?_getD, List.getElem?_take, if_pos h, List.getElem?_drop]

theorem ofWords_g (w : List Word) (i : Nat) (h1 : 1 ≤ i) (h2 : i ≤ 30) (h3 : i < 32) (hl : 38 ≤ w.length) : (CRec.ofWords w).g[i] = w.getD (7 + i) 0 := by
  unfold CRec.ofWords vecOf
  dsimp only
  rw [Vector.getElem_ofFn]
  dsimp only
  rw [List.getD_eq_getElem?_getD, List.getD_eq_getElem?_getD]
  obtain ⟨j, rfl⟩ : ∃ j, i = j + 1 := ⟨i - 1, by omega⟩
  rw [List.append_assoc, List.singleton_append, List.getElem?_cons_succ, List.getElem?_append_left (by simp; omega), List.getElem?_take, if_pos (by omega), List.getElem?_drop]
  congr 2; omega

theorem ofImage_spec (hid : Ctx) (w : List Word) (hl : w.length = 512) :
    (hid.ofImage w).run = .runnable ∧ (hid.ofImage w).pc = w.getD 33 0 ∧ (∀ i : Reg, 1 ≤ i.toNat → i.toNat ≤ 30 → (hid.ofImage w).g i = w.getD (39 + i.toNat) 0)
    ∧ (hid.ofImage w).regs.allPresent = true ∧ (hid.ofImage w).stat.sup = flag (w.getD 32 0) 40 ∧ (hid.ofImage w).stat.emrg = flag (w.getD 32 0) 39
    ∧ (hid.ofImage w).hf = w.getD 35 0 ∧ (hid.ofImage w).hframe = w.getD 36 0 := by
  refine ⟨rfl, getD_take_drop w 32 96 1 (by decide), ?_, rfl, ?_, ?_, getD_take_drop w 32 96 3 (by decide), getD_take_drop w 32 96 4 (by decide)⟩
  · intro i h1 h2
    have h0 : i ≠ 0 := by intro e; rw [e] at h1; exact absurd h1 (by decide)
    unfold Ctx.g Regs.getG
    rw [if_neg h0]
    show ((CRec.ofWords ((w.drop 32).take 96)).g.set 31 _)[i.toNat] = _
    rw [Vector.getElem_set_ne _ _ (by omega), ofWords_g _ _ h1 h2 (by omega) (by simp; omega), getD_take_drop _ _ _ _ (by omega)]
    congr 1; omega
  · show flag (((w.drop 32).take 96).getD 0 0) 40 = _
    rw [getD_take_drop w 32 96 0 (by decide)]
  · show flag (((w.drop 32).take 96).getD 0 0) 39 = _
    rw [getD_take_drop w 32 96 0 (by decide)]

theorem unhold_ctxs (s : State) (p n : Nat) : (s.unhold p n).ctxs = s.ctxs ∧ (s.unhold p n).pid = s.pid ∧ (s.unhold p n).cx = s.cx := ⟨rfl, rfl, rfl⟩

theorem unholdOne_same (pid act : Nat) (s : State) (i : Nat) :
    (State.unholdOf pid act s i).ctxs = s.ctxs ∧ (State.unholdOf pid act s i).pid = s.pid ∧ (State.unholdOf pid act s i).cx = s.cx := by
  unfold State.unholdOf; dsimp only; split
  · exact unhold_ctxs s pid i
  · exact ⟨rfl, rfl, rfl⟩

theorem unholdAll_same (pid act : Nat) (l : List Nat) : ∀ s : State,
    (l.foldl (State.unholdOf pid act) s).ctxs = s.ctxs ∧ (l.foldl (State.unholdOf pid act) s).pid = s.pid ∧ (l.foldl (State.unholdOf pid act) s).cx = s.cx := by
  induction l with
  | nil => intro s; exact ⟨rfl, rfl, rfl⟩
  | cons a l ih =>
    intro s
    have h := unholdOne_same pid act s a
    obtain ⟨a1, a2, a3⟩ := ih (State.unholdOf pid act s a)
    exact ⟨a1.trans h.1, a2.trans h.2.1, a3.trans h.2.2⟩

theorem loadCtx_shape (s : State) (n : Nat) (ea : Word) (w : List Word) (hl : w.length = 512) :
    ∃ u act c, s.loadCtx n ea w = [0, 1, 2, 3].foldl (State.unholdOf s.pid act) u ∧ u.ctxs = (s.setCtxAt s.pid n c).ctxs ∧ u.pid = s.pid ∧ u.cx = s.cx ∧ FromImage c w ea := by
  unfold State.loadCtx
  dsimp only
  obtain ⟨h1, h2, h3, h4, h5, h6, h7, h8⟩ := ofImage_spec (s.hiddenOf n w) w hl
  refine ⟨_, _, s.restored (s.hiddenOf n w) n ea w, rfl, rfl, rfl, rfl, ?_⟩
  generalize s.hiddenOf n w = hid at *
  exact ⟨h1, h2, h3, h4, rfl, rfl, rfl, rfl, h5, h6, rfl, rfl, rfl, rfl, rfl, rfl, rfl, rfl, rfl, h7, h8, rfl⟩

theorem loadCtx_spec (s : State) (n : Nat) (ea : Word) (w : List Word) (hl : w.length = 512) :
    FromImage ((s.loadCtx n ea w).ctxAt s.pid n) w ea ∧ (∀ q c, ctxKey q c ≠ ctxKey s.pid n → (s.loadCtx n ea w).ctxAt q c = s.ctxAt q c)
    ∧ (s.loadCtx n ea w).pid = s.pid ∧ (s.loadCtx n ea w).cx = s.cx := by
  obtain ⟨u, act, c, h, h1, h2, h3, h4⟩ := loadCtx_shape s n ea w hl
  obtain ⟨k1, k2, k3⟩ := unholdAll_same s.pid act [0, 1, 2, 3] u
  rw [← h] at k1 k2 k3
  have e : ∀ q x, (s.loadCtx n ea w).ctxAt q x = (s.setCtxAt s.pid n c).ctxAt q x := by intro q x; unfold State.ctxAt; rw [k1, h1]
  refine ⟨?_, fun q x hq => ?_, k2.trans h2, k3.trans h3⟩
  · rw [e, State.ctxAt_setCtxAt]; exact h4
  · rw [e]; exact State.ctxAt_setCtxAt_ne _ _ hq

theorem countsOk_iff (w : Word) : badCounts w 8 = false ↔ countsOk w := by
  unfold badCounts countsOk
  rw [List.any_eq_false]
  constructor
  · intro h i hi
    have := h i (List.mem_range.2 hi)
    simpa using this
  · intro h i hi
    have := h i (List.mem_range.1 hi)
    simpa using this

theorem badHeader_iff (w : List Word) : badHeader w = false ↔ goodHeader w := by
  unfold badHeader goodHeader
  simp only [Bool.or_eq_false_iff, bne_eq_false_iff_eq, countsOk_iff, List.any_eq_false, bne_iff_ne, ne_eq, Decidable.not_not, and_assoc]

theorem loadContext_status {s : State} (d : Reg) (x : Word) :
    (∀ e, s.imageRange x 4096 1 .read = .error e → Act.loadContext d x s = Act.wrG d (W e) s)
    ∧ (∀ h, s.imageRange x 4096 1 .read = .ok [h] → s.pagesHeld [h] 4096 = false → ∀ w n, w = s.imageWords h → n = fld (w.getD 0 0) 34 32 →
      (4 ≤ n ∨ (s.vacant s.pid n = false ∧ n ≠ s.cx) ∨ fld (w.getD 1 0) 10 0 ≠ s.pid ∨ s.imageAway n w = true → Act.loadContext d x s = Act.wrG d 4 s)
      ∧ (n < 4 → s.vacant s.pid n = true ∨ n = s.cx → fld (w.getD 1 0) 10 0 = s.pid → s.imageAway n w = false →
        (¬ goodHeader w → Act.loadContext d x s = Act.wrG d 5 s)
        ∧ (goodHeader w → s.imageBad [h] 0 4096 = true → Act.loadContext d x s = Act.wrG d 6 s)
        ∧ (goodHeader w → s.imageBad [h] 0 4096 = false → flag (w.getD 0 0) 0 = false →
          (n ≠ s.cx → Act.loadContext d x s = Act.wrG d 0 (s.loadCtx n x w))
          ∧ (n = s.cx → s.outstanding s.ctx.act = false → Act.loadContext d x s = .error (.stop (((s.endAct s.pid s.cx).loadCtx n x w).modCore (fun k => { k with cur := n }))))))) := by
  refine ⟨fun e h => ?_, fun h hp hk w n hw hn => ?_⟩
  · unfold Act.loadContext; rw [Act.bind_ok (Act.get_apply _), h]
  have base : Act.loadContext d x s = (
    if 4 ≤ n || (!(n == s.cx && s.cx != 4) && !s.vacant s.pid n) || fld (w.getD 1 0) 10 0 != s.pid
        || s.imageAway n w then Act.wrG d 4
    else if badHeader w then Act.wrG d 5
    else if s.imageBad [h] 0 4096 then Act.wrG d 6
    else do
      Act.waitIf (flag (w.getD 0 0) 0) (.pend (([h].headD (.dev 0 false false 0)).readKey s.sys.lead s.pid))
      Act.waitIf ((n == s.cx && s.cx != 4) && s.outstanding s.ctx.act) .drain
      if n == s.cx && s.cx != 4 then Act.stop (((s.endAct s.pid s.cx).loadCtx n x w).modCore (fun k => { k with cur := n }))
      else do
        set (s.loadCtx n x w)
        Act.wrG d 0) s := by
    unfold Act.loadContext; rw [Act.bind_ok (Act.get_apply _), hp]; dsimp only
    rw [hk, Act.bind_ok (Act.waitIf_false _ _)]
    subst hn; subst hw; rfl
  refine ⟨fun hc => ?_, fun h1 h2 h3 h4 => ?_⟩
  · rw [base, if_pos]
    simp only [Bool.or_eq_true, decide_eq_true_eq, Bool.and_eq_true, Bool.not_eq_true', Bool.and_eq_false_iff, beq_eq_false_iff_ne, bne_eq_false_iff_eq, bne_iff_ne]
    rcases hc with hc | hc | hc | hc
    · exact .inl (.inl (.inl hc))
    · exact .inl (.inl (.inr ⟨.inl hc.2, hc.1⟩))
    · exact .inl (.inr hc)
    · exact .inr hc
  · have hown : n = s.cx → (n == s.cx && s.cx != 4) = true := by
      intro e; rw [← e]; simp; omega
    have hnown : n ≠ s.cx → (n == s.cx && s.cx != 4) = false := by intro e; simp [e]
    rw [base, if_neg]
    · refine ⟨fun hg => ?_, fun hg hb => ?_, fun hg hb hf => ?_⟩
      · rw [eq_true_of_not (fun e => hg ((badHeader_iff w).1 e))]; rfl
      · rw [(badHeader_iff w).2 hg, hb]; rfl
      · rw [(badHeader_iff w).2 hg, hb, hf]
        refine ⟨fun e => ?_, fun e ho => ?_⟩
        · rw [hnown e]; rfl
        · rw [hown e, ho]; rfl
    · simp only [Bool.or_eq_true, decide_eq_true_eq, Bool.and_eq_true, Bool.not_eq_true', Bool.and_eq_false_iff, beq_eq_false_iff_ne, bne_eq_false_iff_eq, bne_iff_ne, not_or, not_and]
      refine ⟨⟨⟨by omega, ?_⟩, by simpa using h3⟩, by rw [h4]; decide⟩
      intro hx
      rcases h2 with h2 | h2
      · rw [h2]; decide
      · rcases hx with hx | hx
        · exact absurd h2 hx
        · omega

theorem exec_load {i : Instr} {sp : Bool} {d a b : Reg} (h : i ∈ loadImageForms sp d a b) (s : State) : exec i s = ctxLoadOp sp d a b s := by
  simp only [loadImageForms, List.mem_cons, List.not_mem_nil, or_false] at h
  rcases h with rfl | rfl <;> rfl

theorem goodCore_iff (w : Nat → Word) : badCoreHeader w = false ↔ goodCoreHeader w := by
  unfold badCoreHeader goodCoreHeader recordsOk
  simp only [Bool.or_eq_false_iff, bne_eq_false_iff_eq, countsOk_iff, List.any_eq_false, bne_iff_ne, ne_eq, Decidable.not_not, and_assoc, decide_eq_false_iff_not, Nat.not_lt,
    List.mem_range]

theorem loadCore_status {s : State} (d : Reg) (x : Word) :
    (∀ e, s.imageRange x 65536 25 .read = .error e → Act.loadCore d x s = Act.wrG d (W e) s)
    ∧ (∀ hs, s.imageRange x 65536 25 .read = .ok hs → s.pagesHeld hs 65536 = false → ∀ w from_, w = s.coreWord hs →
        from_ = s.images.find? (fun e => e.pid == s.pid && e.launch == fld (w 8) 63 32 && s.layoutsOf hs e.serial) →
        (¬ (s.cx = 4 ∧ s.lowFree s.pid = true ∧ fld (w 0) 10 0 = s.pid) → Act.loadCore d x s = Act.wrG d 4 s)
        ∧ (s.cx = 4 → s.lowFree s.pid = true → fld (w 0) 10 0 = s.pid →
          (¬ goodCoreHeader w → Act.loadCore d x s = Act.wrG d 5 s)
          ∧ (goodCoreHeader w →
            (from_ = none → Act.loadCore d x s = Act.wrG d 5 s)
            ∧ (∀ e, from_ = some e → s.imageBad hs 0 65536 = true → Act.loadCore d x s = Act.wrG d 6 s)
            ∧ (∀ e, from_ = some e → s.imageBad hs 0 65536 = false →
              Act.loadCore d x s = Act.wrG d 0 (s.loadedCore hs e w (fld (w 8) 63 32)))))) := by
  refine ⟨fun e h => ?_, fun hs hp hk w from_ hw hfrom => ?_⟩
  · unfold Act.loadCore; rw [Act.bind_ok (Act.get_apply _), h]
  have hh : (fun off => W (natOf (s.imageRd hs off 8))) = w := hw.symm
  have base : Act.loadCore d x s = (if s.cx != 4 || !s.lowFree s.pid || fld (w 0) 10 0 != s.pid then Act.wrG d 4
    else if badCoreHeader w then Act.wrG d 5
    else match s.images.find? (fun e => e.pid == s.pid && e.launch == fld (w 8) 63 32 && s.layoutsOf hs e.serial) with
    | none => Act.wrG d 5
    | some e =>
      if s.imageBad hs 0 0x10000 then Act.wrG d 6
      else do
        set (s.loadedCore hs e w (fld (w 8) 63 32))
        Act.wrG d 0) s := by
    unfold Act.loadCore; rw [Act.bind_ok (Act.get_apply _), hp]; dsimp only
    rw [hk, Act.bind_ok (Act.waitIf_false _ _), hw]; rfl
  refine ⟨fun hn => ?_, fun h1 h2 h3 => ?_⟩
  · rw [base, if_pos]
    apply eq_true_of_not; intro e; apply hn
    simp only [Bool.or_eq_false_iff, bne_eq_false_iff_eq, Bool.not_eq_false'] at e
    exact ⟨e.1.1, e.1.2, e.2⟩
  · rw [base, if_neg (by simp [h1, h2, h3])]
    refine ⟨fun hg => ?_, fun hg => ?_⟩
    · rw [eq_true_of_not (fun e => hg ((goodCore_iff w).1 e))]; rfl
    · rw [(goodCore_iff w).2 hg]
      refine ⟨fun g1 => ?_, fun e g1 g2 => ?_, fun e g1 g2 => ?_⟩
      · rw [← hfrom, g1]; rfl
      · rw [← hfrom, g1]; dsimp only; rw [g2]; rfl
      · rw [← hfrom, g1]; dsimp only; rw [g2]; rfl

theorem endAct_same (s : State) (p x : Nat) : (s.endAct p x).pid = s.pid ∧ (s.endAct p x).cx = s.cx
    ∧ (∀ q c, ctxKey q c ≠ ctxKey p x → (s.endAct p x).ctxAt q c = s.ctxAt q c) := by
  obtain ⟨u, c, hu, h1, h2, h3⟩ : ∃ u c, s.endAct p x = (State.setCtxAt u p x c).modCoreAt p (fun k => { k with rq := setBit k.rq x false }) ∧ u.ctxs = s.ctxs ∧ u.pid = s.pid ∧ u.cx = s.cx := by
    unfold State.endAct
    dsimp only
    cases (s.ctxAt p x).started <;> exact ⟨_, _, rfl, rfl, rfl, rfl⟩
  rw [hu]
  refine ⟨h2, h3, fun q c hq => ?_⟩
  rw [State.ctxAt_modCoreAt, State.ctxAt_setCtxAt_ne _ _ hq]
  unfold State.ctxAt; rw [h1]

theorem chunks_length {α : Type} (n k : Nat) (hn : 0 < n) : ∀ l : List α, l.length = n * k → (chunks n k l).length = k := by
  induction k with
  | zero => intro l _; rfl
  | succ k ih =>
    intro l h
    have : 0 < n * (k + 1) := Nat.mul_pos hn (by omega)
    have h2 : n * (k + 1) = n * k + n := Nat.mul_succ n k
    unfold chunks
    rw [if_neg (by intro e; rw [List.isEmpty_iff] at e; subst e; rw [List.length_nil] at h; omega), List.length_cons, ih _ (by rw [List.length_drop]; omega)]

theorem imageWords_length (s : State) (h : Home) : (s.imageWords h).length = 512 := by
  unfold State.imageWords bytesWords
  rw [List.length_map]
  apply chunks_length _ _ (by decide)
  show (s.rd _ 4096).length = _
  exact length_rds _ _ _

theorem discard_same (s : State) (p l : Nat) : (s.discard p l).ctxs = s.ctxs ∧ (s.discard p l).pid = s.pid ∧ (s.discard p l).cx = s.cx
    ∧ ((s.discard p l).coreAt p).dlcnt = (s.coreAt p).dlcnt ∧ ((s.discard p l).coreAt p).deccnt = (s.coreAt p).deccnt ∧ ((s.discard p l).coreAt p).m = (s.coreAt p).m
    ∧ ((s.discard p l).coreAt p).chans = (s.coreAt p).chans := by
  unfold State.discard
  generalize s.discardable l = r
  obtain ⟨lo, hi⟩ := r
  dsimp only
  rw [State.coreAt_modCoreAt]
  exact ⟨rfl, rfl, rfl, rfl, rfl, rfl, rfl⟩

theorem ofImage_core (k saved : Core) (w : Nat → Word) (l : Nat) :
    (k.ofImage saved w l).dlcnt = w 0x10 ∧ (k.ofImage saved w l).deccnt = w 0x18 ∧ (∀ j : Fin 16, (k.ofImage saved w l).m[j] = w (0x40 + 8 * j.val))
    ∧ (∀ n < 8, (Tab.get Chan.reset (k.ofImage saved w l).chans n).mark = fld (w (0xC00 + 8 * n)) 20 0) := by
  refine ⟨rfl, rfl, fun j => ?_, fun n hn => ?_⟩
  · show (Vector.ofFn _)[j.val] = _
    rw [Vector.getElem_ofFn]
  · have : n = 0 ∨ n = 1 ∨ n = 2 ∨ n = 3 ∨ n = 4 ∨ n = 5 ∨ n = 6 ∨ n = 7 := by omega
    rcases this with rfl | rfl | rfl | rfl | rfl | rfl | rfl | rfl <;> rfl

theorem loadedCore_spec (s : State) (hs : List Home) (e : CoreImg) (w : Nat → Word) (l : Nat) :
    (s.loadedCore hs e w l).ctxs = s.ctxs ∧ (s.loadedCore hs e w l).pid = s.pid ∧ (s.loadedCore hs e w l).cx = s.cx
    ∧ (s.loadedCore hs e w l).core.dlcnt = w 0x10 ∧ (s.loadedCore hs e w l).core.deccnt = w 0x18 ∧ (∀ j : Fin 16, (s.loadedCore hs e w l).core.m[j] = w (0x40 + 8 * j.val))
    ∧ (∀ n < 8, (Tab.get Chan.reset (s.loadedCore hs e w l).core.chans n).mark = fld (w (0xC00 + 8 * n)) 20 0) := by
  obtain ⟨z, k, h1, h2, h3, h4, h5⟩ : ∃ (z : State) (k : Core), s.loadedCore hs e w l = (if flag (w 8) 0 then z.discard s.pid l else z) ∧ z.ctxs = s.ctxs ∧ z.pid = s.pid ∧ z.cx = s.cx
      ∧ z.coreAt s.pid = k.ofImage e.core w l := by
    unfold State.loadedCore
    dsimp only
    exact ⟨_, _, rfl, rfl, rfl, rfl, State.coreAt_modCoreAt _ _ _⟩
  obtain ⟨o1, o2, o3, o4⟩ := ofImage_core k e.core w l
  obtain ⟨t, ht, t1, t2, t3, t4, t5, t6, t7⟩ : ∃ t, s.loadedCore hs e w l = t ∧ t.ctxs = s.ctxs ∧ t.pid = s.pid ∧ t.cx = s.cx ∧ t.core.dlcnt = (k.ofImage e.core w l).dlcnt
      ∧ t.core.deccnt = (k.ofImage e.core w l).deccnt ∧ t.core.m = (k.ofImage e.core w l).m ∧ t.core.chans = (k.ofImage e.core w l).chans := by
    cases hf : flag (w 8) 0 with
    | false =>
      rw [hf] at h1
      refine ⟨z, h1, h2, h3, h4, ?_⟩
      unfold State.core
      rw [h3, h5]; exact ⟨rfl, rfl, rfl, rfl⟩
    | true =>
      rw [hf] at h1
      obtain ⟨d1, d2, d3, d4, d5, d6, d7⟩ := discard_same z s.pid l
      refine ⟨_, h1, d1.trans h2, d2.trans h3, d3.trans h4, ?_⟩
      show ((z.discard s.pid l).core).dlcnt = _ ∧ ((z.discard s.pid l).core).deccnt = _ ∧ ((z.discard s.pid l).core).m = _ ∧ ((z.discard s.pid l).core).chans = _
      unfold State.core
      rw [d2, h3, d4, d5, d6, d7, h5]; exact ⟨rfl, rfl, rfl, rfl⟩
  rw [ht]
  refine ⟨t1, t2, t3, t4.trans o1, t5.trans o2, fun j => ?_, fun n hn => ?_⟩
  · have := o3 j; rw [← t6] at this; exact this
  · rw [t7]; exact o4 n hn

theorem load_rules :
    ∀ (s : State) (sp : Bool) (d a b : Reg), s.Clean → ∀ x y, x = s.ctx.g a → y = s.ctx.g b → ∀ i ∈ loadImageForms sp d a b,
    (s.ctx.stat.sup = false → exec i s = .next (s.raised { eff := 0x002 }))
    ∧ (s.ctx.stat.sup = true → 2 ≤ y.toNat → exec i s = .next (s.raised { eff := 0x001, arg := y }))
    ∧ (s.ctx.stat.sup = true →
      (y = 0 → x.toNat % 4096 ≠ 0 → exec i s = .next (s.afterG sp 4 d 1))
      ∧ (y = 1 → x.toNat % 65536 ≠ 0 → exec i s = .next (s.afterG sp 4 d 1))
      ∧ (y = 0 → ∀ e, s.imageRange x 4096 1 .read = .error e → exec i s = .next (s.afterG sp 4 d (W e)))
      ∧ (y = 1 → ∀ e, s.imageRange x 65536 25 .read = .error e → exec i s = .next (s.afterG sp 4 d (W e)))
      -- a context image
      ∧ (y = 0 → ∀ h, s.imageRange x 4096 1 .read = .ok [h] → s.pagesHeld [h] 4096 = false →
        ∀ w n, w = s.imageWords h → n = fld (w.getD 0 0) 34 32 →
        (4 ≤ n ∨ ((s.issued 4).vacant s.pid n = false ∧ n ≠ s.cx) ∨ fld (w.getD 1 0) 10 0 ≠ s.pid ∨ s.imageAway n w = true → exec i s = .next (s.afterG sp 4 d 4))
        ∧ (n < 4 → (s.issued 4).vacant s.pid n = true ∨ n = s.cx → fld (w.getD 1 0) 10 0 = s.pid → s.imageAway n w = false →
          (¬ goodHeader w → exec i s = .next (s.afterG sp 4 d 5))
          ∧ (goodHeader w → s.imageBad [h] 0 4096 = true → exec i s = .next (s.afterG sp 4 d 6))
          ∧ (goodHeader w → s.imageBad [h] 0 4096 = false → flag (w.getD 0 0) 0 = false →
            (n ≠ s.cx → ∃ t : State, exec i s = .next (t.switch sp) ∧ FromImage (t.ctxAt s.pid n) w x ∧ t.ctx = (s.issued 4).ctx.setG d 0
              ∧ (∀ q c, ctxKey q c ≠ ctxKey s.pid n → ctxKey q c ≠ ctxKey s.pid s.cx → t.ctxAt q c = s.ctxAt q c))
            ∧ (n = s.cx → s.outstanding s.ctx.act = false → ∃ t : State, exec i s = .next t ∧ FromImage t.ctx w x ∧ (∀ q c, ctxKey q c ≠ ctxKey s.pid s.cx → t.ctxAt q c = s.ctxAt q c)))))
      -- a core image
      ∧ (y = 1 → ∀ hs, s.imageRange x 65536 25 .read = .ok hs → s.pagesHeld hs 65536 = false → ∀ w from_, w = s.coreWord hs →
        from_ = s.images.find? (fun e => e.pid == s.pid && e.launch == fld (w 8) 63 32 && s.layoutsOf hs e.serial) →
        (¬ (s.cx = 4 ∧ (s.issued 4).lowFree s.pid = true ∧ fld (w 0) 10 0 = s.pid) → exec i s = .next (s.afterG sp 4 d 4))
        ∧ (s.cx = 4 → (s.issued 4).lowFree s.pid = true → fld (w 0) 10 0 = s.pid →
          (¬ goodCoreHeader w → exec i s = .next (s.afterG sp 4 d 5))
          ∧ (goodCoreHeader w →
            (from_ = none → exec i s = .next (s.afterG sp 4 d 5))
            ∧ (∀ e, from_ = some e → s.imageBad hs 0 65536 = true → exec i s = .next (s.afterG sp 4 d 6))
            ∧ (∀ e, from_ = some e → s.imageBad hs 0 65536 = false →
              ∃ t : State, exec i s = .next (t.switch sp) ∧ t.ctx = (s.issued 4).ctx.setG d 0 ∧ (∀ q c, ctxKey q c ≠ ctxKey s.pid s.cx → t.ctxAt q c = s.ctxAt q c)
                ∧ t.core.dlcnt = w 0x10 ∧ t.core.deccnt = w 0x18 ∧ (∀ j : Fin 16, t.core.m[j] = w (0x40 + 8 * j.val))
                ∧ (∀ n < 8, (Tab.get Chan.reset t.core.chans n).mark = fld (w (0xC00 + 8 * n)) 20 0)))))) := by
  intro s sp d a b hc x y hx hy i hi
  have h4 := hc.issued 4
  have hop := imageOperands_ok h4 (a := a) (b := b) (d := d)
  refine ⟨fun hs => ?_, fun hs hb => ?_, fun hs => ?_⟩
  · rw [exec_load hi]
    exact issue_raise hc (Act.bind_error (Act.bind_error (Act.needSup_user (by simpa using hs))))
  · rw [exec_load hi]
    subst hx hy
    refine issue_raise hc (Act.bind_error ?_)
    rw [imageOperands_bad h4 (by simpa using hs) a b d (by simpa using hb), State.issued_g]; rfl
  have hsup : (s.issued 4).ctx.stat.sup = true := by simpa using hs
  have ctxForm : y = 0 → exec i s = issue s sp 4 (fun _ => Act.loadContext d x (s.issued 4)) := by
    intro h
    rw [exec_load hi]
    unfold ctxLoadOp issue
    have : (do
        let (x, core) ← Act.imageOperands a b d
        if core then Act.loadCore d x else Act.loadContext d x : Act Unit) (s.issued 4) = Act.loadContext d x (s.issued 4) := by
      rw [Act.bind_ok (hop hsup (by rw [State.issued_g, ← hy, h]; decide)), State.issued_g, State.issued_g, ← hx, ← hy, h]
      rfl
    have e : s.modCtx (fun c => { c with pc := c.pc + W 4, run := .runnable }) = s.issued 4 := rfl
    rw [e, this]
  have coreForm : y = 1 → exec i s = issue s sp 4 (fun _ => Act.loadCore d x (s.issued 4)) := by
    intro h
    rw [exec_load hi]
    unfold ctxLoadOp issue
    have : (do
        let (x, core) ← Act.imageOperands a b d
        if core then Act.loadCore d x else Act.loadContext d x : Act Unit) (s.issued 4) = Act.loadCore d x (s.issued 4) := by
      rw [Act.bind_ok (hop hsup (by rw [State.issued_g, ← hy, h]; decide)), State.issued_g, State.issued_g, ← hx, ← hy, h]
      rfl
    have e : s.modCtx (fun c => { c with pc := c.pc + W 4, run := .runnable }) = s.issued 4 := rfl
    rw [e, this]
  have hri : ∀ al n, (s.issued 4).imageRange x al n .read = s.imageRange x al n .read := fun al n => imageRange_issued s 4 x al n .read
  refine ⟨fun h hm => ?_, fun h hm => ?_, fun h e he => ?_, fun h e he => ?_, fun h p hp hk w n hw hn => ?_, fun h hs' hp hk w from_ hw hfrom => ?_⟩
  · rw [ctxForm h]; exact issue_wrG hc ((loadContext_status d x).1 1 ((hri _ _).trans (imageRange_misaligned _ _ hm)))
  · rw [coreForm h]; exact issue_wrG hc ((loadCore_status d x).1 1 ((hri _ _).trans (imageRange_misaligned _ _ hm)))
  · rw [ctxForm h]; exact issue_wrG hc ((loadContext_status d x).1 e ((hri _ _).trans he))
  · rw [coreForm h]; exact issue_wrG hc ((loadCore_status d x).1 e ((hri _ _).trans he))
  · rw [ctxForm h]
    have hwi : w = (s.issued 4).imageWords p := hw
    have hl : w.length = 512 := hwi ▸ imageWords_length _ _
    obtain ⟨q1, q2⟩ := (loadContext_status (s := s.issued 4) d x).2 p ((hri _ _).trans hp) hk w n hwi hn
    refine ⟨fun hb => issue_wrG hc (q1 hb), fun n1 n2 n3 n4 => ?_⟩
    · have n2' := n2
      obtain ⟨r5, r6, r0⟩ := q2 n1 n2' n3 n4
      refine ⟨fun hg => issue_wrG hc (r5 hg), fun hg hb => issue_wrG hc (r6 hg hb), fun hg hb hf => ⟨fun e => ?_, fun e ho => ?_⟩⟩
      · have hd := (r0 hg hb hf).1 e
        obtain ⟨l1, l2, l3, l4⟩ := loadCtx_spec (s.issued 4) n x w hl
        have hctx : ((s.issued 4).loadCtx n x w).ctx = (s.issued 4).ctx := by
          show ((s.issued 4).loadCtx n x w).ctxAt ((s.issued 4).loadCtx n x w).pid ((s.issued 4).loadCtx n x w).cx = _
          rw [l3, l4]; exact l2 _ _ (by
            show ctxKey s.pid s.cx ≠ ctxKey s.pid n
            unfold ctxKey; omega)
        have hcl : ((s.issued 4).loadCtx n x w).Clean := by unfold State.Clean; rw [hctx]; exact h4
        rw [Act.wrG_clean hcl] at hd
        have ne : ∀ q c, ctxKey q c ≠ ctxKey s.pid s.cx → (((s.issued 4).loadCtx n x w).modCtx (fun c => c.setG d 0)).ctxAt q c = ((s.issued 4).loadCtx n x w).ctxAt q c := by
          intro q c hq
          exact State.ctxAt_modCtxAt_ne _ _ (by rw [l3, l4]; exact hq)
        refine ⟨_, issue_ok hd, ?_, ?_, ?_⟩
        · rw [ne _ _ (by unfold ctxKey; omega)]; exact l1
        · rw [State.ctx_modCtx, hctx]
        · intro q c h1 h2
          rw [ne _ _ h2, l2 _ _ h1]; exact State.ctxAt_modCtxAt_ne _ _ h2
      · have hd := (r0 hg hb hf).2 e (by rw [State.issued_act]; exact ho)
        rw [State.issuedAt_pid, State.issuedAt_cx] at hd
        obtain ⟨e1, e2, e3⟩ := endAct_same (s.issued 4) s.pid s.cx
        obtain ⟨l1, l2, l3, l4⟩ := loadCtx_spec ((s.issued 4).endAct s.pid s.cx) n x w hl
        rw [e1] at l1 l2
        refine ⟨_, issue_stop hd, ?_, ?_⟩
        · rw [State.ctx_modCore]
          show FromImage ((((s.issued 4).endAct s.pid s.cx).loadCtx n x w).ctxAt (((s.issued 4).endAct s.pid s.cx).loadCtx n x w).pid (((s.issued 4).endAct s.pid s.cx).loadCtx n x w).cx) w x
          rw [l3, l4, e1, e2]
          have : (s.issued 4).cx = n := e.symm
          rw [this]; exact l1
        · intro q c hq
          have hm : ∀ (z : State) f, (z.modCore f).ctxAt q c = z.ctxAt q c := fun _ _ => rfl
          rw [hm, l2 q c (by rw [e]; exact hq), e3 q c hq]
          exact State.ctxAt_modCtxAt_ne _ _ hq
  · rw [coreForm h]
    obtain ⟨q1, q2⟩ := (loadCore_status (s := s.issued 4) d x).2 hs' ((hri _ _).trans hp) hk w from_ hw hfrom
    refine ⟨fun hb => issue_wrG hc (q1 hb), fun n1 n2 n3 => ?_⟩
    obtain ⟨r5, r0⟩ := q2 n1 n2 n3
    refine ⟨fun hg => issue_wrG hc (r5 hg), fun hg => ?_⟩
    obtain ⟨v1, v2, v3⟩ := r0 hg
    refine ⟨fun g => issue_wrG hc (v1 g), fun e g g2 => issue_wrG hc (v2 e g g2), fun e g g2 => ?_⟩
    have hd := v3 e g g2
    obtain ⟨c1, c2, c3, c4, c5, c6, c7⟩ := loadedCore_spec (s.issued 4) hs' e w (fld (w 8) 63 32)
    have hctx : ((s.issued 4).loadedCore hs' e w (fld (w 8) 63 32)).ctx = (s.issued 4).ctx := by
      unfold State.ctx State.ctxAt; rw [c1, c2, c3]
    have hcl : ((s.issued 4).loadedCore hs' e w (fld (w 8) 63 32)).Clean := by unfold State.Clean; rw [hctx]; exact h4
    rw [Act.wrG_clean hcl] at hd
    refine ⟨_, issue_ok hd, ?_, ?_, c4, c5, c6, c7⟩
    · rw [State.ctx_modCtx, hctx]
    · intro q c hq
      refine (State.ctxAt_modCtxAt_ne _ _ (by rw [c2, c3]; exact hq)).trans ?_
      have : ((s.issued 4).loadedCore hs' e w (fld (w 8) 63 32)).ctxAt q c = (s.issued 4).ctxAt q c := by unfold State.ctxAt; rw [c1]
      rw [this]; exact State.ctxAt_modCtxAt_ne _ _ hq

end Sys2Proof.Machine
end

