-- ==== Sys2Proof/Laws/Copying.lean ====
section
/-! SUPPORT. CPY, CPYB and CPYM: their checks and the copy that starts. -/

set_option Elab.async false

namespace Sys2Proof.Machine

def Act.checks (l : List (Bool × Raise)) : Act Unit := match firstFault l with
  | some r => Act.raise r
  | none => pure ()

theorem Act.check_cons {α : Type} (b : Bool) (r : Raise) (l : List (Bool × Raise)) (m : Act α) :
    (Act.check b r >>= fun _ => Act.checks l >>= fun _ => m) = (Act.checks ((b, r) :: l) >>= fun _ => m) := by
  funext s
  cases b with
  | true => rfl
  | false =>
    rw [Act.bind_ok (Act.check_false _ _)]
    have : Act.checks ((false, r) :: l) = Act.checks l := rfl
    rw [this]

theorem Act.checks_some {α : Type} {l : List (Bool × Raise)} {r : Raise} (h : firstFault l = some r) (m : Act α) (s : State) :
    (Act.checks l >>= fun _ => m) s = .error (.raise r) := by
  unfold Act.checks; rw [h]; rfl

theorem Act.checks_none {α : Type} {l : List (Bool × Raise)} (h : firstFault l = none) (m : Act α) (s : State) :
    (Act.checks l >>= fun _ => m) s = m s := by
  unfold Act.checks; rw [h]; rfl

theorem Act.checks_nil {α : Type} (m : Act α) : (Act.checks [] >>= fun _ => m) = m := rfl

theorem Act.check_one {α : Type} (b : Bool) (r : Raise) (m : Act α) : (Act.check b r >>= fun _ => m) = (Act.checks [(b, r)] >>= fun _ => m) := Act.check_cons b r [] m

theorem firstFault_append (l k : List (Bool × Raise)) : firstFault (l ++ k) = (firstFault l).or (firstFault k) := by
  unfold firstFault; rw [List.find?_append]; cases l.find? _ <;> rfl

theorem Act.checks_append {α : Type} (l k : List (Bool × Raise)) (m : Act α) :
    (Act.checks l >>= fun _ => Act.checks k >>= fun _ => m) = (Act.checks (l ++ k) >>= fun _ => m) := by
  funext s
  cases h : firstFault l with
  | some r => rw [Act.checks_some h, Act.checks_some (r := r) (by rw [firstFault_append, h]; rfl)]
  | none =>
    rw [Act.checks_none h]
    unfold Act.checks
    rw [firstFault_append, h]; rfl

theorem firstFault_system {l : List (Bool × Raise)} {r : Raise} (h : firstFault l = some r) (hl : ∀ e ∈ l, Eff.system e.2.eff = true) : Eff.system r.eff = true := by
  unfold firstFault at h
  obtain ⟨e, he, rfl⟩ := Option.map_eq_some_iff.1 h
  exact hl e (List.mem_of_find?_eq_some he)

theorem rangeChecks_system (x : Word) (n : Nat) : ∀ e ∈ rangeChecks x n, Eff.system e.2.eff = true := by
  intro e he
  simp only [rangeChecks, List.mem_cons, List.not_mem_nil, or_false] at he
  rcases he with rfl | rfl | rfl <;> rfl

theorem copyChecks_system {s : State} {bound : Bool} {d : Reg} {x y z : Word} {r : Raise} (h : firstFault (copyChecks s bound d x y z) = some r) :
    Eff.system r.eff = true := by
  refine firstFault_system h (fun e he => ?_)
  unfold copyChecks at he
  rw [List.mem_append, List.mem_append] at he
  rcases he with (he | he) | he
  · simp only [List.mem_cons, List.not_mem_nil, or_false] at he
    rcases he with rfl | rfl | rfl | rfl <;> rfl
  · exact rangeChecks_system _ _ e he
  · split at he
    · simp only [List.mem_cons, List.not_mem_nil, or_false] at he
      subst he; rfl
    · exact rangeChecks_system _ _ e he

theorem cpymChecks_system {s : State} {d : Reg} {x y z : Word} {r : Raise} (h : firstFault (cpymChecks s d x y z) = some r) : Eff.system r.eff = true := by
  refine firstFault_system h (fun e he => ?_)
  unfold cpymChecks at he
  rw [List.mem_append] at he
  rcases he with he | he
  · simp only [List.mem_cons, List.not_mem_nil, or_false] at he
    rcases he with rfl | rfl | rfl | rfl | rfl <;> rfl
  · exact rangeChecks_system _ _ e he

theorem badLen_eq (n : Nat) : badLen n = !lenOk n := by
  unfold badLen lenOk
  rw [Bool.eq_iff_iff]; simp; omega

theorem copyRange_eq {α : Type} (x : Word) (n : Nat) (m : Act α) :
    (Act.copyRange x n >>= fun _ => m) = (Act.checks (rangeChecks x n) >>= fun _ => m) := by
  unfold rangeChecks
  rw [← Act.check_cons, ← Act.check_cons, ← Act.check_cons, Act.checks_nil]
  funext s
  unfold Act.copyRange
  dsimp only
  by_cases h : 2 ^ 52 ≤ x.toNat
  · rw [decide_eq_true h, Act.bind_error (Act.bind_error (Act.check_true _ _)), Act.bind_error (Act.check_true _ _)]; rfl
  · rw [decide_eq_false h, Act.bind_ok (Act.check_false _ _)]
    have e : ∀ (k : Act Unit), ((Act.check false (alignFault x) >>= fun _ => k) >>= fun _ => m) s = (k >>= fun _ => m) s := fun k => rfl
    rw [e]
    unfold leavesClass
    cases classOf x.toNat <;> rfl

/-- Everything but tiles and memory is as before. -/
structure SameButTiles (s t : State) : Prop where
  ctxs : t.ctxs = s.ctxs
  pid : t.pid = s.pid
  cx : t.cx = s.cx
  pkts : t.net.pkts = s.net.pkts
  nextReq : t.net.nextReq = s.net.nextReq
  copies : t.copies = s.copies
  next : t.nextCopy = s.nextCopy
  launches : t.launches = s.launches
  chans : ∀ p, (t.coreAt p).chans = (s.coreAt p).chans

theorem SameButTiles.refl (s : State) : SameButTiles s s := ⟨rfl, rfl, rfl, rfl, rfl, rfl, rfl, rfl, fun _ => rfl⟩

theorem SameButTiles.trans {s t u : State} (h : SameButTiles s t) (g : SameButTiles t u) : SameButTiles s u :=
  ⟨g.ctxs.trans h.ctxs, g.pid.trans h.pid, g.cx.trans h.cx, g.pkts.trans h.pkts, g.nextReq.trans h.nextReq, g.copies.trans h.copies, g.next.trans h.next, g.launches.trans h.launches,
   fun p => (g.chans p).trans (h.chans p)⟩

theorem SameButTiles.foldl {α : Type} {f : State → α → State} (hf : ∀ s a, SameButTiles s (f s a)) (l : List α) (s : State) : SameButTiles s (l.foldl f s) := by
  induction l generalizing s with
  | nil => exact SameButTiles.refl s
  | cons a l ih => rw [List.foldl_cons]; exact (hf s a).trans (ih _)

theorem coreAt_modCoreAt_ne (s : State) {p q : Nat} (f : Core → Core) (h : q ≠ p) : (s.modCoreAt p f).coreAt q = s.coreAt q := by
  unfold State.modCoreAt State.setCoreAt State.coreAt; dsimp only; rw [Tab.get_set_ne _ _ _ h]

theorem SameButTiles.core (s : State) (p : Nat) (f : Core → Core) (hf : ∀ k, (f k).chans = k.chans) : SameButTiles s (s.modCoreAt p f) := by
  refine ⟨rfl, rfl, rfl, rfl, rfl, rfl, rfl, rfl, fun q => ?_⟩
  by_cases h : q = p
  · subst h; rw [State.coreAt_modCoreAt, hf]
  · rw [coreAt_modCoreAt_ne _ _ h]

theorem SameButTiles.wr (s : State) (k : Nat) (bs : List Byte) : SameButTiles s (s.wr k bs) := ⟨rfl, rfl, rfl, rfl, rfl, rfl, rfl, rfl, fun _ => rfl⟩

theorem SameButTiles.copyIn (s : State) (p n ch lo hi : Nat) : SameButTiles s (s.tileCopyIn p n ch lo hi) := by
  unfold State.tileCopyIn
  dsimp only
  split
  · unfold State.zeroTile
    dsimp only
    refine (SameButTiles.core s p _ ?_).trans ((SameButTiles.wr _ _ _).trans (SameButTiles.wr _ _ _))
    exact fun _ => rfl
  · refine SameButTiles.core s p _ ?_
    exact fun _ => rfl

theorem foldTiles_chans (l : List Nat) : ∀ k : Core, (l.foldl (fun k n => k.setTile n (k.tile n).copyOut) k).chans = k.chans := by
  induction l with
  | nil => intro k; rfl
  | cons a l ih => intro k; rw [List.foldl_cons, ih]; rfl

/-- The record of a channel whose copy opens. -/
def openChan (c : Copy) (l : Option Nat) : Chan := match l with
  | some lo => ⟨some c.id, true, lo, lo + c.len, lo⟩
  | none => ⟨some c.id, false, 0, 0, 0⟩

theorem push_own (s : State) (ws : List Word) : s.push s.pid s.cx 2 ws = s.modCtx (fun c => { c with qs := Tab.set c.qs 2 (Tab.get [] s.ctx.qs 2 ++ ws) }) := rfl

theorem startCopy_ok {s : State} {c : Copy} {l : Option Nat} (h1 : (Tab.get Chan.reset s.core.chans c.ch).copy = none) (h2 : (s.queue s.pid s.cx 2).length < 16) :
    ∃ t o d, Act.startCopy c l s = .ok ((), t) ∧ t.copies = s.copies ++ [{ c with outs := o, drains := d }] ∧ t.nextCopy = s.nextCopy + 1
      ∧ t.ctxs = (s.push s.pid s.cx 2 [W (fld (s.ctx.pc - 4) 47 0)]).ctxs ∧ t.pid = s.pid ∧ t.cx = s.cx ∧ t.net.pkts = s.net.pkts ∧ t.net.nextReq = s.net.nextReq ∧ t.launches = s.launches
      ∧ t.core.chans = Tab.set s.core.chans c.ch (openChan c l) := by
  let s1 := s.push s.pid s.cx 2 [W (fld (s.ctx.pc - 4) 47 0)]
  let s2 := s1.modCore (fun k => { k with chans := Tab.set k.chans c.ch (openChan c l) })
  let into := match l with
    | some lo => s.core.tilesIn lo (lo + c.len)
    | none => []
  let from_ := match classOf c.src.toNat with
    | .spad off => s.core.tilesIn off (off + c.len)
    | _ => []
  let s3 := into.foldl (fun s n => s.tileCopyIn s2.pid n c.ch (l.getD 0) (l.getD 0 + c.len)) s2
  let outs := from_.filter (fun n => 2 ≤ (s3.core.tile n).state)
  let s4 := s3.modCore (fun k => outs.foldl (fun k n => k.setTile n (k.tile n).copyOut) k)
  have e2 : SameButTiles s2 s3 := SameButTiles.foldl (fun s n => SameButTiles.copyIn s _ n _ _ _) _ _
  have e3 : SameButTiles s3 s4 := SameButTiles.core s3 _ _ (foldTiles_chans _)
  have e := e2.trans e3
  have w1 : (Tab.get Chan.reset s.core.chans c.ch).copy.isSome = false := by rw [h1]; rfl
  have w2 : decide (16 ≤ (s.queue s.pid s.cx 2).length) = false := by rw [decide_eq_false_iff_not]; omega
  refine ⟨{ s4 with copies := s4.copies ++ [{ c with outs := outs, drains := into.filter (fun n => (s.core.tile n).state == 3) }], nextCopy := s4.nextCopy + 1 }, outs,
    into.filter (fun n => (s.core.tile n).state == 3), ?_, ?_, ?_, e.ctxs, e.pid, e.cx, e.pkts, e.nextReq, e.launches, ?_⟩
  · unfold Act.startCopy
    rw [Act.bind_ok (Act.get_apply _), w1, Act.bind_ok (Act.waitIf_false _ _), w2, Act.bind_ok (Act.waitIf_false _ _)]
    rfl
  · dsimp only; rw [e.copies]; rfl
  · dsimp only; rw [e.next]; rfl
  · show (s4.coreAt s4.pid).chans = _
    rw [e.pid, e.chans]
    show ((State.modCoreAt s1 s1.pid _).coreAt s1.pid).chans = _
    rw [State.coreAt_modCoreAt]; rfl

theorem queue2_issued (s : State) : (s.issued 4).queue (s.issued 4).pid (s.issued 4).cx 2 = s.queue s.pid s.cx 2 := by
  show Tab.get [] ((s.issued 4).ctx).qs 2 = Tab.get [] s.ctx.qs 2
  rw [State.ctx_issued]

theorem lidBad_issued (s : State) (n : Nat) : (s.issued 4).lidBad n = s.lidBad n := by
  unfold State.lidBad
  rw [State.issued_ident]

theorem newCopy_started (s : State) (ch : Nat) (x : Word) (n : Nat) (fx : Bool) (c : Copy) (o d : List Nat) (b : Option (Nat × Nat × Nat)) (it : List Item) (cp sb : Bool) (tg : Nat)
    (h : c = { (s.issued 4).newCopy ch x n fx with outs := o, drains := d, bar := b, items := it, cpym := cp, sub := sb, tag := tg }) : CopyStarted s c ch x n fx := by
  subst h
  exact ⟨rfl, ⟨rfl, rfl, State.issued_act s 4⟩, rfl, rfl, rfl, rfl, ⟨by show (s.issued 4).ctx.stat.sup = _; rw [State.issued_stat], by show (s.issued 4).ctx.space.ptroot = _; rw [State.issued_space]⟩, rfl, rfl, rfl⟩

/-- What the start of a copy gives once the instruction has issued. -/
theorem startCopy_issued {s : State} {c : Copy} {l : Option Nat} (hr : s.copyRoom c.ch) :
    ∃ t o d, Act.startCopy c l (s.issued 4) = .ok ((), t) ∧ CopyIssued s t { c with outs := o, drains := d } l
      ∧ t.net.pkts = s.net.pkts ∧ t.net.nextReq = s.net.nextReq ∧ t.launches = s.launches ∧ t.pid = s.pid ∧ t.cx = s.cx ∧ t.ctx.ident = s.ctx.ident ∧ t.ctx.act = s.ctx.act := by
  obtain ⟨t, o, d, e1, e2, e3, e4, e5, e6, e7, e8, e9, e10⟩ := startCopy_ok (s := s.issued 4) (c := c) (l := l) hr.1 (by rw [queue2_issued]; exact hr.2)
  have hpc : (s.issued 4).ctx.pc - 4 = s.ctx.pc := by
    rw [State.issued_pc]; exact BitVec.add_sub_cancel _ _
  have hctx : t.ctx = { (s.issued 4).ctx with qs := Tab.set (s.issued 4).ctx.qs 2 (Tab.get [] (s.issued 4).ctx.qs 2 ++ [W (fld s.ctx.pc 47 0)]) } := by
    unfold State.ctx State.ctxAt
    rw [e4, e5, e6, push_own, hpc]
    exact State.ctx_modCtx _ _
  refine ⟨t, o, d, e1, ⟨e2, e3, ?_, ?_, ?_, ?_, ?_, ?_⟩, e7, e8, e9, e5, e6, ?_, ?_⟩
  · show Tab.get [] (t.ctxAt s.pid s.cx).qs 2 = Tab.get [] s.ctx.qs 2 ++ _
    have : t.ctxAt s.pid s.cx = t.ctx := by unfold State.ctx; rw [e5, e6]; rfl
    rw [this, hctx]
    show Tab.get [] (Tab.set _ _ _) 2 = _
    rw [Tab.get_set_same, State.ctx_issued]
  · rw [e10]; exact Tab.get_set_same _ _ _ _
  · intro m hm; rw [e10, Tab.get_set_ne _ _ _ hm]; rfl
  · rw [hctx]; show (s.issued 4).ctx.regs = _; rw [State.ctx_issued]
  · rw [hctx]; exact State.issued_pc s 4
  · intro q x hq
    have : t.ctxAt q x = ((s.issued 4).push (s.issued 4).pid (s.issued 4).cx 2 [W (fld ((s.issued 4).ctx.pc - 4) 47 0)]).ctxAt q x := by unfold State.ctxAt; rw [e4]
    rw [this, push_own]
    exact (State.ctxAt_modCtxAt_ne _ _ hq).trans (State.ctxAt_modCtxAt_ne _ _ hq)
  · rw [hctx]; exact State.issued_ident s 4
  · rw [hctx]; exact State.issued_act s 4

theorem startCopy_wait {s : State} {c : Copy} {l : Option Nat} (hr : ¬ s.copyRoom c.ch) : Act.startCopy c l (s.issued 4) = .error (.wait .room) := by
  unfold Act.startCopy
  rw [Act.bind_ok (Act.get_apply _)]
  cases h : (Tab.get Chan.reset (s.issued 4).core.chans c.ch).copy.isSome with
  | true => rw [Act.bind_error (Act.waitIf_true _ _)]
  | false =>
    rw [Act.bind_ok (Act.waitIf_false _ _), queue2_issued]
    have : decide (16 ≤ (s.queue s.pid s.cx 2).length) = true := by
      rw [decide_eq_true_iff]
      by_cases e : (s.queue s.pid s.cx 2).length < 16
      · exact absurd ⟨by simpa using h, e⟩ hr
      · omega
    rw [this, Act.bind_error (Act.waitIf_true _ _)]

/-- The description of CPY and CPYB after its operands and checks. -/
def copyTail (bound : Bool) (d : Reg) (x y z : Word) (t : State) : Act Unit := do
  Act.startCopy { t.newCopy d.toNat x (fld z 23 0) (flag z 24) with
    bar := if bound then some (t.ctx.ident.launch.toNat, fld z 54 43, fld z 42 38) else none
    items := [Item.start 0 (copyPlace y z) (fld z 23 0)] } (copyLocal y z)
  if bound then Act.send (fld z 54 43) (.bar (fld z 42 38) (.credit (fld z 23 0))) else pure ()

theorem checkBad_eq (s : State) (bound : Bool) (z : Word) :
    (fld z 63 55 != 0 || badLen (fld z 23 0) || (!bound && fld z 54 38 != 0) || (!flag z 25 && fld z 37 26 != 0)
      || (flag z 25 && s.lidBad (fld z 37 26)) || (bound && s.lidBad (fld z 54 43)))
    = (decide (fld z 63 55 ≠ 0) || !lenOk (fld z 23 0) || (!bound && decide (fld z 54 38 ≠ 0)) || (!flag z 25 && decide (fld z 37 26 ≠ 0))
      || (flag z 25 && s.lidBad (fld z 37 26)) || (bound && s.lidBad (fld z 54 43))) := by
  rw [badLen_eq]
  have e : ∀ n : Nat, (n != 0) = decide (n ≠ 0) := by intro n; rw [Bool.eq_iff_iff]; simp
  rw [e, e, e]

theorem copyOp_eq {s : State} (hc : s.Clean) (sp : Bool) (d a b c : Reg) (bound : Bool) (x y z : Word) (hx : x = s.ctx.g a) (hy : y = s.ctx.g b) (hz : z = s.ctx.g c) :
    copyOp s sp d a b c bound = issue s sp 4 (fun _ => (Act.checks (copyChecks s bound d x y z) >>= fun _ => copyTail bound d x y z (s.issued 4)) (s.issued 4)) := by
  have h4 := hc.issued 4
  unfold copyOp issue
  have e0 : s.modCtx (fun c => { c with pc := c.pc + W 4, run := .runnable }) = s.issued 4 := rfl
  rw [e0]
  congr 2
  have key : ∀ t : State, (Act.checks (copyChecks t bound d x y z) >>= fun _ => copyTail bound d x y z (s.issued 4)) =
      (Act.check (decide (8 ≤ d.toNat)) (illegal (W d.toNat)) >>= fun _ => Act.check (fld z 63 55 != 0 || badLen (fld z 23 0) || (!bound && fld z 54 38 != 0) || (!flag z 25 && fld z 37 26 != 0)
          || (flag z 25 && t.lidBad (fld z 37 26)) || (bound && t.lidBad (fld z 54 43))) (illegal z) >>= fun _ =>
        Act.check (x.toNat % 64 != 0) (alignFault x) >>= fun _ => Act.check (y.toNat % 64 != 0) (alignFault y) >>= fun _ =>
        Act.copyRange x (fld z 23 0) >>= fun _ =>
        if flag z 25 then Act.check (decide (Config.spadBytes < y.toNat + fld z 23 0)) (illegal y) >>= fun _ => copyTail bound d x y z (s.issued 4)
        else Act.copyRange y (fld z 23 0) >>= fun _ => copyTail bound d x y z (s.issued 4)) := by
    intro t
    rw [checkBad_eq]
    have hb : ∀ n : Nat, (n != 0) = decide (n ≠ 0) := by intro n; rw [Bool.eq_iff_iff]; simp
    rw [hb, hb]
    unfold copyChecks
    cases hf : flag z 25 with
    | true =>
      simp only [if_true]
      rw [Act.check_one (decide (Config.spadBytes < y.toNat + fld z 23 0)), copyRange_eq x, Act.checks_append, Act.check_cons, Act.check_cons, Act.check_cons, Act.check_cons]
      rfl
    | false =>
      simp only [Bool.false_eq_true, if_false]
      rw [copyRange_eq y, copyRange_eq x, Act.checks_append, Act.check_cons, Act.check_cons, Act.check_cons, Act.check_cons]
      rfl
  have hl : copyChecks s bound d x y z = copyChecks (s.issued 4) bound d x y z := by
    unfold copyChecks; rw [lidBad_issued, lidBad_issued]
  rw [hl, key]
  by_cases h8 : 8 ≤ d.toNat
  · have e1 : Act.channel d (s.issued 4) = .error (.raise (illegal (W d.toNat))) := by
      unfold Act.channel; rw [decide_eq_true h8, Act.bind_error (Act.check_true _ _)]
    rw [Act.bind_error e1, decide_eq_true h8, Act.bind_error (Act.check_true _ _)]
  · have e1 : Act.channel d (s.issued 4) = .ok (d.toNat, s.issued 4) := by
      unfold Act.channel; rw [decide_eq_false h8, Act.bind_ok (Act.check_false _ _)]; rfl
    rw [Act.bind_ok e1, Act.bind_ok (Act.rdG_clean h4 a), Act.bind_ok (Act.rdG_clean h4 b), Act.bind_ok (Act.rdG_clean h4 c), State.issued_g, State.issued_g, State.issued_g, ← hx, ← hy, ← hz]
    rw [decide_eq_false h8, Act.bind_ok (Act.check_false _ _)]
    dsimp only
    rw [Act.bind_ok (Act.get_apply _)]
    unfold copyTail copyLocal copyPlace
    cases flag z 25 with
    | true => rfl
    | false =>
      cases classOf y.toNat <;> rfl

theorem send_free {s : State} {lid : Nat} {b : Body} (h : (s.resolve s.ctx.ident.launch.toNat lid).2 = false) :
    Act.send lid b s = .ok ((), s.modNet (fun n => { n with pkts := n.pkts ++ [s.packet (s.resolve s.ctx.ident.launch.toNat lid).1 b (some (s.ctx.ident.launch.toNat, lid))] })) := by
  unfold Act.send
  rw [Act.bind_ok (Act.get_apply _)]
  generalize s.resolve s.ctx.ident.launch.toNat lid = r at h ⊢
  obtain ⟨core, parked⟩ := r
  dsimp only at h ⊢
  subst h; rfl

theorem packet_eq {s t : State} (h1 : t.net.nextReq = s.net.nextReq) (h2 : t.pid = s.pid) (h3 : t.cx = s.cx) (h4 : t.ctx.act = s.ctx.act) (p : Nat) (b : Body) (o : Option (Nat × Nat)) :
    t.packet p b o = s.packet p b o := by
  unfold State.packet; rw [h1, h2, h3, h4]

theorem copy_done {s : State} (hc : s.Clean) (sp : Bool) (d a b c : Reg) (bound : Bool) (x y z : Word) (hx : x = s.ctx.g a) (hy : y = s.ctx.g b) (hz : z = s.ctx.g c)
    (hf : firstFault (copyChecks s bound d x y z) = none) (hr : s.copyRoom d.toNat) :
    ∃ t e, CopyIssued s t e (copyLocal y z) ∧ CopyStarted s e d.toNat x (fld z 23 0) (flag z 24) ∧ e.items = [Item.start 0 (copyPlace y z) (fld z 23 0)]
      ∧ e.bar = (if bound then some (s.ctx.ident.launch.toNat, fld z 54 43, fld z 42 38) else none)
      ∧ t.net.pkts = s.net.pkts ∧ t.net.nextReq = s.net.nextReq ∧ t.launches = s.launches ∧ t.pid = s.pid ∧ t.cx = s.cx ∧ t.ctx.ident = s.ctx.ident ∧ t.ctx.act = s.ctx.act
      ∧ copyOp s sp d a b c bound = issue s sp 4 (fun _ => (if bound then Act.send (fld z 54 43) (.bar (fld z 42 38) (.credit (fld z 23 0))) else pure () : Act Unit) t) := by
  obtain ⟨t, o, dr, e1, e2, r⟩ := startCopy_issued (s := s) (l := copyLocal y z) (c := { (s.issued 4).newCopy d.toNat x (fld z 23 0) (flag z 24) with
    bar := if bound then some ((s.issued 4).ctx.ident.launch.toNat, fld z 54 43, fld z 42 38) else none
    items := [Item.start 0 (copyPlace y z) (fld z 23 0)] }) hr
  refine ⟨t, _, e2, newCopy_started s _ _ _ _ _ _ _ _ _ _ _ _ rfl, rfl, ?_, r.1, r.2.1, r.2.2.1, r.2.2.2.1, r.2.2.2.2.1, r.2.2.2.2.2.1, r.2.2.2.2.2.2, ?_⟩
  · dsimp only; rw [State.issued_ident]
  · rw [copyOp_eq hc sp d a b c bound x y z hx hy hz, Act.checks_none hf]
    unfold copyTail
    rw [Act.bind_ok e1]

theorem copy_rules :
    ∀ (s : State) (sp : Bool) (d a b c : Reg), s.Clean → ∀ x y z, x = s.ctx.g a → y = s.ctx.g b → z = s.ctx.g c →
    (∀ r, firstFault (copyChecks s false d x y z) = some r → exec (.cpy sp d a b c) s = .next (s.raised r))
    ∧ (∀ r, firstFault (copyChecks s true d x y z) = some r → exec (.cpyb sp d a b c) s = .next (s.raised r))
    ∧ (firstFault (copyChecks s false d x y z) = none → ¬ s.copyRoom d.toNat → exec (.cpy sp d a b c) s = .next ((s.block .room sp).switch sp))
    ∧ (firstFault (copyChecks s true d x y z) = none → ¬ s.copyRoom d.toNat → exec (.cpyb sp d a b c) s = .next ((s.block .room sp).switch sp))
    ∧ (firstFault (copyChecks s false d x y z) = none → s.copyRoom d.toNat → ∃ t e, exec (.cpy sp d a b c) s = .next (t.switch sp)
        ∧ CopyIssued s t e (copyLocal y z) ∧ CopyStarted s e d.toNat x (fld z 23 0) (flag z 24) ∧ e.bar = none ∧ e.items = [Item.start 0 (copyPlace y z) (fld z 23 0)] ∧ t.net.pkts = s.net.pkts)
    -- CPYB also sends the credit of its barrier (15 R347)
    ∧ (firstFault (copyChecks s true d x y z) = none → s.copyRoom d.toNat → (s.resolve s.ctx.ident.launch.toNat (fld z 54 43)).2 = false →
        ∃ t e, exec (.cpyb sp d a b c) s = .next (t.switch sp)
        ∧ CopyIssued s t e (copyLocal y z) ∧ CopyStarted s e d.toNat x (fld z 23 0) (flag z 24)
        ∧ e.bar = some (s.ctx.ident.launch.toNat, fld z 54 43, fld z 42 38) ∧ e.items = [Item.start 0 (copyPlace y z) (fld z 23 0)]
        ∧ t.net.pkts = s.net.pkts ++ [s.packet (s.resolve s.ctx.ident.launch.toNat (fld z 54 43)).1 (.bar (fld z 42 38) (.credit (fld z 23 0)))
            (some (s.ctx.ident.launch.toNat, fld z 54 43))]) := by
  intro s sp d a b c hc x y z hx hy hz
  have hl : copyChecks s true d x y z = copyChecks s true d x y z := rfl
  have ec : exec (.cpy sp d a b c) s = copyOp s sp d a b c false := rfl
  have eb : exec (.cpyb sp d a b c) s = copyOp s sp d a b c true := rfl
  refine ⟨fun r h => ?_, fun r h => ?_, fun h hr => ?_, fun h hr => ?_, fun h hr => ?_, fun h hr hp => ?_⟩
  · rw [ec, copyOp_eq hc sp d a b c false x y z hx hy hz]
    exact issue_raise hc (Act.checks_some h _ _) (copyChecks_system h)
  · rw [eb, copyOp_eq hc sp d a b c true x y z hx hy hz]
    exact issue_raise hc (Act.checks_some h _ _) (copyChecks_system h)
  · rw [ec, copyOp_eq hc sp d a b c false x y z hx hy hz, Act.checks_none h]
    exact issue_wait (Act.bind_error (startCopy_wait hr))
  · rw [eb, copyOp_eq hc sp d a b c true x y z hx hy hz, Act.checks_none h]
    exact issue_wait (Act.bind_error (startCopy_wait hr))
  · obtain ⟨t, e, h1, h2, h3, h4, h5, h6, h7, h8, h9, h10, h11, h12⟩ := copy_done hc sp d a b c false x y z hx hy hz h hr
    refine ⟨t, e, ?_, h1, h2, h4, h3, h5⟩
    rw [ec, h12]
    exact issue_ok rfl
  · obtain ⟨t, e, h1, h2, h3, h4, h5, h6, h7, h8, h9, h10, h11, h12⟩ := copy_done hc sp d a b c true x y z hx hy hz h hr
    have hres : ∀ n m, t.resolve n m = s.resolve n m := by intro n m; unfold State.resolve State.launch?; rw [h7]
    refine ⟨t.modNet (fun n => { n with pkts := n.pkts ++ [t.packet (t.resolve t.ctx.ident.launch.toNat (fld z 54 43)).1 (.bar (fld z 42 38) (.credit (fld z 23 0)))
      (some (t.ctx.ident.launch.toNat, fld z 54 43))] }), e, ?_,
      ⟨h1.copies, h1.next, h1.q2, h1.chan, h1.others, h1.regs, h1.pc, h1.ctxs⟩, h2, h4, h3, ?_⟩
    · rw [eb, h12]
      refine issue_ok ?_
      rw [if_pos rfl]
      exact send_free (by rw [hres, h10]; exact hp)
    · show t.net.pkts ++ _ = _
      rw [h5, hres, h10, packet_eq h6 h8 h9 h11]

theorem subscribers_issued (s : State) (a b : Nat) : (s.issued 4).subscribers a b = s.subscribers a b := rfl

def cpymTail (d : Reg) (x y z : Word) (t : State) (cores : List (Nat × Nat)) : Act Unit := do
  Act.startCopy { t.newCopy d.toNat x (fld z 23 0) (flag z 24) with
      cpym := true, sub := flag z 25, tag := fld z 48 37
      bar := if flag z 26 then some (0, 0, fld z 31 27) else none
      items := cores.map (fun e => Item.start e.1 (.recv e.2 (fld z 36 32) y.toNat none) (fld z 23 0)) } none
  Act.upd (fun s => s.modNet (fun n => { n with pkts := n.pkts ++ ((List.range cores.length).zip cores).map (fun e => t.packet e.2.2 (.cpym (t.newCopy d.toNat x (fld z 23 0) (flag z 24)).id e.1) none) }))

theorem cpym_eq {s : State} (hc : s.Clean) (sp : Bool) (d a b c : Reg) (x y z : Word) (hx : x = s.ctx.g a) (hy : y = s.ctx.g b) (hz : z = s.ctx.g c) :
    execCpym sp d a b c s = issue s sp 4 (fun _ => (Act.checks (cpymChecks s d x y z) >>= fun _ => cpymTail d x y z (s.issued 4) (s.cpymCores z)) (s.issued 4)) := by
  have h4 := hc.issued 4
  unfold execCpym issue
  have e0 : s.modCtx (fun c => { c with pc := c.pc + W 4, run := .runnable }) = s.issued 4 := rfl
  rw [e0]
  congr 2
  have hb : ∀ n : Nat, (n != 0) = decide (n ≠ 0) := by intro n; rw [Bool.eq_iff_iff]; simp
  have key : (Act.checks (cpymChecks s d x y z) >>= fun _ => cpymTail d x y z (s.issued 4) (s.cpymCores z)) =
      (Act.check (decide (8 ≤ d.toNat)) (illegal (W d.toNat)) >>= fun _ => Act.check (flag z 25 && !s.ctx.stat.sup) privFault >>= fun _ =>
        Act.check (fld z 63 53 != 0 || badLen (fld z 23 0) || (if flag z 25 then fld z 52 49 != 0 else fld z 52 37 == 0
          || decide (12 < ((List.range 16).filter (bitOf (fld z 52 37))).length) || bitOf (fld z 52 37) (posInCluster s.pid))) (illegal z) >>= fun _ =>
        Act.check (x.toNat % 64 != 0) (alignFault x) >>= fun _ => Act.check (y.toNat % 64 != 0) (alignFault y) >>= fun _ =>
        Act.copyRange x (fld z 23 0) >>= fun _ => cpymTail d x y z (s.issued 4) (s.cpymCores z)) := by
    have hb2 : ∀ n : Nat, (n == 0) = decide (n = 0) := by intro n; rw [Bool.eq_iff_iff]; simp
    rw [badLen_eq, hb, hb, hb, hb, hb2, copyRange_eq x, Act.check_cons, Act.check_cons, Act.check_cons, Act.check_cons, Act.check_cons]
    rfl
  rw [key]
  by_cases h8 : 8 ≤ d.toNat
  · have e1 : Act.channel d (s.issued 4) = .error (.raise (illegal (W d.toNat))) := by
      unfold Act.channel; rw [decide_eq_true h8, Act.bind_error (Act.check_true _ _)]
    rw [Act.bind_error e1, decide_eq_true h8, Act.bind_error (Act.check_true _ _)]
  · have e1 : Act.channel d (s.issued 4) = .ok (d.toNat, s.issued 4) := by
      unfold Act.channel; rw [decide_eq_false h8, Act.bind_ok (Act.check_false _ _)]; rfl
    rw [Act.bind_ok e1, Act.bind_ok (Act.rdG_clean h4 a), Act.bind_ok (Act.rdG_clean h4 b), Act.bind_ok (Act.rdG_clean h4 c), State.issued_g, State.issued_g, State.issued_g, ← hx, ← hy, ← hz]
    rw [decide_eq_false h8, Act.bind_ok (Act.check_false _ _)]
    dsimp only
    rw [Act.bind_ok (Act.get_apply _), State.issued_stat]
    rfl

/-- CPYM, WMWAIT, SPLD and BANKOP (15 R348 to R352). -/
theorem multicast_rules :
    ∀ (s : State) (sp : Bool) (d a b c : Reg), s.Clean → ∀ x y z, x = s.ctx.g a → y = s.ctx.g b → z = s.ctx.g c →
    (∀ r, firstFault (cpymChecks s d x y z) = some r → exec (.cpym sp d a b c) s = .next (s.raised r))
    ∧ (firstFault (cpymChecks s d x y z) = none → ¬ s.copyRoom d.toNat → exec (.cpym sp d a b c) s = .next ((s.block .room sp).switch sp))
    -- each receiver is one item, and its header goes to the receiver at once; no range is held
    ∧ (firstFault (cpymChecks s d x y z) = none → s.copyRoom d.toNat → ∃ t e, exec (.cpym sp d a b c) s = .next (t.switch sp)
        ∧ CopyIssued s t e none ∧ CopyStarted s e d.toNat x (fld z 23 0) (flag z 24) ∧ e.cpym = true ∧ e.sub = flag z 25
        ∧ e.items = (s.cpymCores z).map (fun p => Item.start p.1 (.recv p.2 (fld z 36 32) y.toNat none) (fld z 23 0))
        ∧ e.bar = (if flag z 26 then some (0, 0, fld z 31 27) else none)
        ∧ t.net.pkts = s.net.pkts ++ ((List.range (s.cpymCores z).length).zip (s.cpymCores z)).map (fun p => s.packet p.2.2 (.cpym s.nextCopy p.1) none)) := by
  intro s sp d a b c hc x y z hx hy hz
  have ec : exec (.cpym sp d a b c) s = execCpym sp d a b c s := rfl
  refine ⟨fun r h => ?_, fun h hr => ?_, fun h hr => ?_⟩
  · rw [ec, cpym_eq hc sp d a b c x y z hx hy hz]
    exact issue_raise hc (Act.checks_some h _ _) (cpymChecks_system h)
  · rw [ec, cpym_eq hc sp d a b c x y z hx hy hz, Act.checks_none h]
    exact issue_wait (Act.bind_error (startCopy_wait hr))
  · obtain ⟨t, o, dr, e1, e2, r⟩ := startCopy_issued (s := s) (l := none) (c := { (s.issued 4).newCopy d.toNat x (fld z 23 0) (flag z 24) with
      cpym := true, sub := flag z 25, tag := fld z 48 37
      bar := if flag z 26 then some (0, 0, fld z 31 27) else none
      items := (s.cpymCores z).map (fun e => Item.start e.1 (.recv e.2 (fld z 36 32) y.toNat none) (fld z 23 0)) }) hr
    refine ⟨t.modNet (fun n => { n with pkts := n.pkts ++ ((List.range (s.cpymCores z).length).zip (s.cpymCores z)).map (fun e => s.packet e.2.2 (.cpym s.nextCopy e.1) none) }), _, ?_,
      ⟨e2.copies, e2.next, e2.q2, e2.chan, e2.others, e2.regs, e2.pc, e2.ctxs⟩, newCopy_started s _ _ _ _ _ _ _ _ _ _ _ _ rfl, rfl, rfl, rfl, rfl, ?_⟩
    · rw [ec, cpym_eq hc sp d a b c x y z hx hy hz, Act.checks_none h]
      refine issue_ok ?_
      unfold cpymTail
      rw [Act.bind_ok e1]
      have hp : ∀ p b o, (s.issued 4).packet p b o = s.packet p b o := fun p b o => packet_eq (s := s) (t := s.issued 4) rfl rfl rfl (State.issued_act s 4) p b o
      show Except.ok ((), _) = _
      simp only [hp]
      rfl
    · show t.net.pkts ++ _ = _
      rw [r.1]

end Sys2Proof.Machine
end

