-- ==== Sys2Proof/Laws/ChannelMarks.lean ====
section
/-! SUPPORT. WMWAIT, SPLD and BANKOP. -/

set_option Elab.async false

namespace Sys2Proof.Machine

theorem wmwait_rules {s : State} (hc : s.Clean) (sp : Bool) (d a b : Reg) (x : Word) (hx : x = s.ctx.g a) :
    (8 ≤ b.toNat → exec (.wmwait sp d a b) s = .next (s.raised { eff := 0x001, arg := W b.toNat }))
    ∧ (b.toNat < 8 → s.cx = 4 → exec (.wmwait sp d a b) s = .next (s.raised { eff := 0x001 }))
    ∧ (b.toNat < 8 → s.cx ≠ 4 → (∀ e v, s.ctx.run = .stalled (.wmEnd e v) → exec (.wmwait sp d a b) s = .next (s.afterG sp 4 d v))
      ∧ ((∀ e v, s.ctx.run ≠ .stalled (.wmEnd e v)) → ∀ ch, ch = Tab.get Chan.reset s.core.chans b.toNat →
        (ch.copy = none ∨ ch.ranged = false → exec (.wmwait sp d a b) s = .next (s.afterG sp 4 d 2))
        ∧ (ch.copy ≠ none → ch.ranged = true → x.toNat ≤ ch.mark → exec (.wmwait sp d a b) s = .next (s.afterG sp 4 d 0))
        ∧ (∀ n, ch.copy = some n → ch.ranged = true → ch.mark < x.toNat → exec (.wmwait sp d a b) s = .next ((s.block (.wmark b.toNat n x.toNat d) sp).switch sp)))) := by
  have h4 := hc.issued 4
  have hch : b.toNat < 8 → Act.channel b (s.issued 4) = .ok (b.toNat, s.issued 4) := by
    intro h
    unfold Act.channel; rw [decide_eq_false (by omega), Act.bind_ok (Act.check_false _ _)]; rfl
  have hsh : Act.inSH (s.issued 4) = .ok (s.cx == 4, s.issued 4) := rfl
  refine ⟨fun h => ?_, fun h h2 => ?_, fun h h2 => ?_⟩
  · apply issue_raise hc
    apply Act.bind_error
    unfold Act.channel; rw [decide_eq_true h, Act.bind_error (Act.check_true _ _)]; rfl
  · apply issue_raise hc
    rw [Act.bind_ok (hch h), Act.bind_ok hsh, h2]; rfl
  · have e4 : (s.cx == 4) = false := by simpa using h2
    refine ⟨fun e v hr => ?_, fun hr ch hch2 => ?_⟩
    · apply issue_after
      rw [Act.bind_ok (hch h), Act.bind_ok hsh, e4, Act.bind_ok (Act.check_false _ _), hr]
      exact Act.wrG_clean h4 _ _
    · have run : exec (.wmwait sp d a b) s = issue s sp 4 (fun _ => Act.markOf d a b.toNat (s.issued 4)) := by
        show issue s sp 4 _ = _
        unfold issue
        congr 2
        show (Act.channel b >>= _) (s.issued 4) = _
        rw [Act.bind_ok (hch h), Act.bind_ok hsh, e4, Act.bind_ok (Act.check_false _ _)]
        generalize s.ctx.run = rr at hr ⊢
        cases rr with
        | stalled w => cases w <;> first | rfl | exact absurd rfl (hr _ _)
        | _ => rfl
      have body : Act.markOf d a b.toNat (s.issued 4) = (match ch.copy with
          | some id =>
            if !ch.ranged then Act.wrG d 2
            else if x.toNat ≤ ch.mark then Act.wrG d 0
            else Act.wait (.wmark b.toNat id x.toNat d)
          | none => Act.wrG d 2) (s.issued 4) := by
        unfold Act.markOf
        rw [Act.bind_ok (Act.rdG_clean h4 a), Act.bind_ok (Act.interlock_clean h4 _), State.issued_g, ← hx]
        subst hch2; rfl
      refine ⟨fun hn => ?_, fun h1 h2 h3 => ?_, fun n h1 h2 h3 => ?_⟩
      · rw [run]
        apply issue_after
        rw [body]
        rcases hn with hn | hn
        · rw [hn]; exact Act.wrG_clean h4 _ _
        · rw [hn]; cases ch.copy <;> exact Act.wrG_clean h4 _ _
      · rw [run]
        apply issue_after
        rw [body, h2]
        cases hq : ch.copy with
        | none => exact absurd hq h1
        | some n =>
          dsimp only
          rw [if_neg (by decide), if_pos h3]; exact Act.wrG_clean h4 _ _
      · rw [run]
        apply issue_wait
        rw [body, h1, h2]
        dsimp only
        rw [if_neg (by decide), if_neg (by omega)]; rfl

theorem spld_rules {s : State} (hc : s.Clean) (sp : Bool) (a b c : Reg) (x y z : Word) (hx : x = s.ctx.g a) (hy : y = s.ctx.g b) (hz : z = s.ctx.g c) :
    (x.toNat % 64 ≠ 0 → exec (.spld sp a b c) s = .next (s.raised { eff := 0x003, addr := x }))
    ∧ (x.toNat % 64 = 0 → y.toNat % 64 ≠ 0 → exec (.spld sp a b c) s = .next (s.raised { eff := 0x003, addr := y }))
    ∧ (x.toNat % 64 = 0 → y.toNat % 64 = 0 →
      (¬ (z.toNat % 64 = 0 ∧ 64 ≤ z.toNat ∧ y.toNat + z.toNat ≤ 32768 ∧ x.toNat + z.toNat ≤ 0x180000) → exec (.spld sp a b c) s = .next (s.raised { eff := 0x001, arg := z }))
      ∧ (z.toNat % 64 = 0 → 64 ≤ z.toNat → y.toNat + z.toNat ≤ 32768 → x.toNat + z.toNat ≤ 0x180000 → s.marked s.pid x.toNat z.toNat = false →
          s.ownAlias (spadKey s.pid x.toNat) z.toNat = false → s.bad (spadKey s.pid x.toNat) z.toNat = false → s.noAcquire → s.ownReqs s.ctx.act = false → s.core.unit.mat.cmds = [] →
          exec (.spld sp a b c) s = .next (((s.issued 4).wr (sideKey s.pid y.toNat) (s.rd (spadKey s.pid x.toNat) z.toNat)).switch sp))) := by
  have h4 := hc.issued 4
  have nz : ∀ n : Nat, n ≠ 0 → (n != 0) = true := fun n h => by rw [bne_iff_ne]; exact h
  refine ⟨fun h => ?_, fun h h2 => ?_, fun h h2 => ⟨fun h3 => ?_, fun h3 h5 h6 h7 h8 h9 h10 hna hro h11 => ?_⟩⟩
  · apply issue_raise hc
    rw [Act.bind_ok (Act.rdG_clean h4 a), Act.bind_ok (Act.rdG_clean h4 b), Act.bind_ok (Act.rdG_clean h4 c), State.issued_g, State.issued_g, State.issued_g, ← hx, ← hy, ← hz]
    dsimp only
    rw [nz _ h, Act.bind_error (Act.check_true _ _)]; rfl
  · apply issue_raise hc
    rw [Act.bind_ok (Act.rdG_clean h4 a), Act.bind_ok (Act.rdG_clean h4 b), Act.bind_ok (Act.rdG_clean h4 c), State.issued_g, State.issued_g, State.issued_g, ← hx, ← hy, ← hz]
    dsimp only
    rw [h, show ((0 : Nat) != 0) = false from rfl, Act.bind_ok (Act.check_false _ _), nz _ h2, Act.bind_error (Act.check_true _ _)]; rfl
  · apply issue_raise hc
    have e : (z.toNat % 64 != 0 || decide (z.toNat < 64) || decide (32768 < z.toNat) || decide (32768 < y.toNat + z.toNat) || decide (Config.spadBytes < x.toNat + z.toNat)) = true := by
      apply eq_true_of_not; intro e; apply h3
      simp only [Bool.or_eq_false_iff, bne_eq_false_iff_eq, decide_eq_false_iff_not] at e
      obtain ⟨⟨⟨⟨e1, e2⟩, e3⟩, e4⟩, e5⟩ := e
      have e5 : ¬ 0x180000 < x.toNat + z.toNat := e5
      refine ⟨e1, by omega, by omega, by omega⟩
    rw [Act.bind_ok (Act.rdG_clean h4 a), Act.bind_ok (Act.rdG_clean h4 b), Act.bind_ok (Act.rdG_clean h4 c), State.issued_g, State.issued_g, State.issued_g, ← hx, ← hy, ← hz]
    dsimp only
    rw [h, h2, show ((0 : Nat) != 0) = false from rfl, Act.bind_ok (Act.check_false _ _), Act.bind_ok (Act.check_false _ _), e, Act.bind_error (Act.check_true _ _)]; rfl
  · apply issue_ok
    have e : (z.toNat % 64 != 0 || decide (z.toNat < 64) || decide (32768 < z.toNat) || decide (32768 < y.toNat + z.toNat) || decide (Config.spadBytes < x.toNat + z.toNat)) = false := by
      simp only [Bool.or_eq_false_iff, bne_eq_false_iff_eq, decide_eq_false_iff_not]
      refine ⟨⟨⟨⟨h3, by omega⟩, by omega⟩, by omega⟩, ?_⟩
      show ¬ 0x180000 < x.toNat + z.toNat
      omega
    have rs : Act.readSpad s.here x.toNat z.toNat (s.issued 4) = .ok (s.rd (spadKey s.pid x.toNat) z.toNat, s.issued 4) := by
      exact Act.readSpad_free (s := s.issued 4) ⟨h8, by unfold State.ownAlias; rw [State.issued_act]; exact h9, h10, State.noAcquire_issued hna 4⟩ _
    rw [Act.bind_ok (Act.rdG_clean h4 a), Act.bind_ok (Act.rdG_clean h4 b), Act.bind_ok (Act.rdG_clean h4 c), State.issued_g, State.issued_g, State.issued_g, ← hx, ← hy, ← hz]
    dsimp only
    rw [h, h2, show ((0 : Nat) != 0) = false from rfl, Act.bind_ok (Act.check_false _ _), Act.bind_ok (Act.check_false _ _), e, Act.bind_ok (Act.check_false _ _), Act.bind_ok (Act.drain_of ((ownReqs_issued s 4).trans hro)), Act.bind_ok rs]
    rw [Act.bind_ok (show Act.core (s.issued 4) = .ok (s.core, s.issued 4) from rfl), h11]; rfl

theorem bankop_rules {s : State} (hc : s.Clean) (sp : Bool) (a b c : Reg) (x z : Word) (hx : x = s.ctx.g a) (hz : z = s.ctx.g c)
    (hg : s.noAcquire) (v : VWord) (hv : v = s.ctx.regs.getV b) :
      (2 ^ 52 ≤ x.toNat ∨ x.toNat % 64 ≠ 0 → exec (.bankop sp a b c) s = .next (s.raised { eff := 0x003, addr := x }))
      ∧ (x.toNat < 2 ^ 52 → x.toNat % 64 = 0 → ¬ (bankWordOk z ∧ s.rowOf x ≠ none) → exec (.bankop sp a b c) s = .next (s.raised { eff := 0x001, arg := z }))
      ∧ (x.toNat < 2 ^ 52 → x.toNat % 64 = 0 → bankWordOk z → ∀ p off, s.rowOf x = some (p, off) → (p = s.pid → s.marked s.pid off 64 = false) → (s.bad (spadKey p off) 64 = true → exec (.bankop sp a b c) s = .next (s.raised (memErr s.ctx.pc x))) ∧ (s.bad (spadKey p off) 64 = false →
          (flag z 4 = true → 8 < (s.queue s.pid s.cx 10).length + s.fetching s.ctx.act → exec (.bankop sp a b c) s = .next ((s.block (.qFull 10) sp).switch sp))
          ∧ (flag z 4 = false ∨ (s.queue s.pid s.cx 10).length + s.fetching s.ctx.act ≤ 8 → s.rmwFree (.spad p off) 64 true → exec (.bankop sp a b c) s = .next (((s.issued 4).rmwSent (.spad p off) 64 (.bank (fld z 2 0) (fld z 8 6) (flag z 5) (flag z 4) (fld s.ctx.num.flagen 6 0) (fld z 31 16) v) true false s.ctx.pc x).switch sp)))) := by
  have h4 := hc.issued 4
  have hg4 : Act.gate (s.issued 4) = .ok ((), s.issued 4) := Act.gate_open (State.noAcquire_issued hg 4)
  have hrow : ∀ r, (match classOf x.toNat with
      | .spad off => some (s.pid, off)
      | .core p off => some (p, off)
      | _ => none) = r ↔ s.rowOf x = r := fun r => Iff.rfl
  have hV : (s.issued 4).ctx.regs.getV b = v := by rw [State.ctx_issued, hv]
  have hbad : (fld z 63 32 != 0 || fld z 15 9 != 0 || flag z 3 || decide (3 ≤ fld z 2 0) || decide (5 ≤ fld z 8 6) || (fld z 2 0 == 0 && (fld z 8 6 != 0 || flag z 5))
      || (fld z 2 0 == 2 && decide (256 ≤ fld z 31 16)) || (s.rowOf x).isNone) = false ↔ bankWordOk z ∧ s.rowOf x ≠ none := by
    unfold bankWordOk
    simp only [Bool.or_eq_false_iff, Bool.and_eq_false_iff, bne_eq_false_iff_eq, decide_eq_false_iff_not, beq_eq_false_iff_ne, and_assoc, Option.isNone_eq_false_iff, Option.isSome_iff_ne_none]
    constructor
    · rintro ⟨h1, h2, h3, h5, h6, h7, h8, h9⟩
      exact ⟨h1, h2, h3, by omega, by omega, fun e => h7.resolve_left (fun g => g e), fun e => by have := h8.resolve_left (fun g => g e); omega, h9⟩
    · rintro ⟨h1, h2, h3, h5, h6, h7, h8, h9⟩
      refine ⟨h1, h2, h3, by omega, by omega, ?_, ?_, h9⟩
      · by_cases e : fld z 2 0 = 0
        · exact .inr (h7 e)
        · exact .inl e
      · by_cases e : fld z 2 0 = 2
        · exact .inr (by have := h8 e; omega)
        · exact .inl e
  refine ⟨fun h => ?_, fun h h2 h3 => ?_, fun h h2 h3 p off h5 h6 => ?_⟩
  · apply issue_raise hc
    have e : (decide (2 ^ 52 ≤ x.toNat) || x.toNat % 64 != 0) = true := by rw [Bool.or_eq_true, decide_eq_true_iff, bne_iff_ne]; exact h
    rw [Act.bind_ok hg4, Act.bind_ok (Act.rdG_clean h4 a), Act.bind_ok (Act.rdV_clean h4 b), Act.bind_ok (Act.rdG_clean h4 c), State.issued_g, State.issued_g, ← hx, ← hz, hV]
    dsimp only
    rw [e, Act.bind_error (Act.check_true _ _)]; rfl
  · apply issue_raise hc
    have e : (decide (2 ^ 52 ≤ x.toNat) || x.toNat % 64 != 0) = false := by rw [Bool.or_eq_false_iff, decide_eq_false_iff_not, bne_eq_false_iff_eq]; omega
    rw [Act.bind_ok hg4, Act.bind_ok (Act.rdG_clean h4 a), Act.bind_ok (Act.rdV_clean h4 b), Act.bind_ok (Act.rdG_clean h4 c), State.issued_g, State.issued_g, ← hx, ← hz, hV]
    dsimp only
    rw [e, Act.bind_ok (Act.check_false _ _)]
    refine Act.bind_error ?_
    show Act.check (_ || (s.rowOf x).isNone) _ _ = _
    rw [eq_true_of_not (fun g => h3 (hbad.1 g)), Act.check_true]; rfl
  · have e : (decide (2 ^ 52 ≤ x.toNat) || x.toNat % 64 != 0) = false := by rw [Bool.or_eq_false_iff, decide_eq_false_iff_not, bne_eq_false_iff_eq]; omega
    have hq : (s.issued 4).queue (s.issued 4).pid (s.issued 4).cx 10 = s.queue s.pid s.cx 10 := by
      show Tab.get [] ((s.issued 4).ctx).qs 10 = Tab.get [] s.ctx.qs 10
      rw [State.ctx_issued]
    have hf : ∀ n, (s.issued 4).fetching n = s.fetching n := fun _ => rfl
    have hum : Act.unmarked [⟨.spad p off, 64⟩] (s.issued 4) = .ok ((), s.issued 4) := unmarked_free (fun q hq o ho => by
      rw [List.mem_singleton] at hq; subst hq
      obtain ⟨rfl, rfl⟩ : p = s.pid ∧ off = o := by simpa using ho
      exact h6 rfl)
    have run : exec (.bankop sp a b c) s = issue s sp 4 (fun _ => (do
        Act.check (s.bad (spadKey p off) 64) (memErr s.here x)
        Act.waitIf (flag z 4 && decide (8 < (s.queue s.pid s.cx 10).length + s.fetching s.ctx.act)) (.qFull 10)
        Act.rmw (.spad p off) 64 (.bank (fld z 2 0) (fld z 8 6) (flag z 5) (flag z 4) (fld s.ctx.num.flagen 6 0) (fld z 31 16) v) true false s.here x : Act Unit)
          (s.issued 4)) := by
      show issue s sp 4 _ = _
      unfold issue
      congr 2
      show (Act.gate >>= _) (s.issued 4) = _
      rw [Act.bind_ok hg4, Act.bind_ok (Act.rdG_clean h4 a), Act.bind_ok (Act.rdV_clean h4 b), Act.bind_ok (Act.rdG_clean h4 c), State.issued_g, State.issued_g, ← hx, ← hz, hV]
      dsimp only
      rw [e, Act.bind_ok (Act.check_false _ _)]
      show (Act.check (_ || (s.rowOf x).isNone) _ >>= fun _ => _) _ = _
      rw [hbad.2 ⟨h3, by rw [h5]; exact Option.some_ne_none _⟩, Act.bind_ok (Act.check_false _ _)]
      have h5' := h5
      unfold State.rowOf at h5'
      generalize classOf x.toNat = cl at h5' ⊢
      have hpo : ∀ (q : Nat × Nat), some q = some (p, off) → q.1 = p ∧ q.2 = off := by
        intro q hq; rw [Option.some.injEq] at hq; rw [hq]; exact ⟨rfl, rfl⟩
      cases cl with
      | hole => exact absurd h5' (by simp)
      | trans => exact absurd h5' (by simp)
      | spad o =>
        obtain ⟨rfl, rfl⟩ := hpo _ h5'
        dsimp only [Option.getD_some]
        rw [Act.bind_ok hum, Act.bind_ok (Act.get_apply _), hq, hf, State.issued_act, show (s.issued 4).ctx.num = s.ctx.num by rw [State.ctx_issued]]
        rfl
      | core q o =>
        obtain ⟨rfl, rfl⟩ := hpo _ h5'
        dsimp only [Option.getD_some]
        rw [Act.bind_ok hum, Act.bind_ok (Act.get_apply _), hq, hf, State.issued_act, show (s.issued 4).ctx.num = s.ctx.num by rw [State.ctx_issued]]
        rfl
    refine ⟨fun hb => ?_, fun hb => ⟨fun g1 g2 => ?_, fun g hr => ?_⟩⟩
    · rw [run]
      apply issue_raise hc
      rw [hb, Act.bind_error (Act.check_true _ _)]; rfl
    · rw [run]
      apply issue_wait
      rw [hb, Act.bind_ok (Act.check_false _ _), g1, decide_eq_true g2]; rfl
    · rw [run]
      apply issue_ok
      have : (flag z 4 && decide (8 < (s.queue s.pid s.cx 10).length + s.fetching s.ctx.act)) = false := by
        rw [Bool.and_eq_false_iff, decide_eq_false_iff_not]; exact g.imp id (fun e => by omega)
      rw [hb, Act.bind_ok (Act.check_false _ _), this, Act.bind_ok (Act.waitIf_false _ _)]
      exact Act.rmw_free (State.rmwFree_issued hr 4) _ _ _ _

/-- WMWAIT, SPLD and BANKOP (15 R350 to R352). -/
theorem marks_rules :
    ∀ (s : State) (sp : Bool) (d a b c : Reg), s.Clean → ∀ x y z, x = s.ctx.g a → y = s.ctx.g b → z = s.ctx.g c →
    -- WMWAIT on channel b
    (8 ≤ b.toNat → exec (.wmwait sp d a b) s = .next (s.raised { eff := 0x001, arg := W b.toNat }))
    ∧ (b.toNat < 8 → s.cx = 4 → exec (.wmwait sp d a b) s = .next (s.raised { eff := 0x001 }))
    ∧ (b.toNat < 8 → s.cx ≠ 4 → (∀ e v, s.ctx.run = .stalled (.wmEnd e v) → exec (.wmwait sp d a b) s = .next (s.afterG sp 4 d v))
      ∧ ((∀ e v, s.ctx.run ≠ .stalled (.wmEnd e v)) → ∀ ch, ch = Tab.get Chan.reset s.core.chans b.toNat →
        (ch.copy = none ∨ ch.ranged = false → exec (.wmwait sp d a b) s = .next (s.afterG sp 4 d 2))
        ∧ (ch.copy ≠ none → ch.ranged = true → x.toNat ≤ ch.mark → exec (.wmwait sp d a b) s = .next (s.afterG sp 4 d 0))
        ∧ (∀ n, ch.copy = some n → ch.ranged = true → ch.mark < x.toNat → exec (.wmwait sp d a b) s = .next ((s.block (.wmark b.toNat n x.toNat d) sp).switch sp))))
    -- SPLD
    ∧ (x.toNat % 64 ≠ 0 → exec (.spld sp a b c) s = .next (s.raised { eff := 0x003, addr := x }))
    ∧ (x.toNat % 64 = 0 → y.toNat % 64 ≠ 0 → exec (.spld sp a b c) s = .next (s.raised { eff := 0x003, addr := y }))
    ∧ (x.toNat % 64 = 0 → y.toNat % 64 = 0 →
      (¬ (z.toNat % 64 = 0 ∧ 64 ≤ z.toNat ∧ y.toNat + z.toNat ≤ 32768 ∧ x.toNat + z.toNat ≤ 0x180000) → exec (.spld sp a b c) s = .next (s.raised { eff := 0x001, arg := z }))
      ∧ (z.toNat % 64 = 0 → 64 ≤ z.toNat → y.toNat + z.toNat ≤ 32768 → x.toNat + z.toNat ≤ 0x180000 → s.marked s.pid x.toNat z.toNat = false →
          s.ownAlias (spadKey s.pid x.toNat) z.toNat = false → s.bad (spadKey s.pid x.toNat) z.toNat = false → s.noAcquire → s.ownReqs s.ctx.act = false → s.core.unit.mat.cmds = [] →
          exec (.spld sp a b c) s = .next (((s.issued 4).wr (sideKey s.pid y.toNat) (s.rd (spadKey s.pid x.toNat) z.toNat)).switch sp)))
    -- BANKOP
    ∧ (s.noAcquire → ∀ v : VWord, v = s.ctx.regs.getV b →
      (2 ^ 52 ≤ x.toNat ∨ x.toNat % 64 ≠ 0 → exec (.bankop sp a b c) s = .next (s.raised { eff := 0x003, addr := x }))
      ∧ (x.toNat < 2 ^ 52 → x.toNat % 64 = 0 → ¬ (bankWordOk z ∧ s.rowOf x ≠ none) → exec (.bankop sp a b c) s = .next (s.raised { eff := 0x001, arg := z }))
      ∧ (x.toNat < 2 ^ 52 → x.toNat % 64 = 0 → bankWordOk z → ∀ p off, s.rowOf x = some (p, off) → (p = s.pid → s.marked s.pid off 64 = false) → (s.bad (spadKey p off) 64 = true → exec (.bankop sp a b c) s = .next (s.raised (memErr s.ctx.pc x))) ∧ (s.bad (spadKey p off) 64 = false →
          (flag z 4 = true → 8 < (s.queue s.pid s.cx 10).length + s.fetching s.ctx.act → exec (.bankop sp a b c) s = .next ((s.block (.qFull 10) sp).switch sp))
          ∧ (flag z 4 = false ∨ (s.queue s.pid s.cx 10).length + s.fetching s.ctx.act ≤ 8 → s.rmwFree (.spad p off) 64 true → exec (.bankop sp a b c) s = .next (((s.issued 4).rmwSent (.spad p off) 64 (.bank (fld z 2 0) (fld z 8 6) (flag z 5) (flag z 4) (fld s.ctx.num.flagen 6 0) (fld z 31 16) v) true false s.ctx.pc x).switch sp))))) := by
  intro s sp d a b c hc x y z hx hy hz
  obtain ⟨w1, w2, w3⟩ := wmwait_rules hc sp d a b x hx
  obtain ⟨p1, p2, p3⟩ := spld_rules hc sp a b c x y z hx hy hz
  exact ⟨w1, w2, w3, p1, p2, p3, fun hg v hv => bankop_rules hc sp a b c x z hx hz hg v hv⟩

end Sys2Proof.Machine
end

