-- ==== Sys2Proof/Laws/MatrixCommands.lean ====
section
/-! SUPPORT. The matrix instructions: hurdles and push. -/

set_option Elab.async false

namespace Sys2Proof.Machine

def Act.hurdles (l : List (Bool × Hurdle)) : Act Unit := match firstHurdle l with
  | some (.wait w) => Act.wait w
  | some (.raise r) => Act.raise r
  | none => pure ()

theorem firstHurdle_append (l k : List (Bool × Hurdle)) : firstHurdle (l ++ k) = (firstHurdle l).or (firstHurdle k) := by
  unfold firstHurdle; rw [List.find?_append]; cases l.find? _ <;> rfl

theorem Act.hurdles_none {α : Type} {l : List (Bool × Hurdle)} (h : firstHurdle l = none) (m : Act α) (s : State) : (Act.hurdles l >>= fun _ => m) s = m s := by
  unfold Act.hurdles; rw [h]; rfl

theorem Act.hurdles_step {α : Type} {l k : List (Bool × Hurdle)} {m m' : Act α} {s : State} (h : m s = (Act.hurdles k >>= fun _ => m') s) :
    (Act.hurdles l >>= fun _ => m) s = (Act.hurdles (l ++ k) >>= fun _ => m') s := by
  cases hl : firstHurdle l with
  | none =>
    rw [Act.hurdles_none hl, h]
    unfold Act.hurdles
    rw [firstHurdle_append, hl]; rfl
  | some x =>
    unfold Act.hurdles
    rw [firstHurdle_append, hl]
    cases x <;> rfl

theorem Act.hurdles_start {α : Type} (m : Act α) (s : State) : m s = (Act.hurdles [] >>= fun _ => m) s := rfl

theorem Act.hurdles_same {α : Type} {l : List (Bool × Hurdle)} {m m' : Act α} {s : State} (h : m s = m' s) : (Act.hurdles l >>= fun _ => m) s = (Act.hurdles l >>= fun _ => m') s := by
  have := Act.hurdles_step (l := l) (k := []) (m := m) (m' := m') (s := s) h
  rwa [List.append_nil] at this

theorem Act.check_hurdle {α : Type} (b : Bool) (r : Raise) (f : Unit → Act α) (s : State) : (Act.check b r >>= f) s = (Act.hurdles [(b, .raise r)] >>= fun _ => f ()) s := by
  cases b <;> rfl

theorem Act.wait_hurdle {α : Type} (b : Bool) (w : Wait) (f : Unit → Act α) (s : State) : (Act.waitIf b w >>= f) s = (Act.hurdles [(b, .wait w)] >>= fun _ => f ()) s := by
  cases b <;> rfl

theorem Act.useTile_hurdle {α : Type} (n : Nat) (f : Tile → Act α) (s : State) :
    (Act.useTile n >>= f) s = (Act.hurdles (tileHurdles s.core n) >>= fun _ => f (s.core.tile n)) s := by
  have e : (Act.useTile n >>= f) s = (Act.waitIf ((s.core.tile n).state % 2 == 1) (.tile n) >>= fun _ =>
      Act.check ((s.core.tile n).state == 0) (illegal (W n)) >>= fun _ => f (s.core.tile n)) s := by
    show ((Act.waitIf ((s.core.tile n).state % 2 == 1) (.tile n) >>= fun _ => Act.check ((s.core.tile n).state == 0) (illegal (W n)) >>= fun _ =>
      (pure (s.core.tile n) : Act Tile)) >>= f) s = _
    generalize ((s.core.tile n).state % 2 == 1) = b1
    generalize ((s.core.tile n).state == 0) = b2
    cases b1 <;> cases b2 <;> rfl
  rw [e, Act.wait_hurdle, Act.hurdles_step (Act.check_hurdle _ _ _ s)]
  rfl

theorem Act.scaleTile_hurdle {α : Type} (t : Tile) (f : Option Tile → Act α) (s : State) :
    (Act.scaleTile t >>= f) s = (Act.hurdles (scaleHurdles s.core t) >>= fun _ => f (scaleOf s.core t)) s := by
  unfold Act.scaleTile scaleHurdles scaleOf
  cases t.scen with
  | false => rfl
  | true =>
    simp only [if_true]
    rw [← Act.useTile_hurdle t.scale (fun u => f (some u)), Act.bind_apply, Act.bind_apply, Act.bind_apply]
    cases Act.useTile t.scale s <;> rfl

theorem matCmd_issued (s : State) (k : Nat) (here : Word) (names : List Nat) (t : Nat) : (s.issued 4).matCmd k here names t = s.matCmd k here names t := by
  unfold State.matCmd; rw [State.ctx_issued]; rfl

theorem queue_issued (s : State) (n : Nat) : (s.issued 4).queue (s.issued 4).pid (s.issued 4).cx n = s.queue s.pid s.cx n := by
  unfold State.queue
  split
  · rfl
  · show Tab.get [] ((s.issued 4).ctx).qs n = Tab.get [] s.ctx.qs n
    rw [State.ctx_issued]

/-- Every effect among the hurdles is one of those that no ordering holds back (01 R24, 11 R291). -/
def sysAll (l : List (Bool × Hurdle)) : Bool := l.all (fun e => match e.2 with
  | .wait _ => true
  | .raise r => Eff.system r.eff)

theorem sysAll_append (l k : List (Bool × Hurdle)) : sysAll (l ++ k) = (sysAll l && sysAll k) := List.all_append
theorem sysAll_tile (k : Core) (n : Nat) : sysAll (tileHurdles k n) = true := rfl
theorem sysAll_fault (b : Bool) (n : Nat) : sysAll [tileFaultAt b n] = true := rfl
theorem sysAll_wait (b : Bool) (w : Wait) : sysAll [(b, .wait w)] = true := rfl
theorem sysAll_raise (b : Bool) (e : Nat) (x y : Word) : sysAll [(b, .raise { eff := e, arg := x, addr := y })] = (Eff.system e && true) := rfl
theorem sysAll_scale (k : Core) (t : Tile) : sysAll (scaleHurdles k t) = true := by
  unfold scaleHurdles; split <;> rfl
theorem sysAll_ite (p : Prop) [Decidable p] (l k : List (Bool × Hurdle)) (h1 : sysAll l = true) (h2 : sysAll k = true) : sysAll (if p then l else k) = true := by
  split <;> assumption
theorem sysAll_system {l : List (Bool × Hurdle)} {r : Raise} (hl : sysAll l = true) (h : firstHurdle l = some (.raise r)) : Eff.system r.eff = true := by
  unfold firstHurdle at h
  obtain ⟨⟨b, q⟩, he, rfl⟩ := Option.map_eq_some_iff.1 h
  exact List.all_eq_true.1 hl _ (List.mem_of_find?_eq_some he)

/-- From the hurdles of an instruction and the push of its command to what it does. -/
theorem pushesMat_of {s : State} {i : Instr} {sp : Bool} {hs : List (Bool × Hurdle)} {m : MCmd} {mode : Nat} {A : Act Unit} (hc : s.Clean) (hi : exec i s = issue s sp 4 A)
    (hA : A (s.issued 4) = (Act.hurdles hs >>= fun _ => Act.pushMatrix m mode) (s.issued 4)) (hm : m.iaddr = s.ctx.pc) (hsys : sysAll hs = true) : s.PushesMat i sp hs m (decide (mode = 5)) := by
  refine ⟨fun h hh => ?_, fun hn hq => ?_, fun hn hq => ?_⟩
  · rw [hi]
    cases h with
    | wait w => exact issue_wait (by rw [hA]; unfold Act.hurdles; rw [hh]; rfl)
    | raise r => exact issue_raise hc (by rw [hA]; unfold Act.hurdles; rw [hh]; rfl) (sysAll_system hsys hh)
  · rw [hi]
    apply issue_wait
    rw [hA, Act.hurdles_none hn]
    unfold Act.pushMatrix
    rw [Act.bind_ok (Act.get_apply _), queue_issued, decide_eq_true hq, Act.bind_error (Act.waitIf_true _ _)]
  · rw [hi]
    apply issue_ok
    rw [hA, Act.hurdles_none hn]
    unfold Act.pushMatrix
    rw [Act.bind_ok (Act.get_apply _), queue_issued, decide_eq_false (by omega), Act.bind_ok (Act.waitIf_false _ _), hm]
    unfold Act.tick State.pushedMat
    by_cases h5 : mode = 5
    · rw [if_pos h5, decide_eq_true h5]; rfl
    · rw [if_neg h5, decide_eq_false h5]; rfl

theorem matOp_hurdles {s : State} (hc : s.Clean) (sp sat az neg : Bool) (kind : Nat) (d a b c : Reg) (i : Instr) (hi : exec i s = matOp s sp sat az neg kind d a b c)
    (ta tb tc : Tile) (h1 : ta = s.core.tile a.toNat) (h2 : tb = s.core.tile b.toNat) (h3 : tc = s.core.tile d.toNat) :
      s.PushesMat i sp (matHurdles s.core (kind == 2) d.toNat a.toNat b.toNat (s.ctx.g c))
        { s.matCmd kind s.ctx.pc ([a.toNat, b.toNat, d.toNat] ++ ([ta, tb, tc].filter (fun t => t.scen)).map (fun t => t.scale)) d.toNat with
          ta := ta, tb := tb, tc := tc, scaleA := scaleOf s.core ta, scaleB := scaleOf s.core tb, gk := s.ctx.g c, sat := sat, az := az, neg := neg }
        (decide (tc.fmt ≠ 4 ∧ tc.rnd = 5)) := by
  have h4 := hc.issued 4
  have hm : decide (tc.fmt ≠ 4 ∧ tc.rnd = 5) = decide ((if tc.fmt = 4 then 0 else tc.rnd) = 5) := by
    by_cases h : tc.fmt = 4 <;> simp [h]
  rw [hm]
  refine pushesMat_of hc hi ?_ rfl (by simp only [matHurdles, sysAll_append, sysAll_tile, sysAll_fault, sysAll_scale, Bool.and_true]; rfl)
  rw [Act.bind_ok (Act.rdG_clean h4 c), State.issued_g]
  dsimp only
  subst h1 h2 h3
  rw [Act.check_hurdle]
  rw [Act.hurdles_step (Act.useTile_hurdle _ _ (s.issued 4)), Act.hurdles_step (Act.useTile_hurdle _ _ (s.issued 4)), Act.hurdles_step (Act.useTile_hurdle _ _ (s.issued 4)),
    Act.hurdles_step (Act.scaleTile_hurdle _ _ (s.issued 4)), Act.hurdles_step (Act.scaleTile_hurdle _ _ (s.issued 4)), Act.hurdles_step (Act.scaleTile_hurdle _ _ (s.issued 4))]
  unfold Act.tileFault
  rw [Act.hurdles_step (Act.check_hurdle _ _ _ (s.issued 4)), Act.hurdles_step (Act.check_hurdle _ _ _ (s.issued 4)), Act.hurdles_step (Act.check_hurdle _ _ _ (s.issued 4)), Act.hurdles_step (Act.check_hurdle _ _ _ (s.issued 4)),
    Act.hurdles_step (Act.check_hurdle _ _ _ (s.issued 4)), Act.hurdles_step (Act.check_hurdle _ _ _ (s.issued 4)), Act.hurdles_step (Act.check_hurdle _ _ _ (s.issued 4))]
  refine Act.hurdles_same ?_
  rw [Act.bind_ok (Act.get_apply _), matCmd_issued]
  rfl

theorem matrix_rules :
    ∀ (s : State) (sp sat az neg : Bool) (d a b c : Reg), s.Clean →
    (∀ e ∈ products sp sat az neg d a b c, ∀ ta tb tc, ta = s.core.tile a.toNat → tb = s.core.tile b.toNat → tc = s.core.tile d.toNat →
      s.PushesMat e.1 sp (matHurdles s.core (e.2 == 2) d.toNat a.toNat b.toNat (s.ctx.g c))
        { s.matCmd e.2 s.ctx.pc ([a.toNat, b.toNat, d.toNat] ++ ([ta, tb, tc].filter (fun t => t.scen)).map (fun t => t.scale)) d.toNat with
          ta := ta, tb := tb, tc := tc, scaleA := scaleOf s.core ta, scaleB := scaleOf s.core tb, gk := s.ctx.g c, sat := sat, az := az, neg := neg }
        (decide (tc.fmt ≠ 4 ∧ tc.rnd = 5)))
    ∧ s.PushesMat (.accrd sp d a b) sp (accrdHurdles s.core d.toNat a.toNat (s.ctx.g b))
        { s.matCmd 3 s.ctx.pc [a.toNat, d.toNat] a.toNat with
          ta := s.core.tile a.toNat, tc := s.core.tile d.toNat, gk := s.ctx.g b, sat := flag (s.ctx.g b) 0, az := flag (s.ctx.g b) 1 } (decide ((s.core.tile d.toNat).rnd = 5))
    ∧ s.PushesMat (.accz sp d) sp (acczHurdles s.core d.toNat) { s.matCmd 4 s.ctx.pc [d.toNat] d.toNat with tc := s.core.tile d.toNat } false
    ∧ s.PushesMat (.mscl sp d a b) sp (msclHurdles s.core d.toNat (s.ctx.g b))
        { s.matCmd 5 s.ctx.pc [d.toNat] d.toNat with tc := s.core.tile d.toNat, gk := s.ctx.g b, factor := s.ctx.g a, sat := flag (s.ctx.g b) 0 }
        (decide ((s.core.tile d.toNat).fmt ≠ 4 ∧ (s.core.tile d.toNat).rnd = 5)) := by
  intro s sp sat az neg d a b c hc
  have h4 := hc.issued 4
  refine ⟨fun e he ta tb tc h1 h2 h3 => ?_, ?_, ?_, ?_⟩
  · simp only [products, List.mem_cons, List.not_mem_nil, or_false] at he
    rcases he with rfl | rfl | rfl <;> exact matOp_hurdles hc sp sat az neg _ d a b c _ rfl ta tb tc h1 h2 h3
  · refine pushesMat_of hc rfl ?_ rfl rfl
    rw [Act.bind_ok (Act.rdG_clean h4 b), State.issued_g]
    rw [Act.check_hurdle, Act.hurdles_step (Act.useTile_hurdle _ _ (s.issued 4)), Act.hurdles_step (Act.useTile_hurdle _ _ (s.issued 4))]
    unfold Act.tileFault
    rw [Act.hurdles_step (Act.check_hurdle _ _ _ (s.issued 4)), Act.hurdles_step (Act.check_hurdle _ _ _ (s.issued 4)), Act.hurdles_step (Act.check_hurdle _ _ _ (s.issued 4))]
    refine Act.hurdles_same ?_
    rw [Act.bind_ok (Act.get_apply _), matCmd_issued]; rfl
  · refine pushesMat_of (mode := 0) hc rfl ?_ rfl rfl
    rw [Act.useTile_hurdle]
    unfold Act.tileFault
    rw [Act.hurdles_step (Act.check_hurdle _ _ _ (s.issued 4))]
    refine Act.hurdles_same ?_
    rw [Act.bind_ok (Act.get_apply _), matCmd_issued]; rfl
  · have hm : decide ((s.core.tile d.toNat).fmt ≠ 4 ∧ (s.core.tile d.toNat).rnd = 5) = decide ((if (s.core.tile d.toNat).fmt = 4 then 0 else (s.core.tile d.toNat).rnd) = 5) := by
      by_cases h : (s.core.tile d.toNat).fmt = 4 <;> simp [h]
    rw [hm]
    refine pushesMat_of hc rfl ?_ rfl rfl
    rw [Act.bind_ok (Act.rdG_clean h4 a), Act.bind_ok (Act.rdG_clean h4 b), State.issued_g, State.issued_g]
    rw [Act.check_hurdle, Act.hurdles_step (Act.useTile_hurdle _ _ (s.issued 4))]
    unfold Act.tileFault
    rw [Act.hurdles_step (Act.check_hurdle _ _ _ (s.issued 4))]
    refine Act.hurdles_same ?_
    rw [Act.bind_ok (Act.get_apply _), matCmd_issued]; rfl

end Sys2Proof.Machine
end

