-- ==== Sys2Proof/Laws/RankCommands.lean ====
section
/-! SUPPORT. RSORT, RKDENSE and RKGRAD: hurdles and push. -/

set_option Elab.async false

namespace Sys2Proof.Machine

theorem rankCmd_issued (s : State) (k : Nat) (here : Word) (names : List Nat) (t : Nat) : (s.issued 4).rankCmd k here names t = s.rankCmd k here names t := by
  unfold State.rankCmd; rw [State.ctx_issued]; rfl

theorem pushesRank_of {s : State} {i : Instr} {sp : Bool} {hs : List (Bool × Hurdle)} {m : RCmd} {mode : Nat} {A : Act Unit} (hc : s.Clean) (hi : exec i s = issue s sp 4 A)
    (hA : A (s.issued 4) = (Act.hurdles hs >>= fun _ => Act.pushRank m mode) (s.issued 4)) (hm : m.iaddr = s.ctx.pc) (hsys : sysAll hs = true) : s.PushesRank i sp hs m (decide (mode = 5)) := by
  refine ⟨fun h hh => ?_, fun hn hq => ?_, fun hn hq => ?_⟩
  · rw [hi]
    cases h with
    | wait w => exact issue_wait (by rw [hA]; unfold Act.hurdles; rw [hh]; rfl)
    | raise r => exact issue_raise hc (by rw [hA]; unfold Act.hurdles; rw [hh]; rfl) (sysAll_system hsys hh)
  · rw [hi]
    apply issue_wait
    rw [hA, Act.hurdles_none hn]
    unfold Act.pushRank
    rw [Act.bind_ok (Act.get_apply _), queue_issued, decide_eq_true hq, Act.bind_error (Act.waitIf_true _ _)]
  · rw [hi]
    apply issue_ok
    rw [hA, Act.hurdles_none hn]
    unfold Act.pushRank
    rw [Act.bind_ok (Act.get_apply _), queue_issued, decide_eq_false (by omega), Act.bind_ok (Act.waitIf_false _ _), hm]
    unfold Act.tick State.pushedRank
    by_cases h5 : mode = 5
    · rw [if_pos h5, decide_eq_true h5]; rfl
    · rw [if_neg h5, decide_eq_false h5]; rfl

theorem firstHurdle_map {α : Type} (l : List α) (f : α → Bool) (g : α → Nat) :
    firstHurdle (l.map (fun e => tileFaultAt (f e) (g e))) = (l.find? f).map (fun e => .raise { eff := 0x001, arg := W (g e) }) := by
  unfold firstHurdle
  induction l with
  | nil => rfl
  | cons e l ih =>
    rw [List.map_cons, List.find?_cons, List.find?_cons]
    show (match f e with | true => _ | false => _ : Option (Bool × Hurdle)).map _ = _
    cases hf : f e with
    | true => rfl
    | false => exact ih

theorem sysAll_backward (dst : List (Nat × Tile)) (p : Nat × Tile) (src : List (Nat × Tile)) : sysAll (backwardHurdles dst p src) = true := by
  unfold backwardHurdles
  dsimp only
  rw [sysAll_append, sysAll_fault, Bool.and_true]
  unfold sysAll
  rw [List.all_eq_true]
  intro e he
  obtain ⟨t, -, rfl⟩ := List.mem_map.1 he
  rfl

theorem backward_hurdle {α : Type} (s : State) (z : Word) (grad : Bool) (f : Unit → Act α) :
    (Act.backward z grad >>= f) s = (Act.hurdles [ill (backwardWord s grad z) z] >>= fun _ => f ()) s := by
  show (Act.check (backwardWord s grad z) (illegal z) >>= f) s = _
  exact Act.check_hurdle _ _ _ _

theorem backwardTiles_hurdle {α : Type} (dst : List (Nat × Tile)) (p : Nat × Tile) (src : List (Nat × Tile)) (f : Unit → Act α) (s : State) :
    (Act.backwardTiles dst p src >>= f) s = (Act.hurdles (backwardHurdles dst p src) >>= fun _ => f ()) s := by
  unfold backwardHurdles
  dsimp only
  unfold Act.hurdles
  rw [firstHurdle_append, firstHurdle_map (dst.take 1 ++ [p] ++ src ++ dst.drop 1) (fun e => e.2.fmt != (if e.1 = p.1 then 3 else 14) || (dst.any (fun f => f.1 == e.1) && badRnd e.2)) (fun e => e.1)]
  unfold Act.backwardTiles
  dsimp only
  cases h : (dst.take 1 ++ [p] ++ src ++ dst.drop 1).find? (fun e => e.2.fmt != (if e.1 = p.1 then 3 else 14) || (dst.any (fun f => f.1 == e.1) && badRnd e.2)) with
  | some e => rfl
  | none =>
    cases h2 : firstMeet (dst.take 1 ++ [p] ++ src ++ dst.drop 1) with
    | some n => rfl
    | none => rfl

theorem Act.pure_hurdle {α β : Type} (x : β) (f : β → Act α) (s : State) : ((pure x : Act β) >>= f) s = (Act.hurdles [] >>= fun _ => f x) s := rfl

/-- RSORT, RKDENSE and RKGRAD (17 R379, R393). -/
theorem rankPush_rules :
    ∀ (s : State) (sp : Bool) (d a b c : Reg), s.Clean → ∀ k z, k = s.core → z = s.ctx.g c →
    s.PushesRank (.rsort sp d a) sp (rsortHurdles k d.toNat a.toNat) { s.rankCmd 0 s.ctx.pc [a.toNat, d.toNat] d.toNat with t0 := k.tile d.toNat, t1 := k.tile a.toNat } false
    ∧ s.PushesRank (.rkdense sp d a c) sp
        ([ill (backwardWord s false z) z] ++ tileHurdles k d.toNat ++ tileHurdles k a.toNat ++ backwardHurdles [(d.toNat, k.tile d.toNat)] (a.toNat, k.tile a.toNat) [])
        { s.rankCmd 2 s.ctx.pc [d.toNat, a.toNat] d.toNat with t0 := k.tile d.toNat, t1 := k.tile a.toNat, desc := z } (decide ((k.tile d.toNat).rnd = 5))
    ∧ (∀ q dq, q = fld z 24 20 → dq = flag z 25 →
      s.PushesRank (.rkgrad sp d a b c) sp
        ([ill (backwardWord s true z) z] ++ tileHurdles k d.toNat ++ tileHurdles k a.toNat ++ tileHurdles k b.toNat ++ (if dq then tileHurdles k q else [])
          ++ backwardHurdles ((d.toNat, k.tile d.toNat) :: (if dq then [(q, k.tile q)] else [])) (a.toNat, k.tile a.toNat) [(b.toNat, k.tile b.toNat)])
        { s.rankCmd 3 s.ctx.pc ([d.toNat, a.toNat, b.toNat] ++ (if dq then [q] else [])) d.toNat with
          t0 := k.tile d.toNat, t1 := k.tile a.toNat, t2 := k.tile b.toNat, t3 := if dq then k.tile q else Tile.reset, desc := z }
        (decide ((if dq && (k.tile q).rnd == 5 then 5 else (k.tile d.toNat).rnd) = 5))) := by
  intro s sp d a b c hc k z hk hz
  have h4 := hc.issued 4
  subst hk
  refine ⟨?_, ?_, fun q dq hq hdq => ?_⟩
  · refine pushesRank_of (mode := 0) hc rfl ?_ rfl rfl
    rw [Act.useTile_hurdle, Act.hurdles_step (Act.useTile_hurdle _ _ (s.issued 4))]
    unfold Act.tileFault
    rw [Act.hurdles_step (Act.check_hurdle _ _ _ (s.issued 4)), Act.hurdles_step (Act.check_hurdle _ _ _ (s.issued 4)), Act.hurdles_step (Act.check_hurdle _ _ _ (s.issued 4))]
    refine Act.hurdles_same ?_
    rw [Act.bind_ok (Act.get_apply _), rankCmd_issued]; rfl
  · refine pushesRank_of hc rfl ?_ rfl rfl
    rw [Act.bind_ok (Act.rdG_clean h4 c), State.issued_g, ← hz, backward_hurdle, Act.hurdles_step (Act.useTile_hurdle _ _ (s.issued 4)), Act.hurdles_step (Act.useTile_hurdle _ _ (s.issued 4)),
      Act.hurdles_step (backwardTiles_hurdle _ _ _ _ (s.issued 4))]
    refine Act.hurdles_same ?_
    rw [Act.bind_ok (Act.get_apply _), rankCmd_issued]; rfl
  · refine pushesRank_of hc rfl ?_ rfl (by simp only [sysAll_append, sysAll_tile, sysAll_backward, Bool.and_true, Bool.true_and]; rw [sysAll_ite _ _ _ (sysAll_tile _ _) rfl]; rfl)
    rw [Act.bind_ok (Act.rdG_clean h4 c), State.issued_g, ← hz, backward_hurdle]
    dsimp only
    rw [Act.hurdles_step (Act.useTile_hurdle _ _ (s.issued 4)), Act.hurdles_step (Act.useTile_hurdle _ _ (s.issued 4)), Act.hurdles_step (Act.useTile_hurdle _ _ (s.issued 4))]
    subst hq hdq
    cases hdq : flag z 25 with
    | true =>
      simp only [if_true]
      rw [Act.hurdles_step (Act.useTile_hurdle _ _ (s.issued 4)), Act.hurdles_step (backwardTiles_hurdle _ _ _ _ (s.issued 4))]
      refine Act.hurdles_same ?_
      rw [Act.bind_ok (Act.get_apply _), rankCmd_issued]; rfl
    | false =>
      simp only [Bool.false_eq_true, if_false]
      rw [Act.hurdles_step (Act.pure_hurdle _ _ (s.issued 4)), Act.hurdles_step (backwardTiles_hurdle _ _ _ _ (s.issued 4))]
      refine Act.hurdles_same ?_
      rw [Act.bind_ok (Act.get_apply _), rankCmd_issued]; rfl

end Sys2Proof.Machine
end

