-- ==== Sys2Proof/Laws/RankControl.lean ====
section
/-! SUPPORT. REMIT, RKSEQ and the stream instructions. -/

set_option Elab.async false

namespace Sys2Proof.Machine

theorem readSpad_hurdle {α : Type} (s : State) (off n : Nat) (f : List Byte → Act α) :
    (Act.readSpad s.here off n >>= f) (s.issued 4) = (Act.hurdles (s.readHurdles off n) >>= fun _ => f (s.rd (spadKey s.pid off) n)) (s.issued 4) := by
  have ha : (s.issued 4).ownAlias (spadKey s.pid off) n = s.ownAlias (spadKey s.pid off) n := by unfold State.ownAlias; rw [State.issued_act]; rfl
  have hg : (s.issued 4).acquiring (s.issued 4).pid (s.issued 4).ctx.act = s.acquiring s.pid s.ctx.act := by
    rw [State.issued_act, State.issuedAt_pid, State.acquiring_issued]
  have e : (Act.readSpad s.here off n >>= f) (s.issued 4) = (Act.waitIf (s.acquiring s.pid s.ctx.act) .drain >>= fun _ =>
      Act.waitIf (s.marked s.pid off n) (.mark off) >>= fun _ => Act.waitIf (s.ownAlias (spadKey s.pid off) n) .drain >>= fun _ =>
      Act.check (s.bad (spadKey s.pid off) n) (memErr s.here (W off)) >>= fun _ => f (s.rd (spadKey s.pid off) n)) (s.issued 4) := by
    have hob : Act.ownBytes off n (s.issued 4) = if s.marked s.pid off n then .error (.wait (.mark off))
        else if s.ownAlias (spadKey s.pid off) n then .error (.wait .drain) else .ok ((), s.issued 4) := by rw [← ha]; rfl
    have hgt : Act.gate (s.issued 4) = if s.acquiring s.pid s.ctx.act then .error (.wait .drain) else .ok ((), s.issued 4) := by rw [← hg]; rfl
    have hbd : (s.issued 4).bad (spadKey s.pid off) n = s.bad (spadKey s.pid off) n := rfl
    unfold Act.readSpad
    rw [Act.bind_apply, Act.bind_apply, hgt]
    cases s.acquiring s.pid s.ctx.act with
    | true => rfl
    | false =>
      simp only [Bool.false_eq_true, if_false]
      rw [Act.bind_apply, hob]
      cases s.marked s.pid off n with
      | true => rfl
      | false =>
        cases s.ownAlias (spadKey s.pid off) n with
        | true => rfl
        | false =>
          simp only [Bool.false_eq_true, if_false]
          rw [Act.bind_apply, Act.get_apply]
          dsimp only
          rw [Act.bind_apply, Act.get_apply]
          dsimp only
          rw [State.issuedAt_pid, hbd]
          cases s.bad (spadKey s.pid off) n <;> rfl
  rw [e, Act.wait_hurdle, Act.hurdles_step (Act.wait_hurdle _ _ _ (s.issued 4)), Act.hurdles_step (Act.wait_hurdle _ _ _ (s.issued 4)), Act.hurdles_step (Act.check_hurdle _ _ _ (s.issued 4))]
  rfl

theorem sysAll_read (s : State) (off n : Nat) : sysAll (s.readHurdles off n) = true := rfl
theorem sysAll_ill (b : Bool) (x : Word) : sysAll [ill b x] = true := rfl
theorem sysAll_emit (s : State) (y z : Word) : sysAll (s.emitHurdles y z) = true := by
  unfold State.emitHurdles; split <;> rfl
theorem sysAll_stream (s : State) (n : Nat) (idle : Bool) : sysAll (s.streamHurdles n idle) = true := rfl
theorem sysAll_remit (s : State) (d a : Nat) (y z : Word) : sysAll (s.remitHurdles d a y z) = true := by
  unfold State.remitHurdles
  simp only [sysAll_append, sysAll_ill, sysAll_emit, sysAll_tile, sysAll_fault, sysAll_wait, Bool.and_true]
  split <;> rfl
theorem sysAll_seq (s : State) (x y : Word) : sysAll (s.seqHurdles x y) = true := rfl
theorem sysAll_arm (s : State) (d a : Nat) (y z : Word) : sysAll (s.armHurdles d a y z) = true := by
  unfold State.armHurdles
  simp only [sysAll_append, sysAll_ill, sysAll_tile, sysAll_fault, sysAll_wait, Bool.and_true]
  split <;> rfl

theorem Act.get_hurdle {α : Type} (f : State → Act α) (s : State) : ((get : Act State) >>= f) s = (Act.hurdles [] >>= fun _ => f s) s := rfl

theorem emit_hurdle {α : Type} (s : State) (y z : Word) (f : List Nat → Act α) :
    (Act.remitTargets s.here (flag y 42) z >>= f) (s.issued 4) = (Act.hurdles (s.emitHurdles y z) >>= fun _ => f (s.emitTargets y z)) (s.issued 4) := by
  unfold Act.remitTargets State.emitHurdles State.emitTargets
  cases flag y 42 with
  | true =>
    simp only [if_true]
    rw [bind_assoc, Act.check_hurdle]
    simp only [bind_assoc]
    rw [Act.hurdles_step (Act.check_hurdle _ _ _ (s.issued 4)), Act.hurdles_step (readSpad_hurdle s _ _ _), Act.hurdles_step (Act.check_hurdle _ _ _ (s.issued 4))]
    rw [Act.hurdles_step (Act.get_hurdle _ (s.issued 4)), List.append_nil]
    have hl : (s.issued 4).lidBad = s.lidBad := funext (lidBad_issued s)
    rw [Act.hurdles_step (Act.check_hurdle _ _ _ (s.issued 4)), hl]
    rfl
  | false =>
    simp only [Bool.false_eq_true, if_false]
    rw [bind_assoc, Act.bind_ok (Act.get_apply _), bind_assoc, Act.check_hurdle, lidBad_issued]
    rfl

/-- From the hurdles of an instruction to what it does. -/
theorem stopsAt_of {s : State} {i : Instr} {sp : Bool} {hs : List (Bool × Hurdle)} {A B : Act Unit} (hc : s.Clean) (hi : exec i s = issue s sp 4 A)
    (hA : A (s.issued 4) = (Act.hurdles hs >>= fun _ => B) (s.issued 4)) (hsys : sysAll hs = true) :
    (∀ h, firstHurdle hs = some h → exec i s = s.stopsAt sp h) ∧ (firstHurdle hs = none → exec i s = issue s sp 4 (fun _ => B (s.issued 4))) := by
  refine ⟨fun h hh => ?_, fun hn => ?_⟩
  · rw [hi]
    cases h with
    | wait w => exact issue_wait (by rw [hA]; unfold Act.hurdles; rw [hh]; rfl)
    | raise r => exact issue_raise hc (by rw [hA]; unfold Act.hurdles; rw [hh]; rfl) (sysAll_system hsys hh)
  · rw [hi]
    rw [Act.hurdles_none hn] at hA
    unfold State.issued at hA
    unfold issue
    rw [hA]; rfl

/-- The body of a REMIT after its hurdles. -/
def remitTail (m : RCmd) (launch id : Nat) (places : List (Nat × Nat × Bool)) : Act Unit := do
  Act.pushRank m 0
  Act.upd (fun u => u.modNet (fun n => { n with
      pkts := n.pkts ++ (places.filter (fun e => !e.2.2)).map (fun e => u.packet e.2.1 (.hold id) (some (launch, e.1)))
      held := n.held ++ (places.filter (fun e => e.2.2)).map (fun e => ⟨launch, e.1, u.packet e.2.1 (.hold id) (some (launch, e.1))⟩) }))

theorem remit_hurdles {s : State} (hc : s.Clean) (sp : Bool) (d a b c : Reg) (y z : Word) (hy : y = s.ctx.g b) (hz : z = s.ctx.g c) :
    (∀ h, firstHurdle (s.remitHurdles d.toNat a.toNat y z) = some h → exec (.remit sp d a b c) s = s.stopsAt sp h)
    ∧ (firstHurdle (s.remitHurdles d.toNat a.toNat y z) = none → exec (.remit sp d a b c) s = issue s sp 4 (fun _ => remitTail
        { s.rankCmd 1 s.ctx.pc (d.toNat :: (if flag y 43 then [a.toNat] else [])) d.toNat with
          t0 := s.core.tile d.toNat, t1 := if flag y 43 then s.core.tile a.toNat else Tile.reset, desc := y, targets := s.emitTargets y z } s.ctx.ident.launch.toNat s.net.nextReq
        ((s.emitTargets y z).map (fun n => (n, s.resolve s.ctx.ident.launch.toNat n))) (s.issued 4))) := by
  have h4 := hc.issued 4
  refine stopsAt_of hc rfl ?_ (sysAll_remit _ _ _ _ _)
  rw [Act.bind_ok (Act.rdG_clean h4 b), Act.bind_ok (Act.rdG_clean h4 c), State.issued_g, State.issued_g, ← hy, ← hz]
  dsimp only
  rw [Act.check_hurdle, Act.hurdles_step (emit_hurdle s y z _), Act.hurdles_step (Act.useTile_hurdle _ _ (s.issued 4))]
  have thr : ∀ (f : Tile → Act Unit), ((if flag y 43 then Act.useTile a.toNat else pure Tile.reset) >>= f) (s.issued 4) =
      (Act.hurdles (if flag y 43 then tileHurdles s.core a.toNat else []) >>= fun _ => f (if flag y 43 then s.core.tile a.toNat else Tile.reset)) (s.issued 4) := by
    intro f
    cases flag y 43 with
    | true => exact Act.useTile_hurdle _ _ _
    | false => rfl
  have hthr : ∀ (l : List (Bool × Hurdle)) (f : Tile → Act Unit), (Act.hurdles l >>= fun _ => (if flag y 43 = true then (do let ts ← Act.useTile a.toNat; f ts) else (do let ts ← (pure Tile.reset : Act Tile); f ts))) (s.issued 4) =
      (Act.hurdles (l ++ if flag y 43 then tileHurdles s.core a.toNat else []) >>= fun _ => f (if flag y 43 then s.core.tile a.toNat else Tile.reset)) (s.issued 4) := by
    intro l f
    refine Act.hurdles_step ?_
    rw [← thr]
    cases flag y 43 <;> rfl
  unfold Act.tileFault
  have e1 := fun (f : Tile → Act Unit) => hthr ([(fld y 41 32 != 0 || decide (4096 < fld y 63 51) || (flag y 43 && (flag y 31 || fld y 30 23 == 255)) || (!flag y 43 && fld y 31 0 != 0), .raise (illegal y))] ++ s.emitHurdles y z ++ tileHurdles s.core d.toNat) f
  refine (e1 _).trans ?_
  rw [Act.hurdles_step (Act.check_hurdle _ _ _ (s.issued 4)), Act.hurdles_step (Act.check_hurdle _ _ _ (s.issued 4)), Act.hurdles_step (Act.get_hurdle _ (s.issued 4)), List.append_nil,
    Act.hurdles_step (Act.wait_hurdle _ _ _ (s.issued 4))]
  have hl : ((s.issued 4).rankCmd 1 s.here (d.toNat :: (if flag y 43 then [a.toNat] else [])) d.toNat).launch = s.ctx.ident.launch.toNat := by
    rw [rankCmd_issued]; rfl
  rw [hl]
  have hid : ((s.issued 4).rankCmd 1 s.here (d.toNat :: (if flag y 43 then [a.toNat] else [])) d.toNat).id = s.net.nextReq := rfl
  rw [hid, rankCmd_issued]
  rfl

theorem remit_rules {s : State} (hc : s.Clean) (sp : Bool) (d a b c : Reg) (y z : Word) (hy : y = s.ctx.g b) (hz : z = s.ctx.g c) :
    ∀ m, m = { s.rankCmd 1 s.ctx.pc (d.toNat :: (if flag y 43 then [a.toNat] else [])) d.toNat with
          t0 := s.core.tile d.toNat, t1 := if flag y 43 then s.core.tile a.toNat else Tile.reset, desc := y, targets := s.emitTargets y z } →
      ∀ places, places = (s.emitTargets y z).map (fun n => (n, s.resolve s.ctx.ident.launch.toNat n)) →
      (∀ h, firstHurdle (s.remitHurdles d.toNat a.toNat y z) = some h → exec (.remit sp d a b c) s = s.stopsAt sp h)
      ∧ (firstHurdle (s.remitHurdles d.toNat a.toNat y z) = none → 16 ≤ (s.queue s.pid s.cx 4).length → exec (.remit sp d a b c) s = .next ((s.block .room sp).switch sp))
      ∧ (firstHurdle (s.remitHurdles d.toNat a.toNat y z) = none → (s.queue s.pid s.cx 4).length < 16 →
          exec (.remit sp d a b c) s = .next (((s.pushedRank m false).modNet (fun n => { n with
            pkts := n.pkts ++ (places.filter (fun e => !e.2.2)).map (fun e => { s.packet e.2.1 (.hold m.id) (some (m.launch, e.1)) with after := s.net.nextReq + 1 })
            held := n.held ++ (places.filter (fun e => e.2.2)).map (fun e => ⟨m.launch, e.1, { s.packet e.2.1 (.hold m.id) (some (m.launch, e.1)) with after := s.net.nextReq + 1 }⟩) })).switch sp)) := by
  intro m hm places hp
  subst hm hp
  obtain ⟨r1, r2⟩ := remit_hurdles hc sp d a b c y z hy hz
  refine ⟨r1, fun h hq => ?_, fun h hq => ?_⟩
  · rw [r2 h]
    apply issue_wait
    unfold remitTail Act.pushRank
    apply Act.bind_error
    rw [Act.bind_ok (Act.get_apply _), queue_issued, decide_eq_true hq, Act.bind_error (Act.waitIf_true _ _)]
  · rw [r2 h]
    apply issue_ok
    have e : Act.pushRank { s.rankCmd 1 s.ctx.pc (d.toNat :: (if flag y 43 then [a.toNat] else [])) d.toNat with
          t0 := s.core.tile d.toNat, t1 := if flag y 43 then s.core.tile a.toNat else Tile.reset, desc := y, targets := s.emitTargets y z } 0 (s.issued 4) =
        .ok ((), s.pushedRank { s.rankCmd 1 s.ctx.pc (d.toNat :: (if flag y 43 then [a.toNat] else [])) d.toNat with
          t0 := s.core.tile d.toNat, t1 := if flag y 43 then s.core.tile a.toNat else Tile.reset, desc := y, targets := s.emitTargets y z } false) := by
      unfold Act.pushRank
      rw [Act.bind_ok (Act.get_apply _), queue_issued, decide_eq_false (by omega), Act.bind_ok (Act.waitIf_false _ _)]
      rfl
    unfold remitTail
    rw [Act.bind_ok e]
    generalize hw : s.pushedRank _ false = w
    have w1 : w.net.nextReq = s.net.nextReq + 1 := by rw [← hw]; rfl
    have w2 : w.pid = s.pid := by rw [← hw]; rfl
    have w3 : w.cx = s.cx := by rw [← hw]; rfl
    have w4 : w.ctx.act = s.ctx.act := by
      rw [← hw]
      show (((s.issued 4).push s.pid s.cx 4 _).ctx).act = _
      have : (s.issued 4).push s.pid s.cx 4 [W (fld s.ctx.pc 47 0)] = (s.issued 4).modCtx (fun c => { c with qs := Tab.set c.qs 4 (Tab.get [] (s.issued 4).ctx.qs 4 ++ [W (fld s.ctx.pc 47 0)]) }) := rfl
      rw [this, State.ctx_modCtx]
      exact State.issued_act s 4
    have hpk : ∀ p b o, w.packet p b o = { s.packet p b o with after := s.net.nextReq + 1 } := by
      intro p b o; unfold State.packet; rw [w1, w2, w3, w4]
    show Except.ok ((), _) = _
    simp only [hpk]
    rfl

theorem rkseq_rules {s : State} (hc : s.Clean) (sp : Bool) (a b : Reg) (x y : Word) (hx : x = s.ctx.g a) (hy : y = s.ctx.g b) :
    (∀ h, firstHurdle (s.seqHurdles x y) = some h → exec (.rkseq sp a b) s = s.stopsAt sp h)
    ∧ (firstHurdle (s.seqHurdles x y) = none → exec (.rkseq sp a b) s = .next (((s.issued 4).modRank s.pid (fun u => { u with
        seqs := Tab.set u.seqs y.toNat ⟨(s.fields x.toNat 2 32).getD 1 0 == 1, s.fields (x.toNat + 64) 2 ((s.fields x.toNat 2 32).headD 0)⟩ })).switch sp)) := by
  have h4 := hc.issued 4
  obtain ⟨r1, r2⟩ := stopsAt_of (i := .rkseq sp a b) (hs := s.seqHurdles x y) (sp := sp) (A := _) (B := Act.upd (fun t => t.modRank t.pid (fun u => { u with
        seqs := Tab.set u.seqs y.toNat ⟨(s.fields x.toNat 2 32).getD 1 0 == 1, s.fields (x.toNat + 64) 2 ((s.fields x.toNat 2 32).headD 0)⟩ }))) hc rfl (by
    rw [Act.bind_ok (Act.rdG_clean h4 a), Act.bind_ok (Act.rdG_clean h4 b), State.issued_g, State.issued_g, ← hx, ← hy]
    dsimp only
    rw [Act.bind_ok (Act.get_apply _), Act.check_hurdle, Act.hurdles_step (Act.check_hurdle _ _ _ (s.issued 4)), Act.hurdles_step (Act.check_hurdle _ _ _ (s.issued 4)),
      Act.hurdles_step (readSpad_hurdle s _ _ _), Act.hurdles_step (Act.check_hurdle _ _ _ (s.issued 4)), Act.hurdles_step (readSpad_hurdle s _ _ _),
      Act.hurdles_step (Act.check_hurdle _ _ _ (s.issued 4)), Act.hurdles_step (Act.wait_hurdle _ _ _ (s.issued 4))]
    rfl) (sysAll_seq _ _ _)
  exact ⟨r1, fun h => by rw [r2 h]; exact issue_ok rfl⟩

theorem Act.streamNumber_hurdle {α : Type} (n : Reg) (f : Nat → Act α) (s : State) : (Act.streamNumber n >>= f) s = (Act.hurdles [ill (decide (4 ≤ n.toNat)) (W n.toNat)] >>= fun _ => f n.toNat) s := by
  unfold Act.streamNumber
  rw [bind_assoc, Act.check_hurdle]; rfl

theorem Act.liveStream_hurdle {α : Type} (n : Nat) (idle : Bool) (f : Strm → Act α) (s : State) :
    (Act.liveStream n idle >>= f) s = (Act.hurdles [ill ((s.stream s.pid n).state == 3 || (idle && (s.stream s.pid n).state == 0)) (W n)] >>= fun _ => f (s.stream s.pid n)) s := by
  unfold Act.liveStream
  rw [bind_assoc, Act.bind_ok (Act.get_apply _), bind_assoc, Act.check_hurdle]; rfl

def rkresTail (here : Word) (sp : Bool) (d : Reg) (n : Nat) (t : Strm) : Act Unit := do
    Act.interlock (.g d)
    let u := { t with disc := t.disc + t.queue.length, queue := [] }
    let k ← Act.core
    if !t.results.isEmpty || 14 < (Tab.get [] k.qs (5 + n)).length then do
      Act.upd (fun s => s.setStream s.pid n { u with state := 2 })
      Act.await here sp .room
    else do
      Act.upd (fun s => s.push s.pid s.cx (5 + n) [u.word0 3, u.word1])
      Act.upd (fun s => s.setStream s.pid n { u with
        state := 1, owner := s.ctx.act, sums := u.sums.map (fun _ => 0), pos := 0, disc := 0, ovl := false, seen := []
        did := [], round := 0 })
      Act.wrG d (W u.disc)

theorem rkarm_rules {s : State} (hc : s.Clean) (sp : Bool) (d a b c : Reg) (y z : Word) (hy : y = s.ctx.g b) (hz : z = s.ctx.g c) :
    (∀ h, firstHurdle (s.armHurdles d.toNat a.toNat y z) = some h → exec (.rkarm sp d a b c) s = s.stopsAt sp h)
    ∧ (firstHurdle (s.armHurdles d.toNat a.toNat y z) = none → ∀ l, s.launchOf s.pid s.cx = some l → ∀ tw, tw = s.core.tile a.toNat →
        exec (.rkarm sp d a b c) s = .next (((s.issued 4).setStream s.pid d.toNat { Strm.reset with
          state := 1, owner := s.ctx.act, tw := tw, rect := if flag y 9 then some (s.core.tile (fld y 14 10)) else none, ovb := fld y 52 32, stop := fld y 8 7
          free := flag y 6, seq := fld y 5 4, np := fld y 3 0 + 1, margin := fld z 46 0, wmax := s.weightMax s.pid tw, det := l.det
          sums := List.replicate tw.rows 0, drops := (s.stream s.pid d.toNat).drops, results := (s.stream s.pid d.toNat).results }).switch sp)) := by
  have h4 := hc.issued 4
  have rect : ∀ (f : Option Tile → Act Unit), ((if flag y 9 then (do return some (← Act.useTile (fld y 14 10))) else pure none) >>= f) (s.issued 4) =
      (Act.hurdles (if flag y 9 then tileHurdles s.core (fld y 14 10) else []) >>= fun _ => f (if flag y 9 then some (s.core.tile (fld y 14 10)) else none)) (s.issued 4) := by
    intro f
    cases flag y 9 with
    | true =>
      simp only [if_true]
      rw [bind_assoc]
      exact Act.useTile_hurdle (fld y 14 10) (fun u => f (some u)) (s.issued 4)
    | false => rfl
  have hrect : ∀ (l : List (Bool × Hurdle)) (f : Option Tile → Act Unit), (Act.hurdles l >>= fun _ => (if flag y 9 = true then (do let tr ← (do return some (← Act.useTile (fld y 14 10))); f tr) else (do let tr ← (pure none : Act (Option Tile)); f tr))) (s.issued 4) =
      (Act.hurdles (l ++ if flag y 9 then tileHurdles s.core (fld y 14 10) else []) >>= fun _ => f (if flag y 9 then some (s.core.tile (fld y 14 10)) else none)) (s.issued 4) := by
    intro l f
    refine Act.hurdles_step ?_
    rw [← rect]
    cases flag y 9 with
    | true => rfl
    | false => rfl
  obtain ⟨r1, r2⟩ := stopsAt_of (i := .rkarm sp d a b c) (hs := s.armHurdles d.toNat a.toNat y z) (sp := sp) (A := _) (B := do
    let l ← Act.launch
    Act.upd (fun t => t.setStream t.pid d.toNat { Strm.reset with
      state := 1, owner := t.ctx.act, tw := s.core.tile a.toNat, rect := if flag y 9 then some (s.core.tile (fld y 14 10)) else none, ovb := fld y 52 32, stop := fld y 8 7, free := flag y 6, seq := fld y 5 4
      np := fld y 3 0 + 1, margin := fld z 46 0, wmax := t.weightMax t.pid (s.core.tile a.toNat), det := l.det
      sums := List.replicate (s.core.tile a.toNat).rows 0, drops := (s.stream s.pid d.toNat).drops, results := (s.stream s.pid d.toNat).results })) hc rfl (by
    rw [Act.bind_ok (Act.rdG_clean h4 b), Act.bind_ok (Act.rdG_clean h4 c), State.issued_g, State.issued_g, ← hy, ← hz, Act.streamNumber_hurdle]
    dsimp only
    rw [Act.hurdles_step (Act.get_hurdle _ (s.issued 4)), List.append_nil, Act.hurdles_step (Act.check_hurdle _ _ _ (s.issued 4)), Act.hurdles_step (Act.check_hurdle _ _ _ (s.issued 4)),
      Act.hurdles_step (Act.check_hurdle _ _ _ (s.issued 4)), Act.hurdles_step (Act.useTile_hurdle _ _ (s.issued 4))]
    refine (hrect _ _).trans ?_
    unfold Act.tileFault
    rw [Act.hurdles_step (Act.check_hurdle _ _ _ (s.issued 4)), Act.hurdles_step (Act.check_hurdle _ _ _ (s.issued 4)), Act.hurdles_step (Act.wait_hurdle _ _ _ (s.issued 4))]
    rfl) (sysAll_arm _ _ _ _ _)
  refine ⟨r1, fun h l hl tw htw => ?_⟩
  rw [r2 h]
  subst htw
  apply issue_ok
  rw [Act.bind_ok (Act.launch_of ((launchOf_issued s 4).trans hl))]
  have ha : (s.issued 4).ctx.act = s.ctx.act := State.issued_act s 4
  show Except.ok ((), State.setStream (s.issued 4) s.pid d.toNat _) = _
  rw [ha]
  rfl

theorem rkdisarm_rules {s : State} (hc : s.Clean) (sp : Bool) (d : Reg) :
    (∀ h, firstHurdle (s.streamHurdles d.toNat false) = some h → exec (.rkdisarm sp d) s = s.stopsAt sp h)
    ∧ (firstHurdle (s.streamHurdles d.toNat false) = none → ∀ t, t = s.stream s.pid d.toNat →
        (t.state = 0 → exec (.rkdisarm sp d) s = .next ((s.issued 4).switch sp))
        ∧ (t.state ≠ 0 → exec (.rkdisarm sp d) s = .next (((s.issued 4).setStream s.pid d.toNat { t.freeze with state := 0, queue := [] }).switch sp))) := by
  obtain ⟨r1, r2⟩ := stopsAt_of (i := .rkdisarm sp d) (hs := s.streamHurdles d.toNat false) (sp := sp) (A := _)
    (B := if (s.stream s.pid d.toNat).state = 0 then pure () else Act.upd (fun u => u.setStream u.pid d.toNat { (s.stream s.pid d.toNat).freeze with state := 0, queue := [] })) hc rfl (by
    rw [Act.streamNumber_hurdle, Act.hurdles_step (Act.liveStream_hurdle _ _ _ (s.issued 4))]
    rfl) (sysAll_stream _ _ _)
  refine ⟨r1, fun h t ht => ⟨fun h0 => ?_, fun h0 => ?_⟩⟩
  · subst ht; rw [r2 h, if_pos h0]; exact issue_ok rfl
  · subst ht; rw [r2 h, if_neg h0]; exact issue_ok rfl

theorem rkres_rules {s : State} (hc : s.Clean) (sp : Bool) (d a : Reg) :
    (∀ h, firstHurdle (s.streamHurdles a.toNat true) = some h → exec (.rkres sp d a) s = s.stopsAt sp h)
    ∧ (firstHurdle (s.streamHurdles a.toNat true) = none → ∀ t u, t = s.stream s.pid a.toNat → u = { t with disc := t.disc + t.queue.length, queue := [] } →
        (t.results ≠ [] ∨ 14 < (s.queue s.pid s.cx (5 + a.toNat)).length →
          exec (.rkres sp d a) s = .next (s.awaiting ((s.issued 4).setStream s.pid a.toNat { u with state := 2 }) sp .room))
        ∧ (t.results = [] → (s.queue s.pid s.cx (5 + a.toNat)).length ≤ 14 →
          ∃ v : State, exec (.rkres sp d a) s = .next (v.switch sp) ∧ v.stream s.pid a.toNat = { u with
            state := 1, owner := s.ctx.act, sums := u.sums.map (fun _ => 0), pos := 0, disc := 0, ovl := false, seen := [], did := [], round := 0 }
          ∧ v.queue s.pid s.cx (5 + a.toNat) = s.queue s.pid s.cx (5 + a.toNat) ++ [u.word0 3, u.word1] ∧ (d ≠ 0 → v.ctx.g d = W u.disc))) := by
  have h4 := hc.issued 4
  obtain ⟨r1, r2⟩ := stopsAt_of (i := .rkres sp d a) (hs := s.streamHurdles a.toNat true) (sp := sp) (A := _)
    (B := rkresTail s.here sp d a.toNat (s.stream s.pid a.toNat)) hc rfl (by
    rw [Act.streamNumber_hurdle, Act.hurdles_step (Act.liveStream_hurdle _ _ _ (s.issued 4))]
    rfl) (sysAll_stream _ _ _)
  refine ⟨r1, fun h t u ht hu => ?_⟩
  have hn : a.toNat < 4 := by
    by_cases e : a.toNat < 4
    · exact e
    · exfalso
      have : decide (4 ≤ a.toNat) = true := by rw [decide_eq_true_iff]; omega
      simp [firstHurdle, State.streamHurdles, ill, this] at h
  have hcq : coreQueue (5 + a.toNat) = true := by
    have : a.toNat = 0 ∨ a.toNat = 1 ∨ a.toNat = 2 ∨ a.toNat = 3 := by omega
    rcases this with e | e | e | e <;> rw [e] <;> rfl
  have hq : s.queue s.pid s.cx (5 + a.toNat) = Tab.get [] s.core.qs (5 + a.toNat) := by unfold State.queue; rw [if_pos hcq]; rfl
  subst ht
  have hi := Act.interlock_clean h4 (.g d)
  refine ⟨fun hb => ?_, fun h5 h6 => ?_⟩
  · rw [r2 h]
    apply issue_stop
    unfold rkresTail
    rw [Act.bind_ok hi]
    dsimp only
    rw [Act.bind_ok (show Act.core (s.issued 4) = .ok (s.core, s.issued 4) from rfl)]
    have e : (!(s.stream s.pid a.toNat).results.isEmpty || decide (14 < (Tab.get [] s.core.qs (5 + a.toNat)).length)) = true := by
      rw [hq] at hb
      rw [Bool.or_eq_true, decide_eq_true_iff]
      exact hb.imp (fun e => by simpa using e) id
    rw [if_pos e]
    subst hu
    rfl
  · have e : (!(s.stream s.pid a.toNat).results.isEmpty || decide (14 < (Tab.get [] s.core.qs (5 + a.toNat)).length)) = false := by
      rw [hq] at h6
      rw [h5]; simp; exact h6
    let w := (s.issued 4).push s.pid s.cx (5 + a.toNat) [u.word0 3, u.word1]
    let w2 := w.setStream s.pid a.toNat { u with state := 1, owner := s.ctx.act, sums := u.sums.map (fun _ => 0), pos := 0, disc := 0, ovl := false, seen := [], did := [], round := 0 }
    have hw : w = (s.issued 4).modCoreAt s.pid (fun k => { k with qs := Tab.set k.qs (5 + a.toNat) (Tab.get [] s.core.qs (5 + a.toNat) ++ [u.word0 3, u.word1]) }) := by
      show State.push _ _ _ _ _ = _
      unfold State.push State.setQueue
      rw [if_pos hcq, if_neg (by omega)]
      have : (s.issued 4).queue s.pid s.cx (5 + a.toNat) = Tab.get [] s.core.qs (5 + a.toNat) := by unfold State.queue; rw [if_pos hcq]; rfl
      rw [this]
    have hctx : w2.ctx = (s.issued 4).ctx := by
      show State.ctx w = _
      rw [hw]; rfl
    have hcl : w2.Clean := by unfold State.Clean; rw [hctx]; exact h4
    have hst : ∀ f, (w2.modCtx f).stream s.pid a.toNat = w2.stream s.pid a.toNat := fun _ => rfl
    refine ⟨w2.modCtx (fun c => c.setG d (W u.disc)), ?_, ?_, ?_, ?_⟩
    · rw [r2 h]
      apply issue_ok
      unfold rkresTail
      rw [Act.bind_ok hi]
      dsimp only
      rw [Act.bind_ok (show Act.core (s.issued 4) = .ok (s.core, s.issued 4) from rfl), e]
      have hww : w.ctx.act = s.ctx.act := by
        have : w.ctx = (s.issued 4).ctx := hctx
        rw [this]; exact State.issued_act s 4
      have hwp : w.pid = s.pid := by rw [hw]; rfl
      subst hu
      show Act.wrG d _ (w.setStream w.pid a.toNat { (s.stream s.pid a.toNat) with disc := _, queue := [], state := 1, owner := w.ctx.act, sums := _, pos := 0, ovl := false, seen := [], did := [], round := 0 }) = _
      rw [hww, hwp]
      exact Act.wrG_clean hcl _ _
    · rw [hst]; exact stream_setStream _ _ _ _
    · unfold State.queue
      rw [if_pos hcq, if_pos hcq]
      show Tab.get [] (w2.coreAt s.pid).qs (5 + a.toNat) = _
      have : (w2.coreAt s.pid).qs = (w.coreAt s.pid).qs := by
        show ((State.setStream w s.pid _ _).coreAt s.pid).qs = _
        unfold State.setStream
        rw [State.coreAt_modCoreAt]
      rw [this, hw, State.coreAt_modCoreAt]
      exact Tab.get_set_same _ _ _ _
    · intro hd
      have hd : ¬ d = 0#5 := hd
      rw [State.ctx_modCtx, Ctx.g_setG]
      simp [hd]

theorem foldl_fl (outs : List Res) : ∀ n, ((List.range' n outs.length).zip (outs.map (fun o => o.fl))).foldl (fun t e => t ||| e.2) 0 = outs.foldl (fun m o => m ||| o.fl) 0 := by
  suffices ∀ (n acc : Nat), ((List.range' n outs.length).zip (outs.map (fun o => o.fl))).foldl (fun t e => t ||| e.2) acc = outs.foldl (fun m o => m ||| o.fl) acc from fun n => this n 0
  induction outs with
  | nil => intro n acc; rfl
  | cons o l ih => intro n acc; rw [List.length_cons, List.range'_succ, List.map_cons, List.zip_cons_cons, List.foldl_cons, List.foldl_cons]; exact ih _ _

theorem rkacc_rules {s : State} (hc : s.Clean) (sp : Bool) (d a : Reg) :
    ∀ t td hs outs, t = s.stream s.pid a.toNat → td = s.core.tile d.toNat →
        hs = s.streamHurdles a.toNat true ++ tileHurdles s.core d.toNat ++ [tileFaultAt (td.fmt != 6 && td.fmt != 14 && td.fmt != 15) d.toNat]
          ++ [ill (decide (6 ≤ (if td.fmt = 6 then 0 else td.rnd))) (W d.toNat)] →
        outs = ((List.range t.sums.length).zip t.sums).map (s.accOut t td) →
        (∀ h, firstHurdle hs = some h → exec (.rkacc sp d a) s = s.stopsAt sp h)
        ∧ (firstHurdle hs = none → (∀ o ∈ outs, o.fl &&& fld s.ctx.num.flagen 6 0 = 0) →
          exec (.rkacc sp d a) s = .next ((s.accumulated td outs).switch sp)) := by
  intro t td hs outs ht htd hhs ho
  have h4 := hc.issued 4
  have hrho : ∀ (mode lane : Nat), (if mode = 5 then srDraw (s.issued 4).ctx.num.seed.toNat (s.issued 4).cx (s.issued 4).ctx.num.srCount.toNat lane else 0) = (s.env mode false).rho lane := by
    intro mode lane; rw [State.issued_num]; rfl
  obtain ⟨r1, r2⟩ := stopsAt_of (i := .rkacc sp d a) (hs := hs) (sp := sp) (A := _)
    (B := do
      Act.flags ((List.range outs.length).zip (outs.map (fun o => o.fl)))
      Act.upd (fun s => ((List.range outs.length).zip outs).foldl (fun s e => s.setChan s.pid td e.1 e.2.code) s)
      if td.fmt = 6 then pure () else Act.tick td.rnd) hc rfl (by
    rw [Act.streamNumber_hurdle, Act.hurdles_step (Act.liveStream_hurdle _ _ _ (s.issued 4)), Act.hurdles_step (Act.useTile_hurdle _ _ (s.issued 4))]
    unfold Act.tileFault
    rw [Act.hurdles_step (Act.check_hurdle _ _ _ (s.issued 4))]
    unfold Act.rounding
    rw [Act.hurdles_step (by rw [bind_assoc]; exact Act.check_hurdle _ _ _ (s.issued 4)), Act.hurdles_step (by rw [bind_assoc]; exact Act.get_hurdle _ (s.issued 4)), List.append_nil]
    have ho' : outs = ((List.range (s.stream s.pid a.toNat).sums.length).zip (s.stream s.pid a.toNat).sums).map (fun e =>
        if (s.core.tile d.toNat).fmt = 6 then (⟨intCode 6 e.2, 0⟩ : Res)
        else roundNum (s.core.tile d.toNat).fmt (if (s.core.tile d.toNat).fmt = 6 then 0 else (s.core.tile d.toNat).rnd) false
          (if (if (s.core.tile d.toNat).fmt = 6 then 0 else (s.core.tile d.toNat).rnd) = 5 then srDraw (s.issued 4).ctx.num.seed.toNat (s.issued 4).cx (s.issued 4).ctx.num.srCount.toNat e.1 else 0)
          (.fin ((Exact.ofInt e.2).scale (if (s.stream s.pid a.toNat).tw.fmt = 7 then -21 else -15)))) := by
      rw [ho, ht, htd]
      apply List.map_congr_left
      intro e _
      unfold State.accOut
      by_cases h6 : (s.core.tile d.toNat).fmt = 6
      · rw [if_pos h6, if_pos h6]
      · rw [if_neg h6, if_neg h6, if_neg h6, hrho]
    rw [hhs, htd]
    refine Act.hurdles_same ?_
    rw [ho']
    rfl) (by subst hhs; rfl)
  refine ⟨r1, fun h hf => ?_⟩
  rw [r2 h]
  apply issue_ok
  have hf0 : ((List.range outs.length).zip (outs.map (fun o => o.fl))).filter (fun e => e.2 &&& fld s.ctx.num.flagen 6 0 != 0) = [] := by
    rw [List.filter_eq_nil_iff]
    intro e he
    have := (List.of_mem_zip he).2
    rw [List.mem_map] at this
    obtain ⟨o, ho1, ho2⟩ := this
    rw [← ho2]
    simpa using hf o ho1
  have fs := Act.flags_spec ((List.range outs.length).zip (outs.map (fun o => o.fl))) s
  have e0 := foldl_fl outs 0
  rw [← List.range_eq_range'] at e0
  rw [hf0, List.isEmpty_nil, if_pos rfl, e0] at fs
  rw [Act.bind_ok fs]
  unfold State.accumulated
  by_cases h6 : td.fmt = 6
  · simp only [h6, if_true, ne_eq, not_true_eq_false, false_and, if_false]; rfl
  · unfold Act.tick
    by_cases h5 : td.rnd = 5
    · simp only [h6, h5, if_true, if_false, ne_eq, not_false_eq_true, and_self]; rfl
    · simp only [h6, h5, if_false, ne_eq, not_false_eq_true, and_false]; rfl

theorem rankStreams_rules :
    ∀ (s : State) (sp : Bool) (d a b c : Reg), s.Clean → ∀ x y z, x = s.ctx.g a → y = s.ctx.g b → z = s.ctx.g c →
    -- REMIT
    (∀ m, m = { s.rankCmd 1 s.ctx.pc (d.toNat :: (if flag y 43 then [a.toNat] else [])) d.toNat with
          t0 := s.core.tile d.toNat, t1 := if flag y 43 then s.core.tile a.toNat else Tile.reset, desc := y, targets := s.emitTargets y z } →
      ∀ places, places = (s.emitTargets y z).map (fun n => (n, s.resolve s.ctx.ident.launch.toNat n)) →
      (∀ h, firstHurdle (s.remitHurdles d.toNat a.toNat y z) = some h → exec (.remit sp d a b c) s = s.stopsAt sp h)
      ∧ (firstHurdle (s.remitHurdles d.toNat a.toNat y z) = none → 16 ≤ (s.queue s.pid s.cx 4).length → exec (.remit sp d a b c) s = .next ((s.block .room sp).switch sp))
      ∧ (firstHurdle (s.remitHurdles d.toNat a.toNat y z) = none → (s.queue s.pid s.cx 4).length < 16 →
          exec (.remit sp d a b c) s = .next (((s.pushedRank m false).modNet (fun n => { n with
            pkts := n.pkts ++ (places.filter (fun e => !e.2.2)).map (fun e => { s.packet e.2.1 (.hold m.id) (some (m.launch, e.1)) with after := s.net.nextReq + 1 })
            held := n.held ++ (places.filter (fun e => e.2.2)).map (fun e => ⟨m.launch, e.1, { s.packet e.2.1 (.hold m.id) (some (m.launch, e.1)) with after := s.net.nextReq + 1 }⟩) })).switch sp)))
    -- RKSEQ
    ∧ (∀ h, firstHurdle (s.seqHurdles x y) = some h → exec (.rkseq sp a b) s = s.stopsAt sp h)
    ∧ (firstHurdle (s.seqHurdles x y) = none → exec (.rkseq sp a b) s = .next (((s.issued 4).modRank s.pid (fun u => { u with
        seqs := Tab.set u.seqs y.toNat ⟨(s.fields x.toNat 2 32).getD 1 0 == 1, s.fields (x.toNat + 64) 2 ((s.fields x.toNat 2 32).headD 0)⟩ })).switch sp))
    -- RKARM
    ∧ (∀ h, firstHurdle (s.armHurdles d.toNat a.toNat y z) = some h → exec (.rkarm sp d a b c) s = s.stopsAt sp h)
    ∧ (firstHurdle (s.armHurdles d.toNat a.toNat y z) = none → ∀ l, s.launchOf s.pid s.cx = some l → ∀ tw, tw = s.core.tile a.toNat →
        exec (.rkarm sp d a b c) s = .next (((s.issued 4).setStream s.pid d.toNat { Strm.reset with
          state := 1, owner := s.ctx.act, tw := tw, rect := if flag y 9 then some (s.core.tile (fld y 14 10)) else none, ovb := fld y 52 32, stop := fld y 8 7
          free := flag y 6, seq := fld y 5 4, np := fld y 3 0 + 1, margin := fld z 46 0, wmax := s.weightMax s.pid tw, det := l.det
          sums := List.replicate tw.rows 0, drops := (s.stream s.pid d.toNat).drops, results := (s.stream s.pid d.toNat).results }).switch sp))
    -- RKDISARM
    ∧ (∀ h, firstHurdle (s.streamHurdles d.toNat false) = some h → exec (.rkdisarm sp d) s = s.stopsAt sp h)
    ∧ (firstHurdle (s.streamHurdles d.toNat false) = none → ∀ t, t = s.stream s.pid d.toNat →
        (t.state = 0 → exec (.rkdisarm sp d) s = .next ((s.issued 4).switch sp))
        ∧ (t.state ≠ 0 → exec (.rkdisarm sp d) s = .next (((s.issued 4).setStream s.pid d.toNat { t.freeze with state := 0, queue := [] }).switch sp)))
    -- RKRES
    ∧ (∀ h, firstHurdle (s.streamHurdles a.toNat true) = some h → exec (.rkres sp d a) s = s.stopsAt sp h)
    ∧ (firstHurdle (s.streamHurdles a.toNat true) = none → ∀ t u, t = s.stream s.pid a.toNat → u = { t with disc := t.disc + t.queue.length, queue := [] } →
        (t.results ≠ [] ∨ 14 < (s.queue s.pid s.cx (5 + a.toNat)).length →
          exec (.rkres sp d a) s = .next (s.awaiting ((s.issued 4).setStream s.pid a.toNat { u with state := 2 }) sp .room))
        ∧ (t.results = [] → (s.queue s.pid s.cx (5 + a.toNat)).length ≤ 14 →
          ∃ v : State, exec (.rkres sp d a) s = .next (v.switch sp) ∧ v.stream s.pid a.toNat = { u with
            state := 1, owner := s.ctx.act, sums := u.sums.map (fun _ => 0), pos := 0, disc := 0, ovl := false, seen := [], did := [], round := 0 }
          ∧ v.queue s.pid s.cx (5 + a.toNat) = s.queue s.pid s.cx (5 + a.toNat) ++ [u.word0 3, u.word1] ∧ (d ≠ 0 → v.ctx.g d = W u.disc)))
    -- RKACC
    ∧ (∀ t td hs outs, t = s.stream s.pid a.toNat → td = s.core.tile d.toNat →
        hs = s.streamHurdles a.toNat true ++ tileHurdles s.core d.toNat ++ [tileFaultAt (td.fmt != 6 && td.fmt != 14 && td.fmt != 15) d.toNat]
          ++ [ill (decide (6 ≤ (if td.fmt = 6 then 0 else td.rnd))) (W d.toNat)] →
        outs = ((List.range t.sums.length).zip t.sums).map (s.accOut t td) →
        (∀ h, firstHurdle hs = some h → exec (.rkacc sp d a) s = s.stopsAt sp h)
        ∧ (firstHurdle hs = none → (∀ o ∈ outs, o.fl &&& fld s.ctx.num.flagen 6 0 = 0) →
          exec (.rkacc sp d a) s = .next ((s.accumulated td outs).switch sp))) := by
  intro s sp d a b c hc x y z hx hy hz
  obtain ⟨q1, q2⟩ := rkseq_rules hc sp a b x y hx hy
  obtain ⟨a1, a2⟩ := rkarm_rules hc sp d a b c y z hy hz
  obtain ⟨d1, d2⟩ := rkdisarm_rules hc sp d
  obtain ⟨r1, r2⟩ := rkres_rules hc sp d a
  exact ⟨remit_rules hc sp d a b c y z hy hz, q1, q2, a1, a2, d1, d2, r1, r2, rkacc_rules hc sp d a⟩

end Sys2Proof.Machine
end

