-- ==== Sys2Proof/Laws/Arriving.lean ====
section
/-! SUPPORT. A message reaches its core. -/

set_option Elab.async false

namespace Sys2Proof.Machine

theorem State.Arrives.arriving {s : State} {i : Nat} {p : Pkt} (h : s.Arrives i p) : s.arriving i = some (p, s.taken i) := by
  unfold State.arriving
  rw [takeAt_getElem?, h.here]
  simp only [Option.map_some]
  rw [if_neg]
  · rfl
  · have hn : s.inFlight p.sact p.after = false := by
      unfold State.inFlight
      rw [Bool.or_eq_false_iff, List.any_eq_false, List.any_eq_false]
      refine ⟨fun r hr hq => ?_, fun r hr => by rw [h.applied r hr]; exact Bool.false_ne_true⟩
      rw [Bool.and_eq_true, beq_iff_eq, decide_eq_true_iff] at hq
      have := h.done r hr hq.1; omega
    simp only [hn, Bool.or_eq_true, Bool.and_eq_true, List.any_eq_true, beq_iff_eq, decide_eq_true_eq, Bool.not_eq_true', Bool.or_false, not_or, not_and, not_exists, Bool.false_eq_true, or_false]
    refine ⟨fun q hq h1 h3 => h.first q hq ⟨h1.1, h1.2, h3⟩, fun hv => ⟨fun q hq hw hd => ?_, ?_⟩⟩
    · exact (h.clear hv).1 q hq hw hd
    · have := (h.clear hv).2; omega

@[simp] theorem State.taken_coreAt (s : State) (i p : Nat) : (s.taken i).coreAt p = s.coreAt p := rfl

theorem State.Accepts.fresh {s : State} {k : Nat} {m0 m : Msg} (h : s.Accepts k m0 m) : (s.coreAt k).stale m = false := by
  simp [Core.stale, h.gen, h.valid]

theorem deadLetter_dropped (s : State) (k : Nat) (m : Msg) : s.deadLetter k m = s.dropped k m := rfl

theorem landMessage_landed (s : State) (k : Nat) (m : Msg) (xf addr : Nat) (data : List Byte) :
    s.landMessage k m xf addr data = if 0x180000 < addr + (transform xf data).1.length then s.dropped k m else s.landingMade k m xf addr data := by
  unfold State.landMessage State.landingMade
  simp only [deadLetter_dropped, show Config.spadBytes = 0x180000 from rfl]
  split
  · rfl
  · show (if m.act = true then _ else _) = _
    unfold Msg.act
    split <;> rfl

/-- 08 R198, R220; 09 R229, R231, R233; 15 R353: what becomes of a message at its target. -/
theorem arrival_rules :
    ∀ (s : State) (i : Nat) (p : Pkt) (m0 : Msg), s.Arrives i p → p.body = .msg m0 →
  (32 ≤ (s.coreAt p.dst).pending.length → exec (.messageArrival i) s = .next (s.holdArrival i))
  ∧ ((s.coreAt p.dst).pending.length < 32 → (s.coreAt p.dst).received m0 = none → exec (.messageArrival i) s = .next (s.taken i))
  ∧ (∀ m, (s.coreAt p.dst).pending.length < 32 → (s.coreAt p.dst).received m0 = some m →
      ((s.coreAt p.dst).slot m.chan).gen ≠ m.gen ∨ ((s.coreAt p.dst).slot m.chan).valid = false →
      exec (.messageArrival i) s = .next ((s.taken i).dropped p.dst m))
  ∧ ∀ m, s.Accepts p.dst m0 m →
    (m.land = none → exec (.messageArrival i) s = .next (((s.taken i).modCoreAt p.dst (fun k => { k with pending := k.pending ++ [m] })).wakeIdle p.dst))
    ∧ ∀ xf addr data, m.land = some (xf, addr, data) →
      (s.marked p.dst addr (transform xf data).1.length = true → exec (.messageArrival i) s = .next (s.holdArrival i))
      ∧ (s.marked p.dst addr (transform xf data).1.length = false →
        (∀ x, m.sib = some x → xf = 5 → (s.taken i).sibHeld x = true → exec (.messageArrival i) s =
          .next ((s.taken i).modNet (fun n => { n with lands := n.lands ++ [⟨p.dst, { p with body := .msg m }, x⟩] })))
        ∧ ((∀ x, m.sib = some x → xf = 5 → (s.taken i).sibHeld x = false) →
          (0x180000 < addr + (transform xf data).1.length → exec (.messageArrival i) s = .next ((s.taken i).dropped p.dst m))
          ∧ (addr + (transform xf data).1.length ≤ 0x180000 → exec (.messageArrival i) s = .next ((s.taken i).landingMade p.dst m xf addr data)))) := by
  intro s i p m0 h hb
  have ha := h.arriving
  have e : ∀ t, (match s.arriving i with
    | none => s
    | some (p, t) => match p.body with
      | .msg m0 =>
        if 32 ≤ (t.coreAt p.dst).pending.length then s.holdArrival i
        else match (t.coreAt p.dst).received m0 with
          | none => t
          | some m =>
            if (t.coreAt p.dst).stale m then t.deadLetter p.dst m
            else match m.land with
              | none => (t.modCoreAt p.dst (fun k => { k with pending := k.pending ++ [m] })).wakeIdle p.dst
              | some (xf, addr, data) =>
                if t.landingMarked p.dst xf addr data then s.holdArrival i
                else match m.sib with
                  | some x =>
                    if xf = 5 && t.sibHeld x then
                      t.modNet (fun n => { n with lands := n.lands ++ [⟨p.dst, { p with body := .msg m }, x⟩] })
                    else t.landMessage p.dst m xf addr data
                  | none => t.landMessage p.dst m xf addr data
      | _ => s) = t → exec (.messageArrival i) s = .next t := by
    intro t ht; rw [← ht]; rfl
  refine ⟨fun hf => ?_, fun hr hn => ?_, fun m hr hm hs => ?_, fun m hm => ⟨fun hl => ?_, fun xf addr data hl => ⟨fun hk => ?_, fun hk => ⟨fun x hx hxf hh => ?_, fun hx => ?_⟩⟩⟩⟩
  · apply e; rw [ha]; simp only [hb]; exact if_pos hf
  · apply e; rw [ha]; simp only [hb]; rw [if_neg (show ¬ 32 ≤ ((s.taken i).coreAt p.dst).pending.length from Nat.not_le.2 hr), show ((s.taken i).coreAt p.dst).received m0 = none from hn]
  · apply e; rw [ha]; simp only [hb]; rw [if_neg (show ¬ 32 ≤ ((s.taken i).coreAt p.dst).pending.length from Nat.not_le.2 hr), show ((s.taken i).coreAt p.dst).received m0 = some m from hm]; simp only []
    rw [if_pos]; rfl
    unfold Core.stale
    rcases hs with hs | hs <;> simp [hs]
  · apply e; rw [ha]; simp only [hb]; rw [if_neg (show ¬ 32 ≤ ((s.taken i).coreAt p.dst).pending.length from Nat.not_le.2 hm.room), show ((s.taken i).coreAt p.dst).received m0 = some m from hm.as_]; simp only []
    rw [show ((s.taken i).coreAt p.dst).stale m = false from hm.fresh]; simp [hl]
  · apply e; rw [ha]; simp only [hb]; rw [if_neg (show ¬ 32 ≤ ((s.taken i).coreAt p.dst).pending.length from Nat.not_le.2 hm.room), show ((s.taken i).coreAt p.dst).received m0 = some m from hm.as_]; simp only []
    rw [show ((s.taken i).coreAt p.dst).stale m = false from hm.fresh]; simp only [hl, Bool.false_eq_true, if_false]
    rw [if_pos]; exact hk
  · apply e; rw [ha]; simp only [hb]; rw [if_neg (show ¬ 32 ≤ ((s.taken i).coreAt p.dst).pending.length from Nat.not_le.2 hm.room), show ((s.taken i).coreAt p.dst).received m0 = some m from hm.as_]; simp only []
    rw [show ((s.taken i).coreAt p.dst).stale m = false from hm.fresh]; simp only [hl, Bool.false_eq_true, if_false]
    rw [if_neg (by show ¬ (s.marked _ _ _ = true); rw [hk]; exact Bool.false_ne_true), hx]
    simp [hxf, hh]
  · have key : exec (.messageArrival i) s = .next ((s.taken i).landMessage p.dst m xf addr data) := by
      apply e; rw [ha]; simp only [hb]; rw [if_neg (show ¬ 32 ≤ ((s.taken i).coreAt p.dst).pending.length from Nat.not_le.2 hm.room), show ((s.taken i).coreAt p.dst).received m0 = some m from hm.as_]; simp only []
      rw [show ((s.taken i).coreAt p.dst).stale m = false from hm.fresh]; simp only [hl, Bool.false_eq_true, if_false]
      rw [if_neg (by show ¬ (s.marked _ _ _ = true); rw [hk]; exact Bool.false_ne_true)]
      cases hs : m.sib with
      | none => rfl
      | some x =>
        simp only []
        rw [if_neg]
        intro hc
        simp only [Bool.and_eq_true, decide_eq_true_eq] at hc
        rw [hx x hs hc.1] at hc; exact Bool.false_ne_true hc.2
    rw [key, landMessage_landed]
    exact ⟨fun h2 => by rw [if_pos h2], fun h2 => by rw [if_neg (by omega)]⟩

end Sys2Proof.Machine
end

