-- ==== Sys2Proof/Laws/Landing.lean ====
section
/-! SUPPORT. Results, queue words and mailbox values land. -/

set_option Elab.async false

namespace Sys2Proof.Machine

theorem modCtxAt_eq (s : State) (p x : Nat) (f : Ctx → Ctx) : s.modCtxAt p x f = s.setCtxAt p x (f (s.ctxAt p x)) := rfl

theorem result_rules (s : State) (i : Nat) (r : Result) (h : s.net.results[i]? = some r) :
    (¬ s.runs r.pid r.cx r.act → exec (.registerResultArrival i) s = .next (s.noResult i))
    ∧ (s.runs r.pid r.cx r.act → exec (.registerResultArrival i) s = .next ((s.noResult i).modCtxAt r.pid r.cx (fun c => c.take r))) := by
  have e : exec (.registerResultArrival i) s = .next (if (s.ctxAt r.pid r.cx).act = r.act ∧ (s.ctxAt r.pid r.cx).run ≠ .free then (s.noResult i).modCtxAt r.pid r.cx (fun c => c.take r) else s.noResult i) := by
    show execRegisterResultArrival i s = _
    unfold execRegisterResultArrival
    rw [takeAt_getElem?, h]; rfl
  rw [e]
  exact ⟨fun hn => congrArg _ (if_neg hn), fun hp => congrArg _ (if_pos hp)⟩

theorem results_rules_land : ∀ (s : State) (i : Nat) (r : Result), s.net.results[i]? = some r →
    (¬ s.runs r.pid r.cx r.act → exec (.registerResultArrival i) s = .next (s.noResult i))
    ∧ (s.runs r.pid r.cx r.act →
      (∀ d v, r.dest = .g d → r.val = .g v → exec (.registerResultArrival i) s = .next ((s.noResult i).intoG r.pid r.cx d v))
      ∧ (∀ d v, r.dest = .v d → r.val = .v v → exec (.registerResultArrival i) s = .next ((s.noResult i).intoV r.pid r.cx d v))
      ∧ (∀ d e x, r.dest = .g d → r.val = .err e x → exec (.registerResultArrival i) s =
          .next (((s.noResult i).intoG r.pid r.cx d 0).modCtxAt r.pid r.cx (fun c =>
            { c with poison := if d = 0 then c.poison else c.poison ++ [⟨.g d, e⟩] })))
      ∧ (∀ d e x, r.dest = .v d → r.val = .err e x → exec (.registerResultArrival i) s =
          .next (((s.noResult i).intoV r.pid r.cx d x).modCtxAt r.pid r.cx (fun c => { c with poison := c.poison ++ [⟨.v d, e⟩] })))) := by
  intro s i r h
  obtain ⟨h1, h2⟩ := result_rules s i r h
  refine ⟨h1, fun hr => ?_⟩
  have e := h2 hr
  refine ⟨fun d v hd hv => ?_, fun d v hd hv => ?_, fun d e' x hd hv => ?_, fun d e' x hd hv => ?_⟩ <;> rw [e]
  · unfold State.intoG Ctx.take; rw [hd, hv]
  · unfold State.intoV Ctx.take; rw [hd, hv]
  · unfold State.intoG Ctx.take; rw [State.modCtxAt_modCtxAt, hd, hv]
  · unfold State.intoV Ctx.take; rw [State.modCtxAt_modCtxAt, hd, hv]

theorem results_rules_pop : ∀ (s : State) (core i : Nat) (p : Pop) (w : Word) (l : List Word), (s.coreAt core).pops[i]? = some p →
      (∀ q ∈ (s.coreAt core).pops.take i, q.q = p.q → coreQueue p.q = false ∧ q.cx ≠ p.cx) → s.queue core p.cx p.q = w :: l →
      (s.runs core p.cx p.act → exec (.queuePop core i) s = .next (((s.noPop core i).setQueue core p.cx p.q l).intoG core p.cx p.d w))
      ∧ (¬ s.runs core p.cx p.act → exec (.queuePop core i) s =
          .next (if coreQueue p.q then (s.noPop core i).setQueue core p.cx p.q l else s.noPop core i)) := by
  intro s core i p w l hp hq hw
  have hs : (((s.coreAt core).pops.take i).any (fun (q : Pop) => q.q == p.q && (coreQueue p.q || q.cx == p.cx))) = false := by
    rw [List.any_eq_false]
    intro q hm hc
    simp only [Bool.and_eq_true, Bool.or_eq_true, beq_iff_eq] at hc
    have := hq q hm hc.1
    rcases hc.2 with h | h
    · rw [this.1] at h; exact Bool.false_ne_true h
    · exact this.2 h
  have he : s.modCoreAt core (fun k => { k with pops := (s.coreAt core).pops.eraseIdx i }) = s.noPop core i := rfl
  have e : exec (.queuePop core i) s = .next (
      let alive := decide ((s.ctxAt core p.cx).act = p.act) && (s.ctxAt core p.cx).run != .free
      if !coreQueue p.q && !alive then s.noPop core i
      else
        let t := (s.noPop core i).setQueue core p.cx p.q l
        if alive then t.modCtxAt core p.cx (fun c => c.take ⟨core, p.cx, p.act, .g p.d, .g w⟩) else t) := by
    show execQueuePop core i s = _
    unfold execQueuePop
    rw [takeAt_getElem?, hp]
    simp only [Option.map_some]
    rw [hs, hw, he]
    simp only [Bool.false_eq_true, if_false]
  rw [e]
  refine ⟨fun hr => ?_, fun hr => ?_⟩
  · have ha : (decide ((s.ctxAt core p.cx).act = p.act) && (s.ctxAt core p.cx).run != .free) = true := by
      simp only [Bool.and_eq_true, decide_eq_true_eq, bne_iff_ne]; exact hr
    simp only [ha, Bool.not_true, Bool.and_false, Bool.false_eq_true, if_false, if_true]
    rfl
  · have ha : (decide ((s.ctxAt core p.cx).act = p.act) && (s.ctxAt core p.cx).run != .free) = false := by
      cases hb : (decide ((s.ctxAt core p.cx).act = p.act) && (s.ctxAt core p.cx).run != .free)
      · rfl
      · simp only [Bool.and_eq_true, decide_eq_true_eq, bne_iff_ne] at hb; exact absurd hb hr
    simp only [ha, Bool.not_false, Bool.and_true, Bool.false_eq_true, if_false]
    cases coreQueue p.q <;> rfl

/-- 01 R11, R28; 05 R121; 15 R336. -/
theorem results_rules :
    (∀ (s : State) (i : Nat) (r : Result), s.net.results[i]? = some r →
    (¬ s.runs r.pid r.cx r.act → exec (.registerResultArrival i) s = .next (s.noResult i))
    ∧ (s.runs r.pid r.cx r.act →
      (∀ d v, r.dest = .g d → r.val = .g v → exec (.registerResultArrival i) s = .next ((s.noResult i).intoG r.pid r.cx d v))
      ∧ (∀ d v, r.dest = .v d → r.val = .v v → exec (.registerResultArrival i) s = .next ((s.noResult i).intoV r.pid r.cx d v))
      ∧ (∀ d e x, r.dest = .g d → r.val = .err e x → exec (.registerResultArrival i) s =
          .next (((s.noResult i).intoG r.pid r.cx d 0).modCtxAt r.pid r.cx (fun c =>
            { c with poison := if d = 0 then c.poison else c.poison ++ [⟨.g d, e⟩] })))
      ∧ (∀ d e x, r.dest = .v d → r.val = .err e x → exec (.registerResultArrival i) s =
          .next (((s.noResult i).intoV r.pid r.cx d x).modCtxAt r.pid r.cx (fun c => { c with poison := c.poison ++ [⟨.v d, e⟩] })))))
  ∧ (∀ (s : State) (core i : Nat) (p : Pop) (w : Word) (l : List Word), (s.coreAt core).pops[i]? = some p →
      (∀ q ∈ (s.coreAt core).pops.take i, q.q = p.q → coreQueue p.q = false ∧ q.cx ≠ p.cx) → s.queue core p.cx p.q = w :: l →
      (s.runs core p.cx p.act → exec (.queuePop core i) s = .next (((s.noPop core i).setQueue core p.cx p.q l).intoG core p.cx p.d w))
      ∧ (¬ s.runs core p.cx p.act → exec (.queuePop core i) s =
          .next (if coreQueue p.q then (s.noPop core i).setQueue core p.cx p.q l else s.noPop core i)))
  ∧ (∀ (s : State) (core cx : Nat) (q : BitVec 4) (v : Word), 12 ≤ q.toNat → (s.queue core cx q.toNat).length < 16 →
      (s.ctxAt core cx).run ≠ .free →
      exec (.queuePush core cx q v) s = .next ((s.setQueue core cx q.toNat (s.queue core cx q.toNat ++ [v])).wakeIdle core)) := by
  refine ⟨results_rules_land, results_rules_pop, ?_⟩
  intro s core cx q v h1 h2 h3
  show execQueuePush core cx q v s = _
  unfold execQueuePush State.push
  have : (q.toNat < 12 || 16 ≤ (s.queue core cx q.toNat).length || (s.ctxAt core cx).run == .free) = false := by
    simp [h3]; omega
  rw [this]; simp only [Bool.false_eq_true, if_false]
  rw [if_pos h1]

theorem State.served_coreAt (s : State) (core q : Nat) (t : Take) (v : Word) : (s.served core t v).coreAt q = s.coreAt q := by
  unfold State.served; split <;> rfl

theorem serve_served (s : State) (core : Nat) (t : Take) (v : Word) : s.serve core t v = s.served core t v := by
  unfold State.serve State.served; dsimp only; split <;> rfl

theorem foldl_served (core : Nat) (l : List Take) (s : State) (v : Word) :
    l.foldl (fun u x => u.served core x v) s = l.foldl (fun s x => s.serve core x v) s := by
  induction l generalizing s with
  | nil => rfl
  | cons x l ih => rw [List.foldl_cons, List.foldl_cons, serve_served]; exact ih _

theorem findIdx?_split {α : Type} (f : α → Bool) (a b : List α) (x : α) (ha : ∀ e ∈ a, f e = false) (hx : f x = true) :
    (a ++ x :: b).findIdx? f = some a.length := by
  induction a with
  | nil => simp [List.findIdx?_cons, hx]
  | cons y a ih =>
    rw [List.cons_append, List.findIdx?_cons, ha y (by simp), ih (fun e he => ha e (by simp [he]))]
    simp

theorem takeAt_split {α : Type} (a b : List α) (x : α) : takeAt (a ++ x :: b) a.length = some (x, a ++ b) := by
  induction a with
  | nil => rfl
  | cons y a ih => simp [takeAt, ih]

/-- 05 R134, 09 R234. -/
theorem mailboxes_rules :
    (∀ (s : State) (i m : Nat) (p : Pkt) (v : Word), s.Arrives i p → p.body = .mailbox m v →
    exec (.mailboxWriteArrival i) s = .next (if (s.coreAt p.dst).mp.getLsbD m = false ∧ (∀ e ∈ (s.coreAt p.dst).mbStore, e.1 ≠ m)
      then (s.taken i).inMailbox p.dst m v
      else (s.taken i).modCoreAt p.dst (fun k => { k with mbStore := k.mbStore ++ [(m, v)] })))
  ∧ (∀ (s : State) (core : Nat) (m : Reg) (a b : List (Nat × Word)) (v : Word), (s.coreAt core).mp.getLsbD m.toNat = false →
      (s.coreAt core).mbStore = a ++ (m.toNat, v) :: b → (∀ e ∈ a, e.1 ≠ m.toNat) →
      exec (.mailboxStoreLanding core m) s = .next ((s.modCoreAt core (fun k => { k with mbStore := a ++ b })).inMailbox core m.toNat v))
  ∧ (∀ (s : State) (core i : Nat) (t : Take), (s.coreAt core).takes[i]? = some t → (s.coreAt core).mp.getLsbD t.m = true →
      (t.peek = true → exec (.mtakeService core i) s =
        .next ((s.modCoreAt core (fun k => { k with takes := k.takes.eraseIdx i })).served core t ((s.coreAt core).m[t.m]?.getD 0)))
      ∧ (t.peek = false → (∀ x ∈ (s.coreAt core).takes.take i, x.m = t.m → x.peek = true) →
        exec (.mtakeService core i) s = .next (
          (((s.coreAt core).takes.eraseIdx i).filter (fun x => x.m == t.m && x.peek)).foldl
            (fun u x => u.served core x ((s.coreAt core).m[t.m]?.getD 0))
            (((s.modCoreAt core (fun k => { k with takes := k.takes.eraseIdx i })).served core t ((s.coreAt core).m[t.m]?.getD 0)).modCoreAt core (fun k => { k with
              takes := k.takes.filter (fun x => !(x.m == t.m && x.peek)), mp := setBit k.mp t.m false }))))) := by
  refine ⟨fun s i m p v h hb => ?_, fun s core m a b v hm hl ha => ?_, fun s core i t ht hm => ⟨fun hp => ?_, fun hp hf => ?_⟩⟩
  · show execMailboxWriteArrival i s = _
    unfold execMailboxWriteArrival
    rw [h.arriving]
    simp only [hb]
    have e : (!((s.taken i).coreAt p.dst).mp.getLsbD m && !((s.taken i).coreAt p.dst).mbStore.any (fun e => e.1 == m)) =
        decide ((s.coreAt p.dst).mp.getLsbD m = false ∧ (∀ e ∈ (s.coreAt p.dst).mbStore, e.1 ≠ m)) := by
      rw [State.taken_coreAt, Bool.eq_iff_iff]
      simp only [Bool.and_eq_true, Bool.not_eq_true', decide_eq_true_eq, List.any_eq_false, beq_iff_eq]
    rw [e]
    by_cases hc : (s.coreAt p.dst).mp.getLsbD m = false ∧ (∀ e ∈ (s.coreAt p.dst).mbStore, e.1 ≠ m)
    · rw [if_pos hc, if_pos (decide_eq_true hc)]; rfl
    · rw [if_neg hc, if_neg (by rw [decide_eq_false hc]; exact Bool.false_ne_true)]
  · show execMailboxStoreLanding core m s = _
    unfold execMailboxStoreLanding
    dsimp only
    rw [hm, hl, findIdx?_split (fun e => e.1 == m.toNat) a b (m.toNat, v) (fun e he => by simp [ha e he]) (by simp)]
    simp only [Bool.false_eq_true, if_false]
    rw [takeAt_split]; rfl
  · show execMtakeService core i s = _
    unfold execMtakeService
    dsimp only
    rw [takeAt_getElem?, ht]
    simp only [Option.map_some, hm, hp]
    rw [serve_served]; rfl
  · show execMtakeService core i s = _
    unfold execMtakeService
    dsimp only
    rw [takeAt_getElem?, ht]
    simp only [Option.map_some, hm, hp]
    have hn : ((s.coreAt core).takes.take i).any (fun x => x.m == t.m && !x.peek) = false := by
      rw [List.any_eq_false]
      intro x hx hc
      simp only [Bool.and_eq_true, beq_iff_eq, Bool.not_eq_true'] at hc
      rw [hf x hx hc.1] at hc; exact absurd hc.2 (by decide)
    rw [hn]
    simp only [Bool.not_true, Bool.false_eq_true, if_false]
    unfold State.emptyMailbox
    rw [foldl_served, serve_served, State.served_coreAt, State.coreAt_modCoreAt]
    dsimp only
    rw [show s.modCoreAt core (fun k => { k with takes := (s.coreAt core).takes.eraseIdx i }) = s.modCoreAt core (fun k => { k with takes := k.takes.eraseIdx i }) from rfl]
    generalize hu : (State.served _ core t _ : State) = u
    have hk : (u.coreAt core).takes = (s.coreAt core).takes.eraseIdx i := by
      rw [← hu, State.served_coreAt, State.coreAt_modCoreAt]
    unfold State.modCoreAt
    simp only [hk]

end Sys2Proof.Machine
end

