-- ==== Sys2Proof/Laws/Holding.lean ====
section
/-! SUPPORT. Held landings, bound queues, responses, decrements and subscriptions. -/

set_option Elab.async false

namespace Sys2Proof.Machine

theorem answered {s : State} {p x act : Nat} {f : Ctx → Ctx} (h : (s.ctxAt p x).act = act)
    (hr : (s.ctxAt p x).run = .parked .reply ∨ (s.ctxAt p x).run = .stalled .reply) :
    s.answer p x act f = s.modCtxAt p x (fun c => { f c with pc := c.pc + 4, run := .runnable }) := by
  unfold State.answer
  rw [if_pos]
  unfold Ctx.awaits
  rcases hr with hr | hr <;> simp [hr, h]

theorem launchOr_eq (s : State) (f : Core → Core) (p n : Nat) : (s.modCoreAt p f).launchOr n = s.launchOr n := rfl

theorem held_rules_dec : ∀ (s : State) (i slot gen : Nat) (p : Pkt), s.Arrives i p → p.body = .dec slot gen →
      (∀ g t, s.pendingRec p.dst slot g t → g % 2 ^ 16 = gen → t.cnt ≠ 0 →
        exec (.decrementArrival i) s = .next ((s.taken i).setPending p.dst slot ⟨g, some { t with cnt := t.cnt - 1 }⟩))
      ∧ ((∀ g t, s.pendingRec p.dst slot g t → g % 2 ^ 16 = gen → t.cnt = 0) →
        exec (.decrementArrival i) s = .next ((s.taken i).modCoreAt p.dst (fun k => { k with dlcnt := k.dlcnt + 1 }))) := by
  intro s i slot gen p h hb
  have e : exec (.decrementArrival i) s = .next ((s.taken i).decrement p.dst slot gen) := by
    show execDecrementArrival i s = _
    unfold execDecrementArrival
    rw [h.arriving]
    simp only [hb]
  rw [e]
  refine ⟨fun g t hr hg hc => ?_, fun hr => ?_⟩
  · unfold State.decrement
    dsimp only
    rw [show (Tab.get ⟨0, none⟩ ((s.taken i).coreAt p.dst).ptasks slot : PSlot) = ⟨g, some t⟩ from hr]
    simp only []
    rw [if_pos ⟨hg, hc⟩]
  · unfold State.decrement
    dsimp only
    generalize hx : (Tab.get ⟨0, none⟩ ((s.taken i).coreAt p.dst).ptasks slot : PSlot) = x
    obtain ⟨g, t⟩ := x
    cases t with
    | none => rfl
    | some t =>
      simp only []
      rw [if_neg]
      · rfl
      · intro hc; exact hc.2 (hr g t hx hc.1)

/-- 08 R199, R215, R220; 09 R231, R232, R239. -/
theorem held_rules :
    (∀ (s : State) (i : Nat) (h : HeldLand) (m : Msg) (xf addr : Nat) (data : List Byte), s.net.lands[i]? = some h → h.pkt.body = .msg m →
    m.land = some (xf, addr, data) → s.sibHeld h.sib = false → (flag m.desc 19 = true → (s.coreAt h.core).pending.length < 32) →
    s.marked h.core addr (transform xf data).1.length = false →
    exec (.deterministicHoldRelease i) s = .next (
      let u := s.modNet (fun n => { n with lands := n.lands.eraseIdx i })
      if 0x180000 < addr + (transform xf data).1.length then u.dropped h.core m else u.landingMade h.core m xf addr data))
  ∧ (∀ (s : State) (core i : Nat) (m : Msg), (s.coreAt core).pending[i]? = some m →
      ((s.coreAt core).slot m.chan).gen = m.gen → ((s.coreAt core).slot m.chan).valid = true → ((s.coreAt core).slot m.chan).msk = false →
      12 ≤ ((s.coreAt core).slot m.chan).qb → (∀ x ∈ (s.coreAt core).pending.take i, x.chan ≠ m.chan) →
      (Tab.get [] (s.coreAt core).qs ((s.coreAt core).slot m.chan).qb).length + m.payload.length ≤ 16 →
      exec (.boundQueuePush core i) s =
        .next ((s.modCoreAt core (fun k => { k with pending := k.pending.eraseIdx i })).push core 0 ((s.coreAt core).slot m.chan).qb m.payload))
  ∧ (∀ (s : State) (core i : Nat) (m : Msg), (s.coreAt core).pending[i]? = some m → (s.coreAt core).stale m = true →
      exec (.boundQueuePush core i) s = .next ((s.modCoreAt core (fun k => { k with pending := k.pending.eraseIdx i })).dropped core m))
  ∧ (∀ (s : State) (i : Nat) (n : Nack), s.net.nacks[i]? = some n →
      exec (.deadmsgResponse i) s = .next ((s.modNet (fun net => { net with nacks := net.nacks.eraseIdx i })).noticed n.act ⟨Eff.deadmsg, n.raise⟩))
  ∧ (∀ (s : State) (i slot gen : Nat) (p : Pkt), s.Arrives i p → p.body = .dec slot gen →
      (∀ g t, s.pendingRec p.dst slot g t → g % 2 ^ 16 = gen → t.cnt ≠ 0 →
        exec (.decrementArrival i) s = .next ((s.taken i).setPending p.dst slot ⟨g, some { t with cnt := t.cnt - 1 }⟩))
      ∧ ((∀ g t, s.pendingRec p.dst slot g t → g % 2 ^ 16 = gen → t.cnt = 0) →
        exec (.decrementArrival i) s = .next ((s.taken i).modCoreAt p.dst (fun k => { k with dlcnt := k.dlcnt + 1 }))))
  ∧ (∀ (s : State) (core slot gen : Nat) (t : Task), s.pendingRec core slot gen t → t.cnt = 0 →
      let l := s.launchOr t.launch
      (s.coreAt core).deque.length < 64 + l.dqsp →
      exec (.pendingRecordRelease core slot) s = .next (((if l.det then s else s.modDieAt (dieOf core) (fun d => { d with nextTask := d.nextTask + 1 })).setPending core slot
        ⟨gen, none⟩).setDeque core ({ t with id := if l.det then t.path else dieOf core * 2 ^ 40 + (s.dieAt (dieOf core)).nextTask, since := s.time } :: (s.coreAt core).deque)))
  ∧ (∀ (s : State) (i : Nat) (a : Asked) (on : Bool) (tag : Nat), s.net.asks[i]? = some a → a.ask = .subTag on tag →
      (s.ctxAt a.pid a.cx).act = a.act → ((s.ctxAt a.pid a.cx).run = .parked .reply ∨ (s.ctxAt a.pid a.cx).run = .stalled .reply) →
      exec (.subscriptionUpdate i) s = .next (((s.modNet (fun n => { n with asks := n.asks.eraseIdx i })).modDieAt (dieOf a.pid) (fun d =>
          { d with routers := d.routers.filter (fun e => e != (tag, a.pid)) ++ if on then [(tag, a.pid)] else [] })).modCtxAt a.pid a.cx
        (fun c => { c with pc := c.pc + 4, run := .runnable }))) := by
  refine ⟨?_, ?_, ?_, ?_, held_rules_dec, ?_, ?_⟩
  · intro s i h m xf addr data h1 h2 h3 h4 h5 h6
    show execDeterministicHoldRelease i s = _
    unfold execDeterministicHoldRelease
    rw [takeAt_getElem?, h1]
    simp only [Option.map_some, h2, h3]
    rw [if_neg]
    · rw [landMessage_landed]; rfl
    · unfold State.landingMarked Msg.act
      rw [h4, h6]
      simp only [Bool.false_or, Bool.or_false, Bool.and_eq_true, decide_eq_true_eq, not_and]
      intro hf; have := h5 hf; omega
  · intro s core i m h1 h2 h3 h4 h5 h6 h7
    show execBoundQueuePush core i s = _
    unfold execBoundQueuePush
    dsimp only
    rw [takeAt_getElem?, h1]
    simp only [Option.map_some]
    rw [if_neg (by simp [Core.stale, h2, h3]), if_neg]
    · rfl
    · have : ((s.coreAt core).pending.take i).any (fun x => x.chan == m.chan) = false := by
        rw [List.any_eq_false]; intro x hx; simpa using h6 x hx
      rw [h4, this]
      simp only [Bool.false_or, Bool.or_false, Bool.or_eq_true, decide_eq_true_eq, not_or]
      omega
  · intro s core i m h1 h2
    show execBoundQueuePush core i s = _
    unfold execBoundQueuePush
    dsimp only
    rw [takeAt_getElem?, h1]
    simp only [Option.map_some]
    rw [if_pos h2]; rfl
  · intro s i n h
    show execDeadmsgResponse i s = _
    unfold execDeadmsgResponse
    rw [takeAt_getElem?, h]; rfl
  · intro s core slot gen t h1 h2 l h3
    show execPendingRecordRelease core slot s = _
    unfold execPendingRecordRelease
    dsimp only
    rw [show (Tab.get ⟨0, none⟩ (s.coreAt core).ptasks slot : PSlot) = ⟨gen, some t⟩ from h1]
    simp only []
    rw [if_neg]
    · rfl
    · rintro (hc | hc)
      · exact hc h2
      · unfold State.dequeFull at hc; simp only [decide_eq_true_eq] at hc
        exact absurd hc (Nat.not_le.2 h3)
  · intro s i a on tag h1 h2 h3 h4
    show execSubscriptionUpdate i s = _
    unfold execSubscriptionUpdate
    rw [takeAt_getElem?, h1]
    simp only [Option.map_some, h2]
    rw [answered (by exact h3) (by exact h4)]; rfl

end Sys2Proof.Machine
end

