-- ==== Sys2Proof/Laws/BarrierArrivals.lean ====
section
/-! SUPPORT. Barrier updates and the decrement of a join. -/

set_option Elab.async false

namespace Sys2Proof.Machine

theorem barUpdate_apply {s : State} {i slot : Nat} {p : Pkt} {op : BarOp} (h : s.Arrives i p) (hb : p.body = .bar slot op) :
    exec (.barrierUpdate i) s = .next ((s.taken i).applyBar p.dst slot p op) := by
  show execBarrierUpdate i s = _
  unfold execBarrierUpdate
  rw [h.arriving]
  simp only [hb]

theorem modCoreAt_modCoreAt (s : State) (p : Nat) (f g : Core → Core) : (s.modCoreAt p f).modCoreAt p g = s.modCoreAt p (fun k => g (f k)) := by
  show (s.modCoreAt p f).setCoreAt p (g ((s.modCoreAt p f).coreAt p)) = _
  rw [State.coreAt_modCoreAt]
  simp [State.modCoreAt, State.setCoreAt]

theorem settle_phased (s : State) (core slot : Nat) (b : Bar) : (s.modCoreAt core (fun k => k.setBar slot b)).settleBar core slot = s.phased core slot b := by
  have hb : ((s.modCoreAt core (fun k => k.setBar slot b)).coreAt core).bar slot = b := by
    rw [State.coreAt_modCoreAt]; simp [Core.bar, Core.setBar]
  unfold State.settleBar State.phased State.releaseAll State.putBar
  dsimp only
  rw [hb]
  split
  · congr 1
    rw [modCoreAt_modCoreAt]; unfold Core.setBar; simp
  · rfl

theorem arrive_arrived (s : State) (core slot : Nat) : s.arriveBar core slot = s.arrived core slot := by
  unfold State.arriveBar State.arrived
  dsimp only
  rw [settle_phased]
  show (if 65535 ≤ (s.slotBar core slot).arrv then _ else _) = _
  by_cases h : (s.slotBar core slot).arrv < 65535
  · rw [if_pos h, if_neg (by omega)]; rfl
  · rw [if_neg h, if_pos (by omega)]; rfl

theorem register_registered (s : State) (core slot : Nat) (w : Waiter) : s.registerBar core slot w = s.registered core slot w := by
  unfold State.registerBar State.registered barFailure
  dsimp only
  have e : (s.coreAt core).bar slot = s.slotBar core slot := rfl
  rw [e]
  cases (s.slotBar core slot).failed with
  | some m => rfl
  | none =>
    simp only []
    by_cases h : (s.slotBar core slot).ph = w.parity
    · rw [if_pos h, if_neg (by simp [h])]; rfl
    · rw [if_neg h, if_pos (by simpa using h)]

theorem barrierUpdate_rules :
    ∀ (s : State) (i slot : Nat) (p : Pkt) (op : BarOp), s.Arrives i p → p.body = .bar slot op →
  let t := s.taken i
  let b := s.slotBar p.dst slot
  let lost := t.modCoreAt p.dst (fun k => { k with dlcnt := k.dlcnt + 1 })
  (∀ d u, op = .join d → u = (if b.memb < 65535 then t.phased p.dst slot { b with memb := b.memb + 1 } else lost) → (u.ctxAt p.src p.scx).act = p.sact →
    ((u.ctxAt p.src p.scx).run = .parked .reply ∨ (u.ctxAt p.src p.scx).run = .stalled .reply) →
    exec (.barrierUpdate i) s = .next (u.joined p d (u.slotBar p.dst slot).ph (if b.memb < 65535 then [(p.dst, slot)] else [])))
  ∧ (op = .leave → exec (.barrierUpdate i) s = .next (if b.memb = 0 then lost else t.phased p.dst slot { b with memb := b.memb - 1 }))
  ∧ (∀ n, op = .init n → exec (.barrierUpdate i) s = .next
      ((t.putBar p.dst slot ⟨0, n, 0, false, b.waiters.filter (fun w => !w.parity), none⟩).releaseAll (b.waiters.filter (fun w => w.parity))))
  ∧ (op = .arrive → exec (.barrierUpdate i) s = .next (t.arrived p.dst slot))
  ∧ (∀ ph, op = .wait ph false → exec (.barrierUpdate i) s = .next (t.registered p.dst slot ⟨p.src, p.scx, p.sact, ph⟩))
  ∧ (∀ ph, op = .wait ph true → exec (.barrierUpdate i) s = .next ((t.arrived p.dst slot).registered p.dst slot ⟨p.src, p.scx, p.sact, ph⟩))
  ∧ (∀ n, op = .credit n → exec (.barrierUpdate i) s = .next (t.phased p.dst slot { b with pend := (b.pend + n) % 2 ^ 56 }))
  ∧ (∀ n, op = .debit n → exec (.barrierUpdate i) s = .next (t.phased p.dst slot { b with pend := (b.pend + 2 ^ 56 - n % 2 ^ 56) % 2 ^ 56 }))
  ∧ (∀ a n item f, op = .mark a n item f →
      let m := b.failed.getD (a, n, item, f)
      exec (.barrierUpdate i) s = .next (b.waiters.foldl (fun u w => u.failWaiter w ⟨if m.2.2.2 then Eff.copyfault else Eff.copyfail, W m.2.1, W m.1, W (2 ^ m.2.2.1), false⟩)
        (t.putBar p.dst slot { b with failed := some m, waiters := [] }))) := by
  intro s i slot p op h hb t b lost
  have e := barUpdate_apply h hb
  have hbar : ((s.taken i).coreAt p.dst).bar slot = b := rfl
  refine ⟨fun d u ho hu ha hr => ?_, fun ho => ?_, fun n ho => ?_, fun ho => ?_, fun ph ho => ?_, fun ph ho => ?_, fun n ho => ?_, fun n ho => ?_, fun a n j f ho => ?_⟩
  all_goals (rw [e, ho]; unfold State.applyBar; dsimp only; (try rw [hbar]))
  · by_cases hm : b.memb < 65535
    · rw [if_pos hm] at hu
      rw [if_neg (Nat.not_le.2 hm), settle_phased, ← hu, answered ha hr, if_pos hm]; rfl
    · rw [if_neg hm] at hu
      rw [if_pos (Nat.not_lt.1 hm)]
      have hp : (u.slotBar p.dst slot).ph = b.ph := by
        subst hu
        show (Tab.get Bar.reset ((State.modCoreAt _ _ _).coreAt p.dst).bars slot).ph = _
        rw [State.coreAt_modCoreAt]; rfl
      rw [show (s.taken i).modCoreAt p.dst Core.dead = u from hu.symm, answered ha hr, if_neg hm, hp]
      unfold State.joined
      simp only [List.append_nil]; rfl
  · rw [settle_phased]; rfl
  · rfl
  · rw [arrive_arrived]
  · simp only [Bool.false_eq_true, if_false]; rw [register_registered]
  · simp only [if_true]; rw [arrive_arrived, register_registered]
  · rw [settle_phased]
  · rw [settle_phased]
  · rfl

theorem joinDecrement_rules :
    ∀ (s : State) (i : Nat) (j : JoinDec), s.net.joins[i]? = some j → s.outstanding j.act = false →
  let t := s.modNet (fun n => { n with joins := n.joins.eraseIdx i })
  (j.join = 0 → exec (.taskJoinDecrement i) s = .next t)
  ∧ (j.join ≠ 0 →
    (∀ r, s.locate j.pid j.ptroot j.sup .rmw j.join 8 true true = .error r → r.eff ≠ Eff.memerr → exec (.taskJoinDecrement i) s = .next (t.taskFailed j r.eff))
    ∧ ∀ h l, s.locate j.pid j.ptroot j.sup .rmw j.join 8 true true = .ok (h, l) →
      (∀ p off, h = .spad p off → s.marked p off 8 = false) → ((∀ p off, h ≠ .spad p off) → s.repOpen h 8 = false ∧ s.keyHeld h.key = false ∧ (s.homeLost h = true → s.homeDown h = true)) →
      (s.homeDown h = true ∨ s.homeBad h 8 = true → exec (.taskJoinDecrement i) s =
        .next ((t.taskFailed j Eff.memerr).logEvent .uncorrectable (2 + dieOf j.pid) j.join.toNat 0))
      ∧ (s.homeDown h = false → s.homeBad h 8 = false → s.canPut h 8 .other = true → exec (.taskJoinDecrement i) s = .next (t.put h (bytesOf 8 (natOf (s.homeBytes h 8) + 2 ^ 64 - 1)) .other))) := by
  intro s i j h1 h2 t
  have e : exec (.taskJoinDecrement i) s = .next (if s.outstanding j.act then s
      else if j.join = 0 then t
      else match s.locate j.pid j.ptroot j.sup .rmw j.join 8 true true with
        | .error r => t.joinFailed j r.eff
        | .ok (h, _) =>
          if s.counterHeld h then s
          else if s.homeDown h || s.homeBad h 8 then t.joinFailed j Eff.memerr
          else if !s.canPut h 8 .other then s.heldInstall h 8 .other
          else t.put h (bytesOf 8 (natOf (s.homeBytes h 8) + 2 ^ 64 - 1)) .other) := by
    show execTaskJoinDecrement i s = _
    unfold execTaskJoinDecrement
    rw [takeAt_getElem?, h1]; rfl
  rw [h2] at e
  simp only [Bool.false_eq_true, if_false] at e
  refine ⟨fun h3 => ?_, fun h3 => ⟨fun r hl hr => ?_, fun h l hl hs hk => ?_⟩⟩
  · rw [e, if_pos h3]
  · rw [e, if_neg h3, hl]
    show Host.Outcome.next (t.joinFailed j r.eff) = _
    unfold State.joinFailed
    dsimp only; rw [if_neg hr]; rfl
  · rw [if_neg h3, hl] at e
    have this0 : ∀ h : Home, s.counterHeld h = (s.repOpen h 8 || s.keyHeld h.key || (s.homeLost h && !s.homeDown h)) →
        s.repOpen h 8 = false ∧ s.keyHeld h.key = false ∧ (s.homeLost h = true → s.homeDown h = true) → s.counterHeld h = false := by
      intro h hc ht
      rw [hc, ht.1, ht.2.1, Bool.false_or, Bool.false_or]
      cases hx : s.homeLost h
      · rfl
      · rw [ht.2.2 hx]; rfl
    have hw : s.counterHeld h = false := by
      cases h with
      | spad p off => exact hs p off rfl
      | dev pa v rp dm => have := hk (fun _ _ hc => by cases hc); exact this0 _ rfl this
      | host pa => have := hk (fun _ _ hc => by cases hc); exact this0 _ rfl this
      | peer d pa =>
        have := hk (fun _ _ hc => by cases hc)
        exact this0 _ rfl this
      | regs o => have := hk (fun _ _ hc => by cases hc); exact this0 _ rfl this
    simp only [hw, Bool.false_eq_true, if_false] at e
    refine ⟨fun hb => ?_, fun hd hb hc => ?_⟩
    · rw [e, if_pos (by simpa using hb)]
      unfold State.joinFailed
      dsimp only; rw [if_pos rfl]; rfl
    · rw [e, hd, hb, hc]; rfl

end Sys2Proof.Machine
end

