-- ==== Sys2Proof/Laws/ContextFill.lean ====
section
/-! SUPPORT. A free context is filled from its sources in order. -/

set_option Elab.async false

namespace Sys2Proof.Machine

theorem begin_begins (old : Ctx) (b : Begin) (cx act time : Nat) :
    Begins (old.begin b cx act time) old b.launch cx b.lid b.pc b.g1 b.g2 b.g3 b.g4 b.task b.sup b.payload := by
  have hg : ∀ r : Reg, (old.begin b cx act time).g r = if r = 31 ∧ r ≠ 0 then b.launch.skhi cx - 576 else
      if r = 4 ∧ r ≠ 0 then b.g4 else if r = 3 ∧ r ≠ 0 then b.g3 else if r = 2 ∧ r ≠ 0 then b.g2 else if r = 1 ∧ r ≠ 0 then b.g1 else 0 := by
    intro r
    unfold Ctx.begin
    dsimp only
    rw [Ctx.g_setG, Ctx.g_setG, Ctx.g_setG, Ctx.g_setG, Ctx.g_setG]
    have : ∀ c : Ctx, c.regs = Regs.reset → c.g r = 0 := by
      intro c hc
      unfold Ctx.g Regs.getG; rw [hc]; split
      · rfl
      · unfold Regs.reset; simp
    rw [this _ rfl]
  have hs : ∀ n, (old.begin b cx act time).regs.setG n 0 = (old.begin b cx act time).regs.setG n 0 := fun _ => rfl
  refine ⟨rfl, rfl, ?_, ?_, ?_, ?_, ?_, ?_, ?_, ?_, ?_, ⟨rfl, rfl⟩, rfl, ⟨rfl, rfl⟩, rfl, ⟨rfl, rfl⟩, ⟨rfl, rfl, rfl⟩, rfl, rfl, rfl, rfl, ⟨rfl, rfl, rfl, rfl, rfl⟩, rfl⟩
  · rw [hg]; rfl
  · rw [hg]; rfl
  · rw [hg]; rfl
  · rw [hg]; rfl
  · intro r h1 h2
    rw [hg]
    have n : ∀ k : Nat, k < 32 → (k ≤ 4 ∨ k = 31) → r ≠ BitVec.ofNat 5 k := by
      intro k hk hk2 e
      rw [e, BitVec.toNat_ofNat, Nat.mod_eq_of_lt (by omega)] at h1 h2
      omega
    rw [if_neg (fun h => n 31 (by decide) (by decide) h.1), if_neg (fun h => n 4 (by decide) (by decide) h.1), if_neg (fun h => n 3 (by decide) (by decide) h.1),
      if_neg (fun h => n 2 (by decide) (by decide) h.1), if_neg (fun h => n 1 (by decide) (by decide) h.1)]
  · rw [hg]; rfl
  · intro r
    show (Vector.replicate 32 (0 : VWord))[r.toNat] = 0
    simp
  · intro r h
    unfold Regs.getP
    rw [if_neg h]
    show (Vector.replicate 8 (0 : Word))[r.toNat] = 0
    simp
  · unfold Ctx.begin
    dsimp only
    simp only [Ctx.setG, Regs.allPresent_setG]
    rfl

theorem selectable_iff (k : Core) (prio : Bool) (m : Msg) : k.selectable prio m = true ↔ k.selects prio m := by
  unfold Core.selectable Core.selects Core.stale
  dsimp only
  simp only [Bool.and_eq_true, Bool.not_eq_true', Bool.or_eq_false_iff, bne_eq_false_iff_eq, beq_iff_eq, Bool.not_eq_false']
  constructor
  · rintro ⟨⟨⟨⟨h1, h2⟩, h3⟩, h4⟩, h5⟩; exact ⟨h1, h2, h3, h4, h5⟩
  · rintro ⟨h1, h2, h3, h4, h5⟩; exact ⟨⟨⟨⟨h1, h2⟩, h3⟩, h4⟩, h5⟩

theorem find_map_range (f : Nat → Nat) (p : Nat → Bool) (n d : Nat) (hd : d < n) (h1 : p (f d) = true) (h2 : ∀ j < d, p (f j) = false) :
    ((List.range n).map f).find? p = some (f d) := by
  rw [List.find?_map]
  have : (List.range n).find? (p ∘ f) = some d := by
    rw [List.find?_range_eq_some]
    exact ⟨h1, by simpa using hd, fun j hj => by simp [h2 j hj]⟩
  rw [this]; rfl

theorem findIdx_first {α : Type} (p : α → Bool) (l : List α) (i : Nat) (a : α) (h : l[i]? = some a) (hp : p a = true)
    (hf : ∀ j x, j < i → l[j]? = some x → p x = false) : l.findIdx? p = some i := by
  induction l generalizing i with
  | nil => simp at h
  | cons b l ih =>
    rw [List.findIdx?_cons]
    cases i with
    | zero => simp at h; subst h; simp [hp]
    | succ i =>
      rw [hf 0 b (by omega) rfl]
      rw [ih i (by simpa using h) (fun j x hj hx => hf (j + 1) x (by omega) (by simpa using hx))]
      rfl

theorem Core.Chosen.choose {k : Core} {prio : Bool} {i : Nat} {m : Msg} (h : k.Chosen prio i m) : k.choose prio = some i := by
  unfold Core.choose
  dsimp only
  have hc := h.chan
  have hat : ∀ c, (k.pending.findIdx? (fun x => x.chan == c && k.selectable prio x)).isSome = true → ∃ x ∈ k.pending, x.chan = c ∧ k.selects prio x := by
    intro c hs
    rw [List.findIdx?_isSome] at hs
    obtain ⟨x, hx, hp⟩ := List.any_eq_true.1 hs
    simp only [Bool.and_eq_true, beq_iff_eq] at hp
    exact ⟨x, hx, hp.1, (selectable_iff _ _ _).1 hp.2⟩
  have hi : k.pending.findIdx? (fun x => x.chan == m.chan && k.selectable prio x) = some i := by
    apply findIdx_first _ _ i m h.here
    · simp [(selectable_iff k prio m).2 h.ok]
    · intro j x hj hx
      cases hp : (x.chan == m.chan && k.selectable prio x)
      · rfl
      · simp only [Bool.and_eq_true, beq_iff_eq] at hp
        exact absurd ((selectable_iff _ _ _).1 hp.2) (h.oldest j x hj hx hp.1)
  generalize hl : (if prio then k.last1 else k.last0) = last
  have htd : ∀ c, k.turn prio c = (c + 64 - (last + 1) % 64) % 64 := by intro c; unfold Core.turn; rw [hl]
  have e : (last + 1 + k.turn prio m.chan) % 64 = m.chan := by rw [htd]; omega
  rw [find_map_range (fun i => (last + 1 + i) % 64) _ 64 (k.turn prio m.chan) (by rw [htd]; omega)]
  · simp only [e, Option.bind_some]; exact hi
  · simp only [e, hi, Option.isSome_some]
  · intro j hj
    cases hs : (k.pending.findIdx? (fun x => x.chan == (last + 1 + j) % 64 && k.selectable prio x)).isSome
    · rfl
    · obtain ⟨x, hx, hxc, hxs⟩ := hat _ hs
      have := h.turn x hx (by omega) hxs
      rw [htd x.chan, hxc] at this
      rw [htd] at hj this
      omega

theorem choose_none {k : Core} {prio : Bool} (h : ∀ x ∈ k.pending, ¬ k.selects prio x) : k.choose prio = none := by
  unfold Core.choose
  dsimp only
  have : ∀ c, k.pending.findIdx? (fun x => x.chan == c && k.selectable prio x) = none := by
    intro c
    rw [List.findIdx?_eq_none_iff]
    intro x hx
    cases hs : k.selectable prio x
    · simp
    · exact absurd ((selectable_iff _ _ _).1 hs) (h x hx)
  simp [this]

theorem dropStale_none {s : State} {core : Nat} (h : s.noStale core) : s.dropStale core = s := by
  unfold State.dropStale
  dsimp only
  rw [List.filter_eq_nil_iff.2 (by intro m hm; rw [h m hm]; exact Bool.false_ne_true)]
  rfl

theorem start_coreAt (s : State) (p x q : Nat) (b : Begin) : (s.start p x b).coreAt q = s.coreAt q := rfl

theorem startMessage_took {s : State} {core cx i : Nat} {prio : Bool} {m : Msg} (h : (s.coreAt core).pending[i]? = some m) :
    s.tookMessage (s.startMessage core cx i prio) core cx i prio m := by
  unfold State.startMessage
  rw [takeAt_getElem?, h]
  simp only [Option.map_some]
  refine ⟨?_, ?_, ?_⟩
  · have : ((s.modCoreAt core (fun k => if prio then { k with pending := (s.coreAt core).pending.eraseIdx i, last1 := m.chan } else { k with pending := (s.coreAt core).pending.eraseIdx i, last0 := m.chan })).start core cx (s.beginMessage core m)).ctxAt core cx
        = (s.ctxAt core cx).begin (s.beginMessage core m) cx s.nextAct s.time := by
      show (State.setCtxAt _ core cx _).ctxAt core cx = _
      rw [State.ctxAt_setCtxAt]; rfl
    rw [this]
    exact begin_begins _ _ _ _ _
  · rw [start_coreAt, State.coreAt_modCoreAt]
  · intro q c hq
    show (State.setCtxAt _ core cx _).ctxAt q c = _
    rw [State.ctxAt_setCtxAt_ne _ _ hq]; rfl

theorem freeLow_of {s : State} {core cx : Nat} (h : s.lowestFree core cx) : s.freeLow core = some cx := by
  obtain ⟨h1, h2, h3⟩ := h
  unfold State.freeLow
  have n : ∀ y < cx, s.vacant core y = false := h3
  match cx, h1 with
  | 0, _ => simp [List.find?, h2]
  | 1, _ => simp [List.find?, h2, n 0 (by omega)]
  | 2, _ => simp [List.find?, h2, n 0 (by omega), n 1 (by omega)]
  | 3, _ => simp [List.find?, h2, n 0 (by omega), n 1 (by omega), n 2 (by omega)]

theorem spillTasks_spec (p : Nat) : ∀ (l : List Task) (s : State) (k : Nat), (s.spillTasks p k l).cores = s.cores ∧ (s.spillTasks p k l).ctxs = s.ctxs := by
  intro l
  induction l with
  | nil => intro s k; exact ⟨rfl, rfl⟩
  | cons t l ih =>
    intro s k
    unfold State.spillTasks
    dsimp only
    cases s.launch? t.launch with
    | none => exact ih s _
    | some x =>
      have := ih (s.wr (spadKey p (x.dequeSlot k)) (wordsBytes t.words)) (k + 1)
      rwa [State.wr_cores, State.wr_ctxs] at this

theorem setDeque_ctxAt (s : State) (p q c : Nat) (l : List Task) : (s.setDeque p l).ctxAt q c = s.ctxAt q c := by
  unfold State.ctxAt State.setDeque
  rw [(spillTasks_spec p _ _ _).2]; rfl

theorem setDeque_coreAt (s : State) (p q : Nat) (l : List Task) : (s.setDeque p l).coreAt q = (s.modCoreAt p (fun k => { k with deque := l })).coreAt q := by
  unfold State.coreAt State.setDeque
  rw [(spillTasks_spec p _ _ _).1]

theorem start_begins (s : State) (core cx : Nat) (f : Core → Core) (b : Begin) :
    Begins (((s.modCoreAt core f).start core cx b).ctxAt core cx) (s.ctxAt core cx) b.launch cx b.lid b.pc b.g1 b.g2 b.g3 b.g4 b.task b.sup b.payload
    ∧ ((s.modCoreAt core f).start core cx b).coreAt core = f (s.coreAt core)
    ∧ ∀ q c, ctxKey q c ≠ ctxKey core cx → ((s.modCoreAt core f).start core cx b).ctxAt q c = s.ctxAt q c := by
  refine ⟨?_, ?_, ?_⟩
  · have : ((s.modCoreAt core f).start core cx b).ctxAt core cx = (s.ctxAt core cx).begin b cx s.nextAct s.time := by
      show (State.setCtxAt _ core cx _).ctxAt core cx = _
      rw [State.ctxAt_setCtxAt]; rfl
    rw [this]; exact begin_begins _ _ _ _ _
  · rw [start_coreAt, State.coreAt_modCoreAt]
  · intro q c hq
    show (State.setCtxAt _ core cx _).ctxAt q c = _
    rw [State.ctxAt_setCtxAt_ne _ _ hq]; rfl

theorem fill_apply {s : State} {core cx : Nat} (h : s.noStale core) (hf : s.lowestFree core cx) :
    exec (.contextFill core) s = .next ((s.fillFrom core cx).getD s) := by
  show execContextFill core s = _
  unfold execContextFill
  dsimp only
  rw [dropStale_none h, freeLow_of hf]

theorem find_none_of {s : State} {core : Nat} (h : ∀ v ∈ s.saved, s.restorable core v = false) : s.saved.find? (fun v => s.restorable core v) = none := by
  rw [List.find?_eq_none]; intro v hv; rw [h v hv]; exact Bool.false_ne_true

theorem shOpen_of {s : State} {core : Nat} (h1 : s.vacant core 4 = true) (h2 : ∀ y < 4, (s.ctxAt core y).masked s.time = false) : s.shOpen core = true := by
  unfold State.shOpen
  rw [h1]
  simp [h2]

/-- 01 R27; 08 R200, R201, R204, R207. -/
theorem fill_rules :
    ∀ (s : State) (core : Nat), s.noStale core →
  -- SH, by a priority-1 message
  (∀ i m, s.vacant core 4 = true → (∀ y < 4, (s.ctxAt core y).masked s.time = false) → (s.coreAt core).Chosen true i m →
    ∃ t, exec (.priority1Entry core) s = .next t ∧ exec (.messageSelection core) s = .next t ∧ s.tookMessage t core 4 i true m)
  -- a low context, in the order of its sources
  ∧ ∀ cx, s.lowestFree core cx →
    (∀ v, s.saved.find? (fun v => s.restorable core v) = some v →
      ∀ c, c = (match v.hid.run with
        | .parked p => (v.hid.ofImage (s.rdWs v.home 512)).wake p
        | _ => v.hid.ofImage (s.rdWs v.home 512)) →
      exec (.contextFill core) s = .next ({ s with saved := s.saved.filter (fun x => x.home != v.home) }.setCtxAt core cx
        { c with starts := laterCount (s.ctxAt core cx).starts c.epoch }))
    ∧ ((∀ v ∈ s.saved, s.restorable core v = false) →
      (∀ x l, (s.coreAt core).starts = x :: l → ∃ t, exec (.contextFill core) s = .next t
        ∧ Begins (t.ctxAt core cx) (s.ctxAt core cx) (s.launchOr x.launch) cx x.lid (s.launchOr x.launch).entry (W (s.launchOr x.launch).id) (W x.lid) x.addr
            (s.launchOr x.launch).arg 0 (s.launchOr x.launch).privl []
        ∧ t.coreAt core = { s.coreAt core with starts := l } ∧ ∀ q c, ctxKey q c ≠ ctxKey core cx → t.ctxAt q c = s.ctxAt q c)
      ∧ ((s.coreAt core).starts = [] →
        (∀ i m, (s.coreAt core).Chosen false i m → ∃ t, exec (.contextFill core) s = .next t ∧ s.tookMessage t core cx i false m)
        ∧ (∀ i m, (s.coreAt core).Chosen false i m → (∀ x ∈ (s.coreAt core).pending, ¬ (s.coreAt core).selects true x) →
            ∃ t, exec (.messageSelection core) s = .next t ∧ s.tookMessage t core cx i false m)
        ∧ ((∀ x ∈ (s.coreAt core).pending, ¬ (s.coreAt core).selects false x) →
          (∀ k l, (s.coreAt core).deque = k :: l → ∃ t, exec (.contextFill core) s = .next t
            ∧ Begins (t.ctxAt core cx) (s.ctxAt core cx) (s.launchOr k.launch) cx ((s.launchOr k.launch).lowestLid core) k.pc (W k.id) k.arg0 k.arg1 (W k.path) (W k.id) false []
            ∧ t.coreAt core = { s.coreAt core with deque := l } ∧ ∀ q c, ctxKey q c ≠ ctxKey core cx → t.ctxAt q c = s.ctxAt q c)
          ∧ ((s.coreAt core).deque = [] → exec (.contextFill core) s = .next s)))) := by
  intro s core hs
  refine ⟨fun i m h1 h2 h3 => ⟨s.startMessage core 4 i true, ?_, ?_, startMessage_took h3.here⟩, fun cx hf => ⟨fun v hv c hcc => ?_, fun hv => ⟨fun x l hx => ?_, fun hx => ⟨fun i m hc => ?_, fun i m hc hn => ?_, fun hn => ⟨fun k l hd => ?_, fun hd => ?_⟩⟩⟩⟩⟩
  · show execPriority1Entry core s = _
    unfold execPriority1Entry State.enterSh
    dsimp only
    rw [dropStale_none hs, shOpen_of h1 h2, h3.choose]; rfl
  · show execMessageSelection core s = _
    unfold execMessageSelection
    dsimp only
    rw [dropStale_none hs, shOpen_of h1 h2, h3.choose]
    simp only [Option.isSome_some, Bool.and_true, if_true]
    unfold State.enterSh
    dsimp only
    rw [dropStale_none hs, shOpen_of h1 h2, h3.choose]; rfl
  · rw [fill_apply hs hf]; unfold State.fillFrom; dsimp only; rw [hv, hcc]; rfl
  · refine ⟨(s.modCoreAt core (fun k => { k with starts := l })).start core cx (s.beginLaunch x), ?_, start_begins s core cx _ _⟩
    rw [fill_apply hs hf]; unfold State.fillFrom; dsimp only; rw [find_none_of hv, hx]; rfl
  · refine ⟨_, ?_, startMessage_took hc.here⟩
    rw [fill_apply hs hf]; unfold State.fillFrom; dsimp only; rw [find_none_of hv, hx]
    simp only []
    rw [hc.choose]; rfl
  · refine ⟨_, ?_, startMessage_took hc.here⟩
    show execMessageSelection core s = _
    unfold execMessageSelection
    dsimp only
    rw [dropStale_none hs, choose_none hn, freeLow_of hf, hc.choose, hx]
    simp only [Option.isSome_none, Bool.and_false, Bool.false_eq_true, if_false]
    rw [if_pos]
    have : s.saved.any (fun v => s.restorable core v) = false := by rw [List.any_eq_false]; intro v hm; rw [hv v hm]; exact Bool.false_ne_true
    rw [this]; rfl
  · have hk : ∀ q, (s.setDeque core l).coreAt q = (s.modCoreAt core (fun k => { k with deque := l })).coreAt q := fun q => setDeque_coreAt s core q l
    refine ⟨(s.setDeque core l).start core cx (s.beginTask core k), ?a, ?_, by rw [start_coreAt, hk, State.coreAt_modCoreAt], fun q c hq => ?_⟩
    case a => rw [fill_apply hs hf]; unfold State.fillFrom; dsimp only; rw [find_none_of hv, hx]; simp only []; rw [choose_none hn, hd]; rfl
    · have : ((s.setDeque core l).start core cx (s.beginTask core k)).ctxAt core cx = ((s.setDeque core l).ctxAt core cx).begin (s.beginTask core k) cx (s.setDeque core l).nextAct (s.setDeque core l).time := by
        show (State.setCtxAt _ core cx _).ctxAt core cx = _
        rw [State.ctxAt_setCtxAt]
      rw [this, setDeque_ctxAt]
      exact begin_begins _ _ _ _ _
    · show (State.setCtxAt _ core cx _).ctxAt q c = _
      rw [State.ctxAt_setCtxAt_ne _ _ hq]
      exact setDeque_ctxAt s core q c l
  · rw [fill_apply hs hf]; unfold State.fillFrom; dsimp only; rw [find_none_of hv, hx]
    simp only []
    rw [choose_none hn, hd]; rfl

end Sys2Proof.Machine
end

