-- ==== Sys2Proof/Laws/Waking.lean ====
section
/-! SUPPORT. Waits that end, spills and restores. -/

set_option Elab.async false

namespace Sys2Proof.Machine

theorem waitEnds_over {s : State} {core cx : Nat} {bare : Bool} {w : Wait} (h : s.waitEnds core cx bare w) : s.waitOver core cx w = true ∧ w.bare = bare := by
  cases h with
  | presence => exact ⟨rfl, rfl⟩
  | qFull q h => exact ⟨by simp [State.waitOver, h], rfl⟩
  | mboxRead m h => exact ⟨h, rfl⟩
  | mbox m h => exact ⟨h, rfl⟩
  | seen => exact ⟨rfl, rfl⟩
  | register l h1 h2 => exact ⟨decide_eq_true ⟨h1, h2⟩, rfl⟩
  | version l g h1 h2 => exact ⟨by simp [State.waitOver, h1, h2], rfl⟩
  | tile n h1 h2 h3 => exact ⟨by simp only [State.waitOver, decide_eq_true_eq]; omega, rfl⟩
  | markGone ch c g d h => exact ⟨by simp [State.waitOver, h], rfl⟩
  | mark ch c g d h => exact ⟨by simp [State.waitOver, h], rfl⟩
  | answered d v => exact ⟨rfl, rfl⟩
  | image k h => exact ⟨by simp [State.waitOver, h], rfl⟩
  | translations n m k a va g h => exact ⟨by simp [State.waitOver, h], rfl⟩
  | again w h => rcases h with ⟨off, rfl⟩ | rfl | rfl <;> exact ⟨rfl, rfl⟩

theorem mayGoOn_cleared {s : State} {core cx : Nat} {w : Wait} (h : s.mayGoOn core cx w) : s.cleared core cx w = true := by
  obtain ⟨bare, h1, h2⟩ := h
  obtain ⟨h3, h4⟩ := waitEnds_over h1
  unfold State.cleared
  rw [h3, h4, Bool.true_and, Bool.or_eq_true]; exact h2

/-- A context in IDLE, counted or of 0 cycles (05 R132). -/
def Run.inIdle (r : Run) : Prop := (∃ t, r = .parked (.idle t)) ∨ ∃ t, r = .parked (.idleTurn t)

theorem wakeIdle_run (s : State) (core cx : Nat) (hc : cx < 4) (h : (s.ctxAt core cx).run.inIdle) :
    ((s.wakeIdle core).ctxAt core cx).run = .parked (.idle s.time) := by
  let step : State → Nat → State := fun s cx => match (s.ctxAt core cx).run with
    | .parked (.idle _) => s.modCtxAt core cx (fun c => { c with run := .parked (.idle s.time) })
    | .parked (.idleTurn _) => s.modCtxAt core cx (fun c => { c with run := .parked (.idle s.time) })
    | _ => s
  have key : ∀ (l : List Nat) (u : State), u.time = s.time → (∀ y ∈ l, y < 8) → (u.ctxAt core cx).run.inIdle →
      (cx ∈ l ∨ (u.ctxAt core cx).run = .parked (.idle s.time)) → ((l.foldl step u).ctxAt core cx).run = .parked (.idle s.time) := by
    intro l
    induction l with
    | nil => intro u _ _ _ hm; rcases hm with hm | hm; exact absurd hm (by simp); exact hm
    | cons y l ih =>
      intro u ht hl he hm
      rw [List.foldl_cons]
      have hone : (step u y).time = s.time ∧ ((step u y).ctxAt core cx).run.inIdle ∧ (cx ∈ l ∨ ((step u y).ctxAt core cx).run = .parked (.idle s.time)) := by
        by_cases hy : y = cx
        · subst hy
          have hu : step u y = u.modCtxAt core y (fun c => { c with run := .parked (.idle u.time) }) := by
            rcases he with ⟨t, e⟩ | ⟨t, e⟩ <;> (show (match (u.ctxAt core y).run with | .parked (.idle _) => _ | .parked (.idleTurn _) => _ | _ => _) = _; rw [e])
          rw [hu]
          exact ⟨ht, .inl ⟨u.time, by rw [State.ctxAt_modCtxAt]⟩, .inr (by rw [State.ctxAt_modCtxAt, ht])⟩
        · have hne : (step u y).ctxAt core cx = u.ctxAt core cx := by
            have hk : ∀ f, (u.modCtxAt core y f).ctxAt core cx = u.ctxAt core cx := fun f =>
              State.ctxAt_modCtxAt_ne u f (by unfold ctxKey; have := hl y (by simp); omega)
            show (State.ctxAt (match (u.ctxAt core y).run with | .parked (.idle _) => _ | .parked (.idleTurn _) => _ | _ => _) core cx) = _
            split <;> first | exact hk _ | rfl
          have htm : (step u y).time = s.time := by
            show State.time (match (u.ctxAt core y).run with | .parked (.idle _) => _ | .parked (.idleTurn _) => _ | _ => _) = _
            split <;> exact ht
          rw [hne]
          refine ⟨htm, he, ?_⟩
          rcases hm with hm | hm
          · rcases List.mem_cons.1 hm with h | h
            · exact absurd h.symm hy
            · exact .inl h
          · exact .inr hm
      exact ih _ hone.1 (fun y hy => hl y (by simp [hy])) hone.2.1 hone.2.2
  exact key [0, 1, 2, 3] s rfl (by decide) h (.inl (by simp; omega))

theorem othersRun_none {s : State} {core cx : Nat} (h : ∀ n < 4, n ≠ cx → (s.ctxAt core n).run ≠ .runnable) : s.othersRun core cx = false := by
  unfold State.othersRun
  rw [List.any_eq_false]
  intro n hn hc
  rw [Bool.and_eq_true, bne_iff_ne, beq_iff_eq] at hc
  exact h n (by simp at hn; omega) hc.1 hc.2

theorem waits_rules :
    (∀ (s : State) (core cx : Nat) (w : Wait), (s.ctxAt core cx).run = .parked w → s.mayGoOn core cx w →
    (w ≠ .seen → (∀ d v, w ≠ .wmEnd d v) → (∀ n m k a va g, w ≠ .tlbi n m k a va g) →
      exec (.contextWake core cx) s = .next (s.modCtxAt core cx (fun c => { c with run := .runnable })))
    -- WAITM and TLBI complete, the latter with its invalidation (09 R251, 21 R414)
    ∧ (w = .seen → exec (.contextWake core cx) s = .next (s.modCtxAt core cx (fun c => { c with pc := c.pc + 4, run := .runnable })))
    ∧ (∀ n m k a va g, w = .tlbi n m k a va g →
      exec (.contextWake core cx) s = .next ((s.tlbInvalid core k a va g).modCtxAt core cx (fun c => { c with pc := c.pc + 4, run := .runnable }))))
  ∧ (∀ (s : State) (core cx : Nat) (d : Reg) (v : Word), (s.ctxAt core cx).run = .parked (.wmEnd d v) →
    exec (.contextWake core cx) s = .next (s.modCtxAt core cx (fun c => { c.setG d v with pc := c.pc + 4, run := .runnable })))
  ∧ (∀ (s : State) (line : Nat), line ∈ s.net.dirty → ∃ t, exec (.watchWake line) s = .next t
    ∧ (∀ p x, t.ctxAt p x = (s.ctxAt p x).looksAgain line) ∧ t.saved = s.saved.map (fun v => { v with hid := v.hid.looksAgain line })
    ∧ line ∉ t.net.dirty ∧ (∀ l, l ≠ line → (l ∈ t.net.dirty ↔ l ∈ s.net.dirty)) ∧ t.cores = s.cores ∧ t.mem = s.mem ∧ t.sys = s.sys
    ∧ t.net.pkts = s.net.pkts ∧ t.net.reqs = s.net.reqs)
  ∧ (∀ (s : State) (core cx : Nat), cx < 4 → cx ≠ (s.coreAt core).cur → (s.ctxAt core cx).run = .runnable → (∀ w, (s.ctxAt core (s.coreAt core).cur).run ≠ .stalled w) →
    Tab.get 0 (s.coreAt core).issued cx + 64 * Config.coreTicks core ≤ s.time → (s.ctxAt core cx).since + 64 * Config.coreTicks core ≤ s.time →
    exec (.fairnessBoundary core cx) s = .next (s.modCoreAt core (fun k => { k with cur := cx })))
  ∧ (∀ (s : State) (core cx t : Nat), (s.ctxAt core cx).run = .parked (.idle t) →
    (t ≤ s.time → exec (.idleExpiry core cx) s = .next (s.modCtxAt core cx (fun c => { c with run := .runnable })))
    ∧ (s.time < t → exec (.idleExpiry core cx) s = .next s)
    ∧ (cx < 4 → ((s.wakeIdle core).ctxAt core cx).run = .parked (.idle s.time)))
  -- an IDLE of 0 cycles (05 R132)
  ∧ (∀ (s : State) (core cx t : Nat), (s.ctxAt core cx).run = .parked (.idleTurn t) →
    ((∃ n < 4, n ≠ cx ∧ (s.ctxAt core n).run.passed = true ∧ t < Tab.get 0 (s.coreAt core).issued n
        ∧ Tab.get 0 (s.coreAt core).issued n + Config.coreTicks core ≤ s.time)
      ∨ (t + Config.coreTicks core ≤ s.time ∧ ∀ n < 4, n ≠ cx → (s.ctxAt core n).run ≠ .runnable) →
      exec (.idleExpiry core cx) s = .next (s.modCtxAt core cx (fun c => { c with run := .runnable })))
    ∧ (s.time < t + Config.coreTicks core → (∀ n < 4, n ≠ cx → s.time < Tab.get 0 (s.coreAt core).issued n + Config.coreTicks core) →
      exec (.idleExpiry core cx) s = .next s)
    ∧ (cx < 4 → ((s.wakeIdle core).ctxAt core cx).run = .parked (.idle s.time)))
  ∧ (∀ (s : State) (core cx t : Nat), (s.ctxAt core cx).hmask = some t → t ≤ s.time →
    exec (.hmaskTimeout core cx) s = .next (s.modCtxAt core cx (fun c => { c with hmask := none }))) := by
  refine ⟨fun s core cx w hr hw => ?_, fun s core cx d v hr => ?_, fun s line hl => ?_, fun s core cx hc hne hr hs hi hi2 => ?_,
    fun s core cx t hr => ⟨fun ht => ?_, fun ht => ?_, fun hc => wakeIdle_run s core cx hc (.inl ⟨t, hr⟩)⟩,
    fun s core cx t hr => ⟨fun ht => ?_, fun ht hn => ?_, fun hc => wakeIdle_run s core cx hc (.inr ⟨t, hr⟩)⟩, fun s core cx t hm ht => ?_⟩
  · have e : exec (.contextWake core cx) s = .next ((s.pay core w).modCtxAt core cx (fun c => c.wake w)) := by
      show execContextWake core cx s = _
      unfold execContextWake
      rw [hr]
      simp only []
      rw [if_pos (mayGoOn_cleared hw)]
    rw [e]
    refine ⟨fun h1 h2 h3 => ?_, fun h => by subst h; rfl, fun n m k a va g h => by subst h; rfl⟩
    cases w <;> first | rfl | exact absurd rfl h1 | exact absurd rfl (h2 _ _) | exact absurd rfl (h3 _ _ _ _ _ _)
  · show execContextWake core cx s = _
    unfold execContextWake
    rw [hr]; rfl
  · refine ⟨{ s with ctxs := s.ctxs.map (fun e => (e.1, e.2.looksAgain line)), saved := s.saved.map (fun v => { v with hid := v.hid.looksAgain line })
                     net := { s.net with dirty := s.net.dirty.filter (fun l => l != line) } }, ?_, ?_, rfl, ?_, ?_, rfl, rfl, rfl, rfl, rfl⟩
    · show execWatchWake line s = _
      unfold execWatchWake
      dsimp only
      rw [if_pos (by simpa using hl)]
      rfl
    · intro p x
      exact get_map Ctx.reset s.ctxs (fun _ c => c.looksAgain line) (fun _ => rfl) (ctxKey p x)
    · simp
    · intro l hne
      simp [hne]
  · show execFairnessBoundary core cx s = _
    unfold execFairnessBoundary
    rw [if_pos]
    unfold State.starved
    dsimp only
    have hm : max (Tab.get 0 (s.coreAt core).issued cx) (s.ctxAt core cx).since + 64 * Config.coreTicks core ≤ s.time := by
      rcases Nat.le_total (Tab.get 0 (s.coreAt core).issued cx) (s.ctxAt core cx).since with h | h
      · rw [Nat.max_eq_right h]; exact hi2
      · rw [Nat.max_eq_left h]; exact hi
    cases h : (s.ctxAt core (s.coreAt core).cur).run with
    | stalled w => exact absurd h (hs w)
    | _ => simp [hr, hc, hne, hm]
  · show execIdleExpiry core cx s = _
    unfold execIdleExpiry
    rw [hr]; simp only []
    rw [if_pos ht]
  · show execIdleExpiry core cx s = _
    unfold execIdleExpiry
    rw [hr]; simp only []
    rw [if_neg (by omega)]
  · show execIdleExpiry core cx s = _
    unfold execIdleExpiry
    rw [hr]; simp only []
    rw [if_pos]
    rw [Bool.or_eq_true, Bool.and_eq_true]
    rcases ht with ⟨n, h1, h2, h3, h4, h5⟩ | ⟨h1, h2⟩
    · left
      unfold State.othersIssued
      rw [List.any_eq_true]
      refine ⟨n, by simp; omega, ?_⟩
      rw [Bool.and_eq_true, Bool.and_eq_true, bne_iff_ne, decide_eq_true_iff]
      exact ⟨⟨h2, h3⟩, h4, h5⟩
    · right
      rw [othersRun_none h2]
      exact ⟨decide_eq_true h1, rfl⟩
  · show execIdleExpiry core cx s = _
    unfold execIdleExpiry
    rw [hr]; simp only []
    rw [if_neg]
    rw [Bool.or_eq_true, Bool.and_eq_true, decide_eq_true_iff]
    rintro (h | h)
    · unfold State.othersIssued at h
      rw [List.any_eq_true] at h
      obtain ⟨n, h1, h2⟩ := h
      rw [Bool.and_eq_true, Bool.and_eq_true, bne_iff_ne, decide_eq_true_iff] at h2
      have := hn n (by simp at h1; omega) h2.1.1
      omega
    · omega
  · show execHmaskTimeout core cx s = _
    unfold execHmaskTimeout
    rw [hm]; simp only []
    rw [if_pos ht]

theorem waiting_of {c : Ctx} (h : c.waits) : c.waiting = true := by
  unfold Ctx.waiting
  rcases h with ⟨l, h⟩ | ⟨m, h⟩ | h | h | ⟨l, g, h⟩ <;> rw [h] <;> rfl

theorem longest {f : Nat → Nat} {cx : Nat} (hc : cx < 4) (h1 : ∀ y < cx, f cx < f y) (h2 : ∀ y < 4, f cx ≤ f y) :
    [1, 2, 3].foldl (fun b n => if f n < f b then n else b) 0 = cx := by
  have e0 := h2 0 (by omega); have e1 := h2 1 (by omega); have e2 := h2 2 (by omega); have e3 := h2 3 (by omega)
  simp only [List.foldl_cons, List.foldl_nil]
  match cx, hc with
  | 0, _ => repeat' (first | rfl | (split <;> try omega))
  | 1, _ => have := h1 0 (by omega); repeat' (first | rfl | (split <;> try omega))
  | 2, _ => have := h1 0 (by omega); have := h1 1 (by omega); repeat' (first | rfl | (split <;> try omega))
  | 3, _ => have := h1 0 (by omega); have := h1 1 (by omega); have := h1 2 (by omega); repeat' (first | rfl | (split <;> try omega))

theorem rdWs_getD (s : State) (k n i : Nat) (h : i < n) : (s.rdWs k n).getD i 0 = s.rdW (k + 8 * i) := by
  unfold State.rdWs
  rw [List.getD_eq_getElem?_getD, List.getElem?_map, List.getElem?_range h]; rfl

theorem spillOut_spec (s : State) (p x n h : Nat) :
    (s.spillOut p x n h).saved = s.saved ++ [⟨h, p, x, some n, { s.ctxAt p x with preemptAt := none }, s.stepNo⟩]
    ∧ (s.spillOut p x n h).ctxAt p x = (s.ctxAt p x).freed ∧ ((s.spillOut p x n h).ctxAt p x).run = .free
    ∧ (∀ q y, ctxKey q y ≠ ctxKey p x → (s.spillOut p x n h).ctxAt q y = s.ctxAt q y)
    ∧ (s.spillOut p x n h).mem = (s.wr h ((s.ctxAt p x).image p x s.time ((s.ctxAt p x).spillRecord x) (s.ctxAt p x).num.flags (s.outstanding (s.ctxAt p x).act))).mem
    ∧ (s.spillOut p x n h).coreAt p = { s.coreAt p with rq := setBit (s.coreAt p).rq x false } ∧ ∀ q, q ≠ p → (s.spillOut p x n h).coreAt q = s.coreAt q := by
  unfold State.spillOut
  dsimp only
  generalize (s.ctxAt p x).image p x s.time ((s.ctxAt p x).spillRecord x) (s.ctxAt p x).num.flags (s.outstanding (s.ctxAt p x).act) = im
  have e : ∀ (u : State) (l : List Saved) (f : Core → Core) (q y : Nat), ({ u.modCoreAt p f with saved := l } : State).ctxAt q y = u.ctxAt q y := fun _ _ _ _ _ => rfl
  have e2 : ∀ (u : State) (l : List Saved) (q : Nat), ({ u with saved := l } : State).coreAt q = u.coreAt q := fun _ _ _ => rfl
  refine ⟨rfl, ?_, ?_, ?_, rfl, ?_, ?_⟩
  · rw [e, State.ctxAt_setCtxAt]
  · rw [e, State.ctxAt_setCtxAt]; rfl
  · intro q y hq; rw [e, State.ctxAt_setCtxAt_ne _ _ hq]; rfl
  · rw [e2, State.coreAt_modCoreAt]; rfl
  · intro q hq; rw [e2, coreAt_modCoreAt_ne _ _ hq]; rfl

theorem spill_rules_out : ∀ (s : State) (core cx n : Nat), cx < 4 → (∀ y < 4, (s.ctxAt core y).waits) → (s.coreAt core).deque ≠ [] →
    (∀ y < cx, (s.ctxAt core cx).since < (s.ctxAt core y).since) → (∀ y < 4, (s.ctxAt core cx).since ≤ (s.ctxAt core y).since) →
    (s.ctxAt core cx).regs.allPresent = true → s.ownReqs (s.ctxAt core cx).act = false →
    let x := s.ctxAt core cx
    let l := s.launchOr x.ident.launch.toNat
    n < l.cspl → (∀ v ∈ s.saved, v.pid = core → v.slot ≠ none → v.home ≠ spadKey core (l.spillSlot n)) →
    (∀ k < n, ∃ v ∈ s.saved, v.pid = core ∧ v.slot ≠ none ∧ v.home = spadKey core (l.spillSlot k)) →
    ∃ t, exec (.contextSpill core) s = .next t ∧ t.saved = s.saved ++ [⟨spadKey core (l.spillSlot n), core, cx, some n, { x with preemptAt := none }, s.stepNo⟩]
      ∧ t.ctxAt core cx = x.freed ∧ (t.ctxAt core cx).run = .free ∧ (∀ q y, ctxKey q y ≠ ctxKey core cx → t.ctxAt q y = s.ctxAt q y)
      ∧ t.mem = (s.wr (spadKey core (l.spillSlot n)) (x.image core cx s.time (x.spillRecord cx) x.num.flags (s.outstanding x.act))).mem
      ∧ t.coreAt core = { s.coreAt core with rq := setBit (s.coreAt core).rq cx false } ∧ ∀ q, q ≠ core → t.coreAt q = s.coreAt q := by
  intro s core cx n hc hw hd h1 h2 hp hro x l hn hfree hbusy
  have hslot : s.spillFree core l = some n := by
    unfold State.spillFree
    rw [List.find?_range_eq_some]
    refine ⟨?_, by simpa using hn, fun k hk => ?_⟩
    · simp only [Bool.not_eq_true', List.any_eq_false, Bool.and_eq_true, beq_iff_eq]
      rintro v hv ⟨⟨ha, hb⟩, hh⟩
      exact hfree v hv ha (by intro e; rw [e] at hb; exact Bool.false_ne_true hb) hh
    · obtain ⟨v, hv, ha, hb, hh⟩ := hbusy k hk
      simp only [Bool.not_eq_true', Bool.not_eq_false', List.any_eq_true, Bool.and_eq_true, beq_iff_eq]
      refine ⟨v, hv, ⟨ha, ?_⟩, hh⟩
      cases hs : v.slot with
      | none => exact absurd hs hb
      | some _ => rfl
  have hcx : [1, 2, 3].foldl (fun b n => if (s.ctxAt core n).since < (s.ctxAt core b).since then n else b) 0 = cx :=
    longest (f := fun y => (s.ctxAt core y).since) hc h1 h2
  have e : exec (.contextSpill core) s = .next (s.spillOut core cx n (spadKey core (l.spillSlot n))) := by
    show execContextSpill core s = _
    unfold execContextSpill
    dsimp only
    rw [if_pos, hcx, hslot]
    · simp only []
      rw [hp, hro]; rfl
    · simp [waiting_of (hw 0 (by omega)), waiting_of (hw 1 (by omega)), waiting_of (hw 2 (by omega)), waiting_of (hw 3 (by omega)), hd]
  exact ⟨_, e, spillOut_spec s core cx n (spadKey core (l.spillSlot n))⟩

theorem wake_waiting {w : Wait} (h : w.waiting = true) (c : Ctx) : (c.wake w).run = .runnable ∧ (c.wake w).pc = c.pc + (if w = .seen then 4 else 0)
    ∧ (c.wake w).regs = c.regs := by
  have h0 : c.pc = c.pc + 0 := (BitVec.add_zero c.pc).symm
  cases w <;> simp only [Wait.waiting, Bool.false_eq_true] at h <;> refine ⟨rfl, ?_, rfl⟩ <;> first | exact h0 | rfl

theorem spill_rules_in : ∀ (s : State) (core cx n : Nat) (v : Saved), s.lowestFree core cx → v ∈ s.saved → v.slot = some n → v.pid = core →
    (∀ u ∈ s.saved, u.slot = some n → u.pid = core → u = v) →
    (v.hid.run = .runnable ∨ ∃ w bare, v.hid.run = .parked w ∧ w.waiting = true ∧ s.waitEnds core v.cx bare w) → s.outstanding v.hid.act = false →
    ∃ t, exec (.spillRestore core n) s = .next t ∧ t.saved = s.saved.filter (fun x => x.home != v.home)
      ∧ (t.ctxAt core cx).starts = laterCount (s.ctxAt core cx).starts (t.ctxAt core cx).epoch
      ∧ (t.ctxAt core cx).run = .runnable ∧ (t.ctxAt core cx).pc = s.rdW (v.home + 0x108) + (if v.hid.run = .parked .seen then 4 else 0)
      ∧ (∀ i : Reg, 1 ≤ i.toNat → i.toNat ≤ 30 → (t.ctxAt core cx).g i = s.rdW (v.home + 8 * (39 + i.toNat)))
      ∧ (∀ q y, ctxKey q y ≠ ctxKey core cx → t.ctxAt q y = s.ctxAt q y) ∧ t.mem = s.mem ∧ t.cores = s.cores := by
  intro s core cx n v hf hv hs hp hu hw hout
  have hr : s.restorable core v = true := by
    unfold State.restorable
    rw [hp, hs]
    rw [hout]
    simp only [BEq.rfl, Option.isSome_some, Bool.true_and, Bool.not_false]
    rcases hw with h | ⟨w, bare, h, -, hw⟩
    · rw [h]
    · rw [h]; exact (waitEnds_over hw).1
  have hfind : s.saved.find? (fun u => u.slot == some n && s.restorable core u) = some v := by
    cases hx : s.saved.find? (fun u => u.slot == some n && s.restorable core u) with
    | none =>
      rw [List.find?_eq_none] at hx
      exact absurd (by simp [hs, hr]) (hx v hv)
    | some u =>
      have h1 := List.find?_some hx
      have h2 := List.mem_of_find?_eq_some hx
      simp only [Bool.and_eq_true, beq_iff_eq] at h1
      have h3 : u.pid = core := by
        have := h1.2; unfold State.restorable at this
        simp only [Bool.and_eq_true, beq_iff_eq] at this
        exact this.1.1.1
      rw [hu u h2 h1.1 h3]
  have e : exec (.spillRestore core n) s = .next (s.restoreSpill core cx v) := by
    show execSpillRestore core n s = _
    unfold execSpillRestore
    rw [freeLow_of hf, hfind]
  have hl : (s.rdWs v.home 512).length = 512 := by unfold State.rdWs; simp
  have ho := ofImage_spec v.hid (s.rdWs v.home 512) hl
  obtain ⟨c, hcd, hrun, hpc, hg⟩ : ∃ c : Ctx, (s.restoreSpill core cx v).ctxAt core cx = { c with starts := laterCount (s.ctxAt core cx).starts c.epoch } ∧ c.run = .runnable
      ∧ c.pc = (v.hid.ofImage (s.rdWs v.home 512)).pc + (if v.hid.run = .parked .seen then 4 else 0) ∧ c.regs = (v.hid.ofImage (s.rdWs v.home 512)).regs := by
    rcases hw with h | ⟨w, bare, h, hwt, -⟩
    · refine ⟨v.hid.ofImage (s.rdWs v.home 512), ?_, ho.1, by rw [h, if_neg (by simp)]; simp, rfl⟩
      unfold State.restoreSpill
      rw [h]
      exact State.ctxAt_setCtxAt _ _ _ _
    · obtain ⟨h1, h2, h3⟩ := wake_waiting hwt (v.hid.ofImage (s.rdWs v.home 512))
      refine ⟨(v.hid.ofImage (s.rdWs v.home 512)).wake w, ?_, h1, by rw [h2, h]; simp, h3⟩
      unfold State.restoreSpill
      rw [h]
      exact State.ctxAt_setCtxAt _ _ _ _
  refine ⟨_, e, rfl, ?_, ?_, ?_, ?_, ?_, rfl, rfl⟩
  · rw [hcd]
  · rw [hcd, ← hrun]
  · rw [hcd, ← rdWs_getD s v.home 512 33 (by decide), ← ho.2.1, ← hpc]
  · intro i h1 h2
    rw [hcd, ← rdWs_getD s v.home 512 (39 + i.toNat) (by omega), ← ho.2.2.1 i h1 h2]
    show c.regs.getG i = (v.hid.ofImage (s.rdWs v.home 512)).regs.getG i
    rw [hg]
  · intro q y hq
    unfold State.restoreSpill
    dsimp only
    rw [State.ctxAt_setCtxAt_ne _ _ hq]; rfl

/-- 08 R225: the longest waiter goes to the lowest free spill slot, and one whose wait has ended comes back. -/
theorem spill_rules :
    (∀ (s : State) (core cx n : Nat), cx < 4 → (∀ y < 4, (s.ctxAt core y).waits) → (s.coreAt core).deque ≠ [] →
    (∀ y < cx, (s.ctxAt core cx).since < (s.ctxAt core y).since) → (∀ y < 4, (s.ctxAt core cx).since ≤ (s.ctxAt core y).since) →
    (s.ctxAt core cx).regs.allPresent = true → s.ownReqs (s.ctxAt core cx).act = false →
    let x := s.ctxAt core cx
    let l := s.launchOr x.ident.launch.toNat
    n < l.cspl → (∀ v ∈ s.saved, v.pid = core → v.slot ≠ none → v.home ≠ spadKey core (l.spillSlot n)) →
    (∀ k < n, ∃ v ∈ s.saved, v.pid = core ∧ v.slot ≠ none ∧ v.home = spadKey core (l.spillSlot k)) →
    ∃ t, exec (.contextSpill core) s = .next t ∧ t.saved = s.saved ++ [⟨spadKey core (l.spillSlot n), core, cx, some n, { x with preemptAt := none }, s.stepNo⟩]
      ∧ t.ctxAt core cx = x.freed ∧ (t.ctxAt core cx).run = .free ∧ (∀ q y, ctxKey q y ≠ ctxKey core cx → t.ctxAt q y = s.ctxAt q y)
      ∧ t.mem = (s.wr (spadKey core (l.spillSlot n)) (x.image core cx s.time (x.spillRecord cx) x.num.flags (s.outstanding x.act))).mem
      ∧ t.coreAt core = { s.coreAt core with rq := setBit (s.coreAt core).rq cx false } ∧ ∀ q, q ≠ core → t.coreAt q = s.coreAt q)
  ∧ (∀ (s : State) (core cx n : Nat) (v : Saved), s.lowestFree core cx → v ∈ s.saved → v.slot = some n → v.pid = core →
    (∀ u ∈ s.saved, u.slot = some n → u.pid = core → u = v) →
    (v.hid.run = .runnable ∨ ∃ w bare, v.hid.run = .parked w ∧ w.waiting = true ∧ s.waitEnds core v.cx bare w) → s.outstanding v.hid.act = false →
    ∃ t, exec (.spillRestore core n) s = .next t ∧ t.saved = s.saved.filter (fun x => x.home != v.home)
      ∧ (t.ctxAt core cx).starts = laterCount (s.ctxAt core cx).starts (t.ctxAt core cx).epoch
      ∧ (t.ctxAt core cx).run = .runnable ∧ (t.ctxAt core cx).pc = s.rdW (v.home + 0x108) + (if v.hid.run = .parked .seen then 4 else 0)
      ∧ (∀ i : Reg, 1 ≤ i.toNat → i.toNat ≤ 30 → (t.ctxAt core cx).g i = s.rdW (v.home + 8 * (39 + i.toNat)))
      ∧ (∀ q y, ctxKey q y ≠ ctxKey core cx → t.ctxAt q y = s.ctxAt q y) ∧ t.mem = s.mem ∧ t.cores = s.cores) := ⟨spill_rules_out, spill_rules_in⟩

end Sys2Proof.Machine
end

