-- ==== Sys2Proof/Laws/Paddocks.lean ====
section
/-! SUPPORT. Dispatch, aging and stealing of tasks. -/

set_option Elab.async false

namespace Sys2Proof.Machine

theorem dieAt_modDieAt (s : State) (d : Nat) (f : Die → Die) : (s.modDieAt d f).dieAt d = f (s.dieAt d) := by
  simp [State.modDieAt, State.dieAt]

theorem least_fold (f : Nat → Nat) (p : Nat) (b : List Nat) (h : ∀ q ∈ b, f p ≤ f q) :
    b.foldl (fun (b : Option Nat) p => match b with
      | none => some p
      | some q => if f p < f q then some p else b) (some p) = some p := by
  induction b with
  | nil => rfl
  | cons q b ih =>
    rw [List.foldl_cons]
    simp only []
    rw [if_neg (by have := h q (by simp); omega)]
    exact ih (fun q hq => h q (by simp [hq]))

theorem least_fold_first (f : Nat → Nat) (p : Nat) (a b : List Nat) (o : Option Nat) (ho : ∀ q, o = some q → f p < f q)
    (ha : ∀ q ∈ a, f p < f q) (hb : ∀ q ∈ b, f p ≤ f q) :
    (a ++ p :: b).foldl (fun (b : Option Nat) p => match b with
      | none => some p
      | some q => if f p < f q then some p else b) o = some p := by
  induction a generalizing o with
  | nil =>
    rw [List.nil_append, List.foldl_cons]
    cases o with
    | none => exact least_fold f p b hb
    | some q => simp only []; rw [if_pos (ho q rfl)]; exact least_fold f p b hb
  | cons x a ih =>
    rw [List.cons_append, List.foldl_cons]
    apply ih
    · intro q hq
      cases o with
      | none => simp only [] at hq; cases hq; exact ha _ (by simp)
      | some y =>
        simp only [] at hq
        split at hq
        · cases hq; exact ha _ (by simp)
        · cases hq; exact ho _ rfl
    · exact fun q hq => ha q (by simp [hq])

theorem State.Least.loaded {s : State} {l : List Nat} {p : Nat} (h : s.Least l p) : s.leastLoaded l = some p := by
  obtain ⟨a, b, rfl, hp, ha, hb⟩ := h
  unfold State.leastLoaded
  rw [List.filter_append, List.filter_cons, if_pos hp]
  apply least_fold_first s.load
  · intro q hq; cases hq
  · intro q hq; obtain ⟨h1, h2⟩ := List.mem_filter.1 hq; exact ha q h1 h2
  · intro q hq; obtain ⟨h1, h2⟩ := List.mem_filter.1 hq; exact hb q h1 h2

theorem leastLoaded_none {s : State} {l : List Nat} (h : ∀ q ∈ l, s.placeable q = false) : s.leastLoaded l = none := by
  unfold State.leastLoaded
  rw [List.filter_eq_nil_iff.2 (fun q hq => by rw [h q hq]; exact Bool.false_ne_true)]
  rfl

theorem places_head {s : State} {die : Nat} {t : Task} {p : Nat} (h : s.Places die t p) : s.placeHead die t = some p := by
  obtain ⟨l, hl, h⟩ := h
  unfold State.placeHead
  rw [hl]
  simp only []
  rcases h with h | ⟨h1, h2, h3⟩
  · have e := h.loaded; unfold State.classCores at e; rw [e]
  · have e := leastLoaded_none h1; unfold State.classCores at e; rw [e]; simp only []
    rw [if_pos h2, h3.loaded]

theorem idleCore_of {s : State} {p cx : Nat} (h : s.freeFor p cx) : s.idleCore p = some cx := by
  unfold State.idleCore
  rw [freeLow_of h.2.1]
  simp only []
  rw [h.2.2]; rfl

theorem dispatch_head {s : State} {die q : Nat} {k : Task} {l : List Task} {p cx : Nat} (h1 : s.paddock die q = k :: l) (h2 : s.Places die k p)
    (h3 : s.freeFor p cx) : ∃ t, s.dispatchHead die q = some t ∧ s.dispatched t die q k l p cx := by
  refine ⟨(s.setPaddock die q (popHead s.time (k :: l))).start p cx (s.beginTask p k), ?_, ?_, ?_, ?_, rfl, rfl⟩
  · unfold State.dispatchHead
    rw [h1]; simp only []
    rw [places_head h2]; simp only []
    rw [idleCore_of h3]
  · have : ((s.setPaddock die q (popHead s.time (k :: l))).start p cx (s.beginTask p k)).ctxAt p cx = (s.ctxAt p cx).begin (s.beginTask p k) cx s.nextAct s.time := by
      show (State.setCtxAt _ p cx _).ctxAt p cx = _
      rw [State.ctxAt_setCtxAt]; rfl
    rw [this]; exact begin_begins _ _ _ _ _
  · have e : popHead s.time (k :: l) = nextHead s.time l := by cases l <;> rfl
    rw [e]
    unfold State.setPaddock
    have e2 : ∀ (u : State) (b : Begin), (u.start p cx b).dieAt die = u.dieAt die := fun _ _ => rfl
    rw [e2, dieAt_modDieAt]
  · intro x y hx
    show (State.setCtxAt _ p cx _).ctxAt x y = _
    rw [State.ctxAt_setCtxAt_ne _ _ hx]; rfl

theorem findSome_cut {α : Type} (f : Nat → Option α) (n m : Nat) (a : α) (hm : m < n) (h : f m = some a) (hl : ∀ j < m, f j = none) :
    (List.range n).findSome? f = some a := by
  induction n with
  | zero => omega
  | succ n ih =>
    rw [List.range_succ, List.findSome?_append]
    by_cases hn : m = n
    · subst hn
      have : (List.range m).findSome? f = none := by
        rw [List.findSome?_eq_none_iff]; intro j hj; exact hl j (by simpa using hj)
      rw [this]; simp [h]
    · rw [ih (by omega)]; rfl

theorem four_queues {α : Type} (f : Nat → Option α) (q : Nat) (hq : q < 4) (a : α) (h : f q = some a) (hn : ∀ x, q < x → x < 4 → f x = none) :
    [3, 2, 1, 0].findSome? f = some a := by
  match q, hq with
  | 0, _ => simp [hn 3 (by omega) (by omega), hn 2 (by omega) (by omega), hn 1 (by omega) (by omega), h]
  | 1, _ => simp [hn 3 (by omega) (by omega), hn 2 (by omega) (by omega), h]
  | 2, _ => simp [hn 3 (by omega) (by omega), h]
  | 3, _ => simp [h]

theorem paddock_set (s : State) (die q : Nat) (l : List Task) (x : Nat) : (s.setPaddock die q l).paddock die x = if x = q then l else s.paddock die x := by
  unfold State.setPaddock State.paddock
  rw [dieAt_modDieAt]
  dsimp only
  rw [Tab.get_set]

theorem paddock_rules_aging : ∀ (s : State) (die : Nat) (q : BitVec 2) (a b : List Task) (k : Task), q.toNat < 3 → s.paddock die q.toNat = a ++ k :: b →
    (∀ x ∈ a, s.time ≤ x.since + Config.tickMs) → k.since + Config.tickMs < s.time →
    ∃ t, exec (.paddockAging die q) s = .next t
      ∧ t.paddock die q.toNat = (if a = [] then nextHead s.time b else a ++ b)
      ∧ t.paddock die (q.toNat + 1) = s.paddock die (q.toNat + 1) ++ [{ k with since := s.time, headAt := if s.paddock die (q.toNat + 1) = [] then some s.time else none }]
      ∧ (∀ x, x ≠ q.toNat → x ≠ q.toNat + 1 → t.paddock die x = s.paddock die x) ∧ t.ctxs = s.ctxs ∧ t.cores = s.cores ∧ t.mem = s.mem := by
  intro s die q a b k hq hl ha hk
  have hi : (a ++ k :: b).findIdx? (fun t => decide (t.since + Config.tickMs < s.time)) = some a.length :=
    findIdx?_split _ a b k (fun x hx => by have := ha x hx; simp; omega) (by simpa using hk)
  have hleft : (if a.length = 0 then popHead s.time (a ++ k :: b) else a ++ b) = if a = [] then nextHead s.time b else a ++ b := by
    cases a with
    | nil => cases b <;> rfl
    | cons x a => rfl
  have e : exec (.paddockAging die q) s = .next (
      let u := s.setPaddock die q.toNat (if a = [] then nextHead s.time b else a ++ b)
      u.setPaddock die (q.toNat + 1) (u.paddock die (q.toNat + 1) ++ [{ k with since := s.time, headAt := if (u.paddock die (q.toNat + 1)).isEmpty then some s.time else none }])) := by
    show execPaddockAging die q s = _
    unfold execPaddockAging
    dsimp only
    rw [if_neg (by omega), hl, hi]
    simp only []
    rw [takeAt_split]
    simp only [hleft]
  rw [e]
  refine ⟨_, rfl, ?_, ?_, ?_, rfl, rfl, rfl⟩
  · dsimp only
    rw [paddock_set, if_neg (by omega), paddock_set, if_pos rfl]
  · dsimp only
    rw [paddock_set, if_pos rfl, paddock_set, if_neg (by omega)]
    simp only [List.isEmpty_iff]
  · intro x h1 h2
    dsimp only
    rw [paddock_set, if_neg h2, paddock_set, if_neg h1]

theorem placeable_none {s : State} {p : Nat} {α : Type} (g : Nat → Option α) (h : ¬ ∃ c, s.freeFor p c) :
    (if s.dispatchable p then (s.idleCore p).bind g else none) = none := by
  by_cases hd : s.dispatchable p = true
  · rw [if_pos hd]
    cases hi : s.idleCore p with
    | none => rfl
    | some c =>
      exfalso; apply h
      refine ⟨c, hd, ?_, ?_⟩
      · unfold State.idleCore at hi
        cases hf : s.freeLow p with
        | none => rw [hf] at hi; cases hi
        | some c2 =>
          rw [hf] at hi
          simp only [] at hi
          split at hi
          · cases hi
          · cases hi
            unfold State.freeLow at hf
            have h1 := List.find?_some hf
            have h2 := List.mem_of_find?_eq_some hf
            refine ⟨by simp at h2; omega, by simpa using h1, ?_⟩
            intro y hy
            rw [List.find?_eq_some_iff_append] at hf
            obtain ⟨_, as, bs, he, hn⟩ := hf
            have hm : y ∈ as := by
              have h3 : c < 4 := by simp at h2; omega
              match c, h3, y, hy with
              | 1, _, 0, _ => rcases as with _ | ⟨u, as⟩ <;> simp_all
              | 2, _, 0, _ => rcases as with _ | ⟨u, _ | ⟨v, as⟩⟩ <;> simp_all
              | 2, _, 1, _ => rcases as with _ | ⟨u, _ | ⟨v, as⟩⟩ <;> simp_all
              | 3, _, 0, _ => rcases as with _ | ⟨u, _ | ⟨v, _ | ⟨w, as⟩⟩⟩ <;> simp_all
              | 3, _, 1, _ => rcases as with _ | ⟨u, _ | ⟨v, _ | ⟨w, as⟩⟩⟩ <;> simp_all
              | 3, _, 2, _ => rcases as with _ | ⟨u, _ | ⟨v, _ | ⟨w, as⟩⟩⟩ <;> simp_all
            simpa using hn y hm
      · unfold State.idleCore at hi
        cases hf : s.freeLow p with
        | none => rw [hf] at hi; cases hi
        | some c2 =>
          rw [hf] at hi
          simp only [] at hi
          split at hi
          · cases hi
          · cases hi; rename_i hn
            cases hx : s.fillFrom p c with
            | none => rfl
            | some u => rw [hx] at hn; exact absurd rfl hn
  · rw [if_neg hd]

theorem paddock_rules_steal : ∀ (s : State) (die n cx v : Nat) (k : Task), n < 256 → (∀ q < 4, s.dispatchHead die q = none) → s.freeFor (die * 256 + n) cx →
    (∀ m < n, ∀ c, s.freeFor (die * 256 + m) c → s.victim die (die * 256 + m) = none) → s.victim die (die * 256 + n) = some v → (s.coreAt v).deque.getLast? = some k →
    ∃ t, exec (.paddockDispatch die) s = .next t
      ∧ Begins (t.ctxAt (die * 256 + n) cx) (s.ctxAt (die * 256 + n) cx) (s.launchOr k.launch) cx ((s.launchOr k.launch).lowestLid (die * 256 + n)) k.pc
          (W k.id) k.arg0 k.arg1 (W k.path) (W k.id) false []
      ∧ t.coreAt v = { s.coreAt v with deque := (s.coreAt v).deque.dropLast }
      ∧ (∀ x y, ctxKey x y ≠ ctxKey (die * 256 + n) cx → t.ctxAt x y = s.ctxAt x y) ∧ (∀ q, q ≠ v → t.coreAt q = s.coreAt q) := by
  intro s die n cx v k hn hq hf hl hv hk
  have hs : s.steal die = some ((s.setDeque v (s.coreAt v).deque.dropLast).start (die * 256 + n) cx (s.beginTask (die * 256 + n) k)) := by
    unfold State.steal
    rw [List.findSome?_map]
    apply findSome_cut _ 256 n _ hn
    · dsimp only [Function.comp]
      rw [if_pos hf.1, idleCore_of hf]
      unfold State.stealFor
      simp only [Option.bind_some]
      rw [hv]; simp only [Option.bind_some]
      rw [hk]; rfl
    · intro m hm
      dsimp only [Function.comp]
      by_cases hx : ∃ c, s.freeFor (die * 256 + m) c
      · obtain ⟨c, hc⟩ := hx
        rw [if_pos hc.1, idleCore_of hc]
        unfold State.stealFor
        simp only [Option.bind_some]
        rw [hl m hm c hc]; rfl
      · exact placeable_none _ hx
  have e : exec (.paddockDispatch die) s = .next ((s.setDeque v (s.coreAt v).deque.dropLast).start (die * 256 + n) cx (s.beginTask (die * 256 + n) k)) := by
    show execPaddockDispatch die s = _
    unfold execPaddockDispatch
    have : [3, 2, 1, 0].findSome? (fun q => s.dispatchHead die q) = none := by
      simp [hq 3 (by omega), hq 2 (by omega), hq 1 (by omega), hq 0 (by omega)]
    rw [this, hs]; rfl
  refine ⟨_, e, ?_, ?_, ?_, ?_⟩
  · have : ((s.setDeque v (s.coreAt v).deque.dropLast).start (die * 256 + n) cx (s.beginTask (die * 256 + n) k)).ctxAt (die * 256 + n) cx
        = (s.ctxAt (die * 256 + n) cx).begin (s.beginTask (die * 256 + n) k) cx (s.setDeque v (s.coreAt v).deque.dropLast).nextAct (s.setDeque v (s.coreAt v).deque.dropLast).time := by
      show (State.setCtxAt _ _ cx _).ctxAt _ cx = _
      rw [State.ctxAt_setCtxAt, setDeque_ctxAt]
    rw [this]; exact begin_begins _ _ _ _ _
  · rw [start_coreAt, setDeque_coreAt, State.coreAt_modCoreAt]
  · intro x y hx
    show (State.setCtxAt _ _ cx _).ctxAt x y = _
    rw [State.ctxAt_setCtxAt_ne _ _ hx]; exact setDeque_ctxAt s v x y _
  · intro q hne
    rw [start_coreAt, setDeque_coreAt]
    unfold State.modCoreAt
    rw [State.coreAt_setCoreAt_ne _ _ hne]

/-- Dispatch, the wait for the class, aging and stealing. -/
theorem paddock_rules :
    (∀ (s : State) (die q : Nat) (k : Task) (l : List Task) (p cx : Nat), q < 4 → s.paddock die q = k :: l → s.Places die k p → s.freeFor p cx →
    (∀ x, q < x → x < 4 → s.dispatchHead die x = none) → ∃ t, exec (.paddockDispatch die) s = .next t ∧ s.dispatched t die q k l p cx)
  ∧ (∀ (s : State) (die : Nat) (q : BitVec 2) (k : Task) (l : List Task) (p cx : Nat), s.paddock die q.toNat = k :: l → s.Places die k p → s.freeFor p cx →
    k.headAt.getD k.since + 10 * Config.tickUs ≤ s.time → (∀ x, q.toNat < x → x < 4 → s.dispatchHead die x = none) →
    ∃ t, exec (.classWaitExpiry die q) s = .next t ∧ s.dispatched t die q.toNat k l p cx)
  ∧ (∀ (s : State) (die : Nat) (q : BitVec 2) (a b : List Task) (k : Task), q.toNat < 3 → s.paddock die q.toNat = a ++ k :: b →
    (∀ x ∈ a, s.time ≤ x.since + Config.tickMs) → k.since + Config.tickMs < s.time →
    ∃ t, exec (.paddockAging die q) s = .next t
      ∧ t.paddock die q.toNat = (if a = [] then nextHead s.time b else a ++ b)
      ∧ t.paddock die (q.toNat + 1) = s.paddock die (q.toNat + 1) ++ [{ k with since := s.time, headAt := if s.paddock die (q.toNat + 1) = [] then some s.time else none }]
      ∧ (∀ x, x ≠ q.toNat → x ≠ q.toNat + 1 → t.paddock die x = s.paddock die x) ∧ t.ctxs = s.ctxs ∧ t.cores = s.cores ∧ t.mem = s.mem)
  ∧ (∀ (s : State) (die : Nat), s.paddock die 3 = [] → exec (.paddockAging die 3) s = .next s)
  ∧ (∀ (s : State) (die n cx v : Nat) (k : Task), n < 256 → (∀ q < 4, s.dispatchHead die q = none) → s.freeFor (die * 256 + n) cx →
    (∀ m < n, ∀ c, s.freeFor (die * 256 + m) c → s.victim die (die * 256 + m) = none) → s.victim die (die * 256 + n) = some v → (s.coreAt v).deque.getLast? = some k →
    ∃ t, exec (.paddockDispatch die) s = .next t
      ∧ Begins (t.ctxAt (die * 256 + n) cx) (s.ctxAt (die * 256 + n) cx) (s.launchOr k.launch) cx ((s.launchOr k.launch).lowestLid (die * 256 + n)) k.pc
          (W k.id) k.arg0 k.arg1 (W k.path) (W k.id) false []
      ∧ t.coreAt v = { s.coreAt v with deque := (s.coreAt v).deque.dropLast }
      ∧ (∀ x y, ctxKey x y ≠ ctxKey (die * 256 + n) cx → t.ctxAt x y = s.ctxAt x y) ∧ (∀ q, q ≠ v → t.coreAt q = s.coreAt q)) := by
  refine ⟨fun s die q k l p cx hq h1 h2 h3 hn => ?_, fun s die q k l p cx h1 h2 h3 h4 hn => ?_, paddock_rules_aging, fun s die h => ?_, paddock_rules_steal⟩
  · obtain ⟨t, ht, hd⟩ := dispatch_head h1 h2 h3
    refine ⟨t, ?_, hd⟩
    show execPaddockDispatch die s = _
    unfold execPaddockDispatch
    rw [four_queues (fun q => s.dispatchHead die q) q hq t ht hn]
  · obtain ⟨t, ht, hd⟩ := dispatch_head h1 h2 h3
    refine ⟨t, ?_, hd⟩
    show execClassWaitExpiry die q s = _
    unfold execClassWaitExpiry
    rw [h1]
    simp only [List.head?_cons]
    rw [if_pos, ht]; rfl
    have : (([3, 2, 1].filter (fun n => q.toNat < n)).any (fun n => (s.dispatchHead die n).isSome)) = false := by
      rw [List.any_eq_false]
      intro x hx
      obtain ⟨hm, hlt⟩ := List.mem_filter.1 hx
      rw [hn x (by simpa using hlt) (by simp at hm; omega)]; simp
    rw [this]; simp [h4]
  · show execPaddockAging die 3 s = _
    unfold execPaddockAging
    dsimp only
    rw [if_pos (by decide)]

end Sys2Proof.Machine
end

