-- ==== Sys2Proof/Laws/Launching.lean ====
section
/-! SUPPORT. Launch queues, the check of a record, the start of a core, the end of a launch. -/

set_option Elab.async false

namespace Sys2Proof.Machine

theorem lqServes_iff (s : State) (q : Nat) : s.lqServes q = true ↔ s.lqReady q := by
  unfold State.lqServes State.lqReady State.lqBusy LQueue.en LQueue.ser
  dsimp only
  simp only [Bool.and_eq_true, Bool.not_eq_true', bne_iff_ne, Bool.and_eq_false_iff, List.any_eq_false, beq_iff_eq, not_and]
  constructor
  · rintro ⟨⟨⟨h1, h2⟩, h3⟩, h4⟩
    refine ⟨h1, h2, h3, fun h5 l hl hq => ?_⟩
    rcases h4 with h4 | h4
    · rw [h4] at h5; cases h5
    · have := h4 l hl hq; simpa using this
  · rintro ⟨h1, h2, h3, h4⟩
    refine ⟨⟨⟨h1, h2⟩, h3⟩, ?_⟩
    cases h5 : flag (s.lq q).ctl 9
    · exact .inl rfl
    · right; intro l hl hq; simp [h4 h5 l hl hq]

theorem lqNext_find {s : State} {q : Nat} (h : s.lqNext q) :
    ((List.range 32).map (fun i => (s.sys.lqLast + 1 + i) % 32)).find? (fun q => s.lqServes q) = some q := by
  obtain ⟨hq, hr, hf⟩ := h
  have e : (s.sys.lqLast + 1 + s.lqTurn q) % 32 = q := by unfold State.lqTurn; omega
  rw [find_map_range (fun i => (s.sys.lqLast + 1 + i) % 32) _ 32 (s.lqTurn q) (by unfold State.lqTurn; omega)]
  · rw [e]
  · rw [e]; exact (lqServes_iff s q).2 hr
  · intro j hj
    cases hx : s.lqServes ((s.sys.lqLast + 1 + j) % 32)
    · rfl
    · have := hf _ (by omega) ((lqServes_iff s _).1 hx)
      unfold State.lqTurn at this hj
      omega

/-- 24 R443, 09 R243: a queue that holds more records than its ring stops with ERR; else its record is submitted with supervisor standing and
the queue's PTROOT, and HEAD advances. -/
theorem launchQueues_rules :
    ∀ (s : State) (q : Nat), s.sys.lval = true → s.sys.tripped = false → s.lqNext q →
  let l := s.lq q
  (2 ^ fld l.ctl 3 0 < (l.tail + 2 ^ 16 - l.head) % 2 ^ 16 → exec .launchQueueService s = .next (
      let t := s.lqServed q { l with err := true }
      if flag l.ctl 10 then t.msix (fld l.ctl 23 16) else t))
  ∧ ((l.tail + 2 ^ 16 - l.head) % 2 ^ 16 ≤ 2 ^ fld l.ctl 3 0 →
      ∀ pa, pa = l.base.toNat + 128 * (l.head % 2 ^ fld l.ctl 3 0) → s.keyHeld pa = false → s.keyHeld (pa + 64) = false →
      exec .launchQueueService s = .next { s.lqServed q { l with head := (l.head + 1) % 2 ^ 16 } with
        launches := s.launches ++ [{ id := s.nextLaunch, addr := W pa, words := s.rdWs pa 16, src := ⟨some q, s.sys.lead, false, l.root⟩, phase := 0
                                     map := [], todo := [], begun := [], nfail := 0, eff := 0, argw := 0, addrw := 0, flid := 0, live := 0 }]
        nextLaunch := s.nextLaunch + 1 }) := by
  intro s q h1 h2 h3 l
  have e : exec .launchQueueService s = .next (s.serveQueue q) := by
    show execLaunchQueueService s = _
    unfold execLaunchQueueService
    dsimp only
    rw [h1, h2, lqNext_find h3]; rfl
  refine ⟨fun h => ?_, fun h pa hpa hk1 hk2 => ?_⟩
  · rw [e]; unfold State.serveQueue; dsimp only
    rw [if_pos (show 2 ^ (s.lq q).logn < ((s.lq q).tail + 2 ^ 16 - (s.lq q).head) % 2 ^ 16 from h)]; rfl
  · subst hpa
    rw [e]; unfold State.serveQueue; dsimp only
    rw [if_neg (show ¬ 2 ^ (s.lq q).logn < ((s.lq q).tail + 2 ^ 16 - (s.lq q).head) % 2 ^ 16 from Nat.not_lt.2 h), if_neg]
    · rfl
    · show ¬ ((s.keyHeld (l.base.toNat + 128 * (l.head % 2 ^ fld l.ctl 3 0)) || s.keyHeld (l.base.toNat + 128 * (l.head % 2 ^ fld l.ctl 3 0) + 64)) = true)
      rw [hk1, hk2]; exact Bool.false_ne_true

theorem launchCause_first (s : State) (l : Launch) : s.launchCause l = match (s.rejections l).findIdx? id with
    | some k => k + 1
    | none => 0 := by
  have cond : ∀ (b : Bool) (p : Prop) [Decidable p], (b = true ↔ p) → decide p = b := by
    intro b p _ h; cases b <;> simp_all
  unfold State.launchCause State.rejections Launch.carveOk Launch.areaBytes
  simp only [show Config.spadBytes = 0x180000 from rfl, List.findIdx?_cons, List.findIdx?_nil, id]
  have ite : ∀ (p : Prop) [Decidable p] (b : Bool) (m : Nat) (r : Nat) (o : Option Nat),
      (p ↔ b = true) → (match o with | some k => k + (m + 1) | none => 0) = r →
      (if p then m else r) = (match (if b = true then some 0 else o.map (fun i => i + 1)) with | some k => k + m | none => 0) := by
    intro p _ b m r o h hr
    cases b
    · rw [if_neg (fun hp => Bool.false_ne_true (h.1 hp)), if_neg Bool.false_ne_true, ← hr]
      cases o with
      | none => rfl
      | some k => show k + (m + 1) = k + 1 + m; omega
    · rw [if_pos (h.2 rfl), if_pos rfl]; show m = 0 + m; omega
  generalize 5 * l.stack + 4096 * l.cspl + 64 * l.dqsp + 16384 + 0x10000 = A
  generalize 0x180000 = B
  refine ite _ _ 1 _ _ (by simp) (Eq.symm ?_)
  refine ite _ _ 2 _ _ (by simp [or_assoc]) (Eq.symm ?_)
  refine ite _ _ 3 _ _ (by simp) (Eq.symm ?_)
  refine ite _ _ 4 _ _ (by rfl) (Eq.symm ?_)
  refine ite _ _ 5 _ _ (by simp) (Eq.symm ?_)
  refine ite _ _ 6 _ _ (by simp) (Eq.symm ?_)
  refine ite _ _ 7 _ _ (by simp) (Eq.symm ?_)
  refine ite _ _ 8 _ _ (by simp) (Eq.symm ?_)
  refine ite _ _ 9 _ _ (by simp) (Eq.symm ?_)
  rfl

theorem completes_of {s t : State} {l : Launch} {st : Nat} {argw : Word} (h : s.Completes l st argw t) : s.complete l st argw = some t := by
  unfold State.complete
  dsimp only
  cases h with
  | noRecord h => rw [if_pos h]
  | written h h0 h1 h2 h3 h4 h5 h6 h7 =>
    rw [if_neg h0, h1]; simp only []
    rw [h2, h3]; simp only [Bool.or_self, Bool.false_eq_true, if_false]
    rw [h4, h5, h6, if_neg]
    · rfl
    · cases h <;> simp only [Bool.not_eq_true] <;> first | exact h7 | (rename_i hmk; rw [h7]; first | rfl | (rw [hmk _ _ rfl]; rfl))
  | lost h0 h1 =>
    rw [if_neg h0]
    rcases h1 with h1 | ⟨h, h1, h2⟩
    · rw [h1]
    · rw [h1]; simp only []
      rw [if_pos (by simpa using h2)]

theorem signal_ended (s : State) (l : Launch) : (s.modLaunch l.id (fun x => { x with phase := 2 })).signal l = s.ended l := by
  unfold State.signal State.ended
  cases l.src.queue <;> rfl

theorem launchCheck_rules :
    ∀ (s : State) (i : Nat) (l : Launch), s.launches[i]? = some l → l.phase = 0 →
  (∀ q, l.src.queue = some q → ∀ m ∈ s.launches.take i, m.src.queue = some q → m.phase ≠ 0) → s.sys.lval = true → s.sys.tripped = false →
  (∀ k t, (s.rejections l).findIdx? id = some k → s.Completes l 3 (W (k + 1)) t → exec (.launchCheck i) s = .next (t.ended l))
  ∧ ((s.rejections l).findIdx? id = none →
    (s.coversReady l = false → exec (.launchCheck i) s = .next s)
    ∧ (s.coversReady l = true → exec (.launchCheck i) s = .next { s with launches := s.launches.map (fun x => if x.id = l.id then { x with
        phase := 1
        map := (List.range l.size).map (fun n => (n, (l.place n, false)))
        todo := ((List.range l.size).filter (fun n => l.starts n)).map (fun n => l.place n) } else x) })) := by
  intro s i l h1 h2 h3 h4 h5
  have hb : (s.launches.take i).any (fun m => m.phase == 0 && m.src.queue == l.src.queue && l.src.queue.isSome) = false := by
    rw [List.any_eq_false]
    intro m hm hc
    simp only [Bool.and_eq_true, beq_iff_eq] at hc
    obtain ⟨⟨a, b⟩, c⟩ := hc
    cases hq : l.src.queue with
    | none => rw [hq] at c; cases c
    | some q => exact h3 q hq m hm (b.trans hq) a
  have hgo : ¬ (l.phase ≠ 0 ∨ (s.launches.take i).any (fun m => m.phase == 0 && m.src.queue == l.src.queue && l.src.queue.isSome) = true
      ∨ (!s.sys.lval) = true ∨ s.sys.tripped = true) := by
    rw [hb, h4, h5]; simp [h2]
  refine ⟨fun k t hk ht => ?_, fun hn => ⟨fun hc => ?_, fun hc => ?_⟩⟩
  · have hcause : s.launchCause l = k + 1 := by rw [launchCause_first, hk]
    show execLaunchCheck i s = _
    unfold execLaunchCheck
    rw [h1]; dsimp only
    rw [if_neg hgo, hcause, if_pos (by omega), completes_of ht]
    simp only []
    rw [signal_ended]
  · have hcause : s.launchCause l = 0 := by rw [launchCause_first, hn]
    show execLaunchCheck i s = _
    unfold execLaunchCheck
    rw [h1]; dsimp only
    rw [if_neg hgo, hcause, if_neg (by omega), hc]; rfl
  · have hcause : s.launchCause l = 0 := by rw [launchCause_first, hn]
    show execLaunchCheck i s = _
    unfold execLaunchCheck
    rw [h1]; dsimp only
    rw [if_neg hgo, hcause, if_neg (by omega), hc]; rfl

theorem freeLow_none {s : State} {core : Nat} (h : ∀ cx < 4, s.vacant core cx = false) : s.freeLow core = none := by
  unfold State.freeLow
  rw [List.find?_eq_none]
  intro x hx; simp at hx
  rw [h x (by omega)]; exact Bool.false_ne_true

theorem writeImage_launches (s : State) (p : Nat) (e : Word) : (s.writeImage p e).launches = s.launches ∧ (s.writeImage p e).nextAct = s.nextAct := by
  unfold State.writeImage
  split
  · rename_i x _
    have key : ∀ (l : List (Nat × List Byte)) (u : State), (l.foldl (fun s (q : Nat × List Byte) => s.wr (spadKey p q.1) q.2) u).launches = u.launches
        ∧ (l.foldl (fun s (q : Nat × List Byte) => s.wr (spadKey p q.1) q.2) u).nextAct = u.nextAct := by
      intro l
      induction l with
      | nil => intro u; exact ⟨rfl, rfl⟩
      | cons a l ih => intro u; rw [List.foldl_cons]; exact ih _
    exact key x.2 s
  · exact ⟨rfl, rfl⟩

theorem freeLow_cases (s : State) (core : Nat) : (∃ cx, s.lowestFree core cx ∧ s.freeLow core = some cx) ∨ ((∀ cx < 4, s.vacant core cx = false) ∧ s.freeLow core = none) := by
  by_cases h0 : s.vacant core 0 = true
  · have : s.lowestFree core 0 := ⟨by omega, h0, fun y hy => by omega⟩
    exact .inl ⟨0, this, freeLow_of this⟩
  · by_cases h1 : s.vacant core 1 = true
    · have : s.lowestFree core 1 := ⟨by omega, h1, fun y hy => by
        have : y = 0 := by omega
        subst this; exact Bool.eq_false_iff.2 h0⟩
      exact .inl ⟨1, this, freeLow_of this⟩
    · by_cases h2 : s.vacant core 2 = true
      · have : s.lowestFree core 2 := ⟨by omega, h2, fun y hy => by
          have : y = 0 ∨ y = 1 := by omega
          rcases this with rfl | rfl <;> (rw [Bool.eq_false_iff]; assumption)⟩
        exact .inl ⟨2, this, freeLow_of this⟩
      · by_cases h3 : s.vacant core 3 = true
        · have : s.lowestFree core 3 := ⟨by omega, h3, fun y hy => by
            have : y = 0 ∨ y = 1 ∨ y = 2 := by omega
            rcases this with rfl | rfl | rfl <;> (rw [Bool.eq_false_iff]; assumption)⟩
          exact .inl ⟨3, this, freeLow_of this⟩
        · have : ∀ cx < 4, s.vacant core cx = false := by
            intro y hy
            have : y = 0 ∨ y = 1 ∨ y = 2 ∨ y = 3 := by omega
            rcases this with rfl | rfl | rfl | rfl <;> (rw [Bool.eq_false_iff]; assumption)
          exact .inr ⟨this, freeLow_none this⟩

theorem lowestFree_unique {s : State} {core a b : Nat} (ha : s.lowestFree core a) (hb : s.lowestFree core b) : a = b := by
  rcases Nat.lt_trichotomy a b with h | h | h
  · exact absurd (ha.2.1.symm.trans (hb.2.2 a h)) (by decide)
  · exact h
  · exact absurd (hb.2.1.symm.trans (ha.2.2 b h)) (by decide)

/-- A core of a launch starts: its image is written, its rotation slots are emptied, and the start activation begins in the lowest free low
context, or waits for one. -/
theorem coreStart_rules :
    ∀ (s : State) (launch core : Nat) (l : Launch), s.launch? launch = some l → l.phase = 1 → core ∈ l.todo →
  let lid := ((List.range l.size).find? (fun n => l.place n == core)).getD 0
  let w := s.writeImage core l.entry
  ∃ t, exec (.launchCoreStart launch core) s = .next t ∧ t.mem = w.mem
    ∧ t.launches = s.launches.map (fun x => if x.id = l.id then { x with todo := x.todo.filter (fun p => p != core), begun := x.begun ++ [lid], live := x.live + 1 } else x)
    ∧ (∀ cx, w.lowestFree core cx →
        Begins (t.ctxAt core cx) (w.ctxAt core cx) (t.launchOr l.id) cx lid (t.launchOr l.id).entry (W (t.launchOr l.id).id) (W lid) l.addr (t.launchOr l.id).arg 0 (t.launchOr l.id).privl []
        ∧ (∀ q c, ctxKey q c ≠ ctxKey core cx → t.ctxAt q c = w.ctxAt q c)
        ∧ t.coreAt core = { w.coreAt core with launches := (w.coreAt core).launches ++ [l.id], unit := { (w.coreAt core).unit with mat := { (w.coreAt core).unit.mat with slots := [] } } })
    ∧ ((∀ cx < 4, w.vacant core cx = false) → t.ctxs = w.ctxs
        ∧ t.coreAt core = { w.coreAt core with launches := (w.coreAt core).launches ++ [l.id], unit := { (w.coreAt core).unit with mat := { (w.coreAt core).unit.mat with slots := [] } }, starts := (w.coreAt core).starts ++ [⟨l.id, lid, l.addr⟩] }) := by
  intro s launch core l h1 h2 h3 lid w
  have hw := writeImage_launches s core l.entry
  let u := (w.modCoreAt core (fun k => { k with launches := k.launches ++ [l.id], unit := { k.unit with mat := { k.unit.mat with slots := [] } } })).modLaunch l.id
      (fun y => { y with todo := y.todo.filter (fun p => p != core), begun := y.begun ++ [lid], live := y.live + 1 })
  have e : exec (.launchCoreStart launch core) s = .next (match u.freeLow core with
        | some cx => u.start core cx (u.beginLaunch ⟨l.id, lid, l.addr⟩)
        | none => u.modCoreAt core (fun k => { k with starts := k.starts ++ [⟨l.id, lid, l.addr⟩] })) := by
    show execLaunchCoreStart launch core s = _
    unfold execLaunchCoreStart
    rw [h1]; dsimp only
    rw [if_neg (by simp [h2, h3])]
    all_goals rfl
  have hctx : ∀ q c, u.ctxAt q c = w.ctxAt q c := fun _ _ => rfl
  have hl : u.launches = s.launches.map (fun x => if x.id = l.id then { x with todo := x.todo.filter (fun p => p != core), begun := x.begun ++ [lid], live := x.live + 1 } else x) := by
    rw [← hw.1]; rfl
  have hcore : u.coreAt core = { w.coreAt core with launches := (w.coreAt core).launches ++ [l.id], unit := { (w.coreAt core).unit with mat := { (w.coreAt core).unit.mat with slots := [] } } } := by
    have e2 : ∀ (v : State) (f : Launch → Launch), (v.modLaunch l.id f).coreAt core = v.coreAt core := fun _ _ => rfl
    rw [show u = (w.modCoreAt core (fun k => { k with launches := k.launches ++ [l.id], unit := { k.unit with mat := { k.unit.mat with slots := [] } } })).modLaunch l.id
      (fun y => { y with todo := y.todo.filter (fun p => p != core), begun := y.begun ++ [lid], live := y.live + 1 }) from rfl, e2, State.coreAt_modCoreAt]
  have hv : ∀ cx, u.vacant core cx = w.vacant core cx := by
    intro cx
    unfold State.vacant
    rw [hcore]; rfl
  have hlf : ∀ cx, w.lowestFree core cx → u.lowestFree core cx := fun cx h => ⟨h.1, by rw [hv]; exact h.2.1, fun y hy => by rw [hv]; exact h.2.2 y hy⟩
  rcases freeLow_cases u core with ⟨cx, hf, he⟩ | ⟨hn, he⟩
  · refine ⟨u.start core cx (u.beginLaunch ⟨l.id, lid, l.addr⟩), by rw [e, he], rfl, hl, fun c hc => ?_, fun hn => ?_⟩
    · have : c = cx := lowestFree_unique (hlf c hc) hf
      subst this
      refine ⟨?_, fun q y hq => ?_, ?_⟩
      · have : (u.start core c (u.beginLaunch ⟨l.id, lid, l.addr⟩)).ctxAt core c = (u.ctxAt core c).begin (u.beginLaunch ⟨l.id, lid, l.addr⟩) c u.nextAct u.time := by
          show (State.setCtxAt _ _ c _).ctxAt _ c = _
          rw [State.ctxAt_setCtxAt]
        rw [this]; exact begin_begins _ _ _ _ _
      · show (State.setCtxAt _ _ c _).ctxAt q y = _
        rw [State.ctxAt_setCtxAt_ne _ _ hq]; rfl
      · rw [start_coreAt]; exact hcore
    · exact absurd (hf.2.1.symm.trans ((hv cx).trans (hn cx hf.1))) (by decide)
  · refine ⟨u.modCoreAt core (fun k => { k with starts := k.starts ++ [⟨l.id, lid, l.addr⟩] }), by rw [e, he], rfl, hl, fun c hc => absurd (hc.2.1.symm.trans ((hv c).symm.trans (hn c hc.1))) (by decide), fun _ => ⟨rfl, ?_⟩⟩
    rw [State.coreAt_modCoreAt, hcore]

/-- A launch of which nothing is left ends: its slots are invalid and of a new generation on every core (08 R197), its record is written, and its
queue is signalled (08 R211, R459; 24 R444). -/
theorem launchEnd_rules :
    ∀ (s t : State) (launch : Nat) (l : Launch), s.launch? launch = some l → l.phase = 1 → s.launchLives l = false →
  (∀ r ∈ s.net.reqs, ∀ e ∈ l.map, e.2.1 ≠ r.pid) →
  (∀ r ∈ s.vers.reps, (∀ p c a n, r.by_ = .access p c a n → ∀ e ∈ l.map, e.2.1 ≠ p)
    ∧ (∀ a n, r.by_ = .copy a n → ∀ c ∈ s.copies, c.id = n → ∀ e ∈ l.map, e.2.1 ≠ c.pid)) → s.Completes l (if l.nfail = 0 then 1 else 2) l.argw t →
  exec (.launchEnd launch) s = .next ({ t with cores := t.cores.map (fun (e : Nat × Core) => (e.1, { e.2 with
      ht := e.2.ht.map (fun (h : Nat × HSlot) => (h.1, if h.2.lnch = l.id then { h.2 with valid := false, gen := (h.2.gen + 1) % 256 } else h.2))
      launches := e.2.launches.filter (fun n => n != l.id) })) }.ended l) := by
  intro s t launch l h1 h2 h3 h4 h6 h5
  show execLaunchEnd launch s = _
  unfold execLaunchEnd
  rw [h1]; dsimp only
  have hb : s.launchBusy l = false := by
    unfold State.launchBusy
    dsimp only
    rw [Bool.or_eq_false_iff, List.any_eq_false, List.any_eq_false]
    refine ⟨fun r hr hc => ?_, fun r hr hc => ?_⟩
    · obtain ⟨e, he, heq⟩ := List.any_eq_true.1 hc
      exact h4 r hr e he (by simpa using heq)
    · obtain ⟨ha, hb⟩ := h6 r hr
      cases hby : r.by_ with
      | access p c a n =>
        rw [hby] at hc
        obtain ⟨e, he, heq⟩ := List.any_eq_true.1 hc
        exact ha p c a n hby e he (by simpa using heq)
      | copy a n =>
        rw [hby] at hc
        obtain ⟨c, h7, h8⟩ := List.any_eq_true.1 hc
        rw [Bool.and_eq_true, beq_iff_eq] at h8
        obtain ⟨e, he, heq⟩ := List.any_eq_true.1 h8.2
        exact hb a n hby c h7 h8.1 e he (by simpa using heq)
      | other => rw [hby] at hc; exact Bool.false_ne_true hc
  rw [if_neg (by simp [h2, h3, hb]), completes_of h5]
  simp only []
  rw [signal_ended]
  rfl

end Sys2Proof.Machine
end

