-- ==== Sys2Proof/Laws/Deferring.lean ====
section
/-! SUPPORT. Effects that are due at an instruction boundary. -/

set_option Elab.async false

namespace Sys2Proof.Machine

theorem standing_between {s : State} {core cx : Nat} (h : s.Standing core cx) : s.between core cx = true := by
  obtain ⟨h1, h2, h3, h6, h4, h5⟩ := h
  unfold State.between
  have e4 : (cx == 4 || (s.ctxAt core 4).run == .free) = true := by
    rw [Bool.or_eq_true, beq_iff_eq, beq_iff_eq]; exact h4
  rw [e4, Bool.and_true]
  cases h : (s.ctxAt core cx).run with
  | free => exact absurd h h1
  | runnable => rfl
  | stalled w =>
    cases w with
    | reply => exact absurd h h2.2
    | wmEnd d v => exact absurd h (h3 d v).2
    | _ => rfl
  | parked w =>
    cases w with
    | reply => exact absurd h h2.1
    | wmEnd d v => exact absurd h (h3 d v).1
    | seen => exact absurd h h6
    | _ => rfl

theorem standing_captures {s : State} {core cx : Nat} (h : s.Standing core cx) {r : Raise} (hd : s.deliveryHeld core cx r = false) : s.captures core cx r = true := by
  unfold State.captures
  rw [h.present, hd]; rfl

theorem toSystem_asOf (u : State) (core cx : Nat) (r : Raise) (pc : Word) (async : Bool) (h1 : (u.coreAt core).shandler ≠ 0) (h2 : (u.ctxAt core cx).sysBusy = false) :
    (u.toSystem core cx r pc async none).asOf core cx = (u.asOf core cx).toSystem core cx r pc async none := by
  unfold State.toSystem
  have e1 : ((u.asOf core cx).coreAt core) = u.coreAt core := rfl
  have e2 : ((u.asOf core cx).ctxAt core cx) = u.ctxAt core cx := rfl
  have h2' : ¬ (u.ctxAt core cx).sysBusy = true := by rw [h2]; exact Bool.false_ne_true
  have h1' : ¬ (u.coreAt core).shandler = 0 := h1
  rw [e1, e2, if_neg h1', if_neg h2', if_neg h1', if_neg h2']
  rfl

theorem unpark_ctx (s : State) (core cx : Nat) : ∃ b, (s.unpark core cx).ctxAt core cx = { s.ctxAt core cx with asBarw := b } := by
  unfold State.unpark
  dsimp only
  split
  · refine ⟨true, ?_⟩
    rw [State.ctxAt_modCtxAt]; rfl
  · exact ⟨(s.ctxAt core cx).asBarw, rfl⟩

theorem unpark_shandler (s : State) (core cx : Nat) : ((s.unpark core cx).coreAt core).shandler = (s.coreAt core).shandler := by
  unfold State.unpark
  dsimp only
  split
  · have e : ∀ (f : Ctx → Ctx) (v : State), (v.modCtxAt core cx f).coreAt core = v.coreAt core := fun _ _ => rfl
    rw [e]
    unfold State.coreAt
    dsimp only
    rw [get_map Core.reset s.cores (fun _ k => { k with bars := k.bars.map (fun (b : Nat × Bar) => (b.1, { b.2 with waiters := b.2.waiters.filter (fun w => w.act != (s.ctxAt core cx).act) })) })
      (fun _ => rfl) core]
  · rfl

theorem landEffect_takes {u : State} {core cx : Nat} {r : Raise} (hr : Eff.system r.eff = true) : u.TakesSystem (u.landEffect core cx r) core cx r := by
  obtain ⟨b, hb⟩ := unpark_ctx u core cx
  have hs := unpark_shandler u core cx
  refine ⟨fun h1 h2 => ?_, fun h1 h2 => ?_, fun h1 => ?_⟩
  · have hh : u.holdsEffect core cx r = false := by unfold State.holdsEffect; rw [h2]; simp
    unfold State.landEffect
    rw [hh]
    simp only [Bool.false_eq_true, if_false]
    unfold State.deliver
    rw [if_pos hr, hb]
    dsimp only
    have hx1 : ((u.unpark core cx).coreAt core).shandler ≠ 0 := by rw [hs]; exact h1
    have hx2 : ((u.unpark core cx).ctxAt core cx).sysBusy = false := by rw [hb]; exact h2
    rw [toSystem_asOf _ _ _ _ _ _ hx1 hx2]
    exact toSystem_entered (s := (u.unpark core cx).asOf core cx) ⟨hx1, hx2⟩ r _ _
  · have hh : u.holdsEffect core cx r = true := by unfold State.holdsEffect; rw [h2, hr]; simpa using h1
    unfold State.landEffect
    rw [hh]
    simp only [if_true]
    unfold State.deliver State.toSystem
    rw [if_pos hr, if_neg h1, if_pos h2]
    rfl
  · have hh : u.holdsEffect core cx r = false := by unfold State.holdsEffect; rw [h1]; simp
    unfold State.landEffect
    rw [hh]
    simp only [Bool.false_eq_true, if_false]
    unfold State.deliver State.toSystem
    rw [if_pos hr, if_pos (by rw [hs]; exact h1)]

theorem due_pend {c : Ctx} {p : Pend} {l : List Pend} (h : c.nothingBefore) (hp : c.pend = p :: l) : c.due = .pend p := by
  unfold Ctx.due
  obtain ⟨h1, h2⟩ := h
  rw [h1]
  rcases h2 with h2 | h2
  · rw [h2, hp]
  · rw [h2, hp]; cases c.sysBusy <;> rfl

theorem landKind_apply {s : State} {core cx k : Nat} {r : Raise} {l : List Pend} (hs : s.Standing core cx) (hn : (s.ctxAt core cx).nothingBefore)
    (hp : (s.ctxAt core cx).pend = ⟨k, r⟩ :: l) (hh : s.deliveryHeld core cx r = false) :
    s.landKind core cx k = (s.modCtxAt core cx (fun c => { c with pend := l })).landEffect core cx r := by
  have hd := due_pend hn hp
  unfold State.landKind
  rw [hd]
  simp only []
  rw [if_pos (show _ ∧ _ from ⟨trivial, standing_between hs, standing_captures hs hh⟩)]
  unfold State.landDue
  rw [hd]
  simp only []
  have : s.modCtxAt core cx (fun c => { c with pend := c.pend.drop 1 }) = s.modCtxAt core cx (fun c => { c with pend := l }) := by
    show s.setCtxAt core cx _ = s.setCtxAt core cx _
    dsimp only
    rw [hp]; rfl
  rw [this]

theorem deferred_rules :
    (∀ (s : State) (core cx : Nat), s.Standing core cx → (s.ctxAt core cx).nothingBefore → ∀ e ∈ boundaryForms core cx, ∀ r l,
    (s.ctxAt core cx).pend = ⟨e.2, r⟩ :: l → Eff.system r.eff = true →
    ∃ t, exec e.1 s = .next t ∧ (s.modCtxAt core cx (fun c => { c with pend := l })).TakesSystem t core cx r)
  ∧ (∀ (s : State) (core cx : Nat) (r : Raise) (l : List Raise), s.Standing core cx → (s.ctxAt core cx).resumed = none →
    (s.ctxAt core cx).sysBusy = false → (s.ctxAt core cx).held = r :: l → Eff.system r.eff = true →
    ∃ t, exec (.heldSystemEffect core cx) s = .next t ∧ (s.modCtxAt core cx (fun c => { c with held := l })).TakesSystem t core cx r) := by
  refine ⟨fun s core cx hs hn e he r l hp hr => ?_, fun s core cx r l hs hr hb hh hy => ?_⟩
  · refine ⟨_, ?_, landEffect_takes hr⟩
    simp only [boundaryForms, List.mem_cons, List.not_mem_nil, or_false] at he
    rcases he with rfl | rfl | rfl | rfl
    · exact congrArg _ (landKind_apply hs hn hp (State.deliveryHeld_system hr s core cx))
    · exact congrArg _ (landKind_apply hs hn hp (State.deliveryHeld_system hr s core cx))
    · exact congrArg _ (landKind_apply hs hn hp (State.deliveryHeld_system hr s core cx))
    · exact congrArg _ (landKind_apply hs hn hp (State.deliveryHeld_system hr s core cx))
  · refine ⟨_, ?_, landEffect_takes hy⟩
    have hd : (s.ctxAt core cx).due = .held r := by unfold Ctx.due; rw [hr, hb, hh]
    show execHeldSystemEffect core cx s = _
    unfold execHeldSystemEffect
    rw [hd]
    simp only []
    rw [standing_between hs, standing_captures hs (State.deliveryHeld_system hy s core cx), Bool.and_true, if_pos rfl]
    unfold State.landDue
    rw [hd]
    simp only []
    have : s.modCtxAt core cx (fun c => { c with held := c.held.drop 1 }) = s.modCtxAt core cx (fun c => { c with held := l }) := by
      show s.setCtxAt core cx _ = s.setCtxAt core cx _
      dsimp only
      rw [hh]; rfl
    rw [this]

theorem wr_asOf (u : State) (core cx k : Nat) (l : List Byte) : (u.wr k l).asOf core cx = (u.asOf core cx).wr k l := by
  unfold State.wr State.asOf
  rfl

theorem setRec_asOf (u : State) (core cx p off : Nat) (k : CRec) : (u.setRec p off k).asOf core cx = (u.asOf core cx).setRec p off k := by
  unfold State.setRec
  exact wr_asOf _ _ _ _ _

theorem setBusy_asOf (u : State) (core cx p off : Nat) (b : Bool) : (u.setBusy p off b).asOf core cx = (u.asOf core cx).setBusy p off b := by
  unfold State.setBusy
  have e1 : ∀ k, (u.asOf core cx).rdW k = u.rdW k := fun _ => rfl
  dsimp only
  rw [e1]
  exact wr_asOf _ _ _ _ _

theorem toFrame_asOf (u : State) (core cx : Nat) (f : Frame) (r : Raise) (pc g4 : Word) :
    (u.toFrame core cx f r pc g4 none []).asOf core cx = (u.asOf core cx).toFrame core cx f r pc g4 none [] := by
  unfold State.toFrame
  dsimp only
  have e1 : ∀ k, (u.asOf core cx).rdW k = u.rdW k := fun _ => rfl
  have e2 : (u.asOf core cx).ctxAt core cx = u.ctxAt core cx := rfl
  have e3 : ∀ (v : State) (c : Ctx), (v.setCtxAt core cx c).asOf core cx = (v.asOf core cx).setCtxAt core cx c := fun _ _ => rfl
  rw [e1, e2, State.wr_nil, State.wr_nil, e3, setBusy_asOf, setRec_asOf]

theorem landEffect_frame {u : State} {core cx : Nat} {r : Raise} (hr : Eff.system r.eff = false) (h11 : r.eff ≠ Eff.resumed) :
    (u.unpark core cx).TakesFrame (u.landEffect core cx r) core cx r := by
  have hh : u.holdsEffect core cx r = false := by unfold State.holdsEffect; rw [hr]; rfl
  have e : u.landEffect core cx r = (u.unpark core cx).deliver core cx r ((u.unpark core cx).ctxAt core cx).pc ((u.unpark core cx).ctxAt core cx).pc true false none := by
    unfold State.landEffect; rw [hh]; rfl
  rw [e]
  generalize u.unpark core cx = v
  refine ⟨fun f hf hm hc hb => ?_, fun hn => ?_⟩
  · have : v.deliver core cx r (v.ctxAt core cx).pc (v.ctxAt core cx).pc true false none = v.toFrame core cx f r (v.ctxAt core cx).pc r.addr none [] := by
      unfold State.deliver
      rw [hr]
      simp only [Bool.false_eq_true, if_false]
      rw [hf]
      simp only [hb, hm, Bool.not_false, Bool.true_or, Bool.false_eq_true, if_false, if_true]
    rw [this, toFrame_asOf]
    exact toFrame_entered (s := v.asOf core cx) r _ _ none hc
  · unfold State.deliver
    rw [hr]
    simp only [Bool.false_eq_true, if_false]
    rw [hn]
    simp only []
    rw [if_neg h11]

theorem copyEffects_rules :
    ∀ (s : State) (core cx : Nat), s.Standing core cx → (s.ctxAt core cx).nothingBefore →
  ∀ e ∈ ([(.copyfail core cx, 0x020), (.copyfault core cx, 0x021)] : List (Instr × Nat)), ∀ r l, (s.ctxAt core cx).pend = ⟨e.2, r⟩ :: l → r.eff = e.2 →
    s.deliveryHeld core cx r = false →
    ∃ t, exec e.1 s = .next t ∧ ((s.modCtxAt core cx (fun c => { c with pend := l })).unpark core cx).TakesFrame t core cx r := by
  intro s core cx hs hn e he r l hp hr hh
  simp only [List.mem_cons, List.not_mem_nil, or_false] at he
  rcases he with rfl | rfl
  · refine ⟨_, ?_, landEffect_frame (by rw [hr]; rfl) (by rw [hr]; show ¬ (0x020 = 0x011); decide)⟩
    exact congrArg Host.Outcome.next (landKind_apply hs hn hp hh)
  · refine ⟨_, ?_, landEffect_frame (by rw [hr]; rfl) (by rw [hr]; show ¬ (0x021 = 0x011); decide)⟩
    exact congrArg Host.Outcome.next (landKind_apply hs hn hp hh)

end Sys2Proof.Machine
end

