-- ==== Sys2Proof/Laws/Preempting.lean ====
section
/-! SUPPORT. PREEMPT, WATCHDOG, MIGRATE and the writes of PREQ and MIGR. -/

set_option Elab.async false

namespace Sys2Proof.Machine

theorem Ctx.Quiet.settled {c : Ctx} (h : c.Quiet) : c.settled = true := by
  unfold Ctx.settled Ctx.due
  rw [h.resumed, h.held, h.pend, h.busy]

theorem preempt_open {s : State} {core cx : Nat} (h : s.Preemptible core cx) : s.preemptOpen core cx = true := by
  unfold State.preemptOpen
  dsimp only
  rw [h.asked, standing_between h.stands, h.quiet.settled, h.quiet.busy, h.open_]
  simp [h.low]

theorem preempt_shut {s : State} {core cx : Nat}
    (h : 4 ≤ cx ∨ (s.coreAt core).rq.getLsbD cx = false ∨ (s.ctxAt core cx).masked s.time = true ∨ (s.ctxAt core cx).sysBusy = true) : s.preemptOpen core cx = false := by
  unfold State.preemptOpen
  dsimp only
  rcases h with h | h | h | h
  · have : decide (cx < 4) = false := decide_eq_false (by omega)
    rw [this]; rfl
  · rw [h]; simp
  · rw [h]; simp
  · rw [h]; simp

theorem preempt_point {s : State} {core cx : Nat} (h : s.AtSwitchPoint core cx) : s.preemptPoint core cx = true := by
  unfold State.preemptPoint
  rcases h with ⟨w, h⟩ | ⟨w, h1, h2⟩
  · rw [h]
  · split
    · rfl
    · rw [h1]; exact h2

theorem preempt_rules :
    (∀ (s : State) (core : Nat), s.Standing core 4 → (s.ctxAt core 4).Quiet →
    ∀ n, n = (s.time - (s.ctxAt core 4).shFrom - s.saveTime core) / Config.coreTicks core →
    (10000 < n → ∃ t, exec (.watchdog core) s = .next t ∧ s.TakesSystem t core 4 { eff := 0x00B, arg := W n })
    ∧ (n ≤ 10000 → exec (.watchdog core) s = .next s)
    -- only CTXSAVE and CTXLOAD have time that does not count (21 R407)
    ∧ ((∀ w, (s.ctxAt core 4).run ≠ .stalled w) → s.saveTime core = 0))
  ∧ (∀ (s : State) (core cx : Nat), s.Preemptible core cx →
      (s.AtSwitchPoint core cx → ∃ t, exec (.preempt core cx) s = .next t ∧ (s.granted core cx).TakesSystem t core cx { eff := 0x010, arg := W (s.coreAt core).rsn })
      ∧ (∀ at_, (s.ctxAt core cx).preemptAt = some at_ → at_ + 2000 * Config.coreTicks core ≤ s.time →
        ∃ t, exec (.preemptForced core cx) s = .next t ∧ (s.granted core cx).TakesSystem t core cx { eff := 0x010, arg := W (s.coreAt core).rsn }))
  ∧ (∀ (s : State) (core cx : Nat), 4 ≤ cx ∨ (s.coreAt core).rq.getLsbD cx = false ∨ (s.ctxAt core cx).masked s.time = true ∨ (s.ctxAt core cx).sysBusy = true →
      ∀ e ∈ [Instr.preempt core cx, .preemptForced core cx], exec e s = .next s)
  ∧ (∀ (s : State) (core cx since target w : Nat), s.Standing core cx → (s.ctxAt core cx).run = .runnable → (s.ctxAt core cx).Quiet →
      (s.ctxAt core cx).migp = some (since, target) → (s.clusterOfCore core).opened = false → s.nextWord core cx = some w → groupBoundary w = true →
      ∃ t, exec (.migrate core cx) s = .next t
        ∧ (s.modCtxAt core cx (fun c => { c with migp := none, reserve := some target })).TakesSystem t core cx
            { eff := 0x012, arg := W ((s.clusterOfCore core).temp % 2 ^ 12 * 2 ^ 16 + target % 2 ^ 11) }) := by
  refine ⟨fun s core hs hq n hn => ⟨fun h => ?_, fun h => ?_, fun h => ?_⟩, fun s core cx h => ⟨fun hp => ?_, fun at_ h1 h2 => ?_⟩, fun s core cx h e he => ?_,
    fun s core cx since target w hs hr hq hm ho hw hg => ?_⟩
  · refine ⟨_, ?_, landEffect_takes rfl⟩
    show execWatchdog core s = _
    unfold execWatchdog
    have : s.watchdogDue core = true := by
      unfold State.watchdogDue State.shCycles
      dsimp only
      rw [standing_between hs, hq.settled, hq.busy, ← hn, decide_eq_true h]; rfl
    rw [this, hs.present, Bool.and_self, if_pos rfl]
    unfold State.landWatchdog State.shCycles
    rw [← hn]; rfl
  · show execWatchdog core s = _
    unfold execWatchdog
    have : s.watchdogDue core = false := by
      unfold State.watchdogDue State.shCycles
      dsimp only
      rw [← hn, decide_eq_false (by omega), Bool.and_false]
    rw [this, Bool.false_and, if_neg Bool.false_ne_true]
  · have hi : s.inSave core = none := by
      unfold State.inSave
      split
      · rename_i w e; exact absurd e (h w)
      · rfl
    unfold State.saveTime
    rw [hi]
  · refine ⟨_, ?_, landEffect_takes rfl⟩
    show execPreempt core cx s = _
    unfold execPreempt
    rw [preempt_open h, preempt_point hp, show s.landed core cx = true from h.stands.present]; rfl
  · refine ⟨_, ?_, landEffect_takes rfl⟩
    show execPreemptForced core cx s = _
    unfold execPreemptForced
    have : s.preemptLate core cx = true := by unfold State.preemptLate; rw [h1]; exact decide_eq_true h2
    rw [preempt_open h, this, show s.landed core cx = true from h.stands.present]; rfl
  · simp only [List.mem_cons, List.not_mem_nil, or_false] at he
    rcases he with rfl | rfl
    · show execPreempt core cx s = _
      unfold execPreempt; rw [preempt_shut h]; rfl
    · show execPreemptForced core cx s = _
      unfold execPreemptForced; rw [preempt_shut h]; rfl
  · refine ⟨_, ?_, landEffect_takes rfl⟩
    show execMigrate core cx s = _
    unfold execMigrate
    have : s.migrateDue core cx = true := by
      unfold State.migrateDue
      dsimp only
      rw [hm, hr, standing_between hs, hq.settled, hq.busy, ho, hw]
      simp [hg]
    rw [this, show s.landed core cx = true from hs.present, Bool.and_self, if_pos rfl]
    unfold State.landMigrate
    rw [hm]
    rfl

/-- One RQ bit of a write of PREQ. -/
def requestOne (core : Nat) (v : Word) (s : State) (cx : Nat) : State :=
  if flag v cx && (s.ctxAt core cx).run != .free then
    (s.modCoreAt core (fun k => { k with rq := setBit k.rq cx true })).modCtxAt core cx (fun c => { c with preemptAt := some (c.preemptAt.getD s.time) })
  else s

theorem setBit_get (b : BitVec 4) (i j : Nat) (hi : i < 4) (hj : j < 4) : (setBit b i true).getLsbD j = (b.getLsbD j || decide (i = j)) := by
  unfold setBit
  rw [if_pos rfl, BitVec.getLsbD_or]
  have : ∀ i < 4, ∀ j < 4, (BitVec.ofNat 4 (2 ^ i)).getLsbD j = decide (i = j) := by decide
  rw [this i hi j hj]

theorem requestOne_ctx (core : Nat) (v : Word) (s : State) (cx q y : Nat) (hc : cx < 4) (hy : y < 8) :
    (requestOne core v s cx).ctxAt q y =
      if q = core ∧ y = cx ∧ flag v y = true ∧ (s.ctxAt core y).run ≠ .free then { s.ctxAt core y with preemptAt := some ((s.ctxAt core y).preemptAt.getD s.time) }
      else s.ctxAt q y := by
  unfold requestOne
  by_cases h : (flag v cx && (s.ctxAt core cx).run != .free) = true
  · rw [if_pos h]
    rw [Bool.and_eq_true, bne_iff_ne] at h
    by_cases he : q = core ∧ y = cx
    · obtain ⟨rfl, rfl⟩ := he
      rw [if_pos ⟨rfl, rfl, h.1, h.2⟩, State.ctxAt_modCtxAt]; rfl
    · rw [if_neg (fun e => he ⟨e.1, e.2.1⟩), State.ctxAt_modCtxAt_ne]
      · rfl
      · unfold ctxKey; omega
  · rw [if_neg h, if_neg]
    rintro ⟨rfl, rfl, h1, h2⟩
    exact h (by rw [Bool.and_eq_true, bne_iff_ne]; exact ⟨h1, h2⟩)

theorem requestOne_rq (core : Nat) (v : Word) (s : State) (cx y : Nat) (hc : cx < 4) (hy : y < 4) :
    ((requestOne core v s cx).coreAt core).rq.getLsbD y = ((s.coreAt core).rq.getLsbD y || (decide (cx = y) && (flag v cx && (s.ctxAt core cx).run != .free))) := by
  unfold requestOne
  by_cases h : (flag v cx && (s.ctxAt core cx).run != .free) = true
  · rw [if_pos h, h, Bool.and_true]
    have e : ∀ (f : Ctx → Ctx) (w : State), (w.modCtxAt core cx f).coreAt core = w.coreAt core := fun _ _ => rfl
    rw [e, State.coreAt_modCoreAt]
    exact setBit_get _ _ _ hc hy
  · rw [if_neg h, Bool.eq_false_iff.2 h]; simp

theorem requestOne_cores (core : Nat) (v : Word) (s : State) (cx : Nat) :
    ((requestOne core v s cx).coreAt core).rsn = (s.coreAt core).rsn ∧ (∀ q, q ≠ core → (requestOne core v s cx).coreAt q = s.coreAt q)
    ∧ (requestOne core v s cx).mem = s.mem ∧ (requestOne core v s cx).net = s.net ∧ (requestOne core v s cx).vers = s.vers
    ∧ (requestOne core v s cx).launches = s.launches ∧ (requestOne core v s cx).sys = s.sys ∧ (requestOne core v s cx).dies = s.dies
    ∧ (requestOne core v s cx).copies = s.copies ∧ (requestOne core v s cx).time = s.time := by
  unfold requestOne
  have e : ∀ (f : Ctx → Ctx) (w : State) q, (w.modCtxAt core cx f).coreAt q = w.coreAt q := fun _ _ _ => rfl
  split
  · refine ⟨?_, fun q hq => ?_, rfl, rfl, rfl, rfl, rfl, rfl, rfl, rfl⟩
    · rw [e, State.coreAt_modCoreAt]
    · rw [e]; unfold State.modCoreAt; rw [State.coreAt_setCoreAt_ne _ _ hq]
  · exact ⟨rfl, fun _ _ => rfl, rfl, rfl, rfl, rfl, rfl, rfl, rfl, rfl⟩

/-- What the RQ bits of a list of low contexts do. -/
structure Requested (core : Nat) (v : Word) (l : List Nat) (s t : State) : Prop where
  rsn : (t.coreAt core).rsn = (s.coreAt core).rsn
  rq : ∀ y < 4, (t.coreAt core).rq.getLsbD y = ((s.coreAt core).rq.getLsbD y || (decide (y ∈ l) && (flag v y && (s.ctxAt core y).run != .free)))
  ctx : ∀ q y, y < 8 → t.ctxAt q y = if q = core ∧ y ∈ l ∧ flag v y = true ∧ (s.ctxAt core y).run ≠ .free then
      { s.ctxAt core y with preemptAt := some ((s.ctxAt core y).preemptAt.getD s.time) } else s.ctxAt q y
  cores : ∀ q, q ≠ core → t.coreAt q = s.coreAt q
  rest : t.mem = s.mem ∧ t.net = s.net ∧ t.vers = s.vers ∧ t.launches = s.launches ∧ t.sys = s.sys ∧ t.dies = s.dies ∧ t.copies = s.copies ∧ t.time = s.time

theorem requested (core : Nat) (v : Word) : ∀ (l : List Nat) (s : State), (∀ x ∈ l, x < 4) → l.Nodup → Requested core v l s (l.foldl (requestOne core v) s) := by
  intro l
  induction l with
  | nil => intro s _ _; exact ⟨rfl, fun y _ => by simp, fun q y _ => by simp, fun _ _ => rfl, rfl, rfl, rfl, rfl, rfl, rfl, rfl, rfl⟩
  | cons x l ih =>
    intro s hx hn
    rw [List.nodup_cons] at hn
    have hx4 := hx x List.mem_cons_self
    have H := ih (requestOne core v s x) (fun y hy => hx y (List.mem_cons_of_mem _ hy)) hn.2
    have K := requestOne_cores core v s x
    obtain ⟨k1, k2, k3, k4, k5, k6, k7, k8, k9, k10⟩ := K
    have hr : ∀ y, y < 4 → y ≠ x → (requestOne core v s x).ctxAt core y = s.ctxAt core y := by
      intro y hy hne
      rw [requestOne_ctx core v s x core y hx4 (by omega), if_neg (fun e => hne e.2.1)]
    rw [List.foldl_cons]
    refine ⟨H.rsn.trans k1, fun y hy => ?_, fun q y hy => ?_, fun q hq => (H.cores q hq).trans (k2 q hq), ?_⟩
    · rw [H.rq y hy, requestOne_rq core v s x y hx4 hy]
      by_cases e : x = y
      · subst e
        have : decide (x ∈ l) = false := decide_eq_false hn.1
        rw [this]; simp
      · rw [hr y hy (fun h => e h.symm)]
        have : decide (y ∈ x :: l) = decide (y ∈ l) := by
          have hyx : (y == x) = false := by rw [beq_eq_false_iff_ne]; exact fun h => e h.symm
          exact decide_eq_decide.2 ⟨fun h => (List.mem_cons.1 h).resolve_left (fun h => e h.symm), List.mem_cons_of_mem _⟩
        rw [this, decide_eq_false e]; simp
    · rw [H.ctx q y hy, k10]
      by_cases e : y = x
      · subst e
        rw [if_neg (fun h => hn.1 h.2.1), requestOne_ctx core v s y q y hx4 hy]
        simp
      · have e1 : ∀ q, (requestOne core v s x).ctxAt q y = s.ctxAt q y := fun q => by
          rw [requestOne_ctx core v s x q y hx4 hy]; exact if_neg (fun h => e h.2.1)
        rw [e1, e1]
        simp [e]
    · obtain ⟨r1, r2, r3, r4, r5, r6, r7, r8⟩ := H.rest
      exact ⟨r1.trans k3, r2.trans k4, r3.trans k5, r4.trans k6, r5.trans k7, r6.trans k8, r7.trans k9, r8.trans k10⟩

theorem writePreq_written (s : State) (core : Nat) (v : Word) : s.PreqWritten (s.writePreq core v) core v := by
  have e : s.writePreq core v = [0, 1, 2, 3].foldl (requestOne core v) (s.modCoreAt core (fun k => { k with rsn := fld v 15 8 })) := rfl
  rw [e]
  have H := requested core v [0, 1, 2, 3] (s.modCoreAt core (fun k => { k with rsn := fld v 15 8 })) (by decide) (by decide)
  generalize [0, 1, 2, 3].foldl (requestOne core v) (s.modCoreAt core (fun k => { k with rsn := fld v 15 8 })) = t at H ⊢
  have ec : ∀ q y, (s.modCoreAt core (fun k => { k with rsn := fld v 15 8 })).ctxAt q y = s.ctxAt q y := fun _ _ => rfl
  have mem4 : ∀ y : Nat, y < 4 → y ∈ [0, 1, 2, 3] := by intro y hy; simp only [List.mem_cons, List.not_mem_nil, or_false]; omega
  refine ⟨?_, fun y hy => ?_, fun y hy hf hr => ?_, fun q y hy hn => ?_, fun q hq => ?_, ?_⟩
  · rw [H.rsn, State.coreAt_modCoreAt]
  · rw [H.rq y hy, State.coreAt_modCoreAt, decide_eq_true (mem4 y hy), ec]; rfl
  · rw [H.ctx core y (by omega), ec, if_pos ⟨rfl, mem4 y hy, hf, hr⟩]; rfl
  · rw [H.ctx q y hy, ec, ec, if_neg]
    rintro ⟨rfl, h2, h3, h4⟩
    exact hn ⟨rfl, by simp only [List.mem_cons, List.not_mem_nil, or_false] at h2; omega, h3, h4⟩
  · rw [H.cores q hq]; unfold State.modCoreAt; rw [State.coreAt_setCoreAt_ne _ _ hq]
  · exact ⟨H.rest.1, H.rest.2.1, H.rest.2.2.1, H.rest.2.2.2.1, H.rest.2.2.2.2.1, H.rest.2.2.2.2.2.1, H.rest.2.2.2.2.2.2.1⟩

theorem migrRefused_iff (c : Ctx) (v : Word) : c.migrRefused v = true ↔ c.RefusesMove v := by
  unfold Ctx.migrRefused Ctx.RefusesMove
  simp only [Bool.or_eq_true, Bool.not_eq_true', Bool.and_eq_false_iff, bne_iff_ne, beq_eq_false_iff_ne, Eff.migrate, or_assoc]

theorem mts_run {s : State} {sp : Bool} {a : Reg} {n : Nat} (hn : n ∈ [0x101, 0x106]) :
    exec (.mts sp a (BitVec.ofNat 14 n)) s = issue s sp 4 (do
      Act.sregNumber n
      Act.check false (illegal 0)
      Act.check (false && !(← Act.sup)) privFault
      mtsRest a n) := by
  have hn2 : (BitVec.ofNat 14 n).toNat = n := by
      rw [BitVec.toNat_ofNat]; apply Nat.mod_eq_of_lt; simp only [List.mem_cons, List.not_mem_nil, or_false] at hn; omega
  have hw : (!writable n && !supWritable n && !sysWritable n) = false ∧ supWritable n = false := by
    simp only [List.mem_cons, List.not_mem_nil, or_false] at hn
    rcases hn with h | h <;> subst h <;> decide
  show issue s sp 4 (do
      Act.sregNumber (BitVec.ofNat 14 n).toNat
      Act.check (!writable (BitVec.ofNat 14 n).toNat && !supWritable (BitVec.ofNat 14 n).toNat && !sysWritable (BitVec.ofNat 14 n).toNat) (illegal 0)
      Act.check (supWritable (BitVec.ofNat 14 n).toNat && !(← Act.sup)) privFault
      mtsRest a (BitVec.ofNat 14 n).toNat) = _
  rw [hn2, hw.1, hw.2]

theorem mtsRest_run {s : State} {a : Reg} {n : Nat} (hn : n ∈ [0x101, 0x106]) (hc : s.Clean) (hs : s.ctx.stat.sup = true) :
    (do
      Act.sregNumber n
      Act.check false (illegal 0)
      Act.check (false && !(← Act.sup)) privFault
      mtsRest a n) (s.issued 4) = (if n = 0x101 then Act.upd (fun t => t.writePreq t.pid (s.ctx.g a))
    else do
      Act.check (s.ctx.migrRefused (s.ctx.g a)) (illegal (s.ctx.g a))
      Act.updCtx (fun c => c.requestMove (s.ctx.g a))) (s.issued 4) := by
  obtain ⟨v, hv⟩ := special_some (s.issued 4) n (by simp only [List.mem_cons, List.not_mem_nil, or_false] at hn ⊢; omega)
  have h82 : (decide (0x80 ≤ n) && decide (n ≤ 0x82)) = false := by
    simp only [List.mem_cons, List.not_mem_nil, or_false] at hn
    rcases hn with h | h <;> subst h <;> rfl
  rw [Act.bind_ok (sregNumber_ok (s := s.issued 4) (.inr (by simpa using hs)) hv), Act.bind_ok (Act.check_false _ _), Act.bind_ok (Act.sup_apply _), Bool.false_and,
    Act.bind_ok (Act.check_false _ _)]
  unfold mtsRest
  rw [Act.bind_ok (Act.rdG_clean (hc.issued 4) a), Act.bind_ok (Act.ctx_apply _), State.issued_g]
  rw [h82, Bool.false_and, Act.bind_ok (Act.check_false _ _)]
  simp only [List.mem_cons, List.not_mem_nil, or_false] at hn
  rcases hn with h | h
  · rw [if_pos h, if_pos h]
  · rw [if_neg (by omega), if_pos h, if_neg (by omega)]
    have e : (s.issued 4).ctx.migrRefused (s.ctx.g a) = s.ctx.migrRefused (s.ctx.g a) := by
      unfold State.issued Ctx.migrRefused
      rw [State.ctx_modCtx]
    rw [e]

theorem asks_first {s : State} {i : Nat} {a : Asked} {rest : List Asked} {core cx reg : Nat} {v : Word} (h : s.WriteComes i a rest core cx reg v) :
    (s.net.asks.take i).any (fun b => b.pid == a.pid && b.cx == a.cx && (match b.ask with
      | .sysWr c _ _ _ => c == core
      | _ => false)) = false := by
  rw [List.any_eq_false]
  intro b hb he
  simp only [Bool.and_eq_true, beq_iff_eq] at he
  obtain ⟨⟨h1, h2⟩, h3⟩ := he
  cases e : b.ask with
  | sysWr c x r w =>
    rw [e] at h3
    have hc : c = core := by simpa using h3
    subst hc
    exact h.first b hb h1 h2 _ _ _ e
  | _ => rw [e] at h3; simp at h3

theorem syswrApply_of {s : State} {i : Nat} {a : Asked} {rest : List Asked} {core cx reg : Nat} {v : Word} (h : s.WriteComes i a rest core cx reg v) :
    exec (.syswrApply i) s = .next (
      if reg = 0x101 then (s.modNet (fun n => { n with asks := rest })).writePreq core v
      else if reg ≠ 0x100 then s.modNet (fun n => { n with asks := rest })
      else if (s.ctxAt core cx).run == .free then s.modNet (fun n => { n with asks := rest })
      else if s.between core cx then (s.modNet (fun n => { n with asks := rest })).modCtxAt core cx (fun c => c.write reg v)
      else s) := by
  show execSyswrApply i s = _
  unfold execSyswrApply
  rw [takeAt_getElem?, h.here]
  simp only [Option.map_some, h.ask, h.rest]
  refine congrArg Host.Outcome.next (if_neg ?_)
  rw [Bool.not_eq_true]
  exact asks_first h

theorem preq_rules :
    (∀ (s : State) (core : Nat) (v : Word), ∃ t, exec (.preqWrite core v) s = .next t ∧ s.PreqWritten t core v)
  ∧ (∀ (s : State) (sp : Bool) (a : Reg), s.Clean → s.ctx.stat.sup = true →
      (∃ t : State, exec (.mts sp a 0x101) s = .next (t.switch sp) ∧ (s.issued 4).PreqWritten t s.pid (s.ctx.g a))
      ∧ (¬ s.ctx.RefusesMove (s.ctx.g a) → exec (.mts sp a 0x106) s = .next (s.after sp 4 (fun c => { c with migr := some (s.ctx.g a), run := .parked .reply })))
      ∧ (s.ctx.RefusesMove (s.ctx.g a) → exec (.mts sp a 0x106) s = .next (s.raised { eff := 0x001, arg := s.ctx.g a })))
  ∧ (∀ (s : State) (core cx : Nat) (v : Word), ¬ (s.ctxAt core cx).RefusesMove v →
      exec (.migrWrite core cx v) s = .next (s.modCtxAt core cx (fun c => { c with migr := some v, run := .parked .reply })))
  ∧ (∀ (s : State) (core cx : Nat) (v : Word), (s.ctxAt core cx).RefusesMove v → exec (.migrWrite core cx v) s = .next (s.fault core cx { eff := 0x001, arg := v }))
  ∧ (∀ (s : State) (i : Nat) (a : Asked) (rest : List Asked) (core cx reg : Nat) (v : Word), s.WriteComes i a rest core cx reg v →
      (reg = 0x101 → ∃ t, exec (.syswrApply i) s = .next t ∧ (s.modNet (fun n => { n with asks := rest })).PreqWritten t core v)
      ∧ (reg = 0x100 → (s.ctxAt core cx).run = .free → exec (.syswrApply i) s = .next (s.modNet (fun n => { n with asks := rest })))
      ∧ (reg = 0x100 → s.Standing core cx → exec (.syswrApply i) s = .next ((s.modNet (fun n => { n with asks := rest })).modCtxAt core cx
          (fun c => { c with space := { c.space with ptroot := v &&& 0xFFFFFFFFFFFF } })))) := by
  refine ⟨fun s core v => ⟨_, rfl, writePreq_written s core v⟩, fun s sp a hc hs => ⟨?_, fun hm => ?_, fun hm => ?_⟩, fun s core cx v h => ?_, fun s core cx v h => ?_,
    fun s i a rest core cx reg v h => ⟨fun hr => ?_, fun hr hf => ?_, fun hr hf => ?_⟩⟩
  · refine ⟨_, (mts_run (n := 0x101) (by simp)).trans (issue_ok ((mtsRest_run (n := 0x101) (by simp) hc hs).trans ?_)), writePreq_written _ _ _⟩
    rw [if_pos rfl]; rfl
  · refine (mts_run (n := 0x106) (by simp)).trans (issue_after ((mtsRest_run (n := 0x106) (by simp) hc hs).trans ?_))
    rw [if_neg (by decide), Bool.eq_false_iff.2 (fun e => hm ((migrRefused_iff _ _).1 e)), Act.bind_ok (Act.check_false _ _)]; rfl
  · refine (mts_run (n := 0x106) (by simp)).trans (issue_raise hc ((mtsRest_run (n := 0x106) (by simp) hc hs).trans ?_))
    rw [if_neg (by decide), (migrRefused_iff _ _).2 hm]
    exact Act.bind_error (Act.check_true _ _)
  · show execMigrWrite core cx v s = _
    unfold execMigrWrite
    rw [if_neg (fun e => h ((migrRefused_iff _ _).1 e))]; rfl
  · show execMigrWrite core cx v s = _
    unfold execMigrWrite
    rw [if_pos ((migrRefused_iff _ _).2 h)]; rfl
  · rw [syswrApply_of h, if_pos hr]
    exact ⟨_, rfl, writePreq_written _ _ _⟩
  · subst hr
    rw [syswrApply_of h, if_neg (by decide), if_neg (by decide), hf]; rfl
  · subst hr
    rw [syswrApply_of h, if_neg (by decide), if_neg (by decide), if_neg, if_pos]
    · rfl
    · exact standing_between hf
    · rw [beq_iff_eq]; exact hf.run

end Sys2Proof.Machine
end

