-- ==== Sys2Proof/Laws/Migrating.lean ====
section
/-! SUPPORT. The move of a context to another core, and changed maps. -/

set_option Elab.async false

namespace Sys2Proof.Machine

theorem moveArea_kept (s : State) (src dst : Nat) (a : Nat × Nat) : (s.moveArea src dst a).ctxs = s.ctxs ∧ (s.moveArea src dst a).cores = s.cores ∧ (s.moveArea src dst a).vers = s.vers
    ∧ (s.moveArea src dst a).launches = s.launches ∧ (s.moveArea src dst a).sys = s.sys ∧ (s.moveArea src dst a).dies = s.dies ∧ (s.moveArea src dst a).copies = s.copies ∧ (s.moveArea src dst a).time = s.time := by
  unfold State.moveArea State.wr
  exact ⟨rfl, rfl, rfl, rfl, rfl, rfl, rfl, rfl⟩

theorem moveAreas_kept (src dst : Nat) : ∀ (l : List (Nat × Nat)) (s : State),
    (l.foldl (fun u a => u.moveArea src dst a) s).ctxs = s.ctxs ∧ (l.foldl (fun u a => u.moveArea src dst a) s).cores = s.cores ∧ (l.foldl (fun u a => u.moveArea src dst a) s).vers = s.vers
    ∧ (l.foldl (fun u a => u.moveArea src dst a) s).launches = s.launches ∧ (l.foldl (fun u a => u.moveArea src dst a) s).sys = s.sys ∧ (l.foldl (fun u a => u.moveArea src dst a) s).dies = s.dies
    ∧ (l.foldl (fun u a => u.moveArea src dst a) s).copies = s.copies ∧ (l.foldl (fun u a => u.moveArea src dst a) s).time = s.time := by
  intro l
  induction l with
  | nil => intro s; exact ⟨rfl, rfl, rfl, rfl, rfl, rfl, rfl, rfl⟩
  | cons a l ih =>
    intro s
    obtain ⟨h1, h2, h3, h4, h5, h6, h7, h8⟩ := ih (s.moveArea src dst a)
    obtain ⟨k1, k2, k3, k4, k5, k6, k7, k8⟩ := moveArea_kept s src dst a
    rw [List.foldl_cons]
    exact ⟨h1.trans k1, h2.trans k2, h3.trans k3, h4.trans k4, h5.trans k5, h6.trans k6, h7.trans k7, h8.trans k8⟩

/-- The two states agree but for their cores. -/
structure SameButCores (s t : State) : Prop where
  ctxs : t.ctxs = s.ctxs
  mem : t.mem = s.mem
  vers : t.vers = s.vers
  launches : t.launches = s.launches
  sys : t.sys = s.sys
  dies : t.dies = s.dies
  copies : t.copies = s.copies
  time : t.time = s.time

theorem SameButCores.trans {s t u : State} (h : SameButCores s t) (k : SameButCores t u) : SameButCores s u :=
  ⟨k.ctxs.trans h.ctxs, k.mem.trans h.mem, k.vers.trans h.vers, k.launches.trans h.launches, k.sys.trans h.sys, k.dies.trans h.dies, k.copies.trans h.copies, k.time.trans h.time⟩

theorem moveTiles_same (s : State) (src dst : Nat) (l : Launch) : SameButCores s (s.moveTiles src dst l) := by
  unfold State.moveTiles
  exact ⟨rfl, rfl, rfl, rfl, rfl, rfl, rfl, rfl⟩

theorem moveStream_same (s : State) (src dst n : Nat) : SameButCores s (s.moveStream src dst n) := by
  unfold State.moveStream State.setStream
  exact ⟨rfl, rfl, rfl, rfl, rfl, rfl, rfl, rfl⟩

theorem moveStreams_same (s : State) (src dst : Nat) (l : List Nat) : SameButCores s (s.moveStreams src dst l) := by
  have hs : ∀ (s : State) (n : Nat) v, SameButCores s (s.setSeq src n v) := fun s n v => by
    unfold State.setSeq
    exact ⟨rfl, rfl, rfl, rfl, rfl, rfl, rfl, rfl⟩
  have h1 : ∀ (l : List Nat) (s : State), SameButCores s (l.foldl (fun t n => t.moveStream src dst n) s) := by
    intro l
    induction l with
    | nil => intro s; exact ⟨rfl, rfl, rfl, rfl, rfl, rfl, rfl, rfl⟩
    | cons n l ih => intro s; exact (moveStream_same s src dst n).trans (ih _)
  have h2 : ∀ (l : List Nat) (s : State), SameButCores s (l.foldl (fun t q => t.setSeq src q ⟨false, []⟩) s) := by
    intro l
    induction l with
    | nil => intro s; exact ⟨rfl, rfl, rfl, rfl, rfl, rfl, rfl, rfl⟩
    | cons n l ih => intro s; exact (hs s n _).trans (ih _)
  exact (h1 l s).trans (h2 _ _)

/-- What the channels of a moving context's copies may change: cores, and waits in WMWAIT on the source. -/
structure MarksOnly (s t : State) (core : Nat) : Prop where
  ctxs : ∀ q y, y < 8 → s.SameButMark t core q y
  mem : t.mem = s.mem
  vers : t.vers = s.vers
  launches : t.launches = s.launches
  sys : t.sys = s.sys
  dies : t.dies = s.dies
  copies : t.copies = s.copies
  time : t.time = s.time

theorem MarksOnly.refl {s t : State} {core : Nat} (h : SameButCores s t) : MarksOnly s t core :=
  ⟨fun q y _ => ⟨(s.ctxAt q y).run, by unfold State.ctxAt; rw [h.ctxs], .inl rfl⟩, h.mem, h.vers, h.launches, h.sys, h.dies, h.copies, h.time⟩

theorem MarksOnly.trans {s t u : State} {core : Nat} (h : MarksOnly s t core) (k : MarksOnly t u core) : MarksOnly s u core := by
  refine ⟨fun q y hy => ?_, k.mem.trans h.mem, k.vers.trans h.vers, k.launches.trans h.launches, k.sys.trans h.sys, k.dies.trans h.dies, k.copies.trans h.copies, k.time.trans h.time⟩
  obtain ⟨r, e, hr⟩ := h.ctxs q y hy
  obtain ⟨r', e', hr'⟩ := k.ctxs q y hy
  rw [e] at e' hr'
  refine ⟨r', e', ?_⟩
  rcases hr' with rfl | ⟨hq, hm⟩
  · exact hr
  · rcases hr with rfl | ⟨-, hn⟩
    · exact .inr ⟨hq, hm⟩
    · obtain ⟨_, _, _, _, _, ⟨_, h⟩ | ⟨_, h⟩⟩ := hn <;> obtain ⟨_, _, _, _, _, ⟨k, _⟩ | ⟨k, _⟩⟩ := hm <;> rw [h] at k <;> exact absurd k (by simp)

theorem modCtxAt_marks (s : State) (core x : Nat) (hx : x < 8) (r : Run) (h : r = (s.ctxAt core x).run ∨ (s.ctxAt core x).run.MarkEnded r) :
    MarksOnly s (s.modCtxAt core x (fun c => { c with run := r })) core := by
  refine ⟨fun q y hy => ?_, rfl, rfl, rfl, rfl, rfl, rfl, rfl⟩
  by_cases hk : ctxKey q y = ctxKey core x
  · have : q = core ∧ y = x := by unfold ctxKey at hk; omega
    obtain ⟨rfl, rfl⟩ := this
    exact ⟨r, by unfold State.modCtxAt; rw [State.ctxAt_setCtxAt], h.imp_right fun h => ⟨rfl, h⟩⟩
  · exact ⟨(s.ctxAt q y).run, by unfold State.modCtxAt; rw [State.ctxAt_setCtxAt_ne _ _ (fun e => hk e)], .inl rfl⟩

theorem endMarks_marks (s : State) (core ch id mark : Nat) : MarksOnly s (s.endMarks core ch id mark) core := by
  unfold State.endMarks
  have : ∀ (l : List Nat) (s : State), (∀ x ∈ l, x < 8) → MarksOnly s (l.foldl (fun s cx =>
      match (s.ctxAt core cx).run with
      | .parked w => s.modCtxAt core cx (fun c => { c with run := .parked (match w with
          | .wmark c i goal d => if c = ch ∧ i = id then .wmEnd d (if goal ≤ mark then 0 else 1) else w
          | w => w) })
      | .stalled w => s.modCtxAt core cx (fun c => { c with run := .stalled (match w with
          | .wmark c i goal d => if c = ch ∧ i = id then .wmEnd d (if goal ≤ mark then 0 else 1) else w
          | w => w) })
      | _ => s) s) core := by
    intro l
    induction l with
    | nil => exact fun s _ => .refl ⟨rfl, rfl, rfl, rfl, rfl, rfl, rfl, rfl⟩
    | cons x l ih =>
      intro s hl
      rw [List.foldl_cons]
      refine MarksOnly.trans ?_ (ih _ fun y hy => hl y (List.mem_cons_of_mem _ hy))
      have hx := hl x (List.mem_cons_self ..)
      cases e : (s.ctxAt core x).run with
      | parked w =>
        refine modCtxAt_marks s core x hx _ ?_
        rw [e]
        cases w with
        | wmark c i goal d =>
          dsimp only
          by_cases hc : c = ch ∧ i = id
          · rw [if_pos hc]; exact .inr ⟨_, _, _, _, _, .inl ⟨rfl, rfl⟩⟩
          · rw [if_neg hc]; exact .inl rfl
        | _ => exact .inl rfl
      | stalled w =>
        refine modCtxAt_marks s core x hx _ ?_
        rw [e]
        cases w with
        | wmark c i goal d =>
          dsimp only
          by_cases hc : c = ch ∧ i = id
          · rw [if_pos hc]; exact .inr ⟨_, _, _, _, _, .inr ⟨rfl, rfl⟩⟩
          · rw [if_neg hc]; exact .inl rfl
        | _ => exact .inl rfl
      | _ => exact .refl ⟨rfl, rfl, rfl, rfl, rfl, rfl, rfl, rfl⟩
  exact this _ s (by decide)

theorem modCoreAt_marks (s : State) (core p : Nat) (f : Core → Core) : MarksOnly s (s.modCoreAt p f) core := .refl ⟨rfl, rfl, rfl, rfl, rfl, rfl, rfl, rfl⟩

theorem freeChan_marks (s : State) (core : Nat) (c : Copy) (ok : Bool) : MarksOnly s (s.freeChan core c ok) core := by
  unfold State.freeChan
  dsimp only
  by_cases h : (Tab.get Chan.reset (s.coreAt core).chans c.ch).copy ≠ some c.id
  · rw [if_pos h]; exact .refl ⟨rfl, rfl, rfl, rfl, rfl, rfl, rfl, rfl⟩
  · rw [if_neg h]; exact (modCoreAt_marks s core core _).trans (endMarks_marks _ _ _ _ _)

theorem endMarks_cores (s : State) (core ch id mark : Nat) : (s.endMarks core ch id mark).cores = s.cores := by
  unfold State.endMarks
  dsimp only
  generalize [0, 1, 2, 3] = l
  induction l generalizing s with
  | nil => rfl
  | cons x l ih =>
    rw [List.foldl_cons, ih]
    split <;> rfl

theorem freeChan_core (s : State) {core p : Nat} (hp : p ≠ core) (c : Copy) (ok : Bool) : (s.freeChan core c ok).coreAt p = s.coreAt p := by
  unfold State.freeChan
  dsimp only
  by_cases h : (Tab.get Chan.reset (s.coreAt core).chans c.ch).copy ≠ some c.id
  · rw [if_pos h]
  · rw [if_neg h]
    show Tab.get _ (State.cores _) p = _
    rw [endMarks_cores]
    exact coreAt_modCoreAt_ne _ _ hp

theorem moveChan_spec (s : State) {core dst : Nat} (hne : dst ≠ core) (i : Nat) : MarksOnly s (s.moveChan core dst i) core
    ∧ (∀ ch, (∀ c, s.copies[i]? = some c → c.ch ≠ ch) → Tab.get Chan.reset ((s.moveChan core dst i).coreAt dst).chans ch = Tab.get Chan.reset (s.coreAt dst).chans ch)
    ∧ (∀ c, s.copies[i]? = some c → (Tab.get Chan.reset ((s.moveChan core dst i).coreAt dst).chans c.ch).copy = some c.id) := by
  unfold State.moveChan
  cases hc : s.copies[i]? with
  | none => exact ⟨.refl ⟨rfl, rfl, rfl, rfl, rfl, rfl, rfl, rfl⟩, fun _ _ => rfl, fun _ h => absurd h (by simp)⟩
  | some c =>
    dsimp only
    have key : ∀ t : State, MarksOnly s t core → t.copies[i]? = some c →
        (∀ ch, c.ch ≠ ch → Tab.get Chan.reset (t.coreAt dst).chans ch = Tab.get Chan.reset (s.coreAt dst).chans ch) →
        (Tab.get Chan.reset (t.coreAt dst).chans c.ch).copy = some c.id → ∀ u : State, u = (if core = c.pid then t.freeMoved i else t.freeChan core c (c.first == 0)) →
        MarksOnly s u core ∧ (∀ ch, (∀ x, some c = some x → x.ch ≠ ch) → Tab.get Chan.reset (u.coreAt dst).chans ch = Tab.get Chan.reset (s.coreAt dst).chans ch)
        ∧ (∀ x, some c = some x → (Tab.get Chan.reset (u.coreAt dst).chans x.ch).copy = some x.id) := by
      intro t ht hi h1 h2 u hu
      have hk : MarksOnly t u core ∧ u.coreAt dst = t.coreAt dst := by
        rw [hu]
        by_cases hp : core = c.pid
        · rw [if_pos hp]
          unfold State.freeMoved
          rw [hi]
          dsimp only
          rw [← hp]
          split
          · exact ⟨.refl ⟨rfl, rfl, rfl, rfl, rfl, rfl, rfl, rfl⟩, rfl⟩
          · exact ⟨freeChan_marks _ _ _ _, freeChan_core _ hne _ _⟩
        · rw [if_neg hp]; exact ⟨freeChan_marks _ _ _ _, freeChan_core _ hne _ _⟩
      refine ⟨ht.trans hk.1, fun ch hch => ?_, fun x hx => ?_⟩
      · rw [hk.2]; exact h1 ch (hch c rfl)
      · cases hx; rw [hk.2]; exact h2
    by_cases ho : (Tab.get Chan.reset (s.coreAt dst).chans c.ch).copy = some c.id
    · rw [if_pos ho]
      exact key s (.refl ⟨rfl, rfl, rfl, rfl, rfl, rfl, rfl, rfl⟩) hc (fun _ _ => rfl) ho _ rfl
    · rw [if_neg ho]
      refine key _ (modCoreAt_marks _ _ _ _) hc (fun ch h => ?_) ?_ _ rfl
      · rw [State.coreAt_modCoreAt]; exact Tab.get_set_ne _ _ _ (fun e => h e.symm)
      · rw [State.coreAt_modCoreAt]; dsimp only; rw [Tab.get_set, if_pos rfl]

theorem moveChans_spec (s : State) {core dst : Nat} (hne : dst ≠ core) (act : Nat) : MarksOnly s (s.moveChans core dst act) core
    ∧ ∀ x ∈ s.copies, x.act = act → (∀ y ∈ s.copies, y.act = act → y.ch = x.ch → y.id = x.id) →
      (Tab.get Chan.reset ((s.moveChans core dst act).coreAt dst).chans x.ch).copy = some x.id := by
  unfold State.moveChans
  have step : ∀ (l : List Nat) (t : State), MarksOnly s t core → ∀ u, u = l.foldl (fun t i => if (s.copies[i]?.map (fun c => c.act)) = some act then t.moveChan core dst i else t) t →
      MarksOnly s u core ∧ ∀ x ∈ s.copies, x.act = act → (∀ y ∈ s.copies, y.act = act → y.ch = x.ch → y.id = x.id) →
        ((Tab.get Chan.reset (t.coreAt dst).chans x.ch).copy = some x.id ∨ (∃ i ∈ l, s.copies[i]? = some x)) →
        (Tab.get Chan.reset (u.coreAt dst).chans x.ch).copy = some x.id := by
    intro l
    induction l with
    | nil => rintro t ht u rfl; exact ⟨ht, fun x _ _ _ h => h.elim id fun ⟨i, hi, _⟩ => absurd hi (by simp)⟩
    | cons i l ih =>
      rintro t ht u rfl
      rw [List.foldl_cons]
      by_cases hi : (s.copies[i]?.map (fun c => c.act)) = some act
      · rw [if_pos hi]
        obtain ⟨m1, m2, m3⟩ := moveChan_spec t hne i
        rw [ht.copies] at m2 m3
        obtain ⟨k1, k2⟩ := ih _ (ht.trans m1) _ rfl
        obtain ⟨c, hc, ha⟩ := Option.map_eq_some_iff.1 hi
        refine ⟨k1, fun x hx hxa hu h => k2 x hx hxa hu ?_⟩
        by_cases hch : c.ch = x.ch
        · have := m3 c hc
          rw [hch, hu c (List.mem_of_getElem? hc) ha hch] at this
          exact .inl this
        · rcases h with h | ⟨j, hj, hjx⟩
          · rw [m2 x.ch (fun c' h' => by rw [hc] at h'; cases h'; exact hch)]; exact .inl h
          · rcases List.mem_cons.1 hj with rfl | hj
            · rw [hc] at hjx; cases hjx; exact absurd rfl hch
            · exact .inr ⟨j, hj, hjx⟩
      · rw [if_neg hi]
        obtain ⟨k1, k2⟩ := ih t ht _ rfl
        refine ⟨k1, fun x hx hxa hu h => k2 x hx hxa hu (h.imp_right ?_)⟩
        rintro ⟨j, hj, hjx⟩
        rcases List.mem_cons.1 hj with rfl | hj
        · exact absurd (by rw [hjx]; simpa using hxa) hi
        · exact ⟨j, hj, hjx⟩
  obtain ⟨h1, h2⟩ := step (List.range s.copies.length) s (.refl ⟨rfl, rfl, rfl, rfl, rfl, rfl, rfl, rfl⟩) _ rfl
  refine ⟨h1, fun x hx hxa hu => h2 x hx hxa hu (.inr ?_)⟩
  obtain ⟨i, hi⟩ := List.mem_iff_getElem?.1 hx
  exact ⟨i, List.mem_range.2 (List.getElem?_eq_some_iff.1 hi).1, hi⟩

theorem setBit_clear (b : BitVec 4) (i : Nat) (hi : i < 4) : (setBit b i false).getLsbD i = false := by
  unfold setBit
  rw [if_neg (by decide), BitVec.getLsbD_and]
  have : ∀ i < 4, (~~~ BitVec.ofNat 4 (2 ^ i)).getLsbD i = false := by decide
  rw [this i hi]; simp

theorem moved {s u : State} {core cx target : Nat} (hx : cx < 4) (hne : target ≠ core)
    (hu : SameButCores ((s.moveAreas core (s.ctxAt core cx)).foldl (fun u a => u.moveArea core target a) s) u) :
    s.Moved ((u.moveChans core target (s.ctxAt core cx).act).moveCtx core target cx) core cx target := by
  obtain ⟨k1, k2, k3, k4, k5, k6, k7, k8⟩ := moveAreas_kept core target (s.moveAreas core (s.ctxAt core cx)) s
  obtain ⟨hm, hch⟩ := moveChans_spec u hne (s.ctxAt core cx).act
  generalize u.moveChans core target (s.ctxAt core cx).act = w at hm hch ⊢
  have hc : ∀ q y, y < 8 → s.SameButMark w core q y := by
    intro q y hy
    have := hm.ctxs q y hy
    unfold State.SameButMark at this ⊢
    have e : u.ctxAt q y = s.ctxAt q y := by unfold State.ctxAt; rw [hu.ctxs, k1]
    rwa [e] at this
  have ht : w.time = s.time := (hm.time.trans hu.time).trans k8
  have hk : ctxKey target cx ≠ ctxKey core cx := by unfold ctxKey; omega
  unfold State.moveCtx
  dsimp only
  have ec : ∀ (w : State) p (f : Core → Core) q y, (w.modCoreAt p f).ctxAt q y = w.ctxAt q y := fun _ _ _ _ _ => rfl
  have em : ∀ (w : State) p (f : Ctx) x q, (w.setCtxAt p x f).coreAt q = w.coreAt q := fun _ _ _ _ _ => rfl
  obtain ⟨r, er, -⟩ := hc core cx (by omega)
  obtain ⟨r', er', -⟩ := hc target cx (by omega)
  refine ⟨?_, ?_, fun q y hy h1 h2 => ?_, ?_, ?_, ?_, ?_, ?_⟩
  · rw [ec, ec, State.ctxAt_setCtxAt_ne _ _ hk, State.ctxAt_setCtxAt, er, er', ht]
  · rw [ec, ec, State.ctxAt_setCtxAt, er]; rfl
  · unfold State.SameButMark
    rw [ec, ec, State.ctxAt_setCtxAt_ne, State.ctxAt_setCtxAt_ne]
    · exact hc q y hy
    · unfold ctxKey; omega
    · unfold ctxKey; omega
  · intro x hxm hxa hu'
    rw [← k7, ← hu.copies] at hxm
    rw [← k7, ← hu.copies] at hu'
    rw [State.coreAt_modCoreAt]
    dsimp only
    rw [coreAt_modCoreAt_ne _ _ hne]
    exact hch x hxm hxa hu'
  · exact hm.mem.trans hu.mem
  · unfold State.modCoreAt
    rw [State.coreAt_setCoreAt_ne _ _ (fun e => hne e.symm), State.coreAt_setCoreAt]
    exact setBit_clear _ _ hx
  · rw [State.coreAt_modCoreAt]
    dsimp only
    rw [er]
    exact List.mem_append_right _ (List.mem_singleton.2 rfl)
  · exact ⟨(hm.vers.trans hu.vers).trans k3, (hm.launches.trans hu.launches).trans k4, (hm.sys.trans hu.sys).trans k5, (hm.dies.trans hu.dies).trans k6, (hm.copies.trans hu.copies).trans k7⟩

/-- What a map change does with packets on their way and with held ones is the change of the table, then the overtaking, then the release. -/
theorem remapped_eq (s : State) (launch lid target : Nat) (park : Bool) : s.remapped launch lid target park =
    (let v := (s.modLaunch launch (fun l => { l with map := Tab.set l.map lid (target, park) })).overtake launch lid (s.resolve launch lid).1 target park
    if park then v else v.releaseHeld launch lid target) := by
  unfold State.remapped State.overtake State.overtaken
  dsimp only
  have hm : (s.modLaunch launch (fun l => { l with map := Tab.set l.map lid (target, park) })).moving (s.resolve launch lid).1 launch = s.moving (s.resolve launch lid).1 launch := rfl
  rw [hm]
  have h0 : ∀ l : List Pkt, l.filter (fun _ => false) = [] := fun l => List.filter_eq_nil_iff.2 (by simp)
  have h3 : ∀ l : List Pkt, l.filter (fun _ => true) = l := fun l => List.filter_eq_self.2 (by simp)
  cases park with
  | true =>
    by_cases h1 : (s.resolve launch lid).1 = target
    · cases h2 : s.moving (s.resolve launch lid).1 launch with
      | true => rw [h1] at h2; simp [h1, h2, State.modNet, State.modLaunch]
      | false => rw [h1] at h2; simp [h1, h2, h0, h3, State.modNet, State.modLaunch]
    · have hb : ((s.resolve launch lid).1 != target) = true := by simpa using h1
      simp [h1, hb, State.modNet, State.modLaunch]
  | false =>
    by_cases h1 : (s.resolve launch lid).1 = target
    · simp [h1, State.modNet, State.modLaunch, State.releaseHeld]
    · have hb : ((s.resolve launch lid).1 != target) = true := by simpa using h1
      simp [h1, hb, State.modNet, State.modLaunch, State.releaseHeld]

theorem overtake_ctxAt (s : State) (launch lid old core : Nat) (on : Bool) (p x : Nat) : (s.overtake launch lid old core on).ctxAt p x = s.ctxAt p x := by
  unfold State.overtake
  dsimp only
  split
  · split <;> rfl
  · split <;> rfl

theorem answered_of {s t : State} {p x act : Nat} {f : Ctx → Ctx} (h : (s.ctxAt p x).act = act)
    (hr : (s.ctxAt p x).run = .parked .reply ∨ (s.ctxAt p x).run = .stalled .reply) (hc : t.ctxAt p x = s.ctxAt p x) :
    t.answer p x act f = t.modCtxAt p x (fun c => { f c with pc := c.pc + 4, run := .runnable }) :=
  answered (by rw [hc]; exact h) (by rw [hc]; exact hr)

theorem modCtxAt_both {s t : State} {p x : Nat} {f g : Ctx → Ctx} (h : s = t) (hf : ∀ c, f c = g c) : s.modCtxAt p x f = t.modCtxAt p x g := by
  subst h; rw [funext hf]

theorem move_rules :
    (∀ (s : State) (core cx since target : Nat), (s.ctxAt core cx).migp = some (since, target) → cx < 4 →
    (since + 2 * Config.tickMs ≤ s.time → ∃ t, exec (.migrateWithdrawal core cx) s = .next t
      ∧ (s.modCtxAt core cx (fun c => { c with migp := none })).PreqWritten t core (W (0x12 * 256 + 2 ^ cx)))
    ∧ (s.time < since + 2 * Config.tickMs → exec (.migrateWithdrawal core cx) s = .next s))
  ∧ (∀ (s : State) (core cx : Nat) (v : Word), (s.ctxAt core cx).migr = some v → cx < 4 → fld v 10 0 ≠ core →
    (s.moveReady core (s.ctxAt core cx) = true → ∃ t, exec (.migrationMove core cx) s = .next t ∧ s.Moved t core cx (fld v 10 0))
    ∧ (s.moveReady core (s.ctxAt core cx) = false → exec (.migrationMove core cx) s = .next s))
  ∧ (∀ (s : State) (i : Nat) (a : Asked) (d : Reg) (launch lid entry : Nat), s.net.asks[i]? = some a → a.ask = .mapLid d launch lid entry →
    (s.ctxAt a.pid a.cx).act = a.act → ((s.ctxAt a.pid a.cx).run = .parked .reply ∨ (s.ctxAt a.pid a.cx).run = .stalled .reply) →
    (s.sys.lval = false → exec (.mapChange i) s = .next s)
    ∧ (s.sys.lval = true → exec (.mapChange i) s = .next (((s.modNet (fun n => { n with asks := n.asks.eraseIdx i })).remapped launch lid (entry % 2 ^ 11) (bitOf entry 63)).modCtxAt
        a.pid a.cx (fun c => { c.setG d (W ((s.resolve launch lid).1 % 2 ^ 11 + b2n (s.resolve launch lid).2 * 2 ^ 63)) with
          reserve := if bitOf entry 63 = false ∧ c.reserve = some (entry % 2 ^ 11) then none else c.reserve
          pc := c.pc + 4, run := .runnable })))) := by
  refine ⟨fun s core cx since target hm hx => ⟨fun h => ?_, fun h => ?_⟩, fun s core cx v hv hx hne => ⟨fun h => ?_, fun h => ?_⟩,
    fun s i a d launch lid entry ha hk h1 h2 => ⟨fun h => ?_, fun h => ?_⟩⟩
  · refine ⟨_, ?_, writePreq_written _ _ _⟩
    show execMigrateWithdrawal core cx s = _
    unfold execMigrateWithdrawal
    rw [hm]
    exact congrArg Host.Outcome.next (if_pos h)
  · show execMigrateWithdrawal core cx s = _
    unfold execMigrateWithdrawal
    rw [hm]
    exact congrArg Host.Outcome.next (if_neg (by omega))
  · refine ⟨_, ?_, moved hx hne ((moveTiles_same _ core (fld v 10 0) (s.launchOr (s.ctxAt core cx).ident.launch.toNat)).trans
      (moveStreams_same _ core (fld v 10 0) (s.ownStreams core (s.ctxAt core cx).act)))⟩
    show execMigrationMove core cx s = _
    unfold execMigrationMove
    dsimp only
    rw [hv]
    exact congrArg Host.Outcome.next (if_pos h)
  · show execMigrationMove core cx s = _
    unfold execMigrationMove
    dsimp only
    rw [hv]
    exact congrArg Host.Outcome.next (if_neg (by rw [h]; decide))
  · show execMapChange i s = _
    unfold execMapChange
    rw [takeAt_getElem?, ha]
    simp only [Option.map_some, hk]
    rw [h]; rfl
  · show execMapChange i s = _
    unfold execMapChange
    rw [takeAt_getElem?, ha]
    simp only [Option.map_some, hk]
    rw [h]
    simp only [Bool.not_true, Bool.false_eq_true, if_false]
    refine congrArg Host.Outcome.next (Eq.trans (answered_of (s := s) h1 h2 ?_) (modCtxAt_both ?_ fun c => ?_))
    · cases bitOf entry 63 with
      | true => rw [if_pos rfl]; exact overtake_ctxAt _ _ _ _ _ _ _ _
      | false => rw [if_neg (by decide)]; exact overtake_ctxAt _ _ _ _ _ _ _ _
    · exact (remapped_eq _ _ _ _ _).symm
    · simp

end Sys2Proof.Machine
end

