-- ==== Sys2Proof/Laws/Accessing.lean ====
section
/-! SUPPORT. An access is carried out at its home. -/

set_option Elab.async false

namespace Sys2Proof.Machine

theorem performs_may {s : State} {i k j : Nat} {r : Req} {p : Piece} (h : s.Performs i k j r p) : s.mayPerform k j r p = true := by
  unfold State.mayPerform State.inTurn
  have h1 : ((s.net.reqs.take k).filter (fun q => q.act == r.act && q.pid == r.pid)).any (fun q => q.acq || q.pieces.any (fun x => x.before p)) = false := by
    rw [List.any_eq_false]
    intro q hq
    rw [List.mem_filter, Bool.and_eq_true, beq_iff_eq, beq_iff_eq] at hq
    obtain ⟨a, c⟩ := h.earlier q hq.1 hq.2.1 hq.2.2
    rw [a, Bool.false_or, List.any_eq_true]
    rintro ⟨x, hx, hx2⟩
    rw [c x hx] at hx2; exact Bool.false_ne_true hx2
  have h2 : (r.rel && s.inFlight r.act r.no) = false := by
    cases hr : r.rel with
    | false => rfl
    | true => rw [h.released hr]; rfl
  have h3 : (r.pieces.take j).any (fun x => x.before p) = false := by
    rw [List.any_eq_false]
    intro x hx; rw [h.own x hx]; exact Bool.false_ne_true
  dsimp only
  rw [h1, h2, h3, h.ready]; rfl

theorem plain_replica {h : Home} (hp : h.Plain) : h.isReplica = false := by
  rcases hp with ⟨q, off, rfl⟩ | ⟨pa, dm, rfl⟩ <;> rfl

theorem performs_kept {s : State} {i k j : Nat} {r : Req} {p : Piece} (h : s.Performs i k j r p) (hp : p.home.isReplica = false) :
    exec (.remoteAccess i) s = .next (((s.performPiece r j p).1.cancelHeld p.home p.len r.writer).putReq k (s.performPiece r j p).2) := by
  show execRemoteAccess i s = _
  unfold execRemoteAccess State.performAccess
  rw [h.place]
  dsimp only
  rw [h.req]
  dsimp only
  rw [h.piece]
  dsimp only
  rw [if_neg (by rw [hp, Bool.and_false]; decide), if_pos (performs_may h)]

theorem cancelHeld_plain {h : Home} (hp : ∀ pa rp dm, h ≠ .dev pa true rp dm) (s : State) (n : Nat) (w : Writer) : s.cancelHeld h n w = s := by
  unfold State.cancelHeld
  split
  · exact absurd rfl (hp _ _ _)
  · rfl

theorem plain_unheld {h : Home} (hp : h.Plain) : ∀ pa rp dm, h ≠ .dev pa true rp dm := by
  rintro pa rp dm rfl
  rcases hp with ⟨q, off, e⟩ | ⟨pa', dm', e⟩
  · cases e
  · cases e

theorem performs_done {s : State} {i k j : Nat} {r : Req} {p : Piece} (h : s.Performs i k j r p) (hp : p.home.Plain) :
    exec (.remoteAccess i) s = .next ((s.performPiece r j p).1.putReq k (s.performPiece r j p).2) := by
  rw [performs_kept h (plain_replica hp), cancelHeld_plain (plain_unheld hp)]

theorem plain_read {s : State} {r : Req} {p : Piece} (hp : p.home.Plain) (hb : s.bad p.home.key p.len = false) : s.readPiece r p = (s, s.rd p.home.key p.len, false) := by
  unfold State.readPiece State.readHome
  rcases hp with ⟨q, off, e⟩ | ⟨pa, dm, e⟩ <;> rw [e] at hb ⊢
  · have : s.bad (Home.readKey s.sys.lead r.pid (.spad q off)) p.len = false := hb
    simp only [Home.outside, this]; rfl
  · have : s.bad (Home.readKey s.sys.lead r.pid (.dev pa false false dm)) p.len = false := hb
    simp only [Home.outside, this]; rfl

theorem plain_write {s : State} {r : Req} {h : Home} (hp : h.Plain) (bs : List Byte) : s.writePiece r h bs = s.wr h.key bs := by
  rcases hp with ⟨q, off, rfl⟩ | ⟨pa, dm, rfl⟩ <;> rfl

theorem plain_facts {s : State} {h : Home} (hp : h.Plain) {n : Nat} (hb : s.bad h.key n = false) :
    s.homeDown h = false ∧ h.outside = false ∧ h.isRegs = false ∧ s.homeBad h n = false ∧ s.homeBytes h n = s.rd h.key n := by
  rcases hp with ⟨q, off, rfl⟩ | ⟨pa, dm, rfl⟩ <;> exact ⟨rfl, rfl, rfl, hb, rfl⟩

theorem access_rules :
    ∀ (s : State) (i k j : Nat) (r : Req) (p : Piece), s.Performs i k j r p → p.home.Plain → s.bad p.home.key p.len = false →
  ∀ old, old = natOf (s.rd p.home.key p.len) →
  (∀ sx d, r.op = .load sx d → exec (.remoteAccess i) s = .next ((s.brings r (.g d) (.g (extend p.len sx old))).putReq k (r.without j)))
  ∧ (∀ data, r.op = .store data → exec (.remoteAccess i) s = .next ((s.wr p.home.key data).putReq k (r.without j)))
  ∧ (∀ op b rm en d, r.op = .amo op b rm en d → ∀ v, (op, v) ∈ amoValues (W old) b →
      exec (.remoteAccess i) s = .next (((s.wr p.home.key (bytesOf p.len v.toNat)).brings r (.g d) (.g (W old))).putReq k (r.without j)))
  ∧ (∀ op b rm en d, r.op = .amo op b rm en d → ∀ f, (op, f) ∈ [(9, 14), (10, 15)] → ∀ e v, e = (if f = 14 then 2 ^ 32 else 2 ^ 64) →
      v = fAdd f ⟨rm, false, fun _ => 0⟩ 0 (numOf f ((W old).toNat % e)) (numOf f (b.toNat % e)) →
      exec (.remoteAccess i) s = .next ((((s.wr p.home.key (bytesOf p.len (W v.code).toNat)).addFlags r.act v.fl en 1 r.iaddr).brings r (.g d) (.g (W old))).putReq k (r.without j)))
  ∧ (∀ e b d, r.op = .cas e b d → exec (.remoteAccess i) s =
      .next (((if W old = e then s.wr p.home.key (bytesOf p.len b.toNat) else s).brings r (.g d) (.g (W old))).putReq k (r.without j)))
  ∧ (∀ n lanes d acc lane ea, r.op = .vload n lanes d acc [] → lanes[j]? = some (lane, ea) → exec (.remoteAccess i) s =
      .next ((if (r.without j).pieces = [] then s.brings r (.v d) (.v (withLane acc n lane old)) else s).putReq k
        { r.without j with op := .vload n (lanes.eraseIdx j) d (withLane acc n lane old) [] }))
  ∧ (∀ data lanes whole bytes, r.op = .vstore data lanes whole [] → data[j]? = some bytes → 0 < p.len → exec (.remoteAccess i) s = .next ((s.wr p.home.key bytes).putReq k (r.without j)))
  ∧ (∀ f rm en data fl mask lane ea x, r.op = .adds f rm en data fl mask [] → data[j]? = some (lane, ea, x) → ∀ v m,
      v = (if fmtFloat f then fAdd f ⟨rm, false, fun _ => 0⟩ 0 (numOf f old) (numOf f x) else ⟨(old + x) % 2 ^ fmtWidth f, 0⟩) →
      m = (if v.fl = 0 then mask else mask ||| 2 ^ lane) → ∀ u, u = s.wr p.home.key (bytesOf p.len v.code) → exec (.remoteAccess i) s =
        .next ((if (r.without j).pieces = [] then u.addFlags r.act (fl ||| v.fl) en (W m) r.iaddr else u).putReq k
          { r.without j with op := .adds f rm en (data.eraseIdx j) (fl ||| v.fl) m [] }))
  ∧ (∀ op rm sat en mask row, r.op = .bank op rm sat false en mask row → p.len = 64 → ∀ v, v = bankRow op rm sat mask old row.toNat →
      exec (.remoteAccess i) s = .next (((s.wr p.home.key (bytesOf 64 v.1)).addFlags r.act v.2.1 en (W v.2.2) r.iaddr).putReq k (r.without j))) := by
  intro s i k j r p h hp hb old ho
  have e := performs_done h hp
  obtain ⟨f1, f2, f3, f4, f5⟩ := plain_facts hp hb
  have fl : ∀ w, s.lostPiece p w = false := by
    intro w
    unfold State.lostPiece
    rw [f1, f2, f3, f4]; cases w <;> rfl
  have hrmw : ∀ d en (f : Word → Option Word × Nat) new fl, f (W old) = (some new, fl) →
      s.rmwPiece r p d en f = ((s.wr p.home.key (bytesOf p.len new.toNat)).addFlags r.act fl en 1 r.iaddr).brings r (.g d) (.g (W old)) := by
    intro d en f new fl' hf
    unfold State.rmwPiece
    rw [fl, if_neg (by decide), f5, ← ho]
    dsimp only
    rw [hf]
    dsimp only
    rw [plain_write hp]; rfl
  refine ⟨fun sx d hop => ?_, fun data hop => ?_, fun op b rm en d hop v hv => ?_, fun op b rm en d hop f hf e2 v he hv => ?_, fun e2 b d hop => ?_,
    fun n lanes d acc lane ea hop hl => ?_, fun data lanes whole bytes hop hl hlen => ?_, fun f rm en data fl0 mask lane ea x hop hl v m hv hm u hu => ?_, fun op rm sat en mask row hop hn v hv => ?_⟩
  · rw [e]; unfold State.performPiece; rw [hop]; dsimp only; rw [plain_read hp hb, ho]; rfl
  · rw [e]; unfold State.performPiece; rw [hop]; dsimp only; rw [fl, if_neg (by decide), plain_write hp]
  · rw [e]; unfold State.performPiece; rw [hop]; dsimp only
    have hv2 : amoResult op rm (W old) b = (v, 0) := by
      simp only [amoValues, List.mem_cons, List.not_mem_nil, or_false, Prod.mk.injEq] at hv
      rcases hv with h | h | h | h | h | h | h | h | h <;> (obtain ⟨rfl, rfl⟩ := h; rfl)
    rw [hrmw d en _ v 0 (by rw [hv2])]; rfl
  · rw [e]; unfold State.performPiece; rw [hop]; dsimp only
    have hv2 : amoResult op rm (W old) b = (W v.code, v.fl) := by
      simp only [List.mem_cons, List.not_mem_nil, or_false, Prod.mk.injEq] at hf
      rcases hf with h | h
      · obtain ⟨rfl, rfl⟩ := h; subst he; subst hv; rfl
      · obtain ⟨rfl, rfl⟩ := h; subst he; subst hv
        have : ∀ x : Word, x.toNat % 2 ^ 64 = x.toNat := fun x => Nat.mod_eq_of_lt x.isLt
        simp only [Nat.reduceEqDiff, if_false]
        rw [this, this]; rfl
    rw [hrmw d en _ (W v.code) v.fl (by rw [hv2])]
  · rw [e]; unfold State.performPiece; rw [hop]; dsimp only
    unfold State.rmwPiece
    rw [fl, if_neg (by decide), f5, ← ho]
    dsimp only
    by_cases hc : W old = e2
    · rw [if_pos hc, if_pos hc]; dsimp only; rw [plain_write hp]
      rfl
    · rw [if_neg hc, if_neg hc]; rfl
  · rw [e]; unfold State.performPiece; rw [hop]; dsimp only
    rw [hl]; dsimp only
    rw [plain_read hp hb]
    dsimp only
    simp only [Bool.false_eq_true, if_false]
    rw [← ho]
    by_cases hz : (r.without j).pieces = []
    · rw [if_pos hz, hz]; rfl
    · rw [if_neg hz, if_neg (by rw [List.isEmpty_iff]; exact hz)]
      try rfl
  · rw [e]; unfold State.performPiece; rw [hop]; dsimp only
    have hg : data.getD j [] = bytes := by rw [List.getD_eq_getElem?_getD, hl]; rfl
    rw [fl, hg]
    simp only [Bool.false_eq_true, if_false]
    rw [plain_write hp]
    have hw : p.home.writeKey s.sys.lead = p.home.key := by rcases hp with ⟨q, off, e⟩ | ⟨pa, dm, e⟩ <;> rw [e] <;> rfl
    have hue : (s.wr p.home.key bytes).ue.filter (fun l => l != lineOf p.home.key) = (s.wr p.home.key bytes).ue := by
      refine List.filter_eq_self.2 fun l hl => ?_
      rw [bne_iff_ne]
      rintro rfl
      have : s.bad p.home.key p.len = true := by
        have hl : lineOf p.home.key ∈ s.ue := by
          have hl : lineOf p.home.key ∈ (if s.ue.isEmpty then [] else s.ue.filter (fun l => !(decide (p.home.key ≤ l) && decide (l + 64 ≤ p.home.key + bytes.length)))) := hl
          split at hl
          · cases hl
          · exact (List.mem_filter.1 hl).1
        unfold State.bad
        have h1 : s.ue.isEmpty = false := by
          cases hs : s.ue with
          | nil =>
            rw [hs] at hl; cases hl
          | cons _ _ => rfl
        have h2 : (State.linesOf p.home.key p.len).any (fun l => s.ue.contains l) = true := by
          refine List.any_eq_true.2 ⟨lineOf p.home.key, ?_, List.contains_iff_mem.2 hl⟩
          unfold State.linesOf
          rw [if_neg (by omega)]
          exact List.mem_map.2 ⟨0, List.mem_range.2 (Nat.succ_pos _), rfl⟩
        rw [h1, h2]; rfl
      rw [hb] at this; cases this
    rw [hw]
    have hun : ∀ (c : Bool) (w : State), w.ue.filter (fun l => l != lineOf p.home.key) = w.ue →
        (if c then { w with ue := w.ue.filter (fun l => l != lineOf p.home.key) } else w) = w := by
      intro c w hw; cases c
      · rfl
      · rw [if_pos rfl, hw]
    rw [hun _ _ hue]
    have hr : { r.without j with op := MemOp.vstore (data.eraseIdx j) (lanes.eraseIdx j) whole [] } = r.without j := by unfold Req.without; rw [hop]
    rw [hr]
    cases (r.without j).pieces.isEmpty <;> rfl
  · rw [e]; unfold State.performPiece; rw [hop]; dsimp only
    rw [hl]; dsimp only
    rw [fl]
    simp only [Bool.false_eq_true, if_false, Bool.false_or]
    rw [f5, ← ho, plain_write hp]
    have hve : addElem f rm old x = v := hv.symm
    rw [hve, ← hu]
    have hme : (if (v.fl == 0) = true then mask else mask ||| 2 ^ lane) = m := by rw [hm]; simp only [beq_iff_eq]
    rw [hme]
    by_cases hz : (r.without j).pieces = []
    · rw [if_pos hz, hz]; rfl
    · rw [if_neg hz, if_neg (by rw [List.isEmpty_iff]; exact hz)]
  · rw [e]; unfold State.performPiece; rw [hop]; dsimp only
    rw [hn] at f4 f5 ho
    rw [f4, if_neg (by decide), f5, ← ho, plain_write hp, hv]; rfl

end Sys2Proof.Machine
end

