-- ==== Sys2Proof/Laws/HomeBytes.lean ====
section
/-! SUPPORT. Errors, registers, versioned and replicated lines at a home. -/

set_option Elab.async false

namespace Sys2Proof.Machine

theorem linesOf_one {pa n : Nat} (h0 : 0 < n) (h : pa % 64 + n ≤ 64) : State.linesOf pa n = [pa / 64 * 64] := by
  unfold State.linesOf lineOf
  rw [if_neg (by omega)]
  have e : (pa + n - 1) / 64 * 64 = pa / 64 * 64 := by omega
  rw [e, Nat.sub_self]
  rfl

theorem take_len {α : Type} (l : List α) : ∀ n, n = l.length → l.take n = l := by rintro n rfl; exact List.take_length

theorem find_filter {α : Type} (p q : α → Bool) (l : List α) (h : l.find? p = none) : l.filter (fun x => !(p x && q x)) = l :=
  List.filter_eq_self.2 fun x hx => by
    have : p x = false := by simpa using List.find?_eq_none.1 h x hx
    rw [this]; rfl

/-- A request's commit to a line that its line admits is the commit of the claims. -/
theorem commit_line {s : State} {line : Nat} {data : List Byte} {r : Req} (ho : (s.vline line).olds.length < 15) (hu : s.ue.contains line = false) :
    s.singleCommit line data r.writer = s.lineCommitted line data r := by
  unfold State.singleCommit State.install State.singleStamp State.single
  rw [if_neg (by omega)]
  dsimp only
  rw [hu]
  simp only [Bool.false_eq_true, if_false]
  have hw : ∀ x : Single, x.ofWriter r.writer = (x.by_ == .access r.pid r.cx r.act r.no) := fun x => rfl
  unfold State.lineCommitted
  dsimp only
  cases hf : s.vers.singles.find? (fun x => x.line == line) with
  | none =>
    rw [find_filter _ _ _ hf]
    rfl
  | some x =>
    unfold State.endSingle
    simp only [hw]
    rfl

theorem lineCommitted_settled (s : State) (line : Nat) (data : List Byte) (r : Req) (n : Nat) (pa : Nat) (rp : Bool) (dm : Nat) (h : State.linesOf pa n = [line]) :
    (s.lineCommitted line data r).cancelHeld (.dev pa true rp dm) n r.writer = s.lineCommitted line data r := by
  unfold State.cancelHeld
  dsimp only
  rw [h, if_pos]
  have hs : (s.lineCommitted line data r).vers.singles = s.vers.singles.filter (fun x => !(x.line == line && x.by_ == .access r.pid r.cx r.act r.no)) := rfl
  rw [List.isEmpty_iff, List.filter_eq_nil_iff]
  intro l hl
  rw [List.mem_singleton] at hl
  subst hl
  unfold State.single
  rw [hs]
  cases hf : (s.vers.singles.filter (fun x => !(x.line == l && x.by_ == .access r.pid r.cx r.act r.no))).find? (fun x => x.line == l) with
  | none => simp
  | some x =>
    have h1 := List.find?_some hf
    have h2 := (List.mem_filter.1 (List.mem_of_find?_eq_some hf)).2
    rw [h1, Bool.true_and] at h2
    have hw : x.ofWriter r.writer = (x.by_ == .access r.pid r.cx r.act r.no) := rfl
    dsimp only
    rw [hw]
    simpa using h2

theorem putVersioned_line {s : State} {pa : Nat} {data : List Byte} {r : Req} (hd : data ≠ []) (hl : pa % 64 + data.length ≤ 64)
    (ho : (s.vline (pa / 64 * 64)).olds.length < 15) (hu : s.ue.contains (pa / 64 * 64) = false) :
    s.putVersioned pa data r.writer = s.lineCommitted (pa / 64 * 64) ((s.rd (pa / 64 * 64) 64).take (pa % 64) ++ data ++ (s.rd (pa / 64 * 64) 64).drop (pa % 64 + data.length)) r := by
  have hn : 0 < data.length := List.length_pos_iff.2 hd
  unfold State.putVersioned
  rw [linesOf_one hn hl]
  simp only [List.foldl_cons, List.foldl_nil]
  have e1 : max pa (pa / 64 * 64) = pa := by omega
  have e2 : min (pa + data.length) (pa / 64 * 64 + 64) = pa + data.length := by omega
  have e3 : pa - pa / 64 * 64 = pa % 64 := by omega
  rw [e1, e2, e3, Nat.sub_self, List.drop_zero, take_len data _ (by omega)]
  exact commit_line ho hu

theorem lost_plain {s : State} {p : Piece} (hp : p.home.Plain) (hb : s.bad p.home.key p.len = true) : s.lostPiece p false = true := by
  unfold State.lostPiece
  have : p.home.isRegs = false ∧ p.home.outside = false ∧ s.homeBad p.home p.len = true := by
    rcases hp with ⟨q, off, e⟩ | ⟨pa, dm, e⟩ <;> rw [e] at hb ⊢ <;> exact ⟨rfl, rfl, hb⟩
  rw [this.1, this.2.1, this.2.2]; simp

theorem noteLost_plain {s : State} {p : Piece} (hp : p.home.Plain) : s.noteLost p = s.erred p.home.key := by
  unfold State.noteLost
  rcases hp with ⟨q, off, e⟩ | ⟨pa, dm, e⟩ <;> rw [e] <;> rfl

theorem homes_rules :
    (∀ (s : State) (i k j : Nat) (r : Req) (p : Piece), s.Performs i k j r p → p.home.Plain → s.bad p.home.key p.len = true →
    (∀ sx d, r.op = .load sx d → exec (.remoteAccess i) s =
      .next (((s.erred p.home.key).brings r (.g d) (.err { eff := 0x006, arg := r.iaddr, addr := r.ea } 0)).putReq k (r.without j)))
    ∧ (∀ data, r.op = .store data → exec (.remoteAccess i) s = .next (((s.erred p.home.key).memErrPends r r.ea).putReq k (r.without j)))
    ∧ (∀ op b rm en d e, r.op = .amo op b rm en d ∨ r.op = .cas e b d → exec (.remoteAccess i) s =
      .next (((s.erred p.home.key).brings r (.g d) (.err { eff := 0x006, arg := r.iaddr, addr := r.ea } 0)).putReq k (r.without j))))
  ∧ (∀ (s : State) (i k j off : Nat) (r : Req) (p : Piece), s.Performs i k j r p → p.home = .regs off →
    (∀ sx d, r.op = .load sx d → exec (.remoteAccess i) s = .next ((s.brings r (.g d) (.g (extend p.len sx (natOf (bytesOf p.len (s.regRead off p.len)))))).putReq k (r.without j)))
    ∧ (∀ data, r.op = .store data → exec (.remoteAccess i) s = .next ((s.regWrite off data.length (natOf data)).putReq k (r.without j))))
  ∧ (∀ (s : State) (i k j pa dm : Nat) (r : Req) (p : Piece), s.Performs i k j r p → p.home = .dev pa true false dm → s.bad pa p.len = false →
    (s.vline (pa / 64 * 64)).olds.length < 15 → s.bad (pa / 64 * 64) 64 = false → ∀ data, r.op = .store data → data ≠ [] → data.length = p.len → pa % 64 + data.length ≤ 64 →
      exec (.remoteAccess i) s = .next ((s.lineCommitted (pa / 64 * 64) ((s.rd (pa / 64 * 64) 64).take (pa % 64) ++ data
        ++ (s.rd (pa / 64 * 64) 64).drop (pa % 64 + data.length)) r).putReq k (r.without j)))
  ∧ (∀ (s : State) (i k j pa dm : Nat) (r : Req) (p : Piece), s.Performs i k j r p → p.home = .dev pa false true dm →
    s.bad (s.sys.lead * Config.dieBytes + pa % Config.dieBytes) p.len = false → ∀ data, r.op = .store data →
      exec (.replicatedWrite i) s = .next ((s.writeNumbered pa dm data r).putReq k (r.without j)))
  ∧ (∀ (s : State) (die : Nat) (r : RepW), s.vers.reps.find? (fun q => q.todo.contains die) = some r →
      exec (.replicaApply die) s = .next (((s.wr (die * Config.dieBytes + r.off) r.data).modVers (fun v => { v with
        reps := (v.reps.map (fun q => if q.seq = r.seq then { q with todo := q.todo.filter (fun d => d != die) } else q)).filter (fun q => !q.todo.isEmpty) })).refreshPend r.actOf)) := by
  refine ⟨fun s i k j r p h hp hb => ⟨fun sx d hop => ?_, fun data hop => ?_, fun op b rm en d e2 hop => ?_⟩, fun s i k j off r p h hp => ⟨fun sx d hop => ?_, fun data hop => ?_⟩,
    fun s i k j pa dm r p h hp hb ho hu data hop hd hlen hl => ?_, fun s i k j pa dm r p h hp hb data hop => ?_, fun s die r h => ?_⟩
  · rw [performs_done h hp]
    unfold State.performPiece; rw [hop]; dsimp only
    have : s.readPiece r p = (s.errorAt p.home.key, List.replicate p.len 0, true) := by
      unfold State.readPiece State.readHome
      rcases hp with ⟨q, off, e⟩ | ⟨pa, dm, e⟩ <;> rw [e] at hb ⊢
      · have : s.bad (Home.readKey s.sys.lead r.pid (.spad q off)) p.len = true := hb
        simp only [Home.outside, this]; rfl
      · have : s.bad (Home.readKey s.sys.lead r.pid (.dev pa false false dm)) p.len = true := hb
        simp only [Home.outside, this]; rfl
    rw [this]; rfl
  · rw [performs_done h hp]
    unfold State.performPiece; rw [hop]; dsimp only
    rw [lost_plain hp hb, noteLost_plain hp]; rfl
  · rw [performs_done h hp]
    unfold State.performPiece
    rcases hop with hop | hop <;> (rw [hop]; dsimp only; unfold State.rmwPiece; rw [lost_plain hp hb, noteLost_plain hp]; rfl)
  · rw [performs_kept h (by rw [hp]; rfl), cancelHeld_plain (by rw [hp]; intro _ _ _ e; cases e)]
    unfold State.performPiece; rw [hop]; dsimp only
    unfold State.readPiece; rw [hp]; rfl
  · rw [performs_kept h (by rw [hp]; rfl), cancelHeld_plain (by rw [hp]; intro _ _ _ e; cases e)]
    unfold State.performPiece; rw [hop]; dsimp only
    unfold State.lostPiece State.writePiece; rw [hp]; rfl
  · rw [performs_kept h (by rw [hp]; rfl)]
    unfold State.performPiece; rw [hop]; dsimp only
    have hb2 : s.homeBad p.home p.len = false := by rw [hp]; exact hb
    have hlost : s.lostPiece p false = false := by
      unfold State.lostPiece
      rw [hb2, Bool.and_false, Bool.or_false, hp]; rfl
    rw [hlost, hp, if_neg (by decide)]
    have hu2 : s.ue.contains (pa / 64 * 64) = false := by
      unfold State.bad at hu
      rw [linesOf_one (by decide) (by omega)] at hu
      simp only [Bool.or_eq_false_iff, List.any_cons, List.any_nil, Bool.or_false] at hu
      have h1 := hu.1.1
      have e : pa / 64 * 64 / 64 * 64 = pa / 64 * 64 := by omega
      rw [e] at h1
      cases hE : s.ue with
      | nil => rfl
      | cons a l => rw [hE] at h1; simpa using h1
    have e1 : s.writePiece r (.dev pa true false dm) data = s.putVersioned pa data r.writer := rfl
    rw [e1, putVersioned_line hd hl ho hu2]
    rw [← hlen]
    rw [lineCommitted_settled _ _ _ _ _ _ _ _ (linesOf_one (List.length_pos_iff.2 hd) hl)]
  · show execReplicatedWrite i s = _
    unfold execReplicatedWrite State.performAccess
    rw [h.place]
    dsimp only
    rw [h.req]
    dsimp only
    rw [h.piece]
    dsimp only
    rw [if_neg (by rw [hop, hp]; show ¬ ((true != true) = true); decide), if_pos (performs_may h), cancelHeld_plain (by rw [hp]; intro _ _ _ e; cases e)]
    unfold State.performPiece; rw [hop]; dsimp only
    have hb2 : s.homeBad p.home p.len = false := by rw [hp]; exact hb
    have hlost : s.lostPiece p false = false := by
      unfold State.lostPiece
      rw [hb2, Bool.and_false, Bool.or_false, hp]; rfl
    rw [hlost, hp, if_neg (by decide)]
    have : s.putReplicated pa dm data r.writer = s.writeNumbered pa dm data r := by
      unfold State.putReplicated State.writeNumbered Req.writer
      cases hd : (List.range 8).filter (fun d => bitOf dm d && d != s.sys.lead) with
      | nil =>
        simp only [List.isEmpty_nil, if_true, List.append_nil]
        rfl
      | cons a l =>
        simp only [List.isEmpty_cons, Bool.false_eq_true, if_false, reduceCtorEq]
        rfl
    exact congrArg (fun t => Host.Outcome.next (State.putReq t k (r.without j))) this
  · show execReplicaApply die s = _
    unfold execReplicaApply
    rw [h]

end Sys2Proof.Machine
end

