-- ==== Sys2Proof/Laws/PackageRegisters.lean ====
section
/-! SUPPORT. Writes of the registers of the package. -/

set_option Elab.async false

namespace Sys2Proof.Machine

theorem regAccess_eight {off : Nat} (h : off % 8 = 0) (h1 : 0x10000 ≤ off) (h2 : off < regSpace) : regAccess off 8 = true := by
  unfold regAccess
  simp [h, h1, h2]

/-- An aligned write of a doubleword. -/
theorem regWrite_eight {s : State} {off : Nat} {v : Word} (h : off % 8 = 0) (h1 : 0x10000 ≤ off) (h2 : off < regSpace) :
    exec (.registerWrite off 8 v) s = .next (
      if 0x20000 ≤ off ∧ off < 0x20800 then
        match off % 64 / 8 with
        | 0 => if (s.lq ((off - 0x20000) / 64)).en then s else s.setLq ((off - 0x20000) / 64) { s.lq ((off - 0x20000) / 64) with base := v &&& lqbaseMask }
        | 1 => s.writeLqctl ((off - 0x20000) / 64) v
        | 2 => if (s.lq ((off - 0x20000) / 64)).en then s else s.setLq ((off - 0x20000) / 64) { s.lq ((off - 0x20000) / 64) with root := v &&& 0xFFFFFFFFFFFF }
        | 4 => s.writeTail ((off - 0x20000) / 64) v
        | 5 => s.setLq ((off - 0x20000) / 64) { s.lq ((off - 0x20000) / 64) with err := (s.lq ((off - 0x20000) / 64)).err && !flag v 1 }
        | _ => s
      else if 0x40000 ≤ off ∧ off < 0x40400 then
        if off % 64 = 0x20 then s.writeTrst ((off - 0x40000) / 64) v else s
      else if 0x30000 ≤ off ∧ off < 0x31000 then
        if off % 16 = 8 then (s.wr (regKey off) (bytesOf 4 v.toNat)).setVectorMask ((off - 0x30000) / 16) (flag v 32)
        else s.wr (regKey off) (bytesOf 8 v.toNat)
      else if off = 0x50000 then s.writeFmcmd v
      else if off = 0x50008 then s.modSys (fun y => { y with fmovr := y.fmovr && !flag v 2, fmdone := y.fmdone && !flag v 1 })
      else if 0x51000 ≤ off ∧ off < 0x52000 then s.wr (regKey off) (bytesOf 8 v.toNat)
      else s) := by
  show execRegisterWrite off 8 v s = _
  unfold execRegisterWrite
  rw [if_pos (regAccess_eight h h1 h2)]
  unfold State.regWrite
  have e1 : off / 8 * 8 = off := by omega
  have e2 : 8 * (off % 8) = 0 := by omega
  have hv : v.toNat % 2 ^ (8 * 8) = v.toNat := Nat.mod_eq_of_lt v.isLt
  have e3 : W (v.toNat % 2 ^ (8 * 8) * 2 ^ (8 * (off % 8))) = v := by
    rw [e2, hv, Nat.pow_zero, Nat.mul_one]; unfold W; rw [BitVec.ofNat_toNat, BitVec.setWidth_eq]
  have e4 : W ((s.regWord off).toNat - (s.regWord off).toNat / 2 ^ (8 * (off % 8)) % 2 ^ (8 * 8) * 2 ^ (8 * (off % 8)) + v.toNat % 2 ^ (8 * 8) * 2 ^ (8 * (off % 8))) = v := by
    have : (s.regWord off).toNat % 2 ^ (8 * 8) = (s.regWord off).toNat := Nat.mod_eq_of_lt (s.regWord off).isLt
    rw [e2, hv, Nat.pow_zero, Nat.mul_one, Nat.div_one, this, Nat.mul_one, Nat.sub_self, Nat.zero_add]; unfold W; rw [BitVec.ofNat_toNat, BitVec.setWidth_eq]
  dsimp only
  rw [e1, e3, e4, hv, h]
  simp only [if_true]
  all_goals rfl

theorem lqctl_cases {s : State} {n : BitVec 5} {v w : Word} (hw : w = v &&& 0xFF070F) {q : Nat} (hq : q = n.toNat) :
    (flag (s.lq q).ctl 8 = true → exec (.lqctlWrite n v) s = .next (s.withLq q { s.lq q with ctl := (w &&& ~~~0xF) ||| ((s.lq q).ctl &&& 0xF) }))
    ∧ (flag (s.lq q).ctl 8 = false → (flag w 8 = true → ¬ s.RefusesEnable q w) → exec (.lqctlWrite n v) s = .next (s.withLq q { s.lq q with ctl := w }))
    ∧ (flag (s.lq q).ctl 8 = false → flag w 8 = true → s.RefusesEnable q w → exec (.lqctlWrite n v) s = .next s) := by
  have e : exec (.lqctlWrite n v) s = .next (s.writeLqctl q v) := by subst hq; rfl
  have hm : v &&& lqctlMask = w := hw.symm
  rw [e]
  unfold State.writeLqctl
  dsimp only
  rw [hm]
  unfold LQueue.en
  refine ⟨fun h => ?_, fun h h2 => ?_, fun h h2 h3 => ?_⟩
  · rw [h]; rfl
  · rw [h]
    rw [if_neg]
    · rfl
    · intro hh
      simp only [Bool.not_false, Bool.true_and, Bool.and_eq_true, Bool.or_eq_true, decide_eq_true_eq, or_assoc] at hh
      exact h2 hh.1 (by unfold State.RefusesEnable; simpa [or_assoc] using hh.2)
  · rw [h]
    rw [if_pos]
    unfold State.RefusesEnable at h3
    simpa [h2, or_assoc] using h3

theorem registers_rules :
    (∀ (s : State) (n : BitVec 5) (v w : Word), w = v &&& 0xFF070F → ∀ q, q = n.toNat →
    (flag (s.lq q).ctl 8 = true → exec (.lqctlWrite n v) s = .next (s.withLq q { s.lq q with ctl := (w &&& ~~~0xF) ||| ((s.lq q).ctl &&& 0xF) }))
    ∧ (flag (s.lq q).ctl 8 = false → (flag w 8 = true → ¬ s.RefusesEnable q w) → exec (.lqctlWrite n v) s = .next (s.withLq q { s.lq q with ctl := w }))
    ∧ (flag (s.lq q).ctl 8 = false → flag w 8 = true → s.RefusesEnable q w → exec (.lqctlWrite n v) s = .next s)
    ∧ exec (.lqtailWrite n v) s = .next (s.withLq q { s.lq q with tail := fld v 15 0 })
    ∧ exec (.registerWrite (0x20000 + 64 * q) 8 v) s = .next (if flag (s.lq q).ctl 8 = true then s else s.withLq q { s.lq q with base := v &&& 0xFFFFFFFFF000 })
    ∧ exec (.registerWrite (0x20008 + 64 * q) 8 v) s = exec (.lqctlWrite n v) s
    ∧ exec (.registerWrite (0x20010 + 64 * q) 8 v) s = .next (if flag (s.lq q).ctl 8 = true then s else s.withLq q { s.lq q with root := v &&& 0xFFFFFFFFFFFF })
    ∧ exec (.registerWrite (0x20018 + 64 * q) 8 v) s = .next s
    ∧ exec (.registerWrite (0x20020 + 64 * q) 8 v) s = exec (.lqtailWrite n v) s
    ∧ exec (.registerWrite (0x20028 + 64 * q) 8 v) s = .next (s.withLq q { s.lq q with err := (s.lq q).err && !flag v 1 }))
  ∧ (∀ (s : State) (port : BitVec 4) (v : Word),
    exec (.trstRsyWrite port v) s = .next (if flag v 8 = true then s.modPort port.toNat (fun p => { p with ask := true }) else s)
    ∧ exec (.registerWrite (0x40020 + 64 * port.toNat) 8 v) s = exec (.trstRsyWrite port v) s)
  ∧ (∀ (s : State) (v : Word),
    (∀ off ∈ [0x10000, 0x10008, 0x10010, 0x10018, 0x31000, 0x40000, 0x40008, 0x40010, 0x40018, 0x60000], exec (.registerWrite off 8 v) s = .next s)
    ∧ exec (.registerWrite 0x50008 8 v) s = .next { s with sys := { s.sys with fmovr := s.sys.fmovr && !flag v 2, fmdone := s.sys.fmdone && !flag v 1 } }
    ∧ (∀ k, k < 512 → exec (.registerWrite (0x51000 + 8 * k) 8 v) s = .next (s.wr (regKey (0x51000 + 8 * k)) (bytesOf 8 v.toNat)))
    ∧ (∀ k, k < 256 → exec (.registerWrite (0x30000 + 16 * k) 8 v) s = .next (s.wr (regKey (0x30000 + 16 * k)) (bytesOf 8 v.toNat)))
    ∧ (∀ off n, ((n ≠ 4 ∧ n ≠ 8) ∨ off % n ≠ 0 ∨ off < 0x10000 ∨ regSpace ≤ off) → exec (.registerWrite off n v) s = .next s)) := by
  refine ⟨fun s n v w hw q hq => ?_, fun s port v => ⟨rfl, ?_⟩, fun s v => ⟨?_, ?_, fun k hk => ?_, fun k hk => ?_, fun off n h => ?_⟩⟩
  · obtain ⟨a, b, c⟩ := lqctl_cases (s := s) hw hq
    have hlt : q < 32 := by rw [hq]; exact n.isLt
    refine ⟨a, b, c, by subst hq; rfl, ?_, ?_, ?_, ?_, ?_, ?_⟩
    · rw [regWrite_eight (by omega) (by omega) (by unfold regSpace; omega), if_pos (by omega)]
      have e1 : (0x20000 + 64 * q) % 64 / 8 = 0 := by omega
      have e2 : (0x20000 + 64 * q - 0x20000) / 64 = q := by omega
      rw [e1, e2]; rfl
    · rw [regWrite_eight (by omega) (by omega) (by unfold regSpace; omega), if_pos (by omega)]
      have e1 : (0x20008 + 64 * q) % 64 / 8 = 1 := by omega
      have e2 : (0x20008 + 64 * q - 0x20000) / 64 = q := by omega
      rw [e1, e2, hq]; rfl
    · rw [regWrite_eight (by omega) (by omega) (by unfold regSpace; omega), if_pos (by omega)]
      have e1 : (0x20010 + 64 * q) % 64 / 8 = 2 := by omega
      have e2 : (0x20010 + 64 * q - 0x20000) / 64 = q := by omega
      rw [e1, e2]; rfl
    · rw [regWrite_eight (by omega) (by omega) (by unfold regSpace; omega), if_pos (by omega)]
      have e1 : (0x20018 + 64 * q) % 64 / 8 = 3 := by omega
      rw [e1]; rfl
    · rw [regWrite_eight (by omega) (by omega) (by unfold regSpace; omega), if_pos (by omega)]
      have e1 : (0x20020 + 64 * q) % 64 / 8 = 4 := by omega
      have e2 : (0x20020 + 64 * q - 0x20000) / 64 = q := by omega
      rw [e1, e2, hq]; rfl
    · rw [regWrite_eight (by omega) (by omega) (by unfold regSpace; omega), if_pos (by omega)]
      have e1 : (0x20028 + 64 * q) % 64 / 8 = 5 := by omega
      have e2 : (0x20028 + 64 * q - 0x20000) / 64 = q := by omega
      rw [e1, e2]; rfl
  · have hlt := port.isLt
    rw [regWrite_eight (by omega) (by omega) (by unfold regSpace; omega), if_neg (by omega), if_pos (by omega), if_pos (by omega)]
    have e2 : (0x40020 + 64 * port.toNat - 0x40000) / 64 = port.toNat := by omega
    rw [e2]; rfl
  · intro off ho
    simp only [List.mem_cons, List.not_mem_nil, or_false] at ho
    rcases ho with rfl | rfl | rfl | rfl | rfl | rfl | rfl | rfl | rfl | rfl <;>
      (rw [regWrite_eight (by decide) (by decide) (by decide)]; rfl)
  · rw [regWrite_eight (by decide) (by decide) (by decide)]; rfl
  · rw [regWrite_eight (by omega) (by omega) (by unfold regSpace; omega), if_neg (by omega), if_neg (by omega), if_neg (by omega), if_neg (by omega), if_neg (by omega), if_pos (by omega)]
  · rw [regWrite_eight (by omega) (by omega) (by unfold regSpace; omega), if_neg (by omega), if_neg (by omega), if_pos (by omega), if_neg (by omega)]
  · show execRegisterWrite off n v s = _
    unfold execRegisterWrite
    rw [if_neg]
    unfold regAccess
    intro hh
    simp only [Bool.and_eq_true, Bool.or_eq_true, beq_iff_eq, decide_eq_true_eq] at hh
    omega

end Sys2Proof.Machine
end

