-- ==== Sys2Proof/Laws/OutsideAccess.lean ====
section
/-! SUPPORT. Accesses by the host and by peers, page walks and soft errors. -/

set_option Elab.async false

namespace Sys2Proof.Machine

theorem errors_rules :
    (∀ (s : State) (core cx : Nat) (va : Word) (l : Leaf), classOf va.toNat = .trans → va.toNat < 2 ^ 52 → s.walk (s.ctxAt core cx).space.ptroot va.toNat = .ok l →
    ∀ run size t, (run = true ↔ l.level = 3 ∧ bitOf l.entry 24 = true) → size = (if run = true then 2 ^ 26 else 2 ^ levelShift l.level) →
      t = Tlb.mk (fld (s.ctxAt core cx).space.ptroot 15 0) (va.toNat / size * size) size (if run = true then (l.groupBase (va.toNat / 2 ^ 21 % 32)).entry else l.entry) →
      exec (.pageWalk core cx va) s = .next ((s.modCoreAt core (fun k => { k with tlb := tlbAdd 64 t k.tlb })).modDieAt (dieOf core) (fun d => { d with tlb := tlbAdd 6144 t d.tlb })))
  ∧ (∀ (s : State) (core cx : Nat) (va : Word) (e : Raise), s.walk (s.ctxAt core cx).space.ptroot va.toNat = .error e → exec (.pageWalk core cx va) s = .next s)
  ∧ (∀ (s : State) (space addr : Nat), ∀ src, src = logSrc (errorKey space addr) →
    exec (.softError space addr true) s = .next { s with sys := { s.sys with corrected := Tab.set s.sys.corrected src (Tab.get 0 s.sys.corrected src + 1) } })
  ∧ (∀ (s : State) (space addr : Nat), space < 2 → addr < Config.devBytes → ∀ t, t = { s with ue := if s.ue.contains (addr / 64 * 64) then s.ue else s.ue ++ [addr / 64 * 64] } →
    exec (.softError space addr false) s = .next { t with sys := { t.sys with uncorrected := Tab.set s.sys.uncorrected (State.stackOf addr) (Tab.get 0 s.sys.uncorrected (State.stackOf addr) + 1) } })
  ∧ (∀ (s : State) (core off : Nat), core < 2048 → off < Config.spadBytes → ∀ l, l = 2 ^ 48 + core * 2 ^ 21 + off / 64 * 64 →
    exec (.softError 2 (core * 2 ^ 21 + off) false) s = .next { s with ue := if s.ue.contains l then s.ue else s.ue ++ [l] })
  ∧ (∀ (s : State) (line place : Nat) (o : Nat × List Byte), line % 64 = 0 → place < 64 → (s.vline line).olds[place]? = some o → ∀ l t, l = State.versionKey line o.1 →
    t = { s with ue := if s.ue.contains l then s.ue else s.ue ++ [l] } →
    exec (.softError 3 (line + place) false) s = .next { t with sys := { t.sys with
      uncorrected := Tab.set s.sys.uncorrected (State.stackOf (line + place)) (Tab.get 0 s.sys.uncorrected (State.stackOf (line + place)) + 1) } }) := by
  refine ⟨fun s core cx va l h1 h2 h3 run size t hr hs ht => ?_, fun s core cx va e h => ?_, fun s space addr src hs => ?_, fun s space addr h1 h2 t ht => ?_,
    fun s core off h1 h2 l hl => ?_, fun s line place o h1 h2 h3 l t hl ht => ?_⟩
  · show execPageWalk core cx va s = _
    unfold execPageWalk
    rw [h1]
    dsimp only
    rw [if_neg (by omega), h3]
    subst hs; subst ht
    have : l.tlb (fld (s.ctxAt core cx).space.ptroot 15 0) va.toNat = Tlb.mk (fld (s.ctxAt core cx).space.ptroot 15 0)
        (va.toNat / (if run = true then 2 ^ 26 else 2 ^ levelShift l.level) * (if run = true then 2 ^ 26 else 2 ^ levelShift l.level))
        (if run = true then 2 ^ 26 else 2 ^ levelShift l.level) (if run = true then (l.groupBase (va.toNat / 2 ^ 21 % 32)).entry else l.entry) := by
      unfold Leaf.tlb
      cases run with
      | true => rw [if_pos (hr.1 rfl)]; rfl
      | false => rw [if_neg (fun h => absurd (hr.2 h) (by decide))]; rfl
    rw [← this]; rfl
  · show execPageWalk core cx va s = _
    unfold execPageWalk
    dsimp only
    rw [h]
    split
    · split <;> rfl
    · rfl
  · subst hs; rfl
  · subst ht
    show execSoftError space addr false s = _
    unfold execSoftError
    have h3 : ¬ space = 2 := by omega
    have h4 : ¬ space = 3 := by omega
    simp only [Bool.false_eq_true, if_false, if_neg h3, if_neg h4, if_pos (Or.inl ⟨h1, h2⟩ : (space < 2 ∧ addr < Config.devBytes) ∨ (space = 2 ∧ addr / 2 ^ 21 < 2048 ∧ addr % 2 ^ 21 < Config.spadBytes))]
    rfl
  · show execSoftError 2 (core * 2 ^ 21 + off) false s = _
    unfold execSoftError
    unfold Config.spadBytes at h2
    have e : lineOf (2 ^ 48 + (core * 2 ^ 21 + off)) = l := by unfold lineOf; omega
    have hc : ((2 : Nat) < 2 ∧ core * 2 ^ 21 + off < Config.devBytes) ∨ (True ∧ (core * 2 ^ 21 + off) / 2 ^ 21 < 2048 ∧ (core * 2 ^ 21 + off) % 2 ^ 21 < Config.spadBytes) := by
      right; unfold Config.spadBytes; refine ⟨trivial, ?_, ?_⟩ <;> omega
    simp only [Bool.false_eq_true, if_false, if_true, if_neg (show ¬ (2 : Nat) = 3 by decide), e]
    rw [if_pos hc]
  · subst ht
    show execSoftError 3 (line + place) false s = _
    unfold execSoftError
    have e1 : lineOf (line + place) = line := by unfold lineOf; omega
    have e2 : (line + place) % 64 = place := by omega
    have e3 : (Tab.get VLine.reset s.vers.lines line).olds[place]? = some o := h3
    simp only [Bool.false_eq_true, if_false, if_neg (show ¬ (3 : Nat) = 2 by decide), if_true, e1, e2, e3]
    rw [hl]; rfl

theorem reaches_refused {s : State} {pa n : Nat} (h : s.Reaches pa n) : s.refused pa n = false := by
  unfold State.refused
  rw [h.store, Bool.or_false]
  exact decide_eq_false (by have := h.inside; omega)

theorem outside_write {s : State} {pa n : Nat} {bs : List Byte} (h : s.Reaches pa n) (hv : s.versionedLine (pa / 64 * 64) = false) : s.outsideWrite pa bs = s.wr pa bs := by
  unfold State.outsideWrite
  have : s.versionedLine (lineOf pa) = false := hv
  dsimp only
  rw [this, h.free]; rfl

theorem negative_of {s : State} {i k j d pa n : Nat} {r : Req} (h : s.Performs i k j r ⟨.peer d pa, n⟩) :
    exec (.peerNegativeResponse i) s = .next (
      match r.op with
      | .load _ d => (s.land r (.g d) (.err (permFault r.ea) 0)).putReq k (r.without j)
      | .amo _ _ _ _ d => (s.land r (.g d) (.err (permFault r.ea) 0)).putReq k (r.without j)
      | .cas _ _ d => (s.land r (.g d) (.err (permFault r.ea) 0)).putReq k (r.without j)
      | .vload n lanes d acc bad =>
        let bad2 := bad ++ [((lanes.getD j (0, 0)).1, permFault (lanes.getD j (0, 0)).2)]
        let t := if (r.without j).pieces.isEmpty then s.land r (.v d) (errVal acc bad2) else s
        t.putReq k { r.without j with op := .vload n (lanes.eraseIdx j) d acc bad2 }
      | .vstore data lanes whole bad =>
        let bad2 := bad ++ [((lanes.getD j (0, 0)).1, permFault (lanes.getD j (0, 0)).2)]
        let t := if (r.without j).pieces.isEmpty then s.closeLanes r 0 0 0 bad2 else s
        t.putReq k { r.without j with op := .vstore (data.eraseIdx j) (lanes.eraseIdx j) whole bad2 }
      | .adds f rm en data fl mask bad =>
        let e := data.getD j (0, 0, 0)
        let bad2 := bad ++ [(e.1, permFault e.2.1)]
        let t := if (r.without j).pieces.isEmpty then s.closeLanes r fl en mask bad2 else s
        t.putReq k { r.without j with op := .adds f rm en (data.eraseIdx j) fl mask bad2 }
      | _ => (s.addPend r.act ⟨Eff.perm, permFault r.ea⟩).putReq k (r.without j)) := by
  show execPeerNegativeResponse i s = _
  unfold execPeerNegativeResponse
  rw [h.place]
  dsimp only
  rw [h.req]
  dsimp only
  rw [h.piece]
  dsimp only
  rw [performs_may h]
  rfl

theorem outside_rules :
    (∀ (s : State) (addr n : Nat) (v : Word), exec (.hostAccess true 0 addr n v) s = exec (.registerWrite addr n v) s
    ∧ (regAccess addr n = true → exec (.hostAccess false 0 addr n v) s = .next { s with sys := { s.sys with hostRead := some (W (s.regRead addr n)) } }))
  ∧ (∀ (s : State) (addr n : Nat) (v : Word), s.Reaches addr n → s.isReady (readyDie (addr / Config.dieBytes)) = true →
    (s.versionedLine (addr / 64 * 64) = false → exec (.hostAccess true 2 addr n v) s = .next (s.wr addr (bytesOf n v.toNat)))
    ∧ (s.repAt addr n = false → s.bad addr n = false → exec (.hostAccess false 2 addr n v) s = .next { s with sys := { s.sys with hostRead := some (W (natOf (s.rd addr n))) } }))
  ∧ (∀ (s : State) (addr n : Nat) (v : Word), Config.devBytes < addr + n ∨ s.inStore addr = true →
    (addr / Config.dieBytes < 8 → exec (.hostAccess true 2 addr n v) s = .next (s.modDieAt (addr / Config.dieBytes) (fun d => { d with dlcnt := d.dlcnt + 1 })))
    ∧ exec (.hostAccess false 2 addr n v) s = .next { s with sys := { s.sys with hostRead := none } }
    ∧ (∀ (port : BitVec 4) (w : Bool), (s.portAt port.toNat).up = true → addr < 2 ^ 48 → exec (.peerAccess port w addr n v) s = .next { s with sys := { s.sys with peerRead := none } }))
  ∧ (∀ (s : State) (port : BitVec 4) (addr n : Nat) (v : Word), s.Reaches addr n → (s.portAt port.toNat).up = true →
    (s.versionedLine (addr / 64 * 64) = false → exec (.peerAccess port true addr n v) s = .next (s.wr addr (bytesOf n v.toNat)))
    ∧ (s.repAt addr n = false → s.bad addr n = false → exec (.peerAccess port false addr n v) s = .next { s with sys := { s.sys with peerRead := some (W (natOf (s.rd addr n))) } }))
  ∧ (∀ (s : State) (port : BitVec 4) (w : Bool) (addr n : Nat) (v : Word), (s.portAt port.toNat).up = false → addr < 2 ^ 48 → exec (.peerAccess port w addr n v) s = .next s)
  ∧ (∀ (s : State) (i k j d pa n : Nat) (r : Req), s.Performs i k j r ⟨.peer d pa, n⟩ →
    (∀ sx g, r.op = .load sx g → exec (.peerNegativeResponse i) s = .next ((s.brings r (.g g) (.err { eff := 0x005, addr := r.ea } 0)).putReq k (r.without j)))
    ∧ (∀ op b rm en g e, r.op = .amo op b rm en g ∨ r.op = .cas e b g → exec (.peerNegativeResponse i) s =
      .next ((s.brings r (.g g) (.err { eff := 0x005, addr := r.ea } 0)).putReq k (r.without j)))
    ∧ (∀ data, r.op = .store data → exec (.peerNegativeResponse i) s = .next ((s.addPend r.act ⟨0x005, { eff := 0x005, addr := r.ea }⟩).putReq k (r.without j)))) := by
  refine ⟨fun s addr n v => ⟨?_, fun h => ?_⟩, fun s addr n v h hr => ⟨fun hv => ?_, fun hq hbad => ?_⟩, fun s addr n v h => ⟨fun h2 => ?_, ?_, fun port w hu ha => ?_⟩,
    fun s port addr n v h hu => ⟨fun hv => ?_, fun hq hbad => ?_⟩, fun s port w addr n v hu ha => ?_, fun s i k j d pa n r h => ⟨fun sx g hop => ?_, fun op b rm en g e hop => ?_, fun data hop => ?_⟩⟩
  · show execHostAccess true 0 addr n v s = execRegisterWrite addr n v s
    unfold execHostAccess execRegisterWrite
    simp only [if_true]
    cases regAccess addr n <;> rfl
  · show execHostAccess false 0 addr n v s = _
    unfold execHostAccess
    simp only [if_true, h]; rfl
  · show execHostAccess true 2 addr n v s = _
    unfold execHostAccess
    simp only [if_neg (show ¬ (2 : Nat) = 0 by decide), if_true, reaches_refused h, hr, Bool.not_true, Bool.or_false, Bool.false_eq_true, if_false]
    rw [outside_write h hv]
  · show execHostAccess false 2 addr n v s = _
    unfold execHostAccess
    simp only [if_neg (show ¬ (2 : Nat) = 0 by decide), if_true, reaches_refused h, hr, Bool.not_true, Bool.or_false, Bool.false_eq_true, if_false, h.free, hq,
      State.outsideRead, hbad]
    rfl
  · show execHostAccess true 2 addr n v s = _
    unfold execHostAccess
    have hr : s.refused addr n = true := by
      unfold State.refused; rw [Bool.or_eq_true, decide_eq_true_eq]; exact h
    simp only [if_neg (show ¬ (2 : Nat) = 0 by decide), if_true, hr, Bool.true_or]
    rw [if_pos h2]
  · show execHostAccess false 2 addr n v s = _
    unfold execHostAccess
    have hr : s.refused addr n = true := by
      unfold State.refused; rw [Bool.or_eq_true, decide_eq_true_eq]; exact h
    simp only [if_neg (show ¬ (2 : Nat) = 0 by decide), if_true, hr, Bool.true_or, Bool.false_eq_true, if_false]
    rfl
  · show execPeerAccess port w addr n v s = _
    unfold execPeerAccess
    have hr : s.refused addr n = true := by
      unfold State.refused; rw [Bool.or_eq_true, decide_eq_true_eq]; exact h
    simp only [if_neg (show ¬ 2 ^ 48 ≤ addr by omega), hu, Bool.not_true, Bool.false_eq_true, if_false, hr, if_true]
    rfl
  · show execPeerAccess port true addr n v s = _
    unfold execPeerAccess
    have ha : ¬ 2 ^ 48 ≤ addr := by have := h.inside; unfold Config.devBytes at this; omega
    simp only [if_neg ha, hu, Bool.not_true, Bool.false_eq_true, if_false, reaches_refused h, if_true]
    rw [outside_write h hv]
  · show execPeerAccess port false addr n v s = _
    unfold execPeerAccess
    have ha : ¬ 2 ^ 48 ≤ addr := by have := h.inside; unfold Config.devBytes at this; omega
    simp only [if_neg ha, hu, Bool.not_true, Bool.false_eq_true, if_false, reaches_refused h, h.free, hq, State.outsideRead, hbad]
    rfl
  · show execPeerAccess port w addr n v s = _
    unfold execPeerAccess
    simp only [if_neg (show ¬ 2 ^ 48 ≤ addr by omega), hu, Bool.not_false, if_true]
  · rw [negative_of h, hop]; rfl
  · rcases hop with hop | hop <;> (rw [negative_of h, hop]; rfl)
  · rw [negative_of h, hop]; rfl

end Sys2Proof.Machine
end

