-- ==== Sys2Proof/Laws/CopySegments.lean ====
section
/-! SUPPORT. The copy engines, segment by segment, and the end of an item. -/

set_option Elab.async false

namespace Sys2Proof.Machine

theorem wants_eq (t : Item) (seg : Nat) : (match t.segs[seg]? with
        | some g => g.fate == 0 && g.data.isNone
        | none => false) = t.wants seg := rfl

theorem read_of {s : State} {i j seg : Nat} {c : Copy} (h : s.ReadsNow i j seg c) : exec (.copySegmentRead i j seg) s = .next (
      match s.readSegment c seg with
      | none => s
      | some (.ok data) => (s.segmentRead i seg data).sourceRead i
      | some (.error fate) =>
          let hit := (List.range c.items.length).filter (fun j => match c.items[j]? with
            | some t => t.wants seg
            | none => false)
          (s.modCopy i (fun c => hit.foldl (fun c j => c.settle j seg fate) c)).sourceRead i) := by
  show execCopySegmentRead i j seg s = _
  unfold execCopySegmentRead
  have hh : s.copies[i]? = some c := h.here
  rw [hh]
  dsimp only
  obtain ⟨t, ht, hw⟩ := h.wanted
  rw [ht]
  have hw2 : (match t.segs[seg]? with
        | some g => g.fate == 0 && g.data.isNone
        | none => false) = true := hw
  refine congrArg Host.Outcome.next ((if_neg ?_).trans ?_)
  · rw [h.first, h.accepted]
    show ¬ (!true || !(match t.segs[seg]? with
        | some g => g.fate == 0 && g.data.isNone
        | none => false) || false) = true
    rw [hw2]; decide
  · cases s.readSegment c seg with
    | none => rfl
    | some x => cases x <;> rfl

theorem fails_eq {s : State} {i seg fate : Nat} {c : Copy} (hh : s.copies[i]? = some c) : s.modCopy i (fun x => ((List.range c.items.length).filter (fun j => match c.items[j]? with
            | some t => t.wants seg
            | none => false)).foldl (fun c j => c.settle j seg fate) x) = s.segmentFated i seg fate := by
  unfold State.segmentFated State.modCopy
  have : ∀ (l : List Copy) (i : Nat) (f g : Copy → Copy), l[i]? = some c → f c = g c → updAt f l i = updAt g l i := by
    intro l
    induction l with
    | nil => intro i f g h; cases h
    | cons a l ih =>
      intro i f g h e
      cases i with
      | zero =>
        have : a = c := by simpa using h
        subst this
        unfold updAt; rw [e]
      | succ n =>
        have : l[n]? = some c := by simpa using h
        unfold updAt; rw [ih n f g this e]
  refine congrArg (fun l => { s with copies := l }) ?_
  exact this s.copies i _ _ hh rfl

theorem delivery_of {s : State} {i j k : Nat} {c : Copy} {t : Item} {g : Seg} {data : List Byte} (h : s.CarriesSegment i j k c t g data) (crc : Bool) :
    exec (.copySegmentDelivery i j k crc) s = .next (
            if !crc && !s.segmentBegun c g then
              if g.resent then s.segmentFails i j k 2 c
              else s.modCopy i (fun c => c.modItem j (fun t => { t with segs := updAt (fun g => { g with resent := true }) t.segs k }))
            else match s.segmentHomes c t.dst k with
              | none => s.segmentFails i j k 3 c
              | some all =>
                let hs := all.drop g.put
                if hs.any (fun h => s.keyHeld (h.writeKey s.sys.lead) || (s.homeLost h && !s.homeDown h)) then s
                else if hs.any (fun h => s.homeDown h) then s.segmentFails i j k 2 c
                else
                  let r := s.putLines c.writer hs (data.drop (64 * g.put))
                  if r.2 ≠ 0 ∨ r.1.copyOpen c then
                    r.1.modCopy i (fun c => c.modItem j (fun t => { t with segs := updAt (fun g => { g with put := all.length - r.2 }) t.segs k }))
                  else
                    let u := r.1.modCopy i (fun c => c.settle j k 1)
                    ((u.advanceMark i).barOf c t (.debit (c.segLen k))).freeMoved i) := by
  show execCopySegmentDelivery i j k crc s = _
  unfold execCopySegmentDelivery
  have hh : s.copies[i]? = some c := h.here
  rw [hh]
  dsimp only
  rw [h.item]
  dsimp only
  rw [h.seg]
  dsimp only
  rw [h.data]
  dsimp only
  have hn : ¬ (g.fate ≠ 0 ∨ s.segmentHeld c t.dst (4096 * k) (4096 * k + c.segLen k) = true) := by rw [h.open_, h.free]; decide
  rw [if_neg hn]
  all_goals (cases s.segmentHomes c t.dst k <;> rfl)

/-- A delivery that has not begun holds nothing: when it fails, its segment is settled. -/
theorem fails_unbegun {s : State} {i j k fate : Nat} {c : Copy} {g : Seg} (h : s.segmentBegun c g = false) :
    s.segmentFails i j k fate c = (s.modCopy i (fun c => c.settle j k fate)).segmentDone i := by
  unfold State.segmentBegun at h
  rw [Bool.or_eq_false_iff] at h
  unfold State.segmentFails
  rw [h.2]; rfl

theorem begun_neg {s : State} {c : Copy} {g : Seg} {crc : Bool} (h : crc = true ∨ s.segmentBegun c g = true) : ¬ (!crc && !s.segmentBegun c g) = true := by
  rcases h with h | h <;> rw [h] <;> simp

theorem copyEngine_rules :
    (∀ (s : State) (core cx i : Nat) (c : Copy), s.copies.findIdx? (fun c => c.pid == core && c.cx == cx && !c.accepted) = some i → s.hasCopy i c →
    exec (.copyEngineAccept core cx) s = .next (((s.modCopy i (fun c => { c with accepted := true })).popOwn c.act 2).refreshPend c.act))
  ∧ (∀ (s : State) (i j seg : Nat) (c : Copy), s.ReadsNow i j seg c →
    (s.copyLines c .read (c.segLen seg / 64) (c.src + W (4096 * seg)) = none → exec (.copySegmentRead i j seg) s = .next ((s.segmentFated i seg 3).sourceRead i))
    ∧ (∀ hs, s.copyLines c .read (c.segLen seg / 64) (c.src + W (4096 * seg)) = some hs → (∀ h ∈ hs, (s.seenBy c).homeMarked c.pid h 64 = false) →
      ((∀ h ∈ hs, s.homeDown h = false ∧ s.bad (h.readKey s.sys.lead c.pid) 64 = false) →
        exec (.copySegmentRead i j seg) s = .next ((s.segmentRead i seg (hs.flatMap (fun h => s.rd (h.readKey s.sys.lead c.pid) 64))).sourceRead i))
      ∧ ((∃ h ∈ hs, s.homeDown h = true ∨ s.bad (h.readKey s.sys.lead c.pid) 64 = true) →
        exec (.copySegmentRead i j seg) s = .next ((s.segmentFated i seg 2).sourceRead i))))
  ∧ (∀ (s : State) (i j k : Nat) (c : Copy) (t : Item) (g : Seg) (data : List Byte), s.CarriesSegment i j k c t g data →
    (g.resent = false → s.segmentBegun c g = false →
      exec (.copySegmentDelivery i j k false) s = .next (s.modCopy i (fun c => c.modItem j (fun t => { t with segs := updAt (fun g => { g with resent := true }) t.segs k }))))
    ∧ (g.resent = true → s.segmentBegun c g = false → exec (.copySegmentDelivery i j k false) s = .next ((s.modCopy i (fun c => c.settle j k 2)).segmentDone i))
    ∧ (∀ crc, crc = true ∨ s.segmentBegun c g = true →
      (s.segmentHomes c t.dst k = none → exec (.copySegmentDelivery i j k crc) s = .next (s.segmentFails i j k 3 c))
      ∧ (∀ all, s.segmentHomes c t.dst k = some all →
        (∀ h ∈ all.drop g.put, s.keyHeld (h.writeKey s.sys.lead) = false ∧ s.homeLost h = false ∧ s.homeDown h = false) →
        ∀ u left, (u, left) = s.putLines c.writer (all.drop g.put) (data.drop (64 * g.put)) →
        (left = 0 → u.copyOpen c = false → exec (.copySegmentDelivery i j k crc) s =
          .next ((((u.modCopy i (fun c => c.settle j k 1)).advanceMark i).barOf c t (.debit (c.segLen k))).freeMoved i))
        ∧ (left ≠ 0 ∨ u.copyOpen c = true → exec (.copySegmentDelivery i j k crc) s =
          .next (u.modCopy i (fun c => c.modItem j (fun t => { t with segs := updAt (fun g => { g with put := all.length - left }) t.segs k }))))))) := by
  refine ⟨fun s core cx i c h hh => ?_, fun s i j seg c h => ⟨fun hn => ?_, fun hs hl hm => ⟨fun hg => ?_, fun hb => ?_⟩⟩, fun s i j k c t g data h => ⟨fun hr hb => ?_, fun hr hb => ?_, fun crc hc => ⟨fun hn => ?_, fun all hl hg u left hu => ?_⟩⟩⟩
  · show execCopyEngineAccept core cx s = _
    unfold execCopyEngineAccept
    rw [h]
    have h2 : s.copies[i]? = some c := hh
    dsimp only
    rw [h2]
  · rw [read_of h]
    unfold State.readSegment
    rw [hn]
    exact congrArg (fun t => Host.Outcome.next (State.sourceRead t i)) (fails_eq h.here)
  · rw [read_of h]
    unfold State.readSegment
    rw [hl]
    dsimp only
    have h1 : hs.any (fun h => (s.seenBy c).homeMarked c.pid h 64) = false := by rw [List.any_eq_false]; intro x hx; rw [hm x hx]; decide
    have h2 : hs.any (fun h => s.homeDown h) = false := by rw [List.any_eq_false]; intro x hx; rw [(hg x hx).1]; decide
    have h3 : hs.any (fun h => s.bad (h.readKey s.sys.lead c.pid) 64) = false := by rw [List.any_eq_false]; intro x hx; rw [(hg x hx).2]; decide
    rw [h1, h2, h3]; rfl
  · rw [read_of h]
    unfold State.readSegment
    rw [hl]
    dsimp only
    have h1 : hs.any (fun h => (s.seenBy c).homeMarked c.pid h 64) = false := by rw [List.any_eq_false]; intro x hx; rw [hm x hx]; decide
    rw [h1, if_neg (by decide)]
    obtain ⟨x, hx, hb⟩ := hb
    by_cases h2 : hs.any (fun h => s.homeDown h) = true
    · rw [if_pos h2]
      exact congrArg (fun t => Host.Outcome.next (State.sourceRead t i)) (fails_eq h.here)
    · rw [if_neg h2]
      have h3 : hs.any (fun h => s.bad (h.readKey s.sys.lead c.pid) 64) = true := by
        rw [List.any_eq_true]
        refine ⟨x, hx, ?_⟩
        rcases hb with hb | hb
        · exact absurd (List.any_eq_true.2 ⟨x, hx, hb⟩) h2
        · exact hb
      rw [if_pos h3]
      exact congrArg (fun t => Host.Outcome.next (State.sourceRead t i)) (fails_eq h.here)
  · rw [delivery_of h, hr, hb]; rfl
  · rw [delivery_of h, hr, hb, if_pos (by decide), if_pos rfl, fails_unbegun hb]
  · rw [delivery_of h, if_neg (begun_neg hc), hn]
  · rw [delivery_of h, if_neg (begun_neg hc), hl]
    have h1 : (all.drop g.put).any (fun h => s.keyHeld (h.writeKey s.sys.lead) || (s.homeLost h && !s.homeDown h)) = false := by
      rw [List.any_eq_false]; intro x hx; rw [(hg x hx).1, (hg x hx).2.1, Bool.false_and]; decide
    have h2 : (all.drop g.put).any (fun h => s.homeDown h) = false := by rw [List.any_eq_false]; intro x hx; rw [(hg x hx).2.2]; decide
    dsimp only
    rw [h1, h2, ← hu]
    simp only [Bool.false_eq_true, if_false]
    exact ⟨fun h0 ho => by rw [if_neg (by rw [h0, ho]; decide)], fun ho => by rw [if_pos ho]⟩

theorem lastItem_iff (c : Copy) (item : Nat) : ((List.range c.items.length).all (fun j => j == item || (match c.items[j]? with
              | some u => u.closed
              | none => true)) = true) ↔ c.LastItem item := by
  rw [List.all_eq_true]
  unfold Copy.LastItem
  constructor
  · intro h j u hj hu
    have hlt : j < c.items.length := by
      rw [List.getElem?_eq_some_iff] at hu; exact hu.1
    have := h j (List.mem_range.2 hlt)
    rw [hu, Bool.or_eq_true, beq_iff_eq] at this
    exact this.resolve_left hj
  · intro h j hj
    by_cases e : j = item
    · simp [e]
    · cases hu : c.items[j]? with
      | none => simp
      | some u => simp [h j u e hu]

theorem completion_of {s : State} {i item : Nat} {c : Copy} {t : Item} (h : s.Reports i item c t) : exec (.copyItemCompletion i item) s = .next (
            let s1 := if t.status = 0 then s else s.barOf c t (.mark (t.dst.addr (c.lost t).1) (c.lost t).2 t.pos (t.status == 2))
            let s2 := s1.reportCopy c t.pos t.status (c.lost t).1 (c.lost t).2 (t.dst.addr (c.lost t).1)
            let s3 := s2.modCopy i (fun c => { (c.modItem item (fun t => { t with closed := true })) with ends := c.ends.drop 1 })
            let last := (List.range c.items.length).all (fun j => j == item || (match c.items[j]? with
              | some u => u.closed
              | none => true))
            if last then s3.closeCopy i (t.status == 0) else s3) := by
  show execCopyItemCompletion i item s = _
  unfold execCopyItemCompletion
  have hh : s.copies[i]? = some c := h.here
  rw [hh]
  dsimp only
  rw [h.accepted, if_neg (by have := h.room; simp; omega), h.single]
  simp only [Bool.false_eq_true, if_false]
  rw [h.it]
  dsimp only
  have hr : (match t.dst with
            | .recv _ _ _ base => base.isSome
            | _ => true) = true := by
    cases hd : t.dst with
    | recv p n off b =>
      cases b with
      | none => exact absurd hd (h.landed p n off)
      | some x => rfl
    | _ => rfl
  refine congrArg Host.Outcome.next ((if_neg ?_).trans ?_)
  · rw [h.ended]
    intro hx
    rcases hx with hx | hx
    · exact hx rfl
    · have e := Eq.mp (Bool.not_eq_true' _) hx
      exact Bool.noConfusion (hr.symm.trans e)
  · rfl

theorem copyEnd_rules_item : ∀ (s : State) (i item : Nat) (c : Copy) (t : Item), s.Reports i item c t →
    (t.status = 0 → ∀ u, u = (s.pushOwn c.act 3 [entryWord 0 c.ch t.pos c.len 0]).modCopy i (fun c => { (c.modItem item (fun t => { t with closed := true })) with ends := c.ends.drop 1 }) →
      (t.segs.all (fun g => g.fate == 1) = true) →
      (c.LastItem item → exec (.copyItemCompletion i item) s = .next (u.closeCopy i true))
      ∧ (¬ c.LastItem item → exec (.copyItemCompletion i item) s = .next u))
    ∧ (t.status ≠ 0 → c.bar = none → ∀ off notd, (off, notd) = c.lost t → ∀ v, v = s.pushOwn c.act 3 [entryWord t.status c.ch t.pos off notd] →
      ∀ e, e = (if t.status = 2 then 0x021 else 0x020) →
      ∀ u, u = (if c.fx then v.addPend c.act ⟨e, { eff := e, arg := W notd, addr := W (t.dst.addr off), lanes := W (2 ^ t.pos) }⟩ else v).modCopy i
        (fun c => { (c.modItem item (fun t => { t with closed := true })) with ends := c.ends.drop 1 }) →
      (c.LastItem item → exec (.copyItemCompletion i item) s = .next (u.closeCopy i false))
      ∧ (¬ c.LastItem item → exec (.copyItemCompletion i item) s = .next u)) := by
  intro s i item c t h
  refine ⟨fun h0 u hu ha => ?_, fun h0 hb off notd hl v hv e he u hu => ?_⟩
  · have hlost : c.lost t = (c.len, 0) := by
      unfold Copy.lost
      have : t.segs.filter (fun g => g.fate != 1) = [] := by
        rw [List.filter_eq_nil_iff]
        intro g hg
        have := List.all_eq_true.1 ha g hg
        simp only [beq_iff_eq] at this
        simp [this]
      rw [this]
    have e2 : exec (.copyItemCompletion i item) s = .next (if (List.range c.items.length).all (fun j => j == item || (match c.items[j]? with
              | some u => u.closed
              | none => true)) then u.closeCopy i true else u) := by
      rw [completion_of h]
      dsimp only
      rw [h0, if_pos rfl, hlost]
      unfold State.reportCopy
      rw [if_pos (show (0 = 0 ∨ (!c.fx) = true) from .inl rfl), hu]; rfl
    rw [e2]
    exact ⟨fun hz => congrArg _ (if_pos ((lastItem_iff c item).2 hz)), fun hz => congrArg _ (if_neg (fun y => hz ((lastItem_iff c item).1 y)))⟩
  · have e2 : exec (.copyItemCompletion i item) s = .next (if (List.range c.items.length).all (fun j => j == item || (match c.items[j]? with
              | some u => u.closed
              | none => true)) then u.closeCopy i false else u) := by
      rw [completion_of h]
      dsimp only
      rw [if_neg h0, ← hl]
      have hbar : ∀ op, s.barOf c t op = s := by intro op; unfold State.barOf; rw [hb]
      rw [hbar]
      have hs : (t.status == 0) = false := beq_eq_false_iff_ne.2 h0
      have hrep : s.reportCopy c t.pos t.status off notd (t.dst.addr off)
          = if c.fx then v.addPend c.act ⟨e, { eff := e, arg := W notd, addr := W (t.dst.addr off), lanes := W (2 ^ t.pos) }⟩ else v := by
        unfold State.reportCopy
        rw [hv, he]
        cases hf : c.fx
        · rw [if_pos (.inr rfl)]; rfl
        · rw [if_neg (by rintro (h | h); exact h0 h; cases h)]; rfl
      rw [hrep, hs, hu]
    rw [e2]
    exact ⟨fun hz => congrArg _ (if_pos ((lastItem_iff c item).2 hz)), fun hz => congrArg _ (if_neg (fun y => hz ((lastItem_iff c item).1 y)))⟩

theorem copyEnd_rules :
    (∀ (s : State) (i item : Nat) (c : Copy) (t : Item), s.Reports i item c t →
    (t.status = 0 → ∀ u, u = (s.pushOwn c.act 3 [entryWord 0 c.ch t.pos c.len 0]).modCopy i (fun c => { (c.modItem item (fun t => { t with closed := true })) with ends := c.ends.drop 1 }) →
      (t.segs.all (fun g => g.fate == 1) = true) →
      (c.LastItem item → exec (.copyItemCompletion i item) s = .next (u.closeCopy i true))
      ∧ (¬ c.LastItem item → exec (.copyItemCompletion i item) s = .next u))
    ∧ (t.status ≠ 0 → c.bar = none → ∀ off notd, (off, notd) = c.lost t → ∀ v, v = s.pushOwn c.act 3 [entryWord t.status c.ch t.pos off notd] →
      ∀ e, e = (if t.status = 2 then 0x021 else 0x020) →
      ∀ u, u = (if c.fx then v.addPend c.act ⟨e, { eff := e, arg := W notd, addr := W (t.dst.addr off), lanes := W (2 ^ t.pos) }⟩ else v).modCopy i
        (fun c => { (c.modItem item (fun t => { t with closed := true })) with ends := c.ends.drop 1 }) →
      (c.LastItem item → exec (.copyItemCompletion i item) s = .next (u.closeCopy i false))
      ∧ (¬ c.LastItem item → exec (.copyItemCompletion i item) s = .next u)))
  ∧ (∀ (s : State) (i j core tile off : Nat) (p : Pkt) (id item : Nat) (c : Copy) (t : Item) (b : Option Nat), s.Arrives i p → p.body = .cpym id item →
    s.copies.findIdx? (fun c => c.id == id) = some j → s.hasCopy j c → c.items[item]? = some t → t.dst = .recv core tile off b →
    ∀ base, base = ((s.coreAt core).tile tile).base + off → ∀ v, v = (match c.bar with
      | some (_, _, slot) => (s.taken i).applyBar core slot p (.credit c.len)
      | none => s.taken i) →
    ∀ u, u = { v with copies := ((s.taken i).modCopy j (fun c => c.modItem item (fun x => { x with dst := .recv core tile off (some base) }))).copies } →
    (base + c.len ≤ Config.spadBytes → exec (.cpymHeaderArrival i) s = .next u)
    ∧ (Config.spadBytes < base + c.len → exec (.cpymHeaderArrival i) s =
        .next ((u.modCopy j (fun c => (List.range t.segs.length).foldl (fun c n => c.settle item n 3) c)).segmentDone j)))
  ∧ (∀ (s : State) (core : Nat) (t : Reg),
    (((s.coreAt core).tile t.toNat).dcnt ≠ 0 → exec (.drainHoldRelease core t) s = .next s)
    ∧ (((s.coreAt core).tile t.toNat).dcnt = 0 → ∀ c it off, s.copies.filter (fun c => c.pid == core && c.drains.contains t.toNat) = [c] → c.items.head? = some it → it.dst = .local off →
      ∀ u, u = { s with copies := s.copies.map (fun c => if c.pid = core then { c with drains := c.drains.filter (fun m => m != t.toNat) } else c) } →
      exec (.drainHoldRelease core t) s = .next (if overlaps ((s.coreAt core).tile t.toNat).base ((s.coreAt core).tile t.toNat).stop off (off + c.len)
        then u.tileCopyIn core t.toNat c.ch off (off + c.len) else u))) := by
  refine ⟨copyEnd_rules_item, fun s i j core tile off p id item c t b hp hbody hf hc ht hd base hbase v hv u hu => ?_, fun s core t => ⟨fun h => ?_, fun h c it off hf hi ho u hu => ?_⟩⟩
  · have e : exec (.cpymHeaderArrival i) s = .next (if Config.spadBytes < base + c.len then
        (u.modCopy j (fun c => (List.range t.segs.length).foldl (fun c n => c.settle item n 3) c)).segmentDone j else u) := by
      show execCpymHeaderArrival i s = _
      unfold execCpymHeaderArrival
      rw [hp.arriving]
      dsimp only
      rw [hbody]
      dsimp only
      have hc2 : (s.taken i).copies[j]? = some c := hc
      have hf2 : (s.taken i).copies.findIdx? (fun c => c.id == id) = some j := hf
      rw [hf2]
      dsimp only
      rw [hc2]
      dsimp only
      rw [ht]
      dsimp only
      rw [hd]
      dsimp only
      have hco : (s.taken i).coreAt core = s.coreAt core := rfl
      rw [hco, ← hbase]
      subst hu; subst hv
      rfl
    rw [e]
    exact ⟨fun hz => congrArg _ (if_neg (by omega)), fun hz => congrArg _ (if_pos hz)⟩
  · show execDrainHoldRelease core t s = _
    unfold execDrainHoldRelease
    exact congrArg _ (if_pos h)
  · show execDrainHoldRelease core t s = _
    unfold execDrainHoldRelease
    dsimp only
    rw [if_neg (by omega), hf]
    simp only [List.foldl_cons, List.foldl_nil]
    rw [hi]
    dsimp only
    rw [ho]
    subst hu
    rfl

end Sys2Proof.Machine
end

