-- ==== Sys2Proof/Laws/Committing.lean ====
section
/-! SUPPORT. Snapshots, locks, installs and reclaiming. -/

set_option Elab.async false

namespace Sys2Proof.Machine

theorem sequencer_rules_snap : ∀ (s : State) (i : Nat) (a : Asked) (d : Reg) (lcap lbase : Nat), s.net.asks[i]? = some a → a.ask = .snap d lcap lbase → s.sys.lval = true → s.waitsFor a.pid a.cx a.act →
    exec (.snapshotRequest i) s = .next (({ s with
      net := { s.net with asks := s.net.asks.eraseIdx i }
      vers := { s.vers with snaps := s.vers.snaps ++ [⟨a.act, s.vers.stable, s.vers.snapSeq⟩], snapSeq := s.vers.snapSeq + 1 } } : State).modCtxAt a.pid a.cx (fun c => { c.setG d (W s.vers.stable) with
        tx := ⟨W s.vers.stable, true, false, false, 0, lcap, lbase, s.vers.snapSeq⟩, pc := c.pc + 4, run := .runnable })) := by
  intro s i a d lcap lbase h1 h2 h3 h4
  show execSnapshotRequest i s = _
  unfold execSnapshotRequest
  rw [takeAt_getElem?, h1]
  simp only [Option.map_some, h2, h3]
  simp only [Bool.not_true, Bool.false_eq_true, if_false]
  refine congrArg Host.Outcome.next (Eq.trans (answered_of (s := s) h4.1 h4.2 ?_) ?_)
  · rfl
  · rfl

theorem sequencer_rules_stamp : ∀ (s : State) (i : Nat) (c : Commit), s.hasCommit i c → c.stamp = none → c.lines.length ≤ c.locked → s.vers.next ≤ 0xFFFFFFFFFFFF → s.sys.lval = true →
    exec (.commitTimestamp i) s = .next { s with vers := { s.vers with next := s.vers.next + 1, commits := updAt (fun c => { c with stamp := some s.vers.next }) s.vers.commits i } } := by
  intro s i c h h1 h2 h3 h4
  show execCommitTimestamp i s = _
  unfold execCommitTimestamp
  have hh : s.vers.commits[i]? = some c := h
  rw [hh]
  dsimp only
  rw [if_neg]
  · rfl
  · unfold State.stampsLeft
    rw [h1, h4, decide_eq_true h3]
    rintro (h | h | h | h)
    · cases h
    · omega
    · cases h
    · cases h

theorem deliver_frame {v : State} {core cx : Nat} {r : Raise} (here : Word) (hr : Eff.system r.eff = false) (h11 : r.eff ≠ Eff.resumed) :
    v.TakesFrame (v.deliver core cx r here (v.ctxAt core cx).pc false false none) core cx r := by
  refine ⟨fun f hf hm hc hb => ?_, fun hn => ?_⟩
  · have : v.deliver core cx r here (v.ctxAt core cx).pc false false none = v.toFrame core cx f r (v.ctxAt core cx).pc r.addr none [] := by
      unfold State.deliver
      rw [hr]
      simp only [Bool.false_eq_true, if_false]
      rw [hf]
      simp only [hm, Bool.not_false, Bool.true_or, if_true, hb, Bool.false_eq_true, if_false]
    rw [this, toFrame_asOf]
    exact toFrame_entered (s := v.asOf core cx) r _ _ none hc
  · unfold State.deliver
    rw [hr]
    simp only [Bool.false_eq_true, if_false]
    rw [hn]
    simp only []
    rw [if_neg h11]

theorem conflict_of {s : State} {c : Commit} {va : Nat} (hw : s.waitsFor c.pid c.cx c.act) (hp : (s.ctxAt c.pid c.cx).regs.allPresent = true) :
    (s.refusedCommit c).TakesFrame (s.conflict c va) c.pid c.cx { eff := 0x030, arg := W c.ts, addr := W va } := by
  have e : s.conflict c va = (s.refusedCommit c).deliver c.pid c.cx { eff := 0x030, arg := W c.ts, addr := W va } (((s.refusedCommit c).ctxAt c.pid c.cx).pc - 4)
      ((s.refusedCommit c).ctxAt c.pid c.cx).pc false false none := by
    unfold State.conflict
    have h1 : ((s.endCommit c.id).ctxAt c.pid c.cx).awaits c.act = true := by
      have : (s.endCommit c.id).ctxAt c.pid c.cx = s.ctxAt c.pid c.cx := rfl
      rw [this]
      unfold Ctx.awaits
      obtain ⟨h1, h2⟩ := hw
      rw [h1]
      rcases h2 with h2 | h2 <;> rw [h2] <;> simp
    dsimp only
    rw [if_pos h1]
    have h2 : (s.endCommit c.id).answer c.pid c.cx c.act (fun x => { x with tx := { x.tx with logn := 0, cfl := true } }) = s.refusedCommit c := by
      have e := answered_of (s := s) (t := s.endCommit c.id) (f := fun x => { x with tx := { x.tx with logn := 0, cfl := true } }) hw.1 hw.2 rfl
      exact e
    rw [h2, if_pos]
    · rfl
    · unfold State.refusedCommit
      rw [State.ctxAt_modCtxAt]
      exact hp
  rw [e]
  exact deliver_frame _ rfl (show ¬ (0x030 = 0x011) by decide)

theorem sequencer_rules_prepare : ∀ (s : State) (i : Nat) (c : Commit) (x : CLine), s.hasCommit i c → c.lines[c.locked]? = some x → s.keyHeld x.pa = false →
    ((s.vline x.pa).lock = none → s.single x.pa = none → (s.vline x.pa).ts ≤ c.ts → exec (.commitPrepare i) s = .next { s with vers := { s.vers with
        lines := Tab.set s.vers.lines x.pa { s.vline x.pa with lock := some c.id }
        commits := updAt (fun c => { c with locked := c.locked + 1 }) s.vers.commits i } })
    ∧ (∀ k, (s.vline x.pa).lock = some k → k ≠ c.id → (∀ e ∈ s.vers.commits, e.id = k → e.stamp = none) → exec (.commitPrepare i) s = .next s)
    ∧ (((s.vline x.pa).lock = none ∧ (s.single x.pa ≠ none ∨ c.ts < (s.vline x.pa).ts) ∨ ∃ k e, (s.vline x.pa).lock = some k ∧ k ≠ c.id ∧ e ∈ s.vers.commits ∧ e.id = k ∧ e.stamp ≠ none) →
      s.waitsFor c.pid c.cx c.act → (s.ctxAt c.pid c.cx).regs.allPresent = true →
      ∃ t, exec (.commitPrepare i) s = .next t ∧ (s.refusedCommit c).TakesFrame t c.pid c.cx { eff := 0x030, arg := W c.ts, addr := W x.va }) := by
  intro s i c x h hx hk
  have hh : s.vers.commits[i]? = some c := h
  have e : exec (.commitPrepare i) s = .next (match s.prepare c x.pa with
          | .waits => s
          | .refused => s.conflict c x.va
          | .locked =>
            (s.setVline x.pa { s.vline x.pa with lock := some c.id }).modVers (fun v => { v with
              commits := updAt (fun c => { c with locked := c.locked + 1 }) v.commits i })) := by
    show execCommitPrepare i s = _
    unfold execCommitPrepare
    rw [hh]
    dsimp only
    rw [hx]
    dsimp only
    rw [hk]
    rfl
  rw [e]
  refine ⟨fun h1 h0 h2 => ?_, fun k h1 h2 h3 => ?_, fun h1 h2 h3 => ?_⟩
  · have : s.prepare c x.pa = .locked := by
      unfold State.prepare
      dsimp only
      rw [h1, h0]
      exact (if_neg (show ¬ (none : Option Single).isSome = true by decide)).trans (if_neg (by omega))
    rw [this]; rfl
  · have : s.prepare c x.pa = .waits := by
      unfold State.prepare
      dsimp only
      rw [h1]
      dsimp only
      rw [if_neg h2, if_neg]
      rw [List.any_eq_true]
      rintro ⟨e, he, hq⟩
      rw [Bool.and_eq_true, beq_iff_eq] at hq
      rw [h3 e he hq.1] at hq
      exact Bool.false_ne_true hq.2
    rw [this]
  · have : s.prepare c x.pa = .refused := by
      unfold State.prepare
      dsimp only
      rcases h1 with ⟨a, b⟩ | ⟨k, e, a, b, he, hq, hz⟩
      · rw [a]
        dsimp only
        by_cases hs : (s.single x.pa).isSome = true
        · rw [if_pos hs]
        · rw [if_neg hs]
          refine if_pos (b.resolve_left fun hb => hs ?_)
          cases hq : s.single x.pa with
          | none => exact absurd hq hb
          | some _ => rfl
      · rw [a]
        dsimp only
        rw [if_neg b, if_pos]
        rw [List.any_eq_true]
        refine ⟨e, he, ?_⟩
        rw [Bool.and_eq_true, beq_iff_eq]
        refine ⟨hq, ?_⟩
        cases hs : e.stamp with
        | none => exact absurd hs hz
        | some v => rfl
    rw [this]
    exact ⟨_, rfl, conflict_of h2 h3⟩

theorem install_line {s : State} {line ts : Nat} {data : List Byte} (ho : (s.vline line).olds.length < 15) (hu : s.ue.contains line = false) :
    (s.install line ts data).setVline line { (s.install line ts data).vline line with lock := none } = s.lineInstalled line ts data := by
  unfold State.install
  rw [if_neg (by omega)]
  dsimp only
  rw [hu]
  simp only [Bool.false_eq_true, if_false]
  have : ∀ (w : State) (v : VLine) (k : Nat) (bs : List Byte), (((w.setVline line v).modVers (fun v => { v with heldAt := Tab.del v.heldAt line })).wr k bs).vline line = v := by
    intro w v k bs
    unfold State.vline State.setVline State.modVers State.wr
    dsimp only
    exact Tab.get_set_same _ _ _ _
  rw [this]
  rfl

theorem install_of {s : State} {i line ts : Nat} {c : Commit} {x : CLine} (h : s.hasCommit i c) (hs : c.stamp = some ts) (hf : c.lines.filter (fun x => x.pa == line && !x.installed) = [x])
    (hk : s.keyHeld line = false) : exec (.commitInstall i line) s = .next (
        if !s.installable line ts then s.holdLine line
        else
          let t := s.installLine ts x
          let u := t.setVline line { t.vline line with lock := none }
          let d := { c with lines := c.lines.map (fun x => if x.pa = line then { x with installed := true } else x) }
          if d.lines.all (fun x => x.installed) then u.committed d ts
          else u.modVers (fun v => { v with commits := updAt (fun _ => d) v.commits i })) := by
  have hh : s.vers.commits[i]? = some c := h
  show execCommitInstall i line s = _
  unfold execCommitInstall
  rw [hh]
  dsimp only
  rw [hs]
  dsimp only
  rw [hf, hk]
  simp only [List.isEmpty_cons, Bool.or_self, Bool.false_eq_true, if_false, List.foldl_cons, List.foldl_nil]

theorem installLine_line {s : State} {line ts : Nat} {x : CLine} (hpa : x.pa = line) (hu : s.ue.contains line = false) (hne : (s.vline line).ts ≠ ts) :
    s.installLine ts x = s.install line ts (lineWith (s.rd line 64) x.data x.mask) := by
  unfold State.installLine
  rw [hpa]
  dsimp only
  rw [if_neg hne, hu]
  rfl

theorem lineInstalled_ctx (s : State) (line ts : Nat) (data : List Byte) (p x : Nat) : (s.lineInstalled line ts data).ctxAt p x = s.ctxAt p x := by
  unfold State.lineInstalled State.wr State.ctxAt
  rfl

theorem endCommit_ctx (s : State) (id p x : Nat) : (s.endCommit id).ctxAt p x = s.ctxAt p x := rfl

theorem sequencer_rules_install : ∀ (s : State) (i line ts : Nat) (c : Commit) (x : CLine), s.hasCommit i c → c.stamp = some ts → c.lines.filter (fun x => x.pa == line && !x.installed) = [x] →
    s.keyHeld line = false → (s.installable line ts = false → exec (.commitInstall i line) s = .next (s.holdLine line))
    ∧ (s.installable line ts = true → (s.vline line).olds.length < 15 → s.ue.contains line = false → (s.vline line).ts ≠ ts →
      ∀ d, d = { c with lines := c.lines.map (fun x => if x.pa = line then { x with installed := true } else x) } → ∀ u, u = s.lineInstalled line ts (lineWith (s.rd line 64) x.data x.mask) →
      ((∀ y ∈ d.lines, y.installed = true) → s.waitsFor c.pid c.cx c.act → exec (.commitInstall i line) s = .next (((u.endCommit c.id).modCtxAt c.pid c.cx (fun x =>
          { x.setG c.d (W ts) with tx := { x.tx with logn := 0, cfl := false }, pc := x.pc + 4, run := .runnable })).advanceStable))
      ∧ ((∃ y ∈ d.lines, y.installed = false) → exec (.commitInstall i line) s = .next { u with vers := { u.vers with commits := updAt (fun _ => d) u.vers.commits i } })) := by
  intro s i line ts c x h hs hf hk
  have hpa : x.pa = line := by
    have : x ∈ c.lines.filter (fun x => x.pa == line && !x.installed) := by rw [hf]; exact List.mem_singleton.2 rfl
    rw [List.mem_filter, Bool.and_eq_true, beq_iff_eq] at this
    exact this.2.1
  refine ⟨fun hi => ?_, fun hi ho hu hne d hd u hu2 => ?_⟩
  · rw [install_of h hs hf hk, hi]; rfl
  · have e : exec (.commitInstall i line) s = .next (if d.lines.all (fun x => x.installed) then u.committed d ts
          else u.modVers (fun v => { v with commits := updAt (fun _ => d) v.commits i })) := by
      rw [install_of h hs hf hk, hi, if_neg (by decide)]
      dsimp only
      rw [installLine_line hpa hu hne, install_line ho hu, hd, hu2]
    rw [e]
    refine ⟨fun ha hw => ?_, fun hb => ?_⟩
    · rw [if_pos (List.all_eq_true.2 ha)]
      unfold State.committed
      have hd2 : d.id = c.id ∧ d.pid = c.pid ∧ d.cx = c.cx ∧ d.act = c.act ∧ d.d = c.d := by subst hd; exact ⟨rfl, rfl, rfl, rfl, rfl⟩
      rw [hd2.1, hd2.2.1, hd2.2.2.1, hd2.2.2.2.1, hd2.2.2.2.2]
      have hc : (u.endCommit c.id).ctxAt c.pid c.cx = s.ctxAt c.pid c.cx := by rw [endCommit_ctx, hu2, lineInstalled_ctx]
      rw [answered_of (s := s) hw.1 hw.2 hc]
    · rw [if_neg]
      · rfl
      · obtain ⟨y, hy, hz⟩ := hb
        intro ha
        have := List.all_eq_true.1 ha y hy
        rw [hz] at this; cases this

theorem sequencer_rules :
    (∀ (s : State) (i : Nat) (a : Asked) (d : Reg) (lcap lbase : Nat), s.net.asks[i]? = some a → a.ask = .snap d lcap lbase → s.sys.lval = true → s.waitsFor a.pid a.cx a.act →
    exec (.snapshotRequest i) s = .next (({ s with
      net := { s.net with asks := s.net.asks.eraseIdx i }
      vers := { s.vers with snaps := s.vers.snaps ++ [⟨a.act, s.vers.stable, s.vers.snapSeq⟩], snapSeq := s.vers.snapSeq + 1 } } : State).modCtxAt a.pid a.cx (fun c => { c.setG d (W s.vers.stable) with
        tx := ⟨W s.vers.stable, true, false, false, 0, lcap, lbase, s.vers.snapSeq⟩, pc := c.pc + 4, run := .runnable })))
  ∧ (∀ (s : State) (i : Nat) (c : Commit) (x : CLine), s.hasCommit i c → c.lines[c.locked]? = some x → s.keyHeld x.pa = false →
    ((s.vline x.pa).lock = none → s.single x.pa = none → (s.vline x.pa).ts ≤ c.ts → exec (.commitPrepare i) s = .next { s with vers := { s.vers with
        lines := Tab.set s.vers.lines x.pa { s.vline x.pa with lock := some c.id }
        commits := updAt (fun c => { c with locked := c.locked + 1 }) s.vers.commits i } })
    ∧ (∀ k, (s.vline x.pa).lock = some k → k ≠ c.id → (∀ e ∈ s.vers.commits, e.id = k → e.stamp = none) → exec (.commitPrepare i) s = .next s)
    ∧ (((s.vline x.pa).lock = none ∧ (s.single x.pa ≠ none ∨ c.ts < (s.vline x.pa).ts) ∨ ∃ k e, (s.vline x.pa).lock = some k ∧ k ≠ c.id ∧ e ∈ s.vers.commits ∧ e.id = k ∧ e.stamp ≠ none) →
      s.waitsFor c.pid c.cx c.act → (s.ctxAt c.pid c.cx).regs.allPresent = true →
      ∃ t, exec (.commitPrepare i) s = .next t ∧ (s.refusedCommit c).TakesFrame t c.pid c.cx { eff := 0x030, arg := W c.ts, addr := W x.va }))
  ∧ (∀ (s : State) (i : Nat) (c : Commit), s.hasCommit i c → c.stamp = none → c.lines.length ≤ c.locked → s.vers.next ≤ 0xFFFFFFFFFFFF → s.sys.lval = true →
    exec (.commitTimestamp i) s = .next { s with vers := { s.vers with next := s.vers.next + 1, commits := updAt (fun c => { c with stamp := some s.vers.next }) s.vers.commits i } })
  ∧ (∀ (s : State) (i line ts : Nat) (c : Commit) (x : CLine), s.hasCommit i c → c.stamp = some ts → c.lines.filter (fun x => x.pa == line && !x.installed) = [x] →
    s.keyHeld line = false → (s.installable line ts = false → exec (.commitInstall i line) s = .next (s.holdLine line))
    ∧ (s.installable line ts = true → (s.vline line).olds.length < 15 → s.ue.contains line = false → (s.vline line).ts ≠ ts →
      ∀ d, d = { c with lines := c.lines.map (fun x => if x.pa = line then { x with installed := true } else x) } → ∀ u, u = s.lineInstalled line ts (lineWith (s.rd line 64) x.data x.mask) →
      ((∀ y ∈ d.lines, y.installed = true) → s.waitsFor c.pid c.cx c.act → exec (.commitInstall i line) s = .next (((u.endCommit c.id).modCtxAt c.pid c.cx (fun x =>
          { x.setG c.d (W ts) with tx := { x.tx with logn := 0, cfl := false }, pc := x.pc + 4, run := .runnable })).advanceStable))
      ∧ ((∃ y ∈ d.lines, y.installed = false) → exec (.commitInstall i line) s = .next { u with vers := { u.vers with commits := updAt (fun _ => d) u.vers.commits i } }))) := ⟨sequencer_rules_snap, sequencer_rules_prepare, sequencer_rules_stamp, sequencer_rules_install⟩

theorem oldestSnap_go (n : Snap) : ∀ (l : List Snap) (b : Option Snap),
    (∀ m ∈ l, m ≠ n → n.ts < m.ts ∨ (n.ts = m.ts ∧ n.seq < m.seq)) → (∀ m, b = some m → m ≠ n → n.ts < m.ts ∨ (n.ts = m.ts ∧ n.seq < m.seq)) → (b = some n ∨ n ∈ l) →
    l.foldl (fun b m => match b with
      | none => some m
      | some x => if m.ts < x.ts ∨ (m.ts = x.ts ∧ m.seq < x.seq) then some m else b) b = some n := by
  intro l
  induction l with
  | nil =>
    intro b _ _ h
    rcases h with h | h
    · exact h
    · cases h
  | cons a l ih =>
    intro b hl hb h
    rw [List.foldl_cons]
    have hl2 := fun m hm => hl m (List.mem_cons_of_mem _ hm)
    have ha := hl a List.mem_cons_self
    cases b with
    | none =>
      dsimp only
      refine ih (some a) hl2 (fun m e hm => ?_) ?_
      · cases e; exact ha hm
      · rcases h with h | h
        · cases h
        · rcases List.mem_cons.1 h with h | h
          · exact .inl (by rw [h])
          · exact .inr h
    | some x =>
      dsimp only
      have hx := hb x rfl
      by_cases hc : a.ts < x.ts ∨ (a.ts = x.ts ∧ a.seq < x.seq)
      · rw [if_pos hc]
        refine ih (some a) hl2 (fun m e hm => by cases e; exact ha hm) ?_
        by_cases hn : n ∈ l
        · exact .inr hn
        · left
          by_cases han : a = n
          · rw [han]
          · exfalso
            have hax := ha han
            rcases h with h | h
            · have : x = n := by simpa using h
              subst this
              rcases hax with h1 | h1 <;> rcases hc with h2 | h2 <;> omega
            · rcases List.mem_cons.1 h with h | h
              · exact han h.symm
              · exact hn h
      · rw [if_neg hc]
        refine ih (some x) hl2 (fun m e hm => by cases e; exact hx hm) ?_
        by_cases hn : n ∈ l
        · exact .inr hn
        · left
          by_cases hxn : x = n
          · rw [hxn]
          · exfalso
            have hax := hx hxn
            rcases h with h | h
            · exact hxn (by simpa using h)
            · rcases List.mem_cons.1 h with h | h
              · subst h
                rcases hax with h1 | h1
                · exact hc (.inl h1)
                · exact hc (.inr h1)
              · exact hn h

theorem oldestSnap_of {s : State} {n : Snap} (h : s.FirstSnap n) : oldestSnap s.vers.snaps = some n :=
  oldestSnap_go n s.vers.snaps none h.2 (fun _ e => by cases e) (.inr h.1)

theorem revoke_eq (s : State) (n : Snap) : s.revoke n = s.snapGone n := rfl

theorem modCtxAt_vers (s : State) (p x : Nat) (f : Ctx → Ctx) : (s.modCtxAt p x f).vers = s.vers ∧ (s.modCtxAt p x f).mem = s.mem := ⟨rfl, rfl⟩

theorem tellLoss_kept (s : State) (act : Nat) : (s.tellLoss act).vers = s.vers ∧ (s.tellLoss act).mem = s.mem := by
  unfold State.tellLoss
  dsimp only
  split <;> exact ⟨rfl, rfl⟩

theorem revoke_kept (s : State) (n : Snap) : (s.revoke n).vers.snaps = s.vers.snaps.filter (fun m => m != n) ∧ (s.revoke n).vers.commits = s.vers.commits ∧ (s.revoke n).mem = s.mem ∧ (s.revoke n).vers.singles = s.vers.singles := by
  unfold State.revoke
  obtain ⟨h1, h2⟩ := tellLoss_kept (s.modVers (fun v => { v with snaps := v.snaps.filter (fun m => m != n) })) n.act
  exact ⟨by rw [h1]; rfl, by rw [h1]; rfl, by rw [h2]; rfl, by rw [h1]; rfl⟩

theorem revokes (l : List Snap) : ∀ s : State, (∀ m ∈ s.vers.snaps, m ∈ l) → (l.foldl State.revoke s).vers.snaps = [] ∧ (l.foldl State.revoke s).vers.commits = s.vers.commits
    ∧ (l.foldl State.revoke s).mem = s.mem ∧ (l.foldl State.revoke s).vers.singles = s.vers.singles := by
  induction l with
  | nil =>
    intro s h
    refine ⟨?_, rfl, rfl, rfl⟩
    cases hs : s.vers.snaps with
    | nil => exact hs
    | cons a l => exact absurd (h a (by rw [hs]; exact List.mem_cons_self)) List.not_mem_nil
  | cons a l ih =>
    intro s h
    obtain ⟨k1, k2, k3, k4⟩ := revoke_kept s a
    rw [List.foldl_cons]
    obtain ⟨h1, h2, h3, h4⟩ := ih (s.revoke a) (fun m hm => by
      rw [k1, List.mem_filter] at hm
      have hne : m ≠ a := by simpa using hm.2
      exact (List.mem_cons.1 (h m hm.1)).resolve_left hne)
    exact ⟨h1, h2.trans k2, h3.trans k3, h4.trans k4⟩

theorem groom_rules :
    (∀ (s : State) (line ts i newer : Nat), (s.vline line).olds.findIdx? (fun o => o.1 == ts) = some i → (State.oldsOf (s.vline line))[i]? = some (ts, newer) →
    ((newer ≤ s.vers.stable ∧ ∀ n ∈ s.vers.snaps, ¬ (ts ≤ n.ts ∧ n.ts < newer)) → exec (.groomReclaim line ts) s = .next (s.reclaim line i))
    ∧ ((s.vers.stable < newer ∨ ∃ n ∈ s.vers.snaps, ts ≤ n.ts ∧ n.ts < newer) → exec (.groomReclaim line ts) s = .next s))
  ∧ (∀ (s : State) (e : Nat × Nat) (n : Snap), e ∈ s.vers.heldAt → e.2 + 100 * Config.tickUs ≤ s.time → s.installable e.1 (s.heldStamp e.1) = false → s.FirstSnap n →
    exec .snapshotRevocation s = .next ((s.snapGone n).modVers (fun v => { v with heldAt := v.heldAt.map (fun e => (e.1, s.time)) })))
  ∧ (∀ (s : State), (∀ e ∈ s.vers.heldAt, s.time < e.2 + 100 * Config.tickUs) → exec .snapshotRevocation s = .next s)
  ∧ (∀ (s : State), s.vers.next ≤ 0xFFFFFFFFFFFF → exec .timestampRenumbering s = .next s)
  ∧ (∀ (s : State), 0xFFFFFFFFFFFF < s.vers.next → s.vers.commits = [] → s.vers.singles = [] → ∃ t, exec .timestampRenumbering s = .next t
      ∧ t.vers.lines = [] ∧ t.vers.next = 1 ∧ t.vers.stable = 0 ∧ t.vers.heldAt = [] ∧ t.vers.acquires = [] ∧ t.vers.snaps = [] ∧ t.mem = s.mem) := by
  refine ⟨fun s line ts i newer h1 h2 => ⟨fun h => ?_, fun h => ?_⟩, fun s e n h1 h2 h3 h4 => ?_, fun s h => ?_, fun s h => ?_, fun s h1 h2 h3 => ?_⟩
  · have e : s.needed ts newer = false := by
      unfold State.needed
      rw [decide_eq_false (by omega), Bool.false_or, List.any_eq_false]
      intro n hn he
      rw [Bool.and_eq_true, decide_eq_true_eq, decide_eq_true_eq] at he
      exact h.2 n hn he
    show execGroomReclaim line ts s = _
    unfold execGroomReclaim
    dsimp only
    rw [h1]
    dsimp only
    rw [h2]
    dsimp only
    rw [e]; rfl
  · have e : s.needed ts newer = true := by
      unfold State.needed
      rcases h with h | ⟨n, hn, h⟩
      · rw [decide_eq_true h]; rfl
      · rw [Bool.or_eq_true]; right
        rw [List.any_eq_true]
        exact ⟨n, hn, by rw [Bool.and_eq_true, decide_eq_true_eq, decide_eq_true_eq]; exact h⟩
    show execGroomReclaim line ts s = _
    unfold execGroomReclaim
    dsimp only
    rw [h1]
    dsimp only
    rw [h2]
    dsimp only
    rw [e]; rfl
  · show execSnapshotRevocation s = _
    unfold execSnapshotRevocation
    dsimp only
    rw [if_neg, oldestSnap_of h4]
    · rfl
    · rw [List.isEmpty_iff]
      intro hz
      have : e ∈ s.vers.heldAt.filter (fun e => e.2 + 100 * Config.tickUs ≤ s.time && !s.installable e.1 (s.heldStamp e.1)) := by
        rw [List.mem_filter]
        exact ⟨h1, by rw [h3, decide_eq_true h2]; rfl⟩
      rw [hz] at this; cases this
  · show execSnapshotRevocation s = _
    unfold execSnapshotRevocation
    dsimp only
    rw [if_pos]
    rw [List.isEmpty_iff, List.filter_eq_nil_iff]
    intro e he hz
    have := h e he
    rw [decide_eq_false (by omega)] at hz
    cases hz
  · show execTimestampRenumbering s = _
    unfold execTimestampRenumbering
    exact congrArg _ (if_pos (decide_eq_true h))
  · have e : exec .timestampRenumbering s = .next (({ s.vers.snaps.foldl State.revoke s with ue := (s.vers.snaps.foldl State.revoke s).ue.filter (fun k => k < 2 ^ 100) } : State).modVers
        (fun v => { v with lines := [], next := 1, stable := 0, heldAt := [], acquires := [] })) := by
      show execTimestampRenumbering s = _
      unfold execTimestampRenumbering
      have h0 : ¬ s.stampsLeft = true := by unfold State.stampsLeft; rw [decide_eq_false (by omega)]; decide
      refine congrArg Host.Outcome.next ((if_neg h0).trans ?_)
      have key : ∀ t, t = s → (if (t.vers.snaps.foldl State.revoke t).vers.commits.isEmpty && (t.vers.snaps.foldl State.revoke t).vers.singles.isEmpty then
          ({ t.vers.snaps.foldl State.revoke t with ue := (t.vers.snaps.foldl State.revoke t).ue.filter (fun k => k < 2 ^ 100) } : State).modVers (fun v => { v with lines := [], next := 1, stable := 0, heldAt := [], acquires := [] })
          else t.vers.snaps.foldl State.revoke t) = (({ s.vers.snaps.foldl State.revoke s with ue := (s.vers.snaps.foldl State.revoke s).ue.filter (fun k => k < 2 ^ 100) } : State).modVers
        (fun v => { v with lines := [], next := 1, stable := 0, heldAt := [], acquires := [] })) := by
        rintro t rfl
        exact if_pos (by rw [(revokes t.vers.snaps t (fun m hm => hm)).2.1, (revokes t.vers.snaps t (fun m hm => hm)).2.2.2, h2, h3]; rfl)
      exact key _ (by rw [h2]; rfl)
    obtain ⟨r1, r2, r3, -⟩ := revokes s.vers.snaps s (fun m hm => hm)
    exact ⟨_, e, rfl, rfl, rfl, rfl, rfl, r1, r3⟩

end Sys2Proof.Machine
end

