-- ==== Sys2Proof/Laws/MatrixResults.lean ====
section
/-! SUPPORT. The matrix unit runs a command. -/

set_option Elab.async false

namespace Sys2Proof.Machine

/-- The two states agree in memory, cores and saved contexts. -/
structure Mild (s t : State) : Prop where
  mem : t.mem = s.mem
  saved : t.saved = s.saved
  cores : t.cores = s.cores

theorem Mild.refl (s : State) : Mild s s := ⟨rfl, rfl, rfl⟩

theorem Mild.trans {s t u : State} (h : Mild s t) (k : Mild t u) : Mild s u := ⟨k.mem.trans h.mem, k.saved.trans h.saved, k.cores.trans h.cores⟩

theorem Mild.notSaved {s t : State} {act : Nat} (h : Mild s t) (k : s.NotSaved act) : t.NotSaved act := by unfold State.NotSaved; rw [h.saved]; exact k

theorem Mild.unit {s t : State} (h : Mild s t) (core : Nat) : t.matUnit core = s.matUnit core := by unfold State.matUnit State.coreAt; rw [h.cores]

theorem owner_notSaved {s : State} {act : Nat} (h : s.NotSaved act) : s.ownerOf act = .gone ∨ ∃ p c, s.ownerOf act = .ctx p c := by
  unfold State.ownerOf
  cases s.ctxs.find? (fun e => e.2.act == act && e.2.run != .free) with
  | some e => exact .inr ⟨_, _, rfl⟩
  | none =>
    left
    have : s.saved.find? (fun v => v.hid.act == act) = none := by
      rw [List.find?_eq_none]
      intro v hv e
      exact h v hv (by simpa using e)
    rw [this]

theorem Mild.setQueue (s : State) (p c q : Nat) (l : List Word) (hq : coreQueue q = false) : Mild s (s.setQueue p c q l) := by
  unfold State.setQueue
  rw [hq]
  exact ⟨rfl, rfl, rfl⟩

theorem Mild.popOwn {s : State} {act q : Nat} (h : s.NotSaved act) (hq : coreQueue q = false) : Mild s (s.popOwn act q) := by
  unfold State.popOwn
  rcases owner_notSaved h with e | ⟨p, c, e⟩ <;> rw [e]
  · exact Mild.refl s
  · exact Mild.setQueue s p c q _ hq

theorem Mild.pushOwn {s : State} {act q : Nat} {ws : List Word} (h : s.NotSaved act) (hq : q < 12) (hc : coreQueue q = false) : Mild s (s.pushOwn act q ws) := by
  unfold State.pushOwn
  rcases owner_notSaved h with e | ⟨p, c, e⟩ <;> rw [e]
  · exact Mild.refl s
  · unfold State.push
    dsimp only
    rw [if_neg (by omega)]
    exact Mild.setQueue s p c q _ hc

theorem Mild.addFlags {s : State} {act fl en : Nat} {l i : Word} (h : s.NotSaved act) : Mild s (s.addFlags act fl en l i) := by
  unfold State.addFlags
  split
  · exact Mild.refl s
  · rcases owner_notSaved h with e | ⟨p, c, e⟩ <;> rw [e] <;> exact ⟨rfl, rfl, rfl⟩

theorem Mild.addPend {s : State} {act : Nat} {p : Pend} (h : s.NotSaved act) : Mild s (s.addPend act p) := by
  unfold State.addPend
  rcases owner_notSaved h with e | ⟨p, c, e⟩ <;> rw [e] <;> exact ⟨rfl, rfl, rfl⟩

theorem Mild.report {s : State} {act en : Nat} {r : MReport} {i : Word} (h : s.NotSaved act) : Mild s (s.engineReport act r en i) := by
  unfold State.engineReport
  dsimp only
  split
  · exact Mild.addFlags h
  · exact (Mild.addFlags h).trans (Mild.addPend ((Mild.addFlags h).notSaved h))

theorem refresh_notSaved {s : State} {act : Nat} (h : s.NotSaved act) : s.refreshPend act = s := by
  unfold State.refreshPend
  split
  · rfl
  · have : s.saved.filter (fun v => v.hid.act == act) = [] := by
      rw [List.filter_eq_nil_iff]
      intro v hv e
      exact h v hv (by simpa using e)
    rw [this]; rfl

theorem setElem_kept (s : State) (core : Nat) (t : Tile) (i j v : Nat) : (s.setElem core t i j v).cores = s.cores ∧ (s.setElem core t i j v).saved = s.saved := by
  unfold State.setElem
  split
  · unfold State.setSp State.wr; exact ⟨rfl, rfl⟩
  · exact ⟨rfl, rfl⟩

theorem setElem_mem {s t : State} (h : s.mem = t.mem) (core : Nat) (x : Tile) (i j v : Nat) : (s.setElem core x i j v).mem = (t.setElem core x i j v).mem := by
  unfold State.setElem
  split
  · unfold State.setSp State.wr
    dsimp only
    rw [h]
  · exact h

theorem elem_mem {s t : State} (h : s.mem = t.mem) (core : Nat) (x : Tile) (i j : Nat) : s.elem core x i j = t.elem core x i j := by
  unfold State.elem State.sp State.rdN State.rd
  rw [h]

theorem badElem_sound {s : State} (h : s.Sound) (core : Nat) (t : Tile) (i j : Nat) : s.badElem core t i j = [] := by
  unfold State.badElem
  split
  · rw [h]; rfl
  · rfl

theorem flatMap_nil {α β : Type} (l : List α) (f : α → List β) (h : ∀ x, f x = []) : l.flatMap f = [] := by
  induction l with
  | nil => rfl
  | cons a l ih => rw [List.flatMap_cons, h, ih]; rfl

theorem badScale_sound {s : State} (h : s.Sound) (core : Nat) (t : Option Tile) (l : List (Nat × Nat)) : s.badScaleOf core t l = [] := by
  unfold State.badScaleOf
  split
  · exact flatMap_nil _ _ (fun e => badElem_sound h core _ _ _)
  · rfl

theorem matOut_sound {s : State} (h : s.Sound) (core : Nat) (m : MCmd) (n : Nat) : s.matOut core m (s.badB core m) (n / 32) (n % 32) none
    = match s.outcome core m n with
      | none => .none
      | some r => .val r.code r.fl := by
  have hb : s.badB core m = [] := by
    unfold State.badB
    split
    · rfl
    · exact flatMap_nil _ _ (fun _ => flatMap_nil _ _ (fun _ => badElem_sound h core _ _ _))
  have ha : s.badA core m (n / 32) = [] := by
    unfold State.badA
    rw [badScale_sound h, List.append_nil]
    split
    · rfl
    · exact flatMap_nil _ _ (fun _ => badElem_sound h core _ _ _)
  have hc : s.badColumn core m (n % 32) = [] := badScale_sound h core _ _
  unfold State.matOut State.outcome
  cases m.tc.addr (m.row (n / 32)) (m.col (n % 32)) with
  | none => rfl
  | some a =>
    dsimp only
    rw [hb, ha, hc, badElem_sound h]
    simp only [ite_self, List.append_nil, List.isEmpty_nil, Bool.not_true, Bool.false_eq_true, if_false, Option.map_none, Option.getD_none]
    by_cases hf : m.tc.fmt = 4
    · rw [if_pos hf, if_pos hf]
      unfold State.intOut
      cases m.neg
      · simp only [Bool.false_eq_true, if_false, Int.one_mul]
      · simp only [if_true, Int.neg_mul, Int.one_mul]
    · rw [if_neg hf, if_neg hf]

theorem zip_map {α β : Type} (f : α → β) : ∀ l : List α, l.zip (l.map f) = l.map (fun a => (a, f a))
  | [] => rfl
  | a :: l => by rw [List.map_cons, List.zip_cons_cons, zip_map f l]; rfl

theorem map_zip_replicate {α β γ : Type} (f : α → β) (b : γ) : ∀ (l : List α) (n : Nat), n = l.length → (l.map f).zip (List.replicate n b) = l.map (fun a => (f a, b))
  | [], _, _ => by simp
  | a :: l, n, h => by
    cases n with
    | zero => simp at h
    | succ n => rw [List.map_cons, List.replicate_succ, List.zip_cons_cons, map_zip_replicate f b l n (by simpa using h)]; rfl

/-- The values that a run takes from a command, when it held none. -/
def State.runVals (s : State) (core : Nat) (m : MCmd) : List (Option (Nat × Bool)) := (List.range 1024).map (fun n => (s.outcome core m n).map (fun r => (r.code, true)))

theorem runBlock_fresh {s : State} {core : Nat} {m : MCmd} (h : s.Sound) (hr : (s.matUnit core).run = none) :
    (s.runBlock core m).2.bad = [] ∧ (s.runBlock core m).1 = s.modMat core (fun u => { u with run := some ⟨m.tc, m.tile, m.ib, m.jb, s.runVals core m⟩ }) := by
  unfold State.runBlock
  rw [hr]
  dsimp only
  have e1 : (List.range 1024).map (fun n => s.matOut core m (s.badB core m) (n / 32) (n % 32) ((List.replicate 1024 none).getD n none))
      = (List.range 1024).map (fun n => match s.outcome core m n with
        | none => MOut.none
        | some r => .val r.code r.fl) := by
    apply List.map_congr_left
    intro n hn
    rw [← matOut_sound h]
    congr 1
    rw [List.getD_eq_getElem?_getD, List.getElem?_replicate]
    split <;> rfl
  rw [e1]
  refine ⟨?_, ?_⟩
  rotate_left
  · rw [map_zip_replicate _ _ _ _ List.length_range.symm, List.map_map]
    refine congrArg (fun vals => s.modMat core (fun u => { u with run := some ⟨m.tc, m.tile, m.ib, m.jb, vals⟩ })) ?_
    unfold State.runVals
    apply List.map_congr_left
    intro n _
    dsimp only [Function.comp]
    cases s.outcome core m n <;> rfl
  · rw [zip_map]
    generalize List.range 1024 = l
    have : ∀ (l : List Nat) (r : MReport), r.bad = [] → ((l.map (fun a => (a, match s.outcome core m a with
        | none => MOut.none
        | some r => .val r.code r.fl))).foldl (fun (r : MReport) e => match e.2 with
    | .none => r
    | .left rows => { r with bad := r.bad ++ rows, left := setLane r.left (e.1 / 32) }
    | .val _ fl => { r with fl := r.fl ||| fl, lanes := if fl &&& m.flagen = 0 then r.lanes else setLane r.lanes (e.1 / 32) }) r).bad = [] := by
      intro l
      induction l with
      | nil => intro r hr; exact hr
      | cons a l ih =>
        intro r hr
        rw [List.map_cons, List.foldl_cons]
        apply ih
        cases s.outcome core m a <;> exact hr
    exact this l {} rfl

theorem rowsWritten_kept (s : State) (core : Nat) (t : Tile) (l : List (Nat × Nat)) :
    (s.rowsWritten core t l).mem = s.mem ∧ (s.rowsWritten core t l).cores = s.cores ∧ (s.rowsWritten core t l).saved = s.saved := by
  unfold State.rowsWritten
  split <;> exact ⟨rfl, rfl, rfl⟩

theorem flush_fresh {s u : State} {core : Nat} {m : MCmd} (hm : u.mem = s.mem) (hr : (u.matUnit core).run = some ⟨m.tc, m.tile, m.ib, m.jb, s.runVals core m⟩) :
    (u.flushRun core).mem = (s.blockWritten core m).mem ∧ (u.flushRun core).saved = u.saved ∧ ∃ v, (u.flushRun core).matUnit core = { u.matUnit core with run := v } := by
  unfold State.flushRun
  rw [hr]
  dsimp only
  have e : ∀ (l : List Nat) (a b : State), a.mem = b.mem → ((l.zip (l.map (fun n => (s.outcome core m n).map (fun r => (r.code, true))))).foldl (fun s e => match e.2 with
      | some (v, true) => s.setElem core m.tc (32 * m.ib + e.1 / 32) (32 * m.jb + e.1 % 32) v
      | _ => s) a).mem = (l.foldl (fun t n => match s.outcome core m n with
    | some r => t.setElem core m.tc (m.row (n / 32)) (m.col (n % 32)) r.code
    | none => t) b).mem
    ∧ ((l.zip (l.map (fun n => (s.outcome core m n).map (fun r => (r.code, true))))).foldl (fun s e => match e.2 with
      | some (v, true) => s.setElem core m.tc (32 * m.ib + e.1 / 32) (32 * m.jb + e.1 % 32) v
      | _ => s) a).cores = a.cores
    ∧ ((l.zip (l.map (fun n => (s.outcome core m n).map (fun r => (r.code, true))))).foldl (fun s e => match e.2 with
      | some (v, true) => s.setElem core m.tc (32 * m.ib + e.1 / 32) (32 * m.jb + e.1 % 32) v
      | _ => s) a).saved = a.saved := by
    intro l
    rw [zip_map]
    induction l with
    | nil => intro a b h; exact ⟨h, rfl, rfl⟩
    | cons n l ih =>
      intro a b h
      rw [List.map_cons, List.foldl_cons, List.foldl_cons]
      cases ho : s.outcome core m n with
      | none => exact ih a b h
      | some r =>
        obtain ⟨k1, k2⟩ := setElem_kept a core m.tc (m.row (n / 32)) (m.col (n % 32)) r.code
        obtain ⟨i1, i2, i3⟩ := ih (a.setElem core m.tc (m.row (n / 32)) (m.col (n % 32)) r.code) (b.setElem core m.tc (m.row (n / 32)) (m.col (n % 32)) r.code) (setElem_mem h _ _ _ _ _)
        exact ⟨i1, i2.trans k1, i3.trans k2⟩
  unfold State.runVals State.blockWritten
  generalize List.range 1024 = l
  obtain ⟨h1, h2, h3⟩ := e l u s hm
  have key : ∀ (w : State) (R : Option MRun), w.cores = u.cores → (w.modMat core (fun x => { x with run := R })).matUnit core = { u.matUnit core with run := R } := by
    intro w R hw
    unfold State.modMat State.matUnit
    rw [State.coreAt_modCoreAt]
    have : w.coreAt core = u.coreAt core := by unfold State.coreAt; rw [hw]
    rw [this]
  refine ⟨(rowsWritten_kept _ _ _ _).1.trans h1, (rowsWritten_kept _ _ _ _).2.2.trans h3, _, key _ _ ((rowsWritten_kept _ _ _ _).2.1.trans h2)⟩

theorem modMat_unit (s : State) (core : Nat) (f : MUnit → MUnit) : (s.modMat core f).matUnit core = f (s.matUnit core) := by
  unfold State.modMat State.matUnit
  rw [State.coreAt_modCoreAt]

theorem modMat_mem (s : State) (core : Nat) (f : MUnit → MUnit) : (s.modMat core f).mem = s.mem ∧ (s.modMat core f).saved = s.saved := ⟨rfl, rfl⟩

/-- What is left of a command once its work is done: out of the unit, the run ended, its report, its status entry. -/
def State.matrixEnd (s1 : State) (core n : Nat) (m : MCmd) (r : MReport) (f : MUnit → MUnit) : State :=
  let s3 := (((s1.acceptMatrix core n m).modMat core f).endRun core).engineReport m.act r m.flagen m.iaddr
  let s4 := if (if m.block then 0 else m.kind) = 3 ∨ (if m.block then 0 else m.kind) = 5 ∨ (m.block ∧ m.stat) then
      s3.modMat core (fun u => { u with stat := u.stat ++ [⟨m.act, statWord (if (if m.block then 0 else m.kind) = 3 then 1 else if (if m.block then 0 else m.kind) = 5 then 2 else 0) m.tile (!r.bad.isEmpty) r.fl m.iaddr⟩] })
    else s3
  s4.refreshPend m.act

theorem matrixEnd_facts {s1 : State} {core n : Nat} {m : MCmd} {r : MReport} {f : MUnit → MUnit} {M : List Host.Cell} (hn : s1.NotSaved m.act) (hk : m.kind < 6) (hb : r.bad = [])
    (hf : ∀ u, (f u).cmds = u.cmds ∧ (f u).stat = u.stat)
    (hM : ∀ u, Mild (s1.modMat core (fun u => { u with cmds := u.cmds.eraseIdx n })) u → ((u.modMat core f).flushRun core).mem = M ∧ ((u.modMat core f).flushRun core).saved = u.saved
      ∧ ∃ v, ((u.modMat core f).flushRun core).matUnit core = { (u.modMat core f).matUnit core with run := v }) :
    (s1.matrixEnd core n m r f).mem = M ∧ ((s1.matrixEnd core n m r f).matUnit core).run = none ∧ ((s1.matrixEnd core n m r f).matUnit core).cmds = (s1.matUnit core).cmds.eraseIdx n
    ∧ ((m.kind = 4 ∨ m.kind < 3 ∧ flag m.gk 55 = false) → ((s1.matrixEnd core n m r f).matUnit core).stat = (s1.matUnit core).stat)
    ∧ ((m.kind = 3 ∨ m.kind = 5 ∨ m.kind < 3 ∧ flag m.gk 55 = true) → ∃ fl, ((s1.matrixEnd core n m r f).matUnit core).stat = (s1.matUnit core).stat
          ++ [⟨m.act, statWord (if m.kind < 3 then 0 else if m.kind = 3 then 1 else 2) m.tile false fl m.iaddr⟩]) := by
  have hacc : Mild (s1.modMat core (fun u => { u with cmds := u.cmds.eraseIdx n })) (s1.acceptMatrix core n m) := by
    unfold State.acceptMatrix
    exact Mild.popOwn (show (s1.modMat core _).NotSaved m.act from hn) rfl
  obtain ⟨h1, h2, v, h3⟩ := hM _ hacc
  unfold State.matrixEnd
  dsimp only
  generalize hA : s1.acceptMatrix core n m = A at *
  generalize hB : (A.modMat core f).flushRun core = B at *
  have hE : (A.modMat core f).endRun core = B.modMat core (fun u => { u with run := none }) := by unfold State.endRun; rw [hB]
  rw [hE]
  generalize hC : B.modMat core (fun u => { u with run := none }) = C at *
  have hCm : C.mem = M ∧ C.saved = A.saved := by rw [← hC]; exact ⟨h1, h2⟩
  have hAn : A.NotSaved m.act := hacc.notSaved hn
  have hCn : C.NotSaved m.act := by unfold State.NotSaved; rw [hCm.2]; exact hAn
  have hCu : C.matUnit core = { f (A.matUnit core) with run := none } := by
    rw [← hC, modMat_unit, h3, modMat_unit]
  have hAu : A.matUnit core = { s1.matUnit core with cmds := (s1.matUnit core).cmds.eraseIdx n } := by
    rw [hacc.unit, modMat_unit]
  have hD := Mild.report (s := C) (act := m.act) (en := m.flagen) (r := r) (i := m.iaddr) hCn
  generalize C.engineReport m.act r m.flagen m.iaddr = D at *
  have hDu : D.matUnit core = { f (A.matUnit core) with run := none } := (hD.unit core).trans hCu
  have hDn : D.NotSaved m.act := hD.notSaved hCn
  have hcm : (f (A.matUnit core)).cmds = (s1.matUnit core).cmds.eraseIdx n := by rw [(hf _).1, hAu]
  have hst : (f (A.matUnit core)).stat = (s1.matUnit core).stat := by rw [(hf _).2, hAu]
  by_cases hent : (if m.block then 0 else m.kind) = 3 ∨ (if m.block then 0 else m.kind) = 5 ∨ (m.block ∧ m.stat)
  · rw [if_pos hent]
    generalize hF : D.modMat core (fun u => { u with stat := u.stat ++ [⟨m.act, statWord (if (if m.block then 0 else m.kind) = 3 then 1 else if (if m.block then 0 else m.kind) = 5 then 2 else 0) m.tile (!r.bad.isEmpty) r.fl m.iaddr⟩] }) = F
    have hFn : F.NotSaved m.act := by rw [← hF]; exact hDn
    have hFu : F.matUnit core = { (D.matUnit core) with stat := (D.matUnit core).stat ++ [⟨m.act, statWord (if (if m.block then 0 else m.kind) = 3 then 1 else if (if m.block then 0 else m.kind) = 5 then 2 else 0) m.tile (!r.bad.isEmpty) r.fl m.iaddr⟩] } := by
      rw [← hF, modMat_unit]
    rw [refresh_notSaved hFn, hFu, hDu]
    refine ⟨?_, rfl, hcm, fun h => ?_, fun h => ⟨r.fl, ?_⟩⟩
    · rw [← hF]; exact hD.mem.trans hCm.1
    · exfalso
      unfold MCmd.block MCmd.stat at hent
      rcases h with h | ⟨h, h'⟩
      · rw [h] at hent; simp at hent
      · rw [h', decide_eq_true h] at hent; simp at hent
    · dsimp only
      rw [hst, hb]
      unfold MCmd.block
      by_cases hk3 : m.kind < 3
      · rw [decide_eq_true hk3]; simp [hk3]
      · rw [decide_eq_false hk3]
        by_cases h3 : m.kind = 3
        · simp [h3]
        · have h5 : m.kind = 5 := by omega
          simp [h5]
  · rw [if_neg hent, refresh_notSaved hDn, hDu]
    refine ⟨hD.mem.trans hCm.1, rfl, hcm, fun _ => hst, fun h => ?_⟩
    exfalso
    apply hent
    unfold MCmd.block MCmd.stat
    rcases h with h | h | ⟨h, h'⟩
    · left; rw [h]; rfl
    · right; left; rw [h]; rfl
    · right; right; exact ⟨decide_eq_true h, h'⟩

theorem setElem_sound {s : State} (h : s.Sound) (core : Nat) (t : Tile) (i j v : Nat) : (s.setElem core t i j v).Sound := by
  unfold State.setElem
  split
  · unfold State.setSp
    intro k n
    have := h k n
    unfold State.bad at this ⊢
    simp only [Bool.or_eq_false_iff] at this ⊢
    refine ⟨⟨?_, this.1.2⟩, this.2⟩
    have h1 := this.1.1
    unfold State.wr
    dsimp only
    by_cases he : s.ue.isEmpty = true
    · rw [if_pos he]; rfl
    · rw [if_neg he]
      rw [Bool.eq_false_iff.2 he] at h1
      simp only [Bool.not_false, Bool.true_and, List.any_eq_false] at h1
      rw [Bool.and_eq_false_iff]
      right
      rw [List.any_eq_false]
      intro l hl hc
      apply h1 l hl
      rw [List.contains_iff_mem, List.mem_filter] at hc
      rw [List.contains_iff_mem]
      exact hc.1
  · exact h

theorem runRead_sound (core : Nat) (m : MCmd) : ∀ (l : List (Nat × Nat)) (s : State) (r : MReport), s.Sound → r.bad = [] →
    (l.foldl (fun (e : State × MReport) (c : Nat × Nat) =>
    let bad := e.1.badElem core m.ta c.1 c.2
    if !bad.isEmpty then (e.1, { e.2 with bad := e.2.bad ++ bad, left := setLane e.2.left (c.1 % 64) })
    else
      let x := numOf m.ta.fmt (e.1.elem core m.ta c.1 c.2)
      let r := roundNum m.tc.fmt m.tc.rnd m.sat (m.draw m.tc.rnd (c.1 * m.ta.cols + c.2)) x
      let t := e.1.setElem core m.tc c.1 c.2 r.code
      (if m.az then t.setElem core m.ta c.1 c.2 0 else t, e.2.note m c.1 r.fl)) (s, r)).1 = l.foldl (fun t c =>
    let r := roundNum m.tc.fmt m.tc.rnd m.sat (m.draw m.tc.rnd (c.1 * m.ta.cols + c.2)) (numOf m.ta.fmt (t.elem core m.ta c.1 c.2))
    let u := t.setElem core m.tc c.1 c.2 r.code
    if m.az then u.setElem core m.ta c.1 c.2 0 else u) s
    ∧ (l.foldl (fun (e : State × MReport) (c : Nat × Nat) =>
    let bad := e.1.badElem core m.ta c.1 c.2
    if !bad.isEmpty then (e.1, { e.2 with bad := e.2.bad ++ bad, left := setLane e.2.left (c.1 % 64) })
    else
      let x := numOf m.ta.fmt (e.1.elem core m.ta c.1 c.2)
      let r := roundNum m.tc.fmt m.tc.rnd m.sat (m.draw m.tc.rnd (c.1 * m.ta.cols + c.2)) x
      let t := e.1.setElem core m.tc c.1 c.2 r.code
      (if m.az then t.setElem core m.ta c.1 c.2 0 else t, e.2.note m c.1 r.fl)) (s, r)).2.bad = [] := by
  intro l
  induction l with
  | nil => intro s r h hr; exact ⟨rfl, hr⟩
  | cons c l ih =>
    intro s r h hr
    rw [List.foldl_cons, List.foldl_cons]
    dsimp only
    rw [badElem_sound h]
    simp only [List.isEmpty_nil, Bool.not_true, Bool.false_eq_true, if_false]
    refine ih _ _ ?_ hr
    split
    · exact setElem_sound (setElem_sound h _ _ _ _ _) _ _ _ _ _
    · exact setElem_sound h _ _ _ _ _

theorem runScale_sound (core : Nat) (m : MCmd) (f k : Nat) : ∀ (l : List (Nat × Nat)) (s : State) (r : MReport), s.Sound → r.bad = [] →
    (l.foldl (fun (e : State × MReport) (c : Nat × Nat) =>
    let bad := e.1.badElem core m.tc c.1 c.2
    if !bad.isEmpty then (e.1, { e.2 with bad := e.2.bad ++ bad, left := setLane e.2.left (c.1 % 64) })
    else
      let x := e.1.elem core m.tc c.1 c.2
      let r := if f = 4 then intRule 4 m.sat (intOf 4 x * intOf 4 k)
        else fMul f ⟨m.tc.rnd, m.sat, m.draw m.tc.rnd⟩ (c.1 * m.tc.cols + c.2) (numOf f x) (numOf f k)
      (e.1.setElem core m.tc c.1 c.2 r.code, e.2.note m c.1 r.fl)) (s, r)).1 = l.foldl (fun t c =>
    let x := t.elem core m.tc c.1 c.2
    let r := if f = 4 then intRule 4 m.sat (intOf 4 x * intOf 4 k)
        else fMul f ⟨m.tc.rnd, m.sat, m.draw m.tc.rnd⟩ (c.1 * m.tc.cols + c.2) (numOf f x) (numOf f k)
    t.setElem core m.tc c.1 c.2 r.code) s
    ∧ (l.foldl (fun (e : State × MReport) (c : Nat × Nat) =>
    let bad := e.1.badElem core m.tc c.1 c.2
    if !bad.isEmpty then (e.1, { e.2 with bad := e.2.bad ++ bad, left := setLane e.2.left (c.1 % 64) })
    else
      let x := e.1.elem core m.tc c.1 c.2
      let r := if f = 4 then intRule 4 m.sat (intOf 4 x * intOf 4 k)
        else fMul f ⟨m.tc.rnd, m.sat, m.draw m.tc.rnd⟩ (c.1 * m.tc.cols + c.2) (numOf f x) (numOf f k)
      (e.1.setElem core m.tc c.1 c.2 r.code, e.2.note m c.1 r.fl)) (s, r)).2.bad = [] := by
  intro l
  induction l with
  | nil => intro s r h hr; exact ⟨rfl, hr⟩
  | cons c l ih =>
    intro s r h hr
    rw [List.foldl_cons, List.foldl_cons]
    dsimp only
    rw [badElem_sound h]
    simp only [List.isEmpty_nil, Bool.not_true, Bool.false_eq_true, if_false]
    exact ih _ _ (setElem_sound h _ _ _ _ _) hr

theorem fold_keeps {α : Type} (f : State → α → State) (hf : ∀ t a, (f t a).cores = t.cores ∧ (f t a).saved = t.saved) : ∀ (l : List α) (s : State), (l.foldl f s).cores = s.cores ∧ (l.foldl f s).saved = s.saved := by
  intro l
  induction l with
  | nil => intro s; exact ⟨rfl, rfl⟩
  | cons a l ih =>
    intro s
    rw [List.foldl_cons]
    exact ⟨(ih _).1.trans (hf s a).1, (ih _).2.trans (hf s a).2⟩

/-- What the work of ACCRD, ACCZ or MSCL leaves. -/
theorem plain_work {s : State} {core : Nat} {m : MCmd} (h : s.Sound) (hk : ¬ m.kind < 3) :
    (if m.kind = 3 then s.runRead core m else if m.kind = 4 then s.runZero core m else s.runScale core m).1.mem = (s.matrixResult core m).mem
    ∧ (if m.kind = 3 then s.runRead core m else if m.kind = 4 then s.runZero core m else s.runScale core m).2.bad = []
    ∧ (if m.kind = 3 then s.runRead core m else if m.kind = 4 then s.runZero core m else s.runScale core m).1.cores = s.cores
    ∧ (if m.kind = 3 then s.runRead core m else if m.kind = 4 then s.runZero core m else s.runScale core m).1.saved = s.saved := by
  unfold State.matrixResult
  rw [if_neg hk]
  by_cases h3 : m.kind = 3
  · rw [if_pos h3, if_pos h3]
    obtain ⟨a, b⟩ := runRead_sound core m m.ta.cells s {} h rfl
    obtain ⟨c, d⟩ := fold_keeps (fun t c =>
      let r := roundNum m.tc.fmt m.tc.rnd m.sat (m.draw m.tc.rnd (c.1 * m.ta.cols + c.2)) (numOf m.ta.fmt (t.elem core m.ta c.1 c.2))
      let u := t.setElem core m.tc c.1 c.2 r.code
      if m.az then u.setElem core m.ta c.1 c.2 0 else u) (fun t c => by
        dsimp only
        split
        · exact ⟨(setElem_kept _ _ _ _ _ _).1.trans (setElem_kept _ _ _ _ _ _).1, (setElem_kept _ _ _ _ _ _).2.trans (setElem_kept _ _ _ _ _ _).2⟩
        · exact setElem_kept _ _ _ _ _ _) m.ta.cells s
    unfold State.runRead
    dsimp only
    rw [(rowsWritten_kept _ _ _ _).1, (rowsWritten_kept _ _ _ _).2.1, (rowsWritten_kept _ _ _ _).2.2]
    exact ⟨congrArg State.mem a, b, (congrArg State.cores a).trans c, (congrArg State.saved a).trans d⟩
  · rw [if_neg h3, if_neg h3]
    by_cases h4 : m.kind = 4
    · rw [if_pos h4, if_pos h4]
      obtain ⟨c, d⟩ := fold_keeps (fun t (c : Nat × Nat) => t.setElem core m.tc c.1 c.2 0) (fun t c => setElem_kept _ _ _ _ _ _) m.tc.cells s
      unfold State.runZero
      dsimp only
      rw [(rowsWritten_kept _ _ _ _).1, (rowsWritten_kept _ _ _ _).2.1, (rowsWritten_kept _ _ _ _).2.2]
      exact ⟨rfl, rfl, c, d⟩
    · rw [if_neg h4, if_neg h4]
      obtain ⟨a, b⟩ := runScale_sound core m m.tc.fmt (m.factor.toNat % 2 ^ fmtWidth m.tc.fmt) m.tc.cells s {} h rfl
      obtain ⟨c, d⟩ := fold_keeps (fun t (c : Nat × Nat) =>
        let k := m.factor.toNat % 2 ^ fmtWidth m.tc.fmt
        let x := t.elem core m.tc c.1 c.2
        let r := if m.tc.fmt = 4 then intRule 4 m.sat (intOf 4 x * intOf 4 k)
          else fMul m.tc.fmt ⟨m.tc.rnd, m.sat, m.draw m.tc.rnd⟩ (c.1 * m.tc.cols + c.2) (numOf m.tc.fmt x) (numOf m.tc.fmt k)
        t.setElem core m.tc c.1 c.2 r.code) (fun t c => setElem_kept _ _ _ _ _ _) m.tc.cells s
      exact ⟨congrArg State.mem a, b, (congrArg State.cores a).trans c, (congrArg State.saved a).trans d⟩

theorem matrix_exec {s : State} {core n : Nat} {m : MCmd} (h : s.MatrixNext core n m) : exec (.matrixUnitExecute core) s = .next (s.runMatrix core n m) := by
  show execMatrixUnitExecute core s = _
  unfold execMatrixUnitExecute
  have hn : s.nextMatrix core = some n := by
    unfold State.nextMatrix
    have hf : (s.matUnit core).stat.any (fun e => s.statReady e) = false := by
      rw [List.any_eq_false]
      intro e he hq
      have h1 := h.full e he
      have h2 : s.ownQueueLen e.act 1 < 16 := of_decide_eq_true hq
      omega
    dsimp only
    rw [hf, if_neg (by decide)]
    rw [List.findIdx?_eq_some_iff_getElem]
    obtain ⟨hlt, hget⟩ := List.getElem?_eq_some_iff.1 h.here
    refine ⟨hlt, ?_, fun j hj => ?_⟩
    · rw [hget, Bool.not_eq_true', List.any_eq_false]
      intro e he hq
      exact h.pushed e he (by simpa using hq)
    · obtain ⟨e, he, hq⟩ := h.first j _ hj (List.getElem?_eq_getElem (by omega))
      rw [Bool.not_eq_true, Bool.not_eq_false', List.any_eq_true]
      exact ⟨e, he, by simpa using hq⟩
  rw [hn]
  dsimp only
  rw [h.here]
  dsimp only
  rw [if_pos h.ready]

theorem runMatrix_end {s : State} {core n : Nat} {m : MCmd} (hr : (s.matUnit core).run = none) (w : State × MReport)
    (hs : w = if m.block then s.runBlock core m else if m.kind = 3 then s.runRead core m else if m.kind = 4 then s.runZero core m else s.runScale core m)
    (f : MUnit → MUnit) (hf : f = fun u => { u with slots := m.spent.foldl (fun t k => Tab.del t k) u.slots, out := (if m.kind = 1 then s.forwards core m else []) ++ u.out })
    (hg : (match (((w.1.acceptMatrix core n m).modMat core f).matUnit core).run, (((w.1.acceptMatrix core n m).modMat core f).matUnit core).cmds.head? with
      | some r, some c => c.inRun r
      | _, _ => false) = false) : s.runMatrix core n m = w.1.matrixEnd core n m w.2 f := by
  obtain ⟨s1, r⟩ := w
  unfold State.runMatrix
  rw [hr]
  dsimp only
  rw [← hs]
  subst hf
  dsimp only
  refine Eq.trans ?_ rfl
  unfold State.matrixEnd
  dsimp only
  have key : ∀ (b : Bool) (x y z : State), b = false → (if b = true then x else y) = y := by intro b x y z h; rw [h]; rfl
  refine congrArg (fun t => State.refreshPend t m.act) ?_
  refine congrArg (fun x : State => (if (if m.block = true then 0 else m.kind) = 3 ∨ (if m.block = true then 0 else m.kind) = 5 ∨ m.block = true ∧ m.stat = true then
      (x.engineReport m.act r m.flagen m.iaddr).modMat core (fun u => { u with stat := u.stat ++ [⟨m.act, statWord (if (if m.block = true then 0 else m.kind) = 3 then 1 else if (if m.block = true then 0 else m.kind) = 5 then 2 else 0) m.tile (!r.bad.isEmpty) r.fl m.iaddr⟩] })
    else x.engineReport m.act r m.flagen m.iaddr)) ?_
  exact key _ _ _ s hg

theorem matrix_rules_exec : ∀ (s : State) (core n : Nat) (m : MCmd), s.MatrixNext core n m → s.Sound → s.NotSaved m.act → (s.matUnit core).run = none → m.kind < 6 →
    (∀ c, ((s.matUnit core).cmds.eraseIdx n).head? = some c → ¬ (c.kind < 3 ∧ c.tile = m.tile ∧ c.ib = m.ib ∧ c.jb = m.jb ∧ c.tc = m.tc)) →
    ∃ t, exec (.matrixUnitExecute core) s = .next t ∧ t.mem = (s.matrixResult core m).mem ∧ (t.matUnit core).run = none
      ∧ (t.matUnit core).cmds = (s.matUnit core).cmds.eraseIdx n
      ∧ ((m.kind = 4 ∨ m.kind < 3 ∧ flag m.gk 55 = false) → (t.matUnit core).stat = (s.matUnit core).stat)
      ∧ ((m.kind = 3 ∨ m.kind = 5 ∨ m.kind < 3 ∧ flag m.gk 55 = true) → ∃ fl, (t.matUnit core).stat = (s.matUnit core).stat
          ++ [⟨m.act, statWord (if m.kind < 3 then 0 else if m.kind = 3 then 1 else 2) m.tile false fl m.iaddr⟩]) := by
  intro s core n m h hS hN hr hk hlast
  rw [matrix_exec h]
  refine ⟨_, rfl, ?_⟩
  by_cases hb : m.kind < 3
  · obtain ⟨b1, b2⟩ := runBlock_fresh (core := core) (m := m) hS hr
    have hblock : m.block = true := decide_eq_true hb
    have hs1n : (s.runBlock core m).1.NotSaved m.act := by rw [b2]; exact hN
    have hs1u : (s.runBlock core m).1.matUnit core = { s.matUnit core with run := some ⟨m.tc, m.tile, m.ib, m.jb, s.runVals core m⟩ } := by rw [b2, modMat_unit]
    have hacc : Mild ((s.runBlock core m).1.modMat core (fun u => { u with cmds := u.cmds.eraseIdx n })) ((s.runBlock core m).1.acceptMatrix core n m) := by
      unfold State.acceptMatrix
      exact Mild.popOwn (show ((s.runBlock core m).1.modMat core _).NotSaved m.act from hs1n) rfl
    rw [runMatrix_end (n := n) hr (s.runBlock core m) (if_pos hblock).symm _ rfl]
    · obtain ⟨k1, k2, k3, k4, k5⟩ := matrixEnd_facts (core := core) (n := n) (r := (s.runBlock core m).2) (M := (s.matrixResult core m).mem)
        (f := fun u => { u with slots := m.spent.foldl (fun t k => Tab.del t k) u.slots, out := (if m.kind = 1 then s.forwards core m else []) ++ u.out })
        hs1n hk b1 (fun _ => ⟨rfl, rfl⟩) (fun u hu => by
          have hm : u.mem = s.mem := by rw [hu.mem, b2]; rfl
          have hu2 : (u.matUnit core).run = some ⟨m.tc, m.tile, m.ib, m.jb, s.runVals core m⟩ := by rw [hu.unit, modMat_unit, hs1u]
          have hM : s.matrixResult core m = s.blockWritten core m := if_pos hb
          rw [hM]
          exact flush_fresh (s := s) (u := u.modMat core (fun u => { u with slots := m.spent.foldl (fun t k => Tab.del t k) u.slots, out := (if m.kind = 1 then s.forwards core m else []) ++ u.out })) hm
            (by rw [modMat_unit]; exact hu2))
      rw [hs1u] at k3 k4 k5
      exact ⟨k1, k2, k3, k4, k5⟩
    · rw [modMat_unit, hacc.unit, modMat_unit, hs1u]
      dsimp only
      cases hc : ((s.matUnit core).cmds.eraseIdx n).head? with
      | none => rfl
      | some c =>
        have := hlast c hc
        show MCmd.inRun c _ = false
        unfold MCmd.inRun MCmd.block
        dsimp only
        rw [Bool.eq_false_iff]
        intro hx
        simp only [Bool.and_eq_true, beq_iff_eq, decide_eq_true_eq] at hx
        exact this ⟨hx.1.1.1.1, hx.1.1.1.2, hx.1.1.2, hx.1.2, hx.2⟩
  · obtain ⟨p1, p2, p3, p4⟩ := plain_work (core := core) (m := m) hS hb
    have hblock : m.block = false := decide_eq_false hb
    generalize hw : (if m.kind = 3 then s.runRead core m else if m.kind = 4 then s.runZero core m else s.runScale core m) = w at *
    have hs1n : w.1.NotSaved m.act := by unfold State.NotSaved; rw [p4]; exact hN
    have hs1u : w.1.matUnit core = s.matUnit core := by unfold State.matUnit State.coreAt; rw [p3]
    have hacc : Mild (w.1.modMat core (fun u => { u with cmds := u.cmds.eraseIdx n })) (w.1.acceptMatrix core n m) := by
      unfold State.acceptMatrix
      exact Mild.popOwn (show (w.1.modMat core _).NotSaved m.act from hs1n) rfl
    rw [runMatrix_end (n := n) hr w (by rw [hblock, if_neg (by decide), hw]) _ rfl]
    · obtain ⟨k1, k2, k3, k4, k5⟩ := matrixEnd_facts (core := core) (n := n) (r := w.2) (M := (s.matrixResult core m).mem)
        (f := fun u => { u with slots := m.spent.foldl (fun t k => Tab.del t k) u.slots, out := (if m.kind = 1 then s.forwards core m else []) ++ u.out })
        hs1n hk p2 (fun _ => ⟨rfl, rfl⟩) (fun u hu => by
          have hu2 : ((u.modMat core (fun u => { u with slots := m.spent.foldl (fun t k => Tab.del t k) u.slots, out := (if m.kind = 1 then s.forwards core m else []) ++ u.out })).matUnit core).run = none := by
            rw [modMat_unit]; show (u.matUnit core).run = none; rw [hu.unit, modMat_unit, hs1u]; exact hr
          unfold State.flushRun
          rw [hu2]
          dsimp only
          refine ⟨?_, rfl, none, ?_⟩
          · show u.mem = _
            rw [hu.mem]; show w.1.mem = _; exact p1
          · rw [← hu2])
      rw [hs1u] at k3 k4 k5
      exact ⟨k1, k2, k3, k4, k5⟩
    · rw [modMat_unit, hacc.unit, modMat_unit, hs1u]
      dsimp only
      rw [hr]

theorem matrixUnit_rules :
    (∀ (s : State) (core n : Nat) (m : MCmd), s.MatrixNext core n m → s.Sound → s.NotSaved m.act → (s.matUnit core).run = none → m.kind < 6 →
    (∀ c, ((s.matUnit core).cmds.eraseIdx n).head? = some c → ¬ (c.kind < 3 ∧ c.tile = m.tile ∧ c.ib = m.ib ∧ c.jb = m.jb ∧ c.tc = m.tc)) →
    ∃ t, exec (.matrixUnitExecute core) s = .next t ∧ t.mem = (s.matrixResult core m).mem ∧ (t.matUnit core).run = none
      ∧ (t.matUnit core).cmds = (s.matUnit core).cmds.eraseIdx n
      ∧ ((m.kind = 4 ∨ m.kind < 3 ∧ flag m.gk 55 = false) → (t.matUnit core).stat = (s.matUnit core).stat)
      ∧ ((m.kind = 3 ∨ m.kind = 5 ∨ m.kind < 3 ∧ flag m.gk 55 = true) → ∃ fl, (t.matUnit core).stat = (s.matUnit core).stat
          ++ [⟨m.act, statWord (if m.kind < 3 then 0 else if m.kind = 3 then 1 else 2) m.tile false fl m.iaddr⟩]))
  ∧ (∀ (s : State) (core n : Nat) (e : MStat), (s.matUnit core).stat[n]? = some e → s.ownQueueLen e.act 1 < 16 →
    (∀ j c, j < n → (s.matUnit core).stat[j]? = some c → 16 ≤ s.ownQueueLen c.act 1) →
    exec (.matrixStatusPush core) s = .next (((s.modMat core (fun u => { u with stat := u.stat.eraseIdx n })).pushOwn e.act 1 [e.word]).refreshPend e.act))
  ∧ (∀ (s : State) (core i : Nat) (f : MFwd), Tab.look (s.matUnit core).out i = some f → (s.resolve f.launch f.lid).2 = false → ∀ dst, dst = (s.resolve f.launch f.lid).1 →
    (Tab.look (s.matUnit dst).slots (2 * f.buf + f.slot) = none ∧ (∀ p ∈ s.net.pkts, p.dst = dst → ∀ d, p.body ≠ .fwd f.buf f.slot d) →
      exec (.forwardHoldRelease core i) s = .next ((s.modMat core (fun u => { u with out := Tab.del u.out i })).modNet (fun n => { n with
        pkts := n.pkts ++ [⟨0, core, matrixCx + i, 0, dst, .fwd f.buf f.slot f.data, false, none⟩] })))
    ∧ ((Tab.look (s.matUnit dst).slots (2 * f.buf + f.slot) ≠ none) → exec (.forwardHoldRelease core i) s = .next s))
  ∧ (∀ (s : State) (i b k : Nat) (p : Pkt) (data : List Byte), s.Arrives i p → p.body = .fwd b k data →
    exec (.rotationForwardLanding i) s = .next ((s.taken i).modMat p.dst (fun u => { u with slots := Tab.set u.slots (2 * b + k) data }))) := by
  refine ⟨matrix_rules_exec, fun s core n e h1 h2 h3 => ?_, fun s core i f h1 h2 dst hd => ⟨fun h3 => ?_, fun h3 => ?_⟩, fun s i b k p data hp hb => ?_⟩
  · show execMatrixStatusPush core s = _
    unfold execMatrixStatusPush
    dsimp only
    have hn : (s.matUnit core).stat.findIdx? (fun e => s.statReady e) = some n := by
      rw [List.findIdx?_eq_some_iff_getElem]
      obtain ⟨hlt, hget⟩ := List.getElem?_eq_some_iff.1 h1
      refine ⟨hlt, by rw [hget]; exact decide_eq_true h2, fun j hj hq => ?_⟩
      have h4 := h3 j _ hj (List.getElem?_eq_getElem (by omega))
      have h5 := of_decide_eq_true hq
      omega
    rw [hn]
    dsimp only
    rw [h1]
  · show execForwardHoldRelease core i s = _
    unfold execForwardHoldRelease
    rw [h1]
    dsimp only
    rw [h2, ← hd, h3.1]
    have : s.net.pkts.any (fun p => p.dst == dst && (match p.body with
          | .fwd b k _ => b == f.buf && k == f.slot
          | _ => false)) = false := by
      rw [List.any_eq_false]
      intro p hp he
      rw [Bool.and_eq_true, beq_iff_eq] at he
      cases hb : p.body with
      | fwd b k d =>
        rw [hb] at he
        simp only [Bool.and_eq_true, beq_iff_eq] at he
        exact h3.2 p hp he.1 d (by rw [hb, he.2.1, he.2.2])
      | _ => rw [hb] at he; simp at he
    refine congrArg Host.Outcome.next (if_neg ?_)
    rw [Bool.false_or]
    show ¬ ((false || s.net.pkts.any (fun p => p.dst == dst && (match p.body with
          | .fwd b k _ => b == f.buf && k == f.slot
          | _ => false))) = true)
    rw [this]; decide
  · show execForwardHoldRelease core i s = _
    unfold execForwardHoldRelease
    rw [h1]
    dsimp only
    rw [← hd]
    have : (Tab.look (s.matUnit dst).slots (2 * f.buf + f.slot)).isSome = true := by
      cases hx : Tab.look (s.matUnit dst).slots (2 * f.buf + f.slot) with
      | none => exact absurd hx h3
      | some v => rfl
    rw [this]
    refine congrArg Host.Outcome.next (if_pos ?_)
    simp
  · show execRotationForwardLanding i s = _
    unfold execRotationForwardLanding
    rw [hp.arriving]
    dsimp only
    rw [hb]

end Sys2Proof.Machine
end

