-- ==== Sys2Proof/Laws/RankResults.lean ====
section
/-! SUPPORT. The rank unit runs a command and processes a stream. -/

set_option Elab.async false

namespace Sys2Proof.Machine

theorem rank_rules_exec : ∀ (s : State) (core : Nat) (m : RCmd) (rest : List RCmd), (s.rankUnit core).cmds = m :: rest → s.Sound → s.ownQueueLen m.act 9 < 16 →
    (∀ e ∈ s.rankReads core m, ∀ a, e.1.addr (e.2 / e.1.cols) (e.2 % e.1.cols) = some a → s.marked core a (fmtWidth e.1.fmt / 8) = false) →
    s.inFlight m.act m.after = false → ∀ r, r = s.rankWork core m → r.cnt < 2 ^ 13 →
      exec (.rankUnitExecute core) s = .next (((((r.s.modRank core (fun u => { u with cmds := rest })).popOwn m.act 4).addFlags m.act r.fl m.flagen 1 m.iaddr).pushOwn m.act 9
        [rankWord m.kind m.tile r.fl r.ntgt r.nanc r.cnt]).refreshPend m.act) := by
  intro s core m rest hc hS hq hm hr r hw hcnt
  show execRankUnitExecute core s = _
  unfold execRankUnitExecute
  rw [hc]
  dsimp only
  have h1 : s.markedReads core (s.rankReads core m) = false := by
    unfold State.markedReads
    rw [List.any_eq_false]
    intro e he
    have := hm e he
    cases ha : e.1.addr (e.2 / e.1.cols) (e.2 % e.1.cols) with
    | none => simp
    | some a => rw [ha] at this; simp [this a rfl]
  have h3 : s.badReads core (s.rankReads core m) = [] := by
    unfold State.badReads
    exact flatMap_nil _ _ (fun e => badElem_sound hS core _ _ _)
  rw [h1, hr, h3, decide_eq_false (by omega)]
  simp only [Bool.or_self, Bool.false_eq_true, if_false, List.isEmpty_nil, Bool.not_true]
  have e : (if m.kind = 0 then s.runSort core m else if m.kind = 1 then s.runEmit core m else if m.kind = 2 then s.runDense core m else s.runGrad core m) = r := hw.symm
  rw [e, if_pos hcnt]
  have e2 : rankEntry m.kind m.tile false r.fl r.ntgt r.nanc r.cnt = rankWord m.kind m.tile r.fl r.ntgt r.nanc r.cnt := by
    unfold rankEntry rankWord
    rw [show b2n false = 0 from rfl, Nat.zero_mul, Nat.add_zero]
  rw [e2]
  rfl

theorem stream_set (s : State) (core n : Nat) (t : Strm) : (s.setStream core n t).stream core n = t := by
  unfold State.stream State.setStream
  rw [State.coreAt_modCoreAt]
  exact Tab.get_set_same _ _ _ _

theorem rank_rules_arrive : ∀ (s : State) (i n : Nat) (p : Pkt) (f : RankFlit), s.Arrives i p → p.body = .rank n f → ∀ t, t = s.stream p.dst n →
    (∀ sg q c mid, f = .head sg q c mid → t.state = 1 → q < t.np → (∀ e ∈ t.seen, e.1 ≠ q) →
      exec (.rankFlitArrival i) s = .next (((s.taken i).setStream p.dst n { t with seen := t.seen ++ [(q, c)], froms := (mid, q) :: t.froms }).wakeIdle p.dst))
    ∧ (∀ q mid last es, f = .body q mid last es → t.state = 1 → (∃ e ∈ t.froms, e.1 = mid) →
      exec (.rankFlitArrival i) s = .next (((s.taken i).setStream p.dst n { t with queue := t.queue ++ es.map (fun e => (q, e)) }).wakeIdle p.dst))
    ∧ (∀ q mid last es, f = .body q mid last es → t.state = 2 → t.drops = [] →
      exec (.rankFlitArrival i) s = .next (((s.taken i).setStream p.dst n { t with disc := t.disc + es.length }).wakeIdle p.dst))
    ∧ (∀ sg q c mid, f = .head sg q c mid → t.state = 0 → t.drops = [] → exec (.rankFlitArrival i) s =
      .next ((((s.taken i).setStream p.dst n { t with drops := [mid] }).modCoreAt p.dst (fun k => { k with dlcnt := k.dlcnt + 1 })).wakeIdle p.dst)) := by
  intro s i n p f hp hb t ht
  have e : exec (.rankFlitArrival i) s = .next (((s.taken i).rankArrive p.dst n p.src f).wakeIdle p.dst) := by
    show execRankFlitArrival i s = _
    unfold execRankFlitArrival
    rw [hp.arriving]
    dsimp only
    rw [hb]
  have hst : (s.taken i).stream p.dst n = t := ht.symm
  rw [e]
  refine ⟨fun sg q c mid hf h1 h2 h3 => ?_, fun q mid last es hf h1 h2 => ?_, fun q mid last es hf h1 h2 => ?_, fun sg q c mid hf h1 h2 => ?_⟩
  · unfold State.rankArrive
    rw [hst]
    dsimp only
    rw [if_pos h1, hf]
    unfold Strm.take
    dsimp only
    rw [if_neg]
    rintro (h | h)
    · omega
    · rw [List.any_eq_true] at h
      obtain ⟨e, he, hq⟩ := h
      exact h3 e he (by simpa using hq)
  · unfold State.rankArrive
    rw [hst]
    dsimp only
    rw [if_pos h1, hf]
    unfold Strm.take
    dsimp only
    rw [if_pos]
    rw [List.any_eq_true]
    obtain ⟨e, he, hq⟩ := h2
    exact ⟨e, he, by simpa using hq⟩
  · unfold State.rankArrive
    rw [hst]
    dsimp only
    rw [if_neg (by omega), if_pos h1, hf]
    unfold Strm.spill
    dsimp only
    rw [h2]; rfl
  · unfold State.rankArrive
    rw [hst]
    dsimp only
    rw [if_neg (by omega), if_neg (by omega), if_neg (by omega), h2, hf]
    simp only [List.contains_nil, Bool.false_eq_true, if_false]

theorem setChan_stream (s : State) (core : Nat) (r : Tile) (g e n : Nat) : (s.setChan core r g e).stream core n = s.stream core n := by
  unfold State.setChan State.stream State.coreAt
  rw [(setElem_kept _ _ _ _ _ _).1]

theorem applyEntry_none {s : State} {core n p e : Nat} {x : Strm} (hr : x.rect = none) :
    (s.setStream core n x).applyEntry core n p e = (s.setStream core n x).setStream core n (s.summed core x p e) := by
  unfold State.applyEntry
  rw [stream_set]
  dsimp only
  have hu : (s.setStream core n x).rankUnit core = { s.rankUnit core with strms := Tab.set (s.rankUnit core).strms n x } := by
    unfold State.rankUnit State.setStream
    rw [State.coreAt_modCoreAt]
  have hw : ∀ j c, (s.setStream core n x).rankWeight core x.tw j c = s.rankWeight core x.tw j c := fun _ _ => rfl
  rw [hu]
  simp only [hw]
  split
  · rename_i r h
    have h2 : x.rect = some r := h
    rw [hr] at h2; cases h2
  · rfl

theorem rank_rules_step : ∀ (s : State) (core : Nat) (k : BitVec 2), ∀ t, t = s.stream core k.toNat → t.state = 1 →
    (t.complete = true → exec (.rankEntryProcessing core k) s = .next (s.setStream core k.toNat { t with
        state := 2, disc := t.disc + t.queue.length, queue := [], results := t.results ++ [(t.word0 2, none)] }))
    ∧ (∀ p e rest, t.complete = false → t.free = true → (t.det = false ∨ t.stop = 0) → t.queue = (p, e) :: rest → t.rect = none → (∀ j a, j < t.sums.length → t.tw.addr j (bitsOf e 11 0) = some a → s.marked core a 1 = false) → ∀ u,
      u = { s.summed core { t with queue := rest } p e with pos := t.pos + 1 } → ∃ v, exec (.rankEntryProcessing core k) s = .next v ∧ v.mem = s.mem
        ∧ (u.complete = false → t.stop = 0 → v.stream core k.toNat = u)
        ∧ (u.complete = true → v.stream core k.toNat = { u with state := 2, disc := u.disc + u.queue.length, queue := [], results := u.results ++ [(u.word0 2, none)] })) := by
  intro s core k t ht h1
  have e0 : exec (.rankEntryProcessing core k) s = .next (s.rankStep core k.toNat) := rfl
  rw [e0]
  unfold State.rankStep
  rw [← ht]
  dsimp only
  rw [if_neg (by omega)]
  refine ⟨fun hc => ?_, fun p e rest hc hf hd hq hr hm u hu => ?_⟩
  · rw [if_pos hc]; rfl
  · have hro : t.rounds = false := by
      unfold Strm.rounds
      rw [hf]
      rcases hd with hd | hd <;> rw [hd] <;> simp
    have hw : t.nextEntries.any (s.weightMarked core t) = false := by
      unfold Strm.nextEntries
      rw [hro, hq]
      simp only [Bool.false_eq_true, if_false, List.take_succ_cons, List.take_zero, List.map_cons, List.map_nil, List.any_cons, List.any_nil, Bool.or_false]
      unfold State.weightMarked
      rw [List.any_eq_false]
      intro j hj
      cases ha : t.tw.addr j (bitsOf e 11 0) with
      | none => simp
      | some a => dsimp only; rw [hm j a (List.mem_range.1 hj) ha]; decide
    rw [hc, hw, hro, hq]
    simp only [Bool.false_eq_true, if_false]
    have happ := applyEntry_none (s := s) (core := core) (n := k.toNat) (p := p) (e := e) (x := { t with queue := rest }) hr
    rw [happ, stream_set]
    have hpos : ({ s.summed core { t with queue := rest } p e with pos := t.pos + 1 } : Strm) = u := hu.symm
    rw [hpos]
    refine ⟨_, rfl, rfl, fun hcu hst => ?_, fun hcu => ?_⟩
    · rw [stream_set, stream_set]
      unfold Strm.decide_
      have hs : u.stop = 0 := by rw [hu]; exact hst
      dsimp only
      rw [hcu, hs]; simp
    · rw [stream_set, stream_set]
      unfold Strm.decide_
      dsimp only
      rw [if_pos hcu]; rfl

theorem rankUnit_rules :
    (∀ (s : State) (core : Nat) (m : RCmd) (rest : List RCmd), (s.rankUnit core).cmds = m :: rest → s.Sound → s.ownQueueLen m.act 9 < 16 →
    (∀ e ∈ s.rankReads core m, ∀ a, e.1.addr (e.2 / e.1.cols) (e.2 % e.1.cols) = some a → s.marked core a (fmtWidth e.1.fmt / 8) = false) →
    s.inFlight m.act m.after = false → ∀ r, r = s.rankWork core m → r.cnt < 2 ^ 13 →
      exec (.rankUnitExecute core) s = .next (((((r.s.modRank core (fun u => { u with cmds := rest })).popOwn m.act 4).addFlags m.act r.fl m.flagen 1 m.iaddr).pushOwn m.act 9
        [rankWord m.kind m.tile r.fl r.ntgt r.nanc r.cnt]).refreshPend m.act))
  ∧ (∀ (s : State) (i n : Nat) (p : Pkt) (f : RankFlit), s.Arrives i p → p.body = .rank n f → ∀ t, t = s.stream p.dst n →
    (∀ sg q c mid, f = .head sg q c mid → t.state = 1 → q < t.np → (∀ e ∈ t.seen, e.1 ≠ q) →
      exec (.rankFlitArrival i) s = .next (((s.taken i).setStream p.dst n { t with seen := t.seen ++ [(q, c)], froms := (mid, q) :: t.froms }).wakeIdle p.dst))
    ∧ (∀ q mid last es, f = .body q mid last es → t.state = 1 → (∃ e ∈ t.froms, e.1 = mid) →
      exec (.rankFlitArrival i) s = .next (((s.taken i).setStream p.dst n { t with queue := t.queue ++ es.map (fun e => (q, e)) }).wakeIdle p.dst))
    ∧ (∀ q mid last es, f = .body q mid last es → t.state = 2 → t.drops = [] →
      exec (.rankFlitArrival i) s = .next (((s.taken i).setStream p.dst n { t with disc := t.disc + es.length }).wakeIdle p.dst))
    ∧ (∀ sg q c mid, f = .head sg q c mid → t.state = 0 → t.drops = [] → exec (.rankFlitArrival i) s =
      .next ((((s.taken i).setStream p.dst n { t with drops := [mid] }).modCoreAt p.dst (fun k => { k with dlcnt := k.dlcnt + 1 })).wakeIdle p.dst)))
  ∧ (∀ (s : State) (core : Nat) (k : BitVec 2), ∀ t, t = s.stream core k.toNat → t.state = 1 →
    (t.complete = true → exec (.rankEntryProcessing core k) s = .next (s.setStream core k.toNat { t with
        state := 2, disc := t.disc + t.queue.length, queue := [], results := t.results ++ [(t.word0 2, none)] }))
    ∧ (∀ p e rest, t.complete = false → t.free = true → (t.det = false ∨ t.stop = 0) → t.queue = (p, e) :: rest → t.rect = none → (∀ j a, j < t.sums.length → t.tw.addr j (bitsOf e 11 0) = some a → s.marked core a 1 = false) → ∀ u,
      u = { s.summed core { t with queue := rest } p e with pos := t.pos + 1 } → ∃ v, exec (.rankEntryProcessing core k) s = .next v ∧ v.mem = s.mem
        ∧ (u.complete = false → t.stop = 0 → v.stream core k.toNat = u)
        ∧ (u.complete = true → v.stream core k.toNat = { u with state := 2, disc := u.disc + u.queue.length, queue := [], results := u.results ++ [(u.word0 2, none)] })))
  ∧ (∀ (s : State) (core : Nat) (k : BitVec 2) (a : Word) (b : Option Word) (rest : List (Word × Option Word)), ∀ t, t = s.stream core k.toNat → t.results = (a, b) :: rest →
    ((Tab.get [] (s.coreAt core).qs (5 + k.toNat)).length ≤ 14 → exec (.rankResultPush core k) s = .next ((s.modCoreAt core (fun c => { c with
        qs := Tab.set c.qs (5 + k.toNat) (Tab.get [] c.qs (5 + k.toNat) ++ [a, b.getD t.word1]) })).setStream core k.toNat { t with results := rest }))
    ∧ (14 < (Tab.get [] (s.coreAt core).qs (5 + k.toNat)).length → exec (.rankResultPush core k) s = .next s)) := by
  refine ⟨rank_rules_exec, rank_rules_arrive, rank_rules_step, fun s core k a b rest t ht hr => ⟨fun h => ?_, fun h => ?_⟩⟩
  · show execRankResultPush core k s = _
    unfold execRankResultPush
    dsimp only
    rw [← ht, hr]
    dsimp only
    rw [if_neg (by omega)]
    unfold State.push State.setQueue State.queue
    have hq : coreQueue (5 + k.toNat) = true := by
      have := k.isLt
      unfold coreQueue
      rw [decide_eq_true (show 5 ≤ 5 + k.toNat by omega), decide_eq_true (show 5 + k.toNat ≤ 8 by omega)]; rfl
    have h12 : ¬ 12 ≤ 5 + k.toNat := by have := k.isLt; omega
    rw [hq]
    dsimp only
    simp only [if_true]
    rw [if_neg h12]; rfl
  · show execRankResultPush core k s = _
    unfold execRankResultPush
    dsimp only
    rw [← ht, hr]
    dsimp only
    rw [if_pos h]

end Sys2Proof.Machine
end

