-- ==== Sys2Proof/Laws/FarrierMailbox.lean ====
section
/-! SUPPORT. The commands of the Farrier mailbox. -/

set_option Elab.async false

namespace Sys2Proof.Machine

/-- Bytes of a number read back. -/
theorem natOf_bytesOf (n x : Nat) : natOf (bytesOf n x) = x % 256 ^ n := by
  induction n generalizing x with
  | zero => simp [natOf, bytesOf, Nat.mod_one]
  | succ n ih =>
    have e : (BitVec.ofNat 8 x).toNat = x % 256 := rfl
    simp only [natOf, bytesOf, ih]
    rw [e, Nat.pow_succ, Nat.mul_comm (256 ^ n) 256, Nat.mod_mul]

theorem bytesOf_length (n x : Nat) : (bytesOf n x).length = n := by
  induction n generalizing x with
  | zero => rfl
  | succ n ih => simp [bytesOf, ih]

theorem bytesOf_take (n m x : Nat) : (bytesOf (n + m) x).take n = bytesOf n x := by
  induction n generalizing x with
  | zero => simp [bytesOf]
  | succ n ih => rw [show n + 1 + m = (n + m) + 1 by omega]; simp [bytesOf, ih]

theorem bytesOf_drop (n m x : Nat) : (bytesOf (n + m) x).drop n = bytesOf m (x / 256 ^ n) := by
  induction n generalizing x with
  | zero => simp
  | succ n ih =>
    rw [show n + 1 + m = (n + m) + 1 by omega]
    simp only [bytesOf, List.drop_succ_cons, ih]
    rw [Nat.pow_succ, Nat.mul_comm (256 ^ n) 256, Nat.div_div_eq_div_mul]

theorem bytesOf_add (n a k : Nat) : bytesOf n (a + 256 ^ n * k) = bytesOf n a := by
  induction n generalizing a with
  | zero => rfl
  | succ n ih =>
    simp only [bytesOf]
    rw [Nat.pow_succ, Nat.mul_comm (256 ^ n) 256, Nat.mul_assoc, Nat.add_mul_div_left _ _ (by omega), ih]
    congr 1
    exact BitVec.eq_of_toNat_eq (Nat.add_mul_mod_self_left a 256 _)

theorem rds_wrs_same (m : List Host.Cell) (k : Nat) (bs : List Byte) (h : Memory.wf m = true) :
    Memory.rds (Memory.wrs m k bs) k bs.length = bs := by
  have key : ∀ (n j : Nat), j + n = bs.length → Memory.rds (Memory.wrs m k bs) (k + j) n = bs.drop j := by
    intro n
    induction n with
    | zero => intro j hj; simp [Memory.rds]; omega
    | succ n ih =>
      intro j hj
      simp only [Memory.rds]
      rw [Memory.rd_wrs _ _ _ _ h, if_pos (by omega), show k + j + 1 = k + (j + 1) by omega, ih (j + 1) (by omega),
        show k + j - k = j by omega, List.drop_eq_getElem_cons (by omega : j < bs.length)]
      congr 1
      simp [List.getD_eq_getElem?_getD, List.getElem?_eq_getElem (show j < bs.length by omega)]
  have := key bs.length 0 (by omega)
  simpa using this

theorem writeFmcmd_run {s : State} {r : FmRun} (h : s.sys.fmrun = some r) (v : Word) : s.writeFmcmd v = s.overrun := by
  unfold State.writeFmcmd; rw [h]; rfl

theorem mailbox_run {s : State} {r : FmRun} (h : s.sys.fmrun = some r) (op len : Nat) (q : List Byte) : s.mailbox op len q = s.overrun := by
  unfold State.mailbox
  rw [h]
  exact writeFmcmd_run h _

/-- A request starts its command. -/
theorem mailbox_any {s : State} (h : s.sys.fmrun = none) (hr : s.isReady 0 = true) {op len : Nat} {q : List Byte} (ho : op < 256)
    (hl : len ≤ 4096) (hq : q.length ≤ 4096) : ∃ req, (Memory.wf s.mem = true → q.length = len → req = q) ∧
    s.mailbox op len q = (((s.wr (2 ^ 53 + 0x51000) q).command op len req).1.modSys
      (fun y => { y with fmcmd := W (len * 2 ^ 16 + op), fmrun := some ((s.wr (2 ^ 53 + 0x51000) q).command op len req).2 })) := by
  unfold State.mailbox
  rw [h]
  have h0 : (none : Option FmRun).isSome = false := rfl
  rw [h0]
  simp only [Bool.false_eq_true, if_false]
  rw [List.take_of_length_le (by omega)]
  unfold State.writeFmcmd
  have hw : (s.wr (regKey mailboxBuffer) q).sys.fmrun = none := h
  have hr' : (s.wr (regKey mailboxBuffer) q).isReady 0 = true := hr
  rw [hw, hr']
  simp only [Bool.not_true, Bool.false_eq_true, if_false]
  have e1 : fld (W (len % 2 ^ 16 * 2 ^ 16 + op % 256)) 31 16 = len := by
    rw [Nat.mod_eq_of_lt (by omega : len < 2 ^ 16), Nat.mod_eq_of_lt ho]
    unfold fld bitsOf W
    rw [BitVec.toNat_ofNat, Nat.mod_eq_of_lt (by omega : len * 2 ^ 16 + op < 2 ^ 64)]
    simp only [Nat.reduceAdd, Nat.reduceSub, Nat.reducePow]
    omega
  have e2 : fld (W (len % 2 ^ 16 * 2 ^ 16 + op % 256)) 7 0 = op := by
    rw [Nat.mod_eq_of_lt (by omega : len < 2 ^ 16), Nat.mod_eq_of_lt ho]
    unfold fld bitsOf W
    rw [BitVec.toNat_ofNat, Nat.mod_eq_of_lt (by omega : len * 2 ^ 16 + op < 2 ^ 64)]
    simp only [Nat.reduceAdd, Nat.reduceSub, Nat.reducePow]
    omega
  rw [e1, e2, Nat.min_eq_left hl]
  exact ⟨_, fun hm hq => by rw [← hq]; exact rds_wrs_same _ _ _ hm, rfl⟩

theorem mailbox_free {s : State} (h : s.sys.fmrun = none) (hr : s.isReady 0 = true) (hm : Memory.wf s.mem = true) {op len : Nat} {q : List Byte} (ho : op < 256)
    (hl : len ≤ 4096) (hq : q.length = len) :
    s.mailbox op len q = (((s.wr (2 ^ 53 + 0x51000) q).command op len q).1.modSys
      (fun y => { y with fmcmd := W (len * 2 ^ 16 + op), fmrun := some ((s.wr (2 ^ 53 + 0x51000) q).command op len q).2 })) := by
  obtain ⟨req, e, h⟩ := mailbox_any h hr ho hl (by omega : q.length ≤ 4096)
  rw [h, e hm hq]

/-- A command that only answers. -/
theorem command_begins {s : State} {op len : Nat} {q req reply : List Byte} {res : Nat} {c : State × FmRun}
    (h : (s.wr (2 ^ 53 + 0x51000) q).command op len req = (s.wr (2 ^ 53 + 0x51000) q, ⟨reply, res⟩))
    (hc : c = (s.wr (2 ^ 53 + 0x51000) q).command op len req) :
    c.1.modSys (fun y => { y with fmcmd := W (len * 2 ^ 16 + op), fmrun := some c.2 }) = s.begins s op len q reply res := by
  rw [hc, h]; rfl

theorem natOf4 (x : Nat) (h : x < 2 ^ 32) : natOf (bytesOf 4 x) = x := by
  rw [natOf_bytesOf]; exact Nat.mod_eq_of_lt h

theorem take4 (a : Nat) (r : List Byte) : ((bytesOf 4 a ++ r).drop 0).take 4 = bytesOf 4 a := by
  rw [List.drop_zero, List.take_append_of_le_length (by simp [bytesOf_length]), List.take_of_length_le (by simp [bytesOf_length])]

theorem drop4 (a : Nat) (r : List Byte) : (bytesOf 4 a ++ r).drop 4 = r := by
  rw [List.drop_append_of_le_length (by simp [bytesOf_length]), List.drop_of_length_le (by simp [bytesOf_length]), List.nil_append]

theorem wordsOf2 (a b : Nat) (ha : a < 2 ^ 32) (hb : b < 2 ^ 32) :
    natOf (((bytesOf 4 a ++ bytesOf 4 b).drop (4 * 0)).take 4) = a ∧ natOf (((bytesOf 4 a ++ bytesOf 4 b).drop (4 * 1)).take 4) = b := by
  constructor
  · rw [take4, natOf4 a ha]
  · rw [Nat.mul_one, drop4, List.take_of_length_le (by simp [bytesOf_length]), natOf4 b hb]

theorem bytes8 (a n : Nat) (ha : a < 2 ^ 32) (hn : n < 2 ^ 32) : bytesOf 8 (W (n * 2 ^ 32 + a)).toNat = bytesOf 4 a ++ bytesOf 4 n := by
  unfold W
  rw [BitVec.toNat_ofNat, Nat.mod_eq_of_lt (by omega), ← List.take_append_drop 4 (bytesOf 8 _)]
  rw [show (8 : Nat) = 4 + 4 from rfl, bytesOf_take, bytesOf_drop]
  congr 1
  · rw [Nat.add_comm, Nat.mul_comm]; exact bytesOf_add 4 a n
  · congr 1; omega

/-- A state with other memory. -/
def State.withMem (s : State) (m : List Host.Cell) (u : List Nat) (n : Net) : State := { s with mem := m, ue := u, net := n }

theorem withMem_msix (s : State) (m u n v) : (s.withMem m u n).msix v = (s.msix v).withMem m u n := by
  unfold State.msix
  show (if s.sys.msiMask.getLsbD v then _ else _) = _
  split <;> rfl

theorem withMem_msix' {s t : State} {m u n} (h : t = s.withMem m u n) (v) : t.msix v = (s.msix v).withMem m u n := by
  rw [h]; exact withMem_msix s m u n v

theorem withMem_logEvent (s : State) (m u n k src x y) : (s.withMem m u n).logEvent k src x y = (s.logEvent k src x y).withMem m u n := by
  unfold State.logEvent State.logWith
  dsimp only
  by_cases h : 2 ≤ k.sev
  · rw [if_pos h, if_pos h]; refine withMem_msix' ?_ 255; rfl
  · rw [if_neg h, if_neg h]; rfl

theorem withMem_logEvent' {s t : State} {m u n} (h : t = s.withMem m u n) (k src x y) : t.logEvent k src x y = (s.logEvent k src x y).withMem m u n := by
  rw [h]; exact withMem_logEvent s m u n k src x y

theorem withMem_putCap (s : State) (m u n c) : (s.withMem m u n).putCap c = (s.putCap c).withMem m u n := by
  unfold State.putCap
  have e : (s.withMem m u n).sys.cap.force = s.sys.cap.force := rfl
  rw [e]
  by_cases h : c.force = s.sys.cap.force
  · rw [if_pos h, if_pos h]; rfl
  · rw [if_neg h, if_neg h]; refine withMem_logEvent' ?_ _ _ _ _; rfl

theorem capMessage_eq (s : State) (a w : Nat) : ∀ d, (a + 2 ^ 32 - s.sys.cap.last) % 2 ^ 32 = d → s.capMessage a w =
    if d = 0 then (s.putCap { s.sys.cap with beat := s.time }, false)
    else if d < 2 ^ 31 then
      (s.putCap { s.sys.cap with last := a % 2 ^ 32, cap := max 680 (min 3400 w), beat := s.time, fallen := false }, true)
    else (s, false) := by
  intro d h; subst h; rfl

theorem withMem_capMessage (s : State) (m u n a w) :
    (s.withMem m u n).capMessage a w = ((s.capMessage a w).1.withMem m u n, (s.capMessage a w).2) := by
  have e := capMessage_eq s a w _ rfl
  have e' := capMessage_eq (s.withMem m u n) a w _ rfl
  have hs : (s.withMem m u n).sys = s.sys := rfl
  have ht : (s.withMem m u n).time = s.time := rfl
  rw [hs, ht] at e'
  rw [e, e']
  generalize (a + 2 ^ 32 - s.sys.cap.last) % 2 ^ 32 = d
  generalize (2 : Nat) ^ 31 = z
  by_cases h0 : d = 0
  · rw [if_pos h0, if_pos h0, withMem_putCap]
  · rw [if_neg h0, if_neg h0]
    by_cases h1 : d < z
    · rw [if_pos h1, if_pos h1, withMem_putCap]
    · rw [if_neg h1, if_neg h1]

theorem withMem_stageChunk (s : State) (m u n off d) :
    (s.withMem m u n).stageChunk off d = ((s.stageChunk off d).1.withMem m u n, (s.stageChunk off d).2) := by
  unfold State.stageChunk
  have : (s.withMem m u n).sys = s.sys := rfl
  rw [this]
  cases s.sys.stage with
  | none => rfl
  | some x => dsimp only; split <;> rfl

theorem withMem_activate (s : State) (m u n) : (s.withMem m u n).activate = (s.activate.1.withMem m u n, s.activate.2) := by
  unfold State.activate
  have : (s.withMem m u n).sys = s.sys := rfl
  rw [this]
  cases s.sys.stage with
  | none => rfl
  | some x =>
    dsimp only
    have e : ((s.withMem m u n).modSys Sys.endStage) = (s.modSys Sys.endStage).withMem m u n := rfl
    have e2 : ((s.modSys Sys.endStage).withMem m u n).sys = (s.modSys Sys.endStage).sys := rfl
    rw [e, e2]
    split
    · have := withMem_logEvent ((s.modSys Sys.endStage).modSys (fun y => { y with active := 1 - (s.modSys Sys.endStage).sys.active })) m u n .firmware 0 2 (1 - (s.modSys Sys.endStage).sys.active)
      exact congrArg (fun x => (x, 0)) this
    · rfl

theorem mailbox_rules_run (s : State) (r : FmRun) (h : s.sys.fmrun = some r) (hr : s.isReady 0 = true) :
    ∀ m, m = Memory.wrs s.mem (2 ^ 53 + 0x51000) (r.reply.take 4096) → ∃ t, exec (.mailboxCompletion) s = .next t ∧ t.mem = m
      ∧ t.sys.fmrun = none ∧ t.sys.fmdone = true ∧ t.sys.fmres = r.res ∧ t.sys.fmrlen = (r.reply.take 4096).length
      ∧ (s.sys.msiMask.getLsbD 254 = false → t.sys.msiSent = s.sys.msiSent ++ [254]) := by
  intro m hm
  have e0 : exec .mailboxCompletion s = .next (((s.wr (regKey mailboxBuffer) (r.reply.take 4096)).modSys
      (fun y => { y with fmrun := none, fmdone := true, fmres := r.res, fmrlen := (r.reply.take 4096).length })).msix 254) := by
    show execMailboxCompletion s = _
    unfold execMailboxCompletion
    rw [h]
    dsimp only
    rw [hr]; rfl
  refine ⟨_, e0, ?_⟩
  unfold State.msix
  split
  · rename_i hb
    refine ⟨hm.symm, rfl, rfl, rfl, rfl, fun h0 => ?_⟩
    have : s.sys.msiMask.getLsbD 254 = true := hb
    rw [this] at h0; cases h0
  · exact ⟨hm.symm, rfl, rfl, rfl, rfl, fun _ => rfl⟩

theorem mailbox_rules_sensors (s : State) (h : s.sys.fmrun = none) (hr : s.isReady 0 = true) (hm : Memory.wf s.mem = true) :
    exec (.readSensors 0) s = .next (s.begins s 1 0 [] (Config.readingsBytes s.readings) 0) := by
  refine congrArg Host.Outcome.next ((mailbox_free h hr hm (op := 1) (len := 0) (q := []) (by omega) (by omega) rfl).trans (command_begins ?_ rfl))
  unfold State.command
  rw [if_pos rfl, if_pos rfl]
  rfl

theorem mailbox_rules_sensors' (s : State) (h : s.sys.fmrun = none) (hr : s.isReady 0 = true) (len : Nat) (h0 : 0 < len) (h1 : len ≤ 4096) :
    exec (.readSensors len) s = .next (s.begins s 1 len [] [] 1) := by
  obtain ⟨req, -, e⟩ := mailbox_any h hr (op := 1) (len := len) (q := []) (by omega) h1 (by simp)
  refine congrArg Host.Outcome.next (e.trans (command_begins ?_ rfl))
  unfold State.command
  rw [if_pos rfl, if_neg (by omega)]

theorem mailbox_rules_log (s : State) (h : s.sys.fmrun = none) (hr : s.isReady 0 = true) (hm : Memory.wf s.mem = true) (first n : Nat) (hf : first < 2 ^ 32) (hn : n ≤ 127) :
    exec (.readLog 8 (W (n * 2 ^ 32 + first))) s = .next (s.begins s 2 8 (bytesOf 4 first ++ bytesOf 4 n) (s.entries first n) 0) := by
  have hb := bytes8 first n hf (by omega)
  obtain ⟨w0, w1⟩ := wordsOf2 first n hf (by omega)
  show Host.Outcome.next (s.mailbox 2 8 (bytesOf 8 (W (n * 2 ^ 32 + first)).toNat)) = _
  rw [hb]
  refine congrArg Host.Outcome.next ((mailbox_free h hr hm (op := 2) (len := 8) (by omega) (by omega) (by simp [bytesOf_length])).trans (command_begins ?_ rfl))
  unfold State.command
  rw [if_neg (by omega), if_pos rfl, if_pos ⟨rfl, Nat.le_trans (Nat.le_of_eq w1) hn⟩]
  have key : ∀ (t : State) (a b : Nat), a = first → b = n → (t, (⟨t.entries a b, 0⟩ : FmRun)) = (t, ⟨t.entries first n, 0⟩) := by
    intro t a b ha hb; rw [ha, hb]
  exact key _ _ _ w0 w1

theorem begins_changed {s t u : State} {op len : Nat} {q reply : List Byte} {res : Nat} {b : List Byte}
    (ht : t = u.withMem (s.wr (2 ^ 53 + 0x51000) q).mem (s.wr (2 ^ 53 + 0x51000) q).ue (s.wr (2 ^ 53 + 0x51000) q).net)
    (hb : b = reply) (r : Nat) (hr : r = res) :
    t.modSys (fun y => { y with fmcmd := W (len * 2 ^ 16 + op), fmrun := some ⟨b, r⟩ }) = s.begins u op len q reply res := by
  rw [ht, hb, hr]; rfl

theorem wr_withMem (s : State) (k : Nat) (b : List Byte) : s.wr k b = s.withMem (s.wr k b).mem (s.wr k b).ue (s.wr k b).net := rfl

theorem command_cap (t : State) (q w : Nat) (hq : q < 2 ^ 32) (hw : w < 2 ^ 32) :
    t.command 3 8 (bytesOf 4 q ++ bytesOf 4 w) = ((t.capMessage q w).1, ⟨[], if (t.capMessage q w).2 then 0 else 4⟩) := by
  obtain ⟨w0, w1⟩ := wordsOf2 q w hq hw
  unfold State.command
  refine (if_neg (by omega)).trans ((if_neg (by omega)).trans ((if_pos rfl).trans ((if_pos rfl).trans ?_)))
  have key : ∀ a b, a = q → b = w → t.capMessage a b = t.capMessage q w := by
    intro a b ha hb; rw [ha, hb]
  have hk := key _ _ w0 w1
  revert hk
  generalize t.capMessage q w = c
  intro hk
  split
  rename_i u b e
  have e2 : c = (u, b) := hk.symm.trans e
  rw [e2]

theorem mailbox_rules_cap (s : State) (h : s.sys.fmrun = none) (hr : s.isReady 0 = true) (hm : Memory.wf s.mem = true) (q w : Nat) (hq : q < 2 ^ 32) (hw : w < 2 ^ 32) :
    exec (.cap 8 q w) s = .next (s.begins (s.capMessage q w).1 3 8 (bytesOf 4 q ++ bytesOf 4 w) [] (if (s.capMessage q w).2 then 0 else 4)) := by
  refine congrArg Host.Outcome.next ((mailbox_free h hr hm (op := 3) (len := 8) (by omega) (by omega) (by simp [bytesOf_length])).trans ?_)
  have h2 := withMem_capMessage s (s.wr (2 ^ 53 + 0x51000) (bytesOf 4 q ++ bytesOf 4 w)).mem (s.wr (2 ^ 53 + 0x51000) (bytesOf 4 q ++ bytesOf 4 w)).ue
    (s.wr (2 ^ 53 + 0x51000) (bytesOf 4 q ++ bytesOf 4 w)).net q w
  rw [← wr_withMem] at h2
  rw [command_cap _ q w hq hw, h2]
  generalize s.capMessage q w = c
  cases c
  exact begins_changed rfl rfl _ rfl

theorem mailbox_rules_stage (s : State) (h : s.sys.fmrun = none) (hr : s.isReady 0 = true) (hm : Memory.wf s.mem = true) (off : Nat) (d : List Byte) (ho : off < 2 ^ 32)
    (hd : d.length ≤ 4092) : exec (.stageFirmwareChunk (4 + d.length) off d) s
        = .next (s.begins (s.stageChunk off d).1 4 (4 + d.length) (bytesOf 4 off ++ d) [] (s.stageChunk off d).2) := by
  refine congrArg Host.Outcome.next ((mailbox_free h hr hm (op := 4) (len := 4 + d.length) (by omega) (by omega) (by simp [bytesOf_length])).trans ?_)
  have e : ∀ t : State, t.command 4 (4 + d.length) (bytesOf 4 off ++ d) = ((t.stageChunk off d).1, ⟨[], (t.stageChunk off d).2⟩) := by
    intro t
    unfold State.command
    rw [if_neg (by omega), if_neg (by omega), if_neg (by omega), if_pos rfl, if_pos ⟨by omega, by omega⟩]
    have key : ∀ (a : Nat) (b : List Byte), a = off → b = d → ((t.stageChunk a b).1, (⟨[], (t.stageChunk a b).2⟩ : FmRun))
        = ((t.stageChunk off d).1, ⟨[], (t.stageChunk off d).2⟩) := by
      intro a b ha hb; rw [ha, hb]
    exact key _ _ ((congrArg natOf (take4 off d)).trans (natOf4 off ho)) (drop4 off d)
  rw [e, wr_withMem, withMem_stageChunk]
  exact begins_changed rfl rfl _ rfl

theorem mailbox_rules_verify (s : State) (h : s.sys.fmrun = none) (hr : s.isReady 0 = true) (hm : Memory.wf s.mem = true) :
    exec (.verifyAndActivate 0) s = .next (s.begins s.activate.1 5 0 [] [] s.activate.2) := by
  refine congrArg Host.Outcome.next ((mailbox_free h hr hm (op := 5) (len := 0) (q := []) (by omega) (by omega) rfl).trans ?_)
  have e : ∀ t : State, t.command 5 0 [] = (t.activate.1, ⟨[], t.activate.2⟩) := by
    intro t
    unfold State.command
    rw [if_neg (by omega), if_neg (by omega), if_neg (by omega), if_neg (by omega), if_pos rfl, if_pos rfl]
  rw [e, wr_withMem, withMem_activate]
  exact begins_changed rfl rfl _ rfl

theorem mailbox_rules_report (s : State) (h : s.sys.fmrun = none) (hr : s.isReady 0 = true) (hm : Memory.wf s.mem = true) (x : List Byte) (hx : x.length = 32) :
    exec (.attestationReport 32 x) s = .next (s.begins s 6 32 x (s.report x) 0) := by
  refine congrArg Host.Outcome.next ((mailbox_free h hr hm (op := 6) (len := 32) (by omega) (by omega) hx).trans (command_begins ?_ rfl))
  unfold State.command
  rw [if_neg (by omega), if_neg (by omega), if_neg (by omega), if_neg (by omega), if_neg (by omega), if_pos rfl, if_pos rfl]
  rfl

theorem mailbox_rules_unknown (s : State) (h : s.sys.fmrun = none) (hr : s.isReady 0 = true) (op len : Nat) (h6 : 6 < op) (h8 : op < 256) (hl : len ≤ 4096) :
    exec (.mailboxUnknownOp op len) s = .next (s.begins s op len [] [] 1) := by
  obtain ⟨req, -, e⟩ := mailbox_any h hr (op := op) (len := len) (q := []) h8 hl (by simp)
  have e0 : exec (.mailboxUnknownOp op len) s = .next (s.mailbox op len []) := by
    show execMailboxUnknownOp op len s = _
    unfold execMailboxUnknownOp
    rw [if_neg (by rw [Nat.mod_eq_of_lt h8]; omega)]
  rw [e0]
  refine congrArg Host.Outcome.next (e.trans (command_begins ?_ rfl))
  unfold State.command
  rw [if_neg (by omega), if_neg (by omega), if_neg (by omega), if_neg (by omega), if_neg (by omega), if_neg (by omega)]

theorem mailbox_rules :
    (∀ (s : State) (r : FmRun), s.sys.fmrun = some r →
    (∀ len, exec (.readSensors len) s = .next s.overrun) ∧ (∀ len q, exec (.readLog len q) s = .next s.overrun)
    ∧ (∀ len q w, exec (.cap len q w) s = .next s.overrun) ∧ (∀ len off d, exec (.stageFirmwareChunk len off d) s = .next s.overrun)
    ∧ (∀ len, exec (.verifyAndActivate len) s = .next s.overrun) ∧ (∀ len x, exec (.attestationReport len x) s = .next s.overrun)
    ∧ (∀ op len, 6 < op → op < 256 → exec (.mailboxUnknownOp op len) s = .next s.overrun)
    ∧ (s.isReady 0 = true → ∀ m, m = Memory.wrs s.mem (2 ^ 53 + 0x51000) (r.reply.take 4096) → ∃ t, exec (.mailboxCompletion) s = .next t ∧ t.mem = m
      ∧ t.sys.fmrun = none ∧ t.sys.fmdone = true ∧ t.sys.fmres = r.res ∧ t.sys.fmrlen = (r.reply.take 4096).length
      ∧ (s.sys.msiMask.getLsbD 254 = false → t.sys.msiSent = s.sys.msiSent ++ [254])))
  ∧ (∀ (s : State), s.sys.fmrun = none → s.isReady 0 = true → Memory.wf s.mem = true →
    (exec (.readSensors 0) s = .next (s.begins s 1 0 [] (Config.readingsBytes s.readings) 0))
    ∧ (∀ len, 0 < len → len ≤ 4096 → exec (.readSensors len) s = .next (s.begins s 1 len [] [] 1))
    ∧ (∀ first n, first < 2 ^ 32 → n ≤ 127 → exec (.readLog 8 (W (n * 2 ^ 32 + first))) s
        = .next (s.begins s 2 8 (bytesOf 4 first ++ bytesOf 4 n) (s.entries first n) 0))
    ∧ (∀ q w, q < 2 ^ 32 → w < 2 ^ 32 → exec (.cap 8 q w) s
        = .next (s.begins (s.capMessage q w).1 3 8 (bytesOf 4 q ++ bytesOf 4 w) [] (if (s.capMessage q w).2 then 0 else 4)))
    ∧ (∀ off d, off < 2 ^ 32 → d.length ≤ 4092 → exec (.stageFirmwareChunk (4 + d.length) off d) s
        = .next (s.begins (s.stageChunk off d).1 4 (4 + d.length) (bytesOf 4 off ++ d) [] (s.stageChunk off d).2))
    ∧ (exec (.verifyAndActivate 0) s = .next (s.begins s.activate.1 5 0 [] [] s.activate.2))
    ∧ (∀ x, x.length = 32 → exec (.attestationReport 32 x) s = .next (s.begins s 6 32 x (s.report x) 0))
    ∧ (∀ op len, 6 < op → op < 256 → len ≤ 4096 → exec (.mailboxUnknownOp op len) s = .next (s.begins s op len [] [] 1))) := by
  refine ⟨fun s r h => ⟨fun len => congrArg Host.Outcome.next (mailbox_run h _ _ _), fun len q => congrArg Host.Outcome.next (mailbox_run h _ _ _),
    fun len q w => congrArg Host.Outcome.next (mailbox_run h _ _ _), fun len o d => congrArg Host.Outcome.next (mailbox_run h _ _ _),
    fun len => congrArg Host.Outcome.next (mailbox_run h _ _ _), fun len x => congrArg Host.Outcome.next (mailbox_run h _ _ _),
    fun op len h6 h8 => ?_, mailbox_rules_run s r h⟩,
    fun s h hr hm => ⟨mailbox_rules_sensors s h hr hm, mailbox_rules_sensors' s h hr, mailbox_rules_log s h hr hm, mailbox_rules_cap s h hr hm, mailbox_rules_stage s h hr hm, mailbox_rules_verify s h hr hm,
      mailbox_rules_report s h hr hm, mailbox_rules_unknown s h hr⟩⟩
  show execMailboxUnknownOp op len s = _
  unfold execMailboxUnknownOp
  rw [if_neg (by rw [Nat.mod_eq_of_lt h8]; omega)]
  exact congrArg Host.Outcome.next (mailbox_run h _ _ _)

end Sys2Proof.Machine
end

