-- ==== Sys2Proof/Laws/SensorSamples.lean ====
section
/-! SUPPORT. Sensor readings and trips. -/

set_option Elab.async false

namespace Sys2Proof.Machine

theorem logged_msix {s t : State} {v n w : Nat} (h : s.LoggedBy t v n) : s.LoggedBy (t.msix w) v n := by
  have e : (t.msix w).sys.log = t.sys.log ∧ (t.msix w).sys.logSeq = t.sys.logSeq := by unfold State.msix; split <;> exact ⟨rfl, rfl⟩
  obtain ⟨x, a, b, c, d, f, g⟩ := h
  exact ⟨x, a, b, c, d, e.1.trans f, e.2.trans g⟩

/-- A log entry is the newest one of the log. -/
theorem logged_event (s : State) (k : LogKind) (src x y : Nat) : s.LoggedBy (s.logEvent k src x y) k.sev src := by
  have key : ∀ e : LogEntry, e.sev = k.sev → e.src = src → e.seq = s.sys.logSeq % 2 ^ 32 → e.time = (s.time - s.sys.powerAt) / Config.tickUs →
      s.LoggedBy { s with sys := { s.sys with log := if 65536 < (s.sys.log ++ [e]).length then (s.sys.log ++ [e]).drop 1 else s.sys.log ++ [e], logSeq := s.sys.logSeq + 1 } } k.sev src := by
    intro e a b c d
    refine ⟨e, a, b, c, d, ?_, rfl⟩
    show (if 65536 < (s.sys.log ++ [e]).length then _ else _) = _
    rw [List.length_append]
    by_cases h : 65536 ≤ s.sys.log.length
    · rw [if_pos h, if_pos (by show 65536 < s.sys.log.length + 1; omega)]
    · rw [if_neg h, if_neg (by show ¬ 65536 < s.sys.log.length + 1; omega)]
  unfold State.logEvent State.logWith
  dsimp only
  by_cases h : 2 ≤ k.sev
  · rw [if_pos h]; exact logged_msix (key _ rfl rfl rfl rfl)
  · rw [if_neg h]; exact key _ rfl rfl rfl rfl

/-- What an entry changes besides the log: vector 255 for severity 2 and 3. -/
theorem logEvent_rest (s : State) (k : LogKind) (src x y : Nat) : ∃ z : Sys, s.logEvent k src x y = { s with sys := z } ∧ z.ready0 = s.sys.ready0 ∧ z.ready1 = s.sys.ready1
    ∧ z.ready2 = s.sys.ready2 ∧ z.tripped = s.sys.tripped ∧ z.msiMask = s.sys.msiMask ∧ z.clusters = s.sys.clusters ∧ z.stackTemps = s.sys.stackTemps ∧ z.failed = s.sys.failed
    ∧ z.lval = s.sys.lval ∧ z.lead = s.sys.lead ∧ z.cap = s.sys.cap ∧ z.banks = s.sys.banks ∧ z.active = s.sys.active ∧ z.rollback = s.sys.rollback ∧ z.stage = s.sys.stage
    ∧ z.powerAt = s.sys.powerAt ∧ z.i3c = s.sys.i3c
    ∧ (2 ≤ k.sev → s.sys.msiMask.getLsbD 255 = false → z.msiSent = s.sys.msiSent ++ [255]) ∧ (¬ 2 ≤ k.sev → z.msiSent = s.sys.msiSent) := by
  unfold State.logEvent State.logWith
  dsimp only
  by_cases h : 2 ≤ k.sev
  · rw [if_pos h]
    unfold State.msix
    dsimp only
    by_cases hm : s.sys.msiMask.getLsbD 255 = true
    · rw [if_pos hm]
      refine ⟨_, rfl, ?_⟩
      and_intros
      any_goals rfl
      · intro _ h0; rw [h0] at hm; cases hm
      · intro h0; exact absurd h h0
    · rw [if_neg hm]
      refine ⟨_, rfl, ?_⟩
      and_intros
      any_goals rfl
      · intro _ _; rfl
      · intro h0; exact absurd h h0
  · rw [if_neg h]
    refine ⟨_, rfl, ?_⟩
    and_intros
    any_goals rfl
    · intro h0; exact absurd h0 h
    · intro _; rfl

theorem rd_filter (P : Nat → Bool) (m : List Host.Cell) (h : Memory.wf m = true) (k : Nat) :
    Memory.rd (m.filter (fun e => P e.1)) k = if P k then Memory.rd m k else Memory.blank := by
  induction m with
  | nil => simp [Memory.rd]
  | cons e m ih =>
    obtain ⟨j, b⟩ := e
    rw [Memory.wf_cons] at h
    have ih := ih h.2.2
    simp only [List.filter_cons]
    have hab : k ≤ j → Memory.rd m k = Memory.blank := fun hk => Memory.rd_above h.2.1 hk
    by_cases hp : P j = true
    · rw [if_pos hp]
      simp only [Memory.rd]
      by_cases h1 : k < j
      · rw [if_pos h1, if_pos h1]; simp
      · rw [if_neg h1, if_neg h1]
        by_cases h2 : j = k
        · subst h2; rw [if_pos rfl, if_pos rfl, if_pos hp]
        · rw [if_neg h2, if_neg h2, ih]
    · rw [if_neg hp, ih]
      simp only [Memory.rd]
      by_cases h1 : k < j
      · rw [if_pos h1, hab (by omega)]
      · rw [if_neg h1]
        by_cases h2 : j = k
        · subst h2; rw [if_neg hp, if_neg hp]
        · rw [if_neg h2]

theorem without_power {s t : State} (hm : Memory.wf s.mem = true) (h : t = { s.lostWork with sys := t.sys }) : s.WithoutPower t := by
  rw [h]
  have e : ∀ k, Memory.rd (s.mem.filter (fun e => outsideKey e.1)) k = if outsideKey k then Memory.rd s.mem k else Memory.blank := rd_filter outsideKey s.mem hm
  refine ⟨rfl, rfl, rfl, rfl, rfl, rfl, fun k h1 h2 => ?_, fun k h1 => ?_⟩
  · refine (e k).trans (if_pos ?_)
    unfold outsideKey
    rw [decide_eq_true h1, decide_eq_true h2]; rfl
  · refine (e k).trans (if_neg ?_)
    unfold outsideKey
    intro h2
    simp only [Bool.and_eq_true, decide_eq_true_eq] at h2
    exact h1 h2

theorem flag_low (w : Word) (i : Nat) : flag (w &&& 1) i = (flag w i && decide (i = 0)) := by
  rw [flag_getLsbD, flag_getLsbD, BitVec.getLsbD_and]
  by_cases h : i = 0
  · subst h; simp
  · have : (1 : Word).getLsbD i = false := by
      show (BitVec.ofNat 64 1).getLsbD i = false
      rw [BitVec.getLsbD_ofNat]
      obtain ⟨j, rfl⟩ : ∃ j, i = j + 1 := ⟨i - 1, by omega⟩
      simp [Nat.testBit_succ]
    rw [this]; simp [h]

theorem flag_zero (i : Nat) : flag (0 : Word) i = false := by
  rw [flag_getLsbD]; simp

/-- A trip of a package that has not tripped. -/
theorem trip_trips {s : State} (hm : Memory.wf s.mem = true) (h : s.sys.tripped = false) (src r : Nat) : s.Trips (s.trip src r) src := by
  have e : s.trip src r = (((s.lostWork.modSys (fun y => { y with ready0 := y.ready0 &&& 1, ready1 := 0, ready2 := 0, tripped := true })).logEvent .trip src r 0).msix 255) := by
    unfold State.trip; rw [h]; rfl
  have hl := logged_event (s.lostWork.modSys (fun y => { y with ready0 := y.ready0 &&& 1, ready1 := 0, ready2 := 0, tripped := true })) .trip src r 0
  obtain ⟨z, hz, z0, z1, z2, z3, z4, -, -, -, -, -, -, -, -, -, -, -, -, z5, -⟩ :=
    logEvent_rest (s.lostWork.modSys (fun y => { y with ready0 := y.ready0 &&& 1, ready1 := 0, ready2 := 0, tripped := true })) .trip src r 0
  have hl' := logged_msix (w := 255) hl
  rw [e]
  obtain ⟨x, a, b, c, d, f, g⟩ := hl'
  have hs : ∃ z', (((s.lostWork.modSys (fun y => { y with ready0 := y.ready0 &&& 1, ready1 := 0, ready2 := 0, tripped := true })).logEvent .trip src r 0).msix 255)
      = { s.lostWork with sys := z' } ∧ z'.ready0 = s.sys.ready0 &&& 1 ∧ z'.ready1 = 0 ∧ z'.ready2 = 0 ∧ z'.tripped = true
        ∧ (s.sys.msiMask.getLsbD 255 = false → z'.msiSent = s.sys.msiSent ++ [255, 255]) := by
    rw [hz]
    unfold State.msix
    dsimp only
    by_cases hk : z.msiMask.getLsbD 255 = true
    · rw [if_pos hk]
      refine ⟨_, rfl, z0, z1, z2, z3, fun h0 => ?_⟩
      rw [z4] at hk
      have : s.sys.msiMask.getLsbD 255 = true := hk
      rw [h0] at this; cases this
    · rw [if_neg hk]
      refine ⟨_, rfl, z0, z1, z2, z3, fun h0 => ?_⟩
      have h5 := z5 (by decide) h0
      show z.msiSent ++ [255] = _
      rw [h5]
      show (s.sys.msiSent ++ [255]) ++ [255] = _
      rw [List.append_assoc]; rfl
  obtain ⟨z', e', r0, r1, r2, tr, ms⟩ := hs
  rw [e'] at f g ⊢
  refine ⟨without_power hm rfl, ?_, fun i h0 hi => ?_, tr, ⟨x, a, b, c, d, f, g⟩, fun hv => ms (hv 255 (by simp))⟩
  · show flag z'.ready0 0 = flag s.sys.ready0 0
    rw [r0, flag_low]; simp
  · show flag (if i < 64 then z'.ready0 else if i < 128 then z'.ready1 else z'.ready2) (i % 64) = false
    by_cases h1 : i < 64
    · rw [if_pos h1, r0, flag_low]
      have : i % 64 ≠ 0 := by omega
      simp [this]
    · rw [if_neg h1]
      by_cases h2 : i < 128
      · rw [if_pos h2, r1, flag_zero]
      · rw [if_neg h2, r2, flag_zero]

theorem updAt_get? {α : Type} (f : α → α) (l : List α) (i : Nat) : (updAt f l i)[i]? = l[i]?.map f := by
  induction l generalizing i with
  | nil => cases i <;> rfl
  | cons a l ih => cases i with
    | zero => rfl
    | succ i => simpa [updAt] using ih i

theorem clusterAt_set (s : State) (d c : Nat) (k : Cluster) : (s.setClusterAt d c k).clusterAt d c = k := by
  unfold State.setClusterAt State.clusterAt; simp

theorem trips_of {s u t : State} {n : Nat} (h : u.Trips t n) (e : ∀ x : Prop, (s.Trips t n → x) → (u.Trips t n → x)) : s.Trips t n := e _ id h

theorem sensors_rules_cluster (s : State) (d c r : Nat) (hm : Memory.wf s.mem = true) (h : s.sys.tripped = false) :
    (4096 ≤ r → ∃ t, exec (.clusterSensorSample d c r) s = .next t ∧ s.OnlySys t ∧ (t.clusterAt d c).bad ≠ none
      ∧ ((s.clusterAt d c).bad = none → (t.clusterAt d c).bad = some s.time))
    ∧ (r < 110 * 16 → ∃ t, exec (.clusterSensorSample d c r) s = .next t ∧ s.OnlySys t ∧ (t.clusterAt d c).temp = r ∧ (t.clusterAt d c).bad = none
      ∧ (t.clusterAt d c).opened = (s.clusterAt d c).opened)
    ∧ (110 * 16 ≤ r → r < 4096 → ∃ t, exec (.clusterSensorSample d c r) s = .next t ∧ s.Trips t (2 + d)) := by
  refine ⟨fun h0 => ⟨_, congrArg Host.Outcome.next (if_pos h0), rfl, ?_, fun hb => ?_⟩,
    fun h0 => ⟨_, congrArg Host.Outcome.next ((if_neg (by omega)).trans (if_neg (by omega))), rfl, ?_, ?_, ?_⟩,
    fun h0 h1 => ⟨_, congrArg Host.Outcome.next ((if_neg (by omega)).trans (if_pos h0)), ?_⟩⟩
  · rw [clusterAt_set]; simp
  · rw [clusterAt_set, hb]; rfl
  · rw [clusterAt_set]
  · rw [clusterAt_set]
  · rw [clusterAt_set]
  · exact trip_trips (s := s.setClusterAt d c { s.clusterAt d c with temp := r, bad := none }) hm h (2 + d) r

theorem sensors_rules :
    (∀ (s : State) (d c r : Nat), Memory.wf s.mem = true → s.sys.tripped = false → d < 8 → c < 16 →
    (4096 ≤ r → ∃ t, exec (.clusterSensorSample d c r) s = .next t ∧ s.OnlySys t ∧ (t.clusterAt d c).bad ≠ none
      ∧ ((s.clusterAt d c).bad = none → (t.clusterAt d c).bad = some s.time))
    ∧ (r < 110 * 16 → ∃ t, exec (.clusterSensorSample d c r) s = .next t ∧ s.OnlySys t ∧ (t.clusterAt d c).temp = r ∧ (t.clusterAt d c).bad = none
      ∧ (t.clusterAt d c).opened = (s.clusterAt d c).opened)
    ∧ (110 * 16 ≤ r → r < 4096 → ∃ t, exec (.clusterSensorSample d c r) s = .next t ∧ s.Trips t (2 + d)))
  ∧ (∀ (s : State) (d k r : Nat), Memory.wf s.mem = true → s.sys.tripped = false → d < 8 → k < 2 →
    (r < 105 * 16 → ∃ t, exec (.stackSensorSample d k r) s = .next t ∧ s.OnlySys t ∧ Tab.get 0 t.sys.stackTemps (2 * d + k) = r)
    ∧ (105 * 16 ≤ r → ∃ t, exec (.stackSensorSample d k r) s = .next t ∧ s.Trips t (10 + 2 * d + k)))
  ∧ (∀ (s : State) (n r : Nat), s.sys.module.length = 4 → n < 4 → ∃ t, exec (.moduleSensorSample n r) s = .next t ∧ s.OnlySys t
    ∧ t.sys.module[n]? = some r ∧ (n = 2 → 46000 ≤ r → r ≤ 56000 → t.sys.vbad = none)
    ∧ (n = 2 → (r < 46000 ∨ 56000 < r) → s.sys.vbad = none → t.sys.vbad = some s.time))
  ∧ (∀ (s : State) (r since : Nat), Memory.wf s.mem = true → s.sys.tripped = false → s.sys.vbad = some since → (r < 46000 ∨ 56000 < r) → since + Config.tickMs ≤ s.time →
    ∃ t, exec (.inputVoltageTrip r) s = .next t ∧ s.Trips t 42) := by
  refine ⟨fun s d c r hm h _ _ => sensors_rules_cluster s d c r hm h, fun s d k r hm h _ _ => ⟨fun h0 => ?_, fun h0 => ?_⟩, fun s n r hl hn => ?_, fun s r since hm h hv hr ht => ?_⟩
  · refine ⟨_, congrArg Host.Outcome.next (if_neg (by omega)), rfl, ?_⟩
    show Tab.get 0 (Tab.set s.sys.stackTemps (d * 2 + k) r) (2 * d + k) = r
    rw [Nat.mul_comm 2 d]; simp
  · refine ⟨_, congrArg Host.Outcome.next (if_pos h0), ?_⟩
    have := trip_trips (s := s.modSys (fun y => { y with stackTemps := Tab.set y.stackTemps (d * 2 + k) r })) hm h (10 + (d * 2 + k)) r
    rw [show 10 + 2 * d + k = 10 + (d * 2 + k) by omega]
    exact this
  · have hg : (updAt (fun _ => r) s.sys.module n)[n]? = some r := by
      rw [updAt_get?, List.getElem?_eq_getElem (by omega)]; rfl
    refine ⟨_, rfl, rfl, ?_, fun h2 h3 h4 => ?_, fun h2 h3 h4 => ?_⟩
    · have : ∀ a b : Sys, a.module[n]? = some r → b.module[n]? = some r → (if n = 2 then a else b).module[n]? = some r := by
        intro a b ha hb; split <;> assumption
      exact this _ _ hg hg
    · have hb : badVoltage r = false := by
        unfold badVoltage; rw [decide_eq_false (by omega), decide_eq_false (by omega)]; rfl
      have : ∀ (a b : Sys) v, a.vbad = v → (if n = 2 then a else b).vbad = v := by
        intro a b v ha; rw [if_pos h2]; exact ha
      refine this _ _ _ ?_
      show (if badVoltage r then some _ else none) = none
      rw [hb]; rfl
    · have hb : badVoltage r = true := by
        unfold badVoltage
        rcases h3 with hr | hr
        · rw [decide_eq_true hr]; rfl
        · rw [decide_eq_true hr, Bool.or_true]
      have : ∀ (a b : Sys) v, a.vbad = v → (if n = 2 then a else b).vbad = v := by
        intro a b v ha; rw [if_pos h2]; exact ha
      refine this _ _ _ ?_
      show (if badVoltage r then some (s.sys.vbad.getD s.time) else none) = _
      rw [hb, h4]; rfl
  · have hb : badVoltage r = true := by
      unfold badVoltage
      rcases hr with hr | hr
      · rw [decide_eq_true hr]; rfl
      · rw [decide_eq_true hr, Bool.or_true]
    refine ⟨s.trip 42 r, ?_, trip_trips hm h 42 r⟩
    show execInputVoltageTrip r s = _
    unfold execInputVoltageTrip
    rw [hv]
    refine congrArg Host.Outcome.next (if_pos ?_)
    rw [hb, decide_eq_true ht]; rfl

end Sys2Proof.Machine
end

