-- ==== Sys2Proof/Laws/ReadyBits.lean ====
section
/-! SUPPORT. READY bits, the lead die, and units out of service. -/

set_option Elab.async false

namespace Sys2Proof.Machine

theorem setBit_word (w : Word) (i j : Nat) (hi : i < 64) (on : Bool) (hj : j < 64) : flag (setBit w i on) j = if j = i then on else flag w j := by
  have hb : (BitVec.ofNat 64 (2 ^ i)).getLsbD j = decide (i = j) := by
    rw [BitVec.getLsbD_ofNat, Nat.testBit_two_pow, decide_eq_true hj, Bool.true_and]
  rw [flag_getLsbD, flag_getLsbD]
  unfold setBit
  cases on with
  | true =>
    rw [if_pos rfl, BitVec.getLsbD_or, hb]
    by_cases h : j = i
    · subst h; simp
    · rw [if_neg h, decide_eq_false (fun h' => h h'.symm), Bool.or_false]
  | false =>
    rw [if_neg (by decide), BitVec.getLsbD_and, BitVec.getLsbD_not, hb]
    by_cases h : j = i
    · subst h; simp
    · have h2 : decide (i = j) = false := decide_eq_false (fun e => h e.symm)
      rw [if_neg h, h2, decide_eq_true hj]; simp

theorem setReady_changes {s : State} {n : Nat} {on : Bool} (hn : n < 192) (h : s.isReady n ≠ on) : s.ReadyChange (s.setReady n on) n on := by
  have e : s.setReady n on = ((s.modSys (fun y =>
      if n < 64 then { y with ready0 := setBit y.ready0 (n % 64) on }
      else if n < 128 then { y with ready1 := setBit y.ready1 (n % 64) on } else { y with ready2 := setBit y.ready2 (n % 64) on })).logEvent .ready 0 n (b2n on)).msix 255 := by
    unfold State.setReady; rw [if_neg h]
  rw [e]
  have hy : ∃ y : Sys, (s.modSys (fun y =>
      if n < 64 then { y with ready0 := setBit y.ready0 (n % 64) on }
      else if n < 128 then { y with ready1 := setBit y.ready1 (n % 64) on } else { y with ready2 := setBit y.ready2 (n % 64) on })) = { s with sys := y }
      ∧ (∀ i < 192, flag (if i < 64 then y.ready0 else if i < 128 then y.ready1 else y.ready2) (i % 64) = if i = n then on else s.isReady i)
      ∧ y.log = s.sys.log ∧ y.logSeq = s.sys.logSeq ∧ y.powerAt = s.sys.powerAt ∧ y.msiMask = s.sys.msiMask ∧ y.msiSent = s.sys.msiSent ∧ y.lead = s.sys.lead ∧ y.lval = s.sys.lval
      ∧ y.failed = s.sys.failed := by
    have hmod : ∀ (f : Sys → Sys) (y : Sys), f s.sys = y → s.modSys f = { s with sys := y } := fun f y e => by rw [← e]; rfl
    have hsb := fun (w : Word) (i : Nat) => setBit_word w (n % 64) (i % 64) (by omega) on (by omega)
    by_cases h1 : n < 64
    · refine ⟨_, hmod _ _ (if_pos h1), fun i hi => ?_, rfl, rfl, rfl, rfl, rfl, rfl, rfl, rfl⟩
      dsimp only
      unfold State.isReady
      by_cases h2 : i < 64
      · rw [if_pos h2, if_pos h2, hsb]
        by_cases h3 : i = n
        · rw [if_pos h3, if_pos (by omega)]
        · rw [if_neg h3, if_neg (by omega)]
      · rw [if_neg h2, if_neg h2, if_neg (show ¬ i = n by omega)]
    · by_cases h1' : n < 128
      · refine ⟨_, hmod _ _ ((if_neg h1).trans (if_pos h1')), fun i hi => ?_, rfl, rfl, rfl, rfl, rfl, rfl, rfl, rfl⟩
        dsimp only
        unfold State.isReady
        by_cases h2 : i < 64
        · rw [if_pos h2, if_pos h2, if_neg (show ¬ i = n by omega)]
        · rw [if_neg h2, if_neg h2]
          by_cases h4 : i < 128
          · rw [if_pos h4, if_pos h4, hsb]
            by_cases h3 : i = n
            · rw [if_pos h3, if_pos (by omega)]
            · rw [if_neg h3, if_neg (by omega)]
          · rw [if_neg h4, if_neg h4, if_neg (show ¬ i = n by omega)]
      · refine ⟨_, hmod _ _ ((if_neg h1).trans (if_neg h1')), fun i hi => ?_, rfl, rfl, rfl, rfl, rfl, rfl, rfl, rfl⟩
        dsimp only
        unfold State.isReady
        by_cases h2 : i < 64
        · rw [if_pos h2, if_pos h2, if_neg (show ¬ i = n by omega)]
        · rw [if_neg h2, if_neg h2]
          by_cases h4 : i < 128
          · rw [if_pos h4, if_pos h4, if_neg (show ¬ i = n by omega)]
          · rw [if_neg h4, if_neg h4, hsb]
            by_cases h3 : i = n
            · rw [if_pos h3, if_pos (by omega)]
            · rw [if_neg h3, if_neg (by omega)]
  obtain ⟨y, hy, yr, y1, y2, y3, y4, y5, y6, y7, y8⟩ := hy
  rw [hy]
  have hl := logged_msix (w := 255) (logged_event { s with sys := y } .ready 0 n (b2n on))
  obtain ⟨z, hz, z0, z1, z2, z3, z4, -, -, z8, z9, z10, -, -, -, -, -, z11, -, -, z5⟩ := logEvent_rest { s with sys := y } .ready 0 n (b2n on)
  obtain ⟨x, a, b, c, d, f, g⟩ := hl
  have hl' : s.LoggedBy (({ s with sys := y } : State).logEvent .ready 0 n (b2n on) |>.msix 255) 0 0 := by
    refine ⟨x, a, b, ?_, ?_, ?_, ?_⟩
    · exact c.trans (by show y.logSeq % 2 ^ 32 = _; rw [y2])
    · exact d.trans (by show (s.time - y.powerAt) / _ = _; rw [y3])
    · exact f.trans (by show (if 65536 ≤ y.log.length then (y.log ++ [x]).drop 1 else y.log ++ [x]) = _; rw [y1])
    · exact g.trans (by show y.logSeq + 1 = _; rw [y2])
  have hready : ∀ t : State, t.sys.ready0 = y.ready0 → t.sys.ready1 = y.ready1 → t.sys.ready2 = y.ready2 → s.ReadyIs t n on := by
    intro t t0 t1 t2 i hi
    refine Eq.trans ?_ (yr i hi)
    unfold State.isReady
    rw [t0, t1, t2]
  rw [hz] at hl' ⊢
  unfold State.msix at hl' ⊢
  dsimp only at hl' ⊢
  by_cases hk : z.msiMask.getLsbD 255 = true
  · rw [if_pos hk] at hl' ⊢
    refine ⟨rfl, hready _ z0 z1 z2, hl', fun h0 => ?_, z10.trans y6, z9.trans y7, z8.trans y8, z4.trans y4, z11.trans y3⟩
    rw [z4] at hk
    have h1 := h0 255 (by simp)
    rw [← y4] at h1
    rw [h1] at hk; cases hk
  · rw [if_neg hk] at hl' ⊢
    refine ⟨rfl, hready _ z0 z1 z2, hl', fun h0 => ?_, z10.trans y6, z9.trans y7, z8.trans y8, z4.trans y4, z11.trans y3⟩
    show z.msiSent ++ [255] = _
    rw [z5 (by decide)]
    show y.msiSent ++ [255] = _
    rw [y5]

theorem chooseLead_done {s : State} (h : s.sys.lval = true ∨ s.time < s.sys.powerAt + 500 * Config.tickMs) : s.chooseLead = s := by
  unfold State.chooseLead
  refine if_pos ?_
  rcases h with h | h
  · rw [h]; rfl
  · rw [decide_eq_true h]; simp

/-- The choice of the lead die, once the wait is over. -/
theorem chooseLead_open {s : State} (h : s.sys.lval = false) (hf : s.isReady 0 = true) (ht : s.sys.powerAt + 500 * Config.tickMs ≤ s.time) :
    (∀ d < 8, s.isReady (2 + d) = true → (∀ c < d, s.isReady (2 + c) = false) → s.chooseLead = { s with sys := { s.sys with lead := d, lval := true } })
    ∧ ((∀ d < 8, s.isReady (2 + d) = false) → s.chooseLead = s) := by
  have e : s.chooseLead = match (List.range 8).find? (fun d => s.isReady (readyDie d)) with
      | some d => s.modSys (fun y => { y with lead := d, lval := true })
      | none => s := by
    unfold State.chooseLead
    refine if_neg ?_
    rw [h, hf, decide_eq_false (by omega)]; decide
  rw [e]
  refine ⟨fun d hd hr hc => ?_, fun hr => ?_⟩
  · have hf : (List.range 8).find? (fun d => s.isReady (readyDie d)) = some d := by
      rw [List.find?_range_eq_some]
      exact ⟨hr, List.mem_range.2 hd, fun j hj => by rw [show s.isReady (readyDie j) = false from hc j hj]; rfl⟩
    rw [hf]; rfl
  · have hf : (List.range 8).find? (fun d => s.isReady (readyDie d)) = none := by
      rw [List.find?_eq_none]
      intro d hd
      rw [show s.isReady (readyDie d) = false from hr d (List.mem_range.1 hd)]; simp
    rw [hf]

theorem readiness_rules_test (s : State) (n : Nat) (h0 : s.isReady 0 = true) (ht : s.sys.tripped = false) (hn : 0 < n) (hu : n < 42 ∨ (64 ≤ n ∧ n < 192)) :
    (s.isReady n = true → s.sys.lval = true → exec (.selfTestPass n) s = .next s)
    ∧ (s.isReady n = false → s.sys.lval = true → ∃ t, exec (.selfTestPass n) s = .next t ∧ s.ReadyChange t n true)
    ∧ (s.isReady n = false → s.sys.lval = false → (∀ d < 8, s.isReady (2 + d) = false) → s.sys.powerAt + 500 * Config.tickMs ≤ s.time →
      ∃ t, exec (.selfTestPass n) s = .next t ∧ s.ReadyIs t n true ∧ (t.sys.lval = true ↔ 2 ≤ n ∧ n < 10) ∧ (2 ≤ n → n < 10 → t.sys.lead = n - 2)) := by
  have e : exec (.selfTestPass n) s = .next ((s.chooseLead).setReady n true).chooseLead := by
    show execSelfTestPass n s = _
    unfold execSelfTestPass
    refine congrArg Host.Outcome.next (if_pos ?_)
    have : readyUnit n = true := by
      unfold readyUnit
      rcases hu with hu | hu
      · rw [decide_eq_true hu]; rfl
      · rw [decide_eq_true hu.1, decide_eq_true hu.2]; simp
    rw [this, h0, ht]
    simp; omega
  rw [e]
  refine ⟨fun hr hl => ?_, fun hr hl => ?_, fun hr hl hd hp => ?_⟩
  · rw [chooseLead_done (.inl hl)]
    have : s.setReady n true = s := by unfold State.setReady; rw [if_pos hr]
    rw [this, chooseLead_done (.inl hl)]
  · rw [chooseLead_done (.inl hl)]
    have hc := setReady_changes (s := s) (n := n) (on := true) (by omega) (by rw [hr]; decide)
    refine ⟨_, rfl, ?_⟩
    rw [chooseLead_done (.inl (hc.2.2.2.2.2.1.trans hl))]
    exact hc
  · rw [(chooseLead_open hl h0 hp).2 hd]
    have hc := setReady_changes (s := s) (n := n) (on := true) (by omega) (by rw [hr]; decide)
    obtain ⟨c1, c2, c3, c4, c5, c6, c7, c8, c9⟩ := hc
    have htime : (s.setReady n true).time = s.time := by rw [c1]
    have ho := chooseLead_open (s := s.setReady n true) (c6.trans hl) (by rw [c2 0 (by omega), if_neg (by omega)]; exact h0) (by rw [c9, htime]; exact hp)
    by_cases hdie : 2 ≤ n ∧ n < 10
    · have := ho.1 (n - 2) (by omega) (by rw [show 2 + (n - 2) = n by omega, c2 n (by omega), if_pos rfl])
        (fun c hc => by rw [c2 _ (by omega), if_neg (by omega)]; exact hd c (by omega))
      rw [this]
      exact ⟨_, rfl, c2, ⟨fun _ => hdie, fun _ => rfl⟩, fun _ _ => rfl⟩
    · have := ho.2 (fun d hd' => by rw [c2 _ (by omega), if_neg (by omega)]; exact hd d hd')
      rw [this]
      exact ⟨_, rfl, c2, ⟨fun h => (by rw [c6.trans hl] at h; cases h), fun h => absurd h hdie⟩, fun h h' => absurd ⟨h, h'⟩ hdie⟩

theorem taken_out {s : State} {n : Nat} (hn : n < 192) (h : s.isReady n = true) (src : Nat) (f : Nat → Nat) :
    ∀ t, t = (((s.setReady n false).logEvent .outOfService src n 0).modSys (fun y => { y with failed := f y.failed })) → s.TakenOut t n src ∧ t.sys.failed = f s.sys.failed := by
  intro t ht
  obtain ⟨c1, c2, c3, c4, c5, c6, c7, c8, c9⟩ := setReady_changes (s := s) (n := n) (on := false) hn (by rw [h]; decide)
  obtain ⟨z, hz, z0, z1, z2, z3, z4, -, -, z8, -, -, -, -, -, -, -, -, -, z5, -⟩ := logEvent_rest (s.setReady n false) .outOfService src n 0
  have hl := logged_event (s.setReady n false) .outOfService src n 0
  rw [hz] at ht hl
  obtain ⟨x, a, b, c, d, f1, g⟩ := hl
  refine ⟨⟨?_, fun i hi => ?_, fun hv => ?_, s.setReady n false, c3, x, a, b, c, d, ?_, ?_⟩, ?_⟩
  · rw [ht, c1]; rfl
  · rw [ht, ← c2 i hi]
    show flag (if i < 64 then z.ready0 else if i < 128 then z.ready1 else z.ready2) (i % 64) = _
    rw [z0, z1, z2]; rfl
  · rw [ht]
    show z.msiSent = _
    have h255 := hv 255 (by simp)
    rw [z5 (by decide) (by rw [c8]; exact h255), c4 (fun v hv' => by simp at hv'; rw [hv']; exact h255), List.append_assoc]; rfl
  · rw [ht]; exact f1
  · rw [ht]; exact g
  · rw [ht]
    show f z.failed = _
    rw [z8, c7]

theorem taken_out' {s : State} {n : Nat} (hn : n < 192) (h : s.isReady n = true) (src : Nat) :
    s.TakenOut ((s.setReady n false).logEvent .outOfService src n 0) n src := (taken_out hn h src id _ rfl).1

theorem bitOf_add (x i : Nat) : bitOf (if bitOf x i then x else x + 2 ^ i) i = true := by
  by_cases h : bitOf x i = true
  · rw [if_pos h]; exact h
  · rw [if_neg h]
    unfold bitOf at h ⊢
    rw [Nat.add_div_right _ (Nat.two_pow_pos i)]
    simp only [beq_iff_eq] at h ⊢
    omega

theorem readiness_rules :
    (∀ (s : State) (n : Nat), s.isReady 0 = true → s.sys.tripped = false → 0 < n → (n < 42 ∨ (64 ≤ n ∧ n < 192)) →
    (s.isReady n = true → s.sys.lval = true → exec (.selfTestPass n) s = .next s)
    ∧ (s.isReady n = false → s.sys.lval = true → ∃ t, exec (.selfTestPass n) s = .next t ∧ s.ReadyChange t n true)
    ∧ (s.isReady n = false → s.sys.lval = false → (∀ d < 8, s.isReady (2 + d) = false) → s.sys.powerAt + 500 * Config.tickMs ≤ s.time →
      ∃ t, exec (.selfTestPass n) s = .next t ∧ s.ReadyIs t n true ∧ (t.sys.lval = true ↔ 2 ≤ n ∧ n < 10) ∧ (2 ≤ n → n < 10 → t.sys.lead = n - 2)))
  ∧ (∀ (s : State), s.sys.lval = false → s.isReady 0 = true → s.sys.powerAt + 500 * Config.tickMs ≤ s.time →
    (∀ d < 8, s.isReady (2 + d) = true → (∀ c < d, s.isReady (2 + c) = false) →
      exec .leadDieChoice s = .next { s with sys := { s.sys with lead := d, lval := true } })
    ∧ ((∀ d < 8, s.isReady (2 + d) = false) → exec .leadDieChoice s = .next s))
  ∧ (∀ (s : State), (s.sys.lval = true ∨ s.time < s.sys.powerAt + 500 * Config.tickMs) → exec .leadDieChoice s = .next s)
  ∧ (∀ (s : State) (u : Nat), u < 16 → s.isReady (10 + u) = true → 1024 < Tab.get 0 s.sys.uncorrected u →
    ∃ t, exec (.outOfService 0 u) s = .next t ∧ s.TakenOut t (10 + u) (10 + u) ∧ bitOf t.sys.failed u = true)
  ∧ (∀ (s : State) (u since : Nat), u < 128 → s.isReady (64 + u) = true → (s.clusterAt (u / 16) (u % 16)).bad = some since →
    since + 100 * Config.tickMs ≤ s.time → ∃ t, exec (.outOfService 1 u) s = .next t ∧ s.TakenOut t (64 + u) (2 + u / 16))
  ∧ (∀ (s : State) (u since : Nat), u < 16 → s.isReady (26 + u) = true → (s.portAt u).downAt = some since →
    since + 10000 * Config.tickMs ≤ s.time → ∃ t, exec (.outOfService 2 u) s = .next t ∧ s.TakenOut t (26 + u) (26 + u)) := by
  refine ⟨fun s n h0 ht hn hu => readiness_rules_test s n h0 ht hn hu,
    fun s hl h0 ht => ⟨fun d hd hr hc => congrArg Host.Outcome.next ((chooseLead_open hl h0 ht).1 d hd hr hc), fun hd => congrArg Host.Outcome.next ((chooseLead_open hl h0 ht).2 hd)⟩,
    fun s h => congrArg Host.Outcome.next (chooseLead_done h), fun s u hu hr hc => ?_, fun s u since hu hr hb ht => ?_, fun s u since hu hr hb ht => ?_⟩
  · have := taken_out (s := s) (n := 10 + u) (by omega) hr (10 + u) (fun x => if bitOf x u then x else x + 2 ^ u) _ rfl
    refine ⟨_, ?_, this.1, ?_⟩
    · show execOutOfService 0 u s = _
      unfold execOutOfService
      dsimp only
      rw [if_pos rfl]
      rw [show s.isReady (readyStack u) = true from hr, if_pos rfl]
      refine congrArg Host.Outcome.next (if_pos ?_)
      rw [decide_eq_true hc, decide_eq_true hu]; rfl
    · rw [this.2]; exact bitOf_add _ _
  · have := taken_out' (s := s) (n := readyCluster (u / 16) (u % 16)) (by unfold readyCluster; omega) (by unfold readyCluster; rw [show 64 + 16 * (u / 16) + u % 16 = 64 + u by omega]; exact hr) (2 + u / 16)
    rw [show readyCluster (u / 16) (u % 16) = 64 + u by unfold readyCluster; omega] at this
    refine ⟨_, ?_, this⟩
    show execOutOfService 1 u s = _
    unfold execOutOfService
    dsimp only
    rw [if_neg (by decide), if_pos rfl, hb]
    dsimp only
    rw [if_pos ⟨hu, ht⟩, show readyCluster (u / 16) (u % 16) = 64 + u by unfold readyCluster; omega, hr]; rfl
  · have := taken_out' (s := s) (n := 26 + u) (by omega) hr (26 + u)
    refine ⟨_, ?_, this⟩
    show execOutOfService 2 u s = _
    unfold execOutOfService
    dsimp only
    rw [if_neg (by decide), if_neg (by decide), if_pos rfl]
    have hb' : (Tab.get Port.reset s.sys.ports u).downAt = some since := by
      have key : ∀ (t : Tab Port) (d e : Port), d.downAt = e.downAt → (Tab.get d t u).downAt = (Tab.get e t u).downAt := by
        intro t d e hde
        induction t with
        | nil => exact hde
        | cons x t ih =>
          simp only [Tab.get]
          by_cases hx : x.1 = u
          · rw [if_pos hx, if_pos hx]
          · rw [if_neg hx, if_neg hx]; exact ih
      exact (key s.sys.ports Port.reset { Port.reset with peer := u % 16 } rfl).trans hb
    rw [hb']
    dsimp only
    rw [if_pos ⟨hu, ht⟩, show s.isReady (readyPort u) = true from hr]; rfl

end Sys2Proof.Machine
end

