-- ==== Sys2Proof/Laws/FirmwareBanks.lean ====
section
/-! SUPPORT. Power-up, reset and firmware banks. -/

set_option Elab.async false

namespace Sys2Proof.Machine

theorem bank_good (b : Bank) (r : Nat) : b.good r = true ↔ b.Passes r := by
  unfold Bank.good Bank.Passes Bank.header
  simp only [Bool.and_eq_true, beq_iff_eq, decide_eq_true_eq, and_assoc]

theorem setReady_rollback (s : State) (n : Nat) (on : Bool) : (s.setReady n on).sys.rollback = s.sys.rollback := by
  have hm : ∀ (t : State) v, (t.msix v).sys.rollback = t.sys.rollback := by
    intro t v; unfold State.msix; split <;> rfl
  unfold State.setReady
  by_cases h : s.isReady n = on
  · rw [if_pos h]
  · rw [if_neg h]
    dsimp only
    rw [hm]
    obtain ⟨z, hz, -, -, -, -, -, -, -, -, -, -, -, -, -, z3, -, -, -, -, -⟩ := logEvent_rest (s.modSys (fun y =>
      if n < 64 then { y with ready0 := setBit y.ready0 (n % 64) on }
      else if n < 128 then { y with ready1 := setBit y.ready1 (n % 64) on } else { y with ready2 := setBit y.ready2 (n % 64) on })) .ready 0 n (b2n on)
    rw [hz]
    refine z3.trans ?_
    have : ∀ a b c : Sys, a.rollback = s.sys.rollback → b.rollback = s.sys.rollback → c.rollback = s.sys.rollback →
        (if n < 64 then a else if n < 128 then b else c).rollback = s.sys.rollback := by
      intro a b c ha hb hc; split
      · exact ha
      · split
        · exact hb
        · exact hc
    exact this _ _ _ rfl rfl rfl

theorem powered {s : State} (y : Sys) (hn : s.isReady 0 = false) (h1 : y.ready0 = s.sys.ready0) (h2 : y.ready1 = s.sys.ready1) (h3 : y.ready2 = s.sys.ready2) (x : Nat) :
    ∃ t, ((({ s with sys := y } : State).logEvent .firmware 0 1 x).setReady 0 true) = t ∧ s.OnlySys t ∧ s.ReadyIs t 0 true ∧ t.sys.powerAt = y.powerAt ∧ t.sys.rollback = y.rollback
      ∧ (({ s with sys := y } : State).logEvent .firmware 0 1 x).isReady 0 = false := by
  obtain ⟨z, hz, z0, z1, z2, -, -, -, -, -, -, -, -, -, -, z4, -, z3, -, -, -⟩ := logEvent_rest { s with sys := y } .firmware 0 1 x
  have hr : ∀ i, ({ s with sys := z } : State).isReady i = s.isReady i := by
    intro i
    unfold State.isReady
    show flag (if i < 64 then z.ready0 else if i < 128 then z.ready1 else z.ready2) _ = _
    rw [z0, z1, z2]
    show flag (if i < 64 then y.ready0 else if i < 128 then y.ready1 else y.ready2) _ = _
    rw [h1, h2, h3]
  rw [hz]
  have h0 : ({ s with sys := z } : State).isReady 0 = false := (hr 0).trans hn
  obtain ⟨c1, c2, c3, c4, c5, c6, c7, c8, c9⟩ := setReady_changes (s := { s with sys := z }) (n := 0) (on := true) (by omega) (by rw [h0]; decide)
  refine ⟨_, rfl, c1, fun i hi => ?_, c9.trans z3, (setReady_rollback _ _ _).trans z4, h0⟩
  rw [c2 i hi, hr]

theorem firmware_rules_power (s : State) (hn : s.isReady 0 = false) (ht : s.sys.tripped = false) :
    (∀ n, (n = s.sys.active ∧ (s.bankAt n).Passes s.sys.rollback) ∨ (n = 1 - s.sys.active ∧ ¬ (s.bankAt s.sys.active).Passes s.sys.rollback ∧ (s.bankAt n).Passes s.sys.rollback) →
      ∃ t, exec .powerGood s = .next t ∧ s.OnlySys t ∧ s.ReadyIs t 0 true ∧ t.sys.rollback = max s.sys.rollback (s.bankAt n).secver ∧ t.sys.powerAt = s.time)
    ∧ (¬ (s.bankAt s.sys.active).Passes s.sys.rollback → ¬ (s.bankAt (1 - s.sys.active)).Passes s.sys.rollback →
      ∃ t, exec .powerGood s = .next t ∧ s.OnlySys t ∧ t.isReady 0 = false ∧ t.sys.rollback = s.sys.rollback) := by
  have e : exec .powerGood s = .next (match (s.modSys (fun y => { y with powerAt := s.time, cap := { y.cap with beat := s.time } })).sys.bootBank with
      | none => (s.modSys (fun y => { y with powerAt := s.time, cap := { y.cap with beat := s.time } })).logEvent .firmware 0 0 0
      | some n => (((s.modSys (fun y => { y with powerAt := s.time, cap := { y.cap with beat := s.time } })).modSys
          (fun y => { y with rollback := max y.rollback (y.bank n).secver })).logEvent .firmware 0 1 n).setReady 0 true) := by
    show execPowerGood s = _
    unfold execPowerGood
    refine congrArg Host.Outcome.next (if_neg ?_)
    rw [hn, ht]; decide
  have hb : (s.modSys (fun y => { y with powerAt := s.time, cap := { y.cap with beat := s.time } })).sys.bootBank
      = if (s.bankAt s.sys.active).good s.sys.rollback then some s.sys.active
        else if (s.bankAt (1 - s.sys.active)).good s.sys.rollback then some (1 - s.sys.active) else none := rfl
  rw [e, hb]
  refine ⟨fun n hc => ?_, fun h1 h2 => ?_⟩
  · have hs : (if (s.bankAt s.sys.active).good s.sys.rollback then some s.sys.active
        else if (s.bankAt (1 - s.sys.active)).good s.sys.rollback then some (1 - s.sys.active) else none) = some n := by
      rcases hc with ⟨rfl, h⟩ | ⟨rfl, h, h'⟩
      · exact if_pos ((bank_good _ _).2 h)
      · exact (if_neg (fun h0 => h ((bank_good _ _).1 h0))).trans (if_pos ((bank_good _ _).2 h'))
    rw [hs]
    obtain ⟨t, et, h1, h2, h3, h4, h5⟩ := powered (s := s) { s.sys with powerAt := s.time, cap := { s.sys.cap with beat := s.time }, rollback := max s.sys.rollback (s.bankAt n).secver } hn rfl rfl rfl n
    exact ⟨t, congrArg Host.Outcome.next et, h1, h2, h4, h3⟩
  · have hs : (if (s.bankAt s.sys.active).good s.sys.rollback then some s.sys.active
        else if (s.bankAt (1 - s.sys.active)).good s.sys.rollback then some (1 - s.sys.active) else none) = none :=
      (if_neg (fun h0 => h1 ((bank_good _ _).1 h0))).trans (if_neg (fun h0 => h2 ((bank_good _ _).1 h0)))
    rw [hs]
    obtain ⟨z, hz, z0, z1, z2, -, -, -, -, -, -, -, -, -, -, z3, -, -, -, -, -⟩ := logEvent_rest (s.modSys (fun y => { y with powerAt := s.time, cap := { y.cap with beat := s.time } })) .firmware 0 0 0
    refine ⟨_, rfl, ?_, ?_, ?_⟩
    · rw [hz]; rfl
    · rw [hz]
      show flag z.ready0 0 = false
      rw [z0]; exact hn
    · rw [hz]; exact z3

theorem updAt_getD_ne {α : Type} (f : α → α) (l : List α) (i j : Nat) (d : α) (h : i ≠ j) : (updAt f l i).getD j d = l.getD j d := by
  induction l generalizing i j with
  | nil => cases i <;> rfl
  | cons a l ih => cases i with
    | zero => cases j with
      | zero => exact absurd rfl h
      | succ j => rfl
    | succ i => cases j with
      | zero => rfl
      | succ j => simpa [updAt] using ih i j (by omega)

theorem restart_restarted {s : State} (hm : Memory.wf s.mem = true) : s.Restarted s.restart := by
  have e : ∀ k, Memory.rd (s.mem.filter (fun e => outsideKey e.1)) k = if outsideKey k then Memory.rd s.mem k else Memory.blank := rd_filter outsideKey s.mem hm
  refine ⟨⟨rfl, rfl, rfl, rfl, rfl, rfl, fun k h1 h2 => ?_, fun k h1 => ?_⟩, fun i hi => ?_, ?_, ?_, ?_, ?_, fun ha => ?_, fun hs => ?_, rfl, rfl, rfl, rfl, rfl⟩
  · refine (e k).trans (if_pos ?_)
    unfold outsideKey
    rw [decide_eq_true h1, decide_eq_true h2]; rfl
  · refine (e k).trans (if_neg ?_)
    unfold outsideKey
    intro h2
    simp only [Bool.and_eq_true, decide_eq_true_eq] at h2
    exact h1 h2
  · show flag (if i < 64 then 0 else if i < 128 then 0 else 0) (i % 64) = false
    rw [show (if i < 64 then (0 : Word) else if i < 128 then 0 else 0) = 0 by simp]
    exact flag_zero _
  · show s.sys.endStage.log = _
    unfold Sys.endStage; cases s.sys.stage <;> rfl
  · show s.sys.endStage.logSeq = _
    unfold Sys.endStage; cases s.sys.stage <;> rfl
  · show s.sys.endStage.rollback = _
    unfold Sys.endStage; cases s.sys.stage <;> rfl
  · show s.sys.endStage.active = _
    unfold Sys.endStage; cases s.sys.stage <;> rfl
  · show s.sys.endStage.banks.getD s.sys.active ⟨0, 0, [], [], []⟩ = _
    unfold Sys.endStage
    cases s.sys.stage with
    | none => rfl
    | some x => exact updAt_getD_ne _ _ _ _ _ (by omega)
  · show s.sys.endStage.banks = _
    unfold Sys.endStage; rw [hs]

theorem firmware_rules_stage (s : State) (off : Nat) (d : List Byte) (hd : d ≠ []) :
    (s.sys.stage = none → ∃ t, exec (.pldmFirmwareUpdate off d) s = .next t ∧ s.OnlySys t ∧ t.sys.stage = some (List.replicate off 0 ++ d) ∧ t.sys.banks = s.sys.banks
      ∧ t.sys.active = s.sys.active ∧ t.sys.i3c = s.sys.i3c ++ [[0]])
    ∧ (∀ x, s.sys.stage = some x → off = 0 → ∃ t, exec (.pldmFirmwareUpdate off d) s = .next t ∧ s.OnlySys t ∧ t.sys.stage = some x ∧ t.sys.i3c = s.sys.i3c ++ [[2]])
    ∧ (∀ x, s.sys.stage = some x → off = x.length → 0 < off → ∃ t, exec (.pldmFirmwareUpdate off d) s = .next t ∧ s.OnlySys t ∧ t.sys.stage = some (x ++ d)
      ∧ t.sys.i3c = s.sys.i3c ++ [[0]]) := by
  have e : exec (.pldmFirmwareUpdate off d) s = .next ((s.stageChunk off d).1.i3cReply [BitVec.ofNat 8 (s.stageChunk off d).2]) := by
    show execPldmFirmwareUpdate off d s = _
    unfold execPldmFirmwareUpdate
    cases d with
    | nil => exact absurd rfl hd
    | cons b d => rfl
  rw [e]
  refine ⟨fun hs => ?_, fun x hs h0 => ?_, fun x hs h0 h1 => ?_⟩
  · have : s.stageChunk off d = (s.modSys (fun y => { y with stage := some (List.replicate off 0 ++ d) }), 0) := by
      unfold State.stageChunk; rw [hs]
    rw [this]
    exact ⟨_, rfl, rfl, rfl, rfl, rfl, rfl⟩
  · have : s.stageChunk off d = (s, 2) := by
      unfold State.stageChunk; rw [hs]; exact if_pos h0
    rw [this]
    exact ⟨_, rfl, rfl, hs, rfl⟩
  · have : s.stageChunk off d = (s.modSys (fun y => { y with stage := some (x ++ d) }), 0) := by
      unfold State.stageChunk; rw [hs]
      dsimp only
      rw [if_neg (by omega), h0]
      have : List.drop (x.length + d.length) x = [] := List.drop_of_length_le (by omega)
      simp [this]
    rw [this]
    exact ⟨_, rfl, rfl, rfl, rfl⟩

theorem firmware_rules_activate (s : State) (off : Nat) (x : List Byte) (hr : s.isReady 0 = true) (hs : s.sys.stage = some x) (hl : s.sys.banks.length = 2) (ha : s.sys.active < 2) :
    ∃ t, exec (.pldmFirmwareUpdate off []) s = .next t
    ∧ s.OnlySys t ∧ t.sys.stage = none ∧ t.sys.rollback = s.sys.rollback ∧ t.bankAt (1 - s.sys.active) = bankOf x ∧ t.bankAt s.sys.active = s.bankAt s.sys.active
    ∧ ((bankOf x).Passes s.sys.rollback → t.sys.active = 1 - s.sys.active ∧ t.sys.i3c = s.sys.i3c ++ [[0]])
    ∧ (¬ (bankOf x).Passes s.sys.rollback → t.sys.active = s.sys.active ∧ t.sys.i3c = s.sys.i3c ++ [[3]]) := by
  have e : exec (.pldmFirmwareUpdate off []) s = .next (s.activate.1.i3cReply [BitVec.ofNat 8 s.activate.2]) := by
    show execPldmFirmwareUpdate off [] s = _
    unfold execPldmFirmwareUpdate
    refine congrArg Host.Outcome.next ((if_pos rfl).trans ?_)
    rw [hr]; rfl
  rw [e]
  have hy : s.sys.endStage = { s.sys with stage := none, banks := updAt (fun _ => bankOf x) s.sys.banks (1 - s.sys.active) } := by
    unfold Sys.endStage; rw [hs]
  have hb : ({ s.sys with stage := none, banks := updAt (fun _ => bankOf x) s.sys.banks (1 - s.sys.active) } : Sys).bank (1 - s.sys.active) = bankOf x := by
    unfold Sys.bank
    dsimp only
    rw [List.getD_eq_getElem?_getD, updAt_get?, List.getElem?_eq_getElem (by omega)]; rfl
  have hb2 : (updAt (fun _ => bankOf x) s.sys.banks (1 - s.sys.active)).getD s.sys.active ⟨0, 0, [], [], []⟩ = s.bankAt s.sys.active := updAt_getD_ne _ _ _ _ _ (by omega)
  have hact : s.activate = if (bankOf x).good s.sys.rollback then
      ((({ s with sys := { s.sys with stage := none, banks := updAt (fun _ => bankOf x) s.sys.banks (1 - s.sys.active) } } : State).modSys
        (fun y => { y with active := 1 - s.sys.active })).logEvent .firmware 0 2 (1 - s.sys.active), 0)
      else ({ s with sys := { s.sys with stage := none, banks := updAt (fun _ => bankOf x) s.sys.banks (1 - s.sys.active) } }, 3) := by
    unfold State.activate
    rw [hs]
    dsimp only
    have : s.modSys Sys.endStage = { s with sys := { s.sys with stage := none, banks := updAt (fun _ => bankOf x) s.sys.banks (1 - s.sys.active) } } := by
      unfold State.modSys; rw [hy]
    rw [this]
    dsimp only
    rw [hb]
  rw [hact]
  by_cases hg : (bankOf x).good s.sys.rollback = true
  · rw [if_pos hg]
    obtain ⟨z, hz, -, -, -, -, -, -, -, -, -, -, -, z1, z2, z3, z4, -, z5, -, -⟩ := logEvent_rest (({ s with sys := { s.sys with stage := none, banks := updAt (fun _ => bankOf x) s.sys.banks (1 - s.sys.active) } } : State).modSys (fun y => { y with active := 1 - s.sys.active })) .firmware 0 2 (1 - s.sys.active)
    rw [hz]
    refine ⟨_, rfl, rfl, z4, z3, ?_, ?_, fun _ => ⟨z2, ?_⟩, fun h => absurd ((bank_good _ _).1 hg) h⟩
    · show z.banks.getD _ _ = _
      rw [z1]; exact hb
    · show z.banks.getD _ _ = _
      rw [z1]; exact hb2
    · show z.i3c ++ [[0]] = _
      rw [z5]; rfl
  · rw [if_neg hg]
    exact ⟨_, rfl, rfl, rfl, rfl, hb, hb2, fun h => absurd ((bank_good _ _).2 h) hg, fun _ => ⟨rfl, rfl⟩⟩

theorem firmware_rules :
    (∀ (s : State), s.isReady 0 = false → s.sys.tripped = false →
    (∀ n, (n = s.sys.active ∧ (s.bankAt n).Passes s.sys.rollback) ∨ (n = 1 - s.sys.active ∧ ¬ (s.bankAt s.sys.active).Passes s.sys.rollback ∧ (s.bankAt n).Passes s.sys.rollback) →
      ∃ t, exec .powerGood s = .next t ∧ s.OnlySys t ∧ s.ReadyIs t 0 true ∧ t.sys.rollback = max s.sys.rollback (s.bankAt n).secver ∧ t.sys.powerAt = s.time)
    ∧ (¬ (s.bankAt s.sys.active).Passes s.sys.rollback → ¬ (s.bankAt (1 - s.sys.active)).Passes s.sys.rollback →
      ∃ t, exec .powerGood s = .next t ∧ s.OnlySys t ∧ t.isReady 0 = false ∧ t.sys.rollback = s.sys.rollback))
  ∧ (∀ (s : State), Memory.wf s.mem = true → (∃ t, exec .reset s = .next t ∧ s.Restarted t) ∧ (∃ t, exec .powerLoss s = .next t ∧ s.Restarted t))
  ∧ (∀ (s : State) (off : Nat) (d : List Byte), d ≠ [] →
    (s.sys.stage = none → ∃ t, exec (.pldmFirmwareUpdate off d) s = .next t ∧ s.OnlySys t ∧ t.sys.stage = some (List.replicate off 0 ++ d) ∧ t.sys.banks = s.sys.banks
      ∧ t.sys.active = s.sys.active ∧ t.sys.i3c = s.sys.i3c ++ [[0]])
    ∧ (∀ x, s.sys.stage = some x → off = 0 → ∃ t, exec (.pldmFirmwareUpdate off d) s = .next t ∧ s.OnlySys t ∧ t.sys.stage = some x ∧ t.sys.i3c = s.sys.i3c ++ [[2]])
    ∧ (∀ x, s.sys.stage = some x → off = x.length → 0 < off → ∃ t, exec (.pldmFirmwareUpdate off d) s = .next t ∧ s.OnlySys t ∧ t.sys.stage = some (x ++ d)
      ∧ t.sys.i3c = s.sys.i3c ++ [[0]]))
  ∧ (∀ (s : State) (off : Nat) (x : List Byte), s.isReady 0 = true → s.sys.stage = some x → s.sys.banks.length = 2 → s.sys.active < 2 → ∃ t, exec (.pldmFirmwareUpdate off []) s = .next t
    ∧ s.OnlySys t ∧ t.sys.stage = none ∧ t.sys.rollback = s.sys.rollback ∧ t.bankAt (1 - s.sys.active) = bankOf x ∧ t.bankAt s.sys.active = s.bankAt s.sys.active
    ∧ ((bankOf x).Passes s.sys.rollback → t.sys.active = 1 - s.sys.active ∧ t.sys.i3c = s.sys.i3c ++ [[0]])
    ∧ (¬ (bankOf x).Passes s.sys.rollback → t.sys.active = s.sys.active ∧ t.sys.i3c = s.sys.i3c ++ [[3]])) := 
  ⟨firmware_rules_power, fun s hm => ⟨⟨_, rfl, restart_restarted hm⟩, ⟨_, rfl, restart_restarted hm⟩⟩, firmware_rules_stage, firmware_rules_activate⟩

end Sys2Proof.Machine
end

