-- ==== Sys2Proof/Laws/PowerCaps.lean ====
section
/-! SUPPORT. Power caps, logs and reports. -/

set_option Elab.async false

namespace Sys2Proof.Machine

theorem putCap_is (s : State) (c : Cap) (h : c.todo = s.sys.cap.todo) : s.CapIs (s.putCap c) c := by
  unfold State.putCap
  by_cases hf : c.force = s.sys.cap.force
  · rw [if_pos hf]
    exact ⟨rfl, rfl, fun _ => ⟨rfl, h⟩, fun h0 => absurd hf h0⟩
  · rw [if_neg hf]
    have hl := logged_event (s.modSys (fun y => { y with cap := { c with todo := some (c.todo.getD s.time) } })) .cap 0 c.force 0
    obtain ⟨z, hz, -, -, -, -, -, -, -, -, -, -, z1, -, -, -, -, -, -, -, -⟩ :=
      logEvent_rest (s.modSys (fun y => { y with cap := { c with todo := some (c.todo.getD s.time) } })) .cap 0 c.force 0
    rw [hz] at hl ⊢
    refine ⟨rfl, ?_, fun h0 => absurd h0 hf, fun _ => ⟨hl, ?_⟩⟩
    · show z.cap = { c with todo := z.cap.todo }
      rw [z1]; rfl
    · show z.cap.todo = _
      rw [z1, ← h]; rfl

theorem capMessage_cases (s : State) (q w d : Nat) (hd : d = (q + 2 ^ 32 - s.sys.cap.last) % 2 ^ 32) (hq : q < 2 ^ 32) :
    (1 ≤ d → d ≤ 2 ^ 31 - 1 → (s.capMessage q w).1 = s.putCap { s.sys.cap with last := q, cap := max 680 (min 3400 w), beat := s.time, fallen := false })
    ∧ (d = 0 → (s.capMessage q w).1 = s.putCap { s.sys.cap with beat := s.time }) ∧ (2 ^ 31 ≤ d → (s.capMessage q w).1 = s) := by
  have e := capMessage_eq s q w d hd.symm
  rw [e]
  refine ⟨fun h1 h2 => ?_, fun h0 => ?_, fun h0 => ?_⟩
  · rw [if_neg (by omega), if_pos (by omega), Nat.mod_eq_of_lt hq]
  · rw [if_pos h0]
  · rw [if_neg (by omega), if_neg (by omega)]

theorem clusterAt_set' (s : State) (d c e f : Nat) (k : Cluster) : (s.setClusterAt d c k).clusterAt e f = if clusterKey e f = clusterKey d c then k else s.clusterAt e f := by
  unfold State.setClusterAt State.clusterAt
  exact Tab.get_set _ _ _ _ _

/-- The new budget of the first n clusters. -/
theorem budgets (b : Nat) (s : State) (n : Nat) : ∀ t, t = (List.range n).foldl (fun s n => s.setClusterAt (n / 16) (n % 16) { s.clusterAt (n / 16) (n % 16) with bud := b }) s →
    s.OnlySys t ∧ t.sys.cap = s.sys.cap ∧ (∀ d c, c < 16 → t.clusterAt d c = if 16 * d + c < n then { s.clusterAt d c with bud := b } else s.clusterAt d c) := by
  induction n with
  | zero => intro t ht; subst ht; exact ⟨rfl, rfl, fun d c hc => (if_neg (by omega)).symm⟩
  | succ n ih =>
    intro t ht
    rw [List.range_succ, List.foldl_append] at ht
    obtain ⟨h1, h2, h3⟩ := ih _ rfl
    generalize (List.range n).foldl (fun s n => s.setClusterAt (n / 16) (n % 16) { s.clusterAt (n / 16) (n % 16) with bud := b }) s = u at *
    subst ht
    refine ⟨?_, h2, fun d c hc => ?_⟩
    · show ({ u with sys := _ } : State) = _
      rw [h1]; rfl
    · show (u.setClusterAt (n / 16) (n % 16) { u.clusterAt (n / 16) (n % 16) with bud := b }).clusterAt d c = _
      rw [clusterAt_set']
      unfold clusterKey
      by_cases h : d * 16 + c = n / 16 * 16 + n % 16
      · have e1 : n / 16 = d := by omega
        have e2 : n % 16 = c := by omega
        rw [if_pos h, if_pos (by omega), e1, e2, h3 d c hc, if_neg (by omega)]
      · rw [if_neg h, h3 d c hc]
        by_cases h' : 16 * d + c < n
        · rw [if_pos h', if_pos (by omega)]
        · rw [if_neg h', if_neg (by omega)]

theorem caps_rules :
    (∀ (s : State) (q w d : Nat), d = (q + 2 ^ 32 - s.sys.cap.last) % 2 ^ 32 → q < 2 ^ 32 →
    (s.isReady 0 = true → 1 ≤ d → d ≤ 2 ^ 31 - 1 → ∃ t, exec (.oemCapMessage q w) s = .next t
      ∧ s.CapIs t { s.sys.cap with last := q, cap := max 680 (min 3400 w), beat := s.time, fallen := false })
    ∧ (s.isReady 0 = true → d = 0 → ∃ t, exec (.oemCapMessage q w) s = .next t ∧ s.CapIs t { s.sys.cap with beat := s.time })
    ∧ (2 ^ 31 ≤ d ∨ s.isReady 0 = false → exec (.oemCapMessage q w) s = .next s))
  ∧ (∀ (s : State), s.sys.cap.fallen = false →
    (s.sys.cap.beat + 500 * Config.tickMs ≤ s.time → ∃ t, exec .capFallback s = .next t ∧ s.CapIs t { s.sys.cap with fallen := true })
    ∧ (s.time < s.sys.cap.beat + 500 * Config.tickMs → exec .capFallback s = .next s))
  ∧ (∀ (s : State) (since : Nat), s.sys.cap.todo = some since → ∃ t, exec .budgetUpdate s = .next t ∧ s.OnlySys t ∧ t.sys.cap = { s.sys.cap with todo := none }
    ∧ (∀ d c, d < 8 → c < 16 → t.clusterAt d c = { s.clusterAt d c with bud := 20000 * s.sys.cap.inForce / 3400 })) := by
  refine ⟨fun s q w d hd hq => ?_, fun s hf => ⟨fun ht => ?_, fun ht => ?_⟩, fun s since hs => ?_⟩
  · obtain ⟨h1, h2, h3⟩ := capMessage_cases s q w d hd hq
    exact ⟨fun r a b => ⟨_, congrArg Host.Outcome.next ((if_pos r).trans (h1 a b)), putCap_is s _ rfl⟩,
      fun r a => ⟨_, congrArg Host.Outcome.next ((if_pos r).trans (h2 a)), putCap_is s _ rfl⟩,
      fun a => congrArg Host.Outcome.next (by
        cases hr : s.isReady 0
        · exact if_neg (by decide)
        · exact (if_pos rfl).trans (h3 (a.resolve_right (by rw [hr]; decide))))⟩
  · refine ⟨_, congrArg Host.Outcome.next (if_pos ?_), putCap_is s _ rfl⟩
    rw [hf, decide_eq_true ht]; rfl
  · refine congrArg Host.Outcome.next (if_neg ?_)
    rw [hf, decide_eq_false (by omega)]; decide
  · have e : ∀ b, b = 20000 * s.sys.cap.force / 3400 → exec .budgetUpdate s = .next ((List.range 128).foldl (fun s n => s.setClusterAt (n / 16) (n % 16) { s.clusterAt (n / 16) (n % 16) with bud := b })
        (s.modSys (fun y => { y with cap := { y.cap with todo := none } }))) := by
      intro b hb
      show execBudgetUpdate s = _
      unfold execBudgetUpdate
      rw [hs, hb]
    obtain ⟨h1, h2, h3⟩ := budgets (20000 * s.sys.cap.force / 3400) (s.modSys (fun y => { y with cap := { y.cap with todo := none } })) 128 _ rfl
    refine ⟨_, e _ rfl, ?_, h2, fun d c hd hc => ?_⟩
    · rw [h1]; rfl
    · rw [h3 d c hc, if_pos (by omega)]; rfl

theorem msix_corrected (t : State) (v : Nat) : (t.msix v).sys.corrected = t.sys.corrected := by
  unfold State.msix; split <;> rfl

theorem logEvent_corrected (s : State) (k : LogKind) (src x y : Nat) : (s.logEvent k src x y).sys.corrected = s.sys.corrected := by
  unfold State.logEvent State.logWith
  dsimp only
  by_cases h : 2 ≤ k.sev
  · rw [if_pos h]; exact msix_corrected _ _
  · rw [if_neg h]

theorem correctedLog (c : List (Nat × Nat)) (s : State) (h : s.sys.log.length + c.length ≤ 65536) : ∀ t, t = c.foldl (fun s e => s.logEvent .corrected e.1 e.2 0) s →
    s.OnlySys t ∧ t.sys.corrected = s.sys.corrected ∧ ∃ l, t.sys.log = s.sys.log ++ l ∧ l.map (fun e => (e.sev, e.src)) = c.map (fun c => (1, c.1)) := by
  induction c generalizing s with
  | nil => intro t ht; subst ht; exact ⟨rfl, rfl, [], by simp, rfl⟩
  | cons e c ih =>
    intro t ht
    rw [List.foldl_cons] at ht
    obtain ⟨x, a, b, _, _, f, _⟩ := logged_event s .corrected e.1 e.2 0
    obtain ⟨z, hz, -⟩ := logEvent_rest s .corrected e.1 e.2 0
    have hc := logEvent_corrected s .corrected e.1 e.2 0
    simp only [List.length_cons] at h
    rw [if_neg (by omega)] at f
    obtain ⟨h1, h2, l, h3, h4⟩ := ih (s.logEvent .corrected e.1 e.2 0) (by rw [f]; simp; omega) t ht
    refine ⟨?_, h2.trans hc, x :: l, ?_, ?_⟩
    · show t = _
      rw [h1, hz]
    · rw [h3, f, List.append_assoc]; rfl
    · rw [List.map_cons, List.map_cons, h4, a, b]; rfl

theorem reports_rules :
    (∀ (s : State), s.sys.log.length + s.sys.corrected.length ≤ 65536 → ∃ t l, exec .correctedCountLog s = .next t ∧ s.OnlySys t ∧ t.sys.log = s.sys.log ++ l
    ∧ l.map (fun e => (e.sev, e.src)) = s.sys.corrected.map (fun c => (1, c.1)) ∧ t.sys.corrected = s.sys.corrected)
  ∧ (∀ (s : State) (a : Nat), a < Config.devBytes → ∃ t v, exec (.scrubFinding a) s = .next t ∧ s.OnlySys t ∧ s.LoggedBy t v (10 + State.stackOf a))
  ∧ (∀ (s : State), s.isReady 0 = true → (∀ x n, x < 2 ^ 32 → n < 2 ^ 32 →
      exec (.pldmMonitoring true (W (n * 2 ^ 32 + x))) s = .next { s with sys := { s.sys with i3c := s.sys.i3c ++ [s.entries x n] } })
    ∧ (∀ w, exec (.pldmMonitoring false w) s = .next { s with sys := { s.sys with i3c := s.sys.i3c ++ [Config.readingsBytes s.readings] } })
    ∧ (∀ x, exec (.spdmAttestation x) s = .next { s with sys := { s.sys with i3c := s.sys.i3c ++ [s.report x] } }))
  ∧ (∀ (s : State), s.isReady 0 = false → (∀ b w, exec (.pldmMonitoring b w) s = .next s) ∧ (∀ x, exec (.spdmAttestation x) s = .next s)) := by
  refine ⟨fun s h => ?_, fun s a ha => ?_, fun s hr => ⟨fun x n hx hn => ?_, fun w => ?_, fun x => ?_⟩, fun s hr => ⟨fun b w => ?_, fun x => ?_⟩⟩
  · obtain ⟨h1, h2, l, h3, h4⟩ := correctedLog s.sys.corrected s h _ rfl
    exact ⟨_, l, rfl, h1, h3, h4, h2⟩
  · have hl := logged_event s .scrub (logSrc a) a 0
    have he : logSrc a = 10 + State.stackOf a := if_pos ha
    obtain ⟨z, hz, -⟩ := logEvent_rest s .scrub (logSrc a) a 0
    refine ⟨s.logEvent .scrub (logSrc a) a 0, LogKind.scrub.sev, rfl, ?_, ?_⟩
    · rw [hz]; rfl
    · rw [he] at hl ⊢; exact hl
  · show execPldmMonitoring true _ s = _
    unfold execPldmMonitoring
    have e1 : fld (W (n * 2 ^ 32 + x)) 31 0 = x := by
      unfold fld bitsOf W
      rw [BitVec.toNat_ofNat, Nat.mod_eq_of_lt (by omega : n * 2 ^ 32 + x < 2 ^ 64)]
      simp only [Nat.reduceAdd, Nat.reduceSub, Nat.reducePow]
      omega
    have e2 : fld (W (n * 2 ^ 32 + x)) 63 32 = n := by
      unfold fld bitsOf W
      rw [BitVec.toNat_ofNat, Nat.mod_eq_of_lt (by omega : n * 2 ^ 32 + x < 2 ^ 64)]
      simp only [Nat.reduceAdd, Nat.reduceSub, Nat.reducePow]
      omega
    rw [hr, e1, e2]; rfl
  · show execPldmMonitoring false _ s = _
    unfold execPldmMonitoring
    rw [hr]; rfl
  · show execSpdmAttestation _ s = _
    unfold execSpdmAttestation
    rw [hr]; rfl
  · show execPldmMonitoring _ _ s = _
    unfold execPldmMonitoring
    rw [hr]; rfl
  · show execSpdmAttestation _ s = _
    unfold execSpdmAttestation
    rw [hr]; rfl

end Sys2Proof.Machine
end

