-- ==== Sys2Proof/Laws/TraceFlits.lean ====
section
/-! SUPPORT. Flits of a Trace port. -/

set_option Elab.async false

namespace Sys2Proof.Machine

theorem choose_pick (f : Nat → Nat) : ∀ r, r = [1, 2, 3, 4].foldl (fun (best : Nat × Nat) m => if 4 ≤ f m ∧ best.2 < f m then (m, f m) else best) (0, 0) →
    (r.1 = 0 ∧ ∀ k, 1 ≤ k → k ≤ 4 → f k < 4)
    ∨ (1 ≤ r.1 ∧ r.1 ≤ 4 ∧ r.2 = f r.1 ∧ 4 ≤ r.2 ∧ (∀ k, 1 ≤ k → k ≤ 4 → f k ≤ r.2) ∧ (∀ k, 1 ≤ k → k < r.1 → f k < r.2)) := by
  intro r hr
  have key : ∀ n ≤ 4, ∀ q, q = ((List.range n).map (· + 1)).foldl (fun (best : Nat × Nat) m => if 4 ≤ f m ∧ best.2 < f m then (m, f m) else best) (0, 0) →
      (q.1 = 0 ∧ q.2 = 0 ∧ ∀ k, 1 ≤ k → k ≤ n → f k < 4)
      ∨ (1 ≤ q.1 ∧ q.1 ≤ n ∧ q.2 = f q.1 ∧ 4 ≤ q.2 ∧ (∀ k, 1 ≤ k → k ≤ n → f k ≤ q.2) ∧ (∀ k, 1 ≤ k → k < q.1 → f k < q.2)) := by
    intro n
    induction n with
    | zero => intro _ q hq; subst hq; exact .inl ⟨rfl, rfl, fun k h1 h2 => by omega⟩
    | succ n ih =>
      intro hn q hq
      rw [List.range_succ, List.map_append, List.foldl_append] at hq
      obtain ⟨b, hb⟩ : ∃ b, b = ((List.range n).map (· + 1)).foldl (fun (best : Nat × Nat) m => if 4 ≤ f m ∧ best.2 < f m then (m, f m) else best) (0, 0) := ⟨_, rfl⟩
      rw [← hb] at hq
      have ih := ih (by omega) _ hb
      simp only [List.map_cons, List.map_nil, List.foldl_cons, List.foldl_nil] at hq
      by_cases hc : 4 ≤ f (n + 1) ∧ b.2 < f (n + 1)
      · rw [if_pos hc] at hq
        subst hq
        refine .inr ⟨by show 1 ≤ n + 1; omega, by show n + 1 ≤ n + 1; omega, rfl, hc.1, fun k h1 h2 => ?_, fun k h1 h2 => ?_⟩
        · show f k ≤ f (n + 1)
          by_cases hk : k = n + 1
          · subst hk; exact Nat.le_refl _
          · rcases ih with ⟨_, _, h⟩ | ⟨_, _, _, _, h, _⟩
            · have := h k h1 (by omega); omega
            · have := h k h1 (by omega); omega
        · show f k < f (n + 1)
          have hk : k < n + 1 := h2
          rcases ih with ⟨_, _, h⟩ | ⟨_, _, _, _, h, _⟩
          · have := h k h1 (by omega); omega
          · have := h k h1 (by omega); omega
      · rw [if_neg hc] at hq
        subst hq
        rcases ih with ⟨a, a', h⟩ | ⟨a, a', c, d, h, h'⟩
        · refine .inl ⟨a, a', fun k h1 h2 => ?_⟩
          by_cases hk : k = n + 1
          · subst hk
            by_cases h4 : 4 ≤ f (n + 1)
            · exact absurd ⟨h4, by omega⟩ hc
            · omega
          · exact h k h1 (by omega)
        · refine .inr ⟨a, by omega, c, d, fun k h1 h2 => ?_, h'⟩
          by_cases hk : k = n + 1
          · subst hk
            by_cases h4 : 4 ≤ f (n + 1)
            · by_cases h5 : q.2 < f (n + 1)
              · exact absurd ⟨h4, h5⟩ hc
              · omega
            · omega
          · exact h k h1 (by omega)
  rcases key 4 (by omega) r hr with ⟨a, _, b⟩ | h
  · exact .inl ⟨a, b⟩
  · exact .inr h

theorem chooseModel_codes (p : Port) (vn : Nat) (x : List Byte) : p.Codes vn (chooseModel p vn x).1 (chooseModel p vn x).2 x :=
  choose_pick (fun m => p.fit vn m x) _ rfl

theorem sendData_fields (p : Port) (vn : Nat) (x : List Byte) : ∀ m b k, chooseModel p vn x = (m, b) → k = (if m = 0 then min 240 x.length else 64 * b) →
    ∀ t, t = p.sendData vn x → t.raw = (p.raw + k) % 2 ^ 64 ∧ t.cod = (p.cod + 240) % 2 ^ 64 ∧ t.txSeq = (p.txSeq + 1) % 4096 ∧ t.txCount = p.txCount + 1
      ∧ Tab.get [] t.out vn = x.drop k ∧ Tab.get 0 t.credits vn = Tab.get 0 p.credits vn + 1 ∧ t.unacked = p.unacked ++ [⟨p.txSeq, vn, 0, m, x.take k⟩] ∧ t.tables = p.tables := by
  intro m b k hc hk t ht
  have e : t = { p.count 0 vn m (x.take k) with
      raw := (p.raw + k) % 2 ^ 64, cod := (p.cod + 240) % 2 ^ 64, txSeq := (p.txSeq + 1) % 4096, txCount := p.txCount + 1
      out := Tab.set p.out vn (x.drop k), credits := Tab.set p.credits vn (Tab.get 0 p.credits vn + 1)
      unacked := p.unacked ++ [⟨p.txSeq, vn, 0, m, x.take k⟩] } := by
    rw [ht]
    unfold Port.sendData
    rw [hc, hk]
  rw [e]
  refine ⟨rfl, rfl, rfl, rfl, by simp, by simp, rfl, ?_⟩
  show (p.count 0 vn m (x.take k)).tables = p.tables
  unfold Port.count
  by_cases h0 : m = 0
  · rw [if_pos h0]
  · rw [if_neg h0]

theorem count_rest (p : Port) (d v m : Nat) (x : List Byte) : p.count d v m x = { p with counts := (p.count d v m x).counts } := by
  unfold Port.count
  by_cases h0 : m = 0
  · rw [if_pos h0]
  · rw [if_neg h0]

theorem modPort_const (s : State) (n : Nat) (f : Port → Port) : s.modPort n f = s.modPort n (fun _ => f (s.portAt n)) := rfl

theorem trace_rules_send (s : State) (n : BitVec 4) : ∀ p, p = s.portAt n.toNat →
    (p.up = true → exec (.traceFlitSend n true) s = .next (s.modPort n.toNat (fun p => { p with rty := p.rty + p.unacked.length })))
    ∧ (p.up = false → ∀ b, exec (.traceFlitSend n b) s = .next s)
    ∧ (∀ vn x, p.up = true → vn < 4 → (∀ v < vn, Tab.get [] p.out v = []) → Tab.get [] p.out vn = x → x ≠ [] → p.txCount < 16 → ∃ m b,
      p.Codes vn m b x ∧ ∀ k, k = (if m = 0 then min 240 x.length else 64 * b) → ∃ t, exec (.traceFlitSend n false) s = .next (s.modPort n.toNat (fun _ => t))
        ∧ t.raw = (p.raw + k) % 2 ^ 64 ∧ t.cod = (p.cod + 240) % 2 ^ 64 ∧ t.txSeq = (p.txSeq + 1) % 4096 ∧ t.txCount = p.txCount + 1 ∧ Tab.get [] t.out vn = x.drop k
        ∧ Tab.get 0 t.credits vn = Tab.get 0 p.credits vn + 1 ∧ t.unacked = p.unacked ++ [⟨p.txSeq, vn, 0, m, x.take k⟩] ∧ t.tables = p.tables) := by
  intro p hp
  refine ⟨fun hu => ?_, fun hu b => ?_, fun vn x hu hv hb hx hne ht => ?_⟩
  · show execTraceFlitSend n true s = _
    unfold execTraceFlitSend
    dsimp only
    rw [← hp, hu]; rfl
  · show execTraceFlitSend n b s = _
    unfold execTraceFlitSend
    dsimp only
    rw [← hp, hu]; rfl
  · refine ⟨_, _, chooseModel_codes p vn x, fun k hk => ⟨p.sendData vn x, ?_, sendData_fields p vn x _ _ k rfl hk _ rfl⟩⟩
    show execTraceFlitSend n false s = _
    unfold execTraceFlitSend
    dsimp only
    rw [← hp, hu]
    have hf : (List.range 4).find? (fun v => !(Tab.get [] p.out v).isEmpty) = some vn := by
      rw [List.find?_range_eq_some]
      refine ⟨?_, List.mem_range.2 hv, fun j hj => by rw [hb j hj]; rfl⟩
      rw [hx]
      cases x with
      | nil => exact absurd rfl hne
      | cons a x => rfl
    rw [hf]
    dsimp only
    rw [if_neg (by decide), if_neg (by decide), if_neg (by omega), modPort_const, ← hp, hx]

theorem trace_rules_receive (s : State) (n : BitVec 4) : ∀ p, p = s.portAt n.toNat →
    (∀ c q v k m h d, (p.up = false ∨ c = false) → exec (.traceFlitReceive n c q v k m h d) s = .next s)
    ∧ (∀ q v m h d, p.up = true → p.rxCount < 16 → q < 4096 → v < 4 → m < 5 →
      (q ≠ p.rxSeq → exec (.traceFlitReceive n true q v 0 m h d) s = .next s)
      ∧ (q = p.rxSeq → ∃ t, exec (.traceFlitReceive n true q v 0 m h d) s = .next (s.modPort n.toNat (fun _ => t)) ∧ t.rxSeq = (q + 1) % 4096 ∧ t.rxCount = p.rxCount + 1
        ∧ Tab.get [] t.inn v = Tab.get [] p.inn v ++ d ∧ (∀ w ≠ v, Tab.get [] t.inn w = Tab.get [] p.inn w) ∧ (h ≠ 0 → h ≠ Config.tableHash p.tables → t.ask = true)
        ∧ (h = 0 ∨ h = Config.tableHash p.tables → t.ask = p.ask)))
    ∧ (∀ q v m h d pre f post, p.up = true → p.unacked = pre ++ f :: post → f.seq = q % 4096 → (∀ g ∈ pre, g.seq ≠ q % 4096) →
      ∃ t, exec (.traceFlitReceive n true q v 1 m h d) s = .next (s.modPort n.toNat (fun _ => t)) ∧ t.unacked = f :: post)
    ∧ (∀ q v m h d, p.up = true → exec (.traceFlitReceive n true q v 2 m h d) s = .next (s.modPort n.toNat (fun p =>
      { p with counts := [], tables := [], txCount := 0, rxCount := 0, ask := false, rsy := p.rsy + 1 }))) := by
  intro p hp
  refine ⟨fun c q v k m h d hc => ?_, fun q v m h d hu hr hq hv hm => ⟨fun hne => ?_, fun he => ?_⟩, fun q v m h d pre f post hu hl hf hg => ?_, fun q v m h d hu => ?_⟩
  · show execTraceFlitReceive n c q v k m h d s = _
    unfold execTraceFlitReceive
    dsimp only
    rw [← hp]
    refine congrArg Host.Outcome.next (if_pos ?_)
    rcases hc with hc | hc <;> rw [hc] <;> simp
  · show execTraceFlitReceive n true q v 0 m h d s = _
    unfold execTraceFlitReceive
    dsimp only
    rw [← hp, hu]
    refine congrArg Host.Outcome.next ((if_neg (by decide)).trans ((if_neg (by decide)).trans ((if_neg (by decide)).trans (if_neg ?_))))
    rw [Nat.mod_eq_of_lt hq]
    exact fun hx => hne hx.2.1
  · refine ⟨{ p.count 1 (v % 4) (m % 5) d with rxSeq := (p.rxSeq + 1) % 4096, rxCount := p.rxCount + 1
                                               inn := Tab.set p.inn (v % 4) (Tab.get [] p.inn (v % 4) ++ d)
                                               ask := p.ask || (h != 0 && h != Config.tableHash p.tables) }, ?_, ?_, rfl, ?_, ?_, ?_, ?_⟩
    · show execTraceFlitReceive n true q v 0 m h d s = _
      unfold execTraceFlitReceive
      dsimp only
      rw [← hp, hu]
      refine congrArg Host.Outcome.next ((if_neg (by decide)).trans ((if_neg (by decide)).trans ((if_neg (by decide)).trans ((if_pos ?_).trans ?_))))
      · exact ⟨rfl, by rw [Nat.mod_eq_of_lt hq]; exact he, hr⟩
      · rw [modPort_const, ← hp]
    · rw [he]
    · show Tab.get [] (Tab.set p.inn (v % 4) (Tab.get [] p.inn (v % 4) ++ d)) v = _
      rw [Nat.mod_eq_of_lt hv]; simp
    · intro w hw
      show Tab.get [] (Tab.set p.inn (v % 4) (Tab.get [] p.inn (v % 4) ++ d)) w = _
      rw [Nat.mod_eq_of_lt hv, Tab.get_set_ne _ _ _ hw]
    · intro h1 h2
      show (p.ask || (h != 0 && h != Config.tableHash p.tables)) = true
      rw [bne_iff_ne.2 h1, bne_iff_ne.2 h2]; simp
    · intro h1
      show (p.ask || (h != 0 && h != Config.tableHash p.tables)) = p.ask
      rcases h1 with h1 | h1 <;> rw [h1] <;> simp
  · have ht : p.unacked.takeWhile (fun g => g.seq != q % 4096) = pre := by
      rw [hl, List.takeWhile_append_of_pos (fun g hg' => bne_iff_ne.2 (hg g hg')), List.takeWhile_cons_of_neg (by rw [hf]; simp), List.append_nil]
    refine ⟨{ p with unacked := p.unacked.drop (p.unacked.takeWhile (fun f => f.seq != q % 4096)).length
                     credits := (p.unacked.takeWhile (fun f => f.seq != q % 4096)).foldl (fun t f => Tab.set t f.vn (Tab.get 0 t f.vn - 1)) p.credits }, ?_, ?_⟩
    · show execTraceFlitReceive n true q v 1 m h d s = _
      unfold execTraceFlitReceive
      dsimp only
      rw [← hp, hu]
      refine congrArg Host.Outcome.next ((if_neg (by decide)).trans ((if_pos rfl).trans ?_))
      rw [modPort_const, ← hp, hu]
    · show p.unacked.drop _ = _
      rw [ht, hl, List.drop_left]
  · show execTraceFlitReceive n true q v 2 m h d s = _
    unfold execTraceFlitReceive
    dsimp only
    rw [← hp, hu]
    exact congrArg Host.Outcome.next ((if_neg (by decide)).trans ((if_neg (by decide)).trans (if_pos rfl)))

theorem trace_rules :
    (∀ (s : State) (n : BitVec 4), ∀ p, p = s.portAt n.toNat →
    (p.up = true → exec (.traceFlitSend n true) s = .next (s.modPort n.toNat (fun p => { p with rty := p.rty + p.unacked.length })))
    ∧ (p.up = false → ∀ b, exec (.traceFlitSend n b) s = .next s)
    ∧ (∀ vn x, p.up = true → vn < 4 → (∀ v < vn, Tab.get [] p.out v = []) → Tab.get [] p.out vn = x → x ≠ [] → p.txCount < 16 → ∃ m b,
      p.Codes vn m b x ∧ ∀ k, k = (if m = 0 then min 240 x.length else 64 * b) → ∃ t, exec (.traceFlitSend n false) s = .next (s.modPort n.toNat (fun _ => t))
        ∧ t.raw = (p.raw + k) % 2 ^ 64 ∧ t.cod = (p.cod + 240) % 2 ^ 64 ∧ t.txSeq = (p.txSeq + 1) % 4096 ∧ t.txCount = p.txCount + 1 ∧ Tab.get [] t.out vn = x.drop k
        ∧ Tab.get 0 t.credits vn = Tab.get 0 p.credits vn + 1 ∧ t.unacked = p.unacked ++ [⟨p.txSeq, vn, 0, m, x.take k⟩] ∧ t.tables = p.tables))
  ∧ (∀ (s : State) (n : BitVec 4), ∀ p, p = s.portAt n.toNat →
    (∀ c q v k m h d, (p.up = false ∨ c = false) → exec (.traceFlitReceive n c q v k m h d) s = .next s)
    ∧ (∀ q v m h d, p.up = true → p.rxCount < 16 → q < 4096 → v < 4 → m < 5 →
      (q ≠ p.rxSeq → exec (.traceFlitReceive n true q v 0 m h d) s = .next s)
      ∧ (q = p.rxSeq → ∃ t, exec (.traceFlitReceive n true q v 0 m h d) s = .next (s.modPort n.toNat (fun _ => t)) ∧ t.rxSeq = (q + 1) % 4096 ∧ t.rxCount = p.rxCount + 1
        ∧ Tab.get [] t.inn v = Tab.get [] p.inn v ++ d ∧ (∀ w ≠ v, Tab.get [] t.inn w = Tab.get [] p.inn w) ∧ (h ≠ 0 → h ≠ Config.tableHash p.tables → t.ask = true)
        ∧ (h = 0 ∨ h = Config.tableHash p.tables → t.ask = p.ask)))
    ∧ (∀ q v m h d pre f post, p.up = true → p.unacked = pre ++ f :: post → f.seq = q % 4096 → (∀ g ∈ pre, g.seq ≠ q % 4096) →
      ∃ t, exec (.traceFlitReceive n true q v 1 m h d) s = .next (s.modPort n.toNat (fun _ => t)) ∧ t.unacked = f :: post)
    ∧ (∀ q v m h d, p.up = true → exec (.traceFlitReceive n true q v 2 m h d) s = .next (s.modPort n.toNat (fun p =>
      { p with counts := [], tables := [], txCount := 0, rxCount := 0, ask := false, rsy := p.rsy + 1 }))))
  ∧ (∀ (s : State) (n : BitVec 4), ∀ p, p = s.portAt n.toNat →
    (p.txCount < 16 → p.rxCount < 16 → exec (.codeTableRebuild n) s = .next (s.modPort n.toNat (fun p => p)))
    ∧ (16 ≤ p.txCount → p.rxCount < 16 → exec (.codeTableRebuild n) s = .next (s.modPort n.toNat (fun p => { p with
        tables := (p.counts.filter (fun e => e.1 / 64 == 0)).foldl (fun t e => Tab.set t e.1 e.2) p.tables, txCount := p.txCount - 16 })))
    ∧ (p.up = true → p.ask = true → exec (.resynchronisation n) s = .next (s.modPort n.toNat (fun p =>
      { p with counts := [], tables := [], txCount := 0, rxCount := 0, ask := false, rsy := p.rsy + 1 })))
    ∧ (p.up = false ∨ p.ask = false → exec (.resynchronisation n) s = .next s)
    ∧ (s.sys.tripped = false → (p.dead = true → s.net.reqs = []) → exec (.portRetrain n) s = .next (s.modPort n.toNat (fun p =>
      { p with counts := [], tables := [], txCount := 0, rxCount := 0, ask := false, rsy := p.rsy + 1, up := true, downAt := none, dead := false })))
    ∧ (p.up = true → exec (.portDown n) s = .next (s.modPort n.toNat (fun p => { p with up := false, downAt := some s.time })))
    ∧ (∀ since, p.up = false → p.downAt = some since → since + 10 * Config.tickMs ≤ s.time →
      exec (.portDown n) s = .next (s.modPort n.toNat (fun p => { p with dead := true })))) := by
  refine ⟨trace_rules_send, trace_rules_receive, fun s n p hp => ⟨fun h1 h2 => ?_, fun h1 h2 => ?_, fun h1 h2 => ?_, fun h1 => ?_, fun h1 hd => ?_, fun h1 => ?_, fun since h1 h2 h3 => ?_⟩⟩
  · show execCodeTableRebuild n s = _
    unfold execCodeTableRebuild
    rw [modPort_const, modPort_const s _ (fun p => p), ← hp]
    dsimp only
    rw [if_neg (by omega), if_neg (by omega), decide_eq_false (by omega : ¬ 16 ≤ p.rxCount), decide_eq_false (by omega : ¬ 16 ≤ p.txCount)]
    rfl
  · show execCodeTableRebuild n s = _
    unfold execCodeTableRebuild
    rw [modPort_const, modPort_const s _ (fun p => { p with
        tables := (p.counts.filter (fun e => e.1 / 64 == 0)).foldl (fun t e => Tab.set t e.1 e.2) p.tables, txCount := p.txCount - 16 }), ← hp]
    dsimp only
    rw [if_pos (by omega), if_neg (by omega), decide_eq_false (by omega : ¬ 16 ≤ p.rxCount), decide_eq_true (by omega : 16 ≤ p.txCount)]
    rfl
  · show execResynchronisation n s = _
    unfold execResynchronisation
    rw [← hp, h1, h2]; rfl
  · show execResynchronisation n s = _
    unfold execResynchronisation
    rw [← hp]
    refine congrArg Host.Outcome.next (if_neg ?_)
    rcases h1 with h1 | h1 <;> rw [h1] <;> simp
  · show execPortRetrain n s = _
    unfold execPortRetrain
    have h2 : s.portOwes n.toNat = false := by
      unfold State.portOwes
      rw [← hp]
      cases hb : p.dead
      · rfl
      · rw [hd hb]; rfl
    rw [h1, h2]; rfl
  · show execPortDown n s = _
    unfold execPortDown
    rw [modPort_const, modPort_const s _ (fun p => { p with up := false, downAt := some s.time }), ← hp]
    rw [h1]; rfl
  · show execPortDown n s = _
    unfold execPortDown
    rw [modPort_const, modPort_const s _ (fun p => { p with dead := true }), ← hp]
    rw [h1, h2]
    dsimp only
    rw [if_pos h3]; rfl

end Sys2Proof.Machine
end

