-- ==== Sys2Proof/Laws/ClusterEstimates.lean ====
section
/-! SUPPORT. The estimate of a cluster and the activations it asks to move. -/

set_option Elab.async false

namespace Sys2Proof.Machine

/-- Whether a context or an image holds an activation. -/
def State.holdsAct (s : State) (a : Nat) : Bool := s.ctxs.any (fun e => e.2.act == a && e.2.run != .free) || s.saved.any (fun v => v.hid.act == a)

theorem left_holds (s : State) (a : Nat) : s.left a = !s.holdsAct a := by
  unfold State.left State.ownerOf State.holdsAct
  cases h : s.ctxs.find? (fun e => e.2.act == a && e.2.run != .free) with
  | some e =>
    have : s.ctxs.any (fun e => e.2.act == a && e.2.run != .free) = true := List.any_eq_true.2 ⟨e, List.mem_of_find?_eq_some h, by simpa using List.find?_some h⟩
    rw [this]; rfl
  | none =>
    have h1 : s.ctxs.any (fun e => e.2.act == a && e.2.run != .free) = false := by
      rw [List.any_eq_false]; intro e he; exact List.find?_eq_none.1 h e he
    rw [h1, Bool.false_or]
    dsimp only
    cases h2 : s.saved.find? (fun v => v.hid.act == a) with
    | some v =>
      have : s.saved.any (fun v => v.hid.act == a) = true := List.any_eq_true.2 ⟨v, List.mem_of_find?_eq_some h2, by simpa using List.find?_some h2⟩
      rw [this]; rfl
    | none =>
      have : s.saved.any (fun v => v.hid.act == a) = false := by
        rw [List.any_eq_false]; intro e he; exact List.find?_eq_none.1 h2 e he
      rw [this]; rfl

/-- States that differ only in the pending MIGRATEs, of contexts in place and in images. -/
structure MigpOnly (t u : State) : Prop where
  rest : u = { t with ctxs := u.ctxs, saved := u.saved }
  ctx : ∀ p x, u.ctxAt p x = { t.ctxAt p x with migp := (u.ctxAt p x).migp }
  images : u.saved.map Saved.still = t.saved.map Saved.still
  holds : ∀ a, u.holdsAct a = t.holdsAct a

theorem MigpOnly.refl (t : State) : MigpOnly t t := ⟨rfl, fun _ _ => rfl, rfl, fun _ => rfl⟩

theorem MigpOnly.trans {t u v : State} (h : MigpOnly t u) (g : MigpOnly u v) : MigpOnly t v := by
  refine ⟨?_, fun p x => ?_, g.images.trans h.images, fun a => (g.holds a).trans (h.holds a)⟩
  · rw [g.rest, h.rest]
  · rw [g.ctx p x, h.ctx p x]

theorem MigpOnly.vacant {t u : State} (h : MigpOnly t u) (p x : Nat) : u.vacant p x = t.vacant p x := by
  have hl : ∀ a, u.left a = t.left a := fun a => by rw [left_holds, left_holds, h.holds]
  have hr : (u.ctxAt p x).run = (t.ctxAt p x).run := by rw [h.ctx p x]
  have h1 : u.net = t.net ∧ u.vers = t.vers ∧ u.copies = t.copies ∧ u.coreAt p = t.coreAt p := by rw [h.rest]; exact ⟨rfl, rfl, rfl, rfl⟩
  unfold State.vacant
  simp only [hl, hr, h1.1, h1.2.1, h1.2.2.1, h1.2.2.2]

theorem get_any {α : Type} (d : α) (P : α → Bool) (hd : P d = false) (t : Tab α) (k : Nat) (h : P (Tab.get d t k) = true) : t.any (fun e => P e.2) = true := by
  induction t with
  | nil => rw [show Tab.get d [] k = d from rfl, hd] at h; cases h
  | cons e t ih =>
    obtain ⟨j, b⟩ := e
    rw [List.any_cons, Bool.or_eq_true]
    simp only [Tab.get] at h
    split at h
    · exact .inl h
    · exact .inr (ih h)

theorem any_set {α : Type} (d a : α) (P : α → Bool) (hd : P d = false) (t : Tab α) (k : Nat) (ha : P a = P (Tab.get d t k)) :
    (Tab.set t k a).any (fun e => P e.2) = t.any (fun e => P e.2) := by
  induction t with
  | nil => rw [show Tab.get d [] k = d from rfl, hd] at ha; simp [Tab.set, ha]
  | cons e t ih =>
    obtain ⟨j, b⟩ := e
    simp only [Tab.get] at ha
    simp only [Tab.set]
    by_cases hj : j = k
    · rw [if_pos hj] at ha
      rw [if_pos hj, List.any_cons, List.any_cons, ha]
    · rw [if_neg hj] at ha
      rw [if_neg hj]
      split
      · rw [List.any_cons]
        cases hp : P a with
        | false => rw [Bool.false_or]
        | true =>
          rw [hp] at ha
          rw [List.any_cons, get_any d P hd t k ha.symm]; simp
      · rw [List.any_cons, List.any_cons, ih ha]

theorem ctxAt_modCtxAt (s : State) (p x q y : Nat) (f : Ctx → Ctx) :
    (s.modCtxAt p x f).ctxAt q y = if ctxKey q y = ctxKey p x then f (s.ctxAt p x) else s.ctxAt q y := by
  unfold State.modCtxAt State.setCtxAt State.ctxAt
  exact Tab.get_set _ _ _ _ _

theorem ctxAt_key (s : State) {p x q y : Nat} (h : ctxKey q y = ctxKey p x) : s.ctxAt q y = s.ctxAt p x := by
  unfold State.ctxAt; rw [h]

theorem MigpOnly.mod (s : State) (p x : Nat) (m : Option (Nat × Nat)) : MigpOnly s (s.modCtxAt p x (fun c => { c with migp := m })) := by
  refine ⟨rfl, fun q y => ?_, rfl, fun a => ?_⟩
  · rw [ctxAt_modCtxAt]
    by_cases h : ctxKey q y = ctxKey p x
    · rw [if_pos h, ctxAt_key s h]
    · rw [if_neg h]
  · unfold State.holdsAct
    refine congrArg (fun b => b || s.saved.any (fun v => v.hid.act == a)) ?_
    exact any_set Ctx.reset { s.ctxAt p x with migp := m } (fun c => c.act == a && c.run != .free) (Bool.and_false _) s.ctxs (ctxKey p x) rfl

theorem MigpOnly.ask (s : State) (p x : Nat) : MigpOnly s (s.askMove p x) := by
  unfold State.askMove
  split
  · split
    · exact MigpOnly.mod s p x _
    · exact MigpOnly.refl s
  · exact MigpOnly.refl s

theorem fold_post {α : Type} (f : State → α → State) (I : State → Prop) (Q : α → State → Prop) (M : α → Prop) (hI : ∀ u a, M a → I u → I (f u a))
    (hQ : ∀ u a, M a → I u → Q a (f u a)) (hK : ∀ u a b, M b → I u → Q a u → Q a (f u b)) (l : List α) (hl : ∀ a ∈ l, M a) (s : State) (hs : I s) :
    I (l.foldl f s) ∧ ∀ a ∈ l, Q a (l.foldl f s) := by
  have keep : ∀ (l : List α) (s : State) (a : α), (∀ b ∈ l, M b) → I s → Q a s → Q a (l.foldl f s) := by
    intro l
    induction l with
    | nil => intro s a _ _ h; exact h
    | cons b l ih => intro s a hb hi hq; exact ih _ _ (fun c hc => hb c (by simp [hc])) (hI _ _ (hb b (by simp)) hi) (hK _ _ _ (hb b (by simp)) hi hq)
  induction l generalizing s with
  | nil => exact ⟨hs, fun a ha => by cases ha⟩
  | cons b l ih =>
    have hb := hl b (by simp)
    have hr := ih (fun a ha => hl a (by simp [ha])) (f s b) (hI _ _ hb hs)
    refine ⟨hr.1, fun a ha => ?_⟩
    rcases List.mem_cons.1 ha with rfl | ha
    · exact keep l _ _ (fun c hc => hl c (by simp [hc])) (hI _ _ hb hs) (hQ _ _ hb hs)
    · exact hr.2 a ha

theorem fold_flat (f : State → Nat → Nat → State) (l : List Nat) (t : State) : l.foldl (fun s p => [0, 1, 2, 3].foldl (fun s cx => f s p cx) s) t
    = (l.flatMap (fun p => [(p, 0), (p, 1), (p, 2), (p, 3)])).foldl (fun s (e : Nat × Nat) => f s e.1 e.2) t := by
  induction l generalizing t with
  | nil => rfl
  | cons a l ih => rw [List.foldl_cons, ih, List.flatMap_cons, List.foldl_append]; rfl

/-- The contexts that an estimate looks at. -/
def Looked (d c : Nat) (e : Nat × Nat) : Prop := dieOf e.1 = d ∧ clusterOf e.1 = c ∧ e.1 < 2048 ∧ e.2 < 4

theorem mem_looked (d c : Nat) (hd : d < 8) (e : Nat × Nat) :
    e ∈ (clusterCores d c).flatMap (fun p => [(p, 0), (p, 1), (p, 2), (p, 3)]) ↔ Looked d c e := by
  obtain ⟨p, x⟩ := e
  simp only [List.mem_flatMap, clusterCores, List.mem_filter, List.mem_map, List.mem_range, Looked, beq_iff_eq]
  constructor
  · rintro ⟨q, ⟨⟨n, hn, rfl⟩, hc⟩, h⟩
    have hx : p = d * 256 + n ∧ x < 4 := by
      simp only [List.mem_cons, Prod.mk.injEq, List.not_mem_nil, or_false] at h
      rcases h with ⟨h, h'⟩ | ⟨h, h'⟩ | ⟨h, h'⟩ | ⟨h, h'⟩ <;> exact ⟨h, by omega⟩
    obtain ⟨rfl, hx⟩ := hx
    exact ⟨by unfold dieOf; omega, hc, by omega, hx⟩
  · rintro ⟨h1, h2, h3, h4⟩
    unfold dieOf at h1
    refine ⟨p, ⟨⟨p % 256, by omega, by omega⟩, h2⟩, ?_⟩
    have : x = 0 ∨ x = 1 ∨ x = 2 ∨ x = 3 := by omega
    rcases this with rfl | rfl | rfl | rfl <;> simp

theorem estimate_rest (k : Cluster) (P : Nat) : (k.estimate P).pest = P ∧ (k.estimate P).temp = k.temp ∧ (k.estimate P).bud = k.bud
    ∧ (k.opened = true → (95 * 16 < k.temp ∨ k.bud < P) → (k.estimate P).opened = false ∧ ((k.estimate P).hot = true ↔ 95 * 16 < k.temp))
    ∧ (k.opened = true → ¬ (95 * 16 < k.temp ∨ k.bud < P) → (k.estimate P).opened = true)
    ∧ (k.opened = false → ((k.estimate P).opened = true ↔ k.temp < 90 * 16 ∧ 16 * P ≤ 15 * k.bud)) := by
  unfold Cluster.estimate
  dsimp only
  by_cases ho : k.opened = true
  · rw [if_pos ho]
    by_cases hh : (decide (1520 < k.temp) || decide (k.bud < P)) = true
    · rw [if_pos hh]
      simp only [Bool.or_eq_true, decide_eq_true_eq] at hh
      refine ⟨rfl, rfl, rfl, fun _ _ => ⟨rfl, decide_eq_true_iff⟩, fun _ h => absurd hh h, fun h => by rw [ho] at h; cases h⟩
    · rw [if_neg hh]
      simp only [Bool.or_eq_true, decide_eq_true_eq] at hh
      exact ⟨rfl, rfl, rfl, fun _ h => absurd h hh, fun _ _ => ho, fun h => by rw [ho] at h; cases h⟩
  · rw [if_neg ho]
    by_cases hh : k.temp < 1440 ∧ 16 * P ≤ 15 * k.bud
    · rw [if_pos hh]
      exact ⟨rfl, rfl, rfl, fun h => absurd h ho, fun h => absurd h ho, fun _ => ⟨fun _ => hh, fun _ => rfl⟩⟩
    · rw [if_neg hh]
      exact ⟨rfl, rfl, rfl, fun h => absurd h ho, fun h => absurd h ho, fun _ => ⟨fun h => absurd h ho, fun h => absurd h hh⟩⟩

theorem interpolate_leaks (t : Nat) : ∀ l : List (Nat × Nat), l ≠ [] → Leaks l t (interpolate l t)
  | [], h => absurd rfl h
  | [p], _ => by
    by_cases h : t < p.1
    · exact .inl ⟨p, rfl, h, rfl⟩
    · exact .inr (.inl ⟨p, rfl, by omega, rfl⟩)
  | p :: q :: l, _ => by
    unfold interpolate
    by_cases h : t < p.1
    · rw [if_pos h]; exact .inl ⟨p, rfl, h, rfl⟩
    · rw [if_neg h]
      by_cases h2 : t < q.1
      · rw [if_pos h2]; exact .inr (.inr ⟨p, q, [], l, rfl, by omega, h2, rfl⟩)
      · rw [if_neg h2]
        rcases interpolate_leaks t (q :: l) (by simp) with ⟨a, ha, h3, h4⟩ | ⟨z, hz, h3, h4⟩ | ⟨a, b, pre, post, hl, h3, h4, h5⟩
        · simp only [List.head?_cons, Option.some.injEq] at ha
          subst ha; exact absurd h3 h2
        · exact .inr (.inl ⟨z, by rw [List.getLast?_cons_cons]; exact hz, h3, h4⟩)
        · exact .inr (.inr ⟨a, b, p :: pre, post, by rw [hl]; rfl, h3, h4, h5⟩)

theorem foldl_sum {α : Type} (f : α → Nat) (l : List α) : ∀ n, l.foldl (fun e x => e + f x) n = n + (l.map f).sum := by
  induction l with
  | nil => intro n; rfl
  | cons a l ih => intro n; rw [List.foldl_cons, ih, List.map_cons, List.sum_cons, Nat.add_assoc]

theorem clusterPower_estimated (s : State) (d c : Nat) : s.Estimated d c (s.clusterPower d c) := by
  refine ⟨fun n => interpolate (leakTable (clusterKey d c) n) (s.clusterAt d c).temp, fun n _ => interpolate_leaks _ _ ?_, ?_⟩
  · unfold leakTable; simp
  · unfold State.clusterPower
    dsimp only
    rw [foldl_sum, foldl_sum, Nat.zero_add, Nat.zero_add]

def clearMigp (s : State) (e : Nat × Nat) : State := if (s.ctxAt e.1 e.2).migp.isSome then s.modCtxAt e.1 e.2 (fun c => { c with migp := none }) else s

/-- The estimate as a fold over the cores, or the contexts, that it looks at. -/
theorem estimate_fold (s : State) (d c : Nat) : ∀ k t, k = { (s.clusterAt d c).estimate (s.clusterPower d c) with acts := [] } → t = s.setClusterAt d c k →
    exec (.clusterEstimate d c) s = .next (if k.opened then (clusterCores d c).foldl State.withdrawMoves t
      else ((clusterCores d c).flatMap (fun p => [(p, 0), (p, 1), (p, 2), (p, 3)])).foldl (fun s e => s.askMove e.1 e.2) t) := by
  intro k t hk ht
  rw [← fold_flat (fun s p x => s.askMove p x)]
  subst hk ht; rfl

theorem clearMigp_only (s : State) (e : Nat × Nat) : MigpOnly s (clearMigp s e) := by
  unfold clearMigp
  split
  · exact MigpOnly.mod s _ _ _
  · exact MigpOnly.refl s

theorem clearMigp_none (s : State) (e : Nat × Nat) (p x : Nat) : (clearMigp s e).ctxAt p x = if ctxKey p x = ctxKey e.1 e.2 then { s.ctxAt p x with migp := none } else s.ctxAt p x := by
  unfold clearMigp
  by_cases h : (s.ctxAt e.1 e.2).migp.isSome = true
  · rw [if_pos h, ctxAt_modCtxAt]
    by_cases hk : ctxKey p x = ctxKey e.1 e.2
    · rw [if_pos hk, if_pos hk, ctxAt_key s hk]
    · rw [if_neg hk, if_neg hk]
  · rw [if_neg h]
    by_cases hk : ctxKey p x = ctxKey e.1 e.2
    · rw [if_pos hk, ctxAt_key s hk]
      have : (s.ctxAt e.1 e.2).migp = none := by
        cases hm : (s.ctxAt e.1 e.2).migp with
        | none => rfl
        | some y => rw [hm] at h; exact absurd rfl h
      rw [← this]
    · rw [if_neg hk]

/-- The image without a pending MIGRATE, if it is of core q. -/
def Saved.off (q : Nat) (v : Saved) : Saved := if v.pid = q ∧ v.hid.migp.isSome = true then { v with hid := { v.hid with migp := none } } else v

/-- The contexts of a core, in place and in images, without their pending MIGRATEs. -/
theorem withdraw_spec (s : State) (q : Nat) : MigpOnly s (s.withdrawMoves q)
    ∧ (∀ p x, x < 8 → (p ≠ q ∨ 4 ≤ x) → (s.withdrawMoves q).ctxAt p x = s.ctxAt p x) ∧ (∀ x < 4, ((s.withdrawMoves q).ctxAt q x).migp = none)
    ∧ (∀ v ∈ (s.withdrawMoves q).saved, v.pid = q → v.hid.migp = none) ∧ ∀ p, (∀ v ∈ s.saved, v.pid = p → v.hid.migp = none) → ∀ v ∈ (s.withdrawMoves q).saved, v.pid = p → v.hid.migp = none := by
  have hf : ∀ t, t = [0, 1, 2, 3].foldl (fun s cx => clearMigp s (q, cx)) s → MigpOnly s t ∧ (∀ p x, x < 8 → (p ≠ q ∨ 4 ≤ x) → t.ctxAt p x = s.ctxAt p x) ∧ (∀ x < 4, (t.ctxAt q x).migp = none) ∧ t.saved = s.saved := by
    rintro t rfl
    have hsv : ∀ (s : State) e, (clearMigp s e).saved = s.saved := by intro s e; unfold clearMigp; split <;> rfl
    simp only [List.foldl_cons, List.foldl_nil]
    refine ⟨(((clearMigp_only _ _).trans (clearMigp_only _ _)).trans (clearMigp_only _ _)).trans (clearMigp_only _ _), fun p x hx hp => ?_, fun x hx => ?_, ?_⟩
    · simp only [clearMigp_none]
      have : ∀ i < 4, ctxKey p x ≠ ctxKey q i := by intro i hi; unfold ctxKey; omega
      rw [if_neg (this 3 (by decide)), if_neg (this 2 (by decide)), if_neg (this 1 (by decide)), if_neg (this 0 (by decide))]
    · have : x = 0 ∨ x = 1 ∨ x = 2 ∨ x = 3 := by omega
      simp only [clearMigp_none]
      have hk : ∀ i j, i < 8 → j < 8 → (ctxKey q i = ctxKey q j ↔ i = j) := by intro i j hi hj; unfold ctxKey; omega
      rcases this with rfl | rfl | rfl | rfl <;> simp [hk]
    · simp only [hsv]
  have e : s.withdrawMoves q = { [0, 1, 2, 3].foldl (fun s cx => clearMigp s (q, cx)) s with saved := ([0, 1, 2, 3].foldl (fun s cx => clearMigp s (q, cx)) s).saved.map (Saved.off q) } := rfl
  obtain ⟨h1, h2, h3, h4⟩ := hf _ rfl
  generalize [0, 1, 2, 3].foldl (fun s cx => clearMigp s (q, cx)) s = t at *
  rw [e]
  have hs : ∀ v : Saved, (v.off q).still = v.still := by
    intro v; unfold Saved.off; split <;> rfl
  have ha : ∀ (v : Saved) a, ((v.off q).hid.act == a) = (v.hid.act == a) := by
    intro v a; unfold Saved.off; split <;> rfl
  refine ⟨⟨?_, h1.ctx, ?_, fun a => ?_⟩, h2, h3, fun v hv hq => ?_, fun p hp v hv hq => ?_⟩
  · rw [h1.rest]
  · dsimp only
    rw [List.map_map]
    refine Eq.trans (List.map_congr_left fun v _ => hs v) h1.images
  · refine Eq.trans ?_ (h1.holds a)
    unfold State.holdsAct
    dsimp only
    rw [List.any_map]
    refine congrArg (fun b => t.ctxs.any (fun e => e.2.act == a && e.2.run != .free) || b) ?_
    exact List.any_congr rfl fun v => ha v a
  · dsimp only at hv
    obtain ⟨w, hw, rfl⟩ := List.mem_map.1 hv
    unfold Saved.off at hq ⊢
    split
    · rfl
    · rename_i hn
      rw [if_neg hn] at hq
      cases hm : w.hid.migp with
      | none => rfl
      | some _ => exact absurd ⟨hq, by rw [hm]; rfl⟩ hn
  · dsimp only at hv
    rw [h4] at hv
    obtain ⟨w, hw, rfl⟩ := List.mem_map.1 hv
    unfold Saved.off at hq ⊢
    split
    · rfl
    · rename_i hn
      rw [if_neg hn] at hq
      exact hp w hw hq

/-- What a reopened cluster leaves of the MIGRATEs pending on it. -/
theorem clear_fold (d c : Nat) (hd : d < 8) (t : State) : ∀ u, u = (clusterCores d c).foldl State.withdrawMoves t →
    MigpOnly t u ∧ ∀ p, p < 2048 → dieOf p = d → clusterOf p = c → (∀ x < 4, (u.ctxAt p x).migp = none) ∧ ∀ v ∈ u.saved, v.pid = p → v.hid.migp = none := by
  intro u hu
  have := fold_post State.withdrawMoves (MigpOnly t) (fun p u => (∀ x < 4, (u.ctxAt p x).migp = none) ∧ ∀ v ∈ u.saved, v.pid = p → v.hid.migp = none) (fun _ => True)
    (fun u a _ h => h.trans (withdraw_spec u a).1)
    (fun u a _ _ => ⟨(withdraw_spec u a).2.2.1, (withdraw_spec u a).2.2.2.1⟩)
    (fun u a b _ _ h => by
      refine ⟨fun x hx => ?_, (withdraw_spec u b).2.2.2.2 a h.2⟩
      by_cases hab : a = b
      · subst hab; exact (withdraw_spec u a).2.2.1 x hx
      · rw [(withdraw_spec u b).2.1 a x (by omega) (.inl hab)]; exact h.1 x hx)
    (clusterCores d c) (fun _ _ => trivial) t (MigpOnly.refl t)
  rw [hu]
  refine ⟨this.1, fun p h1 h2 h3 => this.2 p ?_⟩
  unfold clusterCores
  rw [List.mem_filter, List.mem_map]
  refine ⟨⟨p % 256, List.mem_range.2 (by omega), ?_⟩, by simpa using h3⟩
  unfold dieOf at h2; omega

theorem mem_set {α : Type} (d a : α) (t : Tab α) (k : Nat) : ∀ e ∈ t, e ∈ Tab.set t k a ∨ (e.1 = k ∧ e.2 = Tab.get d t k) := by
  induction t with
  | nil => intro e he; cases he
  | cons x t ih =>
    intro e he
    obtain ⟨j, b⟩ := x
    simp only [Tab.set, Tab.get]
    by_cases h1 : j = k
    · rw [if_pos h1, if_pos h1]
      rcases List.mem_cons.1 he with rfl | he
      · exact .inr ⟨h1, rfl⟩
      · exact .inl (by simp [he])
    · rw [if_neg h1, if_neg h1]
      by_cases h2 : k < j
      · rw [if_pos h2]; exact .inl (List.mem_cons_of_mem _ he)
      · rw [if_neg h2]
        rcases List.mem_cons.1 he with rfl | he
        · exact .inl (by simp)
        · rcases ih e he with h | h
          · exact .inl (List.mem_cons_of_mem _ h)
          · exact .inr h

theorem mem_set_same {α : Type} (t : Tab α) (k : Nat) (a : α) : (k, a) ∈ Tab.set t k a := by
  induction t with
  | nil => simp [Tab.set]
  | cons x t ih =>
    obtain ⟨j, b⟩ := x
    simp only [Tab.set]
    split
    · simp
    · split
      · simp
      · exact List.mem_cons_of_mem _ ih

/-- Reservations only grow when a pending MIGRATE is added. -/
theorem reserved_grows {s : State} {p x : Nat} {m : Option (Nat × Nat)} (h : (s.ctxAt p x).migp = none) (q : Nat) (hr : s.reserved q = true) :
    (s.modCtxAt p x (fun c => { c with migp := m })).reserved q = true := by
  unfold State.reserved at hr ⊢
  rw [Bool.or_eq_true] at hr ⊢
  refine hr.imp_left fun hr => ?_
  rw [List.any_eq_true] at hr ⊢
  obtain ⟨e, he, hq⟩ := hr
  rcases mem_set Ctx.reset { s.ctxAt p x with migp := m } s.ctxs (ctxKey p x) e he with hm | ⟨hk, hv⟩
  · exact ⟨e, hm, hq⟩
  · refine ⟨(ctxKey p x, { s.ctxAt p x with migp := m }), mem_set_same _ _ _, ?_⟩
    rw [hv] at hq
    have hx : Tab.get Ctx.reset s.ctxs (ctxKey p x) = s.ctxAt p x := rfl
    rw [hx] at hq
    unfold Ctx.reserves at hq ⊢
    rw [h] at hq
    dsimp only at hq ⊢
    rw [Bool.or_false] at hq
    rw [hq]; rfl

/-- A target after the addition was one before it. -/
theorem canReceive_shrinks {s : State} {p x : Nat} {m : Option (Nat × Nat)} (h : (s.ctxAt p x).migp = none) (src act q : Nat)
    (hr : (s.modCtxAt p x (fun c => { c with migp := m })).canReceive src act q = true) : s.canReceive src act q = true := by
  have hv : ∀ cx, (s.modCtxAt p x (fun c => { c with migp := m })).vacant q cx = s.vacant q cx := (MigpOnly.mod s p x m).vacant q
  have hres := reserved_grows (m := m) h q
  unfold State.canReceive at hr ⊢
  dsimp only at hr ⊢
  simp only [hv] at hr
  by_cases hq : s.reserved q = true
  · rw [hres hq] at hr
    simp at hr
  · simp only [Bool.and_eq_true] at hr ⊢
    refine ⟨hr.1, ?_⟩
    simp [hq]

theorem pick_mem (f : Nat → Nat → Bool) (l : List Nat) : ∀ b r, r = l.foldl (fun (b : Option Nat) p => match b with
    | none => some p
    | some q => if f p q then some p else b) b → (∀ q, r = some q → q ∈ l ∨ b = some q) ∧ (r = none → l = [] ∧ b = none) := by
  induction l with
  | nil => intro b r hr; subst hr; exact ⟨fun q h => .inr h, fun h => ⟨rfl, h⟩⟩
  | cons p l ih =>
    intro b r hr
    rw [List.foldl_cons] at hr
    obtain ⟨h1, h2⟩ := ih _ r hr
    refine ⟨fun q hq => ?_, fun hn => ?_⟩
    · rcases h1 q hq with h | h
      · exact .inl (List.mem_cons_of_mem _ h)
      · cases b with
        | none => cases h; exact .inl (by simp)
        | some y =>
          dsimp only at h
          by_cases hf : f p y = true
          · rw [if_pos hf] at h; cases h; exact .inl (by simp)
          · rw [if_neg hf] at h; exact .inr h
    · have := (h2 hn).2
      cases b with
      | none => cases this
      | some y =>
        dsimp only at this
        by_cases hf : f p y = true
        · rw [if_pos hf] at this; cases this
        · rw [if_neg hf] at this; cases this

theorem target_some {s : State} {src act q : Nat} (h : s.target src act = some q) : ∃ n < 256, q = dieOf src * 256 + n ∧ s.canReceive src act q = true := by
  unfold State.target at h
  rcases (pick_mem (fun p q => s.before src p q) _ none _ rfl).1 q h with h | h
  · rw [List.mem_filter, List.mem_map] at h
    obtain ⟨⟨n, hn, rfl⟩, hc⟩ := h
    exact ⟨n, List.mem_range.1 hn, rfl, hc⟩
  · cases h

theorem target_none {s : State} {src act : Nat} (h : s.target src act = none) : ∀ n < 256, s.canReceive src act (dieOf src * 256 + n) = false := by
  unfold State.target at h
  have := ((pick_mem (fun p q => s.before src p q) _ none _ rfl).2 h).1
  rw [List.filter_eq_nil_iff] at this
  intro n hn
  have := this (dieOf src * 256 + n) (List.mem_map.2 ⟨n, List.mem_range.2 hn, rfl⟩)
  simpa using this

theorem receive_suits {s : State} {src act q : Nat} (h : s.canReceive src act q = true) : s.Suits src q := by
  unfold State.canReceive at h
  simp only [Bool.and_eq_true, beq_iff_eq, decide_eq_true_eq, List.isEmpty_iff] at h
  obtain ⟨⟨⟨⟨⟨⟨⟨⟨h1, h2⟩, h3⟩, h4⟩, h5⟩, h6⟩, h7⟩, h8⟩, h9⟩ := h
  unfold State.dispatchable at h2
  rw [Bool.and_eq_true] at h2
  refine ⟨h1, h2.1, h3, fun cx hc => ?_, h6⟩
  rw [List.all_eq_true] at h5
  exact h5 cx (by
    have : cx = 0 ∨ cx = 1 ∨ cx = 2 ∨ cx = 3 ∨ cx = 4 := by omega
    rcases this with rfl | rfl | rfl | rfl | rfl <;> simp)

theorem suits_only {t u : State} (h : MigpOnly t u) {p q : Nat} : u.Suits p q ↔ t.Suits p q := by
  have hc : ∀ q, u.clusterOfCore q = t.clusterOfCore q := by intro q; rw [h.rest]; rfl
  have hk : u.coreAt q = t.coreAt q := by rw [h.rest]; rfl
  unfold State.Suits
  simp only [hc, hk, h.vacant]

theorem movable_iff (s : State) (p x : Nat) (d c : Nat) (hl : Looked d c (p, x)) : s.movable p x = true ↔ s.MayMove d c p x := by
  unfold State.movable State.MayMove
  simp only [Bool.and_eq_true, decide_eq_true_eq, Option.isNone_iff_eq_none, bne_iff_ne, ne_eq, Bool.not_eq_true', List.isEmpty_eq_false_iff, List.all_eq_true,
    Bool.or_eq_true, beq_iff_eq]
  have hall : (∀ n ∈ [0, 1, 2, 3], n = x ∨ s.vacant p n = true) ↔ ∀ n < 4, ¬ n = x → s.vacant p n = true := by
    constructor
    · intro h n hn hx
      have : n = 0 ∨ n = 1 ∨ n = 2 ∨ n = 3 := by omega
      have hm : n ∈ [0, 1, 2, 3] := by rcases this with rfl | rfl | rfl | rfl <;> simp
      rcases h n hm with h | h
      · exact absurd h hx
      · exact h
    · intro h n hm
      have : n < 4 := by
        simp only [List.mem_cons, List.not_mem_nil, or_false] at hm
        omega
      by_cases hx : n = x
      · exact .inl hx
      · exact .inr (h n this hx)
  rw [hall]
  obtain ⟨g1, g2, g3, g4⟩ := hl
  constructor
  · rintro ⟨⟨⟨⟨⟨⟨⟨a1, a2⟩, a3⟩, a4⟩, a5⟩, a6⟩, a7⟩, a8⟩
    refine ⟨g1, g2, g3, g4, ?_, a2, a3, a4, a5, a6, a7, a8⟩
    revert a1
    cases (s.ctxAt p x).started <;> simp
  · rintro ⟨_, _, _, _, ⟨l, a1⟩, a2, a3, a4, a5, a6, a7, a8⟩
    refine ⟨⟨⟨⟨⟨⟨⟨?_, a2⟩, a3⟩, a4⟩, a5⟩, a6⟩, a7⟩, a8⟩
    rw [a1]

/-- One context asked to move. -/
theorem ask_step {t u : State} (h : MigpOnly t u) {d c p x : Nat} (hl : Looked d c (p, x)) :
    (u.askMove p x = u ∧ (t.MayMove d c p x → (u.ctxAt p x).migp = none → ∀ n < 256, u.canReceive p (t.ctxAt p x).act (d * 256 + n) = false))
    ∨ ((u.ctxAt p x).migp = none ∧ ∃ q, u.askMove p x = u.modCtxAt p x (fun k => { k with migp := some (t.time, q) }) ∧ t.Suits p q
        ∧ ((t.ctxAt p x).migp = none → t.MayMove d c p x)) := by
  have hact : (u.ctxAt p x).act = (t.ctxAt p x).act := by rw [h.ctx p x]
  have htime : u.time = t.time := by rw [h.rest]
  have hmm : (u.ctxAt p x).migp = none → (t.ctxAt p x).migp = none → (u.MayMove d c p x ↔ t.MayMove d c p x) := by
    intro hn ht
    unfold State.MayMove
    rw [htime]
    have hx : u.ctxAt p x = t.ctxAt p x := by
      rw [h.ctx p x, hn, ← ht]
    simp only [h.vacant, hx]
  have hm := movable_iff u p x d c hl
  unfold State.askMove
  by_cases hv : u.movable p x = true
  · rw [if_pos hv]
    have hmu := hm.1 hv
    have hnone : (u.ctxAt p x).migp = none := hmu.2.2.2.2.2.2.2.2.1
    cases ht : u.target p (u.ctxAt p x).act with
    | none =>
      refine .inl ⟨rfl, fun _ _ n hn => ?_⟩
      rw [← hact]
      have := target_none ht n hn
      rw [hl.1] at this
      exact this
    | some q =>
      obtain ⟨n, hn, hq, hr⟩ := target_some ht
      refine .inr ⟨hnone, q, ?_, (suits_only h).1 (receive_suits hr), fun h0 => (hmm hnone h0).1 hmu⟩
      rw [htime]
  · rw [if_neg hv]
    refine .inl ⟨rfl, fun hmt hn => ?_⟩
    have h0 : (t.ctxAt p x).migp = none := hmt.2.2.2.2.2.2.2.2.1
    exact absurd (hm.2 ((hmm hn h0).2 hmt)) hv

/-- What a closed cluster asks of its contexts. -/
theorem ask_fold (d c : Nat) (hd : d < 8) (t : State) : ∀ u, u = ((clusterCores d c).flatMap (fun p => [(p, 0), (p, 1), (p, 2), (p, 3)])).foldl (fun s e => s.askMove e.1 e.2) t →
    MigpOnly t u ∧ (∀ p x, x < 8 → (u.ctxAt p x).migp = (t.ctxAt p x).migp ∨ (t.MayMove d c p x ∧ ∃ q, (u.ctxAt p x).migp = some (t.time, q) ∧ t.Suits p q))
    ∧ ∀ p x, t.MayMove d c p x → (u.ctxAt p x).migp = none → ∀ n < 256, u.canReceive p (t.ctxAt p x).act (d * 256 + n) = false := by
  intro u hu
  have := fold_post (fun s (e : Nat × Nat) => s.askMove e.1 e.2)
    (fun u => MigpOnly t u ∧ ∀ p x, x < 8 → (u.ctxAt p x).migp = (t.ctxAt p x).migp ∨ (t.MayMove d c p x ∧ ∃ q, (u.ctxAt p x).migp = some (t.time, q) ∧ t.Suits p q))
    (fun e u => t.MayMove d c e.1 e.2 → (u.ctxAt e.1 e.2).migp = none → ∀ n < 256, u.canReceive e.1 (t.ctxAt e.1 e.2).act (d * 256 + n) = false) (Looked d c)
    (fun u e he h => by
      obtain ⟨p, x⟩ := e
      refine ⟨h.1.trans (MigpOnly.ask u p x), fun q y hy => ?_⟩
      rcases ask_step h.1 he with ⟨e, _⟩ | ⟨hn, r, e, hs, hmay⟩
      · rw [e]; exact h.2 q y hy
      · rw [e, ctxAt_modCtxAt]
        by_cases hk : ctxKey q y = ctxKey p x
        · rw [if_pos hk]
          have hx := he.2.2.2
          unfold ctxKey at hk
          obtain ⟨rfl, rfl⟩ : q = p ∧ y = x := by dsimp only at hx; omega
          have h0 : (t.ctxAt q y).migp = none := by
            rcases h.2 q y hy with h0 | ⟨_, w, h0, _⟩
            · rw [← h0, hn]
            · rw [hn] at h0; cases h0
          exact .inr ⟨hmay h0, r, rfl, hs⟩
        · rw [if_neg hk]; exact h.2 q y hy)
    (fun u e he h => by
      obtain ⟨p, x⟩ := e
      intro hmt hn n hlt
      rcases ask_step h.1 he with ⟨e, hr⟩ | ⟨hn', r, e, hs, hmay⟩
      · dsimp only at hn ⊢
        rw [e] at hn ⊢
        exact hr hmt hn n hlt
      · dsimp only at hn
        rw [e, ctxAt_modCtxAt, if_pos rfl] at hn
        cases hn)
    (fun u a e he h hq => by
      obtain ⟨p, x⟩ := e
      obtain ⟨q, y⟩ := a
      intro hmt hn n hlt
      dsimp only at hmt hn hq ⊢
      rcases ask_step h.1 he with ⟨e, hr⟩ | ⟨hn', r, e, hs, hmay⟩
      · rw [e] at hn ⊢; exact hq hmt hn n hlt
      · rw [e] at hn ⊢
        rw [ctxAt_modCtxAt] at hn
        by_cases hk : ctxKey q y = ctxKey p x
        · rw [if_pos hk] at hn; cases hn
        · rw [if_neg hk] at hn
          have := hq hmt hn n hlt
          cases hc : (u.modCtxAt p x (fun k => { k with migp := some (t.time, r) })).canReceive q (t.ctxAt q y).act (d * 256 + n) with
          | false => rfl
          | true => rw [canReceive_shrinks hn' _ _ _ hc] at this; cases this)
    ((clusterCores d c).flatMap (fun p => [(p, 0), (p, 1), (p, 2), (p, 3)])) (fun a ha => (mem_looked d c hd a).1 ha) t ⟨MigpOnly.refl t, fun p x _ => .inl rfl⟩
  rw [hu]
  exact ⟨this.1.1, this.1.2, fun p x hmt => this.2 (p, x) ((mem_looked d c hd (p, x)).2 ⟨hmt.1, hmt.2.1, hmt.2.2.1, hmt.2.2.2.1⟩) hmt⟩

theorem ask_saved (l : List (Nat × Nat)) : ∀ t : State, (l.foldl (fun s e => s.askMove e.1 e.2) t).saved = t.saved := by
  induction l with
  | nil => intro t; rfl
  | cons e l ih =>
    intro t
    rw [List.foldl_cons, ih]
    unfold State.askMove
    split
    · split <;> rfl
    · rfl

theorem estimate_rules :
    ∀ (s : State) (d c : Nat), d < 8 → c < 16 → ∀ k, k = s.clusterAt d c → ∃ t P, exec (.clusterEstimate d c) s = .next t ∧ s.Estimated d c P ∧ (t.clusterAt d c).acts = []
    ∧ (t.clusterAt d c).pest = P ∧ (t.clusterAt d c).temp = k.temp ∧ (t.clusterAt d c).bud = k.bud
    ∧ (k.opened = true → (95 * 16 < k.temp ∨ k.bud < P) → (t.clusterAt d c).opened = false ∧ ((t.clusterAt d c).hot = true ↔ 95 * 16 < k.temp))
    ∧ (k.opened = true → ¬ (95 * 16 < k.temp ∨ k.bud < P) → (t.clusterAt d c).opened = true)
    ∧ (k.opened = false → ((t.clusterAt d c).opened = true ↔ k.temp < 90 * 16 ∧ 16 * P ≤ 15 * k.bud))
    ∧ (∀ e f, f < 16 → (e ≠ d ∨ f ≠ c) → t.clusterAt e f = s.clusterAt e f)
    ∧ t = { s with sys := t.sys, ctxs := t.ctxs, saved := t.saved } ∧ (∀ p x, t.ctxAt p x = { s.ctxAt p x with migp := (t.ctxAt p x).migp })
    ∧ t.saved.map Saved.still = s.saved.map Saved.still ∧ ((t.clusterAt d c).opened = false → t.saved = s.saved)
    ∧ ((t.clusterAt d c).opened = true → ∀ p, p < 2048 → dieOf p = d → clusterOf p = c → (∀ x, x < 4 → (t.ctxAt p x).migp = none) ∧ ∀ v ∈ t.saved, v.pid = p → v.hid.migp = none)
    ∧ ((t.clusterAt d c).opened = false → ∀ p x, x < 8 → (t.ctxAt p x).migp = (s.ctxAt p x).migp
        ∨ (s.MayMove d c p x ∧ ∃ q, (t.ctxAt p x).migp = some (s.time, q) ∧ t.Suits p q))
    ∧ ((t.clusterAt d c).opened = false → ∀ p x, s.MayMove d c p x → (t.ctxAt p x).migp = none → ∀ q < 256, t.canReceive p (s.ctxAt p x).act (d * 256 + q) = false) := by
  intro s d c hd hc k hk
  obtain ⟨e1, e2, e3, e5, e6, e7⟩ := estimate_rest k (s.clusterPower d c)
  have e := estimate_fold s d c _ _ rfl rfl
  have hP := clusterPower_estimated s d c
  rw [← hk] at e
  generalize s.clusterPower d c = P at *
  generalize hj : ({ k.estimate P with acts := [] } : Cluster) = j at *
  have hcl : (s.setClusterAt d c j).clusterAt d c = j := clusterAt_set s d c j
  have hfld : j.acts = [] ∧ j.pest = (k.estimate P).pest ∧ j.temp = (k.estimate P).temp ∧ j.bud = (k.estimate P).bud ∧ j.opened = (k.estimate P).opened ∧ j.hot = (k.estimate P).hot := by
    rw [← hj]; exact ⟨rfl, rfl, rfl, rfl, rfl, rfl⟩
  obtain ⟨f0, f1, f2, f3, f4, f5⟩ := hfld
  rw [← f1] at e1
  rw [← f2] at e2
  rw [← f3] at e3
  rw [← f4, ← f5] at e5
  rw [← f4] at e6 e7
  have hother : ∀ u, MigpOnly (s.setClusterAt d c j) u → (u.clusterAt d c = j) ∧ (∀ e f, f < 16 → (e ≠ d ∨ f ≠ c) → u.clusterAt e f = s.clusterAt e f)
      ∧ u = { s with sys := u.sys, ctxs := u.ctxs, saved := u.saved } ∧ (∀ p x, u.ctxAt p x = { s.ctxAt p x with migp := (u.ctxAt p x).migp })
      ∧ u.saved.map Saved.still = s.saved.map Saved.still := by
    intro u hu
    refine ⟨?_, fun e f hf hne => ?_, ?_, hu.ctx, hu.images⟩
    · rw [hu.rest]; exact hcl
    · rw [hu.rest]
      refine (clusterAt_set' s d c e f j).trans (if_neg ?_)
      unfold clusterKey; omega
    · rw [hu.rest]; rfl
  by_cases ho : j.opened = true
  · have hf := clear_fold d c hd (s.setClusterAt d c j) _ rfl
    have he : exec (.clusterEstimate d c) s = .next ((clusterCores d c).foldl State.withdrawMoves (s.setClusterAt d c j)) := by
      rw [e]; exact congrArg _ (if_pos ho)
    obtain ⟨o1, o2, o3, o4, o5⟩ := hother _ hf.1
    refine ⟨_, P, he, hP, ?_⟩
    rw [o1]
    exact ⟨f0, e1, e2, e3, e5, e6, e7, o2, o3, o4, o5, fun h => (by rw [ho] at h; cases h), fun _ => hf.2, fun h => (by rw [ho] at h; cases h), fun h => (by rw [ho] at h; cases h)⟩
  · have hf := ask_fold d c hd (s.setClusterAt d c j) _ rfl
    have he : exec (.clusterEstimate d c) s = .next (((clusterCores d c).flatMap (fun p => [(p, 0), (p, 1), (p, 2), (p, 3)])).foldl (fun s e => s.askMove e.1 e.2) (s.setClusterAt d c j)) := by
      rw [e]; exact congrArg _ (if_neg ho)
    obtain ⟨o1, o2, o3, o4, o5⟩ := hother _ hf.1
    refine ⟨_, P, he, hP, ?_⟩
    rw [o1]
    refine ⟨f0, e1, e2, e3, e5, e6, e7, o2, o3, o4, o5, fun _ => ask_saved _ _, fun h => absurd h ho, fun _ p x hx => ?_, fun _ p x hm hn n hq => hf.2.2 p x hm hn n hq⟩
    rcases hf.2.1 p x hx with h | ⟨h, q, h', h''⟩
    · exact .inl h
    · exact .inr ⟨h, q, h', (suits_only hf.1).2 h''⟩

end Sys2Proof.Machine
end

