-- ==== Sys2Proof/Laws/PerInstr.lean ====
section
/-! SUPPORT. Decoding what was encoded, instruction by instruction (04 R89 to R107). -/

set_option Elab.async false

namespace Sys2Proof.Laws

/-- What the family says of an instruction: where it is well formed, has an encoding, and is not one of the two core forms that share
their words with a context form, its bytes decode to it and to its length. -/
def RoundTrip.Statement (i : Instr) : Prop :=
  i.wf = true → encode i ≠ [] → (∀ s d a b, i ≠ .ctxsaveCore s d a b ∧ i ≠ .ctxloadCore s d a b) → decode (encode i) = some (i, (encode i).length)

theorem b2n_le (t : Bool) : b2n t ≤ 1 := by cases t <;> decide
theorem b2n_beq (t : Bool) : (b2n t == 1) = t := by cases t <;> rfl
theorem condCode_lt (c : Cond) : c.code < 6 := by cases c <;> decide
theorem bzCondCode_lt (c : BzCond) : c.code < 6 := by cases c <;> decide
theorem hintCode_lt (h : Hint) : h.code < 3 := by cases h <;> decide
theorem scopeCode_lt (k : Scope) : k.code < 4 := by cases k <;> decide
theorem orderCode_lt (r : Order) : r.code < 5 := by cases r <;> decide
theorem sizeCode_lt (z : Size) : z.code < 4 := by cases z <;> decide
theorem condOf_code (c : Cond) : condOf c.code = some c := by cases c <;> rfl
theorem bzCondOf_code (c : BzCond) : bzCondOf c.code = some c := by cases c <;> rfl
theorem hintOf_code (h : Hint) : hintOf h.code = some h := by cases h <;> rfl
theorem scopeOf_code (k : Scope) : scopeOf k.code = k := by cases k <;> rfl
theorem orderOf_code (r : Order) : orderOf r.code = some r := by cases r <;> rfl
theorem sizeOf_code (z : Size) : sizeOf z.code = z := by cases z <;> rfl
theorem ofNat_toNat' {n : Nat} (x : BitVec n) : BitVec.ofNat n x.toNat = x := by simp
theorem okIf_pos {c : Bool} {i : Instr} (h : c = true) : okIf c i = some i := by rw [h]; rfl

theorem byte_toNat (x : Nat) : (BitVec.ofNat 8 x).toNat = x % 256 := rfl

/-- The four bytes of a word's parts decode as the parts do (04 R93). -/
theorem decode_word (f : Fields) (hd : f.d < 32) (ha : f.a < 32) (hm : f.maj < 64) (hh : f.hi < 16384) {i : Instr} (h : decFields f = some i) :
    decode (bytesOf 4 f.word) = some (i, 4) := by
  obtain ⟨s, maj, d, a, hi⟩ := f
  dsimp only at hd ha hm hh
  have hs := b2n_le s
  have hw : (⟨s, maj, d, a, hi⟩ : Fields).word = b2n s + 2 + 4 * maj + 256 * d + 8192 * a + 262144 * hi := rfl
  generalize hW : (⟨s, maj, d, a, hi⟩ : Fields).word = w at *
  have hb1 : bitOf (w % 256 + 256 * (w / 256 % 256)) 1 = true := by
    unfold bitOf
    rw [beq_iff_eq, hw, Nat.pow_one]
    omega
  have hof : Fields.of (w % 256 + 256 * (w / 256 % 256) + 2 ^ 16 * (w / 256 / 256 % 256 + 256 * (w / 256 / 256 / 256 % 256))) = ⟨s, maj, d, a, hi⟩ := by
    have e : w % 256 + 256 * (w / 256 % 256) + 2 ^ 16 * (w / 256 / 256 % 256 + 256 * (w / 256 / 256 / 256 % 256)) = w := by omega
    rw [e]
    unfold Fields.of
    have e1 : bitOf w 0 = s := by
      unfold bitOf
      rw [Nat.pow_zero, Nat.div_one, hw]
      cases s with
      | false => rw [beq_eq_false_iff_ne, show b2n false = 0 from rfl]; omega
      | true => rw [beq_iff_eq, show b2n true = 1 from rfl]; omega
    have e2 : bitsOf w 7 2 = maj := by unfold bitsOf; rw [hw]; simp only [Nat.reduceAdd, Nat.reduceSub, Nat.reducePow]; omega
    have e3 : bitsOf w 12 8 = d := by unfold bitsOf; rw [hw]; simp only [Nat.reduceAdd, Nat.reduceSub, Nat.reducePow]; omega
    have e4 : bitsOf w 17 13 = a := by unfold bitsOf; rw [hw]; simp only [Nat.reduceAdd, Nat.reduceSub, Nat.reducePow]; omega
    have e5 : bitsOf w 31 18 = hi := by unfold bitsOf; rw [hw]; simp only [Nat.reduceAdd, Nat.reduceSub, Nat.reducePow]; omega
    rw [e1, e2, e3, e4, e5]
  show (if bitOf (w % 256 + 256 * (w / 256 % 256)) 1 then
      (decFields (Fields.of (w % 256 + 256 * (w / 256 % 256) + 2 ^ 16 * (w / 256 / 256 % 256 + 256 * (w / 256 / 256 / 256 % 256))))).map (fun i => (i, 4))
    else (decHalf (w % 256 + 256 * (w / 256 % 256))).map (fun i => (i, 2))) = _
  rw [if_pos hb1, hof, h]
  rfl

/-- The two bytes of a compact word decode as its parts do (04 R91). -/
theorem decode_half (s : Bool) (maj rd ra : Nat) (hm : maj < 16) (hd : rd < 32) (ha : ra < 32) {i : Instr}
    (h : ∀ w, bitOf w 0 = s → bitsOf w 5 2 = maj → bitsOf w 10 6 = rd → bitsOf w 15 11 = ra → decHalf w = some i) :
    decode (bytesOf 2 (half s maj rd ra)) = some (i, 2) := by
  have hs := b2n_le s
  have hw : half s maj rd ra = b2n s + 4 * maj + 64 * rd + 2048 * ra := rfl
  generalize half s maj rd ra = w at *
  have e : w % 256 + 256 * (w / 256 % 256) = w := by omega
  have hb1 : ¬ bitOf w 1 = true := by
    unfold bitOf
    rw [beq_iff_eq, hw, Nat.pow_one]
    omega
  have e1 : bitOf w 0 = s := by
    unfold bitOf
    rw [Nat.pow_zero, Nat.div_one, hw]
    cases s with
    | false => rw [beq_eq_false_iff_ne, show b2n false = 0 from rfl]; omega
    | true => rw [beq_iff_eq, show b2n true = 1 from rfl]; omega
  have e2 : bitsOf w 5 2 = maj := by unfold bitsOf; rw [hw]; simp only [Nat.reduceAdd, Nat.reduceSub, Nat.reducePow]; omega
  have e3 : bitsOf w 10 6 = rd := by unfold bitsOf; rw [hw]; simp only [Nat.reduceAdd, Nat.reduceSub, Nat.reducePow]; omega
  have e4 : bitsOf w 15 11 = ra := by unfold bitsOf; rw [hw]; simp only [Nat.reduceAdd, Nat.reduceSub, Nat.reducePow]; omega
  show (if bitOf (w % 256 + 256 * (w / 256 % 256)) 1 then none else (decHalf (w % 256 + 256 * (w / 256 % 256))).map (fun i => (i, 2))) = _
  rw [e, if_neg hb1, h w e1 e2 e3 e4]
  rfl

theorem decFields_00 (s : Bool) (d a hi : Nat) : decFields ⟨s, 0x00, d, a, hi⟩ = decIntr s (r5 d) (r5 a) (r5 (hi % 32)) (hi / 32) := rfl
theorem decFields_01 (s : Bool) (d a hi : Nat) : decFields ⟨s, 0x01, d, a, hi⟩ = if (hi % 32) = 0 then decIntu s (r5 d) (r5 a) (hi / 32) else none := rfl
theorem decFields_02 (s : Bool) (d a hi : Nat) : decFields ⟨s, 0x02, d, a, hi⟩ = some (.addi s (r5 d) (r5 a) (BitVec.ofNat 14 hi)) := rfl
theorem decFields_03 (s : Bool) (d a hi : Nat) : decFields ⟨s, 0x03, d, a, hi⟩ = some (.andi s (r5 d) (r5 a) (BitVec.ofNat 14 hi)) := rfl
theorem decFields_04 (s : Bool) (d a hi : Nat) : decFields ⟨s, 0x04, d, a, hi⟩ = some (.ori s (r5 d) (r5 a) (BitVec.ofNat 14 hi)) := rfl
theorem decFields_05 (s : Bool) (d a hi : Nat) : decFields ⟨s, 0x05, d, a, hi⟩ = some (.xori s (r5 d) (r5 a) (BitVec.ofNat 14 hi)) := rfl
theorem decFields_06 (s : Bool) (d a hi : Nat) : decFields ⟨s, 0x06, d, a, hi⟩ = decShift s (r5 d) (r5 a) (BitVec.ofNat 6 hi) (hi / 64) := rfl
theorem decFields_07 (s : Bool) (d a hi : Nat) : decFields ⟨s, 0x07, d, a, hi⟩ = (condOf (hi % 8)).map (fun k => .cmpi s k (r5 d) (r5 a) (BitVec.ofNat 11 (hi / 8))) := rfl
theorem decFields_08 (s : Bool) (d a hi : Nat) : decFields ⟨s, 0x08, d, a, hi⟩ = some (.li s (r5 d) (BitVec.ofNat 19 (a + 32 * hi))) := rfl
theorem decFields_09 (s : Bool) (d a hi : Nat) : decFields ⟨s, 0x09, d, a, hi⟩ = some (.lih s (r5 d) (BitVec.ofNat 19 (a + 32 * hi))) := rfl
theorem decFields_0A (s : Bool) (d a hi : Nat) : decFields ⟨s, 0x0A, d, a, hi⟩ = some (.addpc s (r5 d) (BitVec.ofNat 19 (a + 32 * hi))) := rfl
theorem decFields_0B (s : Bool) (d a hi : Nat) : decFields ⟨s, 0x0B, d, a, hi⟩ = okIf (hi / 4 % 2 == 0) (.lea s (sizeOf (hi % 4)) (r5 d) (r5 a) (BitVec.ofNat 11 (hi / 8))) := rfl
theorem decFields_0C (s : Bool) (d a hi : Nat) : decFields ⟨s, 0x0C, d, a, hi⟩ = okIf (hi % 8 != 7) (.ld s (sizeOf (hi % 4)) (hi / 4 % 2 == 1) (r5 d) (r5 a) (BitVec.ofNat 11 (hi / 8))) := rfl
theorem decFields_0D (s : Bool) (d a hi : Nat) : decFields ⟨s, 0x0D, d, a, hi⟩ = okIf (hi / 4 % 2 == 0) (.st s (sizeOf (hi % 4)) (r5 d) (r5 a) (BitVec.ofNat 11 (hi / 8))) := rfl
theorem decFields_0E (s : Bool) (d a hi : Nat) : decFields ⟨s, 0x0E, d, a, hi⟩ = okIf (hi % 8 != 7 && hi / 8 < 32) (.ldx s (sizeOf (hi % 4)) (hi / 4 % 2 == 1) (r5 d) (r5 a) (r5 (hi / 8))) := rfl
theorem decFields_0F (s : Bool) (d a hi : Nat) : decFields ⟨s, 0x0F, d, a, hi⟩ = okIf (hi / 4 % 2 == 0 && hi / 8 < 32) (.stx s (sizeOf (hi % 4)) (r5 d) (r5 a) (r5 (hi / 8))) := rfl
theorem decFields_10 (s : Bool) (d a hi : Nat) : decFields ⟨s, 0x10, d, a, hi⟩ = okIf (a == 0) (.mfs s (r5 d) (BitVec.ofNat 14 hi)) := rfl
theorem decFields_11 (s : Bool) (d a hi : Nat) : decFields ⟨s, 0x11, d, a, hi⟩ = okIf (d == 0) (.mts s (r5 a) (BitVec.ofNat 14 hi)) := rfl
theorem decFields_12 (s : Bool) (d a hi : Nat) : decFields ⟨s, 0x12, d, a, hi⟩ = (condOf (hi % 8)).bind (fun k => (hintOf (hi / 8 % 4)).map (fun h => .bc s h k (r5 a) (r5 d) (BitVec.ofNat 9 (hi / 32)))) := rfl
theorem decFields_13 (s : Bool) (d a hi : Nat) : decFields ⟨s, 0x13, d, a, hi⟩ = (bzCondOf (a % 8)).bind (fun k => (hintOf (a / 8)).map (fun h => .bz s h k (r5 d) (BitVec.ofNat 14 hi))) := rfl
theorem decFields_14 (s : Bool) (d a hi : Nat) : decFields ⟨s, 0x14, d, a, hi⟩ = some (.br s (BitVec.ofNat 24 (d + 32 * a + 1024 * hi))) := rfl
theorem decFields_15 (s : Bool) (d a hi : Nat) : decFields ⟨s, 0x15, d, a, hi⟩ = some (.call s (BitVec.ofNat 24 (d + 32 * a + 1024 * hi))) := rfl
theorem decFields_16 (s : Bool) (d a hi : Nat) : decFields ⟨s, 0x16, d, a, hi⟩ = decJump s d (r5 a) (hi % 32) (hi / 32) := rfl
theorem decFields_17 (s : Bool) (d a hi : Nat) : decFields ⟨s, 0x17, d, a, hi⟩ = decCtrl s d a (hi % 32) (hi / 32) := rfl
theorem decFields_18 (s : Bool) (d a hi : Nat) : decFields ⟨s, 0x18, d, a, hi⟩ = if a % 8 = 0 then (hintOf (a / 8)).map (fun h => .loop s h (r5 d) (BitVec.ofNat 14 hi)) else none := rfl
theorem decFields_19 (s : Bool) (d a hi : Nat) : decFields ⟨s, 0x19, d, a, hi⟩ = decBits s d a (hi % 32) (hi / 32) := rfl
theorem decFields_1A (s : Bool) (d a hi : Nat) : decFields ⟨s, 0x1A, d, a, hi⟩ = decEff s d a (hi % 32) (hi / 32 % 32) (hi / 1024) := rfl
theorem decFields_1B (s : Bool) (d a hi : Nat) : decFields ⟨s, 0x1B, d, a, hi⟩ = decMsg s d a (hi % 32) (hi / 32 % 32) (hi / 1024) := rfl
theorem decFields_1C (s : Bool) (d a hi : Nat) : decFields ⟨s, 0x1C, d, a, hi⟩ = decTask s d a (hi % 32) (hi / 32 % 32) (hi / 1024) := rfl
theorem decFields_1D (s : Bool) (d a hi : Nat) : decFields ⟨s, 0x1D, d, a, hi⟩ = decGrp s d a (hi % 32) (hi / 32 % 32) (hi / 1024) := rfl
theorem decFields_1E (s : Bool) (d a hi : Nat) : decFields ⟨s, 0x1E, d, a, hi⟩ = (orderOf (hi / 512 % 8)).bind (fun r => decAmo s (scopeOf (hi / 4096)) r (r5 d) (r5 a) (r5 (hi % 32)) ((hi / 32) % 16)) := rfl
theorem decFields_1F (s : Bool) (d a hi : Nat) : decFields ⟨s, 0x1F, d, a, hi⟩ = if (hi / 32) % 16 = 0 then (orderOf (hi / 512 % 8)).map (fun r => .cas s (scopeOf (hi / 4096)) r (r5 d) (r5 a) (r5 (hi % 32))) else none := rfl
theorem decFields_20 (s : Bool) (d a hi : Nat) : decFields ⟨s, 0x20, d, a, hi⟩ = (orderOf (hi / 512 % 8)).bind (fun r => decOrd s (scopeOf (hi / 4096)) r ((hi / 32) / 4 % 4) d a (hi % 32) ((hi / 32) % 4)) := rfl
theorem decFields_21 (s : Bool) (d a hi : Nat) : decFields ⟨s, 0x21, d, a, hi⟩ = decTile s d a (hi % 32) (hi / 32 % 32) (hi / 1024) := rfl
theorem decFields_22 (s : Bool) (d a hi : Nat) : decFields ⟨s, 0x22, d, a, hi⟩ = decVer s d a (hi % 32) (hi / 32 % 32) (hi / 1024) := rfl
theorem decFields_23 (s : Bool) (d a hi : Nat) : decFields ⟨s, 0x23, d, a, hi⟩ = decSys s d a (hi % 32) (hi / 32 % 32) (hi / 1024) := rfl
theorem decFields_24 (s : Bool) (d a hi : Nat) : decFields ⟨s, 0x24, d, a, hi⟩ = decVint s (hi / 256 % 2 == 1) (hi / 32 % 8) d a (hi % 32) (hi / 512) := rfl
theorem decFields_25 (s : Bool) (d a hi : Nat) : decFields ⟨s, 0x25, d, a, hi⟩ = decVfp s (hi / 256 % 2 == 1) (hi / 32 % 8) d a (hi % 32) (hi / 512) := rfl
theorem decFields_26 (s : Bool) (d a hi : Nat) : decFields ⟨s, 0x26, d, a, hi⟩ = decVcvt s (hi / 256 % 2 == 1) (hi / 32 % 8) d a (hi % 32) (hi / 512) := rfl
theorem decFields_27 (s : Bool) (d a hi : Nat) : decFields ⟨s, 0x27, d, a, hi⟩ = decVmov s (hi / 256 % 2 == 1) (hi / 32 % 8) d a (hi % 32) (hi / 512) := rfl
theorem decFields_28 (s : Bool) (d a hi : Nat) : decFields ⟨s, 0x28, d, a, hi⟩ = decVred s (hi / 256 % 2 == 1) (hi / 32 % 8) d a (hi % 32) (hi / 512) := rfl
theorem decFields_29 (s : Bool) (d a hi : Nat) : decFields ⟨s, 0x29, d, a, hi⟩ = decPred s (hi / 256 % 2 == 1) (hi / 32 % 8) d a (hi % 32) (hi / 512) := rfl
theorem decFields_2A (s : Bool) (d a hi : Nat) : decFields ⟨s, 0x2A, d, a, hi⟩ = decVmem s (hi / 256 % 2 == 1) (hi / 32 % 8) d a (hi % 32) (hi / 512) := rfl
theorem decFields_2B (s : Bool) (d a hi : Nat) : decFields ⟨s, 0x2B, d, a, hi⟩ = decCopy s d a (hi % 32) (hi / 32 % 32) (hi / 1024) := rfl
theorem decFields_2C (s : Bool) (d a hi : Nat) : decFields ⟨s, 0x2C, d, a, hi⟩ = decMma (fun t z n => .mma s t z n (r5 d) (r5 a) (r5 (hi % 32)) (r5 (hi / 32 % 32))) (hi / 1024) := rfl
theorem decFields_2D (s : Bool) (d a hi : Nat) : decFields ⟨s, 0x2D, d, a, hi⟩ = decMma (fun t z n => .mmar s t z n (r5 d) (r5 a) (r5 (hi % 32)) (r5 (hi / 32 % 32))) (hi / 1024) := rfl
theorem decFields_2E (s : Bool) (d a hi : Nat) : decFields ⟨s, 0x2E, d, a, hi⟩ = decMma (fun t z n => .mmasp s t z n (r5 d) (r5 a) (r5 (hi % 32)) (r5 (hi / 32 % 32))) (hi / 1024) := rfl
theorem decFields_2F (s : Bool) (d a hi : Nat) : decFields ⟨s, 0x2F, d, a, hi⟩ = decMat s d a (hi % 32) (hi / 32 % 32) (hi / 1024) := rfl
theorem decFields_30 (s : Bool) (d a hi : Nat) : decFields ⟨s, 0x30, d, a, hi⟩ = decRank s d a (hi % 32) (hi / 32 % 32) (hi / 1024) := rfl

theorem RoundTrip.add (s : Bool) (d : Reg) (a : Reg) (b : Reg) : RoundTrip.Statement (.add s d a b) := by
  intro _ _ _
  have hd : d.toNat < 32 := d.isLt
  have ha : a.toNat < 32 := a.isLt
  have hb : b.toNat < 32 := b.isLt
  refine decode_word ⟨s, 0x00, d.toNat, a.toNat, b.toNat⟩ (by dsimp only; omega) (by dsimp only; omega) (by dsimp only; omega) (by dsimp only; omega) ?_
  have e0 : (b.toNat) / 32 = 0 := by omega
  have e1 : (b.toNat) % 32 = b.toNat := by omega
  rw [decFields_00, e0, e1]
  simp [decIntr]
theorem RoundTrip.sub (s : Bool) (d : Reg) (a : Reg) (b : Reg) : RoundTrip.Statement (.sub s d a b) := by
  intro _ _ _
  have hd : d.toNat < 32 := d.isLt
  have ha : a.toNat < 32 := a.isLt
  have hb : b.toNat < 32 := b.isLt
  refine decode_word ⟨s, 0x00, d.toNat, a.toNat, b.toNat + 32⟩ (by dsimp only; omega) (by dsimp only; omega) (by dsimp only; omega) (by dsimp only; omega) ?_
  have e0 : (b.toNat + 32) / 32 = 1 := by omega
  have e1 : (b.toNat + 32) % 32 = b.toNat := by omega
  rw [decFields_00, e0, e1]
  simp [decIntr]
theorem RoundTrip.mul (s : Bool) (d : Reg) (a : Reg) (b : Reg) : RoundTrip.Statement (.mul s d a b) := by
  intro _ _ _
  have hd : d.toNat < 32 := d.isLt
  have ha : a.toNat < 32 := a.isLt
  have hb : b.toNat < 32 := b.isLt
  refine decode_word ⟨s, 0x00, d.toNat, a.toNat, b.toNat + 64⟩ (by dsimp only; omega) (by dsimp only; omega) (by dsimp only; omega) (by dsimp only; omega) ?_
  have e0 : (b.toNat + 64) / 32 = 2 := by omega
  have e1 : (b.toNat + 64) % 32 = b.toNat := by omega
  rw [decFields_00, e0, e1]
  simp [decIntr]
theorem RoundTrip.mulh (s : Bool) (d : Reg) (a : Reg) (b : Reg) : RoundTrip.Statement (.mulh s d a b) := by
  intro _ _ _
  have hd : d.toNat < 32 := d.isLt
  have ha : a.toNat < 32 := a.isLt
  have hb : b.toNat < 32 := b.isLt
  refine decode_word ⟨s, 0x00, d.toNat, a.toNat, b.toNat + 96⟩ (by dsimp only; omega) (by dsimp only; omega) (by dsimp only; omega) (by dsimp only; omega) ?_
  have e0 : (b.toNat + 96) / 32 = 3 := by omega
  have e1 : (b.toNat + 96) % 32 = b.toNat := by omega
  rw [decFields_00, e0, e1]
  simp [decIntr]
theorem RoundTrip.mulhu (s : Bool) (d : Reg) (a : Reg) (b : Reg) : RoundTrip.Statement (.mulhu s d a b) := by
  intro _ _ _
  have hd : d.toNat < 32 := d.isLt
  have ha : a.toNat < 32 := a.isLt
  have hb : b.toNat < 32 := b.isLt
  refine decode_word ⟨s, 0x00, d.toNat, a.toNat, b.toNat + 128⟩ (by dsimp only; omega) (by dsimp only; omega) (by dsimp only; omega) (by dsimp only; omega) ?_
  have e0 : (b.toNat + 128) / 32 = 4 := by omega
  have e1 : (b.toNat + 128) % 32 = b.toNat := by omega
  rw [decFields_00, e0, e1]
  simp [decIntr]
theorem RoundTrip.div (s : Bool) (d : Reg) (a : Reg) (b : Reg) : RoundTrip.Statement (.div s d a b) := by
  intro _ _ _
  have hd : d.toNat < 32 := d.isLt
  have ha : a.toNat < 32 := a.isLt
  have hb : b.toNat < 32 := b.isLt
  refine decode_word ⟨s, 0x00, d.toNat, a.toNat, b.toNat + 160⟩ (by dsimp only; omega) (by dsimp only; omega) (by dsimp only; omega) (by dsimp only; omega) ?_
  have e0 : (b.toNat + 160) / 32 = 5 := by omega
  have e1 : (b.toNat + 160) % 32 = b.toNat := by omega
  rw [decFields_00, e0, e1]
  simp [decIntr]
theorem RoundTrip.divu (s : Bool) (d : Reg) (a : Reg) (b : Reg) : RoundTrip.Statement (.divu s d a b) := by
  intro _ _ _
  have hd : d.toNat < 32 := d.isLt
  have ha : a.toNat < 32 := a.isLt
  have hb : b.toNat < 32 := b.isLt
  refine decode_word ⟨s, 0x00, d.toNat, a.toNat, b.toNat + 192⟩ (by dsimp only; omega) (by dsimp only; omega) (by dsimp only; omega) (by dsimp only; omega) ?_
  have e0 : (b.toNat + 192) / 32 = 6 := by omega
  have e1 : (b.toNat + 192) % 32 = b.toNat := by omega
  rw [decFields_00, e0, e1]
  simp [decIntr]
theorem RoundTrip.rem (s : Bool) (d : Reg) (a : Reg) (b : Reg) : RoundTrip.Statement (.rem s d a b) := by
  intro _ _ _
  have hd : d.toNat < 32 := d.isLt
  have ha : a.toNat < 32 := a.isLt
  have hb : b.toNat < 32 := b.isLt
  refine decode_word ⟨s, 0x00, d.toNat, a.toNat, b.toNat + 224⟩ (by dsimp only; omega) (by dsimp only; omega) (by dsimp only; omega) (by dsimp only; omega) ?_
  have e0 : (b.toNat + 224) / 32 = 7 := by omega
  have e1 : (b.toNat + 224) % 32 = b.toNat := by omega
  rw [decFields_00, e0, e1]
  simp [decIntr]
theorem RoundTrip.remu (s : Bool) (d : Reg) (a : Reg) (b : Reg) : RoundTrip.Statement (.remu s d a b) := by
  intro _ _ _
  have hd : d.toNat < 32 := d.isLt
  have ha : a.toNat < 32 := a.isLt
  have hb : b.toNat < 32 := b.isLt
  refine decode_word ⟨s, 0x00, d.toNat, a.toNat, b.toNat + 256⟩ (by dsimp only; omega) (by dsimp only; omega) (by dsimp only; omega) (by dsimp only; omega) ?_
  have e0 : (b.toNat + 256) / 32 = 8 := by omega
  have e1 : (b.toNat + 256) % 32 = b.toNat := by omega
  rw [decFields_00, e0, e1]
  simp [decIntr]
theorem RoundTrip.and (s : Bool) (d : Reg) (a : Reg) (b : Reg) : RoundTrip.Statement (.and s d a b) := by
  intro _ _ _
  have hd : d.toNat < 32 := d.isLt
  have ha : a.toNat < 32 := a.isLt
  have hb : b.toNat < 32 := b.isLt
  refine decode_word ⟨s, 0x00, d.toNat, a.toNat, b.toNat + 288⟩ (by dsimp only; omega) (by dsimp only; omega) (by dsimp only; omega) (by dsimp only; omega) ?_
  have e0 : (b.toNat + 288) / 32 = 9 := by omega
  have e1 : (b.toNat + 288) % 32 = b.toNat := by omega
  rw [decFields_00, e0, e1]
  simp [decIntr]
theorem RoundTrip.or (s : Bool) (d : Reg) (a : Reg) (b : Reg) : RoundTrip.Statement (.or s d a b) := by
  intro _ _ _
  have hd : d.toNat < 32 := d.isLt
  have ha : a.toNat < 32 := a.isLt
  have hb : b.toNat < 32 := b.isLt
  refine decode_word ⟨s, 0x00, d.toNat, a.toNat, b.toNat + 320⟩ (by dsimp only; omega) (by dsimp only; omega) (by dsimp only; omega) (by dsimp only; omega) ?_
  have e0 : (b.toNat + 320) / 32 = 10 := by omega
  have e1 : (b.toNat + 320) % 32 = b.toNat := by omega
  rw [decFields_00, e0, e1]
  simp [decIntr]
theorem RoundTrip.xor (s : Bool) (d : Reg) (a : Reg) (b : Reg) : RoundTrip.Statement (.xor s d a b) := by
  intro _ _ _
  have hd : d.toNat < 32 := d.isLt
  have ha : a.toNat < 32 := a.isLt
  have hb : b.toNat < 32 := b.isLt
  refine decode_word ⟨s, 0x00, d.toNat, a.toNat, b.toNat + 352⟩ (by dsimp only; omega) (by dsimp only; omega) (by dsimp only; omega) (by dsimp only; omega) ?_
  have e0 : (b.toNat + 352) / 32 = 11 := by omega
  have e1 : (b.toNat + 352) % 32 = b.toNat := by omega
  rw [decFields_00, e0, e1]
  simp [decIntr]
theorem RoundTrip.andn (s : Bool) (d : Reg) (a : Reg) (b : Reg) : RoundTrip.Statement (.andn s d a b) := by
  intro _ _ _
  have hd : d.toNat < 32 := d.isLt
  have ha : a.toNat < 32 := a.isLt
  have hb : b.toNat < 32 := b.isLt
  refine decode_word ⟨s, 0x00, d.toNat, a.toNat, b.toNat + 384⟩ (by dsimp only; omega) (by dsimp only; omega) (by dsimp only; omega) (by dsimp only; omega) ?_
  have e0 : (b.toNat + 384) / 32 = 12 := by omega
  have e1 : (b.toNat + 384) % 32 = b.toNat := by omega
  rw [decFields_00, e0, e1]
  simp [decIntr]
theorem RoundTrip.orn (s : Bool) (d : Reg) (a : Reg) (b : Reg) : RoundTrip.Statement (.orn s d a b) := by
  intro _ _ _
  have hd : d.toNat < 32 := d.isLt
  have ha : a.toNat < 32 := a.isLt
  have hb : b.toNat < 32 := b.isLt
  refine decode_word ⟨s, 0x00, d.toNat, a.toNat, b.toNat + 416⟩ (by dsimp only; omega) (by dsimp only; omega) (by dsimp only; omega) (by dsimp only; omega) ?_
  have e0 : (b.toNat + 416) / 32 = 13 := by omega
  have e1 : (b.toNat + 416) % 32 = b.toNat := by omega
  rw [decFields_00, e0, e1]
  simp [decIntr]
theorem RoundTrip.shl (s : Bool) (d : Reg) (a : Reg) (b : Reg) : RoundTrip.Statement (.shl s d a b) := by
  intro _ _ _
  have hd : d.toNat < 32 := d.isLt
  have ha : a.toNat < 32 := a.isLt
  have hb : b.toNat < 32 := b.isLt
  refine decode_word ⟨s, 0x00, d.toNat, a.toNat, b.toNat + 448⟩ (by dsimp only; omega) (by dsimp only; omega) (by dsimp only; omega) (by dsimp only; omega) ?_
  have e0 : (b.toNat + 448) / 32 = 14 := by omega
  have e1 : (b.toNat + 448) % 32 = b.toNat := by omega
  rw [decFields_00, e0, e1]
  simp [decIntr]
theorem RoundTrip.shr (s : Bool) (d : Reg) (a : Reg) (b : Reg) : RoundTrip.Statement (.shr s d a b) := by
  intro _ _ _
  have hd : d.toNat < 32 := d.isLt
  have ha : a.toNat < 32 := a.isLt
  have hb : b.toNat < 32 := b.isLt
  refine decode_word ⟨s, 0x00, d.toNat, a.toNat, b.toNat + 480⟩ (by dsimp only; omega) (by dsimp only; omega) (by dsimp only; omega) (by dsimp only; omega) ?_
  have e0 : (b.toNat + 480) / 32 = 15 := by omega
  have e1 : (b.toNat + 480) % 32 = b.toNat := by omega
  rw [decFields_00, e0, e1]
  simp [decIntr]
theorem RoundTrip.sar (s : Bool) (d : Reg) (a : Reg) (b : Reg) : RoundTrip.Statement (.sar s d a b) := by
  intro _ _ _
  have hd : d.toNat < 32 := d.isLt
  have ha : a.toNat < 32 := a.isLt
  have hb : b.toNat < 32 := b.isLt
  refine decode_word ⟨s, 0x00, d.toNat, a.toNat, b.toNat + 512⟩ (by dsimp only; omega) (by dsimp only; omega) (by dsimp only; omega) (by dsimp only; omega) ?_
  have e0 : (b.toNat + 512) / 32 = 16 := by omega
  have e1 : (b.toNat + 512) % 32 = b.toNat := by omega
  rw [decFields_00, e0, e1]
  simp [decIntr]
theorem RoundTrip.rol (s : Bool) (d : Reg) (a : Reg) (b : Reg) : RoundTrip.Statement (.rol s d a b) := by
  intro _ _ _
  have hd : d.toNat < 32 := d.isLt
  have ha : a.toNat < 32 := a.isLt
  have hb : b.toNat < 32 := b.isLt
  refine decode_word ⟨s, 0x00, d.toNat, a.toNat, b.toNat + 544⟩ (by dsimp only; omega) (by dsimp only; omega) (by dsimp only; omega) (by dsimp only; omega) ?_
  have e0 : (b.toNat + 544) / 32 = 17 := by omega
  have e1 : (b.toNat + 544) % 32 = b.toNat := by omega
  rw [decFields_00, e0, e1]
  simp [decIntr]
theorem RoundTrip.ror (s : Bool) (d : Reg) (a : Reg) (b : Reg) : RoundTrip.Statement (.ror s d a b) := by
  intro _ _ _
  have hd : d.toNat < 32 := d.isLt
  have ha : a.toNat < 32 := a.isLt
  have hb : b.toNat < 32 := b.isLt
  refine decode_word ⟨s, 0x00, d.toNat, a.toNat, b.toNat + 576⟩ (by dsimp only; omega) (by dsimp only; omega) (by dsimp only; omega) (by dsimp only; omega) ?_
  have e0 : (b.toNat + 576) / 32 = 18 := by omega
  have e1 : (b.toNat + 576) % 32 = b.toNat := by omega
  rw [decFields_00, e0, e1]
  simp [decIntr]
theorem RoundTrip.min (s : Bool) (d : Reg) (a : Reg) (b : Reg) : RoundTrip.Statement (.min s d a b) := by
  intro _ _ _
  have hd : d.toNat < 32 := d.isLt
  have ha : a.toNat < 32 := a.isLt
  have hb : b.toNat < 32 := b.isLt
  refine decode_word ⟨s, 0x00, d.toNat, a.toNat, b.toNat + 608⟩ (by dsimp only; omega) (by dsimp only; omega) (by dsimp only; omega) (by dsimp only; omega) ?_
  have e0 : (b.toNat + 608) / 32 = 19 := by omega
  have e1 : (b.toNat + 608) % 32 = b.toNat := by omega
  rw [decFields_00, e0, e1]
  simp [decIntr]
theorem RoundTrip.max (s : Bool) (d : Reg) (a : Reg) (b : Reg) : RoundTrip.Statement (.max s d a b) := by
  intro _ _ _
  have hd : d.toNat < 32 := d.isLt
  have ha : a.toNat < 32 := a.isLt
  have hb : b.toNat < 32 := b.isLt
  refine decode_word ⟨s, 0x00, d.toNat, a.toNat, b.toNat + 640⟩ (by dsimp only; omega) (by dsimp only; omega) (by dsimp only; omega) (by dsimp only; omega) ?_
  have e0 : (b.toNat + 640) / 32 = 20 := by omega
  have e1 : (b.toNat + 640) % 32 = b.toNat := by omega
  rw [decFields_00, e0, e1]
  simp [decIntr]
theorem RoundTrip.minu (s : Bool) (d : Reg) (a : Reg) (b : Reg) : RoundTrip.Statement (.minu s d a b) := by
  intro _ _ _
  have hd : d.toNat < 32 := d.isLt
  have ha : a.toNat < 32 := a.isLt
  have hb : b.toNat < 32 := b.isLt
  refine decode_word ⟨s, 0x00, d.toNat, a.toNat, b.toNat + 672⟩ (by dsimp only; omega) (by dsimp only; omega) (by dsimp only; omega) (by dsimp only; omega) ?_
  have e0 : (b.toNat + 672) / 32 = 21 := by omega
  have e1 : (b.toNat + 672) % 32 = b.toNat := by omega
  rw [decFields_00, e0, e1]
  simp [decIntr]
theorem RoundTrip.maxu (s : Bool) (d : Reg) (a : Reg) (b : Reg) : RoundTrip.Statement (.maxu s d a b) := by
  intro _ _ _
  have hd : d.toNat < 32 := d.isLt
  have ha : a.toNat < 32 := a.isLt
  have hb : b.toNat < 32 := b.isLt
  refine decode_word ⟨s, 0x00, d.toNat, a.toNat, b.toNat + 704⟩ (by dsimp only; omega) (by dsimp only; omega) (by dsimp only; omega) (by dsimp only; omega) ?_
  have e0 : (b.toNat + 704) / 32 = 22 := by omega
  have e1 : (b.toNat + 704) % 32 = b.toNat := by omega
  rw [decFields_00, e0, e1]
  simp [decIntr]
theorem RoundTrip.sel (s : Bool) (d : Reg) (a : Reg) (b : Reg) : RoundTrip.Statement (.sel s d a b) := by
  intro _ _ _
  have hd : d.toNat < 32 := d.isLt
  have ha : a.toNat < 32 := a.isLt
  have hb : b.toNat < 32 := b.isLt
  refine decode_word ⟨s, 0x00, d.toNat, a.toNat, b.toNat + 736⟩ (by dsimp only; omega) (by dsimp only; omega) (by dsimp only; omega) (by dsimp only; omega) ?_
  have e0 : (b.toNat + 736) / 32 = 23 := by omega
  have e1 : (b.toNat + 736) % 32 = b.toNat := by omega
  rw [decFields_00, e0, e1]
  simp [decIntr]
theorem RoundTrip.cmpeq (s : Bool) (d : Reg) (a : Reg) (b : Reg) : RoundTrip.Statement (.cmpeq s d a b) := by
  intro _ _ _
  have hd : d.toNat < 32 := d.isLt
  have ha : a.toNat < 32 := a.isLt
  have hb : b.toNat < 32 := b.isLt
  refine decode_word ⟨s, 0x00, d.toNat, a.toNat, b.toNat + 768⟩ (by dsimp only; omega) (by dsimp only; omega) (by dsimp only; omega) (by dsimp only; omega) ?_
  have e0 : (b.toNat + 768) / 32 = 24 := by omega
  have e1 : (b.toNat + 768) % 32 = b.toNat := by omega
  rw [decFields_00, e0, e1]
  simp [decIntr]
theorem RoundTrip.cmpne (s : Bool) (d : Reg) (a : Reg) (b : Reg) : RoundTrip.Statement (.cmpne s d a b) := by
  intro _ _ _
  have hd : d.toNat < 32 := d.isLt
  have ha : a.toNat < 32 := a.isLt
  have hb : b.toNat < 32 := b.isLt
  refine decode_word ⟨s, 0x00, d.toNat, a.toNat, b.toNat + 800⟩ (by dsimp only; omega) (by dsimp only; omega) (by dsimp only; omega) (by dsimp only; omega) ?_
  have e0 : (b.toNat + 800) / 32 = 25 := by omega
  have e1 : (b.toNat + 800) % 32 = b.toNat := by omega
  rw [decFields_00, e0, e1]
  simp [decIntr]
theorem RoundTrip.cmplt (s : Bool) (d : Reg) (a : Reg) (b : Reg) : RoundTrip.Statement (.cmplt s d a b) := by
  intro _ _ _
  have hd : d.toNat < 32 := d.isLt
  have ha : a.toNat < 32 := a.isLt
  have hb : b.toNat < 32 := b.isLt
  refine decode_word ⟨s, 0x00, d.toNat, a.toNat, b.toNat + 832⟩ (by dsimp only; omega) (by dsimp only; omega) (by dsimp only; omega) (by dsimp only; omega) ?_
  have e0 : (b.toNat + 832) / 32 = 26 := by omega
  have e1 : (b.toNat + 832) % 32 = b.toNat := by omega
  rw [decFields_00, e0, e1]
  simp [decIntr]
theorem RoundTrip.cmpge (s : Bool) (d : Reg) (a : Reg) (b : Reg) : RoundTrip.Statement (.cmpge s d a b) := by
  intro _ _ _
  have hd : d.toNat < 32 := d.isLt
  have ha : a.toNat < 32 := a.isLt
  have hb : b.toNat < 32 := b.isLt
  refine decode_word ⟨s, 0x00, d.toNat, a.toNat, b.toNat + 864⟩ (by dsimp only; omega) (by dsimp only; omega) (by dsimp only; omega) (by dsimp only; omega) ?_
  have e0 : (b.toNat + 864) / 32 = 27 := by omega
  have e1 : (b.toNat + 864) % 32 = b.toNat := by omega
  rw [decFields_00, e0, e1]
  simp [decIntr]
theorem RoundTrip.cmpltu (s : Bool) (d : Reg) (a : Reg) (b : Reg) : RoundTrip.Statement (.cmpltu s d a b) := by
  intro _ _ _
  have hd : d.toNat < 32 := d.isLt
  have ha : a.toNat < 32 := a.isLt
  have hb : b.toNat < 32 := b.isLt
  refine decode_word ⟨s, 0x00, d.toNat, a.toNat, b.toNat + 896⟩ (by dsimp only; omega) (by dsimp only; omega) (by dsimp only; omega) (by dsimp only; omega) ?_
  have e0 : (b.toNat + 896) / 32 = 28 := by omega
  have e1 : (b.toNat + 896) % 32 = b.toNat := by omega
  rw [decFields_00, e0, e1]
  simp [decIntr]
theorem RoundTrip.cmpgeu (s : Bool) (d : Reg) (a : Reg) (b : Reg) : RoundTrip.Statement (.cmpgeu s d a b) := by
  intro _ _ _
  have hd : d.toNat < 32 := d.isLt
  have ha : a.toNat < 32 := a.isLt
  have hb : b.toNat < 32 := b.isLt
  refine decode_word ⟨s, 0x00, d.toNat, a.toNat, b.toNat + 928⟩ (by dsimp only; omega) (by dsimp only; omega) (by dsimp only; omega) (by dsimp only; omega) ?_
  have e0 : (b.toNat + 928) / 32 = 29 := by omega
  have e1 : (b.toNat + 928) % 32 = b.toNat := by omega
  rw [decFields_00, e0, e1]
  simp [decIntr]
theorem RoundTrip.clz (s : Bool) (d : Reg) (a : Reg) : RoundTrip.Statement (.clz s d a) := by
  intro _ _ _
  have hd : d.toNat < 32 := d.isLt
  have ha : a.toNat < 32 := a.isLt
  refine decode_word ⟨s, 0x01, d.toNat, a.toNat, 0⟩ (by dsimp only; omega) (by dsimp only; omega) (by dsimp only; omega) (by dsimp only; omega) ?_
  rw [decFields_01]
  simp [decIntu]
theorem RoundTrip.ctz (s : Bool) (d : Reg) (a : Reg) : RoundTrip.Statement (.ctz s d a) := by
  intro _ _ _
  have hd : d.toNat < 32 := d.isLt
  have ha : a.toNat < 32 := a.isLt
  refine decode_word ⟨s, 0x01, d.toNat, a.toNat, 32⟩ (by dsimp only; omega) (by dsimp only; omega) (by dsimp only; omega) (by dsimp only; omega) ?_
  rw [decFields_01]
  simp [decIntu]
theorem RoundTrip.popc (s : Bool) (d : Reg) (a : Reg) : RoundTrip.Statement (.popc s d a) := by
  intro _ _ _
  have hd : d.toNat < 32 := d.isLt
  have ha : a.toNat < 32 := a.isLt
  refine decode_word ⟨s, 0x01, d.toNat, a.toNat, 64⟩ (by dsimp only; omega) (by dsimp only; omega) (by dsimp only; omega) (by dsimp only; omega) ?_
  rw [decFields_01]
  simp [decIntu]
theorem RoundTrip.bswap (s : Bool) (d : Reg) (a : Reg) : RoundTrip.Statement (.bswap s d a) := by
  intro _ _ _
  have hd : d.toNat < 32 := d.isLt
  have ha : a.toNat < 32 := a.isLt
  refine decode_word ⟨s, 0x01, d.toNat, a.toNat, 96⟩ (by dsimp only; omega) (by dsimp only; omega) (by dsimp only; omega) (by dsimp only; omega) ?_
  rw [decFields_01]
  simp [decIntu]
theorem RoundTrip.sextb (s : Bool) (d : Reg) (a : Reg) : RoundTrip.Statement (.sextb s d a) := by
  intro _ _ _
  have hd : d.toNat < 32 := d.isLt
  have ha : a.toNat < 32 := a.isLt
  refine decode_word ⟨s, 0x01, d.toNat, a.toNat, 128⟩ (by dsimp only; omega) (by dsimp only; omega) (by dsimp only; omega) (by dsimp only; omega) ?_
  rw [decFields_01]
  simp [decIntu]
theorem RoundTrip.sexth (s : Bool) (d : Reg) (a : Reg) : RoundTrip.Statement (.sexth s d a) := by
  intro _ _ _
  have hd : d.toNat < 32 := d.isLt
  have ha : a.toNat < 32 := a.isLt
  refine decode_word ⟨s, 0x01, d.toNat, a.toNat, 160⟩ (by dsimp only; omega) (by dsimp only; omega) (by dsimp only; omega) (by dsimp only; omega) ?_
  rw [decFields_01]
  simp [decIntu]
theorem RoundTrip.sextw (s : Bool) (d : Reg) (a : Reg) : RoundTrip.Statement (.sextw s d a) := by
  intro _ _ _
  have hd : d.toNat < 32 := d.isLt
  have ha : a.toNat < 32 := a.isLt
  refine decode_word ⟨s, 0x01, d.toNat, a.toNat, 192⟩ (by dsimp only; omega) (by dsimp only; omega) (by dsimp only; omega) (by dsimp only; omega) ?_
  rw [decFields_01]
  simp [decIntu]
theorem RoundTrip.zextb (s : Bool) (d : Reg) (a : Reg) : RoundTrip.Statement (.zextb s d a) := by
  intro _ _ _
  have hd : d.toNat < 32 := d.isLt
  have ha : a.toNat < 32 := a.isLt
  refine decode_word ⟨s, 0x01, d.toNat, a.toNat, 224⟩ (by dsimp only; omega) (by dsimp only; omega) (by dsimp only; omega) (by dsimp only; omega) ?_
  rw [decFields_01]
  simp [decIntu]
theorem RoundTrip.zexth (s : Bool) (d : Reg) (a : Reg) : RoundTrip.Statement (.zexth s d a) := by
  intro _ _ _
  have hd : d.toNat < 32 := d.isLt
  have ha : a.toNat < 32 := a.isLt
  refine decode_word ⟨s, 0x01, d.toNat, a.toNat, 256⟩ (by dsimp only; omega) (by dsimp only; omega) (by dsimp only; omega) (by dsimp only; omega) ?_
  rw [decFields_01]
  simp [decIntu]
theorem RoundTrip.zextw (s : Bool) (d : Reg) (a : Reg) : RoundTrip.Statement (.zextw s d a) := by
  intro _ _ _
  have hd : d.toNat < 32 := d.isLt
  have ha : a.toNat < 32 := a.isLt
  refine decode_word ⟨s, 0x01, d.toNat, a.toNat, 288⟩ (by dsimp only; omega) (by dsimp only; omega) (by dsimp only; omega) (by dsimp only; omega) ?_
  rw [decFields_01]
  simp [decIntu]
theorem RoundTrip.addi (s : Bool) (d : Reg) (a : Reg) (i : BitVec 14) : RoundTrip.Statement (.addi s d a i) := by
  intro _ _ _
  have hd : d.toNat < 32 := d.isLt
  have ha : a.toNat < 32 := a.isLt
  have hi : i.toNat < 16384 := i.isLt
  refine decode_word ⟨s, 0x02, d.toNat, a.toNat, i.toNat⟩ (by dsimp only; omega) (by dsimp only; omega) (by dsimp only; omega) (by dsimp only; omega) ?_
  rw [decFields_02]
  simp
theorem RoundTrip.andi (s : Bool) (d : Reg) (a : Reg) (i : BitVec 14) : RoundTrip.Statement (.andi s d a i) := by
  intro _ _ _
  have hd : d.toNat < 32 := d.isLt
  have ha : a.toNat < 32 := a.isLt
  have hi : i.toNat < 16384 := i.isLt
  refine decode_word ⟨s, 0x03, d.toNat, a.toNat, i.toNat⟩ (by dsimp only; omega) (by dsimp only; omega) (by dsimp only; omega) (by dsimp only; omega) ?_
  rw [decFields_03]
  simp
theorem RoundTrip.ori (s : Bool) (d : Reg) (a : Reg) (i : BitVec 14) : RoundTrip.Statement (.ori s d a i) := by
  intro _ _ _
  have hd : d.toNat < 32 := d.isLt
  have ha : a.toNat < 32 := a.isLt
  have hi : i.toNat < 16384 := i.isLt
  refine decode_word ⟨s, 0x04, d.toNat, a.toNat, i.toNat⟩ (by dsimp only; omega) (by dsimp only; omega) (by dsimp only; omega) (by dsimp only; omega) ?_
  rw [decFields_04]
  simp
theorem RoundTrip.xori (s : Bool) (d : Reg) (a : Reg) (i : BitVec 14) : RoundTrip.Statement (.xori s d a i) := by
  intro _ _ _
  have hd : d.toNat < 32 := d.isLt
  have ha : a.toNat < 32 := a.isLt
  have hi : i.toNat < 16384 := i.isLt
  refine decode_word ⟨s, 0x05, d.toNat, a.toNat, i.toNat⟩ (by dsimp only; omega) (by dsimp only; omega) (by dsimp only; omega) (by dsimp only; omega) ?_
  rw [decFields_05]
  simp
theorem RoundTrip.shli (s : Bool) (d : Reg) (a : Reg) (n : BitVec 6) : RoundTrip.Statement (.shli s d a n) := by
  intro _ _ _
  have hd : d.toNat < 32 := d.isLt
  have ha : a.toNat < 32 := a.isLt
  have hn : n.toNat < 64 := n.isLt
  refine decode_word ⟨s, 0x06, d.toNat, a.toNat, n.toNat⟩ (by dsimp only; omega) (by dsimp only; omega) (by dsimp only; omega) (by dsimp only; omega) ?_
  have e0 : (n.toNat) / 64 = 0 := by omega
  rw [decFields_06, e0]
  simp [decShift]
theorem RoundTrip.shri (s : Bool) (d : Reg) (a : Reg) (n : BitVec 6) : RoundTrip.Statement (.shri s d a n) := by
  intro _ _ _
  have hd : d.toNat < 32 := d.isLt
  have ha : a.toNat < 32 := a.isLt
  have hn : n.toNat < 64 := n.isLt
  refine decode_word ⟨s, 0x06, d.toNat, a.toNat, n.toNat + 64⟩ (by dsimp only; omega) (by dsimp only; omega) (by dsimp only; omega) (by dsimp only; omega) ?_
  have e0 : (n.toNat + 64) / 64 = 1 := by omega
  have f0 : BitVec.ofNat 6 (n.toNat + 64) = n := by
    apply BitVec.eq_of_toNat_eq
    rw [BitVec.toNat_ofNat]
    omega
  rw [decFields_06, e0, f0]
  simp [decShift]
theorem RoundTrip.sari (s : Bool) (d : Reg) (a : Reg) (n : BitVec 6) : RoundTrip.Statement (.sari s d a n) := by
  intro _ _ _
  have hd : d.toNat < 32 := d.isLt
  have ha : a.toNat < 32 := a.isLt
  have hn : n.toNat < 64 := n.isLt
  refine decode_word ⟨s, 0x06, d.toNat, a.toNat, n.toNat + 128⟩ (by dsimp only; omega) (by dsimp only; omega) (by dsimp only; omega) (by dsimp only; omega) ?_
  have e0 : (n.toNat + 128) / 64 = 2 := by omega
  have f0 : BitVec.ofNat 6 (n.toNat + 128) = n := by
    apply BitVec.eq_of_toNat_eq
    rw [BitVec.toNat_ofNat]
    omega
  rw [decFields_06, e0, f0]
  simp [decShift]
theorem RoundTrip.rori (s : Bool) (d : Reg) (a : Reg) (n : BitVec 6) : RoundTrip.Statement (.rori s d a n) := by
  intro _ _ _
  have hd : d.toNat < 32 := d.isLt
  have ha : a.toNat < 32 := a.isLt
  have hn : n.toNat < 64 := n.isLt
  refine decode_word ⟨s, 0x06, d.toNat, a.toNat, n.toNat + 192⟩ (by dsimp only; omega) (by dsimp only; omega) (by dsimp only; omega) (by dsimp only; omega) ?_
  have e0 : (n.toNat + 192) / 64 = 3 := by omega
  have f0 : BitVec.ofNat 6 (n.toNat + 192) = n := by
    apply BitVec.eq_of_toNat_eq
    rw [BitVec.toNat_ofNat]
    omega
  rw [decFields_06, e0, f0]
  simp [decShift]
theorem RoundTrip.cmpi (s : Bool) (c : Cond) (d : Reg) (a : Reg) (i : BitVec 11) : RoundTrip.Statement (.cmpi s c d a i) := by
  intro _ _ _
  have hc := condCode_lt c
  have hd : d.toNat < 32 := d.isLt
  have ha : a.toNat < 32 := a.isLt
  have hi : i.toNat < 2048 := i.isLt
  refine decode_word ⟨s, 0x07, d.toNat, a.toNat, c.code + 8 * i.toNat⟩ (by dsimp only; omega) (by dsimp only; omega) (by dsimp only; omega) (by dsimp only; omega) ?_
  have e0 : (c.code + 8 * i.toNat) / 8 = i.toNat := by omega
  have e1 : (c.code + 8 * i.toNat) % 8 = c.code := by omega
  rw [decFields_07, e0, e1]
  simp [condOf_code]
theorem RoundTrip.li (s : Bool) (d : Reg) (i : BitVec 19) : RoundTrip.Statement (.li s d i) := by
  intro _ _ _
  have hd : d.toNat < 32 := d.isLt
  have hi : i.toNat < 524288 := i.isLt
  refine decode_word ⟨s, 0x08, d.toNat, i.toNat % 32, i.toNat / 32⟩ (by dsimp only; omega) (by dsimp only; omega) (by dsimp only; omega) (by dsimp only; omega) ?_
  have f0 : i.toNat % 32 + 32 * (i.toNat / 32) = i.toNat := by omega
  rw [decFields_08, f0]
  simp
theorem RoundTrip.lih (s : Bool) (d : Reg) (i : BitVec 19) : RoundTrip.Statement (.lih s d i) := by
  intro _ _ _
  have hd : d.toNat < 32 := d.isLt
  have hi : i.toNat < 524288 := i.isLt
  refine decode_word ⟨s, 0x09, d.toNat, i.toNat % 32, i.toNat / 32⟩ (by dsimp only; omega) (by dsimp only; omega) (by dsimp only; omega) (by dsimp only; omega) ?_
  have f0 : i.toNat % 32 + 32 * (i.toNat / 32) = i.toNat := by omega
  rw [decFields_09, f0]
  simp
theorem RoundTrip.addpc (s : Bool) (d : Reg) (i : BitVec 19) : RoundTrip.Statement (.addpc s d i) := by
  intro _ _ _
  have hd : d.toNat < 32 := d.isLt
  have hi : i.toNat < 524288 := i.isLt
  refine decode_word ⟨s, 0x0A, d.toNat, i.toNat % 32, i.toNat / 32⟩ (by dsimp only; omega) (by dsimp only; omega) (by dsimp only; omega) (by dsimp only; omega) ?_
  have f0 : i.toNat % 32 + 32 * (i.toNat / 32) = i.toNat := by omega
  rw [decFields_0A, f0]
  simp
theorem RoundTrip.lea (s : Bool) (z : Size) (d : Reg) (a : Reg) (i : BitVec 11) : RoundTrip.Statement (.lea s z d a i) := by
  intro _ _ _
  have hz := sizeCode_lt z
  have hd : d.toNat < 32 := d.isLt
  have ha : a.toNat < 32 := a.isLt
  have hi : i.toNat < 2048 := i.isLt
  refine decode_word ⟨s, 0x0B, d.toNat, a.toNat, z.code + 8 * i.toNat⟩ (by dsimp only; omega) (by dsimp only; omega) (by dsimp only; omega) (by dsimp only; omega) ?_
  have e0 : (z.code + 8 * i.toNat) / 4 % 2 = 0 := by omega
  have e1 : (z.code + 8 * i.toNat) / 8 = i.toNat := by omega
  have e2 : (z.code + 8 * i.toNat) % 4 = z.code := by omega
  rw [decFields_0B, e0, e1, e2]
  simp [okIf, sizeOf_code]
theorem RoundTrip.ld (s : Bool) (z : Size) (x : Bool) (d : Reg) (a : Reg) (i : BitVec 11) : RoundTrip.Statement (.ld s z x d a i) := by
  intro wf _ _
  have hz := sizeCode_lt z
  have hx : b2n x < 2 := Nat.lt_succ_of_le (b2n_le x)
  have hd : d.toNat < 32 := d.isLt
  have ha : a.toNat < 32 := a.isLt
  have hi : i.toNat < 2048 := i.isLt
  refine decode_word ⟨s, 0x0C, d.toNat, a.toNat, z.code + 4 * b2n x + 8 * i.toNat⟩ (by dsimp only; omega) (by dsimp only; omega) (by dsimp only; omega) (by dsimp only; omega) ?_
  have e0 : (z.code + 4 * b2n x + 8 * i.toNat) / 4 % 2 = b2n x := by omega
  have e1 : (z.code + 4 * b2n x + 8 * i.toNat) % 4 = z.code := by omega
  have e2 : (z.code + 4 * b2n x + 8 * i.toNat) % 8 = z.code + 4 * b2n x := by omega
  have e3 : (z.code + 4 * b2n x + 8 * i.toNat) / 8 = i.toNat := by omega
  have hw : z.code + 4 * b2n x < 7 := by revert wf; cases z <;> cases x <;> first | (intro _; decide) | (intro wf; exact absurd wf Bool.false_ne_true)
  rw [decFields_0C, e0, e1, e2, e3]
  simp [Nat.ne_of_lt hw, okIf, b2n_beq, sizeOf_code]
theorem RoundTrip.st (s : Bool) (z : Size) (d : Reg) (a : Reg) (i : BitVec 11) : RoundTrip.Statement (.st s z d a i) := by
  intro _ _ _
  have hz := sizeCode_lt z
  have hd : d.toNat < 32 := d.isLt
  have ha : a.toNat < 32 := a.isLt
  have hi : i.toNat < 2048 := i.isLt
  refine decode_word ⟨s, 0x0D, d.toNat, a.toNat, z.code + 8 * i.toNat⟩ (by dsimp only; omega) (by dsimp only; omega) (by dsimp only; omega) (by dsimp only; omega) ?_
  have e0 : (z.code + 8 * i.toNat) / 4 % 2 = 0 := by omega
  have e1 : (z.code + 8 * i.toNat) / 8 = i.toNat := by omega
  have e2 : (z.code + 8 * i.toNat) % 4 = z.code := by omega
  rw [decFields_0D, e0, e1, e2]
  simp [okIf, sizeOf_code]
theorem RoundTrip.ldx (s : Bool) (z : Size) (x : Bool) (d : Reg) (a : Reg) (b : Reg) : RoundTrip.Statement (.ldx s z x d a b) := by
  intro wf _ _
  have hz := sizeCode_lt z
  have hx : b2n x < 2 := Nat.lt_succ_of_le (b2n_le x)
  have hd : d.toNat < 32 := d.isLt
  have ha : a.toNat < 32 := a.isLt
  have hb : b.toNat < 32 := b.isLt
  refine decode_word ⟨s, 0x0E, d.toNat, a.toNat, z.code + 4 * b2n x + 8 * b.toNat⟩ (by dsimp only; omega) (by dsimp only; omega) (by dsimp only; omega) (by dsimp only; omega) ?_
  have e0 : (z.code + 4 * b2n x + 8 * b.toNat) / 4 % 2 = b2n x := by omega
  have e1 : (z.code + 4 * b2n x + 8 * b.toNat) % 8 = z.code + 4 * b2n x := by omega
  have e2 : (z.code + 4 * b2n x + 8 * b.toNat) / 8 = b.toNat := by omega
  have e3 : (z.code + 4 * b2n x + 8 * b.toNat) % 4 = z.code := by omega
  have hw : z.code + 4 * b2n x < 7 := by revert wf; cases z <;> cases x <;> first | (intro _; decide) | (intro wf; exact absurd wf Bool.false_ne_true)
  rw [decFields_0E, e0, e1, e2, e3]
  simp [Nat.ne_of_lt hw, hb, okIf, b2n_beq, sizeOf_code]
theorem RoundTrip.stx (s : Bool) (z : Size) (d : Reg) (a : Reg) (b : Reg) : RoundTrip.Statement (.stx s z d a b) := by
  intro _ _ _
  have hz := sizeCode_lt z
  have hd : d.toNat < 32 := d.isLt
  have ha : a.toNat < 32 := a.isLt
  have hb : b.toNat < 32 := b.isLt
  refine decode_word ⟨s, 0x0F, d.toNat, a.toNat, z.code + 8 * b.toNat⟩ (by dsimp only; omega) (by dsimp only; omega) (by dsimp only; omega) (by dsimp only; omega) ?_
  have e0 : (z.code + 8 * b.toNat) / 4 % 2 = 0 := by omega
  have e1 : (z.code + 8 * b.toNat) / 8 = b.toNat := by omega
  have e2 : (z.code + 8 * b.toNat) % 4 = z.code := by omega
  rw [decFields_0F, e0, e1, e2]
  simp [hb, okIf, sizeOf_code]
theorem RoundTrip.mfs (s : Bool) (d : Reg) (i : BitVec 14) : RoundTrip.Statement (.mfs s d i) := by
  intro _ _ _
  have hd : d.toNat < 32 := d.isLt
  have hi : i.toNat < 16384 := i.isLt
  refine decode_word ⟨s, 0x10, d.toNat, 0, i.toNat⟩ (by dsimp only; omega) (by dsimp only; omega) (by dsimp only; omega) (by dsimp only; omega) ?_
  rw [decFields_10]
  simp [okIf]
theorem RoundTrip.mts (s : Bool) (a : Reg) (i : BitVec 14) : RoundTrip.Statement (.mts s a i) := by
  intro _ _ _
  have ha : a.toNat < 32 := a.isLt
  have hi : i.toNat < 16384 := i.isLt
  refine decode_word ⟨s, 0x11, 0, a.toNat, i.toNat⟩ (by dsimp only; omega) (by dsimp only; omega) (by dsimp only; omega) (by dsimp only; omega) ?_
  rw [decFields_11]
  simp [okIf]
theorem RoundTrip.bc (s : Bool) (h : Hint) (c : Cond) (b : Reg) (a : Reg) (o : BitVec 9) : RoundTrip.Statement (.bc s h c b a o) := by
  intro _ _ _
  have hh := hintCode_lt h
  have hc := condCode_lt c
  have hb : b.toNat < 32 := b.isLt
  have ha : a.toNat < 32 := a.isLt
  have ho : o.toNat < 512 := o.isLt
  refine decode_word ⟨s, 0x12, a.toNat, b.toNat, c.code + 8 * h.code + 32 * o.toNat⟩ (by dsimp only; omega) (by dsimp only; omega) (by dsimp only; omega) (by dsimp only; omega) ?_
  have e0 : (c.code + 8 * h.code + 32 * o.toNat) / 8 % 4 = h.code := by omega
  have e1 : (c.code + 8 * h.code + 32 * o.toNat) / 32 = o.toNat := by omega
  have e2 : (c.code + 8 * h.code + 32 * o.toNat) % 8 = c.code := by omega
  rw [decFields_12, e0, e1, e2]
  simp [condOf_code, hintOf_code]
theorem RoundTrip.bz (s : Bool) (h : Hint) (c : BzCond) (a : Reg) (o : BitVec 14) : RoundTrip.Statement (.bz s h c a o) := by
  intro _ _ _
  have hh := hintCode_lt h
  have hc := bzCondCode_lt c
  have ha : a.toNat < 32 := a.isLt
  have ho : o.toNat < 16384 := o.isLt
  refine decode_word ⟨s, 0x13, a.toNat, c.code + 8 * h.code, o.toNat⟩ (by dsimp only; omega) (by dsimp only; omega) (by dsimp only; omega) (by dsimp only; omega) ?_
  have f0 : (c.code + 8 * h.code) % 8 = c.code := by omega
  have f1 : (c.code + 8 * h.code) / 8 = h.code := by omega
  rw [decFields_13, f0, f1]
  simp [bzCondOf_code, hintOf_code]
theorem RoundTrip.br (s : Bool) (o : BitVec 24) : RoundTrip.Statement (.br s o) := by
  intro _ _ _
  have ho : o.toNat < 16777216 := o.isLt
  refine decode_word ⟨s, 0x14, o.toNat % 32, o.toNat / 32 % 32, o.toNat / 1024⟩ (by dsimp only; omega) (by dsimp only; omega) (by dsimp only; omega) (by dsimp only; omega) ?_
  have f0 : o.toNat % 32 + 32 * (o.toNat / 32 % 32) + 1024 * (o.toNat / 1024) = o.toNat := by omega
  rw [decFields_14, f0]
  simp
theorem RoundTrip.call (s : Bool) (o : BitVec 24) : RoundTrip.Statement (.call s o) := by
  intro _ _ _
  have ho : o.toNat < 16777216 := o.isLt
  refine decode_word ⟨s, 0x15, o.toNat % 32, o.toNat / 32 % 32, o.toNat / 1024⟩ (by dsimp only; omega) (by dsimp only; omega) (by dsimp only; omega) (by dsimp only; omega) ?_
  have f0 : o.toNat % 32 + 32 * (o.toNat / 32 % 32) + 1024 * (o.toNat / 1024) = o.toNat := by omega
  rw [decFields_15, f0]
  simp
theorem RoundTrip.jr (s : Bool) (m : Bool) (a : Reg) : RoundTrip.Statement (.jr s m a) := by
  intro _ _ _
  have hm : b2n m < 2 := Nat.lt_succ_of_le (b2n_le m)
  have ha : a.toNat < 32 := a.isLt
  refine decode_word ⟨s, 0x16, 0, a.toNat, b2n m⟩ (by dsimp only; omega) (by dsimp only; omega) (by dsimp only; omega) (by dsimp only; omega) ?_
  have e0 : (b2n m) / 32 = 0 := by omega
  have e1 : (b2n m) % 32 = b2n m := by omega
  rw [decFields_16, e0, e1]
  simp [decJump, hm, okIf, b2n_beq]
theorem RoundTrip.callr (s : Bool) (m : Bool) (a : Reg) : RoundTrip.Statement (.callr s m a) := by
  intro _ _ _
  have hm : b2n m < 2 := Nat.lt_succ_of_le (b2n_le m)
  have ha : a.toNat < 32 := a.isLt
  refine decode_word ⟨s, 0x16, 0, a.toNat, b2n m + 32⟩ (by dsimp only; omega) (by dsimp only; omega) (by dsimp only; omega) (by dsimp only; omega) ?_
  have e0 : (b2n m + 32) / 32 = 1 := by omega
  have e1 : (b2n m + 32) % 32 = b2n m := by omega
  rw [decFields_16, e0, e1]
  simp [decJump, hm, okIf, b2n_beq]
theorem RoundTrip.ret (s : Bool) : RoundTrip.Statement (.ret s) := by
  intro _ _ _
  refine decode_word ⟨s, 0x16, 0, 0, 64⟩ (by dsimp only; omega) (by dsimp only; omega) (by dsimp only; omega) (by dsimp only; omega) ?_
  rw [decFields_16]
  simp [decJump, okIf]
theorem RoundTrip.done (s : Bool) : RoundTrip.Statement (.done s) := by
  intro _ _ _
  refine decode_word ⟨s, 0x17, 0, 0, 0⟩ (by dsimp only; omega) (by dsimp only; omega) (by dsimp only; omega) (by dsimp only; omega) ?_
  rw [decFields_17]
  simp [decCtrl, okIf]
theorem RoundTrip.waita (s : Bool) (d : Reg) (a : Reg) (b : Reg) : RoundTrip.Statement (.waita s d a b) := by
  intro _ _ _
  have hd : d.toNat < 32 := d.isLt
  have ha : a.toNat < 32 := a.isLt
  have hb : b.toNat < 32 := b.isLt
  refine decode_word ⟨s, 0x17, d.toNat, a.toNat, b.toNat + 32⟩ (by dsimp only; omega) (by dsimp only; omega) (by dsimp only; omega) (by dsimp only; omega) ?_
  have e0 : (b.toNat + 32) / 32 = 1 := by omega
  have e1 : (b.toNat + 32) % 32 = b.toNat := by omega
  rw [decFields_17, e0, e1]
  simp [decCtrl]
theorem RoundTrip.halt (s : Bool) (a : Reg) : RoundTrip.Statement (.halt s a) := by
  intro _ _ _
  have ha : a.toNat < 32 := a.isLt
  refine decode_word ⟨s, 0x17, 0, a.toNat, 64⟩ (by dsimp only; omega) (by dsimp only; omega) (by dsimp only; omega) (by dsimp only; omega) ?_
  rw [decFields_17]
  simp [decCtrl, okIf]
theorem RoundTrip.idle (s : Bool) (a : Reg) : RoundTrip.Statement (.idle s a) := by
  intro _ _ _
  have ha : a.toNat < 32 := a.isLt
  refine decode_word ⟨s, 0x17, 0, a.toNat, 96⟩ (by dsimp only; omega) (by dsimp only; omega) (by dsimp only; omega) (by dsimp only; omega) ?_
  rw [decFields_17]
  simp [decCtrl, okIf]
theorem RoundTrip.nop (s : Bool) : RoundTrip.Statement (.nop s) := by
  intro _ _ _
  refine decode_word ⟨s, 0x17, 0, 0, 128⟩ (by dsimp only; omega) (by dsimp only; omega) (by dsimp only; omega) (by dsimp only; omega) ?_
  rw [decFields_17]
  simp [decCtrl, okIf]
theorem RoundTrip.mtake (s : Bool) (d : Reg) (a : Reg) : RoundTrip.Statement (.mtake s d a) := by
  intro _ _ _
  have hd : d.toNat < 32 := d.isLt
  have ha : a.toNat < 32 := a.isLt
  refine decode_word ⟨s, 0x17, d.toNat, a.toNat, 160⟩ (by dsimp only; omega) (by dsimp only; omega) (by dsimp only; omega) (by dsimp only; omega) ?_
  rw [decFields_17]
  simp [decCtrl, okIf]
theorem RoundTrip.mpeek (s : Bool) (d : Reg) (a : Reg) : RoundTrip.Statement (.mpeek s d a) := by
  intro _ _ _
  have hd : d.toNat < 32 := d.isLt
  have ha : a.toNat < 32 := a.isLt
  refine decode_word ⟨s, 0x17, d.toNat, a.toNat, 192⟩ (by dsimp only; omega) (by dsimp only; omega) (by dsimp only; omega) (by dsimp only; omega) ?_
  rw [decFields_17]
  simp [decCtrl, okIf]
theorem RoundTrip.waitm (s : Bool) (a : Reg) : RoundTrip.Statement (.waitm s a) := by
  intro _ _ _
  have ha : a.toNat < 32 := a.isLt
  refine decode_word ⟨s, 0x17, 0, a.toNat, 224⟩ (by dsimp only; omega) (by dsimp only; omega) (by dsimp only; omega) (by dsimp only; omega) ?_
  rw [decFields_17]
  simp [decCtrl, okIf]
theorem RoundTrip.loop (s : Bool) (h : Hint) (a : Reg) (o : BitVec 14) : RoundTrip.Statement (.loop s h a o) := by
  intro _ _ _
  have hh := hintCode_lt h
  have ha : a.toNat < 32 := a.isLt
  have ho : o.toNat < 16384 := o.isLt
  refine decode_word ⟨s, 0x18, a.toNat, 8 * h.code, o.toNat⟩ (by dsimp only; omega) (by dsimp only; omega) (by dsimp only; omega) (by dsimp only; omega) ?_
  rw [decFields_18]
  simp [hintOf_code]
theorem RoundTrip.bsinit (s : Bool) (a : Reg) (b : Reg) : RoundTrip.Statement (.bsinit s a b) := by
  intro _ _ _
  have ha : a.toNat < 32 := a.isLt
  have hb : b.toNat < 32 := b.isLt
  refine decode_word ⟨s, 0x19, 0, a.toNat, b.toNat⟩ (by dsimp only; omega) (by dsimp only; omega) (by dsimp only; omega) (by dsimp only; omega) ?_
  have e0 : (b.toNat) / 32 = 0 := by omega
  have e1 : (b.toNat) % 32 = b.toNat := by omega
  rw [decFields_19, e0, e1]
  simp [decBits, okIf]
theorem RoundTrip.bsget (s : Bool) (d : Reg) (a : Reg) : RoundTrip.Statement (.bsget s d a) := by
  intro _ _ _
  have hd : d.toNat < 32 := d.isLt
  have ha : a.toNat < 32 := a.isLt
  refine decode_word ⟨s, 0x19, d.toNat, a.toNat, 32⟩ (by dsimp only; omega) (by dsimp only; omega) (by dsimp only; omega) (by dsimp only; omega) ?_
  rw [decFields_19]
  simp [decBits, okIf]
theorem RoundTrip.bspeek (s : Bool) (d : Reg) (a : Reg) : RoundTrip.Statement (.bspeek s d a) := by
  intro _ _ _
  have hd : d.toNat < 32 := d.isLt
  have ha : a.toNat < 32 := a.isLt
  refine decode_word ⟨s, 0x19, d.toNat, a.toNat, 64⟩ (by dsimp only; omega) (by dsimp only; omega) (by dsimp only; omega) (by dsimp only; omega) ?_
  rw [decFields_19]
  simp [decBits, okIf]
theorem RoundTrip.bsskip (s : Bool) (a : Reg) : RoundTrip.Statement (.bsskip s a) := by
  intro _ _ _
  have ha : a.toNat < 32 := a.isLt
  refine decode_word ⟨s, 0x19, 0, a.toNat, 96⟩ (by dsimp only; omega) (by dsimp only; omega) (by dsimp only; omega) (by dsimp only; omega) ?_
  rw [decFields_19]
  simp [decBits, okIf]
theorem RoundTrip.bseg (s : Bool) (d : Reg) (a : Reg) : RoundTrip.Statement (.bseg s d a) := by
  intro _ _ _
  have hd : d.toNat < 32 := d.isLt
  have ha : a.toNat < 32 := a.isLt
  refine decode_word ⟨s, 0x19, d.toNat, a.toNat, 128⟩ (by dsimp only; omega) (by dsimp only; omega) (by dsimp only; omega) (by dsimp only; omega) ?_
  rw [decFields_19]
  simp [decBits, okIf]
theorem RoundTrip.bsput (s : Bool) (a : Reg) (b : Reg) : RoundTrip.Statement (.bsput s a b) := by
  intro _ _ _
  have ha : a.toNat < 32 := a.isLt
  have hb : b.toNat < 32 := b.isLt
  refine decode_word ⟨s, 0x19, 0, a.toNat, b.toNat + 160⟩ (by dsimp only; omega) (by dsimp only; omega) (by dsimp only; omega) (by dsimp only; omega) ?_
  have e0 : (b.toNat + 160) / 32 = 5 := by omega
  have e1 : (b.toNat + 160) % 32 = b.toNat := by omega
  rw [decFields_19, e0, e1]
  simp [decBits, okIf]
theorem RoundTrip.bsflush (s : Bool) : RoundTrip.Statement (.bsflush s) := by
  intro _ _ _
  refine decode_word ⟨s, 0x19, 0, 0, 192⟩ (by dsimp only; omega) (by dsimp only; omega) (by dsimp only; omega) (by dsimp only; omega) ?_
  rw [decFields_19]
  simp [decBits, okIf]
theorem RoundTrip.bspos (s : Bool) (d : Reg) : RoundTrip.Statement (.bspos s d) := by
  intro _ _ _
  have hd : d.toNat < 32 := d.isLt
  refine decode_word ⟨s, 0x19, d.toNat, 0, 224⟩ (by dsimp only; omega) (by dsimp only; omega) (by dsimp only; omega) (by dsimp only; omega) ?_
  rw [decFields_19]
  simp [decBits, okIf]
theorem RoundTrip.nopCompact (s : Bool) : RoundTrip.Statement (.nopCompact s) := by
  intro _ _ _
  refine decode_half s 0x0 1 0 (by decide) (by omega) (by omega) (fun w e0 e1 e2 e3 => ?_)
  unfold decHalf
  rw [e0, e1, e2, e3]
  simp
theorem RoundTrip.doneCompact (s : Bool) : RoundTrip.Statement (.doneCompact s) := by
  intro _ _ _
  refine decode_half s 0x0 2 0 (by decide) (by omega) (by omega) (fun w e0 e1 e2 e3 => ?_)
  unfold decHalf
  rw [e0, e1, e2, e3]
  simp
theorem RoundTrip.retCompact (s : Bool) : RoundTrip.Statement (.retCompact s) := by
  intro _ _ _
  refine decode_half s 0x0 3 0 (by decide) (by omega) (by omega) (fun w e0 e1 e2 e3 => ?_)
  unfold decHalf
  rw [e0, e1, e2, e3]
  simp
theorem RoundTrip.addCompact (s : Bool) (d : Reg) (a : Reg) : RoundTrip.Statement (.addCompact s d a) := by
  intro _ _ _
  have hd := d.isLt
  have ha := a.isLt
  refine decode_half s 0x1 d.toNat a.toNat (by decide) (by omega) (by omega) (fun w e0 e1 e2 e3 => ?_)
  unfold decHalf
  rw [e0, e1, e2, e3]
  simp
theorem RoundTrip.subCompact (s : Bool) (d : Reg) (a : Reg) : RoundTrip.Statement (.subCompact s d a) := by
  intro _ _ _
  have hd := d.isLt
  have ha := a.isLt
  refine decode_half s 0x2 d.toNat a.toNat (by decide) (by omega) (by omega) (fun w e0 e1 e2 e3 => ?_)
  unfold decHalf
  rw [e0, e1, e2, e3]
  simp
theorem RoundTrip.andCompact (s : Bool) (d : Reg) (a : Reg) : RoundTrip.Statement (.andCompact s d a) := by
  intro _ _ _
  have hd := d.isLt
  have ha := a.isLt
  refine decode_half s 0x3 d.toNat a.toNat (by decide) (by omega) (by omega) (fun w e0 e1 e2 e3 => ?_)
  unfold decHalf
  rw [e0, e1, e2, e3]
  simp
theorem RoundTrip.orCompact (s : Bool) (d : Reg) (a : Reg) : RoundTrip.Statement (.orCompact s d a) := by
  intro _ _ _
  have hd := d.isLt
  have ha := a.isLt
  refine decode_half s 0x4 d.toNat a.toNat (by decide) (by omega) (by omega) (fun w e0 e1 e2 e3 => ?_)
  unfold decHalf
  rw [e0, e1, e2, e3]
  simp
theorem RoundTrip.xorCompact (s : Bool) (d : Reg) (a : Reg) : RoundTrip.Statement (.xorCompact s d a) := by
  intro _ _ _
  have hd := d.isLt
  have ha := a.isLt
  refine decode_half s 0x5 d.toNat a.toNat (by decide) (by omega) (by omega) (fun w e0 e1 e2 e3 => ?_)
  unfold decHalf
  rw [e0, e1, e2, e3]
  simp
theorem RoundTrip.addiCompact (s : Bool) (d : Reg) (i : BitVec 5) : RoundTrip.Statement (.addiCompact s d i) := by
  intro _ _ _
  have hd := d.isLt
  have hi := i.isLt
  refine decode_half s 0x6 d.toNat i.toNat (by decide) (by omega) (by omega) (fun w e0 e1 e2 e3 => ?_)
  unfold decHalf
  rw [e0, e1, e2, e3]
  simp
theorem RoundTrip.liCompact (s : Bool) (d : Reg) (i : BitVec 5) : RoundTrip.Statement (.liCompact s d i) := by
  intro _ _ _
  have hd := d.isLt
  have hi := i.isLt
  refine decode_half s 0x7 d.toNat i.toNat (by decide) (by omega) (by omega) (fun w e0 e1 e2 e3 => ?_)
  unfold decHalf
  rw [e0, e1, e2, e3]
  simp
theorem RoundTrip.shliCompact (s : Bool) (d : Reg) (n : BitVec 5) : RoundTrip.Statement (.shliCompact s d n) := by
  intro _ _ _
  have hd := d.isLt
  have hn := n.isLt
  refine decode_half s 0x8 d.toNat n.toNat (by decide) (by omega) (by omega) (fun w e0 e1 e2 e3 => ?_)
  unfold decHalf
  rw [e0, e1, e2, e3]
  simp
theorem RoundTrip.shriCompact (s : Bool) (d : Reg) (n : BitVec 5) : RoundTrip.Statement (.shriCompact s d n) := by
  intro _ _ _
  have hd := d.isLt
  have hn := n.isLt
  refine decode_half s 0x9 d.toNat n.toNat (by decide) (by omega) (by omega) (fun w e0 e1 e2 e3 => ?_)
  unfold decHalf
  rw [e0, e1, e2, e3]
  simp
theorem RoundTrip.ldStackCompact (s : Bool) (d : Reg) (i : BitVec 5) : RoundTrip.Statement (.ldStackCompact s d i) := by
  intro _ _ _
  have hd := d.isLt
  have hi := i.isLt
  refine decode_half s 0xA d.toNat i.toNat (by decide) (by omega) (by omega) (fun w e0 e1 e2 e3 => ?_)
  unfold decHalf
  rw [e0, e1, e2, e3]
  simp
theorem RoundTrip.stStackCompact (s : Bool) (d : Reg) (i : BitVec 5) : RoundTrip.Statement (.stStackCompact s d i) := by
  intro _ _ _
  have hd := d.isLt
  have hi := i.isLt
  refine decode_half s 0xB d.toNat i.toNat (by decide) (by omega) (by omega) (fun w e0 e1 e2 e3 => ?_)
  unfold decHalf
  rw [e0, e1, e2, e3]
  simp
theorem RoundTrip.ldCompact (s : Bool) (d : Reg) (a : Reg) : RoundTrip.Statement (.ldCompact s d a) := by
  intro _ _ _
  have hd := d.isLt
  have ha := a.isLt
  refine decode_half s 0xC d.toNat a.toNat (by decide) (by omega) (by omega) (fun w e0 e1 e2 e3 => ?_)
  unfold decHalf
  rw [e0, e1, e2, e3]
  simp
theorem RoundTrip.stCompact (s : Bool) (d : Reg) (a : Reg) : RoundTrip.Statement (.stCompact s d a) := by
  intro _ _ _
  have hd := d.isLt
  have ha := a.isLt
  refine decode_half s 0xD d.toNat a.toNat (by decide) (by omega) (by omega) (fun w e0 e1 e2 e3 => ?_)
  unfold decHalf
  rw [e0, e1, e2, e3]
  simp
theorem RoundTrip.mulCompact (s : Bool) (d : Reg) (a : Reg) : RoundTrip.Statement (.mulCompact s d a) := by
  intro _ _ _
  have hd := d.isLt
  have ha := a.isLt
  refine decode_half s 0xE d.toNat a.toNat (by decide) (by omega) (by omega) (fun w e0 e1 e2 e3 => ?_)
  unfold decHalf
  rw [e0, e1, e2, e3]
  simp
theorem RoundTrip.jrCompact (s : Bool) (a : Reg) : RoundTrip.Statement (.jrCompact s a) := by
  intro _ _ _
  have ha := a.isLt
  refine decode_half s 0xF 0 a.toNat (by decide) (by omega) (by omega) (fun w e0 e1 e2 e3 => ?_)
  unfold decHalf
  rw [e0, e1, e2, e3]
  simp [okIf]
theorem RoundTrip.handle (s : Bool) (a : Reg) (b : Reg) (c : Reg) : RoundTrip.Statement (.handle s a b c) := by
  intro _ _ _
  have ha : a.toNat < 32 := a.isLt
  have hb : b.toNat < 32 := b.isLt
  have hc : c.toNat < 32 := c.isLt
  refine decode_word ⟨s, 0x1A, 0, a.toNat, b.toNat + 32 * c.toNat⟩ (by dsimp only; omega) (by dsimp only; omega) (by dsimp only; omega) (by dsimp only; omega) ?_
  have e0 : (b.toNat + 32 * c.toNat) / 32 % 32 = c.toNat := by omega
  have e1 : (b.toNat + 32 * c.toNat) / 1024 = 0 := by omega
  have e2 : (b.toNat + 32 * c.toNat) % 32 = b.toNat := by omega
  rw [decFields_1A, e0, e1, e2]
  simp [decEff, okIf]
theorem RoundTrip.unhandle (s : Bool) (a : Reg) : RoundTrip.Statement (.unhandle s a) := by
  intro _ _ _
  have ha : a.toNat < 32 := a.isLt
  refine decode_word ⟨s, 0x1A, 0, a.toNat, 1024⟩ (by dsimp only; omega) (by dsimp only; omega) (by dsimp only; omega) (by dsimp only; omega) ?_
  rw [decFields_1A]
  simp [decEff, okIf]
theorem RoundTrip.perform (s : Bool) (e : BitVec 12) (a : Reg) : RoundTrip.Statement (.perform s e a) := by
  intro _ _ _
  have he : e.toNat < 4096 := e.isLt
  have ha : a.toNat < 32 := a.isLt
  refine decode_word ⟨s, 0x1A, e.toNat / 1024, a.toNat, e.toNat % 1024 + 2048⟩ (by dsimp only; omega) (by dsimp only; omega) (by dsimp only; omega) (by dsimp only; omega) ?_
  have e0 : (e.toNat % 1024 + 2048) % 32 = e.toNat % 32 := by omega
  have e1 : (e.toNat % 1024 + 2048) / 32 % 32 = e.toNat / 32 % 32 := by omega
  have e2 : (e.toNat % 1024 + 2048) / 1024 = 2 := by omega
  rw [decFields_1A, e0, e1, e2]
  have f0 : e.toNat % 32 + 32 * (e.toNat / 32 % 32) + 1024 * (e.toNat / 1024) = e.toNat := by omega
  have f1 : e.toNat / 1024 < 4 := by omega
  simp [decEff, okIf, f0, f1]
theorem RoundTrip.performv (s : Bool) (e : BitVec 12) (a : Reg) (p : PReg) : RoundTrip.Statement (.performv s e a p) := by
  intro _ _ _
  have he : e.toNat < 4096 := e.isLt
  have ha : a.toNat < 32 := a.isLt
  have hp : p.toNat < 8 := p.isLt
  refine decode_word ⟨s, 0x1A, e.toNat / 1024 + 4 * p.toNat, a.toNat, e.toNat % 1024 + 3072⟩ (by dsimp only; omega) (by dsimp only; omega) (by dsimp only; omega) (by dsimp only; omega) ?_
  have e0 : (e.toNat % 1024 + 3072) % 32 = e.toNat % 32 := by omega
  have e1 : (e.toNat % 1024 + 3072) / 32 % 32 = e.toNat / 32 % 32 := by omega
  have e2 : (e.toNat % 1024 + 3072) / 1024 = 3 := by omega
  rw [decFields_1A, e0, e1, e2]
  have f0 : e.toNat % 32 + 32 * (e.toNat / 32 % 32) + 1024 * ((e.toNat / 1024 + 4 * p.toNat) % 4) = e.toNat := by omega
  have f1 : (e.toNat / 1024 + 4 * p.toNat) / 4 = p.toNat := by omega
  simp only [decEff, f0, f1]
  simp
theorem RoundTrip.resume (s : Bool) (a : Reg) (b : Reg) (c : PReg) : RoundTrip.Statement (.resume s a b c) := by
  intro _ _ _
  have ha : a.toNat < 32 := a.isLt
  have hb : b.toNat < 32 := b.isLt
  have hc : c.toNat < 8 := c.isLt
  refine decode_word ⟨s, 0x1A, 0, a.toNat, b.toNat + 32 * c.toNat + 4096⟩ (by dsimp only; omega) (by dsimp only; omega) (by dsimp only; omega) (by dsimp only; omega) ?_
  have e0 : (b.toNat + 32 * c.toNat + 4096) / 32 % 32 = c.toNat := by omega
  have e1 : (b.toNat + 32 * c.toNat + 4096) / 1024 = 4 := by omega
  have e2 : (b.toNat + 32 * c.toNat + 4096) % 32 = b.toNat := by omega
  rw [decFields_1A, e0, e1, e2]
  simp [decEff, hc, okIf]
theorem RoundTrip.resumem (s : Bool) (a : Reg) (b : Reg) (c : PReg) : RoundTrip.Statement (.resumem s a b c) := by
  intro _ _ _
  have ha : a.toNat < 32 := a.isLt
  have hb : b.toNat < 32 := b.isLt
  have hc : c.toNat < 8 := c.isLt
  refine decode_word ⟨s, 0x1A, 0, a.toNat, b.toNat + 32 * c.toNat + 5120⟩ (by dsimp only; omega) (by dsimp only; omega) (by dsimp only; omega) (by dsimp only; omega) ?_
  have e0 : (b.toNat + 32 * c.toNat + 5120) / 32 % 32 = c.toNat := by omega
  have e1 : (b.toNat + 32 * c.toNat + 5120) / 1024 = 5 := by omega
  have e2 : (b.toNat + 32 * c.toNat + 5120) % 32 = b.toNat := by omega
  rw [decFields_1A, e0, e1, e2]
  simp [decEff, hc, okIf]
theorem RoundTrip.discard (s : Bool) (d : Reg) (a : Reg) : RoundTrip.Statement (.discard s d a) := by
  intro _ _ _
  have hd : d.toNat < 32 := d.isLt
  have ha : a.toNat < 32 := a.isLt
  refine decode_word ⟨s, 0x1A, d.toNat, a.toNat, 6144⟩ (by dsimp only; omega) (by dsimp only; omega) (by dsimp only; omega) (by dsimp only; omega) ?_
  rw [decFields_1A]
  simp [decEff, okIf]
theorem RoundTrip.tkstat (s : Bool) (d : Reg) (a : Reg) : RoundTrip.Statement (.tkstat s d a) := by
  intro _ _ _
  have hd : d.toNat < 32 := d.isLt
  have ha : a.toNat < 32 := a.isLt
  refine decode_word ⟨s, 0x1A, d.toNat, a.toNat, 7168⟩ (by dsimp only; omega) (by dsimp only; omega) (by dsimp only; omega) (by dsimp only; omega) ?_
  rw [decFields_1A]
  simp [decEff, okIf]
theorem RoundTrip.shandle (s : Bool) (a : Reg) : RoundTrip.Statement (.shandle s a) := by
  intro _ _ _
  have ha : a.toNat < 32 := a.isLt
  refine decode_word ⟨s, 0x1A, 0, a.toNat, 8192⟩ (by dsimp only; omega) (by dsimp only; omega) (by dsimp only; omega) (by dsimp only; omega) ?_
  rw [decFields_1A]
  simp [decEff, okIf]
theorem RoundTrip.send (s : Bool) (a : Reg) (b : Reg) (c : Reg) : RoundTrip.Statement (.send s a b c) := by
  intro _ _ _
  have ha : a.toNat < 32 := a.isLt
  have hb : b.toNat < 32 := b.isLt
  have hc : c.toNat < 32 := c.isLt
  refine decode_word ⟨s, 0x1B, 0, a.toNat, b.toNat + 32 * c.toNat⟩ (by dsimp only; omega) (by dsimp only; omega) (by dsimp only; omega) (by dsimp only; omega) ?_
  have e0 : (b.toNat + 32 * c.toNat) / 32 % 32 = c.toNat := by omega
  have e1 : (b.toNat + 32 * c.toNat) / 1024 = 0 := by omega
  have e2 : (b.toNat + 32 * c.toNat) % 32 = b.toNat := by omega
  rw [decFields_1B, e0, e1, e2]
  simp [decMsg, okIf]
theorem RoundTrip.sendr (s : Bool) (a : Reg) (b : Reg) : RoundTrip.Statement (.sendr s a b) := by
  intro _ _ _
  have ha : a.toNat < 32 := a.isLt
  have hb : b.toNat < 32 := b.isLt
  refine decode_word ⟨s, 0x1B, 0, a.toNat, b.toNat + 1024⟩ (by dsimp only; omega) (by dsimp only; omega) (by dsimp only; omega) (by dsimp only; omega) ?_
  have e0 : (b.toNat + 1024) / 32 % 32 = 0 := by omega
  have e1 : (b.toNat + 1024) / 1024 = 1 := by omega
  have e2 : (b.toNat + 1024) % 32 = b.toNat := by omega
  rw [decFields_1B, e0, e1, e2]
  simp [decMsg, okIf]
theorem RoundTrip.mcast (s : Bool) (a : Reg) (b : Reg) (c : Reg) : RoundTrip.Statement (.mcast s a b c) := by
  intro _ _ _
  have ha : a.toNat < 32 := a.isLt
  have hb : b.toNat < 32 := b.isLt
  have hc : c.toNat < 32 := c.isLt
  refine decode_word ⟨s, 0x1B, 0, a.toNat, b.toNat + 32 * c.toNat + 2048⟩ (by dsimp only; omega) (by dsimp only; omega) (by dsimp only; omega) (by dsimp only; omega) ?_
  have e0 : (b.toNat + 32 * c.toNat + 2048) / 32 % 32 = c.toNat := by omega
  have e1 : (b.toNat + 32 * c.toNat + 2048) / 1024 = 2 := by omega
  have e2 : (b.toNat + 32 * c.toNat + 2048) % 32 = b.toNat := by omega
  rw [decFields_1B, e0, e1, e2]
  simp [decMsg, okIf]
theorem RoundTrip.subtag (s : Bool) (a : Reg) (b : Reg) : RoundTrip.Statement (.subtag s a b) := by
  intro _ _ _
  have ha : a.toNat < 32 := a.isLt
  have hb : b.toNat < 32 := b.isLt
  refine decode_word ⟨s, 0x1B, 0, a.toNat, b.toNat + 3072⟩ (by dsimp only; omega) (by dsimp only; omega) (by dsimp only; omega) (by dsimp only; omega) ?_
  have e0 : (b.toNat + 3072) / 32 % 32 = 0 := by omega
  have e1 : (b.toNat + 3072) / 1024 = 3 := by omega
  have e2 : (b.toNat + 3072) % 32 = b.toNat := by omega
  rw [decFields_1B, e0, e1, e2]
  simp [decMsg, okIf]
theorem RoundTrip.hmask (s : Bool) : RoundTrip.Statement (.hmask s) := by
  intro _ _ _
  refine decode_word ⟨s, 0x1B, 0, 0, 4096⟩ (by dsimp only; omega) (by dsimp only; omega) (by dsimp only; omega) (by dsimp only; omega) ?_
  rw [decFields_1B]
  simp [decMsg, okIf]
theorem RoundTrip.hunmask (s : Bool) : RoundTrip.Statement (.hunmask s) := by
  intro _ _ _
  refine decode_word ⟨s, 0x1B, 0, 0, 5120⟩ (by dsimp only; omega) (by dsimp only; omega) (by dsimp only; omega) (by dsimp only; omega) ?_
  rw [decFields_1B]
  simp [decMsg, okIf]
theorem RoundTrip.hcfg (s : Bool) (d : Reg) (a : Reg) (b : Reg) (c : Reg) : RoundTrip.Statement (.hcfg s d a b c) := by
  intro _ _ _
  have hd : d.toNat < 32 := d.isLt
  have ha : a.toNat < 32 := a.isLt
  have hb : b.toNat < 32 := b.isLt
  have hc : c.toNat < 32 := c.isLt
  refine decode_word ⟨s, 0x1B, d.toNat, a.toNat, b.toNat + 32 * c.toNat + 6144⟩ (by dsimp only; omega) (by dsimp only; omega) (by dsimp only; omega) (by dsimp only; omega) ?_
  have e0 : (b.toNat + 32 * c.toNat + 6144) / 32 % 32 = c.toNat := by omega
  have e1 : (b.toNat + 32 * c.toNat + 6144) / 1024 = 6 := by omega
  have e2 : (b.toNat + 32 * c.toNat + 6144) % 32 = b.toNat := by omega
  rw [decFields_1B, e0, e1, e2]
  simp [decMsg]
theorem RoundTrip.spawn (s : Bool) (d : Reg) (a : Reg) : RoundTrip.Statement (.spawn s d a) := by
  intro _ _ _
  have hd : d.toNat < 32 := d.isLt
  have ha : a.toNat < 32 := a.isLt
  refine decode_word ⟨s, 0x1C, d.toNat, a.toNat, 0⟩ (by dsimp only; omega) (by dsimp only; omega) (by dsimp only; omega) (by dsimp only; omega) ?_
  rw [decFields_1C]
  simp [decTask, okIf]
theorem RoundTrip.fork (s : Bool) (d : Reg) (a : Reg) (b : Reg) (c : Reg) : RoundTrip.Statement (.fork s d a b c) := by
  intro _ _ _
  have hd : d.toNat < 32 := d.isLt
  have ha : a.toNat < 32 := a.isLt
  have hb : b.toNat < 32 := b.isLt
  have hc : c.toNat < 32 := c.isLt
  refine decode_word ⟨s, 0x1C, d.toNat, a.toNat, b.toNat + 32 * c.toNat + 1024⟩ (by dsimp only; omega) (by dsimp only; omega) (by dsimp only; omega) (by dsimp only; omega) ?_
  have e0 : (b.toNat + 32 * c.toNat + 1024) / 32 % 32 = c.toNat := by omega
  have e1 : (b.toNat + 32 * c.toNat + 1024) / 1024 = 1 := by omega
  have e2 : (b.toNat + 32 * c.toNat + 1024) % 32 = b.toNat := by omega
  rw [decFields_1C, e0, e1, e2]
  simp [decTask]
theorem RoundTrip.joinw (s : Bool) (a : Reg) : RoundTrip.Statement (.joinw s a) := by
  intro _ _ _
  have ha : a.toNat < 32 := a.isLt
  refine decode_word ⟨s, 0x1C, 0, a.toNat, 2048⟩ (by dsimp only; omega) (by dsimp only; omega) (by dsimp only; omega) (by dsimp only; omega) ?_
  rw [decFields_1C]
  simp [decTask, okIf]
theorem RoundTrip.cntinit (s : Bool) (a : Reg) (b : Reg) : RoundTrip.Statement (.cntinit s a b) := by
  intro _ _ _
  have ha : a.toNat < 32 := a.isLt
  have hb : b.toNat < 32 := b.isLt
  refine decode_word ⟨s, 0x1C, 0, a.toNat, b.toNat + 3072⟩ (by dsimp only; omega) (by dsimp only; omega) (by dsimp only; omega) (by dsimp only; omega) ?_
  have e0 : (b.toNat + 3072) / 32 % 32 = 0 := by omega
  have e1 : (b.toNat + 3072) / 1024 = 3 := by omega
  have e2 : (b.toNat + 3072) % 32 = b.toNat := by omega
  rw [decFields_1C, e0, e1, e2]
  simp [decTask, okIf]
theorem RoundTrip.cntdec (s : Bool) (a : Reg) : RoundTrip.Statement (.cntdec s a) := by
  intro _ _ _
  have ha : a.toNat < 32 := a.isLt
  refine decode_word ⟨s, 0x1C, 0, a.toNat, 4096⟩ (by dsimp only; omega) (by dsimp only; omega) (by dsimp only; omega) (by dsimp only; omega) ?_
  rw [decFields_1C]
  simp [decTask, okIf]
theorem RoundTrip.launch (s : Bool) (d : Reg) (a : Reg) : RoundTrip.Statement (.launch s d a) := by
  intro _ _ _
  have hd : d.toNat < 32 := d.isLt
  have ha : a.toNat < 32 := a.isLt
  refine decode_word ⟨s, 0x1C, d.toNat, a.toNat, 5120⟩ (by dsimp only; omega) (by dsimp only; omega) (by dsimp only; omega) (by dsimp only; omega) ?_
  rw [decFields_1C]
  simp [decTask, okIf]
theorem RoundTrip.gjoin (s : Bool) (d : Reg) (a : Reg) : RoundTrip.Statement (.gjoin s d a) := by
  intro _ _ _
  have hd : d.toNat < 32 := d.isLt
  have ha : a.toNat < 32 := a.isLt
  refine decode_word ⟨s, 0x1D, d.toNat, a.toNat, 0⟩ (by dsimp only; omega) (by dsimp only; omega) (by dsimp only; omega) (by dsimp only; omega) ?_
  rw [decFields_1D]
  simp [decGrp, okIf]
theorem RoundTrip.gleave (s : Bool) (a : Reg) : RoundTrip.Statement (.gleave s a) := by
  intro _ _ _
  have ha : a.toNat < 32 := a.isLt
  refine decode_word ⟨s, 0x1D, 0, a.toNat, 1024⟩ (by dsimp only; omega) (by dsimp only; omega) (by dsimp only; omega) (by dsimp only; omega) ?_
  rw [decFields_1D]
  simp [decGrp, okIf]
theorem RoundTrip.bari (s : Bool) (a : Reg) (b : Reg) : RoundTrip.Statement (.bari s a b) := by
  intro _ _ _
  have ha : a.toNat < 32 := a.isLt
  have hb : b.toNat < 32 := b.isLt
  refine decode_word ⟨s, 0x1D, 0, a.toNat, b.toNat + 2048⟩ (by dsimp only; omega) (by dsimp only; omega) (by dsimp only; omega) (by dsimp only; omega) ?_
  have e0 : (b.toNat + 2048) / 32 % 32 = 0 := by omega
  have e1 : (b.toNat + 2048) / 1024 = 2 := by omega
  have e2 : (b.toNat + 2048) % 32 = b.toNat := by omega
  rw [decFields_1D, e0, e1, e2]
  simp [decGrp, okIf]
theorem RoundTrip.bara (s : Bool) (a : Reg) : RoundTrip.Statement (.bara s a) := by
  intro _ _ _
  have ha : a.toNat < 32 := a.isLt
  refine decode_word ⟨s, 0x1D, 0, a.toNat, 3072⟩ (by dsimp only; omega) (by dsimp only; omega) (by dsimp only; omega) (by dsimp only; omega) ?_
  rw [decFields_1D]
  simp [decGrp, okIf]
theorem RoundTrip.barw (s : Bool) (a : Reg) (b : Reg) : RoundTrip.Statement (.barw s a b) := by
  intro _ _ _
  have ha : a.toNat < 32 := a.isLt
  have hb : b.toNat < 32 := b.isLt
  refine decode_word ⟨s, 0x1D, 0, a.toNat, b.toNat + 4096⟩ (by dsimp only; omega) (by dsimp only; omega) (by dsimp only; omega) (by dsimp only; omega) ?_
  have e0 : (b.toNat + 4096) / 32 % 32 = 0 := by omega
  have e1 : (b.toNat + 4096) / 1024 = 4 := by omega
  have e2 : (b.toNat + 4096) % 32 = b.toNat := by omega
  rw [decFields_1D, e0, e1, e2]
  simp [decGrp, okIf]
theorem RoundTrip.baraw (s : Bool) (a : Reg) (b : Reg) : RoundTrip.Statement (.baraw s a b) := by
  intro _ _ _
  have ha : a.toNat < 32 := a.isLt
  have hb : b.toNat < 32 := b.isLt
  refine decode_word ⟨s, 0x1D, 0, a.toNat, b.toNat + 5120⟩ (by dsimp only; omega) (by dsimp only; omega) (by dsimp only; omega) (by dsimp only; omega) ?_
  have e0 : (b.toNat + 5120) / 32 % 32 = 0 := by omega
  have e1 : (b.toNat + 5120) / 1024 = 5 := by omega
  have e2 : (b.toNat + 5120) % 32 = b.toNat := by omega
  rw [decFields_1D, e0, e1, e2]
  simp [decGrp, okIf]
theorem RoundTrip.amoAdd (s : Bool) (k : Scope) (r : Order) (d : Reg) (a : Reg) (b : Reg) : RoundTrip.Statement (.amoAdd s k r d a b) := by
  intro _ _ _
  have hk := scopeCode_lt k
  have hr := orderCode_lt r
  have hd : d.toNat < 32 := d.isLt
  have ha : a.toNat < 32 := a.isLt
  have hb : b.toNat < 32 := b.isLt
  refine decode_word ⟨s, 0x1E, d.toNat, a.toNat, b.toNat + 512 * r.code + 4096 * k.code⟩ (by dsimp only; omega) (by dsimp only; omega) (by dsimp only; omega) (by dsimp only; omega) ?_
  have e0 : (b.toNat + 512 * r.code + 4096 * k.code) / 32 % 16 = 0 := by omega
  have e1 : (b.toNat + 512 * r.code + 4096 * k.code) / 512 % 8 = r.code := by omega
  have e2 : (b.toNat + 512 * r.code + 4096 * k.code) / 4096 = k.code := by omega
  have e3 : (b.toNat + 512 * r.code + 4096 * k.code) % 32 = b.toNat := by omega
  rw [decFields_1E, e0, e1, e2, e3]
  simp [decAmo, scopeOf_code, orderOf_code]
theorem RoundTrip.amoAnd (s : Bool) (k : Scope) (r : Order) (d : Reg) (a : Reg) (b : Reg) : RoundTrip.Statement (.amoAnd s k r d a b) := by
  intro _ _ _
  have hk := scopeCode_lt k
  have hr := orderCode_lt r
  have hd : d.toNat < 32 := d.isLt
  have ha : a.toNat < 32 := a.isLt
  have hb : b.toNat < 32 := b.isLt
  refine decode_word ⟨s, 0x1E, d.toNat, a.toNat, b.toNat + 32 + 512 * r.code + 4096 * k.code⟩ (by dsimp only; omega) (by dsimp only; omega) (by dsimp only; omega) (by dsimp only; omega) ?_
  have e0 : (b.toNat + 32 + 512 * r.code + 4096 * k.code) / 32 % 16 = 1 := by omega
  have e1 : (b.toNat + 32 + 512 * r.code + 4096 * k.code) / 512 % 8 = r.code := by omega
  have e2 : (b.toNat + 32 + 512 * r.code + 4096 * k.code) / 4096 = k.code := by omega
  have e3 : (b.toNat + 32 + 512 * r.code + 4096 * k.code) % 32 = b.toNat := by omega
  rw [decFields_1E, e0, e1, e2, e3]
  simp [decAmo, scopeOf_code, orderOf_code]
theorem RoundTrip.amoOr (s : Bool) (k : Scope) (r : Order) (d : Reg) (a : Reg) (b : Reg) : RoundTrip.Statement (.amoOr s k r d a b) := by
  intro _ _ _
  have hk := scopeCode_lt k
  have hr := orderCode_lt r
  have hd : d.toNat < 32 := d.isLt
  have ha : a.toNat < 32 := a.isLt
  have hb : b.toNat < 32 := b.isLt
  refine decode_word ⟨s, 0x1E, d.toNat, a.toNat, b.toNat + 64 + 512 * r.code + 4096 * k.code⟩ (by dsimp only; omega) (by dsimp only; omega) (by dsimp only; omega) (by dsimp only; omega) ?_
  have e0 : (b.toNat + 64 + 512 * r.code + 4096 * k.code) / 32 % 16 = 2 := by omega
  have e1 : (b.toNat + 64 + 512 * r.code + 4096 * k.code) / 512 % 8 = r.code := by omega
  have e2 : (b.toNat + 64 + 512 * r.code + 4096 * k.code) / 4096 = k.code := by omega
  have e3 : (b.toNat + 64 + 512 * r.code + 4096 * k.code) % 32 = b.toNat := by omega
  rw [decFields_1E, e0, e1, e2, e3]
  simp [decAmo, scopeOf_code, orderOf_code]
theorem RoundTrip.amoXor (s : Bool) (k : Scope) (r : Order) (d : Reg) (a : Reg) (b : Reg) : RoundTrip.Statement (.amoXor s k r d a b) := by
  intro _ _ _
  have hk := scopeCode_lt k
  have hr := orderCode_lt r
  have hd : d.toNat < 32 := d.isLt
  have ha : a.toNat < 32 := a.isLt
  have hb : b.toNat < 32 := b.isLt
  refine decode_word ⟨s, 0x1E, d.toNat, a.toNat, b.toNat + 96 + 512 * r.code + 4096 * k.code⟩ (by dsimp only; omega) (by dsimp only; omega) (by dsimp only; omega) (by dsimp only; omega) ?_
  have e0 : (b.toNat + 96 + 512 * r.code + 4096 * k.code) / 32 % 16 = 3 := by omega
  have e1 : (b.toNat + 96 + 512 * r.code + 4096 * k.code) / 512 % 8 = r.code := by omega
  have e2 : (b.toNat + 96 + 512 * r.code + 4096 * k.code) / 4096 = k.code := by omega
  have e3 : (b.toNat + 96 + 512 * r.code + 4096 * k.code) % 32 = b.toNat := by omega
  rw [decFields_1E, e0, e1, e2, e3]
  simp [decAmo, scopeOf_code, orderOf_code]
theorem RoundTrip.amoMin (s : Bool) (k : Scope) (r : Order) (d : Reg) (a : Reg) (b : Reg) : RoundTrip.Statement (.amoMin s k r d a b) := by
  intro _ _ _
  have hk := scopeCode_lt k
  have hr := orderCode_lt r
  have hd : d.toNat < 32 := d.isLt
  have ha : a.toNat < 32 := a.isLt
  have hb : b.toNat < 32 := b.isLt
  refine decode_word ⟨s, 0x1E, d.toNat, a.toNat, b.toNat + 128 + 512 * r.code + 4096 * k.code⟩ (by dsimp only; omega) (by dsimp only; omega) (by dsimp only; omega) (by dsimp only; omega) ?_
  have e0 : (b.toNat + 128 + 512 * r.code + 4096 * k.code) / 32 % 16 = 4 := by omega
  have e1 : (b.toNat + 128 + 512 * r.code + 4096 * k.code) / 512 % 8 = r.code := by omega
  have e2 : (b.toNat + 128 + 512 * r.code + 4096 * k.code) / 4096 = k.code := by omega
  have e3 : (b.toNat + 128 + 512 * r.code + 4096 * k.code) % 32 = b.toNat := by omega
  rw [decFields_1E, e0, e1, e2, e3]
  simp [decAmo, scopeOf_code, orderOf_code]
theorem RoundTrip.amoMax (s : Bool) (k : Scope) (r : Order) (d : Reg) (a : Reg) (b : Reg) : RoundTrip.Statement (.amoMax s k r d a b) := by
  intro _ _ _
  have hk := scopeCode_lt k
  have hr := orderCode_lt r
  have hd : d.toNat < 32 := d.isLt
  have ha : a.toNat < 32 := a.isLt
  have hb : b.toNat < 32 := b.isLt
  refine decode_word ⟨s, 0x1E, d.toNat, a.toNat, b.toNat + 160 + 512 * r.code + 4096 * k.code⟩ (by dsimp only; omega) (by dsimp only; omega) (by dsimp only; omega) (by dsimp only; omega) ?_
  have e0 : (b.toNat + 160 + 512 * r.code + 4096 * k.code) / 32 % 16 = 5 := by omega
  have e1 : (b.toNat + 160 + 512 * r.code + 4096 * k.code) / 512 % 8 = r.code := by omega
  have e2 : (b.toNat + 160 + 512 * r.code + 4096 * k.code) / 4096 = k.code := by omega
  have e3 : (b.toNat + 160 + 512 * r.code + 4096 * k.code) % 32 = b.toNat := by omega
  rw [decFields_1E, e0, e1, e2, e3]
  simp [decAmo, scopeOf_code, orderOf_code]
theorem RoundTrip.amoMinu (s : Bool) (k : Scope) (r : Order) (d : Reg) (a : Reg) (b : Reg) : RoundTrip.Statement (.amoMinu s k r d a b) := by
  intro _ _ _
  have hk := scopeCode_lt k
  have hr := orderCode_lt r
  have hd : d.toNat < 32 := d.isLt
  have ha : a.toNat < 32 := a.isLt
  have hb : b.toNat < 32 := b.isLt
  refine decode_word ⟨s, 0x1E, d.toNat, a.toNat, b.toNat + 192 + 512 * r.code + 4096 * k.code⟩ (by dsimp only; omega) (by dsimp only; omega) (by dsimp only; omega) (by dsimp only; omega) ?_
  have e0 : (b.toNat + 192 + 512 * r.code + 4096 * k.code) / 32 % 16 = 6 := by omega
  have e1 : (b.toNat + 192 + 512 * r.code + 4096 * k.code) / 512 % 8 = r.code := by omega
  have e2 : (b.toNat + 192 + 512 * r.code + 4096 * k.code) / 4096 = k.code := by omega
  have e3 : (b.toNat + 192 + 512 * r.code + 4096 * k.code) % 32 = b.toNat := by omega
  rw [decFields_1E, e0, e1, e2, e3]
  simp [decAmo, scopeOf_code, orderOf_code]
theorem RoundTrip.amoMaxu (s : Bool) (k : Scope) (r : Order) (d : Reg) (a : Reg) (b : Reg) : RoundTrip.Statement (.amoMaxu s k r d a b) := by
  intro _ _ _
  have hk := scopeCode_lt k
  have hr := orderCode_lt r
  have hd : d.toNat < 32 := d.isLt
  have ha : a.toNat < 32 := a.isLt
  have hb : b.toNat < 32 := b.isLt
  refine decode_word ⟨s, 0x1E, d.toNat, a.toNat, b.toNat + 224 + 512 * r.code + 4096 * k.code⟩ (by dsimp only; omega) (by dsimp only; omega) (by dsimp only; omega) (by dsimp only; omega) ?_
  have e0 : (b.toNat + 224 + 512 * r.code + 4096 * k.code) / 32 % 16 = 7 := by omega
  have e1 : (b.toNat + 224 + 512 * r.code + 4096 * k.code) / 512 % 8 = r.code := by omega
  have e2 : (b.toNat + 224 + 512 * r.code + 4096 * k.code) / 4096 = k.code := by omega
  have e3 : (b.toNat + 224 + 512 * r.code + 4096 * k.code) % 32 = b.toNat := by omega
  rw [decFields_1E, e0, e1, e2, e3]
  simp [decAmo, scopeOf_code, orderOf_code]
theorem RoundTrip.amoSwap (s : Bool) (k : Scope) (r : Order) (d : Reg) (a : Reg) (b : Reg) : RoundTrip.Statement (.amoSwap s k r d a b) := by
  intro _ _ _
  have hk := scopeCode_lt k
  have hr := orderCode_lt r
  have hd : d.toNat < 32 := d.isLt
  have ha : a.toNat < 32 := a.isLt
  have hb : b.toNat < 32 := b.isLt
  refine decode_word ⟨s, 0x1E, d.toNat, a.toNat, b.toNat + 256 + 512 * r.code + 4096 * k.code⟩ (by dsimp only; omega) (by dsimp only; omega) (by dsimp only; omega) (by dsimp only; omega) ?_
  have e0 : (b.toNat + 256 + 512 * r.code + 4096 * k.code) / 32 % 16 = 8 := by omega
  have e1 : (b.toNat + 256 + 512 * r.code + 4096 * k.code) / 512 % 8 = r.code := by omega
  have e2 : (b.toNat + 256 + 512 * r.code + 4096 * k.code) / 4096 = k.code := by omega
  have e3 : (b.toNat + 256 + 512 * r.code + 4096 * k.code) % 32 = b.toNat := by omega
  rw [decFields_1E, e0, e1, e2, e3]
  simp [decAmo, scopeOf_code, orderOf_code]
theorem RoundTrip.amoFadd32 (s : Bool) (k : Scope) (r : Order) (d : Reg) (a : Reg) (b : Reg) : RoundTrip.Statement (.amoFadd32 s k r d a b) := by
  intro _ _ _
  have hk := scopeCode_lt k
  have hr := orderCode_lt r
  have hd : d.toNat < 32 := d.isLt
  have ha : a.toNat < 32 := a.isLt
  have hb : b.toNat < 32 := b.isLt
  refine decode_word ⟨s, 0x1E, d.toNat, a.toNat, b.toNat + 288 + 512 * r.code + 4096 * k.code⟩ (by dsimp only; omega) (by dsimp only; omega) (by dsimp only; omega) (by dsimp only; omega) ?_
  have e0 : (b.toNat + 288 + 512 * r.code + 4096 * k.code) / 32 % 16 = 9 := by omega
  have e1 : (b.toNat + 288 + 512 * r.code + 4096 * k.code) / 512 % 8 = r.code := by omega
  have e2 : (b.toNat + 288 + 512 * r.code + 4096 * k.code) / 4096 = k.code := by omega
  have e3 : (b.toNat + 288 + 512 * r.code + 4096 * k.code) % 32 = b.toNat := by omega
  rw [decFields_1E, e0, e1, e2, e3]
  simp [decAmo, scopeOf_code, orderOf_code]
theorem RoundTrip.amoFadd64 (s : Bool) (k : Scope) (r : Order) (d : Reg) (a : Reg) (b : Reg) : RoundTrip.Statement (.amoFadd64 s k r d a b) := by
  intro _ _ _
  have hk := scopeCode_lt k
  have hr := orderCode_lt r
  have hd : d.toNat < 32 := d.isLt
  have ha : a.toNat < 32 := a.isLt
  have hb : b.toNat < 32 := b.isLt
  refine decode_word ⟨s, 0x1E, d.toNat, a.toNat, b.toNat + 320 + 512 * r.code + 4096 * k.code⟩ (by dsimp only; omega) (by dsimp only; omega) (by dsimp only; omega) (by dsimp only; omega) ?_
  have e0 : (b.toNat + 320 + 512 * r.code + 4096 * k.code) / 32 % 16 = 10 := by omega
  have e1 : (b.toNat + 320 + 512 * r.code + 4096 * k.code) / 512 % 8 = r.code := by omega
  have e2 : (b.toNat + 320 + 512 * r.code + 4096 * k.code) / 4096 = k.code := by omega
  have e3 : (b.toNat + 320 + 512 * r.code + 4096 * k.code) % 32 = b.toNat := by omega
  rw [decFields_1E, e0, e1, e2, e3]
  simp [decAmo, scopeOf_code, orderOf_code]
theorem RoundTrip.cas (s : Bool) (k : Scope) (r : Order) (d : Reg) (a : Reg) (b : Reg) : RoundTrip.Statement (.cas s k r d a b) := by
  intro _ _ _
  have hk := scopeCode_lt k
  have hr := orderCode_lt r
  have hd : d.toNat < 32 := d.isLt
  have ha : a.toNat < 32 := a.isLt
  have hb : b.toNat < 32 := b.isLt
  refine decode_word ⟨s, 0x1F, d.toNat, a.toNat, b.toNat + 512 * r.code + 4096 * k.code⟩ (by dsimp only; omega) (by dsimp only; omega) (by dsimp only; omega) (by dsimp only; omega) ?_
  have e0 : (b.toNat + 512 * r.code + 4096 * k.code) / 32 % 16 = 0 := by omega
  have e1 : (b.toNat + 512 * r.code + 4096 * k.code) / 512 % 8 = r.code := by omega
  have e2 : (b.toNat + 512 * r.code + 4096 * k.code) / 4096 = k.code := by omega
  have e3 : (b.toNat + 512 * r.code + 4096 * k.code) % 32 = b.toNat := by omega
  rw [decFields_1F, e0, e1, e2, e3]
  simp [scopeOf_code, orderOf_code]
theorem RoundTrip.lda (s : Bool) (k : Scope) (r : Order) (z : Size) (d : Reg) (a : Reg) : RoundTrip.Statement (.lda s k r z d a) := by
  intro wf _ _
  have hk := scopeCode_lt k
  have hr := orderCode_lt r
  have hz := sizeCode_lt z
  have hd : d.toNat < 32 := d.isLt
  have ha : a.toNat < 32 := a.isLt
  refine decode_word ⟨s, 0x20, d.toNat, a.toNat, 128 * z.code + 512 * r.code + 4096 * k.code⟩ (by dsimp only; omega) (by dsimp only; omega) (by dsimp only; omega) (by dsimp only; omega) ?_
  have e0 : (128 * z.code + 512 * r.code + 4096 * k.code) / 32 / 4 % 4 = z.code := by omega
  have e1 : (128 * z.code + 512 * r.code + 4096 * k.code) / 512 % 8 = r.code := by omega
  have e2 : (128 * z.code + 512 * r.code + 4096 * k.code) / 32 % 4 = 0 := by omega
  have e3 : (128 * z.code + 512 * r.code + 4096 * k.code) / 4096 = k.code := by omega
  have e4 : (128 * z.code + 512 * r.code + 4096 * k.code) % 32 = 0 := by omega
  have hw : (r == .acq || r == .sc) = true := wf
  rw [decFields_20, e0, e1, e2, e3, e4, orderOf_code]
  simp only [Option.bind_some, decOrd, hw, scopeOf_code, sizeOf_code]
  simp [okIf]
theorem RoundTrip.stl (s : Bool) (k : Scope) (r : Order) (z : Size) (d : Reg) (a : Reg) : RoundTrip.Statement (.stl s k r z d a) := by
  intro wf _ _
  have hk := scopeCode_lt k
  have hr := orderCode_lt r
  have hz := sizeCode_lt z
  have hd : d.toNat < 32 := d.isLt
  have ha : a.toNat < 32 := a.isLt
  refine decode_word ⟨s, 0x20, d.toNat, a.toNat, 32 + 128 * z.code + 512 * r.code + 4096 * k.code⟩ (by dsimp only; omega) (by dsimp only; omega) (by dsimp only; omega) (by dsimp only; omega) ?_
  have e0 : (32 + 128 * z.code + 512 * r.code + 4096 * k.code) / 32 / 4 % 4 = z.code := by omega
  have e1 : (32 + 128 * z.code + 512 * r.code + 4096 * k.code) / 512 % 8 = r.code := by omega
  have e2 : (32 + 128 * z.code + 512 * r.code + 4096 * k.code) / 32 % 4 = 1 := by omega
  have e3 : (32 + 128 * z.code + 512 * r.code + 4096 * k.code) / 4096 = k.code := by omega
  have e4 : (32 + 128 * z.code + 512 * r.code + 4096 * k.code) % 32 = 0 := by omega
  have hw : (r == .rel || r == .sc) = true := wf
  rw [decFields_20, e0, e1, e2, e3, e4, orderOf_code]
  simp only [Option.bind_some, decOrd, hw, scopeOf_code, sizeOf_code]
  simp [okIf]
theorem RoundTrip.fence (s : Bool) (k : Scope) (r : Order) : RoundTrip.Statement (.fence s k r) := by
  intro wf _ _
  have hk := scopeCode_lt k
  have hr := orderCode_lt r
  refine decode_word ⟨s, 0x20, 0, 0, 64 + 512 * r.code + 4096 * k.code⟩ (by dsimp only; omega) (by dsimp only; omega) (by dsimp only; omega) (by dsimp only; omega) ?_
  have e0 : (64 + 512 * r.code + 4096 * k.code) / 32 / 4 % 4 = 0 := by omega
  have e1 : (64 + 512 * r.code + 4096 * k.code) / 512 % 8 = r.code := by omega
  have e2 : (64 + 512 * r.code + 4096 * k.code) / 32 % 4 = 2 := by omega
  have e3 : (64 + 512 * r.code + 4096 * k.code) / 4096 = k.code := by omega
  have e4 : (64 + 512 * r.code + 4096 * k.code) % 32 = 0 := by omega
  have hw : (r != .relaxed) = true := wf
  rw [decFields_20, e0, e1, e2, e3, e4, orderOf_code]
  simp only [Option.bind_some, decOrd, hw, scopeOf_code]
  simp [okIf]
theorem RoundTrip.tdef (s : Bool) (d : Reg) (a : Reg) : RoundTrip.Statement (.tdef s d a) := by
  intro _ _ _
  have hd : d.toNat < 32 := d.isLt
  have ha : a.toNat < 32 := a.isLt
  refine decode_word ⟨s, 0x21, d.toNat, a.toNat, 0⟩ (by dsimp only; omega) (by dsimp only; omega) (by dsimp only; omega) (by dsimp only; omega) ?_
  rw [decFields_21]
  simp [decTile, okIf]
theorem RoundTrip.tset (s : Bool) (d : Reg) : RoundTrip.Statement (.tset s d) := by
  intro _ _ _
  have hd : d.toNat < 32 := d.isLt
  refine decode_word ⟨s, 0x21, d.toNat, 0, 1024⟩ (by dsimp only; omega) (by dsimp only; omega) (by dsimp only; omega) (by dsimp only; omega) ?_
  rw [decFields_21]
  simp [decTile, okIf]
theorem RoundTrip.twait (s : Bool) (d : Reg) (a : Reg) : RoundTrip.Statement (.twait s d a) := by
  intro _ _ _
  have hd : d.toNat < 32 := d.isLt
  have ha : a.toNat < 32 := a.isLt
  refine decode_word ⟨s, 0x21, d.toNat, a.toNat, 2048⟩ (by dsimp only; omega) (by dsimp only; omega) (by dsimp only; omega) (by dsimp only; omega) ?_
  rw [decFields_21]
  simp [decTile, okIf]
theorem RoundTrip.trel (s : Bool) (d : Reg) : RoundTrip.Statement (.trel s d) := by
  intro _ _ _
  have hd : d.toNat < 32 := d.isLt
  refine decode_word ⟨s, 0x21, d.toNat, 0, 3072⟩ (by dsimp only; omega) (by dsimp only; omega) (by dsimp only; omega) (by dsimp only; omega) ?_
  rw [decFields_21]
  simp [decTile, okIf]
theorem RoundTrip.snap (s : Bool) (d : Reg) (a : Reg) : RoundTrip.Statement (.snap s d a) := by
  intro _ _ _
  have hd : d.toNat < 32 := d.isLt
  have ha : a.toNat < 32 := a.isLt
  refine decode_word ⟨s, 0x22, d.toNat, a.toNat, 0⟩ (by dsimp only; omega) (by dsimp only; omega) (by dsimp only; omega) (by dsimp only; omega) ?_
  rw [decFields_22]
  simp [decVer, okIf]
theorem RoundTrip.ldv (s : Bool) (z : Size) (x : Bool) (d : Reg) (a : Reg) : RoundTrip.Statement (.ldv s z x d a) := by
  intro wf _ _
  have hz := sizeCode_lt z
  have hx : b2n x < 2 := Nat.lt_succ_of_le (b2n_le x)
  have hd : d.toNat < 32 := d.isLt
  have ha : a.toNat < 32 := a.isLt
  refine decode_word ⟨s, 0x22, d.toNat, a.toNat, 32 * (z.code + 4 * b2n x) + 1024⟩ (by dsimp only; omega) (by dsimp only; omega) (by dsimp only; omega) (by dsimp only; omega) ?_
  have e0 : (32 * (z.code + 4 * b2n x) + 1024) / 32 % 32 = z.code + 4 * b2n x := by omega
  have e1 : (32 * (z.code + 4 * b2n x) + 1024) / 1024 = 1 := by omega
  have e2 : (32 * (z.code + 4 * b2n x) + 1024) % 32 = 0 := by omega
  have hw : z.code + 4 * b2n x < 7 := by revert wf; cases z <;> cases x <;> first | (intro _; decide) | (intro wf; exact absurd wf Bool.false_ne_true)
  have f0 : (z.code + 4 * b2n x) % 4 = z.code := by omega
  have f1 : (z.code + 4 * b2n x) / 4 = b2n x := by omega
  rw [decFields_22, e0, e1, e2]
  simp [decVer, Nat.ne_of_lt hw, Nat.lt_succ_of_lt hw, f0, f1, okIf, b2n_beq, sizeOf_code]
theorem RoundTrip.ldvw (s : Bool) (d : Reg) (a : Reg) (b : Reg) : RoundTrip.Statement (.ldvw s d a b) := by
  intro _ _ _
  have hd : d.toNat < 32 := d.isLt
  have ha : a.toNat < 32 := a.isLt
  have hb : b.toNat < 32 := b.isLt
  refine decode_word ⟨s, 0x22, d.toNat, a.toNat, b.toNat + 2048⟩ (by dsimp only; omega) (by dsimp only; omega) (by dsimp only; omega) (by dsimp only; omega) ?_
  have e0 : (b.toNat + 2048) / 32 % 32 = 0 := by omega
  have e1 : (b.toNat + 2048) / 1024 = 2 := by omega
  have e2 : (b.toNat + 2048) % 32 = b.toNat := by omega
  rw [decFields_22, e0, e1, e2]
  simp [decVer, okIf]
theorem RoundTrip.stv (s : Bool) (z : Size) (d : Reg) (a : Reg) : RoundTrip.Statement (.stv s z d a) := by
  intro _ _ _
  have hz := sizeCode_lt z
  have hd : d.toNat < 32 := d.isLt
  have ha : a.toNat < 32 := a.isLt
  refine decode_word ⟨s, 0x22, d.toNat, a.toNat, 32 * z.code + 3072⟩ (by dsimp only; omega) (by dsimp only; omega) (by dsimp only; omega) (by dsimp only; omega) ?_
  have e0 : (32 * z.code + 3072) / 32 % 32 = z.code := by omega
  have e1 : (32 * z.code + 3072) / 1024 = 3 := by omega
  have e2 : (32 * z.code + 3072) % 32 = 0 := by omega
  rw [decFields_22, e0, e1, e2]
  simp [decVer, hz, okIf, sizeOf_code]
theorem RoundTrip.commit (s : Bool) (d : Reg) : RoundTrip.Statement (.commit s d) := by
  intro _ _ _
  have hd : d.toNat < 32 := d.isLt
  refine decode_word ⟨s, 0x22, d.toNat, 0, 4096⟩ (by dsimp only; omega) (by dsimp only; omega) (by dsimp only; omega) (by dsimp only; omega) ?_
  rw [decFields_22]
  simp [decVer, okIf]
theorem RoundTrip.abort (s : Bool) : RoundTrip.Statement (.abort s) := by
  intro _ _ _
  refine decode_word ⟨s, 0x22, 0, 0, 5120⟩ (by dsimp only; omega) (by dsimp only; omega) (by dsimp only; omega) (by dsimp only; omega) ?_
  rw [decFields_22]
  simp [decVer, okIf]
theorem RoundTrip.vretire (s : Bool) : RoundTrip.Statement (.vretire s) := by
  intro _ _ _
  refine decode_word ⟨s, 0x22, 0, 0, 6144⟩ (by dsimp only; omega) (by dsimp only; omega) (by dsimp only; omega) (by dsimp only; omega) ?_
  rw [decFields_22]
  simp [decVer, okIf]
theorem RoundTrip.ctxsave (s : Bool) (d : Reg) (a : Reg) (b : Reg) : RoundTrip.Statement (.ctxsave s d a b) := by
  intro _ _ _
  have hd : d.toNat < 32 := d.isLt
  have ha : a.toNat < 32 := a.isLt
  have hb : b.toNat < 32 := b.isLt
  refine decode_word ⟨s, 0x23, d.toNat, a.toNat, b.toNat⟩ (by dsimp only; omega) (by dsimp only; omega) (by dsimp only; omega) (by dsimp only; omega) ?_
  have e0 : (b.toNat) / 32 % 32 = 0 := by omega
  have e1 : (b.toNat) / 1024 = 0 := by omega
  have e2 : (b.toNat) % 32 = b.toNat := by omega
  rw [decFields_23, e0, e1, e2]
  simp [decSys, okIf]
theorem RoundTrip.ctxsaveCore (s : Bool) (d : Reg) (a : Reg) (b : Reg) : RoundTrip.Statement (.ctxsaveCore s d a b) := by
  intro _ _ h
  exact absurd rfl (h s d a b).1
theorem RoundTrip.ctxload (s : Bool) (d : Reg) (a : Reg) (b : Reg) : RoundTrip.Statement (.ctxload s d a b) := by
  intro _ _ _
  have hd : d.toNat < 32 := d.isLt
  have ha : a.toNat < 32 := a.isLt
  have hb : b.toNat < 32 := b.isLt
  refine decode_word ⟨s, 0x23, d.toNat, a.toNat, b.toNat + 1024⟩ (by dsimp only; omega) (by dsimp only; omega) (by dsimp only; omega) (by dsimp only; omega) ?_
  have e0 : (b.toNat + 1024) / 32 % 32 = 0 := by omega
  have e1 : (b.toNat + 1024) / 1024 = 1 := by omega
  have e2 : (b.toNat + 1024) % 32 = b.toNat := by omega
  rw [decFields_23, e0, e1, e2]
  simp [decSys, okIf]
theorem RoundTrip.ctxloadCore (s : Bool) (d : Reg) (a : Reg) (b : Reg) : RoundTrip.Statement (.ctxloadCore s d a b) := by
  intro _ _ h
  exact absurd rfl (h s d a b).2
theorem RoundTrip.tlbi (s : Bool) (a : Reg) (b : Reg) : RoundTrip.Statement (.tlbi s a b) := by
  intro _ _ _
  have ha : a.toNat < 32 := a.isLt
  have hb : b.toNat < 32 := b.isLt
  refine decode_word ⟨s, 0x23, 0, a.toNat, b.toNat + 2048⟩ (by dsimp only; omega) (by dsimp only; omega) (by dsimp only; omega) (by dsimp only; omega) ?_
  have e0 : (b.toNat + 2048) / 32 % 32 = 0 := by omega
  have e1 : (b.toNat + 2048) / 1024 = 2 := by omega
  have e2 : (b.toNat + 2048) % 32 = b.toNat := by omega
  rw [decFields_23, e0, e1, e2]
  simp [decSys, okIf]
theorem RoundTrip.maplid (s : Bool) (d : Reg) (a : Reg) (b : Reg) : RoundTrip.Statement (.maplid s d a b) := by
  intro _ _ _
  have hd : d.toNat < 32 := d.isLt
  have ha : a.toNat < 32 := a.isLt
  have hb : b.toNat < 32 := b.isLt
  refine decode_word ⟨s, 0x23, d.toNat, a.toNat, b.toNat + 3072⟩ (by dsimp only; omega) (by dsimp only; omega) (by dsimp only; omega) (by dsimp only; omega) ?_
  have e0 : (b.toNat + 3072) / 32 % 32 = 0 := by omega
  have e1 : (b.toNat + 3072) / 1024 = 3 := by omega
  have e2 : (b.toNat + 3072) % 32 = b.toNat := by omega
  rw [decFields_23, e0, e1, e2]
  simp [decSys, okIf]
theorem RoundTrip.sysrd (s : Bool) (d : Reg) (a : Reg) : RoundTrip.Statement (.sysrd s d a) := by
  intro _ _ _
  have hd : d.toNat < 32 := d.isLt
  have ha : a.toNat < 32 := a.isLt
  refine decode_word ⟨s, 0x23, d.toNat, a.toNat, 4096⟩ (by dsimp only; omega) (by dsimp only; omega) (by dsimp only; omega) (by dsimp only; omega) ?_
  rw [decFields_23]
  simp [decSys, okIf]
theorem RoundTrip.syswr (s : Bool) (a : Reg) (b : Reg) : RoundTrip.Statement (.syswr s a b) := by
  intro _ _ _
  have ha : a.toNat < 32 := a.isLt
  have hb : b.toNat < 32 := b.isLt
  refine decode_word ⟨s, 0x23, 0, a.toNat, b.toNat + 5120⟩ (by dsimp only; omega) (by dsimp only; omega) (by dsimp only; omega) (by dsimp only; omega) ?_
  have e0 : (b.toNat + 5120) / 32 % 32 = 0 := by omega
  have e1 : (b.toNat + 5120) / 1024 = 5 := by omega
  have e2 : (b.toNat + 5120) % 32 = b.toNat := by omega
  rw [decFields_23, e0, e1, e2]
  simp [decSys, okIf]
theorem RoundTrip.prefetch (s : Bool) (a : Reg) (b : Reg) : RoundTrip.Statement (.prefetch s a b) := by
  intro _ _ _
  have ha : a.toNat < 32 := a.isLt
  have hb : b.toNat < 32 := b.isLt
  refine decode_word ⟨s, 0x23, 0, a.toNat, b.toNat + 6144⟩ (by dsimp only; omega) (by dsimp only; omega) (by dsimp only; omega) (by dsimp only; omega) ?_
  have e0 : (b.toNat + 6144) / 32 % 32 = 0 := by omega
  have e1 : (b.toNat + 6144) / 1024 = 6 := by omega
  have e2 : (b.toNat + 6144) % 32 = b.toNat := by omega
  rw [decFields_23, e0, e1, e2]
  simp [decSys, okIf]
theorem RoundTrip.vadd (s : Bool) (t : Bool) (p : PReg) (d : Reg) (a : Reg) (b : Reg) : RoundTrip.Statement (.vadd s t p d a b) := by
  intro _ _ _
  have ht : b2n t < 2 := Nat.lt_succ_of_le (b2n_le t)
  have hp : p.toNat < 8 := p.isLt
  have hd : d.toNat < 32 := d.isLt
  have ha : a.toNat < 32 := a.isLt
  have hb : b.toNat < 32 := b.isLt
  refine decode_word ⟨s, 0x24, d.toNat, a.toNat, b.toNat + 32 * p.toNat + 256 * b2n t⟩ (by dsimp only; omega) (by dsimp only; omega) (by dsimp only; omega) (by dsimp only; omega) ?_
  have e0 : (b.toNat + 32 * p.toNat + 256 * b2n t) / 256 % 2 = b2n t := by omega
  have e1 : (b.toNat + 32 * p.toNat + 256 * b2n t) / 32 % 8 = p.toNat := by omega
  have e2 : (b.toNat + 32 * p.toNat + 256 * b2n t) / 512 = 0 := by omega
  have e3 : (b.toNat + 32 * p.toNat + 256 * b2n t) % 32 = b.toNat := by omega
  rw [decFields_24, e0, e1, e2, e3]
  simp [decVint, b2n_beq]
theorem RoundTrip.vsub (s : Bool) (t : Bool) (p : PReg) (d : Reg) (a : Reg) (b : Reg) : RoundTrip.Statement (.vsub s t p d a b) := by
  intro _ _ _
  have ht : b2n t < 2 := Nat.lt_succ_of_le (b2n_le t)
  have hp : p.toNat < 8 := p.isLt
  have hd : d.toNat < 32 := d.isLt
  have ha : a.toNat < 32 := a.isLt
  have hb : b.toNat < 32 := b.isLt
  refine decode_word ⟨s, 0x24, d.toNat, a.toNat, b.toNat + 32 * p.toNat + 256 * b2n t + 512⟩ (by dsimp only; omega) (by dsimp only; omega) (by dsimp only; omega) (by dsimp only; omega) ?_
  have e0 : (b.toNat + 32 * p.toNat + 256 * b2n t + 512) / 256 % 2 = b2n t := by omega
  have e1 : (b.toNat + 32 * p.toNat + 256 * b2n t + 512) / 32 % 8 = p.toNat := by omega
  have e2 : (b.toNat + 32 * p.toNat + 256 * b2n t + 512) / 512 = 1 := by omega
  have e3 : (b.toNat + 32 * p.toNat + 256 * b2n t + 512) % 32 = b.toNat := by omega
  rw [decFields_24, e0, e1, e2, e3]
  simp [decVint, b2n_beq]
theorem RoundTrip.vmul (s : Bool) (t : Bool) (p : PReg) (d : Reg) (a : Reg) (b : Reg) : RoundTrip.Statement (.vmul s t p d a b) := by
  intro _ _ _
  have ht : b2n t < 2 := Nat.lt_succ_of_le (b2n_le t)
  have hp : p.toNat < 8 := p.isLt
  have hd : d.toNat < 32 := d.isLt
  have ha : a.toNat < 32 := a.isLt
  have hb : b.toNat < 32 := b.isLt
  refine decode_word ⟨s, 0x24, d.toNat, a.toNat, b.toNat + 32 * p.toNat + 256 * b2n t + 1024⟩ (by dsimp only; omega) (by dsimp only; omega) (by dsimp only; omega) (by dsimp only; omega) ?_
  have e0 : (b.toNat + 32 * p.toNat + 256 * b2n t + 1024) / 256 % 2 = b2n t := by omega
  have e1 : (b.toNat + 32 * p.toNat + 256 * b2n t + 1024) / 32 % 8 = p.toNat := by omega
  have e2 : (b.toNat + 32 * p.toNat + 256 * b2n t + 1024) / 512 = 2 := by omega
  have e3 : (b.toNat + 32 * p.toNat + 256 * b2n t + 1024) % 32 = b.toNat := by omega
  rw [decFields_24, e0, e1, e2, e3]
  simp [decVint, b2n_beq]
theorem RoundTrip.vmulh (s : Bool) (p : PReg) (d : Reg) (a : Reg) (b : Reg) : RoundTrip.Statement (.vmulh s p d a b) := by
  intro _ _ _
  have hp : p.toNat < 8 := p.isLt
  have hd : d.toNat < 32 := d.isLt
  have ha : a.toNat < 32 := a.isLt
  have hb : b.toNat < 32 := b.isLt
  refine decode_word ⟨s, 0x24, d.toNat, a.toNat, b.toNat + 32 * p.toNat + 1536⟩ (by dsimp only; omega) (by dsimp only; omega) (by dsimp only; omega) (by dsimp only; omega) ?_
  have e0 : (b.toNat + 32 * p.toNat + 1536) / 256 % 2 = 0 := by omega
  have e1 : (b.toNat + 32 * p.toNat + 1536) / 32 % 8 = p.toNat := by omega
  have e2 : (b.toNat + 32 * p.toNat + 1536) / 512 = 3 := by omega
  have e3 : (b.toNat + 32 * p.toNat + 1536) % 32 = b.toNat := by omega
  rw [decFields_24, e0, e1, e2, e3]
  simp [decVint, okIf]
theorem RoundTrip.vmin (s : Bool) (p : PReg) (d : Reg) (a : Reg) (b : Reg) : RoundTrip.Statement (.vmin s p d a b) := by
  intro _ _ _
  have hp : p.toNat < 8 := p.isLt
  have hd : d.toNat < 32 := d.isLt
  have ha : a.toNat < 32 := a.isLt
  have hb : b.toNat < 32 := b.isLt
  refine decode_word ⟨s, 0x24, d.toNat, a.toNat, b.toNat + 32 * p.toNat + 2048⟩ (by dsimp only; omega) (by dsimp only; omega) (by dsimp only; omega) (by dsimp only; omega) ?_
  have e0 : (b.toNat + 32 * p.toNat + 2048) / 256 % 2 = 0 := by omega
  have e1 : (b.toNat + 32 * p.toNat + 2048) / 32 % 8 = p.toNat := by omega
  have e2 : (b.toNat + 32 * p.toNat + 2048) / 512 = 4 := by omega
  have e3 : (b.toNat + 32 * p.toNat + 2048) % 32 = b.toNat := by omega
  rw [decFields_24, e0, e1, e2, e3]
  simp [decVint, okIf]
theorem RoundTrip.vmax (s : Bool) (p : PReg) (d : Reg) (a : Reg) (b : Reg) : RoundTrip.Statement (.vmax s p d a b) := by
  intro _ _ _
  have hp : p.toNat < 8 := p.isLt
  have hd : d.toNat < 32 := d.isLt
  have ha : a.toNat < 32 := a.isLt
  have hb : b.toNat < 32 := b.isLt
  refine decode_word ⟨s, 0x24, d.toNat, a.toNat, b.toNat + 32 * p.toNat + 2560⟩ (by dsimp only; omega) (by dsimp only; omega) (by dsimp only; omega) (by dsimp only; omega) ?_
  have e0 : (b.toNat + 32 * p.toNat + 2560) / 256 % 2 = 0 := by omega
  have e1 : (b.toNat + 32 * p.toNat + 2560) / 32 % 8 = p.toNat := by omega
  have e2 : (b.toNat + 32 * p.toNat + 2560) / 512 = 5 := by omega
  have e3 : (b.toNat + 32 * p.toNat + 2560) % 32 = b.toNat := by omega
  rw [decFields_24, e0, e1, e2, e3]
  simp [decVint, okIf]
theorem RoundTrip.vand (s : Bool) (p : PReg) (d : Reg) (a : Reg) (b : Reg) : RoundTrip.Statement (.vand s p d a b) := by
  intro _ _ _
  have hp : p.toNat < 8 := p.isLt
  have hd : d.toNat < 32 := d.isLt
  have ha : a.toNat < 32 := a.isLt
  have hb : b.toNat < 32 := b.isLt
  refine decode_word ⟨s, 0x24, d.toNat, a.toNat, b.toNat + 32 * p.toNat + 3072⟩ (by dsimp only; omega) (by dsimp only; omega) (by dsimp only; omega) (by dsimp only; omega) ?_
  have e0 : (b.toNat + 32 * p.toNat + 3072) / 256 % 2 = 0 := by omega
  have e1 : (b.toNat + 32 * p.toNat + 3072) / 32 % 8 = p.toNat := by omega
  have e2 : (b.toNat + 32 * p.toNat + 3072) / 512 = 6 := by omega
  have e3 : (b.toNat + 32 * p.toNat + 3072) % 32 = b.toNat := by omega
  rw [decFields_24, e0, e1, e2, e3]
  simp [decVint, okIf]
theorem RoundTrip.vor (s : Bool) (p : PReg) (d : Reg) (a : Reg) (b : Reg) : RoundTrip.Statement (.vor s p d a b) := by
  intro _ _ _
  have hp : p.toNat < 8 := p.isLt
  have hd : d.toNat < 32 := d.isLt
  have ha : a.toNat < 32 := a.isLt
  have hb : b.toNat < 32 := b.isLt
  refine decode_word ⟨s, 0x24, d.toNat, a.toNat, b.toNat + 32 * p.toNat + 3584⟩ (by dsimp only; omega) (by dsimp only; omega) (by dsimp only; omega) (by dsimp only; omega) ?_
  have e0 : (b.toNat + 32 * p.toNat + 3584) / 256 % 2 = 0 := by omega
  have e1 : (b.toNat + 32 * p.toNat + 3584) / 32 % 8 = p.toNat := by omega
  have e2 : (b.toNat + 32 * p.toNat + 3584) / 512 = 7 := by omega
  have e3 : (b.toNat + 32 * p.toNat + 3584) % 32 = b.toNat := by omega
  rw [decFields_24, e0, e1, e2, e3]
  simp [decVint, okIf]
theorem RoundTrip.vxor (s : Bool) (p : PReg) (d : Reg) (a : Reg) (b : Reg) : RoundTrip.Statement (.vxor s p d a b) := by
  intro _ _ _
  have hp : p.toNat < 8 := p.isLt
  have hd : d.toNat < 32 := d.isLt
  have ha : a.toNat < 32 := a.isLt
  have hb : b.toNat < 32 := b.isLt
  refine decode_word ⟨s, 0x24, d.toNat, a.toNat, b.toNat + 32 * p.toNat + 4096⟩ (by dsimp only; omega) (by dsimp only; omega) (by dsimp only; omega) (by dsimp only; omega) ?_
  have e0 : (b.toNat + 32 * p.toNat + 4096) / 256 % 2 = 0 := by omega
  have e1 : (b.toNat + 32 * p.toNat + 4096) / 32 % 8 = p.toNat := by omega
  have e2 : (b.toNat + 32 * p.toNat + 4096) / 512 = 8 := by omega
  have e3 : (b.toNat + 32 * p.toNat + 4096) % 32 = b.toNat := by omega
  rw [decFields_24, e0, e1, e2, e3]
  simp [decVint, okIf]
theorem RoundTrip.vshl (s : Bool) (p : PReg) (d : Reg) (a : Reg) (b : Reg) : RoundTrip.Statement (.vshl s p d a b) := by
  intro _ _ _
  have hp : p.toNat < 8 := p.isLt
  have hd : d.toNat < 32 := d.isLt
  have ha : a.toNat < 32 := a.isLt
  have hb : b.toNat < 32 := b.isLt
  refine decode_word ⟨s, 0x24, d.toNat, a.toNat, b.toNat + 32 * p.toNat + 4608⟩ (by dsimp only; omega) (by dsimp only; omega) (by dsimp only; omega) (by dsimp only; omega) ?_
  have e0 : (b.toNat + 32 * p.toNat + 4608) / 256 % 2 = 0 := by omega
  have e1 : (b.toNat + 32 * p.toNat + 4608) / 32 % 8 = p.toNat := by omega
  have e2 : (b.toNat + 32 * p.toNat + 4608) / 512 = 9 := by omega
  have e3 : (b.toNat + 32 * p.toNat + 4608) % 32 = b.toNat := by omega
  rw [decFields_24, e0, e1, e2, e3]
  simp [decVint, okIf]
theorem RoundTrip.vshr (s : Bool) (p : PReg) (d : Reg) (a : Reg) (b : Reg) : RoundTrip.Statement (.vshr s p d a b) := by
  intro _ _ _
  have hp : p.toNat < 8 := p.isLt
  have hd : d.toNat < 32 := d.isLt
  have ha : a.toNat < 32 := a.isLt
  have hb : b.toNat < 32 := b.isLt
  refine decode_word ⟨s, 0x24, d.toNat, a.toNat, b.toNat + 32 * p.toNat + 5120⟩ (by dsimp only; omega) (by dsimp only; omega) (by dsimp only; omega) (by dsimp only; omega) ?_
  have e0 : (b.toNat + 32 * p.toNat + 5120) / 256 % 2 = 0 := by omega
  have e1 : (b.toNat + 32 * p.toNat + 5120) / 32 % 8 = p.toNat := by omega
  have e2 : (b.toNat + 32 * p.toNat + 5120) / 512 = 10 := by omega
  have e3 : (b.toNat + 32 * p.toNat + 5120) % 32 = b.toNat := by omega
  rw [decFields_24, e0, e1, e2, e3]
  simp [decVint, okIf]
theorem RoundTrip.vsar (s : Bool) (p : PReg) (d : Reg) (a : Reg) (b : Reg) : RoundTrip.Statement (.vsar s p d a b) := by
  intro _ _ _
  have hp : p.toNat < 8 := p.isLt
  have hd : d.toNat < 32 := d.isLt
  have ha : a.toNat < 32 := a.isLt
  have hb : b.toNat < 32 := b.isLt
  refine decode_word ⟨s, 0x24, d.toNat, a.toNat, b.toNat + 32 * p.toNat + 5632⟩ (by dsimp only; omega) (by dsimp only; omega) (by dsimp only; omega) (by dsimp only; omega) ?_
  have e0 : (b.toNat + 32 * p.toNat + 5632) / 256 % 2 = 0 := by omega
  have e1 : (b.toNat + 32 * p.toNat + 5632) / 32 % 8 = p.toNat := by omega
  have e2 : (b.toNat + 32 * p.toNat + 5632) / 512 = 11 := by omega
  have e3 : (b.toNat + 32 * p.toNat + 5632) % 32 = b.toNat := by omega
  rw [decFields_24, e0, e1, e2, e3]
  simp [decVint, okIf]
theorem RoundTrip.vabs (s : Bool) (t : Bool) (p : PReg) (d : Reg) (a : Reg) : RoundTrip.Statement (.vabs s t p d a) := by
  intro _ _ _
  have ht : b2n t < 2 := Nat.lt_succ_of_le (b2n_le t)
  have hp : p.toNat < 8 := p.isLt
  have hd : d.toNat < 32 := d.isLt
  have ha : a.toNat < 32 := a.isLt
  refine decode_word ⟨s, 0x24, d.toNat, a.toNat, 32 * p.toNat + 256 * b2n t + 6144⟩ (by dsimp only; omega) (by dsimp only; omega) (by dsimp only; omega) (by dsimp only; omega) ?_
  have e0 : (32 * p.toNat + 256 * b2n t + 6144) / 256 % 2 = b2n t := by omega
  have e1 : (32 * p.toNat + 256 * b2n t + 6144) / 32 % 8 = p.toNat := by omega
  have e2 : (32 * p.toNat + 256 * b2n t + 6144) / 512 = 12 := by omega
  have e3 : (32 * p.toNat + 256 * b2n t + 6144) % 32 = 0 := by omega
  rw [decFields_24, e0, e1, e2, e3]
  simp [decVint, okIf, b2n_beq]
theorem RoundTrip.vcmp (s : Bool) (m : BitVec 3) (d : PReg) (p : PReg) (a : Reg) (b : Reg) : RoundTrip.Statement (.vcmp s m d p a b) := by
  intro _ _ _
  have hm : m.toNat < 8 := m.isLt
  have hd : d.toNat < 8 := d.isLt
  have hp : p.toNat < 8 := p.isLt
  have ha : a.toNat < 32 := a.isLt
  have hb : b.toNat < 32 := b.isLt
  refine decode_word ⟨s, 0x24, d.toNat + 8 * (m.toNat / 2), a.toNat, b.toNat + 32 * p.toNat + 256 * (m.toNat % 2) + 6656⟩ (by dsimp only; omega) (by dsimp only; omega) (by dsimp only; omega) (by dsimp only; omega) ?_
  have e0 : (b.toNat + 32 * p.toNat + 256 * (m.toNat % 2) + 6656) / 256 % 2 = m.toNat % 2 := by omega
  have e1 : (b.toNat + 32 * p.toNat + 256 * (m.toNat % 2) + 6656) / 32 % 8 = p.toNat := by omega
  have e2 : (b.toNat + 32 * p.toNat + 256 * (m.toNat % 2) + 6656) % 32 = b.toNat := by omega
  have e3 : (b.toNat + 32 * p.toNat + 256 * (m.toNat % 2) + 6656) / 512 = 13 := by omega
  have f0 : (d.toNat + 8 * (m.toNat / 2)) / 8 = m.toNat / 2 := by omega
  have f1 : r3 (d.toNat + 8 * (m.toNat / 2)) = d := by
    apply BitVec.eq_of_toNat_eq
    unfold r3
    rw [BitVec.toNat_ofNat]
    omega
  have f2 : b2n (m.toNat % 2 == 1) + 2 * (m.toNat / 2) = m.toNat := by
    rcases Nat.mod_two_eq_zero_or_one m.toNat with h | h <;> rw [h] <;> simp [b2n] <;> omega
  rw [decFields_24, e0, e1, e2, e3]
  simp [decVint, f0, f1, f2]
theorem RoundTrip.vfadd (s : Bool) (t : Bool) (p : PReg) (d : Reg) (a : Reg) (b : Reg) : RoundTrip.Statement (.vfadd s t p d a b) := by
  intro _ _ _
  have ht : b2n t < 2 := Nat.lt_succ_of_le (b2n_le t)
  have hp : p.toNat < 8 := p.isLt
  have hd : d.toNat < 32 := d.isLt
  have ha : a.toNat < 32 := a.isLt
  have hb : b.toNat < 32 := b.isLt
  refine decode_word ⟨s, 0x25, d.toNat, a.toNat, b.toNat + 32 * p.toNat + 256 * b2n t⟩ (by dsimp only; omega) (by dsimp only; omega) (by dsimp only; omega) (by dsimp only; omega) ?_
  have e0 : (b.toNat + 32 * p.toNat + 256 * b2n t) / 256 % 2 = b2n t := by omega
  have e1 : (b.toNat + 32 * p.toNat + 256 * b2n t) / 32 % 8 = p.toNat := by omega
  have e2 : (b.toNat + 32 * p.toNat + 256 * b2n t) / 512 = 0 := by omega
  have e3 : (b.toNat + 32 * p.toNat + 256 * b2n t) % 32 = b.toNat := by omega
  rw [decFields_25, e0, e1, e2, e3]
  simp [decVfp, b2n_beq]
theorem RoundTrip.vfsub (s : Bool) (t : Bool) (p : PReg) (d : Reg) (a : Reg) (b : Reg) : RoundTrip.Statement (.vfsub s t p d a b) := by
  intro _ _ _
  have ht : b2n t < 2 := Nat.lt_succ_of_le (b2n_le t)
  have hp : p.toNat < 8 := p.isLt
  have hd : d.toNat < 32 := d.isLt
  have ha : a.toNat < 32 := a.isLt
  have hb : b.toNat < 32 := b.isLt
  refine decode_word ⟨s, 0x25, d.toNat, a.toNat, b.toNat + 32 * p.toNat + 256 * b2n t + 512⟩ (by dsimp only; omega) (by dsimp only; omega) (by dsimp only; omega) (by dsimp only; omega) ?_
  have e0 : (b.toNat + 32 * p.toNat + 256 * b2n t + 512) / 256 % 2 = b2n t := by omega
  have e1 : (b.toNat + 32 * p.toNat + 256 * b2n t + 512) / 32 % 8 = p.toNat := by omega
  have e2 : (b.toNat + 32 * p.toNat + 256 * b2n t + 512) / 512 = 1 := by omega
  have e3 : (b.toNat + 32 * p.toNat + 256 * b2n t + 512) % 32 = b.toNat := by omega
  rw [decFields_25, e0, e1, e2, e3]
  simp [decVfp, b2n_beq]
theorem RoundTrip.vfmul (s : Bool) (t : Bool) (p : PReg) (d : Reg) (a : Reg) (b : Reg) : RoundTrip.Statement (.vfmul s t p d a b) := by
  intro _ _ _
  have ht : b2n t < 2 := Nat.lt_succ_of_le (b2n_le t)
  have hp : p.toNat < 8 := p.isLt
  have hd : d.toNat < 32 := d.isLt
  have ha : a.toNat < 32 := a.isLt
  have hb : b.toNat < 32 := b.isLt
  refine decode_word ⟨s, 0x25, d.toNat, a.toNat, b.toNat + 32 * p.toNat + 256 * b2n t + 1024⟩ (by dsimp only; omega) (by dsimp only; omega) (by dsimp only; omega) (by dsimp only; omega) ?_
  have e0 : (b.toNat + 32 * p.toNat + 256 * b2n t + 1024) / 256 % 2 = b2n t := by omega
  have e1 : (b.toNat + 32 * p.toNat + 256 * b2n t + 1024) / 32 % 8 = p.toNat := by omega
  have e2 : (b.toNat + 32 * p.toNat + 256 * b2n t + 1024) / 512 = 2 := by omega
  have e3 : (b.toNat + 32 * p.toNat + 256 * b2n t + 1024) % 32 = b.toNat := by omega
  rw [decFields_25, e0, e1, e2, e3]
  simp [decVfp, b2n_beq]
theorem RoundTrip.vfma (s : Bool) (t : Bool) (p : PReg) (d : Reg) (a : Reg) (b : Reg) : RoundTrip.Statement (.vfma s t p d a b) := by
  intro _ _ _
  have ht : b2n t < 2 := Nat.lt_succ_of_le (b2n_le t)
  have hp : p.toNat < 8 := p.isLt
  have hd : d.toNat < 32 := d.isLt
  have ha : a.toNat < 32 := a.isLt
  have hb : b.toNat < 32 := b.isLt
  refine decode_word ⟨s, 0x25, d.toNat, a.toNat, b.toNat + 32 * p.toNat + 256 * b2n t + 1536⟩ (by dsimp only; omega) (by dsimp only; omega) (by dsimp only; omega) (by dsimp only; omega) ?_
  have e0 : (b.toNat + 32 * p.toNat + 256 * b2n t + 1536) / 256 % 2 = b2n t := by omega
  have e1 : (b.toNat + 32 * p.toNat + 256 * b2n t + 1536) / 32 % 8 = p.toNat := by omega
  have e2 : (b.toNat + 32 * p.toNat + 256 * b2n t + 1536) / 512 = 3 := by omega
  have e3 : (b.toNat + 32 * p.toNat + 256 * b2n t + 1536) % 32 = b.toNat := by omega
  rw [decFields_25, e0, e1, e2, e3]
  simp [decVfp, b2n_beq]
theorem RoundTrip.vfms (s : Bool) (t : Bool) (p : PReg) (d : Reg) (a : Reg) (b : Reg) : RoundTrip.Statement (.vfms s t p d a b) := by
  intro _ _ _
  have ht : b2n t < 2 := Nat.lt_succ_of_le (b2n_le t)
  have hp : p.toNat < 8 := p.isLt
  have hd : d.toNat < 32 := d.isLt
  have ha : a.toNat < 32 := a.isLt
  have hb : b.toNat < 32 := b.isLt
  refine decode_word ⟨s, 0x25, d.toNat, a.toNat, b.toNat + 32 * p.toNat + 256 * b2n t + 2048⟩ (by dsimp only; omega) (by dsimp only; omega) (by dsimp only; omega) (by dsimp only; omega) ?_
  have e0 : (b.toNat + 32 * p.toNat + 256 * b2n t + 2048) / 256 % 2 = b2n t := by omega
  have e1 : (b.toNat + 32 * p.toNat + 256 * b2n t + 2048) / 32 % 8 = p.toNat := by omega
  have e2 : (b.toNat + 32 * p.toNat + 256 * b2n t + 2048) / 512 = 4 := by omega
  have e3 : (b.toNat + 32 * p.toNat + 256 * b2n t + 2048) % 32 = b.toNat := by omega
  rw [decFields_25, e0, e1, e2, e3]
  simp [decVfp, b2n_beq]
theorem RoundTrip.vfnma (s : Bool) (t : Bool) (p : PReg) (d : Reg) (a : Reg) (b : Reg) : RoundTrip.Statement (.vfnma s t p d a b) := by
  intro _ _ _
  have ht : b2n t < 2 := Nat.lt_succ_of_le (b2n_le t)
  have hp : p.toNat < 8 := p.isLt
  have hd : d.toNat < 32 := d.isLt
  have ha : a.toNat < 32 := a.isLt
  have hb : b.toNat < 32 := b.isLt
  refine decode_word ⟨s, 0x25, d.toNat, a.toNat, b.toNat + 32 * p.toNat + 256 * b2n t + 2560⟩ (by dsimp only; omega) (by dsimp only; omega) (by dsimp only; omega) (by dsimp only; omega) ?_
  have e0 : (b.toNat + 32 * p.toNat + 256 * b2n t + 2560) / 256 % 2 = b2n t := by omega
  have e1 : (b.toNat + 32 * p.toNat + 256 * b2n t + 2560) / 32 % 8 = p.toNat := by omega
  have e2 : (b.toNat + 32 * p.toNat + 256 * b2n t + 2560) / 512 = 5 := by omega
  have e3 : (b.toNat + 32 * p.toNat + 256 * b2n t + 2560) % 32 = b.toNat := by omega
  rw [decFields_25, e0, e1, e2, e3]
  simp [decVfp, b2n_beq]
theorem RoundTrip.vfdiv (s : Bool) (t : Bool) (p : PReg) (d : Reg) (a : Reg) (b : Reg) : RoundTrip.Statement (.vfdiv s t p d a b) := by
  intro _ _ _
  have ht : b2n t < 2 := Nat.lt_succ_of_le (b2n_le t)
  have hp : p.toNat < 8 := p.isLt
  have hd : d.toNat < 32 := d.isLt
  have ha : a.toNat < 32 := a.isLt
  have hb : b.toNat < 32 := b.isLt
  refine decode_word ⟨s, 0x25, d.toNat, a.toNat, b.toNat + 32 * p.toNat + 256 * b2n t + 3072⟩ (by dsimp only; omega) (by dsimp only; omega) (by dsimp only; omega) (by dsimp only; omega) ?_
  have e0 : (b.toNat + 32 * p.toNat + 256 * b2n t + 3072) / 256 % 2 = b2n t := by omega
  have e1 : (b.toNat + 32 * p.toNat + 256 * b2n t + 3072) / 32 % 8 = p.toNat := by omega
  have e2 : (b.toNat + 32 * p.toNat + 256 * b2n t + 3072) / 512 = 6 := by omega
  have e3 : (b.toNat + 32 * p.toNat + 256 * b2n t + 3072) % 32 = b.toNat := by omega
  rw [decFields_25, e0, e1, e2, e3]
  simp [decVfp, b2n_beq]
theorem RoundTrip.vfsqrt (s : Bool) (t : Bool) (p : PReg) (d : Reg) (a : Reg) : RoundTrip.Statement (.vfsqrt s t p d a) := by
  intro _ _ _
  have ht : b2n t < 2 := Nat.lt_succ_of_le (b2n_le t)
  have hp : p.toNat < 8 := p.isLt
  have hd : d.toNat < 32 := d.isLt
  have ha : a.toNat < 32 := a.isLt
  refine decode_word ⟨s, 0x25, d.toNat, a.toNat, 32 * p.toNat + 256 * b2n t + 3584⟩ (by dsimp only; omega) (by dsimp only; omega) (by dsimp only; omega) (by dsimp only; omega) ?_
  have e0 : (32 * p.toNat + 256 * b2n t + 3584) / 256 % 2 = b2n t := by omega
  have e1 : (32 * p.toNat + 256 * b2n t + 3584) / 32 % 8 = p.toNat := by omega
  have e2 : (32 * p.toNat + 256 * b2n t + 3584) / 512 = 7 := by omega
  have e3 : (32 * p.toNat + 256 * b2n t + 3584) % 32 = 0 := by omega
  rw [decFields_25, e0, e1, e2, e3]
  simp [decVfp, okIf, b2n_beq]
theorem RoundTrip.vfmin (s : Bool) (p : PReg) (d : Reg) (a : Reg) (b : Reg) : RoundTrip.Statement (.vfmin s p d a b) := by
  intro _ _ _
  have hp : p.toNat < 8 := p.isLt
  have hd : d.toNat < 32 := d.isLt
  have ha : a.toNat < 32 := a.isLt
  have hb : b.toNat < 32 := b.isLt
  refine decode_word ⟨s, 0x25, d.toNat, a.toNat, b.toNat + 32 * p.toNat + 4096⟩ (by dsimp only; omega) (by dsimp only; omega) (by dsimp only; omega) (by dsimp only; omega) ?_
  have e0 : (b.toNat + 32 * p.toNat + 4096) / 256 % 2 = 0 := by omega
  have e1 : (b.toNat + 32 * p.toNat + 4096) / 32 % 8 = p.toNat := by omega
  have e2 : (b.toNat + 32 * p.toNat + 4096) / 512 = 8 := by omega
  have e3 : (b.toNat + 32 * p.toNat + 4096) % 32 = b.toNat := by omega
  rw [decFields_25, e0, e1, e2, e3]
  simp [decVfp, okIf]
theorem RoundTrip.vfmax (s : Bool) (p : PReg) (d : Reg) (a : Reg) (b : Reg) : RoundTrip.Statement (.vfmax s p d a b) := by
  intro _ _ _
  have hp : p.toNat < 8 := p.isLt
  have hd : d.toNat < 32 := d.isLt
  have ha : a.toNat < 32 := a.isLt
  have hb : b.toNat < 32 := b.isLt
  refine decode_word ⟨s, 0x25, d.toNat, a.toNat, b.toNat + 32 * p.toNat + 4608⟩ (by dsimp only; omega) (by dsimp only; omega) (by dsimp only; omega) (by dsimp only; omega) ?_
  have e0 : (b.toNat + 32 * p.toNat + 4608) / 256 % 2 = 0 := by omega
  have e1 : (b.toNat + 32 * p.toNat + 4608) / 32 % 8 = p.toNat := by omega
  have e2 : (b.toNat + 32 * p.toNat + 4608) / 512 = 9 := by omega
  have e3 : (b.toNat + 32 * p.toNat + 4608) % 32 = b.toNat := by omega
  rw [decFields_25, e0, e1, e2, e3]
  simp [decVfp, okIf]
theorem RoundTrip.vfcmp (s : Bool) (m : BitVec 3) (d : PReg) (p : PReg) (a : Reg) (b : Reg) : RoundTrip.Statement (.vfcmp s m d p a b) := by
  intro _ _ _
  have hm : m.toNat < 8 := m.isLt
  have hd : d.toNat < 8 := d.isLt
  have hp : p.toNat < 8 := p.isLt
  have ha : a.toNat < 32 := a.isLt
  have hb : b.toNat < 32 := b.isLt
  refine decode_word ⟨s, 0x25, d.toNat + 8 * (m.toNat / 2), a.toNat, b.toNat + 32 * p.toNat + 256 * (m.toNat % 2) + 5120⟩ (by dsimp only; omega) (by dsimp only; omega) (by dsimp only; omega) (by dsimp only; omega) ?_
  have e0 : (b.toNat + 32 * p.toNat + 256 * (m.toNat % 2) + 5120) / 256 % 2 = m.toNat % 2 := by omega
  have e1 : (b.toNat + 32 * p.toNat + 256 * (m.toNat % 2) + 5120) / 32 % 8 = p.toNat := by omega
  have e2 : (b.toNat + 32 * p.toNat + 256 * (m.toNat % 2) + 5120) % 32 = b.toNat := by omega
  have e3 : (b.toNat + 32 * p.toNat + 256 * (m.toNat % 2) + 5120) / 512 = 10 := by omega
  have f0 : (d.toNat + 8 * (m.toNat / 2)) / 8 = m.toNat / 2 := by omega
  have f1 : r3 (d.toNat + 8 * (m.toNat / 2)) = d := by
    apply BitVec.eq_of_toNat_eq
    unfold r3
    rw [BitVec.toNat_ofNat]
    omega
  have f2 : b2n (m.toNat % 2 == 1) + 2 * (m.toNat / 2) = m.toNat := by
    rcases Nat.mod_two_eq_zero_or_one m.toNat with h | h <;> rw [h] <;> simp [b2n] <;> omega
  rw [decFields_25, e0, e1, e2, e3]
  simp [decVfp, f0, f1, f2]
theorem RoundTrip.vfclass (s : Bool) (p : PReg) (d : Reg) (a : Reg) : RoundTrip.Statement (.vfclass s p d a) := by
  intro _ _ _
  have hp : p.toNat < 8 := p.isLt
  have hd : d.toNat < 32 := d.isLt
  have ha : a.toNat < 32 := a.isLt
  refine decode_word ⟨s, 0x25, d.toNat, a.toNat, 32 * p.toNat + 5632⟩ (by dsimp only; omega) (by dsimp only; omega) (by dsimp only; omega) (by dsimp only; omega) ?_
  have e0 : (32 * p.toNat + 5632) / 256 % 2 = 0 := by omega
  have e1 : (32 * p.toNat + 5632) / 32 % 8 = p.toNat := by omega
  have e2 : (32 * p.toNat + 5632) / 512 = 11 := by omega
  have e3 : (32 * p.toNat + 5632) % 32 = 0 := by omega
  rw [decFields_25, e0, e1, e2, e3]
  simp [decVfp, okIf]
theorem RoundTrip.vfrcp (s : Bool) (t : Bool) (p : PReg) (d : Reg) (a : Reg) : RoundTrip.Statement (.vfrcp s t p d a) := by
  intro _ _ _
  have ht : b2n t < 2 := Nat.lt_succ_of_le (b2n_le t)
  have hp : p.toNat < 8 := p.isLt
  have hd : d.toNat < 32 := d.isLt
  have ha : a.toNat < 32 := a.isLt
  refine decode_word ⟨s, 0x25, d.toNat, a.toNat, 32 * p.toNat + 256 * b2n t + 6144⟩ (by dsimp only; omega) (by dsimp only; omega) (by dsimp only; omega) (by dsimp only; omega) ?_
  have e0 : (32 * p.toNat + 256 * b2n t + 6144) / 256 % 2 = b2n t := by omega
  have e1 : (32 * p.toNat + 256 * b2n t + 6144) / 32 % 8 = p.toNat := by omega
  have e2 : (32 * p.toNat + 256 * b2n t + 6144) / 512 = 12 := by omega
  have e3 : (32 * p.toNat + 256 * b2n t + 6144) % 32 = 0 := by omega
  rw [decFields_25, e0, e1, e2, e3]
  simp [decVfp, okIf, b2n_beq]
theorem RoundTrip.vfrsq (s : Bool) (t : Bool) (p : PReg) (d : Reg) (a : Reg) : RoundTrip.Statement (.vfrsq s t p d a) := by
  intro _ _ _
  have ht : b2n t < 2 := Nat.lt_succ_of_le (b2n_le t)
  have hp : p.toNat < 8 := p.isLt
  have hd : d.toNat < 32 := d.isLt
  have ha : a.toNat < 32 := a.isLt
  refine decode_word ⟨s, 0x25, d.toNat, a.toNat, 32 * p.toNat + 256 * b2n t + 6656⟩ (by dsimp only; omega) (by dsimp only; omega) (by dsimp only; omega) (by dsimp only; omega) ?_
  have e0 : (32 * p.toNat + 256 * b2n t + 6656) / 256 % 2 = b2n t := by omega
  have e1 : (32 * p.toNat + 256 * b2n t + 6656) / 32 % 8 = p.toNat := by omega
  have e2 : (32 * p.toNat + 256 * b2n t + 6656) / 512 = 13 := by omega
  have e3 : (32 * p.toNat + 256 * b2n t + 6656) % 32 = 0 := by omega
  rw [decFields_25, e0, e1, e2, e3]
  simp [decVfp, okIf, b2n_beq]
theorem RoundTrip.vcvt (s : Bool) (t : Bool) (p : PReg) (d : Reg) (a : Reg) (n : BitVec 5) : RoundTrip.Statement (.vcvt s t p d a n) := by
  intro _ _ _
  have ht : b2n t < 2 := Nat.lt_succ_of_le (b2n_le t)
  have hp : p.toNat < 8 := p.isLt
  have hd : d.toNat < 32 := d.isLt
  have ha : a.toNat < 32 := a.isLt
  have hn : n.toNat < 32 := n.isLt
  refine decode_word ⟨s, 0x26, d.toNat, a.toNat, n.toNat + 32 * p.toNat + 256 * b2n t⟩ (by dsimp only; omega) (by dsimp only; omega) (by dsimp only; omega) (by dsimp only; omega) ?_
  have e0 : (n.toNat + 32 * p.toNat + 256 * b2n t) / 256 % 2 = b2n t := by omega
  have e1 : (n.toNat + 32 * p.toNat + 256 * b2n t) / 32 % 8 = p.toNat := by omega
  have e2 : (n.toNat + 32 * p.toNat + 256 * b2n t) / 512 = 0 := by omega
  have e3 : (n.toNat + 32 * p.toNat + 256 * b2n t) % 32 = n.toNat := by omega
  rw [decFields_26, e0, e1, e2, e3]
  simp [decVcvt, b2n_beq]
theorem RoundTrip.vscale (s : Bool) (t : Bool) (p : PReg) (d : Reg) (a : Reg) (b : Reg) : RoundTrip.Statement (.vscale s t p d a b) := by
  intro _ _ _
  have ht : b2n t < 2 := Nat.lt_succ_of_le (b2n_le t)
  have hp : p.toNat < 8 := p.isLt
  have hd : d.toNat < 32 := d.isLt
  have ha : a.toNat < 32 := a.isLt
  have hb : b.toNat < 32 := b.isLt
  refine decode_word ⟨s, 0x26, d.toNat, a.toNat, b.toNat + 32 * p.toNat + 256 * b2n t + 512⟩ (by dsimp only; omega) (by dsimp only; omega) (by dsimp only; omega) (by dsimp only; omega) ?_
  have e0 : (b.toNat + 32 * p.toNat + 256 * b2n t + 512) / 256 % 2 = b2n t := by omega
  have e1 : (b.toNat + 32 * p.toNat + 256 * b2n t + 512) / 32 % 8 = p.toNat := by omega
  have e2 : (b.toNat + 32 * p.toNat + 256 * b2n t + 512) / 512 = 1 := by omega
  have e3 : (b.toNat + 32 * p.toNat + 256 * b2n t + 512) % 32 = b.toNat := by omega
  rw [decFields_26, e0, e1, e2, e3]
  simp [decVcvt, b2n_beq]
theorem RoundTrip.vpack (s : Bool) (t : Bool) (p : PReg) (d : Reg) (a : Reg) (b : Reg) : RoundTrip.Statement (.vpack s t p d a b) := by
  intro _ _ _
  have ht : b2n t < 2 := Nat.lt_succ_of_le (b2n_le t)
  have hp : p.toNat < 8 := p.isLt
  have hd : d.toNat < 32 := d.isLt
  have ha : a.toNat < 32 := a.isLt
  have hb : b.toNat < 32 := b.isLt
  refine decode_word ⟨s, 0x26, d.toNat, a.toNat, b.toNat + 32 * p.toNat + 256 * b2n t + 1024⟩ (by dsimp only; omega) (by dsimp only; omega) (by dsimp only; omega) (by dsimp only; omega) ?_
  have e0 : (b.toNat + 32 * p.toNat + 256 * b2n t + 1024) / 256 % 2 = b2n t := by omega
  have e1 : (b.toNat + 32 * p.toNat + 256 * b2n t + 1024) / 32 % 8 = p.toNat := by omega
  have e2 : (b.toNat + 32 * p.toNat + 256 * b2n t + 1024) / 512 = 2 := by omega
  have e3 : (b.toNat + 32 * p.toNat + 256 * b2n t + 1024) % 32 = b.toNat := by omega
  rw [decFields_26, e0, e1, e2, e3]
  simp [decVcvt, b2n_beq]
theorem RoundTrip.vunpack (s : Bool) (p : PReg) (d : Reg) (a : Reg) (n : BitVec 5) : RoundTrip.Statement (.vunpack s p d a n) := by
  intro _ _ _
  have hp : p.toNat < 8 := p.isLt
  have hd : d.toNat < 32 := d.isLt
  have ha : a.toNat < 32 := a.isLt
  have hn : n.toNat < 32 := n.isLt
  refine decode_word ⟨s, 0x26, d.toNat, a.toNat, n.toNat + 32 * p.toNat + 1536⟩ (by dsimp only; omega) (by dsimp only; omega) (by dsimp only; omega) (by dsimp only; omega) ?_
  have e0 : (n.toNat + 32 * p.toNat + 1536) / 256 % 2 = 0 := by omega
  have e1 : (n.toNat + 32 * p.toNat + 1536) / 32 % 8 = p.toNat := by omega
  have e2 : (n.toNat + 32 * p.toNat + 1536) / 512 = 3 := by omega
  have e3 : (n.toNat + 32 * p.toNat + 1536) % 32 = n.toNat := by omega
  rw [decFields_26, e0, e1, e2, e3]
  simp [decVcvt, okIf]
theorem RoundTrip.vcfg (s : Bool) (d : Reg) (a : Reg) : RoundTrip.Statement (.vcfg s d a) := by
  intro _ _ _
  have hd : d.toNat < 32 := d.isLt
  have ha : a.toNat < 32 := a.isLt
  refine decode_word ⟨s, 0x26, d.toNat, a.toNat, 2048⟩ (by dsimp only; omega) (by dsimp only; omega) (by dsimp only; omega) (by dsimp only; omega) ?_
  rw [decFields_26]
  simp [decVcvt, okIf]
theorem RoundTrip.vmov (s : Bool) (p : PReg) (d : Reg) (a : Reg) : RoundTrip.Statement (.vmov s p d a) := by
  intro _ _ _
  have hp : p.toNat < 8 := p.isLt
  have hd : d.toNat < 32 := d.isLt
  have ha : a.toNat < 32 := a.isLt
  refine decode_word ⟨s, 0x27, d.toNat, a.toNat, 32 * p.toNat⟩ (by dsimp only; omega) (by dsimp only; omega) (by dsimp only; omega) (by dsimp only; omega) ?_
  have e0 : (32 * p.toNat) / 256 % 2 = 0 := by omega
  have e1 : (32 * p.toNat) / 32 % 8 = p.toNat := by omega
  have e2 : (32 * p.toNat) / 512 = 0 := by omega
  have e3 : (32 * p.toNat) % 32 = 0 := by omega
  rw [decFields_27, e0, e1, e2, e3]
  simp [decVmov, okIf]
theorem RoundTrip.vmovPredToGpr (s : Bool) (d : Reg) (a : PReg) : RoundTrip.Statement (.vmovPredToGpr s d a) := by
  intro _ _ _
  have hd : d.toNat < 32 := d.isLt
  have ha : a.toNat < 8 := a.isLt
  refine decode_word ⟨s, 0x27, d.toNat, a.toNat, 1⟩ (by dsimp only; omega) (by dsimp only; omega) (by dsimp only; omega) (by dsimp only; omega) ?_
  rw [decFields_27]
  simp [decVmov, ha, okIf]
theorem RoundTrip.vmovGprToPred (s : Bool) (d : PReg) (a : Reg) : RoundTrip.Statement (.vmovGprToPred s d a) := by
  intro _ _ _
  have hd : d.toNat < 8 := d.isLt
  have ha : a.toNat < 32 := a.isLt
  refine decode_word ⟨s, 0x27, d.toNat, a.toNat, 2⟩ (by dsimp only; omega) (by dsimp only; omega) (by dsimp only; omega) (by dsimp only; omega) ?_
  rw [decFields_27]
  simp [decVmov, hd, okIf]
theorem RoundTrip.vbcast (s : Bool) (p : PReg) (d : Reg) (a : Reg) : RoundTrip.Statement (.vbcast s p d a) := by
  intro _ _ _
  have hp : p.toNat < 8 := p.isLt
  have hd : d.toNat < 32 := d.isLt
  have ha : a.toNat < 32 := a.isLt
  refine decode_word ⟨s, 0x27, d.toNat, a.toNat, 32 * p.toNat + 512⟩ (by dsimp only; omega) (by dsimp only; omega) (by dsimp only; omega) (by dsimp only; omega) ?_
  have e0 : (32 * p.toNat + 512) / 256 % 2 = 0 := by omega
  have e1 : (32 * p.toNat + 512) / 32 % 8 = p.toNat := by omega
  have e2 : (32 * p.toNat + 512) / 512 = 1 := by omega
  have e3 : (32 * p.toNat + 512) % 32 = 0 := by omega
  rw [decFields_27, e0, e1, e2, e3]
  simp [decVmov, okIf]
theorem RoundTrip.vext (s : Bool) (d : Reg) (a : Reg) (b : Reg) : RoundTrip.Statement (.vext s d a b) := by
  intro _ _ _
  have hd : d.toNat < 32 := d.isLt
  have ha : a.toNat < 32 := a.isLt
  have hb : b.toNat < 32 := b.isLt
  refine decode_word ⟨s, 0x27, d.toNat, a.toNat, b.toNat + 1024⟩ (by dsimp only; omega) (by dsimp only; omega) (by dsimp only; omega) (by dsimp only; omega) ?_
  have e0 : (b.toNat + 1024) / 256 % 2 = 0 := by omega
  have e1 : (b.toNat + 1024) / 32 % 8 = 0 := by omega
  have e2 : (b.toNat + 1024) / 512 = 2 := by omega
  have e3 : (b.toNat + 1024) % 32 = b.toNat := by omega
  rw [decFields_27, e0, e1, e2, e3]
  simp [decVmov, okIf]
theorem RoundTrip.vins (s : Bool) (d : Reg) (a : Reg) (b : Reg) : RoundTrip.Statement (.vins s d a b) := by
  intro _ _ _
  have hd : d.toNat < 32 := d.isLt
  have ha : a.toNat < 32 := a.isLt
  have hb : b.toNat < 32 := b.isLt
  refine decode_word ⟨s, 0x27, d.toNat, a.toNat, b.toNat + 1536⟩ (by dsimp only; omega) (by dsimp only; omega) (by dsimp only; omega) (by dsimp only; omega) ?_
  have e0 : (b.toNat + 1536) / 256 % 2 = 0 := by omega
  have e1 : (b.toNat + 1536) / 32 % 8 = 0 := by omega
  have e2 : (b.toNat + 1536) / 512 = 3 := by omega
  have e3 : (b.toNat + 1536) % 32 = b.toNat := by omega
  rw [decFields_27, e0, e1, e2, e3]
  simp [decVmov, okIf]
theorem RoundTrip.vshuf (s : Bool) (p : PReg) (d : Reg) (a : Reg) (b : Reg) : RoundTrip.Statement (.vshuf s p d a b) := by
  intro _ _ _
  have hp : p.toNat < 8 := p.isLt
  have hd : d.toNat < 32 := d.isLt
  have ha : a.toNat < 32 := a.isLt
  have hb : b.toNat < 32 := b.isLt
  refine decode_word ⟨s, 0x27, d.toNat, a.toNat, b.toNat + 32 * p.toNat + 2048⟩ (by dsimp only; omega) (by dsimp only; omega) (by dsimp only; omega) (by dsimp only; omega) ?_
  have e0 : (b.toNat + 32 * p.toNat + 2048) / 256 % 2 = 0 := by omega
  have e1 : (b.toNat + 32 * p.toNat + 2048) / 32 % 8 = p.toNat := by omega
  have e2 : (b.toNat + 32 * p.toNat + 2048) / 512 = 4 := by omega
  have e3 : (b.toNat + 32 * p.toNat + 2048) % 32 = b.toNat := by omega
  rw [decFields_27, e0, e1, e2, e3]
  simp [decVmov, okIf]
theorem RoundTrip.vperm (s : Bool) (p : PReg) (d : Reg) (a : Reg) (b : Reg) : RoundTrip.Statement (.vperm s p d a b) := by
  intro _ _ _
  have hp : p.toNat < 8 := p.isLt
  have hd : d.toNat < 32 := d.isLt
  have ha : a.toNat < 32 := a.isLt
  have hb : b.toNat < 32 := b.isLt
  refine decode_word ⟨s, 0x27, d.toNat, a.toNat, b.toNat + 32 * p.toNat + 2560⟩ (by dsimp only; omega) (by dsimp only; omega) (by dsimp only; omega) (by dsimp only; omega) ?_
  have e0 : (b.toNat + 32 * p.toNat + 2560) / 256 % 2 = 0 := by omega
  have e1 : (b.toNat + 32 * p.toNat + 2560) / 32 % 8 = p.toNat := by omega
  have e2 : (b.toNat + 32 * p.toNat + 2560) / 512 = 5 := by omega
  have e3 : (b.toNat + 32 * p.toNat + 2560) % 32 = b.toNat := by omega
  rw [decFields_27, e0, e1, e2, e3]
  simp [decVmov, okIf]
theorem RoundTrip.vslide (s : Bool) (p : PReg) (d : Reg) (a : Reg) (b : Reg) : RoundTrip.Statement (.vslide s p d a b) := by
  intro _ _ _
  have hp : p.toNat < 8 := p.isLt
  have hd : d.toNat < 32 := d.isLt
  have ha : a.toNat < 32 := a.isLt
  have hb : b.toNat < 32 := b.isLt
  refine decode_word ⟨s, 0x27, d.toNat, a.toNat, b.toNat + 32 * p.toNat + 3072⟩ (by dsimp only; omega) (by dsimp only; omega) (by dsimp only; omega) (by dsimp only; omega) ?_
  have e0 : (b.toNat + 32 * p.toNat + 3072) / 256 % 2 = 0 := by omega
  have e1 : (b.toNat + 32 * p.toNat + 3072) / 32 % 8 = p.toNat := by omega
  have e2 : (b.toNat + 32 * p.toNat + 3072) / 512 = 6 := by omega
  have e3 : (b.toNat + 32 * p.toNat + 3072) % 32 = b.toNat := by omega
  rw [decFields_27, e0, e1, e2, e3]
  simp [decVmov, okIf]
theorem RoundTrip.vsel (s : Bool) (p : PReg) (d : Reg) (a : Reg) (b : Reg) : RoundTrip.Statement (.vsel s p d a b) := by
  intro _ _ _
  have hp : p.toNat < 8 := p.isLt
  have hd : d.toNat < 32 := d.isLt
  have ha : a.toNat < 32 := a.isLt
  have hb : b.toNat < 32 := b.isLt
  refine decode_word ⟨s, 0x27, d.toNat, a.toNat, b.toNat + 32 * p.toNat + 3584⟩ (by dsimp only; omega) (by dsimp only; omega) (by dsimp only; omega) (by dsimp only; omega) ?_
  have e0 : (b.toNat + 32 * p.toNat + 3584) / 256 % 2 = 0 := by omega
  have e1 : (b.toNat + 32 * p.toNat + 3584) / 32 % 8 = p.toNat := by omega
  have e2 : (b.toNat + 32 * p.toNat + 3584) / 512 = 7 := by omega
  have e3 : (b.toNat + 32 * p.toNat + 3584) % 32 = b.toNat := by omega
  rw [decFields_27, e0, e1, e2, e3]
  simp [decVmov, okIf]
theorem RoundTrip.vcompress (s : Bool) (p : PReg) (d : Reg) (a : Reg) : RoundTrip.Statement (.vcompress s p d a) := by
  intro _ _ _
  have hp : p.toNat < 8 := p.isLt
  have hd : d.toNat < 32 := d.isLt
  have ha : a.toNat < 32 := a.isLt
  refine decode_word ⟨s, 0x27, d.toNat, a.toNat, 32 * p.toNat + 4096⟩ (by dsimp only; omega) (by dsimp only; omega) (by dsimp only; omega) (by dsimp only; omega) ?_
  have e0 : (32 * p.toNat + 4096) / 256 % 2 = 0 := by omega
  have e1 : (32 * p.toNat + 4096) / 32 % 8 = p.toNat := by omega
  have e2 : (32 * p.toNat + 4096) / 512 = 8 := by omega
  have e3 : (32 * p.toNat + 4096) % 32 = 0 := by omega
  rw [decFields_27, e0, e1, e2, e3]
  simp [decVmov, okIf]
theorem RoundTrip.vexpand (s : Bool) (p : PReg) (d : Reg) (a : Reg) : RoundTrip.Statement (.vexpand s p d a) := by
  intro _ _ _
  have hp : p.toNat < 8 := p.isLt
  have hd : d.toNat < 32 := d.isLt
  have ha : a.toNat < 32 := a.isLt
  refine decode_word ⟨s, 0x27, d.toNat, a.toNat, 32 * p.toNat + 4608⟩ (by dsimp only; omega) (by dsimp only; omega) (by dsimp only; omega) (by dsimp only; omega) ?_
  have e0 : (32 * p.toNat + 4608) / 256 % 2 = 0 := by omega
  have e1 : (32 * p.toNat + 4608) / 32 % 8 = p.toNat := by omega
  have e2 : (32 * p.toNat + 4608) / 512 = 9 := by omega
  have e3 : (32 * p.toNat + 4608) % 32 = 0 := by omega
  rw [decFields_27, e0, e1, e2, e3]
  simp [decVmov, okIf]
theorem RoundTrip.vredadd (s : Bool) (t : Bool) (p : PReg) (d : Reg) (a : Reg) : RoundTrip.Statement (.vredadd s t p d a) := by
  intro _ _ _
  have ht : b2n t < 2 := Nat.lt_succ_of_le (b2n_le t)
  have hp : p.toNat < 8 := p.isLt
  have hd : d.toNat < 32 := d.isLt
  have ha : a.toNat < 32 := a.isLt
  refine decode_word ⟨s, 0x28, d.toNat, a.toNat, 32 * p.toNat + 256 * b2n t⟩ (by dsimp only; omega) (by dsimp only; omega) (by dsimp only; omega) (by dsimp only; omega) ?_
  have e0 : (32 * p.toNat + 256 * b2n t) / 256 % 2 = b2n t := by omega
  have e1 : (32 * p.toNat + 256 * b2n t) / 32 % 8 = p.toNat := by omega
  have e2 : (32 * p.toNat + 256 * b2n t) / 512 = 0 := by omega
  have e3 : (32 * p.toNat + 256 * b2n t) % 32 = 0 := by omega
  rw [decFields_28, e0, e1, e2, e3]
  simp [decVred, okIf, b2n_beq]
theorem RoundTrip.vredmax (s : Bool) (p : PReg) (d : Reg) (a : Reg) : RoundTrip.Statement (.vredmax s p d a) := by
  intro _ _ _
  have hp : p.toNat < 8 := p.isLt
  have hd : d.toNat < 32 := d.isLt
  have ha : a.toNat < 32 := a.isLt
  refine decode_word ⟨s, 0x28, d.toNat, a.toNat, 32 * p.toNat + 512⟩ (by dsimp only; omega) (by dsimp only; omega) (by dsimp only; omega) (by dsimp only; omega) ?_
  have e0 : (32 * p.toNat + 512) / 256 % 2 = 0 := by omega
  have e1 : (32 * p.toNat + 512) / 32 % 8 = p.toNat := by omega
  have e2 : (32 * p.toNat + 512) / 512 = 1 := by omega
  have e3 : (32 * p.toNat + 512) % 32 = 0 := by omega
  rw [decFields_28, e0, e1, e2, e3]
  simp [decVred, okIf]
theorem RoundTrip.vredmin (s : Bool) (p : PReg) (d : Reg) (a : Reg) : RoundTrip.Statement (.vredmin s p d a) := by
  intro _ _ _
  have hp : p.toNat < 8 := p.isLt
  have hd : d.toNat < 32 := d.isLt
  have ha : a.toNat < 32 := a.isLt
  refine decode_word ⟨s, 0x28, d.toNat, a.toNat, 32 * p.toNat + 1024⟩ (by dsimp only; omega) (by dsimp only; omega) (by dsimp only; omega) (by dsimp only; omega) ?_
  have e0 : (32 * p.toNat + 1024) / 256 % 2 = 0 := by omega
  have e1 : (32 * p.toNat + 1024) / 32 % 8 = p.toNat := by omega
  have e2 : (32 * p.toNat + 1024) / 512 = 2 := by omega
  have e3 : (32 * p.toNat + 1024) % 32 = 0 := by omega
  rw [decFields_28, e0, e1, e2, e3]
  simp [decVred, okIf]
theorem RoundTrip.vdot (s : Bool) (t : Bool) (p : PReg) (d : Reg) (a : Reg) (b : Reg) : RoundTrip.Statement (.vdot s t p d a b) := by
  intro _ _ _
  have ht : b2n t < 2 := Nat.lt_succ_of_le (b2n_le t)
  have hp : p.toNat < 8 := p.isLt
  have hd : d.toNat < 32 := d.isLt
  have ha : a.toNat < 32 := a.isLt
  have hb : b.toNat < 32 := b.isLt
  refine decode_word ⟨s, 0x28, d.toNat, a.toNat, b.toNat + 32 * p.toNat + 256 * b2n t + 1536⟩ (by dsimp only; omega) (by dsimp only; omega) (by dsimp only; omega) (by dsimp only; omega) ?_
  have e0 : (b.toNat + 32 * p.toNat + 256 * b2n t + 1536) / 256 % 2 = b2n t := by omega
  have e1 : (b.toNat + 32 * p.toNat + 256 * b2n t + 1536) / 32 % 8 = p.toNat := by omega
  have e2 : (b.toNat + 32 * p.toNat + 256 * b2n t + 1536) / 512 = 3 := by omega
  have e3 : (b.toNat + 32 * p.toNat + 256 * b2n t + 1536) % 32 = b.toNat := by omega
  rw [decFields_28, e0, e1, e2, e3]
  simp [decVred, b2n_beq]
theorem RoundTrip.pand (s : Bool) (d : PReg) (a : PReg) (b : PReg) : RoundTrip.Statement (.pand s d a b) := by
  intro _ _ _
  have hd : d.toNat < 8 := d.isLt
  have ha : a.toNat < 8 := a.isLt
  have hb : b.toNat < 8 := b.isLt
  refine decode_word ⟨s, 0x29, d.toNat, a.toNat, b.toNat⟩ (by dsimp only; omega) (by dsimp only; omega) (by dsimp only; omega) (by dsimp only; omega) ?_
  have e0 : (b.toNat) / 256 % 2 = 0 := by omega
  have e1 : (b.toNat) / 32 % 8 = 0 := by omega
  have e2 : (b.toNat) / 512 = 0 := by omega
  have e3 : (b.toNat) % 32 = b.toNat := by omega
  rw [decFields_29, e0, e1, e2, e3]
  simp [decPred, hd, ha, hb, okIf]
theorem RoundTrip.por (s : Bool) (d : PReg) (a : PReg) (b : PReg) : RoundTrip.Statement (.por s d a b) := by
  intro _ _ _
  have hd : d.toNat < 8 := d.isLt
  have ha : a.toNat < 8 := a.isLt
  have hb : b.toNat < 8 := b.isLt
  refine decode_word ⟨s, 0x29, d.toNat, a.toNat, b.toNat + 512⟩ (by dsimp only; omega) (by dsimp only; omega) (by dsimp only; omega) (by dsimp only; omega) ?_
  have e0 : (b.toNat + 512) / 256 % 2 = 0 := by omega
  have e1 : (b.toNat + 512) / 32 % 8 = 0 := by omega
  have e2 : (b.toNat + 512) / 512 = 1 := by omega
  have e3 : (b.toNat + 512) % 32 = b.toNat := by omega
  rw [decFields_29, e0, e1, e2, e3]
  simp [decPred, hd, ha, hb, okIf]
theorem RoundTrip.pxor (s : Bool) (d : PReg) (a : PReg) (b : PReg) : RoundTrip.Statement (.pxor s d a b) := by
  intro _ _ _
  have hd : d.toNat < 8 := d.isLt
  have ha : a.toNat < 8 := a.isLt
  have hb : b.toNat < 8 := b.isLt
  refine decode_word ⟨s, 0x29, d.toNat, a.toNat, b.toNat + 1024⟩ (by dsimp only; omega) (by dsimp only; omega) (by dsimp only; omega) (by dsimp only; omega) ?_
  have e0 : (b.toNat + 1024) / 256 % 2 = 0 := by omega
  have e1 : (b.toNat + 1024) / 32 % 8 = 0 := by omega
  have e2 : (b.toNat + 1024) / 512 = 2 := by omega
  have e3 : (b.toNat + 1024) % 32 = b.toNat := by omega
  rw [decFields_29, e0, e1, e2, e3]
  simp [decPred, hd, ha, hb, okIf]
theorem RoundTrip.pnot (s : Bool) (d : PReg) (a : PReg) : RoundTrip.Statement (.pnot s d a) := by
  intro _ _ _
  have hd : d.toNat < 8 := d.isLt
  have ha : a.toNat < 8 := a.isLt
  refine decode_word ⟨s, 0x29, d.toNat, a.toNat, 1536⟩ (by dsimp only; omega) (by dsimp only; omega) (by dsimp only; omega) (by dsimp only; omega) ?_
  rw [decFields_29]
  simp [decPred, hd, ha, okIf]
theorem RoundTrip.pcnt (s : Bool) (d : PReg) (a : PReg) : RoundTrip.Statement (.pcnt s d a) := by
  intro _ _ _
  have hd : d.toNat < 8 := d.isLt
  have ha : a.toNat < 8 := a.isLt
  refine decode_word ⟨s, 0x29, d.toNat, a.toNat, 2048⟩ (by dsimp only; omega) (by dsimp only; omega) (by dsimp only; omega) (by dsimp only; omega) ?_
  rw [decFields_29]
  simp [decPred, hd, ha, okIf]
theorem RoundTrip.pfirst (s : Bool) (d : PReg) (a : PReg) : RoundTrip.Statement (.pfirst s d a) := by
  intro _ _ _
  have hd : d.toNat < 8 := d.isLt
  have ha : a.toNat < 8 := a.isLt
  refine decode_word ⟨s, 0x29, d.toNat, a.toNat, 2560⟩ (by dsimp only; omega) (by dsimp only; omega) (by dsimp only; omega) (by dsimp only; omega) ?_
  rw [decFields_29]
  simp [decPred, hd, ha, okIf]
theorem RoundTrip.pset (s : Bool) (d : PReg) (a : PReg) : RoundTrip.Statement (.pset s d a) := by
  intro _ _ _
  have hd : d.toNat < 8 := d.isLt
  have ha : a.toNat < 8 := a.isLt
  refine decode_word ⟨s, 0x29, d.toNat, a.toNat, 3072⟩ (by dsimp only; omega) (by dsimp only; omega) (by dsimp only; omega) (by dsimp only; omega) ?_
  rw [decFields_29]
  simp [decPred, hd, ha, okIf]
theorem RoundTrip.vld (s : Bool) (p : PReg) (d : Reg) (a : Reg) (b : Reg) : RoundTrip.Statement (.vld s p d a b) := by
  intro _ _ _
  have hp : p.toNat < 8 := p.isLt
  have hd : d.toNat < 32 := d.isLt
  have ha : a.toNat < 32 := a.isLt
  have hb : b.toNat < 32 := b.isLt
  refine decode_word ⟨s, 0x2A, d.toNat, a.toNat, b.toNat + 32 * p.toNat⟩ (by dsimp only; omega) (by dsimp only; omega) (by dsimp only; omega) (by dsimp only; omega) ?_
  have e0 : (b.toNat + 32 * p.toNat) / 256 % 2 = 0 := by omega
  have e1 : (b.toNat + 32 * p.toNat) / 32 % 8 = p.toNat := by omega
  have e2 : (b.toNat + 32 * p.toNat) / 512 = 0 := by omega
  have e3 : (b.toNat + 32 * p.toNat) % 32 = b.toNat := by omega
  rw [decFields_2A, e0, e1, e2, e3]
  simp [decVmem, okIf]
theorem RoundTrip.vst (s : Bool) (p : PReg) (d : Reg) (a : Reg) (b : Reg) : RoundTrip.Statement (.vst s p d a b) := by
  intro _ _ _
  have hp : p.toNat < 8 := p.isLt
  have hd : d.toNat < 32 := d.isLt
  have ha : a.toNat < 32 := a.isLt
  have hb : b.toNat < 32 := b.isLt
  refine decode_word ⟨s, 0x2A, d.toNat, a.toNat, b.toNat + 32 * p.toNat + 512⟩ (by dsimp only; omega) (by dsimp only; omega) (by dsimp only; omega) (by dsimp only; omega) ?_
  have e0 : (b.toNat + 32 * p.toNat + 512) / 256 % 2 = 0 := by omega
  have e1 : (b.toNat + 32 * p.toNat + 512) / 32 % 8 = p.toNat := by omega
  have e2 : (b.toNat + 32 * p.toNat + 512) / 512 = 1 := by omega
  have e3 : (b.toNat + 32 * p.toNat + 512) % 32 = b.toNat := by omega
  rw [decFields_2A, e0, e1, e2, e3]
  simp [decVmem, okIf]
theorem RoundTrip.vlds (s : Bool) (p : PReg) (d : Reg) (a : Reg) (b : Reg) : RoundTrip.Statement (.vlds s p d a b) := by
  intro _ _ _
  have hp : p.toNat < 8 := p.isLt
  have hd : d.toNat < 32 := d.isLt
  have ha : a.toNat < 32 := a.isLt
  have hb : b.toNat < 32 := b.isLt
  refine decode_word ⟨s, 0x2A, d.toNat, a.toNat, b.toNat + 32 * p.toNat + 1024⟩ (by dsimp only; omega) (by dsimp only; omega) (by dsimp only; omega) (by dsimp only; omega) ?_
  have e0 : (b.toNat + 32 * p.toNat + 1024) / 256 % 2 = 0 := by omega
  have e1 : (b.toNat + 32 * p.toNat + 1024) / 32 % 8 = p.toNat := by omega
  have e2 : (b.toNat + 32 * p.toNat + 1024) / 512 = 2 := by omega
  have e3 : (b.toNat + 32 * p.toNat + 1024) % 32 = b.toNat := by omega
  rw [decFields_2A, e0, e1, e2, e3]
  simp [decVmem, okIf]
theorem RoundTrip.vsts (s : Bool) (p : PReg) (d : Reg) (a : Reg) (b : Reg) : RoundTrip.Statement (.vsts s p d a b) := by
  intro _ _ _
  have hp : p.toNat < 8 := p.isLt
  have hd : d.toNat < 32 := d.isLt
  have ha : a.toNat < 32 := a.isLt
  have hb : b.toNat < 32 := b.isLt
  refine decode_word ⟨s, 0x2A, d.toNat, a.toNat, b.toNat + 32 * p.toNat + 1536⟩ (by dsimp only; omega) (by dsimp only; omega) (by dsimp only; omega) (by dsimp only; omega) ?_
  have e0 : (b.toNat + 32 * p.toNat + 1536) / 256 % 2 = 0 := by omega
  have e1 : (b.toNat + 32 * p.toNat + 1536) / 32 % 8 = p.toNat := by omega
  have e2 : (b.toNat + 32 * p.toNat + 1536) / 512 = 3 := by omega
  have e3 : (b.toNat + 32 * p.toNat + 1536) % 32 = b.toNat := by omega
  rw [decFields_2A, e0, e1, e2, e3]
  simp [decVmem, okIf]
theorem RoundTrip.vgather (s : Bool) (t : Bool) (p : PReg) (d : Reg) (a : Reg) (b : Reg) : RoundTrip.Statement (.vgather s t p d a b) := by
  intro _ _ _
  have ht : b2n t < 2 := Nat.lt_succ_of_le (b2n_le t)
  have hp : p.toNat < 8 := p.isLt
  have hd : d.toNat < 32 := d.isLt
  have ha : a.toNat < 32 := a.isLt
  have hb : b.toNat < 32 := b.isLt
  refine decode_word ⟨s, 0x2A, d.toNat, a.toNat, b.toNat + 32 * p.toNat + 256 * b2n t + 2048⟩ (by dsimp only; omega) (by dsimp only; omega) (by dsimp only; omega) (by dsimp only; omega) ?_
  have e0 : (b.toNat + 32 * p.toNat + 256 * b2n t + 2048) / 256 % 2 = b2n t := by omega
  have e1 : (b.toNat + 32 * p.toNat + 256 * b2n t + 2048) / 32 % 8 = p.toNat := by omega
  have e2 : (b.toNat + 32 * p.toNat + 256 * b2n t + 2048) / 512 = 4 := by omega
  have e3 : (b.toNat + 32 * p.toNat + 256 * b2n t + 2048) % 32 = b.toNat := by omega
  rw [decFields_2A, e0, e1, e2, e3]
  simp [decVmem, b2n_beq]
theorem RoundTrip.vscatter (s : Bool) (t : Bool) (p : PReg) (d : Reg) (a : Reg) (b : Reg) : RoundTrip.Statement (.vscatter s t p d a b) := by
  intro _ _ _
  have ht : b2n t < 2 := Nat.lt_succ_of_le (b2n_le t)
  have hp : p.toNat < 8 := p.isLt
  have hd : d.toNat < 32 := d.isLt
  have ha : a.toNat < 32 := a.isLt
  have hb : b.toNat < 32 := b.isLt
  refine decode_word ⟨s, 0x2A, d.toNat, a.toNat, b.toNat + 32 * p.toNat + 256 * b2n t + 2560⟩ (by dsimp only; omega) (by dsimp only; omega) (by dsimp only; omega) (by dsimp only; omega) ?_
  have e0 : (b.toNat + 32 * p.toNat + 256 * b2n t + 2560) / 256 % 2 = b2n t := by omega
  have e1 : (b.toNat + 32 * p.toNat + 256 * b2n t + 2560) / 32 % 8 = p.toNat := by omega
  have e2 : (b.toNat + 32 * p.toNat + 256 * b2n t + 2560) / 512 = 5 := by omega
  have e3 : (b.toNat + 32 * p.toNat + 256 * b2n t + 2560) % 32 = b.toNat := by omega
  rw [decFields_2A, e0, e1, e2, e3]
  simp [decVmem, b2n_beq]
theorem RoundTrip.vscatadd (s : Bool) (t : Bool) (p : PReg) (d : Reg) (a : Reg) (b : Reg) : RoundTrip.Statement (.vscatadd s t p d a b) := by
  intro _ _ _
  have ht : b2n t < 2 := Nat.lt_succ_of_le (b2n_le t)
  have hp : p.toNat < 8 := p.isLt
  have hd : d.toNat < 32 := d.isLt
  have ha : a.toNat < 32 := a.isLt
  have hb : b.toNat < 32 := b.isLt
  refine decode_word ⟨s, 0x2A, d.toNat, a.toNat, b.toNat + 32 * p.toNat + 256 * b2n t + 3072⟩ (by dsimp only; omega) (by dsimp only; omega) (by dsimp only; omega) (by dsimp only; omega) ?_
  have e0 : (b.toNat + 32 * p.toNat + 256 * b2n t + 3072) / 256 % 2 = b2n t := by omega
  have e1 : (b.toNat + 32 * p.toNat + 256 * b2n t + 3072) / 32 % 8 = p.toNat := by omega
  have e2 : (b.toNat + 32 * p.toNat + 256 * b2n t + 3072) / 512 = 6 := by omega
  have e3 : (b.toNat + 32 * p.toNat + 256 * b2n t + 3072) % 32 = b.toNat := by omega
  rw [decFields_2A, e0, e1, e2, e3]
  simp [decVmem, b2n_beq]
theorem RoundTrip.cpy (s : Bool) (d : Reg) (a : Reg) (b : Reg) (c : Reg) : RoundTrip.Statement (.cpy s d a b c) := by
  intro _ _ _
  have hd : d.toNat < 32 := d.isLt
  have ha : a.toNat < 32 := a.isLt
  have hb : b.toNat < 32 := b.isLt
  have hc : c.toNat < 32 := c.isLt
  refine decode_word ⟨s, 0x2B, d.toNat, a.toNat, b.toNat + 32 * c.toNat⟩ (by dsimp only; omega) (by dsimp only; omega) (by dsimp only; omega) (by dsimp only; omega) ?_
  have e0 : (b.toNat + 32 * c.toNat) / 32 % 32 = c.toNat := by omega
  have e1 : (b.toNat + 32 * c.toNat) / 1024 = 0 := by omega
  have e2 : (b.toNat + 32 * c.toNat) % 32 = b.toNat := by omega
  rw [decFields_2B, e0, e1, e2]
  simp [decCopy]
theorem RoundTrip.cpym (s : Bool) (d : Reg) (a : Reg) (b : Reg) (c : Reg) : RoundTrip.Statement (.cpym s d a b c) := by
  intro _ _ _
  have hd : d.toNat < 32 := d.isLt
  have ha : a.toNat < 32 := a.isLt
  have hb : b.toNat < 32 := b.isLt
  have hc : c.toNat < 32 := c.isLt
  refine decode_word ⟨s, 0x2B, d.toNat, a.toNat, b.toNat + 32 * c.toNat + 1024⟩ (by dsimp only; omega) (by dsimp only; omega) (by dsimp only; omega) (by dsimp only; omega) ?_
  have e0 : (b.toNat + 32 * c.toNat + 1024) / 32 % 32 = c.toNat := by omega
  have e1 : (b.toNat + 32 * c.toNat + 1024) / 1024 = 1 := by omega
  have e2 : (b.toNat + 32 * c.toNat + 1024) % 32 = b.toNat := by omega
  rw [decFields_2B, e0, e1, e2]
  simp [decCopy]
theorem RoundTrip.cpyb (s : Bool) (d : Reg) (a : Reg) (b : Reg) (c : Reg) : RoundTrip.Statement (.cpyb s d a b c) := by
  intro _ _ _
  have hd : d.toNat < 32 := d.isLt
  have ha : a.toNat < 32 := a.isLt
  have hb : b.toNat < 32 := b.isLt
  have hc : c.toNat < 32 := c.isLt
  refine decode_word ⟨s, 0x2B, d.toNat, a.toNat, b.toNat + 32 * c.toNat + 2048⟩ (by dsimp only; omega) (by dsimp only; omega) (by dsimp only; omega) (by dsimp only; omega) ?_
  have e0 : (b.toNat + 32 * c.toNat + 2048) / 32 % 32 = c.toNat := by omega
  have e1 : (b.toNat + 32 * c.toNat + 2048) / 1024 = 2 := by omega
  have e2 : (b.toNat + 32 * c.toNat + 2048) % 32 = b.toNat := by omega
  rw [decFields_2B, e0, e1, e2]
  simp [decCopy]
theorem RoundTrip.wmwait (s : Bool) (d : Reg) (a : Reg) (b : Reg) : RoundTrip.Statement (.wmwait s d a b) := by
  intro _ _ _
  have hd : d.toNat < 32 := d.isLt
  have ha : a.toNat < 32 := a.isLt
  have hb : b.toNat < 32 := b.isLt
  refine decode_word ⟨s, 0x2B, d.toNat, a.toNat, b.toNat + 3072⟩ (by dsimp only; omega) (by dsimp only; omega) (by dsimp only; omega) (by dsimp only; omega) ?_
  have e0 : (b.toNat + 3072) / 32 % 32 = 0 := by omega
  have e1 : (b.toNat + 3072) / 1024 = 3 := by omega
  have e2 : (b.toNat + 3072) % 32 = b.toNat := by omega
  rw [decFields_2B, e0, e1, e2]
  simp [decCopy, okIf]
theorem RoundTrip.spld (s : Bool) (a : Reg) (b : Reg) (c : Reg) : RoundTrip.Statement (.spld s a b c) := by
  intro _ _ _
  have ha : a.toNat < 32 := a.isLt
  have hb : b.toNat < 32 := b.isLt
  have hc : c.toNat < 32 := c.isLt
  refine decode_word ⟨s, 0x2B, 0, a.toNat, b.toNat + 32 * c.toNat + 4096⟩ (by dsimp only; omega) (by dsimp only; omega) (by dsimp only; omega) (by dsimp only; omega) ?_
  have e0 : (b.toNat + 32 * c.toNat + 4096) / 32 % 32 = c.toNat := by omega
  have e1 : (b.toNat + 32 * c.toNat + 4096) / 1024 = 4 := by omega
  have e2 : (b.toNat + 32 * c.toNat + 4096) % 32 = b.toNat := by omega
  rw [decFields_2B, e0, e1, e2]
  simp [decCopy, okIf]
theorem RoundTrip.bankop (s : Bool) (a : Reg) (b : Reg) (c : Reg) : RoundTrip.Statement (.bankop s a b c) := by
  intro _ _ _
  have ha : a.toNat < 32 := a.isLt
  have hb : b.toNat < 32 := b.isLt
  have hc : c.toNat < 32 := c.isLt
  refine decode_word ⟨s, 0x2B, 0, a.toNat, b.toNat + 32 * c.toNat + 5120⟩ (by dsimp only; omega) (by dsimp only; omega) (by dsimp only; omega) (by dsimp only; omega) ?_
  have e0 : (b.toNat + 32 * c.toNat + 5120) / 32 % 32 = c.toNat := by omega
  have e1 : (b.toNat + 32 * c.toNat + 5120) / 1024 = 5 := by omega
  have e2 : (b.toNat + 32 * c.toNat + 5120) % 32 = b.toNat := by omega
  rw [decFields_2B, e0, e1, e2]
  simp [decCopy, okIf]
theorem RoundTrip.mma (s : Bool) (t : Bool) (z : Bool) (n : Bool) (d : Reg) (a : Reg) (b : Reg) (c : Reg) : RoundTrip.Statement (.mma s t z n d a b c) := by
  intro _ _ _
  have ht : b2n t < 2 := Nat.lt_succ_of_le (b2n_le t)
  have hz : b2n z < 2 := Nat.lt_succ_of_le (b2n_le z)
  have hn : b2n n < 2 := Nat.lt_succ_of_le (b2n_le n)
  have hd : d.toNat < 32 := d.isLt
  have ha : a.toNat < 32 := a.isLt
  have hb : b.toNat < 32 := b.isLt
  have hc : c.toNat < 32 := c.isLt
  refine decode_word ⟨s, 0x2C, d.toNat, a.toNat, b.toNat + 32 * c.toNat + 1024 * b2n n + 2048 * b2n z + 4096 * b2n t⟩ (by dsimp only; omega) (by dsimp only; omega) (by dsimp only; omega) (by dsimp only; omega) ?_
  have e0 : (b.toNat + 32 * c.toNat + 1024 * b2n n + 2048 * b2n z + 4096 * b2n t) / 32 % 32 = c.toNat := by omega
  have e1 : (b.toNat + 32 * c.toNat + 1024 * b2n n + 2048 * b2n z + 4096 * b2n t) / 1024 = b2n n + 2 * b2n z + 4 * b2n t := by omega
  have e2 : (b.toNat + 32 * c.toNat + 1024 * b2n n + 2048 * b2n z + 4096 * b2n t) % 32 = b.toNat := by omega
  have f0 : bitOf (b2n n + 2 * b2n z + 4 * b2n t) 2 = t := by cases t <;> cases z <;> cases n <;> rfl
  have f1 : bitOf (b2n n + 2 * b2n z + 4 * b2n t) 1 = z := by cases t <;> cases z <;> cases n <;> rfl
  have f2 : bitOf (b2n n + 2 * b2n z + 4 * b2n t) 0 = n := by cases t <;> cases z <;> cases n <;> rfl
  have f3 : b2n n + 2 * b2n z + 4 * b2n t < 8 := by omega
  rw [decFields_2C, e0, e1, e2]
  simp [decMma, okIf, f0, f1, f2, f3]
theorem RoundTrip.mmar (s : Bool) (t : Bool) (z : Bool) (n : Bool) (d : Reg) (a : Reg) (b : Reg) (c : Reg) : RoundTrip.Statement (.mmar s t z n d a b c) := by
  intro _ _ _
  have ht : b2n t < 2 := Nat.lt_succ_of_le (b2n_le t)
  have hz : b2n z < 2 := Nat.lt_succ_of_le (b2n_le z)
  have hn : b2n n < 2 := Nat.lt_succ_of_le (b2n_le n)
  have hd : d.toNat < 32 := d.isLt
  have ha : a.toNat < 32 := a.isLt
  have hb : b.toNat < 32 := b.isLt
  have hc : c.toNat < 32 := c.isLt
  refine decode_word ⟨s, 0x2D, d.toNat, a.toNat, b.toNat + 32 * c.toNat + 1024 * b2n n + 2048 * b2n z + 4096 * b2n t⟩ (by dsimp only; omega) (by dsimp only; omega) (by dsimp only; omega) (by dsimp only; omega) ?_
  have e0 : (b.toNat + 32 * c.toNat + 1024 * b2n n + 2048 * b2n z + 4096 * b2n t) / 32 % 32 = c.toNat := by omega
  have e1 : (b.toNat + 32 * c.toNat + 1024 * b2n n + 2048 * b2n z + 4096 * b2n t) / 1024 = b2n n + 2 * b2n z + 4 * b2n t := by omega
  have e2 : (b.toNat + 32 * c.toNat + 1024 * b2n n + 2048 * b2n z + 4096 * b2n t) % 32 = b.toNat := by omega
  have f0 : bitOf (b2n n + 2 * b2n z + 4 * b2n t) 2 = t := by cases t <;> cases z <;> cases n <;> rfl
  have f1 : bitOf (b2n n + 2 * b2n z + 4 * b2n t) 1 = z := by cases t <;> cases z <;> cases n <;> rfl
  have f2 : bitOf (b2n n + 2 * b2n z + 4 * b2n t) 0 = n := by cases t <;> cases z <;> cases n <;> rfl
  have f3 : b2n n + 2 * b2n z + 4 * b2n t < 8 := by omega
  rw [decFields_2D, e0, e1, e2]
  simp [decMma, okIf, f0, f1, f2, f3]
theorem RoundTrip.mmasp (s : Bool) (t : Bool) (z : Bool) (n : Bool) (d : Reg) (a : Reg) (b : Reg) (c : Reg) : RoundTrip.Statement (.mmasp s t z n d a b c) := by
  intro _ _ _
  have ht : b2n t < 2 := Nat.lt_succ_of_le (b2n_le t)
  have hz : b2n z < 2 := Nat.lt_succ_of_le (b2n_le z)
  have hn : b2n n < 2 := Nat.lt_succ_of_le (b2n_le n)
  have hd : d.toNat < 32 := d.isLt
  have ha : a.toNat < 32 := a.isLt
  have hb : b.toNat < 32 := b.isLt
  have hc : c.toNat < 32 := c.isLt
  refine decode_word ⟨s, 0x2E, d.toNat, a.toNat, b.toNat + 32 * c.toNat + 1024 * b2n n + 2048 * b2n z + 4096 * b2n t⟩ (by dsimp only; omega) (by dsimp only; omega) (by dsimp only; omega) (by dsimp only; omega) ?_
  have e0 : (b.toNat + 32 * c.toNat + 1024 * b2n n + 2048 * b2n z + 4096 * b2n t) / 32 % 32 = c.toNat := by omega
  have e1 : (b.toNat + 32 * c.toNat + 1024 * b2n n + 2048 * b2n z + 4096 * b2n t) / 1024 = b2n n + 2 * b2n z + 4 * b2n t := by omega
  have e2 : (b.toNat + 32 * c.toNat + 1024 * b2n n + 2048 * b2n z + 4096 * b2n t) % 32 = b.toNat := by omega
  have f0 : bitOf (b2n n + 2 * b2n z + 4 * b2n t) 2 = t := by cases t <;> cases z <;> cases n <;> rfl
  have f1 : bitOf (b2n n + 2 * b2n z + 4 * b2n t) 1 = z := by cases t <;> cases z <;> cases n <;> rfl
  have f2 : bitOf (b2n n + 2 * b2n z + 4 * b2n t) 0 = n := by cases t <;> cases z <;> cases n <;> rfl
  have f3 : b2n n + 2 * b2n z + 4 * b2n t < 8 := by omega
  rw [decFields_2E, e0, e1, e2]
  simp [decMma, okIf, f0, f1, f2, f3]
theorem RoundTrip.accrd (s : Bool) (d : Reg) (a : Reg) (b : Reg) : RoundTrip.Statement (.accrd s d a b) := by
  intro _ _ _
  have hd : d.toNat < 32 := d.isLt
  have ha : a.toNat < 32 := a.isLt
  have hb : b.toNat < 32 := b.isLt
  refine decode_word ⟨s, 0x2F, d.toNat, a.toNat, b.toNat⟩ (by dsimp only; omega) (by dsimp only; omega) (by dsimp only; omega) (by dsimp only; omega) ?_
  have e0 : (b.toNat) / 32 % 32 = 0 := by omega
  have e1 : (b.toNat) / 1024 = 0 := by omega
  have e2 : (b.toNat) % 32 = b.toNat := by omega
  rw [decFields_2F, e0, e1, e2]
  simp [decMat, okIf]
theorem RoundTrip.accz (s : Bool) (d : Reg) : RoundTrip.Statement (.accz s d) := by
  intro _ _ _
  have hd : d.toNat < 32 := d.isLt
  refine decode_word ⟨s, 0x2F, d.toNat, 0, 1024⟩ (by dsimp only; omega) (by dsimp only; omega) (by dsimp only; omega) (by dsimp only; omega) ?_
  rw [decFields_2F]
  simp [decMat, okIf]
theorem RoundTrip.mscl (s : Bool) (d : Reg) (a : Reg) (b : Reg) : RoundTrip.Statement (.mscl s d a b) := by
  intro _ _ _
  have hd : d.toNat < 32 := d.isLt
  have ha : a.toNat < 32 := a.isLt
  have hb : b.toNat < 32 := b.isLt
  refine decode_word ⟨s, 0x2F, d.toNat, a.toNat, b.toNat + 2048⟩ (by dsimp only; omega) (by dsimp only; omega) (by dsimp only; omega) (by dsimp only; omega) ?_
  have e0 : (b.toNat + 2048) / 32 % 32 = 0 := by omega
  have e1 : (b.toNat + 2048) / 1024 = 2 := by omega
  have e2 : (b.toNat + 2048) % 32 = b.toNat := by omega
  rw [decFields_2F, e0, e1, e2]
  simp [decMat, okIf]
theorem RoundTrip.rsort (s : Bool) (d : Reg) (a : Reg) : RoundTrip.Statement (.rsort s d a) := by
  intro _ _ _
  have hd : d.toNat < 32 := d.isLt
  have ha : a.toNat < 32 := a.isLt
  refine decode_word ⟨s, 0x30, d.toNat, a.toNat, 0⟩ (by dsimp only; omega) (by dsimp only; omega) (by dsimp only; omega) (by dsimp only; omega) ?_
  rw [decFields_30]
  simp [decRank, okIf]
theorem RoundTrip.remit (s : Bool) (d : Reg) (a : Reg) (b : Reg) (c : Reg) : RoundTrip.Statement (.remit s d a b c) := by
  intro _ _ _
  have hd : d.toNat < 32 := d.isLt
  have ha : a.toNat < 32 := a.isLt
  have hb : b.toNat < 32 := b.isLt
  have hc : c.toNat < 32 := c.isLt
  refine decode_word ⟨s, 0x30, d.toNat, a.toNat, b.toNat + 32 * c.toNat + 1024⟩ (by dsimp only; omega) (by dsimp only; omega) (by dsimp only; omega) (by dsimp only; omega) ?_
  have e0 : (b.toNat + 32 * c.toNat + 1024) / 32 % 32 = c.toNat := by omega
  have e1 : (b.toNat + 32 * c.toNat + 1024) / 1024 = 1 := by omega
  have e2 : (b.toNat + 32 * c.toNat + 1024) % 32 = b.toNat := by omega
  rw [decFields_30, e0, e1, e2]
  simp [decRank]
theorem RoundTrip.rkseq (s : Bool) (a : Reg) (b : Reg) : RoundTrip.Statement (.rkseq s a b) := by
  intro _ _ _
  have ha : a.toNat < 32 := a.isLt
  have hb : b.toNat < 32 := b.isLt
  refine decode_word ⟨s, 0x30, 0, a.toNat, b.toNat + 2048⟩ (by dsimp only; omega) (by dsimp only; omega) (by dsimp only; omega) (by dsimp only; omega) ?_
  have e0 : (b.toNat + 2048) / 32 % 32 = 0 := by omega
  have e1 : (b.toNat + 2048) / 1024 = 2 := by omega
  have e2 : (b.toNat + 2048) % 32 = b.toNat := by omega
  rw [decFields_30, e0, e1, e2]
  simp [decRank, okIf]
theorem RoundTrip.rkarm (s : Bool) (d : Reg) (a : Reg) (b : Reg) (c : Reg) : RoundTrip.Statement (.rkarm s d a b c) := by
  intro _ _ _
  have hd : d.toNat < 32 := d.isLt
  have ha : a.toNat < 32 := a.isLt
  have hb : b.toNat < 32 := b.isLt
  have hc : c.toNat < 32 := c.isLt
  refine decode_word ⟨s, 0x30, d.toNat, a.toNat, b.toNat + 32 * c.toNat + 3072⟩ (by dsimp only; omega) (by dsimp only; omega) (by dsimp only; omega) (by dsimp only; omega) ?_
  have e0 : (b.toNat + 32 * c.toNat + 3072) / 32 % 32 = c.toNat := by omega
  have e1 : (b.toNat + 32 * c.toNat + 3072) / 1024 = 3 := by omega
  have e2 : (b.toNat + 32 * c.toNat + 3072) % 32 = b.toNat := by omega
  rw [decFields_30, e0, e1, e2]
  simp [decRank]
theorem RoundTrip.rkdisarm (s : Bool) (d : Reg) : RoundTrip.Statement (.rkdisarm s d) := by
  intro _ _ _
  have hd : d.toNat < 32 := d.isLt
  refine decode_word ⟨s, 0x30, d.toNat, 0, 4096⟩ (by dsimp only; omega) (by dsimp only; omega) (by dsimp only; omega) (by dsimp only; omega) ?_
  rw [decFields_30]
  simp [decRank, okIf]
theorem RoundTrip.rkres (s : Bool) (d : Reg) (a : Reg) : RoundTrip.Statement (.rkres s d a) := by
  intro _ _ _
  have hd : d.toNat < 32 := d.isLt
  have ha : a.toNat < 32 := a.isLt
  refine decode_word ⟨s, 0x30, d.toNat, a.toNat, 5120⟩ (by dsimp only; omega) (by dsimp only; omega) (by dsimp only; omega) (by dsimp only; omega) ?_
  rw [decFields_30]
  simp [decRank, okIf]
theorem RoundTrip.rkacc (s : Bool) (d : Reg) (a : Reg) : RoundTrip.Statement (.rkacc s d a) := by
  intro _ _ _
  have hd : d.toNat < 32 := d.isLt
  have ha : a.toNat < 32 := a.isLt
  refine decode_word ⟨s, 0x30, d.toNat, a.toNat, 6144⟩ (by dsimp only; omega) (by dsimp only; omega) (by dsimp only; omega) (by dsimp only; omega) ?_
  rw [decFields_30]
  simp [decRank, okIf]
theorem RoundTrip.rkdense (s : Bool) (d : Reg) (a : Reg) (c : Reg) : RoundTrip.Statement (.rkdense s d a c) := by
  intro _ _ _
  have hd : d.toNat < 32 := d.isLt
  have ha : a.toNat < 32 := a.isLt
  have hc : c.toNat < 32 := c.isLt
  refine decode_word ⟨s, 0x30, d.toNat, a.toNat, 32 * c.toNat + 7168⟩ (by dsimp only; omega) (by dsimp only; omega) (by dsimp only; omega) (by dsimp only; omega) ?_
  have e0 : (32 * c.toNat + 7168) / 32 % 32 = c.toNat := by omega
  have e1 : (32 * c.toNat + 7168) / 1024 = 7 := by omega
  have e2 : (32 * c.toNat + 7168) % 32 = 0 := by omega
  rw [decFields_30, e0, e1, e2]
  simp [decRank, okIf]
theorem RoundTrip.rkgrad (s : Bool) (d : Reg) (a : Reg) (b : Reg) (c : Reg) : RoundTrip.Statement (.rkgrad s d a b c) := by
  intro _ _ _
  have hd : d.toNat < 32 := d.isLt
  have ha : a.toNat < 32 := a.isLt
  have hb : b.toNat < 32 := b.isLt
  have hc : c.toNat < 32 := c.isLt
  refine decode_word ⟨s, 0x30, d.toNat, a.toNat, b.toNat + 32 * c.toNat + 8192⟩ (by dsimp only; omega) (by dsimp only; omega) (by dsimp only; omega) (by dsimp only; omega) ?_
  have e0 : (b.toNat + 32 * c.toNat + 8192) / 32 % 32 = c.toNat := by omega
  have e1 : (b.toNat + 32 * c.toNat + 8192) / 1024 = 8 := by omega
  have e2 : (b.toNat + 32 * c.toNat + 8192) % 32 = b.toNat := by omega
  rw [decFields_30, e0, e1, e2]
  simp [decRank]
theorem RoundTrip.queuePop (core : Nat) (i : Nat) : RoundTrip.Statement (.queuePop core i) := fun _ h _ => absurd rfl h
theorem RoundTrip.queuePush (core : Nat) (cx : Nat) (q : BitVec 4) (v : Word) : RoundTrip.Statement (.queuePush core cx q v) := fun _ h _ => absurd rfl h
theorem RoundTrip.preqWrite (core : Nat) (v : Word) : RoundTrip.Statement (.preqWrite core v) := fun _ h _ => absurd rfl h
theorem RoundTrip.migrWrite (core : Nat) (cx : Nat) (v : Word) : RoundTrip.Statement (.migrWrite core cx v) := fun _ h _ => absurd rfl h
theorem RoundTrip.lqtailWrite (n : BitVec 5) (v : Word) : RoundTrip.Statement (.lqtailWrite n v) := fun _ h _ => absurd rfl h
theorem RoundTrip.lqctlWrite (n : BitVec 5) (v : Word) : RoundTrip.Statement (.lqctlWrite n v) := fun _ h _ => absurd rfl h
theorem RoundTrip.trstRsyWrite (port : BitVec 4) (v : Word) : RoundTrip.Statement (.trstRsyWrite port v) := fun _ h _ => absurd rfl h
theorem RoundTrip.registerWrite (off : Nat) (size : Nat) (v : Word) : RoundTrip.Statement (.registerWrite off size v) := fun _ h _ => absurd rfl h
theorem RoundTrip.readSensors (len : Nat) : RoundTrip.Statement (.readSensors len) := fun _ h _ => absurd rfl h
theorem RoundTrip.readLog (len : Nat) (seq : Word) : RoundTrip.Statement (.readLog len seq) := fun _ h _ => absurd rfl h
theorem RoundTrip.cap (len : Nat) (seq : Nat) (watts : Nat) : RoundTrip.Statement (.cap len seq watts) := fun _ h _ => absurd rfl h
theorem RoundTrip.stageFirmwareChunk (len : Nat) (off : Nat) (data : List Byte) : RoundTrip.Statement (.stageFirmwareChunk len off data) := fun _ h _ => absurd rfl h
theorem RoundTrip.verifyAndActivate (len : Nat) : RoundTrip.Statement (.verifyAndActivate len) := fun _ h _ => absurd rfl h
theorem RoundTrip.attestationReport (len : Nat) (nonce : List Byte) : RoundTrip.Statement (.attestationReport len nonce) := fun _ h _ => absurd rfl h
theorem RoundTrip.mailboxUnknownOp (op : Nat) (len : Nat) : RoundTrip.Statement (.mailboxUnknownOp op len) := fun _ h _ => absurd rfl h
theorem RoundTrip.mailboxCompletion : RoundTrip.Statement (.mailboxCompletion) := fun _ h _ => absurd rfl h
theorem RoundTrip.pldmMonitoring (log : Bool) (seq : Word) : RoundTrip.Statement (.pldmMonitoring log seq) := fun _ h _ => absurd rfl h
theorem RoundTrip.pldmFirmwareUpdate (off : Nat) (data : List Byte) : RoundTrip.Statement (.pldmFirmwareUpdate off data) := fun _ h _ => absurd rfl h
theorem RoundTrip.spdmAttestation (nonce : List Byte) : RoundTrip.Statement (.spdmAttestation nonce) := fun _ h _ => absurd rfl h
theorem RoundTrip.oemCapMessage (seq : Nat) (watts : Nat) : RoundTrip.Statement (.oemCapMessage seq watts) := fun _ h _ => absurd rfl h
theorem RoundTrip.budgetUpdate : RoundTrip.Statement (.budgetUpdate) := fun _ h _ => absurd rfl h
theorem RoundTrip.capFallback : RoundTrip.Statement (.capFallback) := fun _ h _ => absurd rfl h
theorem RoundTrip.clusterEstimate (die : Nat) (cluster : Nat) : RoundTrip.Statement (.clusterEstimate die cluster) := fun _ h _ => absurd rfl h
theorem RoundTrip.migrateWithdrawal (core : Nat) (cx : Nat) : RoundTrip.Statement (.migrateWithdrawal core cx) := fun _ h _ => absurd rfl h
theorem RoundTrip.migrate (core : Nat) (cx : Nat) : RoundTrip.Statement (.migrate core cx) := fun _ h _ => absurd rfl h
theorem RoundTrip.migrationMove (core : Nat) (cx : Nat) : RoundTrip.Statement (.migrationMove core cx) := fun _ h _ => absurd rfl h
theorem RoundTrip.clusterSensorSample (die : Nat) (cluster : Nat) (reading : Nat) : RoundTrip.Statement (.clusterSensorSample die cluster reading) := fun _ h _ => absurd rfl h
theorem RoundTrip.stackSensorSample (die : Nat) (stack : Nat) (reading : Nat) : RoundTrip.Statement (.stackSensorSample die stack reading) := fun _ h _ => absurd rfl h
theorem RoundTrip.moduleSensorSample (sensor : Nat) (reading : Nat) : RoundTrip.Statement (.moduleSensorSample sensor reading) := fun _ h _ => absurd rfl h
theorem RoundTrip.inputVoltageTrip (reading : Nat) : RoundTrip.Statement (.inputVoltageTrip reading) := fun _ h _ => absurd rfl h
theorem RoundTrip.outOfService (kind : Nat) (unit : Nat) : RoundTrip.Statement (.outOfService kind unit) := fun _ h _ => absurd rfl h
theorem RoundTrip.correctedCountLog : RoundTrip.Statement (.correctedCountLog) := fun _ h _ => absurd rfl h
theorem RoundTrip.scrubFinding (addr : Nat) : RoundTrip.Statement (.scrubFinding addr) := fun _ h _ => absurd rfl h
theorem RoundTrip.powerGood : RoundTrip.Statement (.powerGood) := fun _ h _ => absurd rfl h
theorem RoundTrip.reset : RoundTrip.Statement (.reset) := fun _ h _ => absurd rfl h
theorem RoundTrip.selfTestPass (unit : Nat) : RoundTrip.Statement (.selfTestPass unit) := fun _ h _ => absurd rfl h
theorem RoundTrip.leadDieChoice : RoundTrip.Statement (.leadDieChoice) := fun _ h _ => absurd rfl h
theorem RoundTrip.traceFlitSend (port : BitVec 4) (resend : Bool) : RoundTrip.Statement (.traceFlitSend port resend) := fun _ h _ => absurd rfl h
theorem RoundTrip.traceFlitReceive (port : BitVec 4) (crcOk : Bool) (seq : Nat) (vn : Nat) (kind : Nat) (model : Nat) (hash : Nat) (stream : List Byte) : RoundTrip.Statement (.traceFlitReceive port crcOk seq vn kind model hash stream) := fun _ h _ => absurd rfl h
theorem RoundTrip.codeTableRebuild (port : BitVec 4) : RoundTrip.Statement (.codeTableRebuild port) := fun _ h _ => absurd rfl h
theorem RoundTrip.resynchronisation (port : BitVec 4) : RoundTrip.Statement (.resynchronisation port) := fun _ h _ => absurd rfl h
theorem RoundTrip.portRetrain (port : BitVec 4) : RoundTrip.Statement (.portRetrain port) := fun _ h _ => absurd rfl h
theorem RoundTrip.portDown (port : BitVec 4) : RoundTrip.Statement (.portDown port) := fun _ h _ => absurd rfl h
theorem RoundTrip.hostAccess (write : Bool) (bar : Nat) (addr : Nat) (size : Nat) (v : Word) : RoundTrip.Statement (.hostAccess write bar addr size v) := fun _ h _ => absurd rfl h
theorem RoundTrip.peerAccess (port : BitVec 4) (write : Bool) (addr : Nat) (size : Nat) (v : Word) : RoundTrip.Statement (.peerAccess port write addr size v) := fun _ h _ => absurd rfl h
theorem RoundTrip.peerNegativeResponse (i : Nat) : RoundTrip.Statement (.peerNegativeResponse i) := fun _ h _ => absurd rfl h
theorem RoundTrip.peerStorePerm (core : Nat) (cx : Nat) : RoundTrip.Statement (.peerStorePerm core cx) := fun _ h _ => absurd rfl h
theorem RoundTrip.launchQueueService : RoundTrip.Statement (.launchQueueService) := fun _ h _ => absurd rfl h
theorem RoundTrip.launchCheck (i : Nat) : RoundTrip.Statement (.launchCheck i) := fun _ h _ => absurd rfl h
theorem RoundTrip.launchCoreStart (launch : Nat) (core : Nat) : RoundTrip.Statement (.launchCoreStart launch core) := fun _ h _ => absurd rfl h
theorem RoundTrip.launchEnd (launch : Nat) : RoundTrip.Statement (.launchEnd launch) := fun _ h _ => absurd rfl h
theorem RoundTrip.messageArrival (i : Nat) : RoundTrip.Statement (.messageArrival i) := fun _ h _ => absurd rfl h
theorem RoundTrip.boundQueuePush (core : Nat) (i : Nat) : RoundTrip.Statement (.boundQueuePush core i) := fun _ h _ => absurd rfl h
theorem RoundTrip.messageSelection (core : Nat) : RoundTrip.Statement (.messageSelection core) := fun _ h _ => absurd rfl h
theorem RoundTrip.priority1Entry (core : Nat) : RoundTrip.Statement (.priority1Entry core) := fun _ h _ => absurd rfl h
theorem RoundTrip.deadmsgResponse (i : Nat) : RoundTrip.Statement (.deadmsgResponse i) := fun _ h _ => absurd rfl h
theorem RoundTrip.deadmsg (core : Nat) (cx : Nat) : RoundTrip.Statement (.deadmsg core cx) := fun _ h _ => absurd rfl h
theorem RoundTrip.mailboxWriteArrival (i : Nat) : RoundTrip.Statement (.mailboxWriteArrival i) := fun _ h _ => absurd rfl h
theorem RoundTrip.mailboxStoreLanding (core : Nat) (m : Reg) : RoundTrip.Statement (.mailboxStoreLanding core m) := fun _ h _ => absurd rfl h
theorem RoundTrip.mtakeService (core : Nat) (i : Nat) : RoundTrip.Statement (.mtakeService core i) := fun _ h _ => absurd rfl h
theorem RoundTrip.subscriptionUpdate (i : Nat) : RoundTrip.Statement (.subscriptionUpdate i) := fun _ h _ => absurd rfl h
theorem RoundTrip.registerResultArrival (i : Nat) : RoundTrip.Statement (.registerResultArrival i) := fun _ h _ => absurd rfl h
theorem RoundTrip.contextWake (core : Nat) (cx : Nat) : RoundTrip.Statement (.contextWake core cx) := fun _ h _ => absurd rfl h
theorem RoundTrip.watchWake (line : Nat) : RoundTrip.Statement (.watchWake line) := fun _ h _ => absurd rfl h
theorem RoundTrip.fairnessBoundary (core : Nat) (cx : Nat) : RoundTrip.Statement (.fairnessBoundary core cx) := fun _ h _ => absurd rfl h
theorem RoundTrip.idleExpiry (core : Nat) (cx : Nat) : RoundTrip.Statement (.idleExpiry core cx) := fun _ h _ => absurd rfl h
theorem RoundTrip.hmaskTimeout (core : Nat) (cx : Nat) : RoundTrip.Statement (.hmaskTimeout core cx) := fun _ h _ => absurd rfl h
theorem RoundTrip.contextFill (core : Nat) : RoundTrip.Statement (.contextFill core) := fun _ h _ => absurd rfl h
theorem RoundTrip.contextSpill (core : Nat) : RoundTrip.Statement (.contextSpill core) := fun _ h _ => absurd rfl h
theorem RoundTrip.spillRestore (core : Nat) (slot : Nat) : RoundTrip.Statement (.spillRestore core slot) := fun _ h _ => absurd rfl h
theorem RoundTrip.taskJoinDecrement (i : Nat) : RoundTrip.Statement (.taskJoinDecrement i) := fun _ h _ => absurd rfl h
theorem RoundTrip.decrementArrival (i : Nat) : RoundTrip.Statement (.decrementArrival i) := fun _ h _ => absurd rfl h
theorem RoundTrip.pendingRecordRelease (core : Nat) (slot : Nat) : RoundTrip.Statement (.pendingRecordRelease core slot) := fun _ h _ => absurd rfl h
theorem RoundTrip.paddockDispatch (die : Nat) : RoundTrip.Statement (.paddockDispatch die) := fun _ h _ => absurd rfl h
theorem RoundTrip.paddockAging (die : Nat) (q : BitVec 2) : RoundTrip.Statement (.paddockAging die q) := fun _ h _ => absurd rfl h
theorem RoundTrip.classWaitExpiry (die : Nat) (q : BitVec 2) : RoundTrip.Statement (.classWaitExpiry die q) := fun _ h _ => absurd rfl h
theorem RoundTrip.deterministicHoldRelease (i : Nat) : RoundTrip.Statement (.deterministicHoldRelease i) := fun _ h _ => absurd rfl h
theorem RoundTrip.barrierUpdate (i : Nat) : RoundTrip.Statement (.barrierUpdate i) := fun _ h _ => absurd rfl h
theorem RoundTrip.copyEngineAccept (core : Nat) (cx : Nat) : RoundTrip.Statement (.copyEngineAccept core cx) := fun _ h _ => absurd rfl h
theorem RoundTrip.copySegmentRead (i : Nat) (item : Nat) (seg : Nat) : RoundTrip.Statement (.copySegmentRead i item seg) := fun _ h _ => absurd rfl h
theorem RoundTrip.copySegmentDelivery (i : Nat) (item : Nat) (seg : Nat) (crcOk : Bool) : RoundTrip.Statement (.copySegmentDelivery i item seg crcOk) := fun _ h _ => absurd rfl h
theorem RoundTrip.copyItemCompletion (i : Nat) (item : Nat) : RoundTrip.Statement (.copyItemCompletion i item) := fun _ h _ => absurd rfl h
theorem RoundTrip.copyfail (core : Nat) (cx : Nat) : RoundTrip.Statement (.copyfail core cx) := fun _ h _ => absurd rfl h
theorem RoundTrip.copyfault (core : Nat) (cx : Nat) : RoundTrip.Statement (.copyfault core cx) := fun _ h _ => absurd rfl h
theorem RoundTrip.cpymHeaderArrival (i : Nat) : RoundTrip.Statement (.cpymHeaderArrival i) := fun _ h _ => absurd rfl h
theorem RoundTrip.drainHoldRelease (core : Nat) (t : Reg) : RoundTrip.Statement (.drainHoldRelease core t) := fun _ h _ => absurd rfl h
theorem RoundTrip.remoteAccess (i : Nat) : RoundTrip.Statement (.remoteAccess i) := fun _ h _ => absurd rfl h
theorem RoundTrip.pageWalk (core : Nat) (cx : Nat) (va : Word) : RoundTrip.Statement (.pageWalk core cx va) := fun _ h _ => absurd rfl h
theorem RoundTrip.replicatedWrite (i : Nat) : RoundTrip.Statement (.replicatedWrite i) := fun _ h _ => absurd rfl h
theorem RoundTrip.replicaApply (die : Nat) : RoundTrip.Statement (.replicaApply die) := fun _ h _ => absurd rfl h
theorem RoundTrip.snapshotRequest (i : Nat) : RoundTrip.Statement (.snapshotRequest i) := fun _ h _ => absurd rfl h
theorem RoundTrip.commitPrepare (i : Nat) : RoundTrip.Statement (.commitPrepare i) := fun _ h _ => absurd rfl h
theorem RoundTrip.commitTimestamp (i : Nat) : RoundTrip.Statement (.commitTimestamp i) := fun _ h _ => absurd rfl h
theorem RoundTrip.commitInstall (i : Nat) (line : Nat) : RoundTrip.Statement (.commitInstall i line) := fun _ h _ => absurd rfl h
theorem RoundTrip.timestampRenumbering : RoundTrip.Statement (.timestampRenumbering) := fun _ h _ => absurd rfl h
theorem RoundTrip.groomReclaim (line : Nat) (ts : Nat) : RoundTrip.Statement (.groomReclaim line ts) := fun _ h _ => absurd rfl h
theorem RoundTrip.snapshotRevocation : RoundTrip.Statement (.snapshotRevocation) := fun _ h _ => absurd rfl h
theorem RoundTrip.matrixUnitExecute (core : Nat) : RoundTrip.Statement (.matrixUnitExecute core) := fun _ h _ => absurd rfl h
theorem RoundTrip.matrixStatusPush (core : Nat) : RoundTrip.Statement (.matrixStatusPush core) := fun _ h _ => absurd rfl h
theorem RoundTrip.rotationForwardLanding (i : Nat) : RoundTrip.Statement (.rotationForwardLanding i) := fun _ h _ => absurd rfl h
theorem RoundTrip.forwardHoldRelease (core : Nat) (i : Nat) : RoundTrip.Statement (.forwardHoldRelease core i) := fun _ h _ => absurd rfl h
theorem RoundTrip.rankUnitExecute (core : Nat) : RoundTrip.Statement (.rankUnitExecute core) := fun _ h _ => absurd rfl h
theorem RoundTrip.rankFlitArrival (i : Nat) : RoundTrip.Statement (.rankFlitArrival i) := fun _ h _ => absurd rfl h
theorem RoundTrip.rankEntryProcessing (core : Nat) (k : BitVec 2) : RoundTrip.Statement (.rankEntryProcessing core k) := fun _ h _ => absurd rfl h
theorem RoundTrip.rankResultPush (core : Nat) (k : BitVec 2) : RoundTrip.Statement (.rankResultPush core k) := fun _ h _ => absurd rfl h
theorem RoundTrip.numericDeferred (core : Nat) (cx : Nat) : RoundTrip.Statement (.numericDeferred core cx) := fun _ h _ => absurd rfl h
theorem RoundTrip.memerrDeferred (core : Nat) (cx : Nat) : RoundTrip.Statement (.memerrDeferred core cx) := fun _ h _ => absurd rfl h
theorem RoundTrip.watchdog (core : Nat) : RoundTrip.Statement (.watchdog core) := fun _ h _ => absurd rfl h
theorem RoundTrip.preempt (core : Nat) (cx : Nat) : RoundTrip.Statement (.preempt core cx) := fun _ h _ => absurd rfl h
theorem RoundTrip.preemptForced (core : Nat) (cx : Nat) : RoundTrip.Statement (.preemptForced core cx) := fun _ h _ => absurd rfl h
theorem RoundTrip.heldSystemEffect (core : Nat) (cx : Nat) : RoundTrip.Statement (.heldSystemEffect core cx) := fun _ h _ => absurd rfl h
theorem RoundTrip.syswrApply (i : Nat) : RoundTrip.Statement (.syswrApply i) := fun _ h _ => absurd rfl h
theorem RoundTrip.unassignedEncoding (w : BitVec 32) : RoundTrip.Statement (.unassignedEncoding w) := fun _ h _ => absurd rfl h
theorem RoundTrip.fetchFault (e : BitVec 12) (arg : Word) (addr : Word) : RoundTrip.Statement (.fetchFault e arg addr) := fun _ h _ => absurd rfl h
theorem RoundTrip.mapChange (i : Nat) : RoundTrip.Statement (.mapChange i) := fun _ h _ => absurd rfl h
theorem RoundTrip.softError (space : Nat) (addr : Nat) (correctable : Bool) : RoundTrip.Statement (.softError space addr correctable) := fun _ h _ => absurd rfl h
theorem RoundTrip.powerLoss : RoundTrip.Statement (.powerLoss) := fun _ h _ => absurd rfl h

end Sys2Proof.Laws
end

