-- ==== Sys2Proof/Laws/Stepping.lean ====
section
/-! SUPPORT. What a step does, from its agenda and its fetch. -/

set_option Elab.async false

namespace Sys2Proof.Machine

/-- What the fetch of a halfword brings, where its home is at hand (01 R17). -/
theorem fetchHalf_bytes (s : State) (pid : Nat) (c : Ctx) (a : Word) (h : Home) (l : Option Leaf)
    (hl : s.locate pid c.space.ptroot c.stat.sup .fetch a 2 true false = .ok (h, l)) (h1 : s.keyHeld (h.readKey s.sys.lead pid) = false)
    (h0 : s.repOpen h 2 = false) (h2 : s.homeLost h = false) (h3 : s.homeDown h = false) (h4 : s.bad (h.readKey s.sys.lead pid) 2 = false) :
    s.fetchHalf pid c a = .bytes (s.rd (h.readKey s.sys.lead pid) 2) := by
  unfold State.fetchHalf
  rw [hl]
  dsimp only
  rw [h0, h1, h2, h3, h4]
  rfl

/-- A step whose agenda begins with an issue takes that context's turn. -/
theorem step_issue {s : State} {pid cx : Nat} {rest : List Move} (h : s.agenda = .issue pid cx :: rest) :
    step s = ({ s.tick with agenda := rest } : State).turn pid cx := by
  unfold step; rw [h]; rfl

/-- A step whose agenda begins with an event performs it. -/
theorem step_event {s : State} {i : Instr} {rest : List Move} (h : s.agenda = .event i :: rest) (he : isEvent i = true) :
    step s = exec i { s.tick with agenda := rest } := by
  unfold step; rw [h]
  exact if_pos he

/-- Some move always stands open: the Farrier's steps do. -/
theorem open_ne_nil (s : State) : s.open_ ≠ [] := by
  have h : Move.event .leadDieChoice ∈ s.open_ := by
    simp [State.open_, State.events, Sys.moves]
  exact List.ne_nil_of_mem h

end Sys2Proof.Machine
end

