-- ==== Sys2Proof/Laws/Frames.lean ====
section
/-! SUPPORT. What an instruction of one register, or a store, leaves alone. -/

set_option Elab.async false

namespace Sys2Proof.Machine

theorem setG_onlyG (c : Ctx) (len : Nat) (d : Reg) (x : Word) : OnlyG c (({ c with pc := c.pc + W len, run := .runnable } : Ctx).setG d x) d := by
  refine ⟨fun r hr => ?_, ?_, ?_, ?_, Regs.allPresent_setG c.regs d x⟩
  · rw [Ctx.g_setG, if_neg (fun h => hr h.1)]; rfl
  · cases c; rfl
  · show (Regs.setG c.regs d x).v = _
    unfold Regs.setG; split <;> rfl
  · show (Regs.setG c.regs d x).p = _
    unfold Regs.setG; split <;> rfl

theorem switch_frame (s : State) (sp : Bool) : (s.switch sp).mem = s.mem ∧ (∀ q y, (s.switch sp).ctxAt q y = s.ctxAt q y)
    ∧ (∀ q, { (s.switch sp).coreAt q with cur := 0 } = { s.coreAt q with cur := 0 }) ∧ (s.switch sp).net = s.net ∧ (s.switch sp).vers = s.vers
    ∧ (s.switch sp).dies = s.dies ∧ (s.switch sp).sys = s.sys ∧ (s.switch sp).launches = s.launches ∧ (s.switch sp).copies = s.copies
    ∧ (s.switch sp).pid = s.pid ∧ (s.switch sp).cx = s.cx := by
  unfold State.switch
  split
  · refine ⟨rfl, fun q y => rfl, fun q => ?_, rfl, rfl, rfl, rfl, rfl, rfl, rfl, rfl⟩
    dsimp only
    generalize s.nextRunnable s.pid s.cx = n
    show { (s.modCoreAt s.pid _).coreAt q with cur := 0 } = _
    by_cases h : q = s.pid
    · subst h; rw [State.coreAt_modCoreAt]
    · unfold State.modCoreAt; rw [State.coreAt_setCoreAt_ne _ _ h]
  · exact ⟨rfl, fun q y => rfl, fun q => rfl, rfl, rfl, rfl, rfl, rfl, rfl, rfl, rfl⟩

/-- What a result in one general register changes. -/
theorem afterG_oneRegister (s : State) (sp : Bool) (len : Nat) (d : Reg) (x : Word) : s.OneRegister (s.afterG sp len d x) d := by
  obtain ⟨h1, h2, h3, h4, h5, h6, h7, h8, h9, h10, h11⟩ := switch_frame ((s.issued len).modCtx (fun c => c.setG d x)) sp
  have e : s.afterG sp len d x = ((s.issued len).modCtx (fun c => c.setG d x)).switch sp := rfl
  have hm : (s.issued len).modCtx (fun c => c.setG d x) = s.modCtx (fun c => ({ c with pc := c.pc + W len, run := .runnable } : Ctx).setG d x) := by
    unfold State.issued; rw [State.modCtx_modCtx]
  refine ⟨⟨fun a => ?_, fun q y h => ?_, fun q => ?_, h4, h5, h6, h7, h8, h9⟩, ?_⟩
  · rw [e, h1]; rfl
  · rw [e, h2, hm]; exact State.ctxAt_modCtxAt_ne s _ h
  · rw [e, h3]; rfl
  · have hctx : (s.afterG sp len d x).ctx = (s.modCtx (fun c => ({ c with pc := c.pc + W len, run := .runnable } : Ctx).setG d x)).ctx := by
      show State.ctxAt _ (s.afterG sp len d x).pid (s.afterG sp len d x).cx = _
      rw [e, h10, h11, h2, hm]; rfl
    rw [hctx, State.ctx_modCtx]
    exact setG_onlyG s.ctx len d x

theorem oneRegister_of {s t : State} {o : Out} {sp : Bool} {len : Nat} {d : Reg} {x : Word} (h : o = .next (s.afterG sp len d x)) (ht : o = .next t) :
    s.OneRegister t d := by
  rw [h] at ht
  cases ht
  exact afterG_oneRegister s sp len d x

/-- The frame of the instructions that write one general register. -/
theorem registerFrame_rules :
    ∀ (s t : State) (sp : Bool) (d a b : Reg), s.Clean →
    (∀ r ∈ binaryRows, exec (r.1 sp d a b) s = .next t → s.OneRegister t d)
    ∧ (∀ r ∈ compactRows, exec (r.1 sp d a) s = .next t → s.OneRegister t d)
    ∧ (exec (.sel sp d a b) s = .next t → s.OneRegister t d)
    ∧ (s.ctx.g b ≠ 0 → ∀ r ∈ divisionRows, exec (r.1 sp d a b) s = .next t → s.OneRegister t d)
    ∧ (∀ r ∈ unaryRows, exec (r.1 sp d a) s = .next t → s.OneRegister t d)
    ∧ (∀ r ∈ immediateRows, ∀ i, exec (r.1 sp d a i) s = .next t → s.OneRegister t d)
    ∧ (∀ r ∈ shiftRows, ∀ n, exec (r.1 sp d a n) s = .next t → s.OneRegister t d)
    ∧ (∀ c i, exec (.cmpi sp c d a i) s = .next t → s.OneRegister t d)
    ∧ (∀ i, exec (.li sp d i) s = .next t ∨ exec (.lih sp d i) s = .next t ∨ exec (.addpc sp d i) s = .next t → s.OneRegister t d)
    ∧ (∀ z i, exec (.lea sp z d a i) s = .next t → s.OneRegister t d)
    ∧ (∀ i, exec (.addiCompact sp d i) s = .next t ∨ exec (.liCompact sp d i) s = .next t ∨ exec (.shliCompact sp d i) s = .next t
        ∨ exec (.shriCompact sp d i) s = .next t → s.OneRegister t d)
    ∧ (exec (.bspos sp d) s = .next t → s.OneRegister t d)
    ∧ (∀ z x i u, ∀ f ∈ loadForms s sp z x d a b i u, s.Local (f.base == 31) f.ea f.size → exec f.instr s = .next t → s.OneRegister t f.dest) := by
  intro s t sp d a b hc
  obtain ⟨b1, b2, b3⟩ := binaryResults_rules s sp d a b hc
  obtain ⟨c1, c2, c3, c4, c5, c6, c7, c8, c9, c10, c11, c12⟩ := constantResults_rules s sp d a hc
  refine ⟨fun r hr h => oneRegister_of (b1 r hr) h, fun r hr h => oneRegister_of (b2 r hr) h, fun h => oneRegister_of b3 h,
    fun hb r hr h => oneRegister_of ((divisionResults_rules s sp d a b hc r hr).1 hb) h, fun r hr h => oneRegister_of (c1 r hr) h, fun r hr i h => oneRegister_of (c2 r hr i) h,
    fun r hr n h => oneRegister_of (c3 r hr n) h, fun c i h => ?_, fun i h => ?_, fun z i h => oneRegister_of (c8 z i) h, fun i h => ?_,
    fun h => oneRegister_of (bits_rules s sp d a b hc).1 h, fun z x i u f hf hl h => oneRegister_of ((loads_rules s sp z x d a b i u hc f hf).1 hl) h⟩
  · by_cases hm : Cond.meets c (s.ctx.g a) (i.signExtend 64)
    · exact oneRegister_of ((c4 c i).1 hm) h
    · exact oneRegister_of ((c4 c i).2 hm) h
  · rcases h with h | h | h
    · exact oneRegister_of (c5 i) h
    · exact oneRegister_of (c6 i) h
    · exact oneRegister_of (c7 i) h
  · rcases h with h | h | h | h
    · exact oneRegister_of (c9 i) h
    · exact oneRegister_of (c10 i) h
    · exact oneRegister_of (c11 i) h
    · exact oneRegister_of (c12 i) h

/-- The frame of the scalar stores: every byte but those stored, every register, and all that is in flight. -/
theorem storeFrame_rules :
    ∀ (s t : State) (sp : Bool) (z : Size) (d a b : Reg) (i : BitVec 11) (u : BitVec 5), s.Clean → s.memOk →
    ∀ f ∈ storeForms s sp z d a b i u, s.Local (f.base == 31) f.ea f.size → exec f.instr s = .next t →
      (∀ j, ¬ (spadKey s.pid f.ea.toNat ≤ j ∧ j < spadKey s.pid f.ea.toNat + f.size) → Memory.rd t.mem j = Memory.rd s.mem j)
      ∧ t.ctx = { s.ctx with pc := s.ctx.pc + W f.len, run := .runnable }
      ∧ (∀ q y, ctxKey q y ≠ ctxKey s.pid s.cx → t.ctxAt q y = s.ctxAt q y)
      ∧ (∀ q, { t.coreAt q with cur := 0 } = { s.coreAt q with cur := 0 })
      ∧ t.net.reqs = s.net.reqs ∧ t.net.pkts = s.net.pkts ∧ t.net.results = s.net.results ∧ t.dies = s.dies ∧ t.sys = s.sys ∧ t.launches = s.launches
      ∧ t.copies = s.copies := by
  intro s t sp z d a b i u hc hm f hf hl h
  obtain ⟨h1, h2⟩ := (stores_rules s sp z d a b i u hc f hf).1 hl
  rw [h1] at h
  cases h
  obtain ⟨g1, g2, g3, g4, g5, g6, g7, g8, g9, g10, g11⟩ := switch_frame ((s.issued f.len).wr (spadKey s.pid f.ea.toNat) (bytesOf f.size (s.ctx.g f.dest).toNat)) sp
  generalize hu : ((s.issued f.len).wr (spadKey s.pid f.ea.toNat) (bytesOf f.size (s.ctx.g f.dest).toNat)) = u at *
  have hw : s.afterStore sp f.len f.ea.toNat (bytesOf f.size (s.ctx.g f.dest).toNat) = u.switch sp := by rw [← hu]; rfl
  rw [hw] at h2 ⊢
  have hctx : ∀ q y, u.ctxAt q y = (s.issued f.len).ctxAt q y := fun q y => by rw [← hu]; rfl
  have hcore : ∀ q, u.coreAt q = s.coreAt q := fun q => by rw [← hu]; rfl
  have hrest : u.net.reqs = s.net.reqs ∧ u.net.pkts = s.net.pkts ∧ u.net.results = s.net.results ∧ u.dies = s.dies ∧ u.sys = s.sys ∧ u.launches = s.launches
      ∧ u.copies = s.copies ∧ u.pid = s.pid ∧ u.cx = s.cx := by rw [← hu]; exact ⟨rfl, rfl, rfl, rfl, rfl, rfl, rfl, rfl, rfl⟩
  obtain ⟨k1, k2, k3, k4, k5, k6, k7, k8, k9⟩ := hrest
  refine ⟨fun j hj => ?_, ?_, fun q y hq => ?_, fun q => ?_, ?_, ?_, ?_, g6.trans k4, g7.trans k5, g8.trans k6, g9.trans k7⟩
  · rw [h2 hm j, if_neg hj]
  · show State.ctxAt _ (u.switch sp).pid (u.switch sp).cx = _
    rw [g10, g11, g2, hctx, k8, k9]
    exact State.ctx_issued s f.len
  · rw [g2, hctx]
    exact State.ctxAt_modCtxAt_ne s _ hq
  · rw [g3, hcore]
  · rw [g4, k1]
  · rw [g4, k2]
  · rw [g4, k3]

/-- A branch target has the parity of the PC (04 R94). -/
theorem relative_even (s : State) {n : Nat} (o : BitVec n) (hpc : flag s.ctx.pc 0 = false) : flag (s.relative o) 0 = false := by
  unfold State.relative flag bitOf at *
  rw [Nat.pow_zero, Nat.div_one] at *
  rw [beq_eq_false_iff_ne] at *
  intro e
  apply hpc
  rw [BitVec.toNat_add, BitVec.toNat_ofInt] at e
  omega

/-- Rotating right by the complement of a count rotates left by the count (05 R114). -/
theorem rotateRight_complement (x : Word) (n : BitVec 6) : x.rotateRight (BitVec.ofNat 6 ((64 - n.toNat) % 64)).toNat = x.rotateLeft n.toNat := by
  have hn := n.isLt
  rw [BitVec.toNat_ofNat]
  by_cases h0 : n.toNat = 0
  · rw [h0]
    show (x >>> 0 ||| x <<< 64) = (x <<< 0 ||| x >>> 64)
    rw [BitVec.shiftLeft_eq_zero (Nat.le_refl _), BitVec.ushiftRight_eq_zero (Nat.le_refl _)]
    simp
  · have e1 : (64 - n.toNat) % 64 % 2 ^ 6 = 64 - n.toNat := by omega
    rw [e1]
    unfold BitVec.rotateRight BitVec.rotateLeft BitVec.rotateRightAux BitVec.rotateLeftAux
    have e2 : (64 - n.toNat) % 64 = 64 - n.toNat := by omega
    have e3 : n.toNat % 64 = n.toNat := by omega
    have e4 : 64 - (64 - n.toNat) = n.toNat := by omega
    rw [e2, e3, e4, BitVec.or_comm]

theorem issue_next (s : State) (sp : Bool) (len : Nat) (m : Act Unit) : ∃ t, issue s sp len m = .next t := ⟨_, rfl⟩

theorem exec_next (i : Instr) (s : State) : ∃ t, exec i s = .next t := by
  cases i <;> first | exact ⟨_, rfl⟩ | exact issue_next _ _ _ _ | skip

end Sys2Proof.Machine
end

