-- ==== Sys2Proof/Laws/StatusWords.lean ====
section
/-! SUPPORT. Words built from fields, read back. -/

set_option Elab.async false

namespace Sys2Proof.Machine

/-- The fields of a token status word (06 Table 6.10). -/
theorem tokenStatus_fields (m y b v : Bool) (e : Nat) : ∀ w, w = W (1 + 2 * b2n m + 4 * b2n y + 8 * b2n b + 16 * b2n v + 2 ^ 16 * e) →
    flag w 0 = true ∧ flag w 1 = m ∧ flag w 2 = y ∧ flag w 3 = b ∧ flag w 4 = v ∧ fld w 15 5 = 0 ∧ fld w 27 16 = e % 4096 ∧ (e < 4096 → fld w 63 28 = 0) := by
  intro w hw
  have hN : w.toNat = (1 + 2 * b2n m + 4 * b2n y + 8 * b2n b + 16 * b2n v + 2 ^ 16 * e) % 2 ^ 64 := by rw [hw]; exact BitVec.toNat_ofNat _ _
  unfold flag fld bitOf bitsOf
  generalize w.toNat = n at *
  simp only [Nat.reduceAdd, Nat.reduceSub, Nat.reducePow, beq_iff_eq] at *
  have hz : b2n false = 0 := rfl
  have ho : b2n true = 1 := rfl
  cases m <;> cases y <;> cases b <;> cases v <;> simp only [hz, ho, beq_iff_eq, beq_eq_false_iff_ne] at * <;> omega

end Sys2Proof.Machine
end

