-- ==== Sys2Proof/Laws/Encodings.lean ====
section
/-! SUPPORT. The fields of a word of four bytes, as the decoder takes them. -/

set_option Elab.async false

namespace Sys2Proof.Machine

/-- The four bytes of a word with W = 1 decode as its parts do (04 R93). -/
theorem decode_bytes4 (w : Nat) (hw : w < 2 ^ 32) (h1 : bitOf w 1 = true) : decode (bytesOf 4 w) = (decFields (Fields.of w)).map (fun i => (i, 4)) := by
  have hb1 : bitOf (w % 256 + 256 * (w / 256 % 256)) 1 = true := by
    unfold bitOf at *
    rw [beq_iff_eq, Nat.pow_one] at *
    omega
  have e : w % 256 + 256 * (w / 256 % 256) + 2 ^ 16 * (w / 256 / 256 % 256 + 256 * (w / 256 / 256 / 256 % 256)) = w := by omega
  show (if bitOf (w % 256 + 256 * (w / 256 % 256)) 1 then
      (decFields (Fields.of (w % 256 + 256 * (w / 256 % 256) + 2 ^ 16 * (w / 256 / 256 % 256 + 256 * (w / 256 / 256 / 256 % 256))))).map (fun i => (i, 4))
    else (decHalf (w % 256 + 256 * (w / 256 % 256))).map (fun i => (i, 2))) = _
  rw [if_pos hb1, e]

theorem field_of_hi (w hi lo : Nat) (h : hi ≤ 13) (hl : lo ≤ hi) : bitsOf (bitsOf w 31 18) hi lo = bitsOf w (hi + 18) (lo + 18) := by
  unfold bitsOf
  rw [show (31 + 1 - 18 : Nat) = 14 from rfl, show hi + 18 + 1 - (lo + 18) = hi + 1 - lo by omega, Nat.pow_add 2 lo 18]
  have hp : (2 : Nat) ^ 14 = 2 ^ lo * 2 ^ (14 - lo) := by rw [← Nat.pow_add]; congr 1; omega
  have h2 : (2 : Nat) ^ (14 - lo) = 2 ^ (hi + 1 - lo) * 2 ^ (13 - hi) := by rw [← Nat.pow_add]; congr 1; omega
  rw [hp, Nat.mod_mul_right_div_self, h2, Nat.mod_mul_right_mod, Nat.div_div_eq_div_mul, Nat.mul_comm (2 ^ 18)]

theorem f4_bits (w : Nat) : ∀ hi, hi = bitsOf w 31 18 → hi % 32 = bitsOf w 22 18 ∧ hi / 32 % 32 = bitsOf w 27 23 ∧ hi / 1024 = bitsOf w 31 28 := by
  intro hi h
  have a := field_of_hi w 4 0 (by omega) (by omega)
  have b := field_of_hi w 9 5 (by omega) (by omega)
  have c := field_of_hi w 13 10 (by omega) (by omega)
  rw [← h] at a b c
  have hlt : hi < 16384 := by rw [h]; exact Nat.mod_lt _ (by decide)
  refine ⟨?_, ?_, ?_⟩
  · rw [← a]; unfold bitsOf; simp only [Nat.reduceAdd, Nat.reduceSub, Nat.reducePow]; omega
  · rw [← b]; unfold bitsOf; simp only [Nat.reduceAdd, Nat.reduceSub, Nat.reducePow]
  · rw [← c]; unfold bitsOf; simp only [Nat.reduceAdd, Nat.reduceSub, Nat.reducePow]; omega

theorem f4_flags (w : Nat) : (bitsOf w 31 28 < 8 ↔ bitOf w 31 = false) ∧ bitOf (bitsOf w 31 28) 2 = bitOf w 30 ∧ bitOf (bitsOf w 31 28) 1 = bitOf w 29
    ∧ bitOf (bitsOf w 31 28) 0 = bitOf w 28 := by
  unfold bitsOf bitOf
  simp only [Nat.reduceAdd, Nat.reduceSub, Nat.reducePow, Nat.pow_zero, Nat.pow_one, Nat.div_one, beq_eq_false_iff_ne]
  refine ⟨by omega, ?_, ?_, ?_⟩
  · congr 1; omega
  · congr 1; omega
  · congr 1; omega

theorem decMma_word (w : Nat) (i : Bool → Bool → Bool → Instr) :
    (decMma i (bitsOf w 31 28)).map (fun i => (i, 4)) = if bitOf w 31 then none else some (i (bitOf w 30) (bitOf w 29) (bitOf w 28), 4) := by
  obtain ⟨h1, h2, h3, h4⟩ := f4_flags w
  unfold decMma
  rw [h2, h3, h4]
  cases h : bitOf w 31 with
  | false =>
    rw [show decide (bitsOf w 31 28 < 8) = true from decide_eq_true (h1.2 h)]; rfl
  | true =>
    rw [show decide (bitsOf w 31 28 < 8) = false from decide_eq_false (fun e => by rw [h1.1 e] at h; exact Bool.false_ne_true h)]; rfl

end Sys2Proof.Machine
end

