-- ==== Sys2Proof/Tests/Slice0.lean ====
section
/-! SUPPORT. Tests: ill-formed terms that the checks refuse; words written out from the encoding tables of 04 and what they
decode to, with reserved encodings that the decoder refuses; and, for every statement that has hypotheses, a state and
operands that meet them. -/

set_option Elab.async false

namespace Sys2Proof.Tests
open Sys2Proof.Machine

/-! ### Well-formed and ill-formed terms (04 R99, R101; the ranges of steps that have no encoding) -/

theorem test_wf_admits_1 :
    (.ld false .d false 0 0 0 : Instr).wf = true
    ∧ (.ldx false .d false 0 0 0 : Instr).wf = true
    ∧ (.ldv false .d false 0 0 : Instr).wf = true
    ∧ (.lda false .core .acq .d 0 0 : Instr).wf = true
    ∧ (.stl false .core .rel .d 0 0 : Instr).wf = true
    ∧ (.fence false .core .sc : Instr).wf = true
    ∧ (.queuePop 0 0 : Instr).wf = true
    ∧ (.queuePush 0 0 12 0 : Instr).wf = true
    ∧ (.preqWrite 0 0 : Instr).wf = true
    ∧ (.migrWrite 0 0 0 : Instr).wf = true
    ∧ (.migrateWithdrawal 0 0 : Instr).wf = true
    ∧ (.migrate 0 0 : Instr).wf = true := by
  decide

theorem test_wf_admits_2 :
    (.migrationMove 0 0 : Instr).wf = true
    ∧ (.clusterEstimate 0 0 : Instr).wf = true
    ∧ (.clusterSensorSample 0 0 0 : Instr).wf = true
    ∧ (.peerStorePerm 0 0 : Instr).wf = true
    ∧ (.launchCoreStart 0 0 : Instr).wf = true
    ∧ (.boundQueuePush 0 0 : Instr).wf = true
    ∧ (.messageSelection 0 : Instr).wf = true
    ∧ (.priority1Entry 0 : Instr).wf = true
    ∧ (.deadmsg 0 0 : Instr).wf = true
    ∧ (.mailboxStoreLanding 0 0 : Instr).wf = true
    ∧ (.mtakeService 0 0 : Instr).wf = true
    ∧ (.contextWake 0 0 : Instr).wf = true := by
  decide

theorem test_wf_admits_3 :
    (.fairnessBoundary 0 0 : Instr).wf = true
    ∧ (.idleExpiry 0 0 : Instr).wf = true
    ∧ (.hmaskTimeout 0 0 : Instr).wf = true
    ∧ (.contextFill 0 : Instr).wf = true
    ∧ (.contextSpill 0 : Instr).wf = true
    ∧ (.spillRestore 0 0 : Instr).wf = true
    ∧ (.pendingRecordRelease 0 0 : Instr).wf = true
    ∧ (.paddockDispatch 0 : Instr).wf = true
    ∧ (.paddockAging 0 12 : Instr).wf = true
    ∧ (.classWaitExpiry 0 12 : Instr).wf = true
    ∧ (.copyEngineAccept 0 0 : Instr).wf = true
    ∧ (.copyfail 0 0 : Instr).wf = true := by
  decide

theorem test_wf_admits_4 :
    (.copyfault 0 0 : Instr).wf = true
    ∧ (.drainHoldRelease 0 0 : Instr).wf = true
    ∧ (.pageWalk 0 0 0 : Instr).wf = true
    ∧ (.replicaApply 0 : Instr).wf = true
    ∧ (.matrixUnitExecute 0 : Instr).wf = true
    ∧ (.matrixStatusPush 0 : Instr).wf = true
    ∧ (.forwardHoldRelease 0 0 : Instr).wf = true
    ∧ (.rankUnitExecute 0 : Instr).wf = true
    ∧ (.rankEntryProcessing 0 0 : Instr).wf = true
    ∧ (.rankResultPush 0 0 : Instr).wf = true
    ∧ (.numericDeferred 0 0 : Instr).wf = true
    ∧ (.memerrDeferred 0 0 : Instr).wf = true := by
  decide

theorem test_wf_admits_5 :
    (.watchdog 0 : Instr).wf = true
    ∧ (.preempt 0 0 : Instr).wf = true
    ∧ (.preemptForced 0 0 : Instr).wf = true
    ∧ (.heldSystemEffect 0 0 : Instr).wf = true := by
  decide

theorem test_wf_refuses_1 :
    (.ld false .d true 0 0 0 : Instr).wf = false
    ∧ (.ldx false .d true 0 0 0 : Instr).wf = false
    ∧ (.ldv false .d true 0 0 : Instr).wf = false
    ∧ (.lda false .core .relaxed .d 0 0 : Instr).wf = false
    ∧ (.stl false .core .relaxed .d 0 0 : Instr).wf = false
    ∧ (.fence false .core .relaxed : Instr).wf = false
    ∧ (.queuePop 2048 0 : Instr).wf = false
    ∧ (.queuePush 2048 0 12 0 : Instr).wf = false
    ∧ (.queuePush 0 5 12 0 : Instr).wf = false
    ∧ (.queuePush 0 0 11 0 : Instr).wf = false
    ∧ (.preqWrite 2048 0 : Instr).wf = false
    ∧ (.migrWrite 2048 0 0 : Instr).wf = false := by
  decide

theorem test_wf_refuses_2 :
    (.migrWrite 0 4 0 : Instr).wf = false
    ∧ (.migrateWithdrawal 2048 0 : Instr).wf = false
    ∧ (.migrateWithdrawal 0 4 : Instr).wf = false
    ∧ (.migrate 2048 0 : Instr).wf = false
    ∧ (.migrate 0 4 : Instr).wf = false
    ∧ (.migrationMove 2048 0 : Instr).wf = false
    ∧ (.migrationMove 0 4 : Instr).wf = false
    ∧ (.clusterEstimate 8 0 : Instr).wf = false
    ∧ (.clusterEstimate 0 16 : Instr).wf = false
    ∧ (.clusterSensorSample 8 0 0 : Instr).wf = false
    ∧ (.clusterSensorSample 0 16 0 : Instr).wf = false
    ∧ (.peerStorePerm 2048 0 : Instr).wf = false := by
  decide

theorem test_wf_refuses_3 :
    (.peerStorePerm 0 5 : Instr).wf = false
    ∧ (.launchCoreStart 0 2048 : Instr).wf = false
    ∧ (.boundQueuePush 2048 0 : Instr).wf = false
    ∧ (.messageSelection 2048 : Instr).wf = false
    ∧ (.priority1Entry 2048 : Instr).wf = false
    ∧ (.deadmsg 2048 0 : Instr).wf = false
    ∧ (.deadmsg 0 5 : Instr).wf = false
    ∧ (.mailboxStoreLanding 2048 0 : Instr).wf = false
    ∧ (.mtakeService 2048 0 : Instr).wf = false
    ∧ (.contextWake 2048 0 : Instr).wf = false
    ∧ (.contextWake 0 5 : Instr).wf = false
    ∧ (.fairnessBoundary 2048 0 : Instr).wf = false := by
  decide

theorem test_wf_refuses_4 :
    (.fairnessBoundary 0 4 : Instr).wf = false
    ∧ (.idleExpiry 2048 0 : Instr).wf = false
    ∧ (.idleExpiry 0 4 : Instr).wf = false
    ∧ (.hmaskTimeout 2048 0 : Instr).wf = false
    ∧ (.hmaskTimeout 0 4 : Instr).wf = false
    ∧ (.contextFill 2048 : Instr).wf = false
    ∧ (.contextSpill 2048 : Instr).wf = false
    ∧ (.spillRestore 2048 0 : Instr).wf = false
    ∧ (.pendingRecordRelease 2048 0 : Instr).wf = false
    ∧ (.pendingRecordRelease 0 256 : Instr).wf = false
    ∧ (.paddockDispatch 8 : Instr).wf = false
    ∧ (.paddockAging 8 12 : Instr).wf = false := by
  decide

theorem test_wf_refuses_5 :
    (.classWaitExpiry 8 12 : Instr).wf = false
    ∧ (.copyEngineAccept 2048 0 : Instr).wf = false
    ∧ (.copyEngineAccept 0 5 : Instr).wf = false
    ∧ (.copyfail 2048 0 : Instr).wf = false
    ∧ (.copyfail 0 5 : Instr).wf = false
    ∧ (.copyfault 2048 0 : Instr).wf = false
    ∧ (.copyfault 0 5 : Instr).wf = false
    ∧ (.drainHoldRelease 2048 0 : Instr).wf = false
    ∧ (.pageWalk 2048 0 0 : Instr).wf = false
    ∧ (.pageWalk 0 5 0 : Instr).wf = false
    ∧ (.replicaApply 8 : Instr).wf = false
    ∧ (.matrixUnitExecute 2048 : Instr).wf = false := by
  decide

theorem test_wf_refuses_6 :
    (.matrixStatusPush 2048 : Instr).wf = false
    ∧ (.forwardHoldRelease 2048 0 : Instr).wf = false
    ∧ (.rankUnitExecute 2048 : Instr).wf = false
    ∧ (.rankEntryProcessing 2048 0 : Instr).wf = false
    ∧ (.rankResultPush 2048 0 : Instr).wf = false
    ∧ (.numericDeferred 2048 0 : Instr).wf = false
    ∧ (.numericDeferred 0 5 : Instr).wf = false
    ∧ (.memerrDeferred 2048 0 : Instr).wf = false
    ∧ (.memerrDeferred 0 5 : Instr).wf = false
    ∧ (.watchdog 2048 : Instr).wf = false
    ∧ (.preempt 2048 0 : Instr).wf = false
    ∧ (.preempt 0 4 : Instr).wf = false := by
  decide

theorem test_wf_refuses_7 :
    (.preemptForced 2048 0 : Instr).wf = false
    ∧ (.preemptForced 0 4 : Instr).wf = false
    ∧ (.heldSystemEffect 2048 0 : Instr).wf = false
    ∧ (.heldSystemEffect 0 5 : Instr).wf = false := by
  decide

/-! ### Decoding: each word is written from the spec's encoding tables (04, Appendix A) -/

theorem test_decode_compact_1 :
    decode (bytesOf 2 0x0040) = some (.nopCompact false, 2)
    ∧ decode (bytesOf 2 0x0080) = some (.doneCompact false, 2)
    ∧ decode (bytesOf 2 0x00C1) = some (.retCompact true, 2)
    ∧ decode (bytesOf 2 0xDF45) = some (.addCompact true 29 27, 2)
    ∧ decode (bytesOf 2 0xF449) = some (.subCompact true 17 30, 2)
    ∧ decode (bytesOf 2 0x08CC) = some (.andCompact false 3 1, 2)
    ∧ decode (bytesOf 2 0xBD10) = some (.orCompact false 20 23, 2)
    ∧ decode (bytesOf 2 0x8495) = some (.xorCompact true 18 16, 2)
    ∧ decode (bytesOf 2 0xA658) = some (.addiCompact false 25 20, 2)
    ∧ decode (bytesOf 2 0x131C) = some (.liCompact false 12 2, 2)
    ∧ decode (bytesOf 2 0xCF60) = some (.shliCompact false 29 25, 2)
    ∧ decode (bytesOf 2 0x56E5) = some (.shriCompact true 27 10, 2)
    ∧ decode (bytesOf 2 0xD8E8) = some (.ldStackCompact false 3 27, 2)
    ∧ decode (bytesOf 2 0xFCAD) = some (.stStackCompact true 18 31, 2)
    ∧ decode (bytesOf 2 0x69F1) = some (.ldCompact true 7 13, 2)
    ∧ decode (bytesOf 2 0x6A35) = some (.stCompact true 8 13, 2) := by
  decide

theorem test_decode_compact_2 :
    decode (bytesOf 2 0xE7F9) = some (.mulCompact true 31 28, 2)
    ∧ decode (bytesOf 2 0x203C) = some (.jrCompact false 4, 2) := by
  decide

theorem test_decode_register_arithmetic_1 :
    decode (bytesOf 4 0x00214403) = some (.add true 4 10 8, 4)
    ∧ decode (bytesOf 4 0x00C0A302) = some (.sub false 3 5 16, 4)
    ∧ decode (bytesOf 4 0x0105B203) = some (.mul true 18 13 1, 4)
    ∧ decode (bytesOf 4 0x01EB2202) = some (.mulh false 2 25 26, 4)
    ∧ decode (bytesOf 4 0x02464C03) = some (.mulhu true 12 18 17, 4)
    ∧ decode (bytesOf 4 0x02E4DB02) = some (.div false 27 6 25, 4)
    ∧ decode (bytesOf 4 0x0324FF02) = some (.divu false 31 7 9, 4)
    ∧ decode (bytesOf 4 0x03EEBA03) = some (.rem true 26 21 27, 4)
    ∧ decode (bytesOf 4 0x04692702) = some (.remu false 7 9 26, 4)
    ∧ decode (bytesOf 4 0x04A95503) = some (.and true 21 10 10, 4)
    ∧ decode (bytesOf 4 0x050F9403) = some (.or true 20 28 3, 4)
    ∧ decode (bytesOf 4 0x05D9B102) = some (.xor false 17 13 22, 4)
    ∧ decode (bytesOf 4 0x06191003) = some (.andn true 16 8 6, 4)
    ∧ decode (bytesOf 4 0x068FFE03) = some (.orn true 30 31 3, 4)
    ∧ decode (bytesOf 4 0x0707CA03) = some (.shl true 10 30 1, 4)
    ∧ decode (bytesOf 4 0x07F33102) = some (.shr false 17 25 28, 4) := by
  decide

theorem test_decode_register_arithmetic_2 :
    decode (bytesOf 4 0x0839D403) = some (.sar true 20 14 14, 4)
    ∧ decode (bytesOf 4 0x08B9E602) = some (.rol false 6 15 14, 4)
    ∧ decode (bytesOf 4 0x09293B02) = some (.ror false 27 9 10, 4)
    ∧ decode (bytesOf 4 0x098C4F03) = some (.min true 15 2 3, 4)
    ∧ decode (bytesOf 4 0x0A465503) = some (.max true 21 18 17, 4)
    ∧ decode (bytesOf 4 0x0ADD6502) = some (.minu false 5 11 23, 4)
    ∧ decode (bytesOf 4 0x0B0DDE02) = some (.maxu false 30 14 3, 4)
    ∧ decode (bytesOf 4 0x0BD6AF03) = some (.sel true 15 21 21, 4)
    ∧ decode (bytesOf 4 0x0C198E03) = some (.cmpeq true 14 12 6, 4)
    ∧ decode (bytesOf 4 0x0CD64703) = some (.cmpne true 7 18 21, 4)
    ∧ decode (bytesOf 4 0x0D136202) = some (.cmplt false 2 27 4, 4)
    ∧ decode (bytesOf 4 0x0DA73302) = some (.cmpge false 19 25 9, 4)
    ∧ decode (bytesOf 4 0x0E117E02) = some (.cmpltu false 30 11 4, 4)
    ∧ decode (bytesOf 4 0x0EA9E102) = some (.cmpgeu false 1 15 10, 4)
    ∧ decode (bytesOf 4 0x00019706) = some (.clz false 23 12, 4)
    ∧ decode (bytesOf 4 0x0083BF07) = some (.ctz true 31 29, 4) := by
  decide

theorem test_decode_register_arithmetic_3 :
    decode (bytesOf 4 0x01031607) = some (.popc true 22 24, 4)
    ∧ decode (bytesOf 4 0x01802B07) = some (.bswap true 11 1, 4)
    ∧ decode (bytesOf 4 0x02017F06) = some (.sextb false 31 11, 4)
    ∧ decode (bytesOf 4 0x02833507) = some (.sexth true 21 25, 4)
    ∧ decode (bytesOf 4 0x03039F06) = some (.sextw false 31 28, 4)
    ∧ decode (bytesOf 4 0x03815406) = some (.zextb false 20 10, 4)
    ∧ decode (bytesOf 4 0x0403AF07) = some (.zexth true 15 29, 4)
    ∧ decode (bytesOf 4 0x0480A907) = some (.zextw true 9 5, 4) := by
  decide

theorem test_decode_immediates :
    decode (bytesOf 4 0x994FE60B) = some (.addi true 6 31 9811, 4)
    ∧ decode (bytesOf 4 0x92B82C0E) = some (.andi false 12 1 9390, 4)
    ∧ decode (bytesOf 4 0x7470CC13) = some (.ori true 12 6 7452, 4)
    ∧ decode (bytesOf 4 0xFF495316) = some (.xori false 19 10 16338, 4)
    ∧ decode (bytesOf 4 0x0074EE1A) = some (.shli false 14 7 29, 4)
    ∧ decode (bytesOf 4 0x0120421A) = some (.shri false 2 2 8, 4)
    ∧ decode (bytesOf 4 0x02C0D41A) = some (.sari false 20 6 48, 4)
    ∧ decode (bytesOf 4 0x039C521B) = some (.rori true 18 2 39, 4)
    ∧ decode (bytesOf 4 0x9545621E) = some (.cmpi false .ne 2 11 1194, 4)
    ∧ decode (bytesOf 4 0xD5B8F123) = some (.li true 17 437703, 4)
    ∧ decode (bytesOf 4 0xC6174E26) = some (.lih false 14 405690, 4)
    ∧ decode (bytesOf 4 0x7A4EA72A) = some (.addpc false 7 250485, 4)
    ∧ decode (bytesOf 4 0x706E022E) = some (.lea false .d 2 16 899, 4) := by
  decide

theorem test_decode_loads_and_stores :
    decode (bytesOf 4 0x6BF2BD33) = some (.ld true .b true 29 21 863, 4)
    ∧ decode (bytesOf 4 0xD4C60736) = some (.st false .h 7 16 1702, 4)
    ∧ decode (bytesOf 4 0x0055113A) = some (.ldx false .h true 17 8 2, 4)
    ∧ decode (bytesOf 4 0x0325DC3F) = some (.stx true .h 28 14 25, 4) := by
  decide

theorem test_decode_special_registers :
    decode (bytesOf 4 0x24480B42) = some (.mfs false 11 2322, 4)
    ∧ decode (bytesOf 4 0xE41FC047) = some (.mts true 30 14599, 4) := by
  decide

theorem test_decode_control_transfer :
    decode (bytesOf 4 0x9111BF4A) = some (.bc false .none .ltu 13 31 290, 4)
    ∧ decode (bytesOf 4 0x7E8D0E4E) = some (.bz false .taken .eq 14 8099, 4)
    ∧ decode (bytesOf 4 0xEE0FBE52) = some (.br false 15601598, 4)
    ∧ decode (bytesOf 4 0x562ABD57) = some (.call true 5647037, 4)
    ∧ decode (bytesOf 4 0x0007405B) = some (.jr true true 26, 4)
    ∧ decode (bytesOf 4 0x0086205A) = some (.callr false true 17, 4)
    ∧ decode (bytesOf 4 0x0100005B) = some (.ret true, 4)
    ∧ decode (bytesOf 4 0xDEC01763) = some (.loop true .none 23 14256, 4) := by
  decide

theorem test_decode_control :
    decode (bytesOf 4 0x0000005F) = some (.done true, 4)
    ∧ decode (bytesOf 4 0x00F9BF5F) = some (.waita true 31 13 30, 4)
    ∧ decode (bytesOf 4 0x0100605F) = some (.halt true 3, 4)
    ∧ decode (bytesOf 4 0x0183E05E) = some (.idle false 31, 4)
    ∧ decode (bytesOf 4 0x0200005E) = some (.nop false, 4)
    ∧ decode (bytesOf 4 0x0281BD5E) = some (.mtake false 29 13, 4)
    ∧ decode (bytesOf 4 0x03033F5F) = some (.mpeek true 31 25, 4)
    ∧ decode (bytesOf 4 0x0382C05E) = some (.waitm false 22, 4) := by
  decide

theorem test_decode_bit_buffer :
    decode (bytesOf 4 0x004E0067) = some (.bsinit true 16 19, 4)
    ∧ decode (bytesOf 4 0x0083CD66) = some (.bsget false 13 30, 4)
    ∧ decode (bytesOf 4 0x01034166) = some (.bspeek false 1 26, 4)
    ∧ decode (bytesOf 4 0x0183C066) = some (.bsskip false 30, 4)
    ∧ decode (bytesOf 4 0x02003467) = some (.bseg true 20 1, 4)
    ∧ decode (bytesOf 4 0x0291A067) = some (.bsput true 13 4, 4)
    ∧ decode (bytesOf 4 0x03000066) = some (.bsflush false, 4)
    ∧ decode (bytesOf 4 0x03801266) = some (.bspos false 18, 4) := by
  decide

theorem test_decode_effects :
    decode (bytesOf 4 0x027A806B) = some (.handle true 20 30 4, 4)
    ∧ decode (bytesOf 4 0x1002206B) = some (.unhandle true 17, 4)
    ∧ decode (bytesOf 4 0x26AB836B) = some (.perform true 3498 28, 4)
    ∧ decode (bytesOf 4 0x3116AB6B) = some (.performv true 3141 21 2, 4)
    ∧ decode (bytesOf 4 0x43C1C06A) = some (.resume false 14 16 7, 4)
    ∧ decode (bytesOf 4 0x53C8C06B) = some (.resumem true 6 18 7, 4)
    ∧ decode (bytesOf 4 0x6003866A) = some (.discard false 6 28, 4)
    ∧ decode (bytesOf 4 0x7002E56B) = some (.tkstat true 5 23, 4)
    ∧ decode (bytesOf 4 0x8002006B) = some (.shandle true 16, 4) := by
  decide

theorem test_decode_messages :
    decode (bytesOf 4 0x04CBA06E) = some (.send false 29 18 9, 4)
    ∧ decode (bytesOf 4 0x105CC06E) = some (.sendr false 6 23, 4)
    ∧ decode (bytesOf 4 0x2AA8806E) = some (.mcast false 4 10 21, 4)
    ∧ decode (bytesOf 4 0x3043406F) = some (.subtag true 26 16, 4)
    ∧ decode (bytesOf 4 0x4000006E) = some (.hmask false, 4)
    ∧ decode (bytesOf 4 0x5000006E) = some (.hunmask false, 4)
    ∧ decode (bytesOf 4 0x67714C6E) = some (.hcfg false 12 10 28 14, 4) := by
  decide

theorem test_decode_tasks :
    decode (bytesOf 4 0x00032672) = some (.spawn false 6 25, 4)
    ∧ decode (bytesOf 4 0x1B0A9E73) = some (.fork true 30 20 2 22, 4)
    ∧ decode (bytesOf 4 0x20024073) = some (.joinw true 18, 4)
    ∧ decode (bytesOf 4 0x306BC073) = some (.cntinit true 30 26, 4)
    ∧ decode (bytesOf 4 0x4003C073) = some (.cntdec true 30, 4)
    ∧ decode (bytesOf 4 0x50029473) = some (.launch true 20 20, 4) := by
  decide

theorem test_decode_groups :
    decode (bytesOf 4 0x0001A577) = some (.gjoin true 5 13, 4)
    ∧ decode (bytesOf 4 0x10032077) = some (.gleave true 25, 4)
    ∧ decode (bytesOf 4 0x20596076) = some (.bari false 11 22, 4)
    ∧ decode (bytesOf 4 0x3001C076) = some (.bara false 14, 4)
    ∧ decode (bytesOf 4 0x4050A076) = some (.barw false 5 20, 4)
    ∧ decode (bytesOf 4 0x502BA077) = some (.baraw true 29 10, 4) := by
  decide

theorem test_decode_atomics :
    decode (bytesOf 4 0x6069967A) = some (.amoAdd false .die .sc 22 12 26, 4)
    ∧ decode (bytesOf 4 0x18D7DD7A) = some (.amoAnd false .core .ar 29 30 21, 4)
    ∧ decode (bytesOf 4 0x912CCA7A) = some (.amoOr false .dev .rel 10 6 11, 4)
    ∧ decode (bytesOf 4 0x21FF3B7A) = some (.amoXor false .core .sc 27 25 31, 4)
    ∧ decode (bytesOf 4 0x8218D37B) = some (.amoMin true .dev .relaxed 19 6 6, 4)
    ∧ decode (bytesOf 4 0x029AB07A) = some (.amoMax false .core .relaxed 16 21 6, 4)
    ∧ decode (bytesOf 4 0x9B76887B) = some (.amoMinu true .dev .ar 8 20 29, 4)
    ∧ decode (bytesOf 4 0x53B1187B) = some (.amoMaxu true .die .rel 24 8 12, 4)
    ∧ decode (bytesOf 4 0xDC45BB7B) = some (.amoSwap true .sys .ar 27 13 17, 4)
    ∧ decode (bytesOf 4 0x9CBA617B) = some (.amoFadd32 true .dev .ar 1 19 14, 4)
    ∧ decode (bytesOf 4 0x653EF27B) = some (.amoFadd64 true .die .sc 18 23 15, 4)
    ∧ decode (bytesOf 4 0xD850257E) = some (.cas false .sys .ar 5 1 20, 4) := by
  decide

theorem test_decode_ordered_accesses :
    decode (bytesOf 4 0xE403C383) = some (.lda true .sys .sc .w 3 30, 4)
    ∧ decode (bytesOf 4 0xD683B482) = some (.stl false .sys .rel .d 20 29, 4)
    ∧ decode (bytesOf 4 0x51000082) = some (.fence false .die .rel, 4) := by
  decide

theorem test_decode_tiles :
    decode (bytesOf 4 0x00014586) = some (.tdef false 5 10, 4)
    ∧ decode (bytesOf 4 0x10000687) = some (.tset true 6, 4)
    ∧ decode (bytesOf 4 0x20035387) = some (.twait true 19 26, 4)
    ∧ decode (bytesOf 4 0x30000186) = some (.trel false 1, 4) := by
  decide

theorem test_decode_versions :
    decode (bytesOf 4 0x0000D98A) = some (.snap false 25 6, 4)
    ∧ decode (bytesOf 4 0x1003EB8A) = some (.ldv false .b false 11 31, 4)
    ∧ decode (bytesOf 4 0x2011228B) = some (.ldvw true 2 9 4, 4)
    ∧ decode (bytesOf 4 0x3083058B) = some (.stv true .h 5 24, 4)
    ∧ decode (bytesOf 4 0x40001F8A) = some (.commit false 31, 4)
    ∧ decode (bytesOf 4 0x5000008A) = some (.abort false, 4)
    ∧ decode (bytesOf 4 0x6000008B) = some (.vretire true, 4) := by
  decide

theorem test_decode_system :
    decode (bytesOf 4 0x005C388E) = some (.ctxsave false 24 1 23, 4)
    ∧ decode (bytesOf 4 0x0045C58E) = some (.ctxsave false 5 14 17, 4)
    ∧ decode (bytesOf 4 0x1071508E) = some (.ctxload false 16 10 28, 4)
    ∧ decode (bytesOf 4 0x1034C68F) = some (.ctxload true 6 6 13, 4)
    ∧ decode (bytesOf 4 0x2045A08F) = some (.tlbi true 13 17, 4)
    ∧ decode (bytesOf 4 0x3071AB8E) = some (.maplid false 11 13 28, 4)
    ∧ decode (bytesOf 4 0x4001A28F) = some (.sysrd true 2 13, 4)
    ∧ decode (bytesOf 4 0x5005208E) = some (.syswr false 9 1, 4)
    ∧ decode (bytesOf 4 0x602BE08E) = some (.prefetch false 31 10, 4) := by
  decide

theorem test_decode_vector_integers :
    decode (bytesOf 4 0x01139492) = some (.vadd false false 2 20 28 4, 4)
    ∧ decode (bytesOf 4 0x09483092) = some (.vsub false false 2 16 1 18, 4)
    ∧ decode (bytesOf 4 0x175F9E93) = some (.vmul true true 6 30 28 23, 4)
    ∧ decode (bytesOf 4 0x19F0DB92) = some (.vmulh false 3 27 6 28, 4)
    ∧ decode (bytesOf 4 0x20C29D93) = some (.vmin true 1 29 20 16, 4)
    ∧ decode (bytesOf 4 0x29FABB93) = some (.vmax true 3 27 21 30, 4)
    ∧ decode (bytesOf 4 0x32E05B92) = some (.vand false 5 27 2 24, 4)
    ∧ decode (bytesOf 4 0x39CF9A93) = some (.vor true 3 26 28 19, 4)
    ∧ decode (bytesOf 4 0x43F61593) = some (.vxor true 7 21 16 29, 4)
    ∧ decode (bytesOf 4 0x4BEC7D92) = some (.vshl false 7 29 3 27, 4)
    ∧ decode (bytesOf 4 0x51F49692) = some (.vshr false 3 22 4 29, 4)
    ∧ decode (bytesOf 4 0x5AAE3093) = some (.vsar true 5 16 17 11, 4)
    ∧ decode (bytesOf 4 0x6102E293) = some (.vabs true false 2 2 23, 4)
    ∧ decode (bytesOf 4 0x689ECB92) = some (.vcmp false 2 3 1 22 7, 4) := by
  decide

theorem test_decode_vector_floats :
    decode (bytesOf 4 0x04C7BB96) = some (.vfadd false true 1 27 29 17, 4)
    ∧ decode (bytesOf 4 0x0BA28996) = some (.vfsub false false 7 9 20 8, 4)
    ∧ decode (bytesOf 4 0x10C2E596) = some (.vfmul false false 1 5 23 16, 4)
    ∧ decode (bytesOf 4 0x1D771897) = some (.vfma true true 2 24 24 29, 4)
    ∧ decode (bytesOf 4 0x27B6B497) = some (.vfms true true 7 20 21 13, 4)
    ∧ decode (bytesOf 4 0x293A0397) = some (.vfnma true false 2 3 16 14, 4)
    ∧ decode (bytesOf 4 0x379EF797) = some (.vfdiv true true 7 23 23 7, 4)
    ∧ decode (bytesOf 4 0x3D00E197) = some (.vfsqrt true true 2 1 7, 4)
    ∧ decode (bytesOf 4 0x42792B97) = some (.vfmin true 4 11 9 30, 4)
    ∧ decode (bytesOf 4 0x4B7B6E97) = some (.vfmax true 6 14 27 30, 4)
    ∧ decode (bytesOf 4 0x51A62997) = some (.vfcmp true 2 1 3 17 9, 4)
    ∧ decode (bytesOf 4 0x59828A96) = some (.vfclass false 3 10 20, 4)
    ∧ decode (bytesOf 4 0x6483DA96) = some (.vfrcp false true 1 26 30, 4)
    ∧ decode (bytesOf 4 0x6B00FE97) = some (.vfrsq true false 6 30 7, 4) := by
  decide

theorem test_decode_vector_conversions :
    decode (bytesOf 4 0x0343249B) = some (.vcvt true false 6 4 25 16, 4)
    ∧ decode (bytesOf 4 0x0A4CE69A) = some (.vscale false false 4 6 7 19, 4)
    ∧ decode (bytesOf 4 0x12EC849B) = some (.vpack true false 5 4 4 27, 4)
    ∧ decode (bytesOf 4 0x19F2739A) = some (.vunpack false 3 19 19 28, 4)
    ∧ decode (bytesOf 4 0x2003D89A) = some (.vcfg false 24 30, 4) := by
  decide

theorem test_decode_vector_moves :
    decode (bytesOf 4 0x0303869E) = some (.vmov false 6 6 28, 4)
    ∧ decode (bytesOf 4 0x0004F99E) = some (.vmovPredToGpr false 25 7, 4)
    ∧ decode (bytesOf 4 0x000AC29F) = some (.vmovGprToPred true 2 22, 4)
    ∧ decode (bytesOf 4 0x08826B9F) = some (.vbcast true 1 11 19, 4)
    ∧ decode (bytesOf 4 0x1063349F) = some (.vext true 20 25 24, 4)
    ∧ decode (bytesOf 4 0x1818D99E) = some (.vins false 25 6 6, 4)
    ∧ decode (bytesOf 4 0x20FC5F9E) = some (.vshuf false 1 31 2 31, 4)
    ∧ decode (bytesOf 4 0x2B7FC29F) = some (.vperm true 6 2 30 31, 4)
    ∧ decode (bytesOf 4 0x337AD69F) = some (.vslide true 6 22 22 30, 4)
    ∧ decode (bytesOf 4 0x38F0FA9E) = some (.vsel false 1 26 7 28, 4)
    ∧ decode (bytesOf 4 0x4202149F) = some (.vcompress true 4 20 16, 4)
    ∧ decode (bytesOf 4 0x4A816C9F) = some (.vexpand true 5 12 11, 4) := by
  decide

theorem test_decode_vector_reductions :
    decode (bytesOf 4 0x078059A2) = some (.vredadd false true 7 25 2, 4)
    ∧ decode (bytesOf 4 0x0900ACA2) = some (.vredmax false 2 12 5, 4)
    ∧ decode (bytesOf 4 0x11810CA2) = some (.vredmin false 3 12 8, 4)
    ∧ decode (bytesOf 4 0x1E3257A2) = some (.vdot false true 4 23 18 12, 4) := by
  decide

theorem test_decode_predicates :
    decode (bytesOf 4 0x000843A6) = some (.pand false 3 2 2, 4)
    ∧ decode (bytesOf 4 0x081441A6) = some (.por false 1 2 5, 4)
    ∧ decode (bytesOf 4 0x100443A7) = some (.pxor true 3 2 1, 4)
    ∧ decode (bytesOf 4 0x1800A4A6) = some (.pnot false 4 5, 4)
    ∧ decode (bytesOf 4 0x200067A7) = some (.pcnt true 7 3, 4)
    ∧ decode (bytesOf 4 0x280042A7) = some (.pfirst true 2 2, 4)
    ∧ decode (bytesOf 4 0x3000A4A7) = some (.pset true 4 5, 4) := by
  decide

theorem test_decode_vector_memory :
    decode (bytesOf 4 0x0185F7AA) = some (.vld false 3 23 15 1, 4)
    ∧ decode (bytesOf 4 0x0A071AAB) = some (.vst true 4 26 24 1, 4)
    ∧ decode (bytesOf 4 0x11116AAA) = some (.vlds false 2 10 11 4, 4)
    ∧ decode (bytesOf 4 0x18C0D6AA) = some (.vsts false 1 22 6 16, 4)
    ∧ decode (bytesOf 4 0x23D114AB) = some (.vgather true false 7 20 8 20, 4)
    ∧ decode (bytesOf 4 0x2B582DAB) = some (.vscatter true false 6 13 1 22, 4)
    ∧ decode (bytesOf 4 0x33CCB4AA) = some (.vscatadd false false 7 20 5 19, 4) := by
  decide

theorem test_decode_copies :
    decode (bytesOf 4 0x029A8AAE) = some (.cpy false 10 20 6 5, 4)
    ∧ decode (bytesOf 4 0x176172AF) = some (.cpym true 18 11 24 14, 4)
    ∧ decode (bytesOf 4 0x23619EAF) = some (.cpyb true 30 12 24 6, 4)
    ∧ decode (bytesOf 4 0x30268BAE) = some (.wmwait false 11 20 9, 4)
    ∧ decode (bytesOf 4 0x491580AE) = some (.spld false 12 5 18, 4)
    ∧ decode (bytesOf 4 0x584360AE) = some (.bankop false 27 16 16, 4) := by
  decide

theorem test_decode_matrix :
    decode (bytesOf 4 0x02CAE5B2) = some (.mma false false false false 5 23 18 5, 4)
    ∧ decode (bytesOf 4 0x4D6E85B6) = some (.mmar false true false false 5 20 27 26, 4)
    ∧ decode (bytesOf 4 0x587789BA) = some (.mmasp false true false true 9 28 29 16, 4)
    ∧ decode (bytesOf 4 0x005619BF) = some (.accrd true 25 16 21, 4)
    ∧ decode (bytesOf 4 0x100011BE) = some (.accz false 17, 4)
    ∧ decode (bytesOf 4 0x2074AABF) = some (.mscl true 10 5 29, 4) := by
  decide

theorem test_decode_ranks :
    decode (bytesOf 4 0x000041C3) = some (.rsort true 1 2, 4)
    ∧ decode (bytesOf 4 0x18D39EC3) = some (.remit true 30 28 20 17, 4)
    ∧ decode (bytesOf 4 0x200CE0C3) = some (.rkseq true 7 3, 4)
    ∧ decode (bytesOf 4 0x3B0F4EC2) = some (.rkarm false 14 26 3 22, 4)
    ∧ decode (bytesOf 4 0x40000AC2) = some (.rkdisarm false 10, 4)
    ∧ decode (bytesOf 4 0x500396C2) = some (.rkres false 22 28, 4)
    ∧ decode (bytesOf 4 0x600366C2) = some (.rkacc false 6 27, 4)
    ∧ decode (bytesOf 4 0x7B83D8C2) = some (.rkdense false 24 30 23, 4)
    ∧ decode (bytesOf 4 0x8187A1C3) = some (.rkgrad true 1 29 1 3, 4) := by
  decide

/-- Reserved encodings: the zero halfword; a sub-operation, a register or a count where the field must be zero; conditions,
orders, sizes and function codes that no row assigns; the unassigned major 0x3F (04 R92, R95 to R102). -/
theorem test_decode_refuses :
    decode (bytesOf 2 0x0000) = none ∧ decode (bytesOf 2 0x0100) = none ∧ decode (bytesOf 2 0x0840) = none
    ∧ decode (bytesOf 2 0x007C) = none
    ∧ decode (bytesOf 4 0x0F000002) = none ∧ decode (bytesOf 4 0x05000006) = none
    ∧ decode (bytesOf 4 0x0400001A) = none ∧ decode (bytesOf 4 0x0018001E) = none
    ∧ decode (bytesOf 4 0x001C0032) = none ∧ decode (bytesOf 4 0x00100036) = none
    ∧ decode (bytesOf 4 0x00002042) = none ∧ decode (bytesOf 4 0x0060004A) = none
    ∧ decode (bytesOf 4 0x0580007A) = none ∧ decode (bytesOf 4 0x00000082) = none
    ∧ decode (bytesOf 4 0x000000FE) = none ∧ decode [2, 0] = none ∧ decode [0x40] = none := by
  decide

/-! ### Small states -/

/-- The machine after reset with general registers of context 0 of core 0 set. -/
def gs (l : List (Reg × Word)) : State := State.reset.modCtx (fun c => l.foldl (fun k e => k.setG e.1 e.2) c)

/-- The same at supervisor level. -/
def supGs (l : List (Reg × Word)) : State := (gs l).modCtx (fun c => { c with stat := { c.stat with sup := true } })

/-- A page of device memory at virtual address 2^40, physical 0x50000, in both TLBs; every stack ready. -/
def paged (s : State) : State :=
  { (s.modCore (fun k => { k with tlb := [⟨0, 2 ^ 40, 65536, 5 * 2 ^ 32 + 59⟩] })) with
    sys := { s.sys with ready0 := BitVec.allOnes 64, lval := true } }

/-- A doubleword of core 0's scratchpad written. -/
def spadW (off : Nat) (w : Word) (s : State) : State := s.wrW (spadKey 0 off) w

theorem witness_scalarResults :
    (gs [(1, 7), (2, 0), (3, 5)]).Clean ∧ (gs [(1, 7), (2, 0), (3, 5)]).ctx.g 1 ≠ 0 ∧ (gs [(1, 7), (2, 0), (3, 5)]).ctx.g 2 = 0
    ∧ binaryRows.length = 25 ∧ compactRows.length = 6 ∧ divisionRows.length = 4 ∧ unaryRows.length = 10 ∧ immediateRows.length = 4 ∧ shiftRows.length = 4
    ∧ Cond.meets .ltu 5 (BitVec.signExtend 64 (-1 : BitVec 11)) ∧ ¬ Cond.meets .lt 5 (BitVec.signExtend 64 (-1 : BitVec 11)) := by
  refine ⟨⟨by decide, by decide⟩, by decide, by decide, rfl, rfl, rfl, rfl, rfl, rfl, ?_, ?_⟩
  · show _ < _; decide
  · show ¬ _ < _; decide

theorem witness_scalarMemory :
    (gs [(2, 64)]).Clean ∧ (gs [(2, 64)]).Local false 64 8 ∧ (gs [(31, 0x17FFF8)]).Local true 0x17FFF8 8 ∧ (gs [(2, 64)]).memOk
    ∧ (∃ h l, (paged (gs [(2, 0x10000000008)])).Far .read false 0x10000000008 8 h l)
    ∧ (∃ h l, (gs [(2, 0x1000200000)]).Far .write false 0x1000200000 8 h l ∧ (gs [(2, 0x1000200000)]).bad h.key 8 = false) := by
  refine ⟨⟨by decide, by decide⟩, by constructor <;> decide, by constructor <;> decide, by unfold State.memOk; decide,
    ⟨.dev 0x50008 false false 0, some ⟨5 * 2 ^ 32 + 59, 4⟩, ?_⟩, ⟨.spad 1 0, none, ?_, by decide⟩⟩
  · exact ⟨rfl, ⟨fun _ h => (nomatch h), fun _ _ h => (nomatch h)⟩, by decide, by decide⟩
  · exact ⟨rfl, ⟨fun off h => absurd (Home.spad.inj h).1 (by decide), fun _ _ h => (nomatch h)⟩, by decide, by decide⟩

theorem witness_control :
    (gs [(1, 6), (2, 7)]).Clean
    ∧ (Cond.meets .ne 6 7 ∧ flag ((gs []).relative (-4 : BitVec 9)) 0 = false) ∧ ¬ Cond.meets .eq (6 : Word) 7
    ∧ (BzCond.meets .gt (6 : Word) ∧ ¬ BzCond.meets .le (6 : Word))
    ∧ flag (((gs []).modCtx (fun c => { c with pc := 1 })).relative (0 : BitVec 24)) 0 = true
    ∧ (flag ((gs [(1, 6)]).ctx.g 1) 0 = false ∧ flag ((gs [(2, 7)]).ctx.g 2) 0 = true)
    ∧ ((gs []).modCore (fun k => { k with mp := 2, m := k.m.set 1 9 })).core.mp.getLsbD 1 = true ∧ (gs []).core.mp.getLsbD 1 = false := by
  refine ⟨⟨by decide, by decide⟩, ⟨?_, by decide⟩, ?_, ⟨?_, ?_⟩, by decide, ⟨by decide, by decide⟩, by decide, by decide⟩
  · show (6 : Word) ≠ 7; decide
  · show ¬ (6 : Word) = 7; decide
  · show 0 < (6 : Word).toInt; decide
  · show ¬ (6 : Word).toInt ≤ 0; decide

/-- A context with a full return-address stack, whose oldest entry is (0x200, 0x1000). -/
def deep (rdep : Nat) : State := (gs [(31, 0x1000)]).modCtx (fun c => { c with ras := List.replicate 16 (0x200, 0x1000), rdep := rdep })

theorem witness_calls :
    (deep 3).Clean ∧ ((gs []).callForms false 2 0).length = 2 ∧ (((gs []).modCore (fun k => { k with mp := 4 })).callForms false 2 0).length = 3
    ∧ (flag ((deep 3).ctx.pc + BitVec.ofInt 64 (2 * (4 : BitVec 24).toInt)) 0 = false ∧ ((deep 3).ctx.g 31).toNat % 8 = 0)
    ∧ (∃ rest, (deep 3).ctx.ras = (0x200, 0x1000) :: rest) ∧ 16 ≤ (deep 3).ctx.ras.length ∧ (deep 3).ctx.rdep < 65535 ∧ (deep 3).Local true 0x1000 8
    ∧ 65535 ≤ (deep 65535).ctx.rdep ∧ (gs [(31, 0x1000)]).ctx.ras.length < 16 ∧ ((gs [(31, 0x1004)]).ctx.g 31).toNat % 8 ≠ 0
    ∧ flag ((gs [(2, 0x201)]).ctx.g 2) 0 = true :=
  ⟨⟨by decide, by decide⟩, rfl, rfl, ⟨by decide, by decide⟩, ⟨_, rfl⟩, by decide, by decide, by constructor <;> decide, by decide, by decide, by decide, by decide⟩

/-- A context whose return-address stack is empty and whose depth is one: its return address is in memory. -/
def spilled : State := spadW 0x1000 0x200 ((gs [(31, 0x1000)]).modCtx (fun c => { c with rdep := 1 }))

theorem witness_returns :
    (∃ older, (deep 3).ctx.ras = older ++ [(0x200, 0x1000)]) ∧ flag (0x200 : Word) 0 = false ∧ flag (0x201 : Word) 0 = true
    ∧ ((gs []).ctx.ras = [] ∧ (gs []).ctx.rdep = 0)
    ∧ (spilled.Clean ∧ spilled.ctx.ras = [] ∧ 0 < spilled.ctx.rdep ∧ spilled.Local true (spilled.ctx.g 31) 8
      ∧ flag (spilled.rdW (spadKey spilled.pid (spilled.ctx.g 31).toNat)) 0 = false) :=
  ⟨⟨List.replicate 15 (0x200, 0x1000), rfl⟩, by decide, by decide, ⟨by decide, by decide⟩, ⟨by decide, by decide⟩, by decide, by decide, by constructor <;> decide, by decide⟩

/-- A running launch of id 1. -/
def launch1 (words : List Word) (map : Tab (Nat × Bool)) : Launch :=
  ⟨1, 0, words, ⟨none, 0, false, 0⟩, 1, map, [], [0], 0, 0, 0, 0, 0, 1⟩

/-- Context 0 of core 0 runs an activation of launch 1. -/
def inLaunch (s : State) (words : List Word) (map : Tab (Nat × Bool)) : State :=
  { s.modCtx (fun c => { c with run := .runnable, act := 1, ident := { c.ident with launch := 1, rectw := 4, recth := 1 } }) with launches := [launch1 words map], nextLaunch := 2, nextAct := 2 }

theorem witness_ends :
    (inLaunch (gs [(1, 9)]) [] []).Clean ∧ (∃ l ∈ (inLaunch (gs [(1, 9)]) [] []).launches, l.id = (inLaunch (gs [(1, 9)]) [] []).ctx.ident.launch.toNat ∧ l.nfail = 0) :=
  ⟨⟨by decide, by decide⟩, ⟨_, List.mem_cons_self, by decide, by decide⟩⟩

theorem witness_waits :
    (gs [(1, 64), (2, 5)]).Clean ∧ (gs [(1, 64), (2, 5)]).cx ≠ 4
    ∧ (gs [(1, 64), (2, 5)]).Watchable 64 (.spad 0 64) none ∧ (gs [(1, 64), (2, 5)]).wordAt (.spad 0 64) ≠ (gs [(1, 64), (2, 5)]).ctx.g 2
    ∧ (gs [(1, 64)]).wordAt (.spad 0 64) = (gs [(1, 64)]).ctx.g 2
    ∧ (paged (gs [(1, 0x10000000000)])).Watchable 0x10000000000 (.dev 0x50000 false false 0) (some ⟨5 * 2 ^ 32 + 59, 4⟩)
    ∧ ((gs []).modCore (fun k => { k with mp := 2 })).core.mp.getLsbD 1 = true ∧ (gs []).core.mp.getLsbD 1 = false
    ∧ ({ gs [] with cx := 4 } : State).cx = 4 ∧ ({ gs [] with cx := 4 } : State).Clean := by
  refine ⟨⟨by decide, by decide⟩, by decide, ⟨rfl, by decide, by decide, by decide, by decide⟩, by decide, by decide,
    ⟨rfl, by decide, by decide, by decide, by decide⟩, by decide, by decide, rfl, ⟨by decide, by decide⟩⟩

theorem witness_specialRegisters :
    (supGs []).Clean ∧ (supGs []).ctx.stat.sup = true ∧ (gs []).ctx.stat.sup = false ∧ 0x100 ≤ (0x104 : BitVec 14).toNat
    ∧ (0x3FFF : BitVec 14).toNat = 0x3FFF ∧ (supGs []).userRegisters.length = 39 ∧ (supGs []).supRegisters.length = 5
    ∧ (writeRows 5).length = 9 ∧ (spaceRows (gs []).ctx.space 5).length = 3
    ∧ Space.valid ⟨0x1000, 0x180000, 0, 0⟩ ∧ Space.valid ⟨0x1000, 0x1400, 0x10000000000, 0⟩ ∧ ¬ Space.valid ⟨0x1001, 0x2000, 0, 0⟩ := by
  refine ⟨⟨by decide, by decide⟩, by decide, by decide, by decide, by decide, rfl, rfl, rfl, rfl, ?_, ?_, ?_⟩
  · unfold Space.valid; decide
  · unfold Space.valid; decide
  · unfold Space.valid; decide

/-- A context that reads a ring of 64 bytes at scratchpad 0: 96 bits in, `n` and `v` in G1 and G2. -/
def ring (lo : Word) (n v : Word) : State := (gs [(1, n), (2, v)]).modCtx (fun c => { c with bb := ⟨0, 0, 96, 512, lo, 64⟩ })

theorem witness_bitBuffer :
    (ring 0 8 3).Clean ∧ (ring 0 8 3).Readable (ring 0 8 3).ctx.bb ∧ ((ring 0 8 3).ctx.g 1).toNat ≤ 64
    ∧ (ring 0 8 3).ctx.bb.pos.toNat + ((ring 0 8 3).ctx.g 1).toNat ≤ (ring 0 8 3).ctx.bb.lim.toNat
    ∧ (ring 0 500 3).ctx.bb.lim.toNat < (ring 0 500 3).ctx.bb.pos.toNat + ((ring 0 500 3).ctx.g 1).toNat
    ∧ ((ring 0 8 3).ctx.bb.ringOk ∧ flag (ring 0 8 3).ctx.bb.lo 0 = false) ∧ ((ring 1 8 3).ctx.bb.ringOk ∧ flag (ring 1 8 3).ctx.bb.lo 0 = true)
    ∧ (fld (0x40 : Word) 63 21 = 0 ∧ fld (0x40 : Word) 5 1 = 0 ∧ (0x80 : Word).toNat % 64 = 0 ∧ fld (0x40 : Word) 20 6 * 64 < (0x80 : Word).toNat ∧ (0x180000 : Word).toNat ≤ 0x180000)
    ∧ ¬ (fld (0x80 : Word) 20 6 * 64 < (0x80 : Word).toNat) := by
  refine ⟨⟨by decide, by decide⟩, ⟨?_, by decide, ?_, by decide⟩, by decide, by decide, by decide, ⟨?_, by decide⟩, ⟨?_, by decide⟩, by decide, by decide⟩
  · unfold BitBuf.ringOk; decide
  · have e : ∀ m, m < 128 → (ring 0 8 3).marked (ring 0 8 3).pid ((ring 0 8 3).ctx.bb.byteOf (96 + m)) 1 = false
        ∧ (ring 0 8 3).ownAlias (spadKey (ring 0 8 3).pid ((ring 0 8 3).ctx.bb.byteOf (96 + m))) 1 = false
        ∧ (ring 0 8 3).bad (spadKey (ring 0 8 3).pid ((ring 0 8 3).ctx.bb.byteOf (96 + m))) 1 = false ∧ (ring 0 8 3).noAcquire := by decide
    intro j h1 h2
    have := e (j - 96) (by have : (ring 0 8 3).ctx.bb.pos.toNat = 96 := by decide
                           omega)
    have hj : 96 + (j - 96) = j := by have : (ring 0 8 3).ctx.bb.pos.toNat = 96 := by decide
                                      omega
    rw [hj] at this
    exact this
  · unfold BitBuf.ringOk; decide
  · unfold BitBuf.ringOk; decide

/-- The same ring with the bits 0, 1, 1, 0, 1 at the position. -/
theorem witness_bitFields :
    ∀ s, s = spadW 8 (0x1600000000) (ring 0 1 3) → s.streamBit s.ctx.bb 96 = false ∧ s.streamBit s.ctx.bb 97 = true
      ∧ s.ctx.bb.pos.toNat + 2 * 1 + 1 + (s.ctx.g 1).toNat ≤ s.ctx.bb.lim.toNat ∧ (s.ctx.g 1).toNat ≤ 31 := by
  intro s h
  subst h
  exact ⟨by decide, by decide, by decide, by decide⟩

theorem witness_bitWrites :
    (((ring 1 5 12).ctx.g 2).toNat ≤ 64 ∧ (ring 1 5 12).ctx.bb.pos.toNat + ((ring 1 5 12).ctx.g 2).toNat ≤ (ring 1 5 12).ctx.bb.lim.toNat)
    ∧ (∀ j, 96 ≤ j → j < 168 → (ring 1 5 12).byteFree ((ring 1 5 12).ctx.bb.byteOf j))
    ∧ ((ring 1 5 12).modCtx (fun c => { c with bb := { c.bb with pos := 97 } })).ctx.bb.pos.toNat % 8 ≠ 0 := by
  refine ⟨⟨by decide, by decide⟩, fun j h1 h2 => ?_, by decide⟩
  have e : ∀ m, m < 72 → (ring 1 5 12).marked (ring 1 5 12).pid ((ring 1 5 12).ctx.bb.byteOf (96 + m)) 1 = false
        ∧ (ring 1 5 12).ownAlias (spadKey (ring 1 5 12).pid ((ring 1 5 12).ctx.bb.byteOf (96 + m))) 1 = false
        ∧ (ring 1 5 12).bad (spadKey (ring 1 5 12).pid ((ring 1 5 12).ctx.bb.byteOf (96 + m))) 1 = false ∧ (ring 1 5 12).noAcquire := by decide
  have := e (j - 96) (by omega)
  rw [show 96 + (j - 96) = j by omega] at this
  exact this

/-- Core 0 has a system handler at 0x4000. -/
def handled (s : State) : State := s.modCore (fun k => { k with shandler := 0x4000 })

theorem witness_systemEntry :
    (handled (gs [])).Clean ∧ (handled (gs [])).SystemReady ∧ Eff.system 3 = true ∧ ¬ (gs []).SystemReady := by
  refine ⟨⟨by decide, by decide⟩, ⟨by decide, by decide⟩, by decide, fun h => absurd h.1 (by decide)⟩

/-- A descriptor for effect 0x100, capture area at 0x2000 of 12 rows. -/
def descriptor : Word := 0x1001000C00002000

/-- A context whose newest frame is at 0x1000: handler 0x3000, effect 0x100, captures at 0x2000. -/
def framed (l : List (Reg × Word)) : State := ((gs l).framePushed 0x1000 0x3000 descriptor).modCtx (fun c => { c with hf := 0x1000 })

theorem witness_perform :
    (framed [(1, 5)]).Clean ∧ (framed [(1, 5)]).raisable 0x100 ∧ Eff.system 0x100 = false
    ∧ (∃ f, (framed [(1, 5)]).search 0 false 0x100 4096 0x1000 = .frame f ∧ f.multi = false ∧ f.cap < 0x180000
      ∧ (framed [(1, 5)]).bad (spadKey 0 f.cap) 8 = false) ∧ (framed [(1, 5)]).deliveryHeld 0 0 { eff := 0x100 } = false
    ∧ ((framed [(1, 5)]).modCore (fun k => { k with chans := [(7, ⟨some 0, true, 0x1000, 0x1400, 0x1000⟩)] })).deliveryHeld 0 0 { eff := 0x100 } = true
    ∧ (framed [(1, 5)]).ctx.regs.getP 0 ≠ 0 ∧ (framed [(1, 5)]).ctx.regs.getP 1 = 0
    ∧ (Eff.listed 0x0D = false ∧ Eff.listed 0x0C = true) := by
  refine ⟨⟨by decide, by decide⟩, Or.inl (by decide), by decide, ⟨_, rfl, by decide, by decide, by decide⟩, by decide, by decide, by decide, by decide, by decide, by decide⟩

theorem witness_handlers :
    goodDescriptor descriptor ∧ ¬ goodDescriptor 0 ∧ (gs []).spanFree 0x1000 32 ∧ (gs []).spanFree 0x2000 8
    ∧ ((0x17FFE0 : Word).toNat % 32 = 0 ∧ (0x17FFE0 : Word).toNat + 32 ≤ 0x180000) ∧ 0x180000 < (0x180000 : Word).toNat + 32
    ∧ (∀ s, s = framed [(1, 0x1000)] → s.ctx.hf ≠ 0 ∧ s.ctx.g 1 = s.ctx.hf ∧ s.ctx.hf.toNat % 32 = 0 ∧ s.spanFree s.ctx.hf.toNat 32
      ∧ (s.frameAt s.pid s.ctx.hf.toNat).malformed = false ∧ (s.frameAt s.pid s.ctx.hf.toNat).busy = false ∧ (s.frameAt s.pid s.ctx.hf.toNat).sys = false
      ∧ s.ctx.hf.toNat < 0x180000 ∧ s.partsFree [((s.frameAt s.pid s.ctx.hf.toNat).cap, 8)])
    ∧ (∀ s, s = ((supGs [(1, 0x1000)]).framePushed 0x1000 0x3000 descriptor).modCtx (fun c => { c with hf := 0x1000, stat := { c.stat with sup := false } }) →
      (s.frameAt s.pid s.ctx.hf.toNat).sys = true ∧ s.ctx.stat.sup = false) := by
  refine ⟨?_, ?_, ?_, ?_, by decide, by decide, fun s h => ?_, fun s h => ?_⟩
  · unfold goodDescriptor; decide
  · unfold goodDescriptor; decide
  · unfold State.spanFree; decide
  · unfold State.spanFree; decide
  · subst h; refine ⟨by decide, by decide, by decide, ?_, by decide, by decide, by decide, by decide, ?_⟩
    · unfold State.spanFree; decide
    · unfold State.partsFree; decide +kernel
  · subst h; exact ⟨by decide, by decide⟩

/-- A context with a live token in G1 for a record at 0x2000 that frame 0x1000 owns, ONCE or MULTI. -/
def live (multi : Bool) : State :=
  (framed [(1, 0x2000 + 16 * W (b2n multi))]).setRec 0 0x2000 { CRec.reset with state := 1, frame := 0x1000, multi := multi, pc := 0x500 }

/-- A context at supervisor level with a live token for the system record in G1. -/
def liveSystem (sup : Bool) : State :=
  (gs [(1, 0x20)]).modCtx (fun c => { c with sysRec := { c.sysRec with state := 1, sup := sup }, stat := { c.stat with sup := sup } })

theorem witness_tokens :
    ((live false).Clean ∧ ((live false).tokenRec 0 0 (live false).ctx ((live false).ctx.g 1)).map (fun t => (t.1, t.2.1.sup, t.2.1.multi, t.2.2))
      = some (false, false, false, 0x2000))
    ∧ ((live true).tokenRec 0 0 (live true).ctx ((live true).ctx.g 1)).map (fun t => (t.1, t.2.1.sup, t.2.1.multi, t.2.1.seglen, t.2.2))
      = some (false, false, true, 0, 0x2000)
    ∧ Tab.get 0 (live false).ctx.origin 0x2000 = 0
    ∧ (((liveSystem true).tokenRec 0 0 (liveSystem true).ctx ((liveSystem true).ctx.g 1)).map (fun t => (t.1, t.2.1.sup)) = some (true, true)
      ∧ (liveSystem true).ctx.stat.sup = true)
    ∧ (((liveSystem false).tokenRec 0 0 (liveSystem false).ctx ((liveSystem false).ctx.g 1)).map (fun t => t.1) = some true ∧ (liveSystem false).ctx.stat.sup = false)
    ∧ ((gs []).tokenRec 0 0 (gs []).ctx ((gs []).ctx.g 1)).isNone = true
    ∧ ((live false).frameAt 0 0x1000).busy = false := by
  refine ⟨⟨⟨by decide, by decide⟩, ?_⟩, ?_, ?_, ⟨?_, ?_⟩, ⟨?_, ?_⟩, ?_, ?_⟩ <;> decide +kernel

/-- The parts of the scratchpad that a token, its return and its discard name can be read at once. -/
theorem witness_tokenParts :
    (∀ m : Bool, (live m).partsFree (tokenParts ((live m).ctx.g 1)) ∧ (live m).partsFree [(0x1000, 32)]
      ∧ ∀ t, (live m).tokenRec 0 0 (live m).ctx ((live m).ctx.g 1) = some t →
        (live m).partsFree ((live m).returnSpans 0 0 t.1 t.2.1 t.2.2) ∧ (live m).partsFree ((live m).discardSpans 0 t.1 t.2.1))
    ∧ (liveSystem true).partsFree (tokenParts ((liveSystem true).ctx.g 1)) ∧ (gs []).partsFree (tokenParts ((gs []).ctx.g 1)) := by
  refine ⟨fun m => ⟨?_, ?_, fun t h => ?_⟩, ?_, ?_⟩
  · unfold State.partsFree; revert m; decide +kernel
  · unfold State.partsFree; revert m; decide +kernel
  · have e : ∀ m : Bool, ∀ t ∈ (live m).tokenRec 0 0 (live m).ctx ((live m).ctx.g 1),
        (live m).partsFree ((live m).returnSpans 0 0 t.1 t.2.1 t.2.2) ∧ (live m).partsFree ((live m).discardSpans 0 t.1 t.2.1) := by
      unfold State.partsFree; decide +kernel
    exact e m t h
  · unfold State.partsFree; decide +kernel
  · unfold State.partsFree; decide +kernel

/-- The words of a launch record of four cores in one row, with EXT 1 everywhere; `det` makes it deterministic. -/
def words4 (det : Bool) : List Word :=
  [0x1000, 0, 0, W (b2n det * 2 ^ 36 + 2 ^ 24 + 4 * 2 ^ 16), 0x100000004, 0x100000001, 0x100000001, 0, 1024, 0, 0, 0, 0, 0, 0, 0]

/-- An activation of a launch of four cores, cores 0 to 3. -/
def four (det parked : Bool) (l : List (Reg × Word)) : State :=
  inLaunch (gs l) (words4 det) [(1, (1, parked)), (2, (2, parked)), (3, (3, parked))]

/-- A SEND descriptor: eight bytes to logical id 1, channel 5. -/
def sendDesc : Word := W (5 * 2 ^ 34 + 2 ^ 20 + 8)

theorem witness_counters :
    (∀ s, s = spadW 0x400 2 (gs [(1, 0x400)]) → s.Clean ∧ s.cx ≠ 4 ∧ s.Watchable 0x400 (.spad 0 0x400) none ∧ s.wordAt (.spad 0 0x400) ≠ 0
      ∧ s.wordAt (.spad 0 0x408) = 0 ∧ s.noAcquire ∧ s.Placed .rmw 0x400 8 (.spad 0 0x400) none ∧ s.homeBad (.spad 0 0x400) 8 = false
      ∧ s.homeDown (.spad 0 0x400) = false ∧ s.rmwFree (.spad 0 0x400) 8 true)
    ∧ (∃ hs t, ((gs [(1, 0x400)]).issued 4).Reads 0x400 hs t ∧ hs.length = 16) ∧ ((gs [(1, 0x400)]).ctx.g 1).toNat % 64 = 0
    ∧ (gs []).ownReqs (gs []).ctx.act = false ∧ ((gs [(1, 0x408)]).ctx.g 1).toNat % 64 ≠ 0 ∧ (gs []).launches.length < 16 := by
  refine ⟨fun s h => ?_, ⟨(List.range 16).map (fun i => (.spad 0 (0x400 + 8 * i), none)), (gs [(1, 0x400)]).issued 4, ?_, rfl⟩, by decide, by decide, by decide, by decide⟩
  · subst h
    refine ⟨⟨by decide, by decide⟩, by decide, ⟨rfl, by decide, by decide, by decide, by decide⟩, by decide +kernel,
      by decide +kernel, by decide, rfl, by decide, by decide, fun _ => ⟨fun _ => by decide, fun off h => by cases h; decide⟩⟩
  · repeat (first | exact rfl | refine ⟨rfl, ⟨by decide, by decide⟩, by decide, by decide, ?_⟩)

theorem witness_barriers :
    (∀ x : Word, x = W (2 ^ 32 + 31) → (four false false []).handleOk x ∧ fld x 43 32 = 1 ∧ fld x 4 0 = 31) ∧ ¬ (four false false []).handleOk 0x20
    ∧ ¬ (four false false []).handleOk (W (4 * 2 ^ 32)) ∧ (65535 : Word).toNat < 65536 ∧ 65536 ≤ (65536 : Word).toNat := by
  refine ⟨fun x h => ?_, ?_, ?_, by decide, by decide⟩
  · subst h; exact ⟨by unfold State.handleOk; decide, by decide, by decide⟩
  · unfold State.handleOk; decide
  · unfold State.handleOk; decide

theorem witness_sends :
    (∀ s, s = four false false [(1, sendDesc), (2, 0x100), (3, 0)] → s.Clean ∧ MessageOk s (s.ctx.g 1) (s.ctx.g 2) (s.ctx.g 3) false
      ∧ s.spanFree (s.ctx.g 2).toNat (fld (s.ctx.g 1) 11 0) ∧ s.resolve 1 1 = (1, false))
    ∧ (four false true []).resolve 1 1 = (1, true) ∧ (four false true []).net.held.length < 32
    ∧ (∀ s, s = four false false [(1, W (7 * 2 ^ 20 + 2 ^ 32 + 64)), (2, 0x140), (3, 0x40)] → MessageOk s (s.ctx.g 1) (s.ctx.g 2) (s.ctx.g 3) true
      ∧ s.spanFree (s.ctx.g 2).toNat (fld (s.ctx.g 1) 11 0))
    ∧ (∀ x, x = (W (2 ^ 20 + 31) : Word) → fld x 63 32 = 0 ∧ fld x 19 5 = 0 ∧ (four false false []).lidBad (fld x 31 20) = false)
    ∧ (∀ x, x = (W (3 * 2 ^ 32 + 2 ^ 16 + 255) : Word) → fld x 63 44 = 0 ∧ fld x 15 8 = 0 ∧ (four false false []).lidBad (fld x 43 32) = false)
    ∧ fld (W (3 * 2 ^ 12) : Word) 15 12 = 3 ∧ (four false false []).lidBad 4 = true := by
  refine ⟨fun s h => ?_, rfl, by decide, fun s h => ?_, fun x h => ?_, fun x h => ?_, by decide, by decide⟩
  · subst h
    refine ⟨⟨by decide, by decide⟩, ⟨by decide, by decide, ?_, by decide, by decide, by decide⟩, ?_, rfl⟩
    · unfold payloadOk; decide
    · unfold State.spanFree; decide
  · subst h
    refine ⟨⟨by decide, by decide, ?_, by decide, by decide, by decide⟩, ?_⟩
    · unfold payloadOk; decide
    · unfold State.spanFree; decide
  · subst h; exact ⟨by decide, by decide, by decide⟩
  · subst h; exact ⟨by decide, by decide, by decide⟩

theorem witness_interface :
    (gs []).cx ≠ 4 ∧ (gs []).ctx.hmask = none ∧ ((gs []).modCtx (fun c => { c with hmask := some 7 })).ctx.hmask = some 7
    ∧ slotWordOk 0xC01 ∧ ¬ slotWordOk 0x10 ∧ ¬ slotWordOk 0xB00 ∧ (63 : Word).toNat < 64 ∧ 64 ≤ (64 : Word).toNat
    ∧ HSlot.advances HSlot.reset 0x2000 1 ∧ ¬ HSlot.advances HSlot.reset 0 1
    ∧ (supGs []).ctx.stat.sup = true ∧ (gs []).ctx.stat.sup = false ∧ (4095 : Word).toNat < 4096 ∧ (0x105 : Word).toNat < 512 ∧ fld (0x105 : Word) 7 6 = 0
    ∧ flag (0x105 : Word) 8 = true ∧ flag (0x05 : Word) 8 = false
    ∧ (((gs []).modCore (fun k => { k with subs := (List.range 16).map (fun i => ⟨i + 1, 0, 0⟩) })).core.subs.filter (fun e => e.tag != 100)).length = 16 := by
  refine ⟨by decide, by decide, by decide, ?_, ?_, ?_, by decide, by decide, ?_, ?_, by decide, by decide, by decide, by decide, by decide, by decide, by decide, by decide⟩
  · unfold slotWordOk; decide
  · unfold slotWordOk; decide
  · unfold slotWordOk; decide
  · unfold HSlot.advances; decide
  · unfold HSlot.advances; decide

/-- The task record at 0x200: entry 0x3000, JOIN 0x400, home logical id 1, with or without DEPS and a count. -/
def taskRec (deps : Bool) (cnt : Nat) (s : State) : State :=
  s.wr (spadKey 0 0x200) (wordsBytes [0x3000, 1, 2, 0x400, 0, W (2 ^ 32 + b2n deps * 2 ^ 12), W cnt, 0])

theorem witness_spawning :
    (∀ s, s = taskRec true 3 (four false false [(1, 0x200)]) → s.Clean ∧ SpawnOk s (s.ctx.g 1) (bytesWords 8 (s.rd (spadKey s.pid 0x200) 64)) (launch1 (words4 false) [(1, (1, false)), (2, (2, false)), (3, (3, false))]))
    ∧ (∀ w, w = ([0x3000, 1, 2, 0x400, 0, W (2 ^ 32 + 2 ^ 12), 3, 0] : List Word) → flag (w.getD 5 0) 12 = true ∧ fld (w.getD 6 0) 31 0 ≠ 0 ∧ fld (w.getD 5 0) 63 32 = 1)
    ∧ (launch1 (words4 false) [(1, (1, false))]).det = false ∧ (launch1 (words4 false) [(1, (1, false))]).coreOf 1 = 1
    ∧ (launch1 (words4 false) [(1, (1, false))]).parked 1 = false
    ∧ ((Tab.get ⟨0, none⟩ ((four false false []).coreAt 1).ptasks 0 : PSlot).task = none ∧ ((four false false []).coreAt 1).deque.length < 64 + (launch1 (words4 false) []).dqsp)
    ∧ ((four false false []).dieAt 0).paddock.foldl (fun n e => n + e.2.length) 0 < 65536
    ∧ (launch1 (words4 true) []).det = true ∧ (four true false []).ctx.byMessage = false ∧ (four true false []).ctx.spawns < 255
    ∧ (launch1 (words4 true) []).parked ((launch1 (words4 true) []).placed 1) = false := by
  refine ⟨fun s h => ?_, fun w h => ?_, by decide, by decide, by decide, ⟨by decide, by decide⟩, by decide, by decide, by decide, by decide, by decide +kernel⟩
  · subst h
    refine ⟨⟨by decide, by decide⟩, ⟨by decide, by decide, ?_, rfl, ?_, by decide +kernel, by decide +kernel, by decide +kernel, by decide⟩⟩
    · unfold State.spanFree; decide
    · unfold taskOk; decide +kernel
  · subst h; exact ⟨by decide, by decide, by decide⟩

theorem witness_forking :
    ∀ s, s = four false false [(1, 0x3000), (4, 0x400)] → s.Clean ∧ s.launchOf 0 0 = some (launch1 (words4 false) [(1, (1, false)), (2, (2, false)), (3, (3, false))])
      ∧ flag (s.ctx.g 1) 0 = false ∧ (s.ctx.g 4).toNat % 8 = 0 ∧ s.ctx.g 4 ≠ 0 ∧ s.ctx.g 5 = 0
      ∧ ¬ s.forkRefused (launch1 (words4 false) [(1, (1, false)), (2, (2, false)), (3, (3, false))])
      ∧ ((four true false []).modCtx (fun c => { c with started := .message 1 })).forkRefused (launch1 (words4 true) [])
      ∧ s.Changes 0x400 (.spad 0 0x400) none ∧ s.ownReqs s.ctx.act = false := by
  intro s h
  subst h
  refine ⟨⟨by decide, by decide⟩, by decide +kernel, by decide, by decide, by decide, by decide, ?_, ?_, ⟨rfl, by decide, by decide, by decide, by decide, by decide +kernel⟩, by decide⟩
  · unfold State.forkRefused; decide +kernel
  · unfold State.forkRefused; decide +kernel

/-- An earlier load of the executing context is in flight, as an acquire or not. -/
def loading (acq : Bool) (s : State) : State :=
  s.post [⟨.dev 0x90000 false false 0, 8⟩] (.load false 9) false acq 0 0x10000040000

theorem witness_atomics :
    (∀ s, s = (gs [(1, 0x400), (2, 5)]).modCtx (fun c => { c with num := { c.num with vt := 0x40 } }) → s.Clean ∧ s.noAcquire
      ∧ s.Placed .rmw (s.ctx.g 1) 8 (.spad 0 0x400) none ∧ s.Placed .rmw (s.ctx.g 1) 4 (.spad 0 0x400) none ∧ fld s.ctx.num.vt 6 4 ≤ 4
      ∧ s.rmwFree (.spad 0 0x400) 8 true)
    ∧ 5 ≤ fld ((gs []).modCtx (fun c => { c with num := { c.num with vt := 0x50 } })).ctx.num.vt 6 4
    ∧ (amoRows false .core .relaxed 3 1 2).length = 11
    ∧ (∃ x, (gs [(1, 0x404)]).locate 0 0 false .rmw 0x404 8 true true = .error x) := by
  refine ⟨fun s h => ?_, by decide, rfl, ⟨_, rfl⟩⟩
  subst h
  exact ⟨⟨by decide, by decide⟩, by decide, rfl, rfl, by decide, fun _ => ⟨fun _ => by decide, fun off h => by cases h; decide⟩⟩

theorem witness_ordered :
    (gs [(2, 64)]).Clean ∧ (gs [(2, 64)]).ownReqs (gs [(2, 64)]).ctx.act = false ∧ (gs [(2, 64)]).Local false 64 8
    ∧ (∃ h l, (paged (gs [(2, 0x10000000008)])).Far .read false 0x10000000008 8 h l)
    ∧ (∃ h l, (paged (gs [(2, 0x10000000008)])).Far .write false 0x10000000008 8 h l ∧ (paged (gs [(2, 0x10000000008)])).bad h.key 8 = false)
    ∧ (loading false (gs [])).ownReqs (loading false (gs [])).ctx.act = true := by
  refine ⟨⟨by decide, by decide⟩, by decide, by constructor <;> decide,
    ⟨.dev 0x50008 false false 0, some ⟨5 * 2 ^ 32 + 59, 4⟩, ?_⟩, ⟨.dev 0x50008 false false 0, some ⟨5 * 2 ^ 32 + 59, 4⟩, ?_, by decide⟩, by decide⟩
  · exact ⟨rfl, ⟨fun _ h => (nomatch h), fun _ _ h => (nomatch h)⟩, by decide, by decide⟩
  · exact ⟨rfl, ⟨fun _ h => (nomatch h), fun _ _ h => (nomatch h)⟩, by decide, by decide⟩

/-- An image of a tile of 2 rows by 4 columns of binary32 at 0x40, rows 64 bytes apart. -/
def tileWords (state : Nat) : List Word := [W (4 * 2 ^ 48 + 2 * 2 ^ 32 + 0x40), W (state * 2 ^ 54 + 2 ^ 24 + 64), 0, 0]

theorem witness_tiles :
    (∀ s, s = (gs [(1, 0x200)]).wr (spadKey 0 0x200) (wordsBytes (tileWords 2)) → s.Clean ∧ (s.ctx.g 1).toNat % 32 = 0 ∧ (s.ctx.g 1).toNat + 32 ≤ 0x180000
      ∧ s.spanFree (s.ctx.g 1).toNat 32 ∧ TileImage (bytesWords 4 (s.rd (spadKey s.pid (s.ctx.g 1).toNat) 32))
      ∧ s.core.tileNamed 7 = false ∧ (s.core.tile 7).fch = 0 ∧ (s.core.tile 7).dcnt = 0)
    ∧ ¬ TileImage (tileWords 1) ∧ ¬ TileImage [0, 0, 0, 0]
    ∧ (0x210 : Word).toNat % 32 ≠ 0 ∧ ((0x180000 : Word).toNat % 32 = 0 ∧ 0x180000 < (0x180000 : Word).toNat + 32)
    ∧ (gs []).core.tile 0 = Tile.reset
    ∧ (∀ k, k = (gs []).core.setTile 3 { Tile.reset with state := 1, fch := 1 } → (k.tile 3).fch ≠ 0 ∧ (k.tile 3).state = 1)
    ∧ (∀ k, k = (gs []).core.setTile 3 { Tile.reset with state := 3, dcnt := 1 } → (k.tile 3).dcnt ≠ 0 ∧ (k.tile 3).state = 3) := by
  refine ⟨fun s h => ?_, fun h => ?_, fun h => ?_, by decide, ⟨by decide, by decide⟩, rfl, fun k h => ?_, fun k h => ?_⟩
  · subst h
    refine ⟨⟨by decide, by decide⟩, by decide, by decide, by unfold State.spanFree; decide, ?_, by decide, by decide, by decide⟩
    constructor <;> decide +kernel
  · exact absurd h.state (by decide)
  · exact absurd h.cols (by decide)
  · subst h; exact ⟨by decide, by decide⟩
  · subst h; exact ⟨by decide, by decide⟩

/-- Context 0 of core 0 has a snapshot open at timestamp 5, its log of four entries at 0x1000, `n` of them used; virtual address 2^40 is a
page of versioned device memory. -/
def snapping (n : Nat) (rvk : Bool) (l : List (Reg × Word)) : State :=
  (((paged (gs l)).modCore (fun k => { k with tlb := [⟨0, 2 ^ 40, 65536, 5 * 2 ^ 32 + 123⟩] })).modCtx (fun c => { c with
    act := 1, tx := ⟨5, true, false, rvk, n, 4, 0x1000, 0⟩ })).wr (spadKey 0 0x1000) (wordsBytes [0x10000000000, 0xFF, 0, 0, 0, 0, 0, 0, 9])

/-- The leaf of that page. -/
def verLeaf : Leaf := ⟨5 * 2 ^ 32 + 123, 4⟩

theorem witness_versions :
    (∀ n, n ∈ [0, 1] → ∀ s, s = snapping n false [(1, 0x10000000008)] → s.Clean ∧ s.noAcquire ∧ s.snapped
      ∧ s.Versioned .read (s.ctx.g 1) 8 0x50008 (some verLeaf) ∧ s.Versioned .write (s.ctx.g 1) 8 0x50008 (some verLeaf)
      ∧ s.readHeld s.pid s.ctx.act (.dev 0x50008 true false 0) 8 = false ∧ s.ctx.tx.logn < s.ctx.tx.lcap ∧ s.spanFree (s.ctx.tx.lbase + 128 * s.ctx.tx.logn) 128 ∧ s.cx ≠ 4
      ∧ ¬ (s.ctx.tx.opened = true ∧ s.ctx.tx.rvk = true))
    ∧ (snapping 0 false []).logFree ∧ (snapping 1 false []).logFree
    ∧ (∃ e, (snapping 1 false []).logOf 0x400000000 = some e ∧ e.1 = 0) ∧ (snapping 1 false []).logOf 0x400000001 = none ∧ (snapping 4 false []).ctx.tx.lcap ≤ 4
    ∧ ((snapping 0 true []).ctx.tx.rvk = true ∧ (gs []).ctx.tx.opened = false)
    ∧ ((snapping 0 false []).vline 0x50000).ts = 0 ∧ (gs []).vers.stable = 0 ∧ (gs [(2, 3)]).ctx.g 2 ≠ 0 := by
  refine ⟨fun n hn s h => ?_, fun i hi => absurd hi (Nat.not_lt_zero i), fun i hi => ?_, ⟨_, rfl, by decide +kernel⟩, by decide +kernel, by decide, ⟨by decide, by decide⟩,
    by decide, by decide, by decide⟩
  · subst h
    simp only [List.mem_cons, List.not_mem_nil, or_false] at hn
    obtain rfl | rfl := hn <;>
    exact ⟨⟨by decide, by decide⟩, by decide, ⟨by decide, by decide⟩, ⟨by decide, by decide, false, 0, rfl⟩,
      ⟨by decide, by decide, false, 0, rfl⟩, by decide, by decide, by unfold State.spanFree; decide, by decide, by decide⟩
  · have e : i = 0 := by have : i < 1 := hi; omega
    subst e
    unfold State.spanFree; decide

theorem witness_transactions :
    (snapping 1 false []).Clean ∧ snapOk (W (2 ^ 32 + 0x17FF80)) ∧ ¬ snapOk (W (2 ^ 32 + 0x17FFC0)) ∧ ¬ snapOk 0
    ∧ ((gs []).ctx.tx.opened = false) ∧ ((snapping 0 false []).ctx.tx.opened = true ∧ (snapping 0 false []).ctx.tx.logn = 0)
    ∧ ((snapping 1 false []).ctx.tx.rvk = false ∧ (snapping 1 false []).ownReqs (snapping 1 false []).ctx.act = false ∧ (snapping 1 false []).ctx.tx.logn ≠ 0)
    ∧ (∃ pas t, pas.length = 1 ∧ ((snapping 1 false []).issued 4).LogPlaced 0 pas t) := by
  refine ⟨⟨by decide, by decide⟩, ?_, ?_, ?_, by decide, ⟨by decide, by decide⟩, ⟨by decide, by decide, by decide⟩,
    ⟨[(0x50000, some verLeaf)], _, rfl, ?_, ⟨false, 0, ?_⟩, rfl⟩⟩
  · unfold snapOk; decide
  · unfold snapOk; decide
  · unfold snapOk; decide
  · unfold State.spanFree; decide
  · rfl

/-- VT, FLAGEN and predicates 1 (lanes 0 and 1) and 2 (none) of context 0 of core 0. -/
def vec (vt : Word) (en : Word) (l : List (Reg × Word)) : State :=
  (paged (gs l)).modCtx (fun c => ({ c with num := { c.num with vt := vt, flagen := en } } : Ctx).setP 1 3)

theorem witness_lanes :
    (∀ s, s = vec 0x0E 0x7F [] → s.Clean ∧ fld s.ctx.num.vt 3 0 = 14 ∧ fld s.ctx.num.vt 6 4 ≤ 5 ∧ (∃ e ∈ [(0, 16), (1, 0)], e.2 &&& fld s.ctx.num.flagen 6 0 ≠ 0))
    ∧ (∀ b, bitOf 16 b = true ↔ ∃ e ∈ [(0, 16), (1, 0)], bitOf e.2 b = true)
    ∧ (∀ e ∈ [(0, 16), (1, 0)], e.2 &&& fld (vec 0x0E 0 []).ctx.num.flagen 6 0 = 0)
    ∧ (∃ op ∈ intLanes ++ floatLanes, op.ok 6 ∧ ¬ op.ok 7 ∧ ¬ op.ok 12) ∧ (∃ op ∈ intLanes ++ floatLanes, op.ok 12 ∧ op.ok 15 ∧ ¬ op.ok 11 ∧ op.rounds = true)
    ∧ fld (vec 0x5E 0 []).ctx.num.vt 6 4 = 5 ∧ 6 ≤ fld (vec 0x6E 0 []).ctx.num.vt 6 4 := by
  refine ⟨fun s h => ?_, fun b => ?_, by decide, ⟨_, List.mem_append_left _ List.mem_cons_self, ?_⟩, ⟨_, List.mem_append_right _ List.mem_cons_self, ?_⟩, by decide, by decide⟩
  · subst h; exact ⟨⟨by decide, by decide⟩, by decide, by decide, by decide⟩
  · have z : bitOf 0 b = false := by simp [bitOf]
    simp [z]
  · decide
  · exact ⟨by decide, by decide, by decide, rfl⟩

theorem witness_compares :
    (vec 6 0 []).Clean ∧ fld (vec 6 0 []).ctx.num.vt 3 0 ≤ 6 ∧ 7 ≤ fld (vec 7 0 []).ctx.num.vt 3 0 ∧ 12 ≤ fld (vec 12 0 []).ctx.num.vt 3 0
    ∧ fld (vec 11 0 []).ctx.num.vt 3 0 < 12 ∧ (5 : BitVec 3).toNat ≤ 5 ∧ 6 ≤ (6 : BitVec 3).toNat
    ∧ intHolds 2 (-1) 0 ∧ ¬ intHolds 2 0 0 ∧ numHolds 1 (numOf 14 0x7FC00000) (numOf 14 0) ∧ numHolds 0 (numOf 14 0x80000000) (numOf 14 0)
    ∧ compareFlag 0 (numOf 14 0x7F800001) (numOf 14 0) = 16 ∧ predRows.length = 7 := by
  refine ⟨⟨by decide, by decide⟩, by decide, by decide, by decide, by decide, by decide, by decide, ?_, ?_, ?_, ?_, by decide, rfl⟩
  · unfold intHolds; decide
  · unfold intHolds; decide
  · unfold numHolds; decide +kernel
  · unfold numHolds; decide +kernel

theorem witness_conversions :
    (vec 0x0E0C 0 [(1, 0x0E0C), (2, 0x0E8C)]).Clean
    ∧ (∀ vt, vt = (vec 0x0E0C 0 []).ctx.num.vt → fld vt 11 8 ≠ 7 ∧ fld vt 6 4 ≤ 5
      ∧ (1 : BitVec 5).toNat < max (fmtWidth (fld vt 3 0)) (fmtWidth (fld vt 11 8)) / min (fmtWidth (fld vt 3 0)) (fmtWidth (fld vt 11 8))
      ∧ max (fmtWidth (fld vt 3 0)) (fmtWidth (fld vt 11 8)) / min (fmtWidth (fld vt 3 0)) (fmtWidth (fld vt 11 8)) ≤ (2 : BitVec 5).toNat)
    ∧ fld (vec 0x70C 0 []).ctx.num.vt 11 8 = 7 ∧ 6 ≤ fld (vec 0xE6C 0 []).ctx.num.vt 6 4
    ∧ (2 ≤ fld (vec 2 0 []).ctx.num.vt 3 0 ∧ fld (vec 6 0 []).ctx.num.vt 3 0 ≤ 6) ∧ fld (vec 1 0 []).ctx.num.vt 3 0 < 2
    ∧ (fld (vec 5 0 []).ctx.num.vt 3 0 ≤ 5 ∧ (1 : BitVec 5).toNat < 2 ∧ 5 < fld (vec 6 0 []).ctx.num.vt 3 0)
    ∧ (∀ x, x = (0x0E5C : Word) → fld x 63 48 = 0 ∧ fld x 15 12 = 0 ∧ flag x 7 = false ∧ fld x 6 4 ≤ 5)
    ∧ (∀ x, x = (0x0E6C : Word) → ¬ (fld x 63 48 = 0 ∧ fld x 15 12 = 0 ∧ flag x 7 = false ∧ fld x 6 4 ≤ 5)) := by
  refine ⟨⟨by decide, by decide⟩, fun vt h => ?_, by decide, by decide, by decide, by decide, by decide, fun x h => ?_, fun x h => ?_⟩
  · subst h; decide
  · subst h; decide
  · subst h; decide

theorem witness_moves :
    (∀ s, s = vec 0x0E 0 [(2, 15), (3, 16)] → s.Clean ∧ (s.ctx.g 2).toNat < 512 / fmtWidth (fld s.ctx.num.vt 3 0)
      ∧ 512 / fmtWidth (fld s.ctx.num.vt 3 0) ≤ (s.ctx.g 3).toNat) ∧ (moveRows 16).length = 6 := by
  refine ⟨fun s h => ?_, rfl⟩
  subst h
  exact ⟨⟨by decide, by decide⟩, by decide, by decide⟩

theorem witness_reductions :
    (∀ s, s = vec 0x0E 0 [] → s.Clean ∧ 12 ≤ fld s.ctx.num.vt 3 0 ∧ fld s.ctx.num.vt 6 4 ≤ 5 ∧ 512 / fmtWidth (fld s.ctx.num.vt 3 0) = 2 ^ 4)
    ∧ fld (vec 6 0 []).ctx.num.vt 3 0 ≤ 6 ∧ floatReductions.length = 3 ∧ intReductions.length = 3
    ∧ (∀ f, f = fld (vec 0x0C 0 []).ctx.num.vt 3 0 → f = 12) ∧ (∀ f, f = fld (vec 7 0 []).ctx.num.vt 3 0 → ¬ (f ≤ 6 ∨ 12 ≤ f) ∧ ¬ (f ≤ 3 ∨ f = 12 ∨ f = 13))
    ∧ 6 ≤ fld (vec 0x6C 0 []).ctx.num.vt 6 4 := by
  refine ⟨fun s h => ?_, by decide, rfl, rfl, fun f h => h, fun f h => ?_, by decide⟩
  · subst h; exact ⟨⟨by decide, by decide⟩, by decide, by decide, by decide⟩
  · subst h; decide

/-- The places of the two active elements of a strided access, 8 bytes at 0x400 and at 2^40 + 0x400. -/
def twoPlaces (a : Word) (leaf : Leaf) : List (Lane × Option Leaf) :=
  [(⟨0, .spad 0 0x400, 0x400⟩, none), (⟨1, .dev 0x50400 false false 0, a + 0x400⟩, some leaf)]

/-- The leaf of the page of `paged`. -/
def pageLeaf : Leaf := ⟨5 * 2 ^ 32 + 59, 4⟩

/-- VT of 64-bit integers with gather limit g. -/
def vt64 (g : Nat) : Word := W (g * 2 ^ 16 + 6)

/-- Element indices 0x80, 0x81 in V2. -/
def indexed (s : State) : State := s.modCtx (fun c => c.setV 2 (BitVec.ofNat 512 (0x81 * 2 ^ 64 + 0x80)))

theorem witness_vectorAccess :
    (∀ s, s = vec (vt64 0) 0 [(1, 0x400), (2, 0x10000000000)] → ∀ acc ∈ [Acc.read, .write, .rmw], s.Clean
      ∧ (∃ t, s.VAccess acc .strided 1 1 2 (twoPlaces 0x10000000000 pageLeaf) t)
      ∧ (∀ e ∈ twoPlaces 0x10000000000 pageLeaf, s.nearFree (s.ew / 8) e.1) ∧ (∀ e ∈ twoPlaces 0x10000000000 pageLeaf, s.bad e.1.home.key (s.ew / 8) = false)
      ∧ ¬ (∀ e ∈ twoPlaces 0x10000000000 pageLeaf, e.1.ea.toNat < 0x180000))
    ∧ (∀ s, s = vec (vt64 0) 0 [(1, 0x400)] → ∃ t, s.VAccess .read .contiguous 1 1 2 [(⟨0, .spad 0 0x400, 0x400⟩, none), (⟨1, .spad 0 0x408, 0x408⟩, none)] t)
    ∧ (∀ s, s = vec (vt64 0) 0 [(1, 0x400)] → ∃ t, s.VAccess .read .contiguous 2 1 2 [] t)
    ∧ (∀ s, s = indexed (vec (vt64 0x81) 0 []) → (∃ t, s.VAccess .rmw (.indexed false) 1 1 2 [(⟨0, .spad 0 0x400, 0x400⟩, none)] t)
      ∧ s.past (.indexed false) 2 1 = true ∧ s.active 1 = [0, 1] ∧ s.past (.indexed false) 2 0 = false) := by
  refine ⟨fun s h acc ha => ?_, fun s h => ?_, fun s h => ?_, fun s h => ?_⟩
  · subst h
    refine ⟨⟨by decide, by decide⟩, ?_, ?_, by decide +kernel, by decide⟩
    · simp only [List.mem_cons, List.not_mem_nil, or_false] at ha
      obtain rfl | rfl | rfl := ha <;>
      exact ⟨_, ⟨by decide, by decide +kernel, (fun h => nomatch h), (fun h => nomatch h), by decide +kernel, ⟨rfl, rfl, rfl⟩⟩⟩
    · intro e he
      simp only [twoPlaces, List.mem_cons, List.not_mem_nil, or_false] at he
      obtain rfl | rfl := he
      · intro off h; cases h; exact ⟨by decide +kernel, by decide +kernel⟩
      · intro off h; exact nomatch h
  · subst h
    exact ⟨_, ⟨by decide, by decide +kernel, (fun h => nomatch h), (fun h => nomatch h), by decide +kernel, ⟨rfl, rfl, rfl⟩⟩⟩
  · subst h
    exact ⟨_, ⟨by decide, by decide +kernel, (fun h => nomatch h), (fun h => nomatch h), by decide +kernel, rfl⟩⟩
  · subst h
    exact ⟨⟨_, ⟨by decide, by decide +kernel, (fun h => nomatch h), (fun h => nomatch h), by decide +kernel, ⟨rfl, rfl⟩⟩⟩, by decide +kernel, by decide +kernel, by decide +kernel⟩

theorem witness_vectorChecks :
    (∀ s, s = vec (vt64 0) 0 [(1, 0x404)] → s.Clean ∧ s.noAcquire ∧ s.active 1 = [] ++ [0, 1]
      ∧ ¬ ((s.elemAddr .contiguous 1 3 0).toNat % (s.ew / 8) = 0 ∧ (s.elemAddr .contiguous 1 3 0).toNat < 2 ^ 52))
    ∧ (∀ s, s = indexed (vec (vt64 0x81) 0 []) → s.active 1 = [0] ++ 1 :: [] ∧ s.past (.indexed true) 2 0 = false ∧ s.past (.indexed true) 2 1 = true
      ∧ ∀ j ∈ s.active 1, (s.elemAddr (.indexed true) 1 2 j).toNat % (s.ew / 8) = 0 ∧ (s.elemAddr (.indexed true) 1 2 j).toNat < 2 ^ 52)
    ∧ (∀ f rm, f = fld (vec 0x4E 0 []).ctx.num.vt 3 0 → rm = fld (vec 0x4E 0 []).ctx.num.vt 6 4 → f = 14 ∧ rm < 5)
    ∧ (∀ f rm, f = fld (vec 6 0 []).ctx.num.vt 3 0 → rm = fld (vec 6 0 []).ctx.num.vt 6 4 → ¬ (f = 4 ∨ f = 5 ∨ (f = 14 ∨ f = 15) ∧ rm < 5)) := by
  refine ⟨fun s h => ?_, fun s h => ?_, fun f rm h g => ?_, fun f rm h g => ?_⟩
  · subst h
    exact ⟨⟨by decide, by decide⟩, by decide, by decide +kernel, by decide +kernel⟩
  · subst h
    exact ⟨by decide +kernel, by decide +kernel, by decide +kernel, by decide +kernel⟩
  · subst h; subst g; decide
  · subst h; subst g; decide

/-- Supervisor level in an activation of a launch of four cores. -/
def supFour (parked : Bool) (l : List (Reg × Word)) : State :=
  (four false parked l).modCtx (fun c => { c with stat := { c.stat with sup := true } })

theorem witness_system :
    (supFour false []).Clean ∧ (supFour false []).ctx.stat.sup = true ∧ (four false false []).ctx.stat.sup = false
    ∧ (∀ y, y = (2 : Word) → fld y 63 2 = 0 ∧ fld y 1 0 ≠ 3) ∧ fld (3 : Word) 1 0 = 3
    ∧ (∀ y, y = (0x50004 : Word) → fld y 63 32 = 0 ∧ fld y 15 3 = 0 ∧ fld y 1 0 ≠ 3 ∧ flag y 2 = true)
    ∧ ((supFour false []).ownReqs (supFour false []).ctx.act = false ∧ (supFour false []).translatedOpen (supFour false []).tlbiSince.1 (supFour false []).tlbiSince.2 = false)
    ∧ (loading false (supGs [])).translatedOpen (loading false (supGs [])).tlbiSince.1 (loading false (supGs [])).tlbiSince.2 = true
    ∧ ((supGs []).modCtx (fun c => { c with run := .stalled (.tlbi 3 2 0 0 0 false) })).tlbiSince = (3, 2)
    ∧ (∃ l, (supFour false []).launch? (fld (W (2 ^ 32 + 3)) 63 32) = some l ∧ l.phase = 1 ∧ fld (W (2 ^ 32 + 3)) 11 0 < l.size)
    ∧ (fld (W (2 ^ 32 + 4096)) 31 12 ≠ 0 ∧ fld (2048 : Word) 62 11 ≠ 0 ∧ (supFour false []).launch? (fld (W (5 * 2 ^ 32)) 63 32) = none)
    ∧ selectorOk 0x105 true ∧ ¬ selectorOk 0x106 true ∧ selectorOk 0x106 false ∧ selectorOk (W (4 * 2 ^ 28 + 0x73)) false ∧ ¬ selectorOk (W (5 * 2 ^ 28 + 0x73)) false := by
  refine ⟨⟨by decide, by decide⟩, by decide, by decide, fun y h => ?_, by decide, fun y h => ?_, ⟨by decide, by decide⟩, by decide, by decide, ⟨_, rfl, by decide, by decide⟩,
    ⟨by decide, by decide, by decide⟩, ?_, ?_, ?_, ?_, ?_⟩
  · subst h; decide
  · subst h; decide
  all_goals (unfold selectorOk; decide)

/-- Context 0 of core 0 at supervisor level in its system handler, with the page at 2^40, 2 MiB long. -/
def handling (l : List (Reg × Word)) : State :=
  let s := paged (gs l)
  (s.modCore (fun k => { k with tlb := [⟨0, 2 ^ 40, 2 ^ 21, 5 * 2 ^ 32 + 59⟩] })).modCtx (fun c => { c with
    run := .runnable, act := 1, stat := { c.stat with sup := true }, sysBusy := true, sysRec := { c.sysRec with state := 1 } })

/-- The same in the system handler's own context, with contexts 0 to 3 free. -/
def savingCore : State :=
  { { handling [] with cx := 4 }.modCtx (fun c => { c with stat := { c.stat with sup := true } }) with pid := 0 }.modCtxAt 0 0 (fun _ => Ctx.reset)

/-- The homes of the 25 pages of a core image at 2^40. -/
def imagePages : List Home := (List.range 25).map (fun i => .dev (0x50000 + 0x10000 * i) false false 0)

theorem witness_save :
    (∀ s, s = handling [(1, 0x10000000000), (2, 0)] → s.Clean ∧ s.ctx.stat.sup = true ∧ s.imageRange (s.ctx.g 1) 4096 1 .write = .ok [.dev 0x50000 false false 0]
      ∧ s.ctx.live s.cx ∧ s.pageReady 4096 (.dev 0x50000 false false 0))
    ∧ (∀ s, s = savingCore → s.Clean ∧ s.ctx.stat.sup = true ∧ s.imageRange 0x10000000000 65536 25 .write = .ok imagePages ∧ s.cx = 4 ∧ s.lowFree s.pid = true
      ∧ s.idsParked s.pid = true ∧ s.coreQuiet s.pid = true ∧ (∀ h ∈ imagePages, s.pageReady 65536 h))
    ∧ (gs []).ctx.stat.sup = false ∧ 2 ≤ (2 : Word).toNat ∧ ((0x800 : Word).toNat % 4096 ≠ 0 ∧ (0x8000 : Word).toNat % 65536 ≠ 0)
    ∧ (supGs []).imageRange 0x10000000000 4096 1 .write = .error 2 ∧ (supGs []).imageRange 0x10000000000 65536 25 .read = .error 2
    ∧ (supGs []).imageRange 0x1000000000 4096 1 .read = .error 3
    ∧ ¬ (paged (gs [])).ctx.live 0 ∧ (∀ d a b, (saveForms false d a b).length = 2 ∧ (loadImageForms false d a b).length = 2) := by
  refine ⟨fun s h => ?_, fun s h => ?_, by decide, by decide, by decide, rfl, rfl, rfl, ?_, fun d a b => ⟨rfl, rfl⟩⟩
  · subst h
    refine ⟨⟨by decide, by decide⟩, by decide, rfl, ?_, ⟨by decide, by decide⟩⟩
    unfold Ctx.live; decide
  · subst h
    refine ⟨⟨by decide, by decide⟩, by decide, rfl, by decide, by decide, by decide, by decide, ?_⟩
    unfold State.pageReady; decide +kernel
  · unfold Ctx.live; decide

/-- A context image at 2^40 for context n of core 0 of launch 5. -/
def imaged (n : Nat) (s : State) : State := s.wr 0x50000 (wordsBytes [W (0xC7A1 * 2 ^ 48 + 2 ^ 40 + n * 2 ^ 32), W (5 * 2 ^ 32)])

theorem witness_loadContext :
    (∀ n, n ∈ [0, 1] → ∀ s, s = imaged n (handling [(1, 0x10000000000)]) → s.Clean ∧ s.imageRange (s.ctx.g 1) 4096 1 .read = .ok [.dev 0x50000 false false 0]
      ∧ s.pagesHeld [.dev 0x50000 false false 0] 4096 = false ∧ s.outstanding s.ctx.act = false
      ∧ ∀ w, w = s.imageWords (.dev 0x50000 false false 0) → fld (w.getD 0 0) 34 32 = n ∧ ((s.issued 4).vacant s.pid n = true ∨ n = s.cx) ∧ fld (w.getD 1 0) 10 0 = s.pid
        ∧ s.imageAway n w = false ∧ goodHeader w ∧ s.imageBad [.dev 0x50000 false false 0] 0 4096 = false ∧ flag (w.getD 0 0) 0 = false)
    ∧ (∀ w : List Word, w = [W (0xC7A1 * 2 ^ 48 + 2 ^ 40 + 4 * 2 ^ 32), 0] → 4 ≤ fld (w.getD 0 0) 34 32) ∧ ¬ goodHeader [] ∧ ¬ goodCoreHeader (fun _ => 0) := by
  refine ⟨fun n hn s h => ?_, fun w h => ?_, fun h => absurd h.1 (by decide), fun h => absurd h.1 (by decide)⟩
  · subst h
    simp only [List.mem_cons, List.not_mem_nil, or_false] at hn
    obtain rfl | rfl := hn <;>
    exact ⟨⟨by decide, by decide⟩, rfl, by decide, by decide, fun w h => by
      subst h
      exact ⟨by decide +kernel, by decide +kernel, by decide +kernel, by decide +kernel, by unfold goodHeader countsOk; decide +kernel, by decide +kernel, by decide +kernel⟩⟩
  · subst h; decide

/-- The bytes that save number 0 wrote in a device-layout area. -/
def layoutBytes (e : Nat × Nat) : List Byte := (List.range e.2).map (fun i => Config.deviceLayout 0 (e.1 + i))

/-- Two header words at physical address 0x50000. -/
def headed : State := savingCore.wr 0x50000 (wordsBytes [W (0xC7A2 * 2 ^ 48 + 2 ^ 40), W (5 * 2 ^ 32)])

/-- The device layouts of save number 0 written after them. -/
def laidOut (l : List (Nat × Nat)) (s : State) : State := l.foldl (fun s e => s.wr (0x50000 + e.1) (layoutBytes e)) s

def registered (s : State) : State := { s with images := [⟨0, 0, 5, Core.reset, false⟩] }

/-- A core image of launch 5 on core 0, saved with number 0, at 2^40. -/
def coreImaged : State := registered (laidOut deviceAreas headed)

theorem registered_imageRd (s : State) (off n : Nat) (h : off < 0x10000) : (registered s).imageRd imagePages off n = s.rd (0x50000 + off) n := by
  unfold State.imageRd
  rw [Nat.div_eq_of_lt h, Nat.mod_eq_of_lt h]
  rfl

theorem layoutBytes_length (e : Nat × Nat) : (layoutBytes e).length = e.2 := by simp [layoutBytes]

/-- What areas written in order read as, when each starts past the end of those before it and before `lo`. -/
theorem rd_areas (l : List (Nat × Nat)) : ∀ (s : State), s.memOk → l.Pairwise (fun x y => x.1 + x.2 ≤ y.1) →
    (laidOut l s).memOk ∧ (∀ lo n, (∀ e ∈ l, lo + n ≤ 0x50000 + e.1 ∨ 0x50000 + e.1 + e.2 ≤ lo) → (laidOut l s).rd lo n = s.rd lo n)
    ∧ (∀ e ∈ l, (laidOut l s).rd (0x50000 + e.1) e.2 = layoutBytes e) := by
  unfold laidOut
  induction l with
  | nil => exact fun s h _ => ⟨h, fun _ _ _ => rfl, fun _ h => absurd h List.not_mem_nil⟩
  | cons x l ih =>
    intro s h hp
    rw [List.pairwise_cons] at hp
    obtain ⟨h1, h2, h3⟩ := ih (s.wr (0x50000 + x.1) (layoutBytes x)) (Memory.wf_wrs _ _ _ h) hp.2
    refine ⟨h1, fun lo n hl => ?_, fun e he => ?_⟩
    · rw [List.foldl_cons, h2 lo n (fun e he => hl e (List.mem_cons_of_mem _ he))]
      exact Memory.rds_wrs_disjoint _ _ _ _ _ h (by rw [layoutBytes_length]; exact hl x List.mem_cons_self)
    · rw [List.foldl_cons]
      rcases List.mem_cons.mp he with rfl | he
      · rw [h2 _ _ (fun y hy => Or.inl (by have := hp.1 y hy; omega))]
        have := rds_wrs_same s.mem (0x50000 + e.1) (layoutBytes e) h
        rwa [layoutBytes_length] at this
      · exact h3 e he

/-- A word of the core image outside the device layouts and past the header is zero. -/
theorem coreImaged_zero (off : Nat) (h : 16 ≤ off) (hl : off < 0x1200) (hd : ∀ e ∈ deviceAreas, off + 8 ≤ e.1 ∨ e.1 + e.2 ≤ off) :
    coreImaged.coreWord imagePages off = 0 := by
  have ok : headed.memOk := by unfold State.memOk; decide +kernel
  obtain ⟨-, hr, -⟩ := rd_areas deviceAreas headed ok (by decide)
  unfold State.coreWord coreImaged
  rw [registered_imageRd _ _ _ (by omega), hr _ _ (fun e he => by have := hd e he; omega)]
  have e : headed.rd (0x50000 + off) 8 = savingCore.rd (0x50000 + off) 8 :=
    Memory.rds_wrs_disjoint savingCore.mem _ _ _ _ (by decide) (Or.inr (by
      have : (wordsBytes [W (0xC7A2 * 2 ^ 48 + 2 ^ 40), W (5 * 2 ^ 32)]).length = 16 := by decide
      omega))
  rw [e]
  rfl

theorem areas_apart (off : Nat) (h : 0x600 ≤ off ∧ off + 8 ≤ 0xD00 ∨ 0xE00 ≤ off ∧ off + 8 ≤ 0x1200) :
    ∀ e ∈ deviceAreas, off + 8 ≤ e.1 ∨ e.1 + e.2 ≤ off := by
  intro e he
  simp only [deviceAreas, List.mem_cons, List.not_mem_nil, or_false] at he
  obtain rfl | rfl | rfl | rfl | rfl := he <;> (dsimp only; omega)

theorem witness_loadCore :
    coreImaged.imageRange 0x10000000000 65536 25 .read = .ok imagePages ∧ coreImaged.pagesHeld imagePages 65536 = false
    ∧ coreImaged.cx = 4 ∧ coreImaged.lowFree coreImaged.pid = true ∧ coreImaged.Clean ∧ coreImaged.ctx.stat.sup = true
    ∧ fld (coreImaged.coreWord imagePages 0) 10 0 = coreImaged.pid ∧ goodCoreHeader (coreImaged.coreWord imagePages)
    ∧ (∃ e, coreImaged.images.find? (fun e => e.pid == coreImaged.pid && e.launch == fld (coreImaged.coreWord imagePages 8) 63 32) = some e
      ∧ coreImaged.layoutsOf imagePages e.serial = true) ∧ coreImaged.imageBad imagePages 0 65536 = false := by
  have ok : headed.memOk := by unfold State.memOk; decide +kernel
  obtain ⟨-, hr, ha⟩ := rd_areas deviceAreas headed ok (by decide)
  have w0 : coreImaged.coreWord imagePages 0 = W (0xC7A2 * 2 ^ 48 + 2 ^ 40) := by
    unfold State.coreWord coreImaged
    rw [registered_imageRd _ _ _ (by decide), hr _ _ (by decide)]
    decide +kernel
  have w8 : coreImaged.coreWord imagePages 8 = W (5 * 2 ^ 32) := by
    unfold State.coreWord coreImaged
    rw [registered_imageRd _ _ _ (by decide), hr _ _ (by decide)]
    decide +kernel
  refine ⟨rfl, ?_, rfl, rfl, ⟨rfl, rfl⟩, rfl, ?_, ?_, ⟨⟨0, 0, 5, Core.reset, false⟩, ?_, ?_⟩, ?_⟩
  · decide +kernel
  · rw [w0]; decide
  · have z : ∀ off, 16 ≤ off → off < 0x1200 → (∀ e ∈ deviceAreas, off + 8 ≤ e.1 ∨ e.1 + e.2 ≤ off) → coreImaged.coreWord imagePages off = 0 := coreImaged_zero
    unfold goodCoreHeader
    rw [w0, w8, z 0x20 (by decide) (by decide) (by decide), z 0x28 (by decide) (by decide) (by decide), z 0x30 (by decide) (by decide) (by decide)]
    refine ⟨by decide, by unfold countsOk; decide, by decide, fun n hn => ?_, fun n hn => ?_, fun n hn => ?_, fun n hn => ?_, fun n hn => ?_⟩
    · have a : ∀ k < 4, coreImaged.coreWord imagePages (0x600 + 32 * n + 8 * k) = 0 := fun k hk => z _ (by omega) (by omega) (areas_apart _ (by omega))
      have a0 := a 0 (by decide); have a1 := a 1 (by decide); have a2 := a 2 (by decide); have a3 := a 3 (by decide)
      simp only [Nat.mul_zero, Nat.add_zero, Nat.mul_one, Nat.reduceMul] at a0 a1 a2 a3
      rw [a0, a1, a2, a3]
      rfl
    · have a : ∀ k < 2, coreImaged.coreWord imagePages (0xA00 + 16 * n + 8 * k) = 0 := fun k hk => z _ (by omega) (by omega) (areas_apart _ (by omega))
      have a0 := a 0 (by decide); have a1 := a 1 (by decide)
      simp only [Nat.mul_zero, Nat.add_zero, Nat.mul_one] at a0 a1
      rw [a0, a1]
      rfl
    · rw [z _ (by omega) (by omega) (areas_apart _ (by omega))]; rfl
    · exact z _ (by omega) (by omega) (areas_apart _ (by omega))
    · have a : ∀ k < 2, coreImaged.coreWord imagePages (0xE00 + 16 * n + 8 * k) = 0 := fun k hk => z _ (by omega) (by omega) (areas_apart _ (by omega))
      have a0 := a 0 (by decide); have a1 := a 1 (by decide)
      simp only [Nat.mul_zero, Nat.add_zero, Nat.mul_one] at a0 a1
      rw [a0, a1]
      rfl
  · rw [w8]; rfl
  · unfold State.layoutsOf
    rw [List.all_eq_true]
    intro e he
    have hlt : e.1 < 0x10000 := by revert e; decide
    have : coreImaged.imageRd imagePages e.1 e.2 = layoutBytes e := by
      unfold coreImaged
      rw [registered_imageRd _ _ _ hlt]
      exact ha e he
    rw [this]
    exact beq_self_eq_true _
  · decide +kernel

theorem witness_copy :
    (∀ s, s = four false false [(1, 0x10000000000), (2, 0x17FFC0), (3, 64), (4, W (2 ^ 43 + 31 * 2 ^ 38 + 64))] → s.Clean
      ∧ firstFault (copyChecks s false 7 (s.ctx.g 1) (s.ctx.g 2) (s.ctx.g 3)) = none ∧ firstFault (copyChecks s true 7 (s.ctx.g 1) (s.ctx.g 2) (s.ctx.g 4)) = none
      ∧ s.copyRoom 7 ∧ (s.resolve s.ctx.ident.launch.toNat (fld (s.ctx.g 4) 54 43)).2 = false
      ∧ (∃ r, firstFault (copyChecks s false 7 (s.ctx.g 1) (s.ctx.g 2) 128) = some r) ∧ (∃ r, firstFault (copyChecks s true 8 (s.ctx.g 1) (s.ctx.g 2) 64) = some r))
    ∧ ¬ ((gs []).modCore (fun k => { k with chans := [(0, { Chan.reset with copy := some 0 })] })).copyRoom 0 := by
  refine ⟨fun s h => ?_, ?_⟩
  · subst h
    refine ⟨⟨by decide, by decide⟩, by decide +kernel, by decide +kernel, ?_, by decide +kernel, ⟨_, rfl⟩, ⟨_, rfl⟩⟩
    unfold State.copyRoom; decide
  · unfold State.copyRoom; decide

theorem witness_multicast :
    (∀ s, s = four false false [(1, 0x1000), (2, 0x40), (3, W (6 * 2 ^ 37 + 64))] → s.Clean ∧ firstFault (cpymChecks s 7 (s.ctx.g 1) (s.ctx.g 2) (s.ctx.g 3)) = none ∧ s.copyRoom 7
      ∧ s.cpymCores (s.ctx.g 3) = [(1, clusterCore 0 1), (2, clusterCore 0 2)]
      ∧ (∃ r, firstFault (cpymChecks s 7 (s.ctx.g 1) (s.ctx.g 2) (W (2 ^ 25 + 64))) = some r ∧ r.eff = 2)) := by
  intro s h
  subst h
  refine ⟨⟨by decide, by decide⟩, by decide +kernel, ?_, by decide +kernel, ⟨_, rfl, by decide⟩⟩
  unfold State.copyRoom; decide

/-- Channel 7 of core 0 is copying into 0x1000 to 0x1400, its watermark at 0x1040. -/
def copying (s : State) : State := s.modCore (fun k => { k with chans := [(7, ⟨some 0, true, 0x1000, 0x1400, 0x1040⟩)] })

theorem witness_marks :
    (copying (gs [(1, 0x1040), (2, 0x1041)])).Clean ∧ (copying (gs [])).cx ≠ 4 ∧ 8 ≤ (8 : Reg).toNat ∧ (7 : Reg).toNat < 8
    ∧ (∀ e v, (copying (gs [])).ctx.run ≠ .stalled (.wmEnd e v)) ∧ ((gs []).modCtx (fun c => { c with run := .stalled (.wmEnd 3 2) })).ctx.run = .stalled (.wmEnd 3 2)
    ∧ (Tab.get Chan.reset (copying (gs [])).core.chans 7).copy = some 0 ∧ (Tab.get Chan.reset (copying (gs [])).core.chans 6).copy = none
    ∧ (∀ s, s = gs [(1, 0x17FFC0), (2, 0x7FC0), (3, 64)] → (s.ctx.g 1).toNat % 64 = 0 ∧ (s.ctx.g 2).toNat + (s.ctx.g 3).toNat ≤ 32768
      ∧ (s.ctx.g 1).toNat + (s.ctx.g 3).toNat ≤ 0x180000 ∧ s.marked s.pid (s.ctx.g 1).toNat (s.ctx.g 3).toNat = false
      ∧ s.ownAlias (spadKey s.pid (s.ctx.g 1).toNat) (s.ctx.g 3).toNat = false ∧ s.bad (spadKey s.pid (s.ctx.g 1).toNat) (s.ctx.g 3).toNat = false ∧ s.core.unit.mat.cmds = [])
    ∧ (∀ z, z = (0x11 : Word) → bankWordOk z ∧ flag z 4 = true) ∧ (∀ z, z = W (255 * 2 ^ 16 + 2) → bankWordOk z ∧ flag z 4 = false) ∧ ¬ bankWordOk 3
    ∧ (gs []).rowOf 0x17FFC0 = some (0, 0x17FFC0) ∧ (gs []).rowOf 0x1000200000 = some (1, 0) ∧ (gs []).rowOf 0x10000000000 = none
    ∧ (gs []).bad (spadKey 1 0) 64 = false ∧ (gs []).noAcquire
    ∧ 8 < ((gs []).modCtx (fun c => { c with qs := [(10, List.replicate 9 0)] }) |>.queue 0 0 10).length + (gs []).fetching 0 := by
  refine ⟨⟨by decide, by decide⟩, by decide, by decide, by decide, fun e v h => (nomatch h), rfl, by decide, by decide, fun s h => ?_, fun z h => ?_, fun z h => ?_, ?_,
    by decide, by decide, by decide, by decide, by decide, by decide⟩
  · subst h
    exact ⟨by decide, by decide, by decide, by decide, by decide, by decide, by decide⟩
  · subst h; unfold bankWordOk; decide
  · subst h; unfold bankWordOk; decide
  · unfold bankWordOk; decide

/-- A READY tile of one row of 16 columns at a base. -/
def ready (fmt base : Nat) : Tile := { Tile.reset with cols := 16, rows := 1, base := base, state := 2, fmt := fmt, estride := 1, rstride := 128 }

/-- Core 0 has tiles of INT8 (1, 2), INT32 (3), UINT16 (4, 5), FP32 (6, 7), a FILLING one (8) and INT64 (9), apart; context 0 an activation of a launch. -/
def tiled (l : List (Reg × Word)) : State :=
  (four false false l).modCore (fun k => { k with tiles :=
    [(1, ready 0 0), (2, ready 0 0x100), (3, ready 4 0x200), (4, ready 3 0x300), (5, ready 3 0x400), (6, ready 14 0x500), (7, ready 14 0x600)
     , (8, { ready 0 0x700 with state := 1, fch := 1 }), (9, ready 6 0x800)] })

/-- The queues q of context 0 hold 16 entries. -/
def fullQ (q : Nat) (s : State) : State := s.modCtx (fun c => { c with qs := [(q, List.replicate 16 0)] })

theorem witness_matrix :
    (tiled []).Clean ∧ (∀ k, k = (tiled []).core → firstHurdle (matHurdles k false 3 1 2 0) = none ∧ (∃ h, firstHurdle (matHurdles k false 3 1 3 0) = some h)
      ∧ (∃ h, firstHurdle (matHurdles k false 3 8 2 0) = some h) ∧ firstHurdle (accrdHurdles k 4 3 0) = none ∧ (∃ h, firstHurdle (accrdHurdles k 4 1 0) = some h)
      ∧ firstHurdle (acczHurdles k 3) = none ∧ (∃ h, firstHurdle (acczHurdles k 1) = some h) ∧ firstHurdle (msclHurdles k 3 0) = none ∧ (∃ h, firstHurdle (msclHurdles k 3 2) = some h))
    ∧ ((tiled []).queue 0 0 0).length < 16 ∧ 16 ≤ ((fullQ 0 (tiled [])).queue 0 0 0).length ∧ (∀ a b c d, (products false false false false a b c d).length = 3) := by
  refine ⟨⟨by decide, by decide⟩, fun k h => ?_, by decide, by decide, fun a b c d => rfl⟩
  subst h
  exact ⟨rfl, ⟨_, rfl⟩, ⟨_, rfl⟩, rfl, ⟨_, rfl⟩, rfl, ⟨_, rfl⟩, rfl, ⟨_, rfl⟩⟩

/-- Sequence slot 0 of core 0 holds one entry of 2^15. -/
def sequenced (s : State) : State := s.modCore (fun k => { k with unit := { k.unit with rank := { k.unit.rank with seqs := [(0, ⟨false, [2 ^ 15]⟩)] } } })

theorem witness_rankPush :
    (∀ s, s = sequenced (tiled []) → ∀ k, k = s.core → firstHurdle (rsortHurdles k 4 1) = none ∧ (∃ h, firstHurdle (rsortHurdles k 3 1) = some h)
      ∧ firstHurdle ([ill (backwardWord s false 16) 16] ++ tileHurdles k 6 ++ tileHurdles k 4 ++ backwardHurdles [(6, k.tile 6)] (4, k.tile 4) []) = none
      ∧ backwardWord s false (W (2 ^ 16 + 1)) = true
      ∧ firstHurdle ([ill (backwardWord s true 16) 16] ++ tileHurdles k 6 ++ tileHurdles k 4 ++ tileHurdles k 7
          ++ backwardHurdles [(6, k.tile 6)] (4, k.tile 4) [(7, k.tile 7)]) = none
      ∧ (∃ h, firstHurdle (backwardHurdles [(6, k.tile 6)] (4, k.tile 4) [(6, k.tile 6)]) = some h))
    ∧ ((tiled []).queue 0 0 4).length < 16 ∧ 16 ≤ ((fullQ 4 (tiled [])).queue 0 0 4).length := by
  refine ⟨fun s hs k hk => ?_, by decide, by decide⟩
  subst hs
  subst hk
  exact ⟨by rfl, ⟨_, by rfl⟩, by decide +kernel |> fun (h : (firstHurdle _).isNone = true) => Option.isNone_iff_eq_none.mp h, by decide +kernel,
    by decide +kernel |> fun (h : (firstHurdle _).isNone = true) => Option.isNone_iff_eq_none.mp h, ⟨_, by rfl⟩⟩

/-- Stream 1 of core 0 is in a state, with a queue and results that wait. -/
def streaming (state : Nat) (results : List (Word × Option Word)) (s : State) : State :=
  s.setStream 0 1 { Strm.reset with state := state, tw := (s.core.tile 1), sums := [5, -5], results := results }

theorem witness_rankStreams :
    (∀ s, s = sequenced (tiled [(2, 0), (3, 1), (4, 0x1000)]) → s.Clean ∧ firstHurdle (s.remitHurdles 4 0 0 1) = none ∧ (∃ h, firstHurdle (s.remitHurdles 4 0 0 4) = some h)
      ∧ (s.emitTargets 0 1).map (fun n => s.resolve 1 n) = [(1, false)]
      ∧ firstHurdle (s.armHurdles 1 1 0 0) = none ∧ (∃ h, firstHurdle (s.armHurdles 4 1 0 0) = some h) ∧ (∃ l, s.launchOf s.pid s.cx = some l)
      ∧ firstHurdle (s.streamHurdles 1 false) = none ∧ (s.stream s.pid 1).state = 0 ∧ (∃ h, firstHurdle (s.streamHurdles 1 true) = some h))
    ∧ (∀ s, s = streaming 2 [] (tiled []) → firstHurdle (s.streamHurdles 1 true) = none ∧ (s.stream s.pid 1).state ≠ 0 ∧ (s.stream s.pid 1).results = []
      ∧ (s.queue s.pid s.cx 6).length ≤ 14 ∧ s.core.tile 9 = ready 6 0x800 ∧ firstHurdle (tileHurdles s.core 9) = none
      ∧ (∀ o ∈ ((List.range (s.stream s.pid 1).sums.length).zip (s.stream s.pid 1).sums).map (s.accOut (s.stream s.pid 1) (s.core.tile 9)), o.fl &&& fld s.ctx.num.flagen 6 0 = 0))
    ∧ ((streaming 2 [(1, none)] (tiled [])).stream 0 1).results ≠ [] ∧ 14 < (((tiled []).modCore (fun k => { k with qs := [(6, List.replicate 16 0)] })).queue 0 0 6).length
    ∧ (∀ s, s = ((tiled [(1, 0x1000), (2, 3)]).wr (spadKey 0 0x1000) (bytesOf 2 1)).wr (spadKey 0 0x1040) (bytesOf 2 0x8000) →
      firstHurdle (s.seqHurdles (s.ctx.g 1) (s.ctx.g 2)) = none ∧ ∃ h, firstHurdle (s.seqHurdles (s.ctx.g 1) 4) = some h) := by
  refine ⟨fun s h => ?_, fun s h => ?_, by decide, by decide, fun s h => ?_⟩
  · subst h
    refine ⟨⟨by decide, by decide⟩, by rfl, ⟨_, by rfl⟩, by rfl, by rfl, ⟨_, by rfl⟩, ⟨_, rfl⟩, by rfl, by rfl, ⟨_, by rfl⟩⟩
  · subst h
    refine ⟨by rfl, by decide, by rfl, by decide, by rfl, by rfl, by decide +kernel⟩
  · subst h
    exact ⟨by decide +kernel |> fun (h : (firstHurdle _).isNone = true) => Option.isNone_iff_eq_none.mp h, ⟨_, by rfl⟩⟩

/-- One packet from context 0 of core 0 to core 1 is in flight. -/
def packet (b : Body) (s : State) : State := s.modNet (fun n => { n with pkts := [⟨0, 0, 0, 0, 1, b, false, none⟩] })

/-- A message on channel 5, with or without a landing. -/
def message (land : Option (Nat × Nat × List Byte)) (sib : Option Sib) : Msg := ⟨0, 0, 0, 0, 0, 5, 0, some 1, 1, land, [7], sib, false⟩

/-- Core 1 takes messages on channel 5, bound to queue qb. -/
def listening (qb : Nat) (prio : Bool) (s : State) : State :=
  s.modCoreAt 1 (fun k => { k with ht := [(5, { HSlot.reset with rpc := 0x3000, lnch := 1, qb := qb, prio := prio, valid := true })] })

/-- Messages are pending at core 1. -/
def pending (l : List Msg) (s : State) : State := s.modCoreAt 1 (fun k => { k with pending := l })

/-- An earlier child of the join that a deterministic task takes part in still runs. -/
def child (path : Nat) (s : State) : State :=
  s.modCtxAt 2 0 (fun c => { c with run := .runnable, act := 9, started := .task 1 0x400 0 0 path, path := path })

theorem arrives (b : Body) : ((packet b (gs [])).Arrives 0 ⟨0, 0, 0, 0, 1, b, false, none⟩) :=
  ⟨rfl, fun q h => absurd h List.not_mem_nil, fun r h => absurd h List.not_mem_nil, fun r h => absurd h List.not_mem_nil,
    fun _ => ⟨fun q h => absurd h List.not_mem_nil, by show 0 < 8; decide⟩⟩

theorem witness_arrival :
    (∀ land, land ∈ [none, some (0, 0x17FFF8, bytesOf 8 5)] → ∀ s, s = listening 0 false (packet (.msg (message land none)) (gs [])) →
      s.Arrives 0 ⟨0, 0, 0, 0, 1, .msg (message land none), false, none⟩ ∧ s.Accepts 1 (message land none) (message land none))
    ∧ (32 ≤ ((pending (List.replicate 32 (message none none)) (gs [])).coreAt 1).pending.length)
    ∧ ((gs []).coreAt 1).received { message none none with cast := true } = none
    ∧ (((gs []).coreAt 1).received (message none none) = some (message none none) ∧ (((gs []).coreAt 1).slot 5).valid = false)
    ∧ (((gs []).modCoreAt 1 (fun k => { k with chans := [(0, ⟨some 0, true, 0x100, 0x200, 0x140⟩)] })).marked 1 0x180 8 = true
      ∧ (gs []).marked 1 0x180 8 = false ∧ 0x180000 < 0x17FFFC + (transform 0 (bytesOf 8 5)).1.length)
    ∧ ((child 3 (four true false [])).sibHeld ⟨1, 0x400, 7⟩ = true ∧ (child 3 (four true false [])).sibHeld ⟨1, 0x400, 3⟩ = false) := by
  refine ⟨fun land hl s h => ?_, by decide, rfl, ⟨rfl, by decide⟩, ⟨by decide, by decide, by decide⟩, by decide +kernel, by decide +kernel⟩
  subst h
  exact ⟨⟨rfl, fun q h => absurd h List.not_mem_nil, fun r h => absurd h List.not_mem_nil, fun r h => absurd h List.not_mem_nil,
      fun _ => ⟨fun q h => absurd h List.not_mem_nil, by show 0 < 8; decide⟩⟩,
    ⟨by show 0 < 32; decide, rfl, rfl, rfl⟩⟩

theorem witness_results :
    (∀ v ∈ [Val.g 5, .err ⟨6, 0, 0, 1, false⟩ 0], ∀ s, s = (four false false []).modNet (fun n => { n with results := [⟨0, 0, 1, .g 3, v⟩] }) →
      s.net.results[0]? = some ⟨0, 0, 1, .g 3, v⟩ ∧ s.runs 0 0 1 ∧ ¬ s.runs 0 0 2)
    ∧ (∀ s, s = (four false false []).modCore (fun k => { k with pops := [⟨13, 0, 1, 3⟩], qs := [(13, [4])] }) → (s.coreAt 0).pops[0]? = some ⟨13, 0, 1, 3⟩
      ∧ (s.queue 0 0 13 = 4 :: []) ∧ s.runs 0 0 1)
    ∧ (12 ≤ (12 : BitVec 4).toNat ∧ ((four false false []).queue 0 0 12).length < 16 ∧ ((four false false []).ctxAt 0 0).run ≠ .free) := by
  refine ⟨fun v hv s h => ?_, fun s h => ?_, by decide, by decide, by decide⟩
  · subst h; exact ⟨rfl, ⟨rfl, by show Run.runnable ≠ Run.free; decide⟩, fun h => absurd (show 1 = 2 from h.1) (by decide)⟩
  · subst h; exact ⟨rfl, rfl, ⟨by decide, by decide⟩⟩

theorem witness_mailboxes :
    ((packet (.mailbox 31 5) (gs [])).Arrives 0 ⟨0, 0, 0, 0, 1, .mailbox 31 5, false, none⟩)
    ∧ (∀ s, s = (gs []).modCoreAt 1 (fun k => { k with mbStore := [(30, 4), (31, 5), (31, 6)] }) → (s.coreAt 1).mp.getLsbD 31 = false
      ∧ (s.coreAt 1).mbStore = [(30, 4)] ++ ((31 : Reg).toNat, 5) :: [(31, 6)] ∧ ∀ e ∈ [((30 : Nat), (4 : Word))], e.1 ≠ (31 : Reg).toNat)
    ∧ (∀ s, s = (gs []).modCoreAt 1 (fun k => { k with mp := 2, takes := [⟨1, 0, 1, 3, true⟩, ⟨1, 0, 1, 3, false⟩] }) →
      (s.coreAt 1).takes[0]? = some ⟨1, 0, 1, 3, true⟩ ∧ (s.coreAt 1).takes[1]? = some ⟨1, 0, 1, 3, false⟩ ∧ (s.coreAt 1).mp.getLsbD 1 = true
      ∧ ∀ x ∈ (s.coreAt 1).takes.take 1, x.m = 1 → x.peek = true) := by
  refine ⟨arrives _, fun s h => ?_, fun s h => ?_⟩
  · subst h; exact ⟨by decide, rfl, by decide⟩
  · subst h; exact ⟨rfl, rfl, by decide, by decide⟩

/-- A pending-task record of launch 1 in slot 0 of core 1. -/
def pended (cnt : Nat) (s : State) : State :=
  s.modCoreAt 1 (fun k => { k with ptasks := [(0, ⟨3, some (Task.ofWords [0x3000, 1, 2, 0x400, 0, W (2 ^ 32), W cnt, 0] 1 0 0)⟩)] })

/-- The same record, as its slot holds it. -/
def pendedTask (cnt : Nat) : Task := Task.ofWords [0x3000, 1, 2, 0x400, 0, W (2 ^ 32), W cnt, 0] 1 0 0

theorem witness_held :
    (∀ s, s = (four true false []).modNet (fun n => { n with lands := [⟨1, ⟨0, 0, 0, 0, 1, .msg (message (some (5, 0x100, bytesOf 8 5)) none), false, none⟩, ⟨1, 0x400, 7⟩⟩] }) →
      (∃ h, s.net.lands[0]? = some h ∧ h.pkt.body = .msg (message (some (5, 0x100, bytesOf 8 5)) none) ∧ s.sibHeld h.sib = false)
      ∧ (s.coreAt 1).pending.length < 32 ∧ s.marked 1 0x100 (transform 5 (bytesOf 8 5)).1.length = false)
    ∧ (∀ s, s = listening 12 false (pending [message none none] (gs [])) → (s.coreAt 1).pending[0]? = some (message none none)
      ∧ ((s.coreAt 1).slot 5).gen = 0 ∧ ((s.coreAt 1).slot 5).valid = true ∧ ((s.coreAt 1).slot 5).msk = false ∧ 12 ≤ ((s.coreAt 1).slot 5).qb
      ∧ (Tab.get [] (s.coreAt 1).qs 12).length + 1 ≤ 16)
    ∧ ((pending [message none none] (gs [])).coreAt 1).stale (message none none) = true
    ∧ (∃ n, ((gs []).modNet (fun n => { n with nacks := [⟨0, 0, 1, ⟨12, 0, 0, 1, false⟩⟩] })).net.nacks[0]? = some n)
    ∧ ((packet (.dec 0 3) (gs [])).Arrives 0 ⟨0, 0, 0, 0, 1, .dec 0 3, false, none⟩)
    ∧ ((pended 1 (gs [])).pendingRec 1 0 3 (pendedTask 1) ∧ 3 % 2 ^ 16 = 3 ∧ (pendedTask 1).cnt ≠ 0 ∧ (pended 0 (gs [])).pendingRec 1 0 3 (pendedTask 0) ∧ (pendedTask 0).cnt = 0)
    ∧ ((pended 0 (four false false [])).coreAt 1).deque.length < 64 + ((pended 0 (four false false [])).launchOr (pendedTask 0).launch).dqsp
    ∧ (∀ s, s = ((gs []).modCtxAt 1 0 (fun c => { c with act := 4, run := .parked .reply })).modNet (fun n => { n with asks := [⟨1, 0, 4, .subTag true 9⟩] }) →
      s.net.asks[0]? = some ⟨1, 0, 4, .subTag true 9⟩ ∧ (s.ctxAt 1 0).act = 4 ∧ (s.ctxAt 1 0).run = .parked .reply) := by
  refine ⟨fun s h => ?_, fun s h => ?_, by decide, ⟨_, rfl⟩, arrives _, ⟨rfl, by decide, by decide, rfl, by decide⟩, by decide, fun s h => ?_⟩
  · subst h; exact ⟨⟨_, rfl, rfl, by decide +kernel⟩, by decide, by decide⟩
  · subst h; exact ⟨rfl, by decide, by decide, by decide, by decide, by decide⟩
  · subst h; exact ⟨rfl, by decide, by decide⟩

theorem witness_barrierUpdate :
    (∀ op, (packet (.bar 31 op) (gs [])).Arrives 0 ⟨0, 0, 0, 0, 1, .bar 31 op, false, none⟩)
    ∧ (∀ s, s = (packet (.bar 31 (.join 3)) (gs [])).modCtx (fun c => { c with run := .parked .reply }) → (s.ctxAt 0 0).act = 0 ∧ (s.ctxAt 0 0).run = .parked .reply)
    ∧ ((gs []).slotBar 1 31).memb < 65535 ∧ 65535 ≤ (((gs []).modCoreAt 1 (fun k => { k with bars := [(31, { Bar.reset with memb := 65535 })] })).slotBar 1 31).memb := by
  refine ⟨fun op => arrives _, fun s h => ?_, by decide, by decide⟩
  subst h; exact ⟨by decide, by decide⟩

/-- Task 3 of core 0 has ended and its join counter is at `join`. -/
def joining (join : Word) (s : State) : State := s.modNet (fun n => { n with joins := [⟨0, 0, 3, 1, join, 0, false, 0⟩] })

theorem witness_joinDecrement :
    (∀ w ∈ [(0 : Word), 0x400], (joining w (four false false [])).net.joins[0]? = some ⟨0, 0, 3, 1, w, 0, false, 0⟩ ∧ (joining w (four false false [])).outstanding 3 = false)
    ∧ (∃ r, (joining 0x404 (gs [])).locate 0 0 false .rmw 0x404 8 true true = .error r ∧ r.eff ≠ Eff.memerr)
    ∧ ((joining 0x400 (gs [])).locate 0 0 false .rmw 0x400 8 true true = .ok (.spad 0 0x400, none) ∧ (gs []).marked 0 0x400 8 = false
      ∧ (gs []).homeDown (.spad 0 0x400) = false ∧ (gs []).homeBad (.spad 0 0x400) 8 = false ∧ (gs []).canPut (.spad 0 0x400) 8 .other = true)
    ∧ ({ gs [] with ue := [spadKey 0 0x400] } : State).homeBad (.spad 0 0x400) 8 = true
    ∧ ((paged (gs [])).locate 0 0 false .rmw 0x10000000000 8 true true = .ok (.dev 0x50000 false false 0, some pageLeaf)
      ∧ (paged (gs [])).keyHeld (Home.dev 0x50000 false false 0).key = false ∧ (paged (gs [])).repOpen (.dev 0x50000 false false 0) 8 = false
      ∧ (paged (gs [])).homeLost (.dev 0x50000 false false 0) = false) := by
  refine ⟨fun w _ => ⟨rfl, rfl⟩, ⟨_, rfl, by decide⟩, ⟨rfl, by decide, by decide, by decide, by decide⟩, by decide, ⟨rfl, by decide, by decide, by decide⟩⟩

theorem witness_fill :
    (∀ s, s = listening 0 true (pending [message none none] (four false false [])) → s.noStale 1 ∧ s.vacant 1 4 = true ∧ (∀ y < 4, (s.ctxAt 1 y).masked s.time = false)
      ∧ (s.coreAt 1).Chosen true 0 (message none none))
    ∧ (∀ s, s = listening 0 false (pending [message none none] (four false false [])) → s.noStale 1 ∧ s.lowestFree 1 0 ∧ (s.coreAt 1).Chosen false 0 (message none none)
      ∧ (∀ x ∈ (s.coreAt 1).pending, ¬ (s.coreAt 1).selects true x) ∧ (s.coreAt 1).starts = [] ∧ ∀ v ∈ s.saved, s.restorable 1 v = false)
    ∧ (∀ s, s = (four false false []).modCoreAt 1 (fun k => { k with starts := [⟨1, 1, 0x1000⟩] }) → (s.coreAt 1).starts = ⟨1, 1, 0x1000⟩ :: [])
    ∧ (∀ s, s = (four false false []).modCoreAt 1 (fun k => { k with deque := [pendedTask 0] }) → (s.coreAt 1).deque = pendedTask 0 :: [] ∧ (s.coreAt 1).pending = [] ∧ s.lowestFree 1 0)
    ∧ (∀ s, s = { gs [] with saved := [⟨0x50000, 1, 0, some 2, { Ctx.reset with run := .runnable }, 0⟩] } → ∃ v, s.saved.find? (fun v => s.restorable 1 v) = some v) := by
  have hc : ∀ prio, ((listening 0 prio (pending [message none none] (four false false []))).coreAt 1).Chosen prio 0 (message none none) := by
    intro prio
    refine ⟨by cases prio <;> rfl, by decide, ⟨?_, ?_, ?_, ?_, ?_⟩, fun x hx _ _ => ?_, fun j x hj => absurd hj (Nat.not_lt_zero j)⟩
    · cases prio <;> decide
    · cases prio <;> decide
    · cases prio <;> decide
    · cases prio <;> decide
    · cases prio <;> decide
    · have : x = message none none := by cases prio <;> exact List.mem_singleton.mp hx
      subst this; exact Nat.le_refl _
  have hl : ∀ s : State, s = listening 0 false (pending [message none none] (four false false [])) ∨ s = (four false false []).modCoreAt 1 (fun k => { k with deque := [pendedTask 0] }) → s.lowestFree 1 0 := by
    rintro s (rfl | rfl) <;> exact ⟨by decide, by decide, fun y h => absurd h (Nat.not_lt_zero y)⟩
  refine ⟨fun s h => ?_, fun s h => ?_, fun s h => ?_, fun s h => ?_, fun s h => ?_⟩
  · subst h; exact ⟨by unfold State.noStale; decide, by decide, by decide, hc true⟩
  · refine ⟨?_, hl s (.inl h), ?_, ?_, ?_, ?_⟩ <;> subst h
    · unfold State.noStale; decide
    · exact hc false
    · intro x hx hs
      have : x = message none none := List.mem_singleton.mp hx
      subst this
      exact absurd hs.2.2.2.2 (by decide)
    · rfl
    · exact fun v hv => absurd hv List.not_mem_nil
  · subst h; rfl
  · exact ⟨by subst h; rfl, by subst h; rfl, hl s (.inr h)⟩
  · subst h; exact ⟨_, rfl⟩

theorem witness_waitEnds :
    (∀ e, e ∈ [(Wait.presence, false), (.qFull 13, false), (.mboxRead 1, false), (.mbox 1, true), (.seen, true), (.watch (2 ^ 53), true), (.version 0x50000 0, false),
        (.tile 3, false), (.wmark 7 0 0 3, false), (.wmEnd 3 2, true), (.pend 0x50000, false), (.tlbi 4 4 0 0 0 false, false), (.drain, false), (.room, false), (.mark 0x40, false)] →
      ∀ s, s = ((gs []).modCtxAt 1 0 (fun c => { c with run := .parked e.1 })).modCoreAt 1 (fun k => { k with mp := 2 }) →
        (s.ctxAt 1 0).run = .parked e.1 ∧ s.waitEnds 1 0 e.2 e.1 ∧ s.mayGoOn 1 0 e.1)
    ∧ (∀ s, s = (gs []).modCoreAt 1 (fun k => { k with chans := [(7, { Chan.reset with copy := some 5, mark := 64 })] }) → s.waitEnds 1 0 false (.wmark 7 5 64 3))
    ∧ (((gs []).modCtxAt 1 0 (fun c => { c with run := .parked (.wmEnd 3 2) })).ctxAt 1 0).run = .parked (.wmEnd 3 2)
    ∧ (0x40 : Nat) ∈ ((gs []).modNet (fun n => { n with dirty := [0x40] })).net.dirty
    ∧ (∀ s, s = { (gs []).modCtxAt 1 3 (fun c => { c with run := .runnable }) with time := 1000 } → (s.ctxAt 1 3).run = .runnable
      ∧ (∀ w, (s.ctxAt 1 (s.coreAt 1).cur).run ≠ .stalled w) ∧ Tab.get 0 (s.coreAt 1).issued 3 + 64 * Config.coreTicks 1 ≤ s.time
      ∧ (s.ctxAt 1 3).since + 64 * Config.coreTicks 1 ≤ s.time)
    ∧ (∀ s, s = { (gs []).modCtxAt 1 0 (fun c => { c with run := .parked (.idleTurn 5) }) with time := 5 + Config.coreTicks 1 } → (s.ctxAt 1 0).run = .parked (.idleTurn 5)
      ∧ 5 + Config.coreTicks 1 ≤ s.time ∧ (∀ n < 4, n ≠ 0 → (s.ctxAt 1 n).run ≠ .runnable) ∧ (5 : Nat) < 5 + Config.coreTicks 1)
    ∧ (∀ s, s = { (((gs []).modCtxAt 1 0 (fun c => { c with run := .parked (.idleTurn 5) })).modCtxAt 1 2 (fun c => { c with run := .runnable })).modCoreAt 1
        (fun k => { k with issued := [(2, 6)] }) with time := 1000 } → (s.ctxAt 1 2).run.passed = true ∧ 5 < Tab.get 0 (s.coreAt 1).issued 2
      ∧ Tab.get 0 (s.coreAt 1).issued 2 + Config.coreTicks 1 ≤ s.time)
    ∧ (∀ s, s = { (gs []).modCtxAt 1 0 (fun c => { c with run := .parked (.idle 5), hmask := some 5 }) with time := 5 } → (s.ctxAt 1 0).run = .parked (.idle 5)
      ∧ (s.ctxAt 1 0).hmask = some 5 ∧ 5 ≤ s.time) := by
  refine ⟨fun e he s h => ?_, fun s h => ?_, by decide, by decide, fun s h => ?_, fun s h => ?_, fun s h => ?_, fun s h => ?_⟩
  · have k : s.waitEnds 1 0 e.2 e.1 → (s.ctxAt 1 0).run = .parked e.1 → (s.ctxAt 1 0).run = .parked e.1 ∧ s.waitEnds 1 0 e.2 e.1 ∧ s.mayGoOn 1 0 e.1 :=
      fun a b => ⟨b, a, e.2, a, .inr (by subst h; rfl)⟩
    refine k ?_ (by subst h; rfl)
    subst h
    clear k
    simp only [List.mem_cons, List.not_mem_nil, or_false] at he
    obtain rfl | rfl | rfl | rfl | rfl | rfl | rfl | rfl | rfl | rfl | rfl | rfl | rfl | rfl | rfl := he
    · exact .presence
    · exact .qFull _ (by decide)
    · exact .mboxRead _ (by decide)
    · exact .mbox _ (by decide)
    · exact .seen
    · exact .register _ (by decide) (by decide)
    · exact .version _ _ (by decide) (by decide)
    · exact .tile _ (by decide) (by decide) (by decide)
    · exact .markGone _ _ _ _ (by decide)
    · exact .answered _ _
    · exact .image _ (by decide)
    · exact .translations _ _ _ _ _ _ (by decide)
    · exact .again _ (.inr (.inl rfl))
    · exact .again _ (.inr (.inr rfl))
    · exact .again _ (.inl ⟨_, rfl⟩)
  · subst h; exact .mark _ _ _ _ (by decide)
  · subst h; exact ⟨by decide, fun w h => (nomatch h), by decide, by decide⟩
  · subst h; exact ⟨by decide, by decide, by decide, by decide⟩
  · subst h; exact ⟨by decide, by decide, by decide⟩
  · subst h; exact ⟨by decide, by decide, by decide⟩

/-- Every low context of core 1 waits, context 0 the longest, and a task is queued. -/
def waiting : State :=
  [0, 1, 2, 3].foldl (fun s cx => s.modCtxAt 1 cx (fun c => { c with run := .parked (.mbox 1), since := cx, act := 10 + cx, ident := { c.ident with launch := 1 } }))
    ((four false false []).modCoreAt 1 (fun k => { k with deque := [pendedTask 0] }))

theorem witness_spill :
    (∀ y < 4, (waiting.ctxAt 1 y).waits) ∧ (waiting.coreAt 1).deque ≠ [] ∧ (∀ y < 4, (waiting.ctxAt 1 0).since ≤ (waiting.ctxAt 1 y).since)
    ∧ (waiting.ctxAt 1 0).regs.allPresent = true ∧ waiting.ownReqs (waiting.ctxAt 1 0).act = false ∧ 0 < (waiting.launchOr (waiting.ctxAt 1 0).ident.launch.toNat).cspl ∧ waiting.saved = []
    ∧ (∀ s, s = { gs [] with saved := [⟨0x50000, 1, 0, some 2, { Ctx.reset with run := .runnable }, 0⟩] } → s.lowestFree 1 0
      ∧ ⟨0x50000, 1, 0, some 2, { Ctx.reset with run := .runnable }, 0⟩ ∈ s.saved ∧ s.outstanding 0 = false ∧ ∀ u ∈ s.saved, ∀ v ∈ s.saved, u = v)
    ∧ Wait.seen.waiting = true ∧ (gs []).waitEnds 1 0 true .seen := by
  refine ⟨fun y hy => ?_, by decide, by decide, by decide, by decide, by decide, rfl, fun s h => ?_, rfl, .seen⟩
  · right; left
    refine ⟨1, ?_⟩
    revert y; decide
  · subst h
    refine ⟨⟨by decide, by decide, fun y h => absurd h (Nat.not_lt_zero y)⟩, List.mem_singleton.mpr rfl, by decide, fun u hu v hv => ?_⟩
    rw [List.mem_singleton.mp hu, List.mem_singleton.mp hv]

/-- Every die, cluster, stack and port is ready, and the lead die is named. -/
def allReady (s : State) : State :=
  { s with sys := { s.sys with lval := true, ready0 := BitVec.allOnes 64, ready1 := BitVec.allOnes 64, ready2 := BitVec.allOnes 64 } }

/-- Tasks stand in Paddock queue q of die 0. -/
def queued (q : Nat) (l : List Task) (s : State) : State := s.modDieAt 0 (fun d => { d with paddock := Tab.set d.paddock q l })

/-- Launch 1 has begun logical ids 0 and 1, on cores 0 and 1. -/
def begun (s : State) : State := { s with launches := s.launches.map (fun l => { l with begun := [0, 1] }) }

theorem witness_paddock :
    (∀ s, s = queued 2 [pendedTask 0] (allReady (four false false [])) → s.paddock 0 2 = pendedTask 0 :: [] ∧ s.Places 0 (pendedTask 0) 0 ∧ s.freeFor 0 1
      ∧ s.dispatchHead 0 3 = none ∧ (pendedTask 0).headAt.getD (pendedTask 0).since = 0)
    ∧ (10 * Config.tickUs ≤ ({ gs [] with time := 120000 } : State).time ∧ (pendedTask 0).since + Config.tickMs < ({ gs [] with time := 12000001 } : State).time)
    ∧ (gs []).paddock 0 3 = []
    ∧ (∀ s, s = begun ((allReady (four false false [])).modCoreAt 1 (fun k => { k with deque := [pendedTask 0, pendedTask 0] })) → (∀ q < 4, (s.dispatchHead 0 q).isNone = true)
      ∧ s.freeFor 0 1 ∧ s.victim 0 0 = some 1 ∧ (s.coreAt 1).deque.getLast? = some (pendedTask 0)) := by
  refine ⟨fun s h => ?_, by decide, by decide, fun s h => ?_⟩
  · subst h
    refine ⟨rfl, ⟨_, rfl, .inl ⟨[], [], by decide +kernel, by decide +kernel, by decide, by decide⟩⟩, ⟨by decide, ⟨by decide, by decide, ?_⟩, by rfl⟩, by rfl, by decide⟩
    decide
  · subst h
    refine ⟨by decide +kernel, ⟨by decide, ⟨by decide, by decide, ?_⟩, by rfl⟩, by decide +kernel, by decide⟩
    decide

/-- Launch queue 3 holds records from `head` to `tail`; its base is 0x50000. -/
def queueOf (head tail : Nat) (s : State) : State := { s with sys := { s.sys with lqs := [(3, ⟨0x50000, 0x502, 0, head, tail, false⟩)] } }

theorem witness_launchQueues :
    (∀ t, t ∈ [1, 4] → ∀ s, s = queueOf 0 t (allReady (gs [])) → s.sys.lval = true ∧ s.sys.tripped = false ∧ s.lqNext 3 ∧ s.keyHeld 0x50000 = false ∧ s.keyHeld 0x50040 = false)
    ∧ (4 + 2 ^ 16 - 0) % 2 ^ 16 ≤ 2 ^ fld ((queueOf 0 4 (gs [])).lq 3).ctl 3 0 ∧ 2 ^ fld ((queueOf 0 5 (gs [])).lq 3).ctl 3 0 < (5 + 2 ^ 16 - 0) % 2 ^ 16 := by
  refine ⟨fun t ht s h => ?_, by decide, by decide⟩
  subst h
  simp only [List.mem_cons, List.not_mem_nil, or_false] at ht
  obtain rfl | rfl := ht <;>
  exact ⟨by decide, by decide, ⟨by decide, by unfold State.lqReady; decide, by unfold State.lqReady; decide +kernel⟩, by decide, by decide⟩

/-- The launch record of `words4` waits to be checked, with a completion address. -/
def submitted (cpl : Word) (w3 : Word) : State :=
  { allReady (gs []) with launches := [{ launch1 [0x1000, 0, cpl, w3, 0x100000004, 0x100000001, 0x100000001, 0, 1024, 0, 0, 0, 0, 0, 0, 0] [] with phase := 0 }] }

theorem witness_launchCheck :
    (∀ s l, s = submitted 0 (W (2 ^ 24 + 4 * 2 ^ 16)) → l ∈ s.launches → s.launches[0]? = some l ∧ l.phase = 0 ∧ s.sys.lval = true ∧ (s.rejections l).findIdx? id = none ∧ s.coversReady l = true)
    ∧ (∀ s l, s = { submitted 0 (W (2 ^ 37 + 2 ^ 24 + 4 * 2 ^ 16)) with sys := Sys.reset } → l ∈ s.launches → (s.rejections l).findIdx? id = none ∧ s.coversReady l = false)
    ∧ (∀ s l, s = submitted 0 0 → l ∈ s.launches → (s.rejections l).findIdx? id = some 1 ∧ s.Completes l 3 2 s)
    ∧ (∀ s l, s = submitted 0x1000000000 0 → l ∈ s.launches → ∃ t, s.Completes l 3 2 t ∧ s.completionHome l = some (.spad 0 0))
    ∧ (∀ s l, s = submitted 8 0 → l ∈ s.launches → ∃ t, s.Completes l 3 2 t ∧ s.completionHome l = none) := by
  refine ⟨fun s l h hl => ?_, fun s l h hl => ?_, fun s l h hl => ?_, fun s l h hl => ?_, fun s l h hl => ?_⟩ <;> subst h <;> rw [List.mem_singleton.mp hl]
  · exact ⟨rfl, rfl, rfl, by decide +kernel, by decide +kernel⟩
  · exact ⟨by decide +kernel, by decide +kernel⟩
  · exact ⟨by decide +kernel, .noRecord rfl⟩
  · exact ⟨_, .written (.spad 0 0) (by decide) (by decide +kernel) (by decide) (by decide) (by decide) (by decide) (by decide)
      (by decide) (fun p off h => by cases h; decide), by decide +kernel⟩
  · exact ⟨_, .lost (by decide) (.inl (by decide +kernel)), by decide +kernel⟩

theorem witness_launchStartEnd :
    (∀ s l, s = { gs [] with launches := [{ launch1 (words4 false) [] with todo := [2] }] } → l ∈ s.launches → s.launch? 1 = some l ∧ l.phase = 1 ∧ 2 ∈ l.todo
      ∧ (s.writeImage 2 l.entry).lowestFree 2 0)
    ∧ (∀ cx < 4, waiting.vacant 1 cx = false)
    ∧ (∀ s l, s = { gs [] with launches := [{ launch1 (words4 false) [] with live := 0 }] } → l ∈ s.launches → s.launch? 1 = some l ∧ l.phase = 1 ∧ s.launchLives l = false
      ∧ s.net.reqs = [] ∧ s.vers.reps = [] ∧ s.Completes l (if l.nfail = 0 then 1 else 2) l.argw s) := by
  refine ⟨fun s l h hl => ?_, by decide, fun s l h hl => ?_⟩ <;> subst h <;> rw [List.mem_singleton.mp hl]
  · exact ⟨rfl, rfl, by decide, ⟨by decide, by decide, fun y h => absurd h (Nat.not_lt_zero y)⟩⟩
  · exact ⟨rfl, rfl, by decide, rfl, rfl, .noRecord rfl⟩

/-- An effect is pending in context 0 of core 0, in an activation. -/
def due (kind : Nat) (r : Raise) (s : State) : State := s.modCtx (fun c => { c with pend := [⟨kind, r⟩] })

theorem witness_deferred :
    (∀ s, s = due 0x00A { eff := 0x00A } (four false false []) → s.Standing 0 0 ∧ (s.ctxAt 0 0).nothingBefore ∧ (Instr.numericDeferred 0 0, 0x00A) ∈ boundaryForms 0 0
      ∧ (s.ctxAt 0 0).pend = ⟨0x00A, { eff := 0x00A }⟩ :: [] ∧ Eff.system 0x00A = true)
    ∧ (∀ s, s = (four false false []).modCtx (fun c => { c with held := [{ eff := 0x006 }] }) → (s.ctxAt 0 0).resumed = none ∧ (s.ctxAt 0 0).sysBusy = false
      ∧ (s.ctxAt 0 0).held = { eff := 0x006 } :: [] ∧ Eff.system 0x006 = true)
    ∧ (handled (four false false [])).core.shandler ≠ 0 ∧ (four false false []).core.shandler = 0
    ∧ (∀ s, s = due 0x020 { eff := 0x020 } (((four false false []).framePushed 0x1000 0x3000 0x0200200C00002000).modCtx (fun c => { c with hf := 0x1000 })) →
      (s.ctxAt 0 0).pend = ⟨0x020, { eff := 0x020 }⟩ :: [] ∧ ∃ f, s.search 0 (s.ctxAt 0 0).stat.sup 0x020 4096 (s.ctxAt 0 0).hf.toNat = .frame f ∧ f.multi = false ∧ f.cap < 0x180000
        ∧ s.badLocal 0 f.cap 8 = false ∧ s.deliveryHeld 0 0 { eff := 0x020 } = false)
    ∧ (four false false []).search 0 false 0x020 4096 0 = .none := by
  refine ⟨fun s h => ?_, fun s h => ?_, by decide, by decide, fun s h => ?_, rfl⟩
  · subst h
    refine ⟨⟨by decide, by decide, fun d v => ⟨fun h => (nomatch h), fun h => (nomatch h)⟩, by decide, by decide, by decide⟩, ⟨by decide, by decide⟩, List.mem_cons_self, rfl, by decide⟩
  · subst h; exact ⟨rfl, rfl, rfl, by decide⟩
  · subst h; exact ⟨rfl, _, rfl, by decide, by decide, by decide, by decide⟩

/-- Context 0 of core 0 in an activation at a word of code w. -/
def atWord (w : Nat) (s : State) : State :=
  ((paged s).modCtx (fun c => { c with pc := 0x10000000000 })).wr 0x50000 (bytesOf 4 w)

theorem standing {s : State} {cx : Nat} (h : (s.ctxAt 0 cx).run = .runnable) (f : cx = 4 ∨ (s.ctxAt 0 4).run = .free) (p : (s.ctxAt 0 cx).regs.allPresent = true) : s.Standing 0 cx :=
  ⟨by rw [h]; decide, by rw [h]; decide, fun d v => by rw [h]; exact ⟨fun h => (nomatch h), fun h => (nomatch h)⟩, by rw [h]; decide, f, p⟩

theorem witness_preempt :
    (∀ s, s = { (gs []).modCtxAt 0 4 (fun c => { c with run := .runnable }) with time := 50005 } → s.Standing 0 4 ∧ (s.ctxAt 0 4).Quiet
      ∧ 10000 < (s.time - (s.ctxAt 0 4).shFrom - s.saveTime 0) / Config.coreTicks 0 ∧ (50004 - (s.ctxAt 0 4).shFrom - s.saveTime 0) / Config.coreTicks 0 ≤ 10000
      ∧ ∀ w, (s.ctxAt 0 4).run ≠ .stalled w)
    ∧ (∀ s, s = atWord 1 ({ four false false [] with time := 10000 }.modCore (fun k => { k with rq := 1 })) → s.Preemptible 0 0 ∧ s.AtSwitchPoint 0 0)
    ∧ (∀ s, s = { (four false false []).modCtx (fun c => { c with preemptAt := some 0 }) with time := 10000 } → (s.ctxAt 0 0).preemptAt = some 0 ∧ 0 + 2000 * Config.coreTicks 0 ≤ s.time)
    ∧ ((gs []).coreAt 0).rq.getLsbD 0 = false ∧ (((gs []).modCtx (fun c => { c with hmask := some 5 })).ctxAt 0 0).masked (gs []).time = true
    ∧ (((gs []).modCtx (fun c => { c with sysBusy := true })).ctxAt 0 0).sysBusy = true
    ∧ (∀ s, s = atWord 0x76 ({ four false false [] with sys := { Sys.reset with clusters := [(0, { Cluster.reset with opened := false })] } }.modCtx (fun c => { c with migp := some (0, 5) })) →
      s.Standing 0 0 ∧ (s.ctxAt 0 0).run = .runnable ∧ (s.ctxAt 0 0).Quiet ∧ (s.ctxAt 0 0).migp = some (0, 5) ∧ (s.clusterOfCore 0).opened = false
      ∧ s.nextWord 0 0 = some 0x76 ∧ groupBoundary 0x76 = true) := by
  refine ⟨fun s h => ?_, fun s h => ?_, fun s h => ?_, by decide, by decide, by decide, fun s h => ?_⟩
  · subst h; exact ⟨standing rfl (.inl rfl) (by decide), ⟨rfl, rfl, rfl, rfl⟩, by decide, by decide, fun w h => (nomatch h)⟩
  · subst h; exact ⟨⟨by decide, by decide, rfl, standing rfl (.inr rfl) (by decide), ⟨rfl, rfl, rfl, rfl⟩⟩, .inr ⟨1, by decide +kernel, by decide⟩⟩
  · subst h; exact ⟨rfl, by decide⟩
  · subst h; exact ⟨standing rfl (.inr rfl) (by decide), rfl, ⟨rfl, rfl, rfl, rfl⟩, rfl, rfl, by decide +kernel, by decide⟩

theorem witness_preq :
    (supFour false []).Clean ∧ (supFour false []).ctx.stat.sup = true ∧ (gs []).ctx.RefusesMove 5
    ∧ (∀ c, c = ((supFour false []).modCtx (fun c => { c with sysBusy := true, reserve := some 5, sysRec := { c.sysRec with state := 1, effid := 0x012 } })).ctx → ¬ c.RefusesMove 5 ∧ c.RefusesMove 6)
    ∧ (∀ reg, ((four false false []).modNet (fun n => { n with asks := [⟨0, 0, 1, .sysWr 0 0 reg 5⟩] })).WriteComes 0 ⟨0, 0, 1, .sysWr 0 0 reg 5⟩ [] 0 0 reg 5)
    ∧ (four false false []).Standing 0 0 ∧ ((gs []).ctxAt 0 0).run = .free := by
  refine ⟨⟨by decide, by decide⟩, by decide, .inl rfl, fun c h => ?_, fun reg => ⟨rfl, rfl, rfl, fun b hb => absurd hb List.not_mem_nil⟩, standing rfl (.inr rfl) (by decide), by decide⟩
  subst h
  refine ⟨fun h => ?_, .inr (.inr (.inr (by decide)))⟩
  obtain h | h | h | h := h
  · exact absurd h (by decide)
  · exact absurd h (by decide)
  · exact absurd h (by decide)
  · exact absurd h (by decide)

theorem witness_move :
    (∀ s, s = { (four false false []).modCtx (fun c => { c with migp := some (0, 5) }) with time := 24000000 } → (s.ctxAt 0 0).migp = some (0, 5) ∧ 0 + 2 * Config.tickMs ≤ s.time ∧ 23999999 < 0 + 2 * Config.tickMs)
    ∧ (∀ s, s = (four false false []).modCtx (fun c => { c with migr := some 5 }) → (s.ctxAt 0 0).migr = some 5 ∧ fld (5 : Word) 10 0 ≠ 0 ∧ s.moveReady 0 (s.ctxAt 0 0) = true
      ∧ (s.modCore (fun k => { k with unit := { k.unit with mat := { k.unit.mat with stat := [⟨1, 0⟩] } } })).moveReady 0 (s.ctxAt 0 0) = false)
    ∧ (∀ s, s = ((four false false []).modCtx (fun c => { c with run := .parked .reply })).modNet (fun n => { n with asks := [⟨0, 0, 1, .mapLid 3 1 2 5⟩] }) →
      s.net.asks[0]? = some ⟨0, 0, 1, .mapLid 3 1 2 5⟩ ∧ (s.ctxAt 0 0).act = 1 ∧ (s.ctxAt 0 0).run = .parked .reply ∧ s.sys.lval = false ∧ (allReady s).sys.lval = true) := by
  refine ⟨fun s h => ?_, fun s h => ?_, fun s h => ?_⟩
  · subst h; exact ⟨rfl, by decide, by decide⟩
  · subst h; exact ⟨rfl, by decide, by decide +kernel, by decide +kernel⟩
  · subst h; exact ⟨rfl, rfl, rfl, rfl, rfl⟩

/-- One request of the executing context is in flight: op on n bytes at home h. -/
def asking (h : Home) (n : Nat) (op : MemOp) (s : State) : State := s.post [⟨h, n⟩] op false false 0 0x1000200000

/-- That request. -/
def theReq (h : Home) (n : Nat) (op : MemOp) : Req := ⟨0, 0, 0, 0, [⟨h, n⟩], op, false, false, false, 0, 0x1000200000, none⟩

theorem performs {h : Home} {n : Nat} {op : MemOp} {s : State} (e : s.net.reqs = [theReq h n op]) (r : s.homeReady (theReq h n op) ⟨h, n⟩ = true) :
    s.Performs 0 0 0 (theReq h n op) ⟨h, n⟩ :=
  ⟨by rw [e]; rfl, by rw [e]; rfl, rfl, by rw [e]; exact fun q hq => absurd hq List.not_mem_nil, fun h => (nomatch h), fun x hx => absurd hx List.not_mem_nil, r⟩

/-- Operations on eight bytes, one of each kind. -/
def ops8 : List MemOp := [.load true 3, .store (bytesOf 8 5), .amo 4 7 0 0 3, .amo 10 7 0 0 3, .cas 0 5 3, .vload 8 [(2, 0)] 3 0 [], .vstore [bytesOf 8 5] [(2, 0x400)] [] [], .adds 15 0 0 [(2, 0x400, 5)] 0 0 []]

theorem witness_access :
    (∀ op ∈ ops8, ∀ h ∈ [Home.spad 1 0x400, .dev 0x50008 false false 0], (asking h 8 op (paged (gs []))).Performs 0 0 0 (theReq h 8 op) ⟨h, 8⟩
      ∧ h.Plain ∧ (asking h 8 op (paged (gs []))).bad h.key 8 = false)
    ∧ (asking (.spad 1 0x400) 64 (.bank 0 0 false false 0 0xFFFF 0) (gs [])).Performs 0 0 0 (theReq (.spad 1 0x400) 64 (.bank 0 0 false false 0 0xFFFF 0)) ⟨.spad 1 0x400, 64⟩
    ∧ (4, (5 : Word)) ∈ amoValues 5 7 ∧ (7, (7 : Word)) ∈ amoValues 5 7 ∧ (amoValues 5 7).length = 9 := by
  refine ⟨fun op ho h hh => ?_, performs rfl rfl, by decide, by decide, rfl⟩
  refine ⟨?_, ?_, ?_⟩
  · refine performs rfl ?_
    simp only [ops8, List.mem_cons, List.not_mem_nil, or_false] at ho hh
    obtain rfl | rfl := hh <;> obtain rfl | rfl | rfl | rfl | rfl | rfl | rfl | rfl := ho <;> decide +kernel
  · simp only [List.mem_cons, List.not_mem_nil, or_false] at hh
    obtain rfl | rfl := hh
    · exact .inl ⟨_, _, rfl⟩
    · exact .inr ⟨_, _, rfl⟩
  · simp only [List.mem_cons, List.not_mem_nil, or_false] at hh
    obtain rfl | rfl := hh <;> rfl

theorem witness_homes :
    (∀ op ∈ [MemOp.load true 3, .store (bytesOf 8 5), .amo 4 7 0 0 3, .cas 0 5 3], (asking (.spad 1 0x400) 8 op { gs [] with ue := [spadKey 1 0x400] }).Performs 0 0 0 (theReq (.spad 1 0x400) 8 op) ⟨.spad 1 0x400, 8⟩
      ∧ (asking (.spad 1 0x400) 8 op { gs [] with ue := [spadKey 1 0x400] }).bad (Home.spad 1 0x400).key 8 = true)
    ∧ (∀ op ∈ [MemOp.load true 3, .store (bytesOf 8 5)], (asking (.regs 0x20008) 8 op (gs [])).Performs 0 0 0 (theReq (.regs 0x20008) 8 op) ⟨.regs 0x20008, 8⟩)
    ∧ (∀ h ∈ [Home.dev 0x50038 true false 0, .dev 0x50038 false true 3], ∀ s, s = asking h 8 (.store (bytesOf 8 5)) (paged (gs [])) →
      s.Performs 0 0 0 (theReq h 8 (.store (bytesOf 8 5))) ⟨h, 8⟩ ∧ s.bad 0x50038 8 = false ∧ (s.vline (0x50038 / 64 * 64)).olds.length < 15 ∧ s.bad (0x50038 / 64 * 64) 64 = false
      ∧ s.bad (s.sys.lead * Config.dieBytes + 0x50038 % Config.dieBytes) 8 = false)
    ∧ (∃ r, ({ gs [] with vers := { (gs []).vers with reps := [⟨0, 0x50000, [5], [1], .access 0 0 1 0⟩] } } : State).vers.reps.find? (fun q => q.todo.contains 1) = some r) := by
  refine ⟨fun op ho => ?_, fun op ho => performs rfl ?_, fun h hh s hs => ?_, ⟨_, rfl⟩⟩
  · refine ⟨performs rfl ?_, by rfl⟩
    simp only [List.mem_cons, List.not_mem_nil, or_false] at ho
    obtain rfl | rfl | rfl | rfl := ho <;> decide +kernel
  · simp only [List.mem_cons, List.not_mem_nil, or_false] at ho
    obtain rfl | rfl := ho <;> decide +kernel
  · subst hs
    simp only [List.mem_cons, List.not_mem_nil, or_false] at hh
    obtain rfl | rfl := hh <;> exact ⟨performs rfl (by decide +kernel), by decide, by decide, by decide, by decide⟩

theorem witness_registers :
    (flag ((queueOf 0 0 (gs [])).lq 3).ctl 8 = true ∧ flag ((gs []).lq 3).ctl 8 = false) ∧ (∀ w, w = (0x10C : Word) → flag w 8 = true ∧ ¬ (gs []).RefusesEnable 3 w)
    ∧ (gs []).RefusesEnable 3 0x100 ∧ (gs []).RefusesEnable 3 0x10D ∧ flag (0x100 : Word) 8 = true
    ∧ (511 < 512 ∧ 255 < 256) ∧ ((3 ≠ 4 ∧ 3 ≠ 8) ∧ 0x20004 % 8 ≠ 0 ∧ 0xFFFF < 0x10000 ∧ regSpace ≤ 0x1000000) := by
  refine ⟨⟨by decide, by decide⟩, fun w h => ?_, ?_, ?_, by decide, by decide, by decide⟩
  · subst h; unfold State.RefusesEnable; decide
  · unfold State.RefusesEnable; decide
  · unfold State.RefusesEnable; decide

/-- Trace port 5 is up. -/
def linked (s : State) : State := s.modPort 5 (fun p => { p with up := true, dead := false })

theorem witness_outside :
    regAccess 0x20008 8 = true ∧ ((paged (gs [])).Reaches 0x50000 8 ∧ (allReady (gs [])).isReady (readyDie (0x50000 / Config.dieBytes)) = true
      ∧ (paged (gs [])).versionedLine (0x50000 / 64 * 64) = false ∧ (linked (paged (gs []))).Reaches 0x50000 8 ∧ ((linked (paged (gs []))).portAt (5 : BitVec 4).toNat).up = true
      ∧ (paged (gs [])).repAt 0x50000 8 = false ∧ (paged (gs [])).bad 0x50000 8 = false)
    ∧ (Config.devBytes < 0xBFFFFFFFFC + 8 ∧ (gs []).inStore 0x1500000000 = true ∧ (gs []).inStore 0x14FFFFFFF8 = false ∧ 0xBFFFFFFFF8 / Config.dieBytes < 8)
    ∧ ((gs []).portAt (5 : BitVec 4).toNat).up = false
    ∧ (∀ op ∈ [MemOp.load true 3, .store (bytesOf 8 5), .amo 4 7 0 0 3, .cas 0 5 3], (asking (.peer 5 0x50000) 8 op (linked (gs []))).Performs 0 0 0 (theReq (.peer 5 0x50000) 8 op) ⟨.peer 5 0x50000, 8⟩) := by
  refine ⟨by decide, ⟨⟨by decide, by decide, by decide⟩, by decide, by decide, ⟨by decide, by decide, by decide⟩, by decide, by decide, by decide⟩, by decide, by decide, fun op ho => performs rfl ?_⟩
  simp only [List.mem_cons, List.not_mem_nil, or_false] at ho
  obtain rfl | rfl | rfl | rfl := ho <;> decide +kernel

/-- Page tables at 0x100000 that map virtual address 2^40 to physical address 0x50000. -/
def tables (s : State) : State :=
  ((((s.wrW 0x100008 (W (0x11 * 2 ^ 32 + 1))).wrW 0x110000 (W (0x12 * 2 ^ 32 + 1))).wrW 0x120000 (W (0x13 * 2 ^ 32 + 1))).wrW 0x130000 (W (5 * 2 ^ 32 + 59))).modCtx
    (fun c => { c with space := { c.space with ptroot := 0x100000 } })

theorem witness_errors :
    (classOf (0x10000000000 : Word).toNat = .trans ∧ (0x10000000000 : Word).toNat < 2 ^ 52
      ∧ (tables (gs [])).walk ((tables (gs [])).ctxAt 0 0).space.ptroot (0x10000000000 : Word).toNat = .ok ⟨5 * 2 ^ 32 + 59, 4⟩)
    ∧ (∃ e, (gs []).walk ((gs []).ctxAt 0 0).space.ptroot 0 = .error e)
    ∧ (2047 < 2048 ∧ 0x17FFFF < Config.spadBytes ∧ 0xBFFFFFFFFF < Config.devBytes)
    ∧ (∀ s, s = { gs [] with vers := { (gs []).vers with lines := [(0x50000, ⟨5, [(3, [])], none⟩)] } } → 0x50000 % 64 = 0 ∧ (s.vline 0x50000).olds[0]? = some (3, [])) := by
  refine ⟨⟨by decide, by decide, by rfl⟩, ⟨_, rfl⟩, by decide, fun s h => ?_⟩
  subst h; exact ⟨by decide, by decide⟩

/-- A copy by activation 1 of 64 bytes from `src`, on channel 7. -/
def aCopy (src : Word) (accepted : Bool) (items : List Item) (ends : List Nat) (drains : List Nat) : Copy where
  id := 0
  pid := 0
  cx := 0
  act := 1
  ch := 7
  src := src
  len := 64
  fx := false
  bar := none
  cpym := false
  sub := false
  tag := 0
  sup := false
  launch := 1
  ptroot := 0
  accepted := accepted
  after := 0
  drains := drains
  outs := []
  items := items
  ends := ends
  first := 0

/-- The machine with copies in flight. -/
def inFlight (l : List Copy) : State := { paged (four false false []) with copies := l }

/-- One item of one segment, to a place, in a state. -/
def oneItem (dst : CopyDst) (data : Option (List Byte)) (resent : Bool) (fate : Nat) (closed : Bool) : Item := ⟨0, dst, [⟨0, data, resent, fate, 0⟩], false, closed⟩

theorem witness_copyEngine :
    ((inFlight [aCopy 0x1000 false [] [] []]).copies.findIdx? (fun c => c.pid == 0 && c.cx == 0 && !c.accepted) = some 0)
    ∧ (∀ src ∈ [(0x1000 : Word), 0x800000], ∀ c s, c = aCopy src true [oneItem (.local 0x2000) none false 0 false] [] [] → s = inFlight [c] → s.ReadsNow 0 0 0 c)
    ∧ (∀ c s, c = aCopy 0x1000 true [oneItem (.local 0x2000) none false 0 false] [] [] → s = inFlight [c] → s.copyLines c .read (c.segLen 0 / 64) (c.src + W (4096 * 0)) = some [.spad 0 0x1000]
      ∧ (s.seenBy c).homeMarked c.pid (.spad 0 0x1000) 64 = false ∧ s.homeDown (.spad 0 0x1000) = false ∧ s.bad ((Home.spad 0 0x1000).readKey s.sys.lead c.pid) 64 = false
      ∧ ({ s with ue := [spadKey 0 0x1000] } : State).bad ((Home.spad 0 0x1000).readKey s.sys.lead c.pid) 64 = true)
    ∧ (∀ c s, c = aCopy 0x800000 true [oneItem (.local 0x2000) none false 0 false] [] [] → s = inFlight [c] → s.copyLines c .read (c.segLen 0 / 64) (c.src + W (4096 * 0)) = none)
    ∧ (∀ d ∈ [CopyDst.local 0x2000, .ea 0x800000], ∀ r ∈ [true, false], ∀ t c s, t = oneItem d (some (bytesOf 64 5)) r 0 false → c = aCopy 0x1000 true [t] [] [] → s = inFlight [c] →
      s.CarriesSegment 0 0 0 c t ⟨0, some (bytesOf 64 5), r, 0, 0⟩ (bytesOf 64 5) ∧ s.segmentBegun c ⟨0, some (bytesOf 64 5), r, 0, 0⟩ = false)
    ∧ (∀ c s, c = aCopy 0x1000 true [] [] [] → s = inFlight [c] → s.segmentHomes c (.ea 0x800000) 0 = none ∧ s.segmentHomes c (.local 0x2000) 0 = some [.spad 0 0x2000]
      ∧ s.keyHeld ((Home.spad 0 0x2000).writeKey s.sys.lead) = false ∧ s.homeLost (.spad 0 0x2000) = false ∧ s.homeDown (.spad 0 0x2000) = false
      ∧ (s.putLines c.writer [.spad 0 0x2000] (bytesOf 64 5)).2 = 0 ∧ (s.putLines c.writer [.spad 0 0x2000] (bytesOf 64 5)).1.copyOpen c = false
      ∧ s.segmentBegun c ⟨0, none, false, 0, 1⟩ = true) := by
  refine ⟨by rfl, fun src hs c s hc h => ?_, fun c s hc h => ?_, fun c s hc h => ?_, fun d hd r hr t c s ht hc h => ?_, fun c s hc h => ?_⟩
  · subst hc; subst h
    exact ⟨rfl, rfl, ⟨_, rfl, rfl⟩, by rfl⟩
  · subst hc; subst h
    exact ⟨by rfl, by rfl, by rfl, by rfl, by rfl⟩
  · subst hc; subst h; rfl
  · subst ht; subst hc; subst h
    simp only [List.mem_cons, List.not_mem_nil, or_false] at hd
    obtain rfl | rfl := hd <;> exact ⟨⟨rfl, rfl, rfl, rfl, rfl, rfl⟩, rfl⟩
  · subst hc; subst h; exact ⟨rfl, rfl, rfl, rfl, rfl, rfl, rfl, rfl⟩

theorem witness_copyEnd :
    (∀ fate ∈ [1, 2, 3], ∀ t c s, t = oneItem (.local 0x2000) none false fate false → c = aCopy 0x1000 true [t] [0] [] → s = inFlight [c] → s.Reports 0 0 c t ∧ c.LastItem 0 ∧ c.bar = none)
    ∧ (∀ t, t = oneItem (.local 0x2000) none false 1 false → t.status = 0 ∧ t.segs.all (fun g => g.fate == 1) = true ∧ ¬ (aCopy 0x1000 true [t, t] [0] []).LastItem 0)
    ∧ (oneItem (.local 0x2000) none false 2 false).status = 1 ∧ (oneItem (.local 0x2000) none false 3 false).status = 2
    ∧ (∀ t c s, t = oneItem (.recv 1 3 0x40 none) none false 0 false → c = aCopy 0x1000 true [t] [] [] → s = packet (.cpym 0 0) (inFlight [c]) →
      s.Arrives 0 ⟨0, 0, 0, 0, 1, .cpym 0 0, false, none⟩ ∧ s.copies.findIdx? (fun c => c.id == 0) = some 0 ∧ s.hasCopy 0 c ∧ c.items[0]? = some t
      ∧ ((s.coreAt 1).tile 3).base + 0x40 + c.len ≤ Config.spadBytes ∧ Config.spadBytes < ((s.coreAt 1).tile 3).base + 0x17FFFF + c.len)
    ∧ (∀ c s, c = aCopy 0x1000 true [oneItem (.local 0x2000) none false 0 false] [] [3] → s = inFlight [c] → ((s.coreAt 0).tile (3 : Reg).toNat).dcnt = 0
      ∧ s.copies.filter (fun c => c.pid == 0 && c.drains.contains (3 : Reg).toNat) = [c])
    ∧ (((gs []).modCore (fun k => k.setTile 3 { Tile.reset with state := 3, dcnt := 1 })).coreAt 0 |>.tile (3 : Reg).toNat).dcnt ≠ 0 := by
  refine ⟨fun fate hf t c s ht hc h => ?_, fun t ht => ?_, by decide, by decide, fun t c s ht hc h => ?_, fun c s hc h => ?_, by decide⟩
  · subst ht; subst hc; subst h
    refine ⟨⟨rfl, rfl, by show 0 < 16; decide, rfl, rfl, rfl, fun p n off h => nomatch h⟩, fun j u hj hu => ?_, rfl⟩
    cases j with
    | zero => exact absurd rfl hj
    | succ j => exact nomatch hu
  · subst ht
    exact ⟨by decide, by decide, fun h => absurd (h 1 _ (by decide) rfl) (by decide)⟩
  · subst ht; subst hc; subst h
    exact ⟨⟨rfl, fun q h => absurd h List.not_mem_nil, fun r h => absurd h List.not_mem_nil, fun r h => absurd h List.not_mem_nil,
      fun _ => ⟨fun q h => absurd h List.not_mem_nil, by show 0 < 8; decide⟩⟩, rfl, rfl, rfl, by decide, by decide⟩
  · subst hc; subst h; exact ⟨rfl, rfl⟩

/-- A COMMIT of one line waits in context 0 of core 0. -/
def committing (locked : Nat) (stamp : Option Nat) (lines : List VLine) : State :=
  let s := allReady (four false false [])
  { s.modCtx (fun c => { c with run := .parked .reply }) with vers := { s.vers with
    lines := lines.map (fun v => (0x50000, v))
    commits := [⟨0, 0, 0, 1, 3, 5, [⟨0x10000000000, 0x50000, 0xFF, bytesOf 64 5, false⟩], locked, stamp⟩] } }

/-- That commit. -/
def theCommit (locked : Nat) (stamp : Option Nat) : Commit := ⟨0, 0, 0, 1, 3, 5, [⟨0x10000000000, 0x50000, 0xFF, bytesOf 64 5, false⟩], locked, stamp⟩

/-- A line with no room for one more version. -/
def fullLine : VLine := ⟨30, (List.range 15).map (fun i => (29 - i, [])), none⟩

theorem witness_sequencer :
    (∀ s, s = ((four false false []).modCtx (fun c => { c with run := .parked .reply })).modNet (fun n => { n with asks := [⟨0, 0, 1, .snap 3 4 0x1000⟩] }) →
      s.net.asks[0]? = some ⟨0, 0, 1, .snap 3 4 0x1000⟩ ∧ s.waitsFor 0 0 1 ∧ (allReady s).sys.lval = true)
    ∧ (∀ v ∈ [VLine.reset, ⟨5, [], none⟩, ⟨6, [], none⟩, ⟨0, [], some 9⟩], (committing 0 none [v]).hasCommit 0 (theCommit 0 none) ∧ (theCommit 0 none).lines[(theCommit 0 none).locked]?.isSome = true
      ∧ (committing 0 none [v]).keyHeld 0x50000 = false ∧ (committing 0 none [v]).vline 0x50000 = v ∧ (committing 0 none [v]).single 0x50000 = none ∧ (committing 0 none [v]).waitsFor 0 0 1
      ∧ ((committing 0 none [v]).ctxAt 0 0).regs.allPresent = true)
    ∧ ((committing 1 none []).hasCommit 0 (theCommit 1 none) ∧ (theCommit 1 none).lines.length ≤ (theCommit 1 none).locked ∧ (committing 1 none []).vers.next ≤ 0xFFFFFFFFFFFF ∧ (committing 1 none []).sys.lval = true)
    ∧ (∀ s, s = committing 1 (some 40) [⟨5, [], some 0⟩] → s.hasCommit 0 (theCommit 1 (some 40)) ∧ (theCommit 1 (some 40)).lines.length = 1 ∧ s.keyHeld 0x50000 = false
      ∧ s.installable 0x50000 40 = true ∧ (s.vline 0x50000).olds.length < 15 ∧ s.ue.contains 0x50000 = false ∧ (s.vline 0x50000).ts ≠ 40)
    ∧ (committing 1 (some 40) [fullLine]).installable 0x50000 40 = false := by
  refine ⟨fun s h => ?_, fun v hv => ?_, ⟨rfl, by decide, by decide, by decide⟩, fun s h => ?_, by decide +kernel⟩
  · subst h; exact ⟨rfl, ⟨rfl, .inl rfl⟩, rfl⟩
  · simp only [List.mem_cons, List.not_mem_nil, or_false] at hv
    obtain rfl | rfl | rfl | rfl := hv <;> exact ⟨rfl, rfl, by decide, rfl, rfl, ⟨rfl, .inl rfl⟩, rfl⟩
  · subst h; exact ⟨rfl, by decide, by decide, by decide +kernel, by decide, by decide, by decide⟩

theorem witness_groom :
    (∀ s, s = ({ gs [] with vers := { (gs []).vers with lines := [(0x50000, ⟨9, [(5, []), (3, [])], none⟩)], stable := 9 } } : State) →
      (s.vline 0x50000).olds.findIdx? (fun o => o.1 == 5) = some 0 ∧ (State.oldsOf (s.vline 0x50000))[0]? = some (5, 9) ∧ 9 ≤ s.vers.stable ∧ s.vers.snaps = [])
    ∧ (∀ s n, s = ({ gs [] with time := 1200000, vers := { (gs []).vers with lines := [(0x50000, fullLine)], snaps := [n], heldAt := [(0x50000, 0)] } } : State) → n = ⟨7, 5, 0⟩ →
      (0x50000, 0) ∈ s.vers.heldAt ∧ 0 + 100 * Config.tickUs ≤ s.time ∧ s.installable 0x50000 (s.heldStamp 0x50000) = false ∧ s.FirstSnap n)
    ∧ (gs []).vers.heldAt = [] ∧ (gs []).vers.next ≤ 0xFFFFFFFFFFFF
    ∧ (∀ s, s = ({ gs [] with vers := { (gs []).vers with next := 2 ^ 48 } } : State) → 0xFFFFFFFFFFFF < s.vers.next ∧ s.vers.commits = [] ∧ s.vers.singles = []) := by
  refine ⟨fun s h => ?_, fun s n h hn => ?_, rfl, by decide, fun s h => ?_⟩
  · subst h; exact ⟨by decide, by decide, by decide, rfl⟩
  · subst hn; subst h
    exact ⟨List.mem_singleton.mpr rfl, by decide, by decide +kernel, List.mem_singleton.mpr rfl, fun m hm h => absurd (List.mem_singleton.mp hm) h⟩
  · subst h; exact ⟨by decide, rfl, rfl⟩

theorem sound {s : State} (e : s.ue = []) (f : s.sys.failed = 0) : s.Sound := by
  intro k n
  simp [State.bad, e, State.lostStack, f, bitOf]

/-- Command m alone waits in the matrix unit of core 0. -/
def matrixWork (m : MCmd) : State := (tiled []).modMat 0 (fun u => { u with cmds := [m] })

/-- An MMA of tiles 1 and 2 into 3, with or without a status entry, and an ACCZ of tile 3. -/
def anMma (st : Bool) : MCmd := { (tiled []).matCmd 0 0 [1, 2, 3] 3 with ta := ready 0 0, tb := ready 0 0x100, tc := ready 4 0x200, gk := W (b2n st * 2 ^ 55) }
def anAccz : MCmd := { (tiled []).matCmd 4 0 [3] 3 with tc := ready 4 0x200 }
def anAccrd : MCmd := { (tiled []).matCmd 3 0 [3, 4] 3 with ta := ready 4 0x200, tc := ready 3 0x300 }

theorem witness_matrixUnit :
    (∀ m ∈ [anMma true, anMma false, anAccz, anAccrd], (matrixWork m).MatrixNext 0 0 m ∧ (matrixWork m).Sound ∧ (matrixWork m).NotSaved m.act ∧ ((matrixWork m).matUnit 0).run = none
      ∧ (((matrixWork m).matUnit 0).cmds.eraseIdx 0).head? = none)
    ∧ (∀ s, s = (tiled []).modMat 0 (fun u => { u with stat := [⟨1, 5⟩] }) → (s.matUnit 0).stat[0]? = some ⟨1, 5⟩ ∧ s.ownQueueLen 1 1 < 16)
    ∧ (∀ s, s = (tiled []).modMat 0 (fun u => { u with out := [(0, ⟨1, 1, 0, 1, [5]⟩)] }) → Tab.look (s.matUnit 0).out 0 = some ⟨1, 1, 0, 1, [5]⟩ ∧ (s.resolve 1 1).2 = false
      ∧ Tab.look (s.matUnit (s.resolve 1 1).1).slots 1 = none ∧ Tab.look ((s.modMat 1 (fun u => { u with slots := [(1, [])] })).matUnit (s.resolve 1 1).1).slots 1 ≠ none ∧ s.net.pkts = [])
    ∧ (packet (.fwd 1 1 [5]) (gs [])).Arrives 0 ⟨0, 0, 0, 0, 1, .fwd 1 1 [5], false, none⟩ := by
  refine ⟨fun m hm => ?_, fun s h => ?_, fun s h => ?_, arrives _⟩
  · refine ⟨⟨rfl, fun e he => absurd he List.not_mem_nil, fun e he => absurd he List.not_mem_nil, fun j c hj => absurd hj (Nat.not_lt_zero j), ?_⟩, sound rfl rfl, fun v hv => absurd hv List.not_mem_nil, rfl, rfl⟩
    simp only [List.mem_cons, List.not_mem_nil, or_false] at hm
    obtain rfl | rfl | rfl | rfl := hm <;> decide +kernel
  · subst h; exact ⟨rfl, by decide⟩
  · subst h; exact ⟨rfl, by decide +kernel, by decide +kernel, by decide +kernel, rfl⟩

/-- An RSORT of tile 1 into tile 4 waits in the rank unit of core 0. -/
def aSort : RCmd := { (tiled []).rankCmd 0 0 [1, 4] 4 with t0 := ready 3 0x300, t1 := ready 0 0 }

/-- Stream 1 of core 1 in a state, with a packet for it. -/
def streamed (state : Nat) (f : RankFlit) : State := (packet (.rank 1 f) (gs [])).setStream 1 1 { Strm.reset with state := state, np := 2, froms := [(7, 0)] }

theorem witness_rankUnit :
    (∀ s, s = (tiled []).modRank 0 (fun u => { u with cmds := [aSort] }) → (s.rankUnit 0).cmds = aSort :: [] ∧ s.Sound ∧ s.ownQueueLen aSort.act 9 < 16
      ∧ (∀ e ∈ s.rankReads 0 aSort, ∀ a ∈ e.1.addr (e.2 / e.1.cols) (e.2 % e.1.cols), s.marked 0 a (fmtWidth e.1.fmt / 8) = false) ∧ s.inFlight aSort.act aSort.after = false ∧ (s.rankWork 0 aSort).cnt < 2 ^ 13)
    ∧ (∀ f ∈ [RankFlit.head false 1 5 7, .body 0 7 true [3]], ∀ n ∈ [0, 1, 2], (streamed n f).Arrives 0 ⟨0, 0, 0, 0, 1, .rank 1 f, false, none⟩ ∧ ((streamed n f).stream 1 1).state = n ∧ 1 < ((streamed n f).stream 1 1).np
      ∧ ((streamed n f).stream 1 1).seen = [] ∧ ((streamed n f).stream 1 1).drops = [] ∧ ∃ e ∈ ((streamed n f).stream 1 1).froms, e.1 = 7)
    ∧ (∀ t, t = ({ Strm.reset with state := 1, free := true, tw := ready 0 0, sums := [0], seen := [(0, 2)], queue := [(0, 5)] } : Strm) → ((tiled []).setStream 0 1 t).stream 0 (1 : BitVec 2).toNat = t
      ∧ t.state = 1 ∧ t.complete = false ∧ t.free = true ∧ t.queue = (0, 5) :: [] ∧ t.rect = none ∧ t.det = false)
    ∧ ({ Strm.reset with state := 1, seen := [(0, 0)] } : Strm).complete = true
    ∧ (∀ t, t = ({ Strm.reset with results := [(5, none)] } : Strm) → t.results = (5, none) :: [] ∧ ((tiled []).setStream 0 1 t).stream 0 (1 : BitVec 2).toNat = t)
    ∧ (Tab.get [] ((tiled []).coreAt 0).qs 6).length ≤ 14 := by
  refine ⟨fun s h => ?_, fun f hf n hn => ?_, fun t h => ?_, by decide, fun t h => ?_, by decide⟩
  · subst h
    exact ⟨rfl, sound rfl rfl, by decide, by decide +kernel, rfl, by decide +kernel⟩
  · refine ⟨⟨rfl, fun q h => absurd h List.not_mem_nil, fun r h => absurd h List.not_mem_nil, fun r h => absurd h List.not_mem_nil,
      fun _ => ⟨fun q h => absurd h List.not_mem_nil, by show 0 < 8; decide⟩⟩, rfl, by show 1 < 2; decide, rfl, rfl, ⟨(7, 0), List.mem_singleton.mpr rfl, rfl⟩⟩
  · subst h; exact ⟨rfl, rfl, by decide, rfl, rfl, rfl, rfl⟩
  · subst h; exact ⟨rfl, rfl⟩

/-- The machine after reset with its parts outside the dies changed. -/
def sysOf (f : Sys → Sys) : State := { State.reset with sys := f Sys.reset }

theorem witness_mailbox :
    (∀ s, s = sysOf (fun y => { y with fmrun := some ⟨[1], 0⟩, ready0 := 1, msiMask := 0 }) → s.sys.fmrun = some ⟨[1], 0⟩ ∧ s.isReady 0 = true ∧ s.sys.msiMask.getLsbD 254 = false)
    ∧ ((sysOf (fun y => { y with ready0 := 1 })).sys.fmrun = none ∧ (sysOf (fun y => { y with ready0 := 1 })).isReady 0 = true ∧ Memory.wf State.reset.mem = true) ∧ (0 < 4096 ∧ 127 ≤ 127 ∧ 2 ^ 32 - 1 < 2 ^ 32 ∧ 6 < 255 ∧ 255 < 256)
    ∧ (List.replicate 4092 (0 : Byte)).length = 4092 ∧ (List.replicate 32 (0 : Byte)).length = 32 := by
  refine ⟨fun s h => ?_, ⟨rfl, by decide, rfl⟩, by decide, List.length_replicate, rfl⟩
  subst h; exact ⟨rfl, by decide, by decide⟩

theorem witness_sensors :
    (Memory.wf State.reset.mem = true ∧ State.reset.sys.tripped = false ∧ State.reset.sys.module.length = 4) ∧ (4095 : Nat) < 4096 ∧ 1759 < 110 * 16 ∧ 110 * 16 ≤ 1760 ∧ 105 * 16 ≤ 1680
    ∧ ((State.reset.clusterAt 7 15).bad = none ∧ (45999 < 46000 ∧ 56000 < 56001))
    ∧ (∀ s, s = { sysOf (fun y => { y with vbad := some 0 }) with time := 12000000 } → s.sys.vbad = some 0 ∧ 0 + Config.tickMs ≤ s.time) := by
  refine ⟨by decide, by decide, by decide, by decide, by decide, by decide, fun s h => ?_⟩
  subst h; exact ⟨rfl, by decide⟩

theorem witness_readiness :
    (∀ s, s = sysOf (fun y => { y with ready0 := 5, lval := true }) → s.isReady 0 = true ∧ s.sys.tripped = false ∧ s.isReady 2 = true ∧ s.isReady 191 = false ∧ s.sys.lval = true)
    ∧ (∀ s, s = { sysOf (fun y => { y with ready0 := 1 }) with time := 6000000000 } → s.isReady 0 = true ∧ s.isReady 3 = false ∧ s.sys.lval = false ∧ (∀ d < 8, s.isReady (2 + d) = false)
      ∧ s.sys.powerAt + 500 * Config.tickMs ≤ s.time)
    ∧ (∀ s, s = { sysOf (fun y => { y with ready0 := 33 }) with time := 6000000000 } → s.isReady (2 + 3) = true ∧ (∀ c < 3, s.isReady (2 + c) = false) ∧ s.sys.lval = false)
    ∧ State.reset.time < State.reset.sys.powerAt + 500 * Config.tickMs
    ∧ (∀ s, s = sysOf (fun y => { y with ready0 := BitVec.allOnes 64, uncorrected := [(15, 1025)] }) → s.isReady (10 + 15) = true ∧ 1024 < Tab.get 0 s.sys.uncorrected 15)
    ∧ (∀ s, s = { (allReady State.reset).setClusterAt 7 15 { Cluster.reset with bad := some 0 } with time := 1200000000 } → s.isReady (64 + 127) = true
      ∧ (s.clusterAt (127 / 16) (127 % 16)).bad = some 0 ∧ 0 + 100 * Config.tickMs ≤ s.time)
    ∧ (∀ s, s = { (allReady State.reset).modPort 15 (fun p => { p with downAt := some 0 }) with time := 120000000000 } → s.isReady (26 + 15) = true ∧ (s.portAt 15).downAt = some 0
      ∧ 0 + 10000 * Config.tickMs ≤ s.time) := by
  refine ⟨fun s h => ?_, fun s h => ?_, fun s h => ?_, by decide, fun s h => ?_, fun s h => ?_, fun s h => ?_⟩ <;> subst h
  · exact ⟨by decide, rfl, by decide, by decide, rfl⟩
  · exact ⟨by decide, by decide, rfl, by decide, by decide⟩
  · exact ⟨by decide, by decide, rfl⟩
  · exact ⟨by decide, by decide⟩
  · exact ⟨by decide, rfl, by decide⟩
  · exact ⟨by decide, rfl, by decide⟩

/-- The checks of a bank are free values (log 11): of every state one clause of the power-up statement speaks. -/
theorem witness_firmware :
    (State.reset.isReady 0 = false ∧ State.reset.sys.tripped = false ∧ Memory.wf State.reset.mem = true ∧ State.reset.sys.stage = none)
    ∧ ((∃ n, (n = State.reset.sys.active ∧ (State.reset.bankAt n).Passes State.reset.sys.rollback) ∨ (n = 1 - State.reset.sys.active ∧ ¬ (State.reset.bankAt State.reset.sys.active).Passes State.reset.sys.rollback
        ∧ (State.reset.bankAt n).Passes State.reset.sys.rollback)) ∨ (¬ (State.reset.bankAt State.reset.sys.active).Passes State.reset.sys.rollback
        ∧ ¬ (State.reset.bankAt (1 - State.reset.sys.active)).Passes State.reset.sys.rollback))
    ∧ (∀ s, s = sysOf (fun y => { y with ready0 := 1, stage := some [1, 2] }) → s.isReady 0 = true ∧ s.sys.stage = some [1, 2] ∧ s.sys.banks.length = 2 ∧ s.sys.active < 2 ∧ [1, 2].length = 2) := by
  refine ⟨⟨by decide, rfl, rfl, rfl⟩, ?_, fun s h => ?_⟩
  · by_cases a : (State.reset.bankAt State.reset.sys.active).Passes State.reset.sys.rollback
    · exact .inl ⟨_, .inl ⟨rfl, a⟩⟩
    · by_cases b : (State.reset.bankAt (1 - State.reset.sys.active)).Passes State.reset.sys.rollback
      · exact .inl ⟨_, .inr ⟨rfl, a, b⟩⟩
      · exact .inr ⟨a, b⟩
  · subst h; exact ⟨by decide, rfl, rfl, by decide, rfl⟩

theorem witness_capsAndReports :
    (∀ s, s = sysOf (fun y => { y with ready0 := 1 }) → s.isReady 0 = true ∧ (2 ^ 31 - 1 + 2 ^ 32 - s.sys.cap.last) % 2 ^ 32 = 2 ^ 31 - 1 ∧ (2 ^ 31 + 2 ^ 32 - s.sys.cap.last) % 2 ^ 32 = 2 ^ 31
      ∧ (0 + 2 ^ 32 - s.sys.cap.last) % 2 ^ 32 = 0)
    ∧ State.reset.sys.cap.fallen = false ∧ State.reset.sys.cap.beat + 500 * Config.tickMs ≤ ({ State.reset with time := 6000000000 } : State).time
    ∧ State.reset.time < State.reset.sys.cap.beat + 500 * Config.tickMs
    ∧ (sysOf (fun y => { y with cap := { y.cap with todo := some 5 } })).sys.cap.todo = some 5
    ∧ State.reset.sys.log.length + State.reset.sys.corrected.length ≤ 65536 ∧ 0xBFFFFFFFFF < Config.devBytes
    ∧ (sysOf (fun y => { y with ready0 := 1 })).isReady 0 = true ∧ State.reset.isReady 0 = false := by
  refine ⟨fun s h => by subst h; decide, rfl, by decide, by decide, rfl, by decide, by decide, by decide, by decide⟩

theorem witness_trace :
    (∀ s, s = sysOf (fun y => { y with ports := [(15, { Port.reset with up := true, out := [(3, [1, 2])], unacked := [⟨4, 0, 0, 0, []⟩, ⟨5, 0, 0, 0, []⟩] })] }) → ∀ p, p = s.portAt (15 : BitVec 4).toNat →
      p.up = true ∧ (∀ v < 3, Tab.get [] p.out v = []) ∧ Tab.get [] p.out 3 = [1, 2] ∧ p.txCount < 16 ∧ p.rxCount < 16 ∧ p.rxSeq = 0
      ∧ p.unacked = [⟨4, 0, 0, 0, []⟩] ++ ⟨5, 0, 0, 0, []⟩ :: [] ∧ p.ask = false)
    ∧ (State.reset.portAt (15 : BitVec 4).toNat).up = false
    ∧ (∀ s, s = { sysOf (fun y => { y with ports := [(15, { Port.reset with txCount := 16, ask := true, downAt := some 0 })] }) with time := 120000000 } → ∀ p, p = s.portAt (15 : BitVec 4).toNat →
      16 ≤ p.txCount ∧ p.rxCount < 16 ∧ p.ask = true ∧ p.up = false ∧ p.downAt = some 0 ∧ 0 + 10 * Config.tickMs ≤ s.time
      ∧ s.sys.tripped = false ∧ s.net.reqs = []) := by
  refine ⟨fun s h p hp => ?_, by decide, fun s h p hp => ?_⟩ <;> subst h <;> subst hp
  · exact ⟨rfl, by decide, rfl, by decide, by decide, rfl, rfl, rfl⟩
  · exact ⟨by decide, by decide, rfl, rfl, rfl, by decide, rfl, rfl⟩

/-- Between two entries of a leakage table (22, the text below Table 22.4): 4,000 mW at 85 °C and 5,200 mW at 95 °C give 4,240 mW at 87 °C. -/
theorem test_leakage : interpolate [(85 * 16, 4000), (95 * 16, 5200)] (87 * 16) = 4240 := by decide

theorem witness_estimate :
    (∀ k, k = (sysOf (fun y => { y with clusters := [(127, { Cluster.reset with temp := 1521 })] })).clusterAt 7 15 → k.opened = true ∧ 95 * 16 < k.temp)
    ∧ (State.reset.clusterAt 7 15).opened = true ∧ ¬ 95 * 16 < (State.reset.clusterAt 7 15).temp
    ∧ (sysOf (fun y => { y with clusters := [(127, { Cluster.reset with opened := false })] })).clusterAt 7 15 = { Cluster.reset with opened := false }
    ∧ (∀ s, s = { (four false false []).modCtx (fun c => { c with started := .launch 1, groups := [(0, 0)] }) with time := 24000000 } → s.MayMove 0 0 0 0) := by
  refine ⟨fun k h => ?_, by decide, by decide, by decide, fun s h => ?_⟩
  · subst h; decide
  · subst h; exact ⟨by decide, by decide, by decide, by decide, ⟨1, rfl⟩, by decide, by decide, by decide, rfl, rfl, rfl, by decide⟩

/-- A run's first step, in the state that `withFetchWord` gives, of ADD G1, G2, G3. -/
def first (w : Nat) : State := State.reset.withFetchWord 32 w

/-- Context 0 of core 0 issues next, its PC at a page of code whose first word is w. -/
def issuing (w : Nat) : State := { atWord w ((gs []).modCtx (fun c => { c with run := .runnable })) with agenda := [.issue 0 0] }

theorem witness_step :
    (∀ e ∈ [(0x000C4102, 4), (0xFFFFFFFE, 4), (0x0001, 2)], ∀ s t, s = issuing e.1 → t = { s.tick with agenda := [] } → s.agenda = .issue 0 0 :: [] ∧ t.mayIssue 0 0 = true
      ∧ t.boundary 0 0 = none ∧ t.fetch 0 0 = .bytes (bytesOf e.2 e.1))
    ∧ decode (bytesOf 4 0x000C4102) = some (.add false 1 2 3, 4) ∧ decode (bytesOf 4 0xFFFFFFFE) = none
    ∧ (∀ s, s = { State.reset with agenda := [.event .leadDieChoice] } → s.agenda = .event .leadDieChoice :: [] ∧ isEvent .leadDieChoice = true)
    ∧ State.reset.agenda = [] := by
  refine ⟨fun e he s t h ht => ?_, by decide, by decide, fun s h => ?_, rfl⟩
  · subst h; subst ht
    simp only [List.mem_cons, List.not_mem_nil, or_false] at he
    obtain rfl | rfl | rfl := he <;> exact ⟨rfl, by decide +kernel, by rfl, by rfl⟩
  · subst h; exact ⟨rfl, by decide⟩

theorem witness_fetch :
    ∀ w ∈ [1, 2], ∀ s, s = atWord w (gs []) → s.locate 0 (s.ctxAt 0 0).space.ptroot (s.ctxAt 0 0).stat.sup .fetch (s.ctxAt 0 0).pc 2 true false = .ok (.dev 0x50000 false false 0, some pageLeaf)
      ∧ s.locate 0 (s.ctxAt 0 0).space.ptroot (s.ctxAt 0 0).stat.sup .fetch ((s.ctxAt 0 0).pc + 2) 2 true false = .ok (.dev 0x50002 false false 0, some pageLeaf)
      ∧ s.keyHeld 0x50000 = false ∧ s.homeLost (.dev 0x50000 false false 0) = false ∧ s.homeDown (.dev 0x50000 false false 0) = false ∧ s.bad 0x50000 2 = false
      ∧ bitOf (natOf (s.rd 0x50000 2)) 1 = (w == 2) := by
  intro w hw s h
  subst h
  simp only [List.mem_cons, List.not_mem_nil, or_false] at hw
  obtain rfl | rfl := hw <;> exact ⟨rfl, rfl, by decide, rfl, rfl, by decide, by decide +kernel⟩

theorem witness_frames :
    (∃ t, exec (.add false 1 2 3) (gs [(2, 5), (3, 4)]) = .next t ∧ t.ctx.g 1 = 9) ∧ (gs [(2, 5), (3, 4)]).ctx.g 3 ≠ 0
    ∧ (∃ t, exec (.st false .d 2 1 0) (gs [(1, 64), (2, 5)]) = .next t ∧ t.rdW (spadKey 0 64) = 5)
    ∧ (gs [(1, 64)]).memOk ∧ (gs [(1, 64)]).Local false 64 8 ∧ (gs []).ctx.g 2 ≠ 0xFFFFFFFFFFFFFFFF ∧ (gs [(2, 0xFFFFFFFFFFFFFFFF)]).ctx.g 2 = 0xFFFFFFFFFFFFFFFF := by
  refine ⟨⟨_, rfl, by decide +kernel⟩, by decide, ⟨_, rfl, by decide +kernel⟩, by unfold State.memOk; decide, by constructor <;> decide, by decide, by decide⟩

theorem witness_loopAndRing :
    (gs [(1, 5), (2, 1)]).Clean ∧ flag (gs []).ctx.pc 0 = false ∧ (1 : Reg) ≠ 0 ∧ ((gs [(1, 5)]).ctx.g 1 - 1 ≠ 0) ∧ ((gs [(2, 1)]).ctx.g 2 - 1 = 0) ∧ 0 < ((gs [(1, 5)]).ctx.g 1).toNat
    ∧ (1 % 8 ≠ 0)
    ∧ (∀ x y, x = (0x41 : Word) → y = (0x180000 : Word) → fld x 63 21 = 0 ∧ fld x 5 1 = 0 ∧ y.toNat % 64 = 0 ∧ fld x 20 6 < y.toNat / 64 ∧ y.toNat / 64 ≤ 0x180000 / 64)
    ∧ (∀ x y, x = (0x40 : Word) → y = (64 : Word) → ¬ (fld x 63 21 = 0 ∧ fld x 5 1 = 0 ∧ y.toNat % 64 = 0 ∧ fld x 20 6 < y.toNat / 64 ∧ y.toNat / 64 ≤ 0x180000 / 64)) := by
  refine ⟨⟨by decide, by decide⟩, by decide, by decide, by decide, by decide, by decide, by decide, fun x y h g => ?_, fun x y h g => ?_⟩
  · subst h; subst g; decide
  · subst h; subst g; decide

theorem witness_systemHandler :
    ((supGs [(1, 0x4000), (2, 1)]).Clean ∧ (supGs []).ctx.stat.sup = true ∧ flag ((supGs [(1, 0x4000)]).ctx.g 1) 0 = false ∧ flag ((supGs [(2, 1)]).ctx.g 2) 0 = true)
    ∧ (gs []).ctx.stat.sup = false ∧ (supGs []).ctx.sysBusy = false ∧ Eff.system 3 = true ∧ (supGs [(1, 0x4000)]).ctx.g 1 ≠ 0 ∧ (supGs []).ctx.g 3 = 0
    ∧ (({ eff := 8, stk := true } : Raise).stk = true → (supGs []).ctx.stat.emrg = false) := by
  refine ⟨⟨⟨by decide, by decide⟩, by decide, by decide, by decide⟩, by decide, by decide, by decide, by decide, by decide, fun _ => rfl⟩

theorem witness_encoding :
    ((Instr.add false 1 2 3).wf = true ∧ encode (.add false 1 2 3) ≠ [] ∧ encode .leadDieChoice = [])
    ∧ (∀ w, w = 0xF80000B2 → bitOf w 1 = true ∧ bitsOf w 7 2 = 0x2C ∧ bitOf w 31 = true) ∧ (∀ w, w = 0x780000BA → bitsOf w 7 2 = 0x2E ∧ bitOf w 31 = false)
    ∧ (bitsOf 0x780000B6 7 2 = 0x2D)
    ∧ (∀ w, w = 0x2FFC036A → bitOf w 1 = true ∧ bitsOf w 7 2 = 0x1A ∧ bitsOf w 31 28 = 2 ∧ bitsOf w 12 10 = 0) ∧ bitsOf 0x3FFC036A 31 28 = 3
    ∧ (∀ w, w = 0x00040042 → bitOf w 1 = true ∧ bitsOf w 7 2 = 0x10 ∧ bitsOf w 17 13 = 0) ∧ (bitsOf 0x46 7 2 = 0x11 ∧ bitsOf 0x1A 7 2 = 0x06 ∧ bitsOf 0x1E 7 2 = 0x07)
    ∧ (∀ c, Cond.code c = bitsOf 0x1E 20 18 → c = .eq) := by
  refine ⟨⟨by decide, by decide, rfl⟩, fun w h => ?_, fun w h => ?_, by decide, fun w h => ?_, by decide, fun w h => ?_, by decide, fun c => by cases c <;> decide⟩ <;> subst h <;> decide

theorem witness_memoryForm : ∃ s t, State.memOk s ∧ step s = .next t :=
  ⟨{ State.reset with agenda := [.event .leadDieChoice] }, _, by unfold State.memOk; decide, rfl⟩

theorem witness_addressAndUnary :
    (gs [(1, 7)]).Clean
    ∧ (∀ w, w = 0x0008412E → w < 2 ^ 32 ∧ bitOf w 1 = true ∧ bitsOf w 7 2 = 0x0B ∧ bitOf w 20 = false) ∧ bitOf 0x0010412E 20 = true
    ∧ (∀ row, unaryRows[9]? = some row → row.2 0x123456789 = 0x23456789)
    ∧ (∀ w, w = 0x04804106 → w < 2 ^ 32 ∧ bitOf w 1 = true ∧ bitsOf w 7 2 = 0x01 ∧ bitsOf w 31 23 = 9 ∧ bitsOf w 22 18 = 0) ∧ bitsOf 0x04844106 22 18 ≠ 0 := by
  refine ⟨⟨by decide, by decide⟩, fun w h => ?_, by decide, fun row h => ?_, fun w h => ?_, by decide⟩
  · subst h; decide
  · obtain rfl := Option.some.inj h; rfl
  · subst h; decide

end Sys2Proof.Tests
end

section
/-! PROOF. A step is exec of what the bytes at the PC decode to, or of the event that the agenda names (01 R17, 04 R89). -/

namespace Sys2Proof.Machine

/-- A turn with nothing due at its boundary issues the instruction that the fetched bytes decode to. -/
theorem turn_decodes {t : State} {pid cx n : Nat} {i : Instr} {l : List Byte} (hm : t.mayIssue pid cx = true)
    (hb : t.boundary pid cx = none) (hf : t.fetch pid cx = .bytes l) (hd : decode l = some (i, n)) :
    t.turn pid cx = exec i ((t.ready pid cx).fillFetch pid cx) := by
  simp only [State.turn, hm, hb, hf, hd, if_true]

/-- A turn whose bytes decode to nothing issues the unassigned encoding (04 R107). -/
theorem turn_undecoded {t : State} {pid cx : Nat} {l : List Byte} (hm : t.mayIssue pid cx = true)
    (hb : t.boundary pid cx = none) (hf : t.fetch pid cx = .bytes l) (hd : decode l = none) :
    t.turn pid cx = exec (.unassignedEncoding (BitVec.ofNat 32 (natOf l))) (t.ready pid cx) := by
  simp only [State.turn, hm, hb, hf, hd, if_true]

/-- With an empty agenda the step performs one of the moves that stand open (log 3). -/
theorem step_performs_open {s : State} (h : s.agenda = []) : ∃ m ∈ s.open_, step s = s.tick.perform m := by
  have hlt : Config.choice s.stepNo % s.open_.length < s.open_.length :=
    Nat.mod_lt _ (List.length_pos_iff.2 (open_ne_nil s))
  have hc : s.chosen = some s.open_[Config.choice s.stepNo % s.open_.length] := List.getElem?_eq_getElem hlt
  refine ⟨_, List.getElem_mem hlt, ?_⟩
  simp only [step, h, hc]

/-- A first halfword with bit 1 clear is the whole instruction (04 R89). -/
theorem fetch_halfword {s : State} {pid cx : Nat} {l : List Byte}
    (h : s.fetchHalf pid (s.ctxAt pid cx) (s.ctxAt pid cx).pc = .bytes l) (hw : bitOf (natOf l) 1 = false) :
    s.fetch pid cx = .bytes l := by
  simp [State.fetch, h, hw]

/-- A first halfword with bit 1 set is followed by a second one (04 R89). -/
theorem fetch_word {s : State} {pid cx : Nat} {l m : List Byte}
    (h : s.fetchHalf pid (s.ctxAt pid cx) (s.ctxAt pid cx).pc = .bytes l) (hw : bitOf (natOf l) 1 = true)
    (h' : s.fetchHalf pid (s.ctxAt pid cx) ((s.ctxAt pid cx).pc + 2) = .bytes m) : s.fetch pid cx = .bytes (l ++ m) := by
  simp only [State.fetch, h, hw, h', if_true]

/-- Settles O41: the agenda's head decides the turn or the event, and each halfword is what memory holds at its place. -/
theorem stepRunsDecodedInstruction : Obligations.StepRunsDecodedInstruction := by
  refine ⟨fun s t pid cx n i l rest ha ht hm hb hf => ?_, fun s t i rest ha ht he => ?_, fun s ha => step_performs_open ha,
    fun s pid cx c h h' l l' k k' hc hl hk h1 h2 h3 h4 h5 => ?_⟩
  · rw [step_issue ha, ← ht]
    exact ⟨turn_decodes hm hb hf, turn_undecoded hm hb hf⟩
  · rw [step_event ha he, ht]
  · subst hc hk
    have first := fetchHalf_bytes s pid _ _ h l hl h1 h2 h3 h4 h5
    refine ⟨fetch_halfword first, fun hw hl' hk' g1 g2 g3 g4 g5 => ?_⟩
    subst hk'
    exact fetch_word first hw (fetchHalf_bytes s pid _ _ h' l' hl' g1 g2 g3 g4 g5)

end Sys2Proof.Machine
end

section
/-! PROOF. What keeps the canonical form of memory (log 1): the rules for states, for descriptions under execution and for outcomes. -/

namespace Sys2Proof.Machine

theorem State.memOk.ite {c : Prop} [Decidable c] {s t : State} (hs : s.memOk) (ht : t.memOk) : (if c then s else t).memOk := by
  split <;> assumption

theorem State.memOk.foldl {α : Type} {f : State → α → State} {l : List α} {s : State}
    (hf : ∀ t a, t.memOk → (f t a).memOk) (hs : s.memOk) : (l.foldl f s).memOk := by
  induction l generalizing s with
  | nil => exact hs
  | cons a l ih => exact ih (hf s a hs)

theorem State.memOk.wr {s : State} {k bs} (h : s.memOk) : (s.wr k bs).memOk := Memory.wf_wrs _ _ _ h

/-- Only the bytes of memory matter. -/
theorem State.memOk.update {s : State} {agenda pid cx time stepNo ctxs cores dies ue net vers copies nextCopy launches nextLaunch
    nextAct saved images spads sys}
    (h : s.memOk) : State.memOk ⟨agenda, pid, cx, time, stepNo, ctxs, cores, dies, s.mem, ue, net, vers, copies, nextCopy, launches,
      nextLaunch, nextAct, saved, images, spads, sys⟩ := h

/-- The state of a pair has memory in canonical form. -/
def FstOk {α : Type} (p : State × α) : Prop := p.1.memOk

theorem FstOk.mk {α : Type} {s : State} {a : α} (h : s.memOk) : FstOk (s, a) := h

theorem FstOk.of_eq {α : Type} {p : State × α} {t : State} {a : α} (hp : FstOk p) (e : p = (t, a)) : t.memOk := by
  subst e
  exact hp

theorem FstOk.ite {α : Type} {c : Prop} [Decidable c] {p q : State × α} (hp : FstOk p) (hq : FstOk q) : FstOk (if c then p else q) := by
  split <;> assumption

theorem FstOk.foldl {α β : Type} {f : State × β → α → State × β} {l : List α} {p : State × β}
    (hf : ∀ q a, FstOk q → FstOk (f q a)) (hp : FstOk p) : FstOk (l.foldl f p) := by
  induction l generalizing p with
  | nil => exact hp
  | cons a l ih => exact ih (hf p a hp)

/-- The state that may be there has memory in canonical form. -/
def OptOk : Option State → Prop
  | some t => t.memOk
  | none => True

namespace OptOk

variable {α : Type} {o : Option State} {s t : State}

theorem elim (h : OptOk o) (e : o = some t) : t.memOk := by
  subst e
  exact h

theorem getD (ho : OptOk o) (hs : s.memOk) : (o.getD s).memOk := by
  cases o <;> assumption

theorem ite {c : Prop} [Decidable c] {q : Option State} (ho : OptOk o) (hq : OptOk q) : OptOk (if c then o else q) := by
  split <;> assumption

theorem map {f : α → State} {a : Option α} (hf : ∀ x, (f x).memOk) : OptOk (a.map f) := by
  cases a with
  | none => trivial
  | some x => exact hf x

theorem bind {f : α → Option State} {a : Option α} (hf : ∀ x, OptOk (f x)) : OptOk (a.bind f) := by
  cases a with
  | none => trivial
  | some x => exact hf x

theorem findSome? {f : α → Option State} {l : List α} (hf : ∀ x, OptOk (f x)) : OptOk (l.findSome? f) := by
  cases e : l.findSome? f with
  | none => trivial
  | some t =>
    obtain ⟨x, -, hx⟩ := List.exists_of_findSome?_eq_some e
    exact (hf x).elim hx

end OptOk

/-- The state that a halt ends in, if it ends in one, has memory in canonical form. -/
def Halt.memOk : Halt → Prop
  | .stop t => t.memOk
  | _ => True

/-- The state that a description ends with, if it ends in one, has memory in canonical form. -/
def EndOk {α : Type} : Except Halt (α × State) → Prop
  | .ok p => p.2.memOk
  | .error e => e.memOk

/-- A description that keeps the canonical form of memory, whether it completes or ends in a state of its own. -/
def Act.Keeps {α : Type} (m : Act α) : Prop := ∀ s : State, s.memOk → EndOk (m s)

/-- The next state of an outcome, if it has one, has memory in canonical form. -/
def Kept : Out → Prop
  | .next t => t.memOk
  | _ => True

theorem EndOk.ite {α : Type} {c : Prop} [Decidable c] {r q : Except Halt (α × State)} (hr : EndOk r) (hq : EndOk q) :
    EndOk (if c then r else q) := by
  split <;> assumption

theorem Kept.next {t : State} (h : t.memOk) : Kept (.next t) := h

theorem Kept.ite {c : Prop} [Decidable c] {o q : Out} (ho : Kept o) (hq : Kept q) : Kept (if c then o else q) := by
  split <;> assumption

namespace Act.Keeps

variable {α β : Type} {m : Act α}

theorem pure {a : α} : Keeps (Pure.pure a : Act α) := fun _ h => h

theorem bind {f : α → Act β} (hm : m.Keeps) (hf : ∀ a, (f a).Keeps) : (m >>= f).Keeps := by
  intro s hs
  have h := hm s hs
  rw [Act.bind_apply]
  revert h
  cases m s with
  | error e => exact id
  | ok p => exact fun h => hf p.1 p.2 h

/-- What follows a look at the state may end in the state that was seen. -/
theorem get {f : State → Act α} (hf : ∀ s : State, s.memOk → (f s).Keeps) : ((MonadState.get : Act State) >>= f).Keeps :=
  fun s hs => hf s hs s hs

theorem ite {c : Prop} [Decidable c] {n : Act α} (hm : m.Keeps) (hn : n.Keeps) : (if c then m else n).Keeps := by split <;> assumption
theorem raise {r : Raise} : (Act.raise r : Act α).Keeps := fun _ _ => trivial
theorem wait {w : Wait} : (Act.wait w : Act α).Keeps := fun _ _ => trivial
theorem park {w : Wait} : (Act.park w : Act α).Keeps := fun _ _ => trivial
theorem stop {t : State} (h : t.memOk) : (Act.stop t : Act α).Keeps := fun _ _ => h
theorem check {b : Bool} {r : Raise} : (Act.check b r).Keeps := .ite .raise .pure
theorem waitIf {b : Bool} {w : Wait} : (Act.waitIf b w).Keeps := .ite .wait .pure
theorem upd {f : State → State} (h : ∀ s : State, s.memOk → (f s).memOk) : (Act.upd f).Keeps := h
theorem set {t : State} (h : t.memOk) : (MonadStateOf.set t : Act PUnit).Keeps := fun _ _ => h
theorem ctx : Act.ctx.Keeps := fun _ h => h
theorem core : Act.core.Keeps := fun _ h => h
theorem inSH : Act.inSH.Keeps := fun _ h => h
theorem updCtx {f : Ctx → Ctx} : (Act.updCtx f).Keeps := fun _ h => h
theorem updCore {f : Core → Core} : (Act.updCore f).Keeps := fun _ h => h

theorem interlock {d : Dest} : (Act.interlock d).Keeps := by
  intro s hs
  unfold Act.interlock
  split
  · trivial
  · split
    · trivial
    · exact hs

end Act.Keeps
end Sys2Proof.Machine
end

section
/-! PROOF. Each operation of the model keeps the canonical form of memory, in the order of the model. Memory changes only by State.wr
and by the loss of volatile cells (State.lostWork, State.restart), and both keep the form; every other operation is put together from
these, and its proof follows its own branches. -/

namespace Sys2Proof.Machine

/-! ### Bytes of memory -/

theorem State.memOk.setSp {s : State} {pid off n v} (h : s.memOk) : (s.setSp pid off n v).memOk := .wr h

/-! ### MSI-X and the persistent log (24 R444, 25 R454) -/

theorem State.memOk.msix {s : State} {v} (h : s.memOk) : (s.msix v).memOk := by
  unfold State.msix
  exact .ite h h

theorem State.memOk.logWith {s : State} {k src data} (h : s.memOk) : (s.logWith k src data).memOk := by
  unfold State.logWith
  exact .ite (.msix h) h

theorem State.memOk.logEvent {s : State} {k src x y} (h : s.memOk) : (s.logEvent k src x y).memOk := .logWith h
theorem State.memOk.errorAt {s : State} {k} (h : s.memOk) : (s.errorAt k).memOk := .logEvent h

/-! ### Words of the tables -/

theorem State.memOk.wrW {s : State} {k w} (h : s.memOk) : (s.wrW k w).memOk := .wr h

/-! ### Register operands, records and tokens, delivery of effects, issue (01, 06) -/

theorem Act.Keeps.rdG {r} : (Act.rdG r).Keeps := by
  unfold Act.rdG
  exact .bind .interlock fun _ => .bind .ctx fun _ => .pure

theorem Act.Keeps.rdP {r} : (Act.rdP r).Keeps := by
  unfold Act.rdP
  exact .bind .interlock fun _ => .bind .ctx fun _ => .pure

theorem Act.Keeps.rdV {r} : (Act.rdV r).Keeps := by
  unfold Act.rdV
  exact .bind .interlock fun _ => .bind .ctx fun _ => .pure

theorem Act.Keeps.wrG {r x} : (Act.wrG r x).Keeps := by
  unfold Act.wrG
  exact .bind .interlock fun _ => .updCtx

theorem Act.Keeps.wrP {r x} : (Act.wrP r x).Keeps := by
  unfold Act.wrP
  exact .bind .interlock fun _ => .updCtx

theorem Act.Keeps.wrV {r x} : (Act.wrV r x).Keeps := by
  unfold Act.wrV
  exact .bind .interlock fun _ => .updCtx

theorem Act.Keeps.pendDest {d} : (Act.pendDest d).Keeps := by
  unfold Act.pendDest
  exact .bind .interlock fun _ => .updCtx

theorem Act.Keeps.sup : (Act.sup).Keeps := by
  unfold Act.sup
  exact .bind .ctx fun _ => .pure

theorem Act.Keeps.needSup : (Act.needSup).Keeps := by
  unfold Act.needSup
  exact .bind .sup fun _ => .check

theorem State.memOk.setRec {s : State} {pid off r} (h : s.memOk) : (s.setRec pid off r).memOk := .wr h
theorem State.memOk.bumpGen {s : State} {pid off} (h : s.memOk) : (s.bumpGen pid off).memOk := .wrW h
theorem State.memOk.setBusy {s : State} {pid off on} (h : s.memOk) : (s.setBusy pid off on).memOk := .wrW h

theorem State.memOk.endAct {s : State} {pid cx} (h : s.memOk) : (s.endAct pid cx).memOk := by
  unfold State.endAct
  exact .update (.update (by split; exact h; exact h; exact h))

theorem State.memOk.endFail {s : State} {pid cx eff arg addr} (h : s.memOk) : (s.endFail pid cx eff arg addr).memOk := .endAct h

theorem State.memOk.toSystem {s : State} {pid cx r pc async vl} (h : s.memOk) : (s.toSystem pid cx r pc async vl).memOk := by
  unfold State.toSystem
  exact .ite (.endFail h) (.ite (.ite h (.endFail h)) h)

theorem State.memOk.toFrame {s : State} {pid cx f r pc g4 vl segment} (h : s.memOk) : (s.toFrame pid cx f r pc g4 vl segment).memOk :=
  .update (.setBusy (.wr (.setRec h)))

theorem State.memOk.sysFault {s : State} {pid cx r pc} (h : s.memOk) : (s.sysFault pid cx r pc).memOk := by
  unfold State.sysFault
  exact .ite (.endFail h) (.toSystem h)

theorem State.memOk.deliver {s : State} {pid cx r here pc async performed vl} (h : s.memOk) :
    (s.deliver pid cx r here pc async performed vl).memOk := by
  unfold State.deliver
  refine .ite (.toSystem h) ?_
  dsimp only
  split
  · exact .ite h (.endFail h)
  · exact .toSystem h
  · exact .toSystem (.errorAt h)
  · refine .ite (.toSystem (.errorAt h)) ?_
    refine .ite (.toFrame h) ?_
    exact .ite (.toSystem h) (.ite (.toSystem (.errorAt h)) (by split; exact .sysFault h; exact .toFrame h))

theorem State.memOk.fault {s : State} {pid cx r} (h : s.memOk) : (s.fault pid cx r).memOk := by
  unfold State.fault
  exact .ite (.endFail h) (.deliver h)

theorem State.memOk.killRec {s : State} {pid cap} (h : s.memOk) : (s.killRec pid cap).memOk := .wrW h

theorem State.memOk.dropHandling {s : State} {pid cx hm} (h : s.memOk) : (s.dropHandling pid cx hm).memOk := by
  unfold State.dropHandling
  exact .ite h (.setBusy (.killRec h))

theorem State.memOk.resumeWith {s : State} {pid cx sysTok r cap value pc_ many} (h : s.memOk) :
    (s.resumeWith pid cx sysTok r cap value pc_ many).memOk := by
  unfold State.resumeWith
  extract_lets c f s1 s2 inner busy s3 t s4
  have h1 : s1.memOk := .foldl (fun _ _ h => .bumpGen h) h
  have h2 : s2.memOk := .ite h1 (.dropHandling h1)
  have h3 : s3.memOk := .foldl (fun _ _ h => .setBusy h) h2
  have h4 : s4.memOk := .ite h3 (.ite (.setBusy h3) (.killRec (.setBusy h3)))
  exact .update h4

theorem FstOk.discardWith {s : State} {pid cx sysTok r cap} (h : s.memOk) : FstOk (s.discardWith pid cx sysTok r cap) := by
  unfold State.discardWith
  exact .ite (.mk (.update (.foldl (fun _ _ h1 => .bumpGen h1) h))) (.mk (.killRec (.ite h (.update (.setBusy (.foldl (fun _ _ h1 =>
      .bumpGen h1) h))))))

theorem State.memOk.switch {s : State} {sp} (h : s.memOk) : (s.switch sp).memOk := by
  unfold State.switch
  exact .ite h h

theorem Act.Keeps.giveWay : (Act.giveWay).Keeps := .upd fun _ h1 => .switch h1

theorem State.memOk.noteError {s : State} {eff addr} (h : s.memOk) : (s.noteError eff addr).memOk := by
  unfold State.noteError
  exact .ite (.logEvent h) h

/-- What becomes of a description: the end of it, or, where it raised or waits, the state before it. -/
theorem State.memOk.settle {s : State} {sp r} (h : s.memOk) (hr : EndOk r) : (s.settle sp r).memOk := by
  unfold State.settle
  split
  · exact .switch hr
  · exact .ite h (.ite h (.fault (.noteError h)))
  · exact .ite (.fault h) h
  · exact .switch h
  · exact .switch h
  · exact hr

theorem Kept.issue {s : State} {sp len m} (h : s.memOk) (hm : m.Keeps) : Kept (Machine.issue s sp len m) := .next (.settle h (hm _ h))

/-! ### Queues, flags, loads and stores of a context (10) -/

theorem State.memOk.setQueue {s : State} {pid cx q l} (h : s.memOk) : (s.setQueue pid cx q l).memOk := by
  unfold State.setQueue
  exact .ite h h

theorem State.memOk.wakeIdle {s : State} {pid} (h : s.memOk) : (s.wakeIdle pid).memOk := by
  unfold State.wakeIdle
  exact .foldl (fun _ _ h1 => by split; exact h1; exact h1; exact h1) h

theorem State.memOk.push {s : State} {pid cx q ws} (h : s.memOk) : (s.push pid cx q ws).memOk := by
  unfold State.push
  exact .ite (.wakeIdle (.setQueue h)) (.setQueue h)

theorem State.memOk.pushOwn {s : State} {act q ws} (h : s.memOk) : (s.pushOwn act q ws).memOk := by
  unfold State.pushOwn
  split
  · exact .push h
  · exact .wr (.wr h)
  · exact h

theorem State.memOk.popOwn {s : State} {act q} (h : s.memOk) : (s.popOwn act q).memOk := by
  unfold State.popOwn
  split
  · exact .setQueue h
  · exact .wr (.wr h)
  · exact h

theorem State.memOk.addPend {s : State} {act p} (h : s.memOk) : (s.addPend act p).memOk := by
  unfold State.addPend
  split
  · exact h
  · exact h
  · exact h

theorem State.memOk.addFlags {s : State} {act fl en lanes issuer} (h : s.memOk) : (s.addFlags act fl en lanes issuer).memOk := by
  unfold State.addFlags
  exact .ite h (by split; exact h; exact .update (.wrW h); exact h)

theorem Act.Keeps.gate : (Act.gate).Keeps := by
  intro s h
  unfold Act.gate
  exact .ite trivial h

theorem Act.Keeps.drain : (Act.drain).Keeps := by
  intro s h
  unfold Act.drain
  exact .ite trivial h

theorem Act.Keeps.reach {hm n} : (Act.reach hm n).Keeps := by
  intro s h
  unfold Act.reach
  split
  · exact .ite trivial (.ite trivial h)
  · exact .ite trivial h

theorem Act.Keeps.regsInOrder : (Act.regsInOrder).Keeps := by
  intro s h
  unfold Act.regsInOrder
  exact .ite trivial h

theorem Act.Keeps.place {acc stk ea n natural scalar} : (Act.place acc stk ea n natural scalar).Keeps := by
  intro s h
  unfold Act.place
  exact .ite (.endFail h) (.ite trivial (by dsimp only; split; exact trivial; exact h; exact h))

theorem Act.Keeps.post {pieces op rel acq here ea} : (Act.post pieces op rel acq here ea).Keeps := .upd fun _ h1 => h1
theorem Act.Keeps.result {d v} : (Act.result d v).Keeps := .upd fun _ h1 => h1

theorem Act.Keeps.ownBytes {off n} : (Act.ownBytes off n).Keeps := by
  intro s h
  unfold Act.ownBytes
  exact .ite trivial (.ite trivial h)

theorem Act.Keeps.engineLoad {off n ea d} : (Act.engineLoad off n ea d).Keeps := by
  unfold Act.engineLoad
  exact .bind .regsInOrder fun _ => .bind .check fun _ => .bind .pendDest fun _ => .ite (.get fun _ _ => .result) (.ite (.get fun _ _ =>
      .result) (.upd fun _ h1 => h1))

theorem Act.Keeps.engineStore {off n ea v} : (Act.engineStore off n ea v).Keeps := by
  unfold Act.engineStore
  exact .bind .check fun _ => .bind .drain fun _ => .get fun _ _ => .get fun _ _ => .get fun _ _ => .bind .waitIf fun _ => .upd fun _ h4 =>
      .push h4

theorem Act.Keeps.load {here ea n sx d stk acq} : (Act.load here ea n sx d stk acq).Keeps := by
  unfold Act.load
  refine .bind .gate fun _ => .bind .place fun (_, _) => ?_
  dsimp only
  split
  · exact .get fun _ _ => .ite (.bind .ownBytes fun _ => .get fun _ _ => .get fun _ _ => .ite (.bind .interlock fun _ =>
        .bind .check fun _ => .wrG) (.bind .pendDest fun _ => .bind (.upd fun _ h4 => .ite (.errorAt h4) h4) fun _ =>
        .result)) (.bind .pendDest fun _ => .post)
  · exact .ite .engineLoad (.bind .pendDest fun _ => .post)
  · exact .bind .pendDest fun _ => .post

theorem Act.Keeps.store {here ea n v stk rel} : (Act.store here ea n v stk rel).Keeps := by
  unfold Act.store
  refine .bind .gate fun _ => .bind .place fun (_, _) => ?_
  dsimp only
  split
  · exact .get fun _ _ => .ite (.ite (.bind .drain fun _ => .bind .ownBytes fun _ => .get fun _ _ => .bind .check fun _ => .upd fun _ h3 =>
        .wr h3) (.bind .ownBytes fun _ => .get fun _ _ => .bind .check fun _ => .upd fun _ h3 => .wr h3)) (.get fun _ _ =>
        .bind .check fun _ => .post)
  · exact .ite .engineStore .post
  · exact .get fun _ _ => .bind .check fun _ => .post

theorem Act.Keeps.readSpad {here off n} : (Act.readSpad here off n).Keeps := by
  unfold Act.readSpad
  exact .bind .gate fun _ => .bind .ownBytes fun _ => .get fun _ _ => .get fun _ _ => .bind .check fun _ => .get fun _ _ => .get fun _ _ =>
      .pure

theorem Act.Keeps.writeSpad {here off bs} : (Act.writeSpad here off bs).Keeps := by
  unfold Act.writeSpad
  exact .bind .gate fun _ => .bind .ownBytes fun _ => .get fun _ _ => .get fun _ _ => .bind .check fun _ => .upd fun _ h3 => .wr h3

theorem Act.Keeps.spans {here l} : (Act.spans here l).Keeps := by
  induction l with
  | nil => exact .pure
  | cons e l ih => exact .bind .ownBytes fun _ => .get fun _ _ => .get fun _ _ => .bind .check fun _ => ih

theorem Act.Keeps.jump {t} : (Act.jump t).Keeps := by
  unfold Act.jump
  exact .bind .check fun _ => .updCtx

/-! ### Instruction fetch (01 R17) -/

theorem State.memOk.fillFetch {s : State} {pid cx} (h : s.memOk) : (s.fillFetch pid cx).memOk := by
  unfold State.fillFetch
  dsimp only
  split
  · exact h
  · exact h

/-! ### Special registers (01 R14, 05 R123) -/

theorem State.memOk.writePreq {s : State} {pid v} (h : s.memOk) : (s.writePreq pid v).memOk := .foldl (fun _ _ h1 => .ite h1 h1) h

theorem Act.Keeps.sregNumber {n} : (Act.sregNumber n).Keeps := by
  unfold Act.sregNumber
  exact .get fun _ _ => .bind .check fun _ => .check

theorem Kept.execMts {sp a i} {s : State} (h : s.memOk) : Kept (Machine.execMts sp a i s) := by
  unfold Machine.execMts
  exact .issue h (.bind .sregNumber fun _ => .bind .check fun _ => .bind .sup fun _ => .bind .check fun _ => .bind .rdG fun _ =>
      .bind .ctx fun _ => .bind .check fun _ => .ite (.upd fun _ h1 => .writePreq h1) (.ite (.bind .check fun _ => .updCtx) .updCtx))

/-! ### Writes at the home of a byte (10 R280 to R286) -/

theorem State.memOk.reclaim {s : State} {line i} (h : s.memOk) : (s.reclaim line i).memOk := by
  unfold State.reclaim
  dsimp only
  split
  · exact h
  · exact h

theorem State.memOk.install {s : State} {line ts data} (h : s.memOk) : (s.install line ts data).memOk := by
  unfold State.install
  refine .wr (.update (.update ?_))
  refine .ite ?_ ?_
  · exact .update (.ite (by split; exact .reclaim h; exact h) h)
  · exact .ite (by split; exact .reclaim h; exact h) h

theorem State.memOk.singleCommit {s : State} {line data by_} (h : s.memOk) : (s.singleCommit line data by_).memOk := by
  unfold State.singleCommit
  exact .update (by split; exact .update (.install h); exact .update (.install h))

theorem State.memOk.heldInstall {s : State} {hm n by_} (h : s.memOk) : (s.heldInstall hm n by_).memOk := by
  unfold State.heldInstall
  split
  · split
    · exact h
    · exact .ite h h
  · exact h

theorem State.memOk.putVersioned {s : State} {pa bs by_} (h : s.memOk) : (s.putVersioned pa bs by_).memOk :=
  .foldl (fun _ _ h1 => .singleCommit h1) h

theorem State.memOk.cancelHeld {s : State} {hm n by_} (h : s.memOk) : (s.cancelHeld hm n by_).memOk := by
  unfold State.cancelHeld
  split
  · exact .ite h (.update (.foldl (fun _ _ h1 => h1) h))
  · exact h

theorem State.memOk.putReplicated {s : State} {pa dmask bs by_} (h : s.memOk) : (s.putReplicated pa dmask bs by_).memOk := .update (.wr h)

theorem State.memOk.put {s : State} {hm bs by_} (h : s.memOk) : (s.put hm bs by_).memOk := by
  unfold State.put
  split
  · exact .putVersioned h
  · exact .putReplicated h
  · exact h
  · exact .wr h

/-! ### Context images (21 R405) -/

theorem State.memOk.refreshPend {s : State} {act} (h : s.memOk) : (s.refreshPend act).memOk := by
  unfold State.refreshPend
  exact .ite h (.foldl (fun _ _ h1 => .wrW h1) h)

theorem State.memOk.holdStreams {s : State} {pid act} (h : s.memOk) : (s.holdStreams pid act).memOk := .foldl (fun _ _ h1 => .ite h1 h1) h

/-! ### Records in memory (08, 10) -/

theorem State.memOk.setElem {s : State} {pid t i j v} (h : s.memOk) : (s.setElem pid t i j v).memOk := by
  unfold State.setElem
  split
  · exact .setSp h
  · exact h

theorem State.memOk.spillTasks {s : State} {pid k l} (h : s.memOk) : (s.spillTasks pid k l).memOk := by
  induction l generalizing s k with
  | nil => exact h
  | cons t l ih =>
    refine ih ?_
    split
    · exact .wr h
    · exact h

theorem State.memOk.setDeque {s : State} {pid l} (h : s.memOk) : (s.setDeque pid l).memOk := .spillTasks h

theorem State.memOk.setPending {s : State} {pid slot p} (h : s.memOk) : (s.setPending pid slot p).memOk := by
  unfold State.setPending
  dsimp only
  split
  · split
    · exact .wr h
    · exact h
  · exact h

/-! ### The Farrier: readiness, trips, firmware, caps, the mailbox (25) -/

theorem State.memOk.setReady {s : State} {n on} (h : s.memOk) : (s.setReady n on).memOk := by
  unfold State.setReady
  exact .ite h (.msix (.logEvent h))

theorem State.memOk.chooseLead {s : State} (h : s.memOk) : (s.chooseLead).memOk := by
  unfold State.chooseLead
  exact .ite h (by split; exact h; exact h)

theorem State.memOk.lostWork {s : State} (h : s.memOk) : s.lostWork.memOk := (Memory.wf_filter _ _ h).1

theorem State.memOk.trip {s : State} {src reading} (h : s.memOk) : (s.trip src reading).memOk := by
  unfold State.trip
  exact .ite h (.msix (.logEvent (.update (.lostWork h))))

theorem Kept.execInputVoltageTrip {reading} {s : State} (h : s.memOk) : Kept (Machine.execInputVoltageTrip reading s) := by
  unfold Machine.execInputVoltageTrip
  exact .next (by split; exact .ite (.trip h) h; exact h)

theorem Kept.execOutOfService {kind unit} {s : State} (h : s.memOk) : Kept (Machine.execOutOfService kind unit s) := by
  unfold Machine.execOutOfService
  refine .next ?_
  refine .ite (.ite (.update (.ite (.logEvent (.setReady h)) h)) h) ?_
  refine .ite ?_ ?_
  · split
    · exact .ite (.ite (.logEvent (.setReady h)) h) h
    · exact h
  · exact .ite (by split; exact .ite (.ite (.logEvent (.setReady h)) h) h; exact h) h

theorem Kept.execSoftError {space addr correctable} {s : State} (h : s.memOk) : Kept (Machine.execSoftError space addr correctable s) := by
  unfold Machine.execSoftError
  exact .next (.ite h (by dsimp only; split; exact h; exact .ite h h))

theorem Kept.execPowerGood {s : State} (h : s.memOk) : Kept (Machine.execPowerGood s) := by
  unfold Machine.execPowerGood
  exact .next (.ite h (by dsimp only; split; exact .logEvent h; exact .setReady (.logEvent h)))

theorem State.memOk.restart {s : State} (h : s.memOk) : s.restart.memOk := (Memory.wf_filter _ _ h).1

theorem FstOk.stageChunk {s : State} {off data} (h : s.memOk) : FstOk (s.stageChunk off data) := by
  unfold State.stageChunk
  split
  · exact .ite (.mk h) (.mk h)
  · exact .mk h

theorem FstOk.activate {s : State} (h : s.memOk) : FstOk (s.activate) := by
  unfold State.activate
  split
  · exact .mk h
  · exact .ite (.mk (.logEvent h)) (.mk h)

theorem State.memOk.putCap {s : State} {c} (h : s.memOk) : (s.putCap c).memOk := by
  unfold State.putCap
  exact .ite h (.logEvent h)

theorem FstOk.capMessage {s : State} {seq watts} (h : s.memOk) : FstOk (s.capMessage seq watts) := by
  unfold State.capMessage
  exact .ite (.mk (.putCap h)) (.ite (.mk (.putCap h)) (.mk h))

theorem Kept.execBudgetUpdate {s : State} (h : s.memOk) : Kept (Machine.execBudgetUpdate s) := by
  unfold Machine.execBudgetUpdate
  exact .next (by split; exact h; exact .foldl (fun _ _ h1 => h1) h)

theorem FstOk.command {s : State} {op len req} (h : s.memOk) : FstOk (s.command op len req) := by
  unfold State.command
  refine .ite (.ite (.mk h) (.mk h)) (.ite (.ite (.mk h) (.mk h)) (.ite (.ite ?_ (.mk h))
    (.ite (.ite (.mk (FstOk.stageChunk h)) (.mk h)) (.ite (.ite (.mk (FstOk.activate h)) (.mk h)) (.ite (.ite (.mk h) (.mk h)) (.mk h))))))
  split
  next e => exact .of_eq (.capMessage h) e

theorem State.memOk.writeFmcmd {s : State} {v} (h : s.memOk) : (s.writeFmcmd v).memOk := by
  unfold State.writeFmcmd
  split
  · exact h
  · exact .ite h (.update (FstOk.command h))

theorem State.memOk.mailbox {s : State} {op len req} (h : s.memOk) : (s.mailbox op len req).memOk := .writeFmcmd (.ite h (.wr h))

theorem Kept.execMailboxCompletion {s : State} (h : s.memOk) : Kept (Machine.execMailboxCompletion s) := by
  unfold Machine.execMailboxCompletion
  exact .next (by split; exact h; exact .ite h (.msix (.update (.wr h))))

/-! ### Trace ports and links (24 R437 to R442) -/

theorem Kept.execTraceFlitSend {port resend} {s : State} (h : s.memOk) : Kept (Machine.execTraceFlitSend port resend s) := by
  unfold Machine.execTraceFlitSend
  exact .next (.ite h (.ite h (by split; exact h; exact .ite h h)))

theorem State.memOk.writeTrst {s : State} {port v} (h : s.memOk) : (s.writeTrst port v).memOk := by
  unfold State.writeTrst
  exact .ite h h

theorem State.memOk.setBuffer {s : State} {hm l} (h : s.memOk) : (s.setBuffer hm l).memOk := by
  unfold State.setBuffer
  split
  · split
    · exact h
    · exact h
  · exact h

theorem FstOk.readOutside {s : State} {hm n fresh} (h : s.memOk) : FstOk (s.readOutside hm n fresh) := by
  unfold State.readOutside
  dsimp only
  split
  · exact .ite (.mk h) (.mk (.setBuffer h))
  · exact .mk (.setBuffer h)

theorem State.memOk.onLink {s : State} {hm} (h : s.memOk) : (s.onLink hm).memOk := by
  unfold State.onLink
  split
  · split
    · exact h
    · exact h
  · exact h

theorem State.memOk.wroteOutside {s : State} {hm n} (h : s.memOk) : (s.wroteOutside hm n).memOk := by
  unfold State.wroteOutside
  exact .ite (.foldl (fun _ _ h1 => .setBuffer h1) h) h

/-! ### Package registers and accesses from outside (24, 25) -/

theorem State.memOk.writeLqctl {s : State} {q v} (h : s.memOk) : (s.writeLqctl q v).memOk := by
  unfold State.writeLqctl
  exact .ite h h

theorem State.memOk.setVectorMask {s : State} {v on} (h : s.memOk) : (s.setVectorMask v on).memOk := by
  unfold State.setVectorMask
  exact .ite h h

theorem State.memOk.regWrite {s : State} {off n v} (h : s.memOk) : (s.regWrite off n v).memOk := by
  unfold State.regWrite
  refine .ite ?_ (.ite (.ite (.writeTrst h) h) (.ite (.ite (.setVectorMask (.wr h)) (.wr h)) (.ite (.ite (.writeFmcmd h) h) (.ite h (.ite
      (.wr h) h)))))
  dsimp only
  split
  · exact .ite h h
  · exact .writeLqctl h
  · exact .ite h h
  · exact h
  · exact h
  · exact h

theorem State.memOk.outsideWrite {s : State} {pa bs} (h : s.memOk) : (s.outsideWrite pa bs).memOk := by
  unfold State.outsideWrite
  exact .ite h (.ite (.put h) (.heldInstall h))

theorem FstOk.outsideRead {s : State} {pa n} (h : s.memOk) : FstOk (s.outsideRead pa n) := by
  unfold State.outsideRead
  exact .ite (.mk (.errorAt h)) (.mk h)

theorem Kept.execHostAccess {write bar addr size v} {s : State} (h : s.memOk) : Kept (Machine.execHostAccess write bar addr size v s) := by
  unfold Machine.execHostAccess
  exact .next (.ite (.ite (.ite h h) (.ite (.regWrite h) h)) (.ite (.ite (.ite (.ite h h) h) (.ite (.outsideWrite h) (.ite h (.update
      (FstOk.outsideRead h))))) (.ite (.wr h) h)))

theorem Kept.execPeerAccess {port write addr size v} {s : State} (h : s.memOk) :
    Kept (Machine.execPeerAccess port write addr size v s) := by
  unfold Machine.execPeerAccess
  exact .next (.ite (.ite (.wr h) h) (.ite h (.ite h (.ite (.outsideWrite h) (.ite h (.update (FstOk.outsideRead h)))))))

/-! ### Accesses carried out at their homes (12 R308 to R311) -/

theorem FstOk.readHome {s : State} {pid hm n fresh} (h : s.memOk) : FstOk (s.readHome pid hm n fresh) := by
  unfold State.readHome
  split
  · exact .mk h
  · exact .ite (.ite (.mk h) (.mk (.onLink (FstOk.readOutside h)))) (.ite (.mk (.errorAt h)) (.mk h))

theorem FstOk.readPiece {s : State} {r p} (h : s.memOk) : FstOk (s.readPiece r p) := FstOk.readHome h

theorem State.memOk.writeHome {s : State} {hm bs by_} (h : s.memOk) : (s.writeHome hm bs by_).memOk := by
  unfold State.writeHome
  split
  · exact .regWrite h
  · exact .ite (.onLink (.wroteOutside (.put h))) (.put h)

theorem State.memOk.writePiece {s : State} {r hm bs} (h : s.memOk) : (s.writePiece r hm bs).memOk := .writeHome h

theorem State.memOk.noteLost {s : State} {p} (h : s.memOk) : (s.noteLost p).memOk := by
  unfold State.noteLost
  exact .ite h (.errorAt h)

theorem State.memOk.storeLost {s : State} {r e} (h : s.memOk) : (s.storeLost r e).memOk := .addPend h

theorem State.memOk.closeLanes {s : State} {r fl en mask bad} (h : s.memOk) : (s.closeLanes r fl en mask bad).memOk := by
  unfold State.closeLanes
  dsimp only
  split
  · exact .storeLost (.addFlags h)
  · exact .addFlags h

theorem State.memOk.rmwPiece {s : State} {r p d en f} (h : s.memOk) : (s.rmwPiece r p d en f).memOk := by
  unfold State.rmwPiece
  exact .ite (.update (.noteLost h)) (.update (.addFlags (by split; exact .writePiece h; exact h)))

theorem FstOk.performPiece {s : State} {r j p} (h : s.memOk) : FstOk (s.performPiece r j p) := by
  unfold State.performPiece
  dsimp only
  split
  · exact .mk (.update (FstOk.readPiece h))
  · exact .mk (.ite (.storeLost (.noteLost h)) (.writePiece h))
  · exact .mk (.rmwPiece h)
  · exact .mk (.rmwPiece h)
  · split
    · exact .mk h
    · exact .mk (.ite (.update (FstOk.readPiece h)) (FstOk.readPiece h))
  · exact .mk (.ite (.closeLanes (.ite (.update (.ite (.noteLost h) (.writePiece h))) (.ite (.noteLost h) (.writePiece h)))) (.ite (.update
        (.ite (.noteLost h) (.writePiece h))) (.ite (.noteLost h) (.writePiece h))))
  · split
    · exact .mk h
    · exact .mk (.ite (.closeLanes (.ite (.noteLost h) (.writePiece h))) (.ite (.noteLost h) (.writePiece h)))
  · exact .ite (.mk (.storeLost (.errorAt h))) (.mk (.ite (.pushOwn (.addFlags (.writePiece h))) (.addFlags (.writePiece h))))

theorem State.memOk.putReq {s : State} {k r} (h : s.memOk) : (s.putReq k r).memOk := by
  unfold State.putReq
  exact .ite (.refreshPend h) h

theorem State.memOk.performAccess {s : State} {i repl} (h : s.memOk) : (s.performAccess i repl).memOk := by
  unfold State.performAccess
  split
  · exact h
  · split
    · exact h
    · split
      · exact h
      · exact .ite h (.ite (.putReq (.cancelHeld (FstOk.performPiece h))) (.ite (.heldInstall h) h))

theorem Kept.execReplicaApply {die} {s : State} (h : s.memOk) : Kept (Machine.execReplicaApply die s) := by
  unfold Machine.execReplicaApply
  exact .next (by split; exact h; exact .refreshPend (.update (.wr h)))

theorem Kept.execPeerNegativeResponse {i} {s : State} (h : s.memOk) : Kept (Machine.execPeerNegativeResponse i s) := by
  unfold Machine.execPeerNegativeResponse
  refine .next ?_
  split
  · exact h
  · split
    · exact h
    · split
      · refine .ite h ?_
        dsimp only
        split
        · exact .putReq h
        · exact .putReq h
        · exact .putReq h
        · exact .putReq (.ite h h)
        · exact .putReq (.ite (.closeLanes h) h)
        · exact .putReq (.ite (.closeLanes h) h)
        · exact .putReq (.storeLost h)
      · exact h

theorem State.memOk.writeOwn {s : State} {hm bs} (h : s.memOk) : (s.writeOwn hm bs).memOk := .update (.writeHome h)

theorem State.memOk.performLocal {s : State} {pid no n} (h : s.memOk) : (s.performLocal pid no n).memOk := by
  induction n generalizing s with
  | zero => exact h
  | succ n ih =>
    unfold State.performLocal
    split
    · exact h
    · split
      · exact h
      · split
        · exact h
        · split
          · exact h
          · exact .ite (ih (.putReq (FstOk.performPiece h))) h

theorem Act.Keeps.postNow {pieces op rel acq here ea} : (Act.postNow pieces op rel acq here ea).Keeps := .upd fun _ h1 => .performLocal h1

theorem Act.Keeps.unmarked {l} : (Act.unmarked l).Keeps := by
  induction l with
  | nil => exact .pure
  | cons p l ih =>
    refine .get fun _ _ => ?_
    dsimp only
    split
    · exact .bind .waitIf fun _ => ih
    · exact ih

theorem Act.Keeps.rmw {hm n op rel acq here ea} : (Act.rmw hm n op rel acq here ea).Keeps := by
  unfold Act.rmw
  exact .get fun _ _ => .ite (.ite (.bind .drain fun _ => .bind .unmarked fun _ => .postNow) (.bind .unmarked fun _ => .postNow)) .post

theorem Act.Keeps.engineTake {off n ea} : (Act.engineTake off n ea).Keeps := by
  unfold Act.engineTake
  refine .bind .check fun _ => .get fun _ _ => .ite .pure ?_
  refine .ite .pure ?_
  split
  · exact .wait
  · exact .bind .waitIf fun _ => .bind (.upd fun _ h2 => .setQueue h2) fun _ => .pure

theorem Act.Keeps.readNow {hm n ea fresh} : (Act.readNow hm n ea fresh).Keeps := by
  unfold Act.readNow
  split
  · exact .bind .regsInOrder fun _ => .ite (.bind .engineTake fun _ => .pure) (.get fun _ _ => .pure)
  · exact .bind .reach fun _ => .get fun _ h1 => .bind (.set (FstOk.readHome h1)) fun _ => .pure

theorem Kept.execRegisterResultArrival {i} {s : State} (h : s.memOk) : Kept (Machine.execRegisterResultArrival i s) := by
  unfold Machine.execRegisterResultArrival
  exact .next (by split; exact h; exact .ite h h)

theorem State.memOk.serve {s : State} {pid t v} (h : s.memOk) : (s.serve pid t v).memOk := by
  unfold State.serve
  exact .ite h h

theorem State.memOk.emptyMailbox {s : State} {pid m} (h : s.memOk) : (s.emptyMailbox pid m).memOk := .foldl (fun _ _ h1 => .serve h1) h

theorem Kept.execPageWalk {core cx va} {s : State} (h : s.memOk) : Kept (Machine.execPageWalk core cx va s) := by
  unfold Machine.execPageWalk
  refine .next ?_
  split
  · exact .ite h (by split; exact h; exact h)
  · exact h

theorem Kept.execQueuePop {core i} {s : State} (h : s.memOk) : Kept (Machine.execQueuePop core i s) := by
  unfold Machine.execQueuePop
  refine .next ?_
  split
  · exact h
  · exact .ite h (.ite h (by split; exact h; exact .ite (.update (.setQueue h)) (.setQueue h)))

/-! ### Control transfer, the end and the waits of a context (05) -/

theorem Act.Keeps.jumpReg {mailbox a} : (Act.jumpReg mailbox a).Keeps := by
  unfold Act.jumpReg
  exact .ite (.bind .core fun _ => .bind .waitIf fun _ => .pure) .rdG

theorem Act.Keeps.spillSlot {here slot ret} : (Act.spillSlot here slot ret).Keeps := by
  unfold Act.spillSlot
  exact .bind .place fun (_, _) => .get fun _ _ => .get fun _ _ => .bind .waitIf fun _ => .get fun _ _ => .bind .check fun _ => .store

theorem Act.Keeps.call {here t} : (Act.call here t).Keeps := by
  unfold Act.call
  refine .bind .check fun _ => .bind .rdG fun _ => .bind .check fun _ => .bind .ctx fun _ => ?_
  split
  · exact .ite (.bind .check fun _ => .bind .spillSlot fun _ => .updCtx) .updCtx
  · exact .updCtx

theorem Kept.retOp {sp len} {s : State} (h : s.memOk) : Kept (Machine.retOp sp len s) := by
  unfold Machine.retOp
  refine .issue h (.bind .ctx fun _ => ?_)
  split
  · exact .bind .check fun _ => .updCtx
  · exact .bind .check fun _ => .bind .rdG fun _ => .bind .gate fun _ => .bind .place fun (_, _) => .bind .readNow fun (_, _) =>
        .bind .check fun _ => .bind .check fun _ => .updCtx

theorem Kept.doneOp {s : State} (h : s.memOk) : Kept (Machine.doneOp s) := .issue h fun _ h1 => .endAct h1

theorem Kept.execIdle {sp a} {s : State} (h : s.memOk) : Kept (Machine.execIdle sp a s) := by
  unfold Machine.execIdle
  exact .issue h (.bind .inSH fun _ => .bind .check fun _ => .bind .rdG fun _ => .get fun _ h1 => .stop (.switch h1))

theorem Act.Keeps.watchRead {ea} : (Act.watchRead ea).Keeps := by
  unfold Act.watchRead
  exact .bind .gate fun _ => .bind .place fun (_, _) => .bind .readNow fun (_, _) => .get fun _ _ => .pure

theorem Kept.execWaita {sp d a b} {s : State} (h : s.memOk) : Kept (Machine.execWaita sp d a b s) := by
  unfold Machine.execWaita
  exact .issue h (.bind .inSH fun _ => .bind .check fun _ => .bind .rdG fun _ => .bind .rdG fun _ => .bind .interlock fun _ =>
      .bind .watchRead fun (_, _, _) => .bind .check fun _ => .ite (.bind .updCtx fun _ => .giveWay) (.ite .park (.bind .wrG fun _ =>
      .giveWay)))

theorem Kept.takeOp {sp d a peek} {s : State} (h : s.memOk) : Kept (Machine.takeOp sp d a peek s) := by
  unfold Machine.takeOp
  exact .issue h (.bind .pendDest fun _ => .bind .core fun _ => .ite .updCore (.bind .result fun _ => .ite .pure (.upd fun _ h1 =>
      .emptyMailbox h1)))

theorem Kept.execWaitm {sp a} {s : State} (h : s.memOk) : Kept (Machine.execWaitm sp a s) := by
  unfold Machine.execWaitm
  exact .issue h (.bind .inSH fun _ => .bind .check fun _ => .bind .core fun _ => .ite .giveWay .park)

/-! ### Message, task and group instructions (09) -/

theorem Act.Keeps.await {here sp w} : (Act.await here sp w).Keeps := by
  intro s h
  unfold Act.await
  exact .switch h

theorem Act.Keeps.send {lid b} : (Act.send lid b).Keeps := by
  unfold Act.send
  exact .get fun _ _ => .ite (.bind .waitIf fun _ => .upd fun _ h2 => h2) (.upd fun _ h2 => h2)

theorem Act.Keeps.ask {a} : (Act.ask a).Keeps := .upd fun _ h1 => h1

theorem Act.Keeps.checkMessage {x y z cast} : (Act.checkMessage x y z cast).Keeps := by
  unfold Act.checkMessage
  exact .bind .check fun _ => .ite (.bind .check fun _ => .bind .check fun _ => .bind .check fun _ => .bind .check fun _ =>
      .bind .check fun _ => .check) (.get fun _ _ => .bind .check fun _ => .bind .check fun _ => .bind .check fun _ => .bind .check fun _ =>
      .bind .check fun _ => .check)

theorem Kept.execSend {sp a b c} {s : State} (h : s.memOk) : Kept (Machine.execSend sp a b c s) := by
  unfold Machine.execSend
  exact .issue h (.bind .rdG fun _ => .bind .rdG fun _ => .bind .rdG fun _ => .bind .checkMessage fun _ => .bind .readSpad fun _ =>
      .get fun _ _ => .send)

theorem Kept.execMcast {sp a b c} {s : State} (h : s.memOk) : Kept (Machine.execMcast sp a b c s) := by
  unfold Machine.execMcast
  exact .issue h (.bind .rdG fun _ => .bind .rdG fun _ => .bind .rdG fun _ => .bind .checkMessage fun _ => .bind .readSpad fun _ =>
      .get fun _ _ => .upd fun _ h2 => h2)

theorem Kept.execSendr {sp a b} {s : State} (h : s.memOk) : Kept (Machine.execSendr sp a b s) := by
  unfold Machine.execSendr
  exact .issue h (.bind .rdG fun _ => .bind .rdG fun _ => .get fun _ _ => .bind .check fun _ => .send)

theorem State.memOk.bindCopies {s : State} {pid tag} (h : s.memOk) : (s.bindCopies pid tag).memOk := by
  unfold State.bindCopies
  split
  · exact h
  · exact h

theorem Kept.execSubtag {sp a b} {s : State} (h : s.memOk) : Kept (Machine.execSubtag sp a b s) := by
  unfold Machine.execSubtag
  exact .issue h (.bind .needSup fun _ => .bind .rdG fun _ => .bind .rdG fun _ => .bind .check fun _ => .bind .check fun _ =>
      .bind .core fun _ => .bind .check fun _ => .bind (.upd fun _ h1 => .bindCopies h1) fun _ => .bind .updCore fun _ =>
      .bind .ask fun _ => .await)

theorem Kept.execHcfg {sp d a b c} {s : State} (h : s.memOk) : Kept (Machine.execHcfg sp d a b c s) := by
  unfold Machine.execHcfg
  exact .issue h (.bind .rdG fun _ => .bind .rdG fun _ => .bind .rdG fun _ => .bind .check fun _ => .bind .check fun _ =>
      .bind .check fun _ => .bind .sup fun _ => .bind .check fun _ => .bind .ctx fun _ => .bind .core fun _ => .bind .updCore fun _ => .wrG)

theorem State.memOk.nextTaskId {s : State} {die det} (h : s.memOk) : (s.nextTaskId die det).memOk := by
  unfold State.nextTaskId
  exact .ite h h

theorem Act.Keeps.spawnPath {det} : (Act.spawnPath det).Keeps := by
  unfold Act.spawnPath
  exact .bind .ctx fun _ => .bind .check fun _ => .bind .check fun _ => .pure

theorem Act.Keeps.placeTask {l t lid} : (Act.placeTask l t lid).Keeps := by
  unfold Act.placeTask
  refine .get fun _ _ => .bind .waitIf fun _ => .ite ?_ (.ite (.bind .waitIf fun _ => .bind (.upd fun _ h2 =>
      .setDeque (.nextTaskId h2)) fun _ => .pure) (.bind .waitIf fun _ => .bind (.upd fun _ h2 => .update (.nextTaskId h2)) fun _ => .pure))
  split
  · exact .wait
  · exact .bind (.upd fun _ h2 => .setPending h2) fun _ => .pure

theorem Act.Keeps.launch : (Act.launch).Keeps := by
  intro s h
  unfold Act.launch
  split
  · exact h
  · exact h

theorem Kept.execSpawn {sp d a} {s : State} (h : s.memOk) : Kept (Machine.execSpawn sp d a s) := by
  unfold Machine.execSpawn
  exact .issue h (.bind .rdG fun _ => .bind .interlock fun _ => .bind .check fun _ => .bind .readSpad fun _ => .bind .launch fun _ =>
      .get fun _ _ => .bind .check fun _ => .bind .spawnPath fun _ => .bind .check fun _ => .bind .check fun _ => .bind .drain fun _ =>
      .bind .placeTask fun _ => .bind .updCtx fun _ => .wrG)

theorem Act.Keeps.increment {here j} : (Act.increment here j).Keeps := by
  unfold Act.increment
  exact .bind .gate fun _ => .bind .place fun (_, _) => .bind .reach fun _ => .get fun _ _ => .get fun _ _ => .bind .check fun _ =>
      .bind .drain fun _ => .get fun _ _ => .bind .waitIf fun _ => .upd fun _ h4 => .writeOwn h4

theorem Kept.execFork {sp d a b c} {s : State} (h : s.memOk) : Kept (Machine.execFork sp d a b c s) := by
  unfold Machine.execFork
  exact .issue h (.bind .rdG fun _ => .bind .rdG fun _ => .bind .rdG fun _ => .bind .rdG fun _ => .bind .check fun _ =>
      .bind .check fun _ => .bind .launch fun _ => .bind .ctx fun _ => .get fun _ _ => .ite .wrG (.bind .waitIf fun _ =>
      .ite (.bind .drain fun _ => .get fun _ _ => .bind (.upd fun _ h3 => .setDeque (.nextTaskId h3)) fun _ => .bind .updCtx fun _ =>
      .wrG) (.bind .increment fun _ => .get fun _ _ => .bind (.upd fun _ h3 => .setDeque (.nextTaskId h3)) fun _ => .bind .updCtx fun _ =>
      .wrG)))

theorem Kept.execJoinw {sp a} {s : State} (h : s.memOk) : Kept (Machine.execJoinw sp a s) := by
  unfold Machine.execJoinw
  exact .issue h (.bind .inSH fun _ => .bind .check fun _ => .bind .rdG fun _ => .bind .watchRead fun (_, _, _) => .bind .check fun _ =>
      .ite .giveWay .park)

theorem Kept.execCntinit {sp a b} {s : State} (h : s.memOk) : Kept (Machine.execCntinit sp a b s) := by
  unfold Machine.execCntinit
  exact .issue h (.bind .rdG fun _ => .bind .rdG fun _ => .bind .gate fun _ => .bind .place fun (_, _) => .get fun _ _ => .get fun _ _ =>
      .bind .check fun _ => .rmw)

theorem Act.Keeps.readMem {here n ea} : (Act.readMem here n ea).Keeps := by
  induction n generalizing ea with
  | zero => exact .pure
  | succ n ih => exact .bind .place fun (_, _) => .bind .readNow fun (_, _) => .bind .check fun _ => .bind ih fun _ => .pure

theorem Kept.execLaunch {sp d a} {s : State} (h : s.memOk) : Kept (Machine.execLaunch sp d a s) := by
  unfold Machine.execLaunch
  exact .issue h (.bind .rdG fun _ => .bind .interlock fun _ => .bind .check fun _ => .bind .gate fun _ => .bind .drain fun _ =>
      .bind .readMem fun _ => .get fun _ _ => .bind .waitIf fun _ => .bind (.upd fun _ h2 => h2) fun _ => .wrG)

theorem Act.Keeps.handle {a} : (Act.handle a).Keeps := by
  unfold Act.handle
  exact .bind .rdG fun _ => .get fun _ _ => .bind .check fun _ => .pure

theorem Kept.execGjoin {sp d a} {s : State} (h : s.memOk) : Kept (Machine.execGjoin sp d a s) := by
  unfold Machine.execGjoin
  exact .issue h (.bind .handle fun (_, _) => .bind .interlock fun _ => .bind .send fun _ => .await)

theorem Kept.barrierWait {sp a b arrives} {s : State} (h : s.memOk) : Kept (Machine.barrierWait sp a b arrives s) := by
  unfold Machine.barrierWait
  exact .issue h (.bind .inSH fun _ => .bind .check fun _ => .bind .handle fun (_, _) => .bind .rdG fun _ => .bind .ctx fun _ =>
      .bind .updCtx fun _ => .bind .send fun _ => .await)

/-! ### Arrivals on VN0 and barriers (08, 09) -/

theorem State.memOk.engineSend {s : State} {src act launch lid b} (h : s.memOk) : (s.engineSend src act launch lid b).memOk := by
  unfold State.engineSend
  exact .ite h h

theorem State.memOk.answer {s : State} {pid cx act f} (h : s.memOk) : (s.answer pid cx act f).memOk := by
  unfold State.answer
  exact .ite h h

theorem State.memOk.releaseWaiter {s : State} {w} (h : s.memOk) : (s.releaseWaiter w).memOk := by
  unfold State.releaseWaiter
  split
  · exact h
  · exact .update (.wrW h)
  · exact h

theorem State.memOk.failWaiter {s : State} {w r} (h : s.memOk) : (s.failWaiter w r).memOk := by
  unfold State.failWaiter
  split
  · exact .ite (.fault h) h
  · exact h
  · exact h

theorem State.memOk.settleBar {s : State} {core slot} (h : s.memOk) : (s.settleBar core slot).memOk := by
  unfold State.settleBar
  exact .ite (.foldl (fun _ _ h1 => .releaseWaiter h1) h) h

theorem State.memOk.arriveBar {s : State} {core slot} (h : s.memOk) : (s.arriveBar core slot).memOk := by
  unfold State.arriveBar
  exact .ite h (.settleBar h)

theorem State.memOk.registerBar {s : State} {core slot w} (h : s.memOk) : (s.registerBar core slot w).memOk := by
  unfold State.registerBar
  dsimp only
  split
  · exact .failWaiter h
  · exact .ite (.releaseWaiter h) h

theorem State.memOk.applyBar {s : State} {core slot p op} (h : s.memOk) : (s.applyBar core slot p op).memOk := by
  unfold State.applyBar
  dsimp only
  split
  · exact .ite (.answer h) (.answer (.settleBar h))
  · exact .ite h (.settleBar h)
  · exact .foldl (fun _ _ h1 => .releaseWaiter h1) h
  · exact .arriveBar h
  · exact .registerBar (.ite (.arriveBar h) h)
  · exact .settleBar h
  · exact .settleBar h
  · exact .foldl (fun _ _ h1 => .failWaiter h1) h

/-- The state that a packet has left for its core. -/
theorem State.memOk.arriving {s t : State} {i p} (h : s.memOk) (e : s.arriving i = some (p, t)) : t.memOk := by
  unfold State.arriving at e
  split at e
  · cases e
  · split at e
    · cases e
    · cases e
      exact h

theorem Kept.execBarrierUpdate {i} {s : State} (h : s.memOk) : Kept (Machine.execBarrierUpdate i s) := by
  unfold Machine.execBarrierUpdate
  refine .next ?_
  split
  next e =>
    split
    · exact .applyBar (h.arriving e)
    · exact h
  · exact h

/-! ### Receive streams of the rank unit (17) -/

theorem State.memOk.holdFlit {s : State} {pid n src f} (h : s.memOk) : (s.holdFlit pid n src f).memOk := by
  unfold State.holdFlit
  dsimp only
  split
  · exact .ite h (.ite h (.update (.wr h)))
  · exact .ite h (.ite h (.ite h (.update (.wr h))))

theorem State.memOk.rankArrive {s : State} {pid n src f} (h : s.memOk) : (s.rankArrive pid n src f).memOk := by
  unfold State.rankArrive
  exact .ite h (.ite h (.ite (.holdFlit h) (.ite h h)))

theorem State.memOk.setChan {s : State} {pid t c v} (h : s.memOk) : (s.setChan pid t c v).memOk := .setElem h

theorem State.memOk.applyEntry {s : State} {pid n p e} (h : s.memOk) : (s.applyEntry pid n p e).memOk := by
  unfold State.applyEntry
  dsimp only
  split
  · exact .setChan h
  · exact h

theorem State.memOk.runRound {s : State} {pid n} (h : s.memOk) : (s.runRound pid n).memOk := by
  unfold State.runRound
  refine .update ?_
  refine .foldl (fun _ _ h1 => .ite ?_ ?_) h
  · split
    · exact .ite h1 (.setChan h1)
    · exact h1
  · split
    · exact .applyEntry h1
    · exact h1

theorem State.memOk.rankStep {s : State} {pid n} (h : s.memOk) : (s.rankStep pid n).memOk := by
  unfold State.rankStep
  refine .ite h ?_
  refine .ite h ?_
  refine .ite h ?_
  exact .ite (.ite (.update (.runRound h)) h) (by split; exact h; exact .update (.update (.applyEntry h)))

/-! ### The SYS group (21 R405 to R416) -/

theorem State.memOk.putPages {s : State} {hs bs} (h : s.memOk) : (s.putPages hs bs).memOk := by
  induction hs generalizing s bs with
  | nil => exact h
  | cons x hs ih => exact ih (.put h)

theorem Act.Keeps.imageOperands {a b d} : (Act.imageOperands a b d).Keeps := by
  unfold Act.imageOperands
  exact .bind .needSup fun _ => .bind .rdG fun _ => .bind .rdG fun _ => .bind .check fun _ => .bind .interlock fun _ => .pure

theorem State.memOk.saveCtx {s : State} {home slot} (h : s.memOk) : (s.saveCtx home slot).memOk :=
  .update (.update (.update (.holdStreams h)))

theorem Act.Keeps.saveContext {d x} : (Act.saveContext d x).Keeps := by
  unfold Act.saveContext
  refine .get fun _ h1 => ?_
  split
  · exact .wrG
  · exact .ite .wrG (.bind .waitIf fun _ => .bind .waitIf fun _ => .bind .waitIf fun _ => .stop (.saveCtx (.put h1)))

theorem State.memOk.unholdOf {pid act} {s : State} {i} (h : s.memOk) : (State.unholdOf pid act s i).memOk := by
  unfold State.unholdOf
  exact .ite h h

theorem State.memOk.loadCtx {s : State} {n ea w} (h : s.memOk) : (s.loadCtx n ea w).memOk := .foldl (fun _ _ h1 => .unholdOf h1) h

theorem Act.Keeps.loadContext {d x} : (Act.loadContext d x).Keeps := by
  unfold Act.loadContext
  refine .get fun _ h1 => ?_
  split
  · exact .wrG
  · exact .bind .waitIf fun _ => .ite .wrG (.ite .wrG (.ite .wrG (.bind .waitIf fun _ => .bind .waitIf fun _ =>
        .ite (.stop (.update (.loadCtx (.endAct h1)))) (.bind (.set (.loadCtx h1)) fun _ => .wrG))))

theorem State.memOk.clearSpad {s : State} {pid lo hi} (h : s.memOk) : (s.clearSpad pid lo hi).memOk := .update (.wr (.wr (.wr h)))
theorem State.memOk.savedCore {s : State} {hs} (h : s.memOk) : (s.savedCore hs).memOk := .clearSpad (.update (.update (.putPages h)))

theorem Act.Keeps.saveCore {d x} : (Act.saveCore d x).Keeps := by
  unfold Act.saveCore
  refine .get fun _ h1 => ?_
  split
  · exact .wrG
  · exact .ite .wrG (.bind .waitIf fun _ => .bind .waitIf fun _ => .bind .waitIf fun _ => .bind (.set (.savedCore h1)) fun _ => .wrG)

theorem State.memOk.discard {s : State} {pid launch} (h : s.memOk) : (s.discard pid launch).memOk := .update (.wr h)

theorem State.memOk.loadedCore {s : State} {hs e w launch} (h : s.memOk) : (s.loadedCore hs e w launch).memOk := by
  unfold State.loadedCore
  exact .ite (.discard (.update (.update (.update (.wr (.wr (.wr h))))))) (.update (.update (.update (.wr (.wr (.wr h))))))

theorem Act.Keeps.loadCore {d x} : (Act.loadCore d x).Keeps := by
  unfold Act.loadCore
  refine .get fun _ h1 => ?_
  split
  · exact .wrG
  · refine .bind .waitIf fun _ => .ite .wrG ?_
    exact .ite .wrG (by split; exact .wrG; exact .ite .wrG (.bind (.set (.loadedCore h1)) fun _ => .wrG))

theorem Kept.ctxSaveOp {sp d a b} {s : State} (h : s.memOk) : Kept (Machine.ctxSaveOp sp d a b s) := by
  unfold Machine.ctxSaveOp
  exact .issue h (.bind .imageOperands fun (_, _) => .ite .saveCore .saveContext)

theorem Kept.ctxLoadOp {sp d a b} {s : State} (h : s.memOk) : Kept (Machine.ctxLoadOp sp d a b s) := by
  unfold Machine.ctxLoadOp
  exact .issue h (.bind .imageOperands fun (_, _) => .ite .loadCore .loadContext)

theorem Kept.execTlbi {sp a b} {s : State} (h : s.memOk) : Kept (Machine.execTlbi sp a b s) := by
  unfold Machine.execTlbi
  exact .issue h (.bind .needSup fun _ => .bind .rdG fun _ => .bind .rdG fun _ => .bind .check fun _ => .bind .drain fun _ =>
      .bind .waitIf fun _ => .upd fun _ h1 => h1)

theorem Kept.execMaplid {sp d a b} {s : State} (h : s.memOk) : Kept (Machine.execMaplid sp d a b s) := by
  unfold Machine.execMaplid
  exact .issue h (.bind .needSup fun _ => .bind .rdG fun _ => .bind .rdG fun _ => .bind .interlock fun _ => .bind .check fun _ =>
      .bind .check fun _ => .get fun _ _ => .bind .check fun _ => .bind .ask fun _ => .await)

theorem Kept.execSysrd {sp d a} {s : State} (h : s.memOk) : Kept (Machine.execSysrd sp d a s) := by
  unfold Machine.execSysrd
  exact .issue h (.bind .needSup fun _ => .bind .rdG fun _ => .bind .check fun _ => .bind .pendDest fun _ => .get fun _ _ => .result)

theorem Kept.execSyswr {sp a b} {s : State} (h : s.memOk) : Kept (Machine.execSyswr sp a b s) := by
  unfold Machine.execSyswr
  exact .issue h (.bind .needSup fun _ => .bind .rdG fun _ => .bind .rdG fun _ => .bind .check fun _ => .ask)

/-! ### How activations begin (08) -/

theorem State.memOk.deadLetter {s : State} {pid m} (h : s.memOk) : (s.deadLetter pid m).memOk := by
  unfold State.deadLetter
  exact .ite h h

theorem State.memOk.dropStale {s : State} {pid} (h : s.memOk) : (s.dropStale pid).memOk := by
  unfold State.dropStale
  exact .ite h (.foldl (fun _ _ h1 => .deadLetter h1) h)

theorem State.memOk.startMessage {s : State} {pid cx i prio} (h : s.memOk) : (s.startMessage pid cx i prio).memOk := by
  unfold State.startMessage
  split
  · exact h
  · exact h

theorem State.memOk.enterSh {s : State} {pid} (h : s.memOk) : (s.enterSh pid).memOk := by
  unfold State.enterSh
  exact .ite (by split; exact .startMessage (.dropStale h); exact .dropStale h) (.dropStale h)

theorem State.memOk.pay {s : State} {pid w} (h : s.memOk) : (s.pay pid w).memOk := by
  unfold State.pay
  split
  · exact h
  · exact h

theorem Kept.execContextWake {core cx} {s : State} (h : s.memOk) : Kept (Machine.execContextWake core cx s) := by
  unfold Machine.execContextWake
  exact .next (by split; exact .ite (.update (.pay h)) h; exact h)

theorem Kept.execIdleExpiry {core cx} {s : State} (h : s.memOk) : Kept (Machine.execIdleExpiry core cx s) := by
  unfold Machine.execIdleExpiry
  exact .next (by split; exact .ite h h; exact .ite h h; exact h)

theorem Kept.execHmaskTimeout {core cx} {s : State} (h : s.memOk) : Kept (Machine.execHmaskTimeout core cx s) := by
  unfold Machine.execHmaskTimeout
  exact .next (by split; exact .ite h h; exact h)

theorem State.memOk.spillOut {s : State} {pid cx slot home} (h : s.memOk) : (s.spillOut pid cx slot home).memOk :=
  .update (.update (.update (.wr h)))

theorem Kept.execContextSpill {core} {s : State} (h : s.memOk) : Kept (Machine.execContextSpill core s) := by
  unfold Machine.execContextSpill
  exact .next (.ite (by dsimp only; split; exact h; exact .ite h (.spillOut h)) h)

theorem Kept.execSpillRestore {core slot} {s : State} (h : s.memOk) : Kept (Machine.execSpillRestore core slot s) := by
  unfold Machine.execSpillRestore
  exact .next (by split; exact h; exact h)

theorem OptOk.fillFrom {s : State} {pid cx} (h : s.memOk) : OptOk (s.fillFrom pid cx) := by
  unfold State.fillFrom
  dsimp only
  split
  · exact h
  · split
    · exact h
    · split
      · exact .startMessage h
      · split
        · exact .update (.setDeque h)
        · exact trivial

theorem Kept.execContextFill {core} {s : State} (h : s.memOk) : Kept (Machine.execContextFill core s) := by
  unfold Machine.execContextFill
  refine .next ?_
  split
  · exact .dropStale h
  · exact OptOk.getD (.fillFrom (.dropStale h)) (.dropStale h)

theorem Kept.execMessageSelection {core} {s : State} (h : s.memOk) : Kept (Machine.execMessageSelection core s) := by
  unfold Machine.execMessageSelection
  refine .next ?_
  refine .ite (.enterSh (.dropStale h)) ?_
  split
  · exact .ite (.startMessage (.dropStale h)) (.dropStale h)
  · exact .dropStale h

theorem OptOk.dispatchHead {s : State} {die q} (h : s.memOk) : OptOk (s.dispatchHead die q) := by
  unfold State.dispatchHead
  split
  · trivial
  · split
    · trivial
    · split
      · exact trivial
      · exact h

theorem OptOk.stealFor {s : State} {die thief cx} (h : s.memOk) : OptOk (s.stealFor die thief cx) :=
  .bind fun _ => .map fun _ => .update (.setDeque h)

theorem OptOk.steal {s : State} {die} (h : s.memOk) : OptOk (s.steal die) :=
  .findSome? fun _ => .ite (.bind fun _ => .stealFor h) trivial

theorem Kept.execPaddockDispatch {die} {s : State} (h : s.memOk) : Kept (Machine.execPaddockDispatch die s) := by
  unfold Machine.execPaddockDispatch
  refine .next ?_
  split
  next e => exact OptOk.elim (.findSome? fun _ => .dispatchHead h) e
  · exact OptOk.getD (.steal h) h

theorem Kept.execClassWaitExpiry {die q} {s : State} (h : s.memOk) : Kept (Machine.execClassWaitExpiry die q s) := by
  unfold Machine.execClassWaitExpiry
  refine .next ?_
  split
  · exact h
  · exact .ite (OptOk.getD (.dispatchHead h) h) h

theorem Kept.execPaddockAging {die q} {s : State} (h : s.memOk) : Kept (Machine.execPaddockAging die q s) := by
  unfold Machine.execPaddockAging
  refine .next ?_
  refine .ite h ?_
  split
  · exact h
  · split
    · exact h
    · exact h

theorem State.memOk.decrement {s : State} {pid slot gen} (h : s.memOk) : (s.decrement pid slot gen).memOk := by
  unfold State.decrement
  dsimp only
  split
  · exact .ite (.setPending h) h
  · exact h

theorem Kept.execPendingRecordRelease {core slot} {s : State} (h : s.memOk) : Kept (Machine.execPendingRecordRelease core slot s) := by
  unfold Machine.execPendingRecordRelease
  exact .next (by split; exact h; exact .ite h (.setDeque (.setPending (.nextTaskId h))))

/-! ### What lands at a boundary (03 R81, 06) -/

theorem State.memOk.unpark {s : State} {pid cx} (h : s.memOk) : (s.unpark pid cx).memOk := by
  unfold State.unpark
  dsimp only
  split
  · exact h
  · exact h

theorem State.memOk.landEffect {s : State} {pid cx r} (h : s.memOk) : (s.landEffect pid cx r).memOk := .deliver (.ite h (.unpark h))

theorem State.memOk.landDue {s : State} {pid cx} (h : s.memOk) : (s.landDue pid cx).memOk := by
  unfold State.landDue
  split
  · exact .landEffect h
  · exact .landEffect h
  · exact .landEffect h
  · exact h

theorem State.memOk.landKind {s : State} {pid cx kind} (h : s.memOk) : (s.landKind pid cx kind).memOk := by
  unfold State.landKind
  split
  · exact .ite (.landDue h) h
  · exact h

theorem Kept.execHeldSystemEffect {core cx} {s : State} (h : s.memOk) : Kept (Machine.execHeldSystemEffect core cx s) := by
  unfold Machine.execHeldSystemEffect
  exact .next (by split; exact .ite (.landDue h) h; exact h)

theorem State.memOk.landWatchdog {s : State} {pid} (h : s.memOk) : (s.landWatchdog pid).memOk := .landEffect h
theorem State.memOk.landPreempt {s : State} {pid cx} (h : s.memOk) : (s.landPreempt pid cx).memOk := .landEffect h

theorem State.memOk.landMigrate {s : State} {pid cx} (h : s.memOk) : (s.landMigrate pid cx).memOk := by
  unfold State.landMigrate
  split
  · exact h
  · exact .landEffect h

theorem State.memOk.waitCapture {s : State} {pid cx} (h : s.memOk) : (s.waitCapture pid cx).memOk := by
  unfold State.waitCapture
  dsimp only
  split
  · exact .ite h h
  · exact h

theorem Kept.execSyswrApply {i} {s : State} (h : s.memOk) : Kept (Machine.execSyswrApply i s) := by
  unfold Machine.execSyswrApply
  refine .next ?_
  split
  · exact h
  · split
    · exact .ite h (.ite (.writePreq h) (.ite h (.ite h (.ite h h))))
    · exact h

theorem State.memOk.overtake {s : State} {launch lid old core on} (h : s.memOk) : (s.overtake launch lid old core on).memOk := by
  unfold State.overtake
  exact .ite (.ite h h) (.ite h h)

theorem Kept.execMapChange {i} {s : State} (h : s.memOk) : Kept (Machine.execMapChange i s) := by
  unfold Machine.execMapChange
  refine .next ?_
  split
  · exact h
  · split
    · exact .ite h (.answer (.ite (.overtake h) (.update (.overtake h))))
    · exact h

/-! ### Arrivals at a core (15 R353 to R355) -/

theorem State.memOk.addRows {s : State} {pid a l} (h : s.memOk) : (s.addRows pid a l).memOk := by
  induction l generalizing s a with
  | nil => exact h
  | cons row l ih => exact ih (.ite (.errorAt h) (.wr h))

theorem State.memOk.landMessage {s : State} {pid m xf addr data} (h : s.memOk) : (s.landMessage pid m xf addr data).memOk := by
  unfold State.landMessage
  exact .ite (.deadLetter h) (.ite (.wakeIdle (.update (.ite (.addRows h) (.wr h)))) (.wakeIdle (.ite (.update (.ite (.addRows h) (.wr h)))
      (.ite (.addRows h) (.wr h)))))

theorem Kept.execMessageArrival {i} {s : State} (h : s.memOk) : Kept (Machine.execMessageArrival i s) := by
  unfold Machine.execMessageArrival
  refine .next ?_
  split
  · exact h
  next e =>
    have ht := h.arriving e
    split
    · refine .ite h ?_
      split
      · exact ht
      · refine .ite (.deadLetter ht) ?_
        split
        · exact .wakeIdle ht
        · refine .ite h ?_
          split
          · exact .ite ht (.landMessage ht)
          · exact .landMessage ht
    · exact h

theorem Kept.execDeterministicHoldRelease {i} {s : State} (h : s.memOk) : Kept (Machine.execDeterministicHoldRelease i s) := by
  unfold Machine.execDeterministicHoldRelease
  refine .next ?_
  split
  · exact h
  · split
    · split
      · exact .ite h (.landMessage h)
      · exact h
    · exact h

theorem Kept.execBoundQueuePush {core i} {s : State} (h : s.memOk) : Kept (Machine.execBoundQueuePush core i s) := by
  unfold Machine.execBoundQueuePush
  exact .next (by split; exact h; exact .ite (.deadLetter h) (.ite h (.push h)))

theorem Kept.execDeadmsgResponse {i} {s : State} (h : s.memOk) : Kept (Machine.execDeadmsgResponse i s) := by
  unfold Machine.execDeadmsgResponse
  exact .next (by split; exact h; exact .addPend h)

theorem State.memOk.landMailbox {s : State} {pid m v} (h : s.memOk) : (s.landMailbox pid m v).memOk := by
  unfold State.landMailbox
  exact .wakeIdle (.update (.foldl (fun _ _ h1 => by split; exact h1; exact h1) h))

theorem Kept.execMailboxWriteArrival {i} {s : State} (h : s.memOk) : Kept (Machine.execMailboxWriteArrival i s) := by
  unfold Machine.execMailboxWriteArrival
  refine .next ?_
  split
  · exact h
  next e =>
    have ht := h.arriving e
    split
    · exact .ite (.landMailbox ht) ht
    · exact h

theorem Kept.execMailboxStoreLanding {core m} {s : State} (h : s.memOk) : Kept (Machine.execMailboxStoreLanding core m s) := by
  unfold Machine.execMailboxStoreLanding
  refine .next ?_
  refine .ite h ?_
  split
  · exact h
  · split
    · exact h
    · exact .landMailbox h

theorem Kept.execMtakeService {core i} {s : State} (h : s.memOk) : Kept (Machine.execMtakeService core i s) := by
  unfold Machine.execMtakeService
  exact .next (by split; exact h; exact .ite h (.ite (.serve h) (.ite h (.emptyMailbox (.serve h)))))

theorem Kept.execSubscriptionUpdate {i} {s : State} (h : s.memOk) : Kept (Machine.execSubscriptionUpdate i s) := by
  unfold Machine.execSubscriptionUpdate
  refine .next ?_
  split
  · exact h
  · split
    · exact .answer h
    · exact h

theorem Kept.execDecrementArrival {i} {s : State} (h : s.memOk) : Kept (Machine.execDecrementArrival i s) := by
  unfold Machine.execDecrementArrival
  refine .next ?_
  split
  · exact h
  next e =>
    split
    · exact .decrement (h.arriving e)
    · exact h

theorem State.memOk.joinFailed {s : State} {j eff} (h : s.memOk) : (s.joinFailed j eff).memOk := by
  unfold State.joinFailed
  exact .ite (.logEvent h) h

theorem Kept.execTaskJoinDecrement {i} {s : State} (h : s.memOk) : Kept (Machine.execTaskJoinDecrement i s) := by
  unfold Machine.execTaskJoinDecrement
  refine .next ?_
  split
  · exact h
  · refine .ite h ?_
    refine .ite h ?_
    split
    · exact .joinFailed h
    · exact .ite h (.ite (.joinFailed h) (.ite (.heldInstall h) (.put h)))

/-! ### Atomics, tiles and versions (10, 12) -/

theorem Kept.amoOp {s : State} {sp r d a b op} (h : s.memOk) : Kept (Machine.amoOp s sp r d a b op) := by
  unfold Machine.amoOp
  exact .issue h (.bind .gate fun _ => .bind .rdG fun _ => .bind .rdG fun _ => .bind .interlock fun _ => .bind .ctx fun _ =>
      .bind .check fun _ => .bind .place fun (_, _) => .bind .pendDest fun _ => .rmw)

theorem Kept.execCas {sp k_ r d a b} {s : State} (h : s.memOk) : Kept (Machine.execCas sp k_ r d a b s) := by
  unfold Machine.execCas
  exact .issue h (.bind .gate fun _ => .bind .rdG fun _ => .bind .rdG fun _ => .bind .rdG fun _ => .bind .place fun (_, _) =>
      .bind .pendDest fun _ => .rmw)

theorem Kept.execLda {sp k r z d a} {s : State} (h : s.memOk) : Kept (Machine.execLda sp k r z d a s) := by
  unfold Machine.execLda
  exact .issue h (.bind .rdG fun _ => .ite (.bind .drain fun _ => .get fun _ _ => .bind .load fun _ => .upd fun _ h2 => h2) (.get fun _ _ =>
      .bind .load fun _ => .upd fun _ h2 => h2))

theorem Act.Keeps.tileFree {n} : (Act.tileFree n).Keeps := by
  unfold Act.tileFree
  exact .bind .core fun _ => .bind .waitIf fun _ => .pure

theorem Kept.execTdef {sp d a} {s : State} (h : s.memOk) : Kept (Machine.execTdef sp d a s) := by
  unfold Machine.execTdef
  exact .issue h (.bind .rdG fun _ => .bind .check fun _ => .bind .check fun _ => .bind .readSpad fun _ => .bind .check fun _ =>
      .bind .tileFree fun _ => .bind .waitIf fun _ => .updCore)

theorem Act.Keeps.snapLost {here ea} : (Act.snapLost here ea).Keeps := by
  unfold Act.snapLost
  exact .bind .ctx fun _ => .bind .waitIf fun _ => .get fun _ h1 => .bind .waitIf fun _ => .stop (.fault h1)

theorem Act.Keeps.versioned {here ea n acc open_} : (Act.versioned here ea n acc open_).Keeps := by
  unfold Act.versioned
  refine .bind .check fun _ => .bind .ctx fun _ => .bind .check fun _ => .ite ?_ ?_
  · refine .bind .snapLost fun _ => .bind .place fun (_, _) => ?_
    dsimp only
    split
    · exact .pure
    · exact .raise
    · exact .raise
  · exact .bind .place fun (_, _) => by dsimp only; split; exact .pure; exact .raise; exact .raise

theorem Act.Keeps.logEntry {here i} : (Act.logEntry here i).Keeps := by
  unfold Act.logEntry
  exact .bind .ctx fun _ => .bind .readSpad fun _ => .pure

theorem Act.Keeps.logFind {here line n i} : (Act.logFind here line n i).Keeps := by
  induction n generalizing i with
  | zero => exact .pure
  | succ n ih => exact .bind .logEntry fun (_, _, _) => .ite .pure ih

theorem Kept.execLdv {sp z x d a} {s : State} (h : s.memOk) : Kept (Machine.execLdv sp z x d a s) := by
  unfold Machine.execLdv
  exact .issue h (.bind .gate fun _ => .bind .rdG fun _ => .bind .versioned fun _ => .bind .ctx fun _ => .bind .reach fun _ =>
      .get fun _ _ => .get fun _ _ => .bind .logFind fun _ => .bind .pendDest fun _ => .bind (.upd fun _ h3 =>
      .ite (.errorAt h3) h3) fun _ => .result)

theorem Kept.execStv {sp z d a} {s : State} (h : s.memOk) : Kept (Machine.execStv sp z d a s) := by
  unfold Machine.execStv
  refine .issue h (.bind .rdG fun _ => .bind .rdG fun _ => .bind .versioned fun _ => .bind .ctx fun _ => .bind .logFind fun _ => ?_)
  dsimp only
  split
  · exact .bind .writeSpad fun _ => .writeSpad
  · exact .bind .check fun _ => .bind .writeSpad fun _ => .updCtx

theorem Kept.execSnap {sp d a} {s : State} (h : s.memOk) : Kept (Machine.execSnap sp d a s) := by
  unfold Machine.execSnap
  exact .issue h (.bind .gate fun _ => .bind .rdG fun _ => .bind .interlock fun _ => .bind .check fun _ => .bind .ctx fun _ =>
      .bind .check fun _ => .ite (.bind (.upd fun _ h1 => h1) fun _ => .bind .ask fun _ => .await) (.bind .ask fun _ => .await))

theorem Kept.execLdvw {sp d a b} {s : State} (h : s.memOk) : Kept (Machine.execLdvw sp d a b s) := by
  unfold Machine.execLdvw
  exact .issue h (.bind .inSH fun _ => .bind .check fun _ => .bind .gate fun _ => .bind .rdG fun _ => .bind .rdG fun _ =>
      .bind .interlock fun _ => .bind .versioned fun _ => .bind .reach fun _ => .get fun _ _ => .ite (.bind .wrG fun _ =>
      .bind (.upd fun _ h2 => .ite h2 h2) fun _ => .giveWay) .park)

theorem Act.Keeps.logLines {here n i} : (Act.logLines here n i).Keeps := by
  induction n generalizing i with
  | zero => exact .pure
  | succ n ih =>
    refine .bind .logEntry fun (_, _, _) => .bind .place fun (_, _) => ?_
    dsimp only
    split
    · exact .bind .pure fun _ => .bind ih fun _ => .pure
    · exact .bind .raise fun _ => .bind ih fun _ => .pure
    · exact .bind .raise fun _ => .bind ih fun _ => .pure

theorem Kept.execCommit {sp d} {s : State} (h : s.memOk) : Kept (Machine.execCommit sp d s) := by
  unfold Machine.execCommit
  exact .issue h (.bind .interlock fun _ => .bind .ctx fun _ => .bind .check fun _ => .ite (.bind .snapLost fun _ =>
      .ite (.bind .drain fun _ => .bind .wrG fun _ => .updCtx) (.bind .logLines fun _ => .bind .drain fun _ => .bind (.upd fun _ h1 =>
      h1) fun _ => .await)) (.ite (.bind .drain fun _ => .bind .wrG fun _ => .updCtx) (.bind .logLines fun _ => .bind .drain fun _ =>
      .bind (.upd fun _ h1 => h1) fun _ => .await)))

/-! ### The bit buffer (05 R137 to R145) -/

theorem Act.Keeps.ring {write} : (Act.ring write).Keeps := by
  unfold Act.ring
  exact .bind .ctx fun _ => .bind .check fun _ => .pure

theorem Act.Keeps.readable {here b j n} : (Act.readable here b j n).Keeps := by
  induction n generalizing j with
  | zero => exact .pure
  | succ n ih => exact .bind .ownBytes fun _ => .get fun _ _ => .get fun _ _ => .bind .check fun _ => ih

theorem Act.Keeps.refill {here n} : (Act.refill here n).Keeps := by
  unfold Act.refill
  exact .bind .ring fun _ => .ite .pure (.bind .gate fun _ => .bind .readable fun _ => .get fun _ _ => .pure)

theorem Act.Keeps.setBb {b} : (Act.setBb b).Keeps := .updCtx

theorem Kept.bsRead {sp d a take} {s : State} (h : s.memOk) : Kept (Machine.bsRead sp d a take s) := by
  unfold Machine.bsRead
  exact .issue h (.bind .rdG fun _ => .bind .ring fun _ => .bind .check fun _ => .bind .check fun _ => .bind .refill fun _ =>
      .bind .wrG fun _ => .setBb)

theorem Kept.execBseg {sp d a} {s : State} (h : s.memOk) : Kept (Machine.execBseg sp d a s) := by
  unfold Machine.execBseg
  refine .issue h (.bind .rdG fun _ => .bind .ring fun _ => .bind .check fun _ => .bind .refill fun _ => ?_)
  split
  · exact .raise
  · exact .bind .check fun _ => .bind .wrG fun _ => .setBb

theorem Act.Keeps.partial_ {here b} : (Act.partial_ here b).Keeps := by
  unfold Act.partial_
  exact .ite .pure (.ite .pure (.bind .readSpad fun _ => .pure))

theorem Act.Keeps.ringStore {here b j l} : (Act.ringStore here b j l).Keeps := by
  induction l generalizing j with
  | nil => exact .pure
  | cons x l ih =>
    exact .bind .gate fun _ => .bind .ownBytes fun _ => .get fun _ _ => .get fun _ _ => .bind .check fun _ =>
        .bind (.upd fun _ h => .wr h) fun _ => ih

theorem Kept.execBsput {sp a b} {s : State} (h : s.memOk) : Kept (Machine.execBsput sp a b s) := by
  unfold Machine.execBsput
  exact .issue h (.bind .rdG fun _ => .bind .rdG fun _ => .bind .ring fun _ => .bind .check fun _ => .bind .check fun _ =>
      .bind .partial_ fun _ => .bind .ringStore fun _ => .setBb)

theorem Kept.execBsflush {sp} {s : State} (h : s.memOk) : Kept (Machine.execBsflush sp s) := by
  unfold Machine.execBsflush
  exact .issue h (.bind .ring fun _ => .ite (.ite .setBb (.bind .partial_ fun _ => .bind .ringStore fun _ => .setBb)) .setBb)

/-! ### Copies (15 R339 to R352) -/

theorem Act.Keeps.channel {n} : (Act.channel n).Keeps := by
  unfold Act.channel
  exact .bind .check fun _ => .pure

theorem Act.Keeps.copyRange {x n} : (Act.copyRange x n).Keeps := by
  unfold Act.copyRange
  exact .bind .check fun _ => by split; exact .raise; exact .check; exact .check; exact .check

theorem State.memOk.zeroTile {s : State} {pid t lo hi} (h : s.memOk) : (s.zeroTile pid t lo hi).memOk := .wr (.wr h)

theorem State.memOk.tileCopyIn {s : State} {pid n ch lo hi} (h : s.memOk) : (s.tileCopyIn pid n ch lo hi).memOk := by
  unfold State.tileCopyIn
  exact .ite (.zeroTile h) h

theorem Act.Keeps.startCopy {c local_} : (Act.startCopy c local_).Keeps := by
  unfold Act.startCopy
  exact .get fun _ _ => .bind .waitIf fun _ => .bind .waitIf fun _ => .bind (.upd fun _ h2 => .push h2) fun _ => .bind .updCore fun _ =>
      .bind (.upd fun _ h2 => .foldl (fun _ _ h3 => .tileCopyIn h3) h2) fun _ => .bind .core fun _ => .bind .updCore fun _ =>
      .upd fun _ h2 => h2

theorem Kept.copyOp {s : State} {sp d a b c bound} (h : s.memOk) : Kept (Machine.copyOp s sp d a b c bound) := by
  unfold Machine.copyOp
  exact .issue h (.bind .channel fun _ => .bind .rdG fun _ => .bind .rdG fun _ => .bind .rdG fun _ => .get fun _ _ => .bind .check fun _ =>
      .bind .check fun _ => .bind .check fun _ => .bind .copyRange fun _ => .ite (.bind .check fun _ => .bind .startCopy fun _ =>
      .ite .send .pure) (.bind .copyRange fun _ => .bind .startCopy fun _ => .ite .send .pure))

theorem Kept.execCpym {sp d a b c} {s : State} (h : s.memOk) : Kept (Machine.execCpym sp d a b c s) := by
  unfold Machine.execCpym
  exact .issue h (.bind .channel fun _ => .bind .rdG fun _ => .bind .rdG fun _ => .bind .rdG fun _ => .get fun _ _ => .bind .check fun _ =>
      .bind .check fun _ => .bind .check fun _ => .bind .check fun _ => .bind .copyRange fun _ => .bind .startCopy fun _ => .upd fun _ h2 =>
      h2)

theorem Act.Keeps.markOf {d a n} : (Act.markOf d a n).Keeps := by
  unfold Act.markOf
  refine .bind .rdG fun _ => .bind .interlock fun _ => .bind .core fun _ => ?_
  dsimp only
  split
  · exact .ite .wrG (.ite .wrG .wait)
  · exact .wrG

theorem Kept.execWmwait {sp d a b} {s : State} (h : s.memOk) : Kept (Machine.execWmwait sp d a b s) := by
  unfold Machine.execWmwait
  refine .issue h (.bind .channel fun _ => .bind .inSH fun _ => .bind .check fun _ => ?_)
  split
  · exact .wrG
  · exact .markOf

theorem Kept.execSpld {sp a b c} {s : State} (h : s.memOk) : Kept (Machine.execSpld sp a b c s) := by
  unfold Machine.execSpld
  exact .issue h (.bind .rdG fun _ => .bind .rdG fun _ => .bind .rdG fun _ => .bind .check fun _ => .bind .check fun _ =>
      .bind .check fun _ => .bind .drain fun _ => .bind .readSpad fun _ => .bind .core fun _ => .bind .waitIf fun _ => .upd fun _ h1 =>
      .wr h1)

theorem Kept.execBankop {sp a b c} {s : State} (h : s.memOk) : Kept (Machine.execBankop sp a b c s) := by
  unfold Machine.execBankop
  exact .issue h (.bind .gate fun _ => .bind .rdG fun _ => .bind .rdV fun _ => .bind .rdG fun _ => .bind .check fun _ =>
      .bind .check fun _ => .bind .unmarked fun _ => .get fun _ _ => .bind .check fun _ => .bind .waitIf fun _ => .rmw)

theorem Kept.execCopyEngineAccept {core cx} {s : State} (h : s.memOk) : Kept (Machine.execCopyEngineAccept core cx s) := by
  unfold Machine.execCopyEngineAccept
  refine .next ?_
  split
  · split
    · exact .refreshPend (.popOwn h)
    · exact h
  · exact h

theorem State.memOk.sourceRead {s : State} {i} (h : s.memOk) : (s.sourceRead i).memOk := by
  unfold State.sourceRead
  split
  · exact .ite h h
  · exact h

theorem Kept.execCopySegmentRead {i item seg} {s : State} (h : s.memOk) : Kept (Machine.execCopySegmentRead i item seg s) := by
  unfold Machine.execCopySegmentRead
  refine .next ?_
  split
  · exact h
  · exact .ite h (by split; exact h; exact .sourceRead h; exact .sourceRead h)

theorem State.memOk.endMarks {s : State} {pid ch id mark} (h : s.memOk) : (s.endMarks pid ch id mark).memOk := by
  unfold State.endMarks
  exact .foldl (fun _ _ h1 => by split; exact h1; exact h1; exact h1) h

theorem State.memOk.passMarks {s : State} {pid ch id mark} (h : s.memOk) : (s.passMarks pid ch id mark).memOk := by
  unfold State.passMarks
  exact .foldl (fun _ _ h1 => by split; exact h1; exact h1; exact h1) h

theorem State.memOk.freeChan {s : State} {pid c ok} (h : s.memOk) : (s.freeChan pid c ok).memOk := by
  unfold State.freeChan
  exact .ite h (.endMarks h)

theorem State.memOk.freeMoved {s : State} {i} (h : s.memOk) : (s.freeMoved i).memOk := by
  unfold State.freeMoved
  split
  · exact h
  · exact .ite h (.freeChan h)

theorem State.memOk.segmentDone {s : State} {i} (h : s.memOk) : (s.segmentDone i).memOk := .freeMoved (.sourceRead h)

theorem State.memOk.advanceMark {s : State} {i} (h : s.memOk) : (s.advanceMark i).memOk := by
  unfold State.advanceMark
  split
  · split
    · split
      · exact .passMarks h
      · exact h
    · exact h
  · exact h

theorem State.memOk.barOf {s : State} {c t op} (h : s.memOk) : (s.barOf c t op).memOk := by
  unfold State.barOf
  split
  · exact h
  · split
    · exact h
    · exact .engineSend h

theorem FstOk.putLines {s : State} {by_ hs bs} (h : s.memOk) : FstOk (s.putLines by_ hs bs) := by
  induction hs generalizing s bs with
  | nil => exact h
  | cons x hs ih => exact .ite (ih (.put h)) (.mk (.heldInstall h))

theorem State.memOk.segmentFails {s : State} {i item seg fate c} (h : s.memOk) : (s.segmentFails i item seg fate c).memOk :=
  .segmentDone (.update (.ite h h))

theorem Kept.execCopySegmentDelivery {i item seg crcOk} {s : State} (h : s.memOk) :
    Kept (Machine.execCopySegmentDelivery i item seg crcOk s) := by
  unfold Machine.execCopySegmentDelivery
  refine .next ?_
  split
  · exact h
  · split
    · exact h
    · split
      · exact h
      · split
        · exact h
        · refine .ite h (.ite (.ite (.segmentFails h) h) ?_)
          split
          · exact .segmentFails h
          · have hr := fun {by_ hs bs} => FstOk.putLines (by_ := by_) (hs := hs) (bs := bs) h
            exact .ite h (.ite (.segmentFails h) (.ite (.update hr) (.freeMoved (.barOf (.advanceMark (.update hr))))))

theorem State.memOk.closeCopy {s : State} {i ok} (h : s.memOk) : (s.closeCopy i ok).memOk := by
  unfold State.closeCopy
  split
  · exact h
  · exact .refreshPend (.foldl (fun _ _ h1 => .freeChan h1) (.freeChan h))

theorem State.memOk.reportCopy {s : State} {c pos st off notd addr} (h : s.memOk) : (s.reportCopy c pos st off notd addr).memOk := by
  unfold State.reportCopy
  exact .ite (.pushOwn h) (.addPend (.pushOwn h))

theorem Kept.execCopyItemCompletion {i item} {s : State} (h : s.memOk) : Kept (Machine.execCopyItemCompletion i item s) := by
  unfold Machine.execCopyItemCompletion
  refine .next ?_
  split
  · exact h
  · refine .ite h ?_
    refine .ite ?_ ?_
    · refine .ite h ?_
      dsimp only
      split
      · exact .closeCopy (.reportCopy (.foldl (fun _ _ h1 => .barOf h1) h))
      · exact .closeCopy (.reportCopy (.foldl (fun _ _ h1 => .barOf h1) h))
    · split
      · exact h
      · exact .ite h (.ite (.closeCopy (.update (.reportCopy (.ite h (.barOf h))))) (.update (.reportCopy (.ite h (.barOf h)))))

theorem Kept.execCpymHeaderArrival {i} {s : State} (h : s.memOk) : Kept (Machine.execCpymHeaderArrival i s) := by
  unfold Machine.execCpymHeaderArrival
  refine .next ?_
  split
  · exact h
  next t e =>
    have ht := h.arriving e
    split
    · split
      · exact ht
      · split
        · exact ht
        · split
          · exact ht
          · split
            · exact .ite (.segmentDone (.update (by split; exact .applyBar ht; exact ht))) (.update (by split; exact .applyBar ht; exact ht))
            · exact ht
    · exact h

theorem Kept.execDrainHoldRelease {core t} {s : State} (h : s.memOk) : Kept (Machine.execDrainHoldRelease core t s) := by
  unfold Machine.execDrainHoldRelease
  refine .next ?_
  refine .ite h ?_
  refine .foldl (fun _ _ h1 => ?_) h
  split
  · split
    · exact .ite (.tileCopyIn h1) h1
    · exact h1
  · exact h1

/-! ### Handler frames, effects and tokens (06 R157 to R164) -/

theorem Kept.execHandle {sp a b c} {s : State} (h : s.memOk) : Kept (Machine.execHandle sp a b c s) := by
  unfold Machine.execHandle
  exact .issue h (.bind .rdG fun _ => .bind .rdG fun _ => .bind .rdG fun _ => .bind .check fun _ => .bind .check fun _ =>
      .bind .check fun _ => .bind .rdG fun _ => .bind .ctx fun _ => .bind .writeSpad fun _ => .bind .readSpad fun _ =>
      .bind .writeSpad fun _ => .updCtx)

theorem Kept.execUnhandle {sp a} {s : State} (h : s.memOk) : Kept (Machine.execUnhandle sp a s) := by
  unfold Machine.execUnhandle
  exact .issue h (.bind .rdG fun _ => .bind .ctx fun _ => .bind .check fun _ => .bind .check fun _ => .bind .readSpad fun _ =>
      .get fun _ _ => .get fun _ _ => .bind .check fun _ => .bind .check fun _ => .bind .check fun _ => .bind .spans fun _ =>
      .bind (.upd fun _ h3 => .bumpGen h3) fun _ => .updCtx)

theorem Act.Keeps.effectId {e} : (Act.effectId e).Keeps := by
  unfold Act.effectId
  exact .bind .check fun _ => .bind .sup fun _ => .check

theorem Act.Keeps.perform {here sp e arg lanes vl} : (Act.perform here sp e arg lanes vl).Keeps := by
  unfold Act.perform
  exact .bind .ctx fun _ => .bind .waitIf fun _ => .get fun _ h1 => .bind .waitIf fun _ => .stop (.switch (.deliver h1))

theorem Kept.execPerformv {sp e a p} {s : State} (h : s.memOk) : Kept (Machine.execPerformv sp e a p s) := by
  unfold Machine.execPerformv
  exact .issue h (.bind .effectId fun _ => .bind .rdG fun _ => .bind .rdP fun _ => .ite .pure .perform)

theorem Act.Keeps.tokenSpan {here t} : (Act.tokenSpan here t).Keeps := by
  unfold Act.tokenSpan
  exact .ite .spans .pure

theorem Act.Keeps.liveToken {here t} : (Act.liveToken here t).Keeps := by
  unfold Act.liveToken
  exact .bind .tokenSpan fun _ => .get fun _ _ => by split; exact .raise; exact .bind .check fun _ => .pure

theorem Act.Keeps.putSegment {here n hs bs} : (Act.putSegment here n hs bs).Keeps := by
  induction n generalizing hs bs with
  | zero => exact .pure
  | succ n ih =>
    cases hs with
    | nil => exact .pure
    | cons e hs => exact .get fun _ _ => .ite (.bind (.upd fun _ h => .wr h) fun _ => ih) (.bind .post fun _ => ih)

theorem Act.Keeps.restorable : (Act.restorable).Keeps := by
  intro s h
  unfold Act.restorable
  exact .ite trivial (by split; exact trivial; exact h)

theorem Kept.resumeOp {sp a b p many} {s : State} (h : s.memOk) : Kept (Machine.resumeOp sp a b p many s) := by
  unfold Machine.resumeOp
  refine .issue h (.bind .rdG fun _ => .bind .rdG fun _ => .bind .rdP fun _ => .bind .liveToken fun (_, _, _) => .bind .check fun _ =>
      .bind .restorable fun _ => .get fun _ _ => .bind .spans fun _ => .ite (.bind .spans fun _ => .get fun _ _ => .bind .waitIf fun _ =>
      ?_) (.get fun _ h2 => .stop (.switch (.resumeWith h2))))
  split
  · exact .bind .raise fun _ => .get fun _ h3 => .stop (.switch (.resumeWith h3))
  · exact .bind .putSegment fun _ => .get fun _ h3 => .stop (.switch (.resumeWith h3))

theorem Kept.execDiscard {sp d a} {s : State} (h : s.memOk) : Kept (Machine.execDiscard sp d a s) := by
  unfold Machine.execDiscard
  exact .issue h (.bind .rdG fun _ => .bind .interlock fun _ => .bind .liveToken fun (_, _, _) => .get fun _ _ => .bind .spans fun _ =>
      .get fun _ h2 => .bind (.set (FstOk.discardWith h2)) fun _ => .wrG)

theorem Kept.execTkstat {sp d a} {s : State} (h : s.memOk) : Kept (Machine.execTkstat sp d a s) := by
  unfold Machine.execTkstat
  refine .issue h (.bind .rdG fun _ => .bind .tokenSpan fun _ => ?_)
  dsimp only
  split
  · exact .bind .spans fun _ => .get fun _ _ => .wrG
  · exact .get fun _ _ => .wrG

/-! ### The launch unit (08 R210 to R213) -/

theorem State.memOk.serveQueue {s : State} {q} (h : s.memOk) : (s.serveQueue q).memOk := by
  unfold State.serveQueue
  exact .ite (.ite (.msix h) h) (.ite h h)

theorem Kept.execLaunchQueueService {s : State} (h : s.memOk) : Kept (Machine.execLaunchQueueService s) := by
  unfold Machine.execLaunchQueueService
  exact .next (.ite h (by split; exact .serveQueue h; exact h))

theorem State.memOk.signal {s : State} {l} (h : s.memOk) : (s.signal l).memOk := by
  unfold State.signal
  split
  · exact .ite (.msix h) h
  · exact h

theorem OptOk.complete {s : State} {l st argw} (h : s.memOk) : OptOk (s.complete l st argw) := by
  unfold State.complete
  refine .ite h ?_
  split
  · exact .logWith h
  · exact .ite (.logWith h) (.ite trivial (.put h))

theorem Kept.execLaunchCheck {i} {s : State} (h : s.memOk) : Kept (Machine.execLaunchCheck i s) := by
  unfold Machine.execLaunchCheck
  refine .next ?_
  split
  · exact h
  · refine .ite h (.ite ?_ (.ite h h))
    split
    · exact h
    next t e =>
      have ht : t.memOk := OptOk.elim (.complete h) e
      exact .signal (.update ht)

theorem State.memOk.writeImage {s : State} {pid entry} (h : s.memOk) : (s.writeImage pid entry).memOk := by
  unfold State.writeImage
  split
  · exact .foldl (fun _ _ h1 => .wr h1) h
  · exact h

theorem Kept.execLaunchCoreStart {launch core} {s : State} (h : s.memOk) : Kept (Machine.execLaunchCoreStart launch core s) := by
  unfold Machine.execLaunchCoreStart
  refine .next ?_
  split
  · exact h
  · refine .ite h ?_
    dsimp only
    split
    · exact .update (.update (.update (.writeImage h)))
    · exact .update (.update (.update (.writeImage h)))

theorem Kept.execLaunchEnd {launch} {s : State} (h : s.memOk) : Kept (Machine.execLaunchEnd launch s) := by
  unfold Machine.execLaunchEnd
  refine .next ?_
  split
  · exact h
  · refine .ite h ?_
    split
    · exact h
    next t e =>
      have ht : t.memOk := OptOk.elim (.complete h) e
      exact .signal (.update ht)

/-! ### Flags and rounding (03) -/

theorem Act.Keeps.flags {l} : (Act.flags l).Keeps := by
  unfold Act.flags
  exact .bind .ctx fun _ => .bind .check fun _ => .ite .pure .updCtx

theorem Act.Keeps.rounding {mode sat operand} : (Act.rounding mode sat operand).Keeps := by
  unfold Act.rounding
  exact .bind .check fun _ => .get fun _ _ => .pure

theorem Act.Keeps.tick {mode} : (Act.tick mode).Keeps := by
  unfold Act.tick
  exact .ite .updCtx .pure

/-! ### Matrix instructions (16) -/

theorem Act.Keeps.useTile {n} : (Act.useTile n).Keeps := by
  unfold Act.useTile
  exact .bind .core fun _ => .bind .waitIf fun _ => .bind .check fun _ => .pure

theorem Act.Keeps.scaleTile {t} : (Act.scaleTile t).Keeps := by
  unfold Act.scaleTile
  exact .ite (.bind .useTile fun _ => .pure) .pure

theorem Act.Keeps.tileFault {b n} : (Act.tileFault b n).Keeps := .check

theorem Act.Keeps.pushMatrix {m mode} : (Act.pushMatrix m mode).Keeps := by
  unfold Act.pushMatrix
  exact .get fun _ _ => .bind .waitIf fun _ => .bind (.upd fun _ h2 => .push h2) fun _ => .bind .updCore fun _ => .tick

theorem Kept.matOp {s : State} {sp sat az neg kind d a b c} (h : s.memOk) : Kept (Machine.matOp s sp sat az neg kind d a b c) := by
  unfold Machine.matOp
  exact .issue h (.bind .rdG fun _ => .bind .check fun _ => .bind .useTile fun _ => .bind .useTile fun _ => .bind .useTile fun _ =>
      .bind .scaleTile fun _ => .bind .scaleTile fun _ => .bind .scaleTile fun _ => .bind .tileFault fun _ => .bind .tileFault fun _ =>
      .bind .tileFault fun _ => .bind .tileFault fun _ => .bind .tileFault fun _ => .bind .tileFault fun _ => .bind .tileFault fun _ =>
      .get fun _ _ => .pushMatrix)

theorem Kept.execAccrd {sp d a b} {s : State} (h : s.memOk) : Kept (Machine.execAccrd sp d a b s) := by
  unfold Machine.execAccrd
  exact .issue h (.bind .rdG fun _ => .bind .check fun _ => .bind .useTile fun _ => .bind .useTile fun _ => .bind .tileFault fun _ =>
      .bind .tileFault fun _ => .bind .tileFault fun _ => .get fun _ _ => .pushMatrix)

theorem Kept.execMscl {sp d a b} {s : State} (h : s.memOk) : Kept (Machine.execMscl sp d a b s) := by
  unfold Machine.execMscl
  exact .issue h (.bind .rdG fun _ => .bind .rdG fun _ => .bind .check fun _ => .bind .useTile fun _ => .bind .tileFault fun _ =>
      .get fun _ _ => .pushMatrix)

/-! ### The matrix unit (16) -/

theorem State.memOk.rowsWritten {s : State} {pid t l} (h : s.memOk) : (s.rowsWritten pid t l).memOk := by
  unfold State.rowsWritten
  exact .ite h h

theorem State.memOk.flushRun {s : State} {pid} (h : s.memOk) : (s.flushRun pid).memOk := by
  unfold State.flushRun
  split
  · exact h
  · exact .update (.rowsWritten (.foldl (fun _ _ h1 => by split; exact .setElem h1; exact h1) h))

theorem State.memOk.endRun {s : State} {pid} (h : s.memOk) : (s.endRun pid).memOk := .update (.flushRun h)
theorem FstOk.runBlock {s : State} {pid m} (h : s.memOk) : FstOk (s.runBlock pid m) := .mk h

theorem FstOk.runRead {s : State} {pid m} (h : s.memOk) : FstOk (s.runRead pid m) := by
  unfold State.runRead
  exact .mk (.rowsWritten (FstOk.foldl (fun _ _ h => .ite h (.mk (.ite (.setElem (.setElem h)) (.setElem h)))) h))

theorem FstOk.runZero {s : State} {pid m} (h : s.memOk) : FstOk (s.runZero pid m) :=
  .mk (.rowsWritten (.foldl (fun _ _ h1 => .setElem h1) h))

theorem FstOk.runScale {s : State} {pid m} (h : s.memOk) : FstOk (s.runScale pid m) := by
  unfold State.runScale
  exact .foldl (fun _ _ h => .ite h (.mk (.setElem h))) h

theorem State.memOk.engineReport {s : State} {act r en iaddr} (h : s.memOk) : (s.engineReport act r en iaddr).memOk := by
  unfold State.engineReport
  dsimp only
  split
  · exact .addFlags h
  · exact .addPend (.addFlags h)

theorem State.memOk.acceptMatrix {s : State} {pid n m} (h : s.memOk) : (s.acceptMatrix pid n m).memOk := .popOwn h

theorem State.memOk.runMatrix {s : State} {pid n m} (h : s.memOk) : (s.runMatrix pid n m).memOk := by
  unfold State.runMatrix
  extract_lets s0 fwd
  have h0 : s0.memOk := by
    dsimp only [s0]
    split
    · exact .ite h (.endRun h)
    · exact h
  have h1 : FstOk (if m.block then s0.runBlock pid m else if m.kind = 3 then s0.runRead pid m
      else if m.kind = 4 then s0.runZero pid m else s0.runScale pid m) :=
    .ite (.runBlock h0) (.ite (.runRead h0) (.ite (.runZero h0) (.runScale h0)))
  revert h1
  generalize (if m.block then s0.runBlock pid m else _ : State × MReport) = p
  intro h1
  have h2 := State.memOk.acceptMatrix (pid := pid) (n := n) (m := m) h1
  exact .refreshPend (.ite (.update (.engineReport (.ite (.ite (.flushRun h2) h2) (.endRun h2))))
    (.engineReport (.ite (.ite (.flushRun h2) h2) (.endRun h2))))

theorem Kept.execMatrixUnitExecute {core} {s : State} (h : s.memOk) : Kept (Machine.execMatrixUnitExecute core s) := by
  unfold Machine.execMatrixUnitExecute
  refine .next ?_
  split
  · exact h
  · split
    · exact h
    · exact .ite (.runMatrix h) h

theorem Kept.execMatrixStatusPush {core} {s : State} (h : s.memOk) : Kept (Machine.execMatrixStatusPush core s) := by
  unfold Machine.execMatrixStatusPush
  refine .next ?_
  split
  · exact h
  · split
    · exact h
    · exact .refreshPend (.pushOwn h)

theorem Kept.execForwardHoldRelease {core i} {s : State} (h : s.memOk) : Kept (Machine.execForwardHoldRelease core i s) := by
  unfold Machine.execForwardHoldRelease
  exact .next (by split; exact h; exact .ite h h)

theorem Kept.execRotationForwardLanding {i} {s : State} (h : s.memOk) : Kept (Machine.execRotationForwardLanding i s) := by
  unfold Machine.execRotationForwardLanding
  refine .next ?_
  split
  next t e =>
    have ht : t.memOk := h.arriving e
    split
    · exact .update ht
    · exact h
  · exact h

/-! ### Power and migration (22) -/

theorem State.memOk.askMove {s : State} {pid cx} (h : s.memOk) : (s.askMove pid cx).memOk := by
  unfold State.askMove
  exact .ite (by split; exact h; exact h) h

theorem State.memOk.withdrawMoves {s : State} {pid} (h : s.memOk) : (s.withdrawMoves pid).memOk :=
  .update (.foldl (fun _ _ h1 => .ite h1 h1) h)

theorem Kept.execClusterEstimate {die cluster} {s : State} (h : s.memOk) : Kept (Machine.execClusterEstimate die cluster s) := by
  unfold Machine.execClusterEstimate
  exact .next (.ite (.foldl (fun _ _ h1 => .withdrawMoves h1) h) (.foldl (fun _ _ h1 => .foldl (fun _ _ h2 => .askMove h2) h1) h))

theorem Kept.execMigrateWithdrawal {core cx} {s : State} (h : s.memOk) : Kept (Machine.execMigrateWithdrawal core cx s) := by
  unfold Machine.execMigrateWithdrawal
  exact .next (by split; exact h; exact .ite (.writePreq h) h)

theorem State.memOk.moveArea {s : State} {src dst a} (h : s.memOk) : (s.moveArea src dst a).memOk := .update (.wr h)

theorem State.memOk.moveStreams {s : State} {src dst l} (h : s.memOk) : (s.moveStreams src dst l).memOk :=
  .foldl (fun _ _ h1 => h1) (.foldl (fun _ _ h1 => h1) h)

theorem State.memOk.moveChan {s : State} {src dst i} (h : s.memOk) : (s.moveChan src dst i).memOk := by
  unfold State.moveChan
  split
  · exact h
  · exact .ite (.freeMoved (.ite h h)) (.freeChan (.ite h h))

theorem State.memOk.moveChans {s : State} {src dst act} (h : s.memOk) : (s.moveChans src dst act).memOk :=
  .foldl (fun _ _ h1 => .ite (.moveChan h1) h1) h

theorem State.memOk.moveTiles {s : State} {src dst l} (h : s.memOk) : (s.moveTiles src dst l).memOk := h
theorem State.memOk.moveCtx {s : State} {src dst cx} (h : s.memOk) : (s.moveCtx src dst cx).memOk := h

theorem Kept.execMigrationMove {core cx} {s : State} (h : s.memOk) : Kept (Machine.execMigrationMove core cx s) := by
  unfold Machine.execMigrationMove
  refine .next ?_
  split
  · exact h
  · exact .ite (.moveCtx (.moveChans (.moveStreams (.moveTiles (.foldl (fun _ _ h => .moveArea h) h))))) h

/-! ### Rank instructions (17) -/

theorem Act.Keeps.pushRank {m mode} : (Act.pushRank m mode).Keeps := by
  unfold Act.pushRank
  exact .get fun _ _ => .bind .waitIf fun _ => .bind (.upd fun _ h2 => .update (.push h2)) fun _ => .bind (.upd fun _ h2 => h2) fun _ =>
      .tick

theorem Kept.execRsort {sp d a} {s : State} (h : s.memOk) : Kept (Machine.execRsort sp d a s) := by
  unfold Machine.execRsort
  exact .issue h (.bind .useTile fun _ => .bind .useTile fun _ => .bind .tileFault fun _ => .bind .tileFault fun _ =>
      .bind .tileFault fun _ => .get fun _ _ => .pushRank)

theorem Act.Keeps.remitTargets {here list z} : (Act.remitTargets here list z).Keeps := by
  unfold Act.remitTargets
  exact .ite (.bind .check fun _ => .bind .check fun _ => .bind .readSpad fun _ => .bind .check fun _ => .get fun _ _ =>
      .bind .check fun _ => .pure) (.get fun _ _ => .bind .check fun _ => .pure)

theorem Kept.execRemit {sp d a b c} {s : State} (h : s.memOk) : Kept (Machine.execRemit sp d a b c s) := by
  unfold Machine.execRemit
  exact .issue h (.bind .rdG fun _ => .bind .rdG fun _ => .bind .check fun _ => .bind .remitTargets fun _ => .bind .useTile fun _ =>
      .ite (.bind .useTile fun _ => .bind .tileFault fun _ => .bind .tileFault fun _ => .get fun _ _ => .bind .waitIf fun _ =>
      .bind .pushRank fun _ => .upd fun _ h2 => h2) (.bind .pure fun _ => .bind .tileFault fun _ => .bind .tileFault fun _ =>
      .get fun _ _ => .bind .waitIf fun _ => .bind .pushRank fun _ => .upd fun _ h2 => h2))

theorem Kept.execRkseq {sp a b} {s : State} (h : s.memOk) : Kept (Machine.execRkseq sp a b s) := by
  unfold Machine.execRkseq
  exact .issue h (.bind .rdG fun _ => .bind .rdG fun _ => .get fun _ _ => .bind .check fun _ => .bind .check fun _ => .bind .check fun _ =>
      .bind .readSpad fun _ => .bind .check fun _ => .bind .readSpad fun _ => .bind .check fun _ => .bind .waitIf fun _ => .upd fun _ h2 =>
      h2)

theorem Act.Keeps.streamNumber {n} : (Act.streamNumber n).Keeps := by
  unfold Act.streamNumber
  exact .bind .check fun _ => .pure

theorem Kept.execRkarm {sp d a b c} {s : State} (h : s.memOk) : Kept (Machine.execRkarm sp d a b c s) := by
  unfold Machine.execRkarm
  exact .issue h (.bind .rdG fun _ => .bind .rdG fun _ => .bind .streamNumber fun _ => .get fun _ _ => .bind .check fun _ =>
      .bind .check fun _ => .bind .check fun _ => .bind .useTile fun _ => .ite (.bind (.bind .useTile fun _ => .pure) fun _ =>
      .bind .tileFault fun _ => .bind .tileFault fun _ => .bind .waitIf fun _ => .bind .launch fun _ => .upd fun _ h2 =>
      h2) (.bind .pure fun _ => .bind .tileFault fun _ => .bind .tileFault fun _ => .bind .waitIf fun _ => .bind .launch fun _ =>
      .upd fun _ h2 => h2))

theorem Act.Keeps.liveStream {n idle} : (Act.liveStream n idle).Keeps := by
  unfold Act.liveStream
  exact .get fun _ _ => .bind .check fun _ => .pure

theorem Kept.execRkdisarm {sp d} {s : State} (h : s.memOk) : Kept (Machine.execRkdisarm sp d s) := by
  unfold Machine.execRkdisarm
  exact .issue h (.bind .streamNumber fun _ => .bind .liveStream fun _ => .ite .pure (.upd fun _ h1 => h1))

theorem Kept.execRkres {sp d a} {s : State} (h : s.memOk) : Kept (Machine.execRkres sp d a s) := by
  unfold Machine.execRkres
  exact .issue h (.bind .streamNumber fun _ => .bind .liveStream fun _ => .bind .interlock fun _ => .bind .core fun _ =>
      .ite (.bind (.upd fun _ h1 => h1) fun _ => .await) (.bind (.upd fun _ h1 => .push h1) fun _ => .bind (.upd fun _ h1 => h1) fun _ =>
      .wrG))

theorem Kept.execRkacc {sp d a} {s : State} (h : s.memOk) : Kept (Machine.execRkacc sp d a s) := by
  unfold Machine.execRkacc
  exact .issue h (.bind .streamNumber fun _ => .bind .liveStream fun _ => .bind .useTile fun _ => .bind .tileFault fun _ =>
      .bind .rounding fun _ => .bind .flags fun _ => .bind (.upd fun _ h1 => .foldl (fun _ _ h2 => .setChan h2) h1) fun _ =>
      .ite .pure .tick)

theorem Act.Keeps.backward {z grad} : (Act.backward z grad).Keeps := by
  unfold Act.backward
  exact .get fun _ _ => .check

theorem Act.Keeps.backwardTiles {dst p src} : (Act.backwardTiles dst p src).Keeps := by
  unfold Act.backwardTiles
  dsimp only
  split
  · exact .bind .raise fun _ => by split; exact .raise; exact .pure
  · split
    · exact .raise
    · exact .pure

theorem Kept.execRkdense {sp d a c} {s : State} (h : s.memOk) : Kept (Machine.execRkdense sp d a c s) := by
  unfold Machine.execRkdense
  exact .issue h (.bind .rdG fun _ => .bind .backward fun _ => .bind .useTile fun _ => .bind .useTile fun _ => .bind .backwardTiles fun _ =>
      .get fun _ _ => .pushRank)

theorem Kept.execRkgrad {sp d a b c} {s : State} (h : s.memOk) : Kept (Machine.execRkgrad sp d a b c s) := by
  unfold Machine.execRkgrad
  exact .issue h (.bind .rdG fun _ => .bind .backward fun _ => .bind .useTile fun _ => .bind .useTile fun _ => .bind .useTile fun _ =>
      .ite (.bind .useTile fun _ => .bind .backwardTiles fun _ => .get fun _ _ => .pushRank) (.bind .pure fun _ =>
      .bind .backwardTiles fun _ => .get fun _ _ => .pushRank))

/-! ### The rank unit (17) -/

theorem FstOk.fillTile {s : State} {pid m t n terms} (h : s.memOk) : FstOk (s.fillTile pid m t n terms) :=
  .mk (.foldl (fun _ _ h1 => .setChan h1) h)

/-- The state of what a command of the rank unit does has memory in canonical form. -/
def DoneOk (r : RDone) : Prop := r.s.memOk

theorem DoneOk.ite {c : Prop} [Decidable c] {r q : RDone} (hr : DoneOk r) (hq : DoneOk q) : DoneOk (if c then r else q) := by
  split <;> assumption

theorem DoneOk.dropHolds {s : State} {c : Prop} [Decidable c] {m fl ntgt nanc cnt} (h : s.memOk) :
    DoneOk ⟨if c then s.dropHolds m else s, fl, ntgt, nanc, cnt⟩ :=
  State.memOk.ite h h

theorem DoneOk.runSort {s : State} {pid m} (h : s.memOk) : DoneOk (s.runSort pid m) := by
  show State.memOk _
  exact .foldl (fun _ _ h => .setChan h) (.foldl (fun _ _ h => .setChan h) h)

theorem DoneOk.runEmit {s : State} {pid m} (h : s.memOk) : DoneOk (s.runEmit pid m) := h
theorem DoneOk.runDense {s : State} {pid m} (h : s.memOk) : DoneOk (s.runDense pid m) := FstOk.fillTile h

theorem DoneOk.runGrad {s : State} {pid m} (h : s.memOk) : DoneOk (s.runGrad pid m) := by
  show State.memOk _
  exact FstOk.ite (.fillTile (FstOk.fillTile h)) (FstOk.fillTile h)

theorem Kept.execRankUnitExecute {core} {s : State} (h : s.memOk) : Kept (Machine.execRankUnitExecute core s) := by
  unfold Machine.execRankUnitExecute
  refine .next ?_
  split
  · exact h
  · exact .ite h (.refreshPend (.pushOwn (.engineReport (.popOwn (.update
      (DoneOk.ite (.dropHolds h) (.ite (.runSort h) (.ite (.runEmit h) (.ite (.runDense h) (.runGrad h))))))))))

theorem Kept.execRankFlitArrival {i} {s : State} (h : s.memOk) : Kept (Machine.execRankFlitArrival i s) := by
  unfold Machine.execRankFlitArrival
  refine .next ?_
  split
  next e =>
    split
    · exact .wakeIdle (.rankArrive (h.arriving e))
    · exact h
  · exact h

theorem Kept.execRankResultPush {core k} {s : State} (h : s.memOk) : Kept (Machine.execRankResultPush core k s) := by
  unfold Machine.execRankResultPush
  exact .next (by split; exact h; exact .ite h (.update (.push h)))

/-! ### Scalar arithmetic, loads and stores (05) -/

theorem Kept.binOp {s : State} {sp len d a b f} (h : s.memOk) : Kept (Machine.binOp s sp len d a b f) :=
  .issue h (.bind .rdG fun _ => .bind .rdG fun _ => .wrG)

theorem Kept.unOp {s : State} {sp len d a f} (h : s.memOk) : Kept (Machine.unOp s sp len d a f) := .issue h (.bind .rdG fun _ => .wrG)
theorem Kept.constOp {s : State} {sp len d x} (h : s.memOk) : Kept (Machine.constOp s sp len d x) := .issue h .wrG

theorem Kept.divOp {s : State} {sp d a b f} (h : s.memOk) : Kept (Machine.divOp s sp d a b f) := by
  unfold Machine.divOp
  exact .issue h (.bind .rdG fun _ => .bind .rdG fun _ => .bind .check fun _ => .wrG)

theorem Kept.loadOp {s : State} {sp len z x d a ea} (h : s.memOk) (hea : ∀ x, (ea x).Keeps) : Kept (Machine.loadOp s sp len z x d a ea) :=
  .issue h (.bind .rdG fun _ => .bind (hea _) fun _ => .load)

theorem Kept.storeOp {s : State} {sp len z d a ea} (h : s.memOk) (hea : ∀ x, (ea x).Keeps) : Kept (Machine.storeOp s sp len z d a ea) := by
  unfold Machine.storeOp
  exact .issue h (.bind .rdG fun _ => .bind (hea _) fun _ => .bind .rdG fun _ => .store)

/-! ### Vector and predicate instructions (07 R170 to R188) -/

theorem Act.Keeps.accepts {ok f} : (Act.accepts ok f).Keeps := by
  unfold Act.accepts
  exact .bind .ctx fun _ => .check

theorem Act.Keeps.deliverV {w d l} : (Act.deliverV w d l).Keeps := by
  unfold Act.deliverV
  exact .bind .flags fun _ => .wrV

theorem Kept.lanewise {s : State} {sp ok rounds sat p d a b f} (h : s.memOk) : Kept (Machine.lanewise s sp ok rounds sat p d a b f) := by
  unfold Machine.lanewise
  exact .issue h (.bind .ctx fun _ => .bind .accepts fun _ => .bind .rounding fun _ => .bind .rdV fun _ => .bind .rdV fun _ =>
      .bind .rdV fun _ => .bind .rdP fun _ => .bind .deliverV fun _ => .ite .tick .pure)

theorem Kept.intLane {s : State} {sp sat p d a b f} (h : s.memOk) : Kept (Machine.intLane s sp sat p d a b f) := .lanewise h
theorem Kept.bitLane {s : State} {sp p d a b f} (h : s.memOk) : Kept (Machine.bitLane s sp p d a b f) := .lanewise h

theorem Kept.compareOp {s : State} {sp ok bad d p a b f} (h : s.memOk) : Kept (Machine.compareOp s sp ok bad d p a b f) := by
  unfold Machine.compareOp
  exact .issue h (.bind .ctx fun _ => .bind .accepts fun _ => .bind .check fun _ => .bind .rdV fun _ => .bind .rdV fun _ =>
      .bind .rdP fun _ => .bind .flags fun _ => .wrP)

theorem Kept.floatLane {s : State} {sp sat p d a b f} (h : s.memOk) : Kept (Machine.floatLane s sp sat p d a b f) := .lanewise h

theorem Kept.execVcvt {sp sat p d a n} {s : State} (h : s.memOk) : Kept (Machine.execVcvt sp sat p d a n s) := by
  unfold Machine.execVcvt
  exact .issue h (.bind .ctx fun _ => .bind .accepts fun _ => .bind .check fun _ => .bind .rounding fun _ => .bind .rdV fun _ =>
      .bind .rdV fun _ => .bind .rdP fun _ => .bind .deliverV fun _ => .tick)

theorem Kept.execVpack {sp sat p d a b} {s : State} (h : s.memOk) : Kept (Machine.execVpack sp sat p d a b s) := by
  unfold Machine.execVpack
  exact .issue h (.bind .ctx fun _ => .bind .accepts fun _ => .bind .rdV fun _ => .bind .rdV fun _ => .bind .rdV fun _ =>
      .bind .rdP fun _ => .deliverV)

theorem Kept.execVunpack {sp p d a n} {s : State} (h : s.memOk) : Kept (Machine.execVunpack sp p d a n s) := by
  unfold Machine.execVunpack
  exact .issue h (.bind .ctx fun _ => .bind .accepts fun _ => .bind .check fun _ => .bind .rdV fun _ => .bind .rdV fun _ =>
      .bind .rdP fun _ => .deliverV)

theorem Kept.moveOp {s : State} {sp p d a b f} (h : s.memOk) : Kept (Machine.moveOp s sp p d a b f) := by
  unfold Machine.moveOp
  exact .issue h (.bind .ctx fun _ => .bind .rdV fun _ => .bind .rdV fun _ => .bind .rdV fun _ => .bind .rdP fun _ => .wrV)

theorem Kept.execVbcast {sp p d a} {s : State} (h : s.memOk) : Kept (Machine.execVbcast sp p d a s) := by
  unfold Machine.execVbcast
  exact .issue h (.bind .ctx fun _ => .bind .rdG fun _ => .bind .rdV fun _ => .bind .rdP fun _ => .wrV)

theorem Kept.execVext {sp d a b} {s : State} (h : s.memOk) : Kept (Machine.execVext sp d a b s) := by
  unfold Machine.execVext
  exact .issue h (.bind .ctx fun _ => .bind .rdV fun _ => .bind .rdG fun _ => .bind .check fun _ => .wrG)

theorem Kept.execVins {sp d a b} {s : State} (h : s.memOk) : Kept (Machine.execVins sp d a b s) := by
  unfold Machine.execVins
  exact .issue h (.bind .ctx fun _ => .bind .rdG fun _ => .bind .rdG fun _ => .bind .rdV fun _ => .bind .check fun _ => .wrV)

theorem Kept.execVslide {sp p d a b} {s : State} (h : s.memOk) : Kept (Machine.execVslide sp p d a b s) := by
  unfold Machine.execVslide
  exact .issue h (.bind .ctx fun _ => .bind .rdV fun _ => .bind .rdG fun _ => .bind .rdV fun _ => .bind .rdP fun _ => .wrV)

theorem Kept.execVsel {sp p d a b} {s : State} (h : s.memOk) : Kept (Machine.execVsel sp p d a b s) := by
  unfold Machine.execVsel
  exact .issue h (.bind .ctx fun _ => .bind .rdV fun _ => .bind .rdV fun _ => .bind .rdP fun _ => .wrV)

theorem Kept.execVexpand {sp p d a} {s : State} (h : s.memOk) : Kept (Machine.execVexpand sp p d a s) := by
  unfold Machine.execVexpand
  exact .issue h (.bind .ctx fun _ => .bind .rdV fun _ => .bind .rdV fun _ => .bind .rdP fun _ => .wrV)

theorem Kept.reduceOp {s : State} {sp ok rounds sat p d a whole node empty} (h : s.memOk) :
    Kept (Machine.reduceOp s sp ok rounds sat p d a whole node empty) := by
  unfold Machine.reduceOp
  exact .issue h (.bind .ctx fun _ => .bind .accepts fun _ => .bind .rounding fun _ => .bind .rdV fun _ => .bind .rdP fun _ =>
      .ite (.bind .flags fun _ => .bind .wrV fun _ => .ite .tick .pure) (.bind .flags fun _ => .wrV))

theorem Kept.execVdot {sp sat p d a b} {s : State} (h : s.memOk) : Kept (Machine.execVdot sp sat p d a b s) := by
  unfold Machine.execVdot
  exact .issue h (.bind .ctx fun _ => .bind .accepts fun _ => .bind .rounding fun _ => .bind .rdV fun _ => .bind .rdV fun _ =>
      .bind .rdV fun _ => .bind .rdP fun _ => .bind .deliverV fun _ => .ite .tick .pure)

theorem Kept.predOp {s : State} {sp d a b f} (h : s.memOk) : Kept (Machine.predOp s sp d a b f) :=
  .issue h (.bind .rdP fun _ => .bind .rdP fun _ => .wrP)

/-! ### Vector memory (07 R189 to R195) -/

theorem Act.Keeps.addresses {a b k esz n} : (Act.addresses a b k esz n).Keeps := by
  unfold Act.addresses
  refine .bind .rdG fun _ => ?_
  split
  · exact .bind .rdG fun _ => .pure
  · exact .bind .rdG fun _ => .pure
  · exact .bind .rdV fun _ => .pure

theorem Act.Keeps.plan {p a b k} : (Act.plan p a b k).Keeps := by
  unfold Act.plan
  refine .bind .ctx fun _ => .bind .addresses fun _ => .bind .rdP fun _ => ?_
  dsimp only
  split
  · exact .raise
  · exact .raise
  · exact .pure

theorem Act.Keeps.tryPlace {acc stk ea n} : (Act.tryPlace acc stk ea n).Keeps := by
  intro s h
  have hp : EndOk (Act.place acc stk ea n true false s) := Act.Keeps.place s h
  unfold Act.tryPlace
  split
  next e => rw [e] at hp; exact hp
  · exact .ite h trivial
  next e => rw [e] at hp; exact hp

theorem Act.Keeps.places {acc stk n l} : (Act.places acc stk n l).Keeps := by
  induction l with
  | nil => exact .pure
  | cons e l ih =>
    refine .bind .tryPlace fun _ => .bind ih fun (_, _) => ?_
    dsimp only
    split
    · exact .pure
    · exact .pure

theorem Act.Keeps.ownLanes {n l} : (Act.ownLanes n l).Keeps := by
  induction l with
  | nil => exact .pure
  | cons x l ih => exact .get fun _ _ => .ite (.bind .ownBytes fun _ => ih) ih

theorem Act.Keeps.checkLanes {here stk l} : (Act.checkLanes here stk l).Keeps := by
  unfold Act.checkLanes
  split
  · exact .raise
  · exact .pure

theorem Act.Keeps.pastLanes {k out} : (Act.pastLanes k out).Keeps := by
  unfold Act.pastLanes
  exact .ite .wrP .pure

theorem Act.Keeps.reachAll {n l} : (Act.reachAll n l).Keeps := by
  induction l with
  | nil => exact .pure
  | cons x l ih => exact .bind .reach fun _ => ih

theorem FstOk.readLanes {s : State} {pid here n l} (h : s.memOk) : FstOk (s.readLanes pid here n l) := by
  induction l generalizing s with
  | nil => exact h
  | cons x l ih => exact ih (s := (s.readHome pid x.home n false).1) (FstOk.readHome h)

theorem Kept.vecLoad {s : State} {sp p d a b k} (h : s.memOk) : Kept (Machine.vecLoad s sp p d a b k) := by
  unfold Machine.vecLoad
  refine .issue h (.bind .gate fun _ => .bind .plan fun _ => .bind .rdV fun _ => .bind .places fun (_, _) => .bind .ownLanes fun _ => ?_)
  dsimp only
  split
  · exact .bind .drain fun _ => .bind .reachAll fun _ => .get fun _ _ => .bind .waitIf fun _ => .get fun _ h2 =>
        .stop (.fault (.update (FstOk.readLanes h2)))
  · exact .get fun _ _ => .ite (.bind .checkLanes fun _ => .bind .wrV fun _ => .pastLanes) (.bind .pastLanes fun _ =>
        .bind .pendDest fun _ => .get fun _ h2 => .bind (.set (FstOk.readLanes h2)) fun _ => .ite .result .post)

theorem State.memOk.storeLanes {s : State} {n data l} (h : s.memOk) : (s.storeLanes n data l).memOk := .foldl (fun _ _ h1 => .wr h1) h

theorem Kept.vecStore {s : State} {sp p d a b k} (h : s.memOk) : Kept (Machine.vecStore s sp p d a b k) := by
  unfold Machine.vecStore
  refine .issue h (.bind .gate fun _ => .bind .plan fun _ => .bind .rdV fun _ => .bind .places fun (_, _) => ?_)
  dsimp only
  split
  · exact .raise
  · exact .bind .ownLanes fun _ => .get fun _ _ => .bind .checkLanes fun _ => .bind .pastLanes fun _ => .bind (.upd fun _ h2 =>
        .update (.storeLanes h2)) fun _ => .ite .pure .post

theorem Kept.scatterAdd {s : State} {sp p d a b k} (h : s.memOk) : Kept (Machine.scatterAdd s sp p d a b k) := by
  unfold Machine.scatterAdd
  refine .issue h (.bind .gate fun _ => .bind .ctx fun _ => .bind .accepts fun _ => .bind .check fun _ => .bind .plan fun _ =>
      .bind .rdV fun _ => .bind .places fun (_, _) => ?_)
  dsimp only
  split
  · exact .raise
  · exact .get fun _ _ => .bind .unmarked fun _ => .bind .checkLanes fun _ => .bind .pastLanes fun _ => .ite .pure .postNow

/-! ### The commit sequencer (10 R280 to R286, 12 R323 to R327) -/

theorem Kept.execSnapshotRequest {i} {s : State} (h : s.memOk) : Kept (Machine.execSnapshotRequest i s) := by
  unfold Machine.execSnapshotRequest
  refine .next ?_
  split
  · exact h
  · split
    · exact .ite h (.answer h)
    · exact h

theorem State.memOk.tellLoss {s : State} {act} (h : s.memOk) : (s.tellLoss act).memOk := by
  unfold State.tellLoss
  dsimp only
  split
  · exact h
  · exact h
  · exact h

theorem State.memOk.revoke {s : State} {n} (h : s.memOk) : (s.revoke n).memOk := .tellLoss h

theorem State.memOk.conflict {s : State} {c va} (h : s.memOk) : (s.conflict c va).memOk := by
  unfold State.conflict
  exact .ite (.ite (.deliver (.answer h)) (.addPend (.answer h))) h

theorem Kept.execCommitPrepare {i} {s : State} (h : s.memOk) : Kept (Machine.execCommitPrepare i s) := by
  unfold Machine.execCommitPrepare
  refine .next ?_
  split
  · exact h
  · split
    · exact h
    · exact .ite h (by split; exact h; exact .conflict h; exact h)

theorem Kept.execCommitTimestamp {i} {s : State} (h : s.memOk) : Kept (Machine.execCommitTimestamp i s) := by
  unfold Machine.execCommitTimestamp
  exact .next (by split; exact h; exact .ite h h)

theorem State.memOk.installLine {s : State} {ts x} (h : s.memOk) : (s.installLine ts x).memOk := by
  unfold State.installLine
  exact .ite (.update (.ite (.wr h) (.install h))) (.ite (.wr h) (.install h))

theorem State.memOk.committed {s : State} {c ts} (h : s.memOk) : (s.committed c ts).memOk := .update (.answer h)

theorem Kept.execCommitInstall {i line} {s : State} (h : s.memOk) : Kept (Machine.execCommitInstall i line s) := by
  unfold Machine.execCommitInstall
  refine .next ?_
  split
  · exact h
  · split
    · exact h
    · exact .ite h (.ite h (.ite (.committed (.update (.foldl (fun _ _ h1 => .installLine h1) h))) (.update (.update (.foldl (fun _ _ h1 =>
          .installLine h1) h)))))

theorem State.memOk.giveUp {s : State} {c} (h : s.memOk) : (s.giveUp c).memOk := by
  unfold State.giveUp
  exact .ite h h

theorem Kept.execTimestampRenumbering {s : State} (h : s.memOk) : Kept (Machine.execTimestampRenumbering s) := by
  unfold Machine.execTimestampRenumbering
  exact .next (.ite h (.ite (.update (.update (.foldl (fun _ _ h1 => .revoke h1) (.foldl (fun _ _ h1 =>
      .giveUp h1) h)))) (.foldl (fun _ _ h1 => .revoke h1) (.foldl (fun _ _ h1 => .giveUp h1) h))))

theorem Kept.execGroomReclaim {line ts} {s : State} (h : s.memOk) : Kept (Machine.execGroomReclaim line ts s) := by
  unfold Machine.execGroomReclaim
  refine .next ?_
  split
  · exact h
  · split
    · exact h
    · exact .ite h (.reclaim h)

theorem Kept.execSnapshotRevocation {s : State} (h : s.memOk) : Kept (Machine.execSnapshotRevocation s) := by
  unfold Machine.execSnapshotRevocation
  exact .next (.ite h (by split; exact h; exact .update (.revoke h)))

/-! ### Dispatch: every instruction and event -/

/-- Every instruction and event; where the operation of an arm is not found from its name alone, the arm names it. -/
theorem Kept.exec {s : State} (h : s.memOk) : ∀ i, Kept (Machine.exec i s)
  | .add .. | .sub .. | .mul .. | .mulh .. | .mulhu .. | .and .. | .or .. | .xor .. | .andn .. | .orn .. | .shl .. | .shr ..
  | .sar .. | .rol .. | .ror .. | .min .. | .max .. | .minu .. | .maxu .. | .cmpeq .. | .cmpne .. | .cmplt .. | .cmpge ..
  | .cmpltu .. | .cmpgeu .. | .addCompact .. | .subCompact .. | .andCompact .. | .orCompact .. | .xorCompact .. | .mulCompact .. => .binOp h
  | .div .. | .divu .. | .rem .. | .remu .. => .divOp h
  | .sel .. => .issue h (.bind .rdG fun _ => .bind .rdG fun _ => .bind .rdG fun _ => .wrG)
  | .clz .. | .ctz .. | .popc .. | .bswap .. | .sextb .. | .sexth .. | .sextw .. | .zextb .. | .zexth .. | .zextw .. | .addi ..
  | .andi .. | .ori .. | .xori .. | .shli .. | .shri .. | .sari .. | .rori .. | .cmpi .. | .lea .. | .addiCompact ..
  | .shliCompact .. | .shriCompact .. => .unOp h
  | .li .. | .lih .. | .addpc .. | .liCompact .. => .constOp h
  | .ld .. | .ldStackCompact .. | .ldCompact .. => .loadOp h fun _ => .pure
  | .st .. | .stStackCompact .. | .stCompact .. => .storeOp h fun _ => .pure
  | .ldx .. => .loadOp h fun _ => .bind .rdG fun _ => .pure
  | .stx .. => .storeOp h fun _ => .bind .rdG fun _ => .pure
  | .mfs .. => .issue h (.bind .sregNumber fun _ => .get fun _ _ => .wrG)
  | .mts .. => .execMts h
  | .bc .. => .issue h (.bind .rdG fun _ => .bind .rdG fun _ => .ite .jump .pure)
  | .bz .. => .issue h (.bind .rdG fun _ => .ite .jump .pure)
  | .br .. => .issue h .jump
  | .call .. => .issue h .call
  | .jr .. | .jrCompact .. => .issue h (.bind .jumpReg fun _ => .jump)
  | .callr .. => .issue h (.bind .jumpReg fun _ => .call)
  | .ret .. | .retCompact .. => .retOp h
  | .done .. | .doneCompact .. => .doneOp h
  | .waita .. => .execWaita h
  | .halt .. => .issue h (.bind .rdG fun _ => .get fun _ h1 => .stop (.endFail h1))
  | .idle .. => .execIdle h
  | .nop .. | .nopCompact .. => .issue h .pure
  | .mtake .. | .mpeek .. => .takeOp h
  | .waitm .. => .execWaitm h
  | .loop .. => .issue h (.bind .check fun _ => .bind .rdG fun _ => .bind .wrG fun _ => .ite .jump .pure)
  | .bsinit .. => .issue h (.bind .rdG fun _ => .bind .rdG fun _ => .bind .check fun _ => .setBb)
  | .bsget .. | .bspeek .. => .bsRead h
  | .bsskip .. => .issue h (.bind .rdG fun _ => .bind .ring fun _ => .bind .check fun _ => .setBb)
  | .bseg .. => .execBseg h
  | .bsput .. => .execBsput h
  | .bsflush .. => .execBsflush h
  | .bspos .. => .issue h (.bind .ctx fun _ => .wrG)
  | .handle .. => .execHandle h
  | .unhandle .. => .execUnhandle h
  | .perform .. => .issue h (.bind .effectId fun _ => .bind .rdG fun _ => .perform)
  | .performv .. => .execPerformv h
  | .resume .. | .resumem .. => .resumeOp h
  | .discard .. => .execDiscard h
  | .tkstat .. => .execTkstat h
  | .shandle .. => .issue h (.bind .needSup fun _ => .bind .rdG fun _ => .bind .check fun _ => .updCore)
  | .send .. => .execSend h
  | .sendr .. => .execSendr h
  | .mcast .. => .execMcast h
  | .subtag .. => .execSubtag h
  | .hmask .. => .issue h (.bind .inSH fun _ => .bind .check fun _ => .upd fun _ h1 => h1)
  | .hunmask .. => .issue h (.bind .inSH fun _ => .bind .check fun _ => .updCtx)
  | .hcfg .. => .execHcfg h
  | .spawn .. => .execSpawn h
  | .fork .. => .execFork h
  | .joinw .. => .execJoinw h
  | .cntinit .. => .execCntinit h
  | .cntdec .. => .issue h (.bind .rdG fun _ => .get fun _ _ => .bind .check fun _ => .send)
  | .launch .. => .execLaunch h
  | .gjoin .. => .execGjoin h
  | .gleave .. => .issue h (.bind .handle fun (_, _) => .bind .send fun _ => .get fun _ _ => .updCtx)
  | .bari .. => .issue h (.bind .handle fun (_, _) => .bind .rdG fun _ => .bind .check fun _ => .send)
  | .bara .. => .issue h (.bind .handle fun (_, _) => .send)
  | .barw .. | .baraw .. => .barrierWait h
  | .amoAdd .. | .amoAnd .. | .amoOr .. | .amoXor .. | .amoMin .. | .amoMax .. | .amoMinu .. | .amoMaxu .. | .amoSwap ..
  | .amoFadd32 .. | .amoFadd64 .. => .amoOp h
  | .cas _ k .. => .execCas (k_ := k) h
  | .lda .. => .execLda h
  | .stl .. => .issue h (.bind .rdG fun _ => .bind .rdG fun _ => .store)
  | .fence .. => .issue h .drain
  | .tdef .. => .execTdef h
  | .tset .. | .trel .. => .issue h (.bind .tileFree fun _ => .bind .waitIf fun _ => .updCore)
  | .twait .. => .issue h (.bind .core fun _ => .bind .waitIf fun _ => .wrG)
  | .snap .. => .execSnap h
  | .ldv .. => .execLdv h
  | .ldvw .. => .execLdvw h
  | .stv .. => .execStv h
  | .commit .. => .execCommit h
  | .abort .. => .issue h .updCtx
  | .vretire .. => .issue h (.upd fun _ h1 => .ite h1 h1)
  | .ctxsave .. | .ctxsaveCore .. => .ctxSaveOp h
  | .ctxload .. | .ctxloadCore .. => .ctxLoadOp h
  | .tlbi .. => .execTlbi h
  | .maplid .. => .execMaplid h
  | .sysrd .. => .execSysrd h
  | .syswr .. => .execSyswr h
  | .prefetch .. => .issue h (.bind .rdG fun _ => .bind .rdG fun _ => .check)
  | .vadd .. | .vsub .. | .vmul .. | .vmin .. | .vmax .. => .intLane h
  | .vmulh .. => (.lanewise h : Kept (Machine.execVmulh ..))
  | .vand .. => (.bitLane h : Kept (Machine.execVand ..))
  | .vor .. => (.bitLane h : Kept (Machine.execVor ..))
  | .vxor .. => (.bitLane h : Kept (Machine.execVxor ..))
  | .vshl .. => (.bitLane h : Kept (Machine.execVshl ..))
  | .vshr .. => (.bitLane h : Kept (Machine.execVshr ..))
  | .vsar .. => (.bitLane h : Kept (Machine.execVsar ..))
  | .vabs .. => (.intLane h : Kept (Machine.execVabs ..))
  | .vcmp .. => (.compareOp h : Kept (Machine.execVcmp ..))
  | .vfadd .. => (.floatLane h : Kept (Machine.execVfadd ..))
  | .vfsub .. => (.floatLane h : Kept (Machine.execVfsub ..))
  | .vfmul .. => (.floatLane h : Kept (Machine.execVfmul ..))
  | .vfma .. => .floatLane h
  | .vfms .. => (.floatLane h : Kept (Machine.execVfms ..))
  | .vfnma .. => (.floatLane h : Kept (Machine.execVfnma ..))
  | .vfdiv .. => (.floatLane h : Kept (Machine.execVfdiv ..))
  | .vfsqrt .. => (.floatLane h : Kept (Machine.execVfsqrt ..))
  | .vfmin .. => (.lanewise h : Kept (Machine.execVfmin ..))
  | .vfmax .. => (.lanewise h : Kept (Machine.execVfmax ..))
  | .vfcmp .. => (.compareOp h : Kept (Machine.execVfcmp ..))
  | .vfclass .. => (.lanewise h : Kept (Machine.execVfclass ..))
  | .vfrcp .. => (.floatLane h : Kept (Machine.execVfrcp ..))
  | .vfrsq .. => (.floatLane h : Kept (Machine.execVfrsq ..))
  | .vcvt .. => .execVcvt h
  | .vscale .. => (.lanewise h : Kept (Machine.execVscale ..))
  | .vpack .. => .execVpack h
  | .vunpack .. => .execVunpack h
  | .vcfg .. => .issue h (.bind .rdG fun _ => .bind .check fun _ => .bind .wrG fun _ => .updCtx)
  | .vmov .. => (.moveOp h : Kept (Machine.execVmov ..))
  | .vmovPredToGpr .. => .issue h (.bind .rdP fun _ => .wrG)
  | .vmovGprToPred .. => .issue h (.bind .rdG fun _ => .wrP)
  | .vbcast .. => .execVbcast h
  | .vext .. => .execVext h
  | .vins .. => .execVins h
  | .vshuf .. => (.moveOp h : Kept (Machine.execVshuf ..))
  | .vperm .. => (.moveOp h : Kept (Machine.execVperm ..))
  | .vslide .. => .execVslide h
  | .vsel .. => .execVsel h
  | .vcompress .. => .issue h (.bind .ctx fun _ => .bind .rdV fun _ => .bind .rdP fun _ => .wrV)
  | .vexpand .. => .execVexpand h
  | .vredadd .. => (.reduceOp h : Kept (Machine.execVredadd ..))
  | .vredmax .. => (.reduceOp h : Kept (Machine.execVredmax ..))
  | .vredmin .. => (.reduceOp h : Kept (Machine.execVredmin ..))
  | .vdot .. => .execVdot h
  | .pand .. | .por .. | .pxor .. | .pnot .. | .pcnt .. | .pfirst .. | .pset .. => .predOp h
  | .vld .. | .vlds .. | .vgather .. => .vecLoad h
  | .vst .. | .vsts .. | .vscatter .. => .vecStore h
  | .vscatadd .. => .scatterAdd h
  | .cpy .. | .cpyb .. => .copyOp h
  | .cpym .. => .execCpym h
  | .wmwait .. => .execWmwait h
  | .spld .. => .execSpld h
  | .bankop .. => .execBankop h
  | .mma .. | .mmar .. | .mmasp .. => .matOp h
  | .accrd .. => .execAccrd h
  | .accz .. => .issue h (.bind .useTile fun _ => .bind .tileFault fun _ => .get fun _ _ => .pushMatrix)
  | .mscl .. => .execMscl h
  | .rsort .. => .execRsort h
  | .remit .. => .execRemit h
  | .rkseq .. => .execRkseq h
  | .rkarm .. => .execRkarm h
  | .rkdisarm .. => .execRkdisarm h
  | .rkres .. => .execRkres h
  | .rkacc .. => .execRkacc h
  | .rkdense .. => .execRkdense h
  | .rkgrad .. => .execRkgrad h
  | .queuePop .. => .execQueuePop h
  | .queuePush .. => .next (.ite h (.push h))
  | .preqWrite .. => .next (.writePreq h)
  | .migrWrite .. => .next (.ite (.fault h) h)
  | .lqtailWrite .. | .moduleSensorSample .. | .codeTableRebuild .. | .portDown .. => .next h
  | .lqctlWrite .. => .next (.writeLqctl h)
  | .trstRsyWrite .. => .next (.writeTrst h)
  | .registerWrite .. => .next (.ite (.regWrite h) h)
  | .readSensors .. | .readLog .. | .cap .. | .stageFirmwareChunk .. | .verifyAndActivate .. | .attestationReport .. => .next (.mailbox h)
  | .mailboxUnknownOp .. => .next (.ite h (.mailbox h))
  | .mailboxCompletion => .execMailboxCompletion h
  | .pldmMonitoring .. | .spdmAttestation .. | .resynchronisation .. | .portRetrain .. | .watchWake .. | .fairnessBoundary .. =>
    .next (.ite h h)
  | .pldmFirmwareUpdate .. => .next (.ite (.ite (.update (FstOk.activate h)) h) (.update (FstOk.stageChunk h)))
  | .oemCapMessage .. => .next (.ite (FstOk.capMessage h) h)
  | .budgetUpdate => .execBudgetUpdate h
  | .capFallback => .next (.ite (.putCap h) h)
  | .clusterEstimate .. => .execClusterEstimate h
  | .migrateWithdrawal .. => .execMigrateWithdrawal h
  | .migrate .. => .next (.ite (.landMigrate h) h)
  | .migrationMove .. => .execMigrationMove h
  | .clusterSensorSample .. => .next (.ite h (.ite (.trip h) h))
  | .stackSensorSample .. => .next (.ite (.trip h) h)
  | .inputVoltageTrip .. => .execInputVoltageTrip h
  | .outOfService .. => .execOutOfService h
  | .correctedCountLog => .next (.foldl (fun _ _ h1 => .logEvent h1) h)
  | .scrubFinding .. => .next (.logEvent h)
  | .powerGood => .execPowerGood h
  | .reset | .powerLoss => .next (.restart h)
  | .selfTestPass .. => .next (.ite (.chooseLead (.setReady (.chooseLead h))) h)
  | .leadDieChoice => .next (.chooseLead h)
  | .traceFlitSend .. => .execTraceFlitSend h
  | .traceFlitReceive .. => .next (.ite h (.ite h (.ite h (.ite h h))))
  | .hostAccess .. => .execHostAccess h
  | .peerAccess .. => .execPeerAccess h
  | .peerNegativeResponse .. => .execPeerNegativeResponse h
  | .peerStorePerm .. | .deadmsg .. | .copyfail .. | .copyfault .. | .numericDeferred .. | .memerrDeferred .. => .next (.landKind h)
  | .launchQueueService => .execLaunchQueueService h
  | .launchCheck .. => .execLaunchCheck h
  | .launchCoreStart .. => .execLaunchCoreStart h
  | .launchEnd .. => .execLaunchEnd h
  | .messageArrival .. => .execMessageArrival h
  | .boundQueuePush .. => .execBoundQueuePush h
  | .messageSelection .. => .execMessageSelection h
  | .priority1Entry .. => .next (.enterSh h)
  | .deadmsgResponse .. => .execDeadmsgResponse h
  | .mailboxWriteArrival .. => .execMailboxWriteArrival h
  | .mailboxStoreLanding .. => .execMailboxStoreLanding h
  | .mtakeService .. => .execMtakeService h
  | .subscriptionUpdate .. => .execSubscriptionUpdate h
  | .registerResultArrival .. => .execRegisterResultArrival h
  | .contextWake .. => .execContextWake h
  | .idleExpiry .. => .execIdleExpiry h
  | .hmaskTimeout .. => .execHmaskTimeout h
  | .contextFill .. => .execContextFill h
  | .contextSpill .. => .execContextSpill h
  | .spillRestore .. => .execSpillRestore h
  | .taskJoinDecrement .. => .execTaskJoinDecrement h
  | .decrementArrival .. => .execDecrementArrival h
  | .pendingRecordRelease .. => .execPendingRecordRelease h
  | .paddockDispatch .. => .execPaddockDispatch h
  | .paddockAging .. => .execPaddockAging h
  | .classWaitExpiry .. => .execClassWaitExpiry h
  | .deterministicHoldRelease .. => .execDeterministicHoldRelease h
  | .barrierUpdate .. => .execBarrierUpdate h
  | .copyEngineAccept .. => .execCopyEngineAccept h
  | .copySegmentRead .. => .execCopySegmentRead h
  | .copySegmentDelivery .. => .execCopySegmentDelivery h
  | .copyItemCompletion .. => .execCopyItemCompletion h
  | .cpymHeaderArrival .. => .execCpymHeaderArrival h
  | .drainHoldRelease .. => .execDrainHoldRelease h
  | .remoteAccess .. | .replicatedWrite .. => .next (.performAccess h)
  | .pageWalk .. => .execPageWalk h
  | .replicaApply .. => .execReplicaApply h
  | .snapshotRequest .. => .execSnapshotRequest h
  | .commitPrepare .. => .execCommitPrepare h
  | .commitTimestamp .. => .execCommitTimestamp h
  | .commitInstall .. => .execCommitInstall h
  | .timestampRenumbering => .execTimestampRenumbering h
  | .groomReclaim .. => .execGroomReclaim h
  | .snapshotRevocation => .execSnapshotRevocation h
  | .matrixUnitExecute .. => .execMatrixUnitExecute h
  | .matrixStatusPush .. => .execMatrixStatusPush h
  | .rotationForwardLanding .. => .execRotationForwardLanding h
  | .forwardHoldRelease .. => .execForwardHoldRelease h
  | .rankUnitExecute .. => .execRankUnitExecute h
  | .rankFlitArrival .. => .execRankFlitArrival h
  | .rankEntryProcessing .. => .next (.rankStep h)
  | .rankResultPush .. => .execRankResultPush h
  | .watchdog .. => .next (.ite (.landWatchdog h) h)
  | .preempt .. | .preemptForced .. => .next (.ite (.landPreempt h) h)
  | .heldSystemEffect .. => .execHeldSystemEffect h
  | .syswrApply .. => .execSyswrApply h
  | .unassignedEncoding .. | .fetchFault .. => .issue h .raise
  | .mapChange .. => .execMapChange h
  | .softError .. => .execSoftError h

/-! ### Moves (log 3) -/

theorem State.memOk.ready {s : State} {pid cx} (h : s.memOk) : (s.ready pid cx).memOk := .update (.update (.ite h (.ite h h)))

theorem OptOk.boundary {s : State} {pid cx} (h : s.memOk) : OptOk (s.boundary pid cx) := by
  unfold State.boundary
  have land {b : Bool} {t : State} (ht : t.memOk) : OptOk (some (if b then t else s.waitCapture pid cx)) :=
    State.memOk.ite ht (.waitCapture h)
  exact .ite (State.memOk.enterSh h) (.ite (land (.landDue h)) (.ite (land (.landWatchdog h)) (.ite (land (.landPreempt h))
    (.ite (land (.landMigrate h)) (.ite (.map fun _ => h) trivial)))))

theorem Kept.turn {s : State} {pid cx} (h : s.memOk) : Kept (s.turn pid cx) := by
  unfold State.turn
  refine .ite ?_ h
  split
  next e => exact OptOk.elim (.boundary h) e
  · dsimp only
    split
    · exact h
    · exact .exec (.ready h) _
    · split
      · exact .exec (.fillFetch (.ready h)) _
      · exact .exec (.ready h) _

theorem Kept.perform {s : State} {m} (h : s.memOk) : Kept (s.perform m) := by
  unfold State.perform
  split
  · exact .turn h
  · exact .ite (.exec h _) h

theorem State.memOk.work {s : State} {pid} (h : s.memOk) : (s.work pid).memOk := .foldl (fun _ _ h1 => h1) h

theorem State.memOk.counted {s : State} {m} (h : s.memOk) : (s.counted m).memOk := by
  unfold State.counted
  split
  · exact .ite (by split; exact .work h; exact h) h
  · split
    · exact .work h
    · exact h

theorem State.memOk.tick {s : State} (h : s.memOk) : (s.tick).memOk := by
  unfold State.tick
  dsimp only
  split
  · exact .counted h
  · exact h

/-! ### The step -/

/-- One step keeps the canonical form of memory. -/
theorem Kept.step {s : State} (h : s.memOk) : Kept (Machine.step s) := by
  unfold Machine.step
  split
  · exact .perform h.tick
  · split
    · exact .perform h.tick
    · exact h.tick

/-- Settles O45: `Kept.step` for a step that answers a next state. -/
theorem memoryFormIsKept : Obligations.MemoryFormIsKept := by
  intro s t h e
  have hk : Kept (step s) := .step h
  rw [e] at hk
  exact hk

end Sys2Proof.Machine
end

section
/-! PROOF. The scalar instructions: the value each gives Gd, and all that it leaves as it was (05 R109 to R119). -/

namespace Sys2Proof.Machine

/-- Settles O1: the rows of two operands with SEL, the divisions, and the rows of one operand with the constants. -/
theorem scalarResults : Obligations.ScalarResults :=
  ⟨binaryResults_rules, divisionResults_rules, constantResults_rules⟩

/-- Settles O39: an instruction of one register answers `afterG`, which touches Gd and the PC alone, and a store of the own scratchpad
answers `afterStore`, whose bytes are read back by `Memory.rd_wrs`. -/
theorem scalarFrames : Obligations.ScalarFrames :=
  ⟨registerFrame_rules, storeFrame_rules⟩

end Sys2Proof.Machine
end

section
/-! PROOF. How an activation ends and waits, the special registers, and how an effect is entered (01 R14, R28; 05 R123, R130 to R136; 06). -/

namespace Sys2Proof.Machine

/-- Settles O4: DONE and HALT leave the context free, whatever its registers; the other instructions complete, park or take a mailbox. -/
theorem endsAndWaits : Obligations.EndsAndWaits :=
  ⟨end_rules, wait_rules⟩

/-- Settles O5: MFS and MTS, each by the number of the register and the level. -/
theorem specialRegisterAccess : Obligations.SpecialRegisterAccess :=
  ⟨mfs_rules, mts_rules⟩

/-- Settles O7: a system effect always finds its handler, while PERFORM and PERFORMV search the frames. -/
theorem performAndSystemEntry : Obligations.PerformAndSystemEntry :=
  ⟨systemEntry_rules, perform_rules⟩

end Sys2Proof.Machine
end

section
/-! PROOF. The vector loads, and the checks before any access (07 R189 to R195). -/

namespace Sys2Proof.Machine

/-- Settles O17: the loads that pass the checks, then the first element that fails one, for loads and stores alike. -/
theorem vectorLoadsAndChecks : Obligations.VectorLoadsAndChecks :=
  ⟨vectorLoads_rules, vectorChecks_rules⟩

end Sys2Proof.Machine
end

section
/-! PROOF. What reaches a core: results, queue entries and mailbox values; and how contexts are filled, woken, spilled and restored
(05 R121, R134, R136; 08 R200 to R207, R225; 09 R251, R252). -/

namespace Sys2Proof.Machine

/-- Settles O23: the results with the queues, then the mailbox writes with the takes they serve. -/
theorem resultsAndMailboxes : Obligations.ResultsAndMailboxes :=
  ⟨results_rules, mailboxes_rules⟩

/-- Settles O25: the sources of a free context in their order, the ends of waits and windows, and the spill with its way back. -/
theorem fillWakeAndSpill : Obligations.FillWakeAndSpill :=
  ⟨fill_rules, waits_rules, spill_rules⟩

end Sys2Proof.Machine
end

section
/-! PROOF. No move of the machine stops it: a turn and an event end in `exec` or in a state (log 6), and `exec` always goes on. -/

namespace Sys2Proof.Machine

/-- A turn lands what is due, waits for its fetch, or executes an instruction, a failed fetch or an unassigned encoding. -/
theorem State.turn_next (s : State) (pid cx : Nat) : ∃ t, s.turn pid cx = .next t := by
  unfold State.turn
  split
  · cases s.boundary pid cx with
    | some t => exact ⟨t, rfl⟩
    | none =>
      cases s.fetch pid cx with
      | waits => exact ⟨s, rfl⟩
      | fault e => exact exec_next _ _
      | bytes l =>
        cases hd : decode l with
        | some i => simpa only [hd] using exec_next i.1 _
        | none => simpa only [hd] using exec_next (.unassignedEncoding _) _
  · exact ⟨s, rfl⟩

theorem State.perform_event (s : State) (i : Instr) : s.perform (.event i) = if isEvent i then exec i s else .next s := rfl

/-- A move goes on: the turn of a context, an event, or an agenda entry that is none and changes nothing (log 6). -/
theorem State.perform_next (s : State) (m : Move) : ∃ t, s.perform m = .next t := by
  cases m with
  | issue pid cx => exact s.turn_next pid cx
  | event i =>
    rw [State.perform_event]
    split
    · exact exec_next i s
    · exact ⟨s, rfl⟩

/-- Settles O43: the step performs the head of the agenda, or, with none, a move that stands open. -/
theorem everyStepGoesOn : Obligations.EveryStepGoesOn := by
  intro s
  cases h : s.agenda with
  | nil =>
    obtain ⟨m, -, hm⟩ := step_performs_open h
    exact hm ▸ s.tick.perform_next m
  | cons m rest =>
    have hs : step s = ({ s.tick with agenda := rest } : State).perform m := by simp only [step, h]
    exact hs ▸ State.perform_next _ m

end Sys2Proof.Machine
end

section
/-! PROOF. The reset state: every table is empty, so that each context, core, cluster and port reads the reset value of its kind. -/

namespace Sys2Proof.Machine

@[simp] theorem State.ctxAt_reset (pid cx : Nat) : State.reset.ctxAt pid cx = Ctx.reset := rfl
@[simp] theorem State.coreAt_reset (pid : Nat) : State.reset.coreAt pid = Core.reset := rfl
@[simp] theorem State.clusterAt_reset (die cluster : Nat) : State.reset.clusterAt die cluster = Cluster.reset := rfl
@[simp] theorem State.portAt_reset (p : Nat) : State.reset.portAt p = { Port.reset with peer := p % 16 } := rfl

/-- Settles O40: each part of the reset state is the reset value of its kind, whose fields are those of the tables. -/
theorem resetValues : Obligations.ResetValues := by
  refine ⟨fun pid cx => ?_, fun pid n => ?_, rfl, fun d c => ?_, rfl, rfl, rfl, rfl, rfl, rfl, fun p => ?_, fun q => rfl⟩
  · rw [State.ctxAt_reset]
    exact ⟨rfl, rfl, rfl, rfl, rfl, rfl⟩
  · rw [State.coreAt_reset]
    exact ⟨rfl, rfl, rfl, rfl, rfl, rfl, rfl, rfl, rfl, rfl, rfl, rfl, rfl⟩
  · rw [State.clusterAt_reset]
    exact ⟨rfl, rfl⟩
  · rw [State.portAt_reset]
    exact ⟨rfl, rfl, rfl, rfl⟩

end Sys2Proof.Machine
end

section
/-! PROOF. The vector instructions on elements, predicates and whole registers: the result of each lane, its rounding and its flags
(03 R72, R79, R80, R88; 07 R170 to R188). -/

namespace Sys2Proof.Machine

/-- Settles O14: a row of the element-wise tables is one `lanewise` run with that row's rule, and the conversions deliver lanes of the
width that they give. -/
theorem vectorArithmetic : Obligations.VectorArithmetic :=
  ⟨lanes_rules, conversions_rules⟩

/-- Settles O15: both compares are `compareOp` with the condition of their table, and the predicate rows are `predOp` read bit by bit. A
reserved condition comes after the format's check (log 70). -/
theorem comparesAndPredicates : Obligations.ComparesAndPredicates :=
  ⟨compares_rules, predicates_rules⟩

/-- Settles O16: the moves element by element; then the reductions, whose tree has the nodes of `redNode`, each drawing by
the lane that it keeps (log 57), and VDOT. -/
theorem movesAndReductions : Obligations.MovesAndReductions :=
  ⟨moves_rules, reductions_rules⟩

end Sys2Proof.Machine
end

section
/-! PROOF. Effects that are due at the boundary between two instructions (03 R81; 06 R147, R151, R152, R155; 15 R346). -/

namespace Sys2Proof.Machine

/-- Settles O28: the due item leaves its queue and lands. A system effect enters the system handler, or is held while that handler runs
(`landEffect_takes`); a copy effect enters the frame of its search (`landEffect_frame`). Landing ends a park and withdraws the context's
barrier registration, which holding does not (log 45). -/
theorem deferredEffects : Obligations.DeferredEffects :=
  ⟨deferred_rules, copyEffects_rules⟩

end Sys2Proof.Machine
end

section
/-! PROOF. The scalar loads and stores, and the transfers of control (05 R118 to R129; 01 R23, R25). -/

namespace Sys2Proof.Machine

/-- Settles O2: a load and a store complete at once on the own scratchpad (`loadOp_spec`, `storeOp_spec`) and ask another home by one
request; the bytes that a store leaves are read back by `Memory.rd_wrs`. -/
theorem scalarMemory : Obligations.ScalarMemory :=
  ⟨loads_rules, stores_rules⟩

/-- Settles O3: the branches by their condition and target, the calls by `Act.call_spec` at each of their targets, and both encodings
of RET by `retOp_spec`. -/
theorem controlTransfers : Obligations.ControlTransfers :=
  ⟨branch_rules, call_rules, return_rules⟩

end Sys2Proof.Machine
end

section
/-! PROOF. Decoding what was encoded (04 R89 to R107): an instruction with an encoding comes back from its bytes. -/

namespace Sys2Proof.Laws

/-- The round trip of every instruction, by its constructor; what is left at the end are the steps without an encoding (chapter 95). -/
theorem roundTrip (i : Instr) : RoundTrip.Statement i := by
  cases i with
  | add s d a b => exact RoundTrip.add s d a b
  | sub s d a b => exact RoundTrip.sub s d a b
  | mul s d a b => exact RoundTrip.mul s d a b
  | mulh s d a b => exact RoundTrip.mulh s d a b
  | mulhu s d a b => exact RoundTrip.mulhu s d a b
  | div s d a b => exact RoundTrip.div s d a b
  | divu s d a b => exact RoundTrip.divu s d a b
  | rem s d a b => exact RoundTrip.rem s d a b
  | remu s d a b => exact RoundTrip.remu s d a b
  | and s d a b => exact RoundTrip.and s d a b
  | or s d a b => exact RoundTrip.or s d a b
  | xor s d a b => exact RoundTrip.xor s d a b
  | andn s d a b => exact RoundTrip.andn s d a b
  | orn s d a b => exact RoundTrip.orn s d a b
  | shl s d a b => exact RoundTrip.shl s d a b
  | shr s d a b => exact RoundTrip.shr s d a b
  | sar s d a b => exact RoundTrip.sar s d a b
  | rol s d a b => exact RoundTrip.rol s d a b
  | ror s d a b => exact RoundTrip.ror s d a b
  | min s d a b => exact RoundTrip.min s d a b
  | max s d a b => exact RoundTrip.max s d a b
  | minu s d a b => exact RoundTrip.minu s d a b
  | maxu s d a b => exact RoundTrip.maxu s d a b
  | sel s d a b => exact RoundTrip.sel s d a b
  | cmpeq s d a b => exact RoundTrip.cmpeq s d a b
  | cmpne s d a b => exact RoundTrip.cmpne s d a b
  | cmplt s d a b => exact RoundTrip.cmplt s d a b
  | cmpge s d a b => exact RoundTrip.cmpge s d a b
  | cmpltu s d a b => exact RoundTrip.cmpltu s d a b
  | cmpgeu s d a b => exact RoundTrip.cmpgeu s d a b
  | clz s d a => exact RoundTrip.clz s d a
  | ctz s d a => exact RoundTrip.ctz s d a
  | popc s d a => exact RoundTrip.popc s d a
  | bswap s d a => exact RoundTrip.bswap s d a
  | sextb s d a => exact RoundTrip.sextb s d a
  | sexth s d a => exact RoundTrip.sexth s d a
  | sextw s d a => exact RoundTrip.sextw s d a
  | zextb s d a => exact RoundTrip.zextb s d a
  | zexth s d a => exact RoundTrip.zexth s d a
  | zextw s d a => exact RoundTrip.zextw s d a
  | addi s d a i => exact RoundTrip.addi s d a i
  | andi s d a i => exact RoundTrip.andi s d a i
  | ori s d a i => exact RoundTrip.ori s d a i
  | xori s d a i => exact RoundTrip.xori s d a i
  | shli s d a n => exact RoundTrip.shli s d a n
  | shri s d a n => exact RoundTrip.shri s d a n
  | sari s d a n => exact RoundTrip.sari s d a n
  | rori s d a n => exact RoundTrip.rori s d a n
  | cmpi s c d a i => exact RoundTrip.cmpi s c d a i
  | li s d i => exact RoundTrip.li s d i
  | lih s d i => exact RoundTrip.lih s d i
  | addpc s d i => exact RoundTrip.addpc s d i
  | lea s z d a i => exact RoundTrip.lea s z d a i
  | ld s z x d a i => exact RoundTrip.ld s z x d a i
  | st s z d a i => exact RoundTrip.st s z d a i
  | ldx s z x d a b => exact RoundTrip.ldx s z x d a b
  | stx s z d a b => exact RoundTrip.stx s z d a b
  | mfs s d i => exact RoundTrip.mfs s d i
  | mts s a i => exact RoundTrip.mts s a i
  | bc s h c b a o => exact RoundTrip.bc s h c b a o
  | bz s h c a o => exact RoundTrip.bz s h c a o
  | br s o => exact RoundTrip.br s o
  | call s o => exact RoundTrip.call s o
  | jr s m a => exact RoundTrip.jr s m a
  | callr s m a => exact RoundTrip.callr s m a
  | ret s => exact RoundTrip.ret s
  | done s => exact RoundTrip.done s
  | waita s d a b => exact RoundTrip.waita s d a b
  | halt s a => exact RoundTrip.halt s a
  | idle s a => exact RoundTrip.idle s a
  | nop s => exact RoundTrip.nop s
  | mtake s d a => exact RoundTrip.mtake s d a
  | mpeek s d a => exact RoundTrip.mpeek s d a
  | waitm s a => exact RoundTrip.waitm s a
  | loop s h a o => exact RoundTrip.loop s h a o
  | bsinit s a b => exact RoundTrip.bsinit s a b
  | bsget s d a => exact RoundTrip.bsget s d a
  | bspeek s d a => exact RoundTrip.bspeek s d a
  | bsskip s a => exact RoundTrip.bsskip s a
  | bseg s d a => exact RoundTrip.bseg s d a
  | bsput s a b => exact RoundTrip.bsput s a b
  | bsflush s => exact RoundTrip.bsflush s
  | bspos s d => exact RoundTrip.bspos s d
  | nopCompact s => exact RoundTrip.nopCompact s
  | doneCompact s => exact RoundTrip.doneCompact s
  | retCompact s => exact RoundTrip.retCompact s
  | addCompact s d a => exact RoundTrip.addCompact s d a
  | subCompact s d a => exact RoundTrip.subCompact s d a
  | andCompact s d a => exact RoundTrip.andCompact s d a
  | orCompact s d a => exact RoundTrip.orCompact s d a
  | xorCompact s d a => exact RoundTrip.xorCompact s d a
  | addiCompact s d i => exact RoundTrip.addiCompact s d i
  | liCompact s d i => exact RoundTrip.liCompact s d i
  | shliCompact s d n => exact RoundTrip.shliCompact s d n
  | shriCompact s d n => exact RoundTrip.shriCompact s d n
  | ldStackCompact s d i => exact RoundTrip.ldStackCompact s d i
  | stStackCompact s d i => exact RoundTrip.stStackCompact s d i
  | ldCompact s d a => exact RoundTrip.ldCompact s d a
  | stCompact s d a => exact RoundTrip.stCompact s d a
  | mulCompact s d a => exact RoundTrip.mulCompact s d a
  | jrCompact s a => exact RoundTrip.jrCompact s a
  | handle s a b c => exact RoundTrip.handle s a b c
  | unhandle s a => exact RoundTrip.unhandle s a
  | perform s e a => exact RoundTrip.perform s e a
  | performv s e a p => exact RoundTrip.performv s e a p
  | resume s a b c => exact RoundTrip.resume s a b c
  | resumem s a b c => exact RoundTrip.resumem s a b c
  | discard s d a => exact RoundTrip.discard s d a
  | tkstat s d a => exact RoundTrip.tkstat s d a
  | shandle s a => exact RoundTrip.shandle s a
  | send s a b c => exact RoundTrip.send s a b c
  | sendr s a b => exact RoundTrip.sendr s a b
  | mcast s a b c => exact RoundTrip.mcast s a b c
  | subtag s a b => exact RoundTrip.subtag s a b
  | hmask s => exact RoundTrip.hmask s
  | hunmask s => exact RoundTrip.hunmask s
  | hcfg s d a b c => exact RoundTrip.hcfg s d a b c
  | spawn s d a => exact RoundTrip.spawn s d a
  | fork s d a b c => exact RoundTrip.fork s d a b c
  | joinw s a => exact RoundTrip.joinw s a
  | cntinit s a b => exact RoundTrip.cntinit s a b
  | cntdec s a => exact RoundTrip.cntdec s a
  | launch s d a => exact RoundTrip.launch s d a
  | gjoin s d a => exact RoundTrip.gjoin s d a
  | gleave s a => exact RoundTrip.gleave s a
  | bari s a b => exact RoundTrip.bari s a b
  | bara s a => exact RoundTrip.bara s a
  | barw s a b => exact RoundTrip.barw s a b
  | baraw s a b => exact RoundTrip.baraw s a b
  | amoAdd s k r d a b => exact RoundTrip.amoAdd s k r d a b
  | amoAnd s k r d a b => exact RoundTrip.amoAnd s k r d a b
  | amoOr s k r d a b => exact RoundTrip.amoOr s k r d a b
  | amoXor s k r d a b => exact RoundTrip.amoXor s k r d a b
  | amoMin s k r d a b => exact RoundTrip.amoMin s k r d a b
  | amoMax s k r d a b => exact RoundTrip.amoMax s k r d a b
  | amoMinu s k r d a b => exact RoundTrip.amoMinu s k r d a b
  | amoMaxu s k r d a b => exact RoundTrip.amoMaxu s k r d a b
  | amoSwap s k r d a b => exact RoundTrip.amoSwap s k r d a b
  | amoFadd32 s k r d a b => exact RoundTrip.amoFadd32 s k r d a b
  | amoFadd64 s k r d a b => exact RoundTrip.amoFadd64 s k r d a b
  | cas s k r d a b => exact RoundTrip.cas s k r d a b
  | lda s k r z d a => exact RoundTrip.lda s k r z d a
  | stl s k r z d a => exact RoundTrip.stl s k r z d a
  | fence s k r => exact RoundTrip.fence s k r
  | tdef s d a => exact RoundTrip.tdef s d a
  | tset s d => exact RoundTrip.tset s d
  | twait s d a => exact RoundTrip.twait s d a
  | trel s d => exact RoundTrip.trel s d
  | snap s d a => exact RoundTrip.snap s d a
  | ldv s z x d a => exact RoundTrip.ldv s z x d a
  | ldvw s d a b => exact RoundTrip.ldvw s d a b
  | stv s z d a => exact RoundTrip.stv s z d a
  | commit s d => exact RoundTrip.commit s d
  | abort s => exact RoundTrip.abort s
  | vretire s => exact RoundTrip.vretire s
  | ctxsave s d a b => exact RoundTrip.ctxsave s d a b
  | ctxsaveCore s d a b => exact RoundTrip.ctxsaveCore s d a b
  | ctxload s d a b => exact RoundTrip.ctxload s d a b
  | ctxloadCore s d a b => exact RoundTrip.ctxloadCore s d a b
  | tlbi s a b => exact RoundTrip.tlbi s a b
  | maplid s d a b => exact RoundTrip.maplid s d a b
  | sysrd s d a => exact RoundTrip.sysrd s d a
  | syswr s a b => exact RoundTrip.syswr s a b
  | prefetch s a b => exact RoundTrip.prefetch s a b
  | vadd s t p d a b => exact RoundTrip.vadd s t p d a b
  | vsub s t p d a b => exact RoundTrip.vsub s t p d a b
  | vmul s t p d a b => exact RoundTrip.vmul s t p d a b
  | vmulh s p d a b => exact RoundTrip.vmulh s p d a b
  | vmin s p d a b => exact RoundTrip.vmin s p d a b
  | vmax s p d a b => exact RoundTrip.vmax s p d a b
  | vand s p d a b => exact RoundTrip.vand s p d a b
  | vor s p d a b => exact RoundTrip.vor s p d a b
  | vxor s p d a b => exact RoundTrip.vxor s p d a b
  | vshl s p d a b => exact RoundTrip.vshl s p d a b
  | vshr s p d a b => exact RoundTrip.vshr s p d a b
  | vsar s p d a b => exact RoundTrip.vsar s p d a b
  | vabs s t p d a => exact RoundTrip.vabs s t p d a
  | vcmp s m d p a b => exact RoundTrip.vcmp s m d p a b
  | vfadd s t p d a b => exact RoundTrip.vfadd s t p d a b
  | vfsub s t p d a b => exact RoundTrip.vfsub s t p d a b
  | vfmul s t p d a b => exact RoundTrip.vfmul s t p d a b
  | vfma s t p d a b => exact RoundTrip.vfma s t p d a b
  | vfms s t p d a b => exact RoundTrip.vfms s t p d a b
  | vfnma s t p d a b => exact RoundTrip.vfnma s t p d a b
  | vfdiv s t p d a b => exact RoundTrip.vfdiv s t p d a b
  | vfsqrt s t p d a => exact RoundTrip.vfsqrt s t p d a
  | vfmin s p d a b => exact RoundTrip.vfmin s p d a b
  | vfmax s p d a b => exact RoundTrip.vfmax s p d a b
  | vfcmp s m d p a b => exact RoundTrip.vfcmp s m d p a b
  | vfclass s p d a => exact RoundTrip.vfclass s p d a
  | vfrcp s t p d a => exact RoundTrip.vfrcp s t p d a
  | vfrsq s t p d a => exact RoundTrip.vfrsq s t p d a
  | vcvt s t p d a n => exact RoundTrip.vcvt s t p d a n
  | vscale s t p d a b => exact RoundTrip.vscale s t p d a b
  | vpack s t p d a b => exact RoundTrip.vpack s t p d a b
  | vunpack s p d a n => exact RoundTrip.vunpack s p d a n
  | vcfg s d a => exact RoundTrip.vcfg s d a
  | vmov s p d a => exact RoundTrip.vmov s p d a
  | vmovPredToGpr s d a => exact RoundTrip.vmovPredToGpr s d a
  | vmovGprToPred s d a => exact RoundTrip.vmovGprToPred s d a
  | vbcast s p d a => exact RoundTrip.vbcast s p d a
  | vext s d a b => exact RoundTrip.vext s d a b
  | vins s d a b => exact RoundTrip.vins s d a b
  | vshuf s p d a b => exact RoundTrip.vshuf s p d a b
  | vperm s p d a b => exact RoundTrip.vperm s p d a b
  | vslide s p d a b => exact RoundTrip.vslide s p d a b
  | vsel s p d a b => exact RoundTrip.vsel s p d a b
  | vcompress s p d a => exact RoundTrip.vcompress s p d a
  | vexpand s p d a => exact RoundTrip.vexpand s p d a
  | vredadd s t p d a => exact RoundTrip.vredadd s t p d a
  | vredmax s p d a => exact RoundTrip.vredmax s p d a
  | vredmin s p d a => exact RoundTrip.vredmin s p d a
  | vdot s t p d a b => exact RoundTrip.vdot s t p d a b
  | pand s d a b => exact RoundTrip.pand s d a b
  | por s d a b => exact RoundTrip.por s d a b
  | pxor s d a b => exact RoundTrip.pxor s d a b
  | pnot s d a => exact RoundTrip.pnot s d a
  | pcnt s d a => exact RoundTrip.pcnt s d a
  | pfirst s d a => exact RoundTrip.pfirst s d a
  | pset s d a => exact RoundTrip.pset s d a
  | vld s p d a b => exact RoundTrip.vld s p d a b
  | vst s p d a b => exact RoundTrip.vst s p d a b
  | vlds s p d a b => exact RoundTrip.vlds s p d a b
  | vsts s p d a b => exact RoundTrip.vsts s p d a b
  | vgather s t p d a b => exact RoundTrip.vgather s t p d a b
  | vscatter s t p d a b => exact RoundTrip.vscatter s t p d a b
  | vscatadd s t p d a b => exact RoundTrip.vscatadd s t p d a b
  | cpy s d a b c => exact RoundTrip.cpy s d a b c
  | cpym s d a b c => exact RoundTrip.cpym s d a b c
  | cpyb s d a b c => exact RoundTrip.cpyb s d a b c
  | wmwait s d a b => exact RoundTrip.wmwait s d a b
  | spld s a b c => exact RoundTrip.spld s a b c
  | bankop s a b c => exact RoundTrip.bankop s a b c
  | mma s t z n d a b c => exact RoundTrip.mma s t z n d a b c
  | mmar s t z n d a b c => exact RoundTrip.mmar s t z n d a b c
  | mmasp s t z n d a b c => exact RoundTrip.mmasp s t z n d a b c
  | accrd s d a b => exact RoundTrip.accrd s d a b
  | accz s d => exact RoundTrip.accz s d
  | mscl s d a b => exact RoundTrip.mscl s d a b
  | rsort s d a => exact RoundTrip.rsort s d a
  | remit s d a b c => exact RoundTrip.remit s d a b c
  | rkseq s a b => exact RoundTrip.rkseq s a b
  | rkarm s d a b c => exact RoundTrip.rkarm s d a b c
  | rkdisarm s d => exact RoundTrip.rkdisarm s d
  | rkres s d a => exact RoundTrip.rkres s d a
  | rkacc s d a => exact RoundTrip.rkacc s d a
  | rkdense s d a c => exact RoundTrip.rkdense s d a c
  | rkgrad s d a b c => exact RoundTrip.rkgrad s d a b c
  | _ => exact fun _ hne _ => absurd rfl hne

/-- Settles O44: the round trip of each constructor. -/
theorem decodingInvertsEncoding : Obligations.DecodingInvertsEncoding :=
  roundTrip

/-- A word decodes as the parts that it is written from (04 R93). -/
theorem decode_written (f : Fields) {w : Nat} (hw : f.word = w) (hf : f.d < 32 ∧ f.a < 32 ∧ f.maj < 64 ∧ f.hi < 16384) {i : Instr}
    (h : decFields f = some i) : decode (bytesOf 4 w) = some (i, 4) := by
  obtain ⟨hd, ha, hm, hh⟩ := hf
  rw [← hw]
  exact decode_word f hd ha hm hh h

/-- Settles O42: the parts of each word, and what they decode to by the equation of their major. -/
theorem wordsDecodeAsWritten : Obligations.WordsDecodeAsWritten :=
  ⟨decode_written ⟨false, 0x00, 1, 2, 3⟩ (by decide) (by decide) rfl,
    decode_written ⟨false, 0x02, 4, 5, 0x3FFF⟩ (by decide) (by decide) (decFields_02 ..),
    decode_written ⟨false, 0x0C, 1, 2, 3 + 8 * 1⟩ (by decide) (by decide) (decFields_0C ..),
    decode_written ⟨false, 0x11, 0, 5, 0x106⟩ (by decide) (by decide) (decFields_11 ..),
    decode_written ⟨false, 0x24, 1, 2, 3 + 32 * 4 + 256⟩ (by decide) (by decide) (decFields_24 ..)⟩

end Sys2Proof.Laws
end

section
/-! PROOF. Fields that do not follow the general formats: the immediates of 04 R95, the effect ids of R104 and the flags of R105. -/

namespace Sys2Proof.Machine
open Laws

/-! ### Fields of a word (01 R29) -/

/-- A field falls into its low and its high part. -/
theorem bitsOf_split (w : Nat) {hi lo mid : Nat} (hl : lo ≤ mid) (hm : mid < hi) :
    bitsOf w hi lo = bitsOf w mid lo + 2 ^ (mid + 1 - lo) * bitsOf w hi (mid + 1) := by
  have hw : (2 : Nat) ^ (hi + 1 - lo) = 2 ^ (mid + 1 - lo) * 2 ^ (hi + 1 - (mid + 1)) := by
    rw [← Nat.pow_add]
    congr 1
    omega
  have hs : (2 : Nat) ^ (mid + 1) = 2 ^ lo * 2 ^ (mid + 1 - lo) := by
    rw [← Nat.pow_add]
    congr 1
    omega
  unfold bitsOf
  rw [hw, Nat.mod_mul, Nat.div_div_eq_div_mul, ← hs]

theorem bitsOf_lt (w hi lo : Nat) : bitsOf w hi lo < 2 ^ (hi + 1 - lo) :=
  Nat.mod_lt _ (Nat.two_pow_pos _)

/-- The low n bits of a field of which the lower part has n bits are that part. -/
theorem ofNat_lowPart (n x y : Nat) : BitVec.ofNat n (x + 2 ^ n * y) = BitVec.ofNat n x := by
  apply BitVec.eq_of_toNat_eq
  simp only [BitVec.toNat_ofNat, Nat.add_mul_mod_self_left]

/-- The bytes of a word of a given major decode as the parts with that major do (04 R93). -/
theorem decode_major {w m : Nat} (hw : w < 2 ^ 32) (h1 : bitOf w 1 = true) (hm : bitsOf w 7 2 = m) : decode (bytesOf 4 w)
    = (decFields ⟨bitOf w 0, m, bitsOf w 12 8, bitsOf w 17 13, bitsOf w 31 18⟩).map (fun i => (i, 4)) := by
  rw [decode_bytes4 w hw h1, ← hm]
  rfl

/-- An instruction that its encoding admits under a condition. -/
theorem okIf_map (p : Prop) [Decidable p] {c : Bool} (hc : c = true ↔ p) (i : Instr) :
    (okIf c i).map (fun i => (i, 4)) = if p then some (i, 4) else none := by
  unfold okIf
  by_cases hp : p
  · rw [if_pos (hc.2 hp), if_pos hp]
    rfl
  · rw [if_neg (fun h => hp (hc.1 h)), if_neg hp]
    rfl

/-! ### Register numbers, shift counts, compare immediates (04 R95) -/

theorem decode_mfs {w : Nat} (hw : w < 2 ^ 32) (h1 : bitOf w 1 = true) (hm : bitsOf w 7 2 = 0x10) : decode (bytesOf 4 w)
    = if bitsOf w 17 13 = 0 then some (.mfs (bitOf w 0) (r5 (bitsOf w 12 8)) (BitVec.ofNat 14 (bitsOf w 31 18)), 4) else none := by
  rw [decode_major hw h1 hm, decFields_10, okIf_map (bitsOf w 17 13 = 0) beq_iff_eq]

theorem decode_mts {w : Nat} (hw : w < 2 ^ 32) (h1 : bitOf w 1 = true) (hm : bitsOf w 7 2 = 0x11) : decode (bytesOf 4 w)
    = if bitsOf w 12 8 = 0 then some (.mts (bitOf w 0) (r5 (bitsOf w 17 13)) (BitVec.ofNat 14 (bitsOf w 31 18)), 4) else none := by
  rw [decode_major hw h1 hm, decFields_11, okIf_map (bitsOf w 12 8 = 0) beq_iff_eq]

/-- Of SHIFTI bits [23:18] are the count, and the type is all that stands above them. -/
theorem decode_shift {w : Nat} (hw : w < 2 ^ 32) (h1 : bitOf w 1 = true) (hm : bitsOf w 7 2 = 0x06) : decode (bytesOf 4 w)
    = (decShift (bitOf w 0) (r5 (bitsOf w 12 8)) (r5 (bitsOf w 17 13)) (BitVec.ofNat 6 (bitsOf w 23 18))
        (bitsOf w 25 24 + 4 * bitsOf w 31 26)).map (fun i => (i, 4)) := by
  have hhi : bitsOf w 31 18 = bitsOf w 23 18 + 2 ^ 6 * bitsOf w 31 24 := bitsOf_split w (by decide) (by decide)
  have htype : bitsOf w 31 24 = bitsOf w 25 24 + 4 * bitsOf w 31 26 := bitsOf_split w (by decide) (by decide)
  have hcount : bitsOf w 23 18 < 64 := bitsOf_lt w 23 18
  have habove : bitsOf w 31 18 / 64 = bitsOf w 31 24 := by omega
  rw [decode_major hw h1 hm, decFields_06, habove, htype, hhi, ofNat_lowPart]

theorem decShift_reserved (s : Bool) (d a : Reg) (n : BitVec 6) {f : Nat} (hf : 4 ≤ f) : decShift s d a n f = none :=
  match f, hf with
  | _ + 4, _ => rfl

theorem decode_cmpi {w : Nat} (hw : w < 2 ^ 32) (h1 : bitOf w 1 = true) (hm : bitsOf w 7 2 = 0x07) {c : Cond}
    (hc : c.code = bitsOf w 20 18) : decode (bytesOf 4 w)
    = some (.cmpi (bitOf w 0) c (r5 (bitsOf w 12 8)) (r5 (bitsOf w 17 13)) (BitVec.ofNat 11 (bitsOf w 31 21)), 4) := by
  have hhi : bitsOf w 31 18 = bitsOf w 20 18 + 8 * bitsOf w 31 21 := bitsOf_split w (by decide) (by decide)
  have hcond : bitsOf w 20 18 < 8 := bitsOf_lt w 20 18
  have hlow : bitsOf w 31 18 % 8 = c.code := by omega
  have himm : bitsOf w 31 18 / 8 = bitsOf w 31 21 := by omega
  rw [decode_major hw h1 hm, decFields_07, hlow, himm, condOf_code]
  rfl

/-- CMPI sign-extends its immediate under every condition (05 R115). -/
theorem cmpi_rules {s : State} (sp : Bool) (c : Cond) (d a : Reg) (i : BitVec 11) (hs : s.Clean) :
    (Cond.meets c (s.ctx.g a) (i.signExtend 64) → exec (.cmpi sp c d a i) s = .next (s.afterG sp 4 d 1))
    ∧ (¬ Cond.meets c (s.ctx.g a) (i.signExtend 64) → exec (.cmpi sp c d a i) s = .next (s.afterG sp 4 d 0)) := by
  obtain ⟨_, _, _, hcmpi, _⟩ := constantResults_rules s sp d a hs
  exact hcmpi c i

/-- Settles O55: each of the four majors by its equation, the shifts by their type, and CMPI as it executes. -/
theorem immediateExceptionsDecode : Obligations.ImmediateExceptionsDecode := by
  intro w hw h1
  refine ⟨decode_mfs hw h1, decode_mts hw h1, fun hm s d a n hs hd ha hn => ?_, fun hm c hc => decode_cmpi hw h1 hm hc,
    fun s sp c d a i hs => cmpi_rules sp c d a i hs⟩
  subst hs hd ha hn
  rw [decode_shift hw h1 hm]
  refine ⟨fun hu => ?_, fun hu => ⟨fun ht => ?_, fun ht => ?_, fun ht => ?_, fun ht => ?_⟩⟩
  · rw [decShift_reserved _ _ _ _ (by omega)]
    rfl
  all_goals
    rw [ht, hu]
    rfl

/-! ### Effect ids (04 R104) -/

/-- Major 0x1A by its fields. -/
theorem decode_eff {w : Nat} (hw : w < 2 ^ 32) (h1 : bitOf w 1 = true) (hm : bitsOf w 7 2 = 0x1A) : decode (bytesOf 4 w)
    = (decEff (bitOf w 0) (bitsOf w 12 8) (bitsOf w 17 13) (bitsOf w 22 18) (bitsOf w 27 23) (bitsOf w 31 28)).map (fun i => (i, 4)) := by
  obtain ⟨hb, hc, hf⟩ := f4_bits w _ rfl
  rw [decode_major hw h1 hm, decFields_1A, hb, hc, hf]

/-- Settles O56: bits [27:18] are the fields B and C, and D falls into bits [9:8] of the id and bits [12:10] of the predicate. -/
theorem effectIdsDecode : Obligations.EffectIdsDecode := by
  intro w hw h1 hm
  have hid : bitsOf w 27 18 = bitsOf w 22 18 + 32 * bitsOf w 27 23 := bitsOf_split w (by decide) (by decide)
  have hd : bitsOf w 12 8 = bitsOf w 9 8 + 4 * bitsOf w 12 10 := bitsOf_split w (by decide) (by decide)
  have htop : bitsOf w 9 8 < 4 := bitsOf_lt w 9 8
  rw [decode_eff hw h1 hm, hid]
  refine ⟨fun hf => ?_, fun hf => ?_, fun _ _ => rfl⟩
  · rw [hf]
    by_cases hp : bitsOf w 12 10 = 0
    · rw [if_pos hp, show bitsOf w 12 8 = bitsOf w 9 8 by omega]
      simp only [decEff, okIf_pos (decide_eq_true htop)]
      rfl
    · have hge : ¬ bitsOf w 12 8 < 4 := by omega
      rw [if_neg hp]
      simp only [decEff, okIf, decide_eq_true_eq, if_neg hge]
      rfl
  · have hlow : bitsOf w 12 8 % 4 = bitsOf w 9 8 := by omega
    have hpred : bitsOf w 12 8 / 4 = bitsOf w 12 10 := by omega
    rw [hf]
    simp only [decEff, hlow, hpred]
    rfl

/-! ### The flags of the matrix instructions (04 R105) -/

/-- A major whose parts are read by `decMma`: its operands are D, A, B and C, and its flags are bits [30:28]. -/
theorem decode_matrix {m : Nat} {i : Bool → Bool → Bool → Bool → Reg → Reg → Reg → Reg → Instr}
    (hdec : ∀ s d a hi, decFields ⟨s, m, d, a, hi⟩
      = decMma (fun t z n => i s t z n (r5 d) (r5 a) (r5 (hi % 32)) (r5 (hi / 32 % 32))) (hi / 1024))
    {w : Nat} (hw : w < 2 ^ 32) (h1 : bitOf w 1 = true) (hm : bitsOf w 7 2 = m) : decode (bytesOf 4 w)
    = if bitOf w 31 then none else some (i (bitOf w 0) (bitOf w 30) (bitOf w 29) (bitOf w 28)
        (r5 (bitsOf w 12 8)) (r5 (bitsOf w 17 13)) (r5 (bitsOf w 22 18)) (r5 (bitsOf w 27 23)), 4) := by
  obtain ⟨hb, hc, hf⟩ := f4_bits w _ rfl
  rw [decode_major hw h1 hm, hdec, hb, hc, hf]
  exact decMma_word w _

/-- Settles O57: the three majors are read alike and differ in their instruction alone. -/
theorem matrixFlagsDecode : Obligations.MatrixFlagsDecode := by
  intro w hw h1
  exact ⟨decode_matrix decFields_2C hw h1, decode_matrix decFields_2D hw h1, decode_matrix decFields_2E hw h1⟩

end Sys2Proof.Machine
end

section
/-! PROOF. The scalar instructions one by one: what the bit stream, the immediates, LEA, the rows of Table 5.2 and LOOP compute, and how
their words are read (05 R112 to R117, R127, R137 to R145). -/

namespace Sys2Proof.Machine
open Laws

/-! ### The bit stream (05 R137 to R145) -/

/-- Settles O6: BSPOS, BSINIT and the instructions that read or skip a field, then BSEG and the two that write. -/
theorem bitBuffer : Obligations.BitBuffer :=
  ⟨bits_rules, bitWrite_rules⟩

/-- Settles O51: `bits_rules` bounds Gb in bytes, where R141 counts lines of 64 bytes; the two agree, as Gb is a multiple of 64. -/
theorem ringIsOpened : Obligations.RingIsOpened := by
  intro s sp a b hs x y hx hy
  obtain ⟨_, hinit, _⟩ := bits_rules s sp 0 a b hs
  obtain ⟨hopens, hrefuses⟩ := hinit x y hx hy
  have hlines : (fld x 63 21 = 0 ∧ fld x 5 1 = 0 ∧ y.toNat % 64 = 0 ∧ fld x 20 6 < y.toNat / 64 ∧ y.toNat / 64 ≤ 0x180000 / 64)
      ↔ (fld x 63 21 = 0 ∧ fld x 5 1 = 0 ∧ y.toNat % 64 = 0 ∧ fld x 20 6 * 64 < y.toNat ∧ y.toNat ≤ 0x180000) := by omega
  exact ⟨fun h => hopens (hlines.1 h), fun h => hrefuses (mt hlines.2 h)⟩

/-! ### Immediates (05 R113 to R115) -/

/-- SHIFTI as it is written: the count below, the type above it (04 R95). -/
theorem decFields_shift (s : Bool) (d a : Reg) (n : BitVec 6) (f : Nat) :
    decFields ⟨s, 0x06, d.toNat, a.toNat, n.toNat + 64 * f⟩ = decShift s d a n f := by
  have hn : n.toNat < 64 := n.isLt
  have htype : (n.toNat + 64 * f) / 64 = f := by omega
  have hcount : BitVec.ofNat 6 (n.toNat + 64 * f) = n := (ofNat_lowPart 6 n.toNat f).trans (ofNat_toNat' n)
  simp only [decFields_06, htype, hcount, ofNat_toNat']

/-- CMPI as it is written: the condition below, the immediate above it (04 R95). -/
theorem decFields_cmpi (s : Bool) (c : Cond) (d a : Reg) (i : BitVec 11) :
    decFields ⟨s, 0x07, d.toNat, a.toNat, c.code + 8 * i.toNat⟩ = some (.cmpi s c d a i) := by
  have hc : c.code < 6 := condCode_lt c
  have hcond : (c.code + 8 * i.toNat) % 8 = c.code := by omega
  have himm : (c.code + 8 * i.toNat) / 8 = i.toNat := by omega
  simp only [decFields_07, hcond, himm, condOf_code, ofNat_toNat', Option.map_some]

/-- An immediate shift by the count that bits [5:0] of Gb hold does what the shift by Gb does (05 R114). -/
theorem shifti_eq_shift {s : State} (hs : s.Clean) (sp : Bool) (d a b : Reg) {n : BitVec 6} (hn : n.toNat = fld (s.ctx.g b) 5 0) :
    exec (.shli sp d a n) s = exec (.shl sp d a b) s ∧ exec (.shri sp d a n) s = exec (.shr sp d a b) s
    ∧ exec (.sari sp d a n) s = exec (.sar sp d a b) s ∧ exec (.rori sp d a n) s = exec (.ror sp d a b) s := by
  have hcount : n.toNat = count (s.ctx.g b) := hn.trans (count_eq _).symm
  have hshift : ∀ f : Word → Nat → Word,
      unOp s sp 4 d a (fun x => f x n.toNat) = binOp s sp 4 d a b (fun x y => f x (count y)) := by
    intro f
    rw [unOp_clean hs, binOp_clean hs, hcount]
  exact ⟨hshift (· <<< ·), hshift (· >>> ·), hshift BitVec.sshiftRight, hshift BitVec.rotateRight⟩

/-- No word but that of all ones is below it. -/
theorem meets_ltu_minusOne (x : Word) : Cond.meets .ltu x ((-1 : BitVec 11).signExtend 64) ↔ x ≠ 0xFFFFFFFFFFFFFFFF := by
  have hones : (-1 : BitVec 11).signExtend 64 = 0xFFFFFFFFFFFFFFFF := by decide
  rw [hones]
  exact BitVec.lt_allOnes_iff

/-- Settles O47: each operation is one `unOp`, whose value is the statement's, and each word is read by the equation of its major. -/
theorem immediateArithmetic : Obligations.ImmediateArithmetic := by
  intro s sp d a hs
  refine ⟨fun i => ?_, ?_, fun n => ?_, fun c i => ?_, fun hx => ?_, fun hx => ?_⟩
  · refine ⟨⟨i.le_toInt, Int.le_of_lt_add_one i.toInt_lt⟩, rfl, unOp_clean hs .., unOp_clean hs .., unOp_clean hs .., unOp_clean hs .., ?_⟩
    simp only [decFields_02, decFields_03, decFields_04, decFields_05, ofNat_toNat', and_self]
  · have hones : (-1 : BitVec 14).signExtend 64 = BitVec.allOnes 64 := by decide
    refine (unOp_clean hs sp 4 d a _).trans ?_
    rw [hones, BitVec.and_allOnes]
    rfl
  · refine ⟨Nat.le_of_lt_succ n.isLt, unOp_clean hs .., unOp_clean hs .., unOp_clean hs .., unOp_clean hs .., ?_,
      fun b hn => shifti_eq_shift hs sp d a b hn,
      decFields_shift sp d a n 0, decFields_shift sp d a n 1, decFields_shift sp d a n 2, decFields_shift sp d a n 3⟩
    refine (unOp_clean hs sp 4 d a _).trans ?_
    rw [rotateRight_complement]
    rfl
  · obtain ⟨hmeets, hfails⟩ := cmpi_rules sp c d a i hs
    exact ⟨⟨i.le_toInt, Int.le_of_lt_add_one i.toInt_lt⟩, hmeets, hfails, decFields_cmpi sp c d a i⟩
  · exact (cmpi_rules sp .ltu d a (-1) hs).1 ((meets_ltu_minusOne _).2 hx)
  · exact (cmpi_rules sp .ltu d a (-1) hs).2 (fun h => (meets_ltu_minusOne _).1 h hx)

/-! ### LEA (05 R117) -/

/-- A field of one bit is the value of the bit. -/
theorem bitsOf_one (w i : Nat) : bitsOf w i i = b2n (bitOf w i) := by
  unfold bitsOf bitOf
  rw [Nat.add_sub_cancel_left, Nat.pow_one]
  rcases Nat.mod_two_eq_zero_or_one (w / 2 ^ i) with h | h <;> rw [h] <;> rfl

/-- Bits [31:18] of major 0x0B are SZ, X and the displacement, from the lowest on. -/
theorem decode_lea {w : Nat} (hw : w < 2 ^ 32) (h1 : bitOf w 1 = true) (hm : bitsOf w 7 2 = 0x0B) : decode (bytesOf 4 w)
    = if bitOf w 20 then none else some (.lea (bitOf w 0) (Sys2Proof.sizeOf (bitsOf w 19 18)) (r5 (bitsOf w 12 8)) (r5 (bitsOf w 17 13))
        (BitVec.ofNat 11 (bitsOf w 31 21)), 4) := by
  have hhi : bitsOf w 31 18 = bitsOf w 20 18 + 8 * bitsOf w 31 21 := bitsOf_split w (by decide) (by decide)
  have hlow : bitsOf w 20 18 = bitsOf w 19 18 + 4 * bitsOf w 20 20 := bitsOf_split w (by decide) (by decide)
  have hsize : bitsOf w 19 18 < 4 := bitsOf_lt w 19 18
  have hx : bitsOf w 20 20 < 2 := bitsOf_lt w 20 20
  have hsz : bitsOf w 31 18 % 4 = bitsOf w 19 18 := by omega
  have hbit : bitsOf w 31 18 / 4 % 2 = b2n (bitOf w 20) := by
    rw [← bitsOf_one]
    omega
  have hdisp : bitsOf w 31 18 / 8 = bitsOf w 31 21 := by omega
  rw [decode_major hw h1 hm, decFields_0B, hsz, hbit, hdisp]
  cases bitOf w 20 <;> rfl

/-- Settles O48: LEA is one `unOp` with the effective address of LD, and X is bit 20. -/
theorem effectiveAddressIsGiven : Obligations.EffectiveAddressIsGiven :=
  ⟨fun _ _ _ _ _ _ hs => unOp_clean hs .., fun _ hw h1 hm => decode_lea hw h1 hm⟩

/-! ### The rows of Table 5.2 (05 R112) -/

/-- The function codes of INTU are the places of the rows of the table. -/
theorem decIntu_row (s : Bool) (d a : Reg) : ∀ k, decIntu s d a k = unaryRows[k]?.map (fun row => row.1 s d a)
  | 0 | 1 | 2 | 3 | 4 | 5 | 6 | 7 | 8 | 9 => rfl
  | _ + 10 => rfl

theorem decode_intu {w : Nat} (hw : w < 2 ^ 32) (h1 : bitOf w 1 = true) (hm : bitsOf w 7 2 = 0x01) : decode (bytesOf 4 w)
    = (if bitsOf w 22 18 = 0 then decIntu (bitOf w 0) (r5 (bitsOf w 12 8)) (r5 (bitsOf w 17 13)) (bitsOf w 31 23) else none).map
        (fun i => (i, 4)) := by
  have hhi : bitsOf w 31 18 = bitsOf w 22 18 + 32 * bitsOf w 31 23 := bitsOf_split w (by decide) (by decide)
  have hlt : bitsOf w 22 18 < 32 := bitsOf_lt w 22 18
  have hb : bitsOf w 31 18 % 32 = bitsOf w 22 18 := by omega
  have hf : bitsOf w 31 18 / 32 = bitsOf w 31 23 := by omega
  rw [decode_major hw h1 hm, decFields_01, hb, hf]

/-- Settles O49: a row's value by `constantResults_rules`, and its word by the row's place in the table. -/
theorem unaryGroupComputes : Obligations.UnaryGroupComputes := by
  intro k row hrow
  refine ⟨fun s sp d a hs => ?_, fun w hw h1 hm hk => ?_⟩
  · obtain ⟨hunary, _⟩ := constantResults_rules s sp d a hs
    exact hunary row (List.mem_of_getElem? hrow)
  · rw [decode_intu hw h1 hm, hk, decIntu_row, hrow]
    split <;> rfl

/-! ### LOOP (05 R127) -/

/-- LOOP as it is written: the hint above a COND of 0, the offset in bits [31:18]. -/
theorem decFields_loop (s : Bool) (h : Hint) (a : Reg) (o : BitVec 14) :
    decFields ⟨s, 0x18, a.toNat, 8 * h.code, o.toNat⟩ = some (.loop s h a o) := by
  have hcond : 8 * h.code % 8 = 0 := Nat.mul_mod_right 8 _
  have hhint : 8 * h.code / 8 = h.code := Nat.mul_div_cancel_left _ (by decide)
  simp only [decFields_18, if_pos hcond, hhint, hintOf_code, ofNat_toNat', Option.map_some]

/-- Settles O50: LOOP by `branch_rules`, whose target is even where the PC is. -/
theorem loopCountsDown : Obligations.LoopCountsDown := by
  intro s sp h a o hs hpc
  obtain ⟨_, _, _, hloop, _⟩ := branch_rules s sp h a 0 hs
  obtain ⟨hzero, hends, hbranches, _⟩ := hloop o
  refine ⟨hzero, fun x ha hx => ?_, decFields_loop sp h a o, fun c hc => ?_⟩
  · subst hx
    have hlast : s.ctx.g a - 1 = 0 ↔ s.ctx.g a = 1 := by bv_omega
    refine ⟨fun h1 => hbranches ha (mt hlast.2 h1) (relative_even s o hpc), fun h0 => ?_, fun hpos => by bv_omega, fun h0 => ?_⟩
    · rw [h0]
      exact hends ha (hlast.1 h0)
    · rw [h0]
      rfl
  · rw [decFields_18, if_neg hc]

end Sys2Proof.Machine
end

section
/-! PROOF. Handler frames, continuations, token status words and the system handler's address (06 R149, R153 to R158, R161 to R164). -/

namespace Sys2Proof.Machine

/-- Settles O8: HANDLE to SHANDLE, then the returns through a token that is live and of a level the context has, then the tokens
that are refused. -/
theorem handlersAndContinuations : Obligations.HandlersAndContinuations :=
  ⟨handle_rules, resume_rules, tokens_rules⟩

/-- Settles O52: the word that TKSTAT gives a live token is a sum of its fields, which `tokenStatus_fields` reads back. -/
theorem tokenStatusIsRead : Obligations.TokenStatusIsRead := by
  intro s sp d a hs hparts
  obtain ⟨_, _, _, hdead, hlive, _⟩ := handle_rules s sp a a a d hs
  exact ⟨hdead hparts, fun sys r cap hrec hframe =>
    ⟨_, hlive sys r cap hparts hrec hframe, tokenStatus_fields _ _ _ _ _ _ rfl⟩⟩

/-! ### What giving way to another context leaves alone (08 R205) -/

@[simp] theorem State.switch_ctx (s : State) (sp : Bool) : (s.switch sp).ctx = s.ctx := by
  obtain ⟨_, hctx, _⟩ := switch_frame s sp
  unfold State.ctx
  rw [hctx, State.switch_pid, State.switch_cx]

@[simp] theorem State.switch_net (s : State) (sp : Bool) : (s.switch sp).net = s.net := by
  obtain ⟨_, _, _, hnet, _⟩ := switch_frame s sp
  exact hnet

@[simp] theorem State.switch_shandler (s : State) (sp : Bool) (q : Nat) : ((s.switch sp).coreAt q).shandler = (s.coreAt q).shandler := by
  obtain ⟨_, _, hcore, _⟩ := switch_frame s sp
  exact (congrArg Core.shandler (hcore q) :)

theorem State.coreAt_switch_ne (s : State) (sp : Bool) {q : Nat} (h : q ≠ s.pid) : (s.switch sp).coreAt q = s.coreAt q := by
  unfold State.switch
  split
  · exact coreAt_modCoreAt_ne s _ h
  · rfl

/-! ### The system handler's address (06 R155, R164) -/

/-- A system effect other than MEMERR enters a system handler that can take it, also while registers of the context are awaited. -/
theorem raised_entersSystem {s : State} (hready : s.SystemReady) {r : Raise} (hsys : Eff.system r.eff = true) (hmem : r.eff ≠ 6)
    (hstk : r.stk = true → s.ctx.stat.emrg = false) : EnteredSystem s (s.raised r) r s.ctx.pc := by
  rw [raised_system hsys hmem hstk]
  exact toSystem_entered hready r _ _

/-- What SHANDLE changes: the handler's address of its core, the PC, and which context of the core runs next. -/
theorem handlerSet_frame (s : State) (sp : Bool) (x : Word) :
    ∀ t, t = ((s.issued 4).modCore (fun k => { k with shandler := x })).switch sp →
      t.pid = s.pid ∧ (t.coreAt s.pid).shandler = x ∧ t.ctx = { s.ctx with pc := s.ctx.pc + 4, run := .runnable }
      ∧ (∀ q, q ≠ s.pid → t.coreAt q = s.coreAt q) ∧ t.mem = s.mem ∧ t.net = s.net := by
  rintro t rfl
  refine ⟨State.switch_pid _ sp, ?_, ?_, fun q hq => ?_, State.switch_mem _ sp, State.switch_net _ sp⟩
  · rw [State.switch_shandler]
    exact congrArg Core.shandler (State.coreAt_modCoreAt (s.issued 4) s.pid _)
  · rw [State.switch_ctx, State.ctx_modCore, State.ctx_issued]
    rfl
  · exact (State.coreAt_switch_ne ((s.issued 4).modCore _) sp hq).trans (coreAt_modCoreAt_ne (s.issued 4) _ hq)

/-- Settles O53: the address is the core's, so the contexts of the core differ in nothing but whether their record is busy. -/
theorem systemHandlerIsSet : Obligations.SystemHandlerIsSet := by
  intro s sp a hs
  obtain ⟨_, _, _, _, _, hset, halign, hpriv⟩ := handle_rules s sp a a a a hs
  refine ⟨hpriv, halign, fun hsup heven => ⟨_, hset hsup heven, ?_⟩⟩
  generalize ht : ((s.issued 4).modCore (fun k => { k with shandler := s.ctx.g a })).switch sp = t
  obtain ⟨hpid, haddr, hctx, hcores, hmem, hnet⟩ := handlerSet_frame s sp (s.ctx.g a) t ht.symm
  have hcore : ∀ cx, ({ t with cx := cx } : State).core.shandler = s.ctx.g a := fun cx => by
    rw [← haddr, ← hpid]
    rfl
  refine ⟨haddr, hctx, hcores, hmem, hnet, fun hzero u cx hu hready => ?_, fun hne u cx hu hfree r hsys hnot hstk => ?_⟩
  · subst hu
    exact hready.1 ((hcore cx).trans hzero)
  · subst hu
    have hentered := raised_entersSystem ⟨(hcore cx).symm ▸ hne, hfree⟩ hsys hnot hstk
    exact ⟨hentered, hentered.regs.pc.trans (hcore cx)⟩

end Sys2Proof.Machine
end

section
/-! PROOF. The vector stores, the additions at their homes, and the format that the vector instructions compute under
(07 R184, R189 to R195). -/

namespace Sys2Proof.Machine
open Laws

/-- Settles O18: VST, VSTS and VSCATTER are one store of the elements kept, in order and so with the last of equal places winning
(`nearStored_at`); VSCATADD posts its elements and performs those in the own scratchpad at once. -/
theorem vectorStoresAndAdds : Obligations.VectorStoresAndAdds :=
  ⟨vectorStores_rules, scatterAdd_rules⟩

/-- Function 4 of the conversions, with T and B of 0, is VCFG just where P is 0 (07 Table 7.7). -/
theorem decVcvt_vcfg (s : Bool) (p d a : Nat) :
    decVcvt s false p d a 0 4 = if p = 0 then some (.vcfg s (r5 d) (r5 a)) else none := by
  simp only [decVcvt, okIf, Bool.not_false, Bool.true_and, beq_self_eq_true, Bool.and_true, beq_iff_eq]

/-- Settles O54: what VCFG answers by `vcfg_rules`, and its P field by the decoder's equation. -/
theorem vectorFormatIsConfigured : Obligations.VectorFormatIsConfigured := by
  intro s sp d a hs
  refine ⟨fun x hx => vcfg_rules hs sp d a x hx, fun p hp => ?_, ?_⟩
  · rw [decVcvt_vcfg, if_neg hp]
  · simp only [decVcvt_vcfg, if_pos, r5, ofNat_toNat']

end Sys2Proof.Machine
end

section
/-! PROOF. Parallel execution: messages from their instruction to their landing, tasks and arms, barriers and joins, the Paddock, the
launch unit, and the effects that stop a context from outside (08; 09 R227 to R249; 21 R404, R415; 24 R442, R443). -/

namespace Sys2Proof.Machine

/-- Settles O9: the messages pass `Act.checkMessage` where `MessageOk` says so (`checkMessage_ok`) and answer ILLEGAL at its first test or
at the id's; then the masks, HCFG and SUBTAG, whose tests are those of `slotWord_iff` and `HSlot.configure_advances`. -/
theorem messagesAndTheInterface : Obligations.MessagesAndTheInterface :=
  ⟨send_rules, ni_rules⟩

/-- Settles O10: a SPAWN that passes its checks answers as the place of its task does (`spawn_of`), the lowest free slot being the one that
the search finds (`find_first`, log 41). FORK is refused just where `fork_refused` says; else it counts its join at issue, once the requests
of the context are done, and its arm takes class and QPRI from a forking task, else class 0 and the launch's priority (log 58). -/
theorem tasksAndArms : Obligations.TasksAndArms :=
  ⟨spawn_rules, fork_rules⟩

/-- Settles O22: a message by the branches of its arrival, where a full pending buffer holds each one (log 43) and siblings hold an ADDF32
landing (log 28); then what becomes later of held landings, bound queues and notices, with the decrements, records and subscriptions. -/
theorem messageArrival : Obligations.MessageArrival :=
  ⟨arrival_rules, held_rules⟩

/-- Settles O24: a barrier request by its operation, each of which ends in `State.phased`, `State.arrived` or `State.registered`
(`settle_phased`, `arrive_arrived`, `register_registered`); the join's decrement by the translation of its address. -/
theorem barrierUpdates : Obligations.BarrierUpdates :=
  ⟨barrierUpdate_rules, joinDecrement_rules⟩

/-- Settles O26: the highest queue with a place for its head is the one found (`four_queues`), aging takes the first old record, and a steal
the first core with a victim (log 36). What begins so begins at user level (log 32). A launch queue is served where it is next
(`lqNext_find`), and its record is read as it stands also from an uncorrectable line (log 55). -/
theorem paddockAndLaunchQueues : Obligations.PaddockAndLaunchQueues :=
  ⟨paddock_rules, launchQueues_rules⟩

/-- Settles O27: the cause of a rejection is the first of the nine conditions that fails (`launchCause_first`), READY standing for the
covered dies and clusters (log 60), and a rejected record signals its queue (log 34); a core starts with its image (log 14) in the
lowest free context, or waits for one (`freeLow_cases`); a launch without work ends once nothing holds its record back (log 44). -/
theorem launches : Obligations.Launches :=
  ⟨launchCheck_rules, coreStart_rules, launchEnd_rules⟩

/-- Settles O29: WATCHDOG by its count (log 47), PREEMPT where it is open (`preempt_open`) at a switch point (`preempt_point`, log 50) or
forced, and never where `preempt_shut` applies, and MIGRATE; then the writes of PREQ and MIGR on the core itself and through SYSWR. -/
theorem preemptionAndRequests : Obligations.PreemptionAndRequests :=
  ⟨preempt_rules, preq_rules⟩

end Sys2Proof.Machine
end

section
/-! PROOF. The counters that contexts wait on, LAUNCH, and the barrier instructions (09 R240, R242 to R248). -/

namespace Sys2Proof.Machine

/-- Settles O11: JOINW by what its watched read gives (`Act.watchRead_at`), giving way also where it completes at once (log 35); CNTINIT as a
releasing store (log 39, `Act.rmw_free`); LAUNCH by the sixteen words of its record, read one after another (`readMem_at`). A barrier
instruction first passes `Act.handle` just where the handle is legal (`handle_at`, `handle_bad`), then sends; a wait in context 4 is
ILLEGAL before that, with EFFARG 0 (log 17). -/
theorem countersLaunchAndBarriers : Obligations.CountersLaunchAndBarriers :=
  ⟨counters_rules, barriers_rules⟩

end Sys2Proof.Machine
end

section
/-! PROOF. The memory hierarchy: its form at reset, what an access does at its home, package registers and agents outside, versions with
their transactions and sequencer, the copy engines, and how an activation moves (10; 12; 15 R339 to R352; 22 R418 to R425; 24 R433 to
R442). -/

namespace Sys2Proof.Machine

/-- Settles O46: nothing has been written at reset, so the memory is the list of no cells, which is canonical. -/
theorem memoryFormAtReset : Obligations.MemoryFormAtReset := by
  unfold Obligations.MemoryFormAtReset State.memOk
  have hempty : State.reset.mem = [] := rfl
  rw [hempty, Memory.wf]

/-- Settles O13: a tile's record is loaded just where `TileImage` says so (`tileImage_iff`); LDV, STV and LDVW first pass their version's
checks (`versioned_at`), then find the line's entry in the log (`logOf_at`). LDVW gives way also where it completes at once (log 35), and
with Gb = 0 it returns at once (log 42). COMMIT hands over the lines that `Act.logLines` places, in the order of their addresses
(`order_spec`). -/
theorem tilesVersionsAndTransactions : Obligations.TilesVersionsAndTransactions :=
  ⟨tiles_rules, versions_rules, transactions_rules⟩

/-- Settles O20: CPY, CPYB and CPYM are their list of checks (`Act.checks_some`, `Act.checks_none`; that of CPYM in the order of log 38), then
the start of a copy, which waits for room (`startCopy_wait`) or opens the channel (`startCopy_issued`); the receivers of CPYM are fixed at
issue (log 52). Then WMWAIT, SPLD and BANKOP. -/
theorem copyInstructions : Obligations.CopyInstructions :=
  ⟨copy_rules, multicast_rules, marks_rules⟩

/-- Settles O30: a ready move puts the context on its target (`moved`), its counts of starts and its residence going on as log 46 says, and a
map change is the table's entry followed by what it overtakes (`remapped_eq`, log 75). An estimate is one step of the cluster
(`clusterPower_estimated`, with the free weights of log 9) and then a fold over the contexts that it looks at, which asks them to move
(`ask_fold`) or withdraws what was asked (`clear_fold`). -/
theorem migrationAndEstimates : Obligations.MigrationAndEstimates :=
  ⟨move_rules, estimate_rules⟩

/-- Settles O31: a piece at a plain home is read and written in its bytes (`plain_read`, `plain_write`), with the lanes of its flags as log 66
says. Then the other homes: an uncorrectable line loses the piece (`lost_plain`, a store in flight as in log 63), a versioned line takes a
commit under the timestamp it holds or a new one (`putVersioned_line`, log 56), and a replica's writes are numbered and applied. -/
theorem memoryAtItsHome : Obligations.MemoryAtItsHome :=
  ⟨access_rules, homes_rules⟩

/-- Settles O32: a register by its offset (`regWrite_eight`, `lqctl_cases`; log 13), an access from outside by whether the device's store
takes it (`reaches_refused`, `outside_write`; log 31), then the walks (log 61) and the soft errors. -/
theorem registersAndOutside : Obligations.RegistersAndOutside :=
  ⟨registers_rules, outside_rules, errors_rules⟩

/-- Settles O33: a read and a delivery of a segment by their branches (`read_of`, `delivery_of`), where one that has begun does not fail by
its check (`begun_neg`); an item's end by `completion_of`, closing the copy just where it is the last (`lastItem_iff`). -/
theorem copyEngineEvents : Obligations.CopyEngineEvents :=
  ⟨copyEngine_rules, copyEnd_rules⟩

/-- Settles O34: a snapshot, a lock, a timestamp and an install are each one step of the sequencer, a line held by a single-line commit
refusing the lock as one held by a stamped commit does (log 56, `conflict_of`). The snapshot revoked is the first of the oldest
(`oldestSnap_of`), whose revocation starts the clocks again (log 56), and a renumbering revokes them all (`revokes`). -/
theorem sequencerAndGroom : Obligations.SequencerAndGroom :=
  ⟨sequencer_rules, groom_rules⟩

end Sys2Proof.Machine
end

section
/-! PROOF. The consistency model as instructions see it: atomics, ordered loads and stores, and fences (12 R298 to R313). -/

namespace Sys2Proof.Machine

/-- Settles O12: an AMO row or CAS that passes its checks places its bytes and leaves the rest to `Act.rmw_free`, by which the own scratchpad
performs it at once and any other home is sent one request; a row's reserved mode (`amo_mode`) comes before its place, and a refused place is
a system effect (`amo_refused`). Elsewhere than in the own scratchpad LDA is one acquiring load, fresh at SYS scope only (`post_relabel`),
and STL one releasing store (`Act.store_far`). What waits, FENCE included, waits by `Act.drain` for all of the context's requests (log 5). -/
theorem atomicsAndOrderedAccesses : Obligations.AtomicsAndOrderedAccesses :=
  ⟨atomics_rules, ordered_rules⟩

end Sys2Proof.Machine
end

section
/-! PROOF. The matrix unit and the rank unit, from the instruction that pushes a command to the unit that executes it (16; 17), and the
system instructions with the images of contexts and cores (21 R404 to R417). -/

namespace Sys2Proof.Machine

/-- Settles O21: each instruction runs its hurdles in order (`Act.hurdles_step`), the tiles in operand order (log 59) and SCEN only where it
has a meaning (log 72), then pushes its command or waits for room (`pushesMat_of`, `pushesRank_of`). Backward tiles that overlap name the
first that meets a later one (`backwardTiles_hurdle`, log 27). Of the stream instructions, which stop at their first hurdle by `stopsAt_of`,
RKRES leaves the stream DONE while it waits (log 54). -/
theorem matrixAndRankInstructions : Obligations.MatrixAndRankInstructions :=
  ⟨matrix_rules, rankPush_rules, rankStreams_rules⟩

/-- Settles O35: the next matrix command is run (`matrix_exec`) and leaves the unit with its status entry (`matrixEnd_facts`); a run that it
begins and the next command does not continue is written at once (`runBlock_fresh`, `flush_fresh`). A status entry without room holds back
the commands of its own context only (log 54). The rank unit runs its first command, and its streams take flits by their state and entries
one at a time (`rank_rules_arrive`, `rank_rules_step`). -/
theorem matrixAndRankUnits : Obligations.MatrixAndRankUnits :=
  ⟨matrixUnit_rules, rankUnit_rules⟩

/-- Settles O19: TLBI by what it leaves of each TLB (`invalidate_spec`); both encodings of a save and of a load are one operation
(`exec_save`, `exec_load`), which answers its statuses in the order of logs 22, 24 and 25 (`saveContext_status`, `loadCore_status`), and
else leaves the context freed (`saveCtx_spec`), the core as at reset (`savedCore_spec`), or what the image holds (`loadCtx_spec`,
`loadedCore_spec`, the device's areas being free by log 8). -/
theorem systemInstructionsAndImages : Obligations.SystemInstructionsAndImages :=
  ⟨system_rules, save_rules, load_rules⟩

end Sys2Proof.Machine
end

section
/-! PROOF. The Farrier and the Trace ports: caps and budgets, reports, sensors and readiness, firmware and the host mailbox, and flits
(22 R426; 24 R431, R436 to R439; 25 R445 to R454). -/

namespace Sys2Proof.Machine

/-- Settles O38: a cap message by the distance of its number from the last (`capMessage_cases`), and a budget update cluster by cluster
(`budgets`). An hourly entry logs each count (`correctedLog`), readings and reports being free bytes (logs 11, 29). A Trace port sends under
the model that fits the most beats (`chooseModel_codes`), and takes a flit in order, an acknowledgement (log 10) or a resynchronisation. -/
theorem capsReportsAndPorts : Obligations.CapsReportsAndPorts :=
  ⟨caps_rules, reports_rules, trace_rules⟩

/-- Settles O36: a sample at or above its limit trips the package (`trip_trips`), and one below it changes its own reading alone; a reading
that does not fit TEMP is invalid (log 29). A self-test sets its READY bit (`setReady_changes`), the lead die being the lowest ready one
once the wait is over (`chooseLead_open`), and a unit out of service loses its bit with a log entry (`taken_out`). -/
theorem sensorsAndReadiness : Obligations.SensorsAndReadiness :=
  ⟨sensors_rules, readiness_rules⟩

/-- Settles O37: a bank runs just where its image passes (`bank_good`, log 11). RESET and loss of power are one restart, which keeps what
log 51 says (`restart_restarted`); a chunk stages and the empty one activates (`firmware_rules_stage`, `firmware_rules_activate`, log 30).
The mailbox sets OVR while a command runs (`mailbox_run`), else begins one with its result (`mailbox_free`), its readings free by log 29. -/
theorem firmwareAndMailbox : Obligations.FirmwareAndMailbox :=
  ⟨firmware_rules, mailbox_rules⟩

end Sys2Proof.Machine
end
